-- ==== Sys2Proof/Word.lean ====
section
/-! DEFINITION. The word types of the module: bytes and 32-bit registers (R4, R448). -/

namespace Sys2Proof

/-- One byte of memory. -/
abbrev Byte := BitVec 8

/-- The contents of one 32-bit control register (R448). -/
abbrev Word := BitVec 32

end Sys2Proof
end

