-- ==== Sys2Proof/Config.lean ====
section
/-! DEFINITION. What the spec leaves open: constants without a body, so that no proof can see a value of them. -/

namespace Sys2Proof

/-- A fresh 64-bit value, one for each number the model draws from its counter: every value that the spec calls
undefined, random or does not state. -/
opaque Config.freeValue : Nat → BitVec 64

/-- The numbers that the spec leaves open where it gives the rest of a computation: c_fit without a signal (R159), where a
block of 65,536 bytes is cut in two (R357), a bound that is not stated (R322), the code of SYSFREQ (R209), a quotient by 0
(R115), the angle of the origin and the error of an angle within its bound (R79, R115), what energy takes from a scale that is no
finite number and from samples that the Hilbert filter still waits for (R283), a magnitude over a nominal value that is not
above 0 (R79), a sample delayed by a fraction of its period or beyond what the channel has kept (R273), a modulator's bit
where its Manchester line shows none or its mode is reserved (R265), and an element of a POISONED record (R278). -/
inductive Config.Fn where
  | conf | deflate | bound | frequency | divide | angle | power | magnitude | delay | modBit | element
  deriving DecidableEq, Repr

/-- Such a number of 32 bits, from what it depends on. -/
opaque Config.num : Config.Fn → List Nat → BitVec 32

/-- The Hilbert FIR of an output rate (R283): the coefficient, in 2⁻³⁰, of the sample that many output periods before the centre, the coefficients
after it being their opposites; and how many periods the FIR spans on either side. -/
opaque Config.hilbert : Nat → Nat → BitVec 32
opaque Config.hilbertSpan : Nat → Nat

/-- Whether a rising mid-bit transition of a Manchester line is a 1 (R265). -/
opaque Config.manchesterRise : Bool

/-- The block of Table 19.2 whose work a byte of the engine buffers holds (Table 13.1). -/
opaque Config.engineOwner : Nat → Nat

/-- The 16 bytes of the blocks that CCM* forms from a nonce of 14 bytes, where its standard takes 13 at most (R316): the first block of the integrity
code, by the code's length and whether there is additional data, for a text of so many bytes; and counter block i. -/
opaque Config.ccmBlock : List Byte → Option (Nat × Bool) → Nat → List Byte

/-- The IV of a GMAC over a message where the spec states none: of session PDUs (0: R81, R135, R200), of mirror-link frames (1: R382). -/
opaque Config.gmacIv : Nat → List Byte → List Byte

/-- The OTP root and the published test root (R399, R410). -/
opaque Config.otpRoot : Nat
opaque Config.testRoot : Nat

/-- PK0, the Quistra authority fixed in OTP, and PK1 as written at manufacture (R398). -/
opaque Config.pk0 : Nat
opaque Config.pk1 : Nat

/-- The device ID and the die revision read from OTP (R2). -/
opaque Config.deviceId : Nat
opaque Config.dieRev : Nat

/-- The contents of the boot ROM (Table 19.1). -/
opaque Config.bootRom : Nat → Byte

/-- The five check bits of a byte of on-chip SRAM, and the reserved pattern that marks poison (R325, R328). -/
opaque Config.byteCode : Byte → BitVec 5
opaque Config.bytePoison : BitVec 5

/-- The 128 check bits of a line of DRAM by its 512 data bits, the reserved pattern that marks poison, and the data that the line code's decoder
proposes for an error in one of the eight data devices (R326, R328). -/
opaque Config.lineCode : Nat → BitVec 128
opaque Config.linePoison : BitVec 128
opaque Config.lineFix : Nat → Nat → Nat → BitVec 512

/-- The ops of the library (Tables 6.4 and 8.4). -/
inductive LibOp where
  | thrEval | pairEval | rplBand | rplAaf | rplMpref | rplProj | rplCov | rplAr | rplSolve | rplTrack | rplDef | rplDefRank
  | sysfreq | vecGather | vecMap | vecReduce | biquad | scalarCmp | namedOut | annot | hostIn | hostOut
  deriving DecidableEq, Repr

/-- Where an output port of an op delivers: an input port of an op, or a sink of Table 8.2. -/
inductive Dest where
  | op (op port : Nat)
  | alm
  | rplState
  | outAnalytics (index : Nat)
  | cmpAnnot
  | hostOut (queue : Nat)
  deriving DecidableEq, Repr

/-- One op of a graph (R205): its library op, class (true: epoch), ring (0 main, 1 slow), priority class, connected input
ports, carry ports, whether it is wired to the close source, its outputs' destinations, and its block: the contexts,
monitors or elements it covers. -/
structure OpDef where
  lib : LibOp
  libId : Nat
  epoch : Bool
  ring : Nat
  prio : Nat
  ins : List Nat
  carry : List Nat
  close : Bool
  outs : List (List Dest)
  block : List Nat
  deriving DecidableEq, Repr

/-- One step of VEC_MAP on an element (Table 8.4), its constants float32: given, or the scalar of an input port. -/
inductive MapArg where
  | const (v : Nat)
  | port (p : Nat)
  deriving DecidableEq, Repr

inductive MapStep where
  | scale (a : MapArg)
  | offset (a : MapArg)
  | abs
  | sqrt
  | clamp (lo hi : MapArg)
  deriving DecidableEq, Repr

/-- The scalar that VEC_REDUCE gives. -/
inductive Reduction where
  | sum | mean | min | max | argmin | argmax
  deriving DecidableEq, Repr, Inhabited

/-- The comparison whose flag SCALAR_CMP gives. -/
inductive Comparison where
  | gt | ge | lt | le | eq | ne
  deriving DecidableEq, Repr, Inhabited

/-- What the 16 parameter words of a vector or scalar op of the library set (Table 8.4, R232): the feature field that VEC_GATHER takes, by its byte
offset in the feature record, the steps of VEC_MAP, the function of VEC_REDUCE, the sections of BIQUAD (b0, b1, b2, a1, a2 as float32), the
comparison of SCALAR_CMP. -/
structure LibSettings where
  field : Nat
  steps : List MapStep
  reduce : Reduction
  sections : List (Nat × Nat × Nat × Nat × Nat)
  cmp : Comparison
  deriving DecidableEq, Repr, Inhabited

/-- The library's own reading of an op's parameter words, which Table 8.6 leaves to it. -/
opaque Config.libSettings : Nat → List Nat → LibSettings

/-- The code of a library op in Quistra microcode, and what its firing leaves in the core's private scratch: offsets and bytes. -/
opaque Config.libCode : Nat → List Byte
opaque Config.libTemps : Nat → Nat → List (Nat × Byte)

/-- One thing that a section of an image brings about when it is applied (R434, R435): a register's value, bytes of
memory, an op of the graph, a row of a table that has no register, or the refusal of the section. -/
inductive LoadItem where
  | reg (addr mask value : Nat)
  | bytes (addr : Nat) (data : List Byte)
  | graphOp (op : Nat) (d : OpDef)
  | table (id index value : Nat)
  | extension (slot : Nat) (data sig : List Byte)
  | refuse
  deriving DecidableEq, Repr

/-- The items of a section body in Grenty's own format (R435), by section type. -/
opaque Config.sectionItems : Nat → List Byte → List LoadItem

/-- The bucket that the keyed hash of R64 gives a lookup key in a table (0 A, 1 B) under the drawn hash key, and which resident STR
displaces for a key at a step of the displacements. -/
opaque Config.bucket : Nat → Nat → List Byte → Nat
opaque Config.victim : Nat → Nat → List Byte → Nat

/-- Whether the 16 parameter words of a library op lie in its ranges and keep the occupancy of R216, and whether one of them
is marked STRUCTURAL (R232). -/
opaque Config.opParamOk : Nat → List Nat → Bool
opaque Config.opStructural : Nat → Nat → Bool

/-- Where an op's output port puts what a REF token refers to (R206, R217): the offset into shared scratch and the length, both before they
are brought into range. -/
opaque Config.opSpan : Nat → Nat → Nat × Nat

/-- The dynamic-Huffman DEFLATE form of a block under a dictionary (R357), as CMP's encoder chooses it. -/
opaque Config.deflate : List Byte → List Byte → List Byte

/-- One byte of a structure whose layout the spec leaves open: which structure, the values it gives, the byte's index. -/
opaque Config.layout : Nat → List Nat → Nat → Byte

/-- A frame or message whose coding the spec takes from a standard, by kind, from the values it carries. -/
opaque Config.encode : Nat → List Nat → List Byte

/-- Where a text lies in the configuration frame store of R132, by its kind and index: offset and length. -/
opaque Config.cfgSpan : Nat → Nat → Nat × Nat

/-- A field of a standard's message whose value the spec does not give, by its kind and what the message is about. -/
opaque Config.stdField : Nat → List Nat → Nat

/-- The items of a PARTIAL_B or LATE payload (R376): whether each is the full record of an OUTPUT context, and its bytes; and
the coding of such items. -/
opaque Config.partialItems : List Byte → List (Bool × List Byte)
opaque Config.partialBytes : List (Bool × List Byte) → List Byte

/-- The source IP address of an uplink and an IP version outside a redundant pair (R127), the hop limit of datagrams that
OUT and ALM send, the window that OUT's segments advertise, and the PTP clock identity of a port (R248). -/
opaque Config.uplinkIp : Nat → Bool → Nat
opaque Config.hopLimit : Byte
opaque Config.tcpWindow : Nat
opaque Config.clockId : Nat → Nat

/-- One ASDU of a sampled-values SPDU as IEC 61850-90-5 codes it: svID zero-padded to 42 bytes, refrTm as seconds, 24-bit
fraction and quality octet, smpCnt, smpSynch, the dataset. -/
structure Asdu where
  svid : List Byte
  refr : Option (Nat × Nat × Nat)
  cnt : Nat
  synch : Nat
  data : List Byte
  deriving DecidableEq, Repr

/-- A session PDU: whether STR supports its session and security (R60), its key identifier, number, whether a MAC is
present, and its ASDUs. -/
structure Spdu where
  supported : Bool
  keyId : Nat
  num : Nat
  mac : Bool
  asdus : List Asdu
  deriving DecidableEq, Repr

end Sys2Proof
end

