-- ==== Sys2Proof/Machine/Parts.lean ====
section
/-! DEFINITION. The parts of the state as plain data, block by block, with their values after reset. -/

namespace Sys2Proof.Machine

/-! ### Registers, accesses and events -/

/-- A table of records by instance number: sorted, no repeats, and no entry equal to the value an unlisted instance has. -/
abbrev Tbl (α : Type) := List (Nat × α)

/-- The register file. `vis` holds what software sees (the shadow of an RWS field), `act` the active copy of RWS
fields, `com` the sets committed and waiting for their hand-over, `dirty` the keys written since their block's last
COMMIT, `locked` the LCK registers already written (R5), `fresh` what the hardware did in the cycle it names (TB7): for each register
its value before, with the bits set or the increments (R6, R9), `late` the sets committed in the cycle it names: for each register the
value that waited before (R109 and its like), `wrote` the keys written in the cycle it names and `handed` those of the sets that handed over in
it. Registers not listed in `vis` or `act` hold their reset value. -/
structure Regs where
  vis : Tbl Word
  act : Tbl Word
  com : Tbl Word
  dirty : List Nat
  locked : List Nat
  fresh : Nat × Tbl (Word × Nat)
  late : Nat × Tbl (Option Word)
  wrote : Nat × List Nat
  handed : Nat × List Nat
  deriving DecidableEq, Repr

/-- What a bus access answered its master (R447, R448, R453, R348). -/
inductive Response where
  | value (v : Nat)
  | written
  | busError
  | violation
  | stalled (since : Nat)
  deriving DecidableEq, Repr

/-- The TB7 instant since which an access stalls; none where it does not. -/
def Response.stallSince : Response → Option Nat
  | .stalled t => some t
  | _ => none

/-- One event on its way to the recorder's areas: the fields of Table 17.1 that are fixed when it is raised. -/
structure Event where
  seq : Nat
  sec : Nat
  ns : Nat
  code : Nat
  src : Nat
  b14 : Nat
  b15 : Nat
  arg0 : Nat
  arg1 : Nat
  snap : List Nat
  at7 : Nat
  deriving DecidableEq, Repr

/-- EVR (chapter 17): the numbering, the input buffer of R419 (oldest first), the holding queue Q4 of R421, and the
losses not yet reported. -/
structure Evr where
  seq : Nat
  lastHead : Nat
  firstCount : Nat
  buf : List Event
  held : List Event
  lostIn : Nat
  lostInFirst : Nat
  frozenAt : Option Nat
  lostFrz : Nat
  lostFrzFirst : Nat
  unlockAt : Option Nat
  ready : Bool
  clearWaits : Option Bool
  clrLast : Bool
  before : Option (Nat × Tbl Word)
  deriving DecidableEq, Repr

/-! ### Modes, SYS and PWR -/

/-- The twelve modes of Table 18.1, in code order. -/
inductive Mode where
  | load | selftest | acquire | active | holdover | standby | takeover | degraded | maintenance | debug | save | halt
  deriving DecidableEq, Repr

/-- The QSPI command in progress (R455). -/
structure QspiBusy where
  program : Bool
  addr : Nat
  src : Nat
  deriving DecidableEq, Repr

/-- SYS (chapters 18 and 19): the mode and what decides its changes, the image and tuning-set state, the watchdog,
the interrupt controller's registers, QSPI, and whether the part is a YD-4810-W (R1). -/
structure Sys where
  mode : Mode
  enteredFrom : Mode
  haltCause : Nat
  lastHaltCause : Nat
  haltAt : Nat
  saveCause : Nat
  degDma : Bool
  degSelftest : Bool
  degHoldup : Bool
  zeroised : Bool
  paired : Bool
  cascade : Bool
  straps : Nat
  bank : Nat
  trial : Bool
  imgResult : Nat
  imgVersion : Nat
  imgRollback : Nat
  imgId : Nat
  pairCompat : Nat
  loadResult : Nat
  imageApplied : Bool
  selftestResult : Nat
  goodSince : Option Nat
  tuneResult : Nat
  tuneCounter : Nat
  restartWaits : Option Nat
  wdogAt : Option Nat
  mtip : List Nat
  plicPrio : Tbl Nat
  plicEn : Tbl Nat
  plicThr : Tbl Nat
  plicClaimed : List Nat
  qspi : Option QspiBusy
  qspiResult : Nat
  maintWaits : Bool
  bankMask : Nat
  variantW : Bool
  deriving DecidableEq, Repr

/-- PWR (chapters 18 and 20). Temperatures in quarters of a degree, the highest since the last read of TEMP_MAX, voltages in tenths
of a volt; whether the J7 modulator supply is on (R468). -/
structure Pwr where
  pfWarn : Bool
  thermWarn : Bool
  holdupLow : Bool
  supplyGood : Bool
  testRun : Option Nat
  temp : Int
  tempMax : Option Int
  holdupUs : Nat
  vin : Nat
  supplyGoodSince : Option Nat
  coolSince : Option Nat
  lastTest : Option Nat
  modSupply : Bool
  deriving DecidableEq, Repr

/-! ### KEY, TAM and ACC (chapter 16) -/

/-- One secret slot (R397): the key is held here and reached by no register. -/
structure KeySlot where
  valid : Bool
  len256 : Bool
  attr : Nat
  id : Nat
  gen : Nat
  key : Nat
  deriving DecidableEq, Repr

/-- A key change that passed every check and awaits its key-operation boundary (R404). -/
structure KeyChange where
  op : Nat
  slot : Nat
  len256 : Bool
  attr : Nat
  id : Nat
  body : Nat
  deriving DecidableEq, Repr

structure Key where
  slots : Tbl KeySlot
  epoch : Option Nat
  pk : Tbl Nat
  deviceId : Nat
  counter : Nat
  testRoot : Bool
  debugOpen : Bool
  waiting : Option KeyChange
  zeroisedWaiting : Bool
  result : Nat
  deriving DecidableEq, Repr

/-- One entry of the VBAT tamper log (R409). -/
structure TamperEntry where
  source : Nat
  flags : Nat
  elapsed : Nat
  deriving DecidableEq, Repr

structure Tam where
  cfg : Nat
  asserted : List Nat
  lastSrc : Option Nat
  log : List TamperEntry
  overflow : Bool
  deriving DecidableEq, Repr

/-- ACC: the frozen masters (R415) and the last violation. -/
structure Acc where
  frozen : List Nat
  lastViol : Nat × Nat × Nat × Nat
  deriving DecidableEq, Repr

/-! ### TIM (chapter 9) -/

/-- The states of Table 9.4, in code order. -/
inductive TbState where
  | off | freerun | acquiring | locked | holdover | unlocked
  deriving DecidableEq, Repr

/-- One time base. Its value is the anchor pair of R238 (`va` in 2⁻¹⁶ ns, `na` in ns of the reference) and the rate
`rho` in 2⁻³⁸; a disciplined counter is held by the same pair over TB7. `fi` and `prop` are in 2⁻¹⁶ ns/s (R251),
errors in ps. `steps` is the sum of its steps in ns (R246). -/
structure TimeBase where
  virtual : Bool
  refTb0 : Bool
  va : Int
  na : Nat
  rho : Int
  steps : Int
  st : TbState
  src : Nat
  qual : List Nat
  lockedSince : Option Nat
  reacq : Bool
  newly : Bool
  x : Int
  fi : Int
  prop : Int
  lastMeas : Option Nat
  lastExt : Option Nat
  win : List Int
  refill : Bool
  eSrc : Nat
  e0 : Option Nat
  outRun : Nat
  okSince : Option Nat
  syncs : List (Int × Int)
  rratio : Int
  latchSec : Nat
  latchNs32 : Nat
  deriving DecidableEq, Repr

/-- One PTP slave (R245): what the Announce of its best master said, with that master's port identity; a two-step Sync that awaits its
Follow_Up as (sequence number, correction, receive stamp); the last complete measurement as (origin in ns, corrections in 2⁻¹⁶ ns, receive
stamp on the time base in ns), until TIME_MEASUREMENT takes it (R39, R246); TB7 of the last Announce and of the last Sync (with its
Follow_Up), and their logMessageIntervals as header bytes (Table 9.3); TB7 since which the slave has met its condition of Table 9.3
(R243). -/
structure PtpPort where
  st : Nat
  gm : Nat
  prio1 : Nat
  variance : Nat
  prio2 : Nat
  ptpScale : Bool
  annAt : Option Nat
  annLog : Nat
  syncAt : Option Nat
  syncLog : Nat
  clockClass : Nat
  accuracy : Nat
  ttiPresent : Bool
  tti : Nat
  utcOffset : Nat
  utcValid : Bool
  leap61 : Bool
  leap59 : Bool
  steps : Nat
  sender : Nat
  sync : Option (Nat × Int × Nat)
  meas : Option (Nat × Int × Nat)
  okSince : Option Nat
  deriving DecidableEq, Repr

/-- Peer delay of one port (R248), delays in 2⁻⁸ ns: the request in flight (TB7 of sending, sequence number, egress
stamp t1), the stamps t2 and t4 of a two-step answer, and t3, t4 of the last exchange, all on the port's time base. -/
structure PeerDelay where
  seq : Nat
  t1 : Option Nat
  corr : Int
  t2 : Nat
  t4 : Nat
  last : Option (Nat × Nat)
  results : List Int
  valid : Bool
  goodRun : Nat
  failRun : Nat
  outRun : Nat
  reqAt : Option Nat
  nrr : Int
  deriving DecidableEq, Repr

/-- One pulse output (R260 to R262): the next edge of its series in TB ns, and the end of the pulse in progress. -/
structure PulseOut where
  armed : Bool
  nextEdge : Option Nat
  pulseEnd : Option Nat
  deriving DecidableEq, Repr

/-- TIN (R249, R250): the last good IRIG-B frame, TB7 of the last frame, the UTC second that it names; the ToD sentences; the level of the
1PPS pin and TB7 of its last on-time edge; for each source TB7 since which it has met its condition of Table 9.3 (R243). -/
structure Tin where
  irigValid : Bool
  irigMiss : Nat
  irigTq : Nat
  irigFmt : Nat
  irigLeap : Option (Bool × Bool)
  irigAt : Option Nat
  irigUtc : Option Nat
  irigSince : Option Nat
  todValid : Bool
  todSec : Option Nat
  todAt : Option Nat
  todBad : Nat
  ppsPresent : Bool
  ppsAt : Option Nat
  ppsLevel : Bool
  todSince : Option Nat
  ppsSince : Option Nat
  deriving DecidableEq, Repr

/-- TIM: the time bases and what feeds them; of REF10 (R236) its presence and TB7 since which it has been more than 5 ppm from the TCXO and
within 2 ppm of it; the leap table (R256) with its expiry, the sources that disagree with it (R258) and how many entries TB0 has passed; the
second of the next hand-over (R263); whether TB0 has been LOCKED to a source of seconds (Table 9.3). -/
structure Tim where
  tb : Tbl TimeBase
  ptp : Tbl PtpPort
  pd : Tbl PeerDelay
  po : Tbl PulseOut
  tin : Tin
  ref10Present : Bool
  ref10Bad : Option Nat
  ref10Good : Option Nat
  oscActive : Nat
  leaps : List (Nat × Int)
  leapExpiry : Nat
  leapBad : List Nat
  leapExpired : Bool
  handoverAt : Option Nat
  secsSeen : Bool
  leapDone : Nat
  deriving DecidableEq, Repr

/-! ### ALN (chapter 4) -/

/-- The states of a basin (Table 4.2), in code order. -/
inductive BState where
  | free | opened | alarmClosed | outputClosed | retained
  deriving DecidableEq, Repr

/-- A weir's settings as a basin latches them (R91), in µs. -/
structure WeirCfg where
  mode : Nat
  w : Nat
  wmin : Nat
  wmax : Nat
  q : Nat
  deriving DecidableEq, Repr

/-- One basin at its ring position. `slot` numbers slot times over all seconds (second × rate + k); `waits` holds each
expected context's partition and latched waits in µs; `condA` and `condB` the cause with which a weir condition first held;
`closeA7` TB7 of the alarm close; `lastMet` the partitions whose quorum was met last, at TB7 `metAt`; other instants are TB0
ns. -/
structure Basin where
  st : BState
  seq : Nat
  slot : Nat
  soc : Nat
  k : Nat
  t0 : Nat
  bmp : BitVec 8192
  bmpA : BitVec 8192
  bmpB : BitVec 8192
  expected : BitVec 8192
  wa : WeirCfg
  wb : WeirCfg
  retainMs : Nat
  quorum : Tbl Nat
  parts : Tbl Nat
  waits : Tbl (Nat × Nat × Nat)
  firstArr : Option Nat
  spaced : Bool
  forcedFree : Bool
  lateClosed : Bool
  archiving : Bool
  causeA : Nat
  causeB : Nat
  waOff : Int
  wbOff : Int
  arrivedA : Nat
  arrivedB : Nat
  lateFilled : Nat
  unexpected : Nat
  dups : Nat
  openAt : Nat
  outDone : Bool
  missDone : Bool
  archOwed : List Nat
  condA : Option Nat
  condB : Option Nat
  closeA7 : Nat
  metAt : Nat
  lastMet : List Nat
  deriving DecidableEq, Repr

/-- One ring (R87): whether it runs, its positions, the numbering of R92, the last alarm close (TB0 ns), the run of missed
basins, the alarm-closed basin whose CLOSE tokens wait for an expiry, and the waits of a context without a history from the
last tick. -/
structure Ring where
  run : Bool
  started : Bool
  pos : Tbl Basin
  nextSeq : Nat
  nextSlot : Nat
  lastCloseA : Option Nat
  missRun : Nat
  missFirst : Nat
  awaits : Option Nat
  w0A : Nat
  w0B : Nat
  deriving DecidableEq, Repr

/-- ALN's record of a context. -/
structure AlnCtx where
  silent : Bool
  missRun : Nat
  seen : Nat
  hist : List Nat
  wA : Nat
  wB : Nat
  relearn : Bool
  deriving DecidableEq, Repr

/-- A claim in flight (R97): the record's basin, context and latency bin, and whether it was claimed after the basin's
alarm close. -/
structure Claim where
  ring : Nat
  seq : Nat
  ctx : Nat
  bin : Nat
  post : Bool
  deriving DecidableEq, Repr

structure Aln where
  rings : Tbl Ring
  ctx : Tbl AlnCtx
  partLast : Tbl (Nat × Nat)
  claims : List Claim
  featOwner : Tbl Nat
  deriving DecidableEq, Repr

/-! ### Memories, MEM, DMA and QUE (chapter 13) -/

/-- The memories a bus address reaches (Table 19.1) as (address, byte) pairs in rising order, a byte of 0 unlisted;
the flash likewise by its own offsets, an erased byte (0xFF) unlisted; poison as (memory of Table 13.1, byte of an SRAM
or line of DRAM), sorted; and the physical data and check bits, by memory × 2³² + unit, of the units that the diagnostic window or a remap
left with other contents than their data under its code. -/
structure Mem where
  cells : List Host.Cell
  flash : List Host.Cell
  poison : List (Nat × Nat)
  raw : Tbl (Nat × Nat)
  deriving DecidableEq, Repr

/-- One protected memory of Table 13.1 as MEM sees it: the tracker (oldest entry first), the scrubber, the remaps made
in it as (unit, array, spare), and corrections waiting to be written back. -/
structure MemUnit where
  track : List (Nat × Nat)
  pos : Nat
  lapStart : Nat
  starved : Bool
  forced : Bool
  lapMs : Nat
  lastCe : Nat
  lastUe : Nat
  remaps : List (Nat × Nat × Nat)
  writebacks : List Nat
  deriving DecidableEq, Repr

/-- MEM: its memories, and the next free entry of the remap table. -/
structure MemBlk where
  units : Tbl MemUnit
  remapNext : Nat
  deriving DecidableEq, Repr

inductive DmaState where
  | idle | pending | running | halted | frozen
  deriving DecidableEq, Repr

/-- How far a channel's run has come: the elements read, the bytes of the holding register with their poison, whether poison was met, and whether
the next read waits in an empty queue (R338, R348). -/
structure DmaProg where
  next : Nat
  hold : List (Byte × Bool)
  poison : Bool
  waits : Bool
  deriving DecidableEq, Repr

/-- One DMA channel: 0–15 of DMA-T, 16–31 of DMA-B; `since` is the instant at which its run began. -/
structure DmaCh where
  st : DmaState
  again : Bool
  err : Nat
  poison : Bool
  done : Nat
  since : Nat
  prog : DmaProg
  deriving DecidableEq, Repr

structure Dma where
  ch : Tbl DmaCh
  frozen : List Nat
  running : Tbl (Option Nat)
  excluded : List Nat
  deriving DecidableEq, Repr

/-- One item of a queue: 64 bits, its EOP flag, and whether it is a break marker (R346). -/
structure QItem where
  val : Nat
  eop : Bool
  brk : Bool
  deriving DecidableEq, Repr

/-- One queue: its items oldest first, the pool slot of the oldest, the instant at which its last item was stored, and the state of the packet
being pushed (R346). -/
structure Queue where
  items : List QItem
  rd : Nat
  fed : Nat
  pktOpen : Bool
  discarding : Bool
  breakPending : Bool
  flushPending : Bool
  stalled : List Nat
  deriving DecidableEq, Repr

/-! ### DFE (chapter 8) -/

/-- A token (Table 8.1): the header's fields and the payload bytes. -/
structure Token where
  op : Nat
  port : Nat
  tag : Nat
  ring : Nat
  gen : Nat
  epoch : Bool
  inc : Bool
  gap : Nat
  kind : Nat
  payload : List Byte
  entry : Nat
  deriving DecidableEq, Repr

/-- A firing: an op for a tag with the tokens it took; `dead` once its tag has expired (R23) or its core was lost; the epoch published
when it was dispatched (R156); TB7 when it was placed; whether it is a later slice, fired by one continuation token (R213). -/
structure Firing where
  op : Nat
  tag : Nat
  toks : List Token
  dead : Bool
  epoch : Nat
  placed : Nat
  slice : Bool
  deriving DecidableEq, Repr

/-- One step of a firing's emissions, in order: a token to an op, the commit of the state once its carry tokens are accepted (R217), what a
sink receives, INCOMPLETE or not, with the float32 of an analytics sink. -/
inductive Emit where
  | tok (t : Token)
  | commit
  | sink (s : Dest) (inc : Bool) (value : Nat)
  deriving DecidableEq, Repr

/-- A 64-byte line of a cache: its number (address ÷ 64), its bytes, whether it is dirty. -/
structure CacheLine where
  line : Nat
  data : List Byte
  dirty : Bool
  deriving DecidableEq, Repr

/-- The states of DFE.CORE_STATE, in code order. -/
inductive CoreState where
  | idle | run | frozen | memFault | halted
  deriving DecidableEq, Repr

/-- One fabric core (R203): its ready queue (R211), its running firing, the emissions that a stall leaves (R215), the pool, its instruction cache
of library code, its write-back data cache (both newest line first, 512 lines of 64 bytes), and its private 64 KiB scratch (canonical,
an unlisted byte is 0). -/
structure Core where
  st : CoreState
  out : Bool
  rejoin : Bool
  queue : List Firing
  running : Option Firing
  since : Nat
  lastOp : Nat
  lastTag : Nat
  held : List Emit
  faultAt : Option Nat
  haltReq : Bool
  icache : List CacheLine
  dcache : List CacheLine
  scratch : List Host.Cell
  deriving DecidableEq, Repr

/-- The fabric: the graph, the matching store (arrival order, each token with its physical entry), the ready instances not yet placed, of
which `back` holds those that a core gave back with their operands (R226) and `slices` the operands of those that wait for a continuation
token (R213), the tokens of engines and dispatcher that the sluice holds, each with its class (0 A, 1 B, 2 C), the last committed half of
each carry port by 4 × op + port (R217), the generation, for each ring the sequence number whose expiry is due and one more than the newest closed, the rings whose due tag
had not published all its results by the alarm close, the analytics
sinks by 1024 × index + tag mod 1024 as (tag, value), the annotations by 1024 × ring + tag mod 1024 as (tag, INCOMPLETE,
data). -/
structure Dfe where
  graph : Tbl OpDef
  store : List Token
  ready : List (Nat × Nat)
  cores : Tbl Core
  gen : Nat
  peak : Nat
  engHeld : List (Nat × Token)
  back : List Firing
  slices : List Firing
  halves : Tbl Nat
  sluiceSeen : Bool
  closedTag : Tbl (Option Nat)
  closedSeq : Tbl Nat
  missed : List Nat
  analytics : Tbl (Nat × Nat)
  annot : Tbl (Nat × Bool × List Byte)
  deriving DecidableEq, Repr

/-! ### PRT (chapter 2) -/

/-- What a frame still needs when it leaves its port: the correction of a transparent clock (R45) with the ingress port,
the ingress stamp on the pair's time base in ns without the time base's steps and the key of the two-step table, or the turnaround of a Pdelay_Resp. -/
inductive TxFix where
  | none
  | oneStep (port : Nat) (stamp : Int)
  | twoStep (port : Nat) (stamp : Int) (key : Nat)
  | followUp (pair key : Nat)
  | pdelayReq
  | pdelayResp (stamp tb : Nat)
  deriving DecidableEq, Repr

/-- A frame queued for transmission, without its FCS: its class (R48), whether a bridge pair forwards it. -/
structure Egress where
  cls : Nat
  fwd : Bool
  fix : TxFix
  bytes : List Byte
  deriving DecidableEq, Repr

/-- An ingest-bound frame in a receive FIFO, without its FCS, with its arrival time in TB0 ns (R39). -/
structure RxFrame where
  bytes : List Byte
  stamp : Nat
  deriving DecidableEq, Repr

/-- One entry of the two-step table (R45): its key, the sum to add in 2⁻¹⁶ ns, and TB7 when it was stored. -/
structure TcEntry where
  key : Nat
  sum : Int
  at7 : Nat
  deriving DecidableEq, Repr

/-- One port of PRT: the link, the settings in effect in each direction (R31), the committed filter entries (R38: 0–15
unicast, 16–47 multicast), TB7 of the last commit with the entries before that cycle's commits, the first fragments of datagrams that no
listener names (R40: TB7 and the datagram's key), the VLAN membership words, the receive FIFO, the egress queue, the host policer, the byte
counters, and the last frame put on the wire. -/
structure PrtPort where
  up : Bool
  speed : Nat
  hdx : Bool
  modPresent : Bool
  los : Bool
  txFault : Bool
  powered : Bool
  cfgRx : Nat
  cfgTx : Nat
  pairRx : Nat
  pairTx : Nat
  filt : Tbl (Nat × Nat)
  filtOld : Option (Nat × Tbl (Nat × Nat))
  strange : List (Nat × List Byte)
  vlan : Tbl Word
  fifo : List RxFrame
  txq : List Egress
  hrx : Nat × Nat
  rxBytes : Nat
  txBytes : Nat
  tc : List TcEntry
  ip6id : Nat
  sent : List Byte
  deriving DecidableEq, Repr

/-! ### STR (chapter 3) -/

/-- A datagram under reassembly (R62): its key, the arrival time and TB7 of its first fragment, the total length once
known, the fragments by offset, and whether one of them came poisoned (R73). -/
structure Reasm where
  key : List Byte
  arr : Nat
  at7 : Nat
  total : Option Nat
  frags : List (Nat × List Byte)
  poison : Bool
  deriving DecidableEq, Repr

/-- A record that the write path offers to ALN (R96, R97): its ring, slot and context, its latency bin, its bytes and its feature's, the
cascade member whose item it is, and what the context's registers say of it once it is written. -/
structure Offer where
  ring : Nat
  slot : Nat
  ctx : Nat
  bin : Nat
  bytes : List Byte
  feat : List Byte
  member : Option Nat
  arr : Nat
  k : Nat
  soc : Nat
  status : Nat
  srcStat : Nat
  cfg : Bool
  nan : Bool
  deriving DecidableEq, Repr

/-- STR's state: datagrams under reassembly, the class buckets (debt, TB7), the last class 3 notice of each context, the
anti-replay windows (highest number, bits below it), the hash key of R64, the records that wait for a claim (R97), whether a drop on the
full exception ring has come since its last slot was written (R66). -/
structure Stream where
  reasm : List Reasm
  exc : Tbl (Nat × Nat)
  notice : Tbl Nat
  replay : Tbl (Nat × Nat)
  hashKey : Nat
  offers : List Offer
  full : Bool
  deriving DecidableEq, Repr

/-! ### OUT (chapter 5) -/

/-- A stream's part of one basin: whether it has been handed over and whether a frame of it was sent, the high octet of that frame's
time, the members unmarked at weir B and still unmarked (by context), whether a late mark has come, whether it has been re-sent, the
sessions its data went to, and the analytics it first carried. -/
structure OutPart where
  part : Nat
  launched : Bool
  sent : Bool
  high : Nat
  missing : List Nat
  late : Bool
  resent : Bool
  sessions : List Nat
  analytics : List Byte
  deriving DecidableEq, Repr

/-- A basin as an output stream sees it: the settings latched at the basin's open (R138), the bitmap copy of weir B with the members of
other modules marked then, the instant of weir B (TB0 ns), the parts. -/
structure OutJob where
  ring : Nat
  seq : Nat
  slot : Nat
  soc : Nat
  k : Nat
  base : Nat
  stream : Nat
  latched : List Nat
  weirB : Option Nat
  bmp : BitVec 8192
  merged : List Nat
  parts : List OutPart
  deriving DecidableEq, Repr

/-- One TCP output session (R128 to R130): its state (0 CLOSED, 1 ESTABLISHED, 2 CLOSING), the start of a stall, the
sequence numbers, the taken window, the number after the last buffered byte, the data-on bits. -/
structure Session where
  st : Nat
  stall : Option Nat
  una : Nat
  nxt : Nat
  wnd : Nat
  top : Nat
  on : Nat
  finSent : Bool
  deriving DecidableEq, Repr

/-- OUT: the jobs in hand, the sessions, per stream the IPv4 Identification counter, the SPDU number and one more than the
last period of the periodic CFG-2, the UDP data-on parts, the first instant of the unlocked condition (R118, TB7), whether
output is stopped (R396), per stream the sinks its analogs 1 to N show (R121), CFGCNT (R133), the frames signed at the instant named
(TB7), with their port and publisher (R135, R200), and the re-sends asked for at the instant named (TB7): session, number, frames queued
(R130). -/
structure Out where
  jobs : List OutJob
  sess : Tbl Session
  ident : Tbl Nat
  spdu : Tbl Nat
  cfgSec : Tbl Nat
  udpOn : List Nat
  unlockedAt : Option Nat
  halted : Bool
  ana : Tbl (List Nat)
  cfgCnt : Nat
  signed : Nat × List (Nat × Option Nat × List Byte)
  retx : Nat × List (Nat × Nat × List Egress)
  deriving DecidableEq, Repr

/-! ### CAS (chapter 15) -/

/-- What the cascade knows of a member: MBR_STATE (0 ABSENT, 1 PRESENT, 2 EXCLUDED), hops by each link (15 unreachable), TB7
when it was last heard, its LOAD count and which of its links are up as its HELLO said, the frame numbers accepted from
it. -/
structure CasMbr where
  st : Nat
  hops0 : Nat
  hops1 : Nat
  heard : Option Nat
  loads : Nat
  up0 : Bool
  up1 : Bool
  seqs : List Nat
  deriving DecidableEq, Repr

/-- CAS: the merged records' offsets and format words by global index (R377), their elements' scales by 64 × global index + element, the
merged bits as (ring position, global
index), sorted; the links up, the topology, the ring epochs and TB7 of the change; members; the own frame number; the export
kinds by context (1 PROXY, 2 OUTPUT, 3 both), the proxies' master contexts by global index; the last delays measured by link;
the frames sent at the last instant of sending as (link, frame). -/
structure Cas where
  offset : Tbl (Nat × Nat)
  scales : Tbl Nat
  merged : List (Nat × Nat)
  up : List Nat
  topo : Nat
  epoch : Nat
  prevEpoch : Nat
  epochAt : Nat
  mbr : Tbl CasMbr
  seq : Nat
  export_ : Tbl Nat
  proxy : Tbl Nat
  excluded : Bool
  timeOk : Bool
  badSince : Option Nat
  delays : Tbl (List Nat)
  out : Nat × List (Nat × List Byte)
  deriving DecidableEq, Repr

/-! ### SDM and NRG (chapter 10) -/

/-- One decimated sample: its represented time in TB0 ns, the trimmed value in 2⁻⁵¹ of full scale, the secondary value y
(R274) as float32, its flags. -/
structure SdmSample where
  at_ : Nat
  v : Int
  y : Nat
  ovr : Bool
  settling : Bool
  fault : Bool
  deriving DecidableEq, Repr

/-- One channel: FAULT, the samples still to be flagged SETTLING on each path, TB7 of the last OVR sample, the modulator's bits of the last two
coarse output instants and each path's outputs before the channel's delay since the last reset, newest first (R272, R273), and the samples
of the last 2.2 s of each path, newest first. -/
structure SdmCh where
  fault : Bool
  settle : Nat
  settleC : Nat
  resetAt : Option Nat
  ovrAt : Option Nat
  bits : List Nat
  rawFine : List Int
  rawCoarse : List Int
  fine : List SdmSample
  coarse : List SdmSample
  deriving DecidableEq, Repr

/-- SDM: the channels, the TB0 ns and the causes of a reset of all channels that waits for a whole second, TB0 ns of the last
one, the slot of the last record of each point, the TB0 second of a hand-over while no ring runs. -/
structure Sdm where
  chans : Tbl SdmCh
  syncAt : Option (Nat × Nat)
  syncT : Option Nat
  lastSync : Nat
  ptLast : Tbl (Option Nat)
  handAt : Option Nat
  deriving DecidableEq, Repr

/-- A metering point: the previous boundary in TB0 ns, fallback, whether the signal has been below −ZC_HYST, the instant of a
crossing that counts, the flagged samples' instant and time in ns, the accumulators with their 24 fraction bits, the WRAP and
WRAP2 bits, and a clear in progress (0 none, 1 asked for, 2 its event raised). -/
structure NrgPt where
  start : Option Nat
  fallback : Bool
  below : Bool
  cross : Option Nat
  unmet : Bool
  unmetAt : Nat
  unmetNs : Nat
  acc : List Nat
  before : Option (Nat × List Nat)
  wrap : Nat
  wrap2 : Nat
  clear : Nat
  deriving DecidableEq, Repr

/-- NRG: the points, the freeze instant, ENERGY_LOST, the snapshot, the slot with the newest good save (2 none) and its
number, the save in progress as (slot, number, bytes), TB7 of the next save, what RESUME found, the start of the unmetered
interval. -/
structure Nrg where
  pts : Tbl NrgPt
  frozen : Option Nat
  lost : Bool
  snap : Tbl (List Nat)
  snapAt : Nat
  slot : Nat
  seq : Nat
  saving : Option (Nat × Nat × List Byte)
  nextSave : Nat
  resume : Nat
  unmetered : Nat
  deriving DecidableEq, Repr

/-! ### CAP (chapter 11) -/

/-- A sample row: its represented time, the channels' values and flag codes in mask order, the digital word. -/
structure CapSample where
  at_ : Nat
  vals : List (Nat × Nat)
  dig : Nat
  deriving DecidableEq, Repr

/-- A chunk of the record ring (R298): its reduction, sequence number, offset in the ring, row bytes, and for each row the
represented time of its first sample and the end of its interval. -/
structure CapChunk where
  red : Nat
  seq : Nat
  off : Nat
  rowBytes : Nat
  rows : List (Nat × Nat)
  deriving DecidableEq, Repr

/-- One entry of a trigger list: offset from T in ns, source, TYPE, bus line, originating member. -/
structure CapTrig where
  off : Int
  source : Nat
  type : Nat
  line : Nat
  member : Nat
  deriving DecidableEq, Repr

/-- A capture in progress: its number, T, the start and end of its rows, PRE_ACTUAL in ns, PRE_SHORT, the triggers counted and
listed. -/
structure Capture where
  num : Nat
  t : Nat
  from_ : Nat
  pre : Nat
  short : Bool
  trigs : Nat
  list : List CapTrig
  opened : Nat
  deriving DecidableEq, Repr

/-- One capture unit: UNIT_STATE code, the next capture number, the unreleased captures as (number, T, chunk numbers), the
chunks in the ring in order of starting, the write position, the next chunk number, the time from which rows are there, the
samples of each reduction's open interval, the capture in progress, T of the last capture, triggers counted in HOLDOFF, the
trigger slots' detector states, the last times of a reset of all channels and of an unlocked TB0. -/
structure CapUnit where
  st : Nat
  num : Nat
  kept : List (Nat × Nat × List Nat)
  chunks : List CapChunk
  wr : Nat
  seq : Nat
  span : Option Nat
  acc : Tbl (List CapSample)
  cur : Option Capture
  lastT : Nat
  held : Nat
  active : List Nat
  stepAt : Option Nat
  unlockedAt : Option Nat
  newest : Nat
  deriving DecidableEq, Repr

/-- CAP: the units; the bus signals that wait for their act time as (line, T, originating member + 16 × (originating unit + 1),
no unit for another member's); T of the newest signal by
line; the levels at the TRG pins; the ends of output pulses in TB0 ns. -/
structure Cap where
  units : Tbl CapUnit
  bus : List (Nat × Nat × Nat)
  lastSig : Tbl (Option Nat)
  trg : Nat
  pulse : Tbl Nat
  deriving DecidableEq, Repr

/-! ### CMP (chapter 14) -/

/-- A frame in progress: its basin, whether it is a key frame, the index of the next block, the transformed input still to be
written, the block size latched at its start, and whether only a GAP segment is left to write. -/
structure CmpFrame where
  ring : Nat
  seq : Nat
  key : Bool
  idx : Nat
  rest : List Byte
  block : Nat
  gap : Bool
  deriving DecidableEq, Repr

/-- An archive group: the basins queued as (ring, sequence number, freed early), GRP_STATE[STATE], its frame, the frames since
its last key frame, the members of its last frame as record size × 65536 + context, and the encryption of that frame. -/
structure CmpGroup where
  queue : List (Nat × Nat × Bool)
  st : Nat
  frame : Option CmpFrame
  sinceKey : Nat
  layout : List Nat
  cipher : Bool × Nat
  deriving DecidableEq, Repr

/-- A compression context: its segment sequence number, the last 32 KiB of transformed input, use, suspension, key due. -/
structure CmpCtx where
  seq : Nat
  hist : List Byte
  inUse : Bool
  suspended : Bool
  keyNext : Bool
  deriving DecidableEq, Repr

/-- CMP: groups, contexts, the descriptors of the jobs that wait and of those that run. -/
structure Cmp where
  groups : Tbl CmpGroup
  ctxs : Tbl CmpCtx
  jobs : List (List Byte)
  running : List (List Byte)
  deriving DecidableEq, Repr


/-! ### RPL (chapter 6) -/

/-- A signal as a detector or channel takes it (R140 to R145): consecutive missing samples, the last valid input (none since the reset),
the steps taken while WARMING, the low-pass at the base rate as its last valid sample, two state words and output, the band-pass's four
state words, the unwrapped angle of the last valid sample in 2⁻³² turns, the slots of the last tick that the filter and the low-pass
processed. -/
structure Sig where
  miss : Nat
  held : Option Nat
  warm : Nat
  raw : Option Nat
  lp : List Nat
  lpOut : Nat
  filt : List Nat
  ang : Option Int
  last : Option Nat
  lpLast : Option Nat
  deriving DecidableEq, Repr

/-- One band detector (context × 4 + band): its signal, the smoothed square e and the published RMS as float32, whether the last step was
held (R146, R147). -/
structure Band where
  sig : Sig
  e : Nat
  pub : Nat
  wasHeld : Bool
  deriving DecidableEq, Repr

/-- One channel of the modal window: its signal, its modal sample, its fill weight v as float32 and whether the last solve included it. -/
structure Chan where
  sig : Sig
  x : Nat
  here : Bool
  v : Nat
  included : Bool
  deriving DecidableEq, Repr

/-- An AR(20) estimator (R157): θ, the last 20 values newest first, P by rows, the powers of signal and residual, as float32. -/
structure Rls where
  theta : List Nat
  phi : List Nat
  p : List (List Nat)
  vy : Nat
  ve : Nat
  deriving DecidableEq, Repr

/-- One track (R156 to R168): `vec` and `vec0` are its eigenvector and that of the last publication before, by channel; `y` the modal
coordinate of the tick tag `yTag`, `yHeld` the last one that the estimator took, at slot `arLast`; `ySq` and `yN` the sum of squares and
count in the epoch, `ampB` the epoch's RMS at its boundary; `rdAr` the estimator of a ringdown, `rdOut` one whose ringdown has ended. `status` is 0 FREE, 2 VALID, 3 HOLD (WARMING and RINGDOWN are the engine's);
`hist` holds its last epochs, newest first, as (VALID, amplitude). -/
structure Track where
  status : Nat
  serial : Nat
  matched : Bool
  m : Nat
  missed : Nat
  vec : List (Nat × Nat)
  vec0 : List (Nat × Nat)
  ar : Option Rls
  y : Nat
  yTag : Option Nat
  yHeld : Nat
  arLast : Option Nat
  ySq : Nat
  yN : Nat
  ampB : Nat
  rdAr : Option Rls
  rdOn : Bool
  rdOut : Option Rls
  freq : Nat
  zeta : Nat
  amp : Nat
  share : Nat
  cfit : Nat
  conf : Nat
  pairOf : Option Nat
  paired : Bool
  damp : Bool
  dampRun : Nat
  dampClr : Nat
  fo : Bool
  foFail : Nat
  cv : Nat
  rdPoor : Bool
  rdFreq : Nat
  rdZeta : Nat
  hist : List (Bool × Nat)
  deriving DecidableEq, Repr

/-- One DEF branch (R169, R170): the state words of its four filters (P, Q, angle, ln|V|), the unwrapped angle in 2⁻³² turns, the last
filtered angle and ln|V|, W, its samples newest first with whether each was there, the slope. -/
structure DefBranch where
  filt : List (List Nat)
  ang : Option Int
  prev : Option (Nat × Nat)
  w : Nat
  samples : List (Nat × Bool)
  slope : Nat
  deriving DecidableEq, Repr

/-- RPL: the detectors, channels and tracks; the covariance's upper triangle by 512 × row + column, the fill weight s, s at the last
boundary, all float32; the modal ticks of the epoch in progress, its number, the last published one; the copy that the accelerator took as
its channels and triangle (R153), the solve under way (epoch, basin sequence number, slot, TB7 of its boundary), the components once it is
done as eigenvector and eigenvalue share; the slot of the last tick that the covariance took with its modal samples and presence by
channel, the tick tag in progress with the ops that completed it; the slots whose catch-up is counted; the dominant mode of the last
publication; the ringdown; the epoch (low 16 bits) whose results a lost firing withholds (R227); DEF with the values gathered for a branch (P, Q, angle in 2⁻³² turns, ln|V|). -/
structure Rpl where
  bands : Tbl Band
  chans : Tbl Chan
  tracks : Tbl Track
  cov : Tbl Nat
  s : Nat
  fillB : Nat
  ticks : Nat
  epoch : Nat
  published : Nat
  warming : Bool
  serial : Nat
  included : Nat
  copyCh : List Nat
  copyC : Tbl Nat
  solving : Option (Nat × Nat × Nat × Nat)
  solved : Option (List (List (Nat × Nat) × Nat))
  solveUs : Nat
  lastModal : Option Nat
  covX : List (Nat × Nat × Bool)
  covTag : Option Nat
  covOps : List Nat
  gapSeen : List Nat
  dom : Option Nat
  ringdown : Option Nat
  rdDone : Bool
  rdTag : Nat
  lost : Option Nat
  defRun : Option (Nat × Nat × Nat)
  defB : Tbl DefBranch
  rank : List (Nat × Nat)
  ranked : Nat
  gather : Option (Nat × Nat)
  gathered : Tbl (Nat × Nat × Int × Nat)
  deriving DecidableEq, Repr

/-! ### ISL (chapter 7) -/

/-- One branch: its status, STALE, STALE_RUN, whether it has had a sample since LOAD, and whether its stale run has been reported. -/
structure Branch where
  closed : Bool
  stale : Bool
  run : Nat
  seen : Bool
  told : Bool
  deriving DecidableEq, Repr

/-- One bus: its island ID, what its last measurement was valid for, MISMATCH and its run. -/
structure Bus where
  island : Nat
  fOk : Bool
  aOk : Bool
  dead : Bool
  mismatch : Bool
  run : Nat
  deriving DecidableEq, Repr

/-- One island slot (Table 7.2): state code, the angle history (unwrapped, in 2⁻³² turns, newest first). -/
structure Island where
  id : Nat
  state : Nat
  slip : Bool
  slipRun : Nat
  latch : Bool
  count : Nat
  ref : Option Nat
  df : Nat
  da : Nat
  since : Nat
  hist : List Int
  deriving DecidableEq, Repr

/-- ISL: branches, buses, island slots, the main island's ID, the ID counter, and the run under way (basin sequence number,
debounced inputs at its alarm close). -/
structure Isl where
  branches : Tbl Branch
  buses : Tbl Bus
  islands : Tbl Island
  mainId : Nat
  nextId : Nat
  valid : Bool
  untracked : Nat
  running : Option (Nat × Nat)
  since : Nat
  lastUs : Nat
  deriving DecidableEq, Repr

/-! ### ALM (chapter 7) -/

/-- A threshold detector or an angle-pair monitor: ACTIVE or CLEAR, INVALID at its last evaluation, the last Δθ in 2⁻³² turns
with its tag, the last value shown. -/
structure Detector where
  on : Bool
  active : Bool
  invalid : Bool
  last : Option (Nat × Int)
  delta : Nat
  deriving DecidableEq, Repr

/-- One alarm definition: state code of Table 7.6, RUN, RAW, RESET_PENDING, HELD, quality of its publication entry (0 good,
1 invalid, 2 questionable), the basin it last dealt with (sequence number + 1), the basin of its last assertion, TB7 of the pending reset, its
output before the basin it last dealt with. -/
structure AlmDef where
  st : Nat
  run : Nat
  raw : Bool
  resetPending : Bool
  held : Bool
  qual : Nat
  dealt : Nat
  lastSeq : Nat
  resetAt : Nat
  before : Bool
  deriving DecidableEq, Repr

/-- One publisher: whether it sends, its numbers, t (TAI second, ns, quality octet), the repetition index and TB7 of the next message, and
the dataset as last sent (output + 2 × quality). -/
structure Publisher where
  on : Bool
  loaded : Bool
  st : Nat
  sq : Nat
  sec : Nat
  ns : Nat
  tq : Nat
  i : Nat
  nextAt : Option Nat
  data : List Nat
  deriving DecidableEq, Repr

/-- ALM: detectors (context × 4 + t), monitors, definitions, publishers; the pins asserted and the pulses in progress (TB7 of
their ends); the debounced inputs; for each ring the sequence number under evaluation and what was published for it as
(kind, number): kind 0 an op of the graph, 1 ISL; whether a fence or release silenced the publishers; the output
words by ring × 1024 + sequence number mod 1024 (R122); what LOAD fixes for the publishers: gocbRef, datSet and goID as numbers of their
characters and confRev by 4 × publisher, and the APPID (R198). -/
structure Alm where
  det : Tbl Detector
  pair : Tbl Detector
  defs : Tbl AlmDef
  pubs : Tbl Publisher
  asserted : List Nat
  pulses : Tbl Nat
  driven : Bool
  di : Nat
  cur : Tbl (Option Nat)
  got : Tbl (List (Nat × Nat))
  silenced : Bool
  words : Tbl (Nat × Nat)
  names : Tbl Nat
  appid : Tbl Nat
  deriving DecidableEq, Repr

/-! ### RAD (chapter 12) -/

/-- One node: its state (0 NEVER, 1 SYNC, 2 STALE), pending bit, wide listen in its last uplink cell, MISS_RUN, the drift D as
float32 ppm, the last offset in µs, the ASN of the last heard frame, TB5 ns of the last correction, the posted downlink, whether
a resynchronisation is posted, the attempts, the number of the last post, and the number that the last attempt sent with whether it carried
the posted downlink. -/
structure RadNode where
  st : Nat
  pend : Bool
  wide : Bool
  miss : Nat
  d : Nat
  x : Int
  asn : Nat
  corrAt : Option Nat
  dl : Option (List Byte)
  resync : Bool
  tries : Nat
  post : Nat
  sent : Option (Nat × Bool)
  deriving DecidableEq, Repr

/-- RAD: the nodes; one more than the ASN of the slot in progress; the units that have heard their cell's node in it, the units whose cell has
ended, the parent cell still unheard (true: an EB cell); the runs of missed parent cells, the slotframe in which the third miss fell, the
widenings, the slotframe in which a scan began, the slotframe from which transmission resumes, the parent's join metric and EUI-64; the
frames sent in the last instant of sending as (unit, channel, frame). -/
structure Rad where
  nodes : Tbl RadNode
  slot : Nat
  heard : List Nat
  ended : List Nat
  await : Option Bool
  missEb : Nat
  missKa : Nat
  lost : Option Nat
  widened : Nat
  scan : Option Nat
  resumeAt : Option Nat
  metric : Nat
  parent : Option Nat
  hops : Tbl (List Nat)
  pendAt : Nat × List (Nat × Bool)
  pendRad : Nat × List Nat
  air : Nat × List (Nat × Nat × List Byte)
  deriving DecidableEq, Repr

/-! ### RED (chapter 15) -/

/-- A heartbeat message (Table 15.2) without its check field: the role, IMAGE_VALID, HEALTHY and PREFERRED of byte 1, the
sequence, the role epoch, the basin sequence number. -/
structure RedMsg where
  role : Nat
  image : Bool
  healthy : Bool
  preferred : Bool
  seq : Nat
  epoch : Nat
  basin : Nat
  deriving DecidableEq, Repr

/-- One heartbeat path: whether it is up, the run of consecutive good exchanges, TB7 of the last RENEW and of the last message
received on it, the sequence of the last RENEW received, the RENEW that the last ACK echoed and its round trip in µs. -/
structure RedPath where
  up : Bool
  good : Nat
  renewAt : Option Nat
  heardAt : Option Nat
  renewSeq : Nat
  ack : Option Nat
  rtt : Nat
  deriving DecidableEq, Repr

/-- One item of a checkpoint (Table 15.5) in its home location. -/
inductive CkptItem where
  | ring (r nextSeq nextSlot : Nat)
  | alnCtx (c : Nat) (x : AlnCtx)
  | replay (c high seen : Nat)
  | carry (addr : Nat) (data : List Byte)
  | islBus (i : Nat) (x : Bus)
  | islBranch (i : Nat) (x : Branch)
  | islSlot (i : Nat) (x : Island)
  | islIds (mainId nextId : Nat)
  | detector (k : Nat) (x : Detector)
  | pair (k : Nat) (x : Detector)
  | definition (d : Nat) (x : AlmDef)
  | pulse (p left : Nat)
  | publisher (p : Nat) (x : Publisher)
  | rpl (x : Rpl)
  | ident (s v : Nat)
  | spdu (s v : Nat)
  | udpOn (parts : List Nat)
  | cfgNotice (s : Nat) (on : Bool)
  | node (n : Nat) (x : RadNode)
  | committed (key : Nat) (w : Word)
  | tuneCounter (n : Nat)
  deriving DecidableEq, Repr

/-- A CHECKPOINT frame (R391): its sender's epoch and PAIR_COMPAT (R441), the basin sequence number of its tag, its offset and length, LAST, whether
its tag verified, its items. -/
structure CkptFrame where
  epoch : Nat
  compat : Nat
  basin : Nat
  offset : Nat
  length : Nat
  last : Bool
  good : Bool
  items : List CkptItem
  deriving DecidableEq, Repr

/-- RED: the role code, the role epoch, what the partner last said, SOLO, the paths (0 A, 1 B), the RENEW sequence and the last
RENEWs sent as (sequence, TB7), newest first; the end of the lease, the end of the listen and what it heard (RENEW, another
role), the start of the fail-back conditions, whether a takeover made this module active; the planned handover's basin h as (slot, sequence
number) and the TB0 ns from which output stops; the checkpoint: the image's validity, the tag being received, the bytes of it that have
come, whether it is whole so far, the whole deltas in a row, the last tag cut or applied; the takeover's TB7 and TB0 ns, the
flagged basins, the gap in µs; the messages sent at the last instant of sending as
(path, message); RPL's state as of its last published epoch (R165), the items that the last cuts sent, the frames of the last cut with
TB7 of it. -/
structure Red where
  role : Nat
  epoch : Nat
  pEpoch : Nat
  pRole : Nat
  pImage : Bool
  pHealthy : Bool
  pPreferred : Bool
  pBasin : Nat
  solo : Bool
  paths : Tbl RedPath
  seq : Nat
  sends : List (Nat × Nat)
  leaseEnd : Option Nat
  listenEnd : Option Nat
  heardRenew : Bool
  heardOther : Bool
  holdSince : Option Nat
  byTakeover : Bool
  handover : Option (Nat × Nat)
  stopAt : Option Nat
  image : Bool
  ckTag : Option Nat
  ckBytes : Nat
  ckWhole : Bool
  ckRun : Nat
  ckLast : Nat
  tkAt : Option Nat
  tkNow : Nat
  tkFirst : Nat
  tkLast : Nat
  gapUs : Nat
  out : Nat × List (Nat × List Byte)
  ckRpl : Rpl
  ckSent : List CkptItem
  ckOut : Nat × List CkptFrame
  deriving DecidableEq, Repr


/-! ### Reset -/

def Evr.reset : Evr where
  seq := 0
  lastHead := 0
  firstCount := 0
  buf := []
  held := []
  lostIn := 0
  lostInFirst := 0
  frozenAt := none
  lostFrz := 0
  lostFrzFirst := 0
  unlockAt := none
  ready := false
  clearWaits := none
  clrLast := false
  before := none

def Sys.reset : Sys where
  mode := .load
  enteredFrom := .acquire
  haltCause := 0
  lastHaltCause := 0
  haltAt := 0
  saveCause := 0
  degDma := false
  degSelftest := false
  degHoldup := false
  zeroised := true
  paired := false
  cascade := false
  straps := 0
  bank := 0
  trial := false
  imgResult := 0
  imgVersion := 0
  imgRollback := 0
  imgId := 0
  pairCompat := 0
  loadResult := 0
  imageApplied := false
  selftestResult := 0
  goodSince := none
  tuneResult := 0
  tuneCounter := 0
  restartWaits := none
  wdogAt := none
  mtip := []
  plicPrio := []
  plicEn := []
  plicThr := []
  plicClaimed := []
  qspi := none
  qspiResult := 0
  maintWaits := false
  bankMask := 0
  variantW := false

def Pwr.reset : Pwr where
  pfWarn := false
  thermWarn := false
  holdupLow := false
  supplyGood := true
  testRun := none
  temp := 0
  tempMax := none
  holdupUs := 0
  vin := 0
  supplyGoodSince := none
  coolSince := none
  lastTest := none
  modSupply := false

/-- An empty secret slot (R400). -/
def KeySlot.empty : KeySlot where
  valid := false
  len256 := false
  attr := 0
  id := 0
  gen := 0
  key := 0

def Key.reset : Key where
  slots := []
  epoch := none
  pk := []
  deviceId := 0
  counter := 0
  testRoot := false
  debugOpen := false
  waiting := none
  zeroisedWaiting := false
  result := 0

def Tam.reset : Tam where
  cfg := 0
  asserted := []
  lastSrc := none
  log := []
  overflow := false

def Acc.reset : Acc where
  frozen := []
  lastViol := (0, 0, 0, 0)

/-- A time base before its first source: FREERUN, virtual over TB7 (TIM.TB_STATUS reset). -/
def TimeBase.reset : TimeBase where
  virtual := true
  refTb0 := false
  va := 0
  na := 0
  rho := 0
  steps := 0
  st := .freerun
  src := 0
  qual := []
  lockedSince := none
  reacq := false
  newly := false
  x := 0
  fi := 0
  prop := 0
  lastMeas := none
  lastExt := none
  win := []
  refill := false
  eSrc := 0
  e0 := none
  outRun := 0
  okSince := none
  syncs := []
  rratio := 0
  latchSec := 0
  latchNs32 := 0

def PtpPort.reset : PtpPort where
  st := 0
  gm := 0
  prio1 := 0
  variance := 0
  prio2 := 0
  ptpScale := true
  annAt := none
  annLog := 0
  syncAt := none
  syncLog := 0
  clockClass := 0
  accuracy := 0
  ttiPresent := false
  tti := 0
  utcOffset := 0
  utcValid := false
  leap61 := false
  leap59 := false
  steps := 0
  sender := 0
  sync := none
  meas := none
  okSince := none

def PeerDelay.reset : PeerDelay where
  seq := 0
  t1 := none
  corr := 0
  t2 := 0
  t4 := 0
  last := none
  results := []
  valid := false
  goodRun := 0
  failRun := 0
  outRun := 0
  reqAt := none
  nrr := 0

def PulseOut.reset : PulseOut where
  armed := false
  nextEdge := none
  pulseEnd := none

def Tin.reset : Tin where
  irigValid := false
  irigMiss := 0
  irigTq := 0
  irigFmt := 0
  irigLeap := none
  irigAt := none
  irigUtc := none
  irigSince := none
  todValid := false
  todSec := none
  todAt := none
  todBad := 0
  ppsPresent := false
  ppsAt := none
  ppsLevel := false
  todSince := none
  ppsSince := none

def Tim.reset : Tim where
  tb := []
  ptp := []
  pd := []
  po := []
  tin := Tin.reset
  ref10Present := false
  ref10Bad := none
  ref10Good := none
  oscActive := 0
  leaps := []
  leapExpiry := 0
  leapBad := []
  leapExpired := false
  handoverAt := none
  secsSeen := false
  leapDone := 0

def WeirCfg.reset : WeirCfg where
  mode := 0
  w := 0
  wmin := 0
  wmax := 0
  q := 0

/-- A FREE ring position. -/
def Basin.reset : Basin where
  st := .free
  seq := 0
  slot := 0
  soc := 0
  k := 0
  t0 := 0
  bmp := 0
  bmpA := 0
  bmpB := 0
  expected := 0
  wa := WeirCfg.reset
  wb := WeirCfg.reset
  retainMs := 0
  quorum := []
  parts := []
  waits := []
  firstArr := none
  spaced := false
  forcedFree := false
  lateClosed := false
  archiving := false
  causeA := 0
  causeB := 0
  waOff := 0
  wbOff := 0
  arrivedA := 0
  arrivedB := 0
  lateFilled := 0
  unexpected := 0
  dups := 0
  openAt := 0
  outDone := false
  missDone := false
  archOwed := []
  condA := none
  condB := none
  closeA7 := 0
  metAt := 0
  lastMet := []

def Ring.reset : Ring where
  run := false
  started := false
  pos := []
  nextSeq := 0
  nextSlot := 0
  lastCloseA := none
  missRun := 0
  missFirst := 0
  awaits := none
  w0A := 0
  w0B := 0

/-- A context before its first record: PRESENT, learning (R108). -/
def AlnCtx.reset : AlnCtx where
  silent := false
  missRun := 0
  seen := 0
  hist := List.replicate 16 0
  wA := 0
  wB := 0
  relearn := false

def Aln.reset : Aln where
  rings := []
  ctx := []
  partLast := []
  claims := []
  featOwner := []

def MemUnit.reset : MemUnit where
  track := []
  pos := 0
  lapStart := 0
  starved := false
  forced := false
  lapMs := 0
  lastCe := 0
  lastUe := 0
  remaps := []
  writebacks := []

def MemBlk.reset : MemBlk where
  units := []
  remapNext := 0

def DmaProg.reset : DmaProg where
  next := 0
  hold := []
  poison := false
  waits := false

def DmaCh.reset : DmaCh where
  st := .idle
  again := false
  err := 0
  poison := false
  done := 0
  since := 0
  prog := DmaProg.reset

def Dma.reset : Dma where
  ch := []
  frozen := []
  running := []
  excluded := []

def Queue.reset : Queue where
  items := []
  rd := 0
  fed := 0
  pktOpen := false
  discarding := false
  breakPending := false
  flushPending := false
  stalled := []

def Core.reset : Core where
  st := .idle
  out := false
  rejoin := false
  queue := []
  running := none
  since := 0
  lastOp := 0
  lastTag := 0
  held := []
  faultAt := none
  haltReq := false
  icache := []
  dcache := []
  scratch := []

def Dfe.reset : Dfe where
  graph := []
  store := []
  ready := []
  cores := []
  gen := 0
  peak := 0
  engHeld := []
  back := []
  slices := []
  halves := []
  sluiceSeen := false
  closedTag := []
  closedSeq := []
  missed := []
  analytics := []
  annot := []

/-- A port at reset: no link, no module, MEDIA OFF; the filter entries not listed are (0, 0x0001_0000). -/
def PrtPort.reset : PrtPort where
  up := false
  speed := 0
  hdx := false
  modPresent := false
  los := false
  txFault := false
  powered := true
  cfgRx := 0x07D00000
  cfgTx := 0x07D00000
  pairRx := 8
  pairTx := 8
  filt := []
  filtOld := none
  strange := []
  vlan := []
  fifo := []
  txq := []
  hrx := (0, 0)
  rxBytes := 0
  txBytes := 0
  tc := []
  ip6id := 0
  sent := []

def Stream.reset : Stream where
  reasm := []
  exc := []
  notice := []
  replay := []
  hashKey := 0
  offers := []
  full := false

def Session.reset : Session where
  st := 0
  stall := none
  una := 0
  nxt := 0
  wnd := 0
  top := 0
  on := 0
  finSent := false

def Out.reset : Out where
  jobs := []
  sess := []
  ident := []
  spdu := []
  cfgSec := []
  udpOn := []
  unlockedAt := none
  halted := false
  ana := []
  cfgCnt := 0
  signed := (0, [])
  retx := (0, [])

def CasMbr.reset : CasMbr where
  st := 0
  hops0 := 15
  hops1 := 15
  heard := none
  loads := 0
  up0 := false
  up1 := false
  seqs := []

def Cas.reset : Cas where
  offset := []
  scales := []
  merged := []
  up := []
  topo := 0
  epoch := 0
  prevEpoch := 0
  epochAt := 0
  mbr := []
  seq := 0
  export_ := []
  proxy := []
  excluded := false
  timeOk := false
  badSince := none
  delays := []
  out := (0, [])

def SdmCh.reset : SdmCh where
  fault := false
  settle := 0
  settleC := 0
  resetAt := none
  ovrAt := none
  bits := []
  rawFine := []
  rawCoarse := []
  fine := []
  coarse := []

def Sdm.reset : Sdm where
  chans := []
  syncAt := none
  syncT := none
  lastSync := 0
  ptLast := []
  handAt := none

def NrgPt.reset : NrgPt where
  start := none
  fallback := false
  below := false
  cross := none
  unmet := false
  unmetAt := 0
  unmetNs := 0
  acc := List.replicate 32 0
  before := none
  wrap := 0
  wrap2 := 0
  clear := 0

def Nrg.reset : Nrg where
  pts := []
  frozen := none
  lost := false
  snap := []
  snapAt := 0
  slot := 2
  seq := 0
  saving := none
  nextSave := 0
  resume := 0
  unmetered := 0

def CapUnit.reset : CapUnit where
  st := 0
  num := 0
  kept := []
  chunks := []
  wr := 0
  seq := 0
  span := none
  acc := []
  cur := none
  lastT := 0
  held := 0
  active := []
  stepAt := none
  unlockedAt := none
  newest := 0

def Cap.reset : Cap where
  units := []
  bus := []
  lastSig := []
  trg := 0
  pulse := []

def Sig.reset : Sig where
  miss := 0
  held := none
  warm := 0
  raw := none
  lp := []
  lpOut := 0
  filt := []
  ang := none
  last := none
  lpLast := none

def Band.reset : Band where
  sig := Sig.reset
  e := 0
  pub := 0
  wasHeld := false

def Chan.reset : Chan where
  sig := Sig.reset
  x := 0
  here := false
  v := 0
  included := false

def Track.reset : Track where
  status := 0
  serial := 0
  matched := false
  m := 0
  missed := 0
  vec := []
  vec0 := []
  ar := none
  y := 0
  yTag := none
  yHeld := 0
  arLast := none
  ySq := 0
  yN := 0
  ampB := 0
  rdAr := none
  rdOn := false
  rdOut := none
  freq := 0
  zeta := 0
  amp := 0
  share := 0
  cfit := 0
  conf := 0
  pairOf := none
  paired := false
  damp := false
  dampRun := 0
  dampClr := 0
  fo := false
  foFail := 0
  cv := 0
  rdPoor := false
  rdFreq := 0
  rdZeta := 0
  hist := []

def DefBranch.reset : DefBranch where
  filt := []
  ang := none
  prev := none
  w := 0
  samples := []
  slope := 0

def Rpl.reset : Rpl where
  bands := []
  chans := []
  tracks := []
  cov := []
  s := 0
  fillB := 0
  ticks := 0
  epoch := 1
  published := 0
  warming := true
  serial := 0
  included := 0
  copyCh := []
  copyC := []
  solving := none
  solved := none
  solveUs := 0
  lastModal := none
  covX := []
  covTag := none
  covOps := []
  gapSeen := []
  dom := none
  ringdown := none
  rdDone := false
  rdTag := 0
  lost := none
  defRun := none
  defB := []
  rank := []
  ranked := 0
  gather := none
  gathered := []

def Branch.reset : Branch where
  closed := false
  stale := false
  run := 0
  seen := false
  told := false

def Bus.reset : Bus where
  island := 0
  fOk := false
  aOk := false
  dead := false
  mismatch := false
  run := 0

def Island.reset : Island where
  id := 0
  state := 0
  slip := false
  slipRun := 0
  latch := false
  count := 0
  ref := none
  df := 0
  da := 0
  since := 0
  hist := []

def Isl.reset : Isl where
  branches := []
  buses := []
  islands := []
  mainId := 0
  nextId := 1
  valid := false
  untracked := 0
  running := none
  since := 0
  lastUs := 0

def Detector.reset : Detector where
  on := false
  active := false
  invalid := false
  last := none
  delta := 0

def AlmDef.reset : AlmDef where
  st := 0
  run := 0
  raw := false
  resetPending := false
  held := false
  qual := 0
  dealt := 0
  lastSeq := 0
  resetAt := 0
  before := false

def Publisher.reset : Publisher where
  on := false
  loaded := false
  st := 0
  sq := 0
  sec := 0
  ns := 0
  tq := 0
  i := 0
  nextAt := none
  data := []

def Alm.reset : Alm where
  det := []
  pair := []
  defs := []
  pubs := []
  asserted := []
  pulses := []
  driven := false
  di := 0
  cur := []
  got := []
  silenced := false
  words := []
  names := []
  appid := []

def CmpGroup.reset : CmpGroup where
  queue := []
  st := 0
  frame := none
  sinceKey := 0
  layout := []
  cipher := (false, 0)

def CmpCtx.reset : CmpCtx where
  seq := 0
  hist := []
  inUse := false
  suspended := false
  keyNext := true

def Cmp.reset : Cmp where
  groups := []
  ctxs := []
  jobs := []
  running := []

def RadNode.reset : RadNode where
  st := 0
  pend := false
  wide := false
  miss := 0
  d := 0
  x := 0
  asn := 0
  corrAt := none
  dl := none
  resync := false
  tries := 0
  post := 0
  sent := none

def Rad.reset : Rad where
  nodes := []
  slot := 0
  heard := []
  ended := []
  await := none
  missEb := 0
  missKa := 0
  lost := none
  widened := 0
  scan := none
  resumeAt := none
  metric := 0
  parent := none
  hops := []
  pendAt := (0, [])
  pendRad := (0, [])
  air := (0, [])

def RedPath.reset : RedPath where
  up := false
  good := 0
  renewAt := none
  heardAt := none
  renewSeq := 0
  ack := none
  rtt := 0

def Red.reset : Red where
  role := 0
  epoch := 0
  pEpoch := 0
  pRole := 0
  pImage := false
  pHealthy := false
  pPreferred := false
  pBasin := 0
  solo := false
  paths := []
  seq := 0
  sends := []
  leaseEnd := none
  listenEnd := none
  heardRenew := false
  heardOther := false
  holdSince := none
  byTakeover := false
  handover := none
  stopAt := none
  image := false
  ckTag := none
  ckBytes := 0
  ckWhole := false
  ckRun := 0
  ckLast := 0
  tkAt := none
  tkNow := 0
  tkFirst := 0
  tkLast := 0
  gapUs := 0
  out := (0, [])
  ckRpl := Rpl.reset
  ckSent := []
  ckOut := (0, [])

def Regs.reset : Regs where
  vis := []
  act := []
  com := []
  dirty := []
  locked := []
  fresh := (0, [])
  late := (0, [])
  wrote := (0, [])
  handed := (0, [])

def Mem.reset : Mem where
  cells := []
  flash := []
  poison := []
  raw := []

end Sys2Proof.Machine
end

