-- ==== Sys2Proof/Syntax.lean ====
section
/-! DEFINITION. The commands: one constructor per row of the opcode table. Every command's first operand `t` is the instant of
the command in TB7 ns; `m` is the bus master of Table 16.7 that writes or reads a register. -/

namespace Sys2Proof.Machine

/-- A UDP descriptor for PRT (R51, R52): addresses, header fields, the MTU, whether an IPv4 checksum may stay zero. -/
structure UdpDesc where
  v6 : Bool
  dmac : List Byte
  tci : Nat
  src : Nat
  dst : Nat
  dscp : Nat
  hops : Byte
  sport : Nat
  dport : Nat
  ident : Nat
  mtu : Nat
  zeroSum : Bool
  payload : List Byte
  deriving DecidableEq, Repr

/-- A large-send descriptor for PRT (R50): the header template, the TCP payload and the MSS. -/
structure LargeDesc where
  template : List Byte
  payload : List Byte
  mss : Nat
  deriving DecidableEq, Repr

/-- A frame as a radio unit receives it: the channel it came on, its PHR's length field, the PSDU with its FCS, and the frame's start minus its
nominal start in µs. -/
structure RadFrame where
  chan : Nat
  phr : Nat
  psdu : List Byte
  start : Int
  deriving DecidableEq, Repr

/-- What TAM's filters see at a tamper event (Table 16.5): which of the loops TP0 to TP3 have stood at level 1 for two samples, and which of the
supply, the clocks, the temperature and VBAT (sources 4 to 7) are outside their limits. -/
structure TamSight where
  loops : List Nat
  limits : List Nat
  deriving DecidableEq, Repr

/-- Where an uncorrectable error is found (R327): the byte of an SRAM or the line of DRAM, and, in the host caches, the address of the line that the
byte belongs to where that line is dirty. -/
structure ErrPlace where
  unit : Nat
  dirty : Option Nat
  deriving DecidableEq, Repr

/-- What happens to a cage's module (R471): it is inserted, or removed while a frame of the port is on the wire or not (R49). -/
inductive ModuleChange where
  | inserted
  | removed (onWire : Bool)
  deriving DecidableEq, Repr

/-- A port whose link is cut, and whether a frame of the port is on the wire then (R49). -/
structure PortCut where
  port : Nat
  onWire : Bool
  deriving DecidableEq, Repr

/-- What the timing PLL sees of REF10 (R236): whether it is there, and how far from the TCXO, in 10⁻⁹. -/
structure RefSight where
  present : Bool
  ppb : Nat
  deriving DecidableEq, Repr

/-- What an IRIG-B frame codes (R249): whether coding and parity are good, the day of the year and the second of the day, the two-digit year
of the time code (formats B004 to B007) and that of the control-function extension, and the time offset to UTC in half hours. -/
structure IrigCode where
  good : Bool
  day : Nat
  sec : Nat
  year : Nat
  extYear : Nat
  offset : Int
  deriving DecidableEq, Repr

/-- How a ToD sentence comes (R250): ZDA or RMC, its baud code as in TIN_CFG, whether its checksum is good, and the RMC status A. -/
structure TodHead where
  rmc : Bool
  baud : Nat
  good : Bool
  statusA : Bool
  deriving DecidableEq, Repr

/-- What a decimator has for an output instant (R265, R272): the fine chain's output before the channel's delay in 2⁻³¹ of full scale, and for the
coarse path the levels of the channel's MDAT pin over the instant's MCLK periods, oldest first: bit 2k in the first half of period k (at the
rising edge of its returned MCLK), bit 2k + 1 in the second (at the falling edge). -/
structure DecimIn where
  x : Int
  line : Nat
  deriving DecidableEq, Repr

/-- A measurement of a time-base source (Table 9.3): the PTP Sync that the slave's port has heard; the stamp of a TIN edge on TB0 in ns (its
second comes from the IRIG-B frames, the ToD sentences or TB0); two counters compared in one cycle. The measurements of TB5 and TB6 come
with their frames. -/
inductive Meas where
  | ptp
  | edge (stamp : Nat)
  | counter
  deriving DecidableEq, Repr

/-- What SELFTEST found (R433): failed cryptographic test, host core, DRAM bank; for each SRAM of Table 13.1 the failing words;
failed fabric cores, DMA channels and the accelerator; the first hold-up test's load in 0.1 W and bus voltages in 0.1 V. -/
structure SelftestResult where
  crypto : Bool
  host : Bool
  dram : Bool
  sram : List (Nat × Nat)
  cores : List Nat
  channels : List Nat
  accel : Bool
  holdP : Nat
  holdV0 : Nat
  holdV1 : Nat
  deriving DecidableEq, Repr

end Sys2Proof.Machine

namespace Sys2Proof

/-- One command; the constructors stand in the order of the opcode table. -/
inductive Instr where
  /-- R5: A write to a register that has no row of its own takes effect under its access code -/
  | registerWrite (t m addr width value : Nat)
  /-- R9: A read of an RC counter returns its value and clears it and its SAT flag, keeping any increment in the same cycle -/
  | rcRead (t m addr width : Nat)
  /-- R53: A read of a LO or NS word latches the matching HI or seconds words until the next such read -/
  | latchingRead (t m addr width : Nat)
  /-- R11: The TB0 tick of a slot time arrives on a ring -/
  | tick (t ring : Nat)
  /-- R102: The weir A deadline condition of an open basin becomes true with the passage of TB0 time -/
  | weirADeadline (t ring seq : Nat)
  /-- R20: A basin held by the weir A spacing reaches the end of the spacing and closes -/
  | weirASpacingElapsed (t ring seq : Nat)
  /-- R102: The weir B deadline condition of an alarm-closed basin becomes true with the passage of TB0 time -/
  | weirBDeadline (t ring seq : Nat)
  /-- R16: ALN sets a record's bit in the arrival bitmap once its feature and full-record writes are accepted -/
  | recordMark (t ring seq ctx : Nat)
  /-- R23: At the alarm close of basin n + 1 the DFE expires tick tag n, removing and discarding its tokens -/
  | tagExpiry (t ring seq : Nat)
  /-- R89: A retained basin reaches its retention end, sets LATE_CLOSED and writes its head and bitmap copy -/
  | retentionEnd (t ring seq : Nat)
  /-- R101: ALN finishes writing MISSING headers of unmarked slots of an output-closed basin -/
  | missingHeadersDone (t ring seq : Nat)
  /-- R33: A port receives a frame, admits it, checks, filters, stamps and classifies it -/
  | frameReceive (t port : Nat) (data : List Byte)
  /-- R30: A port's link comes up after negotiation resolves full duplex -/
  | linkUp (t port mbps : Nat) (half : Bool)
  /-- R49: A port's link goes down, aborting the frame in progress and discarding queued frames -/
  | linkDown (t port : Nat) (onWire : Bool)
  /-- R471: A pluggable module is inserted into or removed from a cage -/
  | sfpChange (t port : Nat) (change : Machine.ModuleChange)
  /-- R471: A cage drawing over 1.3 times its limit for 10 ms is switched off -/
  | cagePower (t : Nat) (cut : Machine.PortCut)
  /-- R31: A write to PORT_CFG or PAIR_CFG takes effect at the next frame boundary in each direction -/
  | portCfgApply (t port : Nat) (tx : Bool)
  /-- R38: A write to a filter entry's high word commits the whole entry -/
  | filterEntryCommit (t m entry value : Nat)
  /-- R44: A forwarded frame leaves the egress port of its bridge pair -/
  | forwardEgress (t port : Nat)
  /-- R47: A two-step table entry without a Follow_Up for 1 s is freed -/
  | tcEntryTimeout (t pair : Nat)
  /-- R48: A queued frame is taken by strict egress priority and sent on the port -/
  | frameTransmit (t port : Nat)
  /-- R50: A large-send descriptor is checked and cut into TCP segments with replicated headers -/
  | largeSend (t port cls : Nat) (d : Machine.LargeDesc)
  /-- R51: A UDP descriptor is checked and sent as IP fragments -/
  | udpFragmentSend (t port cls : Nat) (d : Machine.UdpDesc)
  /-- R69: STR parses an ingest-bound frame and applies the ingest checks to each stream-frame -/
  | streamFrameIngest (t port : Nat) (poisoned aborted : Bool)
  /-- R62: A datagram not complete within REASM_TIMEOUT is discarded -/
  | reassemblyTimeout (t : Nat)
  /-- R84: STR takes a firmware-path injection descriptor, checks it and processes or refuses it -/
  | injectionProcess (t : Nat)
  /-- R85: A write to STR.COMMIT commits all pending STR shadow sets -/
  | strCommit (t m : Nat)
  /-- R109: A write to ALN.COMMIT commits all pending ALN shadow sets -/
  | alnCommit (t m : Nat)
  /-- R108: A RELEARN write schedules clearing of a context's histogram and SEEN at the next basin open -/
  | ctxRelearn (t m : Nat)
  /-- R123: A TIMED part reaches its launch time after slot time and is launched -/
  | timedLaunch (t ring seq stream : Nat)
  /-- R125: OUT releases a basin once every part of every carrying stream has been handed over -/
  | outBasinRelease (t ring seq : Nat)
  /-- R128: SESS_CMD OPEN makes a CLOSED session ESTABLISHED or posts a refusal -/
  | sessOpen (t m : Nat)
  /-- R130: SESS_CMD CLOSE sends FIN after buffered data and takes the session to CLOSING -/
  | sessClose (t m : Nat)
  /-- R130: SESS_CMD RESET sends RST and closes the session at once -/
  | sessReset (t m : Nat)
  /-- R130: SESS_CMD SEND_ACK sends one empty segment carrying RCV_NXT -/
  | sessSendAck (t m : Nat)
  /-- R130: A write to SESS_ACK takes the acknowledgement and window, frees buffer bytes or closes a CLOSING session -/
  | sessAckWrite (t m value : Nat)
  /-- R130: A write to SESS_RETX resends from the given sequence number within the window -/
  | sessRetx (t m value : Nat)
  /-- R129: OUT cuts and sends buffered session bytes once the peer window admits them -/
  | sessionSegmentSend (t sess : Nat)
  /-- R129: A session stalled for SESS_STALL_MS without progress is reset -/
  | sessStallReset (t sess : Nat)
  /-- R132: Command 0x0001 turns data off for the part -/
  | cmdDataOff (t : Nat)
  /-- R132: Command 0x0002 turns data on for the part from the next basin -/
  | cmdDataOn (t : Nat)
  /-- R132: Command 0x0003 sends the header frame -/
  | cmdSendHeader (t : Nat)
  /-- R132: Command 0x0004 sends CFG-1 -/
  | cmdSendCfg1 (t : Nat)
  /-- R132: Command 0x0005 sends CFG-2 -/
  | cmdSendCfg2 (t : Nat)
  /-- R133: Command 0x0006 sends CFG-3 on version 2 streams, in continuation frames if needed -/
  | cmdSendCfg3 (t : Nat)
  /-- R132: Command 0x0008 is passed to firmware as a Q17 item -/
  | cmdExtendedFrame (t : Nat)
  /-- R132: Any other command is ignored and counted with an event -/
  | cmdUnknown (t : Nat)
  /-- R136: Weir B plus RESEND_WIN passes and a pending re-send is launched -/
  | resendWindowExpiry (t ring seq stream part : Nat)
  /-- R138: A write to OUT.COMMIT commits all pending OUT shadow sets -/
  | outCommit (t m : Nat)
  /-- R211: The dispatcher places a ready firing into a core's ready queue, spilling as needed -/
  | firingDispatch (t : Nat)
  /-- R213: A fabric core finishes a firing, emits its tokens and takes its next firing -/
  | firingComplete (t core : Nat) (last : Bool)
  /-- R215: A held token source (a core 0 to 47, or 48 the engines) is admitted once enough matching-store entries are free -/
  | sluiceRelease (t source : Nat)
  /-- R223: A write to DFE.INJ_GO injects a REF token to a HOST_IN op or is refused -/
  | dfeInject (t m op port : Nat)
  /-- R228: DFE.CORE_CMD RELEASE returns a frozen core to service or is refused -/
  | coreReleaseCmd (t m : Nat)
  /-- R229: An uncorrectable error in a core's cache or scratch ends its firing and reinitialises it -/
  | coreMemFault (t core : Nat)
  /-- R230: A DEBUG halt request takes a core out of the pool at the end of its firing -/
  | coreHalt (t core : Nat)
  /-- R230: A halted core is resumed and rejoins the pool at the next main-ring alarm close -/
  | coreResume (t core : Nat)
  /-- R232: A write to DFE.COMMIT commits pending op parameters and global settings -/
  | dfeCommit (t m : Nat)
  /-- R153: The modal accelerator completes the eigen-solve and emits its completion token -/
  | acceleratorSolveDone (t : Nat) (fault : Bool)
  /-- R162: RD_LEN after the trigger the ringdown ends and ambient estimation resumes -/
  | ringdownEnd (t : Nat)
  /-- R163: RD_SKIP after the trigger each VALID track starts its ringdown estimator -/
  | rdSkipElapsed (t : Nat)
  /-- R169: The DEF gather completes and emits its tick-class token -/
  | gatherComplete (t : Nat)
  /-- R173: A write to RPL.COMMIT commits pending RPL shadow sets -/
  | rplCommit (t m : Nat)
  /-- R186: ISL finishes its partition, identity and coherency run and publishes its result -/
  | islPublish (t : Nat)
  /-- R194: A write to ALM.DEF_CMD RESET sets RESET_PENDING on a definition -/
  | defResetCmd (t m : Nat)
  /-- R195: A pin's PULSE_MS pulse ends -/
  | aoPulseEnd (t pin : Nat)
  /-- R466: A digital input's edge is confirmed by the debounce -/
  | diChange (t input : Nat) (level : Bool) (age : Nat)
  /-- R199: A publisher's repetition interval expires and the message is repeated -/
  | gooseRepeat (t pub : Nat) (aborted : Bool)
  /-- R202: A write to ISL.COMMIT commits pending ISL shadow sets -/
  | islCommit (t m : Nat)
  /-- R202: A write to ALM.COMMIT commits pending ALM shadow sets -/
  | almCommit (t m : Nat)
  /-- R251: A time-base source delivers a measurement and the servo runs on it -/
  | timeMeasurement (t tb src : Nat) (x : Machine.Meas)
  /-- R243: A source meets its condition for QUAL_S seconds and becomes qualified -/
  | sourceQualified (t tb src : Nat)
  /-- R243: A source's loss condition occurs and it is lost at once -/
  | sourceLost (t tb src : Nat)
  /-- R248: Every 1 s a peer-delay port sends Pdelay_Req -/
  | pdelayReqSend (t port : Nat)
  /-- R248: A Pdelay_Resp not received within 100 ms fails the exchange -/
  | pdelayRespTimeout (t port : Nat)
  /-- R249: An IRIG-B frame is decoded on TIN -/
  | irigFrame (t : Nat) (ok : Machine.IrigCode) (fmt tq : Nat) (leap61 leap59 : Bool)
  /-- R250: A 1PPS edge arrives on TIN -/
  | ppsEdge (t : Nat)
  /-- R250: A ToD NMEA sentence arrives on TIN -/
  | todSentence (t : Nat) (ok : Machine.TodHead) (utc : Nat)
  /-- R236: The timing PLL switches between TCXO and REF10 -/
  | oscSwitch (t : Nat) (ref10 : Machine.RefSight)
  /-- R252: A time base's error stays within LOCK_LIM for LOCK_HOLD and it becomes LOCKED -/
  | lockHoldElapsed (t tb : Nat)
  /-- R253: A time base's growing error passes LOCK_LIM and it becomes UNLOCKED -/
  | holdoverErrorLimit (t tb : Nat)
  /-- R239: A write to TB_VRATE re-anchors a virtual time base with a new rate -/
  | tbVrateWrite (t m value : Nat)
  /-- R239: A write to TB_VSTEP steps a virtual time base or is refused -/
  | tbVstepWrite (t m value : Nat)
  /-- R257: A leap second in the table is applied -/
  | leapSecond (t : Nat)
  /-- R260: A pulse output's leading edge time arrives -/
  | pulseEdge (t po : Nat)
  /-- R262: A pulse output's pulse ends and pending settings hand over -/
  | pulseEnd (t po : Nat)
  /-- R259: A read of TB_NOW_NS latches the seconds and NS32 of the same cycle -/
  | tbNowRead (t m : Nat)
  /-- R263: A write to TIM.COMMIT commits pending TIM shadow sets -/
  | timCommit (t m : Nat)
  /-- R263: At the next whole TB0 second committed TIM sets are checked and copied -/
  | timShadowHandover (t : Nat)
  /-- R269: A channel's decimator emits a fine or coarse sample -/
  | decimatorOutput (t ch : Nat) (coarse : Bool) (x : Machine.DecimIn)
  /-- R270: A write to SDM.CMD SYNC requests a reset of all channels at the next whole second -/
  | sdmSyncCmd (t m : Nat)
  /-- R270: A synchronising reset clears and restarts the decimators of the affected channels -/
  | syncReset (t : Nat)
  /-- R266: A channel with no valid transitions or 4,096 equal bits enters FAULT -/
  | chFault (t ch : Nat)
  /-- R266: A channel free of fault conditions for 1,024 bits leaves FAULT -/
  | chRecover (t ch : Nat)
  /-- R279: SDM hands a local phasor record to STR once its span's last sample is output -/
  | localRecordHandover (t point slot : Nat)
  /-- R281: A counting positive-going zero crossing ends an integration interval -/
  | zeroCrossing (t point : Nat)
  /-- R282: No crossing within ZC_TIMEOUT periods ends the interval and enters fallback -/
  | zcTimeout (t point : Nat)
  /-- R289: A write to NRG.SNAP copies all accumulators into the snapshot registers -/
  | nrgSnap (t m : Nat)
  /-- R290: A write to NRG.PT_CMD CLEAR requests a point clear, accepted only in MAINTENANCE -/
  | nrgClear (t m : Nat)
  /-- R288: A read of a visible energy counter returns it and clears WRAP and WRAP2 -/
  | nrgCounterRead (t m index : Nat)
  /-- R292: At the save period NRG copies the accumulators and starts writing a save slot -/
  | periodicSave (t : Nat)
  /-- R292: A save slot write completes or fails -/
  | energySaveDone (t : Nat) (good : Bool)
  /-- R295: A write to SDM.COMMIT commits pending SDM shadow sets -/
  | sdmCommit (t m : Nat)
  /-- R295: A write to NRG.COMMIT commits pending NRG shadow sets -/
  | nrgCommit (t m : Nat)
  /-- R299: A write to CAP.UNIT_CMD FORCE triggers the unit -/
  | captureForce (t m : Nat)
  /-- R304: A write to CAP.UNIT_CMD RELEASE frees the oldest unreleased capture -/
  | captureRelease (t m : Nat)
  /-- R299: An edge on a TRG pin set as input is stamped and may trigger units -/
  | trgInputEdge (t pin : Nat) (level : Bool)
  /-- R302: A capture's last row is written and the capture is sealed into HOLDOFF -/
  | captureSeal (t unit : Nat)
  /-- R303: A unit's TIME hold-off ends and it re-arms -/
  | holdoffEnd (t unit : Nat)
  /-- R306: At T + D a bus signal opens captures and drives TRG outputs -/
  | busAct (t : Nat)
  /-- R308: A write to CAP.COMMIT commits unit sets, handed over when the unit is not capturing -/
  | capCommit (t m : Nat)
  /-- R312: A radio slot begins and each unit acts on its active cell -/
  | radioSlot (t : Nat)
  /-- R313: A unit receives an uplink frame, verifies it and answers with an Enh-ACK -/
  | uplinkFrame (t unit : Nat) (f : Machine.RadFrame) (aborted : Bool)
  /-- R320: An uplink cell ends with no authenticated frame from its node -/
  | uplinkMissed (t unit : Nat)
  /-- R321: A node acknowledges a downlink, which is cleared with DL_DONE -/
  | downlinkAcked (t unit : Nat) (ack : Machine.RadFrame)
  /-- R321: A downlink attempt goes unacknowledged and after 8 attempts fails -/
  | downlinkUnacked (t unit : Nat)
  /-- R321: A write to RAD.NODE_CMD DL_POST posts a downlink or is refused -/
  | dlPost (t m : Nat)
  /-- R324: A write to RAD.PEND_SET sets pending bits -/
  | pendSet (t m value : Nat)
  /-- R324: A write to RAD.PEND_CLR clears pending bits -/
  | pendClr (t m value : Nat)
  /-- R314: The TP_UNIT hears the time parent's EB or Enh-ACK, a TB5 servo measurement -/
  | parentFrame (t : Nat) (aborted : Bool) (x : Int) (f : Machine.RadFrame)
  /-- R322: A slotframe after parent loss widens the parent receive window -/
  | parentGuardWiden (t : Nat)
  /-- R322: After further slotframes without sync the TP_UNIT scans the hopping channels -/
  | parentScan (t : Nat)
  /-- R323: A write to RAD.COMMIT commits pending RAD shadow sets -/
  | radCommit (t m : Nat)
  /-- R327: A read finds a correctable error, delivers corrected data and tracks the address -/
  | correctedError (t mem unit : Nat)
  /-- R327: A read finds an uncorrectable error and the data becomes poisoned -/
  | uncorrectableError (t mem : Nat) (unit : Machine.ErrPlace)
  /-- R327: MEM writes a correction back when the memory's port is next idle -/
  | ceWriteback (t mem : Nat)
  /-- R332: The scrubber reads one word or line in an idle cycle -/
  | scrubStep (t mem : Nat)
  /-- R333: A lap exceeding LAP_LIMIT forces the scrubber's guaranteed share -/
  | scrubStarved (t mem : Nat)
  /-- R329: MEM.REMAP_CMD REMAP remaps the address in REMAP_ADDR -/
  | remapCmd (t m : Nat)
  /-- R331: MEM.REMAP_CMD ERASE clears the MRAM remap table in MAINTENANCE -/
  | remapErase (t m : Nat)
  /-- R334: Diagnostic command RAW_READ copies data and check bits uncorrected to the buffer -/
  | diagRawRead (t m : Nat)
  /-- R334: Diagnostic command RAW_WRITE writes data and check bits from the buffer -/
  | diagRawWrite (t m : Nat)
  /-- R334: Diagnostic command DATA_WRITE writes data, keeping stored check bits -/
  | diagDataWrite (t m : Nat)
  /-- R334: Diagnostic command CHECK_WRITE writes check bits, keeping stored data -/
  | diagCheckWrite (t m : Nat)
  /-- R352: A write to MEM.COMMIT commits pending MEM shadow sets -/
  | memCommit (t m : Nat)
  /-- R340: DMA.CH_CMD START makes a channel PENDING or is refused -/
  | dmaStart (t m : Nat)
  /-- R341: DMA.CH_CMD COMMIT commits the channel's shadow descriptor -/
  | dmaCommit (t m : Nat)
  /-- R339: DMA.CH_CMD CLEAR_HALT returns a HALTED channel to IDLE -/
  | dmaClearHalt (t m : Nat)
  /-- R340: A free engine starts its lowest PENDING channel and checks its descriptor -/
  | dmaChannelRun (t engine : Nat)
  /-- R342: A channel's last write reaches coherence and the channel completes -/
  | dmaChannelComplete (t engine : Nat)
  /-- R346: A push of an item without EOP is stored or refused under the overrun rule -/
  | queuePush (t m q value : Nat)
  /-- R346: A push of an item with EOP ends a packet -/
  | queuePushEop (t m q value : Nat)
  /-- R348: A read of QUE.POP returns an item or stalls on an empty queue -/
  | queuePop (t m q : Nat)
  /-- R348: A read of QUE.TRYPOP returns an item or the EMPTY marker at once -/
  | queueTrypop (t m q : Nat)
  /-- R349: QUE.CMD FLUSH discards the queue's items at the next packet boundary -/
  | queueFlush (t m : Nat)
  /-- R345: A write of EN = 1 enables a queue or is refused with CFG_ERR -/
  | queueEnable (t m base depth : Nat)
  /-- R350: A write of EN = 0 discards the queue's contents and ends stalled reads -/
  | queueDisable (t m : Nat)
  /-- R354: A free lane takes the next queued basin of a group and starts its frame -/
  | archiveFrameStart (t group : Nat)
  /-- R359: A compressed block is written as a segment to the ring or spillway -/
  | archiveSegmentWrite (t group : Nat)
  /-- R364: A write to CMP.RESUME resumes a suspended group -/
  | cmpResume (t m value : Nat)
  /-- R365: A write to CMP.JOB_GO submits a firmware compression job or is refused -/
  | cmpJobGo (t m : Nat)
  /-- R366: A lane free of groups starts a submitted firmware job -/
  | cmpJobStart (t : Nat)
  /-- R365: A firmware job ends, with or without error, and posts JOB_DONE -/
  | cmpJobDone (t : Nat)
  /-- R358: CMP.CTX_CMD RESET empties a context's history or is refused -/
  | cmpCtxReset (t m : Nat)
  /-- R368: A write to CMP.COMMIT commits group sets for the next frame start -/
  | cmpCommit (t m : Nat)
  /-- R372: A member receives a Tabusk frame, verifies, deduplicates, forwards and acts on it -/
  | tabuskFrameRx (t link : Nat) (frame : List Byte)
  /-- R373: A Tabusk link loses block lock for 4 µs or hears nothing for 100 µs -/
  | tabuskLinkDown (t link : Nat)
  /-- R373: After 10 ms of lock and a HELLO exchange a link comes up -/
  | tabuskLinkUp (t link member count rate : Nat)
  /-- R380: Every 1 ms the master sends a TIME frame on both links -/
  | timeFrameSend (t : Nat)
  /-- R380: Every 10 ms a member measures each link's delay -/
  | delayExchange (t link delay : Nat)
  /-- R379: A member unheard for 1 ms becomes ABSENT -/
  | memberLost (t member : Nat)
  /-- R380: TB0 differing from TB6 by over 10 µs for 1 s clears TIME_OK -/
  | timeFault (t : Nat)
  /-- R384: Every 100 µs a HEALTHY active sends RENEW on both paths -/
  | renewSend (t : Nat)
  /-- R383: A partner receives a RENEW -/
  | heartbeatRenewRx (t path : Nat) (x : Machine.RedMsg) (good : Bool)
  /-- R384: An ACK arrives and extends the lease -/
  | heartbeatAckRx (t path : Nat) (x : Machine.RedMsg) (good : Bool)
  /-- R386: A partner receives FAIL: the standby takes over or the active enters SOLO -/
  | heartbeatFailRx (t path : Nat) (x : Machine.RedMsg) (good : Bool)
  /-- R396: The standby receives RELEASE and becomes active -/
  | heartbeatReleaseRx (t path : Nat) (x : Machine.RedMsg) (good : Bool) (stNums : List (Nat × Nat))
  /-- R389: A listening partner receives HELLO and resolves roles by PREFERRED -/
  | heartbeatHelloRx (t path : Nat) (x : Machine.RedMsg) (good : Bool)
  /-- R388: A partner receives a NAK carrying the current role epoch -/
  | heartbeatNakRx (t path : Nat) (x : Machine.RedMsg) (good : Bool)
  /-- R383: A heartbeat path is declared down by missed ACKs, missing RENEWs or link loss -/
  | pathDown (t path : Nat)
  /-- R384: The active's lease ends -/
  | leaseExpiry (t : Nat)
  /-- R385: 450 µs after the last RENEW the standby takes over -/
  | takeoverTimeout (t : Nat)
  /-- R392: The standby receives a checkpoint frame and writes its items home -/
  | checkpointRx (t : Nat) (f : Machine.CkptFrame)
  /-- R393: Restore ends: generation increments, rings start and flagged basins open -/
  | restoreDone (t : Nat)
  /-- R389: The 1 s listen after ACQUIRE ends and the partner resolves its role -/
  | roleListenEnd (t : Nat)
  /-- R395: A write to RED.CMD HANDOVER starts a planned handover or is refused -/
  | redHandoverCmd (t m : Nat)
  /-- R395: The fail-back hold-down elapses and a planned handover starts -/
  | failbackHolddownEnd (t : Nat)
  /-- R396: The standby receives a CONTROL HANDOVER(h) frame -/
  | handoverControlRx (t epoch slot seq : Nat) (good : Bool)
  /-- R396: At weir B of h − 1 plus RESEND_WIN the old active stops output -/
  | handoverOutputStop (t : Nat)
  /-- R404: Key update op LOAD_SECRET is checked and loads a secret slot -/
  | loadSecret (t m : Nat)
  /-- R404: Key update op ERASE_SECRET is checked and erases a secret slot -/
  | eraseSecret (t m : Nat)
  /-- R404: Key update op SET_EPOCH replaces the epoch secret and erases every slot -/
  | setEpoch (t m : Nat)
  /-- R404: Key update op SET_OWNER replaces PK1 -/
  | setOwner (t m : Nat)
  /-- R410: Key update op DEBUG_AUTH zeroises, switches to the test root and opens debug -/
  | debugAuth (t m : Nat)
  /-- R404: An accepted key change is installed at the next key-operation boundary -/
  | keyInstall (t : Nat)
  /-- R406: A tamper source asserts and TAM zeroises -/
  | tamperEvent (t : Nat) (now : Machine.TamSight) (elapsed : Option Nat)
  /-- R415: An access breaking the region table is blocked and its master frozen -/
  | accViolation (t m addr size : Nat) (write : Bool)
  /-- R416: ACC.MST_CMD RELEASE by HC0 lifts a master's freeze or is refused -/
  | accRelease (t m : Nat)
  /-- R418: EVR writes a buffered event entry to the last and first areas in MRAM -/
  | eventEntryWrite (t : Nat)
  /-- R421: EVR.CMD FREEZE stops MRAM writes by EVR -/
  | evrFreeze (t m : Nat)
  /-- R422: EVR.CMD THAW ends the freeze and writes the held entries -/
  | evrThaw (t m : Nat)
  /-- R421: A freeze ends 1 s after the FREEZE write -/
  | freezeTimeout (t : Nat)
  /-- R424: EVR.CMD CLEAR, if unlocked in MAINTENANCE by HC0, clears the areas with a CLEARED record -/
  | evrClear (t m : Nat) (clrLast : Bool)
  /-- R424: A write to EVR.CLR_UNLOCK starts or ends the 100 µs clear unlock -/
  | clrUnlock (t m value : Nat)
  /-- R425: A write to EVR.COMMIT hands over snapshot settings in the next cycle -/
  | evrCommit (t m : Nat)
  /-- R429: A mode request for MAINTENANCE, with planned handover or FORCE in a pair -/
  | modeReqMaintenance (t m : Nat) (force : Bool)
  /-- R427: A mode request of 0x3 leaves MAINTENANCE for the mode the state calls for -/
  | modeReqActive (t m : Nat)
  /-- R427: A mode request for DEBUG while the debug port is open -/
  | modeReqDebug (t m : Nat)
  /-- R427: A mode request for HALT from MAINTENANCE -/
  | modeReqHalt (t m : Nat)
  /-- R427: A mode request not permitted, or not from HC0, is refused -/
  | modeReqInvalid (t m code : Nat)
  /-- R431: Power-on or a die reset starts the LOAD sequence -/
  | powerOn (t : Nat) (mains : Bool) (straps : Nat)
  /-- R432: The image is applied and the module enters SELFTEST -/
  | loadComplete (t : Nat)
  /-- R433: SELFTEST finishes and the module enters ACQUIRE or HALT -/
  | selftestDone (t : Nat) (r : Machine.SelftestResult)
  /-- R427: A HALT cause's restart condition elapses and the die resets into LOAD -/
  | haltRestart (t : Nat)
  /-- R438: 60 s of ACTIVE, HOLDOVER or STANDBY confirms a TRIAL image -/
  | imageConfirm (t : Nat)
  /-- R439: A write to SYS.TUNE_GO submits a tuning set, which is checked and written to the shadows -/
  | tuningSet (t m : Nat)
  /-- R440: SYS.IMG_CMD VERIFY checks the image in the unused bank -/
  | imageVerify (t m : Nat)
  /-- R440: SYS.IMG_CMD SWITCH verifies, saves energy, writes a TRIAL pointer and resets -/
  | imageSwitch (t m : Nat)
  /-- R454: SYS.RESET_REQ DIE resets the die in MAINTENANCE or DEBUG -/
  | dieResetReq (t m : Nat)
  /-- R454: SYS.RESET_REQ HOST by HC0 resets the host cluster -/
  | hostResetReq (t m : Nat)
  /-- R442: The bulk bus falls to V_PF and the module enters SAVE -/
  | powerFailWarning (t : Nat)
  /-- R442: The SAVE sequence completes and the module enters HALT -/
  | saveComplete (t : Nat)
  /-- R444: Every 1 ms PWR reads the die temperature -/
  | tempSample (t : Nat) (temp : Int)
  /-- R445: At SELFTEST and every HOLDUP_H hours PWR starts a 2 ms hold-up test -/
  | holdupTest (t : Nat)
  /-- R463: The hold-up test ends and computes the hold-up estimate -/
  | holdupTestDone (t p v0 v1 : Nat)
  /-- R460: The input leaves its range for 20 ms or returns for 100 ms -/
  | supplyGoodChange (t : Nat) (good : Bool)
  /-- R453: A stalled access reaches SYS.BUS_TIMEOUT and the master gets a bus error -/
  | busTimeout (t m addr : Nat)
  /-- R452: A read of a context's claim register claims its highest pending source -/
  | plicClaim (t h : Nat)
  /-- R452: A write of complete re-enables a claimed source -/
  | plicComplete (t h src : Nat)
  /-- R455: SYS.QSPI_CMD ERASE erases a 64 KiB sector or is refused -/
  | qspiErase (t m : Nat)
  /-- R455: SYS.QSPI_CMD PROGRAM writes a 256-byte page or is refused -/
  | qspiProgram (t m : Nat)
  /-- R455: A QSPI command completes and its result is reported -/
  | qspiDone (t : Nat)
  /-- R454: HC0 writes the kick value to SYS.WDOG_KICK and restarts the watchdog -/
  | wdogKick (t m value : Nat)
  /-- R454: The host watchdog expires and resets the host cluster only -/
  | hostWatchdogExpiry (t : Nat)
  /-- R452: SYS.MTIME, counting TB7 in microseconds, reaches a host core's SYS.MTIMECMP_h and raises that core's machine timer interrupt -/
  | machineTimerInterrupt (t h : Nat)
  /-- R256: TB0 passes the expiry second of the LEAPS table, after which TIM keeps the last TAI − UTC value and sets TIM.STATUS[LEAP_EXPIRED] -/
  | leapTableExpiry (t : Nat)
  /-- R295: While the rings do not run, committed SDM sets are checked and copied at the next whole TB0 second, causing the R270 reset where PRESET, PHASE, INT_DELAY or FRAC changed -/
  | sdmShadowHandover (t : Nat)
  deriving DecidableEq, Repr

end Sys2Proof
end

