-- ==== Sys2Proof/Decode.lean ====
section
/-! DEFINITION. The commands that words spell. The spec's table gives no row any bits: the commands are events and register accesses, and
no word spells one. -/

namespace Sys2Proof

/-- The command that a word spells by the table's bits: none, since no row gives bits. -/
def decodeTableWord (_nbits _w : Nat) : Option Instr := none

end Sys2Proof
end

