-- ==== Sys2Proof/Machine/State.lean ====
section
/-! DEFINITION. The state of the module, what ends a step, and the state after reset. -/

namespace Sys2Proof.Machine

/-! ### The whole -/

/-- Everything but the queue of waiting commands. `t7` is TB7 in ns (R234), `free` counts the free values drawn
(the model's own field), `resp` the last answer each bus master got, `latch` the words a latching read keeps (R53),
`rep` the repetition rule's record by code and key: one more than TB7 when the last entry was written, and the count
since (R68). -/
structure Block where
  t7 : Nat
  free : Nat
  regs : Regs
  resp : Tbl Response
  latch : Tbl Word
  rep : Tbl (Nat × Nat)
  mem : Mem
  evr : Evr
  sys : Sys
  pwr : Pwr
  key : Key
  tam : Tam
  acc : Acc
  tim : Tim
  aln : Aln
  mm : MemBlk
  dma : Dma
  que : Tbl Queue
  dfe : Dfe
  prt : Tbl PrtPort
  str : Stream
  out : Out
  cas : Cas
  rpl : Rpl
  isl : Isl
  alm : Alm
  cmp : Cmp
  sdm : Sdm
  nrg : Nrg
  cap : Cap
  rad : Rad
  red : Red
  deriving DecidableEq, Repr

/-- The machine: the block and the commands that wait for it, first in, first out. -/
structure State where
  blk : Block
  pending : List Instr
  deriving DecidableEq, Repr

/-- Why the machine stops with a fault. -/
inductive Fault where
  /-- Raised by no command: one whose operand names an instance that the hardware does not have acts on nothing (R448, log
  entry 108); safe. -/
  | noInstance
  deriving DecidableEq, Repr

/-- Why a command is refused. -/
inductive Refusal where
  /-- Raised by an arm of `exec` that has no meaning yet; safe. -/
  | notModelled (mnemonic : String)
  deriving DecidableEq, Repr

def Block.reset : Block where
  t7 := 0
  free := 0
  regs := Regs.reset
  resp := []
  latch := []
  rep := []
  mem := Mem.reset
  evr := Evr.reset
  sys := Sys.reset
  pwr := Pwr.reset
  key := Key.reset
  tam := Tam.reset
  acc := Acc.reset
  tim := Tim.reset
  aln := Aln.reset
  mm := MemBlk.reset
  dma := Dma.reset
  que := []
  dfe := Dfe.reset
  prt := []
  str := Stream.reset
  out := Out.reset
  cas := Cas.reset
  rpl := Rpl.reset
  isl := Isl.reset
  alm := Alm.reset
  cmp := Cmp.reset
  sdm := Sdm.reset
  nrg := Nrg.reset
  cap := Cap.reset
  rad := Rad.reset
  red := Red.reset

/-- The machine right after reset: the mode is LOAD (Table 18.2), every register at its reset value, no memory byte
listed, no command waiting. -/
def State.reset : State where
  blk := Block.reset
  pending := []

end Sys2Proof.Machine
end

