-- ==== Sys2Proof/Machine/Bits.lean ====
section
/-! DEFINITION. Bit fields, byte order, tables by instance, the CRC-32 of R418, and exact arithmetic helpers. -/

namespace Sys2Proof.Machine

/-- Bits [hi:lo] of a number. -/
def bits (v hi lo : Nat) : Nat := v / 2 ^ lo % 2 ^ (hi + 1 - lo)

/-- One bit of a number. -/
def bit (v i : Nat) : Bool := v / 2 ^ i % 2 == 1

/-- Field [hi:lo] of a register. -/
def fld (w : Word) (hi lo : Nat) : Nat := bits w.toNat hi lo

/-- A register with field [hi:lo] replaced. -/
def setFld (w : Word) (hi lo v : Nat) : Word :=
  BitVec.ofNat 32 (w.toNat - bits w.toNat hi lo * 2 ^ lo + v % 2 ^ (hi + 1 - lo) * 2 ^ lo)

/-- A Bool as a bit. -/
def b2n (b : Bool) : Nat := if b then 1 else 0

/-- A word of 32 bits from a number, truncated. -/
def w32 (v : Nat) : Word := BitVec.ofNat 32 v

/-- A signed number as its 32-bit two's complement pattern, saturating at ±(2³¹ − 1) or −2³¹. -/
def sat32 (v : Int) : Nat :=
  (BitVec.ofInt 32 (max (-2147483648) (min 2147483647 v))).toNat

/-- The signed value of the low `n` bits of a pattern. -/
def sgn (n v : Nat) : Int := (BitVec.ofNat n v).toInt

/-- `n` bytes of a number, least significant first (R4). -/
def leBytes : Nat → Nat → List Byte
  | 0, _ => []
  | n + 1, v => BitVec.ofNat 8 v :: leBytes n (v / 256)

/-- The number that bytes spell, least significant first (R4). -/
def leNat : List Byte → Nat
  | [] => 0
  | b :: bs => b.toNat + 256 * leNat bs

/-- The number that bytes spell in network byte order (R4). -/
def beNat (bs : List Byte) : Nat := bs.foldl (fun a b => a * 256 + b.toNat) 0

/-- `n` bytes in network byte order. -/
def beBytes (n v : Nat) : List Byte := (leBytes n v).reverse

/-- Bytes [i, i + n) of a list, zero beyond its end. -/
def slice (bs : List Byte) (i n : Nat) : List Byte :=
  let r := (bs.drop i).take n
  r ++ List.replicate (n - r.length) 0

/-- The little-endian number at bytes [i, i + n). -/
def leAt (bs : List Byte) (i n : Nat) : Nat := leNat (slice bs i n)

/-- The big-endian number at bytes [i, i + n). -/
def beAt (bs : List Byte) (i n : Nat) : Nat := beNat (slice bs i n)

/-- One bit step of the reflected CRC-32 (IEEE 802.3). -/
def crcBit (c : BitVec 32) : BitVec 32 :=
  if c.getLsbD 0 then (c >>> 1) ^^^ 0xEDB88320#32 else c >>> 1

/-- One byte step. -/
def crcByte (c : BitVec 32) (b : Byte) : BitVec 32 :=
  let c := c ^^^ (b.setWidth 32)
  crcBit (crcBit (crcBit (crcBit (crcBit (crcBit (crcBit (crcBit c)))))))

/-- CRC-32 over bytes (R418, R331, R435). -/
def crc32 (bs : List Byte) : Nat := ((bs.foldl crcByte 0xFFFFFFFF#32) ^^^ 0xFFFFFFFF#32).toNat

/-- The CRC-CCITT of C37.118 frames (polynomial 0x1021, initial 0xFFFF). -/
def crcCcittByte (c : BitVec 16) (b : Byte) : BitVec 16 :=
  let step (c : BitVec 16) : BitVec 16 := if c.getLsbD 15 then (c <<< 1) ^^^ 0x1021#16 else c <<< 1
  let c := c ^^^ (b.setWidth 16 <<< 8)
  step (step (step (step (step (step (step (step c)))))))

def crcCcitt (bs : List Byte) : Nat := (bs.foldl crcCcittByte 0xFFFF#16).toNat

/-! ### Tables -/

/-- The record of an instance, `d` where none is listed. -/
def Tbl.get {α : Type} (t : Tbl α) (k : Nat) (d : α) : α :=
  match t with
  | [] => d
  | (j, v) :: r => if j = k then v else Tbl.get r k d

/-- The table with no entry for an instance. -/
def Tbl.erase {α : Type} (t : Tbl α) (k : Nat) : Tbl α :=
  match t with
  | [] => []
  | (j, v) :: r => if j = k then Tbl.erase r k else (j, v) :: Tbl.erase r k

/-- Insertion in rising order of instance, replacing an entry. -/
def Tbl.ins {α : Type} (t : Tbl α) (k : Nat) (v : α) : Tbl α :=
  match t with
  | [] => [(k, v)]
  | (j, u) :: r => if k < j then (k, v) :: (j, u) :: r else if k = j then (k, v) :: r else (j, u) :: Tbl.ins r k v

/-- The table with a record set; a record equal to the unlisted one is not kept. -/
def Tbl.put {α : Type} [DecidableEq α] (t : Tbl α) (k : Nat) (v d : α) : Tbl α :=
  if v = d then Tbl.erase t k else Tbl.ins t k v

/-- The table with a record changed. -/
def Tbl.upd {α : Type} [DecidableEq α] (t : Tbl α) (k : Nat) (d : α) (f : α → α) : Tbl α :=
  Tbl.put t k (f (Tbl.get t k d)) d

/-- A sorted set of numbers with one more. -/
def setIns (s : List Nat) (k : Nat) : List Nat :=
  match s with
  | [] => [k]
  | j :: r => if k < j then k :: j :: r else if k = j then j :: r else j :: setIns r k

/-- A sorted set of numbers with one less. -/
def setDel (s : List Nat) (k : Nat) : List Nat := s.filter (fun j => j != k)

/-! ### Exact helpers -/

/-- How many bits of a vector are set. -/
def popcount {n : Nat} (v : BitVec n) : Nat := (List.range n).foldl (fun a i => if v.getLsbD i then a + 1 else a) 0

/-- The vector with bit i set. -/
def bvSet (v : BitVec 8192) (i : Nat) : BitVec 8192 := v ||| BitVec.twoPow 8192 i

/-- The largest r with r × r at most v, found bit by bit from bit n. -/
def isqrtFrom : Nat → Nat → Nat → Nat
  | 0, r, v => if (r + 1) * (r + 1) ≤ v then r + 1 else r
  | n + 1, r, v => let c := r + 2 ^ (n + 1); if c * c ≤ v then isqrtFrom n c v else isqrtFrom n r v

def isqrt (v : Nat) : Nat := isqrtFrom 64 0 v

/-- ⌈a ÷ b⌉ for b above 0. -/
def ceilDiv (a b : Nat) : Nat := (a + b - 1) / b

/-- Whether a is later than b among numbers of `n` bits that wrap (half-range comparison, R418, R435). -/
def later (n a b : Nat) : Bool :=
  let d := (a + 2 ^ n - b % 2 ^ n) % 2 ^ n
  d != 0 && d < 2 ^ (n - 1)

/-- a clamped to [lo, hi]. -/
def clampI (lo hi a : Int) : Int := max lo (min hi a)

/-! ### float32 as exact numbers -/

/-- A finite float32 as mantissa × 2^exponent (the exponent offset by 149, so that it is a natural number). -/
structure Flt where
  neg : Bool
  man : Nat
  exp : Nat
  deriving DecidableEq, Repr

/-- Whether a pattern is a NaN. -/
def f32NaN (w : Nat) : Bool := bits w 30 23 == 255 && bits w 22 0 != 0

def f32Inf (w : Nat) : Bool := bits w 30 23 == 255 && bits w 22 0 == 0

/-- The exact value of a finite pattern, in units of 2⁻¹⁴⁹. -/
def f32Val (w : Nat) : Int :=
  let e := bits w 30 23
  let m := bits w 22 0
  let a : Nat := if e = 0 then m else (m + 8388608) * 2 ^ (e - 1)
  if bit w 31 then -(a : Int) else (a : Int)

/-- a < b on patterns, false where either is a NaN; infinities are the largest magnitudes. -/
def f32Lt (a b : Nat) : Bool := !f32NaN a && !f32NaN b && decide (f32Val a < f32Val b)

/-- a = b, where neither is a NaN. -/
def f32Eq (a b : Nat) : Bool := !f32NaN a && !f32NaN b && decide (f32Val a = f32Val b)

def f32Le (a b : Nat) : Bool := !f32NaN a && !f32NaN b && decide (f32Val a ≤ f32Val b)

/-- The float32 nearest to an exact value of n × 2⁻¹⁴⁹, ties to even, by its number of bits. -/
def f32Round (v : Int) : Nat :=
  let s := if v < 0 then 2147483648 else 0
  let a := v.natAbs
  if a < 8388608 then s + a
  else
    let k := Nat.log2 a - 23
    let q := a / 2 ^ k
    let r := a % 2 ^ k
    let up := 2 * r > 2 ^ k || (2 * r == 2 ^ k && q % 2 == 1)
    let q := if up then q + 1 else q
    let e := k + 1
    let p := (e - 1) * 8388608 + q
    if p ≥ 255 * 8388608 then s + 255 * 8388608 else s + p

/-- The float32 quiet NaN the model writes where the spec says NaN. -/
def f32QNaN : Nat := 0x7FC00000

/-- Rounding of a value given in units of 2⁻¹⁵¹, to nearest, ties to even. -/
def f32RoundQ (v : Int) : Nat :=
  let s := if v < 0 then 2147483648 else 0
  let a := v.natAbs
  let k := if a < 33554432 then 2 else Nat.log2 a - 23
  let q := a / 2 ^ k
  let r := a % 2 ^ k
  let up := 2 * r > 2 ^ k || (2 * r == 2 ^ k && q % 2 == 1)
  let q := if up then q + 1 else q
  let p := if k = 2 then q else (k - 2) * 8388608 + q
  if p ≥ 255 * 8388608 then s + 255 * 8388608 else s + p

/-- The product of two patterns, rounded to nearest, ties to even; a NaN where an operand is not finite. -/
def f32Mul (a b : Nat) : Nat :=
  if f32NaN a || f32NaN b || f32Inf a || f32Inf b then f32QNaN
  else
    let p := f32Val a * f32Val b
    let n := p.natAbs
    let v0 : Nat := n / 2 ^ 147
    let v : Nat := if n % 2 ^ 147 = 0 || v0 % 2 = 1 then v0 else v0 + 1
    f32RoundQ (if p < 0 then -(v : Int) else (v : Int))

/-- The float32 nearest to an integer. -/
def f32OfInt (v : Int) : Nat := f32Round (v * 2 ^ 149)

/-- The float32 nearest to n ÷ d, ties to even. -/
def f32OfRat (n : Int) (d : Nat) : Nat :=
  if d = 0 then f32QNaN
  else
    let a := n.natAbs * 2 ^ 151
    let q := a / d
    let q := if a % d = 0 ∨ q % 2 = 1 then q else q + 1
    f32RoundQ (if n < 0 then -(q : Int) else (q : Int))

end Sys2Proof.Machine
end

