-- ==== Sys2Proof/Machine/RadMac.lean ====
section
/-! DEFINITION. IEEE 802.15.4-2020 frames of frame version 2 as the radio tier reads and writes them (R4, R310): headers, header IEs, the
payload IEs of an enhanced beacon, the FCS. The field layouts are PRESUMED from the standard (log entry 121). -/

namespace Sys2Proof.Machine

/-- One byte step of the FCS: x¹⁶ + x¹² + x⁵ + 1, bits least significant first, from 0. -/
def fcsByte (c : BitVec 16) (v : Byte) : BitVec 16 :=
  let step (c : BitVec 16) : BitVec 16 := if c.getLsbD 0 then (c >>> 1) ^^^ 0x8408#16 else c >>> 1
  let c := c ^^^ (v.setWidth 16)
  step (step (step (step (step (step (step (step c)))))))

/-- The two-byte FCS of a PSDU's other bytes. -/
def fcs (bs : List Byte) : Nat := (bs.foldl fcsByte 0#16).toNat

/-- A frame with its FCS behind it. -/
def withFcs (bs : List Byte) : List Byte := bs ++ leBytes 2 (fcs bs)

/-- Whether a PSDU's FCS is good. -/
def fcsGood (psdu : List Byte) : Bool :=
  decide (2 ≤ psdu.length) && leNat (psdu.drop (psdu.length - 2)) == fcs (psdu.take (psdu.length - 2))

/-- A frame's header: type (0 beacon, 1 data, 2 acknowledgement, 3 MAC command), security, frame pending, acknowledgement request, PAN ID
compression, the sequence number unless it is suppressed, the frame version; the PAN IDs and addresses that it holds, an address as its mode
(2 short, 3 extended) and value. -/
structure MacHead where
  kind : Nat
  sec : Bool
  pending : Bool
  ar : Bool
  comp : Bool
  ie : Bool
  version : Nat
  seq : Option Nat
  dstPan : Option Nat
  dst : Option (Nat × Nat)
  srcPan : Option Nat
  src : Option (Nat × Nat)
  deriving DecidableEq, Repr

/-- Whether a header of frame version 2 holds a destination PAN ID, and a source PAN ID, by the address modes and PAN ID compression. -/
def macPans (dst src : Nat) (comp : Bool) : Bool × Bool :=
  if dst = 0 ∧ src = 0 then (comp, false)
  else if src = 0 then (!comp, false)
  else if dst = 0 then (false, !comp)
  else if dst = 3 ∧ src = 3 then (!comp, false)
  else (true, !comp)

/-- Bytes of an address by its mode. -/
def macAddrLen (mode : Nat) : Nat := if mode = 3 then 8 else if mode = 2 then 2 else 0

def macMode (a : Option (Nat × Nat)) : Nat := match a with | some e => e.1 | none => 0

def macAddrBytes (a : Option (Nat × Nat)) : List Byte := match a with | some e => leBytes (macAddrLen e.1) e.2 | none => []

/-- The bytes of a header. -/
def MacHead.bytes (h : MacHead) : List Byte :=
  let d := macMode h.dst
  let s := macMode h.src
  let bitAt (v : Bool) (i : Nat) : Nat := b2n v * 2 ^ i
  let fcf := h.kind + bitAt h.sec 3 + bitAt h.pending 4 + bitAt h.ar 5 + bitAt h.comp 6 + bitAt h.seq.isNone 8 + bitAt h.ie 9 + d * 1024 +
    h.version * 4096 + s * 16384
  let pans := macPans d s h.comp
  leBytes 2 fcf ++ (match h.seq with | some n => leBytes 1 n | none => []) ++ (if pans.1 then leBytes 2 (h.dstPan.getD 0) else []) ++
    macAddrBytes h.dst ++ (if pans.2 then leBytes 2 (h.srcPan.getD 0) else []) ++ macAddrBytes h.src

/-- The auxiliary security header of R310: the level, an implicit key, the frame counter suppressed, the ASN in the nonce. -/
def macSecurity (level : Nat) : List Byte := leBytes 1 (level % 8 + 32 + 64)

/-- A header IE. -/
def headerIe (id : Nat) (content : List Byte) : List Byte := leBytes 2 (content.length % 128 + id * 128) ++ content

/-- The time-correction IE of an Enh-ACK, in µs. -/
def timeCorrection (us : Int) : List Byte := headerIe 0x1E (leBytes 2 (us % 4096).toNat)

/-- A short nested IE of the MLME payload IE, and a long one. -/
def shortIe (id : Nat) (content : List Byte) : List Byte := leBytes 2 (content.length % 256 + id * 256) ++ content
def longIe (id : Nat) (content : List Byte) : List Byte := leBytes 2 (content.length % 2048 + id * 2048 + 32768) ++ content

/-- The MLME payload IE behind the header's termination. -/
def mlmeIes (nested : List Byte) : List Byte := headerIe 0x7E [] ++ leBytes 2 (nested.length % 2048 + 2048 + 32768) ++ nested

/-- A frame as read: its header; the security control octet of a secured frame; the header IEs; whether payload IEs follow them; how many bytes
these all take; the bytes after them but for the FCS. -/
structure MacFrame where
  head : MacHead
  control : Option Nat
  ies : List (Nat × List Byte)
  payloadIe : Bool
  front : Nat
  body : List Byte
  deriving DecidableEq, Repr

/-- The header IEs from a place on, up to a termination: the IEs, whether payload IEs follow, the bytes taken. -/
def readIes : Nat → List Byte → List (Nat × List Byte) × Bool × Nat
  | 0, _ => ([], false, 0)
  | n + 1, bs =>
    if bs.length < 2 then ([], false, 0)
    else
      let w := leAt bs 0 2
      let id := bits w 14 7
      let len := w % 128
      if bit w 15 then ([], false, 0)
      else if id = 0x7E then ([], true, 2)
      else if id = 0x7F then ([], false, 2)
      else
        let r := readIes n (bs.drop (2 + len))
        ((id, slice bs 2 len) :: r.1, r.2.1, 2 + len + r.2.2)

/-- A PSDU without its FCS read as a frame of frame version 2, none where it is cut short. -/
def readMac (bs : List Byte) : Option MacFrame :=
  let fcf := leAt bs 0 2
  let d := bits fcf 11 10
  let s := bits fcf 15 14
  let comp := bit fcf 6
  let pans := macPans d s comp
  let at0 := 2
  let at1 := if bit fcf 8 then at0 else at0 + 1
  let at2 := if pans.1 then at1 + 2 else at1
  let at3 := at2 + macAddrLen d
  let at4 := if pans.2 then at3 + 2 else at3
  let at5 := at4 + macAddrLen s
  let head : MacHead := ⟨fcf % 8, bit fcf 3, bit fcf 4, bit fcf 5, comp, bit fcf 9, bits fcf 13 12,
    if bit fcf 8 then none else some (leAt bs at0 1), if pans.1 then some (leAt bs at1 2) else none,
    if macAddrLen d = 0 then none else some (d, leAt bs at2 (macAddrLen d)), if pans.2 then some (leAt bs at3 2) else none,
    if macAddrLen s = 0 then none else some (s, leAt bs at4 (macAddrLen s))⟩
  let control := leAt bs at5 1
  let at6 := if head.sec then at5 + 1 + (if bit control 5 then 0 else 4) + [0, 1, 5, 9].getD (bits control 4 3) 0 else at5
  let r := if head.ie then readIes 127 (bs.drop at6) else ([], false, 0)
  let front := at6 + r.2.2
  if bs.length < front then none else some ⟨head, if head.sec then some control else none, r.1, r.2.1, front, bs.drop front⟩

/-- Whether a frame is of a form that RAD supports (R310): frame version 2; a beacon, a data frame without payload IEs, or an acknowledgement; its
frame counter suppressed and the ASN in the nonce where it is secured. -/
def MacFrame.supported (f : MacFrame) : Bool :=
  f.head.version == 2 && (f.head.kind == 0 || (f.head.kind == 1 && !f.payloadIe) || f.head.kind == 2) &&
    (match f.control with | some c => bits c 6 5 == 3 | none => true)

/-- The security level of a frame. -/
def MacFrame.level (f : MacFrame) : Nat := match f.control with | some c => c % 8 | none => 0

/-- The MIC's bytes at a security level. -/
def macMic (level : Nat) : Nat := if level = 6 then 8 else 4

/-- The time correction of an Enh-ACK in µs. -/
def MacFrame.correction (f : MacFrame) : Option Int :=
  match f.ies.find? (fun e => e.1 == 0x1E) with | some e => some (sgn 12 (leAt e.2 0 2 % 4096)) | none => none

/-- The ASN and join metric of the TSCH synchronisation IE among the nested IEs of a beacon's MLME IE. -/
def readSync : Nat → List Byte → Option (Nat × Nat)
  | 0, _ => none
  | n + 1, bs =>
    if bs.length < 2 then none
    else
      let w := leAt bs 0 2
      if bit w 15 then readSync n (bs.drop (2 + w % 2048))
      else if bits w 14 8 = 0x1A then some (leAt bs 2 5, leAt bs 7 1)
      else readSync n (bs.drop (2 + w % 256))

/-- The ASN and join metric that a beacon carries. -/
def MacFrame.sync (f : MacFrame) : Option (Nat × Nat) :=
  if f.head.kind = 0 ∧ f.payloadIe = true ∧ bits (leAt f.body 0 2) 15 11 = 0x11 then readSync 64 (slice f.body 2 (leAt f.body 0 2 % 2048)) else none

end Sys2Proof.Machine
end

