-- ==== Sys2Proof/Machine/Deflate.lean ====
section
/-! DEFINITION. DEFLATE decoding (RFC 1951, named by R357 and R365): blocks, canonical Huffman codes and the dictionary. -/

namespace Sys2Proof.Machine

/-- The bits of a byte string, each byte from its least significant bit. -/
def bitsOf (bs : List Byte) : List Bool := bs.flatMap (fun x => (List.range 8).map x.getLsbD)

/-- The next n bits as a number, least significant first. -/
def takeNum : Nat → List Bool → Option (Nat × List Bool)
  | 0, r => some (0, r)
  | _ + 1, [] => none
  | n + 1, x :: r => (takeNum n r).map (fun p => (b2n x + 2 * p.1, p.2))

/-- A canonical Huffman code: how many codes each length from 1 to 15 has, and the symbols in the order of their codes. -/
structure HuffCode where
  counts : List Nat
  syms : List Nat
  deriving DecidableEq, Repr

/-- The code that a list of code lengths spells, symbol by symbol. -/
def HuffCode.ofLengths (lens : List Nat) : HuffCode :=
  let of (n : Nat) := (List.range lens.length).filter (fun s => lens.getD s 0 == n)
  ⟨(List.range 15).map (fun i => (of (i + 1)).length), (List.range 15).flatMap (fun i => of (i + 1))⟩

/-- Whether every bit string has a meaning under the code. -/
def HuffCode.complete (h : HuffCode) : Bool :=
  ((List.range 15).map (fun i => h.counts.getD i 0 * 2 ^ (14 - i))).sum == 32768

/-- Whether a decoder takes the code: complete, or at most one code of one bit. -/
def HuffCode.usable (h : HuffCode) : Bool :=
  h.complete || (h.syms.length ≤ 1 && h.counts.getD 0 0 == h.syms.length)

/-- The next symbol, from the counts and symbols of the lengths still to try, the code read so far and the first code of its length. -/
def huffSym : List Nat → List Nat → Nat → Nat → List Bool → Option (Nat × List Bool)
  | n :: cs, syms, code, first, x :: bits =>
    let code := 2 * code + b2n x
    let first := 2 * first
    if code < first + n then syms[code - first]?.map (fun s => (s, bits))
    else huffSym cs (syms.drop n) code (first + n) bits
  | _, _, _, _, _ => none

def HuffCode.next (h : HuffCode) (bits : List Bool) : Option (Nat × List Bool) := huffSym h.counts h.syms 0 0 bits

/-- The base of a length symbol less 257, and of a distance symbol; how many extra bits follow it. -/
def lengthBase : List (Nat × Nat) :=
  [(3, 0), (4, 0), (5, 0), (6, 0), (7, 0), (8, 0), (9, 0), (10, 0), (11, 1), (13, 1), (15, 1), (17, 1), (19, 2), (23, 2), (27, 2), (31, 2)] ++
  [(35, 3), (43, 3), (51, 3), (59, 3), (67, 4), (83, 4), (99, 4), (115, 4), (131, 5), (163, 5), (195, 5), (227, 5), (258, 0)]

def distBase : List (Nat × Nat) :=
  [(1, 0), (2, 0), (3, 0), (4, 0), (5, 1), (7, 1), (9, 2), (13, 2), (17, 3), (25, 3), (33, 4), (49, 4), (65, 5), (97, 5), (129, 6)] ++
  [(193, 6), (257, 7), (385, 7), (513, 8), (769, 8), (1025, 9), (1537, 9), (2049, 10), (3073, 10), (4097, 11), (6145, 11), (8193, 12)] ++
  [(12289, 12), (16385, 13), (24577, 13)]

/-- The number that a symbol of a base table and its extra bits give. -/
def baseNum (t : List (Nat × Nat)) (s : Nat) (bits : List Bool) : Option (Nat × List Bool) :=
  match t[s]? with
  | some e => (takeNum e.2 bits).map (fun p => (e.1 + p.1, p.2))
  | none => none

/-- n bytes copied one by one from a distance back; the output is newest first. -/
def copyBack : Nat → Nat → List Byte → Option (List Byte)
  | 0, _, out => some out
  | n + 1, d, out =>
    match out[d - 1]? with
    | some x => copyBack n d (x :: out)
    | none => none

/-- The symbols of a compressed block to its end-of-block symbol; every symbol takes a bit, so the bits bound their number. -/
def inflateCodes (lit dist : HuffCode) : Nat → List Bool → List Byte → Option (List Bool × List Byte)
  | 0, _, _ => none
  | n + 1, bits, out =>
    match lit.next bits with
    | none => none
    | some (s, bits) =>
      if s < 256 then inflateCodes lit dist n bits (BitVec.ofNat 8 s :: out)
      else if s = 256 then some (bits, out)
      else
        match baseNum lengthBase (s - 257) bits with
        | none => none
        | some (len, bits) =>
          match dist.next bits with
          | none => none
          | some (ds, bits) =>
            match baseNum distBase ds bits with
            | none => none
            | some (d, bits) =>
              match copyBack len d out with
              | none => none
              | some out => inflateCodes lit dist n bits out

/-- The order in which the lengths of the code length code come. -/
def clOrder : List Nat := [16, 17, 18, 0, 8, 7, 9, 6, 10, 5, 11, 4, 12, 3, 13, 2, 14, 1, 15]

/-- n numbers of three bits. -/
def takeTriples : Nat → List Bool → Option (List Nat × List Bool)
  | 0, bits => some ([], bits)
  | n + 1, bits =>
    match takeNum 3 bits with
    | some (v, bits) => (takeTriples n bits).map (fun p => (v :: p.1, p.2))
    | none => none

/-- Code lengths up to a total, newest first: a length, 16 the last again, 17 and 18 runs of zero. -/
def takeLens (cl : HuffCode) (total : Nat) : Nat → List Bool → List Nat → Option (List Nat × List Bool)
  | 0, _, _ => none
  | n + 1, bits, acc =>
    if total ≤ acc.length then (if acc.length = total then some (acc.reverse, bits) else none)
    else
      match cl.next bits with
      | none => none
      | some (s, bits) =>
        if s < 16 then takeLens cl total n bits (s :: acc)
        else
          let run := if s = 16 then (2, 3) else if s = 17 then (3, 3) else (7, 11)
          match takeNum run.1 bits, (if s = 16 then acc.head? else some 0) with
          | some (k, bits), some v => takeLens cl total n bits (List.replicate (run.2 + k) v ++ acc)
          | _, _ => none

/-- The two codes that a dynamic block's header gives. -/
def dynamicCodes (bits : List Bool) : Option (HuffCode × HuffCode × List Bool) :=
  match takeNum 14 bits with
  | none => none
  | some (h, bits) =>
    let nlit := h % 32 + 257
    let ndist := h / 32 % 32 + 1
    if 286 < nlit ∨ 30 < ndist then none
    else
      match takeTriples (h / 1024 + 4) bits with
      | none => none
      | some (ls, bits) =>
        let cl := HuffCode.ofLengths ((List.range 19).map (fun s => ls.getD (clOrder.idxOf s) 0))
        if cl.complete = false then none
        else
          match takeLens cl (nlit + ndist) (nlit + ndist + 1) bits [] with
          | none => none
          | some (lens, bits) =>
            let lit := HuffCode.ofLengths (lens.take nlit)
            let dist := HuffCode.ofLengths (lens.drop nlit)
            if lens.getD 256 0 = 0 ∨ lit.usable = false ∨ dist.usable = false then none else some (lit, dist, bits)

/-- The codes of a fixed block. -/
def fixedLit : HuffCode := HuffCode.ofLengths (List.replicate 144 8 ++ List.replicate 112 9 ++ List.replicate 24 7 ++ List.replicate 8 8)
def fixedDist : HuffCode := HuffCode.ofLengths (List.replicate 32 5)

/-- n bytes of a stored block, at a byte boundary. -/
def takeBytes : Nat → List Bool → List Byte → Option (List Bool × List Byte)
  | 0, bits, out => some (bits, out)
  | n + 1, bits, out =>
    match takeNum 8 bits with
    | some (v, bits) => takeBytes n bits (BitVec.ofNat 8 v :: out)
    | none => none

/-- A block after its three header bits. -/
def inflateBlock (kind : Nat) (bits : List Bool) (out : List Byte) : Option (List Bool × List Byte) :=
  if kind = 0 then
    match takeNum 32 (bits.drop (bits.length % 8)) with
    | some (v, bits) => if v % 65536 + v / 65536 = 65535 then takeBytes (v % 65536) bits out else none
    | none => none
  else if kind = 1 then inflateCodes fixedLit fixedDist (bits.length + 1) bits out
  else if kind = 2 then
    match dynamicCodes bits with
    | some (lit, dist, bits) => inflateCodes lit dist (bits.length + 1) bits out
    | none => none
  else none

/-- Blocks one after another: to the final one, after which less than a byte is left, or to the end of the data. -/
def inflateFrom : Nat → List Bool → List Byte → Option (List Byte)
  | 0, _, _ => none
  | n + 1, bits, out =>
    match takeNum 3 bits with
    | none => none
    | some (h, bits) =>
      match inflateBlock (h / 2) bits out with
      | none => none
      | some (bits, out) =>
        if h % 2 = 1 then (if bits.length < 8 then some out else none)
        else if bits = [] then some out
        else inflateFrom n bits out

/-- The block that a DEFLATE payload decodes to under a dictionary, none where it is malformed (R365). -/
def inflate (hist pay : List Byte) : Option (List Byte) :=
  let bits := bitsOf pay
  (inflateFrom (bits.length + 1) bits hist.reverse).map (fun out => out.reverse.drop hist.length)

end Sys2Proof.Machine
end

