-- ==== Sys2Proof/Machine/Num.lean ====
section
/-! DEFINITION. float32 arithmetic, and the real functions that the spec's formulas use, in fixed point of 256 fraction bits. Each
operation on float32 patterns rounds its exact result to nearest, ties to even (log entry 111). -/

namespace Sys2Proof.Machine

/-! ### float32 operations -/

/-- The float32 nearest to n ÷ d in units of 2⁻¹⁴⁹. -/
def f32OfRatio (n : Int) (d : Nat) : Nat :=
  if d = 0 then f32QNaN
  else
    let a := n.natAbs * 4
    let q := a / d
    let q := if a % d = 0 ∨ q % 2 = 1 then q else q + 1
    f32RoundQ (if n < 0 then -(q : Int) else (q : Int))

/-- The pattern with its sign turned. -/
def f32Neg (a : Nat) : Nat := if bit a 31 then a - 2147483648 else a + 2147483648

def f32Zero (a : Nat) : Bool := a % 2147483648 == 0

/-- a + b; an infinity stays one, and two of opposite sign have no sum. -/
def f32Add (a b : Nat) : Nat :=
  if f32NaN a || f32NaN b then f32QNaN
  else if f32Inf a then (if f32Inf b && a != b then f32QNaN else a)
  else if f32Inf b then b
  else f32Round (f32Val a + f32Val b)

def f32Sub (a b : Nat) : Nat := f32Add a (f32Neg b)

/-- a ÷ b. -/
def f32Div (a b : Nat) : Nat :=
  if f32NaN a || f32NaN b || f32Inf a || f32Inf b || f32Zero b then f32QNaN
  else
    let n := f32Val a
    let d := f32Val b
    f32OfRatio ((if d < 0 then -n else n) * 2 ^ 149) d.natAbs

/-- √a. -/
def f32Sqrt (a : Nat) : Nat :=
  if f32NaN a || f32Inf a || (bit a 31 && !f32Zero a) then f32QNaN
  else
    let v := (f32Val a).natAbs * 2 ^ 153
    let r := isqrtFrom 220 0 v
    f32RoundQ (if r * r = v ∨ r % 2 = 1 then r else r + 1 : Nat)

/-- 1.0, 0.0 and small integers. -/
def f32One : Nat := 0x3F800000

def f32Nat (n : Nat) : Nat := f32OfInt n

def f32Sum (xs : List Nat) : Nat := xs.foldl f32Add 0

/-- The sum of products, in the order of the lists. -/
def f32Dot (xs ys : List Nat) : Nat := (xs.zip ys).foldl (fun s p => f32Add s (f32Mul p.1 p.2)) 0

def f32Max (a b : Nat) : Nat := if f32Lt a b then b else a

def f32Min (a b : Nat) : Nat := if f32Lt b a then b else a

/-! ### Fixed point with 256 fraction bits -/

/-- One. -/
def qOne : Nat := 2 ^ 256

/-- π in 2⁻⁶⁴⁰ and in 2⁻²⁵⁶, ln 2 in 2⁻²⁵⁶. -/
def piFine : Nat := 0x3243f6a8885a308d313198a2e03707344a4093822299f31d0082efa98ec4e6c89452821e638d01377be5466cf34e90c6cc0ac29b7c97c50dd3f84d5b5b54709179216d5d98979fb1bd1310ba698dfb5ac

def qPi : Nat := piFine / 2 ^ 384

def qLn2 : Nat := 0xb17217f7d1cf79abc9e3b39803f2f6af40f343267298b62d8a0d175b8baafa2b

def qMul (a b : Int) : Int := a * b / (qOne : Int)

/-- a ÷ b, 0 for b = 0. -/
def qDiv (a b : Int) : Int := if b = 0 then 0 else a * (qOne : Int) / b

def qSqrt (v : Int) : Int := if v ≤ 0 then 0 else (isqrtFrom 330 0 (v.toNat * qOne) : Nat)

/-- n ÷ d. -/
def qRat (n : Int) (d : Nat) : Int := n * (qOne : Int) / (d : Int)

/-- The exact value of a finite float32. -/
def qOfF32 (w : Nat) : Int := f32Val w * 2 ^ 107

/-- The float32 nearest to a fixed-point value. -/
def f32OfQ (v : Int) : Nat := f32OfRatio v (2 ^ 107)

/-- A value rounded to the nearest integer, ties away from zero. -/
def qRound (v : Int) : Int := if v < 0 then -((-v + 2 ^ 255) / (qOne : Int)) else (v + 2 ^ 255) / (qOne : Int)

/-- Σ ± x^(2n+1) ÷ (2n+1)! or x^(2n) ÷ (2n)!, from a term with its index. -/
def trigFrom : Nat → Int → Nat → Int → Int
  | 0, _, _, _ => 0
  | f + 1, term, n, x2 => term + trigFrom f (-(qMul term x2 / ((n + 1) * (n + 2) : Nat))) (n + 2) x2

/-- An angle less the nearest multiple of π ÷ 2, with the multiple. -/
def quadrant (x : Int) : Int × Int :=
  let k := (x * 2 ^ 385 + (piFine : Int) / 2) / (piFine : Int)
  (k, (x * 2 ^ 385 - k * (piFine : Int)) / 2 ^ 385)

def sinReduced (r : Int) : Int := trigFrom 64 r 1 (qMul r r)

def cosReduced (r : Int) : Int := trigFrom 64 (qOne : Int) 0 (qMul r r)

def qSin (x : Int) : Int :=
  let q := quadrant x
  match (q.1 % 4).toNat with
  | 0 => sinReduced q.2
  | 1 => cosReduced q.2
  | 2 => -(sinReduced q.2)
  | _ => -(cosReduced q.2)

def qCos (x : Int) : Int :=
  let q := quadrant x
  match (q.1 % 4).toNat with
  | 0 => cosReduced q.2
  | 1 => -(sinReduced q.2)
  | 2 => -(cosReduced q.2)
  | _ => sinReduced q.2

def qTan (x : Int) : Int := qDiv (qSin x) (qCos x)

/-- Σ s^n t^(2n+1) ÷ (2n+1), s −1 for the arc tangent and 1 for its hyperbolic kin. -/
def atanFrom : Nat → Int → Nat → Int → Int
  | 0, _, _, _ => 0
  | f + 1, pow, n, t2 => pow / (n : Int) + atanFrom f (qMul pow t2) (n + 2) t2

/-- Half the angle of a tangent. -/
def tanHalf (t : Int) : Int := qDiv t ((qOne : Int) + qSqrt ((qOne : Int) + qMul t t))

/-- The arc tangent of 0 ≤ t ≤ 1. -/
def atanUnit (t : Int) : Int :=
  let h := tanHalf (tanHalf (tanHalf t))
  8 * atanFrom 48 h 1 (-(qMul h h))

/-- The angle of (x, y) in (−π, π]; 0 for the origin. The arguments share any scale. -/
def qAtan2 (y x : Int) : Int :=
  let a := y.natAbs
  let c := x.natAbs
  if a = 0 then (if x < 0 then (qPi : Int) else 0)
  else
    let first := if a ≤ c then atanUnit (((a * qOne / c : Nat)) : Int) else (qPi : Int) / 2 - atanUnit (((c * qOne / a : Nat)) : Int)
    let up := if x < 0 then (qPi : Int) - first else first
    if y < 0 then -up else up

/-- ln of a positive value. -/
def qLn (v : Int) : Int :=
  if v ≤ 0 then 0
  else
    let n := v.toNat
    let k := Nat.log2 n
    let m : Int := ((n * qOne / 2 ^ k : Nat) : Int)
    let t := qDiv (m - qOne) (m + qOne)
    2 * atanFrom 90 t 1 (qMul t t) + ((k : Int) - 256) * qLn2

def expFrom : Nat → Int → Nat → Int → Int
  | 0, _, _, _ => 0
  | f + 1, term, n, x => term + expFrom f (qMul term x / ((n + 1 : Nat) : Int)) (n + 1) x

/-- e^x; exponents past 2^12 are not told apart. -/
def qExp (x : Int) : Int :=
  let k := x / (qLn2 : Int)
  let r := expFrom 72 (qOne : Int) 0 (x - k * qLn2)
  if k < 0 then r / 2 ^ (min 4096 k.natAbs) else r * 2 ^ (min 4096 k.natAbs)

end Sys2Proof.Machine
end

