-- ==== Sys2Proof/Machine/RplNum.lean ====
section
/-! DEFINITION. The arithmetic of the ripple engine: filters and their design, the recursive AR(20) estimator, roots of its polynomial,
slopes and variations (R145, R146, R149, R157, R158, R168, R170). Operations on float32 round as log entry 111 says. -/

namespace Sys2Proof.Machine

/-! ### Complex numbers in fixed point -/

abbrev Cx := Int × Int

def Cx.add (a b : Cx) : Cx := (a.1 + b.1, a.2 + b.2)

def Cx.sub (a b : Cx) : Cx := (a.1 - b.1, a.2 - b.2)

def Cx.mul (a b : Cx) : Cx := (qMul a.1 b.1 - qMul a.2 b.2, qMul a.1 b.2 + qMul a.2 b.1)

/-- a ÷ b, 0 for b = 0. -/
def Cx.div (a b : Cx) : Cx :=
  let n := b.1 * b.1 + b.2 * b.2
  if n = 0 then (0, 0) else ((a.1 * b.1 + a.2 * b.2) * (qOne : Int) / n, (a.2 * b.1 - a.1 * b.2) * (qOne : Int) / n)

/-! ### Butterworth filters by the bilinear transform -/

/-- The coefficients b0, b1, b2, a1, a2 of a biquad, with a0 = 1. -/
structure Biquad where
  b0 : Nat
  b1 : Nat
  b2 : Nat
  a1 : Nat
  a2 : Nat
  deriving DecidableEq, Repr

/-- One step in transposed direct form II: the output and the two state words after it (R146). -/
def Biquad.step (c : Biquad) (s : List Nat) (x : Nat) : Nat × List Nat :=
  let y := f32Add (f32Mul c.b0 x) (s.getD 0 0)
  (y, [f32Add (f32Sub (f32Mul c.b1 x) (f32Mul c.a1 y)) (s.getD 1 0), f32Sub (f32Mul c.b2 x) (f32Mul c.a2 y)])

/-- Biquads in series on one list of state words. -/
def cascade : List Biquad → List Nat → Nat → Nat × List Nat
  | [], _, x => (x, [])
  | c :: r, s, x =>
    let y := c.step (s.take 2) x
    let z := cascade r (s.drop 2) y.1
    (z.1, y.2 ++ z.2)

/-- tan(π f ÷ rate): an edge pre-warped. -/
def prewarp (f : Int) (rate : Nat) : Int := qTan (qMul qPi (f / (rate : Int)))

/-- A second-order Butterworth low-pass with its edge at f Hz (R145). -/
def lowPass (f : Int) (rate : Nat) : Biquad :=
  let k := prewarp f rate
  let k2 := qMul k k
  let r := qMul (qSqrt (2 * (qOne : Int))) k
  let a0 := (qOne : Int) + r + k2
  ⟨f32OfQ (qDiv k2 a0), f32OfQ (2 * qDiv k2 a0), f32OfQ (qDiv k2 a0), f32OfQ (2 * qDiv (k2 - qOne) a0), f32OfQ (qDiv ((qOne : Int) - r + k2) a0)⟩

/-- The biquad of a pole of the analog band-pass with its conjugate, for a bandwidth w. -/
def poleBiquad (w : Int) (p : Cx) : Biquad :=
  let m := qMul p.1 p.1 + qMul p.2 p.2
  let a0 := (qOne : Int) - 2 * p.1 + m
  ⟨f32OfQ (qDiv w a0), 0, f32OfQ (-(qDiv w a0)), f32OfQ (qDiv (2 * m - 2 * qOne) a0), f32OfQ (qDiv ((qOne : Int) + 2 * p.1 + m) a0)⟩

/-- A fourth-order Butterworth band-pass from lo to hi Hz as two biquads, both edges pre-warped (R146). The prototype's poles (−1 ± j) ÷ √2
give s² − p w s + lo hi = 0. -/
def bandPass (lo hi : Int) (rate : Nat) : List Biquad :=
  let l := prewarp lo rate
  let h := prewarp hi rate
  let w := h - l
  let c := qMul l h
  let d := qSqrt (qMul (4 * c) (4 * c) + qMul (qMul w w) (qMul w w))
  let root : Cx := (qSqrt ((d - 4 * c) / 2), -(qSqrt ((d + 4 * c) / 2)))
  let half := qDiv w (qSqrt (2 * (qOne : Int)))
  let pb : Cx := (-half, half)
  let p1 := Cx.add pb root
  let p2 := Cx.sub pb root
  [poleBiquad w (p1.1 / 2, p1.2 / 2), poleBiquad w (p2.1 / 2, p2.2 / 2)]

/-- n hundredths of a hertz. -/
def centiHz (n : Nat) : Int := (n : Int) * (qOne : Int) / 100

/-- 1 − exp(−1 ÷ (τ × rate)) for τ in ms (R146). -/
def smoothing (tau rate : Nat) : Nat := f32OfQ ((qOne : Int) - qExp (-((qOne : Int) * 1000 / ((tau * rate : Nat) : Int))))

/-! ### The recursive estimator (R157) -/

/-- An AR(20) estimator: θ, P by rows, the last 20 values (newest first), the signal and residual powers, all float32. -/
def Rls.start : Rls where
  theta := List.replicate 20 0
  phi := List.replicate 20 0
  p := (List.range 20).map (fun i => (List.range 20).map (fun j => if i = j then f32Nat 100 else 0))
  vy := 0
  ve := 0

/-- One step of the estimator on y with a forgetting factor. -/
def Rls.step (r : Rls) (lam y : Nat) : Rls :=
  let e := f32Sub y (f32Dot r.theta r.phi)
  let pphi := r.p.map (fun row => f32Dot row r.phi)
  let den := f32Add lam (f32Dot r.phi pphi)
  let k := pphi.map (fun v => f32Div v den)
  let row := (List.range 20).map (fun j => f32Dot r.phi (r.p.map (fun q => q.getD j 0)))
  let p := (r.p.zip k).map (fun a => (a.1.zip row).map (fun c => f32Div (f32Sub c.1 (f32Mul a.2 c.2)) lam))
  let trace := f32Sum ((List.range 20).map (fun i => (p.getD i []).getD i 0))
  let one := f32Sub f32One lam
  { theta := (r.theta.zip k).map (fun a => f32Add a.1 (f32Mul a.2 e))
    phi := (y :: r.phi).take 20
    p := if f32Lt (f32Nat 1000000) trace then Rls.start.p else p
    vy := f32Add (f32Mul lam r.vy) (f32Mul (f32Mul one y) y)
    ve := f32Add (f32Mul lam r.ve) (f32Mul (f32Mul one e) e) }

/-! ### Roots (R158) -/

/-- A polynomial zⁿ + c₁zⁿ⁻¹ + … + cₙ and its derivative at a point. -/
def polyAt (cs : List Int) (z : Cx) : Cx × Cx :=
  cs.foldl (fun (a : Cx × Cx) c => (Cx.add (Cx.mul a.1 z) (c, 0), Cx.add (Cx.mul a.2 z) a.1)) (((qOne : Int), 0), (0, 0))

/-- One correction of an approximation by Newton's step, with the other approximations' pull taken out. -/
def rootStep (cs : List Int) (zs : List Cx) (i : Nat) : List Cx :=
  let z := zs.getD i (0, 0)
  let p := polyAt cs z
  let w := Cx.div p.1 p.2
  let pull := ((List.range zs.length).filter (· != i)).foldl (fun s j => Cx.add s (Cx.div ((qOne : Int), 0) (Cx.sub z (zs.getD j (0, 0))))) (0, 0)
  zs.set i (Cx.sub z (Cx.div w (Cx.sub ((qOne : Int), 0) (Cx.mul w pull))))

/-- The roots other than 0 of a polynomial, approximated by 80 rounds of simultaneous iteration from points of the unit circle. -/
def polyRoots (cs : List Int) : List Cx :=
  let cs := (cs.reverse.dropWhile (· == 0)).reverse
  let n := cs.length
  let start := (List.range n).map (fun (k : Nat) => let a := 2 * (qPi : Int) * (k : Int) / (n : Int) + qRat 2 5; ((qCos a, qSin a) : Cx))
  (List.range 80).foldl (fun zs _ => (List.range n).foldl (rootStep cs) zs) start

/-- The dominant root's ln r and ω of an estimator: of those above the real axis whose frequency lies between lo and hi hundredths of a
hertz at a rate, the one of largest modulus. -/
def Rls.mode (r : Rls) (rate lo hi : Nat) : Option (Int × Int) :=
  let zs := polyRoots (r.theta.map (fun t => -(qOfF32 t)))
  let ok := zs.filterMap (fun z =>
    let om := qAtan2 z.2 z.1
    let f := om * (rate : Int) * 100
    if 0 < z.2 ∧ 2 * (qPi : Int) * (lo : Int) ≤ f ∧ f ≤ 2 * (qPi : Int) * (hi : Int) then some (z.1 * z.1 + z.2 * z.2, om) else none)
  match ok with
  | [] => none
  | a :: l =>
    let m := l.foldl (fun a c => if a.1 < c.1 then c else a) a
    some (qLn (qSqrt (m.1 / (qOne : Int))), m.2)

/-- f = ω × rate ÷ 2π. -/
def modeFreq (rate : Nat) (m : Int × Int) : Nat := f32OfQ (m.2 * (rate : Int) * (qOne : Int) / (2 * (qPi : Int)))

/-- ζ = −ln r ÷ √(ln²r + ω²). -/
def modeZeta (m : Int × Int) : Nat := f32OfQ (qDiv (-m.1) (qSqrt (qMul m.1 m.1 + qMul m.2 m.2)))

/-! ### Statistics -/

/-- The standard deviation of some values over their mean (R168). -/
def variation (xs : List Nat) : Nat :=
  let n := f32Nat xs.length
  let m := f32Div (f32Sum xs) n
  let d := xs.map (fun x => f32Sub x m)
  f32Div (f32Sqrt (f32Div (f32Dot d d) n)) m

/-- The least-squares slope per second of equally spaced values, newest first, at a rate (R170). -/
def lsSlope (rate : Nat) (xs : List Nat) : Nat :=
  let n := xs.length
  let s : Int := ((List.range n).zip xs).foldl (fun (a : Int) e => a + ((n : Int) - 1 - 2 * (e.1 : Int)) * f32Val e.2) 0
  f32OfRatio (6 * (rate : Int) * s) (n * (n * n - 1))

end Sys2Proof.Machine
end

