-- ==== Sys2Proof/Machine/RplEig.lean ====
section
/-! DEFINITION. The modal accelerator's symmetric eigen-decomposition in float32 (R153): Householder tridiagonalisation, then bisection and
inverse iteration for the 16 largest eigenvalues. Its order of operations, tolerances and start vectors are log entry 55's. -/

namespace Sys2Proof.Machine

/-- xs + k × ys. -/
def f32Axpy (k : Nat) (xs ys : List Nat) : List Nat := (xs.zip ys).map (fun e => f32Add e.1 (f32Mul k e.2))

/-- A vector of unit norm in its direction; a zero vector stays. -/
def f32Unit (xs : List Nat) : List Nat :=
  let n := f32Sqrt (f32Dot xs xs)
  if f32Zero n then xs else xs.map (fun x => f32Div x n)

/-- ys − 2 u (uᵀ ys). -/
def reflect (u ys : List Nat) : List Nat :=
  if u = [] then ys else f32Axpy (f32Neg (f32Mul (f32Nat 2) (f32Dot u ys))) ys u

/-- One row of the tridiagonal form: diagonal, off-diagonal below it, and the unit vector of the reflection that made it (none: []). -/
structure TriRow where
  d : Nat
  e : Nat
  u : List Nat
  deriving DecidableEq, Repr

/-- The Householder vector that turns a column into its first coordinate, and the coordinate. -/
def householder (x : List Nat) : Nat × List Nat :=
  match x with
  | [] => (0, [])
  | [a] => (a, [])
  | a :: r =>
    let n := f32Sqrt (f32Dot x x)
    if f32Zero n then (0, [])
    else
      let alpha := if bit a 31 then n else f32Neg n
      (alpha, f32Unit (f32Sub a alpha :: r))

/-- The trailing matrix after a reflection on both sides: B − 2 (u wᵀ + w uᵀ) with w = B u − u (uᵀ B u). -/
def reflectBoth (u : List Nat) (m : List (List Nat)) : List (List Nat) :=
  if u = [] then m
  else
    let p := m.map (fun row => f32Dot row u)
    let w := f32Axpy (f32Neg (f32Dot u p)) p u
    let two := f32Neg (f32Nat 2)
    (m.zip (u.zip w)).map (fun e => f32Axpy (f32Mul two e.2.2) (f32Axpy (f32Mul two e.2.1) e.1 w) u)

/-- The tridiagonal form of a symmetric matrix of at most the given order, row by row. -/
def tridiagonal : Nat → List (List Nat) → List TriRow
  | 0, _ => []
  | n + 1, m =>
    match m with
    | [] => []
    | row :: rest =>
      let h := householder (row.drop 1)
      ⟨row.headD 0, h.1, h.2⟩ :: tridiagonal n (reflectBoth h.2 (rest.map (·.drop 1)))

/-- A value small beside a matrix's norm: the pivot taken in place of 0. -/
def tinyPivot (norm : Nat) : Nat := f32Add (f32Mul norm 0x34000000) 0x00800000

/-- How many eigenvalues lie below a value: the negative terms of the Sturm sequence; `q` is the last term, `e` the last off-diagonal. -/
def sturm (x tiny : Nat) : List TriRow → Nat → Nat → Nat
  | [], _, _ => 0
  | r :: t, q, e =>
    let v := f32Sub (f32Sub r.d x) (f32Div (f32Mul e e) q)
    let v := if f32Zero v then tiny else v
    b2n (bit v 31) + sturm x tiny t v r.e

/-- The largest absolute row sum. -/
def triNorm : List TriRow → Nat → Nat
  | [], _ => 0
  | r :: t, e => f32Max (f32Add (r.d % 2147483648) (f32Add (e % 2147483648) (if t.isEmpty then 0 else r.e % 2147483648))) (triNorm t r.e)

/-- Bisection for the value that `k` eigenvalues lie below. -/
def bisect (t : List TriRow) (tiny k : Nat) : Nat → Nat → Nat → Nat
  | 0, lo, hi => f32Div (f32Add lo hi) (f32Nat 2)
  | f + 1, lo, hi =>
    let m := f32Div (f32Add lo hi) (f32Nat 2)
    if sturm m tiny t f32One 0 ≤ k then bisect t tiny k f m hi else bisect t tiny k f lo m

/-- One row of the eliminated system: three coefficients and the right side. -/
abbrev ElimRow := Nat × Nat × Nat × Nat

/-- Gaussian elimination with row interchanges of (T − x) y = b: `c` is the row in hand (two coefficients, right side), `e` the off-diagonal to
the next row; the rows come out last first. -/
def eliminate (x tiny : Nat) : List TriRow → List Nat → Nat → Nat × Nat × Nat → List ElimRow → List ElimRow
  | [], _, _, c, out => (if f32Zero c.1 then tiny else c.1, c.2.1, 0, c.2.2) :: out
  | r :: t, bs, e, c, out =>
    let d := f32Sub r.d x
    let s := if t.isEmpty then 0 else r.e
    let b := bs.headD 0
    if f32Lt (c.1 % 2147483648) (e % 2147483648) then
      let m := f32Div c.1 e
      eliminate x tiny t (bs.drop 1) r.e (f32Sub c.2.1 (f32Mul m d), f32Neg (f32Mul m s), f32Sub c.2.2 (f32Mul m b)) ((e, d, s, b) :: out)
    else
      let p := if f32Zero c.1 then tiny else c.1
      let m := f32Div e p
      eliminate x tiny t (bs.drop 1) r.e (f32Sub d (f32Mul m c.2.1), s, f32Sub b (f32Mul m c.2.2)) ((p, c.2.1, 0, c.2.2) :: out)

/-- Back substitution over the rows, last first; the solution so far stands first. -/
def backSubst : List ElimRow → List Nat → List Nat
  | [], y => y
  | r :: t, y =>
    let v := f32Sub (f32Sub r.2.2.2 (f32Mul r.2.1 (y.getD 0 0))) (f32Mul r.2.2.1 (y.getD 1 0))
    backSubst t (f32Div v r.1 :: y)

/-- The solution of (T − x) y = b. -/
def triSolve (t : List TriRow) (x tiny : Nat) (b : List Nat) : List Nat :=
  match t with
  | [] => []
  | r :: rest => backSubst (eliminate x tiny rest (b.drop 1) r.e (f32Sub r.d x, (if rest.isEmpty then 0 else r.e), b.headD 0) []) []

/-- Inverse iteration, at most the given sweeps, each kept orthogonal to the vectors found before; it ends once two sweeps agree to 2⁻²⁰. -/
def inverseIterate (t : List TriRow) (x tiny : Nat) (before : List (List Nat)) : Nat → List Nat → List Nat
  | 0, v => v
  | f + 1, v =>
    let y := f32Unit (before.foldl (fun y w => f32Axpy (f32Neg (f32Dot w y)) y w) (triSolve t x tiny v))
    if f32Lt 0x3F7FFFF0 ((f32Dot y v) % 2147483648) then y else inverseIterate t x tiny before f y

/-- A vector of the tridiagonal form's coordinates back in the matrix's own. -/
def backTransform : List TriRow → List Nat → List Nat
  | [], _ => []
  | r :: t, z => z.headD 0 :: reflect r.u (backTransform t (z.drop 1))

/-- The start vector of the j-th inverse iteration: unlike for unlike j, so that equal eigenvalues give different vectors. -/
def startVector (n j : Nat) : List Nat := f32Unit ((List.range n).map (fun i => f32Nat ((7 * i + 5 * j + i * j) % 11 + 1)))

/-- The eigenpairs of the largest eigenvalues of a symmetric matrix, largest first: unit eigenvector and eigenvalue (R153). -/
def eigenPairs (m : List (List Nat)) (count : Nat) : List (List Nat × Nat) :=
  let t := tridiagonal m.length m
  let norm := triNorm t 0
  let tiny := tinyPivot norm
  let n := t.length
  let r := (List.range (min count n)).foldl (fun (acc : List (List Nat) × List (List Nat × Nat)) j =>
    let x := bisect t tiny (n - 1 - j) 64 (f32Neg norm) norm
    let z := inverseIterate t x tiny acc.1 8 (startVector n j)
    (acc.1 ++ [z], acc.2 ++ [(backTransform t z, x)])) ([], [])
  r.2

end Sys2Proof.Machine
end

