-- ==== Sys2Proof/Machine/Crypto.lean ====
section
/-! DEFINITION. The cryptography of the standards that the spec names: AES (FIPS 197), GCM and GMAC (SP 800-38D), CCM* (SP 800-38C),
AES-KW (SP 800-38F), SHA-256 (FIPS 180-4), HMAC and HKDF (RFC 5869), ECDSA P-256 verification (FIPS 186). -/

namespace Sys2Proof.Machine

/-- Byte-wise XOR. -/
def xorBytes (a c : List Byte) : List Byte := List.zipWith (· ^^^ ·) a c

/-! ### AES -/

def gfDouble (a : Byte) : Byte := (a <<< 1) ^^^ (if a.getLsbD 7 then 0x1B#8 else 0#8)

/-- The product of two bytes in the field of AES. -/
def gfMul (a c : Byte) : Byte :=
  ((List.range 8).foldl (fun (p : Byte × Byte) i => (if c.getLsbD i then p.1 ^^^ p.2 else p.1, gfDouble p.2)) (0#8, a)).1

/-- The inverse of a byte, its 254th power. -/
def gfInv (a : Byte) : Byte :=
  ((List.range 7).foldl (fun (p : Byte × Byte) _ => let sq := gfMul p.2 p.2; (gfMul p.1 sq, sq)) (1#8, a)).1

def aesSubOf (a : Byte) : Byte :=
  let v := gfInv a
  v ^^^ v.rotateLeft 1 ^^^ v.rotateLeft 2 ^^^ v.rotateLeft 3 ^^^ v.rotateLeft 4 ^^^ 0x63#8

/-- The S-box and its inverse. -/
def aesTable : List Byte := (List.range 256).map (fun i => aesSubOf (BitVec.ofNat 8 i))
def aesBack : List Byte := (List.range 256).map (fun i => BitVec.ofNat 8 (aesTable.idxOf (BitVec.ofNat 8 i)))

def aesSub (a : Byte) : Byte := aesTable.getD a.toNat 0

/-- The words of the key schedule, newest first, from those of the key. -/
def aesWords (nk : Nat) : Nat → Nat → List (List Byte) → List (List Byte)
  | 0, _, ws => ws
  | n + 1, i, ws =>
    let last := ws.headD []
    let t :=
      if i % nk = 0 then
        let r := ((last.drop 1) ++ (last.take 1)).map aesSub
        let rcon := (List.range (i / nk - 1)).foldl (fun a _ => gfDouble a) 1#8
        (r.headD 0 ^^^ rcon) :: r.drop 1
      else if 6 < nk ∧ i % nk = 4 then last.map aesSub
      else last
    aesWords nk n (i + 1) (xorBytes (ws.getD (nk - 1) []) t :: ws)

/-- The round keys of a key of 16 or 32 bytes, first to last. -/
def aesKeys (key : List Byte) : List (List Byte) :=
  let nk := key.length / 4
  let ws := (aesWords nk (3 * nk + 28) nk ((List.range nk).map (fun i => (key.drop (4 * i)).take 4)).reverse).reverse
  (List.range (nk + 7)).map (fun r => ((ws.drop (4 * r)).take 4).flatten)

/-- The rows of a state shifted left by a multiple of their number: 1 for encryption, 3 for its inverse. -/
def aesShift (m : Nat) (s : List Byte) : List Byte := (List.range 16).map (fun i => s.getD ((i + 4 * (m * (i % 4))) % 16) 0)

/-- The columns of a state multiplied by a circulant matrix. -/
def aesMix (m : List Byte) (s : List Byte) : List Byte :=
  (List.range 16).map (fun i =>
    (List.range 4).foldl (fun a j => a ^^^ gfMul (m.getD ((j + 4 - i % 4) % 4) 0) (s.getD (4 * (i / 4) + j) 0)) 0)

/-- A block encrypted under round keys. -/
def aesRounds : List (List Byte) → List Byte → List Byte
  | [], s => s
  | [k], s => xorBytes (aesShift 1 (s.map aesSub)) k
  | k :: r, s => aesRounds r (xorBytes (aesMix [2, 3, 1, 1] (aesShift 1 (s.map aesSub))) k)

def aesEncrypt (keys : List (List Byte)) (s : List Byte) : List Byte := aesRounds (keys.drop 1) (xorBytes s (keys.headD []))

/-- A block decrypted under round keys, last to first. -/
def aesUnrounds : List (List Byte) → List Byte → List Byte
  | [], s => s
  | k :: r, s =>
    let s := xorBytes ((aesShift 3 s).map (fun x => aesBack.getD x.toNat 0)) k
    aesUnrounds r (if r = [] then s else aesMix [14, 11, 13, 9] s)

def aesDecrypt (keys : List (List Byte)) (s : List Byte) : List Byte :=
  let ks := keys.reverse
  aesUnrounds (ks.drop 1) (xorBytes s (ks.headD []))

/-! ### GCM and GMAC -/

/-- The product of two blocks in the field of GCM, whose first bit is the coefficient of 1. -/
def ghashMul (x y : BitVec 128) : BitVec 128 :=
  ((List.range 128).foldl (fun (p : BitVec 128 × BitVec 128) i =>
    (if x.getMsbD i then p.1 ^^^ p.2 else p.1, (p.2 >>> 1) ^^^ (if p.2.getLsbD 0 then 0xE1#128 <<< 120 else 0#128))) (0#128, y)).1

/-- Bytes cut into blocks of 16, the last one filled with zeros. -/
def blocks16 : Nat → List Byte → List (List Byte)
  | 0, _ => []
  | n + 1, bs => if bs = [] then [] else slice bs 0 16 :: blocks16 n (bs.drop 16)

def inBlocks (bs : List Byte) : List (List Byte) := blocks16 bs.length bs

def ghash (h : BitVec 128) (bs : List (List Byte)) : BitVec 128 :=
  bs.foldl (fun y x => ghashMul (y ^^^ BitVec.ofNat 128 (beNat x)) h) 0

/-- The hash of additional data and ciphertext with their lengths. -/
def gcmHash (h : BitVec 128) (aad ct : List Byte) : BitVec 128 :=
  ghash h (inBlocks aad ++ inBlocks ct ++ [beBytes 8 (8 * aad.length) ++ beBytes 8 (8 * ct.length)])

/-- The first counter block of an IV. -/
def gcmStart (h : BitVec 128) (iv : List Byte) : Nat := if iv.length = 12 then beNat iv * 2 ^ 32 + 1 else (gcmHash h [] iv).toNat

/-- The block so many counts after a counter block; the count wraps in the last four bytes. -/
def gcmCount (j n : Nat) : List Byte := beBytes 16 (j / 2 ^ 32 * 2 ^ 32 + (j + n) % 2 ^ 32)

/-- Bytes combined with a key stream of the given blocks. -/
def streamXor (keys : List (List Byte)) (ctr : Nat → List Byte) : Nat → Nat → List Byte → List Byte
  | 0, _, _ => []
  | n + 1, i, bs => if bs = [] then [] else xorBytes (bs.take 16) (aesEncrypt keys (ctr i)) ++ streamXor keys ctr n (i + 1) (bs.drop 16)

/-- AES-GCM: the text of a ciphertext or the reverse. -/
def gcmCrypt (key iv bs : List Byte) : List Byte :=
  let keys := aesKeys key
  let h := BitVec.ofNat 128 (beNat (aesEncrypt keys (List.replicate 16 0)))
  streamXor keys (gcmCount (gcmStart h iv)) bs.length 1 bs

/-- The 16 bytes of the tag over additional data and ciphertext. -/
def gcmTag (key iv aad ct : List Byte) : List Byte :=
  let keys := aesKeys key
  let h := BitVec.ofNat 128 (beNat (aesEncrypt keys (List.replicate 16 0)))
  xorBytes (beBytes 16 (gcmHash h aad ct).toNat) (aesEncrypt keys (gcmCount (gcmStart h iv) 0))

/-- AES-GMAC, the tag over data alone. -/
def gmac (key iv data : List Byte) : List Byte := gcmTag key iv data []

/-! ### CCM* -/

/-- CCM*: the text of a ciphertext or the reverse; the counter blocks of a 14-byte nonce are open (log entry 87). -/
def ccmCrypt (key nonce bs : List Byte) : List Byte :=
  streamXor (aesKeys key) (fun i => slice (Config.ccmBlock nonce none i) 0 16) bs.length 1 bs

/-- The message integrity code of n bytes over additional data and text. -/
def ccmTag (key nonce aad text : List Byte) (n : Nat) : List Byte :=
  let keys := aesKeys key
  let a := if aad = [] then [] else inBlocks (beBytes 2 aad.length ++ aad)
  let first := slice (Config.ccmBlock nonce (some (n, !aad.isEmpty)) text.length) 0 16
  let mac := (first :: a ++ inBlocks text).foldl (fun y x => aesEncrypt keys (xorBytes y x)) (List.replicate 16 0)
  (xorBytes mac (aesEncrypt keys (slice (Config.ccmBlock nonce none 0) 0 16))).take n

/-! ### AES-KW -/

/-- One of the steps of unwrapping, from the last: the integrity value and the semiblocks. -/
def kwSteps (keys : List (List Byte)) (n : Nat) : Nat → List Byte × List (List Byte) → List Byte × List (List Byte)
  | 0, p => p
  | t + 1, (a, rs) =>
    let i := t % n
    let d := aesDecrypt keys (xorBytes a (beBytes 8 (t + 1)) ++ rs.getD i [])
    kwSteps keys n t (d.take 8, rs.set i (d.drop 8))

/-- AES-KW unwrapping: the key data, none where the integrity check fails. -/
def kwUnwrap (key ct : List Byte) : Option (List Byte) :=
  let n := ct.length / 8 - 1
  let rs := (List.range n).map (fun i => (ct.drop (8 * (i + 1))).take 8)
  let (a, rs) := kwSteps (aesKeys key) n (6 * n) (ct.take 8, rs)
  if a = List.replicate 8 0xA6 then some rs.flatten else none

/-! ### SHA-256, HMAC, HKDF -/

/-- The integer part of a root scaled by 2³², the largest r with r^k ≤ p · 2^(32 k), found bit by bit. -/
def scaledRoot (k p : Nat) : Nat :=
  (List.range 36).foldl (fun r i => let c := r + 2 ^ (35 - i); if c ^ k ≤ p * 2 ^ (32 * k) then c else r) 0

def firstPrimes (n : Nat) : List Nat := ((List.range 312).filter (fun p => 2 ≤ p ∧ (List.range p).all (fun d => d < 2 || p % d != 0))).take n

/-- The constants: the first 32 bits of the fractional parts of the square roots and the cube roots of the first primes. -/
def shaStart : List (BitVec 32) := (firstPrimes 8).map (fun p => BitVec.ofNat 32 (scaledRoot 2 p))
def shaKeys : List (BitVec 32) := (firstPrimes 64).map (fun p => BitVec.ofNat 32 (scaledRoot 3 p))

/-- The message schedule, newest first. -/
def shaWords : Nat → List (BitVec 32) → List (BitVec 32)
  | 0, ws => ws
  | n + 1, ws =>
    let x := ws.getD 14 0
    let y := ws.getD 1 0
    let s0 := x.rotateRight 7 ^^^ x.rotateRight 18 ^^^ (x >>> 3)
    let s1 := y.rotateRight 17 ^^^ y.rotateRight 19 ^^^ (y >>> 10)
    shaWords n ((ws.getD 15 0 + s0 + ws.getD 6 0 + s1) :: ws)

/-- One round on the eight working words, with its constant plus its word of the schedule. -/
def shaRound (v : List (BitVec 32)) (kw : BitVec 32) : List (BitVec 32) :=
  let a := v.getD 0 0
  let e := v.getD 4 0
  let ch := (e &&& v.getD 5 0) ^^^ (~~~e &&& v.getD 6 0)
  let maj := (a &&& v.getD 1 0) ^^^ (a &&& v.getD 2 0) ^^^ (v.getD 1 0 &&& v.getD 2 0)
  let t1 := v.getD 7 0 + (e.rotateRight 6 ^^^ e.rotateRight 11 ^^^ e.rotateRight 25) + ch + kw
  let t2 := (a.rotateRight 2 ^^^ a.rotateRight 13 ^^^ a.rotateRight 22) + maj
  [t1 + t2, a, v.getD 1 0, v.getD 2 0, v.getD 3 0 + t1, e, v.getD 5 0, v.getD 6 0]

/-- One block of 64 bytes. -/
def shaBlock (h : List (BitVec 32)) (bs : List Byte) : List (BitVec 32) :=
  let w := (shaWords 48 ((List.range 16).map (fun i => BitVec.ofNat 32 (beAt bs (4 * i) 4))).reverse).reverse
  List.zipWith (· + ·) h ((List.zipWith (· + ·) shaKeys w).foldl shaRound h)

def shaFrom : Nat → List (BitVec 32) → List Byte → List (BitVec 32)
  | 0, h, _ => h
  | n + 1, h, bs => if bs = [] then h else shaFrom n (shaBlock h (bs.take 64)) (bs.drop 64)

def sha256 (bs : List Byte) : List Byte :=
  let n := bs.length
  let padded := bs ++ [0x80] ++ List.replicate ((119 - n % 64) % 64) 0 ++ beBytes 8 (8 * n)
  (shaFrom (n / 64 + 2) shaStart padded).flatMap (fun w => beBytes 4 w.toNat)

def hmac (key bs : List Byte) : List Byte :=
  let k := slice (if 64 < key.length then sha256 key else key) 0 64
  sha256 (k.map (· ^^^ 0x5C#8) ++ sha256 (k.map (· ^^^ 0x36#8) ++ bs))

/-- HKDF-SHA256 of at most 32 bytes: extraction with the salt, 32 zeros where it is empty, and one block of expansion. -/
def hkdf (ikm salt info : List Byte) (n : Nat) : List Byte :=
  (hmac (hmac (if salt = [] then List.replicate 32 0 else salt) ikm) (info ++ [1])).take n

/-! ### ECDSA P-256 -/

def p256 : Nat := 0xFFFFFFFF00000001000000000000000000000000FFFFFFFFFFFFFFFFFFFFFFFF
def p256Order : Nat := 0xFFFFFFFF00000000FFFFFFFFFFFFFFFFBCE6FAADA7179E84F3B9CAC2FC632551
def p256B : Nat := 0x5AC635D8AA3A93E7B3EBBD55769886BC651D06B0CC53B0F63BCE3C3E27D2604B
def p256G : Nat × Nat :=
  (0x6B17D1F2E12C4247F8BCE6E563A440F277037D812DEB33A0F4A13945D898C296,
   0x4FE342E2FE1A7F9B8EE7EB4A7C0F9E162BCE33576B315ECECBB6406837BF51F5)

/-- A power modulo m, by the bits of an exponent of at most n bits. -/
def powMod (m x : Nat) : Nat → Nat → Nat
  | 0, _ => 1 % m
  | n + 1, e => let h := powMod m (x * x % m) n (e / 2); if e % 2 = 1 then x * h % m else h

def invMod (m x : Nat) : Nat := powMod m x 256 (m - 2)

/-- Sums on the curve y² = x³ − 3x + b in projective coordinates of weights 2 and 3; z = 0 is the point at infinity. -/
def ecDouble (a : Nat × Nat × Nat) : Nat × Nat × Nat :=
  let (x, y, z) := a
  let yy := y * y % p256
  let s := 4 * x * yy % p256
  let z2 := z * z % p256
  let m := 3 * (x + p256 - z2) * (x + z2) % p256
  let x' := (m * m + 2 * (p256 - s)) % p256
  (x', (m * (s + p256 - x') + (p256 - 8 * (yy * yy % p256) % p256)) % p256, 2 * y * z % p256)

def ecAdd (a c : Nat × Nat × Nat) : Nat × Nat × Nat :=
  let (x1, y1, z1) := a
  let (x2, y2, z2) := c
  if z1 = 0 then c
  else if z2 = 0 then a
  else
    let z11 := z1 * z1 % p256
    let z22 := z2 * z2 % p256
    let u1 := x1 * z22 % p256
    let u2 := x2 * z11 % p256
    let s1 := y1 * z22 * z2 % p256
    let s2 := y2 * z11 * z1 % p256
    if u1 = u2 then (if s1 = s2 then ecDouble a else (1, 1, 0))
    else
      let h := (u2 + p256 - u1) % p256
      let r := (s2 + p256 - s1) % p256
      let hh := h * h % p256
      let hhh := h * hh % p256
      let v := u1 * hh % p256
      let x3 := (r * r + (p256 - hhh) + 2 * (p256 - v)) % p256
      (x3, (r * (v + p256 - x3) + (p256 - s1 * hhh % p256)) % p256, z1 * z2 % p256 * h % p256)

/-- A multiple of a point, by the bits of a factor of at most n bits. -/
def ecMul (a : Nat × Nat × Nat) : Nat → Nat → Nat × Nat × Nat
  | 0, _ => (1, 1, 0)
  | n + 1, e => let h := ecDouble (ecMul a n (e / 2)); if e % 2 = 1 then ecAdd h a else h

/-- Verification of a signature r ‖ s over SHA-256 of a message with a public key X ‖ Y, each number of 32 bytes in network order. -/
def ecdsaOk (pk msg sig : List Byte) : Bool :=
  let x := beAt pk 0 32
  let y := beAt pk 32 32
  let r := beAt sig 0 32
  let s := beAt sig 32 32
  let onCurve := decide (x < p256 ∧ y < p256 ∧ y * y % p256 = (x * x * x + 3 * (p256 - x) + p256B) % p256)
  if onCurve = false ∨ r = 0 ∨ s = 0 ∨ p256Order ≤ r ∨ p256Order ≤ s then false
  else
    let w := invMod p256Order s
    let u1 := beNat (sha256 msg) * w % p256Order
    let u2 := r * w % p256Order
    let (px, _, pz) := ecAdd (ecMul (p256G.1, p256G.2, 1) 256 u1) (ecMul (x, y, 1) 256 u2)
    let zi := invMod p256 pz
    pz != 0 && px * (zi * zi % p256) % p256 % p256Order == r

end Sys2Proof.Machine
end

