-- ==== Sys2Proof/Machine/RegTypes.lean ====
section
/-! DEFINITION. The form in which the register tables of the spec are held: access codes (Table 0.5), fields, registers. -/

namespace Sys2Proof.Machine

/-- The access codes of Table 0.5; bits that no field names are RES0. -/
inductive Access where
  | rw | ro | wo | w1c | w1t | rc | rws | lck
  deriving DecidableEq, Repr

/-- One field of a register: bits [hi:lo], its access code, the encodings a write may carry
(empty: all of them; R7 leaves the field unchanged on any other), and the range that a hand-over holds a committed value
to (empty: any). -/
structure FieldDesc where
  name : String
  hi : Nat
  lo : Nat
  acc : Access
  legal : List (Nat × Nat)
  range : List (Nat × Nat)
  deriving DecidableEq, Repr

/-- One row of a register table: the block by its index in Table 19.2, the instance spaces its window serves
(15: block-global), its offset, how many registers the row names and how far apart, banking (R450), reset values
(by position in the row or by instance where the table gives them so), and where its SAT flag stands (R8). -/
structure RegDesc where
  name : String
  blk : Nat
  spaces : List Nat
  off : Nat
  n : Nat := 1
  stride : Nat := 4
  banked : Bool := false
  reset : Word := 0
  resetK : List (Nat × Word) := []
  resetI : List (Nat × Word) := []
  w64 : Bool := false
  sat : Option (Nat × Nat) := none
  fields : List FieldDesc
  deriving DecidableEq, Repr

end Sys2Proof.Machine
end

