-- ==== Sys2Proof/Machine/RegMapA.lean ====
section
/-! DEFINITION. The register maps of SYS, TIM, PRT, STR, one descriptor per register, from the register tables of the spec. -/

namespace Sys2Proof.Machine

/-- SYS.IRQ_STATUS, Table 19.4. -/
def Reg.SYS_IRQ_STATUS : RegDesc where
  name := "SYS.IRQ_STATUS"
  blk := 0
  spaces := [15]
  off := 0x0400
  fields := [⟨"BUS_TIMEOUT", 2, 2, .w1c, [], []⟩,
    ⟨"QSPI_DONE", 1, 1, .w1c, [], []⟩,
    ⟨"MODE_CHANGE", 0, 0, .w1c, [], []⟩]

/-- SYS.IRQ_ENABLE, Table 19.4. -/
def Reg.SYS_IRQ_ENABLE : RegDesc where
  name := "SYS.IRQ_ENABLE"
  blk := 0
  spaces := [15]
  off := 0x0404
  fields := [⟨"BUS_TIMEOUT", 2, 2, .rw, [], []⟩,
    ⟨"QSPI_DONE", 1, 1, .rw, [], []⟩,
    ⟨"MODE_CHANGE", 0, 0, .rw, [], []⟩]

/-- SYS.ID, Table 19.4. -/
def Reg.SYS_ID : RegDesc where
  name := "SYS.ID"
  blk := 0
  spaces := [15]
  off := 0x0408
  fields := [⟨"PART", 31, 16, .ro, [], []⟩,
    ⟨"VARIANT", 15, 8, .ro, [], []⟩,
    ⟨"DIE_REV", 7, 0, .ro, [], []⟩]

/-- SYS.STATUS, Table 19.4. -/
def Reg.SYS_STATUS : RegDesc where
  name := "SYS.STATUS"
  blk := 0
  spaces := [15]
  off := 0x040C
  fields := [⟨"ZEROISED", 31, 31, .ro, [], []⟩,
    ⟨"PAIRED", 30, 30, .ro, [], []⟩,
    ⟨"CASCADE", 29, 29, .ro, [], []⟩,
    ⟨"TRIAL", 28, 28, .ro, [], []⟩,
    ⟨"HOST_RESET", 27, 27, .w1c, [], []⟩]

/-- SYS.MODE, Table 19.4. -/
def Reg.SYS_MODE : RegDesc where
  name := "SYS.MODE"
  blk := 0
  spaces := [15]
  off := 0x0410
  fields := [⟨"T", 3, 0, .ro, [], []⟩]

/-- SYS.MODE_REQ, Table 19.4. -/
def Reg.SYS_MODE_REQ : RegDesc where
  name := "SYS.MODE_REQ"
  blk := 0
  spaces := [15]
  off := 0x0414
  fields := [⟨"FORCE", 31, 31, .wo, [], []⟩,
    ⟨"MODE", 3, 0, .wo, [], []⟩]

/-- SYS.DEGRADE_CAUSE, Table 19.4. -/
def Reg.SYS_DEGRADE_CAUSE : RegDesc where
  name := "SYS.DEGRADE_CAUSE"
  blk := 0
  spaces := [15]
  off := 0x0418
  fields := [⟨"T", 2, 0, .ro, [], []⟩]

/-- SYS.HALT_CAUSE, Table 19.4. -/
def Reg.SYS_HALT_CAUSE : RegDesc where
  name := "SYS.HALT_CAUSE"
  blk := 0
  spaces := [15]
  off := 0x041C
  fields := [⟨"T", 2, 0, .ro, [], []⟩]

/-- SYS.SELFTEST_RESULT, Table 19.4. -/
def Reg.SYS_SELFTEST_RESULT : RegDesc where
  name := "SYS.SELFTEST_RESULT"
  blk := 0
  spaces := [15]
  off := 0x0420
  fields := [⟨"FATAL", 31, 31, .ro, [], []⟩,
    ⟨"CRYPTO", 30, 30, .ro, [], []⟩,
    ⟨"SRAM", 29, 29, .ro, [], []⟩,
    ⟨"DRAM", 28, 28, .ro, [], []⟩,
    ⟨"HOST", 27, 27, .ro, [], []⟩,
    ⟨"ACCEL", 26, 26, .ro, [], []⟩,
    ⟨"DMA", 25, 25, .ro, [], []⟩,
    ⟨"FABRIC", 24, 24, .ro, [], []⟩]

/-- SYS.LOAD_RESULT, Table 19.4. -/
def Reg.SYS_LOAD_RESULT : RegDesc where
  name := "SYS.LOAD_RESULT"
  blk := 0
  spaces := [15]
  off := 0x0424
  fields := [⟨"BANK", 31, 31, .ro, [], []⟩,
    ⟨"LOADED", 30, 30, .ro, [], []⟩,
    ⟨"F", 15, 8, .ro, [], []⟩,
    ⟨"F", 7, 0, .ro, [], []⟩]

/-- SYS.TUNE_ADDR_LO, Table 19.4. -/
def Reg.SYS_TUNE_ADDR_LO : RegDesc where
  name := "SYS.TUNE_ADDR_LO"
  blk := 0
  spaces := [15]
  off := 0x0428
  banked := true
  fields := [⟨"V", 31, 0, .rw, [], []⟩]

/-- SYS.TUNE_ADDR_HI, Table 19.4. -/
def Reg.SYS_TUNE_ADDR_HI : RegDesc where
  name := "SYS.TUNE_ADDR_HI"
  blk := 0
  spaces := [15]
  off := 0x042C
  banked := true
  fields := [⟨"V", 31, 0, .rw, [], []⟩]

/-- SYS.TUNE_GO, Table 19.4. -/
def Reg.SYS_TUNE_GO : RegDesc where
  name := "SYS.TUNE_GO"
  blk := 0
  spaces := [15]
  off := 0x0430
  fields := [⟨"GO", 0, 0, .wo, [], []⟩]

/-- SYS.TUNE_STATUS, Table 19.4. -/
def Reg.SYS_TUNE_STATUS : RegDesc where
  name := "SYS.TUNE_STATUS"
  blk := 0
  spaces := [15]
  off := 0x0434
  fields := [⟨"BUSY", 31, 31, .ro, [], []⟩,
    ⟨"RESULT", 3, 0, .ro, [], []⟩]

/-- SYS.TUNE_COUNTER_LO, Table 19.4. -/
def Reg.SYS_TUNE_COUNTER_LO : RegDesc where
  name := "SYS.TUNE_COUNTER_LO"
  blk := 0
  spaces := [15]
  off := 0x0438
  fields := [⟨"V", 31, 0, .ro, [], []⟩]

/-- SYS.TUNE_COUNTER_HI, Table 19.4. -/
def Reg.SYS_TUNE_COUNTER_HI : RegDesc where
  name := "SYS.TUNE_COUNTER_HI"
  blk := 0
  spaces := [15]
  off := 0x043C
  fields := [⟨"V", 31, 0, .ro, [], []⟩]

/-- SYS.CFG, Table 19.4. -/
def Reg.SYS_CFG : RegDesc where
  name := "SYS.CFG"
  blk := 0
  spaces := [15]
  off := 0x0440
  fields := [⟨"TUNE_ONLY", 0, 0, .lck, [], []⟩]

/-- SYS.IMG_STATUS, Table 19.4. -/
def Reg.SYS_IMG_STATUS : RegDesc where
  name := "SYS.IMG_STATUS"
  blk := 0
  spaces := [15]
  off := 0x0444
  fields := [⟨"BANK", 31, 31, .ro, [], []⟩,
    ⟨"TRIAL", 30, 30, .ro, [], []⟩,
    ⟨"BUSY", 29, 29, .ro, [], []⟩,
    ⟨"RESULT", 3, 0, .ro, [], []⟩]

/-- SYS.IMG_CMD, Table 19.4. -/
def Reg.SYS_IMG_CMD : RegDesc where
  name := "SYS.IMG_CMD"
  blk := 0
  spaces := [15]
  off := 0x0448
  fields := [⟨"SWITCH", 1, 1, .wo, [], []⟩,
    ⟨"VERIFY", 0, 0, .wo, [], []⟩]

/-- SYS.BUS_TIMEOUT, Table 19.4. -/
def Reg.SYS_BUS_TIMEOUT : RegDesc where
  name := "SYS.BUS_TIMEOUT"
  blk := 0
  spaces := [15]
  off := 0x044C
  reset := 0x00000064
  fields := [⟨"V", 13, 0, .rw, [(10, 10000)], []⟩]

/-- SYS.WDOG_CFG, Table 19.4. -/
def Reg.SYS_WDOG_CFG : RegDesc where
  name := "SYS.WDOG_CFG"
  blk := 0
  spaces := [15]
  off := 0x0450
  reset := 0x000003E8
  fields := [⟨"V", 15, 0, .rw, [(10, 60000)], []⟩]

/-- SYS.WDOG_KICK, Table 19.4. -/
def Reg.SYS_WDOG_KICK : RegDesc where
  name := "SYS.WDOG_KICK"
  blk := 0
  spaces := [15]
  off := 0x0454
  fields := [⟨"V", 31, 0, .wo, [], []⟩]

/-- SYS.RESET_REQ, Table 19.4. -/
def Reg.SYS_RESET_REQ : RegDesc where
  name := "SYS.RESET_REQ"
  blk := 0
  spaces := [15]
  off := 0x0458
  fields := [⟨"DIE", 1, 1, .wo, [], []⟩,
    ⟨"HOST", 0, 0, .wo, [], []⟩]

/-- SYS.STRAPS, Table 19.4. -/
def Reg.SYS_STRAPS : RegDesc where
  name := "SYS.STRAPS"
  blk := 0
  spaces := [15]
  off := 0x045C
  fields := [⟨"V", 2, 0, .ro, [], []⟩]

/-- SYS.MTIME_LO, Table 19.4. -/
def Reg.SYS_MTIME_LO : RegDesc where
  name := "SYS.MTIME_LO"
  blk := 0
  spaces := [15]
  off := 0x0460
  fields := [⟨"V", 31, 0, .ro, [], []⟩]

/-- SYS.MTIME_HI, Table 19.4. -/
def Reg.SYS_MTIME_HI : RegDesc where
  name := "SYS.MTIME_HI"
  blk := 0
  spaces := [15]
  off := 0x0464
  fields := [⟨"V", 31, 0, .ro, [], []⟩]

/-- SYS.MTIMECMP, Table 19.4. -/
def Reg.SYS_MTIMECMP : RegDesc where
  name := "SYS.MTIMECMP"
  blk := 0
  spaces := [15]
  off := 0x0468
  n := 8
  fields := [⟨"V", 31, 0, .rw, [], []⟩]

/-- SYS.MSIP, Table 19.4. -/
def Reg.SYS_MSIP : RegDesc where
  name := "SYS.MSIP"
  blk := 0
  spaces := [15]
  off := 0x0488
  fields := [⟨"V", 3, 0, .rw, [], []⟩]

/-- SYS.QSPI_ADDR, Table 19.4. -/
def Reg.SYS_QSPI_ADDR : RegDesc where
  name := "SYS.QSPI_ADDR"
  blk := 0
  spaces := [15]
  off := 0x0490
  fields := [⟨"V", 26, 0, .rw, [], []⟩]

/-- SYS.QSPI_SRC_LO, Table 19.4. -/
def Reg.SYS_QSPI_SRC_LO : RegDesc where
  name := "SYS.QSPI_SRC_LO"
  blk := 0
  spaces := [15]
  off := 0x0494
  fields := [⟨"V", 31, 0, .rw, [], []⟩]

/-- SYS.QSPI_SRC_HI, Table 19.4. -/
def Reg.SYS_QSPI_SRC_HI : RegDesc where
  name := "SYS.QSPI_SRC_HI"
  blk := 0
  spaces := [15]
  off := 0x0498
  fields := [⟨"V", 31, 0, .rw, [], []⟩]

/-- SYS.QSPI_CMD, Table 19.4. -/
def Reg.SYS_QSPI_CMD : RegDesc where
  name := "SYS.QSPI_CMD"
  blk := 0
  spaces := [15]
  off := 0x049C
  fields := [⟨"V", 1, 0, .wo, [], []⟩]

/-- SYS.QSPI_STATUS, Table 19.4. -/
def Reg.SYS_QSPI_STATUS : RegDesc where
  name := "SYS.QSPI_STATUS"
  blk := 0
  spaces := [15]
  off := 0x04A0
  fields := [⟨"BUSY", 31, 31, .ro, [], []⟩,
    ⟨"RESULT", 3, 0, .ro, [], []⟩]

/-- SYS.MODE_REQ_REFUSED, Table 19.4. -/
def Reg.SYS_MODE_REQ_REFUSED : RegDesc where
  name := "SYS.MODE_REQ_REFUSED"
  blk := 0
  spaces := [15]
  off := 0x0500
  sat := some (0x0514, 0)
  fields := [⟨"V", 31, 0, .rc, [], []⟩]

/-- SYS.COMMIT_REFUSED, Table 19.4. -/
def Reg.SYS_COMMIT_REFUSED : RegDesc where
  name := "SYS.COMMIT_REFUSED"
  blk := 0
  spaces := [15]
  off := 0x0504
  sat := some (0x0514, 1)
  fields := [⟨"V", 31, 0, .rc, [], []⟩]

/-- SYS.BUS_TIMEOUTS, Table 19.4. -/
def Reg.SYS_BUS_TIMEOUTS : RegDesc where
  name := "SYS.BUS_TIMEOUTS"
  blk := 0
  spaces := [15]
  off := 0x0508
  sat := some (0x0514, 2)
  fields := [⟨"V", 31, 0, .rc, [], []⟩]

/-- SYS.HOST_RESETS, Table 19.4. -/
def Reg.SYS_HOST_RESETS : RegDesc where
  name := "SYS.HOST_RESETS"
  blk := 0
  spaces := [15]
  off := 0x050C
  sat := some (0x0514, 3)
  fields := [⟨"V", 31, 0, .rc, [], []⟩]

/-- SYS.QSPI_REFUSED, Table 19.4. -/
def Reg.SYS_QSPI_REFUSED : RegDesc where
  name := "SYS.QSPI_REFUSED"
  blk := 0
  spaces := [15]
  off := 0x0510
  sat := some (0x0514, 4)
  fields := [⟨"V", 31, 0, .rc, [], []⟩]

/-- SYS.G_CNT_SAT, Table 19.4. -/
def Reg.SYS_G_CNT_SAT : RegDesc where
  name := "SYS.G_CNT_SAT"
  blk := 0
  spaces := [15]
  off := 0x0514
  fields := [⟨"SAT", 4, 0, .w1c, [], []⟩]

/-- The registers of SYS (Table 19.4 and the field tables of its chapter). -/
def Reg.tableSYS : List RegDesc :=
  [Reg.SYS_IRQ_STATUS, Reg.SYS_IRQ_ENABLE, Reg.SYS_ID, Reg.SYS_STATUS,
   Reg.SYS_MODE, Reg.SYS_MODE_REQ, Reg.SYS_DEGRADE_CAUSE, Reg.SYS_HALT_CAUSE,
   Reg.SYS_SELFTEST_RESULT, Reg.SYS_LOAD_RESULT, Reg.SYS_TUNE_ADDR_LO, Reg.SYS_TUNE_ADDR_HI,
   Reg.SYS_TUNE_GO, Reg.SYS_TUNE_STATUS, Reg.SYS_TUNE_COUNTER_LO, Reg.SYS_TUNE_COUNTER_HI,
   Reg.SYS_CFG, Reg.SYS_IMG_STATUS, Reg.SYS_IMG_CMD, Reg.SYS_BUS_TIMEOUT] ++
  [Reg.SYS_WDOG_CFG, Reg.SYS_WDOG_KICK, Reg.SYS_RESET_REQ, Reg.SYS_STRAPS,
   Reg.SYS_MTIME_LO, Reg.SYS_MTIME_HI, Reg.SYS_MTIMECMP, Reg.SYS_MSIP,
   Reg.SYS_QSPI_ADDR, Reg.SYS_QSPI_SRC_LO, Reg.SYS_QSPI_SRC_HI, Reg.SYS_QSPI_CMD,
   Reg.SYS_QSPI_STATUS, Reg.SYS_MODE_REQ_REFUSED, Reg.SYS_COMMIT_REFUSED, Reg.SYS_BUS_TIMEOUTS,
   Reg.SYS_HOST_RESETS, Reg.SYS_QSPI_REFUSED, Reg.SYS_G_CNT_SAT]

/-- TIM.SEL, Table 9.7. -/
def Reg.TIM_SEL : RegDesc where
  name := "TIM.SEL"
  blk := 1
  spaces := [15]
  off := 0x0000
  banked := true
  fields := [⟨"AINC", 31, 31, .rw, [], []⟩,
    ⟨"SPACE", 30, 29, .rw, [(0, 2)], []⟩,
    ⟨"INDEX", 4, 0, .rw, [], []⟩]

/-- TIM.IRQ_STATUS, Table 9.7. -/
def Reg.TIM_IRQ_STATUS : RegDesc where
  name := "TIM.IRQ_STATUS"
  blk := 1
  spaces := [15]
  off := 0x0400
  fields := [⟨"SRC_LOSS", 9, 9, .w1c, [], []⟩,
    ⟨"SET_REJECT", 8, 8, .w1c, [], []⟩,
    ⟨"LEAP_MISMATCH", 7, 7, .w1c, [], []⟩,
    ⟨"OSC_SWITCH", 6, 6, .w1c, [], []⟩,
    ⟨"PO_LATE", 5, 5, .w1c, [], []⟩,
    ⟨"REACQ_REQ", 4, 4, .w1c, [], []⟩,
    ⟨"UNLOCKED", 3, 3, .w1c, [], []⟩,
    ⟨"HOLDOVER", 2, 2, .w1c, [], []⟩,
    ⟨"LOCKED", 1, 1, .w1c, [], []⟩,
    ⟨"SRC_SWITCH", 0, 0, .w1c, [], []⟩]

/-- TIM.IRQ_ENABLE, Table 9.7. -/
def Reg.TIM_IRQ_ENABLE : RegDesc where
  name := "TIM.IRQ_ENABLE"
  blk := 1
  spaces := [15]
  off := 0x0404
  fields := [⟨"SRC_LOSS", 9, 9, .rw, [], []⟩,
    ⟨"SET_REJECT", 8, 8, .rw, [], []⟩,
    ⟨"LEAP_MISMATCH", 7, 7, .rw, [], []⟩,
    ⟨"OSC_SWITCH", 6, 6, .rw, [], []⟩,
    ⟨"PO_LATE", 5, 5, .rw, [], []⟩,
    ⟨"REACQ_REQ", 4, 4, .rw, [], []⟩,
    ⟨"UNLOCKED", 3, 3, .rw, [], []⟩,
    ⟨"HOLDOVER", 2, 2, .rw, [], []⟩,
    ⟨"LOCKED", 1, 1, .rw, [], []⟩,
    ⟨"SRC_SWITCH", 0, 0, .rw, [], []⟩]

/-- TIM.COMMIT, Table 9.7. -/
def Reg.TIM_COMMIT : RegDesc where
  name := "TIM.COMMIT"
  blk := 1
  spaces := [15]
  off := 0x0408
  fields := [⟨"COMMIT", 0, 0, .wo, [], []⟩]

/-- TIM.STATUS, Table 9.7. -/
def Reg.TIM_STATUS : RegDesc where
  name := "TIM.STATUS"
  blk := 1
  spaces := [15]
  off := 0x040C
  fields := [⟨"SHADOW_PENDING", 31, 31, .ro, [], []⟩,
    ⟨"LEAP_EXPIRED", 9, 9, .ro, [], []⟩,
    ⟨"LEAP_MISMATCH", 8, 8, .ro, [], []⟩,
    ⟨"F", 7, 0, .ro, [], []⟩]

/-- TIM.OSC_CFG, Table 9.7. -/
def Reg.TIM_OSC_CFG : RegDesc where
  name := "TIM.OSC_CFG"
  blk := 1
  spaces := [15]
  off := 0x0410
  fields := [⟨"SEL", 0, 0, .rw, [], []⟩]

/-- TIM.OSC_STATUS, Table 9.7. -/
def Reg.TIM_OSC_STATUS : RegDesc where
  name := "TIM.OSC_STATUS"
  blk := 1
  spaces := [15]
  off := 0x0414
  fields := [⟨"REF10_PRESENT", 1, 1, .ro, [], []⟩,
    ⟨"ACTIVE", 0, 0, .ro, [], []⟩]

/-- TIM.QUAL_S, Table 9.7. -/
def Reg.TIM_QUAL_S : RegDesc where
  name := "TIM.QUAL_S"
  blk := 1
  spaces := [15]
  off := 0x0418
  reset := 0x0000000A
  fields := [⟨"V", 7, 0, .rws, [], [(1, 255)]⟩]

/-- TIM.TB0_SLEW, Table 9.7. -/
def Reg.TIM_TB0_SLEW : RegDesc where
  name := "TIM.TB0_SLEW"
  blk := 1
  spaces := [15]
  off := 0x041C
  reset := 0x00001388
  fields := [⟨"V", 15, 0, .rws, [], [(100, 50000)]⟩]

/-- TIM.TB0_ACQ_STEP, Table 9.7. -/
def Reg.TIM_TB0_ACQ_STEP : RegDesc where
  name := "TIM.TB0_ACQ_STEP"
  blk := 1
  spaces := [15]
  off := 0x0420
  reset := 0x0000000A
  fields := [⟨"V", 9, 0, .rws, [], [(1, 1000)]⟩]

/-- TIM.TB0_STEP_THR, Table 9.7. -/
def Reg.TIM_TB0_STEP_THR : RegDesc where
  name := "TIM.TB0_STEP_THR"
  blk := 1
  spaces := [15]
  off := 0x0424
  reset := 0x000F4240
  fields := [⟨"V", 29, 0, .rws, [], [(10000, 1000000000)]⟩]

/-- TIM.TIN_CFG, Table 9.7. -/
def Reg.TIM_TIN_CFG : RegDesc where
  name := "TIM.TIN_CFG"
  blk := 1
  spaces := [15]
  off := 0x0428
  reset := 0x00000004
  fields := [⟨"IRIG_EN", 31, 31, .rws, [], []⟩,
    ⟨"TOD_EN", 30, 30, .rws, [], []⟩,
    ⟨"PPS_EN", 29, 29, .rws, [], []⟩,
    ⟨"PPS_POL", 28, 28, .rws, [], []⟩,
    ⟨"TOD_REF", 27, 27, .rws, [], []⟩,
    ⟨"TOD_FMT", 26, 26, .rws, [], []⟩,
    ⟨"BAUD", 18, 16, .rws, [(0, 5)], []⟩,
    ⟨"TQ_MAX", 3, 0, .rws, [], []⟩]

/-- TIM.TIN_DELAY, Table 9.7. -/
def Reg.TIM_TIN_DELAY : RegDesc where
  name := "TIM.TIN_DELAY"
  blk := 1
  spaces := [15]
  off := 0x042C
  fields := [⟨"V", 19, 0, .rws, [], [(0, 1000000)]⟩]

/-- TIM.TIN_SRC_ERR, Table 9.7. -/
def Reg.TIM_TIN_SRC_ERR : RegDesc where
  name := "TIM.TIN_SRC_ERR"
  blk := 1
  spaces := [15]
  off := 0x0430
  reset := 0x00000064
  fields := [⟨"V", 19, 0, .rws, [], []⟩]

/-- TIM.TIN_STATUS, Table 9.7. -/
def Reg.TIM_TIN_STATUS : RegDesc where
  name := "TIM.TIN_STATUS"
  blk := 1
  spaces := [15]
  off := 0x0434
  fields := [⟨"IRIG_VALID", 31, 31, .ro, [], []⟩,
    ⟨"TOD_VALID", 30, 30, .ro, [], []⟩,
    ⟨"PPS_PRESENT", 29, 29, .ro, [], []⟩,
    ⟨"F", 11, 8, .ro, [], []⟩,
    ⟨"F", 2, 0, .ro, [], []⟩]

/-- TIM.LEAP_OFFSET, Table 9.7. -/
def Reg.TIM_LEAP_OFFSET : RegDesc where
  name := "TIM.LEAP_OFFSET"
  blk := 1
  spaces := [15]
  off := 0x0438
  fields := [⟨"V", 15, 0, .ro, [], []⟩]

/-- TIM.LEAP_NEXT_LO, Table 9.7. -/
def Reg.TIM_LEAP_NEXT_LO : RegDesc where
  name := "TIM.LEAP_NEXT_LO"
  blk := 1
  spaces := [15]
  off := 0x043C
  fields := [⟨"V", 31, 0, .ro, [], []⟩]

/-- TIM.LEAP_NEXT_HI, Table 9.7. -/
def Reg.TIM_LEAP_NEXT_HI : RegDesc where
  name := "TIM.LEAP_NEXT_HI"
  blk := 1
  spaces := [15]
  off := 0x0440
  fields := [⟨"V", 31, 0, .ro, [], []⟩]

/-- TIM.LEAP_NEXT_DIR, Table 9.7. -/
def Reg.TIM_LEAP_NEXT_DIR : RegDesc where
  name := "TIM.LEAP_NEXT_DIR"
  blk := 1
  spaces := [15]
  off := 0x0444
  fields := [⟨"V", 0, 0, .ro, [], []⟩]

/-- TIM.TB_CFG, Table 9.7. -/
def Reg.TIM_TB_CFG : RegDesc where
  name := "TIM.TB_CFG"
  blk := 1
  spaces := [0]
  off := 0x0040
  reset := 0x00000014
  fields := [⟨"EN", 31, 31, .rws, [], []⟩,
    ⟨"NO_REACQ", 30, 30, .rws, [], []⟩,
    ⟨"SRC0", 23, 20, .rws, [], []⟩,
    ⟨"SRC1", 19, 16, .rws, [], []⟩,
    ⟨"SRC2", 15, 12, .rws, [], []⟩,
    ⟨"SRC3", 11, 8, .rws, [], []⟩,
    ⟨"KP", 7, 4, .rws, [], []⟩,
    ⟨"KI", 3, 0, .rws, [], []⟩]

/-- TIM.TB_STATUS, Table 9.7. -/
def Reg.TIM_TB_STATUS : RegDesc where
  name := "TIM.TB_STATUS"
  blk := 1
  spaces := [0]
  off := 0x0044
  reset := 0x30000000
  fields := [⟨"STATE", 31, 29, .ro, [], []⟩,
    ⟨"VIRTUAL", 28, 28, .ro, [], []⟩,
    ⟨"REACQ_REQ", 27, 27, .ro, [], []⟩,
    ⟨"ACT_SRC", 23, 20, .ro, [], []⟩,
    ⟨"QUAL", 19, 16, .ro, [], []⟩]

/-- TIM.TB_ERR, Table 9.7. -/
def Reg.TIM_TB_ERR : RegDesc where
  name := "TIM.TB_ERR"
  blk := 1
  spaces := [0]
  off := 0x0048
  fields := [⟨"V", 31, 0, .ro, [], []⟩]

/-- TIM.TB_OFFSET, Table 9.7. -/
def Reg.TIM_TB_OFFSET : RegDesc where
  name := "TIM.TB_OFFSET"
  blk := 1
  spaces := [0]
  off := 0x004C
  fields := [⟨"V", 31, 0, .ro, [], []⟩]

/-- TIM.TB_RATE, Table 9.7. -/
def Reg.TIM_TB_RATE : RegDesc where
  name := "TIM.TB_RATE"
  blk := 1
  spaces := [0]
  off := 0x0050
  fields := [⟨"V", 31, 0, .ro, [], []⟩]

/-- TIM.TB_RRATIO, Table 9.7. -/
def Reg.TIM_TB_RRATIO : RegDesc where
  name := "TIM.TB_RRATIO"
  blk := 1
  spaces := [0]
  off := 0x0054
  fields := [⟨"V", 31, 0, .ro, [], []⟩]

/-- TIM.TB_NOW_NS, Table 9.7. -/
def Reg.TIM_TB_NOW_NS : RegDesc where
  name := "TIM.TB_NOW_NS"
  blk := 1
  spaces := [0]
  off := 0x0058
  fields := [⟨"V", 31, 0, .ro, [], []⟩]

/-- TIM.TB_NOW_SEC_LO, Table 9.7. -/
def Reg.TIM_TB_NOW_SEC_LO : RegDesc where
  name := "TIM.TB_NOW_SEC_LO"
  blk := 1
  spaces := [0]
  off := 0x005C
  fields := [⟨"V", 31, 0, .ro, [], []⟩]

/-- TIM.TB_NOW_SEC_HI, Table 9.7. -/
def Reg.TIM_TB_NOW_SEC_HI : RegDesc where
  name := "TIM.TB_NOW_SEC_HI"
  blk := 1
  spaces := [0]
  off := 0x0060
  fields := [⟨"V", 15, 0, .ro, [], []⟩]

/-- TIM.TB_NOW_NS32, Table 9.7. -/
def Reg.TIM_TB_NOW_NS32 : RegDesc where
  name := "TIM.TB_NOW_NS32"
  blk := 1
  spaces := [0]
  off := 0x0064
  fields := [⟨"V", 31, 0, .ro, [], []⟩]

/-- TIM.TB_VSTEP, Table 9.7. -/
def Reg.TIM_TB_VSTEP : RegDesc where
  name := "TIM.TB_VSTEP"
  blk := 1
  spaces := [0]
  off := 0x0068
  fields := [⟨"V", 31, 0, .wo, [], []⟩]

/-- TIM.TB_VRATE, Table 9.7. -/
def Reg.TIM_TB_VRATE : RegDesc where
  name := "TIM.TB_VRATE"
  blk := 1
  spaces := [0]
  off := 0x006C
  fields := [⟨"V", 31, 0, .rw, [], []⟩]

/-- TIM.TB_HO, Table 9.7. -/
def Reg.TIM_TB_HO : RegDesc where
  name := "TIM.TB_HO"
  blk := 1
  spaces := [0]
  off := 0x0070
  reset := 0x00C80064
  fields := [⟨"HO_DRIFT", 31, 16, .rws, [], []⟩,
    ⟨"HO_WANDER", 15, 0, .rws, [], []⟩]

/-- TIM.TB_LOCK, Table 9.7. -/
def Reg.TIM_TB_LOCK : RegDesc where
  name := "TIM.TB_LOCK"
  blk := 1
  spaces := [0]
  off := 0x0074
  reset := 0x140003E8
  fields := [⟨"LOCK_HOLD", 31, 26, .rws, [], [(1, 60)]⟩,
    ⟨"LOCK_LIM", 16, 0, .rws, [], [(100, 100000)]⟩]

/-- TIM.TB_SRC_SWITCH, Table 9.7. -/
def Reg.TIM_TB_SRC_SWITCH : RegDesc where
  name := "TIM.TB_SRC_SWITCH"
  blk := 1
  spaces := [0]
  off := 0x0078
  sat := some (0x008C, 0)
  fields := [⟨"V", 31, 0, .rc, [], []⟩]

/-- TIM.TB_STEPS, Table 9.7. -/
def Reg.TIM_TB_STEPS : RegDesc where
  name := "TIM.TB_STEPS"
  blk := 1
  spaces := [0]
  off := 0x007C
  sat := some (0x008C, 1)
  fields := [⟨"V", 31, 0, .rc, [], []⟩]

/-- TIM.TB_OUTLIERS, Table 9.7. -/
def Reg.TIM_TB_OUTLIERS : RegDesc where
  name := "TIM.TB_OUTLIERS"
  blk := 1
  spaces := [0]
  off := 0x0080
  sat := some (0x008C, 2)
  fields := [⟨"V", 31, 0, .rc, [], []⟩]

/-- TIM.TB_HOLDOVERS, Table 9.7. -/
def Reg.TIM_TB_HOLDOVERS : RegDesc where
  name := "TIM.TB_HOLDOVERS"
  blk := 1
  spaces := [0]
  off := 0x0084
  sat := some (0x008C, 3)
  fields := [⟨"V", 31, 0, .rc, [], []⟩]

/-- TIM.TB_REFUSED, Table 9.7. -/
def Reg.TIM_TB_REFUSED : RegDesc where
  name := "TIM.TB_REFUSED"
  blk := 1
  spaces := [0]
  off := 0x0088
  sat := some (0x008C, 4)
  fields := [⟨"V", 31, 0, .rc, [], []⟩]

/-- TIM.TB_CNT_SAT, Table 9.7. -/
def Reg.TIM_TB_CNT_SAT : RegDesc where
  name := "TIM.TB_CNT_SAT"
  blk := 1
  spaces := [0]
  off := 0x008C
  fields := [⟨"SAT", 4, 0, .w1c, [], []⟩]

/-- TIM.PTP_CFG, Table 9.7. -/
def Reg.TIM_PTP_CFG : RegDesc where
  name := "TIM.PTP_CFG"
  blk := 1
  spaces := [0]
  off := 0x00A0
  reset := 0x00000A07
  fields := [⟨"EN", 31, 31, .rws, [], []⟩,
    ⟨"PROFILE", 30, 30, .rws, [], []⟩,
    ⟨"PORT", 28, 24, .rws, [], [(0, 27)]⟩,
    ⟨"DOMAIN", 23, 16, .rws, [], []⟩,
    ⟨"STEP", 15, 8, .rws, [], [(1, 255)]⟩,
    ⟨"CLASS_MAX", 7, 0, .rws, [], []⟩]

/-- TIM.PTP_GM_LO, Table 9.7. -/
def Reg.TIM_PTP_GM_LO : RegDesc where
  name := "TIM.PTP_GM_LO"
  blk := 1
  spaces := [0]
  off := 0x00A4
  fields := [⟨"V", 31, 0, .ro, [], []⟩]

/-- TIM.PTP_GM_HI, Table 9.7. -/
def Reg.TIM_PTP_GM_HI : RegDesc where
  name := "TIM.PTP_GM_HI"
  blk := 1
  spaces := [0]
  off := 0x00A8
  fields := [⟨"V", 31, 0, .ro, [], []⟩]

/-- TIM.PTP_STATUS, Table 9.7. -/
def Reg.TIM_PTP_STATUS : RegDesc where
  name := "TIM.PTP_STATUS"
  blk := 1
  spaces := [0]
  off := 0x00AC
  fields := [⟨"F", 31, 28, .ro, [], []⟩,
    ⟨"F", 23, 16, .ro, [], []⟩,
    ⟨"F", 15, 8, .ro, [], []⟩,
    ⟨"TTI_PRESENT", 0, 0, .ro, [], []⟩]

/-- TIM.PTP_UTC, Table 9.7. -/
def Reg.TIM_PTP_UTC : RegDesc where
  name := "TIM.PTP_UTC"
  blk := 1
  spaces := [0]
  off := 0x00B0
  fields := [⟨"F", 31, 16, .ro, [], []⟩,
    ⟨"F", 1, 1, .ro, [], []⟩,
    ⟨"F", 0, 0, .ro, [], []⟩]

/-- TIM.PTP_SYNC_RX, Table 9.7. -/
def Reg.TIM_PTP_SYNC_RX : RegDesc where
  name := "TIM.PTP_SYNC_RX"
  blk := 1
  spaces := [0]
  off := 0x00B4
  sat := some (0x00C4, 0)
  fields := [⟨"V", 31, 0, .rc, [], []⟩]

/-- TIM.PTP_SYNC_TIMEOUT, Table 9.7. -/
def Reg.TIM_PTP_SYNC_TIMEOUT : RegDesc where
  name := "TIM.PTP_SYNC_TIMEOUT"
  blk := 1
  spaces := [0]
  off := 0x00B8
  sat := some (0x00C4, 1)
  fields := [⟨"V", 31, 0, .rc, [], []⟩]

/-- TIM.PTP_ANN_TIMEOUT, Table 9.7. -/
def Reg.TIM_PTP_ANN_TIMEOUT : RegDesc where
  name := "TIM.PTP_ANN_TIMEOUT"
  blk := 1
  spaces := [0]
  off := 0x00BC
  sat := some (0x00C4, 2)
  fields := [⟨"V", 31, 0, .rc, [], []⟩]

/-- TIM.PTP_DISCARD, Table 9.7. -/
def Reg.TIM_PTP_DISCARD : RegDesc where
  name := "TIM.PTP_DISCARD"
  blk := 1
  spaces := [0]
  off := 0x00C0
  sat := some (0x00C4, 3)
  fields := [⟨"V", 31, 0, .rc, [], []⟩]

/-- TIM.PTP_CNT_SAT, Table 9.7. -/
def Reg.TIM_PTP_CNT_SAT : RegDesc where
  name := "TIM.PTP_CNT_SAT"
  blk := 1
  spaces := [0]
  off := 0x00C4
  fields := [⟨"SAT", 3, 0, .w1c, [], []⟩]

/-- TIM.PO_CFG, Table 9.7. -/
def Reg.TIM_PO_CFG : RegDesc where
  name := "TIM.PO_CFG"
  blk := 1
  spaces := [1]
  off := 0x0040
  reset := 0x40000001
  fields := [⟨"EN", 31, 31, .rws, [], []⟩,
    ⟨"POL", 30, 30, .rws, [], []⟩,
    ⟨"MODE", 29, 28, .rws, [(0, 2)], []⟩,
    ⟨"LOCK_GATE", 27, 27, .rws, [], []⟩,
    ⟨"TB", 26, 24, .rws, [], []⟩,
    ⟨"DIFF", 23, 23, .rws, [], []⟩,
    ⟨"SLOT_N", 7, 0, .rws, [], [(1, 255)]⟩]

/-- TIM.PO_START_NS, Table 9.7. -/
def Reg.TIM_PO_START_NS : RegDesc where
  name := "TIM.PO_START_NS"
  blk := 1
  spaces := [1]
  off := 0x0044
  fields := [⟨"V", 31, 0, .rws, [], []⟩]

/-- TIM.PO_START_SEC_LO, Table 9.7. -/
def Reg.TIM_PO_START_SEC_LO : RegDesc where
  name := "TIM.PO_START_SEC_LO"
  blk := 1
  spaces := [1]
  off := 0x0048
  fields := [⟨"V", 31, 0, .rws, [], []⟩]

/-- TIM.PO_START_SEC_HI, Table 9.7. -/
def Reg.TIM_PO_START_SEC_HI : RegDesc where
  name := "TIM.PO_START_SEC_HI"
  blk := 1
  spaces := [1]
  off := 0x004C
  fields := [⟨"V", 15, 0, .rws, [], []⟩]

/-- TIM.PO_PERIOD_NS, Table 9.7. -/
def Reg.TIM_PO_PERIOD_NS : RegDesc where
  name := "TIM.PO_PERIOD_NS"
  blk := 1
  spaces := [1]
  off := 0x0050
  fields := [⟨"V", 29, 0, .rws, [], []⟩]

/-- TIM.PO_PERIOD_SEC, Table 9.7. -/
def Reg.TIM_PO_PERIOD_SEC : RegDesc where
  name := "TIM.PO_PERIOD_SEC"
  blk := 1
  spaces := [1]
  off := 0x0054
  fields := [⟨"V", 15, 0, .rws, [], []⟩]

/-- TIM.PO_WIDTH, Table 9.7. -/
def Reg.TIM_PO_WIDTH : RegDesc where
  name := "TIM.PO_WIDTH"
  blk := 1
  spaces := [1]
  off := 0x0058
  fields := [⟨"V", 31, 0, .rws, [], [(100, 4294967295)]⟩]

/-- TIM.PO_STATUS, Table 9.7. -/
def Reg.TIM_PO_STATUS : RegDesc where
  name := "TIM.PO_STATUS"
  blk := 1
  spaces := [1]
  off := 0x005C
  fields := [⟨"ARMED", 31, 31, .ro, [], []⟩,
    ⟨"LATE", 30, 30, .w1c, [], []⟩,
    ⟨"SHADOW_PENDING", 29, 29, .ro, [], []⟩]

/-- TIM.PO_NEXT_NS32, Table 9.7. -/
def Reg.TIM_PO_NEXT_NS32 : RegDesc where
  name := "TIM.PO_NEXT_NS32"
  blk := 1
  spaces := [1]
  off := 0x0060
  fields := [⟨"V", 31, 0, .ro, [], []⟩]

/-- TIM.PO_EDGES, Table 9.7. -/
def Reg.TIM_PO_EDGES : RegDesc where
  name := "TIM.PO_EDGES"
  blk := 1
  spaces := [1]
  off := 0x0064
  sat := some (0x006C, 0)
  fields := [⟨"V", 31, 0, .rc, [], []⟩]

/-- TIM.PO_SKIPPED, Table 9.7. -/
def Reg.TIM_PO_SKIPPED : RegDesc where
  name := "TIM.PO_SKIPPED"
  blk := 1
  spaces := [1]
  off := 0x0068
  sat := some (0x006C, 1)
  fields := [⟨"V", 31, 0, .rc, [], []⟩]

/-- TIM.PO_CNT_SAT, Table 9.7. -/
def Reg.TIM_PO_CNT_SAT : RegDesc where
  name := "TIM.PO_CNT_SAT"
  blk := 1
  spaces := [1]
  off := 0x006C
  fields := [⟨"SAT", 1, 0, .w1c, [], []⟩]

/-- TIM.PD_CFG, Table 9.7. -/
def Reg.TIM_PD_CFG : RegDesc where
  name := "TIM.PD_CFG"
  blk := 1
  spaces := [2]
  off := 0x0040
  fields := [⟨"EN", 31, 31, .rws, [], []⟩,
    ⟨"TB", 2, 0, .rws, [], []⟩]

/-- TIM.PD_DELAY, Table 9.7. -/
def Reg.TIM_PD_DELAY : RegDesc where
  name := "TIM.PD_DELAY"
  blk := 1
  spaces := [2]
  off := 0x0044
  fields := [⟨"V", 31, 0, .ro, [], []⟩]

/-- TIM.PD_NRR, Table 9.7. -/
def Reg.TIM_PD_NRR : RegDesc where
  name := "TIM.PD_NRR"
  blk := 1
  spaces := [2]
  off := 0x0048
  fields := [⟨"V", 31, 0, .ro, [], []⟩]

/-- TIM.PD_STATUS, Table 9.7. -/
def Reg.TIM_PD_STATUS : RegDesc where
  name := "TIM.PD_STATUS"
  blk := 1
  spaces := [2]
  off := 0x004C
  fields := [⟨"VALID", 31, 31, .ro, [], []⟩,
    ⟨"F", 23, 0, .ro, [], []⟩]

/-- TIM.PD_EXCH, Table 9.7. -/
def Reg.TIM_PD_EXCH : RegDesc where
  name := "TIM.PD_EXCH"
  blk := 1
  spaces := [2]
  off := 0x0050
  sat := some (0x0060, 0)
  fields := [⟨"V", 31, 0, .rc, [], []⟩]

/-- TIM.PD_FAIL, Table 9.7. -/
def Reg.TIM_PD_FAIL : RegDesc where
  name := "TIM.PD_FAIL"
  blk := 1
  spaces := [2]
  off := 0x0054
  sat := some (0x0060, 1)
  fields := [⟨"V", 31, 0, .rc, [], []⟩]

/-- TIM.PD_OUTLIERS, Table 9.7. -/
def Reg.TIM_PD_OUTLIERS : RegDesc where
  name := "TIM.PD_OUTLIERS"
  blk := 1
  spaces := [2]
  off := 0x0058
  sat := some (0x0060, 2)
  fields := [⟨"V", 31, 0, .rc, [], []⟩]

/-- TIM.PD_NODELAY_FWD, Table 9.7. -/
def Reg.TIM_PD_NODELAY_FWD : RegDesc where
  name := "TIM.PD_NODELAY_FWD"
  blk := 1
  spaces := [2]
  off := 0x005C
  sat := some (0x0060, 3)
  fields := [⟨"V", 31, 0, .rc, [], []⟩]

/-- TIM.PD_CNT_SAT, Table 9.7. -/
def Reg.TIM_PD_CNT_SAT : RegDesc where
  name := "TIM.PD_CNT_SAT"
  blk := 1
  spaces := [2]
  off := 0x0060
  fields := [⟨"SAT", 3, 0, .w1c, [], []⟩]

/-- The registers of TIM (Table 9.7 and the field tables of its chapter). -/
def Reg.tableTIM : List RegDesc :=
  [Reg.TIM_SEL, Reg.TIM_IRQ_STATUS, Reg.TIM_IRQ_ENABLE, Reg.TIM_COMMIT,
   Reg.TIM_STATUS, Reg.TIM_OSC_CFG, Reg.TIM_OSC_STATUS, Reg.TIM_QUAL_S,
   Reg.TIM_TB0_SLEW, Reg.TIM_TB0_ACQ_STEP, Reg.TIM_TB0_STEP_THR, Reg.TIM_TIN_CFG,
   Reg.TIM_TIN_DELAY, Reg.TIM_TIN_SRC_ERR, Reg.TIM_TIN_STATUS, Reg.TIM_LEAP_OFFSET,
   Reg.TIM_LEAP_NEXT_LO, Reg.TIM_LEAP_NEXT_HI, Reg.TIM_LEAP_NEXT_DIR, Reg.TIM_TB_CFG] ++
  [Reg.TIM_TB_STATUS, Reg.TIM_TB_ERR, Reg.TIM_TB_OFFSET, Reg.TIM_TB_RATE,
   Reg.TIM_TB_RRATIO, Reg.TIM_TB_NOW_NS, Reg.TIM_TB_NOW_SEC_LO, Reg.TIM_TB_NOW_SEC_HI,
   Reg.TIM_TB_NOW_NS32, Reg.TIM_TB_VSTEP, Reg.TIM_TB_VRATE, Reg.TIM_TB_HO,
   Reg.TIM_TB_LOCK, Reg.TIM_TB_SRC_SWITCH, Reg.TIM_TB_STEPS, Reg.TIM_TB_OUTLIERS,
   Reg.TIM_TB_HOLDOVERS, Reg.TIM_TB_REFUSED, Reg.TIM_TB_CNT_SAT, Reg.TIM_PTP_CFG] ++
  [Reg.TIM_PTP_GM_LO, Reg.TIM_PTP_GM_HI, Reg.TIM_PTP_STATUS, Reg.TIM_PTP_UTC,
   Reg.TIM_PTP_SYNC_RX, Reg.TIM_PTP_SYNC_TIMEOUT, Reg.TIM_PTP_ANN_TIMEOUT, Reg.TIM_PTP_DISCARD,
   Reg.TIM_PTP_CNT_SAT, Reg.TIM_PO_CFG, Reg.TIM_PO_START_NS, Reg.TIM_PO_START_SEC_LO,
   Reg.TIM_PO_START_SEC_HI, Reg.TIM_PO_PERIOD_NS, Reg.TIM_PO_PERIOD_SEC, Reg.TIM_PO_WIDTH,
   Reg.TIM_PO_STATUS, Reg.TIM_PO_NEXT_NS32, Reg.TIM_PO_EDGES, Reg.TIM_PO_SKIPPED] ++
  [Reg.TIM_PO_CNT_SAT, Reg.TIM_PD_CFG, Reg.TIM_PD_DELAY, Reg.TIM_PD_NRR,
   Reg.TIM_PD_STATUS, Reg.TIM_PD_EXCH, Reg.TIM_PD_FAIL, Reg.TIM_PD_OUTLIERS,
   Reg.TIM_PD_NODELAY_FWD, Reg.TIM_PD_CNT_SAT]

/-- PRT.SEL, Table 2.3. -/
def Reg.PRT_SEL : RegDesc where
  name := "PRT.SEL"
  blk := 2
  spaces := [15]
  off := 0x0000
  banked := true
  fields := [⟨"AINC", 31, 31, .rw, [], []⟩,
    ⟨"PORT", 4, 0, .rw, [(0, 29)], []⟩]

/-- PRT.IRQ_STATUS, Table 2.3. -/
def Reg.PRT_IRQ_STATUS : RegDesc where
  name := "PRT.IRQ_STATUS"
  blk := 2
  spaces := [15]
  off := 0x0400
  fields := [⟨"HRX_FULL", 30, 30, .w1c, [], []⟩,
    ⟨"LINK_CHG", 29, 0, .w1c, [], []⟩]

/-- PRT.IRQ_ENABLE, Table 2.3. -/
def Reg.PRT_IRQ_ENABLE : RegDesc where
  name := "PRT.IRQ_ENABLE"
  blk := 2
  spaces := [15]
  off := 0x0404
  fields := [⟨"HRX_FULL", 30, 30, .rw, [], []⟩,
    ⟨"LINK_CHG", 29, 0, .rw, [], []⟩]

/-- PRT.HRX_BASE_LO, Table 2.3. -/
def Reg.PRT_HRX_BASE_LO : RegDesc where
  name := "PRT.HRX_BASE_LO"
  blk := 2
  spaces := [15]
  off := 0x0408
  fields := [⟨"V", 31, 6, .rw, [], []⟩]

/-- PRT.HRX_BASE_HI, Table 2.3. -/
def Reg.PRT_HRX_BASE_HI : RegDesc where
  name := "PRT.HRX_BASE_HI"
  blk := 2
  spaces := [15]
  off := 0x040C
  fields := [⟨"V", 31, 0, .rw, [], []⟩]

/-- PRT.HRX_SIZE, Table 2.3. -/
def Reg.PRT_HRX_SIZE : RegDesc where
  name := "PRT.HRX_SIZE"
  blk := 2
  spaces := [15]
  off := 0x0410
  fields := [⟨"V", 15, 0, .rw, [(0, 0), (2, 65535)], []⟩]

/-- PRT.HRX_QUEUE, Table 2.3. -/
def Reg.PRT_HRX_QUEUE : RegDesc where
  name := "PRT.HRX_QUEUE"
  blk := 2
  spaces := [15]
  off := 0x0414
  fields := [⟨"V", 5, 0, .rw, [(48, 63)], []⟩]

/-- PRT.HRX_HEAD, Table 2.3. -/
def Reg.PRT_HRX_HEAD : RegDesc where
  name := "PRT.HRX_HEAD"
  blk := 2
  spaces := [15]
  off := 0x0418
  fields := [⟨"V", 15, 0, .ro, [], []⟩]

/-- PRT.HRX_TAIL, Table 2.3. -/
def Reg.PRT_HRX_TAIL : RegDesc where
  name := "PRT.HRX_TAIL"
  blk := 2
  spaces := [15]
  off := 0x041C
  fields := [⟨"V", 15, 0, .rw, [], []⟩]

/-- PRT.MIR_ETYPE, Table 2.3. -/
def Reg.PRT_MIR_ETYPE : RegDesc where
  name := "PRT.MIR_ETYPE"
  blk := 2
  spaces := [15]
  off := 0x0420
  reset := 0x000088B5
  fields := [⟨"E", 15, 0, .rw, [], []⟩]

/-- PRT.PORT_CFG, Table 2.3. -/
def Reg.PRT_PORT_CFG : RegDesc where
  name := "PRT.PORT_CFG"
  blk := 2
  spaces := [0]
  off := 0x0040
  reset := 0x07D00000
  fields := [⟨"HRX_RATE", 31, 16, .rw, [], []⟩,
    ⟨"HRX_EN", 8, 8, .rw, [], []⟩,
    ⟨"INGEST_EN", 7, 7, .rw, [], []⟩,
    ⟨"PTP_EN", 6, 6, .rw, [], []⟩,
    ⟨"UNTAG_EN", 5, 5, .rw, [], []⟩,
    ⟨"BCAST_EN", 4, 4, .rw, [], []⟩,
    ⟨"MEDIA", 3, 0, .rw, [(0, 6)], []⟩]

/-- PRT.PORT_STATUS, Table 2.3. -/
def Reg.PRT_PORT_STATUS : RegDesc where
  name := "PRT.PORT_STATUS"
  blk := 2
  spaces := [0]
  off := 0x0044
  fields := [⟨"TX_FAULT", 7, 7, .ro, [], []⟩,
    ⟨"LOS", 6, 6, .ro, [], []⟩,
    ⟨"HDX_REFUSED", 5, 5, .ro, [], []⟩,
    ⟨"MOD_PRESENT", 4, 4, .ro, [], []⟩,
    ⟨"SPEED", 3, 1, .ro, [], []⟩,
    ⟨"LINK_UP", 0, 0, .ro, [], []⟩]

/-- PRT.MAX_FRAME, Table 2.3. -/
def Reg.PRT_MAX_FRAME : RegDesc where
  name := "PRT.MAX_FRAME"
  blk := 2
  spaces := [0]
  off := 0x0048
  reset := 0x000005F2
  fields := [⟨"V", 13, 0, .rw, [(64, 9216)], []⟩]

/-- PRT.VLAN_CFG, Table 2.3. -/
def Reg.PRT_VLAN_CFG : RegDesc where
  name := "PRT.VLAN_CFG"
  blk := 2
  spaces := [0]
  off := 0x004C
  reset := 0x00000001
  fields := [⟨"DEF_PCP", 15, 13, .rw, [], []⟩,
    ⟨"PVID", 11, 0, .rw, [], []⟩]

/-- PRT.MAC_LO, Table 2.3. -/
def Reg.PRT_MAC_LO : RegDesc where
  name := "PRT.MAC_LO"
  blk := 2
  spaces := [0]
  off := 0x0050
  fields := [⟨"V", 31, 0, .rw, [], []⟩]

/-- PRT.MAC_HI, Table 2.3. -/
def Reg.PRT_MAC_HI : RegDesc where
  name := "PRT.MAC_HI"
  blk := 2
  spaces := [0]
  off := 0x0054
  fields := [⟨"V", 15, 0, .rw, [], []⟩]

/-- PRT.VLAN_IDX, Table 2.3. -/
def Reg.PRT_VLAN_IDX : RegDesc where
  name := "PRT.VLAN_IDX"
  blk := 2
  spaces := [0]
  off := 0x0058
  fields := [⟨"V", 6, 0, .rw, [], []⟩]

/-- PRT.VLAN_DATA, Table 2.3. -/
def Reg.PRT_VLAN_DATA : RegDesc where
  name := "PRT.VLAN_DATA"
  blk := 2
  spaces := [0]
  off := 0x005C
  fields := [⟨"V", 31, 0, .rw, [], []⟩]

/-- PRT.PAIR_CFG, Table 2.3. -/
def Reg.PRT_PAIR_CFG : RegDesc where
  name := "PRT.PAIR_CFG"
  blk := 2
  spaces := [0]
  off := 0x0060
  reset := 0x00000008
  fields := [⟨"TC_TB", 5, 3, .rw, [(1, 4)], []⟩,
    ⟨"TC_EN", 2, 2, .rw, [], []⟩,
    ⟨"MODE", 1, 0, .rw, [(0, 1)], []⟩]

/-- PRT.UC_n, the low word of a filter entry: address bytes 0–3 (R38). -/
def Reg.PRT_UC_LO : RegDesc where
  name := "PRT.UC_LO"
  blk := 2
  spaces := [0]
  off := 0x0100
  n := 16
  stride := 8
  fields := [⟨"V", 31, 0, .rw, [], []⟩]

/-- PRT.UC_n, the high word of a filter entry (Table 2.2). -/
def Reg.PRT_UC_HI : RegDesc where
  name := "PRT.UC_HI"
  blk := 2
  spaces := [0]
  off := 0x0104
  n := 16
  stride := 8
  reset := 0x00010000
  fields := [⟨"VALID", 31, 31, .rw, [], []⟩,
    ⟨"NO_FWD", 17, 17, .rw, [], []⟩,
    ⟨"CONSUME", 16, 16, .rw, [], []⟩,
    ⟨"ADDR_HI", 15, 0, .rw, [], []⟩]

/-- PRT.MC_n, the low word of a filter entry: address bytes 0–3 (R38). -/
def Reg.PRT_MC_LO : RegDesc where
  name := "PRT.MC_LO"
  blk := 2
  spaces := [0]
  off := 0x0180
  n := 32
  stride := 8
  fields := [⟨"V", 31, 0, .rw, [], []⟩]

/-- PRT.MC_n, the high word of a filter entry (Table 2.2). -/
def Reg.PRT_MC_HI : RegDesc where
  name := "PRT.MC_HI"
  blk := 2
  spaces := [0]
  off := 0x0184
  n := 32
  stride := 8
  reset := 0x00010000
  fields := [⟨"VALID", 31, 31, .rw, [], []⟩,
    ⟨"NO_FWD", 17, 17, .rw, [], []⟩,
    ⟨"CONSUME", 16, 16, .rw, [], []⟩,
    ⟨"ADDR_HI", 15, 0, .rw, [], []⟩]

/-- PRT.RX_FRAMES, Table 2.3. -/
def Reg.PRT_RX_FRAMES : RegDesc where
  name := "PRT.RX_FRAMES"
  blk := 2
  spaces := [0]
  off := 0x0280
  sat := some (0x02D8, 0)
  fields := [⟨"V", 31, 0, .rc, [], []⟩]

/-- PRT.RX_FCS_ERR, Table 2.3. -/
def Reg.PRT_RX_FCS_ERR : RegDesc where
  name := "PRT.RX_FCS_ERR"
  blk := 2
  spaces := [0]
  off := 0x0284
  sat := some (0x02D8, 1)
  fields := [⟨"V", 31, 0, .rc, [], []⟩]

/-- PRT.RX_RUNT, Table 2.3. -/
def Reg.PRT_RX_RUNT : RegDesc where
  name := "PRT.RX_RUNT"
  blk := 2
  spaces := [0]
  off := 0x0288
  sat := some (0x02D8, 2)
  fields := [⟨"V", 31, 0, .rc, [], []⟩]

/-- PRT.RX_OVERSIZE, Table 2.3. -/
def Reg.PRT_RX_OVERSIZE : RegDesc where
  name := "PRT.RX_OVERSIZE"
  blk := 2
  spaces := [0]
  off := 0x028C
  sat := some (0x02D8, 3)
  fields := [⟨"V", 31, 0, .rc, [], []⟩]

/-- PRT.RX_ADDR_DROP, Table 2.3. -/
def Reg.PRT_RX_ADDR_DROP : RegDesc where
  name := "PRT.RX_ADDR_DROP"
  blk := 2
  spaces := [0]
  off := 0x0290
  sat := some (0x02D8, 4)
  fields := [⟨"V", 31, 0, .rc, [], []⟩]

/-- PRT.RX_VLAN_DROP, Table 2.3. -/
def Reg.PRT_RX_VLAN_DROP : RegDesc where
  name := "PRT.RX_VLAN_DROP"
  blk := 2
  spaces := [0]
  off := 0x0294
  sat := some (0x02D8, 5)
  fields := [⟨"V", 31, 0, .rc, [], []⟩]

/-- PRT.RX_OVF_DROP, Table 2.3. -/
def Reg.PRT_RX_OVF_DROP : RegDesc where
  name := "PRT.RX_OVF_DROP"
  blk := 2
  spaces := [0]
  off := 0x0298
  sat := some (0x02D8, 6)
  fields := [⟨"V", 31, 0, .rc, [], []⟩]

/-- PRT.HRX_POLICE, Table 2.3. -/
def Reg.PRT_HRX_POLICE : RegDesc where
  name := "PRT.HRX_POLICE"
  blk := 2
  spaces := [0]
  off := 0x029C
  sat := some (0x02D8, 7)
  fields := [⟨"V", 31, 0, .rc, [], []⟩]

/-- PRT.HRX_DROP, Table 2.3. -/
def Reg.PRT_HRX_DROP : RegDesc where
  name := "PRT.HRX_DROP"
  blk := 2
  spaces := [0]
  off := 0x02A0
  sat := some (0x02D8, 8)
  fields := [⟨"V", 31, 0, .rc, [], []⟩]

/-- PRT.FWD_FRAMES, Table 2.3. -/
def Reg.PRT_FWD_FRAMES : RegDesc where
  name := "PRT.FWD_FRAMES"
  blk := 2
  spaces := [0]
  off := 0x02A4
  sat := some (0x02D8, 9)
  fields := [⟨"V", 31, 0, .rc, [], []⟩]

/-- PRT.FWD_DROP, Table 2.3. -/
def Reg.PRT_FWD_DROP : RegDesc where
  name := "PRT.FWD_DROP"
  blk := 2
  spaces := [0]
  off := 0x02A8
  sat := some (0x02D8, 10)
  fields := [⟨"V", 31, 0, .rc, [], []⟩]

/-- PRT.TX_FRAMES, Table 2.3. -/
def Reg.PRT_TX_FRAMES : RegDesc where
  name := "PRT.TX_FRAMES"
  blk := 2
  spaces := [0]
  off := 0x02AC
  sat := some (0x02D8, 11)
  fields := [⟨"V", 31, 0, .rc, [], []⟩]

/-- PRT.TX_ABORT, Table 2.3. -/
def Reg.PRT_TX_ABORT : RegDesc where
  name := "PRT.TX_ABORT"
  blk := 2
  spaces := [0]
  off := 0x02B0
  sat := some (0x02D8, 12)
  fields := [⟨"V", 31, 0, .rc, [], []⟩]

/-- PRT.TX_REFUSED, Table 2.3. -/
def Reg.PRT_TX_REFUSED : RegDesc where
  name := "PRT.TX_REFUSED"
  blk := 2
  spaces := [0]
  off := 0x02B4
  sat := some (0x02D8, 13)
  fields := [⟨"V", 31, 0, .rc, [], []⟩]

/-- PRT.TC_CORRECTED, Table 2.3. -/
def Reg.PRT_TC_CORRECTED : RegDesc where
  name := "PRT.TC_CORRECTED"
  blk := 2
  spaces := [0]
  off := 0x02B8
  sat := some (0x02D8, 14)
  fields := [⟨"V", 31, 0, .rc, [], []⟩]

/-- PRT.TC_FUP_MISS, Table 2.3. -/
def Reg.PRT_TC_FUP_MISS : RegDesc where
  name := "PRT.TC_FUP_MISS"
  blk := 2
  spaces := [0]
  off := 0x02BC
  sat := some (0x02D8, 15)
  fields := [⟨"V", 31, 0, .rc, [], []⟩]

/-- PRT.MIR_FOREIGN, Table 2.3. -/
def Reg.PRT_MIR_FOREIGN : RegDesc where
  name := "PRT.MIR_FOREIGN"
  blk := 2
  spaces := [0]
  off := 0x02C0
  sat := some (0x02D8, 16)
  fields := [⟨"V", 31, 0, .rc, [], []⟩]

/-- PRT.RX_BYTES_LO, Table 2.3. -/
def Reg.PRT_RX_BYTES_LO : RegDesc where
  name := "PRT.RX_BYTES_LO"
  blk := 2
  spaces := [0]
  off := 0x02C8
  fields := [⟨"V", 31, 0, .ro, [], []⟩]

/-- PRT.RX_BYTES_HI, Table 2.3. -/
def Reg.PRT_RX_BYTES_HI : RegDesc where
  name := "PRT.RX_BYTES_HI"
  blk := 2
  spaces := [0]
  off := 0x02CC
  fields := [⟨"V", 31, 0, .ro, [], []⟩]

/-- PRT.TX_BYTES_LO, Table 2.3. -/
def Reg.PRT_TX_BYTES_LO : RegDesc where
  name := "PRT.TX_BYTES_LO"
  blk := 2
  spaces := [0]
  off := 0x02D0
  fields := [⟨"V", 31, 0, .ro, [], []⟩]

/-- PRT.TX_BYTES_HI, Table 2.3. -/
def Reg.PRT_TX_BYTES_HI : RegDesc where
  name := "PRT.TX_BYTES_HI"
  blk := 2
  spaces := [0]
  off := 0x02D4
  fields := [⟨"V", 31, 0, .ro, [], []⟩]

/-- PRT.CNT_SAT, Table 2.3. -/
def Reg.PRT_CNT_SAT : RegDesc where
  name := "PRT.CNT_SAT"
  blk := 2
  spaces := [0]
  off := 0x02D8
  fields := [⟨"SAT", 16, 0, .w1c, [], []⟩]

/-- The registers of PRT (Table 2.3 and the field tables of its chapter). -/
def Reg.tablePRT : List RegDesc :=
  [Reg.PRT_SEL, Reg.PRT_IRQ_STATUS, Reg.PRT_IRQ_ENABLE, Reg.PRT_HRX_BASE_LO,
   Reg.PRT_HRX_BASE_HI, Reg.PRT_HRX_SIZE, Reg.PRT_HRX_QUEUE, Reg.PRT_HRX_HEAD,
   Reg.PRT_HRX_TAIL, Reg.PRT_MIR_ETYPE, Reg.PRT_PORT_CFG, Reg.PRT_PORT_STATUS,
   Reg.PRT_MAX_FRAME, Reg.PRT_VLAN_CFG, Reg.PRT_MAC_LO, Reg.PRT_MAC_HI,
   Reg.PRT_VLAN_IDX, Reg.PRT_VLAN_DATA, Reg.PRT_PAIR_CFG, Reg.PRT_UC_LO, Reg.PRT_UC_HI] ++
  [Reg.PRT_MC_LO, Reg.PRT_MC_HI, Reg.PRT_RX_FRAMES, Reg.PRT_RX_FCS_ERR, Reg.PRT_RX_RUNT,
   Reg.PRT_RX_OVERSIZE, Reg.PRT_RX_ADDR_DROP, Reg.PRT_RX_VLAN_DROP, Reg.PRT_RX_OVF_DROP,
   Reg.PRT_HRX_POLICE, Reg.PRT_HRX_DROP, Reg.PRT_FWD_FRAMES, Reg.PRT_FWD_DROP,
   Reg.PRT_TX_FRAMES, Reg.PRT_TX_ABORT, Reg.PRT_TX_REFUSED, Reg.PRT_TC_CORRECTED,
   Reg.PRT_TC_FUP_MISS, Reg.PRT_MIR_FOREIGN, Reg.PRT_RX_BYTES_LO, Reg.PRT_RX_BYTES_HI] ++
  [Reg.PRT_TX_BYTES_LO, Reg.PRT_TX_BYTES_HI, Reg.PRT_CNT_SAT]

/-- STR.SEL, Table 3.11. -/
def Reg.STR_SEL : RegDesc where
  name := "STR.SEL"
  blk := 3
  spaces := [15]
  off := 0x0000
  banked := true
  fields := [⟨"AINC", 31, 31, .rw, [], []⟩,
    ⟨"CTX", 12, 0, .rw, [], []⟩]

/-- STR.IRQ_STATUS, Table 3.11. -/
def Reg.STR_IRQ_STATUS : RegDesc where
  name := "STR.IRQ_STATUS"
  blk := 3
  spaces := [15]
  off := 0x0400
  fields := [⟨"INJ_ERR", 5, 5, .w1c, [], []⟩,
    ⟨"EXC_FULL", 4, 4, .w1c, [], []⟩,
    ⟨"AUTH_FAIL", 3, 3, .w1c, [], []⟩,
    ⟨"SET_REJECT", 2, 2, .w1c, [], []⟩,
    ⟨"REASM_DROP", 1, 1, .w1c, [], []⟩,
    ⟨"UNMATCHED", 0, 0, .w1c, [], []⟩]

/-- STR.IRQ_ENABLE, Table 3.11. -/
def Reg.STR_IRQ_ENABLE : RegDesc where
  name := "STR.IRQ_ENABLE"
  blk := 3
  spaces := [15]
  off := 0x0404
  fields := [⟨"INJ_ERR", 5, 5, .rw, [], []⟩,
    ⟨"EXC_FULL", 4, 4, .rw, [], []⟩,
    ⟨"AUTH_FAIL", 3, 3, .rw, [], []⟩,
    ⟨"SET_REJECT", 2, 2, .rw, [], []⟩,
    ⟨"REASM_DROP", 1, 1, .rw, [], []⟩,
    ⟨"UNMATCHED", 0, 0, .rw, [], []⟩]

/-- STR.COMMIT, Table 3.11. -/
def Reg.STR_COMMIT : RegDesc where
  name := "STR.COMMIT"
  blk := 3
  spaces := [15]
  off := 0x0408
  fields := [⟨"COMMIT", 0, 0, .wo, [], []⟩]

/-- STR.OFFGRID_TOL, Table 3.11. -/
def Reg.STR_OFFGRID_TOL : RegDesc where
  name := "STR.OFFGRID_TOL"
  blk := 3
  spaces := [15]
  off := 0x040C
  reset := 0x00001388
  fields := [⟨"V", 14, 0, .rws, [], [(1000, 30000)]⟩]

/-- STR.REASM_TIMEOUT, Table 3.11. -/
def Reg.STR_REASM_TIMEOUT : RegDesc where
  name := "STR.REASM_TIMEOUT"
  blk := 3
  spaces := [15]
  off := 0x0410
  reset := 0x000007D0
  fields := [⟨"V", 15, 0, .rw, [(500, 50000)], []⟩]

/-- STR.HASH_STATUS, Table 3.11. -/
def Reg.STR_HASH_STATUS : RegDesc where
  name := "STR.HASH_STATUS"
  blk := 3
  spaces := [15]
  off := 0x0414
  fields := [⟨"PLACED", 31, 31, .ro, [], []⟩,
    ⟨"CAM_USED", 22, 16, .ro, [], []⟩,
    ⟨"MAX_DISPLACE", 15, 8, .ro, [], []⟩]

/-- STR.LISTEN, Table 3.11. -/
def Reg.STR_LISTEN : RegDesc where
  name := "STR.LISTEN"
  blk := 3
  spaces := [15]
  off := 0x0420
  n := 16
  fields := [⟨"VALID", 31, 31, .ro, [], []⟩,
    ⟨"V6", 30, 30, .ro, [], []⟩,
    ⟨"V4", 29, 29, .ro, [], []⟩,
    ⟨"PROTO", 27, 24, .ro, [], []⟩,
    ⟨"UDP_PORT", 15, 0, .ro, [], []⟩]

/-- STR.EXC_RATE, Table 3.11. -/
def Reg.STR_EXC_RATE : RegDesc where
  name := "STR.EXC_RATE"
  blk := 3
  spaces := [15]
  off := 0x0460
  n := 8
  resetK := [(0, 0x00000010), (1, 0x00000100), (2, 0x00000040), (3, 0x00000000), (4, 0x00000010), (5, 0x00000010), (6, 0x00000000), (7, 0x00000010)]
  fields := [⟨"V", 15, 0, .rw, [], []⟩]

/-- STR.EXC_BASE_LO, Table 3.11. -/
def Reg.STR_EXC_BASE_LO : RegDesc where
  name := "STR.EXC_BASE_LO"
  blk := 3
  spaces := [15]
  off := 0x0480
  fields := [⟨"V", 31, 0, .rw, [], []⟩]

/-- STR.EXC_BASE_HI, Table 3.11. -/
def Reg.STR_EXC_BASE_HI : RegDesc where
  name := "STR.EXC_BASE_HI"
  blk := 3
  spaces := [15]
  off := 0x0484
  fields := [⟨"V", 31, 0, .rw, [], []⟩]

/-- STR.EXC_SIZE, Table 3.11. -/
def Reg.STR_EXC_SIZE : RegDesc where
  name := "STR.EXC_SIZE"
  blk := 3
  spaces := [15]
  off := 0x0488
  fields := [⟨"V", 15, 0, .rw, [(0, 0), (2, 4096)], []⟩]

/-- STR.EXC_HEAD, Table 3.11. -/
def Reg.STR_EXC_HEAD : RegDesc where
  name := "STR.EXC_HEAD"
  blk := 3
  spaces := [15]
  off := 0x048C
  fields := [⟨"V", 15, 0, .ro, [], []⟩]

/-- STR.EXC_TAIL, Table 3.11. -/
def Reg.STR_EXC_TAIL : RegDesc where
  name := "STR.EXC_TAIL"
  blk := 3
  spaces := [15]
  off := 0x0490
  fields := [⟨"V", 15, 0, .rw, [], []⟩]

/-- STR.INJ_BASE_LO, Table 3.11. -/
def Reg.STR_INJ_BASE_LO : RegDesc where
  name := "STR.INJ_BASE_LO"
  blk := 3
  spaces := [15]
  off := 0x04A0
  fields := [⟨"V", 31, 0, .rw, [], []⟩]

/-- STR.INJ_BASE_HI, Table 3.11. -/
def Reg.STR_INJ_BASE_HI : RegDesc where
  name := "STR.INJ_BASE_HI"
  blk := 3
  spaces := [15]
  off := 0x04A4
  fields := [⟨"V", 31, 0, .rw, [], []⟩]

/-- STR.INJ_SIZE, Table 3.11. -/
def Reg.STR_INJ_SIZE : RegDesc where
  name := "STR.INJ_SIZE"
  blk := 3
  spaces := [15]
  off := 0x04A8
  fields := [⟨"V", 15, 0, .rw, [(0, 0), (2, 1024)], []⟩]

/-- STR.INJ_HEAD, Table 3.11. -/
def Reg.STR_INJ_HEAD : RegDesc where
  name := "STR.INJ_HEAD"
  blk := 3
  spaces := [15]
  off := 0x04AC
  fields := [⟨"V", 15, 0, .ro, [], []⟩]

/-- STR.INJ_TAIL, Table 3.11. -/
def Reg.STR_INJ_TAIL : RegDesc where
  name := "STR.INJ_TAIL"
  blk := 3
  spaces := [15]
  off := 0x04B0
  fields := [⟨"V", 15, 0, .rw, [], []⟩]

/-- STR.G_UNMATCHED, Table 3.11. -/
def Reg.STR_G_UNMATCHED : RegDesc where
  name := "STR.G_UNMATCHED"
  blk := 3
  spaces := [15]
  off := 0x04C0
  sat := some (0x04F0, 0)
  fields := [⟨"V", 31, 0, .rc, [], []⟩]

/-- STR.G_PARSE_ERR, Table 3.11. -/
def Reg.STR_G_PARSE_ERR : RegDesc where
  name := "STR.G_PARSE_ERR"
  blk := 3
  spaces := [15]
  off := 0x04C4
  sat := some (0x04F0, 1)
  fields := [⟨"V", 31, 0, .rc, [], []⟩]

/-- STR.G_CRC_ERR, Table 3.11. -/
def Reg.STR_G_CRC_ERR : RegDesc where
  name := "STR.G_CRC_ERR"
  blk := 3
  spaces := [15]
  off := 0x04C8
  sat := some (0x04F0, 2)
  fields := [⟨"V", 31, 0, .rc, [], []⟩]

/-- STR.G_UNSUPPORTED, Table 3.11. -/
def Reg.STR_G_UNSUPPORTED : RegDesc where
  name := "STR.G_UNSUPPORTED"
  blk := 3
  spaces := [15]
  off := 0x04CC
  sat := some (0x04F0, 3)
  fields := [⟨"V", 31, 0, .rc, [], []⟩]

/-- STR.G_REASM_BIG, Table 3.11. -/
def Reg.STR_G_REASM_BIG : RegDesc where
  name := "STR.G_REASM_BIG"
  blk := 3
  spaces := [15]
  off := 0x04D0
  sat := some (0x04F0, 4)
  fields := [⟨"V", 31, 0, .rc, [], []⟩]

/-- STR.G_REASM_FULL, Table 3.11. -/
def Reg.STR_G_REASM_FULL : RegDesc where
  name := "STR.G_REASM_FULL"
  blk := 3
  spaces := [15]
  off := 0x04D4
  sat := some (0x04F0, 5)
  fields := [⟨"V", 31, 0, .rc, [], []⟩]

/-- STR.G_REASM_OVERLAP, Table 3.11. -/
def Reg.STR_G_REASM_OVERLAP : RegDesc where
  name := "STR.G_REASM_OVERLAP"
  blk := 3
  spaces := [15]
  off := 0x04D8
  sat := some (0x04F0, 6)
  fields := [⟨"V", 31, 0, .rc, [], []⟩]

/-- STR.G_REASM_TIMEOUT, Table 3.11. -/
def Reg.STR_G_REASM_TIMEOUT : RegDesc where
  name := "STR.G_REASM_TIMEOUT"
  blk := 3
  spaces := [15]
  off := 0x04DC
  sat := some (0x04F0, 7)
  fields := [⟨"V", 31, 0, .rc, [], []⟩]

/-- STR.G_EXC_SUPPRESSED, Table 3.11. -/
def Reg.STR_G_EXC_SUPPRESSED : RegDesc where
  name := "STR.G_EXC_SUPPRESSED"
  blk := 3
  spaces := [15]
  off := 0x04E0
  sat := some (0x04F0, 8)
  fields := [⟨"V", 31, 0, .rc, [], []⟩]

/-- STR.G_EXC_DROP, Table 3.11. -/
def Reg.STR_G_EXC_DROP : RegDesc where
  name := "STR.G_EXC_DROP"
  blk := 3
  spaces := [15]
  off := 0x04E4
  sat := some (0x04F0, 9)
  fields := [⟨"V", 31, 0, .rc, [], []⟩]

/-- STR.G_KEY_ABORT, Table 3.11. -/
def Reg.STR_G_KEY_ABORT : RegDesc where
  name := "STR.G_KEY_ABORT"
  blk := 3
  spaces := [15]
  off := 0x04E8
  sat := some (0x04F0, 10)
  fields := [⟨"V", 31, 0, .rc, [], []⟩]

/-- STR.G_INJ_REFUSED, Table 3.11. -/
def Reg.STR_G_INJ_REFUSED : RegDesc where
  name := "STR.G_INJ_REFUSED"
  blk := 3
  spaces := [15]
  off := 0x04EC
  sat := some (0x04F0, 11)
  fields := [⟨"V", 31, 0, .rc, [], []⟩]

/-- STR.G_CNT_SAT, Table 3.11. -/
def Reg.STR_G_CNT_SAT : RegDesc where
  name := "STR.G_CNT_SAT"
  blk := 3
  spaces := [15]
  off := 0x04F0
  fields := [⟨"SAT", 11, 0, .w1c, [], []⟩]

/-- STR.CTX_CTRL, Table 3.11. -/
def Reg.STR_CTX_CTRL : RegDesc where
  name := "STR.CTX_CTRL"
  blk := 3
  spaces := [0]
  off := 0x0040
  fields := [⟨"ENABLE", 31, 31, .rws, [], []⟩,
    ⟨"PATH", 30, 30, .ro, [], []⟩,
    ⟨"RING", 29, 29, .ro, [], []⟩,
    ⟨"ACCEPT_TEST", 28, 28, .rws, [], []⟩,
    ⟨"AUTH_REQ", 27, 27, .rws, [], []⟩,
    ⟨"REC_SIZE", 26, 25, .ro, [], []⟩,
    ⟨"RATE_MUL", 24, 24, .ro, [], []⟩,
    ⟨"RATE_N", 23, 16, .ro, [], []⟩,
    ⟨"PROTO", 15, 12, .ro, [], []⟩,
    ⟨"TQ_MAX", 11, 8, .rws, [], []⟩,
    ⟨"BLOCK", 7, 0, .ro, [], []⟩]

/-- STR.CTX_SRC, Table 3.11. -/
def Reg.STR_CTX_SRC : RegDesc where
  name := "STR.CTX_SRC"
  blk := 3
  spaces := [0]
  off := 0x0044
  n := 4
  fields := [⟨"V", 31, 0, .ro, [], []⟩]

/-- STR.CTX_PORT_ID, Table 3.11. -/
def Reg.STR_CTX_PORT_ID : RegDesc where
  name := "STR.CTX_PORT_ID"
  blk := 3
  spaces := [0]
  off := 0x0054
  fields := [⟨"IDCODE", 31, 16, .ro, [], []⟩,
    ⟨"UDP", 15, 0, .ro, [], []⟩]

/-- STR.CTX_SVID, Table 3.11. -/
def Reg.STR_CTX_SVID : RegDesc where
  name := "STR.CTX_SVID"
  blk := 3
  spaces := [0]
  off := 0x0058
  n := 11
  fields := [⟨"V", 31, 0, .ro, [], []⟩]

/-- STR.CTX_FORMAT, Table 3.11. -/
def Reg.STR_CTX_FORMAT : RegDesc where
  name := "STR.CTX_FORMAT"
  blk := 3
  spaces := [0]
  off := 0x0084
  fields := [⟨"PHNMR", 29, 24, .rws, [], [(0, 32)]⟩,
    ⟨"ANNMR", 21, 16, .rws, [], [(0, 32)]⟩,
    ⟨"DGNMR", 11, 8, .rws, [], [(0, 8)]⟩,
    ⟨"FORMAT", 3, 0, .rws, [], []⟩]

/-- STR.CTX_TIMEBASE, Table 3.11. -/
def Reg.STR_CTX_TIMEBASE : RegDesc where
  name := "STR.CTX_TIMEBASE"
  blk := 3
  spaces := [0]
  off := 0x0088
  fields := [⟨"TIME_BASE", 23, 0, .rws, [], []⟩]

/-- STR.CTX_FNOM, Table 3.11. -/
def Reg.STR_CTX_FNOM : RegDesc where
  name := "STR.CTX_FNOM"
  blk := 3
  spaces := [0]
  off := 0x008C
  fields := [⟨"V", 0, 0, .rws, [], []⟩]

/-- STR.CTX_VNOM, Table 3.11. -/
def Reg.STR_CTX_VNOM : RegDesc where
  name := "STR.CTX_VNOM"
  blk := 3
  spaces := [0]
  off := 0x0090
  fields := [⟨"V", 31, 0, .rws, [], []⟩]

/-- STR.CTX_INOM, Table 3.11. -/
def Reg.STR_CTX_INOM : RegDesc where
  name := "STR.CTX_INOM"
  blk := 3
  spaces := [0]
  off := 0x0094
  fields := [⟨"V", 31, 0, .rws, [], []⟩]

/-- STR.CTX_FEAT_SEL, Table 3.11. -/
def Reg.STR_CTX_FEAT_SEL : RegDesc where
  name := "STR.CTX_FEAT_SEL"
  blk := 3
  spaces := [0]
  off := 0x0098
  reset := 0xFFFFFF00
  fields := [⟨"D_SEL", 31, 24, .rws, [], []⟩,
    ⟨"I_SEL", 23, 16, .rws, [], []⟩,
    ⟨"V_SEL", 15, 8, .rws, [], []⟩,
    ⟨"V_SEQ", 7, 7, .rws, [], []⟩]

/-- STR.CTX_FEAT_DMASK, Table 3.11. -/
def Reg.STR_CTX_FEAT_DMASK : RegDesc where
  name := "STR.CTX_FEAT_DMASK"
  blk := 3
  spaces := [0]
  off := 0x009C
  reset := 0x0000FFFF
  fields := [⟨"V", 15, 0, .rws, [], []⟩]

/-- STR.CTX_KEY_SLOT, Table 3.11. -/
def Reg.STR_CTX_KEY_SLOT : RegDesc where
  name := "STR.CTX_KEY_SLOT"
  blk := 3
  spaces := [0]
  off := 0x00A0
  fields := [⟨"NEXT_SLOT", 13, 8, .rws, [], []⟩,
    ⟨"CUR_SLOT", 5, 0, .rws, [], []⟩]

/-- STR.CTX_SCALE, Table 3.11. -/
def Reg.STR_CTX_SCALE : RegDesc where
  name := "STR.CTX_SCALE"
  blk := 3
  spaces := [0]
  off := 0x0100
  n := 32
  reset := 0x3F800000
  fields := [⟨"V", 31, 0, .rws, [], []⟩]

/-- STR.CTX_RX_RECORDS, Table 3.11. -/
def Reg.STR_CTX_RX_RECORDS : RegDesc where
  name := "STR.CTX_RX_RECORDS"
  blk := 3
  spaces := [0]
  off := 0x0200
  sat := some (0x0238, 16)
  fields := [⟨"V", 31, 0, .rc, [], []⟩]

/-- STR.CRC_ERR, Table 3.11. -/
def Reg.STR_CRC_ERR : RegDesc where
  name := "STR.CRC_ERR"
  blk := 3
  spaces := [0]
  off := 0x0204
  sat := some (0x0238, 17)
  fields := [⟨"V", 31, 0, .rc, [], []⟩]

/-- STR.FORMAT_ERR, Table 3.11. -/
def Reg.STR_FORMAT_ERR : RegDesc where
  name := "STR.FORMAT_ERR"
  blk := 3
  spaces := [0]
  off := 0x0208
  sat := some (0x0238, 18)
  fields := [⟨"V", 31, 0, .rc, [], []⟩]

/-- STR.OFFGRID, Table 3.11. -/
def Reg.STR_OFFGRID : RegDesc where
  name := "STR.OFFGRID"
  blk := 3
  spaces := [0]
  off := 0x020C
  sat := some (0x0238, 19)
  fields := [⟨"V", 31, 0, .rc, [], []⟩]

/-- STR.DECIMATED, Table 3.11. -/
def Reg.STR_DECIMATED : RegDesc where
  name := "STR.DECIMATED"
  blk := 3
  spaces := [0]
  off := 0x0210
  sat := some (0x0238, 20)
  fields := [⟨"V", 31, 0, .rc, [], []⟩]

/-- STR.DROP_EARLY, Table 3.11. -/
def Reg.STR_DROP_EARLY : RegDesc where
  name := "STR.DROP_EARLY"
  blk := 3
  spaces := [0]
  off := 0x0214
  sat := some (0x0238, 21)
  fields := [⟨"V", 31, 0, .rc, [], []⟩]

/-- STR.RX_DISABLED, Table 3.11. -/
def Reg.STR_RX_DISABLED : RegDesc where
  name := "STR.RX_DISABLED"
  blk := 3
  spaces := [0]
  off := 0x0218
  sat := some (0x0238, 22)
  fields := [⟨"V", 31, 0, .rc, [], []⟩]

/-- STR.AUTH_FAIL, Table 3.11. -/
def Reg.STR_AUTH_FAIL : RegDesc where
  name := "STR.AUTH_FAIL"
  blk := 3
  spaces := [0]
  off := 0x021C
  sat := some (0x0238, 23)
  fields := [⟨"V", 31, 0, .rc, [], []⟩]

/-- STR.KEY_ABSENT, Table 3.11. -/
def Reg.STR_KEY_ABSENT : RegDesc where
  name := "STR.KEY_ABSENT"
  blk := 3
  spaces := [0]
  off := 0x0220
  sat := some (0x0238, 24)
  fields := [⟨"V", 31, 0, .rc, [], []⟩]

/-- STR.REPLAY, Table 3.11. -/
def Reg.STR_REPLAY : RegDesc where
  name := "STR.REPLAY"
  blk := 3
  spaces := [0]
  off := 0x0224
  sat := some (0x0238, 25)
  fields := [⟨"V", 31, 0, .rc, [], []⟩]

/-- STR.SRC_INVALID, Table 3.11. -/
def Reg.STR_SRC_INVALID : RegDesc where
  name := "STR.SRC_INVALID"
  blk := 3
  spaces := [0]
  off := 0x0228
  sat := some (0x0238, 26)
  fields := [⟨"V", 31, 0, .rc, [], []⟩]

/-- STR.SRC_UNLOCKED, Table 3.11. -/
def Reg.STR_SRC_UNLOCKED : RegDesc where
  name := "STR.SRC_UNLOCKED"
  blk := 3
  spaces := [0]
  off := 0x022C
  sat := some (0x0238, 27)
  fields := [⟨"V", 31, 0, .rc, [], []⟩]

/-- STR.CFG_CHANGE, Table 3.11. -/
def Reg.STR_CFG_CHANGE : RegDesc where
  name := "STR.CFG_CHANGE"
  blk := 3
  spaces := [0]
  off := 0x0230
  sat := some (0x0238, 28)
  fields := [⟨"V", 31, 0, .rc, [], []⟩]

/-- STR.NAN_RECORDS, Table 3.11. -/
def Reg.STR_NAN_RECORDS : RegDesc where
  name := "STR.NAN_RECORDS"
  blk := 3
  spaces := [0]
  off := 0x0234
  sat := some (0x0238, 29)
  fields := [⟨"V", 31, 0, .rc, [], []⟩]

/-- STR.CTX_CNT_SAT, Table 3.11. -/
def Reg.STR_CTX_CNT_SAT : RegDesc where
  name := "STR.CTX_CNT_SAT"
  blk := 3
  spaces := [0]
  off := 0x0238
  fields := [⟨"F", 29, 16, .w1c, [], []⟩,
    ⟨"F", 15, 0, .w1c, [], []⟩]

/-- STR.CTX_LAT_BIN, Table 3.11. -/
def Reg.STR_CTX_LAT_BIN : RegDesc where
  name := "STR.CTX_LAT_BIN"
  blk := 3
  spaces := [0]
  off := 0x0240
  n := 16
  sat := some (0x0238, 0)
  fields := [⟨"V", 31, 0, .rc, [], []⟩]

/-- STR.CTX_LAST_ARR_NS, Table 3.11. -/
def Reg.STR_CTX_LAST_ARR_NS : RegDesc where
  name := "STR.CTX_LAST_ARR_NS"
  blk := 3
  spaces := [0]
  off := 0x0280
  fields := [⟨"V", 31, 0, .ro, [], []⟩]

/-- STR.CTX_LAST_ARR_SEC_LO, Table 3.11. -/
def Reg.STR_CTX_LAST_ARR_SEC_LO : RegDesc where
  name := "STR.CTX_LAST_ARR_SEC_LO"
  blk := 3
  spaces := [0]
  off := 0x0284
  fields := [⟨"V", 31, 0, .ro, [], []⟩]

/-- STR.CTX_LAST_ARR_SEC_HI, Table 3.11. -/
def Reg.STR_CTX_LAST_ARR_SEC_HI : RegDesc where
  name := "STR.CTX_LAST_ARR_SEC_HI"
  blk := 3
  spaces := [0]
  off := 0x0288
  fields := [⟨"V", 31, 0, .ro, [], []⟩]

/-- STR.CTX_LAST_SLOT_SOC, Table 3.11. -/
def Reg.STR_CTX_LAST_SLOT_SOC : RegDesc where
  name := "STR.CTX_LAST_SLOT_SOC"
  blk := 3
  spaces := [0]
  off := 0x028C
  fields := [⟨"V", 31, 0, .ro, [], []⟩]

/-- STR.CTX_LAST_SLOT_IDX, Table 3.11. -/
def Reg.STR_CTX_LAST_SLOT_IDX : RegDesc where
  name := "STR.CTX_LAST_SLOT_IDX"
  blk := 3
  spaces := [0]
  off := 0x0290
  fields := [⟨"V", 7, 0, .ro, [], []⟩]

/-- STR.CTX_STATUS, Table 3.11. -/
def Reg.STR_CTX_STATUS : RegDesc where
  name := "STR.CTX_STATUS"
  blk := 3
  spaces := [0]
  off := 0x0294
  fields := [⟨"LAST_STATUS", 31, 28, .ro, [], []⟩,
    ⟨"SHADOW_PENDING", 27, 27, .ro, [], []⟩,
    ⟨"SET_REJECT", 26, 26, .w1c, [], []⟩,
    ⟨"SEEN", 25, 25, .ro, [], []⟩,
    ⟨"LAST_SRC_STAT", 15, 0, .ro, [], []⟩]

/-- STR.CTX_REPLAY_LAST, Table 3.11. -/
def Reg.STR_CTX_REPLAY_LAST : RegDesc where
  name := "STR.CTX_REPLAY_LAST"
  blk := 3
  spaces := [0]
  off := 0x0298
  fields := [⟨"V", 31, 0, .ro, [], []⟩]

/-- The registers of STR (Table 3.11 and the field tables of its chapter). -/
def Reg.tableSTR : List RegDesc :=
  [Reg.STR_SEL, Reg.STR_IRQ_STATUS, Reg.STR_IRQ_ENABLE, Reg.STR_COMMIT,
   Reg.STR_OFFGRID_TOL, Reg.STR_REASM_TIMEOUT, Reg.STR_HASH_STATUS, Reg.STR_LISTEN,
   Reg.STR_EXC_RATE, Reg.STR_EXC_BASE_LO, Reg.STR_EXC_BASE_HI, Reg.STR_EXC_SIZE,
   Reg.STR_EXC_HEAD, Reg.STR_EXC_TAIL, Reg.STR_INJ_BASE_LO, Reg.STR_INJ_BASE_HI,
   Reg.STR_INJ_SIZE, Reg.STR_INJ_HEAD, Reg.STR_INJ_TAIL, Reg.STR_G_UNMATCHED] ++
  [Reg.STR_G_PARSE_ERR, Reg.STR_G_CRC_ERR, Reg.STR_G_UNSUPPORTED, Reg.STR_G_REASM_BIG,
   Reg.STR_G_REASM_FULL, Reg.STR_G_REASM_OVERLAP, Reg.STR_G_REASM_TIMEOUT, Reg.STR_G_EXC_SUPPRESSED,
   Reg.STR_G_EXC_DROP, Reg.STR_G_KEY_ABORT, Reg.STR_G_INJ_REFUSED, Reg.STR_G_CNT_SAT,
   Reg.STR_CTX_CTRL, Reg.STR_CTX_SRC, Reg.STR_CTX_PORT_ID, Reg.STR_CTX_SVID,
   Reg.STR_CTX_FORMAT, Reg.STR_CTX_TIMEBASE, Reg.STR_CTX_FNOM, Reg.STR_CTX_VNOM] ++
  [Reg.STR_CTX_INOM, Reg.STR_CTX_FEAT_SEL, Reg.STR_CTX_FEAT_DMASK, Reg.STR_CTX_KEY_SLOT,
   Reg.STR_CTX_SCALE, Reg.STR_CTX_RX_RECORDS, Reg.STR_CRC_ERR, Reg.STR_FORMAT_ERR,
   Reg.STR_OFFGRID, Reg.STR_DECIMATED, Reg.STR_DROP_EARLY, Reg.STR_RX_DISABLED,
   Reg.STR_AUTH_FAIL, Reg.STR_KEY_ABSENT, Reg.STR_REPLAY, Reg.STR_SRC_INVALID,
   Reg.STR_SRC_UNLOCKED, Reg.STR_CFG_CHANGE, Reg.STR_NAN_RECORDS, Reg.STR_CTX_CNT_SAT] ++
  [Reg.STR_CTX_LAT_BIN, Reg.STR_CTX_LAST_ARR_NS, Reg.STR_CTX_LAST_ARR_SEC_LO, Reg.STR_CTX_LAST_ARR_SEC_HI,
   Reg.STR_CTX_LAST_SLOT_SOC, Reg.STR_CTX_LAST_SLOT_IDX, Reg.STR_CTX_STATUS, Reg.STR_CTX_REPLAY_LAST]

end Sys2Proof.Machine
end

