-- ==== Sys2Proof/Machine/RegMapB.lean ====
section
/-! DEFINITION. The register maps of ALN, OUT, RPL, ISL, ALM, one descriptor per register, from the register tables of the spec. -/

namespace Sys2Proof.Machine

/-- ALN.SEL, Table 4.8. -/
def Reg.ALN_SEL : RegDesc where
  name := "ALN.SEL"
  blk := 4
  spaces := [15]
  off := 0x0000
  banked := true
  fields := [⟨"AINC", 31, 31, .rw, [], []⟩,
    ⟨"SPACE", 30, 29, .rw, [], []⟩,
    ⟨"INDEX", 12, 0, .rw, [], []⟩]

/-- ALN.IRQ_STATUS, Table 4.8. -/
def Reg.ALN_IRQ_STATUS : RegDesc where
  name := "ALN.IRQ_STATUS"
  blk := 4
  spaces := [15]
  off := 0x0400
  fields := [⟨"SET_REJECT", 5, 5, .w1c, [], []⟩,
    ⟨"FORCED_FREE", 4, 4, .w1c, [], []⟩,
    ⟨"RESTART", 3, 3, .w1c, [], []⟩,
    ⟨"SILENT", 2, 2, .w1c, [], []⟩,
    ⟨"REJOIN", 1, 1, .w1c, [], []⟩,
    ⟨"TOO_LATE", 0, 0, .w1c, [], []⟩]

/-- ALN.IRQ_ENABLE, Table 4.8. -/
def Reg.ALN_IRQ_ENABLE : RegDesc where
  name := "ALN.IRQ_ENABLE"
  blk := 4
  spaces := [15]
  off := 0x0404
  fields := [⟨"SET_REJECT", 5, 5, .rw, [], []⟩,
    ⟨"FORCED_FREE", 4, 4, .rw, [], []⟩,
    ⟨"RESTART", 3, 3, .rw, [], []⟩,
    ⟨"SILENT", 2, 2, .rw, [], []⟩,
    ⟨"REJOIN", 1, 1, .rw, [], []⟩,
    ⟨"TOO_LATE", 0, 0, .rw, [], []⟩]

/-- ALN.COMMIT, Table 4.8. -/
def Reg.ALN_COMMIT : RegDesc where
  name := "ALN.COMMIT"
  blk := 4
  spaces := [15]
  off := 0x0408
  fields := [⟨"COMMIT", 0, 0, .wo, [], []⟩]

/-- ALN.STATUS, Table 4.8. -/
def Reg.ALN_STATUS : RegDesc where
  name := "ALN.STATUS"
  blk := 4
  spaces := [15]
  off := 0x040C
  fields := [⟨"SHADOW_PENDING", 31, 31, .ro, [], []⟩,
    ⟨"SLOW_RUN", 1, 1, .ro, [], []⟩,
    ⟨"MAIN_RUN", 0, 0, .ro, [], []⟩]

/-- ALN.CUR_SEQ_M, Table 4.8. -/
def Reg.ALN_CUR_SEQ_M : RegDesc where
  name := "ALN.CUR_SEQ_M"
  blk := 4
  spaces := [15]
  off := 0x0410
  fields := [⟨"V", 31, 0, .ro, [], []⟩]

/-- ALN.CUR_SEQ_S, Table 4.8. -/
def Reg.ALN_CUR_SEQ_S : RegDesc where
  name := "ALN.CUR_SEQ_S"
  blk := 4
  spaces := [15]
  off := 0x0414
  fields := [⟨"V", 31, 0, .ro, [], []⟩]

/-- ALN.RING_CFG, Table 4.8. -/
def Reg.ALN_RING_CFG : RegDesc where
  name := "ALN.RING_CFG"
  blk := 4
  spaces := [15]
  off := 0x0440
  n := 2
  stride := 0x40
  reset := 0x00800000
  fields := [⟨"ENABLE", 31, 31, .ro, [], []⟩,
    ⟨"SILENT_N", 27, 20, .rws, [], [(1, 255)]⟩,
    ⟨"DEPTH", 9, 0, .ro, [], []⟩]

/-- ALN.RING_BASE_LO, Table 4.8. -/
def Reg.ALN_RING_BASE_LO : RegDesc where
  name := "ALN.RING_BASE_LO"
  blk := 4
  spaces := [15]
  off := 0x0444
  n := 2
  stride := 0x40
  fields := [⟨"V", 31, 0, .ro, [], []⟩]

/-- ALN.RING_BASE_HI, Table 4.8. -/
def Reg.ALN_RING_BASE_HI : RegDesc where
  name := "ALN.RING_BASE_HI"
  blk := 4
  spaces := [15]
  off := 0x0448
  n := 2
  stride := 0x40
  fields := [⟨"V", 31, 0, .ro, [], []⟩]

/-- ALN.BASIN_STRIDE, Table 4.8. -/
def Reg.ALN_BASIN_STRIDE : RegDesc where
  name := "ALN.BASIN_STRIDE"
  blk := 4
  spaces := [15]
  off := 0x044C
  n := 2
  stride := 0x40
  fields := [⟨"V", 6, 0, .ro, [], []⟩]

/-- ALN.RETAIN, Table 4.8. -/
def Reg.ALN_RETAIN : RegDesc where
  name := "ALN.RETAIN"
  blk := 4
  spaces := [15]
  off := 0x0450
  n := 2
  stride := 0x40
  fields := [⟨"V", 15, 0, .rws, [], []⟩]

/-- ALN.WA_MODE, Table 4.8. -/
def Reg.ALN_WA_MODE : RegDesc where
  name := "ALN.WA_MODE"
  blk := 4
  spaces := [15]
  off := 0x0454
  n := 2
  stride := 0x40
  reset := 0x00000004
  fields := [⟨"Q", 3, 2, .rws, [], []⟩,
    ⟨"MODE", 1, 0, .rws, [(0, 2)], []⟩]

/-- ALN.WA_W, Table 4.8. -/
def Reg.ALN_WA_W : RegDesc where
  name := "ALN.WA_W"
  blk := 4
  spaces := [15]
  off := 0x0458
  n := 2
  stride := 0x40
  reset := 0x000007D0
  fields := [⟨"V", 24, 0, .rws, [], []⟩]

/-- ALN.WA_WMIN, Table 4.8. -/
def Reg.ALN_WA_WMIN : RegDesc where
  name := "ALN.WA_WMIN"
  blk := 4
  spaces := [15]
  off := 0x045C
  n := 2
  stride := 0x40
  reset := 0x000001F4
  fields := [⟨"V", 24, 0, .rws, [], []⟩]

/-- ALN.WA_WMAX, Table 4.8. -/
def Reg.ALN_WA_WMAX : RegDesc where
  name := "ALN.WA_WMAX"
  blk := 4
  spaces := [15]
  off := 0x0460
  n := 2
  stride := 0x40
  reset := 0x00000FA0
  fields := [⟨"V", 24, 0, .rws, [], []⟩]

/-- ALN.WB_MODE, Table 4.8. -/
def Reg.ALN_WB_MODE : RegDesc where
  name := "ALN.WB_MODE"
  blk := 4
  spaces := [15]
  off := 0x0464
  n := 2
  stride := 0x40
  reset := 0x00000004
  fields := [⟨"Q", 3, 2, .rws, [], []⟩,
    ⟨"MODE", 1, 0, .rws, [(0, 2)], []⟩]

/-- ALN.WB_W, Table 4.8. -/
def Reg.ALN_WB_W : RegDesc where
  name := "ALN.WB_W"
  blk := 4
  spaces := [15]
  off := 0x0468
  n := 2
  stride := 0x40
  reset := 0x00001388
  fields := [⟨"V", 24, 0, .rws, [], []⟩]

/-- ALN.WB_WMIN, Table 4.8. -/
def Reg.ALN_WB_WMIN : RegDesc where
  name := "ALN.WB_WMIN"
  blk := 4
  spaces := [15]
  off := 0x046C
  n := 2
  stride := 0x40
  reset := 0x000003E8
  fields := [⟨"V", 24, 0, .rws, [], []⟩]

/-- ALN.WB_WMAX, Table 4.8. -/
def Reg.ALN_WB_WMAX : RegDesc where
  name := "ALN.WB_WMAX"
  blk := 4
  spaces := [15]
  off := 0x0470
  n := 2
  stride := 0x40
  reset := 0x00004E20
  fields := [⟨"V", 24, 0, .rws, [], []⟩]

/-- ALN.RING_RATE, Table 4.8. -/
def Reg.ALN_RING_RATE : RegDesc where
  name := "ALN.RING_RATE"
  blk := 4
  spaces := [15]
  off := 0x0474
  n := 2
  stride := 0x40
  fields := [⟨"V", 7, 0, .ro, [], []⟩]

/-- ALN.WA_SPACING_HOLDS, Table 4.8. -/
def Reg.ALN_WA_SPACING_HOLDS : RegDesc where
  name := "ALN.WA_SPACING_HOLDS"
  blk := 4
  spaces := [15]
  off := 0x0500
  sat := some (0x0504, 0)
  fields := [⟨"V", 31, 0, .rc, [], []⟩]

/-- ALN.WA_SPACING_HOLDS_SAT, Table 4.8. -/
def Reg.ALN_WA_SPACING_HOLDS_SAT : RegDesc where
  name := "ALN.WA_SPACING_HOLDS_SAT"
  blk := 4
  spaces := [15]
  off := 0x0504
  fields := [⟨"SAT", 0, 0, .w1c, [], []⟩]

/-- ALN.RING_FORCED_FREE, Table 4.8. -/
def Reg.ALN_RING_FORCED_FREE : RegDesc where
  name := "ALN.RING_FORCED_FREE"
  blk := 4
  spaces := [15]
  off := 0x0508
  sat := some (0x050C, 0)
  fields := [⟨"V", 31, 0, .rc, [], []⟩]

/-- ALN.RING_FORCED_FREE_SAT, Table 4.8. -/
def Reg.ALN_RING_FORCED_FREE_SAT : RegDesc where
  name := "ALN.RING_FORCED_FREE_SAT"
  blk := 4
  spaces := [15]
  off := 0x050C
  fields := [⟨"SAT", 0, 0, .w1c, [], []⟩]

/-- ALN.G_TOO_LATE, Table 4.8. -/
def Reg.ALN_G_TOO_LATE : RegDesc where
  name := "ALN.G_TOO_LATE"
  blk := 4
  spaces := [15]
  off := 0x0510
  sat := some (0x0514, 0)
  fields := [⟨"V", 31, 0, .rc, [], []⟩]

/-- ALN.G_TOO_LATE_SAT, Table 4.8. -/
def Reg.ALN_G_TOO_LATE_SAT : RegDesc where
  name := "ALN.G_TOO_LATE_SAT"
  blk := 4
  spaces := [15]
  off := 0x0514
  fields := [⟨"SAT", 0, 0, .w1c, [], []⟩]

/-- ALN.G_DUP, Table 4.8. -/
def Reg.ALN_G_DUP : RegDesc where
  name := "ALN.G_DUP"
  blk := 4
  spaces := [15]
  off := 0x0518
  sat := some (0x051C, 0)
  fields := [⟨"V", 31, 0, .rc, [], []⟩]

/-- ALN.G_DUP_SAT, Table 4.8. -/
def Reg.ALN_G_DUP_SAT : RegDesc where
  name := "ALN.G_DUP_SAT"
  blk := 4
  spaces := [15]
  off := 0x051C
  fields := [⟨"SAT", 0, 0, .w1c, [], []⟩]

/-- ALN.SHADOW_DEFER, Table 4.8. -/
def Reg.ALN_SHADOW_DEFER : RegDesc where
  name := "ALN.SHADOW_DEFER"
  blk := 4
  spaces := [15]
  off := 0x0520
  sat := some (0x0524, 0)
  fields := [⟨"V", 31, 0, .rc, [], []⟩]

/-- ALN.SHADOW_DEFER_SAT, Table 4.8. -/
def Reg.ALN_SHADOW_DEFER_SAT : RegDesc where
  name := "ALN.SHADOW_DEFER_SAT"
  blk := 4
  spaces := [15]
  off := 0x0524
  fields := [⟨"SAT", 0, 0, .w1c, [], []⟩]

/-- ALN.RESTARTS, Table 4.8. -/
def Reg.ALN_RESTARTS : RegDesc where
  name := "ALN.RESTARTS"
  blk := 4
  spaces := [15]
  off := 0x0528
  sat := some (0x052C, 0)
  fields := [⟨"V", 31, 0, .rc, [], []⟩]

/-- ALN.RESTARTS_SAT, Table 4.8. -/
def Reg.ALN_RESTARTS_SAT : RegDesc where
  name := "ALN.RESTARTS_SAT"
  blk := 4
  spaces := [15]
  off := 0x052C
  fields := [⟨"SAT", 0, 0, .w1c, [], []⟩]

/-- ALN.CTX_WEIR, Table 4.8. -/
def Reg.ALN_CTX_WEIR : RegDesc where
  name := "ALN.CTX_WEIR"
  blk := 4
  spaces := [0]
  off := 0x0040
  reset := 0x80580000
  fields := [⟨"HOLD", 31, 31, .rws, [], []⟩,
    ⟨"PART", 29, 24, .rws, [], []⟩,
    ⟨"AGE_SHIFT", 23, 19, .rws, [], [(11, 16)]⟩]

/-- ALN.CTX_INIT_LAT, Table 4.8. -/
def Reg.ALN_CTX_INIT_LAT : RegDesc where
  name := "ALN.CTX_INIT_LAT"
  blk := 4
  spaces := [0]
  off := 0x0044
  fields := [⟨"V", 24, 0, .rws, [], []⟩]

/-- ALN.CTX_OFFSET, Table 4.8. -/
def Reg.ALN_CTX_OFFSET : RegDesc where
  name := "ALN.CTX_OFFSET"
  blk := 4
  spaces := [0]
  off := 0x0048
  fields := [⟨"V", 21, 6, .ro, [], []⟩]

/-- ALN.CTX_STATE, Table 4.8. -/
def Reg.ALN_CTX_STATE : RegDesc where
  name := "ALN.CTX_STATE"
  blk := 4
  spaces := [0]
  off := 0x004C
  reset := 0x40000000
  fields := [⟨"SILENT", 31, 31, .ro, [], []⟩,
    ⟨"WEIR_LEARNING", 30, 30, .ro, [], []⟩,
    ⟨"SHADOW_PENDING", 29, 29, .ro, [], []⟩,
    ⟨"SET_REJECT", 28, 28, .w1c, [], []⟩,
    ⟨"MISS_RUN", 23, 16, .ro, [], []⟩,
    ⟨"SEEN", 8, 0, .ro, [], []⟩]

/-- ALN.CTX_W_A, Table 4.8. -/
def Reg.ALN_CTX_W_A : RegDesc where
  name := "ALN.CTX_W_A"
  blk := 4
  spaces := [0]
  off := 0x0050
  fields := [⟨"V", 24, 0, .ro, [], []⟩]

/-- ALN.CTX_W_B, Table 4.8. -/
def Reg.ALN_CTX_W_B : RegDesc where
  name := "ALN.CTX_W_B"
  blk := 4
  spaces := [0]
  off := 0x0054
  fields := [⟨"V", 24, 0, .ro, [], []⟩]

/-- ALN.CTX_CMD, Table 4.8. -/
def Reg.ALN_CTX_CMD : RegDesc where
  name := "ALN.CTX_CMD"
  blk := 4
  spaces := [0]
  off := 0x0058
  fields := [⟨"RELEARN", 0, 0, .wo, [], []⟩]

/-- ALN.CTX_HIST, Table 4.8. -/
def Reg.ALN_CTX_HIST : RegDesc where
  name := "ALN.CTX_HIST"
  blk := 4
  spaces := [0]
  off := 0x0080
  n := 16
  fields := [⟨"V", 31, 0, .ro, [], []⟩]

/-- ALN.CTX_MARKED, Table 4.8. -/
def Reg.ALN_CTX_MARKED : RegDesc where
  name := "ALN.CTX_MARKED"
  blk := 4
  spaces := [0]
  off := 0x0100
  sat := some (0x011C, 0)
  fields := [⟨"V", 31, 0, .rc, [], []⟩]

/-- ALN.CTX_AFTER_A, Table 4.8. -/
def Reg.ALN_CTX_AFTER_A : RegDesc where
  name := "ALN.CTX_AFTER_A"
  blk := 4
  spaces := [0]
  off := 0x0104
  sat := some (0x011C, 1)
  fields := [⟨"V", 31, 0, .rc, [], []⟩]

/-- ALN.CTX_LATE, Table 4.8. -/
def Reg.ALN_CTX_LATE : RegDesc where
  name := "ALN.CTX_LATE"
  blk := 4
  spaces := [0]
  off := 0x0108
  sat := some (0x011C, 2)
  fields := [⟨"V", 31, 0, .rc, [], []⟩]

/-- ALN.CTX_TOO_LATE, Table 4.8. -/
def Reg.ALN_CTX_TOO_LATE : RegDesc where
  name := "ALN.CTX_TOO_LATE"
  blk := 4
  spaces := [0]
  off := 0x010C
  sat := some (0x011C, 3)
  fields := [⟨"V", 31, 0, .rc, [], []⟩]

/-- ALN.CTX_DUP, Table 4.8. -/
def Reg.ALN_CTX_DUP : RegDesc where
  name := "ALN.CTX_DUP"
  blk := 4
  spaces := [0]
  off := 0x0110
  sat := some (0x011C, 4)
  fields := [⟨"V", 31, 0, .rc, [], []⟩]

/-- ALN.CTX_MISSING, Table 4.8. -/
def Reg.ALN_CTX_MISSING : RegDesc where
  name := "ALN.CTX_MISSING"
  blk := 4
  spaces := [0]
  off := 0x0114
  sat := some (0x011C, 5)
  fields := [⟨"V", 31, 0, .rc, [], []⟩]

/-- ALN.CTX_SILENCED, Table 4.8. -/
def Reg.ALN_CTX_SILENCED : RegDesc where
  name := "ALN.CTX_SILENCED"
  blk := 4
  spaces := [0]
  off := 0x0118
  sat := some (0x011C, 6)
  fields := [⟨"V", 31, 0, .rc, [], []⟩]

/-- ALN.CTX_CNT_SAT, Table 4.8. -/
def Reg.ALN_CTX_CNT_SAT : RegDesc where
  name := "ALN.CTX_CNT_SAT"
  blk := 4
  spaces := [0]
  off := 0x011C
  fields := [⟨"SAT", 6, 0, .w1c, [], []⟩]

/-- ALN.BSN_STATE, Table 4.8. -/
def Reg.ALN_BSN_STATE : RegDesc where
  name := "ALN.BSN_STATE"
  blk := 4
  spaces := [1, 2]
  off := 0x0040
  fields := [⟨"STATE", 31, 29, .ro, [], []⟩,
    ⟨"LATE_CLOSED", 28, 28, .ro, [], []⟩,
    ⟨"ARCHIVING", 27, 27, .ro, [], []⟩,
    ⟨"FORCED_FREE", 26, 26, .ro, [], []⟩,
    ⟨"WA_SPACED", 25, 25, .ro, [], []⟩,
    ⟨"CAUSE_A", 23, 22, .ro, [], []⟩,
    ⟨"CAUSE_B", 21, 20, .ro, [], []⟩,
    ⟨"RING", 8, 8, .ro, [], []⟩,
    ⟨"SLOT_IDX", 7, 0, .ro, [], []⟩]

/-- ALN.BSN_SEQ, Table 4.8. -/
def Reg.ALN_BSN_SEQ : RegDesc where
  name := "ALN.BSN_SEQ"
  blk := 4
  spaces := [1, 2]
  off := 0x0044
  fields := [⟨"V", 31, 0, .ro, [], []⟩]

/-- ALN.BSN_SOC, Table 4.8. -/
def Reg.ALN_BSN_SOC : RegDesc where
  name := "ALN.BSN_SOC"
  blk := 4
  spaces := [1, 2]
  off := 0x0048
  fields := [⟨"V", 31, 0, .ro, [], []⟩]

/-- ALN.BSN_WA_OFFSET, Table 4.8. -/
def Reg.ALN_BSN_WA_OFFSET : RegDesc where
  name := "ALN.BSN_WA_OFFSET"
  blk := 4
  spaces := [1, 2]
  off := 0x004C
  fields := [⟨"V", 31, 0, .ro, [], []⟩]

/-- ALN.BSN_WB_OFFSET, Table 4.8. -/
def Reg.ALN_BSN_WB_OFFSET : RegDesc where
  name := "ALN.BSN_WB_OFFSET"
  blk := 4
  spaces := [1, 2]
  off := 0x0050
  fields := [⟨"V", 31, 0, .ro, [], []⟩]

/-- ALN.BSN_COUNT_A, Table 4.8. -/
def Reg.ALN_BSN_COUNT_A : RegDesc where
  name := "ALN.BSN_COUNT_A"
  blk := 4
  spaces := [1, 2]
  off := 0x0054
  fields := [⟨"EXPECTED", 29, 16, .ro, [], []⟩,
    ⟨"ARRIVED_A", 13, 0, .ro, [], []⟩]

/-- ALN.BSN_COUNT_B, Table 4.8. -/
def Reg.ALN_BSN_COUNT_B : RegDesc where
  name := "ALN.BSN_COUNT_B"
  blk := 4
  spaces := [1, 2]
  off := 0x0058
  fields := [⟨"ARRIVED_B", 29, 16, .ro, [], []⟩,
    ⟨"LATE_FILLED", 13, 0, .ro, [], []⟩]

/-- ALN.BSN_COUNT_U, Table 4.8. -/
def Reg.ALN_BSN_COUNT_U : RegDesc where
  name := "ALN.BSN_COUNT_U"
  blk := 4
  spaces := [1, 2]
  off := 0x005C
  fields := [⟨"V", 13, 0, .ro, [], []⟩]

/-- ALN.BSN_BMP_IDX, Table 4.8. -/
def Reg.ALN_BSN_BMP_IDX : RegDesc where
  name := "ALN.BSN_BMP_IDX"
  blk := 4
  spaces := [1, 2]
  off := 0x0060
  banked := true
  fields := [⟨"V", 7, 0, .rw, [], []⟩]

/-- ALN.BSN_BMP_DATA, Table 4.8. -/
def Reg.ALN_BSN_BMP_DATA : RegDesc where
  name := "ALN.BSN_BMP_DATA"
  blk := 4
  spaces := [1, 2]
  off := 0x0064
  fields := [⟨"V", 31, 0, .ro, [], []⟩]

/-- ALN.PART_CFG, Table 4.8. -/
def Reg.ALN_PART_CFG : RegDesc where
  name := "ALN.PART_CFG"
  blk := 4
  spaces := [3]
  off := 0x0040
  fields := [⟨"RING", 8, 8, .rws, [], []⟩,
    ⟨"QUORUM", 7, 0, .rws, [], [(0, 100)]⟩]

/-- ALN.PART_LAST, Table 4.8. -/
def Reg.ALN_PART_LAST : RegDesc where
  name := "ALN.PART_LAST"
  blk := 4
  spaces := [3]
  off := 0x0044
  fields := [⟨"F", 29, 16, .ro, [], []⟩,
    ⟨"F", 13, 0, .ro, [], []⟩]

/-- ALN.PART_LAST_TO_MEET, Table 4.8. -/
def Reg.ALN_PART_LAST_TO_MEET : RegDesc where
  name := "ALN.PART_LAST_TO_MEET"
  blk := 4
  spaces := [3]
  off := 0x0048
  sat := some (0x0050, 0)
  fields := [⟨"V", 31, 0, .rc, [], []⟩]

/-- ALN.PART_SHORT, Table 4.8. -/
def Reg.ALN_PART_SHORT : RegDesc where
  name := "ALN.PART_SHORT"
  blk := 4
  spaces := [3]
  off := 0x004C
  sat := some (0x0050, 1)
  fields := [⟨"V", 31, 0, .rc, [], []⟩]

/-- ALN.PART_CNT_SAT, Table 4.8. -/
def Reg.ALN_PART_CNT_SAT : RegDesc where
  name := "ALN.PART_CNT_SAT"
  blk := 4
  spaces := [3]
  off := 0x0050
  fields := [⟨"SAT", 1, 0, .w1c, [], []⟩]

/-- The registers of ALN (Table 4.8 and the field tables of its chapter). -/
def Reg.tableALN : List RegDesc :=
  [Reg.ALN_SEL, Reg.ALN_IRQ_STATUS, Reg.ALN_IRQ_ENABLE, Reg.ALN_COMMIT,
   Reg.ALN_STATUS, Reg.ALN_CUR_SEQ_M, Reg.ALN_CUR_SEQ_S, Reg.ALN_RING_CFG,
   Reg.ALN_RING_BASE_LO, Reg.ALN_RING_BASE_HI, Reg.ALN_BASIN_STRIDE, Reg.ALN_RETAIN,
   Reg.ALN_WA_MODE, Reg.ALN_WA_W, Reg.ALN_WA_WMIN, Reg.ALN_WA_WMAX,
   Reg.ALN_WB_MODE, Reg.ALN_WB_W, Reg.ALN_WB_WMIN, Reg.ALN_WB_WMAX] ++
  [Reg.ALN_RING_RATE, Reg.ALN_WA_SPACING_HOLDS, Reg.ALN_WA_SPACING_HOLDS_SAT, Reg.ALN_RING_FORCED_FREE,
   Reg.ALN_RING_FORCED_FREE_SAT, Reg.ALN_G_TOO_LATE, Reg.ALN_G_TOO_LATE_SAT, Reg.ALN_G_DUP,
   Reg.ALN_G_DUP_SAT, Reg.ALN_SHADOW_DEFER, Reg.ALN_SHADOW_DEFER_SAT, Reg.ALN_RESTARTS,
   Reg.ALN_RESTARTS_SAT, Reg.ALN_CTX_WEIR, Reg.ALN_CTX_INIT_LAT, Reg.ALN_CTX_OFFSET,
   Reg.ALN_CTX_STATE, Reg.ALN_CTX_W_A, Reg.ALN_CTX_W_B, Reg.ALN_CTX_CMD] ++
  [Reg.ALN_CTX_HIST, Reg.ALN_CTX_MARKED, Reg.ALN_CTX_AFTER_A, Reg.ALN_CTX_LATE,
   Reg.ALN_CTX_TOO_LATE, Reg.ALN_CTX_DUP, Reg.ALN_CTX_MISSING, Reg.ALN_CTX_SILENCED,
   Reg.ALN_CTX_CNT_SAT, Reg.ALN_BSN_STATE, Reg.ALN_BSN_SEQ, Reg.ALN_BSN_SOC,
   Reg.ALN_BSN_WA_OFFSET, Reg.ALN_BSN_WB_OFFSET, Reg.ALN_BSN_COUNT_A, Reg.ALN_BSN_COUNT_B,
   Reg.ALN_BSN_COUNT_U, Reg.ALN_BSN_BMP_IDX, Reg.ALN_BSN_BMP_DATA, Reg.ALN_PART_CFG] ++
  [Reg.ALN_PART_LAST, Reg.ALN_PART_LAST_TO_MEET, Reg.ALN_PART_SHORT, Reg.ALN_PART_CNT_SAT]

/-- OUT.SEL, Table 5.6. -/
def Reg.OUT_SEL : RegDesc where
  name := "OUT.SEL"
  blk := 5
  spaces := [15]
  off := 0x0000
  banked := true
  fields := [⟨"AINC", 31, 31, .rw, [], []⟩,
    ⟨"SPACE", 30, 29, .rw, [(0, 2)], []⟩,
    ⟨"INDEX", 9, 0, .rw, [], []⟩]

/-- OUT.IRQ_STATUS, Table 5.6. -/
def Reg.OUT_IRQ_STATUS : RegDesc where
  name := "OUT.IRQ_STATUS"
  blk := 5
  spaces := [15]
  off := 0x0400
  fields := [⟨"SET_REJECT", 4, 4, .w1c, [], []⟩,
    ⟨"KEY_ABSENT", 3, 3, .w1c, [], []⟩,
    ⟨"SESS_RESET", 2, 2, .w1c, [], []⟩,
    ⟨"LAUNCH_LATE", 1, 1, .w1c, [], []⟩,
    ⟨"CMD_IN", 0, 0, .w1c, [], []⟩]

/-- OUT.IRQ_ENABLE, Table 5.6. -/
def Reg.OUT_IRQ_ENABLE : RegDesc where
  name := "OUT.IRQ_ENABLE"
  blk := 5
  spaces := [15]
  off := 0x0404
  fields := [⟨"SET_REJECT", 4, 4, .rw, [], []⟩,
    ⟨"KEY_ABSENT", 3, 3, .rw, [], []⟩,
    ⟨"SESS_RESET", 2, 2, .rw, [], []⟩,
    ⟨"LAUNCH_LATE", 1, 1, .rw, [], []⟩,
    ⟨"CMD_IN", 0, 0, .rw, [], []⟩]

/-- OUT.COMMIT, Table 5.6. -/
def Reg.OUT_COMMIT : RegDesc where
  name := "OUT.COMMIT"
  blk := 5
  spaces := [15]
  off := 0x0408
  fields := [⟨"COMMIT", 0, 0, .wo, [], []⟩]

/-- OUT.STATUS, Table 5.6. -/
def Reg.OUT_STATUS : RegDesc where
  name := "OUT.STATUS"
  blk := 5
  spaces := [15]
  off := 0x040C
  fields := [⟨"SHADOW_PENDING", 31, 31, .ro, [], []⟩,
    ⟨"RUN", 0, 0, .ro, [], []⟩]

/-- OUT.MEMBER_BASE_LO, Table 5.6. -/
def Reg.OUT_MEMBER_BASE_LO : RegDesc where
  name := "OUT.MEMBER_BASE_LO"
  blk := 5
  spaces := [15]
  off := 0x0410
  fields := [⟨"V", 31, 0, .ro, [], []⟩]

/-- OUT.MEMBER_BASE_HI, Table 5.6. -/
def Reg.OUT_MEMBER_BASE_HI : RegDesc where
  name := "OUT.MEMBER_BASE_HI"
  blk := 5
  spaces := [15]
  off := 0x0414
  fields := [⟨"V", 31, 0, .ro, [], []⟩]

/-- OUT.MEMBER_COUNT, Table 5.6. -/
def Reg.OUT_MEMBER_COUNT : RegDesc where
  name := "OUT.MEMBER_COUNT"
  blk := 5
  spaces := [15]
  off := 0x0418
  fields := [⟨"V", 16, 0, .ro, [], []⟩]

/-- OUT.CFG_BASE_LO, Table 5.6. -/
def Reg.OUT_CFG_BASE_LO : RegDesc where
  name := "OUT.CFG_BASE_LO"
  blk := 5
  spaces := [15]
  off := 0x0420
  fields := [⟨"V", 31, 0, .ro, [], []⟩]

/-- OUT.CFG_BASE_HI, Table 5.6. -/
def Reg.OUT_CFG_BASE_HI : RegDesc where
  name := "OUT.CFG_BASE_HI"
  blk := 5
  spaces := [15]
  off := 0x0424
  fields := [⟨"V", 31, 0, .ro, [], []⟩]

/-- OUT.CMD_QUEUE, Table 5.6. -/
def Reg.OUT_CMD_QUEUE : RegDesc where
  name := "OUT.CMD_QUEUE"
  blk := 5
  spaces := [15]
  off := 0x0428
  reset := 0x00001110
  fields := [⟨"F", 13, 8, .ro, [], []⟩,
    ⟨"F", 5, 0, .ro, [], []⟩]

/-- OUT.SESS_STALL_MS, Table 5.6. -/
def Reg.OUT_SESS_STALL_MS : RegDesc where
  name := "OUT.SESS_STALL_MS"
  blk := 5
  spaces := [15]
  off := 0x042C
  reset := 0x000007D0
  fields := [⟨"V", 15, 0, .rw, [(100, 60000)], []⟩]

/-- OUT.SESS_RESETS, Table 5.6. -/
def Reg.OUT_SESS_RESETS : RegDesc where
  name := "OUT.SESS_RESETS"
  blk := 5
  spaces := [15]
  off := 0x0430
  sat := some (0x0434, 0)
  fields := [⟨"V", 31, 0, .rc, [], []⟩]

/-- OUT.G_CNT_SAT, Table 5.6. -/
def Reg.OUT_G_CNT_SAT : RegDesc where
  name := "OUT.G_CNT_SAT"
  blk := 5
  spaces := [15]
  off := 0x0434
  fields := [⟨"SAT", 0, 0, .w1c, [], []⟩]

/-- OUT.STR_CFG, Table 5.6. -/
def Reg.OUT_STR_CFG : RegDesc where
  name := "OUT.STR_CFG"
  blk := 5
  spaces := [0]
  off := 0x0040
  reset := 0x00000001
  fields := [⟨"ENABLE", 31, 31, .rws, [], []⟩,
    ⟨"RING", 30, 30, .ro, [], []⟩,
    ⟨"PROTO", 29, 28, .ro, [], []⟩,
    ⟨"TRANSPORT", 27, 26, .ro, [], []⟩,
    ⟨"V6", 25, 25, .ro, [], []⟩,
    ⟨"UPLINK", 24, 23, .rws, [], []⟩,
    ⟨"LAUNCH", 22, 22, .rws, [], []⟩,
    ⟨"LATE", 21, 21, .rws, [], []⟩,
    ⟨"CMD_MODE", 20, 20, .rws, [], []⟩,
    ⟨"ANALYTICS", 19, 19, .ro, [], []⟩,
    ⟨"CFG_NOTICE", 18, 18, .rw, [], []⟩,
    ⟨"FORMAT", 17, 14, .ro, [], []⟩,
    ⟨"DIV", 7, 0, .ro, [], []⟩]

/-- OUT.STR_LAUNCH, Table 5.6. -/
def Reg.OUT_STR_LAUNCH : RegDesc where
  name := "OUT.STR_LAUNCH"
  blk := 5
  spaces := [0]
  off := 0x0044
  fields := [⟨"V", 24, 0, .rws, [], []⟩]

/-- OUT.STR_RESEND_WIN, Table 5.6. -/
def Reg.OUT_STR_RESEND_WIN : RegDesc where
  name := "OUT.STR_RESEND_WIN"
  blk := 5
  spaces := [0]
  off := 0x0048
  reset := 0x00001388
  fields := [⟨"V", 24, 0, .rws, [], []⟩]

/-- OUT.STR_DST, Table 5.6. -/
def Reg.OUT_STR_DST : RegDesc where
  name := "OUT.STR_DST"
  blk := 5
  spaces := [0]
  off := 0x004C
  n := 4
  fields := [⟨"V", 31, 0, .rws, [], []⟩]

/-- OUT.STR_PORTS, Table 5.6. -/
def Reg.OUT_STR_PORTS : RegDesc where
  name := "OUT.STR_PORTS"
  blk := 5
  spaces := [0]
  off := 0x005C
  fields := [⟨"F", 31, 16, .rws, [], []⟩,
    ⟨"F", 15, 0, .rws, [], []⟩]

/-- OUT.STR_DMAC_LO, Table 5.6. -/
def Reg.OUT_STR_DMAC_LO : RegDesc where
  name := "OUT.STR_DMAC_LO"
  blk := 5
  spaces := [0]
  off := 0x0060
  fields := [⟨"V", 31, 0, .rws, [], []⟩]

/-- OUT.STR_DMAC_HI, Table 5.6. -/
def Reg.OUT_STR_DMAC_HI : RegDesc where
  name := "OUT.STR_DMAC_HI"
  blk := 5
  spaces := [0]
  off := 0x0064
  fields := [⟨"V", 31, 0, .rws, [], []⟩]

/-- OUT.STR_TCI, Table 5.6. -/
def Reg.OUT_STR_TCI : RegDesc where
  name := "OUT.STR_TCI"
  blk := 5
  spaces := [0]
  off := 0x0068
  fields := [⟨"VLAN", 15, 0, .rws, [], []⟩]

/-- OUT.STR_MTU, Table 5.6. -/
def Reg.OUT_STR_MTU : RegDesc where
  name := "OUT.STR_MTU"
  blk := 5
  spaces := [0]
  off := 0x006C
  reset := 0x000005DC
  fields := [⟨"DSCP", 29, 24, .rws, [], []⟩,
    ⟨"MTU", 13, 0, .rws, [], []⟩]

/-- OUT.STR_PARTS, Table 5.6. -/
def Reg.OUT_STR_PARTS : RegDesc where
  name := "OUT.STR_PARTS"
  blk := 5
  spaces := [0]
  off := 0x0070
  fields := [⟨"F", 25, 16, .ro, [], []⟩,
    ⟨"F", 6, 0, .ro, [], []⟩]

/-- OUT.STR_FRAME_MAX, Table 5.6. -/
def Reg.OUT_STR_FRAME_MAX : RegDesc where
  name := "OUT.STR_FRAME_MAX"
  blk := 5
  spaces := [0]
  off := 0x0074
  fields := [⟨"FRAME_MAX", 15, 0, .ro, [], []⟩]

/-- OUT.STR_KEY, Table 5.6. -/
def Reg.OUT_STR_KEY : RegDesc where
  name := "OUT.STR_KEY"
  blk := 5
  spaces := [0]
  off := 0x0078
  fields := [⟨"NEXT_SLOT", 13, 8, .rws, [], []⟩,
    ⟨"CUR_SLOT", 5, 0, .rws, [], []⟩]

/-- OUT.STR_SPDU, Table 5.6. -/
def Reg.OUT_STR_SPDU : RegDesc where
  name := "OUT.STR_SPDU"
  blk := 5
  spaces := [0]
  off := 0x007C
  fields := [⟨"V", 31, 0, .ro, [], []⟩]

/-- OUT.STR_FRAMES, Table 5.6. -/
def Reg.OUT_STR_FRAMES : RegDesc where
  name := "OUT.STR_FRAMES"
  blk := 5
  spaces := [0]
  off := 0x0080
  sat := some (0x00A8, 0)
  fields := [⟨"V", 31, 0, .rc, [], []⟩]

/-- OUT.STR_LAUNCH_LATE, Table 5.6. -/
def Reg.OUT_STR_LAUNCH_LATE : RegDesc where
  name := "OUT.STR_LAUNCH_LATE"
  blk := 5
  spaces := [0]
  off := 0x0084
  sat := some (0x00A8, 1)
  fields := [⟨"V", 31, 0, .rc, [], []⟩]

/-- OUT.STR_RESENT, Table 5.6. -/
def Reg.OUT_STR_RESENT : RegDesc where
  name := "OUT.STR_RESENT"
  blk := 5
  spaces := [0]
  off := 0x0088
  sat := some (0x00A8, 2)
  fields := [⟨"V", 31, 0, .rc, [], []⟩]

/-- OUT.STR_LATE_DROPPED, Table 5.6. -/
def Reg.OUT_STR_LATE_DROPPED : RegDesc where
  name := "OUT.STR_LATE_DROPPED"
  blk := 5
  spaces := [0]
  off := 0x008C
  sat := some (0x00A8, 3)
  fields := [⟨"V", 31, 0, .rc, [], []⟩]

/-- OUT.STR_LATE_UNSENT, Table 5.6. -/
def Reg.OUT_STR_LATE_UNSENT : RegDesc where
  name := "OUT.STR_LATE_UNSENT"
  blk := 5
  spaces := [0]
  off := 0x0090
  sat := some (0x00A8, 4)
  fields := [⟨"V", 31, 0, .rc, [], []⟩]

/-- OUT.STR_KEY_ABSENT, Table 5.6. -/
def Reg.OUT_STR_KEY_ABSENT : RegDesc where
  name := "OUT.STR_KEY_ABSENT"
  blk := 5
  spaces := [0]
  off := 0x0094
  sat := some (0x00A8, 5)
  fields := [⟨"V", 31, 0, .rc, [], []⟩]

/-- OUT.STR_CMD_RX, Table 5.6. -/
def Reg.OUT_STR_CMD_RX : RegDesc where
  name := "OUT.STR_CMD_RX"
  blk := 5
  spaces := [0]
  off := 0x0098
  sat := some (0x00A8, 6)
  fields := [⟨"V", 31, 0, .rc, [], []⟩]

/-- OUT.STR_CMD_IGNORED, Table 5.6. -/
def Reg.OUT_STR_CMD_IGNORED : RegDesc where
  name := "OUT.STR_CMD_IGNORED"
  blk := 5
  spaces := [0]
  off := 0x009C
  sat := some (0x00A8, 7)
  fields := [⟨"V", 31, 0, .rc, [], []⟩]

/-- OUT.STR_CFG_SENT, Table 5.6. -/
def Reg.OUT_STR_CFG_SENT : RegDesc where
  name := "OUT.STR_CFG_SENT"
  blk := 5
  spaces := [0]
  off := 0x00A0
  sat := some (0x00A8, 8)
  fields := [⟨"V", 31, 0, .rc, [], []⟩]

/-- OUT.STR_UDP_OFF, Table 5.6. -/
def Reg.OUT_STR_UDP_OFF : RegDesc where
  name := "OUT.STR_UDP_OFF"
  blk := 5
  spaces := [0]
  off := 0x00A4
  sat := some (0x00A8, 9)
  fields := [⟨"V", 31, 0, .rc, [], []⟩]

/-- OUT.STR_CNT_SAT, Table 5.6. -/
def Reg.OUT_STR_CNT_SAT : RegDesc where
  name := "OUT.STR_CNT_SAT"
  blk := 5
  spaces := [0]
  off := 0x00A8
  fields := [⟨"SAT", 9, 0, .w1c, [], []⟩]

/-- OUT.STR_CFG_PER, Table 5.6. -/
def Reg.OUT_STR_CFG_PER : RegDesc where
  name := "OUT.STR_CFG_PER"
  blk := 5
  spaces := [0]
  off := 0x00AC
  fields := [⟨"V", 7, 0, .rws, [], []⟩]

/-- OUT.STR_TIMEBASE, Table 5.6. -/
def Reg.OUT_STR_TIMEBASE : RegDesc where
  name := "OUT.STR_TIMEBASE"
  blk := 5
  spaces := [0]
  off := 0x00B0
  fields := [⟨"TIME_BASE", 23, 0, .ro, [], []⟩]

/-- OUT.SESS_STATE, Table 5.6. -/
def Reg.OUT_SESS_STATE : RegDesc where
  name := "OUT.SESS_STATE"
  blk := 5
  spaces := [1]
  off := 0x0040
  fields := [⟨"STATE", 31, 30, .ro, [], []⟩,
    ⟨"STALL", 29, 29, .ro, [], []⟩,
    ⟨"V6", 28, 28, .rw, [], []⟩,
    ⟨"STREAM", 27, 22, .rw, [], []⟩]

/-- OUT.SESS_PEER, Table 5.6. -/
def Reg.OUT_SESS_PEER : RegDesc where
  name := "OUT.SESS_PEER"
  blk := 5
  spaces := [1]
  off := 0x0044
  n := 4
  fields := [⟨"V", 31, 0, .rw, [], []⟩]

/-- OUT.SESS_PORTS, Table 5.6. -/
def Reg.OUT_SESS_PORTS : RegDesc where
  name := "OUT.SESS_PORTS"
  blk := 5
  spaces := [1]
  off := 0x0054
  fields := [⟨"F", 31, 16, .rw, [], []⟩,
    ⟨"F", 15, 0, .rw, [], []⟩]

/-- OUT.SESS_ISS, Table 5.6. -/
def Reg.OUT_SESS_ISS : RegDesc where
  name := "OUT.SESS_ISS"
  blk := 5
  spaces := [1]
  off := 0x0058
  fields := [⟨"V", 31, 0, .rw, [], []⟩]

/-- OUT.SESS_SND_NXT, Table 5.6. -/
def Reg.OUT_SESS_SND_NXT : RegDesc where
  name := "OUT.SESS_SND_NXT"
  blk := 5
  spaces := [1]
  off := 0x005C
  fields := [⟨"V", 31, 0, .ro, [], []⟩]

/-- OUT.SESS_SND_UNA, Table 5.6. -/
def Reg.OUT_SESS_SND_UNA : RegDesc where
  name := "OUT.SESS_SND_UNA"
  blk := 5
  spaces := [1]
  off := 0x0060
  fields := [⟨"V", 31, 0, .ro, [], []⟩]

/-- OUT.SESS_WND, Table 5.6. -/
def Reg.OUT_SESS_WND : RegDesc where
  name := "OUT.SESS_WND"
  blk := 5
  spaces := [1]
  off := 0x0064
  fields := [⟨"V", 31, 0, .rw, [], []⟩]

/-- OUT.SESS_ACK, Table 5.6. -/
def Reg.OUT_SESS_ACK : RegDesc where
  name := "OUT.SESS_ACK"
  blk := 5
  spaces := [1]
  off := 0x0068
  fields := [⟨"V", 31, 0, .wo, [], []⟩]

/-- OUT.SESS_RETX, Table 5.6. -/
def Reg.OUT_SESS_RETX : RegDesc where
  name := "OUT.SESS_RETX"
  blk := 5
  spaces := [1]
  off := 0x006C
  fields := [⟨"V", 31, 0, .wo, [], []⟩]

/-- OUT.SESS_RCV_NXT, Table 5.6. -/
def Reg.OUT_SESS_RCV_NXT : RegDesc where
  name := "OUT.SESS_RCV_NXT"
  blk := 5
  spaces := [1]
  off := 0x0070
  fields := [⟨"V", 31, 0, .rw, [], []⟩]

/-- OUT.SESS_MSS, Table 5.6. -/
def Reg.OUT_SESS_MSS : RegDesc where
  name := "OUT.SESS_MSS"
  blk := 5
  spaces := [1]
  off := 0x0074
  fields := [⟨"MSS", 15, 0, .rw, [], []⟩]

/-- OUT.SESS_CMD, Table 5.6. -/
def Reg.OUT_SESS_CMD : RegDesc where
  name := "OUT.SESS_CMD"
  blk := 5
  spaces := [1]
  off := 0x0078
  fields := [⟨"V", 2, 0, .wo, [], []⟩]

/-- OUT.SESS_BUF_LO, Table 5.6. -/
def Reg.OUT_SESS_BUF_LO : RegDesc where
  name := "OUT.SESS_BUF_LO"
  blk := 5
  spaces := [1]
  off := 0x007C
  fields := [⟨"V", 31, 0, .rw, [], []⟩]

/-- OUT.SESS_BUF_HI, Table 5.6. -/
def Reg.OUT_SESS_BUF_HI : RegDesc where
  name := "OUT.SESS_BUF_HI"
  blk := 5
  spaces := [1]
  off := 0x0080
  fields := [⟨"V", 31, 0, .rw, [], []⟩]

/-- OUT.SESS_BUF_SIZE, Table 5.6. -/
def Reg.OUT_SESS_BUF_SIZE : RegDesc where
  name := "OUT.SESS_BUF_SIZE"
  blk := 5
  spaces := [1]
  off := 0x0084
  fields := [⟨"V", 12, 0, .rw, [(64, 4096)], []⟩]

/-- OUT.SESS_ON_LO, Table 5.6. -/
def Reg.OUT_SESS_ON_LO : RegDesc where
  name := "OUT.SESS_ON_LO"
  blk := 5
  spaces := [1]
  off := 0x0088
  fields := [⟨"V", 31, 0, .ro, [], []⟩]

/-- OUT.SESS_ON_HI, Table 5.6. -/
def Reg.OUT_SESS_ON_HI : RegDesc where
  name := "OUT.SESS_ON_HI"
  blk := 5
  spaces := [1]
  off := 0x008C
  fields := [⟨"V", 31, 0, .ro, [], []⟩]

/-- OUT.SESS_FRAMES, Table 5.6. -/
def Reg.OUT_SESS_FRAMES : RegDesc where
  name := "OUT.SESS_FRAMES"
  blk := 5
  spaces := [1]
  off := 0x0090
  sat := some (0x00A0, 0)
  fields := [⟨"V", 31, 0, .rc, [], []⟩]

/-- OUT.SESS_BUF_DROP, Table 5.6. -/
def Reg.OUT_SESS_BUF_DROP : RegDesc where
  name := "OUT.SESS_BUF_DROP"
  blk := 5
  spaces := [1]
  off := 0x0094
  sat := some (0x00A0, 1)
  fields := [⟨"V", 31, 0, .rc, [], []⟩]

/-- OUT.SESS_ACK_BAD, Table 5.6. -/
def Reg.OUT_SESS_ACK_BAD : RegDesc where
  name := "OUT.SESS_ACK_BAD"
  blk := 5
  spaces := [1]
  off := 0x0098
  sat := some (0x00A0, 2)
  fields := [⟨"V", 31, 0, .rc, [], []⟩]

/-- OUT.SESS_RETX_REQ, Table 5.6. -/
def Reg.OUT_SESS_RETX_REQ : RegDesc where
  name := "OUT.SESS_RETX_REQ"
  blk := 5
  spaces := [1]
  off := 0x009C
  sat := some (0x00A0, 3)
  fields := [⟨"V", 31, 0, .rc, [], []⟩]

/-- OUT.SESS_CNT_SAT, Table 5.6. -/
def Reg.OUT_SESS_CNT_SAT : RegDesc where
  name := "OUT.SESS_CNT_SAT"
  blk := 5
  spaces := [1]
  off := 0x00A0
  fields := [⟨"SAT", 3, 0, .w1c, [], []⟩]

/-- OUT.PART_IDCODE, Table 5.6. -/
def Reg.OUT_PART_IDCODE : RegDesc where
  name := "OUT.PART_IDCODE"
  blk := 5
  spaces := [2]
  off := 0x0044
  fields := [⟨"IDCODE", 15, 0, .ro, [], []⟩]

/-- OUT.PART_FIRST, Table 5.6. -/
def Reg.OUT_PART_FIRST : RegDesc where
  name := "OUT.PART_FIRST"
  blk := 5
  spaces := [2]
  off := 0x0048
  fields := [⟨"V", 16, 0, .ro, [], []⟩]

/-- OUT.PART_COUNT, Table 5.6. -/
def Reg.OUT_PART_COUNT : RegDesc where
  name := "OUT.PART_COUNT"
  blk := 5
  spaces := [2]
  off := 0x004C
  fields := [⟨"V", 16, 0, .ro, [], []⟩]

/-- OUT.PART_SIZE, Table 5.6. -/
def Reg.OUT_PART_SIZE : RegDesc where
  name := "OUT.PART_SIZE"
  blk := 5
  spaces := [2]
  off := 0x0050
  fields := [⟨"CFG", 31, 16, .ro, [], []⟩,
    ⟨"F", 15, 0, .ro, [], []⟩]

/-- OUT.PART_UDP_ON, Table 5.6. -/
def Reg.OUT_PART_UDP_ON : RegDesc where
  name := "OUT.PART_UDP_ON"
  blk := 5
  spaces := [2]
  off := 0x0054
  fields := [⟨"UDP", 0, 0, .ro, [], []⟩]

/-- The registers of OUT (Table 5.6 and the field tables of its chapter). -/
def Reg.tableOUT : List RegDesc :=
  [Reg.OUT_SEL, Reg.OUT_IRQ_STATUS, Reg.OUT_IRQ_ENABLE, Reg.OUT_COMMIT,
   Reg.OUT_STATUS, Reg.OUT_MEMBER_BASE_LO, Reg.OUT_MEMBER_BASE_HI, Reg.OUT_MEMBER_COUNT,
   Reg.OUT_CFG_BASE_LO, Reg.OUT_CFG_BASE_HI, Reg.OUT_CMD_QUEUE, Reg.OUT_SESS_STALL_MS,
   Reg.OUT_SESS_RESETS, Reg.OUT_G_CNT_SAT, Reg.OUT_STR_CFG, Reg.OUT_STR_LAUNCH,
   Reg.OUT_STR_RESEND_WIN, Reg.OUT_STR_DST, Reg.OUT_STR_PORTS, Reg.OUT_STR_DMAC_LO] ++
  [Reg.OUT_STR_DMAC_HI, Reg.OUT_STR_TCI, Reg.OUT_STR_MTU, Reg.OUT_STR_PARTS,
   Reg.OUT_STR_FRAME_MAX, Reg.OUT_STR_KEY, Reg.OUT_STR_SPDU, Reg.OUT_STR_FRAMES,
   Reg.OUT_STR_LAUNCH_LATE, Reg.OUT_STR_RESENT, Reg.OUT_STR_LATE_DROPPED, Reg.OUT_STR_LATE_UNSENT,
   Reg.OUT_STR_KEY_ABSENT, Reg.OUT_STR_CMD_RX, Reg.OUT_STR_CMD_IGNORED, Reg.OUT_STR_CFG_SENT,
   Reg.OUT_STR_UDP_OFF, Reg.OUT_STR_CNT_SAT, Reg.OUT_STR_CFG_PER, Reg.OUT_STR_TIMEBASE] ++
  [Reg.OUT_SESS_STATE, Reg.OUT_SESS_PEER, Reg.OUT_SESS_PORTS, Reg.OUT_SESS_ISS,
   Reg.OUT_SESS_SND_NXT, Reg.OUT_SESS_SND_UNA, Reg.OUT_SESS_WND, Reg.OUT_SESS_ACK,
   Reg.OUT_SESS_RETX, Reg.OUT_SESS_RCV_NXT, Reg.OUT_SESS_MSS, Reg.OUT_SESS_CMD,
   Reg.OUT_SESS_BUF_LO, Reg.OUT_SESS_BUF_HI, Reg.OUT_SESS_BUF_SIZE, Reg.OUT_SESS_ON_LO,
   Reg.OUT_SESS_ON_HI, Reg.OUT_SESS_FRAMES, Reg.OUT_SESS_BUF_DROP, Reg.OUT_SESS_ACK_BAD] ++
  [Reg.OUT_SESS_RETX_REQ, Reg.OUT_SESS_CNT_SAT, Reg.OUT_PART_IDCODE, Reg.OUT_PART_FIRST,
   Reg.OUT_PART_COUNT, Reg.OUT_PART_SIZE, Reg.OUT_PART_UDP_ON]

/-- RPL.SEL, Table 6.8. -/
def Reg.RPL_SEL : RegDesc where
  name := "RPL.SEL"
  blk := 6
  spaces := [15]
  off := 0x0000
  banked := true
  fields := [⟨"AINC", 31, 31, .rw, [], []⟩,
    ⟨"SPACE", 30, 29, .rw, [], []⟩,
    ⟨"INDEX", 12, 0, .rw, [], []⟩]

/-- RPL.IRQ_STATUS, Table 6.8. -/
def Reg.RPL_IRQ_STATUS : RegDesc where
  name := "RPL.IRQ_STATUS"
  blk := 6
  spaces := [15]
  off := 0x0400
  fields := [⟨"SET_REJECT", 5, 5, .w1c, [], []⟩,
    ⟨"SOLVE_FAULT", 4, 4, .w1c, [], []⟩,
    ⟨"EPOCH_MISS", 3, 3, .w1c, [], []⟩,
    ⟨"RINGDOWN", 2, 2, .w1c, [], []⟩,
    ⟨"FO", 1, 1, .w1c, [], []⟩,
    ⟨"DAMP", 0, 0, .w1c, [], []⟩]

/-- RPL.IRQ_ENABLE, Table 6.8. -/
def Reg.RPL_IRQ_ENABLE : RegDesc where
  name := "RPL.IRQ_ENABLE"
  blk := 6
  spaces := [15]
  off := 0x0404
  fields := [⟨"SET_REJECT", 5, 5, .rw, [], []⟩,
    ⟨"SOLVE_FAULT", 4, 4, .rw, [], []⟩,
    ⟨"EPOCH_MISS", 3, 3, .rw, [], []⟩,
    ⟨"RINGDOWN", 2, 2, .rw, [], []⟩,
    ⟨"FO", 1, 1, .rw, [], []⟩,
    ⟨"DAMP", 0, 0, .rw, [], []⟩]

/-- RPL.COMMIT, Table 6.8. -/
def Reg.RPL_COMMIT : RegDesc where
  name := "RPL.COMMIT"
  blk := 6
  spaces := [15]
  off := 0x0408
  fields := [⟨"COMMIT", 0, 0, .wo, [], []⟩]

/-- RPL.STATUS, Table 6.8. -/
def Reg.RPL_STATUS : RegDesc where
  name := "RPL.STATUS"
  blk := 6
  spaces := [15]
  off := 0x040C
  fields := [⟨"SHADOW_PENDING", 31, 31, .ro, [], []⟩,
    ⟨"WARMING", 30, 30, .ro, [], []⟩,
    ⟨"RINGDOWN", 29, 29, .ro, [], []⟩,
    ⟨"MODAL_EN", 28, 28, .ro, [], []⟩,
    ⟨"DEF_RUN", 27, 27, .ro, [], []⟩,
    ⟨"INCLUDED", 9, 0, .ro, [], []⟩]

/-- RPL.FILL, Table 6.8. -/
def Reg.RPL_FILL : RegDesc where
  name := "RPL.FILL"
  blk := 6
  spaces := [15]
  off := 0x0410
  fields := [⟨"V", 31, 0, .ro, [], []⟩]

/-- RPL.EPOCH, Table 6.8. -/
def Reg.RPL_EPOCH : RegDesc where
  name := "RPL.EPOCH"
  blk := 6
  spaces := [15]
  off := 0x0414
  fields := [⟨"V", 31, 0, .ro, [], []⟩]

/-- RPL.MODAL_RATE, Table 6.8. -/
def Reg.RPL_MODAL_RATE : RegDesc where
  name := "RPL.MODAL_RATE"
  blk := 6
  spaces := [15]
  off := 0x0418
  fields := [⟨"D", 15, 8, .ro, [], []⟩,
    ⟨"F_", 7, 0, .ro, [], []⟩]

/-- RPL.EPOCH_TICKS, Table 6.8. -/
def Reg.RPL_EPOCH_TICKS : RegDesc where
  name := "RPL.EPOCH_TICKS"
  blk := 6
  spaces := [15]
  off := 0x041C
  reset := 0x0000000C
  fields := [⟨"V", 6, 0, .rws, [], [(3, 125)]⟩]

/-- RPL.WINDOW, Table 6.8. -/
def Reg.RPL_WINDOW : RegDesc where
  name := "RPL.WINDOW"
  blk := 6
  spaces := [15]
  off := 0x0420
  reset := 0x0000003C
  fields := [⟨"V", 6, 0, .rws, [], [(10, 120)]⟩]

/-- RPL.MODAL_LO, Table 6.8. -/
def Reg.RPL_MODAL_LO : RegDesc where
  name := "RPL.MODAL_LO"
  blk := 6
  spaces := [15]
  off := 0x0424
  reset := 0x00000005
  fields := [⟨"V", 15, 0, .rws, [], []⟩]

/-- RPL.MODAL_HI, Table 6.8. -/
def Reg.RPL_MODAL_HI : RegDesc where
  name := "RPL.MODAL_HI"
  blk := 6
  spaces := [15]
  off := 0x0428
  reset := 0x000000C8
  fields := [⟨"V", 15, 0, .rws, [], []⟩]

/-- RPL.MIN_FILL, Table 6.8. -/
def Reg.RPL_MIN_FILL : RegDesc where
  name := "RPL.MIN_FILL"
  blk := 6
  spaces := [15]
  off := 0x042C
  reset := 0x0000003C
  fields := [⟨"V", 6, 0, .rws, [], [(10, 100)]⟩]

/-- RPL.REF_CTX, Table 6.8. -/
def Reg.RPL_REF_CTX : RegDesc where
  name := "RPL.REF_CTX"
  blk := 6
  spaces := [15]
  off := 0x0430
  fields := [⟨"V", 12, 0, .rws, [], []⟩]

/-- RPL.BAND, Table 6.8. -/
def Reg.RPL_BAND : RegDesc where
  name := "RPL.BAND"
  blk := 6
  spaces := [15]
  off := 0x0434
  n := 4
  resetK := [(0, 0x000A0001), (1, 0x0050000A), (2, 0x00FA0050), (3, 0x057800FA)]
  fields := [⟨"HI", 31, 16, .rws, [], []⟩,
    ⟨"LO", 15, 0, .rws, [], []⟩]

/-- RPL.BAND_TAU, Table 6.8. -/
def Reg.RPL_BAND_TAU : RegDesc where
  name := "RPL.BAND_TAU"
  blk := 6
  spaces := [15]
  off := 0x0444
  reset := 0x000003E8
  fields := [⟨"V", 14, 0, .rws, [], [(250, 30000)]⟩]

/-- RPL.DAMP_CFG, Table 6.8. -/
def Reg.RPL_DAMP_CFG : RegDesc where
  name := "RPL.DAMP_CFG"
  blk := 6
  spaces := [15]
  off := 0x0448
  reset := 0x3205012C
  fields := [⟨"CONF_MIN", 30, 24, .rws, [], [(0, 100)]⟩,
    ⟨"HYST", 23, 16, .rws, [], []⟩,
    ⟨"ZETA_TH", 15, 0, .rws, [], []⟩]

/-- RPL.DAMP_TIME, Table 6.8. -/
def Reg.RPL_DAMP_TIME : RegDesc where
  name := "RPL.DAMP_TIME"
  blk := 6
  spaces := [15]
  off := 0x044C
  reset := 0x000A001E
  fields := [⟨"CLR", 31, 16, .rws, [], [(1, 3600)]⟩,
    ⟨"DUR", 15, 0, .rws, [], [(1, 3600)]⟩]

/-- RPL.FO_CFG, Table 6.8. -/
def Reg.RPL_FO_CFG : RegDesc where
  name := "RPL.FO_CFG"
  blk := 6
  spaces := [15]
  off := 0x0450
  reset := 0x0F3C0064
  fields := [⟨"FO_CV", 31, 24, .rws, [], []⟩,
    ⟨"FO_DUR", 23, 16, .rws, [], [(10, 255)]⟩,
    ⟨"FO_ZETA", 15, 0, .rws, [], []⟩]

/-- RPL.FO_AMP, Table 6.8. -/
def Reg.RPL_FO_AMP : RegDesc where
  name := "RPL.FO_AMP"
  blk := 6
  spaces := [15]
  off := 0x0454
  fields := [⟨"V", 31, 0, .rws, [], []⟩]

/-- RPL.RD_CFG, Table 6.8. -/
def Reg.RPL_RD_CFG : RegDesc where
  name := "RPL.RD_CFG"
  blk := 6
  spaces := [15]
  off := 0x0458
  reset := 0x080A051E
  fields := [⟨"RD_K", 31, 24, .rws, [], [(2, 64)]⟩,
    ⟨"RD_LEN", 23, 16, .rws, [], [(2, 60)]⟩,
    ⟨"RD_SKIP", 15, 8, .rws, [], [(0, 50)]⟩,
    ⟨"RD_ZETA_TH", 7, 0, .rws, [], []⟩]

/-- RPL.MATCH_CFG, Table 6.8. -/
def Reg.RPL_MATCH_CFG : RegDesc where
  name := "RPL.MATCH_CFG"
  blk := 6
  spaces := [15]
  off := 0x045C
  reset := 0x00004614
  fields := [⟨"MATCH_MAC", 15, 8, .rws, [], [(30, 99)]⟩,
    ⟨"PAIR_TOL", 7, 0, .rws, [], [(1, 100)]⟩]

/-- RPL.RES_BASE_LO, Table 6.8. -/
def Reg.RPL_RES_BASE_LO : RegDesc where
  name := "RPL.RES_BASE_LO"
  blk := 6
  spaces := [15]
  off := 0x0460
  fields := [⟨"V", 31, 0, .rw, [], []⟩]

/-- RPL.RES_BASE_HI, Table 6.8. -/
def Reg.RPL_RES_BASE_HI : RegDesc where
  name := "RPL.RES_BASE_HI"
  blk := 6
  spaces := [15]
  off := 0x0464
  fields := [⟨"V", 31, 0, .rw, [], []⟩]

/-- RPL.RES_SIZE, Table 6.8. -/
def Reg.RPL_RES_SIZE : RegDesc where
  name := "RPL.RES_SIZE"
  blk := 6
  spaces := [15]
  off := 0x0468
  fields := [⟨"V", 15, 0, .rw, [(0, 0), (2, 65535)], []⟩]

/-- RPL.RES_HEAD, Table 6.8. -/
def Reg.RPL_RES_HEAD : RegDesc where
  name := "RPL.RES_HEAD"
  blk := 6
  spaces := [15]
  off := 0x046C
  fields := [⟨"V", 15, 0, .ro, [], []⟩]

/-- RPL.RES_QUEUE, Table 6.8. -/
def Reg.RPL_RES_QUEUE : RegDesc where
  name := "RPL.RES_QUEUE"
  blk := 6
  spaces := [15]
  off := 0x0470
  fields := [⟨"V", 5, 0, .rw, [(48, 63)], []⟩]

/-- RPL.SOLVE_US, Table 6.8. -/
def Reg.RPL_SOLVE_US : RegDesc where
  name := "RPL.SOLVE_US"
  blk := 6
  spaces := [15]
  off := 0x0474
  fields := [⟨"V", 15, 0, .ro, [], []⟩]

/-- RPL.EPOCH_MISS, Table 6.8. -/
def Reg.RPL_EPOCH_MISS : RegDesc where
  name := "RPL.EPOCH_MISS"
  blk := 6
  spaces := [15]
  off := 0x0480
  sat := some (0x04A0, 0)
  fields := [⟨"V", 31, 0, .rc, [], []⟩]

/-- RPL.SOLVE_FAULT, Table 6.8. -/
def Reg.RPL_SOLVE_FAULT : RegDesc where
  name := "RPL.SOLVE_FAULT"
  blk := 6
  spaces := [15]
  off := 0x0484
  sat := some (0x04A0, 1)
  fields := [⟨"V", 31, 0, .rc, [], []⟩]

/-- RPL.TICK_GAPS, Table 6.8. -/
def Reg.RPL_TICK_GAPS : RegDesc where
  name := "RPL.TICK_GAPS"
  blk := 6
  spaces := [15]
  off := 0x0488
  sat := some (0x04A0, 2)
  fields := [⟨"V", 31, 0, .rc, [], []⟩]

/-- RPL.RD_COUNT, Table 6.8. -/
def Reg.RPL_RD_COUNT : RegDesc where
  name := "RPL.RD_COUNT"
  blk := 6
  spaces := [15]
  off := 0x048C
  sat := some (0x04A0, 3)
  fields := [⟨"V", 31, 0, .rc, [], []⟩]

/-- RPL.RD_IGNORED, Table 6.8. -/
def Reg.RPL_RD_IGNORED : RegDesc where
  name := "RPL.RD_IGNORED"
  blk := 6
  spaces := [15]
  off := 0x0490
  sat := some (0x04A0, 4)
  fields := [⟨"V", 31, 0, .rc, [], []⟩]

/-- RPL.TRACK_NEW, Table 6.8. -/
def Reg.RPL_TRACK_NEW : RegDesc where
  name := "RPL.TRACK_NEW"
  blk := 6
  spaces := [15]
  off := 0x0494
  sat := some (0x04A0, 5)
  fields := [⟨"V", 31, 0, .rc, [], []⟩]

/-- RPL.TRACK_LOST, Table 6.8. -/
def Reg.RPL_TRACK_LOST : RegDesc where
  name := "RPL.TRACK_LOST"
  blk := 6
  spaces := [15]
  off := 0x0498
  sat := some (0x04A0, 6)
  fields := [⟨"V", 31, 0, .rc, [], []⟩]

/-- RPL.COMP_DROPPED, Table 6.8. -/
def Reg.RPL_COMP_DROPPED : RegDesc where
  name := "RPL.COMP_DROPPED"
  blk := 6
  spaces := [15]
  off := 0x049C
  sat := some (0x04A0, 7)
  fields := [⟨"V", 31, 0, .rc, [], []⟩]

/-- RPL.G_CNT_SAT, Table 6.8. -/
def Reg.RPL_G_CNT_SAT : RegDesc where
  name := "RPL.G_CNT_SAT"
  blk := 6
  spaces := [15]
  off := 0x04A0
  fields := [⟨"SAT", 7, 0, .w1c, [], []⟩]

/-- RPL.CTX_BAND_CFG, Table 6.8. -/
def Reg.RPL_CTX_BAND_CFG : RegDesc where
  name := "RPL.CTX_BAND_CFG"
  blk := 6
  spaces := [0]
  off := 0x0040
  fields := [⟨"SRC3", 30, 28, .rws, [(0, 4)], []⟩,
    ⟨"SRC2", 26, 24, .rws, [(0, 4)], []⟩,
    ⟨"SRC1", 22, 20, .rws, [(0, 4)], []⟩,
    ⟨"SRC0", 18, 16, .rws, [(0, 4)], []⟩,
    ⟨"EN", 3, 0, .rws, [], []⟩]

/-- RPL.CTX_BAND, Table 6.8. -/
def Reg.RPL_CTX_BAND : RegDesc where
  name := "RPL.CTX_BAND"
  blk := 6
  spaces := [0]
  off := 0x0044
  n := 4
  fields := [⟨"V", 31, 0, .ro, [], []⟩]

/-- RPL.CTX_BAND_STATE, Table 6.8. -/
def Reg.RPL_CTX_BAND_STATE : RegDesc where
  name := "RPL.CTX_BAND_STATE"
  blk := 6
  spaces := [0]
  off := 0x0054
  fields := [⟨"V", 7, 0, .ro, [], []⟩]

/-- RPL.CTX_GAP_RESETS, Table 6.8. -/
def Reg.RPL_CTX_GAP_RESETS : RegDesc where
  name := "RPL.CTX_GAP_RESETS"
  blk := 6
  spaces := [0]
  off := 0x0058
  sat := some (0x005C, 0)
  fields := [⟨"V", 31, 0, .rc, [], []⟩]

/-- RPL.CTX_CNT_SAT, Table 6.8. -/
def Reg.RPL_CTX_CNT_SAT : RegDesc where
  name := "RPL.CTX_CNT_SAT"
  blk := 6
  spaces := [0]
  off := 0x005C
  fields := [⟨"SAT", 0, 0, .w1c, [], []⟩]

/-- RPL.CH_CFG, Table 6.8. -/
def Reg.RPL_CH_CFG : RegDesc where
  name := "RPL.CH_CFG"
  blk := 6
  spaces := [1]
  off := 0x0040
  fields := [⟨"EN", 31, 31, .rws, [], []⟩,
    ⟨"SRC", 18, 16, .rws, [(0, 2)], []⟩,
    ⟨"CONTEXT", 12, 0, .rws, [], []⟩]

/-- RPL.CH_WEIGHT, Table 6.8. -/
def Reg.RPL_CH_WEIGHT : RegDesc where
  name := "RPL.CH_WEIGHT"
  blk := 6
  spaces := [1]
  off := 0x0044
  reset := 0x3F800000
  fields := [⟨"V", 31, 0, .rws, [], []⟩]

/-- RPL.CH_STATE, Table 6.8. -/
def Reg.RPL_CH_STATE : RegDesc where
  name := "RPL.CH_STATE"
  blk := 6
  spaces := [1]
  off := 0x0048
  fields := [⟨"INCLUDED", 31, 31, .ro, [], []⟩,
    ⟨"WARMING", 30, 30, .ro, [], []⟩,
    ⟨"F", 1, 0, .ro, [], []⟩]

/-- RPL.CH_VALID, Table 6.8. -/
def Reg.RPL_CH_VALID : RegDesc where
  name := "RPL.CH_VALID"
  blk := 6
  spaces := [1]
  off := 0x004C
  fields := [⟨"V", 31, 0, .ro, [], []⟩]

/-- RPL.CH_GAP_RESETS, Table 6.8. -/
def Reg.RPL_CH_GAP_RESETS : RegDesc where
  name := "RPL.CH_GAP_RESETS"
  blk := 6
  spaces := [1]
  off := 0x0050
  sat := some (0x0054, 0)
  fields := [⟨"V", 31, 0, .rc, [], []⟩]

/-- RPL.CH_CNT_SAT, Table 6.8. -/
def Reg.RPL_CH_CNT_SAT : RegDesc where
  name := "RPL.CH_CNT_SAT"
  blk := 6
  spaces := [1]
  off := 0x0054
  fields := [⟨"SAT", 0, 0, .w1c, [], []⟩]

/-- RPL.TRK_STATE, Table 6.8. -/
def Reg.RPL_TRK_STATE : RegDesc where
  name := "RPL.TRK_STATE"
  blk := 6
  spaces := [2]
  off := 0x0040
  fields := [⟨"STATUS", 31, 29, .ro, [], []⟩,
    ⟨"DAMP", 28, 28, .ro, [], []⟩,
    ⟨"FO", 27, 27, .ro, [], []⟩,
    ⟨"RD_POOR", 26, 26, .ro, [], []⟩,
    ⟨"PAIRED", 25, 25, .ro, [], []⟩,
    ⟨"MATCHED", 24, 24, .ro, [], []⟩,
    ⟨"PAIR_OF", 23, 20, .ro, [], []⟩,
    ⟨"MISSED", 19, 18, .ro, [], []⟩,
    ⟨"CONF", 6, 0, .ro, [], []⟩]

/-- RPL.TRK_FREQ, Table 6.8. -/
def Reg.RPL_TRK_FREQ : RegDesc where
  name := "RPL.TRK_FREQ"
  blk := 6
  spaces := [2]
  off := 0x0044
  fields := [⟨"V", 31, 0, .ro, [], []⟩]

/-- RPL.TRK_ZETA, Table 6.8. -/
def Reg.RPL_TRK_ZETA : RegDesc where
  name := "RPL.TRK_ZETA"
  blk := 6
  spaces := [2]
  off := 0x0048
  fields := [⟨"V", 31, 0, .ro, [], []⟩]

/-- RPL.TRK_AMP, Table 6.8. -/
def Reg.RPL_TRK_AMP : RegDesc where
  name := "RPL.TRK_AMP"
  blk := 6
  spaces := [2]
  off := 0x004C
  fields := [⟨"V", 31, 0, .ro, [], []⟩]

/-- RPL.TRK_SHARE, Table 6.8. -/
def Reg.RPL_TRK_SHARE : RegDesc where
  name := "RPL.TRK_SHARE"
  blk := 6
  spaces := [2]
  off := 0x0050
  fields := [⟨"V", 31, 0, .ro, [], []⟩]

/-- RPL.TRK_SERIAL, Table 6.8. -/
def Reg.RPL_TRK_SERIAL : RegDesc where
  name := "RPL.TRK_SERIAL"
  blk := 6
  spaces := [2]
  off := 0x0054
  fields := [⟨"V", 15, 0, .ro, [], []⟩]

/-- RPL.TRK_DAMP_RUN, Table 6.8. -/
def Reg.RPL_TRK_DAMP_RUN : RegDesc where
  name := "RPL.TRK_DAMP_RUN"
  blk := 6
  spaces := [2]
  off := 0x0058
  fields := [⟨"DAMP_RUN", 15, 0, .ro, [], []⟩]

/-- RPL.TRK_RD_FREQ, Table 6.8. -/
def Reg.RPL_TRK_RD_FREQ : RegDesc where
  name := "RPL.TRK_RD_FREQ"
  blk := 6
  spaces := [2]
  off := 0x005C
  fields := [⟨"V", 31, 0, .ro, [], []⟩]

/-- RPL.TRK_RD_ZETA, Table 6.8. -/
def Reg.RPL_TRK_RD_ZETA : RegDesc where
  name := "RPL.TRK_RD_ZETA"
  blk := 6
  spaces := [2]
  off := 0x0060
  fields := [⟨"V", 31, 0, .ro, [], []⟩]

/-- RPL.DEF_CFG, Table 6.8. -/
def Reg.RPL_DEF_CFG : RegDesc where
  name := "RPL.DEF_CFG"
  blk := 6
  spaces := [3]
  off := 0x0040
  fields := [⟨"EN", 31, 31, .rws, [], []⟩,
    ⟨"PQ", 30, 30, .rws, [], []⟩,
    ⟨"SEQ", 29, 29, .rws, [], []⟩,
    ⟨"CONTEXT", 12, 0, .rws, [], []⟩]

/-- RPL.DEF_SEL, Table 6.8. -/
def Reg.RPL_DEF_SEL : RegDesc where
  name := "RPL.DEF_SEL"
  blk := 6
  spaces := [3]
  off := 0x0044
  fields := [⟨"VIDX", 31, 24, .rws, [], []⟩,
    ⟨"IIDX", 23, 16, .rws, [], []⟩,
    ⟨"PIDX", 15, 8, .rws, [], []⟩,
    ⟨"QIDX", 7, 0, .rws, [], []⟩]

/-- RPL.DEF_SBASE, Table 6.8. -/
def Reg.RPL_DEF_SBASE : RegDesc where
  name := "RPL.DEF_SBASE"
  blk := 6
  spaces := [3]
  off := 0x0048
  reset := 0x4CBEBC20
  fields := [⟨"V", 31, 0, .rws, [], []⟩]

/-- RPL.DEF_SLOPE, Table 6.8. -/
def Reg.RPL_DEF_SLOPE : RegDesc where
  name := "RPL.DEF_SLOPE"
  blk := 6
  spaces := [3]
  off := 0x004C
  fields := [⟨"V", 31, 0, .ro, [], []⟩]

/-- The registers of RPL (Table 6.8 and the field tables of its chapter). -/
def Reg.tableRPL : List RegDesc :=
  [Reg.RPL_SEL, Reg.RPL_IRQ_STATUS, Reg.RPL_IRQ_ENABLE, Reg.RPL_COMMIT,
   Reg.RPL_STATUS, Reg.RPL_FILL, Reg.RPL_EPOCH, Reg.RPL_MODAL_RATE,
   Reg.RPL_EPOCH_TICKS, Reg.RPL_WINDOW, Reg.RPL_MODAL_LO, Reg.RPL_MODAL_HI,
   Reg.RPL_MIN_FILL, Reg.RPL_REF_CTX, Reg.RPL_BAND, Reg.RPL_BAND_TAU,
   Reg.RPL_DAMP_CFG, Reg.RPL_DAMP_TIME, Reg.RPL_FO_CFG, Reg.RPL_FO_AMP] ++
  [Reg.RPL_RD_CFG, Reg.RPL_MATCH_CFG, Reg.RPL_RES_BASE_LO, Reg.RPL_RES_BASE_HI,
   Reg.RPL_RES_SIZE, Reg.RPL_RES_HEAD, Reg.RPL_RES_QUEUE, Reg.RPL_SOLVE_US,
   Reg.RPL_EPOCH_MISS, Reg.RPL_SOLVE_FAULT, Reg.RPL_TICK_GAPS, Reg.RPL_RD_COUNT,
   Reg.RPL_RD_IGNORED, Reg.RPL_TRACK_NEW, Reg.RPL_TRACK_LOST, Reg.RPL_COMP_DROPPED,
   Reg.RPL_G_CNT_SAT, Reg.RPL_CTX_BAND_CFG, Reg.RPL_CTX_BAND, Reg.RPL_CTX_BAND_STATE] ++
  [Reg.RPL_CTX_GAP_RESETS, Reg.RPL_CTX_CNT_SAT, Reg.RPL_CH_CFG, Reg.RPL_CH_WEIGHT,
   Reg.RPL_CH_STATE, Reg.RPL_CH_VALID, Reg.RPL_CH_GAP_RESETS, Reg.RPL_CH_CNT_SAT,
   Reg.RPL_TRK_STATE, Reg.RPL_TRK_FREQ, Reg.RPL_TRK_ZETA, Reg.RPL_TRK_AMP,
   Reg.RPL_TRK_SHARE, Reg.RPL_TRK_SERIAL, Reg.RPL_TRK_DAMP_RUN, Reg.RPL_TRK_RD_FREQ,
   Reg.RPL_TRK_RD_ZETA, Reg.RPL_DEF_CFG, Reg.RPL_DEF_SEL, Reg.RPL_DEF_SBASE] ++
  [Reg.RPL_DEF_SLOPE]

/-- ISL.SEL, Table 7.9. -/
def Reg.ISL_SEL : RegDesc where
  name := "ISL.SEL"
  blk := 7
  spaces := [15]
  off := 0x0000
  banked := true
  fields := [⟨"AINC", 31, 31, .rw, [], []⟩,
    ⟨"SPACE", 30, 29, .rw, [(0, 2)], []⟩,
    ⟨"INDEX", 14, 0, .rw, [], []⟩]

/-- ISL.IRQ_STATUS, Table 7.9. -/
def Reg.ISL_IRQ_STATUS : RegDesc where
  name := "ISL.IRQ_STATUS"
  blk := 7
  spaces := [15]
  off := 0x0400
  fields := [⟨"SET_REJECT", 4, 4, .w1c, [], []⟩,
    ⟨"OVERFLOW", 3, 3, .w1c, [], []⟩,
    ⟨"MISMATCH", 2, 2, .w1c, [], []⟩,
    ⟨"CONFIRMED", 1, 1, .w1c, [], []⟩,
    ⟨"CANDIDATE", 0, 0, .w1c, [], []⟩]

/-- ISL.IRQ_ENABLE, Table 7.9. -/
def Reg.ISL_IRQ_ENABLE : RegDesc where
  name := "ISL.IRQ_ENABLE"
  blk := 7
  spaces := [15]
  off := 0x0404
  fields := [⟨"SET_REJECT", 4, 4, .rw, [], []⟩,
    ⟨"OVERFLOW", 3, 3, .rw, [], []⟩,
    ⟨"MISMATCH", 2, 2, .rw, [], []⟩,
    ⟨"CONFIRMED", 1, 1, .rw, [], []⟩,
    ⟨"CANDIDATE", 0, 0, .rw, [], []⟩]

/-- ISL.COMMIT, Table 7.9. -/
def Reg.ISL_COMMIT : RegDesc where
  name := "ISL.COMMIT"
  blk := 7
  spaces := [15]
  off := 0x0408
  fields := [⟨"COMMIT", 0, 0, .wo, [], []⟩]

/-- ISL.STATUS, Table 7.9. -/
def Reg.ISL_STATUS : RegDesc where
  name := "ISL.STATUS"
  blk := 7
  spaces := [15]
  off := 0x040C
  fields := [⟨"SHADOW_PENDING", 31, 31, .ro, [], []⟩,
    ⟨"VALID", 30, 30, .ro, [], []⟩,
    ⟨"UNTRACKED", 29, 16, .ro, [], []⟩,
    ⟨"F", 8, 0, .ro, [], []⟩]

/-- ISL.MAIN_BUS, Table 7.9. -/
def Reg.ISL_MAIN_BUS : RegDesc where
  name := "ISL.MAIN_BUS"
  blk := 7
  spaces := [15]
  off := 0x0410
  fields := [⟨"V", 13, 0, .rws, [], []⟩]

/-- ISL.SLIP_CFG, Table 7.9. -/
def Reg.ISL_SLIP_CFG : RegDesc where
  name := "ISL.SLIP_CFG"
  blk := 7
  spaces := [15]
  off := 0x0414
  reset := 0x012C0032
  fields := [⟨"SLIP_A", 31, 16, .rws, [], []⟩,
    ⟨"SLIP_F", 15, 0, .rws, [], []⟩]

/-- ISL.CONF_CFG, Table 7.9. -/
def Reg.ISL_CONF_CFG : RegDesc where
  name := "ISL.CONF_CFG"
  blk := 7
  spaces := [15]
  off := 0x0418
  reset := 0x020C1800
  fields := [⟨"CONF_N", 27, 24, .rws, [], [(1, 8)]⟩,
    ⟨"ANG_M", 21, 16, .rws, [], []⟩,
    ⟨"STALE_TICKS", 15, 8, .rws, [], [(1, 255)]⟩,
    ⟨"UNKNOWN", 0, 0, .rws, [], []⟩]

/-- ISL.DEAD_V, Table 7.9. -/
def Reg.ISL_DEAD_V : RegDesc where
  name := "ISL.DEAD_V"
  blk := 7
  spaces := [15]
  off := 0x041C
  reset := 0x00000CCD
  fields := [⟨"V", 15, 0, .rws, [], []⟩]

/-- ISL.REP_BASE_LO, Table 7.9. -/
def Reg.ISL_REP_BASE_LO : RegDesc where
  name := "ISL.REP_BASE_LO"
  blk := 7
  spaces := [15]
  off := 0x0420
  fields := [⟨"V", 31, 0, .rw, [], []⟩]

/-- ISL.REP_BASE_HI, Table 7.9. -/
def Reg.ISL_REP_BASE_HI : RegDesc where
  name := "ISL.REP_BASE_HI"
  blk := 7
  spaces := [15]
  off := 0x0424
  fields := [⟨"V", 31, 0, .rw, [], []⟩]

/-- ISL.REP_SIZE, Table 7.9. -/
def Reg.ISL_REP_SIZE : RegDesc where
  name := "ISL.REP_SIZE"
  blk := 7
  spaces := [15]
  off := 0x0428
  fields := [⟨"V", 15, 0, .rw, [(0, 0), (2, 65535)], []⟩]

/-- ISL.REP_HEAD, Table 7.9. -/
def Reg.ISL_REP_HEAD : RegDesc where
  name := "ISL.REP_HEAD"
  blk := 7
  spaces := [15]
  off := 0x042C
  fields := [⟨"V", 15, 0, .ro, [], []⟩]

/-- ISL.REP_QUEUE, Table 7.9. -/
def Reg.ISL_REP_QUEUE : RegDesc where
  name := "ISL.REP_QUEUE"
  blk := 7
  spaces := [15]
  off := 0x0430
  fields := [⟨"V", 5, 0, .rw, [(48, 63)], []⟩]

/-- ISL.LAST_US, Table 7.9. -/
def Reg.ISL_LAST_US : RegDesc where
  name := "ISL.LAST_US"
  blk := 7
  spaces := [15]
  off := 0x0434
  fields := [⟨"V", 7, 0, .ro, [], []⟩]

/-- ISL.RUNS, Table 7.9. -/
def Reg.ISL_RUNS : RegDesc where
  name := "ISL.RUNS"
  blk := 7
  spaces := [15]
  off := 0x0480
  sat := some (0x049C, 0)
  fields := [⟨"V", 31, 0, .rc, [], []⟩]

/-- ISL.EXPIRED, Table 7.9. -/
def Reg.ISL_EXPIRED : RegDesc where
  name := "ISL.EXPIRED"
  blk := 7
  spaces := [15]
  off := 0x0484
  sat := some (0x049C, 1)
  fields := [⟨"V", 31, 0, .rc, [], []⟩]

/-- ISL.CONFIRMED, Table 7.9. -/
def Reg.ISL_CONFIRMED : RegDesc where
  name := "ISL.CONFIRMED"
  blk := 7
  spaces := [15]
  off := 0x0488
  sat := some (0x049C, 2)
  fields := [⟨"V", 31, 0, .rc, [], []⟩]

/-- ISL.ENDED, Table 7.9. -/
def Reg.ISL_ENDED : RegDesc where
  name := "ISL.ENDED"
  blk := 7
  spaces := [15]
  off := 0x048C
  sat := some (0x049C, 3)
  fields := [⟨"V", 31, 0, .rc, [], []⟩]

/-- ISL.MISMATCH, Table 7.9. -/
def Reg.ISL_MISMATCH : RegDesc where
  name := "ISL.MISMATCH"
  blk := 7
  spaces := [15]
  off := 0x0490
  sat := some (0x049C, 4)
  fields := [⟨"V", 31, 0, .rc, [], []⟩]

/-- ISL.STALE, Table 7.9. -/
def Reg.ISL_STALE : RegDesc where
  name := "ISL.STALE"
  blk := 7
  spaces := [15]
  off := 0x0494
  sat := some (0x049C, 5)
  fields := [⟨"V", 31, 0, .rc, [], []⟩]

/-- ISL.OVERFLOW, Table 7.9. -/
def Reg.ISL_OVERFLOW : RegDesc where
  name := "ISL.OVERFLOW"
  blk := 7
  spaces := [15]
  off := 0x0498
  sat := some (0x049C, 6)
  fields := [⟨"V", 31, 0, .rc, [], []⟩]

/-- ISL.G_CNT_SAT, Table 7.9. -/
def Reg.ISL_G_CNT_SAT : RegDesc where
  name := "ISL.G_CNT_SAT"
  blk := 7
  spaces := [15]
  off := 0x049C
  fields := [⟨"SAT", 6, 0, .w1c, [], []⟩]

/-- ISL.BUS_CFG, Table 7.9. -/
def Reg.ISL_BUS_CFG : RegDesc where
  name := "ISL.BUS_CFG"
  blk := 7
  spaces := [0]
  off := 0x0040
  fields := [⟨"EN", 31, 31, .rws, [], []⟩,
    ⟨"MEAS", 30, 30, .rws, [], []⟩,
    ⟨"CONTEXT", 12, 0, .rws, [], []⟩]

/-- ISL.BUS_STATE, Table 7.9. -/
def Reg.ISL_BUS_STATE : RegDesc where
  name := "ISL.BUS_STATE"
  blk := 7
  spaces := [0]
  off := 0x0044
  fields := [⟨"ISLAND_ID", 31, 16, .ro, [], []⟩,
    ⟨"F_VALID", 15, 15, .ro, [], []⟩,
    ⟨"A_VALID", 14, 14, .ro, [], []⟩,
    ⟨"DEAD", 13, 13, .ro, [], []⟩,
    ⟨"MISMATCH", 12, 12, .ro, [], []⟩]

/-- ISL.BR_CFG, Table 7.9. -/
def Reg.ISL_BR_CFG : RegDesc where
  name := "ISL.BR_CFG"
  blk := 7
  spaces := [1]
  off := 0x0040
  fields := [⟨"EN", 31, 31, .rws, [], []⟩,
    ⟨"SRC", 30, 28, .rws, [(0, 4)], []⟩,
    ⟨"POL", 27, 27, .rws, [], []⟩,
    ⟨"BIT", 26, 23, .rws, [], []⟩,
    ⟨"CONTEXT", 12, 0, .rws, [], []⟩]

/-- ISL.BR_BUS, Table 7.9. -/
def Reg.ISL_BR_BUS : RegDesc where
  name := "ISL.BR_BUS"
  blk := 7
  spaces := [1]
  off := 0x0044
  fields := [⟨"BUS_B", 29, 16, .ro, [], []⟩,
    ⟨"BUS_A", 13, 0, .ro, [], []⟩]

/-- ISL.BR_ITHR, Table 7.9. -/
def Reg.ISL_BR_ITHR : RegDesc where
  name := "ISL.BR_ITHR"
  blk := 7
  spaces := [1]
  off := 0x0048
  reset := 0x3CA3D70A
  fields := [⟨"V", 31, 0, .rws, [], []⟩]

/-- ISL.BR_STATE, Table 7.9. -/
def Reg.ISL_BR_STATE : RegDesc where
  name := "ISL.BR_STATE"
  blk := 7
  spaces := [1]
  off := 0x004C
  fields := [⟨"CLOSED", 31, 31, .ro, [], []⟩,
    ⟨"STALE", 30, 30, .ro, [], []⟩,
    ⟨"STALE_RUN", 7, 0, .ro, [], []⟩]

/-- ISL.IS_STATE, Table 7.9. -/
def Reg.ISL_IS_STATE : RegDesc where
  name := "ISL.IS_STATE"
  blk := 7
  spaces := [2]
  off := 0x0040
  fields := [⟨"STATE", 31, 29, .ro, [], []⟩,
    ⟨"SLIP", 28, 28, .ro, [], []⟩,
    ⟨"SLIP_RUN", 27, 24, .ro, [], []⟩,
    ⟨"CONF_LATCH", 23, 23, .ro, [], []⟩,
    ⟨"ID", 15, 0, .ro, [], []⟩]

/-- ISL.IS_COUNT, Table 7.9. -/
def Reg.ISL_IS_COUNT : RegDesc where
  name := "ISL.IS_COUNT"
  blk := 7
  spaces := [2]
  off := 0x0044
  fields := [⟨"V", 14, 0, .ro, [], []⟩]

/-- ISL.IS_REF, Table 7.9. -/
def Reg.ISL_IS_REF : RegDesc where
  name := "ISL.IS_REF"
  blk := 7
  spaces := [2]
  off := 0x0048
  fields := [⟨"NONE", 31, 31, .ro, [], []⟩,
    ⟨"F", 13, 0, .ro, [], []⟩]

/-- ISL.IS_DF, Table 7.9. -/
def Reg.ISL_IS_DF : RegDesc where
  name := "ISL.IS_DF"
  blk := 7
  spaces := [2]
  off := 0x004C
  fields := [⟨"V", 31, 0, .ro, [], []⟩]

/-- ISL.IS_DA, Table 7.9. -/
def Reg.ISL_IS_DA : RegDesc where
  name := "ISL.IS_DA"
  blk := 7
  spaces := [2]
  off := 0x0050
  fields := [⟨"V", 31, 0, .ro, [], []⟩]

/-- ISL.IS_SINCE, Table 7.9. -/
def Reg.ISL_IS_SINCE : RegDesc where
  name := "ISL.IS_SINCE"
  blk := 7
  spaces := [2]
  off := 0x0054
  fields := [⟨"V", 31, 0, .ro, [], []⟩]

/-- The registers of ISL (Table 7.9 and the field tables of its chapter). -/
def Reg.tableISL : List RegDesc :=
  [Reg.ISL_SEL, Reg.ISL_IRQ_STATUS, Reg.ISL_IRQ_ENABLE, Reg.ISL_COMMIT,
   Reg.ISL_STATUS, Reg.ISL_MAIN_BUS, Reg.ISL_SLIP_CFG, Reg.ISL_CONF_CFG,
   Reg.ISL_DEAD_V, Reg.ISL_REP_BASE_LO, Reg.ISL_REP_BASE_HI, Reg.ISL_REP_SIZE,
   Reg.ISL_REP_HEAD, Reg.ISL_REP_QUEUE, Reg.ISL_LAST_US, Reg.ISL_RUNS,
   Reg.ISL_EXPIRED, Reg.ISL_CONFIRMED, Reg.ISL_ENDED, Reg.ISL_MISMATCH] ++
  [Reg.ISL_STALE, Reg.ISL_OVERFLOW, Reg.ISL_G_CNT_SAT, Reg.ISL_BUS_CFG,
   Reg.ISL_BUS_STATE, Reg.ISL_BR_CFG, Reg.ISL_BR_BUS, Reg.ISL_BR_ITHR,
   Reg.ISL_BR_STATE, Reg.ISL_IS_STATE, Reg.ISL_IS_COUNT, Reg.ISL_IS_REF,
   Reg.ISL_IS_DF, Reg.ISL_IS_DA, Reg.ISL_IS_SINCE]

/-- ALM.SEL, Table 7.10. -/
def Reg.ALM_SEL : RegDesc where
  name := "ALM.SEL"
  blk := 8
  spaces := [15]
  off := 0x0000
  banked := true
  fields := [⟨"AINC", 31, 31, .rw, [], []⟩,
    ⟨"SPACE", 30, 29, .rw, [], []⟩,
    ⟨"INDEX", 12, 0, .rw, [], []⟩]

/-- ALM.IRQ_STATUS, Table 7.10. -/
def Reg.ALM_IRQ_STATUS : RegDesc where
  name := "ALM.IRQ_STATUS"
  blk := 8
  spaces := [15]
  off := 0x0400
  fields := [⟨"SET_REJECT", 4, 4, .w1c, [], []⟩,
    ⟨"KEY_ABSENT", 3, 3, .w1c, [], []⟩,
    ⟨"RESET_REFUSED", 2, 2, .w1c, [], []⟩,
    ⟨"CLEAR", 1, 1, .w1c, [], []⟩,
    ⟨"ASSERT", 0, 0, .w1c, [], []⟩]

/-- ALM.IRQ_ENABLE, Table 7.10. -/
def Reg.ALM_IRQ_ENABLE : RegDesc where
  name := "ALM.IRQ_ENABLE"
  blk := 8
  spaces := [15]
  off := 0x0404
  fields := [⟨"SET_REJECT", 4, 4, .rw, [], []⟩,
    ⟨"KEY_ABSENT", 3, 3, .rw, [], []⟩,
    ⟨"RESET_REFUSED", 2, 2, .rw, [], []⟩,
    ⟨"CLEAR", 1, 1, .rw, [], []⟩,
    ⟨"ASSERT", 0, 0, .rw, [], []⟩]

/-- ALM.COMMIT, Table 7.10. -/
def Reg.ALM_COMMIT : RegDesc where
  name := "ALM.COMMIT"
  blk := 8
  spaces := [15]
  off := 0x0408
  fields := [⟨"COMMIT", 0, 0, .wo, [], []⟩]

/-- ALM.STATUS, Table 7.10. -/
def Reg.ALM_STATUS : RegDesc where
  name := "ALM.STATUS"
  blk := 8
  spaces := [15]
  off := 0x040C
  fields := [⟨"SHADOW_PENDING", 31, 31, .ro, [], []⟩,
    ⟨"F", 8, 0, .ro, [], []⟩]

/-- ALM.AO_STATE, Table 7.10. -/
def Reg.ALM_AO_STATE : RegDesc where
  name := "ALM.AO_STATE"
  blk := 8
  spaces := [15]
  off := 0x0410
  fields := [⟨"V", 15, 0, .ro, [], []⟩]

/-- ALM.AO_FORCE, Table 7.10. -/
def Reg.ALM_AO_FORCE : RegDesc where
  name := "ALM.AO_FORCE"
  blk := 8
  spaces := [15]
  off := 0x0414
  fields := [⟨"FORCE_EN", 31, 16, .rw, [], []⟩,
    ⟨"FORCE_VAL", 15, 0, .rw, [], []⟩]

/-- ALM.DI_STATE, Table 7.10. -/
def Reg.ALM_DI_STATE : RegDesc where
  name := "ALM.DI_STATE"
  blk := 8
  spaces := [15]
  off := 0x0418
  fields := [⟨"V", 7, 0, .ro, [], []⟩]

/-- ALM.DI_CFG, Table 7.10. -/
def Reg.ALM_DI_CFG : RegDesc where
  name := "ALM.DI_CFG"
  blk := 8
  spaces := [15]
  off := 0x041C
  reset := 0x0000000A
  fields := [⟨"V", 15, 0, .rw, [(1, 1000)], []⟩]

/-- ALM.AO_CFG, Table 7.10. -/
def Reg.ALM_AO_CFG : RegDesc where
  name := "ALM.AO_CFG"
  blk := 8
  spaces := [15]
  off := 0x0440
  n := 16
  fields := [⟨"FAILSAFE", 31, 31, .rws, [], []⟩,
    ⟨"ACQ_DRIVE", 30, 30, .rws, [], []⟩,
    ⟨"PULSE_MS", 15, 0, .rws, [], []⟩]

/-- ALM.Q_LOST, Table 7.10. -/
def Reg.ALM_Q_LOST : RegDesc where
  name := "ALM.Q_LOST"
  blk := 8
  spaces := [15]
  off := 0x0480
  sat := some (0x048C, 0)
  fields := [⟨"V", 31, 0, .rc, [], []⟩]

/-- ALM.PUB_KEY_ABSENT, Table 7.10. -/
def Reg.ALM_PUB_KEY_ABSENT : RegDesc where
  name := "ALM.PUB_KEY_ABSENT"
  blk := 8
  spaces := [15]
  off := 0x0484
  sat := some (0x048C, 1)
  fields := [⟨"V", 31, 0, .rc, [], []⟩]

/-- ALM.HELD_TICKS, Table 7.10. -/
def Reg.ALM_HELD_TICKS : RegDesc where
  name := "ALM.HELD_TICKS"
  blk := 8
  spaces := [15]
  off := 0x0488
  sat := some (0x048C, 2)
  fields := [⟨"V", 31, 0, .rc, [], []⟩]

/-- ALM.G_CNT_SAT, Table 7.10. -/
def Reg.ALM_G_CNT_SAT : RegDesc where
  name := "ALM.G_CNT_SAT"
  blk := 8
  spaces := [15]
  off := 0x048C
  fields := [⟨"SAT", 3, 0, .w1c, [], []⟩]

/-- ALM.PUB_KEY_ABORT, Table 7.10. -/
def Reg.ALM_PUB_KEY_ABORT : RegDesc where
  name := "ALM.PUB_KEY_ABORT"
  blk := 8
  spaces := [15]
  off := 0x0490
  sat := some (0x048C, 3)
  fields := [⟨"V", 31, 0, .rc, [], []⟩]

/-- ALM.PUB_CFG, Table 7.10. -/
def Reg.ALM_PUB_CFG : RegDesc where
  name := "ALM.PUB_CFG"
  blk := 8
  spaces := [15]
  off := 0x0500
  n := 8
  stride := 0x40
  fields := [⟨"EN", 31, 31, .rws, [], []⟩,
    ⟨"R_GOOSE", 30, 30, .rws, [], []⟩,
    ⟨"V6", 29, 29, .rws, [], []⟩,
    ⟨"QUAL", 28, 28, .rws, [], []⟩,
    ⟨"PORT", 27, 23, .rws, [(0, 27)], []⟩,
    ⟨"ACQ_SEND", 22, 22, .rws, [], []⟩,
    ⟨"KEY_SLOT", 21, 16, .rws, [], []⟩,
    ⟨"APPID", 15, 0, .rws, [], []⟩]

/-- ALM.PUB_NDS, Table 7.10. -/
def Reg.ALM_PUB_NDS : RegDesc where
  name := "ALM.PUB_NDS"
  blk := 8
  spaces := [15]
  off := 0x0504
  n := 8
  stride := 0x40
  fields := [⟨"V", 6, 0, .ro, [], []⟩]

/-- ALM.PUB_TIMING, Table 7.10. -/
def Reg.ALM_PUB_TIMING : RegDesc where
  name := "ALM.PUB_TIMING"
  blk := 8
  spaces := [15]
  off := 0x0508
  n := 8
  stride := 0x40
  reset := 0x03E80002
  fields := [⟨"T0", 31, 16, .rws, [], [(100, 60000)]⟩,
    ⟨"T1", 6, 0, .rws, [], [(1, 100)]⟩]

/-- ALM.PUB_DST_0, Table 7.10. -/
def Reg.ALM_PUB_DST_0 : RegDesc where
  name := "ALM.PUB_DST_0"
  blk := 8
  spaces := [15]
  off := 0x050C
  n := 8
  stride := 0x40
  fields := [⟨"V", 31, 0, .rws, [], []⟩]

/-- ALM.PUB_DST_1, Table 7.10. -/
def Reg.ALM_PUB_DST_1 : RegDesc where
  name := "ALM.PUB_DST_1"
  blk := 8
  spaces := [15]
  off := 0x0510
  n := 8
  stride := 0x40
  fields := [⟨"V", 31, 0, .rws, [], []⟩]

/-- ALM.PUB_DST_2, Table 7.10. -/
def Reg.ALM_PUB_DST_2 : RegDesc where
  name := "ALM.PUB_DST_2"
  blk := 8
  spaces := [15]
  off := 0x0514
  n := 8
  stride := 0x40
  fields := [⟨"V", 31, 0, .rws, [], []⟩]

/-- ALM.PUB_DST_3, Table 7.10. -/
def Reg.ALM_PUB_DST_3 : RegDesc where
  name := "ALM.PUB_DST_3"
  blk := 8
  spaces := [15]
  off := 0x0518
  n := 8
  stride := 0x40
  fields := [⟨"V", 31, 0, .rws, [], []⟩]

/-- ALM.PUB_DMAC_LO, Table 7.10. -/
def Reg.ALM_PUB_DMAC_LO : RegDesc where
  name := "ALM.PUB_DMAC_LO"
  blk := 8
  spaces := [15]
  off := 0x051C
  n := 8
  stride := 0x40
  fields := [⟨"V", 31, 0, .rws, [], []⟩]

/-- ALM.PUB_DMAC_HI, Table 7.10. -/
def Reg.ALM_PUB_DMAC_HI : RegDesc where
  name := "ALM.PUB_DMAC_HI"
  blk := 8
  spaces := [15]
  off := 0x0520
  n := 8
  stride := 0x40
  fields := [⟨"V", 31, 0, .rws, [], []⟩]

/-- ALM.PUB_TCI, Table 7.10. -/
def Reg.ALM_PUB_TCI : RegDesc where
  name := "ALM.PUB_TCI"
  blk := 8
  spaces := [15]
  off := 0x0524
  n := 8
  stride := 0x40
  fields := [⟨"V", 15, 0, .rws, [], []⟩]

/-- ALM.PUB_UDP, Table 7.10. -/
def Reg.ALM_PUB_UDP : RegDesc where
  name := "ALM.PUB_UDP"
  blk := 8
  spaces := [15]
  off := 0x0528
  n := 8
  stride := 0x40
  reset := 0x00660066
  fields := [⟨"DST", 31, 16, .rws, [], []⟩,
    ⟨"SRC", 15, 0, .rws, [], []⟩]

/-- ALM.PUB_STNUM, Table 7.10. -/
def Reg.ALM_PUB_STNUM : RegDesc where
  name := "ALM.PUB_STNUM"
  blk := 8
  spaces := [15]
  off := 0x052C
  n := 8
  stride := 0x40
  fields := [⟨"V", 31, 0, .ro, [], []⟩]

/-- ALM.PUB_SQNUM, Table 7.10. -/
def Reg.ALM_PUB_SQNUM : RegDesc where
  name := "ALM.PUB_SQNUM"
  blk := 8
  spaces := [15]
  off := 0x0530
  n := 8
  stride := 0x40
  fields := [⟨"V", 31, 0, .ro, [], []⟩]

/-- ALM.PUB_SENT, Table 7.10. -/
def Reg.ALM_PUB_SENT : RegDesc where
  name := "ALM.PUB_SENT"
  blk := 8
  spaces := [15]
  off := 0x0534
  n := 8
  stride := 0x40
  sat := some (0x0700, 0)
  fields := [⟨"V", 31, 0, .rc, [], []⟩]

/-- ALM.PUB_SAT, Table 7.10. -/
def Reg.ALM_PUB_SAT : RegDesc where
  name := "ALM.PUB_SAT"
  blk := 8
  spaces := [15]
  off := 0x0700
  fields := [⟨"SAT", 7, 0, .w1c, [], []⟩]

/-- ALM.PUB_DS, Table 7.10. -/
def Reg.ALM_PUB_DS : RegDesc where
  name := "ALM.PUB_DS"
  blk := 8
  spaces := [15]
  off := 0x0800
  n := 128
  fields := [⟨"V", 31, 0, .ro, [], []⟩]

/-- ALM.THR_CFG, Table 7.10. -/
def Reg.ALM_THR_CFG : RegDesc where
  name := "ALM.THR_CFG"
  blk := 8
  spaces := [0]
  off := 0x0040
  n := 4
  fields := [⟨"EN", 31, 31, .rws, [], []⟩,
    ⟨"MODE", 30, 28, .rws, [(0, 2)], []⟩,
    ⟨"SRC", 27, 24, .rws, [(0, 9)], []⟩]

/-- ALM.THR_LEVEL, Table 7.10. -/
def Reg.ALM_THR_LEVEL : RegDesc where
  name := "ALM.THR_LEVEL"
  blk := 8
  spaces := [0]
  off := 0x0050
  n := 4
  fields := [⟨"V", 31, 0, .rws, [], []⟩]

/-- ALM.THR_HYST, Table 7.10. -/
def Reg.ALM_THR_HYST : RegDesc where
  name := "ALM.THR_HYST"
  blk := 8
  spaces := [0]
  off := 0x0060
  n := 4
  fields := [⟨"V", 31, 0, .rws, [], []⟩]

/-- ALM.THR_STATE, Table 7.10. -/
def Reg.ALM_THR_STATE : RegDesc where
  name := "ALM.THR_STATE"
  blk := 8
  spaces := [0]
  off := 0x0070
  fields := [⟨"V", 7, 0, .ro, [], []⟩]

/-- ALM.PAIR_CFG, Table 7.10. -/
def Reg.ALM_PAIR_CFG : RegDesc where
  name := "ALM.PAIR_CFG"
  blk := 8
  spaces := [1]
  off := 0x0040
  fields := [⟨"EN", 31, 31, .rws, [], []⟩,
    ⟨"MODE", 30, 30, .rws, [], []⟩,
    ⟨"CTX_B", 28, 16, .rws, [], []⟩,
    ⟨"CTX_A", 12, 0, .rws, [], []⟩]

/-- ALM.PAIR_LIMIT, Table 7.10. -/
def Reg.ALM_PAIR_LIMIT : RegDesc where
  name := "ALM.PAIR_LIMIT"
  blk := 8
  spaces := [1]
  off := 0x0044
  fields := [⟨"V", 31, 0, .rws, [], []⟩]

/-- ALM.PAIR_HYST, Table 7.10. -/
def Reg.ALM_PAIR_HYST : RegDesc where
  name := "ALM.PAIR_HYST"
  blk := 8
  spaces := [1]
  off := 0x0048
  fields := [⟨"V", 31, 0, .rws, [], []⟩]

/-- ALM.PAIR_STATE, Table 7.10. -/
def Reg.ALM_PAIR_STATE : RegDesc where
  name := "ALM.PAIR_STATE"
  blk := 8
  spaces := [1]
  off := 0x004C
  fields := [⟨"V", 1, 0, .ro, [], []⟩]

/-- ALM.PAIR_DELTA, Table 7.10. -/
def Reg.ALM_PAIR_DELTA : RegDesc where
  name := "ALM.PAIR_DELTA"
  blk := 8
  spaces := [1]
  off := 0x0050
  fields := [⟨"V", 31, 0, .ro, [], []⟩]

/-- ALM.DEF_CFG, Table 7.10. -/
def Reg.ALM_DEF_CFG : RegDesc where
  name := "ALM.DEF_CFG"
  blk := 8
  spaces := [2]
  off := 0x0040
  reset := 0x00000101
  fields := [⟨"EN", 31, 31, .rws, [], []⟩,
    ⟨"RING", 30, 30, .rws, [], []⟩,
    ⟨"LATCH", 29, 29, .rws, [], []⟩,
    ⟨"INV", 28, 27, .rws, [(0, 2)], []⟩,
    ⟨"OP", 26, 25, .rws, [(0, 2)], []⟩,
    ⟨"K", 24, 22, .rws, [], []⟩,
    ⟨"CONF", 15, 8, .rws, [], [(1, 255)]⟩,
    ⟨"CLR", 7, 0, .rws, [], [(1, 255)]⟩]

/-- ALM.DEF_IN, Table 7.10. -/
def Reg.ALM_DEF_IN : RegDesc where
  name := "ALM.DEF_IN"
  blk := 8
  spaces := [2]
  off := 0x0044
  n := 4
  fields := [⟨"EN", 31, 31, .rws, [], []⟩,
    ⟨"NOT", 30, 30, .rws, [], []⟩,
    ⟨"TYPE", 29, 26, .rws, [(0, 7)], []⟩,
    ⟨"ARG", 25, 0, .rws, [], []⟩]

/-- ALM.DEF_ACT, Table 7.10. -/
def Reg.ALM_DEF_ACT : RegDesc where
  name := "ALM.DEF_ACT"
  blk := 8
  spaces := [2]
  off := 0x0054
  fields := [⟨"AO_EN", 31, 31, .rws, [], []⟩,
    ⟨"AO", 27, 24, .rws, [], []⟩,
    ⟨"Q_EN", 23, 23, .rws, [], []⟩,
    ⟨"QUEUE", 22, 21, .rws, [], []⟩]

/-- ALM.DEF_STATE, Table 7.10. -/
def Reg.ALM_DEF_STATE : RegDesc where
  name := "ALM.DEF_STATE"
  blk := 8
  spaces := [2]
  off := 0x0058
  fields := [⟨"STATE", 31, 29, .ro, [], []⟩,
    ⟨"OUT", 28, 28, .ro, [], []⟩,
    ⟨"RAW", 27, 27, .ro, [], []⟩,
    ⟨"RESET_PENDING", 26, 26, .ro, [], []⟩,
    ⟨"HELD", 25, 25, .ro, [], []⟩,
    ⟨"RUN", 15, 8, .ro, [], []⟩]

/-- ALM.DEF_CMD, Table 7.10. -/
def Reg.ALM_DEF_CMD : RegDesc where
  name := "ALM.DEF_CMD"
  blk := 8
  spaces := [2]
  off := 0x005C
  fields := [⟨"RESET", 0, 0, .wo, [], []⟩]

/-- ALM.DEF_ASSERTS, Table 7.10. -/
def Reg.ALM_DEF_ASSERTS : RegDesc where
  name := "ALM.DEF_ASSERTS"
  blk := 8
  spaces := [2]
  off := 0x0060
  sat := some (0x006C, 0)
  fields := [⟨"V", 31, 0, .rc, [], []⟩]

/-- ALM.DEF_HELD, Table 7.10. -/
def Reg.ALM_DEF_HELD : RegDesc where
  name := "ALM.DEF_HELD"
  blk := 8
  spaces := [2]
  off := 0x0064
  sat := some (0x006C, 1)
  fields := [⟨"V", 31, 0, .rc, [], []⟩]

/-- ALM.DEF_RESET_REFUSED, Table 7.10. -/
def Reg.ALM_DEF_RESET_REFUSED : RegDesc where
  name := "ALM.DEF_RESET_REFUSED"
  blk := 8
  spaces := [2]
  off := 0x0068
  sat := some (0x006C, 2)
  fields := [⟨"V", 31, 0, .rc, [], []⟩]

/-- ALM.DEF_CNT_SAT, Table 7.10. -/
def Reg.ALM_DEF_CNT_SAT : RegDesc where
  name := "ALM.DEF_CNT_SAT"
  blk := 8
  spaces := [2]
  off := 0x006C
  fields := [⟨"SAT", 2, 0, .w1c, [], []⟩]

/-- ALM.DEF_LAST_SEQ, Table 7.10. -/
def Reg.ALM_DEF_LAST_SEQ : RegDesc where
  name := "ALM.DEF_LAST_SEQ"
  blk := 8
  spaces := [2]
  off := 0x0070
  fields := [⟨"V", 31, 0, .ro, [], []⟩]

/-- ALM.GRP_IDX, Table 7.10. -/
def Reg.ALM_GRP_IDX : RegDesc where
  name := "ALM.GRP_IDX"
  blk := 8
  spaces := [3]
  off := 0x0040
  banked := true
  fields := [⟨"V", 7, 0, .rw, [], []⟩]

/-- ALM.GRP_DATA, Table 7.10. -/
def Reg.ALM_GRP_DATA : RegDesc where
  name := "ALM.GRP_DATA"
  blk := 8
  spaces := [3]
  off := 0x0044
  fields := [⟨"V", 31, 0, .rws, [], []⟩]

/-- ALM.GRP_COUNT, Table 7.10. -/
def Reg.ALM_GRP_COUNT : RegDesc where
  name := "ALM.GRP_COUNT"
  blk := 8
  spaces := [3]
  off := 0x0048
  fields := [⟨"V", 13, 0, .ro, [], []⟩]

/-- The registers of ALM (Table 7.10 and the field tables of its chapter). -/
def Reg.tableALM : List RegDesc :=
  [Reg.ALM_SEL, Reg.ALM_IRQ_STATUS, Reg.ALM_IRQ_ENABLE, Reg.ALM_COMMIT,
   Reg.ALM_STATUS, Reg.ALM_AO_STATE, Reg.ALM_AO_FORCE, Reg.ALM_DI_STATE,
   Reg.ALM_DI_CFG, Reg.ALM_AO_CFG, Reg.ALM_Q_LOST, Reg.ALM_PUB_KEY_ABSENT,
   Reg.ALM_HELD_TICKS, Reg.ALM_G_CNT_SAT, Reg.ALM_PUB_KEY_ABORT, Reg.ALM_PUB_CFG,
   Reg.ALM_PUB_NDS, Reg.ALM_PUB_TIMING, Reg.ALM_PUB_DST_0, Reg.ALM_PUB_DST_1] ++
  [Reg.ALM_PUB_DST_2, Reg.ALM_PUB_DST_3, Reg.ALM_PUB_DMAC_LO, Reg.ALM_PUB_DMAC_HI,
   Reg.ALM_PUB_TCI, Reg.ALM_PUB_UDP, Reg.ALM_PUB_STNUM, Reg.ALM_PUB_SQNUM,
   Reg.ALM_PUB_SENT, Reg.ALM_PUB_SAT, Reg.ALM_PUB_DS, Reg.ALM_THR_CFG,
   Reg.ALM_THR_LEVEL, Reg.ALM_THR_HYST, Reg.ALM_THR_STATE, Reg.ALM_PAIR_CFG,
   Reg.ALM_PAIR_LIMIT, Reg.ALM_PAIR_HYST, Reg.ALM_PAIR_STATE, Reg.ALM_PAIR_DELTA] ++
  [Reg.ALM_DEF_CFG, Reg.ALM_DEF_IN, Reg.ALM_DEF_ACT, Reg.ALM_DEF_STATE,
   Reg.ALM_DEF_CMD, Reg.ALM_DEF_ASSERTS, Reg.ALM_DEF_HELD, Reg.ALM_DEF_RESET_REFUSED,
   Reg.ALM_DEF_CNT_SAT, Reg.ALM_DEF_LAST_SEQ, Reg.ALM_GRP_IDX, Reg.ALM_GRP_DATA,
   Reg.ALM_GRP_COUNT]

end Sys2Proof.Machine
end

