-- ==== Sys2Proof/Machine/RegMapC.lean ====
section
/-! DEFINITION. The register maps of DFE, SDM, NRG, CAP, RAD, one descriptor per register, from the register tables of the spec. -/

namespace Sys2Proof.Machine

/-- DFE.SEL, Table 8.6. -/
def Reg.DFE_SEL : RegDesc where
  name := "DFE.SEL"
  blk := 9
  spaces := [15]
  off := 0x0000
  banked := true
  fields := [⟨"AINC", 31, 31, .rw, [], []⟩,
    ⟨"SPACE", 30, 29, .rw, [(0, 1)], []⟩,
    ⟨"INDEX", 11, 0, .rw, [], []⟩]

/-- DFE.IRQ_STATUS, Table 8.6. -/
def Reg.DFE_IRQ_STATUS : RegDesc where
  name := "DFE.IRQ_STATUS"
  blk := 9
  spaces := [15]
  off := 0x0400
  fields := [⟨"INJ_REFUSED", 7, 7, .w1c, [], []⟩,
    ⟨"SET_REJECT", 6, 6, .w1c, [], []⟩,
    ⟨"MATCH_COLLIDE", 5, 5, .w1c, [], []⟩,
    ⟨"SLUICE", 4, 4, .w1c, [], []⟩,
    ⟨"CORE_MEM", 3, 3, .w1c, [], []⟩,
    ⟨"CORE_FROZEN", 2, 2, .w1c, [], []⟩,
    ⟨"GEN_CHANGE", 1, 1, .w1c, [], []⟩,
    ⟨"DEADLINE_MISS", 0, 0, .w1c, [], []⟩]

/-- DFE.IRQ_ENABLE, Table 8.6. -/
def Reg.DFE_IRQ_ENABLE : RegDesc where
  name := "DFE.IRQ_ENABLE"
  blk := 9
  spaces := [15]
  off := 0x0404
  fields := [⟨"INJ_REFUSED", 7, 7, .rw, [], []⟩,
    ⟨"SET_REJECT", 6, 6, .rw, [], []⟩,
    ⟨"MATCH_COLLIDE", 5, 5, .rw, [], []⟩,
    ⟨"SLUICE", 4, 4, .rw, [], []⟩,
    ⟨"CORE_MEM", 3, 3, .rw, [], []⟩,
    ⟨"CORE_FROZEN", 2, 2, .rw, [], []⟩,
    ⟨"GEN_CHANGE", 1, 1, .rw, [], []⟩,
    ⟨"DEADLINE_MISS", 0, 0, .rw, [], []⟩]

/-- DFE.COMMIT, Table 8.6. -/
def Reg.DFE_COMMIT : RegDesc where
  name := "DFE.COMMIT"
  blk := 9
  spaces := [15]
  off := 0x0408
  fields := [⟨"COMMIT", 0, 0, .wo, [], []⟩]

/-- DFE.STATUS, Table 8.6. -/
def Reg.DFE_STATUS : RegDesc where
  name := "DFE.STATUS"
  blk := 9
  spaces := [15]
  off := 0x040C
  fields := [⟨"SHADOW_PENDING", 31, 31, .ro, [], []⟩,
    ⟨"F", 5, 0, .ro, [], []⟩]

/-- DFE.GEN, Table 8.6. -/
def Reg.DFE_GEN : RegDesc where
  name := "DFE.GEN"
  blk := 9
  spaces := [15]
  off := 0x0410
  fields := [⟨"V", 7, 0, .ro, [], []⟩]

/-- DFE.SPILL_CFG, Table 8.6. -/
def Reg.DFE_SPILL_CFG : RegDesc where
  name := "DFE.SPILL_CFG"
  blk := 9
  spaces := [15]
  off := 0x0414
  reset := 0x00000008
  fields := [⟨"THRESH", 3, 0, .rws, [], [(1, 15)]⟩]

/-- DFE.SLUICE_CFG, Table 8.6. -/
def Reg.DFE_SLUICE_CFG : RegDesc where
  name := "DFE.SLUICE_CFG"
  blk := 9
  spaces := [15]
  off := 0x0418
  reset := 0x00000400
  fields := [⟨"LOW", 12, 0, .rws, [], [(256, 4096)]⟩]

/-- DFE.MS_USED, Table 8.6. -/
def Reg.DFE_MS_USED : RegDesc where
  name := "DFE.MS_USED"
  blk := 9
  spaces := [15]
  off := 0x041C
  fields := [⟨"F", 28, 16, .ro, [], []⟩,
    ⟨"F", 12, 0, .ro, [], []⟩]

/-- DFE.INJ_ADDR_LO, Table 8.6. -/
def Reg.DFE_INJ_ADDR_LO : RegDesc where
  name := "DFE.INJ_ADDR_LO"
  blk := 9
  spaces := [15]
  off := 0x0420
  banked := true
  fields := [⟨"V", 31, 0, .rw, [], []⟩]

/-- DFE.INJ_ADDR_HI, Table 8.6. -/
def Reg.DFE_INJ_ADDR_HI : RegDesc where
  name := "DFE.INJ_ADDR_HI"
  blk := 9
  spaces := [15]
  off := 0x0424
  banked := true
  fields := [⟨"V", 31, 0, .rw, [], []⟩]

/-- DFE.INJ_LEN, Table 8.6. -/
def Reg.DFE_INJ_LEN : RegDesc where
  name := "DFE.INJ_LEN"
  blk := 9
  spaces := [15]
  off := 0x0428
  banked := true
  fields := [⟨"V", 20, 0, .rw, [(1, 1048576)], []⟩]

/-- DFE.INJ_GO, Table 8.6. -/
def Reg.DFE_INJ_GO : RegDesc where
  name := "DFE.INJ_GO"
  blk := 9
  spaces := [15]
  off := 0x042C
  banked := true
  fields := [⟨"F", 27, 16, .wo, [], []⟩,
    ⟨"F", 1, 0, .wo, [], []⟩]

/-- DFE.INJ_STATUS, Table 8.6. -/
def Reg.DFE_INJ_STATUS : RegDesc where
  name := "DFE.INJ_STATUS"
  blk := 9
  spaces := [15]
  off := 0x0430
  banked := true
  fields := [⟨"REFUSED", 0, 0, .rc, [], []⟩]

/-- DFE.POOL_LO, Table 8.6. -/
def Reg.DFE_POOL_LO : RegDesc where
  name := "DFE.POOL_LO"
  blk := 9
  spaces := [15]
  off := 0x0434
  fields := [⟨"V", 31, 0, .ro, [], []⟩]

/-- DFE.POOL_HI, Table 8.6. -/
def Reg.DFE_POOL_HI : RegDesc where
  name := "DFE.POOL_HI"
  blk := 9
  spaces := [15]
  off := 0x0438
  fields := [⟨"V", 31, 0, .ro, [], []⟩]

/-- DFE.DEADLINE_MISS, Table 8.6. -/
def Reg.DFE_DEADLINE_MISS : RegDesc where
  name := "DFE.DEADLINE_MISS"
  blk := 9
  spaces := [15]
  off := 0x0500
  sat := some (0x0504, 0)
  fields := [⟨"V", 31, 0, .rc, [], []⟩]

/-- DFE.DEADLINE_MISS_SAT, Table 8.6. -/
def Reg.DFE_DEADLINE_MISS_SAT : RegDesc where
  name := "DFE.DEADLINE_MISS_SAT"
  blk := 9
  spaces := [15]
  off := 0x0504
  fields := [⟨"SAT", 0, 0, .w1c, [], []⟩]

/-- DFE.EXPIRED_TOKENS, Table 8.6. -/
def Reg.DFE_EXPIRED_TOKENS : RegDesc where
  name := "DFE.EXPIRED_TOKENS"
  blk := 9
  spaces := [15]
  off := 0x0508
  sat := some (0x050C, 0)
  fields := [⟨"V", 31, 0, .rc, [], []⟩]

/-- DFE.EXPIRED_TOKENS_SAT, Table 8.6. -/
def Reg.DFE_EXPIRED_TOKENS_SAT : RegDesc where
  name := "DFE.EXPIRED_TOKENS_SAT"
  blk := 9
  spaces := [15]
  off := 0x050C
  fields := [⟨"SAT", 0, 0, .w1c, [], []⟩]

/-- DFE.STALE_GEN, Table 8.6. -/
def Reg.DFE_STALE_GEN : RegDesc where
  name := "DFE.STALE_GEN"
  blk := 9
  spaces := [15]
  off := 0x0510
  sat := some (0x0514, 0)
  fields := [⟨"V", 31, 0, .rc, [], []⟩]

/-- DFE.STALE_GEN_SAT, Table 8.6. -/
def Reg.DFE_STALE_GEN_SAT : RegDesc where
  name := "DFE.STALE_GEN_SAT"
  blk := 9
  spaces := [15]
  off := 0x0514
  fields := [⟨"SAT", 0, 0, .w1c, [], []⟩]

/-- DFE.MATCH_COLLIDE, Table 8.6. -/
def Reg.DFE_MATCH_COLLIDE : RegDesc where
  name := "DFE.MATCH_COLLIDE"
  blk := 9
  spaces := [15]
  off := 0x0518
  sat := some (0x051C, 0)
  fields := [⟨"V", 31, 0, .rc, [], []⟩]

/-- DFE.MATCH_COLLIDE_SAT, Table 8.6. -/
def Reg.DFE_MATCH_COLLIDE_SAT : RegDesc where
  name := "DFE.MATCH_COLLIDE_SAT"
  blk := 9
  spaces := [15]
  off := 0x051C
  fields := [⟨"SAT", 0, 0, .w1c, [], []⟩]

/-- DFE.SLUICE_HOLDS, Table 8.6. -/
def Reg.DFE_SLUICE_HOLDS : RegDesc where
  name := "DFE.SLUICE_HOLDS"
  blk := 9
  spaces := [15]
  off := 0x0520
  sat := some (0x0524, 0)
  fields := [⟨"V", 31, 0, .rc, [], []⟩]

/-- DFE.SLUICE_HOLDS_SAT, Table 8.6. -/
def Reg.DFE_SLUICE_HOLDS_SAT : RegDesc where
  name := "DFE.SLUICE_HOLDS_SAT"
  blk := 9
  spaces := [15]
  off := 0x0524
  fields := [⟨"SAT", 0, 0, .w1c, [], []⟩]

/-- DFE.INCOMPLETE_TOKENS, Table 8.6. -/
def Reg.DFE_INCOMPLETE_TOKENS : RegDesc where
  name := "DFE.INCOMPLETE_TOKENS"
  blk := 9
  spaces := [15]
  off := 0x0528
  sat := some (0x052C, 0)
  fields := [⟨"V", 31, 0, .rc, [], []⟩]

/-- DFE.INCOMPLETE_TOKENS_SAT, Table 8.6. -/
def Reg.DFE_INCOMPLETE_TOKENS_SAT : RegDesc where
  name := "DFE.INCOMPLETE_TOKENS_SAT"
  blk := 9
  spaces := [15]
  off := 0x052C
  fields := [⟨"SAT", 0, 0, .w1c, [], []⟩]

/-- DFE.CORE_FREEZES, Table 8.6. -/
def Reg.DFE_CORE_FREEZES : RegDesc where
  name := "DFE.CORE_FREEZES"
  blk := 9
  spaces := [15]
  off := 0x0530
  sat := some (0x0534, 0)
  fields := [⟨"V", 31, 0, .rc, [], []⟩]

/-- DFE.CORE_FREEZES_SAT, Table 8.6. -/
def Reg.DFE_CORE_FREEZES_SAT : RegDesc where
  name := "DFE.CORE_FREEZES_SAT"
  blk := 9
  spaces := [15]
  off := 0x0534
  fields := [⟨"SAT", 0, 0, .w1c, [], []⟩]

/-- DFE.INJ_REFUSED, Table 8.6. -/
def Reg.DFE_INJ_REFUSED : RegDesc where
  name := "DFE.INJ_REFUSED"
  blk := 9
  spaces := [15]
  off := 0x0538
  sat := some (0x053C, 0)
  fields := [⟨"V", 31, 0, .rc, [], []⟩]

/-- DFE.INJ_REFUSED_SAT, Table 8.6. -/
def Reg.DFE_INJ_REFUSED_SAT : RegDesc where
  name := "DFE.INJ_REFUSED_SAT"
  blk := 9
  spaces := [15]
  off := 0x053C
  fields := [⟨"SAT", 0, 0, .w1c, [], []⟩]

/-- DFE.HOST_OUT_LOST, Table 8.6. -/
def Reg.DFE_HOST_OUT_LOST : RegDesc where
  name := "DFE.HOST_OUT_LOST"
  blk := 9
  spaces := [15]
  off := 0x0540
  sat := some (0x0544, 0)
  fields := [⟨"V", 31, 0, .rc, [], []⟩]

/-- DFE.HOST_OUT_LOST_SAT, Table 8.6. -/
def Reg.DFE_HOST_OUT_LOST_SAT : RegDesc where
  name := "DFE.HOST_OUT_LOST_SAT"
  blk := 9
  spaces := [15]
  off := 0x0544
  fields := [⟨"SAT", 0, 0, .w1c, [], []⟩]

/-- DFE.CORE_STATE, Table 8.6. -/
def Reg.DFE_CORE_STATE : RegDesc where
  name := "DFE.CORE_STATE"
  blk := 9
  spaces := [0]
  off := 0x0040
  fields := [⟨"STATE", 31, 29, .ro, [], []⟩,
    ⟨"IN_POOL", 28, 28, .ro, [], []⟩,
    ⟨"QDEPTH", 20, 16, .ro, [], []⟩,
    ⟨"OP", 11, 0, .ro, [], []⟩]

/-- DFE.CORE_CMD, Table 8.6. -/
def Reg.DFE_CORE_CMD : RegDesc where
  name := "DFE.CORE_CMD"
  blk := 9
  spaces := [0]
  off := 0x0044
  fields := [⟨"RELEASE", 0, 0, .wo, [], []⟩]

/-- DFE.CORE_FIRINGS, Table 8.6. -/
def Reg.DFE_CORE_FIRINGS : RegDesc where
  name := "DFE.CORE_FIRINGS"
  blk := 9
  spaces := [0]
  off := 0x0048
  sat := some (0x0058, 0)
  fields := [⟨"V", 31, 0, .rc, [], []⟩]

/-- DFE.CORE_SPILL_IN, Table 8.6. -/
def Reg.DFE_CORE_SPILL_IN : RegDesc where
  name := "DFE.CORE_SPILL_IN"
  blk := 9
  spaces := [0]
  off := 0x004C
  sat := some (0x0058, 1)
  fields := [⟨"V", 31, 0, .rc, [], []⟩]

/-- DFE.CORE_BUSY_MS, Table 8.6. -/
def Reg.DFE_CORE_BUSY_MS : RegDesc where
  name := "DFE.CORE_BUSY_MS"
  blk := 9
  spaces := [0]
  off := 0x0050
  sat := some (0x0058, 2)
  fields := [⟨"V", 31, 0, .rc, [], []⟩]

/-- DFE.CORE_REL_REFUSED, Table 8.6. -/
def Reg.DFE_CORE_REL_REFUSED : RegDesc where
  name := "DFE.CORE_REL_REFUSED"
  blk := 9
  spaces := [0]
  off := 0x0054
  sat := some (0x0058, 3)
  fields := [⟨"V", 31, 0, .rc, [], []⟩]

/-- DFE.CORE_CNT_SAT, Table 8.6. -/
def Reg.DFE_CORE_CNT_SAT : RegDesc where
  name := "DFE.CORE_CNT_SAT"
  blk := 9
  spaces := [0]
  off := 0x0058
  fields := [⟨"SAT", 3, 0, .w1c, [], []⟩]

/-- DFE.OP_CFG, Table 8.6. -/
def Reg.DFE_OP_CFG : RegDesc where
  name := "DFE.OP_CFG"
  blk := 9
  spaces := [1]
  off := 0x0040
  fields := [⟨"VALID", 31, 31, .ro, [], []⟩,
    ⟨"CLASS", 30, 30, .ro, [], []⟩,
    ⟨"PRIO", 29, 28, .ro, [], []⟩,
    ⟨"RING", 27, 27, .ro, [], []⟩,
    ⟨"CARRY", 26, 23, .ro, [], []⟩,
    ⟨"LIB_ID", 15, 0, .ro, [], []⟩]

/-- DFE.OP_AFF, Table 8.6. -/
def Reg.DFE_OP_AFF : RegDesc where
  name := "DFE.OP_AFF"
  blk := 9
  spaces := [1]
  off := 0x0044
  fields := [⟨"V", 5, 0, .rw, [(0, 47)], []⟩]

/-- DFE.OP_MAX_CYCLES, Table 8.6. -/
def Reg.DFE_OP_MAX_CYCLES : RegDesc where
  name := "DFE.OP_MAX_CYCLES"
  blk := 9
  spaces := [1]
  off := 0x0048
  fields := [⟨"V", 23, 0, .rc, [], []⟩]

/-- DFE.OP_FIRINGS, Table 8.6. -/
def Reg.DFE_OP_FIRINGS : RegDesc where
  name := "DFE.OP_FIRINGS"
  blk := 9
  spaces := [1]
  off := 0x004C
  sat := some (0x0050, 0)
  fields := [⟨"V", 31, 0, .rc, [], []⟩]

/-- DFE.OP_CNT_SAT, Table 8.6. -/
def Reg.DFE_OP_CNT_SAT : RegDesc where
  name := "DFE.OP_CNT_SAT"
  blk := 9
  spaces := [1]
  off := 0x0050
  fields := [⟨"SAT", 0, 0, .w1c, [], []⟩]

/-- DFE.OP_PARAM, Table 8.6. -/
def Reg.DFE_OP_PARAM : RegDesc where
  name := "DFE.OP_PARAM"
  blk := 9
  spaces := [1]
  off := 0x0080
  n := 16
  fields := [⟨"V", 31, 0, .rws, [], []⟩]

/-- The registers of DFE (Table 8.6 and the field tables of its chapter). -/
def Reg.tableDFE : List RegDesc :=
  [Reg.DFE_SEL, Reg.DFE_IRQ_STATUS, Reg.DFE_IRQ_ENABLE, Reg.DFE_COMMIT,
   Reg.DFE_STATUS, Reg.DFE_GEN, Reg.DFE_SPILL_CFG, Reg.DFE_SLUICE_CFG,
   Reg.DFE_MS_USED, Reg.DFE_INJ_ADDR_LO, Reg.DFE_INJ_ADDR_HI, Reg.DFE_INJ_LEN,
   Reg.DFE_INJ_GO, Reg.DFE_INJ_STATUS, Reg.DFE_POOL_LO, Reg.DFE_POOL_HI,
   Reg.DFE_DEADLINE_MISS, Reg.DFE_DEADLINE_MISS_SAT, Reg.DFE_EXPIRED_TOKENS, Reg.DFE_EXPIRED_TOKENS_SAT] ++
  [Reg.DFE_STALE_GEN, Reg.DFE_STALE_GEN_SAT, Reg.DFE_MATCH_COLLIDE, Reg.DFE_MATCH_COLLIDE_SAT,
   Reg.DFE_SLUICE_HOLDS, Reg.DFE_SLUICE_HOLDS_SAT, Reg.DFE_INCOMPLETE_TOKENS, Reg.DFE_INCOMPLETE_TOKENS_SAT,
   Reg.DFE_CORE_FREEZES, Reg.DFE_CORE_FREEZES_SAT, Reg.DFE_INJ_REFUSED, Reg.DFE_INJ_REFUSED_SAT,
   Reg.DFE_HOST_OUT_LOST, Reg.DFE_HOST_OUT_LOST_SAT, Reg.DFE_CORE_STATE, Reg.DFE_CORE_CMD,
   Reg.DFE_CORE_FIRINGS, Reg.DFE_CORE_SPILL_IN, Reg.DFE_CORE_BUSY_MS, Reg.DFE_CORE_REL_REFUSED] ++
  [Reg.DFE_CORE_CNT_SAT, Reg.DFE_OP_CFG, Reg.DFE_OP_AFF, Reg.DFE_OP_MAX_CYCLES,
   Reg.DFE_OP_FIRINGS, Reg.DFE_OP_CNT_SAT, Reg.DFE_OP_PARAM]

/-- SDM.SEL, Table 10.7. -/
def Reg.SDM_SEL : RegDesc where
  name := "SDM.SEL"
  blk := 10
  spaces := [15]
  off := 0x0000
  banked := true
  fields := [⟨"AINC", 31, 31, .rw, [], []⟩,
    ⟨"SPACE", 30, 29, .rw, [(0, 1)], []⟩,
    ⟨"INDEX", 4, 0, .rw, [], []⟩]

/-- SDM.IRQ_STATUS, Table 10.7. -/
def Reg.SDM_IRQ_STATUS : RegDesc where
  name := "SDM.IRQ_STATUS"
  blk := 10
  spaces := [15]
  off := 0x0400
  fields := [⟨"SET_REJECT", 4, 4, .w1c, [], []⟩,
    ⟨"OVR", 3, 3, .w1c, [], []⟩,
    ⟨"CH_RECOVER", 2, 2, .w1c, [], []⟩,
    ⟨"CH_FAULT", 1, 1, .w1c, [], []⟩,
    ⟨"SYNC", 0, 0, .w1c, [], []⟩]

/-- SDM.IRQ_ENABLE, Table 10.7. -/
def Reg.SDM_IRQ_ENABLE : RegDesc where
  name := "SDM.IRQ_ENABLE"
  blk := 10
  spaces := [15]
  off := 0x0404
  fields := [⟨"SET_REJECT", 4, 4, .rw, [], []⟩,
    ⟨"OVR", 3, 3, .rw, [], []⟩,
    ⟨"CH_RECOVER", 2, 2, .rw, [], []⟩,
    ⟨"CH_FAULT", 1, 1, .rw, [], []⟩,
    ⟨"SYNC", 0, 0, .rw, [], []⟩]

/-- SDM.COMMIT, Table 10.7. -/
def Reg.SDM_COMMIT : RegDesc where
  name := "SDM.COMMIT"
  blk := 10
  spaces := [15]
  off := 0x0408
  fields := [⟨"COMMIT", 0, 0, .wo, [], []⟩]

/-- SDM.STATUS, Table 10.7. -/
def Reg.SDM_STATUS : RegDesc where
  name := "SDM.STATUS"
  blk := 10
  spaces := [15]
  off := 0x040C
  fields := [⟨"SHADOW_PENDING", 31, 31, .ro, [], []⟩,
    ⟨"F", 15, 0, .ro, [], []⟩]

/-- SDM.CFG, Table 10.7. -/
def Reg.SDM_CFG : RegDesc where
  name := "SDM.CFG"
  blk := 10
  spaces := [15]
  off := 0x0410
  reset := 0x00020002
  fields := [⟨"EN", 31, 31, .ro, [], []⟩,
    ⟨"MCLK_F", 17, 12, .ro, [], []⟩,
    ⟨"PHASE", 2, 2, .rws, [], []⟩,
    ⟨"PRESET", 1, 0, .rws, [], []⟩]

/-- SDM.CMD, Table 10.7. -/
def Reg.SDM_CMD : RegDesc where
  name := "SDM.CMD"
  blk := 10
  spaces := [15]
  off := 0x0414
  fields := [⟨"SYNC", 0, 0, .wo, [], []⟩]

/-- SDM.SYNC_NS, Table 10.7. -/
def Reg.SDM_SYNC_NS : RegDesc where
  name := "SDM.SYNC_NS"
  blk := 10
  spaces := [15]
  off := 0x0418
  fields := [⟨"V", 31, 0, .ro, [], []⟩]

/-- SDM.SYNC_SEC_LO, Table 10.7. -/
def Reg.SDM_SYNC_SEC_LO : RegDesc where
  name := "SDM.SYNC_SEC_LO"
  blk := 10
  spaces := [15]
  off := 0x041C
  fields := [⟨"V", 31, 0, .ro, [], []⟩]

/-- SDM.SYNC_SEC_HI, Table 10.7. -/
def Reg.SDM_SYNC_SEC_HI : RegDesc where
  name := "SDM.SYNC_SEC_HI"
  blk := 10
  spaces := [15]
  off := 0x0420
  fields := [⟨"V", 31, 0, .ro, [], []⟩]

/-- SDM.CH_CFG, Table 10.7. -/
def Reg.SDM_CH_CFG : RegDesc where
  name := "SDM.CH_CFG"
  blk := 10
  spaces := [0]
  off := 0x0040
  resetI := [(0, 0x00000000), (1, 0x00000000), (2, 0x00000000), (3, 0x00000000), (4, 0x04000000), (5, 0x04000000), (6, 0x04000000), (7, 0x04000000), (8, 0x08000000), (9, 0x08000000), (10, 0x08000000), (11, 0x08000000), (12, 0x0C000000), (13, 0x0C000000), (14, 0x0C000000), (15, 0x0C000000)]
  fields := [⟨"EN", 31, 31, .rws, [], []⟩,
    ⟨"MODE", 30, 29, .ro, [], []⟩,
    ⟨"INV", 28, 28, .rws, [], []⟩,
    ⟨"MCLK", 27, 26, .ro, [], []⟩,
    ⟨"INT_DELAY", 21, 16, .rws, [], []⟩,
    ⟨"FRAC", 12, 0, .rws, [(0, 2048), (6144, 8191)], []⟩]

/-- SDM.CH_GAIN, Table 10.7. -/
def Reg.SDM_CH_GAIN : RegDesc where
  name := "SDM.CH_GAIN"
  blk := 10
  spaces := [0]
  off := 0x0044
  fields := [⟨"V", 17, 0, .rws, [], []⟩]

/-- SDM.CH_OFFSET, Table 10.7. -/
def Reg.SDM_CH_OFFSET : RegDesc where
  name := "SDM.CH_OFFSET"
  blk := 10
  spaces := [0]
  off := 0x0048
  fields := [⟨"V", 23, 0, .rws, [], []⟩]

/-- SDM.CH_SCALE, Table 10.7. -/
def Reg.SDM_CH_SCALE : RegDesc where
  name := "SDM.CH_SCALE"
  blk := 10
  spaces := [0]
  off := 0x004C
  reset := 0x3F800000
  fields := [⟨"V", 31, 0, .rws, [], []⟩]

/-- SDM.CH_STATUS, Table 10.7. -/
def Reg.SDM_CH_STATUS : RegDesc where
  name := "SDM.CH_STATUS"
  blk := 10
  spaces := [0]
  off := 0x0050
  fields := [⟨"SETTLING", 31, 31, .ro, [], []⟩,
    ⟨"FAULT", 30, 30, .ro, [], []⟩,
    ⟨"OVR", 29, 29, .ro, [], []⟩,
    ⟨"MAN_LOCK", 28, 28, .ro, [], []⟩]

/-- SDM.CH_OVR_SAMPLES, Table 10.7. -/
def Reg.SDM_CH_OVR_SAMPLES : RegDesc where
  name := "SDM.CH_OVR_SAMPLES"
  blk := 10
  spaces := [0]
  off := 0x0054
  sat := some (0x0060, 0)
  fields := [⟨"V", 31, 0, .rc, [], []⟩]

/-- SDM.CH_FAULTS, Table 10.7. -/
def Reg.SDM_CH_FAULTS : RegDesc where
  name := "SDM.CH_FAULTS"
  blk := 10
  spaces := [0]
  off := 0x0058
  sat := some (0x0060, 1)
  fields := [⟨"V", 31, 0, .rc, [], []⟩]

/-- SDM.CH_SYNCS, Table 10.7. -/
def Reg.SDM_CH_SYNCS : RegDesc where
  name := "SDM.CH_SYNCS"
  blk := 10
  spaces := [0]
  off := 0x005C
  sat := some (0x0060, 2)
  fields := [⟨"V", 31, 0, .rc, [], []⟩]

/-- SDM.CH_CNT_SAT, Table 10.7. -/
def Reg.SDM_CH_CNT_SAT : RegDesc where
  name := "SDM.CH_CNT_SAT"
  blk := 10
  spaces := [0]
  off := 0x0060
  fields := [⟨"SAT", 2, 0, .w1c, [], []⟩]

/-- SDM.PT_CFG, Table 10.7. -/
def Reg.SDM_PT_CFG : RegDesc where
  name := "SDM.PT_CFG"
  blk := 10
  spaces := [1]
  off := 0x0040
  fields := [⟨"EN", 31, 31, .rws, [], []⟩,
    ⟨"CLASS", 30, 30, .rws, [], []⟩,
    ⟨"FNOM", 29, 29, .ro, [], []⟩,
    ⟨"COARSE_FB", 28, 28, .rws, [], []⟩,
    ⟨"CTX", 12, 0, .ro, [], []⟩]

/-- SDM.PT_VCH, Table 10.7. -/
def Reg.SDM_PT_VCH : RegDesc where
  name := "SDM.PT_VCH"
  blk := 10
  spaces := [1]
  off := 0x0044
  fields := [⟨"V", 14, 10, .rws, [], []⟩,
    ⟨"V", 9, 5, .rws, [], []⟩,
    ⟨"V", 4, 0, .rws, [], []⟩]

/-- SDM.PT_ICH, Table 10.7. -/
def Reg.SDM_PT_ICH : RegDesc where
  name := "SDM.PT_ICH"
  blk := 10
  spaces := [1]
  off := 0x0048
  fields := [⟨"I", 14, 10, .rws, [], []⟩,
    ⟨"I", 9, 5, .rws, [], []⟩,
    ⟨"I", 4, 0, .rws, [], []⟩]

/-- SDM.PT_VRATIO, Table 10.7. -/
def Reg.SDM_PT_VRATIO : RegDesc where
  name := "SDM.PT_VRATIO"
  blk := 10
  spaces := [1]
  off := 0x004C
  reset := 0x3F800000
  fields := [⟨"V", 31, 0, .rws, [], []⟩]

/-- SDM.PT_IRATIO, Table 10.7. -/
def Reg.SDM_PT_IRATIO : RegDesc where
  name := "SDM.PT_IRATIO"
  blk := 10
  spaces := [1]
  off := 0x0050
  reset := 0x3F800000
  fields := [⟨"V", 31, 0, .rws, [], []⟩]

/-- SDM.PT_STATUS, Table 10.7. -/
def Reg.SDM_PT_STATUS : RegDesc where
  name := "SDM.PT_STATUS"
  blk := 10
  spaces := [1]
  off := 0x0054
  fields := [⟨"V", 31, 28, .ro, [], []⟩]

/-- SDM.PT_RECORDS, Table 10.7. -/
def Reg.SDM_PT_RECORDS : RegDesc where
  name := "SDM.PT_RECORDS"
  blk := 10
  spaces := [1]
  off := 0x0058
  sat := some (0x0064, 0)
  fields := [⟨"V", 31, 0, .rc, [], []⟩]

/-- SDM.PT_COARSE, Table 10.7. -/
def Reg.SDM_PT_COARSE : RegDesc where
  name := "SDM.PT_COARSE"
  blk := 10
  spaces := [1]
  off := 0x005C
  sat := some (0x0064, 1)
  fields := [⟨"V", 31, 0, .rc, [], []⟩]

/-- SDM.PT_SETTLING, Table 10.7. -/
def Reg.SDM_PT_SETTLING : RegDesc where
  name := "SDM.PT_SETTLING"
  blk := 10
  spaces := [1]
  off := 0x0060
  sat := some (0x0064, 2)
  fields := [⟨"V", 31, 0, .rc, [], []⟩]

/-- SDM.PT_CNT_SAT, Table 10.7. -/
def Reg.SDM_PT_CNT_SAT : RegDesc where
  name := "SDM.PT_CNT_SAT"
  blk := 10
  spaces := [1]
  off := 0x0064
  fields := [⟨"SAT", 2, 0, .w1c, [], []⟩]

/-- The registers of SDM (Table 10.7 and the field tables of its chapter). -/
def Reg.tableSDM : List RegDesc :=
  [Reg.SDM_SEL, Reg.SDM_IRQ_STATUS, Reg.SDM_IRQ_ENABLE, Reg.SDM_COMMIT,
   Reg.SDM_STATUS, Reg.SDM_CFG, Reg.SDM_CMD, Reg.SDM_SYNC_NS,
   Reg.SDM_SYNC_SEC_LO, Reg.SDM_SYNC_SEC_HI, Reg.SDM_CH_CFG, Reg.SDM_CH_GAIN,
   Reg.SDM_CH_OFFSET, Reg.SDM_CH_SCALE, Reg.SDM_CH_STATUS, Reg.SDM_CH_OVR_SAMPLES,
   Reg.SDM_CH_FAULTS, Reg.SDM_CH_SYNCS, Reg.SDM_CH_CNT_SAT, Reg.SDM_PT_CFG] ++
  [Reg.SDM_PT_VCH, Reg.SDM_PT_ICH, Reg.SDM_PT_VRATIO, Reg.SDM_PT_IRATIO,
   Reg.SDM_PT_STATUS, Reg.SDM_PT_RECORDS, Reg.SDM_PT_COARSE, Reg.SDM_PT_SETTLING,
   Reg.SDM_PT_CNT_SAT]

/-- NRG.SEL, Table 10.8. -/
def Reg.NRG_SEL : RegDesc where
  name := "NRG.SEL"
  blk := 11
  spaces := [15]
  off := 0x0000
  banked := true
  fields := [⟨"AINC", 31, 31, .rw, [], []⟩,
    ⟨"POINT", 1, 0, .rw, [], []⟩]

/-- NRG.IRQ_STATUS, Table 10.8. -/
def Reg.NRG_IRQ_STATUS : RegDesc where
  name := "NRG.IRQ_STATUS"
  blk := 11
  spaces := [15]
  off := 0x0400
  fields := [⟨"SET_REJECT", 5, 5, .w1c, [], []⟩,
    ⟨"CLEARED", 4, 4, .w1c, [], []⟩,
    ⟨"SAVE_FAIL", 3, 3, .w1c, [], []⟩,
    ⟨"UNMETERED", 2, 2, .w1c, [], []⟩,
    ⟨"ZC_TIMEOUT", 1, 1, .w1c, [], []⟩,
    ⟨"ENERGY_LOST", 0, 0, .w1c, [], []⟩]

/-- NRG.IRQ_ENABLE, Table 10.8. -/
def Reg.NRG_IRQ_ENABLE : RegDesc where
  name := "NRG.IRQ_ENABLE"
  blk := 11
  spaces := [15]
  off := 0x0404
  fields := [⟨"SET_REJECT", 5, 5, .rw, [], []⟩,
    ⟨"CLEARED", 4, 4, .rw, [], []⟩,
    ⟨"SAVE_FAIL", 3, 3, .rw, [], []⟩,
    ⟨"UNMETERED", 2, 2, .rw, [], []⟩,
    ⟨"ZC_TIMEOUT", 1, 1, .rw, [], []⟩,
    ⟨"ENERGY_LOST", 0, 0, .rw, [], []⟩]

/-- NRG.COMMIT, Table 10.8. -/
def Reg.NRG_COMMIT : RegDesc where
  name := "NRG.COMMIT"
  blk := 11
  spaces := [15]
  off := 0x0408
  fields := [⟨"COMMIT", 0, 0, .wo, [], []⟩]

/-- NRG.STATUS, Table 10.8. -/
def Reg.NRG_STATUS : RegDesc where
  name := "NRG.STATUS"
  blk := 11
  spaces := [15]
  off := 0x040C
  fields := [⟨"SHADOW_PENDING", 31, 31, .ro, [], []⟩,
    ⟨"FROZEN", 1, 1, .ro, [], []⟩,
    ⟨"ENERGY_LOST", 0, 0, .ro, [], []⟩]

/-- NRG.SNAP, Table 10.8. -/
def Reg.NRG_SNAP : RegDesc where
  name := "NRG.SNAP"
  blk := 11
  spaces := [15]
  off := 0x0410
  fields := [⟨"SNAP", 0, 0, .wo, [], []⟩]

/-- NRG.SNAP_NS, Table 10.8. -/
def Reg.NRG_SNAP_NS : RegDesc where
  name := "NRG.SNAP_NS"
  blk := 11
  spaces := [15]
  off := 0x0414
  fields := [⟨"V", 31, 0, .ro, [], []⟩]

/-- NRG.SNAP_SEC_LO, Table 10.8. -/
def Reg.NRG_SNAP_SEC_LO : RegDesc where
  name := "NRG.SNAP_SEC_LO"
  blk := 11
  spaces := [15]
  off := 0x0418
  fields := [⟨"V", 31, 0, .ro, [], []⟩]

/-- NRG.SNAP_SEC_HI, Table 10.8. -/
def Reg.NRG_SNAP_SEC_HI : RegDesc where
  name := "NRG.SNAP_SEC_HI"
  blk := 11
  spaces := [15]
  off := 0x041C
  fields := [⟨"V", 31, 0, .ro, [], []⟩]

/-- NRG.SAVE_CFG, Table 10.8. -/
def Reg.NRG_SAVE_CFG : RegDesc where
  name := "NRG.SAVE_CFG"
  blk := 11
  spaces := [15]
  off := 0x0420
  reset := 0x00000001
  fields := [⟨"PERIOD", 5, 0, .rws, [], [(1, 60)]⟩]

/-- NRG.SAVE_SEQ, Table 10.8. -/
def Reg.NRG_SAVE_SEQ : RegDesc where
  name := "NRG.SAVE_SEQ"
  blk := 11
  spaces := [15]
  off := 0x0424
  fields := [⟨"V", 31, 0, .ro, [], []⟩]

/-- NRG.RESUME, Table 10.8. -/
def Reg.NRG_RESUME : RegDesc where
  name := "NRG.RESUME"
  blk := 11
  spaces := [15]
  off := 0x0428
  fields := [⟨"FREEZE", 2, 2, .ro, [], []⟩,
    ⟨"F", 1, 0, .ro, [], []⟩]

/-- NRG.UNMET_NS, Table 10.8. -/
def Reg.NRG_UNMET_NS : RegDesc where
  name := "NRG.UNMET_NS"
  blk := 11
  spaces := [15]
  off := 0x042C
  fields := [⟨"V", 31, 0, .ro, [], []⟩]

/-- NRG.UNMET_SEC_LO, Table 10.8. -/
def Reg.NRG_UNMET_SEC_LO : RegDesc where
  name := "NRG.UNMET_SEC_LO"
  blk := 11
  spaces := [15]
  off := 0x0430
  fields := [⟨"V", 31, 0, .ro, [], []⟩]

/-- NRG.UNMET_SEC_HI, Table 10.8. -/
def Reg.NRG_UNMET_SEC_HI : RegDesc where
  name := "NRG.UNMET_SEC_HI"
  blk := 11
  spaces := [15]
  off := 0x0434
  fields := [⟨"V", 31, 0, .ro, [], []⟩]

/-- NRG.SAVES, Table 10.8. -/
def Reg.NRG_SAVES : RegDesc where
  name := "NRG.SAVES"
  blk := 11
  spaces := [15]
  off := 0x0480
  sat := some (0x0488, 0)
  fields := [⟨"V", 31, 0, .rc, [], []⟩]

/-- NRG.SAVE_FAIL, Table 10.8. -/
def Reg.NRG_SAVE_FAIL : RegDesc where
  name := "NRG.SAVE_FAIL"
  blk := 11
  spaces := [15]
  off := 0x0484
  sat := some (0x0488, 1)
  fields := [⟨"V", 31, 0, .rc, [], []⟩]

/-- NRG.G_CNT_SAT, Table 10.8. -/
def Reg.NRG_G_CNT_SAT : RegDesc where
  name := "NRG.G_CNT_SAT"
  blk := 11
  spaces := [15]
  off := 0x0488
  fields := [⟨"SAT", 1, 0, .w1c, [], []⟩]

/-- NRG.PT_CFG, Table 10.8. -/
def Reg.NRG_PT_CFG : RegDesc where
  name := "NRG.PT_CFG"
  blk := 11
  spaces := [0]
  off := 0x0040
  reset := 0x32000000
  fields := [⟨"EN", 31, 31, .ro, [], []⟩,
    ⟨"QUANTUM", 30, 28, .rws, [(0, 6)], []⟩,
    ⟨"ZC_TIMEOUT", 27, 24, .rws, [], [(1, 8)]⟩]

/-- NRG.PT_RATIO_NUM, Table 10.8. -/
def Reg.NRG_PT_RATIO_NUM : RegDesc where
  name := "NRG.PT_RATIO_NUM"
  blk := 11
  spaces := [0]
  off := 0x0044
  reset := 0x00000001
  fields := [⟨"V", 31, 0, .rws, [], []⟩]

/-- NRG.PT_RATIO_DEN, Table 10.8. -/
def Reg.NRG_PT_RATIO_DEN : RegDesc where
  name := "NRG.PT_RATIO_DEN"
  blk := 11
  spaces := [0]
  off := 0x0048
  reset := 0x00000001
  fields := [⟨"V", 31, 0, .rws, [], []⟩]

/-- NRG.ZC_CFG, Table 10.8. -/
def Reg.NRG_ZC_CFG : RegDesc where
  name := "NRG.ZC_CFG"
  blk := 11
  spaces := [0]
  off := 0x004C
  reset := 0x000000C8
  fields := [⟨"ZC_CH", 20, 16, .rws, [], []⟩,
    ⟨"ZC_HYST", 15, 0, .rws, [], []⟩]

/-- NRG.PT_STATUS, Table 10.8. -/
def Reg.NRG_PT_STATUS : RegDesc where
  name := "NRG.PT_STATUS"
  blk := 11
  spaces := [0]
  off := 0x0050
  fields := [⟨"ZC_FALLBACK", 31, 31, .ro, [], []⟩,
    ⟨"FROZEN", 30, 30, .ro, [], []⟩,
    ⟨"UNMETERED", 29, 29, .ro, [], []⟩]

/-- NRG.PT_ZC_FREQ, Table 10.8. -/
def Reg.NRG_PT_ZC_FREQ : RegDesc where
  name := "NRG.PT_ZC_FREQ"
  blk := 11
  spaces := [0]
  off := 0x0054
  fields := [⟨"V", 31, 0, .ro, [], []⟩]

/-- NRG.PT_ZC_LAST, Table 10.8. -/
def Reg.NRG_PT_ZC_LAST : RegDesc where
  name := "NRG.PT_ZC_LAST"
  blk := 11
  spaces := [0]
  off := 0x0058
  fields := [⟨"V", 31, 0, .ro, [], []⟩]

/-- NRG.PT_WRAP, Table 10.8. -/
def Reg.NRG_PT_WRAP : RegDesc where
  name := "NRG.PT_WRAP"
  blk := 11
  spaces := [0]
  off := 0x005C
  fields := [⟨"V", 31, 0, .ro, [], []⟩]

/-- NRG.PT_WRAP2, Table 10.8. -/
def Reg.NRG_PT_WRAP2 : RegDesc where
  name := "NRG.PT_WRAP2"
  blk := 11
  spaces := [0]
  off := 0x0060
  fields := [⟨"V", 31, 0, .ro, [], []⟩]

/-- NRG.PT_UNMETERED_MS, Table 10.8. -/
def Reg.NRG_PT_UNMETERED_MS : RegDesc where
  name := "NRG.PT_UNMETERED_MS"
  blk := 11
  spaces := [0]
  off := 0x0064
  sat := some (0x0070, 0)
  fields := [⟨"V", 31, 0, .rc, [], []⟩]

/-- NRG.PT_ZC_TIMEOUTS, Table 10.8. -/
def Reg.NRG_PT_ZC_TIMEOUTS : RegDesc where
  name := "NRG.PT_ZC_TIMEOUTS"
  blk := 11
  spaces := [0]
  off := 0x0068
  sat := some (0x0070, 1)
  fields := [⟨"V", 31, 0, .rc, [], []⟩]

/-- NRG.PT_CLEAR_REFUSED, Table 10.8. -/
def Reg.NRG_PT_CLEAR_REFUSED : RegDesc where
  name := "NRG.PT_CLEAR_REFUSED"
  blk := 11
  spaces := [0]
  off := 0x006C
  sat := some (0x0070, 2)
  fields := [⟨"V", 31, 0, .rc, [], []⟩]

/-- NRG.PT_CNT_SAT, Table 10.8. -/
def Reg.NRG_PT_CNT_SAT : RegDesc where
  name := "NRG.PT_CNT_SAT"
  blk := 11
  spaces := [0]
  off := 0x0070
  fields := [⟨"SAT", 2, 0, .w1c, [], []⟩]

/-- NRG.PT_P, Table 10.8. -/
def Reg.NRG_PT_P : RegDesc where
  name := "NRG.PT_P"
  blk := 11
  spaces := [0]
  off := 0x0074
  fields := [⟨"V", 31, 0, .ro, [], []⟩]

/-- NRG.PT_Q, Table 10.8. -/
def Reg.NRG_PT_Q : RegDesc where
  name := "NRG.PT_Q"
  blk := 11
  spaces := [0]
  off := 0x0078
  fields := [⟨"V", 31, 0, .ro, [], []⟩]

/-- NRG.PT_S, Table 10.8. -/
def Reg.NRG_PT_S : RegDesc where
  name := "NRG.PT_S"
  blk := 11
  spaces := [0]
  off := 0x007C
  fields := [⟨"V", 31, 0, .ro, [], []⟩]

/-- NRG.PT_CMD, Table 10.8. -/
def Reg.NRG_PT_CMD : RegDesc where
  name := "NRG.PT_CMD"
  blk := 11
  spaces := [0]
  off := 0x0080
  fields := [⟨"CLEAR", 0, 0, .wo, [], []⟩]

/-- NRG.PT_CNT, Table 10.8. -/
def Reg.NRG_PT_CNT : RegDesc where
  name := "NRG.PT_CNT"
  blk := 11
  spaces := [0]
  off := 0x0100
  n := 32
  fields := [⟨"V", 31, 0, .ro, [], []⟩]

/-- NRG.PT_ACC, Table 10.8. -/
def Reg.NRG_PT_ACC : RegDesc where
  name := "NRG.PT_ACC"
  blk := 11
  spaces := [0]
  off := 0x0200
  n := 64
  fields := [⟨"V", 31, 0, .ro, [], []⟩]

/-- NRG.PT_SNAP, Table 10.8. -/
def Reg.NRG_PT_SNAP : RegDesc where
  name := "NRG.PT_SNAP"
  blk := 11
  spaces := [0]
  off := 0x0300
  n := 64
  fields := [⟨"V", 31, 0, .ro, [], []⟩]

/-- The registers of NRG (Table 10.8 and the field tables of its chapter). -/
def Reg.tableNRG : List RegDesc :=
  [Reg.NRG_SEL, Reg.NRG_IRQ_STATUS, Reg.NRG_IRQ_ENABLE, Reg.NRG_COMMIT,
   Reg.NRG_STATUS, Reg.NRG_SNAP, Reg.NRG_SNAP_NS, Reg.NRG_SNAP_SEC_LO,
   Reg.NRG_SNAP_SEC_HI, Reg.NRG_SAVE_CFG, Reg.NRG_SAVE_SEQ, Reg.NRG_RESUME,
   Reg.NRG_UNMET_NS, Reg.NRG_UNMET_SEC_LO, Reg.NRG_UNMET_SEC_HI, Reg.NRG_SAVES,
   Reg.NRG_SAVE_FAIL, Reg.NRG_G_CNT_SAT, Reg.NRG_PT_CFG, Reg.NRG_PT_RATIO_NUM] ++
  [Reg.NRG_PT_RATIO_DEN, Reg.NRG_ZC_CFG, Reg.NRG_PT_STATUS, Reg.NRG_PT_ZC_FREQ,
   Reg.NRG_PT_ZC_LAST, Reg.NRG_PT_WRAP, Reg.NRG_PT_WRAP2, Reg.NRG_PT_UNMETERED_MS,
   Reg.NRG_PT_ZC_TIMEOUTS, Reg.NRG_PT_CLEAR_REFUSED, Reg.NRG_PT_CNT_SAT, Reg.NRG_PT_P,
   Reg.NRG_PT_Q, Reg.NRG_PT_S, Reg.NRG_PT_CMD, Reg.NRG_PT_CNT,
   Reg.NRG_PT_ACC, Reg.NRG_PT_SNAP]

/-- CAP.SEL, Table 11.6. -/
def Reg.CAP_SEL : RegDesc where
  name := "CAP.SEL"
  blk := 12
  spaces := [15]
  off := 0x0000
  banked := true
  fields := [⟨"AINC", 31, 31, .rw, [], []⟩,
    ⟨"UNIT", 2, 0, .rw, [], []⟩]

/-- CAP.IRQ_STATUS, Table 11.6. -/
def Reg.CAP_IRQ_STATUS : RegDesc where
  name := "CAP.IRQ_STATUS"
  blk := 12
  spaces := [15]
  off := 0x0400
  fields := [⟨"SET_REJECT", 4, 4, .w1c, [], []⟩,
    ⟨"BUS_LATE", 3, 3, .w1c, [], []⟩,
    ⟨"OVERWRITTEN", 2, 2, .w1c, [], []⟩,
    ⟨"NOSPACE", 1, 1, .w1c, [], []⟩,
    ⟨"SEALED", 0, 0, .w1c, [], []⟩]

/-- CAP.IRQ_ENABLE, Table 11.6. -/
def Reg.CAP_IRQ_ENABLE : RegDesc where
  name := "CAP.IRQ_ENABLE"
  blk := 12
  spaces := [15]
  off := 0x0404
  fields := [⟨"SET_REJECT", 4, 4, .rw, [], []⟩,
    ⟨"BUS_LATE", 3, 3, .rw, [], []⟩,
    ⟨"OVERWRITTEN", 2, 2, .rw, [], []⟩,
    ⟨"NOSPACE", 1, 1, .rw, [], []⟩,
    ⟨"SEALED", 0, 0, .rw, [], []⟩]

/-- CAP.COMMIT, Table 11.6. -/
def Reg.CAP_COMMIT : RegDesc where
  name := "CAP.COMMIT"
  blk := 12
  spaces := [15]
  off := 0x0408
  fields := [⟨"COMMIT", 0, 0, .wo, [], []⟩]

/-- CAP.STATUS, Table 11.6. -/
def Reg.CAP_STATUS : RegDesc where
  name := "CAP.STATUS"
  blk := 12
  spaces := [15]
  off := 0x040C
  fields := [⟨"SHADOW_PENDING", 31, 31, .ro, [], []⟩,
    ⟨"F", 7, 0, .ro, [], []⟩]

/-- CAP.BUS_D, Table 11.6. -/
def Reg.CAP_BUS_D : RegDesc where
  name := "CAP.BUS_D"
  blk := 12
  spaces := [15]
  off := 0x0410
  reset := 0x00000014
  fields := [⟨"D", 9, 0, .rws, [], [(5, 1000)]⟩]

/-- CAP.TRG_CFG, Table 11.6. -/
def Reg.CAP_TRG_CFG : RegDesc where
  name := "CAP.TRG_CFG"
  blk := 12
  spaces := [15]
  off := 0x0414
  fields := [⟨"OUT3", 31, 31, .rws, [], []⟩,
    ⟨"POL3", 30, 30, .rws, [], []⟩,
    ⟨"LINE3", 26, 24, .rws, [], []⟩,
    ⟨"OUT2", 23, 23, .rws, [], []⟩,
    ⟨"POL2", 22, 22, .rws, [], []⟩,
    ⟨"LINE2", 18, 16, .rws, [], []⟩,
    ⟨"OUT1", 15, 15, .rws, [], []⟩,
    ⟨"POL1", 14, 14, .rws, [], []⟩,
    ⟨"LINE1", 10, 8, .rws, [], []⟩,
    ⟨"OUT0", 7, 7, .rws, [], []⟩,
    ⟨"POL0", 6, 6, .rws, [], []⟩,
    ⟨"LINE0", 2, 0, .rws, [], []⟩]

/-- CAP.TRG_WIDTH, Table 11.6. -/
def Reg.CAP_TRG_WIDTH : RegDesc where
  name := "CAP.TRG_WIDTH"
  blk := 12
  spaces := [15]
  off := 0x0418
  reset := 0x000003E8
  fields := [⟨"V", 19, 0, .rws, [], [(1, 1000000)]⟩]

/-- CAP.BUS_LATE, Table 11.6. -/
def Reg.CAP_BUS_LATE : RegDesc where
  name := "CAP.BUS_LATE"
  blk := 12
  spaces := [15]
  off := 0x041C
  sat := some (0x0420, 0)
  fields := [⟨"V", 31, 0, .rc, [], []⟩]

/-- CAP.G_CNT_SAT, Table 11.6. -/
def Reg.CAP_G_CNT_SAT : RegDesc where
  name := "CAP.G_CNT_SAT"
  blk := 12
  spaces := [15]
  off := 0x0420
  fields := [⟨"SAT", 0, 0, .w1c, [], []⟩]

/-- CAP.UNIT_CFG, Table 11.6. -/
def Reg.CAP_UNIT_CFG : RegDesc where
  name := "CAP.UNIT_CFG"
  blk := 12
  spaces := [0]
  off := 0x0040
  reset := 0x00200000
  fields := [⟨"EN", 31, 31, .rws, [], []⟩,
    ⟨"PATH", 30, 30, .rws, [], []⟩,
    ⟨"POLICY", 29, 29, .rws, [], []⟩,
    ⟨"BUS_TX", 28, 28, .rws, [], []⟩,
    ⟨"BUS_LINE", 27, 25, .rws, [], []⟩,
    ⟨"QUEUE", 21, 16, .rws, [(32, 47)], []⟩]

/-- CAP.TRIG_CFG, Table 11.6. -/
def Reg.CAP_TRIG_CFG : RegDesc where
  name := "CAP.TRIG_CFG"
  blk := 12
  spaces := [0]
  off := 0x0044
  n := 4
  fields := [⟨"EN", 31, 31, .rws, [], []⟩,
    ⟨"TYPE", 30, 28, .rws, [(0, 5)], []⟩,
    ⟨"MODE", 27, 26, .rws, [(0, 2)], []⟩,
    ⟨"PATH", 25, 25, .rws, [], []⟩,
    ⟨"POL", 24, 24, .rws, [], []⟩,
    ⟨"ARG", 7, 0, .rws, [], []⟩]

/-- CAP.TRIG_LEVEL, Table 11.6. -/
def Reg.CAP_TRIG_LEVEL : RegDesc where
  name := "CAP.TRIG_LEVEL"
  blk := 12
  spaces := [0]
  off := 0x0054
  n := 4
  fields := [⟨"V", 31, 0, .rws, [], []⟩]

/-- CAP.TRIG_HYST, Table 11.6. -/
def Reg.CAP_TRIG_HYST : RegDesc where
  name := "CAP.TRIG_HYST"
  blk := 12
  spaces := [0]
  off := 0x0064
  n := 4
  fields := [⟨"V", 31, 0, .rws, [], []⟩]

/-- CAP.UNIT_CHMASK, Table 11.6. -/
def Reg.CAP_UNIT_CHMASK : RegDesc where
  name := "CAP.UNIT_CHMASK"
  blk := 12
  spaces := [0]
  off := 0x0074
  fields := [⟨"V", 15, 0, .rws, [], []⟩]

/-- CAP.RED_CFG, Table 11.6. -/
def Reg.CAP_RED_CFG : RegDesc where
  name := "CAP.RED_CFG"
  blk := 12
  spaces := [0]
  off := 0x0078
  n := 4
  fields := [⟨"EN", 31, 31, .rws, [], []⟩,
    ⟨"CODE", 18, 16, .rws, [(0, 4)], []⟩,
    ⟨"K", 15, 0, .rws, [], []⟩]

/-- CAP.UNIT_PRE_MS, Table 11.6. -/
def Reg.CAP_UNIT_PRE_MS : RegDesc where
  name := "CAP.UNIT_PRE_MS"
  blk := 12
  spaces := [0]
  off := 0x0088
  fields := [⟨"V", 15, 0, .rws, [], [(0, 60000)]⟩]

/-- CAP.UNIT_POST_MS, Table 11.6. -/
def Reg.CAP_UNIT_POST_MS : RegDesc where
  name := "CAP.UNIT_POST_MS"
  blk := 12
  spaces := [0]
  off := 0x008C
  fields := [⟨"V", 19, 0, .rws, [], [(1, 600000)]⟩]

/-- CAP.UNIT_HOLD, Table 11.6. -/
def Reg.CAP_UNIT_HOLD : RegDesc where
  name := "CAP.UNIT_HOLD"
  blk := 12
  spaces := [0]
  off := 0x0090
  fields := [⟨"MODE", 31, 31, .rws, [], []⟩,
    ⟨"HOLD_T", 21, 0, .rws, [], []⟩]

/-- CAP.UNIT_BASE_LO, Table 11.6. -/
def Reg.CAP_UNIT_BASE_LO : RegDesc where
  name := "CAP.UNIT_BASE_LO"
  blk := 12
  spaces := [0]
  off := 0x0094
  fields := [⟨"V", 31, 0, .rw, [], []⟩]

/-- CAP.UNIT_BASE_HI, Table 11.6. -/
def Reg.CAP_UNIT_BASE_HI : RegDesc where
  name := "CAP.UNIT_BASE_HI"
  blk := 12
  spaces := [0]
  off := 0x0098
  fields := [⟨"V", 31, 0, .rw, [], []⟩]

/-- CAP.UNIT_SIZE, Table 11.6. -/
def Reg.CAP_UNIT_SIZE : RegDesc where
  name := "CAP.UNIT_SIZE"
  blk := 12
  spaces := [0]
  off := 0x009C
  fields := [⟨"V", 15, 0, .rw, [], []⟩]

/-- CAP.UNIT_STATE, Table 11.6. -/
def Reg.CAP_UNIT_STATE : RegDesc where
  name := "CAP.UNIT_STATE"
  blk := 12
  spaces := [0]
  off := 0x00A0
  fields := [⟨"F", 31, 29, .ro, [], []⟩,
    ⟨"F", 21, 16, .ro, [], []⟩,
    ⟨"F", 15, 0, .ro, [], []⟩]

/-- CAP.UNIT_CMD, Table 11.6. -/
def Reg.CAP_UNIT_CMD : RegDesc where
  name := "CAP.UNIT_CMD"
  blk := 12
  spaces := [0]
  off := 0x00A4
  fields := [⟨"RELEASE", 1, 1, .wo, [], []⟩,
    ⟨"FORCE", 0, 0, .wo, [], []⟩]

/-- CAP.CAPTURES, Table 11.6. -/
def Reg.CAP_CAPTURES : RegDesc where
  name := "CAP.CAPTURES"
  blk := 12
  spaces := [0]
  off := 0x00A8
  sat := some (0x00BC, 0)
  fields := [⟨"V", 31, 0, .rc, [], []⟩]

/-- CAP.RETRIGGERS, Table 11.6. -/
def Reg.CAP_RETRIGGERS : RegDesc where
  name := "CAP.RETRIGGERS"
  blk := 12
  spaces := [0]
  off := 0x00AC
  sat := some (0x00BC, 1)
  fields := [⟨"V", 31, 0, .rc, [], []⟩]

/-- CAP.HELD_OFF, Table 11.6. -/
def Reg.CAP_HELD_OFF : RegDesc where
  name := "CAP.HELD_OFF"
  blk := 12
  spaces := [0]
  off := 0x00B0
  sat := some (0x00BC, 2)
  fields := [⟨"V", 31, 0, .rc, [], []⟩]

/-- CAP.NOSPACE, Table 11.6. -/
def Reg.CAP_NOSPACE : RegDesc where
  name := "CAP.NOSPACE"
  blk := 12
  spaces := [0]
  off := 0x00B4
  sat := some (0x00BC, 3)
  fields := [⟨"V", 31, 0, .rc, [], []⟩]

/-- CAP.OVERWRITTEN, Table 11.6. -/
def Reg.CAP_OVERWRITTEN : RegDesc where
  name := "CAP.OVERWRITTEN"
  blk := 12
  spaces := [0]
  off := 0x00B8
  sat := some (0x00BC, 4)
  fields := [⟨"V", 31, 0, .rc, [], []⟩]

/-- CAP.UNIT_CNT_SAT, Table 11.6. -/
def Reg.CAP_UNIT_CNT_SAT : RegDesc where
  name := "CAP.UNIT_CNT_SAT"
  blk := 12
  spaces := [0]
  off := 0x00BC
  fields := [⟨"SAT", 4, 0, .w1c, [], []⟩]

/-- The registers of CAP (Table 11.6 and the field tables of its chapter). -/
def Reg.tableCAP : List RegDesc :=
  [Reg.CAP_SEL, Reg.CAP_IRQ_STATUS, Reg.CAP_IRQ_ENABLE, Reg.CAP_COMMIT,
   Reg.CAP_STATUS, Reg.CAP_BUS_D, Reg.CAP_TRG_CFG, Reg.CAP_TRG_WIDTH,
   Reg.CAP_BUS_LATE, Reg.CAP_G_CNT_SAT, Reg.CAP_UNIT_CFG, Reg.CAP_TRIG_CFG,
   Reg.CAP_TRIG_LEVEL, Reg.CAP_TRIG_HYST, Reg.CAP_UNIT_CHMASK, Reg.CAP_RED_CFG,
   Reg.CAP_UNIT_PRE_MS, Reg.CAP_UNIT_POST_MS, Reg.CAP_UNIT_HOLD, Reg.CAP_UNIT_BASE_LO] ++
  [Reg.CAP_UNIT_BASE_HI, Reg.CAP_UNIT_SIZE, Reg.CAP_UNIT_STATE, Reg.CAP_UNIT_CMD,
   Reg.CAP_CAPTURES, Reg.CAP_RETRIGGERS, Reg.CAP_HELD_OFF, Reg.CAP_NOSPACE,
   Reg.CAP_OVERWRITTEN, Reg.CAP_UNIT_CNT_SAT]

/-- RAD.SEL, Table 12.7. -/
def Reg.RAD_SEL : RegDesc where
  name := "RAD.SEL"
  blk := 13
  spaces := [15]
  off := 0x0000
  banked := true
  fields := [⟨"AINC", 31, 31, .rw, [], []⟩,
    ⟨"SPACE", 30, 29, .rw, [(0, 2)], []⟩,
    ⟨"INDEX", 11, 0, .rw, [], []⟩]

/-- RAD.IRQ_STATUS, Table 12.7. -/
def Reg.RAD_IRQ_STATUS : RegDesc where
  name := "RAD.IRQ_STATUS"
  blk := 13
  spaces := [15]
  off := 0x0400
  fields := [⟨"SET_REJECT", 6, 6, .w1c, [], []⟩,
    ⟨"KEY_ABSENT", 5, 5, .w1c, [], []⟩,
    ⟨"AUTH_FAIL", 4, 4, .w1c, [], []⟩,
    ⟨"PARENT_LOST", 3, 3, .w1c, [], []⟩,
    ⟨"RESYNC", 2, 2, .w1c, [], []⟩,
    ⟨"NODE_RECOVER", 1, 1, .w1c, [], []⟩,
    ⟨"NODE_STALE", 0, 0, .w1c, [], []⟩]

/-- RAD.IRQ_ENABLE, Table 12.7. -/
def Reg.RAD_IRQ_ENABLE : RegDesc where
  name := "RAD.IRQ_ENABLE"
  blk := 13
  spaces := [15]
  off := 0x0404
  fields := [⟨"SET_REJECT", 6, 6, .rw, [], []⟩,
    ⟨"KEY_ABSENT", 5, 5, .rw, [], []⟩,
    ⟨"AUTH_FAIL", 4, 4, .rw, [], []⟩,
    ⟨"PARENT_LOST", 3, 3, .rw, [], []⟩,
    ⟨"RESYNC", 2, 2, .rw, [], []⟩,
    ⟨"NODE_RECOVER", 1, 1, .rw, [], []⟩,
    ⟨"NODE_STALE", 0, 0, .rw, [], []⟩]

/-- RAD.COMMIT, Table 12.7. -/
def Reg.RAD_COMMIT : RegDesc where
  name := "RAD.COMMIT"
  blk := 13
  spaces := [15]
  off := 0x0408
  fields := [⟨"COMMIT", 0, 0, .wo, [], []⟩]

/-- RAD.STATUS, Table 12.7. -/
def Reg.RAD_STATUS : RegDesc where
  name := "RAD.STATUS"
  blk := 13
  spaces := [15]
  off := 0x040C
  fields := [⟨"SHADOW_PENDING", 31, 31, .ro, [], []⟩,
    ⟨"SYNCED", 30, 30, .ro, [], []⟩,
    ⟨"SCANNING", 29, 29, .ro, [], []⟩,
    ⟨"F", 10, 0, .ro, [], []⟩]

/-- RAD.CFG, Table 12.7. -/
def Reg.RAD_CFG : RegDesc where
  name := "RAD.CFG"
  blk := 13
  spaces := [15]
  off := 0x0410
  fields := [⟨"EN", 31, 31, .ro, [], []⟩,
    ⟨"ROLE", 30, 30, .ro, [], []⟩,
    ⟨"SLOT25", 29, 29, .ro, [], []⟩,
    ⟨"TP_UNIT", 28, 27, .ro, [], []⟩,
    ⟨"SF_LEN", 9, 0, .ro, [], []⟩]

/-- RAD.PAN_ID, Table 12.7. -/
def Reg.RAD_PAN_ID : RegDesc where
  name := "RAD.PAN_ID"
  blk := 13
  spaces := [15]
  off := 0x0414
  fields := [⟨"PAN", 15, 0, .ro, [], []⟩]

/-- RAD.ASN_EPOCH_LO, Table 12.7. -/
def Reg.RAD_ASN_EPOCH_LO : RegDesc where
  name := "RAD.ASN_EPOCH_LO"
  blk := 13
  spaces := [15]
  off := 0x0418
  fields := [⟨"V", 31, 0, .ro, [], []⟩]

/-- RAD.ASN_EPOCH_HI, Table 12.7. -/
def Reg.RAD_ASN_EPOCH_HI : RegDesc where
  name := "RAD.ASN_EPOCH_HI"
  blk := 13
  spaces := [15]
  off := 0x041C
  fields := [⟨"V", 31, 0, .ro, [], []⟩]

/-- RAD.ASN_LO, Table 12.7. -/
def Reg.RAD_ASN_LO : RegDesc where
  name := "RAD.ASN_LO"
  blk := 13
  spaces := [15]
  off := 0x0420
  fields := [⟨"V", 31, 0, .ro, [], []⟩]

/-- RAD.ASN_HI, Table 12.7. -/
def Reg.RAD_ASN_HI : RegDesc where
  name := "RAD.ASN_HI"
  blk := 13
  spaces := [15]
  off := 0x0424
  fields := [⟨"V", 31, 0, .ro, [], []⟩]

/-- RAD.GUARD, Table 12.7. -/
def Reg.RAD_GUARD : RegDesc where
  name := "RAD.GUARD"
  blk := 13
  spaces := [15]
  off := 0x0428
  reset := 0x0FA00898
  fields := [⟨"WIDE", 28, 16, .rws, [], [(2200, 4000)]⟩,
    ⟨"GUARD", 12, 0, .rws, [], [(1000, 4000)]⟩]

/-- RAD.ROOT_SLOT, Table 12.7. -/
def Reg.RAD_ROOT_SLOT : RegDesc where
  name := "RAD.ROOT_SLOT"
  blk := 13
  spaces := [15]
  off := 0x042C
  fields := [⟨"V", 5, 0, .ro, [], []⟩]

/-- RAD.PEND_IDX, Table 12.7. -/
def Reg.RAD_PEND_IDX : RegDesc where
  name := "RAD.PEND_IDX"
  blk := 13
  spaces := [15]
  off := 0x0430
  banked := true
  fields := [⟨"V", 4, 0, .rw, [], []⟩]

/-- RAD.PEND_DATA, Table 12.7. -/
def Reg.RAD_PEND_DATA : RegDesc where
  name := "RAD.PEND_DATA"
  blk := 13
  spaces := [15]
  off := 0x0434
  fields := [⟨"V", 31, 0, .ro, [], []⟩]

/-- RAD.PEND_SET, Table 12.7. -/
def Reg.RAD_PEND_SET : RegDesc where
  name := "RAD.PEND_SET"
  blk := 13
  spaces := [15]
  off := 0x0438
  fields := [⟨"V", 31, 0, .wo, [], []⟩]

/-- RAD.PEND_CLR, Table 12.7. -/
def Reg.RAD_PEND_CLR : RegDesc where
  name := "RAD.PEND_CLR"
  blk := 13
  spaces := [15]
  off := 0x043C
  fields := [⟨"V", 31, 0, .wo, [], []⟩]

/-- RAD.DL_BASE_LO, Table 12.7. -/
def Reg.RAD_DL_BASE_LO : RegDesc where
  name := "RAD.DL_BASE_LO"
  blk := 13
  spaces := [15]
  off := 0x0440
  fields := [⟨"V", 31, 0, .rw, [], []⟩]

/-- RAD.DL_BASE_HI, Table 12.7. -/
def Reg.RAD_DL_BASE_HI : RegDesc where
  name := "RAD.DL_BASE_HI"
  blk := 13
  spaces := [15]
  off := 0x0444
  fields := [⟨"V", 31, 0, .rw, [], []⟩]

/-- RAD.NOTIFY_QUEUE, Table 12.7. -/
def Reg.RAD_NOTIFY_QUEUE : RegDesc where
  name := "RAD.NOTIFY_QUEUE"
  blk := 13
  spaces := [15]
  off := 0x0448
  fields := [⟨"V", 5, 0, .rw, [(48, 63)], []⟩]

/-- RAD.G_FILTERED, Table 12.7. -/
def Reg.RAD_G_FILTERED : RegDesc where
  name := "RAD.G_FILTERED"
  blk := 13
  spaces := [15]
  off := 0x0480
  sat := some (0x04A0, 0)
  fields := [⟨"V", 31, 0, .rc, [], []⟩]

/-- RAD.G_UNKNOWN_SRC, Table 12.7. -/
def Reg.RAD_G_UNKNOWN_SRC : RegDesc where
  name := "RAD.G_UNKNOWN_SRC"
  blk := 13
  spaces := [15]
  off := 0x0484
  sat := some (0x04A0, 1)
  fields := [⟨"V", 31, 0, .rc, [], []⟩]

/-- RAD.G_BAD_FRAME, Table 12.7. -/
def Reg.RAD_G_BAD_FRAME : RegDesc where
  name := "RAD.G_BAD_FRAME"
  blk := 13
  spaces := [15]
  off := 0x0488
  sat := some (0x04A0, 2)
  fields := [⟨"V", 31, 0, .rc, [], []⟩]

/-- RAD.G_REPORT_DROP, Table 12.7. -/
def Reg.RAD_G_REPORT_DROP : RegDesc where
  name := "RAD.G_REPORT_DROP"
  blk := 13
  spaces := [15]
  off := 0x048C
  sat := some (0x04A0, 3)
  fields := [⟨"V", 31, 0, .rc, [], []⟩]

/-- RAD.G_KEY_ABSENT, Table 12.7. -/
def Reg.RAD_G_KEY_ABSENT : RegDesc where
  name := "RAD.G_KEY_ABSENT"
  blk := 13
  spaces := [15]
  off := 0x0490
  sat := some (0x04A0, 4)
  fields := [⟨"V", 31, 0, .rc, [], []⟩]

/-- RAD.G_KEY_ABORT, Table 12.7. -/
def Reg.RAD_G_KEY_ABORT : RegDesc where
  name := "RAD.G_KEY_ABORT"
  blk := 13
  spaces := [15]
  off := 0x0494
  sat := some (0x04A0, 5)
  fields := [⟨"V", 31, 0, .rc, [], []⟩]

/-- RAD.G_PARENT_MISS, Table 12.7. -/
def Reg.RAD_G_PARENT_MISS : RegDesc where
  name := "RAD.G_PARENT_MISS"
  blk := 13
  spaces := [15]
  off := 0x0498
  sat := some (0x04A0, 6)
  fields := [⟨"V", 31, 0, .rc, [], []⟩]

/-- RAD.G_SCANS, Table 12.7. -/
def Reg.RAD_G_SCANS : RegDesc where
  name := "RAD.G_SCANS"
  blk := 13
  spaces := [15]
  off := 0x049C
  sat := some (0x04A0, 7)
  fields := [⟨"V", 31, 0, .rc, [], []⟩]

/-- RAD.G_CNT_SAT, Table 12.7. -/
def Reg.RAD_G_CNT_SAT : RegDesc where
  name := "RAD.G_CNT_SAT"
  blk := 13
  spaces := [15]
  off := 0x04A0
  fields := [⟨"SAT", 7, 0, .w1c, [], []⟩]

/-- RAD.UNIT_CFG, Table 12.7. -/
def Reg.RAD_UNIT_CFG : RegDesc where
  name := "RAD.UNIT_CFG"
  blk := 13
  spaces := [0]
  off := 0x0040
  reset := 0x0A000000
  fields := [⟨"EN", 31, 31, .ro, [], []⟩,
    ⟨"PHY", 30, 30, .ro, [], []⟩,
    ⟨"TXPWR", 28, 24, .rws, [], [(0, 20)]⟩,
    ⟨"SHORT", 15, 0, .ro, [], []⟩]

/-- RAD.UNIT_EUI_LO, Table 12.7. -/
def Reg.RAD_UNIT_EUI_LO : RegDesc where
  name := "RAD.UNIT_EUI_LO"
  blk := 13
  spaces := [0]
  off := 0x0044
  fields := [⟨"V", 31, 0, .ro, [], []⟩]

/-- RAD.UNIT_EUI_HI, Table 12.7. -/
def Reg.RAD_UNIT_EUI_HI : RegDesc where
  name := "RAD.UNIT_EUI_HI"
  blk := 13
  spaces := [0]
  off := 0x0048
  fields := [⟨"V", 31, 0, .ro, [], []⟩]

/-- RAD.UNIT_TX, Table 12.7. -/
def Reg.RAD_UNIT_TX : RegDesc where
  name := "RAD.UNIT_TX"
  blk := 13
  spaces := [0]
  off := 0x004C
  sat := some (0x0058, 0)
  fields := [⟨"V", 31, 0, .rc, [], []⟩]

/-- RAD.UNIT_RX, Table 12.7. -/
def Reg.RAD_UNIT_RX : RegDesc where
  name := "RAD.UNIT_RX"
  blk := 13
  spaces := [0]
  off := 0x0050
  sat := some (0x0058, 1)
  fields := [⟨"V", 31, 0, .rc, [], []⟩]

/-- RAD.UNIT_ACK_TX, Table 12.7. -/
def Reg.RAD_UNIT_ACK_TX : RegDesc where
  name := "RAD.UNIT_ACK_TX"
  blk := 13
  spaces := [0]
  off := 0x0054
  sat := some (0x0058, 2)
  fields := [⟨"V", 31, 0, .rc, [], []⟩]

/-- RAD.UNIT_CNT_SAT, Table 12.7. -/
def Reg.RAD_UNIT_CNT_SAT : RegDesc where
  name := "RAD.UNIT_CNT_SAT"
  blk := 13
  spaces := [0]
  off := 0x0058
  fields := [⟨"SAT", 2, 0, .w1c, [], []⟩]

/-- RAD.NODE_CFG, Table 12.7. -/
def Reg.RAD_NODE_CFG : RegDesc where
  name := "RAD.NODE_CFG"
  blk := 13
  spaces := [1]
  off := 0x0040
  fields := [⟨"EN", 31, 31, .rws, [], []⟩,
    ⟨"LEVEL", 30, 30, .ro, [], []⟩,
    ⟨"CTX", 12, 0, .ro, [], []⟩]

/-- RAD.NODE_STATE, Table 12.7. -/
def Reg.RAD_NODE_STATE : RegDesc where
  name := "RAD.NODE_STATE"
  blk := 13
  spaces := [1]
  off := 0x0044
  fields := [⟨"STATE", 31, 30, .ro, [], []⟩,
    ⟨"PENDING", 29, 29, .ro, [], []⟩,
    ⟨"DL_BUSY", 28, 28, .ro, [], []⟩,
    ⟨"WIDE", 27, 27, .ro, [], []⟩,
    ⟨"MISS_RUN", 23, 16, .ro, [], []⟩]

/-- RAD.NODE_EUI_LO, Table 12.7. -/
def Reg.RAD_NODE_EUI_LO : RegDesc where
  name := "RAD.NODE_EUI_LO"
  blk := 13
  spaces := [1]
  off := 0x0048
  fields := [⟨"V", 31, 0, .ro, [], []⟩]

/-- RAD.NODE_EUI_HI, Table 12.7. -/
def Reg.RAD_NODE_EUI_HI : RegDesc where
  name := "RAD.NODE_EUI_HI"
  blk := 13
  spaces := [1]
  off := 0x004C
  fields := [⟨"V", 31, 0, .ro, [], []⟩]

/-- RAD.NODE_PRATED, Table 12.7. -/
def Reg.RAD_NODE_PRATED : RegDesc where
  name := "RAD.NODE_PRATED"
  blk := 13
  spaces := [1]
  off := 0x0050
  reset := 0x3F800000
  fields := [⟨"V", 31, 0, .rws, [], []⟩]

/-- RAD.NODE_DRIFT, Table 12.7. -/
def Reg.RAD_NODE_DRIFT : RegDesc where
  name := "RAD.NODE_DRIFT"
  blk := 13
  spaces := [1]
  off := 0x0054
  fields := [⟨"V", 31, 0, .ro, [], []⟩]

/-- RAD.NODE_OFFSET, Table 12.7. -/
def Reg.RAD_NODE_OFFSET : RegDesc where
  name := "RAD.NODE_OFFSET"
  blk := 13
  spaces := [1]
  off := 0x0058
  fields := [⟨"V", 31, 0, .ro, [], []⟩]

/-- RAD.NODE_LAST_ASN, Table 12.7. -/
def Reg.RAD_NODE_LAST_ASN : RegDesc where
  name := "RAD.NODE_LAST_ASN"
  blk := 13
  spaces := [1]
  off := 0x005C
  fields := [⟨"V", 31, 0, .ro, [], []⟩]

/-- RAD.NODE_CMD, Table 12.7. -/
def Reg.RAD_NODE_CMD : RegDesc where
  name := "RAD.NODE_CMD"
  blk := 13
  spaces := [1]
  off := 0x0060
  fields := [⟨"DL_POST", 0, 0, .wo, [], []⟩]

/-- RAD.NODE_FRAMES, Table 12.7. -/
def Reg.RAD_NODE_FRAMES : RegDesc where
  name := "RAD.NODE_FRAMES"
  blk := 13
  spaces := [1]
  off := 0x0064
  sat := some (0x0080, 0)
  fields := [⟨"V", 31, 0, .rc, [], []⟩]

/-- RAD.NODE_REPORTS, Table 12.7. -/
def Reg.RAD_NODE_REPORTS : RegDesc where
  name := "RAD.NODE_REPORTS"
  blk := 13
  spaces := [1]
  off := 0x0068
  sat := some (0x0080, 1)
  fields := [⟨"V", 31, 0, .rc, [], []⟩]

/-- RAD.NODE_MISSED, Table 12.7. -/
def Reg.RAD_NODE_MISSED : RegDesc where
  name := "RAD.NODE_MISSED"
  blk := 13
  spaces := [1]
  off := 0x006C
  sat := some (0x0080, 2)
  fields := [⟨"V", 31, 0, .rc, [], []⟩]

/-- RAD.NODE_AUTH_FAIL, Table 12.7. -/
def Reg.RAD_NODE_AUTH_FAIL : RegDesc where
  name := "RAD.NODE_AUTH_FAIL"
  blk := 13
  spaces := [1]
  off := 0x0070
  sat := some (0x0080, 3)
  fields := [⟨"V", 31, 0, .rc, [], []⟩]

/-- RAD.NODE_WIDE, Table 12.7. -/
def Reg.RAD_NODE_WIDE : RegDesc where
  name := "RAD.NODE_WIDE"
  blk := 13
  spaces := [1]
  off := 0x0074
  sat := some (0x0080, 4)
  fields := [⟨"V", 31, 0, .rc, [], []⟩]

/-- RAD.NODE_STALES, Table 12.7. -/
def Reg.RAD_NODE_STALES : RegDesc where
  name := "RAD.NODE_STALES"
  blk := 13
  spaces := [1]
  off := 0x0078
  sat := some (0x0080, 5)
  fields := [⟨"V", 31, 0, .rc, [], []⟩]

/-- RAD.NODE_DL_FAIL, Table 12.7. -/
def Reg.RAD_NODE_DL_FAIL : RegDesc where
  name := "RAD.NODE_DL_FAIL"
  blk := 13
  spaces := [1]
  off := 0x007C
  sat := some (0x0080, 6)
  fields := [⟨"V", 31, 0, .rc, [], []⟩]

/-- RAD.NODE_CNT_SAT, Table 12.7. -/
def Reg.RAD_NODE_CNT_SAT : RegDesc where
  name := "RAD.NODE_CNT_SAT"
  blk := 13
  spaces := [1]
  off := 0x0080
  fields := [⟨"SAT", 6, 0, .w1c, [], []⟩]

/-- RAD.CELL_CFG, Table 12.7. -/
def Reg.RAD_CELL_CFG : RegDesc where
  name := "RAD.CELL_CFG"
  blk := 13
  spaces := [2]
  off := 0x0040
  fields := [⟨"VALID", 31, 31, .ro, [], []⟩,
    ⟨"TYPE", 30, 28, .ro, [], []⟩,
    ⟨"UNIT", 27, 26, .ro, [], []⟩,
    ⟨"CH_OFF", 25, 20, .ro, [], []⟩,
    ⟨"SLOT", 19, 10, .ro, [], []⟩,
    ⟨"NODE", 9, 0, .ro, [], []⟩]

/-- The registers of RAD (Table 12.7 and the field tables of its chapter). -/
def Reg.tableRAD : List RegDesc :=
  [Reg.RAD_SEL, Reg.RAD_IRQ_STATUS, Reg.RAD_IRQ_ENABLE, Reg.RAD_COMMIT,
   Reg.RAD_STATUS, Reg.RAD_CFG, Reg.RAD_PAN_ID, Reg.RAD_ASN_EPOCH_LO,
   Reg.RAD_ASN_EPOCH_HI, Reg.RAD_ASN_LO, Reg.RAD_ASN_HI, Reg.RAD_GUARD,
   Reg.RAD_ROOT_SLOT, Reg.RAD_PEND_IDX, Reg.RAD_PEND_DATA, Reg.RAD_PEND_SET,
   Reg.RAD_PEND_CLR, Reg.RAD_DL_BASE_LO, Reg.RAD_DL_BASE_HI, Reg.RAD_NOTIFY_QUEUE] ++
  [Reg.RAD_G_FILTERED, Reg.RAD_G_UNKNOWN_SRC, Reg.RAD_G_BAD_FRAME, Reg.RAD_G_REPORT_DROP,
   Reg.RAD_G_KEY_ABSENT, Reg.RAD_G_KEY_ABORT, Reg.RAD_G_PARENT_MISS, Reg.RAD_G_SCANS,
   Reg.RAD_G_CNT_SAT, Reg.RAD_UNIT_CFG, Reg.RAD_UNIT_EUI_LO, Reg.RAD_UNIT_EUI_HI,
   Reg.RAD_UNIT_TX, Reg.RAD_UNIT_RX, Reg.RAD_UNIT_ACK_TX, Reg.RAD_UNIT_CNT_SAT,
   Reg.RAD_NODE_CFG, Reg.RAD_NODE_STATE, Reg.RAD_NODE_EUI_LO, Reg.RAD_NODE_EUI_HI] ++
  [Reg.RAD_NODE_PRATED, Reg.RAD_NODE_DRIFT, Reg.RAD_NODE_OFFSET, Reg.RAD_NODE_LAST_ASN,
   Reg.RAD_NODE_CMD, Reg.RAD_NODE_FRAMES, Reg.RAD_NODE_REPORTS, Reg.RAD_NODE_MISSED,
   Reg.RAD_NODE_AUTH_FAIL, Reg.RAD_NODE_WIDE, Reg.RAD_NODE_STALES, Reg.RAD_NODE_DL_FAIL,
   Reg.RAD_NODE_CNT_SAT, Reg.RAD_CELL_CFG]

end Sys2Proof.Machine
end

