-- ==== Sys2Proof/Machine/RegMapD.lean ====
section
/-! DEFINITION. The register maps of MEM, DMA, QUE, CMP, CAS, RED, KEY, TAM, EVR, PWR, ACC, one descriptor per register, from the register tables of the spec. -/

namespace Sys2Proof.Machine

/-- MEM.SEL, Table 13.6. -/
def Reg.MEM_SEL : RegDesc where
  name := "MEM.SEL"
  blk := 14
  spaces := [15]
  off := 0x0000
  banked := true
  fields := [⟨"AINC", 31, 31, .rw, [], []⟩,
    ⟨"MEMORY", 3, 0, .rw, [(0, 9)], []⟩]

/-- MEM.IRQ_STATUS, Table 13.6. -/
def Reg.MEM_IRQ_STATUS : RegDesc where
  name := "MEM.IRQ_STATUS"
  blk := 14
  spaces := [15]
  off := 0x0400
  fields := [⟨"SET_REJECT", 5, 5, .w1c, [], []⟩,
    ⟨"REMAP_REQ", 4, 4, .w1c, [], []⟩,
    ⟨"REMAP_EXHAUSTED", 3, 3, .w1c, [], []⟩,
    ⟨"SCRUB_STARVED", 2, 2, .w1c, [], []⟩,
    ⟨"UE", 1, 1, .w1c, [], []⟩,
    ⟨"CE", 0, 0, .w1c, [], []⟩]

/-- MEM.IRQ_ENABLE, Table 13.6. -/
def Reg.MEM_IRQ_ENABLE : RegDesc where
  name := "MEM.IRQ_ENABLE"
  blk := 14
  spaces := [15]
  off := 0x0404
  fields := [⟨"SET_REJECT", 5, 5, .rw, [], []⟩,
    ⟨"REMAP_REQ", 4, 4, .rw, [], []⟩,
    ⟨"REMAP_EXHAUSTED", 3, 3, .rw, [], []⟩,
    ⟨"SCRUB_STARVED", 2, 2, .rw, [], []⟩,
    ⟨"UE", 1, 1, .rw, [], []⟩,
    ⟨"CE", 0, 0, .rw, [], []⟩]

/-- MEM.COMMIT, Table 13.6. -/
def Reg.MEM_COMMIT : RegDesc where
  name := "MEM.COMMIT"
  blk := 14
  spaces := [15]
  off := 0x0408
  fields := [⟨"COMMIT", 0, 0, .wo, [], []⟩]

/-- MEM.STATUS, Table 13.6. -/
def Reg.MEM_STATUS : RegDesc where
  name := "MEM.STATUS"
  blk := 14
  spaces := [15]
  off := 0x040C
  fields := [⟨"SHADOW_PENDING", 31, 31, .ro, [], []⟩,
    ⟨"F", 9, 0, .ro, [], []⟩]

/-- MEM.REMAP_CFG, Table 13.6. -/
def Reg.MEM_REMAP_CFG : RegDesc where
  name := "MEM.REMAP_CFG"
  blk := 14
  spaces := [15]
  off := 0x0410
  reset := 0x00000001
  fields := [⟨"POLICY", 1, 0, .rw, [(0, 2)], []⟩]

/-- MEM.REMAP_ADDR, Table 13.6. -/
def Reg.MEM_REMAP_ADDR : RegDesc where
  name := "MEM.REMAP_ADDR"
  blk := 14
  spaces := [15]
  off := 0x0414
  fields := [⟨"V", 31, 0, .rw, [], []⟩]

/-- MEM.REMAP_CMD, Table 13.6. -/
def Reg.MEM_REMAP_CMD : RegDesc where
  name := "MEM.REMAP_CMD"
  blk := 14
  spaces := [15]
  off := 0x0418
  fields := [⟨"ERASE", 1, 1, .wo, [], []⟩,
    ⟨"REMAP", 0, 0, .wo, [], []⟩]

/-- MEM.REMAP_BAD, Table 13.6. -/
def Reg.MEM_REMAP_BAD : RegDesc where
  name := "MEM.REMAP_BAD"
  blk := 14
  spaces := [15]
  off := 0x041C
  sat := some (0x0424, 0)
  fields := [⟨"V", 31, 0, .rc, [], []⟩]

/-- MEM.DIAG_REFUSED, Table 13.6. -/
def Reg.MEM_DIAG_REFUSED : RegDesc where
  name := "MEM.DIAG_REFUSED"
  blk := 14
  spaces := [15]
  off := 0x0420
  sat := some (0x0424, 1)
  fields := [⟨"V", 31, 0, .rc, [], []⟩]

/-- MEM.G_CNT_SAT, Table 13.6. -/
def Reg.MEM_G_CNT_SAT : RegDesc where
  name := "MEM.G_CNT_SAT"
  blk := 14
  spaces := [15]
  off := 0x0424
  fields := [⟨"SAT", 1, 0, .w1c, [], []⟩]

/-- MEM.SCRUB_CFG, Table 13.6. -/
def Reg.MEM_SCRUB_CFG : RegDesc where
  name := "MEM.SCRUB_CFG"
  blk := 14
  spaces := [0]
  off := 0x0040
  reset := 0x0000000A
  resetI := [(9, 0x00001C20)]
  fields := [⟨"PAUSE", 31, 31, .rw, [], []⟩,
    ⟨"LAP_LIMIT", 16, 0, .rws, [], []⟩]

/-- MEM.MEM_STATUS, Table 13.6. -/
def Reg.MEM_MEM_STATUS : RegDesc where
  name := "MEM.MEM_STATUS"
  blk := 14
  spaces := [0]
  off := 0x0044
  fields := [⟨"SCRUB_STARVED", 31, 31, .ro, [], []⟩,
    ⟨"FORCED", 30, 30, .ro, [], []⟩,
    ⟨"PAUSED", 29, 29, .ro, [], []⟩,
    ⟨"SPARES_FREE", 15, 0, .ro, [], []⟩]

/-- MEM.LAP_MS, Table 13.6. -/
def Reg.MEM_LAP_MS : RegDesc where
  name := "MEM.LAP_MS"
  blk := 14
  spaces := [0]
  off := 0x0048
  fields := [⟨"V", 31, 0, .ro, [], []⟩]

/-- MEM.LAST_CE_LO, Table 13.6. -/
def Reg.MEM_LAST_CE_LO : RegDesc where
  name := "MEM.LAST_CE_LO"
  blk := 14
  spaces := [0]
  off := 0x004C
  fields := [⟨"V", 31, 0, .ro, [], []⟩]

/-- MEM.LAST_CE_HI, Table 13.6. -/
def Reg.MEM_LAST_CE_HI : RegDesc where
  name := "MEM.LAST_CE_HI"
  blk := 14
  spaces := [0]
  off := 0x0050
  fields := [⟨"V", 31, 0, .ro, [], []⟩]

/-- MEM.LAST_UE_LO, Table 13.6. -/
def Reg.MEM_LAST_UE_LO : RegDesc where
  name := "MEM.LAST_UE_LO"
  blk := 14
  spaces := [0]
  off := 0x0054
  fields := [⟨"V", 31, 0, .ro, [], []⟩]

/-- MEM.LAST_UE_HI, Table 13.6. -/
def Reg.MEM_LAST_UE_HI : RegDesc where
  name := "MEM.LAST_UE_HI"
  blk := 14
  spaces := [0]
  off := 0x0058
  fields := [⟨"V", 31, 0, .ro, [], []⟩]

/-- MEM.CE_COUNT, Table 13.6. -/
def Reg.MEM_CE_COUNT : RegDesc where
  name := "MEM.CE_COUNT"
  blk := 14
  spaces := [0]
  off := 0x005C
  sat := some (0x006C, 0)
  fields := [⟨"V", 31, 0, .rc, [], []⟩]

/-- MEM.UE_COUNT, Table 13.6. -/
def Reg.MEM_UE_COUNT : RegDesc where
  name := "MEM.UE_COUNT"
  blk := 14
  spaces := [0]
  off := 0x0060
  sat := some (0x006C, 1)
  fields := [⟨"V", 31, 0, .rc, [], []⟩]

/-- MEM.REMAPS, Table 13.6. -/
def Reg.MEM_REMAPS : RegDesc where
  name := "MEM.REMAPS"
  blk := 14
  spaces := [0]
  off := 0x0064
  sat := some (0x006C, 2)
  fields := [⟨"V", 31, 0, .rc, [], []⟩]

/-- MEM.SCRUB_LAPS, Table 13.6. -/
def Reg.MEM_SCRUB_LAPS : RegDesc where
  name := "MEM.SCRUB_LAPS"
  blk := 14
  spaces := [0]
  off := 0x0068
  sat := some (0x006C, 3)
  fields := [⟨"V", 31, 0, .rc, [], []⟩]

/-- MEM.CNT_SAT, Table 13.6. -/
def Reg.MEM_CNT_SAT : RegDesc where
  name := "MEM.CNT_SAT"
  blk := 14
  spaces := [0]
  off := 0x006C
  fields := [⟨"SAT", 3, 0, .w1c, [], []⟩]

/-- MEM.TRACK, Table 13.6. -/
def Reg.MEM_TRACK : RegDesc where
  name := "MEM.TRACK"
  blk := 14
  spaces := [0]
  off := 0x0080
  n := 16
  fields := [⟨"F", 31, 30, .ro, [], []⟩,
    ⟨"F", 29, 0, .ro, [], []⟩]

/-- MEM.DIAG_ADDR, Table 13.6. -/
def Reg.MEM_DIAG_ADDR : RegDesc where
  name := "MEM.DIAG_ADDR"
  blk := 14
  spaces := [0]
  off := 0x0100
  banked := true
  fields := [⟨"V", 31, 0, .rw, [], []⟩]

/-- MEM.DIAG_CMD, Table 13.6. -/
def Reg.MEM_DIAG_CMD : RegDesc where
  name := "MEM.DIAG_CMD"
  blk := 14
  spaces := [0]
  off := 0x0104
  fields := [⟨"T", 2, 0, .wo, [], []⟩]

/-- MEM.DIAG_BUF, Table 13.6. -/
def Reg.MEM_DIAG_BUF : RegDesc where
  name := "MEM.DIAG_BUF"
  blk := 14
  spaces := [0]
  off := 0x0140
  n := 20
  banked := true
  fields := [⟨"V", 31, 0, .rw, [], []⟩]

/-- The registers of MEM (Table 13.6 and the field tables of its chapter). -/
def Reg.tableMEM : List RegDesc :=
  [Reg.MEM_SEL, Reg.MEM_IRQ_STATUS, Reg.MEM_IRQ_ENABLE, Reg.MEM_COMMIT,
   Reg.MEM_STATUS, Reg.MEM_REMAP_CFG, Reg.MEM_REMAP_ADDR, Reg.MEM_REMAP_CMD,
   Reg.MEM_REMAP_BAD, Reg.MEM_DIAG_REFUSED, Reg.MEM_G_CNT_SAT, Reg.MEM_SCRUB_CFG,
   Reg.MEM_MEM_STATUS, Reg.MEM_LAP_MS, Reg.MEM_LAST_CE_LO, Reg.MEM_LAST_CE_HI,
   Reg.MEM_LAST_UE_LO, Reg.MEM_LAST_UE_HI, Reg.MEM_CE_COUNT, Reg.MEM_UE_COUNT] ++
  [Reg.MEM_REMAPS, Reg.MEM_SCRUB_LAPS, Reg.MEM_CNT_SAT, Reg.MEM_TRACK,
   Reg.MEM_DIAG_ADDR, Reg.MEM_DIAG_CMD, Reg.MEM_DIAG_BUF]

/-- DMA.SEL, Table 13.7. -/
def Reg.DMA_SEL : RegDesc where
  name := "DMA.SEL"
  blk := 15
  spaces := [15]
  off := 0x0000
  banked := true
  fields := [⟨"AINC", 31, 31, .rw, [], []⟩,
    ⟨"ENGINE", 4, 4, .rw, [], []⟩,
    ⟨"CH", 3, 0, .rw, [], []⟩]

/-- DMA.IRQ_STATUS, Table 13.7. -/
def Reg.DMA_IRQ_STATUS : RegDesc where
  name := "DMA.IRQ_STATUS"
  blk := 15
  spaces := [15]
  off := 0x0400
  fields := [⟨"DMA", 31, 16, .w1c, [], []⟩,
    ⟨"DMA", 15, 0, .w1c, [], []⟩]

/-- DMA.IRQ_ENABLE, Table 13.7. -/
def Reg.DMA_IRQ_ENABLE : RegDesc where
  name := "DMA.IRQ_ENABLE"
  blk := 15
  spaces := [15]
  off := 0x0404
  fields := [⟨"DMA", 31, 16, .rw, [], []⟩,
    ⟨"DMA", 15, 0, .rw, [], []⟩]

/-- DMA.ENG_STATUS, Table 13.7. -/
def Reg.DMA_ENG_STATUS : RegDesc where
  name := "DMA.ENG_STATUS"
  blk := 15
  spaces := [15]
  off := 0x0408
  fields := [⟨"B", 17, 17, .ro, [], []⟩,
    ⟨"T", 16, 16, .ro, [], []⟩,
    ⟨"B", 7, 4, .ro, [], []⟩,
    ⟨"T", 3, 0, .ro, [], []⟩]

/-- DMA.CH_REFUSED, Table 13.7. -/
def Reg.DMA_CH_REFUSED : RegDesc where
  name := "DMA.CH_REFUSED"
  blk := 15
  spaces := [15]
  off := 0x040C
  sat := some (0x0410, 0)
  fields := [⟨"V", 31, 0, .rc, [], []⟩]

/-- DMA.G_CNT_SAT, Table 13.7. -/
def Reg.DMA_G_CNT_SAT : RegDesc where
  name := "DMA.G_CNT_SAT"
  blk := 15
  spaces := [15]
  off := 0x0410
  fields := [⟨"SAT", 0, 0, .w1c, [], []⟩]

/-- DMA.SRC_BASE_LO, Table 13.7. -/
def Reg.DMA_SRC_BASE_LO : RegDesc where
  name := "DMA.SRC_BASE_LO"
  blk := 15
  spaces := [0]
  off := 0x0040
  fields := [⟨"V", 31, 0, .rws, [], []⟩]

/-- DMA.SRC_BASE_HI, Table 13.7. -/
def Reg.DMA_SRC_BASE_HI : RegDesc where
  name := "DMA.SRC_BASE_HI"
  blk := 15
  spaces := [0]
  off := 0x0044
  fields := [⟨"V", 7, 0, .rws, [], []⟩]

/-- DMA.SRC_LEN, Table 13.7. -/
def Reg.DMA_SRC_LEN : RegDesc where
  name := "DMA.SRC_LEN"
  blk := 15
  spaces := [0]
  off := 0x0048
  fields := [⟨"V", 24, 0, .rws, [], []⟩]

/-- DMA.SRC_STRIDE, Table 13.7. -/
def Reg.DMA_SRC_STRIDE : RegDesc where
  name := "DMA.SRC_STRIDE"
  blk := 15
  spaces := [0]
  off := 0x004C
  fields := [⟨"V", 31, 0, .rws, [], []⟩]

/-- DMA.SRC_COUNT, Table 13.7. -/
def Reg.DMA_SRC_COUNT : RegDesc where
  name := "DMA.SRC_COUNT"
  blk := 15
  spaces := [0]
  off := 0x0050
  fields := [⟨"V", 24, 0, .rws, [], []⟩]

/-- DMA.DST_BASE_LO, Table 13.7. -/
def Reg.DMA_DST_BASE_LO : RegDesc where
  name := "DMA.DST_BASE_LO"
  blk := 15
  spaces := [0]
  off := 0x0054
  fields := [⟨"V", 31, 0, .rws, [], []⟩]

/-- DMA.DST_BASE_HI, Table 13.7. -/
def Reg.DMA_DST_BASE_HI : RegDesc where
  name := "DMA.DST_BASE_HI"
  blk := 15
  spaces := [0]
  off := 0x0058
  fields := [⟨"V", 7, 0, .rws, [], []⟩]

/-- DMA.DST_LEN, Table 13.7. -/
def Reg.DMA_DST_LEN : RegDesc where
  name := "DMA.DST_LEN"
  blk := 15
  spaces := [0]
  off := 0x005C
  fields := [⟨"V", 24, 0, .rws, [], []⟩]

/-- DMA.DST_STRIDE, Table 13.7. -/
def Reg.DMA_DST_STRIDE : RegDesc where
  name := "DMA.DST_STRIDE"
  blk := 15
  spaces := [0]
  off := 0x0060
  fields := [⟨"V", 31, 0, .rws, [], []⟩]

/-- DMA.DST_COUNT, Table 13.7. -/
def Reg.DMA_DST_COUNT : RegDesc where
  name := "DMA.DST_COUNT"
  blk := 15
  spaces := [0]
  off := 0x0064
  fields := [⟨"V", 24, 0, .rws, [], []⟩]

/-- DMA.CH_CFG, Table 13.7. -/
def Reg.DMA_CH_CFG : RegDesc where
  name := "DMA.CH_CFG"
  blk := 15
  spaces := [0]
  off := 0x0068
  fields := [⟨"IRQ_EN", 31, 31, .rws, [], []⟩,
    ⟨"STRICT", 30, 30, .rws, [], []⟩,
    ⟨"SRC_W", 29, 28, .rws, [], []⟩,
    ⟨"DST_W", 27, 26, .rws, [], []⟩,
    ⟨"QUEUE", 21, 16, .rws, [(32, 63)], []⟩,
    ⟨"Q_EN", 15, 15, .rws, [], []⟩]

/-- DMA.CH_CMD, Table 13.7. -/
def Reg.DMA_CH_CMD : RegDesc where
  name := "DMA.CH_CMD"
  blk := 15
  spaces := [0]
  off := 0x006C
  fields := [⟨"CLEAR_HALT", 2, 2, .wo, [], []⟩,
    ⟨"COMMIT", 1, 1, .wo, [], []⟩,
    ⟨"START", 0, 0, .wo, [], []⟩]

/-- DMA.CH_STATUS, Table 13.7. -/
def Reg.DMA_CH_STATUS : RegDesc where
  name := "DMA.CH_STATUS"
  blk := 15
  spaces := [0]
  off := 0x0070
  fields := [⟨"STATE", 31, 29, .ro, [], []⟩,
    ⟨"SHADOW_PENDING", 28, 28, .ro, [], []⟩,
    ⟨"POISON", 27, 27, .ro, [], []⟩,
    ⟨"OWNED", 26, 26, .ro, [], []⟩,
    ⟨"ERR", 19, 16, .ro, [], []⟩]

/-- DMA.CH_DONE_BYTES, Table 13.7. -/
def Reg.DMA_CH_DONE_BYTES : RegDesc where
  name := "DMA.CH_DONE_BYTES"
  blk := 15
  spaces := [0]
  off := 0x0074
  fields := [⟨"V", 24, 0, .ro, [], []⟩]

/-- DMA.CH_RUNS, Table 13.7. -/
def Reg.DMA_CH_RUNS : RegDesc where
  name := "DMA.CH_RUNS"
  blk := 15
  spaces := [0]
  off := 0x0078
  sat := some (0x0080, 0)
  fields := [⟨"V", 31, 0, .rc, [], []⟩]

/-- DMA.CH_ERRORS, Table 13.7. -/
def Reg.DMA_CH_ERRORS : RegDesc where
  name := "DMA.CH_ERRORS"
  blk := 15
  spaces := [0]
  off := 0x007C
  sat := some (0x0080, 1)
  fields := [⟨"V", 31, 0, .rc, [], []⟩]

/-- DMA.CH_CNT_SAT, Table 13.7. -/
def Reg.DMA_CH_CNT_SAT : RegDesc where
  name := "DMA.CH_CNT_SAT"
  blk := 15
  spaces := [0]
  off := 0x0080
  fields := [⟨"SAT", 1, 0, .w1c, [], []⟩]

/-- The registers of DMA (Table 13.7 and the field tables of its chapter). -/
def Reg.tableDMA : List RegDesc :=
  [Reg.DMA_SEL, Reg.DMA_IRQ_STATUS, Reg.DMA_IRQ_ENABLE, Reg.DMA_ENG_STATUS,
   Reg.DMA_CH_REFUSED, Reg.DMA_G_CNT_SAT, Reg.DMA_SRC_BASE_LO, Reg.DMA_SRC_BASE_HI,
   Reg.DMA_SRC_LEN, Reg.DMA_SRC_STRIDE, Reg.DMA_SRC_COUNT, Reg.DMA_DST_BASE_LO,
   Reg.DMA_DST_BASE_HI, Reg.DMA_DST_LEN, Reg.DMA_DST_STRIDE, Reg.DMA_DST_COUNT,
   Reg.DMA_CH_CFG, Reg.DMA_CH_CMD, Reg.DMA_CH_STATUS, Reg.DMA_CH_DONE_BYTES] ++
  [Reg.DMA_CH_RUNS, Reg.DMA_CH_ERRORS, Reg.DMA_CH_CNT_SAT]

/-- QUE.SEL, Table 13.8. -/
def Reg.QUE_SEL : RegDesc where
  name := "QUE.SEL"
  blk := 16
  spaces := [15]
  off := 0x0000
  banked := true
  fields := [⟨"AINC", 31, 31, .rw, [], []⟩,
    ⟨"QUEUE", 5, 0, .rw, [], []⟩]

/-- QUE.IRQ_STATUS, Table 13.8. -/
def Reg.QUE_IRQ_STATUS : RegDesc where
  name := "QUE.IRQ_STATUS"
  blk := 16
  spaces := [15]
  off := 0x0400
  fields := [⟨"CFG_ERR", 2, 2, .w1c, [], []⟩,
    ⟨"READ_TIMEOUT", 1, 1, .w1c, [], []⟩,
    ⟨"OVERRUN", 0, 0, .w1c, [], []⟩]

/-- QUE.IRQ_ENABLE, Table 13.8. -/
def Reg.QUE_IRQ_ENABLE : RegDesc where
  name := "QUE.IRQ_ENABLE"
  blk := 16
  spaces := [15]
  off := 0x0404
  fields := [⟨"CFG_ERR", 2, 2, .rw, [], []⟩,
    ⟨"READ_TIMEOUT", 1, 1, .rw, [], []⟩,
    ⟨"OVERRUN", 0, 0, .rw, [], []⟩]

/-- QUE.WM_STATUS_LO, Table 13.8. -/
def Reg.QUE_WM_STATUS_LO : RegDesc where
  name := "QUE.WM_STATUS_LO"
  blk := 16
  spaces := [15]
  off := 0x0408
  fields := [⟨"V", 31, 0, .ro, [], []⟩]

/-- QUE.WM_STATUS_HI, Table 13.8. -/
def Reg.QUE_WM_STATUS_HI : RegDesc where
  name := "QUE.WM_STATUS_HI"
  blk := 16
  spaces := [15]
  off := 0x040C
  fields := [⟨"V", 31, 0, .ro, [], []⟩]

/-- QUE.POOL_USED, Table 13.8. -/
def Reg.QUE_POOL_USED : RegDesc where
  name := "QUE.POOL_USED"
  blk := 16
  spaces := [15]
  off := 0x0410
  fields := [⟨"V", 12, 0, .ro, [], []⟩]

/-- QUE.CFG, Table 13.8. -/
def Reg.QUE_CFG : RegDesc where
  name := "QUE.CFG"
  blk := 16
  spaces := [0]
  off := 0x0040
  fields := [⟨"EN", 31, 31, .rw, [], []⟩,
    ⟨"DEPTH", 28, 16, .rw, [], []⟩,
    ⟨"BASE", 11, 0, .rw, [], []⟩]

/-- QUE.STATUS, Table 13.8. -/
def Reg.QUE_STATUS : RegDesc where
  name := "QUE.STATUS"
  blk := 16
  spaces := [0]
  off := 0x0044
  reset := 0x20000000
  fields := [⟨"FULL", 31, 31, .ro, [], []⟩,
    ⟨"OVERRUN", 30, 30, .w1c, [], []⟩,
    ⟨"EMPTY", 29, 29, .ro, [], []⟩,
    ⟨"FLUSH_PENDING", 28, 28, .ro, [], []⟩,
    ⟨"BREAK_PENDING", 27, 27, .ro, [], []⟩,
    ⟨"PKT_OPEN", 26, 26, .ro, [], []⟩,
    ⟨"DUAL", 25, 25, .ro, [], []⟩,
    ⟨"LEVEL", 18, 0, .ro, [], []⟩]

/-- QUE.PUSH, Table 13.8. -/
def Reg.QUE_PUSH : RegDesc where
  name := "QUE.PUSH"
  blk := 16
  spaces := [0]
  off := 0x0048
  w64 := true
  fields := [⟨"V", 63, 0, .wo, [], []⟩]

/-- QUE.PUSH_EOP, Table 13.8. -/
def Reg.QUE_PUSH_EOP : RegDesc where
  name := "QUE.PUSH_EOP"
  blk := 16
  spaces := [0]
  off := 0x0050
  w64 := true
  fields := [⟨"V", 63, 0, .wo, [], []⟩]

/-- QUE.POP, Table 13.8. -/
def Reg.QUE_POP : RegDesc where
  name := "QUE.POP"
  blk := 16
  spaces := [0]
  off := 0x0058
  w64 := true
  fields := [⟨"V", 63, 0, .ro, [], []⟩]

/-- QUE.TRYPOP, Table 13.8. -/
def Reg.QUE_TRYPOP : RegDesc where
  name := "QUE.TRYPOP"
  blk := 16
  spaces := [0]
  off := 0x0060
  w64 := true
  fields := [⟨"V", 63, 0, .ro, [], []⟩]

/-- QUE.POP_STATUS, Table 13.8. -/
def Reg.QUE_POP_STATUS : RegDesc where
  name := "QUE.POP_STATUS"
  blk := 16
  spaces := [0]
  off := 0x0068
  banked := true
  fields := [⟨"POISON", 3, 3, .ro, [], []⟩,
    ⟨"BREAK", 2, 2, .ro, [], []⟩,
    ⟨"EMPTY", 1, 1, .ro, [], []⟩,
    ⟨"EOP", 0, 0, .ro, [], []⟩]

/-- QUE.CMD, Table 13.8. -/
def Reg.QUE_CMD : RegDesc where
  name := "QUE.CMD"
  blk := 16
  spaces := [0]
  off := 0x006C
  fields := [⟨"FLUSH", 0, 0, .wo, [], []⟩]

/-- QUE.WMARK, Table 13.8. -/
def Reg.QUE_WMARK : RegDesc where
  name := "QUE.WMARK"
  blk := 16
  spaces := [0]
  off := 0x0070
  reset := 0x00000001
  fields := [⟨"V", 18, 0, .rw, [(1, 262144)], []⟩]

/-- QUE.PUSHES, Table 13.8. -/
def Reg.QUE_PUSHES : RegDesc where
  name := "QUE.PUSHES"
  blk := 16
  spaces := [0]
  off := 0x0074
  sat := some (0x0084, 0)
  fields := [⟨"V", 31, 0, .rc, [], []⟩]

/-- QUE.OVERRUN_ITEMS, Table 13.8. -/
def Reg.QUE_OVERRUN_ITEMS : RegDesc where
  name := "QUE.OVERRUN_ITEMS"
  blk := 16
  spaces := [0]
  off := 0x0078
  sat := some (0x0084, 1)
  fields := [⟨"V", 31, 0, .rc, [], []⟩]

/-- QUE.WR_DISABLED, Table 13.8. -/
def Reg.QUE_WR_DISABLED : RegDesc where
  name := "QUE.WR_DISABLED"
  blk := 16
  spaces := [0]
  off := 0x007C
  sat := some (0x0084, 2)
  fields := [⟨"V", 31, 0, .rc, [], []⟩]

/-- QUE.READ_TIMEOUTS, Table 13.8. -/
def Reg.QUE_READ_TIMEOUTS : RegDesc where
  name := "QUE.READ_TIMEOUTS"
  blk := 16
  spaces := [0]
  off := 0x0080
  sat := some (0x0084, 3)
  fields := [⟨"V", 31, 0, .rc, [], []⟩]

/-- QUE.CNT_SAT, Table 13.8. -/
def Reg.QUE_CNT_SAT : RegDesc where
  name := "QUE.CNT_SAT"
  blk := 16
  spaces := [0]
  off := 0x0084
  fields := [⟨"SAT", 3, 0, .w1c, [], []⟩]

/-- The registers of QUE (Table 13.8 and the field tables of its chapter). -/
def Reg.tableQUE : List RegDesc :=
  [Reg.QUE_SEL, Reg.QUE_IRQ_STATUS, Reg.QUE_IRQ_ENABLE, Reg.QUE_WM_STATUS_LO,
   Reg.QUE_WM_STATUS_HI, Reg.QUE_POOL_USED, Reg.QUE_CFG, Reg.QUE_STATUS,
   Reg.QUE_PUSH, Reg.QUE_PUSH_EOP, Reg.QUE_POP, Reg.QUE_TRYPOP,
   Reg.QUE_POP_STATUS, Reg.QUE_CMD, Reg.QUE_WMARK, Reg.QUE_PUSHES,
   Reg.QUE_OVERRUN_ITEMS, Reg.QUE_WR_DISABLED, Reg.QUE_READ_TIMEOUTS, Reg.QUE_CNT_SAT]

/-- CMP.SEL, Table 14.4. -/
def Reg.CMP_SEL : RegDesc where
  name := "CMP.SEL"
  blk := 17
  spaces := [15]
  off := 0x0000
  banked := true
  fields := [⟨"AINC", 31, 31, .rw, [], []⟩,
    ⟨"SPACE", 30, 29, .rw, [(0, 1)], []⟩,
    ⟨"INDEX", 7, 0, .rw, [], []⟩]

/-- CMP.IRQ_STATUS, Table 14.4. -/
def Reg.CMP_IRQ_STATUS : RegDesc where
  name := "CMP.IRQ_STATUS"
  blk := 17
  spaces := [15]
  off := 0x0400
  fields := [⟨"SET_REJECT", 5, 5, .w1c, [], []⟩,
    ⟨"KEY_ABSENT", 4, 4, .w1c, [], []⟩,
    ⟨"AUTH_FAIL", 3, 3, .w1c, [], []⟩,
    ⟨"DECODE_ERR", 2, 2, .w1c, [], []⟩,
    ⟨"JOB_DONE", 1, 1, .w1c, [], []⟩,
    ⟨"NOSPACE", 0, 0, .w1c, [], []⟩]

/-- CMP.IRQ_ENABLE, Table 14.4. -/
def Reg.CMP_IRQ_ENABLE : RegDesc where
  name := "CMP.IRQ_ENABLE"
  blk := 17
  spaces := [15]
  off := 0x0404
  fields := [⟨"SET_REJECT", 5, 5, .rw, [], []⟩,
    ⟨"KEY_ABSENT", 4, 4, .rw, [], []⟩,
    ⟨"AUTH_FAIL", 3, 3, .rw, [], []⟩,
    ⟨"DECODE_ERR", 2, 2, .rw, [], []⟩,
    ⟨"JOB_DONE", 1, 1, .rw, [], []⟩,
    ⟨"NOSPACE", 0, 0, .rw, [], []⟩]

/-- CMP.COMMIT, Table 14.4. -/
def Reg.CMP_COMMIT : RegDesc where
  name := "CMP.COMMIT"
  blk := 17
  spaces := [15]
  off := 0x0408
  fields := [⟨"COMMIT", 0, 0, .wo, [], []⟩]

/-- CMP.STATUS, Table 14.4. -/
def Reg.CMP_STATUS : RegDesc where
  name := "CMP.STATUS"
  blk := 17
  spaces := [15]
  off := 0x040C
  fields := [⟨"SHADOW_PENDING", 31, 31, .ro, [], []⟩,
    ⟨"F", 15, 0, .ro, [], []⟩]

/-- CMP.RING_BASE_LO, Table 14.4. -/
def Reg.CMP_RING_BASE_LO : RegDesc where
  name := "CMP.RING_BASE_LO"
  blk := 17
  spaces := [15]
  off := 0x0410
  fields := [⟨"V", 31, 0, .rw, [], []⟩]

/-- CMP.RING_BASE_HI, Table 14.4. -/
def Reg.CMP_RING_BASE_HI : RegDesc where
  name := "CMP.RING_BASE_HI"
  blk := 17
  spaces := [15]
  off := 0x0414
  fields := [⟨"V", 31, 0, .rw, [], []⟩]

/-- CMP.RING_SIZE, Table 14.4. -/
def Reg.CMP_RING_SIZE : RegDesc where
  name := "CMP.RING_SIZE"
  blk := 17
  spaces := [15]
  off := 0x0418
  fields := [⟨"V", 18, 0, .rw, [(1, 262144)], []⟩]

/-- CMP.RING_CFG, Table 14.4. -/
def Reg.CMP_RING_CFG : RegDesc where
  name := "CMP.RING_CFG"
  blk := 17
  spaces := [15]
  off := 0x041C
  fields := [⟨"PIN_EN", 0, 0, .rw, [], []⟩]

/-- CMP.RING_WR, Table 14.4. -/
def Reg.CMP_RING_WR : RegDesc where
  name := "CMP.RING_WR"
  blk := 17
  spaces := [15]
  off := 0x0420
  fields := [⟨"V", 27, 0, .ro, [], []⟩]

/-- CMP.RING_PIN, Table 14.4. -/
def Reg.CMP_RING_PIN : RegDesc where
  name := "CMP.RING_PIN"
  blk := 17
  spaces := [15]
  off := 0x0424
  fields := [⟨"V", 27, 0, .rw, [], []⟩]

/-- CMP.CTX_BASE_LO, Table 14.4. -/
def Reg.CMP_CTX_BASE_LO : RegDesc where
  name := "CMP.CTX_BASE_LO"
  blk := 17
  spaces := [15]
  off := 0x0428
  fields := [⟨"V", 31, 0, .rw, [], []⟩]

/-- CMP.CTX_BASE_HI, Table 14.4. -/
def Reg.CMP_CTX_BASE_HI : RegDesc where
  name := "CMP.CTX_BASE_HI"
  blk := 17
  spaces := [15]
  off := 0x042C
  fields := [⟨"V", 31, 0, .rw, [], []⟩]

/-- CMP.BLOCK, Table 14.4. -/
def Reg.CMP_BLOCK : RegDesc where
  name := "CMP.BLOCK"
  blk := 17
  spaces := [15]
  off := 0x0430
  reset := 0x00000010
  fields := [⟨"V", 4, 0, .rws, [], [(1, 16)]⟩]

/-- CMP.RESUME, Table 14.4. -/
def Reg.CMP_RESUME : RegDesc where
  name := "CMP.RESUME"
  blk := 17
  spaces := [15]
  off := 0x0434
  fields := [⟨"V", 15, 0, .wo, [], []⟩]

/-- CMP.LOAD_COUNT, Table 14.4. -/
def Reg.CMP_LOAD_COUNT : RegDesc where
  name := "CMP.LOAD_COUNT"
  blk := 17
  spaces := [15]
  off := 0x0438
  fields := [⟨"V", 31, 0, .ro, [], []⟩]

/-- CMP.NOTIFY_QUEUE, Table 14.4. -/
def Reg.CMP_NOTIFY_QUEUE : RegDesc where
  name := "CMP.NOTIFY_QUEUE"
  blk := 17
  spaces := [15]
  off := 0x043C
  reset := 0x00000020
  fields := [⟨"V", 5, 0, .rw, [(32, 47)], []⟩]

/-- CMP.JOB_ADDR_LO, Table 14.4. -/
def Reg.CMP_JOB_ADDR_LO : RegDesc where
  name := "CMP.JOB_ADDR_LO"
  blk := 17
  spaces := [15]
  off := 0x0440
  banked := true
  fields := [⟨"V", 31, 0, .rw, [], []⟩]

/-- CMP.JOB_ADDR_HI, Table 14.4. -/
def Reg.CMP_JOB_ADDR_HI : RegDesc where
  name := "CMP.JOB_ADDR_HI"
  blk := 17
  spaces := [15]
  off := 0x0444
  banked := true
  fields := [⟨"V", 31, 0, .rw, [], []⟩]

/-- CMP.JOB_GO, Table 14.4. -/
def Reg.CMP_JOB_GO : RegDesc where
  name := "CMP.JOB_GO"
  blk := 17
  spaces := [15]
  off := 0x0448
  fields := [⟨"GO", 0, 0, .wo, [], []⟩]

/-- CMP.SPILL_BASE_LO, Table 14.4. -/
def Reg.CMP_SPILL_BASE_LO : RegDesc where
  name := "CMP.SPILL_BASE_LO"
  blk := 17
  spaces := [15]
  off := 0x0500
  n := 16
  stride := 0x10
  fields := [⟨"V", 31, 0, .rw, [], []⟩]

/-- CMP.SPILL_BASE_HI, Table 14.4. -/
def Reg.CMP_SPILL_BASE_HI : RegDesc where
  name := "CMP.SPILL_BASE_HI"
  blk := 17
  spaces := [15]
  off := 0x0504
  n := 16
  stride := 0x10
  fields := [⟨"V", 7, 0, .rw, [], []⟩]

/-- CMP.SPILL_SIZE, Table 14.4. -/
def Reg.CMP_SPILL_SIZE : RegDesc where
  name := "CMP.SPILL_SIZE"
  blk := 17
  spaces := [15]
  off := 0x0508
  n := 16
  stride := 0x10
  fields := [⟨"VALID", 31, 31, .rw, [], []⟩,
    ⟨"KIB", 14, 0, .rw, [(64, 16384)], []⟩]

/-- CMP.SPILL_USED, Table 14.4. -/
def Reg.CMP_SPILL_USED : RegDesc where
  name := "CMP.SPILL_USED"
  blk := 17
  spaces := [15]
  off := 0x050C
  n := 16
  stride := 0x10
  fields := [⟨"V", 24, 0, .ro, [], []⟩]

/-- CMP.KEY_ABSENT, Table 14.4. -/
def Reg.CMP_KEY_ABSENT : RegDesc where
  name := "CMP.KEY_ABSENT"
  blk := 17
  spaces := [15]
  off := 0x0600
  sat := some (0x0614, 0)
  fields := [⟨"V", 31, 0, .rc, [], []⟩]

/-- CMP.KEY_ABORT, Table 14.4. -/
def Reg.CMP_KEY_ABORT : RegDesc where
  name := "CMP.KEY_ABORT"
  blk := 17
  spaces := [15]
  off := 0x0604
  sat := some (0x0614, 1)
  fields := [⟨"V", 31, 0, .rc, [], []⟩]

/-- CMP.DECODE_ERR, Table 14.4. -/
def Reg.CMP_DECODE_ERR : RegDesc where
  name := "CMP.DECODE_ERR"
  blk := 17
  spaces := [15]
  off := 0x0608
  sat := some (0x0614, 2)
  fields := [⟨"V", 31, 0, .rc, [], []⟩]

/-- CMP.AUTH_FAIL, Table 14.4. -/
def Reg.CMP_AUTH_FAIL : RegDesc where
  name := "CMP.AUTH_FAIL"
  blk := 17
  spaces := [15]
  off := 0x060C
  sat := some (0x0614, 3)
  fields := [⟨"V", 31, 0, .rc, [], []⟩]

/-- CMP.JOB_REFUSED, Table 14.4. -/
def Reg.CMP_JOB_REFUSED : RegDesc where
  name := "CMP.JOB_REFUSED"
  blk := 17
  spaces := [15]
  off := 0x0610
  sat := some (0x0614, 4)
  fields := [⟨"V", 31, 0, .rc, [], []⟩]

/-- CMP.G_CNT_SAT, Table 14.4. -/
def Reg.CMP_G_CNT_SAT : RegDesc where
  name := "CMP.G_CNT_SAT"
  blk := 17
  spaces := [15]
  off := 0x0614
  fields := [⟨"SAT", 4, 0, .w1c, [], []⟩]

/-- CMP.GRP_CFG, Table 14.4. -/
def Reg.CMP_GRP_CFG : RegDesc where
  name := "CMP.GRP_CFG"
  blk := 17
  spaces := [0]
  off := 0x0040
  reset := 0x00000001
  fields := [⟨"EN", 31, 31, .rws, [], []⟩,
    ⟨"RING", 30, 30, .rws, [], []⟩,
    ⟨"ENC", 29, 29, .rws, [], []⟩,
    ⟨"KEY_SLOT", 21, 16, .rws, [], []⟩,
    ⟨"DIV", 7, 0, .rws, [], [(1, 240)]⟩]

/-- CMP.GRP_MAP_LO, Table 14.4. -/
def Reg.CMP_GRP_MAP_LO : RegDesc where
  name := "CMP.GRP_MAP_LO"
  blk := 17
  spaces := [0]
  off := 0x0044
  fields := [⟨"V", 31, 0, .rws, [], []⟩]

/-- CMP.GRP_MAP_HI, Table 14.4. -/
def Reg.CMP_GRP_MAP_HI : RegDesc where
  name := "CMP.GRP_MAP_HI"
  blk := 17
  spaces := [0]
  off := 0x0048
  fields := [⟨"V", 31, 0, .rws, [], []⟩]

/-- CMP.GRP_REF_LO, Table 14.4. -/
def Reg.CMP_GRP_REF_LO : RegDesc where
  name := "CMP.GRP_REF_LO"
  blk := 17
  spaces := [0]
  off := 0x004C
  fields := [⟨"V", 31, 0, .rws, [], []⟩]

/-- CMP.GRP_REF_HI, Table 14.4. -/
def Reg.CMP_GRP_REF_HI : RegDesc where
  name := "CMP.GRP_REF_HI"
  blk := 17
  spaces := [0]
  off := 0x0050
  fields := [⟨"V", 31, 0, .rws, [], []⟩]

/-- CMP.GRP_KEY_N, Table 14.4. -/
def Reg.CMP_GRP_KEY_N : RegDesc where
  name := "CMP.GRP_KEY_N"
  blk := 17
  spaces := [0]
  off := 0x0054
  reset := 0x00000400
  fields := [⟨"V", 15, 0, .rws, [], [(1, 65535)]⟩]

/-- CMP.GRP_FRAME, Table 14.4. -/
def Reg.CMP_GRP_FRAME : RegDesc where
  name := "CMP.GRP_FRAME"
  blk := 17
  spaces := [0]
  off := 0x0058
  fields := [⟨"V", 22, 0, .ro, [], []⟩]

/-- CMP.GRP_STATE, Table 14.4. -/
def Reg.CMP_GRP_STATE : RegDesc where
  name := "CMP.GRP_STATE"
  blk := 17
  spaces := [0]
  off := 0x005C
  fields := [⟨"STATE", 31, 30, .ro, [], []⟩,
    ⟨"KEY_NEXT", 29, 29, .ro, [], []⟩,
    ⟨"F", 9, 0, .ro, [], []⟩]

/-- CMP.GRP_FRAMES, Table 14.4. -/
def Reg.CMP_GRP_FRAMES : RegDesc where
  name := "CMP.GRP_FRAMES"
  blk := 17
  spaces := [0]
  off := 0x0060
  sat := some (0x0070, 0)
  fields := [⟨"V", 31, 0, .rc, [], []⟩]

/-- CMP.GRP_GAPS, Table 14.4. -/
def Reg.CMP_GRP_GAPS : RegDesc where
  name := "CMP.GRP_GAPS"
  blk := 17
  spaces := [0]
  off := 0x0064
  sat := some (0x0070, 1)
  fields := [⟨"V", 31, 0, .rc, [], []⟩]

/-- CMP.GRP_STORED, Table 14.4. -/
def Reg.CMP_GRP_STORED : RegDesc where
  name := "CMP.GRP_STORED"
  blk := 17
  spaces := [0]
  off := 0x0068
  sat := some (0x0070, 2)
  fields := [⟨"V", 31, 0, .rc, [], []⟩]

/-- CMP.GRP_NOSPACE, Table 14.4. -/
def Reg.CMP_GRP_NOSPACE : RegDesc where
  name := "CMP.GRP_NOSPACE"
  blk := 17
  spaces := [0]
  off := 0x006C
  sat := some (0x0070, 3)
  fields := [⟨"V", 31, 0, .rc, [], []⟩]

/-- CMP.GRP_CNT_SAT, Table 14.4. -/
def Reg.CMP_GRP_CNT_SAT : RegDesc where
  name := "CMP.GRP_CNT_SAT"
  blk := 17
  spaces := [0]
  off := 0x0070
  fields := [⟨"SAT", 3, 0, .w1c, [], []⟩]

/-- CMP.CTX_STATE, Table 14.4. -/
def Reg.CMP_CTX_STATE : RegDesc where
  name := "CMP.CTX_STATE"
  blk := 17
  spaces := [1]
  off := 0x0040
  fields := [⟨"IN_USE", 31, 31, .ro, [], []⟩,
    ⟨"SUSPENDED", 30, 30, .ro, [], []⟩]

/-- CMP.CTX_SEQ_LO, Table 14.4. -/
def Reg.CMP_CTX_SEQ_LO : RegDesc where
  name := "CMP.CTX_SEQ_LO"
  blk := 17
  spaces := [1]
  off := 0x0044
  fields := [⟨"V", 31, 0, .ro, [], []⟩]

/-- CMP.CTX_SEQ_HI, Table 14.4. -/
def Reg.CMP_CTX_SEQ_HI : RegDesc where
  name := "CMP.CTX_SEQ_HI"
  blk := 17
  spaces := [1]
  off := 0x0048
  fields := [⟨"V", 15, 0, .ro, [], []⟩]

/-- CMP.CTX_CMD, Table 14.4. -/
def Reg.CMP_CTX_CMD : RegDesc where
  name := "CMP.CTX_CMD"
  blk := 17
  spaces := [1]
  off := 0x004C
  fields := [⟨"RESET", 0, 0, .wo, [], []⟩]

/-- The registers of CMP (Table 14.4 and the field tables of its chapter). -/
def Reg.tableCMP : List RegDesc :=
  [Reg.CMP_SEL, Reg.CMP_IRQ_STATUS, Reg.CMP_IRQ_ENABLE, Reg.CMP_COMMIT,
   Reg.CMP_STATUS, Reg.CMP_RING_BASE_LO, Reg.CMP_RING_BASE_HI, Reg.CMP_RING_SIZE,
   Reg.CMP_RING_CFG, Reg.CMP_RING_WR, Reg.CMP_RING_PIN, Reg.CMP_CTX_BASE_LO,
   Reg.CMP_CTX_BASE_HI, Reg.CMP_BLOCK, Reg.CMP_RESUME, Reg.CMP_LOAD_COUNT,
   Reg.CMP_NOTIFY_QUEUE, Reg.CMP_JOB_ADDR_LO, Reg.CMP_JOB_ADDR_HI, Reg.CMP_JOB_GO] ++
  [Reg.CMP_SPILL_BASE_LO, Reg.CMP_SPILL_BASE_HI, Reg.CMP_SPILL_SIZE, Reg.CMP_SPILL_USED,
   Reg.CMP_KEY_ABSENT, Reg.CMP_KEY_ABORT, Reg.CMP_DECODE_ERR, Reg.CMP_AUTH_FAIL,
   Reg.CMP_JOB_REFUSED, Reg.CMP_G_CNT_SAT, Reg.CMP_GRP_CFG, Reg.CMP_GRP_MAP_LO,
   Reg.CMP_GRP_MAP_HI, Reg.CMP_GRP_REF_LO, Reg.CMP_GRP_REF_HI, Reg.CMP_GRP_KEY_N,
   Reg.CMP_GRP_FRAME, Reg.CMP_GRP_STATE, Reg.CMP_GRP_FRAMES, Reg.CMP_GRP_GAPS] ++
  [Reg.CMP_GRP_STORED, Reg.CMP_GRP_NOSPACE, Reg.CMP_GRP_CNT_SAT, Reg.CMP_CTX_STATE,
   Reg.CMP_CTX_SEQ_LO, Reg.CMP_CTX_SEQ_HI, Reg.CMP_CTX_CMD]

/-- CAS.SEL, Table 15.8. -/
def Reg.CAS_SEL : RegDesc where
  name := "CAS.SEL"
  blk := 18
  spaces := [15]
  off := 0x0000
  banked := true
  fields := [⟨"AINC", 31, 31, .rw, [], []⟩,
    ⟨"MEMBER", 2, 0, .rw, [], []⟩]

/-- CAS.IRQ_STATUS, Table 15.8. -/
def Reg.CAS_IRQ_STATUS : RegDesc where
  name := "CAS.IRQ_STATUS"
  blk := 18
  spaces := [15]
  off := 0x0400
  fields := [⟨"KEY_ABSENT", 6, 6, .w1c, [], []⟩,
    ⟨"TIME_FAULT", 5, 5, .w1c, [], []⟩,
    ⟨"AUTH_FAIL", 4, 4, .w1c, [], []⟩,
    ⟨"MEMBER_LOST", 3, 3, .w1c, [], []⟩,
    ⟨"MEMBER_JOIN", 2, 2, .w1c, [], []⟩,
    ⟨"TOPOLOGY", 1, 1, .w1c, [], []⟩,
    ⟨"MISWIRED", 0, 0, .w1c, [], []⟩]

/-- CAS.IRQ_ENABLE, Table 15.8. -/
def Reg.CAS_IRQ_ENABLE : RegDesc where
  name := "CAS.IRQ_ENABLE"
  blk := 18
  spaces := [15]
  off := 0x0404
  fields := [⟨"KEY_ABSENT", 6, 6, .rw, [], []⟩,
    ⟨"TIME_FAULT", 5, 5, .rw, [], []⟩,
    ⟨"AUTH_FAIL", 4, 4, .rw, [], []⟩,
    ⟨"MEMBER_LOST", 3, 3, .rw, [], []⟩,
    ⟨"MEMBER_JOIN", 2, 2, .rw, [], []⟩,
    ⟨"TOPOLOGY", 1, 1, .rw, [], []⟩,
    ⟨"MISWIRED", 0, 0, .rw, [], []⟩]

/-- CAS.CFG, Table 15.8. -/
def Reg.CAS_CFG : RegDesc where
  name := "CAS.CFG"
  blk := 18
  spaces := [15]
  off := 0x0408
  fields := [⟨"EN", 31, 31, .ro, [], []⟩,
    ⟨"STRAP", 30, 30, .ro, [], []⟩,
    ⟨"MEMBER", 26, 24, .ro, [], []⟩,
    ⟨"M_MINUS_1", 22, 20, .ro, [], []⟩,
    ⟨"KEY_SLOT", 13, 8, .ro, [], []⟩]

/-- CAS.STATUS, Table 15.8. -/
def Reg.CAS_STATUS : RegDesc where
  name := "CAS.STATUS"
  blk := 18
  spaces := [15]
  off := 0x040C
  fields := [⟨"TOPOLOGY", 31, 30, .ro, [], []⟩,
    ⟨"TL1_UP", 29, 29, .ro, [], []⟩,
    ⟨"TL0_UP", 28, 28, .ro, [], []⟩,
    ⟨"TIME_OK", 27, 27, .ro, [], []⟩,
    ⟨"KEY_OK", 26, 26, .ro, [], []⟩,
    ⟨"REACH", 23, 16, .ro, [], []⟩]

/-- CAS.RING_EPOCH, Table 15.8. -/
def Reg.CAS_RING_EPOCH : RegDesc where
  name := "CAS.RING_EPOCH"
  blk := 18
  spaces := [15]
  off := 0x0410
  fields := [⟨"V", 31, 0, .ro, [], []⟩]

/-- CAS.MERGE_BASE_LO, Table 15.8. -/
def Reg.CAS_MERGE_BASE_LO : RegDesc where
  name := "CAS.MERGE_BASE_LO"
  blk := 18
  spaces := [15]
  off := 0x0414
  fields := [⟨"V", 31, 0, .ro, [], []⟩]

/-- CAS.MERGE_BASE_HI, Table 15.8. -/
def Reg.CAS_MERGE_BASE_HI : RegDesc where
  name := "CAS.MERGE_BASE_HI"
  blk := 18
  spaces := [15]
  off := 0x0418
  fields := [⟨"V", 31, 0, .ro, [], []⟩]

/-- CAS.MERGE_STRIDE, Table 15.8. -/
def Reg.CAS_MERGE_STRIDE : RegDesc where
  name := "CAS.MERGE_STRIDE"
  blk := 18
  spaces := [15]
  off := 0x041C
  fields := [⟨"V", 6, 0, .ro, [], []⟩]

/-- CAS.EXPORT_COUNT, Table 15.8. -/
def Reg.CAS_EXPORT_COUNT : RegDesc where
  name := "CAS.EXPORT_COUNT"
  blk := 18
  spaces := [15]
  off := 0x0420
  fields := [⟨"PROXY", 26, 16, .ro, [], []⟩,
    ⟨"OUTPUT", 12, 0, .ro, [], []⟩]

/-- CAS.IMPORT_COUNT, Table 15.8. -/
def Reg.CAS_IMPORT_COUNT : RegDesc where
  name := "CAS.IMPORT_COUNT"
  blk := 18
  spaces := [15]
  off := 0x0424
  fields := [⟨"V", 12, 0, .ro, [], []⟩]

/-- CAS.HOP_DELAY_0, Table 15.8. -/
def Reg.CAS_HOP_DELAY_0 : RegDesc where
  name := "CAS.HOP_DELAY_0"
  blk := 18
  spaces := [15]
  off := 0x0428
  fields := [⟨"V", 31, 0, .ro, [], []⟩]

/-- CAS.HOP_DELAY_1, Table 15.8. -/
def Reg.CAS_HOP_DELAY_1 : RegDesc where
  name := "CAS.HOP_DELAY_1"
  blk := 18
  spaces := [15]
  off := 0x042C
  fields := [⟨"V", 31, 0, .ro, [], []⟩]

/-- CAS.LINK_DOWN_0, Table 15.8. -/
def Reg.CAS_LINK_DOWN_0 : RegDesc where
  name := "CAS.LINK_DOWN_0"
  blk := 18
  spaces := [15]
  off := 0x0430
  sat := some (0x0444, 0)
  fields := [⟨"V", 31, 0, .rc, [], []⟩]

/-- CAS.LINK_DOWN_1, Table 15.8. -/
def Reg.CAS_LINK_DOWN_1 : RegDesc where
  name := "CAS.LINK_DOWN_1"
  blk := 18
  spaces := [15]
  off := 0x0434
  sat := some (0x0444, 1)
  fields := [⟨"V", 31, 0, .rc, [], []⟩]

/-- CAS.TOPO_CHANGES, Table 15.8. -/
def Reg.CAS_TOPO_CHANGES : RegDesc where
  name := "CAS.TOPO_CHANGES"
  blk := 18
  spaces := [15]
  off := 0x0438
  sat := some (0x0444, 2)
  fields := [⟨"V", 31, 0, .rc, [], []⟩]

/-- CAS.NAK_RX, Table 15.8. -/
def Reg.CAS_NAK_RX : RegDesc where
  name := "CAS.NAK_RX"
  blk := 18
  spaces := [15]
  off := 0x043C
  sat := some (0x0444, 3)
  fields := [⟨"V", 31, 0, .rc, [], []⟩]

/-- CAS.TRIG_TX, Table 15.8. -/
def Reg.CAS_TRIG_TX : RegDesc where
  name := "CAS.TRIG_TX"
  blk := 18
  spaces := [15]
  off := 0x0440
  sat := some (0x0444, 4)
  fields := [⟨"V", 31, 0, .rc, [], []⟩]

/-- CAS.G_CNT_SAT, Table 15.8. -/
def Reg.CAS_G_CNT_SAT : RegDesc where
  name := "CAS.G_CNT_SAT"
  blk := 18
  spaces := [15]
  off := 0x0444
  fields := [⟨"SAT", 4, 0, .w1c, [], []⟩]

/-- CAS.MBR_STATE, Table 15.8. -/
def Reg.CAS_MBR_STATE : RegDesc where
  name := "CAS.MBR_STATE"
  blk := 18
  spaces := [0]
  off := 0x0040
  fields := [⟨"F", 31, 30, .ro, [], []⟩,
    ⟨"F", 27, 24, .ro, [], []⟩,
    ⟨"F", 23, 20, .ro, [], []⟩]

/-- CAS.MBR_PARTIAL_A, Table 15.8. -/
def Reg.CAS_MBR_PARTIAL_A : RegDesc where
  name := "CAS.MBR_PARTIAL_A"
  blk := 18
  spaces := [0]
  off := 0x0044
  sat := some (0x005C, 0)
  fields := [⟨"V", 31, 0, .rc, [], []⟩]

/-- CAS.MBR_PARTIAL_B, Table 15.8. -/
def Reg.CAS_MBR_PARTIAL_B : RegDesc where
  name := "CAS.MBR_PARTIAL_B"
  blk := 18
  spaces := [0]
  off := 0x0048
  sat := some (0x005C, 1)
  fields := [⟨"V", 31, 0, .rc, [], []⟩]

/-- CAS.MBR_LATE, Table 15.8. -/
def Reg.CAS_MBR_LATE : RegDesc where
  name := "CAS.MBR_LATE"
  blk := 18
  spaces := [0]
  off := 0x004C
  sat := some (0x005C, 2)
  fields := [⟨"V", 31, 0, .rc, [], []⟩]

/-- CAS.MBR_TOO_LATE, Table 15.8. -/
def Reg.CAS_MBR_TOO_LATE : RegDesc where
  name := "CAS.MBR_TOO_LATE"
  blk := 18
  spaces := [0]
  off := 0x0050
  sat := some (0x005C, 3)
  fields := [⟨"V", 31, 0, .rc, [], []⟩]

/-- CAS.MBR_AUTH_FAIL, Table 15.8. -/
def Reg.CAS_MBR_AUTH_FAIL : RegDesc where
  name := "CAS.MBR_AUTH_FAIL"
  blk := 18
  spaces := [0]
  off := 0x0054
  sat := some (0x005C, 4)
  fields := [⟨"V", 31, 0, .rc, [], []⟩]

/-- CAS.MBR_STALE_EPOCH, Table 15.8. -/
def Reg.CAS_MBR_STALE_EPOCH : RegDesc where
  name := "CAS.MBR_STALE_EPOCH"
  blk := 18
  spaces := [0]
  off := 0x0058
  sat := some (0x005C, 5)
  fields := [⟨"V", 31, 0, .rc, [], []⟩]

/-- CAS.MBR_CNT_SAT, Table 15.8. -/
def Reg.CAS_MBR_CNT_SAT : RegDesc where
  name := "CAS.MBR_CNT_SAT"
  blk := 18
  spaces := [0]
  off := 0x005C
  fields := [⟨"SAT", 5, 0, .w1c, [], []⟩]

/-- The registers of CAS (Table 15.8 and the field tables of its chapter). -/
def Reg.tableCAS : List RegDesc :=
  [Reg.CAS_SEL, Reg.CAS_IRQ_STATUS, Reg.CAS_IRQ_ENABLE, Reg.CAS_CFG,
   Reg.CAS_STATUS, Reg.CAS_RING_EPOCH, Reg.CAS_MERGE_BASE_LO, Reg.CAS_MERGE_BASE_HI,
   Reg.CAS_MERGE_STRIDE, Reg.CAS_EXPORT_COUNT, Reg.CAS_IMPORT_COUNT, Reg.CAS_HOP_DELAY_0,
   Reg.CAS_HOP_DELAY_1, Reg.CAS_LINK_DOWN_0, Reg.CAS_LINK_DOWN_1, Reg.CAS_TOPO_CHANGES,
   Reg.CAS_NAK_RX, Reg.CAS_TRIG_TX, Reg.CAS_G_CNT_SAT, Reg.CAS_MBR_STATE] ++
  [Reg.CAS_MBR_PARTIAL_A, Reg.CAS_MBR_PARTIAL_B, Reg.CAS_MBR_LATE, Reg.CAS_MBR_TOO_LATE,
   Reg.CAS_MBR_AUTH_FAIL, Reg.CAS_MBR_STALE_EPOCH, Reg.CAS_MBR_CNT_SAT]

/-- RED.IRQ_STATUS, Table 15.9. -/
def Reg.RED_IRQ_STATUS : RegDesc where
  name := "RED.IRQ_STATUS"
  blk := 19
  spaces := [15]
  off := 0x0400
  fields := [⟨"SET_REJECT", 8, 8, .w1c, [], []⟩,
    ⟨"ROLE_CONFLICT", 7, 7, .w1c, [], []⟩,
    ⟨"IMAGE", 6, 6, .w1c, [], []⟩,
    ⟨"PATH", 5, 5, .w1c, [], []⟩,
    ⟨"SOLO", 4, 4, .w1c, [], []⟩,
    ⟨"FENCE", 3, 3, .w1c, [], []⟩,
    ⟨"TAKEOVER", 2, 2, .w1c, [], []⟩,
    ⟨"HANDOVER", 1, 1, .w1c, [], []⟩,
    ⟨"STALE_EPOCH", 0, 0, .w1c, [], []⟩]

/-- RED.IRQ_ENABLE, Table 15.9. -/
def Reg.RED_IRQ_ENABLE : RegDesc where
  name := "RED.IRQ_ENABLE"
  blk := 19
  spaces := [15]
  off := 0x0404
  fields := [⟨"SET_REJECT", 8, 8, .rw, [], []⟩,
    ⟨"ROLE_CONFLICT", 7, 7, .rw, [], []⟩,
    ⟨"IMAGE", 6, 6, .rw, [], []⟩,
    ⟨"PATH", 5, 5, .rw, [], []⟩,
    ⟨"SOLO", 4, 4, .rw, [], []⟩,
    ⟨"FENCE", 3, 3, .rw, [], []⟩,
    ⟨"TAKEOVER", 2, 2, .rw, [], []⟩,
    ⟨"HANDOVER", 1, 1, .rw, [], []⟩,
    ⟨"STALE_EPOCH", 0, 0, .rw, [], []⟩]

/-- RED.COMMIT, Table 15.9. -/
def Reg.RED_COMMIT : RegDesc where
  name := "RED.COMMIT"
  blk := 19
  spaces := [15]
  off := 0x0408
  fields := [⟨"COMMIT", 0, 0, .wo, [], []⟩]

/-- RED.STATUS, Table 15.9. -/
def Reg.RED_STATUS : RegDesc where
  name := "RED.STATUS"
  blk := 19
  spaces := [15]
  off := 0x040C
  fields := [⟨"ROLE", 31, 29, .ro, [], []⟩,
    ⟨"SOLO", 28, 28, .ro, [], []⟩,
    ⟨"IMAGE_VALID", 27, 27, .ro, [], []⟩,
    ⟨"PARTNER_IMAGE_VALID", 26, 26, .ro, [], []⟩,
    ⟨"PATH_A_UP", 25, 25, .ro, [], []⟩,
    ⟨"PATH_B_UP", 24, 24, .ro, [], []⟩,
    ⟨"PARTNER_PRESENT", 23, 23, .ro, [], []⟩,
    ⟨"HOLDDOWN_RUN", 22, 22, .ro, [], []⟩,
    ⟨"SHADOW_PENDING", 21, 21, .ro, [], []⟩,
    ⟨"HOLDDOWN_LEFT", 11, 0, .ro, [], []⟩]

/-- RED.CFG, Table 15.9. -/
def Reg.RED_CFG : RegDesc where
  name := "RED.CFG"
  blk := 19
  spaces := [15]
  off := 0x0410
  reset := 0x3000001E
  fields := [⟨"EN", 31, 31, .ro, [], []⟩,
    ⟨"PREFERRED", 30, 30, .ro, [], []⟩,
    ⟨"FAILBACK_EN", 29, 29, .rws, [], []⟩,
    ⟨"YIELD_DEGRADED", 28, 28, .rws, [], []⟩,
    ⟨"MIR_KEY_SLOT", 21, 16, .ro, [], []⟩,
    ⟨"HOLD_DOWN", 11, 0, .rws, [], [(1, 3600)]⟩]

/-- RED.EPOCH, Table 15.9. -/
def Reg.RED_EPOCH : RegDesc where
  name := "RED.EPOCH"
  blk := 19
  spaces := [15]
  off := 0x0414
  fields := [⟨"V", 31, 0, .ro, [], []⟩]

/-- RED.PARTNER_EPOCH, Table 15.9. -/
def Reg.RED_PARTNER_EPOCH : RegDesc where
  name := "RED.PARTNER_EPOCH"
  blk := 19
  spaces := [15]
  off := 0x0418
  fields := [⟨"V", 31, 0, .ro, [], []⟩]

/-- RED.CMD, Table 15.9. -/
def Reg.RED_CMD : RegDesc where
  name := "RED.CMD"
  blk := 19
  spaces := [15]
  off := 0x041C
  fields := [⟨"HANDOVER", 0, 0, .wo, [], []⟩]

/-- RED.LEASE_LEFT, Table 15.9. -/
def Reg.RED_LEASE_LEFT : RegDesc where
  name := "RED.LEASE_LEFT"
  blk := 19
  spaces := [15]
  off := 0x0420
  fields := [⟨"V", 9, 0, .ro, [], []⟩]

/-- RED.RTT, Table 15.9. -/
def Reg.RED_RTT : RegDesc where
  name := "RED.RTT"
  blk := 19
  spaces := [15]
  off := 0x0424
  fields := [⟨"F", 31, 16, .ro, [], []⟩,
    ⟨"F", 15, 0, .ro, [], []⟩]

/-- RED.CKPT_TAG, Table 15.9. -/
def Reg.RED_CKPT_TAG : RegDesc where
  name := "RED.CKPT_TAG"
  blk := 19
  spaces := [15]
  off := 0x0428
  fields := [⟨"V", 31, 0, .ro, [], []⟩]

/-- RED.TK_FIRST_SEQ, Table 15.9. -/
def Reg.RED_TK_FIRST_SEQ : RegDesc where
  name := "RED.TK_FIRST_SEQ"
  blk := 19
  spaces := [15]
  off := 0x042C
  fields := [⟨"V", 31, 0, .ro, [], []⟩]

/-- RED.TK_LAST_SEQ, Table 15.9. -/
def Reg.RED_TK_LAST_SEQ : RegDesc where
  name := "RED.TK_LAST_SEQ"
  blk := 19
  spaces := [15]
  off := 0x0430
  fields := [⟨"V", 31, 0, .ro, [], []⟩]

/-- RED.LAST_GAP_US, Table 15.9. -/
def Reg.RED_LAST_GAP_US : RegDesc where
  name := "RED.LAST_GAP_US"
  blk := 19
  spaces := [15]
  off := 0x0434
  fields := [⟨"V", 15, 0, .ro, [], []⟩]

/-- RED.VMAC_LO, Table 15.9. -/
def Reg.RED_VMAC_LO : RegDesc where
  name := "RED.VMAC_LO"
  blk := 19
  spaces := [15]
  off := 0x0440
  n := 4
  stride := 0x20
  fields := [⟨"V", 31, 0, .ro, [], []⟩]

/-- RED.VMAC_HI, Table 15.9. -/
def Reg.RED_VMAC_HI : RegDesc where
  name := "RED.VMAC_HI"
  blk := 19
  spaces := [15]
  off := 0x0444
  n := 4
  stride := 0x20
  fields := [⟨"V", 15, 0, .ro, [], []⟩]

/-- RED.VIP4, Table 15.9. -/
def Reg.RED_VIP4 : RegDesc where
  name := "RED.VIP4"
  blk := 19
  spaces := [15]
  off := 0x0448
  n := 4
  stride := 0x20
  fields := [⟨"V", 31, 0, .ro, [], []⟩]

/-- RED.VIP6_0, Table 15.9. -/
def Reg.RED_VIP6_0 : RegDesc where
  name := "RED.VIP6_0"
  blk := 19
  spaces := [15]
  off := 0x044C
  n := 4
  stride := 0x20
  fields := [⟨"V", 31, 0, .ro, [], []⟩]

/-- RED.VIP6_1, Table 15.9. -/
def Reg.RED_VIP6_1 : RegDesc where
  name := "RED.VIP6_1"
  blk := 19
  spaces := [15]
  off := 0x0450
  n := 4
  stride := 0x20
  fields := [⟨"V", 31, 0, .ro, [], []⟩]

/-- RED.VIP6_2, Table 15.9. -/
def Reg.RED_VIP6_2 : RegDesc where
  name := "RED.VIP6_2"
  blk := 19
  spaces := [15]
  off := 0x0454
  n := 4
  stride := 0x20
  fields := [⟨"V", 31, 0, .ro, [], []⟩]

/-- RED.VIP6_3, Table 15.9. -/
def Reg.RED_VIP6_3 : RegDesc where
  name := "RED.VIP6_3"
  blk := 19
  spaces := [15]
  off := 0x0458
  n := 4
  stride := 0x20
  fields := [⟨"V", 31, 0, .ro, [], []⟩]

/-- RED.RENEWS, Table 15.9. -/
def Reg.RED_RENEWS : RegDesc where
  name := "RED.RENEWS"
  blk := 19
  spaces := [15]
  off := 0x04C0
  sat := some (0x04F0, 0)
  fields := [⟨"V", 31, 0, .rc, [], []⟩]

/-- RED.ACK_LATE, Table 15.9. -/
def Reg.RED_ACK_LATE : RegDesc where
  name := "RED.ACK_LATE"
  blk := 19
  spaces := [15]
  off := 0x04C4
  sat := some (0x04F0, 1)
  fields := [⟨"V", 31, 0, .rc, [], []⟩]

/-- RED.PATH_DOWNS_A, Table 15.9. -/
def Reg.RED_PATH_DOWNS_A : RegDesc where
  name := "RED.PATH_DOWNS_A"
  blk := 19
  spaces := [15]
  off := 0x04C8
  sat := some (0x04F0, 2)
  fields := [⟨"V", 31, 0, .rc, [], []⟩]

/-- RED.PATH_DOWNS_B, Table 15.9. -/
def Reg.RED_PATH_DOWNS_B : RegDesc where
  name := "RED.PATH_DOWNS_B"
  blk := 19
  spaces := [15]
  off := 0x04CC
  sat := some (0x04F0, 3)
  fields := [⟨"V", 31, 0, .rc, [], []⟩]

/-- RED.TAKEOVERS, Table 15.9. -/
def Reg.RED_TAKEOVERS : RegDesc where
  name := "RED.TAKEOVERS"
  blk := 19
  spaces := [15]
  off := 0x04D0
  sat := some (0x04F0, 4)
  fields := [⟨"V", 31, 0, .rc, [], []⟩]

/-- RED.FENCES, Table 15.9. -/
def Reg.RED_FENCES : RegDesc where
  name := "RED.FENCES"
  blk := 19
  spaces := [15]
  off := 0x04D4
  sat := some (0x04F0, 5)
  fields := [⟨"V", 31, 0, .rc, [], []⟩]

/-- RED.HANDOVERS, Table 15.9. -/
def Reg.RED_HANDOVERS : RegDesc where
  name := "RED.HANDOVERS"
  blk := 19
  spaces := [15]
  off := 0x04D8
  sat := some (0x04F0, 6)
  fields := [⟨"V", 31, 0, .rc, [], []⟩]

/-- RED.HANDOVER_REFUSED, Table 15.9. -/
def Reg.RED_HANDOVER_REFUSED : RegDesc where
  name := "RED.HANDOVER_REFUSED"
  blk := 19
  spaces := [15]
  off := 0x04DC
  sat := some (0x04F0, 7)
  fields := [⟨"V", 31, 0, .rc, [], []⟩]

/-- RED.CKPT_DELTAS, Table 15.9. -/
def Reg.RED_CKPT_DELTAS : RegDesc where
  name := "RED.CKPT_DELTAS"
  blk := 19
  spaces := [15]
  off := 0x04E0
  sat := some (0x04F0, 8)
  fields := [⟨"V", 31, 0, .rc, [], []⟩]

/-- RED.CKPT_GAPS, Table 15.9. -/
def Reg.RED_CKPT_GAPS : RegDesc where
  name := "RED.CKPT_GAPS"
  blk := 19
  spaces := [15]
  off := 0x04E4
  sat := some (0x04F0, 9)
  fields := [⟨"V", 31, 0, .rc, [], []⟩]

/-- RED.STALE_EPOCH, Table 15.9. -/
def Reg.RED_STALE_EPOCH : RegDesc where
  name := "RED.STALE_EPOCH"
  blk := 19
  spaces := [15]
  off := 0x04E8
  sat := some (0x04F0, 10)
  fields := [⟨"V", 31, 0, .rc, [], []⟩]

/-- RED.AUTH_FAIL, Table 15.9. -/
def Reg.RED_AUTH_FAIL : RegDesc where
  name := "RED.AUTH_FAIL"
  blk := 19
  spaces := [15]
  off := 0x04EC
  sat := some (0x04F0, 11)
  fields := [⟨"V", 31, 0, .rc, [], []⟩]

/-- RED.G_CNT_SAT, Table 15.9. -/
def Reg.RED_G_CNT_SAT : RegDesc where
  name := "RED.G_CNT_SAT"
  blk := 19
  spaces := [15]
  off := 0x04F0
  fields := [⟨"SAT", 11, 0, .w1c, [], []⟩]

/-- The registers of RED (Table 15.9 and the field tables of its chapter). -/
def Reg.tableRED : List RegDesc :=
  [Reg.RED_IRQ_STATUS, Reg.RED_IRQ_ENABLE, Reg.RED_COMMIT, Reg.RED_STATUS,
   Reg.RED_CFG, Reg.RED_EPOCH, Reg.RED_PARTNER_EPOCH, Reg.RED_CMD,
   Reg.RED_LEASE_LEFT, Reg.RED_RTT, Reg.RED_CKPT_TAG, Reg.RED_TK_FIRST_SEQ,
   Reg.RED_TK_LAST_SEQ, Reg.RED_LAST_GAP_US, Reg.RED_VMAC_LO, Reg.RED_VMAC_HI,
   Reg.RED_VIP4, Reg.RED_VIP6_0, Reg.RED_VIP6_1, Reg.RED_VIP6_2] ++
  [Reg.RED_VIP6_3, Reg.RED_RENEWS, Reg.RED_ACK_LATE, Reg.RED_PATH_DOWNS_A,
   Reg.RED_PATH_DOWNS_B, Reg.RED_TAKEOVERS, Reg.RED_FENCES, Reg.RED_HANDOVERS,
   Reg.RED_HANDOVER_REFUSED, Reg.RED_CKPT_DELTAS, Reg.RED_CKPT_GAPS, Reg.RED_STALE_EPOCH,
   Reg.RED_AUTH_FAIL, Reg.RED_G_CNT_SAT]

/-- KEY.SEL, Table 16.8. -/
def Reg.KEY_SEL : RegDesc where
  name := "KEY.SEL"
  blk := 20
  spaces := [15]
  off := 0x0000
  banked := true
  fields := [⟨"AINC", 31, 31, .rw, [], []⟩,
    ⟨"SLOT", 5, 0, .rw, [], []⟩]

/-- KEY.IRQ_STATUS, Table 16.8. -/
def Reg.KEY_IRQ_STATUS : RegDesc where
  name := "KEY.IRQ_STATUS"
  blk := 20
  spaces := [15]
  off := 0x0400
  fields := [⟨"DEBUG", 1, 1, .w1c, [], []⟩,
    ⟨"UPDATE", 0, 0, .w1c, [], []⟩]

/-- KEY.IRQ_ENABLE, Table 16.8. -/
def Reg.KEY_IRQ_ENABLE : RegDesc where
  name := "KEY.IRQ_ENABLE"
  blk := 20
  spaces := [15]
  off := 0x0404
  fields := [⟨"DEBUG", 1, 1, .rw, [], []⟩,
    ⟨"UPDATE", 0, 0, .rw, [], []⟩]

/-- KEY.STATUS, Table 16.8. -/
def Reg.KEY_STATUS : RegDesc where
  name := "KEY.STATUS"
  blk := 20
  spaces := [15]
  off := 0x040C
  fields := [⟨"TEST_ROOT", 31, 31, .ro, [], []⟩,
    ⟨"EPOCH_SET", 30, 30, .ro, [], []⟩,
    ⟨"DEBUG_OPEN", 29, 29, .ro, [], []⟩]

/-- KEY.DEVICE_ID, Table 16.8. -/
def Reg.KEY_DEVICE_ID : RegDesc where
  name := "KEY.DEVICE_ID"
  blk := 20
  spaces := [15]
  off := 0x0410
  n := 4
  fields := [⟨"V", 31, 0, .ro, [], []⟩]

/-- KEY.UPD_ADDR_LO, Table 16.8. -/
def Reg.KEY_UPD_ADDR_LO : RegDesc where
  name := "KEY.UPD_ADDR_LO"
  blk := 20
  spaces := [15]
  off := 0x0420
  banked := true
  fields := [⟨"V", 31, 0, .rw, [], []⟩]

/-- KEY.UPD_ADDR_HI, Table 16.8. -/
def Reg.KEY_UPD_ADDR_HI : RegDesc where
  name := "KEY.UPD_ADDR_HI"
  blk := 20
  spaces := [15]
  off := 0x0424
  banked := true
  fields := [⟨"V", 31, 0, .rw, [], []⟩]

/-- KEY.UPD_GO, Table 16.8. -/
def Reg.KEY_UPD_GO : RegDesc where
  name := "KEY.UPD_GO"
  blk := 20
  spaces := [15]
  off := 0x0428
  fields := [⟨"GO", 0, 0, .wo, [], []⟩]

/-- KEY.UPD_STATUS, Table 16.8. -/
def Reg.KEY_UPD_STATUS : RegDesc where
  name := "KEY.UPD_STATUS"
  blk := 20
  spaces := [15]
  off := 0x042C
  fields := [⟨"BUSY", 31, 31, .ro, [], []⟩,
    ⟨"RESULT", 3, 0, .ro, [], []⟩]

/-- KEY.UPD_COUNTER_LO, Table 16.8. -/
def Reg.KEY_UPD_COUNTER_LO : RegDesc where
  name := "KEY.UPD_COUNTER_LO"
  blk := 20
  spaces := [15]
  off := 0x0430
  fields := [⟨"V", 31, 0, .ro, [], []⟩]

/-- KEY.UPD_COUNTER_HI, Table 16.8. -/
def Reg.KEY_UPD_COUNTER_HI : RegDesc where
  name := "KEY.UPD_COUNTER_HI"
  blk := 20
  spaces := [15]
  off := 0x0434
  fields := [⟨"V", 31, 0, .ro, [], []⟩]

/-- KEY.PK, Table 16.8. -/
def Reg.KEY_PK : RegDesc where
  name := "KEY.PK"
  blk := 20
  spaces := [15]
  off := 0x0500
  n := 128
  fields := [⟨"V", 31, 0, .ro, [], []⟩]

/-- KEY.UPD_ACCEPTED, Table 16.8. -/
def Reg.KEY_UPD_ACCEPTED : RegDesc where
  name := "KEY.UPD_ACCEPTED"
  blk := 20
  spaces := [15]
  off := 0x0700
  sat := some (0x0708, 0)
  fields := [⟨"V", 31, 0, .rc, [], []⟩]

/-- KEY.UPD_REJECTED, Table 16.8. -/
def Reg.KEY_UPD_REJECTED : RegDesc where
  name := "KEY.UPD_REJECTED"
  blk := 20
  spaces := [15]
  off := 0x0704
  sat := some (0x0708, 1)
  fields := [⟨"V", 31, 0, .rc, [], []⟩]

/-- KEY.G_CNT_SAT, Table 16.8. -/
def Reg.KEY_G_CNT_SAT : RegDesc where
  name := "KEY.G_CNT_SAT"
  blk := 20
  spaces := [15]
  off := 0x0708
  fields := [⟨"SAT", 1, 0, .w1c, [], []⟩]

/-- KEY.SLOT_STATE, Table 16.8. -/
def Reg.KEY_SLOT_STATE : RegDesc where
  name := "KEY.SLOT_STATE"
  blk := 20
  spaces := [0]
  off := 0x0040
  fields := [⟨"VALID", 31, 31, .ro, [], []⟩,
    ⟨"LEN", 30, 30, .ro, [], []⟩,
    ⟨"ATTR", 15, 0, .ro, [], []⟩]

/-- KEY.SLOT_ID, Table 16.8. -/
def Reg.KEY_SLOT_ID : RegDesc where
  name := "KEY.SLOT_ID"
  blk := 20
  spaces := [0]
  off := 0x0044
  fields := [⟨"V", 31, 0, .ro, [], []⟩]

/-- KEY.SLOT_GEN, Table 16.8. -/
def Reg.KEY_SLOT_GEN : RegDesc where
  name := "KEY.SLOT_GEN"
  blk := 20
  spaces := [0]
  off := 0x0048
  fields := [⟨"V", 15, 0, .ro, [], []⟩]

/-- The registers of KEY (Table 16.8 and the field tables of its chapter). -/
def Reg.tableKEY : List RegDesc :=
  [Reg.KEY_SEL, Reg.KEY_IRQ_STATUS, Reg.KEY_IRQ_ENABLE, Reg.KEY_STATUS,
   Reg.KEY_DEVICE_ID, Reg.KEY_UPD_ADDR_LO, Reg.KEY_UPD_ADDR_HI, Reg.KEY_UPD_GO,
   Reg.KEY_UPD_STATUS, Reg.KEY_UPD_COUNTER_LO, Reg.KEY_UPD_COUNTER_HI, Reg.KEY_PK,
   Reg.KEY_UPD_ACCEPTED, Reg.KEY_UPD_REJECTED, Reg.KEY_G_CNT_SAT, Reg.KEY_SLOT_STATE,
   Reg.KEY_SLOT_ID, Reg.KEY_SLOT_GEN]

/-- TAM.IRQ_STATUS, Table 16.8. -/
def Reg.TAM_IRQ_STATUS : RegDesc where
  name := "TAM.IRQ_STATUS"
  blk := 21
  spaces := [15]
  off := 0x0400
  fields := [⟨"TAMPER", 0, 0, .w1c, [], []⟩]

/-- TAM.IRQ_ENABLE, Table 16.8. -/
def Reg.TAM_IRQ_ENABLE : RegDesc where
  name := "TAM.IRQ_ENABLE"
  blk := 21
  spaces := [15]
  off := 0x0404
  fields := [⟨"TAMPER", 0, 0, .rw, [], []⟩]

/-- TAM.CFG, Table 16.8. -/
def Reg.TAM_CFG : RegDesc where
  name := "TAM.CFG"
  blk := 21
  spaces := [15]
  off := 0x0408
  fields := [⟨"POLICY", 31, 31, .rw, [], []⟩,
    ⟨"POL", 7, 4, .rw, [], []⟩,
    ⟨"TP", 3, 0, .rw, [], []⟩]

/-- TAM.STATUS, Table 16.8. -/
def Reg.TAM_STATUS : RegDesc where
  name := "TAM.STATUS"
  blk := 21
  spaces := [15]
  off := 0x040C
  fields := [⟨"F", 15, 8, .ro, [], []⟩,
    ⟨"LAST_SRC", 7, 0, .ro, [], []⟩]

/-- TAM.EVENTS, Table 16.8. -/
def Reg.TAM_EVENTS : RegDesc where
  name := "TAM.EVENTS"
  blk := 21
  spaces := [15]
  off := 0x0410
  sat := some (0x0418, 0)
  fields := [⟨"V", 31, 0, .rc, [], []⟩]

/-- TAM.CFG_REFUSED, Table 16.8. -/
def Reg.TAM_CFG_REFUSED : RegDesc where
  name := "TAM.CFG_REFUSED"
  blk := 21
  spaces := [15]
  off := 0x0414
  sat := some (0x0418, 1)
  fields := [⟨"V", 31, 0, .rc, [], []⟩]

/-- TAM.G_CNT_SAT, Table 16.8. -/
def Reg.TAM_G_CNT_SAT : RegDesc where
  name := "TAM.G_CNT_SAT"
  blk := 21
  spaces := [15]
  off := 0x0418
  fields := [⟨"SAT", 1, 0, .w1c, [], []⟩]

/-- The registers of TAM (Table 16.8 and the field tables of its chapter). -/
def Reg.tableTAM : List RegDesc :=
  [Reg.TAM_IRQ_STATUS, Reg.TAM_IRQ_ENABLE, Reg.TAM_CFG, Reg.TAM_STATUS,
   Reg.TAM_EVENTS, Reg.TAM_CFG_REFUSED, Reg.TAM_G_CNT_SAT]

/-- EVR.SEL, Table 17.3. -/
def Reg.EVR_SEL : RegDesc where
  name := "EVR.SEL"
  blk := 22
  spaces := [15]
  off := 0x0000
  banked := true
  fields := [⟨"AINC", 31, 31, .rw, [], []⟩,
    ⟨"SET", 3, 0, .rw, [], []⟩]

/-- EVR.IRQ_STATUS, Table 17.3. -/
def Reg.EVR_IRQ_STATUS : RegDesc where
  name := "EVR.IRQ_STATUS"
  blk := 22
  spaces := [15]
  off := 0x0400
  fields := [⟨"SET_REJECT", 4, 4, .w1c, [], []⟩,
    ⟨"CLEAR_REFUSED", 3, 3, .w1c, [], []⟩,
    ⟨"CLEARED", 2, 2, .w1c, [], []⟩,
    ⟨"FREEZE_LOSS", 1, 1, .w1c, [], []⟩,
    ⟨"INPUT_LOSS", 0, 0, .w1c, [], []⟩]

/-- EVR.IRQ_ENABLE, Table 17.3. -/
def Reg.EVR_IRQ_ENABLE : RegDesc where
  name := "EVR.IRQ_ENABLE"
  blk := 22
  spaces := [15]
  off := 0x0404
  fields := [⟨"SET_REJECT", 4, 4, .rw, [], []⟩,
    ⟨"CLEAR_REFUSED", 3, 3, .rw, [], []⟩,
    ⟨"CLEARED", 2, 2, .rw, [], []⟩,
    ⟨"FREEZE_LOSS", 1, 1, .rw, [], []⟩,
    ⟨"INPUT_LOSS", 0, 0, .rw, [], []⟩]

/-- EVR.COMMIT, Table 17.3. -/
def Reg.EVR_COMMIT : RegDesc where
  name := "EVR.COMMIT"
  blk := 22
  spaces := [15]
  off := 0x0408
  fields := [⟨"COMMIT", 0, 0, .wo, [], []⟩]

/-- EVR.STATUS, Table 17.3. -/
def Reg.EVR_STATUS : RegDesc where
  name := "EVR.STATUS"
  blk := 22
  spaces := [15]
  off := 0x040C
  fields := [⟨"SHADOW_PENDING", 31, 31, .ro, [], []⟩,
    ⟨"FROZEN", 30, 30, .ro, [], []⟩,
    ⟨"FREEZE_TIMEOUT", 29, 29, .w1c, [], []⟩,
    ⟨"UNLOCKED", 28, 28, .ro, [], []⟩,
    ⟨"READY", 27, 27, .ro, [], []⟩,
    ⟨"HELD", 6, 0, .ro, [], []⟩]

/-- EVR.CMD, Table 17.3. -/
def Reg.EVR_CMD : RegDesc where
  name := "EVR.CMD"
  blk := 22
  spaces := [15]
  off := 0x0410
  fields := [⟨"CLR_LAST", 3, 3, .wo, [], []⟩,
    ⟨"CLEAR", 2, 2, .wo, [], []⟩,
    ⟨"THAW", 1, 1, .wo, [], []⟩,
    ⟨"FREEZE", 0, 0, .wo, [], []⟩]

/-- EVR.CLR_UNLOCK, Table 17.3. -/
def Reg.EVR_CLR_UNLOCK : RegDesc where
  name := "EVR.CLR_UNLOCK"
  blk := 22
  spaces := [15]
  off := 0x0414
  fields := [⟨"V", 31, 0, .wo, [], []⟩]

/-- EVR.SEQ, Table 17.3. -/
def Reg.EVR_SEQ : RegDesc where
  name := "EVR.SEQ"
  blk := 22
  spaces := [15]
  off := 0x0418
  fields := [⟨"V", 31, 0, .ro, [], []⟩]

/-- EVR.LAST_HEAD, Table 17.3. -/
def Reg.EVR_LAST_HEAD : RegDesc where
  name := "EVR.LAST_HEAD"
  blk := 22
  spaces := [15]
  off := 0x041C
  fields := [⟨"V", 11, 0, .ro, [], []⟩]

/-- EVR.FIRST_COUNT, Table 17.3. -/
def Reg.EVR_FIRST_COUNT : RegDesc where
  name := "EVR.FIRST_COUNT"
  blk := 22
  spaces := [15]
  off := 0x0420
  fields := [⟨"V", 8, 0, .ro, [], []⟩]

/-- EVR.CLASS_SET, Table 17.3. -/
def Reg.EVR_CLASS_SET : RegDesc where
  name := "EVR.CLASS_SET"
  blk := 22
  spaces := [15]
  off := 0x0444
  n := 24
  fields := [⟨"EN", 4, 4, .rws, [], []⟩,
    ⟨"SET", 3, 0, .rws, [], []⟩]

/-- EVR.OVR, Table 17.3. -/
def Reg.EVR_OVR : RegDesc where
  name := "EVR.OVR"
  blk := 22
  spaces := [15]
  off := 0x04C0
  n := 16
  fields := [⟨"EN", 31, 31, .rws, [], []⟩,
    ⟨"SET", 27, 24, .rws, [], []⟩,
    ⟨"CODE", 15, 0, .rws, [], []⟩]

/-- EVR.EVENTS, Table 17.3. -/
def Reg.EVR_EVENTS : RegDesc where
  name := "EVR.EVENTS"
  blk := 22
  spaces := [15]
  off := 0x0500
  sat := some (0x0514, 0)
  fields := [⟨"V", 31, 0, .rc, [], []⟩]

/-- EVR.IN_LOST, Table 17.3. -/
def Reg.EVR_IN_LOST : RegDesc where
  name := "EVR.IN_LOST"
  blk := 22
  spaces := [15]
  off := 0x0504
  sat := some (0x0514, 1)
  fields := [⟨"V", 31, 0, .rc, [], []⟩]

/-- EVR.FREEZE_LOST, Table 17.3. -/
def Reg.EVR_FREEZE_LOST : RegDesc where
  name := "EVR.FREEZE_LOST"
  blk := 22
  spaces := [15]
  off := 0x0508
  sat := some (0x0514, 2)
  fields := [⟨"V", 31, 0, .rc, [], []⟩]

/-- EVR.CLR_REFUSED, Table 17.3. -/
def Reg.EVR_CLR_REFUSED : RegDesc where
  name := "EVR.CLR_REFUSED"
  blk := 22
  spaces := [15]
  off := 0x050C
  sat := some (0x0514, 3)
  fields := [⟨"V", 31, 0, .rc, [], []⟩]

/-- EVR.CRC_BAD, Table 17.3. -/
def Reg.EVR_CRC_BAD : RegDesc where
  name := "EVR.CRC_BAD"
  blk := 22
  spaces := [15]
  off := 0x0510
  sat := some (0x0514, 4)
  fields := [⟨"V", 31, 0, .rc, [], []⟩]

/-- EVR.G_CNT_SAT, Table 17.3. -/
def Reg.EVR_G_CNT_SAT : RegDesc where
  name := "EVR.G_CNT_SAT"
  blk := 22
  spaces := [15]
  off := 0x0514
  fields := [⟨"SAT", 4, 0, .w1c, [], []⟩]

/-- EVR.SET_A, Table 17.3. -/
def Reg.EVR_SET_A : RegDesc where
  name := "EVR.SET_A"
  blk := 22
  spaces := [0]
  off := 0x0040
  n := 8
  fields := [⟨"VALID", 31, 31, .rws, [], []⟩,
    ⟨"F", 28, 24, .rws, [], [(0, 24)]⟩,
    ⟨"F", 15, 0, .rws, [], []⟩]

/-- EVR.SET_B, Table 17.3. -/
def Reg.EVR_SET_B : RegDesc where
  name := "EVR.SET_B"
  blk := 22
  spaces := [0]
  off := 0x0060
  n := 8
  fields := [⟨"FROM_SOURCE", 31, 31, .rws, [], []⟩,
    ⟨"F", 30, 29, .rws, [], []⟩,
    ⟨"F", 14, 0, .rws, [], []⟩]

/-- The registers of EVR (Table 17.3 and the field tables of its chapter). -/
def Reg.tableEVR : List RegDesc :=
  [Reg.EVR_SEL, Reg.EVR_IRQ_STATUS, Reg.EVR_IRQ_ENABLE, Reg.EVR_COMMIT,
   Reg.EVR_STATUS, Reg.EVR_CMD, Reg.EVR_CLR_UNLOCK, Reg.EVR_SEQ,
   Reg.EVR_LAST_HEAD, Reg.EVR_FIRST_COUNT, Reg.EVR_CLASS_SET, Reg.EVR_OVR,
   Reg.EVR_EVENTS, Reg.EVR_IN_LOST, Reg.EVR_FREEZE_LOST, Reg.EVR_CLR_REFUSED,
   Reg.EVR_CRC_BAD, Reg.EVR_G_CNT_SAT, Reg.EVR_SET_A, Reg.EVR_SET_B]

/-- PWR.IRQ_STATUS, Table 18.12. -/
def Reg.PWR_IRQ_STATUS : RegDesc where
  name := "PWR.IRQ_STATUS"
  blk := 23
  spaces := [15]
  off := 0x0400
  fields := [⟨"HOLDUP_OK", 5, 5, .w1c, [], []⟩,
    ⟨"HOLDUP_LOW", 4, 4, .w1c, [], []⟩,
    ⟨"THERM_TRIP", 3, 3, .w1c, [], []⟩,
    ⟨"THERM_CLEAR", 2, 2, .w1c, [], []⟩,
    ⟨"THERM_WARN", 1, 1, .w1c, [], []⟩,
    ⟨"PF_WARN", 0, 0, .w1c, [], []⟩]

/-- PWR.IRQ_ENABLE, Table 18.12. -/
def Reg.PWR_IRQ_ENABLE : RegDesc where
  name := "PWR.IRQ_ENABLE"
  blk := 23
  spaces := [15]
  off := 0x0404
  fields := [⟨"HOLDUP_OK", 5, 5, .rw, [], []⟩,
    ⟨"HOLDUP_LOW", 4, 4, .rw, [], []⟩,
    ⟨"THERM_TRIP", 3, 3, .rw, [], []⟩,
    ⟨"THERM_CLEAR", 2, 2, .rw, [], []⟩,
    ⟨"THERM_WARN", 1, 1, .rw, [], []⟩,
    ⟨"PF_WARN", 0, 0, .rw, [], []⟩]

/-- PWR.STATUS, Table 18.12. -/
def Reg.PWR_STATUS : RegDesc where
  name := "PWR.STATUS"
  blk := 23
  spaces := [15]
  off := 0x040C
  reset := 0x10000000
  fields := [⟨"PF_WARN", 31, 31, .ro, [], []⟩,
    ⟨"THERM_WARN", 30, 30, .ro, [], []⟩,
    ⟨"HOLDUP_LOW", 29, 29, .ro, [], []⟩,
    ⟨"SUPPLY_GOOD", 28, 28, .ro, [], []⟩,
    ⟨"TEST_RUN", 27, 27, .ro, [], []⟩]

/-- PWR.CFG, Table 18.12. -/
def Reg.PWR_CFG : RegDesc where
  name := "PWR.CFG"
  blk := 23
  spaces := [15]
  off := 0x0410
  reset := 0x80000018
  fields := [⟨"THERM_RESTART", 31, 31, .rw, [], []⟩,
    ⟨"HOLDUP_H", 7, 0, .rw, [(1, 168)], []⟩]

/-- PWR.TEMP, Table 18.12. -/
def Reg.PWR_TEMP : RegDesc where
  name := "PWR.TEMP"
  blk := 23
  spaces := [15]
  off := 0x0414
  fields := [⟨"V", 15, 0, .ro, [], []⟩]

/-- PWR.TEMP_MAX, Table 18.12. -/
def Reg.PWR_TEMP_MAX : RegDesc where
  name := "PWR.TEMP_MAX"
  blk := 23
  spaces := [15]
  off := 0x0418
  fields := [⟨"V", 15, 0, .rc, [], []⟩]

/-- PWR.HOLDUP_US, Table 18.12. -/
def Reg.PWR_HOLDUP_US : RegDesc where
  name := "PWR.HOLDUP_US"
  blk := 23
  spaces := [15]
  off := 0x041C
  fields := [⟨"V", 15, 0, .ro, [], []⟩]

/-- PWR.VIN, Table 18.12. -/
def Reg.PWR_VIN : RegDesc where
  name := "PWR.VIN"
  blk := 23
  spaces := [15]
  off := 0x0420
  fields := [⟨"V", 15, 0, .ro, [], []⟩]

/-- PWR.PF_WARNINGS, Table 18.12. -/
def Reg.PWR_PF_WARNINGS : RegDesc where
  name := "PWR.PF_WARNINGS"
  blk := 23
  spaces := [15]
  off := 0x0480
  sat := some (0x0490, 0)
  fields := [⟨"V", 31, 0, .rc, [], []⟩]

/-- PWR.THERM_WARNINGS, Table 18.12. -/
def Reg.PWR_THERM_WARNINGS : RegDesc where
  name := "PWR.THERM_WARNINGS"
  blk := 23
  spaces := [15]
  off := 0x0484
  sat := some (0x0490, 1)
  fields := [⟨"V", 31, 0, .rc, [], []⟩]

/-- PWR.THERM_TRIPS, Table 18.12. -/
def Reg.PWR_THERM_TRIPS : RegDesc where
  name := "PWR.THERM_TRIPS"
  blk := 23
  spaces := [15]
  off := 0x0488
  sat := some (0x0490, 2)
  fields := [⟨"V", 31, 0, .rc, [], []⟩]

/-- PWR.HOLDUP_TESTS, Table 18.12. -/
def Reg.PWR_HOLDUP_TESTS : RegDesc where
  name := "PWR.HOLDUP_TESTS"
  blk := 23
  spaces := [15]
  off := 0x048C
  sat := some (0x0490, 3)
  fields := [⟨"V", 31, 0, .rc, [], []⟩]

/-- PWR.G_CNT_SAT, Table 18.12. -/
def Reg.PWR_G_CNT_SAT : RegDesc where
  name := "PWR.G_CNT_SAT"
  blk := 23
  spaces := [15]
  off := 0x0490
  fields := [⟨"SAT", 3, 0, .w1c, [], []⟩]

/-- The registers of PWR (Table 18.12 and the field tables of its chapter). -/
def Reg.tablePWR : List RegDesc :=
  [Reg.PWR_IRQ_STATUS, Reg.PWR_IRQ_ENABLE, Reg.PWR_STATUS, Reg.PWR_CFG,
   Reg.PWR_TEMP, Reg.PWR_TEMP_MAX, Reg.PWR_HOLDUP_US, Reg.PWR_VIN,
   Reg.PWR_PF_WARNINGS, Reg.PWR_THERM_WARNINGS, Reg.PWR_THERM_TRIPS, Reg.PWR_HOLDUP_TESTS,
   Reg.PWR_G_CNT_SAT]

/-- ACC.SEL, Table 16.8. -/
def Reg.ACC_SEL : RegDesc where
  name := "ACC.SEL"
  blk := 24
  spaces := [15]
  off := 0x0000
  banked := true
  fields := [⟨"AINC", 31, 31, .rw, [], []⟩,
    ⟨"SPACE", 30, 30, .rw, [], []⟩,
    ⟨"INDEX", 5, 0, .rw, [], []⟩]

/-- ACC.IRQ_STATUS, Table 16.8. -/
def Reg.ACC_IRQ_STATUS : RegDesc where
  name := "ACC.IRQ_STATUS"
  blk := 24
  spaces := [15]
  off := 0x0400
  fields := [⟨"VIOLATION", 0, 0, .w1c, [], []⟩]

/-- ACC.IRQ_ENABLE, Table 16.8. -/
def Reg.ACC_IRQ_ENABLE : RegDesc where
  name := "ACC.IRQ_ENABLE"
  blk := 24
  spaces := [15]
  off := 0x0404
  fields := [⟨"VIOLATION", 0, 0, .rw, [], []⟩]

/-- ACC.LAST_VIOL, Table 16.8. -/
def Reg.ACC_LAST_VIOL : RegDesc where
  name := "ACC.LAST_VIOL"
  blk := 24
  spaces := [15]
  off := 0x0410
  n := 4
  fields := [⟨"V", 31, 0, .ro, [], []⟩]

/-- ACC.VIOLATIONS, Table 16.8. -/
def Reg.ACC_VIOLATIONS : RegDesc where
  name := "ACC.VIOLATIONS"
  blk := 24
  spaces := [15]
  off := 0x0420
  sat := some (0x042C, 0)
  fields := [⟨"V", 31, 0, .rc, [], []⟩]

/-- ACC.REL_REFUSED, Table 16.8. -/
def Reg.ACC_REL_REFUSED : RegDesc where
  name := "ACC.REL_REFUSED"
  blk := 24
  spaces := [15]
  off := 0x0424
  sat := some (0x042C, 1)
  fields := [⟨"V", 31, 0, .rc, [], []⟩]

/-- ACC.CFG_REFUSED, Table 16.8. -/
def Reg.ACC_CFG_REFUSED : RegDesc where
  name := "ACC.CFG_REFUSED"
  blk := 24
  spaces := [15]
  off := 0x0428
  sat := some (0x042C, 2)
  fields := [⟨"V", 31, 0, .rc, [], []⟩]

/-- ACC.G_CNT_SAT, Table 16.8. -/
def Reg.ACC_G_CNT_SAT : RegDesc where
  name := "ACC.G_CNT_SAT"
  blk := 24
  spaces := [15]
  off := 0x042C
  fields := [⟨"SAT", 2, 0, .w1c, [], []⟩]

/-- ACC.RGN_BASE, Table 16.8. -/
def Reg.ACC_RGN_BASE : RegDesc where
  name := "ACC.RGN_BASE"
  blk := 24
  spaces := [0]
  off := 0x0040
  fields := [⟨"V", 27, 0, .rw, [], []⟩]

/-- ACC.RGN_LIMIT, Table 16.8. -/
def Reg.ACC_RGN_LIMIT : RegDesc where
  name := "ACC.RGN_LIMIT"
  blk := 24
  spaces := [0]
  off := 0x0044
  fields := [⟨"V", 27, 0, .rw, [], []⟩]

/-- ACC.RGN_PERM, Table 16.8. -/
def Reg.ACC_RGN_PERM : RegDesc where
  name := "ACC.RGN_PERM"
  blk := 24
  spaces := [0]
  off := 0x0048
  fields := [⟨"EN", 31, 31, .rw, [], []⟩,
    ⟨"F", 13, 8, .rw, [], []⟩,
    ⟨"F", 5, 0, .rw, [], []⟩]

/-- ACC.MST_CFG, Table 16.8. -/
def Reg.ACC_MST_CFG : RegDesc where
  name := "ACC.MST_CFG"
  blk := 24
  spaces := [1]
  off := 0x0040
  fields := [⟨"PRIVQ", 0, 0, .rw, [], []⟩]

/-- ACC.MST_STATE, Table 16.8. -/
def Reg.ACC_MST_STATE : RegDesc where
  name := "ACC.MST_STATE"
  blk := 24
  spaces := [1]
  off := 0x0044
  fields := [⟨"FROZEN", 31, 31, .ro, [], []⟩]

/-- ACC.MST_CMD, Table 16.8. -/
def Reg.ACC_MST_CMD : RegDesc where
  name := "ACC.MST_CMD"
  blk := 24
  spaces := [1]
  off := 0x0048
  fields := [⟨"RELEASE", 0, 0, .wo, [], []⟩]

/-- The registers of ACC (Table 16.8 and the field tables of its chapter). -/
def Reg.tableACC : List RegDesc :=
  [Reg.ACC_SEL, Reg.ACC_IRQ_STATUS, Reg.ACC_IRQ_ENABLE, Reg.ACC_LAST_VIOL,
   Reg.ACC_VIOLATIONS, Reg.ACC_REL_REFUSED, Reg.ACC_CFG_REFUSED, Reg.ACC_G_CNT_SAT,
   Reg.ACC_RGN_BASE, Reg.ACC_RGN_LIMIT, Reg.ACC_RGN_PERM, Reg.ACC_MST_CFG,
   Reg.ACC_MST_STATE, Reg.ACC_MST_CMD]

end Sys2Proof.Machine
end

