-- ==== Sys2Proof/Machine/Ops.lean ====
section
/-! DEFINITION. The shared operations: registers and counters, interrupts, time, memory, free values, events. -/

namespace Sys2Proof.Machine

/-- What a command's meaning answers. -/
abbrev Result := Host.Outcome State Fault Refusal

/-- The block at the instant of a command: TB7 never runs backwards (R234). -/
def Block.clock (b : Block) (t : Nat) : Block := { b with t7 := max b.t7 t }

/-- A command's meaning run on the block at its instant; the queue is not touched. -/
def State.run (s : State) (t : Nat) (f : Block → Block) : Host.Outcome State Fault Refusal := .next { s with blk := f (s.blk.clock t) }

/-- The same for a command that names an instance: time passes and nothing else where the hardware has no such instance (R448, log
entry 108). -/
def State.runIf (s : State) (c : Bool) (t : Nat) (f : Block → Block) : Host.Outcome State Fault Refusal :=
  s.run t (fun b => if c then f b else b)

/-! ### The blocks by their index in Table 19.2 -/

def Blk.sys : Nat := 0
def Blk.tim : Nat := 1
def Blk.prt : Nat := 2
def Blk.str : Nat := 3
def Blk.aln : Nat := 4
def Blk.out : Nat := 5
def Blk.rpl : Nat := 6
def Blk.isl : Nat := 7
def Blk.alm : Nat := 8
def Blk.dfe : Nat := 9
def Blk.sdm : Nat := 10
def Blk.nrg : Nat := 11
def Blk.cap : Nat := 12
def Blk.rad : Nat := 13
def Blk.mem : Nat := 14
def Blk.dma : Nat := 15
def Blk.que : Nat := 16
def Blk.cmp : Nat := 17
def Blk.cas : Nat := 18
def Blk.red : Nat := 19
def Blk.key : Nat := 20
def Blk.tam : Nat := 21
def Blk.evr : Nat := 22
def Blk.pwr : Nat := 23
def Blk.acc : Nat := 24

/-! ### Registers -/

/-- The number a register is stored under: block, instance space, instance, offset. -/
def regKey (blk space inst off : Nat) : Nat := ((blk * 16 + space) * 1048576 + inst) * 65536 + off

/-- The block of a stored register. -/
def keyBlk (k : Nat) : Nat := k / (65536 * 1048576 * 16)

/-- The instance space of a stored register. -/
def keySpace (k : Nat) : Nat := k / (65536 * 1048576) % 16

/-- The instance of a stored register. -/
def keyInst (k : Nat) : Nat := k / 65536 % 1048576

/-- The offset of a stored register. -/
def keyOff (k : Nat) : Nat := k % 65536

/-- Where register `k` of a row is stored for an instance (the master, for a banked register). -/
def RegDesc.key (d : RegDesc) (i k : Nat) : Nat := regKey d.blk (d.spaces.headD 15) i (d.off + d.stride * k)

/-- The reset value of register `k` of a row in an instance (R10). -/
def RegDesc.rst (d : RegDesc) (i k : Nat) : Word := Tbl.get d.resetK k (Tbl.get d.resetI i d.reset)

/-- The bits of a register that a set of access codes covers. -/
def RegDesc.mask (d : RegDesc) (p : Access → Bool) : Nat :=
  d.fields.foldl (fun a f => if p f.acc then a + (2 ^ (f.hi + 1) - 2 ^ f.lo) else a) 0

/-- What software sees in a register. -/
def Block.vis (b : Block) (d : RegDesc) (i : Nat := 0) (k : Nat := 0) : Word := Tbl.get b.regs.vis (d.key i k) (d.rst i k)

/-- The active copy of a register's RWS fields. -/
def Block.act (b : Block) (d : RegDesc) (i : Nat := 0) (k : Nat := 0) : Word := Tbl.get b.regs.act (d.key i k) (d.rst i k)

/-- A register as the block itself uses it: the active copy of its RWS fields, the other fields as they stand. -/
def Block.cfg (b : Block) (d : RegDesc) (i : Nat := 0) (k : Nat := 0) : Word :=
  let m := w32 (d.mask (· == .rws))
  (b.act d i k &&& m) ||| (b.vis d i k &&& ~~~m)

def Block.setVis (b : Block) (d : RegDesc) (i k : Nat) (w : Word) : Block :=
  { b with regs := { b.regs with vis := Tbl.put b.regs.vis (d.key i k) w (d.rst i k) } }

def Block.setAct (b : Block) (d : RegDesc) (i k : Nat) (w : Word) : Block :=
  { b with regs := { b.regs with act := Tbl.put b.regs.act (d.key i k) w (d.rst i k) } }

/-- A register set in both copies, as LOAD sets it (R432). -/
def Block.setBoth (b : Block) (d : RegDesc) (i k : Nat) (w : Word) : Block := (b.setVis d i k w).setAct d i k w

/-- The instances in which a register holds a value other than its reset value, by the active copy where it has RWS fields. -/
def Block.listed (b : Block) (d : RegDesc) : List Nat :=
  let sp := d.spaces.headD 15
  let l := if d.fields.any (fun f => f.acc == .rws) then b.regs.act else b.regs.vis
  (l.filter (fun e => keyBlk e.1 == d.blk && keySpace e.1 == sp && keyOff e.1 == d.off)).map (fun e => keyInst e.1)

/-- A named field of the register as the block uses it. -/
def Block.cf (b : Block) (d : RegDesc) (i : Nat) (hi lo : Nat) : Nat := fld (b.cfg d i 0) hi lo

/-- One bit of the register as the block uses it. -/
def Block.cb (b : Block) (d : RegDesc) (i : Nat) (n : Nat) : Bool := bit (b.cfg d i 0).toNat n

/-- The whole register as the block uses it, as a number. -/
def Block.cn (b : Block) (d : RegDesc) (i : Nat := 0) (k : Nat := 0) : Nat := (b.cfg d i k).toNat

/-- A 40-bit address held in a _LO and a _HI register. -/
def Block.addrOf (b : Block) (lo hi : RegDesc) (i : Nat := 0) (k : Nat := 0) : Nat :=
  (b.vis lo i k).toNat + (b.vis hi i k).toNat % 256 * 4294967296

/-! ### Counters and interrupts -/

/-- What the hardware did in this cycle, with `f` done to a register that held `old` (R6, R9). -/
def Regs.noted (r : Regs) (t key : Nat) (old : Word) (f : Nat → Nat) : Nat × Tbl (Word × Nat) :=
  let l := if r.fresh.1 = t then r.fresh.2 else []
  let e := Tbl.get l key (old, 0)
  (t, Tbl.ins l key (e.1, f e.2))

/-- A register's value before this cycle's events, with the bits that they set or their increments (0: none). -/
def Block.fresh (b : Block) (key : Nat) : Word × Nat := if b.regs.fresh.1 = b.t7 then Tbl.get b.regs.fresh.2 key (0, 0) else (0, 0)

/-- A bit of a stored register set by an event; `rst` is the register's reset value (R6). -/
def Block.raiseBit (b : Block) (key n : Nat) (rst : Word) : Block :=
  let old := Tbl.get b.regs.vis key rst
  { b with regs := { b.regs with
      vis := Tbl.put b.regs.vis key (old ||| BitVec.twoPow 32 n) rst
      fresh := b.regs.noted b.t7 key old (fun m => m ||| 2 ^ n) } }

/-- A bit of a block's register set where it stands (a SAT flag or an IRQ_STATUS bit). -/
def Block.orBit (b : Block) (key n : Nat) : Block := b.raiseBit key n 0

/-- A W1C bit of a register set by an event. -/
def Block.setBit (b : Block) (d : RegDesc) (i k n : Nat) : Block := b.raiseBit (d.key i k) n (d.rst i k)

/-- A 32-bit saturating counter advanced by `n`; an event that finds it at its maximum sets its SAT flag (R8). -/
def Block.count (b : Block) (d : RegDesc) (i : Nat := 0) (k : Nat := 0) (n : Nat := 1) : Block :=
  let old := b.vis d i k
  let v := old.toNat + n
  let b : Block := { b with regs := { b.regs with
    vis := Tbl.put b.regs.vis (d.key i k) (w32 (min v 4294967295)) (d.rst i k)
    fresh := b.regs.noted b.t7 (d.key i k) old (fun m => m + n) } }
  if v ≤ 4294967295 then b
  else
    match d.sat with
    | some (off, s) => b.orBit (regKey d.blk (d.spaces.headD 15) i off) (s + k)
    | none => b

/-- The events of this cycle taken back out of a counter. -/
def Block.uncount (b : Block) (d : RegDesc) (i k n : Nat) : Block :=
  { b with regs := { b.regs with
    vis := Tbl.put b.regs.vis (d.key i k) (w32 ((b.vis d i k).toNat - n)) (d.rst i k)
    fresh := b.regs.noted b.t7 (d.key i k) (b.vis d i k) (fun m => m - n) } }

/-- A bit of a block's register cleared where it stands. -/
def Block.clearBit (b : Block) (key n : Nat) : Block :=
  { b with regs := { b.regs with vis := Tbl.put b.regs.vis key (Tbl.get b.regs.vis key 0 &&& ~~~(BitVec.twoPow 32 n)) 0 } }

/-- A setting event of BLK.IRQ_STATUS (R449). -/
def Block.irq (b : Block) (blk n : Nat) : Block := b.orBit (regKey blk 15 0 0x400) n

/-- A block's interrupt source is high while IRQ_STATUS AND IRQ_ENABLE is not zero (Table 19.3). -/
def Block.irqHigh (b : Block) (blk : Nat) : Bool :=
  (Tbl.get b.regs.vis (regKey blk 15 0 0x400) 0 &&& Tbl.get b.regs.vis (regKey blk 15 0 0x404) 0) != 0

/-! ### Free values -/

/-- A fresh free value and the block that has drawn it. -/
def Block.draw (b : Block) : Nat × Block := ((Config.freeValue b.free).toNat, { b with free := b.free + 1 })

/-! ### Time (chapter 9) -/

def Block.tb (b : Block) (n : Nat) : TimeBase := Tbl.get b.tim.tb n TimeBase.reset

def Block.setTb (b : Block) (n : Nat) (x : TimeBase) : Block :=
  { b with tim := { b.tim with tb := Tbl.put b.tim.tb n x TimeBase.reset } }

/-- V(t) = Va + (N − Na)(1 + ρ) in 2⁻¹⁶ ns (R238), negative values held at 0. -/
def TimeBase.at (x : TimeBase) (n : Nat) : Nat :=
  let d : Int := ((n : Int) - x.na) * 65536
  (x.va + d + d * x.rho / 274877906944).toNat

/-- TB0 in 2⁻¹⁶ ns. -/
def Block.tb0Fine (b : Block) : Nat := (b.tb 0).at b.t7

/-- TB0 in ns: the instant of every stamp that names no other time base (R233). -/
def Block.now (b : Block) : Nat := b.tb0Fine / 65536

/-- A time base in 2⁻¹⁶ ns at this instant. -/
def Block.tbFine (b : Block) (n : Nat) : Nat :=
  if n = 7 then b.t7 * 65536
  else if n = 0 then b.tb0Fine
  else let x := b.tb n; x.at (if x.refTb0 then b.now else b.t7)

/-- A time base in ns. -/
def Block.tbNow (b : Block) (n : Nat) : Nat := b.tbFine n / 65536

/-- NS32 of an instant (R235). -/
def ns32 (ns : Nat) : Nat := ns % 4294967296

/-- Nanoseconds in a second. -/
def nsPerS : Nat := 1000000000

/-- A signed difference of instants in units of 16 ns, rounded toward minus infinity, saturating (R105). -/
def off16 (a s : Nat) : Nat := sat32 (((a : Int) - s) / 16)

/-! ### Memory -/

/-- The byte of a list of cells at an address, `d` where none is listed. -/
def cellGet (m : List Host.Cell) (a : Nat) (d : Byte) : Byte :=
  match m with
  | [] => d
  | (k, v) :: r => if k = a then v else cellGet r a d

/-- One cell removed. -/
def cellErase (m : List Host.Cell) (a : Nat) : List Host.Cell :=
  match m with
  | [] => []
  | (k, v) :: r => if k = a then cellErase r a else (k, v) :: cellErase r a

/-- One cell written in rising order of address. -/
def cellIns (m : List Host.Cell) (a : Nat) (v : Byte) : List Host.Cell :=
  match m with
  | [] => [(a, v)]
  | (k, u) :: r => if a < k then (a, v) :: (k, u) :: r else if a = k then (a, v) :: r else (k, u) :: cellIns r a v

/-- One byte written; a byte equal to what an unlisted address reads as is not listed. -/
def cellSet (m : List Host.Cell) (a : Nat) (v d : Byte) : List Host.Cell :=
  if v = d then cellErase m a else cellIns m a v

/-- Bytes written at rising addresses. -/
def cellsSet (m : List Host.Cell) (a : Nat) (bs : List Byte) (d : Byte) : List Host.Cell :=
  match bs with
  | [] => m
  | v :: r => cellsSet (cellSet m a v d) (a + 1) r d

/-- What a byte of memory that nothing has written reads as: a choice of the model, log entry 3. -/
def Mem.blank : Byte := 0

/-- An erased byte of the flash, log entry 4. -/
def Mem.erased : Byte := 0xFF

/-- The canonical form of a list of cells: addresses strictly rising, no byte equal to the unlisted one. -/
def cellsWf (m : List Host.Cell) (d : Byte) : Bool :=
  match m with
  | [] => true
  | (k, v) :: r => (v != d) && (match r with | [] => true | (j, _) :: _ => decide (k < j)) && cellsWf r d

/-- The canonical form of the module's memories. -/
def Memory.wf (m : Mem) : Bool := cellsWf m.cells Mem.blank && cellsWf m.flash Mem.erased

/-- The byte at a bus address. -/
def Block.load8 (b : Block) (a : Nat) : Byte := cellGet b.mem.cells a Mem.blank

/-- `n` bytes from a bus address. -/
def Block.load (b : Block) (a n : Nat) : List Byte := (List.range n).map (fun i => b.load8 (a + i))

/-- A little-endian number of `n` bytes at a bus address. -/
def Block.loadN (b : Block) (a n : Nat) : Nat := leNat (b.load a n)

/-- The memory of Table 13.1 that a bus address lies in, with the unit its poison is kept by: the byte of an SRAM, the
line of DRAM (R328). -/
def poisonUnit (a : Nat) : Option (Nat × Nat) :=
  if 0x80000000 ≤ a ∧ a < 0x80C00000 then some (1, a - 0x80000000)
  else if 0x90000000 ≤ a ∧ a < 0x90200000 then some (2, a - 0x90000000)
  else if 0x1000000000 ≤ a ∧ a < 0x1800000000 then some (9, (a - 0x1000000000) / 64)
  else none

/-! ### The codes (R325, R326) -/

/-- What reading under a code gives: the data, corrected data, an error that is detected and not corrected, or poison. -/
inductive CodeRead where
  | good
  | fixed (v : Nat)
  | lost
  | poison
  deriving DecidableEq, Repr

/-- A byte of SRAM with its check bits: a single error of its 13 bits is corrected, a double one is detected. -/
def byteRead (d c : Nat) : CodeRead :=
  let code (v : Nat) : Nat := (Config.byteCode (BitVec.ofNat 8 v)).toNat
  if c = Config.bytePoison.toNat then .poison
  else if c = code d then .good
  else if (List.range 5).any (fun i => Nat.xor c (2 ^ i) == code d) then .fixed d
  else match (List.range 8).find? (fun i => code (Nat.xor d (2 ^ i)) == c) with
    | some i => .fixed (Nat.xor d (2 ^ i))
    | none => .lost

/-- The bits of a device in the 16 beats of a line, of `w` bits a beat. -/
def deviceMask (w j : Nat) : Nat := (List.range 16).foldl (fun a i => a + 15 * 2 ^ (w * i + 4 * j)) 0

/-- Whether two numbers differ in one device's bits alone. -/
def oneDevice (w j x y : Nat) : Bool := Nat.land (Nat.xor x y) (deviceMask w j) == Nat.xor x y

/-- A line of DRAM with its check bits: an error confined to one of the ten devices is corrected, one confined to two is detected. -/
def lineRead (d c : Nat) : CodeRead :=
  let code (v : Nat) : Nat := (Config.lineCode v).toNat
  let fix (j : Nat) : Nat := (Config.lineFix d c j).toNat
  if c = Config.linePoison.toNat then .poison
  else if c = code d then .good
  else if (List.range 2).any (fun j => oneDevice 8 j c (code d)) then .fixed d
  else match (List.range 8).find? (fun j => oneDevice 32 j (fix j) d && code (fix j) == c) with
    | some j => .fixed (fix j)
    | none => .lost

/-- The data and check bits of a unit of a memory read under its code: a line as one, a word by its bytes. -/
def unitRead (m : Nat) (r : Nat × Nat) : List CodeRead :=
  if m = 9 then [lineRead r.1 r.2]
  else (List.range 8).map (fun i => byteRead (bits r.1 (8 * i + 7) (8 * i)) (bits r.2 (5 * i + 4) (5 * i)))

/-- The check bits of a unit's data. -/
def checkOf (m d : Nat) : Nat :=
  if m = 9 then (Config.lineCode d).toNat
  else (List.range 8).foldl (fun a i => a + (Config.byteCode (BitVec.ofNat 8 (bits d (8 * i + 7) (8 * i)))).toNat * 2 ^ (5 * i)) 0

/-- Bytes of a unit: a word of SRAM, a line of DRAM. -/
def Mem.unitBytes (m : Nat) : Nat := if m = 9 then 64 else 8

/-- The physical contents that differ from a unit's data under its code, for a unit that accesses reach: not one that is remapped. -/
def Block.rawAt (b : Block) (m u : Nat) : Option (Nat × Nat) :=
  if (Tbl.get b.mm.units m MemUnit.reset).remaps.any (fun r => r.1 == u) then none
  else (b.mem.raw.find? (fun e => e.1 == m * 2 ^ 32 + u)).map (·.2)

/-- Whether a byte of SRAM, or a line of DRAM, holds an error that no read has found yet and that is not corrected. -/
def Block.lostUnit (b : Block) (m p : Nat) : Bool :=
  match b.rawAt m (if m = 9 then p else p / 8) with
  | some r => (unitRead m r).getD (if m = 9 then 0 else p % 8) .good == .lost
  | none => false

/-- Whether a byte of SRAM, or a line of DRAM, reads as poison: recorded, or an uncorrectable error. -/
def Block.badUnit (b : Block) (m p : Nat) : Bool := b.mem.poison.contains (m, p) || b.lostUnit m p

/-- The uncorrectable errors in raw contents, as poison units. -/
def Block.lostUnits (b : Block) : List (Nat × Nat) :=
  (b.mem.raw.map (fun e =>
    let m := e.1 / 2 ^ 32
    let u := e.1 % 2 ^ 32
    ((if m = 9 then [u] else (List.range 8).map (8 * u + ·)).filter (b.lostUnit m)).map (fun p => (m, p)))).flatten

/-- Whether a bus address reads poison. -/
def Block.poisoned (b : Block) (a : Nat) : Bool :=
  match poisonUnit a with
  | some u => b.badUnit u.1 u.2
  | none => false

/-- Where a poison unit lies and how many bytes it covers, for the memories a bus address reaches. -/
def poisonSpan (u : Nat × Nat) : Nat × Nat :=
  match u.1 with
  | 1 => (0x80000000 + u.2, 1)
  | 2 => (0x90000000 + u.2, 1)
  | 9 => (0x1000000000 + 64 * u.2, 64)
  | _ => (0, 0)

/-- Whether any of `n` bytes reads poison. -/
def Block.poisonedRange (b : Block) (a n : Nat) : Bool :=
  (b.mem.poison ++ b.lostUnits).any (fun u => let s := poisonSpan u; decide (s.1 < a + n) && decide (a < s.1 + s.2))

/-- Insertion in a sorted list of pairs. -/
def pairIns (s : List (Nat × Nat)) (p : Nat × Nat) : List (Nat × Nat) :=
  match s with
  | [] => [p]
  | q :: r =>
    if p = q then q :: r
    else if p.1 < q.1 ∨ (p.1 = q.1 ∧ p.2 < q.2) then p :: q :: r else q :: pairIns r p

/-- The poison that a write of `n` bytes clears: the SRAM bytes written, and the DRAM lines it covers whole (R328). -/
def poisonAfter (p : List (Nat × Nat)) (a n : Nat) : List (Nat × Nat) :=
  match poisonUnit a with
  | none => p
  | some (9, _) =>
    let o := a - 0x1000000000
    p.filter (fun u => !(u.1 == 9 && decide (o ≤ u.2 * 64) && decide (u.2 * 64 + 64 ≤ o + n)))
  | some (m, u) => p.filter (fun v => !(v.1 == m && decide (u ≤ v.2) && decide (v.2 < u + n)))

/-- A word's physical contents with bytes of it written, and their check bits (R325). -/
def rawWrite (u lo : Nat) (bs : List Byte) (r : Nat × Nat) : Nat × Nat :=
  let part (i w v : Nat) (new : Byte → Nat) : Nat :=
    let p := 8 * u + i
    if lo ≤ p ∧ p < lo + bs.length then new (bs.getD (p - lo) 0) else bits v (w * i + w - 1) (w * i)
  ((List.range 8).foldl (fun a i => a + part i 8 r.1 BitVec.toNat * 2 ^ (8 * i)) 0,
    (List.range 8).foldl (fun a i => a + part i 5 r.2 (fun v => (Config.byteCode v).toNat) * 2 ^ (5 * i)) 0)

/-- The raw contents after bytes of a memory are written from a byte on: the bytes of a word with their check bits; a line is written whole, so
that its data stand under its code again. Contents that are a unit's data under its code are not kept, and a remapped unit's own cells
are not written. -/
def Block.rawAfter (b : Block) (m lo : Nat) (bs : List Byte) : Tbl (Nat × Nat) :=
  b.mem.raw.filterMap (fun e =>
    let u := e.1 % 2 ^ 32
    let n := Mem.unitBytes m
    if e.1 / 2 ^ 32 ≠ m ∨ u * n + n ≤ lo ∨ lo + bs.length ≤ u * n ∨ (b.rawAt m u).isNone then some e
    else if m = 9 then none
    else
      let r := rawWrite u lo bs e.2
      if (unitRead m r).all (· == .good) then none else some (e.1, r))

/-- The lines of DRAM with an uncorrectable error that a write covers in part: it merges into the line and leaves it poisoned (R328). -/
def Block.linesSpoilt (b : Block) (o n : Nat) : List (Nat × Nat) :=
  b.lostUnits.filter (fun u => u.1 == 9 && decide (u.2 * 64 < o + n) && decide (o < u.2 * 64 + 64) &&
    !(decide (o ≤ u.2 * 64) && decide (u.2 * 64 + 64 ≤ o + n)))

/-- Bytes of a memory written without the bus: the raw contents and the poison of those bytes (R325, R328). -/
def Block.sramWrite (b : Block) (m lo : Nat) (bs : List Byte) : Block :=
  { b with mem := { b.mem with
      raw := b.rawAfter m lo bs
      poison := b.mem.poison.filter (fun u => !(u.1 == m && decide (lo ≤ u.2) && decide (u.2 < lo + bs.length))) } }

/-- Bytes written at a bus address. -/
def Block.store (b : Block) (a : Nat) (bs : List Byte) : Block :=
  let at_ := poisonUnit a
  { b with mem := { b.mem with
      cells := cellsSet b.mem.cells a bs Mem.blank
      raw := (match at_ with
        | some (9, _) => b.rawAfter 9 (a - 0x1000000000) bs
        | some (m, p) => b.rawAfter m p bs
        | none => b.mem.raw)
      poison := (match at_ with
        | some (9, _) => (b.linesSpoilt (a - 0x1000000000) bs.length).foldl pairIns (poisonAfter b.mem.poison a bs.length)
        | _ => poisonAfter b.mem.poison a bs.length) } }

/-- A number stored in `n` bytes, little-endian. -/
def Block.storeN (b : Block) (a n v : Nat) : Block := b.store a (leBytes n v)

/-- Poison recorded in a unit of a memory. -/
def Block.addPoison (b : Block) (u : Nat × Nat) : Block := { b with mem := { b.mem with poison := pairIns b.mem.poison u } }

/-- The poisoned bytes of the engine buffers that hold a block's work (Table 13.1). -/
def Block.enginePoison (b : Block) (blk : Nat) : List (Nat × Nat) := b.mem.poison.filter (fun u => u.1 == 7 && Config.engineOwner u.2 == blk)

/-- A job of a block that met poison in its engine buffers is over: its next one writes them anew (R328). -/
def Block.engineRewrite (b : Block) (blk : Nat) : Block :=
  { b with mem := { b.mem with poison := b.mem.poison.filter (fun u => !(b.enginePoison blk).contains u) } }

/-- Poison recorded at a bus address. -/
def Block.poisonAt (b : Block) (a : Nat) : Block :=
  match poisonUnit a with
  | some u => b.addPoison u
  | none => b

/-- Bytes of the flash written. -/
def Block.storeFlash (b : Block) (o : Nat) (bs : List Byte) : Block :=
  { b with mem := { b.mem with flash := cellsSet b.mem.flash o bs Mem.erased } }

/-- `n` bytes of the flash. -/
def Block.loadFlash (b : Block) (o n : Nat) : List Byte := (List.range n).map (fun i => cellGet b.mem.flash (o + i) Mem.erased)

/-! ### Modes -/

/-- SYS.MODE codes of Table 18.1. -/
def Mode.code : Mode → Nat
  | .load => 0
  | .selftest => 1
  | .acquire => 2
  | .active => 3
  | .holdover => 4
  | .standby => 5
  | .takeover => 6
  | .degraded => 7
  | .maintenance => 8
  | .debug => 9
  | .save => 10
  | .halt => 11

/-- Bytes of memory as a block reads them for which the spec names no treatment of poison: a poisoned byte is a free value
(R327). -/
def Block.loadSafe (b : Block) (a n : Nat) : List Byte :=
  if b.poisonedRange a n then (List.range n).map (fun i => if b.poisoned (a + i) then Config.layout 8 [b.free] (a + i) else b.load8 (a + i))
  else b.load a n

end Sys2Proof.Machine
end

