-- ==== Sys2Proof/Machine/RegOps.lean ====
section
/-! DEFINITION. Finding registers by address, the access codes of Table 0.5, commits and hand-overs. -/

namespace Sys2Proof.Machine

/-- The register tables by block index (Table 19.2). -/
def Reg.tables (blk : Nat) : List RegDesc :=
  match blk with
  | 0 => Reg.tableSYS
  | 1 => Reg.tableTIM
  | 2 => Reg.tablePRT
  | 3 => Reg.tableSTR
  | 4 => Reg.tableALN
  | 5 => Reg.tableOUT
  | 6 => Reg.tableRPL
  | 7 => Reg.tableISL
  | 8 => Reg.tableALM
  | 9 => Reg.tableDFE
  | 10 => Reg.tableSDM
  | 11 => Reg.tableNRG
  | 12 => Reg.tableCAP
  | 13 => Reg.tableRAD
  | 14 => Reg.tableMEM
  | 15 => Reg.tableDMA
  | 16 => Reg.tableQUE
  | 17 => Reg.tableCMP
  | 18 => Reg.tableCAS
  | 19 => Reg.tableRED
  | 20 => Reg.tableKEY
  | 21 => Reg.tableTAM
  | 22 => Reg.tableEVR
  | 23 => Reg.tablePWR
  | 24 => Reg.tableACC
  | _ => []

/-- Which register of a row stands at an offset. -/
def RegDesc.indexAt (d : RegDesc) (off : Nat) : Option Nat :=
  if d.off ≤ off ∧ (off - d.off) % d.stride = 0 ∧ (off - d.off) / d.stride < d.n then some ((off - d.off) / d.stride) else none

/-- The register that a table defines at an offset of a space, with its index in its row. -/
def Reg.findIn (l : List RegDesc) (space off : Nat) : Option (RegDesc × Nat) :=
  match l with
  | [] => none
  | d :: r =>
    match (if d.spaces.contains space then d.indexAt off else none) with
    | some k => some (d, k)
    | none => Reg.findIn r space off

def Reg.find (blk space off : Nat) : Option (RegDesc × Nat) := Reg.findIn (Reg.tables blk) space off

/-- How many instances each space of a block's window has (Table 19.2 and the blocks' chapters). -/
def Reg.instances (blk space : Nat) : Nat :=
  match blk, space with
  | 1, 0 => 8
  | 1, 1 => 8
  | 1, 2 => 29
  | 2, 0 => 30
  | 3, 0 => 8192
  | 4, 0 => 8192
  | 4, 1 => 512
  | 4, 2 => 128
  | 4, 3 => 64
  | 5, 0 => 64
  | 5, 1 => 64
  | 5, 2 => 1024
  | 6, 0 => 8192
  | 6, 1 => 512
  | 6, 2 => 16
  | 6, 3 => 1024
  | 7, 0 => 16384
  | 7, 1 => 32768
  | 7, 2 => 256
  | 8, 0 => 8192
  | 8, 1 => 4096
  | 8, 2 => 256
  | 8, 3 => 64
  | 9, 0 => 48
  | 9, 1 => 4096
  | 10, 0 => 16
  | 10, 1 => 4
  | 11, 0 => 4
  | 12, 0 => 8
  | 13, 0 => 4
  | 13, 1 => 1024
  | 13, 2 => 4096
  | 14, 0 => 10
  | 15, 0 => 32
  | 16, 0 => 64
  | 17, 0 => 16
  | 17, 1 => 256
  | 18, 0 => 8
  | 20, 0 => 64
  | 22, 0 => 16
  | 24, 0 => 64
  | 24, 1 => 64
  | _, _ => 0

/-- The SEL register of a block, if it has one. -/
def Reg.sel (blk : Nat) : Option RegDesc := (Reg.find blk 15 0).map (·.1)

/-- The space and instance that a SEL value names: [30:29] names the space where the block has several, bit 30 in ACC. -/
def Reg.selOf (blk : Nat) (w : Word) : Nat × Nat :=
  match blk with
  | 1 => (fld w 30 29, fld w 4 0)
  | 2 => (0, fld w 4 0)
  | 3 => (0, fld w 12 0)
  | 4 => (fld w 30 29, fld w 12 0)
  | 5 => (fld w 30 29, fld w 9 0)
  | 6 => (fld w 30 29, fld w 12 0)
  | 7 => (fld w 30 29, fld w 14 0)
  | 8 => (fld w 30 29, fld w 12 0)
  | 9 => (fld w 30 29, fld w 11 0)
  | 10 => (fld w 30 29, fld w 4 0)
  | 11 => (0, fld w 1 0)
  | 12 => (0, fld w 2 0)
  | 13 => (fld w 30 29, fld w 11 0)
  | 14 => (0, fld w 3 0)
  | 15 => (0, fld w 4 0)
  | 16 => (0, fld w 5 0)
  | 17 => (fld w 30 29, fld w 7 0)
  | 18 => (0, fld w 2 0)
  | 20 => (0, fld w 5 0)
  | 22 => (0, fld w 3 0)
  | 24 => (fld w 30 30, fld w 5 0)
  | _ => (0, 0)

/-- The instance window of a master's SEL in a block. -/
def Block.selected (b : Block) (blk m : Nat) : Nat × Nat :=
  match Reg.sel blk with
  | some d => Reg.selOf blk (b.vis d m 0)
  | none => (0, 0)

/-- The instance a master's SEL names when it names that space. -/
def Block.selInst (b : Block) (blk m space : Nat) : Option Nat :=
  let s := b.selected blk m
  if s.1 = space ∧ s.2 < Reg.instances blk space then some s.2 else none

/-- Whether a value lies in a list of ranges; an empty list admits all. -/
def inRanges (v : Nat) (r : List (Nat × Nat)) : Bool := r.isEmpty || r.any (fun p => decide (p.1 ≤ v) && decide (v ≤ p.2))

/-- One field of a register after a write (Table 0.5, R7). -/
def FieldDesc.write (f : FieldDesc) (old new : Word) : Word :=
  let o := fld old f.hi f.lo
  let n := fld new f.hi f.lo
  match f.acc with
  | .rw | .rws | .lck => if inRanges n f.legal then setFld old f.hi f.lo n else old
  | .w1c => setFld old f.hi f.lo ((BitVec.ofNat 32 o &&& ~~~(BitVec.ofNat 32 n)).toNat)
  | .w1t => setFld old f.hi f.lo ((BitVec.ofNat 32 o ^^^ BitVec.ofNat 32 n).toNat)
  | .ro | .wo | .rc => old

/-- A register after a write: field by field; bits no field names stay zero. -/
def RegDesc.write (d : RegDesc) (old new : Word) : Word := d.fields.foldl (fun a f => f.write a new) old

/-- One field as a setting of an image's section leaves it: fields that software only reads are set as well. -/
def FieldDesc.set (f : FieldDesc) (old new : Word) : Word := if f.acc = .ro then ({ f with acc := .rw } : FieldDesc).write old new else f.write old new

def RegDesc.set (d : RegDesc) (old new : Word) : Word := d.fields.foldl (fun a f => f.set a new) old

/-- What a read of a stored register returns: WO fields read zero. -/
def RegDesc.read (d : RegDesc) (w : Word) : Word := w &&& ~~~(w32 (d.mask (· == .wo)))

/-- A stored register's reset value by its key. -/
def Reg.rstOf (key : Nat) : Word :=
  match Reg.find (keyBlk key) (keySpace key) (keyOff key) with
  | some (d, k) => d.rst (keyInst key) k
  | none => 0

/-- Whether a committed value holds every range of its register's fields. -/
def Reg.rangeOk (key : Nat) (w : Word) : Bool :=
  match Reg.find (keyBlk key) (keySpace key) (keyOff key) with
  | some (d, _) => d.fields.all (fun f => inRanges (fld w f.hi f.lo) f.range)
  | none => true

/-- What software sees in a stored register, by its key. -/
def Block.visAt (b : Block) (key : Nat) : Word := Tbl.get b.regs.vis key (Reg.rstOf key)

/-- The sets committed in this cycle, with some more: each register keeps the value that waited before the cycle. -/
def Regs.committed (r : Regs) (t : Nat) (ks : List Nat) : Nat × Tbl (Option Word) :=
  let l := if r.late.1 = t then r.late.2 else []
  (t, ks.foldl (fun l k => if l.any (fun e => e.1 == k) then l else Tbl.ins l k ((r.com.find? (fun e => e.1 == k)).map (·.2))) l)

/-- BLK.COMMIT: the shadow sets written since the last commit of the block await their hand-over, each register with its
last committed value. -/
def Block.commit (b : Block) (blk : Nat) : Block :=
  let mine := b.regs.dirty.filter (fun k => keyBlk k == blk)
  { b with regs := { b.regs with
      com := mine.foldl (fun c k => Tbl.ins c k (b.visAt k)) b.regs.com
      late := b.regs.committed b.t7 mine
      dirty := b.regs.dirty.filter (fun k => keyBlk k != blk) } }

/-- A register whose set was committed in this cycle: it is no part of a hand-over of this cycle (R109, R202, R263 and their like). -/
def Block.lateSet (b : Block) (k : Nat) : Option (Nat × Option Word) :=
  if b.regs.late.1 = b.t7 then b.regs.late.2.find? (fun e => e.1 == k) else none

/-- Sets that hand over in the cycle after their commit: they wait for nothing else. -/
def Block.ripen (b : Block) (p : Nat → Bool) : Block :=
  { b with regs := { b.regs with late := (b.regs.late.1, b.regs.late.2.filter (fun e => !p e.1)) } }

/-- Whether a block has committed sets that wait (SHADOW_PENDING). -/
def Block.comAny (b : Block) (blk : Nat) : Bool := b.regs.com.any (fun e => keyBlk e.1 == blk)

/-- Whether an instance has. -/
def Block.comInst (b : Block) (blk space inst : Nat) : Bool :=
  b.regs.com.any (fun e => keyBlk e.1 == blk && keySpace e.1 == space && keyInst e.1 == inst)

/-- The waiting sets that a hand-over takes: of a set committed in this cycle, what waited before it. -/
def Block.comSets (b : Block) (p : Nat → Bool) : Tbl Word :=
  (b.regs.com.filter (fun e => p e.1)).filterMap (fun e =>
    match b.lateSet e.1 with
    | none => some e
    | some (_, o) => o.map (fun w => (e.1, w)))

/-- Waiting sets dropped; those of this cycle go on waiting. -/
def Block.dropCom (b : Block) (p : Nat → Bool) : Block :=
  { b with regs := { b.regs with
      com := b.regs.com.filter (fun e => !p e.1 || (b.lateSet e.1).isSome)
      late := (b.regs.late.1, b.regs.late.2.map (fun e => if p e.1 then (e.1, none) else e)) } }

/-- Keys noted for the cycle they belong to. -/
def noteKeys (l : Nat × List Nat) (t : Nat) (ks : List Nat) : Nat × List Nat := (t, ks.foldl setIns (if l.1 = t then l.2 else []))

/-- Whether two registers belong to one shadow set: the same block, space and instance. -/
def sameSet (k j : Nat) : Bool := k / 65536 == j / 65536

/-- Shadow writes of the cycle of their hand-over: they wait for the following one without another COMMIT, and no hand-over of this cycle takes
them (R109, R173, R232, R263 and their like). -/
def Block.promote (b : Block) (ks : List Nat) : Block :=
  { b with regs := { b.regs with
      com := ks.foldl (fun c k => Tbl.ins c k (b.visAt k)) b.regs.com
      late := (b.t7, ks.foldl (fun (l : Tbl (Option Word)) k => Tbl.ins l k none) (if b.regs.late.1 = b.t7 then b.regs.late.2 else []))
      dirty := b.regs.dirty.filter (fun k => !ks.contains k) } }

/-- The sets of a hand-over noted, and the writes that met it in its own cycle put to wait. -/
def Block.handedOver (b : Block) (sets : Tbl Word) : Block :=
  let b := { b with regs := { b.regs with handed := noteKeys b.regs.handed b.t7 (sets.map (fun (e : Nat × Word) => e.1)) } }
  let now := if b.regs.wrote.1 = b.t7 then b.regs.wrote.2 else []
  b.promote (b.regs.dirty.filter (fun k => now.contains k && sets.any (fun e => sameSet k e.1)))

/-- Values copied to the active registers. -/
def Block.adopt (b : Block) (sets : Tbl Word) : Block :=
  { b with regs := { b.regs with act := sets.foldl (fun a e => Tbl.put a e.1 e.2 (Reg.rstOf e.1)) b.regs.act } }

/-- The groups of waiting sets that stand together: those that fail are left out and the rest is checked again, so that a
set that passes only together with a rejected one is rejected too (R110). -/
def Block.settle (b : Block) (sets : Tbl Word) (group : Nat → Nat) (ok : Block → Tbl Word → Bool) :
    Nat → List Nat → List Nat
  | 0, keep => keep
  | n + 1, keep =>
    let after := b.adopt (sets.filter (fun e => keep.contains (group e.1)))
    Block.settle b sets group ok n (keep.filter (fun g =>
      let mine := sets.filter (fun e => group e.1 == g)
      mine.all (fun e => Reg.rangeOk e.1 e.2) && ok after mine))

/-- The RWS bits of a stored register. -/
def Reg.rwsMask (key : Nat) : Word :=
  match Reg.find (keyBlk key) (keySpace key) (keyOff key) with
  | some (d, _) => w32 (d.mask (· == .rws))
  | none => 0

/-- The RWS fields of a rejected set keep their old values, in the shadow too, but for one written or committed again since. -/
def Block.unshadow (b : Block) (sets : Tbl Word) : Block :=
  { b with regs := { b.regs with vis := sets.foldl (fun v e =>
      if b.regs.dirty.contains e.1 || (b.lateSet e.1).isSome then v
      else
        let m := Reg.rwsMask e.1
        let r := Reg.rstOf e.1
        Tbl.put v e.1 ((Tbl.get v e.1 r &&& ~~~m) ||| (Tbl.get b.regs.act e.1 r &&& m)) r) b.regs.vis } }

/-- A hand-over of the waiting sets that `p` takes, group by group: a group that passes its check is copied to active,
the others are not copied and are reported by `reject` with a member of the group. -/
def Block.handover (b : Block) (p : Nat → Bool) (group : Nat → Nat) (ok : Block → Tbl Word → Bool)
    (reject : Block → Nat → Block) : Block :=
  let sets := b.comSets p
  let groups := sets.foldl (fun g e => if g.contains (group e.1) then g else g ++ [group e.1]) ([] : List Nat)
  let keep := b.settle sets group ok (groups.length + 1) groups
  let b := ((b.dropCom p).adopt (sets.filter (fun e => keep.contains (group e.1)))).handedOver sets
  groups.foldl (fun b g =>
    if keep.contains g then b
    else
      let mine := sets.filter (fun e => group e.1 == g)
      match mine with
      | e :: _ => reject (b.unshadow mine) e.1
      | [] => b) b

/-- An LCK register that takes no further write. -/
def Block.lockKey (b : Block) (key : Nat) : Block := { b with regs := { b.regs with locked := setIns b.regs.locked key } }

/-- A register of a committed set, as the image of a checkpoint brings it. -/
def Block.setCom (b : Block) (key : Nat) (w : Word) : Block := { b with regs := { b.regs with com := Tbl.ins b.regs.com key w } }

/-- A shadow write, whose value the register already shows: to be committed, or, where its set has handed over in this cycle, waiting for the
following hand-over. -/
def Block.markDirty (b : Block) (key : Nat) : Block :=
  let b := { b with regs := { b.regs with dirty := setIns b.regs.dirty key, wrote := noteKeys b.regs.wrote b.t7 [key] } }
  if b.regs.handed.1 = b.t7 ∧ b.regs.handed.2.any (sameSet key) = true then b.promote [key] else b

end Sys2Proof.Machine
end

