-- ==== Sys2Proof/Machine/TimeOps.lean ====
section
/-! DEFINITION. What the time bases say at an instant: the error estimate, the slot times, the leap table (R11, R252, R256). -/

namespace Sys2Proof.Machine

/-! ### The error estimate (R252), in ps -/

/-- The mean of the offset window, in ps. -/
def TimeBase.mean (x : TimeBase) : Int := if x.win = [] then 0 else x.win.foldl (· + ·) 0 * 1000 / x.win.length

/-- The RMS deviation of the offset window, in ps. -/
def TimeBase.dev (x : TimeBase) : Nat :=
  if x.win = [] then 0
  else
    let m := x.mean
    isqrt ((x.win.foldl (fun a v => a + (v * 1000 - m) * (v * 1000 - m)) 0).toNat / x.win.length)

/-- E = E₀ + HO_DRIFT × t + HO_WANDER × t² ÷ 2, none while unknown; t in ns. -/
def Block.errHold (b : Block) (n : Nat) : Option Nat :=
  let x := b.tb n
  match x.e0, x.lastExt with
  | some e, some l =>
    let t := b.t7 - l
    some (e + b.cf Reg.TIM_TB_HO n 31 16 * 100 * t / nsPerS + b.cf Reg.TIM_TB_HO n 15 0 * t * t / (2 * nsPerS * nsPerS))
  | _, _ => none

/-- The source error E_src of a time base whose source is another time base is that time base's E (R252). -/
def Block.errFrom (b : Block) (n e : Nat) : Nat :=
  let x := b.tb n
  e + x.mean.natAbs + 2 * x.dev

/-- The estimated error of a time base that takes no other time base as its source. -/
def Block.errOwn (b : Block) (n : Nat) : Option Nat :=
  let x := b.tb n
  if x.src ≠ 0 ∧ x.refill = false ∧ x.win ≠ [] then some (b.errFrom n x.eSrc) else b.errHold n

/-- The estimated error E of a time base in ps, none while unknown (R252). -/
def Block.tbErr (b : Block) (n : Nat) : Option Nat :=
  let x := b.tb n
  if x.src ≠ 0 ∧ x.refill = false ∧ x.win ≠ [] then
    if n = 0 ∧ 1 ≤ x.src ∧ x.src ≤ 4 then (b.errOwn x.src).map (b.errFrom n)
    else if n = 0 ∧ x.src = 8 then (b.errOwn 6).map (b.errFrom n)
    else some (b.errFrom n x.eSrc)
  else b.errHold n

/-- LOCK_LIM in ps. -/
def Block.lockLim (b : Block) (n : Nat) : Nat := b.cf Reg.TIM_TB_LOCK n 16 0 * 1000

/-- E is known and within LOCK_LIM. -/
def Block.errOk (b : Block) (n : Nat) : Bool :=
  match b.tbErr n with
  | some e => decide (e ≤ b.lockLim n)
  | none => false

/-- TIM.TB_ERR: E in ns, rounded up. -/
def Block.tbErrReg (b : Block) (n : Nat) : Nat :=
  match b.tbErr n with
  | some e => min (ceilDiv e 1000) 0xFFFFFFFE
  | none => 0xFFFFFFFF

def TbState.code : TbState → Nat
  | .off => 0
  | .freerun => 1
  | .acquiring => 2
  | .locked => 3
  | .holdover => 4
  | .unlocked => 5

/-! ### Slot times (R11) -/

/-- Slot time k of second S: S + round(k × 10⁹ ÷ rate) ns; the slots are numbered over all seconds. -/
def slotTime (rate n : Nat) : Nat := if rate = 0 then 0 else n / rate * nsPerS + (2 * (n % rate) * nsPerS + rate) / (2 * rate)

/-- The rate of a ring (0 main, 1 slow), in frames per second. -/
def Block.ringRate (b : Block) (r : Nat) : Nat := fld (b.cfg Reg.ALN_RING_RATE 0 r) 7 0

/-- The basin period, rounded up to the next ns (Table 4.1). -/
def Block.period (b : Block) (r : Nat) : Nat := if b.ringRate r = 0 then 0 else ceilDiv nsPerS (b.ringRate r)

/-- The first slot number whose slot time is later than an instant. -/
def slotAfter (rate t : Nat) : Nat :=
  if rate = 0 then 0
  else
    let n := t * rate / nsPerS
    if slotTime rate n > t then n else if slotTime rate (n + 1) > t then n + 1 else n + 2

/-- The slot number nearest to an instant. -/
def slotNear (rate t : Nat) : Nat :=
  if rate = 0 then 0
  else
    let a := slotAfter rate t
    if a = 0 then 0 else if t - slotTime rate (a - 1) ≤ slotTime rate a - t then a - 1 else a

/-! ### The leap table (R256, R257) -/

/-- TAI − UTC in force at a TAI second: past the table's expiry the last value stays. -/
def Block.taiUtc (b : Block) (sec : Nat) : Int :=
  b.tim.leaps.foldl (fun a e => if e.1 ≤ min sec b.tim.leapExpiry then e.2 else a) 0

/-- The C37.118 SOC of a TAI second: an inserted leap second carries the SOC of the second before it again. -/
def Block.socOf (b : Block) (sec : Nat) : Nat :=
  ((sec : Int) - b.taiUtc sec).toNat % 4294967296

/-- The TAI second that carries a UTC SOC, of several the one nearest an instant (R257); a SOC that no second carries, which an omitted leap
second leaves out, is taken by the offset of that instant. -/
def Block.secOfSoc (b : Block) (soc near : Nat) : Nat :=
  let far (s : Nat) : Nat := max s near - min s near
  let offs := 0 :: b.tim.leaps.map (·.2)
  match (offs.map (fun o => ((soc : Int) + o).toNat)).filter (fun s => b.socOf s == soc % 4294967296) with
  | [] => ((soc : Int) + b.taiUtc near).toNat
  | s :: r => r.foldl (fun a s => if far s < far a then s else a) s

/-- The next entry of the table after a TAI second. -/
def Block.leapNext (b : Block) (sec : Nat) : Option (Nat × Int) := b.tim.leaps.find? (fun e => decide (sec < e.1))

/-- TB0 flagged time-unlocked (R118's condition): ACQUIRE, or E unknown or above the lock criterion. -/
def Block.timeUnlocked (b : Block) : Bool := b.sys.mode == .acquire || !b.errOk 0

/-- The least n with p, between lo (without p) and hi (with it), by `f` halvings. -/
def firstFrom (p : Nat → Bool) : Nat → Nat → Nat → Nat
  | 0, _, hi => hi
  | f + 1, lo, hi =>
    let m := (lo + hi) / 2
    if hi ≤ lo + 1 then hi else if p m then firstFrom p f lo m else firstFrom p f m hi

/-- TB7 of the instant from which TB0 has been unlocked, for a condition that nothing noted before: the growing error passed the lock
criterion by itself, or the condition begins now (R118, R252). -/
def Block.unlockedSince (b : Block) : Nat :=
  let passed (t : Nat) : Bool := match ({ b with t7 := t } : Block).errHold 0 with | some e => decide (b.lockLim 0 < e) | none => false
  match (b.tb 0).lastExt with
  | some l =>
    if b.sys.mode = .acquire ∨ b.tbErr 0 ≠ b.errHold 0 ∨ passed b.t7 = false then b.t7 else if passed l then l else firstFrom passed 80 l b.t7
  | none => b.t7

/-- The first instant of the unlocked condition kept, or forgotten when the condition has ended (R118). -/
def Block.noteUnlocked (b : Block) : Block :=
  let u := if b.timeUnlocked then some (b.out.unlockedAt.getD b.unlockedSince) else none
  { b with out := { b.out with unlockedAt := u } }

/-- A change of the time bases, with the instants of R118 noted. -/
def Block.timed (b : Block) (f : Block → Block) : Block := (f b.noteUnlocked).noteUnlocked

end Sys2Proof.Machine
end

