-- ==== Sys2Proof/Machine/ViewA.lean ====
section
/-! DEFINITION. Read-only registers that show the state of SYS, PWR, KEY, TAM, ACC, EVR, TIM, ALN, MEM, DMA and QUE. -/

namespace Sys2Proof.Machine

/-- SYS.DEGRADE_CAUSE (Table 18.3). -/
def Block.degradeCause (b : Block) : Nat := b2n b.sys.degDma + 2 * b2n b.sys.degSelftest + 4 * b2n b.sys.degHoldup

/-- SYS registers (Table 19.4); W1C and RW registers are stored. -/
def Block.viewSys (b : Block) (off : Nat) : Option Nat :=
  match off with
  | 0x408 => some (0x48100000 + (if b.sys.variantW then 2 else 1) * 256 + Config.dieRev % 256)
  | 0x40C => some (b2n b.sys.zeroised * 2 ^ 31 + b2n b.sys.paired * 2 ^ 30 + b2n b.sys.cascade * 2 ^ 29
      + b2n b.sys.trial * 2 ^ 28 + fld (b.vis Reg.SYS_STATUS) 27 27 * 2 ^ 27)
  | 0x410 => some b.sys.mode.code
  | 0x418 => some b.degradeCause
  | 0x41C => some b.sys.lastHaltCause
  | 0x420 => some b.sys.selftestResult
  | 0x424 => some b.sys.loadResult
  | 0x434 => some b.sys.tuneResult
  | 0x438 => some (b.sys.tuneCounter % 2 ^ 32)
  | 0x43C => some (b.sys.tuneCounter / 2 ^ 32 % 2 ^ 32)
  | 0x444 => some (b.sys.bank * 2 ^ 31 + b2n b.sys.trial * 2 ^ 30 + b.sys.imgResult)
  | 0x45C => some b.sys.straps
  | 0x460 => some (b.t7 / 1000 % 2 ^ 32)
  | 0x464 => some (b.t7 / 1000 / 2 ^ 32 % 2 ^ 32)
  | 0x4A0 => some (b2n b.sys.qspi.isSome * 2 ^ 31 + b.sys.qspiResult)
  | _ => none

/-- PWR registers (Table 18.12). -/
def Block.viewPwr (b : Block) (off : Nat) : Option Nat :=
  match off with
  | 0x40C => some (b2n b.pwr.pfWarn * 2 ^ 31 + b2n b.pwr.thermWarn * 2 ^ 30 + b2n b.pwr.holdupLow * 2 ^ 29
      + b2n b.pwr.supplyGood * 2 ^ 28 + b2n b.pwr.testRun.isSome * 2 ^ 27)
  | 0x414 => some ((BitVec.ofInt 16 b.pwr.temp).toNat)
  | 0x418 => some ((BitVec.ofInt 16 (b.pwr.tempMax.getD 0)).toNat)
  | 0x41C => some (b.pwr.holdupUs % 65536)
  | 0x420 => some (b.pwr.vin % 65536)
  | _ => none

def Block.slot (b : Block) (i : Nat) : KeySlot := Tbl.get b.key.slots i KeySlot.empty

/-- The key of a slot as its algorithm takes it: the first 16 bytes of the key field, or all 32 (Table 16.2). -/
def KeySlot.bytes (k : KeySlot) : List Byte := leBytes (if k.len256 then 32 else 16) k.key

/-- A public-key slot: PK0 and PK1 from OTP unless PK1 was replaced (R398). -/
def Block.pk (b : Block) (n : Nat) : Nat :=
  if n = 0 then Config.pk0 else Tbl.get b.key.pk n (if n = 1 then Config.pk1 else 0)

/-- KEY registers (Table 16.8). -/
def Block.viewKey (b : Block) (space inst off : Nat) : Option Nat :=
  if space = 0 then
    let s := b.slot inst
    match off with
    | 0x40 => some (b2n s.valid * 2 ^ 31 + b2n s.len256 * 2 ^ 30 + s.attr % 65536)
    | 0x44 => some s.id
    | 0x48 => some (s.gen % 65536)
    | _ => none
  else if 0x410 ≤ off ∧ off < 0x420 then some (Config.deviceId / 2 ^ (8 * (off - 0x410)) % 2 ^ 32)
  else if 0x500 ≤ off ∧ off < 0x700 then
    some (b.pk ((off - 0x500) / 64) / 2 ^ (8 * ((off - 0x500) % 64)) % 2 ^ 32)
  else match off with
    | 0x40C => some (b2n b.key.testRoot * 2 ^ 31 + b2n b.key.epoch.isSome * 2 ^ 30 + b2n b.key.debugOpen * 2 ^ 29)
    | 0x42C => some (b2n b.key.waiting.isSome * 2 ^ 31 + b.key.result)
    | 0x430 => some (b.key.counter % 2 ^ 32)
    | 0x434 => some (b.key.counter / 2 ^ 32 % 2 ^ 32)
    | _ => none

/-- TAM registers. -/
def Block.viewTam (b : Block) (off : Nat) : Option Nat :=
  match off with
  | 0x408 => some b.tam.cfg
  | 0x40C => some (b.tam.asserted.foldl (fun a i => a + 2 ^ (8 + i)) 0 + (match b.tam.lastSrc with | some i => 2 ^ i | none => 0))
  | _ => none

/-- ACC registers. -/
def Block.viewAcc (b : Block) (space inst off : Nat) : Option Nat :=
  if space = 1 then (if off = 0x44 then some (b2n (b.acc.frozen.contains inst) * 2 ^ 31) else none)
  else match off with
    | 0x410 => some b.acc.lastViol.1
    | 0x414 => some b.acc.lastViol.2.1
    | 0x418 => some b.acc.lastViol.2.2.1
    | 0x41C => some b.acc.lastViol.2.2.2
    | _ => none

/-- EVR registers (Table 17.3). -/
def Block.viewEvr (b : Block) (off : Nat) : Option Nat :=
  match off with
  | 0x40C => some (b2n (b.comAny Blk.evr) * 2 ^ 31 + b2n b.evr.frozenAt.isSome * 2 ^ 30
      + fld (b.vis Reg.EVR_STATUS) 29 29 * 2 ^ 29
      + b2n (match b.evr.unlockAt with | some u => decide (b.t7 ≤ u + 100000) | none => false) * 2 ^ 28
      + b2n b.evr.ready * 2 ^ 27 + b.evr.held.length)
  | 0x418 => some (b.evr.seq % 2 ^ 32)
  | 0x41C => some b.evr.lastHead
  | 0x420 => some b.evr.firstCount
  | _ => none

def Block.poState (b : Block) (i : Nat) : PulseOut := Tbl.get b.tim.po i PulseOut.reset

def Block.pdState (b : Block) (i : Nat) : PeerDelay := Tbl.get b.tim.pd i PeerDelay.reset

def Block.ptpState (b : Block) (i : Nat) : PtpPort := Tbl.get b.tim.ptp i PtpPort.reset

/-- meanLinkDelay: the mean of the last results, in 2⁻⁸ ns (R248). -/
def PeerDelay.mean (p : PeerDelay) : Int := if p.results = [] then 0 else p.results.foldl (· + ·) 0 / p.results.length

/-- The error of a link delay: half the spread of the last 8 results. -/
def PeerDelay.err (p : PeerDelay) : Nat :=
  match p.results with
  | [] => 0
  | r :: rs => ((rs.foldl max r - rs.foldl min r) / 2).toNat

/-- SRC0 to SRC3 of a time base (Table 9.2). -/
def Block.srcCode (b : Block) (n i : Nat) : Nat := bits (b.cn Reg.TIM_TB_CFG n) (23 - 4 * i) (20 - 4 * i)

/-- The PTP port state that PTP_STATUS shows; FAULTY is a slave whose port's link is down (PRESUMED of IEEE 1588, log entry 118). -/
def Block.ptpCode (b : Block) (n : Nat) : Nat :=
  if b.cb Reg.TIM_PTP_CFG n 31 = false then 0
  else if (Tbl.get b.prt (b.cf Reg.TIM_PTP_CFG n 28 24) PrtPort.reset).up = false then 4
  else max 1 (b.ptpState n).st

/-- TIM registers (Table 9.7). TB_STATUS holds its reset value until an image is applied, that of TB7 always (R10). -/
def Block.viewTim (b : Block) (space inst off : Nat) : Option Nat :=
  let sec := b.now / nsPerS
  if space = 0 then
    let x := b.tb inst
    let en := inst = 0 ∨ inst = 7 ∨ b.cb Reg.TIM_TB_CFG inst 31 = true ∨ b.sys.imageApplied = false
    let p := b.ptpState inst
    match off with
    | 0x40 => if inst = 0 ∨ inst = 7 then some ((b.vis Reg.TIM_TB_CFG inst ||| 0x80000000#32).toNat) else none
    | 0x44 => some ((if en then (if inst = 7 then 1 else x.st.code) else 0) * 2 ^ 29 + b2n x.virtual * 2 ^ 28 + b2n x.reacq * 2 ^ 27
        + x.src * 2 ^ 20 + (List.range 4).foldl (fun a i => a + b2n (x.qual.contains (b.srcCode inst i)) * 2 ^ (16 + i)) 0)
    | 0x48 => some (b.tbErrReg inst)
    | 0x4C => some ((BitVec.ofInt 32 (clampI (-2147483647) 2147483647 x.x)).toNat)
    | 0x50 => some (sat32 x.rho)
    | 0x54 => some (sat32 x.rratio)
    | 0x58 => some (b.tbNow inst % nsPerS)
    | 0x5C => some (x.latchSec % 2 ^ 32)
    | 0x60 => some (x.latchSec / 2 ^ 32 % 65536)
    | 0x64 => some x.latchNs32
    | 0xA4 => some (p.gm % 2 ^ 32)
    | 0xA8 => some (p.gm / 2 ^ 32 % 2 ^ 32)
    | 0xAC => some (b.ptpCode inst * 2 ^ 28 + p.clockClass * 2 ^ 16 + p.accuracy * 256 + b2n p.ttiPresent)
    | 0xB0 => some (p.utcOffset % 65536 * 65536 + 2 * b2n p.leap61 + b2n p.leap59)
    | _ => none
  else if space = 1 then
    let p := b.poState inst
    match off with
    | 0x5C => some (b2n p.armed * 2 ^ 31 + fld (b.vis Reg.TIM_PO_STATUS inst) 30 30 * 2 ^ 30
        + b2n (b.comInst Blk.tim 1 inst) * 2 ^ 29)
    | 0x60 => some (ns32 (p.nextEdge.getD 0))
    | _ => none
  else if space = 2 then
    let p := b.pdState inst
    match off with
    | 0x44 => some (sat32 p.mean)
    | 0x48 => some (sat32 p.nrr)
    | 0x4C => some (b2n p.valid * 2 ^ 31 + min p.err 0xFFFFFF)
    | _ => none
  else match off with
    | 0x40C => some (b2n (b.comAny Blk.tim) * 2 ^ 31 + b2n b.tim.leapExpired * 512 + b2n (decide (b.tim.leapBad ≠ [])) * 256
        + (List.range 8).foldl (fun a i => a + b2n ((b.tb i).st == .locked && i != 7) * 2 ^ i) 0)
    | 0x414 => some (2 * b2n b.tim.ref10Present + b.tim.oscActive)
    | 0x434 => some (b2n b.tim.tin.irigValid * 2 ^ 31 + b2n b.tim.tin.todValid * 2 ^ 30 + b2n b.tim.tin.ppsPresent * 2 ^ 29
        + b.tim.tin.irigTq % 16 * 256 + b.tim.tin.irigFmt % 8)
    | 0x438 => some ((BitVec.ofInt 16 (b.taiUtc sec)).toNat)
    | 0x43C => some (match b.leapNext sec with | some e => e.1 % 2 ^ 32 | none => 0)
    | 0x440 => some (match b.leapNext sec with | some e => e.1 / 2 ^ 32 | none => 0)
    | 0x444 => some (match b.leapNext sec with | some e => b2n (decide (b.taiUtc sec < e.2)) | none => 0)
    | _ => none

def Block.ring (b : Block) (r : Nat) : Ring := Tbl.get b.aln.rings r Ring.reset

def Block.alnCtx (b : Block) (c : Nat) : AlnCtx := Tbl.get b.aln.ctx c AlnCtx.reset

/-- The DEPTH of a ring (Table 4.1). -/
def Block.depth (b : Block) (r : Nat) : Nat := fld (b.cfg Reg.ALN_RING_CFG 0 r) 9 0

/-- The expected contexts marked: at weir A, or so far before it (R105). -/
def Basin.countA (x : Basin) : Nat := if x.st = .opened then popcount (x.bmp &&& x.expected) else x.arrivedA

/-- The expected contexts marked: at weir B, or so far before it (R105). -/
def Basin.countB (x : Basin) : Nat :=
  if x.st = .opened ∨ x.st = .alarmClosed then popcount (x.bmp &&& x.expected) else x.arrivedB

/-- The basin at a ring position. -/
def Block.basinAt (b : Block) (r p : Nat) : Basin := Tbl.get (b.ring r).pos p Basin.reset

/-- The codes of Table 4.2. -/
def BState.code : BState → Nat
  | .free => 0
  | .opened => 1
  | .alarmClosed => 2
  | .outputClosed => 3
  | .retained => 4

/-- Whether a context's waits are kept with it; a main-ring context without a history has the ring's. -/
def Block.ownWaits (b : Block) (c : Nat) : Bool := b.cb Reg.STR_CTX_CTRL c 29 || b.aln.ctx.any (fun e => e.1 == c)

/-- ALN registers (Table 4.8). `m` reads its own BSN_BMP_IDX. -/
def Block.viewAln (b : Block) (space inst off m : Nat) : Option Nat :=
  if space = 0 then
    let c := b.alnCtx inst
    if 0x80 ≤ off ∧ off < 0xC0 then some (c.hist.getD ((off - 0x80) / 4) 0)
    else match off with
      | 0x4C => some (b2n c.silent * 2 ^ 31 + b2n (decide (c.seen < 256)) * 2 ^ 30 + b2n (b.comInst Blk.aln 0 inst) * 2 ^ 29
          + fld (b.vis Reg.ALN_CTX_STATE inst) 28 28 * 2 ^ 28 + c.missRun * 65536 + c.seen)
      | 0x50 => some (if b.ownWaits inst then c.wA else (b.ring 0).w0A)
      | 0x54 => some (if b.ownWaits inst then c.wB else (b.ring 0).w0B)
      | _ => none
  else if space = 1 ∨ space = 2 then
    let r := space - 1
    if inst < b.depth r then
      let x := b.basinAt r inst
      match off with
      | 0x40 => some (x.st.code * 2 ^ 29 + b2n x.lateClosed * 2 ^ 28 + b2n x.archiving * 2 ^ 27 + b2n x.forcedFree * 2 ^ 26
          + b2n x.spaced * 2 ^ 25 + x.causeA * 2 ^ 22 + x.causeB * 2 ^ 20 + r * 256 + x.k)
      | 0x44 => some x.seq
      | 0x48 => some x.soc
      | 0x4C => some (sat32 x.waOff)
      | 0x50 => some (sat32 x.wbOff)
      | 0x54 => some (popcount x.expected * 65536 + x.countA)
      | 0x58 => some (x.countB * 65536 + x.lateFilled)
      | 0x5C => some x.unexpected
      | 0x64 => some (bits x.bmp.toNat (32 * fld (b.vis Reg.ALN_BSN_BMP_IDX m) 7 0 + 31) (32 * fld (b.vis Reg.ALN_BSN_BMP_IDX m) 7 0))
      | _ => none
    else some 0
  else if space = 3 then
    match off with
    | 0x44 => let p := Tbl.get b.aln.partLast inst (0, 0); some (p.1 * 65536 + p.2)
    | _ => none
  else match off with
    | 0x40C => some (b2n (b.comAny Blk.aln) * 2 ^ 31 + 2 * b2n (b.ring 1).run + b2n (b.ring 0).run)
    | 0x410 => some (((b.ring 0).nextSeq + 2 ^ 32 - 1) % 2 ^ 32 * b2n (b.ring 0).started)
    | 0x414 => some (((b.ring 1).nextSeq + 2 ^ 32 - 1) % 2 ^ 32 * b2n (b.ring 1).started)
    | _ => none

def Block.munit (b : Block) (m : Nat) : MemUnit := Tbl.get b.mm.units m MemUnit.reset

/-- The spares of a memory (Table 13.1): in each array, and in all. -/
def Mem.spares (m : Nat) : Nat × Nat :=
  match m with
  | 0 => (4, 384)
  | 1 => (4, 768)
  | 2 => (4, 128)
  | 3 => (4, 40)
  | 4 => (4, 32)
  | 5 => (4, 128)
  | 6 => (4, 256)
  | 7 => (4, 64)
  | 8 => (4, 80)
  | 9 => (64, 64)
  | _ => (0, 0)

/-- The words, or lines of DRAM, of a memory (Table 13.1). -/
def Mem.size (m : Nat) : Nat :=
  match m with
  | 0 => 786432
  | 1 => 1572864
  | 2 => 262144
  | 3 => 81920
  | 4 => 65536
  | 5 => 262144
  | 6 => 524288
  | 7 => 131072
  | 8 => 163840
  | 9 => 536870912
  | _ => 0

/-- MEM registers (Table 13.6). -/
def Block.viewMem (b : Block) (space inst off : Nat) : Option Nat :=
  if space = 0 then
    let u := b.munit inst
    if 0x80 ≤ off ∧ off < 0xC0 then
      some (match u.track[(off - 0x80) / 4]? with | some e => e.2 * 2 ^ 30 + e.1 | none => 0)
    else match off with
      | 0x44 => some (b2n u.starved * 2 ^ 31 + b2n u.forced * 2 ^ 30 + b2n (b.cb Reg.MEM_SCRUB_CFG inst 31) * 2 ^ 29
          + ((Mem.spares inst).2 - u.remaps.length))
      | 0x48 => some (min u.lapMs 0xFFFFFFFF)
      | 0x4C => some (u.lastCe % 2 ^ 32)
      | 0x50 => some (u.lastCe / 2 ^ 32)
      | 0x54 => some (u.lastUe % 2 ^ 32)
      | 0x58 => some (u.lastUe / 2 ^ 32)
      | _ => none
  else match off with
    | 0x40C => some (b2n (b.comAny Blk.mem) * 2 ^ 31 + (List.range 10).foldl (fun a m => a + b2n (b.munit m).forced * 2 ^ m) 0)
    | _ => none

def Block.dmaCh (b : Block) (c : Nat) : DmaCh := Tbl.get b.dma.ch c DmaCh.reset

def DmaState.code : DmaState → Nat
  | .idle => 0
  | .pending => 1
  | .running => 2
  | .halted => 3
  | .frozen => 4

/-- The channels a block owns (Table 13.4); 16–31 are DMA-B's. -/
def Dma.owned (c : Nat) : Bool := decide (c < 12) || (decide (16 ≤ c) && decide (c < 21))

/-- DMA registers (Table 13.7). -/
def Block.viewDma (b : Block) (space inst off : Nat) : Option Nat :=
  if space = 0 then
    let c := b.dmaCh inst
    match off with
    | 0x70 => some (c.st.code * 2 ^ 29 + b2n (b.comInst Blk.dma 0 inst) * 2 ^ 28 + b2n c.poison * 2 ^ 27
        + b2n (b.sys.imageApplied && Dma.owned inst) * 2 ^ 26 + c.err * 65536)
    | 0x74 => some c.done
    | _ => none
  else match off with
    | 0x408 => some (b2n (b.dma.frozen.contains 1) * 2 ^ 17 + b2n (b.dma.frozen.contains 0) * 2 ^ 16
        + ((Tbl.get b.dma.running 1 none).getD 0) % 16 * 16 + ((Tbl.get b.dma.running 0 none).getD 0) % 16)
    | _ => none

def Block.queue (b : Block) (q : Nat) : Queue := Tbl.get b.que q Queue.reset

/-- The capacity of a queue in items. -/
def Block.qcap (b : Block) (q : Nat) : Nat := 64 * fld (b.vis Reg.QUE_CFG q) 28 16

def Block.qen (b : Block) (q : Nat) : Bool := bit (b.vis Reg.QUE_CFG q).toNat 31

/-- The LEVEL of a queue in items; Q4 holds the recorder's held entries, 8 items each (R421). -/
def Block.qlevel (b : Block) (q : Nat) : Nat := (if q = 4 then 8 * b.evr.held.length else 0) + (b.queue q).items.length

/-- A queue's interrupt source (R351). -/
def Block.qmark (b : Block) (q : Nat) : Bool := b.qen q && decide ((b.vis Reg.QUE_WMARK q).toNat ≤ b.qlevel q)

/-- QUE registers (Table 13.8). -/
def Block.viewQue (b : Block) (space inst off : Nat) : Option Nat :=
  if space = 0 then
    let q := b.queue inst
    match off with
    | 0x44 => some (b2n (decide (b.qcap inst ≤ b.qlevel inst) && b.qen inst) * 2 ^ 31 + fld (b.vis Reg.QUE_STATUS inst) 30 30 * 2 ^ 30
        + b2n (b.qlevel inst == 0) * 2 ^ 29 + b2n q.flushPending * 2 ^ 28 + b2n q.breakPending * 2 ^ 27 + b2n (q.pktOpen || q.discarding) * 2 ^ 26
        + b2n (b.sys.imageApplied && decide (8 ≤ inst)) * 2 ^ 25 + b.qlevel inst)
    | _ => none
  else match off with
    | 0x408 => some ((List.range 32).foldl (fun a i => a + b2n (b.qmark i) * 2 ^ i) 0)
    | 0x40C => some ((List.range 32).foldl (fun a i => a + b2n (b.qmark (i + 32)) * 2 ^ i) 0)
    | 0x410 => some ((List.range 64).foldl (fun a i => a + (if b.qen i then fld (b.vis Reg.QUE_CFG i) 28 16 else 0)) 0)
    | _ => none

end Sys2Proof.Machine
end

