-- ==== Sys2Proof/Machine/ViewB.lean ====
section
/-! DEFINITION. The records of the fabric, the archive, capture, measurement, the radio tier, the cascade, the pair and the engines, and
what their registers show. -/

namespace Sys2Proof.Machine

/-! ### The fabric -/

/-- Serial comparison of 16-bit tags: a older than c (R209). -/
def tagOlder (a c : Nat) : Bool := later 16 c a

def CoreState.code : CoreState → Nat
  | .idle => 0
  | .run => 1
  | .frozen => 2
  | .memFault => 3
  | .halted => 4

/-- An op of the graph, if it is present. -/
def Block.opDef (b : Block) (op : Nat) : Option OpDef := (b.dfe.graph.find? (fun e => e.1 == op)).map (·.2)

/-- The order of R211: priority class, then older tag, then lower op. -/
def Block.dispatchBefore (b : Block) (x y : Nat × Nat) : Bool :=
  let px := match b.opDef x.1 with | some d => d.prio | none => 3
  let py := match b.opDef y.1 with | some d => d.prio | none => 3
  decide (px < py) || (px == py && (tagOlder x.2 y.2 || (x.2 == y.2 && decide (x.1 < y.1))))

/-- The dispatch gap of 40 cycles at 1.2 GHz (R214), in whole ns. -/
def dispatchGap : Nat := 34

/-- A core that starts a firing of its queue at an instant, the dispatch gap included. -/
def Core.startsOn (x : Core) (g : Firing) (at7 : Nat) : Core :=
  { x with st := .run, running := some g, queue := x.queue.erase g, since := at7, lastOp := g.op, lastTag := g.tag }

/-- The first of some firings by the order of R211. -/
def Block.firstFiring (b : Block) : List Firing → Option Firing
  | [] => none
  | f :: fs => some (fs.foldl (fun a y => if b.dispatchBefore (y.op, y.tag) (a.op, a.tag) then y else a) f)

/-- An idle core starts, the dispatch gap after its first placement, the first of the firings it then holds (R213, R214). -/
def Block.coreStarts (b : Block) (x : Core) : Core :=
  match x.queue with
  | [] => x
  | f :: fs =>
    let t := fs.foldl (fun a y => min a y.placed) f.placed + dispatchGap
    if x.running.isSome ∨ x.out = true ∨ b.t7 < t then x
    else match b.firstFiring (x.queue.filter (fun y => decide (y.placed ≤ t))) with
      | some g => x.startsOn g t
      | none => x

/-- A fabric core as it stands now. -/
def Block.core (b : Block) (c : Nat) : Core := b.coreStarts (Tbl.get b.dfe.cores c Core.reset)

/-- The cores of the dispatch pool. -/
def Block.pool (b : Block) : List Nat := if b.sys.imageApplied then (List.range 48).filter (fun c => !(b.core c).out) else []

/-- The pool as a number. -/
def Block.poolBits (b : Block) : Nat := b.pool.foldl (fun a c => a + 2 ^ c) 0

/-- DFE registers. -/
def Block.viewDfe (b : Block) (space inst off : Nat) : Option Nat :=
  if space = 0 then
    match off with
    | 0x40 =>
      let x := b.core inst
      let op := match x.running with | some f => f.op | none => x.lastOp
      some (x.st.code * 2 ^ 29 + b2n (b.pool.contains inst) * 2 ^ 28 + x.queue.length * 2 ^ 16 + op)
    | _ => none
  else if space = 1 then
    match off with
    | 0x40 => some (match b.opDef inst with
      | none => 0
      | some d => 2 ^ 31 + b2n d.epoch * 2 ^ 30 + d.prio * 2 ^ 28 + d.ring * 2 ^ 27 + d.carry.foldl (fun a p => a + 2 ^ (23 + p)) 0 + d.libId % 65536)
    | _ => none
  else match off with
    | 0x40C => some (b2n (b.comAny Blk.dfe) * 2 ^ 31 + b.pool.length)
    | 0x410 => some b.dfe.gen
    | 0x41C => some (b.dfe.peak * 65536 + b.dfe.store.length)
    | 0x434 => some (b.poolBits % 2 ^ 32)
    | 0x438 => some (b.poolBits / 2 ^ 32)
    | _ => none

/-! ### The archive -/

def Block.grp (b : Block) (g : Nat) : CmpGroup := Tbl.get b.cmp.groups g CmpGroup.reset

def Block.cctx (b : Block) (c : Nat) : CmpCtx := Tbl.get b.cmp.ctxs c CmpCtx.reset

def Block.grpEn (b : Block) (g : Nat) : Bool := b.cb Reg.CMP_GRP_CFG g 31

/-- An address held in an active _LO and _HI pair. -/
def Block.cfgAddr (b : Block) (lo hi : RegDesc) (i : Nat) : Nat := b.cn lo i + b.cn hi i % 256 * 2 ^ 32

/-- The record size of a context in bytes. -/
def Block.recSize (b : Block) (c : Nat) : Nat := 64 * 2 ^ b.cf Reg.STR_CTX_CTRL c 26 25

/-- The members of a group: the set bits of its bitmap in DRAM. -/
def Block.grpCtxs (b : Block) (g : Nat) : List Nat :=
  let a := b.cfgAddr Reg.CMP_GRP_MAP_LO Reg.CMP_GRP_MAP_HI g
  (List.range 1024).flatMap (fun i =>
    let v := b.load8 (a + i)
    if v = 0 then [] else (List.range 8).filterMap (fun j => if v.getLsbD j then some (8 * i + j) else none))

/-- F: the frame length of a group (R355). -/
def Block.grpFrame (b : Block) (g : Nat) : Nat := (b.grpCtxs g).foldl (fun a c => a + b.recSize c) 1152

def Block.grpEnc (b : Block) (g : Nat) : Bool := b.cb Reg.CMP_GRP_CFG g 29

/-- The members of a group with their record sizes. -/
def Block.grpLayout (b : Block) (g : Nat) : List Nat := (b.grpCtxs g).map (fun c => b.recSize c * 65536 + c)

/-- The encryption of a group. -/
def Block.grpCipher (b : Block) (g : Nat) : Bool × Nat := (b.grpEnc g, b.cf Reg.CMP_GRP_CFG g 21 16)

/-- Whether a group's next frame is a key frame (R356): due, the KEY_N-th, or of another layout or encryption than the last. -/
def Block.keyDue (b : Block) (g : Nat) : Bool :=
  let x := b.grp g
  (b.cctx g).keyNext || decide (b.cn Reg.CMP_GRP_KEY_N g % 65536 ≤ x.sinceKey + 1) || x.layout != b.grpLayout g || x.cipher != b.grpCipher g

/-- The LOAD count in MRAM (R361). -/
def Block.loadCount (b : Block) : Nat := b.loadN 0x407F2000 4

/-- CMP registers. -/
def Block.viewCmp (b : Block) (space inst off : Nat) : Option Nat :=
  if space = 0 then
    match off with
    | 0x58 => some (if b.grpEn inst then b.grpFrame inst % 2 ^ 23 else 0)
    | 0x5C =>
      let x := b.grp inst
      let key := b.sys.imageApplied && b.keyDue inst
      some (x.st * 2 ^ 30 + b2n key * 2 ^ 29 + min 1023 x.queue.length)
    | _ => none
  else if space = 1 then
    let c := b.cctx inst
    match off with
    | 0x40 => some (b2n c.inUse * 2 ^ 31 + b2n c.suspended * 2 ^ 30)
    | 0x44 => some (c.seq % 2 ^ 32)
    | 0x48 => some (c.seq / 2 ^ 32 % 65536)
    | _ => none
  else match off with
    | 0x438 => some b.loadCount
    | 0x40C => some (b2n (b.comAny Blk.cmp) * 2 ^ 31 + (List.range 16).foldl (fun a g => a + b2n ((b.grp g).st == 2) * 2 ^ g) 0)
    | _ => none

/-! ### Capture, sigma-delta, energy -/

def Block.capU (b : Block) (u : Nat) : CapUnit := Tbl.get b.cap.units u CapUnit.reset

/-- CAP registers that show its state (Table 11.6). -/
def Block.viewCap (b : Block) (space inst off : Nat) : Option Nat :=
  if space = 0 then
    let x := b.capU inst
    match off with
    | 0xA0 => some (x.st * 2 ^ 29 + x.kept.length % 64 * 65536 + x.num)
    | _ => none
  else match off with
    | 0x40C => some (b2n (b.comAny Blk.cap) * 2 ^ 31 + (List.range 8).foldl (fun a u => a + b2n ((b.capU u).st == 2) * 2 ^ u) 0)
    | _ => none

def Block.sdmCh (b : Block) (c : Nat) : SdmCh := Tbl.get b.sdm.chans c SdmCh.reset

/-- Whether the modulator clocks run: from SDM's configuration at LOAD until HALT (R264). -/
def Block.mclkRuns (b : Block) : Bool := b.cb Reg.SDM_CFG 0 31 && b.sys.mode != .halt

/-- F_MCLK in Hz. -/
def Block.mclkHz (b : Block) : Nat := 640000 * b.cf Reg.SDM_CFG 0 17 12

/-- Where MCLK0 to MCLK3 stand: the whole periods since TB0's second began and the part of the period in progress in 10⁻⁹, 0 at a rising
edge, one of which falls on every whole second; nothing while the clocks do not run (R264). -/
def Block.mclkPhase (b : Block) : Option (Nat × Nat) :=
  if b.mclkRuns then some (b.now % nsPerS * b.mclkHz / nsPerS, b.now % nsPerS * b.mclkHz % nsPerS) else none

/-- Whether a channel runs. -/
def Block.sdmRuns (b : Block) (c : Nat) : Bool := b.mclkRuns && b.cb Reg.SDM_CH_CFG c 31

/-- SDM registers that show its state (Table 10.7). -/
def Block.viewSdm (b : Block) (space inst off : Nat) : Option Nat :=
  if space = 0 then
    let x := b.sdmCh inst
    match off with
    | 0x50 => some (b2n (decide (0 < x.settle)) * 2 ^ 31 + b2n x.fault * 2 ^ 30 +
        b2n (match x.ovrAt with | some a => decide (b.t7 < a + nsPerS) | none => false) * 2 ^ 29 +
        b2n (b.sdmRuns inst && b.cf Reg.SDM_CH_CFG inst 30 29 == 2 && !x.fault) * 2 ^ 28)
    | _ => none
  else if space = 1 then none
  else match off with
    | 0x40C => some (b2n (b.comAny Blk.sdm) * 2 ^ 31 + (List.range 16).foldl (fun a c => a + b2n (b.sdmCh c).fault * 2 ^ c) 0)
    | 0x418 => some (b.sdm.lastSync % nsPerS)
    | 0x41C => some (b.sdm.lastSync / nsPerS % 2 ^ 32)
    | 0x420 => some (b.sdm.lastSync / nsPerS / 2 ^ 32)
    | _ => none

def Block.nrgPt (b : Block) (p : Nat) : NrgPt := Tbl.get b.nrg.pts p NrgPt.reset

/-- The visible 64 bits of an accumulator. -/
def accVal (a : Nat) : Nat := a / 16777216 % 2 ^ 64

/-- ⌊ACC × NUM ÷ (DEN × 10^(n+3))⌋, before the counter's modulus. -/
def Block.cntFull (b : Block) (p a : Nat) : Nat :=
  let den := b.cn Reg.NRG_PT_RATIO_DEN p * 10 ^ (b.cf Reg.NRG_PT_CFG p 30 28 + 3)
  if den = 0 then 0 else accVal a * b.cn Reg.NRG_PT_RATIO_NUM p / den

/-- A visible counter. -/
def Block.cnt (b : Block) (p i : Nat) : Nat := b.cntFull p ((b.nrgPt p).acc.getD i 0) % 2 ^ 32

/-- NRG registers that show its state (Table 10.8); the HI and seconds words are those of the value itself. -/
def Block.viewNrg (b : Block) (space inst off : Nat) : Option Nat :=
  if space = 0 then
    let x := b.nrgPt inst
    if 0x100 ≤ off ∧ off < 0x180 then some (b.cnt inst ((off - 0x100) / 4))
    else if 0x200 ≤ off ∧ off < 0x300 then
      some (accVal (x.acc.getD ((off - 0x200) / 8) 0) / 2 ^ (8 * ((off - 0x200) % 8)) % 2 ^ 32)
    else if 0x300 ≤ off ∧ off < 0x400 then
      some ((Tbl.get b.nrg.snap inst []).getD ((off - 0x300) / 8) 0 / 2 ^ (8 * ((off - 0x300) % 8)) % 2 ^ 32)
    else match off with
      | 0x50 => some (b2n x.fallback * 2 ^ 31 + b2n b.nrg.frozen.isSome * 2 ^ 30 + b2n x.unmet * 2 ^ 29)
      | 0x5C => some x.wrap
      | 0x60 => some x.wrap2
      | _ => none
  else match off with
    | 0x40C => some (b2n (b.comAny Blk.nrg) * 2 ^ 31 + 2 * b2n b.nrg.frozen.isSome + b2n b.nrg.lost)
    | 0x414 => some (b.nrg.snapAt % nsPerS)
    | 0x418 => some (b.nrg.snapAt / nsPerS % 2 ^ 32)
    | 0x41C => some (b.nrg.snapAt / nsPerS / 2 ^ 32)
    | 0x424 => some b.nrg.seq
    | 0x428 => some b.nrg.resume
    | 0x42C => some (b.nrg.unmetered % nsPerS)
    | 0x430 => some (b.nrg.unmetered / nsPerS % 2 ^ 32)
    | 0x434 => some (b.nrg.unmetered / nsPerS / 2 ^ 32)
    | _ => none

/-! ### The radio tier -/

def Block.radNode (b : Block) (n : Nat) : RadNode := Tbl.get b.rad.nodes n RadNode.reset

def Block.radOn (b : Block) : Bool := b.cb Reg.RAD_CFG 0 31

def Block.radChild (b : Block) : Bool := b.cb Reg.RAD_CFG 0 30

/-- The slot length in ns. -/
def Block.radSlotNs (b : Block) : Nat := if b.cb Reg.RAD_CFG 0 29 then 25000000 else 10000000

def Block.radEpoch (b : Block) : Nat := (b.cn Reg.RAD_ASN_EPOCH_LO + b.cn Reg.RAD_ASN_EPOCH_HI * 2 ^ 32) * nsPerS

/-- The absolute slot number on TB5. -/
def Block.radAsn (b : Block) : Nat := (b.tbNow 5 - b.radEpoch) / b.radSlotNs

/-- Whether the TP_UNIT scans for its parent (R322). -/
def Rad.scanning (r : Rad) : Bool := r.scan.isSome

/-- RAD registers that show its state (Table 12.7). -/
def Block.viewRad (b : Block) (space inst off m : Nat) : Option Nat :=
  if space = 1 then
    let x := b.radNode inst
    match off with
    | 0x44 => some (x.st * 2 ^ 30 + b2n x.pend * 2 ^ 29 + b2n (x.dl.isSome || x.resync) * 2 ^ 28 + b2n x.wide * 2 ^ 27 + x.miss * 65536)
    | 0x54 => some x.d
    | 0x58 => some (sat32 x.x)
    | 0x5C => some (x.asn % 2 ^ 32)
    | _ => none
  else if space = 15 then
    match off with
    | 0x40C => some (b2n (b.comAny Blk.rad) * 2 ^ 31 + b2n (b.radChild && b.rad.lost.isNone) * 2 ^ 30 + b2n b.rad.scanning * 2 ^ 29 +
        (b.rad.nodes.filter (fun e => e.2.st == 2)).length)
    | 0x420 => some (if b.radOn then b.radAsn % 2 ^ 32 else 0)
    | 0x424 => some (if b.radOn then b.radAsn / 2 ^ 32 % 256 else 0)
    | 0x434 =>
      let base := 32 * fld (b.vis Reg.RAD_PEND_IDX m) 4 0
      some ((List.range 32).foldl (fun a i => a + b2n (b.radNode (base + i)).pend * 2 ^ i) 0)
    | _ => none
  else none

/-! ### The cascade and the pair -/

def Block.port (b : Block) (p : Nat) : PrtPort := Tbl.get b.prt p PrtPort.reset

/-- The own member number, and M. -/
def Block.casMember (b : Block) : Nat := b.cf Reg.CAS_CFG 0 26 24

/-- The link key, where it carries CAS_LINK and the module is not ZEROISED (R371). -/
def Block.casKey (b : Block) : Option KeySlot :=
  let k := b.slot (b.cf Reg.CAS_CFG 0 13 8)
  if k.valid && bit k.attr 5 && !b.sys.zeroised then some k else none

/-- Whether the module takes part in its cascade. -/
def Block.casOn (b : Block) : Bool := b.cb Reg.CAS_CFG 0 31 && !b.cas.excluded

/-- The master of a cascade is member 0. -/
def Block.casMaster (b : Block) : Bool := b.casOn && b.casMember == 0

def Block.mbr (b : Block) (m : Nat) : CasMbr := Tbl.get b.cas.mbr m CasMbr.reset

/-- The mean delay of a link in 2⁻⁸ ns. -/
def Block.hopDelay (b : Block) (l : Nat) : Nat :=
  let d := Tbl.get b.cas.delays l []
  if d = [] then 0 else d.foldl (· + ·) 0 / d.length

/-- CAS registers (Table 15.8). -/
def Block.viewCas (b : Block) (space inst off : Nat) : Option Nat :=
  let c := b.cas
  if space = 0 then
    let x := b.mbr inst
    match off with
    | 0x40 => some (if b.cb Reg.CAS_CFG 0 31 = false then 0 else (if inst = b.casMember ∧ c.excluded = true then 2 else x.st) * 2 ^ 30 + x.hops0 % 16 * 2 ^ 24 + x.hops1 % 16 * 2 ^ 20)
    | _ => none
  else match off with
    | 0x40C => some (c.topo * 2 ^ 30 + b2n (c.up.contains 1) * 2 ^ 29 + b2n (c.up.contains 0) * 2 ^ 28
        + b2n (b.casMaster || c.timeOk) * 2 ^ 27 + b2n (b.cb Reg.CAS_CFG 0 31 && b.casKey.isSome) * 2 ^ 26
        + (List.range 8).foldl (fun a m => a + b2n ((b.mbr m).st == 1) * 2 ^ (16 + m)) 0)
    | 0x410 => some c.epoch
    | 0x420 => some ((c.export_.filter (fun e => bit e.2 0)).length * 65536 + (c.export_.filter (fun e => bit e.2 1)).length)
    | 0x424 => some c.proxy.length
    | 0x428 => some (b.hopDelay 0 % 2 ^ 32)
    | 0x42C => some (b.hopDelay 1 % 2 ^ 32)
    | _ => none

/-- The key of path A, where it carries MIR_LINK (R382). -/
def Block.redKey (b : Block) : Option KeySlot :=
  let k := b.slot (b.cf Reg.RED_CFG 0 21 16)
  if k.valid && bit k.attr 6 then some k else none

def Block.redPath (b : Block) (p : Nat) : RedPath := Tbl.get b.red.paths p RedPath.reset

/-- Whether a path can carry messages: path A needs its key and MR0's link (R382, Table 15.3). -/
def Block.redAble (b : Block) (p : Nat) : Bool := p != 0 || (b.redKey.isSome && (b.port 28).up)

/-- The path is up. -/
def Block.redUp (b : Block) (p : Nat) : Bool := (b.redPath p).up && b.redAble p

/-- Whether the partner has been heard on either path within 300 µs (RED.STATUS). -/
def Block.redPresent (b : Block) : Bool :=
  [0, 1].any (fun p => match (b.redPath p).heardAt with | some h => decide (b.t7 ≤ h + 300000) | none => false)

/-- Seconds left of the hold-down. -/
def Block.holdLeft (b : Block) : Nat :=
  match b.red.holdSince with
  | some t => ceilDiv (t + b.cf Reg.RED_CFG 0 11 0 * nsPerS - b.t7) nsPerS
  | none => 0

def Block.viewRed (b : Block) (off : Nat) : Option Nat :=
  match off with
  | 0x40C => some (b.red.role * 2 ^ 29 + b2n b.red.solo * 2 ^ 28 + b2n b.red.image * 2 ^ 27 + b2n b.red.pImage * 2 ^ 26 +
      b2n (b.redUp 0) * 2 ^ 25 + b2n (b.redUp 1) * 2 ^ 24 + b2n b.redPresent * 2 ^ 23 + b2n b.red.holdSince.isSome * 2 ^ 22 +
      b2n (b.comAny Blk.red) * 2 ^ 21 + b.holdLeft % 4096)
  | 0x414 => some b.red.epoch
  | 0x418 => some b.red.pEpoch
  | 0x420 => some (match b.red.leaseEnd with | some t => min 1023 ((t - b.t7) / 1000) | none => 0)
  | 0x424 => some (min 65535 (b.redPath 1).rtt * 65536 + min 65535 (b.redPath 0).rtt)
  | 0x428 => some b.red.ckLast
  | 0x42C => some b.red.tkFirst
  | 0x430 => some b.red.tkLast
  | 0x434 => some (b.red.gapUs % 65536)
  | _ => none

/-! ### The engines of the fabric -/

/-- F_m: the largest divisor of F_base that does not exceed 25 (R142). -/
def Block.modalRate (b : Block) : Nat :=
  let f := b.ringRate 0
  (List.range 26).foldl (fun a d => if 0 < d ∧ f % d = 0 ∧ d ≤ f then d else a) 1

/-- D = F_base ÷ F_m. -/
def Block.modalDiv (b : Block) : Nat := b.ringRate 0 / b.modalRate

/-- LO and HI of a band, in 0.01 Hz. -/
def Block.bandEdges (b : Block) (n : Nat) : Nat × Nat :=
  let w := b.cfg Reg.RPL_BAND 0 n
  (fld w 15 0, fld w 31 16)

/-- A band's rate (R144). -/
def Block.bandRate (b : Block) (n : Nat) : Nat := if (b.bandEdges n).2 ≤ 40 * b.modalRate then b.modalRate else b.ringRate 0

def Block.band (b : Block) (c n : Nat) : Band := Tbl.get b.rpl.bands (4 * c + n) Band.reset

def Block.bandOn (b : Block) (c n : Nat) : Bool := b.cb Reg.RPL_CTX_BAND_CFG c n

/-- The state of a detector: 0 OFF, 1 WARMING, 2 VALID, 3 HOLD (R147). -/
def Block.bandState (b : Block) (c n : Nat) : Nat :=
  let x := b.band c n
  if b.bandOn c n = false then 0
  else if x.sig.warm < 2 * b.bandRate n then 1
  else if x.wasHeld then 3 else 2

/-- A track's status as its register shows it (R164, R162): 1 WARMING and 4 RINGDOWN are the engine's, and WARMING comes first. -/
def Block.trackStatus (b : Block) (t : Nat) : Nat :=
  let x := Tbl.get b.rpl.tracks t Track.reset
  if x.status = 0 then 0 else if b.rpl.warming then 1 else if b.rpl.ringdown.isSome then 4 else x.status

def Block.chan (b : Block) (i : Nat) : Chan := Tbl.get b.rpl.chans i Chan.reset

def Block.track (b : Block) (i : Nat) : Track := Tbl.get b.rpl.tracks i Track.reset

/-- The enabled channels. -/
def Block.chanList (b : Block) : List Nat := (b.listed Reg.RPL_CH_CFG).filter (fun i => b.cb Reg.RPL_CH_CFG i 31)

/-- Whether modal analysis runs: at least 16 enabled channels (R148). -/
def Block.modalEn (b : Block) : Bool := decide (16 ≤ b.chanList.length)

/-- N = WINDOW × F_m (R150). -/
def Block.modalN (b : Block) : Nat := max 1 (b.cn Reg.RPL_WINDOW % 128 * b.modalRate)

/-- fill = s ÷ N as float32. -/
def Block.fillF32 (b : Block) (s : Nat) : Nat := f32Div s (f32Nat b.modalN)

def Block.branch (b : Block) (i : Nat) : Branch := Tbl.get b.isl.branches i Branch.reset

def Block.bus (b : Block) (i : Nat) : Bus := Tbl.get b.isl.buses i Bus.reset

def Block.det (b : Block) (k : Nat) : Detector := Tbl.get b.alm.det k Detector.reset

def Block.pairDet (b : Block) (k : Nat) : Detector := Tbl.get b.alm.pair k Detector.reset

/-- The contexts of a threshold group, from its bitmap words. -/
def Block.grpMembers (b : Block) (g : Nat) : List Nat :=
  ((b.regs.act.filter (fun e => keyBlk e.1 == Blk.alm && keySpace e.1 == 3 && keyOff e.1 == 0x44 && keyInst e.1 % 64 == g)).map (fun e =>
    ((List.range 32).filter (bit e.2.toNat)).map (fun i => keyInst e.1 / 64 * 32 + i))).flatten

def Block.pub (b : Block) (p : Nat) : Publisher := Tbl.get b.alm.pubs p Publisher.reset

def Block.sess (b : Block) (i : Nat) : Session := Tbl.get b.out.sess i Session.reset

def Block.almDef (b : Block) (d : Nat) : AlmDef := Tbl.get b.alm.defs d AlmDef.reset

/-- A definition's output: TRUE in ASSERTED and LATCHED (R193). -/
def Block.almOut (b : Block) (d : Nat) : Bool := decide (2 ≤ (b.almDef d).st)

/-- Whether a pin is driven in the mode (Table 7.7); none is after a fence or a release. -/
def Block.aoDriven (b : Block) (p : Nat) : Bool :=
  match b.sys.mode with
  | .acquire => bit (b.cfg Reg.ALM_AO_CFG 0 p).toNat 30
  | .takeover => b.alm.driven
  | .active | .holdover | .degraded | .debug | .maintenance => true
  | _ => false

/-- Whether a pin is energised (R195, R196). -/
def Block.aoEnergised (b : Block) (p : Nat) : Bool :=
  let c := (b.cfg Reg.ALM_AO_CFG 0 p).toNat
  let f := (b.vis Reg.ALM_AO_FORCE).toNat
  if b.aoDriven p = false then false
  else if b.sys.mode == .maintenance && bit f (16 + p) then bit f p
  else
    let alarm := if bits c 15 0 = 0 then b.alm.asserted.contains p else (b.alm.pulses.find? (fun e => e.1 == p)).isSome
    if bit c 31 then !alarm else alarm

/-- One word of a port's VLAN membership table (PRT.VLAN_IDX, PRT.VLAN_DATA). -/
def PrtPort.vlanWord (x : PrtPort) (i : Nat) : Word := Tbl.get x.vlan i 0

end Sys2Proof.Machine
end

