-- ==== Sys2Proof/Machine/View.lean ====
section
/-! DEFINITION. What a read of a control register returns: the remaining views, the latched words, the stored registers. -/

namespace Sys2Proof.Machine

/-- A context is enabled unless its settings hold poison (R75, Table 13.2). -/
def Block.strEnabled (b : Block) (c : Nat) : Bool :=
  b.cb Reg.STR_CTX_CTRL c 31 && !b.mem.poison.any (fun u => u.1 == 6 && u.2 / 512 == c)

/-- PRT registers (Table 2.3). -/
def Block.viewPrt (b : Block) (space inst off : Nat) : Option Nat :=
  if space = 0 then
    let x := b.port inst
    match off with
    | 0x44 => some (b2n x.txFault * 128 + b2n x.los * 64 + b2n x.hdx * 32 + b2n x.modPresent * 16 + x.speed * 2 + b2n x.up)
    | 0x5C => some (x.vlanWord (fld (b.vis Reg.PRT_VLAN_IDX inst) 6 0)).toNat
    | 0x2C8 => some (x.rxBytes % 2 ^ 32)
    | 0x2CC => some (x.rxBytes / 2 ^ 32)
    | 0x2D0 => some (x.txBytes % 2 ^ 32)
    | 0x2D4 => some (x.txBytes / 2 ^ 32)
    | _ => none
  else none

/-- STR registers (Table 3.11). -/
def Block.viewStr (b : Block) (space inst off : Nat) : Option Nat :=
  if space = 0 then
    match off with
    | 0x40 => some (if b.strEnabled inst = false ∧ b.cb Reg.STR_CTX_CTRL inst 31 = true then setFld (b.vis Reg.STR_CTX_CTRL inst) 31 31 0
        else b.vis Reg.STR_CTX_CTRL inst).toNat
    | 0x294 => some (setFld (b.vis Reg.STR_CTX_STATUS inst) 27 27 (b2n (b.comInst Blk.str 0 inst))).toNat
    | _ => none
  else none

/-- OUT registers (Table 5.6). -/
def Block.viewOut (b : Block) (space inst off : Nat) : Option Nat :=
  if space = 0 then (if off = 0x7C then some (Tbl.get b.out.spdu inst 0) else none)
  else if space = 1 then
    let x := b.sess inst
    match off with
    | 0x40 => some (setFld (b.vis Reg.OUT_SESS_STATE inst) 31 29 (x.st * 2 + b2n x.stall.isSome)).toNat
    | 0x5C => some x.nxt
    | 0x60 => some x.una
    | 0x88 => some (x.on % 2 ^ 32)
    | 0x8C => some (x.on / 2 ^ 32)
    | _ => none
  else if space = 2 then (if off = 0x54 then some (b2n (b.out.udpOn.contains inst)) else none)
  else if off = 0x40C then
    some (b2n (b.comAny Blk.out) * 2 ^ 31 + b2n (!b.out.halted && ((b.ring 0).run || (b.ring 1).run)))
  else none

/-- RPL registers (Table 6.8). -/
def Block.viewRpl (b : Block) (space inst off : Nat) : Option Nat :=
  if space = 0 then
    match off with
    | 0x44 => some (b.band inst 0).pub
    | 0x48 => some (b.band inst 1).pub
    | 0x4C => some (b.band inst 2).pub
    | 0x50 => some (b.band inst 3).pub
    | 0x54 => some ((List.range 4).foldl (fun a n => a + b.bandState inst n * 4 ^ n) 0)
    | _ => none
  else if space = 1 then
    let x := b.chan inst
    let on := b.cb Reg.RPL_CH_CFG inst 31
    match off with
    | 0x48 => some (b2n x.included * 2 ^ 31 + b2n (on && decide (x.sig.warm < 2 * b.modalRate)) * 2 ^ 30 + min 3 x.sig.miss)
    | 0x4C => some (if b.rpl.s = 0 then 0 else f32Div x.v b.rpl.s)
    | _ => none
  else if space = 2 then
    let x := b.track inst
    match off with
    | 0x40 => some (b.trackStatus inst * 2 ^ 29 + b2n x.damp * 2 ^ 28 + b2n x.fo * 2 ^ 27 + b2n x.rdPoor * 2 ^ 26 + b2n x.paired * 2 ^ 25 +
        b2n x.matched * 2 ^ 24 + x.pairOf.getD 0 * 2 ^ 20 + min 3 x.missed * 2 ^ 18 + x.conf % 128)
    | 0x44 => some x.freq
    | 0x48 => some x.zeta
    | 0x4C => some x.amp
    | 0x50 => some x.share
    | 0x54 => some (x.serial % 65536)
    | 0x58 => some (min 65535 x.dampRun)
    | 0x5C => some x.rdFreq
    | 0x60 => some x.rdZeta
    | _ => none
  else if space = 3 then (if off = 0x4C then some (Tbl.get b.rpl.defB inst DefBranch.reset).slope else none)
  else match off with
    | 0x40C => some (b2n (b.comAny Blk.rpl) * 2 ^ 31 + b2n (b.rpl.warming && b.modalEn) * 2 ^ 30 + b2n b.rpl.ringdown.isSome * 2 ^ 29 +
        b2n b.modalEn * 2 ^ 28 + b2n b.rpl.defRun.isSome * 2 ^ 27 + b.rpl.included % 1024)
    | 0x410 => some (b.fillF32 b.rpl.s)
    | 0x414 => some b.rpl.published
    | 0x418 => some (if b.ringRate 0 = 0 then 0 else b.modalDiv % 256 * 256 + b.modalRate)
    | 0x474 => some (b.rpl.solveUs % 65536)
    | _ => none

/-- ISL registers (Table 7.9). -/
def Block.viewIsl (b : Block) (space inst off : Nat) : Option Nat :=
  if space = 0 then
    let x := b.bus inst
    if off = 0x44 then some (x.island % 65536 * 65536 + b2n x.fOk * 2 ^ 15 + b2n x.aOk * 2 ^ 14 + b2n x.dead * 2 ^ 13 + b2n x.mismatch * 2 ^ 12) else none
  else if space = 1 then
    let x := b.branch inst
    let closed := if x.seen then x.closed else !b.cb Reg.ISL_CONF_CFG 0 0
    if off = 0x4C then some (b2n closed * 2 ^ 31 + b2n x.stale * 2 ^ 30 + min 255 x.run) else none
  else if space = 2 then
    let x := Tbl.get b.isl.islands inst Island.reset
    match off with
    | 0x40 => some (x.state * 2 ^ 29 + b2n x.slip * 2 ^ 28 + x.slipRun % 16 * 2 ^ 24 + b2n x.latch * 2 ^ 23 + x.id % 65536)
    | 0x44 => some (x.count % 32768)
    | 0x48 => some (if x.state = 0 then 0 else match x.ref with | some r => r % 16384 | none => 2 ^ 31)
    | 0x4C => some x.df
    | 0x50 => some x.da
    | 0x54 => some x.since
    | _ => none
  else match off with
    | 0x40C => some (b2n (b.comAny Blk.isl) * 2 ^ 31 + b2n b.isl.valid * 2 ^ 30 + b.isl.untracked % 16384 * 65536 +
        (b.isl.islands.filter (fun e => e.2.state != 0)).length)
    | 0x434 => some (min 255 b.isl.lastUs)
    | _ => none

/-- The code that shows a detector: 0 CLEAR, 1 ACTIVE, 2 INVALID, 3 OFF (R188, R189). -/
def Detector.code (d : Detector) (en : Bool) : Nat := if en = false then 3 else if d.invalid then 2 else b2n d.active

/-- ALM registers (Table 7.10). -/
def Block.viewAlm (b : Block) (space inst off : Nat) : Option Nat :=
  if space = 0 then
    if off = 0x70 then some ((List.range 4).foldl (fun a n => a + (b.det (4 * inst + n)).code (bit (b.cfg Reg.ALM_THR_CFG inst n).toNat 31) * 4 ^ n) 0)
    else none
  else if space = 1 then
    match off with
    | 0x4C => some ((b.pairDet inst).code (b.cb Reg.ALM_PAIR_CFG inst 31))
    | 0x50 => some (b.pairDet inst).delta
    | _ => none
  else if space = 2 then
    let x := b.almDef inst
    match off with
    | 0x58 => some (x.st * 2 ^ 29 + b2n (b.almOut inst) * 2 ^ 28 + b2n x.raw * 2 ^ 27 + b2n x.resetPending * 2 ^ 26 + b2n x.held * 2 ^ 25 + x.run % 256 * 256)
    | 0x70 => some x.lastSeq
    | _ => none
  else if space = 3 then
    if off = 0x48 then some (b.grpMembers inst).length else none
  else if 0x500 ≤ off ∧ off < 0x700 then
    let x := b.pub ((off - 0x500) / 64)
    match (off - 0x500) % 64 with
    | 0x2C => some x.st
    | 0x30 => some x.sq
    | _ => none
  else match off with
    | 0x40C => some (b2n (b.comAny Blk.alm) * 2 ^ 31 + (b.alm.defs.filter (fun e => decide (2 ≤ e.2.st))).length)
    | 0x410 => some ((List.range 16).foldl (fun a p => a + b2n (b.aoEnergised p) * 2 ^ p) 0)
    | 0x418 => some (b.alm.di % 256)
    | _ => none

/-- The registers that show a block's state, none where the register is stored as it reads. -/
def Block.view (b : Block) (blk space inst off m : Nat) : Option Nat :=
  match blk with
  | 0 => b.viewSys off
  | 1 => b.viewTim space inst off
  | 2 => b.viewPrt space inst off
  | 3 => b.viewStr space inst off
  | 4 => b.viewAln space inst off m
  | 5 => b.viewOut space inst off
  | 6 => b.viewRpl space inst off
  | 7 => b.viewIsl space inst off
  | 8 => b.viewAlm space inst off
  | 9 => b.viewDfe space inst off
  | 10 => b.viewSdm space inst off
  | 11 => b.viewNrg space inst off
  | 12 => b.viewCap space inst off
  | 13 => b.viewRad space inst off m
  | 14 => b.viewMem space inst off
  | 15 => b.viewDma space inst off
  | 16 => b.viewQue space inst off
  | 17 => b.viewCmp space inst off
  | 18 => b.viewCas space inst off
  | 19 => b.viewRed off
  | 20 => b.viewKey space inst off
  | 21 => b.viewTam off
  | 22 => b.viewEvr off
  | 23 => b.viewPwr off
  | 24 => b.viewAcc space inst off
  | _ => none

/-- The offsets of the words that a read at an offset latches until the next such read (R53, R289, Tables 3.11, 10.7, 12.7, 19.4).
TIM's latches stand with its time bases (R259). -/
def Reg.latches (blk space off : Nat) : List Nat :=
  match blk, space with
  | 0, 15 => if off = 0x460 then [0x464] else []
  | 2, 0 => if off = 0x2C8 then [0x2CC] else if off = 0x2D0 then [0x2D4] else []
  | 3, 0 => if off = 0x280 then [0x284, 0x288] else []
  | 10, 15 => if off = 0x418 then [0x41C, 0x420] else []
  | 11, 0 => if 0x200 ≤ off ∧ off < 0x300 ∧ off % 8 = 0 then [off + 4] else []
  | 13, 15 => if off = 0x420 then [0x424] else []
  | _, _ => []

/-- Whether a word is one that a read latches. -/
def Reg.latched (blk space off : Nat) : Bool :=
  [4, 8].any (fun d => decide (d ≤ off) && (Reg.latches blk space (off - d)).contains off)

/-- The instance a register is stored under: the master's copy of a banked one (R450), the bitmap word that GRP_IDX names, the
even port of a bridge pair; none where the space has no such instance, a ring no such position, or the part no radio (R1). -/
def Block.home (b : Block) (d : RegDesc) (space inst m : Nat) : Option Nat :=
  if d.blk = 13 ∧ b.sys.variantW = true then none
  else if space < 15 ∧ Reg.instances d.blk space ≤ inst then none
  else if d.blk = 4 ∧ (space = 1 ∨ space = 2) ∧ b.depth (space - 1) ≤ inst then none
  else if d.banked then some m
  else if d.blk = 2 ∧ space = 0 ∧ d.off = 0x60 then (if inst < 24 then some (inst / 2 * 2) else none)
  else if d.blk = 8 ∧ space = 3 ∧ d.off = 0x44 then some (64 * fld (b.vis Reg.ALM_GRP_IDX m) 7 0 + inst)
  else some inst

/-- A register's value in an instance as its block has it now; `m` is the reader whose banked copy counts. An offset that no
table defines, or an instance outside its space, reads zero (R448). -/
def Block.live (b : Block) (blk space inst off m : Nat) : Nat :=
  match Reg.find blk space off with
  | none => 0
  | some (d, k) =>
    match b.home d space inst m with
    | none => 0
    | some i =>
      match b.view blk space inst off m with
      | some v => v % 4294967296
      | none => (d.read (b.vis d i k)).toNat

/-- A register's value as a read returns it, with no effect of the read: a latched word reads as its latch. -/
def Block.peek (b : Block) (blk space inst off m : Nat) : Nat :=
  if Reg.latched blk space off then (Tbl.get b.latch (regKey blk space inst off) 0).toNat else b.live blk space inst off m

/-- The words that a read at an offset latches, taken now. -/
def Block.takeLatch (b : Block) (blk space inst off m : Nat) : Block :=
  let f (l : Tbl Word) (o : Nat) : Tbl Word := Tbl.put l (regKey blk space inst o) (w32 (b.live blk space inst o m)) 0
  { b with latch := (Reg.latches blk space off).foldl f b.latch }

end Sys2Proof.Machine
end

