-- ==== Sys2Proof/Machine/Events.lean ====
section
/-! DEFINITION. Raising an event (R417 to R422) and the repetition rule of R68. -/

namespace Sys2Proof.Machine

/-- A register of the snapshot sets as an event of now uses it: in the cycle of a hand-over the old set (R425). -/
def Block.evrCfg (b : Block) (d : RegDesc) (i k : Nat) : Word :=
  match b.evr.before with
  | some (t, old) => if t = b.t7 then Tbl.get old (d.key i k) (d.rst i k) else b.cfg d i k
  | none => b.cfg d i k

/-- The snapshot set of an event (R420): the first enabled override of its code, else its class's set where enabled. -/
def Block.snapSet (b : Block) (code : Nat) : Option Nat :=
  match (List.range 16).find? (fun n => bit (b.evrCfg Reg.EVR_OVR 0 n).toNat 31 && fld (b.evrCfg Reg.EVR_OVR 0 n) 15 0 == code) with
  | some n => some (fld (b.evrCfg Reg.EVR_OVR 0 n) 27 24)
  | none =>
    let c := code / 256
    if 1 ≤ c ∧ c ≤ 24 ∧ bit (b.evrCfg Reg.EVR_CLASS_SET 0 (c - 1)).toNat 4 = true then some (fld (b.evrCfg Reg.EVR_CLASS_SET 0 (c - 1)) 3 0)
    else none

/-- One word of a set: the register its entry names, in a fixed instance or in the event's SOURCE; 0 where the entry is not
VALID. The internal port reads with its own instance select, number 64 (R450). -/
def Block.snapWord (b : Block) (set src n : Nat) : Nat :=
  let a := b.evrCfg Reg.EVR_SET_A set n
  let s := b.evrCfg Reg.EVR_SET_B set n
  if bit a.toNat 31 then
    let inst := if bit s.toNat 31 then src else fld s 14 0
    let off := fld a 15 0
    let sp := if 0x40 ≤ off ∧ off < 0x400 then fld s 30 29 else 15
    b.peek (fld a 28 24) sp (if sp = 15 then 0 else inst) off 64
  else 0

/-- Byte 14 of an entry (Table 17.1): the mode, ZEROISED, TB0 not LOCKED, time estimated. -/
def Block.byte14 (b : Block) (est : Bool) : Nat :=
  b.sys.mode.code + 16 * b2n b.sys.zeroised + 32 * b2n ((b.tb 0).st != .locked) + 64 * b2n est

/-- Waiting events whose sequence numbers move one place on; the last takes `n`. -/
def Event.moveOn (n : Nat) : List Event → List Event
  | [] => []
  | [x] => [{ x with seq := n }]
  | x :: y :: r => { x with seq := y.seq } :: Event.moveOn n (y :: r)

/-- The place of an event among those of its cycle: its code, and the master of a violation (R415); but ENERGY_RESUME and ENERGY_LOST before every other,
since LOAD, which the model runs in one cycle, writes them first (R294). -/
def Event.rank (e : Event) : Nat :=
  if e.code = 0x0C01 ∨ e.code = 0x0C02 then 0 else e.code * 65536 + if e.code = 0x1601 then e.src else 0

/-- An event among those that wait, oldest first: the events of its cycle keep ascending code order, those of one code the order in
which they came, and share the cycle's sequence numbers out in that order (R419). -/
def Event.enter (e : Event) : List Event → List Event
  | [] => [e]
  | x :: r =>
    if x.at7 = e.at7 ∧ e.rank < x.rank then { e with seq := x.seq } :: Event.moveOn e.seq (x :: r) else x :: Event.enter e r

/-- An event of a freeze that Q4 does not take is lost (R421). -/
def Block.lostInFreeze (b : Block) (seq : Nat) : Block :=
  let v := b.evr
  ({ b with evr := { v with lostFrz := v.lostFrz + 1, lostFrzFirst := if v.lostFrz = 0 then seq else v.lostFrzFirst } }).count Reg.EVR_FREEZE_LOST

/-- An event of a freeze goes to Q4 as a packet of 8 items: at most 64 entries; a disabled Q4 ignores and counts the items, a full one refuses them by
the overrun rule (R346, R350, R421). -/
def Block.holdEvent (b : Block) (e : Event) : Block :=
  let v := b.evr
  if b.qen 4 = false then (b.count Reg.QUE_WR_DISABLED 4 0 8).lostInFreeze e.seq
  else if 64 ≤ v.held.length then b.lostInFreeze e.seq
  else if b.qcap 4 ≤ 8 * v.held.length then
    (((b.count Reg.QUE_OVERRUN_ITEMS 4 0 8).setBit Reg.QUE_STATUS 4 0 30).irq Blk.que 0).lostInFreeze e.seq
  else ({ b with evr := { v with held := e.enter v.held } }).count Reg.QUE_PUSHES 4 0 8

/-- An event with its words supplied: it takes the next sequence number, then a place of the input buffer, or of Q4 during
a freeze; one place of the buffer is kept for CLEARED (R419, R421). -/
def Block.eventAt (b : Block) (code src arg0 arg1 ns : Nat) (est : Bool) (words : Option (List Nat)) : Block :=
  let set := b.snapSet code
  let (b15, snap) : Nat × List Nat :=
    match words with
    | some w => (0x30, w)
    | none =>
      if code = 0x0C02 then (0, [])
      else match set with
        | some s => (s + 16, (List.range 8).map (b.snapWord s src))
        | none => (0, [])
  let e : Event := ⟨b.evr.seq, ns / nsPerS, ns % nsPerS, code, src % 65536, b.byte14 est, b15, arg0 % 4294967296, arg1 % 4294967296, snap, b.t7⟩
  let b := b.count Reg.EVR_EVENTS
  let v : Evr := { b.evr with seq := (b.evr.seq + 1) % 4294967296 }
  if v.frozenAt.isSome ∧ code ≠ 0x1705 then
    ({ b with evr := v }).holdEvent e
  else if code = 0x1705 ∨ (v.buf.filter (fun x => x.code != 0x1705)).length < 255 then { b with evr := { v with buf := e.enter v.buf } }
  else ({ b with evr := { v with lostIn := v.lostIn + 1, lostInFirst := if v.lostIn = 0 then e.seq else v.lostInFirst } }).count Reg.EVR_IN_LOST

/-- An event raised now by a block: its code, the instance it names (0xFFFF for none), and its two arguments. -/
def Block.event (b : Block) (code : Nat) (src : Nat := 0xFFFF) (arg0 : Nat := 0) (arg1 : Nat := 0) : Block :=
  b.eventAt code src arg0 arg1 b.now false none

/-- An event under the repetition rule of R68: the first is written at once, the next at most once a second with the count
since the last entry in ARG0. `key` names what the rule counts by. -/
def Block.eventRep (b : Block) (key code : Nat) (src : Nat := 0xFFFF) (arg1 : Nat := 0) : Block :=
  let k := code + 65536 * key
  let r := Tbl.get b.rep k (0, 0)
  if r.1 = 0 ∨ r.1 + nsPerS ≤ b.t7 + 1 then
    ({ b with rep := Tbl.put b.rep k (b.t7 + 1, 0) (0, 0) }).event code src (r.2 + 1) arg1
  else { b with rep := Tbl.put b.rep k (r.1, r.2 + 1) (0, 0) }

end Sys2Proof.Machine
end

