-- ==== Sys2Proof/Machine/CasBase.lean ====
section
/-! DEFINITION. Tabusk frames: the header of Table 15.1, the link key, sending on both links (R370 to R372, R381). -/

namespace Sys2Proof.Machine

def Block.casCount (b : Block) : Nat := b.cf Reg.CAS_CFG 0 22 20 + 1

/-- A time in TT80: six bytes of seconds, four of nanoseconds (R235). -/
def tt80 (ns : Nat) : List Byte := leBytes 6 (ns / nsPerS) ++ leBytes 4 (ns % nsPerS)

/-- The 64-bit tag of a frame: the header's byte 3 counts as zero; the IV of R371. -/
def casTag (key frame : List Byte) : List Byte :=
  let iv := slice frame 8 4 ++ leBytes 1 ((frame.getD 1 0).toNat % 8) ++ [0] ++ slice frame 12 6
  (gmac key iv (frame.take 3 ++ [0] ++ frame.drop 4)).take 8

/-- A frame from its fields, with its tag. -/
def Block.casFrame (b : Block) (key : List Byte) (type dst : Nat) (all : Bool) (part : Nat) (soc k items : Nat) (payload : List Byte) : List Byte :=
  let m := b.casMember
  let h := leBytes 1 type ++ leBytes 1 (m + 16 * (dst % 8) + 128 * b2n all) ++ leBytes 1 part ++ leBytes 1 (b.casCount - 1) ++
    leBytes 4 b.cas.epoch ++ leBytes 4 b.loadCount ++ leBytes 6 b.cas.seq ++ leBytes 4 soc ++ leBytes 1 k ++ [0] ++
    leBytes 2 payload.length ++ leBytes 2 items ++ leBytes 4 0
  let f := h ++ payload
  f ++ casTag key f

/-- The priority class of a frame on a link, the most urgent first (R372). -/
def casClass (f : List Byte) : Nat :=
  match (f.getD 0 0).toNat with
  | 4 => 0
  | 2 => 0
  | 0x10 => 1
  | 3 => 1
  | _ => 2

/-- A frame on its way over a link, with the others of its instant in the order of their classes. -/
def Block.casOut (b : Block) (link : Nat) (f : List Byte) : Block :=
  if b.cas.up.contains link = false then b
  else
    let o := if b.cas.out.1 = b.t7 then b.cas.out.2 else []
    let c := casClass f
    { b with cas := { b.cas with out := (b.t7, o.filter (fun e => decide (casClass e.2 ≤ c)) ++ (link, f) :: o.filter (fun e => decide (c < casClass e.2))) } }

/-- A frame sent on both links under the next frame number; nothing without a usable key (R371, R372). -/
def Block.casSend (b : Block) (type dst : Nat) (all : Bool) (part soc k items : Nat) (payload : List Byte) : Block :=
  match b.casKey with
  | some s =>
    if b.casOn then
      let f := b.casFrame s.bytes type dst all part soc k items payload
      let b := { b with cas := { b.cas with seq := (b.cas.seq + 1) % 2 ^ 48 } }
      (b.casOut 0 f).casOut 1 f
    else b
  | none => b

/-- A trigger-bus signal sent to every member (R381); the payload is the line, the originating member, T. -/
def Block.casTrigger (b : Block) (line t member : Nat) : Block :=
  if b.casOn then (b.count Reg.CAS_TRIG_TX).casSend 4 0 true 0 0 0 1 (leBytes 1 line ++ leBytes 1 member ++ tt80 t) else b

end Sys2Proof.Machine
end

