-- ==== Sys2Proof/Machine/QueOps.lean ====
section
/-! DEFINITION. The queues: pushes under the overrun rule, pops, flush, enable and disable (R344 to R351). -/

namespace Sys2Proof.Machine

def Block.setQueue (b : Block) (q : Nat) (x : Queue) : Block := { b with que := Tbl.put b.que q x Queue.reset }

/-- A bus master's last answer. -/
def Block.answer (b : Block) (m : Nat) (r : Response) : Block := { b with resp := Tbl.ins b.resp m r }

/-- The break marker and the EMPTY marker (R346, R348). -/
def Que.breakMarker : Nat := 0xFFFFFFFFFFFFFFFE
def Que.emptyMarker : Nat := 0xFFFFFFFFFFFFFFFF

/-- The first pool byte of a queue's item slot (R345). -/
def Block.slotByte (b : Block) (q i : Nat) : Nat :=
  (64 * fld (b.vis Reg.QUE_CFG q) 11 0 + (if b.qcap q = 0 then 0 else i % b.qcap q)) * 8

/-- Whether a queue's item slot holds poison (Table 13.2). -/
def Block.slotPoisoned (b : Block) (q i : Nat) : Bool :=
  (List.range 8).any (fun k => b.badUnit 5 (b.slotByte q i + k))

/-- A slot written: its poison is gone (R328). -/
def Block.slotClean (b : Block) (q i val : Nat) : Block := b.sramWrite 5 (b.slotByte q i) (leBytes 8 val)

/-- An overrun (R346): counted; the first since STATUS[OVERRUN] was cleared sets it, with the IRQ and the event. -/
def Block.overrun (b : Block) (q : Nat) : Block :=
  let b := b.count Reg.QUE_OVERRUN_ITEMS q
  if bit (b.vis Reg.QUE_STATUS q).toNat 30 then b.eventRep q 0x1101 q
  else
    let b := b.setBit Reg.QUE_STATUS q 0 30
    let b := b.irq Blk.que 0
    ({ b with rep := Tbl.erase b.rep (0x1101 + 65536 * q) }).eventRep q 0x1101 q

/-- POP_STATUS of a master (R348). -/
def Block.popStatus (b : Block) (m : Nat) (poison brk empty eop : Bool) : Block :=
  b.setVis Reg.QUE_POP_STATUS m 0 (w32 (8 * b2n poison + 4 * b2n brk + 2 * b2n empty + b2n eop))

/-- The EMPTY marker answered. -/
def Block.answerEmpty (b : Block) (m : Nat) : Block := (b.popStatus m false false true false).answer m (.value Que.emptyMarker)

/-- The oldest item of a queue taken by a master; the freed slot takes a break marker that waits (R346, R348). -/
def Block.take (b : Block) (q m : Nat) : Block :=
  let x := b.queue q
  match x.items with
  | [] => b.answerEmpty m
  | i :: r =>
    let p := b.slotPoisoned q x.rd
    let c := b.qcap q
    let rd := if c = 0 then 0 else (x.rd + 1) % c
    let items := if x.breakPending then r ++ [⟨Que.breakMarker, true, true⟩] else r
    let b := b.setQueue q { x with items := items, rd := rd, breakPending := false }
    let b := if x.breakPending then b.slotClean q (rd + r.length) Que.breakMarker else b
    if p then (b.popStatus m true true false true).answer m (.value Que.breakMarker)
    else (b.popStatus m false i.brk false i.eop).answer m (.value i.val)

/-- Every stalled reader of a queue gets the EMPTY marker. -/
def Block.endStalls (b : Block) (q : Nat) : Block :=
  let x := b.queue q
  x.stalled.foldl Block.answerEmpty (b.setQueue q { x with stalled := [] })

/-- The entries that EVR keeps in Q4 leave it with the queue's contents (R349, R350). -/
def Block.heldGone (b : Block) (q : Nat) : Block := if q = 4 then { b with evr := { b.evr with held := [] } } else b

/-- The items of a queue discarded at a packet boundary, with the event of a flush (R349); a break marker that waits takes a slot that they free
(R346). -/
def Block.flushNow (b : Block) (q : Nat) : Block :=
  let b := b.heldGone q
  let x := b.queue q
  let c := b.qcap q
  let rd := if c = 0 then 0 else (x.rd + x.items.length) % c
  let b := b.setQueue q { x with items := if x.breakPending then [⟨Que.breakMarker, true, true⟩] else [], rd := rd, breakPending := false, flushPending := false }
  (if x.breakPending then b.slotClean q rd Que.breakMarker else b).event 0x1104 q

/-- An item stored, and handed at once to a reader that waits. -/
def Block.stored (b : Block) (q val : Nat) (eop : Bool) : Block :=
  let x := b.queue q
  let b := b.slotClean q (x.rd + x.items.length) val
  let b := (b.setQueue q { x with items := x.items ++ [⟨val % 2 ^ 64, eop, false⟩], pktOpen := !eop, fed := b.t7 }).count Reg.QUE_PUSHES q
  match x.stalled with
  | m :: r => (b.setQueue q { b.queue q with stalled := r }).take q m
  | [] => b

/-- A push of one item (R346, R349, R350). -/
def Block.push (b : Block) (q val : Nat) (eop : Bool) : Block :=
  let x := b.queue q
  if b.qen q = false then b.count Reg.QUE_WR_DISABLED q
  else
    let b :=
      if x.discarding then (b.setQueue q { x with discarding := !eop }).overrun q
      else if x.breakPending then (b.setQueue q { x with discarding := !eop }).overrun q
      else if b.qcap q ≤ x.items.length then
        (b.setQueue q { x with discarding := !eop, breakPending := x.pktOpen, pktOpen := false }).overrun q
      else b.stored q val eop
    if eop && (b.queue q).flushPending then b.flushNow q else b

/-- A read of QUE.POP (R348). -/
def Block.pop (b : Block) (q m : Nat) : Block :=
  let x := b.queue q
  if b.qen q = false ∨ x.flushPending = true then b.answerEmpty m
  else if x.items = [] then (b.setQueue q { x with stalled := x.stalled ++ [m] }).answer m (.stalled b.t7)
  else b.take q m

/-- A read of QUE.TRYPOP (R348). -/
def Block.trypop (b : Block) (q m : Nat) : Block :=
  let x := b.queue q
  if b.qen q = false ∨ x.flushPending = true ∨ x.items = [] then b.answerEmpty m else b.take q m

/-- QUE.CMD[FLUSH] (R349). -/
def Block.flush (b : Block) (q : Nat) : Block :=
  let x := b.queue q
  let b := b.endStalls q
  if x.pktOpen || x.discarding then b.setQueue q { b.queue q with flushPending := true } else b.flushNow q

/-- Whether a queue's BASE and DEPTH allow its enabling (R345). -/
def Block.queueFits (b : Block) (q base depth : Nat) : Bool :=
  decide (1 ≤ depth) && decide (depth ≤ 4096) && decide (base + depth ≤ 4096) &&
  (List.range 64).all (fun r => r == q || b.qen r == false ||
    (let c := b.vis Reg.QUE_CFG r
     decide (base + depth ≤ fld c 11 0) || decide (fld c 11 0 + fld c 28 16 ≤ base)))

/-- The pushes of this cycle are pushes to a disabled queue (R350). -/
def Block.pushesVoid (b : Block) (q : Nat) : Block :=
  let n := (b.fresh (Reg.QUE_PUSHES.key q 0)).2
  if n = 0 then b else (b.uncount Reg.QUE_PUSHES q 0 n).count Reg.QUE_WR_DISABLED q 0 n

/-- EN written to 0: the contents and a pending break marker are discarded, stalled readers get the EMPTY marker; a push in this
cycle counts in WR_DISABLED (R350). -/
def Block.queueDisable (b : Block) (q : Nat) : Block :=
  let b := (b.pushesVoid q).heldGone q
  let b := b.endStalls q
  (b.setQueue q Queue.reset).setVis Reg.QUE_CFG q 0 (setFld (b.vis Reg.QUE_CFG q) 31 31 0)

/-- EN written to 1: accepted where the range fits, else refused with CFG_ERR (R345). -/
def Block.queueEnable (b : Block) (q : Nat) : Block :=
  let c := b.vis Reg.QUE_CFG q
  if b.queueFits q (fld c 11 0) (fld c 28 16) then
    (b.setQueue q Queue.reset).setVis Reg.QUE_CFG q 0 (setFld c 31 31 1)
  else (b.irq Blk.que 2).event 0x1105 q

/-- A write of QUE.CFG: BASE and DEPTH are writable while EN is 0, a DEPTH outside its range too; then EN takes effect (R345, R350). -/
def Block.queueCfg (b : Block) (q : Nat) (w : Word) : Block :=
  if b.qen q then (if bit w.toNat 31 then b else b.queueDisable q)
  else
    let d := Reg.QUE_CFG
    let b := b.setVis d q 0 (setFld (d.write (b.vis d q) w) 31 31 0)
    if bit w.toNat 31 then b.queueEnable q else b

/-- A stalled read of a queue that reaches the bus timeout (R348). -/
def Block.readTimeout (b : Block) (q m : Nat) : Block :=
  let x := b.queue q
  let b := b.setQueue q { x with stalled := x.stalled.filter (fun j => j != m) }
  ((b.count Reg.QUE_READ_TIMEOUTS q).irq Blk.que 1).event 0x1103 q

end Sys2Proof.Machine
end

