-- ==== Sys2Proof/Machine/EvrOps.lean ====
section
/-! DEFINITION. The event recorder: entries and areas, the scan at LOAD, freezes, the authorised clear (R417 to R425). -/

namespace Sys2Proof.Machine

/-- The areas of R417. -/
def Evr.firstArea : Nat := 0x40700000
def Evr.lastArea : Nat := 0x40704000

/-- Bytes 0–27 of an entry (Table 17.1): TT80 is six bytes of seconds and four of nanoseconds (R235). -/
def Event.head (e : Event) : List Byte :=
  leBytes 6 e.sec ++ leBytes 4 e.ns ++ leBytes 2 e.code ++ leBytes 2 e.src ++ leBytes 1 e.b14 ++ leBytes 1 e.b15 ++
    leBytes 4 e.seq ++ leBytes 4 e.arg0 ++ leBytes 4 e.arg1

/-- Bytes 32–63: the snapshot words, zero where none was taken. -/
def Event.tail (e : Event) : List Byte :=
  ((List.range 8).map (fun i => leBytes 4 (e.snap.getD i 0))).flatten

/-- The 64 bytes of an entry, with the CRC-32 over bytes 0–27 and 32–63. -/
def Event.bytes (e : Event) : List Byte := e.head ++ leBytes 4 (crc32 (e.head ++ e.tail)) ++ e.tail

/-- Whether 64 bytes hold a valid entry; all zeros is an empty place (R418). -/
def Evr.entryOk (bs : List Byte) : Bool :=
  bs.any (· != 0) && leAt bs 28 4 == crc32 (bs.take 28 ++ slice bs 32 32)

/-- The index of an area's entry that is stored at an address. -/
def Block.entryAt (b : Block) (base n : Nat) : List Byte := b.load (base + 64 * n) 64

/-- The scan of both areas at LOAD (R418). -/
def Block.evrScan (b : Block) : Block :=
  let first := (List.range 256).map (b.entryAt Evr.firstArea)
  let last := (List.range 4096).map (b.entryAt Evr.lastArea)
  let bad := ((first ++ last).filter (fun e => e.any (· != 0) && !Evr.entryOk e)).length
  let seqOf (e : List Byte) : Nat := leAt e 16 4
  let newest (a : Option (Nat × Nat)) (x : Nat × List Byte) : Option (Nat × Nat) :=
    if Evr.entryOk x.2 = false then a
    else match a with
      | some (_, s) => if later 32 (seqOf x.2) s then some (x.1, seqOf x.2) else a
      | none => some (x.1, seqOf x.2)
  let top := ((List.range 4096).zip last).foldl newest none
  let topAll := ((List.range 256).zip first).foldl newest top
  let b := if bad = 0 then b else b.count Reg.EVR_CRC_BAD 0 0 bad
  let next := match topAll with | some (_, s) => (s + 1) % 4294967296 | none => 0
  let v := b.evr
  { b with evr := { v with
      lastHead := match top with | some (i, _) => (i + 1) % 4096 | none => 0
      firstCount := (first.filter Evr.entryOk).length
      seq := (next + v.buf.length + v.held.length) % 4294967296
      buf := (List.range v.buf.length).zipWith (fun i e => { e with seq := (next + i) % 4294967296 }) v.buf
      ready := true } }

/-- One entry written to the last area, and to the first while it has room (R417). -/
def Block.writeEntry (b : Block) (e : Event) : Block :=
  let v := b.evr
  let b := b.store (Evr.lastArea + 64 * v.lastHead) e.bytes
  let b := { b with evr := { v with lastHead := (v.lastHead + 1) % 4096 } }
  if v.firstCount < 256 then
    let b := b.store (Evr.firstArea + 64 * v.firstCount) e.bytes
    { b with evr := { b.evr with firstCount := v.firstCount + 1 } }
  else b

/-- Steps 2 and 3 of an authorised clear (R424): the areas zeroed, the CLEARED entry as their index 0. -/
def Block.clearAreas (b : Block) (e : Event) : Block :=
  let v := b.evr
  let b := b.store Evr.firstArea (List.replicate 16384 0)
  let b := b.store Evr.firstArea e.bytes
  let b := { b with evr := { v with firstCount := 1 } }
  let b :=
    if v.clrLast then
      let b := b.store Evr.lastArea (List.replicate 262144 0)
      let b := b.store Evr.lastArea e.bytes
      { b with evr := { b.evr with lastHead := 1 } }
    else b
  b.irq Blk.evr 2

/-- Step 1 of an authorised clear: event CLEARED with FIRST_COUNT and the number of the newest first-area entry. -/
def Block.raiseCleared (b : Block) (clrLast : Bool) : Block :=
  let n := b.evr.firstCount
  let newest := if n = 0 then 0 else leAt (b.entryAt Evr.firstArea (n - 1)) 16 4
  let b := b.event 0x1705 0xFFFF n newest
  { b with evr := { b.evr with clrLast := clrLast, clearWaits := none } }

/-- The event numbered lowest among the heads of the input buffer and of Q4 (R422), with the recorder after its removal. -/
def Evr.nextEntry (v : Evr) : Option (Event × Evr) :=
  match v.buf, v.held with
  | [], [] => none
  | e :: r, [] => some (e, { v with buf := r })
  | [], h :: r => some (h, { v with held := r })
  | e :: r, h :: q => if later 32 e.seq h.seq then some (h, { v with held := q }) else some (e, { v with buf := r })

/-- The losses of a full input buffer reported once space returns (R419). -/
def Block.reportInputLoss (b : Block) : Block :=
  let v := b.evr
  if v.lostIn = 0 then b
  else (({ b with evr := { v with lostIn := 0, lostInFirst := 0 } }).irq Blk.evr 0).event 0x1701 0xFFFF v.lostIn v.lostInFirst

/-! ### CLEARED of an energy point (R290) -/

def Block.setNrgPt (b : Block) (p : Nat) (x : NrgPt) : Block := { b with nrg := { b.nrg with pts := Tbl.put b.nrg.pts p x NrgPt.reset } }

/-- The accumulators zeroed by a clear (R290), with its interrupt; a save follows. -/
def Block.nrgZero (b : Block) (p : Nat) : Block :=
  let x := b.nrgPt p
  let b := b.setNrgPt p { x with acc := List.replicate 32 0, before := none, clear := 0 }
  { b.irq Blk.nrg 4 with nrg := { b.nrg with nextSave := min b.nrg.nextSave b.t7 } }

/-- An entry that EVR has written to its areas: a clear that waited for it zeroes the accumulators. -/
def Block.nrgEntry (b : Block) (e : Event) : Block :=
  if e.code = 0x0C08 ∧ (b.nrgPt e.src).clear = 2 then b.nrgZero e.src else b

/-- The next buffered entry written to MRAM; nothing during a freeze or before the scan (R418, R421). -/
def Block.entryWrite (b : Block) : Block :=
  if b.evr.ready = false ∨ b.evr.frozenAt.isSome = true then b
  else match b.evr.nextEntry with
    | none => b
    | some (e, v) =>
      let b := (({ b with evr := v }).writeEntry e).nrgEntry e
      let b := if e.code = 0x1705 then b.clearAreas e else b
      let b := b.reportInputLoss
      match b.evr.clearWaits with
      | some c => if e.code = 0x1705 then b.raiseCleared c else b
      | none => b

/-- An unlock ends at any write to EVR.CMD (R424). -/
def Block.lockClear (b : Block) : Block := { b with evr := { b.evr with unlockAt := none } }

/-- EVR.CMD[FREEZE]: ignored during a freeze (R421). -/
def Block.evrFreeze (b : Block) : Block :=
  let b := b.lockClear
  if b.evr.frozenAt.isSome then b else { b with evr := { b.evr with frozenAt := some b.t7 } }

/-- The end of a freeze: the losses of the freeze are reported (R422). -/
def Block.freezeEnds (b : Block) : Block :=
  let v := b.evr
  if v.frozenAt.isNone then b
  else
    let b := { b with evr := { v with frozenAt := none, lostFrz := 0, lostFrzFirst := 0 } }
    if v.lostFrz = 0 then b else (b.irq Blk.evr 1).event 0x1703 0xFFFF v.lostFrz v.lostFrzFirst

/-- EVR.CMD[THAW] (R422). -/
def Block.evrThaw (b : Block) : Block := b.lockClear.freezeEnds

/-- A freeze ends 1 s after its FREEZE write (R421). -/
def Block.freezeTimeout (b : Block) : Block :=
  match b.evr.frozenAt with
  | some f =>
    if f + nsPerS ≤ b.t7 then
      let b := b.setBit Reg.EVR_STATUS 0 0 29
      b.freezeEnds.event 0x1704
    else b
  | none => b

/-- EVR.CMD[CLEAR] (R424). -/
def Block.evrClear (b : Block) (m : Nat) (clrLast : Bool) : Block :=
  let open_ := match b.evr.unlockAt with | some u => decide (b.t7 ≤ u + 100000) | none => false
  let b := b.lockClear
  if b.sys.mode = .maintenance ∧ m = 0 ∧ open_ = true then
    if b.evr.buf.any (fun e => e.code == 0x1705) then { b with evr := { b.evr with clearWaits := some clrLast } }
    else b.raiseCleared clrLast
  else ((b.count Reg.EVR_CLR_REFUSED).irq Blk.evr 3).event 0x1706

/-- A write to EVR.CLR_UNLOCK (R424). -/
def Block.clrUnlock (b : Block) (v : Nat) : Block :=
  { b with evr := { b.evr with unlockAt := if v % 4294967296 = 0xC1EA5A5A then some b.t7 else none } }

/-- The sets of EVR.COMMIT: one per snapshot set, and the block-global registers together. -/
def Evr.group (k : Nat) : Nat := if keySpace k = 0 then keyInst k else 1000

/-- A write of EVR.COMMIT and its hand-over; an event of the same cycle still uses the old sets (R425). -/
def Block.evrCommit (b : Block) : Block :=
  let old := match b.evr.before with
    | some (t, l) => if t = b.t7 then l else b.regs.act.filter (fun e => keyBlk e.1 == Blk.evr)
    | none => b.regs.act.filter (fun e => keyBlk e.1 == Blk.evr)
  let b := { b with evr := { b.evr with before := some (b.t7, old) } }
  ((b.commit Blk.evr).ripen (fun k => keyBlk k == Blk.evr)).handover (fun k => keyBlk k == Blk.evr) Evr.group (fun _ _ => true)
    (fun b _ => (b.irq Blk.evr 4).event 0x1707)

/-- A write of EVR.CMD. A THAW written with a FREEZE leaves the recorder frozen (R422). -/
def Block.evrCmd (b : Block) (m : Nat) (w : Word) : Block :=
  let n := w.toNat
  let b := if bit n 2 then b.evrClear m (bit n 3) else b.lockClear
  let b := if bit n 1 then b.freezeEnds else b
  if bit n 0 then b.evrFreeze else b

end Sys2Proof.Machine
end

