-- ==== Sys2Proof/Machine/PrtOps.lean ====
section
/-! DEFINITION. The ports: frames built, queued and sent, large sends and fragments, links and modules (R29 to R53). -/

namespace Sys2Proof.Machine

def Block.setPort (b : Block) (p : Nat) (x : PrtPort) : Block := { b with prt := Tbl.put b.prt p x PrtPort.reset }

/-! ### Checksums and headers -/

/-- The ones' complement sum of bytes taken as big-endian 16-bit words. -/
def sum16 : List Byte → Nat → Nat
  | [], a => a
  | [x], a => let s := a + x.toNat * 256; s % 65536 + s / 65536
  | x :: y :: r, a => let s := a + x.toNat * 256 + y.toNat; sum16 r (s % 65536 + s / 65536)

/-- The Internet checksum of bytes. -/
def inetSum (bs : List Byte) : Nat := 65535 - sum16 bs 0

/-- Bytes [i, i + n) replaced. -/
def patch (bs : List Byte) (i : Nat) (v : List Byte) : List Byte := bs.take i ++ v ++ bs.drop (i + v.length)

/-- The port address as bytes (PRT.MAC_LO, PRT.MAC_HI). -/
def Block.portMac (b : Block) (p : Nat) : List Byte :=
  leBytes 4 (b.vis Reg.PRT_MAC_LO p).toNat ++ leBytes 2 (b.vis Reg.PRT_MAC_HI p).toNat

/-- An Ethernet header with an optional C-tag. -/
def ethHead (dst src : List Byte) (tci etype : Nat) : List Byte :=
  dst ++ src ++ (if tci = 0 then [] else beBytes 2 0x8100 ++ beBytes 2 tci) ++ beBytes 2 etype

/-- An IPv4 header without options. -/
def ip4Head (dscp len ident frag : Nat) (hops : Byte) (proto src dst : Nat) : List Byte :=
  let h := [0x45, BitVec.ofNat 8 (dscp * 4)] ++ beBytes 2 len ++ beBytes 2 ident ++ beBytes 2 frag ++ [hops] ++
    beBytes 1 proto ++ beBytes 2 0 ++ beBytes 4 src ++ beBytes 4 dst
  patch h 10 (beBytes 2 (inetSum h))

/-- An IPv6 header. -/
def ip6Head (dscp len next : Nat) (hops : Byte) (src dst : Nat) : List Byte :=
  beBytes 4 (6 * 2 ^ 28 + dscp * 2 ^ 22) ++ beBytes 2 len ++ beBytes 1 next ++ [hops] ++ beBytes 16 src ++ beBytes 16 dst

/-- The pseudo-header of a checksum. -/
def pseudo (v6 : Bool) (src dst proto len : Nat) : List Byte :=
  if v6 then beBytes 16 src ++ beBytes 16 dst ++ beBytes 4 len ++ beBytes 4 proto
  else beBytes 4 src ++ beBytes 4 dst ++ beBytes 2 proto ++ beBytes 2 len

/-- A UDP datagram with its checksum over the whole datagram (R51). -/
def UdpDesc.datagram (d : UdpDesc) : List Byte :=
  let len := 8 + d.payload.length
  let h := beBytes 2 d.sport ++ beBytes 2 d.dport ++ beBytes 2 len
  let c := inetSum (pseudo d.v6 d.src d.dst 17 len ++ h ++ beBytes 2 0 ++ d.payload)
  let c := if d.zeroSum && !d.v6 then 0 else if c = 0 then 65535 else c
  h ++ beBytes 2 c ++ d.payload

/-! ### The egress queues -/

/-- The bytes that forwarded frames hold in a port's egress FIFO (R44). -/
def PrtPort.fwdUsed (x : PrtPort) : Nat := ((x.txq.filter (·.fwd)).map (fun e => e.bytes.length + 4)).foldl (· + ·) 0

/-- A frame queued in its class; a port whose link is down discards it and counts it in TX_ABORT or FWD_DROP (the model's choice beside R49,
log entry 112). -/
def Block.enqueue (b : Block) (p : Nat) (e : Egress) : Block :=
  let x := b.port p
  if x.up then b.setPort p { x with txq := x.txq ++ [e] }
  else b.count (if e.fwd then Reg.PRT_FWD_DROP else Reg.PRT_TX_ABORT) p

def Block.enqueueAll (b : Block) (p cls : Nat) (frames : List (List Byte)) : Block :=
  frames.foldl (fun b f => b.enqueue p ⟨cls, false, .none, f⟩) b

/-- The pieces of a datagram of at most `n` bytes each, with their offsets. -/
def fragments (bs : List Byte) (n : Nat) : List (Nat × List Byte) :=
  (List.range (if n = 0 then 0 else ceilDiv bs.length n)).map (fun i => (i * n, (bs.drop (i * n)).take n))

/-- The frames of a UDP descriptor on a port, and the port's next IPv6 Identification (R51). -/
def UdpDesc.frames (d : UdpDesc) (mac : List Byte) (ip6id : Nat) : List (List Byte) × Nat :=
  let dg := d.datagram
  let eth := ethHead d.dmac mac d.tci (if d.v6 then 0x86DD else 0x0800)
  if d.v6 then
    if dg.length + 40 ≤ d.mtu then ([eth ++ ip6Head d.dscp dg.length 17 d.hops d.src d.dst ++ dg], ip6id)
    else
      let n := (d.mtu - 48) / 8 * 8
      ((fragments dg n).map (fun f =>
        let more := if f.1 + f.2.length < dg.length then 1 else 0
        eth ++ ip6Head d.dscp (f.2.length + 8) 44 d.hops d.src d.dst ++
          beBytes 1 17 ++ beBytes 1 0 ++ beBytes 2 (f.1 + more) ++ beBytes 4 ip6id ++ f.2), (ip6id + 1) % 4294967296)
  else if dg.length + 20 ≤ d.mtu then
    ([eth ++ ip4Head d.dscp (dg.length + 20) d.ident 0 d.hops 17 d.src d.dst ++ dg], ip6id)
  else
    let n := (d.mtu - 20) / 8 * 8
    ((fragments dg n).map (fun f =>
      let more := if f.1 + f.2.length < dg.length then 0x2000 else 0
      eth ++ ip4Head d.dscp (f.2.length + 20) d.ident (f.1 / 8 + more) d.hops 17 d.src d.dst ++ f.2), ip6id)

/-- Whether PRT refuses a UDP descriptor (R52). -/
def UdpDesc.refused (d : UdpDesc) : Bool :=
  let dg := 8 + d.payload.length
  if d.v6 then decide (65535 < dg) || decide (d.mtu < 1280) else decide (65535 < dg + 20) || decide (d.mtu < 576)

/-- A UDP descriptor handed to a port (R51, R52). -/
def Block.udpSend (b : Block) (p cls : Nat) (d : UdpDesc) : Block :=
  if d.refused then b.count Reg.PRT_TX_REFUSED p
  else
    let x := b.port p
    let f := d.frames (b.portMac p) x.ip6id
    (b.setPort p { x with ip6id := f.2 }).enqueueAll p cls f.1

/-! ### Large sends (R50) -/

/-- Where the IP header starts in a template, and whether it is IPv6. -/
def LargeDesc.ipAt (d : LargeDesc) : Nat := if beAt d.template 12 2 = 0x8100 then 18 else 14
def LargeDesc.v6 (d : LargeDesc) : Bool := beAt d.template (d.ipAt - 2) 2 = 0x86DD
def LargeDesc.tcpAt (d : LargeDesc) : Nat := d.ipAt + (if d.v6 then 40 else 20)

/-- The number of TCP option bytes in the template. -/
def LargeDesc.options (d : LargeDesc) : Nat := beAt d.template (d.tcpAt + 12) 1 / 16 * 4 - 20

/-- Whether PRT refuses the descriptor for its MSS; one past the limits of options or payload is refused and counted alike (the model's
choice, log entry 112). -/
def Block.largeRefused (b : Block) (p : Nat) (d : LargeDesc) : Bool :=
  let max := (b.vis Reg.PRT_MAX_FRAME p).toNat
  decide (d.mss < 536) || decide (max < d.mss + d.options + (if d.v6 then 82 else 62)) || decide (262144 < d.payload.length) ||
    decide (40 < d.options)

/-- Segment i of n: the template with its lengths, Identification, sequence number, flags and checksums. -/
def LargeDesc.segment (d : LargeDesc) (n i : Nat) : List Byte :=
  let data := (d.payload.drop (i * d.mss)).take d.mss
  let ip := d.ipAt
  let tcp := d.tcpAt
  let h := d.template
  let seq := (beAt h (tcp + 4) 4 + i * d.mss) % 4294967296
  let fl := beAt h (tcp + 13) 1
  let fl := if i = 0 then fl else fl - b2n (bit fl 7) * 128
  let fl := if i + 1 = n then fl else fl - b2n (bit fl 0) - b2n (bit fl 3) * 8
  let h := patch (patch (patch h (tcp + 4) (beBytes 4 seq)) (tcp + 13) (beBytes 1 fl)) (tcp + 16) (beBytes 2 0)
  let tlen := h.length - tcp + data.length
  let h :=
    if d.v6 then patch h (ip + 4) (beBytes 2 tlen)
    else
      let h := patch h (ip + 2) (beBytes 2 (20 + tlen))
      let h := patch h (ip + 4) (beBytes 2 (beAt h (ip + 4) 2 + i))
      let h := patch h (ip + 10) (beBytes 2 0)
      patch h (ip + 10) (beBytes 2 (inetSum (slice h ip 20)))
  let ph := if d.v6 then pseudo true (beAt h (ip + 8) 16) (beAt h (ip + 24) 16) 6 tlen
    else pseudo false (beAt h (ip + 12) 4) (beAt h (ip + 16) 4) 6 tlen
  patch h (tcp + 16) (beBytes 2 (inetSum (ph ++ h.drop tcp ++ data))) ++ data

/-- A large-send descriptor handed to a port: refused, or cut into ⌈payload ÷ MSS⌉ segments (R50). -/
def Block.largeSend (b : Block) (p cls : Nat) (d : LargeDesc) : Block :=
  if b.largeRefused p d then (b.count Reg.PRT_TX_REFUSED p).eventRep p 0x0308 p
  else
    let n := if d.mss = 0 then 0 else ceilDiv d.payload.length d.mss
    b.enqueueAll p cls ((List.range n).map (d.segment n))

/-! ### Sending -/

/-- Where the PTP header starts in a frame. -/
def ptpAt (bs : List Byte) : Nat := if beAt bs 12 2 = 0x8100 then 18 else 14

/-- The correctionField of a PTP message with a value in 2⁻¹⁶ ns added. -/
def ptpAdd (bs : List Byte) (v : Int) : List Byte :=
  let i := ptpAt bs + 8
  patch bs i (beBytes 8 ((sgn 64 (beAt bs i 8) + v) % 18446744073709551616).toNat)

/-- A time base in ns without its steps. -/
def Block.unstepped (b : Block) (n : Nat) : Int := (b.tbNow n : Int) - (b.tb n).steps

/-- The residence time and the mean link delay of the ingress port, in 2⁻¹⁶ ns rounded to nearest (R45, R46); the delay is
left out while it is invalid, and counted (R248). A step of the time base in between is removed (R246). -/
def Block.residence (b : Block) (pairCfg port : Nat) (stamp : Int) : Int × Block :=
  let n := bits pairCfg 5 3
  let x := b.tb n
  let d := b.pdState port
  let raw : Int := b.unstepped n - stamp
  let scaled : Int := raw * 65536 + (raw * 65536 * x.rratio + 2 ^ 40) / 2 ^ 41
  if d.valid then (scaled + d.mean * 256, b) else (scaled, b.count Reg.TIM_PD_NODELAY_FWD port)

/-- A frame as it leaves its port, with what it still needed added (R45, R47, R248); TC_CORRECTED and TC_FUP_MISS count on the egress port
(the model's choice, log entry 112). -/
def Block.fixFrame (b : Block) (p : Nat) (e : Egress) : List Byte × Block :=
  let x := b.port p
  match e.fix with
  | .none => (e.bytes, b)
  | .oneStep port stamp =>
    let r := b.residence x.pairTx port stamp
    (ptpAdd e.bytes r.1, r.2.count Reg.PRT_TC_CORRECTED p)
  | .twoStep port stamp key =>
    let r := b.residence x.pairTx port stamp
    let b := r.2
    let q := p / 2 * 2
    let y := b.port q
    let t : TcEntry := ⟨key, r.1, b.t7⟩
    if y.tc.length < 16 then (e.bytes, b.setPort q { y with tc := y.tc ++ [t] })
    else (e.bytes, (b.setPort q { y with tc := y.tc.drop 1 ++ [t] }).count Reg.PRT_TC_FUP_MISS p)
  | .followUp pair key =>
    let y := b.port pair
    match y.tc.find? (fun t => t.key == key) with
    | some t => (ptpAdd e.bytes t.sum, (b.setPort pair { y with tc := y.tc.filter (fun u => u.key != key) }).count Reg.PRT_TC_CORRECTED p)
    | none => (e.bytes, b.count Reg.PRT_TC_FUP_MISS p)
  | .pdelayReq =>
    let n := fld (b.cfg Reg.TIM_PD_CFG p) 2 0
    (e.bytes, { b with tim := { b.tim with pd := Tbl.upd b.tim.pd p PeerDelay.reset (fun d => { d with t1 := some (b.tbNow n) }) } })
  | .pdelayResp stamp tb => (ptpAdd e.bytes (((b.tbNow tb : Int) - stamp) * 65536), b)

/-- The frame that strict priority serves next (R48). -/
def PrtPort.nextFrame (x : PrtPort) : Option Egress :=
  (x.txq.find? (·.cls == 3)).orElse (fun _ => (x.txq.find? (·.cls == 2)).orElse (fun _ =>
    (x.txq.find? (·.cls == 1)).orElse (fun _ => x.txq.find? (·.cls == 0))))

/-- A frame taken from its queue and put on the wire with its FCS, with the counters of R53. -/
def Block.sendFrame (b : Block) (p : Nat) (e : Egress) : Block :=
  let x := b.port p
  let b := b.setPort p { x with txq := x.txq.erase e }
  let f := b.fixFrame p e
  let b := f.2
  let x := b.port p
  let b := b.setPort p { x with txBytes := (x.txBytes + f.1.length + 4) % 2 ^ 64, sent := f.1 ++ leBytes 4 (crc32 f.1) }
  let b := b.count Reg.PRT_TX_FRAMES p
  if e.fwd then b.count Reg.PRT_FWD_FRAMES p else b

/-- The next frame of a port sent, if it is (`fwd`) or is not a forwarded one; its link must be up. -/
def Block.transmit (b : Block) (p : Nat) (fwd : Bool) : Block :=
  let x := b.port p
  match x.nextFrame with
  | some e => if x.up = true ∧ e.fwd = fwd then b.sendFrame p e else b
  | none => b

/-- Two-step entries that waited 1 s for their Follow_Up are freed (R47). -/
def Block.tcTimeout (b : Block) (pair : Nat) : Block :=
  let x := b.port (2 * pair)
  b.setPort (2 * pair) { x with tc := x.tc.filter (fun e => decide (b.t7 < e.at7 + nsPerS)) }

/-! ### Links, modules and settings -/

/-- The receive FIFO of a port (Table 2.1). -/
def Prt.fifoSize (p : Nat) : Nat := if p < 24 then 65536 else if p < 29 then 262144 else 16384

/-- The codes of PRT.PORT_STATUS[SPEED]; 10 Mb/s has none and reads 0 (the model's choice, log entry 112). -/
def Prt.speedCode (mbps : Nat) : Nat := if mbps = 100 then 1 else if mbps = 1000 then 2 else if mbps = 10000 then 3 else 0

/-- Whether a port's medium is permitted for it (Table 2.1; R7 leaves MEDIA unchanged on any other). -/
def Prt.mediaOk (p m : Nat) : Bool :=
  m == 0 || (decide (p < 24) && decide (1 ≤ m) && decide (m ≤ 4)) || (decide (24 ≤ p) && decide (p < 28) && (m == 5 || m == 2)) ||
    (p == 28 && m == 5) || (p == 29 && m == 6)

/-- A link down: the frame in progress and the queued frames are lost and counted (R44, R49). -/
def Block.linkLost (b : Block) (p : Nat) (onWire : Bool) : Block :=
  let x := b.port p
  let nf := (x.txq.filter (·.fwd)).length
  let n := x.txq.length - nf + b2n onWire
  let b := b.setPort p { x with up := false, speed := 0, txq := [] }
  let b := if n = 0 then b else b.count Reg.PRT_TX_ABORT p 0 n
  if nf = 0 then b else b.count Reg.PRT_FWD_DROP p 0 nf

/-- LINK_DOWN with its event and interrupt (R53). -/
def Block.linkDown (b : Block) (p : Nat) (onWire : Bool) : Block :=
  if (b.port p).up then ((b.linkLost p onWire).irq Blk.prt p).event 0x0302 p else b

/-- A negotiation result: half duplex, or 10 Mb/s on SGMII, holds the link down (R30); otherwise the link comes up at its
speed. Nothing comes up on a port that is OFF or switched off, or in HALT. HDX_REFUSED clears with the next link or an apply of changed
settings (the model's choice, log entry 112). -/
def Block.linkUp (b : Block) (p mbps : Nat) (half : Bool) : Block :=
  let x := b.port p
  let m := bits x.cfgRx 3 0
  if m = 0 ∨ x.powered = false ∨ b.sys.mode = .halt ∨ x.up = true then b
  else if half = true ∨ ((m = 3 ∨ m = 4) ∧ mbps = 10) then (b.setPort p { x with hdx := true }).event 0x0303 p
  else ((b.setPort p { x with up := true, hdx := false, speed := Prt.speedCode mbps }).irq Blk.prt p).event 0x0301 p

/-- A write of PORT_CFG or PAIR_CFG takes effect at a frame boundary in one direction (R31); a port set OFF loses its link. -/
def Block.portCfgApply (b : Block) (p : Nat) (tx : Bool) : Block :=
  let x := b.port p
  let c := (b.vis Reg.PRT_PORT_CFG p).toNat
  let q := if p < 24 then (b.vis Reg.PRT_PAIR_CFG (p / 2 * 2)).toNat else 8
  let x := if tx then { x with cfgTx := c, pairTx := q } else { x with cfgRx := c, pairRx := q }
  let x := if c = (b.port p).cfgTx ∧ c = (b.port p).cfgRx then x else { x with hdx := false }
  let b := b.setPort p x
  if bits c 3 0 = 0 then b.linkDown p false else b

/-- Every port's link held down (R475). -/
def Block.linksDown (b : Block) : Block := (List.range 30).foldl (fun b p => b.linkDown p false) b

/-- The IPv6 Identification counters of the ports start anew at LOAD (R51). -/
def Block.drawPortIds (b : Block) : Block :=
  (List.range 30).foldl (fun b p => let q := b.draw; q.2.setPort p { q.2.port p with ip6id := q.1 % 4294967296 }) b

/-- A pluggable module inserted or removed: a removal clears LINK_UP in the same cycle, which loses a frame on the wire, and readies the cage
(R49, R53, R471). -/
def Block.sfpChange (b : Block) (p : Nat) (change : ModuleChange) : Block :=
  (match change with
  | .inserted => b.setPort p { b.port p with modPresent := true, los := false }
  | .removed onWire =>
    let b := b.linkDown p onWire
    b.setPort p { b.port p with modPresent := false, powered := true, txFault := false, los := true }).event 0x0304 p

/-- A cage whose module draws over 1.3 times its limit for 10 ms is switched off until a new insertion (R471). -/
def Block.cagePower (b : Block) (p : Nat) (onWire : Bool) : Block :=
  let b := b.linkDown p onWire
  let x := b.port p
  (b.setPort p (if x.modPresent then { x with powered := false, txFault := true } else x)).event 0x0307 p

/-- A write of a filter entry's high word commits the whole entry; the entries before this cycle's commits are kept for the lookups of
the cycle (R38). -/
def Block.filterCommit (b : Block) (p e : Nat) : Block :=
  let x := b.port p
  let lo := if e < 16 then (b.vis Reg.PRT_UC_LO p e).toNat else (b.vis Reg.PRT_MC_LO p (e - 16)).toNat
  let hi := if e < 16 then (b.vis Reg.PRT_UC_HI p e).toNat else (b.vis Reg.PRT_MC_HI p (e - 16)).toNat
  let old := match x.filtOld with
    | some (t, f) => if t = b.t7 then f else x.filt
    | none => x.filt
  b.setPort p { x with filt := Tbl.put x.filt e (lo, hi) (0, 0x00010000), filtOld := some (b.t7, old) }

/-! ### Receiving: filters -/

/-- The filter entries that a lookup sees: those from before a commit of the same cycle (R38). -/
def Block.filters (b : Block) (p : Nat) : Tbl (Nat × Nat) :=
  match (b.port p).filtOld with
  | some (t, f) => if t = b.t7 then f else (b.port p).filt
  | none => (b.port p).filt

/-- The filter entry among `n` from `lo` that a destination address matches, by its bytes. -/
def Block.filterHit (b : Block) (p lo n : Nat) (dst : List Byte) : Option (Nat × Nat) :=
  ((List.range n).map (fun i => Tbl.get (b.filters p) (lo + i) (0, 0x00010000))).find? (fun e =>
    bit e.2 31 && leBytes 4 e.1 ++ leBytes 2 (bits e.2 15 0) == dst)

def Prt.broadcast : List Byte := List.replicate 6 0xFF
def Prt.ptpMain : List Byte := [0x01, 0x1B, 0x19, 0, 0, 0]
def Prt.ptpPeer : List Byte := [0x01, 0x80, 0xC2, 0, 0, 0x0E]

/-- Whether a destination is the port address or an extra unicast entry. -/
def Block.isUnicast (b : Block) (p : Nat) (dst : List Byte) : Bool :=
  dst == b.portMac p || (b.filterHit p 0 16 dst).isSome

/-- Whether a port admits a destination address (R37). -/
def Block.addrOk (b : Block) (p : Nat) (dst : List Byte) : Bool :=
  let x := b.port p
  b.isUnicast p dst || (b.filterHit p 16 32 dst).isSome || (dst == Prt.broadcast && bit x.cfgRx 4) ||
    ((dst == Prt.ptpMain || dst == Prt.ptpPeer) && bit x.cfgRx 6)

/-- A C-tag's TCI, none for an untagged frame. -/
def frameTci (bs : List Byte) : Option Nat := if beAt bs 12 2 = 0x8100 then some (beAt bs 14 2) else none

/-- The EtherType after an optional C-tag, and where the payload starts. -/
def frameType (bs : List Byte) : Nat × Nat :=
  if beAt bs 12 2 = 0x8100 then (beAt bs 16 2, 18) else (beAt bs 12 2, 14)

/-- Whether a port admits a frame's VLAN (R36). -/
def Block.vlanOk (b : Block) (p : Nat) (bs : List Byte) : Bool :=
  let x := b.port p
  let ty := beAt bs 12 2
  if (frameType bs).1 = 0x88F7 ∧ bs.take 6 = Prt.ptpPeer then true
  else if ty = 0x88A8 ∨ ty = 0x9100 then false
  else match frameTci bs with
    | none => bit x.cfgRx 5
    | some c => if c % 4096 = 0 then bit x.cfgRx 5 else bit (x.vlanWord (c % 4096 / 32)).toNat (c % 32)

/-- The VLAN tag of a frame as received or as assigned: PCP and VID (R36). -/
def Block.vlanTag (b : Block) (p : Nat) (bs : List Byte) : Nat :=
  let v := b.vis Reg.PRT_VLAN_CFG p
  match frameTci bs with
  | none => fld v 15 13 * 8192 + fld v 11 0
  | some c => if c % 4096 = 0 then c + fld v 11 0 else c

/-- A token bucket of `rate` per second and a burst, held as the debt in units of 10⁻⁹ and TB7 of its last use: whether it
has a token, and the bucket after. -/
def bucket (s : Nat × Nat) (rate burst now : Nat) : Bool × (Nat × Nat) :=
  let d := s.1 - rate * (now - s.2)
  if d + nsPerS ≤ burst * nsPerS then (true, (d + nsPerS, now)) else (false, (d, now))

/-- A host-bound frame: the policer, then the host receive ring (R41). The next frame written makes a later drop a first one again (the
model's choice, log entry 112). -/
def Block.hostReceive (b : Block) (p : Nat) (bs : List Byte) (stamp : Nat) : Block :=
  let x := b.port p
  let rate := bits x.cfgRx 31 16
  let k := bucket x.hrx rate 64 b.t7
  if rate = 0 ∨ k.1 = false then (b.setPort p { x with hrx := k.2 }).count Reg.PRT_HRX_POLICE p
  else
    let b := b.setPort p { x with hrx := k.2 }
    let size := (b.vis Reg.PRT_HRX_SIZE).toNat
    let head := (b.vis Reg.PRT_HRX_HEAD).toNat
    if size = 0 then b.count Reg.PRT_HRX_DROP p
    else if (head + 1) % size = (b.vis Reg.PRT_HRX_TAIL).toNat then
      let b := b.count Reg.PRT_HRX_DROP p
      if Tbl.get b.rep 0x0306 (0, 0) = (0, 0) then
        (({ b with rep := Tbl.put b.rep 0x0306 (b.t7 + 1, 0) (0, 0) }).irq Blk.prt 30).event 0x0306 p
      else b
    else
      let a := b.addrOf Reg.PRT_HRX_BASE_LO Reg.PRT_HRX_BASE_HI + head * 10240
      let d := (List.range 32).map (Config.layout 0 [p, bs.length + 4, stamp, b.vlanTag p bs])
      let b := (b.store a d).store (a + 32) bs
      let b := { b with rep := Tbl.erase b.rep 0x0306 }
      let b := b.setVis Reg.PRT_HRX_HEAD 0 0 (w32 ((head + 1) % size))
      b.push (b.vis Reg.PRT_HRX_QUEUE).toNat (p * 65536 + head) true

end Sys2Proof.Machine
end

