-- ==== Sys2Proof/Machine/TimOps.lean ====
section
/-! DEFINITION. The time bases: servo, sources, states, peer delay, TIN, leap seconds, pulse outputs (chapter 9). -/

namespace Sys2Proof.Machine

/-- A TIM event: it names its time base, output or port and carries TB_ERR of the time base (Table 9.7). -/
def Block.timEvent (b : Block) (code src tb arg1 : Nat) : Block := b.event code src (b.tbErrReg tb) arg1

/-- The count of the reference of a time base (R238). -/
def Block.refOf (b : Block) (n : Nat) : Nat := if n ≠ 0 ∧ (b.tb n).refTb0 = true then b.now else b.t7

/-- The time base re-anchored at this instant with a rate in 2⁻³⁸ (R239); its value does not change. In virtual operation the rate is
TIM.TB_VRATE's (R238, R251). -/
def Block.retune (b : Block) (n : Nat) (rho : Int) : Block :=
  let x := b.tb n
  let b := b.setTb n { x with va := (b.tbFine n : Nat), na := b.refOf n, rho := rho }
  if x.virtual then b.setVis Reg.TIM_TB_VRATE n 0 (BitVec.ofInt 32 rho) else b

/-- The entries of the leap table whose second TB0 has passed; what a step or a LOAD passes is no leap second applied (R258). -/
def Block.leapsPassed (b : Block) : Block :=
  { b with tim := { b.tim with leapDone := (b.tim.leaps.filter (fun e => decide (e.1 ≤ b.now / nsPerS))).length } }

/-- A time base put at a value, by a step of `d` ns (R239, R246, R254). -/
def Block.addTb (b : Block) (n : Nat) (d : Int) : Block :=
  let b := b.retune n (b.tb n).rho
  let x := b.tb n
  let b := b.setTb n { x with va := x.va + d * 65536, steps := x.steps + d }
  if n = 0 then b.leapsPassed else b

/-! ### Pulse outputs (R260 to R262) -/

def Block.setPo (b : Block) (i : Nat) (x : PulseOut) : Block := { b with tim := { b.tim with po := Tbl.put b.tim.po i x PulseOut.reset } }

/-- The time base, mode and period of a pulse output. -/
def Block.poTb (b : Block) (i : Nat) : Nat := b.cf Reg.TIM_PO_CFG i 26 24
def Block.poMode (b : Block) (i : Nat) : Nat := b.cf Reg.TIM_PO_CFG i 29 28
def Block.poPeriod (b : Block) (i : Nat) : Nat :=
  b.cf Reg.TIM_PO_PERIOD_SEC i 15 0 * nsPerS + b.cf Reg.TIM_PO_PERIOD_NS i 29 0

/-- The start time of a pulse output in ns. -/
def Block.poStart (b : Block) (i : Nat) : Nat :=
  (b.cn Reg.TIM_PO_START_SEC_LO i + b.cf Reg.TIM_PO_START_SEC_HI i 15 0 * 4294967296) * nsPerS + b.cn Reg.TIM_PO_START_NS i

/-- The first main-ring slot time from an instant on whose index is a multiple of SLOT_N. -/
def slotEdge (rate n : Nat) : Nat → Nat → Nat
  | 0, s => slotTime rate s
  | f + 1, s => if rate = 0 ∨ n = 0 then 0 else if s % rate % n = 0 then slotTime rate s else slotEdge rate n f (s + 1)

/-- The first edge of a pulse output's series at or after an instant, none where there is none (R260, R261). -/
def Block.poEdgeFrom (b : Block) (i t : Nat) : Option Nat :=
  let s := b.poStart i
  match b.poMode i with
  | 0 => if t ≤ s then some s else none
  | 1 =>
    let p := b.poPeriod i
    if t ≤ s then some s else if p = 0 then none else some (s + ceilDiv (t - s) p * p)
  | 2 =>
    let r := b.ringRate 0
    if r = 0 then none else some (slotEdge r (b.cf Reg.TIM_PO_CFG i 7 0) 256 (if t = 0 then 0 else slotAfter r (t - 1)))
  | _ => none

/-- The settings of a pulse output take effect (R261). -/
def Block.poArm (b : Block) (i : Nat) : Block :=
  let x := b.poState i
  if b.cb Reg.TIM_PO_CFG i 31 = false then b.setPo i { x with armed := false, nextEdge := none }
  else
    match b.poEdgeFrom i (b.tbNow (b.poTb i)) with
    | some e => b.setPo i { x with armed := true, nextEdge := some e }
    | none =>
      let b := b.setPo i { x with armed := false, nextEdge := none }
      let b := b.setBit Reg.TIM_PO_STATUS i 0 30
      (b.irq Blk.tim 5).eventRep i 0x020B i (b.tbErrReg (b.poTb i))

/-- Pulse outputs after a step, from the block before it: edges that a forward step has carried their time base past are skipped and counted,
later edges follow the new time (R261); a step of TB0 carries the bases that are virtual over it. -/
def Block.poStep (b before : Block) : Block :=
  (List.range 8).foldl (fun b i =>
    let x := b.poState i
    let old := before.tbNow (b.poTb i)
    let t := b.tbNow (b.poTb i)
    if x.armed = true ∧ t ≠ old then
      match x.nextEdge with
      | none => b
      | some e =>
        if t ≤ old then
          b.setPo i { x with nextEdge := match b.poMode i with | 0 => some e | _ => b.poEdgeFrom i (t + 1) }
        else if t ≤ e then b
        else
          let skipped := match b.poMode i with
            | 1 => if b.poPeriod i = 0 then 1 else (t - e + b.poPeriod i - 1) / b.poPeriod i
            | 2 =>
              let r := b.ringRate 0
              let k := b.cf Reg.TIM_PO_CFG i 7 0
              if r = 0 ∨ k = 0 then 0 else ((List.range (slotAfter r (t - 1) - slotNear r e)).filter (fun j => (slotNear r e + j) % r % k == 0)).length
            | _ => 1
          let b := if skipped = 0 then b else b.count Reg.TIM_PO_SKIPPED i 0 skipped
          let nx := b.poEdgeFrom i t
          b.setPo i { x with nextEdge := nx, armed := nx.isSome }
    else b) b

/-- Modes in which pulse outputs stay at their inactive level (R262). -/
def Block.pulsesOff (b : Block) : Bool :=
  b.sys.mode == .load || b.sys.mode == .selftest || b.sys.mode == .save || b.sys.mode == .halt

/-- Whether a pulse output's pin is active. -/
def Block.poActive (b : Block) (i : Nat) : Bool := (b.poState i).pulseEnd.isSome && !b.pulsesOff

/-- The level of a pulse output's pin, by POL (R260, R262). -/
def Block.poLevel (b : Block) (i : Nat) : Bool := b.poActive i == b.cb Reg.TIM_PO_CFG i 30

/-- What PO0 and PO1 drive on RS-422, none where DIFF is 0 (R260). -/
def Block.poDiff (b : Block) (i : Nat) : Option Bool := if i < 2 ∧ b.cb Reg.TIM_PO_CFG i 23 = true then some (b.poLevel i) else none

/-- A leading edge whose time has come (R260). -/
def Block.pulseEdge (b : Block) (i : Nat) : Block :=
  let x := b.poState i
  let n := b.poTb i
  match x.nextEdge with
  | none => b
  | some e =>
    if x.armed = false ∨ b.tbNow n < e then b
    else
      let nx := if b.poMode i = 0 then none else b.poEdgeFrom i (e + 1)
      let x := { x with nextEdge := nx, armed := nx.isSome }
      if b.pulsesOff then b.setPo i x
      else if b.cb Reg.TIM_PO_CFG i 27 = true ∧ (b.tb n).st ≠ .locked then (b.setPo i x).count Reg.TIM_PO_SKIPPED i
      else (b.setPo i { x with pulseEnd := some (e + b.cn Reg.TIM_PO_WIDTH i) }).count Reg.TIM_PO_EDGES i

/-! ### Hand-overs (R262, R263) -/

def Tim.isPo (k : Nat) : Bool := keyBlk k == Blk.tim && keySpace k == 1

/-- The smallest spacing of the slot times of a ring whose index is a multiple of n, the short one into the next second among them. -/
def slotSpacing (rate n : Nat) : Nat :=
  if rate = 0 ∨ n = 0 then 0
  else
    let e := (List.range (ceilDiv rate n)).map (fun j => slotTime rate (j * n))
    ((e.zip (e.drop 1 ++ [nsPerS])).map (fun x => x.2 - x.1)).foldl min nsPerS

/-- The check of a pulse output's set (R260). -/
def Block.poOk (b : Block) (k : Nat) : Bool :=
  let i := keyInst k
  let m := b.poMode i
  let w := b.cn Reg.TIM_PO_WIDTH i
  let en := b.cb Reg.TIM_PO_CFG i 31
  !en || (decide (100 ≤ w) && m != 3 &&
    (m != 1 || (decide (1000 ≤ b.poPeriod i) && decide (b.poPeriod i ≤ 65535 * nsPerS) && decide (w < b.poPeriod i))) &&
    (m != 2 || (b.poTb i == 0 && decide (1 ≤ b.cf Reg.TIM_PO_CFG i 7 0) &&
      decide (w < slotSpacing (b.ringRate 0) (b.cf Reg.TIM_PO_CFG i 7 0)))))

/-- The check of a time base's set: each source code is permitted for it (R242, Table 9.2). -/
def Block.srcsOk (b : Block) (n : Nat) : Bool :=
  (List.range 4).all (fun i =>
    let c := b.srcCode n i
    if c = 0 then true
    else if n = 0 then
      (decide (1 ≤ c) && decide (c ≤ 4) && (b.ptpState c).ptpScale) || c == 5 || c == 6 || c == 7 ||
        (c == 8 && !(bit (b.cn Reg.CAS_CFG) 31 && bits (b.cn Reg.CAS_CFG) 26 24 == 0))
    else if 1 ≤ n ∧ n ≤ 4 then c == 9
    else false)

/-- The check of a port's peer-delay set: one that is enabled names TB1 to TB4 (R248). -/
def Block.pdOk (b : Block) (p : Nat) : Bool :=
  let n := b.cf Reg.TIM_PD_CFG p 2 0
  !b.cb Reg.TIM_PD_CFG p 31 || (decide (1 ≤ n) && decide (n ≤ 4))

def Block.timReject (b : Block) (k : Nat) : Block :=
  (b.irq Blk.tim 8).timEvent 0x020D (if keySpace k = 15 then 0xFFFF else keyInst k) 0 0

/-- The waiting set of one pulse output handed over, while no pulse is in progress (R262). -/
def Block.poHandover (b : Block) (i : Nat) : Block :=
  if b.comInst Blk.tim 1 i = false ∨ (b.poState i).pulseEnd.isSome = true then b
  else
    let p := fun k => Tim.isPo k && keyInst k == i
    let old := b.regs.act
    let b := b.handover p (fun _ => i) (fun b sets => match sets with | e :: _ => b.poOk e.1 | [] => true) Block.timReject
    if b.regs.act = old then b else b.poArm i

/-- A write of TIM.COMMIT: pulse outputs hand over in the cycle after it, the rest at the next whole TB0 second. -/
def Block.timCommit (b : Block) : Block :=
  let b := (b.commit Blk.tim).ripen Tim.isPo
  let b := (List.range 8).foldl Block.poHandover b
  if b.regs.com.any (fun e => keyBlk e.1 == Blk.tim && keySpace e.1 != 1) then
    { b with tim := { b.tim with handoverAt := some (b.tim.handoverAt.getD (b.now / nsPerS + 1)) } }
  else b

/-- The groups of TIM's sets: per instance of a space, and the block-global registers. -/
def Tim.group (k : Nat) : Nat := if keySpace k = 15 then 4096 else keySpace k * 64 + keyInst k

/-! ### States (Table 9.4) -/

/-- The rate of an estimate and a correction in 2⁻¹⁶ ns/s, in units of 2⁻³⁸, held to the 32 bits of its register (log entry 118). -/
def rateOf (fi p : Int) : Int := clampI (-2147483648) 2147483647 ((fi + p) * 4194304 / 1000000000)

/-- A source lost, for a loss condition or because the time base it is left LOCKED (R243, R253). While another source is qualified the switch
waits for its first measurement; where that one is lost before it, no source is left (R244). -/
def Block.sourceLost (b : Block) (n src : Nat) : Block :=
  let was := (b.tb n).qual
  let x := b.tb n
  let x := { x with qual := setDel x.qual src }
  let b := b.setTb n x
  if src = 0 ∨ x.src = 0 ∨ ¬ (x.src = src ∨ (was.contains src = true ∧ x.qual.contains x.src = false ∧ n < 5)) then b
  else
    let lost (b : Block) : Block := (b.irq Blk.tim 9).timEvent 0x0207 n n src
    if ((List.range 4).map (b.srcCode n)).any (fun c => c != 0 && x.qual.contains c) then lost b
    else
      let b := b.retune n (rateOf x.fi 0)
      let x := { b.tb n with src := 0, prop := 0, okSince := none, outRun := 0 }
      let b := b.setTb n x
      let b := if b.errOk n then (((b.setTb n { x with st := .holdover }).count Reg.TIM_TB_HOLDOVERS n).irq Blk.tim 2).timEvent 0x0203 n n 0
        else if x.st = .unlocked then b
        else ((b.setTb n { x with st := .unlocked }).irq Blk.tim 3).timEvent 0x0204 n n 0
      lost b

/-- The consequences of a time base leaving LOCKED: it is lost to TB0 as a source (Table 9.3). -/
def Block.lostToTb0 (b : Block) (n : Nat) : Block :=
  let b := b.setTb n { b.tb n with lockedSince := none }
  if 1 ≤ n ∧ n ≤ 4 then b.sourceLost 0 n else if n = 6 then b.sourceLost 0 8 else b

/-- A source's loss, with what follows for TB0 (R243). -/
def Block.loseSource (b : Block) (n src : Nat) : Block :=
  let was := (b.tb n).st
  let b := b.sourceLost n src
  if was = .locked ∧ (b.tb n).st ≠ .locked then b.lostToTb0 n else b

/-- Whether a time base runs (TB_CFG[EN]; TB0 and TB7 always). -/
def Block.tbEnabled (b : Block) (n : Nat) : Bool := n == 0 || n == 7 || b.cb Reg.TIM_TB_CFG n 31

/-- A time base under new settings: sources that its list no longer has are not qualified, an active one among them is lost; a disabled
time base has left LOCKED, has no source, and starts again without one (R243, Table 9.4). -/
def Block.tbSettings (b : Block) (n : Nat) : Block :=
  let x := b.tb n
  let list := (List.range 4).map (b.srcCode n)
  let gone := x.qual.filter (fun c => !list.contains c)
  let b := gone.foldl (fun b c => b.loseSource n c) b
  if b.tbEnabled n then b
  else
    let was := (b.tb n).st
    let b := b.setTb n { b.tb n with st := .freerun, src := 0, qual := [], prop := 0, okSince := none, lockedSince := none, e0 := none, lastExt := none }
    if was = .locked then b.lostToTb0 n else b

/-- Whether the slave of a time base meets its condition of Table 9.3: SLAVE on a link that is up, clockClass, peer delay. -/
def Block.ptpMeets (b : Block) (n : Nat) : Bool :=
  let p := b.cf Reg.TIM_PTP_CFG n 28 24
  b.cb Reg.TIM_PTP_CFG n 31 && (b.port p).up && (b.ptpState n).st == 3 &&
    decide ((b.ptpState n).clockClass ≤ b.cf Reg.TIM_PTP_CFG n 7 0) && (b.pdState p).valid

/-- Since when it does, noted (R243). -/
def Block.ptpNote (b : Block) (n : Nat) : Block :=
  let x := b.ptpState n
  let s := if b.ptpMeets n then some (x.okSince.getD b.t7) else none
  if x.okSince = s then b else { b with tim := { b.tim with ptp := Tbl.put b.tim.ptp n { x with okSince := s } PtpPort.reset } }

/-- What the slave of a time base runs by: EN, PORT and DOMAIN. -/
def Block.ptpSeat (b : Block) (n : Nat) : List Nat :=
  [b.cf Reg.TIM_PTP_CFG n 31 31, b.cf Reg.TIM_PTP_CFG n 28 24, b.cf Reg.TIM_PTP_CFG n 23 16]

/-- A slave that a hand-over has moved to another port or domain, or switched, starts again in LISTENING without a master (R245). -/
def Block.ptpMoved (b before : Block) (n : Nat) : Block :=
  if b.ptpSeat n = before.ptpSeat n then b
  else ({ b with tim := { b.tim with ptp := Tbl.put b.tim.ptp n { PtpPort.reset with st := 1 } PtpPort.reset } }).loseSource n 9

/-- The hand-over at a whole TB0 second (R263). -/
def Block.timHandover (b : Block) : Block :=
  match b.tim.handoverAt with
  | none => b
  | some s =>
    if b.now / nsPerS < s then b
    else
      let b0 := b
      let b := { b with tim := { b.tim with handoverAt := none } }
      let b := b.handover (fun k => keyBlk k == Blk.tim && keySpace k != 1) Tim.group
        (fun b sets => sets.all (fun e => if keySpace e.1 = 0 then b.srcsOk (keyInst e.1) else if keySpace e.1 = 2 then b.pdOk (keyInst e.1) else true))
        Block.timReject
      [1, 2, 3, 4].foldl Block.ptpNote ((List.range 5).foldl Block.tbSettings ([1, 2, 3, 4].foldl (fun c n => c.ptpMoved b0 n) b))

/-- E above LOCK_LIM: a LOCKED or HOLDOVER time base becomes UNLOCKED (R253, Table 9.4). -/
def Block.errorLimit (b : Block) (n : Nat) : Block :=
  let x := b.tb n
  if b.errOk n then b
  else match x.st with
    | .locked => (((b.setTb n { x with st := .unlocked, okSince := none }).irq Blk.tim 3).timEvent 0x0204 n n 0).lostToTb0 n
    | .holdover => ((b.setTb n { x with st := .unlocked }).irq Blk.tim 3).timEvent 0x0204 n n 0
    | _ => b

/-- E has stayed within LOCK_LIM for LOCK_HOLD: the time base becomes LOCKED (Table 9.4). -/
def Block.lockHold (b : Block) (n : Nat) : Block :=
  let x := b.tb n
  match x.okSince with
  | some s =>
    if x.st = .acquiring ∧ b.errOk n = true ∧ s + b.cf Reg.TIM_TB_LOCK n 31 26 * nsPerS ≤ b.t7 then
      let b := b.setTb n { x with st := .locked, lockedSince := some b.t7 }
      let b : Block := if n = 0 ∧ x.src ≠ 7 then { b with tim := { b.tim with secsSeen := true } } else b
      (b.irq Blk.tim 1).timEvent 0x0202 n n 0
    else b
  | none => b

/-- Whether a source has met its condition of Table 9.3 for QUAL_S seconds without a break (R243). -/
def Block.sourceOk (b : Block) (n src : Nat) : Bool :=
  let q := b.cn Reg.TIM_QUAL_S * nsPerS
  let heldFrom (s : Option Nat) : Bool := match s with | some s => decide (s + q ≤ b.t7) | none => false
  let heldBy (m : Nat) : Bool := (b.tb m).st == .locked && heldFrom (b.tb m).lockedSince
  let x := b.tim.tin
  if n = 0 then
    if 1 ≤ src ∧ src ≤ 4 then heldBy src
    else if src = 8 then heldBy 6
    else if src = 5 then x.irigValid && decide (x.irigTq ≤ b.cf Reg.TIM_TIN_CFG 0 3 0) && b.cb Reg.TIM_TIN_CFG 0 31 && heldFrom x.irigSince
    else if src = 6 then x.ppsPresent && x.todValid && b.cb Reg.TIM_TIN_CFG 0 30 && b.cb Reg.TIM_TIN_CFG 0 29 && heldFrom x.todSince
    else if src = 7 then x.ppsPresent && b.tim.secsSeen && b.cb Reg.TIM_TIN_CFG 0 29 && heldFrom x.ppsSince
    else false
  else if 1 ≤ n ∧ n ≤ 4 then src == 9 && b.ptpMeets n && heldFrom (b.ptpState n).okSince
  else n == 5 || n == 6

/-- A source that has met its condition for QUAL_S seconds becomes qualified (R243). -/
def Block.sourceQualified (b : Block) (n src : Nat) : Block :=
  let x := b.tb n
  if b.sourceOk n src = true ∧ b.tbEnabled n = true ∧ ((List.range 4).map (b.srcCode n)).contains src = true ∧ src ≠ 0 then
    b.setTb n { x with qual := setIns x.qual src }
  else b

/-- The highest-priority qualified source (R244). On TB5 and TB6 the source is the link that RAD and CAS drive. -/
def Block.bestSource (b : Block) (n : Nat) : Nat :=
  if n = 5 ∨ n = 6 then 15
  else match ((List.range 4).map (b.srcCode n)).find? (fun c => c != 0 && (b.tb n).qual.contains c) with
    | some c => c
    | none => 0

/-! ### The servo (R251 to R255) -/

/-- The active source switches at the first measurement from the new one: the window restarts (R244, R252). -/
def Block.switchSource (b : Block) (n src : Nat) : Block :=
  let x := b.tb n
  if x.src = src then b
  else
    let b := b.setTb n { x with src := src, win := [], refill := true, newly := true, outRun := 0, okSince := none }
    let b := (b.count Reg.TIM_TB_SRC_SWITCH n).irq Blk.tim 0
    let b := b.timEvent 0x0201 n n (x.src + 256 * src)
    let y := b.tb n
    if y.st = .locked then b
    else b.setTb n { y with st := .acquiring }

/-- The measurement that becomes the step of a time base, with its count and event (R246, R254): it enters no window, and an UNLOCKED time
base is ACQUIRING from it on (R253). -/
def Block.stepBy (b : Block) (n : Nat) (x : Int) : Block :=
  let b := (b.addTb n x).poStep b
  let y := b.tb n
  let b := b.setTb n { y with newly := false, lastMeas := some b.t7, st := if y.st = .unlocked then .acquiring else y.st }
  (b.count Reg.TIM_TB_STEPS n).timEvent 0x0206 n n (sat32 x)

/-- An accepted offset in the servo and in the window of 16 (R251, R252). -/
def Block.accept (b : Block) (n : Nat) (x : Int) (eSrc : Nat) (ext : Option Nat) : Block :=
  let y := b.tb n
  let kp := b.cf Reg.TIM_TB_CFG n 7 4
  let ki := b.cf Reg.TIM_TB_CFG n 3 0
  let T : Nat := match y.lastMeas with | some l => b.t7 - l | none => 0
  let lim : Int := 50000 * 65536
  let slew : Int := (b.cn Reg.TIM_TB0_SLEW : Nat) * 65536
  let fi := if T = 0 then y.fi else clampI (-lim) lim (y.fi + x * 65536 * 1000000000 / (T * 2 ^ ki : Nat))
  let p : Int := if T = 0 then 0 else x * 65536 * 1000000000 / (T * 2 ^ kp : Nat)
  let p := if n = 0 ∧ b.sys.mode ≠ .acquire then clampI (-slew) slew p else p
  let b := b.retune n (rateOf fi p)
  let win := (y.win ++ [x]).drop (y.win.length + 1 - 16)
  let y : TimeBase := { b.tb n with
    fi := fi
    prop := p
    x := x
    win := win
    eSrc := eSrc
    newly := false
    outRun := 0
    lastMeas := some b.t7
    lastExt := if (y.refill = true ∧ win.length < 16) ∨ ext.isNone = true then y.lastExt else ext
    refill := y.refill && decide (win.length < 16) }
  let b := b.setTb n y
  let b := match b.tbErr n with
    | some e => if y.refill then b else b.setTb n { y with e0 := some e }
    | none => b
  let y := b.tb n
  let y : TimeBase := if y.st = .unlocked then { y with st := .acquiring } else y
  let y : TimeBase := if b.errOk n then { y with okSince := some (y.okSince.getD b.t7) } else { y with okSince := none }
  (b.setTb n y).errorLimit n

/-- Whether TB0 is disciplined in this mode (Table 9.5). -/
def Block.tb0Disciplined (b : Block) : Bool :=
  match b.sys.mode with
  | .active | .holdover | .standby | .takeover | .degraded | .maintenance | .debug => true
  | _ => false

/-- Whether measurements act on TB0: in LOAD and SELFTEST it runs free (Table 9.5). -/
def Block.tb0Measures (b : Block) : Bool := b.sys.mode == .acquire || b.tb0Disciplined

/-- One measurement of a time base: offset x in ns, the error of its source in ps, TB7 when the last external measurement
reached it by this source (R252). The Bool
says that TB0 stepped; the Option that a disciplined TB0 asks to re-acquire by this x (R255). -/
def Block.measure (b : Block) (n src : Nat) (x : Int) (eSrc : Nat) (ext : Option Nat) : Block × Bool × Option Int :=
  if src ≠ b.bestSource n ∨ b.tbEnabled n = false ∨ n = 7 ∨ (n = 0 ∧ b.tb0Measures = false) then (b, false, none)
  else
    let b := b.switchSource n src
    let y := b.tb n
    let thr : Nat := b.cn Reg.TIM_TB0_STEP_THR
    if n = 0 ∧ b.sys.mode = .acquire then
      if y.newly = true ∨ x.natAbs > b.cn Reg.TIM_TB0_ACQ_STEP * 1000 then (b.stepBy 0 x, true, none)
      else (b.accept 0 x eSrc ext, false, none)
    else if n = 0 ∧ b.tb0Disciplined = true ∧ thr < x.natAbs then
      let b := b.setTb 0 { y with reacq := true }
      let b := (b.irq Blk.tim 4).timEvent 0x0205 0 0 (sat32 x)
      match b.sys.mode with
      | .active | .holdover | .degraded | .standby =>
        if b.cb Reg.TIM_TB_CFG 0 30 then (b.accept 0 x eSrc ext, false, none) else (b, false, some x)
      | _ => (b.accept 0 x eSrc ext, false, none)
    else if 1 ≤ n ∧ n ≤ 4 ∧ x.natAbs > b.cf Reg.TIM_PTP_CFG n 15 8 * 1000 then (b.stepBy n x, false, none)
    else
      let cleared := n = 0 ∧ y.reacq = true
      let b := if cleared then b.setTb 0 { y with reacq := false } else b
      let y := b.tb n
      if y.st = .locked ∧ b.cf Reg.TIM_TB_LOCK n 16 0 * 10 < x.natAbs ∧ y.outRun < 2 ∧ ¬ cleared then
        ((b.setTb n { y with outRun := y.outRun + 1 }).count Reg.TIM_TB_OUTLIERS n, false, none)
      else (b.accept n x eSrc ext, false, none)

/-- The upper bound of a PTP clockAccuracy in ps (IEEE 1588), a very large one where it is unknown. -/
def Ptp.accuracyPs (a : Nat) : Nat :=
  match a with
  | 0x20 => 25000
  | 0x21 => 100000
  | 0x22 => 250000
  | 0x23 => 1000000
  | 0x24 => 2500000
  | 0x25 => 10000000
  | 0x26 => 25000000
  | 0x27 => 100000000
  | 0x28 => 250000000
  | 0x29 => 1000000000
  | 0x2A => 2500000000
  | 0x2B => 10000000000
  | 0x2C => 25000000000
  | 0x2D => 100000000000
  | 0x2E => 250000000000
  | 0x2F => 1000000000000
  | 0x30 => 10000000000000
  | _ => if a < 0x20 ∧ 0x17 ≤ a then 25000 else 4294967295000

/-- The bound of a C37.118.1 time-quality code in ps. -/
def Irig.boundPs (q : Nat) : Nat := if 1 ≤ q ∧ q ≤ 11 then 1000 * 10 ^ (q - 1) else 4294967295000

/-- E_src of the PTP source of a time base, in ps (R252). -/
def Block.ptpErr (b : Block) (n : Nat) : Nat :=
  let p := b.ptpState n
  if p.ttiPresent then p.tti * 1000 else Ptp.accuracyPs p.accuracy

/-- The rate ratio of R247 from the last 8 Syncs: grandmaster time (originTimestamp plus correction) in 2⁻¹⁶ ns, receive stamp in ns. -/
def Tim.ratio (s : List (Int × Int)) : Int :=
  match s.head?, s.getLast? with
  | some a, some z =>
    let d := (z.2 - a.2) * 65536
    if s.length < 8 ∨ d ≤ 0 then 0 else ((z.1 - a.1) - d) * 2 ^ 41 / d
  | _, _ => 0

/-- A Sync's measurement (R246, R247): origin and correction as ns and 2⁻¹⁶ ns, the receive stamp in ns. The stamps of the ratio are without
the steps of the time base (log entry 118). -/
def Block.ptpSync (b : Block) (n origin : Nat) (corr : Int) (rcv : Nat) : Block × Int :=
  let port := b.cf Reg.TIM_PTP_CFG n 28 24
  let sent : Int := (origin : Int) * 65536 + corr
  let gm : Int := (sent + (b.pdState port).mean * 256) / 65536
  let y := b.tb n
  let s := (y.syncs ++ [(sent, (rcv : Int) - y.steps)]).drop (y.syncs.length + 1 - 8)
  let b := b.setTb n { y with syncs := s, rratio := Tim.ratio s }
  (b.count Reg.TIM_PTP_SYNC_RX n, gm - rcv)

/-- The entry of TB0 to ACQUIRE (R241, R255): virtual again at its present value, ACQUIRING, the window restarted. -/
def Block.tb0Acquire (b : Block) : Block :=
  let b := b.retune 0 (b.tb 0).rho
  b.setTb 0 { b.tb 0 with
    virtual := true
    st := .acquiring
    reacq := false
    win := []
    refill := true
    okSince := none }

/-! ### Peer delay (R248) -/

def Block.setPd (b : Block) (p : Nat) (x : PeerDelay) : Block := { b with tim := { b.tim with pd := Tbl.put b.tim.pd p x PeerDelay.reset } }

/-- The time base whose PTP slave runs on a port: a port serves one domain, that of the lowest time base which names it (R245, log
entry 118). -/
def Block.ptpOn (b : Block) (p : Nat) : List Nat :=
  ([1, 2, 3, 4].filter (fun n => b.cb Reg.TIM_PTP_CFG n 31 && b.cf Reg.TIM_PTP_CFG n 28 24 == p)).take 1

def Block.setPtp (b : Block) (n : Nat) (x : PtpPort) : Block := { b with tim := { b.tim with ptp := Tbl.put b.tim.ptp n x PtpPort.reset } }

/-- A failed exchange; the third in a row makes the delay invalid, which is a loss of PTP on the port. -/
def Block.pdFail (b : Block) (p : Nat) : Block :=
  let x := b.pdState p
  let x := { x with reqAt := none, goodRun := 0, failRun := x.failRun + 1 }
  let b := (b.setPd p x).count Reg.TIM_PD_FAIL p
  if x.failRun < 3 then b
  else
    let b := (b.setPd p { x with valid := false }).eventRep p 0x020E p (b.tbErrReg (fld (b.cfg Reg.TIM_PD_CFG p) 2 0))
    if (b.pdState p).valid = x.valid then b
    else (b.ptpOn p).foldl (fun b n =>
      let s := b.ptpState n
      ((if s.st = 3 then b.setPtp n { s with st := 2 } else b).ptpNote n).loseSource n 9) b

/-- The result of an exchange in 2⁻⁸ ns: taken, or an outlier (R248). -/
def Block.pdResult (b : Block) (p : Nat) (r : Int) : Block :=
  let x := b.pdState p
  if x.results ≠ [] ∧ 256000 < (r - x.mean).natAbs ∧ x.outRun < 2 then
    ((b.setPd p { x with outRun := x.outRun + 1 }).count Reg.TIM_PD_OUTLIERS p).pdFail p
  else
    let restart := x.results ≠ [] ∧ 256000 < (r - x.mean).natAbs
    let b := if restart then b.count Reg.TIM_PD_OUTLIERS p else b
    let rs := if restart then [r] else (x.results ++ [r]).drop (x.results.length + 1 - 8)
    let x := { x with results := rs, outRun := 0, failRun := 0, goodRun := x.goodRun + 1, reqAt := none }
    let x := { x with valid := x.valid || decide (4 ≤ x.goodRun) }
    let b := b.setPd p x
    if x.valid then
      (b.ptpOn p).foldl (fun b n => let s := b.ptpState n; (if s.st = 2 then b.setPtp n { s with st := 3 } else b).ptpNote n) b
    else b

/-- A PTP message header with its body, from the fields that TIM fills (IEEE 1588-2019). -/
def ptpMessage (type domain flags : Nat) (clock port seq : Nat) (body : List Byte) : List Byte :=
  beBytes 1 type ++ [0x02] ++ beBytes 2 (34 + body.length) ++ beBytes 1 domain ++ [0] ++ beBytes 2 flags ++ beBytes 8 0 ++
    beBytes 4 0 ++ beBytes 8 clock ++ beBytes 2 port ++ beBytes 2 seq ++ [0x05, 0x00] ++ body

/-- The peer-delay frame of a port. -/
def Block.pdFrame (b : Block) (p type seq : Nat) (body : List Byte) : List Byte :=
  let n := fld (b.cfg Reg.TIM_PD_CFG p) 2 0
  ethHead Prt.ptpPeer (b.portMac p) 0 0x88F7 ++
    ptpMessage type (b.cf Reg.TIM_PTP_CFG n 23 16) 0 (Config.clockId p) 1 seq body

/-- A port sends Pdelay_Req (R248). -/
def Block.pdelayReq (b : Block) (p : Nat) : Block :=
  if b.cb Reg.TIM_PD_CFG p 31 = false then b
  else
    let b := if (b.pdState p).reqAt.isSome then b.pdFail p else b
    let x := b.pdState p
    let seq := (x.seq + 1) % 65536
    let b := (b.setPd p { x with seq := seq, reqAt := some b.t7, t1 := none, t4 := 0 }).count Reg.TIM_PD_EXCH p
    b.enqueue p ⟨2, false, .pdelayReq, b.pdFrame p 2 seq (List.replicate 20 0)⟩

/-- A Pdelay_Resp not received within 100 ms fails the exchange (R248). -/
def Block.pdelayTimeout (b : Block) (p : Nat) : Block :=
  match (b.pdState p).reqAt with
  | some a => if a + 100000000 ≤ b.t7 then b.pdFail p else b
  | none => b

/-- A number of intervals given by a logMessageInterval byte, in ns. -/
def ptpIntervals (k log : Nat) : Nat :=
  let e := sgn 8 log
  if 0 ≤ e then k * nsPerS * 2 ^ (min e.toNat 16) else k * nsPerS / 2 ^ (min (-e).toNat 16)

/-- Whether nothing has come for three intervals. -/
def Block.silentFor (b : Block) (t : Option Nat) (log : Nat) : Bool :=
  match t with
  | some t => decide (t + ptpIntervals 3 log ≤ b.t7)
  | none => false

/-- Which timeout loses a slave's master: three Announce intervals without Announce take its port back to LISTENING, three Sync intervals
without a Sync (with its Follow_Up) do not; each is counted (Table 9.3, R245). -/
def Block.ptpTimeouts (b : Block) (n src : Nat) : Block :=
  let x := b.ptpState n
  if src ≠ 9 ∨ n = 0 ∨ 4 < n ∨ x.st < 2 then b
  else
    let b := if b.silentFor x.syncAt x.syncLog then b.count Reg.TIM_PTP_SYNC_TIMEOUT n else b
    if b.silentFor x.annAt x.annLog then ((b.setPtp n { x with st := 1, sync := none }).count Reg.TIM_PTP_ANN_TIMEOUT n).ptpNote n else b

/-- Whether the 1PPS pulse that is due is missing by more than 1 ms. -/
def Block.ppsMissing (b : Block) : Bool :=
  match b.tim.tin.ppsAt with
  | some a => !b.tim.tin.ppsPresent || decide (a + 1001000000 < b.t7)
  | none => true

/-- Whether a source's loss condition of Table 9.3 holds; that of TB5's and TB6's links is for RAD and CAS to say. Two IRIG-B frames are
missing 2 s after the last one (log entry 118). -/
def Block.lossDue (b : Block) (n src : Nat) : Bool :=
  let x := b.tim.tin
  let gone (a : Option Nat) (d : Nat) : Bool := match a with | some a => decide (a + d ≤ b.t7) | none => true
  if n = 0 then
    if 1 ≤ src ∧ src ≤ 4 then (b.tb src).st != .locked
    else if src = 8 then (b.tb 6).st != .locked
    else if src = 5 then !x.irigValid || decide (b.cf Reg.TIM_TIN_CFG 0 3 0 < x.irigTq) || gone x.irigAt (2 * nsPerS)
    else if src = 6 then b.ppsMissing || !x.todValid || gone x.todAt (3 * nsPerS)
    else if src = 7 then b.ppsMissing
    else false
  else if 1 ≤ n ∧ n ≤ 4 then
    let p := b.ptpState n
    src == 9 && (b.silentFor (p.syncAt.orElse (fun _ => p.okSince)) p.syncLog || b.silentFor p.annAt p.annLog ||
      !(b.pdState (b.cf Reg.TIM_PTP_CFG n 28 24)).valid)
  else true

/-- A source lost where its loss condition holds, and otherwise nothing (R243). -/
def Block.sourceGone (b : Block) (n src : Nat) : Block := if b.lossDue n src then (b.ptpTimeouts n src).loseSource n src else b

/-! ### PTP messages received (R43, R45, R245, R248) -/

/-- A PTP timestamp of ten bytes, in ns. -/
def ptpTime (bs : List Byte) (i : Nat) : Nat := beAt bs i 6 * nsPerS + beAt bs (i + 6) 4

/-- The data set of an Announce in the order of the best-master comparison. -/
def ptpRank (p : PtpPort) : List Nat :=
  [p.prio1, p.clockClass, p.accuracy, p.variance, p.prio2, p.gm, p.steps, p.sender]

/-- Lexicographic order: a at most c. -/
def lexLe : List Nat → List Nat → Bool
  | [], _ => true
  | _ :: _, [] => false
  | a :: r, c :: s => decide (a < c) || (a == c && lexLe r s)

/-- The C37.238-2017 TLV's totalTimeInaccuracy in ns, by its organisation and subtype. -/
def ptpTti (bs : List Byte) : Nat → Nat → Option Nat
  | 0, _ => none
  | f + 1, i =>
    if bs.length < i + 4 then none
    else
      let len := beAt bs (i + 2) 2
      if beAt bs i 2 = 3 ∧ beAt bs (i + 4) 3 = 0x1C129D ∧ beAt bs (i + 7) 3 = 2 then some (beAt bs (i + 16) 4)
      else ptpTti bs f (i + 4 + len)

/-- Whether the table has a leap second within so many seconds: (inserted, omitted). -/
def Block.leapSoon (b : Block) (within : Nat) : Bool × Bool :=
  let sec := b.now / nsPerS
  match b.leapNext sec with
  | some e => (decide (e.1 ≤ sec + within ∧ b.taiUtc sec < e.2), decide (e.1 ≤ sec + within ∧ e.2 < b.taiUtc sec))
  | none => (false, false)

/-- TIM's leap table compared with the UTC offset and the leap flags of one source (TB1 to TB4's slaves, 0 for IRIG-B). A flag agrees while
the table has that leap second within `early` seconds, its absence while the table has none within `late` (R258). -/
def Block.leapCompare (b : Block) (n : Nat) (off : Option Int) (l61 l59 : Bool) (early late : Nat) : Block :=
  let e := b.leapSoon early
  let l := b.leapSoon late
  let differs (flag e l : Bool) : Bool := if flag then !e else l
  let bad := (match off with | some v => v != b.taiUtc (b.now / nsPerS) | none => false) || differs l61 e.1 l.1 || differs l59 e.2 l.2
  if bad then
    ((({ b with tim := { b.tim with leapBad := setIns b.tim.leapBad n } }).irq Blk.tim 7).eventRep n 0x020A n (b.tbErrReg n))
  else { b with tim := { b.tim with leapBad := setDel b.tim.leapBad n } }

/-- The last Announce of a slave's master compared with the leap table (R258). -/
def Block.leapPtp (b : Block) (n : Nat) : Block :=
  let x := b.ptpState n
  if x.annAt.isNone then b
  else b.leapCompare n (if x.utcValid then some ((BitVec.ofNat 16 x.utcOffset).toInt) else none) x.leap61 x.leap59 43200 43200

/-- The leap bits of the last good IRIG-B frame compared with the leap table: the pending bit comes in the last minute (R249, R258). -/
def Block.leapIrig (b : Block) : Block :=
  match b.tim.tin.irigLeap with
  | some l => b.leapCompare 0 none l.1 l.2 60 1
  | none => b

/-- An Announce heard by the slave of a time base (R245). -/
def Block.announce (b : Block) (n : Nat) (bs : List Byte) (i : Nat) : Block :=
  let old := b.ptpState n
  let fl := beAt bs (i + 6) 2
  let tti := ptpTti bs 8 (i + 64)
  let x : PtpPort := { old with
    prio1 := beAt bs (i + 47) 1
    clockClass := beAt bs (i + 48) 1
    accuracy := beAt bs (i + 49) 1
    variance := beAt bs (i + 50) 2
    prio2 := beAt bs (i + 52) 1
    gm := beAt bs (i + 53) 8
    ptpScale := bit fl 3
    utcOffset := beAt bs (i + 44) 2
    utcValid := bit fl 2
    steps := beAt bs (i + 61) 2
    sender := beAt bs (i + 20) 10
    leap61 := bit fl 0
    leap59 := bit fl 1
    ttiPresent := b.cb Reg.TIM_PTP_CFG n 30 && tti.isSome
    tti := tti.getD 0
    annAt := some b.t7
    annLog := beAt bs (i + 33) 1 }
  let port := b.cf Reg.TIM_PTP_CFG n 28 24
  let same := old.st = 2 ∨ old.st = 3
  if same ∧ x.sender ≠ old.sender ∧ lexLe (ptpRank x) (ptpRank old) = false then b
  else
    let b := (b.setPtp n { x with st := if (b.pdState port).valid then 3 else 2 }).ptpNote n
    let b := if old.annAt.isSome = true ∧ x.gm ≠ old.gm then b.timEvent 0x020C n n (x.gm % 4294967296) else b
    b.leapPtp n

/-- A Pdelay_Req answered with a one-step Pdelay_Resp; its correctionField gets the turnaround at egress (R248). -/
def Block.pdelayAnswer (b : Block) (p : Nat) (bs : List Byte) (i : Nat) : Block :=
  if b.cb Reg.TIM_PD_CFG p 31 = false then b
  else
    let n := fld (b.cfg Reg.TIM_PD_CFG p) 2 0
    let f := b.pdFrame p 3 (beAt bs (i + 30) 2) (List.replicate 10 0 ++ slice bs (i + 20) 10)
    let f := ptpAdd f (sgn 64 (beAt bs (i + 8) 8))
    b.enqueue p ⟨2, false, .pdelayResp (b.tbNow n) n, f⟩

/-- A Pdelay_Resp to the request in flight: a one-step answer completes the exchange, a two-step one waits (R248). -/
def Block.pdelayGot (b : Block) (p : Nat) (bs : List Byte) (i : Nat) : Block :=
  let x := b.pdState p
  let n := fld (b.cfg Reg.TIM_PD_CFG p) 2 0
  let t4 := b.tbNow n
  match x.reqAt, x.t1 with
  | some a, some t1 =>
    if beAt bs (i + 30) 2 ≠ x.seq ∨ a + 100000000 < b.t7 then b
    else
      let c := sgn 64 (beAt bs (i + 8) 8)
      if bit (beAt bs (i + 6) 1) 1 then b.setPd p { x with t2 := ptpTime bs (i + 34), t4 := t4, corr := c }
      else
        let rt : Int := (t4 : Int) - t1
        b.pdResult p ((rt * 65536 + rt * 65536 * x.nrr / 2 ^ 41 - c) / 512)
  | _, _ => b

/-- The Pdelay_Resp_Follow_Up of a two-step answer, which also gives the neighbour rate ratio. -/
def Block.pdelayFollow (b : Block) (p : Nat) (bs : List Byte) (i : Nat) : Block :=
  let x := b.pdState p
  match x.reqAt, x.t1 with
  | some _, some t1 =>
    if beAt bs (i + 30) 2 ≠ x.seq ∨ x.t4 = 0 then b
    else
      let t3 := ptpTime bs (i + 34)
      let nrr : Int := match x.last with
        | some (o3, o4) => if o4 < x.t4 then (((t3 : Int) - o3) - ((x.t4 : Int) - o4)) * 2 ^ 41 / ((x.t4 : Int) - o4) else x.nrr
        | none => 0
      let b := b.setPd p { x with nrr := nrr, last := some (t3, x.t4) }
      let rt : Int := (x.t4 : Int) - t1
      let c := x.corr + sgn 64 (beAt bs (i + 8) 8)
      b.pdResult p ((rt * 65536 + rt * 65536 * nrr / 2 ^ 41 - ((t3 : Int) - x.t2) * 65536 - c) / 512)
  | _, _ => b

/-- Whether a PTP message comes from the best master of a slave in its domain. -/
def Block.fromMaster (b : Block) (n : Nat) (bs : List Byte) (i : Nat) : Bool :=
  let x := b.ptpState n
  (x.st == 2 || x.st == 3) && beAt bs (i + 4) 1 == b.cf Reg.TIM_PTP_CFG n 23 16 && beAt bs (i + 20) 10 == x.sender

/-- A Sync of a slave's master, stamped on the slave's time base (R39): a one-step one is a measurement, a two-step one awaits its
Follow_Up. -/
def Block.syncHeard (b : Block) (n : Nat) (bs : List Byte) (i : Nat) : Block :=
  if b.fromMaster n bs i = false then b
  else
    let x := b.ptpState n
    let corr := sgn 64 (beAt bs (i + 8) 8)
    let rcv := b.tbNow n
    let x := { x with syncLog := beAt bs (i + 33) 1 }
    if bit (beAt bs (i + 6) 1) 1 then b.setPtp n { x with sync := some (beAt bs (i + 30) 2, corr, rcv) }
    else b.setPtp n { x with sync := none, meas := some (ptpTime bs (i + 34), corr, rcv), syncAt := some b.t7 }

/-- The Follow_Up of a two-step Sync completes its measurement. -/
def Block.followHeard (b : Block) (n : Nat) (bs : List Byte) (i : Nat) : Block :=
  let x := b.ptpState n
  match x.sync with
  | some (seq, corr, rcv) =>
    if b.fromMaster n bs i = true ∧ beAt bs (i + 30) 2 = seq then
      b.setPtp n { x with
        sync := none
        meas := some (ptpTime bs (i + 34), corr + sgn 64 (beAt bs (i + 8) 8), rcv)
        syncAt := some b.t7 }
    else b
  | none => b

/-- A PTP frame that TIM takes (R40): peer-delay messages and Announce act at once; a Sync and its Follow_Up leave a measurement;
management and other messages are discarded and counted (R245). -/
def Block.ptpReceive (b : Block) (p : Nat) (bs : List Byte) : Block :=
  let i := (frameType bs).2
  match beAt bs i 1 % 16 with
  | 0 => (b.ptpOn p).foldl (fun b n => b.syncHeard n bs i) b
  | 8 => (b.ptpOn p).foldl (fun b n => b.followHeard n bs i) b
  | 2 => b.pdelayAnswer p bs i
  | 3 => b.pdelayGot p bs i
  | 10 => b.pdelayFollow p bs i
  | 11 => (b.ptpOn p).foldl (fun b n => if beAt bs (i + 4) 1 = b.cf Reg.TIM_PTP_CFG n 23 16 then b.announce n bs i else b) b
  | _ => (b.ptpOn p).foldl (fun b n => b.count Reg.TIM_PTP_DISCARD n) b

/-! ### TIN, the oscillator, leap seconds -/

def Block.setTin (b : Block) (x : Tin) : Block := { b with tim := { b.tim with tin := x } }

/-- The days before a year, of those from 1970 on. -/
def daysTo (year : Nat) : Nat := ((List.range (year - 1970)).map (fun i => if (1970 + i) % 4 = 0 then 366 else 365)).foldl (· + ·) 0

/-- The UTC second that an IRIG-B frame names, counted as a SOC: formats B004 to B007 carry the year, the others take it from the extension,
in this century; local time plus the offset is UTC (R249, log entry 118). -/
def IrigCode.utc (c : IrigCode) (fmt : Nat) : Nat :=
  let year := 2000 + (if 4 ≤ fmt % 8 then c.year else c.extYear) % 100
  (((daysTo year + (c.day - 1)) * 86400 + c.sec : Nat) + c.offset * 1800).toNat

/-- An IRIG-B frame (R243, R249, R258): what it codes, its format and time quality. Its condition of Table 9.3 is broken by a bad frame, by a
missing one, and by a time quality above TQ_MAX. -/
def Block.irigFrame (b : Block) (c : IrigCode) (fmt tq : Nat) (l61 l59 : Bool) : Block :=
  if b.cb Reg.TIM_TIN_CFG 0 31 = false then b
  else
    let x := b.tim.tin
    let lost := match x.irigAt with | some a => decide (a + 1500000000 < b.t7) | none => true
    let x := { x with irigAt := some b.t7 }
    if c.good then
      let fine := decide (tq % 16 ≤ b.cf Reg.TIM_TIN_CFG 0 3 0)
      let since := if !fine then none else if lost then some b.t7 else some (x.irigSince.getD b.t7)
      let b := b.setTin { x with
        irigValid := true, irigMiss := 0, irigTq := tq % 16, irigFmt := fmt % 8, irigUtc := some (c.utc fmt), irigSince := since }
      let b := (b.setTin { b.tim.tin with irigLeap := some (l61, l59) }).leapIrig
      if fine then b else b.loseSource 0 5
    else
      let m := x.irigMiss + 1
      let x := { x with irigMiss := m, irigSince := none }
      if m < 2 then b.setTin x
      else (b.setTin { x with irigValid := false }).loseSource 0 5

/-- An edge of the 1PPS pin (R243, R250): the edge that PPS_POL names (0 rising, 1 falling, log entry 118) is the pulse. A gap beyond
1 s ± 1 ms loses the sources that use it; three seconds without a ToD sentence lose 1PPS with ToD. -/
def Block.ppsEdge (b : Block) : Block :=
  let x := { b.tim.tin with ppsLevel := !b.tim.tin.ppsLevel }
  if b.cb Reg.TIM_TIN_CFG 0 29 = false ∨ x.ppsLevel = b.cb Reg.TIM_TIN_CFG 0 28 then b.setTin x
  else
    let good := match x.ppsAt with | some a => decide (a + 999000000 ≤ b.t7) && decide (b.t7 ≤ a + 1001000000) | none => true
    let told := match x.todAt, x.ppsAt with | some a, some p => decide (p ≤ a) | some _, none => true | none, _ => false
    let b := b.setTin { x with
      ppsAt := some b.t7
      ppsPresent := good
      todSince := if good && told then x.todSince else none
      ppsSince := if good then some (x.ppsSince.getD b.t7) else some b.t7 }
    let b := if good then b else (b.loseSource 0 6).loseSource 0 7
    match x.todAt with
    | some a => if a + 3 * nsPerS ≤ b.t7 then (b.setTin { b.tim.tin with todValid := false }).loseSource 0 6 else b
    | none => b

/-- A ToD sentence (R243, R250) and the UTC second it names: one of another format or baud rate than TIN_CFG's is not read (log entry 118);
one with a bad checksum or an RMC status other than A does not qualify. -/
def Block.todSentence (b : Block) (h : TodHead) (utc : Nat) : Block :=
  if b.cb Reg.TIM_TIN_CFG 0 30 = false ∨ h.rmc ≠ b.cb Reg.TIM_TIN_CFG 0 26 ∨ h.baud ≠ b.cf Reg.TIM_TIN_CFG 0 18 16 then b
  else
    let x := b.tim.tin
    let ok := h.good && (!h.rmc || h.statusA)
    let good := ok && (match x.todSec with | some s => utc == s + 1 | none => true)
    let x := { x with todAt := some b.t7 }
    if good then
      b.setTin { x with todSec := some utc, todBad := 0, todValid := true, todSince := if x.ppsPresent then some (x.todSince.getD b.t7) else none }
    else
      let n := x.todBad + 1
      let b := b.setTin { x with
        todBad := n, todSec := if ok then some utc else x.todSec.map (· + 1), todValid := x.todValid && decide (n < 3), todSince := none }
      if n < 3 then b else b.loseSource 0 6

/-- The reference that the timing PLL is to run on (R236): REF10 while it is chosen, from the time it has been within 2 ppm of the TCXO for
10 s until it is absent or has been more than 5 ppm from it for 10 ms. -/
def Block.oscWanted (b : Block) : Bool :=
  let x := b.tim
  let held (s : Option Nat) (d : Nat) : Bool := match s with | some s => decide (s + d ≤ b.t7) | none => false
  b.cb Reg.TIM_OSC_CFG 0 0 && x.ref10Present && (if x.oscActive = 1 then !held x.ref10Bad 10000000 else held x.ref10Good (10 * nsPerS))

/-- The timing PLL on the reference that it is to run on, with the event of a switch (R236). -/
def Block.oscSettle (b : Block) : Block :=
  let w := b.oscWanted
  if b.tim.oscActive = b2n w then b
  else (({ b with tim := { b.tim with oscActive := b2n w } }).irq Blk.tim 6).timEvent 0x0208 0xFFFF 0 (b2n w)

/-- What the PLL sees of REF10, and the switch that this brings (R236). -/
def Block.oscSwitch (b : Block) (r : RefSight) : Block :=
  let since (p : Bool) (s : Option Nat) : Option Nat := if p then some (s.getD b.t7) else none
  ({ b with tim := { b.tim with
      ref10Present := r.present
      ref10Bad := since (r.present && decide (5000 < r.ppb)) b.tim.ref10Bad
      ref10Good := since (r.present && decide (r.ppb ≤ 2000)) b.tim.ref10Good } }).oscSettle

/-- A leap second of the table whose TAI second has come is applied, and the table compared with what the sources said last (R257, R258). -/
def Block.leapSecond (b : Block) : Block :=
  match b.tim.leaps[b.tim.leapDone]? with
  | none => b
  | some e =>
    if b.now / nsPerS < e.1 then b
    else
      let b := ({ b with tim := { b.tim with leapDone := b.tim.leapDone + 1 } }).timEvent 0x0209 0 0 (sat32 e.2)
      ([1, 2, 3, 4].foldl Block.leapPtp b).leapIrig

/-- TB0 passes the expiry second of the table (R256). -/
def Block.leapExpiry (b : Block) : Block :=
  if b.tim.leapExpiry ≤ b.now / nsPerS then { b with tim := { b.tim with leapExpired := true } } else b

/-! ### Register actions -/

/-- A write of TIM.TB_VRATE re-anchors a virtual time base with the new rate (R239). -/
def Block.vrate (b : Block) (n : Nat) (w : Word) : Block :=
  let b := b.setVis Reg.TIM_TB_VRATE n 0 w
  if (b.tb n).virtual = true ∧ n ≠ 7 then b.retune n w.toInt else b

/-- A write of TIM.TB_VSTEP: a step of a virtual time base, on TB0 in ACQUIRE only, or a refusal (R239). It is counted as
one, and TB0's, an ACQUIRE step, has its event. The Bool says that TB0 stepped. -/
def Block.vstep (b : Block) (n : Nat) (w : Word) : Block × Bool :=
  if (b.tb n).virtual = false ∨ n = 7 ∨ (n = 0 ∧ b.sys.mode ≠ .acquire) then (b.count Reg.TIM_TB_REFUSED n, false)
  else
    let b := ((b.addTb n w.toInt).poStep b).count Reg.TIM_TB_STEPS n
    (if n = 0 then b.timEvent 0x0206 n n (sat32 w.toInt) else b, n == 0)

/-- A read of TIM.TB_NOW_NS latches the seconds and NS32 of the same cycle (R259). -/
def Block.latchNow (b : Block) (n : Nat) : Nat × Block :=
  let v := b.tbNow n
  (v % nsPerS, b.setTb n { b.tb n with latchSec := v / nsPerS, latchNs32 := ns32 v })

/-- A mode that holds the outputs at their inactive level ends the pulses in progress, and waiting settings hand over (R262). -/
def Block.pulsesEnd (b : Block) : Block :=
  if b.pulsesOff = false then b
  else (List.range 8).foldl (fun b i =>
    let x := b.poState i
    if x.pulseEnd.isSome then (b.setPo i { x with pulseEnd := none }).poHandover i else b) b

/-- The trailing edge of a pulse: it ends, and waiting settings hand over (R262). -/
def Block.pulseEndAt (b : Block) (i : Nat) : Block :=
  let x := b.poState i
  match x.pulseEnd with
  | some e => if b.tbNow (b.poTb i) < e then b else (b.setPo i { x with pulseEnd := none }).poHandover i
  | none => b

end Sys2Proof.Machine
end

