-- ==== Sys2Proof/Machine/PrtRx.lean ====
section
/-! DEFINITION. The receive path of PRT: admission, checks, bridge pairs, classification (R33 to R45, R475). -/

namespace Sys2Proof.Machine

/-- The IP payload of an IPv4 or IPv6 frame as STR and PRT's classifier see it: version, source, destination, whether it
is a fragment with its offset, more-flag and Identification, and the UDP bytes. -/
structure IpView where
  v6 : Bool
  src : Nat
  dst : Nat
  frag : Bool
  off : Nat
  more : Bool
  ident : Nat
  udp : List Byte
  deriving DecidableEq, Repr

/-- A UDP datagram or a fragment of one in a frame, none for any other frame. -/
def ipView (bs : List Byte) : Option IpView :=
  let (ty, i) := frameType bs
  if ty = 0x0800 ∧ beAt bs i 1 / 16 = 4 ∧ beAt bs (i + 9) 1 = 17 then
    let h := beAt bs i 1 % 16 * 4
    let len := beAt bs (i + 2) 2
    let fo := beAt bs (i + 6) 2
    let off := fo % 8192 * 8
    let more := bit fo 13
    some ⟨false, beAt bs (i + 12) 4, beAt bs (i + 16) 4, more || off != 0, off, more, beAt bs (i + 4) 2, slice bs (i + h) (len - h)⟩
  else if ty = 0x86DD ∧ beAt bs (i + 6) 1 = 17 then
    some ⟨true, beAt bs (i + 8) 16, beAt bs (i + 24) 16, false, 0, false, 0, slice bs (i + 40) (beAt bs (i + 4) 2)⟩
  else if ty = 0x86DD ∧ beAt bs (i + 6) 1 = 44 ∧ beAt bs (i + 40) 1 = 17 then
    let fo := beAt bs (i + 42) 2
    some ⟨true, beAt bs (i + 8) 16, beAt bs (i + 24) 16, true, fo / 8 * 8, bit fo 0, beAt bs (i + 44) 4,
      slice bs (i + 48) (beAt bs (i + 4) 2 - 8)⟩
  else none

/-- The listener that a datagram's destination port and IP version name (R56). -/
def Block.listener (b : Block) (v6 : Bool) (port : Nat) : Option Nat :=
  (List.range 16).find? (fun n =>
    let l := b.cfg Reg.STR_LISTEN 0 n
    bit l.toNat 31 && bit l.toNat (if v6 then 30 else 29) && fld l 15 0 == port)

/-- What the fragments of one datagram share: version, addresses and Identification. -/
def IpView.key (v : IpView) : List Byte := [BitVec.ofNat 8 (b2n v.v6)] ++ beBytes 16 v.src ++ beBytes 16 v.dst ++ beBytes 4 v.ident

/-- The first fragments of datagrams for no listener that a port still knows: for REASM_TIMEOUT (the model's choice, log entry 112). -/
def Block.strangers (b : Block) (p : Nat) : List (Nat × List Byte) :=
  (b.port p).strange.filter (fun e => decide (b.t7 < e.1 + (b.vis Reg.STR_REASM_TIMEOUT).toNat * 1000))

/-- Whether a frame is ingest-bound: a datagram to a listener, or a fragment of one (R40, R56). A later fragment goes the way of its first;
one that comes before its first goes to STR (the model's choice, log entry 112). -/
def Block.ingestBound (b : Block) (p : Nat) (bs : List Byte) : Bool :=
  match ipView bs with
  | none => false
  | some v => if v.frag && v.off != 0 then !(b.strangers p).any (fun e => e.2 == v.key) else (b.listener v.v6 (beAt v.udp 2 2)).isSome

/-- The first fragment of a datagram that no listener names is noted, for the fragments that follow it. -/
def Block.noteStranger (b : Block) (p : Nat) (bs : List Byte) : Block :=
  match ipView bs with
  | some v =>
    if v.frag && v.off == 0 then
      let rest := (b.strangers p).filter (fun e => e.2 != v.key)
      let named := (b.listener v.v6 (beAt v.udp 2 2)).isSome
      b.setPort p { b.port p with strange := if named then rest else rest ++ [(b.t7, v.key)] }
    else b
  | none => b

/-- The bytes waiting in a port's receive FIFO. -/
def PrtPort.fifoUsed (x : PrtPort) : Nat := (x.fifo.map (fun f => f.bytes.length + 4)).foldl (· + ·) 0

/-- A frame that passed the checks of R35, delivered on its port (R31, R32, R40). -/
def Block.deliver (b : Block) (p : Nat) (bs : List Byte) (stamp : Nat) : Block :=
  let x := b.port p
  if p = 28 then b
  else if p ≠ 29 ∧ (frameType bs).1 = 0x88F7 ∧ bit x.cfgRx 6 = true then b.ptpReceive p bs
  else
    let b := b.noteStranger p bs
    let x := b.port p
    if p ≠ 29 ∧ bit x.cfgRx 7 = true ∧ b.ingestBound p bs = true then b.setPort p { x with fifo := x.fifo ++ [⟨bs, stamp⟩] }
    else if bit x.cfgRx 8 then b.hostReceive p bs stamp
    else b.count Reg.PRT_RX_ADDR_DROP p

/-- The egress class of a forwarded frame, by its PCP, which VLAN_CFG[DEF_PCP] gives an untagged one (R36, R48); a PTP message has no class
of its own here, the model's choice where the rows of the table overlap (log entry 112). -/
def Block.fwdClass (b : Block) (p : Nat) (bs : List Byte) : Nat := if 4 ≤ b.vlanTag p bs / 8192 then 1 else 0

/-- What a transparent clock does to a forwarded frame (R45). -/
def Block.tcFix (b : Block) (p : Nat) (bs : List Byte) : TxFix :=
  let x := b.port p
  let i := (frameType bs).2
  if bit x.pairRx 2 = false ∨ (frameType bs).1 ≠ 0x88F7 then .none
  else
    let stamp := b.unstepped (bits x.pairRx 5 3)
    let key := beAt bs (i + 20) 12
    match beAt bs i 1 % 16 with
    | 0 => if bit (beAt bs (i + 6) 1) 1 then .twoStep p stamp key else .oneStep p stamp
    | 8 => .followUp (p / 2 * 2) key
    | _ => .none

/-- A frame queued for the other port of its bridge pair, if the FIFO has room for the egress port's MAX_FRAME (R44; whose MAX_FRAME the
admission takes is the model's choice, log entry 112). -/
def Block.forward (b : Block) (p : Nat) (bs : List Byte) : Block :=
  let q := if p % 2 = 0 then p + 1 else p - 1
  let max := (b.vis Reg.PRT_MAX_FRAME q).toNat
  if (b.port q).fwdUsed + max ≤ 65536 then b.enqueue q ⟨b.fwdClass p bs, true, b.tcFix p bs, bs⟩
  else b.count Reg.PRT_FWD_DROP q

/-- Whether a bridge pair in FORWARD mode forwards a frame (R43). The rows of the table overlap: one that fails check 4 is forwarded
whatever its address, but for the peer-delay address (the model's choice, log entry 112). -/
def Block.forwards (b : Block) (p : Nat) (bs : List Byte) (vlan : Bool) : Bool :=
  let x := b.port p
  let dst := bs.take 6
  if p < 24 ∧ bits x.pairRx 1 0 = 1 then
    if dst = Prt.ptpPeer then false
    else if vlan = false then true
    else if b.isUnicast p dst then false
    else match b.filterHit p 16 32 dst with
      | some e => !bit e.2 17
      | none => true
  else false

/-- Whether an admitted frame is consumed on its port: a multicast entry may say that it is forwarded only (Table 2.2). That this holds on a
port whose pair forwards nothing too, and of a broadcast that an entry matches, is the model's choice (log entry 112). -/
def Block.consumes (b : Block) (p : Nat) (dst : List Byte) : Bool :=
  if b.isUnicast p dst then true
  else match b.filterHit p 16 32 dst with
    | some e => bit e.2 16
    | none => true

/-- A frame received with its FCS (R33 to R43, R475). MIR_ETYPE is checked after checks 1 to 3 (the model's choice, log entry 112). -/
def Block.frameReceive (b : Block) (p : Nat) (data : List Byte) : Block :=
  let x := b.port p
  let n := data.length
  let bs := data.take (n - 4)
  let stamp := b.now
  let max := (b.vis Reg.PRT_MAX_FRAME p).toNat
  if x.up = false ∨ bits x.cfgRx 3 0 = 0 ∨ b.sys.mode = .halt then b
  else if Prt.fifoSize p < x.fifoUsed + max then (b.count Reg.PRT_RX_OVF_DROP p).eventRep p 0x0305 p
  else
    let b := b.setPort p { x with rxBytes := (x.rxBytes + n) % 2 ^ 64 }
    let b := b.count Reg.PRT_RX_FRAMES p
    if leAt data (n - 4) 4 ≠ crc32 bs then b.count Reg.PRT_RX_FCS_ERR p
    else if n < 64 then b.count Reg.PRT_RX_RUNT p
    else if max < n then b.count Reg.PRT_RX_OVERSIZE p
    else if p = 28 ∧ (frameType bs).1 ≠ (b.vis Reg.PRT_MIR_ETYPE).toNat then b.count Reg.PRT_MIR_FOREIGN p
    else
      let vlan := b.vlanOk p bs
      let b := if b.forwards p bs vlan then b.forward p bs else b
      if vlan = false then b.count Reg.PRT_RX_VLAN_DROP p
      else if b.addrOk p (bs.take 6) = false then b.count Reg.PRT_RX_ADDR_DROP p
      else if b.consumes p (bs.take 6) then b.deliver p bs stamp
      else b

end Sys2Proof.Machine
end

