-- ==== Sys2Proof/Machine/RecOps.lean ====
section
/-! DEFINITION. Records: exact conversions, headers, features, admission by ALN, the writes to a basin (R71 to R79, R86, R96 to R98). -/

namespace Sys2Proof.Machine

/-! ### Exact conversions -/

/-- n ÷ d rounded to the nearest integer, halves away from zero. -/
def roundDiv (n : Int) (d : Nat) : Int :=
  if d = 0 then 0 else if n < 0 then -(((2 * n.natAbs + d) / (2 * d) : Nat) : Int) else (((2 * n.natAbs + d) / (2 * d) : Nat) : Int)

/-- An integer times a float32 scale, rounded once. -/
def f32Scale (x : Int) (s : Nat) : Nat := if f32NaN s || f32Inf s then f32QNaN else f32OfRat (x * f32Val s) (2 ^ 149)

/-- A float32 as its four bytes (R4). -/
def f32Bytes (w : Nat) : List Byte := leBytes 4 w

/-- √(re² + im²) ÷ v × 2^k rounded to nearest and clamped to 16 bits, exactly, for values in one unit; the Bool says that it was clamped. -/
def magExact (re im v : Int) (k : Nat) : Nat × Bool :=
  let s := (re * re + im * im).toNat * 2 ^ (2 * k + 2) / (v * v).toNat
  let n := (isqrt (min s (2 ^ 40)) + 1) / 2
  (min n 0xFFFF, decide (0xFFFF < n))

/-- The same of a phasor in 2⁻²⁵⁶ over a nominal value; what a nominal value that is not above 0 gives is open. -/
def magOf (re im : Int) (nom k : Nat) : Nat × Bool :=
  if f32NaN nom || f32Inf nom || f32Val nom ≤ 0 then
    let n := (Config.num .magnitude [re.toNat, im.toNat, nom, k]).toNat
    (min n 0xFFFF, decide (0xFFFF < n))
  else magExact re im (qOfF32 nom) k

/-- Whether a phasor of float32 values has an infinity, whose magnitude clamps. -/
def infPhasor (e : Nat × Nat) : Bool := f32Inf e.1 || f32Inf e.2

/-- A phasor's magnitude over a nominal value in 2⁻ᵏ, clamped (R79). -/
def magUnits (re im nom k : Nat) : Nat × Bool :=
  if infPhasor (re, im) then (0xFFFF, true) else magOf (qOfF32 re) (qOfF32 im) nom k

/-- An angle in (−π, π] as the nearest multiple of 2π ÷ 2³², modulo 2³². -/
def angUnits (x : Int) : Nat := ((x * 2 ^ 32 + (qPi : Int)) / (2 * (qPi : Int)) % 2 ^ 32).toNat

/-- The angle of a phasor in 2π ÷ 2³² with its error of at most ±128 (R79); the origin has none that the spec states. -/
def angOf (re im : Int) : Nat :=
  let open_ := (Config.num .angle [re.toNat, (-re).toNat, im.toNat, (-im).toNat]).toNat
  if re = 0 ∧ im = 0 then open_ else (angUnits (qAtan2 im re) + 2 ^ 32 + open_ % 257 - 128) % 2 ^ 32

/-- (Va + a Vb + a² Vc) ÷ 3 of three phasors in 2⁻²⁵⁶ (R78). -/
def seqPhasor (a b c : Int × Int) : Int × Int :=
  let h := qSqrt (3 * (qOne : Int))
  ((2 * a.1 - (b.1 + c.1) - qMul h (b.2 - c.2)) / 6, (2 * a.2 - (b.2 + c.2) + qMul h (b.1 - c.1)) / 6)

def qPhasor (e : Nat × Nat) : Int × Int := (qOfF32 e.1, qOfF32 e.2)

/-- A signed feature field of a float32 in steps of 1 ÷ k, clamped to ±32,767; the Bool says that it was clamped (R79). -/
def featSigned (w k : Nat) (off : Int) : Nat × Bool :=
  let v : Int := if f32Inf w then (if bit w 31 then -100000000 else 100000000)
    else roundDiv ((f32Val w - off * 2 ^ 149) * k) (2 ^ 149)
  ((BitVec.ofInt 16 (clampI (-32767) 32767 v)).toNat, decide (32767 < v.natAbs))

/-! ### Slots and basins -/

/-- The latency bin of R86 for arrival minus slot time in ns. -/
def latBin (d : Int) : Nat :=
  if d < 250000 then 0
  else (((List.range 15).filter (fun i => decide ((250000 * 2 ^ i : Nat) ≤ d))).length)

/-- The position and basin of a ring that hold a slot, where the basin accepts records (Table 4.3, step 1). -/
def Ring.slotPos (x : Ring) (slot : Nat) : Option (Nat × Basin) :=
  x.pos.find? (fun e => e.2.slot == slot && e.2.st != .free && !e.2.lateClosed)

/-- The ring position with a sequence number that is not FREE. -/
def Ring.seqPos (x : Ring) (seq : Nat) : Option (Nat × Basin) :=
  x.pos.find? (fun e => e.2.seq == seq && e.2.st != .free)

def Block.setRing (b : Block) (r : Nat) (x : Ring) : Block := { b with aln := { b.aln with rings := Tbl.put b.aln.rings r x Ring.reset } }

def Block.setBasin (b : Block) (r p : Nat) (x : Basin) : Block :=
  let y := b.ring r
  b.setRing r { y with pos := Tbl.put y.pos p x Basin.reset }

/-- The arrival bitmap of a ring position, from a byte of it on, written: 512 positions of the main ring, then the slow ring's (Table 13.1). -/
def Block.bmpWritten (b : Block) (r p i n : Nat) : Block :=
  let bmp := (b.basinAt r p).bmp.toNat
  b.sramWrite 3 ((if r = 0 then p else 512 + p) * 1024 + i) ((List.range n).map (fun k => BitVec.ofNat 8 (bits bmp (8 * (i + k) + 7) (8 * (i + k)))))

def Block.setAlnCtx (b : Block) (c : Nat) (x : AlnCtx) : Block := { b with aln := { b.aln with ctx := Tbl.put b.aln.ctx c x AlnCtx.reset } }

/-- What becomes of a record at its slot: EARLY (step 10 of Table 3.4), or ALN's admission (Table 4.3). -/
inductive Admit where
  | early
  | tooLate
  | duplicate
  | claim (pos : Nat) (basin : Basin)
  deriving DecidableEq, Repr

/-- The ring's own settings word and rate. -/
def Block.ringEnabled (b : Block) (r : Nat) : Bool := bit (b.cfg Reg.ALN_RING_CFG 0 r).toNat 31

/-- The checks of step 10 of Table 3.4, R87 and Table 4.3 for a record of context c and a slot of its ring. -/
def Block.admitRec (b : Block) (r slot c : Nat) : Admit :=
  let x := b.ring r
  if b.ringEnabled r = false then .tooLate
  else if x.run = false ∨ x.nextSlot ≤ slot then .early
  else match x.slotPos slot with
    | none => .tooLate
    | some (p, s) =>
      if s.bmp.getLsbD c || b.aln.claims.any (fun k => k.ring == r && k.seq == s.seq && k.ctx == c) then .duplicate
      else .claim p s

/-- ALN's discard of a record as TOO_LATE (R96). -/
def Block.tooLate (b : Block) (c : Nat) : Block :=
  (((b.count Reg.ALN_CTX_TOO_LATE c).count Reg.ALN_G_TOO_LATE).irq Blk.aln 0).eventRep c 0x0503 c

/-- ALN's discard of a record as DUPLICATE (R96), counted for its basin too (Table 4.6). -/
def Block.duplicate (b : Block) (r slot c : Nat) : Block :=
  let b := ((b.count Reg.ALN_CTX_DUP c).count Reg.ALN_G_DUP).eventRep c 0x0504 c
  match (b.ring r).slotPos slot with
  | some (p, s) => b.setBasin r p { s with dups := min 65535 (s.dups + 1) }
  | none => b

/-- The address of a record in its ring position (R111). -/
def Block.recordAddr (b : Block) (r p c : Nat) : Nat :=
  let base := (b.cn Reg.ALN_RING_BASE_LO 0 r) + (b.cn Reg.ALN_RING_BASE_HI 0 r) % 256 * 4294967296
  base + p * (fld (b.cfg Reg.ALN_BASIN_STRIDE 0 r) 6 0 * 65536) + 0x1000 + b.cf Reg.ALN_CTX_OFFSET c 21 6 * 64

/-- The address of a feature record (R78). -/
def featAddr (seq c : Nat) : Nat := 0x90000000 + seq % 16 * 0x20000 + c * 16

/-- The feature record written, or withheld for a post-alarm record whose row a newer basin owns (R98). -/
def Block.featWrite (b : Block) (seq c : Nat) (post : Bool) (f : List Byte) : Block :=
  let k := c * 16 + seq % 16
  let o := Tbl.get b.aln.featOwner k 0
  if post = true ∧ o ≠ 0 ∧ later 32 (o - 1) seq = true then b
  else ({ b with aln := { b.aln with featOwner := Tbl.put b.aln.featOwner k (seq + 1) 0 } }).store (featAddr seq c) f

/-- A record claimed and written: its bytes in the basin, its feature, and the claim that its mark completes (R96, R98). -/
def Block.claimRecord (b : Block) (r p c bin : Nat) (s : Basin) (rec f : List Byte) : Block :=
  let post := s.st != .opened
  let b := b.store (b.recordAddr r p c) rec
  let b := b.featWrite s.seq c post f
  { b with aln := { b.aln with claims := b.aln.claims ++ [⟨r, s.seq, c, bin, post⟩] } }

/-! ### The record and its feature (Tables 3.7 to 3.10) -/

/-- A record before it is written: the header's fields and the normalised elements as float32 patterns. -/
structure Rec where
  status : Nat
  flags : Nat
  size : Nat
  tq : Nat
  srcStat : Nat
  arr : Nat
  slotNs : Nat
  err : Int
  seq : Nat
  ph : List (Nat × Nat)
  freq : Nat
  rocof : Nat
  an : List Nat
  dg : List Nat
  deriving DecidableEq, Repr

/-- Whether any payload element is NaN. -/
def Rec.hasNaN (r : Rec) : Bool :=
  r.ph.any (fun e => f32NaN e.1 || f32NaN e.2) || f32NaN r.freq || f32NaN r.rocof || r.an.any f32NaN

/-- The 16-byte header (Table 3.8). -/
def Rec.header (r : Rec) (c : Nat) : List Byte :=
  leBytes 4 (r.status * 2 ^ 28 + b2n r.hasNaN * 2 ^ 27 + r.flags + r.size * 2 ^ 13 + c % 8192) ++
    leBytes 4 (r.tq * 2 ^ 24 + r.srcStat % 65536) ++ leBytes 4 (off16 r.arr r.slotNs) ++
    leBytes 4 ((BitVec.ofInt 16 r.err).toNat * 65536 + r.seq % 65536)

/-- The full record: header, payload in the order of R76, zero fill. -/
def Rec.bytes (r : Rec) (c : Nat) : List Byte :=
  let d := r.header c ++ (r.ph.map (fun e => f32Bytes e.1 ++ f32Bytes e.2)).flatten ++ f32Bytes r.freq ++ f32Bytes r.rocof ++
    (r.an.map f32Bytes).flatten ++ (r.dg.map (leBytes 2)).flatten
  slice d 0 (64 * 2 ^ r.size)

/-- The phasors of the feature's voltage: V_SEL alone, or three phases from it, none for no selection (R78). -/
def Rec.voltages (r : Rec) (sel : Word) : Option (List (Nat × Nat)) :=
  let v := fld sel 15 8
  if v = 255 then none
  else if bit sel.toNat 7 then
    match r.ph[v]?, r.ph[v + 1]?, r.ph[v + 2]? with
    | some x, some y, some z => some [x, y, z]
    | _, _, _ => none
  else (r.ph[v]?).map (fun x => [x])

/-- The angle and the magnitude of the feature's voltage: 0 where it is invalid; an infinite magnitude clamps, and its angle is open. -/
def voltFeature (l : List (Nat × Nat)) (vnom : Nat) : Nat × Nat × Bool :=
  if l.any infPhasor then ((Config.num .angle (l.flatMap (fun e => [e.1, e.2]))).toNat, 0xFFFF, true)
  else
    let v := match l.map qPhasor with
      | [x] => x
      | [x, y, z] => seqPhasor x y z
      | _ => (0, 0)
    (angOf v.1 v.2, magOf v.1 v.2 vnom 14)

/-- The 16-byte feature record (Table 3.9) under the context's selections; `fnom` in Hz, the nominal values as float32. The TQ of an R-SV
record is the low four bits of its refrTm quality octet (the model's choice, log entry 113). -/
def Rec.feature (r : Rec) (sel dmask : Word) (fnom : Int) (vnom inom : Nat) : List Byte :=
  let v := r.voltages sel
  let vOk := match v with | some l => l.all (fun e => !f32NaN e.1 && !f32NaN e.2) | none => false
  let volt := if vOk then voltFeature (v.getD []) vnom else (0, 0, false)
  let ang := volt.1
  let mag := volt.2
  let fBad := f32NaN r.freq || f32NaN r.rocof
  let fq := featSigned r.freq 10000 fnom
  let ro := featSigned r.rocof 1000 0
  let i := if fld sel 23 16 = 255 then none else r.ph[fld sel 23 16]?
  let iOk := match i with | some e => !f32NaN e.1 && !f32NaN e.2 | none => false
  let ii := i.getD (0, 0)
  let cur := if iOk then (magUnits ii.1 ii.2 inom 12).1 else 0
  let dg := if fld sel 31 24 = 255 then 0 else ((r.dg.getD (fld sel 31 24) 0 : Nat) &&& dmask.toNat)
  let st := r.status * 4096 + b2n (!vOk) * 2048 + b2n fBad * 1024 + b2n (!iOk) * 512 + b2n mag.2 * 256 +
    b2n (!fBad && fq.2) * 128 + b2n (!fBad && ro.2) * 64 + bits r.flags 22 22 * 32 + bits r.flags 24 24 * 16 + r.tq % 16
  leBytes 4 ang ++ leBytes 2 mag.1 ++ leBytes 2 (if fBad then 0x8000 else fq.1) ++ leBytes 2 (if fBad then 0x8000 else ro.1) ++
    leBytes 2 st ++ leBytes 2 dg ++ leBytes 2 cur

end Sys2Proof.Machine
end

