-- ==== Sys2Proof/Machine/Phasor.lean ====
section
/-! DEFINITION. The estimates of a local point: windowed phasors, the window's response, frequency and ROCOF, powers (R276 to R278), and
the powers of an integration interval (R283). Real values are in 2⁻²⁵⁶. -/

namespace Sys2Proof.Machine

/-- A sample as its represented time in ns and its secondary value as a float32. -/
abbrev TimedValue := Nat × Nat

/-- The weight of a window at a distance u from its centre, for its length w in the same unit: a triangle (class P) or a raised cosine
(class M). -/
def windowWeight (classM : Bool) (u : Int) (w : Nat) : Int :=
  if w = 0 then 0
  else if classM then ((qOne : Int) + qCos (2 * (qPi : Int) * u / (w : Int))) / 2
  else ((w : Int) - 2 * (u.natAbs : Int)) * (qOne : Int) / (w : Int)

/-- X(t + jΔ) of R276 for a window of k nominal periods, from samples in time order or its reverse; the unit of time inside is
1 ÷ (4 × f0) ns. S is the TB0 second of t. -/
def phasorAt (f0 k : Nat) (classM : Bool) (t : Nat) (j : Int) (xs : List TimedValue) : Cx :=
  let s := t / nsPerS * nsPerS
  let w := k * 4 * nsPerS
  let off (x : TimedValue) : Int := 4 * (f0 : Int) * ((x.1 : Int) - t) - j * (nsPerS : Int)
  let xs := xs.filter (fun x => decide (2 * (off x).natAbs ≤ w))
  let sum := xs.foldl (fun (a : Int × Cx) x =>
    let g := windowWeight classM (off x) w
    let θ := 2 * (qPi : Int) * (((f0 : Int) * ((x.1 : Int) - s)) % (nsPerS : Int)) / (nsPerS : Int)
    let y := qMul g (qOfF32 x.2)
    (a.1 + g, Cx.add a.2 (qMul y (qCos θ), -(qMul y (qSin θ))))) (0, (0, 0))
  let r := qSqrt (2 * (qOne : Int))
  (qDiv (qMul r sum.2.1) sum.1, qDiv (qMul r sum.2.2) sum.1)

/-- The response of the window of k periods of f0 at a frequency d Hz from f0, 1 at its centre. -/
def windowResponse (f0 k : Nat) (classM : Bool) (d : Int) : Int :=
  let a := d * (k : Int) / (f0 : Int)
  let sinc (x : Int) : Int := let y := qMul qPi x; if y = 0 then (qOne : Int) else qDiv (qSin y) y
  if classM then
    let n := (qOne : Int) - qMul a a
    if n = 0 then (qOne : Int) / 2 else qDiv (sinc a) n
  else let h := sinc (a / 2); qMul h h

/-- An angle brought into (−π, π]. -/
def wrapPi (x : Int) : Int :=
  let p : Int := (qPi : Int)
  if x ≤ -p then x + 2 * p else if p < x then x - 2 * p else x

/-- Angles unwrapped, each the nearest turn of the one before it. -/
def unwrapFrom : Int → List Int → List Int
  | _, [] => []
  | a, x :: r => let y := a + wrapPi (x - wrapPi (a % (2 * (qPi : Int)))); y :: unwrapFrom y r

/-- The unwrapped angles of V1 at t − 2Δ to t + 2Δ. -/
def anglesOf (v : List Cx) : List Int :=
  match v.map (fun e => qAtan2 e.2 e.1) with
  | [] => []
  | a :: r => a :: unwrapFrom a r

/-- f and ROCOF of R277 from the five angles. -/
def freqOf (f0 : Nat) (θ : List Int) : Int :=
  (f0 : Int) * (qOne : Int) + qDiv ((θ.getD 3 0 - θ.getD 1 0) * (f0 : Int)) qPi

def rocofOf (f0 : Nat) (θ : List Int) : Int :=
  qDiv ((θ.getD 4 0 - 2 * θ.getD 2 0 + θ.getD 0 0) * (2 * f0 * f0 : Nat)) qPi

/-- V × conj(I). -/
def apparent (v i : Cx) : Cx := (qMul v.1 i.1 + qMul v.2 i.2, qMul v.2 i.1 - qMul v.1 i.2)

def Cx.abs (a : Cx) : Int := qSqrt (qMul a.1 a.1 + qMul a.2 a.2)

/-- Re, Im and magnitude sum of V × conj(I) over phases (Table 10.2). -/
def pqsOf (vi : List (Cx × Cx)) : Int × Int × Int :=
  vi.foldl (fun a e => let s := apparent e.1 e.2; (a.1 + s.1, a.2.1 + s.2, a.2.2 + s.abs)) (0, 0, 0)

/-! ### An integration interval (R283) -/

/-- A voltage, its quadrature, a current and the time in ns that they count for; values in 2⁻¹⁴⁹. -/
structure PowerTerm where
  v : Int
  vh : Int
  i : Int
  ns : Nat
  deriving DecidableEq, Repr

/-- P and Q in 2⁻³² W and var, S in 2⁻³² VA, and the metered time in ns: the sums of v·i and v_H·i over the time that they count for, divided
by the interval's duration of n ns, and the product of the RMS values over it. -/
def intervalPower (n : Nat) (xs : List PowerTerm) : Int × Int × Nat × Nat :=
  let t := xs.foldl (fun a x => a + x.ns) 0
  let sum (f : PowerTerm → Int) : Int := xs.foldl (fun a x => a + f x * (x.ns : Int)) 0
  let down (v : Int) : Int := v / (n * 2 ^ 266 : Nat)
  if t = 0 ∨ n = 0 then (0, 0, 0, 0)
  else
    let vv := (sum (fun x => x.v * x.v)).toNat
    let ii := (sum (fun x => x.i * x.i)).toNat
    (down (sum (fun x => x.v * x.i)), down (sum (fun x => x.vh * x.i)), isqrtFrom 700 0 (vv * ii) / (n * 2 ^ 266), t)

end Sys2Proof.Machine
end

