-- ==== Sys2Proof/Machine/SdmBase.lean ====
section
/-! DEFINITION. The local measurement's samples: presets, represented times, trim and scale, each channel's recent samples
(R264 to R274). -/

namespace Sys2Proof.Machine

/-- The fine path's output rate in samples per second (Table 10.1). -/
def Block.sdmRate (b : Block) : Nat := 80000 / 2 ^ b.cf Reg.SDM_CFG 0 1 0

/-- The fine path's group delay in ns (R269). -/
def Block.sdmGd (b : Block) : Nat := if b.cb Reg.SDM_CFG 0 2 then 4800000000 / b.sdmRate else 16000000000 / b.sdmRate

/-- The coarse path's group delay in ns (R272). -/
def Block.sdmCoarseGd (b : Block) : Nat :=
  let f := b.mclkHz
  if f = 0 then 0 else 3 * (f / b.sdmRate / 8 - 1) * nsPerS / (2 * f)

/-- The rate of a path. -/
def Block.pathRate (b : Block) (coarse : Bool) : Nat := if coarse then 8 * b.sdmRate else b.sdmRate

/-- The output instant nearest to now on a path's grid, in TB0 ns (R269). -/
def Block.outInstant (b : Block) (coarse : Bool) : Nat := slotTime (b.pathRate coarse) (slotNear (b.pathRate coarse) b.now)

def Block.setSdmCh (b : Block) (c : Nat) (x : SdmCh) : Block := { b with sdm := { b.sdm with chans := Tbl.put b.sdm.chans c x SdmCh.reset } }

/-- The samples of a path, newest first. -/
def SdmCh.path (x : SdmCh) (coarse : Bool) : List SdmSample := if coarse then x.coarse else x.fine

/-- The trimmed value of R274 in 2⁻⁵¹ of full scale, from x in 2⁻³¹. -/
def Block.sdmTrim (b : Block) (c : Nat) (x : Int) : Int :=
  x * (1048576 + sgn 18 (b.cf Reg.SDM_CH_GAIN c 17 0)) + sgn 24 (b.cf Reg.SDM_CH_OFFSET c 23 0) * 268435456

/-- The secondary value y, rounded once to float32. -/
def Block.sdmValue (b : Block) (c : Nat) (v : Int) : Nat :=
  let s := b.cn Reg.SDM_CH_SCALE c
  if f32NaN s || f32Inf s then f32QNaN else f32OfRat (v * f32Val s) (2 ^ 200)

/-- Whether x, in 2⁻³¹ of full scale, exceeds 0.95 of it; and x clipped (R267). -/
def sdmOver (x : Int) : Bool := decide (40802189312 < 20 * x.natAbs)
def sdmClip (x : Int) : Int := if sdmOver x then (if x < 0 then -2040109465 else 2040109465) else x

/-- MCLK periods in a coarse output period: R ÷ 8 (R272). -/
def Block.coarsePeriods (b : Block) : Nat := b.cf Reg.SDM_CFG 0 17 12 * 2 ^ b.cf Reg.SDM_CFG 0 1 0

/-- A channel's bit of an MCLK period from its MDAT levels in the two halves, by its mode and INV (R265): the level at the edge, or the mid-bit
transition; open where a Manchester line shows none and for the reserved mode. -/
def Block.modBit (b : Block) (c line k : Nat) : Bool :=
  let l0 := bit line (2 * k)
  let l1 := bit line (2 * k + 1)
  let v := match b.cf Reg.SDM_CH_CFG c 30 29 with
    | 0 => l0
    | 1 => l1
    | 2 => if l0 = l1 then (Config.num .modBit [c, line, k]).getLsbD 0 else l1 == Config.manchesterRise
    | _ => (Config.num .modBit [c, line, k]).getLsbD 0
  v != b.cb Reg.SDM_CH_CFG c 28

/-- A coarse period's bits as a number, the oldest lowest. -/
def Block.modBits (b : Block) (c line : Nat) : Nat :=
  (List.range b.coarsePeriods).foldl (fun a k => if b.modBit c line k then a + 2 ^ k else a) 0

/-- The weight that a third-order sinc of m periods gives the bit i periods back: the m-th part of a block convolved with itself twice. -/
def sincWeight (m i : Nat) : Nat :=
  if i < m then (i + 1) * (i + 2) / 2
  else if i < 2 * m then (i + 1) * (i + 2) / 2 - 3 * ((i - m + 1) * (i - m + 2) / 2)
  else (3 * m - 2 - i) * (3 * m - 1 - i) / 2

/-- The third-order sinc's output in 2⁻³¹ of full scale from blocks of m bits, the newest first: a bit counts +1 or −1 of full scale, and bits
from before a reset count nothing (R272). -/
def sincOut (m : Nat) (blocks : List Nat) : Int :=
  let sum := (List.range (3 * m - 2)).foldl (fun (a : Int) i =>
    match blocks[i / m]? with
    | some w => if bit w (m - 1 - i % m) then a + sincWeight m i else a - sincWeight m i
    | none => a) 0
  if m = 0 then 0 else sum * 2 ^ 31 / (m ^ 3 : Nat)

/-- D_c in 1/1,024 of a fine output period (R273). -/
def Block.sdmDelay (b : Block) (c : Nat) : Int := 1024 * (b.cf Reg.SDM_CH_CFG c 21 16 : Int) + sgn 13 (b.cf Reg.SDM_CH_CFG c 12 0)

/-- A path's newest output after the channel's delay (R273): the output that many whole periods back, 8 × D_c rounded on the coarse path (a half
upwards); open where the delay has a fraction, where it leads, and where the channel has not kept the output since its reset. -/
def Block.sdmDelayed (b : Block) (c : Nat) (coarse : Bool) (outs : List Int) : Int :=
  let d := b.sdmDelay c
  let k : Int := if coarse then (d + 64) / 128 else d / 1024
  let whole := coarse || decide (d % 1024 = 0)
  let free := sgn 32 (Config.num .delay ([c, b2n coarse, (d + 2048).toNat] ++ outs.map (fun x => (x % 4294967296).toNat))).toNat
  if whole && decide (0 ≤ k) then outs.getD k.toNat free else free

/-- How many outputs of a path are kept for its delay. -/
def SdmCh.depth (coarse : Bool) : Nat := if coarse then 528 else 66

/-- A decimator's output at an output instant, before trim: the fine chain's or the sinc of the line's bits, delayed; and the channel with its
history (R265, R272, R273). -/
def Block.sdmChain (b : Block) (c : Nat) (coarse : Bool) (d : DecimIn) : Int × SdmCh :=
  let ch := b.sdmCh c
  if coarse then
    let blocks := (b.modBits c d.line :: ch.bits).take 3
    let outs := (sincOut b.coarsePeriods blocks :: ch.rawCoarse).take (SdmCh.depth true)
    (b.sdmDelayed c true outs, { ch with bits := blocks.take 2, rawCoarse := outs })
  else
    let outs := (d.x :: ch.rawFine).take (SdmCh.depth false)
    (b.sdmDelayed c false outs, { ch with rawFine := outs })

/-- How long samples are kept for the spans of R276, in ns. -/
def Sdm.keepNs : Nat := 2200000000

/-- A sample of a channel emitted now: decimated, delayed, flagged, clipped, trimmed and kept (R267, R271 to R274). -/
def Block.sdmEmit (b : Block) (c : Nat) (coarse : Bool) (d : DecimIn) : Block × SdmSample :=
  let (x, ch) := b.sdmChain c coarse d
  let v := b.sdmTrim c (sdmClip x)
  let left := if coarse then ch.settleC else ch.settle
  let s : SdmSample := ⟨b.outInstant coarse - (if coarse then b.sdmCoarseGd else b.sdmGd), v, b.sdmValue c v, sdmOver x, decide (0 < left), ch.fault⟩
  let old := (ch.path coarse).filter (fun e => decide (e.at_ < s.at_) && decide (s.at_ ≤ e.at_ + Sdm.keepNs))
  let ch : SdmCh := if coarse then { ch with coarse := s :: old, settleC := left - 1 } else { ch with fine := s :: old, settle := left - 1 }
  let ch : SdmCh := if s.ovr then { ch with ovrAt := some b.t7 } else ch
  (b.setSdmCh c ch, s)

/-- The flag code of a sample: the highest of OVR, SETTLING, FAULT (Table 11.1). -/
def SdmSample.code (s : SdmSample) : Nat := if s.fault then 3 else if s.settling then 2 else if s.ovr then 1 else 0

/-- Whether a sample takes part in estimation, metering and triggers. -/
def SdmSample.good (s : SdmSample) : Bool := !s.fault && !s.settling

/-- A point's voltage or current channel of a phase, none for 0x1F (R275). -/
def Block.ptCh (b : Block) (p : Nat) (cur : Bool) (ph : Nat) : Option Nat :=
  let w := if cur then b.cn Reg.SDM_PT_ICH p else b.cn Reg.SDM_PT_VCH p
  let c := bits w (5 * ph + 4) (5 * ph)
  if c < 16 then some c else none

/-- The channels a point names. -/
def Block.ptChans (b : Block) (p : Nat) : List Nat :=
  ((List.range 3).map (fun i => [b.ptCh p false i, b.ptCh p true i])).flatten.filterMap id

/-- The nominal frequency of a point in Hz. -/
def Block.ptF0 (b : Block) (p : Nat) : Nat := if b.cb Reg.SDM_PT_CFG p 29 then 50 else 60

end Sys2Proof.Machine
end

