-- ==== Sys2Proof/Machine/CapOps.lean ====
section
/-! DEFINITION. Disturbance capture: recording, reductions, triggers, captures, hold-off, the trigger bus (R296 to R308). -/

namespace Sys2Proof.Machine

def Block.setCapU (b : Block) (u : Nat) (x : CapUnit) : Block := { b with cap := { b.cap with units := Tbl.put b.cap.units u x CapUnit.reset } }

/-! ### Settings -/

/-- The modes in which units record (R296). -/
def Cap.records : Mode → Bool
  | .acquire | .active | .holdover | .takeover | .degraded | .maintenance | .debug => true
  | _ => false

/-- Bytes of the record ring, after the header slots (R298). -/
def Block.capRing (b : Block) (u : Nat) : Nat := fld (b.vis Reg.CAP_UNIT_SIZE u) 15 0 * 1048576 - 16384

def Block.capBase (b : Block) (u : Nat) : Nat := b.addrOf Reg.CAP_UNIT_BASE_LO Reg.CAP_UNIT_BASE_HI u

def Block.capShould (b : Block) (u : Nat) : Bool := b.cb Reg.CAP_UNIT_CFG u 31 && Cap.records b.sys.mode && decide (0 < b.capRing u)

def Block.capChans (b : Block) (u : Nat) : List Nat := (List.range 16).filter (bit (b.cn Reg.CAP_UNIT_CHMASK u))

def Block.capCoarse (b : Block) (u : Nat) : Bool := b.cb Reg.CAP_UNIT_CFG u 30

/-- The enabled reductions of a unit: index, code, K or P. -/
def Block.capReds (b : Block) (u : Nat) : List (Nat × Nat × Nat) :=
  (List.range 4).filterMap (fun i =>
    let w := b.cn Reg.CAP_RED_CFG u i
    if bit w 31 then some (i, bits w 18 16, bits w 15 0) else none)

/-- Row bytes of a reduction of n channels (Table 11.1). -/
def Cap.rowBytes (code n : Nat) : Nat := if code = 1 then 8 * n + 8 else 4 * n + 8

/-- The ring space a chunk takes: its header and as many whole rows as fit 65,536 bytes, in whole lines. -/
def Cap.chunkSpace (rb : Nat) : Nat := 64 * ceilDiv (64 + 65536 / rb * rb) 64

def CapChunk.space (c : CapChunk) : Nat := Cap.chunkSpace c.rowBytes

def Block.capPre (b : Block) (u : Nat) : Nat := fld (b.cfg Reg.CAP_UNIT_PRE_MS u) 15 0 * 1000000
def Block.capPost (b : Block) (u : Nat) : Nat := fld (b.cfg Reg.CAP_UNIT_POST_MS u) 19 0 * 1000000

/-! ### Pins and the digital word -/

/-- The level at a TRG pin: an output shows its pulse at level POL, an input what the pin last had. -/
def Block.trgLevel (b : Block) (n : Nat) : Bool :=
  let w := bits (b.cn Reg.CAP_TRG_CFG) (8 * n + 7) (8 * n)
  if bit w 7 then (if b.now < Tbl.get b.cap.pulse n 0 then bit w 6 else !bit w 6) else bit b.cap.trg n

def Block.capDigital (b : Block) : Nat := b.alm.di % 256 + 256 * b2n (b.trgLevel 0) + 512 * b2n (b.trgLevel 1)

/-! ### Captures -/

/-- Whether a chunk holds rows of an unreleased capture or of the one in progress. -/
def CapUnit.guards (x : CapUnit) (c : CapChunk) : Bool :=
  x.kept.any (fun k => k.2.2.contains c.seq) ||
  (match x.cur with | some k => c.rows.any (fun r => decide (k.from_ ≤ r.1)) | none => false)

/-- The rows of a chunk within [from, to), by index. -/
def CapChunk.within (c : CapChunk) (lo hi : Nat) : List (Nat × (Nat × Nat)) :=
  ((List.range c.rows.length).zip c.rows).filter (fun r => decide (lo ≤ r.2.1) && decide (r.2.1 < hi))

/-- The oldest unreleased capture freed for OVERWRITE (R304). -/
def Block.capOverwrite (b : Block) (u : Nat) : Block :=
  let x := b.capU u
  match x.kept with
  | [] => b
  | k :: r => (((b.setCapU u { x with kept := r }).count Reg.CAP_OVERWRITTEN u).irq Blk.cap 2).event 0x0D04 u k.1 (ns32 k.2.1)

/-- Recording stops for want of space (KEEP). -/
def Block.capFull (b : Block) (u : Nat) : Block :=
  let x := b.capU u
  (((b.setCapU u { x with st := 4, acc := [] }).count Reg.CAP_NOSPACE u).irq Blk.cap 1).event 0x0D03 u x.num (ns32 x.lastT)

/-- Bytes per second that a unit's reductions write. -/
def Block.capByteRate (b : Block) (u : Nat) : Nat :=
  (b.capReds u).foldl (fun a r =>
    let rb := Cap.rowBytes r.2.1 (b.capChans u).length
    let rate := b.pathRate (b.capCoarse u)
    a + (match r.2.1 with | 0 => rate * rb | 4 => b.ptF0 (r.2.2 % 4) * rb | _ => if r.2.2 = 0 then 0 else ceilDiv (rate * rb) r.2.2)) 0

/-- Whether a unit has ring space for a further capture: fewer than 64 are unreleased, and the chunks that no capture needs hold the rows of PRE
and POST; OVERWRITE makes what it needs (R303, R304). -/
def Block.capSpace (b : Block) (u : Nat) : Bool :=
  let x := b.capU u
  let used := (x.chunks.filter x.guards).foldl (fun a c => a + c.space) 0
  b.cb Reg.CAP_UNIT_CFG u 29 ||
    (decide (x.kept.length < 64) && decide ((b.capPre u + b.capPost u) * b.capByteRate u ≤ (b.capRing u - used) * nsPerS))

/-- Whether a unit's hold-off is over (R303): its instant has passed, or its triggers have been counted. -/
def Block.capHoldOver (b : Block) (u : Nat) : Bool :=
  let w := b.cn Reg.CAP_UNIT_HOLD u
  let x := b.capU u
  if bit w 31 then decide (bits w 21 0 ≤ x.held) else decide (x.lastT + bits w 21 0 * 1000000 ≤ b.now)

/-- The unit armed again once its hold-off is over and it has room for a further capture (R303). -/
def Block.capHoldCheck (b : Block) (u : Nat) : Block :=
  let x := b.capU u
  if x.st = 3 ∧ b.capHoldOver u = true ∧ b.capSpace u = true then b.setCapU u { x with st := 1, held := 0 } else b

/-- A 32-bit two's complement number of µs from ns. -/
def usOf (d : Int) : Nat := sat32 (d / 1000)

/-- The four reduction descriptors of a header for rows in [lo, hi). -/
def Block.capDescs (b : Block) (u lo hi : Nat) : List Byte :=
  let x := b.capU u
  ((List.range 4).map (fun i =>
    match (b.capReds u).find? (fun r => r.1 == i) with
    | none => leBytes 1 0xFF ++ List.replicate 15 0
    | some (_, code, k) =>
      let cs := (x.chunks.filter (fun c => c.red == i)).filter (fun c => !(c.within lo hi).isEmpty)
      let n := cs.foldl (fun a c => a + (c.within lo hi).length) 0
      let first : Nat × Nat := match cs with
        | c :: _ => ((match c.within lo hi with | r :: _ => r.1 | [] => 0), c.off / 64)
        | [] => (0, 0)
      leBytes 1 code ++ [0] ++ leBytes 2 (if code = 0 then 0 else if code = 4 then k % 4 else k) ++
        leBytes 2 (Cap.rowBytes code (b.capChans u).length) ++ leBytes 2 first.1 ++ leBytes 4 first.2 ++ leBytes 4 n)).flatten

/-- The 256-byte capture header (Table 11.4). -/
def Block.capHeader (b : Block) (u : Nat) (k : Capture) (flags post hi : Nat) : List Byte :=
  let prim := match k.list with | t :: _ => t.source | [] => 0
  let trigs := (k.list.map (fun t => leBytes 4 (usOf t.off) ++ leBytes 1 t.source ++ leBytes 1 t.type ++ leBytes 1 t.line ++ leBytes 1 t.member)).flatten
  slice (leBytes 4 0x50414344 ++ leBytes 1 u ++ leBytes 1 flags ++ leBytes 2 k.num ++ tt80 k.t ++ leBytes 1 prim ++ [0] ++
    leBytes 4 (k.pre / 1000) ++ leBytes 4 (post / 1000) ++ leBytes 2 (b.cn Reg.CAP_UNIT_CHMASK u) ++
    leBytes 1 (b2n (b.capCoarse u) + 2 * b.cf Reg.SDM_CFG 0 1 0 + 8 * b.cf Reg.SDM_CFG 0 2 2) ++ [0] ++
    leBytes 4 (b.pathRate (b.capCoarse u)) ++ leBytes 2 (min 65535 k.trigs) ++ leBytes 2 0 ++ b.capDescs u k.from_ hi ++ slice trigs 0 128) 0 256

/-- The int32 of each RMS(cycle) row in [lo, hi) set to its interval's end from T (Table 11.1). -/
def Block.capCycles (b : Block) (u t lo hi : Nat) : Block :=
  let x := b.capU u
  let cyc := (b.capReds u).filterMap (fun r => if r.2.1 = 4 then some r.1 else none)
  (x.chunks.filter (fun c => cyc.contains c.red)).foldl (fun b c =>
    (c.within lo hi).foldl (fun b r =>
      b.storeN (b.capBase u + 16384 + c.off + 64 + r.1 * c.rowBytes) 4 (usOf ((r.2.2 : Int) - t))) b) b

/-- A capture sealed (R302): header, item, event, HOLDOFF; then the rules of R303 and R304 for what follows. -/
def Block.capSeal (b : Block) (u : Nat) (truncated : Bool) : Block :=
  let x := b.capU u
  match x.cur with
  | none => b
  | some k =>
    let period := nsPerS / b.pathRate (b.capCoarse u)
    let hi := min (k.t + b.capPost u) (max k.t (x.newest + period))
    let after (o : Option Nat) : Nat := match o with | some s => b2n (decide (k.from_ ≤ s)) | none => 0
    let flags := b2n truncated + 2 * b2n k.short + 4 * after x.stepAt + 8 * after x.unlockedAt
    let b := b.store (b.capBase u + k.num % 64 * 256) (b.capHeader u k flags (hi - k.t) hi)
    let b := b.capCycles u k.t k.from_ hi
    let mine := (x.chunks.filter (fun c => !(c.within k.from_ hi).isEmpty)).map (fun c => c.seq)
    let b := b.setCapU u { x with cur := none, st := 3, lastT := k.t, held := 0, span := some hi, kept := x.kept ++ [(k.num, k.t, mine)] }
    let b := b.push (b.cf Reg.CAP_UNIT_CFG u 21 16) (0x01 * 2 ^ 56 + u * 2 ^ 48 + k.num * 2 ^ 32 + k.num % 64) true
    let b := (b.irq Blk.cap 0).event 0x0D02 u k.num (ns32 k.t)
    let b := if (b.capU u).kept.length < 64 then b else if b.cb Reg.CAP_UNIT_CFG u 29 then b.capOverwrite u else b.capFull u
    b.capHoldCheck u

/-- A signal on a bus line waits for its act time; one within 1 ms of an earlier one is merged into it (R306, R307). The Bool
says that it was not merged. -/
def Block.busSignal (b : Block) (line t origin : Nat) : Block × Bool :=
  let merged := match Tbl.get b.cap.lastSig line none with | some l => decide (t < l + 1000000) && decide (l < t + 1000000) | none => false
  if merged then (b, false)
  else ({ b with cap := { b.cap with bus := b.cap.bus ++ [(line, t, origin)], lastSig := Tbl.put b.cap.lastSig line (some t) none } }, true)

/-- A capture opened (R300). -/
def Block.capOpen (b : Block) (u t : Nat) (trs : List CapTrig) : Block :=
  let x := b.capU u
  let want := b.capPre u
  let pre := match x.span with | some s => min want (t - s) | none => 0
  let k : Capture := ⟨x.num, t, t - pre, pre, decide (pre < want), trs.length, trs.take 16, b.t7⟩
  let b := (b.setCapU u { x with st := 2, cur := some k, num := (x.num + 1) % 65536 }).count Reg.CAP_CAPTURES u
  let b := b.event 0x0D01 u k.num (ns32 t)
  if b.cb Reg.CAP_UNIT_CFG u 28 then
    let line := b.cf Reg.CAP_UNIT_CFG u 27 25
    let r := b.busSignal line t (b.casMember + 16 * (u + 1))
    if r.2 then r.1.casTrigger line t b.casMember else r.1
  else b

/-- Triggers put into a list in the order of their sources: slots, a bus line, FORCE (R301). -/
def Cap.ranked (l : List CapTrig) : List CapTrig := ((List.range 6).map (fun i => l.filter (fun r => r.source == i))).flatten

/-- Triggers that fire on a unit (R300, R301, R303): a hold-off whose end has come is over first, those of the cycle in which a capture
was opened belong to its opening, and those after the one that completes HOLD_N open the next. -/
def Block.capTrigger (b : Block) (u t : Nat) (trs : List CapTrig) : Block :=
  let b := b.capHoldCheck u
  let x := b.capU u
  if trs = [] then b
  else match x.st with
    | 1 => b.capOpen u t (Cap.ranked trs)
    | 2 =>
      match x.cur with
      | some k =>
        let more := trs.map (fun r => ({ r with off := (t : Int) - k.t } : CapTrig))
        if k.opened = b.t7 then b.setCapU u { x with cur := some { k with trigs := k.trigs + trs.length, list := (Cap.ranked (k.list ++ more)).take 16 } }
        else (b.setCapU u { x with cur := some { k with trigs := k.trigs + trs.length, list := (k.list ++ more).take 16 } }).count Reg.CAP_RETRIGGERS u 0 trs.length
      | none => b
    | 3 =>
      let w := b.cn Reg.CAP_UNIT_HOLD u
      let n := if bit w 31 then min trs.length (max 1 (bits w 21 0 - x.held)) else trs.length
      let b := ((b.count Reg.CAP_HELD_OFF u 0 n).setCapU u { x with held := x.held + n }).capHoldCheck u
      let rest := (Cap.ranked trs).drop n
      if rest = [] then b
      else if (b.capU u).st = 1 then b.capOpen u t rest
      else
        let x := b.capU u
        (b.count Reg.CAP_HELD_OFF u 0 rest.length).setCapU u { x with held := x.held + rest.length }
    | 4 => b.count Reg.CAP_HELD_OFF u 0 trs.length
    | _ => b

/-- The slots of a unit that an event of a type names. -/
def Block.capSlots (b : Block) (u type : Nat) (p : Nat → Bool) : List CapTrig :=
  (List.range 4).filterMap (fun i =>
    let w := b.cn Reg.CAP_TRIG_CFG u i
    if bit w 31 && bits w 30 28 == type && p w then some ⟨0, i, type, 0xFF, 0xFF⟩ else none)

/-- Every unit triggered by the slots that an event names. -/
def Block.capFire (b : Block) (type t : Nat) (p : Nat → Bool) : Block :=
  (List.range 8).foldl (fun b u => b.capTrigger u t (b.capSlots u type p)) b

/-! ### Recording -/

/-- One row stored in a chunk's next place, with the chunk header (Table 11.2). -/
def Block.capStoreRow (b : Block) (u : Nat) (c : CapChunk) (bytes : List Byte) : Block :=
  let a := b.capBase u + 16384 + c.off
  let n := c.rows.length
  let first := match c.rows with | r :: _ => r.1 | [] => 0
  let h := leBytes 4 0x4B4E4843 ++ leBytes 1 u ++ leBytes 1 c.red ++ leBytes 2 c.rowBytes ++ leBytes 4 c.seq ++
    leBytes 4 (64 + n * c.rowBytes) ++ tt80 first ++ leBytes 2 n
  (b.store a (slice h 0 64)).store (a + 64 + (n - 1) * c.rowBytes) bytes

/-- Room made for a chunk at a place of the ring: unprotected chunks there go; protected ones as POLICY says. None where
recording stops. -/
def Block.capRoom (b : Block) (u pos sz : Nat) : Nat → Option Block
  | 0 => none
  | n + 1 =>
    let x := b.capU u
    let hit := x.chunks.filter (fun c => decide (c.off < pos + sz) && decide (pos < c.off + c.space))
    if hit.any x.guards then
      if b.cb Reg.CAP_UNIT_CFG u 29 then
        if x.kept = [] then (b.capSeal u true).capRoom u pos sz n else (b.capOverwrite u).capRoom u pos sz n
      else
        let b := b.capSeal u true
        some (if (b.capU u).st = 4 then b else b.capFull u)
    else
      let last := hit.foldl (fun a c => c.rows.foldl (fun a r => max a (r.1 + 1)) a) (x.span.getD 0)
      some (b.setCapU u { x with chunks := x.chunks.filter (fun c => !hit.contains c), span := x.span.map (fun _ => last) })

/-- A row of a reduction: its first sample's time, its interval's end, its bytes. -/
def Block.capRow (b : Block) (u red code t e : Nat) (bytes : List Byte) : Block :=
  let x := b.capU u
  let rb := Cap.rowBytes code (b.capChans u).length
  let openC := (x.chunks.reverse.find? (fun c => c.red == red)).filter (fun c => c.rowBytes == rb && decide (c.rows.length < 65536 / rb))
  match openC with
  | some c =>
    let c2 : CapChunk := { c with rows := c.rows ++ [(t, e)] }
    (b.setCapU u { x with chunks := x.chunks.map (fun d => if d.seq = c.seq then c2 else d) }).capStoreRow u c2 bytes
  | none =>
    let sz := Cap.chunkSpace rb
    let pos := if x.wr + sz ≤ b.capRing u then x.wr else 0
    match b.capRoom u pos sz 70 with
    | none => b
    | some b =>
      let x := b.capU u
      if x.st = 4 ∨ b.capRing u < sz then b
      else
        let c : CapChunk := ⟨red, x.seq, pos, rb, [(t, e)]⟩
        (b.setCapU u { x with chunks := x.chunks ++ [c], wr := pos + sz, seq := (x.seq + 1) % 2 ^ 32 }).capStoreRow u c bytes

/-- The flag word of samples: codes combined by OR (R297). -/
def capFlagWord (chans : List Nat) (l : List CapSample) : Nat :=
  l.foldl (fun a s => a ||| ((chans.zip s.vals).foldl (fun w e => w + e.2.2 * 4 ^ e.1) 0)) 0

/-- The values of the i-th channel that take part in a reduction. -/
def capPart (l : List CapSample) (i : Nat) : List Nat :=
  l.filterMap (fun s => match s.vals[i]? with | some e => if e.2 < 2 ∧ f32NaN e.1 = false then some e.1 else none | none => none)

/-- The lesser, or greater, of float32 values; NaN of none. -/
def capExtreme (mx : Bool) (l : List Nat) : Nat :=
  match l with
  | [] => f32QNaN
  | v :: r => r.foldl (fun a x => if (if mx then f32Lt a x else f32Lt x a) then x else a) v

/-- The mean of float32 values, rounded once. -/
def f32Mean (l : List Nat) : Nat := if l = [] then f32QNaN else f32OfRatio (l.foldl (fun a v => a + f32Val v) 0) l.length

/-- The RMS of float32 values, rounded once. -/
def f32Rms (l : List Nat) : Nat :=
  if l = [] then f32QNaN
  else f32OfRatio (isqrtFrom 420 0 ((l.foldl (fun a v => a + f32Val v * f32Val v) 0).toNat * 2 ^ 120 / l.length) : Nat) (2 ^ 60)

/-- The bytes of a reduced row. -/
def capReduce (code : Nat) (chans : List Nat) (l : List CapSample) : List Byte :=
  let n := chans.length
  let per (f : List Nat → Nat) : List Byte := ((List.range n).map (fun i => f32Bytes (f (capPart l i)))).flatten
  let body := match code with
    | 0 => ((l.map (fun s => (s.vals.map (fun e => f32Bytes e.1)).flatten)).flatten).take (4 * n)
    | 1 => per (capExtreme false) ++ per (capExtreme true)
    | 2 => per f32Mean
    | _ => per f32Rms
  body ++ leBytes 4 (capFlagWord chans l) ++ leBytes 4 (l.foldl (fun a s => a ||| s.dig) 0)

/-- A sample row of a recording unit passed to its reductions. -/
def Block.capSampleRow (b : Block) (u : Nat) (s : CapSample) : Block :=
  let x := b.capU u
  let unl := if b.timeUnlocked then some s.at_ else x.unlockedAt
  let b := b.setCapU u { x with newest := s.at_, span := some (x.span.getD s.at_), unlockedAt := unl }
  let chans := b.capChans u
  let period := nsPerS / b.pathRate (b.capCoarse u)
  (b.capReds u).foldl (fun b r =>
    let x := b.capU u
    if x.st = 4 ∨ r.2.1 = 4 then b
    else
      let k := if r.2.1 = 0 then 1 else max 1 r.2.2
      let l := Tbl.get x.acc r.1 [] ++ [s]
      if l.length < k then b.setCapU u { x with acc := Tbl.put x.acc r.1 l [] }
      else
        let t := match l with | f :: _ => f.at_ | [] => s.at_
        (b.setCapU u { x with acc := Tbl.erase x.acc r.1 }).capRow u r.1 r.2.1 t (s.at_ + period) (capReduce r.2.1 chans l)) b

/-- One step of a detector's state on a value, by MODE (R188). -/
def thrStep (mode x level hyst : Nat) (active : Bool) : Bool :=
  if f32NaN x || f32NaN level || f32NaN hyst then active
  else
    let v := f32Val x
    let l := f32Val level
    let h := f32Val hyst
    match mode with
    | 0 => if l < v then true else if v < l - h then false else active
    | 1 => if v < l then true else if l + h < v then false else active
    | _ =>
      let a : Int := v.natAbs
      if l < a then true else if a < l - h then false else active

/-- The LEVEL or RMS slots of a unit that a value of a channel fires, with the detectors stepped. -/
def Block.capLevels (b : Block) (u type ch : Nat) (coarse : Bool) (y : Nat) : Block × List CapTrig :=
  (List.range 4).foldl (fun (acc : Block × List CapTrig) i =>
    let b := acc.1
    let w := b.cn Reg.CAP_TRIG_CFG u i
    if bit w 31 && bits w 30 28 == type && bits w 7 0 == ch && (type == 1 || bit w 25 == coarse) then
      let x := b.capU u
      let was := x.active.contains i
      let now_ := thrStep (bits w 27 26) y (b.cn Reg.CAP_TRIG_LEVEL u i) (b.cn Reg.CAP_TRIG_HYST u i) was
      let b := b.setCapU u { x with active := if now_ then setIns x.active i else setDel x.active i }
      (b, if now_ && !was then acc.2 ++ [⟨0, i, type, 0xFF, 0xFF⟩] else acc.2)
    else acc) (b, [])

/-! ### Settings in force and hand-over (R308) -/

/-- The chunks that no capture needs dropped, the recorded span starting anew (R300, R308). -/
def Block.capEmpty (b : Block) (u : Nat) : Block :=
  let x := b.capU u
  b.setCapU u { x with chunks := x.chunks.filter x.guards, span := none, acc := [] }

/-- A unit brought up to its settings and the mode: recording starts, where 64 captures are not unreleased or POLICY frees one, or stops, a
capture in progress is sealed; a FULL unit set to OVERWRITE goes on (R296, R304, R305). -/
def Block.capRefresh (b : Block) (u : Nat) : Block :=
  let st := (b.capU u).st
  if b.capShould u then
    if st = 0 then
      let b := b.capEmpty u
      let b := b.setCapU u { b.capU u with st := 1, active := [], held := 0, stepAt := none, unlockedAt := none }
      if (b.capU u).kept.length < 64 then b else if b.cb Reg.CAP_UNIT_CFG u 29 then b.capOverwrite u else b.capFull u
    else if st = 4 ∧ b.cb Reg.CAP_UNIT_CFG u 29 = true then
      let b := b.capOverwrite u
      (b.setCapU u { b.capU u with st := 3, span := none }).capHoldCheck u
    else b
  else if st = 0 then b
  else
    let b := if st = 2 then b.capSeal u true else b
    let x := b.capU u
    b.setCapU u { x with st := 0, acc := [], held := 0 }

/-- R298 and the ranges that depend on another field. -/
def Block.capSetOk (b : Block) (u : Nat) : Bool :=
  let w := b.cn Reg.CAP_UNIT_HOLD u
  decide ((List.range 8).foldl (fun a v => a + fld (b.vis Reg.CAP_UNIT_SIZE v) 15 0) 0 ≤ 4096) &&
  decide (2 * (b.capPre u + b.capPost u) / 1000000 * b.capByteRate u ≤ b.capRing u * 1000) &&
  (b.capReds u).all (fun r => r.2.1 == 0 || (r.2.1 == 4 && decide (r.2.2 < 4)) || (decide (r.2.1 < 4) && decide (2 ≤ r.2.2))) &&
  decide (1 ≤ bits w 21 0) && decide (bits w 21 0 ≤ if bit w 31 then 65535 else 3600000)

/-- The sets of a unit handed over, where it is not capturing. -/
def Block.capHandover (b : Block) (u : Nat) : Block :=
  if (b.capU u).st = 2 then b
  else
    let mine (k : Nat) : Bool := keyBlk k == Blk.cap && keySpace k == 0 && keyInst k == u
    if b.comSets mine = [] then b
    else
      let old := (b.cn Reg.CAP_UNIT_CHMASK u, b.capCoarse u, b.capReds u)
      let b := b.handover mine (fun _ => 0) (fun b _ => b.capSetOk u) (fun b _ => (b.irq Blk.cap 4).event 0x0D06 u (b.capU u).num (ns32 (b.capU u).lastT))
      let b := if old = (b.cn Reg.CAP_UNIT_CHMASK u, b.capCoarse u, b.capReds u) then b else b.capEmpty u
      b.capRefresh u

/-- A sample of a channel at the units: the sample row once every channel of the mask has its sample of that instant, then the
LEVEL triggers. -/
def Block.capSample (b : Block) (ch : Nat) (coarse : Bool) (s : SdmSample) : Block :=
  (List.range 8).foldl (fun b u =>
    let x := b.capU u
    if x.st = 0 then b
    else
      let chans := b.capChans u
      let runs := chans.filter b.sdmRuns
      let newest (c : Nat) : Option SdmSample := ((b.sdmCh c).path coarse).head?
      let whole := runs.all (fun c => match newest c with | some e => e.at_ == s.at_ | none => false)
      let b :=
        if x.st ≠ 4 ∧ b.capCoarse u = coarse ∧ chans.contains ch = true ∧ whole = true then
          let vals := chans.map (fun c => if b.sdmRuns c then (match newest c with | some e => (e.y, e.code) | none => (f32QNaN, 0)) else (f32QNaN, 0))
          b.capSampleRow u ⟨s.at_, vals, b.capDigital⟩
        else b
      if s.good then
        let r := b.capLevels u 0 ch coarse s.y
        (r.1.capTrigger u s.at_ r.2).capHandover u
      else b.capHandover u) b

/-- The RMS(cycle) rows of an integration interval [s, e) of a point, and the RMS triggers (R297, R299). -/
def Block.capInterval (b : Block) (p s e : Nat) : Block :=
  (List.range 8).foldl (fun b u =>
    ((b.capReds u).foldl (fun b r =>
      let x := b.capU u
      if x.st = 0 ∨ x.st = 4 ∨ r.2.1 ≠ 4 ∨ r.2.2 % 4 ≠ p then b
      else
        let chans := b.capChans u
        let inside (c : Nat) : List SdmSample := ((b.sdmCh c).path (b.capCoarse u)).filter (fun q => decide (s ≤ q.at_) && decide (q.at_ < e))
        let rms (c : Nat) : Nat := f32Rms (((inside c).filter (fun q => q.good && !f32NaN q.y)).map (fun q => q.y))
        let flags := chans.foldl (fun w c => w + ((inside c).foldl (fun a q => a ||| q.code) 0) * 4 ^ c) 0
        let q := b.draw
        let d := q.1
        let b := q.2
        let lead := match x.cur with | some k => usOf ((e : Int) - k.t) | none => d
        let b := b.capRow u r.1 4 s e (leBytes 4 lead ++ (chans.map (fun c => f32Bytes (rms c))).flatten ++ leBytes 4 flags)
        let res := chans.foldl (fun (acc : Block × List CapTrig) c =>
          let q := acc.1.capLevels u 1 c false (rms c)
          (q.1, acc.2 ++ q.2)) (b, [])
        res.1.capTrigger u e res.2) b).capHandover u) b

/-- All units after a change of mode. -/
def Block.capMode (b : Block) : Block := (List.range 8).foldl (fun b u => (b.capRefresh u).capHandover u) b

/-- A reset of all channels within captures (R305). -/
def Block.capStep (b : Block) : Block :=
  (List.range 8).foldl (fun b u => let x := b.capU u; if x.st = 0 then b else b.setCapU u { x with stepAt := some b.now }) b

/-! ### Commands -/

/-- CAPTURE_SEAL: the last row of the capture has been written: no reduction has a row in progress that begins before the capture's end (R302). -/
def Block.capSealDue (b : Block) (u : Nat) : Bool :=
  let x := b.capU u
  match x.cur with
  | none => false
  | some k =>
    let stop := k.t + b.capPost u
    let period := nsPerS / b.pathRate (b.capCoarse u)
    decide (stop ≤ x.newest + period) && (b.capReds u).all (fun r =>
      if r.2.1 = 4 then
        !b.cb Reg.NRG_PT_CFG (r.2.2 % 4) 31 || b.nrg.frozen.isSome ||
          (match (b.nrgPt (r.2.2 % 4)).start with | some s => decide (stop ≤ s) | none => true)
      else match Tbl.get x.acc r.1 [] with | f :: _ => decide (stop ≤ f.at_) | [] => true)

/-- A RELEASE (R304). -/
def Block.capRelease (b : Block) (u : Nat) : Block :=
  let x := b.capU u
  match x.kept with
  | [] => b
  | _ :: r =>
    let b := b.setCapU u { x with kept := r }
    if x.st = 4 then (b.setCapU u { b.capU u with st := 3, span := none }).capHoldCheck u else b

/-- A FORCE (R299). -/
def Block.capForce (b : Block) (u : Nat) : Block := b.capTrigger u b.now [⟨0, 5, 0xFF, 0xFF, 0xFF⟩]

/-- An edge at a TRG pin that is an input. -/
def Block.trgEdge (b : Block) (n : Nat) (level : Bool) : Block :=
  let v := b.cap.trg
  let b := { b with cap := { b.cap with trg := if bit v n = level then v else if level then v + 2 ^ n else v - 2 ^ n } }
  if bit (b.cn Reg.CAP_TRG_CFG) (8 * n + 7) then b
  else b.capFire 3 b.now (fun w => bits w 7 0 == n && bit w 24 == level)

/-- The signals whose act time has come: the units that name the line, the output pins (R306). -/
def Block.busActOne (b : Block) (sig : Nat × Nat × Nat) : Block :=
  let (line, t, origin) := sig
  let b := (List.range 8).foldl (fun b u =>
    if origin / 16 = u + 1 then b
    else if (b.capSlots u 5 (fun w => bits w 7 0 == line)) = [] then b
    else b.capTrigger u t [⟨0, 4, 5, line, origin % 16⟩]) b
  (List.range 2).foldl (fun b n =>
    let w := bits (b.cn Reg.CAP_TRG_CFG) (8 * n + 7) (8 * n)
    if bit w 7 && w % 8 == line then
      { b with cap := { b.cap with pulse := Tbl.put b.cap.pulse n (b.now + fld (b.cfg Reg.CAP_TRG_WIDTH) 19 0 * 1000) 0 } }
    else b) b

def Block.busAct (b : Block) : Block :=
  let d := fld (b.cfg Reg.CAP_BUS_D) 9 0 * 1000
  let due := b.cap.bus.filter (fun s => decide (s.2.1 + d ≤ b.now))
  let b := { b with cap := { b.cap with bus := b.cap.bus.filter (fun s => !decide (s.2.1 + d ≤ b.now)) } }
  due.foldl Block.busActOne b

/-- A TRIGGER frame's signal (R307): one that comes after its act time acts at once. -/
def Block.busArrive (b : Block) (line t member : Nat) : Block :=
  let r := b.busSignal line t member
  if r.2 = false then r.1
  else
    let b := r.1
    if t + fld (b.cfg Reg.CAP_BUS_D) 9 0 * 1000 < b.now then
      (((b.count Reg.CAP_BUS_LATE).irq Blk.cap 3).eventRep line 0x0D05 line (ns32 t)).busAct
    else b

/-! ### COMMIT (R308) -/

/-- CAP.COMMIT: the global settings at once, each unit's where it is not capturing. -/
def Block.capCommit (b : Block) : Block :=
  let b := (b.commit Blk.cap).ripen (fun k => keyBlk k == Blk.cap)
  let b := b.handover (fun k => keyBlk k == Blk.cap && keySpace k == 15) (fun _ => 0) (fun _ _ => true)
    (fun b _ => (b.irq Blk.cap 4).event 0x0D06)
  (List.range 8).foldl Block.capHandover b

/-- HOLDOFF_END. -/
def Block.capHoldoffEnd (b : Block) (u : Nat) : Block := (b.capHoldCheck u).capHandover u

/-- CAPTURE_SEAL with the hand-over it allows. -/
def Block.capSealNow (b : Block) (u : Nat) : Block := if b.capSealDue u then (b.capSeal u false).capHandover u else b

end Sys2Proof.Machine
end

