-- ==== Sys2Proof/Machine/FeatOps.lean ====
section
/-! DEFINITION. Feature samples and their validity; the rates of the ripple engine; the states of its band detectors (R140 to R147). -/

namespace Sys2Proof.Machine

/-- The fields of a feature record (Table 3.9). -/
structure Feat where
  ang : Nat
  mag : Nat
  fdev : Nat
  rocof : Nat
  st : Nat
  dig : Nat
  cur : Nat
  deriving DecidableEq, Repr

/-- The feature of a context for a basin, none where its sample is missing: unmarked before the alarm close, poisoned, or of
a STATUS other than OK, COARSE and SOURCE_UNLOCKED (R140, R175). -/
def Block.feat (b : Block) (x : Basin) (c : Nat) : Option Feat :=
  let a := featAddr x.seq c
  if x.bmpA.getLsbD c = false ∨ b.poisonedRange a 16 = true then none
  else
    let f : Feat := ⟨b.loadN a 4, b.loadN (a + 4) 2, b.loadN (a + 6) 2, b.loadN (a + 8) 2, b.loadN (a + 10) 2, b.loadN (a + 12) 2, b.loadN (a + 14) 2⟩
    let s := bits f.st 15 12
    if s = 0 ∨ s = 7 ∨ s = 4 then some f else none

def Feat.unlocked (f : Feat) : Bool := bits f.st 15 12 == 4
def Feat.fdevOk (f : Feat) : Bool := !bit f.st 10 && !bit f.st 7
def Feat.angOk (f : Feat) : Bool := !bit f.st 11 && !f.unlocked
def Feat.magOk (f : Feat) : Bool := !bit f.st 11 && !bit f.st 8
def Feat.curOk (f : Feat) : Bool := !bit f.st 9 && f.cur != 0xFFFF
def Feat.rocofOk (f : Feat) : Bool := !bit f.st 10 && !bit f.st 6

/-- The value of a source 0 to 3 of Table 7.4 in its unit, as float32, none where it is missing. -/
def Feat.value (f : Feat) (src : Nat) : Option Nat :=
  match src with
  | 0 => if f.fdevOk then some (f32OfRat (sgn 16 f.fdev) 10000) else none
  | 1 => if f.magOk then some (f32OfRat f.mag 16384) else none
  | 2 => if f.curOk then some (f32OfRat f.cur 4096) else none
  | 3 => if f.rocofOk then some (f32OfRat (sgn 16 f.rocof) 1000) else none
  | _ => none

/-- A difference of angles wrapped to (−π, π], in 2⁻³² turns. -/
def wrapAng (d : Int) : Int :=
  let m := d % 4294967296
  if m ≤ 2147483648 then m else m - 4294967296

/-- An angle in 2⁻³² turns as the float32 nearest to it in radians. -/
def angRad (d : Int) : Nat := f32OfQ (2 * (qPi : Int) * d / 2 ^ 32)

/-- A wrapped angle unwrapped against the last one: a turn is added or taken whenever the step would exceed half a turn (R141). -/
def unwrapAng (p d : Int) : Int :=
  let s := d - wrapAng p
  p + (if 2147483648 < s then s - 4294967296 else if s < -2147483648 then s + 4294967296 else s)

/-! ### The ripple engine's rates -/

end Sys2Proof.Machine
end

