-- ==== Sys2Proof/Machine/IslOps.lean ====
section
/-! DEFINITION. The parterre: branch status, the partition, island identity, coherency, reports (R174 to R186, R202). -/

namespace Sys2Proof.Machine

/-- The enabled buses and branches of the model, in rising order. -/
def Block.islBuses (b : Block) : List Nat := (b.listed Reg.ISL_BUS_CFG).filter (fun i => b.cb Reg.ISL_BUS_CFG i 31)
def Block.islBranches (b : Block) : List Nat := (b.listed Reg.ISL_BR_CFG).filter (fun i => b.cb Reg.ISL_BR_CFG i 31)

def Block.brBus (b : Block) (i : Nat) : Nat × Nat := (b.cf Reg.ISL_BR_BUS i 13 0, b.cf Reg.ISL_BR_BUS i 29 16)

def Block.staleTicks (b : Block) : Nat := b.cf Reg.ISL_CONF_CFG 0 15 8
def Block.confN (b : Block) : Nat := b.cf Reg.ISL_CONF_CFG 0 27 24
/-- ANG_M; the code 0 of its 6 bits stands for 64 (log entry 56). -/
def Block.angM (b : Block) : Nat := let m := b.cf Reg.ISL_CONF_CFG 0 21 16; if m = 0 then 64 else m
/-- SLIP_F in 0.1 mHz and SLIP_A in 0.1°. -/
def Block.slipF (b : Block) : Nat := b.cf Reg.ISL_SLIP_CFG 0 15 0 * 10
def Block.slipA (b : Block) : Nat := b.cf Reg.ISL_SLIP_CFG 0 31 16

/-! ### Branch status (R175, R176) -/

/-- A branch's sample: closed or open, none where it is missing (Table 7.1). -/
def Block.brSample (b : Block) (x : Basin) (di i : Nat) : Option Bool :=
  let w := b.cfg Reg.ISL_BR_CFG i
  let pol := bit w.toNat 27
  let n := fld w 26 23
  match fld w 30 28 with
  | 0 => some true
  | 1 => some false
  | 2 => (b.feat x (fld w 12 0)).map (fun f => bit f.dig n == pol)
  | 3 =>
    match b.feat x (fld w 12 0) with
    | some f => if bit f.st 9 then none else some (f32Le (b.cn Reg.ISL_BR_ITHR i) (f32OfRat f.cur 4096))
    | none => none
  | 4 => some (bit di n == pol)
  | _ => none

/-- One branch brought up to a tick. -/
def Block.brStep (b : Block) (x : Basin) (di i : Nat) : Block :=
  let s := b.branch i
  let put (b : Block) (s : Branch) : Block := { b with isl := { b.isl with branches := Tbl.put b.isl.branches i s Branch.reset } }
  let unknown := !b.cb Reg.ISL_CONF_CFG 0 0
  match b.brSample x di i with
  | some v => put b ⟨v, false, 0, true, false⟩
  | none =>
    let run := min 255 (s.run + 1)
    let last := if s.seen then s.closed else unknown
    let isStale := decide (b.staleTicks ≤ run)
    let b := put b ⟨if isStale then unknown else last, true, run, s.seen, s.told || isStale⟩
    if isStale = true ∧ s.told = false then (b.count Reg.ISL_STALE).eventRep i 0x0805 i x.seq else b

/-! ### The partition (R177, R178) -/

/-- The label of a bus. -/
def labelOf (l : List (Nat × Nat)) (i : Nat) : Nat := match l.find? (fun e => e.1 == i) with | some e => e.2 | none => i

/-- Two buses joined: the higher root goes under the lower. -/
def joinBuses (l : List (Nat × Nat)) (a c : Nat) : List (Nat × Nat) :=
  let x := labelOf l a
  let y := labelOf l c
  let lo := min x y
  let hi := max x y
  l.map (fun e => if e.2 = hi then (e.1, lo) else e)

/-- The root of each enabled bus over the closed branches. -/
def Block.roots (b : Block) : List (Nat × Nat) :=
  (b.islBranches.filter (fun i => (b.branch i).closed)).foldl (fun l i => let e := b.brBus i; joinBuses l e.1 e.2)
    (b.islBuses.map (fun i => (i, i)))

/-- What a bus measures in a tick. -/
structure BusMeas where
  bus : Nat
  fdev : Option Int
  ang : Option Nat
  magOk : Bool
  dead : Bool
  deriving DecidableEq, Repr

def Block.busMeas (b : Block) (x : Basin) (i : Nat) : BusMeas :=
  let w := b.cfg Reg.ISL_BUS_CFG i
  match (if bit w.toNat 30 then b.feat x (fld w 12 0) else none) with
  | none => ⟨i, none, none, false, false⟩
  | some f =>
    ⟨i, if f.fdevOk then some (sgn 16 f.fdev) else none, if f.angOk then some f.ang else none, f.magOk,
      f.magOk && decide (f.mag < b.cn Reg.ISL_DEAD_V % 65536)⟩

/-- A component: its root, its buses' measurements, how many of them are valid for frequency, the sum and count of those that are not dead,
the reference bus and its angle. -/
structure Comp where
  root : Nat
  buses : List BusMeas
  fval : Nat
  fsum : Int
  fcnt : Nat
  ref : Option Nat
  ang : Option Nat
  deriving DecidableEq, Repr

def compOf (root : Nat) (ms : List BusMeas) : Comp :=
  let fs := ms.filterMap (fun m => if m.dead then none else m.fdev)
  let r := ms.find? (fun m => m.ang.isSome && !m.dead)
  ⟨root, ms, (ms.filter (·.fdev.isSome)).length, fs.foldl (· + ·) 0, fs.length, r.map (·.bus), match r with | some m => m.ang | none => none⟩

/-- The components in rising order of root. -/
def Block.comps (b : Block) (x : Basin) : List Comp :=
  let l := b.roots
  let rs := (l.filter (fun e => e.1 == e.2)).map (·.1)
  rs.map (fun r => compOf r ((l.filter (fun e => e.2 == r)).map (fun e => b.busMeas x e.1)))

/-- The main island's component (R179). -/
def Block.mainComp (b : Block) (cs : List Comp) : Option Comp :=
  let mb := b.cf Reg.ISL_MAIN_BUS 0 13 0
  match cs.find? (fun c => c.buses.any (fun m => m.bus == mb && m.fdev.isSome && !m.dead)) with
  | some c => some c
  | none =>
    match cs with
    | [] => none
    | c :: r => some (r.foldl (fun a d => if a.fval < d.fval then d else a) c)

/-- The components that have a slot: the 256 with the most buses, the lower root first among equals, the main island among
them (R181). -/
def trackedComps (cs : List Comp) (main : Option Comp) : List Comp :=
  if cs.length ≤ 256 then cs
  else
    let before (a c : Comp) : Bool := main == some a || (main != some c && (decide (c.buses.length < a.buses.length) ||
      (a.buses.length == c.buses.length && decide (a.root < c.root))))
    cs.filter (fun c => decide ((cs.filter (fun a => a.root != c.root && before a c)).length < 256))

/-! ### Identity (R180) -/

/-- How many of a component's buses an ID held in the previous tick. -/
def Block.shared (b : Block) (c : Comp) (id : Nat) : Nat := (c.buses.filter (fun m => (b.bus m.bus).island == id)).length

/-- The previous island sharing the most buses with a component, 0 if none. -/
def Block.bestPrev (b : Block) (ids : List Nat) (c : Comp) : Nat :=
  (ids.foldl (fun (a : Nat × Nat) id =>
    let n := b.shared c id
    if n = 0 then a else if a.2 < n ∨ (a.2 = n ∧ id < a.1) then (id, n) else a) (0, 0)).1

/-- The next ID from the counter, skipping those in use. -/
def nextId (used : List Nat) : Nat → Nat → Nat
  | 0, n => n
  | k + 1, n =>
    let n := n % 65536
    if n = 0 ∨ n = 0xFFFF ∨ used.contains n = true then nextId used k (n + 1) else n

/-- The IDs of the tracked components (R180), with the counter after them. -/
def Block.assignIds (b : Block) (cs : List Comp) (main : Option Comp) : List (Comp × Nat × Nat) × Nat :=
  let prev := b.isl.islands.map (fun e => e.2.id)
  let best := cs.map (fun c => (c, b.bestPrev prev c))
  let keeps (c : Comp) (id : Nat) : Bool :=
    id != 0 && best.all (fun e => e.1.root == c.root || e.2 != id ||
      decide (b.shared e.1 id < b.shared c id) || (b.shared e.1 id == b.shared c id && decide (c.root < e.1.root)))
  let kept := best.map (fun e => if keeps e.1 e.2 then (e.1, e.2, e.2) else (e.1, e.2, 0))
  let kept := if b.isl.valid then kept else kept.map (fun e => if main == some e.1 then (e.1, e.2.1, 1) else e)
  let used := prev ++ kept.map (fun e => e.2.2)
  kept.foldl (fun (r : List (Comp × Nat × Nat) × Nat) e =>
    if e.2.2 ≠ 0 then (r.1 ++ [e], r.2)
    else
      let id := nextId used 65536 r.2
      (r.1 ++ [(e.1, e.2.1, id)], (id + 1) % 65536)) ([], if b.isl.valid then b.isl.nextId else 2)

/-! ### Coherency (R182 to R184) -/

/-- f of a − f of c against a limit in 0.1 mHz, exactly. -/
def Comp.slipsF (a c : Comp) (lim : Nat) : Bool :=
  0 < a.fcnt && 0 < c.fcnt && decide (lim * (a.fcnt * c.fcnt) < (a.fsum * c.fcnt - c.fsum * a.fcnt).natAbs)

/-- One island after a tick, from its previous slot, its component and the main island's (Table 7.2, R183). -/
def Block.islandStep (b : Block) (seq : Nat) (old : Option Island) (wasMain : Bool) (c main : Comp) (id : Nat) : Island :=
  let o := old.getD Island.reset
  let isMain := c.root == main.root
  let fresh := isMain || wasMain
  let since := if old.isSome then o.since else seq
  let f := decide (0 < c.fcnt) && decide (0 < main.fcnt)
  let d : Option Int := match c.ang, main.ang with
    | some x, some y => some (wrapAng ((x : Int) - y))
    | _, _ => none
  let hist0 := if fresh then [] else o.hist
  let hist := match d with
    | none => []
    | some v =>
      match hist0 with
      | [] => [v]
      | p :: _ => unwrapAng p v :: hist0.take 64
  let slipA := match hist.head?, hist[b.angM]? with
    | some x, some y => decide (b.slipA * 4294967296 < (x - y).natAbs * 3600)
    | _, _ => false
  let slip := !isMain && (c.slipsF main b.slipF || slipA)
  let run0 := if fresh then 0 else o.slipRun
  let run := if isMain then 0 else if slip then min 8 (run0 + 1) else if f && d.isSome then 0 else run0
  let latch := !isMain && ((!fresh && o.latch) || (slip && decide (b.confN ≤ run)))
  let dead := c.buses.any (·.magOk) && c.buses.all (fun m => !m.magOk || m.dead)
  let state := if isMain then 5 else if dead then 4 else if latch then 2 else if c.fval = 0 then 3 else 1
  let df := if f then f32OfRat (c.fsum * main.fcnt - main.fsum * c.fcnt) (10000 * (c.fcnt * main.fcnt)) else f32QNaN
  ⟨id, state, slip, run, latch, c.buses.length, c.ref, df,
    (match hist.head? with | some v => if isMain then 0 else angRad v | none => f32QNaN), since, if isMain then [] else hist⟩

/-- One bus's mismatch run (R184): counted up to CONF_N outside SLIP_F to set it, and inside it to clear it. -/
def Block.busStep (b : Block) (c : Comp) (id : Nat) (m : BusMeas) : Bus × Option Bool :=
  let o := b.bus m.bus
  match m.fdev with
  | some v =>
    if m.dead ∨ c.fcnt = 0 then (⟨id, m.fdev.isSome, m.ang.isSome, m.dead, o.mismatch, o.run⟩, none)
    else
      let out := decide (b.slipF * c.fcnt < (v * c.fcnt - c.fsum).natAbs)
      let run := if out = o.mismatch then 0 else o.run + 1
      if b.confN ≤ run then (⟨id, true, m.ang.isSome, m.dead, out, 0⟩, some out)
      else (⟨id, true, m.ang.isSome, m.dead, o.mismatch, run⟩, none)
  | none => (⟨id, false, m.ang.isSome, m.dead, o.mismatch, o.run⟩, none)

/-! ### Reports (R186, Table 7.3) -/

/-- One report written and posted, if the ring is on. -/
def Block.islReport (b : Block) (x : Basin) (kind pred bus : Nat) (i : Island) : Block :=
  let size := (b.vis Reg.ISL_REP_SIZE).toNat % 65536
  if size = 0 then b
  else
    let head := (b.vis Reg.ISL_REP_HEAD).toNat % 65536
    let t := slotTime (b.ringRate 0) x.slot
    let bytes := leBytes 4 x.seq ++ leBytes 6 (t / nsPerS) ++ leBytes 4 (t % nsPerS) ++ leBytes 1 kind ++ leBytes 1 i.state ++
      leBytes 2 i.id ++ leBytes 2 pred ++ leBytes 2 i.count ++ leBytes 2 (i.ref.getD 0xFFFF) ++ leBytes 2 bus ++ leBytes 1 i.slipRun ++
      leBytes 1 0 ++ leBytes 4 i.df ++ leBytes 4 i.da
    let b := b.store (b.addrOf Reg.ISL_REP_BASE_LO Reg.ISL_REP_BASE_HI + head * 64) (slice bytes 0 64)
    let b := b.setVis Reg.ISL_REP_HEAD 0 0 (w32 ((head + 1) % size))
    b.push (fld (b.vis Reg.ISL_REP_QUEUE) 5 0) (2 ^ 56 + head * 2 ^ 32 + x.seq) true

/-- The lowest free island slot. -/
def freeSlot (t : Tbl Island) : Nat := ((List.range 256).find? (fun i => (t.find? (fun e => e.1 == i)).isNone)).getD 255

/-! ### A run (R185, R186) -/

/-- The alarm close of the main ring: a run that has not published expires, its result token discarded, and the next one starts with the inputs as they
stand. -/
def Block.islClose (b : Block) (seq : Nat) : Block :=
  let b := if b.isl.running.isSome then (b.count Reg.ISL_EXPIRED).count Reg.DFE_EXPIRED_TOKENS else b
  { b with isl := { b.isl with running := some (seq, b.alm.di), since := b.t7 } }

/-- Identities, states, latches, runs and angle histories cleared at a ring start or restart; branch status is kept (R185). -/
def Block.islRestart (b : Block) : Block :=
  { b with isl := { b.isl with
      buses := (b.isl.buses.map (fun e => (e.1, { e.2 with island := 0, mismatch := false, run := 0 }))).filter (fun e => e.2 != Bus.reset)
      islands := []
      mainId := 0
      nextId := 1
      valid := false
      running := none } }

/-- A bus's report of a mismatch that was set or cleared. -/
def Block.mismatchReport (b : Block) (x : Basin) (i : Island) (pred bus : Nat) (set : Bool) : Block :=
  let b := if set then b.count Reg.ISL_MISMATCH else b
  ((b.irq Blk.isl 2).eventRep bus 0x0804 bus x.seq).islReport x (if set then 5 else 6) pred bus i

/-- The buses that take no part in a tick are of no island and measure nothing in it. -/
def Block.islIdle (b : Block) : Block :=
  let on := b.islBuses
  { b with isl := { b.isl with buses := (b.isl.buses.map (fun e =>
      if on.contains e.1 then e else (e.1, { e.2 with island := 0, fOk := false, aOk := false, dead := false }))).filter (fun e => e.2 != Bus.reset) } }

/-- A run's result takes effect: branches, partition, identities, states, reports (R175 to R186). -/
def Block.islRun (b : Block) (x : Basin) (di : Nat) : Block :=
  let old := b.isl
  let b := b.islBranches.foldl (fun b i => b.brStep x di i) b
  let cs := b.comps x
  let main := b.mainComp cs
  let tr := trackedComps cs main
  let (ids, next) := b.assignIds tr main
  let preds := cs.map (fun c => (c.root, b.bestPrev (old.islands.map (fun e => e.2.id)) c))
  let slots : Tbl Island × List (Island × Nat × Bool) := match main with
    | none => ([], [])
    | some mc => ids.foldl (fun (r : Tbl Island × List (Island × Nat × Bool)) e =>
      let prev := old.islands.find? (fun s => s.2.id == e.2.2)
      let isl := b.islandStep x.seq (prev.map (·.2)) (old.mainId == e.2.2) e.1 mc e.2.2
      let kept := old.islands.filter (fun s => ids.any (fun y => y.2.2 == s.2.id))
      let slot := match prev with | some s => s.1 | none => freeSlot (r.1 ++ kept)
      (Tbl.ins r.1 slot isl, r.2 ++ [(isl, e.2.1, prev.isSome)])) ([], [])
  let mainId := (ids.find? (fun e => main == some e.1)).elim 0 (fun e => e.2.2)
  let excess := cs.length - tr.length
  let b := { b with isl := { b.isl with
    islands := slots.1, mainId := mainId, nextId := next, valid := true, running := none, untracked := excess, lastUs := min 255 ((b.t7 - old.since) / 1000) } }
  let b := b.count Reg.ISL_RUNS
  let b := if excess = 0 then b else b.count Reg.ISL_OVERFLOW
  let b := if excess ≠ 0 ∧ old.untracked = 0 then (b.irq Blk.isl 3).event 0x0806 0xFFFF excess x.seq else b
  let b := slots.2.foldl (fun b e =>
    if e.2.2 = false ∧ (e.1.state = 1 ∨ e.1.state = 3 ∨ e.1.state = 4) then
      let b := b.islReport x 1 e.2.1 0xFFFF e.1
      if e.1.state = 1 then (b.irq Blk.isl 0).event 0x0801 e.1.id 0 x.seq else b
    else b) b
  let b := slots.2.foldl (fun b e =>
    let was := match old.islands.find? (fun s => s.2.id == e.1.id) with | some s => s.2.latch | none => false
    if e.1.latch = true ∧ (was = false ∨ old.mainId = e.1.id) then
      ((b.islReport x 2 e.2.1 0xFFFF e.1).count Reg.ISL_CONFIRMED |>.irq Blk.isl 1).event 0x0802 e.1.id 0 x.seq
    else b) b
  let b := old.islands.foldl (fun b s =>
    if ids.any (fun y => y.2.2 == s.2.id) then b
    else ((b.islReport x 3 s.2.id 0xFFFF { s.2 with state := 0 }).count Reg.ISL_ENDED).event 0x0803 s.2.id 0 x.seq) b
  let b := if old.valid = true ∧ old.mainId ≠ mainId then
    (match slots.2.find? (fun e => e.1.id == mainId) with | some e => b.islReport x 4 e.2.1 0xFFFF e.1 | none => b) else b
  let idOf (c : Comp) : Nat := (ids.find? (fun e => e.1.root == c.root)).elim 0xFFFF (fun e => e.2.2)
  cs.foldl (fun (b : Block) c =>
    let pred := (preds.find? (fun e => e.1 == c.root)).elim 0 (·.2)
    c.buses.foldl (fun b m =>
      let r := b.busStep c (idOf c) m
      let b := { b with isl := { b.isl with buses := Tbl.put b.isl.buses m.bus r.1 Bus.reset } }
      match r.2 with
      | none => b
      | some set =>
        let i := (slots.2.find? (fun e => e.1.id == idOf c)).elim { Island.reset with id := 0xFFFF, count := c.buses.length, df := f32QNaN, da := f32QNaN } (·.1)
        b.mismatchReport x i pred m.bus set) b) b.islIdle

/-! ### Hand-over (R174, R202) -/

/-- Whether the configuration that a hand-over would give keeps the rules of R174. -/
def Block.islConfigOk (b : Block) : Bool :=
  b.islBranches.all (fun i =>
    let e := b.brBus i
    e.1 != e.2 && b.cb Reg.ISL_BUS_CFG e.1 31 && b.cb Reg.ISL_BUS_CFG e.2 31 && decide (b.cf Reg.ISL_BR_CFG i 30 28 ≤ 4) &&
    (b.cf Reg.ISL_BR_CFG i 30 28 != 4 || decide (b.cf Reg.ISL_BR_CFG i 26 23 < 8))) &&
  b.islBuses.all (fun i => !b.cb Reg.ISL_BUS_CFG i 30 || !b.cb Reg.STR_CTX_CTRL (b.cf Reg.ISL_BUS_CFG i 12 0) 29) &&
  (b.islBuses.isEmpty || b.cb Reg.ISL_BUS_CFG (b.cf Reg.ISL_MAIN_BUS 0 13 0) 31)

/-- ISL's hand-over at a main-ring basin open. -/
def Block.islHandover (b : Block) : Block :=
  b.handover (fun k => keyBlk k == Blk.isl) (fun _ => 0) (fun b _ => b.islConfigOk)
    (fun b _ => (b.irq Blk.isl 4).event 0x0807 0xFFFF 0 (b.ring 0).nextSeq)

end Sys2Proof.Machine
end

