-- ==== Sys2Proof/Machine/AlmView.lean ====
section
/-! DEFINITION. What ALM shows: the outputs of the definitions and the words of the analytics block (R121, R122, R195, R196). -/

namespace Sys2Proof.Machine

/-- The outputs of the 256 definitions as one number. -/
def Block.almOuts (b : Block) : Nat := b.alm.defs.foldl (fun a e => if 2 ≤ e.2.st then a + 2 ^ e.1 else a) 0

/-- Bit i: the output of definition i as evaluated for a basin of a ring. -/
def Block.alarmWord (b : Block) (r seq : Nat) : Nat :=
  let e := Tbl.get b.alm.words (r * 1024 + seq % 1024) (0, 0)
  if e.1 = seq + 1 then e.2 else b.almOuts

/-! ### Tick-class results -/

/-- Whether an op is a tick-class op of a ring. -/
def Block.tickOp (b : Block) (r op : Nat) : Bool :=
  match b.opDef op with
  | some d => !d.epoch && d.ring == r
  | none => false

/-- Whether an op is of the tick class of a basin: its tag and its ring. -/
def Block.mineOf (b : Block) (r seq op t : Nat) : Bool := t == seq % 65536 && b.tickOp r op

/-- Whether a tick-class result of a basin is not published yet: a token, a firing that waits or runs, or the island search. -/
def Block.tagLeft (b : Block) (r seq : Nat) : Bool :=
  b.dfe.store.any (fun t => b.mineOf r seq t.op t.tag) || b.dfe.engHeld.any (fun e => b.mineOf r seq e.2.op e.2.tag) ||
    b.dfe.back.any (fun f => b.mineOf r seq f.op f.tag) ||
    (List.range 48).any (fun c => (b.core c).queue.any (fun f => b.mineOf r seq f.op f.tag) ||
      (match (b.core c).running with | some f => b.mineOf r seq f.op f.tag && !f.dead | none => false)) ||
    (r == 0 && (match b.isl.running with | some (s, _) => s == seq | none => false))

/-- Whether a publisher may send in the mode (Table 7.7). -/
def Block.pubMay (b : Block) (p : Nat) : Bool :=
  let c := (b.cfg Reg.ALM_PUB_CFG 0 p).toNat
  bit c 31 && !b.alm.silenced && (match b.sys.mode with
    | .acquire => bit c 22
    | .takeover => b.alm.driven
    | .active | .holdover | .degraded | .debug | .maintenance => true
    | _ => false)

end Sys2Proof.Machine
end

