-- ==== Sys2Proof/Machine/Rsv.lean ====
section
/-! DEFINITION. Session PDUs with sampled values as IEC 61850-90-5 lays them out (R60, R61), from bytes and to bytes. The layout is the
standard's, not the spec's (log entry 114). -/

namespace Sys2Proof.Machine

/-! ### Basic encoding rules -/

/-- A tag, a length and where the contents start, of the element at the head of some bytes. -/
def berHead (bs : List Byte) : Option (Nat × Nat × Nat) :=
  if bs.length < 2 then none
  else
    let l := beAt bs 1 1
    if l < 128 then some (beAt bs 0 1, l, 2)
    else if l = 129 then some (beAt bs 0 1, beAt bs 2 1, 3)
    else if l = 130 then some (beAt bs 0 1, beAt bs 2 2, 4)
    else none

/-- The elements of a constructed value, none where one runs past the end. -/
def berItems : Nat → List Byte → Option (List (Nat × List Byte))
  | 0, bs => if bs = [] then some [] else none
  | f + 1, bs =>
    if bs = [] then some []
    else match berHead bs with
      | none => none
      | some (tag, len, at_) =>
        if bs.length < at_ + len then none
        else (berItems f (bs.drop (at_ + len))).map (fun r => (tag, (bs.drop at_).take len) :: r)

def berFind (tag : Nat) (l : List (Nat × List Byte)) : Option (List Byte) := (l.find? (fun e => e.1 == tag)).map (·.2)

/-- An element of a tag. -/
def ber (tag : Nat) (bs : List Byte) : List Byte :=
  let n := bs.length
  beBytes 1 tag ++ (if n < 128 then beBytes 1 n else if n < 256 then [0x81] ++ beBytes 1 n else [0x82] ++ beBytes 2 n) ++ bs

/-! ### ASDUs -/

/-- An svID as a lookup key holds it. -/
def svidPad (bs : List Byte) : List Byte := bs ++ List.replicate (42 - bs.length) 0

/-- One ASDU: svID [0], smpCnt [2], refrTm [4] as seconds, 24-bit fraction and quality, smpSynch [5], sample [7]. -/
def Asdu.ofBytes (bs : List Byte) : Option Asdu :=
  match berItems bs.length bs with
  | none => none
  | some l =>
    match berFind 0x80 l, berFind 0x82 l, berFind 0x85 l, berFind 0x87 l with
    | some id, some cnt, some syn, some data =>
      some ⟨svidPad id, (berFind 0x84 l).bind (fun r => if r.length = 8 then some (beAt r 0 4, beAt r 4 3, beAt r 7 1) else none),
        beNat cnt, beNat syn, data⟩
    | _, _, _, _ => none

/-- The ASDUs of a savPdu. -/
def savAsdus (bs : List Byte) : Option (List Asdu) :=
  match berItems 1 bs with
  | some [(0x60, body)] =>
    match (berItems body.length body).bind (berFind 0xA2) with
    | none => none
    | some seq => (berItems seq.length seq).bind (fun l => (l.filter (fun e => e.1 == 0x30)).mapM (fun e => Asdu.ofBytes e.2))
  | _ => none

/-- The payloads of a session PDU, each a type, a simulation flag, an APPID, a length and the PDU; the Bool says that one of them is no
sampled-values payload. -/
def spduPayloads : Nat → List Byte → Option (Bool × List Asdu)
  | 0, bs => if bs = [] then some (false, []) else none
  | f + 1, bs =>
    if bs = [] then some (false, [])
    else
      let n := beAt bs 4 2
      if bs.length < 6 + n then none
      else match spduPayloads f (bs.drop (6 + n)) with
        | none => none
        | some (other, r) =>
          if beAt bs 0 1 ≠ 0x82 then some (true, r)
          else (savAsdus ((bs.drop 6).take n)).map (fun a => (other, a ++ r))

/-! ### Session PDUs -/

/-- A session PDU decoded, none where its structure is bad: the connectionless transport header, the session identifier, the common header
with the SPDU number, the algorithms of encryption and of the MAC and the key ID, the payloads, the signature (R60). -/
def Spdu.ofBytes (p : List Byte) : Option Spdu :=
  let s := if beAt p 0 2 = 0x0140 then p.drop 2 else p
  let si := beAt s 0 1
  let cl := beAt s 3 1
  let u := 4 + cl
  let len := beAt s u 4
  if beAt s 2 1 ≠ 0x80 ∨ cl < 22 ∨ s.length < u + 4 + len then none
  else
    let enc := beAt s 20 1
    let alg := beAt s 21 1
    let sig := s.drop (u + 4 + len)
    let known := si == 0xA0 || si == 0xA1 || si == 0xA2 || si == 0xA3
    let supported := si == 0xA2 && enc == 0 && (alg == 0 || alg == 4 || alg == 5)
    let tag := if alg = 4 then 8 else 16
    if known = false then none
    else if supported = false then some ⟨false, beAt s 22 4, beAt s 8 4, alg != 0, []⟩
    else if alg ≠ 0 ∧ (beAt sig 0 1 ≠ 0x85 ∨ beAt sig 1 1 ≠ tag ∨ sig.length ≠ 2 + tag) then none
    else match spduPayloads len ((s.drop (u + 4)).take len) with
      | none => none
      | some (other, a) => some ⟨!other, beAt s 22 4, beAt s 8 4, alg != 0, a⟩

/-- The bytes of an ASDU. -/
def Asdu.bytes (a : Asdu) (svid : List Byte) (confRev : Nat) : List Byte :=
  ber 0x80 svid ++ ber 0x82 (beBytes 2 a.cnt) ++ ber 0x83 (beBytes 4 confRev) ++
    (match a.refr with | some (s, f, q) => ber 0x84 (beBytes 4 s ++ beBytes 3 f ++ beBytes 1 q) | none => []) ++
    ber 0x85 (beBytes 1 a.synch) ++ ber 0x87 a.data

/-- A session PDU up to its signature: number, algorithms, key ID, and one payload of a type. -/
def spduHead (si num curKey nextKey alg keyId : Nat) (kind : Nat) (sim : Bool) (appid : Nat) (apdu : List Byte) : List Byte :=
  let pay := beBytes 1 kind ++ beBytes 1 (b2n sim) ++ beBytes 2 appid ++ beBytes 2 apdu.length ++ apdu
  let common := beBytes 4 (22 + 4 + pay.length) ++ beBytes 4 num ++ beBytes 2 1 ++ beBytes 4 curKey ++ beBytes 2 nextKey ++ [0] ++ beBytes 1 alg ++
    beBytes 4 keyId
  [0x01, 0x40] ++ beBytes 1 si ++ beBytes 1 24 ++ [0x80] ++ beBytes 1 22 ++ common ++ beBytes 4 pay.length ++ pay

/-- The AES-GMAC tag of a session PDU: over the bytes from its session identifier up to its signature; the IV is open (log entry 87). -/
def spduTag (key pdu : List Byte) : List Byte :=
  let s := if beAt pdu 0 2 = 0x0140 then pdu.drop 2 else pdu
  gmac key (Config.gmacIv 0 s) s

/-- Whether the signature of a session PDU holds its tag (R81). -/
def spduTagOk (key pdu : List Byte) : Bool :=
  let n := (if beAt pdu 0 2 = 0x0140 then 2 else 0)
  let u := n + 4 + beAt pdu (n + 3) 1
  let e := u + 4 + beAt pdu u 4
  pdu.drop (e + 2) == (spduTag key (pdu.take e)).take (pdu.length - e - 2)

/-- The signature of a session PDU. -/
def spduSign (pdu tag : List Byte) : List Byte := pdu ++ [0x85] ++ beBytes 1 tag.length ++ tag

end Sys2Proof.Machine
end

