-- ==== Sys2Proof/Machine/StrOps.lean ====
section
/-! DEFINITION. Stream ingest: frames parsed, looked up, checked, normalised and claimed; reassembly; the exception ring; the
injection ring (R54 to R86). -/

namespace Sys2Proof.Machine

/-- A UDP datagram for a listener: the port it came in on, its addresses, the arrival time in TB0 ns, the payload. -/
structure Dgram where
  port : Nat
  v6 : Bool
  src : Nat
  dst : Nat
  sport : Nat
  dport : Nat
  arr : Nat
  payload : List Byte
  deriving DecidableEq, Repr

/-- The 16-byte source address of a lookup key, IPv4 mapped (R63). -/
def Dgram.srcKey (d : Dgram) : List Byte :=
  if d.v6 then beBytes 16 d.src else List.replicate 10 0 ++ [0xFF, 0xFF] ++ beBytes 4 d.src

/-! ### Exceptions (R66, Table 3.3) -/

/-- The queue item of an exception. -/
def Str.item (cls : Nat) (ctx : Option Nat) (slot : Nat) : Nat :=
  cls * 2 ^ 56 + (match ctx with | some c => c % 8192 * 2 ^ 32 + 2 ^ 31 | none => 0) + slot % 65536

/-- An item of its class's queue. -/
def Block.excItem (b : Block) (cls : Nat) (ctx : Option Nat) (slot : Nat) : Block := b.push (8 + cls) (Str.item cls ctx slot) true

/-- A frame handed to firmware: off, suppressed by its class's bucket, dropped on a full ring, or written and posted. The next slot written
makes a later drop a first one again (the model's choice, log entry 113). -/
def Block.exception (b : Block) (cls : Nat) (d : Dgram) (ctx : Option Nat := none) : Block :=
  let size := (b.vis Reg.STR_EXC_SIZE).toNat
  if size = 0 then b.count Reg.STR_G_EXC_DROP
  else
    let r := bucket (Tbl.get b.str.exc cls (0, 0)) (b.vis Reg.STR_EXC_RATE 0 cls).toNat 16 b.t7
    if r.1 = false then b.count Reg.STR_G_EXC_SUPPRESSED
    else
      let b := { b with str := { b.str with exc := Tbl.put b.str.exc cls r.2 (0, 0) } }
      let head := (b.vis Reg.STR_EXC_HEAD).toNat
      let next := (head + 1) % size
      if next = (b.vis Reg.STR_EXC_TAIL).toNat % size then
        let b := if b.str.full then b else { b with str := { b.str with full := true } }.irq Blk.str 4
        (b.count Reg.STR_G_EXC_DROP).eventRep 0 0x040A
      else
        let b := { b with str := { b.str with full := false } }
        let base := b.addrOf Reg.STR_EXC_BASE_LO Reg.STR_EXC_BASE_HI
        let desc := (List.range 64).map (Config.layout 1
          [d.port, b2n d.v6, d.src, d.dst, d.sport, d.dport, d.arr / nsPerS, d.arr % nsPerS, cls, d.payload.length])
        let b := b.store (base + head % size * 16448) (desc ++ d.payload)
        (b.setVis Reg.STR_EXC_HEAD 0 0 (w32 next)).excItem cls ctx head

/-! ### Contexts -/

def Block.strBlockIdx (b : Block) (c : Nat) : Nat := b.cf Reg.STR_CTX_CTRL c 7 0
def Block.strRing (b : Block) (c : Nat) : Nat := b.cf Reg.STR_CTX_CTRL c 29 29

/-- The 16 address bytes of a context's key. -/
def Block.strSrc (b : Block) (c : Nat) : List Byte := ((List.range 4).map (fun i => leBytes 4 (b.cn Reg.STR_CTX_SRC c i))).flatten

/-- The svID bytes of a context's key. -/
def Block.strSvid (b : Block) (c : Nat) : List Byte :=
  ((List.range 11).map (fun i => leBytes 4 (b.cn Reg.STR_CTX_SVID c i))).flatten.take 42

/-- Whether a context is an enabled local point's, which has no lookup key (R275). -/
def Block.localCtx (b : Block) (c : Nat) : Bool :=
  (List.range 4).any (fun p => b.cb Reg.SDM_PT_CFG p 31 && b.cf Reg.SDM_PT_CFG p 12 0 == c)

/-- The hardware-path contexts with a source address, port, protocol and IDCODE (R59, R63). -/
def Block.strCtxs (b : Block) (d : Dgram) (proto idcode : Nat) : List Nat :=
  (b.listed Reg.STR_CTX_PORT_ID).filter (fun c =>
    b.cn Reg.STR_CTX_PORT_ID c == idcode * 65536 + d.dport && b.cf Reg.STR_CTX_CTRL c 15 12 == proto &&
      !b.cb Reg.STR_CTX_CTRL c 30 && !b.localCtx c && decide (b.strSrc c = d.srcKey))

/-- Insertion by block index. -/
def Block.byBlock (b : Block) (l : List Nat) : List Nat :=
  (List.range 256).filterMap (fun i => l.find? (fun c => b.strBlockIdx c == i))

/-- PHNMR, ANNMR, DGNMR and FORMAT. -/
def Block.strFmt (b : Block) (c : Nat) : Nat × Nat × Nat × Nat :=
  (b.cf Reg.STR_CTX_FORMAT c 29 24, b.cf Reg.STR_CTX_FORMAT c 21 16, b.cf Reg.STR_CTX_FORMAT c 11 8, b.cf Reg.STR_CTX_FORMAT c 3 0)

/-- The bytes of a C37.118.2 block, read by the context's settings (R59). -/
def Block.blockSize (b : Block) (c : Nat) : Nat :=
  let (ph, an, dg, f) := b.strFmt c
  2 + ph * (if bit f 1 then 8 else 4) + (if bit f 3 then 8 else 4) + an * (if bit f 2 then 4 else 2) + 2 * dg

/-! ### Normalisation (Table 3.7) -/

/-- A signed integer element with its scale, NaN at the most negative value. -/
def Str.intElem (n v scale : Nat) : Nat := if v = 2 ^ (n - 1) then f32QNaN else f32Scale (sgn n v) scale

/-- m cos θ and m sin θ of a magnitude and an angle in 2⁻²⁵⁶, each rounded once. -/
def Str.polarOf (m th : Int) : Nat × Nat := (f32OfQ (qMul m (qCos th)), f32OfQ (qMul m (qSin th)))

/-- A polar phasor of float32 values as rectangular. -/
def Str.polar (m a : Nat) : Nat × Nat :=
  if f32NaN m || f32NaN a || f32Inf m || f32Inf a then (f32QNaN, f32QNaN) else Str.polarOf (qOfF32 m) (qOfF32 a)

/-- A phasor of two integers of `n` bits; a polar one has an unsigned magnitude and an angle in 10⁻⁴ rad. -/
def Str.intPhasor (polar : Bool) (n x y scale : Nat) : Nat × Nat :=
  if polar then
    if y = 2 ^ (n - 1) ∨ f32NaN scale = true ∨ f32Inf scale = true then (f32QNaN, f32QNaN)
    else Str.polarOf (qOfF32 scale * x) (qRat (sgn n y) 10000)
  else (Str.intElem n x scale, Str.intElem n y scale)

/-- A float phasor as received or converted. -/
def Str.fltPhasor (polar : Bool) (x y : Nat) : Nat × Nat := if polar then Str.polar x y else (x, y)

def Block.strScale (b : Block) (c i : Nat) : Nat := b.cn Reg.STR_CTX_SCALE c i

/-- The nominal frequency of a context in Hz. -/
def Block.strFnom (b : Block) (c : Nat) : Nat := if b.cb Reg.STR_CTX_FNOM c 0 then 50 else 60

def Str.freqInt (fnom n v : Nat) : Nat := if v = 2 ^ (n - 1) then f32QNaN else f32OfRat ((fnom : Int) * 1000 + sgn n v) 1000
def Str.rocofInt (n v : Nat) : Nat := if v = 2 ^ (n - 1) then f32QNaN else f32OfRat (sgn n v) 100

/-- The elements of a record. -/
structure Elems where
  ph : List (Nat × Nat)
  freq : Nat
  rocof : Nat
  an : List Nat
  dg : List Nat
  deriving DecidableEq, Repr

/-- The elements of a C37.118.2 block at its bytes after STAT. -/
def Block.c37Elems (b : Block) (c : Nat) (bs : List Byte) : Elems :=
  let (ph, an, dg, f) := b.strFmt c
  let pw := if bit f 1 then 8 else 4
  let phs := (List.range ph).map (fun i =>
    if bit f 1 then Str.fltPhasor (bit f 0) (beAt bs (i * 8) 4) (beAt bs (i * 8 + 4) 4)
    else Str.intPhasor (bit f 0) 16 (beAt bs (i * 4) 2) (beAt bs (i * 4 + 2) 2) (b.strScale c i))
  let o := ph * pw
  let fr := if bit f 3 then (beAt bs o 4, beAt bs (o + 4) 4)
    else (Str.freqInt (b.strFnom c) 16 (beAt bs o 2), Str.rocofInt 16 (beAt bs (o + 2) 2))
  let o := o + (if bit f 3 then 8 else 4)
  let aw := if bit f 2 then 4 else 2
  let ans := (List.range an).map (fun i =>
    if bit f 2 then beAt bs (o + i * 4) 4 else Str.intElem 16 (beAt bs (o + i * 2) 2) (b.strScale c (ph + i)))
  let o := o + an * aw
  ⟨phs, fr.1, fr.2, ans, (List.range dg).map (fun i => beAt bs (o + 2 * i) 2)⟩

/-- Whether a quality's validity is invalid or questionable (R75). -/
def Str.badQuality (q : Nat) : Bool := bit q 0

/-- The elements of an ASDU's dataset (R61), with the OR of its quality bits. -/
def Block.rsvElems (b : Block) (c : Nat) (bs : List Byte) : Elems × Nat :=
  let (ph, an, dg, f) := b.strFmt c
  let w (i : Nat) := beAt bs (4 * i) 4
  let fq := 3 * ph
  let ao := fq + 4
  let dO := ao + 2 * an
  let phs := (List.range ph).map (fun i =>
    if Str.badQuality (w (3 * i + 2)) then (f32QNaN, f32QNaN)
    else if bit f 1 then Str.fltPhasor (bit f 0) (w (3 * i)) (w (3 * i + 1))
    else Str.intPhasor (bit f 0) 32 (w (3 * i)) (w (3 * i + 1)) (b.strScale c i))
  let fr := if Str.badQuality (w (fq + 1)) then f32QNaN else if bit f 1 then w fq else Str.freqInt (b.strFnom c) 32 (w fq)
  let ro := if Str.badQuality (w (fq + 3)) then f32QNaN else if bit f 1 then w (fq + 2) else Str.rocofInt 32 (w (fq + 2))
  let ans := (List.range an).map (fun i =>
    if Str.badQuality (w (ao + 2 * i + 1)) then f32QNaN
    else if bit f 1 then w (ao + 2 * i) else Str.intElem 32 (w (ao + 2 * i)) (b.strScale c (ph + i)))
  let dgs := (List.range dg).map (fun i => w (dO + 2 * i) % 65536)
  let qs := (List.range ph).map (fun i => w (3 * i + 2)) ++ [w (fq + 1), w (fq + 3)] ++ (List.range an).map (fun i => w (ao + 2 * i + 1)) ++
    (List.range dg).map (fun i => w (dO + 2 * i + 1))
  (⟨phs, fr, ro, ans, dgs⟩, qs.foldl (fun a q => a ||| q) 0)

/-! ### Time on grid (R70, R71, Table 3.5) -/

/-- round(n ÷ d), ties up. -/
def roundUp (n d : Nat) : Nat := if d = 0 then 0 else (2 * n + d) / (2 * d)

/-- Where a measurement time lies. -/
inductive Grid where
  | format
  | offgrid
  | decimated
  | ok (k : Nat) (err : Int)
  deriving DecidableEq, Repr

/-- The grid decision for fraction f of TB at a ring rate; `k` may equal the rate. The closeness of a DECIMATED frame is judged on times
rounded to ns, as e is (the model's choice, log entry 113). -/
def gridOf (f tb rate tol : Nat) (mul : Bool) (n : Nat) : Grid :=
  if tb = 0 ∨ tb ≤ f ∨ rate = 0 then .format
  else
    let k := roundUp (f * rate) tb
    let e : Int := (roundUp (f * nsPerS) tb : Int) - roundUp (k * nsPerS) rate
    if e.natAbs ≤ tol then
      if mul = false ∧ 1 < n ∧ k % rate % n ≠ 0 then .offgrid else .ok k e
    else if mul then
      let k2 := roundUp (f * (rate * n)) tb
      let e2 : Int := (roundUp (f * nsPerS) tb : Int) - roundUp (k2 * nsPerS) (rate * n)
      if e2.natAbs ≤ tol then .decimated else .offgrid
    else .offgrid

/-- The grid decision for a context. -/
def Block.grid (b : Block) (c f tb : Nat) : Grid :=
  gridOf f tb (b.ringRate (b.strRing c)) (b.cf Reg.STR_OFFGRID_TOL 0 14 0) (b.cb Reg.STR_CTX_CTRL c 24) (b.cf Reg.STR_CTX_CTRL c 23 16)

/-! ### One stream-frame from check 8 on -/

/-- What a stream-frame brings besides its context's settings. -/
structure Sample where
  soc : Nat
  frac : Nat
  tb : Nat
  tq : Nat
  srcStat : Nat
  flags : Nat
  status : Nat
  seq : Nat
  cfg : Bool
  arr : Nat
  el : Elems
  deriving DecidableEq, Repr

/-- A class 3 notice, at most one per context per second (Table 3.3). -/
def Block.cfgNotice (b : Block) (c : Nat) : Block :=
  let b := (b.count Reg.STR_CFG_CHANGE c).eventRep c 0x0406 c
  let l := Tbl.get b.str.notice c 0
  if l = 0 ∨ l + nsPerS ≤ b.t7 + 1 then
    ({ b with str := { b.str with notice := Tbl.put b.str.notice c (b.t7 + 1) 0 } }).excItem 3 (some c) 0xFFFF
  else b

/-- The counters and registers of a written record. -/
def Block.recordWritten (b : Block) (o : Offer) : Block :=
  let c := o.ctx
  let b := b.count Reg.STR_CTX_RX_RECORDS c
  let b := if o.status = 3 then b.count Reg.STR_SRC_INVALID c else if o.status = 4 then b.count Reg.STR_SRC_UNLOCKED c else b
  let b := if o.cfg then b.cfgNotice c else b
  let b := if o.nan then b.count Reg.STR_NAN_RECORDS c else b
  let b := b.count Reg.STR_CTX_LAT_BIN c o.bin
  let b := b.setVis Reg.STR_CTX_LAST_ARR_NS c 0 (w32 (o.arr % nsPerS))
  let b := b.setVis Reg.STR_CTX_LAST_ARR_SEC_LO c 0 (w32 (o.arr / nsPerS))
  let b := b.setVis Reg.STR_CTX_LAST_ARR_SEC_HI c 0 (w32 (o.arr / nsPerS / 2 ^ 32 % 65536))
  let b := b.setVis Reg.STR_CTX_LAST_SLOT_SOC c 0 (w32 o.soc)
  let b := b.setVis Reg.STR_CTX_LAST_SLOT_IDX c 0 (w32 (o.k % 256))
  let keep := fld (b.vis Reg.STR_CTX_STATUS c) 27 26
  b.setVis Reg.STR_CTX_STATUS c 0 (w32 (o.status * 2 ^ 28 + keep * 2 ^ 26 + 2 ^ 25 + o.srcStat % 65536))

/-- Whether STR discards ingest-bound frames and records uncounted: a cold standby, in its mode or in a diagnostic mode entered from it
(R87, R390, R429), until it warms in a planned handover. -/
def Block.strCold (b : Block) : Bool :=
  let m := match b.sys.mode with | .maintenance | .debug => b.sys.enteredFrom | m => m
  m == .standby && b.red.role != 5 && b.red.role != 6

/-- An item that comes too late. -/
def Block.casTooLate (b : Block) (m : Nat) : Block := (b.count Reg.CAS_MBR_TOO_LATE m).eventRep m 0x1308 m b.cas.epoch

/-- A record that comes before its basin opens (step 10 of Table 3.4, R87). -/
def Block.offerEarly (b : Block) (o : Offer) : Block :=
  match o.member with
  | some m => b.casTooLate m
  | none => if b.strCold then b else b.count Reg.STR_DROP_EARLY o.ctx

/-- Check 10, ALN's admission, and the record's writes (R69, R96). -/
def Block.offerNow (b : Block) (o : Offer) : Block :=
  match b.admitRec o.ring o.slot o.ctx with
  | .early => b.offerEarly o
  | .tooLate => b.tooLate o.ctx
  | .duplicate => b.duplicate o.ring o.slot o.ctx
  | .claim p basin =>
    let b := b.claimRecord o.ring p o.ctx o.bin basin o.bytes o.feat
    if o.member.isSome then b else b.recordWritten o

/-- Records offered in order while fewer than 64 claims are in flight; the others wait (R97). -/
def Block.offerAll (b : Block) : List Offer → Block
  | [] => { b with str := { b.str with offers := [] } }
  | o :: r => if 64 ≤ b.aln.claims.length then { b with str := { b.str with offers := o :: r } } else (b.offerNow o).offerAll r

/-- A record offered after those that wait. -/
def Block.offer (b : Block) (o : Offer) : Block := b.offerAll (b.str.offers ++ [o])

/-- The records that wait for a claim, offered again. -/
def Block.offerWaiting (b : Block) : Block := b.offerAll b.str.offers

/-- Checks 8 (time base and fraction) and 9; a record that passes them is offered (R69 to R79, R96). The Bool says that the stream-frame
failed check 8. -/
def Block.sampleIn (b : Block) (c : Nat) (s : Sample) : Block × Bool :=
  match b.grid c s.frac s.tb with
  | .format => (b.count Reg.STR_FORMAT_ERR c, true)
  | .offgrid => ((b.count Reg.STR_OFFGRID c).eventRep c 0x0405 c, false)
  | .decimated => (b.count Reg.STR_DECIMATED c, false)
  | .ok k e =>
    let r := b.strRing c
    let rate := b.ringRate r
    let sec := b.secOfSoc s.soc (b.now / nsPerS) + k / rate
    let slot := sec * rate + k % rate
    let slotNs := slotTime rate slot
    let rc : Rec := ⟨s.status, s.flags, b.cf Reg.STR_CTX_CTRL c 26 25, s.tq, s.srcStat, s.arr, slotNs, e, s.seq,
      s.el.ph, s.el.freq, s.el.rocof, s.el.an, s.el.dg⟩
    let bin := latBin ((s.arr : Int) - slotNs)
    let f := rc.feature (b.cfg Reg.STR_CTX_FEAT_SEL c) (b.cfg Reg.STR_CTX_FEAT_DMASK c) (b.strFnom c)
      (b.cn Reg.STR_CTX_VNOM c) (b.cn Reg.STR_CTX_INOM c)
    (b.offer ⟨r, slot, c, bin, rc.bytes c, f, none, s.arr, k % rate, if k = rate then (s.soc + 1) % 2 ^ 32 else s.soc, s.status, s.srcStat,
      s.cfg, rc.hasNaN⟩, false)

/-! ### C37.118.2 -/

/-- The status of a C37.118.2 record (Table 3.6). -/
def Block.c37Status (b : Block) (c stat tq : Nat) (poisoned : Bool) : Nat :=
  let v := bits stat 15 14
  if poisoned then 5
  else if v = 3 ∨ v = 1 ∨ (v = 2 ∧ b.cb Reg.STR_CTX_CTRL c 28 = false) then 3
  else if bit stat 13 = true ∨ tq % 16 = 15 ∨ b.cf Reg.STR_CTX_CTRL c 11 8 < tq % 16 then 4
  else 0

/-- One block of a data frame whose sizes agree, from check 6 on: the block's bytes, SOC and FRACSEC. -/
def Block.c37Block (b : Block) (c : Nat) (bs : List Byte) (soc fracsec arr : Nat) (poisoned : Bool) : Block × Bool :=
  if b.strEnabled c = false then (b.count Reg.STR_RX_DISABLED c, false)
  else
    let stat := beAt bs 0 2
    let tq := fracsec / 2 ^ 24
    let flags := b2n (bit stat 12) * 2 ^ 26 + b2n (bit stat 10) * 2 ^ 25 + b2n (bit stat 11) * 2 ^ 24 + b2n (bit stat 9) * 2 ^ 23
    b.sampleIn c ⟨soc, fracsec % 2 ^ 24, b.cf Reg.STR_CTX_TIMEBASE c 23 0, tq, stat, flags, b.c37Status c stat tq poisoned, 0,
      bit stat 10, arr, b.c37Elems c (bs.drop 2)⟩

/-- The blocks of a frame one after the other. -/
def Block.c37Blocks (b : Block) (cs : List Nat) (bs : List Byte) (soc fracsec arr : Nat) (poisoned : Bool) : Block × Bool :=
  match cs with
  | [] => (b, false)
  | c :: r =>
    let n := b.blockSize c
    let x := b.c37Block c (bs.take n) soc fracsec arr poisoned
    let y := x.1.c37Blocks r (bs.drop n) soc fracsec arr poisoned
    (y.1, x.2 || y.2)

/-- Every block of a frame fails check 8, a disabled one check 6 before it. -/
def Block.c37Format (b : Block) (cs : List Nat) : Block :=
  cs.foldl (fun b c => b.count (if b.strEnabled c then Reg.STR_FORMAT_ERR else Reg.STR_RX_DISABLED) c) b

/-- Check 1 of a C37.118.2 frame (R57); a frame shorter than 16 bytes, the least that a frame of the standard has, fails it too (the model's
choice, log entry 113). -/
def c37Ok (p : List Byte) : Bool :=
  let v := beAt p 1 1 % 16
  beAt p 0 1 == 0xAA && (v == 1 || v == 2) && decide (beAt p 1 1 / 16 % 8 ≤ 5) && beAt p 2 2 == p.length && decide (16 ≤ p.length)

/-- The frame type, and the CHK field's check (R58). -/
def c37Type (p : List Byte) : Nat := beAt p 1 1 / 16 % 8
def c37Chk (p : List Byte) : Bool := crcCcitt (p.take (p.length - 2)) == beAt p (p.length - 2) 2

/-- An unmatched stream-frame (R68). -/
def Block.unmatched (b : Block) (d : Dgram) : Block :=
  (((b.count Reg.STR_G_UNMATCHED).irq Blk.str 0).eventRep (beNat d.srcKey) 0x0402 0xFFFF (if d.v6 then d.src % 2 ^ 32 else d.src)).exception 0 d

/-- A C37.118.2 datagram (Table 3.4). An exception's item names the lowest block's context where a context has the frame's key. -/
def Block.c37In (b : Block) (d : Dgram) (poisoned : Bool) : Block :=
  let p := d.payload
  if c37Ok p = false then (b.count Reg.STR_G_PARSE_ERR).exception 4 d
  else
    let cs := b.byBlock (b.strCtxs d 0 (beAt p 4 2))
    if c37Chk p = false then
      let b := b.count Reg.STR_G_CRC_ERR
      match cs.find? (fun c => b.strBlockIdx c == 0) with
      | some c => b.count Reg.STR_CRC_ERR c
      | none => b
    else if c37Type p ≠ 0 then b.exception (if c37Type p = 4 then 2 else 1) d cs.head?
    else if cs = [] then b.unmatched d
    else
      let total := cs.foldl (fun a c => a + b.blockSize c) 16
      if total ≠ p.length then
        let bad := cs.any b.strEnabled
        let b := b.c37Format cs
        if bad then b.exception 4 d cs.head? else b
      else
        let r := b.c37Blocks cs (p.drop 14) (beAt p 6 4) (beAt p 10 4) d.arr poisoned
        if r.2 then r.1.exception 4 d cs.head? else r.1

/-! ### R-SV (R60, R61, R80 to R83) -/

/-- Whether an SPDU number is refused by a context's window, the highest number and the bits below it (R82). -/
def replayed (w : Nat × Nat) (n : Nat) : Bool :=
  if later 32 n w.1 then false
  else
    let d := (w.1 + 2 ^ 32 - n) % 2 ^ 32
    decide (64 ≤ d) || bit w.2 d

/-- The window after a passed tag. -/
def replayNext (w : Nat × Nat) (n : Nat) : Nat × Nat :=
  if later 32 n w.1 then
    let d := (n + 2 ^ 32 - w.1) % 2 ^ 32
    (n, if 64 ≤ d then 1 else (w.2 * 2 ^ d + 1) % 2 ^ 64)
  else
    let d := (w.1 + 2 ^ 32 - n) % 2 ^ 32
    (w.1, if bit w.2 d then w.2 else w.2 + 2 ^ d)

/-- What the verification of an SPDU came to. -/
inductive Auth where
  | none
  | ok
  | keyAbsent
  | replay
  | fail
  | abort
  deriving DecidableEq, Repr

/-- The key slot an SPDU uses: the current or next slot of a context whose identifier is its key ID, with GCM_IN (R80). -/
def Block.strKey (b : Block) (c id : Nat) : Option KeySlot :=
  let w := b.cfg Reg.STR_CTX_KEY_SLOT c
  let cands := [fld w 5 0, fld w 13 8].filter (fun i => (b.slot i).valid && (b.slot i).id == id)
  match cands with
  | i :: _ => if bit (b.slot i).attr 0 && !b.sys.zeroised then some (b.slot i) else none
  | [] => none

/-- The verification of an SPDU in the context of its first ASDU: a tamper zeroisation or poison in the ingest staging aborts it (R83, Table 13.2). -/
def Block.spduAuth (b : Block) (first : Option Nat) (s : Spdu) (raw : List Byte) (aborted : Bool) : Auth :=
  if s.mac = false then .none
  else if (aborted && b.sys.zeroised) || !(b.enginePoison Blk.str).isEmpty then .abort
  else match first with
    | none => .keyAbsent
    | some c =>
      match b.strKey c s.keyId with
      | none => .keyAbsent
      | some k =>
        if b.cb Reg.STR_CTX_CTRL c 27 = true ∧ replayed (Tbl.get b.str.replay c (0, 0)) s.num = true then .replay
        else if spduTagOk k.bytes raw then .ok else .fail

/-- Whether an accuracy of 2⁻ⁿ s is coarser than the bound of a C37.118 time-quality code, 10⁻⁹ s for code 1 and ten times more for each next
one; code 0 has no bound, and an unspecified accuracy (31) is coarser than any (log entry 113). -/
def coarserThan (n tq : Nat) : Bool := tq != 0 && (n == 31 || decide (2 ^ n * 10 ^ (tq - 1) < 10 ^ 9))

/-- The status of an R-SV record (Table 3.6). -/
def Block.rsvStatus (b : Block) (c : Nat) (a : Asdu) (q octet : Nat) (poisoned : Bool) : Nat :=
  if poisoned then 5
  else if bit q 11 = true ∧ b.cb Reg.STR_CTX_CTRL c 28 = false then 3
  else if a.synch = 0 then 4
  else if bit octet 6 = true ∨ bit octet 5 = true ∨ coarserThan (octet % 32) (b.cf Reg.STR_CTX_CTRL c 11 8) = true then 4
  else 0

/-- One ASDU in its context, from check 6 on; the second component says check 8 failed. Any set bit of digital word 0 is a trigger (the
model's choice, log entry 113). -/
def Block.asduIn (b : Block) (c : Nat) (a : Asdu) (au : Auth) (arr : Nat) (poisoned : Bool) : Block × Bool :=
  if b.strEnabled c = false then (b.count Reg.STR_RX_DISABLED c, false)
  else match au with
    | .keyAbsent => (b.count Reg.STR_KEY_ABSENT c, false)
    | .replay => ((b.count Reg.STR_REPLAY c).eventRep c 0x0404 c, false)
    | .fail => (((b.count Reg.STR_AUTH_FAIL c).irq Blk.str 3).eventRep c 0x0403 c, false)
    | .abort => (b, false)
    | _ =>
      if au = .none ∧ b.cb Reg.STR_CTX_CTRL c 27 = true then (b.count Reg.STR_KEY_ABSENT c, false)
      else
        let (ph, an, dg, _) := b.strFmt c
        match a.refr with
        | none => (b.count Reg.STR_FORMAT_ERR c, true)
        | some (sec, frac, oct) =>
          if a.data.length ≠ 12 * ph + 16 + 8 * an + 8 * dg then (b.count Reg.STR_FORMAT_ERR c, true)
          else
            let (el, q) := b.rsvElems c a.data
            let trig := el.dg.headD 0 != 0
            b.sampleIn c ⟨sec, frac, 2 ^ 24, oct, q % 65536, b2n trig * 2 ^ 24 + b2n (au == .ok) * 2 ^ 22,
              b.rsvStatus c a q oct poisoned, a.cnt, false, arr, el⟩

/-- An R-SV datagram. `aborted` says that a tamper zeroisation ended its verification (R83). Only a context of BLOCK 0 matches an ASDU (the
model's choice, log entry 113). -/
def Block.rsvIn (b : Block) (d : Dgram) (poisoned aborted : Bool) : Block :=
  match Spdu.ofBytes d.payload with
  | none => (b.count Reg.STR_G_PARSE_ERR).exception 4 d
  | some s =>
    if s.supported = false then (b.count Reg.STR_G_UNSUPPORTED).exception 7 d
    else
      let cs := (b.strCtxs d 1 0).filter (fun c => b.strBlockIdx c == 0)
      let find (a : Asdu) := cs.find? (fun c => decide (b.strSvid c = a.svid))
      let first := match s.asdus with | a :: _ => find a | [] => none
      let au := b.spduAuth first s d.payload aborted
      let b := match au, first with
        | .ok, some c =>
          if b.cb Reg.STR_CTX_CTRL c 27 = false then b
          else
          let w := replayNext (Tbl.get b.str.replay c (0, 0)) s.num
          ({ b with str := { b.str with replay := Tbl.put b.str.replay c w (0, 0) } }).setVis Reg.STR_CTX_REPLAY_LAST c 0 (w32 w.1)
        | .abort, some c => (b.count Reg.STR_G_KEY_ABORT).eventRep c 0x0408 c
        | .abort, none => (b.count Reg.STR_G_KEY_ABORT).eventRep 0xFFFF 0x0408
        | _, _ => b
      if au = .abort then b.engineRewrite Blk.str
      else
        let r := s.asdus.foldl (fun (x : Block × Bool) a =>
          match find a with
          | none => (x.1.unmatched d, x.2)
          | some c => let y := x.1.asduIn c a au d.arr poisoned; (y.1, x.2 || y.2)) (b, false)
        let absent := au == .none && s.asdus.any (fun a => match find a with | some c => b.strEnabled c && b.cb Reg.STR_CTX_CTRL c 27 | none => false)
        let known := s.asdus.any (fun a => match find a with | some c => b.strEnabled c | none => false)
        let b := if r.2 then r.1.exception 4 d first else r.1
        if absent || ((au == .keyAbsent || au == .replay || au == .fail) && known) then b.exception 5 d first else b

/-! ### Datagrams and fragments -/

/-- A whole datagram: its listener's parser; one that no listener names is not STR's. -/
def Block.datagramIn (b : Block) (port : Nat) (v6 : Bool) (src dst arr : Nat) (udp : List Byte) (poisoned aborted : Bool) : Block :=
  let d : Dgram := ⟨port, v6, src, dst, beAt udp 0 2, beAt udp 2 2, arr, slice udp 8 (beAt udp 4 2 - 8)⟩
  match b.listener v6 d.dport with
  | none => b
  | some n => if fld (b.cfg Reg.STR_LISTEN 0 n) 27 24 = 0 then b.c37In d poisoned else b.rsvIn d poisoned aborted

/-- A reassembly discard, with its interrupt and event (R62): the event counts by the source address and names its low 32 bits, as
UNMATCHED_SOURCE does (R68). -/
def Block.reasmEvent (b : Block) (key : List Byte) (ctr : RegDesc) : Block :=
  let src := key.take 17
  ((b.count ctr).irq Blk.str 1).eventRep (beNat src) 0x0407 0xFFFF (beNat src % 2 ^ 32)

/-- A datagram under reassembly discarded. -/
def Block.reasmDrop (b : Block) (key : List Byte) (ctr : RegDesc) : Block :=
  ({ b with str := { b.str with reasm := b.str.reasm.filter (fun r => r.key != key) } }).reasmEvent key ctr

/-- A fragment (R62). -/
def Block.fragmentIn (b : Block) (port : Nat) (v : IpView) (arr : Nat) (poisoned aborted : Bool) : Block :=
  let key := v.key
  let stop := v.off + v.udp.length
  let old := b.str.reasm.find? (fun r => r.key == key)
  if 16384 + 8 < stop then b.reasmDrop key Reg.STR_G_REASM_BIG
  else if old = none ∧ 64 ≤ b.str.reasm.length then b.reasmEvent key Reg.STR_G_REASM_FULL
  else
    let r : Reasm := old.getD ⟨key, arr, b.t7, none, [], false⟩
    let poisoned := poisoned || r.poison
    let same := r.frags.any (fun f => f.1 == v.off && f.2 == v.udp)
    let clash := r.frags.any (fun f => decide (f.1 < stop) && decide (v.off < f.1 + f.2.length)) && !same
    let total := if v.more then r.total else some stop
    let wrong := (match r.total, v.more with | some t, false => t != stop | _, _ => false) ||
      (match total with | some t => decide (t < stop) || r.frags.any (fun f => decide (t < f.1 + f.2.length)) | none => false)
    if clash || wrong then b.reasmDrop key Reg.STR_G_REASM_OVERLAP
    else
      let r : Reasm := { r with total := total, frags := if same then r.frags else r.frags ++ [(v.off, v.udp)], poison := poisoned }
      let others := b.str.reasm.filter (fun x => x.key != key)
      let have_ := r.frags.foldl (fun a f => a + f.2.length) 0
      match r.total with
      | some t =>
        if have_ = t then
          let udp := r.frags.foldl (fun a f => patch (slice a 0 t) f.1 f.2) []
          ({ b with str := { b.str with reasm := others } }).datagramIn port v.v6 v.src v.dst r.arr udp poisoned aborted
        else { b with str := { b.str with reasm := others ++ [r] } }
      | none => { b with str := { b.str with reasm := others ++ [r] } }

/-- The oldest frame of a port's receive FIFO parsed (R55, R69, R97): while records wait for a claim it waits. -/
def Block.streamIngest (b : Block) (port : Nat) (poisoned aborted : Bool) : Block :=
  let x := b.port port
  match x.fifo with
  | [] => b
  | f :: r =>
    if b.str.offers ≠ [] then b
    else
      let b := b.setPort port { x with fifo := r }
      if b.strCold then b
      else match ipView f.bytes with
      | none => b
      | some v =>
        if v.frag then b.fragmentIn port v f.stamp poisoned aborted
        else b.datagramIn port v.v6 v.src v.dst f.stamp v.udp poisoned aborted

/-- Datagrams that stayed incomplete for REASM_TIMEOUT (R62). -/
def Block.reasmTimeout (b : Block) : Block :=
  let lim := (b.vis Reg.STR_REASM_TIMEOUT).toNat * 1000
  (b.str.reasm.filter (fun r => decide (r.at7 + lim ≤ b.t7))).foldl (fun b r => b.reasmDrop r.key Reg.STR_G_REASM_TIMEOUT) b

/-! ### Injection (R84) -/

/-- A refused descriptor. -/
def Block.injRefuse (b : Block) (c : Nat) : Block :=
  (((b.count Reg.STR_G_INJ_REFUSED).irq Blk.str 5).eventRep c 0x040B c).excItem 6 (some c) 0xFFFF

/-- One injected frame through checks 1, 2, 4 and 6 to 10, with its completion item. -/
def Block.injFrame (b : Block) (c arr : Nat) (p : List Byte) (poisoned : Bool) : Block :=
  let d : Dgram := ⟨30, false, 0, 0, 0, 0, arr, p⟩
  let b :=
    if c37Ok p = false then (b.count Reg.STR_G_PARSE_ERR).exception 4 d (some c)
    else if c37Chk p = false then (b.count Reg.STR_G_CRC_ERR).count Reg.STR_CRC_ERR c
    else if c37Type p ≠ 0 then b.exception (if c37Type p = 4 then 2 else 1) d (some c)
    else if b.strEnabled c = false then b.count Reg.STR_RX_DISABLED c
    else if 16 + b.blockSize c ≠ p.length then (b.count Reg.STR_FORMAT_ERR c).exception 4 d (some c)
    else
      let r := b.c37Block c (slice p 14 (b.blockSize c)) (beAt p 6 4) (beAt p 10 4) arr poisoned
      if r.2 then r.1.exception 4 d (some c) else r.1
  b.excItem 6 (some c) 0xFFFF

/-- The next descriptor of the injection ring taken: refused or processed (R84). How a frame of several blocks is told, and a context above
8,191, are the model's choice (log entry 113). -/
def Block.inject (b : Block) : Block :=
  let size := (b.vis Reg.STR_INJ_SIZE).toNat
  let head := (b.vis Reg.STR_INJ_HEAD).toNat
  if size = 0 ∨ head = (b.vis Reg.STR_INJ_TAIL).toNat then b
  else if b.str.offers ≠ [] then b
  else
    let a := b.addrOf Reg.STR_INJ_BASE_LO Reg.STR_INJ_BASE_HI + head * 32
    let buf := b.loadN a 8
    let len := b.loadN (a + 8) 4
    let c := b.loadN (a + 12) 2 % 8192
    let arr := b.loadN (a + 16) 6 * nsPerS + b.loadN (a + 22) 4
    let b := b.setVis Reg.STR_INJ_HEAD 0 0 (w32 ((head + 1) % size))
    if b.cb Reg.STR_CTX_CTRL c 30 = false ∨ 16384 < len then b.injRefuse c
    else
      let p := b.load buf len
      let n := b.blockSize c
      if c37Ok p = true ∧ c37Type p = 0 ∧ 16 + n < len ∧ (len - 16) % n = 0 then b.injRefuse c
      else b.injFrame c arr p (b.poisonedRange buf len)

/-- The check of a context's committed set at its hand-over (R76, R85): the limits and a TIME_BASE that is not zero. -/
def Block.strSetOk (b : Block) (c : Nat) : Bool :=
  let (ph, an, dg, _) := b.strFmt c
  decide (ph + an ≤ 32) && decide (dg ≤ 8) && decide (16 + 8 * ph + 8 + 4 * an + 2 * dg ≤ 64 * 2 ^ b.cf Reg.STR_CTX_CTRL c 26 25) &&
    b.cf Reg.STR_CTX_TIMEBASE c 23 0 != 0

/-- A rejected set of STR. -/
def Block.strReject (b : Block) (key : Nat) : Block :=
  let c := keyInst key
  let b := if keySpace key = 0 then b.setBit Reg.STR_CTX_STATUS c 0 26 else b
  let n := if keySpace key = 0 then c else 0xFFFF
  (b.irq Blk.str 2).eventRep n 0x0409 n

/-- STR's hand-over at a basin open of a ring (R85): the committed sets of the ring's contexts, and on the main ring the
global settings. -/
def Block.strHandover (b : Block) (r : Nat) : Block :=
  let mine (k : Nat) : Bool := keyBlk k == Blk.str && (if keySpace k == 0 then b.strRing (keyInst k) == r else r == 0)
  b.handover mine (fun k => keySpace k * 65536 + keyInst k)
    (fun b sets => sets.all (fun e => keySpace e.1 != 0 || b.strSetOk (keyInst e.1))) Block.strReject

end Sys2Proof.Machine
end

