-- ==== Sys2Proof/Machine/OutFrames.lean ====
section
/-! DEFINITION. What OUT puts into its frames: settings, member blocks, STAT, the analytics block, data, configuration and header frames,
session PDUs (R113 to R122, R132 to R135). -/

namespace Sys2Proof.Machine

/-! ### Settings -/

/-- The settings that a basin latches for a stream (R138): the words of Table 5.6 in the order CFG, LAUNCH, RESEND_WIN,
DST_0 to DST_3, PORTS, DMAC_LO, DMAC_HI, TCI, MTU, KEY, CFG_PER. -/
def Block.outLatch (b : Block) (s : Nat) : List Nat :=
  [b.cn Reg.OUT_STR_CFG s, b.cn Reg.OUT_STR_LAUNCH s, b.cn Reg.OUT_STR_RESEND_WIN s, b.cn Reg.OUT_STR_DST s 0, b.cn Reg.OUT_STR_DST s 1,
    b.cn Reg.OUT_STR_DST s 2, b.cn Reg.OUT_STR_DST s 3, b.cn Reg.OUT_STR_PORTS s, b.cn Reg.OUT_STR_DMAC_LO s, b.cn Reg.OUT_STR_DMAC_HI s,
    b.cn Reg.OUT_STR_TCI s, b.cn Reg.OUT_STR_MTU s, b.cn Reg.OUT_STR_KEY s, b.cn Reg.OUT_STR_CFG_PER s]

def OutJob.word (j : OutJob) (i : Nat) : Nat := j.latched.getD i 0
def OutJob.cfg (j : OutJob) : Nat := j.word 0
def OutJob.rsv (j : OutJob) : Bool := bits j.cfg 29 28 == 2
def OutJob.tcp (j : OutJob) : Bool := bits j.cfg 27 26 == 2
def OutJob.v6 (j : OutJob) : Bool := bit j.cfg 25
def OutJob.timed (j : OutJob) : Bool := bit j.cfg 22
def OutJob.format (j : OutJob) : Nat := bits j.cfg 17 14
def OutJob.uplink (j : OutJob) : Nat := bits j.cfg 24 23

/-- The first part of a stream and their number. -/
def Block.outParts (b : Block) (s : Nat) : Nat × Nat := (b.cf Reg.OUT_STR_PARTS s 25 16, b.cf Reg.OUT_STR_PARTS s 6 0)

/-- An IP address held in registers, its bytes in order. -/
def ipOf (v6 : Bool) (ws : List Nat) : Nat :=
  if v6 then beNat ((ws.take 4).map (leBytes 4)).flatten else beNat (leBytes 4 (ws.headD 0))

/-- The source address of an uplink: the pair's virtual address in a pair (R127). -/
def Block.outSrc (b : Block) (up : Nat) (v6 : Bool) : Nat :=
  if b.sys.paired then
    (if v6 then ipOf true [b.cn Reg.RED_VIP6_0 0 up, b.cn Reg.RED_VIP6_1 0 up, b.cn Reg.RED_VIP6_2 0 up, b.cn Reg.RED_VIP6_3 0 up]
     else ipOf false [b.cn Reg.RED_VIP4 0 up])
  else Config.uplinkIp up v6

/-- The weir B bound of a ring in µs (Table 4.1). -/
def Block.weirBoundB (b : Block) (r : Nat) : Nat :=
  if fld (b.cfg Reg.ALN_WB_MODE 0 r) 1 0 = 0 then b.cn Reg.ALN_WB_W 0 r else b.cn Reg.ALN_WB_WMAX 0 r

/-! ### Members and their records -/

/-- A member entry (Table 5.2). -/
structure OutMember where
  ctx : Nat
  ph : Nat
  an : Nat
  dg : Nat
  flags : Nat
  name : Nat
  deriving DecidableEq, Repr

def Block.outMember (b : Block) (i : Nat) : OutMember :=
  let a := b.cn Reg.OUT_MEMBER_BASE_LO + b.cn Reg.OUT_MEMBER_BASE_HI % 256 * 4294967296 + 16 * i
  ⟨b.loadN a 2, b.loadN (a + 2) 4, b.loadN (a + 6) 4, b.loadN (a + 10) 1, b.loadN (a + 11) 1, b.loadN (a + 12) 2⟩

/-- The members of a part; the analytics block, the last block of a stream's last part, is none of them (R120). -/
def Block.outMembers (b : Block) (s part : Nat) : List OutMember :=
  let (first, n) := b.outParts s
  let ana := b.cb Reg.OUT_STR_CFG s 19 && part + 1 == first + n
  let cnt := b.cf Reg.OUT_PART_COUNT part 16 0 - b2n ana
  (List.range cnt).map (fun i => b.outMember (b.cf Reg.OUT_PART_FIRST part 16 0 + i))

/-- Whether a part carries the analytics block. -/
def Block.outAna (b : Block) (s part : Nat) : Bool :=
  let (first, n) := b.outParts s
  b.cb Reg.OUT_STR_CFG s 19 && part + 1 == first + n

/-- PHNMR, ANNMR, DGNMR of a context, its nominal frequency, and whether it is a C37.118.2 source; a context of another
member by the format word that the image gives with its merged offset. -/
def Block.outCtx (b : Block) (g : Nat) : Nat × Nat × Nat × Nat × Bool :=
  if g < 8192 then
    let (ph, an, dg, _) := b.strFmt g
    (ph, an, dg, b.strFnom g, b.cf Reg.STR_CTX_CTRL g 15 12 == 0 && (b.cn Reg.STR_CTX_PORT_ID g != 0 || b.cb Reg.STR_CTX_CTRL g 30))
  else
    let w := (Tbl.get b.cas.offset g (0, 0)).2
    (bits w 29 24, bits w 21 16, bits w 11 8, if bit w 31 then 50 else 60, bit w 30)

/-- The scale of an integer element of a context (R115); that of another member's context comes from the image (log entry 115). -/
def Block.outScale (b : Block) (g i : Nat) : Nat := if g < 8192 then b.strScale g i else Tbl.get b.cas.scales (64 * g + i) f32One

/-- Where the record of a member lies for a ring position. -/
def Block.outRecAt (b : Block) (r p g : Nat) : Nat :=
  if g < 8192 then b.recordAddr r p g
  else b.cn Reg.CAS_MERGE_BASE_LO + b.cn Reg.CAS_MERGE_BASE_HI % 256 * 4294967296 + p * (b.cf Reg.CAS_MERGE_STRIDE 0 6 0 * 65536) +
    (Tbl.get b.cas.offset g (0, 0)).1

/-- Whether a member was marked at weir B: by the bitmap copy for the module's own contexts, by the copy of the merged bits for others
(R116, R126, R377). -/
def OutJob.markedB (j : OutJob) (g : Nat) : Bool := if g < 8192 then j.bmp.getLsbD g else j.merged.contains g

/-- Whether a member of a job's basin is marked by now, for a re-send (R136). -/
def Block.outMarkedNow (b : Block) (j : OutJob) (g : Nat) : Bool :=
  if g < 8192 then (match (b.ring j.ring).seqPos j.seq with | some (_, x) => x.bmp | none => j.bmp).getLsbD g else b.cas.merged.contains (j.base, g)

/-- A record as a member block needs it. -/
structure OutRec where
  present : Bool
  poisoned : Bool
  status : Nat
  trig : Bool
  src : Nat
  ph : List (Nat × Nat)
  freq : Nat
  rocof : Nat
  an : List Nat
  dg : List Nat
  deriving DecidableEq, Repr

/-- The record of a member read, or a MISSING one (R115, R116). Elements beyond the context's counts are NaN, or 0 for a
digital word. A poisoned record is sent as POISONED with elements the spec leaves open (Table 13.2). -/
def Block.outRead (b : Block) (r p : Nat) (m : OutMember) (marked : Bool) : OutRec :=
  let (ph, an, dg, _, _) := b.outCtx m.ctx
  let phs := (List.range 32).filter (bit m.ph)
  let ans := (List.range 32).filter (bit m.an)
  let dgs := (List.range 8).filter (bit m.dg)
  if marked = false then ⟨false, false, 1, false, 0, phs.map (fun _ => (f32QNaN, f32QNaN)), f32QNaN, f32QNaN, ans.map (fun _ => f32QNaN), dgs.map (fun _ => 0)⟩
  else
    let a := b.outRecAt r p m.ctx
    let w0 := b.loadN a 4
    let len := 64 * 2 ^ bits w0 14 13
    if b.poisonedRange a len then
      let v (i : Nat) := leNat ((List.range 4).map (fun k => Config.layout 3 [b.t7, m.ctx] (4 * i + k)))
      ⟨true, true, 5, false, 0, phs.map (fun i => (v (2 * i), v (2 * i + 1))), v 64, v 65, ans.map (fun i => v (66 + i)), dgs.map (fun i => v (98 + i) % 65536)⟩
    else
      let at4 (o : Nat) := b.loadN (a + 16 + o) 4
      let fo := 8 * ph
      ⟨true, false, bits w0 31 28, bit w0 24, b.loadN (a + 4) 2,
        phs.map (fun i => if i < ph then (at4 (8 * i), at4 (8 * i + 4)) else (f32QNaN, f32QNaN)),
        at4 fo, at4 (fo + 4),
        ans.map (fun i => if i < an then at4 (fo + 8 + 4 * i) else f32QNaN),
        dgs.map (fun i => if i < dg then b.loadN (a + 16 + fo + 8 + 4 * an + 2 * i) 2 else 0)⟩

/-! ### Time quality (R118, R119) -/

/-- The STAT and FRACSEC codes of Table 5.4. -/
def Block.tqCodes (b : Block) : Nat × Nat :=
  match b.tbErr 0 with
  | none => (7, 15)
  | some e =>
    if e < 100000 ∧ (b.tb 0).st = .locked then (1, 3)
    else if e < 1000000 then (2, 4)
    else if e < 10000000 then (3, 5)
    else if e < 100000000 then (4, 6)
    else if e < 1000000000 then (5, 7)
    else if e < 10000000000 then (6, 8)
    else (7, 15)

/-- The unlocked-time code. -/
def Block.unlockedCode (b : Block) : Nat :=
  match b.out.unlockedAt with
  | none => 0
  | some a =>
    let d := (b.t7 - a) / nsPerS
    if d < 10 then 0 else if d < 100 then 1 else if d < 1000 then 2 else 3

/-- FRACSEC[31:24] for a TAI second: direction, occurred and pending of a leap second, and the message time quality. -/
def Block.fracHigh (b : Block) (sec : Nat) : Nat :=
  let before (e : Nat × Int) : Int := b.taiUtc (e.1 - 1)
  let pend := b.tim.leaps.find? (fun e => decide (sec < e.1) && decide (e.1 ≤ sec + 60) && decide (e.1 ≤ b.tim.leapExpiry) && !b.tim.leapExpired)
  let occ := b.tim.leaps.find? (fun e =>
    let s := e.1 + (if before e < e.2 then 1 else 0)
    decide (s ≤ sec) && decide (sec < s + 86400) && decide (0 < e.1) && before e != e.2)
  let dir := match pend, occ with
    | some e, _ => decide (e.2 < before e)
    | none, some e => decide (e.2 < before e)
    | none, none => false
  b2n dir * 64 + b2n occ.isSome * 32 + b2n pend.isSome * 16 + b.tqCodes.2

/-- The STAT word of a member block (Table 5.3). -/
def Block.outStat (b : Block) (v1 notice c37 resend : Bool) (x : OutRec) : Nat :=
  let src := if c37 then x.src else 0
  let hi := match x.status with
    | 0 | 2 | 4 => bits src 15 14
    | 3 => if c37 then bits src 15 14 else 3
    | 1 => 2
    | 5 | 6 => 3
    | 8 => 1
    | _ => 0
  let lock := bit src 13 || x.status == 4 || b.timeUnlocked
  hi * 2 ^ 14 + b2n lock * 2 ^ 13 + b2n x.trig * 2 ^ 11 + b2n notice * 2 ^ 10 + b2n (resend && x.status == 2) * 2 ^ 9 +
    (if v1 then 0 else max (bits src 8 6) b.tqCodes.1) * 64 + max (bits src 5 4) b.unlockedCode * 16 + src % 16

/-! ### Elements in a stream's format (R115) -/

def Out.clamp16 (v : Int) : Nat := (BitVec.ofInt 16 (clampI (-32767) 32767 v)).toNat

/-- round(x ÷ s), half away from zero, clamped; −32,768 for a NaN. What a scale of 0 gives is open. -/
def Out.intElem (x s : Nat) : Nat :=
  if f32NaN x then 0x8000
  else if f32Inf x then Out.clamp16 (if bit x 31 then -40000 else 40000)
  else
    let d := f32Val s
    if d = 0 then (Config.num .divide [x, s]).toNat % 65536
    else Out.clamp16 (roundDiv (if d < 0 then -f32Val x else f32Val x) d.natAbs)

/-- round((x − off) × k), half away from zero, clamped. -/
def Out.intOff (x : Nat) (off : Int) (k : Nat) : Nat :=
  if f32NaN x then 0x8000
  else if f32Inf x then Out.clamp16 (if bit x 31 then -40000 else 40000)
  else Out.clamp16 (roundDiv ((f32Val x - off * 2 ^ 149) * k) (2 ^ 149))

/-- The float32 nearest to a phasor's magnitude; an infinity has an infinite one. -/
def Out.magnitude (re im : Nat) : Nat :=
  if infPhasor (re, im) then 0x7F800000
  else
    let s := ((f32Val re) * (f32Val re) + (f32Val im) * (f32Val im)).toNat * 2 ^ 200
    let r := isqrtFrom 400 0 s
    f32OfRatio (2 * (r : Int) + (if r * r = s then 0 else 1)) (2 ^ 101)

/-- The angle of a phasor in (−π, π] in 2⁻²⁵⁶ rad; that of the origin and of an infinity is open. -/
def Out.angle (re im : Nat) : Int :=
  if infPhasor (re, im) ∨ (f32Val re = 0 ∧ f32Val im = 0) then qOfF32 (Config.num .angle [re, im]).toNat
  else qAtan2 (f32Val im) (f32Val re)

/-- A phasor's two values in a format, as patterns (R115). -/
def Out.phasor (fmt re im s : Nat) : Nat × Nat :=
  let nan := f32NaN re || f32NaN im
  match bit fmt 1, bit fmt 0 with
  | true, false => (re, im)
  | true, true => if nan then (f32QNaN, f32QNaN) else (Out.magnitude re im, f32OfQ (Out.angle re im))
  | false, false => (Out.intElem re s, Out.intElem im s)
  | false, true => if nan then (0x8000, 0x8000) else (min 32767 (magUnits re im s 0).1, Out.clamp16 (qRound (Out.angle re im * 10000)))

/-- A C37.118.2 member block. -/
def Block.outBlock (b : Block) (g fmt stat : Nat) (m : OutMember) (x : OutRec) : List Byte :=
  let (ph, _, _, fn, _) := b.outCtx g
  let pw := if bit fmt 1 then 4 else 2
  let aw := if bit fmt 2 then 4 else 2
  let phs := ((List.range 32).filter (bit m.ph)).zip x.ph
  let ans := ((List.range 32).filter (bit m.an)).zip x.an
  beBytes 2 stat ++
    (phs.map (fun e => let v := Out.phasor fmt e.2.1 e.2.2 (b.outScale g e.1); beBytes pw v.1 ++ beBytes pw v.2)).flatten ++
    (if bit fmt 3 then beBytes 4 x.freq ++ beBytes 4 x.rocof
     else beBytes 2 (Out.intOff x.freq fn 1000) ++ beBytes 2 (Out.intOff x.rocof 0 100)) ++
    (ans.map (fun e => beBytes aw (if bit fmt 2 then e.2 else Out.intElem e.2 (b.outScale g (ph + e.1))))).flatten ++
    (x.dg.map (beBytes 2)).flatten

/-! ### The analytics block (R121, R122) -/

/-- The lag of a frame of basin n: 0 once the basin's tick-class results are published or expired, else 1 (R122). -/
def Block.anaLag (b : Block) (r n : Nat) : Nat :=
  let c := Tbl.get b.dfe.closedSeq r 0
  if c = 0 then 1
  else if c - 1 = n then b2n ((Tbl.get b.dfe.closedTag r none).isNone && b.tagLeft r n)
  else b2n (!later 32 (c - 1) n)

/-- What the analytics block shows: the lag, frequency, ROCOF and the N values as float32, none where the tag has none, the alarm words. -/
structure AnaContent where
  lag : Nat
  freq : Option Nat
  rocof : Option Nat
  vals : List (Option Nat)
  alarms : List Nat
  deriving DecidableEq, Repr

/-- The analytics of the newest published or expired basin up to n. Sinks below 65,536 are the graph's named outputs, 0 and 1 the system
frequency and ROCOF; 65,536 is the island count, 65,537 to 65,539 the dominant mode's frequency, damping and confidence, which are of the
newest epoch (log entry 115). -/
def Block.anaContent (b : Block) (s r n : Nat) : AnaContent :=
  let lag := b.anaLag r n
  let tag := (n % 65536 + 65536 - lag) % 65536
  let val (i : Nat) : Option Nat :=
    if 65536 < i then (b.dfe.analytics.find? (fun e => e.1 == 1024 * i)).map (·.2.2)
    else (b.dfe.analytics.find? (fun e => e.1 == 1024 * i + tag % 1024 && e.2.1 == tag)).map (·.2.2)
  let w := b.alarmWord r ((n + 2 ^ 32 - lag) % 2 ^ 32)
  ⟨lag, val 0, val 1, (Tbl.get b.out.ana s []).map val, (List.range 16).map (fun i => bits w (16 * i + 15) (16 * i))⟩

/-- INCOMPLETE where a field is lacking (R24, R122). -/
def AnaContent.status (a : AnaContent) : Nat := if a.freq.isNone || a.rocof.isNone || a.vals.any (·.isNone) then 8 else 0

/-- The block's analogs: the lag and the values. -/
def AnaContent.analogs (a : AnaContent) : List Nat := f32OfInt a.lag :: a.vals.map (·.getD f32QNaN)

/-- The nominal frequency of a stream's analytics block, that of its first member (log entry 21). -/
def Block.anaNom (b : Block) (s : Nat) : Nat :=
  (b.outCtx (match b.outMembers s (b.outParts s).1 with | m :: _ => m.ctx | [] => 0)).2.2.2.1

/-- The analytics block of a C37.118.2 data frame. -/
def Block.anaBlock (b : Block) (s fmt : Nat) (v1 notice : Bool) (a : AnaContent) : List Byte :=
  let f := a.freq.getD f32QNaN
  let ro := a.rocof.getD f32QNaN
  let stat := b.outStat v1 notice false false ⟨true, false, a.status, false, 0, [], f, ro, [], []⟩
  beBytes 2 stat ++
    (if bit fmt 3 then beBytes 4 f ++ beBytes 4 ro else beBytes 2 (Out.intOff f (b.anaNom s) 1000) ++ beBytes 2 (Out.intOff ro 0 100)) ++
    (a.analogs.map (fun v => if bit fmt 2 then beBytes 4 v else beBytes 2 (Out.intElem v f32One))).flatten ++
    (a.alarms.map (beBytes 2)).flatten

/-! ### Data frames (R119) -/

/-- A C37.118.2 frame around a body. -/
def c37Frame (ty ver idcode soc fracsec : Nat) (body : List Byte) : List Byte :=
  let f := beBytes 1 0xAA ++ beBytes 1 (ty * 16 + ver) ++ beBytes 2 (16 + body.length) ++ beBytes 2 idcode ++ beBytes 4 soc ++ beBytes 4 fracsec ++ body
  f ++ beBytes 2 (crcCcitt f)

def OutJob.version (j : OutJob) : Nat := if bits j.cfg 29 28 = 1 then 1 else 2

/-- The quality octet of a UTC time in IEC 61850: the accuracy of Table 5.4 as the standard's number of significant bits (log entry 115)
with ClockNotSynchronized. -/
def Block.stdQuality (b : Block) : Nat :=
  b2n b.timeUnlocked * 32 + (match b.tqCodes.2 with | 3 => 23 | 4 => 19 | 5 => 16 | 6 => 13 | 7 => 9 | 8 => 6 | _ => 31)

/-- FRACSEC[31:24] of a basin's frames, and the quality octet of its refrTm. -/
def Block.outHigh (b : Block) (j : OutJob) : Nat :=
  if j.rsv then b.stdQuality
  else b.fracHigh (j.slot / max 1 (b.ringRate j.ring))

/-- A fresh read of every member's record, by which members are marked. -/
def Block.outReads (b : Block) (j : OutJob) (part : Nat) (marked : Nat → Bool) : List (OutMember × OutRec) :=
  (b.outMembers j.stream part).map (fun m => (m, b.outRead j.ring j.base m (marked m.ctx)))

/-- The data frame of a part (R119): its blocks, then the analytics bytes. -/
def Block.outData (b : Block) (j : OutJob) (part high : Nat) (marked : Nat → Bool) (resend : Bool) (ana : List Byte) : List Byte :=
  let notice := bit (b.vis Reg.OUT_STR_CFG j.stream).toNat 18
  let blocks := (b.outReads j part marked).map (fun e =>
    let (_, _, _, _, c37) := b.outCtx e.1.ctx
    b.outBlock e.1.ctx j.format (b.outStat (j.version == 1) notice c37 resend e.2) e.1 e.2)
  let tb := b.cf Reg.OUT_STR_TIMEBASE j.stream 23 0
  c37Frame 0 j.version (b.cf Reg.OUT_PART_IDCODE part 15 0) j.soc (high * 2 ^ 24 + roundUp (j.k * tb) (b.ringRate j.ring))
    (blocks.flatten ++ ana)

/-! ### Texts and fields of the configuration (R132, R133) -/

def ascii (s : String) : List Byte := s.toList.map (fun c => BitVec.ofNat 8 c.toNat)

/-- A text of the configuration frame store: 0 a name of the name table, 1 the name of a channel of a member entry, 2 a stream's header,
3 the name of a channel of a stream's analytics block. -/
def Block.cfgText (b : Block) (kind index : Nat) : List Byte :=
  let p := Config.cfgSpan kind index
  b.loadSafe (b.cn Reg.OUT_CFG_BASE_LO + b.cn Reg.OUT_CFG_BASE_HI % 256 * 4294967296 + p.1) p.2

/-- A block of a configuration frame: its station name and identity, the channels' names with their scales, the digital words' names. -/
structure CfgBlock where
  stn : List Byte
  idcode : Nat
  ph : List (List Byte × Nat)
  an : List (List Byte × Nat)
  dg : List (List (List Byte))
  fnom : Nat
  tag : List Nat
  deriving DecidableEq, Repr

/-- The block of a member entry (Table 5.2). -/
def Block.cfgMember (b : Block) (entry : Nat) (m : OutMember) : CfgBlock :=
  let (ph, _, _, fn, _) := b.outCtx m.ctx
  let name (i : Nat) := b.cfgText 1 (1024 * entry + i)
  { stn := if bit m.flags 0 then b.cfgText 0 m.name else ascii ("CTX" ++ toString m.ctx)
    idcode := Config.stdField 0 [m.ctx] % 65536
    ph := ((List.range 32).filter (bit m.ph)).map (fun i => (name i, b.outScale m.ctx i))
    an := ((List.range 32).filter (bit m.an)).map (fun i => (name (32 + i), b.outScale m.ctx (ph + i)))
    dg := ((List.range 8).filter (bit m.dg)).map (fun i => (List.range 16).map (fun k => name (64 + 16 * i + k)))
    fnom := fn
    tag := [0, entry] }

/-- The analytics block (R121): STN "ANALYTICS", IDCODE base + 64, 1 + N analogs, 16 digital words. -/
def Block.cfgAnalytics (b : Block) (s : Nat) : CfgBlock :=
  let name (i : Nat) := b.cfgText 3 (1024 * s + i)
  { stn := ascii "ANALYTICS"
    idcode := (b.cf Reg.OUT_PART_IDCODE (b.outParts s).1 15 0 + 64) % 65536
    ph := []
    an := (List.range (1 + (Tbl.get b.out.ana s []).length)).map (fun i => (name i, f32One))
    dg := (List.range 16).map (fun i => (List.range 16).map (fun k => name (16 + 16 * i + k)))
    fnom := b.anaNom s
    tag := [1, s] }

/-- The blocks of a part in order. -/
def Block.cfgBlocks (b : Block) (s part : Nat) : List CfgBlock :=
  let ms := b.outMembers s part
  let first := b.cf Reg.OUT_PART_FIRST part 16 0
  ((List.range ms.length).zip ms).map (fun e => b.cfgMember (first + e.1) e.2) ++ (if b.outAna s part then [b.cfgAnalytics s] else [])

/-- A name in 16 bytes, filled with spaces. -/
def name16 (bs : List Byte) : List Byte := bs.take 16 ++ List.replicate (16 - bs.length) 0x20

/-- A name after its length. -/
def nameVar (bs : List Byte) : List Byte := beBytes 1 (min 255 bs.length) ++ bs.take 255

def CfgBlock.counts (c : CfgBlock) (fmt : Nat) : List Byte :=
  beBytes 2 fmt ++ beBytes 2 c.ph.length ++ beBytes 2 c.an.length ++ beBytes 2 c.dg.length

def CfgBlock.names (c : CfgBlock) (f : List Byte → List Byte) : List Byte :=
  (c.ph.map (fun e => f e.1)).flatten ++ (c.an.map (fun e => f e.1)).flatten ++ (c.dg.map (fun w => (w.map f).flatten)).flatten

/-- A field of a block that the spec leaves to the standard, by its kind and number. -/
def CfgBlock.field (c : CfgBlock) (kind i : Nat) : Nat := Config.stdField kind (i :: c.tag)

def CfgBlock.digUnits (c : CfgBlock) : List Byte := ((List.range c.dg.length).map (fun i => beBytes 4 (c.field 3 i))).flatten

def CfgBlock.fnomWord (c : CfgBlock) : Nat := if c.fnom = 50 then 1 else 0

/-- A block of CFG-1 and CFG-2: PHUNIT in units of 10⁻⁵, ANUNIT in units of 1, each after the type of its quantity. -/
def CfgBlock.two (c : CfgBlock) (fmt cnt : Nat) : List Byte :=
  let phu (i s : Nat) := beBytes 1 (c.field 1 i) ++ beBytes 3 (clampI 0 16777215 (roundDiv (f32Val s * 100000) (2 ^ 149))).toNat
  let anu (i s : Nat) := beBytes 1 (c.field 2 i) ++ beBytes 3 (BitVec.ofInt 24 (clampI (-8388608) 8388607 (roundDiv (f32Val s) (2 ^ 149)))).toNat
  name16 c.stn ++ beBytes 2 c.idcode ++ c.counts fmt ++ c.names name16 ++
    (((List.range c.ph.length).zip c.ph).map (fun e => phu e.1 e.2.2)).flatten ++
    (((List.range c.an.length).zip c.an).map (fun e => anu e.1 e.2.2)).flatten ++
    c.digUnits ++ beBytes 2 c.fnomWord ++ beBytes 2 cnt

/-- A block of CFG-3: the scales as float32, WINDOW the weir B bound in µs, GRP_DLY 0. -/
def CfgBlock.three (c : CfgBlock) (fmt cnt window : Nat) : List Byte :=
  nameVar c.stn ++ beBytes 2 c.idcode ++ beBytes 16 (c.field 4 0) ++ c.counts fmt ++ c.names nameVar ++
    (((List.range c.ph.length).zip c.ph).map (fun e => beBytes 4 (c.field 1 e.1) ++ beBytes 4 e.2.2 ++ beBytes 4 0)).flatten ++
    (c.an.map (fun e => beBytes 4 e.2 ++ beBytes 4 0)).flatten ++
    c.digUnits ++ beBytes 4 (c.field 5 0) ++ beBytes 4 (c.field 6 0) ++ beBytes 4 (c.field 7 0) ++ beBytes 1 (c.field 8 0) ++
    beBytes 4 window ++ beBytes 4 0 ++ beBytes 2 c.fnomWord ++ beBytes 2 cnt

/-! ### Configuration and header frames -/

/-- A frame that belongs to no basin, at the instant of sending. -/
def Block.outNowFrame (b : Block) (s part ty : Nat) (body : List Byte) : List Byte :=
  let sec := b.now / nsPerS
  let frac := b.fracHigh sec * 2 ^ 24 + b.now % nsPerS * b.cf Reg.OUT_STR_TIMEBASE s 23 0 / nsPerS
  c37Frame ty (if b.cf Reg.OUT_STR_CFG s 29 28 = 1 then 1 else 2) (b.cf Reg.OUT_PART_IDCODE part 15 0) (b.socOf sec) frac body

/-- The frames per second that a stream carries. -/
def Block.outDataRate (b : Block) (s : Nat) : Nat := b.ringRate (b.cf Reg.OUT_STR_CFG s 30 30) / max 1 (b.cf Reg.OUT_STR_CFG s 7 0)

/-- The C37.118.2 configuration frames of a part (R132, R133): type 2 CFG-1, 3 CFG-2, 5 CFG-3, this in continuation frames where it
exceeds FRAME_MAX. -/
def Block.cfgFrames (b : Block) (s part ty : Nat) : List (List Byte) :=
  let fmt := b.cf Reg.OUT_STR_CFG s 17 14
  let bs := b.cfgBlocks s part
  let around (x : List Byte) := beBytes 4 (b.cf Reg.OUT_STR_TIMEBASE s 23 0) ++ beBytes 2 bs.length ++ x ++ beBytes 2 (b.outDataRate s)
  if ty ≠ 5 then [b.outNowFrame s part ty (around (bs.map (fun c => c.two fmt b.out.cfgCnt)).flatten)]
  else
    let body := around (bs.map (fun c => c.three fmt b.out.cfgCnt (b.weirBoundB (b.cf Reg.OUT_STR_CFG s 30 30)))).flatten
    let max := b.cn Reg.OUT_STR_FRAME_MAX s % 65536
    if 18 + body.length ≤ max then [b.outNowFrame s part 5 (beBytes 2 0 ++ body)]
    else
      let n := if max ≤ 18 then 1 else max - 18
      let cnt := ceilDiv body.length n
      (List.range cnt).map (fun i => b.outNowFrame s part 5 (beBytes 2 (if i + 1 = cnt then 0xFFFF else i + 1) ++ (body.drop (i * n)).take n))

/-- The header frame of a part. -/
def Block.headerFrame (b : Block) (s part : Nat) : List Byte := b.outNowFrame s part 1 (b.cfgText 2 s)

/-! ### Session PDUs (R135) -/

/-- A 16-bit integer value widened to INT32, −2³¹ for absent data. -/
def Out.widen (v : Nat) : Nat := if v = 0x8000 then 0x80000000 else sat32 (sgn 16 v)

/-- One value of a dataset with its quality (R61). -/
def Out.quality (v q : Nat) : List Byte := beBytes 4 v ++ beBytes 4 q

/-- The quality of a member's elements (R117): validity in the two low bits, test in bit 11. -/
def Out.rsvQual (x : OutRec) (c37 : Bool) : Nat :=
  (if x.status = 1 ∨ x.status = 5 ∨ x.status = 6 then 1 else if x.status = 3 then 3 else 0) + b2n (c37 && bits x.src 15 14 == 2) * 2048

/-- The dataset of a member in the order of R61. -/
def Block.rsvData (b : Block) (fmt : Nat) (m : OutMember) (x : OutRec) : List Byte :=
  let (ph, _, _, fn, c37) := b.outCtx m.ctx
  let q := Out.rsvQual x c37
  let int := !bit fmt 1
  (((((List.range 32).filter (bit m.ph)).zip x.ph).map (fun e =>
      let v := Out.phasor fmt e.2.1 e.2.2 (b.outScale m.ctx e.1)
      if int then beBytes 4 (Out.widen v.1) ++ Out.quality (Out.widen v.2) q else beBytes 4 v.1 ++ Out.quality v.2 q)).flatten) ++
    Out.quality (if int then Out.widen (Out.intOff x.freq fn 1000) else x.freq) q ++
    Out.quality (if int then Out.widen (Out.intOff x.rocof 0 100) else x.rocof) q ++
    ((((List.range 32).filter (bit m.an)).zip x.an).map (fun e =>
      Out.quality (if int then Out.widen (Out.intElem e.2 (b.outScale m.ctx (ph + e.1))) else e.2) q)).flatten ++
    (x.dg.map (fun d => Out.quality d q)).flatten

/-- The dataset of the analytics block, a lacking value marked invalid. -/
def Block.rsvAnalytics (b : Block) (s fmt : Nat) (a : AnaContent) : List Byte :=
  let int := !bit fmt 1
  let q (v : Option Nat) : Nat := b2n v.isNone
  let f := a.freq.getD f32QNaN
  let ro := a.rocof.getD f32QNaN
  Out.quality (if int then Out.widen (Out.intOff f (b.anaNom s) 1000) else f) (q a.freq) ++
    Out.quality (if int then Out.widen (Out.intOff ro 0 100) else ro) (q a.rocof) ++
    ((some (f32OfInt a.lag) :: a.vals).map (fun v =>
      let w := v.getD f32QNaN
      Out.quality (if int then Out.widen (Out.intElem w f32One) else w) (q v))).flatten ++
    (a.alarms.map (fun d => Out.quality d 0)).flatten

/-- The analytics bytes that a part first carries: the block of a data frame, or the dataset of an ASDU. -/
def Block.outAnaBytes (b : Block) (j : OutJob) (part : Nat) : List Byte :=
  if b.outAna j.stream part = false then []
  else
    let a := b.anaContent j.stream j.ring j.seq
    if j.rsv then b.rsvAnalytics j.stream j.format a
    else b.anaBlock j.stream j.format (j.version == 1) (bit (b.vis Reg.OUT_STR_CFG j.stream).toNat 18) a

/-- The session PDU of a part, without its signature: one ASDU for each member, one for the analytics. -/
def Block.outPdu (b : Block) (j : OutJob) (part num high keyId : Nat) (marked : Nat → Bool) (ana : List Byte) : List Byte :=
  let refr := (j.soc, roundUp (j.k * 2 ^ 24) (b.ringRate j.ring), high)
  let asdu (svid : List Byte) (i : Nat) (unlocked : Bool) (data : List Byte) : List Byte :=
    ber 0x30 (Asdu.bytes ⟨svid, some refr, Config.stdField 9 [part, i, j.k] % 65536, if unlocked then 0 else 2, data⟩ svid (Config.stdField 10 [part, i]))
  let rs := b.outReads j part marked
  let members := ((List.range rs.length).zip rs).map (fun e =>
    let (_, _, _, _, c37) := b.outCtx e.2.1.ctx
    asdu (b.cfgText 0 e.2.1.name) e.1 ((c37 && bit e.2.2.src 13) || e.2.2.status == 4 || b.timeUnlocked) (b.rsvData j.format e.2.1 e.2.2))
  let all := members ++ (if b.outAna j.stream part then [asdu (ascii "ANALYTICS") rs.length b.timeUnlocked ana] else [])
  let apdu := ber 0x60 (ber 0x80 (beBytes 1 all.length) ++ ber 0xA2 all.flatten)
  spduHead 0xA2 num (Config.stdField 11 [j.stream]) (Config.stdField 12 [j.stream]) 5 keyId 0x82 false (Config.stdField 13 [j.stream, part]) apdu

end Sys2Proof.Machine
end

