-- ==== Sys2Proof/Machine/OutOps.lean ====
section
/-! DEFINITION. Snapshot output: datagrams, sessions, jobs, launches, late records, commands, hand-over (R123 to R138). -/

namespace Sys2Proof.Machine

/-! ### Datagrams (R127) -/

/-- A data or configuration frame handed to PRT as one datagram (R127). -/
def Block.outUdp (b : Block) (j : OutJob) (frame : List Byte) : Block :=
  let id := Tbl.get b.out.ident j.stream 0
  let d : UdpDesc := {
    v6 := j.v6
    dmac := leBytes 4 (j.word 8) ++ leBytes 2 (j.word 9)
    tci := j.word 10 % 65536
    src := b.outSrc j.uplink j.v6
    dst := ipOf j.v6 [j.word 3, j.word 4, j.word 5, j.word 6]
    dscp := bits (j.word 11) 29 24
    hops := Config.hopLimit
    sport := j.word 7 % 65536
    dport := bits (j.word 7) 31 16
    ident := id
    mtu := bits (j.word 11) 13 0
    zeroSum := false
    payload := frame }
  let b := { b with out := { b.out with ident := Tbl.put b.out.ident j.stream ((id + 1) % 65536) 0 } }
  b.udpSend (24 + j.uplink) 1 d

/-! ### Sessions (R128 to R131) -/

def Block.setSess (b : Block) (i : Nat) (x : Session) : Block := { b with out := { b.out with sess := Tbl.put b.out.sess i x Session.reset } }

/-- The stream a session serves. -/
def Block.sessStream (b : Block) (i : Nat) : Nat := fld (b.vis Reg.OUT_SESS_STATE i) 27 22
def Block.sessSize (b : Block) (i : Nat) : Nat := fld (b.vis Reg.OUT_SESS_BUF_SIZE i) 12 0 * 1024
def Block.sessBase (b : Block) (i : Nat) : Nat := b.addrOf Reg.OUT_SESS_BUF_LO Reg.OUT_SESS_BUF_HI i

/-- b − a for sequence numbers. -/
def seqDiff (a b : Nat) : Nat := (b + 2 ^ 32 - a % 2 ^ 32) % 2 ^ 32

/-- Bytes into a session's circular buffer at a sequence number. -/
def Block.sessPut (b : Block) (i seq : Nat) (bs : List Byte) : Block :=
  let n := b.sessSize i
  let o := if n = 0 then 0 else seqDiff (b.vis Reg.OUT_SESS_ISS i).toNat seq % n
  let k := n - o
  (b.store (b.sessBase i + o) (bs.take k)).store (b.sessBase i) (bs.drop k)

/-- Bytes of a session's buffer. -/
def Block.sessGet (b : Block) (i seq len : Nat) : List Byte :=
  let n := b.sessSize i
  let o := if n = 0 then 0 else seqDiff (b.vis Reg.OUT_SESS_ISS i).toNat seq % n
  let k := n - o
  if len ≤ k then b.loadSafe (b.sessBase i + o) len else b.loadSafe (b.sessBase i + o) k ++ b.loadSafe (b.sessBase i) (len - k)

/-- A notice in Q17: its OP, and the session or stream (R132). -/
def Block.outNotice (b : Block) (op i low : Nat) : Block := b.push 17 (op % 256 * 2 ^ 56 + i % 64 * 2 ^ 48 + low) true

/-- The OP code of a notice whose value the spec does not give. -/
def Out.noticeOp (kind : Nat) : Nat := (Config.layout 2 [kind] 0).toNat

/-- Segments of a session: the template by the stream's settings, the session's addresses and numbers (R129). The IPv4 Identification is the
stream's, advanced per segment, and buffered bytes leave with the settings active at the sending (the model's choice, log entry 115). -/
def Block.sessSend (b : Block) (i seq flags : Nat) (data : List Byte) : Block :=
  let s := b.sessStream i
  let v6 := bit (b.vis Reg.OUT_SESS_STATE i).toNat 28
  let up := b.cf Reg.OUT_STR_CFG s 24 23
  let port := 24 + up
  let peer := ipOf v6 ((List.range 4).map (fun k => (b.vis Reg.OUT_SESS_PEER i k).toNat))
  let src := b.outSrc up v6
  let dscp := b.cf Reg.OUT_STR_MTU s 29 24
  let id := Tbl.get b.out.ident s 0
  let mac := leBytes 4 (b.cn Reg.OUT_STR_DMAC_LO s) ++ leBytes 2 (b.cn Reg.OUT_STR_DMAC_HI s)
  let tcp := beBytes 2 (fld (b.vis Reg.OUT_SESS_PORTS i) 15 0) ++ beBytes 2 (fld (b.vis Reg.OUT_SESS_PORTS i) 31 16) ++ beBytes 4 seq ++
    beBytes 4 (b.vis Reg.OUT_SESS_RCV_NXT i).toNat ++ beBytes 1 0x50 ++ beBytes 1 flags ++ beBytes 2 Config.tcpWindow ++ beBytes 4 0
  let ip := if v6 then ip6Head dscp 20 6 Config.hopLimit src peer else ip4Head dscp 40 id 0 Config.hopLimit 6 src peer
  let t := ethHead mac (b.portMac port) (b.cn Reg.OUT_STR_TCI s % 65536) (if v6 then 0x86DD else 0x0800) ++ ip ++ tcp
  let mss := (b.vis Reg.OUT_SESS_MSS i).toNat % 65536
  let n := if mss = 0 then 1 else max 1 (ceilDiv data.length mss)
  let b := { b with out := { b.out with ident := Tbl.put b.out.ident s ((id + n) % 65536) 0 } }
  if data = [] then b.enqueueAll port 1 [(⟨t, [], mss⟩ : LargeDesc).segment 1 0] else b.largeSend port 1 ⟨t, data, mss⟩

/-- `n` buffered bytes from a sequence number on, in large sends of at most 262,144 bytes (R50). -/
def Block.sessRange (b : Block) (i seq n : Nat) : Block :=
  (List.range (ceilDiv n 262144)).foldl (fun b k =>
    let at_ := (seq + k * 262144) % 2 ^ 32
    b.sessSend i at_ 0x10 (b.sessGet i at_ (min 262144 (n - k * 262144)))) b

/-- The buffered bytes that the peer's window admits sent, and behind the last of them the FIN of a closing session (R129, R130). -/
def Block.sessSegments (b : Block) (i : Nat) : Block :=
  let x := b.sess i
  if x.st = 0 then b
  else
    let n := min (seqDiff x.nxt x.top) (x.wnd - min x.wnd (seqDiff x.una x.nxt))
    let y : Session := { x with nxt := (x.nxt + n) % 2 ^ 32 }
    let b := b.sessRange i x.nxt n
    if x.st = 2 ∧ x.finSent = false ∧ y.nxt = x.top then
      (b.sessSend i y.nxt 0x11 []).setSess i { y with nxt := (y.nxt + 1) % 2 ^ 32, finSent := true }
    else b.setSess i y

/-- A data frame copied whole into a session's buffer, or skipped for want of room (R129). -/
def Block.sessCopy (b : Block) (i : Nat) (frame : List Byte) : Block :=
  let x := b.sess i
  if seqDiff x.una x.top + frame.length ≤ b.sessSize i then
    let b := b.sessPut i x.top frame
    (b.setSess i { x with top := (x.top + frame.length) % 2 ^ 32, stall := none }).count Reg.OUT_SESS_FRAMES i
  else
    let b := b.setSess i { x with stall := some (x.stall.getD b.t7) }
    let b := b.count Reg.OUT_SESS_BUF_DROP i
    b.eventRep i 0x0605 i

/-- The sessions of a stream whose data is on for a part (by its number in the stream). -/
def Block.sessOn (b : Block) (s k : Nat) : List Nat :=
  (List.range 64).filter (fun i => (b.sess i).st == 1 && b.sessStream i == s && bit (b.sess i).on k)

/-- A session closed with RST. -/
def Block.sessRst (b : Block) (i : Nat) : Block :=
  let x := b.sess i
  if x.st = 0 then b else (b.sessSend i x.nxt 0x14 []).setSess i { x with st := 0, stall := none, on := 0 }

/-- SESS_CMD = OPEN (R128). -/
def Block.sessOpen (b : Block) (i : Nat) : Block :=
  let s := b.sessStream i
  if (b.sess i).st ≠ 0 then b
  else if b.cf Reg.OUT_STR_CFG s 27 26 ≠ 2 ∨ b.sessSize i < 65536 ∨ b.sessBase i % 64 ≠ 0 then b.outNotice (Out.noticeOp 0) i 0
  else
    let iss := (b.vis Reg.OUT_SESS_ISS i).toNat
    b.setSess i { st := 1, stall := none, una := iss, nxt := iss, wnd := (b.vis Reg.OUT_SESS_WND i).toNat, top := iss, on := 0, finSent := false }

/-- SESS_CMD = CLOSE (R130). -/
def Block.sessClose (b : Block) (i : Nat) : Block :=
  let x := b.sess i
  if x.st ≠ 1 then b else (b.setSess i { x with st := 2, on := 0 }).sessSegments i

/-- SESS_CMD = SEND_ACK (R130). -/
def Block.sessAckSend (b : Block) (i : Nat) : Block := if (b.sess i).st = 0 then b else b.sessSend i (b.sess i).nxt 0x10 []

/-- What a write to SESS_ACK takes (R130). -/
def Block.sessAckTake (b : Block) (i a : Nat) : Block :=
  let x := b.sess i
  if x.st = 0 then b
  else
    let x := { x with wnd := (b.vis Reg.OUT_SESS_WND i).toNat }
    if seqDiff x.una x.nxt < seqDiff x.una a then (b.setSess i x).count Reg.OUT_SESS_ACK_BAD i
    else
      let moved := a % 2 ^ 32 != x.una
      let room := b.sessSize i - seqDiff a x.top
      let fits := decide (b.cn Reg.OUT_STR_FRAME_MAX (b.sessStream i) % 65536 ≤ room)
      let stall := if fits then none else if moved then x.stall.map (fun _ => b.t7) else x.stall
      if x.finSent = true ∧ seqDiff x.top a = 1 then b.setSess i { x with una := a % 2 ^ 32, st := 0, stall := none }
      else b.setSess i { x with una := a % 2 ^ 32, stall := stall }

/-- Everything from a number up to SND_NXT, a sent FIN included, within the window. -/
def Block.sessResend (b : Block) (i a : Nat) : Block :=
  let x := b.sess i
  let lim := min (seqDiff x.una x.nxt) x.wnd
  let off := seqDiff x.una a
  if x.st = 0 ∨ lim ≤ off then b
  else
    let data := seqDiff x.una (if x.finSent then (x.nxt + 2 ^ 32 - 1) % 2 ^ 32 else x.nxt)
    let b := b.sessRange i a (min lim data - min (min lim data) off)
    if x.finSent = true ∧ data < lim then b.sessSend i ((x.una + data) % 2 ^ 32) 0x11 [] else b

/-- The re-sends asked for in this cycle. -/
def Block.retxNow (b : Block) : List (Nat × Nat × List Egress) := if b.out.retx.1 = b.t7 then b.out.retx.2 else []

/-- A re-send that an acknowledgement of the same cycle may still change: the frames it queued are noted. -/
def Block.sessRetxAt (b : Block) (i a : Nat) : Block :=
  let port := 24 + b.cf Reg.OUT_STR_CFG (b.sessStream i) 24 23
  let n := (b.port port).txq.length
  let l := b.retxNow
  let b := b.sessResend i a
  { b with out := { b.out with retx := (b.t7, l ++ [(i, a, (b.port port).txq.drop n)]) } }

/-- A write to SESS_RETX (R130). -/
def Block.sessRetx (b : Block) (i a : Nat) : Block :=
  if (b.sess i).st = 0 then b else (b.count Reg.OUT_SESS_RETX_REQ i).sessRetxAt i a

/-- A write to SESS_ACK (R130): a re-send asked for before it in its cycle is taken back and applies after it. -/
def Block.sessAck (b : Block) (i a : Nat) : Block :=
  let mine := b.retxNow.filter (fun e => e.1 == i)
  if mine = [] then b.sessAckTake i a
  else
    let port := 24 + b.cf Reg.OUT_STR_CFG (b.sessStream i) 24 23
    let rest := b.retxNow.filter (fun e => e.1 != i)
    let x := b.port port
    let b := (b.setPort port { x with txq := mine.foldl (fun q e => e.2.2.foldl (fun q f => q.erase f) q) x.txq }).sessAckTake i a
    mine.foldl (fun b e => b.sessRetxAt i e.2.1) { b with out := { b.out with retx := (b.t7, rest) } }

/-- Every session ended without a segment, as a switch-over leaves them (R131). -/
def Block.sessDrop (b : Block) : Block :=
  { b with out := { b.out with sess := b.out.sess.map (fun e => (e.1, { e.2 with st := 0, stall := none, on := 0 })) } }

/-- A stall that has lasted SESS_STALL_MS (R129). -/
def Block.sessStall (b : Block) (i : Nat) : Block :=
  let x := b.sess i
  match x.stall with
  | none => b
  | some a =>
    if x.st = 1 ∧ a + (b.vis Reg.OUT_SESS_STALL_MS).toNat * 1000000 ≤ b.t7 then
      ((((b.sessRst i).count Reg.OUT_SESS_RESETS).irq Blk.out 2).outNotice (Out.noticeOp 1) i 0).eventRep i 0x0602 i
    else b

/-! ### Launching -/

/-- Whether a UDP part's data is on (R127). -/
def Block.udpOn (b : Block) (j : OutJob) (part : Nat) : Bool :=
  bits j.cfg 27 26 == 1 || !bit j.cfg 20 || b.out.udpOn.contains part

/-- The next SPDU number of a stream taken. -/
def Block.outSpdu (b : Block) (s : Nat) : Nat × Block :=
  let n := Tbl.get b.out.spdu s 0
  (n, { b with out := { b.out with spdu := Tbl.put b.out.spdu s ((n + 1) % 2 ^ 32) 0 } })

/-- A part's key: the slot that its settings name, if it may sign (R135). -/
def Block.outKey (b : Block) (j : OutJob) : Option KeySlot :=
  let k := b.slot (j.word 12 % 64)
  if k.valid = false ∨ bit k.attr 1 = false ∨ b.sys.zeroised = true then none else some k

/-- The frame of a part with its time octet, by which members are marked and the analytics it carries; none where its key is absent. -/
def Block.outBuild (b : Block) (j : OutJob) (part high : Nat) (marked : Nat → Bool) (resend : Bool) (ana : List Byte) :
    Option (List Byte) × Block :=
  if j.rsv then
    match b.outKey j with
    | none => (none, ((b.count Reg.OUT_STR_KEY_ABSENT j.stream).irq Blk.out 3).eventRep j.stream 0x0603 j.stream)
    | some k =>
      let (n, b) := b.outSpdu j.stream
      let pdu := b.outPdu j part n high k.id marked ana
      (some (spduSign pdu (spduTag k.bytes pdu)), b)
  else (some (b.outData j part high marked resend ana), b)

/-- The frames that a port has been given since an earlier state are noted as signed at this instant. -/
def Block.noteSigned (b before : Block) (p : Nat) (pub : Option Nat) : Block :=
  let l := if b.out.signed.1 = b.t7 then b.out.signed.2 else []
  let new := ((b.port p).txq.drop (before.port p).txq.length).map (fun e => (p, pub, e.bytes))
  { b with out := { b.out with signed := (b.t7, l ++ new) } }

/-- The publishers whose messages were signed at this instant and wait in a queue. -/
def Block.signedPubs (b : Block) : List Nat :=
  if b.out.signed.1 ≠ b.t7 then []
  else (b.out.signed.2.filterMap (fun e => if (b.port e.1).txq.any (fun q => q.bytes == e.2.2) then e.2.1 else none)).eraseDups

/-- A zeroisation discards what was being signed in its cycle (R135, R200). -/
def Block.unsign (b : Block) : Block :=
  if b.out.signed.1 ≠ b.t7 then b
  else
    let b := b.out.signed.2.foldl (fun b e =>
      let x := b.port e.1
      b.setPort e.1 { x with txq := x.txq.filter (fun q => q.bytes != e.2.2) }) b
    { b with out := { b.out with signed := (0, []) } }

/-- A frame of a part sent to its UDP destination or its sessions. -/
def Block.outSendTo (b : Block) (j : OutJob) (sessions : List Nat) (frame : List Byte) : Block :=
  if j.tcp then sessions.foldl (fun b i => if (b.sess i).st = 1 then b.sessCopy i frame else b) b
  else if j.rsv then (b.outUdp j frame).noteSigned b (24 + j.uplink) none
  else b.outUdp j frame

/-- One part launched (R123, R125, R127, R129): what it sends depends on its data-on state; either way it is handed over. -/
def Block.launchPart (b : Block) (j : OutJob) (p : OutPart) : Block × OutPart :=
  let k := p.part - (b.outParts j.stream).1
  let sessions := if j.tcp then b.sessOn j.stream k else []
  let on := if j.tcp then !sessions.isEmpty else b.udpOn j p.part
  let p : OutPart := { p with launched := true }
  if b.out.halted then (b, p)
  else if on = false then ((if j.tcp then b else b.count Reg.OUT_STR_UDP_OFF j.stream), p)
  else
    let high := b.outHigh j
    let ana := b.outAnaBytes j p.part
    let q := b.outBuild j p.part high j.markedB false ana
    match q.1 with
    | none => (q.2, p)
    | some f => ((q.2.outSendTo j sessions f).count Reg.OUT_STR_FRAMES j.stream, { p with sent := true, high := high, sessions := sessions, analytics := ana })

/-- A part re-sent: its time, analytics and sessions are the original's, its records are read afresh (R136); a part that was not sent has
no re-send. -/
def Block.resendPart (b : Block) (j : OutJob) (p : OutPart) : Block × OutPart :=
  let p : OutPart := { p with resent := true }
  if b.out.halted = true ∨ p.sent = false ∨ (!j.tcp && !b.udpOn j p.part) = true then (b, p)
  else
    let q := b.outBuild j p.part p.high (b.outMarkedNow j) true p.analytics
    match q.1 with
    | none => (q.2, p)
    | some f => ((q.2.outSendTo j p.sessions f).count Reg.OUT_STR_RESENT j.stream, p)

/-- Whether a basin's re-send window has ended (R136). -/
def Block.windowOver (b : Block) (j : OutJob) : Bool :=
  match j.weirB with
  | some w => decide (w + j.word 2 % 2 ^ 25 * 1000 ≤ b.now)
  | none => false

/-- A job replaced by the one with the same basin and stream. -/
def Block.putJob (b : Block) (j : OutJob) : Block :=
  { b with out := { b.out with jobs := b.out.jobs.map (fun x => if x.ring = j.ring ∧ x.seq = j.seq ∧ x.stream = j.stream then j else x) } }

/-- A job that stands for a stream's present settings, for frames that belong to no basin. -/
def Block.outNowJob (b : Block) (s : Nat) : OutJob :=
  ⟨b.cf Reg.OUT_STR_CFG s 30 30, 0, 0, 0, 0, 0, s, b.outLatch s, none, 0, [], []⟩

/-- The periodic CFG-2 of a UDP stream, at the first launch of its period (R134). -/
def Block.cfgPeriodic (b : Block) (j : OutJob) : Block :=
  let n := j.word 13 % 256
  let q := if n = 0 then 0 else b.now / nsPerS / n + 1
  if n = 0 ∨ j.tcp = true ∨ j.rsv = true ∨ b.out.halted = true ∨ Tbl.get b.out.cfgSec j.stream 0 = q then b
  else
    let b := { b with out := { b.out with cfgSec := Tbl.put b.out.cfgSec j.stream q 0 } }
    let (first, cnt) := b.outParts j.stream
    (List.range cnt).foldl (fun b i =>
      ((b.cfgFrames j.stream (first + i) 3).foldl (fun b f => b.outUdp j f) b).count Reg.OUT_STR_CFG_SENT j.stream) b

/-- Every part of a job that is not yet launched is launched in order, a re-send that its members or the end of its window already call for
follows (R137). -/
def Block.launchJob (b : Block) (j : OutJob) : Block :=
  let r := j.parts.foldl (fun (x : Block × List OutPart) p =>
    if p.launched then (x.1, x.2 ++ [p])
    else
      let y := x.1.launchPart j p
      if y.2.late = true ∧ y.2.resent = false ∧ (y.2.missing = [] ∨ b.windowOver j = true) then
        let z := y.1.resendPart j y.2
        (z.1, x.2 ++ [z.2])
      else (y.1, x.2 ++ [y.2])) (b, [])
  r.1.putJob { j with parts := r.2 }

/-- The launch time of a TIMED stream: slot time plus the offset (R123). -/
def Block.launchAt (b : Block) (j : OutJob) : Nat := slotTime (b.ringRate j.ring) j.slot + j.word 1 % 2 ^ 25 * 1000

/-- Whether a job's launch time has come. -/
def Block.launchDue (b : Block) (j : OutJob) : Bool := decide (b.launchAt j ≤ b.now)

/-- Whether a job waits for an earlier basin of its stream: every frame of one basin goes before any frame of a later one
(R124). -/
def Block.launchHeld (b : Block) (j : OutJob) : Bool :=
  (b.out.jobs.takeWhile (fun x => !(x.ring == j.ring && x.seq == j.seq && x.stream == j.stream))).any
    (fun x => x.ring == j.ring && x.stream == j.stream && x.parts.any (fun p => !p.launched))

/-- A due job launched, unless an earlier basin of its stream still waits; then the due jobs that waited only for it (R124). -/
def Block.launchTurn (b : Block) (j : OutJob) : Block :=
  if b.launchHeld j then b
  else
    let b := b.launchJob j
    (b.out.jobs.filter (fun x => x.ring == j.ring && x.stream == j.stream && x.weirB.isSome && x.parts.any (fun p => !p.launched))).foldl
      (fun b x => if (!x.timed || b.launchDue x) && !b.launchHeld x then b.launchJob x else b) b

/-- The jobs of a basin made at its open: one for every enabled stream of the ring that carries it (R113, R138). -/
def Block.outOpen (b : Block) (r p : Nat) (x : Basin) : Block :=
  let ss := (List.range 64).filter (fun s =>
    b.cb Reg.OUT_STR_CFG s 31 && b.cf Reg.OUT_STR_CFG s 30 30 == r && x.k % max 1 (b.cf Reg.OUT_STR_CFG s 7 0) == 0)
  let jobs := ss.map (fun s =>
    let (first, n) := b.outParts s
    (⟨r, x.seq, x.slot, x.soc, x.k, p, s, b.outLatch s, none, 0, [],
      (List.range n).map (fun i => ⟨first + i, false, false, 0, [], false, false, [], []⟩)⟩ : OutJob))
  { b with out := { b.out with jobs := b.out.jobs ++ jobs } }

/-- A job as weir B leaves it: the copies of the marks, the members unmarked in each part (R101, R116, R126). -/
def Block.jobAtB (b : Block) (x : Basin) (j : OutJob) : OutJob :=
  let gs (q : OutPart) : List Nat := (b.outMembers j.stream q.part).map (·.ctx)
  let j : OutJob := { j with
    weirB := some b.now
    bmp := x.bmpB
    merged := (j.parts.flatMap gs).filter (fun g => decide (8192 ≤ g) && b.cas.merged.contains (j.base, g)) }
  { j with parts := j.parts.map (fun q => { q with missing := (gs q).filter (fun g => !j.markedB g) }) }

/-- The parts of a TIMED stream whose launch time passed before weir B: each counted (R123). -/
def Block.launchLate (b : Block) (j : OutJob) : Block :=
  j.parts.foldl (fun b _ => ((b.count Reg.OUT_STR_LAUNCH_LATE j.stream).irq Blk.out 1).eventRep j.stream 0x0601 j.stream) b

/-- The periodic configuration frames of the jobs launched since an earlier state follow the last of their parts (R124, R134). -/
def Block.cfgAfter (b before : Block) : Block :=
  (before.out.jobs.filter (fun j => j.parts.any (fun p => !p.launched) &&
    b.out.jobs.any (fun x => x.ring == j.ring && x.seq == j.seq && x.stream == j.stream && x.parts.all (·.launched)))).foldl
    (fun b j => b.cfgPeriodic j) b

/-- Weir B of a basin (R123, R126): AT_CLOSE parts launch, and TIMED parts whose time has come; those whose time is past are late. -/
def Block.outWeirB (b : Block) (r : Nat) (x : Basin) : Block :=
  let b := b.noteUnlocked
  let mine := b.out.jobs.filter (fun j => j.ring == r && j.seq == x.seq)
  (mine.foldl (fun b j =>
    let j := b.jobAtB x j
    let b := b.putJob j
    if j.timed = false then b.launchTurn j
    else if b.launchDue j then (if b.launchAt j < b.now then b.launchLate j else b).launchTurn j
    else b) b).cfgAfter b

/-- Whether a TIMED job waits only for its launch time. -/
def OutJob.waits (j : OutJob) : Bool := j.timed && j.weirB.isSome && j.parts.any (fun p => !p.launched)

/-- A TIMED stream's launch time for a basin (R123): the streams below it whose parts fall due in the same cycle go first (R124). -/
def Block.timedLaunch (b : Block) (r seq s : Nat) : Block :=
  match b.out.jobs.find? (fun j => j.ring == r && j.seq == seq && j.stream == s) with
  | some j =>
    if j.weirB.isSome = true ∧ b.launchDue j = true ∧ j.parts.any (fun p => !p.launched) = true then
      let b := b.noteUnlocked
      let first := (List.range s).flatMap (fun n => b.out.jobs.filter (fun x => x.stream == n && x.waits && b.launchAt x == b.launchAt j))
      (((first ++ [j]).foldl (fun b x => b.launchTurn x) b)).cfgAfter b
    else b
  | none => b

/-- Whether every part of every stream that carries a basin has been handed over; one whose UDP data is off counts so (R125). -/
def Block.outHandedOver (b : Block) (r seq : Nat) : Bool :=
  (b.out.jobs.filter (fun j => j.ring == r && j.seq == seq)).all (fun j =>
    j.weirB.isSome && j.parts.all (fun p => p.launched || (!j.tcp && !b.udpOn j p.part)))

/-- The jobs of a basin forgotten, when it becomes FREE. -/
def Block.outDrop (b : Block) (r seq : Nat) : Block :=
  { b with out := { b.out with jobs := b.out.jobs.filter (fun j => !(j.ring == r && j.seq == seq)) } }

/-- A part of a job replaced. -/
def Block.putPart (b : Block) (j : OutJob) (q : OutPart) : Block :=
  b.putJob { j with parts := j.parts.map (fun x => if x.part = q.part then q else x) }

/-- A part re-sent and put back. -/
def Block.resendPut (b : Block) (j : OutJob) (q : OutPart) : Block :=
  let y := b.resendPart j q
  y.1.putPart j y.2

/-- A late mark of a member for one part (R136): the re-send is launched once every member that was missing is marked, or with the end of
its window; a mark after that is not output. -/
def Block.lateMark (b : Block) (j : OutJob) (q : OutPart) (c : Nat) : Block :=
  if bit j.cfg 21 = false then b.count Reg.OUT_STR_LATE_DROPPED j.stream
  else if q.resent then b.count Reg.OUT_STR_LATE_UNSENT j.stream
  else if q.launched = true ∧ b.windowOver j = true then
    (if q.late then b.resendPut j q else b.putPart j q).count Reg.OUT_STR_LATE_UNSENT j.stream
  else
    let q : OutPart := { q with late := true, missing := q.missing.filter (fun x => x != c) }
    if q.missing = [] ∧ q.launched = true then b.resendPut j q else b.putPart j q

/-- A late notice of a context for a basin (R100, R136). -/
def Block.outLate (b : Block) (r seq c : Nat) : Block :=
  let mine := b.out.jobs.filter (fun j => j.ring == r && j.seq == seq && j.weirB.isSome)
  mine.foldl (fun b j0 =>
    j0.parts.foldl (fun b q0 =>
      match b.out.jobs.find? (fun x => x.ring == r && x.seq == seq && x.stream == j0.stream) with
      | none => b
      | some j =>
        match j.parts.find? (fun x => x.part == q0.part) with
        | none => b
        | some q => if (b.outMembers j.stream q.part).any (fun m => m.ctx == c) then b.lateMark j q c else b) b) b

/-- The end of a part's re-send window (R136). -/
def Block.resendExpiry (b : Block) (r seq s part : Nat) : Block :=
  match b.out.jobs.find? (fun j => j.ring == r && j.seq == seq && j.stream == s) with
  | none => b
  | some j =>
    match j.parts.find? (fun x => x.part == part) with
    | some q =>
      if bit j.cfg 21 = true ∧ q.late = true ∧ q.resent = false ∧ q.launched = true ∧ b.windowOver j = true then
        b.noteUnlocked.resendPut j q
      else b
    | none => b

/-! ### Commands (R132, Table 5.5) -/

/-- The oldest item of a queue taken by a block of the module; none from an empty or disabled queue. -/
def Block.hwPop (b : Block) (q : Nat) : Option QItem × Block :=
  let x := b.queue q
  if b.qen q = false ∨ x.flushPending = true then (none, b)
  else match x.items with
    | [] => (none, b)
    | i :: r =>
      let c := b.qcap q
      let rd := if c = 0 then 0 else (x.rd + 1) % c
      let items := if x.breakPending then r ++ [⟨Que.breakMarker, true, true⟩] else r
      (some i, b.setQueue q { x with items := items, rd := rd, breakPending := false })

/-- What a command item addresses: whether by UDP, the session or stream, its stream, the part and its number there. -/
structure OutCmd where
  udp : Bool
  inst : Nat
  stream : Nat
  part : Option Nat
  code : Nat
  deriving DecidableEq, Repr

/-- A Q16 item decoded; a session of an item that is not UDP names its stream by its own settings. The parts of an R-SV stream take no
commands (R134). -/
def Block.outCmdOf (b : Block) (v : Nat) : OutCmd :=
  let udp := bit v 54
  let i := bits v 53 48
  let s := if udp then i else b.sessStream i
  let (first, n) := b.outParts s
  let part := if b.cf Reg.OUT_STR_CFG s 29 28 = 2 then none
    else ((List.range n).map (fun k => first + k)).find? (fun p => b.cf Reg.OUT_PART_IDCODE p 15 0 == bits v 47 32)
  ⟨udp, i, s, part, bits v 15 0⟩

/-- The command at the head of Q16, if it satisfies a test, taken by OUT: the interrupt and the stream's count. -/
def Block.outCmd (b : Block) (is : Nat → Bool) (act : Block → OutCmd → Nat → Block) (other : Block → OutCmd → Block) : Block :=
  match (b.queue 16).items with
  | [] => b
  | i :: _ =>
    let c := b.outCmdOf i.val
    if (bits i.val 63 56 == 1 && is c.code) = false then b
    else
      let r := b.hwPop 16
      match r.1 with
      | none => b
      | some _ =>
        let b := (r.2.irq Blk.out 0).count Reg.OUT_STR_CMD_RX c.stream
        match c.part with
        | some p => act b c p
        | none => other b c

/-- A command whose IDCODE names no part (R132). -/
def Block.cmdIgnored (b : Block) (c : OutCmd) : Block := b.count Reg.OUT_STR_CMD_IGNORED c.stream

/-- Data on or off for a part. -/
def Block.dataOn (b : Block) (c : OutCmd) (p : Nat) (on : Bool) : Block :=
  if c.udp then { b with out := { b.out with udpOn := if on then setIns b.out.udpOn p else setDel b.out.udpOn p } }
  else
    let x := b.sess c.inst
    let k := p - (b.outParts c.stream).1
    if x.st ≠ 1 then b
    else b.setSess c.inst { x with on := if bit x.on k = on then x.on else if on then x.on + 2 ^ k else x.on - 2 ^ k }

/-- Frames answered to whoever sent the command. -/
def Block.cmdAnswer (b : Block) (c : OutCmd) (frames : List (List Byte)) : Block :=
  if c.udp then frames.foldl (fun b f => b.outUdp (b.outNowJob c.stream) f) b
  else if (b.sess c.inst).st = 1 then frames.foldl (fun b f => b.sessCopy c.inst f) b
  else b

/-- Configuration frames answered, and counted where whoever asked can take them. -/
def Block.cfgAnswer (b : Block) (c : OutCmd) (frames : List (List Byte)) : Block :=
  if c.udp = true ∨ (b.sess c.inst).st = 1 then (b.cmdAnswer c frames).count Reg.OUT_STR_CFG_SENT c.stream 0 frames.length else b

/-- The check of a stream's committed set (R138): the launch offset of R123, R137 and the MTU; the basin period is 10⁹ ns over the rate. -/
def Block.outSetOk (b : Block) (s : Nat) : Bool :=
  let r := b.cf Reg.OUT_STR_CFG s 30 30
  let f := b.ringRate r
  let bound := b.weirBoundB r
  let mtu := b.cf Reg.OUT_STR_MTU s 13 0
  decide (b.cn Reg.OUT_STR_LAUNCH s % 2 ^ 25 * 1000 * f ≤ bound * 1000 * f + nsPerS) &&
    decide ((bound + b.cn Reg.OUT_STR_RESEND_WIN s % 2 ^ 25) * 1000 * f + nsPerS ≤ b.cn Reg.ALN_RETAIN 0 r % 65536 * 1000000 * f) &&
    decide ((if b.cb Reg.OUT_STR_CFG s 25 then 1280 else 576) ≤ mtu)

/-- OUT's hand-over at a basin open of a ring (R138). -/
def Block.outHandover (b : Block) (r : Nat) : Block :=
  b.handover (fun k => keyBlk k == Blk.out && keySpace k == 0 && b.cf Reg.OUT_STR_CFG (keyInst k) 30 30 == r) keyInst
    (fun b sets => sets.all (fun e => b.outSetOk (keyInst e.1)))
    (fun b k => (b.irq Blk.out 4).event 0x0606 (keyInst k))

/-- The Identification counters of the streams start anew at LOAD (R127). -/
def Block.drawOutIds (b : Block) : Block :=
  (List.range 64).foldl (fun b s =>
    let q := b.draw
    { q.2 with out := { q.2.out with ident := Tbl.put q.2.out.ident s (q.1 % 65536) 0 } }) b

end Sys2Proof.Machine
end

