-- ==== Sys2Proof/Machine/AlmOps.lean ====
section
/-! DEFINITION. Thresholds, monitors, definitions, pins, alarm queues and publishers (R187 to R202). -/

namespace Sys2Proof.Machine

/-! ### Detectors (R187 to R190) -/

/-- The value of a threshold source: none where INVALID; DIG and MISSING give 1 or 0. -/
def Block.thrValue (b : Block) (x : Basin) (c src : Nat) : Option Nat :=
  if src ≤ 3 then (b.feat x c).bind (·.value src)
  else if src ≤ 7 then (let s := b.bandState c (src - 4); if s = 0 ∨ s = 1 then none else some (b.band c (src - 4)).pub)
  else if src = 8 then (b.feat x c).map (fun f => b2n (f.dig != 0))
  else some (b2n (x.expected.getLsbD c && !x.bmpA.getLsbD c))

def Block.setDet (b : Block) (k : Nat) (d : Detector) : Block := { b with alm := { b.alm with det := Tbl.put b.alm.det k d Detector.reset } }
def Block.setPair (b : Block) (k : Nat) (d : Detector) : Block := { b with alm := { b.alm with pair := Tbl.put b.alm.pair k d Detector.reset } }

/-- One threshold detector evaluated for a basin; one that is not enabled loses its state. -/
def Block.thrEval (b : Block) (x : Basin) (c t : Nat) : Block :=
  let k := 4 * c + t
  let w := b.cfg Reg.ALM_THR_CFG c t
  if bit w.toNat 31 = false then b.setDet k Detector.reset
  else
    let d := b.det k
    let src := fld w 27 24
    match b.thrValue x c src with
    | none => b.setDet k { d with on := true, invalid := true }
    | some v =>
      let a := if 8 ≤ src then v != 0 else thrStep (fld w 30 28) v (b.cn Reg.ALM_THR_LEVEL c t) (b.cn Reg.ALM_THR_HYST c t) d.active
      b.setDet k { d with on := true, active := a, invalid := false }

/-- One angle-pair monitor evaluated for a basin (R189). -/
def Block.pairEval (b : Block) (x : Basin) (r k : Nat) : Block :=
  let w := b.cfg Reg.ALM_PAIR_CFG k
  if bit w.toNat 31 = false then b.setPair k Detector.reset
  else
    let d := b.pairDet k
    match (b.feat x (fld w 12 0)).filter (·.angOk), (b.feat x (fld w 28 16)).filter (·.angOk) with
    | some fa, some fb =>
      let dt := wrapAng ((fa.ang : Int) - fb.ang)
      let lim := b.cn Reg.ALM_PAIR_LIMIT k
      let hyst := b.cn Reg.ALM_PAIR_HYST k
      if bit w.toNat 30 then
        match d.last with
        | some (s, l) =>
          if (s + 1) % 2 ^ 32 = x.seq then
            let v := f32OfQ (2 * (qPi : Int) * (wrapAng (dt - l) * (b.ringRate r : Int)) / 2 ^ 32)
            b.setPair k { d with on := true, active := thrStep 2 v lim hyst d.active, invalid := false, last := some (x.seq, dt), delta := v }
          else b.setPair k { d with on := true, invalid := true, last := some (x.seq, dt) }
        | none => b.setPair k { d with on := true, invalid := true, last := some (x.seq, dt) }
      else
        let v := angRad dt
        b.setPair k { d with on := true, active := thrStep 2 v lim hyst d.active, invalid := false, last := some (x.seq, dt), delta := v }
    | _, _ => b.setPair k { d with on := true, invalid := true }

/-- The ring of a group: that of its members, the main ring for an empty one (R190). -/
def Block.grpRing (b : Block) (g : Nat) : Nat := match b.grpMembers g with | c :: _ => b.strRing c | [] => 0

/-! ### Inputs (Table 7.5) -/

/-- The ops of a library code on a ring that cover a context or monitor. -/
def Block.covering (b : Block) (lib : LibOp) (r i : Nat) : List Nat :=
  (b.dfe.graph.filter (fun e => e.2.lib == lib && e.2.ring == r && e.2.block.contains i)).map (·.1)

def Block.almGot (b : Block) (r kind n : Nat) : Bool := (Tbl.get b.alm.got r []).contains (kind, n)

/-- Whether what an input needs of the tick has been published (R192, R193). -/
def Block.inReady (b : Block) (r seq d : Nat) (w : Word) : Bool :=
  if bit w.toNat 31 = false then true
  else
    let arg := fld w 25 0
    match fld w 29 26 with
    | 0 =>
      let c := bits arg 14 2
      let ops := b.covering .thrEval r c
      !bit (b.cfg Reg.ALM_THR_CFG c (arg % 4)).toNat 31 || (!ops.isEmpty && ops.all (b.almGot r 0))
    | 1 =>
      let ops := b.covering .pairEval r (bits arg 11 0)
      !b.cb Reg.ALM_PAIR_CFG (bits arg 11 0) 31 || (!ops.isEmpty && ops.all (b.almGot r 0))
    | 2 => (b.grpMembers (bits arg 25 20)).all (fun c => (b.covering .thrEval r c).all (b.almGot r 0))
    | 3 | 4 => b.almGot r 1 0
    | 7 =>
      let o := bits arg 7 0
      decide (d ≤ o) || !b.cb Reg.ALM_DEF_CFG o 31 || (b.almDef o).dealt == seq + 1
    | _ => true

/-- The output of definition o as definition d reads it for a basin: this tick's of a lower index, else the previous tick's (R191). -/
def Block.defRead (b : Block) (seq d o : Nat) : Bool :=
  if d ≤ o ∧ (b.almDef o).dealt = seq + 1 then (b.almDef o).before else b.almOut o

/-- The value of an input of definition d for a basin, none for INVALID, NOT included. -/
def Block.inValue (b : Block) (seq d : Nat) (w : Word) : Option Bool :=
  let arg := fld w 25 0
  let v : Option Bool := match fld w 29 26 with
    | 0 =>
      let x := b.det (4 * bits arg 14 2 + arg % 4)
      if bit (b.cfg Reg.ALM_THR_CFG (bits arg 14 2) (arg % 4)).toNat 31 = false then some false else if x.invalid then none else some x.active
    | 1 =>
      let x := b.pairDet (bits arg 11 0)
      if b.cb Reg.ALM_PAIR_CFG (bits arg 11 0) 31 = false then some false else if x.invalid then none else some x.active
    | 2 =>
      let t := bits arg 19 18
      let n := ((b.grpMembers (bits arg 25 20)).filter (fun c =>
        let x := b.det (4 * c + t)
        bit (b.cfg Reg.ALM_THR_CFG c t).toNat 31 && !x.invalid && x.active)).length
      some (decide (bits arg 13 0 ≤ n))
    | 3 =>
      let k := arg % 4
      some (if k = 3 then b.isl.buses.any (fun e => e.2.mismatch && e.2.island != 0xFFFF)
        else b.isl.islands.any (fun e => e.2.state == (if k = 0 then 1 else if k = 1 then 2 else 4)))
    | 4 =>
      let id := (b.bus (bits arg 13 0)).island
      let k := bits arg 15 14
      let st := match b.isl.islands.find? (fun e => e.2.id == id) with | some e => e.2.state | none => 5
      some (id != 0 && id != 0xFFFF && st != 5 && (k == 0 || (k == 1 && st == 2) || (k == 2 && st == 4)))
    | 5 =>
      let k := bits arg 17 16
      let has (t : Nat) : Bool := let x := Tbl.get b.rpl.tracks t Track.reset; if k = 0 then x.damp else if k = 1 then x.fo else x.rdPoor
      some (if arg % 32 = 16 then (List.range 16).any has else has (arg % 32))
    | 6 => some (bit b.alm.di (arg % 8))
    | 7 => some (b.defRead seq d (bits arg 7 0))
    | _ => some false
  if bit w.toNat 30 then v.map (!·) else v

/-! ### Pins and publishers -/

/-- The pins that some definition asserts. -/
def Block.pinsNow (b : Block) : List Nat :=
  (List.range 16).filter (fun p => b.alm.defs.any (fun e =>
    decide (2 ≤ e.2.st) && b.cb Reg.ALM_DEF_ACT e.1 31 && b.cf Reg.ALM_DEF_ACT e.1 27 24 == p))

/-- The pins brought up to the outputs: a new assertion starts a pulse where the pin has a width and none runs (R195). -/
def Block.almPins (b : Block) : Block :=
  let now := b.pinsNow
  let fresh := now.filter (fun p => !b.alm.asserted.contains p)
  let b := { b with alm := { b.alm with asserted := now } }
  fresh.foldl (fun b p =>
    let w := (b.cfg Reg.ALM_AO_CFG 0 p).toNat % 65536
    if w = 0 ∨ b.aoDriven p = false ∨ (b.alm.pulses.find? (fun e => e.1 == p)).isSome = true then b
    else { b with alm := { b.alm with pulses := Tbl.ins b.alm.pulses p (b.t7 + w * 1000000) } }) b

/-- Pulses on pins that are not driven end (R195, Table 7.7). -/
def Block.pulsesDriven (b : Block) : Block :=
  { b with alm := { b.alm with pulses := b.alm.pulses.filter (fun e => b.aoDriven e.1) } }

/-- A pin's pulse ends after PULSE_MS. -/
def Block.pulseOver (b : Block) (p : Nat) : Block :=
  match b.alm.pulses.find? (fun e => e.1 == p) with
  | some e => if e.2 ≤ b.t7 then { b with alm := { b.alm with pulses := Tbl.erase b.alm.pulses p } } else b
  | none => b

def Block.setPub (b : Block) (p : Nat) (x : Publisher) : Block := { b with alm := { b.alm with pubs := Tbl.put b.alm.pubs p x Publisher.reset } }

/-- The definitions of a dataset. -/
def Block.pubDefs (b : Block) (p : Nat) : List Nat :=
  (List.range (b.cn Reg.ALM_PUB_NDS 0 p % 128)).map (fun i => bits (b.cn Reg.ALM_PUB_DS 0 (16 * p + i / 4)) (i % 4 * 8 + 7) (i % 4 * 8))

/-- The dataset now: output and, where the publisher shows it, twice the quality. -/
def Block.pubData (b : Block) (p : Nat) : List Nat :=
  let q := bit (b.cn Reg.ALM_PUB_CFG 0 p) 28
  (b.pubDefs p).map (fun d => b2n (b.almOut d) + (if q then 2 * (b.almDef d).qual else 0))

/-- The dataset that a pass on a ring may send: its own definitions as they stand, the others as last sent, so that all changes of one tick
give one message (R199). -/
def Block.pubDataOf (b : Block) (p r : Nat) : List Nat :=
  let now := b.pubData p
  let old := (b.pub p).data
  if old.length ≠ now.length then now
  else (List.range now.length).map (fun i =>
    if b.cf Reg.ALM_DEF_CFG ((b.pubDefs p).getD i 0) 30 30 = r then now.getD i 0 else old.getD i 0)

/-- stNum and sqNum wrap to 1. -/
def next32 (n : Nat) : Nat := if n + 1 = 2 ^ 32 then 1 else n + 1

/-- The interval after message i: T1 × 2^i, capped at T0, in ns. -/
def Block.pubInterval (b : Block) (p i : Nat) : Nat :=
  let w := b.cn Reg.ALM_PUB_TIMING 0 p
  min (w % 128 * 2 ^ min i 32) (w / 65536) * 1000000

/-- The characters that a number holds, the first in its low byte. -/
def textOf (v : Nat) : List Byte := if v = 0 then [] else leBytes (Nat.log2 v / 8 + 1) v

/-- A number as ASN.1 codes an INTEGER that is not below 0. -/
def berNat (tag n : Nat) : List Byte := ber tag (beBytes (Nat.log2 n / 8 + 1 + b2n (Nat.log2 n % 8 == 7)) n)

/-- One entry of a dataset: the output, and with QUAL its quality as 13 bits (R198). -/
def gooseEntry (qual : Bool) (v : Nat) : List Byte :=
  ber 0x83 [if v % 2 = 1 then 0xFF else 0] ++
    (if qual then ber 0x84 [3, (match v / 2 with | 0 => 0 | 1 => 0x40 | _ => 0xC0), 0] else [])

/-- A publisher's message as IEC 61850-8-1 codes it. -/
def Block.goosePdu (b : Block) (p ttl : Nat) : List Byte :=
  let x := b.pub p
  let name (k : Nat) : Nat := Tbl.get b.alm.names (4 * p + k) 0
  ber 0x61 (ber 0x80 (textOf (name 0)) ++ berNat 0x81 ttl ++ ber 0x82 (textOf (name 1)) ++ ber 0x83 (textOf (name 2)) ++
    ber 0x84 (beBytes 4 (b.socOf x.sec) ++ beBytes 3 (x.ns * 2 ^ 24 / nsPerS) ++ beBytes 1 x.tq) ++ berNat 0x85 x.st ++ berNat 0x86 x.sq ++
    ber 0x87 [0] ++ berNat 0x88 (name 3) ++ ber 0x89 [0] ++ berNat 0x8A x.data.length ++
    ber 0xAB (x.data.map (gooseEntry (bit (b.cn Reg.ALM_PUB_CFG 0 p) 28))).flatten)

/-- The PDU of a publisher's next message: timeAllowedToLive is twice the interval to the message after it (R199). -/
def Block.goosePduNow (b : Block) (p : Nat) : List Byte := b.goosePdu p (2 * (b.pubInterval p (b.pub p).i / 1000000))

/-- A publisher's destination MAC. -/
def Block.pubMac (b : Block) (p : Nat) : List Byte := leBytes 4 (b.cn Reg.ALM_PUB_DMAC_LO 0 p) ++ leBytes 2 (b.cn Reg.ALM_PUB_DMAC_HI 0 p)

/-- A publisher's next message as a GOOSE frame, the plain profile (R198). -/
def Block.gooseFrame (b : Block) (p : Nat) : List Byte :=
  let apdu := b.goosePduNow p
  b.pubMac p ++ b.portMac (bits (b.cn Reg.ALM_PUB_CFG 0 p) 27 23) ++ beBytes 2 0x8100 ++ beBytes 2 (b.cn Reg.ALM_PUB_TCI 0 p % 65536) ++
    beBytes 2 0x88B8 ++ beBytes 2 (Tbl.get b.alm.appid p 0) ++ beBytes 2 (8 + apdu.length) ++ beBytes 4 0 ++ apdu

/-- One message built and queued in egress class 3 (R198 to R200). `aborted` says that a tamper zeroisation ended its
signing. -/
def Block.pubSend (b : Block) (p : Nat) (aborted : Bool) : Block :=
  let x := b.pub p
  let c := b.cn Reg.ALM_PUB_CFG 0 p
  let port := bits c 27 23
  let apdu := b.goosePduNow p
  let appid := Tbl.get b.alm.appid p 0
  let dmac := b.pubMac p
  let tci := b.cn Reg.ALM_PUB_TCI 0 p % 65536
  if bit c 30 = false then (b.enqueueAll port 3 [b.gooseFrame p]).count Reg.ALM_PUB_SENT 0 p
  else
    let k := b.slot (bits c 21 16)
    if aborted && b.sys.zeroised then (b.count Reg.ALM_PUB_KEY_ABORT).event 0x0907 p
    else if k.valid = false ∨ bit k.attr 1 = false ∨ b.sys.zeroised = true then
      ((b.count Reg.ALM_PUB_KEY_ABSENT).irq Blk.alm 3).eventRep p 0x0905 p
    else
      let v6 := bit c 29
      let body := spduHead 0xA1 (Config.stdField 14 [p, x.st, x.sq]) (Config.stdField 11 [64 + p]) (Config.stdField 12 [64 + p]) 5 k.id 0x81 false appid apdu
      let q := b.draw
      let id := q.1
      let b := q.2
      let dst := ipOf v6 [b.cn Reg.ALM_PUB_DST_0 0 p, b.cn Reg.ALM_PUB_DST_1 0 p, b.cn Reg.ALM_PUB_DST_2 0 p, b.cn Reg.ALM_PUB_DST_3 0 p]
      let d : UdpDesc := {
        v6 := v6
        dmac := dmac
        tci := tci
        src := if 24 ≤ port then b.outSrc (port - 24) v6 else Config.uplinkIp port v6
        dst := dst
        dscp := (Config.layout 4 [p] 0).toNat % 64
        hops := Config.hopLimit
        sport := b.cn Reg.ALM_PUB_UDP 0 p % 65536
        dport := b.cn Reg.ALM_PUB_UDP 0 p / 65536
        ident := id % 65536
        mtu := 1500
        zeroSum := false
        payload := spduSign body (spduTag k.bytes body) }
      ((b.udpSend port 3 d).noteSigned b port (some p)).count Reg.ALM_PUB_SENT 0 p

/-- A change sent at once: stNum up, sqNum 0, t, and the first repetition set (R199). -/
def Block.pubChange (b : Block) (p st t : Nat) (data : List Nat) : Block :=
  let x := b.pub p
  let y : Publisher := { x with on := true, loaded := true, st := st, sq := 0, sec := t / nsPerS, ns := t % nsPerS, tq := b.stdQuality, i := 0, data := data, nextAt := some (b.t7 + b.pubInterval p 0) }
  (b.setPub p y).pubSend p false

/-- Whether every enabled definition of a dataset on a ring has been dealt with for a basin, so that one message holds all its changes
(R199). -/
def Block.pubSettled (b : Block) (p r seq : Nat) : Bool :=
  (b.pubDefs p).all (fun d => !b.cb Reg.ALM_DEF_CFG d 31 || b.cf Reg.ALM_DEF_CFG d 30 30 != r || (b.almDef d).dealt == seq + 1)

/-- The publishers whose dataset differs from what they last sent, once a basin's evaluations of it are done; `t` is its slot time. -/
def Block.pubUpdate (b : Block) (r seq t : Nat) : Block :=
  (List.range 8).foldl (fun b p =>
    let x := b.pub p
    if x.on = true ∧ b.pubMay p = true ∧ b.pubSettled p r seq = true ∧ x.data ≠ b.pubDataOf p r then b.pubChange p (next32 x.st) t (b.pubDataOf p r)
    else b) b

/-- The publishers brought up to the mode and their EN: one that may send again announces its dataset, one that may not is
silent (R196, R199). -/
def Block.pubRefresh (b : Block) : Block :=
  (List.range 8).foldl (fun b p =>
    let x := b.pub p
    if b.pubMay p = true ∧ x.on = false then b.pubChange p (if x.loaded then next32 x.st else 1) b.now (b.pubData p)
    else if b.pubMay p = false ∧ x.on = true then b.setPub p { x with on := false, nextAt := none }
    else b) b

/-- A repetition (R199). -/
def Block.gooseRepeat (b : Block) (p : Nat) (aborted : Bool) : Block :=
  let x := b.pub p
  match x.nextAt with
  | some t =>
    if x.on = true ∧ b.pubMay p = true ∧ t ≤ b.t7 then
      let i := x.i + 1
      (b.setPub p { x with sq := next32 x.sq, i := i, nextAt := some (t + b.pubInterval p i) }).pubSend p aborted
    else b
  | none => b

/-- What a change of mode means for pins and publishers: pulses on pins no longer driven end, the publishers follow. -/
def Block.almMode (b : Block) : Block :=
  let b := b.pulsesDriven
  let b := if b.sys.mode = .maintenance then b else b.setVis Reg.ALM_AO_FORCE 0 0 0
  b.pubRefresh

/-! ### Evaluation (R192 to R194, R197) -/

def Block.setDef (b : Block) (d : Nat) (x : AlmDef) : Block := { b with alm := { b.alm with defs := Tbl.put b.alm.defs d x AlmDef.reset } }

/-- An item of a definition's queue, lost and counted where the queue has no room (R197). -/
def Block.almItem (b : Block) (d kind st r seq : Nat) : Block :=
  if b.cb Reg.ALM_DEF_ACT d 23 = false then b
  else
    let q := b.cf Reg.ALM_DEF_ACT d 22 21
    let x := b.queue q
    let full := b.qen q && (x.discarding || x.breakPending || decide (b.qcap q ≤ x.items.length))
    let b := b.push q (kind * 2 ^ 56 + d * 2 ^ 48 + st * 2 ^ 45 + r * 2 ^ 40 + seq) true
    if full then b.count Reg.ALM_Q_LOST else b

/-- The enabled definitions of a ring in rising order. -/
def Block.ringDefs (b : Block) (r : Nat) : List Nat :=
  (b.listed Reg.ALM_DEF_CFG).filter (fun d => b.cb Reg.ALM_DEF_CFG d 31 && b.cf Reg.ALM_DEF_CFG d 30 30 == r)

def Block.defIns (b : Block) (d : Nat) : List Word :=
  ((List.range 4).map (fun i => b.cfg Reg.ALM_DEF_IN d i)).filter (fun w => bit w.toNat 31)

/-- A definition not evaluated for a tick (R192). -/
def Block.holdDef (b : Block) (seq d : Nat) : Block :=
  let x := b.almDef d
  (b.setDef d { x with held := true, qual := 1, dealt := seq + 1, before := b.almOut d }).count Reg.ALM_DEF_HELD d

/-- The next state and RUN (Table 7.6). -/
def defNext (st run conf clr : Nat) (latch raw reset : Bool) : Nat × Nat :=
  match st, raw with
  | 0, true => if conf ≤ 1 then (2, 0) else (1, 1)
  | 0, false => (0, 0)
  | 1, true => if conf ≤ run + 1 then (2, 0) else (1, min 255 (run + 1))
  | 1, false => (0, 0)
  | 2, true => (2, 0)
  | 2, false => if clr ≤ run + 1 then (if latch then (3, 0) else (0, 0)) else (2, min 255 (run + 1))
  | _, true => (2, 0)
  | _, false => if reset then (0, 0) else (3, 0)

/-- A definition evaluated for a basin. -/
def Block.evalDef (b : Block) (r seq d : Nat) : Block :=
  let x := b.almDef d
  let c := (b.cfg Reg.ALM_DEF_CFG d).toNat
  let vals := (b.defIns d).map (b.inValue seq d)
  let inv := bits c 28 27
  let invalid := vals.any (·.isNone)
  if vals = [] then b.setDef d { x with dealt := seq + 1, held := false, before := b.almOut d }
  else if invalid && inv == 2 then b.holdDef seq d
  else
    let vs := vals.map (fun v => v.getD (inv == 1))
    let n := (vs.filter id).length
    let raw := match bits c 26 25 with
      | 0 => decide (0 < n)
      | 1 => n == vs.length
      | _ => decide (bits c 24 22 ≤ n)
    let can := x.st == 3 && !raw
    let settle := x.resetPending && decide (x.resetAt < b.t7)
    let (st, run) := defNext x.st x.run (bits c 15 8) (bits c 7 0) (bit c 29) raw settle
    let y : AlmDef := ⟨st, run, raw, x.resetPending && !settle, false, if invalid then 2 else 0, seq + 1, if st = 2 ∧ x.st < 2 then seq else x.lastSeq,
      x.resetAt, b.almOut d⟩
    let b := b.setDef d y
    let b := if settle then
        (if can then (b.almItem d 4 st r seq).event 0x0904 d 0 seq
         else ((b.almItem d 5 st r seq).count Reg.ALM_DEF_RESET_REFUSED d).irq Blk.alm 2)
      else b
    if st = 2 ∧ x.st < 2 then ((((b.almItem d 1 st r seq).count Reg.ALM_DEF_ASSERTS d).irq Blk.alm 0).event 0x0901 d 0 seq).capFire 4 b.now (fun w => bits w 7 0 == d)
    else if st = 0 ∧ x.st = 2 then ((b.almItem d 2 st r seq).irq Blk.alm 1).event 0x0902 d 0 seq
    else if st = 3 ∧ x.st = 2 then (b.almItem d 3 st r seq).event 0x0903 d 0 seq
    else b

/-- The output words of the basins under evaluation (R122). -/
def Block.almNote (b : Block) : Block :=
  (List.range 2).foldl (fun b r =>
    match Tbl.get b.alm.cur r none with
    | some s => { b with alm := { b.alm with words := Tbl.ins b.alm.words (r * 1024 + s % 1024) (s + 1, b.almOuts) } }
    | none => b) b

/-- The slot time of a basin, or this instant where it has gone. -/
def Block.slotOf (b : Block) (r seq : Nat) : Nat :=
  match (b.ring r).seqPos seq with
  | some (_, x) => slotTime (b.ringRate r) x.slot
  | none => b.now

/-- What follows a pass of evaluations: words, pins, publishers. -/
def Block.almDeliver (b : Block) (r seq : Nat) : Block := (b.almNote.almPins).pubUpdate r seq (b.slotOf r seq)

/-- The definitions of a ring whose inputs have all come, in rising order (R193); none while the expiry of the tag before is
due. -/
def Block.almEvaluate (b : Block) (r : Nat) : Block :=
  match Tbl.get b.alm.cur r none, Tbl.get b.dfe.closedTag r none with
  | some seq, none =>
    let b := (b.ringDefs r).foldl (fun b d =>
      if (b.almDef d).dealt ≠ seq + 1 ∧ (b.defIns d).all (b.inReady r seq d) = true then b.evalDef r seq d else b) b
    b.almDeliver r seq
  | _, _ => b

/-- A tick-class result published to ALM for a tag: kept if the tag is the one under evaluation (R24). -/
def Block.almPublish (b : Block) (r kind n tag : Nat) : Block :=
  match Tbl.get b.alm.cur r none with
  | some seq =>
    if seq % 65536 = tag then
      ({ b with alm := { b.alm with got := Tbl.put b.alm.got r (Tbl.get b.alm.got r [] ++ [(kind, n)]) [] } }).almEvaluate r
    else b
  | none => b

/-- The expiry of a basin's tag: the definitions that still lack an input are held (R192). -/
def Block.almExpire (b : Block) (r seq : Nat) : Block :=
  let ds := (b.ringDefs r).filter (fun d => (b.almDef d).dealt != seq + 1 && !(b.defIns d).isEmpty)
  let b := ds.foldl (fun b d => b.holdDef seq d) b
  if ds = [] then b else (b.count Reg.ALM_HELD_TICKS).almDeliver r seq

/-- An alarm close: the basin comes under evaluation with nothing published yet. -/
def Block.almClose (b : Block) (r seq : Nat) : Block :=
  ({ b with alm := { b.alm with cur := Tbl.put b.alm.cur r (some seq) none, got := Tbl.put b.alm.got r [] [] } }).almNote

/-- A write of DEF_CMD[RESET]; an evaluation of the same cycle does not settle it (R194). -/
def Block.defReset (b : Block) (d : Nat) : Block :=
  let x := b.almDef d
  b.setDef d { x with resetPending := true, resetAt := if x.resetPending then x.resetAt else b.t7 }

/-- An edge of a digital input that the debounce has confirmed, `age` ns after the raw edge; units that it triggers take the raw
edge's time (R299). -/
def Block.diChange (b : Block) (i : Nat) (level : Bool) (age : Nat) : Block :=
  let v := b.alm.di
  let w := if bit v i = level then v else if level then v + 2 ^ i else v - 2 ^ i
  let b := { b with alm := { b.alm with di := w } }
  if v = w then b else b.capFire 2 (b.now - age) (fun w => bits w 7 0 == i && bit w 24 == level)

/-- The island count of a tick for OUT's analytics (R121): the tracked islands, as ISL.STATUS counts them (the model's choice, log entry 115). -/
def Block.islCount (b : Block) (tag : Nat) : Block :=
  { b with dfe := { b.dfe with analytics := Tbl.ins b.dfe.analytics (1024 * 65536 + tag % 1024) (tag, f32Nat b.isl.islands.length) } }

/-- The parterre's result published (R186): it takes effect and reaches ALM, unless its tag has expired or is about to (R23). -/
def Block.islPublish (b : Block) : Block :=
  match b.isl.running with
  | none => b
  | some (seq, di) =>
    if (Tbl.get b.dfe.closedTag 0 none).isSome then b
    else match (b.ring 0).seqPos seq with
    | none => { b with isl := { b.isl with running := none } }
    | some (_, x) => ((b.islRun x di).islCount (seq % 65536)).almPublish 0 1 0 (seq % 65536)

/-! ### Hand-over (R190, R191, R202) -/

/-- Whether an enabled input keeps the ranges of Table 7.5. -/
def almInOk (w : Word) : Bool :=
  let arg := fld w 25 0
  match fld w 29 26 with
  | 2 => decide (1 ≤ bits arg 13 0) && decide (bits arg 13 0 ≤ 8192)
  | 4 => bits arg 15 14 != 3
  | 5 => bits arg 17 16 != 3 && decide (bits arg 4 0 ≤ 16)
  | _ => true

/-- Whether the definitions and groups that a hand-over would give keep R190 and R191 and the ranges that depend on another
field: the K of a KOF definition from 1 to 4, the ranges of Table 7.5. -/
def Block.almConfigOk (b : Block) : Bool :=
  (List.range 64).all (fun g => (b.grpMembers g).all (fun c => b.strRing c == b.grpRing g)) &&
  (b.listed Reg.ALM_PAIR_CFG).all (fun k =>
    !b.cb Reg.ALM_PAIR_CFG k 31 || b.strRing (b.cf Reg.ALM_PAIR_CFG k 12 0) == b.strRing (b.cf Reg.ALM_PAIR_CFG k 28 16)) &&
  (List.range 256).all (fun d => (b.defIns d).all almInOk) &&
  (b.listed Reg.ALM_DEF_CFG).all (fun d => b.cf Reg.ALM_DEF_CFG d 26 25 != 2 ||
    (decide (1 ≤ b.cf Reg.ALM_DEF_CFG d 24 22) && decide (b.cf Reg.ALM_DEF_CFG d 24 22 ≤ 4))) &&
  ((b.listed Reg.ALM_DEF_CFG).filter (fun d => b.cb Reg.ALM_DEF_CFG d 31)).all (fun d =>
    let r := b.cf Reg.ALM_DEF_CFG d 30 30
    (b.defIns d).all (fun w =>
      let arg := fld w 25 0
      match fld w 29 26 with
      | 0 => b.strRing (bits arg 14 2) == r
      | 1 => b.strRing (b.cf Reg.ALM_PAIR_CFG (bits arg 11 0) 12 0) == r
      | 2 => b.grpRing (bits arg 25 20) == r
      | 3 | 4 | 5 => r == 0
      | 6 => true
      | 7 => b.cf Reg.ALM_DEF_CFG (bits arg 7 0) 30 30 == r
      | _ => false))

/-- The ring whose basin open takes a waiting set of ALM. -/
def Block.almSetRing (b : Block) (k : Nat) : Nat :=
  let i := keyInst k
  let com (d : RegDesc) (i : Nat) : Word := Tbl.get b.regs.com (d.key i 0) (b.act d i)
  match keySpace k with
  | 0 => b.strRing i
  | 1 => b.strRing (fld (com Reg.ALM_PAIR_CFG i) 12 0)
  | 2 => fld (com Reg.ALM_DEF_CFG i) 30 30
  | 3 =>
    let after := b.adopt (b.comSets (fun j => keyBlk j == Blk.alm && keySpace j == 3 && keyInst j % 64 == i % 64))
    after.grpRing (i % 64)
  | _ => 0

/-- What a copied key of ALM brings: RUN of a definition whose inputs, OP, CONF or CLR changed becomes 0; a detector or monitor that is not
enabled loses its state and history (R188, R189, R202). -/
def Block.almAdopted (b : Block) (before : Tbl Word) (k : Nat) : Block :=
  let old := Tbl.get before k (Reg.rstOf k)
  let now := Tbl.get b.regs.act k (Reg.rstOf k)
  let i := keyInst k
  match keySpace k with
  | 0 =>
    let t := (keyOff k - 0x40) / 4
    if 0x40 ≤ keyOff k ∧ keyOff k ≤ 0x4C ∧ bit now.toNat 31 = false then b.setDet (4 * i + t) Detector.reset else b
  | 1 => if keyOff k = 0x40 ∧ bit now.toNat 31 = false then b.setPair i Detector.reset else b
  | 2 =>
    if keyOff k ≤ 0x50 ∧ (if keyOff k = 0x40 then old &&& 0x0600FFFF ≠ now &&& 0x0600FFFF else old ≠ now) then b.setDef i { b.almDef i with run := 0 } else b
  | _ => b

/-- ALM's hand-over at a basin open of a ring: what the copied keys bring, publishers follow their EN. -/
def Block.almHandover (b : Block) (r : Nat) : Block :=
  let mine (k : Nat) : Bool := keyBlk k == Blk.alm && b.almSetRing k == r
  let keys := (b.comSets mine).map (·.1)
  if keys = [] then b
  else
    let before := b.regs.act
    let b := b.handover mine (fun _ => 0) (fun b _ => b.almConfigOk) (fun b _ => (b.irq Blk.alm 4).event 0x0906 0xFFFF 0 (b.ring r).nextSeq)
    if b.regs.act = before then b
    else
      (keys.foldl (fun b k => b.almAdopted before k) b).almPins.pulsesDriven.pubRefresh

end Sys2Proof.Machine
end

