-- ==== Sys2Proof/Machine/FabricOps.lean ====
section
/-! DEFINITION. The shared operations of the fabric: tokens, matching, readiness, the cores' pool (R206 to R218, R225 to R230). -/

namespace Sys2Proof.Machine

def Block.setCore (b : Block) (c : Nat) (x : Core) : Block :=
  { b with dfe := { b.dfe with cores := Tbl.put b.dfe.cores c x Core.reset } }

/-- The cores as they stand now: firings that have started are taken from their queues. -/
def Block.coresNow (b : Block) : Block :=
  { b with dfe := { b.dfe with cores := b.dfe.cores.map (fun e => (e.1, b.coreStarts e.2)) } }

/-! ### The data cache of a core (R203, R219, R220) -/

/-- The lines that a data cache of 32 KiB holds. -/
def cacheLines : Nat := 512

/-- Whether a line overlaps a range of bytes. -/
def CacheLine.meets (l : CacheLine) (a n : Nat) : Bool := decide (l.line * 64 < a + n) && decide (a < l.line * 64 + 64)

/-- Bytes put into a line where the range written covers it. -/
def CacheLine.patch (l : CacheLine) (a : Nat) (bs : List Byte) : CacheLine :=
  { l with
    data := (List.range 64).map (fun i =>
      let k := l.line * 64 + i
      if a ≤ k ∧ k < a + bs.length then bs.getD (k - a) 0 else l.data.getD i 0)
    dirty := true }

/-- A dirty line written back to memory. -/
def Block.writeBackLine (b : Block) (l : CacheLine) : Block := if l.dirty then b.store (64 * l.line) l.data else b

/-- A line brought into a core's data cache, as the newest; the oldest is written back to make room. -/
def Block.fillLine (b : Block) (c n : Nat) : CacheLine × Block :=
  let x := b.core c
  match x.dcache.find? (fun l => l.line == n) with
  | some l => (l, b.setCore c { x with dcache := l :: x.dcache.filter (fun m => m.line != n) })
  | none =>
    let l : CacheLine := ⟨n, b.load (64 * n) 64, false⟩
    let b := (x.dcache.drop (cacheLines - 1)).foldl Block.writeBackLine b
    (l, b.setCore c { x with dcache := l :: x.dcache.take (cacheLines - 1) })

/-- The lines that a range of bytes touches. -/
def linesOf (a n : Nat) : List Nat := if n = 0 then [] else (List.range ((a + n - 1) / 64 + 1 - a / 64)).map (· + a / 64)

/-- Whether a core's access to a line passes its cache by: the line holds poison in memory and the cache does not hold it. -/
def Block.pastCache (b : Block) (c n : Nat) : Bool := b.poisonedRange (64 * n) 64 && !(b.core c).dcache.any (fun l => l.line == n)

/-- A core's read of shared scratch or DRAM through its data cache. -/
def Block.coreLoad (b : Block) (c a n : Nat) : List Byte × Block :=
  let r := (linesOf a n).foldl (fun (s : List Byte × Block) k =>
    if s.2.pastCache c k then (s.1 ++ s.2.load (64 * k) 64, s.2)
    else (let r := s.2.fillLine c k; (s.1 ++ r.1.data, r.2))) ([], b)
  (slice r.1 (a % 64) n, r.2)

/-- A core's write to shared scratch or DRAM: into its data cache, a line at a time. -/
def Block.coreStore (b : Block) (c a : Nat) (bs : List Byte) : Block :=
  (linesOf a bs.length).foldl (fun b k =>
    if b.pastCache c k then
      let lo := max a (64 * k)
      b.store lo (slice bs (lo - a) (64 * k + 64 - lo))
    else
      let r := b.fillLine c k
      let x := r.2.core c
      r.2.setCore c { x with dcache := x.dcache.map (fun l => if l.line = k then l.patch a bs else l) }) b

/-- The lines of a range cleaned: written back where dirty, kept clean (R220). -/
def Block.coreClean (b : Block) (c a n : Nat) : Block :=
  let x := b.core c
  let b := (x.dcache.filter (fun l => l.meets a n)).foldl Block.writeBackLine b
  b.setCore c { x with dcache := x.dcache.map (fun l => if l.meets a n then { l with dirty := false } else l) }

/-- The lines of a range invalidated, dirty ones discarded (R220). -/
def Core.invalidate (x : Core) (a n : Nat) : Core := { x with dcache := x.dcache.filter (fun l => !l.meets a n) }

/-- What a core that reinitialises keeps of its memories: caches invalid without write-back, scratch clear (R228). -/
def Core.wiped (x : Core) : Core := { x with icache := [], dcache := [], scratch := [] }

/-- The range that a token refers to, none where it is no REF (R206). -/
def Token.ref (t : Token) : Option (Nat × Nat) :=
  if t.kind = 1 ∧ t.payload ≠ [] then some (leAt t.payload 0 5, leAt t.payload 8 4) else none

/-! ### The matching store -/

/-- Free entries of the matching store (R208). -/
def Block.msFree (b : Block) : Nat := 7168 - b.dfe.store.length

/-- Whether the sluice admits a token of an admission class (Table 8.3). -/
def Block.admits (b : Block) (cls : Nat) : Bool :=
  let need := if cls = 0 then 0 else if cls = 1 then 64 else b.cn Reg.DFE_SLUICE_CFG
  decide (need < b.msFree)

/-- The generation and the tag concerned, as one argument of a DFE event: the generation in bits 23:16, the tag in bits 15:0.
DESIGN CHOICE: section 8 says that the events carry both and not where. -/
def genTag (gen tag : Nat) : Nat := gen % 256 * 65536 + tag % 65536

/-- A hold of the sluice on an emission of a tag: counted, the first of a tick flagged and reported (R215). -/
def Block.sluiceHold (b : Block) (tag : Nat) : Block :=
  let b := b.count Reg.DFE_SLUICE_HOLDS
  if b.dfe.sluiceSeen then b
  else
    let b := { b with dfe := { b.dfe with sluiceSeen := true } }
    (b.irq Blk.dfe 4).eventRep 0 0x0A07 0xFFFF (genTag b.dfe.gen tag)

/-- A token that reached the store or a sink with a superseded generation (R225). -/
def Block.staleGen (b : Block) (gen tag : Nat) : Block :=
  (b.count Reg.DFE_STALE_GEN).eventRep 0 0x0A05 0xFFFF (genTag gen tag)

/-- Whether an op instance is ready: every connected input port holds a token of the tag (R208), or, between two slices of a firing, its
continuation token is there (R213). -/
def Block.isReady (b : Block) (op tag : Nat) : Bool :=
  match b.opDef op with
  | none => false
  | some d =>
    let has (p : Token → Bool) : Bool := b.dfe.store.any (fun t => t.op == op && t.tag == tag && p t)
    if b.dfe.slices.any (fun f => f.op == op && f.tag == tag) then has (fun _ => true)
    else d.ins.all (fun p => has (fun t => t.port == p))

/-- The lowest entry of the store that no token holds, from one on. -/
def freeEntry (s : List Token) : Nat → Nat → Nat
  | 0, n => n
  | f + 1, n => if s.any (fun t => t.entry == n) then freeEntry s f (n + 1) else n

/-- A token enters its match slot (OP, TAG mod 8), or collides (R208, R209), and may make an instance ready; the instance of a token that a
collision discards is ready no more. -/
def Block.matchToken (b : Block) (t : Token) : Block :=
  if t.gen ≠ b.dfe.gen then b.staleGen t.gen t.tag
  else
    match b.dfe.store.find? (fun u => u.op == t.op && u.port == t.port && u.tag % 8 == t.tag % 8) with
    | some u =>
      let b := ((b.count Reg.DFE_MATCH_COLLIDE).irq Blk.dfe 5).eventRep t.op 0x0A06 0xFFFF (genTag t.gen t.tag)
      if u.tag = t.tag then b
      else if tagOlder t.tag u.tag then b
      else place { b with dfe := { b.dfe with
        store := b.dfe.store.filter (fun v => v != u)
        ready := b.dfe.ready.filter (fun e => e != (u.op, u.tag) || b.dfe.back.any (fun f => f.op == u.op && f.tag == u.tag)) } } t
    | none => place b t
where
  /-- The token stored in the lowest free entry, which holds no poison from then on (R328), the peak kept, and the instance listed as ready if
  it is. -/
  place (b : Block) (t : Token) : Block :=
    let n := freeEntry b.dfe.store b.dfe.store.length 0
    let st := b.dfe.store ++ [{ t with entry := n }]
    let b := { b with
      dfe := { b.dfe with store := st, peak := max b.dfe.peak st.length }
      mem := { b.mem with poison := b.mem.poison.filter (fun u => !(u.1 == 4 && u.2 / 72 == n)) } }
    if b.isReady t.op t.tag && !b.dfe.ready.contains (t.op, t.tag) then
      { b with dfe := { b.dfe with ready := b.dfe.ready ++ [(t.op, t.tag)] } }
    else b

/-- A token of an engine (class A or C) or of the dispatcher (class B): held behind those of its class that wait already, and where the sluice
does not admit it (R215). One of a superseded generation needs no entry. -/
def Block.offerToken (b : Block) (cls : Nat) (t : Token) : Block :=
  if t.gen ≠ b.dfe.gen ∨ (b.admits cls = true ∧ b.dfe.engHeld.any (fun e => e.1 == cls) = false) then b.matchToken t
  else ({ b with dfe := { b.dfe with engHeld := b.dfe.engHeld ++ [(cls, t)] } }).sluiceHold t.tag

/-- The held tokens tried again: the first whose class the sluice admits. -/
def Block.retryHeld (b : Block) : Block :=
  match b.dfe.engHeld.find? (fun e => b.admits e.1) with
  | some e => ({ b with dfe := { b.dfe with engHeld := b.dfe.engHeld.erase e } }).matchToken e.2
  | none => b

/-- Carry tokens that a firing consumed handed on to the next tag with GAP increased (R218, R226). -/
def Block.carryPorts (b : Block) (f : Firing) (ports : List Nat) : Block :=
  (f.toks.filter (fun t => ports.contains t.port)).foldl
    (fun b t => b.offerToken 1 { t with tag := (t.tag + 1) % 65536, gap := min 3 (t.gap + 1), entry := 0 }) b

/-- All of a firing's carry ports handed on. -/
def Block.carryOn (b : Block) (f : Firing) : Block :=
  match b.opDef f.op with
  | none => b
  | some d => b.carryPorts f d.carry

/-! ### Placing -/

/-- The ready instance the dispatcher takes first. -/
def Block.firstReady (b : Block) : Option (Nat × Nat) :=
  match b.dfe.ready with
  | [] => none
  | r :: rs => some (rs.foldl (fun a x => if b.dispatchBefore x a then x else a) r)

/-- The core whose ready queue holds the fewest firings, the lower index first. -/
def Block.leastLoaded (b : Block) : Option Nat :=
  match b.pool with
  | [] => none
  | c :: cs => some (cs.foldl (fun a x => if (b.core x).queue.length < (b.core a).queue.length then x else a) c)

/-- The core a firing of an op is placed on: its affinity core below THRESH, else the spill target; none while every ready
queue is full (R211). The Bool says that it spilled. -/
def Block.target (b : Block) (op : Nat) : Option (Nat × Bool) :=
  let a := fld (b.vis Reg.DFE_OP_AFF op) 5 0
  if b.pool.contains a ∧ (b.core a).queue.length < b.cn Reg.DFE_SPILL_CFG then some (a, false)
  else match b.leastLoaded with
    | some c => if (b.core c).queue.length < 16 then some (c, b.pool.contains a && c != a) else none
    | none => none

/-- A core leaves the pool: its queued firings return to the ready list with their operands (R226). -/
def Block.leavePool (b : Block) (c : Nat) (st : CoreState) : Block :=
  let x := b.core c
  let b := b.setCore c { x with st := st, out := true, rejoin := false, queue := [] }
  let back := x.queue.filter (fun f => !f.dead)
  { b with dfe := { b.dfe with back := b.dfe.back ++ back, ready := b.dfe.ready ++ back.map (fun f => (f.op, f.tag)) } }

/-- A core whose firing has ended: out of the pool where a halt was requested (R230), else it takes the next by the order of R211 (R213). -/
def Block.coreFree (b : Block) (c : Nat) : Block :=
  let x := b.core c
  if x.haltReq then
    let b := b.leavePool c .halted
    b.setCore c { b.core c with running := none, held := [], haltReq := false }
  else
    let x := { x with running := none, held := [] }
    if x.out then b.setCore c x
    else match b.firstFiring x.queue with
      | none => b.setCore c { x with st := .idle }
      | some g => b.setCore c (x.startsOn g (b.t7 + dispatchGap))

/-- The tokens that a waiting firing stands for: its operands, or the continuation token of a later slice. -/
def Firing.count (f : Firing) : Nat := if f.slice then 1 else f.toks.length

/-- The increment of the generation (R225): every token of the old one is removed and counted. -/
def Block.genChange (b : Block) : Block :=
  let b := b.coresNow
  let old := b.dfe.gen
  let waiting := b.dfe.back ++ (List.range 48).flatMap (fun c => (b.core c).queue)
  let gone := b.dfe.store.length + (waiting.map Firing.count).foldl (· + ·) 0 + b.dfe.engHeld.length
  let cores := b.dfe.cores.map (fun e => (e.1, { e.2 with queue := [] }))
  let b := { b with dfe := { b.dfe with
    gen := (old + 1) % 256, store := [], ready := [], engHeld := [], back := [], slices := [], cores := cores } }
  let b := if gone = 0 then b else b.count Reg.DFE_STALE_GEN 0 0 gone
  (b.irq Blk.dfe 1).event 0x0A04 0xFFFF old ((old + 1) % 256)

/-- Cores that wait to rejoin the pool do so at an alarm close of the main ring (R228, R230). -/
def Block.rejoinCores (b : Block) : Block :=
  { b with dfe := { b.dfe with cores := b.dfe.cores.map (fun e =>
      if e.2.rejoin then (e.1, { e.2 with out := false, rejoin := false, st := .idle }) else e) } }

end Sys2Proof.Machine
end

