-- ==== Sys2Proof/Machine/RplSig.lean ====
section
/-! DEFINITION. The ripple engine's signals: samples, the low-pass, band detectors, channels, the covariance (R139 to R151). -/

namespace Sys2Proof.Machine

def Block.setBand (b : Block) (c n : Nat) (x : Band) : Block := { b with rpl := { b.rpl with bands := Tbl.put b.rpl.bands (4 * c + n) x Band.reset } }
def Block.setChan (b : Block) (i : Nat) (x : Chan) : Block := { b with rpl := { b.rpl with chans := Tbl.put b.rpl.chans i x Chan.reset } }
def Block.setTrack (b : Block) (i : Nat) (x : Track) : Block := { b with rpl := { b.rpl with tracks := Tbl.put b.rpl.tracks i x Track.reset } }

/-- Whether a basin is a modal tick (R142). -/
def Block.isModal (b : Block) (x : Basin) : Bool := x.k % max 1 b.modalDiv == 0

/-- λ = 1 − 1 ÷ N as float32 (R150, R157). -/
def Block.modalLam (b : Block) : Nat := f32OfRat ((b.modalN : Int) - 1) b.modalN

/-! ### Samples (R140, R141) -/

/-- A sample of a source of Table 6.1 for a context, with the unwrap state after it; none where it is missing. -/
def Block.rplSample (b : Block) (x : Basin) (c src : Nat) (prev : Option Int) : Option (Nat × Option Int) :=
  match b.feat x c with
  | none => none
  | some f =>
    match src with
    | 1 =>
      match b.feat x (b.cf Reg.RPL_REF_CTX 0 12 0) with
      | none => none
      | some r =>
        if f.angOk && r.angOk then
          let d := wrapAng ((f.ang : Int) - r.ang)
          let u := match prev with | none => d | some p => unwrapAng p d
          some (angRad u, some u)
        else none
    | 0 => (f.value 0).map (fun v => (v, prev))
    | 2 => (f.value 1).map (fun v => (v, prev))
    | 3 => (f.value 2).map (fun v => (v, prev))
    | 4 => (f.value 3).map (fun v => (v, prev))
    | _ => none

/-! ### Catch-up (R143) -/

/-- How many ticks of a signal's pace lie between the last one processed and this one. -/
def ticksBetween (last : Option Nat) (slot pace : Nat) : Nat :=
  match last with
  | some l => if slot ≤ l then 0 else (slot - l) / max 1 pace - 1
  | none => 0

/-- Catch-up steps for the ticks before a slot, each tick counted once for its tag whatever ops it lacks. -/
def Block.tickGap (b : Block) (slot pace g : Nat) : Block :=
  let new := ((List.range (min 3 g)).map (fun i => slot - (i + 1) * max 1 pace)).filter (fun s => !b.rpl.gapSeen.contains s)
  if new = [] then b
  else ({ b with rpl := { b.rpl with gapSeen := (b.rpl.gapSeen ++ new).filter (fun s => decide (slot < s + 64)) } }).count Reg.RPL_TICK_GAPS 0 0 new.length

/-! ### The low-pass at the base rate (R145, R149) -/

/-- Whether a band's rate is the modal one, which a low-pass at the base rate comes before (R145). -/
def Block.isSlow (b : Block) (rate : Nat) : Bool := rate == b.modalRate

/-- One step of a signal's low-pass on its last valid sample. -/
def Block.lpStep (b : Block) (s : Sig) : Sig :=
  match s.raw with
  | none => s
  | some v =>
    let y := (lowPass (centiHz (45 * b.modalRate)) (b.ringRate 0)).step s.lp v
    { s with lp := y.2, lpOut := y.1 }

/-- A tick of a signal's low-pass, with the steps for up to 3 ticks that it lacks. -/
def Block.lpTick (b : Block) (x : Basin) (s : Sig) (v : Option (Nat × Option Int)) : Sig :=
  let s := (List.range (min 3 (ticksBetween s.lpLast x.slot 1))).foldl (fun s _ => b.lpStep s) s
  let s : Sig := match v with
    | some (v, a) => { s with raw := some v, ang := a }
    | none => s
  { b.lpStep s with lpLast := some x.slot }

/-! ### Band detectors (R143 to R147) -/

/-- The source that a context gives a band. -/
def Block.bandSrc (b : Block) (c n : Nat) : Nat := b.cf Reg.RPL_CTX_BAND_CFG c (18 + 4 * n) (16 + 4 * n)

/-- One step of a detector on the value its signal holds (R146); none before its first valid sample. -/
def Block.bandRun (b : Block) (n : Nat) (d : Band) (held : Bool) : Band :=
  match d.sig.held with
  | none => d
  | some v =>
    let e := b.bandEdges n
    let rate := b.bandRate n
    let y := cascade (bandPass (centiHz e.1) (centiHz e.2) rate) d.sig.filt v
    let a := smoothing (b.cn Reg.RPL_BAND_TAU % 32768) rate
    let e := f32Add d.e (f32Mul a (f32Sub (f32Mul y.1 y.1) d.e))
    { sig := { d.sig with filt := y.2, warm := min (2 * rate) (d.sig.warm + 1) }, e := e, pub := f32Sqrt e, wasHeld := held }

/-- A missing sample: the last valid one is held; the fourth in a row resets the detector (R143). The number says that it did. -/
def Block.bandMiss (b : Block) (n : Nat) (d : Band) : Band × Nat :=
  if 4 ≤ d.sig.miss then (d, 0)
  else if d.sig.miss = 3 then ({ Band.reset with sig := { Sig.reset with miss := 4 } }, 1)
  else (b.bandRun n { d with sig := { d.sig with miss := d.sig.miss + 1 } } true, 0)

/-- The low-pass of a detector at the modal rate, on every tick. -/
def Block.bandLow (b : Block) (x : Basin) (c n : Nat) : Block :=
  let d := b.band c n
  if b.bandOn c n = false ∨ b.isSlow (b.bandRate n) = false then b
  else (b.tickGap x.slot 1 (ticksBetween d.sig.lpLast x.slot 1)).setBand c n { d with sig := b.lpTick x d.sig (b.rplSample x c (b.bandSrc c n) d.sig.ang) }

/-- A detector's run for a tick of its pace: catch-up steps for the ticks it lacks, then its own sample. DESIGN CHOICE (log entry 116): a slow
detector without a sample at a modal tick runs on the last low-pass output it took, and counts its missing samples on modal ticks only. -/
def Block.bandTick (b : Block) (x : Basin) (c n : Nat) : Block :=
  let slow := b.isSlow (b.bandRate n)
  let pace := if slow then b.modalDiv else 1
  if b.bandOn c n = false ∨ (slow = true ∧ b.isModal x = false) then b
  else
    let d := b.band c n
    let g := ticksBetween d.sig.last x.slot pace
    let r := (List.range (min 4 g)).foldl (fun (r : Band × Nat) _ => let y := b.bandMiss n r.1; (y.1, r.2 + y.2)) (d, 0)
    let s := r.1.sig
    let y : Band × Nat := match b.rplSample x c (b.bandSrc c n) s.ang with
      | some (v, a) => (b.bandRun n { r.1 with sig := { s with miss := 0, held := some (if slow then s.lpOut else v), ang := a } } false, r.2)
      | none => let m := b.bandMiss n r.1; (m.1, r.2 + m.2)
    let b := (b.tickGap x.slot pace g).setBand c n { y.1 with sig := { y.1.sig with last := some x.slot } }
    if y.2 = 0 then b else b.count Reg.RPL_CTX_GAP_RESETS c 0 y.2

/-! ### Channels (R148, R149) -/

/-- A channel's sample for a tick: the weight times the signal. -/
def Block.chanSample (b : Block) (x : Basin) (i : Nat) (prev : Option Int) : Option (Nat × Option Int) :=
  let w := b.cfg Reg.RPL_CH_CFG i
  (b.rplSample x (fld w 12 0) (fld w 18 16) prev).map (fun e => (f32Mul (b.cn Reg.RPL_CH_WEIGHT i) e.1, e.2))

/-- One channel's step on the value its signal holds; none before its first valid sample. -/
def Block.chanRun (b : Block) (d : Chan) : Chan :=
  match d.sig.held with
  | none => d
  | some v =>
    let y := cascade (bandPass (centiHz (b.cn Reg.RPL_MODAL_LO % 65536)) (centiHz (b.cn Reg.RPL_MODAL_HI % 65536)) b.modalRate) d.sig.filt v
    { d with sig := { d.sig with filt := y.2, warm := min (2 * b.modalRate) (d.sig.warm + 1) }, x := y.1, here := true }

/-- A missing sample of a channel, as of a detector; a channel that has gone on missing is absent. -/
def Block.chanMiss (b : Block) (d : Chan) : Chan × Nat :=
  if 4 ≤ d.sig.miss then ({ d with x := 0, here := false }, 0)
  else if d.sig.miss = 3 then ({ Chan.reset with sig := { Sig.reset with miss := 4 }, v := d.v, included := d.included }, 1)
  else (b.chanRun { d with sig := { d.sig with miss := d.sig.miss + 1 } }, 0)

/-- The low-pass of a channel, on every tick where D > 1. -/
def Block.chanLow (b : Block) (x : Basin) (i : Nat) : Block :=
  let d := b.chan i
  if b.cb Reg.RPL_CH_CFG i 31 = false ∨ b.modalDiv ≤ 1 then b
  else (b.tickGap x.slot 1 (ticksBetween d.sig.lpLast x.slot 1)).setChan i { d with sig := b.lpTick x d.sig (b.chanSample x i d.sig.ang) }

/-- A channel's modal sample for a modal tick, after the held steps for the modal ticks it lacks; four of them reset it. DESIGN CHOICE (log entry
116): without a sample at a modal tick it runs on the last value it took, and counts its missing samples on modal ticks only. -/
def Block.chanTick (b : Block) (x : Basin) (i : Nat) : Block :=
  if b.cb Reg.RPL_CH_CFG i 31 = false ∨ b.isModal x = false then b
  else
    let d := b.chan i
    let g := ticksBetween d.sig.last x.slot b.modalDiv
    let r := (List.range (min 4 g)).foldl (fun (r : Chan × Nat) _ => let y := b.chanMiss r.1; (y.1, r.2 + y.2)) (d, 0)
    let s := r.1.sig
    let y : Chan × Nat := match b.chanSample x i s.ang with
      | some (v, a) => (b.chanRun { r.1 with sig := { s with miss := 0, held := some (if 1 < b.modalDiv then s.lpOut else v), ang := a } }, r.2)
      | none => let m := b.chanMiss r.1; (m.1, r.2 + m.2)
    let b := (b.tickGap x.slot b.modalDiv g).setChan i { y.1 with sig := { y.1.sig with last := some x.slot } }
    if y.2 = 0 then b else b.count Reg.RPL_CH_GAP_RESETS i 0 y.2

/-- A signal's low-pass by the number that RPL_AAF's block gives it: 4 × context + band, or 32,768 + channel. -/
def Block.aafTick (b : Block) (x : Basin) (e : Nat) : Block :=
  if e < 32768 then b.bandLow x (e / 4) (e % 4) else b.chanLow x (e - 32768)

/-- The value a channel contributes: 0 while absent or WARMING (R150). -/
def Block.chanX (b : Block) (i : Nat) : Nat :=
  let d := b.chan i
  if d.here = false ∨ d.sig.warm < 2 * b.modalRate then 0 else d.x

/-! ### The covariance (R150) -/

/-- The modal samples of the enabled channels, each with whether its channel was valid or held. -/
def Block.chanXs (b : Block) : List (Nat × Nat × Bool) := b.chanList.map (fun i => (i, b.chanX i, (b.chan i).here))

/-- Pairs of rows and columns of the upper triangle. -/
def trianglePairs (is : List Nat) : List (Nat × Nat) := is.flatMap (fun i => (is.filter (fun j => decide (i ≤ j))).map (fun j => (i, j)))

/-- One modal tick of C, v and s on a vector of samples; a channel that is not enabled contributes 0 and is neither valid nor held. -/
def Block.covUpdate (b : Block) (xs : List (Nat × Nat × Bool)) : Block :=
  let lam := b.modalLam
  let on (i : Nat) : Bool := b.chanList.contains i
  let x (i : Nat) : Nat := match xs.find? (fun e => e.1 == i) with | some e => e.2.1 | none => 0
  let present (i : Nat) : Bool := match xs.find? (fun e => e.1 == i) with | some e => e.2.2 | none => false
  let cov := (trianglePairs b.chanList).foldl (fun t p =>
    Tbl.put t (512 * p.1 + p.2) (f32Add (f32Mul lam (Tbl.get b.rpl.cov (512 * p.1 + p.2) 0)) (f32Mul (x p.1) (x p.2))) 0)
    (b.rpl.cov.foldl (fun t e => if on (e.1 / 512) && on (e.1 % 512) then t else Tbl.put t e.1 (f32Mul lam e.2) 0) b.rpl.cov)
  let s := f32Add (f32Mul lam b.rpl.s) f32One
  let off := (b.rpl.chans.map (·.1)).filter (fun i => !on i)
  let b := (b.chanList ++ off).foldl (fun (b : Block) (i : Nat) =>
    let d := b.chan i
    b.setChan i { d with v := f32Add (f32Mul lam d.v) (f32Nat (b2n (present i))) }) b
  { b with rpl := { b.rpl with cov := cov, s := s } }

/-- λ^g × v. -/
def decayBy (lam : Nat) : Nat → Nat → Nat
  | 0, v => v
  | g + 1, v => decayBy lam g (f32Mul lam v)

/-- A gap of more than 3 modal ticks: C, v and s times λ^g, and every channel reset. -/
def Block.covGap (b : Block) (g : Nat) : Block :=
  let lam := b.modalLam
  let b := (b.rpl.chans.map (·.1)).foldl (fun b i => let d := b.chan i; b.setChan i { d with v := decayBy lam g d.v }) b
  { b with rpl := { b.rpl with s := decayBy lam g b.rpl.s, cov := b.rpl.cov.map (fun e => (e.1, decayBy lam g e.2)) } }

end Sys2Proof.Machine
end

