-- ==== Sys2Proof/Machine/RplOps.lean ====
section
/-! DEFINITION. The ripple engine's epochs, tracks, ringdowns, forced oscillations and their location; its hand-over and its ops (R152 to
R173). -/

namespace Sys2Proof.Machine

/-! ### Track conditions and the reset of the modal state -/

/-- The event and interrupt of FO set or cleared: slot, serial number with the first ranked branch above it (0xFFFF before DEF has
published one), epoch. -/
def Block.foEvent (b : Block) (t serial : Nat) : Block :=
  (b.irq Blk.rpl 1).event 0x0706 t (serial + 65536 * (match b.rpl.rank with | e :: _ => e.1 | [] => 0xFFFF)) b.rpl.published

def Block.dampEvent (b : Block) (t serial : Nat) : Block := (b.irq Blk.rpl 0).event 0x0705 t serial b.rpl.published

/-- A track freed: its conditions clear (R167, R168). -/
def Block.trackFree (b : Block) (t : Nat) : Block :=
  let k := b.track t
  let b := b.setTrack t Track.reset
  let b := if k.damp then b.dampEvent t k.serial else b
  if k.fo then b.foEvent t k.serial else b

/-- The modal state cleared, with every track and detector (R164). -/
def Block.modalReset (b : Block) : Block :=
  let b := (List.range 16).foldl Block.trackFree b
  let r := b.rpl
  ({ b with rpl := { Rpl.reset with serial := r.serial, published := r.published } }).event 0x070A 0xFFFF r.published

/-! ### Projection (R156, R162) -/

/-- The product of two vectors by channel; a channel that only one has counts 0. -/
def vecDot (u v : List (Nat × Nat)) : Nat :=
  f32Dot (u.map (·.2)) (u.map (fun e => match v.find? (fun x => x.1 == e.1) with | some x => x.2 | none => 0))

/-- |y| > RD_K × √vy. -/
def Block.rdTest (b : Block) (k : Track) : Bool :=
  match k.ar with
  | none => false
  | some r =>
    let n := b.cf Reg.RPL_RD_CFG 0 31 24
    !f32NaN k.y && !f32NaN r.vy && decide ((n * n : Nat) * f32Val r.vy * 2 ^ 149 < f32Val k.y * f32Val k.y)

/-- The eigenvector that a firing uses: that of the epoch published when it was dispatched (R156). -/
def Block.vecAt (b : Block) (k : Track) (pub : Nat) : List (Nat × Nat) := if pub = b.rpl.published then k.vec else k.vec0

/-! ### AR estimation (R157, R163) -/

/-- An estimator's steps on a held value for the ticks it lacks, then its own. -/
def Rls.run (r : Rls) (lam held g y : Nat) : Rls := ((List.range g).foldl (fun r _ => r.step lam held) r).step lam y

/-- One track's estimators on a modal tick: the ringdown's at λ = 1, the ambient one unless a ringdown suspends it. -/
def Block.arTrack (b : Block) (x : Basin) (t : Nat) : Block :=
  let k := b.track t
  let tag := x.seq % 65536
  let own := if k.yTag = some tag then k.y else k.yHeld
  let g := min 3 (ticksBetween k.arLast x.slot b.modalDiv)
  if k.status = 0 then b
  else
    let quiet := b.rpl.ringdown.isSome || b.rpl.rdTag == tag + 1
    let k : Track := if k.rdOn then { k with rdAr := k.rdAr.map (fun r => r.run f32One k.yHeld g own) } else k
    let k : Track := if quiet then k else { k with ar := k.ar.map (fun r => r.run b.modalLam k.yHeld g own) }
    (b.tickGap x.slot b.modalDiv g).setTrack t { k with arLast := some x.slot, yHeld := own }

/-- RD_SKIP after the trigger each VALID track starts its ringdown estimator (R163). -/
def Block.rdSkip (b : Block) : Block :=
  match b.rpl.ringdown with
  | some t =>
    if t + b.cf Reg.RPL_RD_CFG 0 15 8 * 100000000 ≤ b.t7 then
      (List.range 16).foldl (fun b i => let k := b.track i; if k.status = 2 ∧ k.rdOn = false then b.setTrack i { k with rdOn := true, rdAr := some Rls.start } else b) b
    else b
  | none => b

/-- RD_LEN after the trigger the ringdown ends (R162). -/
def Block.rdEnd (b : Block) : Block :=
  match b.rpl.ringdown with
  | some t =>
    if t + b.cf Reg.RPL_RD_CFG 0 23 16 * nsPerS ≤ b.t7 then
      let b := { b with rpl := { b.rpl with
        ringdown := none, rdDone := true, rdTag := 0
        tracks := b.rpl.tracks.map (fun (e : Nat × Track) =>
          (e.1, if e.2.rdOn then { e.2 with rdOn := false, rdOut := e.2.rdAr, rdAr := none } else e.2)) } }
      (b.irq Blk.rpl 2).event 0x0707 0xFFFF b.rpl.published 0
    else b
  | none => b

/-- The mode that an estimator shows, as frequency and damping ratio; NaN where no root lies in the band (R158). -/
def Block.modeOf (b : Block) (r : Rls) : Nat × Nat :=
  match r.mode b.modalRate (b.cn Reg.RPL_MODAL_LO % 65536) (b.cn Reg.RPL_MODAL_HI % 65536) with
  | some m => (modeFreq b.modalRate m, modeZeta m)
  | none => (f32QNaN, f32QNaN)

/-- The ringdown's results, at the first epoch boundary after its end (R163). -/
def Block.rdResults (b : Block) : Block :=
  if b.rpl.rdDone = false then b
  else
    let th := b.cf Reg.RPL_RD_CFG 0 7 0
    let b := (List.range 16).foldl (fun b i =>
      let k := b.track i
      match k.rdOut with
      | none => b
      | some a =>
        let m := b.modeOf a
        b.setTrack i { k with rdOut := none, rdFreq := m.1, rdZeta := m.2, rdPoor := !f32NaN m.2 && decide (f32Val m.2 * 1000 < (th : Int) * 2 ^ 149) }) b
    { b with rpl := { b.rpl with rdDone := false } }

/-! ### Matching and what tracks report (R158 to R161) -/

/-- EPOCH_TICKS. -/
def Block.epochTicks (b : Block) : Nat := max 1 (b.cn Reg.RPL_EPOCH_TICKS % 128)

/-- How many epochs a duration in seconds takes, rounded up. -/
def Block.epochsIn (b : Block) (sec : Nat) : Nat := ceilDiv (sec * b.modalRate) b.epochTicks

/-- The number of a match: a track, a component, their assurance. -/
structure Match where
  t : Nat
  j : Nat
  mac : Nat
  deriving DecidableEq, Repr

/-- Pairs taken in descending assurance, ties to the lower slot and then the lower component (R160). -/
def takeMatches : Nat → List Match → List Match
  | 0, _ => []
  | n + 1, l =>
    match l with
    | [] => []
    | m :: r =>
      let best := r.foldl (fun a x => if f32Val a.mac < f32Val x.mac ∨ (f32Val a.mac = f32Val x.mac ∧ (x.t < a.t ∨ (x.t = a.t ∧ x.j < a.j))) then x else a) m
      best :: takeMatches n (l.filter (fun x => x.t != best.t && x.j != best.j))

/-- c_fit: 1 − ve ÷ vy, clamped to [0, 1]; open while there is no signal. -/
def Rls.fit (r : Rls) : Nat :=
  let c := if f32Zero r.vy then (Config.num .conf r.theta).toNat else f32Sub f32One (f32Div r.ve r.vy)
  if f32NaN c then 0 else f32Min f32One (f32Max 0 c)

/-- The confidence of a track, from a fill weight at the boundary (R159). -/
def Block.confidence (b : Block) (fit m : Nat) : Nat :=
  min 100 (roundDiv (100 * f32Val b.rpl.fillB * f32Val fit * (min m 8 : Nat)) (8 * b.modalN * 2 ^ 298)).toNat

/-- What a track reports from its estimator for an epoch: VALID or HOLD, frequency, damping, amplitude, fit, confidence. -/
def Block.trackReport (b : Block) (k : Track) : Track :=
  let r := k.ar.getD Rls.start
  let m := b.modeOf r
  let hold := f32NaN m.1
  { k with status := if hold then 3 else 2, freq := m.1, zeta := m.2, amp := k.ampB, cfit := r.fit,
           conf := if hold || b.rpl.warming then 0 else b.confidence r.fit k.m }

/-- A vector with its sign turned where its product with another is below 0. -/
def vecAlign (u v : List (Nat × Nat)) : List (Nat × Nat) := if f32Val (vecDot u v) < 0 then u.map (fun e => (e.1, f32Neg e.2)) else u

/-- The matching of the new components (R160). -/
def Block.matchTracks (b : Block) (comps : List (List (Nat × Nat) × Nat)) : Block :=
  let th := b.cf Reg.RPL_MATCH_CFG 0 15 8
  let ts := (List.range 16).filter (fun t => (b.track t).status != 0)
  let all := (ts.map (fun t => (List.range comps.length).map (fun j =>
    let m := vecDot (comps.getD j ([], 0)).1 (b.track t).vec
    (⟨t, j, f32Mul m m⟩ : Match)))).flatten
  let ok := all.filter (fun m => !f32NaN m.mac && decide ((th : Int) * 2 ^ 149 ≤ f32Val m.mac * 100))
  let got := takeMatches 16 ok
  let b := ts.foldl (fun b t =>
    let k := b.track t
    match got.find? (fun m => m.t == t) with
    | some m =>
      let c := comps.getD m.j ([], 0)
      b.setTrack t (b.trackReport { k with vec := vecAlign c.1 k.vec, vec0 := k.vec, share := c.2, matched := true, missed := 0, m := k.m + 1 })
    | none =>
      if k.missed + 1 = 3 then ((b.trackFree t).count Reg.RPL_TRACK_LOST).event 0x0704 t k.serial b.rpl.published
      else b.setTrack t { k with vec0 := k.vec, matched := false, missed := k.missed + 1, status := 3, conf := 0 }) b
  (List.range comps.length).foldl (fun b j =>
    if got.any (fun m => m.j == j) then b
    else match (List.range 16).find? (fun t => (b.track t).status == 0) with
      | some t =>
        let serial := (b.rpl.serial + 1) % 65536
        let c := comps.getD j ([], 0)
        let b := { b with rpl := { b.rpl with serial := serial } }
        let k : Track := { Track.reset with status := 2, serial := serial, vec := c.1, share := c.2, ar := some Rls.start,
                                            ampB := f32QNaN }
        ((b.setTrack t (b.trackReport k)).count Reg.RPL_TRACK_NEW).event 0x0703 t serial b.rpl.published
      | none => b.count Reg.RPL_COMP_DROPPED) b

/-- Whether a track reports VALID: not while the engine is WARMING (R164) nor during a ringdown (R162). -/
def Block.trackValid (b : Block) (t : Nat) : Bool := (b.track t).status == 2 && !b.rpl.warming && b.rpl.ringdown.isNone

/-- Pairs of tracks in quadrature: the lower slot is the primary (R161). -/
def Block.pairTracks (b : Block) : Block :=
  let tol := b.cf Reg.RPL_MATCH_CFG 0 7 0
  let b := (List.range 16).foldl (fun b t => b.setTrack t { b.track t with paired := false, pairOf := none }) b
  (List.range 16).foldl (fun b t =>
    let k := b.track t
    if b.trackValid t = false ∨ k.paired = true then b
    else match (List.range 16).find? (fun u =>
        let q := b.track u
        decide (t < u) && b.trackValid u && !q.paired && decide ((f32Val k.freq - f32Val q.freq).natAbs * 1000 ≤ (tol * f32Val k.freq).toNat)) with
      | some u => (b.setTrack t { k with paired := true }).setTrack u { b.track u with paired := true, pairOf := some t }
      | none => b) b

/-- The track of the dominant mode (R161). -/
def Block.dominant (b : Block) : Option Nat :=
  let share (t : Nat) : Int := f32Val (b.track t).share + ((List.range 16).filter (fun u => (b.track u).pairOf == some t)).foldl (fun a u => a + f32Val (b.track u).share) 0
  let ts := (List.range 16).filter (fun t => b.trackValid t && (b.track t).pairOf.isNone)
  match ts with
  | [] => none
  | t :: r => some (r.foldl (fun a u => if share a < share u then u else a) t)

/-- The dominant mode of a publication, with its frequency, damping and confidence for OUT (R121, R161). -/
def Block.setDominant (b : Block) (d : Option Nat) : Block :=
  let t := b.dfe.analytics.filter (fun e => e.1 != 1024 * 65537 && e.1 != 1024 * 65538 && e.1 != 1024 * 65539)
  let b := { b with rpl := { b.rpl with dom := d } }
  match d with
  | none => { b with dfe := { b.dfe with analytics := t } }
  | some i =>
    let k := b.track i
    let y := Tbl.ins (Tbl.ins t (1024 * 65537) (0, k.freq)) (1024 * 65538) (0, k.zeta)
    { b with dfe := { b.dfe with analytics := Tbl.ins y (1024 * 65539) (0, f32Nat k.conf) } }

/-! ### Alarm conditions (R166 to R168, R170) -/

/-- The damping condition of a track at a publication (R167). -/
def Block.dampStep (b : Block) (t : Nat) : Block :=
  let k := b.track t
  let w := (b.cfg Reg.RPL_DAMP_CFG).toNat
  let tm := (b.cfg Reg.RPL_DAMP_TIME).toNat
  let z := f32Val k.zeta * 10000
  let th : Int := (bits w 15 0 : Int) * 2 ^ 149
  let off : Int := th + (bits w 23 16 : Int) * 10 * 2 ^ 149
  if b.trackValid t = false then b
  else
    let q := k.pairOf.isNone && decide (z < th) && decide (bits w 30 24 ≤ k.conf)
    let run := if q then min 65535 (k.dampRun + 1) else 0
    let clr := if decide (off ≤ z) then k.dampClr + 1 else 0
    let on := if k.damp then decide (clr < b.epochsIn (bits tm 31 16)) else q && decide (b.epochsIn (bits tm 15 0) ≤ run)
    let b := b.setTrack t { k with dampRun := run, dampClr := if on then clr else 0, damp := on }
    if on = k.damp then b else b.dampEvent t k.serial

/-- One more epoch in a track's history, newest first; FO_DUR spans at most 1,020 epochs (R152). -/
def Track.epochPast (k : Track) (valid : Bool) : List (Bool × Nat) := ((valid, k.amp) :: k.hist).take 1020

/-- The forced-oscillation condition of a track at a publication (R168). -/
def Block.foStep (b : Block) (t : Nat) : Block :=
  let k := b.track t
  let w := (b.cfg Reg.RPL_FO_CFG).toNat
  let n := max 1 (b.epochsIn (bits w 23 16))
  let hist := k.epochPast (b.trackValid t)
  let last := hist.take n
  let cv := variation (last.map (·.2))
  let k : Track := { k with hist := hist, cv := cv }
  if b.trackValid t = false then b.setTrack t k
  else
    let ok := k.pairOf.isNone && decide (f32Val k.zeta * 10000 ≤ (bits w 15 0 : Int) * 2 ^ 149) && f32Le (b.cn Reg.RPL_FO_AMP) k.amp &&
      last.length == n && last.all (·.1) && !f32NaN cv && decide (f32Val cv * 100 ≤ (bits w 31 24 : Int) * 2 ^ 149)
    let fail := if ok then 0 else k.foFail + 1
    let on := if k.fo then decide (fail < 4) else ok
    let b := b.setTrack t { k with fo := on, foFail := if on then fail else 0 }
    if on = k.fo then b else b.foEvent t k.serial

/-- DEF's target: the FO track of largest amplitude; DEF starts, restarts or stops (R170). -/
def Block.defTarget (b : Block) : Block :=
  let ts := (List.range 16).filter (fun t => (b.track t).fo)
  match ts with
  | [] => if b.rpl.defRun.isNone then b else { b with rpl := { b.rpl with defRun := none, defB := [], rank := [], ranked := 0 } }
  | t :: r =>
    let t := r.foldl (fun a u => if f32Val (b.track a).amp < f32Val (b.track u).amp then u else a) t
    let f := (b.track t).freq
    let same := match b.rpl.defRun with
      | some (u, g, _) => u == t && (f32NaN f || decide ((f32Val f - f32Val g).natAbs * 10 ≤ (f32Val g).natAbs))
      | none => false
    if same || f32NaN f then b else { b with rpl := { b.rpl with defRun := some (t, f, b.t7), defB := [], rank := [], ranked := 0 } }

/-! ### Result records (R172) -/

/-- The 4 channels of largest entry, lower numbers first among equals, each with its entry in 2⁻¹⁵. -/
def modeShape (v : List (Nat × Nat)) : List (Nat × Nat) :=
  let before (x y : Nat × Nat) : Bool := decide ((f32Val y.2).natAbs < (f32Val x.2).natAbs) || ((f32Val x.2).natAbs == (f32Val y.2).natAbs && decide (x.1 < y.1))
  (List.range 4).filterMap (fun n => (v.find? (fun e => (v.filter (fun y => before y e)).length == n)).map (fun e =>
    (e.1, (BitVec.ofInt 16 (clampI (-32768) 32767 (roundDiv (f32Val e.2 * 32768) (2 ^ 149)))).toNat)))

/-- The 18 records of a result block (Tables 6.5 to 6.7). `bad` is the header's flag byte. -/
def Block.resultBlock (b : Block) (epoch seq slot bad : Nat) : List Byte :=
  let t := slotTime (b.ringRate 0) slot
  let head := leBytes 4 epoch ++ leBytes 4 seq ++ leBytes 6 (t / nsPerS) ++ leBytes 4 (t % nsPerS) ++ leBytes 1 bad ++ leBytes 1 0 ++
    leBytes 2 b.rpl.included ++ leBytes 2 (b.rpl.dom.getD 0xFFFF) ++ leBytes 4 (b.fillF32 b.rpl.fillB) ++ leBytes 4 b.rpl.solveUs
  let trk (i : Nat) : List Byte :=
    let k := b.track i
    let top := modeShape k.vec
    slice (leBytes 4 epoch ++ leBytes 1 i ++ leBytes 1 (b.trackStatus i) ++ leBytes 1 (if b.rpl.warming then 0 else k.conf) ++
      leBytes 1 (b2n k.matched + 2 * b2n k.paired + 4 * b2n k.damp + 8 * b2n k.fo + 16 * b2n k.rdPoor) ++ leBytes 2 k.serial ++
      leBytes 1 (k.pairOf.getD 0xFF) ++ leBytes 1 k.missed ++ leBytes 4 k.freq ++ leBytes 4 k.zeta ++ leBytes 4 k.amp ++ leBytes 4 k.share ++
      leBytes 4 k.cfit ++ leBytes 4 (if k.rdFreq = 0 then f32QNaN else k.rdFreq) ++ leBytes 4 (if k.rdFreq = 0 then f32QNaN else k.rdZeta) ++
      leBytes 4 k.cv ++ leBytes 2 k.dampRun ++ leBytes 2 0 ++ (top.map (fun w => leBytes 2 w.1)).flatten ++
      (top.map (fun w => leBytes 2 w.2)).flatten) 0 64
  let rank := b.rpl.rank
  let f := match b.rpl.defRun with | some (_, f, _) => f | none => 0
  let dl := leBytes 4 epoch ++ leBytes 1 (match b.rpl.defRun with | some (t, _, _) => t | none => 0xFF) ++ leBytes 1 rank.length ++ leBytes 2 b.rpl.ranked ++
    leBytes 4 f ++ leBytes 4 0 ++ ((List.range 8).map (fun i => leBytes 4 ((rank.getD i (0xFFFF, 0)).2))).flatten ++
    ((List.range 8).map (fun i => leBytes 2 ((rank.getD i (0xFFFF, 0)).1))).flatten
  slice head 0 64 ++ ((List.range 16).map trk).flatten ++ slice dl 0 64

/-- The result block written and its item posted, if the ring is on (R172). -/
def Block.writeResult (b : Block) (epoch seq slot bad : Nat) : Block :=
  let size := (b.vis Reg.RPL_RES_SIZE).toNat % 65536
  if size = 0 then b
  else
    let head := (b.vis Reg.RPL_RES_HEAD).toNat % 65536
    let b := b.store (b.addrOf Reg.RPL_RES_BASE_LO Reg.RPL_RES_BASE_HI + head * 1152) (b.resultBlock epoch seq slot bad)
    let b := b.setVis Reg.RPL_RES_HEAD 0 0 (w32 ((head + 1) % size))
    b.push (fld (b.vis Reg.RPL_RES_QUEUE) 5 0) (2 ^ 56 + head * 2 ^ 32 + epoch) true

/-! ### Epochs (R151 to R155, R164) -/

/-- The end of WARMING at the first epoch whose fill at its boundary reached MIN_FILL (R164). -/
def Block.warmEnd (b : Block) (e : Nat) : Block :=
  if b.rpl.warming = true ∧ ((b.cn Reg.RPL_MIN_FILL % 128 * b.modalN : Nat) : Int) * 2 ^ 149 ≤ 100 * f32Val b.rpl.fillB then
    ({ b with rpl := { b.rpl with warming := false } }).event 0x0702 0xFFFF e
  else b

/-- An epoch whose results are withheld: every track keeps its values and is HOLD (R154, R155). -/
def Block.epochWithheld (b : Block) (fault : Bool) : Block :=
  match b.rpl.solving with
  | none => b
  | some (e, seq, slot, _) =>
    let b := { b with rpl := { b.rpl with solving := none, solved := none, tracks := b.rpl.tracks.map (fun (k : Nat × Track) =>
      (k.1, { k.2 with status := if k.2.status = 0 then 0 else 3, conf := 0, hist := k.2.epochPast false })) } }
    let b := if fault then (((b.count Reg.RPL_SOLVE_FAULT).irq Blk.rpl 4).event 0x0708 0xFFFF e)
      else (((b.count Reg.RPL_EPOCH_MISS).irq Blk.rpl 3).event 0x0701 0xFFFF e)
    let b := (b.warmEnd e).setDominant none
    b.writeResult e seq slot (b2n b.rpl.warming + (if fault then 8 else 4))

/-- A firing of an epoch was lost (R227): the results of that epoch are withheld, at once where its solve is under way, else at its boundary. -/
def Block.epochLost (b : Block) (e : Nat) : Block :=
  if b.rpl.solving.any (fun s => s.1 % 65536 == e) then b.epochWithheld false
  else if b.rpl.epoch % 65536 = e then { b with rpl := { b.rpl with lost := some e } }
  else b

/-- The engine's state kept for the checkpoints until the next epoch (R165). -/
def Block.ckKeep (b : Block) : Block := { b with red := { b.red with ckRpl := b.rpl } }

/-- The publication of a solved epoch by the last slice of RPL_TRACK. -/
def Block.epochPublish (b : Block) : Block :=
  match b.rpl.solving, b.rpl.solved with
  | some (e, seq, slot, _), some comps =>
    let b := { b with rpl := { b.rpl with published := e, solving := none, solved := none } }
    let b := b.warmEnd e
    let b := (b.matchTracks comps).pairTracks
    let b := (List.range 16).foldl (fun b t => if (b.track t).status = 0 then b else (b.dampStep t).foStep t) b
    let b := b.setDominant b.dominant
    let b := b.defTarget
    b.ckKeep.writeResult e seq slot (b2n b.rpl.warming)
  | _, _ => b

/-- An epoch whose last values repeat because of a ringdown (R162). -/
def Block.epochRepeated (b : Block) (e seq slot : Nat) : Block :=
  let b := { b with rpl := { b.rpl with published := e, tracks := b.rpl.tracks.map (fun (k : Nat × Track) =>
    (k.1, { k.2 with vec0 := k.2.vec, hist := k.2.epochPast false })) } }
  let b := b.warmEnd e
  b.ckKeep.writeResult e seq slot (b2n b.rpl.warming + 2)

/-- A ringdown's start: a solve under way does not go on, and its epoch repeats the last values (R162). -/
def Block.rdStart (b : Block) (tag : Nat) : Block :=
  let b := { b with rpl := { b.rpl with ringdown := some b.t7, rdTag := tag + 1 } }
  let b := match b.rpl.solving with
    | some (e, seq, slot, _) => { b with rpl := { b.rpl with solving := none, solved := none } }.epochRepeated e seq slot
    | none => b
  ((b.count Reg.RPL_RD_COUNT).irq Blk.rpl 2).event 0x0707 0xFFFF b.rpl.published 1

/-- RPL_PROJ on a modal tick: the modal coordinates, and the ringdown test on VALID tracks. -/
def Block.project (b : Block) (tag pub : Nat) : Block :=
  let xs := b.chanXs.map (fun e => (e.1, e.2.1))
  let b := (List.range 16).foldl (fun b t =>
    let k := b.track t
    let v := b.vecAt k pub
    if k.status = 0 ∨ v = [] then b
    else
      let y := vecDot v xs
      b.setTrack t { k with y := y, yTag := some tag, ySq := f32Add k.ySq (f32Mul y y), yN := k.yN + 1 }) b
  let hit := !b.rpl.warming && (List.range 16).any (fun t =>
    let k := b.track t
    k.status == 2 && k.yTag == some tag && b.rdTest k)
  if hit = false then b
  else if b.rpl.ringdown.isSome then b.count Reg.RPL_RD_IGNORED
  else b.rdStart tag

/-- The channels that an epoch's solve includes: v ≥ 0.9 × s (R151). -/
def Block.includedChans (b : Block) : List Nat := b.chanList.filter (fun i => decide (9 * f32Val b.rpl.s ≤ 10 * f32Val (b.chan i).v))

/-- A track's amplitude at an epoch's end: the RMS of its coordinates, NaN where the epoch gave none. -/
def Track.epochEnd (k : Track) : Track := { k with ampB := if k.yN = 0 then f32QNaN else f32Sqrt (f32Div k.ySq (f32Nat k.yN)), ySq := 0, yN := 0 }

/-- An epoch boundary at a modal tick (R152, R153, R162): an epoch still unpublished is missed, a ringdown's results appear, and the solve
of the epoch just ended starts on a copy of C, or the last results repeat during a ringdown. -/
def Block.epochBoundary (b : Block) (seq slot : Nat) : Block :=
  let b := if b.rpl.solving.isSome then b.epochWithheld false else b
  let b := b.rdResults
  let e := b.rpl.epoch
  let inc := b.includedChans
  let b := b.chanList.foldl (fun b i => b.setChan i { b.chan i with included := inc.contains i }) b
  let b := { b with rpl := { b.rpl with
    epoch := (e + 1) % 2 ^ 32, ticks := 0, fillB := b.rpl.s, included := inc.length
    tracks := b.rpl.tracks.map (fun (k : Nat × Track) => (k.1, k.2.epochEnd)) } }
  let lost := b.rpl.lost == some (e % 65536)
  let b := { b with rpl := { b.rpl with lost := none } }
  if b.rpl.ringdown.isSome then b.epochRepeated e seq slot
  else
    let b := { b with rpl := { b.rpl with
        copyCh := inc, copyC := (trianglePairs inc).map (fun p => (512 * p.1 + p.2, Tbl.get b.rpl.cov (512 * p.1 + p.2) 0))
        solving := some (e, seq, slot, b.t7), solved := none } }
    if lost then b.epochWithheld false else b

/-- One modal tick counted; the Bool says that its epoch ended. -/
def Block.covCount (b : Block) (seq slot : Nat) : Block × Bool :=
  let b := { b with rpl := { b.rpl with ticks := b.rpl.ticks + 1 } }
  if b.epochTicks ≤ b.rpl.ticks then (b.epochBoundary seq slot, true) else (b, false)

/-- A modal tick without its record counted, its samples held where `held`; the Bool goes on saying that an epoch ended. -/
def Block.covLack (b : Block) (ended held : Bool) (at_ : Nat × Nat) : Block × Bool :=
  let b := if held then b.covUpdate b.rpl.covX else b
  let y := b.covCount at_.1 at_.2
  (y.1, ended || y.2)

/-- The covariance for a modal tick once every RPL_COV op has run it: up to 3 lacking ticks on held samples, or the decay of a longer gap,
then its own samples, unless a ringdown suspends it; every modal tick counts for the epoch. -/
def Block.covDone (b : Block) (x : Basin) : Block × Bool :=
  let tag := x.seq % 65536
  let d := max 1 b.modalDiv
  let g := ticksBetween b.rpl.lastModal x.slot d
  let quiet := b.rpl.ringdown.isSome || b.rpl.rdTag == tag + 1
  let back (i : Nat) : Nat × Nat := ((x.seq + 2 ^ 32 - (g - i) * d) % 2 ^ 32, x.slot - (g - i) * d)
  let long := decide (3 < g)
  let b := if long then (if quiet then b else b.covGap g) else b.tickGap x.slot d g
  let n := if long then min g b.epochTicks else g
  let r := (List.range n).foldl (fun (r : Block × Bool) i => r.1.covLack r.2 (!long && !quiet) (back i)) (b, false)
  let b := r.1
  let b := if quiet then b else b.covUpdate b.chanXs
  let b := { b with rpl := { b.rpl with lastModal := some x.slot, covX := b.chanXs } }
  let y := b.covCount x.seq x.slot
  (y.1, r.2 || y.2)

/-- RPL_COV op `op` completed for a modal tick. -/
def Block.covOp (b : Block) (x : Basin) (op : Nat) : Block × Bool :=
  let tag := x.seq % 65536
  let seen := if b.rpl.covTag = some tag then b.rpl.covOps else []
  let seen := setIns seen op
  let b := { b with rpl := { b.rpl with covTag := some tag, covOps := seen } }
  let all := (b.dfe.graph.filter (fun e => e.2.lib == .rplCov)).map (·.1)
  if all.all seen.contains then b.covDone x else (b, false)

/-- The copied part of C as a full matrix. -/
def Block.copyMatrix (b : Block) : List (List Nat) :=
  b.rpl.copyCh.map (fun i => b.rpl.copyCh.map (fun j => Tbl.get b.rpl.copyC (512 * min i j + max i j) 0))

/-- The 16 components of largest eigenvalue: each eigenvector over the enabled channels, 0 where excluded, and its share of the trace (R151,
R153, R158). -/
def Block.components (b : Block) : List (List (Nat × Nat) × Nat) :=
  let is := b.rpl.copyCh
  let trace := f32Sum (is.map (fun i => Tbl.get b.rpl.copyC (512 * i + i) 0))
  (eigenPairs b.copyMatrix 16).map (fun r =>
    (b.chanList.map (fun i => (i, match (is.zip r.1).find? (fun e => e.1 == i) with | some e => e.2 | none => 0)), f32Div r.2 trace))

/-- The accelerator's end (R153, R155): a fault withholds the epoch; otherwise the components of the 16 largest eigenvalues are ready for
RPL_TRACK. -/
def Block.solveDone (b : Block) (fault : Bool) : Block :=
  match b.rpl.solving with
  | none => b
  | some (_, _, _, t) =>
    if fault then b.epochWithheld true
    else
      let comps := b.components
      let us := (b.t7 - t) / 1000
      ({ b with rpl := { b.rpl with solved := some comps, solveUs := min 65535 us } })

/-! ### Locating forced oscillations (R169, R170) -/

/-- The enabled DEF branches. -/
def Block.defList (b : Block) : List Nat := (b.listed Reg.RPL_DEF_CFG).filter (fun i => b.cb Reg.RPL_DEF_CFG i 31)

/-- The gather started at a modal tick's weir B, where branches are defined. -/
def Block.gatherStart (b : Block) (p : Nat) (x : Basin) : Block :=
  if b.isModal x = true ∧ b.defList ≠ [] then { b with rpl := { b.rpl with gather := some (x.seq, p) } } else b

/-- The element of a record: phasor i's parts or analog i, as float32 patterns. -/
def Block.recWord (b : Block) (p c off : Nat) : Nat := b.loadN (b.recordAddr 0 p c + 16 + off) 4

/-- A phasor of a record, or with SEQ the positive sequence of three, in 2⁻²⁵⁶; none where an element is no finite number. -/
def Block.defPhasor (b : Block) (p c k : Nat) (seq : Bool) : Option (Int × Int) :=
  let e := (List.range (if seq then 3 else 1)).map (fun i => (b.recWord p c (8 * (k + i)), b.recWord p c (8 * (k + i) + 4)))
  if e.any (fun x => f32NaN x.1 || f32NaN x.2 || infPhasor x) then none
  else match e.map qPhasor with
    | [x] => some x
    | [x, y, z] => some (seqPhasor x y z)
    | _ => none

/-- P and Q of a branch as float32: V × conj(I), three times that of the positive sequence, or the analogs, divided by S_base. -/
def Block.defPower (b : Block) (p c i : Nat) (v : Int × Int) : Option (Nat × Nat) :=
  let s := (b.cfg Reg.RPL_DEF_SEL i).toNat
  let base := qOfF32 (b.cn Reg.RPL_DEF_SBASE i)
  let seq := b.cb Reg.RPL_DEF_CFG i 29
  if b.cb Reg.RPL_DEF_CFG i 30 then
    let (ph, _, _, _) := b.strFmt c
    let a (n : Nat) : Nat := b.recWord p c (8 * ph + 8 + 4 * n)
    let pw := a (bits s 15 8)
    let qw := a (bits s 7 0)
    if f32NaN pw || f32NaN qw || f32Inf pw || f32Inf qw then none
    else some (f32OfQ (qDiv (qOfF32 pw) base), f32OfQ (qDiv (qOfF32 qw) base))
  else
    let k : Int := if seq then 3 else 1
    (b.defPhasor p c (bits s 23 16) seq).map (fun e =>
      (f32OfQ (k * qDiv (qMul v.1 e.1 + qMul v.2 e.2) base), f32OfQ (k * qDiv (qMul v.2 e.1 - qMul v.1 e.2) base)))

/-- P, Q, the angle against REF_CTX in 2⁻³² turns and ln|V| of a branch from its full record; none where its context is unmarked at weir B,
or a value has none. -/
def Block.defValues (b : Block) (p : Nat) (x : Basin) (i : Nat) : Option (Nat × Nat × Int × Nat) :=
  let c := b.cf Reg.RPL_DEF_CFG i 12 0
  if x.bmpB.getLsbD c = false then none
  else
    let v := b.defPhasor p c (bits (b.cfg Reg.RPL_DEF_SEL i).toNat 31 24) (b.cb Reg.RPL_DEF_CFG i 29)
    match v, b.feat x (b.cf Reg.RPL_REF_CTX 0 12 0) with
    | some v, some r =>
      if v = (0, 0) ∨ r.angOk = false then none
      else
        let m := qMul v.1 v.1 + qMul v.2 v.2
        (b.defPower p c i v).map (fun s => (s.1, s.2, wrapAng ((angUnits (qAtan2 v.2 v.1) : Int) - r.ang), f32OfQ (qLn m / 2)))
    | _, _ => none

/-- The gather completes (R169): the values of each branch are in shared scratch. -/
def Block.gatherDone (b : Block) : Block :=
  match b.rpl.gather with
  | none => b
  | some (seq, p) =>
    match (b.ring 0).seqPos seq with
    | none => { b with rpl := { b.rpl with gather := none } }
    | some (_, x) =>
      let vals := b.defList.filterMap (fun i => (b.defValues p x i).map (fun v => (i, v)))
      { b with rpl := { b.rpl with gather := none, gathered := vals.foldl (fun t e => Tbl.ins t e.1 e.2) [] } }

/-- One sample of a branch around a frequency: its values filtered, and the energy of the step (R170). -/
def DefBranch.sample (d : DefBranch) (rate f : Nat) (v : Nat × Nat × Int × Nat) : DefBranch :=
  let u := match d.ang with | some p => unwrapAng p v.2.2.1 | none => v.2.2.1
  let fs := bandPass (qOfF32 f * 9 / 10) (qOfF32 f * 11 / 10) rate
  let run (k x : Nat) : Nat × List Nat := cascade fs (d.filt.getD k []) x
  let p := run 0 v.1
  let q := run 1 v.2.1
  let a := run 2 (angRad u)
  let l := run 3 v.2.2.2
  let w := match d.prev with
    | some o => f32Add (f32Add d.w (f32Mul p.1 (f32Sub a.1 o.1))) (f32Mul q.1 (f32Sub l.1 o.2))
    | none => d.w
  { d with filt := [p.2, q.2, a.2, l.2], ang := some u, prev := some (a.1, l.1), w := w, samples := ((w, true) :: d.samples).take (30 * rate) }

/-- RPL_DEF on the branches of its block. -/
def Block.defStep (b : Block) (is : List Nat) : Block :=
  match b.rpl.defRun with
  | none => b
  | some (_, f, _) =>
    is.foldl (fun b i =>
      if b.cb Reg.RPL_DEF_CFG i 31 = false then b
      else
        let d := Tbl.get b.rpl.defB i DefBranch.reset
        let y : DefBranch := match (b.rpl.gathered.find? (fun e => e.1 == i)).map (·.2) with
          | none => { d with samples := ((d.w, false) :: d.samples).take (30 * b.modalRate) }
          | some v => d.sample b.modalRate f v
        { b with rpl := { b.rpl with defB := Tbl.put b.rpl.defB i y DefBranch.reset } }) b

/-- RPL_DEF_RANK: the slopes, and from 10 s after the start the 8 largest (R170). -/
def Block.defRank (b : Block) : Block :=
  match b.rpl.defRun with
  | none => b
  | some (_, _, start) =>
    let b := b.defList.foldl (fun b i =>
      let d := Tbl.get b.rpl.defB i DefBranch.reset
      let bad := (d.samples.filter (fun e => !e.2)).length
      let s := if d.samples.length < 5 * bad then f32QNaN else lsSlope b.modalRate (d.samples.map (·.1))
      { b with rpl := { b.rpl with defB := Tbl.put b.rpl.defB i { d with slope := s } DefBranch.reset } }) b
    let ok := (b.defList.map (fun i => (i, (Tbl.get b.rpl.defB i DefBranch.reset).slope))).filter (fun e => !f32NaN e.2)
    if b.t7 < start + 10 * nsPerS then b
    else
      let before (x y : Nat × Nat) : Bool := decide (f32Val y.2 < f32Val x.2) || (f32Val y.2 == f32Val x.2 && decide (x.1 < y.1))
      let rank := (List.range 8).filterMap (fun n => ok.find? (fun e => (ok.filter (fun y => before y e)).length == n))
      { b with rpl := { b.rpl with rank := rank, ranked := ok.length } }

/-! ### Hand-over (R144, R148, R152, R173) -/

/-- A band definition's rule (R144). -/
def Block.bandOk (b : Block) (n : Nat) : Bool :=
  let w := b.cfg Reg.RPL_BAND 0 n
  let lo := fld w 15 0
  let hi := fld w 31 16
  let rate := b.bandRate n
  decide (lo < hi) && decide (rate ≤ 25 * lo) && decide (hi ≤ 40 * rate)

/-- Whether a context reports in every modal tick (R145). -/
def Block.modalCtx (b : Block) (c : Nat) : Bool :=
  b.strRing c == 0 && (b.cb Reg.STR_CTX_CTRL c 24 || b.modalDiv % max 1 (b.cf Reg.STR_CTX_CTRL c 23 16) == 0)

/-- The check of a committed set after the copy. -/
def Block.rplSetOk (b : Block) (key : Nat) : Bool :=
  match keySpace key with
  | 0 => (List.range 4).all (fun n => !b.bandOn (keyInst key) n || (if b.bandRate n = b.modalRate then b.modalCtx (keyInst key)
      else b.strRing (keyInst key) == 0 && (b.cb Reg.STR_CTX_CTRL (keyInst key) 24 || b.cf Reg.STR_CTX_CTRL (keyInst key) 23 16 == 1)))
  | 1 => (b.chanList == [] || b.modalEn) &&
      (!b.cb Reg.RPL_CH_CFG (keyInst key) 31 || (b.modalCtx (b.cf Reg.RPL_CH_CFG (keyInst key) 12 0) && decide (b.cf Reg.RPL_CH_CFG (keyInst key) 18 16 ≤ 2)))
  | 15 =>
    (List.range 4).all b.bandOk && decide (b.modalRate ≤ 4 * b.epochTicks) && decide (b.epochTicks ≤ 5 * b.modalRate) &&
      decide (b.cn Reg.RPL_MODAL_LO < b.cn Reg.RPL_MODAL_HI) && decide (b.modalRate ≤ 25 * b.cn Reg.RPL_MODAL_LO) &&
      decide (b.cn Reg.RPL_MODAL_HI ≤ 40 * b.modalRate)
  | _ => true

/-- Whether a set hands over at a basin open: context space, bands and BAND_TAU. -/
def Rpl.atOpen (key : Nat) : Bool := keySpace key == 0 || (keySpace key == 15 && decide (0x434 ≤ keyOff key) && decide (keyOff key ≤ 0x444))

/-- RPL's hand-over, at a main-ring basin open or at an epoch boundary; changed bands and sources reset their detectors and channels, a
change of the modal band resets the modal state. -/
def Block.rplHandover (b : Block) (open_ : Bool) : Block :=
  let mine (k : Nat) : Bool := keyBlk k == Blk.rpl && Rpl.atOpen k == open_
  let sets := b.comSets mine
  if sets = [] then b
  else
    let old := b
    let b := b.handover mine (fun k => keySpace k * 16384 + keyInst k) (fun b sets => sets.all (fun e => b.rplSetOk e.1))
      (fun b _ => (b.irq Blk.rpl 5).event 0x0709 0xFFFF b.rpl.published)
    let b := (List.range 4).foldl (fun b n =>
      if old.cn Reg.RPL_BAND 0 n = b.cn Reg.RPL_BAND 0 n then b
      else { b with rpl := { b.rpl with bands := b.rpl.bands.filter (fun e => e.1 % 4 != n) } }) b
    let b := sets.foldl (fun b e =>
      let c := keyInst e.1
      if keySpace e.1 = 0 then
        (List.range 4).foldl (fun b n =>
          if old.bandOn c n = b.bandOn c n ∧ old.cf Reg.RPL_CTX_BAND_CFG c (18 + 4 * n) (16 + 4 * n) = b.cf Reg.RPL_CTX_BAND_CFG c (18 + 4 * n) (16 + 4 * n)
          then b else b.setBand c n Band.reset) b
      else if keySpace e.1 = 1 ∧ old.cn Reg.RPL_CH_CFG c ≠ b.cn Reg.RPL_CH_CFG c then
        b.setChan c { Chan.reset with v := (b.chan c).v, included := (b.chan c).included }
      else b) b
    if old.cn Reg.RPL_MODAL_LO = b.cn Reg.RPL_MODAL_LO ∧ old.cn Reg.RPL_MODAL_HI = b.cn Reg.RPL_MODAL_HI then b else b.modalReset

/-! ### What a library op of the engine does when its firing completes -/

/-- The effect of an RPL op's completed firing for a basin, dispatched when epoch `pub` was the last published; the Bool says that an epoch
boundary fell. The modal ops do nothing while no modal analysis runs (R148). -/
def Block.rplFire (b : Block) (op : Nat) (d : OpDef) (pub : Nat) (x : Option Basin) (last : Bool) : Block × Bool :=
  match d.lib, x with
  | .rplAaf, some x => (d.block.foldl (fun b e => b.aafTick x e) b, false)
  | .rplBand, some x => (d.block.foldl (fun b c => (List.range 4).foldl (fun b n => b.bandTick x c n) b) b, false)
  | .rplMpref, some x => (if b.modalEn then d.block.foldl (fun b i => b.chanTick x i) b else b, false)
  | .rplProj, some x => (if b.modalEn && b.isModal x then b.project (x.seq % 65536) pub else b, false)
  | .rplCov, some x => if b.modalEn && b.isModal x then b.covOp x op else (b, false)
  | .rplAr, some x => (if b.modalEn && b.isModal x then d.block.foldl (fun b t => b.arTrack x t) b else b, false)
  | .rplTrack, _ => (if last then b.epochPublish else b, false)
  | .rplDef, _ => (b.defStep d.block, false)
  | .rplDefRank, _ => (if last then b.defRank else b, false)
  | _, _ => (b, false)

end Sys2Proof.Machine
end

