-- ==== Sys2Proof/Machine/DfeOps.lean ====
section
/-! DEFINITION. The fabric at work: firings and their effects, the close of a tag and its expiry, generations, injection,
cores (R206 to R232, R22 to R24). -/

namespace Sys2Proof.Machine

/-! ### Tags -/

/-- Whether a tag is expired for an op: a later basin of its ring has had its alarm close, though its expiry may still be due (R23). -/
def Block.tagOver (b : Block) (d : OpDef) (tag : Nat) : Bool :=
  !d.epoch && (let n := Tbl.get b.dfe.closedSeq d.ring 0
    n == 0 || (n - 1) % 65536 != tag || (Tbl.get b.dfe.closedTag d.ring none).isSome)

/-- The basin that a tick tag names: the position of its ring with that sequence number. -/
def Block.tagBasin (b : Block) (r tag : Nat) : Option Basin :=
  ((b.ring r).pos.find? (fun e => e.2.seq % 65536 == tag && e.2.st != .free)).map (·.2)

/-! ### Emissions -/

/-- The payload of a REF token (R206). -/
def refPayload (a n : Nat) : List Byte := leBytes 8 a ++ leBytes 4 n

/-- The range in shared scratch of an op's output or half of a state area. -/
def opRange (op port half : Nat) : Nat × Nat :=
  let s := Config.opSpan op port
  let n := 1 + s.2 % 1048576
  (0x80000000 + s.1 % (0xC00000 - 2 * n) + half * n, n)

/-- The REF payload of a half of a carry port's state area (R217). -/
def statePayload (op port half : Nat) : List Byte :=
  let x := opRange op (4 + port) half
  refPayload x.1 x.2

/-- Which half a carry token refers to. -/
def stateHalf (op port : Nat) (pay : List Byte) : Nat := if leAt pay 0 8 = (opRange op (4 + port) 0).1 then 0 else 1

/-- The class and the ring of an op, for the tokens it receives (Table 8.1). -/
def Block.opClass (b : Block) (op : Nat) : Bool := match b.opDef op with | some d => d.epoch | none => false
def Block.opRing (b : Block) (op : Nat) : Nat := match b.opDef op with | some d => d.ring | none => 0

/-- Whether a destination is a carry port of the op itself (R217). -/
def Firing.isCarry (f : Firing) (d : OpDef) (s : Dest) : Bool :=
  match s with
  | .op o p => o == f.op && d.carry.contains p
  | _ => false

/-- The carry token that a firing emits to a port of its op: the next tag, the half that its consumed token does not refer to. -/
def Block.carryToken (b : Block) (f : Firing) (d : OpDef) (p : Nat) : Token :=
  let old := (f.toks.find? (fun t => t.port == p)).elim [] (·.payload)
  ⟨f.op, p, (f.tag + 1) % 65536, d.ring, b.dfe.gen, d.epoch, false, 0, 1, statePayload f.op p (1 - stateHalf f.op p old), 0⟩

/-- A firing's emissions in their order: the carry tokens and with them the commit of the state, then the outputs in order of port and
destination. An INCOMPLETE firing commits no state. `pay` gives the kind and payload of an output port. -/
def Block.emissions (b : Block) (f : Firing) (d : OpDef) (inc : Bool) (pay : Nat → Nat × List Byte) : List Emit :=
  let outs := ((List.range d.outs.length).zip d.outs).flatMap (fun e => (e.2.filter (fun s => !f.isCarry d s)).map (fun s =>
    match s with
    | .op o p => Emit.tok ⟨o, p, f.tag, b.opRing o, b.dfe.gen, b.opClass o, inc, 0, if inc then 0 else (pay e.1).1, if inc then [] else (pay e.1).2, 0⟩
    | s => Emit.sink s inc (leAt (pay e.1).2 0 4)))
  let carry := d.outs.flatten.filterMap (fun s => match s with
    | .op o p => if f.isCarry d (.op o p) then some (Emit.tok (b.carryToken f d p)) else none
    | _ => none)
  if inc then outs else carry ++ [.commit] ++ outs

/-- How many tokens and sink deliveries some emissions are. -/
def emitCount (l : List Emit) : Nat := (l.filter (fun e => e != .commit)).length

/-- The item of a HOST_OUT sink (R224). -/
def hostOutItem (op : Nat) (inc : Bool) (addr : Nat) : Nat := 2 * 2 ^ 56 + op * 2 ^ 44 + b2n inc * 2 ^ 43 + addr % 2 ^ 40

/-- A HOST_OUT post: an item that the overrun rule loses is counted; a disabled queue knows no overrun (R350). -/
def Block.hostOutPost (b : Block) (q item : Nat) : Block :=
  let x := b.queue q
  let full := b.qen q && (x.discarding || x.breakPending || decide (b.qcap q ≤ x.items.length))
  let b := b.push q item true
  if full then b.count Reg.DFE_HOST_OUT_LOST else b

/-- The address a firing's REF token carries, 0 where it has none. -/
def Firing.refAddr (f : Firing) : Nat :=
  match f.toks.find? (fun t => t.kind == 1 && !t.payload.isEmpty) with
  | some t => leAt t.payload 0 5
  | none => 0

/-- The data a firing's inputs carry, its state apart. -/
def Firing.data (f : Firing) (d : OpDef) : List Byte := (f.toks.filter (fun t => t.kind != 2 && !d.carry.contains t.port)).flatMap (·.payload)

/-- What a firing's result is to one sink: published where complete, noted as INCOMPLETE where not (R22, R227). -/
def Block.toSink (b : Block) (f : Firing) (d : OpDef) (s : Dest) (inc : Bool) (value : Nat) : Block :=
  match s with
  | .op _ _ => b
  | .alm => if inc then b else b.almPublish d.ring 0 f.op f.tag
  | .rplState => b
  | .outAnalytics i =>
    if inc then b
    else { b with dfe := { b.dfe with analytics := Tbl.ins b.dfe.analytics (1024 * i + f.tag % 1024) (f.tag, value) } }
  | .cmpAnnot =>
    { b with dfe := { b.dfe with annot := Tbl.ins b.dfe.annot (1024 * d.ring + f.tag % 1024) (f.tag, inc, if inc then [] else (f.data d).take 63) } }
  | .hostOut q => b.hostOutPost q (hostOutItem f.op inc f.refAddr)

/-! ### Effects of library ops -/

/-- The 16 parameter words of an op. -/
def Block.opParams (b : Block) (op : Nat) : List Nat := (List.range 16).map (fun k => b.cn Reg.DFE_OP_PARAM op k)

/-- The library's reading of them. -/
def Block.libSettings (b : Block) (op : Nat) (d : OpDef) : LibSettings := Config.libSettings d.libId (b.opParams op)

/-- A float32 vector as bytes and back. -/
def vecBytes (xs : List Nat) : List Byte := xs.flatMap (leBytes 4)
def vecOf (bs : List Byte) : List Nat := (List.range (bs.length / 4)).map (fun i => leAt bs (4 * i) 4)

/-- One field of a feature record as float32 for VEC_GATHER: the sources 0 to 3 of Table 7.4, 4 the angle in radians, 5 STATUS, 6 the digital
word; NaN where the sample or the field is missing. -/
def gathered (f : Option Feat) (field : Nat) : Nat :=
  match f with
  | none => f32QNaN
  | some f =>
    match field with
    | 4 => if f.angOk then angRad (wrapAng f.ang) else f32QNaN
    | 5 => f32Nat f.st
    | 6 => f32Nat f.dig
    | n => (f.value n).getD f32QNaN

/-- The scalar of an input port. -/
def Firing.scalar (f : Firing) (p : Nat) : Nat := (f.toks.find? (fun t => t.port == p)).elim f32QNaN (fun t => leAt t.payload 0 4)

/-- The constant of a step. -/
def mapValue (f : Firing) : MapArg → Nat
  | .const v => v
  | .port p => f.scalar p

/-- One step of VEC_MAP on an element. -/
def mapStep (f : Firing) (x : Nat) : MapStep → Nat
  | .scale a => f32Mul x (mapValue f a)
  | .offset a => f32Add x (mapValue f a)
  | .abs => x % 2147483648
  | .sqrt => f32Sqrt x
  | .clamp lo hi => f32Min (f32Max x (mapValue f lo)) (mapValue f hi)

/-- The index of the extreme element of a vector, the first among equals. -/
def argBest (before : Nat → Nat → Bool) (xs : List Nat) : Nat :=
  ((List.range xs.length).foldl (fun a i => if before (xs.getD i 0) (xs.getD a 0) then i else a) 0)

/-- What VEC_REDUCE makes of a vector; one without elements gives NaN. -/
def reduceVec (xs : List Nat) (r : Reduction) : Nat :=
  match xs with
  | [] => f32QNaN
  | x :: ys =>
    match r with
    | .sum => f32Sum xs
    | .mean => f32Div (f32Sum xs) (f32Nat xs.length)
    | .min => ys.foldl f32Min x
    | .max => ys.foldl f32Max x
    | .argmin => f32Nat (argBest f32Lt xs)
    | .argmax => f32Nat (argBest (fun a c => f32Lt c a) xs)

/-- A comparison of two float32 numbers; a NaN is unequal to all. -/
def compareF32 (c : Comparison) (a e : Nat) : Bool :=
  match c with
  | .gt => f32Lt e a
  | .ge => f32Lt e a || f32Eq e a
  | .lt => f32Lt a e
  | .le => f32Lt a e || f32Eq a e
  | .eq => f32Eq a e
  | .ne => !f32Eq a e

/-- The inputs of an op that are neither CLOSE nor carry, in order of port. -/
def Firing.inputs (f : Firing) (d : OpDef) : List Token :=
  ((List.range 4).filterMap (fun p => f.toks.find? (fun t => t.port == p))).filter (fun t => t.kind != 2 && !d.carry.contains t.port)

/-- What a REF token refers to, read through the core's data cache; no bytes without one. -/
def Block.loadRef (b : Block) (c : Nat) : Option (Nat × Nat) → List Byte × Block
  | some r => b.coreLoad c r.1 r.2
  | none => ([], b)

/-- The vector that the firing's first REF input refers to. -/
def Block.inVector (b : Block) (c : Nat) (f : Firing) (d : OpDef) : List Nat × Block :=
  let r := b.loadRef c ((f.inputs d).findSome? Token.ref)
  (vecOf r.1, r.2)

/-- BIQUAD on a vector: each element has its own sections, and their state words stand element by element in the state area; an area that its
op has not written yet is all zero. The result's elements and the state after them. -/
def biquadVector (ss : List Biquad) (xs st : List Nat) : List (Nat × List Nat) :=
  (List.range xs.length).map (fun i => cascade ss ((List.range (2 * ss.length)).map (fun k => st.getD (2 * ss.length * i + k) 0)) (xs.getD i 0))

/-- A vector written by a core where its op's output port puts it, with the REF payload that names it. -/
def Block.outVector (b : Block) (c op port : Nat) (xs : List Nat) : (Nat × List Byte) × Block :=
  let a := (opRange op port 0).1
  ((1, refPayload a (max 1 (4 * xs.length))), b.coreStore c a (vecBytes xs))

/-- SYSFREQ's two numbers from the features of its block: the system frequency, and its ROCOF on output port 1. -/
def Block.sysfreq (b : Block) (d : OpDef) (x : Option Basin) (port : Nat) : Nat :=
  let fs := d.block.map (fun c => match x.bind (fun x => b.feat x c) with
    | some f => f.fdev + 65536 * f.rocof + 2 ^ 32 * f.mag + 2 ^ 48 * f.st
    | none => 2 ^ 64)
  (Config.num .frequency ((if port = 1 then 1 else 0) :: fs)).toNat

/-- What a complete firing gives each output port, as KIND and payload, with what its core reads and writes for it (Table 8.4). What the spec
does not format, the tokens between the ops of the ripple engine, carries a free value. -/
def Block.results (b : Block) (c : Nat) (f : Firing) (d : OpDef) : (Nat → Nat × List Byte) × Block :=
  let x := b.tagBasin d.ring f.tag
  let s := b.libSettings f.op d
  let ins := f.inputs d
  match d.lib with
  | .hostIn => (fun _ => (1, f.data d), b)
  | .namedOut => (fun _ => (0, leBytes 4 (leAt (f.data d) 0 4)), b)
  | .sysfreq => (fun p => (0, leBytes 4 (b.sysfreq d x p)), b)
  | .scalarCmp =>
    let u := (ins.head?).elim f32QNaN (fun t => leAt t.payload 0 4)
    let v := ((ins.drop 1).head?).elim f32QNaN (fun t => leAt t.payload 0 4)
    (fun p => (0, leBytes 4 (if p = 0 then (if compareF32 s.cmp u v then f32One else 0) else f32Sub u v)), b)
  | .vecGather =>
    let r := b.outVector c f.op 0 (d.block.map (fun c => gathered (x.bind (fun x => b.feat x c)) s.field))
    (fun _ => r.1, r.2)
  | .vecMap =>
    let v := b.inVector c f d
    let r := v.2.outVector c f.op 0 (v.1.map (fun e => s.steps.foldl (fun e k => mapStep f e k) e))
    (fun _ => r.1, r.2)
  | .vecReduce =>
    let v := b.inVector c f d
    (fun _ => (0, leBytes 4 (reduceVec v.1 s.reduce)), v.2)
  | .biquad =>
    let v := b.inVector c f d
    let p := d.carry.headD 3
    let st := v.2.loadRef c ((f.toks.find? (fun t => t.port == p)).bind Token.ref)
    let ys := biquadVector (s.sections.map (fun k => ⟨k.1, k.2.1, k.2.2.1, k.2.2.2.1, k.2.2.2.2⟩)) v.1 (vecOf st.1)
    let dst := opRange f.op (4 + p) (1 - stateHalf f.op p ((f.toks.find? (fun t => t.port == p)).elim [] (·.payload)))
    let b := st.2.coreStore c dst.1 ((ys.flatMap (fun y => vecBytes y.2)).take dst.2)
    let r := b.outVector c f.op 0 (ys.map (·.1))
    (fun _ => r.1, r.2)
  | .rplBand => (fun i => (1, refPayload (opRange f.op i 0).1 (max 1 (16 * d.block.length))), b)
  | _ =>
    let q := b.draw
    (fun i => (0, leBytes 8 (q.1 + i)), q.2)

/-- What a complete firing does besides emitting: the detectors of THR_EVAL and PAIR_EVAL, the ripple engine's ops. The Bool
says that an epoch ended. -/
def Block.effect (b : Block) (f : Firing) (d : OpDef) (last : Bool) : Block × Bool :=
  let x := b.tagBasin d.ring f.tag
  match d.lib, x with
  | .thrEval, some x => (d.block.foldl (fun b c => (List.range 4).foldl (fun b t => b.thrEval x c t) b) b, false)
  | .pairEval, some x => (d.block.foldl (fun b k => b.pairEval x d.ring k) b, false)
  | _, _ => b.rplFire f.op d f.epoch x last

/-- Whether an input of a firing is INCOMPLETE or references poisoned memory (R227, Table 13.2). -/
def Block.badInput (b : Block) (f : Firing) : Bool :=
  f.toks.any (fun t => t.inc || (t.kind == 1 && !t.payload.isEmpty && b.poisonedRange (leAt t.payload 0 5) (leAt t.payload 8 4)))

/-! ### Hand-over of parameters (R232) -/

/-- The ring or class on which an op's parameters hand over: 0 main, 1 slow, 2 the epochs. -/
def Block.opTurn (b : Block) (op : Nat) : Nat :=
  match b.opDef op with
  | some d => if d.epoch then 2 else d.ring
  | none => 0

/-- The tag a hand-over of a turn concerns: the ring's newest closed basin, or the epoch. -/
def Block.turnTag (b : Block) (turn : Nat) : Nat :=
  if turn = 2 then b.rpl.epoch % 65536 else (Tbl.get b.dfe.closedSeq turn 0 + 65535) % 65536

def Block.opSetOk (b : Block) (op : Nat) : Bool :=
  match b.opDef op with
  | some d => Config.opParamOk d.libId (b.opParams op)
  | none => true

/-- Close of an open run of missed basins: DEADLINE_RECOVERED with how many there were (Table 1.3) and the tag concerned. -/
def Block.missEnd (b : Block) (r tag : Nat) : Block :=
  let x := b.ring r
  if x.missRun = 0 then b
  else (b.setRing r { x with missRun := 0, missFirst := 0 }).event 0x0A11 0xFFFF x.missRun (genTag b.dfe.gen tag)

/-- The close by a restart or a new generation: the tag is that of the last missed basin. -/
def Block.missClose (b : Block) (r : Nat) : Block := b.missEnd r ((b.ring r).missFirst + (b.ring r).missRun - 1)

/-- The increment of the generation: the open miss runs are closed before it, and stalled emissions of the old generation
are discarded and counted, which releases their cores (R225). -/
def Block.newGen (b : Block) : Block :=
  let b := ((b.missClose 0).missClose 1).genChange
  (List.range 48).foldl (fun b c =>
    let x := b.core c
    if x.held = [] then b else (b.count Reg.DFE_STALE_GEN 0 0 (emitCount x.held)).coreFree c) b

/-- A hand-over: the parameters of the ops of a turn, and the global registers where `glob`. -/
def Block.dfeHandover (b : Block) (turn : Nat) (glob : Bool) : Block :=
  let mine (k : Nat) : Bool := keyBlk k == Blk.dfe && (if keySpace k == 1 then b.opTurn (keyInst k) == turn else glob)
  let sets := b.comSets mine
  if sets = [] then b
  else
    let before := b.regs.act
    let b := b.handover mine (fun k => if keySpace k = 1 then keyInst k else 4096)
      (fun b sets => sets.all (fun e => keySpace e.1 != 1 || b.opSetOk (keyInst e.1)))
      (fun b _ => (b.irq Blk.dfe 6).event 0x0A08 0xFFFF b.dfe.gen (b.turnTag turn))
    let structural := sets.any (fun e => keySpace e.1 == 1 && Tbl.get before e.1 (Reg.rstOf e.1) != Tbl.get b.regs.act e.1 (Reg.rstOf e.1) &&
      (match b.opDef (keyInst e.1) with
       | some d => Config.opStructural d.libId ((keyOff e.1 - 0x80) / 4)
       | none => false))
    if structural then b.newGen else b

/-! ### The alarm close in the fabric (R207, R217, R218, R232) -/

/-- The payload of a CLOSE token. -/
def Basin.closePayload (x : Basin) : List Byte :=
  leBytes 4 x.seq ++ leBytes 5 (x.soc * 256 + x.k) ++ leBytes 1 x.causeA ++ leBytes 2 x.arrivedA ++ leBytes 2 (popcount x.expected) ++ leBytes 2 0

/-- A carry port with no token waiting starts from the last committed half of its state area (R217); its token is of class B. -/
def Block.seedCarry (b : Block) (r tag : Nat) : Block :=
  b.dfe.graph.foldl (fun b e =>
    if b.tickOp r e.1 = false then b
    else e.2.carry.foldl (fun b p =>
      let mine (t : Token) : Bool := t.op == e.1 && t.port == p
      if b.dfe.store.any mine || b.dfe.engHeld.any (fun h => mine h.2) then b
      else b.offerToken 1 ⟨e.1, p, tag, r, b.dfe.gen, false, false, 0, 1, statePayload e.1 p (Tbl.get b.dfe.halves (4 * e.1 + p) 0), 0⟩) b) b

/-- The port of the CLOSE token: the lowest connected input that is no carry port. -/
def closePortOf (d : OpDef) : Nat := (d.ins.filter (fun p => !d.carry.contains p)).foldl min 3

/-- The CLOSE tokens of a basin to every op wired to the close source of its ring, after the hand-over; ALM and ISL receive
the close with them. -/
def Block.closeStart (b : Block) (r : Nat) (x : Basin) : Block :=
  let tag := x.seq % 65536
  let b := { b with dfe := { b.dfe with closedSeq := Tbl.ins b.dfe.closedSeq r (x.seq + 1), sluiceSeen := false } }
  let b := b.dfeHandover r (r == 0 || !(b.ring 0).run)
  let b := if r = 0 then b.rejoinCores else b
  let b := b.seedCarry r tag
  let b := b.dfe.graph.foldl (fun b e =>
    if e.2.close = true ∧ e.2.ring = r then b.offerToken 0 ⟨e.1, (closePortOf e.2), tag, r, b.dfe.gen, e.2.epoch, false, 0, 2, x.closePayload, 0⟩
    else b) b
  let b := b.almClose r x.seq
  if r = 0 then b.islClose x.seq else b

/-! ### Expiry (R22 to R24, R218) -/

/-- The tokens of a firing that carry state. -/
def Firing.carries (f : Firing) (d : OpDef) : List Token := f.toks.filter (fun t => d.carry.contains t.port)

/-- A waiting firing removed at its tag's expiry: its state goes on to the next tag, its other tokens are counted. -/
def Block.expireQueued (b : Block) (f : Firing) : Block :=
  match b.opDef f.op with
  | none => b
  | some d => (b.carryOn f).count Reg.DFE_EXPIRED_TOKENS 0 0 (f.toks.length - (f.carries d).length)

/-- The carry ports whose tokens some emissions still hold. -/
def Firing.carryLeft (f : Firing) (d : OpDef) (l : List Emit) : List Nat :=
  l.filterMap (fun e => match e with
    | .tok t => if f.isCarry d (.op t.op t.port) && t.tag != f.tag then some t.port else none
    | _ => none)

/-- A running firing at its tag's expiry: it runs on, but nothing it emits counts; a stalled emission is discarded, which
releases the core; carry tokens already accepted stand. -/
def Block.expireRunning (b : Block) (c : Nat) (f : Firing) : Block :=
  let x := b.core c
  if x.held = [] then (b.setCore c { x with running := some { f with dead := true } }).carryOn f
  else
    let b := b.count Reg.DFE_EXPIRED_TOKENS 0 0 (emitCount x.held)
    match b.opDef f.op with
    | none => b.coreFree c
    | some d => (b.carryPorts f (f.carryLeft d x.held)).coreFree c

/-- A missed deadline: counted; the first of a run is reported (Table 1.3). -/
def Block.missed (b : Block) (r seq : Nat) : Block :=
  let x := b.ring r
  let b := (b.count Reg.DFE_DEADLINE_MISS).irq Blk.dfe 0
  let b := if x.missRun = 0 then b.event 0x0A10 0xFFFF seq (genTag b.dfe.gen seq) else b
  b.setRing r { x with missRun := x.missRun + 1, missFirst := if x.missRun = 0 then seq else x.missFirst }

/-- The run of missed basins closes at the first basin whose tick-class results are all published in time (Table 1.3). -/
def Block.missSettle (b : Block) (r : Nat) : Block :=
  let n := Tbl.get b.dfe.closedSeq r 0
  if n = 0 ∨ (b.ring r).missRun = 0 ∨ (Tbl.get b.dfe.closedTag r none).isSome = true ∨ b.tagLeft r (n - 1) = true then b
  else b.missEnd r (n - 1)

def Block.missSettled (b : Block) : Block := (b.missSettle 0).missSettle 1

/-- The expiry of a basin's tick tag. A carry token that waits is moved to the next tag, in the store or where the dispatcher holds it (R218). -/
def Block.expireTag (b : Block) (r seq : Nat) : Block :=
  let b := b.coresNow
  let tag := seq % 65536
  let mine (op t : Nat) : Bool := b.mineOf r seq op t
  let own (t : Token) : Bool := !t.epoch && t.ring == r && t.tag == tag
  let isCarry (t : Token) : Bool := match b.opDef t.op with | some d => d.carry.contains t.port | none => false
  let next (t : Token) : Token := { t with tag := (tag + 1) % 65536, gap := min 3 (t.gap + 1) }
  let toks := b.dfe.store.filter own
  let held := b.dfe.engHeld.filter (fun e => own e.2 && !isCarry e.2)
  let waits (f : Firing) : Bool := mine f.op f.tag
  let queued := b.dfe.back.filter waits ++ (List.range 48).flatMap (fun c => (b.core c).queue.filter waits)
  let running := (List.range 48).filterMap (fun c => match (b.core c).running with
    | some f => if mine f.op f.tag && !f.dead then some (c, f) else none
    | none => none)
  let miss := b.dfe.missed.contains r
  let gone := (toks.filter (fun t => !isCarry t)).length + held.length
  let b := { b with dfe := { b.dfe with
      missed := setDel b.dfe.missed r
      store := b.dfe.store.filter (fun t => !own t)
      engHeld := (b.dfe.engHeld.filter (fun e => !own e.2 || isCarry e.2)).map (fun e => if own e.2 then (e.1, next e.2) else e)
      ready := b.dfe.ready.filter (fun e => !toks.any (fun t => t.op == e.1 && t.tag == e.2) && !mine e.1 e.2)
      back := b.dfe.back.filter (fun f => !waits f)
      cores := b.dfe.cores.map (fun (e : Nat × Core) => (e.1, { e.2 with queue := e.2.queue.filter (fun f => !waits f) })) } }
  let b := if gone = 0 then b else b.count Reg.DFE_EXPIRED_TOKENS 0 0 gone
  let b := (toks.filter isCarry).foldl (fun b t => b.matchToken (next t)) b
  let b := queued.foldl Block.expireQueued b
  let b := running.foldl (fun b e => b.expireRunning e.1 e.2) b
  let b := if miss then b.missed r seq else b.missEnd r seq
  b.almExpire r seq

/-! ### Dispatch and completion (R211 to R213, R215) -/

/-- The operands of a ready instance: those a core gave back, those that wait for a continuation token, else the tokens of its ports. -/
def Block.operands (b : Block) (op tag : Nat) : List Token × Bool :=
  let is (f : Firing) : Bool := f.op == op && f.tag == tag
  match b.dfe.back.find? is, b.dfe.slices.find? is with
  | some f, _ => (f.toks, f.slice)
  | none, some f => (f.toks, true)
  | none, none => (b.dfe.store.filter (fun t => t.op == op && t.tag == tag), false)

/-- A ready instance leaves the dispatcher: its entries are freed, what was kept for it is taken. -/
def Block.takeReady (b : Block) (op tag : Nat) : Block :=
  let is (f : Firing) : Bool := f.op == op && f.tag == tag
  let given := b.dfe.back.any is
  { b with dfe := { b.dfe with
    store := if given then b.dfe.store else b.dfe.store.filter (fun t => !(t.op == op && t.tag == tag))
    back := b.dfe.back.filter (fun f => !is f)
    slices := if given then b.dfe.slices else b.dfe.slices.filter (fun f => !is f)
    ready := b.dfe.ready.filter (fun e => e != (op, tag)) } }

/-- The dispatcher places the first ready instance in the ready queue of its target core (R211), whose data cache drops the lines that the
operands refer to (R220); an op whose affinity core has left the pool takes the core that takes it as its affinity (R226). -/
def Block.dispatch (b : Block) : Block :=
  match b.firstReady with
  | none => b
  | some (op, tag) =>
    match b.target op with
    | none => b
    | some (c, spill) =>
      let o := b.operands op tag
      let f : Firing := ⟨op, tag, o.1, false, b.rpl.published, b.t7, o.2⟩
      let b := b.takeReady op tag
      let b := if spill then b.count Reg.DFE_CORE_SPILL_IN c else b
      let b := if b.pool.contains (fld (b.vis Reg.DFE_OP_AFF op) 5 0) then b else b.setVis Reg.DFE_OP_AFF op 0 (w32 c)
      let x := (f.toks.filterMap Token.ref).foldl (fun (x : Core) r => x.invalidate r.1 r.2) (b.core c)
      b.setCore c { x with queue := x.queue ++ [f] }

/-- What a core counts when its firing ends: cycles at 1.2 GHz, firings, milliseconds, and the affinity (R212). -/
def Block.firingStats (b : Block) (c op since : Nat) : Block :=
  let cyc := min 0xFFFFFF ((b.t7 - since) * 12 / 10)
  let b := if cyc ≤ fld (b.vis Reg.DFE_OP_MAX_CYCLES op) 23 0 then b else b.setVis Reg.DFE_OP_MAX_CYCLES op 0 (w32 cyc)
  let b := ((b.count Reg.DFE_CORE_FIRINGS c).count Reg.DFE_OP_FIRINGS op).setVis Reg.DFE_OP_AFF op 0 (w32 c)
  let ms := b.t7 / 1000000 - since / 1000000
  if ms = 0 then b else b.count Reg.DFE_CORE_BUSY_MS c 0 ms

/-- What a firing of a library op leaves in its core's memories: the code it fetched, newest in the instruction cache, and the library's
temporaries in the scratch (R203). -/
def Core.ran (x : Core) (lib v : Nat) : Core :=
  let code := Config.libCode lib
  let lines := (List.range ((code.length + 63) / 64)).map (fun j => CacheLine.mk (512 * lib + j) (slice code (64 * j) 64) false)
  { x with
    icache := (lines ++ x.icache.filter (fun l => !lines.any (fun m => m.line == l.line))).take cacheLines
    scratch := (Config.libTemps lib v).foldl (fun m e => cellSet m (e.1 % 65536) e.2 0) x.scratch }

/-- The commit of a firing (R217): what it does besides emitting, its band RMS block written, and the hand-overs of an epoch boundary. -/
def Block.commitFiring (b : Block) (c : Nat) (f : Firing) (d : OpDef) : Block :=
  let (b, boundary) := b.effect f d true
  let b := if d.lib = .rplBand then
      b.coreStore c (opRange f.op 0 0).1 (vecBytes (d.block.flatMap (fun k => (List.range 4).map (fun n => (b.band k n).pub))))
    else b
  if boundary then (b.rplHandover false).dfeHandover 2 false else b

/-- A token leaves a core: what it refers to is cleaned to memory first (R220); an accepted carry token commits its half (R217). -/
def Block.emitToken (b : Block) (c : Nat) (f : Firing) (d : OpDef) (t : Token) : Block :=
  let b := match t.ref with | some r => b.coreClean c r.1 r.2 | none => b
  let b := if f.isCarry d (.op t.op t.port) && t.tag != f.tag then
      { b with dfe := { b.dfe with halves := Tbl.put b.dfe.halves (4 * t.op + t.port) (stateHalf t.op t.port t.payload) 0 } }
    else b
  b.matchToken t

/-- Whether a firing's tokens are of a superseded generation (R225). -/
def Block.fireStale (b : Block) (f : Firing) : Bool := f.toks.any (fun t => t.gen != b.dfe.gen)

/-- Emissions one after the other while the sluice admits class B; the rest is held (R215). Sinks refuse a superseded generation (R225). -/
def Block.emitAll (b : Block) (c : Nat) (f : Firing) (d : OpDef) : List Emit → Block × List Emit
  | [] => (b, [])
  | .tok t :: r =>
    if t.gen = b.dfe.gen ∧ b.admits 1 = false then (b, .tok t :: r)
    else
      let b := if t.inc then b.count Reg.DFE_INCOMPLETE_TOKENS else b
      (b.emitToken c f d t).emitAll c f d r
  | .commit :: r => (b.commitFiring c f d).emitAll c f d r
  | .sink s inc v :: r =>
    if b.fireStale f then (b.staleGen ((f.toks.head?.map (·.gen)).getD b.dfe.gen) f.tag).emitAll c f d r
    else
      let b := if inc then b.count Reg.DFE_INCOMPLETE_TOKENS else b
      (b.toSink f d s inc v).emitAll c f d r

/-- A core emits: it is free again once all is accepted, else it stalls with the rest (R215). -/
def Block.emitFrom (b : Block) (c : Nat) (f : Firing) (d : OpDef) (l : List Emit) : Block :=
  match b.emitAll c f d l with
  | (b, []) => b.coreFree c
  | (b, h) => (b.setCore c { b.core c with held := h }).sluiceHold f.tag

/-- The continuation token of a slice (R213). -/
def Block.continuation (b : Block) (f : Firing) (d : OpDef) : Token := ⟨f.op, closePortOf d, f.tag, d.ring, b.dfe.gen, d.epoch, false, 0, 0, [], 0⟩

/-- The results of an epoch withheld for a lost or INCOMPLETE epoch-class firing (R227): its tag names the epoch, and RPL_DEF's, of a basin,
concerns the epoch that runs. -/
def Block.withholdFor (b : Block) (f : Firing) (d : OpDef) : Block :=
  if d.epoch then b.epochLost (if d.lib = .rplDef then b.rpl.epoch % 65536 else f.tag) else b

/-- The end of a core's firing; `last` is false for a slice with slices to follow (R213). -/
def Block.complete (b : Block) (c : Nat) (last : Bool) : Block :=
  let x := b.core c
  match x.running with
  | none => b
  | some f =>
    if x.held ≠ [] then b
    else match b.opDef f.op with
      | none => b.coreFree c
      | some d =>
        let b := b.firingStats c f.op x.since
        let n := d.outs.flatten.length
        if b.fireStale f then (if n = 0 then b else b.count Reg.DFE_STALE_GEN 0 0 n).coreFree c
        else if f.dead = true ∨ b.tagOver d f.tag = true then
          let b := if f.dead then b else b.carryOn f
          (if n = 0 then b else b.count Reg.DFE_EXPIRED_TOKENS 0 0 n).coreFree c
        else
          let b := b.setCore c ((b.core c).ran d.libId b.free)
          if last = false ∧ d.epoch = true then
            let b := { b with dfe := { b.dfe with slices := b.dfe.slices ++ [{ f with slice := true }] } }
            b.emitFrom c f d [.tok (b.continuation f d)]
          else if b.badInput f then
            let b := (b.carryOn f).withholdFor f d
            b.emitFrom c f d (b.emissions f d true (fun _ => (0, [])))
          else
            let r := b.results c f d
            r.2.emitFrom c f d (r.2.emissions f d false r.1)

/-- A held source tried again: a stalled core (0 to 47), or the engines and the dispatcher (48) (R215). -/
def Block.sluiceRetry (b : Block) (c : Nat) : Block :=
  if c < 48 then
    let x := b.core c
    match x.running.bind (fun f => (b.opDef f.op).map (fun d => (f, d))) with
    | some (f, d) =>
      if x.held = [] then b
      else match b.emitAll c f d x.held with
        | (b, []) => b.coreFree c
        | (b, h) => b.setCore c { b.core c with held := h }
    | none => b
  else b.retryHeld

/-- An engine's completion token, of a class of its own, to every op of a library code (R215, R221). -/
def Block.engineToken (b : Block) (lib : LibOp) (tag : Nat) (epoch : Bool) : Block :=
  (b.dfe.graph.filter (fun e => e.2.lib == lib)).foldl (fun b e =>
    b.offerToken 2 ⟨e.1, (closePortOf e.2), tag, e.2.ring, b.dfe.gen, epoch, false, 0, 0, [], 0⟩) b

/-- The accelerator's completion (R153, R155). -/
def Block.solveComplete (b : Block) (fault : Bool) : Block :=
  match b.rpl.solving with
  | none => b
  | some (e, _, _, _) =>
    if b.rpl.solved.isSome then b
    else
      let b := b.solveDone fault
      if fault then b else b.engineToken .rplTrack (e % 65536) true

/-- The DEF gather's completion (R169): its token is of the tick class (Table 8.2). -/
def Block.gatherComplete (b : Block) : Block :=
  match b.rpl.gather with
  | none => b
  | some (seq, _) => b.gatherDone.engineToken .rplDef (seq % 65536) false

/-! ### Host injection (R223) -/

/-- Whether a range lies in shared scratch or in DRAM (R206). -/
def refRangeOk (a n : Nat) : Bool :=
  (decide (0x80000000 ≤ a) && decide (a + n ≤ 0x80C00000)) || (decide (0x1000000000 ≤ a) && decide (a + n ≤ 0x1800000000))

/-- A write of DFE.INJ_GO by a master. -/
def Block.dfeInject (b : Block) (m op port : Nat) : Block :=
  let a := b.addrOf Reg.DFE_INJ_ADDR_LO Reg.DFE_INJ_ADDR_HI m
  let n := fld (b.vis Reg.DFE_INJ_LEN m) 20 0
  let isIn := match b.opDef op with | some d => d.lib == .hostIn | none => false
  let range := decide (1 ≤ n) && decide (n ≤ 1048576) && refRangeOk a n
  if isIn && range && b.admits 2 then
    match b.opDef op with
    | none => b
    | some d =>
      let tag := if d.epoch then b.rpl.epoch % 65536 else (Tbl.get b.dfe.closedSeq d.ring 0 + 65535) % 65536
      (b.setVis Reg.DFE_INJ_STATUS m 0 0).matchToken ⟨op, port, tag, d.ring, b.dfe.gen, d.epoch, false, 0, 1, leBytes 8 a ++ leBytes 4 n, 0⟩
  else
    let tag := match b.opDef op with | some d => (Tbl.get b.dfe.closedSeq d.ring 0 + 65535) % 65536 | none => 0
    let b := if isIn && range then b.sluiceHold tag else b
    (((b.setVis Reg.DFE_INJ_STATUS m 0 1).count Reg.DFE_INJ_REFUSED).irq Blk.dfe 7).event 0x0A09 0xFFFF b.dfe.gen tag

/-! ### Cores (R226 to R230) -/

/-- DFE.CORE_CMD[RELEASE] (R228). -/
def Block.coreRelease (b : Block) (c : Nat) : Block :=
  let x := b.core c
  if b.acc.frozen.contains (4 + c) then b.count Reg.DFE_CORE_REL_REFUSED c
  else if x.st = .frozen ∨ x.st = .memFault then
    (b.setCore c { x.wiped with rejoin := true, faultAt := none }).event 0x0A02 c x.lastOp x.lastTag
  else b

/-- One emission that a lost firing did not make, made by the dispatcher (R226): INCOMPLETE to an op or a sink, each counted; the carry token
that it consumed, to the next tag. -/
def Block.emitLost (b : Block) (f : Firing) (d : OpDef) (e : Emit) : Block :=
  match e with
  | .commit => b
  | .sink s _ _ => (b.count Reg.DFE_INCOMPLETE_TOKENS).toSink f d s true 0
  | .tok t =>
    if f.isCarry d (.op t.op t.port) then (if t.tag = f.tag then b else b.carryPorts f [t.port])
    else (b.count Reg.DFE_INCOMPLETE_TOKENS).offerToken 1 { t with inc := true, kind := 0, payload := [] }

/-- The running firing of a core that has left the pool is lost (R226, R227): what it had not emitted yet is INCOMPLETE. Of a superseded
generation or an expired tag nothing goes out, and it is counted (R225, R23). -/
def Block.loseRunning (b : Block) (c : Nat) : Block :=
  let x := b.core c
  match x.running with
  | none => b
  | some f =>
    let b := b.setCore c { x with running := none, held := [] }
    match b.opDef f.op with
    | none => b
    | some d =>
      let left := if x.held = [] then b.emissions f d false (fun _ => (0, [])) else x.held
      let n := emitCount left
      if b.fireStale f then (if n = 0 then b else b.count Reg.DFE_STALE_GEN 0 0 n)
      else if f.dead = true ∨ b.tagOver d f.tag = true then
        let b := if f.dead then b else b.carryPorts f (f.carryLeft d left)
        (if n = 0 then b else b.count Reg.DFE_EXPIRED_TOKENS 0 0 n)
      else (left.foldl (fun b e => b.emitLost f d e) b).withholdFor f d

/-- ACC's freeze of a fabric core (R226, R227). -/
def Block.coreFrozen (b : Block) (c : Nat) : Block :=
  let x := b.core c
  let b := (b.leavePool c .frozen).loseRunning c
  ((b.count Reg.DFE_CORE_FREEZES).irq Blk.dfe 2).event 0x0A01 c x.lastOp x.lastTag

/-- An uncorrectable error in a core's cache or scratch (R229): a second within 1 s keeps it until a release. A core that is frozen or halted
reads neither. -/
def Block.coreMemFault (b : Block) (c : Nat) : Block :=
  let x := b.core c
  if x.st = .frozen ∨ x.st = .halted then b
  else
    let again := match x.faultAt with | some t => decide (b.t7 ≤ t + nsPerS) | none => false
    let b := (b.leavePool c .memFault).loseRunning c
    let b := b.setCore c { (b.core c).wiped with faultAt := some b.t7, rejoin := !again }
    (b.irq Blk.dfe 3).event 0x0A03 c x.lastOp x.lastTag

/-- A halt request in DEBUG: at the end of the current firing, or at once when none runs (R230). -/
def Block.coreHalt (b : Block) (c : Nat) : Block :=
  let x := b.core c
  if b.sys.mode ≠ .debug ∨ x.out = true then b
  else if x.running.isSome then b.setCore c { x with haltReq := true }
  else b.leavePool c .halted

/-- The resume of a halted core: it rejoins at the next main-ring alarm close (R230). -/
def Block.coreResume (b : Block) (c : Nat) : Block :=
  let x := b.core c
  if x.st = .halted then b.setCore c { x with rejoin := true }
  else b.setCore c { x with haltReq := false }

/-! ### Views -/

end Sys2Proof.Machine
end

