-- ==== Sys2Proof/Machine/CmpOps.lean ====
section
/-! DEFINITION. CMP: groups, frames, segments, the ring and the spillway, firmware jobs (R353 to R368). -/

namespace Sys2Proof.Machine

def Block.setGrp (b : Block) (g : Nat) (x : CmpGroup) : Block := { b with cmp := { b.cmp with groups := Tbl.put b.cmp.groups g x CmpGroup.reset } }
def Block.setCctx (b : Block) (c : Nat) (x : CmpCtx) : Block := { b with cmp := { b.cmp with ctxs := Tbl.put b.cmp.ctxs c x CmpCtx.reset } }

/-- Whether a slot holds a key for an engine's attribute, of 256 bits where the use asks for it (R398). -/
def KeySlot.serves (k : KeySlot) (attr : Nat) (only256 : Bool) : Bool := k.valid && bit k.attr attr && (k.len256 || !only256)

/-! ### Groups and frames (R353 to R356) -/

def Block.grpRingOf (b : Block) (g : Nat) : Nat := b.cf Reg.CMP_GRP_CFG g 30 30
def Block.grpDiv (b : Block) (g : Nat) : Nat := b.cf Reg.CMP_GRP_CFG g 7 0

/-- The key of an encrypting group, none where the slot lacks ARC_ENC or the module is zeroised (R362). -/
def Block.grpKey (b : Block) (g : Nat) : Option (List Byte) :=
  let k := b.slot (b.cf Reg.CMP_GRP_CFG g 21 16)
  if k.serves 4 true = true ∧ b.sys.zeroised = false then some k.bytes else none

/-- Whether a ring is archived: an enabled group names it. -/
def Block.archived (b : Block) (r : Nat) : Bool := (List.range 16).any (fun g => b.grpEn g && b.grpRingOf g == r)

/-- The region of a ring position (R111). -/
def Block.regionAddr (b : Block) (r p : Nat) : Nat :=
  b.cn Reg.ALN_RING_BASE_LO 0 r + b.cn Reg.ALN_RING_BASE_HI 0 r % 256 * 2 ^ 32 + p * (fld (b.cfg Reg.ALN_BASIN_STRIDE 0 r) 6 0 * 65536)

/-- The annotation part of a frame (Table 14.1). -/
def Block.annotation (b : Block) (r seq : Nat) : List Byte :=
  let e := Tbl.get b.dfe.annot (1024 * r + seq % 65536 % 1024) (65536, false, [])
  if e.1 = seq % 65536 then leBytes 1 (1 + 2 * b2n e.2.1) ++ slice e.2.2 0 63 else List.replicate 64 0

/-- The frame of a group for a basin (Table 14.1). -/
def Block.cmpFrame (b : Block) (g r p : Nat) (x : Basin) : List Byte :=
  let a := b.regionAddr r p
  b.loadSafe a 1088 ++
    (b.grpCtxs g).flatMap (fun c =>
      let n := b.recSize c
      let ra := b.recordAddr r p c
      if x.bmp.getLsbD c then b.loadSafe ra n else b.loadSafe ra 16 ++ List.replicate (n - 16) 0) ++
    b.annotation r x.seq

/-- The byte planes of a block (R356); bytes beyond the last whole word follow unchanged. -/
def bytePlanes (bs : List Byte) : List Byte :=
  let n := bs.length / 4
  (List.range 4).flatMap (fun p => (List.range n).map (fun j => bs.getD (4 * j + p) 0)) ++ bs.drop (4 * n)

/-- The inverse of the byte planes. -/
def unPlanes (bs : List Byte) : List Byte :=
  let n := bs.length / 4
  (List.range n).flatMap (fun j => (List.range 4).map (fun p => bs.getD (p * n + j) 0)) ++ bs.drop (4 * n)

/-! ### Blocks (R357) -/

/-- The stored form of a block: one stored DEFLATE block, two for 65,536 bytes; the split of the two and the header bits
that mark a last block and fill the byte are the encoder's own. -/
def storedForm (bs : List Byte) : List Byte :=
  let one (i : Nat) (d : List Byte) : List Byte := [Config.layout 7 [i] 0 &&& (if i = 1 then 0xF8 else 0xF9)] ++ leBytes 2 d.length ++ leBytes 2 (65535 - d.length) ++ d
  if bs.length ≤ 65535 then one 0 bs
  else
    let n := 1 + (Config.num .deflate [0]).toNat % 65535
    one 1 (bs.take n) ++ one 2 (bs.drop n)

/-- The payload of a block under a history, and whether it is stored: the encoder's form where it decodes to the block and is no longer
than the stored form. -/
def blockPayload (hist bs : List Byte) : List Byte × Bool :=
  let c := Config.deflate hist bs
  let s := storedForm bs
  if s.length < c.length ∨ inflate hist c ≠ some bs then (s, true) else (c, false)

/-- The history after a block: the last 32 KiB. -/
def histAfter (hist bs : List Byte) : List Byte :=
  let h := hist ++ bs
  h.drop (h.length - 32768)

/-! ### Segments (R359, R361, R363) -/

/-- A segment header (Table 14.2). -/
def segHeader (flags ctx load seq basin inLen payLen : Nat) : List Byte :=
  leBytes 2 0x5141 ++ leBytes 1 flags ++ leBytes 1 ctx ++ leBytes 4 load ++ leBytes 6 seq ++ leBytes 4 basin ++ leBytes 3 inLen ++ leBytes 3 payLen

/-- The length of a segment in memory: to the next 64-byte boundary. -/
def segLen (n : Nat) : Nat := ceilDiv n 64 * 64

/-- The ring's base and size in bytes. -/
def Block.cmpRing (b : Block) : Nat × Nat := (b.addrOf Reg.CMP_RING_BASE_LO Reg.CMP_RING_BASE_HI, fld (b.vis Reg.CMP_RING_SIZE) 18 0 * 65536)

/-- Whether a segment of n bytes fits in the ring before the pin; the offset where it starts, and whether a PAD goes before
it at the end of the ring. -/
def Block.ringFit (b : Block) (n : Nat) : Option (Nat × Bool) :=
  let size := b.cmpRing.2
  let wr := fld (b.vis Reg.CMP_RING_WR) 27 0 * 64
  let pin := fld (b.vis Reg.CMP_RING_PIN) 27 0 * 64
  if size = 0 ∨ size < n ∨ size ≤ wr then none
  else
    let direct := decide (wr + n ≤ size)
    let need := if direct then n else size - wr + n
    let avail := if bit (b.vis Reg.CMP_RING_CFG).toNat 0 then (pin + size - wr) % size else size
    if need ≤ avail then some (if direct then wr else 0, !direct) else none

/-- The first valid spill buffer that takes n bytes; those before it that cannot lose their VALID bit. -/
def Block.spillFit (b : Block) (n : Nat) : List Nat → Option Nat × Block
  | [] => (none, b)
  | i :: r =>
    let s := b.vis Reg.CMP_SPILL_SIZE 0 i
    if bit s.toNat 31 = false then b.spillFit n r
    else if (b.vis Reg.CMP_SPILL_USED 0 i).toNat + n ≤ fld s 14 0 * 1024 then (some i, b)
    else (b.setVis Reg.CMP_SPILL_SIZE 0 i (setFld s 31 31 0)).spillFit n r

def Block.cmpItem (b : Block) (kind ctx err low : Nat) : Block :=
  b.push (fld (b.vis Reg.CMP_NOTIFY_QUEUE) 5 0) (kind * 2 ^ 56 + ctx * 2 ^ 48 + err * 2 ^ 40 + low % 2 ^ 32) true

/-- A segment written to the ring, else to the spillway: its offset in 64-byte units in the ring, or the bytes used before it
in its buffer in the same units. `mk` builds the segment once it is known whether it spills. -/
def Block.cmpWrite (b : Block) (g len basin : Nat) (mk : Bool → List Byte) : Option Nat × Block :=
  let n := segLen len
  let (base, size) := b.cmpRing
  match b.ringFit n with
  | some (o, pad) =>
    let wr := fld (b.vis Reg.CMP_RING_WR) 27 0 * 64
    let b := if pad then b.store (base + wr) (segHeader 64 g b.loadCount (b.cctx g).seq basin 0 0) else b
    let b := b.store (base + o) (slice (mk false) 0 n)
    (some (o / 64), b.setVis Reg.CMP_RING_WR 0 0 (w32 ((o + n) % size / 64)))
  | none =>
    match b.spillFit n (List.range 16) with
    | (some i, b) =>
      let used := (b.vis Reg.CMP_SPILL_USED 0 i).toNat
      let b := b.store (b.addrOf Reg.CMP_SPILL_BASE_LO Reg.CMP_SPILL_BASE_HI 0 i + used) (slice (mk true) 0 n)
      (some (used / 64), b.setVis Reg.CMP_SPILL_USED 0 i (w32 (used + n)))
    | (none, b) => (none, b)

/-- The save area of a context written: 34,816 bytes in a format of the vendor's own (R358). -/
def Block.ctxSave (b : Block) (c : Nat) : Block :=
  let a := b.addrOf Reg.CMP_CTX_BASE_LO Reg.CMP_CTX_BASE_HI + c * 34816
  ({ b with free := b.free + 1 }).store a ((List.range 34816).map (Config.layout 6 [c, b.free]))

/-- The lanes in use: groups at work and firmware jobs. -/
def Block.lanesUsed (b : Block) : Nat := ((List.range 16).filter (fun g => (b.grp g).st == 1)).length + b.cmp.running.length

/-- RETAINED once OUT has released the basin and the MISSING headers are written; FREE once its retention has ended and every
archive group has released it (R89). -/
def Block.settleBasin (b : Block) (r p : Nat) : Block :=
  let x := b.basinAt r p
  let x := if x.st = .outputClosed ∧ x.outDone = true ∧ x.missDone = true then { x with st := .retained } else x
  if x.st = .retained ∧ x.lateClosed = true ∧ x.archOwed = [] then (b.setBasin r p { x with st := .free }).outDrop r x.seq
  else b.setBasin r p x

/-- A basin's release by CMP for one group; after the last group the basin is FREE (R354, R89). -/
def Block.archDone (b : Block) (r seq g : Nat) : Block :=
  match (b.ring r).seqPos seq with
  | none => b
  | some (p, x) =>
    let owed := x.archOwed.filter (fun h => h != g)
    if x.archOwed.contains g = false then b
    else if owed = [] then (b.setBasin r p { x with archOwed := [], archiving := false }).settleBasin r p
    else b.setBasin r p { x with archOwed := owed }

/-- A group suspended at a block boundary (R364). -/
def Block.cmpSuspend (b : Block) (g seq : Nat) : Block :=
  let b := b.setGrp g { b.grp g with st := 2 }
  let b := (b.setCctx g { b.cctx g with suspended := true }).ctxSave g
  (((b.count Reg.CMP_GRP_NOSPACE g).irq Blk.cmp 0).event 0x1201 g seq).cmpItem 2 g 0 (b.vis Reg.CMP_RING_WR).toNat

/-- The end of a group's frame: the context saved and free, the group IDLE. -/
def Block.cmpIdle (b : Block) (g : Nat) : Block :=
  ((b.setGrp g { b.grp g with st := 0, frame := none }).setCctx g { b.cctx g with inUse := false, suspended := false }).ctxSave g

/-- A GAP segment ends the frame in hand (R360); the next frame is a key frame. -/
def Block.cmpGap (b : Block) (g : Nat) : Block :=
  match (b.grp g).frame with
  | none => b
  | some f =>
    let c := b.cctx g
    let mk (spill : Bool) : List Byte := segHeader (8 + 16 + 32 + 128 * b2n spill) g b.loadCount c.seq f.seq 0 0
    match b.cmpWrite g 24 f.seq mk with
    | (none, b) => (b.setGrp g { b.grp g with frame := some { f with gap := true } }).cmpSuspend g f.seq
    | (some o, b) =>
      let b := b.setCctx g { b.cctx g with seq := c.seq + 1, keyNext := true }
      let b := (((b.count Reg.CMP_GRP_GAPS g).event 0x1202 g f.seq).cmpItem 3 g 0 o).cmpIdle g
      b.archDone f.ring f.seq g

/-! ### Hand-over (R368) -/

/-- Whether a group's settings keep R353. -/
def Block.cmpSetOk (b : Block) (g : Nat) : Bool :=
  !b.grpEn g ||
    (decide (1 ≤ b.grpDiv g) && b.ringRate (b.grpRingOf g) % b.grpDiv g == 0 &&
      (b.grpCtxs g).all (fun c => b.strRing c == b.grpRingOf g))

/-- The hand-over at a group's frame start: its own set, and BLOCK. -/
def Block.cmpHandover (b : Block) (g : Nat) : Block :=
  let mine (k : Nat) : Bool := keyBlk k == Blk.cmp && (if keySpace k == 0 then keyInst k == g else keySpace k == 15)
  b.handover mine (fun k => if keySpace k = 0 then keyInst k else 16)
    (fun b sets => sets.all (fun e => keySpace e.1 != 0 || b.cmpSetOk (keyInst e.1)))
    (fun b k => (b.irq Blk.cmp 5).event 0x1208 (if keySpace k = 0 then keyInst k else 0xFFFF))

/-- The settings with which a group takes its next basin: of a group that is off, those of the committed set that its first frame
start hands over. -/
def Block.grpTakes (b : Block) (g r k : Nat) : Bool :=
  let w := if b.grpEn g then b.cfg Reg.CMP_GRP_CFG g else (b.comSets (· == Reg.CMP_GRP_CFG.key g 0)).foldl (fun _ e => e.2) 0
  bit w.toNat 31 && fld w 30 30 == r && k % max 1 (fld w 7 0) == 0

/-! ### Archiving (R354 to R364) -/

/-- ALN's signal of a basin at its retention end: queued for the groups that carry it (R354). The list says which. -/
def Block.cmpQueue (b : Block) (r seq k : Nat) : List Nat × Block :=
  let gs := (List.range 16).filter (fun g => b.grpTakes g r k)
  (gs, gs.foldl (fun b g => let x := b.grp g; b.setGrp g { x with queue := x.queue ++ [(r, seq, false)] }) b)

/-- A free lane takes a group's next basin. A basin that the hand-over takes from the group is released. -/
def Block.archStart (b : Block) (g : Nat) : Block :=
  let x := b.grp g
  match x.queue with
  | [] => b
  | (r, seq, freed) :: q =>
    if x.st ≠ 0 ∨ 4 ≤ b.lanesUsed then b
    else
      let b := b.cmpHandover g
      let f : CmpFrame := ⟨r, seq, false, 0, [], fld (b.cfg Reg.CMP_BLOCK) 4 0 * 4096, true⟩
      let b := b.setGrp g { b.grp g with queue := q, st := 1, frame := some f }
      let b := b.setCctx g { b.cctx g with inUse := true }
      if b.grpEn g = false ∨ b.grpRingOf g ≠ r then (b.cmpIdle g).archDone r seq g
      else match (b.ring r).seqPos seq with
      | none => b.cmpGap g
      | some (p, basin) =>
        if freed then b.cmpGap g
        else if b.grpEnc g = true ∧ b.grpKey g = none then
          (((b.count Reg.CMP_KEY_ABSENT).irq Blk.cmp 4).eventRep g 0x1206 g (b.cctx g).seq).cmpGap g
        else
          let y := b.grp g
          let key := b.keyDue g
          let raw := b.cmpFrame g r p basin
          let a := b.cfgAddr Reg.CMP_GRP_REF_LO Reg.CMP_GRP_REF_HI g
          let ref := if key then List.replicate raw.length 0 else b.loadSafe a raw.length
          let b := b.store a raw
          let b := b.setCctx g { b.cctx g with keyNext := false, hist := if key then [] else (b.cctx g).hist }
          b.setGrp g { y with layout := b.grpLayout g, cipher := b.grpCipher g, sinceKey := if key then 0 else y.sinceKey + 1, frame := some { f with key := key, rest := xorBytes raw ref, gap := false } }

/-- The next block of a group's frame as a segment, to the ring or the spillway, or the group's suspension. -/
def Block.archSegment (b : Block) (g : Nat) : Block :=
  let x := b.grp g
  match x.frame with
  | none => b
  | some f =>
    if x.st ≠ 1 then b
    else if f.gap then b.cmpGap g
    else if b.grpEnc g = true ∧ b.grpKey g = none then
      (((b.count Reg.CMP_KEY_ABSENT).irq Blk.cmp 4).eventRep g 0x1206 g (b.cctx g).seq).cmpGap g
    else
      let c := b.cctx g
      let blk := bytePlanes (f.rest.take f.block)
      let rest := f.rest.drop f.block
      let last := rest.isEmpty
      let (pay, stored) := blockPayload c.hist blk
      let enc := b.grpEnc g
      let load := b.loadCount
      let flags (spill : Bool) : Nat := b2n stored + 2 * b2n enc + 4 * b2n f.key + 16 * b2n (f.idx == 0) + 32 * b2n last + 128 * b2n spill
      let mk (spill : Bool) : List Byte :=
        let h := segHeader (flags spill) g load c.seq f.seq blk.length pay.length
        match enc, b.grpKey g with
        | true, some k =>
          let iv := leBytes 4 load ++ leBytes 1 g ++ leBytes 1 0 ++ leBytes 6 c.seq
          let p := gcmCrypt k iv pay
          h ++ p ++ gcmTag k iv h p
        | _, _ => h ++ pay
      match b.cmpWrite g (24 + pay.length + (if enc then 16 else 0)) f.seq mk with
      | (none, b) => b.cmpSuspend g f.seq
      | (some o, b) =>
        let b := if stored then b.count Reg.CMP_GRP_STORED g else b
        let b := b.setCctx g { b.cctx g with seq := c.seq + 1, hist := histAfter c.hist blk }
        let b := if f.key = true ∧ f.idx = 0 then b.cmpItem 1 g 0 o else b
        if last then ((b.count Reg.CMP_GRP_FRAMES g).cmpIdle g).archDone f.ring f.seq g
        else b.setGrp g { b.grp g with frame := some { f with idx := f.idx + 1, rest := rest } }

/-- A write of CMP.RESUME (R364). -/
def Block.cmpResume (b : Block) (v : Nat) : Block :=
  (List.range 16).foldl (fun b g =>
    let x := b.grp g
    if bit v g = true ∧ x.st = 2 then
      let seq := match x.frame with | some f => f.seq | none => 0
      ((b.setGrp g { x with st := 1 }).setCctx g { b.cctx g with suspended := false }).event 0x1203 g seq
    else b) b

/-- A basin freed early (R90): its place in the groups' queues will be a GAP; a frame being written ends in one at once, a
suspended one when it resumes. -/
def Block.cmpFreed (b : Block) (r seq : Nat) : Block :=
  (List.range 16).foldl (fun b g =>
    let x := b.grp g
    let b := b.setGrp g { x with queue := x.queue.map (fun (e : Nat × Nat × Bool) => if e.1 = r ∧ e.2.1 = seq then (r, seq, true) else e) }
    match x.frame with
    | some f =>
      if f.ring = r ∧ f.seq = seq then
        let b := b.setGrp g { b.grp g with frame := some { f with gap := true } }
        if x.st = 1 then b.cmpGap g else b
      else b
    | none => b) b

/-- A ring's restart cancels the pulls of its basins (R92); a frame cut short makes the next one a key frame. -/
def Block.cmpRestart (b : Block) (r : Nat) : Block :=
  (List.range 16).foldl (fun b g =>
    let x := b.grp g
    let b := b.setGrp g { x with queue := x.queue.filter (fun e => e.1 != r) }
    match x.frame with
    | some f => if f.ring = r then (b.setCctx g { b.cctx g with keyNext := true }).cmpIdle g else b
    | none => b) b

/-- A tamper zeroisation aborts the segments being encrypted (R362). -/
def Block.cmpTamper (b : Block) : Block :=
  (List.range 16).foldl (fun b g =>
    let x := b.grp g
    match x.frame with
    | some f =>
      if x.st = 1 ∧ f.gap = false ∧ b.grpEnc g = true then
        ((b.count Reg.CMP_KEY_ABORT).event 0x1207 g (b.cctx g).seq).cmpGap g
      else b
    | none => b) b

/-! ### Firmware jobs (R365 to R367) -/

def jobOp (d : List Byte) : Nat := leAt d 0 1
def jobCtx (d : List Byte) : Nat := leAt d 1 1
def jobFlag (d : List Byte) (i : Nat) : Bool := bit (leAt d 2 1) i
def jobSize (d : List Byte) : Nat := leAt d 4 4
def jobSrc (d : List Byte) : Nat := leAt d 8 8
def jobDst (d : List Byte) : Nat := leAt d 16 8
def jobDstSize (d : List Byte) : Nat := leAt d 24 4
def jobFrame (d : List Byte) : Nat := leAt d 28 4
def jobRef (d : List Byte) : Nat := leAt d 32 8

/-- Whether a descriptor keeps Table 14.3 and R366. -/
def jobOk (d : List Byte) : Bool :=
  (if jobOp d == 1 then decide (16 ≤ jobCtx d) && decide (1 ≤ jobSize d) && decide (jobSize d ≤ 2000000) && (!jobFlag d 0 || decide (1 ≤ jobFrame d))
   else jobOp d == 2 && decide (1 ≤ jobFrame d)) && leAt d 3 1 == 0 && (slice d 40 24).all (· == 0)

/-- A write of CMP.JOB_GO by a master. -/
def Block.jobGo (b : Block) (m : Nat) : Block :=
  let a := b.addrOf Reg.CMP_JOB_ADDR_LO Reg.CMP_JOB_ADDR_HI m
  let d := b.loadSafe a 64
  if jobOk d = true ∧ (b.cctx (jobCtx d)).inUse = false then
    let b := b.setCctx (jobCtx d) { b.cctx (jobCtx d) with inUse := true }
    { b with cmp := { b.cmp with jobs := b.cmp.jobs ++ [d] } }
  else b.count Reg.CMP_JOB_REFUSED

/-- A lane that no group wants takes the oldest job. -/
def Block.jobStart (b : Block) : Block :=
  match b.cmp.jobs with
  | [] => b
  | d :: r =>
    let groups := ((List.range 16).filter (fun g => (b.grp g).st == 0 && !(b.grp g).queue.isEmpty)).length
    if 4 ≤ b.lanesUsed + groups then b
    else { b with cmp := { b.cmp with jobs := r, running := b.cmp.running ++ [d] } }

/-- The blocks of a job's input: of BLOCK bytes within each frame of F bytes, or of the whole input. -/
def cutBlocks (n : Nat) : Nat → List Byte → List (List Byte)
  | 0, _ => []
  | fuel + 1, bs => if bs.isEmpty || n == 0 then [] else bs.take n :: cutBlocks n fuel (bs.drop n)

/-- The transform of a job's frames, each XORed with the one before it, the first with the reference; with the new
reference. -/
def deltaFrames (key : Bool) : List Byte → List (List Byte) → List (List Byte) × List Byte
  | ref, [] => ([], ref)
  | ref, f :: r =>
    let (t, last) := deltaFrames false f r
    ((if key then f else xorBytes f (ref ++ List.replicate (f.length - ref.length) 0)) :: t, last)

/-- The blocks of a job with the flags KEY, FIRST and LAST of their segments: FIRST and LAST mark each frame, and the descriptor's LAST
says whether the job's final segment carries it. -/
def jobMarks (d : List Byte) (key : Bool) (frames : List (List (List Byte))) : List (Nat × List Byte) :=
  let n := frames.length
  ((List.range n).zip frames).flatMap (fun f =>
    let m := f.2.length
    ((List.range m).zip f.2).map (fun e =>
      (4 * b2n (key && f.1 == 0) + 16 * b2n (e.1 == 0) + 32 * b2n (e.1 + 1 == m && (f.1 + 1 != n || jobFlag d 2)), e.2)))

/-- The segments of a COMPRESS job: bytes written and the context afterwards. -/
def Block.jobSegments (b : Block) (d : List Byte) (key : Bool) (frames : List (List (List Byte))) : List Byte × CmpCtx × Nat :=
  let c := jobCtx d
  let load := b.loadCount
  (jobMarks d key frames).foldl (fun (a : List Byte × CmpCtx × Nat) e =>
    let x := a.2.1
    let (pay, stored) := blockPayload x.hist e.2
    let h := segHeader (b2n stored + e.1) c load x.seq 0 e.2.length pay.length
    let len := segLen (24 + pay.length)
    (a.1 ++ slice (h ++ pay) 0 len, { x with seq := x.seq + 1, hist := histAfter x.hist e.2 }, a.2.2 + len))
    ([], { b.cctx c with keyNext := false, hist := if key then [] else (b.cctx c).hist }, 0)

/-- A COMPRESS job: its error and the bytes written. -/
def Block.jobCompress (b : Block) (d : List Byte) : Nat × Nat × Block :=
  let c := jobCtx d
  let src := b.loadSafe (jobSrc d) (jobSize d)
  let key := jobFlag d 1 || (b.cctx c).keyNext
  let size := fld (b.cfg Reg.CMP_BLOCK) 4 0 * 4096
  let frames := cutBlocks (jobFrame d) src.length src
  let (delta, ref) := deltaFrames key (b.loadSafe (jobRef d) (jobFrame d)) frames
  let blocks := if jobFlag d 0 then delta.map (fun f => (cutBlocks size f.length f).map bytePlanes) else [cutBlocks size src.length src]
  let (out, x, n) := b.jobSegments d key blocks
  if jobDstSize d < n then (1, 0, b.setCctx c { b.cctx c with inUse := false })
  else
    let b := (b.store (jobDst d) out).setCctx c { x with inUse := false }
    (0, n, if jobFlag d 0 then b.store (jobRef d) ref else b)

/-- A DECOMPRESS job at work: the read address, the expected segment number (none before the first segment), the history,
the reference, the frame in hand, whether the frame is a key frame, the bytes written, the frames done. -/
structure Unpack where
  at_ : Nat
  next : Option Nat
  hist : List Byte
  ref : List Byte
  cur : List Byte
  key : Bool
  out : Nat
  frames : Nat
  deriving DecidableEq, Repr

/-- The key of the segments of a context: its group's slot. -/
def Block.segKey (b : Block) (c : Nat) : Option (List Byte) := if c < 16 then b.grpKey c else none

/-- The address after a segment: the ring wraps to its base. -/
def Block.segNext (b : Block) (a n : Nat) : Nat :=
  let (base, size) := b.cmpRing
  if base ≤ a ∧ a < base + size ∧ base + size ≤ a + n then base else a + n

/-- Bytes of a frame written out behind those before them, error 1 where the destination is too small. -/
def Block.unpackOut (b : Block) (d : List Byte) (u : Unpack) (o : List Byte) : Nat × Unpack × Block :=
  if jobDstSize d < u.out + o.length then (1, u, b)
  else (0, { u with out := u.out + o.length, cur := u.cur ++ o }, b.store (jobDst d + u.out) o)

/-- The end of a frame: untransformed, it is the new reference. -/
def Block.unpackLast (b : Block) (d : List Byte) (u : Unpack) : Unpack × Block :=
  ({ u with frames := u.frames + 1, cur := [], ref := u.cur }, b.store (jobRef d) u.cur)

/-- One segment of a DECOMPRESS job: an error (1 DECODE, 2 AUTH), or the work after it. Segments of other contexts between those of the
job's context are passed over. -/
def Block.unpackStep (b : Block) (d : List Byte) (u : Unpack) : Nat × Unpack × Block :=
  let h := b.loadSafe u.at_ 24
  let flags := leAt h 2 1
  let c := leAt h 3 1
  let seq := leAt h 8 6
  let inLen := leAt h 18 3
  let payLen := leAt h 21 3
  let enc := bit flags 1
  let brk := match u.next with
    | some n => decide (n ≠ seq)
    | none => !(bit flags 2 || bit flags 3)
  if leAt h 0 2 ≠ 0x5141 then (1, u, b)
  else if bit flags 6 then (0, { u with at_ := b.cmpRing.1 }, b)
  else if c ≠ jobCtx d then (0, { u with at_ := b.segNext u.at_ (segLen (24 + payLen + if enc then 16 else 0)) }, b)
  else if brk then (1, u, b)
  else
    let start := u.at_ + 24
    let u := { u with at_ := b.segNext u.at_ (segLen (24 + payLen + if enc then 16 else 0)), next := some (seq + 1) }
    if bit flags 3 then
      let z := List.replicate (jobFrame d) (0 : Byte)
      match b.unpackOut d { u with cur := [] } (z.take 8 ++ slice h 14 4 ++ z.drop 12) with
      | (0, u, b) => let (u, b) := b.unpackLast d u; (0, u, b)
      | r => r
    else
      let pay := b.loadSafe start payLen
      let iv := leBytes 4 (leAt h 4 4) ++ leBytes 1 c ++ leBytes 1 0 ++ leBytes 6 seq
      let tagOk := match b.segKey c with
        | some k => gcmTag k iv h pay == b.loadSafe (start + payLen) 16
        | none => false
      if enc && !tagOk then
        let (_, u, b) := b.unpackOut d u (List.replicate inLen 0)
        (2, u, b)
      else
        let plain := match enc, b.segKey c with
          | true, some k => gcmCrypt k iv pay
          | _, _ => pay
        let u := if bit flags 4 then { u with cur := [], key := bit flags 2, hist := if bit flags 2 then [] else u.hist } else u
        match inflate u.hist plain with
        | none => (1, u, b)
        | some t =>
          if t.length ≠ inLen ∨ inLen = 0 then (1, u, b)
          else
            let o :=
              if c < 16 ∨ jobFlag d 0 = true then
                if u.key then unPlanes t else xorBytes (unPlanes t) (slice u.ref u.cur.length t.length)
              else t
            match b.unpackOut d { u with hist := histAfter u.hist t } o with
            | (0, u, b) => if bit flags 5 then (let (u, b) := b.unpackLast d u; (0, u, b)) else (0, u, b)
            | r => r

/-- The segments of a DECOMPRESS job up to its N-th frame; a chain longer than the destination could hold does not decode. -/
def Block.unpackAll (d : List Byte) : Nat → Block → Unpack → Nat × Unpack × Block
  | 0, b, u => (1, u, b)
  | n + 1, b, u =>
    if jobSize d ≤ u.frames then (0, u, b)
    else match b.unpackStep d u with
      | (0, u, b) => Block.unpackAll d n b u
      | r => r

/-- A DECOMPRESS job: its error, the bytes written, the number of the last segment read. -/
def Block.jobDecompress (b : Block) (d : List Byte) : Nat × Nat × Nat × Block :=
  let c := jobCtx d
  let u : Unpack := ⟨jobSrc d, none, [], b.loadSafe (jobRef d) (jobFrame d), [], false, 0, 0⟩
  let (e, u, b) := Block.unpackAll d (2 * (jobDstSize d + 2) + b.cmpRing.2 / 64) b u
  (e, u.out, (u.next.getD 1) - 1, b.setCctx c { b.cctx c with inUse := false })

/-- A firmware job ends and posts its item (R365, R367). -/
def Block.jobDone (b : Block) : Block :=
  match b.cmp.running with
  | [] => b
  | d :: r =>
    let b := { b with cmp := { b.cmp with running := r } }
    let c := jobCtx d
    let (e, n, seq, b) :=
      if jobOp d = 1 then (let (e, n, b) := b.jobCompress d; (e, n, (b.cctx c).seq, b)) else b.jobDecompress d
    let b := b.ctxSave c
    let b :=
      if e = 1 then ((b.count Reg.CMP_DECODE_ERR).irq Blk.cmp 2).event 0x1204 c seq
      else if e = 2 then ((b.count Reg.CMP_AUTH_FAIL).irq Blk.cmp 3).event 0x1205 c seq
      else b
    (b.irq Blk.cmp 1).cmpItem 4 c e n

/-- CMP.CTX_CMD[RESET]: refused while the context is in use (R358). -/
def Block.ctxReset (b : Block) (c : Nat) : Block :=
  let x := b.cctx c
  if x.inUse then b.count Reg.CMP_JOB_REFUSED
  else b.setCctx c { x with hist := [], keyNext := true }

/-! ### Views -/

end Sys2Proof.Machine
end

