-- ==== Sys2Proof/Machine/NrgOps.lean ====
section
/-! DEFINITION. Energy metering: zero crossings, integration intervals, accumulators, counters and wraps, saves and the resume
(R281 to R295). -/

namespace Sys2Proof.Machine

/-- Whether a point is metered. -/
def Block.nrgOn (b : Block) (p : Nat) : Bool := b.cb Reg.NRG_PT_CFG p 31

/-! ### Accumulators and counters (R286 to R288) -/

/-- The accumulators of a point without an update of this cycle (R288, R289). -/
def Block.accAt (b : Block) (p : Nat) : List Nat :=
  let x := b.nrgPt p
  match x.before with
  | some (t, acc) => if t = b.t7 then acc else x.acc
  | none => x.acc

/-- The accumulators of a point replaced, with the wraps that the counters make (R288). -/
def Block.accUpdate (b : Block) (p : Nat) (acc : List Nat) : Block :=
  let x := b.nrgPt p
  let wraps (i : Nat) : Nat := b.cntFull p (acc.getD i 0) / 2 ^ 32 - b.cntFull p (x.acc.getD i 0) / 2 ^ 32
  let w := (List.range 32).foldl (fun a i => if 1 ≤ wraps i then a ||| 2 ^ i else a) x.wrap
  let w2 := (List.range 32).foldl (fun a i => if (1 ≤ wraps i ∧ bit x.wrap i = true) ∨ 2 ≤ wraps i then a ||| 2 ^ i else a) x.wrap2
  b.setNrgPt p { x with acc := acc, before := some (b.t7, b.accAt p), wrap := w, wrap2 := w2 }

/-- A read of a visible counter: its value without an update of the same cycle, both its flags cleared, but for the wraps of that update
(R288). -/
def Block.cntRead (b : Block) (p i : Nat) : Nat × Block :=
  let x := b.nrgPt p
  let old := b.cntFull p ((b.accAt p).getD i 0)
  let n := b.cntFull p (x.acc.getD i 0) / 2 ^ 32 - old / 2 ^ 32
  let put (w : Nat) (on : Bool) : Nat := if bit w i = on then w else if on then w + 2 ^ i else w - 2 ^ i
  (old % 2 ^ 32, b.setNrgPt p { x with wrap := put x.wrap (decide (1 ≤ n)), wrap2 := put x.wrap2 (decide (2 ≤ n)) })

/-! ### Intervals (R281 to R284) -/

/-- The fine samples of a channel whose period, centred on the represented time, overlaps an interval. -/
def Block.nrgSamples (b : Block) (c s e : Nat) : List SdmSample :=
  let h := nsPerS / b.sdmRate / 2
  (b.sdmCh c).fine.filter (fun q => decide (s < q.at_ + h) && decide (q.at_ < e + h))

/-- The part of a sample's period that lies in an interval, in ns. -/
def Block.nrgShare (b : Block) (q : SdmSample) (s e : Nat) : Nat :=
  let h := nsPerS / b.sdmRate / 2
  min (q.at_ + h) e - max (q.at_ - h) s

/-- A sample's secondary value in 2⁻¹⁴⁹; what a scale that is no finite number gives is open. -/
def sampleValue (y : Nat) : Int := if f32NaN y || f32Inf y then sgn 32 (Config.num .power [1, y]).toNat else f32Val y

/-- A coefficient of the Hilbert FIR at a distance of d output periods from its centre, later samples at negative distances: an antisymmetric FIR,
which turns every component by a quarter period and keeps its represented time (R283). -/
def hilbertTap (rate : Nat) (d : Int) : Int :=
  if d = 0 then 0
  else if 0 < d then (Config.hilbert rate d.toNat).toInt
  else -(Config.hilbert rate (-d).toNat).toInt

/-- The voltage in quadrature at a sample's represented time, in 2⁻¹⁴⁹: the Hilbert FIR over the samples around it. While later samples of its
span are still to come, what they add is open. -/
def Block.nrgHilbert (b : Block) (c at_ : Nat) : Int :=
  let period := nsPerS / b.sdmRate
  let xs := (b.sdmCh c).fine
  let sum := xs.foldl (fun (a : Int) q => a + hilbertTap b.sdmRate (((at_ : Int) - q.at_) / period) * sampleValue q.y) 0 / 1073741824
  let whole := match xs with | q :: _ => decide (at_ + Config.hilbertSpan b.sdmRate * period ≤ q.at_) | [] => false
  if whole then sum else sum + sgn 32 (Config.num .power [b.sdmRate, c, at_]).toNat

/-- A phase over an interval: P and Q in 2⁻³² W and var, S in 2⁻³² VA, in secondary units, and the metered time in ns (R283). -/
def Block.nrgPhase (b : Block) (p ph s e : Nat) : Int × Int × Nat × Nat :=
  match b.ptCh p false ph, b.ptCh p true ph with
  | some v, some i =>
    let vs := b.nrgSamples v s e
    let is := b.nrgSamples i s e
    let pairs := vs.filterMap (fun q => (is.find? (fun r => r.at_ == q.at_)).map (fun r => (q, r)))
    let good := pairs.filter (fun q => q.1.good && q.2.good)
    intervalPower (e - s) (good.map (fun q =>
      ⟨sampleValue q.1.y, b.nrgHilbert v q.1.at_, sampleValue q.2.y, b.nrgShare q.1 s e⟩))
  | _, _ => (0, 0, 0, 0)

/-- X × T in 2⁻²⁴ µWh, from 2⁻³² W and ns. -/
def energyOf (x t : Nat) : Nat := x * t * 1000000 * 16777216 / (4294967296 * 3600 * nsPerS)

/-- What an interval adds to the eight quantities of a phase or the total (Table 10.5). -/
def quadrants (p q : Int) (s t : Nat) : List Nat :=
  let ep := energyOf p.natAbs t
  let eq := energyOf q.natAbs t
  let es := energyOf s t
  [if 0 ≤ p then ep else 0, if p < 0 then ep else 0,
   if 0 ≤ p ∧ 0 ≤ q then eq else 0, if p < 0 ∧ 0 ≤ q then eq else 0,
   if p < 0 ∧ q < 0 then eq else 0, if 0 ≤ p ∧ q < 0 then eq else 0,
   if 0 ≤ p then es else 0, if p < 0 then es else 0]

/-- A secondary value in 2⁻³² as a float32 in primary units. -/
def Block.nrgPrimary (b : Block) (p : Nat) (x : Int) : Word :=
  w32 (f32OfRat (x * b.cn Reg.NRG_PT_RATIO_NUM p) (4294967296 * b.cn Reg.NRG_PT_RATIO_DEN p))

/-- A clear that was accepted, at the end of the interval: event CLEARED with the energy to be removed; the zeroing waits until
the entry is in Q4 or in the areas. -/
def Block.nrgClearDue (b : Block) (p : Nat) : Block :=
  let x := b.nrgPt p
  if x.clear ≠ 1 then b
  else
    let v (i : Nat) : List Nat := [accVal (x.acc.getD i 0) % 2 ^ 32, accVal (x.acc.getD i 0) / 2 ^ 32]
    let n := b.evr.buf.length + b.evr.held.length
    let b := b.eventAt 0x0C08 p b.nrg.seq (b.cf Reg.NRG_PT_CFG p 30 28) b.now false (some (v 3 ++ v 7 ++ v 27 ++ v 31))
    if b.evr.buf.length + b.evr.held.length = n then (b.setNrgPt p { x with clear := 0 }).count Reg.NRG_PT_CLEAR_REFUSED p
    else if b.evr.frozenAt.isSome then b.nrgZero p
    else b.setNrgPt p { x with clear := 2 }

/-- The ratio of R287 against the point's sensor ratios. -/
def Block.nrgRatioOk (b : Block) (p : Nat) : Bool :=
  let n := b.cn Reg.NRG_PT_RATIO_NUM p
  let d := b.cn Reg.NRG_PT_RATIO_DEN p
  let v := f32Val (b.cn Reg.SDM_PT_VRATIO p)
  let i := f32Val (b.cn Reg.SDM_PT_IRATIO p)
  let prod := (d : Int) * v * i
  d != 0 && decide (((n : Int) * 2 ^ 298 - prod).natAbs * 10000000 ≤ prod.natAbs)

/-- The hand-over of a point's sets at its interval's end; SAVE_CFG goes with the first (R295). -/
def Block.nrgHandover (b : Block) (p : Nat) : Block :=
  let mine (k : Nat) : Bool := keyBlk k == Blk.nrg && (keySpace k == 15 || keyInst k == p)
  if b.comSets mine = [] then b
  else
    let sig (b : Block) : Nat × Nat × Nat := (b.cf Reg.NRG_PT_CFG p 30 28, b.cn Reg.NRG_PT_RATIO_NUM p, b.cn Reg.NRG_PT_RATIO_DEN p)
    let old := sig b
    let b := b.handover mine (fun k => keySpace k)
      (fun b sets => sets.all (fun e => keySpace e.1 == 15) || b.nrgRatioOk p)
      (fun b k => (b.irq Blk.nrg 5).event 0x0C09 (if keySpace k = 15 then 0xFFFF else p))
    if sig b = old then b else let x := b.nrgPt p; b.setNrgPt p { x with wrap := 0, wrap2 := 0 }

/-- The end of an interval at instant e (R283, R284): powers, energy, the frequency; then a clear, the hand-over, CAP's rows. -/
def Block.intervalEnd (b : Block) (p e : Nat) (crossing : Bool) : Block :=
  let x := b.nrgPt p
  match x.start with
  | none => b.setNrgPt p { x with start := some e }
  | some s =>
    let r := (List.range 3).map (fun ph => b.nrgPhase p ph s e)
    let pt := r.foldl (fun a q => a + q.1) (0 : Int)
    let qt := r.foldl (fun a q => a + q.2.1) (0 : Int)
    let st := r.foldl (fun a q => a + q.2.2.1) 0
    let tt := r.foldl (fun a q => max a q.2.2.2) 0
    let adds := (r.map (fun q => quadrants q.1 q.2.1 q.2.2.1 q.2.2.2)) ++ [quadrants pt qt st tt]
    let acc := (List.range 32).map (fun i => (x.acc.getD i 0 + (adds.getD (i % 4) []).getD (i / 4) 0) % 2 ^ 88)
    let b := b.setNrgPt p { x with start := some e }
    let b := if b.nrg.frozen.isSome then b else b.accUpdate p acc
    let b := (b.setVis Reg.NRG_PT_P p 0 (b.nrgPrimary p pt)).setVis Reg.NRG_PT_Q p 0 (b.nrgPrimary p qt)
    let b := b.setVis Reg.NRG_PT_S p 0 (b.nrgPrimary p st)
    let b := b.setVis Reg.NRG_PT_ZC_FREQ p 0 (w32 (if crossing then f32OfRat nsPerS (e - s) else f32QNaN))
    let b := b.setVis Reg.NRG_PT_ZC_LAST p 0 (w32 (ns32 e))
    ((b.nrgClearDue p).nrgHandover p).capInterval p s e

/-- ZERO_CROSSING: a crossing that counts ends the interval; fallback ends (R281, R282). -/
def Block.zeroCrossing (b : Block) (p : Nat) : Block :=
  let x := b.nrgPt p
  match x.cross with
  | none => b
  | some τ =>
    if b.nrgOn p = false then b
    else
      let b := (b.setNrgPt p { x with cross := none }).intervalEnd p τ (!x.fallback)
      if x.fallback then (b.setNrgPt p { b.nrgPt p with fallback := false }).event 0x0C05 p else b

/-- ZC_TIMEOUT: no crossing within ZC_TIMEOUT periods of the boundary; in fallback, the end of a 20 ms interval. Either stands once the samples
that represent its instant have been output. -/
def Block.zcTimeout (b : Block) (p : Nat) : Block :=
  let x := b.nrgPt p
  match x.start with
  | none => b
  | some s =>
    let e := if x.fallback then s + 20000000 else s + b.cf Reg.NRG_PT_CFG p 27 24 * nsPerS / b.ptF0 p
    if b.nrgOn p = false ∨ b.now < e + b.sdmGd ∨ x.cross.isSome then b
    else
      let b := b.intervalEnd p e false
      if x.fallback then b
      else
        let b := b.setNrgPt p { b.nrgPt p with fallback := true }
        ((b.count Reg.NRG_PT_ZC_TIMEOUTS p).irq Blk.nrg 1).eventRep p 0x0C04 p

/-! ### Samples at a point -/

/-- A fine sample of the zero-crossing channel against the one before it, by their secondary values; ZC_HYST is a part of the channel's full scale
(R281). -/
def Block.zcSample (b : Block) (p : Nat) (prev : Option SdmSample) (s : SdmSample) : Block :=
  let x := b.nrgPt p
  if s.good = false then b.setNrgPt p { x with below := false, cross := none }
  else
    let h : Nat := b.cf Reg.NRG_ZC_CFG p 15 0
    let y := sampleValue s.y
    let full := (sampleValue (b.cn Reg.SDM_CH_SCALE (b.cf Reg.NRG_ZC_CFG p 20 16))).natAbs
    let x : NrgPt := if y * 10000 < -((h * full : Nat) : Int) then { x with below := true } else x
    let x : NrgPt := match prev with
      | some q =>
        let y0 := sampleValue q.y
        if q.good = true ∧ y0 < 0 ∧ 0 ≤ y then
          let τ := q.at_ + (((s.at_ : Int) - q.at_) * (-y0) / (y - y0)).toNat
          let far := match x.start with | some a => decide (nsPerS ≤ (τ - a) * 2 * b.ptF0 p) | none => false
          if x.below && far then { x with below := false, cross := some τ } else { x with below := false }
        else x
      | none => x
    b.setNrgPt p x

/-- The unmetered time of a point: flagged samples of its channels, once for each instant (R283). -/
def Block.unmeteredSample (b : Block) (p : Nat) (s : SdmSample) : Block :=
  let x := b.nrgPt p
  if s.good then
    let clean := (b.ptChans p).all (fun c => match (b.sdmCh c).fine with | q :: _ => q.at_ == s.at_ && q.good | [] => false)
    if clean then b.setNrgPt p { x with unmet := false } else b
  else if x.unmet = true ∧ x.unmetAt = s.at_ then b
  else
    let ns := x.unmetNs + nsPerS / b.sdmRate
    let b := b.setNrgPt p { x with unmet := true, unmetAt := s.at_, unmetNs := ns % 1000000 }
    let b := if ns < 1000000 then b else b.count Reg.NRG_PT_UNMETERED_MS p 0 (ns / 1000000)
    if x.unmet then b else (b.irq Blk.nrg 2).eventRep p 0x0C07 p

/-- A fine sample of a channel at the metering points. -/
def Block.nrgSample (b : Block) (c : Nat) (prev : Option SdmSample) (s : SdmSample) : Block :=
  (List.range 4).foldl (fun b p =>
    if b.nrgOn p = false then b
    else
      let b := if (b.ptChans p).contains c then b.unmeteredSample p s else b
      if b.cf Reg.NRG_ZC_CFG p 20 16 = c then b.zcSample p prev s else b) b

/-- The instant of a point's newest sample, with the half period that it stands for. -/
def Block.nrgNewest (b : Block) (p : Nat) : Nat :=
  (b.ptChans p).foldl (fun a c => match (b.sdmCh c).fine with | q :: _ => max a (q.at_ + nsPerS / b.sdmRate / 2) | [] => a) 0

/-- A synchronising reset of all channels at the metered points: metering starts at the one of LOAD; a step of TB0 ends the intervals at the newest
sample and starts the next at the stepped time (R270, R282, R294). -/
def Block.nrgSync (b : Block) (step : Bool) : Block :=
  (List.range 4).foldl (fun b p =>
    match b.nrgOn p, (b.nrgPt p).start with
    | false, _ => b
    | true, none => b.setNrgPt p { b.nrgPt p with start := some b.now }
    | true, some s =>
      if step then
        let b := b.intervalEnd p (max s (b.nrgNewest p)) false
        b.setNrgPt p { b.nrgPt p with start := some b.now, below := false, cross := none }
      else b) b

/-! ### Commands -/

/-- NRG.SNAP (R289). -/
def Block.nrgSnap (b : Block) : Block :=
  { b with nrg := { b.nrg with snap := (List.range 4).map (fun p => (p, (b.accAt p).map accVal)), snapAt := b.now } }

/-- NRG.PT_CMD[CLEAR] (R290). -/
def Block.nrgClear (b : Block) (p : Nat) : Block :=
  if b.sys.mode = .maintenance then
    let x := b.nrgPt p
    if x.clear = 0 then b.setNrgPt p { x with clear := 1 } else b
  else b.count Reg.NRG_PT_CLEAR_REFUSED p

/-! ### Saves (R291 to R294) -/

def Nrg.slotAddr (n : Nat) : Nat := 0x407F0000 + 0x800 * n

/-- Bytes 0–1,055 of a save slot (Table 10.6). -/
def Block.saveBytes (b : Block) (seq : Nat) : List Byte :=
  let frz := b.nrg.frozen
  let head := leBytes 4 0x47524E45 ++ leBytes 4 seq ++ tt80 b.now ++ leBytes 1 (b2n frz.isSome + 2 * b2n ((b.tb 0).st == .locked)) ++ [0] ++
    (match frz with | some f => tt80 f | none => List.replicate 10 0) ++ leBytes 2 0
  head ++ ((List.range 4).map (fun p => ((List.range 32).map (fun i => leBytes 8 (accVal ((b.nrgPt p).acc.getD i 0)))).flatten)).flatten

/-- The slot with the older number, where the next save goes. -/
def Block.saveSlot (b : Block) : Nat := if b.nrg.slot = 0 then 1 else 0

/-- A periodic save begins: all accumulators copied, the slot written but for its CRC (R292). -/
def Block.periodicSave (b : Block) : Block :=
  if b.nrg.saving.isSome ∨ b.nrg.frozen.isSome = true ∨ b.t7 < b.nrg.nextSave ∨ b.sys.mode = .load then b
  else
    let seq := (b.nrg.seq + 1) % 2 ^ 32
    let n := b.saveSlot
    let bs := b.saveBytes seq
    let period := max 1 (b.cf Reg.NRG_SAVE_CFG 0 5 0) * nsPerS
    let b := b.store (Nrg.slotAddr n) bs
    { b with nrg := { b.nrg with saving := some (n, seq, bs), nextSave := (b.t7 / period + 1) * period } }

/-- The end of a save: its CRC makes the slot good, or it has failed. -/
def Block.saveDone (b : Block) (good : Bool) : Block :=
  match b.nrg.saving with
  | none => b
  | some (n, seq, bs) =>
    let b := { b with nrg := { b.nrg with saving := none } }
    if good then
      let b := b.storeN (Nrg.slotAddr n + 1056) 4 (crc32 bs)
      ({ b with nrg := { b.nrg with slot := n, seq := seq } }).count Reg.NRG_SAVES
    else ((b.count Reg.NRG_SAVE_FAIL).irq Blk.nrg 3).event 0x0C06

/-- A whole save in one go: the final save, and the one an image switch makes. -/
def Block.saveNow (b : Block) : Block :=
  let n := match b.nrg.saving with | some (n, _, _) => n | none => b.saveSlot
  let seq := (b.nrg.seq + 1) % 2 ^ 32
  let bs := b.saveBytes seq
  let b := b.store (Nrg.slotAddr n) (bs ++ leBytes 4 (crc32 bs))
  ({ b with nrg := { b.nrg with saving := none, slot := n, seq := seq } }).count Reg.NRG_SAVES

/-- Accumulation frozen at the power-fail warning or a thermal trip, with the final save (R293). -/
def Block.nrgFreeze (b : Block) : Block :=
  if b.nrg.frozen.isSome then b
  else
    let b := (List.range 4).foldl (fun b p => if b.nrgOn p && (b.nrgPt p).start.isSome then b.intervalEnd p b.now false else b) b
    (({ b with nrg := { b.nrg with frozen := some b.now } }).event 0x0C03).saveNow

/-- Whether a slot holds a good save. -/
def Block.slotGood (b : Block) (n : Nat) : Bool :=
  let bs := b.load (Nrg.slotAddr n) 1060
  leAt bs 0 4 == 0x47524E45 && leAt bs 1056 4 == crc32 (bs.take 1056)

/-- TB0 virtual from the saved second, plus 1 (R237). -/
def Block.tb0Start (b : Block) (saved : Option Nat) : Block :=
  b.setTb 0 { TimeBase.reset with va := (match saved with | some s => ((s : Int) + 1) * 65536000000000 | none => 0) }

/-- The energy loaded at LOAD from the newer good slot (R294), TB0's second with it. -/
def Block.energyResume (b : Block) : Block :=
  let g0 := b.slotGood 0
  let g1 := b.slotGood 1
  let s0 := b.loadN (Nrg.slotAddr 0 + 4) 4
  let s1 := b.loadN (Nrg.slotAddr 1 + 4) 4
  let pick := if g0 && (!g1 || !later 32 s1 s0) then 0 else if g1 then 1 else 2
  if pick = 2 then
    let b := { b with nrg := { Nrg.reset with lost := true, resume := 2, nextSave := (b.t7 / nsPerS + 1) * nsPerS } }
    ((b.tb0Start none).irq Blk.nrg 0).event 0x0C02 0xFFFF 0 2
  else
    let a := Nrg.slotAddr pick
    let frz := bit (b.loadN (a + 18) 1) 0
    let at_ := if frz then a + 20 else a + 8
    let sec := b.loadN at_ 6
    let ns := b.loadN (at_ + 6) 4
    let pts := (List.range 4).map (fun p => (p, ({ NrgPt.reset with
      acc := (List.range 32).map (fun i => b.loadN (a + 32 + (32 * p + i) * 8) 8 * 16777216) } : NrgPt)))
    let seq := if pick = 0 then s0 else s1
    let r := pick + 4 * b2n frz
    let n : Nrg := { Nrg.reset with pts := pts.filter (fun e => e.2 != NrgPt.reset), slot := pick, seq := seq, resume := r, unmetered := sec * nsPerS + ns, nextSave := (b.t7 / nsPerS + 1) * nsPerS }
    let b := { b with nrg := n }
    let b := b.tb0Start (some (b.loadN (a + 8) 6))
    b.eventAt 0x0C01 0xFFFF seq r b.now false (some [ns % 2 ^ 32, sec % 2 ^ 32, sec / 2 ^ 32 % 65536, 0, 0, 0, 0, 0])

end Sys2Proof.Machine
end

