-- ==== Sys2Proof/Machine/SdmOps.lean ====
section
/-! DEFINITION. The modulator channels: samples delivered, faults, synchronising resets, local records, hand-over (R264 to R280,
R295). -/

namespace Sys2Proof.Machine

/-- A channel's decimator cleared: the samples that follow are SETTLING (R271, R272), as many as the phase response has. -/
def Block.sdmCleared (b : Block) (c : Nat) : Block :=
  b.setSdmCh c { b.sdmCh c with
    settle := if b.cb Reg.SDM_CFG 0 2 then 16 else 40, settleC := 3, resetAt := some b.t7, bits := [], rawFine := [], rawCoarse := [] }

/-- A channel's decimator cleared and restarted, once in a cycle (R270). -/
def Block.sdmRestart (b : Block) (c : Nat) : Block :=
  if (b.sdmCh c).resetAt = some b.t7 then b else (b.sdmCleared c).count Reg.SDM_CH_SYNCS c

/-- A synchronising reset of all channels with its causes as a mask: bit 0 the first second after LOAD configured SDM, bit 1 a
step of TB0, bit 2 a hand-over, bit 3 SDM.CMD; causes of one cycle give one (R270). -/
def Block.sdmSync (b : Block) (causes : Nat) : Block :=
  if b.sdm.syncT = some b.t7 then b
  else
    let b := (List.range 16).foldl (fun b c => if b.sdmRuns c then b.sdmRestart c else b) b
    let b := { b with sdm := { b.sdm with lastSync := b.now, syncT := some b.t7 } }
    let b := b.nrgSync (bit causes 1)
    ((b.capStep).irq Blk.sdm 0).event 0x0B01 0xFFFF causes

/-- A reset of all channels asked for at the next whole TB0 second. -/
def Block.sdmSyncAt (b : Block) (cause : Nat) : Block :=
  let old := match b.sdm.syncAt with | some (t, c) => (t, c ||| cause) | none => ((b.now / nsPerS + 1) * nsPerS, cause)
  { b with sdm := { b.sdm with syncAt := some old } }

/-- SYNC_RESET: the whole second has come. -/
def Block.sdmSyncDue (b : Block) : Block :=
  match b.sdm.syncAt with
  | some (t, c) => if t ≤ b.now then ({ b with sdm := { b.sdm with syncAt := none } }).sdmSync c else b
  | none => b

/-- DECIMATOR_OUTPUT: a sample of a running channel at every consumer. -/
def Block.decimatorOutput (b : Block) (c : Nat) (coarse : Bool) (x : DecimIn) : Block :=
  if b.sdmRuns c = false then b
  else
    let prev := ((b.sdmCh c).path coarse).head?
    let q := b.sdmEmit c coarse x
    let b := q.1
    let s := q.2
    let b := if s.ovr && !coarse then
        ((b.count Reg.SDM_CH_OVR_SAMPLES c).irq Blk.sdm 3).eventRep c 0x0B04 c
      else b
    let b := if coarse then b else b.nrgSample c prev s
    b.capSample c coarse s

/-- CH_FAULT (R266). -/
def Block.chFault (b : Block) (c : Nat) : Block :=
  let x := b.sdmCh c
  if b.sdmRuns c = false ∨ x.fault = true then b
  else (((b.setSdmCh c { x with fault := true }).count Reg.SDM_CH_FAULTS c).irq Blk.sdm 1).event 0x0B02 c

/-- CH_RECOVER: the channel leaves FAULT and is restarted alone (R266). -/
def Block.chRecover (b : Block) (c : Nat) : Block :=
  let x := b.sdmCh c
  if x.fault = false then b
  else (((b.setSdmCh c { x with fault := false }).sdmRestart c).irq Blk.sdm 2).event 0x0B03 c

/-! ### Local records (R275 to R279) -/

/-- W in nominal periods, by class (R276). -/
def Block.ptWindow (b : Block) (p : Nat) : Nat :=
  if b.cb Reg.SDM_PT_CFG p 30 then
    let n := max 1 (b.cf Reg.STR_CTX_CTRL (b.cf Reg.SDM_PT_CFG p 12 0) 23 16)
    max 3 (ceilDiv (2 * b.ptF0 p * n) (max 1 (b.ringRate 0)))
  else 2

/-- Half the span of a record in ns (R277). -/
def Block.ptHalf (b : Block) (p : Nat) : Nat := nsPerS * (1 + b.ptWindow p) / (2 * b.ptF0 p)

/-- The samples of a channel in a span. -/
def Block.inSpan (b : Block) (c : Nat) (coarse : Bool) (lo hi : Nat) : List SdmSample :=
  ((b.sdmCh c).path coarse).filter (fun q => decide (lo ≤ q.at_) && decide (q.at_ ≤ hi))

/-- The elements of a POISONED local record, which the spec leaves open. -/
def poisonElems (p slot : Nat) : Elems :=
  let v (i : Nat) : Nat := (Config.num .element [p, slot, i]).toNat
  ⟨(List.range 8).map (fun i => (v (2 * i), v (2 * i + 1))), v 16, v 17, (List.range 4).map (fun i => v (18 + i)), [v 22 % 65536]⟩

/-- Status by the first matching row of Table 10.3, and whether the coarse samples are used. A named channel with no sample in
the span counts as one in FAULT. -/
def Block.ptVerdict (b : Block) (p lo hi : Nat) : Nat × Bool :=
  let ch := b.ptChans p
  let fine := (ch.map (fun c => b.inSpan c false lo hi)).flatten
  let coarse := (ch.map (fun c => b.inSpan c true lo hi)).flatten
  if fine.any (fun q => q.fault) || ch.any (fun c => (b.inSpan c false lo hi).isEmpty) then (3, false)
  else if fine.any (fun q => q.settling) then
    if b.cb Reg.SDM_PT_CFG p 28 && coarse.all SdmSample.good && !coarse.isEmpty then (7, true) else (6, false)
  else if b.timeUnlocked then (4, false) else (0, false)

/-- The samples of a named channel in a span, as timed values. -/
def Block.spanValues (b : Block) (c : Nat) (coarse : Bool) (lo hi : Nat) : List TimedValue :=
  (b.inSpan c coarse lo hi).map (fun q => (q.at_, q.y))

/-- The elements of a point's record for a slot time (R276 to R278, Table 10.2): phasors corrected at the measured frequency, the sequence
phasors, frequency, ROCOF, powers, and the zero-crossing frequency; none as NaN where a channel or a ratio is none. -/
def Block.ptElems (b : Block) (p st : Nat) (coarse : Bool) (slotNs lo hi : Nat) : Elems :=
  let nan := st == 3 || st == 6
  let f0 := b.ptF0 p
  let k := b.ptWindow p
  let classM := b.cb Reg.SDM_PT_CFG p 30
  let ratio (cur : Bool) : Nat := b.cn (if cur then Reg.SDM_PT_IRATIO else Reg.SDM_PT_VRATIO) p
  let values (cur : Bool) (i : Nat) : Option (List TimedValue) :=
    match b.ptCh p cur i with
    | some c =>
      let v := b.spanValues c coarse lo hi
      if nan || f32NaN (ratio cur) || f32Inf (ratio cur) || v.any (fun x => f32NaN x.2 || f32Inf x.2) then none else some v
    | none => none
  let raw (cur : Bool) (i : Nat) (j : Int) : Option Cx := (values cur i).map (phasorAt f0 k classM slotNs j)
  let seqAt (cur : Bool) (j : Int) : Option Cx :=
    match raw cur 0 j, raw cur 1 j, raw cur 2 j with
    | some x, some y, some z => some (seqPhasor x y z)
    | _, _, _ => none
  let v1 := ([-2, -1, 0, 1, 2] : List Int).filterMap (seqAt false)
  let θ := anglesOf v1
  let known := v1.length == 5
  let h := if known then windowResponse f0 k classM (freqOf f0 θ - (f0 : Int) * (qOne : Int)) else qOne
  let primary (cur : Bool) (x : Cx) : Cx :=
    let r := qOfF32 (ratio cur)
    (qMul (qDiv x.1 h) r, qMul (qDiv x.2 h) r)
  let ph (cur : Bool) (i : Nat) : Option Cx := (raw cur i 0).map (primary cur)
  let seq (cur : Bool) : Option Cx := (seqAt cur 0).map (primary cur)
  let pair (x : Option Cx) : Nat × Nat := match x with | some e => (f32OfQ e.1, f32OfQ e.2) | none => (f32QNaN, f32QNaN)
  let vi := (List.range 3).filterMap (fun i => match ph false i, ph true i with | some v, some c => some (v, c) | _, _ => none)
  let s := pqsOf vi
  let pqs : List Nat := if vi.length = 3 then [f32OfQ s.1, f32OfQ s.2.1, f32OfQ s.2.2] else List.replicate 3 f32QNaN
  let fq (x : Int) : Nat := if known then f32OfQ x else f32QNaN
  let zc := if nan || (b.nrgPt p).fallback then f32QNaN else (b.vis Reg.NRG_PT_ZC_FREQ p).toNat
  let ovr := (b.ptChans p).any (fun c => (b.inSpan c coarse lo hi).any (fun q => q.ovr))
  let dig := b2n coarse + 2 * b2n ovr + 4 * b2n (b.nrgPt p).fallback + 8 * b2n b.nrg.frozen.isSome
  ⟨(List.range 3).map (fun i => pair (ph false i)) ++ [pair (seq false)] ++ (List.range 3).map (fun i => pair (ph true i)) ++ [pair (seq true)],
    fq (freqOf f0 θ), fq (rocofOf f0 θ), pqs ++ [zc], [dig]⟩

/-- LOCAL_RECORD_HANDOVER for a slot of the main ring: the record handed to STR's write path once the last sample of its span
has been output (R279). -/
def Block.localRecord (b : Block) (p slot : Nat) : Block :=
  let c := b.cf Reg.SDM_PT_CFG p 12 0
  let rate := b.ringRate 0
  let slotNs := slotTime rate slot
  let half := b.ptHalf p
  let hi := slotNs + half
  let period := nsPerS / b.sdmRate
  let out := (b.ptChans p).all (fun d => match (b.sdmCh d).fine with | q :: _ => decide (hi < q.at_ + period) | [] => false)
  let done := match Tbl.get b.sdm.ptLast p none with | some l => l == slot | none => false
  if b.cb Reg.SDM_CFG 0 31 = false ∨ b.cb Reg.SDM_PT_CFG p 31 = false ∨ rate = 0 ∨ out = false ∨ done = true ∨
      slot % max 1 (b.cf Reg.STR_CTX_CTRL c 23 16) ≠ 0 then b
  else
    let b := { b with sdm := { b.sdm with ptLast := Tbl.put b.sdm.ptLast p (some slot) none } }
    let bad := !(b.enginePoison Blk.sdm).isEmpty
    let (st, coarse) := if bad then (5, false) else b.ptVerdict p (slotNs - half) hi
    let el := if bad then poisonElems p slot else b.ptElems p st coarse slotNs (slotNs - half) hi
    let b := b.engineRewrite Blk.sdm
    let b := b.setVis Reg.SDM_PT_STATUS p 0 (w32 (st * 2 ^ 28))
    let b := b.count Reg.SDM_PT_RECORDS p
    let b := if st = 7 then b.count Reg.SDM_PT_COARSE p else if st = 6 then b.count Reg.SDM_PT_SETTLING p else b
    let arr := b.now
    let rc : Rec := ⟨st, 0, b.cf Reg.STR_CTX_CTRL c 26 25, b.fracHigh (slotNs / nsPerS), 0, arr, slotNs, 0, 0, el.ph, el.freq, el.rocof, el.an, el.dg⟩
    let bin := latBin ((arr : Int) - slotNs)
    let f := rc.feature (b.cfg Reg.STR_CTX_FEAT_SEL c) (b.cfg Reg.STR_CTX_FEAT_DMASK c) (b.strFnom c)
      (b.cn Reg.STR_CTX_VNOM c) (b.cn Reg.STR_CTX_INOM c)
    b.offer ⟨0, slot, c, bin, rc.bytes c, f, none, arr, slot % rate, b.socOf (slot / rate), st, 0, false, rc.hasNaN⟩

/-! ### Hand-over (R295) -/

/-- SDM.COMMIT: while no ring runs the sets wait for the next whole TB0 second. -/
def Block.sdmCommit (b : Block) : Block :=
  let b := b.commit Blk.sdm
  { b with sdm := { b.sdm with handAt := some (b.now / nsPerS + 1) } }

/-- R287 for a hand-over of SDM's sets: the sensor ratios of the metered points that they touch agree with NRG's. -/
def Block.sdmSetsOk (b : Block) (sets : Tbl Word) : Bool :=
  sets.all (fun e =>
    !(keySpace e.1 == 1 && (keyOff e.1 == 0x4C || keyOff e.1 == 0x50)) || !b.nrgOn (keyInst e.1) || b.nrgRatioOk (keyInst e.1))

/-- The committed sets checked and copied; the resets and the emptied rings that changes bring. A reset of the same cycle before it serves for its
own, with the settling counts of the new phase response. -/
def Block.sdmHandover (b : Block) : Block :=
  let mine (k : Nat) : Bool := keyBlk k == Blk.sdm
  if b.comSets mine = [] then b
  else
    let pp := b.cf Reg.SDM_CFG 0 2 0
    let preset := b.cf Reg.SDM_CFG 0 1 0
    let delays (b : Block) : List Nat := (List.range 16).map (fun c => b.cf Reg.SDM_CH_CFG c 21 0)
    let old := delays b
    let b := b.handover mine (fun k => keySpace k * 64 + keyInst k) Block.sdmSetsOk
      (fun b k => (b.irq Blk.sdm 4).event 0x0B05 (if keySpace k = 15 then 0xFFFF else keyInst k))
    let b := { b with sdm := { b.sdm with handAt := some (b.now / nsPerS + 1) } }
    let b := if b.cf Reg.SDM_CFG 0 1 0 = preset then b else (List.range 8).foldl Block.capEmpty b
    if b.cf Reg.SDM_CFG 0 2 0 ≠ pp then
      let running := (List.range 16).filter b.sdmRuns
      running.foldl Block.sdmCleared (b.sdmSync 4)
    else (List.range 16).foldl (fun b c => if old.getD c 0 = b.cf Reg.SDM_CH_CFG c 21 0 then b else b.sdmRestart c) b

/-- SDM_SHADOW_HANDOVER: at the whole second, while the main ring does not run. -/
def Block.sdmShadow (b : Block) : Block :=
  match b.sdm.handAt with
  | some s => if (b.ring 0).run = false ∧ s ≤ b.now / nsPerS then b.sdmHandover else b
  | none => b

end Sys2Proof.Machine
end

