-- ==== Sys2Proof/Machine/RadOps.lean ====
section
/-! DEFINITION. The radio tier: slots and cells, uplinks and reports, downlinks, pending bits, the time parent (R309 to R324). -/

namespace Sys2Proof.Machine

def Block.setRadNode (b : Block) (n : Nat) (x : RadNode) : Block := { b with rad := { b.rad with nodes := Tbl.put b.rad.nodes n x RadNode.reset } }

/-! ### Slots and cells (R309, R311, R312) -/

def Block.radTp (b : Block) : Nat := b.cf Reg.RAD_CFG 0 28 27
def Block.radL (b : Block) : Nat := max 1 (b.cf Reg.RAD_CFG 0 9 0)

/-- One cell of the table. -/
structure RadCell where
  type : Nat
  unit : Nat
  choff : Nat
  node : Nat
  deriving DecidableEq, Repr

/-- The cells active in a slot. -/
def Block.radCells (b : Block) (asn : Nat) : List RadCell :=
  (b.listed Reg.RAD_CELL_CFG).filterMap (fun i =>
    let w := b.cn Reg.RAD_CELL_CFG i
    if bit w 31 && bits w 19 10 == asn % b.radL && b.cb Reg.RAD_UNIT_CFG (bits w 27 26) 31 then
      some ⟨bits w 30 28, bits w 27 26, bits w 25 20, bits w 9 0⟩ else none)

/-- The cell of a unit in the slot in progress. -/
def Block.radCell (b : Block) (u : Nat) : Option RadCell :=
  if b.rad.slot = 0 ∨ b.radAsn + 1 ≠ b.rad.slot then none else (b.radCells (b.rad.slot - 1)).find? (fun c => c.unit == u)

/-- Whether units may transmit in dedicated cells and send EBs (R322). -/
def Block.radMayTx (b : Block) : Bool := b.rad.lost.isNone && b.rad.resumeAt.isNone && Cap.records b.sys.mode

/-- The hopping sequence of a unit's PHY (R309). -/
def Block.radHops (b : Block) (u : Nat) : List Nat := Tbl.get b.rad.hops (b2n (b.cb Reg.RAD_UNIT_CFG u 30)) []

/-- The channel of a cell in a slot: HS[(ASN + CH_OFF) mod len] (R312). -/
def Block.radChannel (b : Block) (c : RadCell) (asn : Nat) : Nat :=
  let h := b.radHops c.unit
  h.getD ((asn + c.choff) % h.length) 0

/-- A frame sent in a cell on its channel, with the others of its instant: unit, channel, bytes. -/
def Block.radSend (b : Block) (c : RadCell) (f : List Byte) : Block :=
  let o := if b.rad.air.1 = b.t7 then b.rad.air.2 else []
  ({ b with rad := { b.rad with air := (b.t7, o ++ [(c.unit, b.radChannel c (b.rad.slot - 1), f)]) } }).count Reg.RAD_UNIT_TX c.unit

/-- A node's pending bit as it stood before a firmware write of this cycle (R324). -/
def Block.radPending (b : Block) (n : Nat) : Bool :=
  match (if b.rad.pendAt.1 = b.t7 then b.rad.pendAt.2 else []).find? (fun e => e.1 == n) with
  | some e => e.2
  | none => (b.radNode n).pend

/-- RAD sets a node's pending bit; a firmware clear of the same cycle leaves it set (R324). -/
def Block.radPendSet (b : Block) (n : Nat) : Block :=
  let o := if b.rad.pendRad.1 = b.t7 then b.rad.pendRad.2 else []
  let b := b.setRadNode n { b.radNode n with pend := true }
  { b with rad := { b.rad with pendRad := (b.t7, setIns o n) } }

/-- The nominal start of a frame in a slot, in µs (Table 12.2). -/
def Block.radTxOffset (b : Block) (u : Nat) : Nat := if b.cb Reg.RAD_UNIT_CFG u 30 then 5000 else 2120

/-- GUARD and WIDE in µs. -/
def Block.radGuard (b : Block) : Nat := b.cf Reg.RAD_GUARD 0 12 0
def Block.radWide (b : Block) : Nat := b.cf Reg.RAD_GUARD 0 28 16

/-! ### Keys (R316, R317) -/

/-- The radio root, where it is usable. -/
def Block.radRoot (b : Block) : Option (List Byte) :=
  let k := b.slot (b.cf Reg.RAD_ROOT_SLOT 0 5 0)
  if k.valid && bit k.attr 2 && bit k.attr 3 && !b.sys.zeroised then some k.bytes else none

def Block.radEui (b : Block) (n : Nat) : Nat := b.cn Reg.RAD_NODE_EUI_LO n + b.cn Reg.RAD_NODE_EUI_HI n * 2 ^ 32

/-- The key of a node: HKDF-SHA256 over the root with info "YD-RADIO" and the EUI-64. -/
def radKey (root : List Byte) (eui : Nat) : List Byte :=
  hkdf root [] ([0x59, 0x44, 0x2D, 0x52, 0x41, 0x44, 0x49, 0x4F] ++ beBytes 8 eui) 16

/-- The CCM* nonce: the sender's EUI-64, the ASN, the level. -/
def radNonce (eui asn level : Nat) : List Byte := beBytes 8 eui ++ beBytes 5 asn ++ beBytes 1 level

def Block.unitEui (b : Block) (u : Nat) : Nat := b.cn Reg.RAD_UNIT_EUI_LO u + b.cn Reg.RAD_UNIT_EUI_HI u * 2 ^ 32

/-- The security level of a node. -/
def Block.radLevel (b : Block) (n : Nat) : Nat := if b.cb Reg.RAD_NODE_CFG n 30 then 6 else 5

/-- A frame secured by CCM* under a key: the header, the body encrypted, the MIC over both, the FCS (R316). -/
def radSeal (key nonce : List Byte) (level : Nat) (head plain : List Byte) : List Byte :=
  withFcs (head ++ ccmCrypt key nonce plain ++ ccmTag key nonce head plain (macMic level))

/-- A secured frame opened: its body, where the MIC is good (R316). -/
def radOpen (key nonce : List Byte) (level : Nat) (psdu : List Byte) (m : MacFrame) : Option (List Byte) :=
  let n := m.body.length - macMic level
  let plain := ccmCrypt key nonce (m.body.take n)
  if m.body.drop n = ccmTag key nonce (psdu.take m.front) plain (macMic level) then some plain else none

/-- A sequence number of a frame that RAD originates, which the spec does not give. -/
def radSeq (u asn : Nat) : Nat := Config.stdField 21 [u, asn] % 256

/-- The Enh-ACK to a node's frame (R313): its time correction in µs and the frame-pending bit. -/
def Block.radAck (b : Block) (u n asn : Nat) (root : List Byte) (seq : Option Nat) (us : Int) (more : Bool) : List Byte :=
  let lv := b.radLevel n
  let head : MacHead := ⟨2, true, more, false, true, true, 2, seq, none, some (3, b.radEui n), none, none⟩
  radSeal (radKey root (b.radEui n)) (radNonce (b.unitEui u) asn lv) lv (head.bytes ++ macSecurity lv ++ timeCorrection us) []

/-- A downlink to a node (R321): a data frame from the unit's short address. -/
def Block.radDown (b : Block) (u n asn : Nat) (root : List Byte) (plain : List Byte) : List Byte :=
  let lv := b.radLevel n
  let head : MacHead := ⟨1, true, false, true, true, false, 2, some (radSeq u asn), some (b.cn Reg.RAD_PAN_ID), some (3, b.radEui n), none,
    some (2, b.cf Reg.RAD_UNIT_CFG u 15 0)⟩
  radSeal (radKey root (b.radEui n)) (radNonce (b.unitEui u) asn lv) lv (head.bytes ++ macSecurity lv) plain

/-! ### Items and node states -/

/-- An item to the notification queue; one that finds it full is lost and counted. -/
def Block.radItem (b : Block) (kind n : Nat) : Block :=
  let q := fld (b.vis Reg.RAD_NOTIFY_QUEUE) 5 0
  let x := b.queue q
  let full := b.qen q && (x.discarding || x.breakPending || decide (b.qcap q ≤ x.items.length))
  let b := b.push q (kind * 2 ^ 56 + n * 2 ^ 32 + (b.rad.slot - 1) % 2 ^ 32) true
  if full then b.count Reg.RAD_G_REPORT_DROP else b

/-- A node event: the node and the ASN. -/
def Block.radEvent (b : Block) (code n : Nat) : Block := b.event code n ((b.rad.slot - 1) % 2 ^ 32) ((b.rad.slot - 1) / 2 ^ 32)

/-- A frame heard from a node in a unit's cell (R320): the run of misses ends, a STALE node recovers. -/
def Block.radHeard (b : Block) (u n : Nat) : Block :=
  let x := b.radNode n
  let b := b.setRadNode n { x with st := 1, miss := 0, asn := b.rad.slot - 1, resync := false }
  let b := { b with rad := { b.rad with heard := setIns b.rad.heard u } }
  if x.st = 2 then ((b.radItem 4 n).irq Blk.rad 1).radEvent 0x0E07 n else b

/-- The drift estimate after an offset of x µs measured at a TB5 instant (R319). -/
def Block.radDrift (b : Block) (n : Nat) (x : Int) (at_ : Nat) : Block :=
  let y := b.radNode n
  let d := match y.corrAt with
    | some c =>
      let dt := at_ - c
      if dt = 0 then y.d else f32OfRat (3 * f32Val y.d * dt + x * nsPerS * 2 ^ 149) (4 * dt * 2 ^ 149)
    | none => y.d
  b.setRadNode n { y with d := d }

/-- A third consecutive miss (R320). -/
def Block.radStale (b : Block) (n : Nat) : Block :=
  let x := b.radNode n
  let y : RadNode := { x with st := 2, resync := true, post := x.post + 1, tries := if x.dl.isSome then x.tries else 0 }
  (((((b.setRadNode n y).radPendSet n).count Reg.RAD_NODE_STALES n).radItem 3 n).irq Blk.rad 0).radEvent 0x0E06 n

/-! ### Reports (R318) -/

/-- The record and feature of a compact report (Table 12.4); POISONED with elements that the spec leaves open where RAD's buffers held poison. -/
def Block.radReport (b : Block) (n arr : Nat) (bad : Bool) (r : List Byte) : Block :=
  let b0 := beAt r 0 1
  if bits b0 7 6 ≠ 0 then b.count Reg.RAD_G_REPORT_DROP
  else
    let b := b.count Reg.RAD_NODE_REPORTS n
    let c := b.cf Reg.RAD_NODE_CFG n 12 0
    let rate := b.ringRate 1
    let seq := leAt r 1 2
    let top := slotAfter rate (b.tbNow 5) - 1
    let slot := top - (top + 65536 - seq % 65536) % 65536
    let div := b.cf Reg.STR_CTX_CTRL c 23 16
    if b.strEnabled c = false then b.count Reg.STR_RX_DISABLED c
    else if 1 < div ∧ slot % max 1 rate % div ≠ 0 then (b.count Reg.STR_OFFGRID c).eventRep c 0x0405 c
    else
      let slotNs := slotTime rate slot
      let r := if bad then r.take 3 ++ (List.range 7).map (fun i => (Config.num .element [n, slot, i]).setWidth 8) else r
      let dev := sgn 16 (leAt r 3 2)
      let mag := leAt r 5 2
      let soc := leAt r 9 1
      let st := if bad then 5 else if bit b0 4 then 3 else if bit b0 5 || (b.radChild && (b.rad.lost.isSome || b.rad.scanning)) then 4 else 0
      let f := f32OfRat ((b.strFnom c : Int) * 1000 + dev) 1000
      let an := [f32OfRat (f32Val (b.cn Reg.STR_CTX_VNOM c) * mag) (2 ^ 163),
        f32OfRat (f32Val (b.cn Reg.RAD_NODE_PRATED n) * sgn 16 (leAt r 7 2)) (2 ^ 163),
        if soc = 255 then f32QNaN else f32OfRat soc 2]
      let rc : Rec := ⟨st, 0, 0, b0 % 16, b0, arr, slotNs, 0, seq, [], f, f32QNaN, an, [b0]⟩
      let d10 := clampI (-32767) 32767 (dev * 10)
      let fs := st * 4096 + b2n (mag == 0xFFFF) * 2048 + 1024 + 512 + b2n (decide (32767 < (dev * 10).natAbs)) * 128 + b0 % 16
      let feat := leBytes 4 0 ++ leBytes 2 mag ++ leBytes 2 (BitVec.ofInt 16 d10).toNat ++ leBytes 2 0x8000 ++ leBytes 2 fs ++
        leBytes 2 (b0 &&& b.cn Reg.STR_CTX_FEAT_DMASK c) ++ leBytes 2 0
      let bin := latBin ((arr : Int) - slotNs)
      b.offer ⟨1, slot, c, bin, rc.bytes c, feat, none, arr, slot % max 1 rate, b.socOf (slot / max 1 rate), st, 0, false, true⟩

/-- The payload of an uplink: a count byte and that many reports. -/
def Block.radPayload (b : Block) (n : Nat) (p : List Byte) : Block :=
  let k := beAt p 0 1
  if k = 0 ∨ 8 < k ∨ p.length ≠ 1 + 10 * k then b.count Reg.RAD_G_REPORT_DROP
  else
    let bad := !(b.enginePoison Blk.rad).isEmpty
    (List.range k).foldl (fun b i => b.radReport n b.now bad (slice p (1 + 10 * i) 10)) (b.engineRewrite Blk.rad)

/-! ### Uplinks (R313, R315 to R320) -/

/-- Whether a frame's start lies in the window that a unit's cell holds open. -/
def Block.radInWindow (b : Block) (c : RadCell) (x : Int) : Bool :=
  let w := if c.type = 1 ∧ (b.radNode c.node).wide = true then b.radWide else b.radGuard
  decide (2 * x.natAbs ≤ w)

/-- What a unit makes of a frame before its source (R310, R313, R315): a PHR above 127, a bad FCS and a form that RAD does not support end it, as
do another PAN and another destination than the unit's short address (a beacon's is the broadcast address; an acknowledgement's may be
the EUI-64 that a keep-alive came from). -/
def Block.radReceive (b : Block) (u : Nat) (f : RadFrame) : Block × Option MacFrame :=
  if 127 < f.phr then (b.count Reg.RAD_G_BAD_FRAME, none)
  else
    let b := b.count Reg.RAD_UNIT_RX u
    if fcsGood f.psdu = false then (b, none)
    else match readMac (f.psdu.take (f.psdu.length - 2)) with
      | none => (b.count Reg.RAD_G_BAD_FRAME, none)
      | some m =>
        let pan := b.cn Reg.RAD_PAN_ID
        let dsts : List (Option (Nat × Nat)) := some (2, b.cf Reg.RAD_UNIT_CFG u 15 0) ::
          (if m.head.kind = 0 then [some (2, 0xFFFF)] else if m.head.kind = 2 then [some (3, b.unitEui u)] else [])
        if m.supported = false then (b.count Reg.RAD_G_BAD_FRAME, none)
        else if m.head.dstPan.getD pan ≠ pan ∨ dsts.contains m.head.dst = false then (b.count Reg.RAD_G_FILTERED, none)
        else (b, some m)

/-- A frame of a node that fails its level or its MIC (R316). -/
def Block.radAuthFail (b : Block) (n asn : Nat) : Block :=
  ((b.count Reg.RAD_NODE_AUTH_FAIL n).irq Blk.rad 4).eventRep n 0x0E09 n (asn % 2 ^ 32)

/-- A secured frame with no usable root (R317). -/
def Block.radKeyAbsent (b : Block) (n asn : Nat) : Block :=
  ((b.count Reg.RAD_G_KEY_ABSENT).irq Blk.rad 5).eventRep 0 0x0E0B n (asn % 2 ^ 32)

/-- A data frame of a node's in a cell that receives it: verified, delivered, acknowledged (R313, R316 to R320). `aborted` says that a tamper
zeroisation fell in the derivation or the CCM* run. -/
def Block.nodeFrame (b : Block) (u : Nat) (c : RadCell) (n : Nat) (f : RadFrame) (m : MacFrame) (aborted : Bool) : Block :=
  let asn := b.rad.slot - 1
  let eui := b.radEui n
  let lv := b.radLevel n
  if aborted then (b.count Reg.RAD_G_KEY_ABORT).radEvent 0x0E0A n
  else match b.radRoot with
  | none => if m.control.isNone then b.radAuthFail n asn else b.radKeyAbsent n asn
  | some root =>
    match (if m.level = lv then radOpen (radKey root eui) (radNonce eui asn lv) lv f.psdu m else none) with
    | none => b.radAuthFail n asn
    | some plain =>
      let b := b.count Reg.RAD_NODE_FRAMES n
      let startAt := b.radEpoch + asn * b.radSlotNs + b.radTxOffset u * 1000
      let b := b.radDrift n f.start (((startAt : Int) + f.start * 1000).toNat)
      let b := b.setRadNode n { b.radNode n with x := f.start }
      let b := (b.radHeard u n).radPayload n plain
      if b.radMayTx then
        let x := b.radNode n
        let more := b.radPending n || x.dl.isSome || x.resync
        let b := (b.radSend c (b.radAck u n asn root m.head.seq (-f.start) more)).count Reg.RAD_UNIT_ACK_TX u
        b.setRadNode n { b.radNode n with corrAt := some (b.tbNow 5) }
      else b

/-- Whether a unit is the TP_UNIT while it scans, and serves no cell (R322). -/
def Block.radScans (b : Block) (u : Nat) : Bool := b.radChild && b.rad.scanning && u == b.radTp

/-- UPLINK_FRAME on a unit: what RAD does between the frame's last bit and its Enh-ACK. An UPLINK cell takes its node's frame alone; a frame of
the time parent is no node's. -/
def Block.uplinkFrame (b : Block) (u : Nat) (f : RadFrame) (aborted : Bool) : Block :=
  match b.radCell u with
  | none => b
  | some c =>
    if b.radOn = false ∨ (c.type ≠ 1 ∧ c.type ≠ 3) ∨ b.radScans u = true ∨ f.chan ≠ b.radChannel c (b.rad.slot - 1) ∨
        b.radInWindow c f.start = false then b
    else
      let r := b.radReceive u f
      let b := r.1
      match r.2 with
      | none => b
      | some m =>
        if m.head.kind ≠ 1 then b
        else
          let eui := match m.head.src with | some (3, e) => some e | _ => none
          match (b.listed Reg.RAD_NODE_CFG).find? (fun n => some (b.radEui n) == eui && b.cb Reg.RAD_NODE_CFG n 31) with
          | none =>
            if b.radChild && eui.isSome && eui == b.rad.parent then b
            else (b.count Reg.RAD_G_UNKNOWN_SRC).eventRep (match m.head.src with | some e => e.2 | none => 0) 0x0E08 0xFFFF ((b.rad.slot - 1) % 2 ^ 32)
          | some n => if c.type = 1 ∧ n ≠ c.node then b else b.nodeFrame u c n f m aborted

/-- UPLINK_MISSED on a unit: its UPLINK cell has ended with nothing authenticated from its node. -/
def Block.uplinkMissed (b : Block) (u : Nat) : Block :=
  match b.radCell u with
  | none => b
  | some c =>
    if c.type ≠ 1 ∨ b.rad.heard.contains u = true ∨ b.rad.ended.contains u = true then b
    else
      let b := { b with rad := { b.rad with ended := setIns b.rad.ended u } }
      let x := b.radNode c.node
      let m := min 255 (x.miss + 1)
      let b := (b.setRadNode c.node { x with miss := m }).count Reg.RAD_NODE_MISSED c.node
      if m = 3 then b.radStale c.node else b

/-! ### Downlinks (R321) -/

/-- The UPLINK cell of a node predicted: normal or wide listen (R319). -/
def Block.radPredict (b : Block) (c : RadCell) (asn : Nat) : Block :=
  let x := b.radNode c.node
  let start := b.radEpoch + asn * b.radSlotNs + b.radTxOffset c.unit * 1000
  let wide := match x.corrAt with
    | some k => decide (4 * b.radGuard * nsPerS * 2 ^ 149 < (f32Val x.d).natAbs * (start - k) * 10)
    | none => false
  let b := b.setRadNode c.node { x with wide := wide }
  if wide then ((b.radPendSet c.node).count Reg.RAD_NODE_WIDE c.node).eventRep c.node 0x0E05 c.node (asn % 2 ^ 32) else b

/-- A DOWNLINK cell: what is posted for the node, or an empty time correction where its pending bit is set. -/
def Block.radDownlink (b : Block) (c : RadCell) (asn : Nat) : Block :=
  let x := b.radNode c.node
  match b.radRoot with
  | none => b
  | some root =>
    if (x.dl.isSome || x.resync || x.pend) && b.radMayTx then
      let f := b.radDown c.unit c.node asn root (x.dl.getD [])
      (b.setRadNode c.node { x with tries := x.tries + 1, sent := some (x.post, x.dl.isSome) }).radSend c f
    else b

/-- A tamper zeroisation in the CCM* run of downlinks, which falls in the cycle that builds them: they do not leave (R317). -/
def Block.radAbort (b : Block) : Block :=
  if b.rad.air.1 ≠ b.t7 ∨ b.rad.slot = 0 then b
  else
    let cells := (b.radCells (b.rad.slot - 1)).filter (fun c => c.type == 2 && (b.radNode c.node).sent.isSome && b.rad.air.2.any (fun e => e.1 == c.unit))
    cells.foldl (fun b c =>
      let b := { b with rad := { b.rad with air := (b.rad.air.1, b.rad.air.2.filter (fun e => e.1 != c.unit)) } }
      let b := b.setRadNode c.node { b.radNode c.node with sent := none }
      (b.count Reg.RAD_G_KEY_ABORT).radEvent 0x0E0A c.node) b

/-- What an acknowledged attempt leaves: the downlink that it carried is cleared, with the pending bit unless another was posted in the meantime
(R321). -/
def RadNode.acked (y : RadNode) (post : Nat) (own : Bool) (now5 : Nat) : RadNode :=
  { y with dl := if own then none else y.dl, resync := false, pend := y.pend && post != y.post, tries := 0, sent := none, corrAt := some now5 }

/-- DOWNLINK_ACKED on a unit: the node's Enh-ACK, which must be at the node's level under its key, with its time correction. -/
def Block.downlinkAcked (b : Block) (u : Nat) (ack : RadFrame) : Block :=
  match b.radCell u with
  | none => b
  | some c =>
    let asn := b.rad.slot - 1
    let lv := b.radLevel c.node
    let eui := b.radEui c.node
    match (b.radNode c.node).sent with
    | none => b
    | some (post, own) =>
      if c.type ≠ 2 ∨ ack.chan ≠ b.radChannel c asn then b
      else
        let r := b.radReceive u ack
        let b := r.1
        match r.2 with
        | none => b
        | some m =>
          if m.head.kind ≠ 2 then b
          else match b.radRoot with
          | none => b.radKeyAbsent c.node asn
          | some root =>
            match (if m.level = lv then radOpen (radKey root eui) (radNonce eui asn lv) lv ack.psdu m else none), m.correction with
            | some _, some us =>
              let now5 := b.tbNow 5
              let b := b.radDrift c.node (-us) now5
              (b.setRadNode c.node ((b.radNode c.node).acked post own now5)).radHeard u c.node |>.radItem 1 c.node
            | none, _ => b.radAuthFail c.node asn
            | some _, none => b.count Reg.RAD_G_BAD_FRAME

/-- DOWNLINK_UNACKED: after 8 attempts a downlink other than a resynchronisation is given up. -/
def Block.downlinkUnacked (b : Block) (u : Nat) : Block :=
  match b.radCell u with
  | none => b
  | some c =>
    let x := b.radNode c.node
    if c.type ≠ 2 ∨ x.sent.isNone = true then b
    else if x.tries < 8 ∨ (x.dl.isNone = true ∧ x.resync = true) then b.setRadNode c.node { x with sent := none }
    else
      let b := b.setRadNode c.node { x with dl := none, tries := 0, sent := none }
      (b.count Reg.RAD_NODE_DL_FAIL c.node).radItem 2 c.node

/-- RAD.NODE_CMD[DL_POST]. -/
def Block.dlPost (b : Block) (n : Nat) : Block :=
  let x := b.radNode n
  if x.dl.isSome || x.resync then b.count Reg.RAD_NODE_DL_FAIL n
  else
    let a := b.addrOf Reg.RAD_DL_BASE_LO Reg.RAD_DL_BASE_HI + n * 128
    let len := min 96 (b.load8 a).toNat
    b.setRadNode n { x with dl := some (b.loadSafe (a + 1) len), tries := 0, post := x.post + 1 }

/-- RAD.PEND_SET and PEND_CLR: a word of the pending bits (R324). -/
def Block.pendWrite (b : Block) (m : Nat) (set : Bool) (w : Word) : Block :=
  let base := 32 * fld (b.vis Reg.RAD_PEND_IDX m) 4 0
  let mine := if b.rad.pendRad.1 = b.t7 then b.rad.pendRad.2 else []
  ((List.range 32).filter (bit w.toNat)).foldl (fun b i =>
    let n := base + i
    let o := if b.rad.pendAt.1 = b.t7 then b.rad.pendAt.2 else []
    let o := if o.any (fun e => e.1 == n) then o else o ++ [(n, (b.radNode n).pend)]
    let b := { b with rad := { b.rad with pendAt := (b.t7, o) } }
    if set = false ∧ mine.contains n = true then b else b.setRadNode n { b.radNode n with pend := set }) b

/-! ### The time parent (R314, R322) -/

/-- A missed parent cell; the third of a kind in a row ends synchronisation. -/
def Block.parentMiss (b : Block) (eb : Bool) (asn : Nat) : Block :=
  let b := b.count Reg.RAD_G_PARENT_MISS
  let r := b.rad
  let r : Rad := if eb then { r with missEb := r.missEb + 1 } else { r with missKa := r.missKa + 1 }
  let b := { b with rad := r }
  if r.lost.isNone ∧ (r.missEb = 3 ∨ r.missKa = 3) then
    (({ b with rad := { r with lost := some (asn / b.radL), widened := 0 } }).irq Blk.rad 3).event 0x0E01 b.radTp
  else b

/-- The channel that the TP_UNIT listens on for its parent: of the parent cell in progress, or, in a scan, of each of the hopping sequence for a
slotframe in turn (R322). -/
def Block.parentChannel (b : Block) : Option Nat :=
  match b.rad.scan with
  | some s => let h := b.radHops b.radTp; some (h.getD ((b.radAsn / b.radL - s) % max 1 h.length) 0)
  | none => (b.radCell b.radTp).map (fun c => b.radChannel c (b.rad.slot - 1))

/-- What the parent's frame says to the TB5 servo: the beacon's offset x in ns, with the slots by which its ASN differs from TB5's, its join metric
and the parent's EUI-64; or the time correction of an Enh-ACK that verifies under the key of the unit's own EUI-64 (R314). -/
def Block.parentReading (b : Block) (x : Int) (f : RadFrame) (m : MacFrame) : Option (Int × Option (Nat × Nat)) :=
  if m.head.kind = 0 then
    match m.sync, m.head.src with
    | some (asn, metric), some (3, eui) =>
      if b.rad.parent.isNone || b.rad.parent == some eui then some (x + ((b.radAsn : Int) - asn) * b.radSlotNs, some (metric, eui)) else none
    | _, _ => none
  else if m.head.kind = 2 then
    match b.radRoot, b.rad.parent, m.correction with
    | some root, some eui, some us =>
      let key := radKey root (b.unitEui b.radTp)
      if m.control.isSome && (radOpen key (radNonce eui (b.rad.slot - 1) m.level) m.level f.psdu m).isSome then some (us * 1000, none) else none
    | _, _, _ => none
  else none

/-- Transmission to resume at the next slotframe start, once the parent is heard again (step 4 of Table 12.5). -/
def Block.parentBack (b : Block) : Block :=
  if b.rad.lost.isNone then b
  else
    let r : Rad := { b.rad with lost := none, scan := none, missEb := 0, missKa := 0, resumeAt := some (b.radAsn / b.radL + 1) }
    (({ b with rad := r }).irq Blk.rad 2).event 0x0E04 b.radTp

/-- PARENT_FRAME: the time parent's EB, or its Enh-ACK, heard on the TP_UNIT with its start x ns after its nominal start: a measurement of TB5;
after a loss, the resynchronisation. `aborted` says that a tamper zeroisation fell in the CCM* run. -/
def Block.parentFrame (b : Block) (aborted : Bool) (x : Int) (f : RadFrame) : Block :=
  let half : Nat := (min 4000 (b.radGuard + 1000 * b.rad.widened)) * 500
  if b.radOn = false ∨ b.radChild = false ∨ b.parentChannel ≠ some f.chan ∨
      (b.rad.scanning = false ∧ (b.rad.await.isNone = true ∨ half < x.natAbs)) then b
  else
    let r := b.radReceive b.radTp f
    let b := r.1
    match r.2 with
    | none => b
    | some m =>
      let eb := decide (m.head.kind = 0)
      if b.rad.scanning = false ∧ b.rad.await ≠ some eb then b
      else if eb = false ∧ aborted = true then (b.count Reg.RAD_G_KEY_ABORT).event 0x0E0A 0xFFFF
      else if eb = false ∧ m.control.isSome = true ∧ b.radRoot.isNone = true then b.radKeyAbsent 0xFFFF (b.rad.slot - 1)
      else match b.parentReading x f m with
        | none => b
        | some (off, heard) =>
          let scanned := b.rad.scanning
          let b := { b with rad := { b.rad with
            await := none
            missEb := if eb then 0 else b.rad.missEb
            missKa := if eb then b.rad.missKa else 0
            metric := match heard with | some h => h.1 | none => b.rad.metric
            parent := match heard with | some h => some h.2 | none => b.rad.parent } }
          let b := if scanned then b.stepBy 5 off else (b.measure 5 15 off (Config.num .bound [5]).toNat (some b.t7)).1
          b.parentBack

/-- PARENT_GUARD_WIDEN: one of the two widenings of Table 12.5. -/
def Block.guardWiden (b : Block) : Block :=
  match b.rad.lost with
  | some s =>
    if b.rad.widened < 2 ∧ b.rad.scanning = false ∧ s + b.rad.widened + 1 ≤ b.radAsn / b.radL then
      ({ b with rad := { b.rad with widened := b.rad.widened + 1 } }).event 0x0E02 b.radTp
    else b
  | none => b

/-- PARENT_SCAN: three more slotframes have passed without synchronisation; the scan begins with the first channel of the sequence. -/
def Block.parentScan (b : Block) : Block :=
  match b.rad.lost with
  | some s =>
    if b.rad.scanning = false ∧ s + 6 ≤ b.radAsn / b.radL then
      (({ b with rad := { b.rad with scan := some (b.radAsn / b.radL), await := none } }).count Reg.RAD_G_SCANS).event 0x0E03 b.radTp
    else b
  | none => b

/-! ### The slot -/

/-- The timeslot IE's content: the full template of Table 12.2 in µs; the template's number and the fields that the table does not give are
open, and the turnaround is that of R313. -/
def Block.radTemplate (b : Block) (u : Nat) : List Byte :=
  let o (i : Nat) : Nat := Config.stdField 22 [i]
  let t : List Nat := if b.cb Reg.RAD_UNIT_CFG u 30 then [5000, 1000, 1000, 3040, 11120] else [2120, 600, 400, 1024, 4256]
  let off := t.getD 0 0
  let ack := t.getD 1 0
  let win := t.getD 2 0
  leBytes 1 (o 0) ++ ([o 1, o 2, off, off - b.radGuard / 2, ack - win / 2, ack, b.radGuard, win, 192, t.getD 3 0, t.getD 4 0,
    b.radSlotNs / 1000].map (leBytes 2)).flatten

/-- The channel-hopping IE's content; the sequence's number, the page, the PHY's channels and the current hop are open. -/
def Block.radHopping (b : Block) (u : Nat) : List Byte :=
  let h := b.radHops u
  let o (i : Nat) : Nat := Config.stdField 23 [u, i]
  leBytes 1 (o 0) ++ leBytes 1 (o 1) ++ leBytes 2 (o 2) ++ leBytes 4 (o 3) ++ leBytes 2 h.length ++ (h.map (leBytes 2)).flatten ++ leBytes 2 (o 4)

/-- The slotframe and link IE's content: the EB cells, in which a node listens and keeps time, and the SHARED cells, in which it sends. -/
def Block.radLinks (b : Block) (u : Nat) : List Byte :=
  let cells := (b.listed Reg.RAD_CELL_CFG).filterMap (fun i =>
    let w := b.cn Reg.RAD_CELL_CFG i
    if bit w 31 && bits w 27 26 == u && (bits w 30 28 == 0 || bits w 30 28 == 3) then
      some (leBytes 2 (bits w 19 10) ++ leBytes 2 (bits w 25 20) ++ leBytes 1 (if bits w 30 28 = 0 then 0x0A else 0x05)) else none)
  leBytes 1 1 ++ leBytes 1 0 ++ leBytes 2 b.radL ++ leBytes 1 cells.length ++ cells.flatten

/-- An enhanced beacon (R312): unsecured, to the broadcast address from the unit's EUI-64, with the ASN and the join metric, the timeslot
template, the channel hopping, and the EB and SHARED cells of the unit. A hopping sequence that does not fit 127 bytes goes by its number. -/
def Block.radBeacon (b : Block) (c : RadCell) (asn : Nat) : List Byte :=
  let head : MacHead := ⟨0, false, false, false, true, true, 2, some (radSeq c.unit asn), some (b.cn Reg.RAD_PAN_ID), some (2, 0xFFFF), none,
    some (3, b.unitEui c.unit)⟩
  let hop := b.radHopping c.unit
  let frame (h : List Byte) : List Byte :=
    withFcs (head.bytes ++ mlmeIes (shortIe 0x1A (leBytes 5 asn ++ leBytes 1 (if b.radChild then b.rad.metric + 1 else 0)) ++
      shortIe 0x1C (b.radTemplate c.unit) ++ shortIe 0x1B (b.radLinks c.unit) ++ longIe 0x9 h))
  if (frame hop).length ≤ 127 then frame hop else frame (hop.take 1)

/-- A keep-alive to the time parent, an empty data frame secured with the key of the unit's own EUI-64 (R314); its level and the parent's short
address are not given. -/
def Block.radKeepAlive (b : Block) (c : RadCell) (asn : Nat) (root : List Byte) : List Byte :=
  let eui := b.unitEui c.unit
  let lv := 5 + Config.stdField 20 [] % 2
  let head : MacHead := ⟨1, true, false, true, true, false, 2, some (radSeq c.unit asn), some (b.cn Reg.RAD_PAN_ID),
    some (2, Config.stdField 24 [] % 65536), none, some (3, eui)⟩
  radSeal (radKey root eui) (radNonce eui asn lv) lv (head.bytes ++ macSecurity lv) []

/-- What the cell of a unit does in its slot; the TP_UNIT serves none while it scans. -/
def Block.radActOn (b : Block) (asn : Nat) (c : RadCell) : Block :=
  if b.radScans c.unit then b
  else match c.type with
  | 0 => if b.radMayTx then b.radSend c (b.radBeacon c asn) else b
  | 1 => b.radPredict c asn
  | 2 => b.radDownlink c asn
  | 4 => if b.radChild && c.unit == b.radTp then { b with rad := { b.rad with await := some true } } else b
  | 5 =>
    if b.radChild && c.unit == b.radTp then
      let b := { b with rad := { b.rad with await := some false } }
      if b.radMayTx then match b.radRoot with | some root => b.radSend c (b.radKeepAlive c asn root) | none => b
      else b
    else b
  | _ => b

/-- The sets that a slotframe start hands over: ranges, and a set of GUARD with WIDE not below it (R323). -/
def Block.radHandover (b : Block) : Block :=
  let mine (k : Nat) : Bool := keyBlk k == Blk.rad
  if b.comSets mine = [] then b
  else b.handover mine (fun k => keySpace k * 65536 + keyInst k) (fun b sets => !sets.any (fun e => keySpace e.1 == 15 && keyOff e.1 == 0x428) || decide (b.radGuard ≤ b.radWide))
    (fun b k => (b.irq Blk.rad 6).event 0x0E0C (if keySpace k = 15 then 0xFFFF else keyInst k))

/-- RADIO_SLOT: a slot begins, another than the one in progress (TB5 may have stepped either way). The parent cell of the slot before that went unheard is missed; then, at a slotframe's start,
the hand-over and the resumption of transmission; then the units act on their active cells. -/
def Block.radioSlot (b : Block) : Block :=
  let asn := b.radAsn
  if b.radOn = false ∨ asn + 1 = b.rad.slot ∨ b.tbNow 5 < b.radEpoch ∨ Cap.records b.sys.mode = false then b
  else
    let b := match b.rad.await with | some eb => b.parentMiss eb (b.rad.slot - 1) | none => b
    let b := { b with rad := { b.rad with slot := asn + 1, heard := [], ended := [], await := none } }
    let b :=
      if asn % b.radL = 0 then
        let b := match b.rad.resumeAt with | some s => if s ≤ asn / b.radL then { b with rad := { b.rad with resumeAt := none, widened := if b.rad.lost.isNone then 0 else b.rad.widened } } else b | none => b
        b.radHandover
      else b
    (b.radCells asn).foldl (fun b c => b.radActOn asn c) b

end Sys2Proof.Machine
end

