-- ==== Sys2Proof/Machine/MemOps.lean ====
section
/-! DEFINITION. Memory protection: errors and poison, the tracker, remaps and their table in MRAM, the scrubber, the diagnostic
window (R325 to R335, R352). -/

namespace Sys2Proof.Machine

def Block.setMunit (b : Block) (m : Nat) (x : MemUnit) : Block := { b with mm := { b.mm with units := Tbl.put b.mm.units m x MemUnit.reset } }

/-- The first byte address of a unit: on the bus where a bus address reaches the memory, else within the memory. -/
def Mem.byteAddr (m u : Nat) : Nat :=
  match m with
  | 1 => 0x80000000 + 8 * u
  | 2 => 0x90000000 + 8 * u
  | 9 => 0x1000000000 + 64 * u
  | _ => 8 * u

/-- The array of a unit: 8,192 words of SRAM, 0xFFF for DRAM (R331). -/
def Mem.array (m u : Nat) : Nat := if m = 9 then 0xFFF else u / 8192

/-! ### Physical contents -/

/-- The queue item that a word of queue SRAM holds: the queue and the item's place in it (R345). -/
def Block.itemAt (b : Block) (u : Nat) : Option (Nat × Nat) :=
  (List.range 64).findSome? (fun q =>
    let base := 64 * fld (b.vis Reg.QUE_CFG q) 11 0
    let i := (u + b.qcap q - base - (b.queue q).rd) % max 1 (b.qcap q)
    if b.qen q && decide (base ≤ u) && decide (u < base + b.qcap q) && decide (i < (b.queue q).items.length) then some (q, i) else none)

/-- The ring position whose arrival bitmap a word of memory 3 belongs to. -/
def Block.bitmapAt (b : Block) (u : Nat) : Option (Nat × Nat) :=
  let p := u / 128
  let at_ : Nat × Nat := if p < 512 then (0, p) else (1, p - 512)
  if p < 640 ∧ (b.basinAt at_.1 at_.2).st ≠ .free then some at_ else none

/-- The core and the scratch byte of a word of memory 0: each core's 16,384 words are its instruction cache, its data cache and its scratch, in
Table 13.1's order. -/
def scratchAt (u : Nat) : Option (Nat × Nat) := if 8192 ≤ u % 16384 ∧ u / 16384 < 48 then some (u / 16384, (u % 16384 - 8192) * 8) else none

/-- The unit that a spare line of DRAM holds (R330). -/
def Block.spareOf (b : Block) (m u : Nat) : Option Nat :=
  if m = 9 ∧ 536870848 ≤ u then
    ((b.munit 9).remaps.find? (fun r => r.2.2 == u - 536870848)).bind (fun r =>
      match (b.munit 9).remaps.reverse.find? (fun x => x.1 == r.1) with
      | some x => if x.2.2 = r.2.2 then some r.1 else none
      | none => none)
  else none

/-- A unit's data, where the spec says what it holds. -/
def Block.unitData (b : Block) (m u : Nat) : Option Nat :=
  match m with
  | 0 => (scratchAt u).map (fun x => leNat ((List.range 8).map (fun k => cellGet (b.core x.1).scratch (x.2 + k) 0)))
  | 3 => (b.bitmapAt u).map (fun x => bits (b.basinAt x.1 x.2).bmp.toNat (64 * (u % 128) + 63) (64 * (u % 128)))
  | 5 => (b.itemAt u).map (fun x => match (b.queue x.1).items[x.2]? with | some i => i.val | none => 0)
  | 1 | 2 | 9 => some (leNat (b.load (Mem.byteAddr m ((b.spareOf m u).getD u)) (Mem.unitBytes m)))
  | _ => none

/-- The data of a unit of a memory on the bus written where the unit lies now. -/
def Block.putBusUnit (b : Block) (m u d : Nat) : Block :=
  { b with mem := { b.mem with
      cells := cellsSet b.mem.cells (Mem.byteAddr m ((b.spareOf m u).getD u)) (leBytes (Mem.unitBytes m) d) Mem.blank } }

/-- A unit's data written, where the spec says what it holds. -/
def Block.putUnit (b : Block) (m u d : Nat) : Block :=
  match m with
  | 0 => match scratchAt u with
    | some x => b.setCore x.1 { b.core x.1 with scratch := cellsSet (b.core x.1).scratch x.2 (leBytes 8 d) 0 }
    | none => b
  | 3 => match b.bitmapAt u with
    | some x =>
      let y := b.basinAt x.1 x.2
      let lo := 64 * (u % 128)
      let v := y.bmp.toNat
      b.setBasin x.1 x.2 { y with bmp := BitVec.ofNat 8192 (v - bits v (lo + 63) lo * 2 ^ lo + d % 2 ^ 64 * 2 ^ lo) }
    | none => b
  | 5 => match b.itemAt u with
    | some x =>
      let y := b.queue x.1
      b.setQueue x.1 { y with items := y.items.mapIdx (fun k i => if k = x.2 then { i with val := d % 2 ^ 64 } else i) }
    | none => b
  | 1 | 2 | 9 => b.putBusUnit m u d
  | _ => b

/-- The physical contents of a unit noted. -/
def Block.keepRaw (b : Block) (m u : Nat) (r : Nat × Nat) : Block := { b with mem := { b.mem with raw := Tbl.ins b.mem.raw (m * 2 ^ 32 + u) r } }

/-- A unit's physical data and check bits: what the window or a remap left there, else the data that it holds under its code; a byte or line
that holds recorded poison has the reserved pattern; contents that no rule states are drawn. -/
def Block.rawOf (b : Block) (m u : Nat) : (Nat × Nat) × Block :=
  let moved := (b.munit m).remaps.any (fun r => r.1 == u)
  match (b.mem.raw.find? (fun e => e.1 == m * 2 ^ 32 + u)).map (·.2), (if moved then none else b.unitData m u) with
  | some r, _ => (r, b)
  | none, some d =>
    let c := checkOf m d
    if m = 9 then ((d, if b.mem.poison.contains (9, u) then Config.linePoison.toNat else c), b)
    else
      let part (i : Nat) : Nat := if b.mem.poison.contains (m, 8 * u + i) then Config.bytePoison.toNat else bits c (5 * i + 4) (5 * i)
      ((d, (List.range 8).foldl (fun a i => a + part i * 2 ^ (5 * i)) 0), b)
  | none, none =>
    let q := b.draw
    let b := q.2
    let p := b.draw
    let b := p.2
    let r := (q.1 % 2 ^ 64, p.1 % 2 ^ 40)
    (r, b.keepRaw m u r)

/-- The data that a unit's physical contents read as, where they are not lost: corrected parts as corrected, the others as `old` has them. -/
def readsAs (m old : Nat) (r : Nat × Nat) : Nat :=
  if m = 9 then (match lineRead r.1 r.2 with | .good => r.1 | .fixed v => v | _ => old)
  else (List.range 8).foldl (fun a i =>
    let d := bits r.1 (8 * i + 7) (8 * i)
    a + (match byteRead d (bits r.2 (5 * i + 4) (5 * i)) with | .good => d | .fixed v => v | _ => bits old (8 * i + 7) (8 * i)) * 2 ^ (8 * i)) 0

/-- Physical contents put into a unit (R334): accesses see the data that they read as, unless it is remapped; the reserved pattern is poison, and
what replaces it is not. -/
def Block.setRaw (b : Block) (m u : Nat) (r : Nat × Nat) : Block :=
  let moved := (b.munit m).remaps.any (fun x => x.1 == u)
  let reads := unitRead m r
  let b := if moved then b else b.putUnit m u (readsAs m ((b.unitData m u).getD 0) r)
  let n := if m = 9 then 1 else 8
  let bad := (List.range n).filter (fun i => reads.getD i .good == .poison)
  let poison := if moved then b.mem.poison
    else bad.foldl (fun l i => pairIns l (m, n * u + i)) (b.mem.poison.filter (fun x => !(x.1 == m && x.2 / n == u)))
  let plain := reads.all (· == .good) && !moved && (b.unitData m u).isSome
  { b with mem := { b.mem with
      poison := poison
      raw := if plain then Tbl.erase b.mem.raw (m * 2 ^ 32 + u) else Tbl.ins b.mem.raw (m * 2 ^ 32 + u) r } }

/-! ### Remaps (R330, R331) -/

/-- A free spare of an array. -/
def Block.freeSpare (b : Block) (m arr : Nat) : Option Nat :=
  let used := (b.munit m).remaps.filter (fun r => r.2.1 == arr)
  (List.range (Mem.spares m).1).find? (fun s => !used.any (fun r => r.2.2 == s))

/-- An address moved to a spare: the entry in MRAM, the count, the event; REMAP_EXHAUSTED where no spare is free. The spare takes the corrected
contents, and the failing unit keeps its own, which only the diagnostic window reaches. -/
def Block.remap (b : Block) (m u : Nat) : Block :=
  let arr := Mem.array m u
  match b.freeSpare m arr with
  | none => (b.irq Blk.mem 3).eventRep (m * 4096 + arr) 0x0F04 m u
  | some s =>
    let q := b.rawOf m u
    let b := q.2.keepRaw m u q.1
    let x := b.munit m
    let b := b.setMunit m { x with remaps := x.remaps ++ [(u, arr, s)], track := x.track.filter (fun e => e.1 != u) }
    let e := leBytes 8 (m * 2 ^ 56 + arr * 2 ^ 44 + s * 2 ^ 32 + u) ++ leBytes 4 0x50414D52
    let b :=
      if b.mm.remapNext < 1024 then
        let n := b.mm.remapNext
        { b.store (0x407F4000 + 16 * n) (e ++ leBytes 4 (crc32 e)) with mm := { b.mm with remapNext := n + 1 } }
      else b
    (b.count Reg.MEM_REMAPS m).event 0x0F03 m u s

/-- A MRAM entry applied at LOAD: none where its CRC, marker or range is bad. -/
def Block.remapEntry (b : Block) (n : Nat) : Option (Option (Nat × Nat × Nat × Nat)) :=
  let bs := b.load (0x407F4000 + 16 * n) 16
  if bs.all (· == 0) then none
  else if leAt bs 12 4 ≠ crc32 (bs.take 12) ∨ leAt bs 8 4 ≠ 0x50414D52 then some none
  else
    let v := leAt bs 0 8
    some (some (bits v 63 56, bits v 31 0, bits v 55 44, bits v 43 32))

/-- The table applied at LOAD, in ascending order (R331). -/
def Block.remapRestore (b : Block) : Block :=
  let es := (List.range 1024).filterMap (fun n => (b.remapEntry n).map (fun e => (n, e)))
  let good := es.filterMap (·.2)
  let b := good.foldl (fun b e => let x := b.munit e.1; b.setMunit e.1 { x with remaps := x.remaps ++ [(e.2.1, e.2.2.1, e.2.2.2)] }) b
  let bad := es.length - good.length
  let b := if bad = 0 then b else b.count Reg.MEM_REMAP_BAD 0 0 bad
  let next := es.foldl (fun a e => max a (e.1 + 1)) 0
  ({ b with mm := { b.mm with remapNext := next } }).event 0x0F08 0xFFFF good.length

/-! ### Errors (R327 to R329) -/

/-- A corrected error in the tracker; the policy at the third of an address. -/
def Block.trackError (b : Block) (m u : Nat) : Block :=
  let x := b.munit m
  match x.track.find? (fun e => e.1 == u) with
  | some e =>
    let n := min 3 (e.2 + 1)
    let b := b.setMunit m { x with track := x.track.map (fun f => if f.1 = u then (u, n) else f) }
    if n < 3 then b
    else match b.cf Reg.MEM_REMAP_CFG 0 1 0 with
      | 1 => b.remap m u
      | 2 => b.irq Blk.mem 4
      | _ => b
  | none =>
    if x.track.length < 16 then b.setMunit m { x with track := x.track ++ [(u, 1)] }
    else
      let low := x.track.foldl (fun a e => min a e.2) 3
      match x.track.find? (fun e => e.2 == low) with
      | some e => b.setMunit m { x with track := x.track.erase e ++ [(u, 1)] }
      | none => b

/-- CORRECTED_ERROR at a unit. -/
def Block.corrected (b : Block) (m u : Nat) : Block :=
  let x := b.munit m
  let b := b.setMunit m { x with lastCe := Mem.byteAddr m u, writebacks := x.writebacks ++ [u] }
  (((b.count Reg.MEM_CE_COUNT m).irq Blk.mem 0).eventRep m 0x0F01 m u).trackError m u

/-- What the reader of poison in a block's own memory does (Table 13.2): bitmap words unmark, matching-store entries become INCOMPLETE, a context
whose settings are poisoned is off, the modal accelerator's solve fails (R155); the other engines find it at their next job. -/
def Block.poisonReader (b : Block) (m p : Nat) : Block :=
  match m with
  | 3 =>
    match b.bitmapAt (p / 8) with
    | none => b
    | some (r, pos) =>
      let x := b.basinAt r pos
      b.setBasin r pos { x with bmp := x.bmp &&& ~~~(BitVec.ofNat 8192 ((2 ^ 32 - 1) * 2 ^ (32 * (p % 1024 / 4)))) }
  | 4 =>
    { b with dfe := { b.dfe with store := b.dfe.store.map (fun t => if t.entry = p / 72 then { t with inc := true, kind := 0, payload := [] } else t) } }
  | 6 => b.eventRep (p / 512) 0x0409 (p / 512)
  | 7 => if Config.engineOwner p = Blk.rpl then (b.epochWithheld true).engineRewrite Blk.rpl else b
  | _ => b

/-- The memory's record of an uncorrectable error at a unit: the count, LAST_UE, the IRQ, the event, and the remap of AUTO (R327, R329). -/
def Block.ueNote (b : Block) (m p : Nat) : Block :=
  let u := if m = 9 then p else p / 8
  let b := b.setMunit m { b.munit m with lastUe := if m = 9 then Mem.byteAddr m u else Mem.byteAddr m u + p % 8 }
  ((b.count Reg.MEM_UE_COUNT m).irq Blk.mem 1).event 0x0F02 m u

/-- The remap that AUTO makes at once of an uncorrectable error. -/
def Block.ueRemap (b : Block) (m p : Nat) : Block :=
  if b.cf Reg.MEM_REMAP_CFG 0 1 0 = 1 then b.remap m (if m = 9 then p else p / 8) else b

/-- The reserved pattern in the check bits of a byte or line that becomes poison (R328). -/
def Block.rawPoison (b : Block) (m p : Nat) : Block :=
  let put (r : Nat × Nat) : Nat × Nat :=
    if m = 9 then (r.1, Config.linePoison.toNat)
    else (r.1, r.2 - bits r.2 (5 * (p % 8) + 4) (5 * (p % 8)) * 2 ^ (5 * (p % 8)) + Config.bytePoison.toNat * 2 ^ (5 * (p % 8)))
  let k := m * 2 ^ 32 + (if m = 9 then p else p / 8)
  { b with mem := { b.mem with raw := b.mem.raw.map (fun e => if e.1 = k then (k, put e.2) else e) } }

/-- UNCORRECTABLE_ERROR at a byte of SRAM or a line of DRAM, whose data is poison from then on; poison already recorded is no new error (R327,
R328). -/
def Block.uncorrectable (b : Block) (m p : Nat) : Block :=
  if b.mem.poison.contains (m, p) then b else ((((b.ueNote m p).addPoison (m, p)).rawPoison m p).poisonReader m p).ueRemap m p

/-- UNCORRECTABLE_ERROR in the host caches: a clean line is fetched again, a dirty one is written back poisoned, and nothing of it stays in the
cache (Table 13.2). -/
def Block.hostCacheError (b : Block) (p : Nat) (dirty : Option Nat) : Block :=
  let b := b.ueNote 8 p
  let b := match dirty with | some a => b.poisonAt a | none => b
  b.ueRemap 8 p

/-- A read of a unit finds what its code says (R327, R335): a corrected error counts and waits for its writeback; lost parts of it that the read
covers, a line or bytes [lo, lo + n) of the memory, become poison. -/
def Block.unitFound (b : Block) (m u lo n : Nat) : Block :=
  match b.rawAt m u with
  | none => b
  | some r =>
    let reads := unitRead m r
    let parts := if m = 9 then [(u, CodeRead.good)] else (List.range 8).map (fun i => (8 * u + i, CodeRead.good))
    let mine := (parts.zip reads).filter (fun x => m == 9 || (decide (lo ≤ x.1.1) && decide (x.1.1 < lo + n)))
    let isFixed (x : CodeRead) : Bool := match x with | .fixed _ => true | _ => false
    let b := if mine.any (fun x => isFixed x.2) then b.corrected m u else b
    mine.foldl (fun b x => if x.2 = .lost then b.uncorrectable m x.1.1 else b) b

/-- A read of bytes of a memory: each unit that it covers. -/
def Block.rangeFound (b : Block) (m lo n : Nat) : Block :=
  if b.mem.raw = [] ∨ n = 0 then b
  else
    let w := Mem.unitBytes m
    (List.range ((lo + n - 1) / w + 1 - lo / w)).foldl (fun b i => b.unitFound m (lo / w + i) lo n) b

/-- A read at a bus address. -/
def Block.busFound (b : Block) (a n : Nat) : Block :=
  match poisonUnit a with
  | some (9, _) => b.rangeFound 9 (a - 0x1000000000) n
  | some (m, p) => b.rangeFound m p n
  | none => b

/-! ### The scrubber (R332, R333) -/

def Block.lapLimit (b : Block) (m : Nat) : Nat := b.cf Reg.MEM_SCRUB_CFG m 16 0 * nsPerS

/-- The sets of a memory handed over (R352). -/
def Block.memHandover (b : Block) (m : Nat) : Block :=
  let mine (k : Nat) : Bool := keyBlk k == Blk.mem && keySpace k == 0 && keyInst k == m
  let lim (b : Block) : Bool :=
    let v := b.cf Reg.MEM_SCRUB_CFG m 16 0
    if m = 9 then decide (600 ≤ v) && decide (v ≤ 86400) else decide (1 ≤ v) && decide (v ≤ 3600)
  b.handover mine (fun _ => 0) (fun b _ => lim b) (fun b _ => (b.irq Blk.mem 5).event 0x0F09 m)

/-- A unit written back corrected: its data under its code, but for the parts that are lost (R327). -/
def Block.correctUnit (b : Block) (m u : Nat) : Block :=
  match b.rawAt m u with
  | none => b
  | some r =>
    let d := readsAs m r.1 r
    let c := checkOf m d
    let lost (i : Nat) : Bool := match (unitRead m r).getD i .good with | .lost => true | .poison => true | _ => false
    if m = 9 then (if lost 0 then b else b.setRaw m u (d, c))
    else b.setRaw m u (d, (List.range 8).foldl (fun a i =>
      a + (if lost i then bits r.2 (5 * i + 4) (5 * i) else bits c (5 * i + 4) (5 * i)) * 2 ^ (5 * i)) 0)

/-- What the scrubber corrects is written back at once (R332). -/
def Block.scrubWriteback (b : Block) (m u : Nat) : Block :=
  let x := b.munit m
  if x.writebacks.contains u then (b.setMunit m { x with writebacks := x.writebacks.filter (· != u) }).correctUnit m u else b

/-- SCRUB_STEP: one word or line read, remapped ones through their spares, and the spares too, which in DRAM are lines of its own; at the end of
the lap its time, a new lap, the hand-over. -/
def Block.scrubStep (b : Block) (m : Nat) : Block :=
  if b.cb Reg.MEM_SCRUB_CFG m 31 then b
  else
    let at_ := (b.munit m).pos
    let b := if at_ < Mem.size m then (b.unitFound m at_ (8 * at_) 8).scrubWriteback m at_ else b
    let x := b.munit m
    if x.pos + 1 < Mem.size m + (if m = 9 then 0 else (Mem.spares m).2) then b.setMunit m { x with pos := x.pos + 1 }
    else
      let ms := (b.t7 - x.lapStart) / 1000000
      let ok := decide (b.t7 - x.lapStart ≤ b.lapLimit m)
      let b := (b.setMunit m { x with pos := 0, lapStart := b.t7, lapMs := ms, forced := false, starved := x.starved && !ok }).count Reg.MEM_SCRUB_LAPS m
      let b := if x.starved && ok then b.event 0x0F06 m else b
      b.memHandover m

/-- SCRUB_STARVED: a lap that has run longer than its limit. -/
def Block.scrubStarved (b : Block) (m : Nat) : Block :=
  let x := b.munit m
  if x.forced = false ∧ b.lapLimit m < b.t7 - x.lapStart then
    ((b.setMunit m { x with starved := true, forced := true }).irq Blk.mem 2).event 0x0F05 m
  else b

/-- MEM.COMMIT: memories whose scrubber is paused hand over at once. -/
def Block.memCommit (b : Block) : Block :=
  (List.range 10).foldl (fun b m =>
    if b.cb Reg.MEM_SCRUB_CFG m 31 then (b.ripen (fun k => keyBlk k == Blk.mem && keySpace k == 0 && keyInst k == m)).memHandover m else b)
    (b.commit Blk.mem)

/-! ### Commands -/

/-- The memory that a master's MEM.SEL names. -/
def Block.memSel (b : Block) (m : Nat) : Nat := fld (b.vis Reg.MEM_SEL m) 3 0

/-- MEM.REMAP_CMD[REMAP]. -/
def Block.remapCmd (b : Block) (m : Nat) : Block :=
  let n := b.memSel m
  let u := (b.vis Reg.MEM_REMAP_ADDR).toNat
  if n < 10 ∧ u < Mem.size n then b.remap n u else b

/-- MEM.REMAP_CMD[ERASE]: in MAINTENANCE only; takes effect at the next LOAD. -/
def Block.remapErase (b : Block) : Block :=
  if b.sys.mode = .maintenance then { b.store 0x407F4000 (List.replicate 16384 0) with mm := { b.mm with remapNext := 0 } } else b

/-! ### The diagnostic window (R334, R335) -/

/-- CE_WRITEBACK: the oldest correction written back to its word or line (R327). -/
def Block.writeback (b : Block) (m : Nat) : Block :=
  let x := b.munit m
  let b := b.setMunit m { x with writebacks := x.writebacks.drop 1 }
  match x.writebacks with
  | u :: _ => b.correctUnit m u
  | [] => b

/-- Whether the window is open. -/
def Block.diagOpen (b : Block) : Bool := b.sys.mode == .maintenance || b.sys.mode == .debug

/-- The buffer of a master: data and check bits. -/
def Block.diagBuf (b : Block) (m n : Nat) : Nat × Nat :=
  let bs := ((List.range 20).map (fun k => leBytes 4 (b.vis Reg.MEM_DIAG_BUF m k).toNat)).flatten
  (leNat (bs.take (Mem.unitBytes n)), if n = 9 then leNat (slice bs 64 16) else leNat (slice bs 64 5))

/-- RAW_READ. -/
def Block.diagRead (b : Block) (m : Nat) : Block :=
  if b.diagOpen = false then b.count Reg.MEM_DIAG_REFUSED
  else
    let n := b.memSel m
    let u := (b.vis Reg.MEM_DIAG_ADDR m).toNat
    if 10 ≤ n ∨ Mem.size n ≤ u then b
    else
      let q := b.rawOf n u
      let r := q.1
      let b := q.2
      let bs := slice (leBytes (Mem.unitBytes n) r.1) 0 64 ++ slice (leBytes (if n = 9 then 16 else 5) r.2) 0 16
      (List.range 20).foldl (fun b k => b.setVis Reg.MEM_DIAG_BUF m k (w32 (leAt bs (4 * k) 4))) b

/-- RAW_WRITE (2), DATA_WRITE (3) and CHECK_WRITE (4). -/
def Block.diagWrite (b : Block) (m cmd : Nat) : Block :=
  if b.diagOpen = false then b.count Reg.MEM_DIAG_REFUSED
  else
    let n := b.memSel m
    let u := (b.vis Reg.MEM_DIAG_ADDR m).toNat
    if 10 ≤ n ∨ Mem.size n ≤ u then b
    else
      let q := b.rawOf n u
      let old := q.1
      let b := q.2
      let buf := b.diagBuf m n
      let new : Nat × Nat := (if cmd = 4 then old.1 else buf.1, if cmd = 3 then old.2 else buf.2)
      (b.setRaw n u new).event 0x0F07 n u cmd

end Sys2Proof.Machine
end

