-- ==== Sys2Proof/Machine/RedBase.lean ====
section
/-! DEFINITION. Heartbeats and checkpoints on their way out, roles and epochs, FAIL; the change of mode (R382 to R388, R426). -/

namespace Sys2Proof.Machine

/-! ### The pair's settings and paths -/

def Block.redOn (b : Block) : Bool := b.cb Reg.RED_CFG 0 31
def Block.redPreferred (b : Block) : Bool := b.cb Reg.RED_CFG 0 30

def Block.setRedPath (b : Block) (p : Nat) (x : RedPath) : Block :=
  { b with red := { b.red with paths := Tbl.put b.red.paths p x RedPath.reset } }

/-- An active in DEGRADED that may yield (R384, R386). -/
def Block.redYields (b : Block) : Bool := b.sys.mode == .degraded && b.cb Reg.RED_CFG 0 28 && b.red.pImage

/-- Whether the module serves the outputs: role ACTIVE or TAKEOVER. -/
def Block.redActive (b : Block) : Bool := b.redOn && (b.red.role == 1 || b.red.role == 4)

/-- HEALTHY (R384); a standby is HEALTHY in STANDBY while no cause of Table 18.3 holds (R430). -/
def Block.redHealthy (b : Block) : Bool :=
  match b.sys.mode with
  | .active | .holdover | .takeover => b.redActive
  | .degraded => b.redActive && !b.redYields
  | .standby => b.degradeCause == 0
  | _ => false

/-- The role that a message names: TAKEOVER speaks as ACTIVE, WARM and RELEASING as STANDBY. -/
def Red.said (role : Nat) : Nat := match role with | 4 => 1 | 5 => 2 | 6 => 2 | r => r

/-- A heartbeat message (Table 15.2); the CRC-16 of path B is computed over bytes 0 to 13. -/
def Block.redMessage (b : Block) (path type seq : Nat) : List Byte :=
  let h := leBytes 1 type ++ leBytes 1 (Red.said b.red.role + 8 * b2n b.red.image + 16 * b2n b.redHealthy + 32 * b2n b.redPreferred) ++
    leBytes 2 seq ++ leBytes 4 b.red.epoch ++ leBytes 4 b.red.ckLast ++ leBytes 2 0
  h ++ leBytes 2 (if path = 0 then 0 else crcCcitt h)

/-- A message or frame noted as sent at this instant. -/
def Block.redNote (b : Block) (path : Nat) (m : List Byte) : Block :=
  let o := if b.red.out.1 = b.t7 then b.red.out.2 else []
  { b with red := { b.red with out := (b.t7, o ++ [(path, m)]) } }

/-- A frame on the mirror link, with its tag under the path's key (R382). -/
def Block.mirrorSend (b : Block) (cls : Nat) (body : List Byte) : Block :=
  match b.redKey with
  | none => b
  | some k =>
    let f := ethHead Prt.broadcast (b.portMac 28) 0 (fld (b.vis Reg.PRT_MIR_ETYPE) 15 0) ++ body
    b.enqueue 28 ⟨cls, false, .none, f ++ (gmac k.bytes (Config.gmacIv 1 f) f).take 8⟩

/-- A heartbeat sent on one path. -/
def Block.redSend (b : Block) (path type seq : Nat) : Block :=
  if b.redAble path = false then b
  else
    let m := b.redMessage path type seq
    (if path = 0 then b.mirrorSend 2 m else b).redNote path m

/-- A heartbeat sent on both paths. -/
def Block.redSendBoth (b : Block) (type : Nat) : Block := (b.redSend 0 type b.red.seq).redSend 1 type b.red.seq

/-- Every RED event carries the role epoch. -/
def Block.redEvent (b : Block) (code : Nat) (arg1 : Nat := 0) : Block := b.event code 0xFFFF b.red.epoch arg1

/-- A role change, with its item on Q5 (R389). -/
def Block.setRole (b : Block) (r : Nat) : Block :=
  if b.red.role = r then b
  else ({ b with red := { b.red with role := r } }).push 5 (r * 2 ^ 56 + b.red.epoch) true

/-- The role epoch, kept in MRAM (R388). -/
def Block.setRedEpoch (b : Block) (e : Nat) : Block :=
  ({ b with red := { b.red with epoch := e } }).storeN 0x407F2010 4 e

/-- FAIL on both paths in the cycle of its cause (R386). -/
def Block.redFail (b : Block) : Block :=
  if b.redOn && b.red.role != 0 then (b.redSendBoth 3).redEvent 0x1406 else b

/-! ### The mode (R426) -/

/-- The modes whose 60 s in a row confirm a TRIAL image (R438). -/
def Mode.confirms : Mode → Bool
  | .active | .holdover | .standby => true
  | _ => false

/-- The modes in which the diagnostic window and PAUSE hold (R335). -/
def Mode.diagnostic : Mode → Bool
  | .maintenance | .debug => true
  | _ => false

/-- The scrubbers' PAUSE cleared (R335). -/
def Block.clearPause (b : Block) : Block :=
  (List.range 10).foldl (fun b m => b.setVis Reg.MEM_SCRUB_CFG m 0 (setFld (b.vis Reg.MEM_SCRUB_CFG m) 31 31 0)) b

/-- A change of mode with its event and what follows from it at once: FAIL at SAVE and HALT, PAUSE cleared, pins, publishers
and capture units brought to the new mode. -/
def Block.setMode (b : Block) (m : Mode) (cause : Nat) : Block :=
  let old := b.sys.mode
  if old = m then b
  else
    let b := (if m = .save ∨ (m = .halt ∧ old ≠ .save) then b.redFail else b).noteUnlocked
    let b := { b with sys := { b.sys with
        mode := m
        enteredFrom := if m = Mode.maintenance ∧ old ≠ Mode.debug then old else b.sys.enteredFrom
        goodSince := if m.confirms = true then (if old.confirms = true then b.sys.goodSince else some b.t7) else none } }
    let b := (b.irq Blk.sys 0).event 0x0101 0xFFFF (old.code + 256 * m.code) cause
    let b := b.noteUnlocked
    let b := if old.diagnostic = true ∧ m.diagnostic = false then b.clearPause else b
    b.almMode.capMode.pulsesEnd

/-- The mode that full service takes: DEGRADED while a cause holds, else by TB0's state (Table 18.2, R430). -/
def Block.serviceMode (b : Block) : Mode :=
  if b.degradeCause ≠ 0 then .degraded else if (b.tb 0).st = .locked then .active else .holdover

/-- The lowest recorded cause of Table 18.3, as the value of its bit, so that 0 stays free for a request (R426). -/
def Block.degradeBit (b : Block) : Nat := if b.sys.degDma then 1 else if b.sys.degSelftest then 2 else 4

/-- The event's cause for a change to a mode of service. -/
def Block.serviceCause (b : Block) : Nat := if b.degradeCause ≠ 0 then b.degradeBit else 0

end Sys2Proof.Machine
end

