-- ==== Sys2Proof/Machine/CasOps.lean ====
section
/-! DEFINITION. The cascade: links, topology and epochs, partials, merging, cascade time (R370 to R381). -/

namespace Sys2Proof.Machine

def Block.setMbr (b : Block) (m : Nat) (x : CasMbr) : Block := { b with cas := { b.cas with mbr := Tbl.put b.cas.mbr m x CasMbr.reset } }

/-- Every CAS event carries the ring epoch. -/
def Block.casEvent (b : Block) (code src : Nat) (arg1 : Nat := 0) : Block := b.event code src b.cas.epoch arg1

/-! ### Topology and epochs (R373, R374) -/

/-- HELLO to all members: which of the own links are up. -/
def Block.casHello (b : Block) : Block :=
  b.casSend 1 0 true 0 0 0 0 (leBytes 1 (b2n (b.cas.up.contains 0) + 2 * b2n (b.cas.up.contains 1)))

/-- The topology that the HELLO frames tell: 1 RING, 2 LINE, 3 SPLIT. -/
def Block.casShape (b : Block) : Nat :=
  let others := (List.range b.casCount).filter (· != 0)
  if others.all (fun m => (b.mbr m).st == 1) then
    if b.cas.up.length == 2 && others.all (fun m => (b.mbr m).up0 && (b.mbr m).up1) then 1 else 2
  else 3

/-- The ring epoch one higher, at the master (R373). -/
def Block.casEpochNext (b : Block) : Block :=
  let c := b.cas
  let shape := b.casShape
  let b := if shape = c.topo then b else (b.count Reg.CAS_TOPO_CHANGES).irq Blk.cas 1
  let b := { b with cas := { b.cas with topo := shape, prevEpoch := c.epoch, epoch := (c.epoch + 1) % 2 ^ 32, epochAt := b.t7 } }
  (b.casEvent 0x1301 0xFFFF shape).casHello

/-- A change that the master looks into: a new epoch where the topology or the membership changed. -/
def Block.casReview (b : Block) (member : Bool) : Block :=
  if b.casMaster && (member || b.casShape != b.cas.topo) then b.casEpochNext else b

/-- A member takes the epoch that the master distributes. -/
def Block.casAdopt (b : Block) (e : Nat) : Block :=
  if b.casMember = 0 ∨ b.cas.epoch = e then b
  else { b with cas := { b.cas with prevEpoch := b.cas.epoch, epoch := e, epochAt := b.t7 } }

/-- Whether a frame's epoch is accepted: CTRL frames need the current one; the others may carry the one before it for 10 ms;
HELLO, TIME and NAK bring epochs themselves. -/
def Block.casEpochOk (b : Block) (type e : Nat) : Bool :=
  let c := b.cas
  if type = 1 ∨ type = 2 ∨ type = 0x21 then true
  else if type = 0x20 then e == c.epoch
  else e == c.epoch || later 32 e c.epoch || (e == c.prevEpoch && decide (b.t7 ≤ c.epochAt + 10000000))

/-! ### Partial snapshots on their way out (R376) -/

/-- A PROXY item: record header and feature record. -/
def Block.proxyItem (b : Block) (p seq c : Nat) : List Byte := b.loadSafe (b.recordAddr 0 p c) 16 ++ b.loadSafe (featAddr seq c) 16

/-- The contexts that a module exports by a kind (bit 0 PROXY, bit 1 OUTPUT) among the marked ones. -/
def Block.casExports (b : Block) (kind : Nat) (marked : BitVec 8192) : List Nat :=
  (b.cas.export_.filter (fun e => bit e.2 kind && marked.getLsbD e.1)).map (·.1)

/-- Items cut into payloads of at most 8,192 bytes, at least one. -/
def casCut {α : Type} (size : α → Nat) : List α → List α → Nat → List (List α)
  | [], cur, _ => [cur]
  | x :: r, cur, n => if cur ≠ [] ∧ 8192 < n + size x then cur :: casCut size r [x] (size x) else casCut size r (cur ++ [x]) (n + size x)

/-- A partial sent frame by frame, the first and last flagged. -/
def Block.casPartial (b : Block) (type soc k : Nat) (ps : List (Nat × List Byte)) : Block :=
  ((List.range ps.length).zip ps).foldl (fun b e =>
    b.casSend type 0 false (b2n (e.1 == 0) + 2 * b2n (e.1 + 1 == ps.length)) soc k e.2.1 e.2.2) b

/-- PARTIAL_A at a member's weir A. -/
def Block.partialA (b : Block) (p : Nat) (x : Basin) : Block :=
  if b.casOn = false ∨ b.casMember = 0 then b
  else
    let items := (b.casExports 0 x.bmpA).map (b.proxyItem p x.seq)
    b.casPartial 0x10 x.soc x.k ((casCut List.length items [] 0).map (fun l => (l.length, l.flatten)))

/-- The full record of an OUTPUT context. -/
def Block.outputItem (b : Block) (p c : Nat) : List Byte := b.loadSafe (b.recordAddr 0 p c) (b.recSize c)

/-- PARTIAL_B at a member's weir B. -/
def Block.partialB (b : Block) (p : Nat) (x : Basin) : Block :=
  if b.casOn = false ∨ b.casMember = 0 then b
  else
    let late := (b.casExports 0 (x.bmpB &&& ~~~x.bmpA)).map (fun c => (false, b.proxyItem p x.seq c))
    let full := (b.casExports 1 x.bmpB).map (fun c => (true, b.outputItem p c))
    b.casPartial 0x11 x.soc x.k ((casCut (fun e => e.2.length) (late ++ full) [] 0).map (fun l => (l.length, Config.partialBytes l)))

/-- LATE for a mark after weir B of an exported context. -/
def Block.partialLate (b : Block) (p c : Nat) (x : Basin) : Block :=
  let kind := Tbl.get b.cas.export_ c 0
  if b.casOn = false ∨ b.casMember = 0 ∨ kind = 0 then b
  else
    let l := (if bit kind 0 then [(false, b.proxyItem p x.seq c)] else []) ++ (if bit kind 1 then [(true, b.outputItem p c)] else [])
    b.casSend 0x12 0 false 3 x.soc x.k l.length (Config.partialBytes l)

/-! ### Merging on the master (R376, R377) -/

/-- A PROXY item as the record of its proxy context. -/
def Block.placeProxy (b : Block) (m slot : Nat) (item : List Byte) : Block :=
  let w := leAt item 0 4
  match b.cas.proxy.find? (fun e => e.1 == m * 8192 + w % 8192) with
  | none => b
  | some (_, c) =>
    let rec_ := slice (leBytes 4 (w / 8192 * 8192 + c) ++ slice item 4 28) 0 64
    b.offer ⟨0, slot, c, latBin ((b.now : Int) - slotTime (b.ringRate 0) slot), rec_, slice item 16 16, some m, b.now, 0, 0, 0, 0, false, false⟩

/-- An OUTPUT item in the merged area; after the master's weir B it becomes LATE_FILLED and OUT receives a late notice. -/
def Block.placeOutput (b : Block) (m p : Nat) (item : List Byte) : Block :=
  let w := leAt item 0 4
  let g := m * 8192 + w % 8192
  match b.cas.offset.find? (fun e => e.1 == g) with
  | none => b
  | some _ =>
    let x := b.basinAt 0 p
    let late := x.st == .outputClosed || x.st == .retained
    let w := if late && w / 2 ^ 28 == 0 then w + 2 * 2 ^ 28 else w
    let b := b.store (b.outRecAt 0 p g) (leBytes 4 w ++ item.drop 4)
    let b := { b with cas := { b.cas with merged := pairIns b.cas.merged (p, g) } }
    if late then (b.setBasin 0 p { x with lateFilled := x.lateFilled + 1 }).outLate 0 x.seq g else b

/-- The items of a partial placed by slot tag. -/
def Block.casPlace (b : Block) (m soc k : Nat) (items : List (Bool × List Byte)) : Block :=
  let slot := b.secOfSoc soc (b.now / nsPerS) * b.ringRate 0 + k
  items.foldl (fun b e =>
    match (b.ring 0).slotPos slot with
    | none => b.casTooLate m
    | some (p, _) => if e.1 then b.placeOutput m p e.2 else b.placeProxy m slot e.2) b

/-- A payload cut into items of 32 bytes. -/
def casItems : Nat → List Byte → List (Bool × List Byte)
  | 0, _ => []
  | n + 1, bs => (false, slice bs 0 32) :: casItems n (bs.drop 32)

/-! ### Time (R380) -/

/-- The comparison of TB0 with TB6 on a member. -/
def Block.casTimeCheck (b : Block) : Block :=
  let d : Int := (b.tbNow 0 : Int) - b.tbNow 6
  if d.natAbs ≤ 10000 then { b with cas := { b.cas with badSince := none, timeOk := true } }
  else if b.cas.badSince.isNone then { b with cas := { b.cas with badSince := some b.t7 } }
  else b

/-- The first copy of a TIME frame on a member: a measurement of TB6; the payload is TB6 at the master in TT80 and the delays
added on the way in 2⁻⁸ ns, `hops` the links it has crossed. -/
def Block.casTime (b : Block) (link hops : Nat) (payload : List Byte) : Block :=
  let at_ := leAt payload 0 6 * nsPerS + leAt payload 6 4
  let sent := at_ + (leAt payload 10 8 + b.hopDelay link) / 256
  let x : Int := (sent : Int) - b.tbNow 6
  ((b.measure 6 15 x (10000 * hops) (some b.t7)).1).casTimeCheck

/-- TIME_FRAME_SEND by the master. -/
def Block.timeFrameSend (b : Block) : Block :=
  if b.casMaster then b.casSend 2 0 true 0 0 0 0 (tt80 (b.tbNow 6) ++ leBytes 8 0) else b

/-- A DELAY exchange's result: the mean of the last eight. -/
def Block.delayExchange (b : Block) (link d : Nat) : Block :=
  if b.cas.up.contains link then
    { b with cas := { b.cas with delays := Tbl.put b.cas.delays link ((d :: Tbl.get b.cas.delays link []).take 8) [] } }
  else b

/-- TIME_FAULT: TB0 has differed from TB6 by more than 10 µs for 1 s. -/
def Block.timeFault (b : Block) : Block :=
  match b.cas.badSince with
  | some s =>
    if s + nsPerS ≤ b.t7 ∧ b.cas.timeOk = true then
      (({ b with cas := { b.cas with timeOk := false } }).irq Blk.cas 5).casEvent 0x1309 b.casMember
    else b
  | none => b

/-! ### Frames received (R371, R372) -/

/-- A frame passed on over the other link, one hop fewer; a TIME frame takes the residence time and its link's delay with it,
under a new tag. -/
def Block.casForward (b : Block) (key : List Byte) (link : Nat) (f : List Byte) : Block :=
  let hops := (f.getD 3 0).toNat
  if hops ≤ 1 then b
  else
    let q := b.draw
    let v := q.1
    let b := q.2
    let f :=
      if f.getD 0 0 = 2 then
        let g := patch (f.take (f.length - 8)) 42 (leBytes 8 ((leAt f 42 8 + b.hopDelay link + v) % 2 ^ 64))
        g ++ casTag key g
      else f
    b.casOut (1 - link) (patch f 3 (leBytes 1 (hops - 1)))

/-- What is noted of a frame's source: when and how far it was heard; an ABSENT member has joined. -/
def Block.casHeard (b : Block) (link : Nat) (f : List Byte) : Block :=
  let m := (f.getD 1 0).toNat % 8
  let x := b.mbr m
  let hops := b.casCount - (f.getD 3 0).toNat
  let joined := x.st == 0
  let x : CasMbr := { x with st := 1, heard := some b.t7, loads := leAt f 8 4 }
  let x : CasMbr := if link = 0 then { x with hops0 := hops } else { x with hops1 := hops }
  let x : CasMbr := if f.getD 0 0 = 1 then { x with up0 := bit (leAt f 32 1) 0, up1 := bit (leAt f 32 1) 1 } else x
  let b := b.setMbr m x
  let b := if joined then (b.irq Blk.cas 2).casEvent 0x1302 m else b
  b.casReview joined

/-- What a frame for this member does. -/
def Block.casAct (b : Block) (link : Nat) (f : List Byte) : Block :=
  let m := (f.getD 1 0).toNat % 8
  let payload := slice f 32 (leAt f 24 2)
  let n := leAt f 26 2
  let soc := leAt f 18 4
  let k := leAt f 22 1
  let last := bit (leAt f 2 1) 1
  match (f.getD 0 0).toNat with
  | 1 => if m = 0 then b.casAdopt (leAt f 4 4) else b
  | 2 => if m = 0 ∧ b.casMember ≠ 0 then (b.casAdopt (leAt f 4 4)).casTime link (b.casCount - (f.getD 3 0).toNat) payload else b
  | 4 => b.busArrive (leAt payload 0 1) (leAt payload 2 6 * nsPerS + leAt payload 8 4) (leAt payload 1 1)
  | 0x10 =>
    if b.casMaster then (if last then b.count Reg.CAS_MBR_PARTIAL_A m else b).casPlace m soc k (casItems n payload) else b
  | 0x11 =>
    if b.casMaster then (if last then b.count Reg.CAS_MBR_PARTIAL_B m else b).casPlace m soc k (Config.partialItems payload) else b
  | 0x12 => if b.casMaster then (b.count Reg.CAS_MBR_LATE m).casPlace m soc k (Config.partialItems payload) else b
  | 0x21 => b.count Reg.CAS_NAK_RX
  | _ => b

/-- The own number is in use by another member: the module takes no part in the cascade (R370). -/
def Block.casExclude (b : Block) (m : Nat) : Block := ({ b with cas := { b.cas with excluded := true, up := [] } }).casEvent 0x1305 m

/-- TABUSK_FRAME_RX on a link; the frames of a source are told apart by its LOAD count and number. -/
def Block.casReceive (b : Block) (link : Nat) (f : List Byte) : Block :=
  match b.casKey with
  | none => b
  | some s =>
    if b.casOn = false ∨ b.cas.up.contains link = false ∨ f.length < 40 then b
    else
      let m := (f.getD 1 0).toNat % 8
      let seq := leAt f 8 4 * 2 ^ 48 + leAt f 12 6
      let dest := bits (leAt f 1 1) 6 4
      let all := bit (leAt f 1 1) 7
      if f.drop (f.length - 8) ≠ casTag s.bytes (f.take (f.length - 8)) then
        ((b.count Reg.CAS_MBR_AUTH_FAIL m).irq Blk.cas 4).eventRep m 0x1306 m b.cas.epoch
      else if m = b.casMember then
        if leAt f 8 4 = b.loadCount then b
        else b.casExclude m
      else
        let first := !(b.mbr m).seqs.contains seq
        let b := b.casHeard link f
        let b := if all || dest != b.casMember then b.casForward s.bytes link f else b
        if first = false then b
        else
          let x := b.mbr m
          let b := b.setMbr m { x with seqs := (seq :: x.seqs).take 256 }
          if all = false ∧ dest ≠ b.casMember then b
          else if b.casEpochOk (f.getD 0 0).toNat (leAt f 4 4) = false then
            ((b.count Reg.CAS_MBR_STALE_EPOCH m).eventRep m 0x1307 m b.cas.epoch).casSend 0x21 m false 0 0 0 0 []
          else b.casAct link f

/-! ### Links and members (R370, R373, R379) -/

/-- TABUSK_LINK_UP: the neighbour's number, M and F_base as the HELLO exchange gave them. -/
def Block.casLinkUp (b : Block) (link m count rate : Nat) : Block :=
  if b.casOn = false ∨ b.cas.up.contains link = true then b
  else if b.casKey = none then (b.irq Blk.cas 6).casEvent 0x130A link
  else
    let n := b.casCount
    let want := if link = 0 then (b.casMember + 1) % n else (b.casMember + n - 1) % n
    if m ≠ want ∨ count ≠ n ∨ rate ≠ b.ringRate 0 then
      let b := (b.irq Blk.cas 0).casEvent 0x1304 link m
      if m = b.casMember then b.casExclude m else b
    else
      let x := b.mbr m
      let joined := x.st == 0
      let x : CasMbr := { x with st := 1, heard := some b.t7 }
      let x : CasMbr := if link = 0 then { x with hops0 := 1 } else { x with hops1 := 1 }
      let b := ({ b with cas := { b.cas with up := setIns b.cas.up link } }).setMbr m x
      let b := if joined then (b.irq Blk.cas 2).casEvent 0x1302 m else b
      (b.casReview joined).casHello

/-- TABUSK_LINK_DOWN. -/
def Block.casLinkDown (b : Block) (link : Nat) : Block :=
  if b.cas.up.contains link = false then b
  else
    let b := { b with cas := { b.cas with
        up := setDel b.cas.up link
        mbr := b.cas.mbr.map (fun (e : Nat × CasMbr) => (e.1, if link = 0 then { e.2 with hops0 := 15 } else { e.2 with hops1 := 15 })) } }
    ((b.count (if link = 0 then Reg.CAS_LINK_DOWN_0 else Reg.CAS_LINK_DOWN_1)).casReview false).casHello

/-- The links stay down while the link key is unusable (R371): those that are up go down when it is lost. -/
def Block.casKeyCheck (b : Block) : Block :=
  if b.casOn = false ∨ b.casKey.isSome = true ∨ b.cas.up = [] then b
  else (((b.casLinkDown 0).casLinkDown 1).irq Blk.cas 6).casEvent 0x130A 0xFFFF

/-- A context goes SILENT (R94). -/
def Block.silence (b : Block) (c : Nat) : Block :=
  let x := b.alnCtx c
  if x.silent then b
  else (((b.setAlnCtx c { x with silent := true }).count Reg.ALN_CTX_SILENCED c).irq Blk.aln 2).eventRep c 0x0501 c

/-- MEMBER_LOST: the master has heard nothing of a member for 1 ms; its proxies go SILENT. -/
def Block.memberLost (b : Block) (m : Nat) : Block :=
  let x := b.mbr m
  let due := match x.heard with | some h => decide (h + 1000000 ≤ b.t7) | none => true
  if b.casMaster = false ∨ x.st ≠ 1 ∨ due = false then b
  else
    let b := b.setMbr m { x with st := 0, hops0 := 15, hops1 := 15, up0 := false, up1 := false }
    let b := (b.irq Blk.cas 3).casEvent 0x1303 m
    let b := (b.cas.proxy.filter (fun e => e.1 / 8192 == m)).foldl (fun b e => b.silence e.2) b
    b.casReview true

/-! ### Views -/

end Sys2Proof.Machine
end

