-- ==== Sys2Proof/Machine/AlnBase.lean ====
section
/-! DEFINITION. Basins: weir conditions, waits, hand-overs at a basin open, opening and freeing, starts and restarts (chapter 4). -/

namespace Sys2Proof.Machine

/-! ### Weir conditions (R102 to R104) -/

/-- The marks of the expected contexts of a partition, and its expected count. -/
def Basin.partMarked (x : Basin) (p : Nat) : Nat := (x.waits.filter (fun e => e.2.1 == p && x.bmp.getLsbD e.1)).length
def Basin.partExpected (x : Basin) (p : Nat) : Nat := Tbl.get x.parts p 0

/-- Whether a partition meets its quorum: ⌈QUORUM × E ÷ 100⌉ marks (R103). -/
def Basin.quorumMet (x : Basin) (p : Nat) : Bool :=
  decide (ceilDiv (Tbl.get x.quorum p 0 * x.partExpected p) 100 ≤ x.partMarked p)

def Basin.allMet (x : Basin) : Bool := x.quorum.all (fun e => x.quorumMet e.1)

/-- Whether every expected context is marked. -/
def Basin.complete (x : Basin) : Bool := x.waits.all (fun e => x.bmp.getLsbD e.1)

/-- The contexts relevant to a weir in ADAPTIVE mode with their waits in µs: for weir A those in partitions with a quorum. -/
def Basin.relevant (x : Basin) (a : Bool) : List (Nat × Nat) :=
  (x.waits.filter (fun e => !a || Tbl.get x.quorum e.2.1 0 != 0)).map (fun e => (e.1, if a then e.2.2.1 else e.2.2.2))

/-- The cause of a weir's deadline condition, if it holds (Table 4.5). -/
def Basin.deadline (x : Basin) (a : Bool) (now : Nat) : Option Nat :=
  let w := if a then x.wa else x.wb
  let tau : Int := (now : Int) - x.t0
  match w.mode with
  | 0 => if (w.w * 1000 : Nat) ≤ tau then some 1 else none
  | 1 =>
    let late := match x.firstArr with | some f => decide (f + w.w * 1000 ≤ now) | none => false
    if late then some 1 else if (w.wmax * 1000 : Nat) ≤ tau then some 2 else none
  | 2 =>
    if 0 ≤ tau ∧ (x.relevant a).all (fun e => x.bmp.getLsbD e.1 || decide ((e.2 * 1000 : Nat) ≤ tau)) = true then some 1
    else if (w.wmax * 1000 : Nat) ≤ tau then some 2 else none
  | _ => none

/-- The weir A and weir B conditions, with the cause to record. -/
def Basin.weirA (x : Basin) (now : Nat) : Option Nat :=
  if now < x.t0 then none else if x.allMet then some 0 else x.deadline true now
def Basin.weirB (x : Basin) (now : Nat) : Option Nat :=
  if now < x.t0 then none else if x.complete then some 0 else x.deadline false now

/-! ### Adaptive waits (R106 to R108) -/

/-- The histogram after a mark in a latency bin. -/
def histMark (h : List Nat) (a bin : Nat) : List Nat :=
  (List.range 16).map (fun i => let v := h.getD i 0; let v := v - v / 2 ^ a; if i = bin then v + 32768 else v)

/-- The edges of the bins in µs. -/
def binLo (i : Nat) : Nat := if i = 0 then 0 else 250 * 2 ^ (i - 1)
def binHi (i : Nat) : Nat := if i = 15 then 32768000 else 250 * 2 ^ i

/-- q as a ratio. -/
def qRatio (q : Nat) : Nat × Nat :=
  match q with
  | 0 => (9, 10)
  | 1 => (99, 100)
  | 2 => (999, 1000)
  | _ => (9999, 10000)

/-- L_of, bin by bin from bin i with the cumulative weight before it. -/
def latFrom (h : List Nat) (n d t : Nat) : Nat → Nat → Nat → Nat
  | 0, _, _ => binHi 15
  | k + 1, i, cum =>
    let v := h.getD i 0
    if n * t ≤ (cum + v) * d ∧ 0 < v then binLo i + ceilDiv ((binHi i - binLo i) * (n * t - cum * d)) (v * d)
    else latFrom h n d t k (i + 1) (cum + v)

def latOf (h : List Nat) (q : Nat) : Nat := latFrom h (qRatio q).1 (qRatio q).2 (h.foldl (· + ·) 0) 16 0 0

/-- A ring's settings of a weir. -/
def Block.weirCfg (b : Block) (r : Nat) (a : Bool) : WeirCfg :=
  let m := if a then b.cfg Reg.ALN_WA_MODE 0 r else b.cfg Reg.ALN_WB_MODE 0 r
  ⟨fld m 1 0, b.cn (if a then Reg.ALN_WA_W else Reg.ALN_WB_W) 0 r, b.cn (if a then Reg.ALN_WA_WMIN else Reg.ALN_WB_WMIN) 0 r,
    b.cn (if a then Reg.ALN_WA_WMAX else Reg.ALN_WB_WMAX) 0 r, fld m 3 2⟩

/-- A context's wait for a weir: clamped between Wmin and Wmax, Wmin first (R107). -/
def waitOf (w : WeirCfg) (seen init : Nat) (h : List Nat) : Nat :=
  let l := if seen < 256 then init else latOf h w.q
  if l < w.wmin then w.wmin else if w.wmax < l then w.wmax else l

/-- The contexts of a ring that are configured or have a history. -/
def Block.ringCtxs (b : Block) (r : Nat) : List Nat :=
  let l := b.listed Reg.STR_CTX_CTRL ++ b.listed Reg.ALN_CTX_INIT_LAT ++ b.aln.ctx.map (·.1)
  (l.foldl setIns []).filter (fun c => b.strRing c == r)

/-- The waits of every context of a ring recomputed at a tick (R107). -/
def Block.recomputeWaits (b : Block) (r : Nat) : Block :=
  let wa := b.weirCfg r true
  let wb := b.weirCfg r false
  let b := (b.ringCtxs r).foldl (fun b c =>
    let x := b.alnCtx c
    let i := b.cn Reg.ALN_CTX_INIT_LAT c
    b.setAlnCtx c { x with wA := waitOf wa x.seen i x.hist, wB := waitOf wb x.seen i x.hist }) b
  let y := b.ring r
  b.setRing r { y with w0A := waitOf wa 0 0 [], w0B := waitOf wb 0 0 [] }

/-! ### ALN's hand-over (R88, R109, R110) -/

/-- The bound of a weir in ns. -/
def WeirCfg.bound (w : WeirCfg) : Nat := (if w.mode = 0 then w.w else w.wmax) * 1000

def WeirCfg.ok (w : WeirCfg) : Bool :=
  w.mode != 3 && decide (w.wmin ≤ w.wmax) && (w.mode == 2 || (decide (w.wmin ≤ w.w) && decide (w.w ≤ w.wmax)))

/-- The constraints of R88 and R110 on a ring block. -/
def Block.ringSetOk (b : Block) (r : Nat) : Bool :=
  let wa := b.weirCfg r true
  let wb := b.weirCfg r false
  let p := b.period r
  let lim := if r = 0 then 2000000000 else 30000000000
  let keep := b.cn Reg.ALN_RETAIN 0 r
  wa.ok && wb.ok && decide (wa.bound ≤ min lim (12 * p)) && decide (wb.bound ≤ lim) && decide (wb.bound + 2 * p ≤ keep * 1000000) &&
    decide (ceilDiv (keep * b.ringRate r) 1000 + 3 ≤ b.depth r) && decide (1 ≤ fld (b.cfg Reg.ALN_RING_CFG 0 r) 27 20)

/-- A context's settings: its partition is one of its ring (R110). -/
def Block.alnCtxOk (b : Block) (c : Nat) : Bool := b.cf Reg.ALN_PART_CFG (b.cf Reg.ALN_CTX_WEIR c 29 24) 8 8 == b.strRing c

/-- The ring that a committed register of ALN belongs to; a partition's set that changes RING hands over at the ring it leaves (the model's
choice beside R109, log entry 125). -/
def Block.alnSetRing (b : Block) (k : Nat) : Nat :=
  if keySpace k = 0 then b.strRing (keyInst k)
  else if keySpace k = 3 then b.cf Reg.ALN_PART_CFG (keyInst k) 8 8
  else (keyOff k - 0x440) / 0x40

/-- The sets of ALN: one per context, per partition and per ring block. -/
def alnGroup (k : Nat) : Nat :=
  if keySpace k = 0 then keyInst k else if keySpace k = 3 then 8192 + keyInst k else 8256 + (keyOff k - 0x440) / 0x40

/-- A rejected set of ALN. -/
def Block.alnReject (b : Block) (k : Nat) : Block :=
  let b := if keySpace k = 0 then b.setBit Reg.ALN_CTX_STATE (keyInst k) 0 28 else b
  let r := b.alnSetRing k
  (b.irq Blk.aln 5).event 0x0506 r (b.ring r).nextSeq

/-- The waiting sets of ALN on a ring that were committed in this cycle, the cycle of an open of the ring: deferred (R109). -/
def Block.alnDeferred (b : Block) (r : Nat) : Nat :=
  (b.regs.com.filter (fun e => keyBlk e.1 == Blk.aln && b.alnSetRing e.1 == r && (b.lateSet e.1).isSome)).length

/-- Deferred writes counted. -/
def Block.alnDefer (b : Block) (n : Nat) : Block := if n = 0 then b else b.count Reg.ALN_SHADOW_DEFER 0 0 n

/-- Whether a ring's newest basin opened in this very instant. -/
def Block.openedNow (b : Block) (r : Nat) : Bool :=
  (b.ring r).pos.any (fun e => (e.2.seq + 1) % 2 ^ 32 == (b.ring r).nextSeq && e.2.st != .free && e.2.openAt == b.now)

/-- A commit of ALN's sets; those of a ring that has opened a basin in this cycle are deferred. -/
def Block.alnCommit (b : Block) : Block :=
  let n0 := b.alnDeferred 0
  let n1 := b.alnDeferred 1
  let b := b.commit Blk.aln
  let b := if b.openedNow 0 then b.alnDefer (b.alnDeferred 0 - n0) else b
  if b.openedNow 1 then b.alnDefer (b.alnDeferred 1 - n1) else b

/-- Writes to ALN's fields of a ring in the cycle of its open, before it: they wait for the following open without another COMMIT (R109). -/
def Block.alnWrites (b : Block) (r : Nat) : List Nat :=
  let now := if b.regs.wrote.1 = b.t7 then b.regs.wrote.2 else []
  b.regs.dirty.filter (fun k => now.contains k && keyBlk k == Blk.aln && b.alnSetRing k == r)

/-- The same for a write that comes after the open in its cycle. -/
def Block.alnLateWrite (b : Block) (key : Nat) : Block :=
  if keyBlk key = Blk.aln ∧ b.openedNow (b.alnSetRing key) = true then
    if b.regs.dirty.contains key then (b.promote [key]).alnDefer 1 else b
  else b

def Block.alnHandover (b : Block) (r : Nat) : Block :=
  let l := b.alnWrites r
  ((b.promote l).alnDefer (b.alnDeferred r)).handover (fun k => keyBlk k == Blk.aln && b.alnSetRing k == r) alnGroup
    (fun b sets => sets.all (fun e =>
      if keySpace e.1 = 0 then b.alnCtxOk (keyInst e.1) else if keySpace e.1 = 3 then true else b.ringSetOk ((keyOff e.1 - 0x440) / 0x40)))
    Block.alnReject

/-- RELEARN takes effect at a basin open (R108). -/
def Block.relearn (b : Block) (r : Nat) : Block :=
  ((b.aln.ctx.filter (fun e => e.2.relearn && b.strRing e.1 == r)).map (·.1)).foldl (fun b c =>
    let x := b.alnCtx c
    b.setAlnCtx c { x with relearn := false, seen := 0, hist := AlnCtx.reset.hist }) b

/-- RED's hand-over at a main-ring basin open (chapter 15). -/
def Block.redHandover (b : Block) : Block :=
  b.handover (fun k => keyBlk k == Blk.red) (fun _ => 0) (fun _ _ => true) (fun b _ => (b.irq Blk.red 8).redEvent 0x140D)

/-- Every hand-over that a basin open of a ring brings. -/
def Block.openHandovers (b : Block) (r : Nat) : Block :=
  let b := (((b.strHandover r).alnHandover r).relearn r).outHandover r
  if r = 0 then ((((b.islHandover).almHandover 0).rplHandover true).sdmHandover).redHandover else b.almHandover r

/-! ### Opening and freeing (R89 to R93, R476) -/

/-- The claims in flight of a basin cancelled (R476). -/
def Block.cancelClaims (b : Block) (r seq : Nat) : Block :=
  let mine := b.aln.claims.filter (fun k => k.ring == r && k.seq == seq)
  mine.foldl (fun b k => b.tooLate k.ctx)
    { b with aln := { b.aln with claims := b.aln.claims.filter (fun k => !(k.ring == r && k.seq == seq)) } }

/-- A ring position made FREE at once, without output. -/
def Block.freeBasin (b : Block) (r p : Nat) : Block :=
  let x := b.basinAt r p
  if x.st = .free then b else ((b.setBasin r p { x with st := .free, arrivedA := x.countA, arrivedB := x.countB }).cancelClaims r x.seq).outDrop r x.seq

/-- The expected contexts of a basin that opens, with partition and waits (R93). -/
def Block.expectedOf (b : Block) (r k : Nat) : Tbl (Nat × Nat × Nat) :=
  ((b.listed Reg.STR_CTX_CTRL).filter (fun c =>
    b.strEnabled c && b.strRing c == r && b.cb Reg.ALN_CTX_WEIR c 31 && !(b.alnCtx c).silent &&
      (b.cb Reg.STR_CTX_CTRL c 24 || k % max 1 (b.cf Reg.STR_CTX_CTRL c 23 16) == 0))).foldl
    (fun t c => Tbl.ins t c (b.cf Reg.ALN_CTX_WEIR c 29 24, (b.alnCtx c).wA, (b.alnCtx c).wB)) []

/-- The basin that opens for a slot, with everything it latches (R91). -/
def Block.newBasin (b : Block) (r seq slot : Nat) (forced : Bool) : Basin :=
  let rate := b.ringRate r
  let k := slot % max 1 rate
  let ws := b.expectedOf r k
  let parts := (List.range 64).filter (fun p => b.cf Reg.ALN_PART_CFG p 8 8 == r)
  { Basin.reset with
    st := .opened
    seq := seq
    slot := slot
    soc := b.socOf (slot / max 1 rate)
    k := k
    t0 := slotTime rate slot
    expected := ws.foldl (fun v e => bvSet v e.1) 0
    wa := b.weirCfg r true
    wb := b.weirCfg r false
    retainMs := b.cn Reg.ALN_RETAIN 0 r
    quorum := (parts.filter (fun p => b.cf Reg.ALN_PART_CFG p 7 0 != 0)).map (fun p => (p, b.cf Reg.ALN_PART_CFG p 7 0))
    parts := (parts.map (fun p => (p, (ws.filter (fun e => e.2.1 == p)).length))).filter (fun e => e.2 != 0)
    waits := ws
    forcedFree := forced
    openAt := b.now }

/-- A range of memory cleared to zeros: in the canonical form, no cell of it is listed. -/
def Block.zeroRange (b : Block) (a n : Nat) : Block :=
  { b with mem := { b.mem with cells := b.mem.cells.filter (fun c => decide (c.1 < a) || decide (a + n ≤ c.1)) } }

/-- The merged area and bits of a main-ring position cleared at its open (R377). -/
def Block.clearMerged (b : Block) (p : Nat) : Block :=
  if b.casMaster = false then b
  else
    let n := b.cf Reg.CAS_MERGE_STRIDE 0 6 0 * 65536
    let a := b.cn Reg.CAS_MERGE_BASE_LO + b.cn Reg.CAS_MERGE_BASE_HI % 256 * 4294967296 + p * n
    ({ b with cas := { b.cas with merged := b.cas.merged.filter (fun e => e.1 != p) } }).zeroRange a n

/-- The next basin of a ring opened (R15, R90 to R92). -/
def Block.openBasin (b : Block) (r : Nat) : Block :=
  let b := (b.openHandovers r).recomputeWaits r
  let y := b.ring r
  let p := y.nextSeq % max 1 (b.depth r)
  let old := b.basinAt r p
  let forced := old.st != .free
  let b := if forced then
      ((((b.freeBasin r p).cmpFreed r old.seq).count Reg.ALN_RING_FORCED_FREE).irq Blk.aln 4).event 0x0507 r y.nextSeq old.seq
    else b
  let b := if r = 0 then b.clearMerged p else b
  let x := b.newBasin r y.nextSeq y.nextSlot forced
  let z := b.ring r
  let b := (b.setRing r { z with nextSeq := (z.nextSeq + 1) % 2 ^ 32, nextSlot := z.nextSlot + 1 }).setBasin r p x
  let b := b.bmpWritten r p 0 1024
  b.outOpen r p x

/-! ### Starts, restarts and stops (R92) -/

/-- What still waits in the analytics of a ring ends with it: an expiry that is due happens first (Table 1.3), ALM holds what lacks an
input. -/
def Block.endAnalysis (b : Block) (r : Nat) : Block :=
  let b := match Tbl.get b.dfe.closedTag r none with
    | some m => b.expireTag r m
    | none => b
  let n := Tbl.get b.dfe.closedSeq r 0
  let b := if n = 0 then b else b.almExpire r (n - 1)
  let b := { b with
    dfe := { b.dfe with closedSeq := Tbl.erase b.dfe.closedSeq r, closedTag := Tbl.erase b.dfe.closedTag r, missed := setDel b.dfe.missed r }
    alm := { b.alm with cur := Tbl.erase b.alm.cur r, got := Tbl.erase b.alm.got r } }
  let y := b.ring r
  b.setRing r { y with awaits := none }

/-- Every basin of a ring FREE at once, its archive pulls cancelled. -/
def Block.freeRing (b : Block) (r : Nat) : Block :=
  (((b.ring r).pos.map (·.1)).foldl (fun b p => b.freeBasin r p) b).cmpRestart r

/-- The sequence numbers that a restart discards, the first and the last. -/
def Ring.discards (y : Ring) : Nat × Nat :=
  match (y.pos.filter (fun e => e.2.st != .free)).map (fun e => e.2) with
  | [] => (y.nextSeq, y.nextSeq)
  | x :: r => ((r.foldl (fun a z => if z.slot < a.slot then z else a) x).seq, (r.foldl (fun a z => if a.slot < z.slot then z else a) x).seq)

/-- Every context of a ring PRESENT again, its miss run cleared. -/
def Block.present (b : Block) (r : Nat) : Block :=
  ((b.aln.ctx.filter (fun e => b.strRing e.1 == r)).map (·.1)).foldl (fun b c =>
    b.setAlnCtx c { b.alnCtx c with silent := false, missRun := 0 }) b

/-- One ring started: the basins of the first slot times j and j + 1 open at once. -/
def Block.ringStart (b : Block) (r : Nat) : Block :=
  if b.ringEnabled r = false ∨ b.ringRate r = 0 then b
  else
    let b := ((b.endAnalysis r).freeRing r).present r
    let y := b.ring r
    let b := b.setRing r { y with run := true, started := true, nextSlot := slotAfter (b.ringRate r) b.now, lastCloseA := none, awaits := none }
    (b.openBasin r).openBasin r

/-- The rings start when the cycle starts. -/
def Block.ringsStart (b : Block) : Block := ((b.islRestart).ringStart 0).ringStart 1

/-- What a restart counts and reports for a ring that ran. -/
def Block.restartNote (b : Block) (r : Nat) (d : Nat × Nat) : Block :=
  ((b.count Reg.ALN_RESTARTS).irq Blk.aln 3).event 0x0505 r d.1 d.2

/-- The rings restart at a TB0 step: the open runs of missed basins close before the new generation (Table 1.3, R225). -/
def Block.ringsRestart (b : Block) : Block :=
  let run0 := (b.ring 0).run
  let run1 := (b.ring 1).run
  if run0 = false ∧ run1 = false then b
  else
    let d0 := (b.ring 0).discards
    let d1 := (b.ring 1).discards
    let b := ((b.endAnalysis 0).endAnalysis 1).newGen
    let b := b.modalReset
    let b := if run0 then b.restartNote 0 d0 else b
    let b := if run1 then b.restartNote 1 d1 else b
    b.ringsStart

/-- A ring stopped: nothing of it is output. -/
def Block.ringStop (b : Block) (r : Nat) : Block :=
  let b := (b.endAnalysis r).freeRing r
  let y := b.ring r
  b.setRing r { y with run := false }

def Block.ringsStop (b : Block) : Block := (b.ringStop 0).ringStop 1

end Sys2Proof.Machine
end

