-- ==== Sys2Proof/Machine/RedCore.lean ====
section
/-! DEFINITION. What ends and begins a partner's service: the fence, the yield, the release of a planned handover, the takeover
up to its restore, and the checkpoint's cut (R384 to R396). -/

namespace Sys2Proof.Machine

/-! ### Virtual addresses (R394) -/

/-- The virtual MAC of each uplink written to its port's last unicast entry, or taken out of it. -/
def Block.vmac (b : Block) (on : Bool) : Block :=
  (List.range 4).foldl (fun b u =>
    let lo := if on then w32 (b.cn Reg.RED_VMAC_LO 0 u) else 0
    let hi := if on then w32 (0x80010000 + b.cn Reg.RED_VMAC_HI 0 u % 65536) else 0x00010000#32
    ((b.setVis Reg.PRT_UC_LO (24 + u) 15 lo).setVis Reg.PRT_UC_HI (24 + u) 15 hi).filterCommit (24 + u) 15) b

/-- A gratuitous ARP: a broadcast request whose sender and target are the address (RFC 826, RFC 5227; PRESUMED, log entry 33). -/
def arpAnnounce (mac : List Byte) (v4 : Nat) : List Byte :=
  ethHead Prt.broadcast mac 0 0x0806 ++ beBytes 2 1 ++ beBytes 2 0x0800 ++ beBytes 1 6 ++ beBytes 1 4 ++ beBytes 2 1 ++ mac ++ beBytes 4 v4 ++
    List.replicate 6 0 ++ beBytes 4 v4

/-- An unsolicited Neighbour Advertisement to all nodes, with Override and the target's link-layer address (RFC 4861; PRESUMED, log
entry 33). -/
def naAnnounce (mac : List Byte) (v6 : Nat) : List Byte :=
  let all := 0xFF02 * 2 ^ 112 + 1
  let m := beBytes 1 136 ++ beBytes 1 0 ++ beBytes 2 0 ++ beBytes 4 0x20000000 ++ beBytes 16 v6 ++ beBytes 1 2 ++ beBytes 1 1 ++ mac
  let sum := inetSum (pseudo true v6 all 58 m.length ++ m)
  ethHead (beBytes 6 0x333300000001) mac 0 0x86DD ++ ip6Head 0 m.length 58 255 v6 all ++ patch m 2 (beBytes 2 sum)

/-- One gratuitous ARP and one unsolicited Neighbour Advertisement per virtual address, in egress class 2 (the model's choice, log
entry 112). -/
def Block.announceAddresses (b : Block) : Block :=
  (List.range 4).foldl (fun b u =>
    let mac := leBytes 4 (b.cn Reg.RED_VMAC_LO 0 u) ++ leBytes 2 (b.cn Reg.RED_VMAC_HI 0 u % 65536)
    let v4 := ipOf false [b.cn Reg.RED_VIP4 0 u]
    let v6 := ipOf true [b.cn Reg.RED_VIP6_0 0 u, b.cn Reg.RED_VIP6_1 0 u, b.cn Reg.RED_VIP6_2 0 u, b.cn Reg.RED_VIP6_3 0 u]
    let b := if v4 = 0 then b else b.enqueueAll (24 + u) 2 [arpAnnounce mac v4]
    if v6 = 0 then b else b.enqueueAll (24 + u) 2 [naAnnounce mac v6]) b

/-! ### The end of service (R384, R386, R396) -/

/-- Output stopped with its sessions, pins and publishers released, the virtual addresses removed. -/
def Block.serveStop (b : Block) : Block :=
  let b := b.sessDrop
  { b with out := { b.out with halted := true }, alm := { b.alm with silenced := true } }.vmac false

/-- The lease and what depends on being active forgotten. -/
def Red.idle (r : Red) : Red :=
  { r with leaseEnd := none, sends := [], solo := false, byTakeover := false, handover := none, holdSince := none, tkAt := none }

/-- The module leaves service for STANDBY with a role: from a mode of service only (Table 18.2). -/
def Block.toStandby (b : Block) (role : Nat) : Block :=
  let b := ({ b with red := b.red.idle }).setRole role
  match b.sys.mode with
  | .active | .holdover | .degraded | .takeover => b.setMode .standby 0
  | _ => b.almMode

/-- The fence (R384). -/
def Block.fence (b : Block) : Block :=
  ((((b.serveStop.redFail.ringsStop).toStandby 3).count Reg.RED_FENCES).irq Blk.red 3).redEvent 0x1404

/-- The yield of an active in DEGRADED (R386, R429). -/
def Block.redYield (b : Block) : Block :=
  if b.redActive = true ∧ b.redYields = true then (b.serveStop.redFail.ringsStop).toStandby 2 else b

/-- The frame CONTROL with each publisher's stNum, in egress class 2 (the model's choice, log entry 112). -/
def Block.controlStNums (b : Block) : Block :=
  b.mirrorSend 2 (Config.encode 14 (b.red.epoch :: (List.range 8).map (fun p => (b.pub p).st)))

/-- The frame CONTROL HANDOVER(h) with the sequence number of basin h (R396), in egress class 2 (the model's choice, log entry 112). -/
def Block.controlHandover (b : Block) (h seq : Nat) : Block := b.mirrorSend 2 (Config.encode 15 [b.red.epoch, h, seq])

/-- The longest re-send window of the enabled streams in µs. -/
def Block.resendMax (b : Block) : Nat :=
  (List.range 64).foldl (fun a s =>
    if b.cb Reg.OUT_STR_CFG s 31 = true ∧ b.cb Reg.OUT_STR_CFG s 21 = true then max a (b.cn Reg.OUT_STR_RESEND_WIN s % 2 ^ 25) else a) 0

/-- The basins of a ring from an instant onward made FREE. -/
def Block.freeFrom (b : Block) (r t : Nat) : Block :=
  (((b.ring r).pos.filter (fun e => decide (t ≤ e.2.t0))).map (·.1)).foldl (fun b p => b.freeBasin r p) b

/-- The release of a planned handover at the weir A condition of basin h (step 3 of Table 15.7). -/
def Block.redRelease (b : Block) (h : Nat) : Block :=
  let rate := b.ringRate 0
  let stop := slotTime rate (h - 1) + (b.weirBoundB 0 + b.resendMax) * 1000
  let b := (b.redSendBoth 4).controlStNums
  let b := { b with alm := { b.alm with silenced := true } }.vmac false
  let b := ((b.count Reg.RED_HANDOVERS).irq Blk.red 1).redEvent 0x1407
  let b := (b.endAnalysis 0).endAnalysis 1
  let b := (b.freeFrom 0 (slotTime rate h)).freeFrom 1 (slotTime rate h)
  let b := b.toStandby 6
  { b with red := { b.red with stopAt := some stop } }

/-- A request for MAINTENANCE that waited for the handover is met (R429). -/
def Block.maintAfter (b : Block) : Block :=
  if b.sys.maintWaits = true ∧ b.sys.mode = .standby then ({ b with sys := { b.sys with maintWaits := false } }).setMode .maintenance 0
  else b

/-- Step 7 of Table 15.7: the old active stops output and takes the role STANDBY, its sessions closed with FIN. -/
def Block.handoverStop (b : Block) : Block :=
  match b.red.stopAt with
  | none => b
  | some t =>
    if b.red.role ≠ 6 ∨ b.now < t then b
    else
      let b := (b.out.sess.map (·.1)).foldl (fun b i => b.sessClose i) b
      let b := { b with out := { b.out with halted := true }, red := { b.red with stopAt := none } }
      ((b.ringsStop).setRole 2).maintAfter

/-! ### Takeover (R385, R393) -/

/-- The newer of two role epochs. -/
def newerEpoch (a c : Nat) : Nat := if later 32 c a then c else a

/-- The partner that becomes active takes the newer of the two epochs plus 1 (R388). -/
def Block.epochUp (b : Block) : Block := b.setRedEpoch ((newerEpoch b.red.epoch b.red.pEpoch + 1) % 2 ^ 32)

/-- The standby enters TAKEOVER and starts its restore; a planned handover's is no takeover of R385. -/
def Block.takeover (b : Block) (planned : Bool) : Block :=
  let b := { b.epochUp with alm := { b.alm with driven := false, silenced := false } }
  let b := (b.setRole 4).setMode .takeover 0
  let b := if planned then b else (b.count Reg.RED_TAKEOVERS).irq Blk.red 2
  { b with red := { b.red with tkAt := some b.t7, tkNow := b.now, byTakeover := !planned, solo := false, leaseEnd := none, sends := [], handover := if planned then b.red.handover else none } }

/-- TAKEOVER ends in the mode of service (Table 18.2), with the role ACTIVE. -/
def Block.leaveTakeover (b : Block) : Block :=
  if b.sys.mode ≠ .takeover then b else ((b.setRole 1).setMode b.serviceMode b.serviceCause).redYield

/-! ### The checkpoint's cut (R391) -/

/-- The home location of an item: the row of Table 15.5 and its instance. -/
def CkptItem.home : CkptItem → Nat × Nat
  | .ring r _ _ => (0, r)
  | .alnCtx c _ => (1, c)
  | .replay c _ _ => (2, c)
  | .carry a _ => (3, a)
  | .islBus i _ => (4, i)
  | .islBranch i _ => (5, i)
  | .islSlot i _ => (6, i)
  | .islIds _ _ => (7, 0)
  | .detector k _ => (8, k)
  | .pair k _ => (9, k)
  | .definition d _ => (10, d)
  | .pulse p _ => (11, p)
  | .publisher p _ => (12, p)
  | .rpl _ => (13, 0)
  | .ident s _ => (14, s)
  | .spdu s _ => (15, s)
  | .udpOn _ => (16, 0)
  | .cfgNotice s _ => (17, s)
  | .node n _ => (18, n)
  | .committed k _ => (19, k)
  | .tuneCounter _ => (20, 0)

/-- The committed halves of the carry state (R217): where each lies and how long it is. -/
def Block.carryHalves (b : Block) : List (Nat × Nat) :=
  b.dfe.graph.flatMap (fun e => e.2.carry.map (fun p => opRange e.1 (4 + p) (Tbl.get b.dfe.halves (4 * e.1 + p) 0)))

/-- The half at an address becomes the committed one. -/
def Block.halfAt (b : Block) (a : Nat) : Block :=
  { b with dfe := { b.dfe with halves := b.dfe.graph.foldl (fun t e => e.2.carry.foldl (fun t p =>
      if (opRange e.1 (4 + p) 0).1 = a then Tbl.put t (4 * e.1 + p) 0 0
      else if (opRange e.1 (4 + p) 1).1 = a then Tbl.put t (4 * e.1 + p) 1 0 else t) t) b.dfe.halves } }

/-- The item at a home location as it stands. -/
def Block.ckptAt (b : Block) (h : Nat × Nat) : CkptItem :=
  let k := h.2
  match h.1 with
  | 0 => .ring k (b.ring k).nextSeq (b.ring k).nextSlot
  | 1 => .alnCtx k (b.alnCtx k)
  | 2 => let e := Tbl.get b.str.replay k (0, 0); .replay k e.1 e.2
  | 3 => .carry k (b.load k (((b.carryHalves.find? (fun e => e.1 == k)).map (·.2)).getD 0))
  | 4 => .islBus k (b.bus k)
  | 5 => .islBranch k (b.branch k)
  | 6 => .islSlot k (Tbl.get b.isl.islands k Island.reset)
  | 7 => .islIds b.isl.mainId b.isl.nextId
  | 8 => .detector k (b.det k)
  | 9 => .pair k (Tbl.get b.alm.pair k Detector.reset)
  | 10 => .definition k (b.almDef k)
  | 11 => .pulse k (Tbl.get b.alm.pulses k b.t7 - b.t7)
  | 12 => .publisher k (b.pub k)
  | 13 => .rpl b.red.ckRpl
  | 14 => .ident k (Tbl.get b.out.ident k 0)
  | 15 => .spdu k (Tbl.get b.out.spdu k 0)
  | 16 => .udpOn b.out.udpOn
  | 17 => .cfgNotice k (bit (b.vis Reg.OUT_STR_CFG k).toNat 18)
  | 18 => .node k (b.radNode k)
  | 19 => .committed k (Tbl.get b.regs.com k 0)
  | _ => .tuneCounter b.sys.tuneCounter

/-- The home locations that hold something (Table 15.5). -/
def Block.ckptHomes (b : Block) : List (Nat × Nat) :=
  let of (n : Nat) (ks : List Nat) : List (Nat × Nat) := ks.map (fun k => (n, k))
  of 0 [0, 1] ++ of 1 (b.aln.ctx.map (·.1)) ++ of 2 (b.str.replay.map (·.1)) ++ of 3 (b.carryHalves.map (·.1)) ++
    of 4 (b.isl.buses.map (·.1)) ++ of 5 (b.isl.branches.map (·.1)) ++ of 6 (b.isl.islands.map (·.1)) ++ of 7 [0] ++
    of 8 (b.alm.det.map (·.1)) ++ of 9 (b.alm.pair.map (·.1)) ++ of 10 (b.alm.defs.map (·.1)) ++ of 11 (b.alm.pulses.map (·.1)) ++
    of 12 (b.alm.pubs.map (·.1)) ++ of 13 [0] ++ of 14 (b.out.ident.map (·.1)) ++ of 15 (b.out.spdu.map (·.1)) ++ of 16 [0] ++
    of 17 (List.range 64) ++ of 18 (b.rad.nodes.map (·.1)) ++ of 19 (b.regs.com.map (·.1)) ++ of 20 [0]

/-- The delta of a tag: every item that differs from what the last cuts sent, those that hold nothing any more included; a committed set
goes with the delta of its commit alone. -/
def Block.ckptDelta (b : Block) : List CkptItem :=
  let gone := (b.red.ckSent.map CkptItem.home).filter (fun h => h.1 != 3 && h.1 != 19 && !b.ckptHomes.contains h)
  ((b.ckptHomes ++ gone).map b.ckptAt).filter (fun x => !b.red.ckSent.contains x)

/-- The sixteenth of the whole image that travels with a tag's delta. -/
def Block.ckptPart (b : Block) (seq : Nat) : List CkptItem :=
  let hs := b.ckptHomes
  ((List.range hs.length).zip hs).filterMap (fun e => if e.1 % 16 = seq % 16 then some (b.ckptAt e.2) else none)

/-- The delta of a tag cut and sent with one sixteenth of the image over path A (R391). -/
def Block.ckptCut (b : Block) (seq : Nat) : Block :=
  if b.redActive = false ∨ b.redUp 0 = false then b
  else
    let q := b.draw
    let body := Config.encode 16 [b.red.epoch, seq, q.1]
    let b := q.2
    let delta := b.ckptDelta
    let f : CkptFrame := ⟨b.red.epoch, b.sys.pairCompat, seq, 0, body.length, true, true, delta ++ b.ckptPart seq⟩
    let sent := b.red.ckSent.filter (fun x => !(delta.map CkptItem.home).contains x.home) ++ delta
    let b := b.mirrorSend 0 body
    { b.count Reg.RED_CKPT_DELTAS with red := { b.red with ckLast := seq, ckSent := sent, ckOut := (b.t7, [f]) } }

end Sys2Proof.Machine
end

