-- ==== Sys2Proof/Machine/AlnOps.lean ====
section
/-! DEFINITION. Weirs, marks, expiry, retention and ticks (chapters 1 and 4), and the restore at a takeover (R393, R394). -/

namespace Sys2Proof.Machine

/-! ### Expiry and the start of a basin's analytics (R22, R23, R207) -/

/-- The expiry that a ring waits for: the tag before the newest alarm close ends, the checkpoint's delta is cut, and the newest
basin's CLOSE tokens go out. -/
def Block.tagExpiry (b : Block) (r : Nat) : Block :=
  match Tbl.get b.dfe.closedTag r none with
  | none => b
  | some m =>
    let b := b.expireTag r m
    let b := { b with dfe := { b.dfe with closedTag := Tbl.erase b.dfe.closedTag r } }
    let b := if r = 0 then b.ckptCut m else b
    let y := b.ring r
    match y.awaits with
    | none => b
    | some s =>
      let b := b.setRing r { y with awaits := none }
      match y.seqPos s with
      | some (_, x) => ((b.closeStart r x).almEvaluate r).missSettle r
      | none => b

/-- The analytics of a basin at its alarm close: at once where no earlier tag is under way, else after that tag's expiry; a tag whose
results are not all published by now has missed its deadline (R22). -/
def Block.analyse (b : Block) (r : Nat) (x : Basin) : Block :=
  let b := b.tagExpiry r
  let n := Tbl.get b.dfe.closedSeq r 0
  if n = 0 then ((b.closeStart r x).almEvaluate r).missSettle r
  else
    let late := b.tagLeft r (n - 1)
    let b := { b with dfe := { b.dfe with
        closedTag := Tbl.put b.dfe.closedTag r (some (n - 1)) none
        missed := if late then setIns b.dfe.missed r else setDel b.dfe.missed r } }
    b.setRing r { b.ring r with awaits := some x.seq }

/-! ### Weir A (R19, R20, R102, R103) -/

/-- Whether an earlier basin of the ring has not passed weir A, or weir B (R19). -/
def Ring.earlierWaits (y : Ring) (slot : Nat) (a : Bool) : Bool :=
  y.pos.any (fun e => decide (e.2.slot < slot) && (e.2.st == .opened || (!a && e.2.st == .alarmClosed)))

/-- The basin of a ring with the lowest slot in a state. -/
def Ring.earliest (y : Ring) (st : BState) : Option (Nat × Basin) :=
  (y.pos.filter (fun e => e.2.st == st)).foldl (fun a e =>
    match a with
    | none => some e
    | some c => if e.2.slot < c.2.slot then some e else some c) none

/-- The half basin period of R20 has not passed since the ring's last alarm close. -/
def Block.spacingHolds (b : Block) (r : Nat) : Bool :=
  match (b.ring r).lastCloseA with
  | some c => decide ((b.now - c) * (2 * b.ringRate r) < nsPerS)
  | none => false

/-- The close's offset from the slot time in units of 16 ns (R105). -/
def Basin.offset16 (x : Basin) (now : Nat) : Int := clampI (-2147483648) 2147483647 (((now : Int) - x.t0) / 16)

/-- What an alarm close records of the partitions (R103). -/
def Block.partClose (b : Block) (r : Nat) (x : Basin) (c : Nat) : Block :=
  let ps := (List.range 64).filter (fun p => b.cf Reg.ALN_PART_CFG p 8 8 == r)
  let b := ps.foldl (fun b p =>
    { b with aln := { b.aln with partLast := Tbl.put b.aln.partLast p (x.partExpected p, x.partMarked p) (0, 0) } }) b
  if c = 0 then x.lastMet.foldl (fun b p => b.count Reg.ALN_PART_LAST_TO_MEET p) b
  else ((x.quorum.map (·.1)).filter (fun p => !x.quorumMet p)).foldl (fun b p => b.count Reg.ALN_PART_SHORT p) b

/-- The basin of a planned handover has passed its weir A on the new active: TAKEOVER ends (Table 18.2). -/
def Block.handoverClosed (b : Block) (r : Nat) (x : Basin) : Block :=
  match b.red.handover with
  | some (h, _) =>
    if r = 0 ∧ x.slot = h ∧ b.sys.mode = .takeover then ({ b with red := { b.red with handover := none } }).leaveTakeover else b
  | none => b

/-- The alarm close; a flagged basin passes without a CLOSE token, its definitions held (R393). -/
def Block.closeA (b : Block) (r p c : Nat) (flagged : Bool) : Block :=
  let x := b.basinAt r p
  let y : Basin := { x with
    st := .alarmClosed
    bmpA := x.bmp
    causeA := c
    closeA7 := b.t7
    waOff := x.offset16 b.now
    arrivedA := popcount (x.bmp &&& x.expected) }
  let b := b.setBasin r p y
  let b := b.setRing r { b.ring r with lastCloseA := some b.now }
  let b := if flagged then b else b.partClose r y c
  let b := if r = 0 then b.partialA p y else b
  let b := if flagged then b.almExpire r y.seq else b.analyse r y
  b.handoverClosed r y

/-- The weir A condition of a basin noted with its cause when it is first seen to hold. -/
def Block.noteA (b : Block) (r p : Nat) : Block :=
  let x := b.basinAt r p
  if x.st = .opened ∧ x.condA = none then
    match x.weirA b.now with
    | some c => b.setBasin r p { x with condA := some c }
    | none => b
  else b

/-- A restore that has not ended holds back every alarm close, as a WARM ring does (Table 15.7). -/
def Block.weirsWait (b : Block) : Bool := b.red.role == 5 || (b.red.role == 4 && b.red.tkAt.isSome)

/-- One basin tried at weir A: closed, held by an earlier basin or by the spacing, or the point of a planned handover. -/
def Block.tryA1 (b : Block) (r p : Nat) : Block :=
  let b := b.noteA r p
  let x := b.basinAt r p
  match x.condA with
  | none => b
  | some c =>
    if x.st ≠ .opened ∨ (b.ring r).run = false ∨ (b.ring r).earlierWaits x.slot true = true ∨ b.weirsWait = true then b
    else if b.spacingHolds r then
      if x.spaced then b else (b.setBasin r p { x with spaced := true }).count Reg.ALN_WA_SPACING_HOLDS
    else
      let due := match b.red.handover with | some (h, _) => b.redActive && b.red.role == 1 && r == 0 && h == x.slot | none => false
      if due then b.redRelease x.slot else b.closeA r p c false

/-- A basin tried at weir A, and after its close the next one of the ring. -/
def Block.tryA (b : Block) (r p : Nat) : Block :=
  let b := b.tryA1 r p
  if (b.basinAt r p).st = .opened then b
  else match (b.ring r).earliest .opened with
    | some (q, _) => b.tryA1 r q
    | none => b

/-! ### Weir B (R94, R101, R104) -/

/-- What weir B does for an expected context that is not marked: counted missing, its miss run, silence. -/
def Block.missed1 (b : Block) (r c : Nat) : Block :=
  let b := b.count Reg.ALN_CTX_MISSING c
  let x := b.alnCtx c
  if x.silent then b
  else
    let n := min 255 (x.missRun + 1)
    let b := b.setAlnCtx c { x with missRun := n }
    if fld (b.cfg Reg.ALN_RING_CFG 0 r) 27 20 ≤ n then b.silence c else b

/-- The output close. -/
def Block.closeB (b : Block) (r p c : Nat) : Block :=
  let x := b.basinAt r p
  let y : Basin := { x with
    st := .outputClosed
    bmpB := x.bmp
    causeB := c
    wbOff := x.offset16 b.now
    arrivedB := popcount (x.bmp &&& x.expected) }
  let b := b.setBasin r p y
  let b := ((y.waits.map (·.1)).filter (fun c => !y.bmp.getLsbD c)).foldl (fun b c => b.missed1 r c) b
  let b := if r = 0 then b.partialB p y else b
  let b := b.outWeirB r y
  let b := if r = 0 then b.gatherStart p y else b
  if r = 0 ∧ b.sys.mode = .takeover ∧ b.red.tkAt = none ∧ b.red.handover = none ∧ b.red.tkLast = y.seq then b.leaveTakeover else b

/-- The weir B condition noted with its cause when it is first seen to hold. -/
def Block.noteB (b : Block) (r p : Nat) : Block :=
  let x := b.basinAt r p
  if (x.st = .opened ∨ x.st = .alarmClosed) ∧ x.condB = none then
    match x.weirB b.now with
    | some c => b.setBasin r p { x with condB := some c }
    | none => b
  else b

/-- One basin tried at weir B: never in the cycle of its alarm close, and in basin order. -/
def Block.tryB1 (b : Block) (r p : Nat) : Block :=
  let b := b.noteB r p
  let x := b.basinAt r p
  match x.condB with
  | none => b
  | some c =>
    if x.st ≠ .alarmClosed ∨ b.t7 ≤ x.closeA7 ∨ (b.ring r).run = false ∨ (b.ring r).earlierWaits x.slot false = true then b
    else b.closeB r p c

/-- A basin tried at weir B, and after its close the next ones of the ring that only waited for it (R19). -/
def Block.tryB (b : Block) (r p : Nat) : Nat → Block
  | 0 => b
  | n + 1 =>
    let b := b.tryB1 r p
    if (b.basinAt r p).st = .alarmClosed ∨ (b.basinAt r p).st = .opened then b
    else match (b.ring r).earliest .alarmClosed with
      | some (q, _) => Block.tryB b r q n
      | none => b

/-! ### Marks (R16, R18, R94, R95, R99, R100, R106) -/

/-- A context's histogram, learning count, miss run and presence at its mark. -/
def Block.markCtx (b : Block) (c bin : Nat) : Block :=
  let x := b.alnCtx c
  let b := b.setAlnCtx c { x with
    silent := false
    missRun := 0
    seen := min 256 (x.seen + 1)
    hist := histMark x.hist (b.cf Reg.ALN_CTX_WEIR c 23 19) bin }
  if x.silent then (b.irq Blk.aln 1).eventRep c 0x0502 c else b

/-- The basin after a mark: its bit, first arrival, counts, and the partition whose quorum the mark meets. -/
def Basin.mark (x : Basin) (c now t7 : Nat) (late : Bool) : Basin :=
  let exp := x.expected.getLsbD c
  let y : Basin := { x with
    bmp := bvSet x.bmp c
    firstArr := if exp = true ∧ x.firstArr = none then some now else x.firstArr
    unexpected := if exp then x.unexpected else x.unexpected + 1
    lateFilled := if late then x.lateFilled + 1 else x.lateFilled }
  match x.waits.find? (fun e => e.1 == c) with
  | some (_, p, _) =>
    if Tbl.get x.quorum p 0 = 0 ∨ x.quorumMet p = true ∨ y.quorumMet p = false then y
    else { y with metAt := t7, lastMet := if x.metAt = t7 then y.lastMet ++ [p] else [p] }
  | none => y

/-- A late record's header: STATUS from OK to LATE_FILLED. -/
def Block.lateHeader (b : Block) (a : Nat) : Block :=
  let w := b.loadN a 4
  if bits w 31 28 = 0 then b.storeN a 4 (w + 2 * 2 ^ 28) else b

/-- The closes of a ring that fall due in this cycle without a further mark. -/
def Block.weirsDue (b : Block) (r : Nat) : Block :=
  let b := match (b.ring r).earliest .opened with
    | some (p, _) => b.tryA r p
    | none => b
  match (b.ring r).earliest .alarmClosed with
  | some (p, _) => b.tryB r p 512
  | none => b

/-- ALN's mark of a claimed record; a mark in the cycle of a close belongs to the set after it (R18, R99): a deadline that falls due in
the mark's cycle closes first, with the deadline's cause (the model's choice beside R102, log entry 125). A mark after the retention's end,
also of a basin that is FREE by then, is TOO_LATE. -/
def Block.markClaim (b : Block) (r seq c : Nat) : Block :=
  let b := if b.aln.claims.any (fun k => k.ring == r && k.seq == seq && k.ctx == c) then b.weirsDue r else b
  match b.aln.claims.find? (fun k => k.ring == r && k.seq == seq && k.ctx == c), (b.ring r).seqPos seq with
  | some k, some (p, x) =>
    let b := { b with aln := { b.aln with claims := b.aln.claims.filter (fun j => !(j.ring == r && j.seq == seq && j.ctx == c)) } }
    if x.lateClosed then b.tooLate c
    else
      let late := x.st == .outputClosed || x.st == .retained
      let b := if late then b.lateHeader (b.recordAddr r p c) else b
      let b := ((b.setBasin r p (x.mark c b.now b.t7 late)).bmpWritten r p (c / 8) 1).markCtx c k.bin
      let b := b.count Reg.ALN_CTX_MARKED c
      if late then
        let b := (b.count Reg.ALN_CTX_LATE c).outLate r seq c
        if r = 0 then b.partialLate p c (b.basinAt r p) else b
      else if x.st = .alarmClosed then (b.count Reg.ALN_CTX_AFTER_A c).tryB r p 512
      else (b.noteB r p).tryA r p
  | some _, none =>
    ({ b with aln := { b.aln with claims := b.aln.claims.filter (fun j => !(j.ring == r && j.seq == seq && j.ctx == c)) } }).tooLate c
  | none, _ => b

/-- A mark; a record that waited for its claim is offered then (R97). -/
def Block.recordMark (b : Block) (r seq c : Nat) : Block := (b.markClaim r seq c).offerWaiting

/-! ### After weir B (R89, R101, R111, R354) -/

/-- The headers of the slots of a basin that are neither marked nor claimed: MISSING. -/
def Block.missingHeaders (b : Block) (r p : Nat) (x : Basin) : Block :=
  let cs := (b.listed Reg.STR_CTX_CTRL).filter (fun c =>
    b.strRing c == r && !x.bmp.getLsbD c && !b.aln.claims.any (fun k => k.ring == r && k.seq == x.seq && k.ctx == c))
  cs.foldl (fun b c =>
    b.store (b.recordAddr r p c) (leBytes 4 (2 ^ 28 + b.cf Reg.STR_CTX_CTRL c 26 25 * 2 ^ 13 + c) ++ leBytes 12 0)) b

/-- ALN has written the MISSING headers of a basin. -/
def Block.missingHeadersDone (b : Block) (r seq : Nat) : Block :=
  match (b.ring r).seqPos seq with
  | some (p, x) =>
    if x.st ≠ .outputClosed ∨ x.missDone = true then b
    else ((b.missingHeaders r p x).setBasin r p { x with missDone := true }).settleBasin r p
  | none => b

/-- OUT releases a basin once every part has been handed over (R125). -/
def Block.outRelease (b : Block) (r seq : Nat) : Block :=
  match (b.ring r).seqPos seq with
  | some (p, x) =>
    if x.st ≠ .outputClosed ∨ x.outDone = true ∨ b.outHandedOver r seq = false then b
    else (b.setBasin r p { x with outDone := true }).settleBasin r p
  | none => b

/-- The basin head (Table 4.6). -/
def Basin.head (x : Basin) (r : Nat) : List Byte :=
  leBytes 4 x.soc ++ leBytes 1 x.k ++ leBytes 1 (r + 2 * b2n x.forcedFree + 4 * b2n x.spaced) ++ leBytes 1 (x.causeA + 4 * x.causeB) ++ [0] ++
    leBytes 4 x.seq ++ leBytes 4 (sat32 x.waOff) ++ leBytes 4 (sat32 x.wbOff) ++ leBytes 2 (popcount x.expected) ++ leBytes 2 x.arrivedA ++
    leBytes 2 x.arrivedB ++ leBytes 2 x.lateFilled ++ leBytes 2 x.unexpected ++ leBytes 2 x.dups ++ tt80 x.openAt ++ leBytes 22 0

/-- A basin reaches its retention end: head and bitmap written, LATE_CLOSED, and its archive pulls queued. -/
def Block.retentionEnd (b : Block) (r seq : Nat) : Block :=
  match (b.ring r).seqPos seq with
  | some (p, x) =>
    if (x.st ≠ .outputClosed ∧ x.st ≠ .retained) ∨ x.lateClosed = true ∨ b.now < x.t0 + x.retainMs * 1000000 then b
    else
      let b := b.store (b.regionAddr r p) (x.head r ++ leBytes 1024 x.bmp.toNat)
      let q := b.cmpQueue r seq x.k
      let gs := q.1
      let b := q.2
      (b.setBasin r p { x with lateClosed := true, archOwed := gs, archiving := !gs.isEmpty }).settleBasin r p
  | none => b

/-! ### Ticks (R11, R15, R396) -/

/-- The start of a standby's rings for a planned handover: basin h is the first to open (step 2 of Table 15.7). -/
def Block.warmStart (b : Block) (h seq : Nat) : Block :=
  let b := b.setRole 5
  let b := (b.islRestart.endAnalysis 0).freeRing 0
  let b := b.present 0
  let y := b.ring 0
  let b := b.setRing 0 { y with run := true, started := true, nextSeq := seq, nextSlot := h, lastCloseA := none, awaits := none }
  (b.openBasin 0).ringStart 1

/-- A tick of a ring. -/
def Block.tick (b : Block) (r : Nat) : Block :=
  let y := b.ring r
  if y.run then
    if b.red.role = 6 ∨ b.now < slotTime (b.ringRate r) (y.nextSlot - 2) then b else (b.openBasin r).offerWaiting
  else if r = 0 ∧ b.red.role = 2 then
    match b.red.handover with
    | some (h, seq) => if b.now < slotTime (b.ringRate 0) (h - 2) then b else b.warmStart h seq
    | none => b
  else b

/-- RELEARN asked for (R108). -/
def Block.ctxRelearn (b : Block) (c : Nat) : Block := b.setAlnCtx c { b.alnCtx c with relearn := true }

/-! ### The restore at a takeover (R393, R394) -/

/-- The state after LOAD that a cold start begins with; the rings' numbers come from the active's last heartbeat. -/
def Block.coldState (b : Block) : Block :=
  let y := b.ring 0
  let b := { b with
    aln := { b.aln with ctx := [] }
    str := { b.str with replay := [] }
    isl := Isl.reset
    alm := { b.alm with det := [], pair := [], defs := [], pubs := [], pulses := [], asserted := [] }
    rpl := Rpl.reset
    out := { b.out with spdu := [], udpOn := [] }
    rad := { b.rad with nodes := [] } }
  (b.setRing 0 { y with nextSeq := (b.red.pBasin + 1) % 2 ^ 32 }).redEvent 0x140B

/-- The number of flagged basins of a ring: slot times at or before now whose weir B bound ends after it. -/
def Block.flagged (b : Block) (r : Nat) : Nat :=
  let rate := b.ringRate r
  let j := slotAfter rate b.now
  ((List.range (b.depth r)).filter (fun i => decide (i < j) && decide (b.now < slotTime rate (j - 1 - i) + b.weirBoundB r * 1000))).length

/-- A basin opened and passed through weir A at once. -/
def Block.openFlagged (b : Block) (r : Nat) : Block :=
  let p := (b.ring r).nextSeq % max 1 (b.depth r)
  let b := b.openBasin r
  let q := b.draw
  let v := q.1
  let b := q.2
  b.closeA r p (v % 3) true

/-- A ring resumed: its flagged basins, then the two basins of a start (R92); a cold start numbers from its first basin. -/
def Block.ringResume (b : Block) (r : Nat) (cold : Bool) : Block :=
  if b.ringEnabled r = false ∨ b.ringRate r = 0 then b
  else
    let b := ((b.endAnalysis r).freeRing r).present r
    let n := b.flagged r
    let first := slotAfter (b.ringRate r) b.now - n
    let y := b.ring r
    let seq := if cold then y.nextSeq else (((y.nextSeq : Int) + first - y.nextSlot) % 2 ^ 32).toNat
    let b := b.setRing r { y with run := true, started := true, nextSeq := seq, nextSlot := first, lastCloseA := none, awaits := none }
    let b := if r = 0 then { b with red := { b.red with tkFirst := seq, tkLast := (seq + n + 4294967295) % 2 ^ 32 } } else b
    let b := (List.range n).foldl (fun b _ => b.openFlagged r) b
    (b.openBasin r).openBasin r

/-- The first of the two basins that a start opened. -/
def Ring.firstOfTwo (y : Ring) : Nat := (y.nextSeq + 4294967294) % 4294967296

/-- The carry tokens of the first analysed tag of a ring: GAP counts the tags since the image's (R393, R218). -/
def Block.gapCarry (b : Block) (r seq : Nat) : Block :=
  let gap := min 3 ((seq + 4294967295 - b.red.ckLast) % 2 ^ 32)
  b.dfe.graph.foldl (fun b e =>
    if b.tickOp r e.1 = false then b
    else e.2.carry.foldl (fun b p => b.offerToken 1 ⟨e.1, p, seq % 65536, r, b.dfe.gen, false, false, gap, 1,
      statePayload e.1 p (Tbl.get b.dfe.halves (4 * e.1 + p) 0), 0⟩) b) b

/-- The new active in service: virtual addresses, pins and publishers, event 0x1403 with the takeover's instant. -/
def Block.takeService (b : Block) (planned : Bool) (n : Nat) : Block :=
  let b := (b.vmac true).announceAddresses
  let b := { b with out := { b.out with halted := false }, alm := { b.alm with driven := true } }
  let b := (b.almPins).almMode
  let q := b.draw
  let g := q.1
  let b := q.2
  let b := { b with red := { b.red with gapUs := if planned then b.red.gapUs else g % 65536 } }
  if planned then b
  else b.eventAt 0x1403 0xFFFF b.red.epoch (if n = 0 then 0 else b.red.tkFirst % 65536 + b.red.tkLast % 65536 * 65536) b.red.tkNow false none

/-- The end of restore in a planned handover: the rings run since the WARM start. -/
def Block.restoreWarm (b : Block) (seq : Nat) : Block :=
  let b := { b.newGen with red := { b.red with tkAt := none } }
  let b := (b.gapCarry 0 seq).takeService true 0
  match (b.ring 0).earliest .opened with
  | some (p, _) => b.tryA 0 p
  | none => b

/-- With no flagged basin to wait for, TAKEOVER ends with the restore. -/
def Block.takeoverEnd (b : Block) (n : Nat) : Block := if n = 0 then b.leaveTakeover else b

/-- The end of restore in a takeover, cold or from the image. -/
def Block.restoreCold (b : Block) (cold : Bool) : Block :=
  let b := (if cold then b.coldState else b).newGen
  let b := { b with red := { b.red with tkAt := none } }
  let n := if b.ringEnabled 0 then b.flagged 0 else 0
  let b := ((b.islRestart).ringResume 0 cold).ringResume 1 false
  let b := if cold then b else b.gapCarry 0 (b.ring 0).firstOfTwo
  (b.takeService false n).takeoverEnd n

/-- The end of restore. -/
def Block.restoreDone (b : Block) : Block :=
  if b.red.role ≠ 4 ∨ b.sys.mode ≠ .takeover ∨ b.red.tkAt = none then b
  else match b.red.handover, (b.ring 0).run with
    | some (_, seq), true => b.restoreWarm seq
    | _, _ => b.restoreCold (!b.red.image)

end Sys2Proof.Machine
end

