-- ==== Sys2Proof/Machine/RedOps.lean ====
section
/-! DEFINITION. Heartbeats received, paths, the lease, roles, checkpoints received, planned handover (R382 to R396). -/

namespace Sys2Proof.Machine

/-! ### Conditions of a planned handover (R395) -/

/-- The partner is STANDBY with IMAGE_VALID and HEALTHY, and both paths are up. -/
def Block.handoverOk (b : Block) : Bool :=
  b.red.role == 1 && b.red.pRole == 2 && b.red.pImage && b.red.pHealthy && b.redUp 0 && b.redUp 1 && b.red.handover.isNone &&
    (b.ring 0).run

/-- Whether the fail-back hold-down runs: the non-PREFERRED partner became active through a takeover, and the conditions hold. -/
def Block.failbackOk (b : Block) : Bool :=
  b.cb Reg.RED_CFG 0 29 && !b.redPreferred && b.red.byTakeover && b.handoverOk

/-- The hold-down starts with the conditions and ends with any break in them. -/
def Block.holdTrack (b : Block) : Block :=
  let s := if b.failbackOk then (match b.red.holdSince with | some t => some t | none => some b.t7) else none
  { b with red := { b.red with holdSince := s } }

/-- A planned handover starts: h is the first basin whose opening tick lies at least 2 ms ahead (R396). -/
def Block.handoverStart (b : Block) : Block :=
  let y := b.ring 0
  let h := slotAfter (b.ringRate 0) (b.now + 1999999) + 2
  let seq := (((y.nextSeq : Int) + h - y.nextSlot) % 4294967296).toNat
  ({ b with red := { b.red with handover := some (h, seq), holdSince := none } }).controlHandover h seq

/-- RED.CMD[HANDOVER]. -/
def Block.handoverCmd (b : Block) : Block := if b.handoverOk then b.handoverStart else b.count Reg.RED_HANDOVER_REFUSED

/-- The hold-down has elapsed. -/
def Block.failbackEnd (b : Block) : Block :=
  match b.red.holdSince with
  | some t => if b.failbackOk = true ∧ t + b.cf Reg.RED_CFG 0 11 0 * nsPerS ≤ b.t7 then b.handoverStart else b
  | none => b

/-! ### Becoming active or standby at start-up (R388, R389) -/

/-- SOLO entered (R384). -/
def Block.soloEnter (b : Block) : Block :=
  if b.red.solo then b
  else (({ b with red := { b.red with solo := true, leaseEnd := none } }).irq Blk.red 4).redEvent 0x1405

/-- A partner whose role resolves as active: epoch, rings, addresses, mode of service. -/
def Block.roleActive (b : Block) (solo : Bool) : Block :=
  if b.sys.mode ≠ .standby then b
  else
    let b := { b.epochUp with
      out := { b.out with halted := false }
      alm := { b.alm with silenced := false }
      red := { b.epochUp.red with byTakeover := false } }
    let b := ((b.setRole 1).vmac true).announceAddresses
    let b := (b.setMode b.serviceMode b.serviceCause).ringsStart
    (if solo then b.soloEnter else b).redYield

/-- Contact with a partner that is not active: the PREFERRED one becomes active, the other the standby. -/
def Block.roleResolve (b : Block) : Block := if b.redPreferred then b.roleActive false else b.setRole 2

/-- The listen of R389: role NONE for 1 s, a HELLO on both paths. -/
def Block.listenStart (b : Block) : Block :=
  let b := { b with red := { b.red.idle with listenEnd := some (b.t7 + nsPerS), heardRenew := false, heardOther := false } }
  (b.setRole 0).redSendBoth 6

/-- The listen ends. -/
def Block.listenOver (b : Block) : Block :=
  match b.red.listenEnd with
  | some t =>
    if b.red.role ≠ 0 ∨ b.sys.mode ≠ .standby ∨ b.t7 < t then b
    else
      let b := { b with red := { b.red with listenEnd := none } }
      if b.red.heardRenew then b.setRole 2
      else if b.red.heardOther then b.roleResolve
      else b.roleActive true
  | none => b

/-! ### Receiving (R382 to R388) -/

/-- What every message brings; false where it is discarded. -/
def Block.redHear (b : Block) (path : Nat) (x : RedMsg) (good : Bool) : Bool × Block :=
  if b.redOn = false ∨ b.redAble path = false then (false, b)
  else if good = false then (false, if path = 0 then b.count Reg.RED_AUTH_FAIL else b)
  else if later 32 b.red.epoch x.epoch then
    (false, (((b.count Reg.RED_STALE_EPOCH).redSend path 5 b.red.seq).irq Blk.red 0).eventRep 0 0x140A 0xFFFF b.red.epoch)
  else
    let b := if b.redActive then b else b.setRedEpoch x.epoch
    let b := b.setRedPath path { b.redPath path with heardAt := some b.t7 }
    (true, { b with red := { b.red with
      pEpoch := x.epoch
      pRole := x.role
      pImage := x.image
      pHealthy := x.healthy
      pPreferred := x.preferred
      pBasin := x.basin
      heardOther := b.red.heardOther || x.role == 2 || x.role == 3 } })

/-- A good exchange on a path: ten in a row bring it up. -/
def Block.goodExchange (b : Block) (path : Nat) (next : Bool) : Block :=
  let p := b.redPath path
  let n := if next then p.good + 1 else 1
  let b := b.setRedPath path { p with good := n, up := p.up || decide (10 ≤ n) }
  if p.up = false ∧ 10 ≤ n then (b.irq Blk.red 5).redEvent 0x1402 path else b

/-- An active that learns of a higher epoch fences and adopts it. -/
def Block.roleConflict (b : Block) (e : Nat) : Block :=
  ((b.fence.setRedEpoch e).irq Blk.red 7).redEvent 0x140C

def Block.renewRx (b : Block) (path : Nat) (x : RedMsg) (good : Bool) : Block :=
  let q := b.redHear path x good
  let b := q.2
  if q.1 = false then b
  else
    if b.redActive then
      if later 32 x.epoch b.red.epoch then b.roleConflict x.epoch
      else if b.redPreferred then b
      else b.fence
    else
      let p := b.redPath path
      let next := p.renewAt.isSome && x.seq == (p.renewSeq + 1) % 65536
      let b := (b.setRedPath path { p with renewAt := some b.t7, renewSeq := x.seq }).goodExchange path next
      let b := { b with red := { b.red with heardRenew := true } }
      if b.red.role = 0 then b
      else
        let b := if b.red.role = 3 then b.setRole 2 else b
        b.redSend path 2 x.seq

/-- An ACK of a RENEW sent at TB7 `at_`: the path's exchange, the lease extended, SOLO ended. -/
def Block.ackTaken (b : Block) (path seq at_ : Nat) : Block :=
  let p := b.redPath path
  let next := p.ack.any (fun a => seq == (a + 1) % 65536)
  let b := (b.setRedPath path { p with ack := some seq, rtt := (b.t7 - at_) / 1000 }).goodExchange path next
  let e := max (b.red.leaseEnd.getD 0) (at_ + 400000)
  (({ b with red := { b.red with leaseEnd := some e, solo := false } }).redYield).holdTrack

def Block.ackRx (b : Block) (path : Nat) (x : RedMsg) (good : Bool) : Block :=
  let q := b.redHear path x good
  let b := q.2
  if q.1 = false then b
  else
    match b.redActive, b.red.sends.find? (fun e => e.1 == x.seq) with
    | true, some (seq, at_) => if at_ + 300000 < b.t7 then (b.count Reg.RED_ACK_LATE).redYield.holdTrack else b.ackTaken path seq at_
    | _, _ => b

def Block.failRx (b : Block) (path : Nat) (x : RedMsg) (good : Bool) : Block :=
  let q := b.redHear path x good
  let b := q.2
  if q.1 = false then b
  else
    if b.redActive then (if x.role = 2 then b.soloEnter.holdTrack else b)
    else if (b.red.role = 2 ∨ b.red.role = 5) ∧ b.sys.mode = .standby ∧ x.role = 1 then b.takeover false
    else b

/-- RELEASE makes the standby active: after a WARM start as a planned handover with the publishers' stNum, else as under R393. -/
def Block.releaseRx (b : Block) (path : Nat) (x : RedMsg) (good : Bool) (stNums : List (Nat × Nat)) : Block :=
  let q := b.redHear path x good
  let b := q.2
  if q.1 = false then b
  else
    if b.sys.mode ≠ .standby ∨ x.role ≠ 1 then b
    else if b.red.role = 5 then
      let b := stNums.foldl (fun b e => b.setPub e.1 { b.pub e.1 with st := e.2, loaded := true }) b
      b.takeover true
    else if b.red.role = 2 then b.takeover false
    else b

def Block.helloRx (b : Block) (path : Nat) (x : RedMsg) (good : Bool) : Block :=
  let q := b.redHear path x good
  let b := q.2
  if q.1 = false then b
  else
    let b := { b with red := { b.red with heardOther := true } }
    if b.red.role = 3 then b.roleResolve else b

def Block.nakRx (b : Block) (path : Nat) (x : RedMsg) (good : Bool) : Block :=
  match b.redHear path x good with
  | (false, b) => b
  | (true, b) => if b.redActive = true ∧ later 32 x.epoch b.red.epoch = true then b.roleConflict x.epoch else b

/-! ### Sending, the lease and the paths (R383, R384) -/

/-- The RENEW period: a HEALTHY active renews; a partner that listens or is FENCED says HELLO. -/
def Block.renewSend (b : Block) : Block :=
  if b.redOn = false then b
  else if b.redActive = true ∧ b.redHealthy = true then
    let seq := (b.red.seq + 1) % 65536
    let b := { b with red := { b.red with seq := seq, sends := (seq, b.t7) :: b.red.sends.take 15 } }
    (b.redSendBoth 1).count Reg.RED_RENEWS
  else if b.sys.mode = .standby ∧ (b.red.role = 0 ∨ b.red.role = 3) then b.redSendBoth 6
  else b

/-- Whether both paths fell silent together: both up, their last ACKs at most one sequence apart. -/
def Block.silentTogether (b : Block) : Bool :=
  match (b.redPath 0).ack, (b.redPath 1).ack with
  | some a, some c => b.redUp 0 && b.redUp 1 && (a == c || a == (c + 1) % 65536 || c == (a + 1) % 65536)
  | _, _ => false

/-- The lease ends: SOLO or the fence. -/
def Block.leaseExpiry (b : Block) : Block :=
  match b.red.leaseEnd with
  | some t => if b.redActive = false ∨ b.t7 < t then b else if b.silentTogether then b.soloEnter.holdTrack else b.fence
  | none => b

/-- IMAGE_VALID clears (R392). -/
def Block.imageInvalid (b : Block) : Block :=
  let old := b.red.image
  let b := { b with red := { b.red with image := false, ckRun := 0 } }
  if old then (b.irq Blk.red 6).redEvent 0x1408 else b

/-- Whether a path counts as down (Table 15.3). -/
def Block.pathLost (b : Block) (path : Nat) : Bool :=
  let p := b.redPath path
  if b.redAble path = false then true
  else if b.redActive then
    let newer : List (Nat × Nat) := match p.ack with | some a => b.red.sends.takeWhile (fun (e : Nat × Nat) => e.1 != a) | none => b.red.sends
    decide (3 ≤ (newer.filter (fun e => decide (e.2 + 300000 ≤ b.t7))).length)
  else match p.renewAt with
    | some t => decide (t + 300000 ≤ b.t7)
    | none => true

/-- A path declared down. -/
def Block.pathDown (b : Block) (path : Nat) : Block :=
  let p := b.redPath path
  if p.up = false ∨ b.pathLost path = false then b
  else
    let b := b.setRedPath path { p with up := false, good := 0 }
    let b := b.count (if path = 0 then Reg.RED_PATH_DOWNS_A else Reg.RED_PATH_DOWNS_B)
    let b := (b.irq Blk.red 5).redEvent 0x1401 path
    (if path = 0 then b.imageInvalid else b).holdTrack

/-- The standby's timer: 450 µs since the last RENEW on either path (R385). -/
def Block.takeoverTimeout (b : Block) : Block :=
  let last := match (b.redPath 0).renewAt, (b.redPath 1).renewAt with
    | some a, some c => some (max a c)
    | some a, none => some a
    | none, c => c
  match last with
  | some t => if (b.red.role = 2 ∨ b.red.role = 5) ∧ b.sys.mode = .standby ∧ t + 450000 ≤ b.t7 then b.takeover false else b
  | none => b

/-! ### Checkpoints received (R391, R392) -/

/-- An item written to its home location. -/
def Block.ckptItem (b : Block) : CkptItem → Block
  | .ring r seq slot => b.setRing r { b.ring r with nextSeq := seq, nextSlot := slot }
  | .alnCtx c x => b.setAlnCtx c x
  | .replay c high seen => { b with str := { b.str with replay := Tbl.put b.str.replay c (high, seen) (0, 0) } }
  | .carry a d => (b.store a d).halfAt a
  | .islBus i x => { b with isl := { b.isl with buses := Tbl.put b.isl.buses i x Bus.reset } }
  | .islBranch i x => { b with isl := { b.isl with branches := Tbl.put b.isl.branches i x Branch.reset } }
  | .islSlot i x => { b with isl := { b.isl with islands := Tbl.put b.isl.islands i x Island.reset } }
  | .islIds m n => { b with isl := { b.isl with mainId := m, nextId := n } }
  | .detector k x => b.setDet k x
  | .pair k x => b.setPair k x
  | .definition d x => b.setDef d x
  | .pulse p left => { b with alm := { b.alm with pulses := Tbl.ins b.alm.pulses p (b.t7 + left) } }
  | .publisher p x => b.setPub p { x with on := false, loaded := true, nextAt := none }
  | .rpl x => { b with rpl := x }
  | .ident s v => { b with out := { b.out with ident := Tbl.put b.out.ident s v 0 } }
  | .spdu s v => { b with out := { b.out with spdu := Tbl.put b.out.spdu s v 0 } }
  | .udpOn l => { b with out := { b.out with udpOn := l } }
  | .cfgNotice s on => b.setVis Reg.OUT_STR_CFG s 0 (setFld (b.vis Reg.OUT_STR_CFG s) 18 18 (b2n on))
  | .node n x => b.setRadNode n x
  | .committed key w => b.setCom key w
  | .tuneCounter n => { b with sys := { b.sys with tuneCounter := n } }

/-- A missing or failed delta. -/
def Block.ckptGap (b : Block) (n : Nat) : Block := (b.count Reg.RED_CKPT_GAPS 0 0 n).imageInvalid

/-- A delta that a frame opens: the one before it must be whole, and none may be missing between. -/
def Block.ckptOpen (b : Block) (f : CkptFrame) : Block :=
  let b := match b.red.ckTag with
    | some t => if t = f.basin then b else b.ckptGap 1
    | none =>
      let lost := (f.basin + 4294967295 - b.red.ckLast) % 4294967296
      if b.red.ckRun = 0 ∨ lost = 0 then b else b.ckptGap lost
  if b.red.ckTag = some f.basin then b
  else { b with red := { b.red with ckTag := some f.basin, ckBytes := 0, ckWhole := true } }

/-- The last frame of a delta: sixteen whole deltas in a row are a full rotation. -/
def Block.ckptLast (b : Block) (f : CkptFrame) : Block :=
  if b.red.ckWhole = false then ({ b with red := { b.red with ckTag := none } }).ckptGap 1
  else
    let run := b.red.ckRun + 1
    let valid := !b.red.image && decide (16 ≤ run)
    let b := { b.count Reg.RED_CKPT_DELTAS with red := { b.red with ckTag := none, ckLast := f.basin, ckRun := run, image := b.red.image || valid } }
    if valid then (b.irq Blk.red 6).redEvent 0x1409 else b

/-- A CHECKPOINT frame on path A; one from a partner whose image has another PAIR_COMPAT is not accepted (R441). -/
def Block.checkpointRx (b : Block) (f : CkptFrame) : Block :=
  if b.redOn = false ∨ b.redAble 0 = false ∨ b.redActive = true then b
  else if f.good = false then (b.count Reg.RED_AUTH_FAIL).ckptGap 1
  else if f.compat ≠ b.sys.pairCompat then b
  else if later 32 b.red.epoch f.epoch then
    (((b.count Reg.RED_STALE_EPOCH).redSend 0 5 b.red.seq).irq Blk.red 0).eventRep 0 0x140A 0xFFFF b.red.epoch
  else
    let b := (b.setRedEpoch f.epoch).ckptOpen f
    let whole := b.red.ckWhole && f.offset == b.red.ckBytes
    let b := { b with red := { b.red with ckWhole := whole, ckBytes := f.offset + f.length } }
    let b := f.items.foldl Block.ckptItem b
    if f.last then b.ckptLast f else b

/-- CONTROL HANDOVER(h) received (R396). -/
def Block.controlRx (b : Block) (epoch slot seq : Nat) (good : Bool) : Block :=
  if b.redOn = false ∨ b.redAble 0 = false ∨ b.redActive = true then b
  else if good = false then b.count Reg.RED_AUTH_FAIL
  else if later 32 b.red.epoch epoch then
    (((b.count Reg.RED_STALE_EPOCH).redSend 0 5 b.red.seq).irq Blk.red 0).eventRep 0 0x140A 0xFFFF b.red.epoch
  else
    let b := b.setRedEpoch epoch
    if b.red.role = 2 ∧ b.sys.mode = .standby then { b with red := { b.red with handover := some (slot, seq) } } else b

/-! ### Registers -/

end Sys2Proof.Machine
end

