-- ==== Sys2Proof/Machine/ModeOps.lean ====
section
/-! DEFINITION. The changes of mode with what follows from them, SAVE and HALT, requests, resets, power and temperature (chapter
18, R454, R460 to R463). -/

namespace Sys2Proof.Machine

/-! ### TB0 and the mode (R14, R241, R254, R255) -/

/-- What a step of TB0 brings in ACQUIRE: the rings restart and the decimators are reset. -/
def Block.tb0Stepped (b : Block) : Block := (b.ringsRestart).sdmSync 2

/-- TB0 leaves virtual operation: the same value goes on in its counter. -/
def Block.tb0Leave (b : Block) : Block := b.setTb 0 { b.tb 0 with virtual := false }

/-- ACQUIRE ends: full service, or the listen of a paired module in STANDBY. -/
def Block.acquireEnd (b : Block) : Block :=
  let b := b.tb0Leave
  if b.redOn then ((b.setMode .standby 0).ringsStop).listenStart else b.setMode b.serviceMode b.serviceCause

/-- The mode follows TB0's state (Table 18.2). -/
def Block.modeFollow (b : Block) : Block :=
  let locked := (b.tb 0).st == .locked
  match b.sys.mode with
  | .acquire => if locked then b.acquireEnd else b
  | .active => if locked then b else b.setMode .holdover 0
  | .holdover => if locked then b.setMode .active 0 else b
  | _ => b

/-- The return to ACQUIRE by a measurement that is itself the step (R255). -/
def Block.reacquire (b : Block) (x : Int) : Block :=
  let was := b.sys.mode
  let b := (b.tb0Acquire.setMode .acquire 0).stepBy 0 x
  if was = .standby then ((b.newGen.ringsStart).sdmSync 2) else b.tb0Stepped

/-! ### DEGRADED (R430) -/

/-- A cause of Table 18.3 arises. -/
def Block.degrade (b : Block) (f : Sys → Sys) : Block :=
  let b := { b with sys := f b.sys }
  match b.sys.mode with
  | .active | .holdover => if b.degradeCause = 0 then b else (b.setMode .degraded b.degradeBit).redYield
  | _ => b

/-- A cause clears. -/
def Block.undegrade (b : Block) (f : Sys → Sys) : Block :=
  let b := { b with sys := f b.sys }
  if b.sys.mode = .degraded ∧ b.degradeCause = 0 then b.setMode b.serviceMode 0 else b

/-! ### SAVE and HALT (R442, R443, Tables 18.4 and 18.11) -/

/-- Step 1 of Table 18.11, with the final save; a second cause during SAVE changes nothing. -/
def Block.enterSave (b : Block) (cause : Nat) : Block :=
  match b.sys.mode with
  | .save | .halt => b
  | old =>
    let b := b.freezeEnds
    let b := { b with sys := { b.sys with saveCause := cause } }
    let b := b.setMode .save cause
    let b := if (old = .load ∨ old = .selftest) ∧ b.sys.imageApplied = false then b else b.nrgFreeze
    { b with out := { b.out with halted := true } }

/-- The rings in HALT: nothing opens or closes any more. -/
def Block.ringsHalt (b : Block) : Block :=
  let b := b.setRing 0 { b.ring 0 with run := false }
  b.setRing 1 { b.ring 1 with run := false }

/-- HALT with its cause: every link is held down (R475). -/
def Block.enterHalt (b : Block) (cause : Nat) : Block :=
  if b.sys.mode = .halt then b
  else
    let b := ((b.setMode .halt cause).ringsHalt).linksDown
    { b with sys := { b.sys with haltCause := cause, haltAt := b.t7 }, pwr := { b.pwr with modSupply := false } }

/-- Every buffered entry written to MRAM. -/
def Block.drainEvents (b : Block) : Block := (List.range (b.evr.buf.length + b.evr.held.length)).foldl (fun b _ => b.entryWrite) b

/-- The end of SAVE: event SAVE_DONE, HALT, the recorder's buffer in MRAM, the DRAM's power gone. -/
def Block.saveComplete (b : Block) : Block :=
  if b.sys.mode ≠ .save then b
  else (((b.event 0x1802).enterHalt b.sys.saveCause).drainEvents).zeroRange 0x1000000000 0x800000000

/-! ### Resets (R450, R454) -/

/-- The copies of the host cores' banked registers at their reset values. -/
def Regs.hostReset (r : Regs) : Regs :=
  { r with vis := r.vis.filter (fun e =>
      match Reg.find (keyBlk e.1) (keySpace e.1) (keyOff e.1) with
      | some (d, _) => !(d.banked && decide (keyInst e.1 < 4))
      | none => true) }

/-- The block with the registers so. -/
def Block.hostRegs (b : Block) : Block := { b with regs := b.regs.hostReset }

/-- The host cluster's reset: the four host cores released, their reads ended, FAIL sent (R386). -/
def Block.hostReset (b : Block) : Block :=
  let b := b.redFail.hostRegs
  let b := { b with
    resp := b.resp.filter (fun e => decide (4 ≤ e.1) || e.2.stallSince.isNone)
    acc := { b.acc with frozen := b.acc.frozen.filter (fun m => decide (4 ≤ m)) }
    que := b.que.map (fun (e : Nat × Queue) => (e.1, { e.2 with stalled := e.2.stalled.filter (fun m => decide (4 ≤ m)) }))
    sys := { b.sys with wdogAt := some b.t7 } }
  let b := (b.count Reg.SYS_HOST_RESETS).setBit Reg.SYS_STATUS 0 0 27
  b.event 0x010B

/-- The secret slots and the epoch secret overwritten; every slot changes and so does its generation. -/
def Key.wiped (k : Key) : Key :=
  let next (i : Nat) : Nat × KeySlot := (i, { KeySlot.empty with gen := ((Tbl.get k.slots i KeySlot.empty).gen + 1) % 65536 })
  { k with
    slots := ((List.range 64).map next).filter (fun e => e.2 != KeySlot.empty)
    epoch := none
    zeroisedWaiting := k.waiting.isSome }

/-- What a reset of the die leaves: MRAM and flash, the battery-backed domain, OTP, and what the outside of the die shows;
everything else as after power-on, TB7 from zero. The debug test root ends with a zeroisation (R411). -/
def Block.dieState (b : Block) : Block :=
  let keep := b.key.testRoot == false
  { Block.reset with
    free := b.free
    mem := { b.mem with cells := b.mem.cells.filter (fun c => decide (0x40000000 ≤ c.1) && decide (c.1 < 0x40800000)), poison := [], raw := [] }
    key := { Key.reset with
      slots := if keep then b.key.slots else b.key.wiped.slots
      epoch := if keep then b.key.epoch else none
      pk := b.key.pk.filter (fun e => e.1 == 1)
      counter := b.key.counter }
    tam := { Tam.reset with cfg := b.tam.cfg, log := b.tam.log, overflow := b.tam.overflow }
    prt := b.prt.filterMap (fun (e : Nat × PrtPort) =>
      if e.2.modPresent then some (e.1, { PrtPort.reset with modPresent := true, los := e.2.los, txFault := e.2.txFault }) else none)
    pwr := { b.pwr with testRun := none, holdupUs := 0, lastTest := none, holdupLow := false, thermWarn := false, tempMax := none, modSupply := false }
    sys := { Sys.reset with
      zeroised := b.sys.zeroised || !keep
      lastHaltCause := b.sys.lastHaltCause
      restartWaits := b.sys.restartWaits
      tuneCounter := b.sys.tuneCounter
      straps := b.sys.straps
      variantW := b.sys.variantW } }

/-- A die reset: the recorder's buffered events reach MRAM first. -/
def Block.dieReset (b : Block) : Block := b.drainEvents.dieState

/-- SYS.RESET_REQ[HOST] (R454). -/
def Block.hostResetReq (b : Block) (m : Nat) : Block := if m = 0 then b.hostReset else b.count Reg.SYS_MODE_REQ_REFUSED

/-- SYS.RESET_REQ[DIE] (R454). -/
def Block.dieResetReq (b : Block) (m : Nat) : Block :=
  if m = 0 ∧ b.sys.mode.diagnostic = true then b.redFail.dieReset else b.count Reg.SYS_MODE_REQ_REFUSED

/-- Whether a HALT's restart condition holds (Table 18.4). -/
def Block.haltOver (b : Block) : Bool :=
  match b.sys.haltCause with
  | 1 | 2 => decide (b.sys.haltAt + 60 * nsPerS ≤ b.t7)
  | 4 => b.pwr.supplyGood && (match b.pwr.supplyGoodSince with
      | some t => decide (max t b.sys.haltAt + 2 * nsPerS ≤ b.t7)
      | none => decide (b.sys.haltAt + 2 * nsPerS ≤ b.t7))
  | 5 => b.cb Reg.PWR_CFG 0 31 && (match b.pwr.coolSince with | some t => decide (t + 60 * nsPerS ≤ b.t7) | none => false)
  | _ => false

/-- The die resets into LOAD after a HALT; event RESTART waits for that LOAD. -/
def Block.haltRestart (b : Block) : Block :=
  if b.sys.mode ≠ .halt ∨ b.haltOver = false then b
  else
    let c := b.sys.haltCause
    ({ b with sys := { b.sys with restartWaits := some c, lastHaltCause := c } }).dieReset

/-! ### Requests (R427 to R429) -/

/-- A request refused. -/
def Block.modeRefused (b : Block) (m code : Nat) : Block := (b.count Reg.SYS_MODE_REQ_REFUSED).event 0x0109 m code

/-- MAINTENANCE asked for: at once, after a planned handover, or by force with RELEASE. -/
def Block.reqMaintenance (b : Block) (m : Nat) (force : Bool) : Block :=
  match m, b.sys.mode with
  | 0, .standby => b.setMode .maintenance 0
  | 0, .active | 0, .holdover | 0, .degraded =>
    if b.redActive = true ∧ b.redPresent = true then
      if b.handoverOk then { b with sys := { b.sys with maintWaits := true } }.handoverStart
      else if force then (((b.redSendBoth 4).serveStop.ringsStop).toStandby 2).setMode .maintenance 0
      else b.modeRefused m 8
    else b.setMode .maintenance 0
  | _, _ => b.modeRefused m 8

/-- MODE = 0x3: out of MAINTENANCE to the mode that the state calls for. -/
def Block.reqActive (b : Block) (m : Nat) : Block :=
  match m, b.sys.mode with
  | 0, .maintenance =>
    if b.redOn = true ∧ b.redActive = false then b.setMode .standby 0 else (b.setMode b.serviceMode 0).redYield
  | _, _ => b.modeRefused m 3

/-- MODE = 0x9: from MAINTENANCE while the debug port is open. -/
def Block.reqDebug (b : Block) (m : Nat) : Block :=
  match m, b.sys.mode with
  | 0, .maintenance => if b.key.debugOpen then b.setMode .debug 0 else b.modeRefused m 9
  | _, _ => b.modeRefused m 9

/-- MODE = 0xB: from MAINTENANCE to HALT cause 6. -/
def Block.reqHalt (b : Block) (m : Nat) : Block :=
  match m, b.sys.mode with
  | 0, .maintenance => b.enterHalt 6
  | _, _ => b.modeRefused m 11

/-- A write of SYS.MODE_REQ. -/
def Block.modeReq (b : Block) (m code : Nat) (force : Bool) : Block :=
  match code with
  | 3 => b.reqActive m
  | 8 => b.reqMaintenance m force
  | 9 => b.reqDebug m
  | 11 => b.reqHalt m
  | _ => b.modeRefused m code

/-! ### Power (R442, R444 to R446, R460 to R463) -/

/-- A hold-up estimate in µs (R446). -/
def Block.holdupEstimate (b : Block) (us : Nat) : Block :=
  let b := { b with pwr := { b.pwr with holdupUs := min 65535 us, lastTest := some b.t7 } }
  if us < 25000 ∧ b.pwr.holdupLow = false then
    let b := ({ b with pwr := { b.pwr with holdupLow := true } }.irq Blk.pwr 4).event 0x1806 0xFFFF (min 65535 us)
    b.degrade (fun s => { s with degHoldup := true })
  else if 27000 ≤ us ∧ b.pwr.holdupLow = true then
    let b := ({ b with pwr := { b.pwr with holdupLow := false } }.irq Blk.pwr 5).event 0x1807 0xFFFF (min 65535 us)
    b.undegrade (fun s => { s with degHoldup := false })
  else b

/-- t_hold in µs from the load in 0.1 W and the bus voltages in 0.1 V, with C = 2 × P × 0.002 s ÷ (V₀² − V₁²) and the factor
(320² − 200²) ÷ (2 × 112 W); the spec states none for a bus that does not fall. -/
def holdupOf (p v0 v1 : Nat) : Option Nat :=
  if v0 * v0 ≤ v1 * v1 then none else some (p * 2496000000 / (224 * (v0 * v0 - v1 * v1)))

/-- The result of a test: none is kept where the bus fell below 380 V. -/
def Block.holdupResult (b : Block) (p v0 v1 : Nat) : Block :=
  let b := { b with pwr := { b.pwr with vin := v1 } }
  if v1 < 3800 then b
  else match holdupOf p v0 v1 with
    | some us => b.holdupEstimate us
    | none => let q := b.draw; q.2.holdupEstimate (q.1 % 65536)

/-- A test starts: the period of PWR.CFG[HOLDUP_H] has passed since the last one. -/
def Block.holdupTest (b : Block) : Block :=
  let due := match b.pwr.lastTest with
    | some t => decide (t + b.cf Reg.PWR_CFG 0 7 0 * 3600 * nsPerS ≤ b.t7)
    | none => true
  if due = false ∨ b.pwr.testRun.isSome = true ∨ b.pwr.pfWarn = true ∨ b.sys.mode = .load ∨ b.sys.mode = .save ∨ b.sys.mode = .halt then b
  else { b.count Reg.PWR_HOLDUP_TESTS with pwr := { b.pwr with testRun := some b.t7, lastTest := some b.t7 } }

/-- A test ends 2 ms after its start, or at once where the bus falls below 380 V (R463). -/
def Block.holdupTestDone (b : Block) (p v0 v1 : Nat) : Block :=
  match b.pwr.testRun with
  | none => b
  | some t =>
    if b.t7 < t + 2000000 ∧ 3800 ≤ v1 then b
    else ({ b with pwr := { b.pwr with testRun := none } }).holdupResult p v0 v1

/-- Whether SAVE or HALT is under way: a further SAVE cause is counted and ignored (R442). -/
def Mode.saved : Mode → Bool
  | .save | .halt => true
  | _ => false

/-- The power-fail warning: SAVE, unless SAVE or HALT is under way; a test in progress ends, and so does a freeze (R421). -/
def Block.powerFail (b : Block) : Block :=
  let b := { b with pwr := { b.pwr with pfWarn := true, testRun := none } }
  let b := b.count Reg.PWR_PF_WARNINGS
  if b.sys.mode.saved then b else ((b.freezeEnds.irq Blk.pwr 0).event 0x1801).enterSave 4

/-- The sample of the die temperature in 0.25 °C. -/
def Block.tempSample (b : Block) (temp : Int) : Block :=
  let old := b.pwr.temp
  let arg := (BitVec.ofInt 16 temp).toNat
  let b := if 632 ≤ temp ∧ old < 632 ∧ b.sys.mode.saved = false then b.freezeEnds else b
  let warn := b.pwr.thermWarn
  let cool := if temp < 500 then (match b.pwr.coolSince with | some t => some t | none => some b.t7) else none
  let b := { b with pwr := { b.pwr with temp := temp, tempMax := some (max (b.pwr.tempMax.getD temp) temp), coolSince := cool } }
  let b :=
    if 580 ≤ temp ∧ warn = false then
      ((({ b with pwr := { b.pwr with thermWarn := true } }).count Reg.PWR_THERM_WARNINGS).irq Blk.pwr 1).event 0x1803 0xFFFF arg
    else if temp < 560 ∧ warn = true then
      (({ b with pwr := { b.pwr with thermWarn := false } }).irq Blk.pwr 2).event 0x1805 0xFFFF arg
    else b
  if 632 ≤ temp ∧ old < 632 then
    let b := b.count Reg.PWR_THERM_TRIPS
    if b.sys.mode.saved then b else ((b.irq Blk.pwr 3).event 0x1804 0xFFFF arg).enterSave 5
  else b

/-- The input leaves its range or returns to it (R460). -/
def Block.supplyGood (b : Block) (good : Bool) : Block :=
  { b with pwr := { b.pwr with
      supplyGood := good
      pfWarn := b.pwr.pfWarn && !good
      supplyGoodSince := if good then (if b.pwr.supplyGood then b.pwr.supplyGoodSince else some b.t7) else none } }

/-! ### LOAD's end and SELFTEST (R432, R433) -/

/-- The image is applied: SELFTEST; the host watchdog runs from here (R454). -/
def Block.loadComplete (b : Block) : Block :=
  if b.sys.mode = .load ∧ b.sys.imageApplied = true then
    ({ b with sys := { b.sys with wdogAt := some b.t7 } }).setMode .selftest 0
  else b

/-- The failing words of the March test moved to spares; true where an array has more of them than spares. -/
def Block.march (b : Block) (bad : List (Nat × Nat)) : Bool × Block :=
  bad.foldl (fun (a : Bool × Block) e =>
    match a.2.freeSpare e.1 (Mem.array e.1 e.2) with
    | some _ => (a.1, a.2.remap e.1 e.2)
    | none => (true, a.2)) (false, b)

/-- The units that SELFTEST found to fail, each as the bit of SYS.SELFTEST_RESULT and its number. -/
def SelftestResult.failures (r : SelftestResult) (sram : Bool) : List (Nat × Nat) :=
  (if r.crypto then [(30, 0xFFFF)] else []) ++ (if sram then [(29, 0xFFFF)] else []) ++ (if r.dram then [(28, 0xFFFF)] else []) ++
    (if r.host then [(27, 0xFFFF)] else []) ++ (if r.accel then [(26, 0xFFFF)] else []) ++ r.channels.map (fun c => (25, c)) ++
    r.cores.map (fun c => (24, c))

/-- The units left out until the next LOAD. -/
def Block.exclude (b : Block) (r : SelftestResult) : Block :=
  let b := r.cores.foldl (fun b c => b.leavePool c .idle) b
  let b := { b with dma := { b.dma with excluded := r.channels } }
  b.degrade (fun s => { s with degSelftest := !r.cores.isEmpty || !r.channels.isEmpty || r.accel })

/-- SELFTEST ends: HALT on a fatal failure, else ACQUIRE with its rings. -/
def Block.selftestDone (b : Block) (r : SelftestResult) : Block :=
  if b.sys.mode ≠ .selftest then b
  else
    let q := b.march r.sram
    let sram := q.1
    let b := q.2
    let fs := r.failures sram
    let fatal := r.crypto || r.host || r.dram || sram
    let word := (fs.foldl (fun a e => setIns a e.1) []).foldl (fun a i => a + 2 ^ i) 0 + b2n fatal * 2 ^ 31
    let b := fs.foldl (fun b e => b.event 0x0106 e.2 e.1) ({ b with sys := { b.sys with selftestResult := word } })
    let b := (b.count Reg.PWR_HOLDUP_TESTS).holdupResult r.holdP r.holdV0 r.holdV1
    if fatal then b.enterHalt 2 else ((b.exclude r).setMode .acquire 0).ringsStart

end Sys2Proof.Machine
end

