-- ==== Sys2Proof/Machine/DmaOps.lean ====
section
/-! DEFINITION. The memory movers' channels: commands, starts, descriptors, freezes (R336, R337, R339 to R343). The moving of the
bytes stands with the bus. -/

namespace Sys2Proof.Machine

def Block.setDmaCh (b : Block) (c : Nat) (x : DmaCh) : Block := { b with dma := { b.dma with ch := Tbl.put b.dma.ch c x DmaCh.reset } }

/-- The channel that an engine runs, as its number among all 32. -/
def Block.dmaRunning (b : Block) (e : Nat) : Option Nat := (Tbl.get b.dma.running e none).map (fun c => 16 * e + c)

def Block.setRunning (b : Block) (e : Nat) (c : Option Nat) : Block := { b with dma := { b.dma with running := Tbl.put b.dma.running e c none } }

/-- An event of a channel: SOURCE its number, the engine and the channel as arguments. -/
def Block.dmaEvent (b : Block) (code c : Nat) : Block := b.event code c (c / 16) (c % 16)

/-! ### Descriptors (R337 to R339) -/

/-- One side of a descriptor as the engine took it at the start. -/
structure DmaSide where
  base : Nat
  len : Nat
  stride : Nat
  count : Nat
  width : Nat
  deriving DecidableEq, Repr

def Block.dmaSrc (b : Block) (c : Nat) : DmaSide where
  base := b.cn Reg.DMA_SRC_BASE_LO c + b.cn Reg.DMA_SRC_BASE_HI c % 256 * 2 ^ 32
  len := b.cn Reg.DMA_SRC_LEN c
  stride := b.cn Reg.DMA_SRC_STRIDE c
  count := b.cn Reg.DMA_SRC_COUNT c
  width := 2 ^ b.cf Reg.DMA_CH_CFG c 29 28

def Block.dmaDst (b : Block) (c : Nat) : DmaSide where
  base := b.cn Reg.DMA_DST_BASE_LO c + b.cn Reg.DMA_DST_BASE_HI c % 256 * 2 ^ 32
  len := b.cn Reg.DMA_DST_LEN c
  stride := b.cn Reg.DMA_DST_STRIDE c
  count := b.cn Reg.DMA_DST_COUNT c
  width := 2 ^ b.cf Reg.DMA_CH_CFG c 27 26

def DmaSide.total (s : DmaSide) : Nat := s.len * s.count

/-- The address of a byte of the side's sequence. -/
def DmaSide.addr (s : DmaSide) (j : Nat) : Nat := s.base + j / s.len * s.stride + j % s.len

def DmaSide.ok (s : DmaSide) : Bool := s.len != 0 && s.count != 0 && s.len % s.width == 0

/-- Whether base, stride and line length keep the side's width (STRICT). -/
def DmaSide.aligned (s : DmaSide) : Bool := s.base % s.width == 0 && s.stride % s.width == 0 && s.len % s.width == 0

/-- The largest total of a channel. -/
def Dma.limit (c : Nat) : Nat := if 16 ≤ c then 16777216 else if Dma.owned c then 4194304 else 65536

/-- The SIZE check. -/
def Block.dmaSizeOk (b : Block) (c : Nat) : Bool :=
  let s := b.dmaSrc c
  let d := b.dmaDst c
  s.ok && d.ok && s.total == d.total && decide (s.total ≤ Dma.limit c)

/-! ### Commands (R336, R340, R341) -/

/-- The channel that a master's DMA.SEL names. -/
def Block.dmaSel (b : Block) (m : Nat) : Nat := fld (b.vis Reg.DMA_SEL m) 4 0

/-- DMA.CH_CMD[START]. -/
def Block.dmaStart (b : Block) (c : Nat) : Block :=
  let x := b.dmaCh c
  match x.st with
  | .idle => b.setDmaCh c { x with st := .pending }
  | .pending => b
  | .running => b.setDmaCh c { x with again := true }
  | .halted | .frozen => b.count Reg.DMA_CH_REFUSED

/-- DMA.CH_CMD[COMMIT]: the channel's shadow becomes the set of its next start. -/
def Block.dmaCommit (b : Block) (c : Nat) : Block :=
  let mine (k : Nat) : Bool := keyBlk k == Blk.dma && keySpace k == 0 && keyInst k == c
  { b with regs := { b.regs with
      com := (b.regs.dirty.filter mine).foldl (fun t k => Tbl.ins t k (b.visAt k)) b.regs.com
      late := b.regs.committed b.t7 (b.regs.dirty.filter mine)
      dirty := b.regs.dirty.filter (fun k => !mine k) } }

/-- DMA.CH_CMD[CLEAR_HALT]. -/
def Block.dmaClearHalt (b : Block) (c : Nat) : Block :=
  let x := b.dmaCh c
  if x.st = .halted then b.setDmaCh c { x with st := .idle, err := 0 } else b

/-- A write of firmware to a channel that a block owns (R336). -/
def Block.dmaGuard (b : Block) (c : Nat) (f : Block → Block) : Block := if Dma.owned c then b.count Reg.DMA_CH_REFUSED else f b

/-- A write of DMA.CH_CMD: COMMIT before START, so that the set it commits is the one that a start takes. -/
def Block.dmaCmd (b : Block) (m : Nat) (w : Word) : Block :=
  let c := b.dmaSel m
  b.dmaGuard c (fun b =>
    let b := if bit w.toNat 2 then b.dmaClearHalt c else b
    let b := if bit w.toNat 1 then b.dmaCommit c else b
    if bit w.toNat 0 then b.dmaStart c else b)

/-! ### Starts (R339 to R341) -/

/-- A channel ends a run without moving a byte. -/
def Block.dmaFail (b : Block) (c : Nat) (st : DmaState) (err : Nat) : Block :=
  let x := b.dmaCh c
  (b.setDmaCh c { x with st := if x.again = true ∧ st = DmaState.idle then DmaState.pending else st, again := false, err := err, poison := false, done := 0 }).count
    Reg.DMA_CH_ERRORS c

/-- The committed set of a channel handed over. -/
def Block.dmaTake (b : Block) (c : Nat) : Block :=
  let mine (k : Nat) : Bool := keyBlk k == Blk.dma && keySpace k == 0 && keyInst k == c
  ((b.dropCom mine).adopt (b.comSets mine)).handedOver (b.comSets mine)

/-- No read of a master waits in a queue any more. -/
def Block.unstall (b : Block) (m : Nat) : Block :=
  { b with que := b.que.map (fun (e : Nat × Queue) => (e.1, { e.2 with stalled := e.2.stalled.filter (fun j => j != m) })) }

/-- The lowest PENDING channel of an engine. -/
def Block.dmaNext (b : Block) (e : Nat) : Option Nat :=
  ((List.range 16).map (16 * e + ·)).find? (fun c => (b.dmaCh c).st == .pending && !b.dma.excluded.contains c)

/-- A free engine starts its lowest PENDING channel: hand-over, the SIZE check, the STRICT check. -/
def Block.dmaRun (b : Block) (e : Nat) : Block :=
  if b.dma.frozen.contains e = true ∨ (b.dmaRunning e).isSome = true then b
  else match b.dmaNext e with
    | none => b
    | some c =>
      let b := b.dmaTake c
      if b.dmaSizeOk c = false then b.dmaFail c .idle 2
      else if b.cb Reg.DMA_CH_CFG c 30 = true ∧ ((b.dmaSrc c).aligned && (b.dmaDst c).aligned) = false then
        ((b.dmaFail c .halted 1).irq Blk.dma c).dmaEvent 0x1001 c
      else
        let x := b.dmaCh c
        (b.setDmaCh c { x with st := .running, err := 0, poison := false, done := 0, since := b.t7, prog := DmaProg.reset }).setRunning e (some (c % 16))

/-! ### Freezes (R343) -/

/-- The channel that runs in a frozen engine becomes FROZEN. -/
def Block.dmaFreezeCh (b : Block) (c : Nat) : Block :=
  let x := b.dmaCh c
  (((b.setDmaCh c { x with st := .frozen, again := false, err := 3 }).setRunning (c / 16) none).unstall (52 + c / 16)).count Reg.DMA_CH_ERRORS c

/-- ACC's freeze of an engine: its running channel becomes FROZEN; DEGRADED cause 0. -/
def Block.dmaFreeze (b : Block) (e : Nat) : Block :=
  let b : Block := { b with dma := { b.dma with frozen := setIns b.dma.frozen e } }
  let b : Block := match b.dmaRunning e with
    | some c => (b.dmaFreezeCh c).dmaEvent 0x1004 c
    | none => b.dmaEvent 0x1004 (16 * e)
  b.degrade (fun s => { s with degDma := true })

/-- A FROZEN channel is IDLE again. -/
def Block.dmaIdle (b : Block) (c : Nat) : Block :=
  let x := b.dmaCh c
  if x.st = .frozen then b.setDmaCh c { x with st := .idle } else b

/-- DEGRADED cause 0 clears with the last frozen engine. -/
def Block.dmaClearCause (b : Block) : Block :=
  if b.dma.frozen.isEmpty then b.undegrade (fun s => { s with degDma := false }) else b

/-- The freeze lifted: the frozen channel is IDLE again. -/
def Block.dmaThaw (b : Block) (e : Nat) : Block :=
  let b : Block := { b with dma := { b.dma with frozen := setDel b.dma.frozen e } }
  (((List.range 16).map (16 * e + ·)).foldl Block.dmaIdle b).dmaClearCause

/-- A channel whose access took a bus error (R343). -/
def Block.dmaBusError (b : Block) (c done : Nat) : Block :=
  let x := b.dmaCh c
  (((b.setDmaCh c { x with st := .halted, again := false, err := 4, done := done % 33554432 }).setRunning (c / 16) none).count Reg.DMA_CH_ERRORS c).dmaEvent 0x1002 c

/-- A channel completes (R342). -/
def Block.dmaDone (b : Block) (c total : Nat) (poison : Bool) : Block :=
  let x := b.dmaCh c
  let e := c / 16
  let b := (b.setDmaCh c { x with st := if x.again then .pending else .idle, again := false, err := 0, poison := poison, done := total }).setRunning e none
  let b := b.count Reg.DMA_CH_RUNS c
  let b := if poison then b.dmaEvent 0x1003 c else b
  let w := (b.cfg Reg.DMA_CH_CFG c).toNat
  let b := if bit w 15 then b.push (bits w 21 16) (3 * 2 ^ 56 + e * 2 ^ 52 + c % 16 * 2 ^ 48 + b2n poison * 2 ^ 39 + ns32 b.now) true else b
  if bit w 31 then b.irq Blk.dma c else b

end Sys2Proof.Machine
end

