-- ==== Sys2Proof/Machine/GuardOps.lean ====
section
/-! DEFINITION. Keys, tamper and access control (chapter 16). -/

namespace Sys2Proof.Machine

/-! ### ACC (R412 to R416) -/

/-- The bit of a master's group in a region's masks. -/
def Acc.group (m : Nat) : Nat :=
  if m = 0 then 0 else if m < 4 then 1 else if m < 52 then 2 else if m = 52 then 3 else if m = 53 then 4 else 5

/-- Whether a region contains every byte of an access and grants its direction; a limit names its last page. -/
def Block.regionGrants (b : Block) (m addr size : Nat) (write : Bool) (r : Nat) : Bool :=
  let p := (b.vis Reg.ACC_RGN_PERM r).toNat
  bit p 31 && bit p (Acc.group m + (if write then 8 else 0)) &&
    decide ((b.vis Reg.ACC_RGN_BASE r).toNat * 4096 ≤ addr) && decide (addr + size ≤ ((b.vis Reg.ACC_RGN_LIMIT r).toNat + 1) * 4096)

/-- Whether an access touches a byte from `lo` up to `hi`. -/
def touchesBytes (addr size lo hi : Nat) : Bool := decide (addr < hi) && decide (lo < addr + size)

/-- Whether an access touches what a block keeps to itself: a write of the MRAM that only NRG, CMP, RED, SYS and MEM write (R291, R331, R361, R388, R413, R435),
any access to the recorder's areas but a host's read (R417), and any access to the spare DRAM lines (R330). -/
def keptByBlock (m addr size : Nat) (write : Bool) : Bool :=
  (write && (touchesBytes addr size 0x407F0000 0x407F1000 || touchesBytes addr size 0x407F2000 0x407F2060 || touchesBytes addr size 0x407F4000 0x407F8000)) ||
    ((write || decide (4 ≤ m)) && touchesBytes addr size 0x40700000 0x40744000) || touchesBytes addr size 0x17FFFFF000 0x1800000000

/-- Whether the region table permits an access (R413); none lets a master at what a block keeps to itself. -/
def Block.permits (b : Block) (m addr size : Nat) (write : Bool) : Bool :=
  !keptByBlock m addr size write && (List.range 64).any (b.regionGrants m addr size write)

/-- Whether a master may push to or pop from a queue (R414). -/
def Block.queueRight (b : Block) (m q : Nat) : Bool := decide (8 ≤ q) || bit (b.vis Reg.ACC_MST_CFG m).toNat 0

def Block.isFrozen (b : Block) (m : Nat) : Bool := b.acc.frozen.contains m

/-- A violation (R415): the access is blocked, the master frozen and its consequences taken. -/
def Block.violate (b : Block) (m addr size : Nat) (write : Bool) : Block :=
  let b : Block := { b with acc := {
    frozen := setIns b.acc.frozen m
    lastViol := (m + 256 * b2n write + 512 * Nat.log2 size, addr % 2 ^ 32, addr / 2 ^ 32 % 256, ns32 b.now) } }
  let b := (((b.count Reg.ACC_VIOLATIONS).irq Blk.acc 0).event 0x1601 m addr (addr / 2 ^ 32)).answer m .violation
  if 4 ≤ m ∧ m < 52 then b.coreFrozen (m - 4) else if m = 52 ∨ m = 53 then b.dmaFreeze (m - 52) else b

/-- A release by a master of the one that its ACC.SEL names (R416). -/
def Block.accRelease (b : Block) (m : Nat) : Block :=
  match b.selInst Blk.acc m 1 with
  | none => b
  | some x =>
    if m ≠ 0 ∨ x = 0 ∨ b.isFrozen x = false then (b.count Reg.ACC_REL_REFUSED).event 0x1603 x
    else
      let b := ({ b with acc := { b.acc with frozen := setDel b.acc.frozen x } }).event 0x1602 x
      if x = 52 ∨ x = 53 then b.dmaThaw (x - 52) else b

/-! ### Zeroisation (R400, R406) -/

/-- What zeroisation does to the messages that are being signed: each is discarded, and its publisher says so (R135, R200). -/
def Block.signAbort (b : Block) : Block :=
  (b.signedPubs.foldl (fun b p => (b.count Reg.ALM_PUB_KEY_ABORT).event 0x0907 p) b).unsign

/-- Zeroisation with its cause: a source of Table 16.5, or 255 for DEBUG. Segments in encryption are aborted (R362). -/
def Block.zeroise (b : Block) (cause : Nat) : Block :=
  let b := b.signAbort.radAbort
  let b : Block := { b with key := b.key.wiped, sys := { b.sys with zeroised := true } }
  (b.cmpTamper.event 0x1504 0xFFFF cause).casKeyCheck

/-! ### Key update messages (R399 to R404, R410) -/

/-- A key update message by its bytes (Table 16.2). -/
structure KeyMsg where
  bytes : List Byte
  deriving DecidableEq, Repr

def KeyMsg.op (x : KeyMsg) : Nat := leAt x.bytes 2 1
def KeyMsg.slot (x : KeyMsg) : Nat := leAt x.bytes 3 1
def KeyMsg.counter (x : KeyMsg) : Nat := leAt x.bytes 20 8
def KeyMsg.attr (x : KeyMsg) : Nat := leAt x.bytes 28 2
def KeyMsg.len (x : KeyMsg) : Nat := leAt x.bytes 30 1
def KeyMsg.signer (x : KeyMsg) : Nat := leAt x.bytes 31 1
def KeyMsg.id (x : KeyMsg) : Nat := leAt x.bytes 32 4

/-- Whether n bytes from i are zero. -/
def KeyMsg.zero (x : KeyMsg) (i n : Nat) : Bool := (slice x.bytes i n).all (· == 0)

/-- Check 1: the format, the op, the slot range, the reserved bytes, the key length. -/
def KeyMsg.formatOk (x : KeyMsg) : Bool :=
  leAt x.bytes 0 2 == 1 && decide (1 ≤ x.op) && decide (x.op ≤ 5) &&
  (if x.op ≤ 2 then decide (x.slot < 64) else x.slot == 0) &&
  (if x.op = 1 then decide (x.len ≤ 1) else x.attr == 0 && x.len == 0 && x.id == 0) &&
  (match x.op with
    | 1 | 3 => x.zero 76 24
    | 2 | 5 => x.zero 36 64
    | _ => true)

/-- Check 4: Table 16.3. -/
def KeyMsg.signerOk (x : KeyMsg) : Bool :=
  match x.op with
  | 4 => x.signer == 0
  | 5 => decide (x.signer ≤ 1)
  | _ => x.signer == 1

/-- The root of every derivation: the OTP root, or the test root while TEST_ROOT is set (R399, R410). -/
def Block.root (b : Block) : Nat := if b.key.testRoot then Config.testRoot else Config.otpRoot

/-- "YD-KEK" ‖ device ID, with the 0 of KEK0 where asked. -/
def kekInfo (zero : Bool) : List Byte :=
  [0x59, 0x44, 0x2D, 0x4B, 0x45, 0x4B] ++ (if zero then [0x30] else []) ++ leBytes 16 Config.deviceId

/-- The two key-encryption keys (R399). -/
def Block.kek0 (b : Block) : List Byte := hkdf (leBytes 32 b.root) [] (kekInfo true) 32
def Block.kek (b : Block) : List Byte := hkdf (leBytes 32 b.root) (match b.key.epoch with | some e => leBytes 32 e | none => []) (kekInfo false) 32

/-- The key field that a message unwraps to; none for the ops that wrap none (0) and where the check fails. -/
def Block.unwrapped (b : Block) (x : KeyMsg) : Option Nat :=
  match x.op with
  | 1 => ((kwUnwrap b.kek (slice x.bytes 36 40)).map leNat).filter (fun v => x.len == 1 || v / 2 ^ 128 == 0)
  | 3 => (kwUnwrap b.kek0 (slice x.bytes 36 40)).map leNat
  | _ => some 0

/-- Check 8: no reserved attribute; archive encryption with 256 bits only (Table 16.1). -/
def KeyMsg.attrOk (x : KeyMsg) : Bool := x.op != 1 || (decide (x.attr < 128) && (!bit x.attr 4 || x.len == 1))

/-- The result of the checks of Table 16.4 in their order; 0 where all pass. -/
def Block.keyCheck (b : Block) (x : KeyMsg) : Nat :=
  if x.formatOk = false then 2
  else if leAt x.bytes 4 16 ≠ Config.deviceId % 2 ^ 128 then 3
  else if x.counter ≤ b.key.counter then 4
  else if x.signerOk = false then 5
  else if ecdsaOk (leBytes 64 (b.pk x.signer)) (x.bytes.take 100) (slice x.bytes 100 64) = false then 6
  else if b.tam.asserted ≠ [] ∨ (x.op ≤ 2 ∧ b.sys.zeroised = true) then 7
  else if (b.unwrapped x).isNone then 8
  else if x.attrOk = false then 9
  else 0

/-- The end of a message: its result, the IRQ, the event with op, slot and result. -/
def Block.keyFinish (b : Block) (op slot result : Nat) : Block :=
  let b : Block := { b with key := { b.key with result := result, waiting := none, zeroisedWaiting := false } }
  let b := b.count (if result = 0 then Reg.KEY_UPD_ACCEPTED else Reg.KEY_UPD_REJECTED)
  ((b.irq Blk.key 0).event (if result = 0 then 0x1501 else 0x1502) slot (op + 256 * slot) result).casKeyCheck

/-- DEBUG_AUTH: zeroisation, the test root, TEST_ROOT, the port, the event (R410). -/
def Block.debugAuth (b : Block) : Block :=
  let b := b.zeroise 255
  (({ b with key := { b.key with testRoot := true, debugOpen := true } }).irq Blk.key 1).event 0x1507

/-- While a tamper source stays asserted, an attempt to change a slot repeats the zeroisation (R406); `r` is the result of the checks. -/
def Block.zeroiseAgain (b : Block) (op r : Nat) : Block :=
  match b.tam.asserted with
  | src :: _ => if r = 7 ∧ 1 ≤ op ∧ op ≤ 3 then b.zeroise src else b
  | [] => b

/-- A write of KEY.UPD_GO by a master. Ops 1 to 3 wait for a boundary of the slot; SET_OWNER and DEBUG_AUTH touch no slot in use
and take effect at once. -/
def Block.keyUpdate (b : Block) (m : Nat) : Block :=
  if b.key.waiting.isSome then { b with key := { b.key with result := 1 } }
  else
    let x : KeyMsg := ⟨b.loadSafe (b.addrOf Reg.KEY_UPD_ADDR_LO Reg.KEY_UPD_ADDR_HI m) 164⟩
    let r := b.keyCheck x
    if r ≠ 0 then (b.zeroiseAgain x.op r).keyFinish x.op x.slot r
    else
      let b : Block := { b with key := { b.key with counter := x.counter } }
      match x.op with
      | 4 => (({ b with key := { b.key with pk := Tbl.ins b.key.pk 1 (leAt x.bytes 36 64) } }) : Block).keyFinish 4 0 0
      | 5 => b.debugAuth.keyFinish 5 0 0
      | _ => { b with key := { b.key with waiting := some ⟨x.op, x.slot, x.len == 1, x.attr, x.id, (b.unwrapped x).getD 0⟩ } }

/-- The op of the message that a master's UPD_ADDR names. -/
def Block.keyOp (b : Block) (m : Nat) : Nat := leAt (b.loadSafe (b.addrOf Reg.KEY_UPD_ADDR_LO Reg.KEY_UPD_ADDR_HI m) 164) 2 1

/-- One slot replaced, its generation advanced. -/
def Key.setSlot (k : Key) (i : Nat) (x : KeySlot) : Key :=
  { k with slots := Tbl.put k.slots i { x with gen := ((Tbl.get k.slots i KeySlot.empty).gen + 1) % 65536 } KeySlot.empty }

/-- The change installed in the slots. -/
def Key.install (k : Key) (c : KeyChange) : Key :=
  match c.op with
  | 1 => k.setSlot c.slot ⟨true, c.len256, c.attr, c.id, 0, c.body⟩
  | 2 => k.setSlot c.slot KeySlot.empty
  | _ => { k.wiped with epoch := some c.body }

/-- KEY_INSTALL: the change that waits is installed, unless a zeroisation came between (R404). -/
def Block.keyInstall (b : Block) : Block :=
  match b.key.waiting with
  | none => b
  | some c =>
    if b.key.zeroisedWaiting then b.keyFinish c.op c.slot 10
    else
      let b : Block := { b with key := b.key.install c, sys := { b.sys with zeroised := b.sys.zeroised && !(c.op == 3 && b.tam.asserted.isEmpty) } }
      b.keyFinish c.op c.slot 0

/-! ### Tamper (R405 to R409) -/

/-- Whether a source asserts (Table 16.5): an enabled loop whose level differs from POLn, a limit, VBAT_LOW only while mains power is absent. -/
def Block.tamAsserts (b : Block) (x : TamSight) (mains : Bool) (s : Nat) : Bool :=
  if s < 4 then bit b.tam.cfg s && (x.loops.contains s != bit b.tam.cfg (s + 4))
  else x.limits.contains s && (s != 7 || !mains)

/-- The entry that an event while unpowered adds to the log; beyond 15 the overflow is set. -/
def Tam.logged (x : Tam) (s elapsed : Nat) : Tam :=
  if x.log.length < 15 then { x with log := x.log ++ [⟨s, 1, elapsed % 2 ^ 32⟩] } else { x with overflow := true }

/-- A tamper event counted and reported. -/
def Block.tamReport (b : Block) (s : Nat) : Block :=
  let b : Block := { b with tam := { b.tam with lastSrc := some s } }
  ((b.count Reg.TAM_EVENTS).irq Blk.tam 0).event 0x1503 s

/-- The module's course after a zeroisation (R407, R408). -/
def Block.tamPolicy (b : Block) : Block :=
  if bit b.tam.cfg 31 = false then b
  else if b.sys.mode = .load then ({ b with sys := { b.sys with loadResult := 12 } }).enterHalt 3
  else b.enterSave 3

/-- TAMPER_EVENT: the sources now asserted. Each newly asserted one is an event; while mains power is absent the VBAT domain
zeroises and logs it. -/
def Block.tamper (b : Block) (x : TamSight) (elapsed : Option Nat) : Block :=
  let now := (List.range 8).filter (b.tamAsserts x elapsed.isNone)
  let new := now.filter (fun s => !b.tam.asserted.contains s)
  let b : Block := { b with tam := { b.tam with asserted := now } }
  match new, elapsed with
  | [], _ => b
  | s :: _, some e =>
    { b with
      tam := new.foldl (fun x s => x.logged s e) { b.tam with lastSrc := some s }
      key := b.key.wiped
      sys := { b.sys with zeroised := true } }
  | s :: _, none => ((new.foldl Block.tamReport b).zeroise s).tamPolicy

/-! ### Settings (R407, R413) -/

/-- Whether the region table and TAM.CFG may be written. -/
def Block.guardOpen (b : Block) : Bool := b.sys.mode == .load || b.sys.mode == .maintenance

/-- A write of TAM.CFG. -/
def Block.tamCfg (b : Block) (w : Word) : Block :=
  if b.guardOpen then { b with tam := { b.tam with cfg := (Reg.TAM_CFG.write (w32 b.tam.cfg) w).toNat } } else b.count Reg.TAM_CFG_REFUSED

/-- A write of a region's register: regions 0 to 7 are LCK, the others writable in LOAD and MAINTENANCE. -/
def Block.regionWrite (b : Block) (d : RegDesc) (r : Nat) (w : Word) : Block :=
  let k := d.key r 0
  if r < 8 then
    if b.regs.locked.contains k then b
    else
      (b.setVis d r 0 (d.write (b.vis d r) w)).lockKey k
  else if b.guardOpen then b.setVis d r 0 (d.write (b.vis d r) w)
  else b.count Reg.ACC_CFG_REFUSED

end Sys2Proof.Machine
end

