-- ==== Sys2Proof/Machine/SysOps.lean ====
section
/-! DEFINITION. SYS: the watchdog, the interrupt controller, the timer, the flash, the boot pointer, the image's checks, switch and
confirmation, tuning sets (R435 to R440, R452 to R455). -/

namespace Sys2Proof.Machine

/-! ### The host watchdog and the timer (R452, R454) -/

/-- The TB7 instant at which the watchdog expires. -/
def Block.wdogEnd (b : Block) : Option Nat := b.sys.wdogAt.map (fun t => t + (b.vis Reg.SYS_WDOG_CFG).toNat % 65536 * 1000000)

/-- A write of SYS.WDOG_KICK: a kick in the cycle of expiry is too late. -/
def Block.wdogKick (b : Block) (m v : Nat) : Block :=
  match b.wdogEnd with
  | some e => if m = 0 ∧ v = 0x4B43 ∧ b.t7 < e then { b with sys := { b.sys with wdogAt := some b.t7 } } else b
  | none => b

/-- The watchdog expires. -/
def Block.wdogExpiry (b : Block) : Block :=
  match b.wdogEnd with
  | some e => if e ≤ b.t7 then b.hostReset else b
  | none => b

/-- SYS.MTIMECMP_h. -/
def Block.mtimeCmp (b : Block) (h : Nat) : Nat := (b.vis Reg.SYS_MTIMECMP 0 (2 * h)).toNat + (b.vis Reg.SYS_MTIMECMP 0 (2 * h + 1)).toNat * 2 ^ 32

/-- The machine timer interrupt of a host core. -/
def Block.timerDue (b : Block) (h : Nat) : Block :=
  if b.mtimeCmp h ≤ b.t7 / 1000 then { b with sys := { b.sys with mtip := setIns b.sys.mtip h } } else b

/-- A write to a compare register ends the interrupt until MTIME reaches the new value. -/
def Block.timerClear (b : Block) (h : Nat) : Block :=
  if b.t7 / 1000 < b.mtimeCmp h then { b with sys := { b.sys with mtip := setDel b.sys.mtip h } } else b

/-! ### The interrupt controller (R452) -/

/-- The level of a source (Table 19.3). -/
def Block.plicLevel (b : Block) (s : Nat) : Bool :=
  if 1 ≤ s ∧ s ≤ 25 then b.irqHigh (s - 1) else if 32 ≤ s ∧ s ≤ 95 then b.qmark (s - 32) else false

/-- A source is pending while it is high and not claimed. -/
def Block.plicPending (b : Block) (s : Nat) : Bool := b.plicLevel s && !b.sys.plicClaimed.contains s

def Block.plicEnabled (b : Block) (h s : Nat) : Bool := bit (Tbl.get b.sys.plicEn (8 * h + s / 32) 0) (s % 32)

def Block.plicPrio (b : Block) (s : Nat) : Nat := Tbl.get b.sys.plicPrio s 0

/-- The source that a claim by a context takes: the highest priority, the lowest number among equals; 0 for none. -/
def Block.plicBest (b : Block) (h : Nat) : Nat :=
  ((List.range 96).filter (fun s => b.plicPending s && b.plicEnabled h s && decide (0 < b.plicPrio s))).foldl
    (fun a s => if a = 0 ∨ b.plicPrio a < b.plicPrio s then s else a) 0

/-- Whether a host core has an external interrupt: a pending source above its threshold. -/
def Block.plicNotify (b : Block) (h : Nat) : Bool := decide (Tbl.get b.sys.plicThr h 0 < b.plicPrio (b.plicBest h))

/-- A read of a context's claim register. -/
def Block.plicClaim (b : Block) (h : Nat) : Nat × Block :=
  let s := b.plicBest h
  (s, if s = 0 then b else { b with sys := { b.sys with plicClaimed := setIns b.sys.plicClaimed s } })

/-- A write of complete: ignored for a source that the context has not enabled. -/
def Block.plicComplete (b : Block) (h s : Nat) : Block :=
  if b.plicEnabled h s then { b with sys := { b.sys with plicClaimed := setDel b.sys.plicClaimed s } } else b

/-- A 32-bit read in the interrupt controller's region. -/
def Block.plicRead (b : Block) (off : Nat) : Nat × Block :=
  let h := (off - 0x200000) / 0x1000
  if off < 0x400 then (b.plicPrio (off / 4), b)
  else if 0x1000 ≤ off ∧ off < 0x1020 then
    let base := (off - 0x1000) / 4 * 32
    ((List.range 32).foldl (fun a i => a + b2n (b.plicPending (base + i)) * 2 ^ i) 0, b)
  else if 0x2000 ≤ off ∧ off < 0x2200 ∧ (off - 0x2000) % 0x80 < 0x20 then
    (Tbl.get b.sys.plicEn (8 * ((off - 0x2000) / 0x80) + (off - 0x2000) % 0x80 / 4) 0, b)
  else if 0x200000 ≤ off ∧ h < 4 ∧ off % 0x1000 = 0 then (Tbl.get b.sys.plicThr h 0, b)
  else if 0x200000 ≤ off ∧ h < 4 ∧ off % 0x1000 = 4 then b.plicClaim h
  else (0, b)

/-- A 32-bit write there; source 0 does not exist. -/
def Block.plicWrite (b : Block) (off v : Nat) : Block :=
  let h := (off - 0x200000) / 0x1000
  if off < 0x400 then
    if off = 0 then b else { b with sys := { b.sys with plicPrio := Tbl.put b.sys.plicPrio (off / 4) (v % 8) 0 } }
  else if 0x2000 ≤ off ∧ off < 0x2200 ∧ (off - 0x2000) % 0x80 < 0x20 then
    let k := 8 * ((off - 0x2000) / 0x80) + (off - 0x2000) % 0x80 / 4
    { b with sys := { b.sys with plicEn := Tbl.put b.sys.plicEn k (if k % 8 = 0 then v - v % 2 else v) 0 } }
  else if 0x200000 ≤ off ∧ h < 4 ∧ off % 0x1000 = 0 then { b with sys := { b.sys with plicThr := Tbl.put b.sys.plicThr h (v % 8) 0 } }
  else if 0x200000 ≤ off ∧ h < 4 ∧ off % 0x1000 = 4 then b.plicComplete h v
  else b

/-! ### The flash (R455) -/

def Flash.bank (a : Nat) : Nat := a / 0x4000000

/-- A refused command with its result. -/
def Block.qspiRefuse (b : Block) (r : Nat) : Block :=
  ({ b with sys := { b.sys with qspiResult := r } }).count Reg.SYS_QSPI_REFUSED

/-- SYS.QSPI_CMD: 1 ERASE, 2 PROGRAM; refused by mode, bank or alignment, and while a command runs. -/
def Block.qspiCmd (b : Block) (program : Bool) : Block :=
  let a := (b.vis Reg.SYS_QSPI_ADDR).toNat % 2 ^ 27
  if b.sys.mode ≠ .maintenance then b.qspiRefuse 1
  else if Flash.bank a = b.sys.bank ∨ a % (if program then 256 else 65536) ≠ 0 then b.qspiRefuse 2
  else if b.sys.qspi.isSome then b.qspiRefuse 3
  else { b with sys := { b.sys with qspi := some ⟨program, a, b.addrOf Reg.SYS_QSPI_SRC_LO Reg.SYS_QSPI_SRC_HI⟩ } }

/-- The command that runs completes: an erased sector reads all ones, a programmed page the AND of old and source. -/
def Block.qspiDone (b : Block) : Block :=
  match b.sys.qspi with
  | none => b
  | some q =>
    if q.program then
      let src := b.loadSafe q.src 256
      let new := (b.loadFlash q.addr 256).zipWith (fun (o n : Byte) => o &&& n) src
      let b := b.storeFlash q.addr new
      let b : Block := { b with sys := { b.sys with qspi := none, qspiResult := if new = src then 0 else 4 } }
      (if new = src then b else b.event 0x010D 0xFFFF q.addr).irq Blk.sys 1
    else
      let b := b.storeFlash q.addr (List.replicate 65536 Mem.erased)
      ({ b with sys := { b.sys with qspi := none, qspiResult := 0 } } : Block).irq Blk.sys 1

/-! ### The boot pointer (R435) -/

structure BootPtr where
  seq : Nat
  bank : Nat
  trial : Bool
  attempts : Nat
  floor : Nat
  deriving DecidableEq, Repr

def BootPtr.addr (copy : Nat) : Nat := 0x407F2020 + 32 * copy

/-- One copy, where its marker and CRC are good. -/
def Block.bootCopy (b : Block) (copy : Nat) : Option BootPtr :=
  let x := b.load (BootPtr.addr copy) 32
  if leAt x 0 4 = 0x52545042 ∧ leAt x 28 4 = crc32 (x.take 28) then
    some ⟨leAt x 4 4, leAt x 8 1 % 2, leAt x 9 1 == 1, leAt x 10 1, leAt x 12 4⟩
  else none

/-- The copy in force: the valid one with the newer number, and its place. -/
def Block.bootIn (b : Block) : BootPtr × Option Nat :=
  match b.bootCopy 0, b.bootCopy 1 with
  | some x, some y => if later 32 y.seq x.seq then (y, some 1) else (x, some 0)
  | some x, none => (x, some 0)
  | none, some y => (y, some 1)
  | none, none => (⟨0, 0, false, 0, 0⟩, none)

def Block.boot (b : Block) : BootPtr := b.bootIn.1

/-- The pointer written to the copy not in force, with the next number. -/
def Block.bootWrite (b : Block) (p : BootPtr) : Block :=
  let (old, at_) := b.bootIn
  let copy := match at_ with | some 0 => 1 | _ => 0
  let x := leBytes 4 0x52545042 ++ leBytes 4 ((old.seq + 1) % 2 ^ 32) ++ leBytes 1 p.bank ++ leBytes 1 (b2n p.trial) ++ leBytes 1 p.attempts ++
    leBytes 1 0 ++ leBytes 4 p.floor ++ leBytes 12 0
  b.store (BootPtr.addr copy) (x ++ leBytes 4 (crc32 x))

/-! ### The image (R435, R436) -/

/-- An image as the flash holds it: its bank, its length, its sections as (type, flags, offset of the body, length). -/
structure Image where
  bank : Nat
  len : Nat
  secs : List (Nat × Nat × Nat × Nat)
  deriving DecidableEq, Repr

/-- A number in a bank's bytes. -/
def Block.imgN (b : Block) (bank off n : Nat) : Nat := leNat (b.loadFlash (bank * 0x4000000 + off) n)

/-- The sections from an offset on, with the offset after the last. -/
def Block.imgSecs (b : Block) (bank : Nat) : Nat → Nat → List (Nat × Nat × Nat × Nat) × Nat
  | 0, off => ([], off)
  | n + 1, off =>
    let len := b.imgN bank (off + 4) 4
    let (r, e) := b.imgSecs bank n (ceilDiv (off + 16 + len) 64 * 64)
    ((b.imgN bank off 2, b.imgN bank (off + 2) 1, off + 16, len) :: r, e)

def Block.image (b : Block) (bank : Nat) : Image × Nat :=
  let (s, e) := b.imgSecs bank (b.imgN bank 22 2 % 64) 256
  (⟨bank, b.imgN bank 8 4, s⟩, e)

/-- Whether no element stands twice. -/
def noTwice : List Nat → Bool
  | [] => true
  | a :: r => !r.contains a && noTwice r

/-- Check 2 of Table 18.9. -/
def Block.imgHeaderOk (b : Block) (bank : Nat) : Bool :=
  let (x, e) := b.image bank
  let ts := x.secs.map (·.1)
  b.imgN bank 4 2 == 1 && decide (1 ≤ b.imgN bank 22 2) && decide (b.imgN bank 22 2 ≤ 32) && decide (x.len ≤ 0x4000000) && e + 64 == x.len &&
    noTwice ts && [0x0B, 1, 2, 3].all ts.contains && x.secs.all (fun s => (decide (1 ≤ s.1) && decide (s.1 ≤ 12)) || !bit s.2.1 0)

/-- The part's variant (R2). -/
def Block.variantCode (b : Block) : Nat := if b.sys.variantW then 2 else 1

/-- Steps 1 to 6 of Table 18.9; 0 where all pass. -/
def Block.imgCheck (b : Block) (bank : Nat) : Nat :=
  let v := b.imgN bank 6 1
  if b.imgN bank 0 4 ≠ 0x47494459 then 1
  else if b.imgHeaderOk bank = false then 2
  else if b.imgN bank 40 16 ≠ 0 ∧ b.imgN bank 40 16 ≠ Config.deviceId % 2 ^ 128 then 3
  else if (v ≠ 0 ∧ v ≠ b.variantCode) ∨ (b.sys.variantW = true ∧ ((b.image bank).1.secs.any (fun s => s.1 == 7 && s.2.2.2 != 0)) = true) then 4
  else if b.imgN bank 16 4 < b.boot.floor then 5
  else
    let len := b.imgN bank 8 4
    if ecdsaOk (leBytes 64 (b.pk 1)) (b.loadFlash (bank * 0x4000000) (len - 64)) (b.loadFlash (bank * 0x4000000 + len - 64) 64) then 0 else 6

/-! ### Verification, switch, confirmation (R438, R440) -/

/-- SYS.IMG_CMD[VERIFY] on the bank not in use. -/
def Block.imageVerify (b : Block) : Block :=
  if b.sys.mode = .maintenance then { b with sys := { b.sys with imgResult := b.imgCheck (1 - b.sys.bank) } } else b

/-- SYS.IMG_CMD[SWITCH]: verified again, energy saved, the pointer TRIAL, the event, the die reset. -/
def Block.imageSwitch (b : Block) : Block :=
  let b := b.imageVerify
  if b.sys.mode = .maintenance ∧ b.sys.imgResult = 0 then
    let b := b.saveNow
    let b := b.bootWrite { b.boot with bank := 1 - b.sys.bank, trial := true, attempts := 0 }
    (b.event 0x010A 0xFFFF (1 - b.sys.bank)).redFail.dieReset
  else b

/-- IMAGE_CONFIRM: 60 s in a row of ACTIVE, HOLDOVER or STANDBY. -/
def Block.imageConfirm (b : Block) : Block :=
  match b.sys.goodSince with
  | none => b
  | some t =>
    if b.sys.trial = true ∧ t + 60 * nsPerS ≤ b.t7 then
      let p := b.boot
      let b := b.bootWrite { p with trial := false, attempts := 0, floor := max p.floor b.sys.imgRollback }
      ({ b with sys := { b.sys with trial := false } } : Block).event 0x0107 0xFFFF b.sys.bank b.sys.imgVersion
    else b

/-! ### Finding a register for an access -/

/-- The register that an offset of a block names for a master: its row, the instance it is stored under (the master's own copy of a
banked one, a group's bitmap word by GRP_IDX), its index in the row, and its space and instance in the window. -/
structure RegAt where
  desc : RegDesc
  idx : Nat
  k : Nat
  space : Nat
  inst : Nat
  deriving DecidableEq, Repr

def Block.locate (b : Block) (blk off m : Nat) : Option RegAt :=
  let s : Nat × Nat := if 0x40 ≤ off ∧ off < 0x400 then b.selected blk m else (15, 0)
  match Reg.find blk s.1 off with
  | none => none
  | some (d, k) => (b.home d s.1 s.2 m).map (fun i => ⟨d, i, k, s.1, s.2⟩)

def RegAt.key (x : RegAt) : Nat := x.desc.key x.idx x.k

/-- A word to be written, with each field that this instance does not have as 0, and each field whose value the instance does not
admit as it stands (R7): DIFF of PO2 to PO7, the media of Table 2.1, MG's frame limit, MCLK of a modulator channel (R265). -/
def Block.fitted (b : Block) (x : RegAt) (w : Word) : Word :=
  let old := b.vis x.desc x.idx x.k
  match x.desc.blk, x.space, x.desc.off with
  | 1, 1, 0x40 => if x.inst < 2 then w else setFld w 23 23 0
  | 2, 0, 0x40 => if Prt.mediaOk x.inst (fld w 3 0) then w else setFld w 3 0 (fld old 3 0)
  | 10, 0, 0x40 => setFld w 27 26 (x.inst / 4)
  | 2, 0, 0x48 => if x.inst = 29 ∧ 1522 < fld w 13 0 then setFld w 13 0 (fld old 13 0) else w
  | _, _, _ => w

/-- The W1C bits of a register that an event of this cycle has set: a write of 1 leaves them set (R6). -/
def Block.freshBits (b : Block) (x : RegAt) : Word := w32 ((b.fresh x.key).2 &&& x.desc.mask (· == .w1c))

/-! ### COMMIT -/

/-- A write of a block's COMMIT register. -/
def Block.commitBlock (b : Block) (blk : Nat) : Block :=
  match blk with
  | 1 => b.timCommit
  | 4 => b.alnCommit
  | 10 => b.sdmCommit
  | 12 => b.capCommit
  | 14 => b.memCommit
  | 22 => b.evrCommit
  | _ => b.commit blk

/-- The blocks that have a COMMIT register. -/
def Blk.hasCommit (blk : Nat) : Bool := [1, 3, 4, 5, 6, 7, 8, 9, 10, 11, 12, 13, 14, 17, 19, 22].contains blk

/-- A COMMIT written by a master: the host's are ignored and counted while TUNE_ONLY is set (R439). -/
def Block.commitBy (b : Block) (m blk : Nat) : Block :=
  if m < 4 ∧ bit (b.vis Reg.SYS_CFG).toNat 0 = true then b.count Reg.SYS_COMMIT_REFUSED else b.commitBlock blk

/-! ### Tuning sets (R439) -/

/-- One entry of a tuning set (Table 18.10). -/
inductive TuneEntry where
  | write (addr mask value : Nat)
  | leap (sec : Nat) (off : Int) (expiry : Nat)
  | bad
  deriving DecidableEq, Repr

def TuneEntry.ofBytes (x : List Byte) : TuneEntry :=
  match leAt x 0 1 with
  | 1 => .write (leAt x 3 5) (leAt x 8 4) (leAt x 12 4)
  | 2 => .leap (leAt x 2 6) (sgn 16 (leAt x 8 2)) (leAt x 10 6)
  | _ => .bad

/-- The register that a tuning write names: a control block's word, in the window of the submitting master's SEL. -/
def Block.tuneAt (b : Block) (m addr : Nat) : Option RegAt :=
  if 0xF0000000 ≤ addr ∧ addr < 0xF0190000 ∧ addr % 4 = 0 then b.locate ((addr - 0xF0000000) / 65536) (addr % 65536) m else none

/-- Check 7: masks over RWS bits of a control block only; leap entries after the table's last. -/
def Block.tuneTargets (b : Block) (m : Nat) : List TuneEntry → Nat → Bool
  | [], _ => true
  | .write a mask _ :: r, last =>
    (match b.tuneAt m a with
      | some x => mask &&& x.desc.mask (· == .rws) == mask
      | none => mask == 0) && Block.tuneTargets b m r last
  | .leap s _ _ :: r, last => decide (last < s) && Block.tuneTargets b m r s
  | .bad :: _, _ => false

/-- The leap entries that a set appends; the table holds 64 (R256). -/
def tuneLeaps (es : List TuneEntry) : Nat := (es.filter (fun e => match e with | .leap _ _ _ => true | _ => false)).length

/-- The poison of a context's settings that a write to a register's word clears (Table 13.2). -/
def Block.ctxClean (b : Block) (x : RegAt) : Block :=
  if x.desc.blk = 3 ∧ x.space = 0 then
    let w := (512 * x.inst + (x.desc.off + x.desc.stride * x.k) % 512) / 8
    { b with mem := { b.mem with poison := b.mem.poison.filter (fun u => !(u.1 == 6 && u.2 / 8 == w)) } }
  else b

/-- One entry applied to the shadows. -/
def Block.tuneApply (b : Block) (m : Nat) (e : TuneEntry) : Block :=
  match e with
  | .write a mask value =>
    match b.tuneAt m a with
    | none => b
    | some x =>
      let old := b.visAt x.key
      let new := (old &&& ~~~(w32 mask)) ||| (w32 value &&& w32 mask)
      ((b.setVis x.desc x.idx x.k (x.desc.write old (b.fitted x new))).markDirty x.key).ctxClean x
  | .leap s o x => { b with tim := { b.tim with
      leaps := b.tim.leaps ++ [(s, o)]
      leapExpiry := x
      leapExpired := b.tim.leapExpired && decide (x ≤ b.now / nsPerS) } }
  | .bad => b

/-- The control blocks that a set touches, in rising order. -/
def tuneBlocks (es : List TuneEntry) : List Nat :=
  es.foldl (fun s e => match e with | .write a _ _ => setIns s ((a - 0xF0000000) / 65536) | _ => s) []

/-- The modes that take tuning sets. -/
def Mode.tunes : Mode → Bool
  | .acquire | .active | .holdover | .degraded | .maintenance | .debug => true
  | _ => false

/-- A set's result by the checks in their order; 0 where all pass. -/
def Block.tuneCheck (b : Block) (m addr : Nat) (h : List Byte) (es : List TuneEntry) : Nat :=
  let n := leAt h 6 2
  if leAt h 0 4 ≠ 0x4E555459 ∨ leAt h 4 2 ≠ 1 ∨ n = 0 ∨ 4096 < n ∨ es.contains .bad = true then 2
  else if leAt h 16 16 ≠ 0 ∧ leAt h 16 16 ≠ Config.deviceId % 2 ^ 128 then 3
  else if leAt h 32 32 ≠ b.sys.imgId then 4
  else if leAt h 8 8 ≤ b.sys.tuneCounter then 5
  else if ecdsaOk (leBytes 64 (b.pk 1)) (b.loadSafe addr (128 + 16 * n)) (b.loadSafe (addr + 128 + 16 * n) 64) = false then 6
  else if b.sys.mode.tunes = false then 7
  else if b.tuneTargets m es (b.tim.leaps.foldl (fun a e => max a e.1) 0) = false ∨ 64 < b.tim.leaps.length + tuneLeaps es then 8
  else 0

/-- A write of SYS.TUNE_GO by a master. -/
def Block.tuningSet (b : Block) (m : Nat) : Block :=
  let addr := b.addrOf Reg.SYS_TUNE_ADDR_LO Reg.SYS_TUNE_ADDR_HI m
  let h := b.loadSafe addr 128
  let es := (List.range (min 4096 (leAt h 6 2))).map (fun i => TuneEntry.ofBytes (b.loadSafe (addr + 128 + 16 * i) 16))
  let r := b.tuneCheck m addr h es
  let b : Block := { b with sys := { b.sys with tuneResult := r } }
  if r ≠ 0 then b.event 0x0108 0xFFFF (leAt h 8 4) (2147483648 + r)
  else
    let b : Block := { b with sys := { b.sys with tuneCounter := leAt h 8 8 } }
    let b := es.foldl (fun b e => b.tuneApply m e) b
    let b := (tuneBlocks es).foldl (fun b k => if Blk.hasCommit k then b.commitBlock k else b) b
    b.event 0x0108 0xFFFF (leAt h 8 4)

end Sys2Proof.Machine
end

