-- ==== Sys2Proof/Machine/RegAct.lean ====
section
/-! DEFINITION. What a write or a read of a control register does: the access codes, the registers that act, SEL's auto-increment (R5 to
R9, R447 to R451). -/

namespace Sys2Proof.Machine

/-! ### Plain registers -/

/-- A plain write by the access codes; a register with RWS fields awaits a COMMIT, an LCK register takes its first write only. -/
def Block.plainWrite (b : Block) (x : RegAt) (w : Word) : Block :=
  let d := x.desc
  let lck := d.fields.any (fun f => f.acc == .lck)
  if lck = true ∧ b.regs.locked.contains x.key = true then b
  else
    let b := b.setVis d x.idx x.k (d.write (b.vis d x.idx x.k) (b.fitted x w) ||| b.freshBits x)
    let b := if lck then b.lockKey x.key else b
    if d.fields.any (fun f => f.acc == .rws) then (b.markDirty x.key).alnLateWrite x.key else b

/-- What an RC read returns: the value before this cycle's increments (R9). -/
def Block.rcValue (b : Block) (x : RegAt) (v : Nat) : Nat :=
  let f := b.fresh x.key
  if f.2 ≠ 0 ∧ x.desc.fields.any (fun f => f.acc == .rc) = true then f.1.toNat else v

/-- An RC read's effect: the RC fields and the counter's SAT flag cleared; this cycle's increments stay counted (R5, R8, R9). -/
def Block.rcClear (b : Block) (x : RegAt) : Block :=
  let d := x.desc
  if d.fields.any (fun f => f.acc == .rc) then
    let n := (b.fresh x.key).2
    let left := (b.vis d x.idx x.k &&& ~~~(w32 (d.mask (· == .rc)))) ||| w32 (min n 4294967295)
    let b : Block := { b with regs := { b.regs with
      vis := Tbl.put b.regs.vis x.key left (d.rst x.idx x.k)
      fresh := if n = 0 then b.regs.fresh else (b.t7, Tbl.ins b.regs.fresh.2 x.key (0, n)) } }
    match d.sat with
    | some (off, s) => b.clearBit (regKey d.blk (d.spaces.headD 15) x.idx off) (s + x.k)
    | none => b
  else b

/-! ### Registers that act, block by block: none where a write is plain -/

/-- SYS (Table 19.4). -/
def Block.actSys (b : Block) (m : Nat) (x : RegAt) (w : Word) : Option Block :=
  match x.desc.off with
  | 0x414 => some (b.modeReq m (fld w 3 0) (bit w.toNat 31))
  | 0x430 => some (if bit w.toNat 0 then b.tuningSet m else b)
  | 0x448 => some (if bit w.toNat 1 then b.imageSwitch else if bit w.toNat 0 then b.imageVerify else b)
  | 0x454 => some (b.wdogKick m w.toNat)
  | 0x458 => some (if bit w.toNat 1 then b.dieResetReq m else if bit w.toNat 0 then b.hostResetReq m else b)
  | 0x468 => some ((b.plainWrite x w).timerClear (x.k / 2))
  | 0x49C => some (match fld w 1 0 with | 1 => b.qspiCmd false | 2 => b.qspiCmd true | _ => b)
  | _ => none

/-- TIM: the virtual bases, the choice of the oscillator. -/
def Block.vstepAct (b : Block) (n : Nat) (w : Word) : Block :=
  let r := b.vstep n w
  (if r.2 then r.1.tb0Stepped else r.1).modeFollow

def Block.actTim (b : Block) (x : RegAt) (w : Word) : Option Block :=
  match x.space, x.desc.off with
  | 0, 0x68 => some (b.vstepAct x.inst w)
  | 0, 0x6C => some ((b.vrate x.inst w).modeFollow)
  | 15, 0x410 => some (b.plainWrite x w).oscSettle
  | _, _ => none

/-- PRT: filter entries by their high words, the VLAN table. -/
def Block.actPrt (b : Block) (x : RegAt) (w : Word) : Option Block :=
  match x.space, x.desc.off with
  | 0, 0x5C =>
    let p := b.port x.inst
    some (b.setPort x.inst { p with vlan := Tbl.put p.vlan (fld (b.vis Reg.PRT_VLAN_IDX x.inst) 6 0) w 0 })
  | 0, 0x104 => some ((b.plainWrite x w).filterCommit x.inst x.k)
  | 0, 0x184 => some ((b.plainWrite x w).filterCommit x.inst (16 + x.k))
  | _, _ => none

/-- STR: the injection ring is off while its size is 0. -/
def Block.actStr (b : Block) (x : RegAt) : Option Block :=
  if x.space = 15 ∧ x.desc.off = 0x4B0 ∧ (b.vis Reg.STR_INJ_SIZE).toNat = 0 then some b else none

def Block.actAln (b : Block) (x : RegAt) (w : Word) : Option Block :=
  if x.space = 0 ∧ x.desc.off = 0x58 then some (if bit w.toNat 0 then b.ctxRelearn x.inst else b) else none

/-- OUT: session commands; the other session registers are writable while the session is CLOSED. -/
def Block.actOut (b : Block) (x : RegAt) (w : Word) : Option Block :=
  if x.space ≠ 1 then none
  else match x.desc.off with
    | 0x78 => some (match fld w 2 0 with
      | 1 => b.sessOpen x.inst
      | 2 => b.sessClose x.inst
      | 3 => b.sessRst x.inst
      | 4 => b.sessAckSend x.inst
      | _ => b)
    | 0x68 => some (b.sessAck x.inst w.toNat)
    | 0x6C => some (b.sessRetx x.inst w.toNat)
    | 0x64 | 0x70 | 0xA0 => none
    | _ => if (b.sess x.inst).st = 0 then none else some b

/-- ALM: definition resets, forced pins. -/
def Block.actAlm (b : Block) (x : RegAt) (w : Word) : Option Block :=
  match x.space, x.desc.off with
  | 2, 0x5C => some (if bit w.toNat 0 then b.defReset x.inst else b)
  | 15, 0x414 => if b.sys.mode = .maintenance then none else some b
  | _, _ => none

/-- DFE: core releases, injections. -/
def Block.actDfe (b : Block) (m : Nat) (x : RegAt) (w : Word) : Option Block :=
  match x.space, x.desc.off with
  | 0, 0x44 => some (if bit w.toNat 0 then b.coreRelease x.inst else b)
  | 15, 0x42C => some (b.dfeInject m (fld w 27 16) (fld w 1 0))
  | _, _ => none

def Block.actSdm (b : Block) (x : RegAt) (w : Word) : Option Block :=
  if x.space = 15 ∧ x.desc.off = 0x414 then some (if bit w.toNat 0 then b.sdmSyncAt 8 else b) else none

def Block.actNrg (b : Block) (x : RegAt) (w : Word) : Option Block :=
  match x.space, x.desc.off with
  | 0, 0x80 => some (if bit w.toNat 0 then b.nrgClear x.inst else b)
  | 15, 0x410 => some (if bit w.toNat 0 then b.nrgSnap else b)
  | _, _ => none

/-- CAP: unit commands; the region is writable while the unit is OFF. -/
def Block.actCap (b : Block) (x : RegAt) (w : Word) : Option Block :=
  match x.space, x.desc.off with
  | 0, 0xA4 =>
    let b := if bit w.toNat 1 then b.capRelease x.inst else b
    some (if bit w.toNat 0 then b.capForce x.inst else b)
  | 0, 0x94 | 0, 0x98 | 0, 0x9C => if (b.capU x.inst).st = 0 then none else some b
  | _, _ => none

def Block.actRad (b : Block) (m : Nat) (x : RegAt) (w : Word) : Option Block :=
  match x.space, x.desc.off with
  | 1, 0x60 => some (if bit w.toNat 0 then b.dlPost x.inst else b)
  | 15, 0x438 => some (b.pendWrite m true w)
  | 15, 0x43C => some (b.pendWrite m false w)
  | _, _ => none

/-- MEM: the diagnostic window, remaps, PAUSE in MAINTENANCE and DEBUG only. -/
def Block.actMem (b : Block) (m : Nat) (x : RegAt) (w : Word) : Option Block :=
  match x.space, x.desc.off with
  | 0, 0x104 => some (match fld w 2 0 with
    | 1 => b.diagRead m
    | 2 | 3 | 4 => b.diagWrite m (fld w 2 0)
    | _ => if b.diagOpen then b else b.count Reg.MEM_DIAG_REFUSED)
  | 0, 0x40 => some (b.plainWrite x (if b.diagOpen then w else setFld w 31 31 (fld (b.vis Reg.MEM_SCRUB_CFG x.inst) 31 31)))
  | 15, 0x418 =>
    let b := if bit w.toNat 1 then b.remapErase else b
    some (if bit w.toNat 0 then b.remapCmd m else b)
  | _, _ => none

/-- DMA: every write to a channel that a block owns is refused (R336). -/
def Block.actDma (b : Block) (m : Nat) (x : RegAt) (w : Word) : Option Block :=
  if x.space ≠ 0 then none
  else if x.desc.off = 0x6C then some (b.dmaCmd m w)
  else some (b.dmaGuard x.inst (fun b => b.plainWrite x w))

def Block.actQue (b : Block) (x : RegAt) (w : Word) : Option Block :=
  match x.space, x.desc.off with
  | 0, 0x40 => some (b.queueCfg x.inst w)
  | 0, 0x6C => some (if bit w.toNat 0 then b.flush x.inst else b)
  | _, _ => none

/-- CMP: context resets, resumes, jobs; the ring's base while no group is enabled; USED cleared with VALID. -/
def Block.actCmp (b : Block) (m : Nat) (x : RegAt) (w : Word) : Option Block :=
  match x.space, x.desc.off with
  | 1, 0x4C => some (if bit w.toNat 0 then b.ctxReset x.inst else b)
  | 15, 0x434 => some (b.cmpResume w.toNat)
  | 15, 0x448 => some (if bit w.toNat 0 then b.jobGo m else b)
  | 15, 0x410 | 15, 0x414 => if (List.range 16).any b.grpEn then some b else none
  | 15, 0x508 =>
    let b := b.plainWrite x w
    some (if bit w.toNat 31 then b.setVis Reg.CMP_SPILL_USED 0 x.k 0 else b)
  | _, _ => none

def Block.actEvr (b : Block) (m : Nat) (x : RegAt) (w : Word) : Option Block :=
  match x.space, x.desc.off with
  | 15, 0x410 => some (b.evrCmd m w)
  | 15, 0x414 => some (b.clrUnlock w.toNat)
  | _, _ => none

def Block.actAcc (b : Block) (m : Nat) (x : RegAt) (w : Word) : Option Block :=
  match x.space, x.desc.off with
  | 0, 0x40 | 0, 0x44 | 0, 0x48 => some (b.regionWrite x.desc x.inst w)
  | 1, 0x48 => some (if bit w.toNat 0 then b.accRelease m else b)
  | _, _ => none

/-- The effect of a write to a register that does more than hold it. -/
def Block.regAct (b : Block) (m : Nat) (x : RegAt) (w : Word) : Option Block :=
  if x.space = 15 ∧ x.desc.off = 0x408 ∧ Blk.hasCommit x.desc.blk = true then some (if bit w.toNat 0 then b.commitBy m x.desc.blk else b)
  else match x.desc.blk with
    | 0 => b.actSys m x w
    | 1 => b.actTim x w
    | 2 => b.actPrt x w
    | 3 => b.actStr x
    | 4 => b.actAln x w
    | 5 => b.actOut x w
    | 8 => b.actAlm x w
    | 9 => b.actDfe m x w
    | 10 => b.actSdm x w
    | 11 => b.actNrg x w
    | 12 => b.actCap x w
    | 13 => b.actRad m x w
    | 14 => b.actMem m x w
    | 15 => b.actDma m x w
    | 16 => b.actQue x w
    | 17 => b.actCmp m x w
    | 19 => if x.desc.off = 0x41C then some (if bit w.toNat 0 then b.handoverCmd else b) else none
    | 20 => if x.desc.off = 0x428 then some (if bit w.toNat 0 then b.keyUpdate m else b) else none
    | 21 => if x.desc.off = 0x408 then some (b.tamCfg w) else none
    | 22 => b.actEvr m x w
    | 24 => b.actAcc m x w
    | _ => none

/-! ### SEL's auto-increment (R451) -/

/-- The highest bit of the INDEX field of a block's SEL. -/
def Reg.selTop (blk : Nat) : Nat :=
  match blk with
  | 1 | 2 | 10 | 15 => 4
  | 3 | 4 | 6 | 8 => 12
  | 5 => 9
  | 7 => 14
  | 9 | 13 => 11
  | 11 => 1
  | 12 | 18 => 2
  | 14 | 22 => 3
  | 17 => 7
  | _ => 5

/-- The closing register of a space: the one at the highest window offset that the block's tables define for it. -/
def Reg.closing (blk space : Nat) : Nat :=
  (Reg.tables blk).foldl (fun a d => if d.spaces.contains space then max a (d.off + d.stride * (d.n - 1)) else a) 0

/-- The instances of a space now; a ring's space ends at its DEPTH. -/
def Block.spaceSize (b : Block) (blk space : Nat) : Nat :=
  if blk = 4 ∧ (space = 1 ∨ space = 2) then b.depth (space - 1) else Reg.instances blk space

/-- After a completed access by a master: INDEX advances at the closing register. -/
def Block.advance (b : Block) (m blk off : Nat) : Block :=
  match Reg.sel blk with
  | none => b
  | some d =>
    let w := b.vis d m 0
    let s := Reg.selOf blk w
    if bit w.toNat 31 = true ∧ 0x40 ≤ off ∧ off < 0x400 ∧ off = Reg.closing blk s.1 then
      b.setVis d m 0 (setFld w (Reg.selTop blk) 0 (if s.2 + 1 < b.spaceSize blk s.1 then s.2 + 1 else 0))
    else b

/-! ### Accesses -/

/-- A 32-bit write of a control register by a master. -/
def Block.regWrite (b : Block) (m blk off : Nat) (w : Word) : Block :=
  match b.locate blk off m with
  | none => b
  | some x => (b.regAct m x w).getD (b.plainWrite x w)

/-- A 32-bit read of a control register by a master. -/
def Block.regRead (b : Block) (m blk off : Nat) : Nat × Block :=
  match b.locate blk off m with
  | none => (0, b)
  | some x =>
    let v := b.peek blk x.space x.inst off m
    match blk, x.space, x.desc.off with
    | 1, 0, 0x58 => b.latchNow x.inst
    | 9, 15, 0x41C => (v, { b with dfe := { b.dfe with peak := b.dfe.store.length } })
    | 11, 0, 0x100 => b.cntRead x.inst x.k
    | 23, 15, 0x418 => (v, { b with pwr := { b.pwr with tempMax := none } })
    | _, _, _ => (b.rcValue x v, (b.takeLatch blk x.space x.inst off m).rcClear x)

end Sys2Proof.Machine
end

