-- ==== Sys2Proof/Machine/BusOps.lean ====
section
/-! DEFINITION. The host address map, the accesses of the bus masters, the bus timeout, the bytes that a DMA channel moves (Table 19.1,
R338, R342, R343, R412 to R415, R447, R448, R453). -/

namespace Sys2Proof.Machine

/-! ### The address map (Table 19.1) -/

inductive Region where
  | rom | plic | mram | qspi | scratch | feature | control | dram
  deriving DecidableEq, Repr

/-- The region that holds every byte of an access, with the offset in it. -/
def busRegion (addr n : Nat) : Option (Region × Nat) :=
  let at_ (base size : Nat) : Bool := decide (base ≤ addr) && decide (addr + n ≤ base + size)
  if at_ 0 0x10000 then some (.rom, addr)
  else if at_ 0x0C000000 0x400000 then some (.plic, addr - 0x0C000000)
  else if at_ 0x40000000 0x800000 then some (.mram, addr - 0x40000000)
  else if at_ 0x60000000 0x8000000 then some (.qspi, addr - 0x60000000)
  else if at_ 0x80000000 0xC00000 then some (.scratch, addr - 0x80000000)
  else if at_ 0x90000000 0x200000 then some (.feature, addr - 0x90000000)
  else if at_ 0xF0000000 0x190000 then some (.control, addr - 0xF0000000)
  else if at_ 0x1000000000 0x800000000 then some (.dram, addr - 0x1000000000)
  else none

/-- The bytes of the 64-bit queue registers PUSH, PUSH_EOP, POP and TRYPOP in register space (R344). -/
def queueReg (off : Nat) : Bool := decide (0x100048 ≤ off) && decide (off < 0x100068)

/-- The bus address of a queue register. -/
def queueAddr (reg : Nat) : Nat := 0xF0100000 + reg

/-- The queue that a master's QUE.SEL names. -/
def Block.queSel (b : Block) (m : Nat) : Nat := fld (b.vis Reg.QUE_SEL m) 5 0

/-- Whether ACC permits an access (R413, R414). -/
def Block.accOk (b : Block) (m addr n : Nat) (write : Bool) : Bool :=
  b.permits m addr n write &&
    (!(decide (0xF0000000 ≤ addr) && queueReg (addr - 0xF0000000) && n == 8) || b.queueRight m (b.queSel m))

/-! ### Targets -/

/-- The read of a queue's oldest item finds an error in its slot (R335). -/
def Block.queueFound (b : Block) (q : Nat) : Block :=
  let x := b.queue q
  if b.qen q = false ∨ x.items = [] then b else b.rangeFound 5 (b.slotByte q x.rd) 8

/-- A 64-bit access of a queue register: its answer. -/
def Block.queueRead (b : Block) (m reg : Nat) : Response × Block :=
  let q := b.queSel m
  let b := b.queueFound q
  let b := match reg with
    | 0x58 => b.pop q m
    | 0x60 => b.trypop q m
    | _ => b.answer m (.value 0)
  (Tbl.get b.resp m (.value 0), b)

/-- A flash byte through the read window: a busy bank reads all ones (R455). -/
def Block.windowByte (b : Block) (o : Nat) : Byte :=
  match b.sys.qspi with
  | some q => if Flash.bank q.addr = Flash.bank o then 0xFF else cellGet b.mem.flash o Mem.erased
  | none => cellGet b.mem.flash o Mem.erased

/-- Whether a master is a fabric core (Table 16.7): its path to shared scratch and DRAM is its data cache (R219). -/
def isCore (m : Nat) : Bool := decide (4 ≤ m) && decide (m < 52)

/-- A read that ACC has permitted: the answer, whether a byte is poison, the effects; it finds the errors of the units that it covers (R327,
R335). -/
def Block.busLoad (b : Block) (m addr n : Nat) : Response × Bool × Block :=
  match busRegion addr n with
  | none => (.busError, false, b)
  | some (r, o) =>
    match r with
    | .rom => (.value (leNat ((List.range n).map (fun i => Config.bootRom (o + i)))), false, b)
    | .plic => if n = 4 ∧ o % 4 = 0 then (let (v, b) := b.plicRead o; (.value v, false, b)) else (.busError, false, b)
    | .qspi => (.value (leNat ((List.range n).map (fun i => b.windowByte (o + i)))), false, b)
    | .mram | .feature =>
      let b := b.busFound addr n
      (.value (b.loadN addr n), b.poisonedRange addr n, b)
    | .scratch | .dram =>
      if isCore m then
        let b := ((linesOf addr n).filter (fun k => !(b.core (m - 4)).dcache.any (fun l => l.line == k))).foldl (fun b k => b.busFound (64 * k) 64) b
        let bad := b.poisonedRange addr n && (linesOf addr n).any (b.pastCache (m - 4))
        let r := b.coreLoad (m - 4) addr n
        (.value (leNat r.1), bad, r.2)
      else
        let b := b.busFound addr n
        (.value (b.loadN addr n), b.poisonedRange addr n, b)
    | .control =>
      if queueReg o then
        if n = 8 ∧ o % 8 = 0 then (let (a, b) := b.queueRead m (o % 65536); (a, false, b)) else (.busError, false, b)
      else if n = 4 ∧ o % 4 = 0 then
        let (v, b) := b.regRead m (o / 65536) (o % 65536)
        (.value v, false, b.advance m (o / 65536) (o % 65536))
      else (.busError, false, b)

/-- A write of part of a line of DRAM: the controller reads the line first (R326). -/
def Block.partialFound (b : Block) (addr n : Nat) : Block :=
  if addr % 64 = 0 ∧ n % 64 = 0 then b else match poisonUnit addr with | some (9, _) => b.busFound addr n | _ => b

/-- A write that ACC has permitted. -/
def Block.busStore (b : Block) (m addr n v : Nat) : Response × Block :=
  match busRegion addr n with
  | none => (.busError, b)
  | some (r, o) =>
    match r with
    | .rom | .qspi | .feature => (.busError, b)
    | .plic => if n = 4 ∧ o % 4 = 0 then (.written, b.plicWrite o (v % 2 ^ 32)) else (.busError, b)
    | .mram => (.written, b.storeN addr n v)
    | .scratch | .dram => (.written, if isCore m then b.coreStore (m - 4) addr (leBytes n v) else (b.partialFound addr n).storeN addr n v)
    | .control =>
      if queueReg o then
        if n = 8 ∧ o % 8 = 0 then
          match o % 65536 with
          | 0x48 => (.written, b.push (b.queSel m) v false)
          | 0x50 => (.written, b.push (b.queSel m) v true)
          | _ => (.written, b)
        else (.busError, b)
      else if n = 4 ∧ o % 4 = 0 then (.written, (b.regWrite m (o / 65536) (o % 65536) (w32 v)).advance m (o / 65536) (o % 65536))
      else (.busError, b)

/-! ### Masters -/

/-- Whether a master can make an access: it is not frozen, waits for no other access, and the debug port is open for the debug
module (R410, R415). -/
def Block.masterReady (b : Block) (m : Nat) : Bool :=
  !b.isFrozen m && (Tbl.get b.resp m (.value 0)).stallSince.isNone && (m != 54 || b.key.debugOpen)

/-- A fabric core's firing that met a bus error or poison emits INCOMPLETE (Table 13.2). -/
def Block.firingSpoilt (b : Block) (m : Nat) : Block :=
  if 4 ≤ m ∧ m < 52 then
    let x := b.core (m - 4)
    match x.running with
    | some f => b.setCore (m - 4) { x with running := some { f with toks := f.toks.map (fun t => { t with inc := true }) } }
    | none => b
  else b

/-- A read by a master. -/
def Block.masterRead (b : Block) (m addr n : Nat) : Block :=
  if b.masterReady m = false then b
  else if b.accOk m addr n false = false then b.violate m addr n false
  else
    let (r, poison, b) := b.busLoad m addr n
    if poison = true ∨ r = .busError then (b.firingSpoilt m).answer m .busError else b.answer m r

/-- A write by a master. -/
def Block.masterWrite (b : Block) (m addr n v : Nat) : Block :=
  if b.masterReady m = false then b
  else if b.accOk m addr n true = false then b.violate m addr n true
  else
    let (r, b) := b.busStore m addr n v
    (if r = .busError then b.firingSpoilt m else b).answer m r

/-- The command of a register by a master, with its effect in place of the write: the access checks, the answer, AINC. -/
def Block.byMaster (b : Block) (m blk off : Nat) (f : Block → Block) : Block :=
  let addr := 0xF0000000 + 65536 * blk + off
  if b.masterReady m = false then b
  else if b.accOk m addr 4 true = false then b.violate m addr 4 true
  else ((f b).advance m blk off).answer m .written

/-- A 64-bit access of a queue by a master, the queue named by the command. -/
def Block.byQueue (b : Block) (m q reg : Nat) (write : Bool) (f : Block → Block) : Block :=
  if b.masterReady m = false then b
  else if (b.permits m (queueAddr reg) 8 write && b.queueRight m q) = false then b.violate m (queueAddr reg) 8 write
  else f b

/-! ### DMA transfers (R338, R339, R343) -/

/-- Why a transfer ends early. -/
inductive DmaStop where
  | bus
  | viol (addr n : Nat) (write : Bool)
  | stall
  deriving DecidableEq, Repr

/-- A transfer under way: the elements read, the holding register's bytes with their poison, the bytes written, whether poison was met. -/
structure DmaMove where
  blk : Block
  next : Nat
  hold : List (Byte × Bool)
  done : Nat
  poison : Bool
  stop : Option DmaStop

/-- An element as aligned accesses of the largest widths that fit (R339). -/
def dmaPieces : Nat → Nat → Nat → List (Nat × Nat)
  | 0, _, _ => []
  | _ + 1, _, 0 => []
  | f + 1, a, n =>
    let w := ([8, 4, 2, 1].find? (fun w => decide (w ≤ n) && a % w == 0)).getD 1
    (a, w) :: dmaPieces f (a + w) (n - w)

/-- One access of the source; `halt` is the address whose access never answers. -/
def DmaMove.read (m : Nat) (halt : Option Nat) (s : DmaMove) (p : Nat × Nat) : DmaMove :=
  if s.stop.isSome then s
  else if halt = some p.1 then { s with stop := some .stall }
  else if s.blk.accOk m p.1 p.2 false = false then { s with stop := some (.viol p.1 p.2 false) }
  else match s.blk.busLoad m p.1 p.2 with
    | (.value v, bad, b) =>
      { s with blk := b, hold := s.hold ++ (leBytes p.2 v).zip ((List.range p.2).map (fun i => s.blk.poisoned (p.1 + i))), poison := s.poison || bad }
    | (.stalled _, _, b) => { s with blk := b, stop := some .stall }
    | (_, _, b) => { s with blk := b, stop := some .bus }

/-- One access of the destination. -/
def DmaMove.write (m : Nat) (halt : Option Nat) (s : DmaMove) (p : Nat × Nat) : DmaMove :=
  if s.stop.isSome then s
  else if halt = some p.1 then { s with stop := some .stall }
  else if s.blk.accOk m p.1 p.2 true = false then { s with stop := some (.viol p.1 p.2 true) }
  else
    let now := s.hold.take p.2
    match s.blk.busStore m p.1 p.2 (leNat (now.map (·.1))) with
    | (.written, b) =>
      let b := ((List.range p.2).zip now).foldl (fun b e => if e.2.2 then b.poisonAt (p.1 + e.1) else b) b
      { s with blk := b, hold := s.hold.drop p.2, done := s.done + p.2 }
    | (_, b) => { s with blk := b, stop := some .bus }

/-- Whether source and destination share a byte. -/
def DmaSide.overlaps (s d : DmaSide) : Bool :=
  (List.range s.count).any (fun i => (List.range d.count).any (fun j =>
    decide (s.base + i * s.stride < d.base + j * d.stride + d.len) && decide (d.base + j * d.stride < s.base + i * s.stride + s.len)))

/-- The holding register's next element replaced by a free value. -/
def DmaMove.blur (d : DmaSide) (s : DmaMove) : DmaMove :=
  { s with blk := s.blk.draw.2, hold := ((leBytes d.width s.blk.draw.1).zip (s.hold.map (·.2))) ++ s.hold.drop d.width }

/-- Whole elements of the destination written from the holding register; where the sides overlap their contents are free values. -/
def DmaMove.drain (m : Nat) (halt : Option Nat) (d : DmaSide) (free : Bool) : Nat → DmaMove → DmaMove
  | 0, s => s
  | f + 1, s =>
    if s.stop.isSome = true ∨ s.hold.length < d.width then s
    else
      let s := if free then s.blur d else s
      DmaMove.drain m halt d free f ((dmaPieces 8 (d.addr s.done) d.width).foldl (DmaMove.write m halt) s)

/-- One element of the source and what of the destination it fills. -/
def DmaMove.element (m : Nat) (halt : Option Nat) (src dst : DmaSide) (free : Bool) (x : DmaMove) (i : Nat) : DmaMove :=
  let y := (dmaPieces 8 (src.addr (i * src.width)) src.width).foldl (DmaMove.read m halt) x
  DmaMove.drain m halt dst free 8 (if y.stop.isSome then y else { y with next := i + 1 })

/-- A transfer as its channel holds it; the answer of a read that waited in a queue is its next element, and a read that waits still stalls it. -/
def Block.dmaHeld (b : Block) (m c : Nat) : DmaMove :=
  let x := b.dmaCh c
  let p := x.prog
  let s : DmaMove := ⟨b, p.next, p.hold, x.done, p.poison, none⟩
  if p.waits = false then s
  else match Tbl.get b.resp m (.value 0) with
    | .value v => { s with next := p.next + 1, hold := p.hold ++ (leBytes 8 v).map (fun y => (y, false)) }
    | _ => { s with stop := some .stall }

/-- A channel's transfer from where it stands: until it ends, stalls or fails. -/
def Block.dmaMove (b : Block) (c : Nat) (halt : Option Nat) : DmaMove :=
  let s := b.dmaSrc c
  let d := b.dmaDst c
  let m := 52 + c / 16
  let free := s.overlaps d
  let x := DmaMove.drain m halt d free 8 (b.dmaHeld m c)
  ((List.range (s.total / s.width)).drop x.next).foldl (DmaMove.element m halt s d free) x

/-- The instant since which a mover's read stalls: its queue gave its last item, or the run began. -/
def Block.stallStart (b : Block) (m c : Nat) : Nat := max (b.dmaCh c).since (b.queue (b.queSel m)).fed

/-- A transfer kept where its read of an empty queue stalls it. -/
def DmaMove.kept (x : DmaMove) (m c : Nat) : Block :=
  let b := x.blk
  let y := b.dmaCh c
  let b := if y.prog.waits = true ∧ y.prog.next = x.next then b else b.answer m (.stalled (b.stallStart m c))
  b.setDmaCh c { y with done := x.done, prog := ⟨x.next, x.hold, x.poison, true⟩ }

/-- Whether a channel's source has a read that can stall: one of QUE.POP. -/
def Block.readsQueue (b : Block) (c : Nat) : Bool :=
  let s := b.dmaSrc c
  (List.range s.count).any (fun i => decide (s.base + i * s.stride ≤ queueAddr 0x58) && decide (queueAddr 0x58 < s.base + i * s.stride + s.len))

/-- What a transfer leaves that ended early. -/
def Block.dmaStopped (e c : Nat) (x : DmaMove) : DmaStop → Block
  | .bus => x.blk.dmaBusError c x.done
  | .viol a n w => (x.blk.setDmaCh c { x.blk.dmaCh c with done := x.done }).violate (52 + e) a n w
  | .stall => x.kept (52 + e) c

/-- A transfer that reads a queue takes, when it starts, the items that are there; then its read stalls (R348). -/
def Block.dmaAdvance (b : Block) (e : Nat) : Block :=
  match b.dmaRunning e with
  | none => b
  | some c =>
    if b.readsQueue c = false then b
    else
      let x := b.dmaMove c none
      match x.stop with
      | none => x.blk.setDmaCh c { x.blk.dmaCh c with done := x.done, prog := ⟨x.next, x.hold, x.poison, false⟩ }
      | some w => Block.dmaStopped e c x w

/-- DMA_CHANNEL_RUN: a free engine starts its lowest PENDING channel. -/
def Block.dmaGo (b : Block) (e : Nat) : Block := (b.dmaRun e).dmaAdvance e

/-- DMA_CHANNEL_COMPLETE: the transfer of the channel that an engine runs, and its end. A transfer whose read of an empty queue still
stalls is not complete. -/
def Block.dmaFinish (b : Block) (e : Nat) : Block :=
  match b.dmaRunning e with
  | none => b
  | some c =>
    let x := b.dmaMove c none
    match x.stop with
    | none => x.blk.dmaDone c x.done x.poison
    | some w => Block.dmaStopped e c x w

/-! ### The bus timeout (R453) -/

/-- The count, the IRQ and the event of a timeout. -/
def Block.timeoutNote (b : Block) (m addr : Nat) : Block :=
  ((b.count Reg.SYS_BUS_TIMEOUTS).irq Blk.sys 2).eventRep m 0x010C m addr

/-- The queue in which a master's read waits. -/
def Block.stalledIn (b : Block) (m : Nat) : Option Nat := (List.range 64).find? (fun q => (b.queue q).stalled.contains m)

/-- Whether a stalled access has reached SYS.BUS_TIMEOUT. -/
def Block.stallOver (b : Block) (m : Nat) : Bool :=
  (Tbl.get b.resp m (.value 0)).stallSince.any (fun s => decide (s + fld (b.vis Reg.SYS_BUS_TIMEOUT) 13 0 * 1000 ≤ b.t7))

/-- A stalled access of a memory mover's channel ends with a bus error: a read of QUE.POP whose queue has stayed empty for SYS.BUS_TIMEOUT, or an access of
another target, whose stall the command reports. -/
def Block.moverTimeout (b : Block) (c addr : Nat) : Block :=
  let m := 52 + c / 16
  if addr = queueAddr 0x58 then
    let x := b.dmaMove c none
    if x.stop = some .stall then
      let b := x.kept m c
      if b.stallOver m then (((b.readTimeout (b.queSel m) m).answer m .busError).timeoutNote m addr).dmaBusError c x.done else b
    else b
  else
    let x := b.dmaMove c (some addr)
    if x.stop = some .stall ∧ (b.dmaCh c).since + fld (b.vis Reg.SYS_BUS_TIMEOUT) 13 0 * 1000 ≤ b.t7 then (x.blk.timeoutNote m addr).dmaBusError c x.done
    else b

/-- A stalled access ends with a bus error. -/
def Block.busTimeout (b : Block) (m addr : Nat) : Block :=
  if m = 52 ∨ m = 53 then
    match b.dmaRunning (m - 52) with
    | none => b
    | some c => b.moverTimeout c addr
  else if b.stallOver m then
    let b := match b.stalledIn m with
      | some q => b.readTimeout q m
      | none => b
    ((b.firingSpoilt m).answer m .busError).timeoutNote m addr
  else b

end Sys2Proof.Machine
end

