-- ==== Sys2Proof/Machine/LoadOps.lean ====
section
/-! DEFINITION. LOAD: power-on and the steps of R431, the choice of the bank, the sections of an image and what their application checks
(R56, R63, R64, R114, R294, R331, R418, R423, R431 to R437). -/

namespace Sys2Proof.Machine

/-! ### Register writes by LOAD (R432) -/

/-- The copy of the SEL registers that LOAD's own writes use. -/
def Load.master : Nat := 63

/-- LOAD's write of a register: what a write does, with every RWS field in the shadow and in the active copy; a section's setting
(`all`) also reaches the fields that software only reads (R432). A locked register takes no second value. -/
def Block.loadReg (b : Block) (all : Bool) (x : RegAt) (w : Word) : Block :=
  let d := x.desc
  let lck := d.fields.any (fun f => f.acc == .lck)
  if lck = true ∧ b.regs.locked.contains x.key = true then b
  else
    let b :=
      match b.regAct Load.master x w with
      | some b => b
      | none =>
        let old := b.vis d x.idx x.k
        let b := b.setVis d x.idx x.k (if all then d.set old (b.fitted x w) else d.write old (b.fitted x w))
        if lck then b.lockKey x.key else b
    let b := if d.fields.any (fun f => f.acc == .rws) then b.setAct d x.idx x.k (b.vis d x.idx x.k) else b
    b.ctxClean x

/-- A masked write by bus address (Table 18.10): a mask that is not all ones reads the register first; none where the address is no
control register's, nothing where the block has no register there (R1, R448). -/
def Block.loadWrite (b : Block) (all : Bool) (addr mask value : Nat) : Option Block :=
  if 0xF0000000 ≤ addr ∧ addr < 0xF0190000 ∧ addr % 4 = 0 then
    match b.tuneAt Load.master addr with
    | none => some b
    | some x =>
      let q := if mask % 2 ^ 32 = 0xFFFFFFFF then (0, b) else b.regRead Load.master x.desc.blk (addr % 65536)
      let old := w32 q.1
      let b := q.2.loadReg all x ((old &&& ~~~(w32 mask)) ||| (w32 value &&& w32 mask))
      some (b.advance Load.master x.desc.blk (addr % 65536))
  else none

/-- LOAD's register writes are over: no set waits, its SEL copies are gone. -/
def Regs.loaded (r : Regs) : Regs :=
  { r with
    vis := r.vis.filter (fun e =>
      match Reg.find (keyBlk e.1) (keySpace e.1) (keyOff e.1) with
      | some (d, _) => !(d.banked && keyInst e.1 == Load.master)
      | none => true)
    com := []
    late := (0, [])
    wrote := (0, [])
    handed := (0, [])
    dirty := [] }

/-- The block with the registers so. -/
def Block.regsLoaded (b : Block) : Block := { b with regs := b.regs.loaded }

/-! ### Sections (Table 18.8) -/

/-- One item of a section; `false` once the section has been refused. -/
def Block.loadItem (all : Bool) (a : Bool × Block) (i : LoadItem) : Bool × Block :=
  let b := a.2
  if a.1 = false then a
  else match i with
    | .reg addr mask value => match b.loadWrite all addr mask value with | some b => (true, b) | none => (false, b)
    | .bytes addr data => (true, b.store addr data)
    | .graphOp op d => (true, { b with dfe := { b.dfe with graph := Tbl.ins b.dfe.graph op d } })
    | .table 1 s v => (true, { b with out := { b.out with ana := Tbl.ins b.out.ana s (Tbl.get b.out.ana s [] ++ [v]) } })
    | .table 2 g v => (true, { b with cas := { b.cas with offset := Tbl.ins b.cas.offset g (v % 2 ^ 32, v / 2 ^ 32) } })
    | .table 3 g v => (true, { b with cas := { b.cas with proxy := Tbl.ins b.cas.proxy g v } })
    | .table 4 c v => (true, { b with cas := { b.cas with export_ := Tbl.ins b.cas.export_ c v } })
    | .table 5 _ v => (true, { b with out := { b.out with cfgCnt := v % 65536 } })
    | .table 6 k v => (true, { b with cas := { b.cas with scales := Tbl.ins b.cas.scales k (v % 2 ^ 32) } })
    | .table 7 k v => (true, { b with alm := { b.alm with names := Tbl.ins b.alm.names k v } })
    | .table 8 p v => (true, { b with rad := { b.rad with hops := Tbl.ins b.rad.hops p (Tbl.get b.rad.hops p [] ++ [v]) } })
    | .table _ _ _ => (true, b)
    | .extension slot data sig =>
      (decide (2 ≤ slot) && decide (slot ≤ 7) && b.pk slot != 0 && ecdsaOk (leBytes 64 (b.pk slot)) data sig, b)
    | .refuse => (false, b)

/-- PUBKEYS: PK2 to PK7. -/
def Block.loadKeys (b : Block) (body : List Byte) : Bool × Block :=
  if body.length ≠ 384 then (false, b)
  else (true, { b with key := { b.key with
    pk := (List.range 6).foldl (fun t i => Tbl.ins t (2 + i) (leNat (slice body (64 * i) 64))) b.key.pk } })

/-- LEAPS: the expiry and the entries, 64 at most; those that TB0 has passed are not applied again (R256, R258). -/
def Block.loadLeaps (b : Block) (body : List Byte) : Bool × Block :=
  let n := leAt body 6 2
  let t := (List.range n).map (fun i => (leAt body (16 + 16 * i) 6, sgn 16 (leAt body (22 + 16 * i) 2)))
  if body.length < 16 + 16 * n ∨ 64 < n then (false, b)
  else (true, ({ b with tim := { b.tim with leapExpiry := leAt body 0 6, leapExpired := false, leaps := t } }).leapsPassed)

/-- One REGSEQ entry. -/
def Block.loadEntry (a : Bool × Block) (e : TuneEntry) : Bool × Block :=
  match e with
  | .write addr mask value => Block.loadItem false a (.reg addr mask value)
  | _ => (false, a.2)

/-- A section applied; `false` where it is refused. -/
def Block.loadSection (b : Block) (type : Nat) (body : List Byte) : Bool × Block :=
  match type with
  | 0x0A => b.loadKeys body
  | 0x0B => b.loadLeaps body
  | 1 =>
    if body.length % 16 ≠ 0 then (false, b)
    else ((List.range (body.length / 16)).map (fun i => TuneEntry.ofBytes (slice body (16 * i) 16))).foldl Block.loadEntry (true, b)
  | _ => (Config.sectionItems type body).foldl (Block.loadItem true) (true, b)

/-- The order of application. -/
def Load.order : List Nat := [0x0A, 0x0B, 1, 2, 3, 4, 5, 6, 7, 8, 0x0C, 9]

/-- The sections of an image in that order; `false` once one is refused. -/
def Block.loadSections (b : Block) (x : Image) : Bool × Block :=
  Load.order.foldl (fun (a : Bool × Block) t =>
    match x.secs.find? (fun s => s.1 == t) with
    | some (_, _, off, len) =>
      let r := a.2.loadSection t (a.2.loadFlash (x.bank * 0x4000000 + off) len)
      (a.1 && r.1, r.2)
    | none => a) (true, b)

/-! ### What the application checks (step 7 of Table 18.9) -/

/-- The hardware-path contexts with a lookup key: not those of the local points (R275). -/
def Block.keyed (b : Block) : List Nat :=
  (b.listed Reg.STR_CTX_PORT_ID).filter (fun c => !b.cb Reg.STR_CTX_CTRL c 30 && !b.localCtx c)

/-- A context's lookup key (R63). -/
def Block.lookupKey (b : Block) (c : Nat) : List Byte :=
  b.strSrc c ++ beBytes 2 (b.cf Reg.STR_CTX_PORT_ID c 15 0) ++ [BitVec.ofNat 8 (b.cf Reg.STR_CTX_CTRL c 15 12), BitVec.ofNat 8 (b.strBlockIdx c)] ++
    beBytes 2 (b.cf Reg.STR_CTX_PORT_ID c 31 16) ++ b.strSvid c

/-- The keys in the buckets of R64: those of table A at even numbers, of table B at odd ones. -/
abbrev Buckets := Tbl (List (List Byte))

/-- The bucket of a key in a table. -/
def bucketOf (hash table : Nat) (k : List Byte) : Nat := 2 * (Config.bucket hash table k % 4096) + table

/-- A key put in the place of a resident of a full bucket, which goes to its alternate bucket, and so on, for at most `f` displacements; the
number of displacements left where one finds room (step 3 of R64). -/
def displace (hash : Nat) : Nat → List Byte → Nat → Buckets → Option (Buckets × Nat)
  | 0, _, _, _ => none
  | f + 1, k, at_, t =>
    let l := Tbl.get t at_ []
    let i := Config.victim hash f k % 4
    let v := l.getD i []
    let t := Tbl.put t at_ (l.set i k) []
    let alt := bucketOf hash (1 - at_ % 2) v
    let m := Tbl.get t alt []
    if m.length < 4 then some (Tbl.put t alt (m ++ [v]) [], f) else displace hash f v alt t

/-- The placement of the keys in ascending order of their contexts (R64): the CAM entries used and the longest displacement; none once the
CAM is full. A key whose displacements fail takes its CAM entry and leaves the buckets as they were. -/
def placeAll (hash : Nat) : List (List Byte) → Buckets → Nat → Nat → Option (Nat × Nat)
  | [], _, cam, far => some (cam, far)
  | k :: r, t, cam, far =>
    let a := bucketOf hash 0 k
    let c := bucketOf hash 1 k
    let la := Tbl.get t a []
    let lc := Tbl.get t c []
    if la.length < 4 ∨ lc.length < 4 then
      placeAll hash r (if la.length ≤ lc.length then Tbl.put t a (la ++ [k]) [] else Tbl.put t c (lc ++ [k]) []) cam far
    else match displace hash 128 k (if Config.victim hash 128 k % 2 = 0 then a else c) t with
      | some (t, left) => placeAll hash r t cam (max far (128 - left))
      | none => if cam < 64 then placeAll hash r t (cam + 1) 128 else none

/-- The placement under a hash key: whether it succeeds, CAM entries used, the longest displacement. -/
def placement (hash : Nat) (keys : List (List Byte)) : Bool × Nat × Nat :=
  match placeAll hash keys [] 0 0 with
  | some (cam, far) => (true, cam, far)
  | none => (false, 64, 128)

/-- A fresh hash key and the placement's report. -/
def Block.place (b : Block) : Bool × Block :=
  let q := b.draw
  let lo := q.1
  let b := q.2
  let q := b.draw
  let hi := q.1
  let b := q.2
  let hash := lo + 2 ^ 64 * hi
  let (ok, cam, disp) := placement hash (b.keyed.map b.lookupKey)
  let b : Block := { b with str := { b.str with hashKey := hash } }
  let b := b.setVis Reg.STR_HASH_STATUS 0 0 (w32 (b2n ok * 2 ^ 31 + cam * 65536 + disp * 256))
  (ok, if ok then b else b.event 0x0401)

/-- Two valid listeners of one UDP port. -/
def Block.listenersOk (b : Block) : Bool :=
  noTwice (((List.range 16).filter (fun n => bit (b.vis Reg.STR_LISTEN 0 n).toNat 31)).map (fun n => fld (b.vis Reg.STR_LISTEN 0 n) 15 0))

/-- Two contexts of one key. -/
def Block.keysOk (b : Block) : Bool :=
  let ks := b.keyed.map (fun c => leNat (b.lookupKey c))
  noTwice ks

/-- Whether an image defines a context: a stream's, a local point's or a radio node's. -/
def Block.ctxDefined (b : Block) (c : Nat) : Bool :=
  b.vis Reg.STR_CTX_PORT_ID c != 0 || b.cb Reg.STR_CTX_CTRL c 30 ||
    (List.range 4).any (fun p => b.cb Reg.SDM_PT_CFG p 31 && b.cf Reg.SDM_PT_CFG p 12 0 == c) ||
    (b.listed Reg.RAD_NODE_CFG).any (fun n => b.cf Reg.RAD_NODE_CFG n 12 0 == c)

/-- Every member entry names a context that exists (R114). -/
def Block.membersOk (b : Block) : Bool :=
  (b.listed Reg.OUT_STR_CFG).all (fun s =>
    let (first, n) := b.outParts s
    (List.range n).all (fun i => (b.outMembers s (first + i)).all (fun m =>
      if m.ctx < 8192 then b.ctxDefined m.ctx else b.casMaster && (b.cas.offset.any (fun e => e.1 == m.ctx)))))

/-- The checks in their order; 0 where all pass. -/
def Block.loadCheck (b : Block) (refused : Bool) : Nat × Block :=
  let q := b.place
  let ok := q.1
  let b := q.2
  (if ok = false then 7 else if b.listenersOk = false then 8 else if b.keysOk = false then 9 else if b.membersOk = false then 10
    else if refused then 11 else 0, b)

/-! ### The applied image -/

/-- A count in MRAM incremented; it saturates (R8, R361). -/
def Block.countUp (b : Block) (addr : Nat) : Block := b.storeN addr 4 (min 4294967295 (b.loadN addr 4 + 1))

/-- TB5 and TB6 by the roles that the image gives, with their EN written by RAD and CAS (Table 9.1, TB_CFG), TB1 to TB4 disciplined. -/
def Block.timeRoles (b : Block) : Block :=
  let disc (n : Nat) : TimeBase := { b.tb n with virtual := false }
  let follow (n : Nat) : TimeBase := { b.tb n with virtual := true, refTb0 := true, va := b.tb0Fine, na := b.now, rho := 0 }
  let b := [1, 2, 3, 4].foldl (fun b n => b.setTb n (disc n)) b
  let en (b : Block) (n : Nat) (on : Bool) : Block :=
    let w := setFld (b.cfg Reg.TIM_TB_CFG n) 31 31 (b2n on)
    (b.setVis Reg.TIM_TB_CFG n 0 w).setAct Reg.TIM_TB_CFG n 0 w
  let b := en (b.setTb 5 (if b.radOn && !b.radChild then follow 5 else disc 5)) 5 b.radOn
  en (b.setTb 6 (if b.casMaster then follow 6 else disc 6)) 6 (b.cb Reg.CAS_CFG 0 31)

/-- The ports take the settings that LOAD wrote. -/
def Block.portsApply (b : Block) : Block := (List.range 30).foldl (fun b p => (b.portCfgApply p false).portCfgApply p true) b

/-- The member straps, where the image takes them (R114, R370). -/
def Block.strapsRead (b : Block) : Block :=
  if b.cb Reg.CAS_CFG 0 30 then b.setVis Reg.CAS_CFG 0 0 (setFld (b.vis Reg.CAS_CFG) 26 24 b.sys.straps) else b

/-- BAND_3's default upper edge, the lesser of 14.00 Hz and 0.4 × F_base (Table 6.3), where the image leaves the band at its default. -/
def Block.bandDefault (b : Block) : Block :=
  let h := 40 * b.ringRate 0
  if b.cfg Reg.RPL_BAND 0 3 = 0x057800FA ∧ h < 1400 then (b.setVis Reg.RPL_BAND 0 3 (w32 (h * 65536 + 250))).setAct Reg.RPL_BAND 0 3 (w32 (h * 65536 + 250))
  else b

/-- ZC_CH's default, Va of the point (Table 10.8), where the image leaves ZC_CFG at its default. -/
def Block.zcDefault (b : Block) : Block :=
  (List.range 4).foldl (fun b p =>
    let va := bits (b.cn Reg.SDM_PT_VCH p) 4 0
    let w := setFld (b.cfg Reg.NRG_ZC_CFG p) 20 16 va
    if b.cfg Reg.NRG_ZC_CFG p = Reg.NRG_ZC_CFG.rst p 0 ∧ va < 16 then (b.setVis Reg.NRG_ZC_CFG p 0 w).setAct Reg.NRG_ZC_CFG p 0 w else b) b

/-- What an applied image leaves: the ports, the role epoch, the counts, the generation, the pulse outputs armed (R261), the first
synchronising reset. -/
def Block.imageEffect (b : Block) (bank : Nat) : Block :=
  let b := (((b.portsApply).timeRoles).drawPortIds).drawOutIds
  let b := ((b.countUp 0x407F2000).bandDefault.zcDefault).regsLoaded
  let b : Block := { b with
    alm := { b.alm with appid := (List.range 8).map (fun p => (p, b.cn Reg.ALM_PUB_CFG 0 p % 65536)) }
    dfe := { b.dfe with gen := 1 }
    red := { b.red with epoch := b.loadN 0x407F2010 4 }
    sys := { b.sys with
      paired := b.redOn
      cascade := b.cb Reg.CAS_CFG 0 31
      bank := bank
      trial := b.boot.trial
      imgVersion := b.imgN bank 12 4
      imgRollback := b.imgN bank 16 4
      pairCompat := b.imgN bank 20 2
      imgId := b.imgN bank 56 32
      imageApplied := true } }
  let b := (List.range 8).foldl Block.poArm b.modalReset
  if b.cb Reg.SDM_CFG 0 31 then b.sdmSyncAt 1 else b

/-! ### The banks (R432, R436, R437) -/

/-- The regions of the boot ROM. -/
def Block.bootRegions (b : Block) : Block :=
  ((Config.sectionItems 0 []).foldl (Block.loadItem true) (true, b)).2.regsLoaded

/-- The state of a die reset in LOAD, with MRAM, flash, the battery-backed domain and what the outside shows kept. -/
def Block.blocksReset (b : Block) : Block :=
  let r := b.dieState
  let kept (k : Nat) : Bool := [Blk.tim, Blk.mem, Blk.evr, Blk.nrg].contains (keyBlk k)
  let b : Block := { r with
    t7 := b.t7
    rep := b.rep.filter (fun e => decide (e.1 % 65536 / 256 ≠ 0x0B))
    mem := b.mem
    evr := b.evr
    tim := b.tim
    mm := b.mm
    nrg := b.nrg
    regs := { vis := b.regs.vis.filter (fun e => kept e.1), act := b.regs.act.filter (fun e => kept e.1), com := [], late := (0, []), wrote := (0, []), handed := (0, []), dirty := [],
              locked := b.regs.locked.filter kept, fresh := b.regs.fresh }
    sys := { r.sys with bankMask := b.sys.bankMask } }
  b.bootRegions

/-- One bank checked and applied: its result. -/
def Block.tryBank (b : Block) (bank : Nat) : Nat × Block :=
  let r := b.imgCheck bank
  if r ≠ 0 then (r, b)
  else
    let q := b.loadSections (b.image bank).1
    let ok := q.1
    let b := q.2.strapsRead
    let q := b.loadCheck !ok
    let r := q.1
    let b := q.2
    if r ≠ 0 then (r, b.blocksReset) else (0, b.imageEffect bank)

/-- The boot pointer reverted to the other bank, CONFIRMED. -/
def Block.revert (b : Block) : Block :=
  let p := b.boot
  (b.bootWrite { p with bank := 1 - p.bank, trial := false, attempts := 0 }).event 0x0103

/-- Rules 1 and 2 of R437. -/
def Block.pointerReady (b : Block) : Block :=
  let p := b.boot
  if p.trial = false then b else if 3 ≤ p.attempts then b.revert else b.bootWrite { p with attempts := p.attempts + 1 }

/-- SYS.LOAD_RESULT. -/
def Block.loadReport (b : Block) (bank : Nat) (loaded : Bool) (other first : Nat) : Block :=
  { b with sys := { b.sys with loadResult := bank * 2 ^ 31 + b2n loaded * 2 ^ 30 + other * 256 + first } }

/-- The other bank, once the first has failed. -/
def Block.fallback (b : Block) (bank first : Nat) : Block :=
  let b := if b.boot.trial then b.revert else b
  let b := b.event 0x0105 0xFFFF (first + 256 * bank)
  let q := b.tryBank (1 - bank)
  let r := q.1
  let b := q.2
  if r = 0 then b.loadReport (1 - bank) true 0 first
  else
    let b := b.event 0x0104 0xFFFF (first + 256 * bank) (r + 256 * (1 - bank))
    (b.loadReport bank false r first).enterHalt 1

/-- The image chosen, verified and applied. -/
def Block.loadImage (b : Block) : Block :=
  let b := b.pointerReady
  let bank := b.boot.bank
  let q := b.tryBank bank
  let r := q.1
  let b := q.2
  if r = 0 then b.loadReport bank true 255 0 else b.fallback bank r

/-! ### The steps of R431 -/

/-- The tamper log passed to the recorder and emptied (R423). -/
def Block.tamperLog (b : Block) : Block :=
  let note (b : Block) (e : TamperEntry) : Block :=
    b.eventAt 0x1503 e.source e.elapsed e.flags (b.nrg.unmetered + e.elapsed * nsPerS) true none
  let b := b.tam.log.foldl note b
  let b := b.event 0x1505 0xFFFF b.tam.log.length (b2n b.tam.overflow)
  { b with tam := { b.tam with log := [], overflow := false } }

/-- The event of a retry or restart. -/
def Block.restartEvent (b : Block) : Block :=
  match b.sys.restartWaits with
  | some c => ({ b with sys := { b.sys with restartWaits := none } } : Block).event 0x0102 0xFFFF c
  | none => b

/-- The sub-channel, bank group and bank of the 64-byte line at a physical address under the mask of this LOAD (R112). -/
def Block.dramPlace (b : Block) (pa : Nat) : Nat × Nat × Nat :=
  let m := b.sys.bankMask
  (bits pa 7 6 ^^^ bits pa 16 15 ^^^ bits m 1 0, bits pa 10 8 ^^^ bits pa 19 17 ^^^ bits m 4 2, bits pa 12 11 ^^^ bits pa 21 20 ^^^ bits m 6 5)

/-- The DRAM after training, and a fresh bank mask (R112). -/
def Block.dramReady (b : Block) : Block :=
  let b := b.zeroRange 0x1000000000 0x800000000
  let q := b.draw
  let v := q.1
  let b := q.2
  { b with sys := { b.sys with bankMask := v % 128 } }

/-- LOAD from step 1 on. -/
def Block.loadRun (b : Block) : Block :=
  let b := (b.bootRegions).evrScan
  let b := (b.energyResume).tamperLog
  (((b.restartEvent).remapRestore).dramReady).loadImage

/-- A module that mains power comes to: as after a die reset; a HALT that the loss of power ended is the cause of the restart. -/
def Block.mainsOn (b : Block) : Block :=
  let halt := b.sys.mode == .halt
  let c := b.sys.haltCause
  let r := b.dieState
  { r with sys := { r.sys with
      restartWaits := if halt then some c else none
      lastHaltCause := if halt then c else b.sys.lastHaltCause } }

/-- POWER_ON: mains power applied, or LOAD after a die reset; the straps are read once, and J7 supplies the modulators from the release
of the reset on (R468). -/
def Block.powerOn (b : Block) (mains : Bool) (straps : Nat) : Block :=
  if mains = false ∧ (b.sys.mode ≠ .load ∨ b.sys.imageApplied = true) then b
  else
    let b := if mains then b.mainsOn else b
    ({ b with t7 := 0, sys := { b.sys with straps := straps % 8 }, pwr := { b.pwr with modSupply := true } } : Block).loadRun

end Sys2Proof.Machine
end

