-- ==== Sys2Proof/WellFormed.lean ====
section
/-! DEFINITION. Which commands name instances that the hardware has. -/

namespace Sys2Proof

/-- The bus masters of Table 16.7. -/
def Wf.master (m : Nat) : Bool := decide (m < 55)

/-- The rings (R11). -/
def Wf.ring (r : Nat) : Bool := decide (r < 2)

/-- The stream contexts (R54). -/
def Wf.context (c : Nat) : Bool := decide (c < 8192)

/-- The ports of Table 2.1. -/
def Wf.port (p : Nat) : Bool := decide (p < 30)

/-- The ports that run peer delay (R248). -/
def Wf.wirePort (p : Nat) : Bool := decide (p < 29)

/-- The filter entries of a port (R37, R38). -/
def Wf.filter (e : Nat) : Bool := decide (e < 48)

/-- The bridge pairs (R44). -/
def Wf.bridge (p : Nat) : Bool := decide (p < 12)

/-- The egress classes (R48). -/
def Wf.egress (c : Nat) : Bool := decide (c < 4)

/-- The output streams (R113). -/
def Wf.stream (s : Nat) : Bool := decide (s < 64)

/-- The parts (R114). -/
def Wf.part (p : Nat) : Bool := decide (p < 1024)

/-- The sessions (R128). -/
def Wf.session (s : Nat) : Bool := decide (s < 64)

/-- The fabric cores (R203). -/
def Wf.core (c : Nat) : Bool := decide (c < 48)

/-- The sources of tokens that the sluice may hold (R215): the fabric cores, and 48 for the engines. -/
def Wf.source (c : Nat) : Bool := decide (c < 49)

/-- The DI inputs, the pulse outputs. -/
def Wf.pin (p : Nat) : Bool := decide (p < 8)

/-- The AO pins (R195). -/
def Wf.aoPin (p : Nat) : Bool := decide (p < 16)

/-- The publishers (R198). -/
def Wf.publisher (p : Nat) : Bool := decide (p < 8)

/-- The time bases but TB7 (Table 9.1). -/
def Wf.timeBase (n : Nat) : Bool := decide (n < 7)

/-- The time bases whose measurements have no frame of their own (Table 9.2). -/
def Wf.measuredBase (n : Nat) : Bool := decide (n < 5)

/-- The modulator channels (R265). -/
def Wf.channel (c : Nat) : Bool := decide (c < 16)

/-- The metering points (R275). -/
def Wf.point (p : Nat) : Bool := decide (p < 4)

/-- The counters of a point (R287). -/
def Wf.counter (i : Nat) : Bool := decide (i < 32)

/-- TRG0 and TRG1. -/
def Wf.trigger (p : Nat) : Bool := decide (p < 2)

/-- The capture units (R296). -/
def Wf.capture (u : Nat) : Bool := decide (u < 8)

/-- The radio units (R309). -/
def Wf.radioUnit (u : Nat) : Bool := decide (u < 4)

/-- The memories of Table 13.1. -/
def Wf.memory (m : Nat) : Bool := decide (m < 10)

/-- DMA-T and DMA-B (R335). -/
def Wf.engine (e : Nat) : Bool := decide (e < 2)

/-- The queues (R344). -/
def Wf.queue (q : Nat) : Bool := decide (q < 64)

/-- The archive groups (R353). -/
def Wf.group (g : Nat) : Bool := decide (g < 16)

/-- The Tabusk links (R370). -/
def Wf.link (l : Nat) : Bool := decide (l < 2)

/-- The members of a cascade (R370). -/
def Wf.member (m : Nat) : Bool := decide (m < 8)

/-- The heartbeat paths (R382). -/
def Wf.path (p : Nat) : Bool := decide (p < 2)

/-- The host cores (R452). -/
def Wf.hart (h : Nat) : Bool := decide (h < 4)

/-- The widths of a bus access in bytes (R447). -/
def Wf.width (n : Nat) : Bool := [1, 2, 4, 8].contains n

/-- A command is well formed when every instance it names exists. -/
def Instr.wf (i : Instr) : Bool :=
  match i with
  | .registerWrite _ m _ width _ => Wf.master m && Wf.width width
  | .rcRead _ m _ width => Wf.master m && Wf.width width
  | .latchingRead _ m _ width => Wf.master m && Wf.width width
  | .tick _ ring => Wf.ring ring
  | .weirADeadline _ ring _ => Wf.ring ring
  | .weirASpacingElapsed _ ring _ => Wf.ring ring
  | .weirBDeadline _ ring _ => Wf.ring ring
  | .recordMark _ ring _ ctx => Wf.ring ring && Wf.context ctx
  | .tagExpiry _ ring _ => Wf.ring ring
  | .retentionEnd _ ring _ => Wf.ring ring
  | .missingHeadersDone _ ring _ => Wf.ring ring
  | .frameReceive _ port _ => Wf.port port
  | .linkUp _ port _ _ => Wf.port port
  | .linkDown _ port _ => Wf.port port
  | .sfpChange _ port _ => Wf.port port
  | .cagePower _ cut => Wf.port cut.port
  | .portCfgApply _ port _ => Wf.port port
  | .filterEntryCommit _ m entry _ => Wf.master m && Wf.filter entry
  | .forwardEgress _ port => Wf.port port
  | .tcEntryTimeout _ pair => Wf.bridge pair
  | .frameTransmit _ port => Wf.port port
  | .largeSend _ port cls _ => Wf.port port && Wf.egress cls
  | .udpFragmentSend _ port cls _ => Wf.port port && Wf.egress cls
  | .streamFrameIngest _ port _ _ => Wf.port port
  | .reassemblyTimeout _ => true
  | .injectionProcess _ => true
  | .strCommit _ m => Wf.master m
  | .alnCommit _ m => Wf.master m
  | .ctxRelearn _ m => Wf.master m
  | .timedLaunch _ ring _ stream => Wf.ring ring && Wf.stream stream
  | .outBasinRelease _ ring _ => Wf.ring ring
  | .sessOpen _ m => Wf.master m
  | .sessClose _ m => Wf.master m
  | .sessReset _ m => Wf.master m
  | .sessSendAck _ m => Wf.master m
  | .sessAckWrite _ m _ => Wf.master m
  | .sessRetx _ m _ => Wf.master m
  | .sessionSegmentSend _ sess => Wf.session sess
  | .sessStallReset _ sess => Wf.session sess
  | .cmdDataOff _ => true
  | .cmdDataOn _ => true
  | .cmdSendHeader _ => true
  | .cmdSendCfg1 _ => true
  | .cmdSendCfg2 _ => true
  | .cmdSendCfg3 _ => true
  | .cmdExtendedFrame _ => true
  | .cmdUnknown _ => true
  | .resendWindowExpiry _ ring _ stream part => Wf.ring ring && Wf.stream stream && Wf.part part
  | .outCommit _ m => Wf.master m
  | .firingDispatch _ => true
  | .firingComplete _ core _ => Wf.core core
  | .sluiceRelease _ source => Wf.source source
  | .dfeInject _ m _ _ => Wf.master m
  | .coreReleaseCmd _ m => Wf.master m
  | .coreMemFault _ core => Wf.core core
  | .coreHalt _ core => Wf.core core
  | .coreResume _ core => Wf.core core
  | .dfeCommit _ m => Wf.master m
  | .acceleratorSolveDone _ _ => true
  | .ringdownEnd _ => true
  | .rdSkipElapsed _ => true
  | .gatherComplete _ => true
  | .rplCommit _ m => Wf.master m
  | .islPublish _ => true
  | .defResetCmd _ m => Wf.master m
  | .aoPulseEnd _ pin => Wf.aoPin pin
  | .diChange _ input _ _ => Wf.pin input
  | .gooseRepeat _ pub _ => Wf.publisher pub
  | .islCommit _ m => Wf.master m
  | .almCommit _ m => Wf.master m
  | .timeMeasurement _ tb _ _ => Wf.measuredBase tb
  | .sourceQualified _ tb _ => Wf.timeBase tb
  | .sourceLost _ tb _ => Wf.timeBase tb
  | .pdelayReqSend _ port => Wf.wirePort port
  | .pdelayRespTimeout _ port => Wf.wirePort port
  | .irigFrame _ _ _ _ _ _ => true
  | .ppsEdge _ => true
  | .todSentence _ _ _ => true
  | .oscSwitch _ _ => true
  | .lockHoldElapsed _ tb => Wf.timeBase tb
  | .holdoverErrorLimit _ tb => Wf.timeBase tb
  | .tbVrateWrite _ m _ => Wf.master m
  | .tbVstepWrite _ m _ => Wf.master m
  | .leapSecond _ => true
  | .pulseEdge _ po => Wf.pin po
  | .pulseEnd _ po => Wf.pin po
  | .tbNowRead _ m => Wf.master m
  | .timCommit _ m => Wf.master m
  | .timShadowHandover _ => true
  | .decimatorOutput _ ch _ _ => Wf.channel ch
  | .sdmSyncCmd _ m => Wf.master m
  | .syncReset _ => true
  | .chFault _ ch => Wf.channel ch
  | .chRecover _ ch => Wf.channel ch
  | .localRecordHandover _ point _ => Wf.point point
  | .zeroCrossing _ point => Wf.point point
  | .zcTimeout _ point => Wf.point point
  | .nrgSnap _ m => Wf.master m
  | .nrgClear _ m => Wf.master m
  | .nrgCounterRead _ m index => Wf.master m && Wf.counter index
  | .periodicSave _ => true
  | .energySaveDone _ _ => true
  | .sdmCommit _ m => Wf.master m
  | .nrgCommit _ m => Wf.master m
  | .captureForce _ m => Wf.master m
  | .captureRelease _ m => Wf.master m
  | .trgInputEdge _ pin _ => Wf.trigger pin
  | .captureSeal _ unit => Wf.capture unit
  | .holdoffEnd _ unit => Wf.capture unit
  | .busAct _ => true
  | .capCommit _ m => Wf.master m
  | .radioSlot _ => true
  | .uplinkFrame _ unit _ _ => Wf.radioUnit unit
  | .uplinkMissed _ unit => Wf.radioUnit unit
  | .downlinkAcked _ unit _ => Wf.radioUnit unit
  | .downlinkUnacked _ unit => Wf.radioUnit unit
  | .dlPost _ m => Wf.master m
  | .pendSet _ m _ => Wf.master m
  | .pendClr _ m _ => Wf.master m
  | .parentFrame _ _ _ _ => true
  | .parentGuardWiden _ => true
  | .parentScan _ => true
  | .radCommit _ m => Wf.master m
  | .correctedError _ mem _ => Wf.memory mem
  | .uncorrectableError _ mem _ => Wf.memory mem
  | .ceWriteback _ mem => Wf.memory mem
  | .scrubStep _ mem => Wf.memory mem
  | .scrubStarved _ mem => Wf.memory mem
  | .remapCmd _ m => Wf.master m
  | .remapErase _ m => Wf.master m
  | .diagRawRead _ m => Wf.master m
  | .diagRawWrite _ m => Wf.master m
  | .diagDataWrite _ m => Wf.master m
  | .diagCheckWrite _ m => Wf.master m
  | .memCommit _ m => Wf.master m
  | .dmaStart _ m => Wf.master m
  | .dmaCommit _ m => Wf.master m
  | .dmaClearHalt _ m => Wf.master m
  | .dmaChannelRun _ engine => Wf.engine engine
  | .dmaChannelComplete _ engine => Wf.engine engine
  | .queuePush _ m q _ => Wf.master m && Wf.queue q
  | .queuePushEop _ m q _ => Wf.master m && Wf.queue q
  | .queuePop _ m q => Wf.master m && Wf.queue q
  | .queueTrypop _ m q => Wf.master m && Wf.queue q
  | .queueFlush _ m => Wf.master m
  | .queueEnable _ m _ _ => Wf.master m
  | .queueDisable _ m => Wf.master m
  | .archiveFrameStart _ group => Wf.group group
  | .archiveSegmentWrite _ group => Wf.group group
  | .cmpResume _ m _ => Wf.master m
  | .cmpJobGo _ m => Wf.master m
  | .cmpJobStart _ => true
  | .cmpJobDone _ => true
  | .cmpCtxReset _ m => Wf.master m
  | .cmpCommit _ m => Wf.master m
  | .tabuskFrameRx _ link _ => Wf.link link
  | .tabuskLinkDown _ link => Wf.link link
  | .tabuskLinkUp _ link member _ _ => Wf.link link && Wf.member member
  | .timeFrameSend _ => true
  | .delayExchange _ link _ => Wf.link link
  | .memberLost _ member => Wf.member member
  | .timeFault _ => true
  | .renewSend _ => true
  | .heartbeatRenewRx _ path _ _ => Wf.path path
  | .heartbeatAckRx _ path _ _ => Wf.path path
  | .heartbeatFailRx _ path _ _ => Wf.path path
  | .heartbeatReleaseRx _ path _ _ _ => Wf.path path
  | .heartbeatHelloRx _ path _ _ => Wf.path path
  | .heartbeatNakRx _ path _ _ => Wf.path path
  | .pathDown _ path => Wf.path path
  | .leaseExpiry _ => true
  | .takeoverTimeout _ => true
  | .checkpointRx _ _ => true
  | .restoreDone _ => true
  | .roleListenEnd _ => true
  | .redHandoverCmd _ m => Wf.master m
  | .failbackHolddownEnd _ => true
  | .handoverControlRx _ _ _ _ _ => true
  | .handoverOutputStop _ => true
  | .loadSecret _ m => Wf.master m
  | .eraseSecret _ m => Wf.master m
  | .setEpoch _ m => Wf.master m
  | .setOwner _ m => Wf.master m
  | .debugAuth _ m => Wf.master m
  | .keyInstall _ => true
  | .tamperEvent _ _ _ => true
  | .accViolation _ m _ size _ => Wf.master m && Wf.width size
  | .accRelease _ m => Wf.master m
  | .eventEntryWrite _ => true
  | .evrFreeze _ m => Wf.master m
  | .evrThaw _ m => Wf.master m
  | .freezeTimeout _ => true
  | .evrClear _ m _ => Wf.master m
  | .clrUnlock _ m _ => Wf.master m
  | .evrCommit _ m => Wf.master m
  | .modeReqMaintenance _ m _ => Wf.master m
  | .modeReqActive _ m => Wf.master m
  | .modeReqDebug _ m => Wf.master m
  | .modeReqHalt _ m => Wf.master m
  | .modeReqInvalid _ m _ => Wf.master m
  | .powerOn _ _ _ => true
  | .loadComplete _ => true
  | .selftestDone _ _ => true
  | .haltRestart _ => true
  | .imageConfirm _ => true
  | .tuningSet _ m => Wf.master m
  | .imageVerify _ m => Wf.master m
  | .imageSwitch _ m => Wf.master m
  | .dieResetReq _ m => Wf.master m
  | .hostResetReq _ m => Wf.master m
  | .powerFailWarning _ => true
  | .saveComplete _ => true
  | .tempSample _ _ => true
  | .holdupTest _ => true
  | .holdupTestDone _ _ _ _ => true
  | .supplyGoodChange _ _ => true
  | .busTimeout _ m _ => Wf.master m
  | .plicClaim _ h => Wf.hart h
  | .plicComplete _ h _ => Wf.hart h
  | .qspiErase _ m => Wf.master m
  | .qspiProgram _ m => Wf.master m
  | .qspiDone _ => true
  | .wdogKick _ m _ => Wf.master m
  | .hostWatchdogExpiry _ => true
  | .machineTimerInterrupt _ h => Wf.hart h
  | .leapTableExpiry _ => true
  | .sdmShadowHandover _ => true

end Sys2Proof
end

