-- ==== Sys2Proof/Machine/CmdOps.lean ====
section
/-! DEFINITION. What the commands' meanings share: the instance that a master's SEL names, the weirs by basin, the measurements of the
time bases, commands of Table 5.5 that need a test. -/

namespace Sys2Proof.Machine

/-- An effect on the instance that a master's SEL names in a space; none where it names another space or no instance (R448). -/
def Block.atSel (b : Block) (m blk space : Nat) (f : Block → Nat → Block) : Block :=
  match b.selInst blk m space with
  | some i => f b i
  | none => b

/-- An effect of RAD, which the YD-4810-W does not have (R1). -/
def Block.ifRadio (b : Block) (f : Block → Block) : Block := if b.sys.variantW then b else f b

/-- The offset of a filter entry's high word: 16 unicast entries, 32 multicast ones (R38). -/
def filterHigh (e : Nat) : Nat := if e < 16 then 0x104 + 8 * e else 0x184 + 8 * (e - 16)

/-- An open basin tried at weir A (R20, R102). -/
def Block.weirA (b : Block) (r seq : Nat) : Block :=
  match (b.ring r).seqPos seq with
  | some (p, x) => if x.st = .opened then b.tryA r p else b
  | none => b

/-- A basin tried at weir B (R102, R104). -/
def Block.weirB (b : Block) (r seq : Nat) : Block :=
  match (b.ring r).seqPos seq with
  | some (p, x) => if x.st = .opened ∨ x.st = .alarmClosed then b.tryB r p 512 else b
  | none => b

/-- The commands of Table 5.5 that have no row of their own there. -/
def cmdOther (code : Nat) : Bool := !([1, 2, 3, 4, 5, 6, 8].contains code)

/-- CFG-3 for a version 2 stream; ignored and counted otherwise. -/
def Block.cmdCfg3 (b : Block) (c : OutCmd) (p : Nat) : Block :=
  if b.cf Reg.OUT_STR_CFG c.stream 29 28 = 1 then b.cmdIgnored c else b.cfgAnswer c (b.cfgFrames c.stream p 5)

/-- The UTC second of the last pulse by the ToD sentences: the last sentence came before or after that pulse, and TOD_REF says whether it
names the pulse before or after itself (R250). -/
def Tin.pulseSec (x : Tin) (following : Bool) (s : Nat) : Nat :=
  match x.todAt, x.ppsAt with
  | some a, some p => if a < p then (if following then s else s + 1) else if following then s - 1 else s
  | _, _ => s

/-- The TAI second that a TIN edge marks: that of the last good IRIG-B frame's UTC second, that of the ToD sentences, or TB0's nearest (R249,
R250, R257). -/
def Block.edgeSecond (b : Block) (src stamp : Nat) : Nat :=
  let near := (stamp + 500000000) / nsPerS
  match src with
  | 5 => (match b.tim.tin.irigUtc with | some s => b.secOfSoc s near | none => near)
  | 6 => (match b.tim.tin.todSec with | some s => b.secOfSoc (b.tim.tin.pulseSec (b.cb Reg.TIM_TIN_CFG 0 27) s) near | none => near)
  | _ => near

/-- E_src of a TIN source in ps (R252). -/
def Block.tinErr (b : Block) (src : Nat) : Nat :=
  let own := b.cn Reg.TIM_TIN_SRC_ERR % 2 ^ 20 * 1000
  if src = 5 ∧ b.tim.tin.irigTq ≠ 0 then Irig.boundPs b.tim.tin.irigTq else own

/-- A source's measurement as (offset x in ns, E_src in ps, TB7 of the last external measurement) with the block after it; none where
the source does not measure that time base so (Table 9.2). -/
def Block.measured (b : Block) (n src : Nat) (x : Meas) : Option (Block × Int × Nat × Option Nat) :=
  match x with
  | .ptp =>
    match (b.ptpState n).meas with
    | some (origin, corr, rcv) =>
      if 1 ≤ n ∧ n ≤ 4 ∧ src = 9 then
        let r := (b.setPtp n { b.ptpState n with meas := none }).ptpSync n origin corr rcv
        some (r.1, r.2, r.1.ptpErr n, some b.t7)
      else none
    | none => none
  | .edge stamp =>
    if n = 0 ∧ 5 ≤ src ∧ src ≤ 7 then
      let sec := b.edgeSecond src stamp
      some (b, ((sec * nsPerS + b.cn Reg.TIM_TIN_DELAY % 2 ^ 20 : Nat) : Int) - stamp, b.tinErr src, some b.t7)
    else none
  | .counter =>
    let k := if src = 8 then 6 else src
    if n = 0 ∧ ((1 ≤ src ∧ src ≤ 4) ∨ src = 8) then some (b, (b.tbNow k : Int) - b.tbNow 0, 0, (b.tb k).lastExt) else none

/-- SOURCE_LOST: what follows for the mode. -/
def Block.sourceLoss (b : Block) (n src : Nat) : Block := (b.sourceGone n src).modeFollow

/-- TIME_MEASUREMENT: the servo on it, the step of TB0 in ACQUIRE with the restart of the rings, the return to ACQUIRE, the mode. -/
def Block.timeMeasured (b : Block) (n src : Nat) (x : Meas) : Block :=
  match b.measured n src x with
  | none => b
  | some (b, x, e, ext) =>
    let (b, stepped, again) := b.measure n src x e ext
    let b := if stepped then b.tb0Stepped else b
    (match again with | some x => b.reacquire x | none => b).modeFollow

end Sys2Proof.Machine
end

