-- ==== Sys2Proof/Machine/AlarmCmds.lean ====
section
/-! DEFINITION. Commands of islands and alarms (chapter 7). -/

namespace Sys2Proof.Machine

/-- R186: ISL finishes its partition, identity and coherency run and publishes its result. -/
def execIslPublish (t : Nat) (s : State) : Result := s.run t (fun b => b.islPublish.missSettled)

/-- R194: A write to ALM.DEF_CMD RESET sets RESET_PENDING on a definition. -/
def execDefResetCmd (t m : Nat) (s : State) : Result :=
  s.runIf (Wf.master m) t (fun b => b.byMaster m 8 0x5C (fun b => b.atSel m 8 2 (fun b i => b.defReset i)))

/-- R195: A pin's PULSE_MS pulse ends. -/
def execAoPulseEnd (t pin : Nat) (s : State) : Result := s.runIf (Wf.aoPin pin) t (fun b => b.pulseOver pin)

/-- R466: A digital input's edge is confirmed by the debounce. -/
def execDiChange (t input : Nat) (level : Bool) (age : Nat) (s : State) : Result := s.runIf (Wf.pin input) t (fun b => b.diChange input level age)

/-- R199: A publisher's repetition interval expires and the message is repeated. -/
def execGooseRepeat (t pub : Nat) (aborted : Bool) (s : State) : Result := s.runIf (Wf.publisher pub) t (fun b => b.gooseRepeat pub aborted)

/-- R202: A write to ISL.COMMIT commits pending ISL shadow sets. -/
def execIslCommit (t m : Nat) (s : State) : Result := s.runIf (Wf.master m) t (fun b => b.byMaster m 7 0x408 (fun b => b.commitBy m 7))

/-- R202: A write to ALM.COMMIT commits pending ALM shadow sets. -/
def execAlmCommit (t m : Nat) (s : State) : Result := s.runIf (Wf.master m) t (fun b => b.byMaster m 8 0x408 (fun b => b.commitBy m 8))

end Sys2Proof.Machine
end

