-- ==== Sys2Proof/Machine/ArchiveCmds.lean ====
section
/-! DEFINITION. Commands of the archive (chapter 14). -/

namespace Sys2Proof.Machine

/-- R354: A free lane takes the next queued basin of a group and starts its frame. -/
def execArchiveFrameStart (t group : Nat) (s : State) : Result := s.runIf (Wf.group group) t (fun b => b.archStart group)

/-- R359: A compressed block is written as a segment to the ring or spillway. -/
def execArchiveSegmentWrite (t group : Nat) (s : State) : Result := s.runIf (Wf.group group) t (fun b => b.archSegment group)

/-- R364: A write to CMP.RESUME resumes a suspended group. -/
def execCmpResume (t m value : Nat) (s : State) : Result :=
  s.runIf (Wf.master m) t (fun b => b.byMaster m 17 0x434 (fun b => b.cmpResume (value % 2 ^ 32)))

/-- R365: A write to CMP.JOB_GO submits a firmware compression job or is refused. -/
def execCmpJobGo (t m : Nat) (s : State) : Result := s.runIf (Wf.master m) t (fun b => b.byMaster m 17 0x448 (fun b => b.jobGo m))

/-- R366: A lane free of groups starts a submitted firmware job. -/
def execCmpJobStart (t : Nat) (s : State) : Result := s.run t (fun b => b.jobStart)

/-- R365: A firmware job ends, with or without error, and posts JOB_DONE. -/
def execCmpJobDone (t : Nat) (s : State) : Result := s.run t (fun b => b.jobDone)

/-- R358: CMP.CTX_CMD RESET empties a context's history or is refused. -/
def execCmpCtxReset (t m : Nat) (s : State) : Result :=
  s.runIf (Wf.master m) t (fun b => b.byMaster m 17 0x4C (fun b => b.atSel m 17 1 (fun b i => b.ctxReset i)))

/-- R368: A write to CMP.COMMIT commits group sets for the next frame start. -/
def execCmpCommit (t m : Nat) (s : State) : Result := s.runIf (Wf.master m) t (fun b => b.byMaster m 17 0x408 (fun b => b.commitBy m 17))

end Sys2Proof.Machine
end

