-- ==== Sys2Proof/Machine/CycleCmds.lean ====
section
/-! DEFINITION. Commands of the concentration cycle: ticks, weirs, marks, expiry, retention (chapters 1 and 4). -/

namespace Sys2Proof.Machine

/-- R5: A write to a register that has no row of its own takes effect under its access code. -/
def execRegisterWrite (t m addr width value : Nat) (s : State) : Result :=
  s.runIf (Wf.master m && Wf.width width) t (fun b => b.masterWrite m addr width (value % 2 ^ (8 * width)))

/-- R9: A read of an RC counter returns its value and clears it and its SAT flag, keeping any increment in the same cycle. -/
def execRcRead (t m addr width : Nat) (s : State) : Result := s.runIf (Wf.master m && Wf.width width) t (fun b => b.masterRead m addr width)

/-- R53: A read of a LO or NS word latches the matching HI or seconds words until the next such read. -/
def execLatchingRead (t m addr width : Nat) (s : State) : Result := s.runIf (Wf.master m && Wf.width width) t (fun b => b.masterRead m addr width)

/-- R11: The TB0 tick of a slot time arrives on a ring. -/
def execTick (t ring : Nat) (s : State) : Result := s.runIf (Wf.ring ring) t (fun b => b.tick ring)

/-- R102: The weir A deadline condition of an open basin becomes true with the passage of TB0 time. -/
def execWeirADeadline (t ring seq : Nat) (s : State) : Result := s.runIf (Wf.ring ring) t (fun b => b.weirA ring seq)

/-- R20: A basin held by the weir A spacing reaches the end of the spacing and closes. -/
def execWeirASpacingElapsed (t ring seq : Nat) (s : State) : Result := s.runIf (Wf.ring ring) t (fun b => b.weirA ring seq)

/-- R102: The weir B deadline condition of an alarm-closed basin becomes true with the passage of TB0 time. -/
def execWeirBDeadline (t ring seq : Nat) (s : State) : Result := s.runIf (Wf.ring ring) t (fun b => b.weirB ring seq)

/-- R16: ALN sets a record's bit in the arrival bitmap once its feature and full-record writes are accepted. -/
def execRecordMark (t ring seq ctx : Nat) (s : State) : Result := s.runIf (Wf.ring ring && Wf.context ctx) t (fun b => b.recordMark ring seq ctx)

/-- R23: At the alarm close of basin n + 1 the DFE expires tick tag n, removing and discarding its tokens. -/
def execTagExpiry (t ring seq : Nat) (s : State) : Result :=
  s.runIf (Wf.ring ring) t (fun b => if Tbl.get b.dfe.closedTag ring none = some seq then b.tagExpiry ring else b)

/-- R89: A retained basin reaches its retention end, sets LATE_CLOSED and writes its head and bitmap copy. -/
def execRetentionEnd (t ring seq : Nat) (s : State) : Result := s.runIf (Wf.ring ring) t (fun b => b.retentionEnd ring seq)

/-- R101: ALN finishes writing MISSING headers of unmarked slots of an output-closed basin. -/
def execMissingHeadersDone (t ring seq : Nat) (s : State) : Result := s.runIf (Wf.ring ring) t (fun b => b.missingHeadersDone ring seq)

end Sys2Proof.Machine
end

