-- ==== Sys2Proof/Machine/FabricCmds.lean ====
section
/-! DEFINITION. Commands of the dataflow fabric and of the ripple engine (chapters 6 and 8). -/

namespace Sys2Proof.Machine

/-- R211: The dispatcher places a ready firing into a core's ready queue, spilling as needed. -/
def execFiringDispatch (t : Nat) (s : State) : Result := s.run t (fun b => b.dispatch)

/-- R213: A fabric core finishes a firing, emits its tokens and takes its next firing. -/
def execFiringComplete (t core : Nat) (last : Bool) (s : State) : Result := s.runIf (Wf.core core) t (fun b => (b.complete core last).missSettled)

/-- R215: A held token source is admitted once enough matching-store entries are free. -/
def execSluiceRelease (t source : Nat) (s : State) : Result := s.runIf (Wf.source source) t (fun b => (b.sluiceRetry source).missSettled)

/-- R223: A write to DFE.INJ_GO injects a REF token to a HOST_IN op or is refused. -/
def execDfeInject (t m op port : Nat) (s : State) : Result :=
  s.runIf (Wf.master m) t (fun b => b.byMaster m 9 0x42C (fun b => b.dfeInject m (op % 4096) (port % 4)))

/-- R228: DFE.CORE_CMD RELEASE returns a frozen core to service or is refused. -/
def execCoreReleaseCmd (t m : Nat) (s : State) : Result :=
  s.runIf (Wf.master m) t (fun b => b.byMaster m 9 0x44 (fun b => b.atSel m 9 0 (fun b i => b.coreRelease i)))

/-- R229: An uncorrectable error in a core's cache or scratch ends its firing and reinitialises it. -/
def execCoreMemFault (t core : Nat) (s : State) : Result := s.runIf (Wf.core core) t (fun b => (b.coreMemFault core).missSettled)

/-- R230: A DEBUG halt request takes a core out of the pool at the end of its firing. -/
def execCoreHalt (t core : Nat) (s : State) : Result := s.runIf (Wf.core core) t (fun b => b.coreHalt core)

/-- R230: A halted core is resumed and rejoins the pool at the next main-ring alarm close. -/
def execCoreResume (t core : Nat) (s : State) : Result := s.runIf (Wf.core core) t (fun b => b.coreResume core)

/-- R232: A write to DFE.COMMIT commits pending op parameters and global settings. -/
def execDfeCommit (t m : Nat) (s : State) : Result := s.runIf (Wf.master m) t (fun b => b.byMaster m 9 0x408 (fun b => b.commitBy m 9))

/-- R153: The modal accelerator completes the eigen-solve and emits its completion token. One that SELFTEST excluded (R433) is left out:
it completes nothing, and its epoch is missed (R154). -/
def execAcceleratorSolveDone (t : Nat) (fault : Bool) (s : State) : Result :=
  s.run t (fun b => if bit b.sys.selftestResult 26 then b else b.solveComplete fault)

/-- R162: RD_LEN after the trigger the ringdown ends and ambient estimation resumes. -/
def execRingdownEnd (t : Nat) (s : State) : Result := s.run t (fun b => b.rdEnd)

/-- R163: RD_SKIP after the trigger each VALID track starts its ringdown estimator. -/
def execRdSkipElapsed (t : Nat) (s : State) : Result := s.run t (fun b => b.rdSkip)

/-- R169: The DEF gather completes and emits its tick-class token. -/
def execGatherComplete (t : Nat) (s : State) : Result := s.run t (fun b => b.gatherComplete)

/-- R173: A write to RPL.COMMIT commits pending RPL shadow sets. -/
def execRplCommit (t m : Nat) (s : State) : Result := s.runIf (Wf.master m) t (fun b => b.byMaster m 6 0x408 (fun b => b.commitBy m 6))

end Sys2Proof.Machine
end

