-- ==== Sys2Proof/Machine/GuardCmds.lean ====
section
/-! DEFINITION. Commands of keys, tamper, access control and the event recorder (chapters 16 and 17). -/

namespace Sys2Proof.Machine

/-- R404: Key update op LOAD_SECRET is checked and loads a secret slot. -/
def execLoadSecret (t m : Nat) (s : State) : Result :=
  s.runIf (Wf.master m) t (fun b => b.byMaster m 20 0x428 (fun b => if b.keyOp m = 1 then b.keyUpdate m else b))

/-- R404: Key update op ERASE_SECRET is checked and erases a secret slot. -/
def execEraseSecret (t m : Nat) (s : State) : Result :=
  s.runIf (Wf.master m) t (fun b => b.byMaster m 20 0x428 (fun b => if b.keyOp m = 2 then b.keyUpdate m else b))

/-- R404: Key update op SET_EPOCH replaces the epoch secret and erases every slot. -/
def execSetEpoch (t m : Nat) (s : State) : Result :=
  s.runIf (Wf.master m) t (fun b => b.byMaster m 20 0x428 (fun b => if b.keyOp m = 3 then b.keyUpdate m else b))

/-- R404: Key update op SET_OWNER replaces PK1. -/
def execSetOwner (t m : Nat) (s : State) : Result :=
  s.runIf (Wf.master m) t (fun b => b.byMaster m 20 0x428 (fun b => if b.keyOp m = 4 then b.keyUpdate m else b))

/-- R410: Key update op DEBUG_AUTH zeroises, switches to the test root and opens debug. -/
def execDebugAuth (t m : Nat) (s : State) : Result :=
  s.runIf (Wf.master m) t (fun b => b.byMaster m 20 0x428 (fun b => if b.keyOp m = 5 then b.keyUpdate m else b))

/-- R404: An accepted key change is installed at the next key-operation boundary. -/
def execKeyInstall (t : Nat) (s : State) : Result := s.run t (fun b => b.keyInstall)

/-- R406: A tamper source asserts and TAM zeroises. -/
def execTamperEvent (t : Nat) (now : Machine.TamSight) (elapsed : Option Nat) (s : State) : Result := s.run t (fun b => b.tamper now elapsed)

/-- R415: An access breaking the region table is blocked and its master frozen. -/
def execAccViolation (t m addr size : Nat) (write : Bool) (s : State) : Result :=
  s.runIf (Wf.master m && Wf.width size) t (fun b => if b.masterReady m && !b.accOk m addr size write then b.violate m addr size write else b)

/-- R416: ACC.MST_CMD RELEASE by HC0 lifts a master's freeze or is refused. -/
def execAccRelease (t m : Nat) (s : State) : Result :=
  s.runIf (Wf.master m) t (fun b => b.byMaster m 24 0x48 (fun b => if (b.selected 24 m).1 = 1 then b.accRelease m else b))

/-- R418: EVR writes a buffered event entry to the last and first areas in MRAM. -/
def execEventEntryWrite (t : Nat) (s : State) : Result := s.run t (fun b => b.entryWrite)

/-- R421: EVR.CMD FREEZE stops MRAM writes by EVR. -/
def execEvrFreeze (t m : Nat) (s : State) : Result := s.runIf (Wf.master m) t (fun b => b.byMaster m 22 0x410 (fun b => b.evrFreeze))

/-- R422: EVR.CMD THAW ends the freeze and writes the held entries. -/
def execEvrThaw (t m : Nat) (s : State) : Result := s.runIf (Wf.master m) t (fun b => b.byMaster m 22 0x410 (fun b => b.evrThaw))

/-- R421: A freeze ends 1 s after the FREEZE write. -/
def execFreezeTimeout (t : Nat) (s : State) : Result := s.run t (fun b => b.freezeTimeout)

/-- R424: EVR.CMD CLEAR, if unlocked in MAINTENANCE by HC0, clears the areas with a CLEARED record. -/
def execEvrClear (t m : Nat) (clrLast : Bool) (s : State) : Result :=
  s.runIf (Wf.master m) t (fun b => b.byMaster m 22 0x410 (fun b => b.evrClear m clrLast))

/-- R424: A write to EVR.CLR_UNLOCK starts or ends the 100 µs clear unlock. -/
def execClrUnlock (t m value : Nat) (s : State) : Result := s.runIf (Wf.master m) t (fun b => b.byMaster m 22 0x414 (fun b => b.clrUnlock value))

/-- R425: A write to EVR.COMMIT hands over snapshot settings in the next cycle. -/
def execEvrCommit (t m : Nat) (s : State) : Result := s.runIf (Wf.master m) t (fun b => b.byMaster m 22 0x408 (fun b => b.commitBy m 22))

end Sys2Proof.Machine
end

