-- ==== Sys2Proof/Machine/MeasureCmds.lean ====
section
/-! DEFINITION. Commands of local measurement, energy metering and disturbance capture (chapters 10 and 11). -/

namespace Sys2Proof.Machine

/-- R269: A channel's decimator emits a fine or coarse sample. -/
def execDecimatorOutput (t ch : Nat) (coarse : Bool) (x : DecimIn) (s : State) : Result :=
  s.runIf (Wf.channel ch) t (fun b => b.decimatorOutput ch coarse x)

/-- R270: A write to SDM.CMD SYNC requests a reset of all channels at the next whole second. -/
def execSdmSyncCmd (t m : Nat) (s : State) : Result := s.runIf (Wf.master m) t (fun b => b.byMaster m 10 0x414 (fun b => b.sdmSyncAt 8))

/-- R270: A synchronising reset clears and restarts the decimators of the affected channels. -/
def execSyncReset (t : Nat) (s : State) : Result := s.run t (fun b => b.sdmSyncDue)

/-- R266: A channel with no valid transitions or 4,096 equal bits enters FAULT. -/
def execChFault (t ch : Nat) (s : State) : Result := s.runIf (Wf.channel ch) t (fun b => b.chFault ch)

/-- R266: A channel free of fault conditions for 1,024 bits leaves FAULT. -/
def execChRecover (t ch : Nat) (s : State) : Result := s.runIf (Wf.channel ch) t (fun b => b.chRecover ch)

/-- R279: SDM hands a local phasor record to STR once its span's last sample is output. -/
def execLocalRecordHandover (t point slot : Nat) (s : State) : Result := s.runIf (Wf.point point) t (fun b => b.localRecord point slot)

/-- R281: A counting positive-going zero crossing ends an integration interval. -/
def execZeroCrossing (t point : Nat) (s : State) : Result := s.runIf (Wf.point point) t (fun b => b.zeroCrossing point)

/-- R282: No crossing within ZC_TIMEOUT periods ends the interval and enters fallback. -/
def execZcTimeout (t point : Nat) (s : State) : Result := s.runIf (Wf.point point) t (fun b => b.zcTimeout point)

/-- R289: A write to NRG.SNAP copies all accumulators into the snapshot registers. -/
def execNrgSnap (t m : Nat) (s : State) : Result := s.runIf (Wf.master m) t (fun b => b.byMaster m 11 0x410 (fun b => b.nrgSnap))

/-- R290: A write to NRG.PT_CMD CLEAR requests a point clear, accepted only in MAINTENANCE. -/
def execNrgClear (t m : Nat) (s : State) : Result :=
  s.runIf (Wf.master m) t (fun b => b.byMaster m 11 0x80 (fun b => b.atSel m 11 0 (fun b i => b.nrgClear i)))

/-- R288: A read of a visible energy counter returns it and clears WRAP and WRAP2. -/
def execNrgCounterRead (t m index : Nat) (s : State) : Result :=
  s.runIf (Wf.master m && Wf.counter index) t (fun b => b.masterRead m (0xF00B0100 + 4 * index) 4)

/-- R292: At the save period NRG copies the accumulators and starts writing a save slot. -/
def execPeriodicSave (t : Nat) (s : State) : Result := s.run t (fun b => b.periodicSave)

/-- R292: A save slot write completes or fails. -/
def execEnergySaveDone (t : Nat) (good : Bool) (s : State) : Result := s.run t (fun b => b.saveDone good)

/-- R295: A write to SDM.COMMIT commits pending SDM shadow sets. -/
def execSdmCommit (t m : Nat) (s : State) : Result := s.runIf (Wf.master m) t (fun b => b.byMaster m 10 0x408 (fun b => b.commitBy m 10))

/-- R295: A write to NRG.COMMIT commits pending NRG shadow sets. -/
def execNrgCommit (t m : Nat) (s : State) : Result := s.runIf (Wf.master m) t (fun b => b.byMaster m 11 0x408 (fun b => b.commitBy m 11))

/-- R299: A write to CAP.UNIT_CMD FORCE triggers the unit. -/
def execCaptureForce (t m : Nat) (s : State) : Result :=
  s.runIf (Wf.master m) t (fun b => b.byMaster m 12 0xA4 (fun b => b.atSel m 12 0 (fun b i => b.capForce i)))

/-- R304: A write to CAP.UNIT_CMD RELEASE frees the oldest unreleased capture. -/
def execCaptureRelease (t m : Nat) (s : State) : Result :=
  s.runIf (Wf.master m) t (fun b => b.byMaster m 12 0xA4 (fun b => b.atSel m 12 0 (fun b i => b.capRelease i)))

/-- R299: An edge on a TRG pin set as input is stamped and may trigger units. -/
def execTrgInputEdge (t pin : Nat) (level : Bool) (s : State) : Result := s.runIf (Wf.trigger pin) t (fun b => b.trgEdge pin level)

/-- R302: A capture's last row is written and the capture is sealed into HOLDOFF. -/
def execCaptureSeal (t unit : Nat) (s : State) : Result := s.runIf (Wf.capture unit) t (fun b => b.capSealNow unit)

/-- R303: A unit's TIME hold-off ends and it re-arms. -/
def execHoldoffEnd (t unit : Nat) (s : State) : Result := s.runIf (Wf.capture unit) t (fun b => b.capHoldoffEnd unit)

/-- R306: At T + D a bus signal opens captures and drives TRG outputs. -/
def execBusAct (t : Nat) (s : State) : Result := s.run t (fun b => b.busAct)

/-- R308: A write to CAP.COMMIT commits unit sets, handed over when the unit is not capturing. -/
def execCapCommit (t m : Nat) (s : State) : Result := s.runIf (Wf.master m) t (fun b => b.byMaster m 12 0x408 (fun b => b.commitBy m 12))

/-- R295: While the rings do not run, committed SDM sets are checked and copied at the next whole TB0 second, causing the R270 reset where PRESET, PHASE, INT_DELAY or FRAC changed. -/
def execSdmShadowHandover (t : Nat) (s : State) : Result := s.run t (fun b => b.sdmShadow)

end Sys2Proof.Machine
end

