-- ==== Sys2Proof/Machine/MemoryCmds.lean ====
section
/-! DEFINITION. Commands of memory protection, the DMA engines and the queues (chapter 13). -/

namespace Sys2Proof.Machine

/-- R327: A read finds a correctable error, delivers corrected data and tracks the address. -/
def execCorrectedError (t mem unit : Nat) (s : State) : Result := s.runIf (Wf.memory mem) t (fun b => b.corrected mem unit)

/-- R327: A read finds an uncorrectable error and the data becomes poisoned. -/
def execUncorrectableError (t mem : Nat) (unit : ErrPlace) (s : State) : Result :=
  s.runIf (Wf.memory mem) t (fun b => if mem = 8 then b.hostCacheError unit.unit unit.dirty else b.uncorrectable mem unit.unit)

/-- R327: MEM writes a correction back when the memory's port is next idle. -/
def execCeWriteback (t mem : Nat) (s : State) : Result := s.runIf (Wf.memory mem) t (fun b => b.writeback mem)

/-- R332: The scrubber reads one word or line in an idle cycle. -/
def execScrubStep (t mem : Nat) (s : State) : Result := s.runIf (Wf.memory mem) t (fun b => b.scrubStep mem)

/-- R333: A lap exceeding LAP_LIMIT forces the scrubber's guaranteed share. -/
def execScrubStarved (t mem : Nat) (s : State) : Result := s.runIf (Wf.memory mem) t (fun b => b.scrubStarved mem)

/-- R329: MEM.REMAP_CMD REMAP remaps the address in REMAP_ADDR. -/
def execRemapCmd (t m : Nat) (s : State) : Result := s.runIf (Wf.master m) t (fun b => b.byMaster m 14 0x418 (fun b => b.remapCmd m))

/-- R331: MEM.REMAP_CMD ERASE clears the MRAM remap table in MAINTENANCE. -/
def execRemapErase (t m : Nat) (s : State) : Result := s.runIf (Wf.master m) t (fun b => b.byMaster m 14 0x418 (fun b => b.remapErase))

/-- R334: Diagnostic command RAW_READ copies data and check bits uncorrected to the buffer. -/
def execDiagRawRead (t m : Nat) (s : State) : Result := s.runIf (Wf.master m) t (fun b => b.byMaster m 14 0x104 (fun b => b.diagRead m))

/-- R334: Diagnostic command RAW_WRITE writes data and check bits from the buffer. -/
def execDiagRawWrite (t m : Nat) (s : State) : Result := s.runIf (Wf.master m) t (fun b => b.byMaster m 14 0x104 (fun b => b.diagWrite m 2))

/-- R334: Diagnostic command DATA_WRITE writes data, keeping stored check bits. -/
def execDiagDataWrite (t m : Nat) (s : State) : Result := s.runIf (Wf.master m) t (fun b => b.byMaster m 14 0x104 (fun b => b.diagWrite m 3))

/-- R334: Diagnostic command CHECK_WRITE writes check bits, keeping stored data. -/
def execDiagCheckWrite (t m : Nat) (s : State) : Result := s.runIf (Wf.master m) t (fun b => b.byMaster m 14 0x104 (fun b => b.diagWrite m 4))

/-- R352: A write to MEM.COMMIT commits pending MEM shadow sets. -/
def execMemCommit (t m : Nat) (s : State) : Result := s.runIf (Wf.master m) t (fun b => b.byMaster m 14 0x408 (fun b => b.commitBy m 14))

/-- R340: DMA.CH_CMD START makes a channel PENDING or is refused. -/
def execDmaStart (t m : Nat) (s : State) : Result :=
  s.runIf (Wf.master m) t (fun b => b.byMaster m 15 0x6C (fun b => b.dmaGuard (b.dmaSel m) (fun b => b.dmaStart (b.dmaSel m))))

/-- R341: DMA.CH_CMD COMMIT commits the channel's shadow descriptor. -/
def execDmaCommit (t m : Nat) (s : State) : Result :=
  s.runIf (Wf.master m) t (fun b => b.byMaster m 15 0x6C (fun b => b.dmaGuard (b.dmaSel m) (fun b => b.dmaCommit (b.dmaSel m))))

/-- R339: DMA.CH_CMD CLEAR_HALT returns a HALTED channel to IDLE. -/
def execDmaClearHalt (t m : Nat) (s : State) : Result :=
  s.runIf (Wf.master m) t (fun b => b.byMaster m 15 0x6C (fun b => b.dmaGuard (b.dmaSel m) (fun b => b.dmaClearHalt (b.dmaSel m))))

/-- R340: A free engine starts its lowest PENDING channel and checks its descriptor. -/
def execDmaChannelRun (t engine : Nat) (s : State) : Result := s.runIf (Wf.engine engine) t (fun b => b.dmaGo engine)

/-- R342: A channel's last write reaches coherence and the channel completes. -/
def execDmaChannelComplete (t engine : Nat) (s : State) : Result := s.runIf (Wf.engine engine) t (fun b => b.dmaFinish engine)

/-- R346: A push of an item without EOP is stored or refused under the overrun rule. -/
def execQueuePush (t m q value : Nat) (s : State) : Result :=
  s.runIf (Wf.master m && Wf.queue q) t (fun b => b.byQueue m q 0x48 true (fun b => (b.push q (value % 2 ^ 64) false).answer m .written))

/-- R346: A push of an item with EOP ends a packet. -/
def execQueuePushEop (t m q value : Nat) (s : State) : Result :=
  s.runIf (Wf.master m && Wf.queue q) t (fun b => b.byQueue m q 0x50 true (fun b => (b.push q (value % 2 ^ 64) true).answer m .written))

/-- R348: A read of QUE.POP returns an item or stalls on an empty queue. -/
def execQueuePop (t m q : Nat) (s : State) : Result := s.runIf (Wf.master m && Wf.queue q) t (fun b => b.byQueue m q 0x58 false (fun b => (b.queueFound q).pop q m))

/-- R348: A read of QUE.TRYPOP returns an item or the EMPTY marker at once. -/
def execQueueTrypop (t m q : Nat) (s : State) : Result :=
  s.runIf (Wf.master m && Wf.queue q) t (fun b => b.byQueue m q 0x60 false (fun b => (b.queueFound q).trypop q m))

/-- R349: QUE.CMD FLUSH discards the queue's items at the next packet boundary. -/
def execQueueFlush (t m : Nat) (s : State) : Result := s.runIf (Wf.master m) t (fun b => b.byMaster m 16 0x6C (fun b => b.flush (b.queSel m)))

/-- R345: A write of EN = 1 enables a queue or is refused with CFG_ERR. -/
def execQueueEnable (t m base depth : Nat) (s : State) : Result :=
  s.runIf (Wf.master m) t (fun b => b.byMaster m 16 0x40 (fun b => b.queueCfg (b.queSel m) (w32 (2 ^ 31 + depth % 8192 * 65536 + base % 4096))))

/-- R350: A write of EN = 0 discards the queue's contents and ends stalled reads. -/
def execQueueDisable (t m : Nat) (s : State) : Result :=
  s.runIf (Wf.master m) t (fun b => b.byMaster m 16 0x40 (fun b => if b.qen (b.queSel m) then b.queueDisable (b.queSel m) else b))

end Sys2Proof.Machine
end

