-- ==== Sys2Proof/Machine/ModeCmds.lean ====
section
/-! DEFINITION. Commands of modes, LOAD, power, temperature, the system bus and the host (chapters 18 to 20). -/

namespace Sys2Proof.Machine

/-- R429: A mode request for MAINTENANCE, with planned handover or FORCE in a pair. -/
def execModeReqMaintenance (t m : Nat) (force : Bool) (s : State) : Result :=
  s.runIf (Wf.master m) t (fun b => b.byMaster m 0 0x414 (fun b => b.modeReq m 8 force))

/-- R427: A mode request of 0x3 leaves MAINTENANCE for the mode the state calls for. -/
def execModeReqActive (t m : Nat) (s : State) : Result := s.runIf (Wf.master m) t (fun b => b.byMaster m 0 0x414 (fun b => b.modeReq m 3 false))

/-- R427: A mode request for DEBUG while the debug port is open. -/
def execModeReqDebug (t m : Nat) (s : State) : Result := s.runIf (Wf.master m) t (fun b => b.byMaster m 0 0x414 (fun b => b.modeReq m 9 false))

/-- R427: A mode request for HALT from MAINTENANCE. -/
def execModeReqHalt (t m : Nat) (s : State) : Result := s.runIf (Wf.master m) t (fun b => b.byMaster m 0 0x414 (fun b => b.modeReq m 11 false))

/-- R427: A mode request not permitted, or not from HC0, is refused. -/
def execModeReqInvalid (t m code : Nat) (s : State) : Result :=
  s.runIf (Wf.master m) t (fun b => b.byMaster m 0 0x414 (fun b => b.modeReq m (code % 16) false))

/-- R431: Power-on or a die reset starts the LOAD sequence. -/
def execPowerOn (t : Nat) (mains : Bool) (straps : Nat) (s : State) : Result := s.run t (fun b => b.powerOn mains straps)

/-- R432: The image is applied and the module enters SELFTEST. -/
def execLoadComplete (t : Nat) (s : State) : Result := s.run t (fun b => b.loadComplete)

/-- R433: SELFTEST finishes and the module enters ACQUIRE or HALT. -/
def execSelftestDone (t : Nat) (r : Machine.SelftestResult) (s : State) : Result := s.run t (fun b => b.selftestDone r)

/-- R427: A HALT cause's restart condition elapses and the die resets into LOAD. -/
def execHaltRestart (t : Nat) (s : State) : Result := s.run t (fun b => b.haltRestart)

/-- R438: 60 s of ACTIVE, HOLDOVER or STANDBY confirms a TRIAL image. -/
def execImageConfirm (t : Nat) (s : State) : Result := s.run t (fun b => b.imageConfirm)

/-- R439: A write to SYS.TUNE_GO submits a tuning set, which is checked and written to the shadows. -/
def execTuningSet (t m : Nat) (s : State) : Result := s.runIf (Wf.master m) t (fun b => b.byMaster m 0 0x430 (fun b => b.tuningSet m))

/-- R440: SYS.IMG_CMD VERIFY checks the image in the unused bank. -/
def execImageVerify (t m : Nat) (s : State) : Result := s.runIf (Wf.master m) t (fun b => b.byMaster m 0 0x448 (fun b => b.imageVerify))

/-- R440: SYS.IMG_CMD SWITCH verifies, saves energy, writes a TRIAL pointer and resets. -/
def execImageSwitch (t m : Nat) (s : State) : Result := s.runIf (Wf.master m) t (fun b => b.byMaster m 0 0x448 (fun b => b.imageSwitch))

/-- R454: SYS.RESET_REQ DIE resets the die in MAINTENANCE or DEBUG. -/
def execDieResetReq (t m : Nat) (s : State) : Result := s.runIf (Wf.master m) t (fun b => b.byMaster m 0 0x458 (fun b => b.dieResetReq m))

/-- R454: SYS.RESET_REQ HOST by HC0 resets the host cluster. -/
def execHostResetReq (t m : Nat) (s : State) : Result := s.runIf (Wf.master m) t (fun b => b.byMaster m 0 0x458 (fun b => b.hostResetReq m))

/-- R442: The bulk bus falls to V_PF and the module enters SAVE. -/
def execPowerFailWarning (t : Nat) (s : State) : Result := s.run t (fun b => b.powerFail)

/-- R442: The SAVE sequence completes and the module enters HALT. -/
def execSaveComplete (t : Nat) (s : State) : Result := s.run t (fun b => b.saveComplete)

/-- R444: Every 1 ms PWR reads the die temperature. -/
def execTempSample (t : Nat) (temp : Int) (s : State) : Result := s.run t (fun b => b.tempSample temp)

/-- R445: At SELFTEST and every HOLDUP_H hours PWR starts a 2 ms hold-up test. -/
def execHoldupTest (t : Nat) (s : State) : Result := s.run t (fun b => b.holdupTest)

/-- R463: The hold-up test ends and computes the hold-up estimate. -/
def execHoldupTestDone (t p v0 v1 : Nat) (s : State) : Result := s.run t (fun b => b.holdupTestDone p v0 v1)

/-- R460: The input leaves its range for 20 ms or returns for 100 ms. -/
def execSupplyGoodChange (t : Nat) (good : Bool) (s : State) : Result := s.run t (fun b => b.supplyGood good)

/-- R453: A stalled access reaches SYS.BUS_TIMEOUT and the master gets a bus error. -/
def execBusTimeout (t m addr : Nat) (s : State) : Result := s.runIf (Wf.master m) t (fun b => b.busTimeout m addr)

/-- R452: A read of a context's claim register claims its highest pending source. -/
def execPlicClaim (t h : Nat) (s : State) : Result := s.runIf (Wf.hart h) t (fun b => b.masterRead h (0x0C200004 + 0x1000 * h) 4)

/-- R452: A write of complete re-enables a claimed source. -/
def execPlicComplete (t h src : Nat) (s : State) : Result :=
  s.runIf (Wf.hart h) t (fun b => b.masterWrite h (0x0C200004 + 0x1000 * h) 4 (src % 2 ^ 32))

/-- R455: SYS.QSPI_CMD ERASE erases a 64 KiB sector or is refused. -/
def execQspiErase (t m : Nat) (s : State) : Result := s.runIf (Wf.master m) t (fun b => b.byMaster m 0 0x49C (fun b => b.qspiCmd false))

/-- R455: SYS.QSPI_CMD PROGRAM writes a 256-byte page or is refused. -/
def execQspiProgram (t m : Nat) (s : State) : Result := s.runIf (Wf.master m) t (fun b => b.byMaster m 0 0x49C (fun b => b.qspiCmd true))

/-- R455: A QSPI command completes and its result is reported. -/
def execQspiDone (t : Nat) (s : State) : Result := s.run t (fun b => b.qspiDone)

/-- R454: HC0 writes the kick value to SYS.WDOG_KICK and restarts the watchdog. -/
def execWdogKick (t m value : Nat) (s : State) : Result :=
  s.runIf (Wf.master m) t (fun b => b.byMaster m 0 0x454 (fun b => b.wdogKick m (value % 2 ^ 32)))

/-- R454: The host watchdog expires and resets the host cluster only. -/
def execHostWatchdogExpiry (t : Nat) (s : State) : Result := s.run t (fun b => b.wdogExpiry)

/-- R452: SYS.MTIME, counting TB7 in microseconds, reaches a host core's SYS.MTIMECMP_h and raises that core's machine timer interrupt. -/
def execMachineTimerInterrupt (t h : Nat) (s : State) : Result := s.runIf (Wf.hart h) t (fun b => b.timerDue h)

end Sys2Proof.Machine
end

