-- ==== Sys2Proof/Machine/OutCmds.lean ====
section
/-! DEFINITION. Commands of snapshot output: launches, sessions, received C37.118.2 commands (chapter 5). -/

namespace Sys2Proof.Machine

/-- R123: A TIMED part reaches its launch time after slot time and is launched. -/
def execTimedLaunch (t ring seq stream : Nat) (s : State) : Result :=
  s.runIf (Wf.ring ring && Wf.stream stream) t (fun b => b.timedLaunch ring seq stream)

/-- R125: OUT releases a basin once every part of every carrying stream has been handed over. -/
def execOutBasinRelease (t ring seq : Nat) (s : State) : Result := s.runIf (Wf.ring ring) t (fun b => b.outRelease ring seq)

/-- R128: SESS_CMD OPEN makes a CLOSED session ESTABLISHED or posts a refusal. -/
def execSessOpen (t m : Nat) (s : State) : Result :=
  s.runIf (Wf.master m) t (fun b => b.byMaster m 5 0x78 (fun b => b.atSel m 5 1 (fun b i => b.sessOpen i)))

/-- R130: SESS_CMD CLOSE sends FIN after buffered data and takes the session to CLOSING. -/
def execSessClose (t m : Nat) (s : State) : Result :=
  s.runIf (Wf.master m) t (fun b => b.byMaster m 5 0x78 (fun b => b.atSel m 5 1 (fun b i => b.sessClose i)))

/-- R130: SESS_CMD RESET sends RST and closes the session at once. -/
def execSessReset (t m : Nat) (s : State) : Result :=
  s.runIf (Wf.master m) t (fun b => b.byMaster m 5 0x78 (fun b => b.atSel m 5 1 (fun b i => b.sessRst i)))

/-- R130: SESS_CMD SEND_ACK sends one empty segment carrying RCV_NXT. -/
def execSessSendAck (t m : Nat) (s : State) : Result :=
  s.runIf (Wf.master m) t (fun b => b.byMaster m 5 0x78 (fun b => b.atSel m 5 1 (fun b i => b.sessAckSend i)))

/-- R130: A write to SESS_ACK takes the acknowledgement and window, frees buffer bytes or closes a CLOSING session. -/
def execSessAckWrite (t m value : Nat) (s : State) : Result :=
  s.runIf (Wf.master m) t (fun b => b.byMaster m 5 0x68 (fun b => b.atSel m 5 1 (fun b i => b.sessAck i (value % 2 ^ 32))))

/-- R130: A write to SESS_RETX resends from the given sequence number within the window. -/
def execSessRetx (t m value : Nat) (s : State) : Result :=
  s.runIf (Wf.master m) t (fun b => b.byMaster m 5 0x6C (fun b => b.atSel m 5 1 (fun b i => b.sessRetx i (value % 2 ^ 32))))

/-- R129: OUT cuts and sends buffered session bytes once the peer window admits them. -/
def execSessionSegmentSend (t sess : Nat) (s : State) : Result := s.runIf (Wf.session sess) t (fun b => b.sessSegments sess)

/-- R129: A session stalled for SESS_STALL_MS without progress is reset. -/
def execSessStallReset (t sess : Nat) (s : State) : Result := s.runIf (Wf.session sess) t (fun b => b.sessStall sess)

/-- R132: Command 0x0001 turns data off for the part. -/
def execCmdDataOff (t : Nat) (s : State) : Result := s.run t (fun b => b.outCmd (· == 1) (fun b c p => b.dataOn c p false) Block.cmdIgnored)

/-- R132: Command 0x0002 turns data on for the part from the next basin. -/
def execCmdDataOn (t : Nat) (s : State) : Result := s.run t (fun b => b.outCmd (· == 2) (fun b c p => b.dataOn c p true) Block.cmdIgnored)

/-- R132: Command 0x0003 sends the header frame. -/
def execCmdSendHeader (t : Nat) (s : State) : Result :=
  s.run t (fun b => b.outCmd (· == 3) (fun b c p => b.cmdAnswer c [b.headerFrame c.stream p]) Block.cmdIgnored)

/-- R132: Command 0x0004 sends CFG-1. -/
def execCmdSendCfg1 (t : Nat) (s : State) : Result :=
  s.run t (fun b => b.outCmd (· == 4) (fun b c p => b.cfgAnswer c (b.cfgFrames c.stream p 2)) Block.cmdIgnored)

/-- R132: Command 0x0005 sends CFG-2. -/
def execCmdSendCfg2 (t : Nat) (s : State) : Result :=
  s.run t (fun b => b.outCmd (· == 5) (fun b c p => b.cfgAnswer c (b.cfgFrames c.stream p 3)) Block.cmdIgnored)

/-- R133: Command 0x0006 sends CFG-3 on version 2 streams, in continuation frames if needed. -/
def execCmdSendCfg3 (t : Nat) (s : State) : Result := s.run t (fun b => b.outCmd (· == 6) (fun b c p => b.cmdCfg3 c p) Block.cmdIgnored)

/-- R132: Command 0x0008 is passed to firmware as a Q17 item. -/
def execCmdExtendedFrame (t : Nat) (s : State) : Result := s.run t (fun b => b.outCmd (· == 8) (fun b c _ => b.outNotice 8 c.inst 0) Block.cmdIgnored)

/-- R132: Any other command is ignored and counted with an event. -/
def execCmdUnknown (t : Nat) (s : State) : Result :=
  s.run t (fun b => b.outCmd cmdOther (fun b c _ => (b.cmdIgnored c).eventRep c.stream 0x0604 c.stream) Block.cmdIgnored)

/-- R136: Weir B plus RESEND_WIN passes and a pending re-send is launched. -/
def execResendWindowExpiry (t ring seq stream part : Nat) (s : State) : Result :=
  s.runIf (Wf.ring ring && Wf.stream stream && Wf.part part) t (fun b => b.resendExpiry ring seq stream part)

/-- R138: A write to OUT.COMMIT commits all pending OUT shadow sets. -/
def execOutCommit (t m : Nat) (s : State) : Result := s.runIf (Wf.master m) t (fun b => b.byMaster m 5 0x408 (fun b => b.commitBy m 5))

end Sys2Proof.Machine
end

