-- ==== Sys2Proof/Machine/PairCmds.lean ====
section
/-! DEFINITION. Commands of cascades and redundant pairs (chapter 15). -/

namespace Sys2Proof.Machine

/-- R372: A member receives a Tabusk frame, verifies, deduplicates, forwards and acts on it. -/
def execTabuskFrameRx (t link : Nat) (frame : List Byte) (s : State) : Result :=
  s.runIf (Wf.link link) t (fun b => (b.casReceive link frame).modeFollow)

/-- R373: A Tabusk link loses block lock for 4 µs or hears nothing for 100 µs. -/
def execTabuskLinkDown (t link : Nat) (s : State) : Result := s.runIf (Wf.link link) t (fun b => (b.casLinkDown link).modeFollow)

/-- R373: After 10 ms of lock and a HELLO exchange a link comes up. -/
def execTabuskLinkUp (t link member count rate : Nat) (s : State) : Result :=
  s.runIf (Wf.link link && Wf.member member) t (fun b => b.casLinkUp link member count rate)

/-- R380: Every 1 ms the master sends a TIME frame on both links. -/
def execTimeFrameSend (t : Nat) (s : State) : Result := s.run t (fun b => b.timeFrameSend)

/-- R380: Every 10 ms a member measures each link's delay. -/
def execDelayExchange (t link delay : Nat) (s : State) : Result := s.runIf (Wf.link link) t (fun b => b.delayExchange link delay)

/-- R379: A member unheard for 1 ms becomes ABSENT. -/
def execMemberLost (t member : Nat) (s : State) : Result := s.runIf (Wf.member member) t (fun b => b.memberLost member)

/-- R380: TB0 differing from TB6 by over 10 µs for 1 s clears TIME_OK. -/
def execTimeFault (t : Nat) (s : State) : Result := s.run t (fun b => b.timeFault)

/-- R384: Every 100 µs a HEALTHY active sends RENEW on both paths. -/
def execRenewSend (t : Nat) (s : State) : Result := s.run t (fun b => b.renewSend)

/-- R383: A partner receives a RENEW. -/
def execHeartbeatRenewRx (t path : Nat) (x : Machine.RedMsg) (good : Bool) (s : State) : Result :=
  s.runIf (Wf.path path) t (fun b => b.renewRx path x good)

/-- R384: An ACK arrives and extends the lease. -/
def execHeartbeatAckRx (t path : Nat) (x : Machine.RedMsg) (good : Bool) (s : State) : Result :=
  s.runIf (Wf.path path) t (fun b => b.ackRx path x good)

/-- R386: A partner receives FAIL: the standby takes over or the active enters SOLO. -/
def execHeartbeatFailRx (t path : Nat) (x : Machine.RedMsg) (good : Bool) (s : State) : Result :=
  s.runIf (Wf.path path) t (fun b => b.failRx path x good)

/-- R396: The standby receives RELEASE and becomes active. -/
def execHeartbeatReleaseRx (t path : Nat) (x : Machine.RedMsg) (good : Bool) (stNums : List (Nat × Nat)) (s : State) : Result :=
  s.runIf (Wf.path path) t (fun b => b.releaseRx path x good stNums)

/-- R389: A listening partner receives HELLO and resolves roles by PREFERRED. -/
def execHeartbeatHelloRx (t path : Nat) (x : Machine.RedMsg) (good : Bool) (s : State) : Result :=
  s.runIf (Wf.path path) t (fun b => b.helloRx path x good)

/-- R388: A partner receives a NAK carrying the current role epoch. -/
def execHeartbeatNakRx (t path : Nat) (x : Machine.RedMsg) (good : Bool) (s : State) : Result :=
  s.runIf (Wf.path path) t (fun b => b.nakRx path x good)

/-- R383: A heartbeat path is declared down by missed ACKs, missing RENEWs or link loss. -/
def execPathDown (t path : Nat) (s : State) : Result := s.runIf (Wf.path path) t (fun b => b.pathDown path)

/-- R384: The active's lease ends. -/
def execLeaseExpiry (t : Nat) (s : State) : Result := s.run t (fun b => b.leaseExpiry)

/-- R385: 450 µs after the last RENEW the standby takes over. -/
def execTakeoverTimeout (t : Nat) (s : State) : Result := s.run t (fun b => b.takeoverTimeout)

/-- R392: The standby receives a checkpoint frame and writes its items home. -/
def execCheckpointRx (t : Nat) (f : Machine.CkptFrame) (s : State) : Result := s.run t (fun b => b.checkpointRx f)

/-- R393: Restore ends: generation increments, rings start and flagged basins open. -/
def execRestoreDone (t : Nat) (s : State) : Result := s.run t (fun b => b.restoreDone)

/-- R389: The 1 s listen after ACQUIRE ends and the partner resolves its role. -/
def execRoleListenEnd (t : Nat) (s : State) : Result := s.run t (fun b => b.listenOver)

/-- R395: A write to RED.CMD HANDOVER starts a planned handover or is refused. -/
def execRedHandoverCmd (t m : Nat) (s : State) : Result := s.runIf (Wf.master m) t (fun b => b.byMaster m 19 0x41C (fun b => b.handoverCmd))

/-- R395: The fail-back hold-down elapses and a planned handover starts. -/
def execFailbackHolddownEnd (t : Nat) (s : State) : Result := s.run t (fun b => b.failbackEnd)

/-- R396: The standby receives a CONTROL HANDOVER(h) frame. -/
def execHandoverControlRx (t epoch slot seq : Nat) (good : Bool) (s : State) : Result := s.run t (fun b => b.controlRx epoch slot seq good)

/-- R396: At weir B of h − 1 plus RESEND_WIN the old active stops output. -/
def execHandoverOutputStop (t : Nat) (s : State) : Result := s.run t (fun b => b.handoverStop)

end Sys2Proof.Machine
end

