-- ==== Sys2Proof/Machine/PortCmds.lean ====
section
/-! DEFINITION. Commands of the ports and the frame MAC (chapter 2). -/

namespace Sys2Proof.Machine

/-- R33: A port receives a frame, admits it, checks, filters, stamps and classifies it. -/
def execFrameReceive (t port : Nat) (data : List Byte) (s : State) : Result :=
  s.runIf (Wf.port port) t (fun b => (b.frameReceive port data).modeFollow)

/-- R30: A port's link comes up after negotiation resolves full duplex. -/
def execLinkUp (t port mbps : Nat) (half : Bool) (s : State) : Result := s.runIf (Wf.port port) t (fun b => b.linkUp port mbps half)

/-- R49: A port's link goes down, aborting the frame in progress and discarding queued frames. -/
def execLinkDown (t port : Nat) (onWire : Bool) (s : State) : Result := s.runIf (Wf.port port) t (fun b => b.linkDown port onWire)

/-- R471: A pluggable module is inserted into or removed from a cage. -/
def execSfpChange (t port : Nat) (change : ModuleChange) (s : State) : Result :=
  s.runIf (Wf.port port) t (fun b => b.sfpChange port change)

/-- R471: A cage drawing over 1.3 times its limit for 10 ms is switched off. -/
def execCagePower (t : Nat) (cut : PortCut) (s : State) : Result := s.runIf (Wf.port cut.port) t (fun b => b.cagePower cut.port cut.onWire)

/-- R31: A write to PORT_CFG or PAIR_CFG takes effect at the next frame boundary in each direction. -/
def execPortCfgApply (t port : Nat) (tx : Bool) (s : State) : Result := s.runIf (Wf.port port) t (fun b => b.portCfgApply port tx)

/-- R38: A write to a filter entry's high word commits the whole entry. -/
def execFilterEntryCommit (t m entry value : Nat) (s : State) : Result :=
  s.runIf (Wf.master m && Wf.filter entry) t (fun b => b.byMaster m 2 (filterHigh entry) (fun b => b.regWrite m 2 (filterHigh entry) (w32 value)))

/-- R44: A forwarded frame leaves the egress port of its bridge pair. -/
def execForwardEgress (t port : Nat) (s : State) : Result := s.runIf (Wf.port port) t (fun b => b.transmit port true)

/-- R47: A two-step table entry without a Follow_Up for 1 s is freed. -/
def execTcEntryTimeout (t pair : Nat) (s : State) : Result := s.runIf (Wf.bridge pair) t (fun b => b.tcTimeout pair)

/-- R48: A queued frame is taken by strict egress priority and sent on the port. -/
def execFrameTransmit (t port : Nat) (s : State) : Result := s.runIf (Wf.port port) t (fun b => b.transmit port false)

/-- R50: A large-send descriptor is checked and cut into TCP segments with replicated headers. -/
def execLargeSend (t port cls : Nat) (d : Machine.LargeDesc) (s : State) : Result :=
  s.runIf (Wf.port port && Wf.egress cls) t (fun b => b.largeSend port cls d)

/-- R51: A UDP descriptor is checked and sent as IP fragments. -/
def execUdpFragmentSend (t port cls : Nat) (d : Machine.UdpDesc) (s : State) : Result :=
  s.runIf (Wf.port port && Wf.egress cls) t (fun b => b.udpSend port cls d)

end Sys2Proof.Machine
end

