-- ==== Sys2Proof/Machine/RadioCmds.lean ====
section
/-! DEFINITION. Commands of the radio tier (chapter 12). -/

namespace Sys2Proof.Machine

/-- R312: A radio slot begins and each unit acts on its active cell. -/
def execRadioSlot (t : Nat) (s : State) : Result := s.run t (fun b => b.radioSlot)

/-- R313: A unit receives an uplink frame, verifies it and answers with an Enh-ACK. -/
def execUplinkFrame (t unit : Nat) (f : Machine.RadFrame) (aborted : Bool) (s : State) : Result :=
  s.runIf (Wf.radioUnit unit) t (fun b => b.uplinkFrame unit f aborted)

/-- R320: An uplink cell ends with no authenticated frame from its node. -/
def execUplinkMissed (t unit : Nat) (s : State) : Result := s.runIf (Wf.radioUnit unit) t (fun b => b.uplinkMissed unit)

/-- R321: A node acknowledges a downlink, which is cleared with DL_DONE. -/
def execDownlinkAcked (t unit : Nat) (ack : Machine.RadFrame) (s : State) : Result :=
  s.runIf (Wf.radioUnit unit) t (fun b => b.downlinkAcked unit ack)

/-- R321: A downlink attempt goes unacknowledged and after 8 attempts fails. -/
def execDownlinkUnacked (t unit : Nat) (s : State) : Result := s.runIf (Wf.radioUnit unit) t (fun b => b.downlinkUnacked unit)

/-- R321: A write to RAD.NODE_CMD DL_POST posts a downlink or is refused. -/
def execDlPost (t m : Nat) (s : State) : Result :=
  s.runIf (Wf.master m) t (fun b => b.byMaster m 13 0x60 (fun b => b.ifRadio (fun b => b.atSel m 13 1 (fun b i => b.dlPost i))))

/-- R324: A write to RAD.PEND_SET sets pending bits. -/
def execPendSet (t m value : Nat) (s : State) : Result :=
  s.runIf (Wf.master m) t (fun b => b.byMaster m 13 0x438 (fun b => b.ifRadio (fun b => b.pendWrite m true (w32 value))))

/-- R324: A write to RAD.PEND_CLR clears pending bits. -/
def execPendClr (t m value : Nat) (s : State) : Result :=
  s.runIf (Wf.master m) t (fun b => b.byMaster m 13 0x43C (fun b => b.ifRadio (fun b => b.pendWrite m false (w32 value))))

/-- R314: The TP_UNIT hears the time parent's EB or Enh-ACK, a TB5 servo measurement. -/
def execParentFrame (t : Nat) (aborted : Bool) (x : Int) (f : Machine.RadFrame) (s : State) : Result := s.run t (fun b => b.parentFrame aborted x f)

/-- R322: A slotframe after parent loss widens the parent receive window. -/
def execParentGuardWiden (t : Nat) (s : State) : Result := s.run t (fun b => b.guardWiden)

/-- R322: After further slotframes without sync the TP_UNIT scans the hopping channels. -/
def execParentScan (t : Nat) (s : State) : Result := s.run t (fun b => b.parentScan)

/-- R323: A write to RAD.COMMIT commits pending RAD shadow sets. -/
def execRadCommit (t m : Nat) (s : State) : Result :=
  s.runIf (Wf.master m) t (fun b => b.byMaster m 13 0x408 (fun b => b.ifRadio (fun b => b.commitBy m 13)))

end Sys2Proof.Machine
end

