-- ==== Sys2Proof/Machine/StreamCmds.lean ====
section
/-! DEFINITION. Commands of stream ingest and of the basin store (chapters 3 and 4). -/

namespace Sys2Proof.Machine

/-- R69: STR parses an ingest-bound frame and applies the ingest checks to each stream-frame. -/
def execStreamFrameIngest (t port : Nat) (poisoned aborted : Bool) (s : State) : Result :=
  s.runIf (Wf.port port) t (fun b => b.streamIngest port poisoned aborted)

/-- R62: A datagram not complete within REASM_TIMEOUT is discarded. -/
def execReassemblyTimeout (t : Nat) (s : State) : Result := s.run t (fun b => b.reasmTimeout)

/-- R84: STR takes a firmware-path injection descriptor, checks it and processes or refuses it. -/
def execInjectionProcess (t : Nat) (s : State) : Result := s.run t (fun b => b.inject)

/-- R85: A write to STR.COMMIT commits all pending STR shadow sets. -/
def execStrCommit (t m : Nat) (s : State) : Result := s.runIf (Wf.master m) t (fun b => b.byMaster m 3 0x408 (fun b => b.commitBy m 3))

/-- R109: A write to ALN.COMMIT commits all pending ALN shadow sets. -/
def execAlnCommit (t m : Nat) (s : State) : Result := s.runIf (Wf.master m) t (fun b => b.byMaster m 4 0x408 (fun b => b.commitBy m 4))

/-- R108: A RELEARN write schedules clearing of a context's histogram and SEEN at the next basin open. -/
def execCtxRelearn (t m : Nat) (s : State) : Result :=
  s.runIf (Wf.master m) t (fun b => b.byMaster m 4 0x58 (fun b => b.atSel m 4 0 (fun b i => b.ctxRelearn i)))

end Sys2Proof.Machine
end

