-- ==== Sys2Proof/Machine/TimeCmds.lean ====
section
/-! DEFINITION. Commands of the time bases (chapter 9). -/

namespace Sys2Proof.Machine

/-- R251: A time-base source delivers a measurement and the servo runs on it. -/
def execTimeMeasurement (t tb src : Nat) (x : Machine.Meas) (s : State) : Result := s.runIf (Wf.measuredBase tb) t (fun b => b.timed (fun b => b.timeMeasured tb src x))

/-- R243: A source meets its condition for QUAL_S seconds and becomes qualified. -/
def execSourceQualified (t tb src : Nat) (s : State) : Result := s.runIf (Wf.timeBase tb) t (fun b => b.timed (fun b => b.sourceQualified tb src))

/-- R243: A source's loss condition of Table 9.3 occurs and it is lost at once. -/
def execSourceLost (t tb src : Nat) (s : State) : Result := s.runIf (Wf.timeBase tb) t (fun b => b.timed (fun b => b.sourceLoss tb src))

/-- R248: Every 1 s a peer-delay port sends Pdelay_Req. -/
def execPdelayReqSend (t port : Nat) (s : State) : Result := s.runIf (Wf.wirePort port) t (fun b => b.pdelayReq port)

/-- R248: A Pdelay_Resp not received within 100 ms fails the exchange. -/
def execPdelayRespTimeout (t port : Nat) (s : State) : Result := s.runIf (Wf.wirePort port) t (fun b => b.timed (fun b => (b.pdelayTimeout port).modeFollow))

/-- R249: An IRIG-B frame is decoded on TIN. -/
def execIrigFrame (t : Nat) (ok : Machine.IrigCode) (fmt tq : Nat) (leap61 leap59 : Bool) (s : State) : Result :=
  s.run t (fun b => b.timed (fun b => (b.irigFrame ok fmt tq leap61 leap59).modeFollow))

/-- R250: A 1PPS edge arrives on TIN. -/
def execPpsEdge (t : Nat) (s : State) : Result := s.run t (fun b => b.timed (fun b => b.ppsEdge.modeFollow))

/-- R250: A ToD NMEA sentence arrives on TIN. -/
def execTodSentence (t : Nat) (ok : Machine.TodHead) (utc : Nat) (s : State) : Result := s.run t (fun b => b.timed (fun b => (b.todSentence ok utc).modeFollow))

/-- R236: The timing PLL switches between TCXO and REF10, where what it sees of REF10 calls for it. -/
def execOscSwitch (t : Nat) (ref10 : Machine.RefSight) (s : State) : Result := s.run t (fun b => b.timed (fun b => b.oscSwitch ref10))

/-- R252: A time base's error stays within LOCK_LIM for LOCK_HOLD and it becomes LOCKED. -/
def execLockHoldElapsed (t tb : Nat) (s : State) : Result := s.runIf (Wf.timeBase tb) t (fun b => b.timed (fun b => (b.lockHold tb).modeFollow))

/-- R253: A time base's growing error passes LOCK_LIM and it becomes UNLOCKED. -/
def execHoldoverErrorLimit (t tb : Nat) (s : State) : Result := s.runIf (Wf.timeBase tb) t (fun b => b.timed (fun b => (b.errorLimit tb).modeFollow))

/-- R239: A write to TB_VRATE re-anchors a virtual time base with a new rate. -/
def execTbVrateWrite (t m value : Nat) (s : State) : Result :=
  s.runIf (Wf.master m) t (fun b => b.byMaster m 1 0x6C (fun b => b.atSel m 1 0 (fun b i => (b.vrate i (w32 value)).modeFollow)))

/-- R239: A write to TB_VSTEP steps a virtual time base or is refused. -/
def execTbVstepWrite (t m value : Nat) (s : State) : Result :=
  s.runIf (Wf.master m) t (fun b => b.byMaster m 1 0x68 (fun b => b.atSel m 1 0 (fun b i => b.vstepAct i (w32 value))))

/-- R257: A leap second in the table is applied. -/
def execLeapSecond (t : Nat) (s : State) : Result := s.run t (fun b => b.leapSecond)

/-- R260: A pulse output's leading edge time arrives. -/
def execPulseEdge (t po : Nat) (s : State) : Result := s.runIf (Wf.pin po) t (fun b => b.pulseEdge po)

/-- R262: A pulse output's pulse ends and pending settings hand over. -/
def execPulseEnd (t po : Nat) (s : State) : Result := s.runIf (Wf.pin po) t (fun b => b.pulseEndAt po)

/-- R259: A read of TB_NOW_NS latches the seconds and NS32 of the same cycle. -/
def execTbNowRead (t m : Nat) (s : State) : Result := s.runIf (Wf.master m) t (fun b => b.masterRead m 0xF0010058 4)

/-- R263: A write to TIM.COMMIT commits pending TIM shadow sets. -/
def execTimCommit (t m : Nat) (s : State) : Result := s.runIf (Wf.master m) t (fun b => b.byMaster m 1 0x408 (fun b => b.commitBy m 1))

/-- R263: At the next whole TB0 second committed TIM sets are checked and copied. -/
def execTimShadowHandover (t : Nat) (s : State) : Result := s.run t (fun b => b.timed (fun b => b.timHandover.modeFollow))

/-- R256: TB0 passes the expiry second of the LEAPS table, after which TIM keeps the last TAI − UTC value and sets TIM.STATUS[LEAP_EXPIRED]. -/
def execLeapTableExpiry (t : Nat) (s : State) : Result := s.run t (fun b => b.leapExpiry)

end Sys2Proof.Machine
end

