-- ==== Sys2Proof/Machine/Dispatch.lean ====
section
/-! DEFINITION. The meaning of each command by its constructor. -/

namespace Sys2Proof.Machine

/-- The effect of a command on everything but the queue. -/
def exec (i : Instr) (s : State) : Host.Outcome State Fault Refusal :=
  match i with
  | .registerWrite t m addr width value => Sys2Proof.Machine.execRegisterWrite t m addr width value s
  | .rcRead t m addr width => Sys2Proof.Machine.execRcRead t m addr width s
  | .latchingRead t m addr width => Sys2Proof.Machine.execLatchingRead t m addr width s
  | .tick t ring => Sys2Proof.Machine.execTick t ring s
  | .weirADeadline t ring seq => Sys2Proof.Machine.execWeirADeadline t ring seq s
  | .weirASpacingElapsed t ring seq => Sys2Proof.Machine.execWeirASpacingElapsed t ring seq s
  | .weirBDeadline t ring seq => Sys2Proof.Machine.execWeirBDeadline t ring seq s
  | .recordMark t ring seq ctx => Sys2Proof.Machine.execRecordMark t ring seq ctx s
  | .tagExpiry t ring seq => Sys2Proof.Machine.execTagExpiry t ring seq s
  | .retentionEnd t ring seq => Sys2Proof.Machine.execRetentionEnd t ring seq s
  | .missingHeadersDone t ring seq => Sys2Proof.Machine.execMissingHeadersDone t ring seq s
  | .frameReceive t port data => Sys2Proof.Machine.execFrameReceive t port data s
  | .linkUp t port mbps half => Sys2Proof.Machine.execLinkUp t port mbps half s
  | .linkDown t port onWire => Sys2Proof.Machine.execLinkDown t port onWire s
  | .sfpChange t port change => Sys2Proof.Machine.execSfpChange t port change s
  | .cagePower t cut => Sys2Proof.Machine.execCagePower t cut s
  | .portCfgApply t port tx => Sys2Proof.Machine.execPortCfgApply t port tx s
  | .filterEntryCommit t m entry value => Sys2Proof.Machine.execFilterEntryCommit t m entry value s
  | .forwardEgress t port => Sys2Proof.Machine.execForwardEgress t port s
  | .tcEntryTimeout t pair => Sys2Proof.Machine.execTcEntryTimeout t pair s
  | .frameTransmit t port => Sys2Proof.Machine.execFrameTransmit t port s
  | .largeSend t port cls d => Sys2Proof.Machine.execLargeSend t port cls d s
  | .udpFragmentSend t port cls d => Sys2Proof.Machine.execUdpFragmentSend t port cls d s
  | .streamFrameIngest t port poisoned aborted => Sys2Proof.Machine.execStreamFrameIngest t port poisoned aborted s
  | .reassemblyTimeout t => Sys2Proof.Machine.execReassemblyTimeout t s
  | .injectionProcess t => Sys2Proof.Machine.execInjectionProcess t s
  | .strCommit t m => Sys2Proof.Machine.execStrCommit t m s
  | .alnCommit t m => Sys2Proof.Machine.execAlnCommit t m s
  | .ctxRelearn t m => Sys2Proof.Machine.execCtxRelearn t m s
  | .timedLaunch t ring seq stream => Sys2Proof.Machine.execTimedLaunch t ring seq stream s
  | .outBasinRelease t ring seq => Sys2Proof.Machine.execOutBasinRelease t ring seq s
  | .sessOpen t m => Sys2Proof.Machine.execSessOpen t m s
  | .sessClose t m => Sys2Proof.Machine.execSessClose t m s
  | .sessReset t m => Sys2Proof.Machine.execSessReset t m s
  | .sessSendAck t m => Sys2Proof.Machine.execSessSendAck t m s
  | .sessAckWrite t m value => Sys2Proof.Machine.execSessAckWrite t m value s
  | .sessRetx t m value => Sys2Proof.Machine.execSessRetx t m value s
  | .sessionSegmentSend t sess => Sys2Proof.Machine.execSessionSegmentSend t sess s
  | .sessStallReset t sess => Sys2Proof.Machine.execSessStallReset t sess s
  | .cmdDataOff t => Sys2Proof.Machine.execCmdDataOff t s
  | .cmdDataOn t => Sys2Proof.Machine.execCmdDataOn t s
  | .cmdSendHeader t => Sys2Proof.Machine.execCmdSendHeader t s
  | .cmdSendCfg1 t => Sys2Proof.Machine.execCmdSendCfg1 t s
  | .cmdSendCfg2 t => Sys2Proof.Machine.execCmdSendCfg2 t s
  | .cmdSendCfg3 t => Sys2Proof.Machine.execCmdSendCfg3 t s
  | .cmdExtendedFrame t => Sys2Proof.Machine.execCmdExtendedFrame t s
  | .cmdUnknown t => Sys2Proof.Machine.execCmdUnknown t s
  | .resendWindowExpiry t ring seq stream part => Sys2Proof.Machine.execResendWindowExpiry t ring seq stream part s
  | .outCommit t m => Sys2Proof.Machine.execOutCommit t m s
  | .firingDispatch t => Sys2Proof.Machine.execFiringDispatch t s
  | .firingComplete t core last => Sys2Proof.Machine.execFiringComplete t core last s
  | .sluiceRelease t source => Sys2Proof.Machine.execSluiceRelease t source s
  | .dfeInject t m op port => Sys2Proof.Machine.execDfeInject t m op port s
  | .coreReleaseCmd t m => Sys2Proof.Machine.execCoreReleaseCmd t m s
  | .coreMemFault t core => Sys2Proof.Machine.execCoreMemFault t core s
  | .coreHalt t core => Sys2Proof.Machine.execCoreHalt t core s
  | .coreResume t core => Sys2Proof.Machine.execCoreResume t core s
  | .dfeCommit t m => Sys2Proof.Machine.execDfeCommit t m s
  | .acceleratorSolveDone t fault => Sys2Proof.Machine.execAcceleratorSolveDone t fault s
  | .ringdownEnd t => Sys2Proof.Machine.execRingdownEnd t s
  | .rdSkipElapsed t => Sys2Proof.Machine.execRdSkipElapsed t s
  | .gatherComplete t => Sys2Proof.Machine.execGatherComplete t s
  | .rplCommit t m => Sys2Proof.Machine.execRplCommit t m s
  | .islPublish t => Sys2Proof.Machine.execIslPublish t s
  | .defResetCmd t m => Sys2Proof.Machine.execDefResetCmd t m s
  | .aoPulseEnd t pin => Sys2Proof.Machine.execAoPulseEnd t pin s
  | .diChange t input level age => Sys2Proof.Machine.execDiChange t input level age s
  | .gooseRepeat t pub aborted => Sys2Proof.Machine.execGooseRepeat t pub aborted s
  | .islCommit t m => Sys2Proof.Machine.execIslCommit t m s
  | .almCommit t m => Sys2Proof.Machine.execAlmCommit t m s
  | .timeMeasurement t tb src x => Sys2Proof.Machine.execTimeMeasurement t tb src x s
  | .sourceQualified t tb src => Sys2Proof.Machine.execSourceQualified t tb src s
  | .sourceLost t tb src => Sys2Proof.Machine.execSourceLost t tb src s
  | .pdelayReqSend t port => Sys2Proof.Machine.execPdelayReqSend t port s
  | .pdelayRespTimeout t port => Sys2Proof.Machine.execPdelayRespTimeout t port s
  | .irigFrame t ok fmt tq leap61 leap59 => Sys2Proof.Machine.execIrigFrame t ok fmt tq leap61 leap59 s
  | .ppsEdge t => Sys2Proof.Machine.execPpsEdge t s
  | .todSentence t ok utc => Sys2Proof.Machine.execTodSentence t ok utc s
  | .oscSwitch t ref10 => Sys2Proof.Machine.execOscSwitch t ref10 s
  | .lockHoldElapsed t tb => Sys2Proof.Machine.execLockHoldElapsed t tb s
  | .holdoverErrorLimit t tb => Sys2Proof.Machine.execHoldoverErrorLimit t tb s
  | .tbVrateWrite t m value => Sys2Proof.Machine.execTbVrateWrite t m value s
  | .tbVstepWrite t m value => Sys2Proof.Machine.execTbVstepWrite t m value s
  | .leapSecond t => Sys2Proof.Machine.execLeapSecond t s
  | .pulseEdge t po => Sys2Proof.Machine.execPulseEdge t po s
  | .pulseEnd t po => Sys2Proof.Machine.execPulseEnd t po s
  | .tbNowRead t m => Sys2Proof.Machine.execTbNowRead t m s
  | .timCommit t m => Sys2Proof.Machine.execTimCommit t m s
  | .timShadowHandover t => Sys2Proof.Machine.execTimShadowHandover t s
  | .decimatorOutput t ch coarse x => Sys2Proof.Machine.execDecimatorOutput t ch coarse x s
  | .sdmSyncCmd t m => Sys2Proof.Machine.execSdmSyncCmd t m s
  | .syncReset t => Sys2Proof.Machine.execSyncReset t s
  | .chFault t ch => Sys2Proof.Machine.execChFault t ch s
  | .chRecover t ch => Sys2Proof.Machine.execChRecover t ch s
  | .localRecordHandover t point slot => Sys2Proof.Machine.execLocalRecordHandover t point slot s
  | .zeroCrossing t point => Sys2Proof.Machine.execZeroCrossing t point s
  | .zcTimeout t point => Sys2Proof.Machine.execZcTimeout t point s
  | .nrgSnap t m => Sys2Proof.Machine.execNrgSnap t m s
  | .nrgClear t m => Sys2Proof.Machine.execNrgClear t m s
  | .nrgCounterRead t m index => Sys2Proof.Machine.execNrgCounterRead t m index s
  | .periodicSave t => Sys2Proof.Machine.execPeriodicSave t s
  | .energySaveDone t good => Sys2Proof.Machine.execEnergySaveDone t good s
  | .sdmCommit t m => Sys2Proof.Machine.execSdmCommit t m s
  | .nrgCommit t m => Sys2Proof.Machine.execNrgCommit t m s
  | .captureForce t m => Sys2Proof.Machine.execCaptureForce t m s
  | .captureRelease t m => Sys2Proof.Machine.execCaptureRelease t m s
  | .trgInputEdge t pin level => Sys2Proof.Machine.execTrgInputEdge t pin level s
  | .captureSeal t unit => Sys2Proof.Machine.execCaptureSeal t unit s
  | .holdoffEnd t unit => Sys2Proof.Machine.execHoldoffEnd t unit s
  | .busAct t => Sys2Proof.Machine.execBusAct t s
  | .capCommit t m => Sys2Proof.Machine.execCapCommit t m s
  | .radioSlot t => Sys2Proof.Machine.execRadioSlot t s
  | .uplinkFrame t unit f aborted => Sys2Proof.Machine.execUplinkFrame t unit f aborted s
  | .uplinkMissed t unit => Sys2Proof.Machine.execUplinkMissed t unit s
  | .downlinkAcked t unit ack => Sys2Proof.Machine.execDownlinkAcked t unit ack s
  | .downlinkUnacked t unit => Sys2Proof.Machine.execDownlinkUnacked t unit s
  | .dlPost t m => Sys2Proof.Machine.execDlPost t m s
  | .pendSet t m value => Sys2Proof.Machine.execPendSet t m value s
  | .pendClr t m value => Sys2Proof.Machine.execPendClr t m value s
  | .parentFrame t aborted x f => Sys2Proof.Machine.execParentFrame t aborted x f s
  | .parentGuardWiden t => Sys2Proof.Machine.execParentGuardWiden t s
  | .parentScan t => Sys2Proof.Machine.execParentScan t s
  | .radCommit t m => Sys2Proof.Machine.execRadCommit t m s
  | .correctedError t mem unit => Sys2Proof.Machine.execCorrectedError t mem unit s
  | .uncorrectableError t mem unit => Sys2Proof.Machine.execUncorrectableError t mem unit s
  | .ceWriteback t mem => Sys2Proof.Machine.execCeWriteback t mem s
  | .scrubStep t mem => Sys2Proof.Machine.execScrubStep t mem s
  | .scrubStarved t mem => Sys2Proof.Machine.execScrubStarved t mem s
  | .remapCmd t m => Sys2Proof.Machine.execRemapCmd t m s
  | .remapErase t m => Sys2Proof.Machine.execRemapErase t m s
  | .diagRawRead t m => Sys2Proof.Machine.execDiagRawRead t m s
  | .diagRawWrite t m => Sys2Proof.Machine.execDiagRawWrite t m s
  | .diagDataWrite t m => Sys2Proof.Machine.execDiagDataWrite t m s
  | .diagCheckWrite t m => Sys2Proof.Machine.execDiagCheckWrite t m s
  | .memCommit t m => Sys2Proof.Machine.execMemCommit t m s
  | .dmaStart t m => Sys2Proof.Machine.execDmaStart t m s
  | .dmaCommit t m => Sys2Proof.Machine.execDmaCommit t m s
  | .dmaClearHalt t m => Sys2Proof.Machine.execDmaClearHalt t m s
  | .dmaChannelRun t engine => Sys2Proof.Machine.execDmaChannelRun t engine s
  | .dmaChannelComplete t engine => Sys2Proof.Machine.execDmaChannelComplete t engine s
  | .queuePush t m q value => Sys2Proof.Machine.execQueuePush t m q value s
  | .queuePushEop t m q value => Sys2Proof.Machine.execQueuePushEop t m q value s
  | .queuePop t m q => Sys2Proof.Machine.execQueuePop t m q s
  | .queueTrypop t m q => Sys2Proof.Machine.execQueueTrypop t m q s
  | .queueFlush t m => Sys2Proof.Machine.execQueueFlush t m s
  | .queueEnable t m base depth => Sys2Proof.Machine.execQueueEnable t m base depth s
  | .queueDisable t m => Sys2Proof.Machine.execQueueDisable t m s
  | .archiveFrameStart t group => Sys2Proof.Machine.execArchiveFrameStart t group s
  | .archiveSegmentWrite t group => Sys2Proof.Machine.execArchiveSegmentWrite t group s
  | .cmpResume t m value => Sys2Proof.Machine.execCmpResume t m value s
  | .cmpJobGo t m => Sys2Proof.Machine.execCmpJobGo t m s
  | .cmpJobStart t => Sys2Proof.Machine.execCmpJobStart t s
  | .cmpJobDone t => Sys2Proof.Machine.execCmpJobDone t s
  | .cmpCtxReset t m => Sys2Proof.Machine.execCmpCtxReset t m s
  | .cmpCommit t m => Sys2Proof.Machine.execCmpCommit t m s
  | .tabuskFrameRx t link frame => Sys2Proof.Machine.execTabuskFrameRx t link frame s
  | .tabuskLinkDown t link => Sys2Proof.Machine.execTabuskLinkDown t link s
  | .tabuskLinkUp t link member count rate => Sys2Proof.Machine.execTabuskLinkUp t link member count rate s
  | .timeFrameSend t => Sys2Proof.Machine.execTimeFrameSend t s
  | .delayExchange t link delay => Sys2Proof.Machine.execDelayExchange t link delay s
  | .memberLost t member => Sys2Proof.Machine.execMemberLost t member s
  | .timeFault t => Sys2Proof.Machine.execTimeFault t s
  | .renewSend t => Sys2Proof.Machine.execRenewSend t s
  | .heartbeatRenewRx t path x good => Sys2Proof.Machine.execHeartbeatRenewRx t path x good s
  | .heartbeatAckRx t path x good => Sys2Proof.Machine.execHeartbeatAckRx t path x good s
  | .heartbeatFailRx t path x good => Sys2Proof.Machine.execHeartbeatFailRx t path x good s
  | .heartbeatReleaseRx t path x good stNums => Sys2Proof.Machine.execHeartbeatReleaseRx t path x good stNums s
  | .heartbeatHelloRx t path x good => Sys2Proof.Machine.execHeartbeatHelloRx t path x good s
  | .heartbeatNakRx t path x good => Sys2Proof.Machine.execHeartbeatNakRx t path x good s
  | .pathDown t path => Sys2Proof.Machine.execPathDown t path s
  | .leaseExpiry t => Sys2Proof.Machine.execLeaseExpiry t s
  | .takeoverTimeout t => Sys2Proof.Machine.execTakeoverTimeout t s
  | .checkpointRx t f => Sys2Proof.Machine.execCheckpointRx t f s
  | .restoreDone t => Sys2Proof.Machine.execRestoreDone t s
  | .roleListenEnd t => Sys2Proof.Machine.execRoleListenEnd t s
  | .redHandoverCmd t m => Sys2Proof.Machine.execRedHandoverCmd t m s
  | .failbackHolddownEnd t => Sys2Proof.Machine.execFailbackHolddownEnd t s
  | .handoverControlRx t epoch slot seq good => Sys2Proof.Machine.execHandoverControlRx t epoch slot seq good s
  | .handoverOutputStop t => Sys2Proof.Machine.execHandoverOutputStop t s
  | .loadSecret t m => Sys2Proof.Machine.execLoadSecret t m s
  | .eraseSecret t m => Sys2Proof.Machine.execEraseSecret t m s
  | .setEpoch t m => Sys2Proof.Machine.execSetEpoch t m s
  | .setOwner t m => Sys2Proof.Machine.execSetOwner t m s
  | .debugAuth t m => Sys2Proof.Machine.execDebugAuth t m s
  | .keyInstall t => Sys2Proof.Machine.execKeyInstall t s
  | .tamperEvent t now elapsed => Sys2Proof.Machine.execTamperEvent t now elapsed s
  | .accViolation t m addr size write => Sys2Proof.Machine.execAccViolation t m addr size write s
  | .accRelease t m => Sys2Proof.Machine.execAccRelease t m s
  | .eventEntryWrite t => Sys2Proof.Machine.execEventEntryWrite t s
  | .evrFreeze t m => Sys2Proof.Machine.execEvrFreeze t m s
  | .evrThaw t m => Sys2Proof.Machine.execEvrThaw t m s
  | .freezeTimeout t => Sys2Proof.Machine.execFreezeTimeout t s
  | .evrClear t m clrLast => Sys2Proof.Machine.execEvrClear t m clrLast s
  | .clrUnlock t m value => Sys2Proof.Machine.execClrUnlock t m value s
  | .evrCommit t m => Sys2Proof.Machine.execEvrCommit t m s
  | .modeReqMaintenance t m force => Sys2Proof.Machine.execModeReqMaintenance t m force s
  | .modeReqActive t m => Sys2Proof.Machine.execModeReqActive t m s
  | .modeReqDebug t m => Sys2Proof.Machine.execModeReqDebug t m s
  | .modeReqHalt t m => Sys2Proof.Machine.execModeReqHalt t m s
  | .modeReqInvalid t m code => Sys2Proof.Machine.execModeReqInvalid t m code s
  | .powerOn t mains straps => Sys2Proof.Machine.execPowerOn t mains straps s
  | .loadComplete t => Sys2Proof.Machine.execLoadComplete t s
  | .selftestDone t r => Sys2Proof.Machine.execSelftestDone t r s
  | .haltRestart t => Sys2Proof.Machine.execHaltRestart t s
  | .imageConfirm t => Sys2Proof.Machine.execImageConfirm t s
  | .tuningSet t m => Sys2Proof.Machine.execTuningSet t m s
  | .imageVerify t m => Sys2Proof.Machine.execImageVerify t m s
  | .imageSwitch t m => Sys2Proof.Machine.execImageSwitch t m s
  | .dieResetReq t m => Sys2Proof.Machine.execDieResetReq t m s
  | .hostResetReq t m => Sys2Proof.Machine.execHostResetReq t m s
  | .powerFailWarning t => Sys2Proof.Machine.execPowerFailWarning t s
  | .saveComplete t => Sys2Proof.Machine.execSaveComplete t s
  | .tempSample t temp => Sys2Proof.Machine.execTempSample t temp s
  | .holdupTest t => Sys2Proof.Machine.execHoldupTest t s
  | .holdupTestDone t p v0 v1 => Sys2Proof.Machine.execHoldupTestDone t p v0 v1 s
  | .supplyGoodChange t good => Sys2Proof.Machine.execSupplyGoodChange t good s
  | .busTimeout t m addr => Sys2Proof.Machine.execBusTimeout t m addr s
  | .plicClaim t h => Sys2Proof.Machine.execPlicClaim t h s
  | .plicComplete t h src => Sys2Proof.Machine.execPlicComplete t h src s
  | .qspiErase t m => Sys2Proof.Machine.execQspiErase t m s
  | .qspiProgram t m => Sys2Proof.Machine.execQspiProgram t m s
  | .qspiDone t => Sys2Proof.Machine.execQspiDone t s
  | .wdogKick t m value => Sys2Proof.Machine.execWdogKick t m value s
  | .hostWatchdogExpiry t => Sys2Proof.Machine.execHostWatchdogExpiry t s
  | .machineTimerInterrupt t h => Sys2Proof.Machine.execMachineTimerInterrupt t h s
  | .leapTableExpiry t => Sys2Proof.Machine.execLeapTableExpiry t s
  | .sdmShadowHandover t => Sys2Proof.Machine.execSdmShadowHandover t s

end Sys2Proof.Machine
end

