-- ==== Sys2Proof/Safety.lean ====
section
/-! DEFINITION. What statements are written with: the parts of the block, what a command may touch, the canonical memory, a
master's right to a control register, completion. -/

namespace Sys2Proof.Machine

/-- The parts of the block's state, each with its field's name: the registers by copy (what software sees, the active copy, the committed
and the dirty sets, the locks), the memory by its bytes on the bus, the flash, and the poison with the erroneous contents. -/
inductive Part where
  | t7 | free | vis | act | com | dirty | locked | resp | latch | rep | cells
  | flash | poison | evr | sys | pwr | key | tam | acc | tim | aln | mm
  | dma | que | dfe | prt | str | out | cas | rpl | isl | alm | cmp
  | sdm | nrg | cap | rad | red
  deriving DecidableEq, Repr

/-- Two blocks agree in a part. -/
def Part.same (p : Part) (a b : Block) : Prop :=
  match p with
  | .t7 => b.t7 = a.t7
  | .free => b.free = a.free
  | .vis => (b.regs.vis, b.regs.fresh) = (a.regs.vis, a.regs.fresh)
  | .act => b.regs.act = a.regs.act
  | .com => (b.regs.com, b.regs.late, b.regs.handed) = (a.regs.com, a.regs.late, a.regs.handed)
  | .dirty => (b.regs.dirty, b.regs.wrote) = (a.regs.dirty, a.regs.wrote)
  | .locked => b.regs.locked = a.regs.locked
  | .resp => b.resp = a.resp
  | .latch => b.latch = a.latch
  | .rep => b.rep = a.rep
  | .cells => b.mem.cells = a.mem.cells
  | .flash => b.mem.flash = a.mem.flash
  | .poison => (b.mem.poison, b.mem.raw) = (a.mem.poison, a.mem.raw)
  | .evr => b.evr = a.evr
  | .sys => b.sys = a.sys
  | .pwr => b.pwr = a.pwr
  | .key => b.key = a.key
  | .tam => b.tam = a.tam
  | .acc => b.acc = a.acc
  | .tim => b.tim = a.tim
  | .aln => b.aln = a.aln
  | .mm => b.mm = a.mm
  | .dma => b.dma = a.dma
  | .que => b.que = a.que
  | .dfe => b.dfe = a.dfe
  | .prt => b.prt = a.prt
  | .str => b.str = a.str
  | .out => b.out = a.out
  | .cas => b.cas = a.cas
  | .rpl => b.rpl = a.rpl
  | .isl => b.isl = a.isl
  | .alm => b.alm = a.alm
  | .cmp => b.cmp = a.cmp
  | .sdm => b.sdm = a.sdm
  | .nrg => b.nrg = a.nrg
  | .cap => b.cap = a.cap
  | .rad => b.rad = a.rad
  | .red => b.red = a.red

/-- The block at the instant of a command. -/
abbrev State.at (s : State) (t : Nat) : Block := s.blk.clock t

/-- What a command may do to the block: the parts not listed stay as they are, and the memories keep their canonical form. -/
structure Touches (l : List Part) (a b : Block) : Prop where
  keeps : ∀ p, l.contains p = false → p.same a b
  memWf : Memory.wf a.mem = true → Memory.wf b.mem = true

/-- A command answers a next state with the queue as it was, in which a fact holds of the block. -/
def Completes (c : Instr) (s : State) (P : Block → Prop) : Prop :=
  ∃ u, exec c s = .next u ∧ u.pending = s.pending ∧ P u.blk

/-- A command answers a next state in every state, touches only the listed parts, and leaves the queue alone. -/
def Frame (c : Instr) (l : List Part) : Prop := ∀ s, Completes c s (Touches l s.blk)

/-- The same wherever a condition holds before it. -/
def FrameIf (c : Instr) (p : State → Prop) (l : List Part) : Prop := ∀ s, p s → Completes c s (Touches l s.blk)

/-- A master can make a 4-byte write of a control register and ACC permits it (R413 to R415, R447). -/
abbrev Block.mayWrite (b : Block) (m blk off : Nat) : Prop :=
  m < 55 ∧ b.masterReady m = true ∧ b.accOk m (0xF0000000 + 65536 * blk + off) 4 true = true

/-- The same for a 4-byte read. -/
abbrev Block.mayRead (b : Block) (m blk off : Nat) : Prop :=
  m < 55 ∧ b.masterReady m = true ∧ b.accOk m (0xF0000000 + 65536 * blk + off) 4 false = true

/-- A master can make an 8-byte access of a queue, and ACC permits it (R413 to R415). -/
abbrev Block.mayUse (b : Block) (m q reg : Nat) (write : Bool) : Prop :=
  m < 55 ∧ q < 64 ∧ b.masterReady m = true ∧ b.permits m (queueAddr reg) 8 write = true ∧ b.queueRight m q = true

/-- The mode agrees with TB0's state, as modes that follow it do (Table 18.2). -/
abbrev Block.modeSettled (b : Block) : Prop :=
  (b.sys.mode = .acquire → (b.tb 0).st ≠ .locked) ∧ (b.sys.mode = .active → (b.tb 0).st = .locked) ∧
    (b.sys.mode = .holdover → (b.tb 0).st ≠ .locked)

/-- The inputs of every firing that waits or runs carry its tag, as the dispatcher took them (R208, R211). -/
abbrev Block.firingTags (b : Block) : Prop :=
  ∀ c, c < 48 → (∀ f ∈ (b.core c).queue, ∀ k ∈ f.toks, k.tag = f.tag) ∧ (∀ f ∈ (b.core c).running, ∀ k ∈ f.toks, k.tag = f.tag)

/-- A saturating counter of R8 that has advanced by `n` between two blocks. -/
abbrev Block.counts (a b : Block) (d : RegDesc) (i : Nat := 0) (k : Nat := 0) (n : Nat := 1) : Prop :=
  (b.vis d i k).toNat = min ((a.vis d i k).toNat + n) 0xFFFFFFFF

/-- The claim that a stream-frame of a context makes, where it passes checks 8 to 10 and ALN admits it (R69 to R71, R96): the time of the
frame as SOC and fraction, the arrival in TB0 ns. -/
abbrev Block.claimOf (b : Block) (c soc frac arr : Nat) : Option Claim :=
  let r := b.strRing c
  let rate := b.ringRate r
  match b.grid c frac (b.cf Reg.STR_CTX_TIMEBASE c 23 0) with
  | .ok k _ =>
    let slot := (b.secOfSoc soc (b.now / nsPerS) + k / rate) * rate + k % rate
    match b.admitRec r slot c with
    | .claim _ x => some ⟨r, x.seq, c, latBin ((arr : Int) - slotTime rate slot), x.st != .opened⟩
    | _ => none
  | _ => none
/-- What a COMMIT of a block by a master leaves (R5, R439). -/
abbrev CommitDone (a b : Block) (m blk : Nat) : Prop :=
  if m < 4 ∧ bit (a.vis Reg.SYS_CFG).toNat 0 = true then b.regs.com = a.regs.com ∧ b.regs.dirty = a.regs.dirty ∧ a.counts b Reg.SYS_COMMIT_REFUSED
  else b.regs.dirty = a.regs.dirty.filter (fun k => keyBlk k != blk) ∧
    (∀ k ∈ a.regs.dirty, keyBlk k = blk → Tbl.get b.regs.com k 0 = a.visAt k) ∧
    (∀ k, keyBlk k ≠ blk → ∀ d, Tbl.get b.regs.com k d = Tbl.get a.regs.com k d)

/-- What accesses of a memory on the bus see of a unit, neither remapped nor a spare, that holds some data and check bits (R334). -/
abbrev RawReads (a b : Block) (n u : Nat) (r : Nat × Nat) : Prop :=
  n = 1 ∨ n = 2 ∨ n = 9 → (a.munit n).remaps.any (fun e => e.1 == u) = false → a.spareOf n u = none →
    b.load (Mem.byteAddr n u) (Mem.unitBytes n) = leBytes (Mem.unitBytes n) (readsAs n (leNat (a.load (Mem.byteAddr n u) (Mem.unitBytes n))) r) ∧
    ∀ i, i < (if n = 9 then 1 else 8) → b.mem.poison.contains (n, (if n = 9 then 1 else 8) * u + i) = ((unitRead n r).getD i .good == .poison)

/-- Every waiting command names instances that the hardware has. -/
def State.queueWf (s : State) : Bool := s.pending.all Instr.wf

/-- The invariant of every step: the memories in canonical form, well-formed commands waiting. -/
def State.Inv (s : State) : Prop := Memory.wf s.blk.mem = true ∧ s.queueWf = true

end Sys2Proof.Machine

namespace Sys2Proof

/-- The commands that may reset the die, and with it TB7 (R454, R427, R440; register writes reach the same registers). -/
def Instr.mayResetDie : Instr → Bool
  | .powerOn .. | .haltRestart .. | .dieResetReq .. | .imageSwitch .. | .registerWrite .. | .filterEntryCommit .. | .plicComplete ..
  | .busTimeout .. | .dmaChannelComplete .. => true
  | _ => false

/-- The commands that may change the keys: the key update messages and their installation, tamper events, resets and LOAD, and the bus
accesses that reach the same registers (R399 to R411). -/
def Instr.mayTouchKeys (c : Instr) : Bool :=
  c.mayResetDie ||
    (match c with
      | .loadSecret .. | .eraseSecret .. | .setEpoch .. | .setOwner .. | .debugAuth .. | .keyInstall .. | .tamperEvent .. => true
      | _ => false)

/-- An access that a master makes on the bus: the instant, the master, the address, the bytes, the direction, and the queue where the
access is a 64-bit one of a queue register. -/
structure BusUse where
  t : Nat
  m : Nat
  addr : Nat
  size : Nat
  write : Bool
  queue : Option Nat
  deriving DecidableEq, Repr

/-- Whether ACC permits an access (R413, R414). -/
def BusUse.permitted (a : BusUse) (b : Machine.Block) : Bool :=
  match a.queue with
  | some q => b.permits a.m a.addr a.size a.write && b.queueRight a.m q
  | none => b.accOk a.m a.addr a.size a.write

open Machine in
/-- The access that a command makes on the bus, where it is one (R412). -/
def Instr.busUse : Instr → Option BusUse
  | .registerWrite t m addr width _ => some ⟨t, m, addr, width, true, none⟩
  | .rcRead t m addr width => some ⟨t, m, addr, width, false, none⟩
  | .latchingRead t m addr width => some ⟨t, m, addr, width, false, none⟩
  | .filterEntryCommit t m entry _ => some ⟨t, m, 0xF0000000 + 65536 * 2 + (filterHigh entry), 4, true, none⟩
  | .strCommit t m => some ⟨t, m, 0xF0000000 + 65536 * 3 + 0x408, 4, true, none⟩
  | .alnCommit t m => some ⟨t, m, 0xF0000000 + 65536 * 4 + 0x408, 4, true, none⟩
  | .ctxRelearn t m => some ⟨t, m, 0xF0000000 + 65536 * 4 + 0x58, 4, true, none⟩
  | .sessOpen t m => some ⟨t, m, 0xF0000000 + 65536 * 5 + 0x78, 4, true, none⟩
  | .sessClose t m => some ⟨t, m, 0xF0000000 + 65536 * 5 + 0x78, 4, true, none⟩
  | .sessReset t m => some ⟨t, m, 0xF0000000 + 65536 * 5 + 0x78, 4, true, none⟩
  | .sessSendAck t m => some ⟨t, m, 0xF0000000 + 65536 * 5 + 0x78, 4, true, none⟩
  | .sessAckWrite t m _ => some ⟨t, m, 0xF0000000 + 65536 * 5 + 0x68, 4, true, none⟩
  | .sessRetx t m _ => some ⟨t, m, 0xF0000000 + 65536 * 5 + 0x6C, 4, true, none⟩
  | .outCommit t m => some ⟨t, m, 0xF0000000 + 65536 * 5 + 0x408, 4, true, none⟩
  | .dfeInject t m _ _ => some ⟨t, m, 0xF0000000 + 65536 * 9 + 0x42C, 4, true, none⟩
  | .coreReleaseCmd t m => some ⟨t, m, 0xF0000000 + 65536 * 9 + 0x44, 4, true, none⟩
  | .dfeCommit t m => some ⟨t, m, 0xF0000000 + 65536 * 9 + 0x408, 4, true, none⟩
  | .rplCommit t m => some ⟨t, m, 0xF0000000 + 65536 * 6 + 0x408, 4, true, none⟩
  | .defResetCmd t m => some ⟨t, m, 0xF0000000 + 65536 * 8 + 0x5C, 4, true, none⟩
  | .islCommit t m => some ⟨t, m, 0xF0000000 + 65536 * 7 + 0x408, 4, true, none⟩
  | .almCommit t m => some ⟨t, m, 0xF0000000 + 65536 * 8 + 0x408, 4, true, none⟩
  | .tbVrateWrite t m _ => some ⟨t, m, 0xF0000000 + 65536 * 1 + 0x6C, 4, true, none⟩
  | .tbVstepWrite t m _ => some ⟨t, m, 0xF0000000 + 65536 * 1 + 0x68, 4, true, none⟩
  | .tbNowRead t m => some ⟨t, m, 0xF0010058, 4, false, none⟩
  | .timCommit t m => some ⟨t, m, 0xF0000000 + 65536 * 1 + 0x408, 4, true, none⟩
  | .sdmSyncCmd t m => some ⟨t, m, 0xF0000000 + 65536 * 10 + 0x414, 4, true, none⟩
  | .nrgSnap t m => some ⟨t, m, 0xF0000000 + 65536 * 11 + 0x410, 4, true, none⟩
  | .nrgClear t m => some ⟨t, m, 0xF0000000 + 65536 * 11 + 0x80, 4, true, none⟩
  | .nrgCounterRead t m index => some ⟨t, m, 0xF00B0100 + 4 * index, 4, false, none⟩
  | .sdmCommit t m => some ⟨t, m, 0xF0000000 + 65536 * 10 + 0x408, 4, true, none⟩
  | .nrgCommit t m => some ⟨t, m, 0xF0000000 + 65536 * 11 + 0x408, 4, true, none⟩
  | .captureForce t m => some ⟨t, m, 0xF0000000 + 65536 * 12 + 0xA4, 4, true, none⟩
  | .captureRelease t m => some ⟨t, m, 0xF0000000 + 65536 * 12 + 0xA4, 4, true, none⟩
  | .capCommit t m => some ⟨t, m, 0xF0000000 + 65536 * 12 + 0x408, 4, true, none⟩
  | .dlPost t m => some ⟨t, m, 0xF0000000 + 65536 * 13 + 0x60, 4, true, none⟩
  | .pendSet t m _ => some ⟨t, m, 0xF0000000 + 65536 * 13 + 0x438, 4, true, none⟩
  | .pendClr t m _ => some ⟨t, m, 0xF0000000 + 65536 * 13 + 0x43C, 4, true, none⟩
  | .radCommit t m => some ⟨t, m, 0xF0000000 + 65536 * 13 + 0x408, 4, true, none⟩
  | .remapCmd t m => some ⟨t, m, 0xF0000000 + 65536 * 14 + 0x418, 4, true, none⟩
  | .remapErase t m => some ⟨t, m, 0xF0000000 + 65536 * 14 + 0x418, 4, true, none⟩
  | .diagRawRead t m => some ⟨t, m, 0xF0000000 + 65536 * 14 + 0x104, 4, true, none⟩
  | .diagRawWrite t m => some ⟨t, m, 0xF0000000 + 65536 * 14 + 0x104, 4, true, none⟩
  | .diagDataWrite t m => some ⟨t, m, 0xF0000000 + 65536 * 14 + 0x104, 4, true, none⟩
  | .diagCheckWrite t m => some ⟨t, m, 0xF0000000 + 65536 * 14 + 0x104, 4, true, none⟩
  | .memCommit t m => some ⟨t, m, 0xF0000000 + 65536 * 14 + 0x408, 4, true, none⟩
  | .dmaStart t m => some ⟨t, m, 0xF0000000 + 65536 * 15 + 0x6C, 4, true, none⟩
  | .dmaCommit t m => some ⟨t, m, 0xF0000000 + 65536 * 15 + 0x6C, 4, true, none⟩
  | .dmaClearHalt t m => some ⟨t, m, 0xF0000000 + 65536 * 15 + 0x6C, 4, true, none⟩
  | .queuePush t m q _ => some ⟨t, m, queueAddr 0x48, 8, true, some q⟩
  | .queuePushEop t m q _ => some ⟨t, m, queueAddr 0x50, 8, true, some q⟩
  | .queuePop t m q => some ⟨t, m, queueAddr 0x58, 8, false, some q⟩
  | .queueTrypop t m q => some ⟨t, m, queueAddr 0x60, 8, false, some q⟩
  | .queueFlush t m => some ⟨t, m, 0xF0000000 + 65536 * 16 + 0x6C, 4, true, none⟩
  | .queueEnable t m _ _ => some ⟨t, m, 0xF0000000 + 65536 * 16 + 0x40, 4, true, none⟩
  | .queueDisable t m => some ⟨t, m, 0xF0000000 + 65536 * 16 + 0x40, 4, true, none⟩
  | .cmpResume t m _ => some ⟨t, m, 0xF0000000 + 65536 * 17 + 0x434, 4, true, none⟩
  | .cmpJobGo t m => some ⟨t, m, 0xF0000000 + 65536 * 17 + 0x448, 4, true, none⟩
  | .cmpCtxReset t m => some ⟨t, m, 0xF0000000 + 65536 * 17 + 0x4C, 4, true, none⟩
  | .cmpCommit t m => some ⟨t, m, 0xF0000000 + 65536 * 17 + 0x408, 4, true, none⟩
  | .redHandoverCmd t m => some ⟨t, m, 0xF0000000 + 65536 * 19 + 0x41C, 4, true, none⟩
  | .loadSecret t m => some ⟨t, m, 0xF0000000 + 65536 * 20 + 0x428, 4, true, none⟩
  | .eraseSecret t m => some ⟨t, m, 0xF0000000 + 65536 * 20 + 0x428, 4, true, none⟩
  | .setEpoch t m => some ⟨t, m, 0xF0000000 + 65536 * 20 + 0x428, 4, true, none⟩
  | .setOwner t m => some ⟨t, m, 0xF0000000 + 65536 * 20 + 0x428, 4, true, none⟩
  | .debugAuth t m => some ⟨t, m, 0xF0000000 + 65536 * 20 + 0x428, 4, true, none⟩
  | .accViolation t m addr size write => some ⟨t, m, addr, size, write, none⟩
  | .accRelease t m => some ⟨t, m, 0xF0000000 + 65536 * 24 + 0x48, 4, true, none⟩
  | .evrFreeze t m => some ⟨t, m, 0xF0000000 + 65536 * 22 + 0x410, 4, true, none⟩
  | .evrThaw t m => some ⟨t, m, 0xF0000000 + 65536 * 22 + 0x410, 4, true, none⟩
  | .evrClear t m _ => some ⟨t, m, 0xF0000000 + 65536 * 22 + 0x410, 4, true, none⟩
  | .clrUnlock t m _ => some ⟨t, m, 0xF0000000 + 65536 * 22 + 0x414, 4, true, none⟩
  | .evrCommit t m => some ⟨t, m, 0xF0000000 + 65536 * 22 + 0x408, 4, true, none⟩
  | .modeReqMaintenance t m _ => some ⟨t, m, 0xF0000000 + 65536 * 0 + 0x414, 4, true, none⟩
  | .modeReqActive t m => some ⟨t, m, 0xF0000000 + 65536 * 0 + 0x414, 4, true, none⟩
  | .modeReqDebug t m => some ⟨t, m, 0xF0000000 + 65536 * 0 + 0x414, 4, true, none⟩
  | .modeReqHalt t m => some ⟨t, m, 0xF0000000 + 65536 * 0 + 0x414, 4, true, none⟩
  | .modeReqInvalid t m _ => some ⟨t, m, 0xF0000000 + 65536 * 0 + 0x414, 4, true, none⟩
  | .tuningSet t m => some ⟨t, m, 0xF0000000 + 65536 * 0 + 0x430, 4, true, none⟩
  | .imageVerify t m => some ⟨t, m, 0xF0000000 + 65536 * 0 + 0x448, 4, true, none⟩
  | .imageSwitch t m => some ⟨t, m, 0xF0000000 + 65536 * 0 + 0x448, 4, true, none⟩
  | .dieResetReq t m => some ⟨t, m, 0xF0000000 + 65536 * 0 + 0x458, 4, true, none⟩
  | .hostResetReq t m => some ⟨t, m, 0xF0000000 + 65536 * 0 + 0x458, 4, true, none⟩
  | .plicClaim t h => some ⟨t, h, 0x0C200004 + 0x1000 * h, 4, false, none⟩
  | .plicComplete t h _ => some ⟨t, h, 0x0C200004 + 0x1000 * h, 4, true, none⟩
  | .qspiErase t m => some ⟨t, m, 0xF0000000 + 65536 * 0 + 0x49C, 4, true, none⟩
  | .qspiProgram t m => some ⟨t, m, 0xF0000000 + 65536 * 0 + 0x49C, 4, true, none⟩
  | .wdogKick t m _ => some ⟨t, m, 0xF0000000 + 65536 * 0 + 0x454, 4, true, none⟩
  | _ => none

end Sys2Proof
end

