-- ==== Sys2Proof/Certificates/Slice0/Obligations.lean ====
section
/-! DEFINITION. The statements about the model: the machine as a whole, registers and memory, every family of commands, what commands
leave unchanged, access control and keys. -/

open Sys2Proof Sys2Proof.Machine

/-! ### The machine as a whole -/

/-- A step is the command at the front of the queue, run on the state with the queue's rest; on an empty queue the block idles. The queue is the
model's own (log entry 2). -/
def Obligations.StepRunsTheFrontCommand : Prop :=
  (∀ (c : Instr) (r : List Instr) (s : State), s.pending = c :: r → step s = exec c { s with pending := r }) ∧
  (∀ s : State, s.pending = [] → step s = .next s)

/-- Every command answers a next state with the queue as it was, in every state; of one whose operands name an instance that the hardware
does not have, time is all that passes (R448; log entry 108). -/
def Obligations.EveryCommandCompletesOrNamesNoInstance : Prop :=
  ∀ (c : Instr) (s : State), ∃ u, exec c s = .next u ∧ u.pending = s.pending ∧
    (c.wf = false → s.blk.t7 ≤ u.blk.t7 ∧ u.blk = { s.blk with t7 := u.blk.t7 })

/-- What reset leaves: the mode is LOAD (R427), every time base runs free (Table 9.4), no master is frozen (R415), no basin is open, no session is
established, every queue and the command queue are empty; what no rule gives of it is the model's choice (log entry 5). -/
def Obligations.ResetState : Prop :=
  State.reset.pending = [] ∧ State.reset.blk.sys.mode = .load ∧ (∀ n, (State.reset.blk.tb n).st = .freerun) ∧
  (∀ m, State.reset.blk.isFrozen m = false) ∧ (∀ r p, (State.reset.blk.basinAt r p).st = .free) ∧ (∀ i, (State.reset.blk.sess i).st = 0) ∧
  (∀ q, (State.reset.blk.queue q).items = []) ∧ (∀ d i k, State.reset.blk.vis d i k = d.rst i k ∧ State.reset.blk.act d i k = d.rst i k)

/-- At reset a read of a register's first instance returns the reset value that its table gives; a table that gives none leaves 0, the model's choice
(log entry 6); not claimed of the ten rows that show the live state of their block, the identity, or OTP (log entry 11). -/
def Obligations.RegistersReadTheirResetValues : Prop :=
  ∀ blk, blk < 25 → ∀ d ∈ Reg.tables blk, ∀ sp ∈ d.spaces, ∀ k, k < d.n →
    [(0, 0x408), (0, 0x40C), (1, 0x40), (1, 0x48), (7, 0x4C), (8, 0x70), (8, 0x4C), (14, 0x44), (20, 0x410), (20, 0x0500)].contains
      (blk, d.off) = false →
    State.reset.blk.peek blk sp 0 (d.off + d.stride * k) 0 = (d.read (d.rst 0 k)).toNat

/-- The invariant holds at reset. -/
def Obligations.InvariantAtReset : Prop :=
  State.reset.Inv

/-- Every step from a state with the memories in canonical form and well-formed commands waiting answers a next state with the same properties, and
takes one command from the queue. The queue and the memories' form are the model's own (log entries 2 and 3). -/
def Obligations.EveryStepKeepsTheInvariant : Prop :=
  ∀ s : State, s.Inv → ∃ u, step s = .next u ∧ u.Inv ∧ u.pending = s.pending.tail

/-- TB7 never runs backwards (R234): every other command leaves it at its instant or later. -/
def Obligations.TB7NeverRunsBackwards : Prop :=
  ∀ (c : Instr) (s u : State), c.mayResetDie = false → exec c s = .next u → s.blk.t7 ≤ u.blk.t7

/-! ### Registers, memory and queues -/

/-- R7 with the access codes of Table 0.5: after a write, every field of a register of the tables reads, by its code, the value written where it is
no reserved encoding, its old value where it is, its old value with the bits written 1 cleared or turned over, or its old value. -/
def Obligations.FieldsFollowTheirAccessCodes : Prop :=
  ∀ blk, blk < 25 → ∀ d ∈ Reg.tables blk, d.w64 = false → ∀ f ∈ d.fields, ∀ old new : Word,
    let o := fld old f.hi f.lo
    let n := fld new f.hi f.lo
    fld (d.write old new) f.hi f.lo =
      match f.acc with
      | .rw | .rws | .lck => if inRanges n f.legal then n else o
      | .w1c => o - (o &&& n)
      | .w1t => o ^^^ n
      | .ro | .wo | .rc => o

/-- REGISTER_WRITE of a control register that only holds its value: the register takes the write under its access codes, with the W1C bits that an
event of the same cycle sets (R6) and the values that an instance does not admit left out (R7), an RWS register awaits its COMMIT, the master
gets its answer; the other registers keep their values, but for SEL, which may advance. -/
def Obligations.RegisterWriteTakesEffect : Prop :=
  ∀ (t m blk off value : Nat) (s : State) (x : RegAt),
    blk < 25 → off < 65536 → off % 4 = 0 → queueReg (65536 * blk + off) = false → s.blk.mayWrite m blk off →
    (s.at t).locate blk off m = some x → (s.at t).regAct m x (w32 (value % 2 ^ 32)) = none → x.desc.fields.any (fun f => f.acc == .lck) = false →
    Completes (.registerWrite t m (0xF0000000 + 65536 * blk + off) 4 value) s (fun b =>
      b.vis x.desc x.idx x.k = x.desc.write (s.blk.vis x.desc x.idx x.k) ((s.at t).fitted x (w32 (value % 2 ^ 32))) ||| (s.at t).freshBits x ∧
      (blk ≠ 1 → blk ≠ 2 → ((s.at t).fresh x.key).2 = 0 → b.vis x.desc x.idx x.k = x.desc.write (s.blk.vis x.desc x.idx x.k) (w32 (value % 2 ^ 32))) ∧
      Tbl.get b.resp m (.value 0) = .written ∧
      (x.desc.fields.any (fun f => f.acc == .rws) = true → b.regs.dirty.contains x.key = true) ∧
      (∀ (d : RegDesc) (i k : Nat), d.key i k ≠ x.key → 0 < d.off + d.stride * k → d.off + d.stride * k < 65536 → b.vis d i k = s.blk.vis d i k) ∧
      Touches [.t7, .vis, .dirty, .locked, .resp] s.blk b)

/-- REGISTER_WRITE of memory: the bytes of a permitted write to MRAM, the scratch memory or DRAM take the value, least significant byte first (R4),
and every other byte reads as before; a write of part of a DRAM line first reads the line, so the second clause is for a DRAM without a raw
error (R326). A fabric core writes the scratch memory and DRAM in its data cache: a line held there takes the bytes, the core reads them
back, and memory stays as it is until the line is written back (R219, R220). -/
def Obligations.MemoryWriteStoresItsBytes : Prop :=
  (∀ (t m addr width value o : Nat) (r : Region) (s : State),
    m < 55 → Wf.width width = true → s.blk.masterReady m = true → s.blk.accOk m addr width true = true →
    busRegion addr width = some (r, o) → r = .mram ∨ ((r = .scratch ∨ (r = .dram ∧ s.blk.mem.raw = [])) ∧ isCore m = false) →
    Completes (.registerWrite t m addr width value) s (fun b =>
      (∀ i, i < width → b.load8 (addr + i) = BitVec.ofNat 8 (value / 256 ^ i)) ∧
      (∀ a, a < addr ∨ addr + width ≤ a → b.load8 a = s.blk.load8 a) ∧
      b.regs = s.blk.regs ∧ Tbl.get b.resp m (.value 0) = .written ∧ Touches [.t7, .cells, .poison, .resp] s.blk b)) ∧
  (∀ (t m addr width value o : Nat) (r : Region) (s : State),
    isCore m = true → Wf.width width = true → s.blk.masterReady m = true → s.blk.accOk m addr width true = true →
    busRegion addr width = some (r, o) → r = .scratch ∨ r = .dram → addr % 64 + width ≤ 64 →
    ((s.at t).core (m - 4)).dcache.any (fun l => l.line == addr / 64) = true →
    Completes (.registerWrite t m addr width value) s (fun b =>
      (b.coreLoad (m - 4) addr width).1 = leBytes width (value % 2 ^ (8 * width)) ∧ b.mem = s.blk.mem ∧ Tbl.get b.resp m (.value 0) = .written))

/-- RC_READ: the read of a control register with RC fields answers its value and leaves those fields zero; an increment of the same cycle is not in
the answer and stays counted (R9). LATCHING_READ: the read of the low word of a group answers it and latches the group's other words as they are
at that instant. The reads of DFE.MS_USED and PWR.TEMP_MAX restart their peak; those of TB_NOW and of the energy counters have statements of
their own. -/
def Obligations.ReadsClearAndLatch : Prop :=
  (∀ (t m blk off : Nat) (s : State) (x : RegAt),
    blk < 25 → off < 65536 → off % 4 = 0 → queueReg (65536 * blk + off) = false → s.blk.mayRead m blk off →
    (s.at t).locate blk off m = some x → [(1, 0, 0x58), (9, 15, 0x41C), (11, 0, 0x100), (23, 15, 0x418)].contains (blk, x.space, x.desc.off) = false →
    (Completes (.rcRead t m (0xF0000000 + 65536 * blk + off) 4) s (fun b =>
      let n := ((s.at t).fresh x.key).2
      let rc := x.desc.fields.any (fun f => f.acc == .rc)
      ((rc = false ∨ n = 0) → Tbl.get b.resp m (.value 0) = .value ((s.at t).peek blk x.space x.inst off m)) ∧
      (rc = true → n ≠ 0 → Tbl.get b.resp m (.value 0) = .value ((s.at t).fresh x.key).1.toNat) ∧
      (rc = true → n = 0 → ∀ f ∈ x.desc.fields, f.acc = .rc → fld (b.vis x.desc x.idx x.k) f.hi f.lo = 0) ∧
      (x.desc.fields = [⟨"V", 31, 0, .rc, [], []⟩] → (b.vis x.desc x.idx x.k).toNat = min n 0xFFFFFFFF))) ∧
    (Completes (.latchingRead t m (0xF0000000 + 65536 * blk + off) 4) s (fun b =>
      Tbl.get b.resp m (.value 0) = .value ((s.at t).rcValue x ((s.at t).peek blk x.space x.inst off m)) ∧
      ∀ o ∈ Reg.latches blk x.space off, Tbl.get b.latch (regKey blk x.space x.inst o) 0 = w32 ((s.at t).live blk x.space x.inst o m)))) ∧
  (∀ (t m : Nat) (s : State), s.blk.mayRead m 9 0x41C →
    Completes (.rcRead t m 0xF009041C 4) s (fun b => Tbl.get b.resp m (.value 0) = .value ((s.at t).peek 9 15 0 0x41C m) ∧ b.dfe.peak = s.blk.dfe.store.length)) ∧
  (∀ (t m : Nat) (s : State), s.blk.mayRead m 23 0x418 →
    Completes (.rcRead t m 0xF0170418 4) s (fun b => Tbl.get b.resp m (.value 0) = .value ((s.at t).peek 23 15 0 0x418 m) ∧ b.pwr.tempMax = none))

/-- QUEUE_PUSH, QUEUE_PUSH_EOP, QUEUE_POP and QUEUE_TRYPOP: a push into an enabled queue with room adds the item at the back; a pop takes the oldest
item and answers it; from an empty queue POP stalls and TRYPOP answers the EMPTY marker (R346, R348). QUEUE_FLUSH, QUEUE_ENABLE and
QUEUE_DISABLE, for the queue that the master's SEL names: a flush at a packet boundary discards every item, and a break marker
that waits for a slot takes the first one (R346; log entry 78), within a packet it waits for the boundary (R349); an enabling whose slots lie in the pool and in no other enabled queue is accepted with an empty queue, any other leaves EN at 0
(R345); a disabling empties the queue (R350). -/
def Obligations.QueuesHoldTheirItems : Prop :=
  (∀ (t m q value : Nat) (s : State), s.blk.mayUse m q 0x48 true → s.blk.qen q = true → (s.blk.queue q).discarding = false → (s.blk.queue q).breakPending = false → (s.blk.queue q).items.length < s.blk.qcap q → (s.blk.queue q).stalled = [] →
    Completes (.queuePush t m q value) s (fun b => (b.queue q).items = (s.blk.queue q).items ++ [⟨value % 2 ^ 64, false, false⟩] ∧ (b.queue q).pktOpen = true ∧ Tbl.get b.resp m (.value 0) = .written)) ∧
  (∀ (t m q value : Nat) (s : State), s.blk.mayUse m q 0x50 true → s.blk.qen q = true → (s.blk.queue q).discarding = false → (s.blk.queue q).breakPending = false → (s.blk.queue q).items.length < s.blk.qcap q → (s.blk.queue q).stalled = [] →
    Completes (.queuePushEop t m q value) s (fun b => (b.queue q).items = (if (s.blk.queue q).flushPending then [] else (s.blk.queue q).items ++ [⟨value % 2 ^ 64, true, false⟩]) ∧ (b.queue q).pktOpen = false ∧ Tbl.get b.resp m (.value 0) = .written)) ∧
  (∀ (t m q : Nat) (s : State) (i : QItem) (r : List QItem), s.blk.mayUse m q 0x58 false → s.blk.qen q = true → (s.blk.queue q).flushPending = false → (s.blk.queue q).breakPending = false → (s.blk.queue q).items = i :: r → ((s.at t).queueFound q).slotPoisoned q (s.blk.queue q).rd = false →
    Completes (.queuePop t m q) s (fun b => (b.queue q).items = r ∧ Tbl.get b.resp m (.value 0) = .value i.val)) ∧
  (∀ (t m q : Nat) (s : State), s.blk.mayUse m q 0x58 false → s.blk.qen q = true → (s.blk.queue q).flushPending = false → (s.blk.queue q).items = [] →
    Completes (.queuePop t m q) s (fun b => (b.queue q).stalled = (s.blk.queue q).stalled ++ [m] ∧ Tbl.get b.resp m (.value 0) = .stalled (s.at t).t7)) ∧
  (∀ (t m q : Nat) (s : State) (i : QItem) (r : List QItem), s.blk.mayUse m q 0x60 false → s.blk.qen q = true → (s.blk.queue q).flushPending = false → (s.blk.queue q).breakPending = false → (s.blk.queue q).items = i :: r → ((s.at t).queueFound q).slotPoisoned q (s.blk.queue q).rd = false →
    Completes (.queueTrypop t m q) s (fun b => (b.queue q).items = r ∧ Tbl.get b.resp m (.value 0) = .value i.val)) ∧
  (∀ (t m q : Nat) (s : State), s.blk.mayUse m q 0x60 false → (s.blk.queue q).items = [] →
    Completes (.queueTrypop t m q) s (fun b => Tbl.get b.resp m (.value 0) = .value 0xFFFFFFFFFFFFFFFF)) ∧
  (∀ (t m : Nat) (s : State), s.blk.mayWrite m 16 0x6C →
    Completes (.queueFlush t m) s (fun b => let x := s.blk.queue (s.blk.queSel m)
      let y := b.queue (s.blk.queSel m)
      y.stalled = [] ∧ (if x.pktOpen || x.discarding then y.flushPending = true ∧ y.items = x.items
      else y.flushPending = false ∧ y.items = if x.breakPending then [⟨Que.breakMarker, true, true⟩] else []))) ∧
  (∀ (t m base depth : Nat) (s : State), s.blk.mayWrite m 16 0x40 → s.blk.qen (s.blk.queSel m) = false → base < 4096 → 1 ≤ depth → depth ≤ 4096 →
    Completes (.queueEnable t m base depth) s (fun b => let q := s.blk.queSel m
      if s.blk.queueFits q base depth then b.qen q = true ∧ b.qcap q = 64 * depth ∧ b.queue q = Queue.reset else b.qen q = false)) ∧
  (∀ (t m : Nat) (s : State), s.blk.mayWrite m 16 0x40 → s.blk.qen (s.blk.queSel m) = true →
    Completes (.queueDisable t m) s (fun b => b.qen (s.blk.queSel m) = false ∧ b.queue (s.blk.queSel m) = Queue.reset))

/-! ### Ports, streams, basins and output -/

/-- TICK: at the tick of slot time s − 2 the basin for slot time s opens (R15): a running ring takes the next sequence number and the next slot for
it. WEIR_A_DEADLINE, WEIR_A_SPACING_ELAPSED, WEIR_B_DEADLINE: an open basin whose weir A condition holds, in basin order and half a basin period
after the last alarm close (R19, R20), is ALARM_CLOSED with the cause recorded and a copy of its bitmap; one held by that spacing closes with the
cause first seen; an alarm-closed basin whose weir B condition holds, in a later cycle, is OUTPUT_CLOSED (R102). -/
def Obligations.BasinsOpenAndClose : Prop :=
  (∀ (t r : Nat) (s : State), r < 2 → (s.blk.ring r).run = true → s.blk.red.role ≠ 6 → slotTime (s.blk.ringRate r) ((s.blk.ring r).nextSlot - 2) ≤ (s.at t).now →
    Completes (.tick t r) s (fun b => (b.ring r).nextSeq = ((s.blk.ring r).nextSeq + 1) % 2 ^ 32 ∧ (b.ring r).nextSlot = (s.blk.ring r).nextSlot + 1 ∧
      (b.ring r).pos.any (fun e => e.2.st == .opened && e.2.seq == (s.blk.ring r).nextSeq && e.2.slot == (s.blk.ring r).nextSlot) = true)) ∧
  (∀ (t r seq p c : Nat) (s : State), r < 2 → ((s.at t).ring r).seqPos seq = some (p, (s.at t).basinAt r p) → ((s.at t).basinAt r p).st = .opened → ((s.at t).basinAt r p).condA = none → ((s.at t).basinAt r p).weirA (s.at t).now = some c → (s.blk.ring r).run = true → (s.blk.ring r).earlierWaits ((s.at t).basinAt r p).slot true = false → s.blk.weirsWait = false → (s.at t).spacingHolds r = false → s.blk.red.handover = none →
    Completes (.weirADeadline t r seq) s (fun b => (b.basinAt r p).st = .alarmClosed ∧ (b.basinAt r p).causeA = c ∧ (b.basinAt r p).bmpA = (s.blk.basinAt r p).bmp)) ∧
  (∀ (t r seq p c : Nat) (s : State), r < 2 → ((s.at t).ring r).seqPos seq = some (p, (s.at t).basinAt r p) → ((s.at t).basinAt r p).st = .opened → ((s.at t).basinAt r p).condA = some c → ((s.at t).basinAt r p).spaced = true → (s.blk.ring r).run = true → (s.blk.ring r).earlierWaits ((s.at t).basinAt r p).slot true = false → s.blk.weirsWait = false → (s.at t).spacingHolds r = false → s.blk.red.handover = none →
    Completes (.weirASpacingElapsed t r seq) s (fun b => (b.basinAt r p).st = .alarmClosed ∧ (b.basinAt r p).causeA = c ∧ (b.basinAt r p).spaced = true)) ∧
  (∀ (t r seq p c : Nat) (s : State), r < 2 → ((s.at t).ring r).seqPos seq = some (p, (s.at t).basinAt r p) → ((s.at t).basinAt r p).st = .alarmClosed → ((s.at t).basinAt r p).condB = none → ((s.at t).basinAt r p).weirB (s.at t).now = some c → (s.blk.basinAt r p).closeA7 < (s.at t).t7 → (s.blk.ring r).run = true → (s.blk.ring r).earlierWaits (s.blk.basinAt r p).slot false = false → s.blk.sys.mode ≠ .takeover →
    Completes (.weirBDeadline t r seq) s (fun b => (b.basinAt r p).st = .outputClosed ∧ (b.basinAt r p).causeB = c ∧ (b.basinAt r p).bmpB = (s.blk.basinAt r p).bmp))

/-- RECORD_MARK: the mark of a claimed record sets its bit in the arrival bitmap, unless the basin is closed to late records, and ends the claim
(R16, R94). TAG_EXPIRY, MISSING_HEADERS_DONE, OUT_BASIN_RELEASE, RETENTION_END: the tag that is due expires, and no token of a tick-class op of
the ring keeps it (R23), the inputs of a firing being of its tag (R212); after weir B a basin notes that its MISSING headers are written (R101) and that OUT has let go of it (R125); at its
retention end it is closed to late records and its head and bitmap stand in its region (R89, Table 4.6). -/
def Obligations.BasinsAreMarkedAndEnd : Prop :=
  (∀ (t r seq ctx p : Nat) (k : Claim) (s : State), r < 2 → ctx < 8192 → ((s.at t).ring r).seqPos seq = some (p, (s.at t).basinAt r p) → s.blk.aln.claims.find? (fun k => k.ring == r && k.seq == seq && k.ctx == ctx) = some k → (s.blk.basinAt r p).lateClosed = false → s.blk.red.handover = none → s.blk.sys.mode ≠ .takeover →
    Completes (.recordMark t r seq ctx) s (fun b => (b.basinAt r p).bmp.getLsbD ctx = true ∧ b.aln.claims.any (fun k => k.ring == r && k.seq == seq && k.ctx == ctx) = false)) ∧
  (∀ (t r seq : Nat) (s : State), r < 2 → Tbl.get s.blk.dfe.closedTag r none = some seq → (s.blk.ring r).awaits = none → s.blk.firingTags →
    Completes (.tagExpiry t r seq) s (fun b => Tbl.get b.dfe.closedTag r none = none ∧ ∀ k ∈ b.dfe.store, k.tag = seq % 65536 → k.ring = r → k.epoch = true)) ∧
  (∀ (t r seq p : Nat) (s : State), r < 2 → ((s.at t).ring r).seqPos seq = some (p, (s.at t).basinAt r p) → (s.blk.basinAt r p).st = .outputClosed → (s.blk.basinAt r p).missDone = false →
    Completes (.missingHeadersDone t r seq) s (fun b => (b.basinAt r p).missDone = true)) ∧
  (∀ (t r seq p : Nat) (s : State), r < 2 → ((s.at t).ring r).seqPos seq = some (p, (s.at t).basinAt r p) → (s.blk.basinAt r p).st = .outputClosed → (s.blk.basinAt r p).outDone = false → s.blk.outHandedOver r seq = true →
    Completes (.outBasinRelease t r seq) s (fun b => (b.basinAt r p).outDone = true)) ∧
  (∀ (t r seq p : Nat) (s : State), r < 2 → ((s.at t).ring r).seqPos seq = some (p, (s.at t).basinAt r p) → (s.blk.basinAt r p).st = .outputClosed ∨ (s.blk.basinAt r p).st = .retained → (s.blk.basinAt r p).lateClosed = false → (s.blk.basinAt r p).t0 + (s.blk.basinAt r p).retainMs * 1000000 ≤ (s.at t).now →
    Completes (.retentionEnd t r seq) s (fun b => (b.basinAt r p).lateClosed = true ∧
      (∀ i, i < 1088 → b.load8 (s.blk.regionAddr r p + i) = ((s.blk.basinAt r p).head r ++ leBytes 1024 (s.blk.basinAt r p).bmp.toNat).getD i 0) ∧
      ∀ a, a < s.blk.regionAddr r p ∨ s.blk.regionAddr r p + 1088 ≤ a → b.load8 a = s.blk.load8 a))

/-- FRAME_RECEIVE: a frame of 64 bytes or more and no longer than MAX_FRAME, with a good FCS, of an admitted VLAN and address, that is no PTP
message, on a port whose frames no pair forwards, is counted, and an ingest-bound one waits in the receive FIFO with its arrival time (R33 to
R40); a frame with a bad FCS is discarded and counted (R35). FILTER_ENTRY_COMMIT, FORWARD_EGRESS, FRAME_TRANSMIT, TC_ENTRY_TIMEOUT: a write of a
filter entry's high word commits both words (R38); on a port whose link is up the frame that strict priority names leaves with its FCS and is
counted (R44, R48, R53); the two-step entries of 1 s are freed (R47). -/
def Obligations.FramesComeAndGo : Prop :=
  (∀ (t p : Nat) (data : List Byte) (s : State), p < 28 → s.blk.sys.mode ≠ .halt → bits (s.blk.port p).cfgRx 3 0 ≠ 0 → (s.blk.port p).up = true → s.blk.modeSettled → (s.blk.port p).fifoUsed + (s.blk.vis Reg.PRT_MAX_FRAME p).toNat ≤ Prt.fifoSize p → leAt data (data.length - 4) 4 = crc32 (data.take (data.length - 4)) → 64 ≤ data.length → data.length ≤ (s.blk.vis Reg.PRT_MAX_FRAME p).toNat → (s.at t).forwards p (data.take (data.length - 4)) true = false → (s.at t).vlanOk p (data.take (data.length - 4)) = true → (s.at t).addrOk p ((data.take (data.length - 4)).take 6) = true → (s.at t).consumes p ((data.take (data.length - 4)).take 6) = true → (frameType (data.take (data.length - 4))).1 ≠ 0x88F7 → bit (s.blk.port p).cfgRx 7 = true → (s.at t).ingestBound p (data.take (data.length - 4)) = true →
    Completes (.frameReceive t p data) s (fun b => (b.port p).fifo = (s.blk.port p).fifo ++ [⟨data.take (data.length - 4), (s.at t).now⟩] ∧ (b.port p).rxBytes = ((s.blk.port p).rxBytes + data.length) % 2 ^ 64)) ∧
  (∀ (t p : Nat) (data : List Byte) (s : State), p < 30 → s.blk.sys.mode ≠ .halt → bits (s.blk.port p).cfgRx 3 0 ≠ 0 → (s.blk.port p).up = true → s.blk.modeSettled → (s.blk.port p).fifoUsed + (s.blk.vis Reg.PRT_MAX_FRAME p).toNat ≤ Prt.fifoSize p → leAt data (data.length - 4) 4 ≠ crc32 (data.take (data.length - 4)) →
    Completes (.frameReceive t p data) s (fun b => (b.port p).fifo = (s.blk.port p).fifo ∧ (b.port p).rxBytes = ((s.blk.port p).rxBytes + data.length) % 2 ^ 64 ∧
      (b.vis Reg.PRT_RX_FCS_ERR p).toNat = min ((s.blk.vis Reg.PRT_RX_FCS_ERR p).toNat + 1) 0xFFFFFFFF)) ∧
  (∀ (t m e value p : Nat) (s : State), m < 55 → e < 48 → s.blk.mayWrite m 2 (filterHigh e) → s.blk.selInst 2 m 0 = some p →
    Completes (.filterEntryCommit t m e value) s (fun b => Tbl.get (b.port p).filt e (0, 0x00010000) = (if e < 16 then ((s.blk.vis Reg.PRT_UC_LO p e).toNat, (Reg.PRT_UC_HI.write (s.blk.vis Reg.PRT_UC_HI p e) (w32 value)).toNat)
      else ((s.blk.vis Reg.PRT_MC_LO p (e - 16)).toNat, (Reg.PRT_MC_HI.write (s.blk.vis Reg.PRT_MC_HI p (e - 16)) (w32 value)).toNat)))) ∧
  (∀ (t p : Nat) (e : Egress) (s : State), p < 30 → (s.blk.port p).up = true → (s.blk.port p).nextFrame = some e → e.fwd = true → e.fix = .none →
    Completes (.forwardEgress t p) s (fun b => (b.port p).sent = e.bytes ++ leBytes 4 (crc32 e.bytes) ∧ (b.port p).txq = (s.blk.port p).txq.erase e ∧
      (b.port p).txBytes = ((s.blk.port p).txBytes + e.bytes.length + 4) % 2 ^ 64)) ∧
  (∀ (t p : Nat) (e : Egress) (s : State), p < 30 → (s.blk.port p).up = true → (s.blk.port p).nextFrame = some e → e.fwd = false → e.fix = .none →
    Completes (.frameTransmit t p) s (fun b => (b.port p).sent = e.bytes ++ leBytes 4 (crc32 e.bytes) ∧ (b.port p).txq = (s.blk.port p).txq.erase e ∧
      (b.port p).txBytes = ((s.blk.port p).txBytes + e.bytes.length + 4) % 2 ^ 64)) ∧
  (∀ (t pair : Nat) (s : State), pair < 12 →
    Completes (.tcEntryTimeout t pair) s (fun b => (b.port (2 * pair)).tc = (s.blk.port (2 * pair)).tc.filter (fun e => decide ((s.at t).t7 < e.at7 + nsPerS)) ∧
      (b.port (2 * pair)).txq = (s.blk.port (2 * pair)).txq))

/-- LINK_UP, LINK_DOWN, SFP_CHANGE, CAGE_POWER and PORT_CFG_APPLY: on a port that is on and powered, outside HALT, a full-duplex negotiation
result brings the link up at its speed with its interrupt, a half-duplex one and 10 Mb/s on SGMII do not (R30); elsewhere nothing comes up; a
link that goes down loses its queued frames (R49); a module is inserted or removed, and a removal takes the link down (R471); the module of a
cage over its limit is switched off (R471); a written setting takes effect, a direction at a time, and OFF takes the link down (R31). -/
def Obligations.LinksAndModulesChange : Prop :=
  (∀ (t p mbps : Nat) (half : Bool) (s : State), p < 30 → s.blk.sys.mode ≠ .halt → bits (s.blk.port p).cfgRx 3 0 ≠ 0 → (s.blk.port p).powered = true → (s.blk.port p).up = false →
    Completes (.linkUp t p mbps half) s (fun b =>
      if half = true ∨ ((bits (s.blk.port p).cfgRx 3 0 = 3 ∨ bits (s.blk.port p).cfgRx 3 0 = 4) ∧ mbps = 10) then (b.port p).up = false ∧ (b.port p).hdx = true
      else (b.port p).up = true ∧ (b.port p).hdx = false ∧ (b.port p).speed = Prt.speedCode mbps ∧ bit (b.vis Reg.PRT_IRQ_STATUS).toNat p = true)) ∧
  (∀ (t p mbps : Nat) (half : Bool) (s : State), p < 30 → s.blk.sys.mode = .halt ∨ bits (s.blk.port p).cfgRx 3 0 = 0 ∨ (s.blk.port p).powered = false ∨ (s.blk.port p).up = true →
    Completes (.linkUp t p mbps half) s (fun b => b = s.at t)) ∧
  (∀ (t p : Nat) (onWire : Bool) (s : State), p < 30 → (s.blk.port p).up = true →
    Completes (.linkDown t p onWire) s (fun b => (b.port p).up = false ∧ (b.port p).txq = [] ∧ bit (b.vis Reg.PRT_IRQ_STATUS).toNat p = true)) ∧
  (∀ (t p : Nat) (s : State), p < 30 →
    Completes (.sfpChange t p .inserted) s (fun b => (b.port p).modPresent = true ∧ (b.port p).los = false ∧ (b.port p).up = (s.blk.port p).up)) ∧
  (∀ (t p : Nat) (onWire : Bool) (s : State), p < 30 →
    Completes (.sfpChange t p (.removed onWire)) s (fun b => (b.port p).modPresent = false ∧ (b.port p).los = true ∧ (b.port p).up = false ∧
      (b.port p).powered = true ∧ (b.port p).txFault = false)) ∧
  (∀ (t p : Nat) (onWire : Bool) (s : State), p < 30 → (s.blk.port p).modPresent = true →
    Completes (.cagePower t ⟨p, onWire⟩) s (fun b => (b.port p).powered = false ∧ (b.port p).txFault = true ∧ (b.port p).up = false)) ∧
  (∀ (t p : Nat) (tx : Bool) (s : State), p < 30 →
    Completes (.portCfgApply t p tx) s (fun b => let c := (s.blk.vis Reg.PRT_PORT_CFG p).toNat
      (if tx = true then (b.port p).cfgTx = c ∧ (b.port p).cfgRx = (s.blk.port p).cfgRx else (b.port p).cfgRx = c ∧ (b.port p).cfgTx = (s.blk.port p).cfgTx) ∧
      (bits c 3 0 = 0 → (b.port p).up = false) ∧ (bits c 3 0 ≠ 0 → (b.port p).up = (s.blk.port p).up)))

/-- LARGE_SEND and UDP_FRAGMENT_SEND: on a port whose link is up, a descriptor that PRT does not refuse is queued as its TCP segments, ⌈payload ÷
MSS⌉ of them (R50), or as its datagram or fragments (R51); a refused one queues nothing (R50, R52). -/
def Obligations.DescriptorsAreCutIntoFrames : Prop :=
  (∀ (t p cls : Nat) (d : LargeDesc) (s : State), p < 30 → cls < 4 → (s.blk.port p).up = true →
    Completes (.largeSend t p cls d) s (fun b => (b.port p).txq = (s.blk.port p).txq ++ (if s.blk.largeRefused p d then [] else
      ((List.range (ceilDiv d.payload.length d.mss)).map (d.segment (ceilDiv d.payload.length d.mss))).map (fun f => ⟨cls, false, .none, f⟩)))) ∧
  (∀ (t p cls : Nat) (d : UdpDesc) (s : State), p < 30 → cls < 4 → (s.blk.port p).up = true →
    Completes (.udpFragmentSend t p cls d) s (fun b => (b.port p).txq = (s.blk.port p).txq ++ (if d.refused then [] else
      (d.frames (s.blk.portMac p) (s.blk.port p).ip6id).1.map (fun f => ⟨cls, false, .none, f⟩))))

/-- STREAM_FRAME_INGEST and INJECTION_PROCESS: the oldest frame of a port's receive FIFO leaves it, and waits there while records wait for a claim
(R97); one that carries a C37.118.2 data frame of one enabled context, or the next descriptor of the injection ring that does, has its record
claimed where it passes checks 8 to 10 and ALN admits it (R56 to R71, R84, R96). REASSEMBLY_TIMEOUT discards the datagrams that stayed incomplete for REASM_TIMEOUT and no other (R62).
CTX_RELEARN schedules the clearing of the context that the master's SEL names (R108). -/
def Obligations.StreamFramesAreClaimed : Prop :=
  (∀ (t port c n : Nat) (f : RxFrame) (rest : List RxFrame) (v : IpView) (d : Dgram) (k : Claim) (s : State), port < 30 → (s.blk.port port).fifo = f :: rest → s.blk.str.offers = [] → s.blk.aln.claims.length < 64 → s.blk.strCold = false → ipView f.bytes = some v → v.frag = false → d = ⟨port, v.v6, v.src, v.dst, beAt v.udp 0 2, beAt v.udp 2 2, f.stamp, slice v.udp 8 (beAt v.udp 4 2 - 8)⟩ → s.blk.listener v.v6 d.dport = some n → fld (s.blk.cfg Reg.STR_LISTEN 0 n) 27 24 = 0 → c37Ok d.payload = true → c37Chk d.payload = true → c37Type d.payload = 0 → s.blk.byBlock (s.blk.strCtxs d 0 (beAt d.payload 4 2)) = [c] → 16 + s.blk.blockSize c = d.payload.length → s.blk.strEnabled c = true → (s.at t).claimOf c (beAt d.payload 6 4) (beAt d.payload 10 4 % 2 ^ 24) f.stamp = some k →
    Completes (.streamFrameIngest t port false false) s (fun b => (b.port port).fifo = rest ∧ b.aln.claims = s.blk.aln.claims ++ [k] ∧ s.blk.counts b Reg.STR_CTX_RX_RECORDS c)) ∧
  (∀ (t port : Nat) (poisoned aborted : Bool) (f : RxFrame) (rest : List RxFrame) (s : State), port < 30 → (s.blk.port port).fifo = f :: rest → s.blk.str.offers = [] →
    Completes (.streamFrameIngest t port poisoned aborted) s (fun b => (b.port port).fifo = rest)) ∧
  (∀ (t port : Nat) (poisoned aborted : Bool) (s : State), port < 30 → s.blk.str.offers ≠ [] →
    Completes (.streamFrameIngest t port poisoned aborted) s (fun b => b = s.at t)) ∧
  (∀ (t c a : Nat) (p : List Byte) (k : Claim) (s : State), (s.blk.vis Reg.STR_INJ_SIZE).toNat ≠ 0 → s.blk.vis Reg.STR_INJ_HEAD ≠ s.blk.vis Reg.STR_INJ_TAIL → s.blk.str.offers = [] → s.blk.aln.claims.length < 64 → a = s.blk.addrOf Reg.STR_INJ_BASE_LO Reg.STR_INJ_BASE_HI + (s.blk.vis Reg.STR_INJ_HEAD).toNat * 32 → c = s.blk.loadN (a + 12) 2 % 8192 → s.blk.loadN (a + 8) 4 ≤ 16384 → p = s.blk.load (s.blk.loadN a 8) (s.blk.loadN (a + 8) 4) → s.blk.cb Reg.STR_CTX_CTRL c 30 = true → c37Ok p = true → c37Chk p = true → c37Type p = 0 → 16 + s.blk.blockSize c = p.length → s.blk.strEnabled c = true → (s.at t).claimOf c (beAt p 6 4) (beAt p 10 4 % 2 ^ 24) (s.blk.loadN (a + 16) 6 * nsPerS + s.blk.loadN (a + 22) 4) = some k →
    Completes (.injectionProcess t) s (fun b => (b.vis Reg.STR_INJ_HEAD).toNat = ((s.blk.vis Reg.STR_INJ_HEAD).toNat + 1) % (s.blk.vis Reg.STR_INJ_SIZE).toNat ∧ b.aln.claims = s.blk.aln.claims ++ [k] ∧
      s.blk.counts b Reg.STR_CTX_RX_RECORDS c)) ∧
  (∀ (t : Nat) (s : State), (∀ x ∈ s.blk.str.reasm, ∀ y ∈ s.blk.str.reasm, x.key = y.key → x = y) →
    Completes (.reassemblyTimeout t) s (fun b => b.str.reasm = s.blk.str.reasm.filter (fun r => decide ((s.at t).t7 < r.at7 + (s.blk.vis Reg.STR_REASM_TIMEOUT).toNat * 1000)))) ∧
  (∀ (t m c : Nat) (s : State), s.blk.mayWrite m 4 0x58 → s.blk.selInst 4 m 0 = some c →
    Completes (.ctxRelearn t m) s (fun b => b.alnCtx c = { s.blk.alnCtx c with relearn := true }))

/-- STR_COMMIT, ALN_COMMIT, OUT_COMMIT, DFE_COMMIT, RPL_COMMIT, ISL_COMMIT, ALM_COMMIT, NRG_COMMIT, RAD_COMMIT, CMP_COMMIT: the sets of the block
written since its last commit await their hand-over, each register with its value at the commit, and no set of another block is touched (R5); a
host core's commit is ignored and counted while TUNE_ONLY is set (R439). -/
def Obligations.CommitsHandOverTheShadowSets : Prop :=
  (∀ (t m : Nat) (s : State), s.blk.mayWrite m 3 0x408 →
    Completes (.strCommit t m) s (fun b => CommitDone s.blk b m 3)) ∧
  (∀ (t m : Nat) (s : State), s.blk.mayWrite m 4 0x408 →
    Completes (.alnCommit t m) s (fun b => CommitDone s.blk b m 4)) ∧
  (∀ (t m : Nat) (s : State), s.blk.mayWrite m 5 0x408 →
    Completes (.outCommit t m) s (fun b => CommitDone s.blk b m 5)) ∧
  (∀ (t m : Nat) (s : State), s.blk.mayWrite m 9 0x408 →
    Completes (.dfeCommit t m) s (fun b => CommitDone s.blk b m 9)) ∧
  (∀ (t m : Nat) (s : State), s.blk.mayWrite m 6 0x408 →
    Completes (.rplCommit t m) s (fun b => CommitDone s.blk b m 6)) ∧
  (∀ (t m : Nat) (s : State), s.blk.mayWrite m 7 0x408 →
    Completes (.islCommit t m) s (fun b => CommitDone s.blk b m 7)) ∧
  (∀ (t m : Nat) (s : State), s.blk.mayWrite m 8 0x408 →
    Completes (.almCommit t m) s (fun b => CommitDone s.blk b m 8)) ∧
  (∀ (t m : Nat) (s : State), s.blk.mayWrite m 11 0x408 →
    Completes (.nrgCommit t m) s (fun b => CommitDone s.blk b m 11)) ∧
  (∀ (t m : Nat) (s : State), s.blk.mayWrite m 13 0x408 → s.blk.sys.variantW = false →
    Completes (.radCommit t m) s (fun b => CommitDone s.blk b m 13)) ∧
  (∀ (t m : Nat) (s : State), s.blk.mayWrite m 17 0x408 →
    Completes (.cmpCommit t m) s (fun b => CommitDone s.blk b m 17))

/-- SESS_OPEN, SESS_CLOSE, SESS_RESET, SESS_SEND_ACK, SESS_ACK_WRITE and SESS_RETX, for the session that the master's SEL names: an opening with a
good buffer of a TCP stream establishes the session at its ISS; CLOSE takes it to CLOSING; RESET closes it; SEND_ACK sends one segment; an
acknowledgement within the window frees the buffer up to it, and that of the FIN closes; RETX is counted and moves nothing (R128, R130).
SESSION_SEGMENT_SEND sends what the peer's window admits and moves NXT past it, and past the FIN of a closing session once all is sent (R129, R130). SESS_STALL_RESET resets a session stalled for
SESS_STALL_MS, with the RESET interrupt (R129). -/
def Obligations.SessionsActAndSend : Prop :=
  (∀ (t m i : Nat) (s : State), s.blk.mayWrite m 5 0x78 → s.blk.selInst 5 m 1 = some i → (s.blk.sess i).st = 0 → s.blk.cf Reg.OUT_STR_CFG (s.blk.sessStream i) 27 26 = 2 → 65536 ≤ s.blk.sessSize i → s.blk.sessBase i % 64 = 0 →
    Completes (.sessOpen t m) s (fun b => let iss := (s.blk.vis Reg.OUT_SESS_ISS i).toNat
      b.sess i = ⟨1, none, iss, iss, (s.blk.vis Reg.OUT_SESS_WND i).toNat, iss, 0, false⟩)) ∧
  (∀ (t m i : Nat) (s : State), s.blk.mayWrite m 5 0x78 → s.blk.selInst 5 m 1 = some i → (s.blk.sess i).st = 1 →
    Completes (.sessClose t m) s (fun b => (b.sess i).st = 2 ∧ (b.sess i).on = 0 ∧ (b.sess i).top = (s.blk.sess i).top)) ∧
  (∀ (t m i : Nat) (s : State), s.blk.mayWrite m 5 0x78 → s.blk.selInst 5 m 1 = some i → (s.blk.sess i).st ≠ 0 →
    Completes (.sessReset t m) s (fun b => (b.sess i).st = 0 ∧ (b.sess i).on = 0 ∧ (b.sess i).stall = none)) ∧
  (∀ (t m i : Nat) (s : State), s.blk.mayWrite m 5 0x78 → s.blk.selInst 5 m 1 = some i → (s.blk.sess i).st ≠ 0 → (s.blk.port (24 + s.blk.cf Reg.OUT_STR_CFG (s.blk.sessStream i) 24 23)).up = true →
    Completes (.sessSendAck t m) s (fun b => let p := 24 + s.blk.cf Reg.OUT_STR_CFG (s.blk.sessStream i) 24 23
      (b.port p).txq.length = (s.blk.port p).txq.length + 1 ∧ b.sess i = s.blk.sess i)) ∧
  (∀ (t m i a : Nat) (s : State), s.blk.mayWrite m 5 0x68 → s.blk.selInst 5 m 1 = some i → (s.blk.sess i).st ≠ 0 → seqDiff (s.blk.sess i).una (a % 2 ^ 32) ≤ seqDiff (s.blk.sess i).una (s.blk.sess i).nxt →
    Completes (.sessAckWrite t m a) s (fun b => (b.sess i).una = a % 2 ^ 32 ∧ (b.sess i).wnd = (s.blk.vis Reg.OUT_SESS_WND i).toNat ∧
      (b.sess i).st = (if (s.blk.sess i).finSent = true ∧ seqDiff (s.blk.sess i).top (a % 2 ^ 32) = 1 then 0 else (s.blk.sess i).st))) ∧
  (∀ (t m i a : Nat) (s : State), s.blk.mayWrite m 5 0x6C → s.blk.selInst 5 m 1 = some i → (s.blk.sess i).st ≠ 0 →
    Completes (.sessRetx t m a) s (fun b => b.sess i = s.blk.sess i ∧ s.blk.counts b Reg.OUT_SESS_RETX_REQ i)) ∧
  (∀ (t i n : Nat) (s : State), i < 64 → (s.blk.sess i).st ≠ 0 → n = min (seqDiff (s.blk.sess i).nxt (s.blk.sess i).top) ((s.blk.sess i).wnd - seqDiff (s.blk.sess i).una (s.blk.sess i).nxt) →
    Completes (.sessionSegmentSend t i) s (fun b =>
      let fin := (s.blk.sess i).st = 2 ∧ (s.blk.sess i).finSent = false ∧ ((s.blk.sess i).nxt + n) % 2 ^ 32 = (s.blk.sess i).top
      (¬fin → b.sess i = { s.blk.sess i with nxt := ((s.blk.sess i).nxt + n) % 2 ^ 32 }) ∧
      (fin → b.sess i = { s.blk.sess i with nxt := ((s.blk.sess i).top + 1) % 2 ^ 32, finSent := true }))) ∧
  (∀ (t i a : Nat) (s : State), i < 64 → (s.blk.sess i).st = 1 → (s.blk.sess i).stall = some a → a + (s.blk.vis Reg.OUT_SESS_STALL_MS).toNat * 1000000 ≤ (s.at t).t7 →
    Completes (.sessStallReset t i) s (fun b => (b.sess i).st = 0 ∧ s.blk.counts b Reg.OUT_SESS_RESETS ∧ bit (b.vis Reg.OUT_IRQ_STATUS).toNat 2 = true))

/-- CMD_DATA_OFF, CMD_DATA_ON, CMD_SEND_HEADER, CMD_SEND_CFG1, CMD_SEND_CFG2, CMD_SEND_CFG3, CMD_EXTENDED_FRAME and CMD_UNKNOWN: the command at the
head of Q16 that names a part is taken and counted; data off and on act on the part for its session, or for UDP on the part; the header and the
configuration frames of the part go whole into the session's buffer while they fit, CFG-3 on a version 2 stream; an extended frame is passed to
firmware in Q17; any other code is counted as ignored (R132, R133, Table 5.5). -/
def Obligations.CommandsOfSubscribersAct : Prop :=
  (∀ (t : Nat) (i : QItem) (r : List QItem) (c : OutCmd) (p : Nat) (s : State), s.blk.qen 16 = true → (s.blk.queue 16).flushPending = false → (s.blk.queue 16).breakPending = false → (s.blk.queue 16).items = i :: r → bits i.val 63 56 = 1 → s.blk.outCmdOf i.val = c → c.code = 1 → c.part = some p → c.udp = false → (s.blk.sess c.inst).st = 1 →
    Completes (.cmdDataOff t) s (fun b => (b.queue 16).items = r ∧ s.blk.counts b Reg.OUT_STR_CMD_RX c.stream ∧ bit (b.sess c.inst).on (p - (s.blk.outParts c.stream).1) = false)) ∧
  (∀ (t : Nat) (i : QItem) (r : List QItem) (c : OutCmd) (p : Nat) (s : State), s.blk.qen 16 = true → (s.blk.queue 16).flushPending = false → (s.blk.queue 16).breakPending = false → (s.blk.queue 16).items = i :: r → bits i.val 63 56 = 1 → s.blk.outCmdOf i.val = c → c.code = 1 → c.part = some p → c.udp = true →
    Completes (.cmdDataOff t) s (fun b => (b.queue 16).items = r ∧ s.blk.counts b Reg.OUT_STR_CMD_RX c.stream ∧ b.out.udpOn.contains p = false)) ∧
  (∀ (t : Nat) (i : QItem) (r : List QItem) (c : OutCmd) (p : Nat) (s : State), s.blk.qen 16 = true → (s.blk.queue 16).flushPending = false → (s.blk.queue 16).breakPending = false → (s.blk.queue 16).items = i :: r → bits i.val 63 56 = 1 → s.blk.outCmdOf i.val = c → c.code = 2 → c.part = some p → c.udp = false → (s.blk.sess c.inst).st = 1 →
    Completes (.cmdDataOn t) s (fun b => (b.queue 16).items = r ∧ s.blk.counts b Reg.OUT_STR_CMD_RX c.stream ∧ bit (b.sess c.inst).on (p - (s.blk.outParts c.stream).1) = true)) ∧
  (∀ (t : Nat) (i : QItem) (r : List QItem) (c : OutCmd) (p : Nat) (s : State), s.blk.qen 16 = true → (s.blk.queue 16).flushPending = false → (s.blk.queue 16).breakPending = false → (s.blk.queue 16).items = i :: r → bits i.val 63 56 = 1 → s.blk.outCmdOf i.val = c → c.code = 3 → c.part = some p → c.udp = false → (s.blk.sess c.inst).st = 1 →
    Completes (.cmdSendHeader t) s (fun b => (b.queue 16).items = r ∧ s.blk.counts b Reg.OUT_STR_CMD_RX c.stream ∧ (b.sess c.inst).top = ((s.at t).headerFrame c.stream p :: []).foldl (fun y f => if seqDiff (s.blk.sess c.inst).una y + f.length ≤ s.blk.sessSize c.inst then (y + f.length) % 2 ^ 32 else y) (s.blk.sess c.inst).top)) ∧
  (∀ (t : Nat) (i : QItem) (r : List QItem) (c : OutCmd) (p : Nat) (s : State), s.blk.qen 16 = true → (s.blk.queue 16).flushPending = false → (s.blk.queue 16).breakPending = false → (s.blk.queue 16).items = i :: r → bits i.val 63 56 = 1 → s.blk.outCmdOf i.val = c → c.code = 4 → c.part = some p → c.udp = false → (s.blk.sess c.inst).st = 1 →
    Completes (.cmdSendCfg1 t) s (fun b => (b.queue 16).items = r ∧ s.blk.counts b Reg.OUT_STR_CMD_RX c.stream ∧ (b.sess c.inst).top = ((s.at t).cfgFrames c.stream p 2).foldl (fun y f => if seqDiff (s.blk.sess c.inst).una y + f.length ≤ s.blk.sessSize c.inst then (y + f.length) % 2 ^ 32 else y) (s.blk.sess c.inst).top)) ∧
  (∀ (t : Nat) (i : QItem) (r : List QItem) (c : OutCmd) (p : Nat) (s : State), s.blk.qen 16 = true → (s.blk.queue 16).flushPending = false → (s.blk.queue 16).breakPending = false → (s.blk.queue 16).items = i :: r → bits i.val 63 56 = 1 → s.blk.outCmdOf i.val = c → c.code = 5 → c.part = some p → c.udp = false → (s.blk.sess c.inst).st = 1 →
    Completes (.cmdSendCfg2 t) s (fun b => (b.queue 16).items = r ∧ s.blk.counts b Reg.OUT_STR_CMD_RX c.stream ∧ (b.sess c.inst).top = ((s.at t).cfgFrames c.stream p 3).foldl (fun y f => if seqDiff (s.blk.sess c.inst).una y + f.length ≤ s.blk.sessSize c.inst then (y + f.length) % 2 ^ 32 else y) (s.blk.sess c.inst).top)) ∧
  (∀ (t : Nat) (i : QItem) (r : List QItem) (c : OutCmd) (p : Nat) (s : State), s.blk.qen 16 = true → (s.blk.queue 16).flushPending = false → (s.blk.queue 16).breakPending = false → (s.blk.queue 16).items = i :: r → bits i.val 63 56 = 1 → s.blk.outCmdOf i.val = c → c.code = 6 → c.part = some p → c.udp = false → (s.blk.sess c.inst).st = 1 → s.blk.cf Reg.OUT_STR_CFG c.stream 29 28 ≠ 1 →
    Completes (.cmdSendCfg3 t) s (fun b => (b.queue 16).items = r ∧ s.blk.counts b Reg.OUT_STR_CMD_RX c.stream ∧ (b.sess c.inst).top = ((s.at t).cfgFrames c.stream p 5).foldl (fun y f => if seqDiff (s.blk.sess c.inst).una y + f.length ≤ s.blk.sessSize c.inst then (y + f.length) % 2 ^ 32 else y) (s.blk.sess c.inst).top)) ∧
  (∀ (t : Nat) (i : QItem) (r : List QItem) (c : OutCmd) (p : Nat) (s : State), s.blk.qen 16 = true → (s.blk.queue 16).flushPending = false → (s.blk.queue 16).breakPending = false → (s.blk.queue 16).items = i :: r → bits i.val 63 56 = 1 → s.blk.outCmdOf i.val = c → c.code = 8 → c.part = some p → s.blk.qen 17 = true → (s.blk.queue 17).discarding = false → (s.blk.queue 17).breakPending = false → (s.blk.queue 17).flushPending = false → (s.blk.queue 17).items.length < s.blk.qcap 17 → (s.blk.queue 17).stalled = [] →
    Completes (.cmdExtendedFrame t) s (fun b => (b.queue 16).items = r ∧ s.blk.counts b Reg.OUT_STR_CMD_RX c.stream ∧ (b.queue 17).items = (s.blk.queue 17).items ++ [⟨8 * 2 ^ 56 + c.inst % 64 * 2 ^ 48, true, false⟩])) ∧
  (∀ (t : Nat) (i : QItem) (r : List QItem) (c : OutCmd) (p : Nat) (s : State), s.blk.qen 16 = true → (s.blk.queue 16).flushPending = false → (s.blk.queue 16).breakPending = false → (s.blk.queue 16).items = i :: r → bits i.val 63 56 = 1 → s.blk.outCmdOf i.val = c → cmdOther c.code = true → c.part = some p →
    Completes (.cmdUnknown t) s (fun b => (b.queue 16).items = r ∧ s.blk.counts b Reg.OUT_STR_CMD_RX c.stream ∧ s.blk.counts b Reg.OUT_STR_CMD_IGNORED c.stream))

/-- TIMED_LAUNCH: at slot time plus its offset, after weir B, every part of the stream's job for the basin is handed over (R123), unless an earlier
basin of the stream still waits, whose frames go first (R124): then the jobs stay as they are. RESEND_WINDOW_EXPIRY: at the end of the re-send
window, a launched part that got late marks is re-sent, once (R136). -/
def Obligations.PartsAreLaunchedAndResent : Prop :=
  (∀ (t r seq i : Nat) (j : OutJob) (s : State), r < 2 → i < 64 → s.blk.out.jobs.find? (fun j => j.ring == r && j.seq == seq && j.stream == i) = some j → j.weirB.isSome = true → (s.at t).launchDue j = true → j.parts.any (fun p => !p.launched) = true → (s.at t).launchHeld j = false →
    Completes (.timedLaunch t r seq i) s (fun b => ∀ x ∈ b.out.jobs, x.ring = r → x.seq = seq → x.stream = i → x.parts.all (·.launched) = true)) ∧
  (∀ (t r seq i : Nat) (j : OutJob) (s : State), r < 2 → i < 64 → s.blk.out.jobs.find? (fun j => j.ring == r && j.seq == seq && j.stream == i) = some j → (s.at t).launchHeld j = true →
    Completes (.timedLaunch t r seq i) s (fun b => b.out.jobs = s.blk.out.jobs)) ∧
  (∀ (t r seq i part w : Nat) (j : OutJob) (q : OutPart) (s : State), r < 2 → i < 64 → part < 1024 → s.blk.out.jobs.find? (fun j => j.ring == r && j.seq == seq && j.stream == i) = some j → j.parts.find? (fun x => x.part == part) = some q → j.weirB = some w → bit j.cfg 21 = true → q.late = true → q.resent = false → q.launched = true → w + j.word 2 % 2 ^ 25 * 1000 ≤ (s.at t).now →
    Completes (.resendWindowExpiry t r seq i part) s (fun b => ∀ x ∈ b.out.jobs, x.ring = r → x.seq = seq → x.stream = i → ∀ y ∈ x.parts, y.part = part → y.resent = true))

/-! ### The fabric, the ripple engine, islands and alarms -/

/-- FIRING_DISPATCH: the ready instance that R211 names first goes with its tokens to the ready queue of its target core, and an idle core of the pool
starts it after the dispatch gap (R213, R214). FIRING_COMPLETE: the firing of a NAMED_OUT op whose one destination is an analytics sink publishes its scalar there and frees its
core (R213, Table 8.2). SLUICE_RELEASE: a core's held emission, or the first held token of the engines and the dispatcher whose class has room, enters the lowest free entry of
the matching store (R215). DFE_INJECT: a host token for a HOST_IN op, of a range in shared scratch or DRAM, enters the store while class C has room (R223). -/
def Obligations.FiringsArePlacedAndFed : Prop :=
  (∀ (t op tag c : Nat) (spill : Bool) (f : Firing) (s : State), (s.at t).firstReady = some (op, tag) → (s.at t).target op = some (c, spill) → s.blk.dfe.back.any (fun g => g.op == op && g.tag == tag) = false → s.blk.dfe.slices.any (fun g => g.op == op && g.tag == tag) = false → f = ⟨op, tag, s.blk.dfe.store.filter (fun k => k.op == op && k.tag == tag), false, s.blk.rpl.published, (s.at t).t7, false⟩ →
    Completes (.firingDispatch t) s (fun b => b.dfe.store = s.blk.dfe.store.filter (fun k => !(k.op == op && k.tag == tag)) ∧ b.dfe.ready = s.blk.dfe.ready.filter (fun e => e != (op, tag)) ∧
      (b.core c).queue = ((s.at t).core c).queue ++ [f] ∧ (b.core c).running = ((s.at t).core c).running ∧
      (((s.at t).core c).running = none → ((s.at t).core c).queue = [] → ((s.at t).core c).out = false → ∀ u, (s.at t).t7 + dispatchGap ≤ u →
        ((Block.core { b with t7 := u } c).running = some f ∧ (Block.core { b with t7 := u } c).st = .run)))) ∧
  (∀ (t c i : Nat) (f : Firing) (d : OpDef) (s : State), c < 48 → ((s.at t).core c).running = some f → ((s.at t).core c).held = [] → ((s.at t).core c).queue = [] → ((s.at t).core c).haltReq = false → ((s.at t).core c).out = false → s.blk.opDef f.op = some d → d.lib = .namedOut → d.outs.flatten = [.outAnalytics i] → d.epoch = false → f.dead = false → (∀ k ∈ f.toks, k.gen = s.blk.dfe.gen) → s.blk.tagOver d f.tag = false → s.blk.badInput f = false →
    Completes (.firingComplete t c true) s (fun b => Tbl.get b.dfe.analytics (1024 * i + f.tag % 1024) (65536, 0) = (f.tag, leAt (f.data d) 0 4) ∧ (b.core c).running = none ∧ (b.core c).st = .idle ∧
      s.blk.counts b Reg.DFE_CORE_FIRINGS c)) ∧
  (∀ (t c : Nat) (f : Firing) (d : OpDef) (k : Token) (s : State), c < 48 → ((s.at t).core c).running = some f → s.blk.opDef f.op = some d → ((s.at t).core c).held = [.tok k] → k.gen = s.blk.dfe.gen → s.blk.admits 1 = true → (s.blk.dfe.store.find? (fun u => u.op == k.op && u.port == k.port && u.tag % 8 == k.tag % 8)) = none →
    Completes (.sluiceRelease t c) s (fun b => b.dfe.store = s.blk.dfe.store ++ [{ k with entry := freeEntry s.blk.dfe.store s.blk.dfe.store.length 0 }] ∧ (b.core c).held = [])) ∧
  (∀ (t : Nat) (e : Nat × Token) (s : State), s.blk.dfe.engHeld.find? (fun e => s.blk.admits e.1) = some e → e.2.gen = s.blk.dfe.gen → (s.blk.dfe.store.find? (fun u => u.op == e.2.op && u.port == e.2.port && u.tag % 8 == e.2.tag % 8)) = none →
    Completes (.sluiceRelease t 48) s (fun b => b.dfe.store = s.blk.dfe.store ++ [{ e.2 with entry := freeEntry s.blk.dfe.store s.blk.dfe.store.length 0 }] ∧ b.dfe.engHeld = s.blk.dfe.engHeld.erase e)) ∧
  (∀ (t m op port tag : Nat) (d : OpDef) (s : State), s.blk.mayWrite m 9 0x42C → op < 4096 → port < 4 → s.blk.opDef op = some d → d.lib = .hostIn → 1 ≤ fld (s.blk.vis Reg.DFE_INJ_LEN m) 20 0 → fld (s.blk.vis Reg.DFE_INJ_LEN m) 20 0 ≤ 1048576 → refRangeOk (s.blk.addrOf Reg.DFE_INJ_ADDR_LO Reg.DFE_INJ_ADDR_HI m) (fld (s.blk.vis Reg.DFE_INJ_LEN m) 20 0) = true → s.blk.admits 2 = true → tag = (if d.epoch then s.blk.rpl.epoch % 65536 else (Tbl.get s.blk.dfe.closedSeq d.ring 0 + 65535) % 65536) → (s.blk.dfe.store.find? (fun u => u.op == op && u.port == port && u.tag % 8 == tag % 8)) = none →
    Completes (.dfeInject t m op port) s (fun b => b.dfe.store = s.blk.dfe.store ++ [⟨op, port, tag, d.ring, s.blk.dfe.gen, d.epoch, false, 0, 1,
        leBytes 8 (s.blk.addrOf Reg.DFE_INJ_ADDR_LO Reg.DFE_INJ_ADDR_HI m) ++ leBytes 4 (fld (s.blk.vis Reg.DFE_INJ_LEN m) 20 0), freeEntry s.blk.dfe.store s.blk.dfe.store.length 0⟩] ∧ b.vis Reg.DFE_INJ_STATUS m = 0))

/-- CORE_RELEASE_CMD, CORE_MEM_FAULT, CORE_HALT and CORE_RESUME: a release of a core that is frozen or faulted, and of which ACC holds no freeze,
lets it rejoin (R228); a memory fault takes the core out of the pool with its firing lost and its cache and scratch reinitialised, and none is of effect
in a core that is out of service already, frozen or halted (R229; log entry 117); a halt request in DEBUG takes it out at the end
of its firing, and a resume lets it rejoin (R230). -/
def Obligations.FabricCoresLeaveAndReturn : Prop :=
  (∀ (t m c : Nat) (s : State), s.blk.mayWrite m 9 0x44 → s.blk.selInst 9 m 0 = some c → s.blk.acc.frozen.contains (4 + c) = false → ((s.at t).core c).st = .frozen ∨ ((s.at t).core c).st = .memFault →
    Completes (.coreReleaseCmd t m) s (fun b => (b.core c).rejoin = true)) ∧
  (∀ (t c : Nat) (s : State), c < 48 → ((s.at t).core c).st ≠ .frozen → ((s.at t).core c).st ≠ .halted →
    Completes (.coreMemFault t c) s (fun b => (b.core c).st = .memFault ∧ (b.core c).out = true ∧ (b.core c).queue = [] ∧ (b.core c).running = none ∧ (b.core c).faultAt = some (s.at t).t7 ∧
      (b.core c).dcache = [] ∧ (b.core c).scratch = [] ∧ bit (b.vis Reg.DFE_IRQ_STATUS).toNat 3 = true)) ∧
  (∀ (t c : Nat) (s : State), c < 48 → ((s.at t).core c).st = .frozen ∨ ((s.at t).core c).st = .halted →
    Completes (.coreMemFault t c) s (fun b => b.dfe.cores = s.blk.dfe.cores)) ∧
  (∀ (t c : Nat) (s : State), c < 48 → s.blk.sys.mode = .debug → ((s.at t).core c).out = false →
    Completes (.coreHalt t c) s (fun b => if ((s.at t).core c).running.isSome then (b.core c).haltReq = true else (b.core c).st = .halted ∧ (b.core c).out = true)) ∧
  (∀ (t c : Nat) (s : State), c < 48 → ((s.at t).core c).st = .halted →
    Completes (.coreResume t c) s (fun b => (b.core c).rejoin = true))

/-- ACCELERATOR_SOLVE_DONE, RINGDOWN_END, RD_SKIP_ELAPSED and GATHER_COMPLETE: the components of the epoch under solution are ready (R153), a fault
withholds the epoch (R155), and an accelerator that SELFTEST has excluded completes nothing (R154); RD_LEN after its trigger the ringdown ends (R162); RD_SKIP after it every VALID track has its ringdown estimator
(R163); the gathered values of the branches are in place (R169). -/
def Obligations.TheRippleEngineGoesOn : Prop :=
  (∀ (t e seq slot a : Nat) (s : State), s.blk.rpl.solving = some (e, seq, slot, a) → s.blk.rpl.solved = none → bit s.blk.sys.selftestResult 26 = false →
    Completes (.acceleratorSolveDone t false) s (fun b => b.rpl.solved.isSome = true ∧ b.rpl.solving = s.blk.rpl.solving ∧ b.rpl.solveUs = min 65535 (((s.at t).t7 - a) / 1000))) ∧
  (∀ (t e seq slot a : Nat) (s : State), s.blk.rpl.solving = some (e, seq, slot, a) → s.blk.rpl.solved = none → bit s.blk.sys.selftestResult 26 = false →
    Completes (.acceleratorSolveDone t true) s (fun b => b.rpl.solving = none ∧ b.rpl.solved = none ∧ s.blk.counts b Reg.RPL_SOLVE_FAULT)) ∧
  (∀ (t : Nat) (fault : Bool) (s : State), bit s.blk.sys.selftestResult 26 = true →
    Completes (.acceleratorSolveDone t fault) s (fun b => b = s.at t)) ∧
  (∀ (t a : Nat) (s : State), s.blk.rpl.ringdown = some a → a + s.blk.cf Reg.RPL_RD_CFG 0 23 16 * nsPerS ≤ (s.at t).t7 →
    Completes (.ringdownEnd t) s (fun b => b.rpl.ringdown = none ∧ b.rpl.rdDone = true ∧ bit (b.vis Reg.RPL_IRQ_STATUS).toNat 2 = true)) ∧
  (∀ (t a : Nat) (s : State), s.blk.rpl.ringdown = some a → a + s.blk.cf Reg.RPL_RD_CFG 0 15 8 * 100000000 ≤ (s.at t).t7 →
    Completes (.rdSkipElapsed t) s (fun b => ∀ i, i < 16 → (s.blk.track i).status = 2 → (b.track i).rdOn = true)) ∧
  (∀ (t seq p q : Nat) (x : Basin) (s : State), s.blk.rpl.gather = some (seq, p) → (s.blk.ring 0).seqPos seq = some (q, x) →
    Completes (.gatherComplete t) s (fun b => b.rpl.gather = none ∧ ∀ i ∈ s.blk.defList, ∀ v, s.blk.defValues p x i = some v → Tbl.get b.rpl.gathered i (0, 0, 0, 0) = v))

/-- ISL_PUBLISH: the run for the basin under evaluation takes effect as R175 to R186 give it, with the count of its islands for OUT (R121), and no run is
in progress; where its tag has expired, the islands stay as they are (R186). DEF_RESET_CMD marks the definition that the master's SEL names, and keeps
the instant of a reset that waits already (R194). AO_PULSE_END ends a pulse that is over: a pin with a width, driven and not forced, is then out of
its alarm state (R195). DI_CHANGE sets the input's level and no other
(R466). GOOSE_REPEAT: at the end of the interval of a publisher that may send, the message is repeated with the next sqNum and its next
interval (R199); one in the plain profile is queued in egress class 3 of its port, where that is up, and counted (R198). -/
def Obligations.IslandsAlarmsAndPublishersAct : Prop :=
  (∀ (t seq di p : Nat) (x : Basin) (s : State), s.blk.isl.running = some (seq, di) → Tbl.get s.blk.dfe.closedTag 0 none = none → (s.blk.ring 0).seqPos seq = some (p, x) →
    Completes (.islPublish t) s (fun b => b.isl = ((s.at t).islRun x di).isl ∧ b.isl.running = none ∧ b.isl.valid = true ∧
      Tbl.get b.dfe.analytics (1024 * 65536 + seq % 65536 % 1024) (65536, 0) = (seq % 65536, f32Nat b.isl.islands.length))) ∧
  (∀ (t i : Nat) (s : State), Tbl.get s.blk.dfe.closedTag 0 none = some i →
    Completes (.islPublish t) s (fun b => b.isl = s.blk.isl)) ∧
  (∀ (t m d : Nat) (s : State), s.blk.mayWrite m 8 0x5C → s.blk.selInst 8 m 2 = some d →
    Completes (.defResetCmd t m) s (fun b => b.almDef d = { s.blk.almDef d with resetPending := true, resetAt := if (s.blk.almDef d).resetPending = true then (s.blk.almDef d).resetAt else (s.at t).t7 })) ∧
  (∀ (t p e : Nat) (s : State), p < 16 → s.blk.alm.pulses.find? (fun e => e.1 == p) = some (p, e) → e ≤ (s.at t).t7 →
    Completes (.aoPulseEnd t p) s (fun b => Tbl.get b.alm.pulses p 0 = 0 ∧
      (bits (s.blk.cfg Reg.ALM_AO_CFG 0 p).toNat 15 0 ≠ 0 → s.blk.aoDriven p = true → s.blk.sys.mode ≠ .maintenance →
        b.aoEnergised p = bit (s.blk.cfg Reg.ALM_AO_CFG 0 p).toNat 31))) ∧
  (∀ (t i age : Nat) (level : Bool) (s : State), i < 8 →
    Completes (.diChange t i level age) s (fun b => bit b.alm.di i = level ∧ ∀ k, k < 8 → k ≠ i → bit b.alm.di k = bit s.blk.alm.di k)) ∧
  (∀ (t p a port : Nat) (x : Publisher) (s : State), p < 8 → s.blk.pub p = x → x.nextAt = some a → x.on = true → s.blk.pubMay p = true → a ≤ (s.at t).t7 → port = bits (s.blk.cn Reg.ALM_PUB_CFG 0 p) 27 23 →
    Completes (.gooseRepeat t p false) s (fun b => b.pub p = { x with sq := next32 x.sq, i := x.i + 1, nextAt := some (a + s.blk.pubInterval p (x.i + 1)) } ∧
      (bit (s.blk.cn Reg.ALM_PUB_CFG 0 p) 30 = false → s.blk.counts b Reg.ALM_PUB_SENT 0 p ∧
        ((s.blk.port port).up = true → (b.port port).txq = (s.blk.port port).txq ++ [⟨3, false, .none, b.gooseFrame p⟩]))))

/-! ### Time, local measurement, capture and radio -/

/-- TIME_MEASUREMENT: a measurement from the active source that a disciplined TB0 takes, or TB1 to TB4, within the step threshold, while the time
base is not LOCKED, enters the servo: it is the last offset, at this instant (R251). -/
def Obligations.MeasurementsDisciplineTheTimeBases : Prop :=
  (∀ (t src e : Nat) (mm : Meas) (b1 : Block) (x : Int) (ext : Option Nat) (s : State), s.blk.sys.mode ≠ .acquire → (s.at t).measured 0 src mm = some (b1, x, e, ext) → src = s.blk.bestSource 0 → (s.blk.tb 0).src = src → (s.blk.tb 0).st ≠ .locked → (s.blk.tb 0).reacq = false → s.blk.tbEnabled 0 = true → s.blk.tb0Disciplined = true → x.natAbs ≤ s.blk.cn Reg.TIM_TB0_STEP_THR →
    Completes (.timeMeasurement t 0 src mm) s (fun b => (b.tb 0).x = x ∧ (b.tb 0).lastMeas = some (s.at t).t7 ∧ (b.tb 0).eSrc = e)) ∧
  (∀ (t n origin rcv : Nat) (corr x : Int) (s : State), 1 ≤ n → n ≤ 4 → (s.blk.ptpState n).meas = some (origin, corr, rcv) → s.blk.tbEnabled n = true → s.blk.bestSource n = 9 → (s.blk.tb n).src = 9 → (s.blk.tb n).st ≠ .locked → x = ((origin : Int) * 65536 + corr + (s.blk.pdState (s.blk.cf Reg.TIM_PTP_CFG n 28 24)).mean * 256) / 65536 - rcv → x.natAbs ≤ s.blk.cf Reg.TIM_PTP_CFG n 15 8 * 1000 →
    Completes (.timeMeasurement t n 9 .ptp) s (fun b => (b.ptpState n).meas = none ∧ (b.tb n).x = x ∧ (b.tb n).lastMeas = some (s.at t).t7 ∧ s.blk.counts b Reg.TIM_PTP_SYNC_RX n))

/-- SOURCE_QUALIFIED and SOURCE_LOST: a listed source that meets its condition for QUAL_S is qualified (R243); one whose loss condition of Table 9.3 holds is qualified no more, and where it was
the active source and no other is qualified, the time base has no source and is in HOLDOVER or UNLOCKED (Table 9.4). LOCK_HOLD_ELAPSED: E within
LOCK_LIM for LOCK_HOLD makes an ACQUIRING time base LOCKED; HOLDOVER_ERROR_LIMIT: E above it makes a LOCKED or HOLDOVER one UNLOCKED (Table 9.4).
PDELAY_REQ_SEND: an enabled port with no exchange open sends a Pdelay_Req with the next sequence number (R248). PDELAY_RESP_TIMEOUT: an exchange
open for 100 ms fails (R248). -/
def Obligations.TimeSourcesComeAndGo : Prop :=
  (∀ (t n src : Nat) (s : State), n < 7 → s.blk.tbEnabled n = true → (s.at t).sourceOk n src = true → ((List.range 4).map (s.blk.srcCode n)).contains src = true → src ≠ 0 →
    Completes (.sourceQualified t n src) s (fun b => (b.tb n).qual.contains src = true)) ∧
  (∀ (t n src : Nat) (s : State), n < 7 → src ≠ 0 → (s.at t).lossDue n src = true → (s.blk.tb n).src = src → ((List.range 4).map (s.blk.srcCode n)).any (fun c => c != 0 && (setDel (s.blk.tb n).qual src).contains c) = false →
    Completes (.sourceLost t n src) s (fun b => (b.tb n).qual.contains src = false ∧ (b.tb n).src = 0 ∧ ((b.tb n).st = .holdover ∨ (b.tb n).st = .unlocked))) ∧
  (∀ (t n a : Nat) (s : State), n < 7 → (s.blk.tb n).okSince = some a → (s.blk.tb n).st = .acquiring → (s.at t).errOk n = true → a + s.blk.cf Reg.TIM_TB_LOCK n 31 26 * nsPerS ≤ (s.at t).t7 →
    Completes (.lockHoldElapsed t n) s (fun b => (b.tb n).st = .locked ∧ (b.tb n).lockedSince = some (s.at t).t7 ∧ bit (b.vis Reg.TIM_IRQ_STATUS).toNat 1 = true)) ∧
  (∀ (t n : Nat) (s : State), n < 7 → (s.at t).errOk n = false → (s.blk.tb n).st = .locked ∨ (s.blk.tb n).st = .holdover →
    Completes (.holdoverErrorLimit t n) s (fun b => (b.tb n).st = .unlocked ∧ bit (b.vis Reg.TIM_IRQ_STATUS).toNat 3 = true)) ∧
  (∀ (t p : Nat) (s : State), p < 29 → s.blk.cb Reg.TIM_PD_CFG p 31 = true → (s.blk.pdState p).reqAt = none → (s.blk.port p).up = true →
    Completes (.pdelayReqSend t p) s (fun b => (b.pdState p).seq = ((s.blk.pdState p).seq + 1) % 65536 ∧ (b.pdState p).reqAt = some (s.at t).t7 ∧ s.blk.counts b Reg.TIM_PD_EXCH p ∧
      (b.port p).txq = (s.blk.port p).txq ++ [⟨2, false, .pdelayReq, (s.at t).pdFrame p 2 (((s.blk.pdState p).seq + 1) % 65536) (List.replicate 20 0)⟩])) ∧
  (∀ (t p a : Nat) (s : State), p < 29 → (s.blk.pdState p).reqAt = some a → a + 100000000 ≤ (s.at t).t7 →
    Completes (.pdelayRespTimeout t p) s (fun b => (b.pdState p).reqAt = none ∧ (b.pdState p).failRun = (s.blk.pdState p).failRun + 1 ∧ s.blk.counts b Reg.TIM_PD_FAIL p))

/-- IRIG_FRAME, PPS_EDGE and TOD_SENTENCE, where TIN_CFG enables them: a good IRIG-B frame is valid with its quality and the UTC second that it codes,
the second bad one in a row is not; the edge of the polarity that PPS_POL names (log entry 118) is a pulse, present where it comes 1 s ± 1 ms after
the last, and the other edge is none; a good sentence of the format and baud rate of TIN_CFG that names the next second is valid (R243, R249, R250).
OSC_SWITCH: the timing PLL goes to REF10 once that has been within 2 ppm for 10 s, and to the TCXO where it is absent or has been more than 5 ppm away
for 10 ms, with the interrupt of a switch (R236). LEAP_SECOND and LEAP_TABLE_EXPIRY: an entry of the
table is applied once its TAI second has come (R257), and the table is expired from its expiry second on (R256). PULSE_EDGE and PULSE_END: an
armed output's edge that is due starts a pulse of PO_WIDTH, and its trailing edge ends it (R260, R262). -/
def Obligations.TimingInputsAndPulses : Prop :=
  (∀ (t fmt tq : Nat) (c : IrigCode) (l61 l59 : Bool) (s : State), s.blk.cb Reg.TIM_TIN_CFG 0 31 = true → c.good = true →
    Completes (.irigFrame t c fmt tq l61 l59) s (fun b => b.tim.tin.irigValid = true ∧ b.tim.tin.irigMiss = 0 ∧ b.tim.tin.irigTq = tq % 16 ∧ b.tim.tin.irigFmt = fmt % 8 ∧ b.tim.tin.irigUtc = some (c.utc fmt))) ∧
  (∀ (t fmt tq : Nat) (c : IrigCode) (l61 l59 : Bool) (s : State), s.blk.cb Reg.TIM_TIN_CFG 0 31 = true → c.good = false → 1 ≤ s.blk.tim.tin.irigMiss →
    Completes (.irigFrame t c fmt tq l61 l59) s (fun b => b.tim.tin.irigValid = false ∧ b.tim.tin.irigMiss = s.blk.tim.tin.irigMiss + 1)) ∧
  (∀ (t : Nat) (s : State), s.blk.cb Reg.TIM_TIN_CFG 0 29 = true → s.blk.tim.tin.ppsLevel = s.blk.cb Reg.TIM_TIN_CFG 0 28 →
    Completes (.ppsEdge t) s (fun b => b.tim.tin.ppsLevel = !s.blk.tim.tin.ppsLevel ∧ b.tim.tin.ppsAt = some (s.at t).t7 ∧ b.tim.tin.ppsPresent = (match s.blk.tim.tin.ppsAt with
        | some a => decide (a + 999000000 ≤ (s.at t).t7) && decide ((s.at t).t7 ≤ a + 1001000000) | none => true))) ∧
  (∀ (t : Nat) (s : State), s.blk.cb Reg.TIM_TIN_CFG 0 29 = true → s.blk.tim.tin.ppsLevel ≠ s.blk.cb Reg.TIM_TIN_CFG 0 28 →
    Completes (.ppsEdge t) s (fun b => b.tim.tin = { s.blk.tim.tin with ppsLevel := !s.blk.tim.tin.ppsLevel })) ∧
  (∀ (t utc : Nat) (h : TodHead) (s : State), s.blk.cb Reg.TIM_TIN_CFG 0 30 = true → h.rmc = s.blk.cb Reg.TIM_TIN_CFG 0 26 → h.baud = s.blk.cf Reg.TIM_TIN_CFG 0 18 16 → h.good = true → h.rmc = false ∨ h.statusA = true → s.blk.tim.tin.todSec = none ∨ s.blk.tim.tin.todSec = some (utc - 1) ∧ 1 ≤ utc →
    Completes (.todSentence t h utc) s (fun b => b.tim.tin.todSec = some utc ∧ b.tim.tin.todBad = 0 ∧ b.tim.tin.todValid = true)) ∧
  (∀ (t a : Nat) (r : RefSight) (s : State), s.blk.cb Reg.TIM_OSC_CFG 0 0 = true → s.blk.tim.oscActive = 0 → r.present = true → r.ppb ≤ 2000 → s.blk.tim.ref10Good = some a → a + 10 * nsPerS ≤ (s.at t).t7 →
    Completes (.oscSwitch t r) s (fun b => b.tim.oscActive = 1 ∧ b.tim.ref10Present = true ∧ bit (b.vis Reg.TIM_IRQ_STATUS).toNat 6 = true)) ∧
  (∀ (t : Nat) (r : RefSight) (s : State), s.blk.tim.oscActive = 1 → (r.present = false ∨ 5000 < r.ppb ∧ ∃ a, s.blk.tim.ref10Bad = some a ∧ a + 10000000 ≤ (s.at t).t7) →
    Completes (.oscSwitch t r) s (fun b => b.tim.oscActive = 0 ∧ b.tim.ref10Present = r.present ∧ bit (b.vis Reg.TIM_IRQ_STATUS).toNat 6 = true)) ∧
  (∀ (t : Nat) (e : Nat × Int) (s : State), s.blk.tim.leaps[s.blk.tim.leapDone]? = some e → e.1 ≤ (s.at t).now / nsPerS →
    Completes (.leapSecond t) s (fun b => b.tim.leapDone = s.blk.tim.leapDone + 1)) ∧
  (∀ (t : Nat) (s : State), s.blk.tim.leapExpiry ≤ (s.at t).now / nsPerS →
    Completes (.leapTableExpiry t) s (fun b => b.tim.leapExpired = true)) ∧
  (∀ (t i e : Nat) (s : State), i < 8 → (s.blk.poState i).nextEdge = some e → (s.blk.poState i).armed = true → e ≤ (s.at t).tbNow (s.blk.poTb i) → s.blk.pulsesOff = false → (s.blk.cb Reg.TIM_PO_CFG i 27 = true → (s.blk.tb (s.blk.poTb i)).st = .locked) →
    Completes (.pulseEdge t i) s (fun b => (b.poState i).pulseEnd = some (e + s.blk.cn Reg.TIM_PO_WIDTH i) ∧ s.blk.counts b Reg.TIM_PO_EDGES i)) ∧
  (∀ (t i e : Nat) (s : State), i < 8 → (s.blk.poState i).pulseEnd = some e → e ≤ (s.at t).tbNow (s.blk.poTb i) →
    Completes (.pulseEnd t i) s (fun b => (b.poState i).pulseEnd = none))

/-- TB_VRATE_WRITE and TB_VSTEP_WRITE, on the virtual time base that the master's SEL names: the new rate is in force from this instant and the value
goes on; a step moves the value by the signed ns written, TB0's only in ACQUIRE (R239). TB_NOW_READ answers the ns of the second and latches the
second (R259). TIM_COMMIT: the sets written since the last commit, but for those of the pulse outputs, await the next whole second of TB0;
TIM_SHADOW_HANDOVER: at that second a set that waits alone, keeps its ranges and is not written in that very cycle is in force, and none waits any
more (R263). -/
def Obligations.VirtualTimeBasesAndSettings : Prop :=
  (∀ (t m n v : Nat) (s : State), s.blk.mayWrite m 1 0x6C → s.blk.selInst 1 m 0 = some n → (s.blk.tb n).virtual = true → n ≠ 7 →
    Completes (.tbVrateWrite t m v) s (fun b => (b.tb n).rho = (w32 v).toInt ∧ (b.tb n).va = ((s.at t).tbFine n : Int) ∧ (b.tb n).na = (s.at t).refOf n ∧ b.vis Reg.TIM_TB_VRATE n = w32 v)) ∧
  (∀ (t m n v : Nat) (s : State), s.blk.mayWrite m 1 0x68 → s.blk.selInst 1 m 0 = some n → (s.blk.tb n).virtual = true → n ≠ 7 → (n = 0 → s.blk.sys.mode = .acquire) →
    Completes (.tbVstepWrite t m v) s (fun b => (b.tb n).va = ((s.at t).tbFine n : Int) + (w32 v).toInt * 65536 ∧ (b.tb n).na = (s.at t).refOf n ∧ (b.tb n).rho = (s.blk.tb n).rho)) ∧
  (∀ (t m n : Nat) (s : State), s.blk.mayRead m 1 0x58 → s.blk.selInst 1 m 0 = some n →
    Completes (.tbNowRead t m) s (fun b => Tbl.get b.resp m (.value 0) = .value ((s.at t).tbNow n % nsPerS) ∧ (b.tb n).latchSec = (s.at t).tbNow n / nsPerS)) ∧
  (∀ (t m : Nat) (s : State), s.blk.mayWrite m 1 0x408 → 4 ≤ m ∨ bit (s.blk.vis Reg.SYS_CFG).toNat 0 = false →
    Completes (.timCommit t m) s (fun b => b.regs.dirty = s.blk.regs.dirty.filter (fun k => keyBlk k != 1) ∧
      (∀ k ∈ s.blk.regs.dirty, keyBlk k = 1 → keySpace k ≠ 1 → Tbl.get b.regs.com k 0 = s.blk.visAt k ∧ b.tim.handoverAt.isSome = true))) ∧
  (∀ (t a k : Nat) (w : Word) (s : State), s.blk.tim.handoverAt = some a → a ≤ (s.at t).now / nsPerS → s.blk.regs.com = [(k, w)] → (s.at t).lateSet k = none → s.blk.regs.wrote.1 ≠ (s.at t).t7 → keyBlk k = 1 → keySpace k = 15 → Reg.rangeOk k w = true →
    Completes (.timShadowHandover t) s (fun b => b.regs.com = [] ∧ Tbl.get b.regs.act k (Reg.rstOf k) = w ∧ b.tim.handoverAt = none))

/-- DECIMATOR_OUTPUT: a running channel's sample, flagged, clipped and trimmed, is its newest one (R267 to R274). SDM_SYNC_CMD asks for a
synchronising reset at the next whole second, SYNC_RESET is that reset: every running channel is restarted, once in a cycle (R270). CH_FAULT and
CH_RECOVER: a running channel goes to FAULT, one in FAULT leaves it and is restarted alone (R266). SDM_SHADOW_HANDOVER and SDM_COMMIT: the committed
sets wait for the next whole second, and one that waits alone, stands with R287 and is not written in that very cycle is then in force, while the main
ring does not run (R295). -/
def Obligations.ChannelsDeliverAndRecover : Prop :=
  (∀ (t c : Nat) (coarse : Bool) (x : DecimIn) (s : State), c < 16 → s.blk.sdmRuns c = true →
    Completes (.decimatorOutput t c coarse x) s (fun b => ((b.sdmCh c).path coarse).head? = some ((s.at t).sdmEmit c coarse x).2 ∧
      (if coarse then (b.sdmCh c).settleC = (s.blk.sdmCh c).settleC - 1 else (b.sdmCh c).settle = (s.blk.sdmCh c).settle - 1))) ∧
  (∀ (t m : Nat) (s : State), s.blk.mayWrite m 10 0x414 →
    Completes (.sdmSyncCmd t m) s (fun b => b.sdm.syncAt = (match s.blk.sdm.syncAt with | some (a, c) => some (a, c ||| 8) | none => some (((s.at t).now / nsPerS + 1) * nsPerS, 8)))) ∧
  (∀ (t a c : Nat) (s : State), s.blk.sdm.syncAt = some (a, c) → a ≤ (s.at t).now → s.blk.sdm.syncT ≠ some (s.at t).t7 →
    Completes (.syncReset t) s (fun b => b.sdm.syncAt = none ∧ b.sdm.lastSync = (s.at t).now ∧ (∀ i, i < 16 → s.blk.sdmRuns i = true → (s.blk.sdmCh i).resetAt ≠ some (s.at t).t7 →
        (b.sdmCh i).settle = (if s.blk.cb Reg.SDM_CFG 0 2 then 16 else 40) ∧ (b.sdmCh i).settleC = 3) ∧ bit (b.vis Reg.SDM_IRQ_STATUS).toNat 0 = true)) ∧
  (∀ (t c : Nat) (s : State), c < 16 → s.blk.sdmRuns c = true → (s.blk.sdmCh c).fault = false →
    Completes (.chFault t c) s (fun b => (b.sdmCh c).fault = true ∧ s.blk.counts b Reg.SDM_CH_FAULTS c ∧ bit (b.vis Reg.SDM_IRQ_STATUS).toNat 1 = true)) ∧
  (∀ (t c : Nat) (s : State), c < 16 → (s.blk.sdmCh c).fault = true → (s.blk.sdmCh c).resetAt ≠ some (s.at t).t7 →
    Completes (.chRecover t c) s (fun b => (b.sdmCh c).fault = false ∧ (b.sdmCh c).settle = (if s.blk.cb Reg.SDM_CFG 0 2 then 16 else 40) ∧ s.blk.counts b Reg.SDM_CH_SYNCS c ∧ bit (b.vis Reg.SDM_IRQ_STATUS).toNat 2 = true)) ∧
  (∀ (t m : Nat) (s : State), s.blk.mayWrite m 10 0x408 → 4 ≤ m ∨ bit (s.blk.vis Reg.SYS_CFG).toNat 0 = false →
    Completes (.sdmCommit t m) s (fun b => b.regs.dirty = s.blk.regs.dirty.filter (fun k => keyBlk k != 10) ∧ (∀ k ∈ s.blk.regs.dirty, keyBlk k = 10 → Tbl.get b.regs.com k 0 = s.blk.visAt k) ∧
      b.sdm.handAt = some ((s.at t).now / nsPerS + 1))) ∧
  (∀ (t a k : Nat) (w : Word) (s : State), s.blk.sdm.handAt = some a → (s.blk.ring 0).run = false → a ≤ (s.at t).now / nsPerS → s.blk.regs.com = [(k, w)] → (s.at t).lateSet k = none → s.blk.regs.wrote.1 ≠ (s.at t).t7 → keyBlk k = 10 → Reg.rangeOk k w = true → (s.blk.adopt [(k, w)]).sdmSetsOk [(k, w)] = true →
    Completes (.sdmShadowHandover t) s (fun b => b.regs.com = [] ∧ Tbl.get b.regs.act k (Reg.rstOf k) = w))

/-- LOCAL_RECORD_HANDOVER: once the last sample of its span is out, a point's record for a slot goes to STR, and is claimed where ALN admits it
(R279). ZERO_CROSSING ends the interval at the crossing, and fallback with it; ZC_TIMEOUT ends it after ZC_TIMEOUT periods and falls back (R281
to R284). NRG_SNAP copies every accumulator as it was before an update of the same cycle (R289); NRG_CLEAR in MAINTENANCE accepts a clear (R290); NRG_COUNTER_READ answers the counter and
clears its flags (R288). PERIODIC_SAVE: a due save takes the next number and writes the accumulators to the older slot (R292). ENERGY_SAVE_DONE:
its CRC makes the slot the newest good one, or the save has failed and the slot before stays (R292). -/
def Obligations.PointsMeasureAndSave : Prop :=
  (∀ (t p slot c : Nat) (s : State), p < 4 → c = s.blk.cf Reg.SDM_PT_CFG p 12 0 → s.blk.cb Reg.SDM_CFG 0 31 = true → s.blk.cb Reg.SDM_PT_CFG p 31 = true → s.blk.ringRate 0 ≠ 0 → Tbl.get s.blk.sdm.ptLast p none ≠ some slot → slot % max 1 (s.blk.cf Reg.STR_CTX_CTRL c 23 16) = 0 → s.blk.str.offers = [] → s.blk.aln.claims.length < 64 → (s.blk.ptChans p).all (fun d => match (s.blk.sdmCh d).fine with | q :: _ => decide (slotTime (s.blk.ringRate 0) slot + s.blk.ptHalf p < q.at_ + nsPerS / s.blk.sdmRate) | [] => false) = true →
    Completes (.localRecordHandover t p slot) s (fun b => Tbl.get b.sdm.ptLast p none = some slot ∧ s.blk.counts b Reg.SDM_PT_RECORDS p ∧ b.aln.claims = s.blk.aln.claims ++ (match (s.at t).admitRec 0 slot c with
        | .claim _ x => [⟨0, x.seq, c, latBin (((s.at t).now : Int) - slotTime (s.blk.ringRate 0) slot), x.st != .opened⟩]
        | _ => []))) ∧
  (∀ (t p τ : Nat) (s : State), p < 4 → (s.blk.nrgPt p).cross = some τ → s.blk.nrgOn p = true →
    Completes (.zeroCrossing t p) s (fun b => (b.nrgPt p).start = some τ ∧ (b.nrgPt p).cross = none ∧ (b.nrgPt p).fallback = false)) ∧
  (∀ (t p a e : Nat) (s : State), p < 4 → s.blk.nrgOn p = true → (s.blk.nrgPt p).start = some a → (s.blk.nrgPt p).fallback = false → (s.blk.nrgPt p).cross = none → e = a + s.blk.cf Reg.NRG_PT_CFG p 27 24 * nsPerS / s.blk.ptF0 p → e + s.blk.sdmGd ≤ (s.at t).now →
    Completes (.zcTimeout t p) s (fun b => (b.nrgPt p).start = some e ∧ (b.nrgPt p).fallback = true ∧ s.blk.counts b Reg.NRG_PT_ZC_TIMEOUTS p)) ∧
  (∀ (t m : Nat) (s : State), s.blk.mayWrite m 11 0x410 →
    Completes (.nrgSnap t m) s (fun b => b.nrg.snapAt = (s.at t).now ∧ ∀ p, p < 4 → Tbl.get b.nrg.snap p [] = ((s.at t).accAt p).map accVal)) ∧
  (∀ (t m p : Nat) (s : State), s.blk.mayWrite m 11 0x80 → s.blk.selInst 11 m 0 = some p → s.blk.sys.mode = .maintenance → (s.blk.nrgPt p).clear = 0 →
    Completes (.nrgClear t m) s (fun b => (b.nrgPt p).clear = 1 ∧ (b.nrgPt p).acc = (s.blk.nrgPt p).acc)) ∧
  (∀ (t m p i : Nat) (s : State), s.blk.mayRead m 11 (0x100 + 4 * i) → i < 32 → s.blk.selInst 11 m 0 = some p →
    Completes (.nrgCounterRead t m i) s (fun b => Tbl.get b.resp m (.value 0) = .value ((s.at t).cnt p i) ∧ bit (b.nrgPt p).wrap i = false ∧ bit (b.nrgPt p).wrap2 i = false)) ∧
  (∀ (t n q : Nat) (bs : List Byte) (s : State), s.blk.nrg.saving = none → s.blk.nrg.frozen = none → s.blk.nrg.nextSave ≤ (s.at t).t7 → s.blk.sys.mode ≠ .load → n = s.blk.saveSlot → q = (s.blk.nrg.seq + 1) % 2 ^ 32 → bs = (s.at t).saveBytes q →
    Completes (.periodicSave t) s (fun b => b.nrg.saving = some (n, q, bs) ∧ b.load (Nrg.slotAddr n) bs.length = bs ∧ (s.at t).t7 < b.nrg.nextSave)) ∧
  (∀ (t n q : Nat) (bs : List Byte) (s : State), s.blk.nrg.saving = some (n, q, bs) →
    Completes (.energySaveDone t true) s (fun b => b.nrg.saving = none ∧ b.nrg.slot = n ∧ b.nrg.seq = q ∧ b.loadN (Nrg.slotAddr n + 1056) 4 = crc32 bs ∧ s.blk.counts b Reg.NRG_SAVES)) ∧
  (∀ (t n q : Nat) (bs : List Byte) (s : State), s.blk.nrg.saving = some (n, q, bs) →
    Completes (.energySaveDone t false) s (fun b => b.nrg.saving = none ∧ b.nrg.slot = s.blk.nrg.slot ∧ s.blk.counts b Reg.NRG_SAVE_FAIL))

/-- CAPTURE_FORCE opens a capture on an armed unit at this instant, its trigger of source 5, with as much before it as PRE and the recorded span allow
(R299, R300); CAPTURE_RELEASE releases the oldest capture kept, and a FULL unit goes on (R304); TRG_INPUT_EDGE sets the pin's level and no other (R299);
CAPTURE_SEAL closes a capture whose last row is written, with its interrupt (R302); HOLDOFF_END arms a unit again whose hold-off is over and that has
ring space for a further capture (R303); BUS_ACT: a bus signal whose act time has come starts the pulse of an output pin of its line and opens a capture
at its trigger time on an armed unit that names the line (R306). CAP_COMMIT: the block's own sets wait no more, and are in force where they keep their
ranges; those of a unit wait only while it captures (R308). -/
def Obligations.CapturesAreTakenAndReleased : Prop :=
  (∀ (t m u pre : Nat) (s : State), s.blk.mayWrite m 12 0xA4 → s.blk.selInst 12 m 0 = some u → (s.blk.capU u).st = 1 → pre = (match (s.blk.capU u).span with | some a => min (s.blk.capPre u) ((s.at t).now - a) | none => 0) →
    Completes (.captureForce t m) s (fun b => (b.capU u).st = 2 ∧ (b.capU u).num = ((s.blk.capU u).num + 1) % 65536 ∧
      (b.capU u).cur = some ⟨(s.blk.capU u).num, (s.at t).now, (s.at t).now - pre, pre, decide (pre < s.blk.capPre u), 1, [⟨0, 5, 0xFF, 0xFF, 0xFF⟩], (s.at t).t7⟩ ∧ s.blk.counts b Reg.CAP_CAPTURES u)) ∧
  (∀ (t m u : Nat) (k : Nat × Nat × List Nat) (r : List (Nat × Nat × List Nat)) (s : State), s.blk.mayWrite m 12 0xA4 → s.blk.selInst 12 m 0 = some u → (s.blk.capU u).kept = k :: r →
    Completes (.captureRelease t m) s (fun b => (b.capU u).kept = r ∧ ((s.blk.capU u).st = 4 → (b.capU u).st = 3 ∨ (b.capU u).st = 1))) ∧
  (∀ (t n : Nat) (level : Bool) (s : State), n < 2 →
    Completes (.trgInputEdge t n level) s (fun b => bit b.cap.trg n = level ∧ bit b.cap.trg (1 - n) = bit s.blk.cap.trg (1 - n))) ∧
  (∀ (t u : Nat) (k : Capture) (s : State), u < 8 → (s.blk.capU u).cur = some k → (s.at t).capSealDue u = true →
    Completes (.captureSeal t u) s (fun b => (b.capU u).cur = none ∧ (b.capU u).lastT = k.t ∧ bit (b.vis Reg.CAP_IRQ_STATUS).toNat 0 = true ∧
      ((s.blk.capU u).kept.length < 63 → (b.capU u).kept.length = (s.blk.capU u).kept.length + 1))) ∧
  (∀ (t u : Nat) (s : State), u < 8 → (s.blk.capU u).st = 3 → (s.at t).capHoldOver u = true → s.blk.capSpace u = true → s.blk.comInst 12 0 u = false →
    Completes (.holdoffEnd t u) s (fun b => (b.capU u).st = 1 ∧ (b.capU u).held = 0)) ∧
  (∀ (t line a o n u : Nat) (s : State), s.blk.cap.bus = [(line, a, o)] → a + fld (s.blk.cfg Reg.CAP_BUS_D) 9 0 * 1000 ≤ (s.at t).now → n < 2 → bit (bits (s.blk.cn Reg.CAP_TRG_CFG) (8 * n + 7) (8 * n)) 7 = true → bits (s.blk.cn Reg.CAP_TRG_CFG) (8 * n + 7) (8 * n) % 8 = line → u < 8 → (s.blk.capU u).st = 1 → o / 16 ≠ u + 1 → s.blk.capSlots u 5 (fun w => bits w 7 0 == line) ≠ [] →
    Completes (.busAct t) s (fun b => Tbl.get b.cap.pulse n 0 = (s.at t).now + fld (s.blk.cfg Reg.CAP_TRG_WIDTH) 19 0 * 1000 ∧ (b.capU u).st = 2 ∧ (b.capU u).cur.map (·.t) = some a)) ∧
  (∀ (t m : Nat) (s : State), s.blk.mayWrite m 12 0x408 → 4 ≤ m ∨ bit (s.blk.vis Reg.SYS_CFG).toNat 0 = false →
    Completes (.capCommit t m) s (fun b => b.regs.dirty = s.blk.regs.dirty.filter (fun k => keyBlk k != 12) ∧
      (∀ e ∈ b.regs.com, keyBlk e.1 = 12 → keySpace e.1 ≠ 15 ∧ (keySpace e.1 = 0 → keyInst e.1 < 8 → (s.blk.capU (keyInst e.1)).st = 2)) ∧
      (s.blk.regs.com.all (fun e => keyBlk e.1 != 12) = true → s.blk.regs.dirty.all (fun k => !(keyBlk k == 12 && keySpace k == 15) || Reg.rangeOk k (s.blk.visAt k)) = true →
        ∀ k ∈ s.blk.regs.dirty, keyBlk k = 12 → keySpace k = 15 → Tbl.get b.regs.act k (Reg.rstOf k) = s.blk.visAt k)))

/-- RADIO_SLOT: a slot begins for a running radio tier; a parent cell of the slot before that went unheard is missed (R312, R322). UPLINK_FRAME: a data
frame of a form, an FCS, a PAN and a destination that RAD takes, on the cell's channel and in its window, from an enabled node of the table, in an
UPLINK cell from the cell's node, is counted and heard where its level and MIC are right under the node's key, and is an authentication failure
where they are not (R310, R312, R313, R315, R316, R320). UPLINK_MISSED counts a miss of the cell's node, and the third in a row makes it STALE (R320).
DOWNLINK_ACKED: the node's Enh-ACK at its level and under its key, any other being an authentication failure, clears the downlink that the attempt carried, and the pending bit unless another was
posted in the meantime; DOWNLINK_UNACKED keeps what was sent until the eighth attempt (R321). PARENT_FRAME: the parent's frame heard ends its run of
misses and any loss or scan (R314, R322); PARENT_GUARD_WIDEN and PARENT_SCAN
are the steps of Table 12.5 (R322). DL_POST: for a node with none posted, the entry of the node in the downlink table is posted (R321). PEND_SET
and PEND_CLR set and clear the pending bits of one word of 32 nodes and no other, but for a bit that RAD sets in the cycle of a clear (R324). On YD-4810-W, which has no radio tier, DL_POST posts
nothing (R309). -/
def Obligations.RadioUnitsKeepTheSlotframe : Prop :=
  (∀ (t : Nat) (s : State), s.blk.radOn = true → s.blk.rad.slot ≠ (s.at t).radAsn + 1 → s.blk.radEpoch ≤ (s.at t).tbNow 5 → Cap.records s.blk.sys.mode = true →
    Completes (.radioSlot t) s (fun b => b.rad.slot = (s.at t).radAsn + 1 ∧ b.rad.heard = [] ∧ b.rad.ended = [] ∧ (s.blk.rad.await.isSome = true → s.blk.counts b Reg.RAD_G_PARENT_MISS))) ∧
  (∀ (t u n eui : Nat) (root : List Byte) (c : RadCell) (f : Machine.RadFrame) (m : MacFrame) (s : State), u < 4 → (s.at t).radCell u = some c → s.blk.radOn = true → c.type = 1 ∨ c.type = 3 → s.blk.radScans u = false → f.chan = s.blk.radChannel c (s.blk.rad.slot - 1) → s.blk.radInWindow c f.start = true → ((s.at t).radReceive u f).2 = some m → m.head.kind = 1 → m.head.src = some (3, eui) → (s.blk.listed Reg.RAD_NODE_CFG).find? (fun n => s.blk.radEui n == eui && s.blk.cb Reg.RAD_NODE_CFG n 31) = some n → (c.type = 1 → n = c.node) → s.blk.radRoot = some root →
    Completes (.uplinkFrame t u f false) s (fun b => s.blk.counts b Reg.RAD_UNIT_RX u ∧ (if m.level = s.blk.radLevel n ∧ (radOpen (radKey root eui) (radNonce eui (s.blk.rad.slot - 1) m.level) m.level f.psdu m).isSome = true then
        s.blk.counts b Reg.RAD_NODE_FRAMES n ∧ (b.radNode n).st = 1 ∧ (b.radNode n).miss = 0 ∧ (b.radNode n).x = f.start ∧ b.rad.heard.contains u = true
      else s.blk.counts b Reg.RAD_NODE_AUTH_FAIL n ∧ b.radNode n = s.blk.radNode n ∧ bit (b.vis Reg.RAD_IRQ_STATUS).toNat 4 = true))) ∧
  (∀ (t u : Nat) (c : RadCell) (s : State), u < 4 → (s.at t).radCell u = some c → c.type = 1 → s.blk.rad.heard.contains u = false → s.blk.rad.ended.contains u = false →
    Completes (.uplinkMissed t u) s (fun b => b.rad.ended.contains u = true ∧ (b.radNode c.node).miss = min 255 ((s.blk.radNode c.node).miss + 1) ∧ s.blk.counts b Reg.RAD_NODE_MISSED c.node ∧
      ((s.blk.radNode c.node).miss = 2 → (b.radNode c.node).st = 2 ∧ (b.radNode c.node).resync = true ∧ (b.radNode c.node).pend = true ∧ s.blk.counts b Reg.RAD_NODE_STALES c.node))) ∧
  (∀ (t u post lv : Nat) (own : Bool) (root : List Byte) (ack : Machine.RadFrame) (m : MacFrame) (c : RadCell) (s : State), u < 4 → (s.at t).radCell u = some c → c.type = 2 → (s.blk.radNode c.node).sent = some (post, own) → ack.chan = s.blk.radChannel c (s.blk.rad.slot - 1) → ((s.at t).radReceive u ack).2 = some m → m.head.kind = 2 → s.blk.radRoot = some root → lv = s.blk.radLevel c.node →
    Completes (.downlinkAcked t u ack) s (fun b => let x := s.blk.radNode c.node
      let y := b.radNode c.node
      if m.level = lv ∧ (radOpen (radKey root (s.blk.radEui c.node)) (radNonce (s.blk.radEui c.node) (s.blk.rad.slot - 1) lv) lv ack.psdu m).isSome = true then
        if m.correction.isSome = true then
          y.sent = none ∧ y.st = 1 ∧ y.miss = 0 ∧ y.tries = 0 ∧ y.resync = false ∧ b.rad.heard.contains u = true ∧ y.dl = (if own then none else x.dl) ∧ y.pend = (x.pend && post != x.post)
        else s.blk.counts b Reg.RAD_G_BAD_FRAME ∧ y = x
      else s.blk.counts b Reg.RAD_NODE_AUTH_FAIL c.node ∧ y = x ∧ bit (b.vis Reg.RAD_IRQ_STATUS).toNat 4 = true)) ∧
  (∀ (t u : Nat) (c : RadCell) (s : State), u < 4 → (s.at t).radCell u = some c → c.type = 2 → (s.blk.radNode c.node).sent.isSome = true →
    Completes (.downlinkUnacked t u) s (fun b => let x := s.blk.radNode c.node
      let y := b.radNode c.node
      y.sent = none ∧ y.resync = x.resync ∧ (if x.tries < 8 ∨ (x.dl = none ∧ x.resync = true) then y.dl = x.dl else y.dl = none ∧ s.blk.counts b Reg.RAD_NODE_DL_FAIL c.node))) ∧
  (∀ (t : Nat) (eb aborted : Bool) (x off : Int) (f : Machine.RadFrame) (m : MacFrame) (heard : Option (Nat × Nat)) (s : State), s.blk.radOn = true → s.blk.radChild = true → (s.at t).parentChannel = some f.chan → (s.blk.rad.scanning = true ∨ s.blk.rad.await = some eb ∧ x.natAbs ≤ (min 4000 (s.blk.radGuard + 1000 * s.blk.rad.widened)) * 500) → ((s.at t).radReceive s.blk.radTp f).2 = some m → eb = decide (m.head.kind = 0) → (eb = true ∨ aborted = false) → (s.at t).parentReading x f m = some (off, heard) →
    Completes (.parentFrame t aborted x f) s (fun b => b.rad.await = none ∧ b.rad.lost = none ∧ (if eb then b.rad.missEb = 0 else b.rad.missKa = 0) ∧ (∀ h, heard = some h → b.rad.metric = h.1 ∧ b.rad.parent = some h.2) ∧
      (s.blk.rad.lost.isSome = true → bit (b.vis Reg.RAD_IRQ_STATUS).toNat 2 = true ∧ b.rad.scan = none ∧ b.rad.missEb = 0 ∧ b.rad.missKa = 0 ∧ b.rad.resumeAt.isSome = true))) ∧
  (∀ (t a : Nat) (s : State), s.blk.rad.lost = some a → s.blk.rad.widened < 2 → s.blk.rad.scanning = false → a + s.blk.rad.widened + 1 ≤ (s.at t).radAsn / s.blk.radL →
    Completes (.parentGuardWiden t) s (fun b => b.rad.widened = s.blk.rad.widened + 1)) ∧
  (∀ (t a : Nat) (s : State), s.blk.rad.lost = some a → s.blk.rad.scanning = false → a + 6 ≤ (s.at t).radAsn / s.blk.radL →
    Completes (.parentScan t) s (fun b => b.rad.scan = some ((s.at t).radAsn / s.blk.radL) ∧ b.rad.await = none ∧ s.blk.counts b Reg.RAD_G_SCANS)) ∧
  (∀ (t m n a : Nat) (s : State), s.blk.mayWrite m 13 0x60 → s.blk.sys.variantW = false → s.blk.selInst 13 m 1 = some n → (s.blk.radNode n).dl = none → (s.blk.radNode n).resync = false → a = s.blk.addrOf Reg.RAD_DL_BASE_LO Reg.RAD_DL_BASE_HI + n * 128 →
    Completes (.dlPost t m) s (fun b => (b.radNode n).dl = some (s.blk.loadSafe (a + 1) (min 96 (s.blk.load8 a).toNat)) ∧ (b.radNode n).tries = 0 ∧ (b.radNode n).post = (s.blk.radNode n).post + 1)) ∧
  (∀ (t m value i : Nat) (s : State), s.blk.mayWrite m 13 0x438 → s.blk.sys.variantW = false → i = 32 * fld (s.blk.vis Reg.RAD_PEND_IDX m) 4 0 →
    Completes (.pendSet t m value) s (fun b => ∀ n, b.radNode n = (if n / 32 * 32 = i ∧ bit (w32 value).toNat (n % 32) = true then { s.blk.radNode n with pend := true } else s.blk.radNode n))) ∧
  (∀ (t m value i : Nat) (s : State), s.blk.mayWrite m 13 0x43C → s.blk.sys.variantW = false → i = 32 * fld (s.blk.vis Reg.RAD_PEND_IDX m) 4 0 →
    Completes (.pendClr t m value) s (fun b => ∀ n, b.radNode n = (if n / 32 * 32 = i ∧ bit (w32 value).toNat (n % 32) = true ∧ ¬(s.blk.rad.pendRad.1 = (s.at t).t7 ∧ s.blk.rad.pendRad.2.contains n = true) then { s.blk.radNode n with pend := false } else s.blk.radNode n))) ∧
  (∀ (t m : Nat) (s : State), s.blk.mayWrite m 13 0x60 → s.blk.sys.variantW = true →
    Completes (.dlPost t m) s (fun b => b.rad = s.blk.rad))

/-! ### Memory, movers and the archive -/

/-- CORRECTED_ERROR: the address is the last corrected one, waits to be written back, is counted and is tracked while an entry is free (R327, R328).
UNCORRECTABLE_ERROR: the unit is poisoned, once, but for an engine buffer of the ripple engine, whose solve it ends (R327, R328; log entry 122); in the
host caches a clean line leaves no poison and the data of a dirty one is poisoned where it is written back (Table 13.2). CE_WRITEBACK corrects the oldest
unit that waits (R327). SCRUB_STEP reads the next unit; at the end of the lap the next begins and is counted (R332). SCRUB_STARVED: a lap longer than
its limit forces the guaranteed share (R333). REMAP moves
the unit to a free spare of its array and writes the entry of the table in MRAM (R329 to R331); ERASE clears that table in MAINTENANCE (R331). -/
def Obligations.MemoriesTrackTheirErrors : Prop :=
  (∀ (t m u : Nat) (s : State), m < 10 →
    Completes (.correctedError t m u) s (fun b => (b.munit m).lastCe = Mem.byteAddr m u ∧ (b.munit m).writebacks = (s.blk.munit m).writebacks ++ [u] ∧ s.blk.counts b Reg.MEM_CE_COUNT m ∧ bit (b.vis Reg.MEM_IRQ_STATUS).toNat 0 = true ∧
      ((s.blk.munit m).track.find? (fun e => e.1 == u) = none → (s.blk.munit m).track.length < 16 → (b.munit m).track = (s.blk.munit m).track ++ [(u, 1)]))) ∧
  (∀ (t m : Nat) (p : ErrPlace) (s : State), m < 10 → m ≠ 8 → s.blk.mem.poison.contains (m, p.unit) = false →
    Completes (.uncorrectableError t m p) s (fun b => (m ≠ 7 ∨ Config.engineOwner p.unit ≠ Blk.rpl → b.mem.poison.contains (m, p.unit) = true ∧ ∀ e ∈ s.blk.mem.poison, e ∈ b.mem.poison) ∧ s.blk.counts b Reg.MEM_UE_COUNT m ∧ bit (b.vis Reg.MEM_IRQ_STATUS).toNat 1 = true ∧
      (b.munit m).lastUe = (if m = 9 then Mem.byteAddr m p.unit else Mem.byteAddr m (p.unit / 8) + p.unit % 8))) ∧
  (∀ (t m : Nat) (p : ErrPlace) (s : State), m < 10 → m ≠ 8 → s.blk.mem.poison.contains (m, p.unit) = true →
    Completes (.uncorrectableError t m p) s (fun b => b = s.at t)) ∧
  (∀ (t : Nat) (p : ErrPlace) (s : State),
    Completes (.uncorrectableError t 8 p) s (fun b => s.blk.counts b Reg.MEM_UE_COUNT 8 ∧ bit (b.vis Reg.MEM_IRQ_STATUS).toNat 1 = true ∧
      b.mem.poison = (match p.dirty with | some a => (s.blk.poisonAt a).mem.poison | none => s.blk.mem.poison))) ∧
  (∀ (t m u : Nat) (r : List Nat) (s : State), m < 10 → (s.blk.munit m).writebacks = u :: r →
    Completes (.ceWriteback t m) s (fun b => (b.munit m).writebacks = r ∧ b.mem = ((s.at t).correctUnit m u).mem)) ∧
  (∀ (t m : Nat) (s : State), m < 10 → s.blk.cb Reg.MEM_SCRUB_CFG m 31 = false →
    Completes (.scrubStep t m) s (fun b => if (s.blk.munit m).pos + 1 < Mem.size m + (if m = 9 then 0 else (Mem.spares m).2) then (b.munit m).pos = (s.blk.munit m).pos + 1
      else (b.munit m).pos = 0 ∧ (b.munit m).lapStart = (s.at t).t7 ∧ (b.munit m).forced = false ∧ s.blk.counts b Reg.MEM_SCRUB_LAPS m)) ∧
  (∀ (t m : Nat) (s : State), m < 10 → (s.blk.munit m).forced = false → s.blk.lapLimit m < (s.at t).t7 - (s.blk.munit m).lapStart →
    Completes (.scrubStarved t m) s (fun b => (b.munit m).starved = true ∧ (b.munit m).forced = true ∧ bit (b.vis Reg.MEM_IRQ_STATUS).toNat 2 = true)) ∧
  (∀ (t m n u p : Nat) (s : State), s.blk.mayWrite m 14 0x418 → n = s.blk.memSel m → n < 10 → u = (s.blk.vis Reg.MEM_REMAP_ADDR).toNat → u < Mem.size n → s.blk.freeSpare n (Mem.array n u) = some p →
    Completes (.remapCmd t m) s (fun b => (b.munit n).remaps = (s.blk.munit n).remaps ++ [(u, Mem.array n u, p)] ∧ s.blk.counts b Reg.MEM_REMAPS n ∧ (s.blk.mm.remapNext < 1024 → b.mm.remapNext = s.blk.mm.remapNext + 1 ∧
        b.load (0x407F4000 + 16 * s.blk.mm.remapNext) 12 = leBytes 8 (n * 2 ^ 56 + Mem.array n u * 2 ^ 44 + p * 2 ^ 32 + u) ++ leBytes 4 0x50414D52))) ∧
  (∀ (t m : Nat) (s : State), s.blk.mayWrite m 14 0x418 → s.blk.sys.mode = .maintenance →
    Completes (.remapErase t m) s (fun b => b.mm.remapNext = 0 ∧ ∀ a, 0x407F4000 ≤ a → a < 0x407F8000 → b.load8 a = 0))

/-- In MAINTENANCE or DEBUG, RAW_READ leaves the data and check bits of the unit addressed in the master's buffer, RAW_WRITE writes both from it,
DATA_WRITE the data alone, CHECK_WRITE the check bits alone; accesses of shared scratch, host-visible SRAM and DRAM then see the data as the code
reads it, and the reserved pattern is poison, where the unit is not remapped and no spare (R334). In any other
mode each is refused and counted (R335). -/
def Obligations.DiagnosticWindowReadsAndWritesRaw : Prop :=
  (∀ (t m n u : Nat) (s : State), s.blk.mayWrite m 14 0x104 → s.blk.diagOpen = true → n = s.blk.memSel m → n < 10 → u = (s.blk.vis Reg.MEM_DIAG_ADDR m).toNat → u < Mem.size n →
    Completes (.diagRawRead t m) s (fun b => b.diagBuf m n = (((s.at t).rawOf n u).1.1 % 2 ^ (8 * Mem.unitBytes n), ((s.at t).rawOf n u).1.2 % 2 ^ (if n = 9 then 128 else 40)))) ∧
  (∀ (t m n u : Nat) (r : Nat × Nat) (s : State), s.blk.mayWrite m 14 0x104 → s.blk.diagOpen = true → n = s.blk.memSel m → n < 10 → u = (s.blk.vis Reg.MEM_DIAG_ADDR m).toNat → u < Mem.size n → r = s.blk.diagBuf m n →
    Completes (.diagRawWrite t m) s (fun b => (b.rawOf n u).1 = r ∧ RawReads s.blk b n u r)) ∧
  (∀ (t m n u : Nat) (r : Nat × Nat) (s : State), s.blk.mayWrite m 14 0x104 → s.blk.diagOpen = true → n = s.blk.memSel m → n < 10 → u = (s.blk.vis Reg.MEM_DIAG_ADDR m).toNat → u < Mem.size n → r = ((s.blk.diagBuf m n).1, ((s.at t).rawOf n u).1.2) → r.2 < 2 ^ (if n = 9 then 128 else 40) →
    Completes (.diagDataWrite t m) s (fun b => (b.rawOf n u).1 = r ∧ RawReads s.blk b n u r)) ∧
  (∀ (t m n u : Nat) (r : Nat × Nat) (s : State), s.blk.mayWrite m 14 0x104 → s.blk.diagOpen = true → n = s.blk.memSel m → n < 10 → u = (s.blk.vis Reg.MEM_DIAG_ADDR m).toNat → u < Mem.size n → r = (((s.at t).rawOf n u).1.1, (s.blk.diagBuf m n).2) → r.1 < 2 ^ (8 * Mem.unitBytes n) →
    Completes (.diagCheckWrite t m) s (fun b => (b.rawOf n u).1 = r ∧ RawReads s.blk b n u r)) ∧
  (∀ (t m : Nat) (s : State), s.blk.mayWrite m 14 0x104 → s.blk.diagOpen = false →
    Completes (.diagRawRead t m) s (fun b => s.blk.counts b Reg.MEM_DIAG_REFUSED ∧ b.mm = s.blk.mm ∧ b.mem = s.blk.mem)) ∧
  (∀ (t m : Nat) (s : State), s.blk.mayWrite m 14 0x104 → s.blk.diagOpen = false →
    Completes (.diagRawWrite t m) s (fun b => s.blk.counts b Reg.MEM_DIAG_REFUSED ∧ b.mm = s.blk.mm ∧ b.mem = s.blk.mem)) ∧
  (∀ (t m : Nat) (s : State), s.blk.mayWrite m 14 0x104 → s.blk.diagOpen = false →
    Completes (.diagDataWrite t m) s (fun b => s.blk.counts b Reg.MEM_DIAG_REFUSED ∧ b.mm = s.blk.mm ∧ b.mem = s.blk.mem)) ∧
  (∀ (t m : Nat) (s : State), s.blk.mayWrite m 14 0x104 → s.blk.diagOpen = false →
    Completes (.diagCheckWrite t m) s (fun b => s.blk.counts b Reg.MEM_DIAG_REFUSED ∧ b.mm = s.blk.mm ∧ b.mem = s.blk.mem))

/-- START makes an idle channel PENDING, and asks a RUNNING one for another run (R340). COMMIT commits the channel's shadow descriptor and no other
(R341). CLEAR_HALT makes a HALTED channel IDLE (R339). A start or COMMIT of a block's own channel is refused and counted (R336). A free engine
starts its lowest PENDING channel with the committed set: bad sizes end in IDLE with ERR 2, a misalignment under STRICT in HALTED with ERR 1
(R339, R340); a run whose source is a queue moves the items that are there and waits with its read where the queue is empty (R348). A transfer that
meets no error completes (R342). MEM_COMMIT: a memory whose scrubber runs takes its set at the end of the lap, a
paused one at once (R352). -/
def Obligations.ChannelsRunTheirTransfers : Prop :=
  (∀ (t m c : Nat) (s : State), s.blk.mayWrite m 15 0x6C → c = s.blk.dmaSel m → Dma.owned c = false → (s.blk.dmaCh c).st = .idle ∨ (s.blk.dmaCh c).st = .running →
    Completes (.dmaStart t m) s (fun b => if (s.blk.dmaCh c).st = .idle then (b.dmaCh c).st = .pending else (b.dmaCh c).st = .running ∧ (b.dmaCh c).again = true)) ∧
  (∀ (t m c : Nat) (s : State), s.blk.mayWrite m 15 0x6C → c = s.blk.dmaSel m → Dma.owned c = false →
    Completes (.dmaCommit t m) s (fun b => b.regs.dirty = s.blk.regs.dirty.filter (fun k => !(keyBlk k == 15 && keySpace k == 0 && keyInst k == c)) ∧
      (∀ k ∈ s.blk.regs.dirty, keyBlk k = 15 → keySpace k = 0 → keyInst k = c → Tbl.get b.regs.com k 0 = s.blk.visAt k) ∧
      (∀ k, ¬(keyBlk k = 15 ∧ keySpace k = 0 ∧ keyInst k = c) → Tbl.get b.regs.com k 0 = Tbl.get s.blk.regs.com k 0))) ∧
  (∀ (t m c : Nat) (s : State), s.blk.mayWrite m 15 0x6C → c = s.blk.dmaSel m → Dma.owned c = false → (s.blk.dmaCh c).st = .halted →
    Completes (.dmaClearHalt t m) s (fun b => b.dmaCh c = { s.blk.dmaCh c with st := .idle, err := 0 })) ∧
  (∀ (t m c : Nat) (s : State), s.blk.mayWrite m 15 0x6C → c = s.blk.dmaSel m → Dma.owned c = true →
    Completes (.dmaStart t m) s (fun b => s.blk.counts b Reg.DMA_CH_REFUSED ∧ b.dma = s.blk.dma)) ∧
  (∀ (t m c : Nat) (s : State), s.blk.mayWrite m 15 0x6C → c = s.blk.dmaSel m → Dma.owned c = true →
    Completes (.dmaCommit t m) s (fun b => s.blk.counts b Reg.DMA_CH_REFUSED ∧ b.dma = s.blk.dma ∧ b.regs.com = s.blk.regs.com)) ∧
  (∀ (t e c : Nat) (s : State), e < 2 → s.blk.dma.frozen.contains e = false → s.blk.dmaRunning e = none → s.blk.dmaNext e = some c →
    Completes (.dmaChannelRun t e) s (fun b => let d := (s.at t).dmaTake c
      let x := ((s.at t).dmaRun e).dmaMove c none
      if d.dmaSizeOk c = false then (b.dmaCh c).st = (if (s.blk.dmaCh c).again = true then .pending else .idle) ∧ (b.dmaCh c).err = 2 ∧ s.blk.counts b Reg.DMA_CH_ERRORS c
      else if d.cb Reg.DMA_CH_CFG c 30 = true ∧ ((d.dmaSrc c).aligned && (d.dmaDst c).aligned) = false then (b.dmaCh c).st = .halted ∧ (b.dmaCh c).err = 1 ∧ s.blk.counts b Reg.DMA_CH_ERRORS c
      else (d.readsQueue c = false → (b.dmaCh c).st = .running ∧ (b.dmaCh c).err = 0 ∧ b.dmaRunning e = some c) ∧
        (d.readsQueue c = true → x.stop = some .stall → (b.dmaCh c).done = x.done ∧ (b.dmaCh c).prog = ⟨x.next, x.hold, x.poison, true⟩))) ∧
  (∀ (t e c : Nat) (s : State), e < 2 → s.blk.dmaRunning e = some c → ((s.at t).dmaMove c none).stop = none →
    Completes (.dmaChannelComplete t e) s (fun b => let x := (s.at t).dmaMove c none
      (b.dmaCh c).st = (if (x.blk.dmaCh c).again = true then .pending else .idle) ∧ (b.dmaCh c).err = 0 ∧ (b.dmaCh c).done = x.done ∧ (b.dmaCh c).poison = x.poison ∧
      b.dmaRunning (c / 16) = none ∧ x.blk.counts b Reg.DMA_CH_RUNS c ∧ b.mem.cells = x.blk.mem.cells)) ∧
  (∀ (t m : Nat) (s : State), s.blk.mayWrite m 14 0x408 → 4 ≤ m ∨ bit (s.blk.vis Reg.SYS_CFG).toNat 0 = false →
    Completes (.memCommit t m) s (fun b => b.regs.dirty = s.blk.regs.dirty.filter (fun k => keyBlk k != 14) ∧
      (∀ k ∈ s.blk.regs.dirty, keyBlk k = 14 → (keySpace k ≠ 0 ∨ 10 ≤ keyInst k ∨ s.blk.cb Reg.MEM_SCRUB_CFG (keyInst k) 31 = false) → Tbl.get b.regs.com k 0 = s.blk.visAt k) ∧
      (∀ e ∈ b.regs.com, keyBlk e.1 = 14 → keySpace e.1 = 0 → keyInst e.1 < 10 → s.blk.cb Reg.MEM_SCRUB_CFG (keyInst e.1) 31 = false)))

/-- ARCHIVE_FRAME_START: a free lane takes the next queued basin of an idle group; under the set then handed over, the frame in clear is the
reference of the next one, and what is cut into blocks is the frame itself for a key frame, else its difference from the reference (R354 to R356,
R368). ARCHIVE_SEGMENT_WRITE of a group that does not encrypt: the next block is one segment under the context's number, to the ring where it
fits, else to the spillway, else the group suspends (R357 to R359, R364). CMP_RESUME resumes the suspended groups named and no other (R364). -/
def Obligations.GroupsArchiveTheirBasins : Prop :=
  (∀ (t g r seq p : Nat) (q : List (Nat × Nat × Bool)) (x : Basin) (s : State), g < 16 → (s.blk.grp g).queue = (r, seq, false) :: q → (s.blk.grp g).st = 0 → s.blk.lanesUsed < 4 → (s.blk.ring r).seqPos seq = some (p, x) → ((s.at t).cmpHandover g).grpEn g = true → ((s.at t).cmpHandover g).grpRingOf g = r → ((s.at t).cmpHandover g).grpEnc g = false →
    Completes (.archiveFrameStart t g) s (fun b => let d := (s.at t).cmpHandover g
      let raw := d.cmpFrame g r p x
      let key := d.keyDue g
      let a := d.cfgAddr Reg.CMP_GRP_REF_LO Reg.CMP_GRP_REF_HI g
      (b.grp g).queue = q ∧ (b.grp g).st = 1 ∧ (b.cctx g).inUse = true ∧ (b.cctx g).keyNext = false ∧ (b.grp g).sinceKey = (if key then 0 else (s.blk.grp g).sinceKey + 1) ∧
      (b.grp g).frame = some ⟨r, seq, key, 0, if key then raw else xorBytes raw (d.loadSafe a raw.length), fld (d.cfg Reg.CMP_BLOCK) 4 0 * 4096, false⟩ ∧ b.load a raw.length = raw)) ∧
  (∀ (t g : Nat) (f : CmpFrame) (s : State), g < 16 → (s.blk.grp g).frame = some f → (s.blk.grp g).st = 1 → f.gap = false → s.blk.grpEnc g = false →
    Completes (.archiveSegmentWrite t g) s (fun b => let c := s.blk.cctx g
      let blk := bytePlanes (f.rest.take f.block)
      let pay := (blockPayload c.hist blk).1
      let last := (f.rest.drop f.block).isEmpty
      let n := segLen (24 + pay.length)
      let h := segHeader (b2n (blockPayload c.hist blk).2 + 4 * b2n f.key + 16 * b2n (f.idx == 0) + 32 * b2n last) g s.blk.loadCount c.seq f.seq blk.length pay.length
      let written := (b.cctx g).seq = c.seq + 1 ∧ (if last then (b.grp g).frame = none ∧ s.blk.counts b Reg.CMP_GRP_FRAMES g
        else (b.grp g).frame = some { f with idx := f.idx + 1, rest := f.rest.drop f.block } ∧ (b.cctx g).hist = histAfter c.hist blk)
      match s.blk.ringFit n with
      | some (o, _) => written ∧ (b.vis Reg.CMP_RING_WR).toNat = (o + n) % s.blk.cmpRing.2 / 64 % 2 ^ 32 ∧ (last = false → b.load (s.blk.cmpRing.1 + o) (24 + pay.length) = h ++ pay)
      | none => match (s.blk.spillFit n (List.range 16)).1 with
        | some i => written ∧ (b.vis Reg.CMP_SPILL_USED 0 i).toNat = ((s.blk.vis Reg.CMP_SPILL_USED 0 i).toNat + n) % 2 ^ 32
        | none => (b.grp g).st = 2 ∧ (b.cctx g).suspended = true ∧ (b.cctx g).seq = c.seq ∧ s.blk.counts b Reg.CMP_GRP_NOSPACE g)) ∧
  (∀ (t m value : Nat) (s : State), s.blk.mayWrite m 17 0x434 →
    Completes (.cmpResume t m value) s (fun b => ∀ g, g < 16 → if bit (value % 2 ^ 32) g = true ∧ (s.blk.grp g).st = 2 then b.grp g = { s.blk.grp g with st := 1 } ∧ (b.cctx g).suspended = false else b.grp g = s.blk.grp g ∧ b.cctx g = s.blk.cctx g))

/-- CMP_JOB_GO: a well-formed descriptor whose context is not in use is accepted behind the others (R365). CMP_JOB_START: a lane that no group wants
takes the oldest job (R366). CMP_JOB_DONE: the job ends, its context is free, its JOB_DONE item with the error and the bytes written goes to the
notification queue (R365, R367). CMP_CTX_RESET empties the history of a context not in use, whose next frame is then a key frame (R358). -/
def Obligations.CompressionJobsRun : Prop :=
  (∀ (t m : Nat) (d : List Byte) (s : State), s.blk.mayWrite m 17 0x448 → d = s.blk.loadSafe (s.blk.addrOf Reg.CMP_JOB_ADDR_LO Reg.CMP_JOB_ADDR_HI m) 64 → jobOk d = true → (s.blk.cctx (jobCtx d)).inUse = false →
    Completes (.cmpJobGo t m) s (fun b => b.cmp.jobs = s.blk.cmp.jobs ++ [d] ∧ (b.cctx (jobCtx d)).inUse = true)) ∧
  (∀ (t : Nat) (d : List Byte) (r : List (List Byte)) (s : State), s.blk.cmp.jobs = d :: r → s.blk.lanesUsed + ((List.range 16).filter (fun g => (s.blk.grp g).st == 0 && !(s.blk.grp g).queue.isEmpty)).length < 4 →
    Completes (.cmpJobStart t) s (fun b => b.cmp.jobs = r ∧ b.cmp.running = s.blk.cmp.running ++ [d])) ∧
  (∀ (t q : Nat) (d : List Byte) (r : List (List Byte)) (s : State), s.blk.cmp.running = d :: r → q = fld (s.blk.vis Reg.CMP_NOTIFY_QUEUE) 5 0 →
    Completes (.cmpJobDone t) s (fun b => let z : Block := { s.at t with cmp := { s.blk.cmp with running := r } }
      let e := if jobOp d = 1 then ((z.jobCompress d).1, (z.jobCompress d).2.1) else ((z.jobDecompress d).1, (z.jobDecompress d).2.1)
      b.cmp.running = r ∧ (b.cctx (jobCtx d)).inUse = false ∧ bit (b.vis Reg.CMP_IRQ_STATUS).toNat 1 = true ∧
      (s.blk.qen q = true → (s.blk.queue q).discarding = false → (s.blk.queue q).breakPending = false → (s.blk.queue q).items.length < s.blk.qcap q → (s.blk.queue q).stalled = [] →
        (s.blk.queue q).flushPending = false →
        (b.queue q).items = (s.blk.queue q).items ++ [⟨4 * 2 ^ 56 + jobCtx d * 2 ^ 48 + e.1 * 2 ^ 40 + e.2 % 2 ^ 32, true, false⟩]))) ∧
  (∀ (t m c : Nat) (s : State), s.blk.mayWrite m 17 0x4C → s.blk.selInst 17 m 1 = some c → (s.blk.cctx c).inUse = false →
    Completes (.cmpCtxReset t m) s (fun b => b.cctx c = { s.blk.cctx c with hist := [], keyNext := true }))

/-! ### Cascades and pairs -/

/-- TABUSK_FRAME_RX: a frame under the link's key is heard of its source, one whose tag is wrong counts as such (R371, R372, R379). TABUSK_LINK_UP
with the neighbour that the HELLO exchange should show, and TABUSK_LINK_DOWN (R373). TIME_FRAME_SEND: the master's frame goes out on the links
that are up (R380). DELAY_EXCHANGE keeps the last eight results of a link (R380). MEMBER_LOST: the member is ABSENT, its proxies SILENT, the
epoch one higher (R373, R379). TIME_FAULT clears TIME_OK (R380). -/
def Obligations.TheCascadeKeepsItsMembers : Prop :=
  (∀ (t l m : Nat) (k : KeySlot) (f : List Byte) (s : State), l < 2 → s.blk.casKey = some k → s.blk.casOn = true → s.blk.cas.up.contains l = true → 40 ≤ f.length → m = (f.getD 1 0).toNat % 8 → m ≠ s.blk.casMember →
    Completes (.tabuskFrameRx t l f) s (fun b => if f.drop (f.length - 8) = casTag k.bytes (f.take (f.length - 8)) then
        (b.mbr m).st = 1 ∧ (b.mbr m).heard = some (s.at t).t7 ∧ (b.mbr m).loads = leAt f 8 4 ∧ (b.mbr m).seqs.contains (leAt f 8 4 * 2 ^ 48 + leAt f 12 6) = true ∧
        (if l = 0 then (b.mbr m).hops0 else (b.mbr m).hops1) = s.blk.casCount - (f.getD 3 0).toNat
      else s.blk.counts b Reg.CAS_MBR_AUTH_FAIL m ∧ b.mbr m = s.blk.mbr m)) ∧
  (∀ (t l : Nat) (s : State), l < 2 → s.blk.cas.up.contains l = true →
    Completes (.tabuskLinkDown t l) s (fun b => b.cas.up = setDel s.blk.cas.up l ∧ s.blk.counts b (if l = 0 then Reg.CAS_LINK_DOWN_0 else Reg.CAS_LINK_DOWN_1))) ∧
  (∀ (t l m count rate : Nat) (s : State), l < 2 → m < 8 → s.blk.casOn = true → s.blk.cas.up.contains l = false → s.blk.casKey.isSome = true → count = s.blk.casCount → m = (if l = 0 then (s.blk.casMember + 1) % count else (s.blk.casMember + count - 1) % count) → rate = s.blk.ringRate 0 →
    Completes (.tabuskLinkUp t l m count rate) s (fun b => b.cas.up = setIns s.blk.cas.up l ∧ (b.mbr m).st = 1 ∧ (b.mbr m).heard = some (s.at t).t7)) ∧
  (∀ (t : Nat) (k : KeySlot) (s : State), s.blk.casMaster = true → s.blk.casKey = some k →
    Completes (.timeFrameSend t) s (fun b => b.cas.seq = (s.blk.cas.seq + 1) % 2 ^ 48 ∧ ∀ l, l < 2 → s.blk.cas.up.contains l = true → b.cas.out.1 = (s.at t).t7 ∧
        b.cas.out.2.contains (l, (s.at t).casFrame k.bytes 2 0 true 0 0 0 0 (tt80 ((s.at t).tbNow 6) ++ leBytes 8 0)) = true)) ∧
  (∀ (t l d : Nat) (s : State), l < 2 → s.blk.cas.up.contains l = true →
    Completes (.delayExchange t l d) s (fun b => Tbl.get b.cas.delays l [] = (d :: Tbl.get s.blk.cas.delays l []).take 8)) ∧
  (∀ (t m a : Nat) (s : State), m < 8 → s.blk.casMaster = true → (s.blk.mbr m).st = 1 → (s.blk.mbr m).heard = some a → a + 1000000 ≤ (s.at t).t7 →
    Completes (.memberLost t m) s (fun b => (b.mbr m).st = 0 ∧ b.cas.epoch = (s.blk.cas.epoch + 1) % 2 ^ 32 ∧ bit (b.vis Reg.CAS_IRQ_STATUS).toNat 3 = true ∧ ∀ e ∈ s.blk.cas.proxy, e.1 / 8192 = m → (b.alnCtx e.2).silent = true)) ∧
  (∀ (t a : Nat) (s : State), s.blk.cas.badSince = some a → a + nsPerS ≤ (s.at t).t7 → s.blk.cas.timeOk = true →
    Completes (.timeFault t) s (fun b => b.cas.timeOk = false ∧ bit (b.vis Reg.CAS_IRQ_STATUS).toNat 5 = true))

/-- RENEW_SEND: a HEALTHY active numbers, sends and counts a RENEW (R383, R384). A RENEW that a partner not serving receives is noted on its path,
its epoch taken, and a FENCED partner becomes the standby (R383, R388). An ACK in time extends the lease to 400 µs after its RENEW and ends SOLO
(R384). A HELLO lets a FENCED partner that is not PREFERRED become the standby (R388, R389). A NAK with a higher epoch fences the active (R388).
A path lost is down (R383). A lease that ends leaves SOLO where both paths fell silent together, else the fence (R384). -/
def Obligations.HeartbeatsKeepTheLease : Prop :=
  (∀ (t : Nat) (s : State), s.blk.redActive = true → s.blk.redHealthy = true →
    Completes (.renewSend t) s (fun b => b.red.seq = (s.blk.red.seq + 1) % 65536 ∧ b.red.sends.head? = some ((s.blk.red.seq + 1) % 65536, (s.at t).t7) ∧ s.blk.counts b Reg.RED_RENEWS)) ∧
  (∀ (t p : Nat) (x : Machine.RedMsg) (s : State), p < 2 → s.blk.redOn = true → s.blk.redAble p = true → later 32 s.blk.red.epoch x.epoch = false → s.blk.redActive = false →
    Completes (.heartbeatRenewRx t p x true) s (fun b => (b.redPath p).renewAt = some (s.at t).t7 ∧ (b.redPath p).renewSeq = x.seq ∧ b.red.epoch = x.epoch ∧ b.red.pEpoch = x.epoch ∧ b.red.pRole = x.role ∧ b.red.heardRenew = true ∧
      b.red.role = (if s.blk.red.role = 3 then 2 else s.blk.red.role))) ∧
  (∀ (t p a : Nat) (x : Machine.RedMsg) (s : State), p < 2 → s.blk.redOn = true → s.blk.redAble p = true → later 32 s.blk.red.epoch x.epoch = false → s.blk.redActive = true → s.blk.sys.mode ≠ .degraded → s.blk.red.sends.find? (fun e => e.1 == x.seq) = some (x.seq, a) → (s.at t).t7 ≤ a + 300000 →
    Completes (.heartbeatAckRx t p x true) s (fun b => b.red.leaseEnd = some (max (s.blk.red.leaseEnd.getD 0) (a + 400000)) ∧ b.red.solo = false ∧ (b.redPath p).ack = some x.seq)) ∧
  (∀ (t p : Nat) (x : Machine.RedMsg) (s : State), p < 2 → s.blk.redOn = true → s.blk.redAble p = true → later 32 s.blk.red.epoch x.epoch = false → s.blk.red.role = 3 → s.blk.redPreferred = false →
    Completes (.heartbeatHelloRx t p x true) s (fun b => b.red.role = 2 ∧ b.red.heardOther = true ∧ b.red.pEpoch = x.epoch)) ∧
  (∀ (t p : Nat) (x : Machine.RedMsg) (s : State), p < 2 → s.blk.redOn = true → s.blk.redAble p = true → later 32 s.blk.red.epoch x.epoch = false → s.blk.redActive = true → later 32 x.epoch s.blk.red.epoch = true →
    Completes (.heartbeatNakRx t p x true) s (fun b => b.red.role = 3 ∧ b.red.epoch = x.epoch ∧ b.out.halted = true ∧ b.red.leaseEnd = none ∧ s.blk.counts b Reg.RED_FENCES ∧ bit (b.vis Reg.RED_IRQ_STATUS).toNat 7 = true)) ∧
  (∀ (t p : Nat) (s : State), p < 2 → (s.blk.redPath p).up = true → (s.at t).pathLost p = true →
    Completes (.pathDown t p) s (fun b => (b.redPath p).up = false ∧ (b.redPath p).good = 0 ∧ s.blk.counts b (if p = 0 then Reg.RED_PATH_DOWNS_A else Reg.RED_PATH_DOWNS_B) ∧ bit (b.vis Reg.RED_IRQ_STATUS).toNat 5 = true)) ∧
  (∀ (t a : Nat) (s : State), s.blk.red.leaseEnd = some a → s.blk.redActive = true → a ≤ (s.at t).t7 →
    Completes (.leaseExpiry t) s (fun b => if s.blk.silentTogether = true then b.red.solo = true ∧ b.red.role = s.blk.red.role else b.red.role = 3 ∧ b.out.halted = true ∧ b.red.leaseEnd = none ∧ s.blk.counts b Reg.RED_FENCES))

/-- FAIL from the active, and 450 µs without a RENEW, make the standby take over: TAKEOVER, the epoch one above the newer of the two (R385, R386,
R388); RELEASE makes it active as well, after a WARM start as a planned handover (R396). CHECKPOINT_RX: a frame of the delta in hand is applied;
the last one of a whole delta makes its tag the image's (R391, R392). RESTORE_DONE: output and pins are served (R393). ROLE_LISTEN_END: a RENEW
heard makes the standby, silence the active (R389). HANDOVER starts a planned handover or is refused, FAILBACK_HOLDDOWN_END starts one (R395);
CONTROL HANDOVER(h) tells the standby the basin; at its end the old active stops output (R396). -/
def Obligations.PartnersTakeOverAndHandOver : Prop :=
  (∀ (t p : Nat) (x : Machine.RedMsg) (s : State), p < 2 → s.blk.redOn = true → s.blk.redAble p = true → later 32 s.blk.red.epoch x.epoch = false → s.blk.redActive = false → s.blk.red.role = 2 ∨ s.blk.red.role = 5 → s.blk.sys.mode = .standby → x.role = 1 →
    Completes (.heartbeatFailRx t p x true) s (fun b => b.red.role = 4 ∧ b.sys.mode = .takeover ∧ b.red.tkAt = some (s.at t).t7 ∧ b.red.epoch = (x.epoch + 1) % 2 ^ 32 ∧ b.red.byTakeover = true ∧ s.blk.counts b Reg.RED_TAKEOVERS)) ∧
  (∀ (t : Nat) (l : List Nat) (s : State), l = (s.blk.redPath 0).renewAt.toList ++ (s.blk.redPath 1).renewAt.toList → l ≠ [] → (∀ a ∈ l, a + 450000 ≤ (s.at t).t7) → s.blk.red.role = 2 ∨ s.blk.red.role = 5 → s.blk.sys.mode = .standby →
    Completes (.takeoverTimeout t) s (fun b => b.red.role = 4 ∧ b.sys.mode = .takeover ∧ b.red.tkAt = some (s.at t).t7 ∧ b.red.epoch = (newerEpoch s.blk.red.epoch s.blk.red.pEpoch + 1) % 2 ^ 32 ∧ s.blk.counts b Reg.RED_TAKEOVERS)) ∧
  (∀ (t p : Nat) (x : Machine.RedMsg) (l : List (Nat × Nat)) (s : State), p < 2 → s.blk.redOn = true → s.blk.redAble p = true → later 32 s.blk.red.epoch x.epoch = false → s.blk.red.role = 2 ∨ s.blk.red.role = 5 → s.blk.sys.mode = .standby → x.role = 1 →
    Completes (.heartbeatReleaseRx t p x true l) s (fun b => b.red.role = 4 ∧ b.sys.mode = .takeover ∧ b.red.tkAt = some (s.at t).t7 ∧ b.red.epoch = (x.epoch + 1) % 2 ^ 32 ∧ b.red.byTakeover = decide (s.blk.red.role = 2))) ∧
  (∀ (t : Nat) (f : Machine.CkptFrame) (s : State), s.blk.redOn = true → s.blk.redAble 0 = true → s.blk.redActive = false → f.good = true → f.compat = s.blk.sys.pairCompat → later 32 s.blk.red.epoch f.epoch = false → s.blk.red.ckTag = some f.basin →
    Completes (.checkpointRx t f) s (fun b => let whole := s.blk.red.ckWhole && f.offset == s.blk.red.ckBytes
      b.red.epoch = f.epoch ∧ (if f.last = false then b.red.ckTag = some f.basin ∧ b.red.ckWhole = whole ∧ b.red.ckBytes = f.offset + f.length
        else b.red.ckTag = none ∧ (whole = true → b.red.ckLast = f.basin ∧ b.red.ckRun = s.blk.red.ckRun + 1 ∧ b.red.image = (s.blk.red.image || decide (16 ≤ s.blk.red.ckRun + 1))) ∧
          (whole = false → b.red.image = false ∧ b.red.ckRun = 0)) ∧
      ∀ r q j, f.items = [.ring r q j] → (b.ring r).nextSeq = q ∧ (b.ring r).nextSlot = j)) ∧
  (∀ (t : Nat) (s : State), s.blk.red.role = 4 → s.blk.sys.mode = .takeover → s.blk.red.tkAt.isSome = true → s.blk.degradeCause = 0 →
    Completes (.restoreDone t) s (fun b => b.red.tkAt = none ∧ b.out.halted = false ∧ b.alm.driven = true)) ∧
  (∀ (t a : Nat) (s : State), s.blk.red.listenEnd = some a → s.blk.red.role = 0 → s.blk.sys.mode = .standby → a ≤ (s.at t).t7 → s.blk.degradeCause = 0 →
    Completes (.roleListenEnd t) s (fun b => b.red.listenEnd = none ∧ (if s.blk.red.heardRenew = true ∨ (s.blk.red.heardOther = true ∧ s.blk.redPreferred = false) then b.red.role = 2 ∧ b.sys.mode = .standby
        else b.red.role = 1 ∧ b.sys.mode = (if (s.blk.tb 0).st = .locked then .active else .holdover) ∧ b.red.epoch = (newerEpoch s.blk.red.epoch s.blk.red.pEpoch + 1) % 2 ^ 32 ∧ (s.blk.red.heardOther = false → b.red.solo = true)))) ∧
  (∀ (t m : Nat) (s : State), s.blk.mayWrite m 19 0x41C →
    Completes (.redHandoverCmd t m) s (fun b => if (s.at t).handoverOk = true then (b.red.handover.map (·.1)) = some (slotAfter (s.blk.ringRate 0) ((s.at t).now + 1999999) + 2) ∧ b.red.holdSince = none
      else s.blk.counts b Reg.RED_HANDOVER_REFUSED ∧ b.red = s.blk.red)) ∧
  (∀ (t a : Nat) (s : State), s.blk.red.holdSince = some a → (s.at t).failbackOk = true → a + s.blk.cf Reg.RED_CFG 0 11 0 * nsPerS ≤ (s.at t).t7 →
    Completes (.failbackHolddownEnd t) s (fun b => (b.red.handover.map (·.1)) = some (slotAfter (s.blk.ringRate 0) ((s.at t).now + 1999999) + 2) ∧ b.red.holdSince = none)) ∧
  (∀ (t epoch slot seq : Nat) (s : State), s.blk.redOn = true → s.blk.redAble 0 = true → s.blk.red.role = 2 → later 32 s.blk.red.epoch epoch = false → s.blk.sys.mode = .standby →
    Completes (.handoverControlRx t epoch slot seq true) s (fun b => b.red.handover = some (slot, seq) ∧ b.red.epoch = epoch)) ∧
  (∀ (t a : Nat) (s : State), s.blk.red.stopAt = some a → s.blk.red.role = 6 → a ≤ (s.at t).now →
    Completes (.handoverOutputStop t) s (fun b => b.out.halted = true ∧ b.red.role = 2 ∧ b.red.stopAt = none))

/-! ### Keys, tamper, access control and the recorder -/

/-- UPD_GO with no change waiting: the first check of Table 16.4 that fails is the result, with no effect on the keys but that an attempt to change a
slot while a tamper source stays asserted zeroises again (R406); a message that passes them all
sets the counter, and then waits for a boundary (LOAD_SECRET, ERASE_SECRET, SET_EPOCH), replaces PK1 (SET_OWNER), or zeroises, sets TEST_ROOT and
opens debug (DEBUG_AUTH) (R402 to R404, R410). KEY_INSTALL: the change that waits is installed in its slot; a new epoch secret invalidates every
slot and, while no tamper source is asserted, ends ZEROISED (R404, R408). -/
def Obligations.KeyUpdatesAreCheckedAndInstalled : Prop :=
  (∀ (t m : Nat) (x : KeyMsg) (s : State), s.blk.mayWrite m 20 0x428 → s.blk.keyOp m = 1 → s.blk.key.waiting = none → x = ⟨s.blk.loadSafe (s.blk.addrOf Reg.KEY_UPD_ADDR_LO Reg.KEY_UPD_ADDR_HI m) 164⟩ →
    Completes (.loadSecret t m) s (fun b => (s.blk.keyCheck x = 0 → b.key = { s.blk.key with counter := x.counter, waiting := some ⟨x.op, x.slot, x.len == 1, x.attr, x.id, (s.blk.unwrapped x).getD 0⟩ }) ∧
      (s.blk.keyCheck x ≠ 0 → b.key = { (if s.blk.keyCheck x = 7 ∧ s.blk.tam.asserted ≠ [] then s.blk.key.wiped else s.blk.key) with result := s.blk.keyCheck x, zeroisedWaiting := false } ∧ s.blk.counts b Reg.KEY_UPD_REJECTED))) ∧
  (∀ (t m : Nat) (x : KeyMsg) (s : State), s.blk.mayWrite m 20 0x428 → s.blk.keyOp m = 2 → s.blk.key.waiting = none → x = ⟨s.blk.loadSafe (s.blk.addrOf Reg.KEY_UPD_ADDR_LO Reg.KEY_UPD_ADDR_HI m) 164⟩ →
    Completes (.eraseSecret t m) s (fun b => (s.blk.keyCheck x = 0 → b.key = { s.blk.key with counter := x.counter, waiting := some ⟨x.op, x.slot, x.len == 1, x.attr, x.id, (s.blk.unwrapped x).getD 0⟩ }) ∧
      (s.blk.keyCheck x ≠ 0 → b.key = { (if s.blk.keyCheck x = 7 ∧ s.blk.tam.asserted ≠ [] then s.blk.key.wiped else s.blk.key) with result := s.blk.keyCheck x, zeroisedWaiting := false } ∧ s.blk.counts b Reg.KEY_UPD_REJECTED))) ∧
  (∀ (t m : Nat) (x : KeyMsg) (s : State), s.blk.mayWrite m 20 0x428 → s.blk.keyOp m = 3 → s.blk.key.waiting = none → x = ⟨s.blk.loadSafe (s.blk.addrOf Reg.KEY_UPD_ADDR_LO Reg.KEY_UPD_ADDR_HI m) 164⟩ →
    Completes (.setEpoch t m) s (fun b => (s.blk.keyCheck x = 0 → b.key = { s.blk.key with counter := x.counter, waiting := some ⟨x.op, x.slot, x.len == 1, x.attr, x.id, (s.blk.unwrapped x).getD 0⟩ }) ∧
      (s.blk.keyCheck x ≠ 0 → b.key = { (if s.blk.keyCheck x = 7 ∧ s.blk.tam.asserted ≠ [] then s.blk.key.wiped else s.blk.key) with result := s.blk.keyCheck x, zeroisedWaiting := false } ∧ s.blk.counts b Reg.KEY_UPD_REJECTED))) ∧
  (∀ (t m : Nat) (x : KeyMsg) (s : State), s.blk.mayWrite m 20 0x428 → s.blk.keyOp m = 4 → s.blk.key.waiting = none → x = ⟨s.blk.loadSafe (s.blk.addrOf Reg.KEY_UPD_ADDR_LO Reg.KEY_UPD_ADDR_HI m) 164⟩ →
    Completes (.setOwner t m) s (fun b => (s.blk.keyCheck x = 0 → b.pk 1 = leAt x.bytes 36 64 ∧ b.key.counter = x.counter ∧ b.key.result = 0 ∧ s.blk.counts b Reg.KEY_UPD_ACCEPTED) ∧
      (s.blk.keyCheck x ≠ 0 → b.key = { s.blk.key with result := s.blk.keyCheck x, zeroisedWaiting := false } ∧ s.blk.counts b Reg.KEY_UPD_REJECTED))) ∧
  (∀ (t m : Nat) (x : KeyMsg) (s : State), s.blk.mayWrite m 20 0x428 → s.blk.keyOp m = 5 → s.blk.key.waiting = none → x = ⟨s.blk.loadSafe (s.blk.addrOf Reg.KEY_UPD_ADDR_LO Reg.KEY_UPD_ADDR_HI m) 164⟩ →
    Completes (.debugAuth t m) s (fun b => (s.blk.keyCheck x = 0 → b.key.testRoot = true ∧ b.key.debugOpen = true ∧ b.sys.zeroised = true ∧ (∀ i, i < 64 → (b.slot i).valid = false) ∧ b.key.epoch = none ∧ b.key.result = 0) ∧
      (s.blk.keyCheck x ≠ 0 → b.key = { s.blk.key with result := s.blk.keyCheck x, zeroisedWaiting := false } ∧ s.blk.counts b Reg.KEY_UPD_REJECTED))) ∧
  (∀ (t : Nat) (c : KeyChange) (s : State), s.blk.key.waiting = some c → s.blk.key.zeroisedWaiting = false →
    Completes (.keyInstall t) s (fun b => b.key.waiting = none ∧ b.key.result = 0 ∧ s.blk.counts b Reg.KEY_UPD_ACCEPTED ∧
      (c.op = 1 → b.slot c.slot = ⟨true, c.len256, c.attr, c.id, ((s.blk.slot c.slot).gen + 1) % 65536, c.body⟩) ∧ (c.op = 2 → (b.slot c.slot).valid = false) ∧
      (c.op = 3 → b.key.epoch = some c.body ∧ (∀ i, i < 64 → (b.slot i).valid = false) ∧ (s.blk.tam.asserted = [] → b.sys.zeroised = false)))) ∧
  (∀ (t : Nat) (c : KeyChange) (s : State), s.blk.key.waiting = some c → s.blk.key.zeroisedWaiting = true →
    Completes (.keyInstall t) s (fun b => b.key.waiting = none ∧ b.key.result = 10 ∧ b.key.slots = s.blk.key.slots ∧ s.blk.counts b Reg.KEY_UPD_REJECTED))

/-- TAMPER_EVENT: a source newly asserted invalidates every secret slot and the epoch secret, with or without mains power (R400, R406).
ACC_VIOLATION: an access that the region table does not permit freezes its master and is counted (R415). ACC_RELEASE: HC0 lifts the freeze of
another master; any other release is refused and counted (R416). -/
def Obligations.TamperZeroisesAndAccFreezes : Prop :=
  (∀ (t : Nat) (now : TamSight) (elapsed : Option Nat) (s : State), (List.range 8).any (fun i => s.blk.tamAsserts now elapsed.isNone i && !s.blk.tam.asserted.contains i) = true →
    Completes (.tamperEvent t now elapsed) s (fun b => b.sys.zeroised = true ∧ b.key.epoch = none ∧ (∀ i, i < 64 → (b.slot i).valid = false) ∧ b.tam.asserted = (List.range 8).filter (s.blk.tamAsserts now elapsed.isNone))) ∧
  (∀ (t m addr size : Nat) (w : Bool) (s : State), m < 55 → Wf.width size = true → s.blk.masterReady m = true → s.blk.accOk m addr size w = false →
    Completes (.accViolation t m addr size w) s (fun b => b.isFrozen m = true ∧ s.blk.counts b Reg.ACC_VIOLATIONS ∧ bit (b.vis Reg.ACC_IRQ_STATUS).toNat 0 = true ∧ (m < 4 → Tbl.get b.resp m (.value 0) = .violation))) ∧
  (∀ (t m x : Nat) (s : State), s.blk.mayWrite m 24 0x48 → s.blk.selInst 24 m 1 = some x →
    Completes (.accRelease t m) s (fun b => if m = 0 ∧ x ≠ 0 ∧ s.blk.isFrozen x = true then b.acc.frozen = setDel s.blk.acc.frozen x else b.acc = s.blk.acc ∧ s.blk.counts b Reg.ACC_REL_REFUSED))

/-- EVENT_ENTRY_WRITE: the next buffered entry goes to the last area, and to the first while it has room (R417, R418). FREEZE, THAW and the timeout
after 1 s (R421, R422). CLR_UNLOCK with its value opens the clear for 100 µs; a CLEAR by HC0 within it in MAINTENANCE raises event CLEARED, any
other one is refused and counted (R424). EVR_COMMIT: the sets are in force in the next cycle (R425). -/
def Obligations.TheRecorderKeepsItsEvents : Prop :=
  (∀ (t : Nat) (e : Event) (v : Evr) (s : State), s.blk.evr.ready = true → s.blk.evr.frozenAt = none → s.blk.evr.nextEntry = some (e, v) → e.code ≠ 0x1705 → s.blk.evr.lastHead < 4096 →
    Completes (.eventEntryWrite t) s (fun b => b.load (Evr.lastArea + 64 * s.blk.evr.lastHead) 64 = e.bytes ∧ b.evr.lastHead = (s.blk.evr.lastHead + 1) % 4096 ∧ b.evr.held = v.held ∧
      (if s.blk.evr.firstCount < 256 then b.load (Evr.firstArea + 64 * s.blk.evr.firstCount) 64 = e.bytes ∧ b.evr.firstCount = s.blk.evr.firstCount + 1 else b.evr.firstCount = s.blk.evr.firstCount))) ∧
  (∀ (t m : Nat) (s : State), s.blk.mayWrite m 22 0x410 →
    Completes (.evrFreeze t m) s (fun b => b.evr.frozenAt = some (s.blk.evr.frozenAt.getD (s.at t).t7) ∧ b.evr.unlockAt = none)) ∧
  (∀ (t m : Nat) (s : State), s.blk.mayWrite m 22 0x410 →
    Completes (.evrThaw t m) s (fun b => b.evr.frozenAt = none ∧ b.evr.unlockAt = none ∧ b.evr.held = s.blk.evr.held)) ∧
  (∀ (t f : Nat) (s : State), s.blk.evr.frozenAt = some f → f + nsPerS ≤ (s.at t).t7 →
    Completes (.freezeTimeout t) s (fun b => b.evr.frozenAt = none ∧ bit (b.vis Reg.EVR_STATUS).toNat 29 = true)) ∧
  (∀ (t m : Nat) (last : Bool) (s : State), s.blk.mayWrite m 22 0x410 →
    Completes (.evrClear t m last) s (fun b => b.evr.unlockAt = none ∧ (if s.blk.sys.mode = .maintenance ∧ m = 0 ∧ s.blk.evr.unlockAt.any (fun u => decide ((s.at t).t7 ≤ u + 100000)) = true then b.evr.buf.any (fun e => e.code == 0x1705) = true
        else s.blk.counts b Reg.EVR_CLR_REFUSED ∧ bit (b.vis Reg.EVR_IRQ_STATUS).toNat 3 = true))) ∧
  (∀ (t m value : Nat) (s : State), s.blk.mayWrite m 22 0x414 →
    Completes (.clrUnlock t m value) s (fun b => b.evr.unlockAt = (if value % 2 ^ 32 = 0xC1EA5A5A then some (s.at t).t7 else none))) ∧
  (∀ (t m : Nat) (s : State), s.blk.mayWrite m 22 0x408 → 4 ≤ m ∨ bit (s.blk.vis Reg.SYS_CFG).toNat 0 = false → (∀ e ∈ s.blk.regs.com, keyBlk e.1 ≠ 22) → (∀ k ∈ s.blk.regs.dirty, keyBlk k = 22 → Reg.rangeOk k (s.blk.visAt k) = true) →
    Completes (.evrCommit t m) s (fun b => b.regs.dirty = s.blk.regs.dirty.filter (fun k => keyBlk k != 22) ∧ (∀ e ∈ b.regs.com, keyBlk e.1 ≠ 22) ∧
      ∀ k ∈ s.blk.regs.dirty, keyBlk k = 22 → Tbl.get b.regs.act k (Reg.rstOf k) = s.blk.visAt k))

/-! ### Modes, LOAD, power and the system bus -/

/-- HC0's request for MAINTENANCE in STANDBY, or in a mode of service without a partner present, is met at once; 0x3 leaves MAINTENANCE for the mode
that the state calls for; DEBUG is entered while the debug port is open; HALT has cause 6 (R427 to R429). A request by another master, of another
code, or from another mode is refused and counted (R428). -/
def Obligations.ModeRequestsAreMetOrRefused : Prop :=
  (∀ (t : Nat) (force : Bool) (s : State), s.blk.mayWrite 0 0 0x414 → s.blk.sys.mode = .standby ∨ ((s.blk.sys.mode = .active ∨ s.blk.sys.mode = .holdover ∨ s.blk.sys.mode = .degraded) ∧ ((s.at t).redActive && (s.at t).redPresent) = false) →
    Completes (.modeReqMaintenance t 0 force) s (fun b => b.sys.mode = .maintenance ∧ b.sys.enteredFrom = s.blk.sys.mode)) ∧
  (∀ (t : Nat) (s : State), s.blk.mayWrite 0 0 0x414 → s.blk.sys.mode = .maintenance → s.blk.redOn = false ∨ s.blk.degradeCause = 0 →
    Completes (.modeReqActive t 0) s (fun b => b.sys.mode = (if s.blk.redOn = true ∧ s.blk.redActive = false then .standby else if s.blk.degradeCause ≠ 0 then .degraded else if (s.blk.tb 0).st = .locked then .active else .holdover))) ∧
  (∀ (t : Nat) (s : State), s.blk.mayWrite 0 0 0x414 → s.blk.sys.mode = .maintenance → s.blk.key.debugOpen = true →
    Completes (.modeReqDebug t 0) s (fun b => b.sys.mode = .debug)) ∧
  (∀ (t : Nat) (s : State), s.blk.mayWrite 0 0 0x414 → s.blk.sys.mode = .maintenance →
    Completes (.modeReqHalt t 0) s (fun b => b.sys.mode = .halt ∧ b.sys.haltCause = 6 ∧ b.sys.haltAt = (s.at t).t7)) ∧
  (∀ (t m code : Nat) (s : State), s.blk.mayWrite m 0 0x414 → m ≠ 0 ∨ [3, 8, 9, 11].contains (code % 16) = false →
    Completes (.modeReqInvalid t m code) s (fun b => s.blk.counts b Reg.SYS_MODE_REQ_REFUSED ∧ b.sys.mode = s.blk.sys.mode)) ∧
  (∀ (t m : Nat) (s : State), s.blk.mayWrite m 0 0x414 → m ≠ 0 ∨ s.blk.sys.mode ≠ .maintenance →
    Completes (.modeReqActive t m) s (fun b => s.blk.counts b Reg.SYS_MODE_REQ_REFUSED ∧ b.sys.mode = s.blk.sys.mode)) ∧
  (∀ (t m : Nat) (s : State), s.blk.mayWrite m 0 0x414 → m ≠ 0 ∨ s.blk.sys.mode ≠ .maintenance ∨ s.blk.key.debugOpen = false →
    Completes (.modeReqDebug t m) s (fun b => s.blk.counts b Reg.SYS_MODE_REQ_REFUSED ∧ b.sys.mode = s.blk.sys.mode)) ∧
  (∀ (t m : Nat) (s : State), s.blk.mayWrite m 0 0x414 → m ≠ 0 ∨ s.blk.sys.mode ≠ .maintenance →
    Completes (.modeReqHalt t m) s (fun b => s.blk.counts b Reg.SYS_MODE_REQ_REFUSED ∧ b.sys.mode = s.blk.sys.mode))

/-- POWER_ON: on the state that a die reset leaves, with the straps read and TB7 at zero, LOAD's steps run in their order (R431). LOAD_COMPLETE:
SELFTEST, with the watchdog started (R432, R454). SELFTEST_DONE: HALT with cause 2 on a fatal failure, else ACQUIRE (R433). HALT_RESTART,
RESET_REQ[DIE] and IMG_CMD[SWITCH] reset the die: LOAD, every memory but MRAM empty (R427, R440, R454); RESET_REQ[HOST] and the watchdog reset
the host cluster (R454). SAVE_COMPLETE: HALT with SAVE's cause, the modulators' supply off, the DRAM lost (R442, R468). -/
def Obligations.LoadSelftestAndResets : Prop :=
  (∀ (t straps : Nat) (s : State),
    Completes (.powerOn t true straps) s (fun b => let z := (s.at t).mainsOn
      z.sys.mode = .load ∧ b = Block.loadRun { z with t7 := 0, sys := { z.sys with straps := straps % 8 }, pwr := { z.pwr with modSupply := true } })) ∧
  (∀ (t : Nat) (s : State), s.blk.sys.mode = .load → s.blk.sys.imageApplied = true →
    Completes (.loadComplete t) s (fun b => b.sys.mode = .selftest ∧ b.sys.wdogAt = some (s.at t).t7)) ∧
  (∀ (t : Nat) (r : Machine.SelftestResult) (s : State), s.blk.sys.mode = .selftest →
    Completes (.selftestDone t r) s (fun b => if (r.crypto || r.host || r.dram || ((s.at t).march r.sram).1) = true then b.sys.mode = .halt ∧ b.sys.haltCause = 2 else b.sys.mode = .acquire ∧ b.dma.excluded = r.channels)) ∧
  (∀ (t : Nat) (s : State), s.blk.sys.mode = .halt → (s.at t).haltOver = true →
    Completes (.haltRestart t) s (fun b => b.sys.mode = .load ∧ b.t7 = 0 ∧ (∀ a, a < 0x40000000 ∨ 0x40800000 ≤ a → b.load8 a = 0) ∧ b.sys.restartWaits = some s.blk.sys.haltCause ∧ b.sys.lastHaltCause = s.blk.sys.haltCause)) ∧
  (∀ (t : Nat) (s : State), s.blk.mayWrite 0 0 0x458 → s.blk.sys.mode = .maintenance ∨ s.blk.sys.mode = .debug →
    Completes (.dieResetReq t 0) s (fun b => b.sys.mode = .load ∧ b.t7 = 0 ∧ (∀ a, a < 0x40000000 ∨ 0x40800000 ≤ a → b.load8 a = 0))) ∧
  (∀ (t m : Nat) (s : State), s.blk.mayWrite m 0 0x458 → m ≠ 0 ∨ (s.blk.sys.mode ≠ .maintenance ∧ s.blk.sys.mode ≠ .debug) →
    Completes (.dieResetReq t m) s (fun b => s.blk.counts b Reg.SYS_MODE_REQ_REFUSED ∧ b.sys.mode = s.blk.sys.mode)) ∧
  (∀ (t m : Nat) (s : State), s.blk.mayWrite m 0 0x448 → s.blk.sys.mode = .maintenance →
    Completes (.imageVerify t m) s (fun b => b.sys.imgResult = s.blk.imgCheck (1 - s.blk.sys.bank) ∧ b.mem = s.blk.mem)) ∧
  (∀ (t m : Nat) (s : State), s.blk.mayWrite m 0 0x448 → s.blk.sys.mode = .maintenance →
    Completes (.imageSwitch t m) s (fun b => if s.blk.imgCheck (1 - s.blk.sys.bank) = 0 then b.sys.mode = .load ∧ b.t7 = 0 ∧ (∀ a, a < 0x40000000 ∨ 0x40800000 ≤ a → b.load8 a = 0) ∧
          (s.blk.evr.lastHead < 4096 → b.boot.bank = 1 - s.blk.sys.bank ∧ b.boot.trial = true ∧ b.boot.attempts = 0)
        else b.sys.imgResult = s.blk.imgCheck (1 - s.blk.sys.bank) ∧ b.sys.mode = .maintenance)) ∧
  (∀ (t : Nat) (s : State), s.blk.mayWrite 0 0 0x458 →
    Completes (.hostResetReq t 0) s (fun b => s.blk.counts b Reg.SYS_HOST_RESETS ∧ b.sys.wdogAt = some (s.at t).t7 ∧ b.sys.mode = s.blk.sys.mode ∧ ∀ m, m < 4 → b.isFrozen m = false)) ∧
  (∀ (t e : Nat) (s : State), s.blk.wdogEnd = some e → e ≤ (s.at t).t7 →
    Completes (.hostWatchdogExpiry t) s (fun b => s.blk.counts b Reg.SYS_HOST_RESETS ∧ b.sys.wdogAt = some (s.at t).t7 ∧ b.sys.mode = s.blk.sys.mode ∧ ∀ m, m < 4 → b.isFrozen m = false)) ∧
  (∀ (t : Nat) (s : State), s.blk.sys.mode = .save →
    Completes (.saveComplete t) s (fun b => b.sys.mode = .halt ∧ b.sys.haltCause = s.blk.sys.saveCause ∧ b.sys.haltAt = (s.at t).t7 ∧ b.pwr.modSupply = false ∧ ∀ a, 0x1000000000 ≤ a → a < 0x1800000000 → b.load8 a = 0))

/-- IMAGE_CONFIRM: after 60 s in a row the pointer in force is the same one, CONFIRMED, its rollback floor raised to the image's (R438). TUNING_SET:
the first check that fails is the result and nothing changes; else the set's counter is the new one and its entries are applied (R439). -/
def Obligations.ImagesAreConfirmedAndTuned : Prop :=
  (∀ (t a : Nat) (s : State), s.blk.sys.goodSince = some a → s.blk.sys.trial = true → a + 60 * nsPerS ≤ (s.at t).t7 →
    Completes (.imageConfirm t) s (fun b => b.sys.trial = false ∧ b.boot = ⟨(s.blk.boot.seq + 1) % 2 ^ 32, s.blk.boot.bank, false, 0, max s.blk.boot.floor s.blk.sys.imgRollback % 2 ^ 32⟩)) ∧
  (∀ (t m addr r : Nat) (h : List Byte) (es : List TuneEntry) (s : State), s.blk.mayWrite m 0 0x430 → addr = s.blk.addrOf Reg.SYS_TUNE_ADDR_LO Reg.SYS_TUNE_ADDR_HI m → h = s.blk.loadSafe addr 128 → es = (List.range (min 4096 (leAt h 6 2))).map (fun i => TuneEntry.ofBytes (s.blk.loadSafe (addr + 128 + 16 * i) 16)) → r = s.blk.tuneCheck m addr h es →
    Completes (.tuningSet t m) s (fun b => b.sys.tuneResult = r ∧ (if r = 0 then b.sys.tuneCounter = leAt h 8 8 ∧ (∀ sec off x, es = [.leap sec off x] → b.tim.leaps = s.blk.tim.leaps ++ [(sec, off)] ∧ b.tim.leapExpiry = x)
        else b.sys.tuneCounter = s.blk.sys.tuneCounter ∧ b.regs.com = s.blk.regs.com ∧ b.regs.dirty = s.blk.regs.dirty ∧ b.tim.leaps = s.blk.tim.leaps)))

/-- The power-fail warning begins SAVE with cause 4 (R442). A die temperature is recorded; from 145 °C the warning holds until it falls below 140 °C,
at 158 °C the trip begins SAVE with cause 5 (R444). The hold-up test runs when its period has passed, its result is the estimate of R446 with its
warning below 25 ms and its end from 27 ms (R445, R446, R463). The supply's state is the input's (R460). -/
def Obligations.PowerAndTemperatureAreWatched : Prop :=
  (∀ (t : Nat) (s : State), s.blk.sys.mode ≠ .save → s.blk.sys.mode ≠ .halt →
    Completes (.powerFailWarning t) s (fun b => b.sys.mode = .save ∧ b.sys.saveCause = 4 ∧ b.pwr.pfWarn = true ∧ b.out.halted = true ∧ s.blk.counts b Reg.PWR_PF_WARNINGS)) ∧
  (∀ (t : Nat) (temp : Int) (s : State),
    Completes (.tempSample t temp) s (fun b => b.pwr.temp = temp ∧ b.pwr.tempMax = some (max (s.blk.pwr.tempMax.getD temp) temp) ∧ b.pwr.thermWarn = (if 580 ≤ temp then true else if temp < 560 then false else s.blk.pwr.thermWarn) ∧
      (632 ≤ temp → s.blk.pwr.temp < 632 → s.blk.counts b Reg.PWR_THERM_TRIPS ∧ (s.blk.sys.mode ≠ .save → s.blk.sys.mode ≠ .halt → b.sys.mode = .save ∧ b.sys.saveCause = 5)))) ∧
  (∀ (t a : Nat) (s : State), s.blk.pwr.lastTest = some a → a + s.blk.cf Reg.PWR_CFG 0 7 0 * 3600 * nsPerS ≤ (s.at t).t7 → s.blk.pwr.testRun = none → s.blk.pwr.pfWarn = false → s.blk.sys.mode ≠ .load → s.blk.sys.mode ≠ .save → s.blk.sys.mode ≠ .halt →
    Completes (.holdupTest t) s (fun b => b.pwr.testRun = some (s.at t).t7 ∧ b.pwr.lastTest = some (s.at t).t7 ∧ s.blk.counts b Reg.PWR_HOLDUP_TESTS)) ∧
  (∀ (t p v0 v1 us a : Nat) (s : State), s.blk.pwr.testRun = some a → a + 2000000 ≤ (s.at t).t7 → 3800 ≤ v1 → holdupOf p v0 v1 = some us →
    Completes (.holdupTestDone t p v0 v1) s (fun b => b.pwr.testRun = none ∧ b.pwr.vin = v1 ∧ b.pwr.holdupUs = min 65535 us ∧ b.pwr.holdupLow = (if us < 25000 then true else if 27000 ≤ us then false else s.blk.pwr.holdupLow))) ∧
  (∀ (t : Nat) (good : Bool) (s : State),
    Completes (.supplyGoodChange t good) s (fun b => b.pwr.supplyGood = good ∧ b.pwr.pfWarn = (s.blk.pwr.pfWarn && !good) ∧ b.sys.mode = s.blk.sys.mode))

/-- BUS_TIMEOUT: the stalled access of a master, or of a memory mover's channel, ends with a bus error (R453). The interrupt controller's claim
answers the enabled pending source of highest priority and takes it, complete gives it back (R452). QSPI ERASE and PROGRAM of the bank not in use
run in MAINTENANCE and are refused elsewhere; an erased sector reads ones, a programmed page the AND of old and new (R455). WDOG_KICK restarts
the watchdog (R454). The machine timer interrupt is raised once MTIME has reached the compare value (R452). -/
def Obligations.TheSystemBusServesItsMasters : Prop :=
  (∀ (t m addr a : Nat) (s : State), m < 55 → m ≠ 52 → m ≠ 53 → Tbl.get s.blk.resp m (.value 0) = .stalled a → a + fld (s.blk.vis Reg.SYS_BUS_TIMEOUT) 13 0 * 1000 ≤ (s.at t).t7 →
    Completes (.busTimeout t m addr) s (fun b => Tbl.get b.resp m (.value 0) = .busError ∧ s.blk.counts b Reg.SYS_BUS_TIMEOUTS ∧ bit (b.vis Reg.SYS_IRQ_STATUS).toNat 2 = true)) ∧
  (∀ (t m addr c : Nat) (s : State), m = 52 ∨ m = 53 → s.blk.dmaRunning (m - 52) = some c → addr ≠ queueAddr 0x58 → ((s.at t).dmaMove c (some addr)).stop = some .stall →
      ((s.at t).dmaCh c).since + fld (s.blk.vis Reg.SYS_BUS_TIMEOUT) 13 0 * 1000 ≤ (s.at t).t7 →
    Completes (.busTimeout t m addr) s (fun b => (b.dmaCh c).st = .halted ∧ (b.dmaCh c).err = 4 ∧ b.dmaRunning (c / 16) = none ∧ bit (b.vis Reg.SYS_IRQ_STATUS).toNat 2 = true)) ∧
  (∀ (t m c : Nat) (s : State), m = 52 ∨ m = 53 → s.blk.dmaRunning (m - 52) = some c → ((s.at t).dmaMove c none).stop = some .stall → (((s.at t).dmaMove c none).kept (52 + c / 16) c).stallOver (52 + c / 16) = true →
    Completes (.busTimeout t m (queueAddr 0x58)) s (fun b => (b.dmaCh c).st = .halted ∧ (b.dmaCh c).err = 4 ∧ b.dmaRunning (c / 16) = none ∧ bit (b.vis Reg.SYS_IRQ_STATUS).toNat 2 = true)) ∧
  (∀ (t h : Nat) (s : State), h < 4 → s.blk.masterReady h = true → s.blk.accOk h (0x0C200004 + 0x1000 * h) 4 false = true →
    Completes (.plicClaim t h) s (fun b => Tbl.get b.resp h (.value 0) = .value ((s.at t).plicBest h) ∧ b.sys.plicClaimed = (if (s.at t).plicBest h = 0 then s.blk.sys.plicClaimed else setIns s.blk.sys.plicClaimed ((s.at t).plicBest h)))) ∧
  (∀ (t h i : Nat) (s : State), h < 4 → s.blk.masterReady h = true → s.blk.accOk h (0x0C200004 + 0x1000 * h) 4 true = true → s.blk.plicEnabled h (i % 2 ^ 32) = true →
    Completes (.plicComplete t h i) s (fun b => b.sys.plicClaimed = setDel s.blk.sys.plicClaimed (i % 2 ^ 32))) ∧
  (∀ (t m a : Nat) (s : State), s.blk.mayWrite m 0 0x49C → a = (s.blk.vis Reg.SYS_QSPI_ADDR).toNat % 2 ^ 27 → s.blk.sys.mode = .maintenance → Flash.bank a ≠ s.blk.sys.bank → a % 65536 = 0 → s.blk.sys.qspi = none →
    Completes (.qspiErase t m) s (fun b => b.sys.qspi = some ⟨false, a, s.blk.addrOf Reg.SYS_QSPI_SRC_LO Reg.SYS_QSPI_SRC_HI⟩)) ∧
  (∀ (t m a : Nat) (s : State), s.blk.mayWrite m 0 0x49C → a = (s.blk.vis Reg.SYS_QSPI_ADDR).toNat % 2 ^ 27 → s.blk.sys.mode = .maintenance → Flash.bank a ≠ s.blk.sys.bank → a % 256 = 0 → s.blk.sys.qspi = none →
    Completes (.qspiProgram t m) s (fun b => b.sys.qspi = some ⟨true, a, s.blk.addrOf Reg.SYS_QSPI_SRC_LO Reg.SYS_QSPI_SRC_HI⟩)) ∧
  (∀ (t m : Nat) (s : State), s.blk.mayWrite m 0 0x49C → s.blk.sys.mode ≠ .maintenance →
    Completes (.qspiErase t m) s (fun b => b.sys.qspiResult = 1 ∧ b.sys.qspi = s.blk.sys.qspi ∧ s.blk.counts b Reg.SYS_QSPI_REFUSED)) ∧
  (∀ (t m : Nat) (s : State), s.blk.mayWrite m 0 0x49C → s.blk.sys.mode ≠ .maintenance →
    Completes (.qspiProgram t m) s (fun b => b.sys.qspiResult = 1 ∧ b.sys.qspi = s.blk.sys.qspi ∧ s.blk.counts b Reg.SYS_QSPI_REFUSED)) ∧
  (∀ (t a src : Nat) (s : State), s.blk.sys.qspi = some ⟨false, a, src⟩ →
    Completes (.qspiDone t) s (fun b => b.sys.qspi = none ∧ b.sys.qspiResult = 0 ∧ (∀ i, i < 65536 → b.loadFlash (a + i) 1 = [0xFF]) ∧ (∀ i, i < a ∨ a + 65536 ≤ i → b.loadFlash i 1 = s.blk.loadFlash i 1))) ∧
  (∀ (t a src : Nat) (new : List Byte) (s : State), s.blk.sys.qspi = some ⟨true, a, src⟩ → new = (s.blk.loadFlash a 256).zipWith (fun (o n : Byte) => o &&& n) (s.blk.load src 256) →
    Completes (.qspiDone t) s (fun b => b.sys.qspi = none ∧ b.loadFlash a 256 = new ∧ b.sys.qspiResult = (if new = s.blk.load src 256 then 0 else 4) ∧ (∀ i, i < a ∨ a + 256 ≤ i → b.loadFlash i 1 = s.blk.loadFlash i 1))) ∧
  (∀ (t value e : Nat) (s : State), s.blk.mayWrite 0 0 0x454 → s.blk.wdogEnd = some e → value % 2 ^ 32 = 0x4B43 → (s.at t).t7 < e →
    Completes (.wdogKick t 0 value) s (fun b => b.sys.wdogAt = some (s.at t).t7)) ∧
  (∀ (t h : Nat) (s : State), h < 4 → s.blk.mtimeCmp h ≤ (s.at t).t7 / 1000 →
    Completes (.machineTimerInterrupt t h) s (fun b => b.sys.mtip = setIns s.blk.sys.mtip h))

/-! ### What commands leave unchanged -/

/-- Every command of the cycle, the ports and stream ingest completes and leaves the queue, and every part of the block that is not listed for the
command, as it is: every register, table, counter and byte of that part; a register command is one whose access its master can make and ACC
permits. The parts: vis, act, com, dirty and locked are the registers as read, in force, committed, written since the last commit and locked;
cells, flash and poison the memories; resp and latch what a master was answered and latched; the others one block each. -/
def Obligations.FramesOfTheCycleAndPorts : Prop :=
  (∀ (t m addr width value : Nat), Frame (.registerWrite t m addr width value) [.t7, .free, .vis, .act, .com, .dirty, .locked, .resp, .latch, .rep, .cells, .flash, .poison, .evr, .sys, .pwr, .key, .tam, .acc, .tim, .aln, .mm, .dma, .que, .dfe, .prt, .str, .out, .cas, .rpl, .isl, .alm, .cmp, .sdm, .nrg, .cap, .rad, .red]) ∧
  (∀ (t m addr width : Nat), FrameIf (.rcRead t m addr width) (fun s => s.blk.masterReady m = true ∧ s.blk.accOk m addr width false = true) [.t7, .free, .vis, .resp, .latch, .rep, .cells, .poison, .evr, .sys, .pwr, .tim, .aln, .mm, .que, .dfe, .rpl, .nrg]) ∧
  (∀ (t m o : Nat), o < 16777216 → o % 4 = 0 → queueReg o = false →
    FrameIf (.rcRead t m (0xF0000000 + o) 4) (fun s => s.blk.masterReady m = true ∧ s.blk.accOk m (0xF0000000 + o) 4 false = true) [.t7, .vis, .resp, .latch, .pwr, .tim, .dfe, .nrg]) ∧
  (∀ (t m addr width : Nat), FrameIf (.latchingRead t m addr width) (fun s => s.blk.masterReady m = true ∧ s.blk.accOk m addr width false = true) [.t7, .free, .vis, .resp, .latch, .rep, .cells, .poison, .evr, .sys, .pwr, .tim, .aln, .mm, .que, .dfe, .rpl, .nrg]) ∧
  (∀ (t m o : Nat), o < 16777216 → o % 4 = 0 → queueReg o = false →
    FrameIf (.latchingRead t m (0xF0000000 + o) 4) (fun s => s.blk.masterReady m = true ∧ s.blk.accOk m (0xF0000000 + o) 4 false = true) [.t7, .vis, .resp, .latch, .pwr, .tim, .dfe, .nrg]) ∧
  (∀ (t ring : Nat), Frame (.tick t ring) [.t7, .free, .vis, .act, .com, .dirty, .resp, .rep, .cells, .poison, .evr, .aln, .que, .dfe, .prt, .str, .out, .cas, .rpl, .isl, .alm, .cmp, .sdm, .nrg, .cap, .red]) ∧
  (∀ (t ring seq : Nat), Frame (.weirADeadline t ring seq) [.t7, .free, .vis, .act, .com, .dirty, .resp, .rep, .cells, .poison, .evr, .sys, .tim, .aln, .que, .dfe, .prt, .out, .cas, .isl, .alm, .cmp, .cap, .red]) ∧
  (∀ (t ring seq : Nat), Frame (.weirASpacingElapsed t ring seq) [.t7, .free, .vis, .act, .com, .dirty, .resp, .rep, .cells, .poison, .evr, .sys, .tim, .aln, .que, .dfe, .prt, .out, .cas, .isl, .alm, .cmp, .cap, .red]) ∧
  (∀ (t ring seq : Nat), Frame (.weirBDeadline t ring seq) [.t7, .free, .vis, .act, .com, .dirty, .resp, .rep, .cells, .poison, .evr, .sys, .tim, .aln, .que, .dfe, .prt, .out, .cas, .rpl, .alm, .cmp, .cap, .red]) ∧
  (∀ (t ring seq ctx : Nat), Frame (.recordMark t ring seq ctx) [.t7, .free, .vis, .act, .com, .dirty, .resp, .rep, .cells, .poison, .evr, .sys, .tim, .aln, .que, .dfe, .prt, .str, .out, .cas, .rpl, .isl, .alm, .cmp, .cap, .red]) ∧
  (∀ (t ring seq : Nat), Frame (.tagExpiry t ring seq) [.t7, .free, .vis, .act, .com, .dirty, .resp, .rep, .poison, .evr, .aln, .que, .dfe, .prt, .out, .cas, .isl, .alm, .cap, .red]) ∧
  (∀ (t ring seq : Nat), Frame (.retentionEnd t ring seq) [.t7, .cells, .poison, .aln, .out, .cmp]) ∧
  (∀ (t ring seq : Nat), Frame (.missingHeadersDone t ring seq) [.t7, .cells, .poison, .aln, .out]) ∧
  (∀ (t port : Nat) (data : List Byte), Frame (.frameReceive t port data) [.t7, .free, .vis, .act, .com, .dirty, .resp, .rep, .cells, .poison, .evr, .sys, .tim, .aln, .que, .dfe, .prt, .out, .alm, .cmp, .cap, .red]) ∧
  (∀ (t port mbps : Nat) (half : Bool), Frame (.linkUp t port mbps half) [.t7, .vis, .evr, .prt]) ∧
  (∀ (t port : Nat) (onWire : Bool), Frame (.linkDown t port onWire) [.t7, .vis, .evr, .prt]) ∧
  (∀ (t port : Nat) (change : ModuleChange), Frame (.sfpChange t port change) [.t7, .vis, .evr, .prt]) ∧
  (∀ (t : Nat) (cut : PortCut), Frame (.cagePower t cut) [.t7, .vis, .evr, .prt]) ∧
  (∀ (t port : Nat) (tx : Bool), Frame (.portCfgApply t port tx) [.t7, .vis, .evr, .prt]) ∧
  (∀ (t m entry value : Nat), FrameIf (.filterEntryCommit t m entry value) (fun s => s.blk.mayWrite m 2 (filterHigh entry)) [.t7, .free, .vis, .act, .com, .dirty, .locked, .resp, .latch, .rep, .cells, .flash, .poison, .evr, .sys, .pwr, .key, .tam, .acc, .tim, .aln, .mm, .dma, .que, .dfe, .prt, .str, .out, .cas, .rpl, .isl, .alm, .cmp, .sdm, .nrg, .cap, .rad, .red]) ∧
  (∀ (t port : Nat), Frame (.forwardEgress t port) [.t7, .vis, .tim, .prt]) ∧
  (∀ (t pair : Nat), Frame (.tcEntryTimeout t pair) [.t7, .prt]) ∧
  (∀ (t port : Nat), Frame (.frameTransmit t port) [.t7, .vis, .tim, .prt]) ∧
  (∀ (t port cls : Nat) (d : Machine.LargeDesc), Frame (.largeSend t port cls d) [.t7, .vis, .rep, .evr, .prt]) ∧
  (∀ (t port cls : Nat) (d : Machine.UdpDesc), Frame (.udpFragmentSend t port cls d) [.t7, .vis, .prt]) ∧
  (∀ (t port : Nat) (poisoned aborted : Bool), Frame (.streamFrameIngest t port poisoned aborted) [.t7, .vis, .resp, .rep, .cells, .poison, .evr, .aln, .que, .prt, .str]) ∧
  (∀ (t : Nat), Frame (.reassemblyTimeout t) [.t7, .vis, .rep, .evr, .str]) ∧
  (∀ (t : Nat), Frame (.injectionProcess t) [.t7, .vis, .resp, .rep, .cells, .poison, .evr, .aln, .que, .str]) ∧
  (∀ (t m : Nat), FrameIf (.strCommit t m) (fun s => s.blk.mayWrite m 3 0x408) [.t7, .vis, .act, .com, .dirty, .resp, .rep, .cells, .poison, .evr, .tim, .que, .sdm, .cap]) ∧
  (∀ (t m : Nat), FrameIf (.alnCommit t m) (fun s => s.blk.mayWrite m 4 0x408) [.t7, .vis, .act, .com, .dirty, .resp, .rep, .cells, .poison, .evr, .tim, .que, .sdm, .cap]) ∧
  (∀ (t m : Nat), FrameIf (.ctxRelearn t m) (fun s => s.blk.mayWrite m 4 0x58) [.t7, .vis, .resp, .aln])

/-- Every command of output, the fabric, the ripple engine and alarms completes and leaves the queue, and every part of the block that is not listed
for the command, as it is: every register, table, counter and byte of that part; a register command is one whose access its master can make and ACC
permits. The parts: vis, act, com, dirty and locked are the registers as read, in force, committed, written since the last commit and locked;
cells, flash and poison the memories; resp and latch what a master was answered and latched; the others one block each. -/
def Obligations.FramesOfOutputAndFabric : Prop :=
  (∀ (t ring seq stream : Nat), Frame (.timedLaunch t ring seq stream) [.t7, .vis, .rep, .cells, .poison, .evr, .prt, .out]) ∧
  (∀ (t ring seq : Nat), Frame (.outBasinRelease t ring seq) [.t7, .aln, .out]) ∧
  (∀ (t m : Nat), FrameIf (.sessOpen t m) (fun s => s.blk.mayWrite m 5 0x78) [.t7, .vis, .resp, .rep, .poison, .evr, .que, .out]) ∧
  (∀ (t m : Nat), FrameIf (.sessClose t m) (fun s => s.blk.mayWrite m 5 0x78) [.t7, .vis, .resp, .rep, .evr, .prt, .out]) ∧
  (∀ (t m : Nat), FrameIf (.sessReset t m) (fun s => s.blk.mayWrite m 5 0x78) [.t7, .vis, .resp, .rep, .evr, .prt, .out]) ∧
  (∀ (t m : Nat), FrameIf (.sessSendAck t m) (fun s => s.blk.mayWrite m 5 0x78) [.t7, .vis, .resp, .rep, .evr, .prt, .out]) ∧
  (∀ (t m value : Nat), FrameIf (.sessAckWrite t m value) (fun s => s.blk.mayWrite m 5 0x68) [.t7, .vis, .resp, .rep, .evr, .prt, .out]) ∧
  (∀ (t m value : Nat), FrameIf (.sessRetx t m value) (fun s => s.blk.mayWrite m 5 0x6C) [.t7, .vis, .resp, .rep, .evr, .prt, .out]) ∧
  (∀ (t sess : Nat), Frame (.sessionSegmentSend t sess) [.t7, .vis, .rep, .evr, .prt, .out]) ∧
  (∀ (t sess : Nat), Frame (.sessStallReset t sess) [.t7, .vis, .resp, .rep, .poison, .evr, .que, .prt, .out]) ∧
  (∀ (t : Nat), Frame (.cmdDataOff t) [.t7, .vis, .que, .out]) ∧
  (∀ (t : Nat), Frame (.cmdDataOn t) [.t7, .vis, .que, .out]) ∧
  (∀ (t : Nat), Frame (.cmdSendHeader t) [.t7, .vis, .rep, .cells, .poison, .evr, .que, .prt, .out]) ∧
  (∀ (t : Nat), Frame (.cmdSendCfg1 t) [.t7, .vis, .rep, .cells, .poison, .evr, .que, .prt, .out]) ∧
  (∀ (t : Nat), Frame (.cmdSendCfg2 t) [.t7, .vis, .rep, .cells, .poison, .evr, .que, .prt, .out]) ∧
  (∀ (t : Nat), Frame (.cmdSendCfg3 t) [.t7, .vis, .rep, .cells, .poison, .evr, .que, .prt, .out]) ∧
  (∀ (t : Nat), Frame (.cmdExtendedFrame t) [.t7, .vis, .resp, .rep, .poison, .evr, .que]) ∧
  (∀ (t : Nat), Frame (.cmdUnknown t) [.t7, .vis, .rep, .evr, .que]) ∧
  (∀ (t ring seq stream part : Nat), Frame (.resendWindowExpiry t ring seq stream part) [.t7, .vis, .rep, .cells, .poison, .evr, .prt, .out]) ∧
  (∀ (t m : Nat), FrameIf (.outCommit t m) (fun s => s.blk.mayWrite m 5 0x408) [.t7, .vis, .act, .com, .dirty, .resp, .rep, .cells, .poison, .evr, .tim, .que, .sdm, .cap]) ∧
  (∀ (t : Nat), Frame (.firingDispatch t) [.t7, .vis, .dfe]) ∧
  (∀ (t core : Nat) (last : Bool), Frame (.firingComplete t core last) [.t7, .free, .vis, .act, .com, .dirty, .resp, .rep, .cells, .poison, .evr, .aln, .que, .dfe, .prt, .out, .cas, .rpl, .alm, .cap, .red]) ∧
  (∀ (t core : Nat), Frame (.sluiceRelease t core) [.t7, .free, .vis, .act, .com, .dirty, .resp, .rep, .cells, .poison, .evr, .aln, .que, .dfe, .prt, .out, .cas, .rpl, .alm, .cap, .red]) ∧
  (∀ (t m op port : Nat), FrameIf (.dfeInject t m op port) (fun s => s.blk.mayWrite m 9 0x42C) [.t7, .vis, .resp, .rep, .poison, .evr, .dfe]) ∧
  (∀ (t m : Nat), FrameIf (.coreReleaseCmd t m) (fun s => s.blk.mayWrite m 9 0x44) [.t7, .vis, .resp, .evr, .dfe]) ∧
  (∀ (t core : Nat), Frame (.coreMemFault t core) [.t7, .free, .vis, .resp, .rep, .cells, .poison, .evr, .aln, .que, .dfe, .prt, .out, .cas, .rpl, .alm, .cap]) ∧
  (∀ (t core : Nat), Frame (.coreHalt t core) [.t7, .dfe]) ∧
  (∀ (t core : Nat), Frame (.coreResume t core) [.t7, .dfe]) ∧
  (∀ (t m : Nat), FrameIf (.dfeCommit t m) (fun s => s.blk.mayWrite m 9 0x408) [.t7, .vis, .act, .com, .dirty, .resp, .rep, .cells, .poison, .evr, .tim, .que, .sdm, .cap]) ∧
  (∀ (t : Nat) (fault : Bool), Frame (.acceleratorSolveDone t fault) [.t7, .vis, .resp, .rep, .cells, .poison, .evr, .que, .dfe, .rpl]) ∧
  (∀ (t : Nat), Frame (.ringdownEnd t) [.t7, .vis, .evr, .rpl]) ∧
  (∀ (t : Nat), Frame (.rdSkipElapsed t) [.t7, .rpl]) ∧
  (∀ (t : Nat), Frame (.gatherComplete t) [.t7, .vis, .rep, .poison, .evr, .dfe, .rpl]) ∧
  (∀ (t m : Nat), FrameIf (.rplCommit t m) (fun s => s.blk.mayWrite m 6 0x408) [.t7, .vis, .act, .com, .dirty, .resp, .rep, .cells, .poison, .evr, .tim, .que, .sdm, .cap]) ∧
  (∀ (t : Nat), Frame (.islPublish t) [.t7, .free, .vis, .resp, .rep, .cells, .poison, .evr, .aln, .que, .dfe, .prt, .out, .cas, .isl, .alm, .cap]) ∧
  (∀ (t m : Nat), FrameIf (.defResetCmd t m) (fun s => s.blk.mayWrite m 8 0x5C) [.t7, .vis, .resp, .alm]) ∧
  (∀ (t pin : Nat), Frame (.aoPulseEnd t pin) [.t7, .alm]) ∧
  (∀ (t input : Nat) (level : Bool) (age : Nat), Frame (.diChange t input level age) [.t7, .vis, .evr, .cas, .alm, .cap]) ∧
  (∀ (t pub : Nat) (aborted : Bool), Frame (.gooseRepeat t pub aborted) [.t7, .free, .vis, .rep, .evr, .prt, .out, .alm]) ∧
  (∀ (t m : Nat), FrameIf (.islCommit t m) (fun s => s.blk.mayWrite m 7 0x408) [.t7, .vis, .act, .com, .dirty, .resp, .rep, .cells, .poison, .evr, .tim, .que, .sdm, .cap]) ∧
  (∀ (t m : Nat), FrameIf (.almCommit t m) (fun s => s.blk.mayWrite m 8 0x408) [.t7, .vis, .act, .com, .dirty, .resp, .rep, .cells, .poison, .evr, .tim, .que, .sdm, .cap])

/-- Every command of time and local measurement completes and leaves the queue, and every part of the block that is not listed for the command, as it
is: every register, table, counter and byte of that part; a register command is one whose access its master can make and ACC permits. The parts:
vis, act, com, dirty and locked are the registers as read, in force, committed, written since the last commit and locked; cells, flash and poison
the memories; resp and latch what a master was answered and latched; the others one block each. -/
def Obligations.FramesOfTimeAndMeasurement : Prop :=
  (∀ (t tb src : Nat) (x : Machine.Meas), Frame (.timeMeasurement t tb src x) [.t7, .free, .vis, .act, .com, .dirty, .resp, .rep, .cells, .poison, .evr, .sys, .tim, .aln, .que, .dfe, .prt, .out, .cas, .rpl, .isl, .alm, .cmp, .sdm, .nrg, .cap, .red]) ∧
  (∀ (t tb src : Nat), Frame (.sourceQualified t tb src) [.t7, .tim, .out]) ∧
  (∀ (t tb src : Nat), Frame (.sourceLost t tb src) [.t7, .free, .vis, .act, .com, .dirty, .resp, .rep, .cells, .poison, .evr, .sys, .tim, .aln, .que, .dfe, .prt, .out, .alm, .cmp, .cap, .red]) ∧
  (∀ (t port : Nat), Frame (.pdelayReqSend t port) [.t7, .vis, .rep, .evr, .tim, .prt]) ∧
  (∀ (t port : Nat), Frame (.pdelayRespTimeout t port) [.t7, .free, .vis, .act, .com, .dirty, .resp, .rep, .cells, .poison, .evr, .sys, .tim, .aln, .que, .dfe, .prt, .out, .alm, .cmp, .cap, .red]) ∧
  (∀ (t : Nat) (ok : Machine.IrigCode) (fmt tq : Nat) (leap61 leap59 : Bool), Frame (.irigFrame t ok fmt tq leap61 leap59) [.t7, .free, .vis, .act, .com, .dirty, .resp, .rep, .cells, .poison, .evr, .sys, .tim, .aln, .que, .dfe, .prt, .out, .alm, .cmp, .cap, .red]) ∧
  (∀ (t : Nat), Frame (.ppsEdge t) [.t7, .free, .vis, .act, .com, .dirty, .resp, .rep, .cells, .poison, .evr, .sys, .tim, .aln, .que, .dfe, .prt, .out, .alm, .cmp, .cap, .red]) ∧
  (∀ (t : Nat) (ok : Machine.TodHead) (utc : Nat), Frame (.todSentence t ok utc) [.t7, .free, .vis, .act, .com, .dirty, .resp, .rep, .cells, .poison, .evr, .sys, .tim, .aln, .que, .dfe, .prt, .out, .alm, .cmp, .cap, .red]) ∧
  (∀ (t : Nat) (ref10 : Machine.RefSight), Frame (.oscSwitch t ref10) [.t7, .vis, .evr, .tim, .out]) ∧
  (∀ (t tb : Nat), Frame (.lockHoldElapsed t tb) [.t7, .free, .vis, .act, .com, .dirty, .resp, .rep, .cells, .poison, .evr, .sys, .tim, .aln, .que, .dfe, .prt, .out, .alm, .cmp, .cap, .red]) ∧
  (∀ (t tb : Nat), Frame (.holdoverErrorLimit t tb) [.t7, .free, .vis, .act, .com, .dirty, .resp, .rep, .cells, .poison, .evr, .sys, .tim, .aln, .que, .dfe, .prt, .out, .alm, .cmp, .cap, .red]) ∧
  (∀ (t m value : Nat), FrameIf (.tbVrateWrite t m value) (fun s => s.blk.mayWrite m 1 0x6C) [.t7, .free, .vis, .act, .com, .dirty, .resp, .rep, .cells, .poison, .evr, .sys, .tim, .aln, .que, .dfe, .prt, .out, .alm, .cmp, .cap, .red]) ∧
  (∀ (t m value : Nat), FrameIf (.tbVstepWrite t m value) (fun s => s.blk.mayWrite m 1 0x68) [.t7, .free, .vis, .act, .com, .dirty, .resp, .rep, .cells, .poison, .evr, .sys, .tim, .aln, .que, .dfe, .prt, .out, .cas, .rpl, .isl, .alm, .cmp, .sdm, .nrg, .cap, .red]) ∧
  (∀ (t : Nat), Frame (.leapSecond t) [.t7, .vis, .rep, .evr, .tim]) ∧
  (∀ (t po : Nat), Frame (.pulseEdge t po) [.t7, .vis, .tim]) ∧
  (∀ (t po : Nat), Frame (.pulseEnd t po) [.t7, .vis, .act, .com, .dirty, .rep, .evr, .tim]) ∧
  (∀ (t m : Nat), FrameIf (.tbNowRead t m) (fun s => s.blk.mayRead m 1 0x58) [.t7, .vis, .latch, .pwr, .tim, .dfe, .nrg, .resp]) ∧
  (∀ (t m : Nat), FrameIf (.timCommit t m) (fun s => s.blk.mayWrite m 1 0x408) [.t7, .vis, .act, .com, .dirty, .resp, .rep, .cells, .poison, .evr, .tim, .que, .sdm, .cap]) ∧
  (∀ (t : Nat), Frame (.timShadowHandover t) [.t7, .free, .vis, .act, .com, .dirty, .resp, .rep, .cells, .poison, .evr, .sys, .tim, .aln, .que, .dfe, .prt, .out, .alm, .cmp, .cap, .red]) ∧
  (∀ (t ch : Nat) (coarse : Bool) (x : Machine.DecimIn), Frame (.decimatorOutput t ch coarse x) [.t7, .vis, .act, .com, .dirty, .resp, .rep, .cells, .poison, .evr, .que, .cas, .sdm, .nrg, .cap]) ∧
  (∀ (t m : Nat), FrameIf (.sdmSyncCmd t m) (fun s => s.blk.mayWrite m 10 0x414) [.t7, .vis, .resp, .sdm]) ∧
  (∀ (t : Nat), Frame (.syncReset t) [.t7, .free, .vis, .act, .com, .dirty, .resp, .rep, .cells, .poison, .evr, .que, .cas, .sdm, .nrg, .cap]) ∧
  (∀ (t ch : Nat), Frame (.chFault t ch) [.t7, .vis, .evr, .sdm]) ∧
  (∀ (t ch : Nat), Frame (.chRecover t ch) [.t7, .vis, .evr, .sdm]) ∧
  (∀ (t point slot : Nat), Frame (.localRecordHandover t point slot) [.t7, .vis, .resp, .rep, .cells, .poison, .evr, .aln, .que, .str, .sdm]) ∧
  (∀ (t point : Nat), Frame (.zeroCrossing t point) [.t7, .free, .vis, .act, .com, .dirty, .resp, .rep, .cells, .poison, .evr, .que, .cas, .nrg, .cap]) ∧
  (∀ (t point : Nat), Frame (.zcTimeout t point) [.t7, .free, .vis, .act, .com, .dirty, .resp, .rep, .cells, .poison, .evr, .que, .cas, .nrg, .cap]) ∧
  (∀ (t m : Nat), FrameIf (.nrgSnap t m) (fun s => s.blk.mayWrite m 11 0x410) [.t7, .vis, .resp, .nrg]) ∧
  (∀ (t m : Nat), FrameIf (.nrgClear t m) (fun s => s.blk.mayWrite m 11 0x80) [.t7, .vis, .resp, .nrg]) ∧
  (∀ (t m index : Nat), FrameIf (.nrgCounterRead t m index) (fun s => s.blk.mayRead m 11 (0x100 + 4 * index)) [.t7, .vis, .latch, .pwr, .tim, .dfe, .nrg, .resp]) ∧
  (∀ (t : Nat), Frame (.periodicSave t) [.t7, .cells, .poison, .nrg]) ∧
  (∀ (t : Nat) (good : Bool), Frame (.energySaveDone t good) [.t7, .vis, .cells, .poison, .evr, .nrg]) ∧
  (∀ (t m : Nat), FrameIf (.sdmCommit t m) (fun s => s.blk.mayWrite m 10 0x408) [.t7, .vis, .act, .com, .dirty, .resp, .rep, .cells, .poison, .evr, .tim, .que, .sdm, .cap]) ∧
  (∀ (t m : Nat), FrameIf (.nrgCommit t m) (fun s => s.blk.mayWrite m 11 0x408) [.t7, .vis, .act, .com, .dirty, .resp, .rep, .cells, .poison, .evr, .tim, .que, .sdm, .cap]) ∧
  (∀ (t m : Nat), FrameIf (.captureForce t m) (fun s => s.blk.mayWrite m 12 0xA4) [.t7, .vis, .resp, .evr, .cas, .cap]) ∧
  (∀ (t m : Nat), FrameIf (.captureRelease t m) (fun s => s.blk.mayWrite m 12 0xA4) [.t7, .vis, .resp, .cap]) ∧
  (∀ (t pin : Nat) (level : Bool), Frame (.trgInputEdge t pin level) [.t7, .vis, .evr, .cas, .cap]) ∧
  (∀ (t unit : Nat), Frame (.captureSeal t unit) [.t7, .vis, .act, .com, .dirty, .resp, .rep, .cells, .poison, .evr, .que, .cap]) ∧
  (∀ (t unit : Nat), Frame (.holdoffEnd t unit) [.t7, .vis, .act, .com, .dirty, .resp, .rep, .cells, .poison, .evr, .que, .cap]) ∧
  (∀ (t : Nat), Frame (.busAct t) [.t7, .vis, .evr, .cas, .cap]) ∧
  (∀ (t m : Nat), FrameIf (.capCommit t m) (fun s => s.blk.mayWrite m 12 0x408) [.t7, .vis, .act, .com, .dirty, .resp, .rep, .cells, .poison, .evr, .tim, .que, .sdm, .cap]) ∧
  (∀ (t : Nat), Frame (.leapTableExpiry t) [.t7, .tim]) ∧
  (∀ (t : Nat), Frame (.sdmShadowHandover t) [.t7, .free, .vis, .act, .com, .dirty, .resp, .rep, .cells, .poison, .evr, .que, .cas, .sdm, .nrg, .cap])

/-- Every command of memory, movers, queues, radio and the archive completes and leaves the queue, and every part of the block that is not listed for
the command, as it is: every register, table, counter and byte of that part; a register command is one whose access its master can make and ACC
permits. The parts: vis, act, com, dirty and locked are the registers as read, in force, committed, written since the last commit and locked;
cells, flash and poison the memories; resp and latch what a master was answered and latched; the others one block each. -/
def Obligations.FramesOfMemoryRadioAndArchive : Prop :=
  (∀ (t : Nat), Frame (.radioSlot t) [.t7, .vis, .act, .com, .dirty, .rep, .evr, .rad]) ∧
  (∀ (t unit : Nat) (f : Machine.RadFrame) (aborted : Bool), Frame (.uplinkFrame t unit f aborted) [.t7, .vis, .resp, .rep, .cells, .poison, .evr, .aln, .que, .str, .rad]) ∧
  (∀ (t unit : Nat), Frame (.uplinkMissed t unit) [.t7, .vis, .resp, .rep, .poison, .evr, .que, .rad]) ∧
  (∀ (t unit : Nat) (corr : Machine.RadFrame), Frame (.downlinkAcked t unit corr) [.t7, .vis, .resp, .rep, .poison, .evr, .que, .rad]) ∧
  (∀ (t unit : Nat), Frame (.downlinkUnacked t unit) [.t7, .vis, .resp, .rep, .poison, .evr, .que, .rad]) ∧
  (∀ (t m : Nat), FrameIf (.dlPost t m) (fun s => s.blk.mayWrite m 13 0x60) [.t7, .vis, .resp, .rad]) ∧
  (∀ (t m value : Nat), FrameIf (.pendSet t m value) (fun s => s.blk.mayWrite m 13 0x438) [.t7, .vis, .resp, .rad]) ∧
  (∀ (t m value : Nat), FrameIf (.pendClr t m value) (fun s => s.blk.mayWrite m 13 0x43C) [.t7, .vis, .resp, .rad]) ∧
  (∀ (t : Nat) (eb : Bool) (x : Int) (metric : Machine.RadFrame), Frame (.parentFrame t eb x metric) [.t7, .vis, .rep, .evr, .tim, .rad]) ∧
  (∀ (t : Nat), Frame (.parentGuardWiden t) [.t7, .vis, .evr, .rad]) ∧
  (∀ (t : Nat), Frame (.parentScan t) [.t7, .vis, .evr, .rad]) ∧
  (∀ (t m : Nat), FrameIf (.radCommit t m) (fun s => s.blk.mayWrite m 13 0x408) [.t7, .vis, .act, .com, .dirty, .resp, .rep, .cells, .poison, .evr, .tim, .que, .sdm, .cap]) ∧
  (∀ (t mem unit : Nat), Frame (.correctedError t mem unit) [.t7, .free, .vis, .rep, .cells, .poison, .evr, .mm]) ∧
  (∀ (t mem : Nat) (unit : Machine.ErrPlace), Frame (.uncorrectableError t mem unit) [.t7, .free, .vis, .resp, .rep, .cells, .poison, .evr, .aln, .mm, .que, .dfe, .rpl]) ∧
  (∀ (t mem : Nat), Frame (.ceWriteback t mem) [.t7, .cells, .poison, .aln, .mm, .que, .dfe]) ∧
  (∀ (t mem : Nat), Frame (.scrubStep t mem) [.t7, .free, .vis, .act, .com, .dirty, .resp, .rep, .cells, .poison, .evr, .aln, .mm, .que, .dfe, .rpl]) ∧
  (∀ (t mem : Nat), Frame (.scrubStarved t mem) [.t7, .vis, .evr, .mm]) ∧
  (∀ (t m : Nat), FrameIf (.remapCmd t m) (fun s => s.blk.mayWrite m 14 0x418) [.t7, .free, .vis, .resp, .rep, .cells, .poison, .evr, .mm]) ∧
  (∀ (t m : Nat), FrameIf (.remapErase t m) (fun s => s.blk.mayWrite m 14 0x418) [.t7, .vis, .resp, .cells, .poison, .mm]) ∧
  (∀ (t m : Nat), FrameIf (.diagRawRead t m) (fun s => s.blk.mayWrite m 14 0x104) [.t7, .free, .vis, .resp, .poison]) ∧
  (∀ (t m : Nat), FrameIf (.diagRawWrite t m) (fun s => s.blk.mayWrite m 14 0x104) [.t7, .free, .vis, .resp, .cells, .poison, .evr, .aln, .que, .dfe]) ∧
  (∀ (t m : Nat), FrameIf (.diagDataWrite t m) (fun s => s.blk.mayWrite m 14 0x104) [.t7, .free, .vis, .resp, .cells, .poison, .evr, .aln, .que, .dfe]) ∧
  (∀ (t m : Nat), FrameIf (.diagCheckWrite t m) (fun s => s.blk.mayWrite m 14 0x104) [.t7, .free, .vis, .resp, .cells, .poison, .evr, .aln, .que, .dfe]) ∧
  (∀ (t m : Nat), FrameIf (.memCommit t m) (fun s => s.blk.mayWrite m 14 0x408) [.t7, .vis, .act, .com, .dirty, .resp, .rep, .cells, .poison, .evr, .tim, .que, .sdm, .cap]) ∧
  (∀ (t m : Nat), FrameIf (.dmaStart t m) (fun s => s.blk.mayWrite m 15 0x6C) [.t7, .vis, .resp, .dma]) ∧
  (∀ (t m : Nat), FrameIf (.dmaCommit t m) (fun s => s.blk.mayWrite m 15 0x6C) [.t7, .vis, .com, .dirty, .resp]) ∧
  (∀ (t m : Nat), FrameIf (.dmaClearHalt t m) (fun s => s.blk.mayWrite m 15 0x6C) [.t7, .vis, .resp, .dma]) ∧
  (∀ (t engine : Nat), Frame (.dmaChannelRun t engine) [.t7, .free, .vis, .act, .com, .dirty, .locked, .resp, .latch, .rep, .cells, .flash, .poison, .evr, .sys, .pwr, .key, .tam, .acc, .tim, .aln, .mm, .dma, .que, .dfe, .prt, .str, .out, .cas, .rpl, .isl, .alm, .cmp, .sdm, .nrg, .cap, .rad, .red]) ∧
  (∀ (t engine : Nat), Frame (.dmaChannelComplete t engine) [.t7, .free, .vis, .act, .com, .dirty, .locked, .resp, .latch, .rep, .cells, .flash, .poison, .evr, .sys, .pwr, .key, .tam, .acc, .tim, .aln, .mm, .dma, .que, .dfe, .prt, .str, .out, .cas, .rpl, .isl, .alm, .cmp, .sdm, .nrg, .cap, .rad, .red]) ∧
  (∀ (t m q value : Nat), FrameIf (.queuePush t m q value) (fun s => s.blk.mayUse m q 0x48 true) [.t7, .vis, .resp, .rep, .poison, .evr, .que]) ∧
  (∀ (t m q value : Nat), FrameIf (.queuePushEop t m q value) (fun s => s.blk.mayUse m q 0x50 true) [.t7, .vis, .resp, .rep, .poison, .evr, .que]) ∧
  (∀ (t m q : Nat), FrameIf (.queuePop t m q) (fun s => s.blk.mayUse m q 0x58 false) [.t7, .free, .vis, .resp, .rep, .cells, .poison, .evr, .aln, .mm, .que, .dfe, .rpl]) ∧
  (∀ (t m q : Nat), FrameIf (.queueTrypop t m q) (fun s => s.blk.mayUse m q 0x60 false) [.t7, .free, .vis, .resp, .rep, .cells, .poison, .evr, .aln, .mm, .que, .dfe, .rpl]) ∧
  (∀ (t m : Nat), FrameIf (.queueFlush t m) (fun s => s.blk.mayWrite m 16 0x6C) [.t7, .vis, .resp, .poison, .evr, .que]) ∧
  (∀ (t m base depth : Nat), FrameIf (.queueEnable t m base depth) (fun s => s.blk.mayWrite m 16 0x40) [.t7, .vis, .resp, .evr, .que]) ∧
  (∀ (t m : Nat), FrameIf (.queueDisable t m) (fun s => s.blk.mayWrite m 16 0x40) [.t7, .vis, .resp, .evr, .que]) ∧
  (∀ (t group : Nat), Frame (.archiveFrameStart t group) [.t7, .free, .vis, .act, .com, .dirty, .resp, .rep, .cells, .poison, .evr, .aln, .que, .out, .cmp]) ∧
  (∀ (t group : Nat), Frame (.archiveSegmentWrite t group) [.t7, .free, .vis, .resp, .rep, .cells, .poison, .evr, .aln, .que, .out, .cmp]) ∧
  (∀ (t m value : Nat), FrameIf (.cmpResume t m value) (fun s => s.blk.mayWrite m 17 0x434) [.t7, .vis, .resp, .evr, .cmp]) ∧
  (∀ (t m : Nat), FrameIf (.cmpJobGo t m) (fun s => s.blk.mayWrite m 17 0x448) [.t7, .vis, .resp, .cmp]) ∧
  (∀ (t : Nat), Frame (.cmpJobStart t) [.t7, .cmp]) ∧
  (∀ (t : Nat), Frame (.cmpJobDone t) [.t7, .free, .vis, .resp, .rep, .cells, .poison, .evr, .que, .cmp]) ∧
  (∀ (t m : Nat), FrameIf (.cmpCtxReset t m) (fun s => s.blk.mayWrite m 17 0x4C) [.t7, .vis, .resp, .cmp]) ∧
  (∀ (t m : Nat), FrameIf (.cmpCommit t m) (fun s => s.blk.mayWrite m 17 0x408) [.t7, .vis, .act, .com, .dirty, .resp, .rep, .cells, .poison, .evr, .tim, .que, .sdm, .cap])

/-- Every command of cascades, pairs, keys, access control and the recorder completes and leaves the queue, and every part of the block that is not
listed for the command, as it is: every register, table, counter and byte of that part; a register command is one whose access its master can make
and ACC permits. The parts: vis, act, com, dirty and locked are the registers as read, in force, committed, written since the last commit and
locked; cells, flash and poison the memories; resp and latch what a master was answered and latched; the others one block each. -/
def Obligations.FramesOfPairsAndGuards : Prop :=
  (∀ (t link : Nat) (frame : List Byte), Frame (.tabuskFrameRx t link frame) [.t7, .free, .vis, .act, .com, .dirty, .resp, .rep, .cells, .poison, .evr, .sys, .tim, .aln, .que, .dfe, .prt, .str, .out, .cas, .alm, .cmp, .cap, .red]) ∧
  (∀ (t link : Nat), Frame (.tabuskLinkDown t link) [.t7, .free, .vis, .act, .com, .dirty, .resp, .rep, .cells, .poison, .evr, .sys, .tim, .aln, .que, .dfe, .prt, .out, .cas, .alm, .cmp, .cap, .red]) ∧
  (∀ (t link member count rate : Nat), Frame (.tabuskLinkUp t link member count rate) [.t7, .vis, .evr, .cas]) ∧
  (∀ (t : Nat), Frame (.timeFrameSend t) [.t7, .cas]) ∧
  (∀ (t link delay : Nat), Frame (.delayExchange t link delay) [.t7, .cas]) ∧
  (∀ (t member : Nat), Frame (.memberLost t member) [.t7, .vis, .rep, .evr, .aln, .cas]) ∧
  (∀ (t : Nat), Frame (.timeFault t) [.t7, .vis, .evr, .cas]) ∧
  (∀ (t : Nat), Frame (.renewSend t) [.t7, .vis, .prt, .red]) ∧
  (∀ (t path : Nat) (x : Machine.RedMsg) (good : Bool), Frame (.heartbeatRenewRx t path x good) [.t7, .free, .vis, .act, .com, .dirty, .resp, .rep, .cells, .poison, .evr, .sys, .tim, .aln, .que, .dfe, .prt, .out, .alm, .cmp, .cap, .red]) ∧
  (∀ (t path : Nat) (x : Machine.RedMsg) (good : Bool), Frame (.heartbeatAckRx t path x good) [.t7, .free, .vis, .act, .com, .dirty, .resp, .rep, .cells, .poison, .evr, .sys, .tim, .aln, .que, .dfe, .prt, .out, .alm, .cmp, .cap, .red]) ∧
  (∀ (t path : Nat) (x : Machine.RedMsg) (good : Bool), Frame (.heartbeatFailRx t path x good) [.t7, .free, .vis, .act, .com, .dirty, .resp, .rep, .cells, .poison, .evr, .sys, .tim, .que, .prt, .out, .alm, .cap, .red]) ∧
  (∀ (t path : Nat) (x : Machine.RedMsg) (good : Bool) (stNums : List (Nat × Nat)), Frame (.heartbeatReleaseRx t path x good stNums) [.t7, .free, .vis, .act, .com, .dirty, .resp, .rep, .cells, .poison, .evr, .sys, .tim, .que, .prt, .out, .alm, .cap, .red]) ∧
  (∀ (t path : Nat) (x : Machine.RedMsg) (good : Bool), Frame (.heartbeatHelloRx t path x good) [.t7, .free, .vis, .act, .com, .dirty, .resp, .rep, .cells, .poison, .evr, .sys, .tim, .aln, .que, .dfe, .prt, .out, .cas, .rpl, .isl, .alm, .cmp, .sdm, .nrg, .cap, .red]) ∧
  (∀ (t path : Nat) (x : Machine.RedMsg) (good : Bool), Frame (.heartbeatNakRx t path x good) [.t7, .free, .vis, .act, .com, .dirty, .resp, .rep, .cells, .poison, .evr, .sys, .tim, .aln, .que, .dfe, .prt, .out, .alm, .cmp, .cap, .red]) ∧
  (∀ (t path : Nat), Frame (.pathDown t path) [.t7, .vis, .evr, .red]) ∧
  (∀ (t : Nat), Frame (.leaseExpiry t) [.t7, .free, .vis, .act, .com, .dirty, .resp, .rep, .cells, .poison, .evr, .sys, .tim, .aln, .que, .dfe, .prt, .out, .alm, .cmp, .cap, .red]) ∧
  (∀ (t : Nat), Frame (.takeoverTimeout t) [.t7, .free, .vis, .act, .com, .dirty, .resp, .rep, .cells, .poison, .evr, .sys, .tim, .que, .prt, .out, .alm, .cap, .red]) ∧
  (∀ (t : Nat) (f : Machine.CkptFrame), Frame (.checkpointRx t f) [.t7, .vis, .com, .rep, .cells, .poison, .evr, .sys, .aln, .dfe, .prt, .str, .out, .rpl, .isl, .alm, .rad, .red]) ∧
  (∀ (t : Nat), Frame (.restoreDone t) [.t7, .free, .vis, .act, .com, .dirty, .resp, .rep, .cells, .poison, .evr, .sys, .tim, .aln, .que, .dfe, .prt, .str, .out, .cas, .rpl, .isl, .alm, .cmp, .sdm, .nrg, .cap, .rad, .red]) ∧
  (∀ (t : Nat), Frame (.roleListenEnd t) [.t7, .free, .vis, .act, .com, .dirty, .resp, .rep, .cells, .poison, .evr, .sys, .tim, .aln, .que, .dfe, .prt, .out, .cas, .rpl, .isl, .alm, .cmp, .sdm, .nrg, .cap, .red]) ∧
  (∀ (t m : Nat), FrameIf (.redHandoverCmd t m) (fun s => s.blk.mayWrite m 19 0x41C) [.t7, .vis, .resp, .prt, .red]) ∧
  (∀ (t : Nat), Frame (.failbackHolddownEnd t) [.t7, .vis, .prt, .red]) ∧
  (∀ (t epoch slot seq : Nat) (good : Bool), Frame (.handoverControlRx t epoch slot seq good) [.t7, .vis, .rep, .cells, .poison, .evr, .prt, .red]) ∧
  (∀ (t : Nat), Frame (.handoverOutputStop t) [.t7, .free, .vis, .act, .com, .dirty, .resp, .rep, .cells, .poison, .evr, .sys, .tim, .aln, .que, .dfe, .prt, .out, .alm, .cmp, .cap, .red]) ∧
  (∀ (t m : Nat), FrameIf (.loadSecret t m) (fun s => s.blk.mayWrite m 20 0x428) [.t7, .free, .vis, .resp, .rep, .cells, .poison, .evr, .sys, .key, .aln, .que, .prt, .out, .cas, .cmp, .rad]) ∧
  (∀ (t m : Nat), FrameIf (.eraseSecret t m) (fun s => s.blk.mayWrite m 20 0x428) [.t7, .free, .vis, .resp, .rep, .cells, .poison, .evr, .sys, .key, .aln, .que, .prt, .out, .cas, .cmp, .rad]) ∧
  (∀ (t m : Nat), FrameIf (.setEpoch t m) (fun s => s.blk.mayWrite m 20 0x428) [.t7, .free, .vis, .resp, .rep, .cells, .poison, .evr, .sys, .key, .aln, .que, .prt, .out, .cas, .cmp, .rad]) ∧
  (∀ (t m : Nat), FrameIf (.setOwner t m) (fun s => s.blk.mayWrite m 20 0x428) [.t7, .free, .vis, .resp, .rep, .cells, .poison, .evr, .sys, .key, .aln, .que, .prt, .out, .cas, .cmp, .rad]) ∧
  (∀ (t m : Nat), FrameIf (.debugAuth t m) (fun s => s.blk.mayWrite m 20 0x428) [.t7, .free, .vis, .resp, .rep, .cells, .poison, .evr, .sys, .key, .aln, .que, .prt, .out, .cas, .cmp, .rad]) ∧
  (∀ (t : Nat), Frame (.keyInstall t) [.t7, .vis, .evr, .sys, .key, .cas]) ∧
  (∀ (t : Nat) (now : Machine.TamSight) (elapsed : Option Nat), Frame (.tamperEvent t now elapsed) [.t7, .free, .vis, .act, .com, .dirty, .resp, .rep, .cells, .poison, .evr, .sys, .pwr, .key, .tam, .tim, .aln, .que, .prt, .out, .cas, .alm, .cmp, .nrg, .cap, .rad, .red]) ∧
  (∀ (t m addr size : Nat) (write : Bool), Frame (.accViolation t m addr size write) [.t7, .free, .vis, .act, .com, .dirty, .resp, .rep, .cells, .poison, .evr, .sys, .acc, .tim, .aln, .dma, .que, .dfe, .prt, .out, .cas, .rpl, .alm, .cmp, .cap, .red]) ∧
  (∀ (t m : Nat), FrameIf (.accRelease t m) (fun s => s.blk.mayWrite m 24 0x48) [.t7, .free, .vis, .act, .com, .dirty, .resp, .rep, .cells, .poison, .evr, .sys, .acc, .tim, .dma, .que, .prt, .out, .alm, .cap, .red]) ∧
  (∀ (t : Nat), Frame (.eventEntryWrite t) [.t7, .vis, .cells, .poison, .evr, .nrg]) ∧
  (∀ (t m : Nat), FrameIf (.evrFreeze t m) (fun s => s.blk.mayWrite m 22 0x410) [.t7, .vis, .resp, .evr]) ∧
  (∀ (t m : Nat), FrameIf (.evrThaw t m) (fun s => s.blk.mayWrite m 22 0x410) [.t7, .vis, .resp, .evr]) ∧
  (∀ (t : Nat), Frame (.freezeTimeout t) [.t7, .vis, .evr]) ∧
  (∀ (t m : Nat) (clrLast : Bool), FrameIf (.evrClear t m clrLast) (fun s => s.blk.mayWrite m 22 0x410) [.t7, .vis, .resp, .evr]) ∧
  (∀ (t m value : Nat), FrameIf (.clrUnlock t m value) (fun s => s.blk.mayWrite m 22 0x414) [.t7, .vis, .resp, .evr]) ∧
  (∀ (t m : Nat), FrameIf (.evrCommit t m) (fun s => s.blk.mayWrite m 22 0x408) [.t7, .vis, .act, .com, .dirty, .resp, .rep, .cells, .poison, .evr, .tim, .que, .sdm, .cap])

/-- Every command of modes, LOAD, power and the system bus completes and leaves the queue, and every part of the block that is not listed for the
command, as it is: every register, table, counter and byte of that part; a register command is one whose access its master can make and ACC
permits. The parts: vis, act, com, dirty and locked are the registers as read, in force, committed, written since the last commit and locked;
cells, flash and poison the memories; resp and latch what a master was answered and latched; the others one block each. -/
def Obligations.FramesOfModesAndTheBus : Prop :=
  (∀ (t m : Nat) (force : Bool), FrameIf (.modeReqMaintenance t m force) (fun s => s.blk.mayWrite m 0 0x414) [.t7, .free, .vis, .act, .com, .dirty, .resp, .rep, .cells, .poison, .evr, .sys, .pwr, .tim, .aln, .que, .dfe, .prt, .out, .alm, .cmp, .cap, .red]) ∧
  (∀ (t m : Nat), FrameIf (.modeReqActive t m) (fun s => s.blk.mayWrite m 0 0x414) [.t7, .free, .vis, .act, .com, .dirty, .resp, .rep, .cells, .poison, .evr, .sys, .pwr, .tim, .aln, .que, .dfe, .prt, .out, .alm, .cmp, .cap, .red]) ∧
  (∀ (t m : Nat), FrameIf (.modeReqDebug t m) (fun s => s.blk.mayWrite m 0 0x414) [.t7, .free, .vis, .act, .com, .dirty, .resp, .rep, .cells, .poison, .evr, .sys, .pwr, .tim, .aln, .que, .dfe, .prt, .out, .alm, .cmp, .cap, .red]) ∧
  (∀ (t m : Nat), FrameIf (.modeReqHalt t m) (fun s => s.blk.mayWrite m 0 0x414) [.t7, .free, .vis, .act, .com, .dirty, .resp, .rep, .cells, .poison, .evr, .sys, .pwr, .tim, .aln, .que, .dfe, .prt, .out, .alm, .cmp, .cap, .red]) ∧
  (∀ (t m code : Nat), FrameIf (.modeReqInvalid t m code) (fun s => s.blk.mayWrite m 0 0x414) [.t7, .free, .vis, .act, .com, .dirty, .resp, .rep, .cells, .poison, .evr, .sys, .pwr, .tim, .aln, .que, .dfe, .prt, .out, .alm, .cmp, .cap, .red]) ∧
  (∀ (t : Nat) (mains : Bool) (straps : Nat), Frame (.powerOn t mains straps) [.t7, .free, .vis, .act, .com, .dirty, .locked, .resp, .latch, .rep, .cells, .flash, .poison, .evr, .sys, .pwr, .key, .tam, .acc, .tim, .aln, .mm, .dma, .que, .dfe, .prt, .str, .out, .cas, .rpl, .isl, .alm, .cmp, .sdm, .nrg, .cap, .rad, .red]) ∧
  (∀ (t : Nat), Frame (.loadComplete t) [.t7, .free, .vis, .act, .com, .dirty, .resp, .rep, .cells, .poison, .evr, .sys, .tim, .que, .prt, .out, .alm, .cap, .red]) ∧
  (∀ (t : Nat) (r : Machine.SelftestResult), Frame (.selftestDone t r) [.t7, .free, .vis, .act, .com, .dirty, .resp, .rep, .cells, .poison, .evr, .sys, .pwr, .tim, .aln, .mm, .dma, .que, .dfe, .prt, .out, .cas, .rpl, .isl, .alm, .cmp, .sdm, .nrg, .cap, .red]) ∧
  (∀ (t : Nat), Frame (.haltRestart t) [.t7, .free, .vis, .act, .com, .dirty, .locked, .resp, .latch, .rep, .cells, .flash, .poison, .evr, .sys, .pwr, .key, .tam, .acc, .tim, .aln, .mm, .dma, .que, .dfe, .prt, .str, .out, .cas, .rpl, .isl, .alm, .cmp, .sdm, .nrg, .cap, .rad, .red]) ∧
  (∀ (t : Nat), Frame (.imageConfirm t) [.t7, .vis, .cells, .poison, .evr, .sys]) ∧
  (∀ (t m : Nat), FrameIf (.tuningSet t m) (fun s => s.blk.mayWrite m 0 0x430) [.t7, .vis, .act, .com, .dirty, .resp, .rep, .cells, .poison, .evr, .sys, .tim, .que, .sdm, .cap]) ∧
  (∀ (t m : Nat), FrameIf (.imageVerify t m) (fun s => s.blk.mayWrite m 0 0x448) [.t7, .vis, .resp, .sys]) ∧
  (∀ (t m : Nat), FrameIf (.imageSwitch t m) (fun s => s.blk.mayWrite m 0 0x448) [.t7, .free, .vis, .act, .com, .dirty, .locked, .resp, .latch, .rep, .cells, .flash, .poison, .evr, .sys, .pwr, .key, .tam, .acc, .tim, .aln, .mm, .dma, .que, .dfe, .prt, .str, .out, .cas, .rpl, .isl, .alm, .cmp, .sdm, .nrg, .cap, .rad, .red]) ∧
  (∀ (t m : Nat), FrameIf (.dieResetReq t m) (fun s => s.blk.mayWrite m 0 0x458) [.t7, .free, .vis, .act, .com, .dirty, .locked, .resp, .latch, .rep, .cells, .flash, .poison, .evr, .sys, .pwr, .key, .tam, .acc, .tim, .aln, .mm, .dma, .que, .dfe, .prt, .str, .out, .cas, .rpl, .isl, .alm, .cmp, .sdm, .nrg, .cap, .rad, .red]) ∧
  (∀ (t m : Nat), FrameIf (.hostResetReq t m) (fun s => s.blk.mayWrite m 0 0x458) [.t7, .vis, .resp, .evr, .sys, .acc, .que, .prt, .red]) ∧
  (∀ (t : Nat), Frame (.powerFailWarning t) [.t7, .free, .vis, .act, .com, .dirty, .resp, .rep, .cells, .poison, .evr, .sys, .pwr, .tim, .que, .prt, .out, .cas, .alm, .nrg, .cap, .red]) ∧
  (∀ (t : Nat), Frame (.saveComplete t) [.t7, .free, .vis, .act, .com, .dirty, .resp, .rep, .cells, .poison, .evr, .sys, .pwr, .tim, .aln, .que, .prt, .out, .alm, .nrg, .cap, .red]) ∧
  (∀ (t : Nat) (temp : Int), Frame (.tempSample t temp) [.t7, .free, .vis, .act, .com, .dirty, .resp, .rep, .cells, .poison, .evr, .sys, .pwr, .tim, .que, .prt, .out, .cas, .alm, .nrg, .cap, .red]) ∧
  (∀ (t : Nat), Frame (.holdupTest t) [.t7, .vis, .pwr]) ∧
  (∀ (t p v0 v1 : Nat), Frame (.holdupTestDone t p v0 v1) [.t7, .free, .vis, .act, .com, .dirty, .resp, .rep, .cells, .poison, .evr, .sys, .pwr, .tim, .aln, .que, .dfe, .prt, .out, .alm, .cmp, .cap, .red]) ∧
  (∀ (t : Nat) (good : Bool), Frame (.supplyGoodChange t good) [.t7, .pwr]) ∧
  (∀ (t m addr : Nat), Frame (.busTimeout t m addr) [.t7, .free, .vis, .act, .com, .dirty, .locked, .resp, .latch, .rep, .cells, .flash, .poison, .evr, .sys, .pwr, .key, .tam, .acc, .tim, .aln, .mm, .dma, .que, .dfe, .prt, .str, .out, .cas, .rpl, .isl, .alm, .cmp, .sdm, .nrg, .cap, .rad, .red]) ∧
  (∀ (t h : Nat), FrameIf (.plicClaim t h) (fun s => s.blk.masterReady h = true ∧ s.blk.accOk h (0x0C200004 + 0x1000 * h) 4 false = true) [.t7, .sys, .resp]) ∧
  (∀ (t h src : Nat), FrameIf (.plicComplete t h src) (fun s => s.blk.masterReady h = true ∧ s.blk.accOk h (0x0C200004 + 0x1000 * h) 4 true = true) [.t7, .sys, .resp]) ∧
  (∀ (t m : Nat), FrameIf (.qspiErase t m) (fun s => s.blk.mayWrite m 0 0x49C) [.t7, .vis, .resp, .sys]) ∧
  (∀ (t m : Nat), FrameIf (.qspiProgram t m) (fun s => s.blk.mayWrite m 0 0x49C) [.t7, .vis, .resp, .sys]) ∧
  (∀ (t : Nat), Frame (.qspiDone t) [.t7, .vis, .flash, .evr, .sys]) ∧
  (∀ (t m value : Nat), FrameIf (.wdogKick t m value) (fun s => s.blk.mayWrite m 0 0x454) [.t7, .vis, .resp, .sys]) ∧
  (∀ (t : Nat), Frame (.hostWatchdogExpiry t) [.t7, .vis, .resp, .evr, .sys, .acc, .que, .prt, .red]) ∧
  (∀ (t h : Nat), Frame (.machineTimerInterrupt t h) [.t7, .sys])

/-! ### Access control and keys -/

/-- An access that the region table, or for Q0 to Q7 the privileged-queue right, does not permit has no effect but the violation: whatever the
command, the master is frozen and answered, and its command's own effect does not happen (R412, R415). A command of a master that is frozen, or
that waits for another access, changes nothing but the time. -/
def Obligations.BlockedAccessesDoNothingElse : Prop :=
  (∀ (c : Instr) (a : BusUse) (s : State), c.busUse = some a → c.wf = true → s.blk.masterReady a.m = true → a.permitted s.blk = false →
    Completes c s (fun b => b = (s.at a.t).violate a.m a.addr a.size a.write)) ∧
  (∀ (c : Instr) (a : BusUse) (s : State), c.busUse = some a → c.wf = true → s.blk.masterReady a.m = false →
    Completes c s (fun b => b = s.at a.t))

/-- ACC.MST_CFG[PRIVQ] of a master permits its pushes and pops on Q0 to Q7, where the region table permits the access; without it each of them is a
violation, whatever way the access is made (R414). -/
def Obligations.PrivilegedQueuesNeedTheirRight : Prop :=
  (∀ (t m q value : Nat) (s : State), m < 55 → q < 8 → s.blk.masterReady m = true → s.blk.permits m (queueAddr 0x48) 8 true = true →
    Completes (.queuePush t m q value) s (fun b => b = if bit (s.blk.vis Reg.ACC_MST_CFG m).toNat 0 = true then ((s.at t).push q (value % 2 ^ 64) false).answer m .written else (s.at t).violate m (queueAddr 0x48) 8 true)) ∧
  (∀ (t m q value : Nat) (s : State), m < 55 → q < 8 → s.blk.masterReady m = true → s.blk.permits m (queueAddr 0x50) 8 true = true →
    Completes (.queuePushEop t m q value) s (fun b => b = if bit (s.blk.vis Reg.ACC_MST_CFG m).toNat 0 = true then ((s.at t).push q (value % 2 ^ 64) true).answer m .written else (s.at t).violate m (queueAddr 0x50) 8 true)) ∧
  (∀ (t m q : Nat) (s : State), m < 55 → q < 8 → s.blk.masterReady m = true → s.blk.permits m (queueAddr 0x58) 8 false = true →
    Completes (.queuePop t m q) s (fun b => b = if bit (s.blk.vis Reg.ACC_MST_CFG m).toNat 0 = true then (s.at t).pop q m else (s.at t).violate m (queueAddr 0x58) 8 false)) ∧
  (∀ (t m q : Nat) (s : State), m < 55 → q < 8 → s.blk.masterReady m = true → s.blk.permits m (queueAddr 0x60) 8 false = true →
    Completes (.queueTrypop t m q) s (fun b => b = if bit (s.blk.vis Reg.ACC_MST_CFG m).toNat 0 = true then (s.at t).trypop q m else (s.at t).violate m (queueAddr 0x60) 8 false)) ∧
  (∀ (t m reg value : Nat) (s : State), m < 55 → s.blk.masterReady m = true → s.blk.queSel m < 8 → bit (s.blk.vis Reg.ACC_MST_CFG m).toNat 0 = false →
    (reg = 0x48 ∨ reg = 0x50 → Completes (.registerWrite t m (queueAddr reg) 8 value) s (fun b => b = (s.at t).violate m (queueAddr reg) 8 true)) ∧
    (reg = 0x58 ∨ reg = 0x60 → Completes (.rcRead t m (queueAddr reg) 8) s (fun b => b = (s.at t).violate m (queueAddr reg) 8 false)))

/-- No command but key updates and their installation, tamper events, resets, LOAD and the bus accesses that reach the same registers changes a
secret slot, the epoch secret, a public key, the message counter or TEST_ROOT (R399 to R411). -/
def Obligations.SecretsChangeOnlyByTheirCommands : Prop :=
  ∀ (c : Instr) (s u : State), c.mayTouchKeys = false → exec c s = .next u → u.blk.key = s.blk.key

/-- TEST_ROOT stays set through every command that does not reset the die; the die reset clears it, and where it was set, zeroises: the root is the
OTP root again, ZEROISED is set, every slot and the epoch secret are empty; and while ZEROISED is set no message loads or erases a slot (R411,
Table 16.4). -/
def Obligations.TestRootEndsWithAZeroisation : Prop :=
  (∀ (c : Instr) (s u : State), c.mayResetDie = false → exec c s = .next u → s.blk.key.testRoot = true → u.blk.key.testRoot = true) ∧
  (∀ b : Block, b.dieReset.key.testRoot = false ∧ b.dieReset.root = Config.otpRoot ∧
    (b.key.testRoot = true → b.dieReset.sys.zeroised = true ∧ b.dieReset.key.epoch = none ∧ ∀ i, i < 64 → (b.dieReset.slot i).valid = false)) ∧
  (∀ (b : Block) (x : KeyMsg), b.sys.zeroised = true → x.op = 1 ∨ x.op = 2 → b.keyCheck x ≠ 0)
end

