-- ==== Sys2Proof/Laws/Tbl.lean ====
section
/-! SUPPORT. The tables by instance and the register file: a read after a write of the same and of another place. -/

namespace Sys2Proof.Machine

section tbl
variable {α : Type} (l : Tbl α) (k j : Nat) (v d : α)

theorem Tbl.get_ins_same : Tbl.get (Tbl.ins l k v) k d = v := by
  induction l with
  | nil => simp [Tbl.ins, Tbl.get]
  | cons e r ih =>
    obtain ⟨i, u⟩ := e
    simp only [Tbl.ins]
    split
    · simp [Tbl.get]
    · split
      · simp [Tbl.get]
      · rename_i h; simp [Tbl.get, Ne.symm h, ih]

theorem Tbl.get_ins_other (h : j ≠ k) : Tbl.get (Tbl.ins l k v) j d = Tbl.get l j d := by
  induction l with
  | nil => simp [Tbl.ins, Tbl.get, Ne.symm h]
  | cons e r ih =>
    obtain ⟨i, u⟩ := e
    simp only [Tbl.ins]
    split
    · simp [Tbl.get, Ne.symm h]
    · split
      · subst_vars; simp [Tbl.get, Ne.symm h]
      · simp [Tbl.get, ih]

theorem Tbl.get_erase_same : Tbl.get (Tbl.erase l k) k d = d := by
  induction l with
  | nil => rfl
  | cons e r ih => obtain ⟨i, u⟩ := e; simp only [Tbl.erase]; split <;> simp_all [Tbl.get]

theorem Tbl.get_erase_other (h : j ≠ k) : Tbl.get (Tbl.erase l k) j d = Tbl.get l j d := by
  induction l with
  | nil => rfl
  | cons e r ih =>
    obtain ⟨i, u⟩ := e
    simp only [Tbl.erase]
    split
    · subst_vars; simp [Tbl.get, Ne.symm h, ih]
    · simp [Tbl.get, ih]

variable [DecidableEq α]

@[simp] theorem Tbl.get_put_same : Tbl.get (Tbl.put l k v d) k d = v := by
  unfold Tbl.put
  split
  · subst_vars; exact Tbl.get_erase_same ..
  · exact Tbl.get_ins_same ..

theorem Tbl.get_put_other (e : α) (h : j ≠ k) : Tbl.get (Tbl.put l k v d) j e = Tbl.get l j e := by
  unfold Tbl.put
  split
  · exact Tbl.get_erase_other _ _ _ _ h
  · exact Tbl.get_ins_other _ _ _ _ _ h

end tbl

/-! ### The records by instance -/

@[simp] theorem Block.queue_setQueue (b : Block) (i : Nat) (x : Queue) : (b.setQueue i x).queue i = x := Tbl.get_put_same ..
theorem Block.queue_setQueue_other (b : Block) {i j : Nat} (x : Queue) (h : j ≠ i) : (b.setQueue i x).queue j = b.queue j := Tbl.get_put_other _ _ _ _ _ _ h
@[simp] theorem Block.port_setPort (b : Block) (i : Nat) (x : PrtPort) : (b.setPort i x).port i = x := Tbl.get_put_same ..
theorem Block.port_setPort_other (b : Block) {i j : Nat} (x : PrtPort) (h : j ≠ i) : (b.setPort i x).port j = b.port j := Tbl.get_put_other _ _ _ _ _ _ h
@[simp] theorem Block.sess_setSess (b : Block) (i : Nat) (x : Session) : (b.setSess i x).sess i = x := Tbl.get_put_same ..
theorem Block.sess_setSess_other (b : Block) {i j : Nat} (x : Session) (h : j ≠ i) : (b.setSess i x).sess j = b.sess j := Tbl.get_put_other _ _ _ _ _ _ h
@[simp] theorem Block.det_setDet (b : Block) (i : Nat) (x : Detector) : (b.setDet i x).det i = x := Tbl.get_put_same ..
theorem Block.det_setDet_other (b : Block) {i j : Nat} (x : Detector) (h : j ≠ i) : (b.setDet i x).det j = b.det j := Tbl.get_put_other _ _ _ _ _ _ h
@[simp] theorem Block.pairDet_setPair (b : Block) (i : Nat) (x : Detector) : (b.setPair i x).pairDet i = x := Tbl.get_put_same ..
theorem Block.pairDet_setPair_other (b : Block) {i j : Nat} (x : Detector) (h : j ≠ i) : (b.setPair i x).pairDet j = b.pairDet j := Tbl.get_put_other _ _ _ _ _ _ h
@[simp] theorem Block.pub_setPub (b : Block) (i : Nat) (x : Publisher) : (b.setPub i x).pub i = x := Tbl.get_put_same ..
theorem Block.pub_setPub_other (b : Block) {i j : Nat} (x : Publisher) (h : j ≠ i) : (b.setPub i x).pub j = b.pub j := Tbl.get_put_other _ _ _ _ _ _ h
@[simp] theorem Block.almDef_setDef (b : Block) (i : Nat) (x : AlmDef) : (b.setDef i x).almDef i = x := Tbl.get_put_same ..
theorem Block.almDef_setDef_other (b : Block) {i j : Nat} (x : AlmDef) (h : j ≠ i) : (b.setDef i x).almDef j = b.almDef j := Tbl.get_put_other _ _ _ _ _ _ h
@[simp] theorem Block.grp_setGrp (b : Block) (i : Nat) (x : CmpGroup) : (b.setGrp i x).grp i = x := Tbl.get_put_same ..
theorem Block.grp_setGrp_other (b : Block) {i j : Nat} (x : CmpGroup) (h : j ≠ i) : (b.setGrp i x).grp j = b.grp j := Tbl.get_put_other _ _ _ _ _ _ h
@[simp] theorem Block.cctx_setCctx (b : Block) (i : Nat) (x : CmpCtx) : (b.setCctx i x).cctx i = x := Tbl.get_put_same ..
theorem Block.cctx_setCctx_other (b : Block) {i j : Nat} (x : CmpCtx) (h : j ≠ i) : (b.setCctx i x).cctx j = b.cctx j := Tbl.get_put_other _ _ _ _ _ _ h
@[simp] theorem Block.radNode_setRadNode (b : Block) (i : Nat) (x : RadNode) : (b.setRadNode i x).radNode i = x := Tbl.get_put_same ..
theorem Block.radNode_setRadNode_other (b : Block) {i j : Nat} (x : RadNode) (h : j ≠ i) : (b.setRadNode i x).radNode j = b.radNode j := Tbl.get_put_other _ _ _ _ _ _ h
@[simp] theorem Block.poState_setPo (b : Block) (i : Nat) (x : PulseOut) : (b.setPo i x).poState i = x := Tbl.get_put_same ..
theorem Block.poState_setPo_other (b : Block) {i j : Nat} (x : PulseOut) (h : j ≠ i) : (b.setPo i x).poState j = b.poState j := Tbl.get_put_other _ _ _ _ _ _ h
@[simp] theorem Block.pdState_setPd (b : Block) (i : Nat) (x : PeerDelay) : (b.setPd i x).pdState i = x := Tbl.get_put_same ..
theorem Block.pdState_setPd_other (b : Block) {i j : Nat} (x : PeerDelay) (h : j ≠ i) : (b.setPd i x).pdState j = b.pdState j := Tbl.get_put_other _ _ _ _ _ _ h
@[simp] theorem Block.ptpState_setPtp (b : Block) (i : Nat) (x : PtpPort) : (b.setPtp i x).ptpState i = x := Tbl.get_put_same ..
theorem Block.ptpState_setPtp_other (b : Block) {i j : Nat} (x : PtpPort) (h : j ≠ i) : (b.setPtp i x).ptpState j = b.ptpState j := Tbl.get_put_other _ _ _ _ _ _ h
@[simp] theorem Block.tb_setTb (b : Block) (i : Nat) (x : TimeBase) : (b.setTb i x).tb i = x := Tbl.get_put_same ..
theorem Block.tb_setTb_other (b : Block) {i j : Nat} (x : TimeBase) (h : j ≠ i) : (b.setTb i x).tb j = b.tb j := Tbl.get_put_other _ _ _ _ _ _ h
@[simp] theorem Block.capU_setCapU (b : Block) (i : Nat) (x : CapUnit) : (b.setCapU i x).capU i = x := Tbl.get_put_same ..
theorem Block.capU_setCapU_other (b : Block) {i j : Nat} (x : CapUnit) (h : j ≠ i) : (b.setCapU i x).capU j = b.capU j := Tbl.get_put_other _ _ _ _ _ _ h
@[simp] theorem Block.redPath_setRedPath (b : Block) (i : Nat) (x : RedPath) : (b.setRedPath i x).redPath i = x := Tbl.get_put_same ..
theorem Block.redPath_setRedPath_other (b : Block) {i j : Nat} (x : RedPath) (h : j ≠ i) : (b.setRedPath i x).redPath j = b.redPath j := Tbl.get_put_other _ _ _ _ _ _ h
@[simp] theorem Block.munit_setMunit (b : Block) (i : Nat) (x : MemUnit) : (b.setMunit i x).munit i = x := Tbl.get_put_same ..
theorem Block.munit_setMunit_other (b : Block) {i j : Nat} (x : MemUnit) (h : j ≠ i) : (b.setMunit i x).munit j = b.munit j := Tbl.get_put_other _ _ _ _ _ _ h
@[simp] theorem Block.dmaCh_setDmaCh (b : Block) (i : Nat) (x : DmaCh) : (b.setDmaCh i x).dmaCh i = x := Tbl.get_put_same ..
theorem Block.dmaCh_setDmaCh_other (b : Block) {i j : Nat} (x : DmaCh) (h : j ≠ i) : (b.setDmaCh i x).dmaCh j = b.dmaCh j := Tbl.get_put_other _ _ _ _ _ _ h
@[simp] theorem Block.nrgPt_setNrgPt (b : Block) (i : Nat) (x : NrgPt) : (b.setNrgPt i x).nrgPt i = x := Tbl.get_put_same ..
theorem Block.nrgPt_setNrgPt_other (b : Block) {i j : Nat} (x : NrgPt) (h : j ≠ i) : (b.setNrgPt i x).nrgPt j = b.nrgPt j := Tbl.get_put_other _ _ _ _ _ _ h
@[simp] theorem Block.mbr_setMbr (b : Block) (i : Nat) (x : CasMbr) : (b.setMbr i x).mbr i = x := Tbl.get_put_same ..
theorem Block.mbr_setMbr_other (b : Block) {i j : Nat} (x : CasMbr) (h : j ≠ i) : (b.setMbr i x).mbr j = b.mbr j := Tbl.get_put_other _ _ _ _ _ _ h
@[simp] theorem Block.sdmCh_setSdmCh (b : Block) (i : Nat) (x : SdmCh) : (b.setSdmCh i x).sdmCh i = x := Tbl.get_put_same ..
theorem Block.sdmCh_setSdmCh_other (b : Block) {i j : Nat} (x : SdmCh) (h : j ≠ i) : (b.setSdmCh i x).sdmCh j = b.sdmCh j := Tbl.get_put_other _ _ _ _ _ _ h
@[simp] theorem Block.core_setCore (b : Block) (i : Nat) (x : Core) : (b.setCore i x).core i = b.coreStarts x :=
  congrArg b.coreStarts (Tbl.get_put_same b.dfe.cores i x Core.reset)
theorem Block.core_setCore_other (b : Block) {i j : Nat} (x : Core) (h : j ≠ i) : (b.setCore i x).core j = b.core j :=
  congrArg b.coreStarts (Tbl.get_put_other b.dfe.cores i j x Core.reset Core.reset h)
@[simp] theorem Block.ring_setRing (b : Block) (i : Nat) (x : Ring) : (b.setRing i x).ring i = x := Tbl.get_put_same ..
theorem Block.ring_setRing_other (b : Block) {i j : Nat} (x : Ring) (h : j ≠ i) : (b.setRing i x).ring j = b.ring j := Tbl.get_put_other _ _ _ _ _ _ h
@[simp] theorem Block.alnCtx_setAlnCtx (b : Block) (i : Nat) (x : AlnCtx) : (b.setAlnCtx i x).alnCtx i = x := Tbl.get_put_same ..
theorem Block.alnCtx_setAlnCtx_other (b : Block) {i j : Nat} (x : AlnCtx) (h : j ≠ i) : (b.setAlnCtx i x).alnCtx j = b.alnCtx j := Tbl.get_put_other _ _ _ _ _ _ h
@[simp] theorem Block.chan_setChan (b : Block) (i : Nat) (x : Chan) : (b.setChan i x).chan i = x := Tbl.get_put_same ..
theorem Block.chan_setChan_other (b : Block) {i j : Nat} (x : Chan) (h : j ≠ i) : (b.setChan i x).chan j = b.chan j := Tbl.get_put_other _ _ _ _ _ _ h
@[simp] theorem Block.track_setTrack (b : Block) (i : Nat) (x : Track) : (b.setTrack i x).track i = x := Tbl.get_put_same ..
theorem Block.track_setTrack_other (b : Block) {i j : Nat} (x : Track) (h : j ≠ i) : (b.setTrack i x).track j = b.track j := Tbl.get_put_other _ _ _ _ _ _ h

@[simp] theorem Block.basinAt_setBasin (b : Block) (r p : Nat) (x : Basin) : (b.setBasin r p x).basinAt r p = x := by
  unfold Block.basinAt Block.setBasin; simp

theorem Block.basinAt_setBasin_other (b : Block) {r p q : Nat} (x : Basin) (h : q ≠ p) : (b.setBasin r p x).basinAt r q = b.basinAt r q := by
  unfold Block.basinAt Block.setBasin; simp [Tbl.get_put_other _ _ _ _ _ _ h]

/-! ### The register file -/

@[simp] theorem Block.vis_setVis_same (b : Block) (d : RegDesc) (i k : Nat) (w : Word) : (b.setVis d i k w).vis d i k = w :=
  Tbl.get_put_same ..

theorem Block.vis_setVis_other (b : Block) (d e : RegDesc) (i k i' k' : Nat) (w : Word) (h : e.key i' k' ≠ d.key i k) :
    (b.setVis d i k w).vis e i' k' = b.vis e i' k' := Tbl.get_put_other _ _ _ _ _ _ h

/-- A register's key tells its row's place, the instance and the offset. -/
theorem RegDesc.key_ne {d e : RegDesc} {i k i' k' : Nat} (ho : d.off + d.stride * k < 65536) (ho' : e.off + e.stride * k' < 65536)
    (hi : i < 1048576) (hi' : i' < 1048576)
    (h : ¬ (d.blk * 16 + d.spaces.headD 15 = e.blk * 16 + e.spaces.headD 15 ∧ i = i' ∧ d.off + d.stride * k = e.off + e.stride * k')) :
    d.key i k ≠ e.key i' k' := by
  unfold RegDesc.key regKey
  generalize d.blk * 16 + d.spaces.headD 15 = a at *
  generalize e.blk * 16 + e.spaces.headD 15 = c at *
  generalize d.off + d.stride * k = o at *
  generalize e.off + e.stride * k' = p at *
  intro hk
  apply h
  omega

end Sys2Proof.Machine
end

