-- ==== Sys2Proof/Laws/Memory.lean ====
section
/-! SUPPORT. The memories: what a read sees after a write, and that every operation keeps the canonical form. -/

namespace Sys2Proof.Machine

/-! ### Cells: what a read sees -/

theorem cellGet_erase (m : List Host.Cell) (a x : Nat) (d : Byte) : cellGet (cellErase m a) x d = if a = x then d else cellGet m x d := by
  induction m with
  | nil => simp [cellErase, cellGet]
  | cons e r ih =>
    obtain ⟨k, v⟩ := e
    by_cases h : k = a
    · subst h
      simp only [cellErase, if_true, ih, cellGet]
      split <;> rfl
    · simp only [cellErase, h, if_false, cellGet, ih]
      by_cases hx : k = x
      · subst hx
        simp [Ne.symm h]
      · simp [hx]

theorem cellGet_ins (m : List Host.Cell) (a x : Nat) (v d : Byte) : cellGet (cellIns m a v) x d = if a = x then v else cellGet m x d := by
  induction m with
  | nil => simp [cellIns, cellGet]
  | cons e r ih =>
    obtain ⟨k, u⟩ := e
    simp only [cellIns]
    split
    · simp only [cellGet]
    · split
      · rename_i h
        subst h
        simp only [cellGet]
        split <;> rfl
      · rename_i h
        simp only [cellGet, ih]
        by_cases hx : k = x
        · subst hx
          simp [h]
        · simp [hx]

/-- A read after a write of one byte. -/
theorem cellGet_set (m : List Host.Cell) (a x : Nat) (v d : Byte) : cellGet (cellSet m a v d) x d = if a = x then v else cellGet m x d := by
  unfold cellSet
  split
  · rename_i h
    rw [cellGet_erase, h]
  · exact cellGet_ins m a x v d

/-- A read after a write of several bytes: the byte written there, else the byte before. -/
theorem cellGet_sets (bs : List Byte) (m : List Host.Cell) (a x : Nat) (d : Byte) :
    cellGet (cellsSet m a bs d) x d = if a ≤ x ∧ x < a + bs.length then bs.getD (x - a) d else cellGet m x d := by
  induction bs generalizing m a with
  | nil =>
    simp only [cellsSet, List.length_nil]
    split
    · omega
    · rfl
  | cons v r ih =>
    simp only [cellsSet, ih, cellGet_set, List.length_cons]
    by_cases h : a = x
    · subst h
      rw [if_neg (by omega)]
      simp
    · by_cases k : a + 1 ≤ x ∧ x < a + 1 + r.length
      · have e : x - a = (x - (a + 1)) + 1 := by omega
        rw [if_pos k, if_pos (by omega), e, List.getD_cons_succ]
      · rw [if_neg k, if_neg h, if_neg (by omega)]

/-- The byte of memory that a store leaves at an address. -/
theorem Block.load8_store (b : Block) (a x : Nat) (bs : List Byte) :
    (b.store a bs).load8 x = if a ≤ x ∧ x < a + bs.length then bs.getD (x - a) Mem.blank else b.load8 x :=
  cellGet_sets bs b.mem.cells a x Mem.blank

/-- A store leaves every other byte. -/
theorem Block.load8_store_other (b : Block) (a x : Nat) (bs : List Byte) (h : x < a ∨ a + bs.length ≤ x) :
    (b.store a bs).load8 x = b.load8 x := by
  rw [Block.load8_store, if_neg (by omega)]

theorem cellGet_filter (m : List Host.Cell) (p : Nat → Bool) (x : Nat) (d : Byte) :
    cellGet (m.filter (fun c => p c.1)) x d = if p x then cellGet m x d else d := by
  induction m with
  | nil => simp [cellGet]
  | cons e r ih =>
    obtain ⟨k, v⟩ := e
    by_cases hk : p k = true
    · simp only [List.filter, hk, cellGet, ih]
      by_cases hx : k = x
      · subst hx
        simp [hk]
      · simp [hx]
    · simp only [List.filter, Bool.eq_false_iff.mpr hk, cellGet, ih]
      by_cases hx : k = x
      · subst hx
        simp [hk]
      · simp [hx]

/-- A cleared range reads as cleared memory, the rest as before. -/
theorem Block.load8_zeroRange (b : Block) (a n x : Nat) :
    (b.zeroRange a n).load8 x = if a ≤ x ∧ x < a + n then Mem.blank else b.load8 x := by
  have := cellGet_filter b.mem.cells (fun k => decide (k < a) || decide (a + n ≤ k)) x Mem.blank
  show cellGet (b.mem.cells.filter _) x Mem.blank = _
  rw [this]
  by_cases h : a ≤ x ∧ x < a + n
  · rw [if_neg (by simp; omega), if_pos h]
  · rw [if_pos (by simp; omega), if_neg h]
    rfl

/-! ### The canonical form -/

/-- The head of a list of cells lies above an address. -/
def cellsAbove (k : Nat) (m : List Host.Cell) : Bool :=
  match m with
  | [] => true
  | (j, _) :: _ => decide (k < j)

theorem cellsWf_cons (k : Nat) (v : Byte) (r : List Host.Cell) (d : Byte) :
    cellsWf ((k, v) :: r) d = ((v != d) && cellsAbove k r && cellsWf r d) := by
  cases r <;> rfl

theorem cellsAbove_of_wf {k : Nat} {m : List Host.Cell} (d : Byte) (w : cellsWf m d = true) (h : cellsAbove k m = true) :
    ∀ e ∈ m, k < e.1 := by
  induction m generalizing k with
  | nil => intro e he; cases he
  | cons x r ih =>
    obtain ⟨j, v⟩ := x
    rw [cellsWf_cons] at w
    simp only [Bool.and_eq_true] at w
    have hj : k < j := by simpa [cellsAbove] using h
    intro e he
    rcases List.mem_cons.mp he with rfl | he
    · exact hj
    · exact Nat.lt_trans hj (ih w.2 w.1.2 e he)

theorem cellsAbove_of_all {k : Nat} {m : List Host.Cell} (h : ∀ e ∈ m, k < e.1) : cellsAbove k m = true := by
  cases m with
  | nil => rfl
  | cons x r => simpa [cellsAbove] using h x (by simp)

theorem mem_cellErase {m : List Host.Cell} {a : Nat} {e : Host.Cell} (h : e ∈ cellErase m a) : e ∈ m := by
  induction m with
  | nil => exact h
  | cons x r ih =>
    obtain ⟨k, v⟩ := x
    simp only [cellErase] at h
    split at h
    · exact List.mem_cons_of_mem _ (ih h)
    · rcases List.mem_cons.mp h with rfl | h
      · simp
      · exact List.mem_cons_of_mem _ (ih h)

theorem mem_cellIns {m : List Host.Cell} {a : Nat} {v : Byte} {e : Host.Cell} (h : e ∈ cellIns m a v) : e = (a, v) ∨ e ∈ m := by
  induction m with
  | nil => simpa [cellIns] using h
  | cons x r ih =>
    obtain ⟨k, u⟩ := x
    simp only [cellIns] at h
    split at h
    · simpa using h
    · split at h
      · rcases List.mem_cons.mp h with rfl | h
        · simp
        · exact Or.inr (List.mem_cons_of_mem _ h)
      · rcases List.mem_cons.mp h with rfl | h
        · simp
        · rcases ih h with h | h
          · exact Or.inl h
          · exact Or.inr (List.mem_cons_of_mem _ h)

theorem cellsWf_filter {m : List Host.Cell} {d : Byte} (p : Host.Cell → Bool) (w : cellsWf m d = true) : cellsWf (m.filter p) d = true := by
  induction m with
  | nil => exact w
  | cons x r ih =>
    obtain ⟨k, v⟩ := x
    rw [cellsWf_cons] at w
    simp only [Bool.and_eq_true] at w
    have ab := cellsAbove_of_wf d w.2 w.1.2
    by_cases h : p (k, v) = true
    · rw [List.filter_cons_of_pos h, cellsWf_cons]
      simp only [Bool.and_eq_true]
      exact ⟨⟨w.1.1, cellsAbove_of_all (fun e he => ab e (List.mem_filter.mp he).1)⟩, ih w.2⟩
    · rw [List.filter_cons_of_neg h]
      exact ih w.2

theorem cellErase_eq_filter (m : List Host.Cell) (a : Nat) : cellErase m a = m.filter (fun e => e.1 != a) := by
  induction m with
  | nil => rfl
  | cons x r ih =>
    obtain ⟨k, v⟩ := x
    by_cases h : k = a
    · subst h
      simp [cellErase, ih]
    · simp [cellErase, h, ih]

theorem cellsWf_ins {m : List Host.Cell} {d : Byte} (a : Nat) {v : Byte} (hv : v ≠ d) (w : cellsWf m d = true) :
    cellsWf (cellIns m a v) d = true := by
  induction m with
  | nil => simp [cellIns, cellsWf, hv]
  | cons x r ih =>
    obtain ⟨k, u⟩ := x
    have w0 := w
    rw [cellsWf_cons] at w
    simp only [Bool.and_eq_true] at w
    have ab := cellsAbove_of_wf d w.2 w.1.2
    simp only [cellIns]
    split
    · rename_i h
      rw [cellsWf_cons]
      simp only [Bool.and_eq_true]
      exact ⟨⟨by simpa using hv, by simpa [cellsAbove] using h⟩, w0⟩
    · split
      · rename_i h
        subst h
        rw [cellsWf_cons]
        simp only [Bool.and_eq_true]
        exact ⟨⟨by simpa using hv, w.1.2⟩, w.2⟩
      · rename_i h h'
        rw [cellsWf_cons]
        simp only [Bool.and_eq_true]
        refine ⟨⟨w.1.1, cellsAbove_of_all (fun e he => ?_)⟩, ih w.2⟩
        rcases mem_cellIns he with rfl | he
        · show k < a
          omega
        · exact ab e he

theorem cellsWf_set {m : List Host.Cell} {d : Byte} (a : Nat) (v : Byte) (w : cellsWf m d = true) : cellsWf (cellSet m a v d) d = true := by
  unfold cellSet
  split
  · rw [cellErase_eq_filter]
    exact cellsWf_filter _ w
  · exact cellsWf_ins a (by assumption) w

theorem cellsWf_sets (bs : List Byte) {m : List Host.Cell} {d : Byte} (a : Nat) (w : cellsWf m d = true) :
    cellsWf (cellsSet m a bs d) d = true := by
  induction bs generalizing m a with
  | nil => exact w
  | cons v r ih => exact ih (a + 1) (cellsWf_set a v w)

/-- The canonical form depends on the cells of the two memories alone. -/
theorem Memory.wf_of {m m' : Mem} (c : cellsWf m.cells Mem.blank = true → cellsWf m'.cells Mem.blank = true)
    (f : cellsWf m.flash Mem.erased = true → cellsWf m'.flash Mem.erased = true) (w : Memory.wf m = true) : Memory.wf m' = true := by
  simp only [Memory.wf, Bool.and_eq_true] at w ⊢
  exact ⟨c w.1, f w.2⟩

theorem Block.store_wf (b : Block) (a : Nat) (bs : List Byte) (w : Memory.wf b.mem = true) : Memory.wf (b.store a bs).mem = true :=
  Memory.wf_of (m := b.mem) (fun h => cellsWf_sets bs a h) (fun h => h) w

theorem Block.storeN_wf (b : Block) (a n v : Nat) (w : Memory.wf b.mem = true) : Memory.wf (b.storeN a n v).mem = true :=
  b.store_wf a _ w

theorem Block.storeFlash_wf (b : Block) (o : Nat) (bs : List Byte) (w : Memory.wf b.mem = true) : Memory.wf (b.storeFlash o bs).mem = true :=
  Memory.wf_of (m := b.mem) (fun h => h) (fun h => cellsWf_sets bs o h) w

theorem Block.zeroRange_wf (b : Block) (a n : Nat) (w : Memory.wf b.mem = true) : Memory.wf (b.zeroRange a n).mem = true :=
  Memory.wf_of (m := b.mem) (fun h => cellsWf_filter _ h) (fun h => h) w

theorem Block.poisonAt_wf (b : Block) (a : Nat) (w : Memory.wf b.mem = true) : Memory.wf (b.poisonAt a).mem = true := by
  unfold Block.poisonAt
  split
  · exact Memory.wf_of id id w
  · exact w

/-- The memories after reset are in canonical form. -/
theorem Memory.wf_reset : Memory.wf State.reset.blk.mem = true := rfl

end Sys2Proof.Machine
end

