-- ==== Sys2Proof/Laws/State.lean ====
section
/-! SUPPORT. What the shared operations on the block leave alone, field by field, and what the plain setters write. -/

namespace Sys2Proof.Machine

variable {s : State}

/-! ### The state -/

@[simp] theorem State.blk_mk (b : Block) (p : List Instr) : (State.mk b p).blk = b := rfl
@[simp] theorem State.pending_mk (b : Block) (p : List Instr) : (State.mk b p).pending = p := rfl

/-- A command's meaning answers a next state. -/
@[simp] theorem State.run_eq (s : State) (t : Nat) (f : Block → Block) : s.run t f = .next { s with blk := f (s.blk.clock t) } := rfl

/-- It does so where the instances it names exist. -/
theorem State.runIf_eq (s : State) {c : Bool} (h : c = true) (t : Nat) (f : Block → Block) :
    s.runIf c t f = .next { s with blk := f (s.blk.clock t) } := by
  subst h; rfl

/-- Where one does not, only its instant passes. -/
theorem State.runIf_idle (s : State) {c : Bool} (h : c = false) (t : Nat) (f : Block → Block) :
    s.runIf c t f = .next { s with blk := s.blk.clock t } := by
  subst h; rfl

@[simp] theorem Block.clock_t7 (b : Block) (t : Nat) : (b.clock t).t7 = max b.t7 t := rfl

/-! ### The clock -/

@[simp] theorem Block.clock_free (b : Block) (t : Nat) : (b.clock t).free = b.free := rfl
@[simp] theorem Block.clock_regs (b : Block) (t : Nat) : (b.clock t).regs = b.regs := rfl
@[simp] theorem Block.clock_resp (b : Block) (t : Nat) : (b.clock t).resp = b.resp := rfl
@[simp] theorem Block.clock_latch (b : Block) (t : Nat) : (b.clock t).latch = b.latch := rfl
@[simp] theorem Block.clock_rep (b : Block) (t : Nat) : (b.clock t).rep = b.rep := rfl
@[simp] theorem Block.clock_mem (b : Block) (t : Nat) : (b.clock t).mem = b.mem := rfl
@[simp] theorem Block.clock_evr (b : Block) (t : Nat) : (b.clock t).evr = b.evr := rfl
@[simp] theorem Block.clock_sys (b : Block) (t : Nat) : (b.clock t).sys = b.sys := rfl
@[simp] theorem Block.clock_pwr (b : Block) (t : Nat) : (b.clock t).pwr = b.pwr := rfl
@[simp] theorem Block.clock_key (b : Block) (t : Nat) : (b.clock t).key = b.key := rfl
@[simp] theorem Block.clock_tam (b : Block) (t : Nat) : (b.clock t).tam = b.tam := rfl
@[simp] theorem Block.clock_acc (b : Block) (t : Nat) : (b.clock t).acc = b.acc := rfl
@[simp] theorem Block.clock_tim (b : Block) (t : Nat) : (b.clock t).tim = b.tim := rfl
@[simp] theorem Block.clock_aln (b : Block) (t : Nat) : (b.clock t).aln = b.aln := rfl
@[simp] theorem Block.clock_mm (b : Block) (t : Nat) : (b.clock t).mm = b.mm := rfl
@[simp] theorem Block.clock_dma (b : Block) (t : Nat) : (b.clock t).dma = b.dma := rfl
@[simp] theorem Block.clock_que (b : Block) (t : Nat) : (b.clock t).que = b.que := rfl
@[simp] theorem Block.clock_dfe (b : Block) (t : Nat) : (b.clock t).dfe = b.dfe := rfl
@[simp] theorem Block.clock_prt (b : Block) (t : Nat) : (b.clock t).prt = b.prt := rfl
@[simp] theorem Block.clock_str (b : Block) (t : Nat) : (b.clock t).str = b.str := rfl
@[simp] theorem Block.clock_out (b : Block) (t : Nat) : (b.clock t).out = b.out := rfl
@[simp] theorem Block.clock_cas (b : Block) (t : Nat) : (b.clock t).cas = b.cas := rfl
@[simp] theorem Block.clock_rpl (b : Block) (t : Nat) : (b.clock t).rpl = b.rpl := rfl
@[simp] theorem Block.clock_isl (b : Block) (t : Nat) : (b.clock t).isl = b.isl := rfl
@[simp] theorem Block.clock_alm (b : Block) (t : Nat) : (b.clock t).alm = b.alm := rfl
@[simp] theorem Block.clock_cmp (b : Block) (t : Nat) : (b.clock t).cmp = b.cmp := rfl
@[simp] theorem Block.clock_sdm (b : Block) (t : Nat) : (b.clock t).sdm = b.sdm := rfl
@[simp] theorem Block.clock_nrg (b : Block) (t : Nat) : (b.clock t).nrg = b.nrg := rfl
@[simp] theorem Block.clock_cap (b : Block) (t : Nat) : (b.clock t).cap = b.cap := rfl
@[simp] theorem Block.clock_rad (b : Block) (t : Nat) : (b.clock t).rad = b.rad := rfl
@[simp] theorem Block.clock_red (b : Block) (t : Nat) : (b.clock t).red = b.red := rfl

/-! ### Registers: setVis -/

@[simp] theorem Block.setVis_t7 (b : Block) (d : RegDesc) (i k : Nat) (w : Word) : (b.setVis d i k w).t7 = b.t7 := rfl
@[simp] theorem Block.setVis_free (b : Block) (d : RegDesc) (i k : Nat) (w : Word) : (b.setVis d i k w).free = b.free := rfl
@[simp] theorem Block.setVis_resp (b : Block) (d : RegDesc) (i k : Nat) (w : Word) : (b.setVis d i k w).resp = b.resp := rfl
@[simp] theorem Block.setVis_latch (b : Block) (d : RegDesc) (i k : Nat) (w : Word) : (b.setVis d i k w).latch = b.latch := rfl
@[simp] theorem Block.setVis_rep (b : Block) (d : RegDesc) (i k : Nat) (w : Word) : (b.setVis d i k w).rep = b.rep := rfl
@[simp] theorem Block.setVis_mem (b : Block) (d : RegDesc) (i k : Nat) (w : Word) : (b.setVis d i k w).mem = b.mem := rfl
@[simp] theorem Block.setVis_evr (b : Block) (d : RegDesc) (i k : Nat) (w : Word) : (b.setVis d i k w).evr = b.evr := rfl
@[simp] theorem Block.setVis_sys (b : Block) (d : RegDesc) (i k : Nat) (w : Word) : (b.setVis d i k w).sys = b.sys := rfl
@[simp] theorem Block.setVis_pwr (b : Block) (d : RegDesc) (i k : Nat) (w : Word) : (b.setVis d i k w).pwr = b.pwr := rfl
@[simp] theorem Block.setVis_key (b : Block) (d : RegDesc) (i k : Nat) (w : Word) : (b.setVis d i k w).key = b.key := rfl
@[simp] theorem Block.setVis_tam (b : Block) (d : RegDesc) (i k : Nat) (w : Word) : (b.setVis d i k w).tam = b.tam := rfl
@[simp] theorem Block.setVis_acc (b : Block) (d : RegDesc) (i k : Nat) (w : Word) : (b.setVis d i k w).acc = b.acc := rfl
@[simp] theorem Block.setVis_tim (b : Block) (d : RegDesc) (i k : Nat) (w : Word) : (b.setVis d i k w).tim = b.tim := rfl
@[simp] theorem Block.setVis_aln (b : Block) (d : RegDesc) (i k : Nat) (w : Word) : (b.setVis d i k w).aln = b.aln := rfl
@[simp] theorem Block.setVis_mm (b : Block) (d : RegDesc) (i k : Nat) (w : Word) : (b.setVis d i k w).mm = b.mm := rfl
@[simp] theorem Block.setVis_dma (b : Block) (d : RegDesc) (i k : Nat) (w : Word) : (b.setVis d i k w).dma = b.dma := rfl
@[simp] theorem Block.setVis_que (b : Block) (d : RegDesc) (i k : Nat) (w : Word) : (b.setVis d i k w).que = b.que := rfl
@[simp] theorem Block.setVis_dfe (b : Block) (d : RegDesc) (i k : Nat) (w : Word) : (b.setVis d i k w).dfe = b.dfe := rfl
@[simp] theorem Block.setVis_prt (b : Block) (d : RegDesc) (i k : Nat) (w : Word) : (b.setVis d i k w).prt = b.prt := rfl
@[simp] theorem Block.setVis_str (b : Block) (d : RegDesc) (i k : Nat) (w : Word) : (b.setVis d i k w).str = b.str := rfl
@[simp] theorem Block.setVis_out (b : Block) (d : RegDesc) (i k : Nat) (w : Word) : (b.setVis d i k w).out = b.out := rfl
@[simp] theorem Block.setVis_cas (b : Block) (d : RegDesc) (i k : Nat) (w : Word) : (b.setVis d i k w).cas = b.cas := rfl
@[simp] theorem Block.setVis_rpl (b : Block) (d : RegDesc) (i k : Nat) (w : Word) : (b.setVis d i k w).rpl = b.rpl := rfl
@[simp] theorem Block.setVis_isl (b : Block) (d : RegDesc) (i k : Nat) (w : Word) : (b.setVis d i k w).isl = b.isl := rfl
@[simp] theorem Block.setVis_alm (b : Block) (d : RegDesc) (i k : Nat) (w : Word) : (b.setVis d i k w).alm = b.alm := rfl
@[simp] theorem Block.setVis_cmp (b : Block) (d : RegDesc) (i k : Nat) (w : Word) : (b.setVis d i k w).cmp = b.cmp := rfl
@[simp] theorem Block.setVis_sdm (b : Block) (d : RegDesc) (i k : Nat) (w : Word) : (b.setVis d i k w).sdm = b.sdm := rfl
@[simp] theorem Block.setVis_nrg (b : Block) (d : RegDesc) (i k : Nat) (w : Word) : (b.setVis d i k w).nrg = b.nrg := rfl
@[simp] theorem Block.setVis_cap (b : Block) (d : RegDesc) (i k : Nat) (w : Word) : (b.setVis d i k w).cap = b.cap := rfl
@[simp] theorem Block.setVis_rad (b : Block) (d : RegDesc) (i k : Nat) (w : Word) : (b.setVis d i k w).rad = b.rad := rfl
@[simp] theorem Block.setVis_red (b : Block) (d : RegDesc) (i k : Nat) (w : Word) : (b.setVis d i k w).red = b.red := rfl

/-! ### Registers: setAct -/

@[simp] theorem Block.setAct_t7 (b : Block) (d : RegDesc) (i k : Nat) (w : Word) : (b.setAct d i k w).t7 = b.t7 := rfl
@[simp] theorem Block.setAct_free (b : Block) (d : RegDesc) (i k : Nat) (w : Word) : (b.setAct d i k w).free = b.free := rfl
@[simp] theorem Block.setAct_resp (b : Block) (d : RegDesc) (i k : Nat) (w : Word) : (b.setAct d i k w).resp = b.resp := rfl
@[simp] theorem Block.setAct_latch (b : Block) (d : RegDesc) (i k : Nat) (w : Word) : (b.setAct d i k w).latch = b.latch := rfl
@[simp] theorem Block.setAct_rep (b : Block) (d : RegDesc) (i k : Nat) (w : Word) : (b.setAct d i k w).rep = b.rep := rfl
@[simp] theorem Block.setAct_mem (b : Block) (d : RegDesc) (i k : Nat) (w : Word) : (b.setAct d i k w).mem = b.mem := rfl
@[simp] theorem Block.setAct_evr (b : Block) (d : RegDesc) (i k : Nat) (w : Word) : (b.setAct d i k w).evr = b.evr := rfl
@[simp] theorem Block.setAct_sys (b : Block) (d : RegDesc) (i k : Nat) (w : Word) : (b.setAct d i k w).sys = b.sys := rfl
@[simp] theorem Block.setAct_pwr (b : Block) (d : RegDesc) (i k : Nat) (w : Word) : (b.setAct d i k w).pwr = b.pwr := rfl
@[simp] theorem Block.setAct_key (b : Block) (d : RegDesc) (i k : Nat) (w : Word) : (b.setAct d i k w).key = b.key := rfl
@[simp] theorem Block.setAct_tam (b : Block) (d : RegDesc) (i k : Nat) (w : Word) : (b.setAct d i k w).tam = b.tam := rfl
@[simp] theorem Block.setAct_acc (b : Block) (d : RegDesc) (i k : Nat) (w : Word) : (b.setAct d i k w).acc = b.acc := rfl
@[simp] theorem Block.setAct_tim (b : Block) (d : RegDesc) (i k : Nat) (w : Word) : (b.setAct d i k w).tim = b.tim := rfl
@[simp] theorem Block.setAct_aln (b : Block) (d : RegDesc) (i k : Nat) (w : Word) : (b.setAct d i k w).aln = b.aln := rfl
@[simp] theorem Block.setAct_mm (b : Block) (d : RegDesc) (i k : Nat) (w : Word) : (b.setAct d i k w).mm = b.mm := rfl
@[simp] theorem Block.setAct_dma (b : Block) (d : RegDesc) (i k : Nat) (w : Word) : (b.setAct d i k w).dma = b.dma := rfl
@[simp] theorem Block.setAct_que (b : Block) (d : RegDesc) (i k : Nat) (w : Word) : (b.setAct d i k w).que = b.que := rfl
@[simp] theorem Block.setAct_dfe (b : Block) (d : RegDesc) (i k : Nat) (w : Word) : (b.setAct d i k w).dfe = b.dfe := rfl
@[simp] theorem Block.setAct_prt (b : Block) (d : RegDesc) (i k : Nat) (w : Word) : (b.setAct d i k w).prt = b.prt := rfl
@[simp] theorem Block.setAct_str (b : Block) (d : RegDesc) (i k : Nat) (w : Word) : (b.setAct d i k w).str = b.str := rfl
@[simp] theorem Block.setAct_out (b : Block) (d : RegDesc) (i k : Nat) (w : Word) : (b.setAct d i k w).out = b.out := rfl
@[simp] theorem Block.setAct_cas (b : Block) (d : RegDesc) (i k : Nat) (w : Word) : (b.setAct d i k w).cas = b.cas := rfl
@[simp] theorem Block.setAct_rpl (b : Block) (d : RegDesc) (i k : Nat) (w : Word) : (b.setAct d i k w).rpl = b.rpl := rfl
@[simp] theorem Block.setAct_isl (b : Block) (d : RegDesc) (i k : Nat) (w : Word) : (b.setAct d i k w).isl = b.isl := rfl
@[simp] theorem Block.setAct_alm (b : Block) (d : RegDesc) (i k : Nat) (w : Word) : (b.setAct d i k w).alm = b.alm := rfl
@[simp] theorem Block.setAct_cmp (b : Block) (d : RegDesc) (i k : Nat) (w : Word) : (b.setAct d i k w).cmp = b.cmp := rfl
@[simp] theorem Block.setAct_sdm (b : Block) (d : RegDesc) (i k : Nat) (w : Word) : (b.setAct d i k w).sdm = b.sdm := rfl
@[simp] theorem Block.setAct_nrg (b : Block) (d : RegDesc) (i k : Nat) (w : Word) : (b.setAct d i k w).nrg = b.nrg := rfl
@[simp] theorem Block.setAct_cap (b : Block) (d : RegDesc) (i k : Nat) (w : Word) : (b.setAct d i k w).cap = b.cap := rfl
@[simp] theorem Block.setAct_rad (b : Block) (d : RegDesc) (i k : Nat) (w : Word) : (b.setAct d i k w).rad = b.rad := rfl
@[simp] theorem Block.setAct_red (b : Block) (d : RegDesc) (i k : Nat) (w : Word) : (b.setAct d i k w).red = b.red := rfl

/-! ### Registers: orBit -/

@[simp] theorem Block.orBit_t7 (b : Block) (key n : Nat) : (b.orBit key n).t7 = b.t7 := rfl
@[simp] theorem Block.orBit_free (b : Block) (key n : Nat) : (b.orBit key n).free = b.free := rfl
@[simp] theorem Block.orBit_resp (b : Block) (key n : Nat) : (b.orBit key n).resp = b.resp := rfl
@[simp] theorem Block.orBit_latch (b : Block) (key n : Nat) : (b.orBit key n).latch = b.latch := rfl
@[simp] theorem Block.orBit_rep (b : Block) (key n : Nat) : (b.orBit key n).rep = b.rep := rfl
@[simp] theorem Block.orBit_mem (b : Block) (key n : Nat) : (b.orBit key n).mem = b.mem := rfl
@[simp] theorem Block.orBit_evr (b : Block) (key n : Nat) : (b.orBit key n).evr = b.evr := rfl
@[simp] theorem Block.orBit_sys (b : Block) (key n : Nat) : (b.orBit key n).sys = b.sys := rfl
@[simp] theorem Block.orBit_pwr (b : Block) (key n : Nat) : (b.orBit key n).pwr = b.pwr := rfl
@[simp] theorem Block.orBit_key (b : Block) (key n : Nat) : (b.orBit key n).key = b.key := rfl
@[simp] theorem Block.orBit_tam (b : Block) (key n : Nat) : (b.orBit key n).tam = b.tam := rfl
@[simp] theorem Block.orBit_acc (b : Block) (key n : Nat) : (b.orBit key n).acc = b.acc := rfl
@[simp] theorem Block.orBit_tim (b : Block) (key n : Nat) : (b.orBit key n).tim = b.tim := rfl
@[simp] theorem Block.orBit_aln (b : Block) (key n : Nat) : (b.orBit key n).aln = b.aln := rfl
@[simp] theorem Block.orBit_mm (b : Block) (key n : Nat) : (b.orBit key n).mm = b.mm := rfl
@[simp] theorem Block.orBit_dma (b : Block) (key n : Nat) : (b.orBit key n).dma = b.dma := rfl
@[simp] theorem Block.orBit_que (b : Block) (key n : Nat) : (b.orBit key n).que = b.que := rfl
@[simp] theorem Block.orBit_dfe (b : Block) (key n : Nat) : (b.orBit key n).dfe = b.dfe := rfl
@[simp] theorem Block.orBit_prt (b : Block) (key n : Nat) : (b.orBit key n).prt = b.prt := rfl
@[simp] theorem Block.orBit_str (b : Block) (key n : Nat) : (b.orBit key n).str = b.str := rfl
@[simp] theorem Block.orBit_out (b : Block) (key n : Nat) : (b.orBit key n).out = b.out := rfl
@[simp] theorem Block.orBit_cas (b : Block) (key n : Nat) : (b.orBit key n).cas = b.cas := rfl
@[simp] theorem Block.orBit_rpl (b : Block) (key n : Nat) : (b.orBit key n).rpl = b.rpl := rfl
@[simp] theorem Block.orBit_isl (b : Block) (key n : Nat) : (b.orBit key n).isl = b.isl := rfl
@[simp] theorem Block.orBit_alm (b : Block) (key n : Nat) : (b.orBit key n).alm = b.alm := rfl
@[simp] theorem Block.orBit_cmp (b : Block) (key n : Nat) : (b.orBit key n).cmp = b.cmp := rfl
@[simp] theorem Block.orBit_sdm (b : Block) (key n : Nat) : (b.orBit key n).sdm = b.sdm := rfl
@[simp] theorem Block.orBit_nrg (b : Block) (key n : Nat) : (b.orBit key n).nrg = b.nrg := rfl
@[simp] theorem Block.orBit_cap (b : Block) (key n : Nat) : (b.orBit key n).cap = b.cap := rfl
@[simp] theorem Block.orBit_rad (b : Block) (key n : Nat) : (b.orBit key n).rad = b.rad := rfl
@[simp] theorem Block.orBit_red (b : Block) (key n : Nat) : (b.orBit key n).red = b.red := rfl

/-! ### Registers: setBit -/

@[simp] theorem Block.setBit_t7 (b : Block) (d : RegDesc) (i k n : Nat) : (b.setBit d i k n).t7 = b.t7 := rfl
@[simp] theorem Block.setBit_free (b : Block) (d : RegDesc) (i k n : Nat) : (b.setBit d i k n).free = b.free := rfl
@[simp] theorem Block.setBit_resp (b : Block) (d : RegDesc) (i k n : Nat) : (b.setBit d i k n).resp = b.resp := rfl
@[simp] theorem Block.setBit_latch (b : Block) (d : RegDesc) (i k n : Nat) : (b.setBit d i k n).latch = b.latch := rfl
@[simp] theorem Block.setBit_rep (b : Block) (d : RegDesc) (i k n : Nat) : (b.setBit d i k n).rep = b.rep := rfl
@[simp] theorem Block.setBit_mem (b : Block) (d : RegDesc) (i k n : Nat) : (b.setBit d i k n).mem = b.mem := rfl
@[simp] theorem Block.setBit_evr (b : Block) (d : RegDesc) (i k n : Nat) : (b.setBit d i k n).evr = b.evr := rfl
@[simp] theorem Block.setBit_sys (b : Block) (d : RegDesc) (i k n : Nat) : (b.setBit d i k n).sys = b.sys := rfl
@[simp] theorem Block.setBit_pwr (b : Block) (d : RegDesc) (i k n : Nat) : (b.setBit d i k n).pwr = b.pwr := rfl
@[simp] theorem Block.setBit_key (b : Block) (d : RegDesc) (i k n : Nat) : (b.setBit d i k n).key = b.key := rfl
@[simp] theorem Block.setBit_tam (b : Block) (d : RegDesc) (i k n : Nat) : (b.setBit d i k n).tam = b.tam := rfl
@[simp] theorem Block.setBit_acc (b : Block) (d : RegDesc) (i k n : Nat) : (b.setBit d i k n).acc = b.acc := rfl
@[simp] theorem Block.setBit_tim (b : Block) (d : RegDesc) (i k n : Nat) : (b.setBit d i k n).tim = b.tim := rfl
@[simp] theorem Block.setBit_aln (b : Block) (d : RegDesc) (i k n : Nat) : (b.setBit d i k n).aln = b.aln := rfl
@[simp] theorem Block.setBit_mm (b : Block) (d : RegDesc) (i k n : Nat) : (b.setBit d i k n).mm = b.mm := rfl
@[simp] theorem Block.setBit_dma (b : Block) (d : RegDesc) (i k n : Nat) : (b.setBit d i k n).dma = b.dma := rfl
@[simp] theorem Block.setBit_que (b : Block) (d : RegDesc) (i k n : Nat) : (b.setBit d i k n).que = b.que := rfl
@[simp] theorem Block.setBit_dfe (b : Block) (d : RegDesc) (i k n : Nat) : (b.setBit d i k n).dfe = b.dfe := rfl
@[simp] theorem Block.setBit_prt (b : Block) (d : RegDesc) (i k n : Nat) : (b.setBit d i k n).prt = b.prt := rfl
@[simp] theorem Block.setBit_str (b : Block) (d : RegDesc) (i k n : Nat) : (b.setBit d i k n).str = b.str := rfl
@[simp] theorem Block.setBit_out (b : Block) (d : RegDesc) (i k n : Nat) : (b.setBit d i k n).out = b.out := rfl
@[simp] theorem Block.setBit_cas (b : Block) (d : RegDesc) (i k n : Nat) : (b.setBit d i k n).cas = b.cas := rfl
@[simp] theorem Block.setBit_rpl (b : Block) (d : RegDesc) (i k n : Nat) : (b.setBit d i k n).rpl = b.rpl := rfl
@[simp] theorem Block.setBit_isl (b : Block) (d : RegDesc) (i k n : Nat) : (b.setBit d i k n).isl = b.isl := rfl
@[simp] theorem Block.setBit_alm (b : Block) (d : RegDesc) (i k n : Nat) : (b.setBit d i k n).alm = b.alm := rfl
@[simp] theorem Block.setBit_cmp (b : Block) (d : RegDesc) (i k n : Nat) : (b.setBit d i k n).cmp = b.cmp := rfl
@[simp] theorem Block.setBit_sdm (b : Block) (d : RegDesc) (i k n : Nat) : (b.setBit d i k n).sdm = b.sdm := rfl
@[simp] theorem Block.setBit_nrg (b : Block) (d : RegDesc) (i k n : Nat) : (b.setBit d i k n).nrg = b.nrg := rfl
@[simp] theorem Block.setBit_cap (b : Block) (d : RegDesc) (i k n : Nat) : (b.setBit d i k n).cap = b.cap := rfl
@[simp] theorem Block.setBit_rad (b : Block) (d : RegDesc) (i k n : Nat) : (b.setBit d i k n).rad = b.rad := rfl
@[simp] theorem Block.setBit_red (b : Block) (d : RegDesc) (i k n : Nat) : (b.setBit d i k n).red = b.red := rfl

/-! ### Registers: clearBit -/

@[simp] theorem Block.clearBit_t7 (b : Block) (key n : Nat) : (b.clearBit key n).t7 = b.t7 := rfl
@[simp] theorem Block.clearBit_free (b : Block) (key n : Nat) : (b.clearBit key n).free = b.free := rfl
@[simp] theorem Block.clearBit_resp (b : Block) (key n : Nat) : (b.clearBit key n).resp = b.resp := rfl
@[simp] theorem Block.clearBit_latch (b : Block) (key n : Nat) : (b.clearBit key n).latch = b.latch := rfl
@[simp] theorem Block.clearBit_rep (b : Block) (key n : Nat) : (b.clearBit key n).rep = b.rep := rfl
@[simp] theorem Block.clearBit_mem (b : Block) (key n : Nat) : (b.clearBit key n).mem = b.mem := rfl
@[simp] theorem Block.clearBit_evr (b : Block) (key n : Nat) : (b.clearBit key n).evr = b.evr := rfl
@[simp] theorem Block.clearBit_sys (b : Block) (key n : Nat) : (b.clearBit key n).sys = b.sys := rfl
@[simp] theorem Block.clearBit_pwr (b : Block) (key n : Nat) : (b.clearBit key n).pwr = b.pwr := rfl
@[simp] theorem Block.clearBit_key (b : Block) (key n : Nat) : (b.clearBit key n).key = b.key := rfl
@[simp] theorem Block.clearBit_tam (b : Block) (key n : Nat) : (b.clearBit key n).tam = b.tam := rfl
@[simp] theorem Block.clearBit_acc (b : Block) (key n : Nat) : (b.clearBit key n).acc = b.acc := rfl
@[simp] theorem Block.clearBit_tim (b : Block) (key n : Nat) : (b.clearBit key n).tim = b.tim := rfl
@[simp] theorem Block.clearBit_aln (b : Block) (key n : Nat) : (b.clearBit key n).aln = b.aln := rfl
@[simp] theorem Block.clearBit_mm (b : Block) (key n : Nat) : (b.clearBit key n).mm = b.mm := rfl
@[simp] theorem Block.clearBit_dma (b : Block) (key n : Nat) : (b.clearBit key n).dma = b.dma := rfl
@[simp] theorem Block.clearBit_que (b : Block) (key n : Nat) : (b.clearBit key n).que = b.que := rfl
@[simp] theorem Block.clearBit_dfe (b : Block) (key n : Nat) : (b.clearBit key n).dfe = b.dfe := rfl
@[simp] theorem Block.clearBit_prt (b : Block) (key n : Nat) : (b.clearBit key n).prt = b.prt := rfl
@[simp] theorem Block.clearBit_str (b : Block) (key n : Nat) : (b.clearBit key n).str = b.str := rfl
@[simp] theorem Block.clearBit_out (b : Block) (key n : Nat) : (b.clearBit key n).out = b.out := rfl
@[simp] theorem Block.clearBit_cas (b : Block) (key n : Nat) : (b.clearBit key n).cas = b.cas := rfl
@[simp] theorem Block.clearBit_rpl (b : Block) (key n : Nat) : (b.clearBit key n).rpl = b.rpl := rfl
@[simp] theorem Block.clearBit_isl (b : Block) (key n : Nat) : (b.clearBit key n).isl = b.isl := rfl
@[simp] theorem Block.clearBit_alm (b : Block) (key n : Nat) : (b.clearBit key n).alm = b.alm := rfl
@[simp] theorem Block.clearBit_cmp (b : Block) (key n : Nat) : (b.clearBit key n).cmp = b.cmp := rfl
@[simp] theorem Block.clearBit_sdm (b : Block) (key n : Nat) : (b.clearBit key n).sdm = b.sdm := rfl
@[simp] theorem Block.clearBit_nrg (b : Block) (key n : Nat) : (b.clearBit key n).nrg = b.nrg := rfl
@[simp] theorem Block.clearBit_cap (b : Block) (key n : Nat) : (b.clearBit key n).cap = b.cap := rfl
@[simp] theorem Block.clearBit_rad (b : Block) (key n : Nat) : (b.clearBit key n).rad = b.rad := rfl
@[simp] theorem Block.clearBit_red (b : Block) (key n : Nat) : (b.clearBit key n).red = b.red := rfl

/-! ### Registers: uncount -/

@[simp] theorem Block.uncount_t7 (b : Block) (d : RegDesc) (i k n : Nat) : (b.uncount d i k n).t7 = b.t7 := rfl
@[simp] theorem Block.uncount_free (b : Block) (d : RegDesc) (i k n : Nat) : (b.uncount d i k n).free = b.free := rfl
@[simp] theorem Block.uncount_resp (b : Block) (d : RegDesc) (i k n : Nat) : (b.uncount d i k n).resp = b.resp := rfl
@[simp] theorem Block.uncount_latch (b : Block) (d : RegDesc) (i k n : Nat) : (b.uncount d i k n).latch = b.latch := rfl
@[simp] theorem Block.uncount_rep (b : Block) (d : RegDesc) (i k n : Nat) : (b.uncount d i k n).rep = b.rep := rfl
@[simp] theorem Block.uncount_mem (b : Block) (d : RegDesc) (i k n : Nat) : (b.uncount d i k n).mem = b.mem := rfl
@[simp] theorem Block.uncount_evr (b : Block) (d : RegDesc) (i k n : Nat) : (b.uncount d i k n).evr = b.evr := rfl
@[simp] theorem Block.uncount_sys (b : Block) (d : RegDesc) (i k n : Nat) : (b.uncount d i k n).sys = b.sys := rfl
@[simp] theorem Block.uncount_pwr (b : Block) (d : RegDesc) (i k n : Nat) : (b.uncount d i k n).pwr = b.pwr := rfl
@[simp] theorem Block.uncount_key (b : Block) (d : RegDesc) (i k n : Nat) : (b.uncount d i k n).key = b.key := rfl
@[simp] theorem Block.uncount_tam (b : Block) (d : RegDesc) (i k n : Nat) : (b.uncount d i k n).tam = b.tam := rfl
@[simp] theorem Block.uncount_acc (b : Block) (d : RegDesc) (i k n : Nat) : (b.uncount d i k n).acc = b.acc := rfl
@[simp] theorem Block.uncount_tim (b : Block) (d : RegDesc) (i k n : Nat) : (b.uncount d i k n).tim = b.tim := rfl
@[simp] theorem Block.uncount_aln (b : Block) (d : RegDesc) (i k n : Nat) : (b.uncount d i k n).aln = b.aln := rfl
@[simp] theorem Block.uncount_mm (b : Block) (d : RegDesc) (i k n : Nat) : (b.uncount d i k n).mm = b.mm := rfl
@[simp] theorem Block.uncount_dma (b : Block) (d : RegDesc) (i k n : Nat) : (b.uncount d i k n).dma = b.dma := rfl
@[simp] theorem Block.uncount_que (b : Block) (d : RegDesc) (i k n : Nat) : (b.uncount d i k n).que = b.que := rfl
@[simp] theorem Block.uncount_dfe (b : Block) (d : RegDesc) (i k n : Nat) : (b.uncount d i k n).dfe = b.dfe := rfl
@[simp] theorem Block.uncount_prt (b : Block) (d : RegDesc) (i k n : Nat) : (b.uncount d i k n).prt = b.prt := rfl
@[simp] theorem Block.uncount_str (b : Block) (d : RegDesc) (i k n : Nat) : (b.uncount d i k n).str = b.str := rfl
@[simp] theorem Block.uncount_out (b : Block) (d : RegDesc) (i k n : Nat) : (b.uncount d i k n).out = b.out := rfl
@[simp] theorem Block.uncount_cas (b : Block) (d : RegDesc) (i k n : Nat) : (b.uncount d i k n).cas = b.cas := rfl
@[simp] theorem Block.uncount_rpl (b : Block) (d : RegDesc) (i k n : Nat) : (b.uncount d i k n).rpl = b.rpl := rfl
@[simp] theorem Block.uncount_isl (b : Block) (d : RegDesc) (i k n : Nat) : (b.uncount d i k n).isl = b.isl := rfl
@[simp] theorem Block.uncount_alm (b : Block) (d : RegDesc) (i k n : Nat) : (b.uncount d i k n).alm = b.alm := rfl
@[simp] theorem Block.uncount_cmp (b : Block) (d : RegDesc) (i k n : Nat) : (b.uncount d i k n).cmp = b.cmp := rfl
@[simp] theorem Block.uncount_sdm (b : Block) (d : RegDesc) (i k n : Nat) : (b.uncount d i k n).sdm = b.sdm := rfl
@[simp] theorem Block.uncount_nrg (b : Block) (d : RegDesc) (i k n : Nat) : (b.uncount d i k n).nrg = b.nrg := rfl
@[simp] theorem Block.uncount_cap (b : Block) (d : RegDesc) (i k n : Nat) : (b.uncount d i k n).cap = b.cap := rfl
@[simp] theorem Block.uncount_rad (b : Block) (d : RegDesc) (i k n : Nat) : (b.uncount d i k n).rad = b.rad := rfl
@[simp] theorem Block.uncount_red (b : Block) (d : RegDesc) (i k n : Nat) : (b.uncount d i k n).red = b.red := rfl

/-! ### Registers: irq -/

@[simp] theorem Block.irq_t7 (b : Block) (blk n : Nat) : (b.irq blk n).t7 = b.t7 := rfl
@[simp] theorem Block.irq_free (b : Block) (blk n : Nat) : (b.irq blk n).free = b.free := rfl
@[simp] theorem Block.irq_resp (b : Block) (blk n : Nat) : (b.irq blk n).resp = b.resp := rfl
@[simp] theorem Block.irq_latch (b : Block) (blk n : Nat) : (b.irq blk n).latch = b.latch := rfl
@[simp] theorem Block.irq_rep (b : Block) (blk n : Nat) : (b.irq blk n).rep = b.rep := rfl
@[simp] theorem Block.irq_mem (b : Block) (blk n : Nat) : (b.irq blk n).mem = b.mem := rfl
@[simp] theorem Block.irq_evr (b : Block) (blk n : Nat) : (b.irq blk n).evr = b.evr := rfl
@[simp] theorem Block.irq_sys (b : Block) (blk n : Nat) : (b.irq blk n).sys = b.sys := rfl
@[simp] theorem Block.irq_pwr (b : Block) (blk n : Nat) : (b.irq blk n).pwr = b.pwr := rfl
@[simp] theorem Block.irq_key (b : Block) (blk n : Nat) : (b.irq blk n).key = b.key := rfl
@[simp] theorem Block.irq_tam (b : Block) (blk n : Nat) : (b.irq blk n).tam = b.tam := rfl
@[simp] theorem Block.irq_acc (b : Block) (blk n : Nat) : (b.irq blk n).acc = b.acc := rfl
@[simp] theorem Block.irq_tim (b : Block) (blk n : Nat) : (b.irq blk n).tim = b.tim := rfl
@[simp] theorem Block.irq_aln (b : Block) (blk n : Nat) : (b.irq blk n).aln = b.aln := rfl
@[simp] theorem Block.irq_mm (b : Block) (blk n : Nat) : (b.irq blk n).mm = b.mm := rfl
@[simp] theorem Block.irq_dma (b : Block) (blk n : Nat) : (b.irq blk n).dma = b.dma := rfl
@[simp] theorem Block.irq_que (b : Block) (blk n : Nat) : (b.irq blk n).que = b.que := rfl
@[simp] theorem Block.irq_dfe (b : Block) (blk n : Nat) : (b.irq blk n).dfe = b.dfe := rfl
@[simp] theorem Block.irq_prt (b : Block) (blk n : Nat) : (b.irq blk n).prt = b.prt := rfl
@[simp] theorem Block.irq_str (b : Block) (blk n : Nat) : (b.irq blk n).str = b.str := rfl
@[simp] theorem Block.irq_out (b : Block) (blk n : Nat) : (b.irq blk n).out = b.out := rfl
@[simp] theorem Block.irq_cas (b : Block) (blk n : Nat) : (b.irq blk n).cas = b.cas := rfl
@[simp] theorem Block.irq_rpl (b : Block) (blk n : Nat) : (b.irq blk n).rpl = b.rpl := rfl
@[simp] theorem Block.irq_isl (b : Block) (blk n : Nat) : (b.irq blk n).isl = b.isl := rfl
@[simp] theorem Block.irq_alm (b : Block) (blk n : Nat) : (b.irq blk n).alm = b.alm := rfl
@[simp] theorem Block.irq_cmp (b : Block) (blk n : Nat) : (b.irq blk n).cmp = b.cmp := rfl
@[simp] theorem Block.irq_sdm (b : Block) (blk n : Nat) : (b.irq blk n).sdm = b.sdm := rfl
@[simp] theorem Block.irq_nrg (b : Block) (blk n : Nat) : (b.irq blk n).nrg = b.nrg := rfl
@[simp] theorem Block.irq_cap (b : Block) (blk n : Nat) : (b.irq blk n).cap = b.cap := rfl
@[simp] theorem Block.irq_rad (b : Block) (blk n : Nat) : (b.irq blk n).rad = b.rad := rfl
@[simp] theorem Block.irq_red (b : Block) (blk n : Nat) : (b.irq blk n).red = b.red := rfl

/-! ### Registers: markDirty -/

@[simp] theorem Block.markDirty_t7 (b : Block) (key : Nat) : (b.markDirty key).t7 = b.t7 := by unfold Block.markDirty; dsimp only; split <;> rfl
@[simp] theorem Block.markDirty_free (b : Block) (key : Nat) : (b.markDirty key).free = b.free := by unfold Block.markDirty; dsimp only; split <;> rfl
@[simp] theorem Block.markDirty_resp (b : Block) (key : Nat) : (b.markDirty key).resp = b.resp := by unfold Block.markDirty; dsimp only; split <;> rfl
@[simp] theorem Block.markDirty_latch (b : Block) (key : Nat) : (b.markDirty key).latch = b.latch := by unfold Block.markDirty; dsimp only; split <;> rfl
@[simp] theorem Block.markDirty_rep (b : Block) (key : Nat) : (b.markDirty key).rep = b.rep := by unfold Block.markDirty; dsimp only; split <;> rfl
@[simp] theorem Block.markDirty_mem (b : Block) (key : Nat) : (b.markDirty key).mem = b.mem := by unfold Block.markDirty; dsimp only; split <;> rfl
@[simp] theorem Block.markDirty_evr (b : Block) (key : Nat) : (b.markDirty key).evr = b.evr := by unfold Block.markDirty; dsimp only; split <;> rfl
@[simp] theorem Block.markDirty_sys (b : Block) (key : Nat) : (b.markDirty key).sys = b.sys := by unfold Block.markDirty; dsimp only; split <;> rfl
@[simp] theorem Block.markDirty_pwr (b : Block) (key : Nat) : (b.markDirty key).pwr = b.pwr := by unfold Block.markDirty; dsimp only; split <;> rfl
@[simp] theorem Block.markDirty_key (b : Block) (key : Nat) : (b.markDirty key).key = b.key := by unfold Block.markDirty; dsimp only; split <;> rfl
@[simp] theorem Block.markDirty_tam (b : Block) (key : Nat) : (b.markDirty key).tam = b.tam := by unfold Block.markDirty; dsimp only; split <;> rfl
@[simp] theorem Block.markDirty_acc (b : Block) (key : Nat) : (b.markDirty key).acc = b.acc := by unfold Block.markDirty; dsimp only; split <;> rfl
@[simp] theorem Block.markDirty_tim (b : Block) (key : Nat) : (b.markDirty key).tim = b.tim := by unfold Block.markDirty; dsimp only; split <;> rfl
@[simp] theorem Block.markDirty_aln (b : Block) (key : Nat) : (b.markDirty key).aln = b.aln := by unfold Block.markDirty; dsimp only; split <;> rfl
@[simp] theorem Block.markDirty_mm (b : Block) (key : Nat) : (b.markDirty key).mm = b.mm := by unfold Block.markDirty; dsimp only; split <;> rfl
@[simp] theorem Block.markDirty_dma (b : Block) (key : Nat) : (b.markDirty key).dma = b.dma := by unfold Block.markDirty; dsimp only; split <;> rfl
@[simp] theorem Block.markDirty_que (b : Block) (key : Nat) : (b.markDirty key).que = b.que := by unfold Block.markDirty; dsimp only; split <;> rfl
@[simp] theorem Block.markDirty_dfe (b : Block) (key : Nat) : (b.markDirty key).dfe = b.dfe := by unfold Block.markDirty; dsimp only; split <;> rfl
@[simp] theorem Block.markDirty_prt (b : Block) (key : Nat) : (b.markDirty key).prt = b.prt := by unfold Block.markDirty; dsimp only; split <;> rfl
@[simp] theorem Block.markDirty_str (b : Block) (key : Nat) : (b.markDirty key).str = b.str := by unfold Block.markDirty; dsimp only; split <;> rfl
@[simp] theorem Block.markDirty_out (b : Block) (key : Nat) : (b.markDirty key).out = b.out := by unfold Block.markDirty; dsimp only; split <;> rfl
@[simp] theorem Block.markDirty_cas (b : Block) (key : Nat) : (b.markDirty key).cas = b.cas := by unfold Block.markDirty; dsimp only; split <;> rfl
@[simp] theorem Block.markDirty_rpl (b : Block) (key : Nat) : (b.markDirty key).rpl = b.rpl := by unfold Block.markDirty; dsimp only; split <;> rfl
@[simp] theorem Block.markDirty_isl (b : Block) (key : Nat) : (b.markDirty key).isl = b.isl := by unfold Block.markDirty; dsimp only; split <;> rfl
@[simp] theorem Block.markDirty_alm (b : Block) (key : Nat) : (b.markDirty key).alm = b.alm := by unfold Block.markDirty; dsimp only; split <;> rfl
@[simp] theorem Block.markDirty_cmp (b : Block) (key : Nat) : (b.markDirty key).cmp = b.cmp := by unfold Block.markDirty; dsimp only; split <;> rfl
@[simp] theorem Block.markDirty_sdm (b : Block) (key : Nat) : (b.markDirty key).sdm = b.sdm := by unfold Block.markDirty; dsimp only; split <;> rfl
@[simp] theorem Block.markDirty_nrg (b : Block) (key : Nat) : (b.markDirty key).nrg = b.nrg := by unfold Block.markDirty; dsimp only; split <;> rfl
@[simp] theorem Block.markDirty_cap (b : Block) (key : Nat) : (b.markDirty key).cap = b.cap := by unfold Block.markDirty; dsimp only; split <;> rfl
@[simp] theorem Block.markDirty_rad (b : Block) (key : Nat) : (b.markDirty key).rad = b.rad := by unfold Block.markDirty; dsimp only; split <;> rfl
@[simp] theorem Block.markDirty_red (b : Block) (key : Nat) : (b.markDirty key).red = b.red := by unfold Block.markDirty; dsimp only; split <;> rfl

/-! ### Registers: promote, handedOver -/

@[simp] theorem Block.promote_t7 (b : Block) (ks : List Nat) : (b.promote ks).t7 = b.t7 := rfl
@[simp] theorem Block.promote_free (b : Block) (ks : List Nat) : (b.promote ks).free = b.free := rfl
@[simp] theorem Block.promote_resp (b : Block) (ks : List Nat) : (b.promote ks).resp = b.resp := rfl
@[simp] theorem Block.promote_latch (b : Block) (ks : List Nat) : (b.promote ks).latch = b.latch := rfl
@[simp] theorem Block.promote_rep (b : Block) (ks : List Nat) : (b.promote ks).rep = b.rep := rfl
@[simp] theorem Block.promote_mem (b : Block) (ks : List Nat) : (b.promote ks).mem = b.mem := rfl
@[simp] theorem Block.promote_evr (b : Block) (ks : List Nat) : (b.promote ks).evr = b.evr := rfl
@[simp] theorem Block.promote_sys (b : Block) (ks : List Nat) : (b.promote ks).sys = b.sys := rfl
@[simp] theorem Block.promote_pwr (b : Block) (ks : List Nat) : (b.promote ks).pwr = b.pwr := rfl
@[simp] theorem Block.promote_key (b : Block) (ks : List Nat) : (b.promote ks).key = b.key := rfl
@[simp] theorem Block.promote_tam (b : Block) (ks : List Nat) : (b.promote ks).tam = b.tam := rfl
@[simp] theorem Block.promote_acc (b : Block) (ks : List Nat) : (b.promote ks).acc = b.acc := rfl
@[simp] theorem Block.promote_tim (b : Block) (ks : List Nat) : (b.promote ks).tim = b.tim := rfl
@[simp] theorem Block.promote_aln (b : Block) (ks : List Nat) : (b.promote ks).aln = b.aln := rfl
@[simp] theorem Block.promote_mm (b : Block) (ks : List Nat) : (b.promote ks).mm = b.mm := rfl
@[simp] theorem Block.promote_dma (b : Block) (ks : List Nat) : (b.promote ks).dma = b.dma := rfl
@[simp] theorem Block.promote_que (b : Block) (ks : List Nat) : (b.promote ks).que = b.que := rfl
@[simp] theorem Block.promote_dfe (b : Block) (ks : List Nat) : (b.promote ks).dfe = b.dfe := rfl
@[simp] theorem Block.promote_prt (b : Block) (ks : List Nat) : (b.promote ks).prt = b.prt := rfl
@[simp] theorem Block.promote_str (b : Block) (ks : List Nat) : (b.promote ks).str = b.str := rfl
@[simp] theorem Block.promote_out (b : Block) (ks : List Nat) : (b.promote ks).out = b.out := rfl
@[simp] theorem Block.promote_cas (b : Block) (ks : List Nat) : (b.promote ks).cas = b.cas := rfl
@[simp] theorem Block.promote_rpl (b : Block) (ks : List Nat) : (b.promote ks).rpl = b.rpl := rfl
@[simp] theorem Block.promote_isl (b : Block) (ks : List Nat) : (b.promote ks).isl = b.isl := rfl
@[simp] theorem Block.promote_alm (b : Block) (ks : List Nat) : (b.promote ks).alm = b.alm := rfl
@[simp] theorem Block.promote_cmp (b : Block) (ks : List Nat) : (b.promote ks).cmp = b.cmp := rfl
@[simp] theorem Block.promote_sdm (b : Block) (ks : List Nat) : (b.promote ks).sdm = b.sdm := rfl
@[simp] theorem Block.promote_nrg (b : Block) (ks : List Nat) : (b.promote ks).nrg = b.nrg := rfl
@[simp] theorem Block.promote_cap (b : Block) (ks : List Nat) : (b.promote ks).cap = b.cap := rfl
@[simp] theorem Block.promote_rad (b : Block) (ks : List Nat) : (b.promote ks).rad = b.rad := rfl
@[simp] theorem Block.promote_red (b : Block) (ks : List Nat) : (b.promote ks).red = b.red := rfl
@[simp] theorem Block.handedOver_t7 (b : Block) (sets : Tbl Word) : (b.handedOver sets).t7 = b.t7 := rfl
@[simp] theorem Block.handedOver_free (b : Block) (sets : Tbl Word) : (b.handedOver sets).free = b.free := rfl
@[simp] theorem Block.handedOver_resp (b : Block) (sets : Tbl Word) : (b.handedOver sets).resp = b.resp := rfl
@[simp] theorem Block.handedOver_latch (b : Block) (sets : Tbl Word) : (b.handedOver sets).latch = b.latch := rfl
@[simp] theorem Block.handedOver_rep (b : Block) (sets : Tbl Word) : (b.handedOver sets).rep = b.rep := rfl
@[simp] theorem Block.handedOver_mem (b : Block) (sets : Tbl Word) : (b.handedOver sets).mem = b.mem := rfl
@[simp] theorem Block.handedOver_evr (b : Block) (sets : Tbl Word) : (b.handedOver sets).evr = b.evr := rfl
@[simp] theorem Block.handedOver_sys (b : Block) (sets : Tbl Word) : (b.handedOver sets).sys = b.sys := rfl
@[simp] theorem Block.handedOver_pwr (b : Block) (sets : Tbl Word) : (b.handedOver sets).pwr = b.pwr := rfl
@[simp] theorem Block.handedOver_key (b : Block) (sets : Tbl Word) : (b.handedOver sets).key = b.key := rfl
@[simp] theorem Block.handedOver_tam (b : Block) (sets : Tbl Word) : (b.handedOver sets).tam = b.tam := rfl
@[simp] theorem Block.handedOver_acc (b : Block) (sets : Tbl Word) : (b.handedOver sets).acc = b.acc := rfl
@[simp] theorem Block.handedOver_tim (b : Block) (sets : Tbl Word) : (b.handedOver sets).tim = b.tim := rfl
@[simp] theorem Block.handedOver_aln (b : Block) (sets : Tbl Word) : (b.handedOver sets).aln = b.aln := rfl
@[simp] theorem Block.handedOver_mm (b : Block) (sets : Tbl Word) : (b.handedOver sets).mm = b.mm := rfl
@[simp] theorem Block.handedOver_dma (b : Block) (sets : Tbl Word) : (b.handedOver sets).dma = b.dma := rfl
@[simp] theorem Block.handedOver_que (b : Block) (sets : Tbl Word) : (b.handedOver sets).que = b.que := rfl
@[simp] theorem Block.handedOver_dfe (b : Block) (sets : Tbl Word) : (b.handedOver sets).dfe = b.dfe := rfl
@[simp] theorem Block.handedOver_prt (b : Block) (sets : Tbl Word) : (b.handedOver sets).prt = b.prt := rfl
@[simp] theorem Block.handedOver_str (b : Block) (sets : Tbl Word) : (b.handedOver sets).str = b.str := rfl
@[simp] theorem Block.handedOver_out (b : Block) (sets : Tbl Word) : (b.handedOver sets).out = b.out := rfl
@[simp] theorem Block.handedOver_cas (b : Block) (sets : Tbl Word) : (b.handedOver sets).cas = b.cas := rfl
@[simp] theorem Block.handedOver_rpl (b : Block) (sets : Tbl Word) : (b.handedOver sets).rpl = b.rpl := rfl
@[simp] theorem Block.handedOver_isl (b : Block) (sets : Tbl Word) : (b.handedOver sets).isl = b.isl := rfl
@[simp] theorem Block.handedOver_alm (b : Block) (sets : Tbl Word) : (b.handedOver sets).alm = b.alm := rfl
@[simp] theorem Block.handedOver_cmp (b : Block) (sets : Tbl Word) : (b.handedOver sets).cmp = b.cmp := rfl
@[simp] theorem Block.handedOver_sdm (b : Block) (sets : Tbl Word) : (b.handedOver sets).sdm = b.sdm := rfl
@[simp] theorem Block.handedOver_nrg (b : Block) (sets : Tbl Word) : (b.handedOver sets).nrg = b.nrg := rfl
@[simp] theorem Block.handedOver_cap (b : Block) (sets : Tbl Word) : (b.handedOver sets).cap = b.cap := rfl
@[simp] theorem Block.handedOver_rad (b : Block) (sets : Tbl Word) : (b.handedOver sets).rad = b.rad := rfl
@[simp] theorem Block.handedOver_red (b : Block) (sets : Tbl Word) : (b.handedOver sets).red = b.red := rfl
@[simp] theorem Block.promote_vis (b : Block) (ks : List Nat) : (b.promote ks).regs.vis = b.regs.vis := rfl
@[simp] theorem Block.promote_act (b : Block) (ks : List Nat) : (b.promote ks).regs.act = b.regs.act := rfl
@[simp] theorem Block.promote_locked (b : Block) (ks : List Nat) : (b.promote ks).regs.locked = b.regs.locked := rfl
@[simp] theorem Block.handedOver_vis (b : Block) (sets : Tbl Word) : (b.handedOver sets).regs.vis = b.regs.vis := rfl
@[simp] theorem Block.handedOver_act (b : Block) (sets : Tbl Word) : (b.handedOver sets).regs.act = b.regs.act := rfl
@[simp] theorem Block.handedOver_locked (b : Block) (sets : Tbl Word) : (b.handedOver sets).regs.locked = b.regs.locked := rfl

/-! ### Registers: the copies -/

@[simp] theorem Block.setVis_act (b : Block) (d : RegDesc) (i k : Nat) (w : Word) : (b.setVis d i k w).regs.act = b.regs.act := rfl
@[simp] theorem Block.setVis_com (b : Block) (d : RegDesc) (i k : Nat) (w : Word) : (b.setVis d i k w).regs.com = b.regs.com := rfl
@[simp] theorem Block.setVis_dirty (b : Block) (d : RegDesc) (i k : Nat) (w : Word) : (b.setVis d i k w).regs.dirty = b.regs.dirty := rfl
@[simp] theorem Block.setVis_locked (b : Block) (d : RegDesc) (i k : Nat) (w : Word) : (b.setVis d i k w).regs.locked = b.regs.locked := rfl
@[simp] theorem Block.setVis_fresh (b : Block) (d : RegDesc) (i k : Nat) (w : Word) : (b.setVis d i k w).regs.fresh = b.regs.fresh := rfl
@[simp] theorem Block.setVis_late (b : Block) (d : RegDesc) (i k : Nat) (w : Word) : (b.setVis d i k w).regs.late = b.regs.late := rfl
@[simp] theorem Block.setAct_vis (b : Block) (d : RegDesc) (i k : Nat) (w : Word) : (b.setAct d i k w).regs.vis = b.regs.vis := rfl
@[simp] theorem Block.setAct_com (b : Block) (d : RegDesc) (i k : Nat) (w : Word) : (b.setAct d i k w).regs.com = b.regs.com := rfl
@[simp] theorem Block.setAct_dirty (b : Block) (d : RegDesc) (i k : Nat) (w : Word) : (b.setAct d i k w).regs.dirty = b.regs.dirty := rfl
@[simp] theorem Block.setAct_locked (b : Block) (d : RegDesc) (i k : Nat) (w : Word) : (b.setAct d i k w).regs.locked = b.regs.locked := rfl
@[simp] theorem Block.setAct_fresh (b : Block) (d : RegDesc) (i k : Nat) (w : Word) : (b.setAct d i k w).regs.fresh = b.regs.fresh := rfl
@[simp] theorem Block.setAct_late (b : Block) (d : RegDesc) (i k : Nat) (w : Word) : (b.setAct d i k w).regs.late = b.regs.late := rfl

/-! ### Registers: commit -/

@[simp] theorem Block.commit_t7 (b : Block) (blk : Nat) : (b.commit blk).t7 = b.t7 := rfl
@[simp] theorem Block.commit_free (b : Block) (blk : Nat) : (b.commit blk).free = b.free := rfl
@[simp] theorem Block.commit_resp (b : Block) (blk : Nat) : (b.commit blk).resp = b.resp := rfl
@[simp] theorem Block.commit_latch (b : Block) (blk : Nat) : (b.commit blk).latch = b.latch := rfl
@[simp] theorem Block.commit_rep (b : Block) (blk : Nat) : (b.commit blk).rep = b.rep := rfl
@[simp] theorem Block.commit_mem (b : Block) (blk : Nat) : (b.commit blk).mem = b.mem := rfl
@[simp] theorem Block.commit_evr (b : Block) (blk : Nat) : (b.commit blk).evr = b.evr := rfl
@[simp] theorem Block.commit_sys (b : Block) (blk : Nat) : (b.commit blk).sys = b.sys := rfl
@[simp] theorem Block.commit_pwr (b : Block) (blk : Nat) : (b.commit blk).pwr = b.pwr := rfl
@[simp] theorem Block.commit_key (b : Block) (blk : Nat) : (b.commit blk).key = b.key := rfl
@[simp] theorem Block.commit_tam (b : Block) (blk : Nat) : (b.commit blk).tam = b.tam := rfl
@[simp] theorem Block.commit_acc (b : Block) (blk : Nat) : (b.commit blk).acc = b.acc := rfl
@[simp] theorem Block.commit_tim (b : Block) (blk : Nat) : (b.commit blk).tim = b.tim := rfl
@[simp] theorem Block.commit_aln (b : Block) (blk : Nat) : (b.commit blk).aln = b.aln := rfl
@[simp] theorem Block.commit_mm (b : Block) (blk : Nat) : (b.commit blk).mm = b.mm := rfl
@[simp] theorem Block.commit_dma (b : Block) (blk : Nat) : (b.commit blk).dma = b.dma := rfl
@[simp] theorem Block.commit_que (b : Block) (blk : Nat) : (b.commit blk).que = b.que := rfl
@[simp] theorem Block.commit_dfe (b : Block) (blk : Nat) : (b.commit blk).dfe = b.dfe := rfl
@[simp] theorem Block.commit_prt (b : Block) (blk : Nat) : (b.commit blk).prt = b.prt := rfl
@[simp] theorem Block.commit_str (b : Block) (blk : Nat) : (b.commit blk).str = b.str := rfl
@[simp] theorem Block.commit_out (b : Block) (blk : Nat) : (b.commit blk).out = b.out := rfl
@[simp] theorem Block.commit_cas (b : Block) (blk : Nat) : (b.commit blk).cas = b.cas := rfl
@[simp] theorem Block.commit_rpl (b : Block) (blk : Nat) : (b.commit blk).rpl = b.rpl := rfl
@[simp] theorem Block.commit_isl (b : Block) (blk : Nat) : (b.commit blk).isl = b.isl := rfl
@[simp] theorem Block.commit_alm (b : Block) (blk : Nat) : (b.commit blk).alm = b.alm := rfl
@[simp] theorem Block.commit_cmp (b : Block) (blk : Nat) : (b.commit blk).cmp = b.cmp := rfl
@[simp] theorem Block.commit_sdm (b : Block) (blk : Nat) : (b.commit blk).sdm = b.sdm := rfl
@[simp] theorem Block.commit_nrg (b : Block) (blk : Nat) : (b.commit blk).nrg = b.nrg := rfl
@[simp] theorem Block.commit_cap (b : Block) (blk : Nat) : (b.commit blk).cap = b.cap := rfl
@[simp] theorem Block.commit_rad (b : Block) (blk : Nat) : (b.commit blk).rad = b.rad := rfl
@[simp] theorem Block.commit_red (b : Block) (blk : Nat) : (b.commit blk).red = b.red := rfl

/-- A counter writes registers only. -/
theorem Block.count_eq (b : Block) (d : RegDesc) (i k n : Nat) : ∃ r, b.count d i k n = { b with regs := r } := by
  unfold Block.count
  dsimp only
  split
  · exact ⟨_, rfl⟩
  · split
    · exact ⟨_, rfl⟩
    · exact ⟨_, rfl⟩

/-! ### Counters -/

@[simp] theorem Block.count_t7 (b : Block) (d : RegDesc) (i k n : Nat) : (b.count d i k n).t7 = b.t7 := by obtain ⟨r, h⟩ := b.count_eq d i k n; rw [h]
@[simp] theorem Block.count_free (b : Block) (d : RegDesc) (i k n : Nat) : (b.count d i k n).free = b.free := by obtain ⟨r, h⟩ := b.count_eq d i k n; rw [h]
@[simp] theorem Block.count_resp (b : Block) (d : RegDesc) (i k n : Nat) : (b.count d i k n).resp = b.resp := by obtain ⟨r, h⟩ := b.count_eq d i k n; rw [h]
@[simp] theorem Block.count_latch (b : Block) (d : RegDesc) (i k n : Nat) : (b.count d i k n).latch = b.latch := by obtain ⟨r, h⟩ := b.count_eq d i k n; rw [h]
@[simp] theorem Block.count_rep (b : Block) (d : RegDesc) (i k n : Nat) : (b.count d i k n).rep = b.rep := by obtain ⟨r, h⟩ := b.count_eq d i k n; rw [h]
@[simp] theorem Block.count_mem (b : Block) (d : RegDesc) (i k n : Nat) : (b.count d i k n).mem = b.mem := by obtain ⟨r, h⟩ := b.count_eq d i k n; rw [h]
@[simp] theorem Block.count_evr (b : Block) (d : RegDesc) (i k n : Nat) : (b.count d i k n).evr = b.evr := by obtain ⟨r, h⟩ := b.count_eq d i k n; rw [h]
@[simp] theorem Block.count_sys (b : Block) (d : RegDesc) (i k n : Nat) : (b.count d i k n).sys = b.sys := by obtain ⟨r, h⟩ := b.count_eq d i k n; rw [h]
@[simp] theorem Block.count_pwr (b : Block) (d : RegDesc) (i k n : Nat) : (b.count d i k n).pwr = b.pwr := by obtain ⟨r, h⟩ := b.count_eq d i k n; rw [h]
@[simp] theorem Block.count_key (b : Block) (d : RegDesc) (i k n : Nat) : (b.count d i k n).key = b.key := by obtain ⟨r, h⟩ := b.count_eq d i k n; rw [h]
@[simp] theorem Block.count_tam (b : Block) (d : RegDesc) (i k n : Nat) : (b.count d i k n).tam = b.tam := by obtain ⟨r, h⟩ := b.count_eq d i k n; rw [h]
@[simp] theorem Block.count_acc (b : Block) (d : RegDesc) (i k n : Nat) : (b.count d i k n).acc = b.acc := by obtain ⟨r, h⟩ := b.count_eq d i k n; rw [h]
@[simp] theorem Block.count_tim (b : Block) (d : RegDesc) (i k n : Nat) : (b.count d i k n).tim = b.tim := by obtain ⟨r, h⟩ := b.count_eq d i k n; rw [h]
@[simp] theorem Block.count_aln (b : Block) (d : RegDesc) (i k n : Nat) : (b.count d i k n).aln = b.aln := by obtain ⟨r, h⟩ := b.count_eq d i k n; rw [h]
@[simp] theorem Block.count_mm (b : Block) (d : RegDesc) (i k n : Nat) : (b.count d i k n).mm = b.mm := by obtain ⟨r, h⟩ := b.count_eq d i k n; rw [h]
@[simp] theorem Block.count_dma (b : Block) (d : RegDesc) (i k n : Nat) : (b.count d i k n).dma = b.dma := by obtain ⟨r, h⟩ := b.count_eq d i k n; rw [h]
@[simp] theorem Block.count_que (b : Block) (d : RegDesc) (i k n : Nat) : (b.count d i k n).que = b.que := by obtain ⟨r, h⟩ := b.count_eq d i k n; rw [h]
@[simp] theorem Block.count_dfe (b : Block) (d : RegDesc) (i k n : Nat) : (b.count d i k n).dfe = b.dfe := by obtain ⟨r, h⟩ := b.count_eq d i k n; rw [h]
@[simp] theorem Block.count_prt (b : Block) (d : RegDesc) (i k n : Nat) : (b.count d i k n).prt = b.prt := by obtain ⟨r, h⟩ := b.count_eq d i k n; rw [h]
@[simp] theorem Block.count_str (b : Block) (d : RegDesc) (i k n : Nat) : (b.count d i k n).str = b.str := by obtain ⟨r, h⟩ := b.count_eq d i k n; rw [h]
@[simp] theorem Block.count_out (b : Block) (d : RegDesc) (i k n : Nat) : (b.count d i k n).out = b.out := by obtain ⟨r, h⟩ := b.count_eq d i k n; rw [h]
@[simp] theorem Block.count_cas (b : Block) (d : RegDesc) (i k n : Nat) : (b.count d i k n).cas = b.cas := by obtain ⟨r, h⟩ := b.count_eq d i k n; rw [h]
@[simp] theorem Block.count_rpl (b : Block) (d : RegDesc) (i k n : Nat) : (b.count d i k n).rpl = b.rpl := by obtain ⟨r, h⟩ := b.count_eq d i k n; rw [h]
@[simp] theorem Block.count_isl (b : Block) (d : RegDesc) (i k n : Nat) : (b.count d i k n).isl = b.isl := by obtain ⟨r, h⟩ := b.count_eq d i k n; rw [h]
@[simp] theorem Block.count_alm (b : Block) (d : RegDesc) (i k n : Nat) : (b.count d i k n).alm = b.alm := by obtain ⟨r, h⟩ := b.count_eq d i k n; rw [h]
@[simp] theorem Block.count_cmp (b : Block) (d : RegDesc) (i k n : Nat) : (b.count d i k n).cmp = b.cmp := by obtain ⟨r, h⟩ := b.count_eq d i k n; rw [h]
@[simp] theorem Block.count_sdm (b : Block) (d : RegDesc) (i k n : Nat) : (b.count d i k n).sdm = b.sdm := by obtain ⟨r, h⟩ := b.count_eq d i k n; rw [h]
@[simp] theorem Block.count_nrg (b : Block) (d : RegDesc) (i k n : Nat) : (b.count d i k n).nrg = b.nrg := by obtain ⟨r, h⟩ := b.count_eq d i k n; rw [h]
@[simp] theorem Block.count_cap (b : Block) (d : RegDesc) (i k n : Nat) : (b.count d i k n).cap = b.cap := by obtain ⟨r, h⟩ := b.count_eq d i k n; rw [h]
@[simp] theorem Block.count_rad (b : Block) (d : RegDesc) (i k n : Nat) : (b.count d i k n).rad = b.rad := by obtain ⟨r, h⟩ := b.count_eq d i k n; rw [h]
@[simp] theorem Block.count_red (b : Block) (d : RegDesc) (i k n : Nat) : (b.count d i k n).red = b.red := by obtain ⟨r, h⟩ := b.count_eq d i k n; rw [h]

/-- A count beside a change of the recorder's state. -/
theorem Block.count_evr_eq (b : Block) (v : Evr) (d : RegDesc) (i k n : Nat) :
    ∃ r e, ({ b with evr := v } : Block).count d i k n = { b with regs := r, evr := e } := by
  obtain ⟨r, h⟩ := Block.count_eq { b with evr := v } d i k n
  exact ⟨r, v, h⟩

/-- What Q4 and the recorder keep of an event of a freeze: registers and the recorder's state. -/
theorem Block.lostInFreeze_eq (b : Block) (seq : Nat) : ∃ r e, b.lostInFreeze seq = { b with regs := r, evr := e } := by
  unfold Block.lostInFreeze
  exact Block.count_evr_eq ..

theorem Block.holdEvent_eq (b : Block) (x : Event) : ∃ r e, b.holdEvent x = { b with regs := r, evr := e } := by
  unfold Block.holdEvent
  dsimp only
  split
  · obtain ⟨r1, h1⟩ := Block.count_eq b Reg.QUE_WR_DISABLED 4 0 8
    obtain ⟨r, e, h⟩ := Block.lostInFreeze_eq (b.count Reg.QUE_WR_DISABLED 4 0 8) x.seq
    rw [h, h1]
    exact ⟨_, _, rfl⟩
  · split
    · exact Block.lostInFreeze_eq ..
    · split
      · obtain ⟨r1, h1⟩ := Block.count_eq b Reg.QUE_OVERRUN_ITEMS 4 0 8
        obtain ⟨r, e, h⟩ := Block.lostInFreeze_eq (((b.count Reg.QUE_OVERRUN_ITEMS 4 0 8).setBit Reg.QUE_STATUS 4 0 30).irq Blk.que 0) x.seq
        rw [h, h1]
        exact ⟨_, _, rfl⟩
      · exact Block.count_evr_eq ..

/-- An event writes the recorder's state and its counters only. -/
theorem Block.eventAt_eq (b : Block) (code src a0 a1 ns : Nat) (est : Bool) (w : Option (List Nat)) :
    ∃ r e, b.eventAt code src a0 a1 ns est w = { b with regs := r, evr := e } := by
  obtain ⟨r1, h1⟩ := b.count_eq Reg.EVR_EVENTS 0 0 1
  unfold Block.eventAt
  dsimp only
  rw [h1]
  split
  · exact Block.holdEvent_eq ..
  · split
    · exact ⟨_, _, rfl⟩
    · obtain ⟨r2, h2⟩ := Block.count_eq _ Reg.EVR_IN_LOST 0 0 1
      rw [h2]
      exact ⟨_, _, rfl⟩

/-- So does an event raised now. -/
theorem Block.event_eq (b : Block) (code src a0 a1 : Nat) : ∃ r e, b.event code src a0 a1 = { b with regs := r, evr := e } :=
  b.eventAt_eq code src a0 a1 b.now false none

/-- One under the repetition rule writes its record there too. -/
theorem Block.eventRep_eq (b : Block) (key code src a1 : Nat) : ∃ r e p, b.eventRep key code src a1 = { b with regs := r, evr := e, rep := p } := by
  unfold Block.eventRep
  dsimp only
  split
  · obtain ⟨r, e, h⟩ := Block.event_eq { b with rep := Tbl.put b.rep (code + 65536 * key) (b.t7 + 1, 0) (0, 0) } code src
      ((Tbl.get b.rep (code + 65536 * key) (0, 0)).2 + 1) a1
    rw [h]
    exact ⟨_, _, _, rfl⟩
  · exact ⟨_, _, _, rfl⟩

/-! ### Events -/

@[simp] theorem Block.eventAt_t7 (b : Block) (code src a0 a1 ns : Nat) (est : Bool) (w : Option (List Nat)) : (b.eventAt code src a0 a1 ns est w).t7 = b.t7 := by obtain ⟨r, e, h⟩ := b.eventAt_eq code src a0 a1 ns est w; rw [h]
@[simp] theorem Block.eventAt_free (b : Block) (code src a0 a1 ns : Nat) (est : Bool) (w : Option (List Nat)) : (b.eventAt code src a0 a1 ns est w).free = b.free := by obtain ⟨r, e, h⟩ := b.eventAt_eq code src a0 a1 ns est w; rw [h]
@[simp] theorem Block.eventAt_resp (b : Block) (code src a0 a1 ns : Nat) (est : Bool) (w : Option (List Nat)) : (b.eventAt code src a0 a1 ns est w).resp = b.resp := by obtain ⟨r, e, h⟩ := b.eventAt_eq code src a0 a1 ns est w; rw [h]
@[simp] theorem Block.eventAt_latch (b : Block) (code src a0 a1 ns : Nat) (est : Bool) (w : Option (List Nat)) : (b.eventAt code src a0 a1 ns est w).latch = b.latch := by obtain ⟨r, e, h⟩ := b.eventAt_eq code src a0 a1 ns est w; rw [h]
@[simp] theorem Block.eventAt_rep (b : Block) (code src a0 a1 ns : Nat) (est : Bool) (w : Option (List Nat)) : (b.eventAt code src a0 a1 ns est w).rep = b.rep := by obtain ⟨r, e, h⟩ := b.eventAt_eq code src a0 a1 ns est w; rw [h]
@[simp] theorem Block.eventAt_mem (b : Block) (code src a0 a1 ns : Nat) (est : Bool) (w : Option (List Nat)) : (b.eventAt code src a0 a1 ns est w).mem = b.mem := by obtain ⟨r, e, h⟩ := b.eventAt_eq code src a0 a1 ns est w; rw [h]
@[simp] theorem Block.eventAt_sys (b : Block) (code src a0 a1 ns : Nat) (est : Bool) (w : Option (List Nat)) : (b.eventAt code src a0 a1 ns est w).sys = b.sys := by obtain ⟨r, e, h⟩ := b.eventAt_eq code src a0 a1 ns est w; rw [h]
@[simp] theorem Block.eventAt_pwr (b : Block) (code src a0 a1 ns : Nat) (est : Bool) (w : Option (List Nat)) : (b.eventAt code src a0 a1 ns est w).pwr = b.pwr := by obtain ⟨r, e, h⟩ := b.eventAt_eq code src a0 a1 ns est w; rw [h]
@[simp] theorem Block.eventAt_key (b : Block) (code src a0 a1 ns : Nat) (est : Bool) (w : Option (List Nat)) : (b.eventAt code src a0 a1 ns est w).key = b.key := by obtain ⟨r, e, h⟩ := b.eventAt_eq code src a0 a1 ns est w; rw [h]
@[simp] theorem Block.eventAt_tam (b : Block) (code src a0 a1 ns : Nat) (est : Bool) (w : Option (List Nat)) : (b.eventAt code src a0 a1 ns est w).tam = b.tam := by obtain ⟨r, e, h⟩ := b.eventAt_eq code src a0 a1 ns est w; rw [h]
@[simp] theorem Block.eventAt_acc (b : Block) (code src a0 a1 ns : Nat) (est : Bool) (w : Option (List Nat)) : (b.eventAt code src a0 a1 ns est w).acc = b.acc := by obtain ⟨r, e, h⟩ := b.eventAt_eq code src a0 a1 ns est w; rw [h]
@[simp] theorem Block.eventAt_tim (b : Block) (code src a0 a1 ns : Nat) (est : Bool) (w : Option (List Nat)) : (b.eventAt code src a0 a1 ns est w).tim = b.tim := by obtain ⟨r, e, h⟩ := b.eventAt_eq code src a0 a1 ns est w; rw [h]
@[simp] theorem Block.eventAt_aln (b : Block) (code src a0 a1 ns : Nat) (est : Bool) (w : Option (List Nat)) : (b.eventAt code src a0 a1 ns est w).aln = b.aln := by obtain ⟨r, e, h⟩ := b.eventAt_eq code src a0 a1 ns est w; rw [h]
@[simp] theorem Block.eventAt_mm (b : Block) (code src a0 a1 ns : Nat) (est : Bool) (w : Option (List Nat)) : (b.eventAt code src a0 a1 ns est w).mm = b.mm := by obtain ⟨r, e, h⟩ := b.eventAt_eq code src a0 a1 ns est w; rw [h]
@[simp] theorem Block.eventAt_dma (b : Block) (code src a0 a1 ns : Nat) (est : Bool) (w : Option (List Nat)) : (b.eventAt code src a0 a1 ns est w).dma = b.dma := by obtain ⟨r, e, h⟩ := b.eventAt_eq code src a0 a1 ns est w; rw [h]
@[simp] theorem Block.eventAt_que (b : Block) (code src a0 a1 ns : Nat) (est : Bool) (w : Option (List Nat)) : (b.eventAt code src a0 a1 ns est w).que = b.que := by obtain ⟨r, e, h⟩ := b.eventAt_eq code src a0 a1 ns est w; rw [h]
@[simp] theorem Block.eventAt_dfe (b : Block) (code src a0 a1 ns : Nat) (est : Bool) (w : Option (List Nat)) : (b.eventAt code src a0 a1 ns est w).dfe = b.dfe := by obtain ⟨r, e, h⟩ := b.eventAt_eq code src a0 a1 ns est w; rw [h]
@[simp] theorem Block.eventAt_prt (b : Block) (code src a0 a1 ns : Nat) (est : Bool) (w : Option (List Nat)) : (b.eventAt code src a0 a1 ns est w).prt = b.prt := by obtain ⟨r, e, h⟩ := b.eventAt_eq code src a0 a1 ns est w; rw [h]
@[simp] theorem Block.eventAt_str (b : Block) (code src a0 a1 ns : Nat) (est : Bool) (w : Option (List Nat)) : (b.eventAt code src a0 a1 ns est w).str = b.str := by obtain ⟨r, e, h⟩ := b.eventAt_eq code src a0 a1 ns est w; rw [h]
@[simp] theorem Block.eventAt_out (b : Block) (code src a0 a1 ns : Nat) (est : Bool) (w : Option (List Nat)) : (b.eventAt code src a0 a1 ns est w).out = b.out := by obtain ⟨r, e, h⟩ := b.eventAt_eq code src a0 a1 ns est w; rw [h]
@[simp] theorem Block.eventAt_cas (b : Block) (code src a0 a1 ns : Nat) (est : Bool) (w : Option (List Nat)) : (b.eventAt code src a0 a1 ns est w).cas = b.cas := by obtain ⟨r, e, h⟩ := b.eventAt_eq code src a0 a1 ns est w; rw [h]
@[simp] theorem Block.eventAt_rpl (b : Block) (code src a0 a1 ns : Nat) (est : Bool) (w : Option (List Nat)) : (b.eventAt code src a0 a1 ns est w).rpl = b.rpl := by obtain ⟨r, e, h⟩ := b.eventAt_eq code src a0 a1 ns est w; rw [h]
@[simp] theorem Block.eventAt_isl (b : Block) (code src a0 a1 ns : Nat) (est : Bool) (w : Option (List Nat)) : (b.eventAt code src a0 a1 ns est w).isl = b.isl := by obtain ⟨r, e, h⟩ := b.eventAt_eq code src a0 a1 ns est w; rw [h]
@[simp] theorem Block.eventAt_alm (b : Block) (code src a0 a1 ns : Nat) (est : Bool) (w : Option (List Nat)) : (b.eventAt code src a0 a1 ns est w).alm = b.alm := by obtain ⟨r, e, h⟩ := b.eventAt_eq code src a0 a1 ns est w; rw [h]
@[simp] theorem Block.eventAt_cmp (b : Block) (code src a0 a1 ns : Nat) (est : Bool) (w : Option (List Nat)) : (b.eventAt code src a0 a1 ns est w).cmp = b.cmp := by obtain ⟨r, e, h⟩ := b.eventAt_eq code src a0 a1 ns est w; rw [h]
@[simp] theorem Block.eventAt_sdm (b : Block) (code src a0 a1 ns : Nat) (est : Bool) (w : Option (List Nat)) : (b.eventAt code src a0 a1 ns est w).sdm = b.sdm := by obtain ⟨r, e, h⟩ := b.eventAt_eq code src a0 a1 ns est w; rw [h]
@[simp] theorem Block.eventAt_nrg (b : Block) (code src a0 a1 ns : Nat) (est : Bool) (w : Option (List Nat)) : (b.eventAt code src a0 a1 ns est w).nrg = b.nrg := by obtain ⟨r, e, h⟩ := b.eventAt_eq code src a0 a1 ns est w; rw [h]
@[simp] theorem Block.eventAt_cap (b : Block) (code src a0 a1 ns : Nat) (est : Bool) (w : Option (List Nat)) : (b.eventAt code src a0 a1 ns est w).cap = b.cap := by obtain ⟨r, e, h⟩ := b.eventAt_eq code src a0 a1 ns est w; rw [h]
@[simp] theorem Block.eventAt_rad (b : Block) (code src a0 a1 ns : Nat) (est : Bool) (w : Option (List Nat)) : (b.eventAt code src a0 a1 ns est w).rad = b.rad := by obtain ⟨r, e, h⟩ := b.eventAt_eq code src a0 a1 ns est w; rw [h]
@[simp] theorem Block.eventAt_red (b : Block) (code src a0 a1 ns : Nat) (est : Bool) (w : Option (List Nat)) : (b.eventAt code src a0 a1 ns est w).red = b.red := by obtain ⟨r, e, h⟩ := b.eventAt_eq code src a0 a1 ns est w; rw [h]

/-- An event joins those that wait: one more, whatever the order within its cycle. -/
@[simp] theorem Event.moveOn_length (n : Nat) : ∀ l : List Event, (Event.moveOn n l).length = l.length
  | [] => rfl
  | [_] => rfl
  | _ :: y :: r => by simp [Event.moveOn, Event.moveOn_length n (y :: r)]

@[simp] theorem Event.enter_length (e : Event) (l : List Event) : (e.enter l).length = l.length + 1 := by
  induction l with
  | nil => rfl
  | cons x r ih =>
    unfold Event.enter
    split
    · simp
    · simp [ih]

/-! ### Events now -/

@[simp] theorem Block.event_t7 (b : Block) (code src a0 a1 : Nat) : (b.event code src a0 a1).t7 = b.t7 := by obtain ⟨r, e, h⟩ := b.event_eq code src a0 a1; rw [h]
@[simp] theorem Block.event_free (b : Block) (code src a0 a1 : Nat) : (b.event code src a0 a1).free = b.free := by obtain ⟨r, e, h⟩ := b.event_eq code src a0 a1; rw [h]
@[simp] theorem Block.event_resp (b : Block) (code src a0 a1 : Nat) : (b.event code src a0 a1).resp = b.resp := by obtain ⟨r, e, h⟩ := b.event_eq code src a0 a1; rw [h]
@[simp] theorem Block.event_latch (b : Block) (code src a0 a1 : Nat) : (b.event code src a0 a1).latch = b.latch := by obtain ⟨r, e, h⟩ := b.event_eq code src a0 a1; rw [h]
@[simp] theorem Block.event_rep (b : Block) (code src a0 a1 : Nat) : (b.event code src a0 a1).rep = b.rep := by obtain ⟨r, e, h⟩ := b.event_eq code src a0 a1; rw [h]
@[simp] theorem Block.event_mem (b : Block) (code src a0 a1 : Nat) : (b.event code src a0 a1).mem = b.mem := by obtain ⟨r, e, h⟩ := b.event_eq code src a0 a1; rw [h]
@[simp] theorem Block.event_sys (b : Block) (code src a0 a1 : Nat) : (b.event code src a0 a1).sys = b.sys := by obtain ⟨r, e, h⟩ := b.event_eq code src a0 a1; rw [h]
@[simp] theorem Block.event_pwr (b : Block) (code src a0 a1 : Nat) : (b.event code src a0 a1).pwr = b.pwr := by obtain ⟨r, e, h⟩ := b.event_eq code src a0 a1; rw [h]
@[simp] theorem Block.event_key (b : Block) (code src a0 a1 : Nat) : (b.event code src a0 a1).key = b.key := by obtain ⟨r, e, h⟩ := b.event_eq code src a0 a1; rw [h]
@[simp] theorem Block.event_tam (b : Block) (code src a0 a1 : Nat) : (b.event code src a0 a1).tam = b.tam := by obtain ⟨r, e, h⟩ := b.event_eq code src a0 a1; rw [h]
@[simp] theorem Block.event_acc (b : Block) (code src a0 a1 : Nat) : (b.event code src a0 a1).acc = b.acc := by obtain ⟨r, e, h⟩ := b.event_eq code src a0 a1; rw [h]
@[simp] theorem Block.event_tim (b : Block) (code src a0 a1 : Nat) : (b.event code src a0 a1).tim = b.tim := by obtain ⟨r, e, h⟩ := b.event_eq code src a0 a1; rw [h]
@[simp] theorem Block.event_aln (b : Block) (code src a0 a1 : Nat) : (b.event code src a0 a1).aln = b.aln := by obtain ⟨r, e, h⟩ := b.event_eq code src a0 a1; rw [h]
@[simp] theorem Block.event_mm (b : Block) (code src a0 a1 : Nat) : (b.event code src a0 a1).mm = b.mm := by obtain ⟨r, e, h⟩ := b.event_eq code src a0 a1; rw [h]
@[simp] theorem Block.event_dma (b : Block) (code src a0 a1 : Nat) : (b.event code src a0 a1).dma = b.dma := by obtain ⟨r, e, h⟩ := b.event_eq code src a0 a1; rw [h]
@[simp] theorem Block.event_que (b : Block) (code src a0 a1 : Nat) : (b.event code src a0 a1).que = b.que := by obtain ⟨r, e, h⟩ := b.event_eq code src a0 a1; rw [h]
@[simp] theorem Block.event_dfe (b : Block) (code src a0 a1 : Nat) : (b.event code src a0 a1).dfe = b.dfe := by obtain ⟨r, e, h⟩ := b.event_eq code src a0 a1; rw [h]
@[simp] theorem Block.event_prt (b : Block) (code src a0 a1 : Nat) : (b.event code src a0 a1).prt = b.prt := by obtain ⟨r, e, h⟩ := b.event_eq code src a0 a1; rw [h]
@[simp] theorem Block.event_str (b : Block) (code src a0 a1 : Nat) : (b.event code src a0 a1).str = b.str := by obtain ⟨r, e, h⟩ := b.event_eq code src a0 a1; rw [h]
@[simp] theorem Block.event_out (b : Block) (code src a0 a1 : Nat) : (b.event code src a0 a1).out = b.out := by obtain ⟨r, e, h⟩ := b.event_eq code src a0 a1; rw [h]
@[simp] theorem Block.event_cas (b : Block) (code src a0 a1 : Nat) : (b.event code src a0 a1).cas = b.cas := by obtain ⟨r, e, h⟩ := b.event_eq code src a0 a1; rw [h]
@[simp] theorem Block.event_rpl (b : Block) (code src a0 a1 : Nat) : (b.event code src a0 a1).rpl = b.rpl := by obtain ⟨r, e, h⟩ := b.event_eq code src a0 a1; rw [h]
@[simp] theorem Block.event_isl (b : Block) (code src a0 a1 : Nat) : (b.event code src a0 a1).isl = b.isl := by obtain ⟨r, e, h⟩ := b.event_eq code src a0 a1; rw [h]
@[simp] theorem Block.event_alm (b : Block) (code src a0 a1 : Nat) : (b.event code src a0 a1).alm = b.alm := by obtain ⟨r, e, h⟩ := b.event_eq code src a0 a1; rw [h]
@[simp] theorem Block.event_cmp (b : Block) (code src a0 a1 : Nat) : (b.event code src a0 a1).cmp = b.cmp := by obtain ⟨r, e, h⟩ := b.event_eq code src a0 a1; rw [h]
@[simp] theorem Block.event_sdm (b : Block) (code src a0 a1 : Nat) : (b.event code src a0 a1).sdm = b.sdm := by obtain ⟨r, e, h⟩ := b.event_eq code src a0 a1; rw [h]
@[simp] theorem Block.event_nrg (b : Block) (code src a0 a1 : Nat) : (b.event code src a0 a1).nrg = b.nrg := by obtain ⟨r, e, h⟩ := b.event_eq code src a0 a1; rw [h]
@[simp] theorem Block.event_cap (b : Block) (code src a0 a1 : Nat) : (b.event code src a0 a1).cap = b.cap := by obtain ⟨r, e, h⟩ := b.event_eq code src a0 a1; rw [h]
@[simp] theorem Block.event_rad (b : Block) (code src a0 a1 : Nat) : (b.event code src a0 a1).rad = b.rad := by obtain ⟨r, e, h⟩ := b.event_eq code src a0 a1; rw [h]
@[simp] theorem Block.event_red (b : Block) (code src a0 a1 : Nat) : (b.event code src a0 a1).red = b.red := by obtain ⟨r, e, h⟩ := b.event_eq code src a0 a1; rw [h]

/-! ### Repeated events -/

@[simp] theorem Block.eventRep_t7 (b : Block) (key code src a1 : Nat) : (b.eventRep key code src a1).t7 = b.t7 := by obtain ⟨r, e, p, h⟩ := b.eventRep_eq key code src a1; rw [h]
@[simp] theorem Block.eventRep_free (b : Block) (key code src a1 : Nat) : (b.eventRep key code src a1).free = b.free := by obtain ⟨r, e, p, h⟩ := b.eventRep_eq key code src a1; rw [h]
@[simp] theorem Block.eventRep_resp (b : Block) (key code src a1 : Nat) : (b.eventRep key code src a1).resp = b.resp := by obtain ⟨r, e, p, h⟩ := b.eventRep_eq key code src a1; rw [h]
@[simp] theorem Block.eventRep_latch (b : Block) (key code src a1 : Nat) : (b.eventRep key code src a1).latch = b.latch := by obtain ⟨r, e, p, h⟩ := b.eventRep_eq key code src a1; rw [h]
@[simp] theorem Block.eventRep_mem (b : Block) (key code src a1 : Nat) : (b.eventRep key code src a1).mem = b.mem := by obtain ⟨r, e, p, h⟩ := b.eventRep_eq key code src a1; rw [h]
@[simp] theorem Block.eventRep_sys (b : Block) (key code src a1 : Nat) : (b.eventRep key code src a1).sys = b.sys := by obtain ⟨r, e, p, h⟩ := b.eventRep_eq key code src a1; rw [h]
@[simp] theorem Block.eventRep_pwr (b : Block) (key code src a1 : Nat) : (b.eventRep key code src a1).pwr = b.pwr := by obtain ⟨r, e, p, h⟩ := b.eventRep_eq key code src a1; rw [h]
@[simp] theorem Block.eventRep_key (b : Block) (key code src a1 : Nat) : (b.eventRep key code src a1).key = b.key := by obtain ⟨r, e, p, h⟩ := b.eventRep_eq key code src a1; rw [h]
@[simp] theorem Block.eventRep_tam (b : Block) (key code src a1 : Nat) : (b.eventRep key code src a1).tam = b.tam := by obtain ⟨r, e, p, h⟩ := b.eventRep_eq key code src a1; rw [h]
@[simp] theorem Block.eventRep_acc (b : Block) (key code src a1 : Nat) : (b.eventRep key code src a1).acc = b.acc := by obtain ⟨r, e, p, h⟩ := b.eventRep_eq key code src a1; rw [h]
@[simp] theorem Block.eventRep_tim (b : Block) (key code src a1 : Nat) : (b.eventRep key code src a1).tim = b.tim := by obtain ⟨r, e, p, h⟩ := b.eventRep_eq key code src a1; rw [h]
@[simp] theorem Block.eventRep_aln (b : Block) (key code src a1 : Nat) : (b.eventRep key code src a1).aln = b.aln := by obtain ⟨r, e, p, h⟩ := b.eventRep_eq key code src a1; rw [h]
@[simp] theorem Block.eventRep_mm (b : Block) (key code src a1 : Nat) : (b.eventRep key code src a1).mm = b.mm := by obtain ⟨r, e, p, h⟩ := b.eventRep_eq key code src a1; rw [h]
@[simp] theorem Block.eventRep_dma (b : Block) (key code src a1 : Nat) : (b.eventRep key code src a1).dma = b.dma := by obtain ⟨r, e, p, h⟩ := b.eventRep_eq key code src a1; rw [h]
@[simp] theorem Block.eventRep_que (b : Block) (key code src a1 : Nat) : (b.eventRep key code src a1).que = b.que := by obtain ⟨r, e, p, h⟩ := b.eventRep_eq key code src a1; rw [h]
@[simp] theorem Block.eventRep_dfe (b : Block) (key code src a1 : Nat) : (b.eventRep key code src a1).dfe = b.dfe := by obtain ⟨r, e, p, h⟩ := b.eventRep_eq key code src a1; rw [h]
@[simp] theorem Block.eventRep_prt (b : Block) (key code src a1 : Nat) : (b.eventRep key code src a1).prt = b.prt := by obtain ⟨r, e, p, h⟩ := b.eventRep_eq key code src a1; rw [h]
@[simp] theorem Block.eventRep_str (b : Block) (key code src a1 : Nat) : (b.eventRep key code src a1).str = b.str := by obtain ⟨r, e, p, h⟩ := b.eventRep_eq key code src a1; rw [h]
@[simp] theorem Block.eventRep_out (b : Block) (key code src a1 : Nat) : (b.eventRep key code src a1).out = b.out := by obtain ⟨r, e, p, h⟩ := b.eventRep_eq key code src a1; rw [h]
@[simp] theorem Block.eventRep_cas (b : Block) (key code src a1 : Nat) : (b.eventRep key code src a1).cas = b.cas := by obtain ⟨r, e, p, h⟩ := b.eventRep_eq key code src a1; rw [h]
@[simp] theorem Block.eventRep_rpl (b : Block) (key code src a1 : Nat) : (b.eventRep key code src a1).rpl = b.rpl := by obtain ⟨r, e, p, h⟩ := b.eventRep_eq key code src a1; rw [h]
@[simp] theorem Block.eventRep_isl (b : Block) (key code src a1 : Nat) : (b.eventRep key code src a1).isl = b.isl := by obtain ⟨r, e, p, h⟩ := b.eventRep_eq key code src a1; rw [h]
@[simp] theorem Block.eventRep_alm (b : Block) (key code src a1 : Nat) : (b.eventRep key code src a1).alm = b.alm := by obtain ⟨r, e, p, h⟩ := b.eventRep_eq key code src a1; rw [h]
@[simp] theorem Block.eventRep_cmp (b : Block) (key code src a1 : Nat) : (b.eventRep key code src a1).cmp = b.cmp := by obtain ⟨r, e, p, h⟩ := b.eventRep_eq key code src a1; rw [h]
@[simp] theorem Block.eventRep_sdm (b : Block) (key code src a1 : Nat) : (b.eventRep key code src a1).sdm = b.sdm := by obtain ⟨r, e, p, h⟩ := b.eventRep_eq key code src a1; rw [h]
@[simp] theorem Block.eventRep_nrg (b : Block) (key code src a1 : Nat) : (b.eventRep key code src a1).nrg = b.nrg := by obtain ⟨r, e, p, h⟩ := b.eventRep_eq key code src a1; rw [h]
@[simp] theorem Block.eventRep_cap (b : Block) (key code src a1 : Nat) : (b.eventRep key code src a1).cap = b.cap := by obtain ⟨r, e, p, h⟩ := b.eventRep_eq key code src a1; rw [h]
@[simp] theorem Block.eventRep_rad (b : Block) (key code src a1 : Nat) : (b.eventRep key code src a1).rad = b.rad := by obtain ⟨r, e, p, h⟩ := b.eventRep_eq key code src a1; rw [h]
@[simp] theorem Block.eventRep_red (b : Block) (key code src a1 : Nat) : (b.eventRep key code src a1).red = b.red := by obtain ⟨r, e, p, h⟩ := b.eventRep_eq key code src a1; rw [h]

/-! ### TIM events -/

@[simp] theorem Block.timEvent_t7 (b : Block) (code src n a1 : Nat) : (b.timEvent code src n a1).t7 = b.t7 := by unfold Block.timEvent; exact Block.event_t7 ..
@[simp] theorem Block.timEvent_free (b : Block) (code src n a1 : Nat) : (b.timEvent code src n a1).free = b.free := by unfold Block.timEvent; exact Block.event_free ..
@[simp] theorem Block.timEvent_resp (b : Block) (code src n a1 : Nat) : (b.timEvent code src n a1).resp = b.resp := by unfold Block.timEvent; exact Block.event_resp ..
@[simp] theorem Block.timEvent_latch (b : Block) (code src n a1 : Nat) : (b.timEvent code src n a1).latch = b.latch := by unfold Block.timEvent; exact Block.event_latch ..
@[simp] theorem Block.timEvent_rep (b : Block) (code src n a1 : Nat) : (b.timEvent code src n a1).rep = b.rep := by unfold Block.timEvent; exact Block.event_rep ..
@[simp] theorem Block.timEvent_mem (b : Block) (code src n a1 : Nat) : (b.timEvent code src n a1).mem = b.mem := by unfold Block.timEvent; exact Block.event_mem ..
@[simp] theorem Block.timEvent_sys (b : Block) (code src n a1 : Nat) : (b.timEvent code src n a1).sys = b.sys := by unfold Block.timEvent; exact Block.event_sys ..
@[simp] theorem Block.timEvent_pwr (b : Block) (code src n a1 : Nat) : (b.timEvent code src n a1).pwr = b.pwr := by unfold Block.timEvent; exact Block.event_pwr ..
@[simp] theorem Block.timEvent_key (b : Block) (code src n a1 : Nat) : (b.timEvent code src n a1).key = b.key := by unfold Block.timEvent; exact Block.event_key ..
@[simp] theorem Block.timEvent_tam (b : Block) (code src n a1 : Nat) : (b.timEvent code src n a1).tam = b.tam := by unfold Block.timEvent; exact Block.event_tam ..
@[simp] theorem Block.timEvent_acc (b : Block) (code src n a1 : Nat) : (b.timEvent code src n a1).acc = b.acc := by unfold Block.timEvent; exact Block.event_acc ..
@[simp] theorem Block.timEvent_tim (b : Block) (code src n a1 : Nat) : (b.timEvent code src n a1).tim = b.tim := by unfold Block.timEvent; exact Block.event_tim ..
@[simp] theorem Block.timEvent_aln (b : Block) (code src n a1 : Nat) : (b.timEvent code src n a1).aln = b.aln := by unfold Block.timEvent; exact Block.event_aln ..
@[simp] theorem Block.timEvent_mm (b : Block) (code src n a1 : Nat) : (b.timEvent code src n a1).mm = b.mm := by unfold Block.timEvent; exact Block.event_mm ..
@[simp] theorem Block.timEvent_dma (b : Block) (code src n a1 : Nat) : (b.timEvent code src n a1).dma = b.dma := by unfold Block.timEvent; exact Block.event_dma ..
@[simp] theorem Block.timEvent_que (b : Block) (code src n a1 : Nat) : (b.timEvent code src n a1).que = b.que := by unfold Block.timEvent; exact Block.event_que ..
@[simp] theorem Block.timEvent_dfe (b : Block) (code src n a1 : Nat) : (b.timEvent code src n a1).dfe = b.dfe := by unfold Block.timEvent; exact Block.event_dfe ..
@[simp] theorem Block.timEvent_prt (b : Block) (code src n a1 : Nat) : (b.timEvent code src n a1).prt = b.prt := by unfold Block.timEvent; exact Block.event_prt ..
@[simp] theorem Block.timEvent_str (b : Block) (code src n a1 : Nat) : (b.timEvent code src n a1).str = b.str := by unfold Block.timEvent; exact Block.event_str ..
@[simp] theorem Block.timEvent_out (b : Block) (code src n a1 : Nat) : (b.timEvent code src n a1).out = b.out := by unfold Block.timEvent; exact Block.event_out ..
@[simp] theorem Block.timEvent_cas (b : Block) (code src n a1 : Nat) : (b.timEvent code src n a1).cas = b.cas := by unfold Block.timEvent; exact Block.event_cas ..
@[simp] theorem Block.timEvent_rpl (b : Block) (code src n a1 : Nat) : (b.timEvent code src n a1).rpl = b.rpl := by unfold Block.timEvent; exact Block.event_rpl ..
@[simp] theorem Block.timEvent_isl (b : Block) (code src n a1 : Nat) : (b.timEvent code src n a1).isl = b.isl := by unfold Block.timEvent; exact Block.event_isl ..
@[simp] theorem Block.timEvent_alm (b : Block) (code src n a1 : Nat) : (b.timEvent code src n a1).alm = b.alm := by unfold Block.timEvent; exact Block.event_alm ..
@[simp] theorem Block.timEvent_cmp (b : Block) (code src n a1 : Nat) : (b.timEvent code src n a1).cmp = b.cmp := by unfold Block.timEvent; exact Block.event_cmp ..
@[simp] theorem Block.timEvent_sdm (b : Block) (code src n a1 : Nat) : (b.timEvent code src n a1).sdm = b.sdm := by unfold Block.timEvent; exact Block.event_sdm ..
@[simp] theorem Block.timEvent_nrg (b : Block) (code src n a1 : Nat) : (b.timEvent code src n a1).nrg = b.nrg := by unfold Block.timEvent; exact Block.event_nrg ..
@[simp] theorem Block.timEvent_cap (b : Block) (code src n a1 : Nat) : (b.timEvent code src n a1).cap = b.cap := by unfold Block.timEvent; exact Block.event_cap ..
@[simp] theorem Block.timEvent_rad (b : Block) (code src n a1 : Nat) : (b.timEvent code src n a1).rad = b.rad := by unfold Block.timEvent; exact Block.event_rad ..
@[simp] theorem Block.timEvent_red (b : Block) (code src n a1 : Nat) : (b.timEvent code src n a1).red = b.red := by unfold Block.timEvent; exact Block.event_red ..

/-! ### Setter: setTb -/

@[simp] theorem Block.setTb_t7 (b : Block) (n : Nat) (x : TimeBase) : (b.setTb n x).t7 = b.t7 := rfl
@[simp] theorem Block.setTb_free (b : Block) (n : Nat) (x : TimeBase) : (b.setTb n x).free = b.free := rfl
@[simp] theorem Block.setTb_regs (b : Block) (n : Nat) (x : TimeBase) : (b.setTb n x).regs = b.regs := rfl
@[simp] theorem Block.setTb_resp (b : Block) (n : Nat) (x : TimeBase) : (b.setTb n x).resp = b.resp := rfl
@[simp] theorem Block.setTb_latch (b : Block) (n : Nat) (x : TimeBase) : (b.setTb n x).latch = b.latch := rfl
@[simp] theorem Block.setTb_rep (b : Block) (n : Nat) (x : TimeBase) : (b.setTb n x).rep = b.rep := rfl
@[simp] theorem Block.setTb_mem (b : Block) (n : Nat) (x : TimeBase) : (b.setTb n x).mem = b.mem := rfl
@[simp] theorem Block.setTb_evr (b : Block) (n : Nat) (x : TimeBase) : (b.setTb n x).evr = b.evr := rfl
@[simp] theorem Block.setTb_sys (b : Block) (n : Nat) (x : TimeBase) : (b.setTb n x).sys = b.sys := rfl
@[simp] theorem Block.setTb_pwr (b : Block) (n : Nat) (x : TimeBase) : (b.setTb n x).pwr = b.pwr := rfl
@[simp] theorem Block.setTb_key (b : Block) (n : Nat) (x : TimeBase) : (b.setTb n x).key = b.key := rfl
@[simp] theorem Block.setTb_tam (b : Block) (n : Nat) (x : TimeBase) : (b.setTb n x).tam = b.tam := rfl
@[simp] theorem Block.setTb_acc (b : Block) (n : Nat) (x : TimeBase) : (b.setTb n x).acc = b.acc := rfl
@[simp] theorem Block.setTb_aln (b : Block) (n : Nat) (x : TimeBase) : (b.setTb n x).aln = b.aln := rfl
@[simp] theorem Block.setTb_mm (b : Block) (n : Nat) (x : TimeBase) : (b.setTb n x).mm = b.mm := rfl
@[simp] theorem Block.setTb_dma (b : Block) (n : Nat) (x : TimeBase) : (b.setTb n x).dma = b.dma := rfl
@[simp] theorem Block.setTb_que (b : Block) (n : Nat) (x : TimeBase) : (b.setTb n x).que = b.que := rfl
@[simp] theorem Block.setTb_dfe (b : Block) (n : Nat) (x : TimeBase) : (b.setTb n x).dfe = b.dfe := rfl
@[simp] theorem Block.setTb_prt (b : Block) (n : Nat) (x : TimeBase) : (b.setTb n x).prt = b.prt := rfl
@[simp] theorem Block.setTb_str (b : Block) (n : Nat) (x : TimeBase) : (b.setTb n x).str = b.str := rfl
@[simp] theorem Block.setTb_out (b : Block) (n : Nat) (x : TimeBase) : (b.setTb n x).out = b.out := rfl
@[simp] theorem Block.setTb_cas (b : Block) (n : Nat) (x : TimeBase) : (b.setTb n x).cas = b.cas := rfl
@[simp] theorem Block.setTb_rpl (b : Block) (n : Nat) (x : TimeBase) : (b.setTb n x).rpl = b.rpl := rfl
@[simp] theorem Block.setTb_isl (b : Block) (n : Nat) (x : TimeBase) : (b.setTb n x).isl = b.isl := rfl
@[simp] theorem Block.setTb_alm (b : Block) (n : Nat) (x : TimeBase) : (b.setTb n x).alm = b.alm := rfl
@[simp] theorem Block.setTb_cmp (b : Block) (n : Nat) (x : TimeBase) : (b.setTb n x).cmp = b.cmp := rfl
@[simp] theorem Block.setTb_sdm (b : Block) (n : Nat) (x : TimeBase) : (b.setTb n x).sdm = b.sdm := rfl
@[simp] theorem Block.setTb_nrg (b : Block) (n : Nat) (x : TimeBase) : (b.setTb n x).nrg = b.nrg := rfl
@[simp] theorem Block.setTb_cap (b : Block) (n : Nat) (x : TimeBase) : (b.setTb n x).cap = b.cap := rfl
@[simp] theorem Block.setTb_rad (b : Block) (n : Nat) (x : TimeBase) : (b.setTb n x).rad = b.rad := rfl
@[simp] theorem Block.setTb_red (b : Block) (n : Nat) (x : TimeBase) : (b.setTb n x).red = b.red := rfl

/-! ### Setter: answer -/

@[simp] theorem Block.answer_t7 (b : Block) (m : Nat) (r : Response) : (b.answer m r).t7 = b.t7 := rfl
@[simp] theorem Block.answer_free (b : Block) (m : Nat) (r : Response) : (b.answer m r).free = b.free := rfl
@[simp] theorem Block.answer_regs (b : Block) (m : Nat) (r : Response) : (b.answer m r).regs = b.regs := rfl
@[simp] theorem Block.answer_latch (b : Block) (m : Nat) (r : Response) : (b.answer m r).latch = b.latch := rfl
@[simp] theorem Block.answer_rep (b : Block) (m : Nat) (r : Response) : (b.answer m r).rep = b.rep := rfl
@[simp] theorem Block.answer_mem (b : Block) (m : Nat) (r : Response) : (b.answer m r).mem = b.mem := rfl
@[simp] theorem Block.answer_evr (b : Block) (m : Nat) (r : Response) : (b.answer m r).evr = b.evr := rfl
@[simp] theorem Block.answer_sys (b : Block) (m : Nat) (r : Response) : (b.answer m r).sys = b.sys := rfl
@[simp] theorem Block.answer_pwr (b : Block) (m : Nat) (r : Response) : (b.answer m r).pwr = b.pwr := rfl
@[simp] theorem Block.answer_key (b : Block) (m : Nat) (r : Response) : (b.answer m r).key = b.key := rfl
@[simp] theorem Block.answer_tam (b : Block) (m : Nat) (r : Response) : (b.answer m r).tam = b.tam := rfl
@[simp] theorem Block.answer_acc (b : Block) (m : Nat) (r : Response) : (b.answer m r).acc = b.acc := rfl
@[simp] theorem Block.answer_tim (b : Block) (m : Nat) (r : Response) : (b.answer m r).tim = b.tim := rfl
@[simp] theorem Block.answer_aln (b : Block) (m : Nat) (r : Response) : (b.answer m r).aln = b.aln := rfl
@[simp] theorem Block.answer_mm (b : Block) (m : Nat) (r : Response) : (b.answer m r).mm = b.mm := rfl
@[simp] theorem Block.answer_dma (b : Block) (m : Nat) (r : Response) : (b.answer m r).dma = b.dma := rfl
@[simp] theorem Block.answer_que (b : Block) (m : Nat) (r : Response) : (b.answer m r).que = b.que := rfl
@[simp] theorem Block.answer_dfe (b : Block) (m : Nat) (r : Response) : (b.answer m r).dfe = b.dfe := rfl
@[simp] theorem Block.answer_prt (b : Block) (m : Nat) (r : Response) : (b.answer m r).prt = b.prt := rfl
@[simp] theorem Block.answer_str (b : Block) (m : Nat) (r : Response) : (b.answer m r).str = b.str := rfl
@[simp] theorem Block.answer_out (b : Block) (m : Nat) (r : Response) : (b.answer m r).out = b.out := rfl
@[simp] theorem Block.answer_cas (b : Block) (m : Nat) (r : Response) : (b.answer m r).cas = b.cas := rfl
@[simp] theorem Block.answer_rpl (b : Block) (m : Nat) (r : Response) : (b.answer m r).rpl = b.rpl := rfl
@[simp] theorem Block.answer_isl (b : Block) (m : Nat) (r : Response) : (b.answer m r).isl = b.isl := rfl
@[simp] theorem Block.answer_alm (b : Block) (m : Nat) (r : Response) : (b.answer m r).alm = b.alm := rfl
@[simp] theorem Block.answer_cmp (b : Block) (m : Nat) (r : Response) : (b.answer m r).cmp = b.cmp := rfl
@[simp] theorem Block.answer_sdm (b : Block) (m : Nat) (r : Response) : (b.answer m r).sdm = b.sdm := rfl
@[simp] theorem Block.answer_nrg (b : Block) (m : Nat) (r : Response) : (b.answer m r).nrg = b.nrg := rfl
@[simp] theorem Block.answer_cap (b : Block) (m : Nat) (r : Response) : (b.answer m r).cap = b.cap := rfl
@[simp] theorem Block.answer_rad (b : Block) (m : Nat) (r : Response) : (b.answer m r).rad = b.rad := rfl
@[simp] theorem Block.answer_red (b : Block) (m : Nat) (r : Response) : (b.answer m r).red = b.red := rfl

/-! ### Setter: setQueue -/

@[simp] theorem Block.setQueue_t7 (b : Block) (q : Nat) (x : Queue) : (b.setQueue q x).t7 = b.t7 := rfl
@[simp] theorem Block.setQueue_free (b : Block) (q : Nat) (x : Queue) : (b.setQueue q x).free = b.free := rfl
@[simp] theorem Block.setQueue_regs (b : Block) (q : Nat) (x : Queue) : (b.setQueue q x).regs = b.regs := rfl
@[simp] theorem Block.setQueue_resp (b : Block) (q : Nat) (x : Queue) : (b.setQueue q x).resp = b.resp := rfl
@[simp] theorem Block.setQueue_latch (b : Block) (q : Nat) (x : Queue) : (b.setQueue q x).latch = b.latch := rfl
@[simp] theorem Block.setQueue_rep (b : Block) (q : Nat) (x : Queue) : (b.setQueue q x).rep = b.rep := rfl
@[simp] theorem Block.setQueue_mem (b : Block) (q : Nat) (x : Queue) : (b.setQueue q x).mem = b.mem := rfl
@[simp] theorem Block.setQueue_evr (b : Block) (q : Nat) (x : Queue) : (b.setQueue q x).evr = b.evr := rfl
@[simp] theorem Block.setQueue_sys (b : Block) (q : Nat) (x : Queue) : (b.setQueue q x).sys = b.sys := rfl
@[simp] theorem Block.setQueue_pwr (b : Block) (q : Nat) (x : Queue) : (b.setQueue q x).pwr = b.pwr := rfl
@[simp] theorem Block.setQueue_key (b : Block) (q : Nat) (x : Queue) : (b.setQueue q x).key = b.key := rfl
@[simp] theorem Block.setQueue_tam (b : Block) (q : Nat) (x : Queue) : (b.setQueue q x).tam = b.tam := rfl
@[simp] theorem Block.setQueue_acc (b : Block) (q : Nat) (x : Queue) : (b.setQueue q x).acc = b.acc := rfl
@[simp] theorem Block.setQueue_tim (b : Block) (q : Nat) (x : Queue) : (b.setQueue q x).tim = b.tim := rfl
@[simp] theorem Block.setQueue_aln (b : Block) (q : Nat) (x : Queue) : (b.setQueue q x).aln = b.aln := rfl
@[simp] theorem Block.setQueue_mm (b : Block) (q : Nat) (x : Queue) : (b.setQueue q x).mm = b.mm := rfl
@[simp] theorem Block.setQueue_dma (b : Block) (q : Nat) (x : Queue) : (b.setQueue q x).dma = b.dma := rfl
@[simp] theorem Block.setQueue_dfe (b : Block) (q : Nat) (x : Queue) : (b.setQueue q x).dfe = b.dfe := rfl
@[simp] theorem Block.setQueue_prt (b : Block) (q : Nat) (x : Queue) : (b.setQueue q x).prt = b.prt := rfl
@[simp] theorem Block.setQueue_str (b : Block) (q : Nat) (x : Queue) : (b.setQueue q x).str = b.str := rfl
@[simp] theorem Block.setQueue_out (b : Block) (q : Nat) (x : Queue) : (b.setQueue q x).out = b.out := rfl
@[simp] theorem Block.setQueue_cas (b : Block) (q : Nat) (x : Queue) : (b.setQueue q x).cas = b.cas := rfl
@[simp] theorem Block.setQueue_rpl (b : Block) (q : Nat) (x : Queue) : (b.setQueue q x).rpl = b.rpl := rfl
@[simp] theorem Block.setQueue_isl (b : Block) (q : Nat) (x : Queue) : (b.setQueue q x).isl = b.isl := rfl
@[simp] theorem Block.setQueue_alm (b : Block) (q : Nat) (x : Queue) : (b.setQueue q x).alm = b.alm := rfl
@[simp] theorem Block.setQueue_cmp (b : Block) (q : Nat) (x : Queue) : (b.setQueue q x).cmp = b.cmp := rfl
@[simp] theorem Block.setQueue_sdm (b : Block) (q : Nat) (x : Queue) : (b.setQueue q x).sdm = b.sdm := rfl
@[simp] theorem Block.setQueue_nrg (b : Block) (q : Nat) (x : Queue) : (b.setQueue q x).nrg = b.nrg := rfl
@[simp] theorem Block.setQueue_cap (b : Block) (q : Nat) (x : Queue) : (b.setQueue q x).cap = b.cap := rfl
@[simp] theorem Block.setQueue_rad (b : Block) (q : Nat) (x : Queue) : (b.setQueue q x).rad = b.rad := rfl
@[simp] theorem Block.setQueue_red (b : Block) (q : Nat) (x : Queue) : (b.setQueue q x).red = b.red := rfl

/-! ### Setter: setPort -/

@[simp] theorem Block.setPort_t7 (b : Block) (p : Nat) (x : PrtPort) : (b.setPort p x).t7 = b.t7 := rfl
@[simp] theorem Block.setPort_free (b : Block) (p : Nat) (x : PrtPort) : (b.setPort p x).free = b.free := rfl
@[simp] theorem Block.setPort_regs (b : Block) (p : Nat) (x : PrtPort) : (b.setPort p x).regs = b.regs := rfl
@[simp] theorem Block.setPort_resp (b : Block) (p : Nat) (x : PrtPort) : (b.setPort p x).resp = b.resp := rfl
@[simp] theorem Block.setPort_latch (b : Block) (p : Nat) (x : PrtPort) : (b.setPort p x).latch = b.latch := rfl
@[simp] theorem Block.setPort_rep (b : Block) (p : Nat) (x : PrtPort) : (b.setPort p x).rep = b.rep := rfl
@[simp] theorem Block.setPort_mem (b : Block) (p : Nat) (x : PrtPort) : (b.setPort p x).mem = b.mem := rfl
@[simp] theorem Block.setPort_evr (b : Block) (p : Nat) (x : PrtPort) : (b.setPort p x).evr = b.evr := rfl
@[simp] theorem Block.setPort_sys (b : Block) (p : Nat) (x : PrtPort) : (b.setPort p x).sys = b.sys := rfl
@[simp] theorem Block.setPort_pwr (b : Block) (p : Nat) (x : PrtPort) : (b.setPort p x).pwr = b.pwr := rfl
@[simp] theorem Block.setPort_key (b : Block) (p : Nat) (x : PrtPort) : (b.setPort p x).key = b.key := rfl
@[simp] theorem Block.setPort_tam (b : Block) (p : Nat) (x : PrtPort) : (b.setPort p x).tam = b.tam := rfl
@[simp] theorem Block.setPort_acc (b : Block) (p : Nat) (x : PrtPort) : (b.setPort p x).acc = b.acc := rfl
@[simp] theorem Block.setPort_tim (b : Block) (p : Nat) (x : PrtPort) : (b.setPort p x).tim = b.tim := rfl
@[simp] theorem Block.setPort_aln (b : Block) (p : Nat) (x : PrtPort) : (b.setPort p x).aln = b.aln := rfl
@[simp] theorem Block.setPort_mm (b : Block) (p : Nat) (x : PrtPort) : (b.setPort p x).mm = b.mm := rfl
@[simp] theorem Block.setPort_dma (b : Block) (p : Nat) (x : PrtPort) : (b.setPort p x).dma = b.dma := rfl
@[simp] theorem Block.setPort_que (b : Block) (p : Nat) (x : PrtPort) : (b.setPort p x).que = b.que := rfl
@[simp] theorem Block.setPort_dfe (b : Block) (p : Nat) (x : PrtPort) : (b.setPort p x).dfe = b.dfe := rfl
@[simp] theorem Block.setPort_str (b : Block) (p : Nat) (x : PrtPort) : (b.setPort p x).str = b.str := rfl
@[simp] theorem Block.setPort_out (b : Block) (p : Nat) (x : PrtPort) : (b.setPort p x).out = b.out := rfl
@[simp] theorem Block.setPort_cas (b : Block) (p : Nat) (x : PrtPort) : (b.setPort p x).cas = b.cas := rfl
@[simp] theorem Block.setPort_rpl (b : Block) (p : Nat) (x : PrtPort) : (b.setPort p x).rpl = b.rpl := rfl
@[simp] theorem Block.setPort_isl (b : Block) (p : Nat) (x : PrtPort) : (b.setPort p x).isl = b.isl := rfl
@[simp] theorem Block.setPort_alm (b : Block) (p : Nat) (x : PrtPort) : (b.setPort p x).alm = b.alm := rfl
@[simp] theorem Block.setPort_cmp (b : Block) (p : Nat) (x : PrtPort) : (b.setPort p x).cmp = b.cmp := rfl
@[simp] theorem Block.setPort_sdm (b : Block) (p : Nat) (x : PrtPort) : (b.setPort p x).sdm = b.sdm := rfl
@[simp] theorem Block.setPort_nrg (b : Block) (p : Nat) (x : PrtPort) : (b.setPort p x).nrg = b.nrg := rfl
@[simp] theorem Block.setPort_cap (b : Block) (p : Nat) (x : PrtPort) : (b.setPort p x).cap = b.cap := rfl
@[simp] theorem Block.setPort_rad (b : Block) (p : Nat) (x : PrtPort) : (b.setPort p x).rad = b.rad := rfl
@[simp] theorem Block.setPort_red (b : Block) (p : Nat) (x : PrtPort) : (b.setPort p x).red = b.red := rfl

/-! ### Setter: setSess -/

@[simp] theorem Block.setSess_t7 (b : Block) (i : Nat) (x : Session) : (b.setSess i x).t7 = b.t7 := rfl
@[simp] theorem Block.setSess_free (b : Block) (i : Nat) (x : Session) : (b.setSess i x).free = b.free := rfl
@[simp] theorem Block.setSess_regs (b : Block) (i : Nat) (x : Session) : (b.setSess i x).regs = b.regs := rfl
@[simp] theorem Block.setSess_resp (b : Block) (i : Nat) (x : Session) : (b.setSess i x).resp = b.resp := rfl
@[simp] theorem Block.setSess_latch (b : Block) (i : Nat) (x : Session) : (b.setSess i x).latch = b.latch := rfl
@[simp] theorem Block.setSess_rep (b : Block) (i : Nat) (x : Session) : (b.setSess i x).rep = b.rep := rfl
@[simp] theorem Block.setSess_mem (b : Block) (i : Nat) (x : Session) : (b.setSess i x).mem = b.mem := rfl
@[simp] theorem Block.setSess_evr (b : Block) (i : Nat) (x : Session) : (b.setSess i x).evr = b.evr := rfl
@[simp] theorem Block.setSess_sys (b : Block) (i : Nat) (x : Session) : (b.setSess i x).sys = b.sys := rfl
@[simp] theorem Block.setSess_pwr (b : Block) (i : Nat) (x : Session) : (b.setSess i x).pwr = b.pwr := rfl
@[simp] theorem Block.setSess_key (b : Block) (i : Nat) (x : Session) : (b.setSess i x).key = b.key := rfl
@[simp] theorem Block.setSess_tam (b : Block) (i : Nat) (x : Session) : (b.setSess i x).tam = b.tam := rfl
@[simp] theorem Block.setSess_acc (b : Block) (i : Nat) (x : Session) : (b.setSess i x).acc = b.acc := rfl
@[simp] theorem Block.setSess_tim (b : Block) (i : Nat) (x : Session) : (b.setSess i x).tim = b.tim := rfl
@[simp] theorem Block.setSess_aln (b : Block) (i : Nat) (x : Session) : (b.setSess i x).aln = b.aln := rfl
@[simp] theorem Block.setSess_mm (b : Block) (i : Nat) (x : Session) : (b.setSess i x).mm = b.mm := rfl
@[simp] theorem Block.setSess_dma (b : Block) (i : Nat) (x : Session) : (b.setSess i x).dma = b.dma := rfl
@[simp] theorem Block.setSess_que (b : Block) (i : Nat) (x : Session) : (b.setSess i x).que = b.que := rfl
@[simp] theorem Block.setSess_dfe (b : Block) (i : Nat) (x : Session) : (b.setSess i x).dfe = b.dfe := rfl
@[simp] theorem Block.setSess_prt (b : Block) (i : Nat) (x : Session) : (b.setSess i x).prt = b.prt := rfl
@[simp] theorem Block.setSess_str (b : Block) (i : Nat) (x : Session) : (b.setSess i x).str = b.str := rfl
@[simp] theorem Block.setSess_cas (b : Block) (i : Nat) (x : Session) : (b.setSess i x).cas = b.cas := rfl
@[simp] theorem Block.setSess_rpl (b : Block) (i : Nat) (x : Session) : (b.setSess i x).rpl = b.rpl := rfl
@[simp] theorem Block.setSess_isl (b : Block) (i : Nat) (x : Session) : (b.setSess i x).isl = b.isl := rfl
@[simp] theorem Block.setSess_alm (b : Block) (i : Nat) (x : Session) : (b.setSess i x).alm = b.alm := rfl
@[simp] theorem Block.setSess_cmp (b : Block) (i : Nat) (x : Session) : (b.setSess i x).cmp = b.cmp := rfl
@[simp] theorem Block.setSess_sdm (b : Block) (i : Nat) (x : Session) : (b.setSess i x).sdm = b.sdm := rfl
@[simp] theorem Block.setSess_nrg (b : Block) (i : Nat) (x : Session) : (b.setSess i x).nrg = b.nrg := rfl
@[simp] theorem Block.setSess_cap (b : Block) (i : Nat) (x : Session) : (b.setSess i x).cap = b.cap := rfl
@[simp] theorem Block.setSess_rad (b : Block) (i : Nat) (x : Session) : (b.setSess i x).rad = b.rad := rfl
@[simp] theorem Block.setSess_red (b : Block) (i : Nat) (x : Session) : (b.setSess i x).red = b.red := rfl

/-! ### Setter: setCore -/

@[simp] theorem Block.setCore_t7 (b : Block) (c : Nat) (x : Core) : (b.setCore c x).t7 = b.t7 := rfl
@[simp] theorem Block.setCore_free (b : Block) (c : Nat) (x : Core) : (b.setCore c x).free = b.free := rfl
@[simp] theorem Block.setCore_regs (b : Block) (c : Nat) (x : Core) : (b.setCore c x).regs = b.regs := rfl
@[simp] theorem Block.setCore_resp (b : Block) (c : Nat) (x : Core) : (b.setCore c x).resp = b.resp := rfl
@[simp] theorem Block.setCore_latch (b : Block) (c : Nat) (x : Core) : (b.setCore c x).latch = b.latch := rfl
@[simp] theorem Block.setCore_rep (b : Block) (c : Nat) (x : Core) : (b.setCore c x).rep = b.rep := rfl
@[simp] theorem Block.setCore_mem (b : Block) (c : Nat) (x : Core) : (b.setCore c x).mem = b.mem := rfl
@[simp] theorem Block.setCore_evr (b : Block) (c : Nat) (x : Core) : (b.setCore c x).evr = b.evr := rfl
@[simp] theorem Block.setCore_sys (b : Block) (c : Nat) (x : Core) : (b.setCore c x).sys = b.sys := rfl
@[simp] theorem Block.setCore_pwr (b : Block) (c : Nat) (x : Core) : (b.setCore c x).pwr = b.pwr := rfl
@[simp] theorem Block.setCore_key (b : Block) (c : Nat) (x : Core) : (b.setCore c x).key = b.key := rfl
@[simp] theorem Block.setCore_tam (b : Block) (c : Nat) (x : Core) : (b.setCore c x).tam = b.tam := rfl
@[simp] theorem Block.setCore_acc (b : Block) (c : Nat) (x : Core) : (b.setCore c x).acc = b.acc := rfl
@[simp] theorem Block.setCore_tim (b : Block) (c : Nat) (x : Core) : (b.setCore c x).tim = b.tim := rfl
@[simp] theorem Block.setCore_aln (b : Block) (c : Nat) (x : Core) : (b.setCore c x).aln = b.aln := rfl
@[simp] theorem Block.setCore_mm (b : Block) (c : Nat) (x : Core) : (b.setCore c x).mm = b.mm := rfl
@[simp] theorem Block.setCore_dma (b : Block) (c : Nat) (x : Core) : (b.setCore c x).dma = b.dma := rfl
@[simp] theorem Block.setCore_que (b : Block) (c : Nat) (x : Core) : (b.setCore c x).que = b.que := rfl
@[simp] theorem Block.setCore_prt (b : Block) (c : Nat) (x : Core) : (b.setCore c x).prt = b.prt := rfl
@[simp] theorem Block.setCore_str (b : Block) (c : Nat) (x : Core) : (b.setCore c x).str = b.str := rfl
@[simp] theorem Block.setCore_out (b : Block) (c : Nat) (x : Core) : (b.setCore c x).out = b.out := rfl
@[simp] theorem Block.setCore_cas (b : Block) (c : Nat) (x : Core) : (b.setCore c x).cas = b.cas := rfl
@[simp] theorem Block.setCore_rpl (b : Block) (c : Nat) (x : Core) : (b.setCore c x).rpl = b.rpl := rfl
@[simp] theorem Block.setCore_isl (b : Block) (c : Nat) (x : Core) : (b.setCore c x).isl = b.isl := rfl
@[simp] theorem Block.setCore_alm (b : Block) (c : Nat) (x : Core) : (b.setCore c x).alm = b.alm := rfl
@[simp] theorem Block.setCore_cmp (b : Block) (c : Nat) (x : Core) : (b.setCore c x).cmp = b.cmp := rfl
@[simp] theorem Block.setCore_sdm (b : Block) (c : Nat) (x : Core) : (b.setCore c x).sdm = b.sdm := rfl
@[simp] theorem Block.setCore_nrg (b : Block) (c : Nat) (x : Core) : (b.setCore c x).nrg = b.nrg := rfl
@[simp] theorem Block.setCore_cap (b : Block) (c : Nat) (x : Core) : (b.setCore c x).cap = b.cap := rfl
@[simp] theorem Block.setCore_rad (b : Block) (c : Nat) (x : Core) : (b.setCore c x).rad = b.rad := rfl
@[simp] theorem Block.setCore_red (b : Block) (c : Nat) (x : Core) : (b.setCore c x).red = b.red := rfl

/-! ### Setter: setRing -/

@[simp] theorem Block.setRing_t7 (b : Block) (r : Nat) (x : Ring) : (b.setRing r x).t7 = b.t7 := rfl
@[simp] theorem Block.setRing_free (b : Block) (r : Nat) (x : Ring) : (b.setRing r x).free = b.free := rfl
@[simp] theorem Block.setRing_regs (b : Block) (r : Nat) (x : Ring) : (b.setRing r x).regs = b.regs := rfl
@[simp] theorem Block.setRing_resp (b : Block) (r : Nat) (x : Ring) : (b.setRing r x).resp = b.resp := rfl
@[simp] theorem Block.setRing_latch (b : Block) (r : Nat) (x : Ring) : (b.setRing r x).latch = b.latch := rfl
@[simp] theorem Block.setRing_rep (b : Block) (r : Nat) (x : Ring) : (b.setRing r x).rep = b.rep := rfl
@[simp] theorem Block.setRing_mem (b : Block) (r : Nat) (x : Ring) : (b.setRing r x).mem = b.mem := rfl
@[simp] theorem Block.setRing_evr (b : Block) (r : Nat) (x : Ring) : (b.setRing r x).evr = b.evr := rfl
@[simp] theorem Block.setRing_sys (b : Block) (r : Nat) (x : Ring) : (b.setRing r x).sys = b.sys := rfl
@[simp] theorem Block.setRing_pwr (b : Block) (r : Nat) (x : Ring) : (b.setRing r x).pwr = b.pwr := rfl
@[simp] theorem Block.setRing_key (b : Block) (r : Nat) (x : Ring) : (b.setRing r x).key = b.key := rfl
@[simp] theorem Block.setRing_tam (b : Block) (r : Nat) (x : Ring) : (b.setRing r x).tam = b.tam := rfl
@[simp] theorem Block.setRing_acc (b : Block) (r : Nat) (x : Ring) : (b.setRing r x).acc = b.acc := rfl
@[simp] theorem Block.setRing_tim (b : Block) (r : Nat) (x : Ring) : (b.setRing r x).tim = b.tim := rfl
@[simp] theorem Block.setRing_mm (b : Block) (r : Nat) (x : Ring) : (b.setRing r x).mm = b.mm := rfl
@[simp] theorem Block.setRing_dma (b : Block) (r : Nat) (x : Ring) : (b.setRing r x).dma = b.dma := rfl
@[simp] theorem Block.setRing_que (b : Block) (r : Nat) (x : Ring) : (b.setRing r x).que = b.que := rfl
@[simp] theorem Block.setRing_dfe (b : Block) (r : Nat) (x : Ring) : (b.setRing r x).dfe = b.dfe := rfl
@[simp] theorem Block.setRing_prt (b : Block) (r : Nat) (x : Ring) : (b.setRing r x).prt = b.prt := rfl
@[simp] theorem Block.setRing_str (b : Block) (r : Nat) (x : Ring) : (b.setRing r x).str = b.str := rfl
@[simp] theorem Block.setRing_out (b : Block) (r : Nat) (x : Ring) : (b.setRing r x).out = b.out := rfl
@[simp] theorem Block.setRing_cas (b : Block) (r : Nat) (x : Ring) : (b.setRing r x).cas = b.cas := rfl
@[simp] theorem Block.setRing_rpl (b : Block) (r : Nat) (x : Ring) : (b.setRing r x).rpl = b.rpl := rfl
@[simp] theorem Block.setRing_isl (b : Block) (r : Nat) (x : Ring) : (b.setRing r x).isl = b.isl := rfl
@[simp] theorem Block.setRing_alm (b : Block) (r : Nat) (x : Ring) : (b.setRing r x).alm = b.alm := rfl
@[simp] theorem Block.setRing_cmp (b : Block) (r : Nat) (x : Ring) : (b.setRing r x).cmp = b.cmp := rfl
@[simp] theorem Block.setRing_sdm (b : Block) (r : Nat) (x : Ring) : (b.setRing r x).sdm = b.sdm := rfl
@[simp] theorem Block.setRing_nrg (b : Block) (r : Nat) (x : Ring) : (b.setRing r x).nrg = b.nrg := rfl
@[simp] theorem Block.setRing_cap (b : Block) (r : Nat) (x : Ring) : (b.setRing r x).cap = b.cap := rfl
@[simp] theorem Block.setRing_rad (b : Block) (r : Nat) (x : Ring) : (b.setRing r x).rad = b.rad := rfl
@[simp] theorem Block.setRing_red (b : Block) (r : Nat) (x : Ring) : (b.setRing r x).red = b.red := rfl

/-! ### Setter: setBasin -/

@[simp] theorem Block.setBasin_t7 (b : Block) (r p : Nat) (x : Basin) : (b.setBasin r p x).t7 = b.t7 := rfl
@[simp] theorem Block.setBasin_free (b : Block) (r p : Nat) (x : Basin) : (b.setBasin r p x).free = b.free := rfl
@[simp] theorem Block.setBasin_regs (b : Block) (r p : Nat) (x : Basin) : (b.setBasin r p x).regs = b.regs := rfl
@[simp] theorem Block.setBasin_resp (b : Block) (r p : Nat) (x : Basin) : (b.setBasin r p x).resp = b.resp := rfl
@[simp] theorem Block.setBasin_latch (b : Block) (r p : Nat) (x : Basin) : (b.setBasin r p x).latch = b.latch := rfl
@[simp] theorem Block.setBasin_rep (b : Block) (r p : Nat) (x : Basin) : (b.setBasin r p x).rep = b.rep := rfl
@[simp] theorem Block.setBasin_mem (b : Block) (r p : Nat) (x : Basin) : (b.setBasin r p x).mem = b.mem := rfl
@[simp] theorem Block.setBasin_evr (b : Block) (r p : Nat) (x : Basin) : (b.setBasin r p x).evr = b.evr := rfl
@[simp] theorem Block.setBasin_sys (b : Block) (r p : Nat) (x : Basin) : (b.setBasin r p x).sys = b.sys := rfl
@[simp] theorem Block.setBasin_pwr (b : Block) (r p : Nat) (x : Basin) : (b.setBasin r p x).pwr = b.pwr := rfl
@[simp] theorem Block.setBasin_key (b : Block) (r p : Nat) (x : Basin) : (b.setBasin r p x).key = b.key := rfl
@[simp] theorem Block.setBasin_tam (b : Block) (r p : Nat) (x : Basin) : (b.setBasin r p x).tam = b.tam := rfl
@[simp] theorem Block.setBasin_acc (b : Block) (r p : Nat) (x : Basin) : (b.setBasin r p x).acc = b.acc := rfl
@[simp] theorem Block.setBasin_tim (b : Block) (r p : Nat) (x : Basin) : (b.setBasin r p x).tim = b.tim := rfl
@[simp] theorem Block.setBasin_mm (b : Block) (r p : Nat) (x : Basin) : (b.setBasin r p x).mm = b.mm := rfl
@[simp] theorem Block.setBasin_dma (b : Block) (r p : Nat) (x : Basin) : (b.setBasin r p x).dma = b.dma := rfl
@[simp] theorem Block.setBasin_que (b : Block) (r p : Nat) (x : Basin) : (b.setBasin r p x).que = b.que := rfl
@[simp] theorem Block.setBasin_dfe (b : Block) (r p : Nat) (x : Basin) : (b.setBasin r p x).dfe = b.dfe := rfl
@[simp] theorem Block.setBasin_prt (b : Block) (r p : Nat) (x : Basin) : (b.setBasin r p x).prt = b.prt := rfl
@[simp] theorem Block.setBasin_str (b : Block) (r p : Nat) (x : Basin) : (b.setBasin r p x).str = b.str := rfl
@[simp] theorem Block.setBasin_out (b : Block) (r p : Nat) (x : Basin) : (b.setBasin r p x).out = b.out := rfl
@[simp] theorem Block.setBasin_cas (b : Block) (r p : Nat) (x : Basin) : (b.setBasin r p x).cas = b.cas := rfl
@[simp] theorem Block.setBasin_rpl (b : Block) (r p : Nat) (x : Basin) : (b.setBasin r p x).rpl = b.rpl := rfl
@[simp] theorem Block.setBasin_isl (b : Block) (r p : Nat) (x : Basin) : (b.setBasin r p x).isl = b.isl := rfl
@[simp] theorem Block.setBasin_alm (b : Block) (r p : Nat) (x : Basin) : (b.setBasin r p x).alm = b.alm := rfl
@[simp] theorem Block.setBasin_cmp (b : Block) (r p : Nat) (x : Basin) : (b.setBasin r p x).cmp = b.cmp := rfl
@[simp] theorem Block.setBasin_sdm (b : Block) (r p : Nat) (x : Basin) : (b.setBasin r p x).sdm = b.sdm := rfl
@[simp] theorem Block.setBasin_nrg (b : Block) (r p : Nat) (x : Basin) : (b.setBasin r p x).nrg = b.nrg := rfl
@[simp] theorem Block.setBasin_cap (b : Block) (r p : Nat) (x : Basin) : (b.setBasin r p x).cap = b.cap := rfl
@[simp] theorem Block.setBasin_rad (b : Block) (r p : Nat) (x : Basin) : (b.setBasin r p x).rad = b.rad := rfl
@[simp] theorem Block.setBasin_red (b : Block) (r p : Nat) (x : Basin) : (b.setBasin r p x).red = b.red := rfl

/-! ### Setter: setAlnCtx -/

@[simp] theorem Block.setAlnCtx_t7 (b : Block) (c : Nat) (x : AlnCtx) : (b.setAlnCtx c x).t7 = b.t7 := rfl
@[simp] theorem Block.setAlnCtx_free (b : Block) (c : Nat) (x : AlnCtx) : (b.setAlnCtx c x).free = b.free := rfl
@[simp] theorem Block.setAlnCtx_regs (b : Block) (c : Nat) (x : AlnCtx) : (b.setAlnCtx c x).regs = b.regs := rfl
@[simp] theorem Block.setAlnCtx_resp (b : Block) (c : Nat) (x : AlnCtx) : (b.setAlnCtx c x).resp = b.resp := rfl
@[simp] theorem Block.setAlnCtx_latch (b : Block) (c : Nat) (x : AlnCtx) : (b.setAlnCtx c x).latch = b.latch := rfl
@[simp] theorem Block.setAlnCtx_rep (b : Block) (c : Nat) (x : AlnCtx) : (b.setAlnCtx c x).rep = b.rep := rfl
@[simp] theorem Block.setAlnCtx_mem (b : Block) (c : Nat) (x : AlnCtx) : (b.setAlnCtx c x).mem = b.mem := rfl
@[simp] theorem Block.setAlnCtx_evr (b : Block) (c : Nat) (x : AlnCtx) : (b.setAlnCtx c x).evr = b.evr := rfl
@[simp] theorem Block.setAlnCtx_sys (b : Block) (c : Nat) (x : AlnCtx) : (b.setAlnCtx c x).sys = b.sys := rfl
@[simp] theorem Block.setAlnCtx_pwr (b : Block) (c : Nat) (x : AlnCtx) : (b.setAlnCtx c x).pwr = b.pwr := rfl
@[simp] theorem Block.setAlnCtx_key (b : Block) (c : Nat) (x : AlnCtx) : (b.setAlnCtx c x).key = b.key := rfl
@[simp] theorem Block.setAlnCtx_tam (b : Block) (c : Nat) (x : AlnCtx) : (b.setAlnCtx c x).tam = b.tam := rfl
@[simp] theorem Block.setAlnCtx_acc (b : Block) (c : Nat) (x : AlnCtx) : (b.setAlnCtx c x).acc = b.acc := rfl
@[simp] theorem Block.setAlnCtx_tim (b : Block) (c : Nat) (x : AlnCtx) : (b.setAlnCtx c x).tim = b.tim := rfl
@[simp] theorem Block.setAlnCtx_mm (b : Block) (c : Nat) (x : AlnCtx) : (b.setAlnCtx c x).mm = b.mm := rfl
@[simp] theorem Block.setAlnCtx_dma (b : Block) (c : Nat) (x : AlnCtx) : (b.setAlnCtx c x).dma = b.dma := rfl
@[simp] theorem Block.setAlnCtx_que (b : Block) (c : Nat) (x : AlnCtx) : (b.setAlnCtx c x).que = b.que := rfl
@[simp] theorem Block.setAlnCtx_dfe (b : Block) (c : Nat) (x : AlnCtx) : (b.setAlnCtx c x).dfe = b.dfe := rfl
@[simp] theorem Block.setAlnCtx_prt (b : Block) (c : Nat) (x : AlnCtx) : (b.setAlnCtx c x).prt = b.prt := rfl
@[simp] theorem Block.setAlnCtx_str (b : Block) (c : Nat) (x : AlnCtx) : (b.setAlnCtx c x).str = b.str := rfl
@[simp] theorem Block.setAlnCtx_out (b : Block) (c : Nat) (x : AlnCtx) : (b.setAlnCtx c x).out = b.out := rfl
@[simp] theorem Block.setAlnCtx_cas (b : Block) (c : Nat) (x : AlnCtx) : (b.setAlnCtx c x).cas = b.cas := rfl
@[simp] theorem Block.setAlnCtx_rpl (b : Block) (c : Nat) (x : AlnCtx) : (b.setAlnCtx c x).rpl = b.rpl := rfl
@[simp] theorem Block.setAlnCtx_isl (b : Block) (c : Nat) (x : AlnCtx) : (b.setAlnCtx c x).isl = b.isl := rfl
@[simp] theorem Block.setAlnCtx_alm (b : Block) (c : Nat) (x : AlnCtx) : (b.setAlnCtx c x).alm = b.alm := rfl
@[simp] theorem Block.setAlnCtx_cmp (b : Block) (c : Nat) (x : AlnCtx) : (b.setAlnCtx c x).cmp = b.cmp := rfl
@[simp] theorem Block.setAlnCtx_sdm (b : Block) (c : Nat) (x : AlnCtx) : (b.setAlnCtx c x).sdm = b.sdm := rfl
@[simp] theorem Block.setAlnCtx_nrg (b : Block) (c : Nat) (x : AlnCtx) : (b.setAlnCtx c x).nrg = b.nrg := rfl
@[simp] theorem Block.setAlnCtx_cap (b : Block) (c : Nat) (x : AlnCtx) : (b.setAlnCtx c x).cap = b.cap := rfl
@[simp] theorem Block.setAlnCtx_rad (b : Block) (c : Nat) (x : AlnCtx) : (b.setAlnCtx c x).rad = b.rad := rfl
@[simp] theorem Block.setAlnCtx_red (b : Block) (c : Nat) (x : AlnCtx) : (b.setAlnCtx c x).red = b.red := rfl

/-! ### Setter: setDmaCh -/

@[simp] theorem Block.setDmaCh_t7 (b : Block) (c : Nat) (x : DmaCh) : (b.setDmaCh c x).t7 = b.t7 := rfl
@[simp] theorem Block.setDmaCh_free (b : Block) (c : Nat) (x : DmaCh) : (b.setDmaCh c x).free = b.free := rfl
@[simp] theorem Block.setDmaCh_regs (b : Block) (c : Nat) (x : DmaCh) : (b.setDmaCh c x).regs = b.regs := rfl
@[simp] theorem Block.setDmaCh_resp (b : Block) (c : Nat) (x : DmaCh) : (b.setDmaCh c x).resp = b.resp := rfl
@[simp] theorem Block.setDmaCh_latch (b : Block) (c : Nat) (x : DmaCh) : (b.setDmaCh c x).latch = b.latch := rfl
@[simp] theorem Block.setDmaCh_rep (b : Block) (c : Nat) (x : DmaCh) : (b.setDmaCh c x).rep = b.rep := rfl
@[simp] theorem Block.setDmaCh_mem (b : Block) (c : Nat) (x : DmaCh) : (b.setDmaCh c x).mem = b.mem := rfl
@[simp] theorem Block.setDmaCh_evr (b : Block) (c : Nat) (x : DmaCh) : (b.setDmaCh c x).evr = b.evr := rfl
@[simp] theorem Block.setDmaCh_sys (b : Block) (c : Nat) (x : DmaCh) : (b.setDmaCh c x).sys = b.sys := rfl
@[simp] theorem Block.setDmaCh_pwr (b : Block) (c : Nat) (x : DmaCh) : (b.setDmaCh c x).pwr = b.pwr := rfl
@[simp] theorem Block.setDmaCh_key (b : Block) (c : Nat) (x : DmaCh) : (b.setDmaCh c x).key = b.key := rfl
@[simp] theorem Block.setDmaCh_tam (b : Block) (c : Nat) (x : DmaCh) : (b.setDmaCh c x).tam = b.tam := rfl
@[simp] theorem Block.setDmaCh_acc (b : Block) (c : Nat) (x : DmaCh) : (b.setDmaCh c x).acc = b.acc := rfl
@[simp] theorem Block.setDmaCh_tim (b : Block) (c : Nat) (x : DmaCh) : (b.setDmaCh c x).tim = b.tim := rfl
@[simp] theorem Block.setDmaCh_aln (b : Block) (c : Nat) (x : DmaCh) : (b.setDmaCh c x).aln = b.aln := rfl
@[simp] theorem Block.setDmaCh_mm (b : Block) (c : Nat) (x : DmaCh) : (b.setDmaCh c x).mm = b.mm := rfl
@[simp] theorem Block.setDmaCh_que (b : Block) (c : Nat) (x : DmaCh) : (b.setDmaCh c x).que = b.que := rfl
@[simp] theorem Block.setDmaCh_dfe (b : Block) (c : Nat) (x : DmaCh) : (b.setDmaCh c x).dfe = b.dfe := rfl
@[simp] theorem Block.setDmaCh_prt (b : Block) (c : Nat) (x : DmaCh) : (b.setDmaCh c x).prt = b.prt := rfl
@[simp] theorem Block.setDmaCh_str (b : Block) (c : Nat) (x : DmaCh) : (b.setDmaCh c x).str = b.str := rfl
@[simp] theorem Block.setDmaCh_out (b : Block) (c : Nat) (x : DmaCh) : (b.setDmaCh c x).out = b.out := rfl
@[simp] theorem Block.setDmaCh_cas (b : Block) (c : Nat) (x : DmaCh) : (b.setDmaCh c x).cas = b.cas := rfl
@[simp] theorem Block.setDmaCh_rpl (b : Block) (c : Nat) (x : DmaCh) : (b.setDmaCh c x).rpl = b.rpl := rfl
@[simp] theorem Block.setDmaCh_isl (b : Block) (c : Nat) (x : DmaCh) : (b.setDmaCh c x).isl = b.isl := rfl
@[simp] theorem Block.setDmaCh_alm (b : Block) (c : Nat) (x : DmaCh) : (b.setDmaCh c x).alm = b.alm := rfl
@[simp] theorem Block.setDmaCh_cmp (b : Block) (c : Nat) (x : DmaCh) : (b.setDmaCh c x).cmp = b.cmp := rfl
@[simp] theorem Block.setDmaCh_sdm (b : Block) (c : Nat) (x : DmaCh) : (b.setDmaCh c x).sdm = b.sdm := rfl
@[simp] theorem Block.setDmaCh_nrg (b : Block) (c : Nat) (x : DmaCh) : (b.setDmaCh c x).nrg = b.nrg := rfl
@[simp] theorem Block.setDmaCh_cap (b : Block) (c : Nat) (x : DmaCh) : (b.setDmaCh c x).cap = b.cap := rfl
@[simp] theorem Block.setDmaCh_rad (b : Block) (c : Nat) (x : DmaCh) : (b.setDmaCh c x).rad = b.rad := rfl
@[simp] theorem Block.setDmaCh_red (b : Block) (c : Nat) (x : DmaCh) : (b.setDmaCh c x).red = b.red := rfl

/-! ### Setter: setRunning -/

@[simp] theorem Block.setRunning_t7 (b : Block) (e : Nat) (c : Option Nat) : (b.setRunning e c).t7 = b.t7 := rfl
@[simp] theorem Block.setRunning_free (b : Block) (e : Nat) (c : Option Nat) : (b.setRunning e c).free = b.free := rfl
@[simp] theorem Block.setRunning_regs (b : Block) (e : Nat) (c : Option Nat) : (b.setRunning e c).regs = b.regs := rfl
@[simp] theorem Block.setRunning_resp (b : Block) (e : Nat) (c : Option Nat) : (b.setRunning e c).resp = b.resp := rfl
@[simp] theorem Block.setRunning_latch (b : Block) (e : Nat) (c : Option Nat) : (b.setRunning e c).latch = b.latch := rfl
@[simp] theorem Block.setRunning_rep (b : Block) (e : Nat) (c : Option Nat) : (b.setRunning e c).rep = b.rep := rfl
@[simp] theorem Block.setRunning_mem (b : Block) (e : Nat) (c : Option Nat) : (b.setRunning e c).mem = b.mem := rfl
@[simp] theorem Block.setRunning_evr (b : Block) (e : Nat) (c : Option Nat) : (b.setRunning e c).evr = b.evr := rfl
@[simp] theorem Block.setRunning_sys (b : Block) (e : Nat) (c : Option Nat) : (b.setRunning e c).sys = b.sys := rfl
@[simp] theorem Block.setRunning_pwr (b : Block) (e : Nat) (c : Option Nat) : (b.setRunning e c).pwr = b.pwr := rfl
@[simp] theorem Block.setRunning_key (b : Block) (e : Nat) (c : Option Nat) : (b.setRunning e c).key = b.key := rfl
@[simp] theorem Block.setRunning_tam (b : Block) (e : Nat) (c : Option Nat) : (b.setRunning e c).tam = b.tam := rfl
@[simp] theorem Block.setRunning_acc (b : Block) (e : Nat) (c : Option Nat) : (b.setRunning e c).acc = b.acc := rfl
@[simp] theorem Block.setRunning_tim (b : Block) (e : Nat) (c : Option Nat) : (b.setRunning e c).tim = b.tim := rfl
@[simp] theorem Block.setRunning_aln (b : Block) (e : Nat) (c : Option Nat) : (b.setRunning e c).aln = b.aln := rfl
@[simp] theorem Block.setRunning_mm (b : Block) (e : Nat) (c : Option Nat) : (b.setRunning e c).mm = b.mm := rfl
@[simp] theorem Block.setRunning_que (b : Block) (e : Nat) (c : Option Nat) : (b.setRunning e c).que = b.que := rfl
@[simp] theorem Block.setRunning_dfe (b : Block) (e : Nat) (c : Option Nat) : (b.setRunning e c).dfe = b.dfe := rfl
@[simp] theorem Block.setRunning_prt (b : Block) (e : Nat) (c : Option Nat) : (b.setRunning e c).prt = b.prt := rfl
@[simp] theorem Block.setRunning_str (b : Block) (e : Nat) (c : Option Nat) : (b.setRunning e c).str = b.str := rfl
@[simp] theorem Block.setRunning_out (b : Block) (e : Nat) (c : Option Nat) : (b.setRunning e c).out = b.out := rfl
@[simp] theorem Block.setRunning_cas (b : Block) (e : Nat) (c : Option Nat) : (b.setRunning e c).cas = b.cas := rfl
@[simp] theorem Block.setRunning_rpl (b : Block) (e : Nat) (c : Option Nat) : (b.setRunning e c).rpl = b.rpl := rfl
@[simp] theorem Block.setRunning_isl (b : Block) (e : Nat) (c : Option Nat) : (b.setRunning e c).isl = b.isl := rfl
@[simp] theorem Block.setRunning_alm (b : Block) (e : Nat) (c : Option Nat) : (b.setRunning e c).alm = b.alm := rfl
@[simp] theorem Block.setRunning_cmp (b : Block) (e : Nat) (c : Option Nat) : (b.setRunning e c).cmp = b.cmp := rfl
@[simp] theorem Block.setRunning_sdm (b : Block) (e : Nat) (c : Option Nat) : (b.setRunning e c).sdm = b.sdm := rfl
@[simp] theorem Block.setRunning_nrg (b : Block) (e : Nat) (c : Option Nat) : (b.setRunning e c).nrg = b.nrg := rfl
@[simp] theorem Block.setRunning_cap (b : Block) (e : Nat) (c : Option Nat) : (b.setRunning e c).cap = b.cap := rfl
@[simp] theorem Block.setRunning_rad (b : Block) (e : Nat) (c : Option Nat) : (b.setRunning e c).rad = b.rad := rfl
@[simp] theorem Block.setRunning_red (b : Block) (e : Nat) (c : Option Nat) : (b.setRunning e c).red = b.red := rfl

/-! ### Setter: setMunit -/

@[simp] theorem Block.setMunit_t7 (b : Block) (m : Nat) (x : MemUnit) : (b.setMunit m x).t7 = b.t7 := rfl
@[simp] theorem Block.setMunit_free (b : Block) (m : Nat) (x : MemUnit) : (b.setMunit m x).free = b.free := rfl
@[simp] theorem Block.setMunit_regs (b : Block) (m : Nat) (x : MemUnit) : (b.setMunit m x).regs = b.regs := rfl
@[simp] theorem Block.setMunit_resp (b : Block) (m : Nat) (x : MemUnit) : (b.setMunit m x).resp = b.resp := rfl
@[simp] theorem Block.setMunit_latch (b : Block) (m : Nat) (x : MemUnit) : (b.setMunit m x).latch = b.latch := rfl
@[simp] theorem Block.setMunit_rep (b : Block) (m : Nat) (x : MemUnit) : (b.setMunit m x).rep = b.rep := rfl
@[simp] theorem Block.setMunit_mem (b : Block) (m : Nat) (x : MemUnit) : (b.setMunit m x).mem = b.mem := rfl
@[simp] theorem Block.setMunit_evr (b : Block) (m : Nat) (x : MemUnit) : (b.setMunit m x).evr = b.evr := rfl
@[simp] theorem Block.setMunit_sys (b : Block) (m : Nat) (x : MemUnit) : (b.setMunit m x).sys = b.sys := rfl
@[simp] theorem Block.setMunit_pwr (b : Block) (m : Nat) (x : MemUnit) : (b.setMunit m x).pwr = b.pwr := rfl
@[simp] theorem Block.setMunit_key (b : Block) (m : Nat) (x : MemUnit) : (b.setMunit m x).key = b.key := rfl
@[simp] theorem Block.setMunit_tam (b : Block) (m : Nat) (x : MemUnit) : (b.setMunit m x).tam = b.tam := rfl
@[simp] theorem Block.setMunit_acc (b : Block) (m : Nat) (x : MemUnit) : (b.setMunit m x).acc = b.acc := rfl
@[simp] theorem Block.setMunit_tim (b : Block) (m : Nat) (x : MemUnit) : (b.setMunit m x).tim = b.tim := rfl
@[simp] theorem Block.setMunit_aln (b : Block) (m : Nat) (x : MemUnit) : (b.setMunit m x).aln = b.aln := rfl
@[simp] theorem Block.setMunit_dma (b : Block) (m : Nat) (x : MemUnit) : (b.setMunit m x).dma = b.dma := rfl
@[simp] theorem Block.setMunit_que (b : Block) (m : Nat) (x : MemUnit) : (b.setMunit m x).que = b.que := rfl
@[simp] theorem Block.setMunit_dfe (b : Block) (m : Nat) (x : MemUnit) : (b.setMunit m x).dfe = b.dfe := rfl
@[simp] theorem Block.setMunit_prt (b : Block) (m : Nat) (x : MemUnit) : (b.setMunit m x).prt = b.prt := rfl
@[simp] theorem Block.setMunit_str (b : Block) (m : Nat) (x : MemUnit) : (b.setMunit m x).str = b.str := rfl
@[simp] theorem Block.setMunit_out (b : Block) (m : Nat) (x : MemUnit) : (b.setMunit m x).out = b.out := rfl
@[simp] theorem Block.setMunit_cas (b : Block) (m : Nat) (x : MemUnit) : (b.setMunit m x).cas = b.cas := rfl
@[simp] theorem Block.setMunit_rpl (b : Block) (m : Nat) (x : MemUnit) : (b.setMunit m x).rpl = b.rpl := rfl
@[simp] theorem Block.setMunit_isl (b : Block) (m : Nat) (x : MemUnit) : (b.setMunit m x).isl = b.isl := rfl
@[simp] theorem Block.setMunit_alm (b : Block) (m : Nat) (x : MemUnit) : (b.setMunit m x).alm = b.alm := rfl
@[simp] theorem Block.setMunit_cmp (b : Block) (m : Nat) (x : MemUnit) : (b.setMunit m x).cmp = b.cmp := rfl
@[simp] theorem Block.setMunit_sdm (b : Block) (m : Nat) (x : MemUnit) : (b.setMunit m x).sdm = b.sdm := rfl
@[simp] theorem Block.setMunit_nrg (b : Block) (m : Nat) (x : MemUnit) : (b.setMunit m x).nrg = b.nrg := rfl
@[simp] theorem Block.setMunit_cap (b : Block) (m : Nat) (x : MemUnit) : (b.setMunit m x).cap = b.cap := rfl
@[simp] theorem Block.setMunit_rad (b : Block) (m : Nat) (x : MemUnit) : (b.setMunit m x).rad = b.rad := rfl
@[simp] theorem Block.setMunit_red (b : Block) (m : Nat) (x : MemUnit) : (b.setMunit m x).red = b.red := rfl

/-! ### Setter: setGrp -/

@[simp] theorem Block.setGrp_t7 (b : Block) (g : Nat) (x : CmpGroup) : (b.setGrp g x).t7 = b.t7 := rfl
@[simp] theorem Block.setGrp_free (b : Block) (g : Nat) (x : CmpGroup) : (b.setGrp g x).free = b.free := rfl
@[simp] theorem Block.setGrp_regs (b : Block) (g : Nat) (x : CmpGroup) : (b.setGrp g x).regs = b.regs := rfl
@[simp] theorem Block.setGrp_resp (b : Block) (g : Nat) (x : CmpGroup) : (b.setGrp g x).resp = b.resp := rfl
@[simp] theorem Block.setGrp_latch (b : Block) (g : Nat) (x : CmpGroup) : (b.setGrp g x).latch = b.latch := rfl
@[simp] theorem Block.setGrp_rep (b : Block) (g : Nat) (x : CmpGroup) : (b.setGrp g x).rep = b.rep := rfl
@[simp] theorem Block.setGrp_mem (b : Block) (g : Nat) (x : CmpGroup) : (b.setGrp g x).mem = b.mem := rfl
@[simp] theorem Block.setGrp_evr (b : Block) (g : Nat) (x : CmpGroup) : (b.setGrp g x).evr = b.evr := rfl
@[simp] theorem Block.setGrp_sys (b : Block) (g : Nat) (x : CmpGroup) : (b.setGrp g x).sys = b.sys := rfl
@[simp] theorem Block.setGrp_pwr (b : Block) (g : Nat) (x : CmpGroup) : (b.setGrp g x).pwr = b.pwr := rfl
@[simp] theorem Block.setGrp_key (b : Block) (g : Nat) (x : CmpGroup) : (b.setGrp g x).key = b.key := rfl
@[simp] theorem Block.setGrp_tam (b : Block) (g : Nat) (x : CmpGroup) : (b.setGrp g x).tam = b.tam := rfl
@[simp] theorem Block.setGrp_acc (b : Block) (g : Nat) (x : CmpGroup) : (b.setGrp g x).acc = b.acc := rfl
@[simp] theorem Block.setGrp_tim (b : Block) (g : Nat) (x : CmpGroup) : (b.setGrp g x).tim = b.tim := rfl
@[simp] theorem Block.setGrp_aln (b : Block) (g : Nat) (x : CmpGroup) : (b.setGrp g x).aln = b.aln := rfl
@[simp] theorem Block.setGrp_mm (b : Block) (g : Nat) (x : CmpGroup) : (b.setGrp g x).mm = b.mm := rfl
@[simp] theorem Block.setGrp_dma (b : Block) (g : Nat) (x : CmpGroup) : (b.setGrp g x).dma = b.dma := rfl
@[simp] theorem Block.setGrp_que (b : Block) (g : Nat) (x : CmpGroup) : (b.setGrp g x).que = b.que := rfl
@[simp] theorem Block.setGrp_dfe (b : Block) (g : Nat) (x : CmpGroup) : (b.setGrp g x).dfe = b.dfe := rfl
@[simp] theorem Block.setGrp_prt (b : Block) (g : Nat) (x : CmpGroup) : (b.setGrp g x).prt = b.prt := rfl
@[simp] theorem Block.setGrp_str (b : Block) (g : Nat) (x : CmpGroup) : (b.setGrp g x).str = b.str := rfl
@[simp] theorem Block.setGrp_out (b : Block) (g : Nat) (x : CmpGroup) : (b.setGrp g x).out = b.out := rfl
@[simp] theorem Block.setGrp_cas (b : Block) (g : Nat) (x : CmpGroup) : (b.setGrp g x).cas = b.cas := rfl
@[simp] theorem Block.setGrp_rpl (b : Block) (g : Nat) (x : CmpGroup) : (b.setGrp g x).rpl = b.rpl := rfl
@[simp] theorem Block.setGrp_isl (b : Block) (g : Nat) (x : CmpGroup) : (b.setGrp g x).isl = b.isl := rfl
@[simp] theorem Block.setGrp_alm (b : Block) (g : Nat) (x : CmpGroup) : (b.setGrp g x).alm = b.alm := rfl
@[simp] theorem Block.setGrp_sdm (b : Block) (g : Nat) (x : CmpGroup) : (b.setGrp g x).sdm = b.sdm := rfl
@[simp] theorem Block.setGrp_nrg (b : Block) (g : Nat) (x : CmpGroup) : (b.setGrp g x).nrg = b.nrg := rfl
@[simp] theorem Block.setGrp_cap (b : Block) (g : Nat) (x : CmpGroup) : (b.setGrp g x).cap = b.cap := rfl
@[simp] theorem Block.setGrp_rad (b : Block) (g : Nat) (x : CmpGroup) : (b.setGrp g x).rad = b.rad := rfl
@[simp] theorem Block.setGrp_red (b : Block) (g : Nat) (x : CmpGroup) : (b.setGrp g x).red = b.red := rfl

/-! ### Setter: setCctx -/

@[simp] theorem Block.setCctx_t7 (b : Block) (c : Nat) (x : CmpCtx) : (b.setCctx c x).t7 = b.t7 := rfl
@[simp] theorem Block.setCctx_free (b : Block) (c : Nat) (x : CmpCtx) : (b.setCctx c x).free = b.free := rfl
@[simp] theorem Block.setCctx_regs (b : Block) (c : Nat) (x : CmpCtx) : (b.setCctx c x).regs = b.regs := rfl
@[simp] theorem Block.setCctx_resp (b : Block) (c : Nat) (x : CmpCtx) : (b.setCctx c x).resp = b.resp := rfl
@[simp] theorem Block.setCctx_latch (b : Block) (c : Nat) (x : CmpCtx) : (b.setCctx c x).latch = b.latch := rfl
@[simp] theorem Block.setCctx_rep (b : Block) (c : Nat) (x : CmpCtx) : (b.setCctx c x).rep = b.rep := rfl
@[simp] theorem Block.setCctx_mem (b : Block) (c : Nat) (x : CmpCtx) : (b.setCctx c x).mem = b.mem := rfl
@[simp] theorem Block.setCctx_evr (b : Block) (c : Nat) (x : CmpCtx) : (b.setCctx c x).evr = b.evr := rfl
@[simp] theorem Block.setCctx_sys (b : Block) (c : Nat) (x : CmpCtx) : (b.setCctx c x).sys = b.sys := rfl
@[simp] theorem Block.setCctx_pwr (b : Block) (c : Nat) (x : CmpCtx) : (b.setCctx c x).pwr = b.pwr := rfl
@[simp] theorem Block.setCctx_key (b : Block) (c : Nat) (x : CmpCtx) : (b.setCctx c x).key = b.key := rfl
@[simp] theorem Block.setCctx_tam (b : Block) (c : Nat) (x : CmpCtx) : (b.setCctx c x).tam = b.tam := rfl
@[simp] theorem Block.setCctx_acc (b : Block) (c : Nat) (x : CmpCtx) : (b.setCctx c x).acc = b.acc := rfl
@[simp] theorem Block.setCctx_tim (b : Block) (c : Nat) (x : CmpCtx) : (b.setCctx c x).tim = b.tim := rfl
@[simp] theorem Block.setCctx_aln (b : Block) (c : Nat) (x : CmpCtx) : (b.setCctx c x).aln = b.aln := rfl
@[simp] theorem Block.setCctx_mm (b : Block) (c : Nat) (x : CmpCtx) : (b.setCctx c x).mm = b.mm := rfl
@[simp] theorem Block.setCctx_dma (b : Block) (c : Nat) (x : CmpCtx) : (b.setCctx c x).dma = b.dma := rfl
@[simp] theorem Block.setCctx_que (b : Block) (c : Nat) (x : CmpCtx) : (b.setCctx c x).que = b.que := rfl
@[simp] theorem Block.setCctx_dfe (b : Block) (c : Nat) (x : CmpCtx) : (b.setCctx c x).dfe = b.dfe := rfl
@[simp] theorem Block.setCctx_prt (b : Block) (c : Nat) (x : CmpCtx) : (b.setCctx c x).prt = b.prt := rfl
@[simp] theorem Block.setCctx_str (b : Block) (c : Nat) (x : CmpCtx) : (b.setCctx c x).str = b.str := rfl
@[simp] theorem Block.setCctx_out (b : Block) (c : Nat) (x : CmpCtx) : (b.setCctx c x).out = b.out := rfl
@[simp] theorem Block.setCctx_cas (b : Block) (c : Nat) (x : CmpCtx) : (b.setCctx c x).cas = b.cas := rfl
@[simp] theorem Block.setCctx_rpl (b : Block) (c : Nat) (x : CmpCtx) : (b.setCctx c x).rpl = b.rpl := rfl
@[simp] theorem Block.setCctx_isl (b : Block) (c : Nat) (x : CmpCtx) : (b.setCctx c x).isl = b.isl := rfl
@[simp] theorem Block.setCctx_alm (b : Block) (c : Nat) (x : CmpCtx) : (b.setCctx c x).alm = b.alm := rfl
@[simp] theorem Block.setCctx_sdm (b : Block) (c : Nat) (x : CmpCtx) : (b.setCctx c x).sdm = b.sdm := rfl
@[simp] theorem Block.setCctx_nrg (b : Block) (c : Nat) (x : CmpCtx) : (b.setCctx c x).nrg = b.nrg := rfl
@[simp] theorem Block.setCctx_cap (b : Block) (c : Nat) (x : CmpCtx) : (b.setCctx c x).cap = b.cap := rfl
@[simp] theorem Block.setCctx_rad (b : Block) (c : Nat) (x : CmpCtx) : (b.setCctx c x).rad = b.rad := rfl
@[simp] theorem Block.setCctx_red (b : Block) (c : Nat) (x : CmpCtx) : (b.setCctx c x).red = b.red := rfl

/-! ### Setter: setMbr -/

@[simp] theorem Block.setMbr_t7 (b : Block) (m : Nat) (x : CasMbr) : (b.setMbr m x).t7 = b.t7 := rfl
@[simp] theorem Block.setMbr_free (b : Block) (m : Nat) (x : CasMbr) : (b.setMbr m x).free = b.free := rfl
@[simp] theorem Block.setMbr_regs (b : Block) (m : Nat) (x : CasMbr) : (b.setMbr m x).regs = b.regs := rfl
@[simp] theorem Block.setMbr_resp (b : Block) (m : Nat) (x : CasMbr) : (b.setMbr m x).resp = b.resp := rfl
@[simp] theorem Block.setMbr_latch (b : Block) (m : Nat) (x : CasMbr) : (b.setMbr m x).latch = b.latch := rfl
@[simp] theorem Block.setMbr_rep (b : Block) (m : Nat) (x : CasMbr) : (b.setMbr m x).rep = b.rep := rfl
@[simp] theorem Block.setMbr_mem (b : Block) (m : Nat) (x : CasMbr) : (b.setMbr m x).mem = b.mem := rfl
@[simp] theorem Block.setMbr_evr (b : Block) (m : Nat) (x : CasMbr) : (b.setMbr m x).evr = b.evr := rfl
@[simp] theorem Block.setMbr_sys (b : Block) (m : Nat) (x : CasMbr) : (b.setMbr m x).sys = b.sys := rfl
@[simp] theorem Block.setMbr_pwr (b : Block) (m : Nat) (x : CasMbr) : (b.setMbr m x).pwr = b.pwr := rfl
@[simp] theorem Block.setMbr_key (b : Block) (m : Nat) (x : CasMbr) : (b.setMbr m x).key = b.key := rfl
@[simp] theorem Block.setMbr_tam (b : Block) (m : Nat) (x : CasMbr) : (b.setMbr m x).tam = b.tam := rfl
@[simp] theorem Block.setMbr_acc (b : Block) (m : Nat) (x : CasMbr) : (b.setMbr m x).acc = b.acc := rfl
@[simp] theorem Block.setMbr_tim (b : Block) (m : Nat) (x : CasMbr) : (b.setMbr m x).tim = b.tim := rfl
@[simp] theorem Block.setMbr_aln (b : Block) (m : Nat) (x : CasMbr) : (b.setMbr m x).aln = b.aln := rfl
@[simp] theorem Block.setMbr_mm (b : Block) (m : Nat) (x : CasMbr) : (b.setMbr m x).mm = b.mm := rfl
@[simp] theorem Block.setMbr_dma (b : Block) (m : Nat) (x : CasMbr) : (b.setMbr m x).dma = b.dma := rfl
@[simp] theorem Block.setMbr_que (b : Block) (m : Nat) (x : CasMbr) : (b.setMbr m x).que = b.que := rfl
@[simp] theorem Block.setMbr_dfe (b : Block) (m : Nat) (x : CasMbr) : (b.setMbr m x).dfe = b.dfe := rfl
@[simp] theorem Block.setMbr_prt (b : Block) (m : Nat) (x : CasMbr) : (b.setMbr m x).prt = b.prt := rfl
@[simp] theorem Block.setMbr_str (b : Block) (m : Nat) (x : CasMbr) : (b.setMbr m x).str = b.str := rfl
@[simp] theorem Block.setMbr_out (b : Block) (m : Nat) (x : CasMbr) : (b.setMbr m x).out = b.out := rfl
@[simp] theorem Block.setMbr_rpl (b : Block) (m : Nat) (x : CasMbr) : (b.setMbr m x).rpl = b.rpl := rfl
@[simp] theorem Block.setMbr_isl (b : Block) (m : Nat) (x : CasMbr) : (b.setMbr m x).isl = b.isl := rfl
@[simp] theorem Block.setMbr_alm (b : Block) (m : Nat) (x : CasMbr) : (b.setMbr m x).alm = b.alm := rfl
@[simp] theorem Block.setMbr_cmp (b : Block) (m : Nat) (x : CasMbr) : (b.setMbr m x).cmp = b.cmp := rfl
@[simp] theorem Block.setMbr_sdm (b : Block) (m : Nat) (x : CasMbr) : (b.setMbr m x).sdm = b.sdm := rfl
@[simp] theorem Block.setMbr_nrg (b : Block) (m : Nat) (x : CasMbr) : (b.setMbr m x).nrg = b.nrg := rfl
@[simp] theorem Block.setMbr_cap (b : Block) (m : Nat) (x : CasMbr) : (b.setMbr m x).cap = b.cap := rfl
@[simp] theorem Block.setMbr_rad (b : Block) (m : Nat) (x : CasMbr) : (b.setMbr m x).rad = b.rad := rfl
@[simp] theorem Block.setMbr_red (b : Block) (m : Nat) (x : CasMbr) : (b.setMbr m x).red = b.red := rfl

/-! ### Setter: setDef -/

@[simp] theorem Block.setDef_t7 (b : Block) (d : Nat) (x : AlmDef) : (b.setDef d x).t7 = b.t7 := rfl
@[simp] theorem Block.setDef_free (b : Block) (d : Nat) (x : AlmDef) : (b.setDef d x).free = b.free := rfl
@[simp] theorem Block.setDef_regs (b : Block) (d : Nat) (x : AlmDef) : (b.setDef d x).regs = b.regs := rfl
@[simp] theorem Block.setDef_resp (b : Block) (d : Nat) (x : AlmDef) : (b.setDef d x).resp = b.resp := rfl
@[simp] theorem Block.setDef_latch (b : Block) (d : Nat) (x : AlmDef) : (b.setDef d x).latch = b.latch := rfl
@[simp] theorem Block.setDef_rep (b : Block) (d : Nat) (x : AlmDef) : (b.setDef d x).rep = b.rep := rfl
@[simp] theorem Block.setDef_mem (b : Block) (d : Nat) (x : AlmDef) : (b.setDef d x).mem = b.mem := rfl
@[simp] theorem Block.setDef_evr (b : Block) (d : Nat) (x : AlmDef) : (b.setDef d x).evr = b.evr := rfl
@[simp] theorem Block.setDef_sys (b : Block) (d : Nat) (x : AlmDef) : (b.setDef d x).sys = b.sys := rfl
@[simp] theorem Block.setDef_pwr (b : Block) (d : Nat) (x : AlmDef) : (b.setDef d x).pwr = b.pwr := rfl
@[simp] theorem Block.setDef_key (b : Block) (d : Nat) (x : AlmDef) : (b.setDef d x).key = b.key := rfl
@[simp] theorem Block.setDef_tam (b : Block) (d : Nat) (x : AlmDef) : (b.setDef d x).tam = b.tam := rfl
@[simp] theorem Block.setDef_acc (b : Block) (d : Nat) (x : AlmDef) : (b.setDef d x).acc = b.acc := rfl
@[simp] theorem Block.setDef_tim (b : Block) (d : Nat) (x : AlmDef) : (b.setDef d x).tim = b.tim := rfl
@[simp] theorem Block.setDef_aln (b : Block) (d : Nat) (x : AlmDef) : (b.setDef d x).aln = b.aln := rfl
@[simp] theorem Block.setDef_mm (b : Block) (d : Nat) (x : AlmDef) : (b.setDef d x).mm = b.mm := rfl
@[simp] theorem Block.setDef_dma (b : Block) (d : Nat) (x : AlmDef) : (b.setDef d x).dma = b.dma := rfl
@[simp] theorem Block.setDef_que (b : Block) (d : Nat) (x : AlmDef) : (b.setDef d x).que = b.que := rfl
@[simp] theorem Block.setDef_dfe (b : Block) (d : Nat) (x : AlmDef) : (b.setDef d x).dfe = b.dfe := rfl
@[simp] theorem Block.setDef_prt (b : Block) (d : Nat) (x : AlmDef) : (b.setDef d x).prt = b.prt := rfl
@[simp] theorem Block.setDef_str (b : Block) (d : Nat) (x : AlmDef) : (b.setDef d x).str = b.str := rfl
@[simp] theorem Block.setDef_out (b : Block) (d : Nat) (x : AlmDef) : (b.setDef d x).out = b.out := rfl
@[simp] theorem Block.setDef_cas (b : Block) (d : Nat) (x : AlmDef) : (b.setDef d x).cas = b.cas := rfl
@[simp] theorem Block.setDef_rpl (b : Block) (d : Nat) (x : AlmDef) : (b.setDef d x).rpl = b.rpl := rfl
@[simp] theorem Block.setDef_isl (b : Block) (d : Nat) (x : AlmDef) : (b.setDef d x).isl = b.isl := rfl
@[simp] theorem Block.setDef_cmp (b : Block) (d : Nat) (x : AlmDef) : (b.setDef d x).cmp = b.cmp := rfl
@[simp] theorem Block.setDef_sdm (b : Block) (d : Nat) (x : AlmDef) : (b.setDef d x).sdm = b.sdm := rfl
@[simp] theorem Block.setDef_nrg (b : Block) (d : Nat) (x : AlmDef) : (b.setDef d x).nrg = b.nrg := rfl
@[simp] theorem Block.setDef_cap (b : Block) (d : Nat) (x : AlmDef) : (b.setDef d x).cap = b.cap := rfl
@[simp] theorem Block.setDef_rad (b : Block) (d : Nat) (x : AlmDef) : (b.setDef d x).rad = b.rad := rfl
@[simp] theorem Block.setDef_red (b : Block) (d : Nat) (x : AlmDef) : (b.setDef d x).red = b.red := rfl

/-! ### Setter: setPub -/

@[simp] theorem Block.setPub_t7 (b : Block) (p : Nat) (x : Publisher) : (b.setPub p x).t7 = b.t7 := rfl
@[simp] theorem Block.setPub_free (b : Block) (p : Nat) (x : Publisher) : (b.setPub p x).free = b.free := rfl
@[simp] theorem Block.setPub_regs (b : Block) (p : Nat) (x : Publisher) : (b.setPub p x).regs = b.regs := rfl
@[simp] theorem Block.setPub_resp (b : Block) (p : Nat) (x : Publisher) : (b.setPub p x).resp = b.resp := rfl
@[simp] theorem Block.setPub_latch (b : Block) (p : Nat) (x : Publisher) : (b.setPub p x).latch = b.latch := rfl
@[simp] theorem Block.setPub_rep (b : Block) (p : Nat) (x : Publisher) : (b.setPub p x).rep = b.rep := rfl
@[simp] theorem Block.setPub_mem (b : Block) (p : Nat) (x : Publisher) : (b.setPub p x).mem = b.mem := rfl
@[simp] theorem Block.setPub_evr (b : Block) (p : Nat) (x : Publisher) : (b.setPub p x).evr = b.evr := rfl
@[simp] theorem Block.setPub_sys (b : Block) (p : Nat) (x : Publisher) : (b.setPub p x).sys = b.sys := rfl
@[simp] theorem Block.setPub_pwr (b : Block) (p : Nat) (x : Publisher) : (b.setPub p x).pwr = b.pwr := rfl
@[simp] theorem Block.setPub_key (b : Block) (p : Nat) (x : Publisher) : (b.setPub p x).key = b.key := rfl
@[simp] theorem Block.setPub_tam (b : Block) (p : Nat) (x : Publisher) : (b.setPub p x).tam = b.tam := rfl
@[simp] theorem Block.setPub_acc (b : Block) (p : Nat) (x : Publisher) : (b.setPub p x).acc = b.acc := rfl
@[simp] theorem Block.setPub_tim (b : Block) (p : Nat) (x : Publisher) : (b.setPub p x).tim = b.tim := rfl
@[simp] theorem Block.setPub_aln (b : Block) (p : Nat) (x : Publisher) : (b.setPub p x).aln = b.aln := rfl
@[simp] theorem Block.setPub_mm (b : Block) (p : Nat) (x : Publisher) : (b.setPub p x).mm = b.mm := rfl
@[simp] theorem Block.setPub_dma (b : Block) (p : Nat) (x : Publisher) : (b.setPub p x).dma = b.dma := rfl
@[simp] theorem Block.setPub_que (b : Block) (p : Nat) (x : Publisher) : (b.setPub p x).que = b.que := rfl
@[simp] theorem Block.setPub_dfe (b : Block) (p : Nat) (x : Publisher) : (b.setPub p x).dfe = b.dfe := rfl
@[simp] theorem Block.setPub_prt (b : Block) (p : Nat) (x : Publisher) : (b.setPub p x).prt = b.prt := rfl
@[simp] theorem Block.setPub_str (b : Block) (p : Nat) (x : Publisher) : (b.setPub p x).str = b.str := rfl
@[simp] theorem Block.setPub_out (b : Block) (p : Nat) (x : Publisher) : (b.setPub p x).out = b.out := rfl
@[simp] theorem Block.setPub_cas (b : Block) (p : Nat) (x : Publisher) : (b.setPub p x).cas = b.cas := rfl
@[simp] theorem Block.setPub_rpl (b : Block) (p : Nat) (x : Publisher) : (b.setPub p x).rpl = b.rpl := rfl
@[simp] theorem Block.setPub_isl (b : Block) (p : Nat) (x : Publisher) : (b.setPub p x).isl = b.isl := rfl
@[simp] theorem Block.setPub_cmp (b : Block) (p : Nat) (x : Publisher) : (b.setPub p x).cmp = b.cmp := rfl
@[simp] theorem Block.setPub_sdm (b : Block) (p : Nat) (x : Publisher) : (b.setPub p x).sdm = b.sdm := rfl
@[simp] theorem Block.setPub_nrg (b : Block) (p : Nat) (x : Publisher) : (b.setPub p x).nrg = b.nrg := rfl
@[simp] theorem Block.setPub_cap (b : Block) (p : Nat) (x : Publisher) : (b.setPub p x).cap = b.cap := rfl
@[simp] theorem Block.setPub_rad (b : Block) (p : Nat) (x : Publisher) : (b.setPub p x).rad = b.rad := rfl
@[simp] theorem Block.setPub_red (b : Block) (p : Nat) (x : Publisher) : (b.setPub p x).red = b.red := rfl

/-! ### Setter: setCapU -/

@[simp] theorem Block.setCapU_t7 (b : Block) (u : Nat) (x : CapUnit) : (b.setCapU u x).t7 = b.t7 := rfl
@[simp] theorem Block.setCapU_free (b : Block) (u : Nat) (x : CapUnit) : (b.setCapU u x).free = b.free := rfl
@[simp] theorem Block.setCapU_regs (b : Block) (u : Nat) (x : CapUnit) : (b.setCapU u x).regs = b.regs := rfl
@[simp] theorem Block.setCapU_resp (b : Block) (u : Nat) (x : CapUnit) : (b.setCapU u x).resp = b.resp := rfl
@[simp] theorem Block.setCapU_latch (b : Block) (u : Nat) (x : CapUnit) : (b.setCapU u x).latch = b.latch := rfl
@[simp] theorem Block.setCapU_rep (b : Block) (u : Nat) (x : CapUnit) : (b.setCapU u x).rep = b.rep := rfl
@[simp] theorem Block.setCapU_mem (b : Block) (u : Nat) (x : CapUnit) : (b.setCapU u x).mem = b.mem := rfl
@[simp] theorem Block.setCapU_evr (b : Block) (u : Nat) (x : CapUnit) : (b.setCapU u x).evr = b.evr := rfl
@[simp] theorem Block.setCapU_sys (b : Block) (u : Nat) (x : CapUnit) : (b.setCapU u x).sys = b.sys := rfl
@[simp] theorem Block.setCapU_pwr (b : Block) (u : Nat) (x : CapUnit) : (b.setCapU u x).pwr = b.pwr := rfl
@[simp] theorem Block.setCapU_key (b : Block) (u : Nat) (x : CapUnit) : (b.setCapU u x).key = b.key := rfl
@[simp] theorem Block.setCapU_tam (b : Block) (u : Nat) (x : CapUnit) : (b.setCapU u x).tam = b.tam := rfl
@[simp] theorem Block.setCapU_acc (b : Block) (u : Nat) (x : CapUnit) : (b.setCapU u x).acc = b.acc := rfl
@[simp] theorem Block.setCapU_tim (b : Block) (u : Nat) (x : CapUnit) : (b.setCapU u x).tim = b.tim := rfl
@[simp] theorem Block.setCapU_aln (b : Block) (u : Nat) (x : CapUnit) : (b.setCapU u x).aln = b.aln := rfl
@[simp] theorem Block.setCapU_mm (b : Block) (u : Nat) (x : CapUnit) : (b.setCapU u x).mm = b.mm := rfl
@[simp] theorem Block.setCapU_dma (b : Block) (u : Nat) (x : CapUnit) : (b.setCapU u x).dma = b.dma := rfl
@[simp] theorem Block.setCapU_que (b : Block) (u : Nat) (x : CapUnit) : (b.setCapU u x).que = b.que := rfl
@[simp] theorem Block.setCapU_dfe (b : Block) (u : Nat) (x : CapUnit) : (b.setCapU u x).dfe = b.dfe := rfl
@[simp] theorem Block.setCapU_prt (b : Block) (u : Nat) (x : CapUnit) : (b.setCapU u x).prt = b.prt := rfl
@[simp] theorem Block.setCapU_str (b : Block) (u : Nat) (x : CapUnit) : (b.setCapU u x).str = b.str := rfl
@[simp] theorem Block.setCapU_out (b : Block) (u : Nat) (x : CapUnit) : (b.setCapU u x).out = b.out := rfl
@[simp] theorem Block.setCapU_cas (b : Block) (u : Nat) (x : CapUnit) : (b.setCapU u x).cas = b.cas := rfl
@[simp] theorem Block.setCapU_rpl (b : Block) (u : Nat) (x : CapUnit) : (b.setCapU u x).rpl = b.rpl := rfl
@[simp] theorem Block.setCapU_isl (b : Block) (u : Nat) (x : CapUnit) : (b.setCapU u x).isl = b.isl := rfl
@[simp] theorem Block.setCapU_alm (b : Block) (u : Nat) (x : CapUnit) : (b.setCapU u x).alm = b.alm := rfl
@[simp] theorem Block.setCapU_cmp (b : Block) (u : Nat) (x : CapUnit) : (b.setCapU u x).cmp = b.cmp := rfl
@[simp] theorem Block.setCapU_sdm (b : Block) (u : Nat) (x : CapUnit) : (b.setCapU u x).sdm = b.sdm := rfl
@[simp] theorem Block.setCapU_nrg (b : Block) (u : Nat) (x : CapUnit) : (b.setCapU u x).nrg = b.nrg := rfl
@[simp] theorem Block.setCapU_rad (b : Block) (u : Nat) (x : CapUnit) : (b.setCapU u x).rad = b.rad := rfl
@[simp] theorem Block.setCapU_red (b : Block) (u : Nat) (x : CapUnit) : (b.setCapU u x).red = b.red := rfl

/-! ### Setter: setSdmCh -/

@[simp] theorem Block.setSdmCh_t7 (b : Block) (c : Nat) (x : SdmCh) : (b.setSdmCh c x).t7 = b.t7 := rfl
@[simp] theorem Block.setSdmCh_free (b : Block) (c : Nat) (x : SdmCh) : (b.setSdmCh c x).free = b.free := rfl
@[simp] theorem Block.setSdmCh_regs (b : Block) (c : Nat) (x : SdmCh) : (b.setSdmCh c x).regs = b.regs := rfl
@[simp] theorem Block.setSdmCh_resp (b : Block) (c : Nat) (x : SdmCh) : (b.setSdmCh c x).resp = b.resp := rfl
@[simp] theorem Block.setSdmCh_latch (b : Block) (c : Nat) (x : SdmCh) : (b.setSdmCh c x).latch = b.latch := rfl
@[simp] theorem Block.setSdmCh_rep (b : Block) (c : Nat) (x : SdmCh) : (b.setSdmCh c x).rep = b.rep := rfl
@[simp] theorem Block.setSdmCh_mem (b : Block) (c : Nat) (x : SdmCh) : (b.setSdmCh c x).mem = b.mem := rfl
@[simp] theorem Block.setSdmCh_evr (b : Block) (c : Nat) (x : SdmCh) : (b.setSdmCh c x).evr = b.evr := rfl
@[simp] theorem Block.setSdmCh_sys (b : Block) (c : Nat) (x : SdmCh) : (b.setSdmCh c x).sys = b.sys := rfl
@[simp] theorem Block.setSdmCh_pwr (b : Block) (c : Nat) (x : SdmCh) : (b.setSdmCh c x).pwr = b.pwr := rfl
@[simp] theorem Block.setSdmCh_key (b : Block) (c : Nat) (x : SdmCh) : (b.setSdmCh c x).key = b.key := rfl
@[simp] theorem Block.setSdmCh_tam (b : Block) (c : Nat) (x : SdmCh) : (b.setSdmCh c x).tam = b.tam := rfl
@[simp] theorem Block.setSdmCh_acc (b : Block) (c : Nat) (x : SdmCh) : (b.setSdmCh c x).acc = b.acc := rfl
@[simp] theorem Block.setSdmCh_tim (b : Block) (c : Nat) (x : SdmCh) : (b.setSdmCh c x).tim = b.tim := rfl
@[simp] theorem Block.setSdmCh_aln (b : Block) (c : Nat) (x : SdmCh) : (b.setSdmCh c x).aln = b.aln := rfl
@[simp] theorem Block.setSdmCh_mm (b : Block) (c : Nat) (x : SdmCh) : (b.setSdmCh c x).mm = b.mm := rfl
@[simp] theorem Block.setSdmCh_dma (b : Block) (c : Nat) (x : SdmCh) : (b.setSdmCh c x).dma = b.dma := rfl
@[simp] theorem Block.setSdmCh_que (b : Block) (c : Nat) (x : SdmCh) : (b.setSdmCh c x).que = b.que := rfl
@[simp] theorem Block.setSdmCh_dfe (b : Block) (c : Nat) (x : SdmCh) : (b.setSdmCh c x).dfe = b.dfe := rfl
@[simp] theorem Block.setSdmCh_prt (b : Block) (c : Nat) (x : SdmCh) : (b.setSdmCh c x).prt = b.prt := rfl
@[simp] theorem Block.setSdmCh_str (b : Block) (c : Nat) (x : SdmCh) : (b.setSdmCh c x).str = b.str := rfl
@[simp] theorem Block.setSdmCh_out (b : Block) (c : Nat) (x : SdmCh) : (b.setSdmCh c x).out = b.out := rfl
@[simp] theorem Block.setSdmCh_cas (b : Block) (c : Nat) (x : SdmCh) : (b.setSdmCh c x).cas = b.cas := rfl
@[simp] theorem Block.setSdmCh_rpl (b : Block) (c : Nat) (x : SdmCh) : (b.setSdmCh c x).rpl = b.rpl := rfl
@[simp] theorem Block.setSdmCh_isl (b : Block) (c : Nat) (x : SdmCh) : (b.setSdmCh c x).isl = b.isl := rfl
@[simp] theorem Block.setSdmCh_alm (b : Block) (c : Nat) (x : SdmCh) : (b.setSdmCh c x).alm = b.alm := rfl
@[simp] theorem Block.setSdmCh_cmp (b : Block) (c : Nat) (x : SdmCh) : (b.setSdmCh c x).cmp = b.cmp := rfl
@[simp] theorem Block.setSdmCh_nrg (b : Block) (c : Nat) (x : SdmCh) : (b.setSdmCh c x).nrg = b.nrg := rfl
@[simp] theorem Block.setSdmCh_cap (b : Block) (c : Nat) (x : SdmCh) : (b.setSdmCh c x).cap = b.cap := rfl
@[simp] theorem Block.setSdmCh_rad (b : Block) (c : Nat) (x : SdmCh) : (b.setSdmCh c x).rad = b.rad := rfl
@[simp] theorem Block.setSdmCh_red (b : Block) (c : Nat) (x : SdmCh) : (b.setSdmCh c x).red = b.red := rfl

/-! ### Setter: setNrgPt -/

@[simp] theorem Block.setNrgPt_t7 (b : Block) (p : Nat) (x : NrgPt) : (b.setNrgPt p x).t7 = b.t7 := rfl
@[simp] theorem Block.setNrgPt_free (b : Block) (p : Nat) (x : NrgPt) : (b.setNrgPt p x).free = b.free := rfl
@[simp] theorem Block.setNrgPt_regs (b : Block) (p : Nat) (x : NrgPt) : (b.setNrgPt p x).regs = b.regs := rfl
@[simp] theorem Block.setNrgPt_resp (b : Block) (p : Nat) (x : NrgPt) : (b.setNrgPt p x).resp = b.resp := rfl
@[simp] theorem Block.setNrgPt_latch (b : Block) (p : Nat) (x : NrgPt) : (b.setNrgPt p x).latch = b.latch := rfl
@[simp] theorem Block.setNrgPt_rep (b : Block) (p : Nat) (x : NrgPt) : (b.setNrgPt p x).rep = b.rep := rfl
@[simp] theorem Block.setNrgPt_mem (b : Block) (p : Nat) (x : NrgPt) : (b.setNrgPt p x).mem = b.mem := rfl
@[simp] theorem Block.setNrgPt_evr (b : Block) (p : Nat) (x : NrgPt) : (b.setNrgPt p x).evr = b.evr := rfl
@[simp] theorem Block.setNrgPt_sys (b : Block) (p : Nat) (x : NrgPt) : (b.setNrgPt p x).sys = b.sys := rfl
@[simp] theorem Block.setNrgPt_pwr (b : Block) (p : Nat) (x : NrgPt) : (b.setNrgPt p x).pwr = b.pwr := rfl
@[simp] theorem Block.setNrgPt_key (b : Block) (p : Nat) (x : NrgPt) : (b.setNrgPt p x).key = b.key := rfl
@[simp] theorem Block.setNrgPt_tam (b : Block) (p : Nat) (x : NrgPt) : (b.setNrgPt p x).tam = b.tam := rfl
@[simp] theorem Block.setNrgPt_acc (b : Block) (p : Nat) (x : NrgPt) : (b.setNrgPt p x).acc = b.acc := rfl
@[simp] theorem Block.setNrgPt_tim (b : Block) (p : Nat) (x : NrgPt) : (b.setNrgPt p x).tim = b.tim := rfl
@[simp] theorem Block.setNrgPt_aln (b : Block) (p : Nat) (x : NrgPt) : (b.setNrgPt p x).aln = b.aln := rfl
@[simp] theorem Block.setNrgPt_mm (b : Block) (p : Nat) (x : NrgPt) : (b.setNrgPt p x).mm = b.mm := rfl
@[simp] theorem Block.setNrgPt_dma (b : Block) (p : Nat) (x : NrgPt) : (b.setNrgPt p x).dma = b.dma := rfl
@[simp] theorem Block.setNrgPt_que (b : Block) (p : Nat) (x : NrgPt) : (b.setNrgPt p x).que = b.que := rfl
@[simp] theorem Block.setNrgPt_dfe (b : Block) (p : Nat) (x : NrgPt) : (b.setNrgPt p x).dfe = b.dfe := rfl
@[simp] theorem Block.setNrgPt_prt (b : Block) (p : Nat) (x : NrgPt) : (b.setNrgPt p x).prt = b.prt := rfl
@[simp] theorem Block.setNrgPt_str (b : Block) (p : Nat) (x : NrgPt) : (b.setNrgPt p x).str = b.str := rfl
@[simp] theorem Block.setNrgPt_out (b : Block) (p : Nat) (x : NrgPt) : (b.setNrgPt p x).out = b.out := rfl
@[simp] theorem Block.setNrgPt_cas (b : Block) (p : Nat) (x : NrgPt) : (b.setNrgPt p x).cas = b.cas := rfl
@[simp] theorem Block.setNrgPt_rpl (b : Block) (p : Nat) (x : NrgPt) : (b.setNrgPt p x).rpl = b.rpl := rfl
@[simp] theorem Block.setNrgPt_isl (b : Block) (p : Nat) (x : NrgPt) : (b.setNrgPt p x).isl = b.isl := rfl
@[simp] theorem Block.setNrgPt_alm (b : Block) (p : Nat) (x : NrgPt) : (b.setNrgPt p x).alm = b.alm := rfl
@[simp] theorem Block.setNrgPt_cmp (b : Block) (p : Nat) (x : NrgPt) : (b.setNrgPt p x).cmp = b.cmp := rfl
@[simp] theorem Block.setNrgPt_sdm (b : Block) (p : Nat) (x : NrgPt) : (b.setNrgPt p x).sdm = b.sdm := rfl
@[simp] theorem Block.setNrgPt_cap (b : Block) (p : Nat) (x : NrgPt) : (b.setNrgPt p x).cap = b.cap := rfl
@[simp] theorem Block.setNrgPt_rad (b : Block) (p : Nat) (x : NrgPt) : (b.setNrgPt p x).rad = b.rad := rfl
@[simp] theorem Block.setNrgPt_red (b : Block) (p : Nat) (x : NrgPt) : (b.setNrgPt p x).red = b.red := rfl

/-! ### Setter: setRadNode -/

@[simp] theorem Block.setRadNode_t7 (b : Block) (n : Nat) (x : RadNode) : (b.setRadNode n x).t7 = b.t7 := rfl
@[simp] theorem Block.setRadNode_free (b : Block) (n : Nat) (x : RadNode) : (b.setRadNode n x).free = b.free := rfl
@[simp] theorem Block.setRadNode_regs (b : Block) (n : Nat) (x : RadNode) : (b.setRadNode n x).regs = b.regs := rfl
@[simp] theorem Block.setRadNode_resp (b : Block) (n : Nat) (x : RadNode) : (b.setRadNode n x).resp = b.resp := rfl
@[simp] theorem Block.setRadNode_latch (b : Block) (n : Nat) (x : RadNode) : (b.setRadNode n x).latch = b.latch := rfl
@[simp] theorem Block.setRadNode_rep (b : Block) (n : Nat) (x : RadNode) : (b.setRadNode n x).rep = b.rep := rfl
@[simp] theorem Block.setRadNode_mem (b : Block) (n : Nat) (x : RadNode) : (b.setRadNode n x).mem = b.mem := rfl
@[simp] theorem Block.setRadNode_evr (b : Block) (n : Nat) (x : RadNode) : (b.setRadNode n x).evr = b.evr := rfl
@[simp] theorem Block.setRadNode_sys (b : Block) (n : Nat) (x : RadNode) : (b.setRadNode n x).sys = b.sys := rfl
@[simp] theorem Block.setRadNode_pwr (b : Block) (n : Nat) (x : RadNode) : (b.setRadNode n x).pwr = b.pwr := rfl
@[simp] theorem Block.setRadNode_key (b : Block) (n : Nat) (x : RadNode) : (b.setRadNode n x).key = b.key := rfl
@[simp] theorem Block.setRadNode_tam (b : Block) (n : Nat) (x : RadNode) : (b.setRadNode n x).tam = b.tam := rfl
@[simp] theorem Block.setRadNode_acc (b : Block) (n : Nat) (x : RadNode) : (b.setRadNode n x).acc = b.acc := rfl
@[simp] theorem Block.setRadNode_tim (b : Block) (n : Nat) (x : RadNode) : (b.setRadNode n x).tim = b.tim := rfl
@[simp] theorem Block.setRadNode_aln (b : Block) (n : Nat) (x : RadNode) : (b.setRadNode n x).aln = b.aln := rfl
@[simp] theorem Block.setRadNode_mm (b : Block) (n : Nat) (x : RadNode) : (b.setRadNode n x).mm = b.mm := rfl
@[simp] theorem Block.setRadNode_dma (b : Block) (n : Nat) (x : RadNode) : (b.setRadNode n x).dma = b.dma := rfl
@[simp] theorem Block.setRadNode_que (b : Block) (n : Nat) (x : RadNode) : (b.setRadNode n x).que = b.que := rfl
@[simp] theorem Block.setRadNode_dfe (b : Block) (n : Nat) (x : RadNode) : (b.setRadNode n x).dfe = b.dfe := rfl
@[simp] theorem Block.setRadNode_prt (b : Block) (n : Nat) (x : RadNode) : (b.setRadNode n x).prt = b.prt := rfl
@[simp] theorem Block.setRadNode_str (b : Block) (n : Nat) (x : RadNode) : (b.setRadNode n x).str = b.str := rfl
@[simp] theorem Block.setRadNode_out (b : Block) (n : Nat) (x : RadNode) : (b.setRadNode n x).out = b.out := rfl
@[simp] theorem Block.setRadNode_cas (b : Block) (n : Nat) (x : RadNode) : (b.setRadNode n x).cas = b.cas := rfl
@[simp] theorem Block.setRadNode_rpl (b : Block) (n : Nat) (x : RadNode) : (b.setRadNode n x).rpl = b.rpl := rfl
@[simp] theorem Block.setRadNode_isl (b : Block) (n : Nat) (x : RadNode) : (b.setRadNode n x).isl = b.isl := rfl
@[simp] theorem Block.setRadNode_alm (b : Block) (n : Nat) (x : RadNode) : (b.setRadNode n x).alm = b.alm := rfl
@[simp] theorem Block.setRadNode_cmp (b : Block) (n : Nat) (x : RadNode) : (b.setRadNode n x).cmp = b.cmp := rfl
@[simp] theorem Block.setRadNode_sdm (b : Block) (n : Nat) (x : RadNode) : (b.setRadNode n x).sdm = b.sdm := rfl
@[simp] theorem Block.setRadNode_nrg (b : Block) (n : Nat) (x : RadNode) : (b.setRadNode n x).nrg = b.nrg := rfl
@[simp] theorem Block.setRadNode_cap (b : Block) (n : Nat) (x : RadNode) : (b.setRadNode n x).cap = b.cap := rfl
@[simp] theorem Block.setRadNode_red (b : Block) (n : Nat) (x : RadNode) : (b.setRadNode n x).red = b.red := rfl

/-! ### Setter: setPo -/

@[simp] theorem Block.setPo_t7 (b : Block) (i : Nat) (x : PulseOut) : (b.setPo i x).t7 = b.t7 := rfl
@[simp] theorem Block.setPo_free (b : Block) (i : Nat) (x : PulseOut) : (b.setPo i x).free = b.free := rfl
@[simp] theorem Block.setPo_regs (b : Block) (i : Nat) (x : PulseOut) : (b.setPo i x).regs = b.regs := rfl
@[simp] theorem Block.setPo_resp (b : Block) (i : Nat) (x : PulseOut) : (b.setPo i x).resp = b.resp := rfl
@[simp] theorem Block.setPo_latch (b : Block) (i : Nat) (x : PulseOut) : (b.setPo i x).latch = b.latch := rfl
@[simp] theorem Block.setPo_rep (b : Block) (i : Nat) (x : PulseOut) : (b.setPo i x).rep = b.rep := rfl
@[simp] theorem Block.setPo_mem (b : Block) (i : Nat) (x : PulseOut) : (b.setPo i x).mem = b.mem := rfl
@[simp] theorem Block.setPo_evr (b : Block) (i : Nat) (x : PulseOut) : (b.setPo i x).evr = b.evr := rfl
@[simp] theorem Block.setPo_sys (b : Block) (i : Nat) (x : PulseOut) : (b.setPo i x).sys = b.sys := rfl
@[simp] theorem Block.setPo_pwr (b : Block) (i : Nat) (x : PulseOut) : (b.setPo i x).pwr = b.pwr := rfl
@[simp] theorem Block.setPo_key (b : Block) (i : Nat) (x : PulseOut) : (b.setPo i x).key = b.key := rfl
@[simp] theorem Block.setPo_tam (b : Block) (i : Nat) (x : PulseOut) : (b.setPo i x).tam = b.tam := rfl
@[simp] theorem Block.setPo_acc (b : Block) (i : Nat) (x : PulseOut) : (b.setPo i x).acc = b.acc := rfl
@[simp] theorem Block.setPo_aln (b : Block) (i : Nat) (x : PulseOut) : (b.setPo i x).aln = b.aln := rfl
@[simp] theorem Block.setPo_mm (b : Block) (i : Nat) (x : PulseOut) : (b.setPo i x).mm = b.mm := rfl
@[simp] theorem Block.setPo_dma (b : Block) (i : Nat) (x : PulseOut) : (b.setPo i x).dma = b.dma := rfl
@[simp] theorem Block.setPo_que (b : Block) (i : Nat) (x : PulseOut) : (b.setPo i x).que = b.que := rfl
@[simp] theorem Block.setPo_dfe (b : Block) (i : Nat) (x : PulseOut) : (b.setPo i x).dfe = b.dfe := rfl
@[simp] theorem Block.setPo_prt (b : Block) (i : Nat) (x : PulseOut) : (b.setPo i x).prt = b.prt := rfl
@[simp] theorem Block.setPo_str (b : Block) (i : Nat) (x : PulseOut) : (b.setPo i x).str = b.str := rfl
@[simp] theorem Block.setPo_out (b : Block) (i : Nat) (x : PulseOut) : (b.setPo i x).out = b.out := rfl
@[simp] theorem Block.setPo_cas (b : Block) (i : Nat) (x : PulseOut) : (b.setPo i x).cas = b.cas := rfl
@[simp] theorem Block.setPo_rpl (b : Block) (i : Nat) (x : PulseOut) : (b.setPo i x).rpl = b.rpl := rfl
@[simp] theorem Block.setPo_isl (b : Block) (i : Nat) (x : PulseOut) : (b.setPo i x).isl = b.isl := rfl
@[simp] theorem Block.setPo_alm (b : Block) (i : Nat) (x : PulseOut) : (b.setPo i x).alm = b.alm := rfl
@[simp] theorem Block.setPo_cmp (b : Block) (i : Nat) (x : PulseOut) : (b.setPo i x).cmp = b.cmp := rfl
@[simp] theorem Block.setPo_sdm (b : Block) (i : Nat) (x : PulseOut) : (b.setPo i x).sdm = b.sdm := rfl
@[simp] theorem Block.setPo_nrg (b : Block) (i : Nat) (x : PulseOut) : (b.setPo i x).nrg = b.nrg := rfl
@[simp] theorem Block.setPo_cap (b : Block) (i : Nat) (x : PulseOut) : (b.setPo i x).cap = b.cap := rfl
@[simp] theorem Block.setPo_rad (b : Block) (i : Nat) (x : PulseOut) : (b.setPo i x).rad = b.rad := rfl
@[simp] theorem Block.setPo_red (b : Block) (i : Nat) (x : PulseOut) : (b.setPo i x).red = b.red := rfl

/-! ### Setter: setPd -/

@[simp] theorem Block.setPd_t7 (b : Block) (p : Nat) (x : PeerDelay) : (b.setPd p x).t7 = b.t7 := rfl
@[simp] theorem Block.setPd_free (b : Block) (p : Nat) (x : PeerDelay) : (b.setPd p x).free = b.free := rfl
@[simp] theorem Block.setPd_regs (b : Block) (p : Nat) (x : PeerDelay) : (b.setPd p x).regs = b.regs := rfl
@[simp] theorem Block.setPd_resp (b : Block) (p : Nat) (x : PeerDelay) : (b.setPd p x).resp = b.resp := rfl
@[simp] theorem Block.setPd_latch (b : Block) (p : Nat) (x : PeerDelay) : (b.setPd p x).latch = b.latch := rfl
@[simp] theorem Block.setPd_rep (b : Block) (p : Nat) (x : PeerDelay) : (b.setPd p x).rep = b.rep := rfl
@[simp] theorem Block.setPd_mem (b : Block) (p : Nat) (x : PeerDelay) : (b.setPd p x).mem = b.mem := rfl
@[simp] theorem Block.setPd_evr (b : Block) (p : Nat) (x : PeerDelay) : (b.setPd p x).evr = b.evr := rfl
@[simp] theorem Block.setPd_sys (b : Block) (p : Nat) (x : PeerDelay) : (b.setPd p x).sys = b.sys := rfl
@[simp] theorem Block.setPd_pwr (b : Block) (p : Nat) (x : PeerDelay) : (b.setPd p x).pwr = b.pwr := rfl
@[simp] theorem Block.setPd_key (b : Block) (p : Nat) (x : PeerDelay) : (b.setPd p x).key = b.key := rfl
@[simp] theorem Block.setPd_tam (b : Block) (p : Nat) (x : PeerDelay) : (b.setPd p x).tam = b.tam := rfl
@[simp] theorem Block.setPd_acc (b : Block) (p : Nat) (x : PeerDelay) : (b.setPd p x).acc = b.acc := rfl
@[simp] theorem Block.setPd_aln (b : Block) (p : Nat) (x : PeerDelay) : (b.setPd p x).aln = b.aln := rfl
@[simp] theorem Block.setPd_mm (b : Block) (p : Nat) (x : PeerDelay) : (b.setPd p x).mm = b.mm := rfl
@[simp] theorem Block.setPd_dma (b : Block) (p : Nat) (x : PeerDelay) : (b.setPd p x).dma = b.dma := rfl
@[simp] theorem Block.setPd_que (b : Block) (p : Nat) (x : PeerDelay) : (b.setPd p x).que = b.que := rfl
@[simp] theorem Block.setPd_dfe (b : Block) (p : Nat) (x : PeerDelay) : (b.setPd p x).dfe = b.dfe := rfl
@[simp] theorem Block.setPd_prt (b : Block) (p : Nat) (x : PeerDelay) : (b.setPd p x).prt = b.prt := rfl
@[simp] theorem Block.setPd_str (b : Block) (p : Nat) (x : PeerDelay) : (b.setPd p x).str = b.str := rfl
@[simp] theorem Block.setPd_out (b : Block) (p : Nat) (x : PeerDelay) : (b.setPd p x).out = b.out := rfl
@[simp] theorem Block.setPd_cas (b : Block) (p : Nat) (x : PeerDelay) : (b.setPd p x).cas = b.cas := rfl
@[simp] theorem Block.setPd_rpl (b : Block) (p : Nat) (x : PeerDelay) : (b.setPd p x).rpl = b.rpl := rfl
@[simp] theorem Block.setPd_isl (b : Block) (p : Nat) (x : PeerDelay) : (b.setPd p x).isl = b.isl := rfl
@[simp] theorem Block.setPd_alm (b : Block) (p : Nat) (x : PeerDelay) : (b.setPd p x).alm = b.alm := rfl
@[simp] theorem Block.setPd_cmp (b : Block) (p : Nat) (x : PeerDelay) : (b.setPd p x).cmp = b.cmp := rfl
@[simp] theorem Block.setPd_sdm (b : Block) (p : Nat) (x : PeerDelay) : (b.setPd p x).sdm = b.sdm := rfl
@[simp] theorem Block.setPd_nrg (b : Block) (p : Nat) (x : PeerDelay) : (b.setPd p x).nrg = b.nrg := rfl
@[simp] theorem Block.setPd_cap (b : Block) (p : Nat) (x : PeerDelay) : (b.setPd p x).cap = b.cap := rfl
@[simp] theorem Block.setPd_rad (b : Block) (p : Nat) (x : PeerDelay) : (b.setPd p x).rad = b.rad := rfl
@[simp] theorem Block.setPd_red (b : Block) (p : Nat) (x : PeerDelay) : (b.setPd p x).red = b.red := rfl

/-! ### Setter: setTin -/

@[simp] theorem Block.setTin_t7 (b : Block) (x : Tin) : (b.setTin x).t7 = b.t7 := rfl
@[simp] theorem Block.setTin_free (b : Block) (x : Tin) : (b.setTin x).free = b.free := rfl
@[simp] theorem Block.setTin_regs (b : Block) (x : Tin) : (b.setTin x).regs = b.regs := rfl
@[simp] theorem Block.setTin_resp (b : Block) (x : Tin) : (b.setTin x).resp = b.resp := rfl
@[simp] theorem Block.setTin_latch (b : Block) (x : Tin) : (b.setTin x).latch = b.latch := rfl
@[simp] theorem Block.setTin_rep (b : Block) (x : Tin) : (b.setTin x).rep = b.rep := rfl
@[simp] theorem Block.setTin_mem (b : Block) (x : Tin) : (b.setTin x).mem = b.mem := rfl
@[simp] theorem Block.setTin_evr (b : Block) (x : Tin) : (b.setTin x).evr = b.evr := rfl
@[simp] theorem Block.setTin_sys (b : Block) (x : Tin) : (b.setTin x).sys = b.sys := rfl
@[simp] theorem Block.setTin_pwr (b : Block) (x : Tin) : (b.setTin x).pwr = b.pwr := rfl
@[simp] theorem Block.setTin_key (b : Block) (x : Tin) : (b.setTin x).key = b.key := rfl
@[simp] theorem Block.setTin_tam (b : Block) (x : Tin) : (b.setTin x).tam = b.tam := rfl
@[simp] theorem Block.setTin_acc (b : Block) (x : Tin) : (b.setTin x).acc = b.acc := rfl
@[simp] theorem Block.setTin_aln (b : Block) (x : Tin) : (b.setTin x).aln = b.aln := rfl
@[simp] theorem Block.setTin_mm (b : Block) (x : Tin) : (b.setTin x).mm = b.mm := rfl
@[simp] theorem Block.setTin_dma (b : Block) (x : Tin) : (b.setTin x).dma = b.dma := rfl
@[simp] theorem Block.setTin_que (b : Block) (x : Tin) : (b.setTin x).que = b.que := rfl
@[simp] theorem Block.setTin_dfe (b : Block) (x : Tin) : (b.setTin x).dfe = b.dfe := rfl
@[simp] theorem Block.setTin_prt (b : Block) (x : Tin) : (b.setTin x).prt = b.prt := rfl
@[simp] theorem Block.setTin_str (b : Block) (x : Tin) : (b.setTin x).str = b.str := rfl
@[simp] theorem Block.setTin_out (b : Block) (x : Tin) : (b.setTin x).out = b.out := rfl
@[simp] theorem Block.setTin_cas (b : Block) (x : Tin) : (b.setTin x).cas = b.cas := rfl
@[simp] theorem Block.setTin_rpl (b : Block) (x : Tin) : (b.setTin x).rpl = b.rpl := rfl
@[simp] theorem Block.setTin_isl (b : Block) (x : Tin) : (b.setTin x).isl = b.isl := rfl
@[simp] theorem Block.setTin_alm (b : Block) (x : Tin) : (b.setTin x).alm = b.alm := rfl
@[simp] theorem Block.setTin_cmp (b : Block) (x : Tin) : (b.setTin x).cmp = b.cmp := rfl
@[simp] theorem Block.setTin_sdm (b : Block) (x : Tin) : (b.setTin x).sdm = b.sdm := rfl
@[simp] theorem Block.setTin_nrg (b : Block) (x : Tin) : (b.setTin x).nrg = b.nrg := rfl
@[simp] theorem Block.setTin_cap (b : Block) (x : Tin) : (b.setTin x).cap = b.cap := rfl
@[simp] theorem Block.setTin_rad (b : Block) (x : Tin) : (b.setTin x).rad = b.rad := rfl
@[simp] theorem Block.setTin_red (b : Block) (x : Tin) : (b.setTin x).red = b.red := rfl

/-! ### Setter: setRedPath -/

@[simp] theorem Block.setRedPath_t7 (b : Block) (p : Nat) (x : RedPath) : (b.setRedPath p x).t7 = b.t7 := rfl
@[simp] theorem Block.setRedPath_free (b : Block) (p : Nat) (x : RedPath) : (b.setRedPath p x).free = b.free := rfl
@[simp] theorem Block.setRedPath_regs (b : Block) (p : Nat) (x : RedPath) : (b.setRedPath p x).regs = b.regs := rfl
@[simp] theorem Block.setRedPath_resp (b : Block) (p : Nat) (x : RedPath) : (b.setRedPath p x).resp = b.resp := rfl
@[simp] theorem Block.setRedPath_latch (b : Block) (p : Nat) (x : RedPath) : (b.setRedPath p x).latch = b.latch := rfl
@[simp] theorem Block.setRedPath_rep (b : Block) (p : Nat) (x : RedPath) : (b.setRedPath p x).rep = b.rep := rfl
@[simp] theorem Block.setRedPath_mem (b : Block) (p : Nat) (x : RedPath) : (b.setRedPath p x).mem = b.mem := rfl
@[simp] theorem Block.setRedPath_evr (b : Block) (p : Nat) (x : RedPath) : (b.setRedPath p x).evr = b.evr := rfl
@[simp] theorem Block.setRedPath_sys (b : Block) (p : Nat) (x : RedPath) : (b.setRedPath p x).sys = b.sys := rfl
@[simp] theorem Block.setRedPath_pwr (b : Block) (p : Nat) (x : RedPath) : (b.setRedPath p x).pwr = b.pwr := rfl
@[simp] theorem Block.setRedPath_key (b : Block) (p : Nat) (x : RedPath) : (b.setRedPath p x).key = b.key := rfl
@[simp] theorem Block.setRedPath_tam (b : Block) (p : Nat) (x : RedPath) : (b.setRedPath p x).tam = b.tam := rfl
@[simp] theorem Block.setRedPath_acc (b : Block) (p : Nat) (x : RedPath) : (b.setRedPath p x).acc = b.acc := rfl
@[simp] theorem Block.setRedPath_tim (b : Block) (p : Nat) (x : RedPath) : (b.setRedPath p x).tim = b.tim := rfl
@[simp] theorem Block.setRedPath_aln (b : Block) (p : Nat) (x : RedPath) : (b.setRedPath p x).aln = b.aln := rfl
@[simp] theorem Block.setRedPath_mm (b : Block) (p : Nat) (x : RedPath) : (b.setRedPath p x).mm = b.mm := rfl
@[simp] theorem Block.setRedPath_dma (b : Block) (p : Nat) (x : RedPath) : (b.setRedPath p x).dma = b.dma := rfl
@[simp] theorem Block.setRedPath_que (b : Block) (p : Nat) (x : RedPath) : (b.setRedPath p x).que = b.que := rfl
@[simp] theorem Block.setRedPath_dfe (b : Block) (p : Nat) (x : RedPath) : (b.setRedPath p x).dfe = b.dfe := rfl
@[simp] theorem Block.setRedPath_prt (b : Block) (p : Nat) (x : RedPath) : (b.setRedPath p x).prt = b.prt := rfl
@[simp] theorem Block.setRedPath_str (b : Block) (p : Nat) (x : RedPath) : (b.setRedPath p x).str = b.str := rfl
@[simp] theorem Block.setRedPath_out (b : Block) (p : Nat) (x : RedPath) : (b.setRedPath p x).out = b.out := rfl
@[simp] theorem Block.setRedPath_cas (b : Block) (p : Nat) (x : RedPath) : (b.setRedPath p x).cas = b.cas := rfl
@[simp] theorem Block.setRedPath_rpl (b : Block) (p : Nat) (x : RedPath) : (b.setRedPath p x).rpl = b.rpl := rfl
@[simp] theorem Block.setRedPath_isl (b : Block) (p : Nat) (x : RedPath) : (b.setRedPath p x).isl = b.isl := rfl
@[simp] theorem Block.setRedPath_alm (b : Block) (p : Nat) (x : RedPath) : (b.setRedPath p x).alm = b.alm := rfl
@[simp] theorem Block.setRedPath_cmp (b : Block) (p : Nat) (x : RedPath) : (b.setRedPath p x).cmp = b.cmp := rfl
@[simp] theorem Block.setRedPath_sdm (b : Block) (p : Nat) (x : RedPath) : (b.setRedPath p x).sdm = b.sdm := rfl
@[simp] theorem Block.setRedPath_nrg (b : Block) (p : Nat) (x : RedPath) : (b.setRedPath p x).nrg = b.nrg := rfl
@[simp] theorem Block.setRedPath_cap (b : Block) (p : Nat) (x : RedPath) : (b.setRedPath p x).cap = b.cap := rfl
@[simp] theorem Block.setRedPath_rad (b : Block) (p : Nat) (x : RedPath) : (b.setRedPath p x).rad = b.rad := rfl

/-! ### Setter: store -/

@[simp] theorem Block.store_t7 (b : Block) (a : Nat) (bs : List Byte) : (b.store a bs).t7 = b.t7 := rfl
@[simp] theorem Block.store_free (b : Block) (a : Nat) (bs : List Byte) : (b.store a bs).free = b.free := rfl
@[simp] theorem Block.store_regs (b : Block) (a : Nat) (bs : List Byte) : (b.store a bs).regs = b.regs := rfl
@[simp] theorem Block.store_resp (b : Block) (a : Nat) (bs : List Byte) : (b.store a bs).resp = b.resp := rfl
@[simp] theorem Block.store_latch (b : Block) (a : Nat) (bs : List Byte) : (b.store a bs).latch = b.latch := rfl
@[simp] theorem Block.store_rep (b : Block) (a : Nat) (bs : List Byte) : (b.store a bs).rep = b.rep := rfl
@[simp] theorem Block.store_evr (b : Block) (a : Nat) (bs : List Byte) : (b.store a bs).evr = b.evr := rfl
@[simp] theorem Block.store_sys (b : Block) (a : Nat) (bs : List Byte) : (b.store a bs).sys = b.sys := rfl
@[simp] theorem Block.store_pwr (b : Block) (a : Nat) (bs : List Byte) : (b.store a bs).pwr = b.pwr := rfl
@[simp] theorem Block.store_key (b : Block) (a : Nat) (bs : List Byte) : (b.store a bs).key = b.key := rfl
@[simp] theorem Block.store_tam (b : Block) (a : Nat) (bs : List Byte) : (b.store a bs).tam = b.tam := rfl
@[simp] theorem Block.store_acc (b : Block) (a : Nat) (bs : List Byte) : (b.store a bs).acc = b.acc := rfl
@[simp] theorem Block.store_tim (b : Block) (a : Nat) (bs : List Byte) : (b.store a bs).tim = b.tim := rfl
@[simp] theorem Block.store_aln (b : Block) (a : Nat) (bs : List Byte) : (b.store a bs).aln = b.aln := rfl
@[simp] theorem Block.store_mm (b : Block) (a : Nat) (bs : List Byte) : (b.store a bs).mm = b.mm := rfl
@[simp] theorem Block.store_dma (b : Block) (a : Nat) (bs : List Byte) : (b.store a bs).dma = b.dma := rfl
@[simp] theorem Block.store_que (b : Block) (a : Nat) (bs : List Byte) : (b.store a bs).que = b.que := rfl
@[simp] theorem Block.store_dfe (b : Block) (a : Nat) (bs : List Byte) : (b.store a bs).dfe = b.dfe := rfl
@[simp] theorem Block.store_prt (b : Block) (a : Nat) (bs : List Byte) : (b.store a bs).prt = b.prt := rfl
@[simp] theorem Block.store_str (b : Block) (a : Nat) (bs : List Byte) : (b.store a bs).str = b.str := rfl
@[simp] theorem Block.store_out (b : Block) (a : Nat) (bs : List Byte) : (b.store a bs).out = b.out := rfl
@[simp] theorem Block.store_cas (b : Block) (a : Nat) (bs : List Byte) : (b.store a bs).cas = b.cas := rfl
@[simp] theorem Block.store_rpl (b : Block) (a : Nat) (bs : List Byte) : (b.store a bs).rpl = b.rpl := rfl
@[simp] theorem Block.store_isl (b : Block) (a : Nat) (bs : List Byte) : (b.store a bs).isl = b.isl := rfl
@[simp] theorem Block.store_alm (b : Block) (a : Nat) (bs : List Byte) : (b.store a bs).alm = b.alm := rfl
@[simp] theorem Block.store_cmp (b : Block) (a : Nat) (bs : List Byte) : (b.store a bs).cmp = b.cmp := rfl
@[simp] theorem Block.store_sdm (b : Block) (a : Nat) (bs : List Byte) : (b.store a bs).sdm = b.sdm := rfl
@[simp] theorem Block.store_nrg (b : Block) (a : Nat) (bs : List Byte) : (b.store a bs).nrg = b.nrg := rfl
@[simp] theorem Block.store_cap (b : Block) (a : Nat) (bs : List Byte) : (b.store a bs).cap = b.cap := rfl
@[simp] theorem Block.store_rad (b : Block) (a : Nat) (bs : List Byte) : (b.store a bs).rad = b.rad := rfl
@[simp] theorem Block.store_red (b : Block) (a : Nat) (bs : List Byte) : (b.store a bs).red = b.red := rfl

/-! ### Setter: storeN -/

@[simp] theorem Block.storeN_t7 (b : Block) (a n v : Nat) : (b.storeN a n v).t7 = b.t7 := rfl
@[simp] theorem Block.storeN_free (b : Block) (a n v : Nat) : (b.storeN a n v).free = b.free := rfl
@[simp] theorem Block.storeN_regs (b : Block) (a n v : Nat) : (b.storeN a n v).regs = b.regs := rfl
@[simp] theorem Block.storeN_resp (b : Block) (a n v : Nat) : (b.storeN a n v).resp = b.resp := rfl
@[simp] theorem Block.storeN_latch (b : Block) (a n v : Nat) : (b.storeN a n v).latch = b.latch := rfl
@[simp] theorem Block.storeN_rep (b : Block) (a n v : Nat) : (b.storeN a n v).rep = b.rep := rfl
@[simp] theorem Block.storeN_evr (b : Block) (a n v : Nat) : (b.storeN a n v).evr = b.evr := rfl
@[simp] theorem Block.storeN_sys (b : Block) (a n v : Nat) : (b.storeN a n v).sys = b.sys := rfl
@[simp] theorem Block.storeN_pwr (b : Block) (a n v : Nat) : (b.storeN a n v).pwr = b.pwr := rfl
@[simp] theorem Block.storeN_key (b : Block) (a n v : Nat) : (b.storeN a n v).key = b.key := rfl
@[simp] theorem Block.storeN_tam (b : Block) (a n v : Nat) : (b.storeN a n v).tam = b.tam := rfl
@[simp] theorem Block.storeN_acc (b : Block) (a n v : Nat) : (b.storeN a n v).acc = b.acc := rfl
@[simp] theorem Block.storeN_tim (b : Block) (a n v : Nat) : (b.storeN a n v).tim = b.tim := rfl
@[simp] theorem Block.storeN_aln (b : Block) (a n v : Nat) : (b.storeN a n v).aln = b.aln := rfl
@[simp] theorem Block.storeN_mm (b : Block) (a n v : Nat) : (b.storeN a n v).mm = b.mm := rfl
@[simp] theorem Block.storeN_dma (b : Block) (a n v : Nat) : (b.storeN a n v).dma = b.dma := rfl
@[simp] theorem Block.storeN_que (b : Block) (a n v : Nat) : (b.storeN a n v).que = b.que := rfl
@[simp] theorem Block.storeN_dfe (b : Block) (a n v : Nat) : (b.storeN a n v).dfe = b.dfe := rfl
@[simp] theorem Block.storeN_prt (b : Block) (a n v : Nat) : (b.storeN a n v).prt = b.prt := rfl
@[simp] theorem Block.storeN_str (b : Block) (a n v : Nat) : (b.storeN a n v).str = b.str := rfl
@[simp] theorem Block.storeN_out (b : Block) (a n v : Nat) : (b.storeN a n v).out = b.out := rfl
@[simp] theorem Block.storeN_cas (b : Block) (a n v : Nat) : (b.storeN a n v).cas = b.cas := rfl
@[simp] theorem Block.storeN_rpl (b : Block) (a n v : Nat) : (b.storeN a n v).rpl = b.rpl := rfl
@[simp] theorem Block.storeN_isl (b : Block) (a n v : Nat) : (b.storeN a n v).isl = b.isl := rfl
@[simp] theorem Block.storeN_alm (b : Block) (a n v : Nat) : (b.storeN a n v).alm = b.alm := rfl
@[simp] theorem Block.storeN_cmp (b : Block) (a n v : Nat) : (b.storeN a n v).cmp = b.cmp := rfl
@[simp] theorem Block.storeN_sdm (b : Block) (a n v : Nat) : (b.storeN a n v).sdm = b.sdm := rfl
@[simp] theorem Block.storeN_nrg (b : Block) (a n v : Nat) : (b.storeN a n v).nrg = b.nrg := rfl
@[simp] theorem Block.storeN_cap (b : Block) (a n v : Nat) : (b.storeN a n v).cap = b.cap := rfl
@[simp] theorem Block.storeN_rad (b : Block) (a n v : Nat) : (b.storeN a n v).rad = b.rad := rfl
@[simp] theorem Block.storeN_red (b : Block) (a n v : Nat) : (b.storeN a n v).red = b.red := rfl

/-! ### Setter: storeFlash -/

@[simp] theorem Block.storeFlash_t7 (b : Block) (o : Nat) (bs : List Byte) : (b.storeFlash o bs).t7 = b.t7 := rfl
@[simp] theorem Block.storeFlash_free (b : Block) (o : Nat) (bs : List Byte) : (b.storeFlash o bs).free = b.free := rfl
@[simp] theorem Block.storeFlash_regs (b : Block) (o : Nat) (bs : List Byte) : (b.storeFlash o bs).regs = b.regs := rfl
@[simp] theorem Block.storeFlash_resp (b : Block) (o : Nat) (bs : List Byte) : (b.storeFlash o bs).resp = b.resp := rfl
@[simp] theorem Block.storeFlash_latch (b : Block) (o : Nat) (bs : List Byte) : (b.storeFlash o bs).latch = b.latch := rfl
@[simp] theorem Block.storeFlash_rep (b : Block) (o : Nat) (bs : List Byte) : (b.storeFlash o bs).rep = b.rep := rfl
@[simp] theorem Block.storeFlash_evr (b : Block) (o : Nat) (bs : List Byte) : (b.storeFlash o bs).evr = b.evr := rfl
@[simp] theorem Block.storeFlash_sys (b : Block) (o : Nat) (bs : List Byte) : (b.storeFlash o bs).sys = b.sys := rfl
@[simp] theorem Block.storeFlash_pwr (b : Block) (o : Nat) (bs : List Byte) : (b.storeFlash o bs).pwr = b.pwr := rfl
@[simp] theorem Block.storeFlash_key (b : Block) (o : Nat) (bs : List Byte) : (b.storeFlash o bs).key = b.key := rfl
@[simp] theorem Block.storeFlash_tam (b : Block) (o : Nat) (bs : List Byte) : (b.storeFlash o bs).tam = b.tam := rfl
@[simp] theorem Block.storeFlash_acc (b : Block) (o : Nat) (bs : List Byte) : (b.storeFlash o bs).acc = b.acc := rfl
@[simp] theorem Block.storeFlash_tim (b : Block) (o : Nat) (bs : List Byte) : (b.storeFlash o bs).tim = b.tim := rfl
@[simp] theorem Block.storeFlash_aln (b : Block) (o : Nat) (bs : List Byte) : (b.storeFlash o bs).aln = b.aln := rfl
@[simp] theorem Block.storeFlash_mm (b : Block) (o : Nat) (bs : List Byte) : (b.storeFlash o bs).mm = b.mm := rfl
@[simp] theorem Block.storeFlash_dma (b : Block) (o : Nat) (bs : List Byte) : (b.storeFlash o bs).dma = b.dma := rfl
@[simp] theorem Block.storeFlash_que (b : Block) (o : Nat) (bs : List Byte) : (b.storeFlash o bs).que = b.que := rfl
@[simp] theorem Block.storeFlash_dfe (b : Block) (o : Nat) (bs : List Byte) : (b.storeFlash o bs).dfe = b.dfe := rfl
@[simp] theorem Block.storeFlash_prt (b : Block) (o : Nat) (bs : List Byte) : (b.storeFlash o bs).prt = b.prt := rfl
@[simp] theorem Block.storeFlash_str (b : Block) (o : Nat) (bs : List Byte) : (b.storeFlash o bs).str = b.str := rfl
@[simp] theorem Block.storeFlash_out (b : Block) (o : Nat) (bs : List Byte) : (b.storeFlash o bs).out = b.out := rfl
@[simp] theorem Block.storeFlash_cas (b : Block) (o : Nat) (bs : List Byte) : (b.storeFlash o bs).cas = b.cas := rfl
@[simp] theorem Block.storeFlash_rpl (b : Block) (o : Nat) (bs : List Byte) : (b.storeFlash o bs).rpl = b.rpl := rfl
@[simp] theorem Block.storeFlash_isl (b : Block) (o : Nat) (bs : List Byte) : (b.storeFlash o bs).isl = b.isl := rfl
@[simp] theorem Block.storeFlash_alm (b : Block) (o : Nat) (bs : List Byte) : (b.storeFlash o bs).alm = b.alm := rfl
@[simp] theorem Block.storeFlash_cmp (b : Block) (o : Nat) (bs : List Byte) : (b.storeFlash o bs).cmp = b.cmp := rfl
@[simp] theorem Block.storeFlash_sdm (b : Block) (o : Nat) (bs : List Byte) : (b.storeFlash o bs).sdm = b.sdm := rfl
@[simp] theorem Block.storeFlash_nrg (b : Block) (o : Nat) (bs : List Byte) : (b.storeFlash o bs).nrg = b.nrg := rfl
@[simp] theorem Block.storeFlash_cap (b : Block) (o : Nat) (bs : List Byte) : (b.storeFlash o bs).cap = b.cap := rfl
@[simp] theorem Block.storeFlash_rad (b : Block) (o : Nat) (bs : List Byte) : (b.storeFlash o bs).rad = b.rad := rfl
@[simp] theorem Block.storeFlash_red (b : Block) (o : Nat) (bs : List Byte) : (b.storeFlash o bs).red = b.red := rfl

/-! ### Setter: zeroRange -/

@[simp] theorem Block.zeroRange_t7 (b : Block) (a n : Nat) : (b.zeroRange a n).t7 = b.t7 := rfl
@[simp] theorem Block.zeroRange_free (b : Block) (a n : Nat) : (b.zeroRange a n).free = b.free := rfl
@[simp] theorem Block.zeroRange_regs (b : Block) (a n : Nat) : (b.zeroRange a n).regs = b.regs := rfl
@[simp] theorem Block.zeroRange_resp (b : Block) (a n : Nat) : (b.zeroRange a n).resp = b.resp := rfl
@[simp] theorem Block.zeroRange_latch (b : Block) (a n : Nat) : (b.zeroRange a n).latch = b.latch := rfl
@[simp] theorem Block.zeroRange_rep (b : Block) (a n : Nat) : (b.zeroRange a n).rep = b.rep := rfl
@[simp] theorem Block.zeroRange_evr (b : Block) (a n : Nat) : (b.zeroRange a n).evr = b.evr := rfl
@[simp] theorem Block.zeroRange_sys (b : Block) (a n : Nat) : (b.zeroRange a n).sys = b.sys := rfl
@[simp] theorem Block.zeroRange_pwr (b : Block) (a n : Nat) : (b.zeroRange a n).pwr = b.pwr := rfl
@[simp] theorem Block.zeroRange_key (b : Block) (a n : Nat) : (b.zeroRange a n).key = b.key := rfl
@[simp] theorem Block.zeroRange_tam (b : Block) (a n : Nat) : (b.zeroRange a n).tam = b.tam := rfl
@[simp] theorem Block.zeroRange_acc (b : Block) (a n : Nat) : (b.zeroRange a n).acc = b.acc := rfl
@[simp] theorem Block.zeroRange_tim (b : Block) (a n : Nat) : (b.zeroRange a n).tim = b.tim := rfl
@[simp] theorem Block.zeroRange_aln (b : Block) (a n : Nat) : (b.zeroRange a n).aln = b.aln := rfl
@[simp] theorem Block.zeroRange_mm (b : Block) (a n : Nat) : (b.zeroRange a n).mm = b.mm := rfl
@[simp] theorem Block.zeroRange_dma (b : Block) (a n : Nat) : (b.zeroRange a n).dma = b.dma := rfl
@[simp] theorem Block.zeroRange_que (b : Block) (a n : Nat) : (b.zeroRange a n).que = b.que := rfl
@[simp] theorem Block.zeroRange_dfe (b : Block) (a n : Nat) : (b.zeroRange a n).dfe = b.dfe := rfl
@[simp] theorem Block.zeroRange_prt (b : Block) (a n : Nat) : (b.zeroRange a n).prt = b.prt := rfl
@[simp] theorem Block.zeroRange_str (b : Block) (a n : Nat) : (b.zeroRange a n).str = b.str := rfl
@[simp] theorem Block.zeroRange_out (b : Block) (a n : Nat) : (b.zeroRange a n).out = b.out := rfl
@[simp] theorem Block.zeroRange_cas (b : Block) (a n : Nat) : (b.zeroRange a n).cas = b.cas := rfl
@[simp] theorem Block.zeroRange_rpl (b : Block) (a n : Nat) : (b.zeroRange a n).rpl = b.rpl := rfl
@[simp] theorem Block.zeroRange_isl (b : Block) (a n : Nat) : (b.zeroRange a n).isl = b.isl := rfl
@[simp] theorem Block.zeroRange_alm (b : Block) (a n : Nat) : (b.zeroRange a n).alm = b.alm := rfl
@[simp] theorem Block.zeroRange_cmp (b : Block) (a n : Nat) : (b.zeroRange a n).cmp = b.cmp := rfl
@[simp] theorem Block.zeroRange_sdm (b : Block) (a n : Nat) : (b.zeroRange a n).sdm = b.sdm := rfl
@[simp] theorem Block.zeroRange_nrg (b : Block) (a n : Nat) : (b.zeroRange a n).nrg = b.nrg := rfl
@[simp] theorem Block.zeroRange_cap (b : Block) (a n : Nat) : (b.zeroRange a n).cap = b.cap := rfl
@[simp] theorem Block.zeroRange_rad (b : Block) (a n : Nat) : (b.zeroRange a n).rad = b.rad := rfl
@[simp] theorem Block.zeroRange_red (b : Block) (a n : Nat) : (b.zeroRange a n).red = b.red := rfl

/-- Poison is recorded in the memories. -/
theorem Block.poisonAt_eq (b : Block) (a : Nat) : ∃ m, b.poisonAt a = { b with mem := m } := by
  unfold Block.poisonAt
  split
  · exact ⟨_, rfl⟩
  · exact ⟨b.mem, rfl⟩

/-! ### Poison -/

@[simp] theorem Block.poisonAt_t7 (b : Block) (a : Nat) : (b.poisonAt a).t7 = b.t7 := by obtain ⟨m, h⟩ := b.poisonAt_eq a; rw [h]
@[simp] theorem Block.poisonAt_free (b : Block) (a : Nat) : (b.poisonAt a).free = b.free := by obtain ⟨m, h⟩ := b.poisonAt_eq a; rw [h]
@[simp] theorem Block.poisonAt_regs (b : Block) (a : Nat) : (b.poisonAt a).regs = b.regs := by obtain ⟨m, h⟩ := b.poisonAt_eq a; rw [h]
@[simp] theorem Block.poisonAt_resp (b : Block) (a : Nat) : (b.poisonAt a).resp = b.resp := by obtain ⟨m, h⟩ := b.poisonAt_eq a; rw [h]
@[simp] theorem Block.poisonAt_latch (b : Block) (a : Nat) : (b.poisonAt a).latch = b.latch := by obtain ⟨m, h⟩ := b.poisonAt_eq a; rw [h]
@[simp] theorem Block.poisonAt_rep (b : Block) (a : Nat) : (b.poisonAt a).rep = b.rep := by obtain ⟨m, h⟩ := b.poisonAt_eq a; rw [h]
@[simp] theorem Block.poisonAt_evr (b : Block) (a : Nat) : (b.poisonAt a).evr = b.evr := by obtain ⟨m, h⟩ := b.poisonAt_eq a; rw [h]
@[simp] theorem Block.poisonAt_sys (b : Block) (a : Nat) : (b.poisonAt a).sys = b.sys := by obtain ⟨m, h⟩ := b.poisonAt_eq a; rw [h]
@[simp] theorem Block.poisonAt_pwr (b : Block) (a : Nat) : (b.poisonAt a).pwr = b.pwr := by obtain ⟨m, h⟩ := b.poisonAt_eq a; rw [h]
@[simp] theorem Block.poisonAt_key (b : Block) (a : Nat) : (b.poisonAt a).key = b.key := by obtain ⟨m, h⟩ := b.poisonAt_eq a; rw [h]
@[simp] theorem Block.poisonAt_tam (b : Block) (a : Nat) : (b.poisonAt a).tam = b.tam := by obtain ⟨m, h⟩ := b.poisonAt_eq a; rw [h]
@[simp] theorem Block.poisonAt_acc (b : Block) (a : Nat) : (b.poisonAt a).acc = b.acc := by obtain ⟨m, h⟩ := b.poisonAt_eq a; rw [h]
@[simp] theorem Block.poisonAt_tim (b : Block) (a : Nat) : (b.poisonAt a).tim = b.tim := by obtain ⟨m, h⟩ := b.poisonAt_eq a; rw [h]
@[simp] theorem Block.poisonAt_aln (b : Block) (a : Nat) : (b.poisonAt a).aln = b.aln := by obtain ⟨m, h⟩ := b.poisonAt_eq a; rw [h]
@[simp] theorem Block.poisonAt_mm (b : Block) (a : Nat) : (b.poisonAt a).mm = b.mm := by obtain ⟨m, h⟩ := b.poisonAt_eq a; rw [h]
@[simp] theorem Block.poisonAt_dma (b : Block) (a : Nat) : (b.poisonAt a).dma = b.dma := by obtain ⟨m, h⟩ := b.poisonAt_eq a; rw [h]
@[simp] theorem Block.poisonAt_que (b : Block) (a : Nat) : (b.poisonAt a).que = b.que := by obtain ⟨m, h⟩ := b.poisonAt_eq a; rw [h]
@[simp] theorem Block.poisonAt_dfe (b : Block) (a : Nat) : (b.poisonAt a).dfe = b.dfe := by obtain ⟨m, h⟩ := b.poisonAt_eq a; rw [h]
@[simp] theorem Block.poisonAt_prt (b : Block) (a : Nat) : (b.poisonAt a).prt = b.prt := by obtain ⟨m, h⟩ := b.poisonAt_eq a; rw [h]
@[simp] theorem Block.poisonAt_str (b : Block) (a : Nat) : (b.poisonAt a).str = b.str := by obtain ⟨m, h⟩ := b.poisonAt_eq a; rw [h]
@[simp] theorem Block.poisonAt_out (b : Block) (a : Nat) : (b.poisonAt a).out = b.out := by obtain ⟨m, h⟩ := b.poisonAt_eq a; rw [h]
@[simp] theorem Block.poisonAt_cas (b : Block) (a : Nat) : (b.poisonAt a).cas = b.cas := by obtain ⟨m, h⟩ := b.poisonAt_eq a; rw [h]
@[simp] theorem Block.poisonAt_rpl (b : Block) (a : Nat) : (b.poisonAt a).rpl = b.rpl := by obtain ⟨m, h⟩ := b.poisonAt_eq a; rw [h]
@[simp] theorem Block.poisonAt_isl (b : Block) (a : Nat) : (b.poisonAt a).isl = b.isl := by obtain ⟨m, h⟩ := b.poisonAt_eq a; rw [h]
@[simp] theorem Block.poisonAt_alm (b : Block) (a : Nat) : (b.poisonAt a).alm = b.alm := by obtain ⟨m, h⟩ := b.poisonAt_eq a; rw [h]
@[simp] theorem Block.poisonAt_cmp (b : Block) (a : Nat) : (b.poisonAt a).cmp = b.cmp := by obtain ⟨m, h⟩ := b.poisonAt_eq a; rw [h]
@[simp] theorem Block.poisonAt_sdm (b : Block) (a : Nat) : (b.poisonAt a).sdm = b.sdm := by obtain ⟨m, h⟩ := b.poisonAt_eq a; rw [h]
@[simp] theorem Block.poisonAt_nrg (b : Block) (a : Nat) : (b.poisonAt a).nrg = b.nrg := by obtain ⟨m, h⟩ := b.poisonAt_eq a; rw [h]
@[simp] theorem Block.poisonAt_cap (b : Block) (a : Nat) : (b.poisonAt a).cap = b.cap := by obtain ⟨m, h⟩ := b.poisonAt_eq a; rw [h]
@[simp] theorem Block.poisonAt_rad (b : Block) (a : Nat) : (b.poisonAt a).rad = b.rad := by obtain ⟨m, h⟩ := b.poisonAt_eq a; rw [h]
@[simp] theorem Block.poisonAt_red (b : Block) (a : Nat) : (b.poisonAt a).red = b.red := by obtain ⟨m, h⟩ := b.poisonAt_eq a; rw [h]

end Sys2Proof.Machine
end

