-- ==== Sys2Proof/Laws/Touch.lean ====
section
/-! SUPPORT. How what a command touches composes: sequence, choice, repetition, the leaves. -/

namespace Sys2Proof.Machine

variable {l l' : List Part} {a b c x y : Block}

/-- Every part of one list is in another. -/
def Parts.sub (l' l : List Part) : Bool := l'.all (fun p => l.contains p)

theorem Part.same_refl (p : Part) (a : Block) : p.same a a := by cases p <;> rfl

theorem Part.same_trans {p : Part} (h : p.same a b) (k : p.same b c) : p.same a c := by
  cases p <;> exact Eq.trans k h

theorem Touches.refl : Touches l a a := ⟨fun p _ => p.same_refl a, id⟩

/-- Steps in sequence, the later one touching parts that the whole may touch. -/
theorem Touches.trans (h : Touches l a b) (k : Touches l' b c) (s : Parts.sub l' l = true) : Touches l a c :=
  ⟨fun p hp => Part.same_trans (h.keeps p hp) (k.keeps p (by
    cases e : l'.contains p with
    | false => rfl
    | true =>
      have := List.all_eq_true.mp s p (by simpa using e)
      rw [hp] at this; cases this)), fun w => k.memWf (h.memWf w)⟩

/-- The same, for the last step first. -/
theorem Touches.step (k : Touches l' b c) (h : Touches l a b) (s : Parts.sub l' l = true) : Touches l a c := h.trans k s

theorem Touches.weaken (k : Touches l' a c) (s : Parts.sub l' l = true) : Touches l a c := Touches.refl.trans k s

/-- A value met on the way. -/
theorem Touches.mid {P : Prop} (h : Touches l a x) (k : Touches l a x → P) : P := k h

theorem Touches.ite {p : Prop} [Decidable p] (h : Touches l a x) (k : Touches l a y) : Touches l a (if p then x else y) := by
  split <;> assumption

theorem Touches.fold {α : Type} {f : Block → α → Block} {r : List α} (h : Touches l a b)
    (k : ∀ x e, Touches l a x → Touches l a (f x e)) : Touches l a (r.foldl f b) := by
  induction r generalizing b with
  | nil => exact h
  | cons e r ih => exact ih (k _ _ h)

theorem Touches.fold1 {α β : Type} {f : Block × β → α → Block × β} {r : List α} {p : Block × β} (h : Touches l a p.1)
    (k : ∀ p e, Touches l a p.1 → Touches l a (f p e).1) : Touches l a (r.foldl f p).1 := by
  induction r generalizing p with
  | nil => exact h
  | cons e r ih => exact ih (k _ _ h)

theorem Touches.fold2 {α β : Type} {f : β × Block → α → β × Block} {r : List α} {p : β × Block} (h : Touches l a p.2)
    (k : ∀ p e, Touches l a p.2 → Touches l a (f p e).2) : Touches l a (r.foldl f p).2 := by
  induction r generalizing p with
  | nil => exact h
  | cons e r ih => exact ih (k _ _ h)

theorem Touches.snd {α : Type} {p : α × Block} {v : α} (h : p = (v, b)) (k : Touches l a p.2) : Touches l a b := by
  subst h; exact k

theorem Touches.fst {α : Type} {p : Block × α} {v : α} (h : p = (b, v)) (k : Touches l a p.1) : Touches l a b := by
  subst h; exact k

theorem Touches.third {α β : Type} {p : α × β × Block} {v : α} {w : β} (h : p = (v, w, b)) (k : Touches l a p.2.2) : Touches l a b := by
  subst h; exact k

theorem Touches.fourth {α β γ : Type} {p : α × β × γ × Block} {v : α} {w : β} {z : γ} (h : p = (v, w, z, b))
    (k : Touches l a p.2.2.2) : Touches l a b := by
  subst h; exact k

theorem Touches.getD {o : Option Block} (h : ∀ z, o = some z → Touches l a z) (k : Touches l a x) : Touches l a (o.getD x) := by
  cases o with
  | none => exact k
  | some z => exact h z rfl

/-- A record update that leaves the memories: the parts it changes are listed. -/
theorem Touches.mk' (h : Touches l a b) (y : Block)
    (k : y.mem = b.mem ∧ ∀ p, l.contains p = false → p.same b y) : Touches l a y :=
  ⟨fun p hp => Part.same_trans (h.keeps p hp) (k.2 p hp), fun w => k.1 ▸ h.memWf w⟩

/-! Updates of the record by the parts they set. -/

theorem Touches.set_free (v0 : Nat) (h : Touches l a b) (s : (l.contains .free) = true) :
    Touches l a { b with free := v0 } :=
  h.mk' _ ⟨rfl, fun p hp => by cases p <;> first | rfl | simp_all⟩

theorem Touches.set_resp (v0 : Tbl Response) (h : Touches l a b) (s : (l.contains .resp) = true) :
    Touches l a { b with resp := v0 } :=
  h.mk' _ ⟨rfl, fun p hp => by cases p <;> first | rfl | simp_all⟩

theorem Touches.set_latch (v0 : Tbl Word) (h : Touches l a b) (s : (l.contains .latch) = true) :
    Touches l a { b with latch := v0 } :=
  h.mk' _ ⟨rfl, fun p hp => by cases p <;> first | rfl | simp_all⟩

theorem Touches.set_rep (v0 : Tbl (Nat × Nat)) (h : Touches l a b) (s : (l.contains .rep) = true) :
    Touches l a { b with rep := v0 } :=
  h.mk' _ ⟨rfl, fun p hp => by cases p <;> first | rfl | simp_all⟩

theorem Touches.set_evr (v0 : Evr) (h : Touches l a b) (s : (l.contains .evr) = true) :
    Touches l a { b with evr := v0 } :=
  h.mk' _ ⟨rfl, fun p hp => by cases p <;> first | rfl | simp_all⟩

theorem Touches.set_sys (v0 : Sys) (h : Touches l a b) (s : (l.contains .sys) = true) :
    Touches l a { b with sys := v0 } :=
  h.mk' _ ⟨rfl, fun p hp => by cases p <;> first | rfl | simp_all⟩

theorem Touches.set_pwr (v0 : Pwr) (h : Touches l a b) (s : (l.contains .pwr) = true) :
    Touches l a { b with pwr := v0 } :=
  h.mk' _ ⟨rfl, fun p hp => by cases p <;> first | rfl | simp_all⟩

theorem Touches.set_key (v0 : Key) (h : Touches l a b) (s : (l.contains .key) = true) :
    Touches l a { b with key := v0 } :=
  h.mk' _ ⟨rfl, fun p hp => by cases p <;> first | rfl | simp_all⟩

theorem Touches.set_tam (v0 : Tam) (h : Touches l a b) (s : (l.contains .tam) = true) :
    Touches l a { b with tam := v0 } :=
  h.mk' _ ⟨rfl, fun p hp => by cases p <;> first | rfl | simp_all⟩

theorem Touches.set_acc (v0 : Acc) (h : Touches l a b) (s : (l.contains .acc) = true) :
    Touches l a { b with acc := v0 } :=
  h.mk' _ ⟨rfl, fun p hp => by cases p <;> first | rfl | simp_all⟩

theorem Touches.set_tim (v0 : Tim) (h : Touches l a b) (s : (l.contains .tim) = true) :
    Touches l a { b with tim := v0 } :=
  h.mk' _ ⟨rfl, fun p hp => by cases p <;> first | rfl | simp_all⟩

theorem Touches.set_aln (v0 : Aln) (h : Touches l a b) (s : (l.contains .aln) = true) :
    Touches l a { b with aln := v0 } :=
  h.mk' _ ⟨rfl, fun p hp => by cases p <;> first | rfl | simp_all⟩

theorem Touches.set_mm (v0 : MemBlk) (h : Touches l a b) (s : (l.contains .mm) = true) :
    Touches l a { b with mm := v0 } :=
  h.mk' _ ⟨rfl, fun p hp => by cases p <;> first | rfl | simp_all⟩

theorem Touches.set_dma (v0 : Dma) (h : Touches l a b) (s : (l.contains .dma) = true) :
    Touches l a { b with dma := v0 } :=
  h.mk' _ ⟨rfl, fun p hp => by cases p <;> first | rfl | simp_all⟩

theorem Touches.set_que (v0 : Tbl Queue) (h : Touches l a b) (s : (l.contains .que) = true) :
    Touches l a { b with que := v0 } :=
  h.mk' _ ⟨rfl, fun p hp => by cases p <;> first | rfl | simp_all⟩

theorem Touches.set_dfe (v0 : Dfe) (h : Touches l a b) (s : (l.contains .dfe) = true) :
    Touches l a { b with dfe := v0 } :=
  h.mk' _ ⟨rfl, fun p hp => by cases p <;> first | rfl | simp_all⟩

theorem Touches.set_prt (v0 : Tbl PrtPort) (h : Touches l a b) (s : (l.contains .prt) = true) :
    Touches l a { b with prt := v0 } :=
  h.mk' _ ⟨rfl, fun p hp => by cases p <;> first | rfl | simp_all⟩

theorem Touches.set_str (v0 : Stream) (h : Touches l a b) (s : (l.contains .str) = true) :
    Touches l a { b with str := v0 } :=
  h.mk' _ ⟨rfl, fun p hp => by cases p <;> first | rfl | simp_all⟩

theorem Touches.set_out (v0 : Out) (h : Touches l a b) (s : (l.contains .out) = true) :
    Touches l a { b with out := v0 } :=
  h.mk' _ ⟨rfl, fun p hp => by cases p <;> first | rfl | simp_all⟩

theorem Touches.set_cas (v0 : Cas) (h : Touches l a b) (s : (l.contains .cas) = true) :
    Touches l a { b with cas := v0 } :=
  h.mk' _ ⟨rfl, fun p hp => by cases p <;> first | rfl | simp_all⟩

theorem Touches.set_rpl (v0 : Rpl) (h : Touches l a b) (s : (l.contains .rpl) = true) :
    Touches l a { b with rpl := v0 } :=
  h.mk' _ ⟨rfl, fun p hp => by cases p <;> first | rfl | simp_all⟩

theorem Touches.set_isl (v0 : Isl) (h : Touches l a b) (s : (l.contains .isl) = true) :
    Touches l a { b with isl := v0 } :=
  h.mk' _ ⟨rfl, fun p hp => by cases p <;> first | rfl | simp_all⟩

theorem Touches.set_alm (v0 : Alm) (h : Touches l a b) (s : (l.contains .alm) = true) :
    Touches l a { b with alm := v0 } :=
  h.mk' _ ⟨rfl, fun p hp => by cases p <;> first | rfl | simp_all⟩

theorem Touches.set_cmp (v0 : Cmp) (h : Touches l a b) (s : (l.contains .cmp) = true) :
    Touches l a { b with cmp := v0 } :=
  h.mk' _ ⟨rfl, fun p hp => by cases p <;> first | rfl | simp_all⟩

theorem Touches.set_sdm (v0 : Sdm) (h : Touches l a b) (s : (l.contains .sdm) = true) :
    Touches l a { b with sdm := v0 } :=
  h.mk' _ ⟨rfl, fun p hp => by cases p <;> first | rfl | simp_all⟩

theorem Touches.set_nrg (v0 : Nrg) (h : Touches l a b) (s : (l.contains .nrg) = true) :
    Touches l a { b with nrg := v0 } :=
  h.mk' _ ⟨rfl, fun p hp => by cases p <;> first | rfl | simp_all⟩

theorem Touches.set_cap (v0 : Cap) (h : Touches l a b) (s : (l.contains .cap) = true) :
    Touches l a { b with cap := v0 } :=
  h.mk' _ ⟨rfl, fun p hp => by cases p <;> first | rfl | simp_all⟩

theorem Touches.set_rad (v0 : Rad) (h : Touches l a b) (s : (l.contains .rad) = true) :
    Touches l a { b with rad := v0 } :=
  h.mk' _ ⟨rfl, fun p hp => by cases p <;> first | rfl | simp_all⟩

theorem Touches.set_red (v0 : Red) (h : Touches l a b) (s : (l.contains .red) = true) :
    Touches l a { b with red := v0 } :=
  h.mk' _ ⟨rfl, fun p hp => by cases p <;> first | rfl | simp_all⟩

theorem Touches.set_sys_pwr (v0 : Sys) (v1 : Pwr) (h : Touches l a b) (s : (l.contains .sys && l.contains .pwr) = true) :
    Touches l a { b with sys := v0, pwr := v1 } :=
  h.mk' _ ⟨rfl, fun p hp => by cases p <;> first | rfl | simp_all⟩

theorem Touches.set_sys_key (v0 : Sys) (v1 : Key) (h : Touches l a b) (s : (l.contains .sys && l.contains .key) = true) :
    Touches l a { b with sys := v0, key := v1 } :=
  h.mk' _ ⟨rfl, fun p hp => by cases p <;> first | rfl | simp_all⟩

theorem Touches.set_dfe_alm (v0 : Dfe) (v1 : Alm) (h : Touches l a b) (s : (l.contains .dfe && l.contains .alm) = true) :
    Touches l a { b with dfe := v0, alm := v1 } :=
  h.mk' _ ⟨rfl, fun p hp => by cases p <;> first | rfl | simp_all⟩

theorem Touches.set_out_alm (v0 : Out) (v1 : Alm) (h : Touches l a b) (s : (l.contains .out && l.contains .alm) = true) :
    Touches l a { b with out := v0, alm := v1 } :=
  h.mk' _ ⟨rfl, fun p hp => by cases p <;> first | rfl | simp_all⟩

theorem Touches.set_out_red (v0 : Out) (v1 : Red) (h : Touches l a b) (s : (l.contains .out && l.contains .red) = true) :
    Touches l a { b with out := v0, red := v1 } :=
  h.mk' _ ⟨rfl, fun p hp => by cases p <;> first | rfl | simp_all⟩

theorem Touches.set_t7_sys_pwr (v0 : Nat) (v1 : Sys) (v2 : Pwr) (h : Touches l a b) (s : (l.contains .t7 && l.contains .sys && l.contains .pwr) = true) :
    Touches l a { b with t7 := v0, sys := v1, pwr := v2 } :=
  h.mk' _ ⟨rfl, fun p hp => by cases p <;> first | rfl | simp_all⟩

theorem Touches.set_sys_key_tam (v0 : Sys) (v1 : Key) (v2 : Tam) (h : Touches l a b) (s : (l.contains .sys && l.contains .key && l.contains .tam) = true) :
    Touches l a { b with sys := v0, key := v1, tam := v2 } :=
  h.mk' _ ⟨rfl, fun p hp => by cases p <;> first | rfl | simp_all⟩

theorem Touches.set_out_alm_red (v0 : Out) (v1 : Alm) (v2 : Red) (h : Touches l a b) (s : (l.contains .out && l.contains .alm && l.contains .red) = true) :
    Touches l a { b with out := v0, alm := v1, red := v2 } :=
  h.mk' _ ⟨rfl, fun p hp => by cases p <;> first | rfl | simp_all⟩

theorem Touches.set_resp_sys_acc_que (v0 : Tbl Response) (v1 : Sys) (v2 : Acc) (v3 : Tbl Queue) (h : Touches l a b) (s : (l.contains .resp && l.contains .sys && l.contains .acc && l.contains .que) = true) :
    Touches l a { b with resp := v0, sys := v1, acc := v2, que := v3 } :=
  h.mk' _ ⟨rfl, fun p hp => by cases p <;> first | rfl | simp_all⟩

theorem Touches.set_sys_dfe_alm_red (v0 : Sys) (v1 : Dfe) (v2 : Alm) (v3 : Red) (h : Touches l a b) (s : (l.contains .sys && l.contains .dfe && l.contains .alm && l.contains .red) = true) :
    Touches l a { b with sys := v0, dfe := v1, alm := v2, red := v3 } :=
  h.mk' _ ⟨rfl, fun p hp => by cases p <;> first | rfl | simp_all⟩

theorem Touches.set_aln_str_out_rpl_isl_alm_rad (v0 : Aln) (v1 : Stream) (v2 : Out) (v3 : Rpl) (v4 : Isl) (v5 : Alm) (v6 : Rad) (h : Touches l a b) (s : (l.contains .aln && l.contains .str && l.contains .out && l.contains .rpl && l.contains .isl && l.contains .alm && l.contains .rad) = true) :
    Touches l a { b with aln := v0, str := v1, out := v2, rpl := v3, isl := v4, alm := v5, rad := v6 } :=
  h.mk' _ ⟨rfl, fun p hp => by cases p <;> first | rfl | simp_all⟩

/-- An update of the memories that keeps their form. -/
theorem Touches.setMem (m : Mem) (h : Touches l a b) (k : ∀ p, l.contains p = false → p.same b { b with mem := m })
    (w : Memory.wf b.mem = true → Memory.wf m = true) : Touches l a { b with mem := m } :=
  ⟨fun p hp => Part.same_trans (h.keeps p hp) (k p hp), fun x => w (h.memWf x)⟩

/-- A record update that leaves the bytes of the memories. -/
theorem Touches.mkKept (h : Touches l a b) (y : Block) (hc : y.mem.cells = b.mem.cells) (hf : y.mem.flash = b.mem.flash)
    (k : ∀ p, l.contains p = false → p.same b y) : Touches l a y :=
  ⟨fun p hp => Part.same_trans (h.keeps p hp) (k p hp), fun x => by
    have w := h.memWf x
    unfold Memory.wf at *
    rw [hc, hf]
    exact w⟩

/-- An update of the poison and of the erroneous contents. -/
theorem Touches.set_poison (m : Mem) (h : Touches l a b) (s : l.contains .poison = true) (hc : m.cells = b.mem.cells)
    (hf : m.flash = b.mem.flash) : Touches l a { b with mem := m } := by
  refine h.mkKept _ hc hf (fun p hp => ?_)
  cases p <;> first | rfl | exact hc | exact hf | (rw [s] at hp; cases hp)

end Sys2Proof.Machine
end

