-- ==== Sys2Proof/Laws/TouchOps.lean ====
section
/-! SUPPORT. What the operations of Machine/Ops.lean touch. -/

namespace Sys2Proof.Machine

set_option linter.all false

theorem Block.clock_touches (b) (x1) : Touches [.t7] b (Block.clock b x1) := by
  unfold Block.clock
  exact Touches.refl.mk' _ ⟨rfl, fun p hp => by cases p <;> first | rfl | cases hp⟩

theorem Block.setVis_touches (b) (x1) (x2) (x3) (x4) : Touches [.vis] b (Block.setVis b x1 x2 x3 x4) := by
  unfold Block.setVis
  exact Touches.refl.mk' _ ⟨rfl, fun p hp => by cases p <;> first | rfl | cases hp⟩

theorem Block.setAct_touches (b) (x1) (x2) (x3) (x4) : Touches [.act] b (Block.setAct b x1 x2 x3 x4) := by
  unfold Block.setAct
  exact Touches.refl.mk' _ ⟨rfl, fun p hp => by cases p <;> first | rfl | cases hp⟩

theorem Block.setBoth_touches (b) (x1) (x2) (x3) (x4) : Touches [.vis, .act] b (Block.setBoth b x1 x2 x3 x4) := by
  unfold Block.setBoth
  repeat' first
    | with_reducible assumption
    | with_reducible exact Touches.refl
    | exact rfl
    | (intro x
       refine Touches.mid (show Touches [.vis, .act] b x from ?_) (fun h => ?_)
       all_goals first | (with_reducible have h0 : Touches [.vis, .act] b x := h; clear h0; clear_value x) | subst x)
    | intro _
    | lift_lets
    | with_reducible refine Touches.ite ?_ ?_
    | with_reducible apply Touches.step (Block.setAct_touches ..)
    | with_reducible apply Touches.step (Block.setVis_touches ..)
    | split
    | with_reducible refine Touches.snd (by assumption) ?_
    | with_reducible refine Touches.fst (by assumption) ?_
    | (clear_value *; split)
    | dsimp only

theorem Block.raiseBit_touches (b) (x1) (x2) (x3) : Touches [.vis] b (Block.raiseBit b x1 x2 x3) := by
  unfold Block.raiseBit
  exact Touches.refl.mk' _ ⟨rfl, fun p hp => by cases p <;> first | rfl | cases hp⟩

theorem Block.orBit_touches (b) (x1) (x2) : Touches [.vis] b (Block.orBit b x1 x2) := by
  unfold Block.orBit
  exact Touches.refl.mk' _ ⟨rfl, fun p hp => by cases p <;> first | rfl | cases hp⟩

theorem Block.setBit_touches (b) (x1) (x2) (x3) (x4) : Touches [.vis] b (Block.setBit b x1 x2 x3 x4) := by
  unfold Block.setBit
  repeat' first
    | with_reducible assumption
    | with_reducible exact Touches.refl
    | exact rfl
    | (intro x
       refine Touches.mid (show Touches [.vis] b x from ?_) (fun h => ?_)
       all_goals first | (with_reducible have h0 : Touches [.vis] b x := h; clear h0; clear_value x) | subst x)
    | intro _
    | lift_lets
    | with_reducible refine Touches.ite ?_ ?_
    | with_reducible apply Touches.step (Block.raiseBit_touches ..)
    | split
    | with_reducible refine Touches.snd (by assumption) ?_
    | with_reducible refine Touches.fst (by assumption) ?_
    | (clear_value *; split)
    | dsimp only

theorem Block.count_touches (b) (x1) (x2) (x3) (x4) : Touches [.vis] b (Block.count b x1 x2 x3 x4) := by
  unfold Block.count
  repeat' first
    | with_reducible assumption
    | with_reducible exact Touches.refl
    | exact rfl
    | (intro x
       refine Touches.mid (show Touches [.vis] b x from ?_) (fun h => ?_)
       all_goals first | (with_reducible have h0 : Touches [.vis] b x := h; clear h0; clear_value x) | subst x)
    | intro _
    | lift_lets
    | with_reducible refine Touches.ite ?_ ?_
    | with_reducible apply Touches.step (Block.orBit_touches ..)
    | exact Touches.refl.mk' _ ⟨rfl, fun p hp => by cases p <;> first | rfl | cases hp⟩
    | exact Touches.mk' (by assumption) _ ⟨rfl, fun p hp => by cases p <;> first | rfl | cases hp⟩
    | split
    | with_reducible refine Touches.snd (by assumption) ?_
    | with_reducible refine Touches.fst (by assumption) ?_
    | (clear_value *; split)
    | dsimp only

theorem Block.uncount_touches (b) (x1) (x2) (x3) (x4) : Touches [.vis] b (Block.uncount b x1 x2 x3 x4) := by
  unfold Block.uncount
  exact Touches.refl.mk' _ ⟨rfl, fun p hp => by cases p <;> first | rfl | cases hp⟩

theorem Block.clearBit_touches (b) (x1) (x2) : Touches [.vis] b (Block.clearBit b x1 x2) := by
  unfold Block.clearBit
  exact Touches.refl.mk' _ ⟨rfl, fun p hp => by cases p <;> first | rfl | cases hp⟩

theorem Block.irq_touches (b) (x1) (x2) : Touches [.vis] b (Block.irq b x1 x2) := by
  unfold Block.irq
  repeat' first
    | with_reducible assumption
    | with_reducible exact Touches.refl
    | exact rfl
    | (intro x
       refine Touches.mid (show Touches [.vis] b x from ?_) (fun h => ?_)
       all_goals first | (with_reducible have h0 : Touches [.vis] b x := h; clear h0; clear_value x) | subst x)
    | intro _
    | lift_lets
    | with_reducible refine Touches.ite ?_ ?_
    | with_reducible apply Touches.step (Block.orBit_touches ..)
    | split
    | with_reducible refine Touches.snd (by assumption) ?_
    | with_reducible refine Touches.fst (by assumption) ?_
    | (clear_value *; split)
    | dsimp only

theorem Block.draw_touches (b) : Touches [.free] b (Block.draw b).2 := by
  unfold Block.draw
  repeat' first
    | with_reducible assumption
    | with_reducible exact Touches.refl
    | exact rfl
    | (intro x
       refine Touches.mid (show Touches [.free] b x from ?_) (fun h => ?_)
       all_goals first | (with_reducible have h0 : Touches [.free] b x := h; clear h0; clear_value x) | subst x)
    | intro _
    | lift_lets
    | with_reducible refine Touches.ite ?_ ?_
    | ((with_reducible apply Touches.set_free) <;> first | with_reducible assumption | with_reducible exact Touches.refl | exact rfl | with_reducible refine Touches.snd (by assumption) ?_)
    | split
    | with_reducible refine Touches.snd (by assumption) ?_
    | with_reducible refine Touches.fst (by assumption) ?_
    | (clear_value *; split)
    | dsimp only

theorem Block.setTb_touches (b) (x1) (x2) : Touches [.tim] b (Block.setTb b x1 x2) := by
  unfold Block.setTb
  repeat' first
    | with_reducible assumption
    | with_reducible exact Touches.refl
    | exact rfl
    | (intro x
       refine Touches.mid (show Touches [.tim] b x from ?_) (fun h => ?_)
       all_goals first | (with_reducible have h0 : Touches [.tim] b x := h; clear h0; clear_value x) | subst x)
    | intro _
    | lift_lets
    | with_reducible refine Touches.ite ?_ ?_
    | ((with_reducible apply Touches.set_tim) <;> first | with_reducible assumption | with_reducible exact Touches.refl | exact rfl | with_reducible refine Touches.snd (by assumption) ?_)
    | split
    | with_reducible refine Touches.snd (by assumption) ?_
    | with_reducible refine Touches.fst (by assumption) ?_
    | (clear_value *; split)
    | dsimp only

theorem Block.sramWrite_touches (b) (x1) (x2) (x3) : Touches [.poison] b (Block.sramWrite b x1 x2 x3) := by
  unfold Block.sramWrite
  repeat' first
    | with_reducible assumption
    | with_reducible exact Touches.refl
    | exact rfl
    | (intro x
       refine Touches.mid (show Touches [.poison] b x from ?_) (fun h => ?_)
       all_goals first | (with_reducible have h0 : Touches [.poison] b x := h; clear h0; clear_value x) | subst x)
    | intro _
    | lift_lets
    | with_reducible refine Touches.ite ?_ ?_
    | ((with_reducible apply Touches.set_poison) <;> first | with_reducible assumption | with_reducible exact Touches.refl | exact rfl | with_reducible refine Touches.snd (by assumption) ?_)
    | split
    | with_reducible refine Touches.snd (by assumption) ?_
    | with_reducible refine Touches.fst (by assumption) ?_
    | (clear_value *; split)
    | dsimp only

theorem Block.store_touches (b) (x1) (x2) : Touches [.cells, .poison] b (Block.store b x1 x2) := Touches.refl.setMem _ (fun p hp => by cases p <;> first | rfl | cases hp) (fun w => Memory.wf_of (fun h => cellsWf_sets x2 x1 h) (fun h => h) w)

theorem Block.storeN_touches (b) (x1) (x2) (x3) : Touches [.cells, .poison] b (Block.storeN b x1 x2 x3) := by
  unfold Block.storeN
  repeat' first
    | with_reducible assumption
    | with_reducible exact Touches.refl
    | exact rfl
    | (intro x
       refine Touches.mid (show Touches [.cells, .poison] b x from ?_) (fun h => ?_)
       all_goals first | (with_reducible have h0 : Touches [.cells, .poison] b x := h; clear h0; clear_value x) | subst x)
    | intro _
    | lift_lets
    | with_reducible refine Touches.ite ?_ ?_
    | with_reducible apply Touches.step (Block.store_touches ..)
    | split
    | with_reducible refine Touches.snd (by assumption) ?_
    | with_reducible refine Touches.fst (by assumption) ?_
    | (clear_value *; split)
    | dsimp only

theorem Block.addPoison_touches (b) (x1) : Touches [.poison] b (Block.addPoison b x1) := Touches.refl.setMem _ (fun p hp => by cases p <;> first | rfl | cases hp) (fun w => w)

theorem Block.engineRewrite_touches (b) (x1) : Touches [.poison] b (Block.engineRewrite b x1) := by
  unfold Block.engineRewrite
  repeat' first
    | with_reducible assumption
    | with_reducible exact Touches.refl
    | exact rfl
    | (intro x
       refine Touches.mid (show Touches [.poison] b x from ?_) (fun h => ?_)
       all_goals first | (with_reducible have h0 : Touches [.poison] b x := h; clear h0; clear_value x) | subst x)
    | intro _
    | lift_lets
    | with_reducible refine Touches.ite ?_ ?_
    | ((with_reducible apply Touches.set_poison) <;> first | with_reducible assumption | with_reducible exact Touches.refl | exact rfl | with_reducible refine Touches.snd (by assumption) ?_)
    | split
    | with_reducible refine Touches.snd (by assumption) ?_
    | with_reducible refine Touches.fst (by assumption) ?_
    | (clear_value *; split)
    | dsimp only

theorem Block.poisonAt_touches (b) (x1) : Touches [.poison] b (Block.poisonAt b x1) := by
  unfold Block.poisonAt
  split
  · exact Block.addPoison_touches ..
  · exact Touches.refl

theorem Block.storeFlash_touches (b) (x1) (x2) : Touches [.flash] b (Block.storeFlash b x1 x2) := Touches.refl.setMem _ (fun p hp => by cases p <;> first | rfl | cases hp) (fun w => Memory.wf_of (m := b.mem) (fun h => h) (fun h => cellsWf_sets x2 x1 h) w)

end Sys2Proof.Machine
end

