-- ==== Sys2Proof/Laws/TouchRegOps.lean ====
section
/-! SUPPORT. What the operations of Machine/RegOps.lean touch. -/

namespace Sys2Proof.Machine

set_option linter.all false

theorem Block.commit_touches (b) (x1) : Touches [.com, .dirty] b (Block.commit b x1) := by
  unfold Block.commit
  exact Touches.refl.mk' _ ⟨rfl, fun p hp => by cases p <;> first | rfl | cases hp⟩

theorem Block.ripen_touches (b) (x1) : Touches [.com] b (Block.ripen b x1) := by
  unfold Block.ripen
  exact Touches.refl.mk' _ ⟨rfl, fun p hp => by cases p <;> first | rfl | cases hp⟩

theorem Block.dropCom_touches (b) (x1) : Touches [.com] b (Block.dropCom b x1) := by
  unfold Block.dropCom
  exact Touches.refl.mk' _ ⟨rfl, fun p hp => by cases p <;> first | rfl | cases hp⟩

theorem Block.promote_touches (b) (x1) : Touches [.com, .dirty] b (Block.promote b x1) := by
  unfold Block.promote
  exact Touches.refl.mk' _ ⟨rfl, fun p hp => by cases p <;> first | rfl | cases hp⟩

theorem Block.handedOver_touches (b) (x1) : Touches [.com, .dirty] b (Block.handedOver b x1) := by
  unfold Block.handedOver
  repeat' first
    | with_reducible assumption
    | with_reducible exact Touches.refl
    | exact rfl
    | (intro x
       refine Touches.mid (show Touches [.com, .dirty] b x from ?_) (fun h => ?_)
       all_goals first | (with_reducible have h0 : Touches [.com, .dirty] b x := h; clear h0; clear_value x) | subst x)
    | intro _
    | lift_lets
    | with_reducible refine Touches.ite ?_ ?_
    | with_reducible apply Touches.step (Block.promote_touches ..)
    | exact Touches.refl.mk' _ ⟨rfl, fun p hp => by cases p <;> first | rfl | cases hp⟩
    | exact Touches.mk' (by assumption) _ ⟨rfl, fun p hp => by cases p <;> first | rfl | cases hp⟩
    | split
    | with_reducible refine Touches.snd (by assumption) ?_
    | with_reducible refine Touches.fst (by assumption) ?_
    | (clear_value *; split)
    | dsimp only

theorem Block.adopt_touches (b) (x1) : Touches [.act] b (Block.adopt b x1) := by
  unfold Block.adopt
  exact Touches.refl.mk' _ ⟨rfl, fun p hp => by cases p <;> first | rfl | cases hp⟩

theorem Block.unshadow_touches (b) (x1) : Touches [.vis] b (Block.unshadow b x1) := by
  unfold Block.unshadow
  exact Touches.refl.mk' _ ⟨rfl, fun p hp => by cases p <;> first | rfl | cases hp⟩

theorem Parts.sub_vis {l : List Part} (s : Parts.sub [.vis, .act, .com, .dirty] l = true) : Parts.sub [.vis] l = true := by
  simp only [Parts.sub, List.all_cons, Bool.and_eq_true] at s ⊢
  exact ⟨s.1, rfl⟩

theorem Block.handover_step {l : List Part} {a b : Block} {p g ok} {reject : Block → Nat → Block} (h : Touches l a b)
    (s : Parts.sub [.vis, .act, .com, .dirty] l = true) (k : ∀ x e, Touches l a x → Touches l a (reject x e)) : Touches l a (b.handover p g ok reject) := by
  unfold Block.handover
  dsimp only
  refine Touches.fold (h.trans (l' := [.vis, .act, .com, .dirty])
    (((Touches.refl.trans (Block.dropCom_touches ..) rfl).trans (Block.adopt_touches ..) rfl).trans (Block.handedOver_touches ..) rfl) s)
    (fun x e h => ?_)
  split
  · exact h
  · split
    · exact k _ _ (h.trans (Block.unshadow_touches ..) (Parts.sub_vis s))
    · exact h

theorem Block.lockKey_touches (b) (x1) : Touches [.locked] b (Block.lockKey b x1) := by
  unfold Block.lockKey
  exact Touches.refl.mk' _ ⟨rfl, fun p hp => by cases p <;> first | rfl | cases hp⟩

theorem Block.setCom_touches (b) (x1) (x2) : Touches [.com] b (Block.setCom b x1 x2) := by
  unfold Block.setCom
  exact Touches.refl.mk' _ ⟨rfl, fun p hp => by cases p <;> first | rfl | cases hp⟩

theorem Block.markDirty_touches (b) (x1) : Touches [.com, .dirty] b (Block.markDirty b x1) := by
  unfold Block.markDirty
  have h : Touches [.com, .dirty] b
      { b with regs := { b.regs with dirty := setIns b.regs.dirty x1, wrote := noteKeys b.regs.wrote b.t7 [x1] } } :=
    Touches.refl.mk' _ ⟨rfl, fun p hp => by cases p <;> first | rfl | cases hp⟩
  exact Touches.ite (h.trans (Block.promote_touches ..) rfl) h

end Sys2Proof.Machine
end

