-- ==== Sys2Proof/Laws/TouchTimeOps.lean ====
section
/-! SUPPORT. What the operations of Machine/TimeOps.lean touch. -/

namespace Sys2Proof.Machine

set_option linter.all false

theorem Block.noteUnlocked_touches (b) : Touches [.out] b (Block.noteUnlocked b) := by
  unfold Block.noteUnlocked
  exact Touches.refl.mk' _ ⟨rfl, fun p hp => by cases p <;> first | rfl | cases hp⟩

theorem Parts.sub_self (l : List Part) : Parts.sub l l = true := by
  unfold Parts.sub
  exact List.all_eq_true.mpr (fun p hp => List.contains_iff_mem.mpr hp)

/-- A change of the time bases touches what the change touches, and OUT's note of it. -/
theorem Block.timed_touches {l : List Part} (b) (f : Block → Block) (h : ∀ x, Touches l x (f x)) (s : Parts.sub [.out] l = true) :
    Touches l b (Block.timed b f) :=
  Touches.trans (Touches.trans (Touches.weaken (Block.noteUnlocked_touches b) s) (h _) (Parts.sub_self l)) (Block.noteUnlocked_touches _) s

end Sys2Proof.Machine
end

