-- ==== Sys2Proof/Laws/TouchView.lean ====
section
/-! SUPPORT. What the operations of Machine/View.lean touch. -/

namespace Sys2Proof.Machine

set_option linter.all false

theorem Block.takeLatch_touches (b) (x1) (x2) (x3) (x4) (x5) : Touches [.latch] b (Block.takeLatch b x1 x2 x3 x4 x5) := by
  unfold Block.takeLatch
  repeat' first
    | with_reducible assumption
    | with_reducible exact Touches.refl
    | exact rfl
    | (intro x
       refine Touches.mid (show Touches [.latch] b x from ?_) (fun h => ?_)
       all_goals first | (with_reducible have h0 : Touches [.latch] b x := h; clear h0; clear_value x) | subst x)
    | intro _
    | lift_lets
    | with_reducible refine Touches.ite ?_ ?_
    | ((with_reducible apply Touches.set_latch) <;> first | with_reducible assumption | with_reducible exact Touches.refl | exact rfl | with_reducible refine Touches.snd (by assumption) ?_)
    | with_reducible refine Touches.fold ?_ (fun _ _ _ => ?_)
    | split
    | with_reducible refine Touches.snd (by assumption) ?_
    | with_reducible refine Touches.fst (by assumption) ?_
    | with_reducible refine Touches.fold1 ?_ (fun _ _ _ => ?_)
    | with_reducible refine Touches.fold2 ?_ (fun _ _ _ => ?_)
    | (clear_value *; split)
    | dsimp only

end Sys2Proof.Machine
end

