-- ==== Sys2Proof/Laws/TouchEvents.lean ====
section
/-! SUPPORT. What the operations of Machine/Events.lean touch. -/

namespace Sys2Proof.Machine

set_option linter.all false

theorem Block.lostInFreeze_touches (b) (x1) : Touches [.vis, .evr] b (Block.lostInFreeze b x1) := by
  unfold Block.lostInFreeze
  repeat' first
    | with_reducible assumption
    | with_reducible exact Touches.refl
    | exact rfl
    | (intro x
       refine Touches.mid (show Touches [.vis, .evr] b x from ?_) (fun h => ?_)
       all_goals first | (with_reducible have h0 : Touches [.vis, .evr] b x := h; clear h0; clear_value x) | subst x)
    | intro _
    | lift_lets
    | with_reducible refine Touches.ite ?_ ?_
    | with_reducible apply Touches.step (Block.count_touches ..)
    | ((with_reducible apply Touches.set_evr) <;> first | with_reducible assumption | with_reducible exact Touches.refl | exact rfl | with_reducible refine Touches.snd (by assumption) ?_)
    | split
    | with_reducible refine Touches.snd (by assumption) ?_
    | with_reducible refine Touches.fst (by assumption) ?_
    | (clear_value *; split)
    | dsimp only

theorem Block.holdEvent_touches (b) (x1) : Touches [.vis, .evr] b (Block.holdEvent b x1) := by
  unfold Block.holdEvent
  repeat' first
    | with_reducible assumption
    | with_reducible exact Touches.refl
    | exact rfl
    | (intro x
       refine Touches.mid (show Touches [.vis, .evr] b x from ?_) (fun h => ?_)
       all_goals first | (with_reducible have h0 : Touches [.vis, .evr] b x := h; clear h0; clear_value x) | subst x)
    | intro _
    | lift_lets
    | with_reducible refine Touches.ite ?_ ?_
    | with_reducible apply Touches.step (Block.lostInFreeze_touches ..)
    | with_reducible apply Touches.step (Block.count_touches ..)
    | with_reducible apply Touches.step (Block.irq_touches ..)
    | with_reducible apply Touches.step (Block.setBit_touches ..)
    | ((with_reducible apply Touches.set_evr) <;> first | with_reducible assumption | with_reducible exact Touches.refl | exact rfl | with_reducible refine Touches.snd (by assumption) ?_)
    | split
    | with_reducible refine Touches.snd (by assumption) ?_
    | with_reducible refine Touches.fst (by assumption) ?_
    | (clear_value *; split)
    | dsimp only

theorem Block.eventAt_touches (b) (x1) (x2) (x3) (x4) (x5) (x6) (x7) : Touches [.vis, .evr] b (Block.eventAt b x1 x2 x3 x4 x5 x6 x7) := by
  unfold Block.eventAt
  repeat' first
    | with_reducible assumption
    | with_reducible exact Touches.refl
    | exact rfl
    | (intro x
       refine Touches.mid (show Touches [.vis, .evr] b x from ?_) (fun h => ?_)
       all_goals first | (with_reducible have h0 : Touches [.vis, .evr] b x := h; clear h0; clear_value x) | subst x)
    | intro _
    | lift_lets
    | with_reducible refine Touches.ite ?_ ?_
    | with_reducible apply Touches.step (Block.count_touches ..)
    | with_reducible apply Touches.step (Block.holdEvent_touches ..)
    | ((with_reducible apply Touches.set_evr) <;> first | with_reducible assumption | with_reducible exact Touches.refl | exact rfl | with_reducible refine Touches.snd (by assumption) ?_)
    | split
    | with_reducible refine Touches.snd (by assumption) ?_
    | with_reducible refine Touches.fst (by assumption) ?_
    | (clear_value *; split)
    | dsimp only

theorem Block.event_touches (b) (x1) (x2) (x3) (x4) : Touches [.vis, .evr] b (Block.event b x1 x2 x3 x4) := by
  unfold Block.event
  repeat' first
    | with_reducible assumption
    | with_reducible exact Touches.refl
    | exact rfl
    | (intro x
       refine Touches.mid (show Touches [.vis, .evr] b x from ?_) (fun h => ?_)
       all_goals first | (with_reducible have h0 : Touches [.vis, .evr] b x := h; clear h0; clear_value x) | subst x)
    | intro _
    | lift_lets
    | with_reducible refine Touches.ite ?_ ?_
    | with_reducible apply Touches.step (Block.eventAt_touches ..)
    | split
    | with_reducible refine Touches.snd (by assumption) ?_
    | with_reducible refine Touches.fst (by assumption) ?_
    | (clear_value *; split)
    | dsimp only

theorem Block.eventRep_touches (b) (x1) (x2) (x3) (x4) : Touches [.vis, .rep, .evr] b (Block.eventRep b x1 x2 x3 x4) := by
  unfold Block.eventRep
  repeat' first
    | with_reducible assumption
    | with_reducible exact Touches.refl
    | exact rfl
    | (intro x
       refine Touches.mid (show Touches [.vis, .rep, .evr] b x from ?_) (fun h => ?_)
       all_goals first | (with_reducible have h0 : Touches [.vis, .rep, .evr] b x := h; clear h0; clear_value x) | subst x)
    | intro _
    | lift_lets
    | with_reducible refine Touches.ite ?_ ?_
    | with_reducible apply Touches.step (Block.event_touches ..)
    | ((with_reducible apply Touches.set_rep) <;> first | with_reducible assumption | with_reducible exact Touches.refl | exact rfl | with_reducible refine Touches.snd (by assumption) ?_)
    | split
    | with_reducible refine Touches.snd (by assumption) ?_
    | with_reducible refine Touches.fst (by assumption) ?_
    | (clear_value *; split)
    | dsimp only

end Sys2Proof.Machine
end

