-- ==== Sys2Proof/Laws/TouchQueOps.lean ====
section
/-! SUPPORT. What the operations of Machine/QueOps.lean touch. -/

namespace Sys2Proof.Machine

set_option linter.all false

theorem Block.setQueue_touches (b) (x1) (x2) : Touches [.que] b (Block.setQueue b x1 x2) := by
  unfold Block.setQueue
  repeat' first
    | with_reducible assumption
    | with_reducible exact Touches.refl
    | exact rfl
    | (intro x
       refine Touches.mid (show Touches [.que] b x from ?_) (fun h => ?_)
       all_goals first | (with_reducible have h0 : Touches [.que] b x := h; clear h0; clear_value x) | subst x)
    | intro _
    | lift_lets
    | with_reducible refine Touches.ite ?_ ?_
    | ((with_reducible apply Touches.set_que) <;> first | with_reducible assumption | with_reducible exact Touches.refl | exact rfl | with_reducible refine Touches.snd (by assumption) ?_)
    | split
    | with_reducible refine Touches.snd (by assumption) ?_
    | with_reducible refine Touches.fst (by assumption) ?_
    | (clear_value *; split)
    | dsimp only

theorem Block.answer_touches (b) (x1) (x2) : Touches [.resp] b (Block.answer b x1 x2) := by
  unfold Block.answer
  repeat' first
    | with_reducible assumption
    | with_reducible exact Touches.refl
    | exact rfl
    | (intro x
       refine Touches.mid (show Touches [.resp] b x from ?_) (fun h => ?_)
       all_goals first | (with_reducible have h0 : Touches [.resp] b x := h; clear h0; clear_value x) | subst x)
    | intro _
    | lift_lets
    | with_reducible refine Touches.ite ?_ ?_
    | ((with_reducible apply Touches.set_resp) <;> first | with_reducible assumption | with_reducible exact Touches.refl | exact rfl | with_reducible refine Touches.snd (by assumption) ?_)
    | split
    | with_reducible refine Touches.snd (by assumption) ?_
    | with_reducible refine Touches.fst (by assumption) ?_
    | (clear_value *; split)
    | dsimp only

theorem Block.slotClean_touches (b) (x1) (x2) (x3) : Touches [.poison] b (Block.slotClean b x1 x2 x3) := by
  unfold Block.slotClean
  repeat' first
    | with_reducible assumption
    | with_reducible exact Touches.refl
    | exact rfl
    | (intro x
       refine Touches.mid (show Touches [.poison] b x from ?_) (fun h => ?_)
       all_goals first | (with_reducible have h0 : Touches [.poison] b x := h; clear h0; clear_value x) | subst x)
    | intro _
    | lift_lets
    | with_reducible refine Touches.ite ?_ ?_
    | with_reducible apply Touches.step (Block.sramWrite_touches ..)
    | split
    | with_reducible refine Touches.snd (by assumption) ?_
    | with_reducible refine Touches.fst (by assumption) ?_
    | (clear_value *; split)
    | dsimp only

theorem Block.overrun_touches (b) (x1) : Touches [.vis, .rep, .evr] b (Block.overrun b x1) := by
  unfold Block.overrun
  repeat' first
    | with_reducible assumption
    | with_reducible exact Touches.refl
    | exact rfl
    | (intro x
       refine Touches.mid (show Touches [.vis, .rep, .evr] b x from ?_) (fun h => ?_)
       all_goals first | (with_reducible have h0 : Touches [.vis, .rep, .evr] b x := h; clear h0; clear_value x) | subst x)
    | intro _
    | lift_lets
    | with_reducible refine Touches.ite ?_ ?_
    | with_reducible apply Touches.step (Block.count_touches ..)
    | with_reducible apply Touches.step (Block.eventRep_touches ..)
    | with_reducible apply Touches.step (Block.setBit_touches ..)
    | with_reducible apply Touches.step (Block.irq_touches ..)
    | ((with_reducible apply Touches.set_rep) <;> first | with_reducible assumption | with_reducible exact Touches.refl | exact rfl | with_reducible refine Touches.snd (by assumption) ?_)
    | split
    | with_reducible refine Touches.snd (by assumption) ?_
    | with_reducible refine Touches.fst (by assumption) ?_
    | (clear_value *; split)
    | dsimp only

theorem Block.popStatus_touches (b) (x1) (x2) (x3) (x4) (x5) : Touches [.vis] b (Block.popStatus b x1 x2 x3 x4 x5) := by
  unfold Block.popStatus
  repeat' first
    | with_reducible assumption
    | with_reducible exact Touches.refl
    | exact rfl
    | (intro x
       refine Touches.mid (show Touches [.vis] b x from ?_) (fun h => ?_)
       all_goals first | (with_reducible have h0 : Touches [.vis] b x := h; clear h0; clear_value x) | subst x)
    | intro _
    | lift_lets
    | with_reducible refine Touches.ite ?_ ?_
    | with_reducible apply Touches.step (Block.setVis_touches ..)
    | split
    | with_reducible refine Touches.snd (by assumption) ?_
    | with_reducible refine Touches.fst (by assumption) ?_
    | (clear_value *; split)
    | dsimp only

theorem Block.answerEmpty_touches (b) (x1) : Touches [.vis, .resp] b (Block.answerEmpty b x1) := by
  unfold Block.answerEmpty
  repeat' first
    | with_reducible assumption
    | with_reducible exact Touches.refl
    | exact rfl
    | (intro x
       refine Touches.mid (show Touches [.vis, .resp] b x from ?_) (fun h => ?_)
       all_goals first | (with_reducible have h0 : Touches [.vis, .resp] b x := h; clear h0; clear_value x) | subst x)
    | intro _
    | lift_lets
    | with_reducible refine Touches.ite ?_ ?_
    | with_reducible apply Touches.step (Block.answer_touches ..)
    | with_reducible apply Touches.step (Block.popStatus_touches ..)
    | split
    | with_reducible refine Touches.snd (by assumption) ?_
    | with_reducible refine Touches.fst (by assumption) ?_
    | (clear_value *; split)
    | dsimp only

theorem Block.take_touches (b) (x1) (x2) : Touches [.vis, .resp, .poison, .que] b (Block.take b x1 x2) := by
  unfold Block.take
  repeat' first
    | with_reducible assumption
    | with_reducible exact Touches.refl
    | exact rfl
    | (intro x
       refine Touches.mid (show Touches [.vis, .resp, .poison, .que] b x from ?_) (fun h => ?_)
       all_goals first | (with_reducible have h0 : Touches [.vis, .resp, .poison, .que] b x := h; clear h0; clear_value x) | subst x)
    | intro _
    | lift_lets
    | with_reducible refine Touches.ite ?_ ?_
    | with_reducible apply Touches.step (Block.answerEmpty_touches ..)
    | with_reducible apply Touches.step (Block.setQueue_touches ..)
    | with_reducible apply Touches.step (Block.slotClean_touches ..)
    | with_reducible apply Touches.step (Block.answer_touches ..)
    | with_reducible apply Touches.step (Block.popStatus_touches ..)
    | split
    | with_reducible refine Touches.snd (by assumption) ?_
    | with_reducible refine Touches.fst (by assumption) ?_
    | (clear_value *; split)
    | dsimp only

theorem Block.endStalls_touches (b) (x1) : Touches [.vis, .resp, .que] b (Block.endStalls b x1) := by
  unfold Block.endStalls
  repeat' first
    | with_reducible assumption
    | with_reducible exact Touches.refl
    | exact rfl
    | (intro x
       refine Touches.mid (show Touches [.vis, .resp, .que] b x from ?_) (fun h => ?_)
       all_goals first | (with_reducible have h0 : Touches [.vis, .resp, .que] b x := h; clear h0; clear_value x) | subst x)
    | intro _
    | lift_lets
    | with_reducible refine Touches.ite ?_ ?_
    | with_reducible apply Touches.step (Block.answerEmpty_touches ..)
    | with_reducible apply Touches.step (Block.setQueue_touches ..)
    | with_reducible refine Touches.fold ?_ (fun _ _ _ => ?_)
    | split
    | with_reducible refine Touches.snd (by assumption) ?_
    | with_reducible refine Touches.fst (by assumption) ?_
    | with_reducible refine Touches.fold1 ?_ (fun _ _ _ => ?_)
    | with_reducible refine Touches.fold2 ?_ (fun _ _ _ => ?_)
    | (clear_value *; split)
    | dsimp only

theorem Block.heldGone_touches (b) (x1) : Touches [.evr] b (Block.heldGone b x1) := by
  unfold Block.heldGone
  repeat' first
    | with_reducible assumption
    | with_reducible exact Touches.refl
    | exact rfl
    | (intro x
       refine Touches.mid (show Touches [.evr] b x from ?_) (fun h => ?_)
       all_goals first | (with_reducible have h0 : Touches [.evr] b x := h; clear h0; clear_value x) | subst x)
    | intro _
    | lift_lets
    | with_reducible refine Touches.ite ?_ ?_
    | ((with_reducible apply Touches.set_evr) <;> first | with_reducible assumption | with_reducible exact Touches.refl | exact rfl | with_reducible refine Touches.snd (by assumption) ?_)
    | split
    | with_reducible refine Touches.snd (by assumption) ?_
    | with_reducible refine Touches.fst (by assumption) ?_
    | (clear_value *; split)
    | dsimp only

theorem Block.flushNow_touches (b) (x1) : Touches [.vis, .poison, .evr, .que] b (Block.flushNow b x1) := by
  unfold Block.flushNow
  repeat' first
    | with_reducible assumption
    | with_reducible exact Touches.refl
    | exact rfl
    | (intro x
       refine Touches.mid (show Touches [.vis, .poison, .evr, .que] b x from ?_) (fun h => ?_)
       all_goals first | (with_reducible have h0 : Touches [.vis, .poison, .evr, .que] b x := h; clear h0; clear_value x) | subst x)
    | intro _
    | lift_lets
    | with_reducible refine Touches.ite ?_ ?_
    | with_reducible apply Touches.step (Block.heldGone_touches ..)
    | with_reducible apply Touches.step (Block.setQueue_touches ..)
    | with_reducible apply Touches.step (Block.event_touches ..)
    | with_reducible apply Touches.step (Block.slotClean_touches ..)
    | split
    | with_reducible refine Touches.snd (by assumption) ?_
    | with_reducible refine Touches.fst (by assumption) ?_
    | (clear_value *; split)
    | dsimp only

theorem Block.stored_touches (b) (x1) (x2) (x3) : Touches [.vis, .resp, .poison, .que] b (Block.stored b x1 x2 x3) := by
  unfold Block.stored
  repeat' first
    | with_reducible assumption
    | with_reducible exact Touches.refl
    | exact rfl
    | (intro x
       refine Touches.mid (show Touches [.vis, .resp, .poison, .que] b x from ?_) (fun h => ?_)
       all_goals first | (with_reducible have h0 : Touches [.vis, .resp, .poison, .que] b x := h; clear h0; clear_value x) | subst x)
    | intro _
    | lift_lets
    | with_reducible refine Touches.ite ?_ ?_
    | with_reducible apply Touches.step (Block.slotClean_touches ..)
    | with_reducible apply Touches.step (Block.count_touches ..)
    | with_reducible apply Touches.step (Block.setQueue_touches ..)
    | with_reducible apply Touches.step (Block.take_touches ..)
    | split
    | with_reducible refine Touches.snd (by assumption) ?_
    | with_reducible refine Touches.fst (by assumption) ?_
    | (clear_value *; split)
    | dsimp only

theorem Block.push_touches (b) (x1) (x2) (x3) : Touches [.vis, .resp, .rep, .poison, .evr, .que] b (Block.push b x1 x2 x3) := by
  unfold Block.push
  repeat' first
    | with_reducible assumption
    | with_reducible exact Touches.refl
    | exact rfl
    | (intro x
       refine Touches.mid (show Touches [.vis, .resp, .rep, .poison, .evr, .que] b x from ?_) (fun h => ?_)
       all_goals first | (with_reducible have h0 : Touches [.vis, .resp, .rep, .poison, .evr, .que] b x := h; clear h0; clear_value x) | subst x)
    | intro _
    | lift_lets
    | with_reducible refine Touches.ite ?_ ?_
    | with_reducible apply Touches.step (Block.count_touches ..)
    | with_reducible apply Touches.step (Block.overrun_touches ..)
    | with_reducible apply Touches.step (Block.setQueue_touches ..)
    | with_reducible apply Touches.step (Block.stored_touches ..)
    | with_reducible apply Touches.step (Block.flushNow_touches ..)
    | split
    | with_reducible refine Touches.snd (by assumption) ?_
    | with_reducible refine Touches.fst (by assumption) ?_
    | (clear_value *; split)
    | dsimp only

theorem Block.pop_touches (b) (x1) (x2) : Touches [.vis, .resp, .poison, .que] b (Block.pop b x1 x2) := by
  unfold Block.pop
  repeat' first
    | with_reducible assumption
    | with_reducible exact Touches.refl
    | exact rfl
    | (intro x
       refine Touches.mid (show Touches [.vis, .resp, .poison, .que] b x from ?_) (fun h => ?_)
       all_goals first | (with_reducible have h0 : Touches [.vis, .resp, .poison, .que] b x := h; clear h0; clear_value x) | subst x)
    | intro _
    | lift_lets
    | with_reducible refine Touches.ite ?_ ?_
    | with_reducible apply Touches.step (Block.answerEmpty_touches ..)
    | with_reducible apply Touches.step (Block.answer_touches ..)
    | with_reducible apply Touches.step (Block.setQueue_touches ..)
    | with_reducible apply Touches.step (Block.take_touches ..)
    | split
    | with_reducible refine Touches.snd (by assumption) ?_
    | with_reducible refine Touches.fst (by assumption) ?_
    | (clear_value *; split)
    | dsimp only

theorem Block.trypop_touches (b) (x1) (x2) : Touches [.vis, .resp, .poison, .que] b (Block.trypop b x1 x2) := by
  unfold Block.trypop
  repeat' first
    | with_reducible assumption
    | with_reducible exact Touches.refl
    | exact rfl
    | (intro x
       refine Touches.mid (show Touches [.vis, .resp, .poison, .que] b x from ?_) (fun h => ?_)
       all_goals first | (with_reducible have h0 : Touches [.vis, .resp, .poison, .que] b x := h; clear h0; clear_value x) | subst x)
    | intro _
    | lift_lets
    | with_reducible refine Touches.ite ?_ ?_
    | with_reducible apply Touches.step (Block.answerEmpty_touches ..)
    | with_reducible apply Touches.step (Block.take_touches ..)
    | split
    | with_reducible refine Touches.snd (by assumption) ?_
    | with_reducible refine Touches.fst (by assumption) ?_
    | (clear_value *; split)
    | dsimp only

theorem Block.flush_touches (b) (x1) : Touches [.vis, .resp, .poison, .evr, .que] b (Block.flush b x1) := by
  unfold Block.flush
  repeat' first
    | with_reducible assumption
    | with_reducible exact Touches.refl
    | exact rfl
    | (intro x
       refine Touches.mid (show Touches [.vis, .resp, .poison, .evr, .que] b x from ?_) (fun h => ?_)
       all_goals first | (with_reducible have h0 : Touches [.vis, .resp, .poison, .evr, .que] b x := h; clear h0; clear_value x) | subst x)
    | intro _
    | lift_lets
    | with_reducible refine Touches.ite ?_ ?_
    | with_reducible apply Touches.step (Block.endStalls_touches ..)
    | with_reducible apply Touches.step (Block.setQueue_touches ..)
    | with_reducible apply Touches.step (Block.flushNow_touches ..)
    | split
    | with_reducible refine Touches.snd (by assumption) ?_
    | with_reducible refine Touches.fst (by assumption) ?_
    | (clear_value *; split)
    | dsimp only

theorem Block.pushesVoid_touches (b) (x1) : Touches [.vis] b (Block.pushesVoid b x1) := by
  unfold Block.pushesVoid
  repeat' first
    | with_reducible assumption
    | with_reducible exact Touches.refl
    | exact rfl
    | (intro x
       refine Touches.mid (show Touches [.vis] b x from ?_) (fun h => ?_)
       all_goals first | (with_reducible have h0 : Touches [.vis] b x := h; clear h0; clear_value x) | subst x)
    | intro _
    | lift_lets
    | with_reducible refine Touches.ite ?_ ?_
    | with_reducible apply Touches.step (Block.count_touches ..)
    | with_reducible apply Touches.step (Block.uncount_touches ..)
    | split
    | with_reducible refine Touches.snd (by assumption) ?_
    | with_reducible refine Touches.fst (by assumption) ?_
    | (clear_value *; split)
    | dsimp only

theorem Block.queueDisable_touches (b) (x1) : Touches [.vis, .resp, .evr, .que] b (Block.queueDisable b x1) := by
  unfold Block.queueDisable
  repeat' first
    | with_reducible assumption
    | with_reducible exact Touches.refl
    | exact rfl
    | (intro x
       refine Touches.mid (show Touches [.vis, .resp, .evr, .que] b x from ?_) (fun h => ?_)
       all_goals first | (with_reducible have h0 : Touches [.vis, .resp, .evr, .que] b x := h; clear h0; clear_value x) | subst x)
    | intro _
    | lift_lets
    | with_reducible refine Touches.ite ?_ ?_
    | with_reducible apply Touches.step (Block.heldGone_touches ..)
    | with_reducible apply Touches.step (Block.pushesVoid_touches ..)
    | with_reducible apply Touches.step (Block.endStalls_touches ..)
    | with_reducible apply Touches.step (Block.setVis_touches ..)
    | with_reducible apply Touches.step (Block.setQueue_touches ..)
    | split
    | with_reducible refine Touches.snd (by assumption) ?_
    | with_reducible refine Touches.fst (by assumption) ?_
    | (clear_value *; split)
    | dsimp only

theorem Block.queueEnable_touches (b) (x1) : Touches [.vis, .evr, .que] b (Block.queueEnable b x1) := by
  unfold Block.queueEnable
  repeat' first
    | with_reducible assumption
    | with_reducible exact Touches.refl
    | exact rfl
    | (intro x
       refine Touches.mid (show Touches [.vis, .evr, .que] b x from ?_) (fun h => ?_)
       all_goals first | (with_reducible have h0 : Touches [.vis, .evr, .que] b x := h; clear h0; clear_value x) | subst x)
    | intro _
    | lift_lets
    | with_reducible refine Touches.ite ?_ ?_
    | with_reducible apply Touches.step (Block.setVis_touches ..)
    | with_reducible apply Touches.step (Block.setQueue_touches ..)
    | with_reducible apply Touches.step (Block.event_touches ..)
    | with_reducible apply Touches.step (Block.irq_touches ..)
    | split
    | with_reducible refine Touches.snd (by assumption) ?_
    | with_reducible refine Touches.fst (by assumption) ?_
    | (clear_value *; split)
    | dsimp only

theorem Block.queueCfg_touches (b) (x1) (x2) : Touches [.vis, .resp, .evr, .que] b (Block.queueCfg b x1 x2) := by
  unfold Block.queueCfg
  repeat' first
    | with_reducible assumption
    | with_reducible exact Touches.refl
    | exact rfl
    | (intro x
       refine Touches.mid (show Touches [.vis, .resp, .evr, .que] b x from ?_) (fun h => ?_)
       all_goals first | (with_reducible have h0 : Touches [.vis, .resp, .evr, .que] b x := h; clear h0; clear_value x) | subst x)
    | intro _
    | lift_lets
    | with_reducible refine Touches.ite ?_ ?_
    | with_reducible apply Touches.step (Block.queueDisable_touches ..)
    | with_reducible apply Touches.step (Block.setVis_touches ..)
    | with_reducible apply Touches.step (Block.queueEnable_touches ..)
    | split
    | with_reducible refine Touches.snd (by assumption) ?_
    | with_reducible refine Touches.fst (by assumption) ?_
    | (clear_value *; split)
    | dsimp only

theorem Block.readTimeout_touches (b) (x1) (x2) : Touches [.vis, .evr, .que] b (Block.readTimeout b x1 x2) := by
  unfold Block.readTimeout
  repeat' first
    | with_reducible assumption
    | with_reducible exact Touches.refl
    | exact rfl
    | (intro x
       refine Touches.mid (show Touches [.vis, .evr, .que] b x from ?_) (fun h => ?_)
       all_goals first | (with_reducible have h0 : Touches [.vis, .evr, .que] b x := h; clear h0; clear_value x) | subst x)
    | intro _
    | lift_lets
    | with_reducible refine Touches.ite ?_ ?_
    | with_reducible apply Touches.step (Block.setQueue_touches ..)
    | with_reducible apply Touches.step (Block.event_touches ..)
    | with_reducible apply Touches.step (Block.irq_touches ..)
    | with_reducible apply Touches.step (Block.count_touches ..)
    | split
    | with_reducible refine Touches.snd (by assumption) ?_
    | with_reducible refine Touches.fst (by assumption) ?_
    | (clear_value *; split)
    | dsimp only

end Sys2Proof.Machine
end

