-- ==== Sys2Proof/Laws/TouchEvrOps.lean ====
section
/-! SUPPORT. What the operations of Machine/EvrOps.lean touch. -/

namespace Sys2Proof.Machine

set_option linter.all false

theorem Block.evrScan_touches (b) : Touches [.vis, .evr] b (Block.evrScan b) := by
  unfold Block.evrScan
  repeat' first
    | with_reducible assumption
    | with_reducible exact Touches.refl
    | exact rfl
    | (intro x
       refine Touches.mid (show Touches [.vis, .evr] b x from ?_) (fun h => ?_)
       all_goals first | (with_reducible have h0 : Touches [.vis, .evr] b x := h; clear h0; clear_value x) | subst x)
    | intro _
    | lift_lets
    | with_reducible refine Touches.ite ?_ ?_
    | with_reducible apply Touches.step (Block.count_touches ..)
    | ((with_reducible apply Touches.set_evr) <;> first | with_reducible assumption | with_reducible exact Touches.refl | exact rfl | with_reducible refine Touches.snd (by assumption) ?_)
    | with_reducible refine Touches.fold ?_ (fun _ _ _ => ?_)
    | split
    | with_reducible refine Touches.snd (by assumption) ?_
    | with_reducible refine Touches.fst (by assumption) ?_
    | with_reducible refine Touches.fold1 ?_ (fun _ _ _ => ?_)
    | with_reducible refine Touches.fold2 ?_ (fun _ _ _ => ?_)
    | (clear_value *; split)
    | dsimp only

theorem Block.writeEntry_touches (b) (x1) : Touches [.cells, .poison, .evr] b (Block.writeEntry b x1) := by
  unfold Block.writeEntry
  repeat' first
    | with_reducible assumption
    | with_reducible exact Touches.refl
    | exact rfl
    | (intro x
       refine Touches.mid (show Touches [.cells, .poison, .evr] b x from ?_) (fun h => ?_)
       all_goals first | (with_reducible have h0 : Touches [.cells, .poison, .evr] b x := h; clear h0; clear_value x) | subst x)
    | intro _
    | lift_lets
    | with_reducible refine Touches.ite ?_ ?_
    | with_reducible apply Touches.step (Block.store_touches ..)
    | ((with_reducible apply Touches.set_evr) <;> first | with_reducible assumption | with_reducible exact Touches.refl | exact rfl | with_reducible refine Touches.snd (by assumption) ?_)
    | split
    | with_reducible refine Touches.snd (by assumption) ?_
    | with_reducible refine Touches.fst (by assumption) ?_
    | (clear_value *; split)
    | dsimp only

theorem Block.clearAreas_touches (b) (x1) : Touches [.vis, .cells, .poison, .evr] b (Block.clearAreas b x1) := by
  unfold Block.clearAreas
  repeat' first
    | with_reducible assumption
    | with_reducible exact Touches.refl
    | exact rfl
    | (intro x
       refine Touches.mid (show Touches [.vis, .cells, .poison, .evr] b x from ?_) (fun h => ?_)
       all_goals first | (with_reducible have h0 : Touches [.vis, .cells, .poison, .evr] b x := h; clear h0; clear_value x) | subst x)
    | intro _
    | lift_lets
    | with_reducible refine Touches.ite ?_ ?_
    | with_reducible apply Touches.step (Block.store_touches ..)
    | with_reducible apply Touches.step (Block.irq_touches ..)
    | ((with_reducible apply Touches.set_evr) <;> first | with_reducible assumption | with_reducible exact Touches.refl | exact rfl | with_reducible refine Touches.snd (by assumption) ?_)
    | split
    | with_reducible refine Touches.snd (by assumption) ?_
    | with_reducible refine Touches.fst (by assumption) ?_
    | (clear_value *; split)
    | dsimp only

theorem Block.raiseCleared_touches (b) (x1) : Touches [.vis, .evr] b (Block.raiseCleared b x1) := by
  unfold Block.raiseCleared
  repeat' first
    | with_reducible assumption
    | with_reducible exact Touches.refl
    | exact rfl
    | (intro x
       refine Touches.mid (show Touches [.vis, .evr] b x from ?_) (fun h => ?_)
       all_goals first | (with_reducible have h0 : Touches [.vis, .evr] b x := h; clear h0; clear_value x) | subst x)
    | intro _
    | lift_lets
    | with_reducible refine Touches.ite ?_ ?_
    | with_reducible apply Touches.step (Block.event_touches ..)
    | ((with_reducible apply Touches.set_evr) <;> first | with_reducible assumption | with_reducible exact Touches.refl | exact rfl | with_reducible refine Touches.snd (by assumption) ?_)
    | split
    | with_reducible refine Touches.snd (by assumption) ?_
    | with_reducible refine Touches.fst (by assumption) ?_
    | (clear_value *; split)
    | dsimp only

theorem Block.reportInputLoss_touches (b) : Touches [.vis, .evr] b (Block.reportInputLoss b) := by
  unfold Block.reportInputLoss
  repeat' first
    | with_reducible assumption
    | with_reducible exact Touches.refl
    | exact rfl
    | (intro x
       refine Touches.mid (show Touches [.vis, .evr] b x from ?_) (fun h => ?_)
       all_goals first | (with_reducible have h0 : Touches [.vis, .evr] b x := h; clear h0; clear_value x) | subst x)
    | intro _
    | lift_lets
    | with_reducible refine Touches.ite ?_ ?_
    | with_reducible apply Touches.step (Block.event_touches ..)
    | with_reducible apply Touches.step (Block.irq_touches ..)
    | ((with_reducible apply Touches.set_evr) <;> first | with_reducible assumption | with_reducible exact Touches.refl | exact rfl | with_reducible refine Touches.snd (by assumption) ?_)
    | split
    | with_reducible refine Touches.snd (by assumption) ?_
    | with_reducible refine Touches.fst (by assumption) ?_
    | (clear_value *; split)
    | dsimp only

theorem Block.setNrgPt_touches (b) (x1) (x2) : Touches [.nrg] b (Block.setNrgPt b x1 x2) := by
  unfold Block.setNrgPt
  repeat' first
    | with_reducible assumption
    | with_reducible exact Touches.refl
    | exact rfl
    | (intro x
       refine Touches.mid (show Touches [.nrg] b x from ?_) (fun h => ?_)
       all_goals first | (with_reducible have h0 : Touches [.nrg] b x := h; clear h0; clear_value x) | subst x)
    | intro _
    | lift_lets
    | with_reducible refine Touches.ite ?_ ?_
    | ((with_reducible apply Touches.set_nrg) <;> first | with_reducible assumption | with_reducible exact Touches.refl | exact rfl | with_reducible refine Touches.snd (by assumption) ?_)
    | split
    | with_reducible refine Touches.snd (by assumption) ?_
    | with_reducible refine Touches.fst (by assumption) ?_
    | (clear_value *; split)
    | dsimp only

theorem Block.nrgZero_touches (b) (x1) : Touches [.vis, .nrg] b (Block.nrgZero b x1) := by
  unfold Block.nrgZero
  repeat' first
    | with_reducible assumption
    | with_reducible exact Touches.refl
    | exact rfl
    | (intro x
       refine Touches.mid (show Touches [.vis, .nrg] b x from ?_) (fun h => ?_)
       all_goals first | (with_reducible have h0 : Touches [.vis, .nrg] b x := h; clear h0; clear_value x) | subst x)
    | intro _
    | lift_lets
    | with_reducible refine Touches.ite ?_ ?_
    | with_reducible apply Touches.step (Block.setNrgPt_touches ..)
    | with_reducible apply Touches.step (Block.irq_touches ..)
    | ((with_reducible apply Touches.set_nrg) <;> first | with_reducible assumption | with_reducible exact Touches.refl | exact rfl | with_reducible refine Touches.snd (by assumption) ?_)
    | split
    | with_reducible refine Touches.snd (by assumption) ?_
    | with_reducible refine Touches.fst (by assumption) ?_
    | (clear_value *; split)
    | dsimp only

theorem Block.nrgEntry_touches (b) (x1) : Touches [.vis, .nrg] b (Block.nrgEntry b x1) := by
  unfold Block.nrgEntry
  repeat' first
    | with_reducible assumption
    | with_reducible exact Touches.refl
    | exact rfl
    | (intro x
       refine Touches.mid (show Touches [.vis, .nrg] b x from ?_) (fun h => ?_)
       all_goals first | (with_reducible have h0 : Touches [.vis, .nrg] b x := h; clear h0; clear_value x) | subst x)
    | intro _
    | lift_lets
    | with_reducible refine Touches.ite ?_ ?_
    | with_reducible apply Touches.step (Block.nrgZero_touches ..)
    | split
    | with_reducible refine Touches.snd (by assumption) ?_
    | with_reducible refine Touches.fst (by assumption) ?_
    | (clear_value *; split)
    | dsimp only

theorem Block.entryWrite_touches (b) : Touches [.vis, .cells, .poison, .evr, .nrg] b (Block.entryWrite b) := by
  unfold Block.entryWrite
  repeat' first
    | with_reducible assumption
    | with_reducible exact Touches.refl
    | exact rfl
    | (intro x
       refine Touches.mid (show Touches [.vis, .cells, .poison, .evr, .nrg] b x from ?_) (fun h => ?_)
       all_goals first | (with_reducible have h0 : Touches [.vis, .cells, .poison, .evr, .nrg] b x := h; clear h0; clear_value x) | subst x)
    | intro _
    | lift_lets
    | with_reducible refine Touches.ite ?_ ?_
    | with_reducible apply Touches.step (Block.nrgEntry_touches ..)
    | with_reducible apply Touches.step (Block.writeEntry_touches ..)
    | with_reducible apply Touches.step (Block.clearAreas_touches ..)
    | with_reducible apply Touches.step (Block.reportInputLoss_touches ..)
    | with_reducible apply Touches.step (Block.raiseCleared_touches ..)
    | ((with_reducible apply Touches.set_evr) <;> first | with_reducible assumption | with_reducible exact Touches.refl | exact rfl | with_reducible refine Touches.snd (by assumption) ?_)
    | split
    | with_reducible refine Touches.snd (by assumption) ?_
    | with_reducible refine Touches.fst (by assumption) ?_
    | (clear_value *; split)
    | dsimp only

theorem Block.lockClear_touches (b) : Touches [.evr] b (Block.lockClear b) := by
  unfold Block.lockClear
  repeat' first
    | with_reducible assumption
    | with_reducible exact Touches.refl
    | exact rfl
    | (intro x
       refine Touches.mid (show Touches [.evr] b x from ?_) (fun h => ?_)
       all_goals first | (with_reducible have h0 : Touches [.evr] b x := h; clear h0; clear_value x) | subst x)
    | intro _
    | lift_lets
    | with_reducible refine Touches.ite ?_ ?_
    | ((with_reducible apply Touches.set_evr) <;> first | with_reducible assumption | with_reducible exact Touches.refl | exact rfl | with_reducible refine Touches.snd (by assumption) ?_)
    | split
    | with_reducible refine Touches.snd (by assumption) ?_
    | with_reducible refine Touches.fst (by assumption) ?_
    | (clear_value *; split)
    | dsimp only

theorem Block.evrFreeze_touches (b) : Touches [.evr] b (Block.evrFreeze b) := by
  unfold Block.evrFreeze
  repeat' first
    | with_reducible assumption
    | with_reducible exact Touches.refl
    | exact rfl
    | (intro x
       refine Touches.mid (show Touches [.evr] b x from ?_) (fun h => ?_)
       all_goals first | (with_reducible have h0 : Touches [.evr] b x := h; clear h0; clear_value x) | subst x)
    | intro _
    | lift_lets
    | with_reducible refine Touches.ite ?_ ?_
    | with_reducible apply Touches.step (Block.lockClear_touches ..)
    | ((with_reducible apply Touches.set_evr) <;> first | with_reducible assumption | with_reducible exact Touches.refl | exact rfl | with_reducible refine Touches.snd (by assumption) ?_)
    | split
    | with_reducible refine Touches.snd (by assumption) ?_
    | with_reducible refine Touches.fst (by assumption) ?_
    | (clear_value *; split)
    | dsimp only

theorem Block.freezeEnds_touches (b) : Touches [.vis, .evr] b (Block.freezeEnds b) := by
  unfold Block.freezeEnds
  repeat' first
    | with_reducible assumption
    | with_reducible exact Touches.refl
    | exact rfl
    | (intro x
       refine Touches.mid (show Touches [.vis, .evr] b x from ?_) (fun h => ?_)
       all_goals first | (with_reducible have h0 : Touches [.vis, .evr] b x := h; clear h0; clear_value x) | subst x)
    | intro _
    | lift_lets
    | with_reducible refine Touches.ite ?_ ?_
    | with_reducible apply Touches.step (Block.event_touches ..)
    | with_reducible apply Touches.step (Block.irq_touches ..)
    | ((with_reducible apply Touches.set_evr) <;> first | with_reducible assumption | with_reducible exact Touches.refl | exact rfl | with_reducible refine Touches.snd (by assumption) ?_)
    | split
    | with_reducible refine Touches.snd (by assumption) ?_
    | with_reducible refine Touches.fst (by assumption) ?_
    | (clear_value *; split)
    | dsimp only

theorem Block.evrThaw_touches (b) : Touches [.vis, .evr] b (Block.evrThaw b) := by
  unfold Block.evrThaw
  repeat' first
    | with_reducible assumption
    | with_reducible exact Touches.refl
    | exact rfl
    | (intro x
       refine Touches.mid (show Touches [.vis, .evr] b x from ?_) (fun h => ?_)
       all_goals first | (with_reducible have h0 : Touches [.vis, .evr] b x := h; clear h0; clear_value x) | subst x)
    | intro _
    | lift_lets
    | with_reducible refine Touches.ite ?_ ?_
    | with_reducible apply Touches.step (Block.freezeEnds_touches ..)
    | with_reducible apply Touches.step (Block.lockClear_touches ..)
    | split
    | with_reducible refine Touches.snd (by assumption) ?_
    | with_reducible refine Touches.fst (by assumption) ?_
    | (clear_value *; split)
    | dsimp only

theorem Block.freezeTimeout_touches (b) : Touches [.vis, .evr] b (Block.freezeTimeout b) := by
  unfold Block.freezeTimeout
  repeat' first
    | with_reducible assumption
    | with_reducible exact Touches.refl
    | exact rfl
    | (intro x
       refine Touches.mid (show Touches [.vis, .evr] b x from ?_) (fun h => ?_)
       all_goals first | (with_reducible have h0 : Touches [.vis, .evr] b x := h; clear h0; clear_value x) | subst x)
    | intro _
    | lift_lets
    | with_reducible refine Touches.ite ?_ ?_
    | with_reducible apply Touches.step (Block.setBit_touches ..)
    | with_reducible apply Touches.step (Block.event_touches ..)
    | with_reducible apply Touches.step (Block.freezeEnds_touches ..)
    | split
    | with_reducible refine Touches.snd (by assumption) ?_
    | with_reducible refine Touches.fst (by assumption) ?_
    | (clear_value *; split)
    | dsimp only

theorem Block.evrClear_touches (b) (x1) (x2) : Touches [.vis, .evr] b (Block.evrClear b x1 x2) := by
  unfold Block.evrClear
  repeat' first
    | with_reducible assumption
    | with_reducible exact Touches.refl
    | exact rfl
    | (intro x
       refine Touches.mid (show Touches [.vis, .evr] b x from ?_) (fun h => ?_)
       all_goals first | (with_reducible have h0 : Touches [.vis, .evr] b x := h; clear h0; clear_value x) | subst x)
    | intro _
    | lift_lets
    | with_reducible refine Touches.ite ?_ ?_
    | with_reducible apply Touches.step (Block.lockClear_touches ..)
    | with_reducible apply Touches.step (Block.raiseCleared_touches ..)
    | with_reducible apply Touches.step (Block.event_touches ..)
    | with_reducible apply Touches.step (Block.irq_touches ..)
    | with_reducible apply Touches.step (Block.count_touches ..)
    | ((with_reducible apply Touches.set_evr) <;> first | with_reducible assumption | with_reducible exact Touches.refl | exact rfl | with_reducible refine Touches.snd (by assumption) ?_)
    | split
    | with_reducible refine Touches.snd (by assumption) ?_
    | with_reducible refine Touches.fst (by assumption) ?_
    | (clear_value *; split)
    | dsimp only

theorem Block.clrUnlock_touches (b) (x1) : Touches [.evr] b (Block.clrUnlock b x1) := by
  unfold Block.clrUnlock
  repeat' first
    | with_reducible assumption
    | with_reducible exact Touches.refl
    | exact rfl
    | (intro x
       refine Touches.mid (show Touches [.evr] b x from ?_) (fun h => ?_)
       all_goals first | (with_reducible have h0 : Touches [.evr] b x := h; clear h0; clear_value x) | subst x)
    | intro _
    | lift_lets
    | with_reducible refine Touches.ite ?_ ?_
    | ((with_reducible apply Touches.set_evr) <;> first | with_reducible assumption | with_reducible exact Touches.refl | exact rfl | with_reducible refine Touches.snd (by assumption) ?_)
    | split
    | with_reducible refine Touches.snd (by assumption) ?_
    | with_reducible refine Touches.fst (by assumption) ?_
    | (clear_value *; split)
    | dsimp only

theorem Block.evrCommit_touches (b) : Touches [.vis, .act, .com, .dirty, .evr] b (Block.evrCommit b) := by
  unfold Block.evrCommit
  repeat' first
    | with_reducible assumption
    | with_reducible exact Touches.refl
    | exact rfl
    | (intro x
       refine Touches.mid (show Touches [.vis, .act, .com, .dirty, .evr] b x from ?_) (fun h => ?_)
       all_goals first | (with_reducible have h0 : Touches [.vis, .act, .com, .dirty, .evr] b x := h; clear h0; clear_value x) | subst x)
    | intro _
    | lift_lets
    | with_reducible refine Touches.ite ?_ ?_
    | ((with_reducible apply Block.handover_step) <;> first | exact rfl | intro _ _ _ | skip)
    | with_reducible apply Touches.step (Block.ripen_touches ..)
    | with_reducible apply Touches.step (Block.commit_touches ..)
    | with_reducible apply Touches.step (Block.event_touches ..)
    | with_reducible apply Touches.step (Block.irq_touches ..)
    | ((with_reducible apply Touches.set_evr) <;> first | with_reducible assumption | with_reducible exact Touches.refl | exact rfl | with_reducible refine Touches.snd (by assumption) ?_)
    | split
    | with_reducible refine Touches.snd (by assumption) ?_
    | with_reducible refine Touches.fst (by assumption) ?_
    | (clear_value *; split)
    | dsimp only

theorem Block.evrCmd_touches (b) (x1) (x2) : Touches [.vis, .evr] b (Block.evrCmd b x1 x2) := by
  unfold Block.evrCmd
  repeat' first
    | with_reducible assumption
    | with_reducible exact Touches.refl
    | exact rfl
    | (intro x
       refine Touches.mid (show Touches [.vis, .evr] b x from ?_) (fun h => ?_)
       all_goals first | (with_reducible have h0 : Touches [.vis, .evr] b x := h; clear h0; clear_value x) | subst x)
    | intro _
    | lift_lets
    | with_reducible refine Touches.ite ?_ ?_
    | with_reducible apply Touches.step (Block.evrClear_touches ..)
    | with_reducible apply Touches.step (Block.lockClear_touches ..)
    | with_reducible apply Touches.step (Block.freezeEnds_touches ..)
    | with_reducible apply Touches.step (Block.evrFreeze_touches ..)
    | split
    | with_reducible refine Touches.snd (by assumption) ?_
    | with_reducible refine Touches.fst (by assumption) ?_
    | (clear_value *; split)
    | dsimp only

end Sys2Proof.Machine
end

