-- ==== Sys2Proof/Laws/TouchPrtOps.lean ====
section
/-! SUPPORT. What the operations of Machine/PrtOps.lean touch. -/

namespace Sys2Proof.Machine

set_option linter.all false

theorem Block.setPort_touches (b) (x1) (x2) : Touches [.prt] b (Block.setPort b x1 x2) := by
  unfold Block.setPort
  repeat' first
    | with_reducible assumption
    | with_reducible exact Touches.refl
    | exact rfl
    | (intro x
       refine Touches.mid (show Touches [.prt] b x from ?_) (fun h => ?_)
       all_goals first | (with_reducible have h0 : Touches [.prt] b x := h; clear h0; clear_value x) | subst x)
    | intro _
    | lift_lets
    | with_reducible refine Touches.ite ?_ ?_
    | ((with_reducible apply Touches.set_prt) <;> first | with_reducible assumption | with_reducible exact Touches.refl | exact rfl | with_reducible refine Touches.snd (by assumption) ?_)
    | split
    | with_reducible refine Touches.snd (by assumption) ?_
    | with_reducible refine Touches.fst (by assumption) ?_
    | (clear_value *; split)
    | dsimp only

theorem Block.enqueue_touches (b) (x1) (x2) : Touches [.vis, .prt] b (Block.enqueue b x1 x2) := by
  unfold Block.enqueue
  repeat' first
    | with_reducible assumption
    | with_reducible exact Touches.refl
    | exact rfl
    | (intro x
       refine Touches.mid (show Touches [.vis, .prt] b x from ?_) (fun h => ?_)
       all_goals first | (with_reducible have h0 : Touches [.vis, .prt] b x := h; clear h0; clear_value x) | subst x)
    | intro _
    | lift_lets
    | with_reducible refine Touches.ite ?_ ?_
    | with_reducible apply Touches.step (Block.setPort_touches ..)
    | with_reducible apply Touches.step (Block.count_touches ..)
    | split
    | with_reducible refine Touches.snd (by assumption) ?_
    | with_reducible refine Touches.fst (by assumption) ?_
    | (clear_value *; split)
    | dsimp only

theorem Block.enqueueAll_touches (b) (x1) (x2) (x3) : Touches [.vis, .prt] b (Block.enqueueAll b x1 x2 x3) := by
  unfold Block.enqueueAll
  repeat' first
    | with_reducible assumption
    | with_reducible exact Touches.refl
    | exact rfl
    | (intro x
       refine Touches.mid (show Touches [.vis, .prt] b x from ?_) (fun h => ?_)
       all_goals first | (with_reducible have h0 : Touches [.vis, .prt] b x := h; clear h0; clear_value x) | subst x)
    | intro _
    | lift_lets
    | with_reducible refine Touches.ite ?_ ?_
    | with_reducible apply Touches.step (Block.enqueue_touches ..)
    | with_reducible refine Touches.fold ?_ (fun _ _ _ => ?_)
    | split
    | with_reducible refine Touches.snd (by assumption) ?_
    | with_reducible refine Touches.fst (by assumption) ?_
    | with_reducible refine Touches.fold1 ?_ (fun _ _ _ => ?_)
    | with_reducible refine Touches.fold2 ?_ (fun _ _ _ => ?_)
    | (clear_value *; split)
    | dsimp only

theorem Block.udpSend_touches (b) (x1) (x2) (x3) : Touches [.vis, .prt] b (Block.udpSend b x1 x2 x3) := by
  unfold Block.udpSend
  repeat' first
    | with_reducible assumption
    | with_reducible exact Touches.refl
    | exact rfl
    | (intro x
       refine Touches.mid (show Touches [.vis, .prt] b x from ?_) (fun h => ?_)
       all_goals first | (with_reducible have h0 : Touches [.vis, .prt] b x := h; clear h0; clear_value x) | subst x)
    | intro _
    | lift_lets
    | with_reducible refine Touches.ite ?_ ?_
    | with_reducible apply Touches.step (Block.count_touches ..)
    | with_reducible apply Touches.step (Block.enqueueAll_touches ..)
    | with_reducible apply Touches.step (Block.setPort_touches ..)
    | split
    | with_reducible refine Touches.snd (by assumption) ?_
    | with_reducible refine Touches.fst (by assumption) ?_
    | (clear_value *; split)
    | dsimp only

theorem Block.largeSend_touches (b) (x1) (x2) (x3) : Touches [.vis, .rep, .evr, .prt] b (Block.largeSend b x1 x2 x3) := by
  unfold Block.largeSend
  repeat' first
    | with_reducible assumption
    | with_reducible exact Touches.refl
    | exact rfl
    | (intro x
       refine Touches.mid (show Touches [.vis, .rep, .evr, .prt] b x from ?_) (fun h => ?_)
       all_goals first | (with_reducible have h0 : Touches [.vis, .rep, .evr, .prt] b x := h; clear h0; clear_value x) | subst x)
    | intro _
    | lift_lets
    | with_reducible refine Touches.ite ?_ ?_
    | with_reducible apply Touches.step (Block.eventRep_touches ..)
    | with_reducible apply Touches.step (Block.count_touches ..)
    | with_reducible apply Touches.step (Block.enqueueAll_touches ..)
    | split
    | with_reducible refine Touches.snd (by assumption) ?_
    | with_reducible refine Touches.fst (by assumption) ?_
    | (clear_value *; split)
    | dsimp only

theorem Block.residence_touches (b) (x1) (x2) (x3) : Touches [.vis] b (Block.residence b x1 x2 x3).2 := by
  unfold Block.residence
  repeat' first
    | with_reducible assumption
    | with_reducible exact Touches.refl
    | exact rfl
    | (intro x
       refine Touches.mid (show Touches [.vis] b x from ?_) (fun h => ?_)
       all_goals first | (with_reducible have h0 : Touches [.vis] b x := h; clear h0; clear_value x) | subst x)
    | intro _
    | lift_lets
    | with_reducible refine Touches.ite ?_ ?_
    | with_reducible apply Touches.step (Block.count_touches ..)
    | split
    | with_reducible refine Touches.snd (by assumption) ?_
    | with_reducible refine Touches.fst (by assumption) ?_
    | (clear_value *; split)
    | dsimp only

theorem Block.fixFrame_touches (b) (x1) (x2) : Touches [.vis, .tim, .prt] b (Block.fixFrame b x1 x2).2 := by
  unfold Block.fixFrame
  repeat' first
    | with_reducible assumption
    | with_reducible exact Touches.refl
    | exact rfl
    | (intro x
       refine Touches.mid (show Touches [.vis, .tim, .prt] b x from ?_) (fun h => ?_)
       all_goals first | (with_reducible have h0 : Touches [.vis, .tim, .prt] b x := h; clear h0; clear_value x) | subst x)
    | intro _
    | lift_lets
    | with_reducible refine Touches.ite ?_ ?_
    | with_reducible apply Touches.step (Block.residence_touches ..)
    | with_reducible apply Touches.step (Block.count_touches ..)
    | with_reducible apply Touches.step (Block.setPort_touches ..)
    | ((with_reducible apply Touches.set_tim) <;> first | with_reducible assumption | with_reducible exact Touches.refl | exact rfl | with_reducible refine Touches.snd (by assumption) ?_)
    | split
    | with_reducible refine Touches.snd (by assumption) ?_
    | with_reducible refine Touches.fst (by assumption) ?_
    | (clear_value *; split)
    | dsimp only

theorem Block.sendFrame_touches (b) (x1) (x2) : Touches [.vis, .tim, .prt] b (Block.sendFrame b x1 x2) := by
  unfold Block.sendFrame
  repeat' first
    | with_reducible assumption
    | with_reducible exact Touches.refl
    | exact rfl
    | (intro x
       refine Touches.mid (show Touches [.vis, .tim, .prt] b x from ?_) (fun h => ?_)
       all_goals first | (with_reducible have h0 : Touches [.vis, .tim, .prt] b x := h; clear h0; clear_value x) | subst x)
    | intro _
    | lift_lets
    | with_reducible refine Touches.ite ?_ ?_
    | with_reducible apply Touches.step (Block.setPort_touches ..)
    | with_reducible apply Touches.step (Block.fixFrame_touches ..)
    | with_reducible apply Touches.step (Block.count_touches ..)
    | split
    | with_reducible refine Touches.snd (by assumption) ?_
    | with_reducible refine Touches.fst (by assumption) ?_
    | (clear_value *; split)
    | dsimp only

theorem Block.transmit_touches (b) (x1) (x2) : Touches [.vis, .tim, .prt] b (Block.transmit b x1 x2) := by
  unfold Block.transmit
  repeat' first
    | with_reducible assumption
    | with_reducible exact Touches.refl
    | exact rfl
    | (intro x
       refine Touches.mid (show Touches [.vis, .tim, .prt] b x from ?_) (fun h => ?_)
       all_goals first | (with_reducible have h0 : Touches [.vis, .tim, .prt] b x := h; clear h0; clear_value x) | subst x)
    | intro _
    | lift_lets
    | with_reducible refine Touches.ite ?_ ?_
    | with_reducible apply Touches.step (Block.sendFrame_touches ..)
    | split
    | with_reducible refine Touches.snd (by assumption) ?_
    | with_reducible refine Touches.fst (by assumption) ?_
    | (clear_value *; split)
    | dsimp only

theorem Block.tcTimeout_touches (b) (x1) : Touches [.prt] b (Block.tcTimeout b x1) := by
  unfold Block.tcTimeout
  repeat' first
    | with_reducible assumption
    | with_reducible exact Touches.refl
    | exact rfl
    | (intro x
       refine Touches.mid (show Touches [.prt] b x from ?_) (fun h => ?_)
       all_goals first | (with_reducible have h0 : Touches [.prt] b x := h; clear h0; clear_value x) | subst x)
    | intro _
    | lift_lets
    | with_reducible refine Touches.ite ?_ ?_
    | with_reducible apply Touches.step (Block.setPort_touches ..)
    | split
    | with_reducible refine Touches.snd (by assumption) ?_
    | with_reducible refine Touches.fst (by assumption) ?_
    | (clear_value *; split)
    | dsimp only

theorem Block.linkLost_touches (b) (x1) (x2) : Touches [.vis, .prt] b (Block.linkLost b x1 x2) := by
  unfold Block.linkLost
  repeat' first
    | with_reducible assumption
    | with_reducible exact Touches.refl
    | exact rfl
    | (intro x
       refine Touches.mid (show Touches [.vis, .prt] b x from ?_) (fun h => ?_)
       all_goals first | (with_reducible have h0 : Touches [.vis, .prt] b x := h; clear h0; clear_value x) | subst x)
    | intro _
    | lift_lets
    | with_reducible refine Touches.ite ?_ ?_
    | with_reducible apply Touches.step (Block.setPort_touches ..)
    | with_reducible apply Touches.step (Block.count_touches ..)
    | split
    | with_reducible refine Touches.snd (by assumption) ?_
    | with_reducible refine Touches.fst (by assumption) ?_
    | (clear_value *; split)
    | dsimp only

theorem Block.linkDown_touches (b) (x1) (x2) : Touches [.vis, .evr, .prt] b (Block.linkDown b x1 x2) := by
  unfold Block.linkDown
  repeat' first
    | with_reducible assumption
    | with_reducible exact Touches.refl
    | exact rfl
    | (intro x
       refine Touches.mid (show Touches [.vis, .evr, .prt] b x from ?_) (fun h => ?_)
       all_goals first | (with_reducible have h0 : Touches [.vis, .evr, .prt] b x := h; clear h0; clear_value x) | subst x)
    | intro _
    | lift_lets
    | with_reducible refine Touches.ite ?_ ?_
    | with_reducible apply Touches.step (Block.event_touches ..)
    | with_reducible apply Touches.step (Block.irq_touches ..)
    | with_reducible apply Touches.step (Block.linkLost_touches ..)
    | split
    | with_reducible refine Touches.snd (by assumption) ?_
    | with_reducible refine Touches.fst (by assumption) ?_
    | (clear_value *; split)
    | dsimp only

theorem Block.linkUp_touches (b) (x1) (x2) (x3) : Touches [.vis, .evr, .prt] b (Block.linkUp b x1 x2 x3) := by
  unfold Block.linkUp
  repeat' first
    | with_reducible assumption
    | with_reducible exact Touches.refl
    | exact rfl
    | (intro x
       refine Touches.mid (show Touches [.vis, .evr, .prt] b x from ?_) (fun h => ?_)
       all_goals first | (with_reducible have h0 : Touches [.vis, .evr, .prt] b x := h; clear h0; clear_value x) | subst x)
    | intro _
    | lift_lets
    | with_reducible refine Touches.ite ?_ ?_
    | with_reducible apply Touches.step (Block.event_touches ..)
    | with_reducible apply Touches.step (Block.setPort_touches ..)
    | with_reducible apply Touches.step (Block.irq_touches ..)
    | split
    | with_reducible refine Touches.snd (by assumption) ?_
    | with_reducible refine Touches.fst (by assumption) ?_
    | (clear_value *; split)
    | dsimp only

theorem Block.portCfgApply_touches (b) (x1) (x2) : Touches [.vis, .evr, .prt] b (Block.portCfgApply b x1 x2) := by
  unfold Block.portCfgApply
  repeat' first
    | with_reducible assumption
    | with_reducible exact Touches.refl
    | exact rfl
    | (intro x
       refine Touches.mid (show Touches [.vis, .evr, .prt] b x from ?_) (fun h => ?_)
       all_goals first | (with_reducible have h0 : Touches [.vis, .evr, .prt] b x := h; clear h0; clear_value x) | subst x)
    | intro _
    | lift_lets
    | with_reducible refine Touches.ite ?_ ?_
    | with_reducible apply Touches.step (Block.setPort_touches ..)
    | with_reducible apply Touches.step (Block.linkDown_touches ..)
    | split
    | with_reducible refine Touches.snd (by assumption) ?_
    | with_reducible refine Touches.fst (by assumption) ?_
    | (clear_value *; split)
    | dsimp only

theorem Block.linksDown_touches (b) : Touches [.vis, .evr, .prt] b (Block.linksDown b) := by
  unfold Block.linksDown
  repeat' first
    | with_reducible assumption
    | with_reducible exact Touches.refl
    | exact rfl
    | (intro x
       refine Touches.mid (show Touches [.vis, .evr, .prt] b x from ?_) (fun h => ?_)
       all_goals first | (with_reducible have h0 : Touches [.vis, .evr, .prt] b x := h; clear h0; clear_value x) | subst x)
    | intro _
    | lift_lets
    | with_reducible refine Touches.ite ?_ ?_
    | with_reducible apply Touches.step (Block.linkDown_touches ..)
    | with_reducible refine Touches.fold ?_ (fun _ _ _ => ?_)
    | split
    | with_reducible refine Touches.snd (by assumption) ?_
    | with_reducible refine Touches.fst (by assumption) ?_
    | with_reducible refine Touches.fold1 ?_ (fun _ _ _ => ?_)
    | with_reducible refine Touches.fold2 ?_ (fun _ _ _ => ?_)
    | (clear_value *; split)
    | dsimp only

theorem Block.drawPortIds_touches (b) : Touches [.free, .prt] b (Block.drawPortIds b) := by
  unfold Block.drawPortIds
  repeat' first
    | with_reducible assumption
    | with_reducible exact Touches.refl
    | exact rfl
    | (intro x
       refine Touches.mid (show Touches [.free, .prt] b x from ?_) (fun h => ?_)
       all_goals first | (with_reducible have h0 : Touches [.free, .prt] b x := h; clear h0; clear_value x) | subst x)
    | intro _
    | lift_lets
    | with_reducible refine Touches.ite ?_ ?_
    | with_reducible apply Touches.step (Block.draw_touches ..)
    | with_reducible apply Touches.step (Block.setPort_touches ..)
    | with_reducible refine Touches.fold ?_ (fun _ _ _ => ?_)
    | split
    | with_reducible refine Touches.snd (by assumption) ?_
    | with_reducible refine Touches.fst (by assumption) ?_
    | with_reducible refine Touches.fold1 ?_ (fun _ _ _ => ?_)
    | with_reducible refine Touches.fold2 ?_ (fun _ _ _ => ?_)
    | (clear_value *; split)
    | dsimp only

theorem Block.sfpChange_touches (b) (x1) (x2) : Touches [.vis, .evr, .prt] b (Block.sfpChange b x1 x2) := by
  unfold Block.sfpChange
  repeat' first
    | with_reducible assumption
    | with_reducible exact Touches.refl
    | exact rfl
    | (intro x
       refine Touches.mid (show Touches [.vis, .evr, .prt] b x from ?_) (fun h => ?_)
       all_goals first | (with_reducible have h0 : Touches [.vis, .evr, .prt] b x := h; clear h0; clear_value x) | subst x)
    | intro _
    | lift_lets
    | with_reducible refine Touches.ite ?_ ?_
    | with_reducible apply Touches.step (Block.event_touches ..)
    | with_reducible apply Touches.step (Block.setPort_touches ..)
    | with_reducible apply Touches.step (Block.linkDown_touches ..)
    | split
    | with_reducible refine Touches.snd (by assumption) ?_
    | with_reducible refine Touches.fst (by assumption) ?_
    | (clear_value *; split)
    | dsimp only

theorem Block.cagePower_touches (b) (x1) (x2) : Touches [.vis, .evr, .prt] b (Block.cagePower b x1 x2) := by
  unfold Block.cagePower
  repeat' first
    | with_reducible assumption
    | with_reducible exact Touches.refl
    | exact rfl
    | (intro x
       refine Touches.mid (show Touches [.vis, .evr, .prt] b x from ?_) (fun h => ?_)
       all_goals first | (with_reducible have h0 : Touches [.vis, .evr, .prt] b x := h; clear h0; clear_value x) | subst x)
    | intro _
    | lift_lets
    | with_reducible refine Touches.ite ?_ ?_
    | with_reducible apply Touches.step (Block.linkDown_touches ..)
    | with_reducible apply Touches.step (Block.event_touches ..)
    | with_reducible apply Touches.step (Block.setPort_touches ..)
    | split
    | with_reducible refine Touches.snd (by assumption) ?_
    | with_reducible refine Touches.fst (by assumption) ?_
    | (clear_value *; split)
    | dsimp only

theorem Block.filterCommit_touches (b) (x1) (x2) : Touches [.prt] b (Block.filterCommit b x1 x2) := by
  unfold Block.filterCommit
  repeat' first
    | with_reducible assumption
    | with_reducible exact Touches.refl
    | exact rfl
    | (intro x
       refine Touches.mid (show Touches [.prt] b x from ?_) (fun h => ?_)
       all_goals first | (with_reducible have h0 : Touches [.prt] b x := h; clear h0; clear_value x) | subst x)
    | intro _
    | lift_lets
    | with_reducible refine Touches.ite ?_ ?_
    | with_reducible apply Touches.step (Block.setPort_touches ..)
    | split
    | with_reducible refine Touches.snd (by assumption) ?_
    | with_reducible refine Touches.fst (by assumption) ?_
    | (clear_value *; split)
    | dsimp only

theorem Block.hostReceive_touches (b) (x1) (x2) (x3) : Touches [.vis, .resp, .rep, .cells, .poison, .evr, .que, .prt] b (Block.hostReceive b x1 x2 x3) := by
  unfold Block.hostReceive
  repeat' first
    | with_reducible assumption
    | with_reducible exact Touches.refl
    | exact rfl
    | (intro x
       refine Touches.mid (show Touches [.vis, .resp, .rep, .cells, .poison, .evr, .que, .prt] b x from ?_) (fun h => ?_)
       all_goals first | (with_reducible have h0 : Touches [.vis, .resp, .rep, .cells, .poison, .evr, .que, .prt] b x := h; clear h0; clear_value x) | subst x)
    | intro _
    | lift_lets
    | with_reducible refine Touches.ite ?_ ?_
    | with_reducible apply Touches.step (Block.count_touches ..)
    | with_reducible apply Touches.step (Block.setPort_touches ..)
    | with_reducible apply Touches.step (Block.event_touches ..)
    | with_reducible apply Touches.step (Block.irq_touches ..)
    | with_reducible apply Touches.step (Block.store_touches ..)
    | with_reducible apply Touches.step (Block.setVis_touches ..)
    | with_reducible apply Touches.step (Block.push_touches ..)
    | ((with_reducible apply Touches.set_rep) <;> first | with_reducible assumption | with_reducible exact Touches.refl | exact rfl | with_reducible refine Touches.snd (by assumption) ?_)
    | split
    | with_reducible refine Touches.snd (by assumption) ?_
    | with_reducible refine Touches.fst (by assumption) ?_
    | (clear_value *; split)
    | dsimp only

end Sys2Proof.Machine
end

