-- ==== Sys2Proof/Laws/TouchTimOps.lean ====
section
/-! SUPPORT. What the operations of Machine/TimOps.lean touch. -/

namespace Sys2Proof.Machine

set_option linter.all false

theorem Block.timEvent_touches (b) (x1) (x2) (x3) (x4) : Touches [.vis, .evr] b (Block.timEvent b x1 x2 x3 x4) := by
  unfold Block.timEvent
  repeat' first
    | with_reducible assumption
    | with_reducible exact Touches.refl
    | exact rfl
    | (intro x
       refine Touches.mid (show Touches [.vis, .evr] b x from ?_) (fun h => ?_)
       all_goals first | (with_reducible have h0 : Touches [.vis, .evr] b x := h; clear h0; clear_value x) | subst x)
    | intro _
    | lift_lets
    | with_reducible refine Touches.ite ?_ ?_
    | with_reducible apply Touches.step (Block.event_touches ..)
    | split
    | with_reducible refine Touches.snd (by assumption) ?_
    | with_reducible refine Touches.fst (by assumption) ?_
    | (clear_value *; split)
    | dsimp only

theorem Block.retune_touches (b) (x1) (x2) : Touches [.vis, .tim] b (Block.retune b x1 x2) := by
  unfold Block.retune
  repeat' first
    | with_reducible assumption
    | with_reducible exact Touches.refl
    | exact rfl
    | (intro x
       refine Touches.mid (show Touches [.vis, .tim] b x from ?_) (fun h => ?_)
       all_goals first | (with_reducible have h0 : Touches [.vis, .tim] b x := h; clear h0; clear_value x) | subst x)
    | intro _
    | lift_lets
    | with_reducible refine Touches.ite ?_ ?_
    | with_reducible apply Touches.step (Block.setTb_touches ..)
    | with_reducible apply Touches.step (Block.setVis_touches ..)
    | split
    | with_reducible refine Touches.snd (by assumption) ?_
    | with_reducible refine Touches.fst (by assumption) ?_
    | (clear_value *; split)
    | dsimp only

theorem Block.leapsPassed_touches (b) : Touches [.tim] b (Block.leapsPassed b) := by
  unfold Block.leapsPassed
  repeat' first
    | with_reducible assumption
    | with_reducible exact Touches.refl
    | exact rfl
    | (intro x
       refine Touches.mid (show Touches [.tim] b x from ?_) (fun h => ?_)
       all_goals first | (with_reducible have h0 : Touches [.tim] b x := h; clear h0; clear_value x) | subst x)
    | intro _
    | lift_lets
    | with_reducible refine Touches.ite ?_ ?_
    | ((with_reducible apply Touches.set_tim) <;> first | with_reducible assumption | with_reducible exact Touches.refl | exact rfl | with_reducible refine Touches.snd (by assumption) ?_)
    | split
    | with_reducible refine Touches.snd (by assumption) ?_
    | with_reducible refine Touches.fst (by assumption) ?_
    | (clear_value *; split)
    | dsimp only

theorem Block.addTb_touches (b) (x1) (x2) : Touches [.vis, .tim] b (Block.addTb b x1 x2) := by
  unfold Block.addTb
  repeat' first
    | with_reducible assumption
    | with_reducible exact Touches.refl
    | exact rfl
    | (intro x
       refine Touches.mid (show Touches [.vis, .tim] b x from ?_) (fun h => ?_)
       all_goals first | (with_reducible have h0 : Touches [.vis, .tim] b x := h; clear h0; clear_value x) | subst x)
    | intro _
    | lift_lets
    | with_reducible refine Touches.ite ?_ ?_
    | with_reducible apply Touches.step (Block.retune_touches ..)
    | with_reducible apply Touches.step (Block.setTb_touches ..)
    | with_reducible apply Touches.step (Block.leapsPassed_touches ..)
    | split
    | with_reducible refine Touches.snd (by assumption) ?_
    | with_reducible refine Touches.fst (by assumption) ?_
    | (clear_value *; split)
    | dsimp only

theorem Block.setPo_touches (b) (x1) (x2) : Touches [.tim] b (Block.setPo b x1 x2) := by
  unfold Block.setPo
  repeat' first
    | with_reducible assumption
    | with_reducible exact Touches.refl
    | exact rfl
    | (intro x
       refine Touches.mid (show Touches [.tim] b x from ?_) (fun h => ?_)
       all_goals first | (with_reducible have h0 : Touches [.tim] b x := h; clear h0; clear_value x) | subst x)
    | intro _
    | lift_lets
    | with_reducible refine Touches.ite ?_ ?_
    | ((with_reducible apply Touches.set_tim) <;> first | with_reducible assumption | with_reducible exact Touches.refl | exact rfl | with_reducible refine Touches.snd (by assumption) ?_)
    | split
    | with_reducible refine Touches.snd (by assumption) ?_
    | with_reducible refine Touches.fst (by assumption) ?_
    | (clear_value *; split)
    | dsimp only

theorem Block.poArm_touches (b) (x1) : Touches [.vis, .rep, .evr, .tim] b (Block.poArm b x1) := by
  unfold Block.poArm
  repeat' first
    | with_reducible assumption
    | with_reducible exact Touches.refl
    | exact rfl
    | (intro x
       refine Touches.mid (show Touches [.vis, .rep, .evr, .tim] b x from ?_) (fun h => ?_)
       all_goals first | (with_reducible have h0 : Touches [.vis, .rep, .evr, .tim] b x := h; clear h0; clear_value x) | subst x)
    | intro _
    | lift_lets
    | with_reducible refine Touches.ite ?_ ?_
    | with_reducible apply Touches.step (Block.setPo_touches ..)
    | with_reducible apply Touches.step (Block.setBit_touches ..)
    | with_reducible apply Touches.step (Block.eventRep_touches ..)
    | with_reducible apply Touches.step (Block.irq_touches ..)
    | split
    | with_reducible refine Touches.snd (by assumption) ?_
    | with_reducible refine Touches.fst (by assumption) ?_
    | (clear_value *; split)
    | dsimp only

theorem Block.poStep_touches (b) (x1) : Touches [.vis, .tim] b (Block.poStep b x1) := by
  unfold Block.poStep
  repeat' first
    | with_reducible assumption
    | with_reducible exact Touches.refl
    | exact rfl
    | (intro x
       refine Touches.mid (show Touches [.vis, .tim] b x from ?_) (fun h => ?_)
       all_goals first | (with_reducible have h0 : Touches [.vis, .tim] b x := h; clear h0; clear_value x) | subst x)
    | intro _
    | lift_lets
    | with_reducible refine Touches.ite ?_ ?_
    | with_reducible apply Touches.step (Block.setPo_touches ..)
    | with_reducible apply Touches.step (Block.count_touches ..)
    | with_reducible refine Touches.fold ?_ (fun _ _ _ => ?_)
    | split
    | with_reducible refine Touches.snd (by assumption) ?_
    | with_reducible refine Touches.fst (by assumption) ?_
    | with_reducible refine Touches.fold1 ?_ (fun _ _ _ => ?_)
    | with_reducible refine Touches.fold2 ?_ (fun _ _ _ => ?_)
    | (clear_value *; split)
    | dsimp only

theorem Block.pulseEdge_touches (b) (x1) : Touches [.vis, .tim] b (Block.pulseEdge b x1) := by
  unfold Block.pulseEdge
  repeat' first
    | with_reducible assumption
    | with_reducible exact Touches.refl
    | exact rfl
    | (intro x
       refine Touches.mid (show Touches [.vis, .tim] b x from ?_) (fun h => ?_)
       all_goals first | (with_reducible have h0 : Touches [.vis, .tim] b x := h; clear h0; clear_value x) | subst x)
    | intro _
    | lift_lets
    | with_reducible refine Touches.ite ?_ ?_
    | with_reducible apply Touches.step (Block.setPo_touches ..)
    | with_reducible apply Touches.step (Block.count_touches ..)
    | split
    | with_reducible refine Touches.snd (by assumption) ?_
    | with_reducible refine Touches.fst (by assumption) ?_
    | (clear_value *; split)
    | dsimp only

theorem Block.timReject_touches (b) (x1) : Touches [.vis, .evr] b (Block.timReject b x1) := by
  unfold Block.timReject
  repeat' first
    | with_reducible assumption
    | with_reducible exact Touches.refl
    | exact rfl
    | (intro x
       refine Touches.mid (show Touches [.vis, .evr] b x from ?_) (fun h => ?_)
       all_goals first | (with_reducible have h0 : Touches [.vis, .evr] b x := h; clear h0; clear_value x) | subst x)
    | intro _
    | lift_lets
    | with_reducible refine Touches.ite ?_ ?_
    | with_reducible apply Touches.step (Block.timEvent_touches ..)
    | with_reducible apply Touches.step (Block.irq_touches ..)
    | split
    | with_reducible refine Touches.snd (by assumption) ?_
    | with_reducible refine Touches.fst (by assumption) ?_
    | (clear_value *; split)
    | dsimp only

theorem Block.poHandover_touches (b) (x1) : Touches [.vis, .act, .com, .dirty, .rep, .evr, .tim] b (Block.poHandover b x1) := by
  unfold Block.poHandover
  repeat' first
    | with_reducible assumption
    | with_reducible exact Touches.refl
    | exact rfl
    | (intro x
       refine Touches.mid (show Touches [.vis, .act, .com, .dirty, .rep, .evr, .tim] b x from ?_) (fun h => ?_)
       all_goals first | (with_reducible have h0 : Touches [.vis, .act, .com, .dirty, .rep, .evr, .tim] b x := h; clear h0; clear_value x) | subst x)
    | intro _
    | lift_lets
    | with_reducible refine Touches.ite ?_ ?_
    | ((with_reducible apply Block.handover_step) <;> first | exact rfl | intro _ _ _ | skip)
    | with_reducible apply Touches.step (Block.timReject_touches ..)
    | with_reducible apply Touches.step (Block.poArm_touches ..)
    | split
    | with_reducible refine Touches.snd (by assumption) ?_
    | with_reducible refine Touches.fst (by assumption) ?_
    | (clear_value *; split)
    | dsimp only

theorem Block.timCommit_touches (b) : Touches [.vis, .act, .com, .dirty, .rep, .evr, .tim] b (Block.timCommit b) := by
  unfold Block.timCommit
  repeat' first
    | with_reducible assumption
    | with_reducible exact Touches.refl
    | exact rfl
    | (intro x
       refine Touches.mid (show Touches [.vis, .act, .com, .dirty, .rep, .evr, .tim] b x from ?_) (fun h => ?_)
       all_goals first | (with_reducible have h0 : Touches [.vis, .act, .com, .dirty, .rep, .evr, .tim] b x := h; clear h0; clear_value x) | subst x)
    | intro _
    | lift_lets
    | with_reducible refine Touches.ite ?_ ?_
    | with_reducible apply Touches.step (Block.ripen_touches ..)
    | with_reducible apply Touches.step (Block.commit_touches ..)
    | with_reducible apply Touches.step (Block.poHandover_touches ..)
    | ((with_reducible apply Touches.set_tim) <;> first | with_reducible assumption | with_reducible exact Touches.refl | exact rfl | with_reducible refine Touches.snd (by assumption) ?_)
    | with_reducible refine Touches.fold ?_ (fun _ _ _ => ?_)
    | split
    | with_reducible refine Touches.snd (by assumption) ?_
    | with_reducible refine Touches.fst (by assumption) ?_
    | with_reducible refine Touches.fold1 ?_ (fun _ _ _ => ?_)
    | with_reducible refine Touches.fold2 ?_ (fun _ _ _ => ?_)
    | with_reducible refine Touches.getD (fun _ _ => ?_) ?_
    | (clear_value *; split)
    | dsimp only

theorem Block.sourceLost_touches (b) (x1) (x2) : Touches [.vis, .evr, .tim] b (Block.sourceLost b x1 x2) := by
  unfold Block.sourceLost
  repeat' first
    | with_reducible assumption
    | with_reducible exact Touches.refl
    | exact rfl
    | (intro x
       refine Touches.mid (show Touches [.vis, .evr, .tim] b x from ?_) (fun h => ?_)
       all_goals first | (with_reducible have h0 : Touches [.vis, .evr, .tim] b x := h; clear h0; clear_value x) | subst x)
    | intro _
    | lift_lets
    | with_reducible refine Touches.ite ?_ ?_
    | with_reducible apply Touches.step (Block.setTb_touches ..)
    | with_reducible apply Touches.step (Block.timEvent_touches ..)
    | with_reducible apply Touches.step (Block.irq_touches ..)
    | with_reducible apply Touches.step (Block.retune_touches ..)
    | with_reducible apply Touches.step (Block.count_touches ..)
    | split
    | with_reducible refine Touches.snd (by assumption) ?_
    | with_reducible refine Touches.fst (by assumption) ?_
    | (clear_value *; split)
    | dsimp only

theorem Block.lostToTb0_touches (b) (x1) : Touches [.vis, .evr, .tim] b (Block.lostToTb0 b x1) := by
  unfold Block.lostToTb0
  repeat' first
    | with_reducible assumption
    | with_reducible exact Touches.refl
    | exact rfl
    | (intro x
       refine Touches.mid (show Touches [.vis, .evr, .tim] b x from ?_) (fun h => ?_)
       all_goals first | (with_reducible have h0 : Touches [.vis, .evr, .tim] b x := h; clear h0; clear_value x) | subst x)
    | intro _
    | lift_lets
    | with_reducible refine Touches.ite ?_ ?_
    | with_reducible apply Touches.step (Block.setTb_touches ..)
    | with_reducible apply Touches.step (Block.sourceLost_touches ..)
    | split
    | with_reducible refine Touches.snd (by assumption) ?_
    | with_reducible refine Touches.fst (by assumption) ?_
    | (clear_value *; split)
    | dsimp only

theorem Block.loseSource_touches (b) (x1) (x2) : Touches [.vis, .evr, .tim] b (Block.loseSource b x1 x2) := by
  unfold Block.loseSource
  repeat' first
    | with_reducible assumption
    | with_reducible exact Touches.refl
    | exact rfl
    | (intro x
       refine Touches.mid (show Touches [.vis, .evr, .tim] b x from ?_) (fun h => ?_)
       all_goals first | (with_reducible have h0 : Touches [.vis, .evr, .tim] b x := h; clear h0; clear_value x) | subst x)
    | intro _
    | lift_lets
    | with_reducible refine Touches.ite ?_ ?_
    | with_reducible apply Touches.step (Block.sourceLost_touches ..)
    | with_reducible apply Touches.step (Block.lostToTb0_touches ..)
    | split
    | with_reducible refine Touches.snd (by assumption) ?_
    | with_reducible refine Touches.fst (by assumption) ?_
    | (clear_value *; split)
    | dsimp only

theorem Block.tbSettings_touches (b) (x1) : Touches [.vis, .evr, .tim] b (Block.tbSettings b x1) := by
  unfold Block.tbSettings
  repeat' first
    | with_reducible assumption
    | with_reducible exact Touches.refl
    | exact rfl
    | (intro x
       refine Touches.mid (show Touches [.vis, .evr, .tim] b x from ?_) (fun h => ?_)
       all_goals first | (with_reducible have h0 : Touches [.vis, .evr, .tim] b x := h; clear h0; clear_value x) | subst x)
    | intro _
    | lift_lets
    | with_reducible refine Touches.ite ?_ ?_
    | with_reducible apply Touches.step (Block.loseSource_touches ..)
    | with_reducible apply Touches.step (Block.setTb_touches ..)
    | with_reducible apply Touches.step (Block.lostToTb0_touches ..)
    | with_reducible refine Touches.fold ?_ (fun _ _ _ => ?_)
    | split
    | with_reducible refine Touches.snd (by assumption) ?_
    | with_reducible refine Touches.fst (by assumption) ?_
    | with_reducible refine Touches.fold1 ?_ (fun _ _ _ => ?_)
    | with_reducible refine Touches.fold2 ?_ (fun _ _ _ => ?_)
    | (clear_value *; split)
    | dsimp only

theorem Block.ptpNote_touches (b) (x1) : Touches [.tim] b (Block.ptpNote b x1) := by
  unfold Block.ptpNote
  repeat' first
    | with_reducible assumption
    | with_reducible exact Touches.refl
    | exact rfl
    | (intro x
       refine Touches.mid (show Touches [.tim] b x from ?_) (fun h => ?_)
       all_goals first | (with_reducible have h0 : Touches [.tim] b x := h; clear h0; clear_value x) | subst x)
    | intro _
    | lift_lets
    | with_reducible refine Touches.ite ?_ ?_
    | ((with_reducible apply Touches.set_tim) <;> first | with_reducible assumption | with_reducible exact Touches.refl | exact rfl | with_reducible refine Touches.snd (by assumption) ?_)
    | split
    | with_reducible refine Touches.snd (by assumption) ?_
    | with_reducible refine Touches.fst (by assumption) ?_
    | with_reducible refine Touches.getD (fun _ _ => ?_) ?_
    | (clear_value *; split)
    | dsimp only

theorem Block.ptpMoved_touches (b) (x1) (x2) : Touches [.vis, .evr, .tim] b (Block.ptpMoved b x1 x2) := by
  unfold Block.ptpMoved
  repeat' first
    | with_reducible assumption
    | with_reducible exact Touches.refl
    | exact rfl
    | (intro x
       refine Touches.mid (show Touches [.vis, .evr, .tim] b x from ?_) (fun h => ?_)
       all_goals first | (with_reducible have h0 : Touches [.vis, .evr, .tim] b x := h; clear h0; clear_value x) | subst x)
    | intro _
    | lift_lets
    | with_reducible refine Touches.ite ?_ ?_
    | with_reducible apply Touches.step (Block.loseSource_touches ..)
    | ((with_reducible apply Touches.set_tim) <;> first | with_reducible assumption | with_reducible exact Touches.refl | exact rfl | with_reducible refine Touches.snd (by assumption) ?_)
    | split
    | with_reducible refine Touches.snd (by assumption) ?_
    | with_reducible refine Touches.fst (by assumption) ?_
    | (clear_value *; split)
    | dsimp only

theorem Block.timHandover_touches (b) : Touches [.vis, .act, .com, .dirty, .evr, .tim] b (Block.timHandover b) := by
  unfold Block.timHandover
  repeat' first
    | with_reducible assumption
    | with_reducible exact Touches.refl
    | exact rfl
    | (intro x
       refine Touches.mid (show Touches [.vis, .act, .com, .dirty, .evr, .tim] b x from ?_) (fun h => ?_)
       all_goals first | (with_reducible have h0 : Touches [.vis, .act, .com, .dirty, .evr, .tim] b x := h; clear h0; clear_value x) | subst x)
    | intro _
    | lift_lets
    | with_reducible refine Touches.ite ?_ ?_
    | ((with_reducible apply Block.handover_step) <;> first | exact rfl | intro _ _ _ | skip)
    | with_reducible apply Touches.step (Block.timReject_touches ..)
    | with_reducible apply Touches.step (Block.ptpNote_touches ..)
    | with_reducible apply Touches.step (Block.tbSettings_touches ..)
    | with_reducible apply Touches.step (Block.ptpMoved_touches ..)
    | ((with_reducible apply Touches.set_tim) <;> first | with_reducible assumption | with_reducible exact Touches.refl | exact rfl | with_reducible refine Touches.snd (by assumption) ?_)
    | with_reducible refine Touches.fold ?_ (fun _ _ _ => ?_)
    | split
    | with_reducible refine Touches.snd (by assumption) ?_
    | with_reducible refine Touches.fst (by assumption) ?_
    | with_reducible refine Touches.fold1 ?_ (fun _ _ _ => ?_)
    | with_reducible refine Touches.fold2 ?_ (fun _ _ _ => ?_)
    | (clear_value *; split)
    | dsimp only

theorem Block.errorLimit_touches (b) (x1) : Touches [.vis, .evr, .tim] b (Block.errorLimit b x1) := by
  unfold Block.errorLimit
  repeat' first
    | with_reducible assumption
    | with_reducible exact Touches.refl
    | exact rfl
    | (intro x
       refine Touches.mid (show Touches [.vis, .evr, .tim] b x from ?_) (fun h => ?_)
       all_goals first | (with_reducible have h0 : Touches [.vis, .evr, .tim] b x := h; clear h0; clear_value x) | subst x)
    | intro _
    | lift_lets
    | with_reducible refine Touches.ite ?_ ?_
    | with_reducible apply Touches.step (Block.lostToTb0_touches ..)
    | with_reducible apply Touches.step (Block.timEvent_touches ..)
    | with_reducible apply Touches.step (Block.irq_touches ..)
    | with_reducible apply Touches.step (Block.setTb_touches ..)
    | split
    | with_reducible refine Touches.snd (by assumption) ?_
    | with_reducible refine Touches.fst (by assumption) ?_
    | (clear_value *; split)
    | dsimp only

theorem Block.lockHold_touches (b) (x1) : Touches [.vis, .evr, .tim] b (Block.lockHold b x1) := by
  unfold Block.lockHold
  repeat' first
    | with_reducible assumption
    | with_reducible exact Touches.refl
    | exact rfl
    | (intro x
       refine Touches.mid (show Touches [.vis, .evr, .tim] b x from ?_) (fun h => ?_)
       all_goals first | (with_reducible have h0 : Touches [.vis, .evr, .tim] b x := h; clear h0; clear_value x) | subst x)
    | intro _
    | lift_lets
    | with_reducible refine Touches.ite ?_ ?_
    | with_reducible apply Touches.step (Block.setTb_touches ..)
    | with_reducible apply Touches.step (Block.timEvent_touches ..)
    | with_reducible apply Touches.step (Block.irq_touches ..)
    | ((with_reducible apply Touches.set_tim) <;> first | with_reducible assumption | with_reducible exact Touches.refl | exact rfl | with_reducible refine Touches.snd (by assumption) ?_)
    | split
    | with_reducible refine Touches.snd (by assumption) ?_
    | with_reducible refine Touches.fst (by assumption) ?_
    | (clear_value *; split)
    | dsimp only

theorem Block.sourceQualified_touches (b) (x1) (x2) : Touches [.tim] b (Block.sourceQualified b x1 x2) := by
  unfold Block.sourceQualified
  repeat' first
    | with_reducible assumption
    | with_reducible exact Touches.refl
    | exact rfl
    | (intro x
       refine Touches.mid (show Touches [.tim] b x from ?_) (fun h => ?_)
       all_goals first | (with_reducible have h0 : Touches [.tim] b x := h; clear h0; clear_value x) | subst x)
    | intro _
    | lift_lets
    | with_reducible refine Touches.ite ?_ ?_
    | with_reducible apply Touches.step (Block.setTb_touches ..)
    | split
    | with_reducible refine Touches.snd (by assumption) ?_
    | with_reducible refine Touches.fst (by assumption) ?_
    | (clear_value *; split)
    | dsimp only

theorem Block.switchSource_touches (b) (x1) (x2) : Touches [.vis, .evr, .tim] b (Block.switchSource b x1 x2) := by
  unfold Block.switchSource
  repeat' first
    | with_reducible assumption
    | with_reducible exact Touches.refl
    | exact rfl
    | (intro x
       refine Touches.mid (show Touches [.vis, .evr, .tim] b x from ?_) (fun h => ?_)
       all_goals first | (with_reducible have h0 : Touches [.vis, .evr, .tim] b x := h; clear h0; clear_value x) | subst x)
    | intro _
    | lift_lets
    | with_reducible refine Touches.ite ?_ ?_
    | with_reducible apply Touches.step (Block.setTb_touches ..)
    | with_reducible apply Touches.step (Block.irq_touches ..)
    | with_reducible apply Touches.step (Block.count_touches ..)
    | with_reducible apply Touches.step (Block.timEvent_touches ..)
    | split
    | with_reducible refine Touches.snd (by assumption) ?_
    | with_reducible refine Touches.fst (by assumption) ?_
    | (clear_value *; split)
    | dsimp only

theorem Block.stepBy_touches (b) (x1) (x2) : Touches [.vis, .evr, .tim] b (Block.stepBy b x1 x2) := by
  unfold Block.stepBy
  repeat' first
    | with_reducible assumption
    | with_reducible exact Touches.refl
    | exact rfl
    | (intro x
       refine Touches.mid (show Touches [.vis, .evr, .tim] b x from ?_) (fun h => ?_)
       all_goals first | (with_reducible have h0 : Touches [.vis, .evr, .tim] b x := h; clear h0; clear_value x) | subst x)
    | intro _
    | lift_lets
    | with_reducible refine Touches.ite ?_ ?_
    | with_reducible apply Touches.step (Block.poStep_touches ..)
    | with_reducible apply Touches.step (Block.addTb_touches ..)
    | with_reducible apply Touches.step (Block.setTb_touches ..)
    | with_reducible apply Touches.step (Block.timEvent_touches ..)
    | with_reducible apply Touches.step (Block.count_touches ..)
    | split
    | with_reducible refine Touches.snd (by assumption) ?_
    | with_reducible refine Touches.fst (by assumption) ?_
    | (clear_value *; split)
    | dsimp only

theorem Block.accept_touches (b) (x1) (x2) (x3) (x4) : Touches [.vis, .evr, .tim] b (Block.accept b x1 x2 x3 x4) := by
  unfold Block.accept
  repeat' first
    | with_reducible assumption
    | with_reducible exact Touches.refl
    | exact rfl
    | (intro x
       refine Touches.mid (show Touches [.vis, .evr, .tim] b x from ?_) (fun h => ?_)
       all_goals first | (with_reducible have h0 : Touches [.vis, .evr, .tim] b x := h; clear h0; clear_value x) | subst x)
    | intro _
    | lift_lets
    | with_reducible refine Touches.ite ?_ ?_
    | with_reducible apply Touches.step (Block.retune_touches ..)
    | with_reducible apply Touches.step (Block.setTb_touches ..)
    | with_reducible apply Touches.step (Block.errorLimit_touches ..)
    | split
    | with_reducible refine Touches.snd (by assumption) ?_
    | with_reducible refine Touches.fst (by assumption) ?_
    | with_reducible refine Touches.getD (fun _ _ => ?_) ?_
    | (clear_value *; split)
    | dsimp only

theorem Block.measure_touches (b) (x1) (x2) (x3) (x4) (x5) : Touches [.vis, .evr, .tim] b (Block.measure b x1 x2 x3 x4 x5).1 := by
  unfold Block.measure
  repeat' first
    | with_reducible assumption
    | with_reducible exact Touches.refl
    | exact rfl
    | (intro x
       refine Touches.mid (show Touches [.vis, .evr, .tim] b x from ?_) (fun h => ?_)
       all_goals first | (with_reducible have h0 : Touches [.vis, .evr, .tim] b x := h; clear h0; clear_value x) | subst x)
    | intro _
    | lift_lets
    | with_reducible refine Touches.ite ?_ ?_
    | with_reducible apply Touches.step (Block.switchSource_touches ..)
    | with_reducible apply Touches.step (Block.stepBy_touches ..)
    | with_reducible apply Touches.step (Block.accept_touches ..)
    | with_reducible apply Touches.step (Block.setTb_touches ..)
    | with_reducible apply Touches.step (Block.timEvent_touches ..)
    | with_reducible apply Touches.step (Block.irq_touches ..)
    | with_reducible apply Touches.step (Block.count_touches ..)
    | split
    | with_reducible refine Touches.snd (by assumption) ?_
    | with_reducible refine Touches.fst (by assumption) ?_
    | (clear_value *; split)
    | dsimp only

theorem Block.ptpSync_touches (b) (x1) (x2) (x3) (x4) : Touches [.vis, .tim] b (Block.ptpSync b x1 x2 x3 x4).1 := by
  unfold Block.ptpSync
  repeat' first
    | with_reducible assumption
    | with_reducible exact Touches.refl
    | exact rfl
    | (intro x
       refine Touches.mid (show Touches [.vis, .tim] b x from ?_) (fun h => ?_)
       all_goals first | (with_reducible have h0 : Touches [.vis, .tim] b x := h; clear h0; clear_value x) | subst x)
    | intro _
    | lift_lets
    | with_reducible refine Touches.ite ?_ ?_
    | with_reducible apply Touches.step (Block.setTb_touches ..)
    | with_reducible apply Touches.step (Block.count_touches ..)
    | split
    | with_reducible refine Touches.snd (by assumption) ?_
    | with_reducible refine Touches.fst (by assumption) ?_
    | (clear_value *; split)
    | dsimp only

theorem Block.tb0Acquire_touches (b) : Touches [.vis, .tim] b (Block.tb0Acquire b) := by
  unfold Block.tb0Acquire
  repeat' first
    | with_reducible assumption
    | with_reducible exact Touches.refl
    | exact rfl
    | (intro x
       refine Touches.mid (show Touches [.vis, .tim] b x from ?_) (fun h => ?_)
       all_goals first | (with_reducible have h0 : Touches [.vis, .tim] b x := h; clear h0; clear_value x) | subst x)
    | intro _
    | lift_lets
    | with_reducible refine Touches.ite ?_ ?_
    | with_reducible apply Touches.step (Block.retune_touches ..)
    | with_reducible apply Touches.step (Block.setTb_touches ..)
    | split
    | with_reducible refine Touches.snd (by assumption) ?_
    | with_reducible refine Touches.fst (by assumption) ?_
    | (clear_value *; split)
    | dsimp only

theorem Block.setPd_touches (b) (x1) (x2) : Touches [.tim] b (Block.setPd b x1 x2) := by
  unfold Block.setPd
  repeat' first
    | with_reducible assumption
    | with_reducible exact Touches.refl
    | exact rfl
    | (intro x
       refine Touches.mid (show Touches [.tim] b x from ?_) (fun h => ?_)
       all_goals first | (with_reducible have h0 : Touches [.tim] b x := h; clear h0; clear_value x) | subst x)
    | intro _
    | lift_lets
    | with_reducible refine Touches.ite ?_ ?_
    | ((with_reducible apply Touches.set_tim) <;> first | with_reducible assumption | with_reducible exact Touches.refl | exact rfl | with_reducible refine Touches.snd (by assumption) ?_)
    | split
    | with_reducible refine Touches.snd (by assumption) ?_
    | with_reducible refine Touches.fst (by assumption) ?_
    | (clear_value *; split)
    | dsimp only

theorem Block.setPtp_touches (b) (x1) (x2) : Touches [.tim] b (Block.setPtp b x1 x2) := by
  unfold Block.setPtp
  repeat' first
    | with_reducible assumption
    | with_reducible exact Touches.refl
    | exact rfl
    | (intro x
       refine Touches.mid (show Touches [.tim] b x from ?_) (fun h => ?_)
       all_goals first | (with_reducible have h0 : Touches [.tim] b x := h; clear h0; clear_value x) | subst x)
    | intro _
    | lift_lets
    | with_reducible refine Touches.ite ?_ ?_
    | ((with_reducible apply Touches.set_tim) <;> first | with_reducible assumption | with_reducible exact Touches.refl | exact rfl | with_reducible refine Touches.snd (by assumption) ?_)
    | split
    | with_reducible refine Touches.snd (by assumption) ?_
    | with_reducible refine Touches.fst (by assumption) ?_
    | (clear_value *; split)
    | dsimp only

theorem Block.pdFail_touches (b) (x1) : Touches [.vis, .rep, .evr, .tim] b (Block.pdFail b x1) := by
  unfold Block.pdFail
  repeat' first
    | with_reducible assumption
    | with_reducible exact Touches.refl
    | exact rfl
    | (intro x
       refine Touches.mid (show Touches [.vis, .rep, .evr, .tim] b x from ?_) (fun h => ?_)
       all_goals first | (with_reducible have h0 : Touches [.vis, .rep, .evr, .tim] b x := h; clear h0; clear_value x) | subst x)
    | intro _
    | lift_lets
    | with_reducible refine Touches.ite ?_ ?_
    | with_reducible apply Touches.step (Block.count_touches ..)
    | with_reducible apply Touches.step (Block.setPd_touches ..)
    | with_reducible apply Touches.step (Block.eventRep_touches ..)
    | with_reducible apply Touches.step (Block.loseSource_touches ..)
    | with_reducible apply Touches.step (Block.ptpNote_touches ..)
    | with_reducible apply Touches.step (Block.setPtp_touches ..)
    | with_reducible refine Touches.fold ?_ (fun _ _ _ => ?_)
    | split
    | with_reducible refine Touches.snd (by assumption) ?_
    | with_reducible refine Touches.fst (by assumption) ?_
    | with_reducible refine Touches.fold1 ?_ (fun _ _ _ => ?_)
    | with_reducible refine Touches.fold2 ?_ (fun _ _ _ => ?_)
    | (clear_value *; split)
    | dsimp only

theorem Block.pdResult_touches (b) (x1) (x2) : Touches [.vis, .rep, .evr, .tim] b (Block.pdResult b x1 x2) := by
  unfold Block.pdResult
  repeat' first
    | with_reducible assumption
    | with_reducible exact Touches.refl
    | exact rfl
    | (intro x
       refine Touches.mid (show Touches [.vis, .rep, .evr, .tim] b x from ?_) (fun h => ?_)
       all_goals first | (with_reducible have h0 : Touches [.vis, .rep, .evr, .tim] b x := h; clear h0; clear_value x) | subst x)
    | intro _
    | lift_lets
    | with_reducible refine Touches.ite ?_ ?_
    | with_reducible apply Touches.step (Block.pdFail_touches ..)
    | with_reducible apply Touches.step (Block.count_touches ..)
    | with_reducible apply Touches.step (Block.setPd_touches ..)
    | with_reducible apply Touches.step (Block.ptpNote_touches ..)
    | with_reducible apply Touches.step (Block.setPtp_touches ..)
    | with_reducible refine Touches.fold ?_ (fun _ _ _ => ?_)
    | split
    | with_reducible refine Touches.snd (by assumption) ?_
    | with_reducible refine Touches.fst (by assumption) ?_
    | with_reducible refine Touches.fold1 ?_ (fun _ _ _ => ?_)
    | with_reducible refine Touches.fold2 ?_ (fun _ _ _ => ?_)
    | (clear_value *; split)
    | dsimp only

theorem Block.pdelayReq_touches (b) (x1) : Touches [.vis, .rep, .evr, .tim, .prt] b (Block.pdelayReq b x1) := by
  unfold Block.pdelayReq
  repeat' first
    | with_reducible assumption
    | with_reducible exact Touches.refl
    | exact rfl
    | (intro x
       refine Touches.mid (show Touches [.vis, .rep, .evr, .tim, .prt] b x from ?_) (fun h => ?_)
       all_goals first | (with_reducible have h0 : Touches [.vis, .rep, .evr, .tim, .prt] b x := h; clear h0; clear_value x) | subst x)
    | intro _
    | lift_lets
    | with_reducible refine Touches.ite ?_ ?_
    | with_reducible apply Touches.step (Block.pdFail_touches ..)
    | with_reducible apply Touches.step (Block.count_touches ..)
    | with_reducible apply Touches.step (Block.setPd_touches ..)
    | with_reducible apply Touches.step (Block.enqueue_touches ..)
    | split
    | with_reducible refine Touches.snd (by assumption) ?_
    | with_reducible refine Touches.fst (by assumption) ?_
    | (clear_value *; split)
    | dsimp only

theorem Block.pdelayTimeout_touches (b) (x1) : Touches [.vis, .rep, .evr, .tim] b (Block.pdelayTimeout b x1) := by
  unfold Block.pdelayTimeout
  repeat' first
    | with_reducible assumption
    | with_reducible exact Touches.refl
    | exact rfl
    | (intro x
       refine Touches.mid (show Touches [.vis, .rep, .evr, .tim] b x from ?_) (fun h => ?_)
       all_goals first | (with_reducible have h0 : Touches [.vis, .rep, .evr, .tim] b x := h; clear h0; clear_value x) | subst x)
    | intro _
    | lift_lets
    | with_reducible refine Touches.ite ?_ ?_
    | with_reducible apply Touches.step (Block.pdFail_touches ..)
    | split
    | with_reducible refine Touches.snd (by assumption) ?_
    | with_reducible refine Touches.fst (by assumption) ?_
    | (clear_value *; split)
    | dsimp only

theorem Block.ptpTimeouts_touches (b) (x1) (x2) : Touches [.vis, .tim] b (Block.ptpTimeouts b x1 x2) := by
  unfold Block.ptpTimeouts
  repeat' first
    | with_reducible assumption
    | with_reducible exact Touches.refl
    | exact rfl
    | (intro x
       refine Touches.mid (show Touches [.vis, .tim] b x from ?_) (fun h => ?_)
       all_goals first | (with_reducible have h0 : Touches [.vis, .tim] b x := h; clear h0; clear_value x) | subst x)
    | intro _
    | lift_lets
    | with_reducible refine Touches.ite ?_ ?_
    | with_reducible apply Touches.step (Block.count_touches ..)
    | with_reducible apply Touches.step (Block.ptpNote_touches ..)
    | with_reducible apply Touches.step (Block.setPtp_touches ..)
    | split
    | with_reducible refine Touches.snd (by assumption) ?_
    | with_reducible refine Touches.fst (by assumption) ?_
    | (clear_value *; split)
    | dsimp only

theorem Block.sourceGone_touches (b) (x1) (x2) : Touches [.vis, .evr, .tim] b (Block.sourceGone b x1 x2) := by
  unfold Block.sourceGone
  repeat' first
    | with_reducible assumption
    | with_reducible exact Touches.refl
    | exact rfl
    | (intro x
       refine Touches.mid (show Touches [.vis, .evr, .tim] b x from ?_) (fun h => ?_)
       all_goals first | (with_reducible have h0 : Touches [.vis, .evr, .tim] b x := h; clear h0; clear_value x) | subst x)
    | intro _
    | lift_lets
    | with_reducible refine Touches.ite ?_ ?_
    | with_reducible apply Touches.step (Block.loseSource_touches ..)
    | with_reducible apply Touches.step (Block.ptpTimeouts_touches ..)
    | split
    | with_reducible refine Touches.snd (by assumption) ?_
    | with_reducible refine Touches.fst (by assumption) ?_
    | (clear_value *; split)
    | dsimp only

theorem Block.leapCompare_touches (b) (x1) (x2) (x3) (x4) (x5) (x6) : Touches [.vis, .rep, .evr, .tim] b (Block.leapCompare b x1 x2 x3 x4 x5 x6) := by
  unfold Block.leapCompare
  repeat' first
    | with_reducible assumption
    | with_reducible exact Touches.refl
    | exact rfl
    | (intro x
       refine Touches.mid (show Touches [.vis, .rep, .evr, .tim] b x from ?_) (fun h => ?_)
       all_goals first | (with_reducible have h0 : Touches [.vis, .rep, .evr, .tim] b x := h; clear h0; clear_value x) | subst x)
    | intro _
    | lift_lets
    | with_reducible refine Touches.ite ?_ ?_
    | with_reducible apply Touches.step (Block.eventRep_touches ..)
    | with_reducible apply Touches.step (Block.irq_touches ..)
    | ((with_reducible apply Touches.set_tim) <;> first | with_reducible assumption | with_reducible exact Touches.refl | exact rfl | with_reducible refine Touches.snd (by assumption) ?_)
    | split
    | with_reducible refine Touches.snd (by assumption) ?_
    | with_reducible refine Touches.fst (by assumption) ?_
    | (clear_value *; split)
    | dsimp only

theorem Block.leapPtp_touches (b) (x1) : Touches [.vis, .rep, .evr, .tim] b (Block.leapPtp b x1) := by
  unfold Block.leapPtp
  repeat' first
    | with_reducible assumption
    | with_reducible exact Touches.refl
    | exact rfl
    | (intro x
       refine Touches.mid (show Touches [.vis, .rep, .evr, .tim] b x from ?_) (fun h => ?_)
       all_goals first | (with_reducible have h0 : Touches [.vis, .rep, .evr, .tim] b x := h; clear h0; clear_value x) | subst x)
    | intro _
    | lift_lets
    | with_reducible refine Touches.ite ?_ ?_
    | with_reducible apply Touches.step (Block.leapCompare_touches ..)
    | split
    | with_reducible refine Touches.snd (by assumption) ?_
    | with_reducible refine Touches.fst (by assumption) ?_
    | (clear_value *; split)
    | dsimp only

theorem Block.leapIrig_touches (b) : Touches [.vis, .rep, .evr, .tim] b (Block.leapIrig b) := by
  unfold Block.leapIrig
  repeat' first
    | with_reducible assumption
    | with_reducible exact Touches.refl
    | exact rfl
    | (intro x
       refine Touches.mid (show Touches [.vis, .rep, .evr, .tim] b x from ?_) (fun h => ?_)
       all_goals first | (with_reducible have h0 : Touches [.vis, .rep, .evr, .tim] b x := h; clear h0; clear_value x) | subst x)
    | intro _
    | lift_lets
    | with_reducible refine Touches.ite ?_ ?_
    | with_reducible apply Touches.step (Block.leapCompare_touches ..)
    | split
    | with_reducible refine Touches.snd (by assumption) ?_
    | with_reducible refine Touches.fst (by assumption) ?_
    | (clear_value *; split)
    | dsimp only

theorem Block.announce_touches (b) (x1) (x2) (x3) : Touches [.vis, .rep, .evr, .tim] b (Block.announce b x1 x2 x3) := by
  unfold Block.announce
  repeat' first
    | with_reducible assumption
    | with_reducible exact Touches.refl
    | exact rfl
    | (intro x
       refine Touches.mid (show Touches [.vis, .rep, .evr, .tim] b x from ?_) (fun h => ?_)
       all_goals first | (with_reducible have h0 : Touches [.vis, .rep, .evr, .tim] b x := h; clear h0; clear_value x) | subst x)
    | intro _
    | lift_lets
    | with_reducible refine Touches.ite ?_ ?_
    | with_reducible apply Touches.step (Block.ptpNote_touches ..)
    | with_reducible apply Touches.step (Block.setPtp_touches ..)
    | with_reducible apply Touches.step (Block.timEvent_touches ..)
    | with_reducible apply Touches.step (Block.leapPtp_touches ..)
    | split
    | with_reducible refine Touches.snd (by assumption) ?_
    | with_reducible refine Touches.fst (by assumption) ?_
    | with_reducible refine Touches.getD (fun _ _ => ?_) ?_
    | (clear_value *; split)
    | dsimp only

theorem Block.pdelayAnswer_touches (b) (x1) (x2) (x3) : Touches [.vis, .prt] b (Block.pdelayAnswer b x1 x2 x3) := by
  unfold Block.pdelayAnswer
  repeat' first
    | with_reducible assumption
    | with_reducible exact Touches.refl
    | exact rfl
    | (intro x
       refine Touches.mid (show Touches [.vis, .prt] b x from ?_) (fun h => ?_)
       all_goals first | (with_reducible have h0 : Touches [.vis, .prt] b x := h; clear h0; clear_value x) | subst x)
    | intro _
    | lift_lets
    | with_reducible refine Touches.ite ?_ ?_
    | with_reducible apply Touches.step (Block.enqueue_touches ..)
    | split
    | with_reducible refine Touches.snd (by assumption) ?_
    | with_reducible refine Touches.fst (by assumption) ?_
    | (clear_value *; split)
    | dsimp only

theorem Block.pdelayGot_touches (b) (x1) (x2) (x3) : Touches [.vis, .rep, .evr, .tim] b (Block.pdelayGot b x1 x2 x3) := by
  unfold Block.pdelayGot
  repeat' first
    | with_reducible assumption
    | with_reducible exact Touches.refl
    | exact rfl
    | (intro x
       refine Touches.mid (show Touches [.vis, .rep, .evr, .tim] b x from ?_) (fun h => ?_)
       all_goals first | (with_reducible have h0 : Touches [.vis, .rep, .evr, .tim] b x := h; clear h0; clear_value x) | subst x)
    | intro _
    | lift_lets
    | with_reducible refine Touches.ite ?_ ?_
    | with_reducible apply Touches.step (Block.setPd_touches ..)
    | with_reducible apply Touches.step (Block.pdResult_touches ..)
    | split
    | with_reducible refine Touches.snd (by assumption) ?_
    | with_reducible refine Touches.fst (by assumption) ?_
    | (clear_value *; split)
    | dsimp only

theorem Block.pdelayFollow_touches (b) (x1) (x2) (x3) : Touches [.vis, .rep, .evr, .tim] b (Block.pdelayFollow b x1 x2 x3) := by
  unfold Block.pdelayFollow
  repeat' first
    | with_reducible assumption
    | with_reducible exact Touches.refl
    | exact rfl
    | (intro x
       refine Touches.mid (show Touches [.vis, .rep, .evr, .tim] b x from ?_) (fun h => ?_)
       all_goals first | (with_reducible have h0 : Touches [.vis, .rep, .evr, .tim] b x := h; clear h0; clear_value x) | subst x)
    | intro _
    | lift_lets
    | with_reducible refine Touches.ite ?_ ?_
    | with_reducible apply Touches.step (Block.setPd_touches ..)
    | with_reducible apply Touches.step (Block.pdResult_touches ..)
    | split
    | with_reducible refine Touches.snd (by assumption) ?_
    | with_reducible refine Touches.fst (by assumption) ?_
    | (clear_value *; split)
    | dsimp only

theorem Block.syncHeard_touches (b) (x1) (x2) (x3) : Touches [.tim] b (Block.syncHeard b x1 x2 x3) := by
  unfold Block.syncHeard
  repeat' first
    | with_reducible assumption
    | with_reducible exact Touches.refl
    | exact rfl
    | (intro x
       refine Touches.mid (show Touches [.tim] b x from ?_) (fun h => ?_)
       all_goals first | (with_reducible have h0 : Touches [.tim] b x := h; clear h0; clear_value x) | subst x)
    | intro _
    | lift_lets
    | with_reducible refine Touches.ite ?_ ?_
    | with_reducible apply Touches.step (Block.setPtp_touches ..)
    | split
    | with_reducible refine Touches.snd (by assumption) ?_
    | with_reducible refine Touches.fst (by assumption) ?_
    | (clear_value *; split)
    | dsimp only

theorem Block.followHeard_touches (b) (x1) (x2) (x3) : Touches [.tim] b (Block.followHeard b x1 x2 x3) := by
  unfold Block.followHeard
  repeat' first
    | with_reducible assumption
    | with_reducible exact Touches.refl
    | exact rfl
    | (intro x
       refine Touches.mid (show Touches [.tim] b x from ?_) (fun h => ?_)
       all_goals first | (with_reducible have h0 : Touches [.tim] b x := h; clear h0; clear_value x) | subst x)
    | intro _
    | lift_lets
    | with_reducible refine Touches.ite ?_ ?_
    | with_reducible apply Touches.step (Block.setPtp_touches ..)
    | split
    | with_reducible refine Touches.snd (by assumption) ?_
    | with_reducible refine Touches.fst (by assumption) ?_
    | (clear_value *; split)
    | dsimp only

theorem Block.ptpReceive_touches (b) (x1) (x2) : Touches [.vis, .rep, .evr, .tim, .prt] b (Block.ptpReceive b x1 x2) := by
  unfold Block.ptpReceive
  repeat' first
    | with_reducible assumption
    | with_reducible exact Touches.refl
    | exact rfl
    | (intro x
       refine Touches.mid (show Touches [.vis, .rep, .evr, .tim, .prt] b x from ?_) (fun h => ?_)
       all_goals first | (with_reducible have h0 : Touches [.vis, .rep, .evr, .tim, .prt] b x := h; clear h0; clear_value x) | subst x)
    | intro _
    | lift_lets
    | with_reducible refine Touches.ite ?_ ?_
    | with_reducible apply Touches.step (Block.syncHeard_touches ..)
    | with_reducible apply Touches.step (Block.followHeard_touches ..)
    | with_reducible apply Touches.step (Block.pdelayAnswer_touches ..)
    | with_reducible apply Touches.step (Block.pdelayGot_touches ..)
    | with_reducible apply Touches.step (Block.pdelayFollow_touches ..)
    | with_reducible apply Touches.step (Block.announce_touches ..)
    | with_reducible apply Touches.step (Block.count_touches ..)
    | with_reducible refine Touches.fold ?_ (fun _ _ _ => ?_)
    | split
    | with_reducible refine Touches.snd (by assumption) ?_
    | with_reducible refine Touches.fst (by assumption) ?_
    | with_reducible refine Touches.fold1 ?_ (fun _ _ _ => ?_)
    | with_reducible refine Touches.fold2 ?_ (fun _ _ _ => ?_)
    | (clear_value *; split)
    | dsimp only

theorem Block.setTin_touches (b) (x1) : Touches [.tim] b (Block.setTin b x1) := by
  unfold Block.setTin
  repeat' first
    | with_reducible assumption
    | with_reducible exact Touches.refl
    | exact rfl
    | (intro x
       refine Touches.mid (show Touches [.tim] b x from ?_) (fun h => ?_)
       all_goals first | (with_reducible have h0 : Touches [.tim] b x := h; clear h0; clear_value x) | subst x)
    | intro _
    | lift_lets
    | with_reducible refine Touches.ite ?_ ?_
    | ((with_reducible apply Touches.set_tim) <;> first | with_reducible assumption | with_reducible exact Touches.refl | exact rfl | with_reducible refine Touches.snd (by assumption) ?_)
    | split
    | with_reducible refine Touches.snd (by assumption) ?_
    | with_reducible refine Touches.fst (by assumption) ?_
    | (clear_value *; split)
    | dsimp only

theorem Block.irigFrame_touches (b) (x1) (x2) (x3) (x4) (x5) : Touches [.vis, .rep, .evr, .tim] b (Block.irigFrame b x1 x2 x3 x4 x5) := by
  unfold Block.irigFrame
  repeat' first
    | with_reducible assumption
    | with_reducible exact Touches.refl
    | exact rfl
    | (intro x
       refine Touches.mid (show Touches [.vis, .rep, .evr, .tim] b x from ?_) (fun h => ?_)
       all_goals first | (with_reducible have h0 : Touches [.vis, .rep, .evr, .tim] b x := h; clear h0; clear_value x) | subst x)
    | intro _
    | lift_lets
    | with_reducible refine Touches.ite ?_ ?_
    | with_reducible apply Touches.step (Block.setTin_touches ..)
    | with_reducible apply Touches.step (Block.leapIrig_touches ..)
    | with_reducible apply Touches.step (Block.loseSource_touches ..)
    | split
    | with_reducible refine Touches.snd (by assumption) ?_
    | with_reducible refine Touches.fst (by assumption) ?_
    | with_reducible refine Touches.getD (fun _ _ => ?_) ?_
    | (clear_value *; split)
    | dsimp only

theorem Block.ppsEdge_touches (b) : Touches [.vis, .evr, .tim] b (Block.ppsEdge b) := by
  unfold Block.ppsEdge
  repeat' first
    | with_reducible assumption
    | with_reducible exact Touches.refl
    | exact rfl
    | (intro x
       refine Touches.mid (show Touches [.vis, .evr, .tim] b x from ?_) (fun h => ?_)
       all_goals first | (with_reducible have h0 : Touches [.vis, .evr, .tim] b x := h; clear h0; clear_value x) | subst x)
    | intro _
    | lift_lets
    | with_reducible refine Touches.ite ?_ ?_
    | with_reducible apply Touches.step (Block.setTin_touches ..)
    | with_reducible apply Touches.step (Block.loseSource_touches ..)
    | split
    | with_reducible refine Touches.snd (by assumption) ?_
    | with_reducible refine Touches.fst (by assumption) ?_
    | with_reducible refine Touches.getD (fun _ _ => ?_) ?_
    | (clear_value *; split)
    | dsimp only

theorem Block.todSentence_touches (b) (x1) (x2) : Touches [.vis, .evr, .tim] b (Block.todSentence b x1 x2) := by
  unfold Block.todSentence
  repeat' first
    | with_reducible assumption
    | with_reducible exact Touches.refl
    | exact rfl
    | (intro x
       refine Touches.mid (show Touches [.vis, .evr, .tim] b x from ?_) (fun h => ?_)
       all_goals first | (with_reducible have h0 : Touches [.vis, .evr, .tim] b x := h; clear h0; clear_value x) | subst x)
    | intro _
    | lift_lets
    | with_reducible refine Touches.ite ?_ ?_
    | with_reducible apply Touches.step (Block.setTin_touches ..)
    | with_reducible apply Touches.step (Block.loseSource_touches ..)
    | split
    | with_reducible refine Touches.snd (by assumption) ?_
    | with_reducible refine Touches.fst (by assumption) ?_
    | with_reducible refine Touches.getD (fun _ _ => ?_) ?_
    | (clear_value *; split)
    | dsimp only

theorem Block.oscSettle_touches (b) : Touches [.vis, .evr, .tim] b (Block.oscSettle b) := by
  unfold Block.oscSettle
  repeat' first
    | with_reducible assumption
    | with_reducible exact Touches.refl
    | exact rfl
    | (intro x
       refine Touches.mid (show Touches [.vis, .evr, .tim] b x from ?_) (fun h => ?_)
       all_goals first | (with_reducible have h0 : Touches [.vis, .evr, .tim] b x := h; clear h0; clear_value x) | subst x)
    | intro _
    | lift_lets
    | with_reducible refine Touches.ite ?_ ?_
    | with_reducible apply Touches.step (Block.timEvent_touches ..)
    | with_reducible apply Touches.step (Block.irq_touches ..)
    | ((with_reducible apply Touches.set_tim) <;> first | with_reducible assumption | with_reducible exact Touches.refl | exact rfl | with_reducible refine Touches.snd (by assumption) ?_)
    | split
    | with_reducible refine Touches.snd (by assumption) ?_
    | with_reducible refine Touches.fst (by assumption) ?_
    | (clear_value *; split)
    | dsimp only

theorem Block.oscSwitch_touches (b) (x1) : Touches [.vis, .evr, .tim] b (Block.oscSwitch b x1) := by
  unfold Block.oscSwitch
  repeat' first
    | with_reducible assumption
    | with_reducible exact Touches.refl
    | exact rfl
    | (intro x
       refine Touches.mid (show Touches [.vis, .evr, .tim] b x from ?_) (fun h => ?_)
       all_goals first | (with_reducible have h0 : Touches [.vis, .evr, .tim] b x := h; clear h0; clear_value x) | subst x)
    | intro _
    | lift_lets
    | with_reducible refine Touches.ite ?_ ?_
    | with_reducible apply Touches.step (Block.oscSettle_touches ..)
    | ((with_reducible apply Touches.set_tim) <;> first | with_reducible assumption | with_reducible exact Touches.refl | exact rfl | with_reducible refine Touches.snd (by assumption) ?_)
    | split
    | with_reducible refine Touches.snd (by assumption) ?_
    | with_reducible refine Touches.fst (by assumption) ?_
    | with_reducible refine Touches.getD (fun _ _ => ?_) ?_
    | (clear_value *; split)
    | dsimp only

theorem Block.leapSecond_touches (b) : Touches [.vis, .rep, .evr, .tim] b (Block.leapSecond b) := by
  unfold Block.leapSecond
  repeat' first
    | with_reducible assumption
    | with_reducible exact Touches.refl
    | exact rfl
    | (intro x
       refine Touches.mid (show Touches [.vis, .rep, .evr, .tim] b x from ?_) (fun h => ?_)
       all_goals first | (with_reducible have h0 : Touches [.vis, .rep, .evr, .tim] b x := h; clear h0; clear_value x) | subst x)
    | intro _
    | lift_lets
    | with_reducible refine Touches.ite ?_ ?_
    | with_reducible apply Touches.step (Block.timEvent_touches ..)
    | with_reducible apply Touches.step (Block.leapIrig_touches ..)
    | with_reducible apply Touches.step (Block.leapPtp_touches ..)
    | ((with_reducible apply Touches.set_tim) <;> first | with_reducible assumption | with_reducible exact Touches.refl | exact rfl | with_reducible refine Touches.snd (by assumption) ?_)
    | with_reducible refine Touches.fold ?_ (fun _ _ _ => ?_)
    | split
    | with_reducible refine Touches.snd (by assumption) ?_
    | with_reducible refine Touches.fst (by assumption) ?_
    | with_reducible refine Touches.fold1 ?_ (fun _ _ _ => ?_)
    | with_reducible refine Touches.fold2 ?_ (fun _ _ _ => ?_)
    | (clear_value *; split)
    | dsimp only

theorem Block.leapExpiry_touches (b) : Touches [.tim] b (Block.leapExpiry b) := by
  unfold Block.leapExpiry
  repeat' first
    | with_reducible assumption
    | with_reducible exact Touches.refl
    | exact rfl
    | (intro x
       refine Touches.mid (show Touches [.tim] b x from ?_) (fun h => ?_)
       all_goals first | (with_reducible have h0 : Touches [.tim] b x := h; clear h0; clear_value x) | subst x)
    | intro _
    | lift_lets
    | with_reducible refine Touches.ite ?_ ?_
    | ((with_reducible apply Touches.set_tim) <;> first | with_reducible assumption | with_reducible exact Touches.refl | exact rfl | with_reducible refine Touches.snd (by assumption) ?_)
    | split
    | with_reducible refine Touches.snd (by assumption) ?_
    | with_reducible refine Touches.fst (by assumption) ?_
    | (clear_value *; split)
    | dsimp only

theorem Block.vrate_touches (b) (x1) (x2) : Touches [.vis, .tim] b (Block.vrate b x1 x2) := by
  unfold Block.vrate
  repeat' first
    | with_reducible assumption
    | with_reducible exact Touches.refl
    | exact rfl
    | (intro x
       refine Touches.mid (show Touches [.vis, .tim] b x from ?_) (fun h => ?_)
       all_goals first | (with_reducible have h0 : Touches [.vis, .tim] b x := h; clear h0; clear_value x) | subst x)
    | intro _
    | lift_lets
    | with_reducible refine Touches.ite ?_ ?_
    | with_reducible apply Touches.step (Block.setVis_touches ..)
    | with_reducible apply Touches.step (Block.retune_touches ..)
    | split
    | with_reducible refine Touches.snd (by assumption) ?_
    | with_reducible refine Touches.fst (by assumption) ?_
    | (clear_value *; split)
    | dsimp only

theorem Block.vstep_touches (b) (x1) (x2) : Touches [.vis, .evr, .tim] b (Block.vstep b x1 x2).1 := by
  unfold Block.vstep
  repeat' first
    | with_reducible assumption
    | with_reducible exact Touches.refl
    | exact rfl
    | (intro x
       refine Touches.mid (show Touches [.vis, .evr, .tim] b x from ?_) (fun h => ?_)
       all_goals first | (with_reducible have h0 : Touches [.vis, .evr, .tim] b x := h; clear h0; clear_value x) | subst x)
    | intro _
    | lift_lets
    | with_reducible refine Touches.ite ?_ ?_
    | with_reducible apply Touches.step (Block.count_touches ..)
    | with_reducible apply Touches.step (Block.poStep_touches ..)
    | with_reducible apply Touches.step (Block.addTb_touches ..)
    | with_reducible apply Touches.step (Block.timEvent_touches ..)
    | split
    | with_reducible refine Touches.snd (by assumption) ?_
    | with_reducible refine Touches.fst (by assumption) ?_
    | (clear_value *; split)
    | dsimp only

theorem Block.latchNow_touches (b) (x1) : Touches [.tim] b (Block.latchNow b x1).2 := by
  unfold Block.latchNow
  repeat' first
    | with_reducible assumption
    | with_reducible exact Touches.refl
    | exact rfl
    | (intro x
       refine Touches.mid (show Touches [.tim] b x from ?_) (fun h => ?_)
       all_goals first | (with_reducible have h0 : Touches [.tim] b x := h; clear h0; clear_value x) | subst x)
    | intro _
    | lift_lets
    | with_reducible refine Touches.ite ?_ ?_
    | with_reducible apply Touches.step (Block.setTb_touches ..)
    | split
    | with_reducible refine Touches.snd (by assumption) ?_
    | with_reducible refine Touches.fst (by assumption) ?_
    | (clear_value *; split)
    | dsimp only

theorem Block.pulsesEnd_touches (b) : Touches [.vis, .act, .com, .dirty, .rep, .evr, .tim] b (Block.pulsesEnd b) := by
  unfold Block.pulsesEnd
  repeat' first
    | with_reducible assumption
    | with_reducible exact Touches.refl
    | exact rfl
    | (intro x
       refine Touches.mid (show Touches [.vis, .act, .com, .dirty, .rep, .evr, .tim] b x from ?_) (fun h => ?_)
       all_goals first | (with_reducible have h0 : Touches [.vis, .act, .com, .dirty, .rep, .evr, .tim] b x := h; clear h0; clear_value x) | subst x)
    | intro _
    | lift_lets
    | with_reducible refine Touches.ite ?_ ?_
    | with_reducible apply Touches.step (Block.poHandover_touches ..)
    | with_reducible apply Touches.step (Block.setPo_touches ..)
    | with_reducible refine Touches.fold ?_ (fun _ _ _ => ?_)
    | split
    | with_reducible refine Touches.snd (by assumption) ?_
    | with_reducible refine Touches.fst (by assumption) ?_
    | with_reducible refine Touches.fold1 ?_ (fun _ _ _ => ?_)
    | with_reducible refine Touches.fold2 ?_ (fun _ _ _ => ?_)
    | (clear_value *; split)
    | dsimp only

theorem Block.pulseEndAt_touches (b) (x1) : Touches [.vis, .act, .com, .dirty, .rep, .evr, .tim] b (Block.pulseEndAt b x1) := by
  unfold Block.pulseEndAt
  repeat' first
    | with_reducible assumption
    | with_reducible exact Touches.refl
    | exact rfl
    | (intro x
       refine Touches.mid (show Touches [.vis, .act, .com, .dirty, .rep, .evr, .tim] b x from ?_) (fun h => ?_)
       all_goals first | (with_reducible have h0 : Touches [.vis, .act, .com, .dirty, .rep, .evr, .tim] b x := h; clear h0; clear_value x) | subst x)
    | intro _
    | lift_lets
    | with_reducible refine Touches.ite ?_ ?_
    | with_reducible apply Touches.step (Block.poHandover_touches ..)
    | with_reducible apply Touches.step (Block.setPo_touches ..)
    | split
    | with_reducible refine Touches.snd (by assumption) ?_
    | with_reducible refine Touches.fst (by assumption) ?_
    | (clear_value *; split)
    | dsimp only

end Sys2Proof.Machine
end

