-- ==== Sys2Proof/Laws/TouchPrtRx.lean ====
section
/-! SUPPORT. What the operations of Machine/PrtRx.lean touch. -/

namespace Sys2Proof.Machine

set_option linter.all false

theorem Block.noteStranger_touches (b) (x1) (x2) : Touches [.prt] b (Block.noteStranger b x1 x2) := by
  unfold Block.noteStranger
  repeat' first
    | with_reducible assumption
    | with_reducible exact Touches.refl
    | exact rfl
    | (intro x
       refine Touches.mid (show Touches [.prt] b x from ?_) (fun h => ?_)
       all_goals first | (with_reducible have h0 : Touches [.prt] b x := h; clear h0; clear_value x) | subst x)
    | intro _
    | lift_lets
    | with_reducible refine Touches.ite ?_ ?_
    | with_reducible apply Touches.step (Block.setPort_touches ..)
    | split
    | with_reducible refine Touches.snd (by assumption) ?_
    | with_reducible refine Touches.fst (by assumption) ?_
    | (clear_value *; split)
    | dsimp only

theorem Block.deliver_touches (b) (x1) (x2) (x3) : Touches [.vis, .resp, .rep, .cells, .poison, .evr, .tim, .que, .prt] b (Block.deliver b x1 x2 x3) := by
  unfold Block.deliver
  repeat' first
    | with_reducible assumption
    | with_reducible exact Touches.refl
    | exact rfl
    | (intro x
       refine Touches.mid (show Touches [.vis, .resp, .rep, .cells, .poison, .evr, .tim, .que, .prt] b x from ?_) (fun h => ?_)
       all_goals first | (with_reducible have h0 : Touches [.vis, .resp, .rep, .cells, .poison, .evr, .tim, .que, .prt] b x := h; clear h0; clear_value x) | subst x)
    | intro _
    | lift_lets
    | with_reducible refine Touches.ite ?_ ?_
    | with_reducible apply Touches.step (Block.ptpReceive_touches ..)
    | with_reducible apply Touches.step (Block.noteStranger_touches ..)
    | with_reducible apply Touches.step (Block.setPort_touches ..)
    | with_reducible apply Touches.step (Block.hostReceive_touches ..)
    | with_reducible apply Touches.step (Block.count_touches ..)
    | split
    | with_reducible refine Touches.snd (by assumption) ?_
    | with_reducible refine Touches.fst (by assumption) ?_
    | (clear_value *; split)
    | dsimp only

theorem Block.forward_touches (b) (x1) (x2) : Touches [.vis, .prt] b (Block.forward b x1 x2) := by
  unfold Block.forward
  repeat' first
    | with_reducible assumption
    | with_reducible exact Touches.refl
    | exact rfl
    | (intro x
       refine Touches.mid (show Touches [.vis, .prt] b x from ?_) (fun h => ?_)
       all_goals first | (with_reducible have h0 : Touches [.vis, .prt] b x := h; clear h0; clear_value x) | subst x)
    | intro _
    | lift_lets
    | with_reducible refine Touches.ite ?_ ?_
    | with_reducible apply Touches.step (Block.enqueue_touches ..)
    | with_reducible apply Touches.step (Block.count_touches ..)
    | split
    | with_reducible refine Touches.snd (by assumption) ?_
    | with_reducible refine Touches.fst (by assumption) ?_
    | (clear_value *; split)
    | dsimp only

theorem Block.frameReceive_touches (b) (x1) (x2) : Touches [.vis, .resp, .rep, .cells, .poison, .evr, .tim, .que, .prt] b (Block.frameReceive b x1 x2) := by
  unfold Block.frameReceive
  repeat' first
    | with_reducible assumption
    | with_reducible exact Touches.refl
    | exact rfl
    | (intro x
       refine Touches.mid (show Touches [.vis, .resp, .rep, .cells, .poison, .evr, .tim, .que, .prt] b x from ?_) (fun h => ?_)
       all_goals first | (with_reducible have h0 : Touches [.vis, .resp, .rep, .cells, .poison, .evr, .tim, .que, .prt] b x := h; clear h0; clear_value x) | subst x)
    | intro _
    | lift_lets
    | with_reducible refine Touches.ite ?_ ?_
    | with_reducible apply Touches.step (Block.eventRep_touches ..)
    | with_reducible apply Touches.step (Block.count_touches ..)
    | with_reducible apply Touches.step (Block.setPort_touches ..)
    | with_reducible apply Touches.step (Block.forward_touches ..)
    | with_reducible apply Touches.step (Block.deliver_touches ..)
    | split
    | with_reducible refine Touches.snd (by assumption) ?_
    | with_reducible refine Touches.fst (by assumption) ?_
    | (clear_value *; split)
    | dsimp only

end Sys2Proof.Machine
end

