-- ==== Sys2Proof/Laws/TouchRecOps.lean ====
section
/-! SUPPORT. What the operations of Machine/RecOps.lean touch. -/

namespace Sys2Proof.Machine

set_option linter.all false

theorem Block.setRing_touches (b) (x1) (x2) : Touches [.aln] b (Block.setRing b x1 x2) := by
  unfold Block.setRing
  repeat' first
    | with_reducible assumption
    | with_reducible exact Touches.refl
    | exact rfl
    | (intro x
       refine Touches.mid (show Touches [.aln] b x from ?_) (fun h => ?_)
       all_goals first | (with_reducible have h0 : Touches [.aln] b x := h; clear h0; clear_value x) | subst x)
    | intro _
    | lift_lets
    | with_reducible refine Touches.ite ?_ ?_
    | ((with_reducible apply Touches.set_aln) <;> first | with_reducible assumption | with_reducible exact Touches.refl | exact rfl | with_reducible refine Touches.snd (by assumption) ?_)
    | split
    | with_reducible refine Touches.snd (by assumption) ?_
    | with_reducible refine Touches.fst (by assumption) ?_
    | (clear_value *; split)
    | dsimp only

theorem Block.setBasin_touches (b) (x1) (x2) (x3) : Touches [.aln] b (Block.setBasin b x1 x2 x3) := by
  unfold Block.setBasin
  repeat' first
    | with_reducible assumption
    | with_reducible exact Touches.refl
    | exact rfl
    | (intro x
       refine Touches.mid (show Touches [.aln] b x from ?_) (fun h => ?_)
       all_goals first | (with_reducible have h0 : Touches [.aln] b x := h; clear h0; clear_value x) | subst x)
    | intro _
    | lift_lets
    | with_reducible refine Touches.ite ?_ ?_
    | with_reducible apply Touches.step (Block.setRing_touches ..)
    | split
    | with_reducible refine Touches.snd (by assumption) ?_
    | with_reducible refine Touches.fst (by assumption) ?_
    | (clear_value *; split)
    | dsimp only

theorem Block.bmpWritten_touches (b) (x1) (x2) (x3) (x4) : Touches [.poison] b (Block.bmpWritten b x1 x2 x3 x4) := by
  unfold Block.bmpWritten
  repeat' first
    | with_reducible assumption
    | with_reducible exact Touches.refl
    | exact rfl
    | (intro x
       refine Touches.mid (show Touches [.poison] b x from ?_) (fun h => ?_)
       all_goals first | (with_reducible have h0 : Touches [.poison] b x := h; clear h0; clear_value x) | subst x)
    | intro _
    | lift_lets
    | with_reducible refine Touches.ite ?_ ?_
    | with_reducible apply Touches.step (Block.sramWrite_touches ..)
    | split
    | with_reducible refine Touches.snd (by assumption) ?_
    | with_reducible refine Touches.fst (by assumption) ?_
    | (clear_value *; split)
    | dsimp only

theorem Block.setAlnCtx_touches (b) (x1) (x2) : Touches [.aln] b (Block.setAlnCtx b x1 x2) := by
  unfold Block.setAlnCtx
  repeat' first
    | with_reducible assumption
    | with_reducible exact Touches.refl
    | exact rfl
    | (intro x
       refine Touches.mid (show Touches [.aln] b x from ?_) (fun h => ?_)
       all_goals first | (with_reducible have h0 : Touches [.aln] b x := h; clear h0; clear_value x) | subst x)
    | intro _
    | lift_lets
    | with_reducible refine Touches.ite ?_ ?_
    | ((with_reducible apply Touches.set_aln) <;> first | with_reducible assumption | with_reducible exact Touches.refl | exact rfl | with_reducible refine Touches.snd (by assumption) ?_)
    | split
    | with_reducible refine Touches.snd (by assumption) ?_
    | with_reducible refine Touches.fst (by assumption) ?_
    | (clear_value *; split)
    | dsimp only

theorem Block.tooLate_touches (b) (x1) : Touches [.vis, .rep, .evr] b (Block.tooLate b x1) := by
  unfold Block.tooLate
  repeat' first
    | with_reducible assumption
    | with_reducible exact Touches.refl
    | exact rfl
    | (intro x
       refine Touches.mid (show Touches [.vis, .rep, .evr] b x from ?_) (fun h => ?_)
       all_goals first | (with_reducible have h0 : Touches [.vis, .rep, .evr] b x := h; clear h0; clear_value x) | subst x)
    | intro _
    | lift_lets
    | with_reducible refine Touches.ite ?_ ?_
    | with_reducible apply Touches.step (Block.eventRep_touches ..)
    | with_reducible apply Touches.step (Block.irq_touches ..)
    | with_reducible apply Touches.step (Block.count_touches ..)
    | split
    | with_reducible refine Touches.snd (by assumption) ?_
    | with_reducible refine Touches.fst (by assumption) ?_
    | (clear_value *; split)
    | dsimp only

theorem Block.duplicate_touches (b) (x1) (x2) (x3) : Touches [.vis, .rep, .evr, .aln] b (Block.duplicate b x1 x2 x3) := by
  unfold Block.duplicate
  repeat' first
    | with_reducible assumption
    | with_reducible exact Touches.refl
    | exact rfl
    | (intro x
       refine Touches.mid (show Touches [.vis, .rep, .evr, .aln] b x from ?_) (fun h => ?_)
       all_goals first | (with_reducible have h0 : Touches [.vis, .rep, .evr, .aln] b x := h; clear h0; clear_value x) | subst x)
    | intro _
    | lift_lets
    | with_reducible refine Touches.ite ?_ ?_
    | with_reducible apply Touches.step (Block.eventRep_touches ..)
    | with_reducible apply Touches.step (Block.count_touches ..)
    | with_reducible apply Touches.step (Block.setBasin_touches ..)
    | split
    | with_reducible refine Touches.snd (by assumption) ?_
    | with_reducible refine Touches.fst (by assumption) ?_
    | (clear_value *; split)
    | dsimp only

theorem Block.featWrite_touches (b) (x1) (x2) (x3) (x4) : Touches [.cells, .poison, .aln] b (Block.featWrite b x1 x2 x3 x4) := by
  unfold Block.featWrite
  repeat' first
    | with_reducible assumption
    | with_reducible exact Touches.refl
    | exact rfl
    | (intro x
       refine Touches.mid (show Touches [.cells, .poison, .aln] b x from ?_) (fun h => ?_)
       all_goals first | (with_reducible have h0 : Touches [.cells, .poison, .aln] b x := h; clear h0; clear_value x) | subst x)
    | intro _
    | lift_lets
    | with_reducible refine Touches.ite ?_ ?_
    | with_reducible apply Touches.step (Block.store_touches ..)
    | ((with_reducible apply Touches.set_aln) <;> first | with_reducible assumption | with_reducible exact Touches.refl | exact rfl | with_reducible refine Touches.snd (by assumption) ?_)
    | split
    | with_reducible refine Touches.snd (by assumption) ?_
    | with_reducible refine Touches.fst (by assumption) ?_
    | (clear_value *; split)
    | dsimp only

theorem Block.claimRecord_touches (b) (x1) (x2) (x3) (x4) (x5) (x6) (x7) : Touches [.cells, .poison, .aln] b (Block.claimRecord b x1 x2 x3 x4 x5 x6 x7) := by
  unfold Block.claimRecord
  repeat' first
    | with_reducible assumption
    | with_reducible exact Touches.refl
    | exact rfl
    | (intro x
       refine Touches.mid (show Touches [.cells, .poison, .aln] b x from ?_) (fun h => ?_)
       all_goals first | (with_reducible have h0 : Touches [.cells, .poison, .aln] b x := h; clear h0; clear_value x) | subst x)
    | intro _
    | lift_lets
    | with_reducible refine Touches.ite ?_ ?_
    | with_reducible apply Touches.step (Block.store_touches ..)
    | with_reducible apply Touches.step (Block.featWrite_touches ..)
    | ((with_reducible apply Touches.set_aln) <;> first | with_reducible assumption | with_reducible exact Touches.refl | exact rfl | with_reducible refine Touches.snd (by assumption) ?_)
    | split
    | with_reducible refine Touches.snd (by assumption) ?_
    | with_reducible refine Touches.fst (by assumption) ?_
    | (clear_value *; split)
    | dsimp only

end Sys2Proof.Machine
end

