-- ==== Sys2Proof/Laws/TouchStrOps.lean ====
section
/-! SUPPORT. What the operations of Machine/StrOps.lean touch. -/

namespace Sys2Proof.Machine

set_option linter.all false

theorem Block.excItem_touches (b) (x1) (x2) (x3) : Touches [.vis, .resp, .rep, .poison, .evr, .que] b (Block.excItem b x1 x2 x3) := by
  unfold Block.excItem
  repeat' first
    | with_reducible assumption
    | with_reducible exact Touches.refl
    | exact rfl
    | (intro x
       refine Touches.mid (show Touches [.vis, .resp, .rep, .poison, .evr, .que] b x from ?_) (fun h => ?_)
       all_goals first | (with_reducible have h0 : Touches [.vis, .resp, .rep, .poison, .evr, .que] b x := h; clear h0; clear_value x) | subst x)
    | intro _
    | lift_lets
    | with_reducible refine Touches.ite ?_ ?_
    | with_reducible apply Touches.step (Block.push_touches ..)
    | split
    | with_reducible refine Touches.snd (by assumption) ?_
    | with_reducible refine Touches.fst (by assumption) ?_
    | (clear_value *; split)
    | dsimp only

theorem Block.exception_touches (b) (x1) (x2) (x3) : Touches [.vis, .resp, .rep, .cells, .poison, .evr, .que, .str] b (Block.exception b x1 x2 x3) := by
  unfold Block.exception
  repeat' first
    | with_reducible assumption
    | with_reducible exact Touches.refl
    | exact rfl
    | (intro x
       refine Touches.mid (show Touches [.vis, .resp, .rep, .cells, .poison, .evr, .que, .str] b x from ?_) (fun h => ?_)
       all_goals first | (with_reducible have h0 : Touches [.vis, .resp, .rep, .cells, .poison, .evr, .que, .str] b x := h; clear h0; clear_value x) | subst x)
    | intro _
    | lift_lets
    | with_reducible refine Touches.ite ?_ ?_
    | with_reducible apply Touches.step (Block.count_touches ..)
    | with_reducible apply Touches.step (Block.irq_touches ..)
    | with_reducible apply Touches.step (Block.eventRep_touches ..)
    | with_reducible apply Touches.step (Block.store_touches ..)
    | with_reducible apply Touches.step (Block.excItem_touches ..)
    | with_reducible apply Touches.step (Block.setVis_touches ..)
    | ((with_reducible apply Touches.set_str) <;> first | with_reducible assumption | with_reducible exact Touches.refl | exact rfl | with_reducible refine Touches.snd (by assumption) ?_)
    | split
    | with_reducible refine Touches.snd (by assumption) ?_
    | with_reducible refine Touches.fst (by assumption) ?_
    | (clear_value *; split)
    | dsimp only

theorem Block.cfgNotice_touches (b) (x1) : Touches [.vis, .resp, .rep, .poison, .evr, .que, .str] b (Block.cfgNotice b x1) := by
  unfold Block.cfgNotice
  repeat' first
    | with_reducible assumption
    | with_reducible exact Touches.refl
    | exact rfl
    | (intro x
       refine Touches.mid (show Touches [.vis, .resp, .rep, .poison, .evr, .que, .str] b x from ?_) (fun h => ?_)
       all_goals first | (with_reducible have h0 : Touches [.vis, .resp, .rep, .poison, .evr, .que, .str] b x := h; clear h0; clear_value x) | subst x)
    | intro _
    | lift_lets
    | with_reducible refine Touches.ite ?_ ?_
    | with_reducible apply Touches.step (Block.eventRep_touches ..)
    | with_reducible apply Touches.step (Block.count_touches ..)
    | with_reducible apply Touches.step (Block.excItem_touches ..)
    | ((with_reducible apply Touches.set_str) <;> first | with_reducible assumption | with_reducible exact Touches.refl | exact rfl | with_reducible refine Touches.snd (by assumption) ?_)
    | split
    | with_reducible refine Touches.snd (by assumption) ?_
    | with_reducible refine Touches.fst (by assumption) ?_
    | (clear_value *; split)
    | dsimp only

theorem Block.recordWritten_touches (b) (x1) : Touches [.vis, .resp, .rep, .poison, .evr, .que, .str] b (Block.recordWritten b x1) := by
  unfold Block.recordWritten
  repeat' first
    | with_reducible assumption
    | with_reducible exact Touches.refl
    | exact rfl
    | (intro x
       refine Touches.mid (show Touches [.vis, .resp, .rep, .poison, .evr, .que, .str] b x from ?_) (fun h => ?_)
       all_goals first | (with_reducible have h0 : Touches [.vis, .resp, .rep, .poison, .evr, .que, .str] b x := h; clear h0; clear_value x) | subst x)
    | intro _
    | lift_lets
    | with_reducible refine Touches.ite ?_ ?_
    | with_reducible apply Touches.step (Block.count_touches ..)
    | with_reducible apply Touches.step (Block.cfgNotice_touches ..)
    | with_reducible apply Touches.step (Block.setVis_touches ..)
    | split
    | with_reducible refine Touches.snd (by assumption) ?_
    | with_reducible refine Touches.fst (by assumption) ?_
    | (clear_value *; split)
    | dsimp only

theorem Block.casTooLate_touches (b) (x1) : Touches [.vis, .rep, .evr] b (Block.casTooLate b x1) := by
  unfold Block.casTooLate
  repeat' first
    | with_reducible assumption
    | with_reducible exact Touches.refl
    | exact rfl
    | (intro x
       refine Touches.mid (show Touches [.vis, .rep, .evr] b x from ?_) (fun h => ?_)
       all_goals first | (with_reducible have h0 : Touches [.vis, .rep, .evr] b x := h; clear h0; clear_value x) | subst x)
    | intro _
    | lift_lets
    | with_reducible refine Touches.ite ?_ ?_
    | with_reducible apply Touches.step (Block.eventRep_touches ..)
    | with_reducible apply Touches.step (Block.count_touches ..)
    | split
    | with_reducible refine Touches.snd (by assumption) ?_
    | with_reducible refine Touches.fst (by assumption) ?_
    | (clear_value *; split)
    | dsimp only

theorem Block.offerEarly_touches (b) (x1) : Touches [.vis, .rep, .evr] b (Block.offerEarly b x1) := by
  unfold Block.offerEarly
  repeat' first
    | with_reducible assumption
    | with_reducible exact Touches.refl
    | exact rfl
    | (intro x
       refine Touches.mid (show Touches [.vis, .rep, .evr] b x from ?_) (fun h => ?_)
       all_goals first | (with_reducible have h0 : Touches [.vis, .rep, .evr] b x := h; clear h0; clear_value x) | subst x)
    | intro _
    | lift_lets
    | with_reducible refine Touches.ite ?_ ?_
    | with_reducible apply Touches.step (Block.casTooLate_touches ..)
    | with_reducible apply Touches.step (Block.count_touches ..)
    | split
    | with_reducible refine Touches.snd (by assumption) ?_
    | with_reducible refine Touches.fst (by assumption) ?_
    | (clear_value *; split)
    | dsimp only

theorem Block.offerNow_touches (b) (x1) : Touches [.vis, .resp, .rep, .cells, .poison, .evr, .aln, .que, .str] b (Block.offerNow b x1) := by
  unfold Block.offerNow
  repeat' first
    | with_reducible assumption
    | with_reducible exact Touches.refl
    | exact rfl
    | (intro x
       refine Touches.mid (show Touches [.vis, .resp, .rep, .cells, .poison, .evr, .aln, .que, .str] b x from ?_) (fun h => ?_)
       all_goals first | (with_reducible have h0 : Touches [.vis, .resp, .rep, .cells, .poison, .evr, .aln, .que, .str] b x := h; clear h0; clear_value x) | subst x)
    | intro _
    | lift_lets
    | with_reducible refine Touches.ite ?_ ?_
    | with_reducible apply Touches.step (Block.offerEarly_touches ..)
    | with_reducible apply Touches.step (Block.tooLate_touches ..)
    | with_reducible apply Touches.step (Block.duplicate_touches ..)
    | with_reducible apply Touches.step (Block.claimRecord_touches ..)
    | with_reducible apply Touches.step (Block.recordWritten_touches ..)
    | split
    | with_reducible refine Touches.snd (by assumption) ?_
    | with_reducible refine Touches.fst (by assumption) ?_
    | (clear_value *; split)
    | dsimp only

theorem Block.offerAll_touches (b) (x1) : Touches [.vis, .resp, .rep, .cells, .poison, .evr, .aln, .que, .str] b (Block.offerAll b x1) := by
  induction x1 generalizing b with
  | nil => exact Touches.set_str _ Touches.refl rfl
  | cons o r ih =>
    unfold Block.offerAll
    split
    · exact Touches.set_str _ Touches.refl rfl
    · exact Touches.trans (Touches.weaken (Block.offerNow_touches ..) rfl) (ih _) rfl

theorem Block.offer_touches (b) (x1) : Touches [.vis, .resp, .rep, .cells, .poison, .evr, .aln, .que, .str] b (Block.offer b x1) := by
  unfold Block.offer
  repeat' first
    | with_reducible assumption
    | with_reducible exact Touches.refl
    | exact rfl
    | (intro x
       refine Touches.mid (show Touches [.vis, .resp, .rep, .cells, .poison, .evr, .aln, .que, .str] b x from ?_) (fun h => ?_)
       all_goals first | (with_reducible have h0 : Touches [.vis, .resp, .rep, .cells, .poison, .evr, .aln, .que, .str] b x := h; clear h0; clear_value x) | subst x)
    | intro _
    | lift_lets
    | with_reducible refine Touches.ite ?_ ?_
    | with_reducible apply Touches.step (Block.offerAll_touches ..)
    | split
    | with_reducible refine Touches.snd (by assumption) ?_
    | with_reducible refine Touches.fst (by assumption) ?_
    | (clear_value *; split)
    | dsimp only

theorem Block.offerWaiting_touches (b) : Touches [.vis, .resp, .rep, .cells, .poison, .evr, .aln, .que, .str] b (Block.offerWaiting b) := by
  unfold Block.offerWaiting
  repeat' first
    | with_reducible assumption
    | with_reducible exact Touches.refl
    | exact rfl
    | (intro x
       refine Touches.mid (show Touches [.vis, .resp, .rep, .cells, .poison, .evr, .aln, .que, .str] b x from ?_) (fun h => ?_)
       all_goals first | (with_reducible have h0 : Touches [.vis, .resp, .rep, .cells, .poison, .evr, .aln, .que, .str] b x := h; clear h0; clear_value x) | subst x)
    | intro _
    | lift_lets
    | with_reducible refine Touches.ite ?_ ?_
    | with_reducible apply Touches.step (Block.offerAll_touches ..)
    | split
    | with_reducible refine Touches.snd (by assumption) ?_
    | with_reducible refine Touches.fst (by assumption) ?_
    | (clear_value *; split)
    | dsimp only

theorem Block.sampleIn_touches (b) (x1) (x2) : Touches [.vis, .resp, .rep, .cells, .poison, .evr, .aln, .que, .str] b (Block.sampleIn b x1 x2).1 := by
  unfold Block.sampleIn
  repeat' first
    | with_reducible assumption
    | with_reducible exact Touches.refl
    | exact rfl
    | (intro x
       refine Touches.mid (show Touches [.vis, .resp, .rep, .cells, .poison, .evr, .aln, .que, .str] b x from ?_) (fun h => ?_)
       all_goals first | (with_reducible have h0 : Touches [.vis, .resp, .rep, .cells, .poison, .evr, .aln, .que, .str] b x := h; clear h0; clear_value x) | subst x)
    | intro _
    | lift_lets
    | with_reducible refine Touches.ite ?_ ?_
    | with_reducible apply Touches.step (Block.count_touches ..)
    | with_reducible apply Touches.step (Block.eventRep_touches ..)
    | with_reducible apply Touches.step (Block.offer_touches ..)
    | split
    | with_reducible refine Touches.snd (by assumption) ?_
    | with_reducible refine Touches.fst (by assumption) ?_
    | (clear_value *; split)
    | dsimp only

theorem Block.c37Block_touches (b) (x1) (x2) (x3) (x4) (x5) (x6) : Touches [.vis, .resp, .rep, .cells, .poison, .evr, .aln, .que, .str] b (Block.c37Block b x1 x2 x3 x4 x5 x6).1 := by
  unfold Block.c37Block
  repeat' first
    | with_reducible assumption
    | with_reducible exact Touches.refl
    | exact rfl
    | (intro x
       refine Touches.mid (show Touches [.vis, .resp, .rep, .cells, .poison, .evr, .aln, .que, .str] b x from ?_) (fun h => ?_)
       all_goals first | (with_reducible have h0 : Touches [.vis, .resp, .rep, .cells, .poison, .evr, .aln, .que, .str] b x := h; clear h0; clear_value x) | subst x)
    | intro _
    | lift_lets
    | with_reducible refine Touches.ite ?_ ?_
    | with_reducible apply Touches.step (Block.count_touches ..)
    | with_reducible apply Touches.step (Block.sampleIn_touches ..)
    | split
    | with_reducible refine Touches.snd (by assumption) ?_
    | with_reducible refine Touches.fst (by assumption) ?_
    | (clear_value *; split)
    | dsimp only

theorem Block.c37Blocks_touches (b) (x1) (x2) (x3) (x4) (x5) (x6) : Touches [.vis, .resp, .rep, .cells, .poison, .evr, .aln, .que, .str] b (Block.c37Blocks b x1 x2 x3 x4 x5 x6).1 := by
  induction x1 generalizing b x2 with
  | nil => exact Touches.refl
  | cons c r ih =>
    unfold Block.c37Blocks
    exact (Touches.refl.trans (Block.c37Block_touches ..) rfl).trans (ih ..) rfl

theorem Block.c37Format_touches (b) (x1) : Touches [.vis] b (Block.c37Format b x1) := by
  unfold Block.c37Format
  repeat' first
    | with_reducible assumption
    | with_reducible exact Touches.refl
    | exact rfl
    | (intro x
       refine Touches.mid (show Touches [.vis] b x from ?_) (fun h => ?_)
       all_goals first | (with_reducible have h0 : Touches [.vis] b x := h; clear h0; clear_value x) | subst x)
    | intro _
    | lift_lets
    | with_reducible refine Touches.ite ?_ ?_
    | with_reducible apply Touches.step (Block.count_touches ..)
    | with_reducible refine Touches.fold ?_ (fun _ _ _ => ?_)
    | split
    | with_reducible refine Touches.snd (by assumption) ?_
    | with_reducible refine Touches.fst (by assumption) ?_
    | with_reducible refine Touches.fold1 ?_ (fun _ _ _ => ?_)
    | with_reducible refine Touches.fold2 ?_ (fun _ _ _ => ?_)
    | (clear_value *; split)
    | dsimp only

theorem Block.unmatched_touches (b) (x1) : Touches [.vis, .resp, .rep, .cells, .poison, .evr, .que, .str] b (Block.unmatched b x1) := by
  unfold Block.unmatched
  repeat' first
    | with_reducible assumption
    | with_reducible exact Touches.refl
    | exact rfl
    | (intro x
       refine Touches.mid (show Touches [.vis, .resp, .rep, .cells, .poison, .evr, .que, .str] b x from ?_) (fun h => ?_)
       all_goals first | (with_reducible have h0 : Touches [.vis, .resp, .rep, .cells, .poison, .evr, .que, .str] b x := h; clear h0; clear_value x) | subst x)
    | intro _
    | lift_lets
    | with_reducible refine Touches.ite ?_ ?_
    | with_reducible apply Touches.step (Block.exception_touches ..)
    | with_reducible apply Touches.step (Block.eventRep_touches ..)
    | with_reducible apply Touches.step (Block.irq_touches ..)
    | with_reducible apply Touches.step (Block.count_touches ..)
    | split
    | with_reducible refine Touches.snd (by assumption) ?_
    | with_reducible refine Touches.fst (by assumption) ?_
    | (clear_value *; split)
    | dsimp only

theorem Block.c37In_touches (b) (x1) (x2) : Touches [.vis, .resp, .rep, .cells, .poison, .evr, .aln, .que, .str] b (Block.c37In b x1 x2) := by
  unfold Block.c37In
  repeat' first
    | with_reducible assumption
    | with_reducible exact Touches.refl
    | exact rfl
    | (intro x
       refine Touches.mid (show Touches [.vis, .resp, .rep, .cells, .poison, .evr, .aln, .que, .str] b x from ?_) (fun h => ?_)
       all_goals first | (with_reducible have h0 : Touches [.vis, .resp, .rep, .cells, .poison, .evr, .aln, .que, .str] b x := h; clear h0; clear_value x) | subst x)
    | intro _
    | lift_lets
    | with_reducible refine Touches.ite ?_ ?_
    | with_reducible apply Touches.step (Block.exception_touches ..)
    | with_reducible apply Touches.step (Block.count_touches ..)
    | with_reducible apply Touches.step (Block.unmatched_touches ..)
    | with_reducible apply Touches.step (Block.c37Format_touches ..)
    | with_reducible apply Touches.step (Block.c37Blocks_touches ..)
    | with_reducible refine Touches.fold ?_ (fun _ _ _ => ?_)
    | split
    | with_reducible refine Touches.snd (by assumption) ?_
    | with_reducible refine Touches.fst (by assumption) ?_
    | with_reducible refine Touches.fold1 ?_ (fun _ _ _ => ?_)
    | with_reducible refine Touches.fold2 ?_ (fun _ _ _ => ?_)
    | (clear_value *; split)
    | dsimp only

theorem Block.asduIn_touches (b) (x1) (x2) (x3) (x4) (x5) : Touches [.vis, .resp, .rep, .cells, .poison, .evr, .aln, .que, .str] b (Block.asduIn b x1 x2 x3 x4 x5).1 := by
  unfold Block.asduIn
  repeat' first
    | with_reducible assumption
    | with_reducible exact Touches.refl
    | exact rfl
    | (intro x
       refine Touches.mid (show Touches [.vis, .resp, .rep, .cells, .poison, .evr, .aln, .que, .str] b x from ?_) (fun h => ?_)
       all_goals first | (with_reducible have h0 : Touches [.vis, .resp, .rep, .cells, .poison, .evr, .aln, .que, .str] b x := h; clear h0; clear_value x) | subst x)
    | intro _
    | lift_lets
    | with_reducible refine Touches.ite ?_ ?_
    | with_reducible apply Touches.step (Block.count_touches ..)
    | with_reducible apply Touches.step (Block.eventRep_touches ..)
    | with_reducible apply Touches.step (Block.irq_touches ..)
    | with_reducible apply Touches.step (Block.sampleIn_touches ..)
    | split
    | with_reducible refine Touches.snd (by assumption) ?_
    | with_reducible refine Touches.fst (by assumption) ?_
    | (clear_value *; split)
    | dsimp only

theorem Block.rsvIn_touches (b) (x1) (x2) (x3) : Touches [.vis, .resp, .rep, .cells, .poison, .evr, .aln, .que, .str] b (Block.rsvIn b x1 x2 x3) := by
  unfold Block.rsvIn
  repeat' first
    | with_reducible assumption
    | with_reducible exact Touches.refl
    | exact rfl
    | (intro x
       refine Touches.mid (show Touches [.vis, .resp, .rep, .cells, .poison, .evr, .aln, .que, .str] b x from ?_) (fun h => ?_)
       all_goals first | (with_reducible have h0 : Touches [.vis, .resp, .rep, .cells, .poison, .evr, .aln, .que, .str] b x := h; clear h0; clear_value x) | subst x)
    | intro _
    | lift_lets
    | with_reducible refine Touches.ite ?_ ?_
    | with_reducible apply Touches.step (Block.exception_touches ..)
    | with_reducible apply Touches.step (Block.count_touches ..)
    | with_reducible apply Touches.step (Block.setVis_touches ..)
    | with_reducible apply Touches.step (Block.eventRep_touches ..)
    | with_reducible apply Touches.step (Block.engineRewrite_touches ..)
    | with_reducible apply Touches.step (Block.unmatched_touches ..)
    | with_reducible apply Touches.step (Block.asduIn_touches ..)
    | ((with_reducible apply Touches.set_str) <;> first | with_reducible assumption | with_reducible exact Touches.refl | exact rfl | with_reducible refine Touches.snd (by assumption) ?_)
    | with_reducible refine Touches.fold ?_ (fun _ _ _ => ?_)
    | split
    | with_reducible refine Touches.snd (by assumption) ?_
    | with_reducible refine Touches.fst (by assumption) ?_
    | with_reducible refine Touches.fold1 ?_ (fun _ _ _ => ?_)
    | with_reducible refine Touches.fold2 ?_ (fun _ _ _ => ?_)
    | (clear_value *; split)
    | dsimp only

theorem Block.datagramIn_touches (b) (x1) (x2) (x3) (x4) (x5) (x6) (x7) (x8) : Touches [.vis, .resp, .rep, .cells, .poison, .evr, .aln, .que, .str] b (Block.datagramIn b x1 x2 x3 x4 x5 x6 x7 x8) := by
  unfold Block.datagramIn
  repeat' first
    | with_reducible assumption
    | with_reducible exact Touches.refl
    | exact rfl
    | (intro x
       refine Touches.mid (show Touches [.vis, .resp, .rep, .cells, .poison, .evr, .aln, .que, .str] b x from ?_) (fun h => ?_)
       all_goals first | (with_reducible have h0 : Touches [.vis, .resp, .rep, .cells, .poison, .evr, .aln, .que, .str] b x := h; clear h0; clear_value x) | subst x)
    | intro _
    | lift_lets
    | with_reducible refine Touches.ite ?_ ?_
    | with_reducible apply Touches.step (Block.c37In_touches ..)
    | with_reducible apply Touches.step (Block.rsvIn_touches ..)
    | split
    | with_reducible refine Touches.snd (by assumption) ?_
    | with_reducible refine Touches.fst (by assumption) ?_
    | (clear_value *; split)
    | dsimp only

theorem Block.reasmEvent_touches (b) (x1) (x2) : Touches [.vis, .rep, .evr] b (Block.reasmEvent b x1 x2) := by
  unfold Block.reasmEvent
  repeat' first
    | with_reducible assumption
    | with_reducible exact Touches.refl
    | exact rfl
    | (intro x
       refine Touches.mid (show Touches [.vis, .rep, .evr] b x from ?_) (fun h => ?_)
       all_goals first | (with_reducible have h0 : Touches [.vis, .rep, .evr] b x := h; clear h0; clear_value x) | subst x)
    | intro _
    | lift_lets
    | with_reducible refine Touches.ite ?_ ?_
    | with_reducible apply Touches.step (Block.eventRep_touches ..)
    | with_reducible apply Touches.step (Block.irq_touches ..)
    | with_reducible apply Touches.step (Block.count_touches ..)
    | split
    | with_reducible refine Touches.snd (by assumption) ?_
    | with_reducible refine Touches.fst (by assumption) ?_
    | (clear_value *; split)
    | dsimp only

theorem Block.reasmDrop_touches (b) (x1) (x2) : Touches [.vis, .rep, .evr, .str] b (Block.reasmDrop b x1 x2) := by
  unfold Block.reasmDrop
  repeat' first
    | with_reducible assumption
    | with_reducible exact Touches.refl
    | exact rfl
    | (intro x
       refine Touches.mid (show Touches [.vis, .rep, .evr, .str] b x from ?_) (fun h => ?_)
       all_goals first | (with_reducible have h0 : Touches [.vis, .rep, .evr, .str] b x := h; clear h0; clear_value x) | subst x)
    | intro _
    | lift_lets
    | with_reducible refine Touches.ite ?_ ?_
    | with_reducible apply Touches.step (Block.reasmEvent_touches ..)
    | ((with_reducible apply Touches.set_str) <;> first | with_reducible assumption | with_reducible exact Touches.refl | exact rfl | with_reducible refine Touches.snd (by assumption) ?_)
    | split
    | with_reducible refine Touches.snd (by assumption) ?_
    | with_reducible refine Touches.fst (by assumption) ?_
    | (clear_value *; split)
    | dsimp only

theorem Block.fragmentIn_touches (b) (x1) (x2) (x3) (x4) (x5) : Touches [.vis, .resp, .rep, .cells, .poison, .evr, .aln, .que, .str] b (Block.fragmentIn b x1 x2 x3 x4 x5) := by
  unfold Block.fragmentIn
  repeat' first
    | with_reducible assumption
    | with_reducible exact Touches.refl
    | exact rfl
    | (intro x
       refine Touches.mid (show Touches [.vis, .resp, .rep, .cells, .poison, .evr, .aln, .que, .str] b x from ?_) (fun h => ?_)
       all_goals first | (with_reducible have h0 : Touches [.vis, .resp, .rep, .cells, .poison, .evr, .aln, .que, .str] b x := h; clear h0; clear_value x) | subst x)
    | intro _
    | lift_lets
    | with_reducible refine Touches.ite ?_ ?_
    | with_reducible apply Touches.step (Block.reasmDrop_touches ..)
    | with_reducible apply Touches.step (Block.reasmEvent_touches ..)
    | with_reducible apply Touches.step (Block.datagramIn_touches ..)
    | ((with_reducible apply Touches.set_str) <;> first | with_reducible assumption | with_reducible exact Touches.refl | exact rfl | with_reducible refine Touches.snd (by assumption) ?_)
    | with_reducible refine Touches.fold ?_ (fun _ _ _ => ?_)
    | split
    | with_reducible refine Touches.snd (by assumption) ?_
    | with_reducible refine Touches.fst (by assumption) ?_
    | with_reducible refine Touches.fold1 ?_ (fun _ _ _ => ?_)
    | with_reducible refine Touches.fold2 ?_ (fun _ _ _ => ?_)
    | with_reducible refine Touches.getD (fun _ _ => ?_) ?_
    | (clear_value *; split)
    | dsimp only

theorem Block.streamIngest_touches (b) (x1) (x2) (x3) : Touches [.vis, .resp, .rep, .cells, .poison, .evr, .aln, .que, .prt, .str] b (Block.streamIngest b x1 x2 x3) := by
  unfold Block.streamIngest
  repeat' first
    | with_reducible assumption
    | with_reducible exact Touches.refl
    | exact rfl
    | (intro x
       refine Touches.mid (show Touches [.vis, .resp, .rep, .cells, .poison, .evr, .aln, .que, .prt, .str] b x from ?_) (fun h => ?_)
       all_goals first | (with_reducible have h0 : Touches [.vis, .resp, .rep, .cells, .poison, .evr, .aln, .que, .prt, .str] b x := h; clear h0; clear_value x) | subst x)
    | intro _
    | lift_lets
    | with_reducible refine Touches.ite ?_ ?_
    | with_reducible apply Touches.step (Block.setPort_touches ..)
    | with_reducible apply Touches.step (Block.fragmentIn_touches ..)
    | with_reducible apply Touches.step (Block.datagramIn_touches ..)
    | split
    | with_reducible refine Touches.snd (by assumption) ?_
    | with_reducible refine Touches.fst (by assumption) ?_
    | (clear_value *; split)
    | dsimp only

theorem Block.reasmTimeout_touches (b) : Touches [.vis, .rep, .evr, .str] b (Block.reasmTimeout b) := by
  unfold Block.reasmTimeout
  repeat' first
    | with_reducible assumption
    | with_reducible exact Touches.refl
    | exact rfl
    | (intro x
       refine Touches.mid (show Touches [.vis, .rep, .evr, .str] b x from ?_) (fun h => ?_)
       all_goals first | (with_reducible have h0 : Touches [.vis, .rep, .evr, .str] b x := h; clear h0; clear_value x) | subst x)
    | intro _
    | lift_lets
    | with_reducible refine Touches.ite ?_ ?_
    | with_reducible apply Touches.step (Block.reasmDrop_touches ..)
    | with_reducible refine Touches.fold ?_ (fun _ _ _ => ?_)
    | split
    | with_reducible refine Touches.snd (by assumption) ?_
    | with_reducible refine Touches.fst (by assumption) ?_
    | with_reducible refine Touches.fold1 ?_ (fun _ _ _ => ?_)
    | with_reducible refine Touches.fold2 ?_ (fun _ _ _ => ?_)
    | (clear_value *; split)
    | dsimp only

theorem Block.injRefuse_touches (b) (x1) : Touches [.vis, .resp, .rep, .poison, .evr, .que] b (Block.injRefuse b x1) := by
  unfold Block.injRefuse
  repeat' first
    | with_reducible assumption
    | with_reducible exact Touches.refl
    | exact rfl
    | (intro x
       refine Touches.mid (show Touches [.vis, .resp, .rep, .poison, .evr, .que] b x from ?_) (fun h => ?_)
       all_goals first | (with_reducible have h0 : Touches [.vis, .resp, .rep, .poison, .evr, .que] b x := h; clear h0; clear_value x) | subst x)
    | intro _
    | lift_lets
    | with_reducible refine Touches.ite ?_ ?_
    | with_reducible apply Touches.step (Block.excItem_touches ..)
    | with_reducible apply Touches.step (Block.eventRep_touches ..)
    | with_reducible apply Touches.step (Block.irq_touches ..)
    | with_reducible apply Touches.step (Block.count_touches ..)
    | split
    | with_reducible refine Touches.snd (by assumption) ?_
    | with_reducible refine Touches.fst (by assumption) ?_
    | (clear_value *; split)
    | dsimp only

theorem Block.injFrame_touches (b) (x1) (x2) (x3) (x4) : Touches [.vis, .resp, .rep, .cells, .poison, .evr, .aln, .que, .str] b (Block.injFrame b x1 x2 x3 x4) := by
  unfold Block.injFrame
  repeat' first
    | with_reducible assumption
    | with_reducible exact Touches.refl
    | exact rfl
    | (intro x
       refine Touches.mid (show Touches [.vis, .resp, .rep, .cells, .poison, .evr, .aln, .que, .str] b x from ?_) (fun h => ?_)
       all_goals first | (with_reducible have h0 : Touches [.vis, .resp, .rep, .cells, .poison, .evr, .aln, .que, .str] b x := h; clear h0; clear_value x) | subst x)
    | intro _
    | lift_lets
    | with_reducible refine Touches.ite ?_ ?_
    | with_reducible apply Touches.step (Block.exception_touches ..)
    | with_reducible apply Touches.step (Block.count_touches ..)
    | with_reducible apply Touches.step (Block.c37Block_touches ..)
    | with_reducible apply Touches.step (Block.excItem_touches ..)
    | split
    | with_reducible refine Touches.snd (by assumption) ?_
    | with_reducible refine Touches.fst (by assumption) ?_
    | (clear_value *; split)
    | dsimp only

theorem Block.inject_touches (b) : Touches [.vis, .resp, .rep, .cells, .poison, .evr, .aln, .que, .str] b (Block.inject b) := by
  unfold Block.inject
  repeat' first
    | with_reducible assumption
    | with_reducible exact Touches.refl
    | exact rfl
    | (intro x
       refine Touches.mid (show Touches [.vis, .resp, .rep, .cells, .poison, .evr, .aln, .que, .str] b x from ?_) (fun h => ?_)
       all_goals first | (with_reducible have h0 : Touches [.vis, .resp, .rep, .cells, .poison, .evr, .aln, .que, .str] b x := h; clear h0; clear_value x) | subst x)
    | intro _
    | lift_lets
    | with_reducible refine Touches.ite ?_ ?_
    | with_reducible apply Touches.step (Block.setVis_touches ..)
    | with_reducible apply Touches.step (Block.injRefuse_touches ..)
    | with_reducible apply Touches.step (Block.injFrame_touches ..)
    | split
    | with_reducible refine Touches.snd (by assumption) ?_
    | with_reducible refine Touches.fst (by assumption) ?_
    | (clear_value *; split)
    | dsimp only

theorem Block.strReject_touches (b) (x1) : Touches [.vis, .rep, .evr] b (Block.strReject b x1) := by
  unfold Block.strReject
  repeat' first
    | with_reducible assumption
    | with_reducible exact Touches.refl
    | exact rfl
    | (intro x
       refine Touches.mid (show Touches [.vis, .rep, .evr] b x from ?_) (fun h => ?_)
       all_goals first | (with_reducible have h0 : Touches [.vis, .rep, .evr] b x := h; clear h0; clear_value x) | subst x)
    | intro _
    | lift_lets
    | with_reducible refine Touches.ite ?_ ?_
    | with_reducible apply Touches.step (Block.setBit_touches ..)
    | with_reducible apply Touches.step (Block.eventRep_touches ..)
    | with_reducible apply Touches.step (Block.irq_touches ..)
    | split
    | with_reducible refine Touches.snd (by assumption) ?_
    | with_reducible refine Touches.fst (by assumption) ?_
    | (clear_value *; split)
    | dsimp only

theorem Block.strHandover_touches (b) (x1) : Touches [.vis, .act, .com, .dirty, .rep, .evr] b (Block.strHandover b x1) := by
  unfold Block.strHandover
  repeat' first
    | with_reducible assumption
    | with_reducible exact Touches.refl
    | exact rfl
    | (intro x
       refine Touches.mid (show Touches [.vis, .act, .com, .dirty, .rep, .evr] b x from ?_) (fun h => ?_)
       all_goals first | (with_reducible have h0 : Touches [.vis, .act, .com, .dirty, .rep, .evr] b x := h; clear h0; clear_value x) | subst x)
    | intro _
    | lift_lets
    | with_reducible refine Touches.ite ?_ ?_
    | ((with_reducible apply Block.handover_step) <;> first | exact rfl | intro _ _ _ | skip)
    | with_reducible apply Touches.step (Block.strReject_touches ..)
    | split
    | with_reducible refine Touches.snd (by assumption) ?_
    | with_reducible refine Touches.fst (by assumption) ?_
    | (clear_value *; split)
    | dsimp only

end Sys2Proof.Machine
end

