-- ==== Sys2Proof/Laws/TouchOutOps.lean ====
section
/-! SUPPORT. What the operations of Machine/OutOps.lean touch. -/

namespace Sys2Proof.Machine

set_option linter.all false

theorem Block.outUdp_touches (b) (x1) (x2) : Touches [.vis, .prt, .out] b (Block.outUdp b x1 x2) := by
  unfold Block.outUdp
  repeat' first
    | with_reducible assumption
    | with_reducible exact Touches.refl
    | exact rfl
    | (intro x
       refine Touches.mid (show Touches [.vis, .prt, .out] b x from ?_) (fun h => ?_)
       all_goals first | (with_reducible have h0 : Touches [.vis, .prt, .out] b x := h; clear h0; clear_value x) | subst x)
    | intro _
    | lift_lets
    | with_reducible refine Touches.ite ?_ ?_
    | with_reducible apply Touches.step (Block.udpSend_touches ..)
    | ((with_reducible apply Touches.set_out) <;> first | with_reducible assumption | with_reducible exact Touches.refl | exact rfl | with_reducible refine Touches.snd (by assumption) ?_)
    | split
    | with_reducible refine Touches.snd (by assumption) ?_
    | with_reducible refine Touches.fst (by assumption) ?_
    | (clear_value *; split)
    | dsimp only

theorem Block.setSess_touches (b) (x1) (x2) : Touches [.out] b (Block.setSess b x1 x2) := by
  unfold Block.setSess
  repeat' first
    | with_reducible assumption
    | with_reducible exact Touches.refl
    | exact rfl
    | (intro x
       refine Touches.mid (show Touches [.out] b x from ?_) (fun h => ?_)
       all_goals first | (with_reducible have h0 : Touches [.out] b x := h; clear h0; clear_value x) | subst x)
    | intro _
    | lift_lets
    | with_reducible refine Touches.ite ?_ ?_
    | ((with_reducible apply Touches.set_out) <;> first | with_reducible assumption | with_reducible exact Touches.refl | exact rfl | with_reducible refine Touches.snd (by assumption) ?_)
    | split
    | with_reducible refine Touches.snd (by assumption) ?_
    | with_reducible refine Touches.fst (by assumption) ?_
    | (clear_value *; split)
    | dsimp only

theorem Block.sessPut_touches (b) (x1) (x2) (x3) : Touches [.cells, .poison] b (Block.sessPut b x1 x2 x3) := by
  unfold Block.sessPut
  repeat' first
    | with_reducible assumption
    | with_reducible exact Touches.refl
    | exact rfl
    | (intro x
       refine Touches.mid (show Touches [.cells, .poison] b x from ?_) (fun h => ?_)
       all_goals first | (with_reducible have h0 : Touches [.cells, .poison] b x := h; clear h0; clear_value x) | subst x)
    | intro _
    | lift_lets
    | with_reducible refine Touches.ite ?_ ?_
    | with_reducible apply Touches.step (Block.store_touches ..)
    | split
    | with_reducible refine Touches.snd (by assumption) ?_
    | with_reducible refine Touches.fst (by assumption) ?_
    | (clear_value *; split)
    | dsimp only

theorem Block.outNotice_touches (b) (x1) (x2) (x3) : Touches [.vis, .resp, .rep, .poison, .evr, .que] b (Block.outNotice b x1 x2 x3) := by
  unfold Block.outNotice
  repeat' first
    | with_reducible assumption
    | with_reducible exact Touches.refl
    | exact rfl
    | (intro x
       refine Touches.mid (show Touches [.vis, .resp, .rep, .poison, .evr, .que] b x from ?_) (fun h => ?_)
       all_goals first | (with_reducible have h0 : Touches [.vis, .resp, .rep, .poison, .evr, .que] b x := h; clear h0; clear_value x) | subst x)
    | intro _
    | lift_lets
    | with_reducible refine Touches.ite ?_ ?_
    | with_reducible apply Touches.step (Block.push_touches ..)
    | split
    | with_reducible refine Touches.snd (by assumption) ?_
    | with_reducible refine Touches.fst (by assumption) ?_
    | (clear_value *; split)
    | dsimp only

theorem Block.sessSend_touches (b) (x1) (x2) (x3) (x4) : Touches [.vis, .rep, .evr, .prt, .out] b (Block.sessSend b x1 x2 x3 x4) := by
  unfold Block.sessSend
  repeat' first
    | with_reducible assumption
    | with_reducible exact Touches.refl
    | exact rfl
    | (intro x
       refine Touches.mid (show Touches [.vis, .rep, .evr, .prt, .out] b x from ?_) (fun h => ?_)
       all_goals first | (with_reducible have h0 : Touches [.vis, .rep, .evr, .prt, .out] b x := h; clear h0; clear_value x) | subst x)
    | intro _
    | lift_lets
    | with_reducible refine Touches.ite ?_ ?_
    | with_reducible apply Touches.step (Block.enqueueAll_touches ..)
    | with_reducible apply Touches.step (Block.largeSend_touches ..)
    | ((with_reducible apply Touches.set_out) <;> first | with_reducible assumption | with_reducible exact Touches.refl | exact rfl | with_reducible refine Touches.snd (by assumption) ?_)
    | split
    | with_reducible refine Touches.snd (by assumption) ?_
    | with_reducible refine Touches.fst (by assumption) ?_
    | (clear_value *; split)
    | dsimp only

theorem Block.sessRange_touches (b) (x1) (x2) (x3) : Touches [.vis, .rep, .evr, .prt, .out] b (Block.sessRange b x1 x2 x3) := by
  unfold Block.sessRange
  repeat' first
    | with_reducible assumption
    | with_reducible exact Touches.refl
    | exact rfl
    | (intro x
       refine Touches.mid (show Touches [.vis, .rep, .evr, .prt, .out] b x from ?_) (fun h => ?_)
       all_goals first | (with_reducible have h0 : Touches [.vis, .rep, .evr, .prt, .out] b x := h; clear h0; clear_value x) | subst x)
    | intro _
    | lift_lets
    | with_reducible refine Touches.ite ?_ ?_
    | with_reducible apply Touches.step (Block.sessSend_touches ..)
    | with_reducible refine Touches.fold ?_ (fun _ _ _ => ?_)
    | split
    | with_reducible refine Touches.snd (by assumption) ?_
    | with_reducible refine Touches.fst (by assumption) ?_
    | with_reducible refine Touches.fold1 ?_ (fun _ _ _ => ?_)
    | with_reducible refine Touches.fold2 ?_ (fun _ _ _ => ?_)
    | (clear_value *; split)
    | dsimp only

theorem Block.sessSegments_touches (b) (x1) : Touches [.vis, .rep, .evr, .prt, .out] b (Block.sessSegments b x1) := by
  unfold Block.sessSegments
  repeat' first
    | with_reducible assumption
    | with_reducible exact Touches.refl
    | exact rfl
    | (intro x
       refine Touches.mid (show Touches [.vis, .rep, .evr, .prt, .out] b x from ?_) (fun h => ?_)
       all_goals first | (with_reducible have h0 : Touches [.vis, .rep, .evr, .prt, .out] b x := h; clear h0; clear_value x) | subst x)
    | intro _
    | lift_lets
    | with_reducible refine Touches.ite ?_ ?_
    | with_reducible apply Touches.step (Block.sessRange_touches ..)
    | with_reducible apply Touches.step (Block.setSess_touches ..)
    | with_reducible apply Touches.step (Block.sessSend_touches ..)
    | split
    | with_reducible refine Touches.snd (by assumption) ?_
    | with_reducible refine Touches.fst (by assumption) ?_
    | (clear_value *; split)
    | dsimp only

theorem Block.sessCopy_touches (b) (x1) (x2) : Touches [.vis, .rep, .cells, .poison, .evr, .out] b (Block.sessCopy b x1 x2) := by
  unfold Block.sessCopy
  repeat' first
    | with_reducible assumption
    | with_reducible exact Touches.refl
    | exact rfl
    | (intro x
       refine Touches.mid (show Touches [.vis, .rep, .cells, .poison, .evr, .out] b x from ?_) (fun h => ?_)
       all_goals first | (with_reducible have h0 : Touches [.vis, .rep, .cells, .poison, .evr, .out] b x := h; clear h0; clear_value x) | subst x)
    | intro _
    | lift_lets
    | with_reducible refine Touches.ite ?_ ?_
    | with_reducible apply Touches.step (Block.sessPut_touches ..)
    | with_reducible apply Touches.step (Block.count_touches ..)
    | with_reducible apply Touches.step (Block.setSess_touches ..)
    | with_reducible apply Touches.step (Block.eventRep_touches ..)
    | split
    | with_reducible refine Touches.snd (by assumption) ?_
    | with_reducible refine Touches.fst (by assumption) ?_
    | with_reducible refine Touches.getD (fun _ _ => ?_) ?_
    | (clear_value *; split)
    | dsimp only

theorem Block.sessRst_touches (b) (x1) : Touches [.vis, .rep, .evr, .prt, .out] b (Block.sessRst b x1) := by
  unfold Block.sessRst
  repeat' first
    | with_reducible assumption
    | with_reducible exact Touches.refl
    | exact rfl
    | (intro x
       refine Touches.mid (show Touches [.vis, .rep, .evr, .prt, .out] b x from ?_) (fun h => ?_)
       all_goals first | (with_reducible have h0 : Touches [.vis, .rep, .evr, .prt, .out] b x := h; clear h0; clear_value x) | subst x)
    | intro _
    | lift_lets
    | with_reducible refine Touches.ite ?_ ?_
    | with_reducible apply Touches.step (Block.setSess_touches ..)
    | with_reducible apply Touches.step (Block.sessSend_touches ..)
    | split
    | with_reducible refine Touches.snd (by assumption) ?_
    | with_reducible refine Touches.fst (by assumption) ?_
    | (clear_value *; split)
    | dsimp only

theorem Block.sessOpen_touches (b) (x1) : Touches [.vis, .resp, .rep, .poison, .evr, .que, .out] b (Block.sessOpen b x1) := by
  unfold Block.sessOpen
  repeat' first
    | with_reducible assumption
    | with_reducible exact Touches.refl
    | exact rfl
    | (intro x
       refine Touches.mid (show Touches [.vis, .resp, .rep, .poison, .evr, .que, .out] b x from ?_) (fun h => ?_)
       all_goals first | (with_reducible have h0 : Touches [.vis, .resp, .rep, .poison, .evr, .que, .out] b x := h; clear h0; clear_value x) | subst x)
    | intro _
    | lift_lets
    | with_reducible refine Touches.ite ?_ ?_
    | with_reducible apply Touches.step (Block.outNotice_touches ..)
    | with_reducible apply Touches.step (Block.setSess_touches ..)
    | split
    | with_reducible refine Touches.snd (by assumption) ?_
    | with_reducible refine Touches.fst (by assumption) ?_
    | (clear_value *; split)
    | dsimp only

theorem Block.sessClose_touches (b) (x1) : Touches [.vis, .rep, .evr, .prt, .out] b (Block.sessClose b x1) := by
  unfold Block.sessClose
  repeat' first
    | with_reducible assumption
    | with_reducible exact Touches.refl
    | exact rfl
    | (intro x
       refine Touches.mid (show Touches [.vis, .rep, .evr, .prt, .out] b x from ?_) (fun h => ?_)
       all_goals first | (with_reducible have h0 : Touches [.vis, .rep, .evr, .prt, .out] b x := h; clear h0; clear_value x) | subst x)
    | intro _
    | lift_lets
    | with_reducible refine Touches.ite ?_ ?_
    | with_reducible apply Touches.step (Block.sessSegments_touches ..)
    | with_reducible apply Touches.step (Block.setSess_touches ..)
    | split
    | with_reducible refine Touches.snd (by assumption) ?_
    | with_reducible refine Touches.fst (by assumption) ?_
    | (clear_value *; split)
    | dsimp only

theorem Block.sessAckSend_touches (b) (x1) : Touches [.vis, .rep, .evr, .prt, .out] b (Block.sessAckSend b x1) := by
  unfold Block.sessAckSend
  repeat' first
    | with_reducible assumption
    | with_reducible exact Touches.refl
    | exact rfl
    | (intro x
       refine Touches.mid (show Touches [.vis, .rep, .evr, .prt, .out] b x from ?_) (fun h => ?_)
       all_goals first | (with_reducible have h0 : Touches [.vis, .rep, .evr, .prt, .out] b x := h; clear h0; clear_value x) | subst x)
    | intro _
    | lift_lets
    | with_reducible refine Touches.ite ?_ ?_
    | with_reducible apply Touches.step (Block.sessSend_touches ..)
    | split
    | with_reducible refine Touches.snd (by assumption) ?_
    | with_reducible refine Touches.fst (by assumption) ?_
    | (clear_value *; split)
    | dsimp only

theorem Block.sessAckTake_touches (b) (x1) (x2) : Touches [.vis, .out] b (Block.sessAckTake b x1 x2) := by
  unfold Block.sessAckTake
  repeat' first
    | with_reducible assumption
    | with_reducible exact Touches.refl
    | exact rfl
    | (intro x
       refine Touches.mid (show Touches [.vis, .out] b x from ?_) (fun h => ?_)
       all_goals first | (with_reducible have h0 : Touches [.vis, .out] b x := h; clear h0; clear_value x) | subst x)
    | intro _
    | lift_lets
    | with_reducible refine Touches.ite ?_ ?_
    | with_reducible apply Touches.step (Block.count_touches ..)
    | with_reducible apply Touches.step (Block.setSess_touches ..)
    | split
    | with_reducible refine Touches.snd (by assumption) ?_
    | with_reducible refine Touches.fst (by assumption) ?_
    | (clear_value *; split)
    | dsimp only

theorem Block.sessResend_touches (b) (x1) (x2) : Touches [.vis, .rep, .evr, .prt, .out] b (Block.sessResend b x1 x2) := by
  unfold Block.sessResend
  repeat' first
    | with_reducible assumption
    | with_reducible exact Touches.refl
    | exact rfl
    | (intro x
       refine Touches.mid (show Touches [.vis, .rep, .evr, .prt, .out] b x from ?_) (fun h => ?_)
       all_goals first | (with_reducible have h0 : Touches [.vis, .rep, .evr, .prt, .out] b x := h; clear h0; clear_value x) | subst x)
    | intro _
    | lift_lets
    | with_reducible refine Touches.ite ?_ ?_
    | with_reducible apply Touches.step (Block.sessRange_touches ..)
    | with_reducible apply Touches.step (Block.sessSend_touches ..)
    | split
    | with_reducible refine Touches.snd (by assumption) ?_
    | with_reducible refine Touches.fst (by assumption) ?_
    | (clear_value *; split)
    | dsimp only

theorem Block.sessRetxAt_touches (b) (x1) (x2) : Touches [.vis, .rep, .evr, .prt, .out] b (Block.sessRetxAt b x1 x2) := by
  unfold Block.sessRetxAt
  repeat' first
    | with_reducible assumption
    | with_reducible exact Touches.refl
    | exact rfl
    | (intro x
       refine Touches.mid (show Touches [.vis, .rep, .evr, .prt, .out] b x from ?_) (fun h => ?_)
       all_goals first | (with_reducible have h0 : Touches [.vis, .rep, .evr, .prt, .out] b x := h; clear h0; clear_value x) | subst x)
    | intro _
    | lift_lets
    | with_reducible refine Touches.ite ?_ ?_
    | with_reducible apply Touches.step (Block.sessResend_touches ..)
    | ((with_reducible apply Touches.set_out) <;> first | with_reducible assumption | with_reducible exact Touches.refl | exact rfl | with_reducible refine Touches.snd (by assumption) ?_)
    | split
    | with_reducible refine Touches.snd (by assumption) ?_
    | with_reducible refine Touches.fst (by assumption) ?_
    | (clear_value *; split)
    | dsimp only

theorem Block.sessRetx_touches (b) (x1) (x2) : Touches [.vis, .rep, .evr, .prt, .out] b (Block.sessRetx b x1 x2) := by
  unfold Block.sessRetx
  repeat' first
    | with_reducible assumption
    | with_reducible exact Touches.refl
    | exact rfl
    | (intro x
       refine Touches.mid (show Touches [.vis, .rep, .evr, .prt, .out] b x from ?_) (fun h => ?_)
       all_goals first | (with_reducible have h0 : Touches [.vis, .rep, .evr, .prt, .out] b x := h; clear h0; clear_value x) | subst x)
    | intro _
    | lift_lets
    | with_reducible refine Touches.ite ?_ ?_
    | with_reducible apply Touches.step (Block.sessRetxAt_touches ..)
    | with_reducible apply Touches.step (Block.count_touches ..)
    | split
    | with_reducible refine Touches.snd (by assumption) ?_
    | with_reducible refine Touches.fst (by assumption) ?_
    | (clear_value *; split)
    | dsimp only

theorem Block.sessAck_touches (b) (x1) (x2) : Touches [.vis, .rep, .evr, .prt, .out] b (Block.sessAck b x1 x2) := by
  unfold Block.sessAck
  repeat' first
    | with_reducible assumption
    | with_reducible exact Touches.refl
    | exact rfl
    | (intro x
       refine Touches.mid (show Touches [.vis, .rep, .evr, .prt, .out] b x from ?_) (fun h => ?_)
       all_goals first | (with_reducible have h0 : Touches [.vis, .rep, .evr, .prt, .out] b x := h; clear h0; clear_value x) | subst x)
    | intro _
    | lift_lets
    | with_reducible refine Touches.ite ?_ ?_
    | with_reducible apply Touches.step (Block.sessAckTake_touches ..)
    | with_reducible apply Touches.step (Block.setPort_touches ..)
    | with_reducible apply Touches.step (Block.sessRetxAt_touches ..)
    | ((with_reducible apply Touches.set_out) <;> first | with_reducible assumption | with_reducible exact Touches.refl | exact rfl | with_reducible refine Touches.snd (by assumption) ?_)
    | with_reducible refine Touches.fold ?_ (fun _ _ _ => ?_)
    | split
    | with_reducible refine Touches.snd (by assumption) ?_
    | with_reducible refine Touches.fst (by assumption) ?_
    | with_reducible refine Touches.fold1 ?_ (fun _ _ _ => ?_)
    | with_reducible refine Touches.fold2 ?_ (fun _ _ _ => ?_)
    | (clear_value *; split)
    | dsimp only

theorem Block.sessDrop_touches (b) : Touches [.out] b (Block.sessDrop b) := by
  unfold Block.sessDrop
  repeat' first
    | with_reducible assumption
    | with_reducible exact Touches.refl
    | exact rfl
    | (intro x
       refine Touches.mid (show Touches [.out] b x from ?_) (fun h => ?_)
       all_goals first | (with_reducible have h0 : Touches [.out] b x := h; clear h0; clear_value x) | subst x)
    | intro _
    | lift_lets
    | with_reducible refine Touches.ite ?_ ?_
    | ((with_reducible apply Touches.set_out) <;> first | with_reducible assumption | with_reducible exact Touches.refl | exact rfl | with_reducible refine Touches.snd (by assumption) ?_)
    | split
    | with_reducible refine Touches.snd (by assumption) ?_
    | with_reducible refine Touches.fst (by assumption) ?_
    | (clear_value *; split)
    | dsimp only

theorem Block.sessStall_touches (b) (x1) : Touches [.vis, .resp, .rep, .poison, .evr, .que, .prt, .out] b (Block.sessStall b x1) := by
  unfold Block.sessStall
  repeat' first
    | with_reducible assumption
    | with_reducible exact Touches.refl
    | exact rfl
    | (intro x
       refine Touches.mid (show Touches [.vis, .resp, .rep, .poison, .evr, .que, .prt, .out] b x from ?_) (fun h => ?_)
       all_goals first | (with_reducible have h0 : Touches [.vis, .resp, .rep, .poison, .evr, .que, .prt, .out] b x := h; clear h0; clear_value x) | subst x)
    | intro _
    | lift_lets
    | with_reducible refine Touches.ite ?_ ?_
    | with_reducible apply Touches.step (Block.eventRep_touches ..)
    | with_reducible apply Touches.step (Block.outNotice_touches ..)
    | with_reducible apply Touches.step (Block.irq_touches ..)
    | with_reducible apply Touches.step (Block.count_touches ..)
    | with_reducible apply Touches.step (Block.sessRst_touches ..)
    | split
    | with_reducible refine Touches.snd (by assumption) ?_
    | with_reducible refine Touches.fst (by assumption) ?_
    | (clear_value *; split)
    | dsimp only

theorem Block.outSpdu_touches (b) (x1) : Touches [.out] b (Block.outSpdu b x1).2 := by
  unfold Block.outSpdu
  repeat' first
    | with_reducible assumption
    | with_reducible exact Touches.refl
    | exact rfl
    | (intro x
       refine Touches.mid (show Touches [.out] b x from ?_) (fun h => ?_)
       all_goals first | (with_reducible have h0 : Touches [.out] b x := h; clear h0; clear_value x) | subst x)
    | intro _
    | lift_lets
    | with_reducible refine Touches.ite ?_ ?_
    | ((with_reducible apply Touches.set_out) <;> first | with_reducible assumption | with_reducible exact Touches.refl | exact rfl | with_reducible refine Touches.snd (by assumption) ?_)
    | split
    | with_reducible refine Touches.snd (by assumption) ?_
    | with_reducible refine Touches.fst (by assumption) ?_
    | (clear_value *; split)
    | dsimp only

theorem Block.outBuild_touches (b) (x1) (x2) (x3) (x4) (x5) (x6) : Touches [.vis, .rep, .evr, .out] b (Block.outBuild b x1 x2 x3 x4 x5 x6).2 := by
  unfold Block.outBuild
  repeat' first
    | with_reducible assumption
    | with_reducible exact Touches.refl
    | exact rfl
    | (intro x
       refine Touches.mid (show Touches [.vis, .rep, .evr, .out] b x from ?_) (fun h => ?_)
       all_goals first | (with_reducible have h0 : Touches [.vis, .rep, .evr, .out] b x := h; clear h0; clear_value x) | subst x)
    | intro _
    | lift_lets
    | with_reducible refine Touches.ite ?_ ?_
    | with_reducible apply Touches.step (Block.eventRep_touches ..)
    | with_reducible apply Touches.step (Block.irq_touches ..)
    | with_reducible apply Touches.step (Block.count_touches ..)
    | with_reducible apply Touches.step (Block.outSpdu_touches ..)
    | split
    | with_reducible refine Touches.snd (by assumption) ?_
    | with_reducible refine Touches.fst (by assumption) ?_
    | (clear_value *; split)
    | dsimp only

theorem Block.noteSigned_touches (b) (x1) (x2) (x3) : Touches [.out] b (Block.noteSigned b x1 x2 x3) := by
  unfold Block.noteSigned
  repeat' first
    | with_reducible assumption
    | with_reducible exact Touches.refl
    | exact rfl
    | (intro x
       refine Touches.mid (show Touches [.out] b x from ?_) (fun h => ?_)
       all_goals first | (with_reducible have h0 : Touches [.out] b x := h; clear h0; clear_value x) | subst x)
    | intro _
    | lift_lets
    | with_reducible refine Touches.ite ?_ ?_
    | ((with_reducible apply Touches.set_out) <;> first | with_reducible assumption | with_reducible exact Touches.refl | exact rfl | with_reducible refine Touches.snd (by assumption) ?_)
    | split
    | with_reducible refine Touches.snd (by assumption) ?_
    | with_reducible refine Touches.fst (by assumption) ?_
    | (clear_value *; split)
    | dsimp only

theorem Block.unsign_touches (b) : Touches [.prt, .out] b (Block.unsign b) := by
  unfold Block.unsign
  repeat' first
    | with_reducible assumption
    | with_reducible exact Touches.refl
    | exact rfl
    | (intro x
       refine Touches.mid (show Touches [.prt, .out] b x from ?_) (fun h => ?_)
       all_goals first | (with_reducible have h0 : Touches [.prt, .out] b x := h; clear h0; clear_value x) | subst x)
    | intro _
    | lift_lets
    | with_reducible refine Touches.ite ?_ ?_
    | with_reducible apply Touches.step (Block.setPort_touches ..)
    | ((with_reducible apply Touches.set_out) <;> first | with_reducible assumption | with_reducible exact Touches.refl | exact rfl | with_reducible refine Touches.snd (by assumption) ?_)
    | with_reducible refine Touches.fold ?_ (fun _ _ _ => ?_)
    | split
    | with_reducible refine Touches.snd (by assumption) ?_
    | with_reducible refine Touches.fst (by assumption) ?_
    | with_reducible refine Touches.fold1 ?_ (fun _ _ _ => ?_)
    | with_reducible refine Touches.fold2 ?_ (fun _ _ _ => ?_)
    | (clear_value *; split)
    | dsimp only

theorem Block.outSendTo_touches (b) (x1) (x2) (x3) : Touches [.vis, .rep, .cells, .poison, .evr, .prt, .out] b (Block.outSendTo b x1 x2 x3) := by
  unfold Block.outSendTo
  repeat' first
    | with_reducible assumption
    | with_reducible exact Touches.refl
    | exact rfl
    | (intro x
       refine Touches.mid (show Touches [.vis, .rep, .cells, .poison, .evr, .prt, .out] b x from ?_) (fun h => ?_)
       all_goals first | (with_reducible have h0 : Touches [.vis, .rep, .cells, .poison, .evr, .prt, .out] b x := h; clear h0; clear_value x) | subst x)
    | intro _
    | lift_lets
    | with_reducible refine Touches.ite ?_ ?_
    | with_reducible apply Touches.step (Block.sessCopy_touches ..)
    | with_reducible apply Touches.step (Block.noteSigned_touches ..)
    | with_reducible apply Touches.step (Block.outUdp_touches ..)
    | with_reducible refine Touches.fold ?_ (fun _ _ _ => ?_)
    | split
    | with_reducible refine Touches.snd (by assumption) ?_
    | with_reducible refine Touches.fst (by assumption) ?_
    | with_reducible refine Touches.fold1 ?_ (fun _ _ _ => ?_)
    | with_reducible refine Touches.fold2 ?_ (fun _ _ _ => ?_)
    | (clear_value *; split)
    | dsimp only

theorem Block.launchPart_touches (b) (x1) (x2) : Touches [.vis, .rep, .cells, .poison, .evr, .prt, .out] b (Block.launchPart b x1 x2).1 := by
  unfold Block.launchPart
  repeat' first
    | with_reducible assumption
    | with_reducible exact Touches.refl
    | exact rfl
    | (intro x
       refine Touches.mid (show Touches [.vis, .rep, .cells, .poison, .evr, .prt, .out] b x from ?_) (fun h => ?_)
       all_goals first | (with_reducible have h0 : Touches [.vis, .rep, .cells, .poison, .evr, .prt, .out] b x := h; clear h0; clear_value x) | subst x)
    | intro _
    | lift_lets
    | with_reducible refine Touches.ite ?_ ?_
    | with_reducible apply Touches.step (Block.count_touches ..)
    | with_reducible apply Touches.step (Block.outBuild_touches ..)
    | with_reducible apply Touches.step (Block.outSendTo_touches ..)
    | split
    | with_reducible refine Touches.snd (by assumption) ?_
    | with_reducible refine Touches.fst (by assumption) ?_
    | (clear_value *; split)
    | dsimp only

theorem Block.resendPart_touches (b) (x1) (x2) : Touches [.vis, .rep, .cells, .poison, .evr, .prt, .out] b (Block.resendPart b x1 x2).1 := by
  unfold Block.resendPart
  repeat' first
    | with_reducible assumption
    | with_reducible exact Touches.refl
    | exact rfl
    | (intro x
       refine Touches.mid (show Touches [.vis, .rep, .cells, .poison, .evr, .prt, .out] b x from ?_) (fun h => ?_)
       all_goals first | (with_reducible have h0 : Touches [.vis, .rep, .cells, .poison, .evr, .prt, .out] b x := h; clear h0; clear_value x) | subst x)
    | intro _
    | lift_lets
    | with_reducible refine Touches.ite ?_ ?_
    | with_reducible apply Touches.step (Block.outBuild_touches ..)
    | with_reducible apply Touches.step (Block.count_touches ..)
    | with_reducible apply Touches.step (Block.outSendTo_touches ..)
    | split
    | with_reducible refine Touches.snd (by assumption) ?_
    | with_reducible refine Touches.fst (by assumption) ?_
    | (clear_value *; split)
    | dsimp only

theorem Block.putJob_touches (b) (x1) : Touches [.out] b (Block.putJob b x1) := by
  unfold Block.putJob
  repeat' first
    | with_reducible assumption
    | with_reducible exact Touches.refl
    | exact rfl
    | (intro x
       refine Touches.mid (show Touches [.out] b x from ?_) (fun h => ?_)
       all_goals first | (with_reducible have h0 : Touches [.out] b x := h; clear h0; clear_value x) | subst x)
    | intro _
    | lift_lets
    | with_reducible refine Touches.ite ?_ ?_
    | ((with_reducible apply Touches.set_out) <;> first | with_reducible assumption | with_reducible exact Touches.refl | exact rfl | with_reducible refine Touches.snd (by assumption) ?_)
    | split
    | with_reducible refine Touches.snd (by assumption) ?_
    | with_reducible refine Touches.fst (by assumption) ?_
    | (clear_value *; split)
    | dsimp only

theorem Block.cfgPeriodic_touches (b) (x1) : Touches [.vis, .prt, .out] b (Block.cfgPeriodic b x1) := by
  unfold Block.cfgPeriodic
  repeat' first
    | with_reducible assumption
    | with_reducible exact Touches.refl
    | exact rfl
    | (intro x
       refine Touches.mid (show Touches [.vis, .prt, .out] b x from ?_) (fun h => ?_)
       all_goals first | (with_reducible have h0 : Touches [.vis, .prt, .out] b x := h; clear h0; clear_value x) | subst x)
    | intro _
    | lift_lets
    | with_reducible refine Touches.ite ?_ ?_
    | with_reducible apply Touches.step (Block.count_touches ..)
    | with_reducible apply Touches.step (Block.outUdp_touches ..)
    | ((with_reducible apply Touches.set_out) <;> first | with_reducible assumption | with_reducible exact Touches.refl | exact rfl | with_reducible refine Touches.snd (by assumption) ?_)
    | with_reducible refine Touches.fold ?_ (fun _ _ _ => ?_)
    | split
    | with_reducible refine Touches.snd (by assumption) ?_
    | with_reducible refine Touches.fst (by assumption) ?_
    | with_reducible refine Touches.fold1 ?_ (fun _ _ _ => ?_)
    | with_reducible refine Touches.fold2 ?_ (fun _ _ _ => ?_)
    | (clear_value *; split)
    | dsimp only

theorem Block.launchJob_touches (b) (x1) : Touches [.vis, .rep, .cells, .poison, .evr, .prt, .out] b (Block.launchJob b x1) := by
  unfold Block.launchJob
  repeat' first
    | with_reducible assumption
    | with_reducible exact Touches.refl
    | exact rfl
    | (intro x
       refine Touches.mid (show Touches [.vis, .rep, .cells, .poison, .evr, .prt, .out] b x from ?_) (fun h => ?_)
       all_goals first | (with_reducible have h0 : Touches [.vis, .rep, .cells, .poison, .evr, .prt, .out] b x := h; clear h0; clear_value x) | subst x)
    | intro _
    | lift_lets
    | with_reducible refine Touches.ite ?_ ?_
    | with_reducible apply Touches.step (Block.launchPart_touches ..)
    | with_reducible apply Touches.step (Block.resendPart_touches ..)
    | with_reducible apply Touches.step (Block.putJob_touches ..)
    | with_reducible refine Touches.fold ?_ (fun _ _ _ => ?_)
    | split
    | with_reducible refine Touches.snd (by assumption) ?_
    | with_reducible refine Touches.fst (by assumption) ?_
    | with_reducible refine Touches.fold1 ?_ (fun _ _ _ => ?_)
    | with_reducible refine Touches.fold2 ?_ (fun _ _ _ => ?_)
    | (clear_value *; split)
    | dsimp only

theorem Block.launchTurn_touches (b) (x1) : Touches [.vis, .rep, .cells, .poison, .evr, .prt, .out] b (Block.launchTurn b x1) := by
  unfold Block.launchTurn
  repeat' first
    | with_reducible assumption
    | with_reducible exact Touches.refl
    | exact rfl
    | (intro x
       refine Touches.mid (show Touches [.vis, .rep, .cells, .poison, .evr, .prt, .out] b x from ?_) (fun h => ?_)
       all_goals first | (with_reducible have h0 : Touches [.vis, .rep, .cells, .poison, .evr, .prt, .out] b x := h; clear h0; clear_value x) | subst x)
    | intro _
    | lift_lets
    | with_reducible refine Touches.ite ?_ ?_
    | with_reducible apply Touches.step (Block.launchJob_touches ..)
    | with_reducible refine Touches.fold ?_ (fun _ _ _ => ?_)
    | split
    | with_reducible refine Touches.snd (by assumption) ?_
    | with_reducible refine Touches.fst (by assumption) ?_
    | with_reducible refine Touches.fold1 ?_ (fun _ _ _ => ?_)
    | with_reducible refine Touches.fold2 ?_ (fun _ _ _ => ?_)
    | (clear_value *; split)
    | dsimp only

theorem Block.outOpen_touches (b) (x1) (x2) (x3) : Touches [.out] b (Block.outOpen b x1 x2 x3) := by
  unfold Block.outOpen
  repeat' first
    | with_reducible assumption
    | with_reducible exact Touches.refl
    | exact rfl
    | (intro x
       refine Touches.mid (show Touches [.out] b x from ?_) (fun h => ?_)
       all_goals first | (with_reducible have h0 : Touches [.out] b x := h; clear h0; clear_value x) | subst x)
    | intro _
    | lift_lets
    | with_reducible refine Touches.ite ?_ ?_
    | ((with_reducible apply Touches.set_out) <;> first | with_reducible assumption | with_reducible exact Touches.refl | exact rfl | with_reducible refine Touches.snd (by assumption) ?_)
    | split
    | with_reducible refine Touches.snd (by assumption) ?_
    | with_reducible refine Touches.fst (by assumption) ?_
    | (clear_value *; split)
    | dsimp only

theorem Block.launchLate_touches (b) (x1) : Touches [.vis, .rep, .evr] b (Block.launchLate b x1) := by
  unfold Block.launchLate
  repeat' first
    | with_reducible assumption
    | with_reducible exact Touches.refl
    | exact rfl
    | (intro x
       refine Touches.mid (show Touches [.vis, .rep, .evr] b x from ?_) (fun h => ?_)
       all_goals first | (with_reducible have h0 : Touches [.vis, .rep, .evr] b x := h; clear h0; clear_value x) | subst x)
    | intro _
    | lift_lets
    | with_reducible refine Touches.ite ?_ ?_
    | with_reducible apply Touches.step (Block.eventRep_touches ..)
    | with_reducible apply Touches.step (Block.irq_touches ..)
    | with_reducible apply Touches.step (Block.count_touches ..)
    | with_reducible refine Touches.fold ?_ (fun _ _ _ => ?_)
    | split
    | with_reducible refine Touches.snd (by assumption) ?_
    | with_reducible refine Touches.fst (by assumption) ?_
    | with_reducible refine Touches.fold1 ?_ (fun _ _ _ => ?_)
    | with_reducible refine Touches.fold2 ?_ (fun _ _ _ => ?_)
    | (clear_value *; split)
    | dsimp only

theorem Block.cfgAfter_touches (b) (x1) : Touches [.vis, .prt, .out] b (Block.cfgAfter b x1) := by
  unfold Block.cfgAfter
  repeat' first
    | with_reducible assumption
    | with_reducible exact Touches.refl
    | exact rfl
    | (intro x
       refine Touches.mid (show Touches [.vis, .prt, .out] b x from ?_) (fun h => ?_)
       all_goals first | (with_reducible have h0 : Touches [.vis, .prt, .out] b x := h; clear h0; clear_value x) | subst x)
    | intro _
    | lift_lets
    | with_reducible refine Touches.ite ?_ ?_
    | with_reducible apply Touches.step (Block.cfgPeriodic_touches ..)
    | with_reducible refine Touches.fold ?_ (fun _ _ _ => ?_)
    | split
    | with_reducible refine Touches.snd (by assumption) ?_
    | with_reducible refine Touches.fst (by assumption) ?_
    | with_reducible refine Touches.fold1 ?_ (fun _ _ _ => ?_)
    | with_reducible refine Touches.fold2 ?_ (fun _ _ _ => ?_)
    | (clear_value *; split)
    | dsimp only

theorem Block.outWeirB_touches (b) (x1) (x2) : Touches [.vis, .rep, .cells, .poison, .evr, .prt, .out] b (Block.outWeirB b x1 x2) := by
  unfold Block.outWeirB
  repeat' first
    | with_reducible assumption
    | with_reducible exact Touches.refl
    | exact rfl
    | (intro x
       refine Touches.mid (show Touches [.vis, .rep, .cells, .poison, .evr, .prt, .out] b x from ?_) (fun h => ?_)
       all_goals first | (with_reducible have h0 : Touches [.vis, .rep, .cells, .poison, .evr, .prt, .out] b x := h; clear h0; clear_value x) | subst x)
    | intro _
    | lift_lets
    | with_reducible refine Touches.ite ?_ ?_
    | with_reducible apply Touches.step (Block.noteUnlocked_touches ..)
    | with_reducible apply Touches.step (Block.cfgAfter_touches ..)
    | with_reducible apply Touches.step (Block.putJob_touches ..)
    | with_reducible apply Touches.step (Block.launchTurn_touches ..)
    | with_reducible apply Touches.step (Block.launchLate_touches ..)
    | with_reducible refine Touches.fold ?_ (fun _ _ _ => ?_)
    | split
    | with_reducible refine Touches.snd (by assumption) ?_
    | with_reducible refine Touches.fst (by assumption) ?_
    | with_reducible refine Touches.fold1 ?_ (fun _ _ _ => ?_)
    | with_reducible refine Touches.fold2 ?_ (fun _ _ _ => ?_)
    | (clear_value *; split)
    | dsimp only

theorem Block.timedLaunch_touches (b) (x1) (x2) (x3) : Touches [.vis, .rep, .cells, .poison, .evr, .prt, .out] b (Block.timedLaunch b x1 x2 x3) := by
  unfold Block.timedLaunch
  repeat' first
    | with_reducible assumption
    | with_reducible exact Touches.refl
    | exact rfl
    | (intro x
       refine Touches.mid (show Touches [.vis, .rep, .cells, .poison, .evr, .prt, .out] b x from ?_) (fun h => ?_)
       all_goals first | (with_reducible have h0 : Touches [.vis, .rep, .cells, .poison, .evr, .prt, .out] b x := h; clear h0; clear_value x) | subst x)
    | intro _
    | lift_lets
    | with_reducible refine Touches.ite ?_ ?_
    | with_reducible apply Touches.step (Block.noteUnlocked_touches ..)
    | with_reducible apply Touches.step (Block.cfgAfter_touches ..)
    | with_reducible apply Touches.step (Block.launchTurn_touches ..)
    | with_reducible refine Touches.fold ?_ (fun _ _ _ => ?_)
    | split
    | with_reducible refine Touches.snd (by assumption) ?_
    | with_reducible refine Touches.fst (by assumption) ?_
    | with_reducible refine Touches.fold1 ?_ (fun _ _ _ => ?_)
    | with_reducible refine Touches.fold2 ?_ (fun _ _ _ => ?_)
    | (clear_value *; split)
    | dsimp only

theorem Block.outDrop_touches (b) (x1) (x2) : Touches [.out] b (Block.outDrop b x1 x2) := by
  unfold Block.outDrop
  repeat' first
    | with_reducible assumption
    | with_reducible exact Touches.refl
    | exact rfl
    | (intro x
       refine Touches.mid (show Touches [.out] b x from ?_) (fun h => ?_)
       all_goals first | (with_reducible have h0 : Touches [.out] b x := h; clear h0; clear_value x) | subst x)
    | intro _
    | lift_lets
    | with_reducible refine Touches.ite ?_ ?_
    | ((with_reducible apply Touches.set_out) <;> first | with_reducible assumption | with_reducible exact Touches.refl | exact rfl | with_reducible refine Touches.snd (by assumption) ?_)
    | split
    | with_reducible refine Touches.snd (by assumption) ?_
    | with_reducible refine Touches.fst (by assumption) ?_
    | (clear_value *; split)
    | dsimp only

theorem Block.putPart_touches (b) (x1) (x2) : Touches [.out] b (Block.putPart b x1 x2) := by
  unfold Block.putPart
  repeat' first
    | with_reducible assumption
    | with_reducible exact Touches.refl
    | exact rfl
    | (intro x
       refine Touches.mid (show Touches [.out] b x from ?_) (fun h => ?_)
       all_goals first | (with_reducible have h0 : Touches [.out] b x := h; clear h0; clear_value x) | subst x)
    | intro _
    | lift_lets
    | with_reducible refine Touches.ite ?_ ?_
    | with_reducible apply Touches.step (Block.putJob_touches ..)
    | split
    | with_reducible refine Touches.snd (by assumption) ?_
    | with_reducible refine Touches.fst (by assumption) ?_
    | (clear_value *; split)
    | dsimp only

theorem Block.resendPut_touches (b) (x1) (x2) : Touches [.vis, .rep, .cells, .poison, .evr, .prt, .out] b (Block.resendPut b x1 x2) := by
  unfold Block.resendPut
  repeat' first
    | with_reducible assumption
    | with_reducible exact Touches.refl
    | exact rfl
    | (intro x
       refine Touches.mid (show Touches [.vis, .rep, .cells, .poison, .evr, .prt, .out] b x from ?_) (fun h => ?_)
       all_goals first | (with_reducible have h0 : Touches [.vis, .rep, .cells, .poison, .evr, .prt, .out] b x := h; clear h0; clear_value x) | subst x)
    | intro _
    | lift_lets
    | with_reducible refine Touches.ite ?_ ?_
    | with_reducible apply Touches.step (Block.resendPart_touches ..)
    | with_reducible apply Touches.step (Block.putPart_touches ..)
    | split
    | with_reducible refine Touches.snd (by assumption) ?_
    | with_reducible refine Touches.fst (by assumption) ?_
    | (clear_value *; split)
    | dsimp only

theorem Block.lateMark_touches (b) (x1) (x2) (x3) : Touches [.vis, .rep, .cells, .poison, .evr, .prt, .out] b (Block.lateMark b x1 x2 x3) := by
  unfold Block.lateMark
  repeat' first
    | with_reducible assumption
    | with_reducible exact Touches.refl
    | exact rfl
    | (intro x
       refine Touches.mid (show Touches [.vis, .rep, .cells, .poison, .evr, .prt, .out] b x from ?_) (fun h => ?_)
       all_goals first | (with_reducible have h0 : Touches [.vis, .rep, .cells, .poison, .evr, .prt, .out] b x := h; clear h0; clear_value x) | subst x)
    | intro _
    | lift_lets
    | with_reducible refine Touches.ite ?_ ?_
    | with_reducible apply Touches.step (Block.count_touches ..)
    | with_reducible apply Touches.step (Block.resendPut_touches ..)
    | with_reducible apply Touches.step (Block.putPart_touches ..)
    | split
    | with_reducible refine Touches.snd (by assumption) ?_
    | with_reducible refine Touches.fst (by assumption) ?_
    | (clear_value *; split)
    | dsimp only

theorem Block.outLate_touches (b) (x1) (x2) (x3) : Touches [.vis, .rep, .cells, .poison, .evr, .prt, .out] b (Block.outLate b x1 x2 x3) := by
  unfold Block.outLate
  repeat' first
    | with_reducible assumption
    | with_reducible exact Touches.refl
    | exact rfl
    | (intro x
       refine Touches.mid (show Touches [.vis, .rep, .cells, .poison, .evr, .prt, .out] b x from ?_) (fun h => ?_)
       all_goals first | (with_reducible have h0 : Touches [.vis, .rep, .cells, .poison, .evr, .prt, .out] b x := h; clear h0; clear_value x) | subst x)
    | intro _
    | lift_lets
    | with_reducible refine Touches.ite ?_ ?_
    | with_reducible apply Touches.step (Block.lateMark_touches ..)
    | with_reducible refine Touches.fold ?_ (fun _ _ _ => ?_)
    | split
    | with_reducible refine Touches.snd (by assumption) ?_
    | with_reducible refine Touches.fst (by assumption) ?_
    | with_reducible refine Touches.fold1 ?_ (fun _ _ _ => ?_)
    | with_reducible refine Touches.fold2 ?_ (fun _ _ _ => ?_)
    | (clear_value *; split)
    | dsimp only

theorem Block.resendExpiry_touches (b) (x1) (x2) (x3) (x4) : Touches [.vis, .rep, .cells, .poison, .evr, .prt, .out] b (Block.resendExpiry b x1 x2 x3 x4) := by
  unfold Block.resendExpiry
  repeat' first
    | with_reducible assumption
    | with_reducible exact Touches.refl
    | exact rfl
    | (intro x
       refine Touches.mid (show Touches [.vis, .rep, .cells, .poison, .evr, .prt, .out] b x from ?_) (fun h => ?_)
       all_goals first | (with_reducible have h0 : Touches [.vis, .rep, .cells, .poison, .evr, .prt, .out] b x := h; clear h0; clear_value x) | subst x)
    | intro _
    | lift_lets
    | with_reducible refine Touches.ite ?_ ?_
    | with_reducible apply Touches.step (Block.resendPut_touches ..)
    | with_reducible apply Touches.step (Block.noteUnlocked_touches ..)
    | split
    | with_reducible refine Touches.snd (by assumption) ?_
    | with_reducible refine Touches.fst (by assumption) ?_
    | (clear_value *; split)
    | dsimp only

theorem Block.hwPop_touches (b) (x1) : Touches [.que] b (Block.hwPop b x1).2 := by
  unfold Block.hwPop
  repeat' first
    | with_reducible assumption
    | with_reducible exact Touches.refl
    | exact rfl
    | (intro x
       refine Touches.mid (show Touches [.que] b x from ?_) (fun h => ?_)
       all_goals first | (with_reducible have h0 : Touches [.que] b x := h; clear h0; clear_value x) | subst x)
    | intro _
    | lift_lets
    | with_reducible refine Touches.ite ?_ ?_
    | with_reducible apply Touches.step (Block.setQueue_touches ..)
    | split
    | with_reducible refine Touches.snd (by assumption) ?_
    | with_reducible refine Touches.fst (by assumption) ?_
    | (clear_value *; split)
    | dsimp only

theorem Block.outCmd_touches {l : List Part} (b : Block) (is : Nat → Bool) (act : Block → OutCmd → Nat → Block)
    (other : Block → OutCmd → Block) (s : Parts.sub [.vis, .que] l = true) (k : ∀ x c p, Touches l b x → Touches l b (act x c p))
    (k' : ∀ x c, Touches l b x → Touches l b (other x c)) : Touches l b (b.outCmd is act other) := by
  unfold Block.outCmd
  split
  · exact Touches.refl
  · dsimp only
    split
    · exact Touches.refl
    · split
      · exact Touches.refl
      · have g : ∀ i, Touches l b (((b.hwPop 16).2.irq Blk.out 0).count Reg.OUT_STR_CMD_RX i) := fun i =>
          Touches.weaken (l' := [.vis, .que]) (((Touches.refl.trans (Block.hwPop_touches b 16) rfl).trans (Block.irq_touches ..) rfl).trans (Block.count_touches ..) rfl) s
        split
        · exact k _ _ _ (g _)
        · exact k' _ _ (g _)

theorem Block.cmdIgnored_touches (b) (x1) : Touches [.vis] b (Block.cmdIgnored b x1) := by
  unfold Block.cmdIgnored
  repeat' first
    | with_reducible assumption
    | with_reducible exact Touches.refl
    | exact rfl
    | (intro x
       refine Touches.mid (show Touches [.vis] b x from ?_) (fun h => ?_)
       all_goals first | (with_reducible have h0 : Touches [.vis] b x := h; clear h0; clear_value x) | subst x)
    | intro _
    | lift_lets
    | with_reducible refine Touches.ite ?_ ?_
    | with_reducible apply Touches.step (Block.count_touches ..)
    | split
    | with_reducible refine Touches.snd (by assumption) ?_
    | with_reducible refine Touches.fst (by assumption) ?_
    | (clear_value *; split)
    | dsimp only

theorem Block.dataOn_touches (b) (x1) (x2) (x3) : Touches [.out] b (Block.dataOn b x1 x2 x3) := by
  unfold Block.dataOn
  repeat' first
    | with_reducible assumption
    | with_reducible exact Touches.refl
    | exact rfl
    | (intro x
       refine Touches.mid (show Touches [.out] b x from ?_) (fun h => ?_)
       all_goals first | (with_reducible have h0 : Touches [.out] b x := h; clear h0; clear_value x) | subst x)
    | intro _
    | lift_lets
    | with_reducible refine Touches.ite ?_ ?_
    | with_reducible apply Touches.step (Block.setSess_touches ..)
    | ((with_reducible apply Touches.set_out) <;> first | with_reducible assumption | with_reducible exact Touches.refl | exact rfl | with_reducible refine Touches.snd (by assumption) ?_)
    | split
    | with_reducible refine Touches.snd (by assumption) ?_
    | with_reducible refine Touches.fst (by assumption) ?_
    | (clear_value *; split)
    | dsimp only

theorem Block.cmdAnswer_touches (b) (x1) (x2) : Touches [.vis, .rep, .cells, .poison, .evr, .prt, .out] b (Block.cmdAnswer b x1 x2) := by
  unfold Block.cmdAnswer
  repeat' first
    | with_reducible assumption
    | with_reducible exact Touches.refl
    | exact rfl
    | (intro x
       refine Touches.mid (show Touches [.vis, .rep, .cells, .poison, .evr, .prt, .out] b x from ?_) (fun h => ?_)
       all_goals first | (with_reducible have h0 : Touches [.vis, .rep, .cells, .poison, .evr, .prt, .out] b x := h; clear h0; clear_value x) | subst x)
    | intro _
    | lift_lets
    | with_reducible refine Touches.ite ?_ ?_
    | with_reducible apply Touches.step (Block.outUdp_touches ..)
    | with_reducible apply Touches.step (Block.sessCopy_touches ..)
    | with_reducible refine Touches.fold ?_ (fun _ _ _ => ?_)
    | split
    | with_reducible refine Touches.snd (by assumption) ?_
    | with_reducible refine Touches.fst (by assumption) ?_
    | with_reducible refine Touches.fold1 ?_ (fun _ _ _ => ?_)
    | with_reducible refine Touches.fold2 ?_ (fun _ _ _ => ?_)
    | (clear_value *; split)
    | dsimp only

theorem Block.cfgAnswer_touches (b) (x1) (x2) : Touches [.vis, .rep, .cells, .poison, .evr, .prt, .out] b (Block.cfgAnswer b x1 x2) := by
  unfold Block.cfgAnswer
  repeat' first
    | with_reducible assumption
    | with_reducible exact Touches.refl
    | exact rfl
    | (intro x
       refine Touches.mid (show Touches [.vis, .rep, .cells, .poison, .evr, .prt, .out] b x from ?_) (fun h => ?_)
       all_goals first | (with_reducible have h0 : Touches [.vis, .rep, .cells, .poison, .evr, .prt, .out] b x := h; clear h0; clear_value x) | subst x)
    | intro _
    | lift_lets
    | with_reducible refine Touches.ite ?_ ?_
    | with_reducible apply Touches.step (Block.count_touches ..)
    | with_reducible apply Touches.step (Block.cmdAnswer_touches ..)
    | split
    | with_reducible refine Touches.snd (by assumption) ?_
    | with_reducible refine Touches.fst (by assumption) ?_
    | (clear_value *; split)
    | dsimp only

theorem Block.outHandover_touches (b) (x1) : Touches [.vis, .act, .com, .dirty, .evr] b (Block.outHandover b x1) := by
  unfold Block.outHandover
  repeat' first
    | with_reducible assumption
    | with_reducible exact Touches.refl
    | exact rfl
    | (intro x
       refine Touches.mid (show Touches [.vis, .act, .com, .dirty, .evr] b x from ?_) (fun h => ?_)
       all_goals first | (with_reducible have h0 : Touches [.vis, .act, .com, .dirty, .evr] b x := h; clear h0; clear_value x) | subst x)
    | intro _
    | lift_lets
    | with_reducible refine Touches.ite ?_ ?_
    | ((with_reducible apply Block.handover_step) <;> first | exact rfl | intro _ _ _ | skip)
    | with_reducible apply Touches.step (Block.event_touches ..)
    | with_reducible apply Touches.step (Block.irq_touches ..)
    | split
    | with_reducible refine Touches.snd (by assumption) ?_
    | with_reducible refine Touches.fst (by assumption) ?_
    | (clear_value *; split)
    | dsimp only

theorem Block.drawOutIds_touches (b) : Touches [.free, .out] b (Block.drawOutIds b) := by
  unfold Block.drawOutIds
  exact Touches.fold Touches.refl (fun x e h => Touches.set_out _ (h.trans (Block.draw_touches ..) rfl) rfl)

end Sys2Proof.Machine
end

