-- ==== Sys2Proof/Laws/TouchCasBase.lean ====
section
/-! SUPPORT. What the operations of Machine/CasBase.lean touch. -/

namespace Sys2Proof.Machine

set_option linter.all false

theorem Block.casOut_touches (b) (x1) (x2) : Touches [.cas] b (Block.casOut b x1 x2) := by
  unfold Block.casOut
  repeat' first
    | with_reducible assumption
    | with_reducible exact Touches.refl
    | exact rfl
    | (intro x
       refine Touches.mid (show Touches [.cas] b x from ?_) (fun h => ?_)
       all_goals first | (with_reducible have h0 : Touches [.cas] b x := h; clear h0; clear_value x) | subst x)
    | intro _
    | lift_lets
    | with_reducible refine Touches.ite ?_ ?_
    | ((with_reducible apply Touches.set_cas) <;> first | with_reducible assumption | with_reducible exact Touches.refl | exact rfl | with_reducible refine Touches.snd (by assumption) ?_)
    | split
    | with_reducible refine Touches.snd (by assumption) ?_
    | with_reducible refine Touches.fst (by assumption) ?_
    | (clear_value *; split)
    | dsimp only

theorem Block.casSend_touches (b) (x1) (x2) (x3) (x4) (x5) (x6) (x7) (x8) : Touches [.cas] b (Block.casSend b x1 x2 x3 x4 x5 x6 x7 x8) := by
  unfold Block.casSend
  repeat' first
    | with_reducible assumption
    | with_reducible exact Touches.refl
    | exact rfl
    | (intro x
       refine Touches.mid (show Touches [.cas] b x from ?_) (fun h => ?_)
       all_goals first | (with_reducible have h0 : Touches [.cas] b x := h; clear h0; clear_value x) | subst x)
    | intro _
    | lift_lets
    | with_reducible refine Touches.ite ?_ ?_
    | with_reducible apply Touches.step (Block.casOut_touches ..)
    | ((with_reducible apply Touches.set_cas) <;> first | with_reducible assumption | with_reducible exact Touches.refl | exact rfl | with_reducible refine Touches.snd (by assumption) ?_)
    | split
    | with_reducible refine Touches.snd (by assumption) ?_
    | with_reducible refine Touches.fst (by assumption) ?_
    | (clear_value *; split)
    | dsimp only

theorem Block.casTrigger_touches (b) (x1) (x2) (x3) : Touches [.vis, .cas] b (Block.casTrigger b x1 x2 x3) := by
  unfold Block.casTrigger
  repeat' first
    | with_reducible assumption
    | with_reducible exact Touches.refl
    | exact rfl
    | (intro x
       refine Touches.mid (show Touches [.vis, .cas] b x from ?_) (fun h => ?_)
       all_goals first | (with_reducible have h0 : Touches [.vis, .cas] b x := h; clear h0; clear_value x) | subst x)
    | intro _
    | lift_lets
    | with_reducible refine Touches.ite ?_ ?_
    | with_reducible apply Touches.step (Block.casSend_touches ..)
    | with_reducible apply Touches.step (Block.count_touches ..)
    | split
    | with_reducible refine Touches.snd (by assumption) ?_
    | with_reducible refine Touches.fst (by assumption) ?_
    | (clear_value *; split)
    | dsimp only

end Sys2Proof.Machine
end

