-- ==== Sys2Proof/Laws/TouchSdmBase.lean ====
section
/-! SUPPORT. What the operations of Machine/SdmBase.lean touch. -/

namespace Sys2Proof.Machine

set_option linter.all false

theorem Block.setSdmCh_touches (b) (x1) (x2) : Touches [.sdm] b (Block.setSdmCh b x1 x2) := by
  unfold Block.setSdmCh
  repeat' first
    | with_reducible assumption
    | with_reducible exact Touches.refl
    | exact rfl
    | (intro x
       refine Touches.mid (show Touches [.sdm] b x from ?_) (fun h => ?_)
       all_goals first | (with_reducible have h0 : Touches [.sdm] b x := h; clear h0; clear_value x) | subst x)
    | intro _
    | lift_lets
    | with_reducible refine Touches.ite ?_ ?_
    | ((with_reducible apply Touches.set_sdm) <;> first | with_reducible assumption | with_reducible exact Touches.refl | exact rfl | with_reducible refine Touches.snd (by assumption) ?_)
    | split
    | with_reducible refine Touches.snd (by assumption) ?_
    | with_reducible refine Touches.fst (by assumption) ?_
    | (clear_value *; split)
    | dsimp only

theorem Block.sdmEmit_touches (b) (x1) (x2) (x3) : Touches [.sdm] b (Block.sdmEmit b x1 x2 x3).1 := by
  unfold Block.sdmEmit
  repeat' first
    | with_reducible assumption
    | with_reducible exact Touches.refl
    | exact rfl
    | (intro x
       refine Touches.mid (show Touches [.sdm] b x from ?_) (fun h => ?_)
       all_goals first | (with_reducible have h0 : Touches [.sdm] b x := h; clear h0; clear_value x) | subst x)
    | intro _
    | lift_lets
    | with_reducible refine Touches.ite ?_ ?_
    | with_reducible apply Touches.step (Block.setSdmCh_touches ..)
    | split
    | with_reducible refine Touches.snd (by assumption) ?_
    | with_reducible refine Touches.fst (by assumption) ?_
    | (clear_value *; split)
    | dsimp only

end Sys2Proof.Machine
end

