-- ==== Sys2Proof/Laws/TouchCapOps.lean ====
section
/-! SUPPORT. What the operations of Machine/CapOps.lean touch. -/

namespace Sys2Proof.Machine

set_option linter.all false

theorem Block.setCapU_touches (b) (x1) (x2) : Touches [.cap] b (Block.setCapU b x1 x2) := by
  unfold Block.setCapU
  repeat' first
    | with_reducible assumption
    | with_reducible exact Touches.refl
    | exact rfl
    | (intro x
       refine Touches.mid (show Touches [.cap] b x from ?_) (fun h => ?_)
       all_goals first | (with_reducible have h0 : Touches [.cap] b x := h; clear h0; clear_value x) | subst x)
    | intro _
    | lift_lets
    | with_reducible refine Touches.ite ?_ ?_
    | ((with_reducible apply Touches.set_cap) <;> first | with_reducible assumption | with_reducible exact Touches.refl | exact rfl | with_reducible refine Touches.snd (by assumption) ?_)
    | split
    | with_reducible refine Touches.snd (by assumption) ?_
    | with_reducible refine Touches.fst (by assumption) ?_
    | (clear_value *; split)
    | dsimp only

theorem Block.capOverwrite_touches (b) (x1) : Touches [.vis, .evr, .cap] b (Block.capOverwrite b x1) := by
  unfold Block.capOverwrite
  repeat' first
    | with_reducible assumption
    | with_reducible exact Touches.refl
    | exact rfl
    | (intro x
       refine Touches.mid (show Touches [.vis, .evr, .cap] b x from ?_) (fun h => ?_)
       all_goals first | (with_reducible have h0 : Touches [.vis, .evr, .cap] b x := h; clear h0; clear_value x) | subst x)
    | intro _
    | lift_lets
    | with_reducible refine Touches.ite ?_ ?_
    | with_reducible apply Touches.step (Block.event_touches ..)
    | with_reducible apply Touches.step (Block.irq_touches ..)
    | with_reducible apply Touches.step (Block.count_touches ..)
    | with_reducible apply Touches.step (Block.setCapU_touches ..)
    | split
    | with_reducible refine Touches.snd (by assumption) ?_
    | with_reducible refine Touches.fst (by assumption) ?_
    | (clear_value *; split)
    | dsimp only

theorem Block.capFull_touches (b) (x1) : Touches [.vis, .evr, .cap] b (Block.capFull b x1) := by
  unfold Block.capFull
  repeat' first
    | with_reducible assumption
    | with_reducible exact Touches.refl
    | exact rfl
    | (intro x
       refine Touches.mid (show Touches [.vis, .evr, .cap] b x from ?_) (fun h => ?_)
       all_goals first | (with_reducible have h0 : Touches [.vis, .evr, .cap] b x := h; clear h0; clear_value x) | subst x)
    | intro _
    | lift_lets
    | with_reducible refine Touches.ite ?_ ?_
    | with_reducible apply Touches.step (Block.event_touches ..)
    | with_reducible apply Touches.step (Block.irq_touches ..)
    | with_reducible apply Touches.step (Block.count_touches ..)
    | with_reducible apply Touches.step (Block.setCapU_touches ..)
    | split
    | with_reducible refine Touches.snd (by assumption) ?_
    | with_reducible refine Touches.fst (by assumption) ?_
    | (clear_value *; split)
    | dsimp only

theorem Block.capHoldCheck_touches (b) (x1) : Touches [.cap] b (Block.capHoldCheck b x1) := by
  unfold Block.capHoldCheck
  repeat' first
    | with_reducible assumption
    | with_reducible exact Touches.refl
    | exact rfl
    | (intro x
       refine Touches.mid (show Touches [.cap] b x from ?_) (fun h => ?_)
       all_goals first | (with_reducible have h0 : Touches [.cap] b x := h; clear h0; clear_value x) | subst x)
    | intro _
    | lift_lets
    | with_reducible refine Touches.ite ?_ ?_
    | with_reducible apply Touches.step (Block.setCapU_touches ..)
    | split
    | with_reducible refine Touches.snd (by assumption) ?_
    | with_reducible refine Touches.fst (by assumption) ?_
    | (clear_value *; split)
    | dsimp only

theorem Block.capCycles_touches (b) (x1) (x2) (x3) (x4) : Touches [.cells, .poison] b (Block.capCycles b x1 x2 x3 x4) := by
  unfold Block.capCycles
  repeat' first
    | with_reducible assumption
    | with_reducible exact Touches.refl
    | exact rfl
    | (intro x
       refine Touches.mid (show Touches [.cells, .poison] b x from ?_) (fun h => ?_)
       all_goals first | (with_reducible have h0 : Touches [.cells, .poison] b x := h; clear h0; clear_value x) | subst x)
    | intro _
    | lift_lets
    | with_reducible refine Touches.ite ?_ ?_
    | with_reducible apply Touches.step (Block.storeN_touches ..)
    | with_reducible refine Touches.fold ?_ (fun _ _ _ => ?_)
    | split
    | with_reducible refine Touches.snd (by assumption) ?_
    | with_reducible refine Touches.fst (by assumption) ?_
    | with_reducible refine Touches.fold1 ?_ (fun _ _ _ => ?_)
    | with_reducible refine Touches.fold2 ?_ (fun _ _ _ => ?_)
    | (clear_value *; split)
    | dsimp only

theorem Block.capSeal_touches (b) (x1) (x2) : Touches [.vis, .resp, .rep, .cells, .poison, .evr, .que, .cap] b (Block.capSeal b x1 x2) := by
  unfold Block.capSeal
  repeat' first
    | with_reducible assumption
    | with_reducible exact Touches.refl
    | exact rfl
    | (intro x
       refine Touches.mid (show Touches [.vis, .resp, .rep, .cells, .poison, .evr, .que, .cap] b x from ?_) (fun h => ?_)
       all_goals first | (with_reducible have h0 : Touches [.vis, .resp, .rep, .cells, .poison, .evr, .que, .cap] b x := h; clear h0; clear_value x) | subst x)
    | intro _
    | lift_lets
    | with_reducible refine Touches.ite ?_ ?_
    | with_reducible apply Touches.step (Block.store_touches ..)
    | with_reducible apply Touches.step (Block.capCycles_touches ..)
    | with_reducible apply Touches.step (Block.setCapU_touches ..)
    | with_reducible apply Touches.step (Block.push_touches ..)
    | with_reducible apply Touches.step (Block.event_touches ..)
    | with_reducible apply Touches.step (Block.irq_touches ..)
    | with_reducible apply Touches.step (Block.capOverwrite_touches ..)
    | with_reducible apply Touches.step (Block.capFull_touches ..)
    | with_reducible apply Touches.step (Block.capHoldCheck_touches ..)
    | split
    | with_reducible refine Touches.snd (by assumption) ?_
    | with_reducible refine Touches.fst (by assumption) ?_
    | (clear_value *; split)
    | dsimp only

theorem Block.busSignal_touches (b) (x1) (x2) (x3) : Touches [.cap] b (Block.busSignal b x1 x2 x3).1 := by
  unfold Block.busSignal
  repeat' first
    | with_reducible assumption
    | with_reducible exact Touches.refl
    | exact rfl
    | (intro x
       refine Touches.mid (show Touches [.cap] b x from ?_) (fun h => ?_)
       all_goals first | (with_reducible have h0 : Touches [.cap] b x := h; clear h0; clear_value x) | subst x)
    | intro _
    | lift_lets
    | with_reducible refine Touches.ite ?_ ?_
    | ((with_reducible apply Touches.set_cap) <;> first | with_reducible assumption | with_reducible exact Touches.refl | exact rfl | with_reducible refine Touches.snd (by assumption) ?_)
    | split
    | with_reducible refine Touches.snd (by assumption) ?_
    | with_reducible refine Touches.fst (by assumption) ?_
    | (clear_value *; split)
    | dsimp only

theorem Block.capOpen_touches (b) (x1) (x2) (x3) : Touches [.vis, .evr, .cas, .cap] b (Block.capOpen b x1 x2 x3) := by
  unfold Block.capOpen
  repeat' first
    | with_reducible assumption
    | with_reducible exact Touches.refl
    | exact rfl
    | (intro x
       refine Touches.mid (show Touches [.vis, .evr, .cas, .cap] b x from ?_) (fun h => ?_)
       all_goals first | (with_reducible have h0 : Touches [.vis, .evr, .cas, .cap] b x := h; clear h0; clear_value x) | subst x)
    | intro _
    | lift_lets
    | with_reducible refine Touches.ite ?_ ?_
    | with_reducible apply Touches.step (Block.count_touches ..)
    | with_reducible apply Touches.step (Block.setCapU_touches ..)
    | with_reducible apply Touches.step (Block.event_touches ..)
    | with_reducible apply Touches.step (Block.busSignal_touches ..)
    | with_reducible apply Touches.step (Block.casTrigger_touches ..)
    | split
    | with_reducible refine Touches.snd (by assumption) ?_
    | with_reducible refine Touches.fst (by assumption) ?_
    | (clear_value *; split)
    | dsimp only

theorem Block.capTrigger_touches (b) (x1) (x2) (x3) : Touches [.vis, .evr, .cas, .cap] b (Block.capTrigger b x1 x2 x3) := by
  unfold Block.capTrigger
  repeat' first
    | with_reducible assumption
    | with_reducible exact Touches.refl
    | exact rfl
    | (intro x
       refine Touches.mid (show Touches [.vis, .evr, .cas, .cap] b x from ?_) (fun h => ?_)
       all_goals first | (with_reducible have h0 : Touches [.vis, .evr, .cas, .cap] b x := h; clear h0; clear_value x) | subst x)
    | intro _
    | lift_lets
    | with_reducible refine Touches.ite ?_ ?_
    | with_reducible apply Touches.step (Block.capHoldCheck_touches ..)
    | with_reducible apply Touches.step (Block.capOpen_touches ..)
    | with_reducible apply Touches.step (Block.setCapU_touches ..)
    | with_reducible apply Touches.step (Block.count_touches ..)
    | split
    | with_reducible refine Touches.snd (by assumption) ?_
    | with_reducible refine Touches.fst (by assumption) ?_
    | (clear_value *; split)
    | dsimp only

theorem Block.capFire_touches (b) (x1) (x2) (x3) : Touches [.vis, .evr, .cas, .cap] b (Block.capFire b x1 x2 x3) := by
  unfold Block.capFire
  repeat' first
    | with_reducible assumption
    | with_reducible exact Touches.refl
    | exact rfl
    | (intro x
       refine Touches.mid (show Touches [.vis, .evr, .cas, .cap] b x from ?_) (fun h => ?_)
       all_goals first | (with_reducible have h0 : Touches [.vis, .evr, .cas, .cap] b x := h; clear h0; clear_value x) | subst x)
    | intro _
    | lift_lets
    | with_reducible refine Touches.ite ?_ ?_
    | with_reducible apply Touches.step (Block.capTrigger_touches ..)
    | with_reducible refine Touches.fold ?_ (fun _ _ _ => ?_)
    | split
    | with_reducible refine Touches.snd (by assumption) ?_
    | with_reducible refine Touches.fst (by assumption) ?_
    | with_reducible refine Touches.fold1 ?_ (fun _ _ _ => ?_)
    | with_reducible refine Touches.fold2 ?_ (fun _ _ _ => ?_)
    | (clear_value *; split)
    | dsimp only

theorem Block.capStoreRow_touches (b) (x1) (x2) (x3) : Touches [.cells, .poison] b (Block.capStoreRow b x1 x2 x3) := by
  unfold Block.capStoreRow
  repeat' first
    | with_reducible assumption
    | with_reducible exact Touches.refl
    | exact rfl
    | (intro x
       refine Touches.mid (show Touches [.cells, .poison] b x from ?_) (fun h => ?_)
       all_goals first | (with_reducible have h0 : Touches [.cells, .poison] b x := h; clear h0; clear_value x) | subst x)
    | intro _
    | lift_lets
    | with_reducible refine Touches.ite ?_ ?_
    | with_reducible apply Touches.step (Block.store_touches ..)
    | split
    | with_reducible refine Touches.snd (by assumption) ?_
    | with_reducible refine Touches.fst (by assumption) ?_
    | (clear_value *; split)
    | dsimp only

theorem Block.capRoom_touches (b) (x1) (x2) (x3) (x4) (z) (hz : Block.capRoom b x1 x2 x3 x4 = some z) : Touches [.vis, .resp, .rep, .cells, .poison, .evr, .que, .cap] b z := by
  induction x4 generalizing b with
  | zero => cases hz
  | succ n ih =>
    unfold Block.capRoom at hz
    dsimp only at hz
    split at hz
    · split at hz
      · split at hz
        · exact (Touches.refl.trans (Block.capSeal_touches ..) rfl).trans (ih _ hz) rfl
        · exact (Touches.refl.trans (Block.capOverwrite_touches ..) rfl).trans (ih _ hz) rfl
      · cases hz
        refine Touches.ite ((Block.capSeal_touches ..).weaken rfl) ?_
        exact (Touches.refl.trans (Block.capSeal_touches ..) rfl).trans (Block.capFull_touches ..) rfl
    · cases hz
      exact (Block.setCapU_touches ..).weaken rfl

theorem Block.capRow_touches (b) (x1) (x2) (x3) (x4) (x5) (x6) : Touches [.vis, .resp, .rep, .cells, .poison, .evr, .que, .cap] b (Block.capRow b x1 x2 x3 x4 x5 x6) := by
  unfold Block.capRow
  repeat' first
    | with_reducible assumption
    | with_reducible exact Touches.refl
    | exact rfl
    | (intro x
       refine Touches.mid (show Touches [.vis, .resp, .rep, .cells, .poison, .evr, .que, .cap] b x from ?_) (fun h => ?_)
       all_goals first | (with_reducible have h0 : Touches [.vis, .resp, .rep, .cells, .poison, .evr, .que, .cap] b x := h; clear h0; clear_value x) | subst x)
    | intro _
    | lift_lets
    | with_reducible refine Touches.ite ?_ ?_
    | with_reducible apply Touches.step (Block.capStoreRow_touches ..)
    | with_reducible apply Touches.step (Block.setCapU_touches ..)
    | (with_reducible refine Touches.trans ?_ (Block.capRoom_touches _ _ _ _ _ _ (by assumption)) ?_)
    | split
    | with_reducible refine Touches.snd (by assumption) ?_
    | with_reducible refine Touches.fst (by assumption) ?_
    | (clear_value *; split)
    | dsimp only

theorem Block.capSampleRow_touches (b) (x1) (x2) : Touches [.vis, .resp, .rep, .cells, .poison, .evr, .que, .cap] b (Block.capSampleRow b x1 x2) := by
  unfold Block.capSampleRow
  repeat' first
    | with_reducible assumption
    | with_reducible exact Touches.refl
    | exact rfl
    | (intro x
       refine Touches.mid (show Touches [.vis, .resp, .rep, .cells, .poison, .evr, .que, .cap] b x from ?_) (fun h => ?_)
       all_goals first | (with_reducible have h0 : Touches [.vis, .resp, .rep, .cells, .poison, .evr, .que, .cap] b x := h; clear h0; clear_value x) | subst x)
    | intro _
    | lift_lets
    | with_reducible refine Touches.ite ?_ ?_
    | with_reducible apply Touches.step (Block.setCapU_touches ..)
    | with_reducible apply Touches.step (Block.capRow_touches ..)
    | with_reducible refine Touches.fold ?_ (fun _ _ _ => ?_)
    | split
    | with_reducible refine Touches.snd (by assumption) ?_
    | with_reducible refine Touches.fst (by assumption) ?_
    | with_reducible refine Touches.fold1 ?_ (fun _ _ _ => ?_)
    | with_reducible refine Touches.fold2 ?_ (fun _ _ _ => ?_)
    | with_reducible refine Touches.getD (fun _ _ => ?_) ?_
    | (clear_value *; split)
    | dsimp only

theorem Block.capLevels_touches (b) (x1) (x2) (x3) (x4) (x5) : Touches [.cap] b (Block.capLevels b x1 x2 x3 x4 x5).1 := by
  unfold Block.capLevels
  repeat' first
    | with_reducible assumption
    | with_reducible exact Touches.refl
    | exact rfl
    | (intro x
       refine Touches.mid (show Touches [.cap] b x from ?_) (fun h => ?_)
       all_goals first | (with_reducible have h0 : Touches [.cap] b x := h; clear h0; clear_value x) | subst x)
    | intro _
    | lift_lets
    | with_reducible refine Touches.ite ?_ ?_
    | with_reducible apply Touches.step (Block.setCapU_touches ..)
    | with_reducible refine Touches.fold ?_ (fun _ _ _ => ?_)
    | split
    | with_reducible refine Touches.snd (by assumption) ?_
    | with_reducible refine Touches.fst (by assumption) ?_
    | with_reducible refine Touches.fold1 ?_ (fun _ _ _ => ?_)
    | with_reducible refine Touches.fold2 ?_ (fun _ _ _ => ?_)
    | (clear_value *; split)
    | dsimp only

theorem Block.capEmpty_touches (b) (x1) : Touches [.cap] b (Block.capEmpty b x1) := by
  unfold Block.capEmpty
  repeat' first
    | with_reducible assumption
    | with_reducible exact Touches.refl
    | exact rfl
    | (intro x
       refine Touches.mid (show Touches [.cap] b x from ?_) (fun h => ?_)
       all_goals first | (with_reducible have h0 : Touches [.cap] b x := h; clear h0; clear_value x) | subst x)
    | intro _
    | lift_lets
    | with_reducible refine Touches.ite ?_ ?_
    | with_reducible apply Touches.step (Block.setCapU_touches ..)
    | split
    | with_reducible refine Touches.snd (by assumption) ?_
    | with_reducible refine Touches.fst (by assumption) ?_
    | (clear_value *; split)
    | dsimp only

theorem Block.capRefresh_touches (b) (x1) : Touches [.vis, .resp, .rep, .cells, .poison, .evr, .que, .cap] b (Block.capRefresh b x1) := by
  unfold Block.capRefresh
  repeat' first
    | with_reducible assumption
    | with_reducible exact Touches.refl
    | exact rfl
    | (intro x
       refine Touches.mid (show Touches [.vis, .resp, .rep, .cells, .poison, .evr, .que, .cap] b x from ?_) (fun h => ?_)
       all_goals first | (with_reducible have h0 : Touches [.vis, .resp, .rep, .cells, .poison, .evr, .que, .cap] b x := h; clear h0; clear_value x) | subst x)
    | intro _
    | lift_lets
    | with_reducible refine Touches.ite ?_ ?_
    | with_reducible apply Touches.step (Block.capEmpty_touches ..)
    | with_reducible apply Touches.step (Block.setCapU_touches ..)
    | with_reducible apply Touches.step (Block.capOverwrite_touches ..)
    | with_reducible apply Touches.step (Block.capFull_touches ..)
    | with_reducible apply Touches.step (Block.capHoldCheck_touches ..)
    | with_reducible apply Touches.step (Block.capSeal_touches ..)
    | split
    | with_reducible refine Touches.snd (by assumption) ?_
    | with_reducible refine Touches.fst (by assumption) ?_
    | (clear_value *; split)
    | dsimp only

theorem Block.capHandover_touches (b) (x1) : Touches [.vis, .act, .com, .dirty, .resp, .rep, .cells, .poison, .evr, .que, .cap] b (Block.capHandover b x1) := by
  unfold Block.capHandover
  repeat' first
    | with_reducible assumption
    | with_reducible exact Touches.refl
    | exact rfl
    | (intro x
       refine Touches.mid (show Touches [.vis, .act, .com, .dirty, .resp, .rep, .cells, .poison, .evr, .que, .cap] b x from ?_) (fun h => ?_)
       all_goals first | (with_reducible have h0 : Touches [.vis, .act, .com, .dirty, .resp, .rep, .cells, .poison, .evr, .que, .cap] b x := h; clear h0; clear_value x) | subst x)
    | intro _
    | lift_lets
    | with_reducible refine Touches.ite ?_ ?_
    | ((with_reducible apply Block.handover_step) <;> first | exact rfl | intro _ _ _ | skip)
    | with_reducible apply Touches.step (Block.event_touches ..)
    | with_reducible apply Touches.step (Block.irq_touches ..)
    | with_reducible apply Touches.step (Block.capEmpty_touches ..)
    | with_reducible apply Touches.step (Block.capRefresh_touches ..)
    | split
    | with_reducible refine Touches.snd (by assumption) ?_
    | with_reducible refine Touches.fst (by assumption) ?_
    | (clear_value *; split)
    | dsimp only

theorem Block.capSample_touches (b) (x1) (x2) (x3) : Touches [.vis, .act, .com, .dirty, .resp, .rep, .cells, .poison, .evr, .que, .cas, .cap] b (Block.capSample b x1 x2 x3) := by
  unfold Block.capSample
  repeat' first
    | with_reducible assumption
    | with_reducible exact Touches.refl
    | exact rfl
    | (intro x
       refine Touches.mid (show Touches [.vis, .act, .com, .dirty, .resp, .rep, .cells, .poison, .evr, .que, .cas, .cap] b x from ?_) (fun h => ?_)
       all_goals first | (with_reducible have h0 : Touches [.vis, .act, .com, .dirty, .resp, .rep, .cells, .poison, .evr, .que, .cas, .cap] b x := h; clear h0; clear_value x) | subst x)
    | intro _
    | lift_lets
    | with_reducible refine Touches.ite ?_ ?_
    | with_reducible apply Touches.step (Block.capSampleRow_touches ..)
    | with_reducible apply Touches.step (Block.capLevels_touches ..)
    | with_reducible apply Touches.step (Block.capHandover_touches ..)
    | with_reducible apply Touches.step (Block.capTrigger_touches ..)
    | with_reducible refine Touches.fold ?_ (fun _ _ _ => ?_)
    | split
    | with_reducible refine Touches.snd (by assumption) ?_
    | with_reducible refine Touches.fst (by assumption) ?_
    | with_reducible refine Touches.fold1 ?_ (fun _ _ _ => ?_)
    | with_reducible refine Touches.fold2 ?_ (fun _ _ _ => ?_)
    | (clear_value *; split)
    | dsimp only

theorem Block.capInterval_touches (b) (x1) (x2) (x3) : Touches [.free, .vis, .act, .com, .dirty, .resp, .rep, .cells, .poison, .evr, .que, .cas, .cap] b (Block.capInterval b x1 x2 x3) := by
  unfold Block.capInterval
  repeat' first
    | with_reducible assumption
    | with_reducible exact Touches.refl
    | exact rfl
    | (intro x
       refine Touches.mid (show Touches [.free, .vis, .act, .com, .dirty, .resp, .rep, .cells, .poison, .evr, .que, .cas, .cap] b x from ?_) (fun h => ?_)
       all_goals first | (with_reducible have h0 : Touches [.free, .vis, .act, .com, .dirty, .resp, .rep, .cells, .poison, .evr, .que, .cas, .cap] b x := h; clear h0; clear_value x) | subst x)
    | intro _
    | lift_lets
    | with_reducible refine Touches.ite ?_ ?_
    | with_reducible apply Touches.step (Block.capHandover_touches ..)
    | with_reducible apply Touches.step (Block.draw_touches ..)
    | with_reducible apply Touches.step (Block.capRow_touches ..)
    | with_reducible apply Touches.step (Block.capLevels_touches ..)
    | with_reducible apply Touches.step (Block.capTrigger_touches ..)
    | with_reducible refine Touches.fold ?_ (fun _ _ _ => ?_)
    | split
    | with_reducible refine Touches.snd (by assumption) ?_
    | with_reducible refine Touches.fst (by assumption) ?_
    | with_reducible refine Touches.fold1 ?_ (fun _ _ _ => ?_)
    | with_reducible refine Touches.fold2 ?_ (fun _ _ _ => ?_)
    | (clear_value *; split)
    | dsimp only

theorem Block.capMode_touches (b) : Touches [.vis, .act, .com, .dirty, .resp, .rep, .cells, .poison, .evr, .que, .cap] b (Block.capMode b) := by
  unfold Block.capMode
  repeat' first
    | with_reducible assumption
    | with_reducible exact Touches.refl
    | exact rfl
    | (intro x
       refine Touches.mid (show Touches [.vis, .act, .com, .dirty, .resp, .rep, .cells, .poison, .evr, .que, .cap] b x from ?_) (fun h => ?_)
       all_goals first | (with_reducible have h0 : Touches [.vis, .act, .com, .dirty, .resp, .rep, .cells, .poison, .evr, .que, .cap] b x := h; clear h0; clear_value x) | subst x)
    | intro _
    | lift_lets
    | with_reducible refine Touches.ite ?_ ?_
    | with_reducible apply Touches.step (Block.capHandover_touches ..)
    | with_reducible apply Touches.step (Block.capRefresh_touches ..)
    | with_reducible refine Touches.fold ?_ (fun _ _ _ => ?_)
    | split
    | with_reducible refine Touches.snd (by assumption) ?_
    | with_reducible refine Touches.fst (by assumption) ?_
    | with_reducible refine Touches.fold1 ?_ (fun _ _ _ => ?_)
    | with_reducible refine Touches.fold2 ?_ (fun _ _ _ => ?_)
    | (clear_value *; split)
    | dsimp only

theorem Block.capStep_touches (b) : Touches [.cap] b (Block.capStep b) := by
  unfold Block.capStep
  repeat' first
    | with_reducible assumption
    | with_reducible exact Touches.refl
    | exact rfl
    | (intro x
       refine Touches.mid (show Touches [.cap] b x from ?_) (fun h => ?_)
       all_goals first | (with_reducible have h0 : Touches [.cap] b x := h; clear h0; clear_value x) | subst x)
    | intro _
    | lift_lets
    | with_reducible refine Touches.ite ?_ ?_
    | with_reducible apply Touches.step (Block.setCapU_touches ..)
    | with_reducible refine Touches.fold ?_ (fun _ _ _ => ?_)
    | split
    | with_reducible refine Touches.snd (by assumption) ?_
    | with_reducible refine Touches.fst (by assumption) ?_
    | with_reducible refine Touches.fold1 ?_ (fun _ _ _ => ?_)
    | with_reducible refine Touches.fold2 ?_ (fun _ _ _ => ?_)
    | (clear_value *; split)
    | dsimp only

theorem Block.capRelease_touches (b) (x1) : Touches [.cap] b (Block.capRelease b x1) := by
  unfold Block.capRelease
  repeat' first
    | with_reducible assumption
    | with_reducible exact Touches.refl
    | exact rfl
    | (intro x
       refine Touches.mid (show Touches [.cap] b x from ?_) (fun h => ?_)
       all_goals first | (with_reducible have h0 : Touches [.cap] b x := h; clear h0; clear_value x) | subst x)
    | intro _
    | lift_lets
    | with_reducible refine Touches.ite ?_ ?_
    | with_reducible apply Touches.step (Block.setCapU_touches ..)
    | with_reducible apply Touches.step (Block.capHoldCheck_touches ..)
    | split
    | with_reducible refine Touches.snd (by assumption) ?_
    | with_reducible refine Touches.fst (by assumption) ?_
    | (clear_value *; split)
    | dsimp only

theorem Block.capForce_touches (b) (x1) : Touches [.vis, .evr, .cas, .cap] b (Block.capForce b x1) := by
  unfold Block.capForce
  repeat' first
    | with_reducible assumption
    | with_reducible exact Touches.refl
    | exact rfl
    | (intro x
       refine Touches.mid (show Touches [.vis, .evr, .cas, .cap] b x from ?_) (fun h => ?_)
       all_goals first | (with_reducible have h0 : Touches [.vis, .evr, .cas, .cap] b x := h; clear h0; clear_value x) | subst x)
    | intro _
    | lift_lets
    | with_reducible refine Touches.ite ?_ ?_
    | with_reducible apply Touches.step (Block.capTrigger_touches ..)
    | split
    | with_reducible refine Touches.snd (by assumption) ?_
    | with_reducible refine Touches.fst (by assumption) ?_
    | (clear_value *; split)
    | dsimp only

theorem Block.trgEdge_touches (b) (x1) (x2) : Touches [.vis, .evr, .cas, .cap] b (Block.trgEdge b x1 x2) := by
  unfold Block.trgEdge
  repeat' first
    | with_reducible assumption
    | with_reducible exact Touches.refl
    | exact rfl
    | (intro x
       refine Touches.mid (show Touches [.vis, .evr, .cas, .cap] b x from ?_) (fun h => ?_)
       all_goals first | (with_reducible have h0 : Touches [.vis, .evr, .cas, .cap] b x := h; clear h0; clear_value x) | subst x)
    | intro _
    | lift_lets
    | with_reducible refine Touches.ite ?_ ?_
    | with_reducible apply Touches.step (Block.capFire_touches ..)
    | ((with_reducible apply Touches.set_cap) <;> first | with_reducible assumption | with_reducible exact Touches.refl | exact rfl | with_reducible refine Touches.snd (by assumption) ?_)
    | split
    | with_reducible refine Touches.snd (by assumption) ?_
    | with_reducible refine Touches.fst (by assumption) ?_
    | (clear_value *; split)
    | dsimp only

theorem Block.busActOne_touches (b) (x1) : Touches [.vis, .evr, .cas, .cap] b (Block.busActOne b x1) := by
  unfold Block.busActOne
  repeat' first
    | with_reducible assumption
    | with_reducible exact Touches.refl
    | exact rfl
    | (intro x
       refine Touches.mid (show Touches [.vis, .evr, .cas, .cap] b x from ?_) (fun h => ?_)
       all_goals first | (with_reducible have h0 : Touches [.vis, .evr, .cas, .cap] b x := h; clear h0; clear_value x) | subst x)
    | intro _
    | lift_lets
    | with_reducible refine Touches.ite ?_ ?_
    | with_reducible apply Touches.step (Block.capTrigger_touches ..)
    | ((with_reducible apply Touches.set_cap) <;> first | with_reducible assumption | with_reducible exact Touches.refl | exact rfl | with_reducible refine Touches.snd (by assumption) ?_)
    | with_reducible refine Touches.fold ?_ (fun _ _ _ => ?_)
    | split
    | with_reducible refine Touches.snd (by assumption) ?_
    | with_reducible refine Touches.fst (by assumption) ?_
    | with_reducible refine Touches.fold1 ?_ (fun _ _ _ => ?_)
    | with_reducible refine Touches.fold2 ?_ (fun _ _ _ => ?_)
    | (clear_value *; split)
    | dsimp only

theorem Block.busAct_touches (b) : Touches [.vis, .evr, .cas, .cap] b (Block.busAct b) := by
  unfold Block.busAct
  repeat' first
    | with_reducible assumption
    | with_reducible exact Touches.refl
    | exact rfl
    | (intro x
       refine Touches.mid (show Touches [.vis, .evr, .cas, .cap] b x from ?_) (fun h => ?_)
       all_goals first | (with_reducible have h0 : Touches [.vis, .evr, .cas, .cap] b x := h; clear h0; clear_value x) | subst x)
    | intro _
    | lift_lets
    | with_reducible refine Touches.ite ?_ ?_
    | with_reducible apply Touches.step (Block.busActOne_touches ..)
    | ((with_reducible apply Touches.set_cap) <;> first | with_reducible assumption | with_reducible exact Touches.refl | exact rfl | with_reducible refine Touches.snd (by assumption) ?_)
    | with_reducible refine Touches.fold ?_ (fun _ _ _ => ?_)
    | split
    | with_reducible refine Touches.snd (by assumption) ?_
    | with_reducible refine Touches.fst (by assumption) ?_
    | with_reducible refine Touches.fold1 ?_ (fun _ _ _ => ?_)
    | with_reducible refine Touches.fold2 ?_ (fun _ _ _ => ?_)
    | (clear_value *; split)
    | dsimp only

theorem Block.busArrive_touches (b) (x1) (x2) (x3) : Touches [.vis, .rep, .evr, .cas, .cap] b (Block.busArrive b x1 x2 x3) := by
  unfold Block.busArrive
  repeat' first
    | with_reducible assumption
    | with_reducible exact Touches.refl
    | exact rfl
    | (intro x
       refine Touches.mid (show Touches [.vis, .rep, .evr, .cas, .cap] b x from ?_) (fun h => ?_)
       all_goals first | (with_reducible have h0 : Touches [.vis, .rep, .evr, .cas, .cap] b x := h; clear h0; clear_value x) | subst x)
    | intro _
    | lift_lets
    | with_reducible refine Touches.ite ?_ ?_
    | with_reducible apply Touches.step (Block.busSignal_touches ..)
    | with_reducible apply Touches.step (Block.busAct_touches ..)
    | with_reducible apply Touches.step (Block.eventRep_touches ..)
    | with_reducible apply Touches.step (Block.irq_touches ..)
    | with_reducible apply Touches.step (Block.count_touches ..)
    | split
    | with_reducible refine Touches.snd (by assumption) ?_
    | with_reducible refine Touches.fst (by assumption) ?_
    | (clear_value *; split)
    | dsimp only

theorem Block.capCommit_touches (b) : Touches [.vis, .act, .com, .dirty, .resp, .rep, .cells, .poison, .evr, .que, .cap] b (Block.capCommit b) := by
  unfold Block.capCommit
  repeat' first
    | with_reducible assumption
    | with_reducible exact Touches.refl
    | exact rfl
    | (intro x
       refine Touches.mid (show Touches [.vis, .act, .com, .dirty, .resp, .rep, .cells, .poison, .evr, .que, .cap] b x from ?_) (fun h => ?_)
       all_goals first | (with_reducible have h0 : Touches [.vis, .act, .com, .dirty, .resp, .rep, .cells, .poison, .evr, .que, .cap] b x := h; clear h0; clear_value x) | subst x)
    | intro _
    | lift_lets
    | with_reducible refine Touches.ite ?_ ?_
    | with_reducible apply Touches.step (Block.ripen_touches ..)
    | with_reducible apply Touches.step (Block.commit_touches ..)
    | ((with_reducible apply Block.handover_step) <;> first | exact rfl | intro _ _ _ | skip)
    | with_reducible apply Touches.step (Block.event_touches ..)
    | with_reducible apply Touches.step (Block.irq_touches ..)
    | with_reducible apply Touches.step (Block.capHandover_touches ..)
    | with_reducible refine Touches.fold ?_ (fun _ _ _ => ?_)
    | split
    | with_reducible refine Touches.snd (by assumption) ?_
    | with_reducible refine Touches.fst (by assumption) ?_
    | with_reducible refine Touches.fold1 ?_ (fun _ _ _ => ?_)
    | with_reducible refine Touches.fold2 ?_ (fun _ _ _ => ?_)
    | (clear_value *; split)
    | dsimp only

theorem Block.capHoldoffEnd_touches (b) (x1) : Touches [.vis, .act, .com, .dirty, .resp, .rep, .cells, .poison, .evr, .que, .cap] b (Block.capHoldoffEnd b x1) := by
  unfold Block.capHoldoffEnd
  repeat' first
    | with_reducible assumption
    | with_reducible exact Touches.refl
    | exact rfl
    | (intro x
       refine Touches.mid (show Touches [.vis, .act, .com, .dirty, .resp, .rep, .cells, .poison, .evr, .que, .cap] b x from ?_) (fun h => ?_)
       all_goals first | (with_reducible have h0 : Touches [.vis, .act, .com, .dirty, .resp, .rep, .cells, .poison, .evr, .que, .cap] b x := h; clear h0; clear_value x) | subst x)
    | intro _
    | lift_lets
    | with_reducible refine Touches.ite ?_ ?_
    | with_reducible apply Touches.step (Block.capHandover_touches ..)
    | with_reducible apply Touches.step (Block.capHoldCheck_touches ..)
    | split
    | with_reducible refine Touches.snd (by assumption) ?_
    | with_reducible refine Touches.fst (by assumption) ?_
    | (clear_value *; split)
    | dsimp only

theorem Block.capSealNow_touches (b) (x1) : Touches [.vis, .act, .com, .dirty, .resp, .rep, .cells, .poison, .evr, .que, .cap] b (Block.capSealNow b x1) := by
  unfold Block.capSealNow
  repeat' first
    | with_reducible assumption
    | with_reducible exact Touches.refl
    | exact rfl
    | (intro x
       refine Touches.mid (show Touches [.vis, .act, .com, .dirty, .resp, .rep, .cells, .poison, .evr, .que, .cap] b x from ?_) (fun h => ?_)
       all_goals first | (with_reducible have h0 : Touches [.vis, .act, .com, .dirty, .resp, .rep, .cells, .poison, .evr, .que, .cap] b x := h; clear h0; clear_value x) | subst x)
    | intro _
    | lift_lets
    | with_reducible refine Touches.ite ?_ ?_
    | with_reducible apply Touches.step (Block.capHandover_touches ..)
    | with_reducible apply Touches.step (Block.capSeal_touches ..)
    | split
    | with_reducible refine Touches.snd (by assumption) ?_
    | with_reducible refine Touches.fst (by assumption) ?_
    | (clear_value *; split)
    | dsimp only

end Sys2Proof.Machine
end

