-- ==== Sys2Proof/Laws/TouchAlmOps.lean ====
section
/-! SUPPORT. What the operations of Machine/AlmOps.lean touch. -/

namespace Sys2Proof.Machine

set_option linter.all false

theorem Block.setDet_touches (b) (x1) (x2) : Touches [.alm] b (Block.setDet b x1 x2) := by
  unfold Block.setDet
  repeat' first
    | with_reducible assumption
    | with_reducible exact Touches.refl
    | exact rfl
    | (intro x
       refine Touches.mid (show Touches [.alm] b x from ?_) (fun h => ?_)
       all_goals first | (with_reducible have h0 : Touches [.alm] b x := h; clear h0; clear_value x) | subst x)
    | intro _
    | lift_lets
    | with_reducible refine Touches.ite ?_ ?_
    | ((with_reducible apply Touches.set_alm) <;> first | with_reducible assumption | with_reducible exact Touches.refl | exact rfl | with_reducible refine Touches.snd (by assumption) ?_)
    | split
    | with_reducible refine Touches.snd (by assumption) ?_
    | with_reducible refine Touches.fst (by assumption) ?_
    | (clear_value *; split)
    | dsimp only

theorem Block.setPair_touches (b) (x1) (x2) : Touches [.alm] b (Block.setPair b x1 x2) := by
  unfold Block.setPair
  repeat' first
    | with_reducible assumption
    | with_reducible exact Touches.refl
    | exact rfl
    | (intro x
       refine Touches.mid (show Touches [.alm] b x from ?_) (fun h => ?_)
       all_goals first | (with_reducible have h0 : Touches [.alm] b x := h; clear h0; clear_value x) | subst x)
    | intro _
    | lift_lets
    | with_reducible refine Touches.ite ?_ ?_
    | ((with_reducible apply Touches.set_alm) <;> first | with_reducible assumption | with_reducible exact Touches.refl | exact rfl | with_reducible refine Touches.snd (by assumption) ?_)
    | split
    | with_reducible refine Touches.snd (by assumption) ?_
    | with_reducible refine Touches.fst (by assumption) ?_
    | (clear_value *; split)
    | dsimp only

theorem Block.thrEval_touches (b) (x1) (x2) (x3) : Touches [.alm] b (Block.thrEval b x1 x2 x3) := by
  unfold Block.thrEval
  repeat' first
    | with_reducible assumption
    | with_reducible exact Touches.refl
    | exact rfl
    | (intro x
       refine Touches.mid (show Touches [.alm] b x from ?_) (fun h => ?_)
       all_goals first | (with_reducible have h0 : Touches [.alm] b x := h; clear h0; clear_value x) | subst x)
    | intro _
    | lift_lets
    | with_reducible refine Touches.ite ?_ ?_
    | with_reducible apply Touches.step (Block.setDet_touches ..)
    | split
    | with_reducible refine Touches.snd (by assumption) ?_
    | with_reducible refine Touches.fst (by assumption) ?_
    | (clear_value *; split)
    | dsimp only

theorem Block.pairEval_touches (b) (x1) (x2) (x3) : Touches [.alm] b (Block.pairEval b x1 x2 x3) := by
  unfold Block.pairEval
  repeat' first
    | with_reducible assumption
    | with_reducible exact Touches.refl
    | exact rfl
    | (intro x
       refine Touches.mid (show Touches [.alm] b x from ?_) (fun h => ?_)
       all_goals first | (with_reducible have h0 : Touches [.alm] b x := h; clear h0; clear_value x) | subst x)
    | intro _
    | lift_lets
    | with_reducible refine Touches.ite ?_ ?_
    | with_reducible apply Touches.step (Block.setPair_touches ..)
    | split
    | with_reducible refine Touches.snd (by assumption) ?_
    | with_reducible refine Touches.fst (by assumption) ?_
    | (clear_value *; split)
    | dsimp only

theorem Block.almPins_touches (b) : Touches [.alm] b (Block.almPins b) := by
  unfold Block.almPins
  repeat' first
    | with_reducible assumption
    | with_reducible exact Touches.refl
    | exact rfl
    | (intro x
       refine Touches.mid (show Touches [.alm] b x from ?_) (fun h => ?_)
       all_goals first | (with_reducible have h0 : Touches [.alm] b x := h; clear h0; clear_value x) | subst x)
    | intro _
    | lift_lets
    | with_reducible refine Touches.ite ?_ ?_
    | ((with_reducible apply Touches.set_alm) <;> first | with_reducible assumption | with_reducible exact Touches.refl | exact rfl | with_reducible refine Touches.snd (by assumption) ?_)
    | with_reducible refine Touches.fold ?_ (fun _ _ _ => ?_)
    | split
    | with_reducible refine Touches.snd (by assumption) ?_
    | with_reducible refine Touches.fst (by assumption) ?_
    | with_reducible refine Touches.fold1 ?_ (fun _ _ _ => ?_)
    | with_reducible refine Touches.fold2 ?_ (fun _ _ _ => ?_)
    | (clear_value *; split)
    | dsimp only

theorem Block.pulsesDriven_touches (b) : Touches [.alm] b (Block.pulsesDriven b) := by
  unfold Block.pulsesDriven
  repeat' first
    | with_reducible assumption
    | with_reducible exact Touches.refl
    | exact rfl
    | (intro x
       refine Touches.mid (show Touches [.alm] b x from ?_) (fun h => ?_)
       all_goals first | (with_reducible have h0 : Touches [.alm] b x := h; clear h0; clear_value x) | subst x)
    | intro _
    | lift_lets
    | with_reducible refine Touches.ite ?_ ?_
    | ((with_reducible apply Touches.set_alm) <;> first | with_reducible assumption | with_reducible exact Touches.refl | exact rfl | with_reducible refine Touches.snd (by assumption) ?_)
    | split
    | with_reducible refine Touches.snd (by assumption) ?_
    | with_reducible refine Touches.fst (by assumption) ?_
    | (clear_value *; split)
    | dsimp only

theorem Block.pulseOver_touches (b) (x1) : Touches [.alm] b (Block.pulseOver b x1) := by
  unfold Block.pulseOver
  repeat' first
    | with_reducible assumption
    | with_reducible exact Touches.refl
    | exact rfl
    | (intro x
       refine Touches.mid (show Touches [.alm] b x from ?_) (fun h => ?_)
       all_goals first | (with_reducible have h0 : Touches [.alm] b x := h; clear h0; clear_value x) | subst x)
    | intro _
    | lift_lets
    | with_reducible refine Touches.ite ?_ ?_
    | ((with_reducible apply Touches.set_alm) <;> first | with_reducible assumption | with_reducible exact Touches.refl | exact rfl | with_reducible refine Touches.snd (by assumption) ?_)
    | split
    | with_reducible refine Touches.snd (by assumption) ?_
    | with_reducible refine Touches.fst (by assumption) ?_
    | (clear_value *; split)
    | dsimp only

theorem Block.setPub_touches (b) (x1) (x2) : Touches [.alm] b (Block.setPub b x1 x2) := by
  unfold Block.setPub
  repeat' first
    | with_reducible assumption
    | with_reducible exact Touches.refl
    | exact rfl
    | (intro x
       refine Touches.mid (show Touches [.alm] b x from ?_) (fun h => ?_)
       all_goals first | (with_reducible have h0 : Touches [.alm] b x := h; clear h0; clear_value x) | subst x)
    | intro _
    | lift_lets
    | with_reducible refine Touches.ite ?_ ?_
    | ((with_reducible apply Touches.set_alm) <;> first | with_reducible assumption | with_reducible exact Touches.refl | exact rfl | with_reducible refine Touches.snd (by assumption) ?_)
    | split
    | with_reducible refine Touches.snd (by assumption) ?_
    | with_reducible refine Touches.fst (by assumption) ?_
    | (clear_value *; split)
    | dsimp only

theorem Block.pubSend_touches (b) (x1) (x2) : Touches [.free, .vis, .rep, .evr, .prt, .out] b (Block.pubSend b x1 x2) := by
  unfold Block.pubSend
  repeat' first
    | with_reducible assumption
    | with_reducible exact Touches.refl
    | exact rfl
    | (intro x
       refine Touches.mid (show Touches [.free, .vis, .rep, .evr, .prt, .out] b x from ?_) (fun h => ?_)
       all_goals first | (with_reducible have h0 : Touches [.free, .vis, .rep, .evr, .prt, .out] b x := h; clear h0; clear_value x) | subst x)
    | intro _
    | lift_lets
    | with_reducible refine Touches.ite ?_ ?_
    | with_reducible apply Touches.step (Block.count_touches ..)
    | with_reducible apply Touches.step (Block.enqueueAll_touches ..)
    | with_reducible apply Touches.step (Block.event_touches ..)
    | with_reducible apply Touches.step (Block.eventRep_touches ..)
    | with_reducible apply Touches.step (Block.irq_touches ..)
    | with_reducible apply Touches.step (Block.draw_touches ..)
    | with_reducible apply Touches.step (Block.noteSigned_touches ..)
    | with_reducible apply Touches.step (Block.udpSend_touches ..)
    | split
    | with_reducible refine Touches.snd (by assumption) ?_
    | with_reducible refine Touches.fst (by assumption) ?_
    | (clear_value *; split)
    | dsimp only

theorem Block.pubChange_touches (b) (x1) (x2) (x3) (x4) : Touches [.free, .vis, .rep, .evr, .prt, .out, .alm] b (Block.pubChange b x1 x2 x3 x4) := by
  unfold Block.pubChange
  repeat' first
    | with_reducible assumption
    | with_reducible exact Touches.refl
    | exact rfl
    | (intro x
       refine Touches.mid (show Touches [.free, .vis, .rep, .evr, .prt, .out, .alm] b x from ?_) (fun h => ?_)
       all_goals first | (with_reducible have h0 : Touches [.free, .vis, .rep, .evr, .prt, .out, .alm] b x := h; clear h0; clear_value x) | subst x)
    | intro _
    | lift_lets
    | with_reducible refine Touches.ite ?_ ?_
    | with_reducible apply Touches.step (Block.pubSend_touches ..)
    | with_reducible apply Touches.step (Block.setPub_touches ..)
    | split
    | with_reducible refine Touches.snd (by assumption) ?_
    | with_reducible refine Touches.fst (by assumption) ?_
    | (clear_value *; split)
    | dsimp only

theorem Block.pubUpdate_touches (b) (x1) (x2) (x3) : Touches [.free, .vis, .rep, .evr, .prt, .out, .alm] b (Block.pubUpdate b x1 x2 x3) := by
  unfold Block.pubUpdate
  repeat' first
    | with_reducible assumption
    | with_reducible exact Touches.refl
    | exact rfl
    | (intro x
       refine Touches.mid (show Touches [.free, .vis, .rep, .evr, .prt, .out, .alm] b x from ?_) (fun h => ?_)
       all_goals first | (with_reducible have h0 : Touches [.free, .vis, .rep, .evr, .prt, .out, .alm] b x := h; clear h0; clear_value x) | subst x)
    | intro _
    | lift_lets
    | with_reducible refine Touches.ite ?_ ?_
    | with_reducible apply Touches.step (Block.pubChange_touches ..)
    | with_reducible refine Touches.fold ?_ (fun _ _ _ => ?_)
    | split
    | with_reducible refine Touches.snd (by assumption) ?_
    | with_reducible refine Touches.fst (by assumption) ?_
    | with_reducible refine Touches.fold1 ?_ (fun _ _ _ => ?_)
    | with_reducible refine Touches.fold2 ?_ (fun _ _ _ => ?_)
    | (clear_value *; split)
    | dsimp only

theorem Block.pubRefresh_touches (b) : Touches [.free, .vis, .rep, .evr, .prt, .out, .alm] b (Block.pubRefresh b) := by
  unfold Block.pubRefresh
  repeat' first
    | with_reducible assumption
    | with_reducible exact Touches.refl
    | exact rfl
    | (intro x
       refine Touches.mid (show Touches [.free, .vis, .rep, .evr, .prt, .out, .alm] b x from ?_) (fun h => ?_)
       all_goals first | (with_reducible have h0 : Touches [.free, .vis, .rep, .evr, .prt, .out, .alm] b x := h; clear h0; clear_value x) | subst x)
    | intro _
    | lift_lets
    | with_reducible refine Touches.ite ?_ ?_
    | with_reducible apply Touches.step (Block.pubChange_touches ..)
    | with_reducible apply Touches.step (Block.setPub_touches ..)
    | with_reducible refine Touches.fold ?_ (fun _ _ _ => ?_)
    | split
    | with_reducible refine Touches.snd (by assumption) ?_
    | with_reducible refine Touches.fst (by assumption) ?_
    | with_reducible refine Touches.fold1 ?_ (fun _ _ _ => ?_)
    | with_reducible refine Touches.fold2 ?_ (fun _ _ _ => ?_)
    | (clear_value *; split)
    | dsimp only

theorem Block.gooseRepeat_touches (b) (x1) (x2) : Touches [.free, .vis, .rep, .evr, .prt, .out, .alm] b (Block.gooseRepeat b x1 x2) := by
  unfold Block.gooseRepeat
  repeat' first
    | with_reducible assumption
    | with_reducible exact Touches.refl
    | exact rfl
    | (intro x
       refine Touches.mid (show Touches [.free, .vis, .rep, .evr, .prt, .out, .alm] b x from ?_) (fun h => ?_)
       all_goals first | (with_reducible have h0 : Touches [.free, .vis, .rep, .evr, .prt, .out, .alm] b x := h; clear h0; clear_value x) | subst x)
    | intro _
    | lift_lets
    | with_reducible refine Touches.ite ?_ ?_
    | with_reducible apply Touches.step (Block.pubSend_touches ..)
    | with_reducible apply Touches.step (Block.setPub_touches ..)
    | split
    | with_reducible refine Touches.snd (by assumption) ?_
    | with_reducible refine Touches.fst (by assumption) ?_
    | (clear_value *; split)
    | dsimp only

theorem Block.almMode_touches (b) : Touches [.free, .vis, .rep, .evr, .prt, .out, .alm] b (Block.almMode b) := by
  unfold Block.almMode
  repeat' first
    | with_reducible assumption
    | with_reducible exact Touches.refl
    | exact rfl
    | (intro x
       refine Touches.mid (show Touches [.free, .vis, .rep, .evr, .prt, .out, .alm] b x from ?_) (fun h => ?_)
       all_goals first | (with_reducible have h0 : Touches [.free, .vis, .rep, .evr, .prt, .out, .alm] b x := h; clear h0; clear_value x) | subst x)
    | intro _
    | lift_lets
    | with_reducible refine Touches.ite ?_ ?_
    | with_reducible apply Touches.step (Block.pulsesDriven_touches ..)
    | with_reducible apply Touches.step (Block.setVis_touches ..)
    | with_reducible apply Touches.step (Block.pubRefresh_touches ..)
    | split
    | with_reducible refine Touches.snd (by assumption) ?_
    | with_reducible refine Touches.fst (by assumption) ?_
    | (clear_value *; split)
    | dsimp only

theorem Block.setDef_touches (b) (x1) (x2) : Touches [.alm] b (Block.setDef b x1 x2) := by
  unfold Block.setDef
  repeat' first
    | with_reducible assumption
    | with_reducible exact Touches.refl
    | exact rfl
    | (intro x
       refine Touches.mid (show Touches [.alm] b x from ?_) (fun h => ?_)
       all_goals first | (with_reducible have h0 : Touches [.alm] b x := h; clear h0; clear_value x) | subst x)
    | intro _
    | lift_lets
    | with_reducible refine Touches.ite ?_ ?_
    | ((with_reducible apply Touches.set_alm) <;> first | with_reducible assumption | with_reducible exact Touches.refl | exact rfl | with_reducible refine Touches.snd (by assumption) ?_)
    | split
    | with_reducible refine Touches.snd (by assumption) ?_
    | with_reducible refine Touches.fst (by assumption) ?_
    | (clear_value *; split)
    | dsimp only

theorem Block.almItem_touches (b) (x1) (x2) (x3) (x4) (x5) : Touches [.vis, .resp, .rep, .poison, .evr, .que] b (Block.almItem b x1 x2 x3 x4 x5) := by
  unfold Block.almItem
  repeat' first
    | with_reducible assumption
    | with_reducible exact Touches.refl
    | exact rfl
    | (intro x
       refine Touches.mid (show Touches [.vis, .resp, .rep, .poison, .evr, .que] b x from ?_) (fun h => ?_)
       all_goals first | (with_reducible have h0 : Touches [.vis, .resp, .rep, .poison, .evr, .que] b x := h; clear h0; clear_value x) | subst x)
    | intro _
    | lift_lets
    | with_reducible refine Touches.ite ?_ ?_
    | with_reducible apply Touches.step (Block.push_touches ..)
    | with_reducible apply Touches.step (Block.count_touches ..)
    | split
    | with_reducible refine Touches.snd (by assumption) ?_
    | with_reducible refine Touches.fst (by assumption) ?_
    | (clear_value *; split)
    | dsimp only

theorem Block.holdDef_touches (b) (x1) (x2) : Touches [.vis, .alm] b (Block.holdDef b x1 x2) := by
  unfold Block.holdDef
  repeat' first
    | with_reducible assumption
    | with_reducible exact Touches.refl
    | exact rfl
    | (intro x
       refine Touches.mid (show Touches [.vis, .alm] b x from ?_) (fun h => ?_)
       all_goals first | (with_reducible have h0 : Touches [.vis, .alm] b x := h; clear h0; clear_value x) | subst x)
    | intro _
    | lift_lets
    | with_reducible refine Touches.ite ?_ ?_
    | with_reducible apply Touches.step (Block.count_touches ..)
    | with_reducible apply Touches.step (Block.setDef_touches ..)
    | split
    | with_reducible refine Touches.snd (by assumption) ?_
    | with_reducible refine Touches.fst (by assumption) ?_
    | (clear_value *; split)
    | dsimp only

theorem Block.evalDef_touches (b) (x1) (x2) (x3) : Touches [.vis, .resp, .rep, .poison, .evr, .que, .cas, .alm, .cap] b (Block.evalDef b x1 x2 x3) := by
  unfold Block.evalDef
  repeat' first
    | with_reducible assumption
    | with_reducible exact Touches.refl
    | exact rfl
    | (intro x
       refine Touches.mid (show Touches [.vis, .resp, .rep, .poison, .evr, .que, .cas, .alm, .cap] b x from ?_) (fun h => ?_)
       all_goals first | (with_reducible have h0 : Touches [.vis, .resp, .rep, .poison, .evr, .que, .cas, .alm, .cap] b x := h; clear h0; clear_value x) | subst x)
    | intro _
    | lift_lets
    | with_reducible refine Touches.ite ?_ ?_
    | with_reducible apply Touches.step (Block.setDef_touches ..)
    | with_reducible apply Touches.step (Block.holdDef_touches ..)
    | with_reducible apply Touches.step (Block.event_touches ..)
    | with_reducible apply Touches.step (Block.almItem_touches ..)
    | with_reducible apply Touches.step (Block.irq_touches ..)
    | with_reducible apply Touches.step (Block.count_touches ..)
    | with_reducible apply Touches.step (Block.capFire_touches ..)
    | split
    | with_reducible refine Touches.snd (by assumption) ?_
    | with_reducible refine Touches.fst (by assumption) ?_
    | with_reducible refine Touches.getD (fun _ _ => ?_) ?_
    | (clear_value *; split)
    | dsimp only

theorem Block.almNote_touches (b) : Touches [.alm] b (Block.almNote b) := by
  unfold Block.almNote
  repeat' first
    | with_reducible assumption
    | with_reducible exact Touches.refl
    | exact rfl
    | (intro x
       refine Touches.mid (show Touches [.alm] b x from ?_) (fun h => ?_)
       all_goals first | (with_reducible have h0 : Touches [.alm] b x := h; clear h0; clear_value x) | subst x)
    | intro _
    | lift_lets
    | with_reducible refine Touches.ite ?_ ?_
    | ((with_reducible apply Touches.set_alm) <;> first | with_reducible assumption | with_reducible exact Touches.refl | exact rfl | with_reducible refine Touches.snd (by assumption) ?_)
    | with_reducible refine Touches.fold ?_ (fun _ _ _ => ?_)
    | split
    | with_reducible refine Touches.snd (by assumption) ?_
    | with_reducible refine Touches.fst (by assumption) ?_
    | with_reducible refine Touches.fold1 ?_ (fun _ _ _ => ?_)
    | with_reducible refine Touches.fold2 ?_ (fun _ _ _ => ?_)
    | (clear_value *; split)
    | dsimp only

theorem Block.almDeliver_touches (b) (x1) (x2) : Touches [.free, .vis, .rep, .evr, .prt, .out, .alm] b (Block.almDeliver b x1 x2) := by
  unfold Block.almDeliver
  repeat' first
    | with_reducible assumption
    | with_reducible exact Touches.refl
    | exact rfl
    | (intro x
       refine Touches.mid (show Touches [.free, .vis, .rep, .evr, .prt, .out, .alm] b x from ?_) (fun h => ?_)
       all_goals first | (with_reducible have h0 : Touches [.free, .vis, .rep, .evr, .prt, .out, .alm] b x := h; clear h0; clear_value x) | subst x)
    | intro _
    | lift_lets
    | with_reducible refine Touches.ite ?_ ?_
    | with_reducible apply Touches.step (Block.pubUpdate_touches ..)
    | with_reducible apply Touches.step (Block.almPins_touches ..)
    | with_reducible apply Touches.step (Block.almNote_touches ..)
    | split
    | with_reducible refine Touches.snd (by assumption) ?_
    | with_reducible refine Touches.fst (by assumption) ?_
    | (clear_value *; split)
    | dsimp only

theorem Block.almEvaluate_touches (b) (x1) : Touches [.free, .vis, .resp, .rep, .poison, .evr, .que, .prt, .out, .cas, .alm, .cap] b (Block.almEvaluate b x1) := by
  unfold Block.almEvaluate
  repeat' first
    | with_reducible assumption
    | with_reducible exact Touches.refl
    | exact rfl
    | (intro x
       refine Touches.mid (show Touches [.free, .vis, .resp, .rep, .poison, .evr, .que, .prt, .out, .cas, .alm, .cap] b x from ?_) (fun h => ?_)
       all_goals first | (with_reducible have h0 : Touches [.free, .vis, .resp, .rep, .poison, .evr, .que, .prt, .out, .cas, .alm, .cap] b x := h; clear h0; clear_value x) | subst x)
    | intro _
    | lift_lets
    | with_reducible refine Touches.ite ?_ ?_
    | with_reducible apply Touches.step (Block.evalDef_touches ..)
    | with_reducible apply Touches.step (Block.almDeliver_touches ..)
    | with_reducible refine Touches.fold ?_ (fun _ _ _ => ?_)
    | split
    | with_reducible refine Touches.snd (by assumption) ?_
    | with_reducible refine Touches.fst (by assumption) ?_
    | with_reducible refine Touches.fold1 ?_ (fun _ _ _ => ?_)
    | with_reducible refine Touches.fold2 ?_ (fun _ _ _ => ?_)
    | (clear_value *; split)
    | dsimp only

theorem Block.almPublish_touches (b) (x1) (x2) (x3) (x4) : Touches [.free, .vis, .resp, .rep, .poison, .evr, .que, .prt, .out, .cas, .alm, .cap] b (Block.almPublish b x1 x2 x3 x4) := by
  unfold Block.almPublish
  repeat' first
    | with_reducible assumption
    | with_reducible exact Touches.refl
    | exact rfl
    | (intro x
       refine Touches.mid (show Touches [.free, .vis, .resp, .rep, .poison, .evr, .que, .prt, .out, .cas, .alm, .cap] b x from ?_) (fun h => ?_)
       all_goals first | (with_reducible have h0 : Touches [.free, .vis, .resp, .rep, .poison, .evr, .que, .prt, .out, .cas, .alm, .cap] b x := h; clear h0; clear_value x) | subst x)
    | intro _
    | lift_lets
    | with_reducible refine Touches.ite ?_ ?_
    | with_reducible apply Touches.step (Block.almEvaluate_touches ..)
    | ((with_reducible apply Touches.set_alm) <;> first | with_reducible assumption | with_reducible exact Touches.refl | exact rfl | with_reducible refine Touches.snd (by assumption) ?_)
    | split
    | with_reducible refine Touches.snd (by assumption) ?_
    | with_reducible refine Touches.fst (by assumption) ?_
    | (clear_value *; split)
    | dsimp only

theorem Block.almExpire_touches (b) (x1) (x2) : Touches [.free, .vis, .rep, .evr, .prt, .out, .alm] b (Block.almExpire b x1 x2) := by
  unfold Block.almExpire
  repeat' first
    | with_reducible assumption
    | with_reducible exact Touches.refl
    | exact rfl
    | (intro x
       refine Touches.mid (show Touches [.free, .vis, .rep, .evr, .prt, .out, .alm] b x from ?_) (fun h => ?_)
       all_goals first | (with_reducible have h0 : Touches [.free, .vis, .rep, .evr, .prt, .out, .alm] b x := h; clear h0; clear_value x) | subst x)
    | intro _
    | lift_lets
    | with_reducible refine Touches.ite ?_ ?_
    | with_reducible apply Touches.step (Block.holdDef_touches ..)
    | with_reducible apply Touches.step (Block.almDeliver_touches ..)
    | with_reducible apply Touches.step (Block.count_touches ..)
    | with_reducible refine Touches.fold ?_ (fun _ _ _ => ?_)
    | split
    | with_reducible refine Touches.snd (by assumption) ?_
    | with_reducible refine Touches.fst (by assumption) ?_
    | with_reducible refine Touches.fold1 ?_ (fun _ _ _ => ?_)
    | with_reducible refine Touches.fold2 ?_ (fun _ _ _ => ?_)
    | (clear_value *; split)
    | dsimp only

theorem Block.almClose_touches (b) (x1) (x2) : Touches [.alm] b (Block.almClose b x1 x2) := by
  unfold Block.almClose
  repeat' first
    | with_reducible assumption
    | with_reducible exact Touches.refl
    | exact rfl
    | (intro x
       refine Touches.mid (show Touches [.alm] b x from ?_) (fun h => ?_)
       all_goals first | (with_reducible have h0 : Touches [.alm] b x := h; clear h0; clear_value x) | subst x)
    | intro _
    | lift_lets
    | with_reducible refine Touches.ite ?_ ?_
    | with_reducible apply Touches.step (Block.almNote_touches ..)
    | ((with_reducible apply Touches.set_alm) <;> first | with_reducible assumption | with_reducible exact Touches.refl | exact rfl | with_reducible refine Touches.snd (by assumption) ?_)
    | split
    | with_reducible refine Touches.snd (by assumption) ?_
    | with_reducible refine Touches.fst (by assumption) ?_
    | (clear_value *; split)
    | dsimp only

theorem Block.defReset_touches (b) (x1) : Touches [.alm] b (Block.defReset b x1) := by
  unfold Block.defReset
  repeat' first
    | with_reducible assumption
    | with_reducible exact Touches.refl
    | exact rfl
    | (intro x
       refine Touches.mid (show Touches [.alm] b x from ?_) (fun h => ?_)
       all_goals first | (with_reducible have h0 : Touches [.alm] b x := h; clear h0; clear_value x) | subst x)
    | intro _
    | lift_lets
    | with_reducible refine Touches.ite ?_ ?_
    | with_reducible apply Touches.step (Block.setDef_touches ..)
    | split
    | with_reducible refine Touches.snd (by assumption) ?_
    | with_reducible refine Touches.fst (by assumption) ?_
    | (clear_value *; split)
    | dsimp only

theorem Block.diChange_touches (b) (x1) (x2) (x3) : Touches [.vis, .evr, .cas, .alm, .cap] b (Block.diChange b x1 x2 x3) := by
  unfold Block.diChange
  repeat' first
    | with_reducible assumption
    | with_reducible exact Touches.refl
    | exact rfl
    | (intro x
       refine Touches.mid (show Touches [.vis, .evr, .cas, .alm, .cap] b x from ?_) (fun h => ?_)
       all_goals first | (with_reducible have h0 : Touches [.vis, .evr, .cas, .alm, .cap] b x := h; clear h0; clear_value x) | subst x)
    | intro _
    | lift_lets
    | with_reducible refine Touches.ite ?_ ?_
    | with_reducible apply Touches.step (Block.capFire_touches ..)
    | ((with_reducible apply Touches.set_alm) <;> first | with_reducible assumption | with_reducible exact Touches.refl | exact rfl | with_reducible refine Touches.snd (by assumption) ?_)
    | split
    | with_reducible refine Touches.snd (by assumption) ?_
    | with_reducible refine Touches.fst (by assumption) ?_
    | (clear_value *; split)
    | dsimp only

theorem Block.islCount_touches (b) (x1) : Touches [.dfe] b (Block.islCount b x1) := by
  unfold Block.islCount
  repeat' first
    | with_reducible assumption
    | with_reducible exact Touches.refl
    | exact rfl
    | (intro x
       refine Touches.mid (show Touches [.dfe] b x from ?_) (fun h => ?_)
       all_goals first | (with_reducible have h0 : Touches [.dfe] b x := h; clear h0; clear_value x) | subst x)
    | intro _
    | lift_lets
    | with_reducible refine Touches.ite ?_ ?_
    | ((with_reducible apply Touches.set_dfe) <;> first | with_reducible assumption | with_reducible exact Touches.refl | exact rfl | with_reducible refine Touches.snd (by assumption) ?_)
    | split
    | with_reducible refine Touches.snd (by assumption) ?_
    | with_reducible refine Touches.fst (by assumption) ?_
    | (clear_value *; split)
    | dsimp only

theorem Block.islPublish_touches (b) : Touches [.free, .vis, .resp, .rep, .cells, .poison, .evr, .que, .dfe, .prt, .out, .cas, .isl, .alm, .cap] b (Block.islPublish b) := by
  unfold Block.islPublish
  repeat' first
    | with_reducible assumption
    | with_reducible exact Touches.refl
    | exact rfl
    | (intro x
       refine Touches.mid (show Touches [.free, .vis, .resp, .rep, .cells, .poison, .evr, .que, .dfe, .prt, .out, .cas, .isl, .alm, .cap] b x from ?_) (fun h => ?_)
       all_goals first | (with_reducible have h0 : Touches [.free, .vis, .resp, .rep, .cells, .poison, .evr, .que, .dfe, .prt, .out, .cas, .isl, .alm, .cap] b x := h; clear h0; clear_value x) | subst x)
    | intro _
    | lift_lets
    | with_reducible refine Touches.ite ?_ ?_
    | with_reducible apply Touches.step (Block.almPublish_touches ..)
    | with_reducible apply Touches.step (Block.islCount_touches ..)
    | with_reducible apply Touches.step (Block.islRun_touches ..)
    | ((with_reducible apply Touches.set_isl) <;> first | with_reducible assumption | with_reducible exact Touches.refl | exact rfl | with_reducible refine Touches.snd (by assumption) ?_)
    | split
    | with_reducible refine Touches.snd (by assumption) ?_
    | with_reducible refine Touches.fst (by assumption) ?_
    | (clear_value *; split)
    | dsimp only

theorem Block.almAdopted_touches (b) (x1) (x2) : Touches [.alm] b (Block.almAdopted b x1 x2) := by
  unfold Block.almAdopted
  repeat' first
    | with_reducible assumption
    | with_reducible exact Touches.refl
    | exact rfl
    | (intro x
       refine Touches.mid (show Touches [.alm] b x from ?_) (fun h => ?_)
       all_goals first | (with_reducible have h0 : Touches [.alm] b x := h; clear h0; clear_value x) | subst x)
    | intro _
    | lift_lets
    | with_reducible refine Touches.ite ?_ ?_
    | with_reducible apply Touches.step (Block.setDet_touches ..)
    | with_reducible apply Touches.step (Block.setPair_touches ..)
    | with_reducible apply Touches.step (Block.setDef_touches ..)
    | split
    | with_reducible refine Touches.snd (by assumption) ?_
    | with_reducible refine Touches.fst (by assumption) ?_
    | (clear_value *; split)
    | dsimp only

theorem Block.almHandover_touches (b) (x1) : Touches [.free, .vis, .act, .com, .dirty, .rep, .evr, .prt, .out, .alm] b (Block.almHandover b x1) := by
  unfold Block.almHandover
  repeat' first
    | with_reducible assumption
    | with_reducible exact Touches.refl
    | exact rfl
    | (intro x
       refine Touches.mid (show Touches [.free, .vis, .act, .com, .dirty, .rep, .evr, .prt, .out, .alm] b x from ?_) (fun h => ?_)
       all_goals first | (with_reducible have h0 : Touches [.free, .vis, .act, .com, .dirty, .rep, .evr, .prt, .out, .alm] b x := h; clear h0; clear_value x) | subst x)
    | intro _
    | lift_lets
    | with_reducible refine Touches.ite ?_ ?_
    | ((with_reducible apply Block.handover_step) <;> first | exact rfl | intro _ _ _ | skip)
    | with_reducible apply Touches.step (Block.event_touches ..)
    | with_reducible apply Touches.step (Block.irq_touches ..)
    | with_reducible apply Touches.step (Block.pubRefresh_touches ..)
    | with_reducible apply Touches.step (Block.pulsesDriven_touches ..)
    | with_reducible apply Touches.step (Block.almPins_touches ..)
    | with_reducible apply Touches.step (Block.almAdopted_touches ..)
    | with_reducible refine Touches.fold ?_ (fun _ _ _ => ?_)
    | split
    | with_reducible refine Touches.snd (by assumption) ?_
    | with_reducible refine Touches.fst (by assumption) ?_
    | with_reducible refine Touches.fold1 ?_ (fun _ _ _ => ?_)
    | with_reducible refine Touches.fold2 ?_ (fun _ _ _ => ?_)
    | (clear_value *; split)
    | dsimp only

end Sys2Proof.Machine
end

