-- ==== Sys2Proof/Laws/TouchDfeOps.lean ====
section
/-! SUPPORT. What the operations of Machine/DfeOps.lean touch. -/

namespace Sys2Proof.Machine

set_option linter.all false

theorem Block.hostOutPost_touches (b) (x1) (x2) : Touches [.vis, .resp, .rep, .poison, .evr, .que] b (Block.hostOutPost b x1 x2) := by
  unfold Block.hostOutPost
  repeat' first
    | with_reducible assumption
    | with_reducible exact Touches.refl
    | exact rfl
    | (intro x
       refine Touches.mid (show Touches [.vis, .resp, .rep, .poison, .evr, .que] b x from ?_) (fun h => ?_)
       all_goals first | (with_reducible have h0 : Touches [.vis, .resp, .rep, .poison, .evr, .que] b x := h; clear h0; clear_value x) | subst x)
    | intro _
    | lift_lets
    | with_reducible refine Touches.ite ?_ ?_
    | with_reducible apply Touches.step (Block.push_touches ..)
    | with_reducible apply Touches.step (Block.count_touches ..)
    | split
    | with_reducible refine Touches.snd (by assumption) ?_
    | with_reducible refine Touches.fst (by assumption) ?_
    | (clear_value *; split)
    | dsimp only

theorem Block.toSink_touches (b) (x1) (x2) (x3) (x4) (x5) : Touches [.free, .vis, .resp, .rep, .poison, .evr, .que, .dfe, .prt, .out, .cas, .alm, .cap] b (Block.toSink b x1 x2 x3 x4 x5) := by
  unfold Block.toSink
  repeat' first
    | with_reducible assumption
    | with_reducible exact Touches.refl
    | exact rfl
    | (intro x
       refine Touches.mid (show Touches [.free, .vis, .resp, .rep, .poison, .evr, .que, .dfe, .prt, .out, .cas, .alm, .cap] b x from ?_) (fun h => ?_)
       all_goals first | (with_reducible have h0 : Touches [.free, .vis, .resp, .rep, .poison, .evr, .que, .dfe, .prt, .out, .cas, .alm, .cap] b x := h; clear h0; clear_value x) | subst x)
    | intro _
    | lift_lets
    | with_reducible refine Touches.ite ?_ ?_
    | with_reducible apply Touches.step (Block.almPublish_touches ..)
    | with_reducible apply Touches.step (Block.hostOutPost_touches ..)
    | ((with_reducible apply Touches.set_dfe) <;> first | with_reducible assumption | with_reducible exact Touches.refl | exact rfl | with_reducible refine Touches.snd (by assumption) ?_)
    | split
    | with_reducible refine Touches.snd (by assumption) ?_
    | with_reducible refine Touches.fst (by assumption) ?_
    | (clear_value *; split)
    | dsimp only

theorem Block.loadRef_touches (b) (x1) (x2) : Touches [.cells, .poison, .dfe] b (Block.loadRef b x1 x2).2 := by
  unfold Block.loadRef
  repeat' first
    | with_reducible assumption
    | with_reducible exact Touches.refl
    | exact rfl
    | (intro x
       refine Touches.mid (show Touches [.cells, .poison, .dfe] b x from ?_) (fun h => ?_)
       all_goals first | (with_reducible have h0 : Touches [.cells, .poison, .dfe] b x := h; clear h0; clear_value x) | subst x)
    | intro _
    | lift_lets
    | with_reducible refine Touches.ite ?_ ?_
    | with_reducible apply Touches.step (Block.coreLoad_touches ..)
    | split
    | with_reducible refine Touches.snd (by assumption) ?_
    | with_reducible refine Touches.fst (by assumption) ?_
    | (clear_value *; split)
    | dsimp only

theorem Block.inVector_touches (b) (x1) (x2) (x3) : Touches [.cells, .poison, .dfe] b (Block.inVector b x1 x2 x3).2 := by
  unfold Block.inVector
  repeat' first
    | with_reducible assumption
    | with_reducible exact Touches.refl
    | exact rfl
    | (intro x
       refine Touches.mid (show Touches [.cells, .poison, .dfe] b x from ?_) (fun h => ?_)
       all_goals first | (with_reducible have h0 : Touches [.cells, .poison, .dfe] b x := h; clear h0; clear_value x) | subst x)
    | intro _
    | lift_lets
    | with_reducible refine Touches.ite ?_ ?_
    | with_reducible apply Touches.step (Block.loadRef_touches ..)
    | split
    | with_reducible refine Touches.snd (by assumption) ?_
    | with_reducible refine Touches.fst (by assumption) ?_
    | (clear_value *; split)
    | dsimp only

theorem Block.outVector_touches (b) (x1) (x2) (x3) (x4) : Touches [.cells, .poison, .dfe] b (Block.outVector b x1 x2 x3 x4).2 := by
  unfold Block.outVector
  repeat' first
    | with_reducible assumption
    | with_reducible exact Touches.refl
    | exact rfl
    | (intro x
       refine Touches.mid (show Touches [.cells, .poison, .dfe] b x from ?_) (fun h => ?_)
       all_goals first | (with_reducible have h0 : Touches [.cells, .poison, .dfe] b x := h; clear h0; clear_value x) | subst x)
    | intro _
    | lift_lets
    | with_reducible refine Touches.ite ?_ ?_
    | with_reducible apply Touches.step (Block.coreStore_touches ..)
    | split
    | with_reducible refine Touches.snd (by assumption) ?_
    | with_reducible refine Touches.fst (by assumption) ?_
    | (clear_value *; split)
    | dsimp only

theorem Block.results_touches (b) (x1) (x2) (x3) : Touches [.free, .cells, .poison, .dfe] b (Block.results b x1 x2 x3).2 := by
  unfold Block.results
  repeat' first
    | with_reducible assumption
    | with_reducible exact Touches.refl
    | exact rfl
    | (intro x
       refine Touches.mid (show Touches [.free, .cells, .poison, .dfe] b x from ?_) (fun h => ?_)
       all_goals first | (with_reducible have h0 : Touches [.free, .cells, .poison, .dfe] b x := h; clear h0; clear_value x) | subst x)
    | intro _
    | lift_lets
    | with_reducible refine Touches.ite ?_ ?_
    | with_reducible apply Touches.step (Block.outVector_touches ..)
    | with_reducible apply Touches.step (Block.inVector_touches ..)
    | with_reducible apply Touches.step (Block.loadRef_touches ..)
    | with_reducible apply Touches.step (Block.coreStore_touches ..)
    | with_reducible apply Touches.step (Block.draw_touches ..)
    | with_reducible refine Touches.fold ?_ (fun _ _ _ => ?_)
    | split
    | with_reducible refine Touches.snd (by assumption) ?_
    | with_reducible refine Touches.fst (by assumption) ?_
    | with_reducible refine Touches.fold1 ?_ (fun _ _ _ => ?_)
    | with_reducible refine Touches.fold2 ?_ (fun _ _ _ => ?_)
    | (clear_value *; split)
    | dsimp only

theorem Block.effect_touches (b) (x1) (x2) (x3) : Touches [.vis, .resp, .rep, .cells, .poison, .evr, .que, .dfe, .rpl, .alm, .red] b (Block.effect b x1 x2 x3).1 := by
  unfold Block.effect
  repeat' first
    | with_reducible assumption
    | with_reducible exact Touches.refl
    | exact rfl
    | (intro x
       refine Touches.mid (show Touches [.vis, .resp, .rep, .cells, .poison, .evr, .que, .dfe, .rpl, .alm, .red] b x from ?_) (fun h => ?_)
       all_goals first | (with_reducible have h0 : Touches [.vis, .resp, .rep, .cells, .poison, .evr, .que, .dfe, .rpl, .alm, .red] b x := h; clear h0; clear_value x) | subst x)
    | intro _
    | lift_lets
    | with_reducible refine Touches.ite ?_ ?_
    | with_reducible apply Touches.step (Block.thrEval_touches ..)
    | with_reducible apply Touches.step (Block.pairEval_touches ..)
    | with_reducible apply Touches.step (Block.rplFire_touches ..)
    | with_reducible refine Touches.fold ?_ (fun _ _ _ => ?_)
    | split
    | with_reducible refine Touches.snd (by assumption) ?_
    | with_reducible refine Touches.fst (by assumption) ?_
    | with_reducible refine Touches.fold1 ?_ (fun _ _ _ => ?_)
    | with_reducible refine Touches.fold2 ?_ (fun _ _ _ => ?_)
    | (clear_value *; split)
    | dsimp only

theorem Block.missEnd_touches (b) (x1) (x2) : Touches [.vis, .evr, .aln] b (Block.missEnd b x1 x2) := by
  unfold Block.missEnd
  repeat' first
    | with_reducible assumption
    | with_reducible exact Touches.refl
    | exact rfl
    | (intro x
       refine Touches.mid (show Touches [.vis, .evr, .aln] b x from ?_) (fun h => ?_)
       all_goals first | (with_reducible have h0 : Touches [.vis, .evr, .aln] b x := h; clear h0; clear_value x) | subst x)
    | intro _
    | lift_lets
    | with_reducible refine Touches.ite ?_ ?_
    | with_reducible apply Touches.step (Block.event_touches ..)
    | with_reducible apply Touches.step (Block.setRing_touches ..)
    | split
    | with_reducible refine Touches.snd (by assumption) ?_
    | with_reducible refine Touches.fst (by assumption) ?_
    | (clear_value *; split)
    | dsimp only

theorem Block.missClose_touches (b) (x1) : Touches [.vis, .evr, .aln] b (Block.missClose b x1) := by
  unfold Block.missClose
  repeat' first
    | with_reducible assumption
    | with_reducible exact Touches.refl
    | exact rfl
    | (intro x
       refine Touches.mid (show Touches [.vis, .evr, .aln] b x from ?_) (fun h => ?_)
       all_goals first | (with_reducible have h0 : Touches [.vis, .evr, .aln] b x := h; clear h0; clear_value x) | subst x)
    | intro _
    | lift_lets
    | with_reducible refine Touches.ite ?_ ?_
    | with_reducible apply Touches.step (Block.missEnd_touches ..)
    | split
    | with_reducible refine Touches.snd (by assumption) ?_
    | with_reducible refine Touches.fst (by assumption) ?_
    | (clear_value *; split)
    | dsimp only

theorem Block.newGen_touches (b) : Touches [.vis, .evr, .aln, .dfe] b (Block.newGen b) := by
  unfold Block.newGen
  repeat' first
    | with_reducible assumption
    | with_reducible exact Touches.refl
    | exact rfl
    | (intro x
       refine Touches.mid (show Touches [.vis, .evr, .aln, .dfe] b x from ?_) (fun h => ?_)
       all_goals first | (with_reducible have h0 : Touches [.vis, .evr, .aln, .dfe] b x := h; clear h0; clear_value x) | subst x)
    | intro _
    | lift_lets
    | with_reducible refine Touches.ite ?_ ?_
    | with_reducible apply Touches.step (Block.genChange_touches ..)
    | with_reducible apply Touches.step (Block.missClose_touches ..)
    | with_reducible apply Touches.step (Block.coreFree_touches ..)
    | with_reducible apply Touches.step (Block.count_touches ..)
    | with_reducible refine Touches.fold ?_ (fun _ _ _ => ?_)
    | split
    | with_reducible refine Touches.snd (by assumption) ?_
    | with_reducible refine Touches.fst (by assumption) ?_
    | with_reducible refine Touches.fold1 ?_ (fun _ _ _ => ?_)
    | with_reducible refine Touches.fold2 ?_ (fun _ _ _ => ?_)
    | (clear_value *; split)
    | dsimp only

theorem Block.dfeHandover_touches (b) (x1) (x2) : Touches [.vis, .act, .com, .dirty, .evr, .aln, .dfe] b (Block.dfeHandover b x1 x2) := by
  unfold Block.dfeHandover
  repeat' first
    | with_reducible assumption
    | with_reducible exact Touches.refl
    | exact rfl
    | (intro x
       refine Touches.mid (show Touches [.vis, .act, .com, .dirty, .evr, .aln, .dfe] b x from ?_) (fun h => ?_)
       all_goals first | (with_reducible have h0 : Touches [.vis, .act, .com, .dirty, .evr, .aln, .dfe] b x := h; clear h0; clear_value x) | subst x)
    | intro _
    | lift_lets
    | with_reducible refine Touches.ite ?_ ?_
    | ((with_reducible apply Block.handover_step) <;> first | exact rfl | intro _ _ _ | skip)
    | with_reducible apply Touches.step (Block.event_touches ..)
    | with_reducible apply Touches.step (Block.irq_touches ..)
    | with_reducible apply Touches.step (Block.newGen_touches ..)
    | split
    | with_reducible refine Touches.snd (by assumption) ?_
    | with_reducible refine Touches.fst (by assumption) ?_
    | (clear_value *; split)
    | dsimp only

theorem Block.seedCarry_touches (b) (x1) (x2) : Touches [.vis, .rep, .poison, .evr, .dfe] b (Block.seedCarry b x1 x2) := by
  unfold Block.seedCarry
  repeat' first
    | with_reducible assumption
    | with_reducible exact Touches.refl
    | exact rfl
    | (intro x
       refine Touches.mid (show Touches [.vis, .rep, .poison, .evr, .dfe] b x from ?_) (fun h => ?_)
       all_goals first | (with_reducible have h0 : Touches [.vis, .rep, .poison, .evr, .dfe] b x := h; clear h0; clear_value x) | subst x)
    | intro _
    | lift_lets
    | with_reducible refine Touches.ite ?_ ?_
    | with_reducible apply Touches.step (Block.offerToken_touches ..)
    | with_reducible refine Touches.fold ?_ (fun _ _ _ => ?_)
    | split
    | with_reducible refine Touches.snd (by assumption) ?_
    | with_reducible refine Touches.fst (by assumption) ?_
    | with_reducible refine Touches.fold1 ?_ (fun _ _ _ => ?_)
    | with_reducible refine Touches.fold2 ?_ (fun _ _ _ => ?_)
    | (clear_value *; split)
    | dsimp only

theorem Block.closeStart_touches (b) (x1) (x2) : Touches [.vis, .act, .com, .dirty, .rep, .poison, .evr, .aln, .dfe, .isl, .alm] b (Block.closeStart b x1 x2) := by
  unfold Block.closeStart
  repeat' first
    | with_reducible assumption
    | with_reducible exact Touches.refl
    | exact rfl
    | (intro x
       refine Touches.mid (show Touches [.vis, .act, .com, .dirty, .rep, .poison, .evr, .aln, .dfe, .isl, .alm] b x from ?_) (fun h => ?_)
       all_goals first | (with_reducible have h0 : Touches [.vis, .act, .com, .dirty, .rep, .poison, .evr, .aln, .dfe, .isl, .alm] b x := h; clear h0; clear_value x) | subst x)
    | intro _
    | lift_lets
    | with_reducible refine Touches.ite ?_ ?_
    | with_reducible apply Touches.step (Block.dfeHandover_touches ..)
    | with_reducible apply Touches.step (Block.rejoinCores_touches ..)
    | with_reducible apply Touches.step (Block.seedCarry_touches ..)
    | with_reducible apply Touches.step (Block.offerToken_touches ..)
    | with_reducible apply Touches.step (Block.almClose_touches ..)
    | with_reducible apply Touches.step (Block.islClose_touches ..)
    | ((with_reducible apply Touches.set_dfe) <;> first | with_reducible assumption | with_reducible exact Touches.refl | exact rfl | with_reducible refine Touches.snd (by assumption) ?_)
    | with_reducible refine Touches.fold ?_ (fun _ _ _ => ?_)
    | split
    | with_reducible refine Touches.snd (by assumption) ?_
    | with_reducible refine Touches.fst (by assumption) ?_
    | with_reducible refine Touches.fold1 ?_ (fun _ _ _ => ?_)
    | with_reducible refine Touches.fold2 ?_ (fun _ _ _ => ?_)
    | (clear_value *; split)
    | dsimp only

theorem Block.expireQueued_touches (b) (x1) : Touches [.vis, .rep, .poison, .evr, .dfe] b (Block.expireQueued b x1) := by
  unfold Block.expireQueued
  repeat' first
    | with_reducible assumption
    | with_reducible exact Touches.refl
    | exact rfl
    | (intro x
       refine Touches.mid (show Touches [.vis, .rep, .poison, .evr, .dfe] b x from ?_) (fun h => ?_)
       all_goals first | (with_reducible have h0 : Touches [.vis, .rep, .poison, .evr, .dfe] b x := h; clear h0; clear_value x) | subst x)
    | intro _
    | lift_lets
    | with_reducible refine Touches.ite ?_ ?_
    | with_reducible apply Touches.step (Block.count_touches ..)
    | with_reducible apply Touches.step (Block.carryOn_touches ..)
    | split
    | with_reducible refine Touches.snd (by assumption) ?_
    | with_reducible refine Touches.fst (by assumption) ?_
    | (clear_value *; split)
    | dsimp only

theorem Block.expireRunning_touches (b) (x1) (x2) : Touches [.vis, .rep, .poison, .evr, .dfe] b (Block.expireRunning b x1 x2) := by
  unfold Block.expireRunning
  repeat' first
    | with_reducible assumption
    | with_reducible exact Touches.refl
    | exact rfl
    | (intro x
       refine Touches.mid (show Touches [.vis, .rep, .poison, .evr, .dfe] b x from ?_) (fun h => ?_)
       all_goals first | (with_reducible have h0 : Touches [.vis, .rep, .poison, .evr, .dfe] b x := h; clear h0; clear_value x) | subst x)
    | intro _
    | lift_lets
    | with_reducible refine Touches.ite ?_ ?_
    | with_reducible apply Touches.step (Block.carryOn_touches ..)
    | with_reducible apply Touches.step (Block.setCore_touches ..)
    | with_reducible apply Touches.step (Block.count_touches ..)
    | with_reducible apply Touches.step (Block.coreFree_touches ..)
    | with_reducible apply Touches.step (Block.carryPorts_touches ..)
    | split
    | with_reducible refine Touches.snd (by assumption) ?_
    | with_reducible refine Touches.fst (by assumption) ?_
    | (clear_value *; split)
    | dsimp only

theorem Block.missed_touches (b) (x1) (x2) : Touches [.vis, .evr, .aln] b (Block.missed b x1 x2) := by
  unfold Block.missed
  repeat' first
    | with_reducible assumption
    | with_reducible exact Touches.refl
    | exact rfl
    | (intro x
       refine Touches.mid (show Touches [.vis, .evr, .aln] b x from ?_) (fun h => ?_)
       all_goals first | (with_reducible have h0 : Touches [.vis, .evr, .aln] b x := h; clear h0; clear_value x) | subst x)
    | intro _
    | lift_lets
    | with_reducible refine Touches.ite ?_ ?_
    | with_reducible apply Touches.step (Block.irq_touches ..)
    | with_reducible apply Touches.step (Block.count_touches ..)
    | with_reducible apply Touches.step (Block.event_touches ..)
    | with_reducible apply Touches.step (Block.setRing_touches ..)
    | split
    | with_reducible refine Touches.snd (by assumption) ?_
    | with_reducible refine Touches.fst (by assumption) ?_
    | (clear_value *; split)
    | dsimp only

theorem Block.missSettle_touches (b) (x1) : Touches [.vis, .evr, .aln] b (Block.missSettle b x1) := by
  unfold Block.missSettle
  repeat' first
    | with_reducible assumption
    | with_reducible exact Touches.refl
    | exact rfl
    | (intro x
       refine Touches.mid (show Touches [.vis, .evr, .aln] b x from ?_) (fun h => ?_)
       all_goals first | (with_reducible have h0 : Touches [.vis, .evr, .aln] b x := h; clear h0; clear_value x) | subst x)
    | intro _
    | lift_lets
    | with_reducible refine Touches.ite ?_ ?_
    | with_reducible apply Touches.step (Block.missEnd_touches ..)
    | split
    | with_reducible refine Touches.snd (by assumption) ?_
    | with_reducible refine Touches.fst (by assumption) ?_
    | (clear_value *; split)
    | dsimp only

theorem Block.missSettled_touches (b) : Touches [.vis, .evr, .aln] b (Block.missSettled b) :=
  (Block.missSettle_touches ..).trans (Block.missSettle_touches ..) rfl

theorem Block.expireTag_touches (b) (x1) (x2) : Touches [.free, .vis, .rep, .poison, .evr, .aln, .dfe, .prt, .out, .alm] b (Block.expireTag b x1 x2) := by
  unfold Block.expireTag
  repeat' first
    | with_reducible assumption
    | with_reducible exact Touches.refl
    | exact rfl
    | (intro x
       refine Touches.mid (show Touches [.free, .vis, .rep, .poison, .evr, .aln, .dfe, .prt, .out, .alm] b x from ?_) (fun h => ?_)
       all_goals first | (with_reducible have h0 : Touches [.free, .vis, .rep, .poison, .evr, .aln, .dfe, .prt, .out, .alm] b x := h; clear h0; clear_value x) | subst x)
    | intro _
    | lift_lets
    | with_reducible refine Touches.ite ?_ ?_
    | with_reducible apply Touches.step (Block.coresNow_touches ..)
    | with_reducible apply Touches.step (Block.count_touches ..)
    | with_reducible apply Touches.step (Block.matchToken_touches ..)
    | with_reducible apply Touches.step (Block.expireQueued_touches ..)
    | with_reducible apply Touches.step (Block.expireRunning_touches ..)
    | with_reducible apply Touches.step (Block.missed_touches ..)
    | with_reducible apply Touches.step (Block.missEnd_touches ..)
    | with_reducible apply Touches.step (Block.almExpire_touches ..)
    | ((with_reducible apply Touches.set_dfe) <;> first | with_reducible assumption | with_reducible exact Touches.refl | exact rfl | with_reducible refine Touches.snd (by assumption) ?_)
    | with_reducible refine Touches.fold ?_ (fun _ _ _ => ?_)
    | split
    | with_reducible refine Touches.snd (by assumption) ?_
    | with_reducible refine Touches.fst (by assumption) ?_
    | with_reducible refine Touches.fold1 ?_ (fun _ _ _ => ?_)
    | with_reducible refine Touches.fold2 ?_ (fun _ _ _ => ?_)
    | (clear_value *; split)
    | dsimp only

theorem Block.takeReady_touches (b) (x1) (x2) : Touches [.dfe] b (Block.takeReady b x1 x2) := by
  unfold Block.takeReady
  repeat' first
    | with_reducible assumption
    | with_reducible exact Touches.refl
    | exact rfl
    | (intro x
       refine Touches.mid (show Touches [.dfe] b x from ?_) (fun h => ?_)
       all_goals first | (with_reducible have h0 : Touches [.dfe] b x := h; clear h0; clear_value x) | subst x)
    | intro _
    | lift_lets
    | with_reducible refine Touches.ite ?_ ?_
    | ((with_reducible apply Touches.set_dfe) <;> first | with_reducible assumption | with_reducible exact Touches.refl | exact rfl | with_reducible refine Touches.snd (by assumption) ?_)
    | split
    | with_reducible refine Touches.snd (by assumption) ?_
    | with_reducible refine Touches.fst (by assumption) ?_
    | (clear_value *; split)
    | dsimp only

theorem Block.dispatch_touches (b) : Touches [.vis, .dfe] b (Block.dispatch b) := by
  unfold Block.dispatch
  repeat' first
    | with_reducible assumption
    | with_reducible exact Touches.refl
    | exact rfl
    | (intro x
       refine Touches.mid (show Touches [.vis, .dfe] b x from ?_) (fun h => ?_)
       all_goals first | (with_reducible have h0 : Touches [.vis, .dfe] b x := h; clear h0; clear_value x) | subst x)
    | intro _
    | lift_lets
    | with_reducible refine Touches.ite ?_ ?_
    | with_reducible apply Touches.step (Block.takeReady_touches ..)
    | with_reducible apply Touches.step (Block.count_touches ..)
    | with_reducible apply Touches.step (Block.setVis_touches ..)
    | with_reducible apply Touches.step (Block.setCore_touches ..)
    | with_reducible refine Touches.fold ?_ (fun _ _ _ => ?_)
    | split
    | with_reducible refine Touches.snd (by assumption) ?_
    | with_reducible refine Touches.fst (by assumption) ?_
    | with_reducible refine Touches.fold1 ?_ (fun _ _ _ => ?_)
    | with_reducible refine Touches.fold2 ?_ (fun _ _ _ => ?_)
    | (clear_value *; split)
    | dsimp only

theorem Block.firingStats_touches (b) (x1) (x2) (x3) : Touches [.vis] b (Block.firingStats b x1 x2 x3) := by
  unfold Block.firingStats
  repeat' first
    | with_reducible assumption
    | with_reducible exact Touches.refl
    | exact rfl
    | (intro x
       refine Touches.mid (show Touches [.vis] b x from ?_) (fun h => ?_)
       all_goals first | (with_reducible have h0 : Touches [.vis] b x := h; clear h0; clear_value x) | subst x)
    | intro _
    | lift_lets
    | with_reducible refine Touches.ite ?_ ?_
    | with_reducible apply Touches.step (Block.setVis_touches ..)
    | with_reducible apply Touches.step (Block.count_touches ..)
    | split
    | with_reducible refine Touches.snd (by assumption) ?_
    | with_reducible refine Touches.fst (by assumption) ?_
    | (clear_value *; split)
    | dsimp only

theorem Block.commitFiring_touches (b) (x1) (x2) (x3) : Touches [.vis, .act, .com, .dirty, .resp, .rep, .cells, .poison, .evr, .aln, .que, .dfe, .rpl, .alm, .red] b (Block.commitFiring b x1 x2 x3) := by
  unfold Block.commitFiring
  repeat' first
    | with_reducible assumption
    | with_reducible exact Touches.refl
    | exact rfl
    | (intro x
       refine Touches.mid (show Touches [.vis, .act, .com, .dirty, .resp, .rep, .cells, .poison, .evr, .aln, .que, .dfe, .rpl, .alm, .red] b x from ?_) (fun h => ?_)
       all_goals first | (with_reducible have h0 : Touches [.vis, .act, .com, .dirty, .resp, .rep, .cells, .poison, .evr, .aln, .que, .dfe, .rpl, .alm, .red] b x := h; clear h0; clear_value x) | subst x)
    | intro _
    | lift_lets
    | with_reducible refine Touches.ite ?_ ?_
    | with_reducible apply Touches.step (Block.effect_touches ..)
    | with_reducible apply Touches.step (Block.coreStore_touches ..)
    | with_reducible apply Touches.step (Block.dfeHandover_touches ..)
    | with_reducible apply Touches.step (Block.rplHandover_touches ..)
    | split
    | with_reducible refine Touches.snd (by assumption) ?_
    | with_reducible refine Touches.fst (by assumption) ?_
    | (clear_value *; split)
    | dsimp only

theorem Block.emitToken_touches (b) (x1) (x2) (x3) (x4) : Touches [.vis, .rep, .cells, .poison, .evr, .dfe] b (Block.emitToken b x1 x2 x3 x4) := by
  unfold Block.emitToken
  repeat' first
    | with_reducible assumption
    | with_reducible exact Touches.refl
    | exact rfl
    | (intro x
       refine Touches.mid (show Touches [.vis, .rep, .cells, .poison, .evr, .dfe] b x from ?_) (fun h => ?_)
       all_goals first | (with_reducible have h0 : Touches [.vis, .rep, .cells, .poison, .evr, .dfe] b x := h; clear h0; clear_value x) | subst x)
    | intro _
    | lift_lets
    | with_reducible refine Touches.ite ?_ ?_
    | with_reducible apply Touches.step (Block.coreClean_touches ..)
    | with_reducible apply Touches.step (Block.matchToken_touches ..)
    | ((with_reducible apply Touches.set_dfe) <;> first | with_reducible assumption | with_reducible exact Touches.refl | exact rfl | with_reducible refine Touches.snd (by assumption) ?_)
    | split
    | with_reducible refine Touches.snd (by assumption) ?_
    | with_reducible refine Touches.fst (by assumption) ?_
    | (clear_value *; split)
    | dsimp only

theorem Block.emitAll_touches (b) (x1) (x2) (x3) (x4) : Touches [.free, .vis, .act, .com, .dirty, .resp, .rep, .cells, .poison, .evr, .aln, .que, .dfe, .prt, .out, .cas, .rpl, .alm, .cap, .red] b (Block.emitAll b x1 x2 x3 x4).1 := by
  induction x4 generalizing b with
  | nil => exact Touches.refl
  | cons e r ih =>
    cases e with
    | tok t =>
      unfold Block.emitAll
      split
      · exact Touches.refl
      · refine Touches.trans ?_ (ih _) rfl
        exact (Touches.ite (Touches.refl.trans (Block.count_touches ..) rfl) Touches.refl).trans (Block.emitToken_touches ..) rfl
    | commit =>
      unfold Block.emitAll
      exact Touches.trans ((Block.commitFiring_touches ..).weaken rfl) (ih _) rfl
    | sink s inc v =>
      unfold Block.emitAll
      split
      · exact Touches.trans ((Block.staleGen_touches ..).weaken rfl) (ih _) rfl
      · refine Touches.trans ?_ (ih _) rfl
        exact (Touches.ite (Touches.refl.trans (Block.count_touches ..) rfl) Touches.refl).trans (Block.toSink_touches ..) rfl

theorem Block.emitFrom_touches (b) (x1) (x2) (x3) (x4) : Touches [.free, .vis, .act, .com, .dirty, .resp, .rep, .cells, .poison, .evr, .aln, .que, .dfe, .prt, .out, .cas, .rpl, .alm, .cap, .red] b (Block.emitFrom b x1 x2 x3 x4) := by
  unfold Block.emitFrom
  repeat' first
    | with_reducible assumption
    | with_reducible exact Touches.refl
    | exact rfl
    | (intro x
       refine Touches.mid (show Touches [.free, .vis, .act, .com, .dirty, .resp, .rep, .cells, .poison, .evr, .aln, .que, .dfe, .prt, .out, .cas, .rpl, .alm, .cap, .red] b x from ?_) (fun h => ?_)
       all_goals first | (with_reducible have h0 : Touches [.free, .vis, .act, .com, .dirty, .resp, .rep, .cells, .poison, .evr, .aln, .que, .dfe, .prt, .out, .cas, .rpl, .alm, .cap, .red] b x := h; clear h0; clear_value x) | subst x)
    | intro _
    | lift_lets
    | with_reducible refine Touches.ite ?_ ?_
    | with_reducible apply Touches.step (Block.emitAll_touches ..)
    | with_reducible apply Touches.step (Block.coreFree_touches ..)
    | with_reducible apply Touches.step (Block.sluiceHold_touches ..)
    | with_reducible apply Touches.step (Block.setCore_touches ..)
    | split
    | with_reducible refine Touches.snd (by assumption) ?_
    | with_reducible refine Touches.fst (by assumption) ?_
    | (clear_value *; split)
    | dsimp only

theorem Block.withholdFor_touches (b) (x1) (x2) : Touches [.vis, .resp, .rep, .cells, .poison, .evr, .que, .dfe, .rpl] b (Block.withholdFor b x1 x2) := by
  unfold Block.withholdFor
  repeat' first
    | with_reducible assumption
    | with_reducible exact Touches.refl
    | exact rfl
    | (intro x
       refine Touches.mid (show Touches [.vis, .resp, .rep, .cells, .poison, .evr, .que, .dfe, .rpl] b x from ?_) (fun h => ?_)
       all_goals first | (with_reducible have h0 : Touches [.vis, .resp, .rep, .cells, .poison, .evr, .que, .dfe, .rpl] b x := h; clear h0; clear_value x) | subst x)
    | intro _
    | lift_lets
    | with_reducible refine Touches.ite ?_ ?_
    | with_reducible apply Touches.step (Block.epochLost_touches ..)
    | split
    | with_reducible refine Touches.snd (by assumption) ?_
    | with_reducible refine Touches.fst (by assumption) ?_
    | (clear_value *; split)
    | dsimp only

theorem Block.complete_touches (b) (x1) (x2) : Touches [.free, .vis, .act, .com, .dirty, .resp, .rep, .cells, .poison, .evr, .aln, .que, .dfe, .prt, .out, .cas, .rpl, .alm, .cap, .red] b (Block.complete b x1 x2) := by
  unfold Block.complete
  repeat' first
    | with_reducible assumption
    | with_reducible exact Touches.refl
    | exact rfl
    | (intro x
       refine Touches.mid (show Touches [.free, .vis, .act, .com, .dirty, .resp, .rep, .cells, .poison, .evr, .aln, .que, .dfe, .prt, .out, .cas, .rpl, .alm, .cap, .red] b x from ?_) (fun h => ?_)
       all_goals first | (with_reducible have h0 : Touches [.free, .vis, .act, .com, .dirty, .resp, .rep, .cells, .poison, .evr, .aln, .que, .dfe, .prt, .out, .cas, .rpl, .alm, .cap, .red] b x := h; clear h0; clear_value x) | subst x)
    | intro _
    | lift_lets
    | with_reducible refine Touches.ite ?_ ?_
    | with_reducible apply Touches.step (Block.coreFree_touches ..)
    | with_reducible apply Touches.step (Block.firingStats_touches ..)
    | with_reducible apply Touches.step (Block.count_touches ..)
    | with_reducible apply Touches.step (Block.carryOn_touches ..)
    | with_reducible apply Touches.step (Block.setCore_touches ..)
    | with_reducible apply Touches.step (Block.emitFrom_touches ..)
    | with_reducible apply Touches.step (Block.withholdFor_touches ..)
    | with_reducible apply Touches.step (Block.results_touches ..)
    | ((with_reducible apply Touches.set_dfe) <;> first | with_reducible assumption | with_reducible exact Touches.refl | exact rfl | with_reducible refine Touches.snd (by assumption) ?_)
    | split
    | with_reducible refine Touches.snd (by assumption) ?_
    | with_reducible refine Touches.fst (by assumption) ?_
    | (clear_value *; split)
    | dsimp only

theorem Block.sluiceRetry_touches (b) (x1) : Touches [.free, .vis, .act, .com, .dirty, .resp, .rep, .cells, .poison, .evr, .aln, .que, .dfe, .prt, .out, .cas, .rpl, .alm, .cap, .red] b (Block.sluiceRetry b x1) := by
  unfold Block.sluiceRetry
  repeat' first
    | with_reducible assumption
    | with_reducible exact Touches.refl
    | exact rfl
    | (intro x
       refine Touches.mid (show Touches [.free, .vis, .act, .com, .dirty, .resp, .rep, .cells, .poison, .evr, .aln, .que, .dfe, .prt, .out, .cas, .rpl, .alm, .cap, .red] b x from ?_) (fun h => ?_)
       all_goals first | (with_reducible have h0 : Touches [.free, .vis, .act, .com, .dirty, .resp, .rep, .cells, .poison, .evr, .aln, .que, .dfe, .prt, .out, .cas, .rpl, .alm, .cap, .red] b x := h; clear h0; clear_value x) | subst x)
    | intro _
    | lift_lets
    | with_reducible refine Touches.ite ?_ ?_
    | with_reducible apply Touches.step (Block.emitAll_touches ..)
    | with_reducible apply Touches.step (Block.coreFree_touches ..)
    | with_reducible apply Touches.step (Block.setCore_touches ..)
    | with_reducible apply Touches.step (Block.retryHeld_touches ..)
    | split
    | with_reducible refine Touches.snd (by assumption) ?_
    | with_reducible refine Touches.fst (by assumption) ?_
    | (clear_value *; split)
    | dsimp only

theorem Block.engineToken_touches (b) (x1) (x2) (x3) : Touches [.vis, .rep, .poison, .evr, .dfe] b (Block.engineToken b x1 x2 x3) := by
  unfold Block.engineToken
  repeat' first
    | with_reducible assumption
    | with_reducible exact Touches.refl
    | exact rfl
    | (intro x
       refine Touches.mid (show Touches [.vis, .rep, .poison, .evr, .dfe] b x from ?_) (fun h => ?_)
       all_goals first | (with_reducible have h0 : Touches [.vis, .rep, .poison, .evr, .dfe] b x := h; clear h0; clear_value x) | subst x)
    | intro _
    | lift_lets
    | with_reducible refine Touches.ite ?_ ?_
    | with_reducible apply Touches.step (Block.offerToken_touches ..)
    | with_reducible refine Touches.fold ?_ (fun _ _ _ => ?_)
    | split
    | with_reducible refine Touches.snd (by assumption) ?_
    | with_reducible refine Touches.fst (by assumption) ?_
    | with_reducible refine Touches.fold1 ?_ (fun _ _ _ => ?_)
    | with_reducible refine Touches.fold2 ?_ (fun _ _ _ => ?_)
    | (clear_value *; split)
    | dsimp only

theorem Block.solveComplete_touches (b) (x1) : Touches [.vis, .resp, .rep, .cells, .poison, .evr, .que, .dfe, .rpl] b (Block.solveComplete b x1) := by
  unfold Block.solveComplete
  repeat' first
    | with_reducible assumption
    | with_reducible exact Touches.refl
    | exact rfl
    | (intro x
       refine Touches.mid (show Touches [.vis, .resp, .rep, .cells, .poison, .evr, .que, .dfe, .rpl] b x from ?_) (fun h => ?_)
       all_goals first | (with_reducible have h0 : Touches [.vis, .resp, .rep, .cells, .poison, .evr, .que, .dfe, .rpl] b x := h; clear h0; clear_value x) | subst x)
    | intro _
    | lift_lets
    | with_reducible refine Touches.ite ?_ ?_
    | with_reducible apply Touches.step (Block.solveDone_touches ..)
    | with_reducible apply Touches.step (Block.engineToken_touches ..)
    | split
    | with_reducible refine Touches.snd (by assumption) ?_
    | with_reducible refine Touches.fst (by assumption) ?_
    | (clear_value *; split)
    | dsimp only

theorem Block.gatherComplete_touches (b) : Touches [.vis, .rep, .poison, .evr, .dfe, .rpl] b (Block.gatherComplete b) := by
  unfold Block.gatherComplete
  repeat' first
    | with_reducible assumption
    | with_reducible exact Touches.refl
    | exact rfl
    | (intro x
       refine Touches.mid (show Touches [.vis, .rep, .poison, .evr, .dfe, .rpl] b x from ?_) (fun h => ?_)
       all_goals first | (with_reducible have h0 : Touches [.vis, .rep, .poison, .evr, .dfe, .rpl] b x := h; clear h0; clear_value x) | subst x)
    | intro _
    | lift_lets
    | with_reducible refine Touches.ite ?_ ?_
    | with_reducible apply Touches.step (Block.engineToken_touches ..)
    | with_reducible apply Touches.step (Block.gatherDone_touches ..)
    | split
    | with_reducible refine Touches.snd (by assumption) ?_
    | with_reducible refine Touches.fst (by assumption) ?_
    | (clear_value *; split)
    | dsimp only

theorem Block.dfeInject_touches (b) (x1) (x2) (x3) : Touches [.vis, .rep, .poison, .evr, .dfe] b (Block.dfeInject b x1 x2 x3) := by
  unfold Block.dfeInject
  repeat' first
    | with_reducible assumption
    | with_reducible exact Touches.refl
    | exact rfl
    | (intro x
       refine Touches.mid (show Touches [.vis, .rep, .poison, .evr, .dfe] b x from ?_) (fun h => ?_)
       all_goals first | (with_reducible have h0 : Touches [.vis, .rep, .poison, .evr, .dfe] b x := h; clear h0; clear_value x) | subst x)
    | intro _
    | lift_lets
    | with_reducible refine Touches.ite ?_ ?_
    | with_reducible apply Touches.step (Block.matchToken_touches ..)
    | with_reducible apply Touches.step (Block.setVis_touches ..)
    | with_reducible apply Touches.step (Block.sluiceHold_touches ..)
    | with_reducible apply Touches.step (Block.event_touches ..)
    | with_reducible apply Touches.step (Block.irq_touches ..)
    | with_reducible apply Touches.step (Block.count_touches ..)
    | split
    | with_reducible refine Touches.snd (by assumption) ?_
    | with_reducible refine Touches.fst (by assumption) ?_
    | (clear_value *; split)
    | dsimp only

theorem Block.coreRelease_touches (b) (x1) : Touches [.vis, .evr, .dfe] b (Block.coreRelease b x1) := by
  unfold Block.coreRelease
  repeat' first
    | with_reducible assumption
    | with_reducible exact Touches.refl
    | exact rfl
    | (intro x
       refine Touches.mid (show Touches [.vis, .evr, .dfe] b x from ?_) (fun h => ?_)
       all_goals first | (with_reducible have h0 : Touches [.vis, .evr, .dfe] b x := h; clear h0; clear_value x) | subst x)
    | intro _
    | lift_lets
    | with_reducible refine Touches.ite ?_ ?_
    | with_reducible apply Touches.step (Block.count_touches ..)
    | with_reducible apply Touches.step (Block.event_touches ..)
    | with_reducible apply Touches.step (Block.setCore_touches ..)
    | split
    | with_reducible refine Touches.snd (by assumption) ?_
    | with_reducible refine Touches.fst (by assumption) ?_
    | (clear_value *; split)
    | dsimp only

theorem Block.emitLost_touches (b) (x1) (x2) (x3) : Touches [.free, .vis, .resp, .rep, .poison, .evr, .que, .dfe, .prt, .out, .cas, .alm, .cap] b (Block.emitLost b x1 x2 x3) := by
  unfold Block.emitLost
  repeat' first
    | with_reducible assumption
    | with_reducible exact Touches.refl
    | exact rfl
    | (intro x
       refine Touches.mid (show Touches [.free, .vis, .resp, .rep, .poison, .evr, .que, .dfe, .prt, .out, .cas, .alm, .cap] b x from ?_) (fun h => ?_)
       all_goals first | (with_reducible have h0 : Touches [.free, .vis, .resp, .rep, .poison, .evr, .que, .dfe, .prt, .out, .cas, .alm, .cap] b x := h; clear h0; clear_value x) | subst x)
    | intro _
    | lift_lets
    | with_reducible refine Touches.ite ?_ ?_
    | with_reducible apply Touches.step (Block.toSink_touches ..)
    | with_reducible apply Touches.step (Block.count_touches ..)
    | with_reducible apply Touches.step (Block.carryPorts_touches ..)
    | with_reducible apply Touches.step (Block.offerToken_touches ..)
    | split
    | with_reducible refine Touches.snd (by assumption) ?_
    | with_reducible refine Touches.fst (by assumption) ?_
    | (clear_value *; split)
    | dsimp only

theorem Block.loseRunning_touches (b) (x1) : Touches [.free, .vis, .resp, .rep, .cells, .poison, .evr, .que, .dfe, .prt, .out, .cas, .rpl, .alm, .cap] b (Block.loseRunning b x1) := by
  unfold Block.loseRunning
  repeat' first
    | with_reducible assumption
    | with_reducible exact Touches.refl
    | exact rfl
    | (intro x
       refine Touches.mid (show Touches [.free, .vis, .resp, .rep, .cells, .poison, .evr, .que, .dfe, .prt, .out, .cas, .rpl, .alm, .cap] b x from ?_) (fun h => ?_)
       all_goals first | (with_reducible have h0 : Touches [.free, .vis, .resp, .rep, .cells, .poison, .evr, .que, .dfe, .prt, .out, .cas, .rpl, .alm, .cap] b x := h; clear h0; clear_value x) | subst x)
    | intro _
    | lift_lets
    | with_reducible refine Touches.ite ?_ ?_
    | with_reducible apply Touches.step (Block.setCore_touches ..)
    | with_reducible apply Touches.step (Block.count_touches ..)
    | with_reducible apply Touches.step (Block.carryPorts_touches ..)
    | with_reducible apply Touches.step (Block.withholdFor_touches ..)
    | with_reducible apply Touches.step (Block.emitLost_touches ..)
    | with_reducible refine Touches.fold ?_ (fun _ _ _ => ?_)
    | split
    | with_reducible refine Touches.snd (by assumption) ?_
    | with_reducible refine Touches.fst (by assumption) ?_
    | with_reducible refine Touches.fold1 ?_ (fun _ _ _ => ?_)
    | with_reducible refine Touches.fold2 ?_ (fun _ _ _ => ?_)
    | (clear_value *; split)
    | dsimp only

theorem Block.coreFrozen_touches (b) (x1) : Touches [.free, .vis, .resp, .rep, .cells, .poison, .evr, .que, .dfe, .prt, .out, .cas, .rpl, .alm, .cap] b (Block.coreFrozen b x1) := by
  unfold Block.coreFrozen
  repeat' first
    | with_reducible assumption
    | with_reducible exact Touches.refl
    | exact rfl
    | (intro x
       refine Touches.mid (show Touches [.free, .vis, .resp, .rep, .cells, .poison, .evr, .que, .dfe, .prt, .out, .cas, .rpl, .alm, .cap] b x from ?_) (fun h => ?_)
       all_goals first | (with_reducible have h0 : Touches [.free, .vis, .resp, .rep, .cells, .poison, .evr, .que, .dfe, .prt, .out, .cas, .rpl, .alm, .cap] b x := h; clear h0; clear_value x) | subst x)
    | intro _
    | lift_lets
    | with_reducible refine Touches.ite ?_ ?_
    | with_reducible apply Touches.step (Block.loseRunning_touches ..)
    | with_reducible apply Touches.step (Block.leavePool_touches ..)
    | with_reducible apply Touches.step (Block.event_touches ..)
    | with_reducible apply Touches.step (Block.irq_touches ..)
    | with_reducible apply Touches.step (Block.count_touches ..)
    | split
    | with_reducible refine Touches.snd (by assumption) ?_
    | with_reducible refine Touches.fst (by assumption) ?_
    | (clear_value *; split)
    | dsimp only

theorem Block.coreMemFault_touches (b) (x1) : Touches [.free, .vis, .resp, .rep, .cells, .poison, .evr, .que, .dfe, .prt, .out, .cas, .rpl, .alm, .cap] b (Block.coreMemFault b x1) := by
  unfold Block.coreMemFault
  repeat' first
    | with_reducible assumption
    | with_reducible exact Touches.refl
    | exact rfl
    | (intro x
       refine Touches.mid (show Touches [.free, .vis, .resp, .rep, .cells, .poison, .evr, .que, .dfe, .prt, .out, .cas, .rpl, .alm, .cap] b x from ?_) (fun h => ?_)
       all_goals first | (with_reducible have h0 : Touches [.free, .vis, .resp, .rep, .cells, .poison, .evr, .que, .dfe, .prt, .out, .cas, .rpl, .alm, .cap] b x := h; clear h0; clear_value x) | subst x)
    | intro _
    | lift_lets
    | with_reducible refine Touches.ite ?_ ?_
    | with_reducible apply Touches.step (Block.loseRunning_touches ..)
    | with_reducible apply Touches.step (Block.leavePool_touches ..)
    | with_reducible apply Touches.step (Block.setCore_touches ..)
    | with_reducible apply Touches.step (Block.event_touches ..)
    | with_reducible apply Touches.step (Block.irq_touches ..)
    | split
    | with_reducible refine Touches.snd (by assumption) ?_
    | with_reducible refine Touches.fst (by assumption) ?_
    | (clear_value *; split)
    | dsimp only

theorem Block.coreHalt_touches (b) (x1) : Touches [.dfe] b (Block.coreHalt b x1) := by
  unfold Block.coreHalt
  repeat' first
    | with_reducible assumption
    | with_reducible exact Touches.refl
    | exact rfl
    | (intro x
       refine Touches.mid (show Touches [.dfe] b x from ?_) (fun h => ?_)
       all_goals first | (with_reducible have h0 : Touches [.dfe] b x := h; clear h0; clear_value x) | subst x)
    | intro _
    | lift_lets
    | with_reducible refine Touches.ite ?_ ?_
    | with_reducible apply Touches.step (Block.setCore_touches ..)
    | with_reducible apply Touches.step (Block.leavePool_touches ..)
    | split
    | with_reducible refine Touches.snd (by assumption) ?_
    | with_reducible refine Touches.fst (by assumption) ?_
    | (clear_value *; split)
    | dsimp only

theorem Block.coreResume_touches (b) (x1) : Touches [.dfe] b (Block.coreResume b x1) := by
  unfold Block.coreResume
  repeat' first
    | with_reducible assumption
    | with_reducible exact Touches.refl
    | exact rfl
    | (intro x
       refine Touches.mid (show Touches [.dfe] b x from ?_) (fun h => ?_)
       all_goals first | (with_reducible have h0 : Touches [.dfe] b x := h; clear h0; clear_value x) | subst x)
    | intro _
    | lift_lets
    | with_reducible refine Touches.ite ?_ ?_
    | with_reducible apply Touches.step (Block.setCore_touches ..)
    | split
    | with_reducible refine Touches.snd (by assumption) ?_
    | with_reducible refine Touches.fst (by assumption) ?_
    | (clear_value *; split)
    | dsimp only

end Sys2Proof.Machine
end

