-- ==== Sys2Proof/Laws/TouchCmpOps.lean ====
section
/-! SUPPORT. What the operations of Machine/CmpOps.lean touch. -/

namespace Sys2Proof.Machine

set_option linter.all false

theorem Block.setGrp_touches (b) (x1) (x2) : Touches [.cmp] b (Block.setGrp b x1 x2) := by
  unfold Block.setGrp
  repeat' first
    | with_reducible assumption
    | with_reducible exact Touches.refl
    | exact rfl
    | (intro x
       refine Touches.mid (show Touches [.cmp] b x from ?_) (fun h => ?_)
       all_goals first | (with_reducible have h0 : Touches [.cmp] b x := h; clear h0; clear_value x) | subst x)
    | intro _
    | lift_lets
    | with_reducible refine Touches.ite ?_ ?_
    | ((with_reducible apply Touches.set_cmp) <;> first | with_reducible assumption | with_reducible exact Touches.refl | exact rfl | with_reducible refine Touches.snd (by assumption) ?_)
    | split
    | with_reducible refine Touches.snd (by assumption) ?_
    | with_reducible refine Touches.fst (by assumption) ?_
    | (clear_value *; split)
    | dsimp only

theorem Block.setCctx_touches (b) (x1) (x2) : Touches [.cmp] b (Block.setCctx b x1 x2) := by
  unfold Block.setCctx
  repeat' first
    | with_reducible assumption
    | with_reducible exact Touches.refl
    | exact rfl
    | (intro x
       refine Touches.mid (show Touches [.cmp] b x from ?_) (fun h => ?_)
       all_goals first | (with_reducible have h0 : Touches [.cmp] b x := h; clear h0; clear_value x) | subst x)
    | intro _
    | lift_lets
    | with_reducible refine Touches.ite ?_ ?_
    | ((with_reducible apply Touches.set_cmp) <;> first | with_reducible assumption | with_reducible exact Touches.refl | exact rfl | with_reducible refine Touches.snd (by assumption) ?_)
    | split
    | with_reducible refine Touches.snd (by assumption) ?_
    | with_reducible refine Touches.fst (by assumption) ?_
    | (clear_value *; split)
    | dsimp only

theorem Block.spillFit_touches (b) (x1) (x2) : Touches [.vis] b (Block.spillFit b x1 x2).2 := by
  induction x2 generalizing b with
  | nil => exact Touches.refl
  | cons i r ih =>
    unfold Block.spillFit
    dsimp only
    split
    · exact ih b
    · split
      · exact Touches.refl
      · exact (Touches.refl.trans (Block.setVis_touches ..) rfl).trans (ih _) rfl

theorem Block.cmpItem_touches (b) (x1) (x2) (x3) (x4) : Touches [.vis, .resp, .rep, .poison, .evr, .que] b (Block.cmpItem b x1 x2 x3 x4) := by
  unfold Block.cmpItem
  repeat' first
    | with_reducible assumption
    | with_reducible exact Touches.refl
    | exact rfl
    | (intro x
       refine Touches.mid (show Touches [.vis, .resp, .rep, .poison, .evr, .que] b x from ?_) (fun h => ?_)
       all_goals first | (with_reducible have h0 : Touches [.vis, .resp, .rep, .poison, .evr, .que] b x := h; clear h0; clear_value x) | subst x)
    | intro _
    | lift_lets
    | with_reducible refine Touches.ite ?_ ?_
    | with_reducible apply Touches.step (Block.push_touches ..)
    | split
    | with_reducible refine Touches.snd (by assumption) ?_
    | with_reducible refine Touches.fst (by assumption) ?_
    | (clear_value *; split)
    | dsimp only

theorem Block.cmpWrite_touches (b) (x1) (x2) (x3) (x4) : Touches [.vis, .cells, .poison] b (Block.cmpWrite b x1 x2 x3 x4).2 := by
  unfold Block.cmpWrite
  repeat' first
    | with_reducible assumption
    | with_reducible exact Touches.refl
    | exact rfl
    | (intro x
       refine Touches.mid (show Touches [.vis, .cells, .poison] b x from ?_) (fun h => ?_)
       all_goals first | (with_reducible have h0 : Touches [.vis, .cells, .poison] b x := h; clear h0; clear_value x) | subst x)
    | intro _
    | lift_lets
    | with_reducible refine Touches.ite ?_ ?_
    | with_reducible apply Touches.step (Block.store_touches ..)
    | with_reducible apply Touches.step (Block.setVis_touches ..)
    | with_reducible apply Touches.step (Block.spillFit_touches ..)
    | split
    | with_reducible refine Touches.snd (by assumption) ?_
    | with_reducible refine Touches.fst (by assumption) ?_
    | (clear_value *; split)
    | dsimp only

theorem Block.ctxSave_touches (b) (x1) : Touches [.free, .cells, .poison] b (Block.ctxSave b x1) := by
  unfold Block.ctxSave
  repeat' first
    | with_reducible assumption
    | with_reducible exact Touches.refl
    | exact rfl
    | (intro x
       refine Touches.mid (show Touches [.free, .cells, .poison] b x from ?_) (fun h => ?_)
       all_goals first | (with_reducible have h0 : Touches [.free, .cells, .poison] b x := h; clear h0; clear_value x) | subst x)
    | intro _
    | lift_lets
    | with_reducible refine Touches.ite ?_ ?_
    | with_reducible apply Touches.step (Block.store_touches ..)
    | ((with_reducible apply Touches.set_free) <;> first | with_reducible assumption | with_reducible exact Touches.refl | exact rfl | with_reducible refine Touches.snd (by assumption) ?_)
    | split
    | with_reducible refine Touches.snd (by assumption) ?_
    | with_reducible refine Touches.fst (by assumption) ?_
    | (clear_value *; split)
    | dsimp only

theorem Block.settleBasin_touches (b) (x1) (x2) : Touches [.aln, .out] b (Block.settleBasin b x1 x2) := by
  unfold Block.settleBasin
  repeat' first
    | with_reducible assumption
    | with_reducible exact Touches.refl
    | exact rfl
    | (intro x
       refine Touches.mid (show Touches [.aln, .out] b x from ?_) (fun h => ?_)
       all_goals first | (with_reducible have h0 : Touches [.aln, .out] b x := h; clear h0; clear_value x) | subst x)
    | intro _
    | lift_lets
    | with_reducible refine Touches.ite ?_ ?_
    | with_reducible apply Touches.step (Block.outDrop_touches ..)
    | with_reducible apply Touches.step (Block.setBasin_touches ..)
    | split
    | with_reducible refine Touches.snd (by assumption) ?_
    | with_reducible refine Touches.fst (by assumption) ?_
    | (clear_value *; split)
    | dsimp only

theorem Block.archDone_touches (b) (x1) (x2) (x3) : Touches [.aln, .out] b (Block.archDone b x1 x2 x3) := by
  unfold Block.archDone
  repeat' first
    | with_reducible assumption
    | with_reducible exact Touches.refl
    | exact rfl
    | (intro x
       refine Touches.mid (show Touches [.aln, .out] b x from ?_) (fun h => ?_)
       all_goals first | (with_reducible have h0 : Touches [.aln, .out] b x := h; clear h0; clear_value x) | subst x)
    | intro _
    | lift_lets
    | with_reducible refine Touches.ite ?_ ?_
    | with_reducible apply Touches.step (Block.settleBasin_touches ..)
    | with_reducible apply Touches.step (Block.setBasin_touches ..)
    | split
    | with_reducible refine Touches.snd (by assumption) ?_
    | with_reducible refine Touches.fst (by assumption) ?_
    | (clear_value *; split)
    | dsimp only

theorem Block.cmpSuspend_touches (b) (x1) (x2) : Touches [.free, .vis, .resp, .rep, .cells, .poison, .evr, .que, .cmp] b (Block.cmpSuspend b x1 x2) := by
  unfold Block.cmpSuspend
  repeat' first
    | with_reducible assumption
    | with_reducible exact Touches.refl
    | exact rfl
    | (intro x
       refine Touches.mid (show Touches [.free, .vis, .resp, .rep, .cells, .poison, .evr, .que, .cmp] b x from ?_) (fun h => ?_)
       all_goals first | (with_reducible have h0 : Touches [.free, .vis, .resp, .rep, .cells, .poison, .evr, .que, .cmp] b x := h; clear h0; clear_value x) | subst x)
    | intro _
    | lift_lets
    | with_reducible refine Touches.ite ?_ ?_
    | with_reducible apply Touches.step (Block.setGrp_touches ..)
    | with_reducible apply Touches.step (Block.ctxSave_touches ..)
    | with_reducible apply Touches.step (Block.setCctx_touches ..)
    | with_reducible apply Touches.step (Block.cmpItem_touches ..)
    | with_reducible apply Touches.step (Block.event_touches ..)
    | with_reducible apply Touches.step (Block.irq_touches ..)
    | with_reducible apply Touches.step (Block.count_touches ..)
    | split
    | with_reducible refine Touches.snd (by assumption) ?_
    | with_reducible refine Touches.fst (by assumption) ?_
    | (clear_value *; split)
    | dsimp only

theorem Block.cmpIdle_touches (b) (x1) : Touches [.free, .cells, .poison, .cmp] b (Block.cmpIdle b x1) := by
  unfold Block.cmpIdle
  repeat' first
    | with_reducible assumption
    | with_reducible exact Touches.refl
    | exact rfl
    | (intro x
       refine Touches.mid (show Touches [.free, .cells, .poison, .cmp] b x from ?_) (fun h => ?_)
       all_goals first | (with_reducible have h0 : Touches [.free, .cells, .poison, .cmp] b x := h; clear h0; clear_value x) | subst x)
    | intro _
    | lift_lets
    | with_reducible refine Touches.ite ?_ ?_
    | with_reducible apply Touches.step (Block.ctxSave_touches ..)
    | with_reducible apply Touches.step (Block.setCctx_touches ..)
    | with_reducible apply Touches.step (Block.setGrp_touches ..)
    | split
    | with_reducible refine Touches.snd (by assumption) ?_
    | with_reducible refine Touches.fst (by assumption) ?_
    | (clear_value *; split)
    | dsimp only

theorem Block.cmpGap_touches (b) (x1) : Touches [.free, .vis, .resp, .rep, .cells, .poison, .evr, .aln, .que, .out, .cmp] b (Block.cmpGap b x1) := by
  unfold Block.cmpGap
  repeat' first
    | with_reducible assumption
    | with_reducible exact Touches.refl
    | exact rfl
    | (intro x
       refine Touches.mid (show Touches [.free, .vis, .resp, .rep, .cells, .poison, .evr, .aln, .que, .out, .cmp] b x from ?_) (fun h => ?_)
       all_goals first | (with_reducible have h0 : Touches [.free, .vis, .resp, .rep, .cells, .poison, .evr, .aln, .que, .out, .cmp] b x := h; clear h0; clear_value x) | subst x)
    | intro _
    | lift_lets
    | with_reducible refine Touches.ite ?_ ?_
    | with_reducible apply Touches.step (Block.cmpWrite_touches ..)
    | with_reducible apply Touches.step (Block.cmpSuspend_touches ..)
    | with_reducible apply Touches.step (Block.setGrp_touches ..)
    | with_reducible apply Touches.step (Block.setCctx_touches ..)
    | with_reducible apply Touches.step (Block.cmpIdle_touches ..)
    | with_reducible apply Touches.step (Block.cmpItem_touches ..)
    | with_reducible apply Touches.step (Block.event_touches ..)
    | with_reducible apply Touches.step (Block.count_touches ..)
    | with_reducible apply Touches.step (Block.archDone_touches ..)
    | split
    | with_reducible refine Touches.snd (by assumption) ?_
    | with_reducible refine Touches.fst (by assumption) ?_
    | (clear_value *; split)
    | dsimp only

theorem Block.cmpHandover_touches (b) (x1) : Touches [.vis, .act, .com, .dirty, .evr] b (Block.cmpHandover b x1) := by
  unfold Block.cmpHandover
  repeat' first
    | with_reducible assumption
    | with_reducible exact Touches.refl
    | exact rfl
    | (intro x
       refine Touches.mid (show Touches [.vis, .act, .com, .dirty, .evr] b x from ?_) (fun h => ?_)
       all_goals first | (with_reducible have h0 : Touches [.vis, .act, .com, .dirty, .evr] b x := h; clear h0; clear_value x) | subst x)
    | intro _
    | lift_lets
    | with_reducible refine Touches.ite ?_ ?_
    | ((with_reducible apply Block.handover_step) <;> first | exact rfl | intro _ _ _ | skip)
    | with_reducible apply Touches.step (Block.event_touches ..)
    | with_reducible apply Touches.step (Block.irq_touches ..)
    | split
    | with_reducible refine Touches.snd (by assumption) ?_
    | with_reducible refine Touches.fst (by assumption) ?_
    | (clear_value *; split)
    | dsimp only

theorem Block.cmpQueue_touches (b) (x1) (x2) (x3) : Touches [.cmp] b (Block.cmpQueue b x1 x2 x3).2 := by
  unfold Block.cmpQueue
  repeat' first
    | with_reducible assumption
    | with_reducible exact Touches.refl
    | exact rfl
    | (intro x
       refine Touches.mid (show Touches [.cmp] b x from ?_) (fun h => ?_)
       all_goals first | (with_reducible have h0 : Touches [.cmp] b x := h; clear h0; clear_value x) | subst x)
    | intro _
    | lift_lets
    | with_reducible refine Touches.ite ?_ ?_
    | with_reducible apply Touches.step (Block.setGrp_touches ..)
    | with_reducible refine Touches.fold ?_ (fun _ _ _ => ?_)
    | split
    | with_reducible refine Touches.snd (by assumption) ?_
    | with_reducible refine Touches.fst (by assumption) ?_
    | with_reducible refine Touches.fold1 ?_ (fun _ _ _ => ?_)
    | with_reducible refine Touches.fold2 ?_ (fun _ _ _ => ?_)
    | (clear_value *; split)
    | dsimp only

theorem Block.archStart_touches (b) (x1) : Touches [.free, .vis, .act, .com, .dirty, .resp, .rep, .cells, .poison, .evr, .aln, .que, .out, .cmp] b (Block.archStart b x1) := by
  unfold Block.archStart
  repeat' first
    | with_reducible assumption
    | with_reducible exact Touches.refl
    | exact rfl
    | (intro x
       refine Touches.mid (show Touches [.free, .vis, .act, .com, .dirty, .resp, .rep, .cells, .poison, .evr, .aln, .que, .out, .cmp] b x from ?_) (fun h => ?_)
       all_goals first | (with_reducible have h0 : Touches [.free, .vis, .act, .com, .dirty, .resp, .rep, .cells, .poison, .evr, .aln, .que, .out, .cmp] b x := h; clear h0; clear_value x) | subst x)
    | intro _
    | lift_lets
    | with_reducible refine Touches.ite ?_ ?_
    | with_reducible apply Touches.step (Block.cmpHandover_touches ..)
    | with_reducible apply Touches.step (Block.setGrp_touches ..)
    | with_reducible apply Touches.step (Block.setCctx_touches ..)
    | with_reducible apply Touches.step (Block.archDone_touches ..)
    | with_reducible apply Touches.step (Block.cmpIdle_touches ..)
    | with_reducible apply Touches.step (Block.cmpGap_touches ..)
    | with_reducible apply Touches.step (Block.eventRep_touches ..)
    | with_reducible apply Touches.step (Block.irq_touches ..)
    | with_reducible apply Touches.step (Block.count_touches ..)
    | with_reducible apply Touches.step (Block.store_touches ..)
    | split
    | with_reducible refine Touches.snd (by assumption) ?_
    | with_reducible refine Touches.fst (by assumption) ?_
    | (clear_value *; split)
    | dsimp only

theorem Block.archSegment_touches (b) (x1) : Touches [.free, .vis, .resp, .rep, .cells, .poison, .evr, .aln, .que, .out, .cmp] b (Block.archSegment b x1) := by
  unfold Block.archSegment
  repeat' first
    | with_reducible assumption
    | with_reducible exact Touches.refl
    | exact rfl
    | (intro x
       refine Touches.mid (show Touches [.free, .vis, .resp, .rep, .cells, .poison, .evr, .aln, .que, .out, .cmp] b x from ?_) (fun h => ?_)
       all_goals first | (with_reducible have h0 : Touches [.free, .vis, .resp, .rep, .cells, .poison, .evr, .aln, .que, .out, .cmp] b x := h; clear h0; clear_value x) | subst x)
    | intro _
    | lift_lets
    | with_reducible refine Touches.ite ?_ ?_
    | with_reducible apply Touches.step (Block.cmpGap_touches ..)
    | with_reducible apply Touches.step (Block.eventRep_touches ..)
    | with_reducible apply Touches.step (Block.irq_touches ..)
    | with_reducible apply Touches.step (Block.count_touches ..)
    | with_reducible apply Touches.step (Block.cmpWrite_touches ..)
    | with_reducible apply Touches.step (Block.cmpSuspend_touches ..)
    | with_reducible apply Touches.step (Block.setCctx_touches ..)
    | with_reducible apply Touches.step (Block.cmpItem_touches ..)
    | with_reducible apply Touches.step (Block.archDone_touches ..)
    | with_reducible apply Touches.step (Block.cmpIdle_touches ..)
    | with_reducible apply Touches.step (Block.setGrp_touches ..)
    | split
    | with_reducible refine Touches.snd (by assumption) ?_
    | with_reducible refine Touches.fst (by assumption) ?_
    | (clear_value *; split)
    | dsimp only

theorem Block.cmpResume_touches (b) (x1) : Touches [.vis, .evr, .cmp] b (Block.cmpResume b x1) := by
  unfold Block.cmpResume
  repeat' first
    | with_reducible assumption
    | with_reducible exact Touches.refl
    | exact rfl
    | (intro x
       refine Touches.mid (show Touches [.vis, .evr, .cmp] b x from ?_) (fun h => ?_)
       all_goals first | (with_reducible have h0 : Touches [.vis, .evr, .cmp] b x := h; clear h0; clear_value x) | subst x)
    | intro _
    | lift_lets
    | with_reducible refine Touches.ite ?_ ?_
    | with_reducible apply Touches.step (Block.event_touches ..)
    | with_reducible apply Touches.step (Block.setCctx_touches ..)
    | with_reducible apply Touches.step (Block.setGrp_touches ..)
    | with_reducible refine Touches.fold ?_ (fun _ _ _ => ?_)
    | split
    | with_reducible refine Touches.snd (by assumption) ?_
    | with_reducible refine Touches.fst (by assumption) ?_
    | with_reducible refine Touches.fold1 ?_ (fun _ _ _ => ?_)
    | with_reducible refine Touches.fold2 ?_ (fun _ _ _ => ?_)
    | (clear_value *; split)
    | dsimp only

theorem Block.cmpFreed_touches (b) (x1) (x2) : Touches [.free, .vis, .resp, .rep, .cells, .poison, .evr, .aln, .que, .out, .cmp] b (Block.cmpFreed b x1 x2) := by
  unfold Block.cmpFreed
  repeat' first
    | with_reducible assumption
    | with_reducible exact Touches.refl
    | exact rfl
    | (intro x
       refine Touches.mid (show Touches [.free, .vis, .resp, .rep, .cells, .poison, .evr, .aln, .que, .out, .cmp] b x from ?_) (fun h => ?_)
       all_goals first | (with_reducible have h0 : Touches [.free, .vis, .resp, .rep, .cells, .poison, .evr, .aln, .que, .out, .cmp] b x := h; clear h0; clear_value x) | subst x)
    | intro _
    | lift_lets
    | with_reducible refine Touches.ite ?_ ?_
    | with_reducible apply Touches.step (Block.setGrp_touches ..)
    | with_reducible apply Touches.step (Block.cmpGap_touches ..)
    | with_reducible refine Touches.fold ?_ (fun _ _ _ => ?_)
    | split
    | with_reducible refine Touches.snd (by assumption) ?_
    | with_reducible refine Touches.fst (by assumption) ?_
    | with_reducible refine Touches.fold1 ?_ (fun _ _ _ => ?_)
    | with_reducible refine Touches.fold2 ?_ (fun _ _ _ => ?_)
    | (clear_value *; split)
    | dsimp only

theorem Block.cmpRestart_touches (b) (x1) : Touches [.free, .cells, .poison, .cmp] b (Block.cmpRestart b x1) := by
  unfold Block.cmpRestart
  repeat' first
    | with_reducible assumption
    | with_reducible exact Touches.refl
    | exact rfl
    | (intro x
       refine Touches.mid (show Touches [.free, .cells, .poison, .cmp] b x from ?_) (fun h => ?_)
       all_goals first | (with_reducible have h0 : Touches [.free, .cells, .poison, .cmp] b x := h; clear h0; clear_value x) | subst x)
    | intro _
    | lift_lets
    | with_reducible refine Touches.ite ?_ ?_
    | with_reducible apply Touches.step (Block.setGrp_touches ..)
    | with_reducible apply Touches.step (Block.cmpIdle_touches ..)
    | with_reducible apply Touches.step (Block.setCctx_touches ..)
    | with_reducible refine Touches.fold ?_ (fun _ _ _ => ?_)
    | split
    | with_reducible refine Touches.snd (by assumption) ?_
    | with_reducible refine Touches.fst (by assumption) ?_
    | with_reducible refine Touches.fold1 ?_ (fun _ _ _ => ?_)
    | with_reducible refine Touches.fold2 ?_ (fun _ _ _ => ?_)
    | (clear_value *; split)
    | dsimp only

theorem Block.cmpTamper_touches (b) : Touches [.free, .vis, .resp, .rep, .cells, .poison, .evr, .aln, .que, .out, .cmp] b (Block.cmpTamper b) := by
  unfold Block.cmpTamper
  repeat' first
    | with_reducible assumption
    | with_reducible exact Touches.refl
    | exact rfl
    | (intro x
       refine Touches.mid (show Touches [.free, .vis, .resp, .rep, .cells, .poison, .evr, .aln, .que, .out, .cmp] b x from ?_) (fun h => ?_)
       all_goals first | (with_reducible have h0 : Touches [.free, .vis, .resp, .rep, .cells, .poison, .evr, .aln, .que, .out, .cmp] b x := h; clear h0; clear_value x) | subst x)
    | intro _
    | lift_lets
    | with_reducible refine Touches.ite ?_ ?_
    | with_reducible apply Touches.step (Block.cmpGap_touches ..)
    | with_reducible apply Touches.step (Block.event_touches ..)
    | with_reducible apply Touches.step (Block.count_touches ..)
    | with_reducible refine Touches.fold ?_ (fun _ _ _ => ?_)
    | split
    | with_reducible refine Touches.snd (by assumption) ?_
    | with_reducible refine Touches.fst (by assumption) ?_
    | with_reducible refine Touches.fold1 ?_ (fun _ _ _ => ?_)
    | with_reducible refine Touches.fold2 ?_ (fun _ _ _ => ?_)
    | (clear_value *; split)
    | dsimp only

theorem Block.jobGo_touches (b) (x1) : Touches [.vis, .cmp] b (Block.jobGo b x1) := by
  unfold Block.jobGo
  repeat' first
    | with_reducible assumption
    | with_reducible exact Touches.refl
    | exact rfl
    | (intro x
       refine Touches.mid (show Touches [.vis, .cmp] b x from ?_) (fun h => ?_)
       all_goals first | (with_reducible have h0 : Touches [.vis, .cmp] b x := h; clear h0; clear_value x) | subst x)
    | intro _
    | lift_lets
    | with_reducible refine Touches.ite ?_ ?_
    | with_reducible apply Touches.step (Block.setCctx_touches ..)
    | with_reducible apply Touches.step (Block.count_touches ..)
    | ((with_reducible apply Touches.set_cmp) <;> first | with_reducible assumption | with_reducible exact Touches.refl | exact rfl | with_reducible refine Touches.snd (by assumption) ?_)
    | split
    | with_reducible refine Touches.snd (by assumption) ?_
    | with_reducible refine Touches.fst (by assumption) ?_
    | (clear_value *; split)
    | dsimp only

theorem Block.jobStart_touches (b) : Touches [.cmp] b (Block.jobStart b) := by
  unfold Block.jobStart
  repeat' first
    | with_reducible assumption
    | with_reducible exact Touches.refl
    | exact rfl
    | (intro x
       refine Touches.mid (show Touches [.cmp] b x from ?_) (fun h => ?_)
       all_goals first | (with_reducible have h0 : Touches [.cmp] b x := h; clear h0; clear_value x) | subst x)
    | intro _
    | lift_lets
    | with_reducible refine Touches.ite ?_ ?_
    | ((with_reducible apply Touches.set_cmp) <;> first | with_reducible assumption | with_reducible exact Touches.refl | exact rfl | with_reducible refine Touches.snd (by assumption) ?_)
    | split
    | with_reducible refine Touches.snd (by assumption) ?_
    | with_reducible refine Touches.fst (by assumption) ?_
    | (clear_value *; split)
    | dsimp only

theorem Block.jobCompress_touches (b) (x1) : Touches [.cells, .poison, .cmp] b (Block.jobCompress b x1).2.2 := by
  unfold Block.jobCompress
  repeat' first
    | with_reducible assumption
    | with_reducible exact Touches.refl
    | exact rfl
    | (intro x
       refine Touches.mid (show Touches [.cells, .poison, .cmp] b x from ?_) (fun h => ?_)
       all_goals first | (with_reducible have h0 : Touches [.cells, .poison, .cmp] b x := h; clear h0; clear_value x) | subst x)
    | intro _
    | lift_lets
    | with_reducible refine Touches.ite ?_ ?_
    | with_reducible apply Touches.step (Block.setCctx_touches ..)
    | with_reducible apply Touches.step (Block.store_touches ..)
    | split
    | with_reducible refine Touches.snd (by assumption) ?_
    | with_reducible refine Touches.fst (by assumption) ?_
    | (clear_value *; split)
    | dsimp only

theorem Block.unpackOut_touches (b) (x1) (x2) (x3) : Touches [.cells, .poison] b (Block.unpackOut b x1 x2 x3).2.2 := by
  unfold Block.unpackOut
  repeat' first
    | with_reducible assumption
    | with_reducible exact Touches.refl
    | exact rfl
    | (intro x
       refine Touches.mid (show Touches [.cells, .poison] b x from ?_) (fun h => ?_)
       all_goals first | (with_reducible have h0 : Touches [.cells, .poison] b x := h; clear h0; clear_value x) | subst x)
    | intro _
    | lift_lets
    | with_reducible refine Touches.ite ?_ ?_
    | with_reducible apply Touches.step (Block.store_touches ..)
    | split
    | with_reducible refine Touches.snd (by assumption) ?_
    | with_reducible refine Touches.fst (by assumption) ?_
    | (clear_value *; split)
    | dsimp only

theorem Block.unpackLast_touches (b) (x1) (x2) : Touches [.cells, .poison] b (Block.unpackLast b x1 x2).2 := by
  unfold Block.unpackLast
  repeat' first
    | with_reducible assumption
    | with_reducible exact Touches.refl
    | exact rfl
    | (intro x
       refine Touches.mid (show Touches [.cells, .poison] b x from ?_) (fun h => ?_)
       all_goals first | (with_reducible have h0 : Touches [.cells, .poison] b x := h; clear h0; clear_value x) | subst x)
    | intro _
    | lift_lets
    | with_reducible refine Touches.ite ?_ ?_
    | with_reducible apply Touches.step (Block.store_touches ..)
    | split
    | with_reducible refine Touches.snd (by assumption) ?_
    | with_reducible refine Touches.fst (by assumption) ?_
    | (clear_value *; split)
    | dsimp only

theorem Block.unpackStep_touches (b) (x1) (x2) : Touches [.cells, .poison] b (Block.unpackStep b x1 x2).2.2 := by
  unfold Block.unpackStep
  repeat' first
    | with_reducible assumption
    | with_reducible exact Touches.refl
    | exact rfl
    | (intro x
       refine Touches.mid (show Touches [.cells, .poison] b x from ?_) (fun h => ?_)
       all_goals first | (with_reducible have h0 : Touches [.cells, .poison] b x := h; clear h0; clear_value x) | subst x)
    | intro _
    | lift_lets
    | with_reducible refine Touches.ite ?_ ?_
    | with_reducible apply Touches.step (Block.unpackOut_touches ..)
    | with_reducible apply Touches.step (Block.unpackLast_touches ..)
    | split
    | with_reducible refine Touches.snd (by assumption) ?_
    | with_reducible refine Touches.fst (by assumption) ?_
    | with_reducible refine Touches.third (by assumption) ?_
    | with_reducible refine Touches.fourth (by assumption) ?_
    | (clear_value *; split)
    | dsimp only

theorem Block.unpackAll_touches (x0) (x1) (b) (x3) : Touches [.cells, .poison] b (Block.unpackAll x0 x1 b x3).2.2 := by
  induction x1 generalizing b x3 with
  | zero => exact Touches.refl
  | succ n ih =>
    unfold Block.unpackAll
    split
    · exact Touches.refl
    · split
      · rename_i h
        exact (Touches.refl.trans (Touches.third h (Block.unpackStep_touches ..)) rfl).trans (ih ..) rfl
      · exact Touches.weaken (Block.unpackStep_touches ..) rfl

theorem Block.jobDecompress_touches (b) (x1) : Touches [.cells, .poison, .cmp] b (Block.jobDecompress b x1).2.2.2 := by
  unfold Block.jobDecompress
  repeat' first
    | with_reducible assumption
    | with_reducible exact Touches.refl
    | exact rfl
    | (intro x
       refine Touches.mid (show Touches [.cells, .poison, .cmp] b x from ?_) (fun h => ?_)
       all_goals first | (with_reducible have h0 : Touches [.cells, .poison, .cmp] b x := h; clear h0; clear_value x) | subst x)
    | intro _
    | lift_lets
    | with_reducible refine Touches.ite ?_ ?_
    | with_reducible apply Touches.step (Block.unpackAll_touches ..)
    | with_reducible apply Touches.step (Block.setCctx_touches ..)
    | split
    | with_reducible refine Touches.snd (by assumption) ?_
    | with_reducible refine Touches.fst (by assumption) ?_
    | with_reducible refine Touches.third (by assumption) ?_
    | with_reducible refine Touches.fourth (by assumption) ?_
    | with_reducible refine Touches.getD (fun _ _ => ?_) ?_
    | (clear_value *; split)
    | dsimp only

theorem Block.jobDone_touches (b) : Touches [.free, .vis, .resp, .rep, .cells, .poison, .evr, .que, .cmp] b (Block.jobDone b) := by
  unfold Block.jobDone
  repeat' first
    | with_reducible assumption
    | with_reducible exact Touches.refl
    | exact rfl
    | (intro x
       refine Touches.mid (show Touches [.free, .vis, .resp, .rep, .cells, .poison, .evr, .que, .cmp] b x from ?_) (fun h => ?_)
       all_goals first | (with_reducible have h0 : Touches [.free, .vis, .resp, .rep, .cells, .poison, .evr, .que, .cmp] b x := h; clear h0; clear_value x) | subst x)
    | intro _
    | lift_lets
    | with_reducible refine Touches.ite ?_ ?_
    | with_reducible apply Touches.step (Block.jobCompress_touches ..)
    | with_reducible apply Touches.step (Block.jobDecompress_touches ..)
    | with_reducible apply Touches.step (Block.ctxSave_touches ..)
    | with_reducible apply Touches.step (Block.event_touches ..)
    | with_reducible apply Touches.step (Block.irq_touches ..)
    | with_reducible apply Touches.step (Block.count_touches ..)
    | with_reducible apply Touches.step (Block.cmpItem_touches ..)
    | ((with_reducible apply Touches.set_cmp) <;> first | with_reducible assumption | with_reducible exact Touches.refl | exact rfl | with_reducible refine Touches.snd (by assumption) ?_)
    | split
    | with_reducible refine Touches.snd (by assumption) ?_
    | with_reducible refine Touches.fst (by assumption) ?_
    | with_reducible refine Touches.third (by assumption) ?_
    | with_reducible refine Touches.fourth (by assumption) ?_
    | (clear_value *; split)
    | dsimp only

theorem Block.ctxReset_touches (b) (x1) : Touches [.vis, .cmp] b (Block.ctxReset b x1) := by
  unfold Block.ctxReset
  repeat' first
    | with_reducible assumption
    | with_reducible exact Touches.refl
    | exact rfl
    | (intro x
       refine Touches.mid (show Touches [.vis, .cmp] b x from ?_) (fun h => ?_)
       all_goals first | (with_reducible have h0 : Touches [.vis, .cmp] b x := h; clear h0; clear_value x) | subst x)
    | intro _
    | lift_lets
    | with_reducible refine Touches.ite ?_ ?_
    | with_reducible apply Touches.step (Block.count_touches ..)
    | with_reducible apply Touches.step (Block.setCctx_touches ..)
    | split
    | with_reducible refine Touches.snd (by assumption) ?_
    | with_reducible refine Touches.fst (by assumption) ?_
    | (clear_value *; split)
    | dsimp only

end Sys2Proof.Machine
end

