-- ==== Sys2Proof/Laws/TouchNrgOps.lean ====
section
/-! SUPPORT. What the operations of Machine/NrgOps.lean touch. -/

namespace Sys2Proof.Machine

set_option linter.all false

theorem Block.accUpdate_touches (b) (x1) (x2) : Touches [.nrg] b (Block.accUpdate b x1 x2) := by
  unfold Block.accUpdate
  repeat' first
    | with_reducible assumption
    | with_reducible exact Touches.refl
    | exact rfl
    | (intro x
       refine Touches.mid (show Touches [.nrg] b x from ?_) (fun h => ?_)
       all_goals first | (with_reducible have h0 : Touches [.nrg] b x := h; clear h0; clear_value x) | subst x)
    | intro _
    | lift_lets
    | with_reducible refine Touches.ite ?_ ?_
    | with_reducible apply Touches.step (Block.setNrgPt_touches ..)
    | with_reducible refine Touches.fold ?_ (fun _ _ _ => ?_)
    | split
    | with_reducible refine Touches.snd (by assumption) ?_
    | with_reducible refine Touches.fst (by assumption) ?_
    | with_reducible refine Touches.fold1 ?_ (fun _ _ _ => ?_)
    | with_reducible refine Touches.fold2 ?_ (fun _ _ _ => ?_)
    | with_reducible refine Touches.getD (fun _ _ => ?_) ?_
    | (clear_value *; split)
    | dsimp only

theorem Block.cntRead_touches (b) (x1) (x2) : Touches [.nrg] b (Block.cntRead b x1 x2).2 := by
  unfold Block.cntRead
  repeat' first
    | with_reducible assumption
    | with_reducible exact Touches.refl
    | exact rfl
    | (intro x
       refine Touches.mid (show Touches [.nrg] b x from ?_) (fun h => ?_)
       all_goals first | (with_reducible have h0 : Touches [.nrg] b x := h; clear h0; clear_value x) | subst x)
    | intro _
    | lift_lets
    | with_reducible refine Touches.ite ?_ ?_
    | with_reducible apply Touches.step (Block.setNrgPt_touches ..)
    | split
    | with_reducible refine Touches.snd (by assumption) ?_
    | with_reducible refine Touches.fst (by assumption) ?_
    | with_reducible refine Touches.getD (fun _ _ => ?_) ?_
    | (clear_value *; split)
    | dsimp only

theorem Block.nrgClearDue_touches (b) (x1) : Touches [.vis, .evr, .nrg] b (Block.nrgClearDue b x1) := by
  unfold Block.nrgClearDue
  repeat' first
    | with_reducible assumption
    | with_reducible exact Touches.refl
    | exact rfl
    | (intro x
       refine Touches.mid (show Touches [.vis, .evr, .nrg] b x from ?_) (fun h => ?_)
       all_goals first | (with_reducible have h0 : Touches [.vis, .evr, .nrg] b x := h; clear h0; clear_value x) | subst x)
    | intro _
    | lift_lets
    | with_reducible refine Touches.ite ?_ ?_
    | with_reducible apply Touches.step (Block.eventAt_touches ..)
    | with_reducible apply Touches.step (Block.count_touches ..)
    | with_reducible apply Touches.step (Block.setNrgPt_touches ..)
    | with_reducible apply Touches.step (Block.nrgZero_touches ..)
    | split
    | with_reducible refine Touches.snd (by assumption) ?_
    | with_reducible refine Touches.fst (by assumption) ?_
    | with_reducible refine Touches.getD (fun _ _ => ?_) ?_
    | (clear_value *; split)
    | dsimp only

theorem Block.nrgHandover_touches (b) (x1) : Touches [.vis, .act, .com, .dirty, .evr, .nrg] b (Block.nrgHandover b x1) := by
  unfold Block.nrgHandover
  repeat' first
    | with_reducible assumption
    | with_reducible exact Touches.refl
    | exact rfl
    | (intro x
       refine Touches.mid (show Touches [.vis, .act, .com, .dirty, .evr, .nrg] b x from ?_) (fun h => ?_)
       all_goals first | (with_reducible have h0 : Touches [.vis, .act, .com, .dirty, .evr, .nrg] b x := h; clear h0; clear_value x) | subst x)
    | intro _
    | lift_lets
    | with_reducible refine Touches.ite ?_ ?_
    | ((with_reducible apply Block.handover_step) <;> first | exact rfl | intro _ _ _ | skip)
    | with_reducible apply Touches.step (Block.event_touches ..)
    | with_reducible apply Touches.step (Block.irq_touches ..)
    | with_reducible apply Touches.step (Block.setNrgPt_touches ..)
    | split
    | with_reducible refine Touches.snd (by assumption) ?_
    | with_reducible refine Touches.fst (by assumption) ?_
    | (clear_value *; split)
    | dsimp only

theorem Block.intervalEnd_touches (b) (x1) (x2) (x3) : Touches [.free, .vis, .act, .com, .dirty, .resp, .rep, .cells, .poison, .evr, .que, .cas, .nrg, .cap] b (Block.intervalEnd b x1 x2 x3) := by
  unfold Block.intervalEnd
  repeat' first
    | with_reducible assumption
    | with_reducible exact Touches.refl
    | exact rfl
    | (intro x
       refine Touches.mid (show Touches [.free, .vis, .act, .com, .dirty, .resp, .rep, .cells, .poison, .evr, .que, .cas, .nrg, .cap] b x from ?_) (fun h => ?_)
       all_goals first | (with_reducible have h0 : Touches [.free, .vis, .act, .com, .dirty, .resp, .rep, .cells, .poison, .evr, .que, .cas, .nrg, .cap] b x := h; clear h0; clear_value x) | subst x)
    | intro _
    | lift_lets
    | with_reducible refine Touches.ite ?_ ?_
    | with_reducible apply Touches.step (Block.setNrgPt_touches ..)
    | with_reducible apply Touches.step (Block.accUpdate_touches ..)
    | with_reducible apply Touches.step (Block.setVis_touches ..)
    | with_reducible apply Touches.step (Block.capInterval_touches ..)
    | with_reducible apply Touches.step (Block.nrgHandover_touches ..)
    | with_reducible apply Touches.step (Block.nrgClearDue_touches ..)
    | with_reducible refine Touches.fold ?_ (fun _ _ _ => ?_)
    | split
    | with_reducible refine Touches.snd (by assumption) ?_
    | with_reducible refine Touches.fst (by assumption) ?_
    | with_reducible refine Touches.fold1 ?_ (fun _ _ _ => ?_)
    | with_reducible refine Touches.fold2 ?_ (fun _ _ _ => ?_)
    | with_reducible refine Touches.getD (fun _ _ => ?_) ?_
    | (clear_value *; split)
    | dsimp only

theorem Block.zeroCrossing_touches (b) (x1) : Touches [.free, .vis, .act, .com, .dirty, .resp, .rep, .cells, .poison, .evr, .que, .cas, .nrg, .cap] b (Block.zeroCrossing b x1) := by
  unfold Block.zeroCrossing
  repeat' first
    | with_reducible assumption
    | with_reducible exact Touches.refl
    | exact rfl
    | (intro x
       refine Touches.mid (show Touches [.free, .vis, .act, .com, .dirty, .resp, .rep, .cells, .poison, .evr, .que, .cas, .nrg, .cap] b x from ?_) (fun h => ?_)
       all_goals first | (with_reducible have h0 : Touches [.free, .vis, .act, .com, .dirty, .resp, .rep, .cells, .poison, .evr, .que, .cas, .nrg, .cap] b x := h; clear h0; clear_value x) | subst x)
    | intro _
    | lift_lets
    | with_reducible refine Touches.ite ?_ ?_
    | with_reducible apply Touches.step (Block.intervalEnd_touches ..)
    | with_reducible apply Touches.step (Block.setNrgPt_touches ..)
    | with_reducible apply Touches.step (Block.event_touches ..)
    | split
    | with_reducible refine Touches.snd (by assumption) ?_
    | with_reducible refine Touches.fst (by assumption) ?_
    | (clear_value *; split)
    | dsimp only

theorem Block.zcTimeout_touches (b) (x1) : Touches [.free, .vis, .act, .com, .dirty, .resp, .rep, .cells, .poison, .evr, .que, .cas, .nrg, .cap] b (Block.zcTimeout b x1) := by
  unfold Block.zcTimeout
  repeat' first
    | with_reducible assumption
    | with_reducible exact Touches.refl
    | exact rfl
    | (intro x
       refine Touches.mid (show Touches [.free, .vis, .act, .com, .dirty, .resp, .rep, .cells, .poison, .evr, .que, .cas, .nrg, .cap] b x from ?_) (fun h => ?_)
       all_goals first | (with_reducible have h0 : Touches [.free, .vis, .act, .com, .dirty, .resp, .rep, .cells, .poison, .evr, .que, .cas, .nrg, .cap] b x := h; clear h0; clear_value x) | subst x)
    | intro _
    | lift_lets
    | with_reducible refine Touches.ite ?_ ?_
    | with_reducible apply Touches.step (Block.intervalEnd_touches ..)
    | with_reducible apply Touches.step (Block.setNrgPt_touches ..)
    | with_reducible apply Touches.step (Block.eventRep_touches ..)
    | with_reducible apply Touches.step (Block.irq_touches ..)
    | with_reducible apply Touches.step (Block.count_touches ..)
    | split
    | with_reducible refine Touches.snd (by assumption) ?_
    | with_reducible refine Touches.fst (by assumption) ?_
    | (clear_value *; split)
    | dsimp only

theorem Block.zcSample_touches (b) (x1) (x2) (x3) : Touches [.nrg] b (Block.zcSample b x1 x2 x3) := by
  unfold Block.zcSample
  repeat' first
    | with_reducible assumption
    | with_reducible exact Touches.refl
    | exact rfl
    | (intro x
       refine Touches.mid (show Touches [.nrg] b x from ?_) (fun h => ?_)
       all_goals first | (with_reducible have h0 : Touches [.nrg] b x := h; clear h0; clear_value x) | subst x)
    | intro _
    | lift_lets
    | with_reducible refine Touches.ite ?_ ?_
    | with_reducible apply Touches.step (Block.setNrgPt_touches ..)
    | split
    | with_reducible refine Touches.snd (by assumption) ?_
    | with_reducible refine Touches.fst (by assumption) ?_
    | (clear_value *; split)
    | dsimp only

theorem Block.unmeteredSample_touches (b) (x1) (x2) : Touches [.vis, .rep, .evr, .nrg] b (Block.unmeteredSample b x1 x2) := by
  unfold Block.unmeteredSample
  repeat' first
    | with_reducible assumption
    | with_reducible exact Touches.refl
    | exact rfl
    | (intro x
       refine Touches.mid (show Touches [.vis, .rep, .evr, .nrg] b x from ?_) (fun h => ?_)
       all_goals first | (with_reducible have h0 : Touches [.vis, .rep, .evr, .nrg] b x := h; clear h0; clear_value x) | subst x)
    | intro _
    | lift_lets
    | with_reducible refine Touches.ite ?_ ?_
    | with_reducible apply Touches.step (Block.setNrgPt_touches ..)
    | with_reducible apply Touches.step (Block.count_touches ..)
    | with_reducible apply Touches.step (Block.eventRep_touches ..)
    | with_reducible apply Touches.step (Block.irq_touches ..)
    | split
    | with_reducible refine Touches.snd (by assumption) ?_
    | with_reducible refine Touches.fst (by assumption) ?_
    | (clear_value *; split)
    | dsimp only

theorem Block.nrgSample_touches (b) (x1) (x2) (x3) : Touches [.vis, .rep, .evr, .nrg] b (Block.nrgSample b x1 x2 x3) := by
  unfold Block.nrgSample
  repeat' first
    | with_reducible assumption
    | with_reducible exact Touches.refl
    | exact rfl
    | (intro x
       refine Touches.mid (show Touches [.vis, .rep, .evr, .nrg] b x from ?_) (fun h => ?_)
       all_goals first | (with_reducible have h0 : Touches [.vis, .rep, .evr, .nrg] b x := h; clear h0; clear_value x) | subst x)
    | intro _
    | lift_lets
    | with_reducible refine Touches.ite ?_ ?_
    | with_reducible apply Touches.step (Block.unmeteredSample_touches ..)
    | with_reducible apply Touches.step (Block.zcSample_touches ..)
    | with_reducible refine Touches.fold ?_ (fun _ _ _ => ?_)
    | split
    | with_reducible refine Touches.snd (by assumption) ?_
    | with_reducible refine Touches.fst (by assumption) ?_
    | with_reducible refine Touches.fold1 ?_ (fun _ _ _ => ?_)
    | with_reducible refine Touches.fold2 ?_ (fun _ _ _ => ?_)
    | (clear_value *; split)
    | dsimp only

theorem Block.nrgSync_touches (b) (x1) : Touches [.free, .vis, .act, .com, .dirty, .resp, .rep, .cells, .poison, .evr, .que, .cas, .nrg, .cap] b (Block.nrgSync b x1) := by
  unfold Block.nrgSync
  repeat' first
    | with_reducible assumption
    | with_reducible exact Touches.refl
    | exact rfl
    | (intro x
       refine Touches.mid (show Touches [.free, .vis, .act, .com, .dirty, .resp, .rep, .cells, .poison, .evr, .que, .cas, .nrg, .cap] b x from ?_) (fun h => ?_)
       all_goals first | (with_reducible have h0 : Touches [.free, .vis, .act, .com, .dirty, .resp, .rep, .cells, .poison, .evr, .que, .cas, .nrg, .cap] b x := h; clear h0; clear_value x) | subst x)
    | intro _
    | lift_lets
    | with_reducible refine Touches.ite ?_ ?_
    | with_reducible apply Touches.step (Block.setNrgPt_touches ..)
    | with_reducible apply Touches.step (Block.intervalEnd_touches ..)
    | with_reducible refine Touches.fold ?_ (fun _ _ _ => ?_)
    | split
    | with_reducible refine Touches.snd (by assumption) ?_
    | with_reducible refine Touches.fst (by assumption) ?_
    | with_reducible refine Touches.fold1 ?_ (fun _ _ _ => ?_)
    | with_reducible refine Touches.fold2 ?_ (fun _ _ _ => ?_)
    | (clear_value *; split)
    | dsimp only

theorem Block.nrgSnap_touches (b) : Touches [.nrg] b (Block.nrgSnap b) := by
  unfold Block.nrgSnap
  repeat' first
    | with_reducible assumption
    | with_reducible exact Touches.refl
    | exact rfl
    | (intro x
       refine Touches.mid (show Touches [.nrg] b x from ?_) (fun h => ?_)
       all_goals first | (with_reducible have h0 : Touches [.nrg] b x := h; clear h0; clear_value x) | subst x)
    | intro _
    | lift_lets
    | with_reducible refine Touches.ite ?_ ?_
    | ((with_reducible apply Touches.set_nrg) <;> first | with_reducible assumption | with_reducible exact Touches.refl | exact rfl | with_reducible refine Touches.snd (by assumption) ?_)
    | split
    | with_reducible refine Touches.snd (by assumption) ?_
    | with_reducible refine Touches.fst (by assumption) ?_
    | (clear_value *; split)
    | dsimp only

theorem Block.nrgClear_touches (b) (x1) : Touches [.vis, .nrg] b (Block.nrgClear b x1) := by
  unfold Block.nrgClear
  repeat' first
    | with_reducible assumption
    | with_reducible exact Touches.refl
    | exact rfl
    | (intro x
       refine Touches.mid (show Touches [.vis, .nrg] b x from ?_) (fun h => ?_)
       all_goals first | (with_reducible have h0 : Touches [.vis, .nrg] b x := h; clear h0; clear_value x) | subst x)
    | intro _
    | lift_lets
    | with_reducible refine Touches.ite ?_ ?_
    | with_reducible apply Touches.step (Block.setNrgPt_touches ..)
    | with_reducible apply Touches.step (Block.count_touches ..)
    | split
    | with_reducible refine Touches.snd (by assumption) ?_
    | with_reducible refine Touches.fst (by assumption) ?_
    | (clear_value *; split)
    | dsimp only

theorem Block.periodicSave_touches (b) : Touches [.cells, .poison, .nrg] b (Block.periodicSave b) := by
  unfold Block.periodicSave
  repeat' first
    | with_reducible assumption
    | with_reducible exact Touches.refl
    | exact rfl
    | (intro x
       refine Touches.mid (show Touches [.cells, .poison, .nrg] b x from ?_) (fun h => ?_)
       all_goals first | (with_reducible have h0 : Touches [.cells, .poison, .nrg] b x := h; clear h0; clear_value x) | subst x)
    | intro _
    | lift_lets
    | with_reducible refine Touches.ite ?_ ?_
    | with_reducible apply Touches.step (Block.store_touches ..)
    | ((with_reducible apply Touches.set_nrg) <;> first | with_reducible assumption | with_reducible exact Touches.refl | exact rfl | with_reducible refine Touches.snd (by assumption) ?_)
    | split
    | with_reducible refine Touches.snd (by assumption) ?_
    | with_reducible refine Touches.fst (by assumption) ?_
    | (clear_value *; split)
    | dsimp only

theorem Block.saveDone_touches (b) (x1) : Touches [.vis, .cells, .poison, .evr, .nrg] b (Block.saveDone b x1) := by
  unfold Block.saveDone
  repeat' first
    | with_reducible assumption
    | with_reducible exact Touches.refl
    | exact rfl
    | (intro x
       refine Touches.mid (show Touches [.vis, .cells, .poison, .evr, .nrg] b x from ?_) (fun h => ?_)
       all_goals first | (with_reducible have h0 : Touches [.vis, .cells, .poison, .evr, .nrg] b x := h; clear h0; clear_value x) | subst x)
    | intro _
    | lift_lets
    | with_reducible refine Touches.ite ?_ ?_
    | with_reducible apply Touches.step (Block.storeN_touches ..)
    | with_reducible apply Touches.step (Block.count_touches ..)
    | with_reducible apply Touches.step (Block.event_touches ..)
    | with_reducible apply Touches.step (Block.irq_touches ..)
    | ((with_reducible apply Touches.set_nrg) <;> first | with_reducible assumption | with_reducible exact Touches.refl | exact rfl | with_reducible refine Touches.snd (by assumption) ?_)
    | split
    | with_reducible refine Touches.snd (by assumption) ?_
    | with_reducible refine Touches.fst (by assumption) ?_
    | (clear_value *; split)
    | dsimp only

theorem Block.saveNow_touches (b) : Touches [.vis, .cells, .poison, .nrg] b (Block.saveNow b) := by
  unfold Block.saveNow
  repeat' first
    | with_reducible assumption
    | with_reducible exact Touches.refl
    | exact rfl
    | (intro x
       refine Touches.mid (show Touches [.vis, .cells, .poison, .nrg] b x from ?_) (fun h => ?_)
       all_goals first | (with_reducible have h0 : Touches [.vis, .cells, .poison, .nrg] b x := h; clear h0; clear_value x) | subst x)
    | intro _
    | lift_lets
    | with_reducible refine Touches.ite ?_ ?_
    | with_reducible apply Touches.step (Block.store_touches ..)
    | with_reducible apply Touches.step (Block.count_touches ..)
    | ((with_reducible apply Touches.set_nrg) <;> first | with_reducible assumption | with_reducible exact Touches.refl | exact rfl | with_reducible refine Touches.snd (by assumption) ?_)
    | split
    | with_reducible refine Touches.snd (by assumption) ?_
    | with_reducible refine Touches.fst (by assumption) ?_
    | (clear_value *; split)
    | dsimp only

theorem Block.nrgFreeze_touches (b) : Touches [.free, .vis, .act, .com, .dirty, .resp, .rep, .cells, .poison, .evr, .que, .cas, .nrg, .cap] b (Block.nrgFreeze b) := by
  unfold Block.nrgFreeze
  repeat' first
    | with_reducible assumption
    | with_reducible exact Touches.refl
    | exact rfl
    | (intro x
       refine Touches.mid (show Touches [.free, .vis, .act, .com, .dirty, .resp, .rep, .cells, .poison, .evr, .que, .cas, .nrg, .cap] b x from ?_) (fun h => ?_)
       all_goals first | (with_reducible have h0 : Touches [.free, .vis, .act, .com, .dirty, .resp, .rep, .cells, .poison, .evr, .que, .cas, .nrg, .cap] b x := h; clear h0; clear_value x) | subst x)
    | intro _
    | lift_lets
    | with_reducible refine Touches.ite ?_ ?_
    | with_reducible apply Touches.step (Block.intervalEnd_touches ..)
    | with_reducible apply Touches.step (Block.saveNow_touches ..)
    | with_reducible apply Touches.step (Block.event_touches ..)
    | ((with_reducible apply Touches.set_nrg) <;> first | with_reducible assumption | with_reducible exact Touches.refl | exact rfl | with_reducible refine Touches.snd (by assumption) ?_)
    | with_reducible refine Touches.fold ?_ (fun _ _ _ => ?_)
    | split
    | with_reducible refine Touches.snd (by assumption) ?_
    | with_reducible refine Touches.fst (by assumption) ?_
    | with_reducible refine Touches.fold1 ?_ (fun _ _ _ => ?_)
    | with_reducible refine Touches.fold2 ?_ (fun _ _ _ => ?_)
    | (clear_value *; split)
    | dsimp only

theorem Block.tb0Start_touches (b) (x1) : Touches [.tim] b (Block.tb0Start b x1) := by
  unfold Block.tb0Start
  repeat' first
    | with_reducible assumption
    | with_reducible exact Touches.refl
    | exact rfl
    | (intro x
       refine Touches.mid (show Touches [.tim] b x from ?_) (fun h => ?_)
       all_goals first | (with_reducible have h0 : Touches [.tim] b x := h; clear h0; clear_value x) | subst x)
    | intro _
    | lift_lets
    | with_reducible refine Touches.ite ?_ ?_
    | with_reducible apply Touches.step (Block.setTb_touches ..)
    | split
    | with_reducible refine Touches.snd (by assumption) ?_
    | with_reducible refine Touches.fst (by assumption) ?_
    | (clear_value *; split)
    | dsimp only

theorem Block.energyResume_touches (b) : Touches [.vis, .evr, .tim, .nrg] b (Block.energyResume b) := by
  unfold Block.energyResume
  repeat' first
    | with_reducible assumption
    | with_reducible exact Touches.refl
    | exact rfl
    | (intro x
       refine Touches.mid (show Touches [.vis, .evr, .tim, .nrg] b x from ?_) (fun h => ?_)
       all_goals first | (with_reducible have h0 : Touches [.vis, .evr, .tim, .nrg] b x := h; clear h0; clear_value x) | subst x)
    | intro _
    | lift_lets
    | with_reducible refine Touches.ite ?_ ?_
    | with_reducible apply Touches.step (Block.event_touches ..)
    | with_reducible apply Touches.step (Block.irq_touches ..)
    | with_reducible apply Touches.step (Block.tb0Start_touches ..)
    | with_reducible apply Touches.step (Block.eventAt_touches ..)
    | ((with_reducible apply Touches.set_nrg) <;> first | with_reducible assumption | with_reducible exact Touches.refl | exact rfl | with_reducible refine Touches.snd (by assumption) ?_)
    | split
    | with_reducible refine Touches.snd (by assumption) ?_
    | with_reducible refine Touches.fst (by assumption) ?_
    | (clear_value *; split)
    | dsimp only

end Sys2Proof.Machine
end

