-- ==== Sys2Proof/Laws/TouchSdmOps.lean ====
section
/-! SUPPORT. What the operations of Machine/SdmOps.lean touch. -/

namespace Sys2Proof.Machine

set_option linter.all false

theorem Block.sdmCleared_touches (b) (x1) : Touches [.sdm] b (Block.sdmCleared b x1) := by
  unfold Block.sdmCleared
  repeat' first
    | with_reducible assumption
    | with_reducible exact Touches.refl
    | exact rfl
    | (intro x
       refine Touches.mid (show Touches [.sdm] b x from ?_) (fun h => ?_)
       all_goals first | (with_reducible have h0 : Touches [.sdm] b x := h; clear h0; clear_value x) | subst x)
    | intro _
    | lift_lets
    | with_reducible refine Touches.ite ?_ ?_
    | with_reducible apply Touches.step (Block.setSdmCh_touches ..)
    | split
    | with_reducible refine Touches.snd (by assumption) ?_
    | with_reducible refine Touches.fst (by assumption) ?_
    | (clear_value *; split)
    | dsimp only

theorem Block.sdmRestart_touches (b) (x1) : Touches [.vis, .sdm] b (Block.sdmRestart b x1) := by
  unfold Block.sdmRestart
  repeat' first
    | with_reducible assumption
    | with_reducible exact Touches.refl
    | exact rfl
    | (intro x
       refine Touches.mid (show Touches [.vis, .sdm] b x from ?_) (fun h => ?_)
       all_goals first | (with_reducible have h0 : Touches [.vis, .sdm] b x := h; clear h0; clear_value x) | subst x)
    | intro _
    | lift_lets
    | with_reducible refine Touches.ite ?_ ?_
    | with_reducible apply Touches.step (Block.count_touches ..)
    | with_reducible apply Touches.step (Block.sdmCleared_touches ..)
    | split
    | with_reducible refine Touches.snd (by assumption) ?_
    | with_reducible refine Touches.fst (by assumption) ?_
    | (clear_value *; split)
    | dsimp only

theorem Block.sdmSync_touches (b) (x1) : Touches [.free, .vis, .act, .com, .dirty, .resp, .rep, .cells, .poison, .evr, .que, .cas, .sdm, .nrg, .cap] b (Block.sdmSync b x1) := by
  unfold Block.sdmSync
  repeat' first
    | with_reducible assumption
    | with_reducible exact Touches.refl
    | exact rfl
    | (intro x
       refine Touches.mid (show Touches [.free, .vis, .act, .com, .dirty, .resp, .rep, .cells, .poison, .evr, .que, .cas, .sdm, .nrg, .cap] b x from ?_) (fun h => ?_)
       all_goals first | (with_reducible have h0 : Touches [.free, .vis, .act, .com, .dirty, .resp, .rep, .cells, .poison, .evr, .que, .cas, .sdm, .nrg, .cap] b x := h; clear h0; clear_value x) | subst x)
    | intro _
    | lift_lets
    | with_reducible refine Touches.ite ?_ ?_
    | with_reducible apply Touches.step (Block.sdmRestart_touches ..)
    | with_reducible apply Touches.step (Block.nrgSync_touches ..)
    | with_reducible apply Touches.step (Block.event_touches ..)
    | with_reducible apply Touches.step (Block.irq_touches ..)
    | with_reducible apply Touches.step (Block.capStep_touches ..)
    | ((with_reducible apply Touches.set_sdm) <;> first | with_reducible assumption | with_reducible exact Touches.refl | exact rfl | with_reducible refine Touches.snd (by assumption) ?_)
    | with_reducible refine Touches.fold ?_ (fun _ _ _ => ?_)
    | split
    | with_reducible refine Touches.snd (by assumption) ?_
    | with_reducible refine Touches.fst (by assumption) ?_
    | with_reducible refine Touches.fold1 ?_ (fun _ _ _ => ?_)
    | with_reducible refine Touches.fold2 ?_ (fun _ _ _ => ?_)
    | (clear_value *; split)
    | dsimp only

theorem Block.sdmSyncAt_touches (b) (x1) : Touches [.sdm] b (Block.sdmSyncAt b x1) := by
  unfold Block.sdmSyncAt
  repeat' first
    | with_reducible assumption
    | with_reducible exact Touches.refl
    | exact rfl
    | (intro x
       refine Touches.mid (show Touches [.sdm] b x from ?_) (fun h => ?_)
       all_goals first | (with_reducible have h0 : Touches [.sdm] b x := h; clear h0; clear_value x) | subst x)
    | intro _
    | lift_lets
    | with_reducible refine Touches.ite ?_ ?_
    | ((with_reducible apply Touches.set_sdm) <;> first | with_reducible assumption | with_reducible exact Touches.refl | exact rfl | with_reducible refine Touches.snd (by assumption) ?_)
    | split
    | with_reducible refine Touches.snd (by assumption) ?_
    | with_reducible refine Touches.fst (by assumption) ?_
    | (clear_value *; split)
    | dsimp only

theorem Block.sdmSyncDue_touches (b) : Touches [.free, .vis, .act, .com, .dirty, .resp, .rep, .cells, .poison, .evr, .que, .cas, .sdm, .nrg, .cap] b (Block.sdmSyncDue b) := by
  unfold Block.sdmSyncDue
  repeat' first
    | with_reducible assumption
    | with_reducible exact Touches.refl
    | exact rfl
    | (intro x
       refine Touches.mid (show Touches [.free, .vis, .act, .com, .dirty, .resp, .rep, .cells, .poison, .evr, .que, .cas, .sdm, .nrg, .cap] b x from ?_) (fun h => ?_)
       all_goals first | (with_reducible have h0 : Touches [.free, .vis, .act, .com, .dirty, .resp, .rep, .cells, .poison, .evr, .que, .cas, .sdm, .nrg, .cap] b x := h; clear h0; clear_value x) | subst x)
    | intro _
    | lift_lets
    | with_reducible refine Touches.ite ?_ ?_
    | with_reducible apply Touches.step (Block.sdmSync_touches ..)
    | ((with_reducible apply Touches.set_sdm) <;> first | with_reducible assumption | with_reducible exact Touches.refl | exact rfl | with_reducible refine Touches.snd (by assumption) ?_)
    | split
    | with_reducible refine Touches.snd (by assumption) ?_
    | with_reducible refine Touches.fst (by assumption) ?_
    | (clear_value *; split)
    | dsimp only

theorem Block.decimatorOutput_touches (b) (x1) (x2) (x3) : Touches [.vis, .act, .com, .dirty, .resp, .rep, .cells, .poison, .evr, .que, .cas, .sdm, .nrg, .cap] b (Block.decimatorOutput b x1 x2 x3) := by
  unfold Block.decimatorOutput
  repeat' first
    | with_reducible assumption
    | with_reducible exact Touches.refl
    | exact rfl
    | (intro x
       refine Touches.mid (show Touches [.vis, .act, .com, .dirty, .resp, .rep, .cells, .poison, .evr, .que, .cas, .sdm, .nrg, .cap] b x from ?_) (fun h => ?_)
       all_goals first | (with_reducible have h0 : Touches [.vis, .act, .com, .dirty, .resp, .rep, .cells, .poison, .evr, .que, .cas, .sdm, .nrg, .cap] b x := h; clear h0; clear_value x) | subst x)
    | intro _
    | lift_lets
    | with_reducible refine Touches.ite ?_ ?_
    | with_reducible apply Touches.step (Block.sdmEmit_touches ..)
    | with_reducible apply Touches.step (Block.eventRep_touches ..)
    | with_reducible apply Touches.step (Block.irq_touches ..)
    | with_reducible apply Touches.step (Block.count_touches ..)
    | with_reducible apply Touches.step (Block.nrgSample_touches ..)
    | with_reducible apply Touches.step (Block.capSample_touches ..)
    | split
    | with_reducible refine Touches.snd (by assumption) ?_
    | with_reducible refine Touches.fst (by assumption) ?_
    | (clear_value *; split)
    | dsimp only

theorem Block.chFault_touches (b) (x1) : Touches [.vis, .evr, .sdm] b (Block.chFault b x1) := by
  unfold Block.chFault
  repeat' first
    | with_reducible assumption
    | with_reducible exact Touches.refl
    | exact rfl
    | (intro x
       refine Touches.mid (show Touches [.vis, .evr, .sdm] b x from ?_) (fun h => ?_)
       all_goals first | (with_reducible have h0 : Touches [.vis, .evr, .sdm] b x := h; clear h0; clear_value x) | subst x)
    | intro _
    | lift_lets
    | with_reducible refine Touches.ite ?_ ?_
    | with_reducible apply Touches.step (Block.event_touches ..)
    | with_reducible apply Touches.step (Block.irq_touches ..)
    | with_reducible apply Touches.step (Block.count_touches ..)
    | with_reducible apply Touches.step (Block.setSdmCh_touches ..)
    | split
    | with_reducible refine Touches.snd (by assumption) ?_
    | with_reducible refine Touches.fst (by assumption) ?_
    | (clear_value *; split)
    | dsimp only

theorem Block.chRecover_touches (b) (x1) : Touches [.vis, .evr, .sdm] b (Block.chRecover b x1) := by
  unfold Block.chRecover
  repeat' first
    | with_reducible assumption
    | with_reducible exact Touches.refl
    | exact rfl
    | (intro x
       refine Touches.mid (show Touches [.vis, .evr, .sdm] b x from ?_) (fun h => ?_)
       all_goals first | (with_reducible have h0 : Touches [.vis, .evr, .sdm] b x := h; clear h0; clear_value x) | subst x)
    | intro _
    | lift_lets
    | with_reducible refine Touches.ite ?_ ?_
    | with_reducible apply Touches.step (Block.event_touches ..)
    | with_reducible apply Touches.step (Block.irq_touches ..)
    | with_reducible apply Touches.step (Block.sdmRestart_touches ..)
    | with_reducible apply Touches.step (Block.setSdmCh_touches ..)
    | split
    | with_reducible refine Touches.snd (by assumption) ?_
    | with_reducible refine Touches.fst (by assumption) ?_
    | (clear_value *; split)
    | dsimp only

theorem Block.localRecord_touches (b) (x1) (x2) : Touches [.vis, .resp, .rep, .cells, .poison, .evr, .aln, .que, .str, .sdm] b (Block.localRecord b x1 x2) := by
  unfold Block.localRecord
  repeat' first
    | with_reducible assumption
    | with_reducible exact Touches.refl
    | exact rfl
    | (intro x
       refine Touches.mid (show Touches [.vis, .resp, .rep, .cells, .poison, .evr, .aln, .que, .str, .sdm] b x from ?_) (fun h => ?_)
       all_goals first | (with_reducible have h0 : Touches [.vis, .resp, .rep, .cells, .poison, .evr, .aln, .que, .str, .sdm] b x := h; clear h0; clear_value x) | subst x)
    | intro _
    | lift_lets
    | with_reducible refine Touches.ite ?_ ?_
    | with_reducible apply Touches.step (Block.engineRewrite_touches ..)
    | with_reducible apply Touches.step (Block.setVis_touches ..)
    | with_reducible apply Touches.step (Block.count_touches ..)
    | with_reducible apply Touches.step (Block.offer_touches ..)
    | ((with_reducible apply Touches.set_sdm) <;> first | with_reducible assumption | with_reducible exact Touches.refl | exact rfl | with_reducible refine Touches.snd (by assumption) ?_)
    | split
    | with_reducible refine Touches.snd (by assumption) ?_
    | with_reducible refine Touches.fst (by assumption) ?_
    | (clear_value *; split)
    | dsimp only

theorem Block.sdmCommit_touches (b) : Touches [.com, .dirty, .sdm] b (Block.sdmCommit b) := by
  unfold Block.sdmCommit
  repeat' first
    | with_reducible assumption
    | with_reducible exact Touches.refl
    | exact rfl
    | (intro x
       refine Touches.mid (show Touches [.com, .dirty, .sdm] b x from ?_) (fun h => ?_)
       all_goals first | (with_reducible have h0 : Touches [.com, .dirty, .sdm] b x := h; clear h0; clear_value x) | subst x)
    | intro _
    | lift_lets
    | with_reducible refine Touches.ite ?_ ?_
    | with_reducible apply Touches.step (Block.commit_touches ..)
    | ((with_reducible apply Touches.set_sdm) <;> first | with_reducible assumption | with_reducible exact Touches.refl | exact rfl | with_reducible refine Touches.snd (by assumption) ?_)
    | split
    | with_reducible refine Touches.snd (by assumption) ?_
    | with_reducible refine Touches.fst (by assumption) ?_
    | (clear_value *; split)
    | dsimp only

theorem Block.sdmHandover_touches (b) : Touches [.free, .vis, .act, .com, .dirty, .resp, .rep, .cells, .poison, .evr, .que, .cas, .sdm, .nrg, .cap] b (Block.sdmHandover b) := by
  unfold Block.sdmHandover
  repeat' first
    | with_reducible assumption
    | with_reducible exact Touches.refl
    | exact rfl
    | (intro x
       refine Touches.mid (show Touches [.free, .vis, .act, .com, .dirty, .resp, .rep, .cells, .poison, .evr, .que, .cas, .sdm, .nrg, .cap] b x from ?_) (fun h => ?_)
       all_goals first | (with_reducible have h0 : Touches [.free, .vis, .act, .com, .dirty, .resp, .rep, .cells, .poison, .evr, .que, .cas, .sdm, .nrg, .cap] b x := h; clear h0; clear_value x) | subst x)
    | intro _
    | lift_lets
    | with_reducible refine Touches.ite ?_ ?_
    | ((with_reducible apply Block.handover_step) <;> first | exact rfl | intro _ _ _ | skip)
    | with_reducible apply Touches.step (Block.event_touches ..)
    | with_reducible apply Touches.step (Block.irq_touches ..)
    | with_reducible apply Touches.step (Block.capEmpty_touches ..)
    | with_reducible apply Touches.step (Block.sdmCleared_touches ..)
    | with_reducible apply Touches.step (Block.sdmSync_touches ..)
    | with_reducible apply Touches.step (Block.sdmRestart_touches ..)
    | ((with_reducible apply Touches.set_sdm) <;> first | with_reducible assumption | with_reducible exact Touches.refl | exact rfl | with_reducible refine Touches.snd (by assumption) ?_)
    | with_reducible refine Touches.fold ?_ (fun _ _ _ => ?_)
    | split
    | with_reducible refine Touches.snd (by assumption) ?_
    | with_reducible refine Touches.fst (by assumption) ?_
    | with_reducible refine Touches.fold1 ?_ (fun _ _ _ => ?_)
    | with_reducible refine Touches.fold2 ?_ (fun _ _ _ => ?_)
    | with_reducible refine Touches.getD (fun _ _ => ?_) ?_
    | (clear_value *; split)
    | dsimp only

theorem Block.sdmShadow_touches (b) : Touches [.free, .vis, .act, .com, .dirty, .resp, .rep, .cells, .poison, .evr, .que, .cas, .sdm, .nrg, .cap] b (Block.sdmShadow b) := by
  unfold Block.sdmShadow
  repeat' first
    | with_reducible assumption
    | with_reducible exact Touches.refl
    | exact rfl
    | (intro x
       refine Touches.mid (show Touches [.free, .vis, .act, .com, .dirty, .resp, .rep, .cells, .poison, .evr, .que, .cas, .sdm, .nrg, .cap] b x from ?_) (fun h => ?_)
       all_goals first | (with_reducible have h0 : Touches [.free, .vis, .act, .com, .dirty, .resp, .rep, .cells, .poison, .evr, .que, .cas, .sdm, .nrg, .cap] b x := h; clear h0; clear_value x) | subst x)
    | intro _
    | lift_lets
    | with_reducible refine Touches.ite ?_ ?_
    | with_reducible apply Touches.step (Block.sdmHandover_touches ..)
    | split
    | with_reducible refine Touches.snd (by assumption) ?_
    | with_reducible refine Touches.fst (by assumption) ?_
    | (clear_value *; split)
    | dsimp only

end Sys2Proof.Machine
end

