-- ==== Sys2Proof/Laws/TouchAlnBase.lean ====
section
/-! SUPPORT. What the operations of Machine/AlnBase.lean touch. -/

namespace Sys2Proof.Machine

set_option linter.all false

theorem Block.recomputeWaits_touches (b) (x1) : Touches [.aln] b (Block.recomputeWaits b x1) := by
  unfold Block.recomputeWaits
  repeat' first
    | with_reducible assumption
    | with_reducible exact Touches.refl
    | exact rfl
    | (intro x
       refine Touches.mid (show Touches [.aln] b x from ?_) (fun h => ?_)
       all_goals first | (with_reducible have h0 : Touches [.aln] b x := h; clear h0; clear_value x) | subst x)
    | intro _
    | lift_lets
    | with_reducible refine Touches.ite ?_ ?_
    | with_reducible apply Touches.step (Block.setAlnCtx_touches ..)
    | with_reducible apply Touches.step (Block.setRing_touches ..)
    | with_reducible refine Touches.fold ?_ (fun _ _ _ => ?_)
    | split
    | with_reducible refine Touches.snd (by assumption) ?_
    | with_reducible refine Touches.fst (by assumption) ?_
    | with_reducible refine Touches.fold1 ?_ (fun _ _ _ => ?_)
    | with_reducible refine Touches.fold2 ?_ (fun _ _ _ => ?_)
    | (clear_value *; split)
    | dsimp only

theorem Block.alnReject_touches (b) (x1) : Touches [.vis, .evr] b (Block.alnReject b x1) := by
  unfold Block.alnReject
  repeat' first
    | with_reducible assumption
    | with_reducible exact Touches.refl
    | exact rfl
    | (intro x
       refine Touches.mid (show Touches [.vis, .evr] b x from ?_) (fun h => ?_)
       all_goals first | (with_reducible have h0 : Touches [.vis, .evr] b x := h; clear h0; clear_value x) | subst x)
    | intro _
    | lift_lets
    | with_reducible refine Touches.ite ?_ ?_
    | with_reducible apply Touches.step (Block.setBit_touches ..)
    | with_reducible apply Touches.step (Block.event_touches ..)
    | with_reducible apply Touches.step (Block.irq_touches ..)
    | split
    | with_reducible refine Touches.snd (by assumption) ?_
    | with_reducible refine Touches.fst (by assumption) ?_
    | (clear_value *; split)
    | dsimp only

theorem Block.alnDefer_touches (b) (x1) : Touches [.vis] b (Block.alnDefer b x1) := by
  unfold Block.alnDefer
  repeat' first
    | with_reducible assumption
    | with_reducible exact Touches.refl
    | exact rfl
    | (intro x
       refine Touches.mid (show Touches [.vis] b x from ?_) (fun h => ?_)
       all_goals first | (with_reducible have h0 : Touches [.vis] b x := h; clear h0; clear_value x) | subst x)
    | intro _
    | lift_lets
    | with_reducible refine Touches.ite ?_ ?_
    | with_reducible apply Touches.step (Block.count_touches ..)
    | split
    | with_reducible refine Touches.snd (by assumption) ?_
    | with_reducible refine Touches.fst (by assumption) ?_
    | (clear_value *; split)
    | dsimp only

theorem Block.alnCommit_touches (b) : Touches [.vis, .com, .dirty] b (Block.alnCommit b) := by
  unfold Block.alnCommit
  repeat' first
    | with_reducible assumption
    | with_reducible exact Touches.refl
    | exact rfl
    | (intro x
       refine Touches.mid (show Touches [.vis, .com, .dirty] b x from ?_) (fun h => ?_)
       all_goals first | (with_reducible have h0 : Touches [.vis, .com, .dirty] b x := h; clear h0; clear_value x) | subst x)
    | intro _
    | lift_lets
    | with_reducible refine Touches.ite ?_ ?_
    | with_reducible apply Touches.step (Block.commit_touches ..)
    | with_reducible apply Touches.step (Block.alnDefer_touches ..)
    | split
    | with_reducible refine Touches.snd (by assumption) ?_
    | with_reducible refine Touches.fst (by assumption) ?_
    | (clear_value *; split)
    | dsimp only

theorem Block.alnLateWrite_touches (b) (x1) : Touches [.vis, .com, .dirty] b (Block.alnLateWrite b x1) := by
  unfold Block.alnLateWrite
  repeat' first
    | with_reducible assumption
    | with_reducible exact Touches.refl
    | exact rfl
    | (intro x
       refine Touches.mid (show Touches [.vis, .com, .dirty] b x from ?_) (fun h => ?_)
       all_goals first | (with_reducible have h0 : Touches [.vis, .com, .dirty] b x := h; clear h0; clear_value x) | subst x)
    | intro _
    | lift_lets
    | with_reducible refine Touches.ite ?_ ?_
    | with_reducible apply Touches.step (Block.alnDefer_touches ..)
    | with_reducible apply Touches.step (Block.promote_touches ..)
    | split
    | with_reducible refine Touches.snd (by assumption) ?_
    | with_reducible refine Touches.fst (by assumption) ?_
    | (clear_value *; split)
    | dsimp only

theorem Block.alnHandover_touches (b) (x1) : Touches [.vis, .act, .com, .dirty, .evr] b (Block.alnHandover b x1) := by
  unfold Block.alnHandover
  repeat' first
    | with_reducible assumption
    | with_reducible exact Touches.refl
    | exact rfl
    | (intro x
       refine Touches.mid (show Touches [.vis, .act, .com, .dirty, .evr] b x from ?_) (fun h => ?_)
       all_goals first | (with_reducible have h0 : Touches [.vis, .act, .com, .dirty, .evr] b x := h; clear h0; clear_value x) | subst x)
    | intro _
    | lift_lets
    | with_reducible refine Touches.ite ?_ ?_
    | ((with_reducible apply Block.handover_step) <;> first | exact rfl | intro _ _ _ | skip)
    | with_reducible apply Touches.step (Block.alnDefer_touches ..)
    | with_reducible apply Touches.step (Block.promote_touches ..)
    | with_reducible apply Touches.step (Block.alnReject_touches ..)
    | split
    | with_reducible refine Touches.snd (by assumption) ?_
    | with_reducible refine Touches.fst (by assumption) ?_
    | (clear_value *; split)
    | dsimp only

theorem Block.relearn_touches (b) (x1) : Touches [.aln] b (Block.relearn b x1) := by
  unfold Block.relearn
  repeat' first
    | with_reducible assumption
    | with_reducible exact Touches.refl
    | exact rfl
    | (intro x
       refine Touches.mid (show Touches [.aln] b x from ?_) (fun h => ?_)
       all_goals first | (with_reducible have h0 : Touches [.aln] b x := h; clear h0; clear_value x) | subst x)
    | intro _
    | lift_lets
    | with_reducible refine Touches.ite ?_ ?_
    | with_reducible apply Touches.step (Block.setAlnCtx_touches ..)
    | with_reducible refine Touches.fold ?_ (fun _ _ _ => ?_)
    | split
    | with_reducible refine Touches.snd (by assumption) ?_
    | with_reducible refine Touches.fst (by assumption) ?_
    | with_reducible refine Touches.fold1 ?_ (fun _ _ _ => ?_)
    | with_reducible refine Touches.fold2 ?_ (fun _ _ _ => ?_)
    | (clear_value *; split)
    | dsimp only

theorem Block.redHandover_touches (b) : Touches [.vis, .act, .com, .dirty, .evr] b (Block.redHandover b) := by
  unfold Block.redHandover
  repeat' first
    | with_reducible assumption
    | with_reducible exact Touches.refl
    | exact rfl
    | (intro x
       refine Touches.mid (show Touches [.vis, .act, .com, .dirty, .evr] b x from ?_) (fun h => ?_)
       all_goals first | (with_reducible have h0 : Touches [.vis, .act, .com, .dirty, .evr] b x := h; clear h0; clear_value x) | subst x)
    | intro _
    | lift_lets
    | with_reducible refine Touches.ite ?_ ?_
    | ((with_reducible apply Block.handover_step) <;> first | exact rfl | intro _ _ _ | skip)
    | with_reducible apply Touches.step (Block.redEvent_touches ..)
    | with_reducible apply Touches.step (Block.irq_touches ..)
    | split
    | with_reducible refine Touches.snd (by assumption) ?_
    | with_reducible refine Touches.fst (by assumption) ?_
    | (clear_value *; split)
    | dsimp only

theorem Block.openHandovers_touches (b) (x1) : Touches [.free, .vis, .act, .com, .dirty, .resp, .rep, .cells, .poison, .evr, .aln, .que, .prt, .out, .cas, .rpl, .alm, .sdm, .nrg, .cap] b (Block.openHandovers b x1) := by
  unfold Block.openHandovers
  repeat' first
    | with_reducible assumption
    | with_reducible exact Touches.refl
    | exact rfl
    | (intro x
       refine Touches.mid (show Touches [.free, .vis, .act, .com, .dirty, .resp, .rep, .cells, .poison, .evr, .aln, .que, .prt, .out, .cas, .rpl, .alm, .sdm, .nrg, .cap] b x from ?_) (fun h => ?_)
       all_goals first | (with_reducible have h0 : Touches [.free, .vis, .act, .com, .dirty, .resp, .rep, .cells, .poison, .evr, .aln, .que, .prt, .out, .cas, .rpl, .alm, .sdm, .nrg, .cap] b x := h; clear h0; clear_value x) | subst x)
    | intro _
    | lift_lets
    | with_reducible refine Touches.ite ?_ ?_
    | with_reducible apply Touches.step (Block.outHandover_touches ..)
    | with_reducible apply Touches.step (Block.relearn_touches ..)
    | with_reducible apply Touches.step (Block.alnHandover_touches ..)
    | with_reducible apply Touches.step (Block.strHandover_touches ..)
    | with_reducible apply Touches.step (Block.redHandover_touches ..)
    | with_reducible apply Touches.step (Block.sdmHandover_touches ..)
    | with_reducible apply Touches.step (Block.rplHandover_touches ..)
    | with_reducible apply Touches.step (Block.almHandover_touches ..)
    | with_reducible apply Touches.step (Block.islHandover_touches ..)
    | split
    | with_reducible refine Touches.snd (by assumption) ?_
    | with_reducible refine Touches.fst (by assumption) ?_
    | (clear_value *; split)
    | dsimp only

theorem Block.cancelClaims_touches (b) (x1) (x2) : Touches [.vis, .rep, .evr, .aln] b (Block.cancelClaims b x1 x2) := by
  unfold Block.cancelClaims
  repeat' first
    | with_reducible assumption
    | with_reducible exact Touches.refl
    | exact rfl
    | (intro x
       refine Touches.mid (show Touches [.vis, .rep, .evr, .aln] b x from ?_) (fun h => ?_)
       all_goals first | (with_reducible have h0 : Touches [.vis, .rep, .evr, .aln] b x := h; clear h0; clear_value x) | subst x)
    | intro _
    | lift_lets
    | with_reducible refine Touches.ite ?_ ?_
    | with_reducible apply Touches.step (Block.tooLate_touches ..)
    | ((with_reducible apply Touches.set_aln) <;> first | with_reducible assumption | with_reducible exact Touches.refl | exact rfl | with_reducible refine Touches.snd (by assumption) ?_)
    | with_reducible refine Touches.fold ?_ (fun _ _ _ => ?_)
    | split
    | with_reducible refine Touches.snd (by assumption) ?_
    | with_reducible refine Touches.fst (by assumption) ?_
    | with_reducible refine Touches.fold1 ?_ (fun _ _ _ => ?_)
    | with_reducible refine Touches.fold2 ?_ (fun _ _ _ => ?_)
    | (clear_value *; split)
    | dsimp only

theorem Block.freeBasin_touches (b) (x1) (x2) : Touches [.vis, .rep, .evr, .aln, .out] b (Block.freeBasin b x1 x2) := by
  unfold Block.freeBasin
  repeat' first
    | with_reducible assumption
    | with_reducible exact Touches.refl
    | exact rfl
    | (intro x
       refine Touches.mid (show Touches [.vis, .rep, .evr, .aln, .out] b x from ?_) (fun h => ?_)
       all_goals first | (with_reducible have h0 : Touches [.vis, .rep, .evr, .aln, .out] b x := h; clear h0; clear_value x) | subst x)
    | intro _
    | lift_lets
    | with_reducible refine Touches.ite ?_ ?_
    | with_reducible apply Touches.step (Block.outDrop_touches ..)
    | with_reducible apply Touches.step (Block.cancelClaims_touches ..)
    | with_reducible apply Touches.step (Block.setBasin_touches ..)
    | split
    | with_reducible refine Touches.snd (by assumption) ?_
    | with_reducible refine Touches.fst (by assumption) ?_
    | (clear_value *; split)
    | dsimp only

theorem Block.zeroRange_touches (b) (x1) (x2) : Touches [.cells] b (Block.zeroRange b x1 x2) := Touches.refl.setMem _ (fun p hp => by cases p <;> first | rfl | cases hp) (fun w => Memory.wf_of (fun h => cellsWf_filter _ h) (fun h => h) w)

theorem Block.clearMerged_touches (b) (x1) : Touches [.cells, .cas] b (Block.clearMerged b x1) := by
  unfold Block.clearMerged
  repeat' first
    | with_reducible assumption
    | with_reducible exact Touches.refl
    | exact rfl
    | (intro x
       refine Touches.mid (show Touches [.cells, .cas] b x from ?_) (fun h => ?_)
       all_goals first | (with_reducible have h0 : Touches [.cells, .cas] b x := h; clear h0; clear_value x) | subst x)
    | intro _
    | lift_lets
    | with_reducible refine Touches.ite ?_ ?_
    | with_reducible apply Touches.step (Block.zeroRange_touches ..)
    | ((with_reducible apply Touches.set_cas) <;> first | with_reducible assumption | with_reducible exact Touches.refl | exact rfl | with_reducible refine Touches.snd (by assumption) ?_)
    | split
    | with_reducible refine Touches.snd (by assumption) ?_
    | with_reducible refine Touches.fst (by assumption) ?_
    | (clear_value *; split)
    | dsimp only

theorem Block.openBasin_touches (b) (x1) : Touches [.free, .vis, .act, .com, .dirty, .resp, .rep, .cells, .poison, .evr, .aln, .que, .prt, .out, .cas, .rpl, .alm, .cmp, .sdm, .nrg, .cap] b (Block.openBasin b x1) := by
  unfold Block.openBasin
  repeat' first
    | with_reducible assumption
    | with_reducible exact Touches.refl
    | exact rfl
    | (intro x
       refine Touches.mid (show Touches [.free, .vis, .act, .com, .dirty, .resp, .rep, .cells, .poison, .evr, .aln, .que, .prt, .out, .cas, .rpl, .alm, .cmp, .sdm, .nrg, .cap] b x from ?_) (fun h => ?_)
       all_goals first | (with_reducible have h0 : Touches [.free, .vis, .act, .com, .dirty, .resp, .rep, .cells, .poison, .evr, .aln, .que, .prt, .out, .cas, .rpl, .alm, .cmp, .sdm, .nrg, .cap] b x := h; clear h0; clear_value x) | subst x)
    | intro _
    | lift_lets
    | with_reducible refine Touches.ite ?_ ?_
    | with_reducible apply Touches.step (Block.recomputeWaits_touches ..)
    | with_reducible apply Touches.step (Block.openHandovers_touches ..)
    | with_reducible apply Touches.step (Block.event_touches ..)
    | with_reducible apply Touches.step (Block.irq_touches ..)
    | with_reducible apply Touches.step (Block.count_touches ..)
    | with_reducible apply Touches.step (Block.cmpFreed_touches ..)
    | with_reducible apply Touches.step (Block.freeBasin_touches ..)
    | with_reducible apply Touches.step (Block.clearMerged_touches ..)
    | with_reducible apply Touches.step (Block.setBasin_touches ..)
    | with_reducible apply Touches.step (Block.setRing_touches ..)
    | with_reducible apply Touches.step (Block.bmpWritten_touches ..)
    | with_reducible apply Touches.step (Block.outOpen_touches ..)
    | split
    | with_reducible refine Touches.snd (by assumption) ?_
    | with_reducible refine Touches.fst (by assumption) ?_
    | (clear_value *; split)
    | dsimp only

theorem Block.endAnalysis_touches (b) (x1) : Touches [.free, .vis, .rep, .poison, .evr, .aln, .dfe, .prt, .out, .alm] b (Block.endAnalysis b x1) := by
  unfold Block.endAnalysis
  repeat' first
    | with_reducible assumption
    | with_reducible exact Touches.refl
    | exact rfl
    | (intro x
       refine Touches.mid (show Touches [.free, .vis, .rep, .poison, .evr, .aln, .dfe, .prt, .out, .alm] b x from ?_) (fun h => ?_)
       all_goals first | (with_reducible have h0 : Touches [.free, .vis, .rep, .poison, .evr, .aln, .dfe, .prt, .out, .alm] b x := h; clear h0; clear_value x) | subst x)
    | intro _
    | lift_lets
    | with_reducible refine Touches.ite ?_ ?_
    | with_reducible apply Touches.step (Block.expireTag_touches ..)
    | with_reducible apply Touches.step (Block.almExpire_touches ..)
    | with_reducible apply Touches.step (Block.setRing_touches ..)
    | ((with_reducible apply Touches.set_dfe_alm) <;> first | with_reducible assumption | with_reducible exact Touches.refl | exact rfl | with_reducible refine Touches.snd (by assumption) ?_)
    | split
    | with_reducible refine Touches.snd (by assumption) ?_
    | with_reducible refine Touches.fst (by assumption) ?_
    | (clear_value *; split)
    | dsimp only

theorem Block.freeRing_touches (b) (x1) : Touches [.free, .vis, .rep, .cells, .poison, .evr, .aln, .out, .cmp] b (Block.freeRing b x1) := by
  unfold Block.freeRing
  repeat' first
    | with_reducible assumption
    | with_reducible exact Touches.refl
    | exact rfl
    | (intro x
       refine Touches.mid (show Touches [.free, .vis, .rep, .cells, .poison, .evr, .aln, .out, .cmp] b x from ?_) (fun h => ?_)
       all_goals first | (with_reducible have h0 : Touches [.free, .vis, .rep, .cells, .poison, .evr, .aln, .out, .cmp] b x := h; clear h0; clear_value x) | subst x)
    | intro _
    | lift_lets
    | with_reducible refine Touches.ite ?_ ?_
    | with_reducible apply Touches.step (Block.cmpRestart_touches ..)
    | with_reducible apply Touches.step (Block.freeBasin_touches ..)
    | with_reducible refine Touches.fold ?_ (fun _ _ _ => ?_)
    | split
    | with_reducible refine Touches.snd (by assumption) ?_
    | with_reducible refine Touches.fst (by assumption) ?_
    | with_reducible refine Touches.fold1 ?_ (fun _ _ _ => ?_)
    | with_reducible refine Touches.fold2 ?_ (fun _ _ _ => ?_)
    | (clear_value *; split)
    | dsimp only

theorem Block.present_touches (b) (x1) : Touches [.aln] b (Block.present b x1) := by
  unfold Block.present
  repeat' first
    | with_reducible assumption
    | with_reducible exact Touches.refl
    | exact rfl
    | (intro x
       refine Touches.mid (show Touches [.aln] b x from ?_) (fun h => ?_)
       all_goals first | (with_reducible have h0 : Touches [.aln] b x := h; clear h0; clear_value x) | subst x)
    | intro _
    | lift_lets
    | with_reducible refine Touches.ite ?_ ?_
    | with_reducible apply Touches.step (Block.setAlnCtx_touches ..)
    | with_reducible refine Touches.fold ?_ (fun _ _ _ => ?_)
    | split
    | with_reducible refine Touches.snd (by assumption) ?_
    | with_reducible refine Touches.fst (by assumption) ?_
    | with_reducible refine Touches.fold1 ?_ (fun _ _ _ => ?_)
    | with_reducible refine Touches.fold2 ?_ (fun _ _ _ => ?_)
    | (clear_value *; split)
    | dsimp only

theorem Block.ringStart_touches (b) (x1) : Touches [.free, .vis, .act, .com, .dirty, .resp, .rep, .cells, .poison, .evr, .aln, .que, .dfe, .prt, .out, .cas, .rpl, .alm, .cmp, .sdm, .nrg, .cap] b (Block.ringStart b x1) := by
  unfold Block.ringStart
  repeat' first
    | with_reducible assumption
    | with_reducible exact Touches.refl
    | exact rfl
    | (intro x
       refine Touches.mid (show Touches [.free, .vis, .act, .com, .dirty, .resp, .rep, .cells, .poison, .evr, .aln, .que, .dfe, .prt, .out, .cas, .rpl, .alm, .cmp, .sdm, .nrg, .cap] b x from ?_) (fun h => ?_)
       all_goals first | (with_reducible have h0 : Touches [.free, .vis, .act, .com, .dirty, .resp, .rep, .cells, .poison, .evr, .aln, .que, .dfe, .prt, .out, .cas, .rpl, .alm, .cmp, .sdm, .nrg, .cap] b x := h; clear h0; clear_value x) | subst x)
    | intro _
    | lift_lets
    | with_reducible refine Touches.ite ?_ ?_
    | with_reducible apply Touches.step (Block.present_touches ..)
    | with_reducible apply Touches.step (Block.freeRing_touches ..)
    | with_reducible apply Touches.step (Block.endAnalysis_touches ..)
    | with_reducible apply Touches.step (Block.setRing_touches ..)
    | with_reducible apply Touches.step (Block.openBasin_touches ..)
    | split
    | with_reducible refine Touches.snd (by assumption) ?_
    | with_reducible refine Touches.fst (by assumption) ?_
    | (clear_value *; split)
    | dsimp only

theorem Block.ringsStart_touches (b) : Touches [.free, .vis, .act, .com, .dirty, .resp, .rep, .cells, .poison, .evr, .aln, .que, .dfe, .prt, .out, .cas, .rpl, .isl, .alm, .cmp, .sdm, .nrg, .cap] b (Block.ringsStart b) := by
  unfold Block.ringsStart
  repeat' first
    | with_reducible assumption
    | with_reducible exact Touches.refl
    | exact rfl
    | (intro x
       refine Touches.mid (show Touches [.free, .vis, .act, .com, .dirty, .resp, .rep, .cells, .poison, .evr, .aln, .que, .dfe, .prt, .out, .cas, .rpl, .isl, .alm, .cmp, .sdm, .nrg, .cap] b x from ?_) (fun h => ?_)
       all_goals first | (with_reducible have h0 : Touches [.free, .vis, .act, .com, .dirty, .resp, .rep, .cells, .poison, .evr, .aln, .que, .dfe, .prt, .out, .cas, .rpl, .isl, .alm, .cmp, .sdm, .nrg, .cap] b x := h; clear h0; clear_value x) | subst x)
    | intro _
    | lift_lets
    | with_reducible refine Touches.ite ?_ ?_
    | with_reducible apply Touches.step (Block.ringStart_touches ..)
    | with_reducible apply Touches.step (Block.islRestart_touches ..)
    | split
    | with_reducible refine Touches.snd (by assumption) ?_
    | with_reducible refine Touches.fst (by assumption) ?_
    | (clear_value *; split)
    | dsimp only

theorem Block.restartNote_touches (b) (x1) (x2) : Touches [.vis, .evr] b (Block.restartNote b x1 x2) := by
  unfold Block.restartNote
  repeat' first
    | with_reducible assumption
    | with_reducible exact Touches.refl
    | exact rfl
    | (intro x
       refine Touches.mid (show Touches [.vis, .evr] b x from ?_) (fun h => ?_)
       all_goals first | (with_reducible have h0 : Touches [.vis, .evr] b x := h; clear h0; clear_value x) | subst x)
    | intro _
    | lift_lets
    | with_reducible refine Touches.ite ?_ ?_
    | with_reducible apply Touches.step (Block.event_touches ..)
    | with_reducible apply Touches.step (Block.irq_touches ..)
    | with_reducible apply Touches.step (Block.count_touches ..)
    | split
    | with_reducible refine Touches.snd (by assumption) ?_
    | with_reducible refine Touches.fst (by assumption) ?_
    | (clear_value *; split)
    | dsimp only

theorem Block.ringsRestart_touches (b) : Touches [.free, .vis, .act, .com, .dirty, .resp, .rep, .cells, .poison, .evr, .aln, .que, .dfe, .prt, .out, .cas, .rpl, .isl, .alm, .cmp, .sdm, .nrg, .cap] b (Block.ringsRestart b) := by
  unfold Block.ringsRestart
  repeat' first
    | with_reducible assumption
    | with_reducible exact Touches.refl
    | exact rfl
    | (intro x
       refine Touches.mid (show Touches [.free, .vis, .act, .com, .dirty, .resp, .rep, .cells, .poison, .evr, .aln, .que, .dfe, .prt, .out, .cas, .rpl, .isl, .alm, .cmp, .sdm, .nrg, .cap] b x from ?_) (fun h => ?_)
       all_goals first | (with_reducible have h0 : Touches [.free, .vis, .act, .com, .dirty, .resp, .rep, .cells, .poison, .evr, .aln, .que, .dfe, .prt, .out, .cas, .rpl, .isl, .alm, .cmp, .sdm, .nrg, .cap] b x := h; clear h0; clear_value x) | subst x)
    | intro _
    | lift_lets
    | with_reducible refine Touches.ite ?_ ?_
    | with_reducible apply Touches.step (Block.newGen_touches ..)
    | with_reducible apply Touches.step (Block.endAnalysis_touches ..)
    | with_reducible apply Touches.step (Block.modalReset_touches ..)
    | with_reducible apply Touches.step (Block.restartNote_touches ..)
    | with_reducible apply Touches.step (Block.ringsStart_touches ..)
    | split
    | with_reducible refine Touches.snd (by assumption) ?_
    | with_reducible refine Touches.fst (by assumption) ?_
    | (clear_value *; split)
    | dsimp only

theorem Block.ringStop_touches (b) (x1) : Touches [.free, .vis, .rep, .cells, .poison, .evr, .aln, .dfe, .prt, .out, .alm, .cmp] b (Block.ringStop b x1) := by
  unfold Block.ringStop
  repeat' first
    | with_reducible assumption
    | with_reducible exact Touches.refl
    | exact rfl
    | (intro x
       refine Touches.mid (show Touches [.free, .vis, .rep, .cells, .poison, .evr, .aln, .dfe, .prt, .out, .alm, .cmp] b x from ?_) (fun h => ?_)
       all_goals first | (with_reducible have h0 : Touches [.free, .vis, .rep, .cells, .poison, .evr, .aln, .dfe, .prt, .out, .alm, .cmp] b x := h; clear h0; clear_value x) | subst x)
    | intro _
    | lift_lets
    | with_reducible refine Touches.ite ?_ ?_
    | with_reducible apply Touches.step (Block.freeRing_touches ..)
    | with_reducible apply Touches.step (Block.endAnalysis_touches ..)
    | with_reducible apply Touches.step (Block.setRing_touches ..)
    | split
    | with_reducible refine Touches.snd (by assumption) ?_
    | with_reducible refine Touches.fst (by assumption) ?_
    | (clear_value *; split)
    | dsimp only

theorem Block.ringsStop_touches (b) : Touches [.free, .vis, .rep, .cells, .poison, .evr, .aln, .dfe, .prt, .out, .alm, .cmp] b (Block.ringsStop b) := by
  unfold Block.ringsStop
  repeat' first
    | with_reducible assumption
    | with_reducible exact Touches.refl
    | exact rfl
    | (intro x
       refine Touches.mid (show Touches [.free, .vis, .rep, .cells, .poison, .evr, .aln, .dfe, .prt, .out, .alm, .cmp] b x from ?_) (fun h => ?_)
       all_goals first | (with_reducible have h0 : Touches [.free, .vis, .rep, .cells, .poison, .evr, .aln, .dfe, .prt, .out, .alm, .cmp] b x := h; clear h0; clear_value x) | subst x)
    | intro _
    | lift_lets
    | with_reducible refine Touches.ite ?_ ?_
    | with_reducible apply Touches.step (Block.ringStop_touches ..)
    | split
    | with_reducible refine Touches.snd (by assumption) ?_
    | with_reducible refine Touches.fst (by assumption) ?_
    | (clear_value *; split)
    | dsimp only

end Sys2Proof.Machine
end

