-- ==== Sys2Proof/Laws/TouchAlnOps.lean ====
section
/-! SUPPORT. What the operations of Machine/AlnOps.lean touch. -/

namespace Sys2Proof.Machine

set_option linter.all false

theorem Block.tagExpiry_touches (b) (x1) : Touches [.free, .vis, .act, .com, .dirty, .resp, .rep, .poison, .evr, .aln, .que, .dfe, .prt, .out, .cas, .isl, .alm, .cap, .red] b (Block.tagExpiry b x1) := by
  unfold Block.tagExpiry
  repeat' first
    | with_reducible assumption
    | with_reducible exact Touches.refl
    | exact rfl
    | (intro x
       refine Touches.mid (show Touches [.free, .vis, .act, .com, .dirty, .resp, .rep, .poison, .evr, .aln, .que, .dfe, .prt, .out, .cas, .isl, .alm, .cap, .red] b x from ?_) (fun h => ?_)
       all_goals first | (with_reducible have h0 : Touches [.free, .vis, .act, .com, .dirty, .resp, .rep, .poison, .evr, .aln, .que, .dfe, .prt, .out, .cas, .isl, .alm, .cap, .red] b x := h; clear h0; clear_value x) | subst x)
    | intro _
    | lift_lets
    | with_reducible refine Touches.ite ?_ ?_
    | with_reducible apply Touches.step (Block.expireTag_touches ..)
    | with_reducible apply Touches.step (Block.ckptCut_touches ..)
    | with_reducible apply Touches.step (Block.setRing_touches ..)
    | with_reducible apply Touches.step (Block.missSettle_touches ..)
    | with_reducible apply Touches.step (Block.almEvaluate_touches ..)
    | with_reducible apply Touches.step (Block.closeStart_touches ..)
    | ((with_reducible apply Touches.set_dfe) <;> first | with_reducible assumption | with_reducible exact Touches.refl | exact rfl | with_reducible refine Touches.snd (by assumption) ?_)
    | split
    | with_reducible refine Touches.snd (by assumption) ?_
    | with_reducible refine Touches.fst (by assumption) ?_
    | (clear_value *; split)
    | dsimp only

theorem Block.analyse_touches (b) (x1) (x2) : Touches [.free, .vis, .act, .com, .dirty, .resp, .rep, .poison, .evr, .aln, .que, .dfe, .prt, .out, .cas, .isl, .alm, .cap, .red] b (Block.analyse b x1 x2) := by
  unfold Block.analyse
  repeat' first
    | with_reducible assumption
    | with_reducible exact Touches.refl
    | exact rfl
    | (intro x
       refine Touches.mid (show Touches [.free, .vis, .act, .com, .dirty, .resp, .rep, .poison, .evr, .aln, .que, .dfe, .prt, .out, .cas, .isl, .alm, .cap, .red] b x from ?_) (fun h => ?_)
       all_goals first | (with_reducible have h0 : Touches [.free, .vis, .act, .com, .dirty, .resp, .rep, .poison, .evr, .aln, .que, .dfe, .prt, .out, .cas, .isl, .alm, .cap, .red] b x := h; clear h0; clear_value x) | subst x)
    | intro _
    | lift_lets
    | with_reducible refine Touches.ite ?_ ?_
    | with_reducible apply Touches.step (Block.tagExpiry_touches ..)
    | with_reducible apply Touches.step (Block.missSettle_touches ..)
    | with_reducible apply Touches.step (Block.almEvaluate_touches ..)
    | with_reducible apply Touches.step (Block.closeStart_touches ..)
    | with_reducible apply Touches.step (Block.setRing_touches ..)
    | ((with_reducible apply Touches.set_dfe) <;> first | with_reducible assumption | with_reducible exact Touches.refl | exact rfl | with_reducible refine Touches.snd (by assumption) ?_)
    | split
    | with_reducible refine Touches.snd (by assumption) ?_
    | with_reducible refine Touches.fst (by assumption) ?_
    | (clear_value *; split)
    | dsimp only

theorem Block.partClose_touches (b) (x1) (x2) (x3) : Touches [.vis, .aln] b (Block.partClose b x1 x2 x3) := by
  unfold Block.partClose
  repeat' first
    | with_reducible assumption
    | with_reducible exact Touches.refl
    | exact rfl
    | (intro x
       refine Touches.mid (show Touches [.vis, .aln] b x from ?_) (fun h => ?_)
       all_goals first | (with_reducible have h0 : Touches [.vis, .aln] b x := h; clear h0; clear_value x) | subst x)
    | intro _
    | lift_lets
    | with_reducible refine Touches.ite ?_ ?_
    | with_reducible apply Touches.step (Block.count_touches ..)
    | ((with_reducible apply Touches.set_aln) <;> first | with_reducible assumption | with_reducible exact Touches.refl | exact rfl | with_reducible refine Touches.snd (by assumption) ?_)
    | with_reducible refine Touches.fold ?_ (fun _ _ _ => ?_)
    | split
    | with_reducible refine Touches.snd (by assumption) ?_
    | with_reducible refine Touches.fst (by assumption) ?_
    | with_reducible refine Touches.fold1 ?_ (fun _ _ _ => ?_)
    | with_reducible refine Touches.fold2 ?_ (fun _ _ _ => ?_)
    | (clear_value *; split)
    | dsimp only

theorem Block.handoverClosed_touches (b) (x1) (x2) : Touches [.free, .vis, .act, .com, .dirty, .resp, .rep, .cells, .poison, .evr, .sys, .tim, .aln, .que, .dfe, .prt, .out, .alm, .cmp, .cap, .red] b (Block.handoverClosed b x1 x2) := by
  unfold Block.handoverClosed
  repeat' first
    | with_reducible assumption
    | with_reducible exact Touches.refl
    | exact rfl
    | (intro x
       refine Touches.mid (show Touches [.free, .vis, .act, .com, .dirty, .resp, .rep, .cells, .poison, .evr, .sys, .tim, .aln, .que, .dfe, .prt, .out, .alm, .cmp, .cap, .red] b x from ?_) (fun h => ?_)
       all_goals first | (with_reducible have h0 : Touches [.free, .vis, .act, .com, .dirty, .resp, .rep, .cells, .poison, .evr, .sys, .tim, .aln, .que, .dfe, .prt, .out, .alm, .cmp, .cap, .red] b x := h; clear h0; clear_value x) | subst x)
    | intro _
    | lift_lets
    | with_reducible refine Touches.ite ?_ ?_
    | with_reducible apply Touches.step (Block.leaveTakeover_touches ..)
    | ((with_reducible apply Touches.set_red) <;> first | with_reducible assumption | with_reducible exact Touches.refl | exact rfl | with_reducible refine Touches.snd (by assumption) ?_)
    | split
    | with_reducible refine Touches.snd (by assumption) ?_
    | with_reducible refine Touches.fst (by assumption) ?_
    | (clear_value *; split)
    | dsimp only

theorem Block.closeA_touches (b) (x1) (x2) (x3) (x4) : Touches [.free, .vis, .act, .com, .dirty, .resp, .rep, .cells, .poison, .evr, .sys, .tim, .aln, .que, .dfe, .prt, .out, .cas, .isl, .alm, .cmp, .cap, .red] b (Block.closeA b x1 x2 x3 x4) := by
  unfold Block.closeA
  repeat' first
    | with_reducible assumption
    | with_reducible exact Touches.refl
    | exact rfl
    | (intro x
       refine Touches.mid (show Touches [.free, .vis, .act, .com, .dirty, .resp, .rep, .cells, .poison, .evr, .sys, .tim, .aln, .que, .dfe, .prt, .out, .cas, .isl, .alm, .cmp, .cap, .red] b x from ?_) (fun h => ?_)
       all_goals first | (with_reducible have h0 : Touches [.free, .vis, .act, .com, .dirty, .resp, .rep, .cells, .poison, .evr, .sys, .tim, .aln, .que, .dfe, .prt, .out, .cas, .isl, .alm, .cmp, .cap, .red] b x := h; clear h0; clear_value x) | subst x)
    | intro _
    | lift_lets
    | with_reducible refine Touches.ite ?_ ?_
    | with_reducible apply Touches.step (Block.setBasin_touches ..)
    | with_reducible apply Touches.step (Block.setRing_touches ..)
    | with_reducible apply Touches.step (Block.partClose_touches ..)
    | with_reducible apply Touches.step (Block.partialA_touches ..)
    | with_reducible apply Touches.step (Block.almExpire_touches ..)
    | with_reducible apply Touches.step (Block.analyse_touches ..)
    | with_reducible apply Touches.step (Block.handoverClosed_touches ..)
    | split
    | with_reducible refine Touches.snd (by assumption) ?_
    | with_reducible refine Touches.fst (by assumption) ?_
    | (clear_value *; split)
    | dsimp only

theorem Block.noteA_touches (b) (x1) (x2) : Touches [.aln] b (Block.noteA b x1 x2) := by
  unfold Block.noteA
  repeat' first
    | with_reducible assumption
    | with_reducible exact Touches.refl
    | exact rfl
    | (intro x
       refine Touches.mid (show Touches [.aln] b x from ?_) (fun h => ?_)
       all_goals first | (with_reducible have h0 : Touches [.aln] b x := h; clear h0; clear_value x) | subst x)
    | intro _
    | lift_lets
    | with_reducible refine Touches.ite ?_ ?_
    | with_reducible apply Touches.step (Block.setBasin_touches ..)
    | split
    | with_reducible refine Touches.snd (by assumption) ?_
    | with_reducible refine Touches.fst (by assumption) ?_
    | (clear_value *; split)
    | dsimp only

theorem Block.tryA1_touches (b) (x1) (x2) : Touches [.free, .vis, .act, .com, .dirty, .resp, .rep, .cells, .poison, .evr, .sys, .tim, .aln, .que, .dfe, .prt, .out, .cas, .isl, .alm, .cmp, .cap, .red] b (Block.tryA1 b x1 x2) := by
  unfold Block.tryA1
  repeat' first
    | with_reducible assumption
    | with_reducible exact Touches.refl
    | exact rfl
    | (intro x
       refine Touches.mid (show Touches [.free, .vis, .act, .com, .dirty, .resp, .rep, .cells, .poison, .evr, .sys, .tim, .aln, .que, .dfe, .prt, .out, .cas, .isl, .alm, .cmp, .cap, .red] b x from ?_) (fun h => ?_)
       all_goals first | (with_reducible have h0 : Touches [.free, .vis, .act, .com, .dirty, .resp, .rep, .cells, .poison, .evr, .sys, .tim, .aln, .que, .dfe, .prt, .out, .cas, .isl, .alm, .cmp, .cap, .red] b x := h; clear h0; clear_value x) | subst x)
    | intro _
    | lift_lets
    | with_reducible refine Touches.ite ?_ ?_
    | with_reducible apply Touches.step (Block.noteA_touches ..)
    | with_reducible apply Touches.step (Block.count_touches ..)
    | with_reducible apply Touches.step (Block.setBasin_touches ..)
    | with_reducible apply Touches.step (Block.redRelease_touches ..)
    | with_reducible apply Touches.step (Block.closeA_touches ..)
    | split
    | with_reducible refine Touches.snd (by assumption) ?_
    | with_reducible refine Touches.fst (by assumption) ?_
    | (clear_value *; split)
    | dsimp only

theorem Block.tryA_touches (b) (x1) (x2) : Touches [.free, .vis, .act, .com, .dirty, .resp, .rep, .cells, .poison, .evr, .sys, .tim, .aln, .que, .dfe, .prt, .out, .cas, .isl, .alm, .cmp, .cap, .red] b (Block.tryA b x1 x2) := by
  unfold Block.tryA
  repeat' first
    | with_reducible assumption
    | with_reducible exact Touches.refl
    | exact rfl
    | (intro x
       refine Touches.mid (show Touches [.free, .vis, .act, .com, .dirty, .resp, .rep, .cells, .poison, .evr, .sys, .tim, .aln, .que, .dfe, .prt, .out, .cas, .isl, .alm, .cmp, .cap, .red] b x from ?_) (fun h => ?_)
       all_goals first | (with_reducible have h0 : Touches [.free, .vis, .act, .com, .dirty, .resp, .rep, .cells, .poison, .evr, .sys, .tim, .aln, .que, .dfe, .prt, .out, .cas, .isl, .alm, .cmp, .cap, .red] b x := h; clear h0; clear_value x) | subst x)
    | intro _
    | lift_lets
    | with_reducible refine Touches.ite ?_ ?_
    | with_reducible apply Touches.step (Block.tryA1_touches ..)
    | split
    | with_reducible refine Touches.snd (by assumption) ?_
    | with_reducible refine Touches.fst (by assumption) ?_
    | (clear_value *; split)
    | dsimp only

theorem Block.missed1_touches (b) (x1) (x2) : Touches [.vis, .rep, .evr, .aln] b (Block.missed1 b x1 x2) := by
  unfold Block.missed1
  repeat' first
    | with_reducible assumption
    | with_reducible exact Touches.refl
    | exact rfl
    | (intro x
       refine Touches.mid (show Touches [.vis, .rep, .evr, .aln] b x from ?_) (fun h => ?_)
       all_goals first | (with_reducible have h0 : Touches [.vis, .rep, .evr, .aln] b x := h; clear h0; clear_value x) | subst x)
    | intro _
    | lift_lets
    | with_reducible refine Touches.ite ?_ ?_
    | with_reducible apply Touches.step (Block.count_touches ..)
    | with_reducible apply Touches.step (Block.setAlnCtx_touches ..)
    | with_reducible apply Touches.step (Block.silence_touches ..)
    | split
    | with_reducible refine Touches.snd (by assumption) ?_
    | with_reducible refine Touches.fst (by assumption) ?_
    | (clear_value *; split)
    | dsimp only

theorem Block.closeB_touches (b) (x1) (x2) (x3) : Touches [.free, .vis, .act, .com, .dirty, .resp, .rep, .cells, .poison, .evr, .sys, .tim, .aln, .que, .dfe, .prt, .out, .cas, .rpl, .alm, .cmp, .cap, .red] b (Block.closeB b x1 x2 x3) := by
  unfold Block.closeB
  repeat' first
    | with_reducible assumption
    | with_reducible exact Touches.refl
    | exact rfl
    | (intro x
       refine Touches.mid (show Touches [.free, .vis, .act, .com, .dirty, .resp, .rep, .cells, .poison, .evr, .sys, .tim, .aln, .que, .dfe, .prt, .out, .cas, .rpl, .alm, .cmp, .cap, .red] b x from ?_) (fun h => ?_)
       all_goals first | (with_reducible have h0 : Touches [.free, .vis, .act, .com, .dirty, .resp, .rep, .cells, .poison, .evr, .sys, .tim, .aln, .que, .dfe, .prt, .out, .cas, .rpl, .alm, .cmp, .cap, .red] b x := h; clear h0; clear_value x) | subst x)
    | intro _
    | lift_lets
    | with_reducible refine Touches.ite ?_ ?_
    | with_reducible apply Touches.step (Block.setBasin_touches ..)
    | with_reducible apply Touches.step (Block.missed1_touches ..)
    | with_reducible apply Touches.step (Block.partialB_touches ..)
    | with_reducible apply Touches.step (Block.outWeirB_touches ..)
    | with_reducible apply Touches.step (Block.gatherStart_touches ..)
    | with_reducible apply Touches.step (Block.leaveTakeover_touches ..)
    | with_reducible refine Touches.fold ?_ (fun _ _ _ => ?_)
    | split
    | with_reducible refine Touches.snd (by assumption) ?_
    | with_reducible refine Touches.fst (by assumption) ?_
    | with_reducible refine Touches.fold1 ?_ (fun _ _ _ => ?_)
    | with_reducible refine Touches.fold2 ?_ (fun _ _ _ => ?_)
    | (clear_value *; split)
    | dsimp only

theorem Block.noteB_touches (b) (x1) (x2) : Touches [.aln] b (Block.noteB b x1 x2) := by
  unfold Block.noteB
  repeat' first
    | with_reducible assumption
    | with_reducible exact Touches.refl
    | exact rfl
    | (intro x
       refine Touches.mid (show Touches [.aln] b x from ?_) (fun h => ?_)
       all_goals first | (with_reducible have h0 : Touches [.aln] b x := h; clear h0; clear_value x) | subst x)
    | intro _
    | lift_lets
    | with_reducible refine Touches.ite ?_ ?_
    | with_reducible apply Touches.step (Block.setBasin_touches ..)
    | split
    | with_reducible refine Touches.snd (by assumption) ?_
    | with_reducible refine Touches.fst (by assumption) ?_
    | (clear_value *; split)
    | dsimp only

theorem Block.tryB1_touches (b) (x1) (x2) : Touches [.free, .vis, .act, .com, .dirty, .resp, .rep, .cells, .poison, .evr, .sys, .tim, .aln, .que, .dfe, .prt, .out, .cas, .rpl, .alm, .cmp, .cap, .red] b (Block.tryB1 b x1 x2) := by
  unfold Block.tryB1
  repeat' first
    | with_reducible assumption
    | with_reducible exact Touches.refl
    | exact rfl
    | (intro x
       refine Touches.mid (show Touches [.free, .vis, .act, .com, .dirty, .resp, .rep, .cells, .poison, .evr, .sys, .tim, .aln, .que, .dfe, .prt, .out, .cas, .rpl, .alm, .cmp, .cap, .red] b x from ?_) (fun h => ?_)
       all_goals first | (with_reducible have h0 : Touches [.free, .vis, .act, .com, .dirty, .resp, .rep, .cells, .poison, .evr, .sys, .tim, .aln, .que, .dfe, .prt, .out, .cas, .rpl, .alm, .cmp, .cap, .red] b x := h; clear h0; clear_value x) | subst x)
    | intro _
    | lift_lets
    | with_reducible refine Touches.ite ?_ ?_
    | with_reducible apply Touches.step (Block.noteB_touches ..)
    | with_reducible apply Touches.step (Block.closeB_touches ..)
    | split
    | with_reducible refine Touches.snd (by assumption) ?_
    | with_reducible refine Touches.fst (by assumption) ?_
    | (clear_value *; split)
    | dsimp only

theorem Block.tryB_touches (b) (x1) (x2) (x3) : Touches [.free, .vis, .act, .com, .dirty, .resp, .rep, .cells, .poison, .evr, .sys, .tim, .aln, .que, .dfe, .prt, .out, .cas, .rpl, .alm, .cmp, .cap, .red] b (Block.tryB b x1 x2 x3) := by
  induction x3 generalizing b x2 with
  | zero => exact Touches.refl
  | succ n ih =>
    unfold Block.tryB
    dsimp only
    split
    · exact Touches.weaken (Block.tryB1_touches ..) rfl
    · split
      · exact (Touches.refl.trans (Block.tryB1_touches ..) rfl).trans (ih ..) rfl
      · exact Touches.weaken (Block.tryB1_touches ..) rfl

theorem Block.markCtx_touches (b) (x1) (x2) : Touches [.vis, .rep, .evr, .aln] b (Block.markCtx b x1 x2) := by
  unfold Block.markCtx
  repeat' first
    | with_reducible assumption
    | with_reducible exact Touches.refl
    | exact rfl
    | (intro x
       refine Touches.mid (show Touches [.vis, .rep, .evr, .aln] b x from ?_) (fun h => ?_)
       all_goals first | (with_reducible have h0 : Touches [.vis, .rep, .evr, .aln] b x := h; clear h0; clear_value x) | subst x)
    | intro _
    | lift_lets
    | with_reducible refine Touches.ite ?_ ?_
    | with_reducible apply Touches.step (Block.setAlnCtx_touches ..)
    | with_reducible apply Touches.step (Block.eventRep_touches ..)
    | with_reducible apply Touches.step (Block.irq_touches ..)
    | split
    | with_reducible refine Touches.snd (by assumption) ?_
    | with_reducible refine Touches.fst (by assumption) ?_
    | (clear_value *; split)
    | dsimp only

theorem Block.lateHeader_touches (b) (x1) : Touches [.cells, .poison] b (Block.lateHeader b x1) := by
  unfold Block.lateHeader
  repeat' first
    | with_reducible assumption
    | with_reducible exact Touches.refl
    | exact rfl
    | (intro x
       refine Touches.mid (show Touches [.cells, .poison] b x from ?_) (fun h => ?_)
       all_goals first | (with_reducible have h0 : Touches [.cells, .poison] b x := h; clear h0; clear_value x) | subst x)
    | intro _
    | lift_lets
    | with_reducible refine Touches.ite ?_ ?_
    | with_reducible apply Touches.step (Block.storeN_touches ..)
    | split
    | with_reducible refine Touches.snd (by assumption) ?_
    | with_reducible refine Touches.fst (by assumption) ?_
    | (clear_value *; split)
    | dsimp only

theorem Block.weirsDue_touches (b) (x1) : Touches [.free, .vis, .act, .com, .dirty, .resp, .rep, .cells, .poison, .evr, .sys, .tim, .aln, .que, .dfe, .prt, .out, .cas, .rpl, .isl, .alm, .cmp, .cap, .red] b (Block.weirsDue b x1) := by
  unfold Block.weirsDue
  repeat' first
    | with_reducible assumption
    | with_reducible exact Touches.refl
    | exact rfl
    | (intro x
       refine Touches.mid (show Touches [.free, .vis, .act, .com, .dirty, .resp, .rep, .cells, .poison, .evr, .sys, .tim, .aln, .que, .dfe, .prt, .out, .cas, .rpl, .isl, .alm, .cmp, .cap, .red] b x from ?_) (fun h => ?_)
       all_goals first | (with_reducible have h0 : Touches [.free, .vis, .act, .com, .dirty, .resp, .rep, .cells, .poison, .evr, .sys, .tim, .aln, .que, .dfe, .prt, .out, .cas, .rpl, .isl, .alm, .cmp, .cap, .red] b x := h; clear h0; clear_value x) | subst x)
    | intro _
    | lift_lets
    | with_reducible refine Touches.ite ?_ ?_
    | with_reducible apply Touches.step (Block.tryA_touches ..)
    | with_reducible apply Touches.step (Block.tryB_touches ..)
    | split
    | with_reducible refine Touches.snd (by assumption) ?_
    | with_reducible refine Touches.fst (by assumption) ?_
    | (clear_value *; split)
    | dsimp only

theorem Block.markClaim_touches (b) (x1) (x2) (x3) : Touches [.free, .vis, .act, .com, .dirty, .resp, .rep, .cells, .poison, .evr, .sys, .tim, .aln, .que, .dfe, .prt, .out, .cas, .rpl, .isl, .alm, .cmp, .cap, .red] b (Block.markClaim b x1 x2 x3) := by
  unfold Block.markClaim
  repeat' first
    | with_reducible assumption
    | with_reducible exact Touches.refl
    | exact rfl
    | (intro x
       refine Touches.mid (show Touches [.free, .vis, .act, .com, .dirty, .resp, .rep, .cells, .poison, .evr, .sys, .tim, .aln, .que, .dfe, .prt, .out, .cas, .rpl, .isl, .alm, .cmp, .cap, .red] b x from ?_) (fun h => ?_)
       all_goals first | (with_reducible have h0 : Touches [.free, .vis, .act, .com, .dirty, .resp, .rep, .cells, .poison, .evr, .sys, .tim, .aln, .que, .dfe, .prt, .out, .cas, .rpl, .isl, .alm, .cmp, .cap, .red] b x := h; clear h0; clear_value x) | subst x)
    | intro _
    | lift_lets
    | with_reducible refine Touches.ite ?_ ?_
    | with_reducible apply Touches.step (Block.weirsDue_touches ..)
    | with_reducible apply Touches.step (Block.tooLate_touches ..)
    | with_reducible apply Touches.step (Block.lateHeader_touches ..)
    | with_reducible apply Touches.step (Block.markCtx_touches ..)
    | with_reducible apply Touches.step (Block.bmpWritten_touches ..)
    | with_reducible apply Touches.step (Block.setBasin_touches ..)
    | with_reducible apply Touches.step (Block.count_touches ..)
    | with_reducible apply Touches.step (Block.outLate_touches ..)
    | with_reducible apply Touches.step (Block.partialLate_touches ..)
    | with_reducible apply Touches.step (Block.tryB_touches ..)
    | with_reducible apply Touches.step (Block.tryA_touches ..)
    | with_reducible apply Touches.step (Block.noteB_touches ..)
    | ((with_reducible apply Touches.set_aln) <;> first | with_reducible assumption | with_reducible exact Touches.refl | exact rfl | with_reducible refine Touches.snd (by assumption) ?_)
    | split
    | with_reducible refine Touches.snd (by assumption) ?_
    | with_reducible refine Touches.fst (by assumption) ?_
    | (clear_value *; split)
    | dsimp only

theorem Block.recordMark_touches (b) (x1) (x2) (x3) : Touches [.free, .vis, .act, .com, .dirty, .resp, .rep, .cells, .poison, .evr, .sys, .tim, .aln, .que, .dfe, .prt, .str, .out, .cas, .rpl, .isl, .alm, .cmp, .cap, .red] b (Block.recordMark b x1 x2 x3) := by
  unfold Block.recordMark
  repeat' first
    | with_reducible assumption
    | with_reducible exact Touches.refl
    | exact rfl
    | (intro x
       refine Touches.mid (show Touches [.free, .vis, .act, .com, .dirty, .resp, .rep, .cells, .poison, .evr, .sys, .tim, .aln, .que, .dfe, .prt, .str, .out, .cas, .rpl, .isl, .alm, .cmp, .cap, .red] b x from ?_) (fun h => ?_)
       all_goals first | (with_reducible have h0 : Touches [.free, .vis, .act, .com, .dirty, .resp, .rep, .cells, .poison, .evr, .sys, .tim, .aln, .que, .dfe, .prt, .str, .out, .cas, .rpl, .isl, .alm, .cmp, .cap, .red] b x := h; clear h0; clear_value x) | subst x)
    | intro _
    | lift_lets
    | with_reducible refine Touches.ite ?_ ?_
    | with_reducible apply Touches.step (Block.offerWaiting_touches ..)
    | with_reducible apply Touches.step (Block.markClaim_touches ..)
    | split
    | with_reducible refine Touches.snd (by assumption) ?_
    | with_reducible refine Touches.fst (by assumption) ?_
    | (clear_value *; split)
    | dsimp only

theorem Block.missingHeaders_touches (b) (x1) (x2) (x3) : Touches [.cells, .poison] b (Block.missingHeaders b x1 x2 x3) := by
  unfold Block.missingHeaders
  repeat' first
    | with_reducible assumption
    | with_reducible exact Touches.refl
    | exact rfl
    | (intro x
       refine Touches.mid (show Touches [.cells, .poison] b x from ?_) (fun h => ?_)
       all_goals first | (with_reducible have h0 : Touches [.cells, .poison] b x := h; clear h0; clear_value x) | subst x)
    | intro _
    | lift_lets
    | with_reducible refine Touches.ite ?_ ?_
    | with_reducible apply Touches.step (Block.store_touches ..)
    | with_reducible refine Touches.fold ?_ (fun _ _ _ => ?_)
    | split
    | with_reducible refine Touches.snd (by assumption) ?_
    | with_reducible refine Touches.fst (by assumption) ?_
    | with_reducible refine Touches.fold1 ?_ (fun _ _ _ => ?_)
    | with_reducible refine Touches.fold2 ?_ (fun _ _ _ => ?_)
    | (clear_value *; split)
    | dsimp only

theorem Block.missingHeadersDone_touches (b) (x1) (x2) : Touches [.cells, .poison, .aln, .out] b (Block.missingHeadersDone b x1 x2) := by
  unfold Block.missingHeadersDone
  repeat' first
    | with_reducible assumption
    | with_reducible exact Touches.refl
    | exact rfl
    | (intro x
       refine Touches.mid (show Touches [.cells, .poison, .aln, .out] b x from ?_) (fun h => ?_)
       all_goals first | (with_reducible have h0 : Touches [.cells, .poison, .aln, .out] b x := h; clear h0; clear_value x) | subst x)
    | intro _
    | lift_lets
    | with_reducible refine Touches.ite ?_ ?_
    | with_reducible apply Touches.step (Block.settleBasin_touches ..)
    | with_reducible apply Touches.step (Block.setBasin_touches ..)
    | with_reducible apply Touches.step (Block.missingHeaders_touches ..)
    | split
    | with_reducible refine Touches.snd (by assumption) ?_
    | with_reducible refine Touches.fst (by assumption) ?_
    | (clear_value *; split)
    | dsimp only

theorem Block.outRelease_touches (b) (x1) (x2) : Touches [.aln, .out] b (Block.outRelease b x1 x2) := by
  unfold Block.outRelease
  repeat' first
    | with_reducible assumption
    | with_reducible exact Touches.refl
    | exact rfl
    | (intro x
       refine Touches.mid (show Touches [.aln, .out] b x from ?_) (fun h => ?_)
       all_goals first | (with_reducible have h0 : Touches [.aln, .out] b x := h; clear h0; clear_value x) | subst x)
    | intro _
    | lift_lets
    | with_reducible refine Touches.ite ?_ ?_
    | with_reducible apply Touches.step (Block.settleBasin_touches ..)
    | with_reducible apply Touches.step (Block.setBasin_touches ..)
    | split
    | with_reducible refine Touches.snd (by assumption) ?_
    | with_reducible refine Touches.fst (by assumption) ?_
    | (clear_value *; split)
    | dsimp only

theorem Block.retentionEnd_touches (b) (x1) (x2) : Touches [.cells, .poison, .aln, .out, .cmp] b (Block.retentionEnd b x1 x2) := by
  unfold Block.retentionEnd
  repeat' first
    | with_reducible assumption
    | with_reducible exact Touches.refl
    | exact rfl
    | (intro x
       refine Touches.mid (show Touches [.cells, .poison, .aln, .out, .cmp] b x from ?_) (fun h => ?_)
       all_goals first | (with_reducible have h0 : Touches [.cells, .poison, .aln, .out, .cmp] b x := h; clear h0; clear_value x) | subst x)
    | intro _
    | lift_lets
    | with_reducible refine Touches.ite ?_ ?_
    | with_reducible apply Touches.step (Block.store_touches ..)
    | with_reducible apply Touches.step (Block.cmpQueue_touches ..)
    | with_reducible apply Touches.step (Block.settleBasin_touches ..)
    | with_reducible apply Touches.step (Block.setBasin_touches ..)
    | split
    | with_reducible refine Touches.snd (by assumption) ?_
    | with_reducible refine Touches.fst (by assumption) ?_
    | (clear_value *; split)
    | dsimp only

theorem Block.warmStart_touches (b) (x1) (x2) : Touches [.free, .vis, .act, .com, .dirty, .resp, .rep, .cells, .poison, .evr, .aln, .que, .dfe, .prt, .out, .cas, .rpl, .isl, .alm, .cmp, .sdm, .nrg, .cap, .red] b (Block.warmStart b x1 x2) := by
  unfold Block.warmStart
  repeat' first
    | with_reducible assumption
    | with_reducible exact Touches.refl
    | exact rfl
    | (intro x
       refine Touches.mid (show Touches [.free, .vis, .act, .com, .dirty, .resp, .rep, .cells, .poison, .evr, .aln, .que, .dfe, .prt, .out, .cas, .rpl, .isl, .alm, .cmp, .sdm, .nrg, .cap, .red] b x from ?_) (fun h => ?_)
       all_goals first | (with_reducible have h0 : Touches [.free, .vis, .act, .com, .dirty, .resp, .rep, .cells, .poison, .evr, .aln, .que, .dfe, .prt, .out, .cas, .rpl, .isl, .alm, .cmp, .sdm, .nrg, .cap, .red] b x := h; clear h0; clear_value x) | subst x)
    | intro _
    | lift_lets
    | with_reducible refine Touches.ite ?_ ?_
    | with_reducible apply Touches.step (Block.setRole_touches ..)
    | with_reducible apply Touches.step (Block.freeRing_touches ..)
    | with_reducible apply Touches.step (Block.endAnalysis_touches ..)
    | with_reducible apply Touches.step (Block.islRestart_touches ..)
    | with_reducible apply Touches.step (Block.present_touches ..)
    | with_reducible apply Touches.step (Block.setRing_touches ..)
    | with_reducible apply Touches.step (Block.ringStart_touches ..)
    | with_reducible apply Touches.step (Block.openBasin_touches ..)
    | split
    | with_reducible refine Touches.snd (by assumption) ?_
    | with_reducible refine Touches.fst (by assumption) ?_
    | (clear_value *; split)
    | dsimp only

theorem Block.tick_touches (b) (x1) : Touches [.free, .vis, .act, .com, .dirty, .resp, .rep, .cells, .poison, .evr, .aln, .que, .dfe, .prt, .str, .out, .cas, .rpl, .isl, .alm, .cmp, .sdm, .nrg, .cap, .red] b (Block.tick b x1) := by
  unfold Block.tick
  repeat' first
    | with_reducible assumption
    | with_reducible exact Touches.refl
    | exact rfl
    | (intro x
       refine Touches.mid (show Touches [.free, .vis, .act, .com, .dirty, .resp, .rep, .cells, .poison, .evr, .aln, .que, .dfe, .prt, .str, .out, .cas, .rpl, .isl, .alm, .cmp, .sdm, .nrg, .cap, .red] b x from ?_) (fun h => ?_)
       all_goals first | (with_reducible have h0 : Touches [.free, .vis, .act, .com, .dirty, .resp, .rep, .cells, .poison, .evr, .aln, .que, .dfe, .prt, .str, .out, .cas, .rpl, .isl, .alm, .cmp, .sdm, .nrg, .cap, .red] b x := h; clear h0; clear_value x) | subst x)
    | intro _
    | lift_lets
    | with_reducible refine Touches.ite ?_ ?_
    | with_reducible apply Touches.step (Block.offerWaiting_touches ..)
    | with_reducible apply Touches.step (Block.openBasin_touches ..)
    | with_reducible apply Touches.step (Block.warmStart_touches ..)
    | split
    | with_reducible refine Touches.snd (by assumption) ?_
    | with_reducible refine Touches.fst (by assumption) ?_
    | (clear_value *; split)
    | dsimp only

theorem Block.ctxRelearn_touches (b) (x1) : Touches [.aln] b (Block.ctxRelearn b x1) := by
  unfold Block.ctxRelearn
  repeat' first
    | with_reducible assumption
    | with_reducible exact Touches.refl
    | exact rfl
    | (intro x
       refine Touches.mid (show Touches [.aln] b x from ?_) (fun h => ?_)
       all_goals first | (with_reducible have h0 : Touches [.aln] b x := h; clear h0; clear_value x) | subst x)
    | intro _
    | lift_lets
    | with_reducible refine Touches.ite ?_ ?_
    | with_reducible apply Touches.step (Block.setAlnCtx_touches ..)
    | split
    | with_reducible refine Touches.snd (by assumption) ?_
    | with_reducible refine Touches.fst (by assumption) ?_
    | (clear_value *; split)
    | dsimp only

theorem Block.coldState_touches (b) : Touches [.vis, .evr, .aln, .str, .out, .rpl, .isl, .alm, .rad] b (Block.coldState b) := by
  unfold Block.coldState
  repeat' first
    | with_reducible assumption
    | with_reducible exact Touches.refl
    | exact rfl
    | (intro x
       refine Touches.mid (show Touches [.vis, .evr, .aln, .str, .out, .rpl, .isl, .alm, .rad] b x from ?_) (fun h => ?_)
       all_goals first | (with_reducible have h0 : Touches [.vis, .evr, .aln, .str, .out, .rpl, .isl, .alm, .rad] b x := h; clear h0; clear_value x) | subst x)
    | intro _
    | lift_lets
    | with_reducible refine Touches.ite ?_ ?_
    | with_reducible apply Touches.step (Block.redEvent_touches ..)
    | with_reducible apply Touches.step (Block.setRing_touches ..)
    | ((with_reducible apply Touches.set_aln_str_out_rpl_isl_alm_rad) <;> first | with_reducible assumption | with_reducible exact Touches.refl | exact rfl | with_reducible refine Touches.snd (by assumption) ?_)
    | split
    | with_reducible refine Touches.snd (by assumption) ?_
    | with_reducible refine Touches.fst (by assumption) ?_
    | (clear_value *; split)
    | dsimp only

theorem Block.openFlagged_touches (b) (x1) : Touches [.free, .vis, .act, .com, .dirty, .resp, .rep, .cells, .poison, .evr, .sys, .tim, .aln, .que, .dfe, .prt, .out, .cas, .rpl, .isl, .alm, .cmp, .sdm, .nrg, .cap, .red] b (Block.openFlagged b x1) := by
  unfold Block.openFlagged
  repeat' first
    | with_reducible assumption
    | with_reducible exact Touches.refl
    | exact rfl
    | (intro x
       refine Touches.mid (show Touches [.free, .vis, .act, .com, .dirty, .resp, .rep, .cells, .poison, .evr, .sys, .tim, .aln, .que, .dfe, .prt, .out, .cas, .rpl, .isl, .alm, .cmp, .sdm, .nrg, .cap, .red] b x from ?_) (fun h => ?_)
       all_goals first | (with_reducible have h0 : Touches [.free, .vis, .act, .com, .dirty, .resp, .rep, .cells, .poison, .evr, .sys, .tim, .aln, .que, .dfe, .prt, .out, .cas, .rpl, .isl, .alm, .cmp, .sdm, .nrg, .cap, .red] b x := h; clear h0; clear_value x) | subst x)
    | intro _
    | lift_lets
    | with_reducible refine Touches.ite ?_ ?_
    | with_reducible apply Touches.step (Block.openBasin_touches ..)
    | with_reducible apply Touches.step (Block.draw_touches ..)
    | with_reducible apply Touches.step (Block.closeA_touches ..)
    | split
    | with_reducible refine Touches.snd (by assumption) ?_
    | with_reducible refine Touches.fst (by assumption) ?_
    | (clear_value *; split)
    | dsimp only

theorem Block.ringResume_touches (b) (x1) (x2) : Touches [.free, .vis, .act, .com, .dirty, .resp, .rep, .cells, .poison, .evr, .sys, .tim, .aln, .que, .dfe, .prt, .out, .cas, .rpl, .isl, .alm, .cmp, .sdm, .nrg, .cap, .red] b (Block.ringResume b x1 x2) := by
  unfold Block.ringResume
  repeat' first
    | with_reducible assumption
    | with_reducible exact Touches.refl
    | exact rfl
    | (intro x
       refine Touches.mid (show Touches [.free, .vis, .act, .com, .dirty, .resp, .rep, .cells, .poison, .evr, .sys, .tim, .aln, .que, .dfe, .prt, .out, .cas, .rpl, .isl, .alm, .cmp, .sdm, .nrg, .cap, .red] b x from ?_) (fun h => ?_)
       all_goals first | (with_reducible have h0 : Touches [.free, .vis, .act, .com, .dirty, .resp, .rep, .cells, .poison, .evr, .sys, .tim, .aln, .que, .dfe, .prt, .out, .cas, .rpl, .isl, .alm, .cmp, .sdm, .nrg, .cap, .red] b x := h; clear h0; clear_value x) | subst x)
    | intro _
    | lift_lets
    | with_reducible refine Touches.ite ?_ ?_
    | with_reducible apply Touches.step (Block.present_touches ..)
    | with_reducible apply Touches.step (Block.freeRing_touches ..)
    | with_reducible apply Touches.step (Block.endAnalysis_touches ..)
    | with_reducible apply Touches.step (Block.setRing_touches ..)
    | with_reducible apply Touches.step (Block.openFlagged_touches ..)
    | with_reducible apply Touches.step (Block.openBasin_touches ..)
    | ((with_reducible apply Touches.set_red) <;> first | with_reducible assumption | with_reducible exact Touches.refl | exact rfl | with_reducible refine Touches.snd (by assumption) ?_)
    | with_reducible refine Touches.fold ?_ (fun _ _ _ => ?_)
    | split
    | with_reducible refine Touches.snd (by assumption) ?_
    | with_reducible refine Touches.fst (by assumption) ?_
    | with_reducible refine Touches.fold1 ?_ (fun _ _ _ => ?_)
    | with_reducible refine Touches.fold2 ?_ (fun _ _ _ => ?_)
    | (clear_value *; split)
    | dsimp only

theorem Block.gapCarry_touches (b) (x1) (x2) : Touches [.vis, .rep, .poison, .evr, .dfe] b (Block.gapCarry b x1 x2) := by
  unfold Block.gapCarry
  repeat' first
    | with_reducible assumption
    | with_reducible exact Touches.refl
    | exact rfl
    | (intro x
       refine Touches.mid (show Touches [.vis, .rep, .poison, .evr, .dfe] b x from ?_) (fun h => ?_)
       all_goals first | (with_reducible have h0 : Touches [.vis, .rep, .poison, .evr, .dfe] b x := h; clear h0; clear_value x) | subst x)
    | intro _
    | lift_lets
    | with_reducible refine Touches.ite ?_ ?_
    | with_reducible apply Touches.step (Block.offerToken_touches ..)
    | with_reducible refine Touches.fold ?_ (fun _ _ _ => ?_)
    | split
    | with_reducible refine Touches.snd (by assumption) ?_
    | with_reducible refine Touches.fst (by assumption) ?_
    | with_reducible refine Touches.fold1 ?_ (fun _ _ _ => ?_)
    | with_reducible refine Touches.fold2 ?_ (fun _ _ _ => ?_)
    | (clear_value *; split)
    | dsimp only

theorem Block.takeService_touches (b) (x1) (x2) : Touches [.free, .vis, .rep, .evr, .prt, .out, .alm, .red] b (Block.takeService b x1 x2) := by
  unfold Block.takeService
  repeat' first
    | with_reducible assumption
    | with_reducible exact Touches.refl
    | exact rfl
    | (intro x
       refine Touches.mid (show Touches [.free, .vis, .rep, .evr, .prt, .out, .alm, .red] b x from ?_) (fun h => ?_)
       all_goals first | (with_reducible have h0 : Touches [.free, .vis, .rep, .evr, .prt, .out, .alm, .red] b x := h; clear h0; clear_value x) | subst x)
    | intro _
    | lift_lets
    | with_reducible refine Touches.ite ?_ ?_
    | with_reducible apply Touches.step (Block.announceAddresses_touches ..)
    | with_reducible apply Touches.step (Block.vmac_touches ..)
    | with_reducible apply Touches.step (Block.almMode_touches ..)
    | with_reducible apply Touches.step (Block.almPins_touches ..)
    | with_reducible apply Touches.step (Block.draw_touches ..)
    | with_reducible apply Touches.step (Block.eventAt_touches ..)
    | ((with_reducible apply Touches.set_out_alm) <;> first | with_reducible assumption | with_reducible exact Touches.refl | exact rfl | with_reducible refine Touches.snd (by assumption) ?_)
    | ((with_reducible apply Touches.set_red) <;> first | with_reducible assumption | with_reducible exact Touches.refl | exact rfl | with_reducible refine Touches.snd (by assumption) ?_)
    | split
    | with_reducible refine Touches.snd (by assumption) ?_
    | with_reducible refine Touches.fst (by assumption) ?_
    | (clear_value *; split)
    | dsimp only

theorem Block.restoreWarm_touches (b) (x1) : Touches [.free, .vis, .act, .com, .dirty, .resp, .rep, .cells, .poison, .evr, .sys, .tim, .aln, .que, .dfe, .prt, .out, .cas, .isl, .alm, .cmp, .cap, .red] b (Block.restoreWarm b x1) := by
  unfold Block.restoreWarm
  repeat' first
    | with_reducible assumption
    | with_reducible exact Touches.refl
    | exact rfl
    | (intro x
       refine Touches.mid (show Touches [.free, .vis, .act, .com, .dirty, .resp, .rep, .cells, .poison, .evr, .sys, .tim, .aln, .que, .dfe, .prt, .out, .cas, .isl, .alm, .cmp, .cap, .red] b x from ?_) (fun h => ?_)
       all_goals first | (with_reducible have h0 : Touches [.free, .vis, .act, .com, .dirty, .resp, .rep, .cells, .poison, .evr, .sys, .tim, .aln, .que, .dfe, .prt, .out, .cas, .isl, .alm, .cmp, .cap, .red] b x := h; clear h0; clear_value x) | subst x)
    | intro _
    | lift_lets
    | with_reducible refine Touches.ite ?_ ?_
    | with_reducible apply Touches.step (Block.newGen_touches ..)
    | with_reducible apply Touches.step (Block.takeService_touches ..)
    | with_reducible apply Touches.step (Block.gapCarry_touches ..)
    | with_reducible apply Touches.step (Block.tryA_touches ..)
    | ((with_reducible apply Touches.set_red) <;> first | with_reducible assumption | with_reducible exact Touches.refl | exact rfl | with_reducible refine Touches.snd (by assumption) ?_)
    | split
    | with_reducible refine Touches.snd (by assumption) ?_
    | with_reducible refine Touches.fst (by assumption) ?_
    | (clear_value *; split)
    | dsimp only

theorem Block.takeoverEnd_touches (b) (x1) : Touches [.free, .vis, .act, .com, .dirty, .resp, .rep, .cells, .poison, .evr, .sys, .tim, .aln, .que, .dfe, .prt, .out, .alm, .cmp, .cap, .red] b (Block.takeoverEnd b x1) := by
  unfold Block.takeoverEnd
  repeat' first
    | with_reducible assumption
    | with_reducible exact Touches.refl
    | exact rfl
    | (intro x
       refine Touches.mid (show Touches [.free, .vis, .act, .com, .dirty, .resp, .rep, .cells, .poison, .evr, .sys, .tim, .aln, .que, .dfe, .prt, .out, .alm, .cmp, .cap, .red] b x from ?_) (fun h => ?_)
       all_goals first | (with_reducible have h0 : Touches [.free, .vis, .act, .com, .dirty, .resp, .rep, .cells, .poison, .evr, .sys, .tim, .aln, .que, .dfe, .prt, .out, .alm, .cmp, .cap, .red] b x := h; clear h0; clear_value x) | subst x)
    | intro _
    | lift_lets
    | with_reducible refine Touches.ite ?_ ?_
    | with_reducible apply Touches.step (Block.leaveTakeover_touches ..)
    | split
    | with_reducible refine Touches.snd (by assumption) ?_
    | with_reducible refine Touches.fst (by assumption) ?_
    | (clear_value *; split)
    | dsimp only

theorem Block.restoreCold_touches (b) (x1) : Touches [.free, .vis, .act, .com, .dirty, .resp, .rep, .cells, .poison, .evr, .sys, .tim, .aln, .que, .dfe, .prt, .str, .out, .cas, .rpl, .isl, .alm, .cmp, .sdm, .nrg, .cap, .rad, .red] b (Block.restoreCold b x1) := by
  unfold Block.restoreCold
  repeat' first
    | with_reducible assumption
    | with_reducible exact Touches.refl
    | exact rfl
    | (intro x
       refine Touches.mid (show Touches [.free, .vis, .act, .com, .dirty, .resp, .rep, .cells, .poison, .evr, .sys, .tim, .aln, .que, .dfe, .prt, .str, .out, .cas, .rpl, .isl, .alm, .cmp, .sdm, .nrg, .cap, .rad, .red] b x from ?_) (fun h => ?_)
       all_goals first | (with_reducible have h0 : Touches [.free, .vis, .act, .com, .dirty, .resp, .rep, .cells, .poison, .evr, .sys, .tim, .aln, .que, .dfe, .prt, .str, .out, .cas, .rpl, .isl, .alm, .cmp, .sdm, .nrg, .cap, .rad, .red] b x := h; clear h0; clear_value x) | subst x)
    | intro _
    | lift_lets
    | with_reducible refine Touches.ite ?_ ?_
    | with_reducible apply Touches.step (Block.newGen_touches ..)
    | with_reducible apply Touches.step (Block.coldState_touches ..)
    | with_reducible apply Touches.step (Block.ringResume_touches ..)
    | with_reducible apply Touches.step (Block.islRestart_touches ..)
    | with_reducible apply Touches.step (Block.gapCarry_touches ..)
    | with_reducible apply Touches.step (Block.takeoverEnd_touches ..)
    | with_reducible apply Touches.step (Block.takeService_touches ..)
    | ((with_reducible apply Touches.set_red) <;> first | with_reducible assumption | with_reducible exact Touches.refl | exact rfl | with_reducible refine Touches.snd (by assumption) ?_)
    | split
    | with_reducible refine Touches.snd (by assumption) ?_
    | with_reducible refine Touches.fst (by assumption) ?_
    | (clear_value *; split)
    | dsimp only

theorem Block.restoreDone_touches (b) : Touches [.free, .vis, .act, .com, .dirty, .resp, .rep, .cells, .poison, .evr, .sys, .tim, .aln, .que, .dfe, .prt, .str, .out, .cas, .rpl, .isl, .alm, .cmp, .sdm, .nrg, .cap, .rad, .red] b (Block.restoreDone b) := by
  unfold Block.restoreDone
  repeat' first
    | with_reducible assumption
    | with_reducible exact Touches.refl
    | exact rfl
    | (intro x
       refine Touches.mid (show Touches [.free, .vis, .act, .com, .dirty, .resp, .rep, .cells, .poison, .evr, .sys, .tim, .aln, .que, .dfe, .prt, .str, .out, .cas, .rpl, .isl, .alm, .cmp, .sdm, .nrg, .cap, .rad, .red] b x from ?_) (fun h => ?_)
       all_goals first | (with_reducible have h0 : Touches [.free, .vis, .act, .com, .dirty, .resp, .rep, .cells, .poison, .evr, .sys, .tim, .aln, .que, .dfe, .prt, .str, .out, .cas, .rpl, .isl, .alm, .cmp, .sdm, .nrg, .cap, .rad, .red] b x := h; clear h0; clear_value x) | subst x)
    | intro _
    | lift_lets
    | with_reducible refine Touches.ite ?_ ?_
    | with_reducible apply Touches.step (Block.restoreWarm_touches ..)
    | with_reducible apply Touches.step (Block.restoreCold_touches ..)
    | split
    | with_reducible refine Touches.snd (by assumption) ?_
    | with_reducible refine Touches.fst (by assumption) ?_
    | (clear_value *; split)
    | dsimp only

end Sys2Proof.Machine
end

