-- ==== Sys2Proof/Laws/TouchRedOps.lean ====
section
/-! SUPPORT. What the operations of Machine/RedOps.lean touch. -/

namespace Sys2Proof.Machine

set_option linter.all false

theorem Block.holdTrack_touches (b) : Touches [.red] b (Block.holdTrack b) := by
  unfold Block.holdTrack
  repeat' first
    | with_reducible assumption
    | with_reducible exact Touches.refl
    | exact rfl
    | (intro x
       refine Touches.mid (show Touches [.red] b x from ?_) (fun h => ?_)
       all_goals first | (with_reducible have h0 : Touches [.red] b x := h; clear h0; clear_value x) | subst x)
    | intro _
    | lift_lets
    | with_reducible refine Touches.ite ?_ ?_
    | ((with_reducible apply Touches.set_red) <;> first | with_reducible assumption | with_reducible exact Touches.refl | exact rfl | with_reducible refine Touches.snd (by assumption) ?_)
    | split
    | with_reducible refine Touches.snd (by assumption) ?_
    | with_reducible refine Touches.fst (by assumption) ?_
    | (clear_value *; split)
    | dsimp only

theorem Block.handoverStart_touches (b) : Touches [.vis, .prt, .red] b (Block.handoverStart b) := by
  unfold Block.handoverStart
  repeat' first
    | with_reducible assumption
    | with_reducible exact Touches.refl
    | exact rfl
    | (intro x
       refine Touches.mid (show Touches [.vis, .prt, .red] b x from ?_) (fun h => ?_)
       all_goals first | (with_reducible have h0 : Touches [.vis, .prt, .red] b x := h; clear h0; clear_value x) | subst x)
    | intro _
    | lift_lets
    | with_reducible refine Touches.ite ?_ ?_
    | with_reducible apply Touches.step (Block.controlHandover_touches ..)
    | ((with_reducible apply Touches.set_red) <;> first | with_reducible assumption | with_reducible exact Touches.refl | exact rfl | with_reducible refine Touches.snd (by assumption) ?_)
    | split
    | with_reducible refine Touches.snd (by assumption) ?_
    | with_reducible refine Touches.fst (by assumption) ?_
    | (clear_value *; split)
    | dsimp only

theorem Block.handoverCmd_touches (b) : Touches [.vis, .prt, .red] b (Block.handoverCmd b) := by
  unfold Block.handoverCmd
  repeat' first
    | with_reducible assumption
    | with_reducible exact Touches.refl
    | exact rfl
    | (intro x
       refine Touches.mid (show Touches [.vis, .prt, .red] b x from ?_) (fun h => ?_)
       all_goals first | (with_reducible have h0 : Touches [.vis, .prt, .red] b x := h; clear h0; clear_value x) | subst x)
    | intro _
    | lift_lets
    | with_reducible refine Touches.ite ?_ ?_
    | with_reducible apply Touches.step (Block.handoverStart_touches ..)
    | with_reducible apply Touches.step (Block.count_touches ..)
    | split
    | with_reducible refine Touches.snd (by assumption) ?_
    | with_reducible refine Touches.fst (by assumption) ?_
    | (clear_value *; split)
    | dsimp only

theorem Block.failbackEnd_touches (b) : Touches [.vis, .prt, .red] b (Block.failbackEnd b) := by
  unfold Block.failbackEnd
  repeat' first
    | with_reducible assumption
    | with_reducible exact Touches.refl
    | exact rfl
    | (intro x
       refine Touches.mid (show Touches [.vis, .prt, .red] b x from ?_) (fun h => ?_)
       all_goals first | (with_reducible have h0 : Touches [.vis, .prt, .red] b x := h; clear h0; clear_value x) | subst x)
    | intro _
    | lift_lets
    | with_reducible refine Touches.ite ?_ ?_
    | with_reducible apply Touches.step (Block.handoverStart_touches ..)
    | split
    | with_reducible refine Touches.snd (by assumption) ?_
    | with_reducible refine Touches.fst (by assumption) ?_
    | (clear_value *; split)
    | dsimp only

theorem Block.soloEnter_touches (b) : Touches [.vis, .evr, .red] b (Block.soloEnter b) := by
  unfold Block.soloEnter
  repeat' first
    | with_reducible assumption
    | with_reducible exact Touches.refl
    | exact rfl
    | (intro x
       refine Touches.mid (show Touches [.vis, .evr, .red] b x from ?_) (fun h => ?_)
       all_goals first | (with_reducible have h0 : Touches [.vis, .evr, .red] b x := h; clear h0; clear_value x) | subst x)
    | intro _
    | lift_lets
    | with_reducible refine Touches.ite ?_ ?_
    | with_reducible apply Touches.step (Block.redEvent_touches ..)
    | with_reducible apply Touches.step (Block.irq_touches ..)
    | ((with_reducible apply Touches.set_red) <;> first | with_reducible assumption | with_reducible exact Touches.refl | exact rfl | with_reducible refine Touches.snd (by assumption) ?_)
    | split
    | with_reducible refine Touches.snd (by assumption) ?_
    | with_reducible refine Touches.fst (by assumption) ?_
    | (clear_value *; split)
    | dsimp only

theorem Block.roleActive_touches (b) (x1) : Touches [.free, .vis, .act, .com, .dirty, .resp, .rep, .cells, .poison, .evr, .sys, .tim, .aln, .que, .dfe, .prt, .out, .cas, .rpl, .isl, .alm, .cmp, .sdm, .nrg, .cap, .red] b (Block.roleActive b x1) := by
  unfold Block.roleActive
  repeat' first
    | with_reducible assumption
    | with_reducible exact Touches.refl
    | exact rfl
    | (intro x
       refine Touches.mid (show Touches [.free, .vis, .act, .com, .dirty, .resp, .rep, .cells, .poison, .evr, .sys, .tim, .aln, .que, .dfe, .prt, .out, .cas, .rpl, .isl, .alm, .cmp, .sdm, .nrg, .cap, .red] b x from ?_) (fun h => ?_)
       all_goals first | (with_reducible have h0 : Touches [.free, .vis, .act, .com, .dirty, .resp, .rep, .cells, .poison, .evr, .sys, .tim, .aln, .que, .dfe, .prt, .out, .cas, .rpl, .isl, .alm, .cmp, .sdm, .nrg, .cap, .red] b x := h; clear h0; clear_value x) | subst x)
    | intro _
    | lift_lets
    | with_reducible refine Touches.ite ?_ ?_
    | with_reducible apply Touches.step (Block.epochUp_touches ..)
    | with_reducible apply Touches.step (Block.announceAddresses_touches ..)
    | with_reducible apply Touches.step (Block.vmac_touches ..)
    | with_reducible apply Touches.step (Block.setRole_touches ..)
    | with_reducible apply Touches.step (Block.ringsStart_touches ..)
    | with_reducible apply Touches.step (Block.setMode_touches ..)
    | with_reducible apply Touches.step (Block.redYield_touches ..)
    | with_reducible apply Touches.step (Block.soloEnter_touches ..)
    | ((with_reducible apply Touches.set_out_alm_red) <;> first | with_reducible assumption | with_reducible exact Touches.refl | exact rfl | with_reducible refine Touches.snd (by assumption) ?_)
    | split
    | with_reducible refine Touches.snd (by assumption) ?_
    | with_reducible refine Touches.fst (by assumption) ?_
    | (clear_value *; split)
    | dsimp only

theorem Block.roleResolve_touches (b) : Touches [.free, .vis, .act, .com, .dirty, .resp, .rep, .cells, .poison, .evr, .sys, .tim, .aln, .que, .dfe, .prt, .out, .cas, .rpl, .isl, .alm, .cmp, .sdm, .nrg, .cap, .red] b (Block.roleResolve b) := by
  unfold Block.roleResolve
  repeat' first
    | with_reducible assumption
    | with_reducible exact Touches.refl
    | exact rfl
    | (intro x
       refine Touches.mid (show Touches [.free, .vis, .act, .com, .dirty, .resp, .rep, .cells, .poison, .evr, .sys, .tim, .aln, .que, .dfe, .prt, .out, .cas, .rpl, .isl, .alm, .cmp, .sdm, .nrg, .cap, .red] b x from ?_) (fun h => ?_)
       all_goals first | (with_reducible have h0 : Touches [.free, .vis, .act, .com, .dirty, .resp, .rep, .cells, .poison, .evr, .sys, .tim, .aln, .que, .dfe, .prt, .out, .cas, .rpl, .isl, .alm, .cmp, .sdm, .nrg, .cap, .red] b x := h; clear h0; clear_value x) | subst x)
    | intro _
    | lift_lets
    | with_reducible refine Touches.ite ?_ ?_
    | with_reducible apply Touches.step (Block.roleActive_touches ..)
    | with_reducible apply Touches.step (Block.setRole_touches ..)
    | split
    | with_reducible refine Touches.snd (by assumption) ?_
    | with_reducible refine Touches.fst (by assumption) ?_
    | (clear_value *; split)
    | dsimp only

theorem Block.listenStart_touches (b) : Touches [.vis, .resp, .rep, .poison, .evr, .que, .prt, .red] b (Block.listenStart b) := by
  unfold Block.listenStart
  repeat' first
    | with_reducible assumption
    | with_reducible exact Touches.refl
    | exact rfl
    | (intro x
       refine Touches.mid (show Touches [.vis, .resp, .rep, .poison, .evr, .que, .prt, .red] b x from ?_) (fun h => ?_)
       all_goals first | (with_reducible have h0 : Touches [.vis, .resp, .rep, .poison, .evr, .que, .prt, .red] b x := h; clear h0; clear_value x) | subst x)
    | intro _
    | lift_lets
    | with_reducible refine Touches.ite ?_ ?_
    | with_reducible apply Touches.step (Block.redSendBoth_touches ..)
    | with_reducible apply Touches.step (Block.setRole_touches ..)
    | ((with_reducible apply Touches.set_red) <;> first | with_reducible assumption | with_reducible exact Touches.refl | exact rfl | with_reducible refine Touches.snd (by assumption) ?_)
    | split
    | with_reducible refine Touches.snd (by assumption) ?_
    | with_reducible refine Touches.fst (by assumption) ?_
    | (clear_value *; split)
    | dsimp only

theorem Block.listenOver_touches (b) : Touches [.free, .vis, .act, .com, .dirty, .resp, .rep, .cells, .poison, .evr, .sys, .tim, .aln, .que, .dfe, .prt, .out, .cas, .rpl, .isl, .alm, .cmp, .sdm, .nrg, .cap, .red] b (Block.listenOver b) := by
  unfold Block.listenOver
  repeat' first
    | with_reducible assumption
    | with_reducible exact Touches.refl
    | exact rfl
    | (intro x
       refine Touches.mid (show Touches [.free, .vis, .act, .com, .dirty, .resp, .rep, .cells, .poison, .evr, .sys, .tim, .aln, .que, .dfe, .prt, .out, .cas, .rpl, .isl, .alm, .cmp, .sdm, .nrg, .cap, .red] b x from ?_) (fun h => ?_)
       all_goals first | (with_reducible have h0 : Touches [.free, .vis, .act, .com, .dirty, .resp, .rep, .cells, .poison, .evr, .sys, .tim, .aln, .que, .dfe, .prt, .out, .cas, .rpl, .isl, .alm, .cmp, .sdm, .nrg, .cap, .red] b x := h; clear h0; clear_value x) | subst x)
    | intro _
    | lift_lets
    | with_reducible refine Touches.ite ?_ ?_
    | with_reducible apply Touches.step (Block.setRole_touches ..)
    | with_reducible apply Touches.step (Block.roleResolve_touches ..)
    | with_reducible apply Touches.step (Block.roleActive_touches ..)
    | ((with_reducible apply Touches.set_red) <;> first | with_reducible assumption | with_reducible exact Touches.refl | exact rfl | with_reducible refine Touches.snd (by assumption) ?_)
    | split
    | with_reducible refine Touches.snd (by assumption) ?_
    | with_reducible refine Touches.fst (by assumption) ?_
    | (clear_value *; split)
    | dsimp only

theorem Block.redHear_touches (b) (x1) (x2) (x3) : Touches [.vis, .rep, .cells, .poison, .evr, .prt, .red] b (Block.redHear b x1 x2 x3).2 := by
  unfold Block.redHear
  repeat' first
    | with_reducible assumption
    | with_reducible exact Touches.refl
    | exact rfl
    | (intro x
       refine Touches.mid (show Touches [.vis, .rep, .cells, .poison, .evr, .prt, .red] b x from ?_) (fun h => ?_)
       all_goals first | (with_reducible have h0 : Touches [.vis, .rep, .cells, .poison, .evr, .prt, .red] b x := h; clear h0; clear_value x) | subst x)
    | intro _
    | lift_lets
    | with_reducible refine Touches.ite ?_ ?_
    | with_reducible apply Touches.step (Block.count_touches ..)
    | with_reducible apply Touches.step (Block.eventRep_touches ..)
    | with_reducible apply Touches.step (Block.irq_touches ..)
    | with_reducible apply Touches.step (Block.redSend_touches ..)
    | with_reducible apply Touches.step (Block.setRedEpoch_touches ..)
    | with_reducible apply Touches.step (Block.setRedPath_touches ..)
    | ((with_reducible apply Touches.set_red) <;> first | with_reducible assumption | with_reducible exact Touches.refl | exact rfl | with_reducible refine Touches.snd (by assumption) ?_)
    | split
    | with_reducible refine Touches.snd (by assumption) ?_
    | with_reducible refine Touches.fst (by assumption) ?_
    | (clear_value *; split)
    | dsimp only

theorem Block.goodExchange_touches (b) (x1) (x2) : Touches [.vis, .evr, .red] b (Block.goodExchange b x1 x2) := by
  unfold Block.goodExchange
  repeat' first
    | with_reducible assumption
    | with_reducible exact Touches.refl
    | exact rfl
    | (intro x
       refine Touches.mid (show Touches [.vis, .evr, .red] b x from ?_) (fun h => ?_)
       all_goals first | (with_reducible have h0 : Touches [.vis, .evr, .red] b x := h; clear h0; clear_value x) | subst x)
    | intro _
    | lift_lets
    | with_reducible refine Touches.ite ?_ ?_
    | with_reducible apply Touches.step (Block.setRedPath_touches ..)
    | with_reducible apply Touches.step (Block.redEvent_touches ..)
    | with_reducible apply Touches.step (Block.irq_touches ..)
    | split
    | with_reducible refine Touches.snd (by assumption) ?_
    | with_reducible refine Touches.fst (by assumption) ?_
    | (clear_value *; split)
    | dsimp only

theorem Block.roleConflict_touches (b) (x1) : Touches [.free, .vis, .act, .com, .dirty, .resp, .rep, .cells, .poison, .evr, .sys, .tim, .aln, .que, .dfe, .prt, .out, .alm, .cmp, .cap, .red] b (Block.roleConflict b x1) := by
  unfold Block.roleConflict
  repeat' first
    | with_reducible assumption
    | with_reducible exact Touches.refl
    | exact rfl
    | (intro x
       refine Touches.mid (show Touches [.free, .vis, .act, .com, .dirty, .resp, .rep, .cells, .poison, .evr, .sys, .tim, .aln, .que, .dfe, .prt, .out, .alm, .cmp, .cap, .red] b x from ?_) (fun h => ?_)
       all_goals first | (with_reducible have h0 : Touches [.free, .vis, .act, .com, .dirty, .resp, .rep, .cells, .poison, .evr, .sys, .tim, .aln, .que, .dfe, .prt, .out, .alm, .cmp, .cap, .red] b x := h; clear h0; clear_value x) | subst x)
    | intro _
    | lift_lets
    | with_reducible refine Touches.ite ?_ ?_
    | with_reducible apply Touches.step (Block.redEvent_touches ..)
    | with_reducible apply Touches.step (Block.irq_touches ..)
    | with_reducible apply Touches.step (Block.setRedEpoch_touches ..)
    | with_reducible apply Touches.step (Block.fence_touches ..)
    | split
    | with_reducible refine Touches.snd (by assumption) ?_
    | with_reducible refine Touches.fst (by assumption) ?_
    | (clear_value *; split)
    | dsimp only

theorem Block.renewRx_touches (b) (x1) (x2) (x3) : Touches [.free, .vis, .act, .com, .dirty, .resp, .rep, .cells, .poison, .evr, .sys, .tim, .aln, .que, .dfe, .prt, .out, .alm, .cmp, .cap, .red] b (Block.renewRx b x1 x2 x3) := by
  unfold Block.renewRx
  have h1 : Touches [.free, .vis, .act, .com, .dirty, .resp, .rep, .cells, .poison, .evr, .sys, .tim, .aln, .que, .dfe, .prt, .out, .alm, .cmp, .cap, .red] b (b.redHear x1 x2 x3).2 :=
    (Block.redHear_touches ..).weaken rfl
  generalize b.redHear x1 x2 x3 = q at h1 ⊢
  refine Touches.ite h1 (Touches.ite (Touches.ite ?_ (Touches.ite h1 ?_)) ?_)
  · exact h1.trans (Block.roleConflict_touches ..) rfl
  · exact h1.trans (Block.fence_touches ..) rfl
  · dsimp only
    have h2 : ∀ p (n : Bool), Touches [.free, .vis, .act, .com, .dirty, .resp, .rep, .cells, .poison, .evr, .sys, .tim, .aln, .que, .dfe, .prt, .out, .alm, .cmp, .cap, .red] b ((q.2.setRedPath x1 p).goodExchange x1 n) :=
      fun _ _ => (h1.trans (Block.setRedPath_touches ..) rfl).trans (Block.goodExchange_touches ..) rfl
    refine Touches.ite (Touches.set_red _ (h2 _ _) rfl) (Touches.trans (Touches.ite (Touches.trans ?_ (Block.setRole_touches ..) rfl) ?_) (Block.redSend_touches ..) rfl)
    · exact Touches.set_red _ (h2 _ _) rfl
    · exact Touches.set_red _ (h2 _ _) rfl

theorem Block.ackTaken_touches (b) (x1) (x2) (x3) : Touches [.free, .vis, .act, .com, .dirty, .resp, .rep, .cells, .poison, .evr, .sys, .tim, .aln, .que, .dfe, .prt, .out, .alm, .cmp, .cap, .red] b (Block.ackTaken b x1 x2 x3) := by
  unfold Block.ackTaken
  repeat' first
    | with_reducible assumption
    | with_reducible exact Touches.refl
    | exact rfl
    | (intro x
       refine Touches.mid (show Touches [.free, .vis, .act, .com, .dirty, .resp, .rep, .cells, .poison, .evr, .sys, .tim, .aln, .que, .dfe, .prt, .out, .alm, .cmp, .cap, .red] b x from ?_) (fun h => ?_)
       all_goals first | (with_reducible have h0 : Touches [.free, .vis, .act, .com, .dirty, .resp, .rep, .cells, .poison, .evr, .sys, .tim, .aln, .que, .dfe, .prt, .out, .alm, .cmp, .cap, .red] b x := h; clear h0; clear_value x) | subst x)
    | intro _
    | lift_lets
    | with_reducible refine Touches.ite ?_ ?_
    | with_reducible apply Touches.step (Block.goodExchange_touches ..)
    | with_reducible apply Touches.step (Block.setRedPath_touches ..)
    | with_reducible apply Touches.step (Block.holdTrack_touches ..)
    | with_reducible apply Touches.step (Block.redYield_touches ..)
    | ((with_reducible apply Touches.set_red) <;> first | with_reducible assumption | with_reducible exact Touches.refl | exact rfl | with_reducible refine Touches.snd (by assumption) ?_)
    | split
    | with_reducible refine Touches.snd (by assumption) ?_
    | with_reducible refine Touches.fst (by assumption) ?_
    | with_reducible refine Touches.getD (fun _ _ => ?_) ?_
    | (clear_value *; split)
    | dsimp only

theorem Block.ackRx_touches (b) (x1) (x2) (x3) : Touches [.free, .vis, .act, .com, .dirty, .resp, .rep, .cells, .poison, .evr, .sys, .tim, .aln, .que, .dfe, .prt, .out, .alm, .cmp, .cap, .red] b (Block.ackRx b x1 x2 x3) := by
  unfold Block.ackRx
  repeat' first
    | with_reducible assumption
    | with_reducible exact Touches.refl
    | exact rfl
    | (intro x
       refine Touches.mid (show Touches [.free, .vis, .act, .com, .dirty, .resp, .rep, .cells, .poison, .evr, .sys, .tim, .aln, .que, .dfe, .prt, .out, .alm, .cmp, .cap, .red] b x from ?_) (fun h => ?_)
       all_goals first | (with_reducible have h0 : Touches [.free, .vis, .act, .com, .dirty, .resp, .rep, .cells, .poison, .evr, .sys, .tim, .aln, .que, .dfe, .prt, .out, .alm, .cmp, .cap, .red] b x := h; clear h0; clear_value x) | subst x)
    | intro _
    | lift_lets
    | with_reducible refine Touches.ite ?_ ?_
    | with_reducible apply Touches.step (Block.redHear_touches ..)
    | with_reducible apply Touches.step (Block.holdTrack_touches ..)
    | with_reducible apply Touches.step (Block.redYield_touches ..)
    | with_reducible apply Touches.step (Block.count_touches ..)
    | with_reducible apply Touches.step (Block.ackTaken_touches ..)
    | split
    | with_reducible refine Touches.snd (by assumption) ?_
    | with_reducible refine Touches.fst (by assumption) ?_
    | (clear_value *; split)
    | dsimp only

theorem Block.failRx_touches (b) (x1) (x2) (x3) : Touches [.free, .vis, .act, .com, .dirty, .resp, .rep, .cells, .poison, .evr, .sys, .tim, .que, .prt, .out, .alm, .cap, .red] b (Block.failRx b x1 x2 x3) := by
  unfold Block.failRx
  repeat' first
    | with_reducible assumption
    | with_reducible exact Touches.refl
    | exact rfl
    | (intro x
       refine Touches.mid (show Touches [.free, .vis, .act, .com, .dirty, .resp, .rep, .cells, .poison, .evr, .sys, .tim, .que, .prt, .out, .alm, .cap, .red] b x from ?_) (fun h => ?_)
       all_goals first | (with_reducible have h0 : Touches [.free, .vis, .act, .com, .dirty, .resp, .rep, .cells, .poison, .evr, .sys, .tim, .que, .prt, .out, .alm, .cap, .red] b x := h; clear h0; clear_value x) | subst x)
    | intro _
    | lift_lets
    | with_reducible refine Touches.ite ?_ ?_
    | with_reducible apply Touches.step (Block.redHear_touches ..)
    | with_reducible apply Touches.step (Block.holdTrack_touches ..)
    | with_reducible apply Touches.step (Block.soloEnter_touches ..)
    | with_reducible apply Touches.step (Block.takeover_touches ..)
    | split
    | with_reducible refine Touches.snd (by assumption) ?_
    | with_reducible refine Touches.fst (by assumption) ?_
    | (clear_value *; split)
    | dsimp only

theorem Block.releaseRx_touches (b) (x1) (x2) (x3) (x4) : Touches [.free, .vis, .act, .com, .dirty, .resp, .rep, .cells, .poison, .evr, .sys, .tim, .que, .prt, .out, .alm, .cap, .red] b (Block.releaseRx b x1 x2 x3 x4) := by
  unfold Block.releaseRx
  repeat' first
    | with_reducible assumption
    | with_reducible exact Touches.refl
    | exact rfl
    | (intro x
       refine Touches.mid (show Touches [.free, .vis, .act, .com, .dirty, .resp, .rep, .cells, .poison, .evr, .sys, .tim, .que, .prt, .out, .alm, .cap, .red] b x from ?_) (fun h => ?_)
       all_goals first | (with_reducible have h0 : Touches [.free, .vis, .act, .com, .dirty, .resp, .rep, .cells, .poison, .evr, .sys, .tim, .que, .prt, .out, .alm, .cap, .red] b x := h; clear h0; clear_value x) | subst x)
    | intro _
    | lift_lets
    | with_reducible refine Touches.ite ?_ ?_
    | with_reducible apply Touches.step (Block.redHear_touches ..)
    | with_reducible apply Touches.step (Block.setPub_touches ..)
    | with_reducible apply Touches.step (Block.takeover_touches ..)
    | with_reducible refine Touches.fold ?_ (fun _ _ _ => ?_)
    | split
    | with_reducible refine Touches.snd (by assumption) ?_
    | with_reducible refine Touches.fst (by assumption) ?_
    | with_reducible refine Touches.fold1 ?_ (fun _ _ _ => ?_)
    | with_reducible refine Touches.fold2 ?_ (fun _ _ _ => ?_)
    | (clear_value *; split)
    | dsimp only

theorem Block.helloRx_touches (b) (x1) (x2) (x3) : Touches [.free, .vis, .act, .com, .dirty, .resp, .rep, .cells, .poison, .evr, .sys, .tim, .aln, .que, .dfe, .prt, .out, .cas, .rpl, .isl, .alm, .cmp, .sdm, .nrg, .cap, .red] b (Block.helloRx b x1 x2 x3) := by
  unfold Block.helloRx
  repeat' first
    | with_reducible assumption
    | with_reducible exact Touches.refl
    | exact rfl
    | (intro x
       refine Touches.mid (show Touches [.free, .vis, .act, .com, .dirty, .resp, .rep, .cells, .poison, .evr, .sys, .tim, .aln, .que, .dfe, .prt, .out, .cas, .rpl, .isl, .alm, .cmp, .sdm, .nrg, .cap, .red] b x from ?_) (fun h => ?_)
       all_goals first | (with_reducible have h0 : Touches [.free, .vis, .act, .com, .dirty, .resp, .rep, .cells, .poison, .evr, .sys, .tim, .aln, .que, .dfe, .prt, .out, .cas, .rpl, .isl, .alm, .cmp, .sdm, .nrg, .cap, .red] b x := h; clear h0; clear_value x) | subst x)
    | intro _
    | lift_lets
    | with_reducible refine Touches.ite ?_ ?_
    | with_reducible apply Touches.step (Block.redHear_touches ..)
    | with_reducible apply Touches.step (Block.roleResolve_touches ..)
    | ((with_reducible apply Touches.set_red) <;> first | with_reducible assumption | with_reducible exact Touches.refl | exact rfl | with_reducible refine Touches.snd (by assumption) ?_)
    | split
    | with_reducible refine Touches.snd (by assumption) ?_
    | with_reducible refine Touches.fst (by assumption) ?_
    | (clear_value *; split)
    | dsimp only

theorem Block.nakRx_touches (b) (x1) (x2) (x3) : Touches [.free, .vis, .act, .com, .dirty, .resp, .rep, .cells, .poison, .evr, .sys, .tim, .aln, .que, .dfe, .prt, .out, .alm, .cmp, .cap, .red] b (Block.nakRx b x1 x2 x3) := by
  unfold Block.nakRx
  repeat' first
    | with_reducible assumption
    | with_reducible exact Touches.refl
    | exact rfl
    | (intro x
       refine Touches.mid (show Touches [.free, .vis, .act, .com, .dirty, .resp, .rep, .cells, .poison, .evr, .sys, .tim, .aln, .que, .dfe, .prt, .out, .alm, .cmp, .cap, .red] b x from ?_) (fun h => ?_)
       all_goals first | (with_reducible have h0 : Touches [.free, .vis, .act, .com, .dirty, .resp, .rep, .cells, .poison, .evr, .sys, .tim, .aln, .que, .dfe, .prt, .out, .alm, .cmp, .cap, .red] b x := h; clear h0; clear_value x) | subst x)
    | intro _
    | lift_lets
    | with_reducible refine Touches.ite ?_ ?_
    | with_reducible apply Touches.step (Block.redHear_touches ..)
    | with_reducible apply Touches.step (Block.roleConflict_touches ..)
    | split
    | with_reducible refine Touches.snd (by assumption) ?_
    | with_reducible refine Touches.fst (by assumption) ?_
    | (clear_value *; split)
    | dsimp only

theorem Block.renewSend_touches (b) : Touches [.vis, .prt, .red] b (Block.renewSend b) := by
  unfold Block.renewSend
  repeat' first
    | with_reducible assumption
    | with_reducible exact Touches.refl
    | exact rfl
    | (intro x
       refine Touches.mid (show Touches [.vis, .prt, .red] b x from ?_) (fun h => ?_)
       all_goals first | (with_reducible have h0 : Touches [.vis, .prt, .red] b x := h; clear h0; clear_value x) | subst x)
    | intro _
    | lift_lets
    | with_reducible refine Touches.ite ?_ ?_
    | with_reducible apply Touches.step (Block.count_touches ..)
    | with_reducible apply Touches.step (Block.redSendBoth_touches ..)
    | ((with_reducible apply Touches.set_red) <;> first | with_reducible assumption | with_reducible exact Touches.refl | exact rfl | with_reducible refine Touches.snd (by assumption) ?_)
    | split
    | with_reducible refine Touches.snd (by assumption) ?_
    | with_reducible refine Touches.fst (by assumption) ?_
    | (clear_value *; split)
    | dsimp only

theorem Block.leaseExpiry_touches (b) : Touches [.free, .vis, .act, .com, .dirty, .resp, .rep, .cells, .poison, .evr, .sys, .tim, .aln, .que, .dfe, .prt, .out, .alm, .cmp, .cap, .red] b (Block.leaseExpiry b) := by
  unfold Block.leaseExpiry
  repeat' first
    | with_reducible assumption
    | with_reducible exact Touches.refl
    | exact rfl
    | (intro x
       refine Touches.mid (show Touches [.free, .vis, .act, .com, .dirty, .resp, .rep, .cells, .poison, .evr, .sys, .tim, .aln, .que, .dfe, .prt, .out, .alm, .cmp, .cap, .red] b x from ?_) (fun h => ?_)
       all_goals first | (with_reducible have h0 : Touches [.free, .vis, .act, .com, .dirty, .resp, .rep, .cells, .poison, .evr, .sys, .tim, .aln, .que, .dfe, .prt, .out, .alm, .cmp, .cap, .red] b x := h; clear h0; clear_value x) | subst x)
    | intro _
    | lift_lets
    | with_reducible refine Touches.ite ?_ ?_
    | with_reducible apply Touches.step (Block.holdTrack_touches ..)
    | with_reducible apply Touches.step (Block.soloEnter_touches ..)
    | with_reducible apply Touches.step (Block.fence_touches ..)
    | split
    | with_reducible refine Touches.snd (by assumption) ?_
    | with_reducible refine Touches.fst (by assumption) ?_
    | (clear_value *; split)
    | dsimp only

theorem Block.imageInvalid_touches (b) : Touches [.vis, .evr, .red] b (Block.imageInvalid b) := by
  unfold Block.imageInvalid
  repeat' first
    | with_reducible assumption
    | with_reducible exact Touches.refl
    | exact rfl
    | (intro x
       refine Touches.mid (show Touches [.vis, .evr, .red] b x from ?_) (fun h => ?_)
       all_goals first | (with_reducible have h0 : Touches [.vis, .evr, .red] b x := h; clear h0; clear_value x) | subst x)
    | intro _
    | lift_lets
    | with_reducible refine Touches.ite ?_ ?_
    | with_reducible apply Touches.step (Block.redEvent_touches ..)
    | with_reducible apply Touches.step (Block.irq_touches ..)
    | ((with_reducible apply Touches.set_red) <;> first | with_reducible assumption | with_reducible exact Touches.refl | exact rfl | with_reducible refine Touches.snd (by assumption) ?_)
    | split
    | with_reducible refine Touches.snd (by assumption) ?_
    | with_reducible refine Touches.fst (by assumption) ?_
    | (clear_value *; split)
    | dsimp only

theorem Block.pathDown_touches (b) (x1) : Touches [.vis, .evr, .red] b (Block.pathDown b x1) := by
  unfold Block.pathDown
  repeat' first
    | with_reducible assumption
    | with_reducible exact Touches.refl
    | exact rfl
    | (intro x
       refine Touches.mid (show Touches [.vis, .evr, .red] b x from ?_) (fun h => ?_)
       all_goals first | (with_reducible have h0 : Touches [.vis, .evr, .red] b x := h; clear h0; clear_value x) | subst x)
    | intro _
    | lift_lets
    | with_reducible refine Touches.ite ?_ ?_
    | with_reducible apply Touches.step (Block.setRedPath_touches ..)
    | with_reducible apply Touches.step (Block.count_touches ..)
    | with_reducible apply Touches.step (Block.redEvent_touches ..)
    | with_reducible apply Touches.step (Block.irq_touches ..)
    | with_reducible apply Touches.step (Block.holdTrack_touches ..)
    | with_reducible apply Touches.step (Block.imageInvalid_touches ..)
    | split
    | with_reducible refine Touches.snd (by assumption) ?_
    | with_reducible refine Touches.fst (by assumption) ?_
    | (clear_value *; split)
    | dsimp only

theorem Block.takeoverTimeout_touches (b) : Touches [.free, .vis, .act, .com, .dirty, .resp, .rep, .cells, .poison, .evr, .sys, .tim, .que, .prt, .out, .alm, .cap, .red] b (Block.takeoverTimeout b) := by
  unfold Block.takeoverTimeout
  repeat' first
    | with_reducible assumption
    | with_reducible exact Touches.refl
    | exact rfl
    | (intro x
       refine Touches.mid (show Touches [.free, .vis, .act, .com, .dirty, .resp, .rep, .cells, .poison, .evr, .sys, .tim, .que, .prt, .out, .alm, .cap, .red] b x from ?_) (fun h => ?_)
       all_goals first | (with_reducible have h0 : Touches [.free, .vis, .act, .com, .dirty, .resp, .rep, .cells, .poison, .evr, .sys, .tim, .que, .prt, .out, .alm, .cap, .red] b x := h; clear h0; clear_value x) | subst x)
    | intro _
    | lift_lets
    | with_reducible refine Touches.ite ?_ ?_
    | with_reducible apply Touches.step (Block.takeover_touches ..)
    | split
    | with_reducible refine Touches.snd (by assumption) ?_
    | with_reducible refine Touches.fst (by assumption) ?_
    | (clear_value *; split)
    | dsimp only

theorem Block.ckptItem_touches (b) (x1) : Touches [.vis, .com, .cells, .poison, .sys, .aln, .dfe, .str, .out, .rpl, .isl, .alm, .rad] b (Block.ckptItem b x1) := by
  cases x1 with
  | ring r s t => exact (Block.setRing_touches ..).weaken rfl
  | alnCtx c x => exact (Block.setAlnCtx_touches ..).weaken rfl
  | replay c h s => exact Touches.set_str _ .refl rfl
  | carry a d => exact ((Block.store_touches b a d).weaken rfl).trans (Block.halfAt_touches ..) rfl
  | islBus i x => exact Touches.set_isl _ .refl rfl
  | islBranch i x => exact Touches.set_isl _ .refl rfl
  | islSlot i x => exact Touches.set_isl _ .refl rfl
  | islIds m n => exact Touches.set_isl _ .refl rfl
  | detector k x => exact (Block.setDet_touches ..).weaken rfl
  | pair k x => exact (Block.setPair_touches ..).weaken rfl
  | definition k x => exact (Block.setDef_touches ..).weaken rfl
  | pulse k x => exact Touches.set_alm _ .refl rfl
  | publisher k x => exact (Block.setPub_touches ..).weaken rfl
  | rpl x => exact Touches.set_rpl _ .refl rfl
  | ident x => exact Touches.set_out _ .refl rfl
  | spdu x => exact Touches.set_out _ .refl rfl
  | udpOn x => exact Touches.set_out _ .refl rfl
  | cfgNotice s n => exact (Block.setVis_touches ..).weaken rfl
  | node n x => exact (Block.setRadNode_touches ..).weaken rfl
  | committed k w => exact (Block.setCom_touches ..).weaken rfl
  | tuneCounter n => exact Touches.set_sys _ .refl rfl

theorem Block.ckptGap_touches (b) (x1) : Touches [.vis, .evr, .red] b (Block.ckptGap b x1) := by
  unfold Block.ckptGap
  repeat' first
    | with_reducible assumption
    | with_reducible exact Touches.refl
    | exact rfl
    | (intro x
       refine Touches.mid (show Touches [.vis, .evr, .red] b x from ?_) (fun h => ?_)
       all_goals first | (with_reducible have h0 : Touches [.vis, .evr, .red] b x := h; clear h0; clear_value x) | subst x)
    | intro _
    | lift_lets
    | with_reducible refine Touches.ite ?_ ?_
    | with_reducible apply Touches.step (Block.imageInvalid_touches ..)
    | with_reducible apply Touches.step (Block.count_touches ..)
    | split
    | with_reducible refine Touches.snd (by assumption) ?_
    | with_reducible refine Touches.fst (by assumption) ?_
    | (clear_value *; split)
    | dsimp only

theorem Block.ckptOpen_touches (b) (x1) : Touches [.vis, .evr, .red] b (Block.ckptOpen b x1) := by
  unfold Block.ckptOpen
  repeat' first
    | with_reducible assumption
    | with_reducible exact Touches.refl
    | exact rfl
    | (intro x
       refine Touches.mid (show Touches [.vis, .evr, .red] b x from ?_) (fun h => ?_)
       all_goals first | (with_reducible have h0 : Touches [.vis, .evr, .red] b x := h; clear h0; clear_value x) | subst x)
    | intro _
    | lift_lets
    | with_reducible refine Touches.ite ?_ ?_
    | with_reducible apply Touches.step (Block.ckptGap_touches ..)
    | ((with_reducible apply Touches.set_red) <;> first | with_reducible assumption | with_reducible exact Touches.refl | exact rfl | with_reducible refine Touches.snd (by assumption) ?_)
    | split
    | with_reducible refine Touches.snd (by assumption) ?_
    | with_reducible refine Touches.fst (by assumption) ?_
    | (clear_value *; split)
    | dsimp only

theorem Block.ckptLast_touches (b) (x1) : Touches [.vis, .evr, .red] b (Block.ckptLast b x1) := by
  unfold Block.ckptLast
  repeat' first
    | with_reducible assumption
    | with_reducible exact Touches.refl
    | exact rfl
    | (intro x
       refine Touches.mid (show Touches [.vis, .evr, .red] b x from ?_) (fun h => ?_)
       all_goals first | (with_reducible have h0 : Touches [.vis, .evr, .red] b x := h; clear h0; clear_value x) | subst x)
    | intro _
    | lift_lets
    | with_reducible refine Touches.ite ?_ ?_
    | with_reducible apply Touches.step (Block.ckptGap_touches ..)
    | with_reducible apply Touches.step (Block.count_touches ..)
    | with_reducible apply Touches.step (Block.redEvent_touches ..)
    | with_reducible apply Touches.step (Block.irq_touches ..)
    | ((with_reducible apply Touches.set_red) <;> first | with_reducible assumption | with_reducible exact Touches.refl | exact rfl | with_reducible refine Touches.snd (by assumption) ?_)
    | split
    | with_reducible refine Touches.snd (by assumption) ?_
    | with_reducible refine Touches.fst (by assumption) ?_
    | (clear_value *; split)
    | dsimp only

theorem Block.checkpointRx_touches (b) (x1) : Touches [.vis, .com, .rep, .cells, .poison, .evr, .sys, .aln, .dfe, .prt, .str, .out, .rpl, .isl, .alm, .rad, .red] b (Block.checkpointRx b x1) := by
  unfold Block.checkpointRx
  repeat' first
    | with_reducible assumption
    | with_reducible exact Touches.refl
    | exact rfl
    | (intro x
       refine Touches.mid (show Touches [.vis, .com, .rep, .cells, .poison, .evr, .sys, .aln, .dfe, .prt, .str, .out, .rpl, .isl, .alm, .rad, .red] b x from ?_) (fun h => ?_)
       all_goals first | (with_reducible have h0 : Touches [.vis, .com, .rep, .cells, .poison, .evr, .sys, .aln, .dfe, .prt, .str, .out, .rpl, .isl, .alm, .rad, .red] b x := h; clear h0; clear_value x) | subst x)
    | intro _
    | lift_lets
    | with_reducible refine Touches.ite ?_ ?_
    | with_reducible apply Touches.step (Block.ckptGap_touches ..)
    | with_reducible apply Touches.step (Block.count_touches ..)
    | with_reducible apply Touches.step (Block.eventRep_touches ..)
    | with_reducible apply Touches.step (Block.irq_touches ..)
    | with_reducible apply Touches.step (Block.redSend_touches ..)
    | with_reducible apply Touches.step (Block.ckptOpen_touches ..)
    | with_reducible apply Touches.step (Block.setRedEpoch_touches ..)
    | with_reducible apply Touches.step (Block.ckptItem_touches ..)
    | with_reducible apply Touches.step (Block.ckptLast_touches ..)
    | ((with_reducible apply Touches.set_red) <;> first | with_reducible assumption | with_reducible exact Touches.refl | exact rfl | with_reducible refine Touches.snd (by assumption) ?_)
    | with_reducible refine Touches.fold ?_ (fun _ _ _ => ?_)
    | split
    | with_reducible refine Touches.snd (by assumption) ?_
    | with_reducible refine Touches.fst (by assumption) ?_
    | with_reducible refine Touches.fold1 ?_ (fun _ _ _ => ?_)
    | with_reducible refine Touches.fold2 ?_ (fun _ _ _ => ?_)
    | (clear_value *; split)
    | dsimp only

theorem Block.controlRx_touches (b) (x1) (x2) (x3) (x4) : Touches [.vis, .rep, .cells, .poison, .evr, .prt, .red] b (Block.controlRx b x1 x2 x3 x4) := by
  unfold Block.controlRx
  repeat' first
    | with_reducible assumption
    | with_reducible exact Touches.refl
    | exact rfl
    | (intro x
       refine Touches.mid (show Touches [.vis, .rep, .cells, .poison, .evr, .prt, .red] b x from ?_) (fun h => ?_)
       all_goals first | (with_reducible have h0 : Touches [.vis, .rep, .cells, .poison, .evr, .prt, .red] b x := h; clear h0; clear_value x) | subst x)
    | intro _
    | lift_lets
    | with_reducible refine Touches.ite ?_ ?_
    | with_reducible apply Touches.step (Block.count_touches ..)
    | with_reducible apply Touches.step (Block.eventRep_touches ..)
    | with_reducible apply Touches.step (Block.irq_touches ..)
    | with_reducible apply Touches.step (Block.redSend_touches ..)
    | with_reducible apply Touches.step (Block.setRedEpoch_touches ..)
    | ((with_reducible apply Touches.set_red) <;> first | with_reducible assumption | with_reducible exact Touches.refl | exact rfl | with_reducible refine Touches.snd (by assumption) ?_)
    | split
    | with_reducible refine Touches.snd (by assumption) ?_
    | with_reducible refine Touches.fst (by assumption) ?_
    | (clear_value *; split)
    | dsimp only

end Sys2Proof.Machine
end

