-- ==== Sys2Proof/Laws/TouchModeOps.lean ====
section
/-! SUPPORT. What the operations of Machine/ModeOps.lean touch. -/

namespace Sys2Proof.Machine

set_option linter.all false

theorem Block.tb0Stepped_touches (b) : Touches [.free, .vis, .act, .com, .dirty, .resp, .rep, .cells, .poison, .evr, .aln, .que, .dfe, .prt, .out, .cas, .rpl, .isl, .alm, .cmp, .sdm, .nrg, .cap] b (Block.tb0Stepped b) := by
  unfold Block.tb0Stepped
  repeat' first
    | with_reducible assumption
    | with_reducible exact Touches.refl
    | exact rfl
    | (intro x
       refine Touches.mid (show Touches [.free, .vis, .act, .com, .dirty, .resp, .rep, .cells, .poison, .evr, .aln, .que, .dfe, .prt, .out, .cas, .rpl, .isl, .alm, .cmp, .sdm, .nrg, .cap] b x from ?_) (fun h => ?_)
       all_goals first | (with_reducible have h0 : Touches [.free, .vis, .act, .com, .dirty, .resp, .rep, .cells, .poison, .evr, .aln, .que, .dfe, .prt, .out, .cas, .rpl, .isl, .alm, .cmp, .sdm, .nrg, .cap] b x := h; clear h0; clear_value x) | subst x)
    | intro _
    | lift_lets
    | with_reducible refine Touches.ite ?_ ?_
    | with_reducible apply Touches.step (Block.sdmSync_touches ..)
    | with_reducible apply Touches.step (Block.ringsRestart_touches ..)
    | split
    | with_reducible refine Touches.snd (by assumption) ?_
    | with_reducible refine Touches.fst (by assumption) ?_
    | (clear_value *; split)
    | dsimp only

theorem Block.tb0Leave_touches (b) : Touches [.tim] b (Block.tb0Leave b) := by
  unfold Block.tb0Leave
  repeat' first
    | with_reducible assumption
    | with_reducible exact Touches.refl
    | exact rfl
    | (intro x
       refine Touches.mid (show Touches [.tim] b x from ?_) (fun h => ?_)
       all_goals first | (with_reducible have h0 : Touches [.tim] b x := h; clear h0; clear_value x) | subst x)
    | intro _
    | lift_lets
    | with_reducible refine Touches.ite ?_ ?_
    | with_reducible apply Touches.step (Block.setTb_touches ..)
    | split
    | with_reducible refine Touches.snd (by assumption) ?_
    | with_reducible refine Touches.fst (by assumption) ?_
    | (clear_value *; split)
    | dsimp only

theorem Block.acquireEnd_touches (b) : Touches [.free, .vis, .act, .com, .dirty, .resp, .rep, .cells, .poison, .evr, .sys, .tim, .aln, .que, .dfe, .prt, .out, .alm, .cmp, .cap, .red] b (Block.acquireEnd b) := by
  unfold Block.acquireEnd
  repeat' first
    | with_reducible assumption
    | with_reducible exact Touches.refl
    | exact rfl
    | (intro x
       refine Touches.mid (show Touches [.free, .vis, .act, .com, .dirty, .resp, .rep, .cells, .poison, .evr, .sys, .tim, .aln, .que, .dfe, .prt, .out, .alm, .cmp, .cap, .red] b x from ?_) (fun h => ?_)
       all_goals first | (with_reducible have h0 : Touches [.free, .vis, .act, .com, .dirty, .resp, .rep, .cells, .poison, .evr, .sys, .tim, .aln, .que, .dfe, .prt, .out, .alm, .cmp, .cap, .red] b x := h; clear h0; clear_value x) | subst x)
    | intro _
    | lift_lets
    | with_reducible refine Touches.ite ?_ ?_
    | with_reducible apply Touches.step (Block.tb0Leave_touches ..)
    | with_reducible apply Touches.step (Block.listenStart_touches ..)
    | with_reducible apply Touches.step (Block.ringsStop_touches ..)
    | with_reducible apply Touches.step (Block.setMode_touches ..)
    | split
    | with_reducible refine Touches.snd (by assumption) ?_
    | with_reducible refine Touches.fst (by assumption) ?_
    | (clear_value *; split)
    | dsimp only

theorem Block.modeFollow_touches (b) : Touches [.free, .vis, .act, .com, .dirty, .resp, .rep, .cells, .poison, .evr, .sys, .tim, .aln, .que, .dfe, .prt, .out, .alm, .cmp, .cap, .red] b (Block.modeFollow b) := by
  unfold Block.modeFollow
  repeat' first
    | with_reducible assumption
    | with_reducible exact Touches.refl
    | exact rfl
    | (intro x
       refine Touches.mid (show Touches [.free, .vis, .act, .com, .dirty, .resp, .rep, .cells, .poison, .evr, .sys, .tim, .aln, .que, .dfe, .prt, .out, .alm, .cmp, .cap, .red] b x from ?_) (fun h => ?_)
       all_goals first | (with_reducible have h0 : Touches [.free, .vis, .act, .com, .dirty, .resp, .rep, .cells, .poison, .evr, .sys, .tim, .aln, .que, .dfe, .prt, .out, .alm, .cmp, .cap, .red] b x := h; clear h0; clear_value x) | subst x)
    | intro _
    | lift_lets
    | with_reducible refine Touches.ite ?_ ?_
    | with_reducible apply Touches.step (Block.acquireEnd_touches ..)
    | with_reducible apply Touches.step (Block.setMode_touches ..)
    | split
    | with_reducible refine Touches.snd (by assumption) ?_
    | with_reducible refine Touches.fst (by assumption) ?_
    | (clear_value *; split)
    | dsimp only

theorem Block.reacquire_touches (b) (x1) : Touches [.free, .vis, .act, .com, .dirty, .resp, .rep, .cells, .poison, .evr, .sys, .tim, .aln, .que, .dfe, .prt, .out, .cas, .rpl, .isl, .alm, .cmp, .sdm, .nrg, .cap, .red] b (Block.reacquire b x1) := by
  unfold Block.reacquire
  repeat' first
    | with_reducible assumption
    | with_reducible exact Touches.refl
    | exact rfl
    | (intro x
       refine Touches.mid (show Touches [.free, .vis, .act, .com, .dirty, .resp, .rep, .cells, .poison, .evr, .sys, .tim, .aln, .que, .dfe, .prt, .out, .cas, .rpl, .isl, .alm, .cmp, .sdm, .nrg, .cap, .red] b x from ?_) (fun h => ?_)
       all_goals first | (with_reducible have h0 : Touches [.free, .vis, .act, .com, .dirty, .resp, .rep, .cells, .poison, .evr, .sys, .tim, .aln, .que, .dfe, .prt, .out, .cas, .rpl, .isl, .alm, .cmp, .sdm, .nrg, .cap, .red] b x := h; clear h0; clear_value x) | subst x)
    | intro _
    | lift_lets
    | with_reducible refine Touches.ite ?_ ?_
    | with_reducible apply Touches.step (Block.stepBy_touches ..)
    | with_reducible apply Touches.step (Block.setMode_touches ..)
    | with_reducible apply Touches.step (Block.tb0Acquire_touches ..)
    | with_reducible apply Touches.step (Block.sdmSync_touches ..)
    | with_reducible apply Touches.step (Block.ringsStart_touches ..)
    | with_reducible apply Touches.step (Block.newGen_touches ..)
    | with_reducible apply Touches.step (Block.tb0Stepped_touches ..)
    | split
    | with_reducible refine Touches.snd (by assumption) ?_
    | with_reducible refine Touches.fst (by assumption) ?_
    | (clear_value *; split)
    | dsimp only

theorem Block.degrade_touches (b) (x1) : Touches [.free, .vis, .act, .com, .dirty, .resp, .rep, .cells, .poison, .evr, .sys, .tim, .aln, .que, .dfe, .prt, .out, .alm, .cmp, .cap, .red] b (Block.degrade b x1) := by
  unfold Block.degrade
  repeat' first
    | with_reducible assumption
    | with_reducible exact Touches.refl
    | exact rfl
    | (intro x
       refine Touches.mid (show Touches [.free, .vis, .act, .com, .dirty, .resp, .rep, .cells, .poison, .evr, .sys, .tim, .aln, .que, .dfe, .prt, .out, .alm, .cmp, .cap, .red] b x from ?_) (fun h => ?_)
       all_goals first | (with_reducible have h0 : Touches [.free, .vis, .act, .com, .dirty, .resp, .rep, .cells, .poison, .evr, .sys, .tim, .aln, .que, .dfe, .prt, .out, .alm, .cmp, .cap, .red] b x := h; clear h0; clear_value x) | subst x)
    | intro _
    | lift_lets
    | with_reducible refine Touches.ite ?_ ?_
    | with_reducible apply Touches.step (Block.redYield_touches ..)
    | with_reducible apply Touches.step (Block.setMode_touches ..)
    | ((with_reducible apply Touches.set_sys) <;> first | with_reducible assumption | with_reducible exact Touches.refl | exact rfl | with_reducible refine Touches.snd (by assumption) ?_)
    | split
    | with_reducible refine Touches.snd (by assumption) ?_
    | with_reducible refine Touches.fst (by assumption) ?_
    | (clear_value *; split)
    | dsimp only

theorem Block.undegrade_touches (b) (x1) : Touches [.free, .vis, .act, .com, .dirty, .resp, .rep, .cells, .poison, .evr, .sys, .tim, .que, .prt, .out, .alm, .cap, .red] b (Block.undegrade b x1) := by
  unfold Block.undegrade
  repeat' first
    | with_reducible assumption
    | with_reducible exact Touches.refl
    | exact rfl
    | (intro x
       refine Touches.mid (show Touches [.free, .vis, .act, .com, .dirty, .resp, .rep, .cells, .poison, .evr, .sys, .tim, .que, .prt, .out, .alm, .cap, .red] b x from ?_) (fun h => ?_)
       all_goals first | (with_reducible have h0 : Touches [.free, .vis, .act, .com, .dirty, .resp, .rep, .cells, .poison, .evr, .sys, .tim, .que, .prt, .out, .alm, .cap, .red] b x := h; clear h0; clear_value x) | subst x)
    | intro _
    | lift_lets
    | with_reducible refine Touches.ite ?_ ?_
    | with_reducible apply Touches.step (Block.setMode_touches ..)
    | ((with_reducible apply Touches.set_sys) <;> first | with_reducible assumption | with_reducible exact Touches.refl | exact rfl | with_reducible refine Touches.snd (by assumption) ?_)
    | split
    | with_reducible refine Touches.snd (by assumption) ?_
    | with_reducible refine Touches.fst (by assumption) ?_
    | (clear_value *; split)
    | dsimp only

theorem Block.enterSave_touches (b) (x1) : Touches [.free, .vis, .act, .com, .dirty, .resp, .rep, .cells, .poison, .evr, .sys, .tim, .que, .prt, .out, .cas, .alm, .nrg, .cap, .red] b (Block.enterSave b x1) := by
  unfold Block.enterSave
  repeat' first
    | with_reducible assumption
    | with_reducible exact Touches.refl
    | exact rfl
    | (intro x
       refine Touches.mid (show Touches [.free, .vis, .act, .com, .dirty, .resp, .rep, .cells, .poison, .evr, .sys, .tim, .que, .prt, .out, .cas, .alm, .nrg, .cap, .red] b x from ?_) (fun h => ?_)
       all_goals first | (with_reducible have h0 : Touches [.free, .vis, .act, .com, .dirty, .resp, .rep, .cells, .poison, .evr, .sys, .tim, .que, .prt, .out, .cas, .alm, .nrg, .cap, .red] b x := h; clear h0; clear_value x) | subst x)
    | intro _
    | lift_lets
    | with_reducible refine Touches.ite ?_ ?_
    | with_reducible apply Touches.step (Block.freezeEnds_touches ..)
    | with_reducible apply Touches.step (Block.setMode_touches ..)
    | with_reducible apply Touches.step (Block.nrgFreeze_touches ..)
    | ((with_reducible apply Touches.set_out) <;> first | with_reducible assumption | with_reducible exact Touches.refl | exact rfl | with_reducible refine Touches.snd (by assumption) ?_)
    | ((with_reducible apply Touches.set_sys) <;> first | with_reducible assumption | with_reducible exact Touches.refl | exact rfl | with_reducible refine Touches.snd (by assumption) ?_)
    | split
    | with_reducible refine Touches.snd (by assumption) ?_
    | with_reducible refine Touches.fst (by assumption) ?_
    | (clear_value *; split)
    | dsimp only

theorem Block.ringsHalt_touches (b) : Touches [.aln] b (Block.ringsHalt b) := by
  unfold Block.ringsHalt
  repeat' first
    | with_reducible assumption
    | with_reducible exact Touches.refl
    | exact rfl
    | (intro x
       refine Touches.mid (show Touches [.aln] b x from ?_) (fun h => ?_)
       all_goals first | (with_reducible have h0 : Touches [.aln] b x := h; clear h0; clear_value x) | subst x)
    | intro _
    | lift_lets
    | with_reducible refine Touches.ite ?_ ?_
    | with_reducible apply Touches.step (Block.setRing_touches ..)
    | split
    | with_reducible refine Touches.snd (by assumption) ?_
    | with_reducible refine Touches.fst (by assumption) ?_
    | (clear_value *; split)
    | dsimp only

theorem Block.enterHalt_touches (b) (x1) : Touches [.free, .vis, .act, .com, .dirty, .resp, .rep, .cells, .poison, .evr, .sys, .pwr, .tim, .aln, .que, .prt, .out, .alm, .cap, .red] b (Block.enterHalt b x1) := by
  unfold Block.enterHalt
  repeat' first
    | with_reducible assumption
    | with_reducible exact Touches.refl
    | exact rfl
    | (intro x
       refine Touches.mid (show Touches [.free, .vis, .act, .com, .dirty, .resp, .rep, .cells, .poison, .evr, .sys, .pwr, .tim, .aln, .que, .prt, .out, .alm, .cap, .red] b x from ?_) (fun h => ?_)
       all_goals first | (with_reducible have h0 : Touches [.free, .vis, .act, .com, .dirty, .resp, .rep, .cells, .poison, .evr, .sys, .pwr, .tim, .aln, .que, .prt, .out, .alm, .cap, .red] b x := h; clear h0; clear_value x) | subst x)
    | intro _
    | lift_lets
    | with_reducible refine Touches.ite ?_ ?_
    | with_reducible apply Touches.step (Block.linksDown_touches ..)
    | with_reducible apply Touches.step (Block.ringsHalt_touches ..)
    | with_reducible apply Touches.step (Block.setMode_touches ..)
    | ((with_reducible apply Touches.set_sys_pwr) <;> first | with_reducible assumption | with_reducible exact Touches.refl | exact rfl | with_reducible refine Touches.snd (by assumption) ?_)
    | split
    | with_reducible refine Touches.snd (by assumption) ?_
    | with_reducible refine Touches.fst (by assumption) ?_
    | (clear_value *; split)
    | dsimp only

theorem Block.drainEvents_touches (b) : Touches [.vis, .cells, .poison, .evr, .nrg] b (Block.drainEvents b) := by
  unfold Block.drainEvents
  repeat' first
    | with_reducible assumption
    | with_reducible exact Touches.refl
    | exact rfl
    | (intro x
       refine Touches.mid (show Touches [.vis, .cells, .poison, .evr, .nrg] b x from ?_) (fun h => ?_)
       all_goals first | (with_reducible have h0 : Touches [.vis, .cells, .poison, .evr, .nrg] b x := h; clear h0; clear_value x) | subst x)
    | intro _
    | lift_lets
    | with_reducible refine Touches.ite ?_ ?_
    | with_reducible apply Touches.step (Block.entryWrite_touches ..)
    | with_reducible refine Touches.fold ?_ (fun _ _ _ => ?_)
    | split
    | with_reducible refine Touches.snd (by assumption) ?_
    | with_reducible refine Touches.fst (by assumption) ?_
    | with_reducible refine Touches.fold1 ?_ (fun _ _ _ => ?_)
    | with_reducible refine Touches.fold2 ?_ (fun _ _ _ => ?_)
    | (clear_value *; split)
    | dsimp only

theorem Block.saveComplete_touches (b) : Touches [.free, .vis, .act, .com, .dirty, .resp, .rep, .cells, .poison, .evr, .sys, .pwr, .tim, .aln, .que, .prt, .out, .alm, .nrg, .cap, .red] b (Block.saveComplete b) := by
  unfold Block.saveComplete
  repeat' first
    | with_reducible assumption
    | with_reducible exact Touches.refl
    | exact rfl
    | (intro x
       refine Touches.mid (show Touches [.free, .vis, .act, .com, .dirty, .resp, .rep, .cells, .poison, .evr, .sys, .pwr, .tim, .aln, .que, .prt, .out, .alm, .nrg, .cap, .red] b x from ?_) (fun h => ?_)
       all_goals first | (with_reducible have h0 : Touches [.free, .vis, .act, .com, .dirty, .resp, .rep, .cells, .poison, .evr, .sys, .pwr, .tim, .aln, .que, .prt, .out, .alm, .nrg, .cap, .red] b x := h; clear h0; clear_value x) | subst x)
    | intro _
    | lift_lets
    | with_reducible refine Touches.ite ?_ ?_
    | with_reducible apply Touches.step (Block.zeroRange_touches ..)
    | with_reducible apply Touches.step (Block.drainEvents_touches ..)
    | with_reducible apply Touches.step (Block.enterHalt_touches ..)
    | with_reducible apply Touches.step (Block.event_touches ..)
    | split
    | with_reducible refine Touches.snd (by assumption) ?_
    | with_reducible refine Touches.fst (by assumption) ?_
    | (clear_value *; split)
    | dsimp only

theorem Block.hostRegs_touches (b) : Touches [.vis] b (Block.hostRegs b) := by
  unfold Block.hostRegs
  exact Touches.refl.mk' _ ⟨rfl, fun p hp => by cases p <;> first | rfl | cases hp⟩

theorem Block.hostReset_touches (b) : Touches [.vis, .resp, .evr, .sys, .acc, .que, .prt, .red] b (Block.hostReset b) := by
  unfold Block.hostReset
  repeat' first
    | with_reducible assumption
    | with_reducible exact Touches.refl
    | exact rfl
    | (intro x
       refine Touches.mid (show Touches [.vis, .resp, .evr, .sys, .acc, .que, .prt, .red] b x from ?_) (fun h => ?_)
       all_goals first | (with_reducible have h0 : Touches [.vis, .resp, .evr, .sys, .acc, .que, .prt, .red] b x := h; clear h0; clear_value x) | subst x)
    | intro _
    | lift_lets
    | with_reducible refine Touches.ite ?_ ?_
    | with_reducible apply Touches.step (Block.hostRegs_touches ..)
    | with_reducible apply Touches.step (Block.redFail_touches ..)
    | with_reducible apply Touches.step (Block.setBit_touches ..)
    | with_reducible apply Touches.step (Block.count_touches ..)
    | with_reducible apply Touches.step (Block.event_touches ..)
    | ((with_reducible apply Touches.set_resp_sys_acc_que) <;> first | with_reducible assumption | with_reducible exact Touches.refl | exact rfl | with_reducible refine Touches.snd (by assumption) ?_)
    | split
    | with_reducible refine Touches.snd (by assumption) ?_
    | with_reducible refine Touches.fst (by assumption) ?_
    | (clear_value *; split)
    | dsimp only

theorem Block.dieState_touches (b) : Touches [.t7, .free, .vis, .act, .com, .dirty, .locked, .resp, .latch, .rep, .cells, .flash, .poison, .evr, .sys, .pwr, .key, .tam, .acc, .tim, .aln, .mm, .dma, .que, .dfe, .prt, .str, .out, .cas, .rpl, .isl, .alm, .cmp, .sdm, .nrg, .cap, .rad, .red] b (Block.dieState b) := ⟨fun p hp => by (cases p <;> cases hp), fun w => Memory.wf_of (m := b.mem) (fun h => cellsWf_filter _ h) (fun h => h) w⟩

theorem Block.dieReset_touches (b) : Touches [.t7, .free, .vis, .act, .com, .dirty, .locked, .resp, .latch, .rep, .cells, .flash, .poison, .evr, .sys, .pwr, .key, .tam, .acc, .tim, .aln, .mm, .dma, .que, .dfe, .prt, .str, .out, .cas, .rpl, .isl, .alm, .cmp, .sdm, .nrg, .cap, .rad, .red] b (Block.dieReset b) := by
  unfold Block.dieReset
  repeat' first
    | with_reducible assumption
    | with_reducible exact Touches.refl
    | exact rfl
    | (intro x
       refine Touches.mid (show Touches [.t7, .free, .vis, .act, .com, .dirty, .locked, .resp, .latch, .rep, .cells, .flash, .poison, .evr, .sys, .pwr, .key, .tam, .acc, .tim, .aln, .mm, .dma, .que, .dfe, .prt, .str, .out, .cas, .rpl, .isl, .alm, .cmp, .sdm, .nrg, .cap, .rad, .red] b x from ?_) (fun h => ?_)
       all_goals first | (with_reducible have h0 : Touches [.t7, .free, .vis, .act, .com, .dirty, .locked, .resp, .latch, .rep, .cells, .flash, .poison, .evr, .sys, .pwr, .key, .tam, .acc, .tim, .aln, .mm, .dma, .que, .dfe, .prt, .str, .out, .cas, .rpl, .isl, .alm, .cmp, .sdm, .nrg, .cap, .rad, .red] b x := h; clear h0; clear_value x) | subst x)
    | intro _
    | lift_lets
    | with_reducible refine Touches.ite ?_ ?_
    | with_reducible apply Touches.step (Block.dieState_touches ..)
    | with_reducible apply Touches.step (Block.drainEvents_touches ..)
    | split
    | with_reducible refine Touches.snd (by assumption) ?_
    | with_reducible refine Touches.fst (by assumption) ?_
    | (clear_value *; split)
    | dsimp only

theorem Block.hostResetReq_touches (b) (x1) : Touches [.vis, .resp, .evr, .sys, .acc, .que, .prt, .red] b (Block.hostResetReq b x1) := by
  unfold Block.hostResetReq
  repeat' first
    | with_reducible assumption
    | with_reducible exact Touches.refl
    | exact rfl
    | (intro x
       refine Touches.mid (show Touches [.vis, .resp, .evr, .sys, .acc, .que, .prt, .red] b x from ?_) (fun h => ?_)
       all_goals first | (with_reducible have h0 : Touches [.vis, .resp, .evr, .sys, .acc, .que, .prt, .red] b x := h; clear h0; clear_value x) | subst x)
    | intro _
    | lift_lets
    | with_reducible refine Touches.ite ?_ ?_
    | with_reducible apply Touches.step (Block.hostReset_touches ..)
    | with_reducible apply Touches.step (Block.count_touches ..)
    | split
    | with_reducible refine Touches.snd (by assumption) ?_
    | with_reducible refine Touches.fst (by assumption) ?_
    | (clear_value *; split)
    | dsimp only

theorem Block.dieResetReq_touches (b) (x1) : Touches [.t7, .free, .vis, .act, .com, .dirty, .locked, .resp, .latch, .rep, .cells, .flash, .poison, .evr, .sys, .pwr, .key, .tam, .acc, .tim, .aln, .mm, .dma, .que, .dfe, .prt, .str, .out, .cas, .rpl, .isl, .alm, .cmp, .sdm, .nrg, .cap, .rad, .red] b (Block.dieResetReq b x1) := by
  unfold Block.dieResetReq
  repeat' first
    | with_reducible assumption
    | with_reducible exact Touches.refl
    | exact rfl
    | (intro x
       refine Touches.mid (show Touches [.t7, .free, .vis, .act, .com, .dirty, .locked, .resp, .latch, .rep, .cells, .flash, .poison, .evr, .sys, .pwr, .key, .tam, .acc, .tim, .aln, .mm, .dma, .que, .dfe, .prt, .str, .out, .cas, .rpl, .isl, .alm, .cmp, .sdm, .nrg, .cap, .rad, .red] b x from ?_) (fun h => ?_)
       all_goals first | (with_reducible have h0 : Touches [.t7, .free, .vis, .act, .com, .dirty, .locked, .resp, .latch, .rep, .cells, .flash, .poison, .evr, .sys, .pwr, .key, .tam, .acc, .tim, .aln, .mm, .dma, .que, .dfe, .prt, .str, .out, .cas, .rpl, .isl, .alm, .cmp, .sdm, .nrg, .cap, .rad, .red] b x := h; clear h0; clear_value x) | subst x)
    | intro _
    | lift_lets
    | with_reducible refine Touches.ite ?_ ?_
    | with_reducible apply Touches.step (Block.dieReset_touches ..)
    | with_reducible apply Touches.step (Block.redFail_touches ..)
    | with_reducible apply Touches.step (Block.count_touches ..)
    | split
    | with_reducible refine Touches.snd (by assumption) ?_
    | with_reducible refine Touches.fst (by assumption) ?_
    | (clear_value *; split)
    | dsimp only

theorem Block.haltRestart_touches (b) : Touches [.t7, .free, .vis, .act, .com, .dirty, .locked, .resp, .latch, .rep, .cells, .flash, .poison, .evr, .sys, .pwr, .key, .tam, .acc, .tim, .aln, .mm, .dma, .que, .dfe, .prt, .str, .out, .cas, .rpl, .isl, .alm, .cmp, .sdm, .nrg, .cap, .rad, .red] b (Block.haltRestart b) := by
  unfold Block.haltRestart
  repeat' first
    | with_reducible assumption
    | with_reducible exact Touches.refl
    | exact rfl
    | (intro x
       refine Touches.mid (show Touches [.t7, .free, .vis, .act, .com, .dirty, .locked, .resp, .latch, .rep, .cells, .flash, .poison, .evr, .sys, .pwr, .key, .tam, .acc, .tim, .aln, .mm, .dma, .que, .dfe, .prt, .str, .out, .cas, .rpl, .isl, .alm, .cmp, .sdm, .nrg, .cap, .rad, .red] b x from ?_) (fun h => ?_)
       all_goals first | (with_reducible have h0 : Touches [.t7, .free, .vis, .act, .com, .dirty, .locked, .resp, .latch, .rep, .cells, .flash, .poison, .evr, .sys, .pwr, .key, .tam, .acc, .tim, .aln, .mm, .dma, .que, .dfe, .prt, .str, .out, .cas, .rpl, .isl, .alm, .cmp, .sdm, .nrg, .cap, .rad, .red] b x := h; clear h0; clear_value x) | subst x)
    | intro _
    | lift_lets
    | with_reducible refine Touches.ite ?_ ?_
    | with_reducible apply Touches.step (Block.dieReset_touches ..)
    | ((with_reducible apply Touches.set_sys) <;> first | with_reducible assumption | with_reducible exact Touches.refl | exact rfl | with_reducible refine Touches.snd (by assumption) ?_)
    | split
    | with_reducible refine Touches.snd (by assumption) ?_
    | with_reducible refine Touches.fst (by assumption) ?_
    | (clear_value *; split)
    | dsimp only

theorem Block.modeRefused_touches (b) (x1) (x2) : Touches [.vis, .evr] b (Block.modeRefused b x1 x2) := by
  unfold Block.modeRefused
  repeat' first
    | with_reducible assumption
    | with_reducible exact Touches.refl
    | exact rfl
    | (intro x
       refine Touches.mid (show Touches [.vis, .evr] b x from ?_) (fun h => ?_)
       all_goals first | (with_reducible have h0 : Touches [.vis, .evr] b x := h; clear h0; clear_value x) | subst x)
    | intro _
    | lift_lets
    | with_reducible refine Touches.ite ?_ ?_
    | with_reducible apply Touches.step (Block.event_touches ..)
    | with_reducible apply Touches.step (Block.count_touches ..)
    | split
    | with_reducible refine Touches.snd (by assumption) ?_
    | with_reducible refine Touches.fst (by assumption) ?_
    | (clear_value *; split)
    | dsimp only

theorem Block.reqMaintenance_touches (b) (x1) (x2) : Touches [.free, .vis, .act, .com, .dirty, .resp, .rep, .cells, .poison, .evr, .sys, .tim, .aln, .que, .dfe, .prt, .out, .alm, .cmp, .cap, .red] b (Block.reqMaintenance b x1 x2) := by
  unfold Block.reqMaintenance
  repeat' first
    | with_reducible assumption
    | with_reducible exact Touches.refl
    | exact rfl
    | (intro x
       refine Touches.mid (show Touches [.free, .vis, .act, .com, .dirty, .resp, .rep, .cells, .poison, .evr, .sys, .tim, .aln, .que, .dfe, .prt, .out, .alm, .cmp, .cap, .red] b x from ?_) (fun h => ?_)
       all_goals first | (with_reducible have h0 : Touches [.free, .vis, .act, .com, .dirty, .resp, .rep, .cells, .poison, .evr, .sys, .tim, .aln, .que, .dfe, .prt, .out, .alm, .cmp, .cap, .red] b x := h; clear h0; clear_value x) | subst x)
    | intro _
    | lift_lets
    | with_reducible refine Touches.ite ?_ ?_
    | with_reducible apply Touches.step (Block.setMode_touches ..)
    | with_reducible apply Touches.step (Block.handoverStart_touches ..)
    | with_reducible apply Touches.step (Block.toStandby_touches ..)
    | with_reducible apply Touches.step (Block.ringsStop_touches ..)
    | with_reducible apply Touches.step (Block.serveStop_touches ..)
    | with_reducible apply Touches.step (Block.redSendBoth_touches ..)
    | with_reducible apply Touches.step (Block.modeRefused_touches ..)
    | ((with_reducible apply Touches.set_sys) <;> first | with_reducible assumption | with_reducible exact Touches.refl | exact rfl | with_reducible refine Touches.snd (by assumption) ?_)
    | split
    | with_reducible refine Touches.snd (by assumption) ?_
    | with_reducible refine Touches.fst (by assumption) ?_
    | (clear_value *; split)
    | dsimp only

theorem Block.reqActive_touches (b) (x1) : Touches [.free, .vis, .act, .com, .dirty, .resp, .rep, .cells, .poison, .evr, .sys, .tim, .aln, .que, .dfe, .prt, .out, .alm, .cmp, .cap, .red] b (Block.reqActive b x1) := by
  unfold Block.reqActive
  repeat' first
    | with_reducible assumption
    | with_reducible exact Touches.refl
    | exact rfl
    | (intro x
       refine Touches.mid (show Touches [.free, .vis, .act, .com, .dirty, .resp, .rep, .cells, .poison, .evr, .sys, .tim, .aln, .que, .dfe, .prt, .out, .alm, .cmp, .cap, .red] b x from ?_) (fun h => ?_)
       all_goals first | (with_reducible have h0 : Touches [.free, .vis, .act, .com, .dirty, .resp, .rep, .cells, .poison, .evr, .sys, .tim, .aln, .que, .dfe, .prt, .out, .alm, .cmp, .cap, .red] b x := h; clear h0; clear_value x) | subst x)
    | intro _
    | lift_lets
    | with_reducible refine Touches.ite ?_ ?_
    | with_reducible apply Touches.step (Block.setMode_touches ..)
    | with_reducible apply Touches.step (Block.redYield_touches ..)
    | with_reducible apply Touches.step (Block.modeRefused_touches ..)
    | split
    | with_reducible refine Touches.snd (by assumption) ?_
    | with_reducible refine Touches.fst (by assumption) ?_
    | (clear_value *; split)
    | dsimp only

theorem Block.reqDebug_touches (b) (x1) : Touches [.free, .vis, .act, .com, .dirty, .resp, .rep, .cells, .poison, .evr, .sys, .tim, .que, .prt, .out, .alm, .cap, .red] b (Block.reqDebug b x1) := by
  unfold Block.reqDebug
  repeat' first
    | with_reducible assumption
    | with_reducible exact Touches.refl
    | exact rfl
    | (intro x
       refine Touches.mid (show Touches [.free, .vis, .act, .com, .dirty, .resp, .rep, .cells, .poison, .evr, .sys, .tim, .que, .prt, .out, .alm, .cap, .red] b x from ?_) (fun h => ?_)
       all_goals first | (with_reducible have h0 : Touches [.free, .vis, .act, .com, .dirty, .resp, .rep, .cells, .poison, .evr, .sys, .tim, .que, .prt, .out, .alm, .cap, .red] b x := h; clear h0; clear_value x) | subst x)
    | intro _
    | lift_lets
    | with_reducible refine Touches.ite ?_ ?_
    | with_reducible apply Touches.step (Block.setMode_touches ..)
    | with_reducible apply Touches.step (Block.modeRefused_touches ..)
    | split
    | with_reducible refine Touches.snd (by assumption) ?_
    | with_reducible refine Touches.fst (by assumption) ?_
    | (clear_value *; split)
    | dsimp only

theorem Block.reqHalt_touches (b) (x1) : Touches [.free, .vis, .act, .com, .dirty, .resp, .rep, .cells, .poison, .evr, .sys, .pwr, .tim, .aln, .que, .prt, .out, .alm, .cap, .red] b (Block.reqHalt b x1) := by
  unfold Block.reqHalt
  repeat' first
    | with_reducible assumption
    | with_reducible exact Touches.refl
    | exact rfl
    | (intro x
       refine Touches.mid (show Touches [.free, .vis, .act, .com, .dirty, .resp, .rep, .cells, .poison, .evr, .sys, .pwr, .tim, .aln, .que, .prt, .out, .alm, .cap, .red] b x from ?_) (fun h => ?_)
       all_goals first | (with_reducible have h0 : Touches [.free, .vis, .act, .com, .dirty, .resp, .rep, .cells, .poison, .evr, .sys, .pwr, .tim, .aln, .que, .prt, .out, .alm, .cap, .red] b x := h; clear h0; clear_value x) | subst x)
    | intro _
    | lift_lets
    | with_reducible refine Touches.ite ?_ ?_
    | with_reducible apply Touches.step (Block.enterHalt_touches ..)
    | with_reducible apply Touches.step (Block.modeRefused_touches ..)
    | split
    | with_reducible refine Touches.snd (by assumption) ?_
    | with_reducible refine Touches.fst (by assumption) ?_
    | (clear_value *; split)
    | dsimp only

theorem Block.modeReq_touches (b) (x1) (x2) (x3) : Touches [.free, .vis, .act, .com, .dirty, .resp, .rep, .cells, .poison, .evr, .sys, .pwr, .tim, .aln, .que, .dfe, .prt, .out, .alm, .cmp, .cap, .red] b (Block.modeReq b x1 x2 x3) := by
  unfold Block.modeReq
  repeat' first
    | with_reducible assumption
    | with_reducible exact Touches.refl
    | exact rfl
    | (intro x
       refine Touches.mid (show Touches [.free, .vis, .act, .com, .dirty, .resp, .rep, .cells, .poison, .evr, .sys, .pwr, .tim, .aln, .que, .dfe, .prt, .out, .alm, .cmp, .cap, .red] b x from ?_) (fun h => ?_)
       all_goals first | (with_reducible have h0 : Touches [.free, .vis, .act, .com, .dirty, .resp, .rep, .cells, .poison, .evr, .sys, .pwr, .tim, .aln, .que, .dfe, .prt, .out, .alm, .cmp, .cap, .red] b x := h; clear h0; clear_value x) | subst x)
    | intro _
    | lift_lets
    | with_reducible refine Touches.ite ?_ ?_
    | with_reducible apply Touches.step (Block.reqActive_touches ..)
    | with_reducible apply Touches.step (Block.reqMaintenance_touches ..)
    | with_reducible apply Touches.step (Block.reqDebug_touches ..)
    | with_reducible apply Touches.step (Block.reqHalt_touches ..)
    | with_reducible apply Touches.step (Block.modeRefused_touches ..)
    | split
    | with_reducible refine Touches.snd (by assumption) ?_
    | with_reducible refine Touches.fst (by assumption) ?_
    | (clear_value *; split)
    | dsimp only

theorem Block.holdupEstimate_touches (b) (x1) : Touches [.free, .vis, .act, .com, .dirty, .resp, .rep, .cells, .poison, .evr, .sys, .pwr, .tim, .aln, .que, .dfe, .prt, .out, .alm, .cmp, .cap, .red] b (Block.holdupEstimate b x1) := by
  unfold Block.holdupEstimate
  repeat' first
    | with_reducible assumption
    | with_reducible exact Touches.refl
    | exact rfl
    | (intro x
       refine Touches.mid (show Touches [.free, .vis, .act, .com, .dirty, .resp, .rep, .cells, .poison, .evr, .sys, .pwr, .tim, .aln, .que, .dfe, .prt, .out, .alm, .cmp, .cap, .red] b x from ?_) (fun h => ?_)
       all_goals first | (with_reducible have h0 : Touches [.free, .vis, .act, .com, .dirty, .resp, .rep, .cells, .poison, .evr, .sys, .pwr, .tim, .aln, .que, .dfe, .prt, .out, .alm, .cmp, .cap, .red] b x := h; clear h0; clear_value x) | subst x)
    | intro _
    | lift_lets
    | with_reducible refine Touches.ite ?_ ?_
    | with_reducible apply Touches.step (Block.event_touches ..)
    | with_reducible apply Touches.step (Block.irq_touches ..)
    | with_reducible apply Touches.step (Block.degrade_touches ..)
    | with_reducible apply Touches.step (Block.undegrade_touches ..)
    | ((with_reducible apply Touches.set_pwr) <;> first | with_reducible assumption | with_reducible exact Touches.refl | exact rfl | with_reducible refine Touches.snd (by assumption) ?_)
    | split
    | with_reducible refine Touches.snd (by assumption) ?_
    | with_reducible refine Touches.fst (by assumption) ?_
    | (clear_value *; split)
    | dsimp only

theorem Block.holdupResult_touches (b) (x1) (x2) (x3) : Touches [.free, .vis, .act, .com, .dirty, .resp, .rep, .cells, .poison, .evr, .sys, .pwr, .tim, .aln, .que, .dfe, .prt, .out, .alm, .cmp, .cap, .red] b (Block.holdupResult b x1 x2 x3) := by
  unfold Block.holdupResult
  repeat' first
    | with_reducible assumption
    | with_reducible exact Touches.refl
    | exact rfl
    | (intro x
       refine Touches.mid (show Touches [.free, .vis, .act, .com, .dirty, .resp, .rep, .cells, .poison, .evr, .sys, .pwr, .tim, .aln, .que, .dfe, .prt, .out, .alm, .cmp, .cap, .red] b x from ?_) (fun h => ?_)
       all_goals first | (with_reducible have h0 : Touches [.free, .vis, .act, .com, .dirty, .resp, .rep, .cells, .poison, .evr, .sys, .pwr, .tim, .aln, .que, .dfe, .prt, .out, .alm, .cmp, .cap, .red] b x := h; clear h0; clear_value x) | subst x)
    | intro _
    | lift_lets
    | with_reducible refine Touches.ite ?_ ?_
    | with_reducible apply Touches.step (Block.holdupEstimate_touches ..)
    | with_reducible apply Touches.step (Block.draw_touches ..)
    | ((with_reducible apply Touches.set_pwr) <;> first | with_reducible assumption | with_reducible exact Touches.refl | exact rfl | with_reducible refine Touches.snd (by assumption) ?_)
    | split
    | with_reducible refine Touches.snd (by assumption) ?_
    | with_reducible refine Touches.fst (by assumption) ?_
    | (clear_value *; split)
    | dsimp only

theorem Block.holdupTest_touches (b) : Touches [.vis, .pwr] b (Block.holdupTest b) := by
  unfold Block.holdupTest
  repeat' first
    | with_reducible assumption
    | with_reducible exact Touches.refl
    | exact rfl
    | (intro x
       refine Touches.mid (show Touches [.vis, .pwr] b x from ?_) (fun h => ?_)
       all_goals first | (with_reducible have h0 : Touches [.vis, .pwr] b x := h; clear h0; clear_value x) | subst x)
    | intro _
    | lift_lets
    | with_reducible refine Touches.ite ?_ ?_
    | with_reducible apply Touches.step (Block.count_touches ..)
    | ((with_reducible apply Touches.set_pwr) <;> first | with_reducible assumption | with_reducible exact Touches.refl | exact rfl | with_reducible refine Touches.snd (by assumption) ?_)
    | split
    | with_reducible refine Touches.snd (by assumption) ?_
    | with_reducible refine Touches.fst (by assumption) ?_
    | (clear_value *; split)
    | dsimp only

theorem Block.holdupTestDone_touches (b) (x1) (x2) (x3) : Touches [.free, .vis, .act, .com, .dirty, .resp, .rep, .cells, .poison, .evr, .sys, .pwr, .tim, .aln, .que, .dfe, .prt, .out, .alm, .cmp, .cap, .red] b (Block.holdupTestDone b x1 x2 x3) := by
  unfold Block.holdupTestDone
  repeat' first
    | with_reducible assumption
    | with_reducible exact Touches.refl
    | exact rfl
    | (intro x
       refine Touches.mid (show Touches [.free, .vis, .act, .com, .dirty, .resp, .rep, .cells, .poison, .evr, .sys, .pwr, .tim, .aln, .que, .dfe, .prt, .out, .alm, .cmp, .cap, .red] b x from ?_) (fun h => ?_)
       all_goals first | (with_reducible have h0 : Touches [.free, .vis, .act, .com, .dirty, .resp, .rep, .cells, .poison, .evr, .sys, .pwr, .tim, .aln, .que, .dfe, .prt, .out, .alm, .cmp, .cap, .red] b x := h; clear h0; clear_value x) | subst x)
    | intro _
    | lift_lets
    | with_reducible refine Touches.ite ?_ ?_
    | with_reducible apply Touches.step (Block.holdupResult_touches ..)
    | ((with_reducible apply Touches.set_pwr) <;> first | with_reducible assumption | with_reducible exact Touches.refl | exact rfl | with_reducible refine Touches.snd (by assumption) ?_)
    | split
    | with_reducible refine Touches.snd (by assumption) ?_
    | with_reducible refine Touches.fst (by assumption) ?_
    | (clear_value *; split)
    | dsimp only

theorem Block.powerFail_touches (b) : Touches [.free, .vis, .act, .com, .dirty, .resp, .rep, .cells, .poison, .evr, .sys, .pwr, .tim, .que, .prt, .out, .cas, .alm, .nrg, .cap, .red] b (Block.powerFail b) := by
  unfold Block.powerFail
  repeat' first
    | with_reducible assumption
    | with_reducible exact Touches.refl
    | exact rfl
    | (intro x
       refine Touches.mid (show Touches [.free, .vis, .act, .com, .dirty, .resp, .rep, .cells, .poison, .evr, .sys, .pwr, .tim, .que, .prt, .out, .cas, .alm, .nrg, .cap, .red] b x from ?_) (fun h => ?_)
       all_goals first | (with_reducible have h0 : Touches [.free, .vis, .act, .com, .dirty, .resp, .rep, .cells, .poison, .evr, .sys, .pwr, .tim, .que, .prt, .out, .cas, .alm, .nrg, .cap, .red] b x := h; clear h0; clear_value x) | subst x)
    | intro _
    | lift_lets
    | with_reducible refine Touches.ite ?_ ?_
    | with_reducible apply Touches.step (Block.count_touches ..)
    | with_reducible apply Touches.step (Block.enterSave_touches ..)
    | with_reducible apply Touches.step (Block.event_touches ..)
    | with_reducible apply Touches.step (Block.irq_touches ..)
    | with_reducible apply Touches.step (Block.freezeEnds_touches ..)
    | ((with_reducible apply Touches.set_pwr) <;> first | with_reducible assumption | with_reducible exact Touches.refl | exact rfl | with_reducible refine Touches.snd (by assumption) ?_)
    | split
    | with_reducible refine Touches.snd (by assumption) ?_
    | with_reducible refine Touches.fst (by assumption) ?_
    | (clear_value *; split)
    | dsimp only

theorem Block.tempSample_touches (b) (x1) : Touches [.free, .vis, .act, .com, .dirty, .resp, .rep, .cells, .poison, .evr, .sys, .pwr, .tim, .que, .prt, .out, .cas, .alm, .nrg, .cap, .red] b (Block.tempSample b x1) := by
  unfold Block.tempSample
  repeat' first
    | with_reducible assumption
    | with_reducible exact Touches.refl
    | exact rfl
    | (intro x
       refine Touches.mid (show Touches [.free, .vis, .act, .com, .dirty, .resp, .rep, .cells, .poison, .evr, .sys, .pwr, .tim, .que, .prt, .out, .cas, .alm, .nrg, .cap, .red] b x from ?_) (fun h => ?_)
       all_goals first | (with_reducible have h0 : Touches [.free, .vis, .act, .com, .dirty, .resp, .rep, .cells, .poison, .evr, .sys, .pwr, .tim, .que, .prt, .out, .cas, .alm, .nrg, .cap, .red] b x := h; clear h0; clear_value x) | subst x)
    | intro _
    | lift_lets
    | with_reducible refine Touches.ite ?_ ?_
    | with_reducible apply Touches.step (Block.freezeEnds_touches ..)
    | with_reducible apply Touches.step (Block.event_touches ..)
    | with_reducible apply Touches.step (Block.irq_touches ..)
    | with_reducible apply Touches.step (Block.count_touches ..)
    | with_reducible apply Touches.step (Block.enterSave_touches ..)
    | ((with_reducible apply Touches.set_pwr) <;> first | with_reducible assumption | with_reducible exact Touches.refl | exact rfl | with_reducible refine Touches.snd (by assumption) ?_)
    | split
    | with_reducible refine Touches.snd (by assumption) ?_
    | with_reducible refine Touches.fst (by assumption) ?_
    | with_reducible refine Touches.getD (fun _ _ => ?_) ?_
    | (clear_value *; split)
    | dsimp only

theorem Block.supplyGood_touches (b) (x1) : Touches [.pwr] b (Block.supplyGood b x1) := by
  unfold Block.supplyGood
  repeat' first
    | with_reducible assumption
    | with_reducible exact Touches.refl
    | exact rfl
    | (intro x
       refine Touches.mid (show Touches [.pwr] b x from ?_) (fun h => ?_)
       all_goals first | (with_reducible have h0 : Touches [.pwr] b x := h; clear h0; clear_value x) | subst x)
    | intro _
    | lift_lets
    | with_reducible refine Touches.ite ?_ ?_
    | ((with_reducible apply Touches.set_pwr) <;> first | with_reducible assumption | with_reducible exact Touches.refl | exact rfl | with_reducible refine Touches.snd (by assumption) ?_)
    | split
    | with_reducible refine Touches.snd (by assumption) ?_
    | with_reducible refine Touches.fst (by assumption) ?_
    | (clear_value *; split)
    | dsimp only

theorem Block.loadComplete_touches (b) : Touches [.free, .vis, .act, .com, .dirty, .resp, .rep, .cells, .poison, .evr, .sys, .tim, .que, .prt, .out, .alm, .cap, .red] b (Block.loadComplete b) := by
  unfold Block.loadComplete
  repeat' first
    | with_reducible assumption
    | with_reducible exact Touches.refl
    | exact rfl
    | (intro x
       refine Touches.mid (show Touches [.free, .vis, .act, .com, .dirty, .resp, .rep, .cells, .poison, .evr, .sys, .tim, .que, .prt, .out, .alm, .cap, .red] b x from ?_) (fun h => ?_)
       all_goals first | (with_reducible have h0 : Touches [.free, .vis, .act, .com, .dirty, .resp, .rep, .cells, .poison, .evr, .sys, .tim, .que, .prt, .out, .alm, .cap, .red] b x := h; clear h0; clear_value x) | subst x)
    | intro _
    | lift_lets
    | with_reducible refine Touches.ite ?_ ?_
    | with_reducible apply Touches.step (Block.setMode_touches ..)
    | ((with_reducible apply Touches.set_sys) <;> first | with_reducible assumption | with_reducible exact Touches.refl | exact rfl | with_reducible refine Touches.snd (by assumption) ?_)
    | split
    | with_reducible refine Touches.snd (by assumption) ?_
    | with_reducible refine Touches.fst (by assumption) ?_
    | (clear_value *; split)
    | dsimp only

theorem Block.march_touches (b) (x1) : Touches [.free, .vis, .rep, .cells, .poison, .evr, .mm] b (Block.march b x1).2 := by
  unfold Block.march
  repeat' first
    | with_reducible assumption
    | with_reducible exact Touches.refl
    | exact rfl
    | (intro x
       refine Touches.mid (show Touches [.free, .vis, .rep, .cells, .poison, .evr, .mm] b x from ?_) (fun h => ?_)
       all_goals first | (with_reducible have h0 : Touches [.free, .vis, .rep, .cells, .poison, .evr, .mm] b x := h; clear h0; clear_value x) | subst x)
    | intro _
    | lift_lets
    | with_reducible refine Touches.ite ?_ ?_
    | with_reducible apply Touches.step (Block.remap_touches ..)
    | with_reducible refine Touches.fold ?_ (fun _ _ _ => ?_)
    | split
    | with_reducible refine Touches.snd (by assumption) ?_
    | with_reducible refine Touches.fst (by assumption) ?_
    | with_reducible refine Touches.fold1 ?_ (fun _ _ _ => ?_)
    | with_reducible refine Touches.fold2 ?_ (fun _ _ _ => ?_)
    | (clear_value *; split)
    | dsimp only

theorem Block.exclude_touches (b) (x1) : Touches [.free, .vis, .act, .com, .dirty, .resp, .rep, .cells, .poison, .evr, .sys, .tim, .aln, .dma, .que, .dfe, .prt, .out, .alm, .cmp, .cap, .red] b (Block.exclude b x1) := by
  unfold Block.exclude
  repeat' first
    | with_reducible assumption
    | with_reducible exact Touches.refl
    | exact rfl
    | (intro x
       refine Touches.mid (show Touches [.free, .vis, .act, .com, .dirty, .resp, .rep, .cells, .poison, .evr, .sys, .tim, .aln, .dma, .que, .dfe, .prt, .out, .alm, .cmp, .cap, .red] b x from ?_) (fun h => ?_)
       all_goals first | (with_reducible have h0 : Touches [.free, .vis, .act, .com, .dirty, .resp, .rep, .cells, .poison, .evr, .sys, .tim, .aln, .dma, .que, .dfe, .prt, .out, .alm, .cmp, .cap, .red] b x := h; clear h0; clear_value x) | subst x)
    | intro _
    | lift_lets
    | with_reducible refine Touches.ite ?_ ?_
    | with_reducible apply Touches.step (Block.leavePool_touches ..)
    | with_reducible apply Touches.step (Block.degrade_touches ..)
    | ((with_reducible apply Touches.set_dma) <;> first | with_reducible assumption | with_reducible exact Touches.refl | exact rfl | with_reducible refine Touches.snd (by assumption) ?_)
    | with_reducible refine Touches.fold ?_ (fun _ _ _ => ?_)
    | split
    | with_reducible refine Touches.snd (by assumption) ?_
    | with_reducible refine Touches.fst (by assumption) ?_
    | with_reducible refine Touches.fold1 ?_ (fun _ _ _ => ?_)
    | with_reducible refine Touches.fold2 ?_ (fun _ _ _ => ?_)
    | (clear_value *; split)
    | dsimp only

theorem Block.selftestDone_touches (b) (x1) : Touches [.free, .vis, .act, .com, .dirty, .resp, .rep, .cells, .poison, .evr, .sys, .pwr, .tim, .aln, .mm, .dma, .que, .dfe, .prt, .out, .cas, .rpl, .isl, .alm, .cmp, .sdm, .nrg, .cap, .red] b (Block.selftestDone b x1) := by
  unfold Block.selftestDone
  repeat' first
    | with_reducible assumption
    | with_reducible exact Touches.refl
    | exact rfl
    | (intro x
       refine Touches.mid (show Touches [.free, .vis, .act, .com, .dirty, .resp, .rep, .cells, .poison, .evr, .sys, .pwr, .tim, .aln, .mm, .dma, .que, .dfe, .prt, .out, .cas, .rpl, .isl, .alm, .cmp, .sdm, .nrg, .cap, .red] b x from ?_) (fun h => ?_)
       all_goals first | (with_reducible have h0 : Touches [.free, .vis, .act, .com, .dirty, .resp, .rep, .cells, .poison, .evr, .sys, .pwr, .tim, .aln, .mm, .dma, .que, .dfe, .prt, .out, .cas, .rpl, .isl, .alm, .cmp, .sdm, .nrg, .cap, .red] b x := h; clear h0; clear_value x) | subst x)
    | intro _
    | lift_lets
    | with_reducible refine Touches.ite ?_ ?_
    | with_reducible apply Touches.step (Block.march_touches ..)
    | with_reducible apply Touches.step (Block.event_touches ..)
    | with_reducible apply Touches.step (Block.holdupResult_touches ..)
    | with_reducible apply Touches.step (Block.count_touches ..)
    | with_reducible apply Touches.step (Block.enterHalt_touches ..)
    | with_reducible apply Touches.step (Block.ringsStart_touches ..)
    | with_reducible apply Touches.step (Block.setMode_touches ..)
    | with_reducible apply Touches.step (Block.exclude_touches ..)
    | ((with_reducible apply Touches.set_sys) <;> first | with_reducible assumption | with_reducible exact Touches.refl | exact rfl | with_reducible refine Touches.snd (by assumption) ?_)
    | with_reducible refine Touches.fold ?_ (fun _ _ _ => ?_)
    | split
    | with_reducible refine Touches.snd (by assumption) ?_
    | with_reducible refine Touches.fst (by assumption) ?_
    | with_reducible refine Touches.fold1 ?_ (fun _ _ _ => ?_)
    | with_reducible refine Touches.fold2 ?_ (fun _ _ _ => ?_)
    | (clear_value *; split)
    | dsimp only

end Sys2Proof.Machine
end

