-- ==== Sys2Proof/Laws/TouchDmaOps.lean ====
section
/-! SUPPORT. What the operations of Machine/DmaOps.lean touch. -/

namespace Sys2Proof.Machine

set_option linter.all false

theorem Block.setDmaCh_touches (b) (x1) (x2) : Touches [.dma] b (Block.setDmaCh b x1 x2) := by
  unfold Block.setDmaCh
  repeat' first
    | with_reducible assumption
    | with_reducible exact Touches.refl
    | exact rfl
    | (intro x
       refine Touches.mid (show Touches [.dma] b x from ?_) (fun h => ?_)
       all_goals first | (with_reducible have h0 : Touches [.dma] b x := h; clear h0; clear_value x) | subst x)
    | intro _
    | lift_lets
    | with_reducible refine Touches.ite ?_ ?_
    | ((with_reducible apply Touches.set_dma) <;> first | with_reducible assumption | with_reducible exact Touches.refl | exact rfl | with_reducible refine Touches.snd (by assumption) ?_)
    | split
    | with_reducible refine Touches.snd (by assumption) ?_
    | with_reducible refine Touches.fst (by assumption) ?_
    | (clear_value *; split)
    | dsimp only

theorem Block.setRunning_touches (b) (x1) (x2) : Touches [.dma] b (Block.setRunning b x1 x2) := by
  unfold Block.setRunning
  repeat' first
    | with_reducible assumption
    | with_reducible exact Touches.refl
    | exact rfl
    | (intro x
       refine Touches.mid (show Touches [.dma] b x from ?_) (fun h => ?_)
       all_goals first | (with_reducible have h0 : Touches [.dma] b x := h; clear h0; clear_value x) | subst x)
    | intro _
    | lift_lets
    | with_reducible refine Touches.ite ?_ ?_
    | ((with_reducible apply Touches.set_dma) <;> first | with_reducible assumption | with_reducible exact Touches.refl | exact rfl | with_reducible refine Touches.snd (by assumption) ?_)
    | split
    | with_reducible refine Touches.snd (by assumption) ?_
    | with_reducible refine Touches.fst (by assumption) ?_
    | (clear_value *; split)
    | dsimp only

theorem Block.dmaEvent_touches (b) (x1) (x2) : Touches [.vis, .evr] b (Block.dmaEvent b x1 x2) := by
  unfold Block.dmaEvent
  repeat' first
    | with_reducible assumption
    | with_reducible exact Touches.refl
    | exact rfl
    | (intro x
       refine Touches.mid (show Touches [.vis, .evr] b x from ?_) (fun h => ?_)
       all_goals first | (with_reducible have h0 : Touches [.vis, .evr] b x := h; clear h0; clear_value x) | subst x)
    | intro _
    | lift_lets
    | with_reducible refine Touches.ite ?_ ?_
    | with_reducible apply Touches.step (Block.event_touches ..)
    | split
    | with_reducible refine Touches.snd (by assumption) ?_
    | with_reducible refine Touches.fst (by assumption) ?_
    | (clear_value *; split)
    | dsimp only

theorem Block.dmaStart_touches (b) (x1) : Touches [.vis, .dma] b (Block.dmaStart b x1) := by
  unfold Block.dmaStart
  repeat' first
    | with_reducible assumption
    | with_reducible exact Touches.refl
    | exact rfl
    | (intro x
       refine Touches.mid (show Touches [.vis, .dma] b x from ?_) (fun h => ?_)
       all_goals first | (with_reducible have h0 : Touches [.vis, .dma] b x := h; clear h0; clear_value x) | subst x)
    | intro _
    | lift_lets
    | with_reducible refine Touches.ite ?_ ?_
    | with_reducible apply Touches.step (Block.setDmaCh_touches ..)
    | with_reducible apply Touches.step (Block.count_touches ..)
    | split
    | with_reducible refine Touches.snd (by assumption) ?_
    | with_reducible refine Touches.fst (by assumption) ?_
    | (clear_value *; split)
    | dsimp only

theorem Block.dmaCommit_touches (b) (x1) : Touches [.com, .dirty] b (Block.dmaCommit b x1) := by
  unfold Block.dmaCommit
  exact Touches.refl.mk' _ ⟨rfl, fun p hp => by cases p <;> first | rfl | cases hp⟩

theorem Block.dmaClearHalt_touches (b) (x1) : Touches [.dma] b (Block.dmaClearHalt b x1) := by
  unfold Block.dmaClearHalt
  repeat' first
    | with_reducible assumption
    | with_reducible exact Touches.refl
    | exact rfl
    | (intro x
       refine Touches.mid (show Touches [.dma] b x from ?_) (fun h => ?_)
       all_goals first | (with_reducible have h0 : Touches [.dma] b x := h; clear h0; clear_value x) | subst x)
    | intro _
    | lift_lets
    | with_reducible refine Touches.ite ?_ ?_
    | with_reducible apply Touches.step (Block.setDmaCh_touches ..)
    | split
    | with_reducible refine Touches.snd (by assumption) ?_
    | with_reducible refine Touches.fst (by assumption) ?_
    | (clear_value *; split)
    | dsimp only

theorem Block.dmaGuard_touches {l : List Part} (b : Block) (c : Nat) (f : Block → Block) (s : Parts.sub [.vis] l = true)
    (k : Touches l b (f b)) : Touches l b (b.dmaGuard c f) := by
  unfold Block.dmaGuard
  exact Touches.ite ((Block.count_touches ..).weaken s) k

theorem Block.dmaCmd_touches (b) (x1) (x2) : Touches [.vis, .com, .dirty, .dma] b (Block.dmaCmd b x1 x2) := by
  unfold Block.dmaCmd
  repeat' first
    | with_reducible assumption
    | with_reducible exact Touches.refl
    | exact rfl
    | (intro x
       refine Touches.mid (show Touches [.vis, .com, .dirty, .dma] b x from ?_) (fun h => ?_)
       all_goals first | (with_reducible have h0 : Touches [.vis, .com, .dirty, .dma] b x := h; clear h0; clear_value x) | subst x)
    | intro _
    | lift_lets
    | with_reducible refine Touches.ite ?_ ?_
    | with_reducible refine Touches.trans ?_ (Block.dmaGuard_touches (l := [.vis, .com, .dirty, .dma]) _ _ _ rfl ?_) ?_
    | with_reducible apply Touches.step (Block.dmaClearHalt_touches ..)
    | with_reducible apply Touches.step (Block.dmaCommit_touches ..)
    | with_reducible apply Touches.step (Block.dmaStart_touches ..)
    | split
    | with_reducible refine Touches.snd (by assumption) ?_
    | with_reducible refine Touches.fst (by assumption) ?_
    | (clear_value *; split)
    | dsimp only

theorem Block.dmaFail_touches (b) (x1) (x2) (x3) : Touches [.vis, .dma] b (Block.dmaFail b x1 x2 x3) := by
  unfold Block.dmaFail
  repeat' first
    | with_reducible assumption
    | with_reducible exact Touches.refl
    | exact rfl
    | (intro x
       refine Touches.mid (show Touches [.vis, .dma] b x from ?_) (fun h => ?_)
       all_goals first | (with_reducible have h0 : Touches [.vis, .dma] b x := h; clear h0; clear_value x) | subst x)
    | intro _
    | lift_lets
    | with_reducible refine Touches.ite ?_ ?_
    | with_reducible apply Touches.step (Block.count_touches ..)
    | with_reducible apply Touches.step (Block.setDmaCh_touches ..)
    | split
    | with_reducible refine Touches.snd (by assumption) ?_
    | with_reducible refine Touches.fst (by assumption) ?_
    | (clear_value *; split)
    | dsimp only

theorem Block.dmaTake_touches (b) (x1) : Touches [.act, .com, .dirty] b (Block.dmaTake b x1) := by
  unfold Block.dmaTake
  repeat' first
    | with_reducible assumption
    | with_reducible exact Touches.refl
    | exact rfl
    | (intro x
       refine Touches.mid (show Touches [.act, .com, .dirty] b x from ?_) (fun h => ?_)
       all_goals first | (with_reducible have h0 : Touches [.act, .com, .dirty] b x := h; clear h0; clear_value x) | subst x)
    | intro _
    | lift_lets
    | with_reducible refine Touches.ite ?_ ?_
    | with_reducible apply Touches.step (Block.handedOver_touches ..)
    | with_reducible apply Touches.step (Block.adopt_touches ..)
    | with_reducible apply Touches.step (Block.dropCom_touches ..)
    | split
    | with_reducible refine Touches.snd (by assumption) ?_
    | with_reducible refine Touches.fst (by assumption) ?_
    | (clear_value *; split)
    | dsimp only

theorem Block.unstall_touches (b) (x1) : Touches [.que] b (Block.unstall b x1) := by
  unfold Block.unstall
  repeat' first
    | with_reducible assumption
    | with_reducible exact Touches.refl
    | exact rfl
    | (intro x
       refine Touches.mid (show Touches [.que] b x from ?_) (fun h => ?_)
       all_goals first | (with_reducible have h0 : Touches [.que] b x := h; clear h0; clear_value x) | subst x)
    | intro _
    | lift_lets
    | with_reducible refine Touches.ite ?_ ?_
    | ((with_reducible apply Touches.set_que) <;> first | with_reducible assumption | with_reducible exact Touches.refl | exact rfl | with_reducible refine Touches.snd (by assumption) ?_)
    | split
    | with_reducible refine Touches.snd (by assumption) ?_
    | with_reducible refine Touches.fst (by assumption) ?_
    | (clear_value *; split)
    | dsimp only

theorem Block.dmaRun_touches (b) (x1) : Touches [.vis, .act, .com, .dirty, .evr, .dma] b (Block.dmaRun b x1) := by
  unfold Block.dmaRun
  repeat' first
    | with_reducible assumption
    | with_reducible exact Touches.refl
    | exact rfl
    | (intro x
       refine Touches.mid (show Touches [.vis, .act, .com, .dirty, .evr, .dma] b x from ?_) (fun h => ?_)
       all_goals first | (with_reducible have h0 : Touches [.vis, .act, .com, .dirty, .evr, .dma] b x := h; clear h0; clear_value x) | subst x)
    | intro _
    | lift_lets
    | with_reducible refine Touches.ite ?_ ?_
    | with_reducible apply Touches.step (Block.dmaTake_touches ..)
    | with_reducible apply Touches.step (Block.dmaFail_touches ..)
    | with_reducible apply Touches.step (Block.dmaEvent_touches ..)
    | with_reducible apply Touches.step (Block.irq_touches ..)
    | with_reducible apply Touches.step (Block.setRunning_touches ..)
    | with_reducible apply Touches.step (Block.setDmaCh_touches ..)
    | split
    | with_reducible refine Touches.snd (by assumption) ?_
    | with_reducible refine Touches.fst (by assumption) ?_
    | (clear_value *; split)
    | dsimp only

theorem Block.dmaFreezeCh_touches (b) (x1) : Touches [.vis, .dma, .que] b (Block.dmaFreezeCh b x1) := by
  unfold Block.dmaFreezeCh
  repeat' first
    | with_reducible assumption
    | with_reducible exact Touches.refl
    | exact rfl
    | (intro x
       refine Touches.mid (show Touches [.vis, .dma, .que] b x from ?_) (fun h => ?_)
       all_goals first | (with_reducible have h0 : Touches [.vis, .dma, .que] b x := h; clear h0; clear_value x) | subst x)
    | intro _
    | lift_lets
    | with_reducible refine Touches.ite ?_ ?_
    | with_reducible apply Touches.step (Block.count_touches ..)
    | with_reducible apply Touches.step (Block.unstall_touches ..)
    | with_reducible apply Touches.step (Block.setRunning_touches ..)
    | with_reducible apply Touches.step (Block.setDmaCh_touches ..)
    | split
    | with_reducible refine Touches.snd (by assumption) ?_
    | with_reducible refine Touches.fst (by assumption) ?_
    | (clear_value *; split)
    | dsimp only

theorem Block.dmaFreeze_touches (b) (x1) : Touches [.free, .vis, .act, .com, .dirty, .resp, .rep, .cells, .poison, .evr, .sys, .tim, .aln, .dma, .que, .dfe, .prt, .out, .alm, .cmp, .cap, .red] b (Block.dmaFreeze b x1) := by
  unfold Block.dmaFreeze
  repeat' first
    | with_reducible assumption
    | with_reducible exact Touches.refl
    | exact rfl
    | (intro x
       refine Touches.mid (show Touches [.free, .vis, .act, .com, .dirty, .resp, .rep, .cells, .poison, .evr, .sys, .tim, .aln, .dma, .que, .dfe, .prt, .out, .alm, .cmp, .cap, .red] b x from ?_) (fun h => ?_)
       all_goals first | (with_reducible have h0 : Touches [.free, .vis, .act, .com, .dirty, .resp, .rep, .cells, .poison, .evr, .sys, .tim, .aln, .dma, .que, .dfe, .prt, .out, .alm, .cmp, .cap, .red] b x := h; clear h0; clear_value x) | subst x)
    | intro _
    | lift_lets
    | with_reducible refine Touches.ite ?_ ?_
    | with_reducible apply Touches.step (Block.dmaEvent_touches ..)
    | with_reducible apply Touches.step (Block.dmaFreezeCh_touches ..)
    | with_reducible apply Touches.step (Block.degrade_touches ..)
    | ((with_reducible apply Touches.set_dma) <;> first | with_reducible assumption | with_reducible exact Touches.refl | exact rfl | with_reducible refine Touches.snd (by assumption) ?_)
    | split
    | with_reducible refine Touches.snd (by assumption) ?_
    | with_reducible refine Touches.fst (by assumption) ?_
    | (clear_value *; split)
    | dsimp only

theorem Block.dmaIdle_touches (b) (x1) : Touches [.dma] b (Block.dmaIdle b x1) := by
  unfold Block.dmaIdle
  repeat' first
    | with_reducible assumption
    | with_reducible exact Touches.refl
    | exact rfl
    | (intro x
       refine Touches.mid (show Touches [.dma] b x from ?_) (fun h => ?_)
       all_goals first | (with_reducible have h0 : Touches [.dma] b x := h; clear h0; clear_value x) | subst x)
    | intro _
    | lift_lets
    | with_reducible refine Touches.ite ?_ ?_
    | with_reducible apply Touches.step (Block.setDmaCh_touches ..)
    | split
    | with_reducible refine Touches.snd (by assumption) ?_
    | with_reducible refine Touches.fst (by assumption) ?_
    | (clear_value *; split)
    | dsimp only

theorem Block.dmaClearCause_touches (b) : Touches [.free, .vis, .act, .com, .dirty, .resp, .rep, .cells, .poison, .evr, .sys, .tim, .que, .prt, .out, .alm, .cap, .red] b (Block.dmaClearCause b) := by
  unfold Block.dmaClearCause
  repeat' first
    | with_reducible assumption
    | with_reducible exact Touches.refl
    | exact rfl
    | (intro x
       refine Touches.mid (show Touches [.free, .vis, .act, .com, .dirty, .resp, .rep, .cells, .poison, .evr, .sys, .tim, .que, .prt, .out, .alm, .cap, .red] b x from ?_) (fun h => ?_)
       all_goals first | (with_reducible have h0 : Touches [.free, .vis, .act, .com, .dirty, .resp, .rep, .cells, .poison, .evr, .sys, .tim, .que, .prt, .out, .alm, .cap, .red] b x := h; clear h0; clear_value x) | subst x)
    | intro _
    | lift_lets
    | with_reducible refine Touches.ite ?_ ?_
    | with_reducible apply Touches.step (Block.undegrade_touches ..)
    | split
    | with_reducible refine Touches.snd (by assumption) ?_
    | with_reducible refine Touches.fst (by assumption) ?_
    | (clear_value *; split)
    | dsimp only

theorem Block.dmaThaw_touches (b) (x1) : Touches [.free, .vis, .act, .com, .dirty, .resp, .rep, .cells, .poison, .evr, .sys, .tim, .dma, .que, .prt, .out, .alm, .cap, .red] b (Block.dmaThaw b x1) := by
  unfold Block.dmaThaw
  repeat' first
    | with_reducible assumption
    | with_reducible exact Touches.refl
    | exact rfl
    | (intro x
       refine Touches.mid (show Touches [.free, .vis, .act, .com, .dirty, .resp, .rep, .cells, .poison, .evr, .sys, .tim, .dma, .que, .prt, .out, .alm, .cap, .red] b x from ?_) (fun h => ?_)
       all_goals first | (with_reducible have h0 : Touches [.free, .vis, .act, .com, .dirty, .resp, .rep, .cells, .poison, .evr, .sys, .tim, .dma, .que, .prt, .out, .alm, .cap, .red] b x := h; clear h0; clear_value x) | subst x)
    | intro _
    | lift_lets
    | with_reducible refine Touches.ite ?_ ?_
    | with_reducible apply Touches.step (Block.dmaClearCause_touches ..)
    | with_reducible apply Touches.step (Block.dmaIdle_touches ..)
    | ((with_reducible apply Touches.set_dma) <;> first | with_reducible assumption | with_reducible exact Touches.refl | exact rfl | with_reducible refine Touches.snd (by assumption) ?_)
    | with_reducible refine Touches.fold ?_ (fun _ _ _ => ?_)
    | split
    | with_reducible refine Touches.snd (by assumption) ?_
    | with_reducible refine Touches.fst (by assumption) ?_
    | with_reducible refine Touches.fold1 ?_ (fun _ _ _ => ?_)
    | with_reducible refine Touches.fold2 ?_ (fun _ _ _ => ?_)
    | (clear_value *; split)
    | dsimp only

theorem Block.dmaBusError_touches (b) (x1) (x2) : Touches [.vis, .evr, .dma] b (Block.dmaBusError b x1 x2) := by
  unfold Block.dmaBusError
  repeat' first
    | with_reducible assumption
    | with_reducible exact Touches.refl
    | exact rfl
    | (intro x
       refine Touches.mid (show Touches [.vis, .evr, .dma] b x from ?_) (fun h => ?_)
       all_goals first | (with_reducible have h0 : Touches [.vis, .evr, .dma] b x := h; clear h0; clear_value x) | subst x)
    | intro _
    | lift_lets
    | with_reducible refine Touches.ite ?_ ?_
    | with_reducible apply Touches.step (Block.dmaEvent_touches ..)
    | with_reducible apply Touches.step (Block.count_touches ..)
    | with_reducible apply Touches.step (Block.setRunning_touches ..)
    | with_reducible apply Touches.step (Block.setDmaCh_touches ..)
    | split
    | with_reducible refine Touches.snd (by assumption) ?_
    | with_reducible refine Touches.fst (by assumption) ?_
    | (clear_value *; split)
    | dsimp only

theorem Block.dmaDone_touches (b) (x1) (x2) (x3) : Touches [.vis, .resp, .rep, .poison, .evr, .dma, .que] b (Block.dmaDone b x1 x2 x3) := by
  unfold Block.dmaDone
  repeat' first
    | with_reducible assumption
    | with_reducible exact Touches.refl
    | exact rfl
    | (intro x
       refine Touches.mid (show Touches [.vis, .resp, .rep, .poison, .evr, .dma, .que] b x from ?_) (fun h => ?_)
       all_goals first | (with_reducible have h0 : Touches [.vis, .resp, .rep, .poison, .evr, .dma, .que] b x := h; clear h0; clear_value x) | subst x)
    | intro _
    | lift_lets
    | with_reducible refine Touches.ite ?_ ?_
    | with_reducible apply Touches.step (Block.setRunning_touches ..)
    | with_reducible apply Touches.step (Block.setDmaCh_touches ..)
    | with_reducible apply Touches.step (Block.count_touches ..)
    | with_reducible apply Touches.step (Block.dmaEvent_touches ..)
    | with_reducible apply Touches.step (Block.push_touches ..)
    | with_reducible apply Touches.step (Block.irq_touches ..)
    | split
    | with_reducible refine Touches.snd (by assumption) ?_
    | with_reducible refine Touches.fst (by assumption) ?_
    | (clear_value *; split)
    | dsimp only

end Sys2Proof.Machine
end

