-- ==== Sys2Proof/Laws/TouchSysOps.lean ====
section
/-! SUPPORT. What the operations of Machine/SysOps.lean touch. -/

namespace Sys2Proof.Machine

set_option linter.all false

theorem Block.wdogKick_touches (b) (x1) (x2) : Touches [.sys] b (Block.wdogKick b x1 x2) := by
  unfold Block.wdogKick
  repeat' first
    | with_reducible assumption
    | with_reducible exact Touches.refl
    | exact rfl
    | (intro x
       refine Touches.mid (show Touches [.sys] b x from ?_) (fun h => ?_)
       all_goals first | (with_reducible have h0 : Touches [.sys] b x := h; clear h0; clear_value x) | subst x)
    | intro _
    | lift_lets
    | with_reducible refine Touches.ite ?_ ?_
    | ((with_reducible apply Touches.set_sys) <;> first | with_reducible assumption | with_reducible exact Touches.refl | exact rfl | with_reducible refine Touches.snd (by assumption) ?_)
    | split
    | with_reducible refine Touches.snd (by assumption) ?_
    | with_reducible refine Touches.fst (by assumption) ?_
    | (clear_value *; split)
    | dsimp only

theorem Block.wdogExpiry_touches (b) : Touches [.vis, .resp, .evr, .sys, .acc, .que, .prt, .red] b (Block.wdogExpiry b) := by
  unfold Block.wdogExpiry
  repeat' first
    | with_reducible assumption
    | with_reducible exact Touches.refl
    | exact rfl
    | (intro x
       refine Touches.mid (show Touches [.vis, .resp, .evr, .sys, .acc, .que, .prt, .red] b x from ?_) (fun h => ?_)
       all_goals first | (with_reducible have h0 : Touches [.vis, .resp, .evr, .sys, .acc, .que, .prt, .red] b x := h; clear h0; clear_value x) | subst x)
    | intro _
    | lift_lets
    | with_reducible refine Touches.ite ?_ ?_
    | with_reducible apply Touches.step (Block.hostReset_touches ..)
    | split
    | with_reducible refine Touches.snd (by assumption) ?_
    | with_reducible refine Touches.fst (by assumption) ?_
    | (clear_value *; split)
    | dsimp only

theorem Block.timerDue_touches (b) (x1) : Touches [.sys] b (Block.timerDue b x1) := by
  unfold Block.timerDue
  repeat' first
    | with_reducible assumption
    | with_reducible exact Touches.refl
    | exact rfl
    | (intro x
       refine Touches.mid (show Touches [.sys] b x from ?_) (fun h => ?_)
       all_goals first | (with_reducible have h0 : Touches [.sys] b x := h; clear h0; clear_value x) | subst x)
    | intro _
    | lift_lets
    | with_reducible refine Touches.ite ?_ ?_
    | ((with_reducible apply Touches.set_sys) <;> first | with_reducible assumption | with_reducible exact Touches.refl | exact rfl | with_reducible refine Touches.snd (by assumption) ?_)
    | split
    | with_reducible refine Touches.snd (by assumption) ?_
    | with_reducible refine Touches.fst (by assumption) ?_
    | (clear_value *; split)
    | dsimp only

theorem Block.timerClear_touches (b) (x1) : Touches [.sys] b (Block.timerClear b x1) := by
  unfold Block.timerClear
  repeat' first
    | with_reducible assumption
    | with_reducible exact Touches.refl
    | exact rfl
    | (intro x
       refine Touches.mid (show Touches [.sys] b x from ?_) (fun h => ?_)
       all_goals first | (with_reducible have h0 : Touches [.sys] b x := h; clear h0; clear_value x) | subst x)
    | intro _
    | lift_lets
    | with_reducible refine Touches.ite ?_ ?_
    | ((with_reducible apply Touches.set_sys) <;> first | with_reducible assumption | with_reducible exact Touches.refl | exact rfl | with_reducible refine Touches.snd (by assumption) ?_)
    | split
    | with_reducible refine Touches.snd (by assumption) ?_
    | with_reducible refine Touches.fst (by assumption) ?_
    | (clear_value *; split)
    | dsimp only

theorem Block.plicClaim_touches (b) (x1) : Touches [.sys] b (Block.plicClaim b x1).2 := by
  unfold Block.plicClaim
  repeat' first
    | with_reducible assumption
    | with_reducible exact Touches.refl
    | exact rfl
    | (intro x
       refine Touches.mid (show Touches [.sys] b x from ?_) (fun h => ?_)
       all_goals first | (with_reducible have h0 : Touches [.sys] b x := h; clear h0; clear_value x) | subst x)
    | intro _
    | lift_lets
    | with_reducible refine Touches.ite ?_ ?_
    | ((with_reducible apply Touches.set_sys) <;> first | with_reducible assumption | with_reducible exact Touches.refl | exact rfl | with_reducible refine Touches.snd (by assumption) ?_)
    | split
    | with_reducible refine Touches.snd (by assumption) ?_
    | with_reducible refine Touches.fst (by assumption) ?_
    | (clear_value *; split)
    | dsimp only

theorem Block.plicComplete_touches (b) (x1) (x2) : Touches [.sys] b (Block.plicComplete b x1 x2) := by
  unfold Block.plicComplete
  repeat' first
    | with_reducible assumption
    | with_reducible exact Touches.refl
    | exact rfl
    | (intro x
       refine Touches.mid (show Touches [.sys] b x from ?_) (fun h => ?_)
       all_goals first | (with_reducible have h0 : Touches [.sys] b x := h; clear h0; clear_value x) | subst x)
    | intro _
    | lift_lets
    | with_reducible refine Touches.ite ?_ ?_
    | ((with_reducible apply Touches.set_sys) <;> first | with_reducible assumption | with_reducible exact Touches.refl | exact rfl | with_reducible refine Touches.snd (by assumption) ?_)
    | split
    | with_reducible refine Touches.snd (by assumption) ?_
    | with_reducible refine Touches.fst (by assumption) ?_
    | (clear_value *; split)
    | dsimp only

theorem Block.plicRead_touches (b) (x1) : Touches [.sys] b (Block.plicRead b x1).2 := by
  unfold Block.plicRead
  repeat' first
    | with_reducible assumption
    | with_reducible exact Touches.refl
    | exact rfl
    | (intro x
       refine Touches.mid (show Touches [.sys] b x from ?_) (fun h => ?_)
       all_goals first | (with_reducible have h0 : Touches [.sys] b x := h; clear h0; clear_value x) | subst x)
    | intro _
    | lift_lets
    | with_reducible refine Touches.ite ?_ ?_
    | with_reducible apply Touches.step (Block.plicClaim_touches ..)
    | with_reducible refine Touches.fold ?_ (fun _ _ _ => ?_)
    | split
    | with_reducible refine Touches.snd (by assumption) ?_
    | with_reducible refine Touches.fst (by assumption) ?_
    | with_reducible refine Touches.fold1 ?_ (fun _ _ _ => ?_)
    | with_reducible refine Touches.fold2 ?_ (fun _ _ _ => ?_)
    | (clear_value *; split)
    | dsimp only

theorem Block.plicWrite_touches (b) (x1) (x2) : Touches [.sys] b (Block.plicWrite b x1 x2) := by
  unfold Block.plicWrite
  repeat' first
    | with_reducible assumption
    | with_reducible exact Touches.refl
    | exact rfl
    | (intro x
       refine Touches.mid (show Touches [.sys] b x from ?_) (fun h => ?_)
       all_goals first | (with_reducible have h0 : Touches [.sys] b x := h; clear h0; clear_value x) | subst x)
    | intro _
    | lift_lets
    | with_reducible refine Touches.ite ?_ ?_
    | with_reducible apply Touches.step (Block.plicComplete_touches ..)
    | ((with_reducible apply Touches.set_sys) <;> first | with_reducible assumption | with_reducible exact Touches.refl | exact rfl | with_reducible refine Touches.snd (by assumption) ?_)
    | split
    | with_reducible refine Touches.snd (by assumption) ?_
    | with_reducible refine Touches.fst (by assumption) ?_
    | (clear_value *; split)
    | dsimp only

theorem Block.qspiRefuse_touches (b) (x1) : Touches [.vis, .sys] b (Block.qspiRefuse b x1) := by
  unfold Block.qspiRefuse
  repeat' first
    | with_reducible assumption
    | with_reducible exact Touches.refl
    | exact rfl
    | (intro x
       refine Touches.mid (show Touches [.vis, .sys] b x from ?_) (fun h => ?_)
       all_goals first | (with_reducible have h0 : Touches [.vis, .sys] b x := h; clear h0; clear_value x) | subst x)
    | intro _
    | lift_lets
    | with_reducible refine Touches.ite ?_ ?_
    | with_reducible apply Touches.step (Block.count_touches ..)
    | ((with_reducible apply Touches.set_sys) <;> first | with_reducible assumption | with_reducible exact Touches.refl | exact rfl | with_reducible refine Touches.snd (by assumption) ?_)
    | split
    | with_reducible refine Touches.snd (by assumption) ?_
    | with_reducible refine Touches.fst (by assumption) ?_
    | (clear_value *; split)
    | dsimp only

theorem Block.qspiCmd_touches (b) (x1) : Touches [.vis, .sys] b (Block.qspiCmd b x1) := by
  unfold Block.qspiCmd
  repeat' first
    | with_reducible assumption
    | with_reducible exact Touches.refl
    | exact rfl
    | (intro x
       refine Touches.mid (show Touches [.vis, .sys] b x from ?_) (fun h => ?_)
       all_goals first | (with_reducible have h0 : Touches [.vis, .sys] b x := h; clear h0; clear_value x) | subst x)
    | intro _
    | lift_lets
    | with_reducible refine Touches.ite ?_ ?_
    | with_reducible apply Touches.step (Block.qspiRefuse_touches ..)
    | ((with_reducible apply Touches.set_sys) <;> first | with_reducible assumption | with_reducible exact Touches.refl | exact rfl | with_reducible refine Touches.snd (by assumption) ?_)
    | split
    | with_reducible refine Touches.snd (by assumption) ?_
    | with_reducible refine Touches.fst (by assumption) ?_
    | (clear_value *; split)
    | dsimp only

theorem Block.qspiDone_touches (b) : Touches [.vis, .flash, .evr, .sys] b (Block.qspiDone b) := by
  unfold Block.qspiDone
  repeat' first
    | with_reducible assumption
    | with_reducible exact Touches.refl
    | exact rfl
    | (intro x
       refine Touches.mid (show Touches [.vis, .flash, .evr, .sys] b x from ?_) (fun h => ?_)
       all_goals first | (with_reducible have h0 : Touches [.vis, .flash, .evr, .sys] b x := h; clear h0; clear_value x) | subst x)
    | intro _
    | lift_lets
    | with_reducible refine Touches.ite ?_ ?_
    | with_reducible apply Touches.step (Block.storeFlash_touches ..)
    | with_reducible apply Touches.step (Block.irq_touches ..)
    | with_reducible apply Touches.step (Block.event_touches ..)
    | ((with_reducible apply Touches.set_sys) <;> first | with_reducible assumption | with_reducible exact Touches.refl | exact rfl | with_reducible refine Touches.snd (by assumption) ?_)
    | split
    | with_reducible refine Touches.snd (by assumption) ?_
    | with_reducible refine Touches.fst (by assumption) ?_
    | (clear_value *; split)
    | dsimp only

theorem Block.bootWrite_touches (b) (x1) : Touches [.cells, .poison] b (Block.bootWrite b x1) := by
  unfold Block.bootWrite
  repeat' first
    | with_reducible assumption
    | with_reducible exact Touches.refl
    | exact rfl
    | (intro x
       refine Touches.mid (show Touches [.cells, .poison] b x from ?_) (fun h => ?_)
       all_goals first | (with_reducible have h0 : Touches [.cells, .poison] b x := h; clear h0; clear_value x) | subst x)
    | intro _
    | lift_lets
    | with_reducible refine Touches.ite ?_ ?_
    | with_reducible apply Touches.step (Block.store_touches ..)
    | split
    | with_reducible refine Touches.snd (by assumption) ?_
    | with_reducible refine Touches.fst (by assumption) ?_
    | (clear_value *; split)
    | dsimp only

theorem Block.imageVerify_touches (b) : Touches [.sys] b (Block.imageVerify b) := by
  unfold Block.imageVerify
  repeat' first
    | with_reducible assumption
    | with_reducible exact Touches.refl
    | exact rfl
    | (intro x
       refine Touches.mid (show Touches [.sys] b x from ?_) (fun h => ?_)
       all_goals first | (with_reducible have h0 : Touches [.sys] b x := h; clear h0; clear_value x) | subst x)
    | intro _
    | lift_lets
    | with_reducible refine Touches.ite ?_ ?_
    | ((with_reducible apply Touches.set_sys) <;> first | with_reducible assumption | with_reducible exact Touches.refl | exact rfl | with_reducible refine Touches.snd (by assumption) ?_)
    | split
    | with_reducible refine Touches.snd (by assumption) ?_
    | with_reducible refine Touches.fst (by assumption) ?_
    | (clear_value *; split)
    | dsimp only

theorem Block.imageSwitch_touches (b) : Touches [.t7, .free, .vis, .act, .com, .dirty, .locked, .resp, .latch, .rep, .cells, .flash, .poison, .evr, .sys, .pwr, .key, .tam, .acc, .tim, .aln, .mm, .dma, .que, .dfe, .prt, .str, .out, .cas, .rpl, .isl, .alm, .cmp, .sdm, .nrg, .cap, .rad, .red] b (Block.imageSwitch b) := by
  unfold Block.imageSwitch
  repeat' first
    | with_reducible assumption
    | with_reducible exact Touches.refl
    | exact rfl
    | (intro x
       refine Touches.mid (show Touches [.t7, .free, .vis, .act, .com, .dirty, .locked, .resp, .latch, .rep, .cells, .flash, .poison, .evr, .sys, .pwr, .key, .tam, .acc, .tim, .aln, .mm, .dma, .que, .dfe, .prt, .str, .out, .cas, .rpl, .isl, .alm, .cmp, .sdm, .nrg, .cap, .rad, .red] b x from ?_) (fun h => ?_)
       all_goals first | (with_reducible have h0 : Touches [.t7, .free, .vis, .act, .com, .dirty, .locked, .resp, .latch, .rep, .cells, .flash, .poison, .evr, .sys, .pwr, .key, .tam, .acc, .tim, .aln, .mm, .dma, .que, .dfe, .prt, .str, .out, .cas, .rpl, .isl, .alm, .cmp, .sdm, .nrg, .cap, .rad, .red] b x := h; clear h0; clear_value x) | subst x)
    | intro _
    | lift_lets
    | with_reducible refine Touches.ite ?_ ?_
    | with_reducible apply Touches.step (Block.imageVerify_touches ..)
    | with_reducible apply Touches.step (Block.saveNow_touches ..)
    | with_reducible apply Touches.step (Block.bootWrite_touches ..)
    | with_reducible apply Touches.step (Block.dieReset_touches ..)
    | with_reducible apply Touches.step (Block.redFail_touches ..)
    | with_reducible apply Touches.step (Block.event_touches ..)
    | split
    | with_reducible refine Touches.snd (by assumption) ?_
    | with_reducible refine Touches.fst (by assumption) ?_
    | (clear_value *; split)
    | dsimp only

theorem Block.imageConfirm_touches (b) : Touches [.vis, .cells, .poison, .evr, .sys] b (Block.imageConfirm b) := by
  unfold Block.imageConfirm
  repeat' first
    | with_reducible assumption
    | with_reducible exact Touches.refl
    | exact rfl
    | (intro x
       refine Touches.mid (show Touches [.vis, .cells, .poison, .evr, .sys] b x from ?_) (fun h => ?_)
       all_goals first | (with_reducible have h0 : Touches [.vis, .cells, .poison, .evr, .sys] b x := h; clear h0; clear_value x) | subst x)
    | intro _
    | lift_lets
    | with_reducible refine Touches.ite ?_ ?_
    | with_reducible apply Touches.step (Block.bootWrite_touches ..)
    | with_reducible apply Touches.step (Block.event_touches ..)
    | ((with_reducible apply Touches.set_sys) <;> first | with_reducible assumption | with_reducible exact Touches.refl | exact rfl | with_reducible refine Touches.snd (by assumption) ?_)
    | split
    | with_reducible refine Touches.snd (by assumption) ?_
    | with_reducible refine Touches.fst (by assumption) ?_
    | (clear_value *; split)
    | dsimp only

theorem Block.commitBlock_touches (b) (x1) : Touches [.vis, .act, .com, .dirty, .resp, .rep, .cells, .poison, .evr, .tim, .que, .sdm, .cap] b (Block.commitBlock b x1) := by
  unfold Block.commitBlock
  repeat' first
    | with_reducible assumption
    | with_reducible exact Touches.refl
    | exact rfl
    | (intro x
       refine Touches.mid (show Touches [.vis, .act, .com, .dirty, .resp, .rep, .cells, .poison, .evr, .tim, .que, .sdm, .cap] b x from ?_) (fun h => ?_)
       all_goals first | (with_reducible have h0 : Touches [.vis, .act, .com, .dirty, .resp, .rep, .cells, .poison, .evr, .tim, .que, .sdm, .cap] b x := h; clear h0; clear_value x) | subst x)
    | intro _
    | lift_lets
    | with_reducible refine Touches.ite ?_ ?_
    | with_reducible apply Touches.step (Block.timCommit_touches ..)
    | with_reducible apply Touches.step (Block.alnCommit_touches ..)
    | with_reducible apply Touches.step (Block.sdmCommit_touches ..)
    | with_reducible apply Touches.step (Block.capCommit_touches ..)
    | with_reducible apply Touches.step (Block.memCommit_touches ..)
    | with_reducible apply Touches.step (Block.evrCommit_touches ..)
    | with_reducible apply Touches.step (Block.commit_touches ..)
    | split
    | with_reducible refine Touches.snd (by assumption) ?_
    | with_reducible refine Touches.fst (by assumption) ?_
    | (clear_value *; split)
    | dsimp only

theorem Block.commitBy_touches (b) (x1) (x2) : Touches [.vis, .act, .com, .dirty, .resp, .rep, .cells, .poison, .evr, .tim, .que, .sdm, .cap] b (Block.commitBy b x1 x2) := by
  unfold Block.commitBy
  repeat' first
    | with_reducible assumption
    | with_reducible exact Touches.refl
    | exact rfl
    | (intro x
       refine Touches.mid (show Touches [.vis, .act, .com, .dirty, .resp, .rep, .cells, .poison, .evr, .tim, .que, .sdm, .cap] b x from ?_) (fun h => ?_)
       all_goals first | (with_reducible have h0 : Touches [.vis, .act, .com, .dirty, .resp, .rep, .cells, .poison, .evr, .tim, .que, .sdm, .cap] b x := h; clear h0; clear_value x) | subst x)
    | intro _
    | lift_lets
    | with_reducible refine Touches.ite ?_ ?_
    | with_reducible apply Touches.step (Block.count_touches ..)
    | with_reducible apply Touches.step (Block.commitBlock_touches ..)
    | split
    | with_reducible refine Touches.snd (by assumption) ?_
    | with_reducible refine Touches.fst (by assumption) ?_
    | (clear_value *; split)
    | dsimp only

theorem Block.ctxClean_touches (b) (x1) : Touches [.poison] b (Block.ctxClean b x1) := by
  unfold Block.ctxClean
  split
  · exact Touches.refl.setMem _ (fun p hp => by cases p <;> first | rfl | cases hp) (fun w => w)
  · exact Touches.refl

theorem Block.tuneApply_touches (b) (x1) (x2) : Touches [.vis, .com, .dirty, .poison, .tim] b (Block.tuneApply b x1 x2) := by
  unfold Block.tuneApply
  repeat' first
    | with_reducible assumption
    | with_reducible exact Touches.refl
    | exact rfl
    | (intro x
       refine Touches.mid (show Touches [.vis, .com, .dirty, .poison, .tim] b x from ?_) (fun h => ?_)
       all_goals first | (with_reducible have h0 : Touches [.vis, .com, .dirty, .poison, .tim] b x := h; clear h0; clear_value x) | subst x)
    | intro _
    | lift_lets
    | with_reducible refine Touches.ite ?_ ?_
    | with_reducible apply Touches.step (Block.ctxClean_touches ..)
    | with_reducible apply Touches.step (Block.markDirty_touches ..)
    | with_reducible apply Touches.step (Block.setVis_touches ..)
    | ((with_reducible apply Touches.set_tim) <;> first | with_reducible assumption | with_reducible exact Touches.refl | exact rfl | with_reducible refine Touches.snd (by assumption) ?_)
    | split
    | with_reducible refine Touches.snd (by assumption) ?_
    | with_reducible refine Touches.fst (by assumption) ?_
    | (clear_value *; split)
    | dsimp only

theorem Block.tuningSet_touches (b) (x1) : Touches [.vis, .act, .com, .dirty, .resp, .rep, .cells, .poison, .evr, .sys, .tim, .que, .sdm, .cap] b (Block.tuningSet b x1) := by
  unfold Block.tuningSet
  repeat' first
    | with_reducible assumption
    | with_reducible exact Touches.refl
    | exact rfl
    | (intro x
       refine Touches.mid (show Touches [.vis, .act, .com, .dirty, .resp, .rep, .cells, .poison, .evr, .sys, .tim, .que, .sdm, .cap] b x from ?_) (fun h => ?_)
       all_goals first | (with_reducible have h0 : Touches [.vis, .act, .com, .dirty, .resp, .rep, .cells, .poison, .evr, .sys, .tim, .que, .sdm, .cap] b x := h; clear h0; clear_value x) | subst x)
    | intro _
    | lift_lets
    | with_reducible refine Touches.ite ?_ ?_
    | with_reducible apply Touches.step (Block.event_touches ..)
    | with_reducible apply Touches.step (Block.tuneApply_touches ..)
    | with_reducible apply Touches.step (Block.commitBlock_touches ..)
    | ((with_reducible apply Touches.set_sys) <;> first | with_reducible assumption | with_reducible exact Touches.refl | exact rfl | with_reducible refine Touches.snd (by assumption) ?_)
    | with_reducible refine Touches.fold ?_ (fun _ _ _ => ?_)
    | split
    | with_reducible refine Touches.snd (by assumption) ?_
    | with_reducible refine Touches.fst (by assumption) ?_
    | with_reducible refine Touches.fold1 ?_ (fun _ _ _ => ?_)
    | with_reducible refine Touches.fold2 ?_ (fun _ _ _ => ?_)
    | (clear_value *; split)
    | dsimp only

end Sys2Proof.Machine
end

