-- ==== Sys2Proof/Laws/TouchRegAct.lean ====
section
/-! SUPPORT. What the operations of Machine/RegAct.lean touch. -/

namespace Sys2Proof.Machine

set_option linter.all false

theorem Block.plainWrite_touches (b) (x1) (x2) : Touches [.vis, .com, .dirty, .locked] b (Block.plainWrite b x1 x2) := by
  unfold Block.plainWrite
  repeat' first
    | with_reducible assumption
    | with_reducible exact Touches.refl
    | exact rfl
    | (intro x
       refine Touches.mid (show Touches [.vis, .com, .dirty, .locked] b x from ?_) (fun h => ?_)
       all_goals first | (with_reducible have h0 : Touches [.vis, .com, .dirty, .locked] b x := h; clear h0; clear_value x) | subst x)
    | intro _
    | lift_lets
    | with_reducible refine Touches.ite ?_ ?_
    | with_reducible apply Touches.step (Block.setVis_touches ..)
    | with_reducible apply Touches.step (Block.lockKey_touches ..)
    | with_reducible apply Touches.step (Block.alnLateWrite_touches ..)
    | with_reducible apply Touches.step (Block.markDirty_touches ..)
    | split
    | with_reducible refine Touches.snd (by assumption) ?_
    | with_reducible refine Touches.fst (by assumption) ?_
    | (clear_value *; split)
    | dsimp only

theorem Block.rcClear_touches (b) (x1) : Touches [.vis] b (Block.rcClear b x1) := by
  unfold Block.rcClear
  repeat' first
    | with_reducible assumption
    | with_reducible exact Touches.refl
    | exact rfl
    | (intro x
       refine Touches.mid (show Touches [.vis] b x from ?_) (fun h => ?_)
       all_goals first | (with_reducible have h0 : Touches [.vis] b x := h; clear h0; clear_value x) | subst x)
    | intro _
    | lift_lets
    | with_reducible refine Touches.ite ?_ ?_
    | with_reducible apply Touches.step (Block.clearBit_touches ..)
    | exact Touches.refl.mk' _ ⟨rfl, fun p hp => by cases p <;> first | rfl | cases hp⟩
    | exact Touches.mk' (by assumption) _ ⟨rfl, fun p hp => by cases p <;> first | rfl | cases hp⟩
    | split
    | with_reducible refine Touches.snd (by assumption) ?_
    | with_reducible refine Touches.fst (by assumption) ?_
    | (clear_value *; split)
    | dsimp only

theorem Block.actSys_touches (b) (x1) (x2) (x3) (z) (hz : Block.actSys b x1 x2 x3 = some z) : Touches [.t7, .free, .vis, .act, .com, .dirty, .locked, .resp, .latch, .rep, .cells, .flash, .poison, .evr, .sys, .pwr, .key, .tam, .acc, .tim, .aln, .mm, .dma, .que, .dfe, .prt, .str, .out, .cas, .rpl, .isl, .alm, .cmp, .sdm, .nrg, .cap, .rad, .red] b z := by
  unfold Block.actSys at hz
  try dsimp only at hz
  repeat' split at hz
  all_goals first | (have e := Option.some.inj hz; clear hz; subst e) | (injection hz; done) | skip
  all_goals repeat' first
    | with_reducible assumption
    | with_reducible exact Touches.refl
    | exact rfl
    | (intro x
       refine Touches.mid (show Touches [.t7, .free, .vis, .act, .com, .dirty, .locked, .resp, .latch, .rep, .cells, .flash, .poison, .evr, .sys, .pwr, .key, .tam, .acc, .tim, .aln, .mm, .dma, .que, .dfe, .prt, .str, .out, .cas, .rpl, .isl, .alm, .cmp, .sdm, .nrg, .cap, .rad, .red] b x from ?_) (fun h => ?_)
       all_goals first | (with_reducible have h0 : Touches [.t7, .free, .vis, .act, .com, .dirty, .locked, .resp, .latch, .rep, .cells, .flash, .poison, .evr, .sys, .pwr, .key, .tam, .acc, .tim, .aln, .mm, .dma, .que, .dfe, .prt, .str, .out, .cas, .rpl, .isl, .alm, .cmp, .sdm, .nrg, .cap, .rad, .red] b x := h; clear h0; clear_value x) | subst x)
    | intro _
    | lift_lets
    | with_reducible refine Touches.ite ?_ ?_
    | with_reducible apply Touches.step (Block.modeReq_touches ..)
    | with_reducible apply Touches.step (Block.tuningSet_touches ..)
    | with_reducible apply Touches.step (Block.imageSwitch_touches ..)
    | with_reducible apply Touches.step (Block.imageVerify_touches ..)
    | with_reducible apply Touches.step (Block.wdogKick_touches ..)
    | with_reducible apply Touches.step (Block.dieResetReq_touches ..)
    | with_reducible apply Touches.step (Block.hostResetReq_touches ..)
    | with_reducible apply Touches.step (Block.timerClear_touches ..)
    | with_reducible apply Touches.step (Block.plainWrite_touches ..)
    | with_reducible apply Touches.step (Block.qspiCmd_touches ..)
    | split
    | with_reducible refine Touches.snd (by assumption) ?_
    | with_reducible refine Touches.fst (by assumption) ?_
    | (clear_value *; split)
    | dsimp only
    | contradiction
    | (simp only [Option.some.injEq] at *; subst_vars)

theorem Block.vstepAct_touches (b) (x1) (x2) : Touches [.free, .vis, .act, .com, .dirty, .resp, .rep, .cells, .poison, .evr, .sys, .tim, .aln, .que, .dfe, .prt, .out, .cas, .rpl, .isl, .alm, .cmp, .sdm, .nrg, .cap, .red] b (Block.vstepAct b x1 x2) := by
  unfold Block.vstepAct
  repeat' first
    | with_reducible assumption
    | with_reducible exact Touches.refl
    | exact rfl
    | (intro x
       refine Touches.mid (show Touches [.free, .vis, .act, .com, .dirty, .resp, .rep, .cells, .poison, .evr, .sys, .tim, .aln, .que, .dfe, .prt, .out, .cas, .rpl, .isl, .alm, .cmp, .sdm, .nrg, .cap, .red] b x from ?_) (fun h => ?_)
       all_goals first | (with_reducible have h0 : Touches [.free, .vis, .act, .com, .dirty, .resp, .rep, .cells, .poison, .evr, .sys, .tim, .aln, .que, .dfe, .prt, .out, .cas, .rpl, .isl, .alm, .cmp, .sdm, .nrg, .cap, .red] b x := h; clear h0; clear_value x) | subst x)
    | intro _
    | lift_lets
    | with_reducible refine Touches.ite ?_ ?_
    | with_reducible apply Touches.step (Block.vstep_touches ..)
    | with_reducible apply Touches.step (Block.modeFollow_touches ..)
    | with_reducible apply Touches.step (Block.tb0Stepped_touches ..)
    | split
    | with_reducible refine Touches.snd (by assumption) ?_
    | with_reducible refine Touches.fst (by assumption) ?_
    | (clear_value *; split)
    | dsimp only

theorem Block.actTim_touches (b) (x1) (x2) (z) (hz : Block.actTim b x1 x2 = some z) : Touches [.free, .vis, .act, .com, .dirty, .locked, .resp, .rep, .cells, .poison, .evr, .sys, .tim, .aln, .que, .dfe, .prt, .out, .cas, .rpl, .isl, .alm, .cmp, .sdm, .nrg, .cap, .red] b z := by
  unfold Block.actTim at hz
  try dsimp only at hz
  repeat' split at hz
  all_goals first | (have e := Option.some.inj hz; clear hz; subst e) | (injection hz; done) | skip
  all_goals repeat' first
    | with_reducible assumption
    | with_reducible exact Touches.refl
    | exact rfl
    | (intro x
       refine Touches.mid (show Touches [.free, .vis, .act, .com, .dirty, .locked, .resp, .rep, .cells, .poison, .evr, .sys, .tim, .aln, .que, .dfe, .prt, .out, .cas, .rpl, .isl, .alm, .cmp, .sdm, .nrg, .cap, .red] b x from ?_) (fun h => ?_)
       all_goals first | (with_reducible have h0 : Touches [.free, .vis, .act, .com, .dirty, .locked, .resp, .rep, .cells, .poison, .evr, .sys, .tim, .aln, .que, .dfe, .prt, .out, .cas, .rpl, .isl, .alm, .cmp, .sdm, .nrg, .cap, .red] b x := h; clear h0; clear_value x) | subst x)
    | intro _
    | lift_lets
    | with_reducible refine Touches.ite ?_ ?_
    | with_reducible apply Touches.step (Block.vstepAct_touches ..)
    | with_reducible apply Touches.step (Block.modeFollow_touches ..)
    | with_reducible apply Touches.step (Block.vrate_touches ..)
    | with_reducible apply Touches.step (Block.oscSettle_touches ..)
    | with_reducible apply Touches.step (Block.plainWrite_touches ..)
    | split
    | with_reducible refine Touches.snd (by assumption) ?_
    | with_reducible refine Touches.fst (by assumption) ?_
    | (clear_value *; split)
    | dsimp only
    | contradiction
    | (simp only [Option.some.injEq] at *; subst_vars)

theorem Block.actPrt_touches (b) (x1) (x2) (z) (hz : Block.actPrt b x1 x2 = some z) : Touches [.vis, .com, .dirty, .locked, .prt] b z := by
  unfold Block.actPrt at hz
  try dsimp only at hz
  repeat' split at hz
  all_goals first | (have e := Option.some.inj hz; clear hz; subst e) | (injection hz; done) | skip
  all_goals repeat' first
    | with_reducible assumption
    | with_reducible exact Touches.refl
    | exact rfl
    | (intro x
       refine Touches.mid (show Touches [.vis, .com, .dirty, .locked, .prt] b x from ?_) (fun h => ?_)
       all_goals first | (with_reducible have h0 : Touches [.vis, .com, .dirty, .locked, .prt] b x := h; clear h0; clear_value x) | subst x)
    | intro _
    | lift_lets
    | with_reducible refine Touches.ite ?_ ?_
    | with_reducible apply Touches.step (Block.setPort_touches ..)
    | with_reducible apply Touches.step (Block.filterCommit_touches ..)
    | with_reducible apply Touches.step (Block.plainWrite_touches ..)
    | split
    | with_reducible refine Touches.snd (by assumption) ?_
    | with_reducible refine Touches.fst (by assumption) ?_
    | (clear_value *; split)
    | dsimp only
    | contradiction
    | (simp only [Option.some.injEq] at *; subst_vars)

theorem Block.actStr_touches (b) (x1) (z) (hz : Block.actStr b x1 = some z) : Touches [] b z := by
  unfold Block.actStr at hz
  try dsimp only at hz
  repeat' split at hz
  all_goals first | (have e := Option.some.inj hz; clear hz; subst e) | (injection hz; done) | skip
  all_goals repeat' first
    | with_reducible assumption
    | with_reducible exact Touches.refl
    | exact rfl
    | (intro x
       refine Touches.mid (show Touches [] b x from ?_) (fun h => ?_)
       all_goals first | (with_reducible have h0 : Touches [] b x := h; clear h0; clear_value x) | subst x)
    | intro _
    | lift_lets
    | with_reducible refine Touches.ite ?_ ?_
    | split
    | with_reducible refine Touches.snd (by assumption) ?_
    | with_reducible refine Touches.fst (by assumption) ?_
    | (clear_value *; split)
    | dsimp only
    | contradiction
    | (simp only [Option.some.injEq] at *; subst_vars)

theorem Block.actAln_touches (b) (x1) (x2) (z) (hz : Block.actAln b x1 x2 = some z) : Touches [.aln] b z := by
  unfold Block.actAln at hz
  try dsimp only at hz
  repeat' split at hz
  all_goals first | (have e := Option.some.inj hz; clear hz; subst e) | (injection hz; done) | skip
  all_goals repeat' first
    | with_reducible assumption
    | with_reducible exact Touches.refl
    | exact rfl
    | (intro x
       refine Touches.mid (show Touches [.aln] b x from ?_) (fun h => ?_)
       all_goals first | (with_reducible have h0 : Touches [.aln] b x := h; clear h0; clear_value x) | subst x)
    | intro _
    | lift_lets
    | with_reducible refine Touches.ite ?_ ?_
    | with_reducible apply Touches.step (Block.ctxRelearn_touches ..)
    | split
    | with_reducible refine Touches.snd (by assumption) ?_
    | with_reducible refine Touches.fst (by assumption) ?_
    | (clear_value *; split)
    | dsimp only
    | contradiction
    | (simp only [Option.some.injEq] at *; subst_vars)

theorem Block.actOut_touches (b) (x1) (x2) (z) (hz : Block.actOut b x1 x2 = some z) : Touches [.vis, .resp, .rep, .poison, .evr, .que, .prt, .out] b z := by
  unfold Block.actOut at hz
  try dsimp only at hz
  repeat' split at hz
  all_goals first | (have e := Option.some.inj hz; clear hz; subst e) | (injection hz; done) | skip
  all_goals repeat' first
    | with_reducible assumption
    | with_reducible exact Touches.refl
    | exact rfl
    | (intro x
       refine Touches.mid (show Touches [.vis, .resp, .rep, .poison, .evr, .que, .prt, .out] b x from ?_) (fun h => ?_)
       all_goals first | (with_reducible have h0 : Touches [.vis, .resp, .rep, .poison, .evr, .que, .prt, .out] b x := h; clear h0; clear_value x) | subst x)
    | intro _
    | lift_lets
    | with_reducible refine Touches.ite ?_ ?_
    | with_reducible apply Touches.step (Block.sessOpen_touches ..)
    | with_reducible apply Touches.step (Block.sessClose_touches ..)
    | with_reducible apply Touches.step (Block.sessRst_touches ..)
    | with_reducible apply Touches.step (Block.sessAckSend_touches ..)
    | with_reducible apply Touches.step (Block.sessAck_touches ..)
    | with_reducible apply Touches.step (Block.sessRetx_touches ..)
    | split
    | with_reducible refine Touches.snd (by assumption) ?_
    | with_reducible refine Touches.fst (by assumption) ?_
    | (clear_value *; split)
    | dsimp only
    | contradiction
    | (simp only [Option.some.injEq] at *; subst_vars)

theorem Block.actAlm_touches (b) (x1) (x2) (z) (hz : Block.actAlm b x1 x2 = some z) : Touches [.alm] b z := by
  unfold Block.actAlm at hz
  try dsimp only at hz
  repeat' split at hz
  all_goals first | (have e := Option.some.inj hz; clear hz; subst e) | (injection hz; done) | skip
  all_goals repeat' first
    | with_reducible assumption
    | with_reducible exact Touches.refl
    | exact rfl
    | (intro x
       refine Touches.mid (show Touches [.alm] b x from ?_) (fun h => ?_)
       all_goals first | (with_reducible have h0 : Touches [.alm] b x := h; clear h0; clear_value x) | subst x)
    | intro _
    | lift_lets
    | with_reducible refine Touches.ite ?_ ?_
    | with_reducible apply Touches.step (Block.defReset_touches ..)
    | split
    | with_reducible refine Touches.snd (by assumption) ?_
    | with_reducible refine Touches.fst (by assumption) ?_
    | (clear_value *; split)
    | dsimp only
    | contradiction
    | (simp only [Option.some.injEq] at *; subst_vars)

theorem Block.actDfe_touches (b) (x1) (x2) (x3) (z) (hz : Block.actDfe b x1 x2 x3 = some z) : Touches [.vis, .rep, .poison, .evr, .dfe] b z := by
  unfold Block.actDfe at hz
  try dsimp only at hz
  repeat' split at hz
  all_goals first | (have e := Option.some.inj hz; clear hz; subst e) | (injection hz; done) | skip
  all_goals repeat' first
    | with_reducible assumption
    | with_reducible exact Touches.refl
    | exact rfl
    | (intro x
       refine Touches.mid (show Touches [.vis, .rep, .poison, .evr, .dfe] b x from ?_) (fun h => ?_)
       all_goals first | (with_reducible have h0 : Touches [.vis, .rep, .poison, .evr, .dfe] b x := h; clear h0; clear_value x) | subst x)
    | intro _
    | lift_lets
    | with_reducible refine Touches.ite ?_ ?_
    | with_reducible apply Touches.step (Block.coreRelease_touches ..)
    | with_reducible apply Touches.step (Block.dfeInject_touches ..)
    | split
    | with_reducible refine Touches.snd (by assumption) ?_
    | with_reducible refine Touches.fst (by assumption) ?_
    | (clear_value *; split)
    | dsimp only
    | contradiction
    | (simp only [Option.some.injEq] at *; subst_vars)

theorem Block.actSdm_touches (b) (x1) (x2) (z) (hz : Block.actSdm b x1 x2 = some z) : Touches [.sdm] b z := by
  unfold Block.actSdm at hz
  try dsimp only at hz
  repeat' split at hz
  all_goals first | (have e := Option.some.inj hz; clear hz; subst e) | (injection hz; done) | skip
  all_goals repeat' first
    | with_reducible assumption
    | with_reducible exact Touches.refl
    | exact rfl
    | (intro x
       refine Touches.mid (show Touches [.sdm] b x from ?_) (fun h => ?_)
       all_goals first | (with_reducible have h0 : Touches [.sdm] b x := h; clear h0; clear_value x) | subst x)
    | intro _
    | lift_lets
    | with_reducible refine Touches.ite ?_ ?_
    | with_reducible apply Touches.step (Block.sdmSyncAt_touches ..)
    | split
    | with_reducible refine Touches.snd (by assumption) ?_
    | with_reducible refine Touches.fst (by assumption) ?_
    | (clear_value *; split)
    | dsimp only
    | contradiction
    | (simp only [Option.some.injEq] at *; subst_vars)

theorem Block.actNrg_touches (b) (x1) (x2) (z) (hz : Block.actNrg b x1 x2 = some z) : Touches [.vis, .nrg] b z := by
  unfold Block.actNrg at hz
  try dsimp only at hz
  repeat' split at hz
  all_goals first | (have e := Option.some.inj hz; clear hz; subst e) | (injection hz; done) | skip
  all_goals repeat' first
    | with_reducible assumption
    | with_reducible exact Touches.refl
    | exact rfl
    | (intro x
       refine Touches.mid (show Touches [.vis, .nrg] b x from ?_) (fun h => ?_)
       all_goals first | (with_reducible have h0 : Touches [.vis, .nrg] b x := h; clear h0; clear_value x) | subst x)
    | intro _
    | lift_lets
    | with_reducible refine Touches.ite ?_ ?_
    | with_reducible apply Touches.step (Block.nrgClear_touches ..)
    | with_reducible apply Touches.step (Block.nrgSnap_touches ..)
    | split
    | with_reducible refine Touches.snd (by assumption) ?_
    | with_reducible refine Touches.fst (by assumption) ?_
    | (clear_value *; split)
    | dsimp only
    | contradiction
    | (simp only [Option.some.injEq] at *; subst_vars)

theorem Block.actCap_touches (b) (x1) (x2) (z) (hz : Block.actCap b x1 x2 = some z) : Touches [.vis, .evr, .cas, .cap] b z := by
  unfold Block.actCap at hz
  try dsimp only at hz
  repeat' split at hz
  all_goals first | (have e := Option.some.inj hz; clear hz; subst e) | (injection hz; done) | skip
  all_goals repeat' first
    | with_reducible assumption
    | with_reducible exact Touches.refl
    | exact rfl
    | (intro x
       refine Touches.mid (show Touches [.vis, .evr, .cas, .cap] b x from ?_) (fun h => ?_)
       all_goals first | (with_reducible have h0 : Touches [.vis, .evr, .cas, .cap] b x := h; clear h0; clear_value x) | subst x)
    | intro _
    | lift_lets
    | with_reducible refine Touches.ite ?_ ?_
    | with_reducible apply Touches.step (Block.capRelease_touches ..)
    | with_reducible apply Touches.step (Block.capForce_touches ..)
    | split
    | with_reducible refine Touches.snd (by assumption) ?_
    | with_reducible refine Touches.fst (by assumption) ?_
    | (clear_value *; split)
    | dsimp only
    | contradiction
    | (simp only [Option.some.injEq] at *; subst_vars)

theorem Block.actRad_touches (b) (x1) (x2) (x3) (z) (hz : Block.actRad b x1 x2 x3 = some z) : Touches [.vis, .rad] b z := by
  unfold Block.actRad at hz
  try dsimp only at hz
  repeat' split at hz
  all_goals first | (have e := Option.some.inj hz; clear hz; subst e) | (injection hz; done) | skip
  all_goals repeat' first
    | with_reducible assumption
    | with_reducible exact Touches.refl
    | exact rfl
    | (intro x
       refine Touches.mid (show Touches [.vis, .rad] b x from ?_) (fun h => ?_)
       all_goals first | (with_reducible have h0 : Touches [.vis, .rad] b x := h; clear h0; clear_value x) | subst x)
    | intro _
    | lift_lets
    | with_reducible refine Touches.ite ?_ ?_
    | with_reducible apply Touches.step (Block.dlPost_touches ..)
    | with_reducible apply Touches.step (Block.pendWrite_touches ..)
    | split
    | with_reducible refine Touches.snd (by assumption) ?_
    | with_reducible refine Touches.fst (by assumption) ?_
    | (clear_value *; split)
    | dsimp only
    | contradiction
    | (simp only [Option.some.injEq] at *; subst_vars)

theorem Block.actMem_touches (b) (x1) (x2) (x3) (z) (hz : Block.actMem b x1 x2 x3 = some z) : Touches [.free, .vis, .com, .dirty, .locked, .rep, .cells, .poison, .evr, .aln, .mm, .que, .dfe] b z := by
  unfold Block.actMem at hz
  try dsimp only at hz
  repeat' split at hz
  all_goals first | (have e := Option.some.inj hz; clear hz; subst e) | (injection hz; done) | skip
  all_goals repeat' first
    | with_reducible assumption
    | with_reducible exact Touches.refl
    | exact rfl
    | (intro x
       refine Touches.mid (show Touches [.free, .vis, .com, .dirty, .locked, .rep, .cells, .poison, .evr, .aln, .mm, .que, .dfe] b x from ?_) (fun h => ?_)
       all_goals first | (with_reducible have h0 : Touches [.free, .vis, .com, .dirty, .locked, .rep, .cells, .poison, .evr, .aln, .mm, .que, .dfe] b x := h; clear h0; clear_value x) | subst x)
    | intro _
    | lift_lets
    | with_reducible refine Touches.ite ?_ ?_
    | with_reducible apply Touches.step (Block.diagRead_touches ..)
    | with_reducible apply Touches.step (Block.diagWrite_touches ..)
    | with_reducible apply Touches.step (Block.count_touches ..)
    | with_reducible apply Touches.step (Block.plainWrite_touches ..)
    | with_reducible apply Touches.step (Block.remapErase_touches ..)
    | with_reducible apply Touches.step (Block.remapCmd_touches ..)
    | split
    | with_reducible refine Touches.snd (by assumption) ?_
    | with_reducible refine Touches.fst (by assumption) ?_
    | (clear_value *; split)
    | dsimp only
    | contradiction
    | (simp only [Option.some.injEq] at *; subst_vars)

theorem Block.actDma_touches (b) (x1) (x2) (x3) (z) (hz : Block.actDma b x1 x2 x3 = some z) : Touches [.vis, .com, .dirty, .locked, .dma] b z := by
  unfold Block.actDma at hz
  try dsimp only at hz
  repeat' split at hz
  all_goals first | (have e := Option.some.inj hz; clear hz; subst e) | (injection hz; done) | skip
  all_goals repeat' first
    | with_reducible assumption
    | with_reducible exact Touches.refl
    | exact rfl
    | (intro x
       refine Touches.mid (show Touches [.vis, .com, .dirty, .locked, .dma] b x from ?_) (fun h => ?_)
       all_goals first | (with_reducible have h0 : Touches [.vis, .com, .dirty, .locked, .dma] b x := h; clear h0; clear_value x) | subst x)
    | intro _
    | lift_lets
    | with_reducible refine Touches.ite ?_ ?_
    | with_reducible apply Touches.step (Block.dmaCmd_touches ..)
    | with_reducible refine Touches.trans ?_ (Block.dmaGuard_touches (l := [.vis, .com, .dirty, .locked, .dma]) _ _ _ rfl ?_) ?_
    | with_reducible apply Touches.step (Block.plainWrite_touches ..)
    | split
    | with_reducible refine Touches.snd (by assumption) ?_
    | with_reducible refine Touches.fst (by assumption) ?_
    | (clear_value *; split)
    | dsimp only
    | contradiction
    | (simp only [Option.some.injEq] at *; subst_vars)

theorem Block.actQue_touches (b) (x1) (x2) (z) (hz : Block.actQue b x1 x2 = some z) : Touches [.vis, .resp, .poison, .evr, .que] b z := by
  unfold Block.actQue at hz
  try dsimp only at hz
  repeat' split at hz
  all_goals first | (have e := Option.some.inj hz; clear hz; subst e) | (injection hz; done) | skip
  all_goals repeat' first
    | with_reducible assumption
    | with_reducible exact Touches.refl
    | exact rfl
    | (intro x
       refine Touches.mid (show Touches [.vis, .resp, .poison, .evr, .que] b x from ?_) (fun h => ?_)
       all_goals first | (with_reducible have h0 : Touches [.vis, .resp, .poison, .evr, .que] b x := h; clear h0; clear_value x) | subst x)
    | intro _
    | lift_lets
    | with_reducible refine Touches.ite ?_ ?_
    | with_reducible apply Touches.step (Block.queueCfg_touches ..)
    | with_reducible apply Touches.step (Block.flush_touches ..)
    | split
    | with_reducible refine Touches.snd (by assumption) ?_
    | with_reducible refine Touches.fst (by assumption) ?_
    | (clear_value *; split)
    | dsimp only
    | contradiction
    | (simp only [Option.some.injEq] at *; subst_vars)

theorem Block.actCmp_touches (b) (x1) (x2) (x3) (z) (hz : Block.actCmp b x1 x2 x3 = some z) : Touches [.vis, .com, .dirty, .locked, .evr, .cmp] b z := by
  unfold Block.actCmp at hz
  try dsimp only at hz
  repeat' split at hz
  all_goals first | (have e := Option.some.inj hz; clear hz; subst e) | (injection hz; done) | skip
  all_goals repeat' first
    | with_reducible assumption
    | with_reducible exact Touches.refl
    | exact rfl
    | (intro x
       refine Touches.mid (show Touches [.vis, .com, .dirty, .locked, .evr, .cmp] b x from ?_) (fun h => ?_)
       all_goals first | (with_reducible have h0 : Touches [.vis, .com, .dirty, .locked, .evr, .cmp] b x := h; clear h0; clear_value x) | subst x)
    | intro _
    | lift_lets
    | with_reducible refine Touches.ite ?_ ?_
    | with_reducible apply Touches.step (Block.ctxReset_touches ..)
    | with_reducible apply Touches.step (Block.cmpResume_touches ..)
    | with_reducible apply Touches.step (Block.jobGo_touches ..)
    | with_reducible apply Touches.step (Block.plainWrite_touches ..)
    | with_reducible apply Touches.step (Block.setVis_touches ..)
    | split
    | with_reducible refine Touches.snd (by assumption) ?_
    | with_reducible refine Touches.fst (by assumption) ?_
    | (clear_value *; split)
    | dsimp only
    | contradiction
    | (simp only [Option.some.injEq] at *; subst_vars)

theorem Block.actEvr_touches (b) (x1) (x2) (x3) (z) (hz : Block.actEvr b x1 x2 x3 = some z) : Touches [.vis, .evr] b z := by
  unfold Block.actEvr at hz
  try dsimp only at hz
  repeat' split at hz
  all_goals first | (have e := Option.some.inj hz; clear hz; subst e) | (injection hz; done) | skip
  all_goals repeat' first
    | with_reducible assumption
    | with_reducible exact Touches.refl
    | exact rfl
    | (intro x
       refine Touches.mid (show Touches [.vis, .evr] b x from ?_) (fun h => ?_)
       all_goals first | (with_reducible have h0 : Touches [.vis, .evr] b x := h; clear h0; clear_value x) | subst x)
    | intro _
    | lift_lets
    | with_reducible refine Touches.ite ?_ ?_
    | with_reducible apply Touches.step (Block.evrCmd_touches ..)
    | with_reducible apply Touches.step (Block.clrUnlock_touches ..)
    | split
    | with_reducible refine Touches.snd (by assumption) ?_
    | with_reducible refine Touches.fst (by assumption) ?_
    | (clear_value *; split)
    | dsimp only
    | contradiction
    | (simp only [Option.some.injEq] at *; subst_vars)

theorem Block.actAcc_touches (b) (x1) (x2) (x3) (z) (hz : Block.actAcc b x1 x2 x3 = some z) : Touches [.free, .vis, .act, .com, .dirty, .locked, .resp, .rep, .cells, .poison, .evr, .sys, .acc, .tim, .dma, .que, .prt, .out, .alm, .cap, .red] b z := by
  unfold Block.actAcc at hz
  try dsimp only at hz
  repeat' split at hz
  all_goals first | (have e := Option.some.inj hz; clear hz; subst e) | (injection hz; done) | skip
  all_goals repeat' first
    | with_reducible assumption
    | with_reducible exact Touches.refl
    | exact rfl
    | (intro x
       refine Touches.mid (show Touches [.free, .vis, .act, .com, .dirty, .locked, .resp, .rep, .cells, .poison, .evr, .sys, .acc, .tim, .dma, .que, .prt, .out, .alm, .cap, .red] b x from ?_) (fun h => ?_)
       all_goals first | (with_reducible have h0 : Touches [.free, .vis, .act, .com, .dirty, .locked, .resp, .rep, .cells, .poison, .evr, .sys, .acc, .tim, .dma, .que, .prt, .out, .alm, .cap, .red] b x := h; clear h0; clear_value x) | subst x)
    | intro _
    | lift_lets
    | with_reducible refine Touches.ite ?_ ?_
    | with_reducible apply Touches.step (Block.regionWrite_touches ..)
    | with_reducible apply Touches.step (Block.accRelease_touches ..)
    | split
    | with_reducible refine Touches.snd (by assumption) ?_
    | with_reducible refine Touches.fst (by assumption) ?_
    | (clear_value *; split)
    | dsimp only
    | contradiction
    | (simp only [Option.some.injEq] at *; subst_vars)

theorem Block.regAct_touches (b) (x1) (x2) (x3) (z) (hz : Block.regAct b x1 x2 x3 = some z) : Touches [.t7, .free, .vis, .act, .com, .dirty, .locked, .resp, .latch, .rep, .cells, .flash, .poison, .evr, .sys, .pwr, .key, .tam, .acc, .tim, .aln, .mm, .dma, .que, .dfe, .prt, .str, .out, .cas, .rpl, .isl, .alm, .cmp, .sdm, .nrg, .cap, .rad, .red] b z := by
  unfold Block.regAct at hz
  try dsimp only at hz
  repeat' split at hz
  all_goals first | (have e := Option.some.inj hz; clear hz; subst e) | (injection hz; done) | skip
  all_goals repeat' first
    | with_reducible assumption
    | with_reducible exact Touches.refl
    | exact rfl
    | (intro x
       refine Touches.mid (show Touches [.t7, .free, .vis, .act, .com, .dirty, .locked, .resp, .latch, .rep, .cells, .flash, .poison, .evr, .sys, .pwr, .key, .tam, .acc, .tim, .aln, .mm, .dma, .que, .dfe, .prt, .str, .out, .cas, .rpl, .isl, .alm, .cmp, .sdm, .nrg, .cap, .rad, .red] b x from ?_) (fun h => ?_)
       all_goals first | (with_reducible have h0 : Touches [.t7, .free, .vis, .act, .com, .dirty, .locked, .resp, .latch, .rep, .cells, .flash, .poison, .evr, .sys, .pwr, .key, .tam, .acc, .tim, .aln, .mm, .dma, .que, .dfe, .prt, .str, .out, .cas, .rpl, .isl, .alm, .cmp, .sdm, .nrg, .cap, .rad, .red] b x := h; clear h0; clear_value x) | subst x)
    | intro _
    | lift_lets
    | with_reducible refine Touches.ite ?_ ?_
    | with_reducible apply Touches.step (Block.commitBy_touches ..)
    | (with_reducible refine Touches.trans ?_ (Block.actSys_touches _ _ _ _ _ (by assumption)) ?_)
    | (with_reducible refine Touches.trans ?_ (Block.actTim_touches _ _ _ _ (by assumption)) ?_)
    | (with_reducible refine Touches.trans ?_ (Block.actPrt_touches _ _ _ _ (by assumption)) ?_)
    | (with_reducible refine Touches.trans ?_ (Block.actStr_touches _ _ _ (by assumption)) ?_)
    | (with_reducible refine Touches.trans ?_ (Block.actAln_touches _ _ _ _ (by assumption)) ?_)
    | (with_reducible refine Touches.trans ?_ (Block.actOut_touches _ _ _ _ (by assumption)) ?_)
    | (with_reducible refine Touches.trans ?_ (Block.actAlm_touches _ _ _ _ (by assumption)) ?_)
    | (with_reducible refine Touches.trans ?_ (Block.actDfe_touches _ _ _ _ _ (by assumption)) ?_)
    | (with_reducible refine Touches.trans ?_ (Block.actSdm_touches _ _ _ _ (by assumption)) ?_)
    | (with_reducible refine Touches.trans ?_ (Block.actNrg_touches _ _ _ _ (by assumption)) ?_)
    | (with_reducible refine Touches.trans ?_ (Block.actCap_touches _ _ _ _ (by assumption)) ?_)
    | (with_reducible refine Touches.trans ?_ (Block.actRad_touches _ _ _ _ _ (by assumption)) ?_)
    | (with_reducible refine Touches.trans ?_ (Block.actMem_touches _ _ _ _ _ (by assumption)) ?_)
    | (with_reducible refine Touches.trans ?_ (Block.actDma_touches _ _ _ _ _ (by assumption)) ?_)
    | (with_reducible refine Touches.trans ?_ (Block.actQue_touches _ _ _ _ (by assumption)) ?_)
    | (with_reducible refine Touches.trans ?_ (Block.actCmp_touches _ _ _ _ _ (by assumption)) ?_)
    | with_reducible apply Touches.step (Block.handoverCmd_touches ..)
    | with_reducible apply Touches.step (Block.keyUpdate_touches ..)
    | with_reducible apply Touches.step (Block.tamCfg_touches ..)
    | (with_reducible refine Touches.trans ?_ (Block.actEvr_touches _ _ _ _ _ (by assumption)) ?_)
    | (with_reducible refine Touches.trans ?_ (Block.actAcc_touches _ _ _ _ _ (by assumption)) ?_)
    | split
    | with_reducible refine Touches.snd (by assumption) ?_
    | with_reducible refine Touches.fst (by assumption) ?_
    | (clear_value *; split)
    | dsimp only
    | contradiction
    | (simp only [Option.some.injEq] at *; subst_vars)

theorem Block.advance_touches (b) (x1) (x2) (x3) : Touches [.vis] b (Block.advance b x1 x2 x3) := by
  unfold Block.advance
  repeat' first
    | with_reducible assumption
    | with_reducible exact Touches.refl
    | exact rfl
    | (intro x
       refine Touches.mid (show Touches [.vis] b x from ?_) (fun h => ?_)
       all_goals first | (with_reducible have h0 : Touches [.vis] b x := h; clear h0; clear_value x) | subst x)
    | intro _
    | lift_lets
    | with_reducible refine Touches.ite ?_ ?_
    | with_reducible apply Touches.step (Block.setVis_touches ..)
    | split
    | with_reducible refine Touches.snd (by assumption) ?_
    | with_reducible refine Touches.fst (by assumption) ?_
    | (clear_value *; split)
    | dsimp only

theorem Block.regWrite_touches (b) (x1) (x2) (x3) (x4) : Touches [.t7, .free, .vis, .act, .com, .dirty, .locked, .resp, .latch, .rep, .cells, .flash, .poison, .evr, .sys, .pwr, .key, .tam, .acc, .tim, .aln, .mm, .dma, .que, .dfe, .prt, .str, .out, .cas, .rpl, .isl, .alm, .cmp, .sdm, .nrg, .cap, .rad, .red] b (Block.regWrite b x1 x2 x3 x4) := by
  unfold Block.regWrite
  repeat' first
    | with_reducible assumption
    | with_reducible exact Touches.refl
    | exact rfl
    | (intro x
       refine Touches.mid (show Touches [.t7, .free, .vis, .act, .com, .dirty, .locked, .resp, .latch, .rep, .cells, .flash, .poison, .evr, .sys, .pwr, .key, .tam, .acc, .tim, .aln, .mm, .dma, .que, .dfe, .prt, .str, .out, .cas, .rpl, .isl, .alm, .cmp, .sdm, .nrg, .cap, .rad, .red] b x from ?_) (fun h => ?_)
       all_goals first | (with_reducible have h0 : Touches [.t7, .free, .vis, .act, .com, .dirty, .locked, .resp, .latch, .rep, .cells, .flash, .poison, .evr, .sys, .pwr, .key, .tam, .acc, .tim, .aln, .mm, .dma, .que, .dfe, .prt, .str, .out, .cas, .rpl, .isl, .alm, .cmp, .sdm, .nrg, .cap, .rad, .red] b x := h; clear h0; clear_value x) | subst x)
    | intro _
    | lift_lets
    | with_reducible refine Touches.ite ?_ ?_
    | (with_reducible refine Touches.trans ?_ (Block.regAct_touches _ _ _ _ _ (by assumption)) ?_)
    | with_reducible apply Touches.step (Block.plainWrite_touches ..)
    | split
    | with_reducible refine Touches.snd (by assumption) ?_
    | with_reducible refine Touches.fst (by assumption) ?_
    | with_reducible refine Touches.getD (fun _ _ => ?_) ?_
    | (clear_value *; split)
    | dsimp only

theorem Block.regRead_touches (b) (x1) (x2) (x3) : Touches [.vis, .latch, .pwr, .tim, .dfe, .nrg] b (Block.regRead b x1 x2 x3).2 := by
  unfold Block.regRead
  repeat' first
    | with_reducible assumption
    | with_reducible exact Touches.refl
    | exact rfl
    | (intro x
       refine Touches.mid (show Touches [.vis, .latch, .pwr, .tim, .dfe, .nrg] b x from ?_) (fun h => ?_)
       all_goals first | (with_reducible have h0 : Touches [.vis, .latch, .pwr, .tim, .dfe, .nrg] b x := h; clear h0; clear_value x) | subst x)
    | intro _
    | lift_lets
    | with_reducible refine Touches.ite ?_ ?_
    | with_reducible apply Touches.step (Block.latchNow_touches ..)
    | with_reducible apply Touches.step (Block.cntRead_touches ..)
    | with_reducible apply Touches.step (Block.rcClear_touches ..)
    | with_reducible apply Touches.step (Block.takeLatch_touches ..)
    | ((with_reducible apply Touches.set_dfe) <;> first | with_reducible assumption | with_reducible exact Touches.refl | exact rfl | with_reducible refine Touches.snd (by assumption) ?_)
    | ((with_reducible apply Touches.set_pwr) <;> first | with_reducible assumption | with_reducible exact Touches.refl | exact rfl | with_reducible refine Touches.snd (by assumption) ?_)
    | split
    | with_reducible refine Touches.snd (by assumption) ?_
    | with_reducible refine Touches.fst (by assumption) ?_
    | (clear_value *; split)
    | dsimp only

end Sys2Proof.Machine
end

