-- ==== Sys2Proof/Laws/TouchBusOps.lean ====
section
/-! SUPPORT. What the operations of Machine/BusOps.lean touch. -/

namespace Sys2Proof.Machine

set_option linter.all false

theorem Block.queueFound_touches (b) (x1) : Touches [.free, .vis, .resp, .rep, .cells, .poison, .evr, .aln, .mm, .que, .dfe, .rpl] b (Block.queueFound b x1) := by
  unfold Block.queueFound
  repeat' first
    | with_reducible assumption
    | with_reducible exact Touches.refl
    | exact rfl
    | (intro x
       refine Touches.mid (show Touches [.free, .vis, .resp, .rep, .cells, .poison, .evr, .aln, .mm, .que, .dfe, .rpl] b x from ?_) (fun h => ?_)
       all_goals first | (with_reducible have h0 : Touches [.free, .vis, .resp, .rep, .cells, .poison, .evr, .aln, .mm, .que, .dfe, .rpl] b x := h; clear h0; clear_value x) | subst x)
    | intro _
    | lift_lets
    | with_reducible refine Touches.ite ?_ ?_
    | with_reducible apply Touches.step (Block.rangeFound_touches ..)
    | split
    | with_reducible refine Touches.snd (by assumption) ?_
    | with_reducible refine Touches.fst (by assumption) ?_
    | (clear_value *; split)
    | dsimp only

theorem Block.queueRead_touches (b) (x1) (x2) : Touches [.free, .vis, .resp, .rep, .cells, .poison, .evr, .aln, .mm, .que, .dfe, .rpl] b (Block.queueRead b x1 x2).2 := by
  unfold Block.queueRead
  repeat' first
    | with_reducible assumption
    | with_reducible exact Touches.refl
    | exact rfl
    | (intro x
       refine Touches.mid (show Touches [.free, .vis, .resp, .rep, .cells, .poison, .evr, .aln, .mm, .que, .dfe, .rpl] b x from ?_) (fun h => ?_)
       all_goals first | (with_reducible have h0 : Touches [.free, .vis, .resp, .rep, .cells, .poison, .evr, .aln, .mm, .que, .dfe, .rpl] b x := h; clear h0; clear_value x) | subst x)
    | intro _
    | lift_lets
    | with_reducible refine Touches.ite ?_ ?_
    | with_reducible apply Touches.step (Block.queueFound_touches ..)
    | with_reducible apply Touches.step (Block.pop_touches ..)
    | with_reducible apply Touches.step (Block.trypop_touches ..)
    | with_reducible apply Touches.step (Block.answer_touches ..)
    | split
    | with_reducible refine Touches.snd (by assumption) ?_
    | with_reducible refine Touches.fst (by assumption) ?_
    | (clear_value *; split)
    | dsimp only

theorem Block.busLoad_touches (b) (x1) (x2) (x3) : Touches [.free, .vis, .resp, .latch, .rep, .cells, .poison, .evr, .sys, .pwr, .tim, .aln, .mm, .que, .dfe, .rpl, .nrg] b (Block.busLoad b x1 x2 x3).2.2 := by
  unfold Block.busLoad
  repeat' first
    | with_reducible assumption
    | with_reducible exact Touches.refl
    | exact rfl
    | (intro x
       refine Touches.mid (show Touches [.free, .vis, .resp, .latch, .rep, .cells, .poison, .evr, .sys, .pwr, .tim, .aln, .mm, .que, .dfe, .rpl, .nrg] b x from ?_) (fun h => ?_)
       all_goals first | (with_reducible have h0 : Touches [.free, .vis, .resp, .latch, .rep, .cells, .poison, .evr, .sys, .pwr, .tim, .aln, .mm, .que, .dfe, .rpl, .nrg] b x := h; clear h0; clear_value x) | subst x)
    | intro _
    | lift_lets
    | with_reducible refine Touches.ite ?_ ?_
    | with_reducible apply Touches.step (Block.plicRead_touches ..)
    | with_reducible apply Touches.step (Block.busFound_touches ..)
    | with_reducible apply Touches.step (Block.coreLoad_touches ..)
    | with_reducible apply Touches.step (Block.queueRead_touches ..)
    | with_reducible apply Touches.step (Block.regRead_touches ..)
    | with_reducible apply Touches.step (Block.advance_touches ..)
    | with_reducible refine Touches.fold ?_ (fun _ _ _ => ?_)
    | split
    | with_reducible refine Touches.snd (by assumption) ?_
    | with_reducible refine Touches.fst (by assumption) ?_
    | with_reducible refine Touches.fold1 ?_ (fun _ _ _ => ?_)
    | with_reducible refine Touches.fold2 ?_ (fun _ _ _ => ?_)
    | (clear_value *; split)
    | dsimp only

theorem Block.partialFound_touches (b) (x1) (x2) : Touches [.free, .vis, .resp, .rep, .cells, .poison, .evr, .aln, .mm, .que, .dfe, .rpl] b (Block.partialFound b x1 x2) := by
  unfold Block.partialFound
  repeat' first
    | with_reducible assumption
    | with_reducible exact Touches.refl
    | exact rfl
    | (intro x
       refine Touches.mid (show Touches [.free, .vis, .resp, .rep, .cells, .poison, .evr, .aln, .mm, .que, .dfe, .rpl] b x from ?_) (fun h => ?_)
       all_goals first | (with_reducible have h0 : Touches [.free, .vis, .resp, .rep, .cells, .poison, .evr, .aln, .mm, .que, .dfe, .rpl] b x := h; clear h0; clear_value x) | subst x)
    | intro _
    | lift_lets
    | with_reducible refine Touches.ite ?_ ?_
    | with_reducible apply Touches.step (Block.busFound_touches ..)
    | split
    | with_reducible refine Touches.snd (by assumption) ?_
    | with_reducible refine Touches.fst (by assumption) ?_
    | (clear_value *; split)
    | dsimp only

theorem Block.busStore_touches (b) (x1) (x2) (x3) (x4) : Touches [.t7, .free, .vis, .act, .com, .dirty, .locked, .resp, .latch, .rep, .cells, .flash, .poison, .evr, .sys, .pwr, .key, .tam, .acc, .tim, .aln, .mm, .dma, .que, .dfe, .prt, .str, .out, .cas, .rpl, .isl, .alm, .cmp, .sdm, .nrg, .cap, .rad, .red] b (Block.busStore b x1 x2 x3 x4).2 := by
  unfold Block.busStore
  repeat' first
    | with_reducible assumption
    | with_reducible exact Touches.refl
    | exact rfl
    | (intro x
       refine Touches.mid (show Touches [.t7, .free, .vis, .act, .com, .dirty, .locked, .resp, .latch, .rep, .cells, .flash, .poison, .evr, .sys, .pwr, .key, .tam, .acc, .tim, .aln, .mm, .dma, .que, .dfe, .prt, .str, .out, .cas, .rpl, .isl, .alm, .cmp, .sdm, .nrg, .cap, .rad, .red] b x from ?_) (fun h => ?_)
       all_goals first | (with_reducible have h0 : Touches [.t7, .free, .vis, .act, .com, .dirty, .locked, .resp, .latch, .rep, .cells, .flash, .poison, .evr, .sys, .pwr, .key, .tam, .acc, .tim, .aln, .mm, .dma, .que, .dfe, .prt, .str, .out, .cas, .rpl, .isl, .alm, .cmp, .sdm, .nrg, .cap, .rad, .red] b x := h; clear h0; clear_value x) | subst x)
    | intro _
    | lift_lets
    | with_reducible refine Touches.ite ?_ ?_
    | with_reducible apply Touches.step (Block.plicWrite_touches ..)
    | with_reducible apply Touches.step (Block.storeN_touches ..)
    | with_reducible apply Touches.step (Block.coreStore_touches ..)
    | with_reducible apply Touches.step (Block.partialFound_touches ..)
    | with_reducible apply Touches.step (Block.push_touches ..)
    | with_reducible apply Touches.step (Block.advance_touches ..)
    | with_reducible apply Touches.step (Block.regWrite_touches ..)
    | split
    | with_reducible refine Touches.snd (by assumption) ?_
    | with_reducible refine Touches.fst (by assumption) ?_
    | (clear_value *; split)
    | dsimp only

theorem Block.firingSpoilt_touches (b) (x1) : Touches [.dfe] b (Block.firingSpoilt b x1) := by
  unfold Block.firingSpoilt
  repeat' first
    | with_reducible assumption
    | with_reducible exact Touches.refl
    | exact rfl
    | (intro x
       refine Touches.mid (show Touches [.dfe] b x from ?_) (fun h => ?_)
       all_goals first | (with_reducible have h0 : Touches [.dfe] b x := h; clear h0; clear_value x) | subst x)
    | intro _
    | lift_lets
    | with_reducible refine Touches.ite ?_ ?_
    | with_reducible apply Touches.step (Block.setCore_touches ..)
    | split
    | with_reducible refine Touches.snd (by assumption) ?_
    | with_reducible refine Touches.fst (by assumption) ?_
    | (clear_value *; split)
    | dsimp only

theorem Block.masterRead_touches (b) (x1) (x2) (x3) : Touches [.free, .vis, .act, .com, .dirty, .resp, .latch, .rep, .cells, .poison, .evr, .sys, .pwr, .acc, .tim, .aln, .mm, .dma, .que, .dfe, .prt, .out, .cas, .rpl, .alm, .cmp, .nrg, .cap, .red] b (Block.masterRead b x1 x2 x3) := by
  unfold Block.masterRead
  repeat' first
    | with_reducible assumption
    | with_reducible exact Touches.refl
    | exact rfl
    | (intro x
       refine Touches.mid (show Touches [.free, .vis, .act, .com, .dirty, .resp, .latch, .rep, .cells, .poison, .evr, .sys, .pwr, .acc, .tim, .aln, .mm, .dma, .que, .dfe, .prt, .out, .cas, .rpl, .alm, .cmp, .nrg, .cap, .red] b x from ?_) (fun h => ?_)
       all_goals first | (with_reducible have h0 : Touches [.free, .vis, .act, .com, .dirty, .resp, .latch, .rep, .cells, .poison, .evr, .sys, .pwr, .acc, .tim, .aln, .mm, .dma, .que, .dfe, .prt, .out, .cas, .rpl, .alm, .cmp, .nrg, .cap, .red] b x := h; clear h0; clear_value x) | subst x)
    | intro _
    | lift_lets
    | with_reducible refine Touches.ite ?_ ?_
    | with_reducible apply Touches.step (Block.violate_touches ..)
    | with_reducible apply Touches.step (Block.busLoad_touches ..)
    | with_reducible apply Touches.step (Block.answer_touches ..)
    | with_reducible apply Touches.step (Block.firingSpoilt_touches ..)
    | split
    | with_reducible refine Touches.snd (by assumption) ?_
    | with_reducible refine Touches.fst (by assumption) ?_
    | with_reducible refine Touches.third (by assumption) ?_
    | with_reducible refine Touches.fourth (by assumption) ?_
    | (clear_value *; split)
    | dsimp only

theorem Block.masterWrite_touches (b) (x1) (x2) (x3) (x4) : Touches [.t7, .free, .vis, .act, .com, .dirty, .locked, .resp, .latch, .rep, .cells, .flash, .poison, .evr, .sys, .pwr, .key, .tam, .acc, .tim, .aln, .mm, .dma, .que, .dfe, .prt, .str, .out, .cas, .rpl, .isl, .alm, .cmp, .sdm, .nrg, .cap, .rad, .red] b (Block.masterWrite b x1 x2 x3 x4) := by
  unfold Block.masterWrite
  repeat' first
    | with_reducible assumption
    | with_reducible exact Touches.refl
    | exact rfl
    | (intro x
       refine Touches.mid (show Touches [.t7, .free, .vis, .act, .com, .dirty, .locked, .resp, .latch, .rep, .cells, .flash, .poison, .evr, .sys, .pwr, .key, .tam, .acc, .tim, .aln, .mm, .dma, .que, .dfe, .prt, .str, .out, .cas, .rpl, .isl, .alm, .cmp, .sdm, .nrg, .cap, .rad, .red] b x from ?_) (fun h => ?_)
       all_goals first | (with_reducible have h0 : Touches [.t7, .free, .vis, .act, .com, .dirty, .locked, .resp, .latch, .rep, .cells, .flash, .poison, .evr, .sys, .pwr, .key, .tam, .acc, .tim, .aln, .mm, .dma, .que, .dfe, .prt, .str, .out, .cas, .rpl, .isl, .alm, .cmp, .sdm, .nrg, .cap, .rad, .red] b x := h; clear h0; clear_value x) | subst x)
    | intro _
    | lift_lets
    | with_reducible refine Touches.ite ?_ ?_
    | with_reducible apply Touches.step (Block.violate_touches ..)
    | with_reducible apply Touches.step (Block.busStore_touches ..)
    | with_reducible apply Touches.step (Block.answer_touches ..)
    | with_reducible apply Touches.step (Block.firingSpoilt_touches ..)
    | split
    | with_reducible refine Touches.snd (by assumption) ?_
    | with_reducible refine Touches.fst (by assumption) ?_
    | (clear_value *; split)
    | dsimp only

theorem Block.byMaster_touches {l : List Part} (b : Block) (m blk off : Nat) (f : Block → Block) (s : Parts.sub [.free, .vis, .act, .com, .dirty, .resp, .rep, .cells, .poison, .evr, .sys, .acc, .tim, .aln, .dma, .que, .dfe, .prt, .out, .cas, .rpl, .alm, .cmp, .cap, .red] l = true)
    (k : Touches l b (f b)) : Touches l b (b.byMaster m blk off f) := by
  unfold Block.byMaster
  dsimp only
  split
  · exact Touches.refl
  · split
    · exact (Block.violate_touches ..).weaken s
    · have e : ∀ x, Touches [.free, .vis, .act, .com, .dirty, .resp, .rep, .cells, .poison, .evr, .sys, .acc, .tim, .aln, .dma, .que, .dfe, .prt, .out, .cas, .rpl, .alm, .cmp, .cap, .red] x ((x.advance m blk off).answer m .written) := fun x =>
        (Touches.refl.trans (Block.advance_touches ..) rfl).trans (Block.answer_touches ..) rfl
      exact k.trans (e _) s

theorem Block.byQueue_touches {l : List Part} (b : Block) (m q reg : Nat) (write : Bool) (f : Block → Block)
    (s : Parts.sub [.free, .vis, .act, .com, .dirty, .resp, .rep, .cells, .poison, .evr, .sys, .acc, .tim, .aln, .dma, .que, .dfe, .prt, .out, .cas, .rpl, .alm, .cmp, .cap, .red] l = true) (k : Touches l b (f b)) : Touches l b (b.byQueue m q reg write f) := by
  unfold Block.byQueue
  split
  · exact Touches.refl
  · split
    · exact (Block.violate_touches ..).weaken s
    · exact k

theorem DmaMove.read_touches (x0) (x1) (b) (x3) : Touches [.free, .vis, .resp, .latch, .rep, .cells, .poison, .evr, .sys, .pwr, .tim, .aln, .mm, .que, .dfe, .rpl, .nrg] b.blk (DmaMove.read x0 x1 b x3).blk := by
  unfold DmaMove.read
  repeat' first
    | with_reducible assumption
    | with_reducible exact Touches.refl
    | exact rfl
    | (intro x
       refine Touches.mid (show Touches [.free, .vis, .resp, .latch, .rep, .cells, .poison, .evr, .sys, .pwr, .tim, .aln, .mm, .que, .dfe, .rpl, .nrg] b.blk x from ?_) (fun h => ?_)
       all_goals first | (with_reducible have h0 : Touches [.free, .vis, .resp, .latch, .rep, .cells, .poison, .evr, .sys, .pwr, .tim, .aln, .mm, .que, .dfe, .rpl, .nrg] b.blk x := h; clear h0; clear_value x) | subst x)
    | intro _
    | lift_lets
    | with_reducible refine Touches.ite ?_ ?_
    | with_reducible apply Touches.step (Block.busLoad_touches ..)
    | split
    | with_reducible refine Touches.snd (by assumption) ?_
    | with_reducible refine Touches.fst (by assumption) ?_
    | with_reducible refine Touches.third (by assumption) ?_
    | with_reducible refine Touches.fourth (by assumption) ?_
    | (clear_value *; split)
    | dsimp only

theorem DmaMove.write_touches (x0) (x1) (b) (x3) : Touches [.t7, .free, .vis, .act, .com, .dirty, .locked, .resp, .latch, .rep, .cells, .flash, .poison, .evr, .sys, .pwr, .key, .tam, .acc, .tim, .aln, .mm, .dma, .que, .dfe, .prt, .str, .out, .cas, .rpl, .isl, .alm, .cmp, .sdm, .nrg, .cap, .rad, .red] b.blk (DmaMove.write x0 x1 b x3).blk := by
  unfold DmaMove.write
  repeat' first
    | with_reducible assumption
    | with_reducible exact Touches.refl
    | exact rfl
    | (intro x
       refine Touches.mid (show Touches [.t7, .free, .vis, .act, .com, .dirty, .locked, .resp, .latch, .rep, .cells, .flash, .poison, .evr, .sys, .pwr, .key, .tam, .acc, .tim, .aln, .mm, .dma, .que, .dfe, .prt, .str, .out, .cas, .rpl, .isl, .alm, .cmp, .sdm, .nrg, .cap, .rad, .red] b.blk x from ?_) (fun h => ?_)
       all_goals first | (with_reducible have h0 : Touches [.t7, .free, .vis, .act, .com, .dirty, .locked, .resp, .latch, .rep, .cells, .flash, .poison, .evr, .sys, .pwr, .key, .tam, .acc, .tim, .aln, .mm, .dma, .que, .dfe, .prt, .str, .out, .cas, .rpl, .isl, .alm, .cmp, .sdm, .nrg, .cap, .rad, .red] b.blk x := h; clear h0; clear_value x) | subst x)
    | intro _
    | lift_lets
    | with_reducible refine Touches.ite ?_ ?_
    | with_reducible apply Touches.step (Block.busStore_touches ..)
    | with_reducible apply Touches.step (Block.poisonAt_touches ..)
    | with_reducible refine Touches.fold ?_ (fun _ _ _ => ?_)
    | split
    | with_reducible refine Touches.snd (by assumption) ?_
    | with_reducible refine Touches.fst (by assumption) ?_
    | (clear_value *; split)
    | dsimp only

theorem DmaMove.blur_touches (x0) (b) : Touches [.free] b.blk (DmaMove.blur x0 b).blk := by
  unfold DmaMove.blur
  repeat' first
    | with_reducible assumption
    | with_reducible exact Touches.refl
    | exact rfl
    | (intro x
       refine Touches.mid (show Touches [.free] b.blk x from ?_) (fun h => ?_)
       all_goals first | (with_reducible have h0 : Touches [.free] b.blk x := h; clear h0; clear_value x) | subst x)
    | intro _
    | lift_lets
    | with_reducible apply Touches.step (Block.draw_touches ..)
    | dsimp only

theorem DmaMove.drain_touches (x0) (x1) (x2) (x3) (x4) (b) : Touches [.t7, .free, .vis, .act, .com, .dirty, .locked, .resp, .latch, .rep, .cells, .flash, .poison, .evr, .sys, .pwr, .key, .tam, .acc, .tim, .aln, .mm, .dma, .que, .dfe, .prt, .str, .out, .cas, .rpl, .isl, .alm, .cmp, .sdm, .nrg, .cap, .rad, .red] b.blk (DmaMove.drain x0 x1 x2 x3 x4 b).blk := by
  have fold : ∀ (r : List (Nat × Nat)) (s y : DmaMove), Touches [.t7, .free, .vis, .act, .com, .dirty, .locked, .resp, .latch, .rep, .cells, .flash, .poison, .evr, .sys, .pwr, .key, .tam, .acc, .tim, .aln, .mm, .dma, .que, .dfe, .prt, .str, .out, .cas, .rpl, .isl, .alm, .cmp, .sdm, .nrg, .cap, .rad, .red] b.blk s.blk → Touches [.t7, .free, .vis, .act, .com, .dirty, .locked, .resp, .latch, .rep, .cells, .flash, .poison, .evr, .sys, .pwr, .key, .tam, .acc, .tim, .aln, .mm, .dma, .que, .dfe, .prt, .str, .out, .cas, .rpl, .isl, .alm, .cmp, .sdm, .nrg, .cap, .rad, .red] b.blk (r.foldl (DmaMove.write x0 x1) s).blk := by
    intro r
    induction r with
    | nil => exact fun _ _ h => h
    | cons e r ih => exact fun s y h => ih _ y (h.trans (DmaMove.write_touches ..) rfl)
  suffices h : ∀ s, Touches [.t7, .free, .vis, .act, .com, .dirty, .locked, .resp, .latch, .rep, .cells, .flash, .poison, .evr, .sys, .pwr, .key, .tam, .acc, .tim, .aln, .mm, .dma, .que, .dfe, .prt, .str, .out, .cas, .rpl, .isl, .alm, .cmp, .sdm, .nrg, .cap, .rad, .red] b.blk s.blk → Touches [.t7, .free, .vis, .act, .com, .dirty, .locked, .resp, .latch, .rep, .cells, .flash, .poison, .evr, .sys, .pwr, .key, .tam, .acc, .tim, .aln, .mm, .dma, .que, .dfe, .prt, .str, .out, .cas, .rpl, .isl, .alm, .cmp, .sdm, .nrg, .cap, .rad, .red] b.blk (DmaMove.drain x0 x1 x2 x3 x4 s).blk from h b Touches.refl
  induction x4 with
  | zero => exact fun _ h => h
  | succ n ih =>
    intro s h
    unfold DmaMove.drain
    split
    · exact h
    · refine ih _ (fold _ _ s ?_)
      split
      · exact h.trans (Block.draw_touches ..) rfl
      · exact h

theorem DmaMove.element_touches (m) (halt) (src dst) (free) (x : DmaMove) (i) {b : Block} (h : Touches [.t7, .free, .vis, .act, .com, .dirty, .locked, .resp, .latch, .rep, .cells, .flash, .poison, .evr, .sys, .pwr, .key, .tam, .acc, .tim, .aln, .mm, .dma, .que, .dfe, .prt, .str, .out, .cas, .rpl, .isl, .alm, .cmp, .sdm, .nrg, .cap, .rad, .red] b x.blk) :
    Touches [.t7, .free, .vis, .act, .com, .dirty, .locked, .resp, .latch, .rep, .cells, .flash, .poison, .evr, .sys, .pwr, .key, .tam, .acc, .tim, .aln, .mm, .dma, .que, .dfe, .prt, .str, .out, .cas, .rpl, .isl, .alm, .cmp, .sdm, .nrg, .cap, .rad, .red] b (DmaMove.element m halt src dst free x i).blk := by
  have fold : ∀ (r : List (Nat × Nat)) (s : DmaMove), Touches [.t7, .free, .vis, .act, .com, .dirty, .locked, .resp, .latch, .rep, .cells, .flash, .poison, .evr, .sys, .pwr, .key, .tam, .acc, .tim, .aln, .mm, .dma, .que, .dfe, .prt, .str, .out, .cas, .rpl, .isl, .alm, .cmp, .sdm, .nrg, .cap, .rad, .red] b s.blk → Touches [.t7, .free, .vis, .act, .com, .dirty, .locked, .resp, .latch, .rep, .cells, .flash, .poison, .evr, .sys, .pwr, .key, .tam, .acc, .tim, .aln, .mm, .dma, .que, .dfe, .prt, .str, .out, .cas, .rpl, .isl, .alm, .cmp, .sdm, .nrg, .cap, .rad, .red] b (r.foldl (DmaMove.read m halt) s).blk := by
    intro r
    induction r with
    | nil => exact fun _ h => h
    | cons e r ih => exact fun s h => ih _ (h.trans (DmaMove.read_touches ..) rfl)
  unfold DmaMove.element
  dsimp only
  refine Touches.trans ?_ (DmaMove.drain_touches ..) rfl
  split
  · exact fold _ _ h
  · exact fold _ _ h

theorem Block.dmaHeld_touches (b : Block) (m c) : (b.dmaHeld m c).blk = b := by
  unfold Block.dmaHeld
  dsimp only
  split
  · rfl
  · split <;> rfl

theorem Block.dmaMove_touches (b) (x1) (x2) : Touches [.t7, .free, .vis, .act, .com, .dirty, .locked, .resp, .latch, .rep, .cells, .flash, .poison, .evr, .sys, .pwr, .key, .tam, .acc, .tim, .aln, .mm, .dma, .que, .dfe, .prt, .str, .out, .cas, .rpl, .isl, .alm, .cmp, .sdm, .nrg, .cap, .rad, .red] b (Block.dmaMove b x1 x2).blk := by
  unfold Block.dmaMove
  dsimp only
  generalize (List.range _).drop _ = r
  have h : Touches [.t7, .free, .vis, .act, .com, .dirty, .locked, .resp, .latch, .rep, .cells, .flash, .poison, .evr, .sys, .pwr, .key, .tam, .acc, .tim, .aln, .mm, .dma, .que, .dfe, .prt, .str, .out, .cas, .rpl, .isl, .alm, .cmp, .sdm, .nrg, .cap, .rad, .red] b (DmaMove.drain (52 + x1 / 16) x2 (b.dmaDst x1) ((b.dmaSrc x1).overlaps (b.dmaDst x1)) 8 (b.dmaHeld (52 + x1 / 16) x1)).blk := by
    have k := DmaMove.drain_touches (52 + x1 / 16) x2 (b.dmaDst x1) ((b.dmaSrc x1).overlaps (b.dmaDst x1)) 8 (b.dmaHeld (52 + x1 / 16) x1)
    rw [Block.dmaHeld_touches] at k
    exact k
  revert h
  generalize DmaMove.drain _ _ _ _ _ _ = s
  induction r generalizing s with
  | nil => exact fun h => h
  | cons e r ih => exact fun h => ih _ (DmaMove.element_touches _ _ _ _ _ _ _ h)

theorem DmaMove.kept_touches (x : DmaMove) (m c) : Touches [.resp, .dma] x.blk (x.kept m c) := by
  unfold DmaMove.kept
  dsimp only
  exact (Touches.ite Touches.refl (Touches.refl.trans (Block.answer_touches ..) rfl)).trans (Block.setDmaCh_touches ..) rfl

theorem Block.dmaStopped_touches (e c) (x : DmaMove) (w) : Touches [.free, .vis, .act, .com, .dirty, .resp, .rep, .cells, .poison, .evr, .sys, .acc, .tim, .aln, .dma, .que, .dfe, .prt, .out, .cas, .rpl, .alm, .cmp, .cap, .red] x.blk (Block.dmaStopped e c x w) := by
  cases w with
  | bus => exact (Block.dmaBusError_touches ..).weaken rfl
  | viol a n w => exact (Touches.refl.trans (Block.setDmaCh_touches ..) rfl).trans (Block.violate_touches ..) rfl
  | stall => exact (DmaMove.kept_touches ..).weaken rfl

theorem Block.dmaAdvance_touches (b) (x1) : Touches [.t7, .free, .vis, .act, .com, .dirty, .locked, .resp, .latch, .rep, .cells, .flash, .poison, .evr, .sys, .pwr, .key, .tam, .acc, .tim, .aln, .mm, .dma, .que, .dfe, .prt, .str, .out, .cas, .rpl, .isl, .alm, .cmp, .sdm, .nrg, .cap, .rad, .red] b (Block.dmaAdvance b x1) := by
  unfold Block.dmaAdvance
  repeat' first
    | with_reducible assumption
    | with_reducible exact Touches.refl
    | exact rfl
    | (intro x
       refine Touches.mid (show Touches [.t7, .free, .vis, .act, .com, .dirty, .locked, .resp, .latch, .rep, .cells, .flash, .poison, .evr, .sys, .pwr, .key, .tam, .acc, .tim, .aln, .mm, .dma, .que, .dfe, .prt, .str, .out, .cas, .rpl, .isl, .alm, .cmp, .sdm, .nrg, .cap, .rad, .red] b x from ?_) (fun h => ?_)
       all_goals first | (with_reducible have h0 : Touches [.t7, .free, .vis, .act, .com, .dirty, .locked, .resp, .latch, .rep, .cells, .flash, .poison, .evr, .sys, .pwr, .key, .tam, .acc, .tim, .aln, .mm, .dma, .que, .dfe, .prt, .str, .out, .cas, .rpl, .isl, .alm, .cmp, .sdm, .nrg, .cap, .rad, .red] b x := h; clear h0; clear_value x) | subst x)
    | intro _
    | lift_lets
    | with_reducible refine Touches.ite ?_ ?_
    | with_reducible apply Touches.step (Block.dmaMove_touches ..)
    | with_reducible apply Touches.step (Block.setDmaCh_touches ..)
    | with_reducible apply Touches.step (Block.dmaStopped_touches ..)
    | split
    | with_reducible refine Touches.snd (by assumption) ?_
    | with_reducible refine Touches.fst (by assumption) ?_
    | (clear_value *; split)
    | dsimp only

theorem Block.dmaGo_touches (b) (x1) : Touches [.t7, .free, .vis, .act, .com, .dirty, .locked, .resp, .latch, .rep, .cells, .flash, .poison, .evr, .sys, .pwr, .key, .tam, .acc, .tim, .aln, .mm, .dma, .que, .dfe, .prt, .str, .out, .cas, .rpl, .isl, .alm, .cmp, .sdm, .nrg, .cap, .rad, .red] b (Block.dmaGo b x1) := by
  unfold Block.dmaGo
  repeat' first
    | with_reducible assumption
    | with_reducible exact Touches.refl
    | exact rfl
    | (intro x
       refine Touches.mid (show Touches [.t7, .free, .vis, .act, .com, .dirty, .locked, .resp, .latch, .rep, .cells, .flash, .poison, .evr, .sys, .pwr, .key, .tam, .acc, .tim, .aln, .mm, .dma, .que, .dfe, .prt, .str, .out, .cas, .rpl, .isl, .alm, .cmp, .sdm, .nrg, .cap, .rad, .red] b x from ?_) (fun h => ?_)
       all_goals first | (with_reducible have h0 : Touches [.t7, .free, .vis, .act, .com, .dirty, .locked, .resp, .latch, .rep, .cells, .flash, .poison, .evr, .sys, .pwr, .key, .tam, .acc, .tim, .aln, .mm, .dma, .que, .dfe, .prt, .str, .out, .cas, .rpl, .isl, .alm, .cmp, .sdm, .nrg, .cap, .rad, .red] b x := h; clear h0; clear_value x) | subst x)
    | intro _
    | lift_lets
    | with_reducible refine Touches.ite ?_ ?_
    | with_reducible apply Touches.step (Block.dmaAdvance_touches ..)
    | with_reducible apply Touches.step (Block.dmaRun_touches ..)
    | split
    | with_reducible refine Touches.snd (by assumption) ?_
    | with_reducible refine Touches.fst (by assumption) ?_
    | (clear_value *; split)
    | dsimp only

theorem Block.dmaFinish_touches (b) (x1) : Touches [.t7, .free, .vis, .act, .com, .dirty, .locked, .resp, .latch, .rep, .cells, .flash, .poison, .evr, .sys, .pwr, .key, .tam, .acc, .tim, .aln, .mm, .dma, .que, .dfe, .prt, .str, .out, .cas, .rpl, .isl, .alm, .cmp, .sdm, .nrg, .cap, .rad, .red] b (Block.dmaFinish b x1) := by
  unfold Block.dmaFinish
  repeat' first
    | with_reducible assumption
    | with_reducible exact Touches.refl
    | exact rfl
    | (intro x
       refine Touches.mid (show Touches [.t7, .free, .vis, .act, .com, .dirty, .locked, .resp, .latch, .rep, .cells, .flash, .poison, .evr, .sys, .pwr, .key, .tam, .acc, .tim, .aln, .mm, .dma, .que, .dfe, .prt, .str, .out, .cas, .rpl, .isl, .alm, .cmp, .sdm, .nrg, .cap, .rad, .red] b x from ?_) (fun h => ?_)
       all_goals first | (with_reducible have h0 : Touches [.t7, .free, .vis, .act, .com, .dirty, .locked, .resp, .latch, .rep, .cells, .flash, .poison, .evr, .sys, .pwr, .key, .tam, .acc, .tim, .aln, .mm, .dma, .que, .dfe, .prt, .str, .out, .cas, .rpl, .isl, .alm, .cmp, .sdm, .nrg, .cap, .rad, .red] b x := h; clear h0; clear_value x) | subst x)
    | intro _
    | lift_lets
    | with_reducible refine Touches.ite ?_ ?_
    | with_reducible apply Touches.step (Block.dmaMove_touches ..)
    | with_reducible apply Touches.step (Block.dmaDone_touches ..)
    | with_reducible apply Touches.step (Block.dmaStopped_touches ..)
    | split
    | with_reducible refine Touches.snd (by assumption) ?_
    | with_reducible refine Touches.fst (by assumption) ?_
    | (clear_value *; split)
    | dsimp only

theorem Block.timeoutNote_touches (b) (x1) (x2) : Touches [.vis, .rep, .evr] b (Block.timeoutNote b x1 x2) := by
  unfold Block.timeoutNote
  repeat' first
    | with_reducible assumption
    | with_reducible exact Touches.refl
    | exact rfl
    | (intro x
       refine Touches.mid (show Touches [.vis, .rep, .evr] b x from ?_) (fun h => ?_)
       all_goals first | (with_reducible have h0 : Touches [.vis, .rep, .evr] b x := h; clear h0; clear_value x) | subst x)
    | intro _
    | lift_lets
    | with_reducible refine Touches.ite ?_ ?_
    | with_reducible apply Touches.step (Block.eventRep_touches ..)
    | with_reducible apply Touches.step (Block.irq_touches ..)
    | with_reducible apply Touches.step (Block.count_touches ..)
    | split
    | with_reducible refine Touches.snd (by assumption) ?_
    | with_reducible refine Touches.fst (by assumption) ?_
    | (clear_value *; split)
    | dsimp only

theorem Block.moverTimeout_touches (b) (x1) (x2) : Touches [.t7, .free, .vis, .act, .com, .dirty, .locked, .resp, .latch, .rep, .cells, .flash, .poison, .evr, .sys, .pwr, .key, .tam, .acc, .tim, .aln, .mm, .dma, .que, .dfe, .prt, .str, .out, .cas, .rpl, .isl, .alm, .cmp, .sdm, .nrg, .cap, .rad, .red] b (Block.moverTimeout b x1 x2) := by
  unfold Block.moverTimeout
  repeat' first
    | with_reducible assumption
    | with_reducible exact Touches.refl
    | exact rfl
    | (intro x
       refine Touches.mid (show Touches [.t7, .free, .vis, .act, .com, .dirty, .locked, .resp, .latch, .rep, .cells, .flash, .poison, .evr, .sys, .pwr, .key, .tam, .acc, .tim, .aln, .mm, .dma, .que, .dfe, .prt, .str, .out, .cas, .rpl, .isl, .alm, .cmp, .sdm, .nrg, .cap, .rad, .red] b x from ?_) (fun h => ?_)
       all_goals first | (with_reducible have h0 : Touches [.t7, .free, .vis, .act, .com, .dirty, .locked, .resp, .latch, .rep, .cells, .flash, .poison, .evr, .sys, .pwr, .key, .tam, .acc, .tim, .aln, .mm, .dma, .que, .dfe, .prt, .str, .out, .cas, .rpl, .isl, .alm, .cmp, .sdm, .nrg, .cap, .rad, .red] b x := h; clear h0; clear_value x) | subst x)
    | intro _
    | lift_lets
    | with_reducible refine Touches.ite ?_ ?_
    | with_reducible apply Touches.step (Block.dmaMove_touches ..)
    | with_reducible apply Touches.step (DmaMove.kept_touches ..)
    | with_reducible apply Touches.step (Block.dmaBusError_touches ..)
    | with_reducible apply Touches.step (Block.timeoutNote_touches ..)
    | with_reducible apply Touches.step (Block.answer_touches ..)
    | with_reducible apply Touches.step (Block.readTimeout_touches ..)
    | split
    | with_reducible refine Touches.snd (by assumption) ?_
    | with_reducible refine Touches.fst (by assumption) ?_
    | (clear_value *; split)
    | dsimp only

theorem Block.busTimeout_touches (b) (x1) (x2) : Touches [.t7, .free, .vis, .act, .com, .dirty, .locked, .resp, .latch, .rep, .cells, .flash, .poison, .evr, .sys, .pwr, .key, .tam, .acc, .tim, .aln, .mm, .dma, .que, .dfe, .prt, .str, .out, .cas, .rpl, .isl, .alm, .cmp, .sdm, .nrg, .cap, .rad, .red] b (Block.busTimeout b x1 x2) := by
  unfold Block.busTimeout
  repeat' first
    | with_reducible assumption
    | with_reducible exact Touches.refl
    | exact rfl
    | (intro x
       refine Touches.mid (show Touches [.t7, .free, .vis, .act, .com, .dirty, .locked, .resp, .latch, .rep, .cells, .flash, .poison, .evr, .sys, .pwr, .key, .tam, .acc, .tim, .aln, .mm, .dma, .que, .dfe, .prt, .str, .out, .cas, .rpl, .isl, .alm, .cmp, .sdm, .nrg, .cap, .rad, .red] b x from ?_) (fun h => ?_)
       all_goals first | (with_reducible have h0 : Touches [.t7, .free, .vis, .act, .com, .dirty, .locked, .resp, .latch, .rep, .cells, .flash, .poison, .evr, .sys, .pwr, .key, .tam, .acc, .tim, .aln, .mm, .dma, .que, .dfe, .prt, .str, .out, .cas, .rpl, .isl, .alm, .cmp, .sdm, .nrg, .cap, .rad, .red] b x := h; clear h0; clear_value x) | subst x)
    | intro _
    | lift_lets
    | with_reducible refine Touches.ite ?_ ?_
    | with_reducible apply Touches.step (Block.moverTimeout_touches ..)
    | with_reducible apply Touches.step (Block.readTimeout_touches ..)
    | with_reducible apply Touches.step (Block.timeoutNote_touches ..)
    | with_reducible apply Touches.step (Block.answer_touches ..)
    | with_reducible apply Touches.step (Block.firingSpoilt_touches ..)
    | split
    | with_reducible refine Touches.snd (by assumption) ?_
    | with_reducible refine Touches.fst (by assumption) ?_
    | (clear_value *; split)
    | dsimp only

end Sys2Proof.Machine
end

