-- ==== Sys2Proof/Laws/Bus.lean ====
section
/-! SUPPORT. A command by a master that may write its register; what an answer and SEL's advance leave alone. -/

namespace Sys2Proof.Machine

/-- The command has its effect, SEL advances, the master gets its answer. -/
theorem Block.byMaster_mayWrite {b : Block} {m blk off : Nat} (h : b.mayWrite m blk off) (f : Block → Block) :
    b.byMaster m blk off f = ((f b).advance m blk off).answer m .written := by
  unfold Block.byMaster
  simp [h.2.1, h.2.2]

theorem Block.mayWrite_clock {b : Block} {m blk off : Nat} (h : b.mayWrite m blk off) (t : Nat) : (b.clock t).mayWrite m blk off := h

theorem Block.mayRead_clock {b : Block} {m blk off : Nat} (h : b.mayRead m blk off) (t : Nat) : (b.clock t).mayRead m blk off := h

/-- Outside an instance window nothing advances. -/
theorem Block.advance_global (b : Block) (m blk : Nat) {off : Nat} (h : 0x400 ≤ off) : b.advance m blk off = b := by
  unfold Block.advance
  split
  · rfl
  · rw [if_neg]; omega

/-- A register command whose register stands outside the instance windows. -/
theorem Block.byMaster_global {b : Block} {m blk off : Nat} (h : b.mayWrite m blk off) (ho : 0x400 ≤ off) (f : Block → Block) :
    b.byMaster m blk off f = (f b).answer m .written := by
  rw [Block.byMaster_mayWrite h, Block.advance_global _ _ _ ho]

@[simp] theorem Block.answer_resp (b : Block) (m : Nat) (r d : Response) : Tbl.get (b.answer m r).resp m d = r := Tbl.get_ins_same ..

theorem Block.atSel_some {b : Block} {m blk sp i : Nat} (h : b.selInst blk m sp = some i) (f : Block → Nat → Block) :
    b.atSel m blk sp f = f b i := by unfold Block.atSel; rw [h]

/-- A queue's command has its effect. -/
theorem Block.byQueue_mayUse {b : Block} {m q reg : Nat} {w : Bool} (h : b.mayUse m q reg w) (f : Block → Block) :
    b.byQueue m q reg w f = f b := by
  unfold Block.byQueue
  simp [h.2.2.1, h.2.2.2.1, h.2.2.2.2]

/-! ### What SEL's advance leaves alone -/

theorem Block.advance_eq (b : Block) (m blk off : Nat) :
    ∃ v, b.advance m blk off = { b with regs := { b.regs with vis := v } } := by
  unfold Block.advance
  split
  · exact ⟨_, rfl⟩
  · dsimp only; split <;> exact ⟨_, rfl⟩

@[simp] theorem Block.advance_t7 (b : Block) (m blk off : Nat) : (b.advance m blk off).t7 = b.t7 := by
  obtain ⟨v, h⟩ := Block.advance_eq b m blk off; rw [h]
@[simp] theorem Block.advance_free (b : Block) (m blk off : Nat) : (b.advance m blk off).free = b.free := by
  obtain ⟨v, h⟩ := Block.advance_eq b m blk off; rw [h]
@[simp] theorem Block.advance_resp (b : Block) (m blk off : Nat) : (b.advance m blk off).resp = b.resp := by
  obtain ⟨v, h⟩ := Block.advance_eq b m blk off; rw [h]
@[simp] theorem Block.advance_latch (b : Block) (m blk off : Nat) : (b.advance m blk off).latch = b.latch := by
  obtain ⟨v, h⟩ := Block.advance_eq b m blk off; rw [h]
@[simp] theorem Block.advance_rep (b : Block) (m blk off : Nat) : (b.advance m blk off).rep = b.rep := by
  obtain ⟨v, h⟩ := Block.advance_eq b m blk off; rw [h]
@[simp] theorem Block.advance_mem (b : Block) (m blk off : Nat) : (b.advance m blk off).mem = b.mem := by
  obtain ⟨v, h⟩ := Block.advance_eq b m blk off; rw [h]
@[simp] theorem Block.advance_evr (b : Block) (m blk off : Nat) : (b.advance m blk off).evr = b.evr := by
  obtain ⟨v, h⟩ := Block.advance_eq b m blk off; rw [h]
@[simp] theorem Block.advance_sys (b : Block) (m blk off : Nat) : (b.advance m blk off).sys = b.sys := by
  obtain ⟨v, h⟩ := Block.advance_eq b m blk off; rw [h]
@[simp] theorem Block.advance_pwr (b : Block) (m blk off : Nat) : (b.advance m blk off).pwr = b.pwr := by
  obtain ⟨v, h⟩ := Block.advance_eq b m blk off; rw [h]
@[simp] theorem Block.advance_key (b : Block) (m blk off : Nat) : (b.advance m blk off).key = b.key := by
  obtain ⟨v, h⟩ := Block.advance_eq b m blk off; rw [h]
@[simp] theorem Block.advance_tam (b : Block) (m blk off : Nat) : (b.advance m blk off).tam = b.tam := by
  obtain ⟨v, h⟩ := Block.advance_eq b m blk off; rw [h]
@[simp] theorem Block.advance_acc (b : Block) (m blk off : Nat) : (b.advance m blk off).acc = b.acc := by
  obtain ⟨v, h⟩ := Block.advance_eq b m blk off; rw [h]
@[simp] theorem Block.advance_tim (b : Block) (m blk off : Nat) : (b.advance m blk off).tim = b.tim := by
  obtain ⟨v, h⟩ := Block.advance_eq b m blk off; rw [h]
@[simp] theorem Block.advance_aln (b : Block) (m blk off : Nat) : (b.advance m blk off).aln = b.aln := by
  obtain ⟨v, h⟩ := Block.advance_eq b m blk off; rw [h]
@[simp] theorem Block.advance_mm (b : Block) (m blk off : Nat) : (b.advance m blk off).mm = b.mm := by
  obtain ⟨v, h⟩ := Block.advance_eq b m blk off; rw [h]
@[simp] theorem Block.advance_dma (b : Block) (m blk off : Nat) : (b.advance m blk off).dma = b.dma := by
  obtain ⟨v, h⟩ := Block.advance_eq b m blk off; rw [h]
@[simp] theorem Block.advance_que (b : Block) (m blk off : Nat) : (b.advance m blk off).que = b.que := by
  obtain ⟨v, h⟩ := Block.advance_eq b m blk off; rw [h]
@[simp] theorem Block.advance_dfe (b : Block) (m blk off : Nat) : (b.advance m blk off).dfe = b.dfe := by
  obtain ⟨v, h⟩ := Block.advance_eq b m blk off; rw [h]
@[simp] theorem Block.advance_prt (b : Block) (m blk off : Nat) : (b.advance m blk off).prt = b.prt := by
  obtain ⟨v, h⟩ := Block.advance_eq b m blk off; rw [h]
@[simp] theorem Block.advance_str (b : Block) (m blk off : Nat) : (b.advance m blk off).str = b.str := by
  obtain ⟨v, h⟩ := Block.advance_eq b m blk off; rw [h]
@[simp] theorem Block.advance_out (b : Block) (m blk off : Nat) : (b.advance m blk off).out = b.out := by
  obtain ⟨v, h⟩ := Block.advance_eq b m blk off; rw [h]
@[simp] theorem Block.advance_cas (b : Block) (m blk off : Nat) : (b.advance m blk off).cas = b.cas := by
  obtain ⟨v, h⟩ := Block.advance_eq b m blk off; rw [h]
@[simp] theorem Block.advance_rpl (b : Block) (m blk off : Nat) : (b.advance m blk off).rpl = b.rpl := by
  obtain ⟨v, h⟩ := Block.advance_eq b m blk off; rw [h]
@[simp] theorem Block.advance_isl (b : Block) (m blk off : Nat) : (b.advance m blk off).isl = b.isl := by
  obtain ⟨v, h⟩ := Block.advance_eq b m blk off; rw [h]
@[simp] theorem Block.advance_alm (b : Block) (m blk off : Nat) : (b.advance m blk off).alm = b.alm := by
  obtain ⟨v, h⟩ := Block.advance_eq b m blk off; rw [h]
@[simp] theorem Block.advance_cmp (b : Block) (m blk off : Nat) : (b.advance m blk off).cmp = b.cmp := by
  obtain ⟨v, h⟩ := Block.advance_eq b m blk off; rw [h]
@[simp] theorem Block.advance_sdm (b : Block) (m blk off : Nat) : (b.advance m blk off).sdm = b.sdm := by
  obtain ⟨v, h⟩ := Block.advance_eq b m blk off; rw [h]
@[simp] theorem Block.advance_nrg (b : Block) (m blk off : Nat) : (b.advance m blk off).nrg = b.nrg := by
  obtain ⟨v, h⟩ := Block.advance_eq b m blk off; rw [h]
@[simp] theorem Block.advance_cap (b : Block) (m blk off : Nat) : (b.advance m blk off).cap = b.cap := by
  obtain ⟨v, h⟩ := Block.advance_eq b m blk off; rw [h]
@[simp] theorem Block.advance_rad (b : Block) (m blk off : Nat) : (b.advance m blk off).rad = b.rad := by
  obtain ⟨v, h⟩ := Block.advance_eq b m blk off; rw [h]
@[simp] theorem Block.advance_red (b : Block) (m blk off : Nat) : (b.advance m blk off).red = b.red := by
  obtain ⟨v, h⟩ := Block.advance_eq b m blk off; rw [h]
@[simp] theorem Block.advance_act (b : Block) (m blk off : Nat) : (b.advance m blk off).regs.act = b.regs.act := by
  obtain ⟨v, h⟩ := Block.advance_eq b m blk off; rw [h]
@[simp] theorem Block.advance_com (b : Block) (m blk off : Nat) : (b.advance m blk off).regs.com = b.regs.com := by
  obtain ⟨v, h⟩ := Block.advance_eq b m blk off; rw [h]
@[simp] theorem Block.advance_dirty (b : Block) (m blk off : Nat) : (b.advance m blk off).regs.dirty = b.regs.dirty := by
  obtain ⟨v, h⟩ := Block.advance_eq b m blk off; rw [h]
@[simp] theorem Block.advance_locked (b : Block) (m blk off : Nat) : (b.advance m blk off).regs.locked = b.regs.locked := by
  obtain ⟨v, h⟩ := Block.advance_eq b m blk off; rw [h]

/-- An effect on the block where only the answer and SEL come after it: the completion of a register command. -/
theorem Completes.byMaster {c : Instr} {s : State} {t m blk off : Nat} {w : Bool} {f : Block → Block} {P : Block → Prop}
    (hc : Sys2Proof.Machine.exec c s = s.runIf w t (fun b => b.byMaster m blk off f)) (hw : w = true) (h : s.blk.mayWrite m blk off)
    (hp : P (((f (s.blk.clock t)).advance m blk off).answer m .written)) : Completes c s P := by
  refine ⟨_, hc.trans (State.runIf_eq s hw _ _), rfl, ?_⟩
  rw [Block.byMaster_mayWrite (Block.mayWrite_clock h t)]
  exact hp

/-- The completion of any other command that names instances. -/
theorem Completes.runIf {c : Instr} {s : State} {t : Nat} {w : Bool} {f : Block → Block} {P : Block → Prop}
    (hc : Sys2Proof.Machine.exec c s = s.runIf w t f) (hw : w = true) (hp : P (f (s.blk.clock t))) : Completes c s P :=
  ⟨_, hc.trans (State.runIf_eq s hw _ _), rfl, hp⟩

/-- And of one that names none. -/
theorem Completes.run {c : Instr} {s : State} {t : Nat} {f : Block → Block} {P : Block → Prop}
    (hc : Sys2Proof.Machine.exec c s = s.run t f) (hp : P (f (s.blk.clock t))) : Completes c s P :=
  ⟨_, hc, rfl, hp⟩

end Sys2Proof.Machine
end

