-- ==== Sys2Proof/Laws/Fields.lean ====
section
/-! SUPPORT. Bit fields: what a field reads after a field is set; the register tables: where a register stands, disjoint fields. -/

namespace Sys2Proof.Machine

/-! ### Fields -/

/-- A number by the bits below, in and above a field. -/
theorem bits_split (v hi lo : Nat) (h : lo ≤ hi) :
    v = v % 2 ^ lo + bits v hi lo * 2 ^ lo + v / 2 ^ (hi + 1) * 2 ^ (hi + 1) := by
  unfold bits
  have e : 2 ^ (hi + 1) = 2 ^ lo * 2 ^ (hi + 1 - lo) := by rw [← Nat.pow_add]; congr 1; omega
  rw [e, ← Nat.div_div_eq_div_mul]
  generalize 2 ^ (hi + 1 - lo) = q
  generalize 2 ^ lo = p
  have h1 := Nat.mod_add_div v p
  have h2 := Nat.mod_add_div (v / p) q
  have h3 : p * (v / p) = v / p % q * p + v / p / q * (p * q) := by
    conv => lhs; rw [← h2]
    rw [Nat.mul_add]; congr 1 <;> ac_rfl
  omega

theorem bits_lt (v hi lo : Nat) : bits v hi lo < 2 ^ (hi + 1 - lo) := Nat.mod_lt _ (Nat.two_pow_pos _)

/-- The number with a field replaced. -/
theorem setFld_toNat (w : Word) (hi lo v : Nat) (h : lo ≤ hi) (h' : hi < 32) :
    (setFld w hi lo v).toNat = w.toNat % 2 ^ lo + v % 2 ^ (hi + 1 - lo) * 2 ^ lo + w.toNat / 2 ^ (hi + 1) * 2 ^ (hi + 1) := by
  unfold setFld
  rw [BitVec.toNat_ofNat]
  have hw := w.isLt
  generalize w.toNat = x at *
  have hs := bits_split x hi lo h
  have e : 2 ^ (hi + 1) = 2 ^ lo * 2 ^ (hi + 1 - lo) := by rw [← Nat.pow_add]; congr 1; omega
  have e32 : 2 ^ 32 = 2 ^ (hi + 1) * 2 ^ (31 - hi) := by rw [← Nat.pow_add]; congr 1; omega
  have hv : v % 2 ^ (hi + 1 - lo) < 2 ^ (hi + 1 - lo) := Nat.mod_lt _ (Nat.two_pow_pos _)
  have hl : x % 2 ^ lo < 2 ^ lo := Nat.mod_lt _ (Nat.two_pow_pos _)
  have hc : x / 2 ^ (hi + 1) < 2 ^ (31 - hi) := by
    apply Nat.div_lt_of_lt_mul; rw [← e32]; exact hw
  generalize bits x hi lo = m at *
  generalize v % 2 ^ (hi + 1 - lo) = v' at *
  generalize x / 2 ^ (hi + 1) = c at *
  generalize x % 2 ^ lo = a at *
  rw [e] at hs ⊢
  rw [e32, e]
  generalize 2 ^ (hi + 1 - lo) = q at *
  generalize 2 ^ (31 - hi) = r at *
  generalize 2 ^ lo = p at *
  have h1 : x - m * p + v' * p = a + v' * p + c * (p * q) := by omega
  rw [h1]
  apply Nat.mod_eq_of_lt
  have h2 : v' * p + p ≤ q * p := by
    have := Nat.mul_le_mul_right p hv; rw [Nat.succ_mul] at this; exact this
  have h3 : c * (p * q) + p * q ≤ r * (p * q) := by
    have := Nat.mul_le_mul_right (p * q) hc; rw [Nat.succ_mul] at this; exact this
  have h4 : r * (p * q) = p * q * r := by ac_rfl
  have h5 : q * p = p * q := by ac_rfl
  omega

/-- A field that was set reads its new value. -/
theorem fld_setFld (w : Word) (hi lo v : Nat) (h : lo ≤ hi) (h' : hi < 32) : fld (setFld w hi lo v) hi lo = v % 2 ^ (hi + 1 - lo) := by
  unfold fld bits
  rw [setFld_toNat w hi lo v h h']
  have e : 2 ^ (hi + 1) = 2 ^ lo * 2 ^ (hi + 1 - lo) := by rw [← Nat.pow_add]; congr 1; omega
  have hl : w.toNat % 2 ^ lo < 2 ^ lo := Nat.mod_lt _ (Nat.two_pow_pos _)
  have hv : v % 2 ^ (hi + 1 - lo) < 2 ^ (hi + 1 - lo) := Nat.mod_lt _ (Nat.two_pow_pos _)
  rw [e]
  generalize v % 2 ^ (hi + 1 - lo) = v' at *
  generalize w.toNat / (2 ^ lo * 2 ^ (hi + 1 - lo)) = c
  generalize w.toNat % 2 ^ lo = a at *
  generalize 2 ^ (hi + 1 - lo) = q at *
  have hp : 0 < 2 ^ lo := Nat.two_pow_pos _
  generalize 2 ^ lo = p at *
  have h1 : (a + v' * p + c * (p * q)) / p = v' + c * q := by
    have : a + v' * p + c * (p * q) = a + p * (v' + c * q) := by
      rw [Nat.mul_add, ← Nat.add_assoc]; congr 1
      · congr 1; ac_rfl
      · ac_rfl
    rw [this, Nat.add_mul_div_left _ _ hp, Nat.div_eq_of_lt hl, Nat.zero_add]
  rw [h1, Nat.add_mul_mod_self_right, Nat.mod_eq_of_lt hv]

/-- A field apart from the one that was set keeps its value. -/
theorem fld_setFld_other (w : Word) (hi lo v hi' lo' : Nat) (h : lo ≤ hi) (h' : hi < 32) (k : lo' ≤ hi') (d : hi' < lo ∨ hi < lo') :
    fld (setFld w hi lo v) hi' lo' = fld w hi' lo' := by
  unfold fld
  rw [setFld_toNat w hi lo v h h']
  have hs := bits_split w.toNat hi lo h
  have hv : v % 2 ^ (hi + 1 - lo) < 2 ^ (hi + 1 - lo) := Nat.mod_lt _ (Nat.two_pow_pos _)
  have hm := bits_lt w.toNat hi lo
  generalize w.toNat = x at *
  rcases d with d | d
  · unfold bits
    have e : 2 ^ lo = 2 ^ (hi' + 1) * 2 ^ (lo - (hi' + 1)) := by rw [← Nat.pow_add]; congr 1; omega
    have e' : 2 ^ (hi + 1) = 2 ^ (hi' + 1) * 2 ^ (hi - hi') := by rw [← Nat.pow_add]; congr 1; omega
    have f (y : Nat) : y / 2 ^ lo' % 2 ^ (hi' + 1 - lo') = y % 2 ^ (hi' + 1) / 2 ^ lo' := by
      have e2 : 2 ^ (hi' + 1) = 2 ^ lo' * 2 ^ (hi' + 1 - lo') := by rw [← Nat.pow_add]; congr 1; omega
      rw [e2, Nat.mod_mul_right_div_self]
    rw [f, f]
    congr 1
    have g (z : Nat) : (x % 2 ^ lo + z * 2 ^ lo + x / 2 ^ (hi + 1) * 2 ^ (hi + 1)) % 2 ^ (hi' + 1) = x % 2 ^ lo % 2 ^ (hi' + 1) := by
      have : x % 2 ^ lo + z * 2 ^ lo + x / 2 ^ (hi + 1) * 2 ^ (hi + 1) =
          x % 2 ^ lo + 2 ^ (hi' + 1) * (z * 2 ^ (lo - (hi' + 1)) + x / 2 ^ (hi + 1) * 2 ^ (hi - hi')) := by
        rw [Nat.mul_add, ← Nat.add_assoc]
        congr 1
        · congr 1
          rw [e]; ac_rfl
        · rw [show x / 2 ^ (hi + 1) * 2 ^ (hi + 1) = x / 2 ^ (hi + 1) * (2 ^ (hi' + 1) * 2 ^ (hi - hi')) from by rw [← e']]
          ac_rfl
      rw [this, Nat.add_mul_mod_self_left]
    rw [g]
    conv => rhs; rw [hs]
    rw [g]
  · unfold bits
    congr 1
    have e : 2 ^ lo' = 2 ^ (hi + 1) * 2 ^ (lo' - (hi + 1)) := by rw [← Nat.pow_add]; congr 1; omega
    rw [e, ← Nat.div_div_eq_div_mul, ← Nat.div_div_eq_div_mul]
    congr 1
    have hp : 0 < 2 ^ (hi + 1) := Nat.two_pow_pos _
    have hq : 2 ^ lo * 2 ^ (hi + 1 - lo) = 2 ^ (hi + 1) := by rw [← Nat.pow_add]; congr 1; omega
    have hl : x % 2 ^ lo < 2 ^ lo := Nat.mod_lt _ (Nat.two_pow_pos _)
    rw [Nat.add_mul_div_right _ _ hp, Nat.div_eq_of_lt, Nat.zero_add]
    rw [← hq]
    generalize v % 2 ^ (hi + 1 - lo) = v' at *
    generalize 2 ^ (hi + 1 - lo) = q at *
    generalize x % 2 ^ lo = a at *
    generalize 2 ^ lo = p at *
    have := Nat.mul_le_mul_right p hv
    rw [Nat.succ_mul] at this
    have e5 : q * p = p * q := by ac_rfl
    omega

/-! ### Where a register stands -/

theorem Reg.findIn_spec {l : List RegDesc} {sp off : Nat} {d : RegDesc} {k : Nat} (h : Reg.findIn l sp off = some (d, k)) :
    d ∈ l ∧ d.spaces.contains sp = true ∧ d.off + d.stride * k = off ∧ k < d.n := by
  induction l with
  | nil => cases h
  | cons e r ih =>
    unfold Reg.findIn at h
    split at h
    · rename_i j hj
      cases h
      split at hj
      · rename_i hc
        unfold RegDesc.indexAt at hj
        split at hj
        · rename_i hi
          cases hj
          refine ⟨List.mem_cons_self .., hc, ?_, hi.2.2⟩
          have := Nat.div_add_mod (off - d.off) d.stride
          rw [hi.2.1] at this
          omega
        · cases hj
      · cases hj
    · obtain ⟨a, b⟩ := ih h
      exact ⟨List.mem_cons_of_mem _ a, b⟩

/-- The fields of a register are disjoint and lie in its 32 bits. -/
def RegDesc.fieldsOk (d : RegDesc) : Bool :=
  d.fields.all (fun f => decide (f.lo ≤ f.hi) && decide (f.hi < 32)) &&
  decide (d.fields.Pairwise (fun f g => f.hi < g.lo ∨ g.hi < f.lo))

/-- Every register of the tables but the 64-bit ones of QUE: disjoint fields, a place in its block's window. -/
def Reg.tableOk (blk : Nat) : Bool :=
  (Reg.tables blk).all (fun d => (d.w64 || d.fieldsOk) && d.blk == blk && decide (d.off + d.stride * d.n ≤ 65536) && decide (1 ≤ d.stride))

set_option maxRecDepth 10000 in
theorem Reg.tables_ok : ∀ blk, blk < 25 → Reg.tableOk blk = true := by decide +kernel

theorem Reg.table_spec {blk : Nat} (h : blk < 25) {d : RegDesc} (hd : d ∈ Reg.tables blk) :
    (d.w64 = true ∨ d.fieldsOk = true) ∧ d.blk = blk ∧ d.off + d.stride * d.n ≤ 65536 ∧ 1 ≤ d.stride := by
  have := List.all_eq_true.mp (Reg.tables_ok blk h) d hd
  simp only [Bool.and_eq_true, Bool.or_eq_true, beq_iff_eq, decide_eq_true_eq] at this
  exact ⟨this.1.1.1, this.1.1.2, this.1.2, this.2⟩

theorem Reg.find_spec {blk sp off : Nat} {d : RegDesc} {k : Nat} (h : Reg.find blk sp off = some (d, k)) :
    d ∈ Reg.tables blk ∧ d.spaces.contains sp = true ∧ d.off + d.stride * k = off ∧ k < d.n := Reg.findIn_spec h

/-- Where a located register is stored, by the offset of the access. -/
theorem Block.locate_spec {b : Block} {blk off m : Nat} {x : RegAt} (h : b.locate blk off m = some x) :
    x.desc ∈ Reg.tables blk ∧ x.desc.off + x.desc.stride * x.k = off ∧ x.k < x.desc.n := by
  unfold Block.locate at h
  dsimp only at h
  split at h
  · cases h
  · rename_i d k hf
    rw [Option.map_eq_some_iff] at h
    obtain ⟨i, _, rfl⟩ := h
    exact ⟨(Reg.find_spec hf).1, (Reg.find_spec hf).2.2.1, (Reg.find_spec hf).2.2.2⟩

/-- The offset of a stored register's key. -/
theorem RegDesc.key_mod (d : RegDesc) (i k : Nat) (h : d.off + d.stride * k < 65536) : d.key i k % 65536 = d.off + d.stride * k := by
  unfold RegDesc.key regKey; omega

/-- SEL's advance leaves every register but SEL. -/
theorem Block.advance_vis (b : Block) (m blk off : Nat) (d : RegDesc) (i k : Nat) (h : d.off + d.stride * k < 65536)
    (h' : 0 < d.off + d.stride * k) : (b.advance m blk off).vis d i k = b.vis d i k := by
  unfold Block.advance
  split
  · rfl
  · rename_i e he
    dsimp only
    split
    · apply Block.vis_setVis_other
      unfold Reg.sel at he
      rw [Option.map_eq_some_iff] at he
      obtain ⟨⟨d', k'⟩, hf, rfl⟩ := he
      have hs := (Reg.find_spec hf).2.2.1
      intro hk
      have h1 := RegDesc.key_mod d i k h
      have h2 : (d'.key m 0) % 65536 = 0 := by
        rw [RegDesc.key_mod] <;> simp <;> omega
      rw [hk] at h1
      dsimp only at h1
      omega
    · rfl

@[simp] theorem Block.answer_vis (b : Block) (m : Nat) (r : Response) (d : RegDesc) (i k : Nat) : (b.answer m r).vis d i k = b.vis d i k := rfl
@[simp] theorem Block.clock_vis (b : Block) (t : Nat) (d : RegDesc) (i k : Nat) : (b.clock t).vis d i k = b.vis d i k := rfl

/-! ### Accesses by a master -/

/-- A 4-byte access of a control register lies in the control region. -/
theorem busRegion_control {blk off : Nat} (hb : blk < 25) (ho : off < 65536) (ha : off % 4 = 0) :
    busRegion (0xF0000000 + 65536 * blk + off) 4 = some (.control, 65536 * blk + off) := by
  generalize hA : 0xF0000000 + 65536 * blk + off = a
  have h1 : 0xF0000000 ≤ a := by omega
  have h2 : a + 4 ≤ 0xF0000000 + 0x190000 := by omega
  have e : 65536 * blk + off = a - 0xF0000000 := by omega
  rw [e]
  unfold busRegion
  dsimp only
  rw [if_neg (by simp only [Bool.and_eq_true, decide_eq_true_eq]; omega), if_neg (by simp only [Bool.and_eq_true, decide_eq_true_eq]; omega),
    if_neg (by simp only [Bool.and_eq_true, decide_eq_true_eq]; omega), if_neg (by simp only [Bool.and_eq_true, decide_eq_true_eq]; omega),
    if_neg (by simp only [Bool.and_eq_true, decide_eq_true_eq]; omega), if_neg (by simp only [Bool.and_eq_true, decide_eq_true_eq]; omega),
    if_pos (by simp only [Bool.and_eq_true, decide_eq_true_eq]; omega)]

/-- A permitted 4-byte write of a control register. -/
theorem Block.masterWrite_control {b : Block} {m blk off v : Nat} (hb : blk < 25) (ho : off < 65536) (ha : off % 4 = 0)
    (hq : queueReg (65536 * blk + off) = false) (hm : b.mayWrite m blk off) :
    b.masterWrite m (0xF0000000 + 65536 * blk + off) 4 v = ((b.regWrite m blk off (w32 v)).advance m blk off).answer m .written := by
  unfold Block.masterWrite
  rw [if_neg (by simp [hm.2.1]), if_neg (by simp [hm.2.2])]
  have e : b.busStore m (0xF0000000 + 65536 * blk + off) 4 v = (.written, (b.regWrite m blk off (w32 v)).advance m blk off) := by
    unfold Block.busStore
    rw [busRegion_control hb ho ha]
    dsimp only
    rw [hq, if_neg (by simp), if_pos (by omega), show (65536 * blk + off) / 65536 = blk by omega, show (65536 * blk + off) % 65536 = off by omega]
  rw [e]
  rfl

/-- A permitted 4-byte read of a control register. -/
theorem Block.masterRead_control {b : Block} {m blk off : Nat} (hb : blk < 25) (ho : off < 65536) (ha : off % 4 = 0)
    (hq : queueReg (65536 * blk + off) = false) (hm : b.mayRead m blk off) :
    b.masterRead m (0xF0000000 + 65536 * blk + off) 4 =
      ((b.regRead m blk off).2.advance m blk off).answer m (.value (b.regRead m blk off).1) := by
  unfold Block.masterRead
  rw [if_neg (by simp [hm.2.1]), if_neg (by simp [hm.2.2])]
  have e : b.busLoad m (0xF0000000 + 65536 * blk + off) 4 = (.value (b.regRead m blk off).1, false, (b.regRead m blk off).2.advance m blk off) := by
    unfold Block.busLoad
    rw [busRegion_control hb ho ha]
    dsimp only
    rw [hq, if_neg (by simp), if_pos (by omega), show (65536 * blk + off) / 65536 = blk by omega, show (65536 * blk + off) % 65536 = off by omega]
  rw [e]
  rfl

/-- A permitted write of memory by a master that is no fabric core: a write of part of a line of DRAM finds the line's errors first (R326). -/
theorem Block.masterWrite_memory {b : Block} {m addr n v o : Nat} {r : Region} (hr : busRegion addr n = some (r, o))
    (hk : r = .mram ∨ r = .scratch ∨ r = .dram) (hc : isCore m = false) (h1 : b.masterReady m = true) (h2 : b.accOk m addr n true = true) :
    b.masterWrite m addr n v = ((if r = .mram then b else b.partialFound addr n).storeN addr n v).answer m .written := by
  unfold Block.masterWrite
  rw [if_neg (by simp [h1]), if_neg (by simp [h2])]
  have e : b.busStore m addr n v = (.written, (if r = .mram then b else b.partialFound addr n).storeN addr n v) := by
    unfold Block.busStore
    rw [hr]
    rcases hk with rfl | rfl | rfl
    · rfl
    · dsimp only
      rw [hc, if_neg (by decide), if_neg (by decide)]
    · dsimp only
      rw [hc, if_neg (by decide), if_neg (by decide)]
  rw [e]
  rfl

/-- Without erroneous contents a write finds no error. -/
theorem Block.partialFound_clean {b : Block} (h : b.mem.raw = []) (a n : Nat) : b.partialFound a n = b := by
  unfold Block.partialFound Block.busFound Block.rangeFound
  split
  · rfl
  · split
    · split <;> first | rfl | simp [h]
    · rfl

/-- A number inserted in a sorted set is in it. -/
theorem setIns_contains (l : List Nat) (k : Nat) : (setIns l k).contains k = true := by
  induction l with
  | nil => simp [setIns]
  | cons j r ih =>
    simp only [setIns]
    split
    · simp
    · split <;> simp_all

end Sys2Proof.Machine
end

