-- ==== Sys2Proof/Tests/Slice0.lean ====
section
/-! SUPPORT. Tests: states that meet the hypotheses of every statement, ill-formed commands, results that the spec states. -/

open Sys2Proof Sys2Proof.Machine

set_option maxRecDepth 20000
set_option linter.unusedVariables false
set_option Elab.async false

/-! ### States -/


/-- Registers set in both copies. -/
def wSet (b : Block) (l : List (RegDesc × Nat × Nat × Nat)) : Block := l.foldl (fun b e => b.setBoth e.1 e.2.1 e.2.2.1 (w32 e.2.2.2)) b

/-- After reset, with one region of ACC that opens the whole bus to every master. -/
def wOpen : Block := wSet Block.reset
  [(Reg.ACC_RGN_BASE, 0, 0, 0), (Reg.ACC_RGN_LIMIT, 0, 0, 0xFFFFFFFF), (Reg.ACC_RGN_PERM, 0, 0, 0x80003F3F)]

/-- A machine with no command waiting. -/
def wS (b : Block) : State := ⟨b, []⟩

/-- A queue of 64 items that holds two. -/
def wQue : Block := (wSet wOpen [(Reg.QUE_CFG, 9, 0, 0x80010000)]).setQueue 9 { Queue.reset with items := [⟨7, false, false⟩, ⟨8, true, false⟩] }

def wQueEmpty : Block := wSet wOpen [(Reg.QUE_CFG, 9, 0, 0x80010000)]

def wQueSel : Block := wSet wQue [(Reg.QUE_SEL, 0, 0, 9)]

def wQueOff : Block := wSet wOpen [(Reg.QUE_SEL, 0, 0, 9)]

/-- A main ring of 50 basins a second and depth 16, with one basin in a state at position 5. -/
def wRing (x : Basin) : Block :=
  ((wSet wOpen [(Reg.ALN_RING_CFG, 0, 0, 0x80800010), (Reg.ALN_RING_RATE, 0, 0, 50), (Reg.ALN_BASIN_STRIDE, 0, 0, 16),
    (Reg.ALN_RING_BASE_HI, 0, 0, 0x10)]).setRing 0
    { Ring.reset with run := true, started := true, nextSeq := 7, nextSlot := 7, pos := [(5, { x with seq := 5, slot := 5, t0 := 100000000 })] })

/-- A basin whose weirs wait 100 µs. -/
def wBasin (st : BState) : Basin := { Basin.reset with st := st, wa := ⟨0, 100, 0, 0, 0⟩, wb := ⟨0, 100, 0, 0, 0⟩, expected := 6#8192, waits := [(1, 0, 0, 0), (2, 0, 0, 0)], quorum := [(0, 100)], parts := [(0, 2)], retainMs := 1 }

def wTick : State := wS (wRing (wBasin .opened))

def wAlarm : State := wS (wRing (wBasin .alarmClosed))

def wOutClosed : State := wS (wRing (wBasin .outputClosed))

/-- A basin held by the weir A spacing. -/
def wSpaced : State := wS ((wRing { wBasin .opened with condA := some 0, spaced := true }).setVis Reg.ALN_IRQ_ENABLE 0 0 1)

/-- A basin with a claim in flight. -/
def wClaim : State := let b := wRing (wBasin .opened); wS { b with aln := { b.aln with claims := [⟨0, 5, 1, 3, false⟩] } }

def wExpiry : State := let b := wRing (wBasin .alarmClosed); wS { b with dfe := { b.dfe with closedTag := [(0, some 4)] } }

/-- A port 2 with its link up at 1 Gb/s, ingest on, untagged and broadcast frames admitted. -/
def wPort (f : PrtPort → PrtPort) : Block := let b := wSet wOpen [(Reg.STR_LISTEN, 0, 3, 0xA0001269)]; b.setPort 2 (f { PrtPort.reset with up := true, speed := 2, modPresent := true, powered := true, cfgRx := 0x000A00B2, cfgTx := 0x000A00B2 })

/-- An IPv4 UDP datagram for port 4713, broadcast, untagged. -/
def wUdp : List Byte := let bs := ethHead Prt.broadcast [2, 0, 0, 0, 0, 9] 0 0x0800 ++ ip4Head 0 46 7 0 64 17 0x0A000009 0x0A000001 ++ beBytes 2 9999 ++ beBytes 2 4713 ++ beBytes 2 26 ++ beBytes 2 0 ++ List.replicate 18 0x55; bs ++ leBytes 4 (crc32 bs)

def wEg (fwd : Bool) : Egress := ⟨1, fwd, .none, [1, 2, 3, 4, 5, 6, 7, 8, 9, 10, 11, 12, 13, 14, 15, 16, 17]⟩

def wUp : State := wS (wPort id)

def wDown : State := wS (wPort (fun x => { x with up := false }))

def wTx (fwd : Bool) : State := wS (wPort (fun x => { x with txq := [⟨0, false, .none, [1]⟩, wEg fwd] }))

def wTc : State := let b := wPort id; wS (b.setPort 4 { PrtPort.reset with tc := [⟨5, 6, 0⟩, ⟨7, 8, 1500000000⟩] })

def wCfg : State := wS ((wPort id).setVis Reg.PRT_PORT_CFG 2 0 0x00140012)

def wFil : State := wS (wSet (wPort id) [(Reg.PRT_SEL, 0, 0, 2), (Reg.PRT_UC_LO, 2, 3, 0x11223344)])

def wUd : UdpDesc := { dmac := Prt.broadcast, v6 := false, src := 0x0A000001, dst := 0x0A000009, dscp := 46, hops := 64, tci := 0, ident := 9, sport := 4713, dport := 4713, mtu := 1500, zeroSum := false, payload := [1, 2, 3] }

def wLd : LargeDesc := { template := ethHead Prt.broadcast [2, 0, 0, 0, 0, 9] 0 0x0800 ++ ip4Head 0 40 7 0 64 6 1 2 ++ beBytes 8 0 ++ beBytes 4 1 ++ [0x50, 0x18, 0, 0, 0, 0, 0, 0], payload := [1, 2, 3], mss := 600 }

/-- A C37.118.2 data frame of IDCODE 7 for slot time 5 of second 2: no phasor, float frequency. -/
def wC37 : List Byte := let f := beBytes 1 0xAA ++ beBytes 1 2 ++ beBytes 2 26 ++ beBytes 2 7 ++ beBytes 4 2 ++ beBytes 4 0 ++ beBytes 2 0 ++ beBytes 8 0; f ++ beBytes 2 (crcCcitt f)

/-- Context 1 set up for that frame, on a main ring of 50 basins a second with an open basin for the slot. -/
def wCtx (fw : Nat) : Block :=
  let b := wSet wOpen [(Reg.ALN_RING_CFG, 0, 0, 0x80800010), (Reg.ALN_RING_RATE, 0, 0, 50), (Reg.ALN_BASIN_STRIDE, 0, 0, 16), (Reg.ALN_RING_BASE_HI, 0, 0, 0x10),
    (Reg.STR_CTX_CTRL, 1, 0, 0x84000000 + fw), (Reg.STR_CTX_TIMEBASE, 1, 0, 1000000), (Reg.STR_CTX_FORMAT, 1, 0, 8), (Reg.STR_CTX_PORT_ID, 1, 0, 7 * 65536 + 4713),
    (Reg.STR_CTX_SRC, 1, 2, 0xFFFF0000), (Reg.STR_CTX_SRC, 1, 3, 0x0900000A), (Reg.STR_LISTEN, 0, 3, 0xA0001269), (Reg.STR_OFFGRID_TOL, 0, 0, 1000),
    (Reg.STR_INJ_SIZE, 0, 0, 4), (Reg.STR_INJ_TAIL, 0, 0, 1), (Reg.STR_INJ_BASE_LO, 0, 0, 0x80000000)]
  b.setRing 0 { Ring.reset with run := true, started := true, nextSeq := 7, nextSlot := 103, pos := [(5, { Basin.reset with st := .opened, seq := 5, slot := 100, t0 := 2000000000 })] }

def wFrame : RxFrame := ⟨ethHead Prt.broadcast [2, 0, 0, 0, 0, 9] 0 0x0800 ++ ip4Head 0 54 7 0 64 17 0x0A000009 0x0A000001 ++ beBytes 2 9999 ++ beBytes 2 4713 ++ beBytes 2 34 ++ beBytes 2 0 ++ wC37, 2000400000⟩

def wIngest : State := wS (let b := wCtx 0; b.setPort 2 { PrtPort.reset with fifo := [wFrame] })

/-- A record waits for its claim. -/
def wOffered : State := { wIngest with blk := { wIngest.blk with str := { wIngest.blk.str with offers := [⟨0, 100, 1, 0, [], [], none, 0, 0, 0, 0, 0, false, false⟩] } } }

def wDg : Dgram := ⟨2, false, 0x0A000009, 0x0A000001, 9999, 4713, 2000400000, wC37⟩

def wInject : State := wS (let b := wCtx 0x40000000; (b.store 0x80000000 (leBytes 8 0x80001000 ++ leBytes 4 26 ++ leBytes 2 1 ++ leBytes 2 0 ++ leBytes 6 2 ++ leBytes 4 400000)).store 0x80001000 wC37)

def wReasm : State := wS { wOpen with str := { wOpen.str with reasm := [⟨[1], 0, 0, none, [], false⟩, ⟨[2], 0, 900000000, none, [], true⟩] } }

def wSel : State := wS (wSet wOpen [(Reg.ALN_SEL, 0, 0, 77)])

def wCom (blk : Nat) : State := wS { wOpen with regs := { wOpen.regs with dirty := [regKey 3 0 1 0x40, regKey blk 15 0 0x44, regKey blk 15 0 0x48] } }

/-- Stream 2 of the main ring over TCP with part 4 (IDCODE 9); session 1 serves it; port 25 is up. -/
def wSess (x : Session) : Block :=
  let b := wSet wOpen [(Reg.OUT_STR_CFG, 2, 0, 0x88800001), (Reg.OUT_STR_PARTS, 2, 0, 0x00040001), (Reg.OUT_PART_IDCODE, 4, 0, 9), (Reg.OUT_STR_TIMEBASE, 2, 0, 1000000), (Reg.OUT_STR_FRAME_MAX, 2, 0, 65535),
    (Reg.OUT_SESS_STATE, 1, 0, 0x00800000), (Reg.OUT_SESS_BUF_SIZE, 1, 0, 64), (Reg.OUT_SESS_BUF_LO, 1, 0, 0x80100000), (Reg.OUT_SESS_ISS, 1, 0, 1000), (Reg.OUT_SESS_WND, 1, 0, 5000), (Reg.OUT_SESS_MSS, 1, 0, 1460), (Reg.PRT_MAX_FRAME, 25, 0, 1522),
    (Reg.OUT_SEL, 0, 0, 0x20000001), (Reg.OUT_SESS_STALL_MS, 0, 0, 10), (Reg.QUE_CFG, 16, 0, 0x80010000), (Reg.QUE_CFG, 17, 0, 0x80010001), (Reg.ALN_RING_RATE, 0, 0, 50)]
  (b.setPort 25 { PrtPort.reset with up := true }).setSess 1 x

def wEst : Session := ⟨1, none, 1000, 1100, 5000, 1300, 0, false⟩

def wSessS (x : Session) : State := wS (wSess x)

def wItem (code : Nat) : Nat := 2 ^ 56 + 1 * 2 ^ 48 + 9 * 2 ^ 32 + code

def wCmd (code : Nat) : State := wS ((wSess wEst).setQueue 16 { Queue.reset with items := [⟨wItem code, true, false⟩] })

def wOc (code : Nat) : OutCmd := ⟨false, 1, 2, some 4, code⟩

/-- A job of that stream for basin 5: TIMED, weir B passed, part 4 late and complete. -/
def wJob (l : Bool) (late : Bool) : OutJob := ⟨0, 5, 100, 2, 0, 5, 2, [0x88E00001, 0, 0], some 2000000000, 0, [], [⟨4, l, l, 0, [], late, false, [], []⟩]⟩

def wJobS (l late : Bool) : State := let b := wSess wEst; wS { b with out := { b.out with jobs := [wJob l late] } }

/-- The job of an earlier basin of the stream waits before it. -/
def wHeldS : State := let b := wSess wEst; wS { b with out := { b.out with jobs := [{ wJob false false with seq := 4 }, wJob false false] } }

def wCmdU : State := wS ((wSess wEst).setQueue 16 { Queue.reset with items := [⟨2 ^ 56 + 2 ^ 54 + 2 * 2 ^ 48 + 9 * 2 ^ 32 + 1, true, false⟩] })

/-- Op 5 forwards its scalar to analytics sink 3; op 6 is a HOST_IN op; core 2 runs or waits. -/
def wNamed : OpDef := ⟨.namedOut, 40, false, 0, 1, [0, 1], [], false, [[.outAnalytics 3]], []⟩

def wHostIn : OpDef := ⟨.hostIn, 41, true, 0, 1, [0], [], false, [[]], []⟩

def wTok (p : Nat) : Token := ⟨5, p, 9, 0, 4, false, false, 0, 0, [1, 2, 3, 4], 0⟩

def wDfe (x : Core) (f : Dfe → Dfe) : Block :=
  let b := wSet wOpen [(Reg.DFE_OP_AFF, 5, 0, 2), (Reg.DFE_SPILL_CFG, 0, 0, 8), (Reg.DFE_SLUICE_CFG, 0, 0, 1024), (Reg.DFE_INJ_LEN, 0, 0, 64), (Reg.DFE_SEL, 0, 0, 2)]
  let b := b.setVis Reg.DFE_INJ_ADDR_LO 0 0 0x80000000
  { b with sys := { b.sys with imageApplied := true }, dfe := f { b.dfe with graph := [(5, wNamed), (6, wHostIn)], gen := 4, closedSeq := [(0, 10)], cores := [(2, x)] } }

def wFir : Firing := ⟨5, 9, [wTok 0, wTok 1], false, 0, 0, false⟩

def wRun : Core := { Core.reset with st := .run, running := some wFir, lastOp := 5 }

def wReady (x : Core) : State := wS (wDfe x (fun d => { d with store := [wTok 0, wTok 1], ready := [(5, 9)] }))

def wCoreS (x : Core) : State := wS (wDfe x id)

def wEng : State := wS (wDfe wRun (fun d => { d with engHeld := [(2, wTok 0)] }))

def wDebug (x : Core) : State := let b := wDfe x id; wS { b with sys := { b.sys with mode := .debug } }

/-- An epoch under solution; a ringdown; a gather for a basin. -/
def wRpl (f : Rpl → Rpl) : State := let b := wRing { wBasin .opened with bmpB := 2#8192 }; wS { b with rpl := f b.rpl }

/-- An epoch under solution after a SELFTEST that failed the accelerator. -/
def wNoSolver : State :=
  let s := wRpl (fun r => { r with solving := some (7, 5, 5, 0) })
  { s with blk := { s.blk with sys := { s.blk.sys with selftestResult := 2 ^ 26 } } }

def wTrk : Track := { Track.reset with status := 2 }

def wAlm (f : Alm → Alm) : State := let b := wSet wOpen [(Reg.ALM_SEL, 0, 0, 0x40000007), (Reg.ALM_PUB_CFG, 0, 3, 0x80800000), (Reg.ALM_PUB_TIMING, 0, 3, 0x03E80002)]; wS { b with alm := f b.alm }

def wIsl : State := let b := wRing { wBasin .alarmClosed with bmpA := 2#8192 }; wS { b with isl := { b.isl with running := some (5, 0) } }

def wPub : Block := let b := wSet wOpen [(Reg.ALM_PUB_CFG, 0, 3, 0x80800000), (Reg.ALM_PUB_TIMING, 0, 3, 0x03E80002)]; { b with sys := { b.sys with mode := .active, imageApplied := true }, alm := { b.alm with pubs := [(3, { Publisher.reset with on := true, loaded := true, st := 4, sq := 0xFFFFFFFF, nextAt := some 2000000 })] } }

def wPubS : State := wS (wPub.setPort 25 { PrtPort.reset with up := true })

/-- TB0 and TB1 with a source, in a mode. -/
def wTim (m : Mode) (x y : TimeBase) (f : Tim → Tim) : State :=
  let b := wSet wOpen [(Reg.TIM_TB_CFG, 0, 0, 0x00150045), (Reg.TIM_TB_CFG, 1, 0, 0x80900045), (Reg.TIM_TB0_STEP_THR, 0, 0, 1000000), (Reg.TIM_PTP_CFG, 1, 0, 0x02006400), (Reg.TIM_TB_LOCK, 0, 0, 0x0401FFFF), (Reg.TIM_TB_LOCK, 1, 0, 0x0401FFFF),
    (Reg.TIM_TIN_CFG, 0, 0, 0xE000000F), (Reg.TIM_PD_CFG, 2, 0, 0x80000000), (Reg.TIM_SEL, 0, 0, 1), (Reg.TIM_PO_WIDTH, 3, 0, 100), (Reg.TIM_PO_CFG, 3, 0, 0x80000000)]
  let b := b.setPort 2 { PrtPort.reset with up := true }
  wS { b with sys := { b.sys with mode := m }, tim := f { b.tim with tb := [(0, x), (1, y)] } }

def wTb (src : Nat) : TimeBase := { TimeBase.reset with src := src, qual := [src], st := .acquiring, newly := false, lastMeas := some 0 }

def wTimE (st : TbState) : State := wTim .selftest { wTb 1 with st := st, e0 := none } (wTb 9) id

def wHand : State := let w := wTim .selftest (wTb 1) (wTb 0) (fun x => { x with handoverAt := some 3 }); { w with blk := { w.blk with regs := { w.blk.regs with com := [(regKey 1 15 0 0x418, 50)] } } }

/-- The reference input is selected and not yet in use. -/
def wRef : State := let s := wTimE .locked; { s with blk := wSet s.blk [(Reg.TIM_OSC_CFG, 0, 0, 1)] }

/-- The reference input has been good, or is in use. -/
def wRefGood : State := { wRef with blk := { wRef.blk with tim := { wRef.blk.tim with ref10Good := some 5 } } }

def wRefUsed : State := { wRef with blk := { wRef.blk with tim := { wRef.blk.tim with oscActive := 1 } } }

/-- TB1 on PTP port 1, which has heard a Sync. -/
def wSynced : State := wTim .acquire (wTb 1) (wTb 9) (fun x => { x with ptp := [(1, { PtpPort.reset with meas := some (5000, 655360, 4990) })] })

/-- Channel 1 runs; point 2 measures it for context 1; units of CAP record. -/
def wSdm : Block :=
  let b := wSet (wCtx 0) [(Reg.SDM_CFG, 0, 0, 0x80000000), (Reg.SDM_CH_CFG, 1, 0, 0x80000000), (Reg.SDM_CH_SCALE, 1, 0, 0x3F800000), (Reg.SDM_PT_CFG, 2, 0, 0x80000001), (Reg.SDM_PT_VCH, 2, 0, 0x7FE1), (Reg.SDM_PT_ICH, 2, 0, 0x7FFF),
    (Reg.NRG_PT_CFG, 2, 0, 0x83000000), (Reg.NRG_SEL, 0, 0, 2), (Reg.CAP_SEL, 0, 0, 3), (Reg.CAP_UNIT_CFG, 3, 0, 0x80000000), (Reg.CAP_UNIT_SIZE, 3, 0, 1), (Reg.CAP_UNIT_BASE_HI, 3, 0, 0x11), (Reg.CAP_UNIT_HOLD, 3, 0, 5), (Reg.CAP_UNIT_POST_MS, 3, 0, 10), (Reg.CAP_TRG_CFG, 0, 0, 0x82), (Reg.CAP_TRIG_CFG, 3, 1, 0xD0000002)]
  { b with sys := { b.sys with mode := .active } }

def wSdmS (f : Block → Block) : State := wS (f wSdm)

def wSam (a : Nat) : SdmSample := ⟨a, 0, 0, false, false, false⟩

def wUnit : CapUnit := { CapUnit.reset with st := 1 }

def wCap (x : CapUnit) : State := wSdmS (fun b => b.setCapU 3 x)

def wK : Capture := ⟨4, 1000000, 0, 0, true, 1, [], 5000⟩

/-- The radio tier on, with node 5 under unit 1's cells of types 0 to 5 in slots 0 to 5 of 101. -/
def wRad (x : RadNode) : Block :=
  let b := wSet wOpen [(Reg.RAD_CFG, 0, 0, 0xC8000065), (Reg.RAD_UNIT_CFG, 1, 0, 0x80000021), (Reg.RAD_PAN_ID, 0, 0, 0x77), (Reg.RAD_GUARD, 0, 0, 0x08980898),
    (Reg.RAD_NODE_CFG, 5, 0, 0xC0000000), (Reg.RAD_NODE_EUI_LO, 5, 0, 0x99), (Reg.RAD_CELL_CFG, 2, 0, 0x94000405), (Reg.RAD_CELL_CFG, 3, 0, 0xA4000805),
    (Reg.RAD_ROOT_SLOT, 0, 0, 3), (Reg.RAD_SEL, 0, 0, 0x20000005), (Reg.RAD_DL_BASE_HI, 0, 0, 0), (Reg.RAD_DL_BASE_LO, 0, 0, 0x80000000), (Reg.RAD_PEND_IDX, 0, 0, 2)]
  { (b.setRadNode 5 x) with sys := { b.sys with mode := .active, imageApplied := true, zeroised := false }, key := { b.key with slots := [(3, { KeySlot.empty with valid := true, attr := 0xFFFF, key := 77 })] } }

def wRadAt (slot : Nat) (f : Rad → Rad) (x : RadNode) : State := let b := wRad x; wS { b with rad := f { b.rad with slot := slot } }

/-- Node 5's secured frames of a kind to unit 1 of that tier, and a beacon of a parent 0x55 for ASN 4 with join metric 3, start 100 µs late. -/
def wHead (kind : Nat) : MacHead := ⟨kind, true, false, false, true, false, 2, some 4, some 0x77, some (2, 0x21), none, some (3, 0x99)⟩

def wRadF (bs : List Byte) : RadFrame := ⟨0, bs.length + 2, withFcs bs, 100⟩

def wNodeF (kind : Nat) : RadFrame := wRadF ((wHead kind).bytes ++ macSecurity 6 ++ List.replicate 8 1)

def wBeacon : RadFrame :=
  wRadF (({ wHead 0 with sec := false, ie := true, dst := some (2, 0xFFFF), src := some (3, 0x55) } : MacHead).bytes ++ mlmeIes (shortIe 0x1A (leBytes 5 4 ++ leBytes 1 3)))

def wMac (f : RadFrame) : MacFrame := (readMac (f.psdu.take (f.psdu.length - 2))).getD ⟨wHead 0, none, [], false, 0, []⟩

/-- Master 0's selections: SRAM memory 1 unit 3 in the diagnostic window, DMA channel 12; in MAINTENANCE. -/
def wMem (f : Block → Block) : State :=
  let b := wSet wOpen [(Reg.MEM_SEL, 0, 0, 1), (Reg.MEM_DIAG_ADDR, 0, 0, 3), (Reg.MEM_REMAP_ADDR, 0, 0, 3), (Reg.DMA_SEL, 0, 0, 12), (Reg.MEM_DIAG_BUF, 0, 0, 5), (Reg.MEM_SCRUB_CFG, 1, 0, 10), (Reg.DMA_SRC_BASE_LO, 12, 0, 0x80000000), (Reg.DMA_DST_BASE_LO, 12, 0, 0x80000100),
    (Reg.DMA_SRC_LEN, 12, 0, 8), (Reg.DMA_DST_LEN, 12, 0, 8), (Reg.DMA_SRC_COUNT, 12, 0, 1), (Reg.DMA_DST_COUNT, 12, 0, 1)]
  wS (f { b with sys := { b.sys with mode := .maintenance } })

def wDma (st : DmaState) : State := wMem (fun b => b.setDmaCh 12 { b.dmaCh 12 with st := st, err := 1 })

def wGrp (b : Block) : Block :=
  let b := b.setBoth Reg.CMP_GRP_CFG 2 0 0x80000001
  let b := b.setBoth Reg.CMP_RING_SIZE 0 0 1
  let b := b.setBoth Reg.CMP_SEL 0 0 0x20000012
  let b := b.setBoth Reg.CMP_GRP_REF_LO 2 0 0x80004000
  let b := b.setBoth Reg.CMP_BLOCK 0 0 1
  b.setBoth Reg.CMP_JOB_ADDR_LO 0 0 0x80000000

def wArch (x : CmpGroup) : State := wS ((wGrp (wRing (wBasin .outputClosed))).setGrp 2 x)

def wJobD : List Byte := [1, 20, 0, 0] ++ leBytes 4 8 ++ leBytes 8 0x80001000 ++ leBytes 8 0x80002000 ++ leBytes 4 64 ++ List.replicate 36 0

def wJobs (j r : List (List Byte)) : State := let b := wGrp wOpen; wS ({ b with cmp := { b.cmp with jobs := j, running := r } }.store 0x80000000 wJobD)

/-- A cascade of three members; the module is member n; link 0 is up, member 1 present. -/
def wCas (n : Nat) (f : Cas → Cas) : State :=
  let b := wSet wOpen [(Reg.CAS_CFG, 0, 0, 0x80200300 + n * 0x1000000), (Reg.ALN_RING_RATE, 0, 0, 50)]
  wS { b with key := { b.key with slots := [(3, { KeySlot.empty with valid := true, attr := 0xFFFF, key := 77 })] }, sys := { b.sys with zeroised := false },
              cas := f { b.cas with up := [0], mbr := [(1, { CasMbr.reset with st := 1, heard := some 5 })], proxy := [(8192 + 7, 20)] } }

def wCasF : List Byte := [2, 0x81, 0, 2] ++ List.replicate 46 0

/-- A partner of a redundant pair, over path B. -/
def wRed (mode : Mode) (f : Red → Red) : State :=
  let b := wSet wOpen [(Reg.RED_CFG, 0, 0, 0x80000001), (Reg.ALN_RING_RATE, 0, 0, 50)]
  wS { b with sys := { b.sys with mode := mode, imageApplied := true }, red := f { b.red with epoch := 4 } }

def wPath : RedPath := { RedPath.reset with up := true, renewAt := some 1000, ack := some 7 }

def wMsg (role : Nat) : RedMsg := ⟨role, false, true, false, 8, 4, 0⟩

def wMsgB (op : Nat) : List Byte := leBytes 2 1 ++ [BitVec.ofNat 8 op] ++ List.replicate 161 0

def wKey (op : Nat) : State := let b := wSet wOpen [(Reg.KEY_UPD_ADDR_LO, 0, 0, 0x80000000)]; wS (b.store 0x80000000 (wMsgB op))

def wGuard (f : Block → Block) : State := wS (f { wOpen with sys := { wOpen.sys with mode := .maintenance } })

def wEv (code : Nat) : Event := ⟨5, 1, 2, code, 0, 0, 0, 0, 0, [], 0⟩

def wMode (m : Mode) (f : Block → Block) : State := wS (f { wOpen with sys := { wOpen.sys with mode := m, imageApplied := true } })

def wSelf : SelftestResult := ⟨false, false, false, [(1, 5)], [20], [3], false, 500, 4000, 3900⟩

def wTune : State := wS (wSet wOpen [(Reg.SYS_TUNE_ADDR_LO, 0, 0, 0x80000000)])

def wDmaPop : State :=
  let b := wSet wOpen [(Reg.QUE_CFG, 40, 0, 0x80010000), (Reg.QUE_SEL, 52, 0, 40), (Reg.DMA_SRC_BASE_LO, 12, 0, 0xF0100058), (Reg.DMA_DST_BASE_LO, 12, 0, 0x80000100),
    (Reg.DMA_CH_CFG, 12, 0, 0x30000000), (Reg.DMA_SRC_LEN, 12, 0, 8), (Reg.DMA_DST_LEN, 12, 0, 8), (Reg.DMA_SRC_COUNT, 12, 0, 1), (Reg.DMA_DST_COUNT, 12, 0, 1)]
  wS ((b.setDmaCh 12 { b.dmaCh 12 with st := .running }).setRunning 0 (some 12))

/-- The unit holds data 7 and check bits 9, whatever their code. -/
def wRaw : State := wMem (fun b => b.keepRaw 1 3 (7, 9))

/-- What the diagnostic window of that memory holds. -/
def wDiag : Nat × Nat := (wMem id).blk.diagBuf 0 1

/-! ### Every statement's hypotheses are met together -/

theorem test_witness_StepRunsTheFrontCommand :
    (∃ c r, ({ wS wOpen with pending := [.renewSend 5] } : State).pending = c :: r) ∧
    ((wS wOpen).pending = []) :=
  ⟨by exact ⟨_, _, rfl⟩, by rfl⟩

theorem test_witness_EveryCommandCompletesOrNamesNoInstance : (Instr.renewSend 5).wf = true ∧ (Instr.tick 5 2).wf = false := by
  decide +kernel

theorem test_witness_RegistersReadTheirResetValues : 22 < 25 ∧ Reg.EVR_IRQ_ENABLE ∈ Reg.tables 22 ∧ 15 ∈ Reg.EVR_IRQ_ENABLE.spaces ∧ 0 < Reg.EVR_IRQ_ENABLE.n := by
  decide +kernel

theorem test_witness_EveryStepKeepsTheInvariant : ({ wS wOpen with pending := [.renewSend 5, .tick 9 1] } : State).Inv := by
  exact ⟨by decide +kernel, by decide +kernel⟩

theorem test_witness_TB7NeverRunsBackwards : (Instr.renewSend 5).mayResetDie = false ∧ ∃ u, exec (.renewSend 5) (wS wOpen) = .next u := by
  exact ⟨rfl, _, rfl⟩

theorem test_witness_FieldsFollowTheirAccessCodes : 22 < 25 ∧ Reg.EVR_IRQ_ENABLE ∈ Reg.tables 22 ∧ Reg.EVR_IRQ_ENABLE.w64 = false ∧ Reg.EVR_IRQ_ENABLE.fields ≠ [] := by
  decide +kernel

theorem test_witness_RegisterWriteTakesEffect : (fun t m blk off value (s : State) (x : RegAt) => blk < 25 ∧ off < 65536 ∧ off % 4 = 0 ∧ queueReg (65536 * blk + off) = false ∧ s.blk.mayWrite m blk off ∧ (s.at t).locate blk off m = some x ∧ (s.at t).regAct m x (w32 (value % 2 ^ 32)) = none ∧ x.desc.fields.any (fun f => f.acc == .lck) = false) 0 0 22 0x404 5 (wS wOpen) ⟨Reg.EVR_IRQ_ENABLE, 0, 0, 15, 0⟩ := by
  decide +kernel

theorem test_witness_MemoryWriteStoresItsBytes :
    ((fun (t m addr width value o : Nat) (r : Region) (s : State) => m < 55) 0 0 0x40000000 4 0x01020304 0 .mram (wS wOpen)) ∧
    ((fun (t m addr width value o : Nat) (r : Region) (s : State) => m < 55) 0 6 0x80000010 8 0x01020304 0x10 .scratch (wCoreS { Core.reset with dcache := [⟨0x2000000, List.replicate 64 0, false⟩] })) := by
  and_intros <;> decide +kernel

theorem test_witness_ReadsClearAndLatch :
    ((fun t m blk off (s : State) (x : RegAt) => blk < 25 ∧ off < 65536 ∧ off % 4 = 0 ∧ queueReg (65536 * blk + off) = false ∧ s.blk.mayRead m blk off ∧ (s.at t).locate blk off m = some x ∧ [(1, 0, 0x58), (9, 15, 0x41C), (11, 0, 0x100), (23, 15, 0x418)].contains (blk, x.space, x.desc.off) = false ∧ x.desc.w64 = false ∧ x.desc.fields.any (fun f => f.acc == .rc) = true) 0 0 0 0x50C (wS wOpen) ⟨Reg.SYS_HOST_RESETS, 0, 0, 15, 0⟩) ∧
    ((fun (t m : Nat) (s : State) => s.blk.mayRead m 9 0x41C) 5 0 (wS wOpen)) ∧
    ((fun (t m : Nat) (s : State) => s.blk.mayRead m 23 0x418) 5 0 (wS wOpen)) := by
  and_intros <;> decide +kernel

theorem test_witness_QueuesHoldTheirItems :
    ((fun (t m q value : Nat) (s : State) => (s.blk.mayUse m q 0x48 true) ∧ (s.blk.qen q = true) ∧ ((s.blk.queue q).discarding = false) ∧ ((s.blk.queue q).breakPending = false) ∧ ((s.blk.queue q).items.length < s.blk.qcap q) ∧ ((s.blk.queue q).stalled = [])) 0 0 9 5 (wS wQue)) ∧
    ((fun (t m q value : Nat) (s : State) => (s.blk.mayUse m q 0x50 true) ∧ (s.blk.qen q = true) ∧ ((s.blk.queue q).discarding = false) ∧ ((s.blk.queue q).breakPending = false) ∧ ((s.blk.queue q).items.length < s.blk.qcap q) ∧ ((s.blk.queue q).stalled = [])) 0 0 9 5 (wS wQue)) ∧
    ((fun (t m q : Nat) (s : State) (i : QItem) (r : List QItem) => (s.blk.mayUse m q 0x58 false) ∧ (s.blk.qen q = true) ∧ ((s.blk.queue q).flushPending = false) ∧ ((s.blk.queue q).breakPending = false) ∧ ((s.blk.queue q).items = i :: r) ∧ (((s.at t).queueFound q).slotPoisoned q (s.blk.queue q).rd = false)) 0 0 9 (wS wQue) ⟨7, false, false⟩ [⟨8, true, false⟩]) ∧
    ((fun (t m q : Nat) (s : State) => (s.blk.mayUse m q 0x58 false) ∧ (s.blk.qen q = true) ∧ ((s.blk.queue q).flushPending = false) ∧ ((s.blk.queue q).items = [])) 0 0 9 (wS wQueEmpty)) ∧
    ((fun (t m q : Nat) (s : State) (i : QItem) (r : List QItem) => (s.blk.mayUse m q 0x60 false) ∧ (s.blk.qen q = true) ∧ ((s.blk.queue q).flushPending = false) ∧ ((s.blk.queue q).breakPending = false) ∧ ((s.blk.queue q).items = i :: r) ∧ (((s.at t).queueFound q).slotPoisoned q (s.blk.queue q).rd = false)) 0 0 9 (wS wQue) ⟨7, false, false⟩ [⟨8, true, false⟩]) ∧
    ((fun (t m q : Nat) (s : State) => (s.blk.mayUse m q 0x60 false) ∧ ((s.blk.queue q).items = [])) 0 0 9 (wS wQueEmpty)) ∧
    ((fun (t m : Nat) (s : State) => (s.blk.mayWrite m 16 0x6C)) 0 0 (wS wQueSel)) ∧
    ((fun (t m base depth : Nat) (s : State) => (s.blk.mayWrite m 16 0x40) ∧ (s.blk.qen (s.blk.queSel m) = false) ∧ (base < 4096) ∧ (1 ≤ depth) ∧ (depth ≤ 4096)) 0 0 7 3 (wS wQueOff)) ∧
    ((fun (t m : Nat) (s : State) => (s.blk.mayWrite m 16 0x40) ∧ (s.blk.qen (s.blk.queSel m) = true)) 0 0 (wS wQueSel)) := by
  and_intros <;> decide +kernel

theorem test_witness_BasinsOpenAndClose :
    ((fun (t r : Nat) (s : State) => (r < 2) ∧ ((s.blk.ring r).run = true) ∧ (s.blk.red.role ≠ 6) ∧ (slotTime (s.blk.ringRate r) ((s.blk.ring r).nextSlot - 2) ≤ (s.at t).now)) 100000000 0 wTick) ∧
    ((fun (t r seq p c : Nat) (s : State) => (r < 2) ∧ (((s.at t).ring r).seqPos seq = some (p, (s.at t).basinAt r p)) ∧ (((s.at t).basinAt r p).st = .opened) ∧ (((s.at t).basinAt r p).condA = none) ∧ (((s.at t).basinAt r p).weirA (s.at t).now = some c) ∧ ((s.blk.ring r).run = true) ∧ ((s.blk.ring r).earlierWaits ((s.at t).basinAt r p).slot true = false) ∧ (s.blk.weirsWait = false) ∧ ((s.at t).spacingHolds r = false) ∧ (s.blk.red.handover = none)) 100100000 0 5 5 1 wTick) ∧
    ((fun (t r seq p c : Nat) (s : State) => (r < 2) ∧ (((s.at t).ring r).seqPos seq = some (p, (s.at t).basinAt r p)) ∧ (((s.at t).basinAt r p).st = .opened) ∧ (((s.at t).basinAt r p).condA = some c) ∧ (((s.at t).basinAt r p).spaced = true) ∧ ((s.blk.ring r).run = true) ∧ ((s.blk.ring r).earlierWaits ((s.at t).basinAt r p).slot true = false) ∧ (s.blk.weirsWait = false) ∧ ((s.at t).spacingHolds r = false) ∧ (s.blk.red.handover = none)) 100100000 0 5 5 0 wSpaced) ∧
    ((fun (t r seq p c : Nat) (s : State) => (r < 2) ∧ (((s.at t).ring r).seqPos seq = some (p, (s.at t).basinAt r p)) ∧ (((s.at t).basinAt r p).st = .alarmClosed) ∧ (((s.at t).basinAt r p).condB = none) ∧ (((s.at t).basinAt r p).weirB (s.at t).now = some c) ∧ ((s.blk.basinAt r p).closeA7 < (s.at t).t7) ∧ ((s.blk.ring r).run = true) ∧ ((s.blk.ring r).earlierWaits (s.blk.basinAt r p).slot false = false) ∧ (s.blk.sys.mode ≠ .takeover)) 100100000 0 5 5 1 wAlarm) := by
  and_intros <;> decide +kernel

theorem test_witness_BasinsAreMarkedAndEnd :
    ((fun (t r seq ctx p : Nat) (k : Claim) (s : State) => (r < 2) ∧ (ctx < 8192) ∧ (((s.at t).ring r).seqPos seq = some (p, (s.at t).basinAt r p)) ∧ (s.blk.aln.claims.find? (fun k => k.ring == r && k.seq == seq && k.ctx == ctx) = some k) ∧ ((s.blk.basinAt r p).lateClosed = false) ∧ (s.blk.red.handover = none) ∧ (s.blk.sys.mode ≠ .takeover)) 100000000 0 5 1 5 ⟨0, 5, 1, 3, false⟩ wClaim) ∧
    ((fun (t r seq : Nat) (s : State) => (r < 2) ∧ (Tbl.get s.blk.dfe.closedTag r none = some seq) ∧ ((s.blk.ring r).awaits = none) ∧ (s.blk.firingTags)) 100100000 0 4 wExpiry) ∧
    ((fun (t r seq p : Nat) (s : State) => (r < 2) ∧ (((s.at t).ring r).seqPos seq = some (p, (s.at t).basinAt r p)) ∧ ((s.blk.basinAt r p).st = .outputClosed) ∧ ((s.blk.basinAt r p).missDone = false)) 100100000 0 5 5 wOutClosed) ∧
    ((fun (t r seq p : Nat) (s : State) => (r < 2) ∧ (((s.at t).ring r).seqPos seq = some (p, (s.at t).basinAt r p)) ∧ ((s.blk.basinAt r p).st = .outputClosed) ∧ ((s.blk.basinAt r p).outDone = false) ∧ (s.blk.outHandedOver r seq = true)) 100100000 0 5 5 wOutClosed) ∧
    ((fun (t r seq p : Nat) (s : State) => (r < 2) ∧ (((s.at t).ring r).seqPos seq = some (p, (s.at t).basinAt r p)) ∧ ((s.blk.basinAt r p).st = .outputClosed ∨ (s.blk.basinAt r p).st = .retained) ∧ ((s.blk.basinAt r p).lateClosed = false) ∧ ((s.blk.basinAt r p).t0 + (s.blk.basinAt r p).retainMs * 1000000 ≤ (s.at t).now)) 200000000 0 5 5 wOutClosed) := by
  and_intros <;> decide +kernel

theorem test_witness_FramesComeAndGo :
    ((fun (t p : Nat) (data : List Byte) (s : State) => (p < 28) ∧ (s.blk.sys.mode ≠ .halt) ∧ (bits (s.blk.port p).cfgRx 3 0 ≠ 0) ∧ ((s.blk.port p).up = true) ∧ (s.blk.modeSettled) ∧ ((s.blk.port p).fifoUsed + (s.blk.vis Reg.PRT_MAX_FRAME p).toNat ≤ Prt.fifoSize p) ∧ (leAt data (data.length - 4) 4 = crc32 (data.take (data.length - 4))) ∧ (64 ≤ data.length) ∧ (data.length ≤ (s.blk.vis Reg.PRT_MAX_FRAME p).toNat) ∧ ((s.at t).forwards p (data.take (data.length - 4)) true = false) ∧ ((s.at t).vlanOk p (data.take (data.length - 4)) = true) ∧ ((s.at t).addrOk p ((data.take (data.length - 4)).take 6) = true) ∧ ((s.at t).consumes p ((data.take (data.length - 4)).take 6) = true) ∧ ((frameType (data.take (data.length - 4))).1 ≠ 0x88F7) ∧ (bit (s.blk.port p).cfgRx 7 = true) ∧ ((s.at t).ingestBound p (data.take (data.length - 4)) = true)) 0 2 wUdp wUp) ∧
    ((fun (t p : Nat) (data : List Byte) (s : State) => (p < 30) ∧ (s.blk.sys.mode ≠ .halt) ∧ (bits (s.blk.port p).cfgRx 3 0 ≠ 0) ∧ ((s.blk.port p).up = true) ∧ (s.blk.modeSettled) ∧ ((s.blk.port p).fifoUsed + (s.blk.vis Reg.PRT_MAX_FRAME p).toNat ≤ Prt.fifoSize p) ∧ (leAt data (data.length - 4) 4 ≠ crc32 (data.take (data.length - 4)))) 0 2 (List.replicate 64 1) wUp) ∧
    ((fun (t m e value p : Nat) (s : State) => (m < 55) ∧ (e < 48) ∧ (s.blk.mayWrite m 2 (filterHigh e)) ∧ (s.blk.selInst 2 m 0 = some p)) 0 0 3 0x80005566 2 wFil) ∧
    ((fun (t p : Nat) (e : Egress) (s : State) => (p < 30) ∧ ((s.blk.port p).up = true) ∧ ((s.blk.port p).nextFrame = some e) ∧ (e.fwd = true) ∧ (e.fix = .none)) 0 2 (wEg true) (wTx true)) ∧
    ((fun (t p : Nat) (e : Egress) (s : State) => (p < 30) ∧ ((s.blk.port p).up = true) ∧ ((s.blk.port p).nextFrame = some e) ∧ (e.fwd = false) ∧ (e.fix = .none)) 0 2 (wEg false) (wTx false)) ∧
    ((fun (t pair : Nat) (s : State) => (pair < 12)) 2000000000 2 wTc) := by
  and_intros <;> decide +kernel

theorem test_witness_LinksAndModulesChange :
    ((fun (t p mbps : Nat) (half : Bool) (s : State) => (p < 30) ∧ (s.blk.sys.mode ≠ .halt) ∧ (bits (s.blk.port p).cfgRx 3 0 ≠ 0) ∧ ((s.blk.port p).powered = true) ∧ ((s.blk.port p).up = false)) 0 2 1000 false wDown) ∧
    ((fun (t p mbps : Nat) (half : Bool) (s : State) => (p < 30) ∧ (s.blk.sys.mode = .halt ∨ bits (s.blk.port p).cfgRx 3 0 = 0 ∨ (s.blk.port p).powered = false ∨ (s.blk.port p).up = true)) 0 2 1000 true wUp) ∧
    ((fun (t p : Nat) (onWire : Bool) (s : State) => (p < 30) ∧ ((s.blk.port p).up = true)) 0 2 true wUp) ∧
    ((fun (t p : Nat) (s : State) => (p < 30)) 0 2 wUp) ∧
    ((fun (t p : Nat) (onWire : Bool) (s : State) => (p < 30)) 0 2 true wUp) ∧
    ((fun (t p : Nat) (onWire : Bool) (s : State) => (p < 30) ∧ ((s.blk.port p).modPresent = true)) 0 2 true wUp) ∧
    ((fun (t p : Nat) (tx : Bool) (s : State) => (p < 30)) 0 2 true wCfg) := by
  and_intros <;> decide +kernel

theorem test_witness_DescriptorsAreCutIntoFrames :
    ((fun (t p cls : Nat) (d : LargeDesc) (s : State) => (p < 30) ∧ (cls < 4) ∧ ((s.blk.port p).up = true)) 0 2 1 wLd wUp) ∧
    ((fun (t p cls : Nat) (d : UdpDesc) (s : State) => (p < 30) ∧ (cls < 4) ∧ ((s.blk.port p).up = true)) 0 2 1 wUd wUp) := by
  and_intros <;> decide +kernel

theorem test_witness_StreamFramesAreClaimed :
    ((fun (t port c n : Nat) (f : RxFrame) (rest : List RxFrame) (v : IpView) (d : Dgram) (k : Claim) (s : State) => (port < 30) ∧ ((s.blk.port port).fifo = f :: rest) ∧ (s.blk.str.offers = []) ∧ (s.blk.aln.claims.length < 64) ∧ (s.blk.strCold = false) ∧ (ipView f.bytes = some v) ∧ (v.frag = false) ∧ (d = ⟨port, v.v6, v.src, v.dst, beAt v.udp 0 2, beAt v.udp 2 2, f.stamp, slice v.udp 8 (beAt v.udp 4 2 - 8)⟩) ∧ (s.blk.listener v.v6 d.dport = some n) ∧ (fld (s.blk.cfg Reg.STR_LISTEN 0 n) 27 24 = 0) ∧ (c37Ok d.payload = true) ∧ (c37Chk d.payload = true) ∧ (c37Type d.payload = 0) ∧ (s.blk.byBlock (s.blk.strCtxs d 0 (beAt d.payload 4 2)) = [c]) ∧ (16 + s.blk.blockSize c = d.payload.length) ∧ (s.blk.strEnabled c = true) ∧ ((s.at t).claimOf c (beAt d.payload 6 4) (beAt d.payload 10 4 % 2 ^ 24) f.stamp = some k)) 0 2 1 3 wFrame [] (ipView wFrame.bytes |>.getD ⟨false, 0, 0, false, 0, false, 0, []⟩) wDg ⟨0, 5, 1, 1, false⟩ wIngest) ∧
    ((fun (t port : Nat) (poisoned aborted : Bool) (f : RxFrame) (rest : List RxFrame) (s : State) => (port < 30) ∧ ((s.blk.port port).fifo = f :: rest) ∧ (s.blk.str.offers = [])) 0 2 true false wFrame [] wIngest) ∧
    ((fun (t port : Nat) (poisoned aborted : Bool) (s : State) => (port < 30) ∧ (s.blk.str.offers ≠ [])) 0 2 false false wOffered) ∧
    ((fun (t c a : Nat) (p : List Byte) (k : Claim) (s : State) => ((s.blk.vis Reg.STR_INJ_SIZE).toNat ≠ 0) ∧ (s.blk.vis Reg.STR_INJ_HEAD ≠ s.blk.vis Reg.STR_INJ_TAIL) ∧ (s.blk.str.offers = []) ∧ (s.blk.aln.claims.length < 64) ∧ (a = s.blk.addrOf Reg.STR_INJ_BASE_LO Reg.STR_INJ_BASE_HI + (s.blk.vis Reg.STR_INJ_HEAD).toNat * 32) ∧ (c = s.blk.loadN (a + 12) 2 % 8192) ∧ (s.blk.loadN (a + 8) 4 ≤ 16384) ∧ (p = s.blk.load (s.blk.loadN a 8) (s.blk.loadN (a + 8) 4)) ∧ (s.blk.cb Reg.STR_CTX_CTRL c 30 = true) ∧ (c37Ok p = true) ∧ (c37Chk p = true) ∧ (c37Type p = 0) ∧ (16 + s.blk.blockSize c = p.length) ∧ (s.blk.strEnabled c = true) ∧ ((s.at t).claimOf c (beAt p 6 4) (beAt p 10 4 % 2 ^ 24) (s.blk.loadN (a + 16) 6 * nsPerS + s.blk.loadN (a + 22) 4) = some k)) 0 1 0x80000000 wC37 ⟨0, 5, 1, 1, false⟩ wInject) ∧
    ((fun (t : Nat) (s : State) => (∀ x ∈ s.blk.str.reasm, ∀ y ∈ s.blk.str.reasm, x.key = y.key → x = y)) 1000000000 wReasm) ∧
    ((fun (t m c : Nat) (s : State) => (s.blk.mayWrite m 4 0x58) ∧ (s.blk.selInst 4 m 0 = some c)) 0 0 77 wSel) := by
  and_intros <;> decide +kernel

theorem test_witness_CommitsHandOverTheShadowSets :
    ((fun (t m : Nat) (s : State) => (s.blk.mayWrite m 3 0x408)) 0 0 (wCom 3)) ∧
    ((fun (t m : Nat) (s : State) => (s.blk.mayWrite m 4 0x408)) 0 0 (wCom 4)) ∧
    ((fun (t m : Nat) (s : State) => (s.blk.mayWrite m 5 0x408)) 0 0 (wCom 5)) ∧
    ((fun (t m : Nat) (s : State) => (s.blk.mayWrite m 9 0x408)) 0 0 (wCom 9)) ∧
    ((fun (t m : Nat) (s : State) => (s.blk.mayWrite m 6 0x408)) 0 0 (wCom 6)) ∧
    ((fun (t m : Nat) (s : State) => (s.blk.mayWrite m 7 0x408)) 0 0 (wCom 7)) ∧
    ((fun (t m : Nat) (s : State) => (s.blk.mayWrite m 8 0x408)) 0 0 (wCom 8)) ∧
    ((fun (t m : Nat) (s : State) => (s.blk.mayWrite m 11 0x408)) 0 0 (wCom 11)) ∧
    ((fun (t m : Nat) (s : State) => (s.blk.mayWrite m 13 0x408) ∧ (s.blk.sys.variantW = false)) 0 0 (wCom 13)) ∧
    ((fun (t m : Nat) (s : State) => (s.blk.mayWrite m 17 0x408)) 0 0 (wCom 17)) := by
  and_intros <;> decide +kernel

theorem test_witness_SessionsActAndSend :
    ((fun (t m i : Nat) (s : State) => (s.blk.mayWrite m 5 0x78) ∧ (s.blk.selInst 5 m 1 = some i) ∧ ((s.blk.sess i).st = 0) ∧ (s.blk.cf Reg.OUT_STR_CFG (s.blk.sessStream i) 27 26 = 2) ∧ (65536 ≤ s.blk.sessSize i) ∧ (s.blk.sessBase i % 64 = 0)) 0 0 1 (wSessS Session.reset)) ∧
    ((fun (t m i : Nat) (s : State) => (s.blk.mayWrite m 5 0x78) ∧ (s.blk.selInst 5 m 1 = some i) ∧ ((s.blk.sess i).st = 1)) 0 0 1 (wSessS wEst)) ∧
    ((fun (t m i : Nat) (s : State) => (s.blk.mayWrite m 5 0x78) ∧ (s.blk.selInst 5 m 1 = some i) ∧ ((s.blk.sess i).st ≠ 0)) 0 0 1 (wSessS wEst)) ∧
    ((fun (t m i : Nat) (s : State) => (s.blk.mayWrite m 5 0x78) ∧ (s.blk.selInst 5 m 1 = some i) ∧ ((s.blk.sess i).st ≠ 0) ∧ ((s.blk.port (24 + s.blk.cf Reg.OUT_STR_CFG (s.blk.sessStream i) 24 23)).up = true)) 0 0 1 (wSessS wEst)) ∧
    ((fun (t m i a : Nat) (s : State) => (s.blk.mayWrite m 5 0x68) ∧ (s.blk.selInst 5 m 1 = some i) ∧ ((s.blk.sess i).st ≠ 0) ∧ (seqDiff (s.blk.sess i).una (a % 2 ^ 32) ≤ seqDiff (s.blk.sess i).una (s.blk.sess i).nxt)) 0 0 1 1050 (wSessS wEst)) ∧
    ((fun (t m i a : Nat) (s : State) => (s.blk.mayWrite m 5 0x6C) ∧ (s.blk.selInst 5 m 1 = some i) ∧ ((s.blk.sess i).st ≠ 0)) 0 0 1 1050 (wSessS wEst)) ∧
    ((fun (t i n : Nat) (s : State) => (i < 64) ∧ ((s.blk.sess i).st ≠ 0) ∧ (n = min (seqDiff (s.blk.sess i).nxt (s.blk.sess i).top) ((s.blk.sess i).wnd - seqDiff (s.blk.sess i).una (s.blk.sess i).nxt))) 0 1 200 (wSessS wEst)) ∧
    ((fun (t i a : Nat) (s : State) => (i < 64) ∧ ((s.blk.sess i).st = 1) ∧ ((s.blk.sess i).stall = some a) ∧ (a + (s.blk.vis Reg.OUT_SESS_STALL_MS).toNat * 1000000 ≤ (s.at t).t7)) 20000000 1 0 (wSessS { wEst with stall := some 0 })) := by
  and_intros <;> decide +kernel

theorem test_witness_CommandsOfSubscribersAct :
    ((fun (t : Nat) (i : QItem) (r : List QItem) (c : OutCmd) (p : Nat) (s : State) => (s.blk.qen 16 = true) ∧ ((s.blk.queue 16).flushPending = false) ∧ ((s.blk.queue 16).breakPending = false) ∧ ((s.blk.queue 16).items = i :: r) ∧ (bits i.val 63 56 = 1) ∧ (s.blk.outCmdOf i.val = c) ∧ (c.code = 1) ∧ (c.part = some p) ∧ (c.udp = false) ∧ ((s.blk.sess c.inst).st = 1)) 0 ⟨wItem 1, true, false⟩ [] (wOc 1) 4 (wCmd 1)) ∧
    ((fun (t : Nat) (i : QItem) (r : List QItem) (c : OutCmd) (p : Nat) (s : State) => (s.blk.qen 16 = true) ∧ ((s.blk.queue 16).flushPending = false) ∧ ((s.blk.queue 16).breakPending = false) ∧ ((s.blk.queue 16).items = i :: r) ∧ (bits i.val 63 56 = 1) ∧ (s.blk.outCmdOf i.val = c) ∧ (c.code = 1) ∧ (c.part = some p) ∧ (c.udp = true)) 0 ⟨2 ^ 56 + 2 ^ 54 + 2 * 2 ^ 48 + 9 * 2 ^ 32 + 1, true, false⟩ [] ⟨true, 2, 2, some 4, 1⟩ 4 wCmdU) ∧
    ((fun (t : Nat) (i : QItem) (r : List QItem) (c : OutCmd) (p : Nat) (s : State) => (s.blk.qen 16 = true) ∧ ((s.blk.queue 16).flushPending = false) ∧ ((s.blk.queue 16).breakPending = false) ∧ ((s.blk.queue 16).items = i :: r) ∧ (bits i.val 63 56 = 1) ∧ (s.blk.outCmdOf i.val = c) ∧ (c.code = 2) ∧ (c.part = some p) ∧ (c.udp = false) ∧ ((s.blk.sess c.inst).st = 1)) 0 ⟨wItem 2, true, false⟩ [] (wOc 2) 4 (wCmd 2)) ∧
    ((fun (t : Nat) (i : QItem) (r : List QItem) (c : OutCmd) (p : Nat) (s : State) => (s.blk.qen 16 = true) ∧ ((s.blk.queue 16).flushPending = false) ∧ ((s.blk.queue 16).breakPending = false) ∧ ((s.blk.queue 16).items = i :: r) ∧ (bits i.val 63 56 = 1) ∧ (s.blk.outCmdOf i.val = c) ∧ (c.code = 3) ∧ (c.part = some p) ∧ (c.udp = false) ∧ ((s.blk.sess c.inst).st = 1)) 0 ⟨wItem 3, true, false⟩ [] (wOc 3) 4 (wCmd 3)) ∧
    ((fun (t : Nat) (i : QItem) (r : List QItem) (c : OutCmd) (p : Nat) (s : State) => (s.blk.qen 16 = true) ∧ ((s.blk.queue 16).flushPending = false) ∧ ((s.blk.queue 16).breakPending = false) ∧ ((s.blk.queue 16).items = i :: r) ∧ (bits i.val 63 56 = 1) ∧ (s.blk.outCmdOf i.val = c) ∧ (c.code = 4) ∧ (c.part = some p) ∧ (c.udp = false) ∧ ((s.blk.sess c.inst).st = 1)) 0 ⟨wItem 4, true, false⟩ [] (wOc 4) 4 (wCmd 4)) ∧
    ((fun (t : Nat) (i : QItem) (r : List QItem) (c : OutCmd) (p : Nat) (s : State) => (s.blk.qen 16 = true) ∧ ((s.blk.queue 16).flushPending = false) ∧ ((s.blk.queue 16).breakPending = false) ∧ ((s.blk.queue 16).items = i :: r) ∧ (bits i.val 63 56 = 1) ∧ (s.blk.outCmdOf i.val = c) ∧ (c.code = 5) ∧ (c.part = some p) ∧ (c.udp = false) ∧ ((s.blk.sess c.inst).st = 1)) 0 ⟨wItem 5, true, false⟩ [] (wOc 5) 4 (wCmd 5)) ∧
    ((fun (t : Nat) (i : QItem) (r : List QItem) (c : OutCmd) (p : Nat) (s : State) => (s.blk.qen 16 = true) ∧ ((s.blk.queue 16).flushPending = false) ∧ ((s.blk.queue 16).breakPending = false) ∧ ((s.blk.queue 16).items = i :: r) ∧ (bits i.val 63 56 = 1) ∧ (s.blk.outCmdOf i.val = c) ∧ (c.code = 6) ∧ (c.part = some p) ∧ (c.udp = false) ∧ ((s.blk.sess c.inst).st = 1) ∧ (s.blk.cf Reg.OUT_STR_CFG c.stream 29 28 ≠ 1)) 0 ⟨wItem 6, true, false⟩ [] (wOc 6) 4 (wCmd 6)) ∧
    ((fun (t : Nat) (i : QItem) (r : List QItem) (c : OutCmd) (p : Nat) (s : State) => (s.blk.qen 16 = true) ∧ ((s.blk.queue 16).flushPending = false) ∧ ((s.blk.queue 16).breakPending = false) ∧ ((s.blk.queue 16).items = i :: r) ∧ (bits i.val 63 56 = 1) ∧ (s.blk.outCmdOf i.val = c) ∧ (c.code = 8) ∧ (c.part = some p) ∧ (s.blk.qen 17 = true) ∧ ((s.blk.queue 17).discarding = false) ∧ ((s.blk.queue 17).breakPending = false) ∧ ((s.blk.queue 17).flushPending = false) ∧ ((s.blk.queue 17).items.length < s.blk.qcap 17) ∧ ((s.blk.queue 17).stalled = [])) 0 ⟨wItem 8, true, false⟩ [] (wOc 8) 4 (wCmd 8)) ∧
    ((fun (t : Nat) (i : QItem) (r : List QItem) (c : OutCmd) (p : Nat) (s : State) => (s.blk.qen 16 = true) ∧ ((s.blk.queue 16).flushPending = false) ∧ ((s.blk.queue 16).breakPending = false) ∧ ((s.blk.queue 16).items = i :: r) ∧ (bits i.val 63 56 = 1) ∧ (s.blk.outCmdOf i.val = c) ∧ (cmdOther c.code = true) ∧ (c.part = some p)) 0 ⟨wItem 7, true, false⟩ [] (wOc 7) 4 (wCmd 7)) := by
  and_intros <;> decide +kernel

theorem test_witness_PartsAreLaunchedAndResent :
    ((fun (t r seq i : Nat) (j : OutJob) (s : State) => (r < 2) ∧ (i < 64) ∧ (s.blk.out.jobs.find? (fun j => j.ring == r && j.seq == seq && j.stream == i) = some j) ∧ (j.weirB.isSome = true) ∧ ((s.at t).launchDue j = true) ∧ (j.parts.any (fun p => !p.launched) = true) ∧ ((s.at t).launchHeld j = false)) 2000000000 0 5 2 (wJob false false) (wJobS false false)) ∧
    ((fun (t r seq i : Nat) (j : OutJob) (s : State) => (r < 2) ∧ (i < 64) ∧ (s.blk.out.jobs.find? (fun j => j.ring == r && j.seq == seq && j.stream == i) = some j) ∧ ((s.at t).launchHeld j = true)) 2000000000 0 5 2 (wJob false false) wHeldS) ∧
    ((fun (t r seq i part w : Nat) (j : OutJob) (q : OutPart) (s : State) => (r < 2) ∧ (i < 64) ∧ (part < 1024) ∧ (s.blk.out.jobs.find? (fun j => j.ring == r && j.seq == seq && j.stream == i) = some j) ∧ (j.parts.find? (fun x => x.part == part) = some q) ∧ (j.weirB = some w) ∧ (bit j.cfg 21 = true) ∧ (q.late = true) ∧ (q.resent = false) ∧ (q.launched = true) ∧ (w + j.word 2 % 2 ^ 25 * 1000 ≤ (s.at t).now)) 2000000000 0 5 2 4 2000000000 (wJob true true) ⟨4, true, true, 0, [], true, false, [], []⟩ (wJobS true true)) := by
  and_intros <;> decide +kernel

theorem test_witness_FiringsArePlacedAndFed :
    ((fun (t op tag c : Nat) (spill : Bool) (f : Firing) (s : State) => ((s.at t).firstReady = some (op, tag)) ∧ ((s.at t).target op = some (c, spill)) ∧ (s.blk.dfe.back.any (fun g => g.op == op && g.tag == tag) = false) ∧ (s.blk.dfe.slices.any (fun g => g.op == op && g.tag == tag) = false) ∧ (f = ⟨op, tag, s.blk.dfe.store.filter (fun k => k.op == op && k.tag == tag), false, s.blk.rpl.published, (s.at t).t7, false⟩)) 0 5 9 2 false wFir (wReady Core.reset)) ∧
    ((fun (t c i : Nat) (f : Firing) (d : OpDef) (s : State) => (c < 48) ∧ (((s.at t).core c).running = some f) ∧ (((s.at t).core c).held = []) ∧ (((s.at t).core c).queue = []) ∧ (((s.at t).core c).haltReq = false) ∧ (((s.at t).core c).out = false) ∧ (s.blk.opDef f.op = some d) ∧ (d.lib = .namedOut) ∧ (d.outs.flatten = [.outAnalytics i]) ∧ (d.epoch = false) ∧ (f.dead = false) ∧ (∀ k ∈ f.toks, k.gen = s.blk.dfe.gen) ∧ (s.blk.tagOver d f.tag = false) ∧ (s.blk.badInput f = false)) 0 2 3 wFir wNamed (wCoreS wRun)) ∧
    ((fun (t c : Nat) (f : Firing) (d : OpDef) (k : Token) (s : State) => (c < 48) ∧ (((s.at t).core c).running = some f) ∧ (s.blk.opDef f.op = some d) ∧ (((s.at t).core c).held = [.tok k]) ∧ (k.gen = s.blk.dfe.gen) ∧ (s.blk.admits 1 = true) ∧ ((s.blk.dfe.store.find? (fun u => u.op == k.op && u.port == k.port && u.tag % 8 == k.tag % 8)) = none)) 0 2 wFir wNamed (wTok 0) (wCoreS { wRun with held := [.tok (wTok 0)] })) ∧
    ((fun (t : Nat) (e : Nat × Token) (s : State) => (s.blk.dfe.engHeld.find? (fun e => s.blk.admits e.1) = some e) ∧ (e.2.gen = s.blk.dfe.gen) ∧ ((s.blk.dfe.store.find? (fun u => u.op == e.2.op && u.port == e.2.port && u.tag % 8 == e.2.tag % 8)) = none)) 0 (2, wTok 0) wEng) ∧
    ((fun (t m op port tag : Nat) (d : OpDef) (s : State) => (s.blk.mayWrite m 9 0x42C) ∧ (op < 4096) ∧ (port < 4) ∧ (s.blk.opDef op = some d) ∧ (d.lib = .hostIn) ∧ (1 ≤ fld (s.blk.vis Reg.DFE_INJ_LEN m) 20 0) ∧ (fld (s.blk.vis Reg.DFE_INJ_LEN m) 20 0 ≤ 1048576) ∧ (refRangeOk (s.blk.addrOf Reg.DFE_INJ_ADDR_LO Reg.DFE_INJ_ADDR_HI m) (fld (s.blk.vis Reg.DFE_INJ_LEN m) 20 0) = true) ∧ (s.blk.admits 2 = true) ∧ (tag = (if d.epoch then s.blk.rpl.epoch % 65536 else (Tbl.get s.blk.dfe.closedSeq d.ring 0 + 65535) % 65536)) ∧ ((s.blk.dfe.store.find? (fun u => u.op == op && u.port == port && u.tag % 8 == tag % 8)) = none)) 0 0 6 0 1 wHostIn (wCoreS wRun)) := by
  and_intros <;> decide +kernel

theorem test_witness_FabricCoresLeaveAndReturn :
    ((fun (t m c : Nat) (s : State) => (s.blk.mayWrite m 9 0x44) ∧ (s.blk.selInst 9 m 0 = some c) ∧ (s.blk.acc.frozen.contains (4 + c) = false) ∧ (((s.at t).core c).st = .frozen ∨ ((s.at t).core c).st = .memFault)) 0 0 2 (wCoreS { Core.reset with st := .frozen, out := true })) ∧
    ((fun (t c : Nat) (s : State) => (c < 48) ∧ (((s.at t).core c).st ≠ .frozen) ∧ (((s.at t).core c).st ≠ .halted)) 0 2 (wCoreS wRun)) ∧
    ((fun (t c : Nat) (s : State) => (c < 48) ∧ (((s.at t).core c).st = .frozen ∨ ((s.at t).core c).st = .halted)) 0 2 (wCoreS { Core.reset with st := .halted, out := true })) ∧
    ((fun (t c : Nat) (s : State) => (c < 48) ∧ (s.blk.sys.mode = .debug) ∧ (((s.at t).core c).out = false)) 0 2 (wDebug Core.reset)) ∧
    ((fun (t c : Nat) (s : State) => (c < 48) ∧ (((s.at t).core c).st = .halted)) 0 2 (wCoreS { Core.reset with st := .halted, out := true })) := by
  and_intros <;> decide +kernel

theorem test_witness_TheRippleEngineGoesOn :
    ((fun (t e seq slot a : Nat) (s : State) => (s.blk.rpl.solving = some (e, seq, slot, a)) ∧ (s.blk.rpl.solved = none) ∧ (bit s.blk.sys.selftestResult 26 = false)) 5000000 7 5 5 0 (wRpl (fun r => { r with solving := some (7, 5, 5, 0) }))) ∧
    ((fun (t e seq slot a : Nat) (s : State) => (s.blk.rpl.solving = some (e, seq, slot, a)) ∧ (s.blk.rpl.solved = none) ∧ (bit s.blk.sys.selftestResult 26 = false)) 5000000 7 5 5 0 (wRpl (fun r => { r with solving := some (7, 5, 5, 0) }))) ∧
    ((fun (t : Nat) (fault : Bool) (s : State) => (bit s.blk.sys.selftestResult 26 = true)) 5000000 true wNoSolver) ∧
    ((fun (t a : Nat) (s : State) => (s.blk.rpl.ringdown = some a) ∧ (a + s.blk.cf Reg.RPL_RD_CFG 0 23 16 * nsPerS ≤ (s.at t).t7)) 1000000000000 0 (wRpl (fun r => { r with ringdown := some 0 }))) ∧
    ((fun (t a : Nat) (s : State) => (s.blk.rpl.ringdown = some a) ∧ (a + s.blk.cf Reg.RPL_RD_CFG 0 15 8 * 100000000 ≤ (s.at t).t7)) 1000000000000 0 (wRpl (fun r => { r with ringdown := some 0, tracks := [(3, wTrk)] }))) ∧
    ((fun (t seq p q : Nat) (x : Basin) (s : State) => (s.blk.rpl.gather = some (seq, p)) ∧ ((s.blk.ring 0).seqPos seq = some (q, x))) 0 5 5 5 { wBasin .opened with bmpB := 2#8192, seq := 5, slot := 5, t0 := 100000000 } (wRpl (fun r => { r with gather := some (5, 5) }))) := by
  and_intros <;> decide +kernel

theorem test_witness_IslandsAlarmsAndPublishersAct :
    ((fun (t seq di p : Nat) (x : Basin) (s : State) => (s.blk.isl.running = some (seq, di)) ∧ (Tbl.get s.blk.dfe.closedTag 0 none = none) ∧ ((s.blk.ring 0).seqPos seq = some (p, x))) 0 5 0 5 { wBasin .alarmClosed with bmpA := 2#8192, seq := 5, slot := 5, t0 := 100000000 } wIsl) ∧
    ((fun (t i : Nat) (s : State) => (Tbl.get s.blk.dfe.closedTag 0 none = some i)) 0 4 { wIsl with blk := { wIsl.blk with dfe := { wIsl.blk.dfe with closedTag := [(0, some 4)] } } }) ∧
    ((fun (t m d : Nat) (s : State) => (s.blk.mayWrite m 8 0x5C) ∧ (s.blk.selInst 8 m 2 = some d)) 0 0 7 (wAlm id)) ∧
    ((fun (t p e : Nat) (s : State) => (p < 16) ∧ (s.blk.alm.pulses.find? (fun e => e.1 == p) = some (p, e)) ∧ (e ≤ (s.at t).t7)) 9 15 5 (wAlm (fun a => { a with pulses := [(15, 5), (4, 7)] }))) ∧
    ((fun (t i age : Nat) (level : Bool) (s : State) => (i < 8)) 0 3 500 true (wAlm id)) ∧
    ((fun (t p a port : Nat) (x : Publisher) (s : State) => (p < 8) ∧ (s.blk.pub p = x) ∧ (x.nextAt = some a) ∧ (x.on = true) ∧ (s.blk.pubMay p = true) ∧ (a ≤ (s.at t).t7) ∧ (port = bits (s.blk.cn Reg.ALM_PUB_CFG 0 p) 27 23)) 2000000 3 2000000 1 (wPub.pub 3) wPubS) := by
  and_intros <;> decide +kernel

theorem test_witness_MeasurementsDisciplineTheTimeBases :
    ((fun (t src e : Nat) (mm : Meas) (b1 : Block) (x : Int) (ext : Option Nat) (s : State) => (s.blk.sys.mode ≠ .acquire) ∧ ((s.at t).measured 0 src mm = some (b1, x, e, ext)) ∧ (src = s.blk.bestSource 0) ∧ ((s.blk.tb 0).src = src) ∧ ((s.blk.tb 0).st ≠ .locked) ∧ ((s.blk.tb 0).reacq = false) ∧ (s.blk.tbEnabled 0 = true) ∧ (s.blk.tb0Disciplined = true) ∧ (x.natAbs ≤ s.blk.cn Reg.TIM_TB0_STEP_THR)) 1000000 1 0 .counter ((wTim .degraded { wTb 1 with e0 := none } (wTb 9) id).at 1000000) 0 none (wTim .degraded { wTb 1 with e0 := none } (wTb 9) id)) ∧
    ((fun (t n origin rcv : Nat) (corr x : Int) (s : State) => (1 ≤ n) ∧ (n ≤ 4) ∧ ((s.blk.ptpState n).meas = some (origin, corr, rcv)) ∧ (s.blk.tbEnabled n = true) ∧ (s.blk.bestSource n = 9) ∧ ((s.blk.tb n).src = 9) ∧ ((s.blk.tb n).st ≠ .locked) ∧ (x = ((origin : Int) * 65536 + corr + (s.blk.pdState (s.blk.cf Reg.TIM_PTP_CFG n 28 24)).mean * 256) / 65536 - rcv) ∧ (x.natAbs ≤ s.blk.cf Reg.TIM_PTP_CFG n 15 8 * 1000)) 1000000 1 5000 4990 655360 20 wSynced) := by
  and_intros <;> decide +kernel

theorem test_witness_TimeSourcesComeAndGo :
    ((fun (t n src : Nat) (s : State) => (n < 7) ∧ (s.blk.tbEnabled n = true) ∧ ((s.at t).sourceOk n src = true) ∧ (((List.range 4).map (s.blk.srcCode n)).contains src = true) ∧ (src ≠ 0)) 11000000000 0 1 (wTim .selftest { wTb 0 with qual := [] } { wTb 9 with st := .locked, lockedSince := some 0 } id)) ∧
    ((fun (t n src : Nat) (s : State) => (n < 7) ∧ (src ≠ 0) ∧ ((s.at t).lossDue n src = true) ∧ ((s.blk.tb n).src = src) ∧ (((List.range 4).map (s.blk.srcCode n)).any (fun c => c != 0 && (setDel (s.blk.tb n).qual src).contains c) = false)) 9000000 0 1 (wTimE .locked)) ∧
    ((fun (t n a : Nat) (s : State) => (n < 7) ∧ ((s.blk.tb n).okSince = some a) ∧ ((s.blk.tb n).st = .acquiring) ∧ ((s.at t).errOk n = true) ∧ (a + s.blk.cf Reg.TIM_TB_LOCK n 31 26 * nsPerS ≤ (s.at t).t7)) 9000000000 0 0 (wTim .selftest { wTb 1 with okSince := some 0, win := [1], src := 5, eSrc := 5 } (wTb 9) id)) ∧
    ((fun (t n : Nat) (s : State) => (n < 7) ∧ ((s.at t).errOk n = false) ∧ ((s.blk.tb n).st = .locked ∨ (s.blk.tb n).st = .holdover)) 9000000 0 (wTimE .locked)) ∧
    ((fun (t p : Nat) (s : State) => (p < 29) ∧ (s.blk.cb Reg.TIM_PD_CFG p 31 = true) ∧ ((s.blk.pdState p).reqAt = none) ∧ ((s.blk.port p).up = true)) 5 2 (wTimE .locked)) ∧
    ((fun (t p a : Nat) (s : State) => (p < 29) ∧ ((s.blk.pdState p).reqAt = some a) ∧ (a + 100000000 ≤ (s.at t).t7)) 200000000 2 7 (wTim .selftest (wTb 1) (wTb 9) (fun x => { x with pd := [(2, { PeerDelay.reset with reqAt := some 7 })] }))) := by
  and_intros <;> decide +kernel

theorem test_witness_TimingInputsAndPulses :
    ((fun (t fmt tq : Nat) (c : IrigCode) (l61 l59 : Bool) (s : State) => (s.blk.cb Reg.TIM_TIN_CFG 0 31 = true) ∧ (c.good = true)) 0 1 2 ⟨true, 5, 100, 26, 26, 0⟩ false false (wTimE .locked)) ∧
    ((fun (t fmt tq : Nat) (c : IrigCode) (l61 l59 : Bool) (s : State) => (s.blk.cb Reg.TIM_TIN_CFG 0 31 = true) ∧ (c.good = false) ∧ (1 ≤ s.blk.tim.tin.irigMiss)) 0 1 2 ⟨false, 5, 100, 26, 26, 0⟩ false false (wTim .selftest (wTb 1) (wTb 9) (fun x => { x with tin := { x.tin with irigMiss := 1 } }))) ∧
    ((fun (t : Nat) (s : State) => (s.blk.cb Reg.TIM_TIN_CFG 0 29 = true) ∧ (s.blk.tim.tin.ppsLevel = s.blk.cb Reg.TIM_TIN_CFG 0 28)) 0 (wTimE .locked)) ∧
    ((fun (t : Nat) (s : State) => (s.blk.cb Reg.TIM_TIN_CFG 0 29 = true) ∧ (s.blk.tim.tin.ppsLevel ≠ s.blk.cb Reg.TIM_TIN_CFG 0 28)) 0 (wTim .selftest (wTb 1) (wTb 9) (fun x => { x with tin := { x.tin with ppsLevel := true } }))) ∧
    ((fun (t utc : Nat) (h : TodHead) (s : State) => (s.blk.cb Reg.TIM_TIN_CFG 0 30 = true) ∧ (h.rmc = s.blk.cb Reg.TIM_TIN_CFG 0 26) ∧ (h.baud = s.blk.cf Reg.TIM_TIN_CFG 0 18 16) ∧ (h.good = true) ∧ (h.rmc = false ∨ h.statusA = true) ∧ (s.blk.tim.tin.todSec = none ∨ s.blk.tim.tin.todSec = some (utc - 1) ∧ 1 ≤ utc)) 0 100 ⟨false, 0, true, false⟩ (wTimE .locked)) ∧
    ((fun (t a : Nat) (r : RefSight) (s : State) => (s.blk.cb Reg.TIM_OSC_CFG 0 0 = true) ∧ (s.blk.tim.oscActive = 0) ∧ (r.present = true) ∧ (r.ppb ≤ 2000) ∧ (s.blk.tim.ref10Good = some a) ∧ (a + 10 * nsPerS ≤ (s.at t).t7)) 10000000005 5 ⟨true, 500⟩ wRefGood) ∧
    ((fun (t : Nat) (r : RefSight) (s : State) => (s.blk.tim.oscActive = 1) ∧ ((r.present = false ∨ 5000 < r.ppb ∧ ∃ a, s.blk.tim.ref10Bad = some a ∧ a + 10000000 ≤ (s.at t).t7))) 9 ⟨false, 0⟩ wRefUsed) ∧
    ((fun (t : Nat) (e : Nat × Int) (s : State) => (s.blk.tim.leaps[s.blk.tim.leapDone]? = some e) ∧ (e.1 ≤ (s.at t).now / nsPerS)) 9000000000 (5, 37) (wTim .selftest (wTb 1) (wTb 0) (fun x => { x with leaps := [(5, 37)] }))) ∧
    ((fun (t : Nat) (s : State) => (s.blk.tim.leapExpiry ≤ (s.at t).now / nsPerS)) 9000000000 (wTimE .locked)) ∧
    ((fun (t i e : Nat) (s : State) => (i < 8) ∧ ((s.blk.poState i).nextEdge = some e) ∧ ((s.blk.poState i).armed = true) ∧ (e ≤ (s.at t).tbNow (s.blk.poTb i)) ∧ (s.blk.pulsesOff = false) ∧ ((s.blk.cb Reg.TIM_PO_CFG i 27 = true → (s.blk.tb (s.blk.poTb i)).st = .locked))) 9000 3 50 (wTim .active (wTb 1) (wTb 0) (fun x => { x with po := [(3, { PulseOut.reset with armed := true, nextEdge := some 50 })] }))) ∧
    ((fun (t i e : Nat) (s : State) => (i < 8) ∧ ((s.blk.poState i).pulseEnd = some e) ∧ (e ≤ (s.at t).tbNow (s.blk.poTb i))) 9000 3 50 (wTim .active (wTb 1) (wTb 0) (fun x => { x with po := [(3, { PulseOut.reset with pulseEnd := some 50 })] }))) := by
  and_intros <;> decide +kernel

theorem test_witness_VirtualTimeBasesAndSettings :
    ((fun (t m n v : Nat) (s : State) => (s.blk.mayWrite m 1 0x6C) ∧ (s.blk.selInst 1 m 0 = some n) ∧ ((s.blk.tb n).virtual = true) ∧ (n ≠ 7)) 7000 0 1 12345 (wTim .selftest (wTb 1) (wTb 0) id)) ∧
    ((fun (t m n v : Nat) (s : State) => (s.blk.mayWrite m 1 0x68) ∧ (s.blk.selInst 1 m 0 = some n) ∧ ((s.blk.tb n).virtual = true) ∧ (n ≠ 7) ∧ ((n = 0 → s.blk.sys.mode = .acquire))) 7000 0 1 0xFFFFFF00 (wTim .selftest (wTb 1) (wTb 0) id)) ∧
    ((fun (t m n : Nat) (s : State) => (s.blk.mayRead m 1 0x58) ∧ (s.blk.selInst 1 m 0 = some n)) 7000 0 1 (wTim .selftest (wTb 1) (wTb 0) id)) ∧
    ((fun (t m : Nat) (s : State) => (s.blk.mayWrite m 1 0x408) ∧ (4 ≤ m ∨ bit (s.blk.vis Reg.SYS_CFG).toNat 0 = false)) 0 0 (wCom 1)) ∧
    ((fun (t a k : Nat) (w : Word) (s : State) => (s.blk.tim.handoverAt = some a) ∧ (a ≤ (s.at t).now / nsPerS) ∧ (s.blk.regs.com = [(k, w)]) ∧ ((s.at t).lateSet k = none) ∧ (s.blk.regs.wrote.1 ≠ (s.at t).t7) ∧ (keyBlk k = 1) ∧ (keySpace k = 15) ∧ (Reg.rangeOk k w = true)) 9000000000 3 (regKey 1 15 0 0x418) 50 wHand) := by
  and_intros <;> decide +kernel

theorem test_witness_ChannelsDeliverAndRecover :
    ((fun (t c : Nat) (coarse : Bool) (x : DecimIn) (s : State) => (c < 16) ∧ (s.blk.sdmRuns c = true)) 5000000 1 false ⟨12345678, 0⟩ (wSdmS id)) ∧
    ((fun (t m : Nat) (s : State) => (s.blk.mayWrite m 10 0x414)) 5000000 0 (wSdmS id)) ∧
    ((fun (t a c : Nat) (s : State) => (s.blk.sdm.syncAt = some (a, c)) ∧ (a ≤ (s.at t).now) ∧ (s.blk.sdm.syncT ≠ some (s.at t).t7)) 5000000 1000 8 (wSdmS (fun b => { b with sdm := { b.sdm with syncAt := some (1000, 8) } }))) ∧
    ((fun (t c : Nat) (s : State) => (c < 16) ∧ (s.blk.sdmRuns c = true) ∧ ((s.blk.sdmCh c).fault = false)) 5 1 (wSdmS id)) ∧
    ((fun (t c : Nat) (s : State) => (c < 16) ∧ ((s.blk.sdmCh c).fault = true) ∧ ((s.blk.sdmCh c).resetAt ≠ some (s.at t).t7)) 5 1 (wSdmS (fun b => b.setSdmCh 1 { b.sdmCh 1 with fault := true }))) ∧
    ((fun (t m : Nat) (s : State) => (s.blk.mayWrite m 10 0x408) ∧ (4 ≤ m ∨ bit (s.blk.vis Reg.SYS_CFG).toNat 0 = false)) 0 0 (wCom 10)) ∧
    ((fun (t a k : Nat) (w : Word) (s : State) => (s.blk.sdm.handAt = some a) ∧ ((s.blk.ring 0).run = false) ∧ (a ≤ (s.at t).now / nsPerS) ∧ (s.blk.regs.com = [(k, w)]) ∧ ((s.at t).lateSet k = none) ∧ (s.blk.regs.wrote.1 ≠ (s.at t).t7) ∧ (keyBlk k = 10) ∧ (Reg.rangeOk k w = true) ∧ ((s.blk.adopt [(k, w)]).sdmSetsOk [(k, w)] = true)) 9000000000 3 (regKey 10 0 1 0x40) 0x80000001 (wSdmS (fun b => { b.setRing 0 Ring.reset with sdm := { b.sdm with handAt := some 3 }, regs := { b.regs with com := [(regKey 10 0 1 0x40, 0x80000001)] } }))) := by
  and_intros <;> decide +kernel

theorem test_witness_PointsMeasureAndSave :
    ((fun (t p slot c : Nat) (s : State) => (p < 4) ∧ (c = s.blk.cf Reg.SDM_PT_CFG p 12 0) ∧ (s.blk.cb Reg.SDM_CFG 0 31 = true) ∧ (s.blk.cb Reg.SDM_PT_CFG p 31 = true) ∧ (s.blk.ringRate 0 ≠ 0) ∧ (Tbl.get s.blk.sdm.ptLast p none ≠ some slot) ∧ (slot % max 1 (s.blk.cf Reg.STR_CTX_CTRL c 23 16) = 0) ∧ (s.blk.str.offers = []) ∧ (s.blk.aln.claims.length < 64) ∧ ((s.blk.ptChans p).all (fun d => match (s.blk.sdmCh d).fine with | q :: _ => decide (slotTime (s.blk.ringRate 0) slot + s.blk.ptHalf p < q.at_ + nsPerS / s.blk.sdmRate) | [] => false) = true)) 2050000000 2 100 1 (wSdmS (fun b => b.setSdmCh 1 { b.sdmCh 1 with fine := [wSam 2040000000] }))) ∧
    ((fun (t p τ : Nat) (s : State) => (p < 4) ∧ ((s.blk.nrgPt p).cross = some τ) ∧ (s.blk.nrgOn p = true)) 50000000 2 20000000 (wSdmS (fun b => b.setNrgPt 2 { NrgPt.reset with start := some 0, cross := some 20000000 }))) ∧
    ((fun (t p a e : Nat) (s : State) => (p < 4) ∧ (s.blk.nrgOn p = true) ∧ ((s.blk.nrgPt p).start = some a) ∧ ((s.blk.nrgPt p).fallback = false) ∧ ((s.blk.nrgPt p).cross = none) ∧ (e = a + s.blk.cf Reg.NRG_PT_CFG p 27 24 * nsPerS / s.blk.ptF0 p) ∧ (e + s.blk.sdmGd ≤ (s.at t).now)) 90000000 2 0 50000000 (wSdmS (fun b => (b.setSdmCh 1 { b.sdmCh 1 with fine := [wSam 90000000] }).setNrgPt 2 { NrgPt.reset with start := some 0 }))) ∧
    ((fun (t m : Nat) (s : State) => (s.blk.mayWrite m 11 0x410)) 50000000 0 (wSdmS id)) ∧
    ((fun (t m p : Nat) (s : State) => (s.blk.mayWrite m 11 0x80) ∧ (s.blk.selInst 11 m 0 = some p) ∧ (s.blk.sys.mode = .maintenance) ∧ ((s.blk.nrgPt p).clear = 0)) 50000000 0 2 (wSdmS (fun b => { b with sys := { b.sys with mode := .maintenance } }))) ∧
    ((fun (t m p i : Nat) (s : State) => (s.blk.mayRead m 11 (0x100 + 4 * i)) ∧ (i < 32) ∧ (s.blk.selInst 11 m 0 = some p)) 50000000 0 2 7 (wSdmS (fun b => b.setNrgPt 2 { NrgPt.reset with wrap := 0xFF, wrap2 := 0x80 }))) ∧
    ((fun (t n q : Nat) (bs : List Byte) (s : State) => (s.blk.nrg.saving = none) ∧ (s.blk.nrg.frozen = none) ∧ (s.blk.nrg.nextSave ≤ (s.at t).t7) ∧ (s.blk.sys.mode ≠ .load) ∧ (n = s.blk.saveSlot) ∧ (q = (s.blk.nrg.seq + 1) % 2 ^ 32) ∧ (bs = (s.at t).saveBytes q)) 50000000 0 1 ((wSdmS id).at 50000000 |>.saveBytes 1) (wSdmS id)) ∧
    ((fun (t n q : Nat) (bs : List Byte) (s : State) => (s.blk.nrg.saving = some (n, q, bs))) 5 1 9 [1, 2] (wSdmS (fun b => { b with nrg := { b.nrg with saving := some (1, 9, [1, 2]) } }))) ∧
    ((fun (t n q : Nat) (bs : List Byte) (s : State) => (s.blk.nrg.saving = some (n, q, bs))) 5 1 9 [1, 2] (wSdmS (fun b => { b with nrg := { b.nrg with saving := some (1, 9, [1, 2]) } }))) := by
  and_intros <;> decide +kernel

theorem test_witness_CapturesAreTakenAndReleased :
    ((fun (t m u pre : Nat) (s : State) => (s.blk.mayWrite m 12 0xA4) ∧ (s.blk.selInst 12 m 0 = some u) ∧ ((s.blk.capU u).st = 1) ∧ (pre = (match (s.blk.capU u).span with | some a => min (s.blk.capPre u) ((s.at t).now - a) | none => 0))) 5000 0 3 0 (wCap wUnit)) ∧
    ((fun (t m u : Nat) (k : Nat × Nat × List Nat) (r : List (Nat × Nat × List Nat)) (s : State) => (s.blk.mayWrite m 12 0xA4) ∧ (s.blk.selInst 12 m 0 = some u) ∧ ((s.blk.capU u).kept = k :: r)) 5000 0 3 (4, 5, []) [] (wCap { wUnit with kept := [(4, 5, [])] })) ∧
    ((fun (t n : Nat) (level : Bool) (s : State) => (n < 2)) 5000 1 true (wCap wUnit)) ∧
    ((fun (t u : Nat) (k : Capture) (s : State) => (u < 8) ∧ ((s.blk.capU u).cur = some k) ∧ ((s.at t).capSealDue u = true)) 50000000 3 wK (wCap { wUnit with st := 2, cur := some wK, newest := 40000000 })) ∧
    ((fun (t u : Nat) (s : State) => (u < 8) ∧ ((s.blk.capU u).st = 3) ∧ ((s.at t).capHoldOver u = true) ∧ (s.blk.capSpace u = true) ∧ (s.blk.comInst 12 0 u = false)) 50000000 3 (wCap { wUnit with st := 3, lastT := 1000 })) ∧
    ((fun (t line a o n u : Nat) (s : State) => (s.blk.cap.bus = [(line, a, o)]) ∧ (a + fld (s.blk.cfg Reg.CAP_BUS_D) 9 0 * 1000 ≤ (s.at t).now) ∧ (n < 2) ∧ (bit (bits (s.blk.cn Reg.CAP_TRG_CFG) (8 * n + 7) (8 * n)) 7 = true) ∧ (bits (s.blk.cn Reg.CAP_TRG_CFG) (8 * n + 7) (8 * n) % 8 = line) ∧ (u < 8) ∧ ((s.blk.capU u).st = 1) ∧ (o / 16 ≠ u + 1) ∧ (s.blk.capSlots u 5 (fun w => bits w 7 0 == line) ≠ [])) 50000000 2 1000 0 0 3 (wSdmS (fun b => { b.setCapU 3 wUnit with cap := { (b.setCapU 3 wUnit).cap with bus := [(2, 1000, 0)] } }))) ∧
    ((fun (t m : Nat) (s : State) => (s.blk.mayWrite m 12 0x408) ∧ (4 ≤ m ∨ bit (s.blk.vis Reg.SYS_CFG).toNat 0 = false)) 0 0 (wCom 12)) := by
  and_intros <;> decide +kernel

theorem test_witness_RadioUnitsKeepTheSlotframe :
    ((fun (t : Nat) (s : State) => (s.blk.radOn = true) ∧ (s.blk.rad.slot ≠ (s.at t).radAsn + 1) ∧ (s.blk.radEpoch ≤ (s.at t).tbNow 5) ∧ (Cap.records s.blk.sys.mode = true)) 5000000000 (wRadAt 3 id RadNode.reset)) ∧
    ((fun (t u n eui : Nat) (root : List Byte) (c : RadCell) (f : Machine.RadFrame) (m : MacFrame) (s : State) => (u < 4) ∧ ((s.at t).radCell u = some c) ∧ (s.blk.radOn = true) ∧ (c.type = 1 ∨ c.type = 3) ∧ (s.blk.radScans u = false) ∧ (f.chan = s.blk.radChannel c (s.blk.rad.slot - 1)) ∧ (s.blk.radInWindow c f.start = true) ∧ (((s.at t).radReceive u f).2 = some m) ∧ (m.head.kind = 1) ∧ (m.head.src = some (3, eui)) ∧ ((s.blk.listed Reg.RAD_NODE_CFG).find? (fun n => s.blk.radEui n == eui && s.blk.cb Reg.RAD_NODE_CFG n 31) = some n) ∧ ((c.type = 1 → n = c.node)) ∧ (s.blk.radRoot = some root)) 15000000 1 5 0x99 ((wRadAt 2 id RadNode.reset).blk.radRoot.getD []) ⟨1, 1, 0, 5⟩ (wNodeF 1) (wMac (wNodeF 1)) (wRadAt 2 id RadNode.reset)) ∧
    ((fun (t u : Nat) (c : RadCell) (s : State) => (u < 4) ∧ ((s.at t).radCell u = some c) ∧ (c.type = 1) ∧ (s.blk.rad.heard.contains u = false) ∧ (s.blk.rad.ended.contains u = false)) 15000000 1 ⟨1, 1, 0, 5⟩ (wRadAt 2 id { RadNode.reset with miss := 2, st := 1 })) ∧
    ((fun (t u post lv : Nat) (own : Bool) (root : List Byte) (ack : Machine.RadFrame) (m : MacFrame) (c : RadCell) (s : State) => (u < 4) ∧ ((s.at t).radCell u = some c) ∧ (c.type = 2) ∧ ((s.blk.radNode c.node).sent = some (post, own)) ∧ (ack.chan = s.blk.radChannel c (s.blk.rad.slot - 1)) ∧ (((s.at t).radReceive u ack).2 = some m) ∧ (m.head.kind = 2) ∧ (s.blk.radRoot = some root) ∧ (lv = s.blk.radLevel c.node)) 25000000 1 4 6 true ((wRadAt 2 id RadNode.reset).blk.radRoot.getD []) (wNodeF 2) (wMac (wNodeF 2)) ⟨2, 1, 0, 5⟩ (wRadAt 3 id { RadNode.reset with sent := some (4, true), post := 4, dl := some [1] })) ∧
    ((fun (t u : Nat) (c : RadCell) (s : State) => (u < 4) ∧ ((s.at t).radCell u = some c) ∧ (c.type = 2) ∧ ((s.blk.radNode c.node).sent.isSome = true)) 25000000 1 ⟨2, 1, 0, 5⟩ (wRadAt 3 id { RadNode.reset with sent := some (4, true), post := 4, dl := some [1], tries := 8 })) ∧
    ((fun (t : Nat) (eb aborted : Bool) (x off : Int) (f : Machine.RadFrame) (m : MacFrame) (heard : Option (Nat × Nat)) (s : State) => (s.blk.radOn = true) ∧ (s.blk.radChild = true) ∧ ((s.at t).parentChannel = some f.chan) ∧ ((s.blk.rad.scanning = true ∨ s.blk.rad.await = some eb ∧ x.natAbs ≤ (min 4000 (s.blk.radGuard + 1000 * s.blk.rad.widened)) * 500)) ∧ (((s.at t).radReceive s.blk.radTp f).2 = some m) ∧ (eb = decide (m.head.kind = 0)) ∧ ((eb = true ∨ aborted = false)) ∧ ((s.at t).parentReading x f m = some (off, heard))) 45000000 true false 90 90 wBeacon (wMac wBeacon) (some (3, 0x55)) (wRadAt 5 (fun r => { r with scan := some 0, missEb := 2, lost := some 0, widened := 1 }) RadNode.reset)) ∧
    ((fun (t a : Nat) (s : State) => (s.blk.rad.lost = some a) ∧ (s.blk.rad.widened < 2) ∧ (s.blk.rad.scanning = false) ∧ (a + s.blk.rad.widened + 1 ≤ (s.at t).radAsn / s.blk.radL)) 5000000000 0 (wRadAt 3 (fun r => { r with lost := some 0 }) RadNode.reset)) ∧
    ((fun (t a : Nat) (s : State) => (s.blk.rad.lost = some a) ∧ (s.blk.rad.scanning = false) ∧ (a + 6 ≤ (s.at t).radAsn / s.blk.radL)) 9000000000 0 (wRadAt 3 (fun r => { r with lost := some 0 }) RadNode.reset)) ∧
    ((fun (t m n a : Nat) (s : State) => (s.blk.mayWrite m 13 0x60) ∧ (s.blk.sys.variantW = false) ∧ (s.blk.selInst 13 m 1 = some n) ∧ ((s.blk.radNode n).dl = none) ∧ ((s.blk.radNode n).resync = false) ∧ (a = s.blk.addrOf Reg.RAD_DL_BASE_LO Reg.RAD_DL_BASE_HI + n * 128)) 5 0 5 (0x80000000 + 5 * 128) (wRadAt 3 id RadNode.reset)) ∧
    ((fun (t m value i : Nat) (s : State) => (s.blk.mayWrite m 13 0x438) ∧ (s.blk.sys.variantW = false) ∧ (i = 32 * fld (s.blk.vis Reg.RAD_PEND_IDX m) 4 0)) 5 0 3 64 (wRadAt 3 id RadNode.reset)) ∧
    ((fun (t m value i : Nat) (s : State) => (s.blk.mayWrite m 13 0x43C) ∧ (s.blk.sys.variantW = false) ∧ (i = 32 * fld (s.blk.vis Reg.RAD_PEND_IDX m) 4 0)) 5 0 3 64 (wRadAt 3 id RadNode.reset)) ∧
    ((fun (t m : Nat) (s : State) => (s.blk.mayWrite m 13 0x60) ∧ (s.blk.sys.variantW = true)) 5 0 (let s := wRadAt 3 id RadNode.reset; { s with blk := { s.blk with sys := { s.blk.sys with variantW := true } } })) := by
  and_intros <;> decide +kernel

theorem test_witness_MemoriesTrackTheirErrors :
    ((fun (t m u : Nat) (s : State) => (m < 10)) 0 1 3 (wMem id)) ∧
    ((fun (t m : Nat) (p : ErrPlace) (s : State) => (m < 10) ∧ (m ≠ 8) ∧ (s.blk.mem.poison.contains (m, p.unit) = false)) 0 1 ⟨27, none⟩ (wMem id)) ∧
    ((fun (t m : Nat) (p : ErrPlace) (s : State) => (m < 10) ∧ (m ≠ 8) ∧ (s.blk.mem.poison.contains (m, p.unit) = true)) 0 1 ⟨27, none⟩ (wMem (fun b => b.addPoison (1, 27)))) ∧
    ((fun (t m u : Nat) (r : List Nat) (s : State) => (m < 10) ∧ ((s.blk.munit m).writebacks = u :: r)) 0 1 3 [4] (wMem (fun b => b.setMunit 1 { b.munit 1 with writebacks := [3, 4] }))) ∧
    ((fun (t m : Nat) (s : State) => (m < 10) ∧ (s.blk.cb Reg.MEM_SCRUB_CFG m 31 = false)) 0 1 (wMem id)) ∧
    ((fun (t m : Nat) (s : State) => (m < 10) ∧ ((s.blk.munit m).forced = false) ∧ (s.blk.lapLimit m < (s.at t).t7 - (s.blk.munit m).lapStart)) 20000000000 1 (wMem id)) ∧
    ((fun (t m n u p : Nat) (s : State) => (s.blk.mayWrite m 14 0x418) ∧ (n = s.blk.memSel m) ∧ (n < 10) ∧ (u = (s.blk.vis Reg.MEM_REMAP_ADDR).toNat) ∧ (u < Mem.size n) ∧ (s.blk.freeSpare n (Mem.array n u) = some p)) 0 0 1 3 0 (wMem id)) ∧
    ((fun (t m : Nat) (s : State) => (s.blk.mayWrite m 14 0x418) ∧ (s.blk.sys.mode = .maintenance)) 0 0 (wMem id)) := by
  and_intros <;> decide +kernel

theorem test_witness_DiagnosticWindowReadsAndWritesRaw :
    ((fun (t m n u : Nat) (s : State) => (s.blk.mayWrite m 14 0x104) ∧ (s.blk.diagOpen = true) ∧ (n = s.blk.memSel m) ∧ (n < 10) ∧ (u = (s.blk.vis Reg.MEM_DIAG_ADDR m).toNat) ∧ (u < Mem.size n)) 0 0 1 3 (wMem id)) ∧
    ((fun (t m n u : Nat) (r : Nat × Nat) (s : State) => (s.blk.mayWrite m 14 0x104) ∧ (s.blk.diagOpen = true) ∧ (n = s.blk.memSel m) ∧ (n < 10) ∧ (u = (s.blk.vis Reg.MEM_DIAG_ADDR m).toNat) ∧ (u < Mem.size n) ∧ (r = s.blk.diagBuf m n)) 0 0 1 3 wDiag (wMem id)) ∧
    ((fun (t m n u : Nat) (r : Nat × Nat) (s : State) => (s.blk.mayWrite m 14 0x104) ∧ (s.blk.diagOpen = true) ∧ (n = s.blk.memSel m) ∧ (n < 10) ∧ (u = (s.blk.vis Reg.MEM_DIAG_ADDR m).toNat) ∧ (u < Mem.size n) ∧ (r = ((s.blk.diagBuf m n).1, ((s.at t).rawOf n u).1.2)) ∧ (r.2 < 2 ^ (if n = 9 then 128 else 40))) 0 0 1 3 (wDiag.1, 9) wRaw) ∧
    ((fun (t m n u : Nat) (r : Nat × Nat) (s : State) => (s.blk.mayWrite m 14 0x104) ∧ (s.blk.diagOpen = true) ∧ (n = s.blk.memSel m) ∧ (n < 10) ∧ (u = (s.blk.vis Reg.MEM_DIAG_ADDR m).toNat) ∧ (u < Mem.size n) ∧ (r = (((s.at t).rawOf n u).1.1, (s.blk.diagBuf m n).2)) ∧ (r.1 < 2 ^ (8 * Mem.unitBytes n))) 0 0 1 3 (7, wDiag.2) wRaw) ∧
    ((fun (t m : Nat) (s : State) => (s.blk.mayWrite m 14 0x104) ∧ (s.blk.diagOpen = false)) 0 0 (wS wOpen)) ∧
    ((fun (t m : Nat) (s : State) => (s.blk.mayWrite m 14 0x104) ∧ (s.blk.diagOpen = false)) 0 0 (wS wOpen)) ∧
    ((fun (t m : Nat) (s : State) => (s.blk.mayWrite m 14 0x104) ∧ (s.blk.diagOpen = false)) 0 0 (wS wOpen)) ∧
    ((fun (t m : Nat) (s : State) => (s.blk.mayWrite m 14 0x104) ∧ (s.blk.diagOpen = false)) 0 0 (wS wOpen)) := by
  and_intros <;> decide +kernel

theorem test_witness_ChannelsRunTheirTransfers :
    ((fun (t m c : Nat) (s : State) => (s.blk.mayWrite m 15 0x6C) ∧ (c = s.blk.dmaSel m) ∧ (Dma.owned c = false) ∧ ((s.blk.dmaCh c).st = .idle ∨ (s.blk.dmaCh c).st = .running)) 0 0 12 (wDma .running)) ∧
    ((fun (t m c : Nat) (s : State) => (s.blk.mayWrite m 15 0x6C) ∧ (c = s.blk.dmaSel m) ∧ (Dma.owned c = false)) 0 0 12 (wDma .idle)) ∧
    ((fun (t m c : Nat) (s : State) => (s.blk.mayWrite m 15 0x6C) ∧ (c = s.blk.dmaSel m) ∧ (Dma.owned c = false) ∧ ((s.blk.dmaCh c).st = .halted)) 0 0 12 (wDma .halted)) ∧
    ((fun (t m c : Nat) (s : State) => (s.blk.mayWrite m 15 0x6C) ∧ (c = s.blk.dmaSel m) ∧ (Dma.owned c = true)) 0 0 5 (wMem (fun b => b.setVis Reg.DMA_SEL 0 0 5))) ∧
    ((fun (t m c : Nat) (s : State) => (s.blk.mayWrite m 15 0x6C) ∧ (c = s.blk.dmaSel m) ∧ (Dma.owned c = true)) 0 0 5 (wMem (fun b => b.setVis Reg.DMA_SEL 0 0 5))) ∧
    ((fun (t e c : Nat) (s : State) => (e < 2) ∧ (s.blk.dma.frozen.contains e = false) ∧ (s.blk.dmaRunning e = none) ∧ (s.blk.dmaNext e = some c)) 0 0 12 (wDma .pending)) ∧
    ((fun (t e c : Nat) (s : State) => (e < 2) ∧ (s.blk.dmaRunning e = some c) ∧ (((s.at t).dmaMove c none).stop = none)) 0 0 12 (wMem (fun b => (b.setDmaCh 12 { b.dmaCh 12 with st := .running }).setRunning 0 (some 12)))) ∧
    ((fun (t m : Nat) (s : State) => (s.blk.mayWrite m 14 0x408) ∧ (4 ≤ m ∨ bit (s.blk.vis Reg.SYS_CFG).toNat 0 = false)) 0 0 (wMem id)) := by
  and_intros <;> decide +kernel

theorem test_witness_GroupsArchiveTheirBasins :
    ((fun (t g r seq p : Nat) (q : List (Nat × Nat × Bool)) (x : Basin) (s : State) => (g < 16) ∧ ((s.blk.grp g).queue = (r, seq, false) :: q) ∧ ((s.blk.grp g).st = 0) ∧ (s.blk.lanesUsed < 4) ∧ ((s.blk.ring r).seqPos seq = some (p, x)) ∧ (((s.at t).cmpHandover g).grpEn g = true) ∧ (((s.at t).cmpHandover g).grpRingOf g = r) ∧ (((s.at t).cmpHandover g).grpEnc g = false)) 2000000000 2 0 5 5 [] { wBasin .outputClosed with seq := 5, slot := 5, t0 := 100000000 } (wArch { CmpGroup.reset with queue := [(0, 5, false)] })) ∧
    ((fun (t g : Nat) (f : CmpFrame) (s : State) => (g < 16) ∧ ((s.blk.grp g).frame = some f) ∧ ((s.blk.grp g).st = 1) ∧ (f.gap = false) ∧ (s.blk.grpEnc g = false)) 5 2 ⟨0, 5, true, 0, [1, 2, 3, 4, 5], 4, false⟩ (wArch { CmpGroup.reset with st := 1, frame := some ⟨0, 5, true, 0, [1, 2, 3, 4, 5], 4, false⟩ })) ∧
    ((fun (t m value : Nat) (s : State) => (s.blk.mayWrite m 17 0x434)) 5 0 4 (wArch { CmpGroup.reset with st := 2 })) := by
  and_intros <;> decide +kernel

theorem test_witness_CompressionJobsRun :
    ((fun (t m : Nat) (d : List Byte) (s : State) => (s.blk.mayWrite m 17 0x448) ∧ (d = s.blk.loadSafe (s.blk.addrOf Reg.CMP_JOB_ADDR_LO Reg.CMP_JOB_ADDR_HI m) 64) ∧ (jobOk d = true) ∧ ((s.blk.cctx (jobCtx d)).inUse = false)) 5 0 wJobD (wJobs [] [])) ∧
    ((fun (t : Nat) (d : List Byte) (r : List (List Byte)) (s : State) => (s.blk.cmp.jobs = d :: r) ∧ (s.blk.lanesUsed + ((List.range 16).filter (fun g => (s.blk.grp g).st == 0 && !(s.blk.grp g).queue.isEmpty)).length < 4)) 5 wJobD [[2]] (wJobs [wJobD, [2]] [[3]])) ∧
    ((fun (t q : Nat) (d : List Byte) (r : List (List Byte)) (s : State) => (s.blk.cmp.running = d :: r) ∧ (q = fld (s.blk.vis Reg.CMP_NOTIFY_QUEUE) 5 0)) 5 32 wJobD [[2]] (wJobs [] [wJobD, [2]])) ∧
    ((fun (t m c : Nat) (s : State) => (s.blk.mayWrite m 17 0x4C) ∧ (s.blk.selInst 17 m 1 = some c) ∧ ((s.blk.cctx c).inUse = false)) 5 0 18 (wJobs [] [])) := by
  and_intros <;> decide +kernel

theorem test_witness_TheCascadeKeepsItsMembers :
    ((fun (t l m : Nat) (k : KeySlot) (f : List Byte) (s : State) => (l < 2) ∧ (s.blk.casKey = some k) ∧ (s.blk.casOn = true) ∧ (s.blk.cas.up.contains l = true) ∧ (40 ≤ f.length) ∧ (m = (f.getD 1 0).toNat % 8) ∧ (m ≠ s.blk.casMember)) 9 0 1 { KeySlot.empty with valid := true, attr := 0xFFFF, key := 77 } wCasF (wCas 0 id)) ∧
    ((fun (t l : Nat) (s : State) => (l < 2) ∧ (s.blk.cas.up.contains l = true)) 9 0 (wCas 1 id)) ∧
    ((fun (t l m count rate : Nat) (s : State) => (l < 2) ∧ (m < 8) ∧ (s.blk.casOn = true) ∧ (s.blk.cas.up.contains l = false) ∧ (s.blk.casKey.isSome = true) ∧ (count = s.blk.casCount) ∧ (m = (if l = 0 then (s.blk.casMember + 1) % count else (s.blk.casMember + count - 1) % count)) ∧ (rate = s.blk.ringRate 0)) 9 1 0 3 50 (wCas 1 id)) ∧
    ((fun (t : Nat) (k : KeySlot) (s : State) => (s.blk.casMaster = true) ∧ (s.blk.casKey = some k)) 9 { KeySlot.empty with valid := true, attr := 0xFFFF, key := 77 } (wCas 0 id)) ∧
    ((fun (t l d : Nat) (s : State) => (l < 2) ∧ (s.blk.cas.up.contains l = true)) 9 0 700 (wCas 1 id)) ∧
    ((fun (t m a : Nat) (s : State) => (m < 8) ∧ (s.blk.casMaster = true) ∧ ((s.blk.mbr m).st = 1) ∧ ((s.blk.mbr m).heard = some a) ∧ (a + 1000000 ≤ (s.at t).t7)) 1000005 1 5 (wCas 0 id)) ∧
    ((fun (t a : Nat) (s : State) => (s.blk.cas.badSince = some a) ∧ (a + nsPerS ≤ (s.at t).t7) ∧ (s.blk.cas.timeOk = true)) 1000000005 5 (wCas 1 (fun c => { c with badSince := some 5, timeOk := true }))) := by
  and_intros <;> decide +kernel

theorem test_witness_HeartbeatsKeepTheLease :
    ((fun (t : Nat) (s : State) => (s.blk.redActive = true) ∧ (s.blk.redHealthy = true)) 9 (wRed .active (fun r => { r with role := 1 }))) ∧
    ((fun (t p : Nat) (x : Machine.RedMsg) (s : State) => (p < 2) ∧ (s.blk.redOn = true) ∧ (s.blk.redAble p = true) ∧ (later 32 s.blk.red.epoch x.epoch = false) ∧ (s.blk.redActive = false)) 9 1 (wMsg 1) (wRed .standby (fun r => { r with role := 3 }))) ∧
    ((fun (t p a : Nat) (x : Machine.RedMsg) (s : State) => (p < 2) ∧ (s.blk.redOn = true) ∧ (s.blk.redAble p = true) ∧ (later 32 s.blk.red.epoch x.epoch = false) ∧ (s.blk.redActive = true) ∧ (s.blk.sys.mode ≠ .degraded) ∧ (s.blk.red.sends.find? (fun e => e.1 == x.seq) = some (x.seq, a)) ∧ ((s.at t).t7 ≤ a + 300000)) 90000 1 1000 (wMsg 2) (wRed .active (fun r => { r with role := 1, sends := [(8, 1000)], solo := true }))) ∧
    ((fun (t p : Nat) (x : Machine.RedMsg) (s : State) => (p < 2) ∧ (s.blk.redOn = true) ∧ (s.blk.redAble p = true) ∧ (later 32 s.blk.red.epoch x.epoch = false) ∧ (s.blk.red.role = 3) ∧ (s.blk.redPreferred = false)) 9 1 (wMsg 0) (wRed .standby (fun r => { r with role := 3 }))) ∧
    ((fun (t p : Nat) (x : Machine.RedMsg) (s : State) => (p < 2) ∧ (s.blk.redOn = true) ∧ (s.blk.redAble p = true) ∧ (later 32 s.blk.red.epoch x.epoch = false) ∧ (s.blk.redActive = true) ∧ (later 32 x.epoch s.blk.red.epoch = true)) 9 1 ⟨2, false, true, false, 8, 5, 0⟩ (wRed .active (fun r => { r with role := 1 }))) ∧
    ((fun (t p : Nat) (s : State) => (p < 2) ∧ ((s.blk.redPath p).up = true) ∧ ((s.at t).pathLost p = true)) 900000 1 (wRed .standby (fun r => { r with role := 2, paths := [(1, wPath)] }))) ∧
    ((fun (t a : Nat) (s : State) => (s.blk.red.leaseEnd = some a) ∧ (s.blk.redActive = true) ∧ (a ≤ (s.at t).t7)) 900000 5 (wRed .active (fun r => { r with role := 1, leaseEnd := some 5 }))) := by
  and_intros <;> decide +kernel

theorem test_witness_PartnersTakeOverAndHandOver :
    ((fun (t p : Nat) (x : Machine.RedMsg) (s : State) => (p < 2) ∧ (s.blk.redOn = true) ∧ (s.blk.redAble p = true) ∧ (later 32 s.blk.red.epoch x.epoch = false) ∧ (s.blk.redActive = false) ∧ (s.blk.red.role = 2 ∨ s.blk.red.role = 5) ∧ (s.blk.sys.mode = .standby) ∧ (x.role = 1)) 9 1 (wMsg 1) (wRed .standby (fun r => { r with role := 2 }))) ∧
    ((fun (t : Nat) (l : List Nat) (s : State) => (l = (s.blk.redPath 0).renewAt.toList ++ (s.blk.redPath 1).renewAt.toList) ∧ (l ≠ []) ∧ (∀ a ∈ l, a + 450000 ≤ (s.at t).t7) ∧ (s.blk.red.role = 2 ∨ s.blk.red.role = 5) ∧ (s.blk.sys.mode = .standby)) 900000 [1000] (wRed .standby (fun r => { r with role := 2, paths := [(1, wPath)] }))) ∧
    ((fun (t p : Nat) (x : Machine.RedMsg) (l : List (Nat × Nat)) (s : State) => (p < 2) ∧ (s.blk.redOn = true) ∧ (s.blk.redAble p = true) ∧ (later 32 s.blk.red.epoch x.epoch = false) ∧ (s.blk.red.role = 2 ∨ s.blk.red.role = 5) ∧ (s.blk.sys.mode = .standby) ∧ (x.role = 1)) 9 1 (wMsg 1) [(0, 5)] (wRed .standby (fun r => { r with role := 5 }))) ∧
    ((fun (t : Nat) (f : Machine.CkptFrame) (s : State) => (s.blk.redOn = true) ∧ (s.blk.redAble 0 = true) ∧ (s.blk.redActive = false) ∧ (f.good = true) ∧ (f.compat = s.blk.sys.pairCompat) ∧ (later 32 s.blk.red.epoch f.epoch = false) ∧ (s.blk.red.ckTag = some f.basin)) 9 ⟨4, Block.reset.sys.pairCompat, 6, 0, 9, true, true, [.ring 0 5 6]⟩ (let s := wRed .standby (fun r => { r with role := 2, ckTag := some 6, ckWhole := true }); { s with blk := ({ s.blk with key := { s.blk.key with slots := [(0, { KeySlot.empty with valid := true, attr := 0xFFFF, key := 77 })] } }).setPort 28 { PrtPort.reset with up := true } })) ∧
    ((fun (t : Nat) (s : State) => (s.blk.red.role = 4) ∧ (s.blk.sys.mode = .takeover) ∧ (s.blk.red.tkAt.isSome = true) ∧ (s.blk.degradeCause = 0)) 9 (wRed .takeover (fun r => { r with role := 4, tkAt := some 1 }))) ∧
    ((fun (t a : Nat) (s : State) => (s.blk.red.listenEnd = some a) ∧ (s.blk.red.role = 0) ∧ (s.blk.sys.mode = .standby) ∧ (a ≤ (s.at t).t7) ∧ (s.blk.degradeCause = 0)) 9 5 (wRed .standby (fun r => { r with listenEnd := some 5 }))) ∧
    ((fun (t m : Nat) (s : State) => (s.blk.mayWrite m 19 0x41C)) 9 0 (wRed .standby id)) ∧
    ((fun (t a : Nat) (s : State) => (s.blk.red.holdSince = some a) ∧ ((s.at t).failbackOk = true) ∧ (a + s.blk.cf Reg.RED_CFG 0 11 0 * nsPerS ≤ (s.at t).t7)) 2000000000 5 (let s := wRed .active (fun r => { r with role := 1, pRole := 2, pImage := true, pHealthy := true, byTakeover := true, holdSince := some 5, paths := [(0, wPath), (1, wPath)] }); { s with blk := (({ s.blk with key := { s.blk.key with slots := [(0, { KeySlot.empty with valid := true, attr := 0xFFFF, key := 77 })] } }).setPort 28 { PrtPort.reset with up := true } |>.setRing 0 { Ring.reset with run := true }).setBoth Reg.RED_CFG 0 0 0xA0000001 })) ∧
    ((fun (t epoch slot seq : Nat) (s : State) => (s.blk.redOn = true) ∧ (s.blk.redAble 0 = true) ∧ (s.blk.red.role = 2) ∧ (later 32 s.blk.red.epoch epoch = false) ∧ (s.blk.sys.mode = .standby)) 9 4 100 3 (let s := wRed .standby (fun r => { r with role := 2 }); { s with blk := ({ s.blk with key := { s.blk.key with slots := [(0, { KeySlot.empty with valid := true, attr := 0xFFFF, key := 77 })] } }).setPort 28 { PrtPort.reset with up := true } })) ∧
    ((fun (t a : Nat) (s : State) => (s.blk.red.stopAt = some a) ∧ (s.blk.red.role = 6) ∧ (a ≤ (s.at t).now)) 9 5 (wRed .standby (fun r => { r with role := 6, stopAt := some 5 }))) := by
  and_intros <;> decide +kernel

theorem test_witness_KeyUpdatesAreCheckedAndInstalled :
    ((fun (t m : Nat) (x : KeyMsg) (s : State) => (s.blk.mayWrite m 20 0x428) ∧ (s.blk.keyOp m = 1) ∧ (s.blk.key.waiting = none) ∧ (x = ⟨s.blk.loadSafe (s.blk.addrOf Reg.KEY_UPD_ADDR_LO Reg.KEY_UPD_ADDR_HI m) 164⟩)) 5 0 ⟨wMsgB 1⟩ (wKey 1)) ∧
    ((fun (t m : Nat) (x : KeyMsg) (s : State) => (s.blk.mayWrite m 20 0x428) ∧ (s.blk.keyOp m = 2) ∧ (s.blk.key.waiting = none) ∧ (x = ⟨s.blk.loadSafe (s.blk.addrOf Reg.KEY_UPD_ADDR_LO Reg.KEY_UPD_ADDR_HI m) 164⟩)) 5 0 ⟨wMsgB 2⟩ (wKey 2)) ∧
    ((fun (t m : Nat) (x : KeyMsg) (s : State) => (s.blk.mayWrite m 20 0x428) ∧ (s.blk.keyOp m = 3) ∧ (s.blk.key.waiting = none) ∧ (x = ⟨s.blk.loadSafe (s.blk.addrOf Reg.KEY_UPD_ADDR_LO Reg.KEY_UPD_ADDR_HI m) 164⟩)) 5 0 ⟨wMsgB 3⟩ (wKey 3)) ∧
    ((fun (t m : Nat) (x : KeyMsg) (s : State) => (s.blk.mayWrite m 20 0x428) ∧ (s.blk.keyOp m = 4) ∧ (s.blk.key.waiting = none) ∧ (x = ⟨s.blk.loadSafe (s.blk.addrOf Reg.KEY_UPD_ADDR_LO Reg.KEY_UPD_ADDR_HI m) 164⟩)) 5 0 ⟨wMsgB 4⟩ (wKey 4)) ∧
    ((fun (t m : Nat) (x : KeyMsg) (s : State) => (s.blk.mayWrite m 20 0x428) ∧ (s.blk.keyOp m = 5) ∧ (s.blk.key.waiting = none) ∧ (x = ⟨s.blk.loadSafe (s.blk.addrOf Reg.KEY_UPD_ADDR_LO Reg.KEY_UPD_ADDR_HI m) 164⟩)) 5 0 ⟨wMsgB 5⟩ (wKey 5)) ∧
    ((fun (t : Nat) (c : KeyChange) (s : State) => (s.blk.key.waiting = some c) ∧ (s.blk.key.zeroisedWaiting = false)) 5 ⟨1, 7, true, 3, 9, 77⟩ (wGuard (fun b => { b with key := { b.key with waiting := some ⟨1, 7, true, 3, 9, 77⟩ } }))) ∧
    ((fun (t : Nat) (c : KeyChange) (s : State) => (s.blk.key.waiting = some c) ∧ (s.blk.key.zeroisedWaiting = true)) 5 ⟨1, 7, true, 3, 9, 77⟩ (wGuard (fun b => { b with key := { b.key with waiting := some ⟨1, 7, true, 3, 9, 77⟩, zeroisedWaiting := true } }))) := by
  and_intros <;> decide +kernel

theorem test_witness_TamperZeroisesAndAccFreezes :
    ((fun (t : Nat) (now : TamSight) (elapsed : Option Nat) (s : State) => ((List.range 8).any (fun i => s.blk.tamAsserts now elapsed.isNone i && !s.blk.tam.asserted.contains i) = true)) 5 ⟨[], [6]⟩ none (wGuard (fun b => { b with key := { b.key with slots := [(3, ⟨true, true, 1, 1, 1, 9⟩)] } }))) ∧
    ((fun (t m addr size : Nat) (w : Bool) (s : State) => (m < 55) ∧ (Wf.width size = true) ∧ (s.blk.masterReady m = true) ∧ (s.blk.accOk m addr size w = false)) 5 2 0x40000000 4 true (wS (wSet Block.reset []))) ∧
    ((fun (t m x : Nat) (s : State) => (s.blk.mayWrite m 24 0x48) ∧ (s.blk.selInst 24 m 1 = some x)) 5 0 9 (let b := wSet wOpen [(Reg.ACC_SEL, 0, 0, 0x40000009)]; wS { b with acc := { b.acc with frozen := [3, 9] } })) := by
  and_intros <;> decide +kernel

theorem test_witness_TheRecorderKeepsItsEvents :
    ((fun (t : Nat) (e : Event) (v : Evr) (s : State) => (s.blk.evr.ready = true) ∧ (s.blk.evr.frozenAt = none) ∧ (s.blk.evr.nextEntry = some (e, v)) ∧ (e.code ≠ 0x1705) ∧ (s.blk.evr.lastHead < 4096)) 5 (wEv 1) { Block.reset.evr with ready := true } (wGuard (fun b => { b with evr := { b.evr with ready := true, buf := [wEv 1] } }))) ∧
    ((fun (t m : Nat) (s : State) => (s.blk.mayWrite m 22 0x410)) 5 0 (wGuard id)) ∧
    ((fun (t m : Nat) (s : State) => (s.blk.mayWrite m 22 0x410)) 5 0 (wGuard (fun b => { b with evr := { b.evr with frozenAt := some 2, held := [wEv 1] } }))) ∧
    ((fun (t f : Nat) (s : State) => (s.blk.evr.frozenAt = some f) ∧ (f + nsPerS ≤ (s.at t).t7)) 1000000005 2 (wGuard (fun b => { b with evr := { b.evr with frozenAt := some 2 } }))) ∧
    ((fun (t m : Nat) (last : Bool) (s : State) => (s.blk.mayWrite m 22 0x410)) 5 0 true (wGuard (fun b => { b with evr := { b.evr with unlockAt := some 2 } }))) ∧
    ((fun (t m value : Nat) (s : State) => (s.blk.mayWrite m 22 0x414)) 5 0 0xC1EA5A5A (wGuard id)) ∧
    ((fun (t m : Nat) (s : State) => (s.blk.mayWrite m 22 0x408) ∧ (4 ≤ m ∨ bit (s.blk.vis Reg.SYS_CFG).toNat 0 = false) ∧ (∀ e ∈ s.blk.regs.com, keyBlk e.1 ≠ 22) ∧ (∀ k ∈ s.blk.regs.dirty, keyBlk k = 22 → Reg.rangeOk k (s.blk.visAt k) = true)) 5 0 (wGuard id)) := by
  and_intros <;> decide +kernel

theorem test_witness_ModeRequestsAreMetOrRefused :
    ((fun (t : Nat) (force : Bool) (s : State) => (s.blk.mayWrite 0 0 0x414) ∧ (s.blk.sys.mode = .standby ∨ ((s.blk.sys.mode = .active ∨ s.blk.sys.mode = .holdover ∨ s.blk.sys.mode = .degraded) ∧ ((s.at t).redActive && (s.at t).redPresent) = false))) 5 false (wMode .active id)) ∧
    ((fun (t : Nat) (s : State) => (s.blk.mayWrite 0 0 0x414) ∧ (s.blk.sys.mode = .maintenance) ∧ (s.blk.redOn = false ∨ s.blk.degradeCause = 0)) 5 (wMode .maintenance id)) ∧
    ((fun (t : Nat) (s : State) => (s.blk.mayWrite 0 0 0x414) ∧ (s.blk.sys.mode = .maintenance) ∧ (s.blk.key.debugOpen = true)) 5 (wMode .maintenance (fun b => { b with key := { b.key with debugOpen := true } }))) ∧
    ((fun (t : Nat) (s : State) => (s.blk.mayWrite 0 0 0x414) ∧ (s.blk.sys.mode = .maintenance)) 5 (wMode .maintenance id)) ∧
    ((fun (t m code : Nat) (s : State) => (s.blk.mayWrite m 0 0x414) ∧ (m ≠ 0 ∨ [3, 8, 9, 11].contains (code % 16) = false)) 5 0 7 (wMode .maintenance id)) ∧
    ((fun (t m : Nat) (s : State) => (s.blk.mayWrite m 0 0x414) ∧ (m ≠ 0 ∨ s.blk.sys.mode ≠ .maintenance)) 5 1 (wMode .maintenance id)) ∧
    ((fun (t m : Nat) (s : State) => (s.blk.mayWrite m 0 0x414) ∧ (m ≠ 0 ∨ s.blk.sys.mode ≠ .maintenance ∨ s.blk.key.debugOpen = false)) 5 0 (wMode .maintenance id)) ∧
    ((fun (t m : Nat) (s : State) => (s.blk.mayWrite m 0 0x414) ∧ (m ≠ 0 ∨ s.blk.sys.mode ≠ .maintenance)) 5 0 (wMode .active id)) := by
  and_intros <;> decide +kernel

theorem test_witness_LoadSelftestAndResets :
    ((fun (t : Nat) (s : State) => (s.blk.sys.mode = .load) ∧ (s.blk.sys.imageApplied = true)) 5 (wMode .load id)) ∧
    ((fun (t : Nat) (r : Machine.SelftestResult) (s : State) => (s.blk.sys.mode = .selftest)) 5 wSelf (wMode .selftest id)) ∧
    ((fun (t : Nat) (s : State) => (s.blk.sys.mode = .halt) ∧ ((s.at t).haltOver = true)) 60000000005 (wMode .halt (fun b => { b with sys := { b.sys with haltCause := 1 } }))) ∧
    ((fun (t : Nat) (s : State) => (s.blk.mayWrite 0 0 0x458) ∧ (s.blk.sys.mode = .maintenance ∨ s.blk.sys.mode = .debug)) 5 (wMode .debug id)) ∧
    ((fun (t m : Nat) (s : State) => (s.blk.mayWrite m 0 0x458) ∧ (m ≠ 0 ∨ (s.blk.sys.mode ≠ .maintenance ∧ s.blk.sys.mode ≠ .debug))) 5 0 (wMode .active id)) ∧
    ((fun (t m : Nat) (s : State) => (s.blk.mayWrite m 0 0x448) ∧ (s.blk.sys.mode = .maintenance)) 5 0 (wMode .maintenance id)) ∧
    ((fun (t m : Nat) (s : State) => (s.blk.mayWrite m 0 0x448) ∧ (s.blk.sys.mode = .maintenance)) 5 0 (wMode .maintenance id)) ∧
    ((fun (t : Nat) (s : State) => (s.blk.mayWrite 0 0 0x458)) 5 (wMode .active id)) ∧
    ((fun (t e : Nat) (s : State) => (s.blk.wdogEnd = some e) ∧ (e ≤ (s.at t).t7)) 10000000000 2000000002 (wMode .active (fun b => { b.setBoth Reg.SYS_WDOG_CFG 0 0 2000 with sys := { b.sys with wdogAt := some 2 } }))) ∧
    ((fun (t : Nat) (s : State) => (s.blk.sys.mode = .save)) 5 (wMode .save id)) := by
  and_intros <;> decide +kernel

theorem test_witness_ImagesAreConfirmedAndTuned :
    ((fun (t a : Nat) (s : State) => (s.blk.sys.goodSince = some a) ∧ (s.blk.sys.trial = true) ∧ (a + 60 * nsPerS ≤ (s.at t).t7)) 60000000005 5 (wMode .active (fun b => { b with sys := { b.sys with goodSince := some 5, trial := true } }))) ∧
    ((fun (t m addr r : Nat) (h : List Byte) (es : List TuneEntry) (s : State) => (s.blk.mayWrite m 0 0x430) ∧ (addr = s.blk.addrOf Reg.SYS_TUNE_ADDR_LO Reg.SYS_TUNE_ADDR_HI m) ∧ (h = s.blk.loadSafe addr 128) ∧ (es = (List.range (min 4096 (leAt h 6 2))).map (fun i => TuneEntry.ofBytes (s.blk.loadSafe (addr + 128 + 16 * i) 16))) ∧ (r = s.blk.tuneCheck m addr h es)) 5 0 0x80000000 2 (List.replicate 128 0) [] wTune) := by
  and_intros <;> decide +kernel

theorem test_witness_PowerAndTemperatureAreWatched :
    ((fun (t : Nat) (s : State) => (s.blk.sys.mode ≠ .save) ∧ (s.blk.sys.mode ≠ .halt)) 5 (wMode .active id)) ∧
    ((fun (t a : Nat) (s : State) => (s.blk.pwr.lastTest = some a) ∧ (a + s.blk.cf Reg.PWR_CFG 0 7 0 * 3600 * nsPerS ≤ (s.at t).t7) ∧ (s.blk.pwr.testRun = none) ∧ (s.blk.pwr.pfWarn = false) ∧ (s.blk.sys.mode ≠ .load) ∧ (s.blk.sys.mode ≠ .save) ∧ (s.blk.sys.mode ≠ .halt)) 999999999999999 5 (wMode .active (fun b => { b with pwr := { b.pwr with lastTest := some 5 } }))) ∧
    ((fun (t p v0 v1 us a : Nat) (s : State) => (s.blk.pwr.testRun = some a) ∧ (a + 2000000 ≤ (s.at t).t7) ∧ (3800 ≤ v1) ∧ (holdupOf p v0 v1 = some us)) 2000002 1000 4000 3900 14104 2 (wMode .active (fun b => { b with pwr := { b.pwr with testRun := some 2 } }))) := by
  and_intros <;> decide +kernel

theorem test_witness_TheSystemBusServesItsMasters :
    ((fun (t m addr a : Nat) (s : State) => (m < 55) ∧ (m ≠ 52) ∧ (m ≠ 53) ∧ (Tbl.get s.blk.resp m (.value 0) = .stalled a) ∧ (a + fld (s.blk.vis Reg.SYS_BUS_TIMEOUT) 13 0 * 1000 ≤ (s.at t).t7)) 9000000 2 0xF0100058 5 (wMode .active (fun b => { b with resp := [(2, .stalled 5)] }))) ∧
    ((fun (t m addr c : Nat) (s : State) => (m = 52 ∨ m = 53) ∧ (s.blk.dmaRunning (m - 52) = some c) ∧ (addr ≠ queueAddr 0x58) ∧ (((s.at t).dmaMove c (some addr)).stop = some .stall) ∧ (((s.at t).dmaCh c).since + fld (s.blk.vis Reg.SYS_BUS_TIMEOUT) 13 0 * 1000 ≤ (s.at t).t7)) 9000000 52 0x80000000 12 (wMem (fun b => (b.setDmaCh 12 { b.dmaCh 12 with st := .running }).setRunning 0 (some 12)))) ∧
    ((fun (t m c : Nat) (s : State) => (m = 52 ∨ m = 53) ∧ (s.blk.dmaRunning (m - 52) = some c) ∧ (((s.at t).dmaMove c none).stop = some .stall) ∧ ((((s.at t).dmaMove c none).kept (52 + c / 16) c).stallOver (52 + c / 16) = true)) 9000000 52 12 wDmaPop) ∧
    ((fun (t h : Nat) (s : State) => (h < 4) ∧ (s.blk.masterReady h = true) ∧ (s.blk.accOk h (0x0C200004 + 0x1000 * h) 4 false = true)) 5 2 (wMode .active (fun b => { b.setVis Reg.SYS_IRQ_STATUS 0 0 1 with sys := { b.sys with plicEn := [(16, 0xFFFFFFFE)], plicPrio := [(1, 3)] } }))) ∧
    ((fun (t h i : Nat) (s : State) => (h < 4) ∧ (s.blk.masterReady h = true) ∧ (s.blk.accOk h (0x0C200004 + 0x1000 * h) 4 true = true) ∧ (s.blk.plicEnabled h (i % 2 ^ 32) = true)) 5 2 1 (wMode .active (fun b => { b with sys := { b.sys with plicEn := [(16, 0xFFFFFFFE)], plicClaimed := [1, 4] } }))) ∧
    ((fun (t m a : Nat) (s : State) => (s.blk.mayWrite m 0 0x49C) ∧ (a = (s.blk.vis Reg.SYS_QSPI_ADDR).toNat % 2 ^ 27) ∧ (s.blk.sys.mode = .maintenance) ∧ (Flash.bank a ≠ s.blk.sys.bank) ∧ (a % 65536 = 0) ∧ (s.blk.sys.qspi = none)) 5 0 0x4000000 (wMode .maintenance (fun b => b.setVis Reg.SYS_QSPI_ADDR 0 0 0x4000000))) ∧
    ((fun (t m a : Nat) (s : State) => (s.blk.mayWrite m 0 0x49C) ∧ (a = (s.blk.vis Reg.SYS_QSPI_ADDR).toNat % 2 ^ 27) ∧ (s.blk.sys.mode = .maintenance) ∧ (Flash.bank a ≠ s.blk.sys.bank) ∧ (a % 256 = 0) ∧ (s.blk.sys.qspi = none)) 5 0 0x4000000 (wMode .maintenance (fun b => b.setVis Reg.SYS_QSPI_ADDR 0 0 0x4000000))) ∧
    ((fun (t m : Nat) (s : State) => (s.blk.mayWrite m 0 0x49C) ∧ (s.blk.sys.mode ≠ .maintenance)) 5 0 (wMode .active id)) ∧
    ((fun (t m : Nat) (s : State) => (s.blk.mayWrite m 0 0x49C) ∧ (s.blk.sys.mode ≠ .maintenance)) 5 0 (wMode .active id)) ∧
    ((fun (t a src : Nat) (s : State) => (s.blk.sys.qspi = some ⟨false, a, src⟩)) 5 0 0 (wMode .maintenance (fun b => { b with sys := { b.sys with qspi := some ⟨false, 0, 0⟩ } }))) ∧
    ((fun (t a src : Nat) (new : List Byte) (s : State) => (s.blk.sys.qspi = some ⟨true, a, src⟩) ∧ (new = (s.blk.loadFlash a 256).zipWith (fun (o n : Byte) => o &&& n) (s.blk.load src 256))) 5 0 0 (List.replicate 256 0) (wMode .maintenance (fun b => { b with sys := { b.sys with qspi := some ⟨true, 0, 0⟩ } }))) ∧
    ((fun (t value e : Nat) (s : State) => (s.blk.mayWrite 0 0 0x454) ∧ (s.blk.wdogEnd = some e) ∧ (value % 2 ^ 32 = 0x4B43) ∧ ((s.at t).t7 < e)) 100 0x4B43 2000000002 (wMode .active (fun b => { b.setBoth Reg.SYS_WDOG_CFG 0 0 2000 with sys := { b.sys with wdogAt := some 2 } }))) ∧
    ((fun (t h : Nat) (s : State) => (h < 4) ∧ (s.blk.mtimeCmp h ≤ (s.at t).t7 / 1000)) 5000000 2 (wMode .active (fun b => (b.setBoth Reg.SYS_MTIMECMP 0 4 1000).setBoth Reg.SYS_MTIMECMP 0 5 0))) := by
  and_intros <;> decide +kernel

theorem test_witness_FramesOfTheCycleAndPorts : ∃ u, exec (.tick 0 0) (wS wOpen) = .next u := by
  exact ⟨_, rfl⟩

theorem test_witness_FramesOfOutputAndFabric : ∃ u, exec (.islPublish 0) (wS wOpen) = .next u := by
  exact ⟨_, rfl⟩

theorem test_witness_FramesOfTimeAndMeasurement : ∃ u, exec (.leapSecond 0) (wS wOpen) = .next u := by
  exact ⟨_, rfl⟩

theorem test_witness_FramesOfMemoryRadioAndArchive : ∃ u, exec (.radioSlot 0) (wS wOpen) = .next u := by
  exact ⟨_, rfl⟩

theorem test_witness_FramesOfPairsAndGuards : ∃ u, exec (.renewSend 0) (wS wOpen) = .next u := by
  exact ⟨_, rfl⟩

theorem test_witness_FramesOfModesAndTheBus : ∃ u, exec (.loadComplete 0) (wS wOpen) = .next u := by
  exact ⟨_, rfl⟩

theorem test_witness_BlockedAccessesDoNothingElse :
    ((Instr.wdogKick 5 0 7).busUse = some ⟨5, 0, 0xF0000454, 4, true, none⟩ ∧ (Instr.wdogKick 5 0 7).wf = true ∧ (wS Block.reset).blk.masterReady 0 = true ∧ (⟨5, 0, 0xF0000454, 4, true, none⟩ : BusUse).permitted (wS Block.reset).blk = false) ∧
    ((wS { Block.reset with acc := { Block.reset.acc with frozen := [0] } }).blk.masterReady 0 = false) := by
  and_intros <;> decide +kernel

theorem test_witness_PrivilegedQueuesNeedTheirRight :
    ((fun (m q : Nat) (s : State) => m < 55 ∧ q < 8 ∧ s.blk.masterReady m = true ∧ s.blk.permits m (queueAddr 0x48) 8 true = true ∧ s.blk.permits m (queueAddr 0x50) 8 true = true ∧ s.blk.permits m (queueAddr 0x58) 8 false = true ∧ s.blk.permits m (queueAddr 0x60) 8 false = true) 0 7 (wS wOpen)) ∧
    ((fun (m : Nat) (s : State) => m < 55 ∧ s.blk.masterReady m = true ∧ s.blk.queSel m < 8 ∧ bit (s.blk.vis Reg.ACC_MST_CFG m).toNat 0 = false) 0 (wS wOpen)) := by
  and_intros <;> decide +kernel

theorem test_witness_SecretsChangeOnlyByTheirCommands : (Instr.renewSend 5).mayTouchKeys = false ∧ ∃ u, exec (.renewSend 5) (wS wOpen) = .next u := by
  exact ⟨rfl, _, rfl⟩

theorem test_witness_TestRootEndsWithAZeroisation :
    ((fun (s : State) => (Instr.renewSend 5).mayResetDie = false ∧ (∃ u, exec (.renewSend 5) s = .next u) ∧ s.blk.key.testRoot = true) (wS { wOpen with key := { wOpen.key with testRoot := true } })) ∧
    (Block.reset.sys.zeroised = true ∧ (⟨[0, 0, 1]⟩ : KeyMsg).op = 1) :=
  ⟨by exact ⟨rfl, ⟨_, rfl⟩, rfl⟩, by decide +kernel⟩

/-! ### Ill-formed commands -/

/-- One command for each check of WellFormed, with an instance that the hardware lacks: refused by the check. -/
theorem test_wf_refuses : ([.rcRead 0 55 0 4, .rcRead 0 0 0 3, .tick 0 2, .recordMark 0 0 0 8192, .sfpChange 0 30 .inserted, .pdelayReqSend 0 29, .filterEntryCommit 0 0 48 0,
    .tcEntryTimeout 0 12, .largeSend 0 25 4 wLd, .timedLaunch 0 0 0 64, .resendWindowExpiry 0 0 0 0 1024, .sessionSegmentSend 0 64, .coreHalt 0 48,
    .sluiceRelease 0 49, .aoPulseEnd 0 16, .gooseRepeat 0 8 false, .lockHoldElapsed 0 7, .chFault 0 16, .zeroCrossing 0 4,
    .nrgCounterRead 0 0 32, .trgInputEdge 0 2 true, .captureSeal 0 8, .uplinkMissed 0 4, .scrubStep 0 10, .dmaChannelRun 0 2, .queuePop 0 0 64,
    .archiveFrameStart 0 16, .tabuskLinkDown 0 2, .memberLost 0 8, .pathDown 0 2, .plicClaim 0 4] : List Instr).all
      (fun c => c.wf == false) = true := by decide

/-- Of such a command time is all that passes. -/
theorem test_wf_passes_time : exec (.tick 5 2) (wS wOpen) = .next (wS (wOpen.clock 5)) ∧ exec (.queuePop 5 55 0) wTick = .next (wS (wTick.at 5)) ∧
    exec (.coreHalt 5 48) wTick = .next (wS (wTick.at 5)) := by
  and_intros <;> rfl

/-! ### Results that the spec states -/

/-- Chapter 1, worked example: slot 3 of a second at 240 frames/s lies 12,500,000 ns after it; chapter 4: slots 8 and 10 at 60 frames/s. -/
theorem test_slot_times : slotTime 240 3 = 12500000 ∧ slotTime 60 8 = 133333333 ∧ slotTime 60 10 = 166666667 := by decide

/-- Chapter 4, worked examples: WA_OFFSET, WB_OFFSET and ARR_OFFSET of basin 77,000, and the address of context 312's feature. -/
theorem test_basin_offsets : off16 2210000 0 = 0x00021B8D ∧ off16 3100000 0 = 0x0002F4D6 ∧ off16 15200000 0 = 0x000E7EF0 ∧ featAddr 77000 312 = 0x90101380 := by decide

/-- Chapter 4, worked example: the quantiles 0.99 and 0.999 of context 312's histogram, in µs. -/
theorem test_adaptive_wait : latOf [0, 0, 0x03200000, 400 * 32768, 40 * 32768, 8 * 32768] 1 = 3376 ∧
    latOf [0, 0, 0x03200000, 400 * 32768, 40 * 32768, 8 * 32768] 2 = 6976 := by decide

/-- Chapter 2, worked example: 14 fragments of a 20,000-byte payload at MTU 1,500; each full frame is 1,518 bytes with its FCS. -/
def wFrag : List (List Byte) := ({ wUd with payload := List.replicate 20000 0 }.frames [0, 0, 0, 0, 0, 1] 0).1

theorem test_fragments : wFrag.length = 14 ∧ (wFrag.map (fun f => f.length + 4)).getD 0 0 = 1518 ∧ (wFrag.map (fun f => f.length)).getD 13 0 = 14 + 20 + 768 ∧
    (wFrag.map (fun f => beAt f 20 2 % 0x2000)).getD 13 0 = 2405 := by decide +kernel

/-- Chapter 2, worked example: 3,212 ns of residence at a rate ratio of 2.5 ppm and 412 ns of link delay give a correction of 0x0E28_020E. -/
theorem test_residence : (((({ wOpen with tim := { wOpen.tim with pd := [(2, { wOpen.pdState 2 with valid := true, results := [412 * 256] })] } } : Block).setTb 1
    { TimeBase.reset with va := 3212 * 65536, rratio := 5497558 }).residence (1 * 8) 2 0).1) = 0x0E28020E := by decide +kernel

/-- Chapter 9, worked examples: the reading after 3 s at TB_VRATE 343,597, and the NS32 form of a time. -/
theorem test_time_base : ({ TimeBase.reset with va := 0, na := 0, rho := 343597 } : TimeBase).at 3000000000 / 65536 = 3000003749 ∧
    ns32 1900000000012000000 = 0xF1F51B00 := by decide

/-- TB0 of chapter 9's second worked example, t after its source was lost. -/
def wHo (t : Nat) : Block := (wSet { wOpen with t7 := t } [(Reg.TIM_TB_HO, 0, 0, 0x00C80064)]).setTb 0 { TimeBase.reset with st := .holdover, e0 := some 150000, lastExt := some 0 }

/-- Its error, in ps: 210.45 ns after 3 s, above 1,000 ns after 38.747 s, 3,595 ns after 130 s. -/
theorem test_holdover_error : (wHo 3000000000).errHold 0 = some 210450 ∧ (wHo 38747000000).errHold 0 = some 1000006 ∧ (wHo 130000000000).errHold 0 = some 3595000 := by
  decide +kernel

/-- Point 1 of chapter 10's worked example on energy counters, with an accumulator in its units. -/
def wCnt (a : Nat) : Block := (wSet wOpen [(Reg.NRG_PT_RATIO_NUM, 1, 0, 1200000), (Reg.NRG_PT_CFG, 1, 0, 0xB0000000)]).setNrgPt 1 { NrgPt.reset with acc := a * 2 ^ 24 :: List.replicate 31 0 }

/-- Its counter before and after, and that the read between finds it wrapped twice. -/
theorem test_energy_counter : (wCnt 10000000000).cnt 1 0 = 3410065408 ∧ (wCnt 14572000000).cnt 1 0 = 306530816 ∧
    bit (((wCnt 10000000000).accUpdate 1 (14572000000 * 2 ^ 24 :: List.replicate 31 0)).nrgPt 1).wrap2 0 = true := by decide +kernel

/-- Context 1,234 of chapter 3's worked example, with an open basin for slot 29 of second 2. -/
def wStr : Block :=
  let b := wSet wOpen [(Reg.ALN_RING_CFG, 0, 0, 0x80800010), (Reg.ALN_RING_RATE, 0, 0, 50), (Reg.ALN_BASIN_STRIDE, 0, 0, 16), (Reg.ALN_RING_BASE_HI, 0, 0, 0x10),
    (Reg.STR_CTX_CTRL, 1234, 0, 0x82000000), (Reg.STR_CTX_TIMEBASE, 1234, 0, 1000000), (Reg.STR_CTX_FORMAT, 1234, 0, 0x01000100),
    (Reg.STR_CTX_FNOM, 1234, 0, 1), (Reg.STR_CTX_VNOM, 1234, 0, 0x43700000), (Reg.STR_CTX_INOM, 1234, 0, 0x3F800000), (Reg.STR_CTX_FEAT_SEL, 1234, 0, 0x00FF0000),
    (Reg.STR_CTX_SCALE, 1234, 0, 0x3C23D70A), (Reg.STR_OFFGRID_TOL, 0, 0, 5000)]
  b.setRing 0 { Ring.reset with run := true, started := true, nextSeq := 7, nextSlot := 131, pos := [(5, { Basin.reset with st := .opened, seq := 5, slot := 129, t0 := 2580000000 })] }

/-- The record of that example, 1.9 ms after its slot time. -/
def wRec : Rec :=
  let e := wStr.c37Elems 1234 [0, 0, 0x5A, 0x3C, 0xFF, 0xF4, 0, 35, 0, 0]
  ⟨0, 0, 1, 0, 0, 2581900000, 2580000000, -4000, 0, e.ph, e.freq, e.rocof, e.an, e.dg⟩

/-- Its place on the grid, its latency bin, its header words 0 to 3. -/
theorem test_record_header : wStr.grid 1234 579996 1000000 = .ok 29 (-4000) ∧ latBin 1900000 = 3 ∧
    leNat (wRec.header 1234) = 0x000024D2 + 0 * 2 ^ 32 + 0x0001CFDE * 2 ^ 64 + 0xF0600000 * 2 ^ 96 := by decide +kernel

/-- Its feature from the magnitude on: 15,770, −120, 350, I_INVALID, digital summary 0, current 0. -/
theorem test_record_feature : leNat ((wRec.feature 0x00FF0000 0xFFFF 50 0x43700000 0x3F800000).drop 4) = 0x3D9A + 0xFF88 * 2 ^ 16 + 0x015E * 2 ^ 32 + 0x0200 * 2 ^ 48 := by
  decide +kernel

/-- Chapter 17's worked example at its last entries: 2 held entries, LAST_HEAD 4,095 before the thaw, 6 losses from 1,064 on. -/
def wThaw : Block := { wOpen with evr := { wOpen.evr with seq := 1070, lastHead := 4095, held := [{ wEv 0x0405 with seq := 1062 }, { wEv 0x0405 with seq := 1063 }], frozenAt := some 0, lostFrz := 6, lostFrzFirst := 1064, ready := true } }

/-- The held entries go to indices 4,095 and 0; FREEZE_LOSS follows with sequence number 1,070, ARG0 6 and ARG1 1,064. -/
theorem test_thaw : (wThaw.evrThaw.entryWrite.entryWrite.entryWrite).evr.lastHead = 2 ∧
    leAt ((wThaw.evrThaw.entryWrite.entryWrite.entryWrite).load (Evr.lastArea + 64) 64) 16 12 = 1070 + 6 * 2 ^ 32 + 1064 * 2 ^ 64 := by decide +kernel

/-- Chapter 19's worked example: the read of PRT.CNT_SAT moves AINC's PORT on; the last port's returns it to 0. -/
theorem test_auto_increment : ((wOpen.setVis Reg.PRT_SEL 0 0 0x80000000).masterRead 0 0xF00202D8 4).vis Reg.PRT_SEL 0 = 0x80000001 ∧
    ((wOpen.setVis Reg.PRT_SEL 0 0 0x8000001D).masterRead 0 0xF00202D8 4).vis Reg.PRT_SEL 0 = 0x80000000 := by decide +kernel

/-- Chapter 7's worked example: the intervals of a publisher with T1 2 ms and T0 1,000 ms. -/
theorem test_publisher_intervals : (List.range 10).map (fun i => wPub.pubInterval 3 i / 1000000) = [2, 4, 8, 16, 32, 64, 128, 256, 512, 1000] := by decide +kernel

/-- Chapter 20's worked example: a decay of 3.40 V at 60 W is below 25 ms. -/
theorem test_holdup : holdupOf 600 4000 3966 = some 24684 := by decide

/-- The check values that the standards publish for the CRC-32 of Ethernet frames and the CRC-CCITT of R58. -/
theorem test_crcs : crc32 [0x31, 0x32, 0x33, 0x34, 0x35, 0x36, 0x37, 0x38, 0x39] = 0xCBF43926 ∧
    crcCcitt [0x31, 0x32, 0x33, 0x34, 0x35, 0x36, 0x37, 0x38, 0x39] = 0x29B1 := by decide +kernel

/-- What zlib makes of "ababababab" (raw DEFLATE, one block with fixed codes and a match), expanded as R358's format says. -/
theorem test_inflate : inflate [] [75, 76, 74, 132, 66, 0] = some (List.replicate 5 [0x61, 0x62]).flatten := by decide +kernel

/-- FIPS 197's example of AES-128, and FIPS 180-4's digest of "abc", by their first four bytes. -/
theorem test_aes : (aesEncrypt (aesKeys ((List.range 16).map (BitVec.ofNat 8))) ((List.range 16).map (fun i => BitVec.ofNat 8 (0x11 * i)))).take 4 =
    [0x69, 0xC4, 0xE0, 0xD8] := by decide +kernel
theorem test_sha256 : (sha256 [0x61, 0x62, 0x63]).take 4 = [0xBA, 0x78, 0x16, 0xBF] := by decide +kernel

/-- The table gives its rows no bits, so no word spells a command. -/
theorem test_no_table_word : decodeTableWord 32 0xFFFFFFFF = none ∧ decodeTableWord 0 0 = none := by decide
end

section
/-! PROOFS. The fields of a register after a write (O8). -/

namespace Sys2Proof.Machine

/-- A field's value fits its bits. -/
theorem fld_lt (w : Word) (hi lo : Nat) : fld w hi lo < 2 ^ (hi + 1 - lo) := bits_lt ..

/-- What a field reads after a write of it, from what it read before (Table 0.5, R7). -/
def FieldDesc.after (f : FieldDesc) (o n : Nat) : Nat :=
  match f.acc with
  | .rw | .rws | .lck => if inRanges n f.legal then n else o
  | .w1c => o - (o &&& n)
  | .w1t => o ^^^ n
  | .ro | .wo | .rc => o

/-- Clearing the bits of a number that another has. -/
theorem toNat_and_not {w : Nat} (x y : BitVec w) : (x &&& ~~~y).toNat = x.toNat - (x.toNat &&& y.toNat) := by
  have hdisj : (x &&& y) &&& (x &&& ~~~y) = 0#w := by
    ext i
    simp only [BitVec.getElem_and, BitVec.getElem_not, BitVec.getElem_zero]
    cases x[i] <;> cases y[i] <;> rfl
  have hunion : (x &&& y) ||| (x &&& ~~~y) = x := by
    ext i
    simp only [BitVec.getElem_or, BitVec.getElem_and, BitVec.getElem_not]
    cases x[i] <;> cases y[i] <;> rfl
  have hs : (x &&& y) + (x &&& ~~~y) = x := by
    rw [BitVec.add_eq_or_of_and_eq_zero _ _ hdisj, hunion]
  have hle : x &&& y ≤ x := by
    rw [BitVec.le_def, BitVec.toNat_and]
    exact Nat.and_le_left
  rw [← BitVec.toNat_and, ← BitVec.toNat_sub_of_le hle]
  congr 1
  rw [BitVec.eq_sub_iff_add_eq, BitVec.add_comm, hs]

/-- A write of one field, read back. -/
theorem FieldDesc.fld_write_same (f : FieldDesc) (h : f.lo ≤ f.hi) (h' : f.hi < 32) (old new : Word) :
    fld (f.write old new) f.hi f.lo = f.after (fld old f.hi f.lo) (fld new f.hi f.lo) := by
  have ho := fld_lt old f.hi f.lo
  have hn := fld_lt new f.hi f.lo
  have hw : 2 ^ (f.hi + 1 - f.lo) ≤ 2 ^ 32 := Nat.pow_le_pow_right (by decide) (by omega)
  have hset (v : Nat) (hv : v < 2 ^ (f.hi + 1 - f.lo)) : fld (setFld old f.hi f.lo v) f.hi f.lo = v := by
    rw [fld_setFld _ _ _ _ h h', Nat.mod_eq_of_lt hv]
  have hof (v : Nat) (hv : v < 2 ^ (f.hi + 1 - f.lo)) : (BitVec.ofNat 32 v).toNat = v := by
    rw [BitVec.toNat_ofNat, Nat.mod_eq_of_lt (by omega)]
  unfold FieldDesc.write FieldDesc.after
  dsimp only
  cases f.acc with
  | rw | rws | lck =>
    dsimp only
    split
    · exact hset _ hn
    · rfl
  | w1c =>
    dsimp only
    rw [toNat_and_not, hof _ ho, hof _ hn]
    exact hset _ (by omega)
  | w1t =>
    dsimp only
    rw [BitVec.toNat_xor, hof _ ho, hof _ hn]
    exact hset _ (Nat.xor_lt_two_pow ho hn)
  | ro | wo | rc => rfl

/-- A write of one field leaves the fields apart from it. -/
theorem FieldDesc.fld_write_other (f g : FieldDesc) (hf : f.lo ≤ f.hi) (hf' : f.hi < 32) (hg : g.lo ≤ g.hi) (d : g.hi < f.lo ∨ f.hi < g.lo)
    (old new : Word) : fld (f.write old new) g.hi g.lo = fld old g.hi g.lo := by
  have hset (v : Nat) : fld (setFld old f.hi f.lo v) g.hi g.lo = fld old g.hi g.lo := fld_setFld_other _ _ _ _ _ _ hf hf' hg d
  unfold FieldDesc.write
  dsimp only
  cases f.acc with
  | rw | rws | lck =>
    dsimp only
    split
    · exact hset _
    · rfl
  | w1c | w1t => exact hset _
  | ro | wo | rc => rfl

/-- Two fields share no bit. -/
abbrev FieldDesc.apart (f g : FieldDesc) : Prop := f.hi < g.lo ∨ g.hi < f.lo

/-- A write of fields apart from one leaves it. -/
theorem fld_foldl_write_other {l : List FieldDesc} {g : FieldDesc} (hl : ∀ f ∈ l, f.lo ≤ f.hi ∧ f.hi < 32 ∧ f.apart g) (hg : g.lo ≤ g.hi)
    (old new : Word) : fld (l.foldl (fun a f => f.write a new) old) g.hi g.lo = fld old g.hi g.lo := by
  induction l generalizing old with
  | nil => rfl
  | cons f r ih =>
    obtain ⟨h, h', d⟩ := hl f List.mem_cons_self
    rw [List.foldl_cons, ih (fun e he => hl e (List.mem_cons_of_mem f he)), f.fld_write_other g h h' hg d.symm]

/-- Of a write of disjoint fields, each takes its own. -/
theorem fld_foldl_write {l : List FieldDesc} (hl : ∀ f ∈ l, f.lo ≤ f.hi ∧ f.hi < 32) (hd : l.Pairwise FieldDesc.apart)
    {g : FieldDesc} (hg : g ∈ l) (old new : Word) :
    fld (l.foldl (fun a f => f.write a new) old) g.hi g.lo = g.after (fld old g.hi g.lo) (fld new g.hi g.lo) := by
  induction l generalizing old with
  | nil => cases hg
  | cons f r ih =>
    obtain ⟨hf, hr⟩ := List.pairwise_cons.mp hd
    have hlr (e : FieldDesc) (he : e ∈ r) := hl e (List.mem_cons_of_mem f he)
    obtain ⟨h, h'⟩ := hl f List.mem_cons_self
    rw [List.foldl_cons]
    rcases List.mem_cons.mp hg with rfl | hg
    · rw [fld_foldl_write_other (fun e he => ⟨(hlr e he).1, (hlr e he).2, (hf e he).symm⟩) h]
      exact g.fld_write_same h h' old new
    · rw [ih hlr hr hg, f.fld_write_other g h h' (hlr g hg).1 (hf g hg).symm]

/-- The fields of a register of the tables: disjoint, in its 32 bits. -/
theorem RegDesc.fieldsOk_iff (d : RegDesc) :
    d.fieldsOk = true ↔ (∀ f ∈ d.fields, f.lo ≤ f.hi ∧ f.hi < 32) ∧ d.fields.Pairwise FieldDesc.apart := by
  unfold RegDesc.fieldsOk
  simp only [Bool.and_eq_true, List.all_eq_true, decide_eq_true_eq]

/-- A field of a register after a write of the register. -/
theorem RegDesc.fld_write {d : RegDesc} (hd : d.fieldsOk = true) {f : FieldDesc} (hf : f ∈ d.fields) (old new : Word) :
    fld (d.write old new) f.hi f.lo = f.after (fld old f.hi f.lo) (fld new f.hi f.lo) := by
  obtain ⟨hl, hp⟩ := d.fieldsOk_iff.mp hd
  exact fld_foldl_write hl hp hf old new

/-- Settles O8: the fields of a register are disjoint, so each is written as by itself. -/
theorem fieldsFollowTheirAccessCodes : Obligations.FieldsFollowTheirAccessCodes := by
  intro blk hb d hd hw f hf old new
  obtain ⟨hok, -⟩ := Reg.table_spec hb hd
  refine (RegDesc.fld_write (hok.resolve_left (by simp [hw])) hf old new).trans ?_
  unfold FieldDesc.after
  rfl

end Sys2Proof.Machine
end

section
/-! PROOFS. What reset leaves (O3), and what registers read then (O4). -/

namespace Sys2Proof.Machine

/-- Settles O3: every table of records is empty after reset and answers the reset record for each key. -/
theorem resetState : Obligations.ResetState :=
  ⟨rfl, rfl, fun _ => rfl, fun _ => rfl, fun _ _ => rfl, fun _ => rfl, fun _ => rfl, fun _ _ _ => ⟨rfl, rfl⟩⟩

/-- The rows that show the live state of their block, the identity, or OTP (log entry 11). -/
def Reg.liveAtReset : List (Nat × Nat) :=
  [(0, 0x408), (0, 0x40C), (1, 0x40), (1, 0x48), (7, 0x4C), (8, 0x70), (8, 0x4C), (14, 0x44), (20, 0x410), (20, 0x0500)]

/-- Register `k` of a row reads the reset value of its table in place 0 of a space (R10). -/
def RegDesc.readsReset (d : RegDesc) (blk sp k : Nat) : Bool :=
  State.reset.blk.peek blk sp 0 (d.off + d.stride * k) 0 == (d.read (d.rst 0 k)).toNat

/-- So do all registers of a block's tables but the live ones. -/
def Reg.tableReadsReset (blk : Nat) : Bool :=
  (Reg.tables blk).all (fun d => Reg.liveAtReset.contains (blk, d.off) ||
    d.spaces.all (fun sp => (List.range d.n).all (d.readsReset blk sp)))

/-- The tables are finite: each register's read at reset is computed. -/
theorem Reg.tables_read_reset (blk : Nat) (hb : blk < 25) : Reg.tableReadsReset blk = true := by
  have h : ∀ k ∈ [0, 1, 2, 3, 4, 5, 6, 7, 8, 9, 10, 11, 12, 13, 14, 15, 16, 17, 18, 19, 20, 21, 22, 23, 24], Reg.tableReadsReset k = true := by
    iterate 25 refine List.forall_mem_cons.mpr ⟨by decide +kernel, ?_⟩
    exact fun _ hk => absurd hk List.not_mem_nil
  exact h blk (List.mem_range.mpr hb)

/-- Settles O4, row by row of the tables. -/
theorem registersReadTheirResetValues : Obligations.RegistersReadTheirResetValues := by
  intro blk hb d hd sp hsp k hk hlive
  have hrow := List.all_eq_true.mp (Reg.tables_read_reset blk hb) d hd
  rw [show Reg.liveAtReset.contains (blk, d.off) = false from hlive, Bool.false_or] at hrow
  have hreg := List.all_eq_true.mp (List.all_eq_true.mp hrow sp hsp) k (List.mem_range.mpr hk)
  exact eq_of_beq hreg

end Sys2Proof.Machine
end

section
/-! PROOFS. The sets that a COMMIT hands over (O19). -/

namespace Sys2Proof.Machine

/-- Values inserted under some keys: each of them reads its own, every other key as before. -/
theorem Tbl.get_insAll {α : Type} (l : List Nat) (f : Nat → α) (c : Tbl α) (j : Nat) (d : α) :
    Tbl.get (l.foldl (fun c k => Tbl.ins c k (f k)) c) j d = if j ∈ l then f j else Tbl.get c j d := by
  induction l generalizing c with
  | nil => rfl
  | cons k r ih =>
    rw [List.foldl_cons, ih]
    by_cases hr : j ∈ r
    · rw [if_pos hr, if_pos (List.mem_cons_of_mem k hr)]
    · rw [if_neg hr]
      by_cases hk : j = k
      · subst hk
        rw [if_pos List.mem_cons_self, Tbl.get_ins_same]
      · rw [if_neg (by simp [hk, hr]), Tbl.get_ins_other _ _ _ _ _ hk]

/-- A block's COMMIT empties its own dirty sets only. -/
theorem Block.commit_dirty (b : Block) (blk : Nat) : (b.commit blk).regs.dirty = b.regs.dirty.filter (fun k => keyBlk k != blk) := rfl

/-- Each of them awaits its hand-over with the value it has now. -/
theorem Block.commit_com_mine (b : Block) {blk k : Nat} (hk : k ∈ b.regs.dirty) (hb : keyBlk k = blk) :
    Tbl.get (b.commit blk).regs.com k 0 = b.visAt k := by
  refine (Tbl.get_insAll _ b.visAt _ k 0).trans (if_pos ?_)
  simp [hk, hb]

/-- The waiting sets of the other blocks stay as they are. -/
theorem Block.commit_com_other (b : Block) {blk k : Nat} (hb : keyBlk k ≠ blk) (d : Word) :
    Tbl.get (b.commit blk).regs.com k d = Tbl.get b.regs.com k d := by
  refine (Tbl.get_insAll _ b.visAt _ k d).trans (if_neg ?_)
  simp [hb]

/-- What leaves the committed sets alone leaves each of them. -/
theorem Touches.com {l : List Part} {a b : Block} (h : Touches l a b) (hl : l.contains .com = false) : b.regs.com = a.regs.com :=
  (Prod.ext_iff.mp (h.keeps .com hl)).1

/-- And so the sets written since the last COMMIT. -/
theorem Touches.dirty {l : List Part} {a b : Block} (h : Touches l a b) (hl : l.contains .dirty = false) : b.regs.dirty = a.regs.dirty :=
  (Prod.ext_iff.mp (h.keeps .dirty hl)).1

/-- Counting deferred writes comes after ALN's commit and leaves its sets. -/
theorem Block.alnCommit_touches_commit (b : Block) : Touches [.vis] (b.commit Blk.aln) b.alnCommit := by
  have once (x : Block) (r n : Nat) : Touches [.vis] x (if x.openedNow r then x.alnDefer n else x) :=
    Touches.ite (Block.alnDefer_touches x n) Touches.refl
  exact (once _ 0 _).trans (once _ 1 _) rfl

/-- The blocks whose COMMIT does no more than hand their sets over. -/
def Blk.plainCommit (blk : Nat) : Bool := [3, 4, 5, 6, 7, 8, 9, 11, 13, 17].contains blk

/-- Of their registers a COMMIT changes, beside the sets, at most what software sees: ALN's counter of deferred writes. -/
theorem Block.commitBlock_touches_commit (b : Block) {blk : Nat} (h : Blk.plainCommit blk = true) :
    Touches [.vis] (b.commit blk) (b.commitBlock blk) := by
  have h4 : b.commitBlock 4 = b.alnCommit := rfl
  have he : ∀ k ∈ [3, 5, 6, 7, 8, 9, 11, 13, 17], b.commitBlock k = b.commit k := by
    simp only [List.forall_mem_cons]
    exact ⟨rfl, rfl, rfl, rfl, rfl, rfl, rfl, rfl, rfl, fun _ hk => absurd hk List.not_mem_nil⟩
  have hm : blk = 4 ∨ blk ∈ [3, 5, 6, 7, 8, 9, 11, 13, 17] := by
    simp only [Blk.plainCommit, List.contains_iff_mem, List.mem_cons, List.not_mem_nil, or_false] at h ⊢
    omega
  rcases hm with rfl | hm
  · exact h4 ▸ b.alnCommit_touches_commit
  · exact he blk hm ▸ Touches.refl

/-- A saturated number fits its register. -/
theorem w32_min_toNat (n : Nat) : (w32 (min n 0xFFFFFFFF)).toNat = min n 0xFFFFFFFF := by
  unfold w32
  rw [BitVec.toNat_ofNat]
  omega

/-- A saturating counter after an event, its SAT flag standing in another register. -/
theorem Block.vis_count_toNat (b : Block) (d : RegDesc) (i k n : Nat)
    (h : ∀ p, d.sat = some p → d.key i k ≠ regKey d.blk (d.spaces.headD 15) i p.1) :
    ((b.count d i k n).vis d i k).toNat = min ((b.vis d i k).toNat + n) 0xFFFFFFFF := by
  rw [← w32_min_toNat]
  congr 1
  unfold Block.count
  dsimp only
  split
  · exact Tbl.get_put_same ..
  · split
    · rename_i off s hs
      exact (Tbl.get_put_other _ _ _ _ _ _ (h _ hs)).trans (Tbl.get_put_same ..)
    · exact Tbl.get_put_same ..

/-- A COMMIT by a master, refused and counted or done. -/
theorem Block.commitBy_done (b : Block) (m : Nat) {blk : Nat} (h : Blk.plainCommit blk = true) : CommitDone b (b.commitBy m blk) m blk := by
  unfold CommitDone Block.commitBy
  split
  · have ht := Block.count_touches b Reg.SYS_COMMIT_REFUSED 0 0 1
    refine ⟨ht.com rfl, ht.dirty rfl, b.vis_count_toNat _ 0 0 1 ?_⟩
    rintro p ⟨⟩
    decide
  · have ht := b.commitBlock_touches_commit h
    rw [ht.com rfl, ht.dirty rfl]
    exact ⟨b.commit_dirty blk, fun k hk hb => b.commit_com_mine hk hb, fun k hb d => b.commit_com_other hb d⟩

/-- The command of a block's COMMIT register, by a master that may write it. -/
theorem Completes.commit {c : Instr} {s : State} {t m blk : Nat} (hb : Blk.plainCommit blk = true) (h : s.blk.mayWrite m blk 0x408)
    (hc : exec c s = s.runIf (Wf.master m) t (fun b => b.byMaster m blk 0x408 (fun b => b.commitBy m blk))) :
    Completes c s (fun b => CommitDone s.blk b m blk) := by
  refine Completes.byMaster hc (decide_eq_true h.1) h ?_
  rw [Block.advance_global _ _ _ (by decide)]
  exact (s.at t).commitBy_done m hb

/-- In a part with the radio tier, a radio command has its effect. -/
theorem State.runIf_ifRadio {s : State} (hv : s.blk.sys.variantW = false) (w : Bool) (t m blk off : Nat) (f : Block → Block) :
    s.runIf w t (fun b => b.byMaster m blk off (fun b => b.ifRadio f)) = s.runIf w t (fun b => b.byMaster m blk off f) := by
  have e : (s.at t).ifRadio f = f (s.at t) := if_neg (by simp [hv])
  simp only [State.runIf, State.run_eq, Block.byMaster, e]

/-- Settles O19: each command commits its block by its master; that of the radio tier does so in a part that has one. -/
theorem commitsHandOverTheShadowSets : Obligations.CommitsHandOverTheShadowSets := by
  refine ⟨?_, ?_, ?_, ?_, ?_, ?_, ?_, ?_, fun t m s h hv => Completes.commit rfl h (State.runIf_ifRadio hv ..), ?_⟩ <;>
    exact fun t m s h => Completes.commit rfl h rfl

end Sys2Proof.Machine
end

section
/-! PROOFS. Writes of memory by a master, past and through a core's data cache (O10). -/

namespace Sys2Proof.Machine

/-! ### The bytes of a number -/

/-- A number has as many bytes as it is given. -/
theorem leBytes_length (n v : Nat) : (leBytes n v).length = n := by
  induction n generalizing v with
  | zero => rfl
  | succ n ih => rw [leBytes, List.length_cons, ih]

/-- A byte of a number by its place, least significant first (R4). -/
theorem leBytes_getD (n v i : Nat) (d : Byte) (h : i < n) : (leBytes n v).getD i d = BitVec.ofNat 8 (v / 256 ^ i) := by
  induction n generalizing v i with
  | zero => omega
  | succ n ih =>
    rw [leBytes]
    cases i with
    | zero => simp
    | succ i => rw [List.getD_cons_succ, ih _ _ (by omega), Nat.div_div_eq_div_mul, Nat.pow_succ']

/-- `n` bytes of a number do not depend on what lies above them. -/
theorem leBytes_mod (n v : Nat) : leBytes n (v % 2 ^ (8 * n)) = leBytes n v := by
  induction n generalizing v with
  | zero => rfl
  | succ n ih =>
    have hp : 2 ^ (8 * (n + 1)) = 256 * 2 ^ (8 * n) := by rw [Nat.mul_succ, Nat.add_comm, Nat.pow_add]
    have hb : BitVec.ofNat 8 (v % (256 * 2 ^ (8 * n))) = BitVec.ofNat 8 v := by
      apply BitVec.eq_of_toNat_eq
      rw [BitVec.toNat_ofNat, BitVec.toNat_ofNat]
      exact Nat.mod_mul_right_mod v 256 _
    rw [hp, leBytes, leBytes, hb, Nat.mod_mul_right_div_self, ih]

/-! ### Writes into memory -/

/-- A number stored is read back byte by byte. -/
theorem Block.load8_storeN (b : Block) (a n v i : Nat) (h : i < n) : (b.storeN a n v).load8 (a + i) = BitVec.ofNat 8 (v / 256 ^ i) := by
  unfold Block.storeN
  rw [Block.load8_store, leBytes_length, if_pos (by omega), Nat.add_sub_cancel_left, leBytes_getD _ _ _ _ h]

/-- Every other byte reads as before. -/
theorem Block.load8_storeN_other (b : Block) (a n v x : Nat) (h : x < a ∨ a + n ≤ x) : (b.storeN a n v).load8 x = b.load8 x :=
  b.load8_store_other _ _ _ (by rwa [leBytes_length])

/-- An access of the scratch memory lies in its addresses. -/
theorem busRegion_scratch {addr n o : Nat} (h : busRegion addr n = some (.scratch, o)) : 0x80000000 ≤ addr ∧ addr + n ≤ 0x80C00000 := by
  unfold busRegion at h
  dsimp only at h
  iterate 4 (split at h; · cases h)
  split at h
  · rename_i hs
    simp only [Bool.and_eq_true, decide_eq_true_eq] at hs
    omega
  iterate 3 (split at h; · cases h)
  cases h

/-- A write of the scratch memory reads no line of DRAM. -/
theorem Block.partialFound_scratch (b : Block) {addr n o : Nat} (hn : 0 < n) (h : busRegion addr n = some (.scratch, o)) :
    b.partialFound addr n = b := by
  obtain ⟨h1, h2⟩ := busRegion_scratch h
  unfold Block.partialFound poisonUnit
  rw [if_pos (by omega : 0x80000000 ≤ addr ∧ addr < 0x80C00000)]
  exact ite_self b

/-! ### A core's data cache -/

/-- A core that starts a firing keeps its data cache. -/
@[simp] theorem Block.coreStarts_dcache (b : Block) (x : Core) : (b.coreStarts x).dcache = x.dcache := by
  unfold Block.coreStarts
  split
  · rfl
  · dsimp only
    split
    · rfl
    · split <;> rfl

/-- The line of a number that a core's data cache holds. -/
def Block.cached (b : Block) (c n : Nat) : Option CacheLine := (b.core c).dcache.find? (fun l => l.line == n)

/-- A line that the cache holds is found. -/
theorem Block.cached_of_any {b : Block} {c n : Nat} (h : (b.core c).dcache.any (fun l => l.line == n) = true) : ∃ l, b.cached c n = some l :=
  Option.isSome_iff_exists.mp (List.find?_isSome.mpr (List.any_eq_true.mp h))

/-- The line found is the one of that number. -/
theorem Block.cached_line {b : Block} {c n : Nat} {l : CacheLine} (h : b.cached c n = some l) : l.line = n :=
  eq_of_beq (List.find?_some h :)

/-- A range within a line touches that line. -/
theorem linesOf_one {a n : Nat} (hn : 0 < n) (h : a % 64 + n ≤ 64) : linesOf a n = [a / 64] := by
  unfold linesOf
  have e : (a + n - 1) / 64 + 1 - a / 64 = 1 := by omega
  rw [if_neg (by omega), e]
  simp

/-- A line that the cache holds does not pass it by. -/
theorem Block.pastCache_cached {b : Block} {c n : Nat} {l : CacheLine} (h : b.cached c n = some l) : b.pastCache c n = false := by
  have hany : (b.core c).dcache.any (fun l => l.line == n) = true :=
    List.any_eq_true.mpr ⟨l, List.mem_of_find?_eq_some h, (List.find?_some h :)⟩
  unfold Block.pastCache
  rw [hany, Bool.not_true, Bool.and_false]

/-- A line that the cache holds becomes its newest. -/
theorem Block.fillLine_cached {b : Block} {c n : Nat} {l : CacheLine} (h : b.cached c n = some l) :
    b.fillLine c n = (l, b.setCore c { b.core c with dcache := l :: (b.core c).dcache.filter (fun m => m.line != n) }) := by
  unfold Block.cached at h
  unfold Block.fillLine
  simp only [h]

/-- A core's read within a line that its cache holds. -/
theorem Block.coreLoad_cached {b : Block} {c a n : Nat} {l : CacheLine} (hn : 0 < n) (h : a % 64 + n ≤ 64)
    (hl : b.cached c (a / 64) = some l) : (b.coreLoad c a n).1 = slice l.data (a % 64) n := by
  unfold Block.coreLoad
  rw [linesOf_one hn h, List.foldl_cons, List.foldl_nil]
  simp only [Block.pastCache_cached hl, Bool.false_eq_true, if_false, List.nil_append, Block.fillLine_cached hl]

/-- A core's write within a line that its cache holds: the line takes the bytes, memory none. -/
theorem Block.coreStore_cached {b : Block} {c a : Nat} {bs : List Byte} {l : CacheLine} (hn : 0 < bs.length) (h : a % 64 + bs.length ≤ 64)
    (hl : b.cached c (a / 64) = some l) :
    (b.coreStore c a bs).mem = b.mem ∧ (b.coreStore c a bs).cached c (a / 64) = some (l.patch a bs) := by
  unfold Block.coreStore
  rw [linesOf_one hn h, List.foldl_cons, List.foldl_nil]
  simp only [Block.pastCache_cached hl, Bool.false_eq_true, if_false, Block.fillLine_cached hl]
  exact ⟨rfl, by simp [Block.cached, Block.cached_line hl, CacheLine.patch]⟩

/-- A slice within a list. -/
theorem slice_eq_take (bs : List Byte) {i n : Nat} (h : i + n ≤ bs.length) : slice bs i n = (bs.drop i).take n := by
  unfold slice
  have e : ((bs.drop i).take n).length = n := by
    rw [List.length_take, List.length_drop]
    omega
  simp only [e, Nat.sub_self, List.replicate_zero, List.append_nil]

/-- The bytes put into a line are read back from it. -/
theorem CacheLine.slice_patch (l : CacheLine) {a : Nat} {bs : List Byte} (hl : l.line = a / 64) (h : a % 64 + bs.length ≤ 64) :
    slice (l.patch a bs).data (a % 64) bs.length = bs := by
  have hlen : (l.patch a bs).data.length = 64 := by simp [CacheLine.patch]
  rw [slice_eq_take _ (by omega)]
  apply List.ext_getElem
  · rw [List.length_take, List.length_drop]
    omega
  · intro i _ hi
    have e : l.line * 64 + (a % 64 + i) = a + i := by omega
    simp [CacheLine.patch, e, hi]

/-- A core reads back what it has just written to a line that its cache holds, whatever answer it got. -/
theorem Block.coreLoad_coreStore_cached {b : Block} {c a : Nat} {bs : List Byte} (hn : 0 < bs.length) (h : a % 64 + bs.length ≤ 64)
    (hany : (b.core c).dcache.any (fun x => x.line == a / 64) = true) (m : Nat) (r : Response) :
    (((b.coreStore c a bs).answer m r).coreLoad c a bs.length).1 = bs ∧ (b.coreStore c a bs).mem = b.mem := by
  obtain ⟨l, hl⟩ := Block.cached_of_any hany
  obtain ⟨hmem, hstored⟩ := Block.coreStore_cached hn h hl
  have hread : ((b.coreStore c a bs).answer m r).cached c (a / 64) = some (l.patch a bs) := hstored
  exact ⟨by rw [Block.coreLoad_cached hn h hread, l.slice_patch (Block.cached_line hl) h], hmem⟩

/-! ### A master's writes -/

/-- A permitted write of the scratch memory or DRAM by a fabric core goes to its data cache. -/
theorem Block.masterWrite_core {b : Block} {m addr n v o : Nat} {r : Region} (hr : busRegion addr n = some (r, o))
    (hk : r = .scratch ∨ r = .dram) (hc : isCore m = true) (h1 : b.masterReady m = true) (h2 : b.accOk m addr n true = true) :
    b.masterWrite m addr n v = (b.coreStore (m - 4) addr (leBytes n v)).answer m .written := by
  have e : b.busStore m addr n v = (.written, b.coreStore (m - 4) addr (leBytes n v)) := by
    unfold Block.busStore
    rw [hr]
    rcases hk with rfl | rfl <;> simp only [hc, if_true]
  unfold Block.masterWrite
  rw [if_neg (by simp [h1]), if_neg (by simp [h2]), e]
  rfl

/-- A permitted write of MRAM, by any master. -/
theorem Block.masterWrite_mram {b : Block} {m addr n v o : Nat} (hr : busRegion addr n = some (.mram, o))
    (h1 : b.masterReady m = true) (h2 : b.accOk m addr n true = true) :
    b.masterWrite m addr n v = (b.storeN addr n v).answer m .written := by
  have e : b.busStore m addr n v = (.written, b.storeN addr n v) := by
    unfold Block.busStore
    rw [hr]
  unfold Block.masterWrite
  rw [if_neg (by simp [h1]), if_neg (by simp [h2]), e]
  rfl

/-- A permitted write that goes past the data caches stores its bytes. -/
theorem Block.masterWrite_stores {b : Block} {m addr n v o : Nat} {r : Region} (hn : 0 < n) (hr : busRegion addr n = some (r, o))
    (hk : r = .mram ∨ ((r = .scratch ∨ (r = .dram ∧ b.mem.raw = [])) ∧ isCore m = false))
    (h1 : b.masterReady m = true) (h2 : b.accOk m addr n true = true) :
    b.masterWrite m addr n v = (b.storeN addr n v).answer m .written := by
  rcases hk with rfl | ⟨rfl | ⟨rfl, hraw⟩, hc⟩
  · exact Block.masterWrite_mram hr h1 h2
  · rw [Block.masterWrite_memory hr (.inr (.inl rfl)) hc h1 h2, if_neg (by decide), b.partialFound_scratch hn hr]
  · rw [Block.masterWrite_memory hr (.inr (.inr rfl)) hc h1 h2, if_neg (by decide), Block.partialFound_clean hraw]

/-- An access has at least one byte. -/
theorem width_pos_of_wf {w : Nat} (h : Wf.width w = true) : 0 < w := by
  rcases Nat.eq_zero_or_pos w with rfl | hw
  · cases h
  · exact hw

/-- REGISTER_WRITE completes as its master's write. -/
theorem Completes.registerWrite {s : State} {t m addr width value : Nat} {P : Block → Prop} (hm : m < 55) (hw : Wf.width width = true)
    (hp : P ((s.at t).masterWrite m addr width (value % 2 ^ (8 * width)))) : Completes (.registerWrite t m addr width value) s P := by
  have hwf : (Wf.master m && Wf.width width) = true := by
    rw [hw, Bool.and_true]
    exact decide_eq_true hm
  exact Completes.runIf (show exec _ s = execRegisterWrite t m addr width value s from rfl) hwf hp

/-- Settles O10: past the caches the bytes go to memory, in a core's cache to its line. -/
theorem memoryWriteStoresItsBytes : Obligations.MemoryWriteStoresItsBytes := by
  refine ⟨fun t m addr width value o r s hm hw h1 h2 hr hk => ?_, fun t m addr width value o r s hc hw h1 h2 hr hk hl hany => ?_⟩
  · apply Completes.registerWrite hm hw
    rw [Block.masterWrite_stores (b := s.at t) (width_pos_of_wf hw) hr hk h1 h2]
    have htouch : Touches [.t7, .cells, .poison, .resp] s.blk
        (((s.at t).storeN addr width (value % 2 ^ (8 * width))).answer m .written) :=
      (((s.blk.clock_touches t).weaken rfl).trans ((s.at t).storeN_touches ..) rfl).trans (Block.answer_touches ..) rfl
    refine ⟨fun i hi => ?_, fun a ha => (s.at t).load8_storeN_other _ _ _ _ ha, rfl, Block.answer_resp .., htouch⟩
    refine ((s.at t).load8_storeN addr width _ i hi).trans ?_
    rw [← leBytes_getD width _ i 0 hi, leBytes_mod, leBytes_getD width value i 0 hi]
  · have hm : m < 55 := by
      simp only [isCore, Bool.and_eq_true, decide_eq_true_eq] at hc
      omega
    apply Completes.registerWrite hm hw
    rw [Block.masterWrite_core (b := s.at t) hr hk hc h1 h2]
    generalize value % 2 ^ (8 * width) = v
    have hlen : (leBytes width v).length = width := leBytes_length width v
    obtain ⟨hread, hmem⟩ := Block.coreLoad_coreStore_cached (bs := leBytes width v) (by rw [hlen]; exact width_pos_of_wf hw)
      (by rwa [hlen]) hany m .written
    rw [hlen] at hread
    exact ⟨hread, hmem, Block.answer_resp ..⟩

end Sys2Proof.Machine
end

section
/-! PROOFS. Reads that clear their fields and reads that latch other words (O11). -/

namespace Sys2Proof.Machine

/-! ### Latches -/

/-- Values put at places of their own: what a place reads that is none of them. -/
theorem Tbl.get_putAll_other {α : Type} [DecidableEq α] {l : List Nat} (key : Nat → Nat) (f : Nat → α) (d : α) (c : Tbl α) {j : Nat}
    (h : ∀ o ∈ l, key o ≠ j) : Tbl.get (l.foldl (fun c o => Tbl.put c (key o) (f o) d) c) j d = Tbl.get c j d := by
  induction l generalizing c with
  | nil => rfl
  | cons o r ih =>
    rw [List.foldl_cons, ih _ (fun p hp => h p (List.mem_cons_of_mem o hp))]
    exact Tbl.get_put_other _ _ _ _ _ _ (h o List.mem_cons_self).symm

/-- And what one of them reads. -/
theorem Tbl.get_putAll {α : Type} [DecidableEq α] {l : List Nat} {key : Nat → Nat} (hk : Function.Injective key) (f : Nat → α) (d : α)
    (c : Tbl α) {o : Nat} (ho : o ∈ l) : Tbl.get (l.foldl (fun c o => Tbl.put c (key o) (f o) d) c) (key o) d = f o := by
  induction l generalizing c with
  | nil => cases ho
  | cons p r ih =>
    rw [List.foldl_cons]
    by_cases hr : o ∈ r
    · exact ih _ hr
    · obtain rfl : o = p := (List.mem_cons.mp ho).resolve_right hr
      rw [Tbl.get_putAll_other key f d _ (fun q hq e => hr ((hk e : q = o) ▸ hq))]
      exact Tbl.get_put_same ..

/-- Of one window, two offsets never share a key. -/
theorem regKey_injective (blk sp i : Nat) : Function.Injective (regKey blk sp i) := by
  intro o p h
  unfold regKey at h
  omega

/-- A latching read takes the other words of its group as they are (R53). -/
theorem Block.takeLatch_get (b : Block) {blk sp inst off m o : Nat} (h : o ∈ Reg.latches blk sp off) :
    Tbl.get (b.takeLatch blk sp inst off m).latch (regKey blk sp inst o) 0 = w32 (b.live blk sp inst o m) :=
  Tbl.get_putAll (regKey_injective blk sp inst) (fun o => w32 (b.live blk sp inst o m)) 0 b.latch h

/-! ### RC fields -/

/-- A register with RC fields is one of 32 bits with one field, does not stand where SEL does, and its SAT flag stands in another
register. -/
def RegDesc.rcOk (d : RegDesc) : Bool :=
  !d.fields.any (fun f => f.acc == .rc) ||
    (!d.w64 && d.fields.length == 1 && decide (0 < d.off) &&
      d.sat.all (fun p => decide (p.1 < 65536) && (List.range d.n).all (fun k => d.off + d.stride * k != p.1)))

/-- The tables' RC registers are such ones. -/
theorem Reg.tables_rcOk : ∀ blk, blk < 25 → (Reg.tables blk).all RegDesc.rcOk = true := by decide +kernel

/-- What the check of the tables says of an RC register. -/
theorem RegDesc.rcOk_spec {d : RegDesc} (h : d.rcOk = true) (hrc : d.fields.any (fun f => f.acc == .rc) = true) :
    d.w64 = false ∧ (∃ f, d.fields = [f] ∧ f.acc = .rc) ∧ 0 < d.off ∧ ∀ p, d.sat = some p → p.1 < 65536 ∧ ∀ k, k < d.n → d.off + d.stride * k ≠ p.1 := by
  unfold RegDesc.rcOk at h
  rw [hrc] at h
  simp only [Bool.not_true, Bool.false_or, Bool.and_eq_true, Bool.not_eq_true', beq_iff_eq, decide_eq_true_eq, List.length_eq_one_iff] at h
  obtain ⟨⟨⟨hw, f, hf⟩, ho⟩, hs⟩ := h
  refine ⟨hw, ⟨f, hf, by simpa [hf] using hrc⟩, ho, ?_⟩
  intro p hp
  simpa [hp] using hs

/-- The bits of a field cleared in a word. -/
theorem fld_clear (w : Word) {hi lo : Nat} (h : lo ≤ hi) (h' : hi < 32) : fld (w &&& ~~~w32 (2 ^ (hi + 1) - 2 ^ lo)) hi lo = 0 := by
  have e : 2 ^ (hi + 1) - 2 ^ lo = 2 ^ lo * (2 ^ (hi + 1 - lo) - 1) := by
    rw [Nat.mul_sub, ← Nat.pow_add, Nat.mul_one]
    congr 2
    omega
  apply Nat.eq_of_testBit_eq
  intro i
  unfold fld bits w32
  rw [Nat.testBit_mod_two_pow, Nat.testBit_div_two_pow, Nat.zero_testBit, BitVec.testBit_toNat, BitVec.getLsbD_and, BitVec.getLsbD_not,
    BitVec.getLsbD_ofNat, e, Nat.testBit_two_pow_mul, Nat.testBit_two_pow_sub_one]
  by_cases hi' : i < hi + 1 - lo
  · have h1 : i + lo < 32 := by omega
    simp [hi', h1]
  · simp [hi']

/-- The RC bits of a register whose only field is RC. -/
theorem RegDesc.mask_rc {d : RegDesc} {f : FieldDesc} (hf : d.fields = [f]) (hr : f.acc = .rc) :
    d.mask (· == .rc) = 2 ^ (f.hi + 1) - 2 ^ f.lo := by
  unfold RegDesc.mask
  rw [hf]
  simp [hr]

/-- What an RC read leaves of a register: the RC bits cleared, this cycle's increments counted (R9). -/
def Block.rcLeft (b : Block) (x : RegAt) : Word :=
  (b.vis x.desc x.idx x.k &&& ~~~w32 (x.desc.mask (· == .rc))) ||| w32 (min (b.fresh x.key).2 0xFFFFFFFF)

/-- A SAT flag that is cleared leaves the registers elsewhere. -/
theorem Block.clearBit_vis (b : Block) (key n : Nat) (d : RegDesc) (i k : Nat) (h : d.key i k ≠ key) :
    (b.clearBit key n).vis d i k = b.vis d i k := Tbl.get_put_other _ _ _ _ _ _ h

/-- What a register reads after its RC read, its SAT flag standing elsewhere. -/
theorem Block.rcClear_vis (b : Block) (x : RegAt) (hrc : x.desc.fields.any (fun f => f.acc == .rc) = true)
    (hs : ∀ p, x.desc.sat = some p → x.desc.key x.idx x.k ≠ regKey x.desc.blk (x.desc.spaces.headD 15) x.idx p.1) :
    (b.rcClear x).vis x.desc x.idx x.k = b.rcLeft x := by
  unfold Block.rcClear
  dsimp only
  rw [if_pos hrc]
  split
  · rename_i off s hsat
    rw [Block.clearBit_vis _ _ _ _ _ _ (hs _ hsat)]
    exact Tbl.get_put_same ..
  · exact Tbl.get_put_same ..

/-! ### A master's reads -/

/-- The control registers whose read does more than clear RC fields and latch words. -/
def Reg.actingReads : List (Nat × Nat × Nat) := [(1, 0, 0x58), (9, 15, 0x41C), (11, 0, 0x100), (23, 15, 0x418)]

/-- The read of any other register. -/
theorem Block.regRead_plain {b : Block} {m blk off : Nat} {x : RegAt} (hx : b.locate blk off m = some x)
    (ha : Reg.actingReads.contains (blk, x.space, x.desc.off) = false) :
    b.regRead m blk off = (b.rcValue x (b.peek blk x.space x.inst off m), (b.takeLatch blk x.space x.inst off m).rcClear x) := by
  unfold Block.regRead
  rw [hx]
  dsimp only
  split
  case h_5 => rfl
  all_goals simp_all [Reg.actingReads]

/-- RC_READ and LATCHING_READ of a control register complete as the read of it, SEL's advance and the answer. -/
theorem Completes.controlRead {c : Instr} {s : State} {t m blk off : Nat} {P : Block → Prop}
    (hc : exec c s = execRcRead t m (0xF0000000 + 65536 * blk + off) 4 s) (hb : blk < 25) (ho : off < 65536) (ha : off % 4 = 0)
    (hq : queueReg (65536 * blk + off) = false) (hm : s.blk.mayRead m blk off)
    (hp : P ((((s.at t).regRead m blk off).2.advance m blk off).answer m (.value ((s.at t).regRead m blk off).1))) : Completes c s P := by
  refine Completes.runIf hc (by rw [Wf.master, decide_eq_true hm.1]; rfl) ?_
  rwa [Block.masterRead_control hb ho ha hq (Block.mayRead_clock hm t)]

/-- Where no increment of this cycle stands, an RC read answers the value (R9). -/
theorem Block.rcValue_eq (b : Block) (x : RegAt) (v : Nat) (h : x.desc.fields.any (fun f => f.acc == .rc) = false ∨ (b.fresh x.key).2 = 0) :
    b.rcValue x v = v := by
  unfold Block.rcValue
  exact if_neg (by rintro ⟨h1, h2⟩; rcases h with h | h <;> simp_all)

/-- Otherwise the value before it. -/
theorem Block.rcValue_fresh (b : Block) (x : RegAt) (v : Nat) (h : x.desc.fields.any (fun f => f.acc == .rc) = true)
    (h' : (b.fresh x.key).2 ≠ 0) : b.rcValue x v = (b.fresh x.key).1.toNat := if_pos ⟨h', h⟩

/-- What a register with RC fields reads after its RC read by a master. -/
theorem Block.vis_after_rcRead {b : Block} {m blk off : Nat} {x : RegAt} (hb : blk < 25) (hx : b.locate blk off m = some x)
    (hrc : x.desc.fields.any (fun f => f.acc == .rc) = true) (v : Nat) :
    ((((b.takeLatch blk x.space x.inst off m).rcClear x).advance m blk off).answer m (.value v)).vis x.desc x.idx x.k = b.rcLeft x := by
  obtain ⟨hd, hoff, hk⟩ := Block.locate_spec hx
  obtain ⟨-, -, ho, hsat⟩ := RegDesc.rcOk_spec (List.all_eq_true.mp (Reg.tables_rcOk blk hb) _ hd) hrc
  obtain ⟨-, -, hend, hstride⟩ := Reg.table_spec hb hd
  have hlt : x.desc.off + x.desc.stride * x.k < 65536 := by
    have := Nat.mul_lt_mul_of_pos_left hk hstride
    omega
  rw [Block.answer_vis, Block.advance_vis _ _ _ _ _ _ _ hlt (by omega), Block.rcClear_vis _ _ hrc]
  · rfl
  · intro p hp e
    obtain ⟨hp1, hp2⟩ := hsat p hp
    apply hp2 x.k hk
    rw [← x.desc.key_mod x.idx x.k hlt, e]
    unfold regKey
    omega

/-- The RC read of a register whose reads do no more: its answer, the cleared fields, the increments that stay counted (R5, R9). -/
theorem rcRead_clears {t m blk off : Nat} {s : State} {x : RegAt} (hb : blk < 25) (ho : off < 65536) (ha : off % 4 = 0)
    (hq : queueReg (65536 * blk + off) = false) (hm : s.blk.mayRead m blk off) (hx : (s.at t).locate blk off m = some x)
    (hr : Reg.actingReads.contains (blk, x.space, x.desc.off) = false) :
    Completes (.rcRead t m (0xF0000000 + 65536 * blk + off) 4) s (fun b =>
      let n := ((s.at t).fresh x.key).2
      let rc := x.desc.fields.any (fun f => f.acc == .rc)
      ((rc = false ∨ n = 0) → Tbl.get b.resp m (.value 0) = .value ((s.at t).peek blk x.space x.inst off m)) ∧
      (rc = true → n ≠ 0 → Tbl.get b.resp m (.value 0) = .value ((s.at t).fresh x.key).1.toNat) ∧
      (rc = true → n = 0 → ∀ f ∈ x.desc.fields, f.acc = .rc → fld (b.vis x.desc x.idx x.k) f.hi f.lo = 0) ∧
      (x.desc.fields = [⟨"V", 31, 0, .rc, [], []⟩] → (b.vis x.desc x.idx x.k).toNat = min n 0xFFFFFFFF)) := by
  apply Completes.controlRead rfl hb ho ha hq hm
  rw [Block.regRead_plain hx hr]
  dsimp only
  rw [Block.answer_resp]
  refine ⟨fun h => ?_, fun h h' => ?_, fun h h' f hf _ => ?_, fun h => ?_⟩
  · rw [Block.rcValue_eq _ _ _ h]
  · rw [Block.rcValue_fresh _ _ _ h h']
  · obtain ⟨hd, -, -⟩ := Block.locate_spec hx
    obtain ⟨hw, ⟨g, hg, hgr⟩, -, -⟩ := RegDesc.rcOk_spec (List.all_eq_true.mp (Reg.tables_rcOk blk hb) _ hd) h
    obtain rfl : f = g := List.mem_singleton.mp (hg ▸ hf)
    have hok := (Reg.table_spec hb hd).1.resolve_left (by simp [hw])
    obtain ⟨hlo, hhi⟩ := ((RegDesc.fieldsOk_iff _).mp hok).1 f hf
    rw [Block.vis_after_rcRead hb hx h, Block.rcLeft, RegDesc.mask_rc hg hgr, h', Nat.zero_min, show w32 0 = 0#32 from rfl, BitVec.or_zero]
    exact fld_clear _ hlo hhi
  · rw [Block.vis_after_rcRead hb hx (by rw [h]; rfl), Block.rcLeft, RegDesc.mask_rc h rfl, show ~~~w32 (2 ^ (31 + 1) - 2 ^ 0) = 0#32 from rfl,
      BitVec.and_zero, BitVec.zero_or, w32_min_toNat]

/-- A read that latches: its answer, and the other words of its group as they are at that instant (R53). -/
theorem latchingRead_latches {t m blk off : Nat} {s : State} {x : RegAt} (hb : blk < 25) (ho : off < 65536) (ha : off % 4 = 0)
    (hq : queueReg (65536 * blk + off) = false) (hm : s.blk.mayRead m blk off) (hx : (s.at t).locate blk off m = some x)
    (hr : Reg.actingReads.contains (blk, x.space, x.desc.off) = false) :
    Completes (.latchingRead t m (0xF0000000 + 65536 * blk + off) 4) s (fun b =>
      Tbl.get b.resp m (.value 0) = .value ((s.at t).rcValue x ((s.at t).peek blk x.space x.inst off m)) ∧
      ∀ o ∈ Reg.latches blk x.space off, Tbl.get b.latch (regKey blk x.space x.inst o) 0 = w32 ((s.at t).live blk x.space x.inst o m)) := by
  apply Completes.controlRead rfl hb ho ha hq hm
  rw [Block.regRead_plain hx hr]
  refine ⟨Block.answer_resp .., fun o h => ?_⟩
  have hl : ((s.at t).takeLatch blk x.space x.inst off m).latch =
      (((s.at t).takeLatch blk x.space x.inst off m).rcClear x).latch := ((Block.rcClear_touches _ x).keeps .latch rfl).symm
  rw [Block.answer_latch, Block.advance_latch, ← hl]
  exact (s.at t).takeLatch_get h

/-- The read of DFE.MS_USED restarts the peak. -/
theorem Block.regRead_msUsed (b : Block) (m : Nat) :
    b.regRead m 9 0x41C = (b.peek 9 15 0 0x41C m, { b with dfe := { b.dfe with peak := b.dfe.store.length } }) := by
  have hx : b.locate 9 0x41C m = some ⟨Reg.DFE_MS_USED, 0, 0, 15, 0⟩ := rfl
  unfold Block.regRead
  rw [hx]
  rfl

/-- The read of PWR.TEMP_MAX restarts the peak. -/
theorem Block.regRead_tempMax (b : Block) (m : Nat) :
    b.regRead m 23 0x418 = (b.peek 23 15 0 0x418 m, { b with pwr := { b.pwr with tempMax := none } }) := by
  have hx : b.locate 23 0x418 m = some ⟨Reg.PWR_TEMP_MAX, 0, 0, 15, 0⟩ := rfl
  unfold Block.regRead
  rw [hx]
  rfl

/-- Settles O11: the registers whose read does no more than clear and latch, and the two peaks. -/
theorem readsClearAndLatch : Obligations.ReadsClearAndLatch := by
  refine ⟨fun t m blk off s x hb ho ha hq hm hx hr => ⟨rcRead_clears hb ho ha hq hm hx hr, latchingRead_latches hb ho ha hq hm hx hr⟩,
    fun t m s hm => ?_, fun t m s hm => ?_⟩
  · refine Completes.controlRead (blk := 9) (off := 0x41C) rfl (by decide) (by decide) rfl rfl hm ?_
    rw [Block.regRead_msUsed]
    exact ⟨Block.answer_resp .., by rw [Block.answer_dfe, Block.advance_dfe]; rfl⟩
  · refine Completes.controlRead (blk := 23) (off := 0x418) rfl (by decide) (by decide) rfl rfl hm ?_
    rw [Block.regRead_tempMax]
    exact ⟨Block.answer_resp .., by rw [Block.answer_pwr, Block.advance_pwr]⟩

end Sys2Proof.Machine
end

section
/-! PROOFS. A basin's open with a ring position that is listed twice (O13), the tokens that an expiry leaves (O14). -/

namespace Sys2Proof.Machine

/-- What a command that names its instances completes with is what its effect leaves. -/
theorem Completes.of_runIf {c : Instr} {s : State} {t : Nat} {w : Bool} {f : Block → Block} {P : Block → Prop}
    (hc : exec c s = s.runIf w t f) (hw : w = true) (h : Completes c s P) : P (f (s.at t)) := by
  obtain ⟨u, hu, -, hp⟩ := h
  rw [hc, State.runIf_eq s hw, Host.Outcome.next.injEq] at hu
  subst hu
  exact hp

/-! ### The open of a basin (R15, R96) -/

/-- TICK is the tick of its ring. -/
theorem exec_tick (t r : Nat) (s : State) : exec (.tick t r) s = s.runIf (Wf.ring r) t (fun b => b.tick r) := rfl

/-- An open basin of slot 3 with the mark of context 1. -/
def markedAtSlot3 : Basin := { Basin.reset with st := .opened, seq := 3, slot := 3, bmp := 2 }

/-- The main ring runs, basin 7 is next, and its table lists the one position twice: FREE, then with a basin of slot 3, for which a second
record of context 1 waits (R97). -/
def positionListedTwice : State :=
  let b := Block.reset.setBoth Reg.ALN_RING_CFG 0 0 (w32 0x80000000)
  { State.reset with blk := { b with
      aln := { b.aln with rings := [(0, { Ring.reset with
        run := true, nextSeq := 7, nextSlot := 7, pos := [(0, Basin.reset), (0, markedAtSlot3)] })] }
      str := { b.str with offers := [⟨0, 3, 1, 0, [], [], none, 0, 0, 0, 0, 0, false, false⟩] } } }

/-- The ring runs, and the tick of slot time 5 has come. -/
theorem positionListedTwice_due :
    (positionListedTwice.blk.ring 0).run = true ∧ positionListedTwice.blk.red.role ≠ 6 ∧
    slotTime (positionListedTwice.blk.ringRate 0) ((positionListedTwice.blk.ring 0).nextSlot - 2) ≤ (positionListedTwice.at 0).now := by
  decide +kernel

/-- The basin of slot 7 takes the first entry of the position; then the record that waited is a duplicate of the second entry's basin, which
is counted and put at its position: over the basin that has just opened. -/
theorem positionListedTwice_tick :
    (((positionListedTwice.at 0).tick 0).ring 0).pos.map (fun e => (e.1, e.2.seq, e.2.dups)) = [(0, 3, 1), (0, 3, 0)] := by
  decide +kernel

/-- Refutes O13: its TICK speaks of every state, also of one whose table of ring positions is not in canonical form. In
`positionListedTwice` the basin that opens is lost again in the same command, to a record that waited for a claim. -/
theorem not_basinsOpenAndClose : ¬ Obligations.BasinsOpenAndClose := by
  rintro ⟨htick, -⟩
  obtain ⟨hrun, hrole, hdue⟩ := positionListedTwice_due
  have h := htick 0 0 positionListedTwice (by decide) hrun hrole hdue
  obtain ⟨-, -, hopen⟩ := Completes.of_runIf (exec_tick ..) rfl h
  obtain ⟨e, he, hbasin⟩ := List.any_eq_true.mp hopen
  have hseq : e.2.seq = 7 := by
    simp only [Bool.and_eq_true, beq_iff_eq] at hbasin
    exact hbasin.1.2
  have hlisted := List.mem_map_of_mem (f := fun e : Nat × Basin => (e.1, e.2.seq, e.2.dups)) he
  rw [positionListedTwice_tick, hseq] at hlisted
  simp at hlisted

/-! ### The expiry of a tag (R23, R218, R226) -/

/-- A tick-class op of the main ring: port 0 takes its CLOSE token, port 1 its state from tag to tag (R217). -/
def carryOp : OpDef := ⟨.scalarCmp, 0, false, 0, 0, [0, 1], [1], true, [[.op 0 1]], []⟩

/-- A carry token of tag 3 for that op. -/
def carryOfTag3 : Token := ⟨0, 1, 3, 0, 0, false, false, 0, 1, [], 0⟩

/-- Tag 4 of the main ring is due to expire, and a firing of tag 4 that a core gave back (R226) holds the carry token of tag 3. -/
def returnedWithOlderToken : State :=
  { State.reset with blk := { Block.reset with dfe := { Dfe.reset with
      graph := [(0, carryOp)]
      back := [⟨0, 4, [carryOfTag3], false, 0, 0, false⟩]
      closedTag := [(0, some 4)] } } }

/-- No core has a firing, so none has one with an input of another tag. -/
theorem returnedWithOlderToken_firingTags : returnedWithOlderToken.blk.firingTags :=
  fun _ _ => ⟨fun _ hf => absurd hf List.not_mem_nil, fun f hf => absurd hf (Option.not_mem_none f)⟩

/-- The expiry hands that token on from its own tag to the next, which is the tag that expires. -/
theorem returnedWithOlderToken_store :
    ((returnedWithOlderToken.at 0).tagExpiry 0).dfe.store = [{ carryOfTag3 with tag := 4, gap := 1 }] := by
  decide +kernel

/-- Refutes O14: `Block.firingTags` speaks of the firings that cores hold and not of those that they gave back (R226), whose carry
tokens an expiry hands on too. In `returnedWithOlderToken` one of these is of the tag before, so the expiry of tag 4 leaves a tick-class
token of tag 4. -/
theorem not_basinsAreMarkedAndEnd : ¬ Obligations.BasinsAreMarkedAndEnd := by
  rintro ⟨-, hexpiry, -⟩
  have h := hexpiry 0 0 4 returnedWithOlderToken (by decide) rfl rfl returnedWithOlderToken_firingTags
  obtain ⟨-, hstore⟩ := Completes.of_runIf rfl rfl h
  have hleft : { carryOfTag3 with tag := 4, gap := 1 } ∈ ((returnedWithOlderToken.at 0).tagExpiry 0).dfe.store := by
    rw [returnedWithOlderToken_store]
    exact List.mem_singleton_self _
  exact Bool.false_ne_true (hstore _ hleft rfl rfl)

end Sys2Proof.Machine
end

section
/-! PROOFS. What counters, interrupts and events leave of the registers, and what the operations of PRT leave of a port's record. -/

namespace Sys2Proof.Machine

/-! ### Registers -/

/-- A bit of a number is the library's. -/
theorem bit_eq_testBit (v i : Nat) : bit v i = v.testBit i := by
  rw [Nat.testBit_eq_decide_div_mod_eq]
  rfl

/-- A bit that an event sets leaves the registers elsewhere. -/
theorem Block.raiseBit_other (b : Block) {key j : Nat} (n : Nat) (rst d : Word) (h : j ≠ key) :
    Tbl.get (b.raiseBit key n rst).regs.vis j d = Tbl.get b.regs.vis j d := Tbl.get_put_other _ _ _ _ _ _ h

/-- And a counter does, its SAT flag standing elsewhere too. -/
theorem Block.count_other (b : Block) (c : RegDesc) (i k n : Nat) {j : Nat} (d : Word) (h : j ≠ c.key i k)
    (hs : ∀ p, c.sat = some p → j ≠ regKey c.blk (c.spaces.headD 15) i p.1) :
    Tbl.get (b.count c i k n).regs.vis j d = Tbl.get b.regs.vis j d := by
  unfold Block.count
  dsimp only
  split
  · exact Tbl.get_put_other _ _ _ _ _ _ h
  · split
    · rename_i off s hsat
      exact (Block.raiseBit_other _ _ _ _ (hs _ hsat)).trans (Tbl.get_put_other _ _ _ _ _ _ h)
    · exact Tbl.get_put_other _ _ _ _ _ _ h

/-- The block of a register's key. -/
theorem keyBlk_regKey {blk sp i off : Nat} (hs : sp < 16) (hi : i < 1048576) (ho : off < 65536) : keyBlk (regKey blk sp i off) = blk := by
  unfold keyBlk regKey
  omega

/-- A counter of another block than a register's leaves it, its SAT flag standing in that block too. -/
theorem Block.count_otherBlk (b : Block) (c : RegDesc) {i : Nat} (k n : Nat) {j : Nat} (d : Word) (h : keyBlk j ≠ c.blk) (hi : i < 1048576)
    (hc : c.spaces.headD 15 < 16 ∧ c.off + c.stride * k < 65536 ∧ ∀ p ∈ c.sat, p.1 < 65536) :
    Tbl.get (b.count c i k n).regs.vis j d = Tbl.get b.regs.vis j d := by
  obtain ⟨hsp, hoff, hsat⟩ := hc
  refine b.count_other c i k n d (ne_of_apply_ne keyBlk ?_) (fun p hp => ne_of_apply_ne keyBlk ?_)
  · rwa [RegDesc.key, keyBlk_regKey hsp hi hoff]
  · rwa [keyBlk_regKey hsp hi (hsat p hp)]

section events
variable (b : Block) {j : Nat} (d : Word) (h16 : keyBlk j ≠ 16) (h22 : keyBlk j ≠ 22)
include h22

/-- A lost event counts in EVR. -/
theorem Block.lostInFreeze_other (seq : Nat) : Tbl.get (b.lostInFreeze seq).regs.vis j d = Tbl.get b.regs.vis j d :=
  Block.count_otherBlk _ Reg.EVR_FREEZE_LOST 0 1 d h22 (by decide) (by decide)

include h16

/-- An event of a freeze changes registers of QUE and EVR only. -/
theorem Block.holdEvent_other (e : Event) : Tbl.get (b.holdEvent e).regs.vis j d = Tbl.get b.regs.vis j d := by
  unfold Block.holdEvent
  dsimp only
  split
  · exact (Block.lostInFreeze_other _ d h22 _).trans (Block.count_otherBlk _ Reg.QUE_WR_DISABLED 0 8 d h16 (by decide) (by decide))
  · split
    · exact Block.lostInFreeze_other _ d h22 _
    · split
      · have hstatus : keyBlk (Reg.QUE_STATUS.key 4 0) = 16 := keyBlk_regKey (by decide) (by decide) (by decide)
        have hirq : keyBlk (regKey Blk.que 15 0 0x400) = 16 := keyBlk_regKey (by decide) (by decide) (by decide)
        refine (Block.lostInFreeze_other _ d h22 _).trans ?_
        refine (Block.raiseBit_other _ _ _ _ (ne_of_apply_ne keyBlk (by rwa [hirq]))).trans ?_
        refine (Block.raiseBit_other _ _ _ _ (ne_of_apply_ne keyBlk (by rwa [hstatus]))).trans ?_
        exact Block.count_otherBlk _ Reg.QUE_OVERRUN_ITEMS 0 8 d h16 (by decide) (by decide)
      · exact Block.count_otherBlk _ Reg.QUE_PUSHES 0 8 d h16 (by decide) (by decide)

/-- An event changes registers of QUE and EVR only. -/
theorem Block.event_other (code src a0 a1 : Nat) : Tbl.get (b.event code src a0 a1).regs.vis j d = Tbl.get b.regs.vis j d := by
  have hc : Tbl.get (b.count Reg.EVR_EVENTS).regs.vis j d = Tbl.get b.regs.vis j d :=
    b.count_otherBlk Reg.EVR_EVENTS 0 1 d h22 (by decide) (by decide)
  unfold Block.event Block.eventAt
  dsimp only
  split
  · exact (Block.holdEvent_other _ d h16 h22 _).trans hc
  · split
    · exact hc
    · exact (Block.count_otherBlk _ Reg.EVR_IN_LOST 0 1 d h22 (by decide) (by decide)).trans hc

end events

/-- An interrupt of PRT that is raised shows in IRQ_STATUS, and an event after it leaves it there (R449). -/
theorem Block.irqStatus_event (b : Block) {n : Nat} (hn : n < 32) (code src a0 a1 : Nat) :
    bit (((b.irq Blk.prt n).event code src a0 a1).vis Reg.PRT_IRQ_STATUS).toNat n = true := by
  have hs : (b.irq Blk.prt n).vis Reg.PRT_IRQ_STATUS = b.vis Reg.PRT_IRQ_STATUS ||| BitVec.twoPow 32 n := Tbl.get_put_same ..
  have he : ((b.irq Blk.prt n).event code src a0 a1).vis Reg.PRT_IRQ_STATUS = (b.irq Blk.prt n).vis Reg.PRT_IRQ_STATUS :=
    Block.event_other _ _ (by decide) (by decide) ..
  rw [he, hs, bit_eq_testBit, BitVec.testBit_toNat]
  simp [hn]

/-! ### A port's record -/

/-- What leaves PRT's part leaves every port. -/
theorem Block.port_congr {a b : Block} (h : b.prt = a.prt) (p : Nat) : b.port p = a.port p := congrArg (Tbl.get · p PrtPort.reset) h

@[simp] theorem Block.count_port (b : Block) (d : RegDesc) (i k n p : Nat) : (b.count d i k n).port p = b.port p :=
  Block.port_congr (by simp) p
@[simp] theorem Block.irq_port (b : Block) (blk n p : Nat) : (b.irq blk n).port p = b.port p := rfl
@[simp] theorem Block.event_port (b : Block) (code src a0 a1 p : Nat) : (b.event code src a0 a1).port p = b.port p :=
  Block.port_congr (by simp) p
@[simp] theorem Block.eventRep_port (b : Block) (key code src a1 p : Nat) : (b.eventRep key code src a1).port p = b.port p :=
  Block.port_congr (by simp) p
@[simp] theorem Block.clock_port (b : Block) (t p : Nat) : (b.clock t).port p = b.port p := rfl

end Sys2Proof.Machine
end

section
/-! PROOFS. Send descriptors cut into the frames of a port (O17). -/

namespace Sys2Proof.Machine

/-- A frame for a port whose link is up joins its queue. -/
theorem Block.enqueue_up {b : Block} {p : Nat} (h : (b.port p).up = true) (e : Egress) :
    (b.enqueue p e).port p = { b.port p with txq := (b.port p).txq ++ [e] } := by
  unfold Block.enqueue
  rw [if_pos h, Block.port_setPort]

/-- Frames do so in their order. -/
theorem Block.enqueueAll_txq {b : Block} {p : Nat} (h : (b.port p).up = true) (cls : Nat) (frames : List (List Byte)) :
    ((b.enqueueAll p cls frames).port p).txq = (b.port p).txq ++ frames.map (fun f => ⟨cls, false, .none, f⟩) := by
  unfold Block.enqueueAll
  induction frames generalizing b with
  | nil => simp
  | cons f r ih =>
    have hq := b.enqueue_up h ⟨cls, false, .none, f⟩
    rw [List.foldl_cons, ih (by rw [hq]; exact h), hq]
    simp

/-- A large send that is not refused has an MSS (R50). -/
theorem Block.mss_of_not_largeRefused {b : Block} {p : Nat} {d : LargeDesc} (h : b.largeRefused p d = false) : d.mss ≠ 0 := by
  rintro hm
  simp [Block.largeRefused, hm] at h

/-- LARGE_SEND: the segments of a descriptor, none of a refused one (R50). -/
theorem Block.largeSend_txq {b : Block} {p : Nat} (h : (b.port p).up = true) (cls : Nat) (d : LargeDesc) :
    ((b.largeSend p cls d).port p).txq = (b.port p).txq ++ (if b.largeRefused p d then [] else
      ((List.range (ceilDiv d.payload.length d.mss)).map (d.segment (ceilDiv d.payload.length d.mss))).map
        (fun f => ⟨cls, false, .none, f⟩)) := by
  unfold Block.largeSend
  split
  · rw [List.append_nil, Block.eventRep_port, Block.count_port]
  · rename_i hr
    rw [if_neg (Block.mss_of_not_largeRefused (by simpa using hr))]
    exact Block.enqueueAll_txq h cls _

/-- UDP_FRAGMENT_SEND: the datagram or the fragments of a descriptor, none of a refused one (R51, R52). -/
theorem Block.udpSend_txq {b : Block} {p : Nat} (h : (b.port p).up = true) (cls : Nat) (d : UdpDesc) :
    ((b.udpSend p cls d).port p).txq = (b.port p).txq ++ (if d.refused then [] else
      (d.frames (b.portMac p) (b.port p).ip6id).1.map (fun f => ⟨cls, false, .none, f⟩)) := by
  unfold Block.udpSend
  split
  · rw [List.append_nil, Block.count_port]
  · rw [Block.enqueueAll_txq (by simpa using h), Block.port_setPort]

/-- A descriptor's command completes as its effect on a port. -/
theorem Completes.onEgress {c : Instr} {s : State} {p cls : Nat} {P : Block → Prop}
    (t : Nat) (f : Block → Block) (hc : exec c s = s.runIf (Wf.port p && Wf.egress cls) t f) (hp : p < 30) (hcls : cls < 4)
    (h : P (f (s.at t))) : Completes c s P :=
  Completes.runIf hc (by simp [Wf.port, Wf.egress, hp, hcls]) h

/-- Settles O17: both commands queue what their descriptor gives. -/
theorem descriptorsAreCutIntoFrames : Obligations.DescriptorsAreCutIntoFrames := by
  refine ⟨fun t p cls d s hp hc h => Completes.onEgress t (·.largeSend p cls d) rfl hp hc ?_,
    fun t p cls d s hp hc h => Completes.onEgress t (·.udpSend p cls d) rfl hp hc ?_⟩
  · exact Block.largeSend_txq (b := s.at t) h cls d
  · exact Block.udpSend_txq (b := s.at t) h cls d

end Sys2Proof.Machine
end

section
/-! PROOFS. Links that come up and go down, modules, settings of a port (O16). -/

namespace Sys2Proof.Machine

/-- A port's record when its link has gone down (R49). -/
def PrtPort.down (x : PrtPort) : PrtPort := if x.up then { x with up := false, speed := 0, txq := [] } else x

@[simp] theorem PrtPort.down_up (x : PrtPort) : x.down.up = false := by
  unfold PrtPort.down
  split
  · rfl
  · simp_all
@[simp] theorem PrtPort.down_modPresent (x : PrtPort) : x.down.modPresent = x.modPresent := by unfold PrtPort.down; split <;> rfl
@[simp] theorem PrtPort.down_cfgRx (x : PrtPort) : x.down.cfgRx = x.cfgRx := by unfold PrtPort.down; split <;> rfl
@[simp] theorem PrtPort.down_cfgTx (x : PrtPort) : x.down.cfgTx = x.cfgTx := by unfold PrtPort.down; split <;> rfl

/-- The queued frames are lost with the link (R44, R49). -/
theorem Block.linkLost_port (b : Block) (p : Nat) (w : Bool) :
    (b.linkLost p w).port p = { b.port p with up := false, speed := 0, txq := [] } := by
  unfold Block.linkLost
  dsimp only
  split <;> split <;> simp

/-- LINK_DOWN of a link that is up. -/
theorem Block.linkDown_eq {b : Block} {p : Nat} (h : (b.port p).up = true) (w : Bool) :
    b.linkDown p w = ((b.linkLost p w).irq Blk.prt p).event 0x0302 p := if_pos h

/-- LINK_DOWN takes a link down that is up, and does nothing to another. -/
@[simp] theorem Block.linkDown_port (b : Block) (p : Nat) (w : Bool) : (b.linkDown p w).port p = (b.port p).down := by
  unfold Block.linkDown PrtPort.down
  split
  · rw [Block.event_port, Block.irq_port, Block.linkLost_port]
  · rfl

/-- Nothing comes up on a port that is OFF or switched off, in HALT, or where the link is up (R30). -/
theorem Block.linkUp_idle {b : Block} {p : Nat} (mbps : Nat) (half : Bool)
    (h : b.sys.mode = .halt ∨ bits (b.port p).cfgRx 3 0 = 0 ∨ (b.port p).powered = false ∨ (b.port p).up = true) :
    b.linkUp p mbps half = b := by
  unfold Block.linkUp
  refine if_pos ?_
  rcases h with hmode | hoff | hunpowered | hup
  · exact .inr (.inr (.inl hmode))
  · exact .inl hoff
  · exact .inr (.inl hunpowered)
  · exact .inr (.inr (.inr hup))

/-- A negotiation result that holds the link down: half duplex, or 10 Mb/s on SGMII (R30). -/
theorem Block.linkUp_refused {b : Block} {p mbps : Nat} {half : Bool} (hm : b.sys.mode ≠ .halt) (hc : bits (b.port p).cfgRx 3 0 ≠ 0)
    (hw : (b.port p).powered = true) (hu : (b.port p).up = false)
    (h : half = true ∨ ((bits (b.port p).cfgRx 3 0 = 3 ∨ bits (b.port p).cfgRx 3 0 = 4) ∧ mbps = 10)) :
    (b.linkUp p mbps half).port p = { b.port p with hdx := true } := by
  unfold Block.linkUp
  dsimp only
  rw [if_neg (by simp [hm, hc, hw, hu]), if_pos h, Block.event_port, Block.port_setPort]

/-- Any other brings the link up at its speed (R30). -/
theorem Block.linkUp_up {b : Block} {p mbps : Nat} {half : Bool} (hm : b.sys.mode ≠ .halt) (hc : bits (b.port p).cfgRx 3 0 ≠ 0)
    (hw : (b.port p).powered = true) (hu : (b.port p).up = false)
    (h : ¬ (half = true ∨ ((bits (b.port p).cfgRx 3 0 = 3 ∨ bits (b.port p).cfgRx 3 0 = 4) ∧ mbps = 10))) :
    b.linkUp p mbps half =
      ((b.setPort p { b.port p with up := true, hdx := false, speed := Prt.speedCode mbps }).irq Blk.prt p).event 0x0301 p := by
  unfold Block.linkUp
  dsimp only
  rw [if_neg (by simp [hm, hc, hw, hu]), if_neg h]

/-- A port under a setting that takes effect in one direction; OFF takes its link down (R31). -/
theorem Block.portCfgApply_port (b : Block) (p : Nat) (tx : Bool) {c : Nat} (hc : (b.vis Reg.PRT_PORT_CFG p).toNat = c) :
    ((b.portCfgApply p tx).port p).cfgTx = (if tx then c else (b.port p).cfgTx) ∧
    ((b.portCfgApply p tx).port p).cfgRx = (if tx then (b.port p).cfgRx else c) ∧
    ((b.portCfgApply p tx).port p).up = if bits c 3 0 = 0 then false else (b.port p).up := by
  unfold Block.portCfgApply
  dsimp only
  rw [hc]
  generalize hy : (if c = (b.port p).cfgTx ∧ c = (b.port p).cfgRx then _ else _ : PrtPort) = y
  have htx : y.cfgTx = if tx then c else (b.port p).cfgTx := by rw [← hy]; cases tx <;> split <;> rfl
  have hrx : y.cfgRx = if tx then (b.port p).cfgRx else c := by rw [← hy]; cases tx <;> split <;> rfl
  have hup : y.up = (b.port p).up := by rw [← hy]; cases tx <;> split <;> rfl
  split
  · simp [htx, hrx]
  · simp [htx, hrx, hup]

/-- A port's command completes as its effect. -/
theorem Completes.onPort {c : Instr} {s : State} {p : Nat} {P : Block → Prop}
    (t : Nat) (f : Block → Block) (hc : exec c s = s.runIf (Wf.port p) t f) (hp : p < 30) (h : P (f (s.at t))) : Completes c s P :=
  Completes.runIf hc (decide_eq_true hp) h

/-- Settles O16: each command leaves the port as its clause says. -/
theorem linksAndModulesChange : Obligations.LinksAndModulesChange := by
  refine ⟨fun t p mbps half s hp hm hc hw hu => Completes.onPort t (·.linkUp p mbps half) rfl hp ?_,
    fun t p mbps half s hp h => Completes.onPort t (·.linkUp p mbps half) rfl hp (Block.linkUp_idle (b := s.at t) mbps half h),
    fun t p w s hp hu => Completes.onPort t (·.linkDown p w) rfl hp ?_,
    fun t p s hp => Completes.onPort t (·.sfpChange p .inserted) rfl hp ?_,
    fun t p w s hp => Completes.onPort t (·.sfpChange p (.removed w)) rfl hp ?_,
    fun t p w s hp hmod => Completes.onPort t (·.cagePower p w) rfl hp ?_,
    fun t p tx s hp => Completes.onPort t (·.portCfgApply p tx) rfl hp ?_⟩
  · split
    · rename_i h
      rw [Block.linkUp_refused (b := s.at t) hm hc hw hu h]
      exact ⟨hu, rfl⟩
    · rename_i h
      rw [Block.linkUp_up (b := s.at t) hm hc hw hu h]
      refine ⟨?_, ?_, ?_, Block.irqStatus_event _ (by omega) ..⟩ <;> simp
  · refine ⟨by simp, by simp [PrtPort.down, hu], ?_⟩
    rw [Block.linkDown_eq (b := s.at t) hu]
    exact Block.irqStatus_event _ (by omega) ..
  · simp [Block.sfpChange]
  · simp [Block.sfpChange]
  · simp [Block.cagePower, hmod]
  · obtain ⟨htx, hrx, hup⟩ := (s.at t).portCfgApply_port p tx rfl
    dsimp only
    rw [htx, hrx, hup]
    cases tx <;> exact ⟨⟨rfl, rfl⟩, fun h => if_pos h, fun h => if_neg h⟩

end Sys2Proof.Machine
end

section
/-! PROOFS. Frames received, forwarded and sent; filter entries committed; two-step entries freed (O15). -/

namespace Sys2Proof.Machine

/-! ### Sending (R44, R48, R53) -/

/-- A frame that needs nothing added leaves with its FCS, and its bytes are counted (R53). -/
theorem Block.sendFrame_port (b : Block) (p : Nat) {e : Egress} (he : e.fix = .none) :
    (b.sendFrame p e).port p = { b.port p with
      txq := (b.port p).txq.erase e, txBytes := ((b.port p).txBytes + e.bytes.length + 4) % 2 ^ 64
      sent := e.bytes ++ leBytes 4 (crc32 e.bytes) } := by
  have hfix (x : Block) : x.fixFrame p e = (e.bytes, x) := by
    unfold Block.fixFrame
    rw [he]
  unfold Block.sendFrame
  dsimp only
  rw [hfix]
  dsimp only
  split <;> simp

/-- The frame that strict priority names is sent on a port whose link is up (R44, R48). -/
theorem Block.transmit_next {b : Block} {p : Nat} {e : Egress} (hu : (b.port p).up = true) (hn : (b.port p).nextFrame = some e) :
    b.transmit p e.fwd = b.sendFrame p e := by
  unfold Block.transmit
  dsimp only
  rw [hn]
  exact if_pos ⟨hu, rfl⟩

/-! ### Filter entries (R38) -/

/-- The register of a filter entry's high word, and its index in its row. -/
def Prt.highWord (e : Nat) : RegDesc × Nat := if e < 16 then (Reg.PRT_UC_HI, e) else (Reg.PRT_MC_HI, e - 16)

/-- It stands where the command writes. -/
theorem Reg.find_filterHigh : ∀ e, e < 48 → Reg.find 2 0 (filterHigh e) = some (Prt.highWord e) := by decide +kernel

/-- It is stored under the port that it belongs to. -/
theorem Block.home_highWord (b : Block) {p : Nat} (hp : p < 30) (e m : Nat) : b.home (Prt.highWord e).1 0 p m = some p := by
  have hin : ¬ Reg.instances 2 0 ≤ p := by
    show ¬ 30 ≤ p
    omega
  unfold Prt.highWord
  split <;> simp [Block.home, Reg.PRT_UC_HI, Reg.PRT_MC_HI, hin]

/-- The register that the command writes, for a master whose SEL names a port. -/
theorem Block.locate_filterHigh {b : Block} {m e p : Nat} (he : e < 48) (hs : b.selInst 2 m 0 = some p) :
    b.locate 2 (filterHigh e) m = some ⟨(Prt.highWord e).1, p, (Prt.highWord e).2, 0, p⟩ := by
  obtain ⟨hsp, hin⟩ : (b.selected 2 m).1 = 0 ∧ (b.selected 2 m).2 < 30 ∧ (b.selected 2 m).2 = p := by
    unfold Block.selInst at hs
    dsimp only at hs
    split at hs
    · rename_i h
      exact ⟨h.1, h.2, Option.some.inj hs⟩
    · cases hs
  obtain ⟨hlt, rfl⟩ := hin
  have hwin : 0x40 ≤ filterHigh e ∧ filterHigh e < 0x400 := by
    unfold filterHigh
    split <;> omega
  unfold Block.locate
  dsimp only
  rw [if_pos hwin, hsp, Reg.find_filterHigh e he]
  dsimp only
  rw [Block.home_highWord _ hlt]
  rfl

/-- A write of a register that holds no W1C, RWS or LCK field and takes any value that its fields do. -/
theorem Block.plainWrite_rw {b : Block} {x : RegAt} {w : Word} (hf : b.fitted x w = w) (hw1c : x.desc.mask (· == .w1c) = 0)
    (hlck : x.desc.fields.any (fun f => f.acc == .lck) = false) (hrws : x.desc.fields.any (fun f => f.acc == .rws) = false) :
    b.plainWrite x w = b.setVis x.desc x.idx x.k (x.desc.write (b.vis x.desc x.idx x.k) w) := by
  have hfresh : b.freshBits x = 0#32 := by
    unfold Block.freshBits
    rw [hw1c, Nat.and_zero]
    rfl
  unfold Block.plainWrite
  simp [hf, hfresh, hlck, hrws]

/-- The command writes the high word and commits the entry. -/
theorem Block.regWrite_filterHigh {b : Block} {m e p : Nat} (he : e < 48) (hs : b.selInst 2 m 0 = some p) (w : Word) :
    b.regWrite m 2 (filterHigh e) w = (if e < 16 then b.setVis Reg.PRT_UC_HI p e (Reg.PRT_UC_HI.write (b.vis Reg.PRT_UC_HI p e) w)
      else b.setVis Reg.PRT_MC_HI p (e - 16) (Reg.PRT_MC_HI.write (b.vis Reg.PRT_MC_HI p (e - 16)) w)).filterCommit p e := by
  have hl := Block.locate_filterHigh he hs
  unfold Prt.highWord at hl
  unfold Block.regWrite
  by_cases h : e < 16
  · rw [if_pos h] at hl
    rw [hl, if_pos h]
    show (b.plainWrite ⟨Reg.PRT_UC_HI, p, e, 0, p⟩ w).filterCommit p e = _
    rw [Block.plainWrite_rw rfl rfl rfl rfl]
  · rw [if_neg h] at hl
    rw [hl, if_neg h]
    show (b.plainWrite ⟨Reg.PRT_MC_HI, p, e - 16, 0, p⟩ w).filterCommit p (16 + (e - 16)) = _
    rw [Block.plainWrite_rw rfl rfl rfl rfl, show 16 + (e - 16) = e by omega]

/-- SEL's advance and the answer leave the ports. -/
theorem Block.advance_answer_port (b : Block) (m blk off : Nat) (r : Response) (p : Nat) :
    ((b.advance m blk off).answer m r).port p = b.port p := Block.port_congr (by simp) p

/-- The entry that a commit puts in force. -/
theorem Block.filterCommit_filt (b : Block) (p e : Nat) :
    Tbl.get ((b.filterCommit p e).port p).filt e (0, 0x00010000) =
      if e < 16 then ((b.vis Reg.PRT_UC_LO p e).toNat, (b.vis Reg.PRT_UC_HI p e).toNat)
      else ((b.vis Reg.PRT_MC_LO p (e - 16)).toNat, (b.vis Reg.PRT_MC_HI p (e - 16)).toNat) := by
  unfold Block.filterCommit
  rw [Block.port_setPort]
  dsimp only
  rw [Tbl.get_put_same]
  split <;> rfl

/-- FILTER_ENTRY_COMMIT: the low word as it stands and the high word as written (R38). -/
theorem Block.regWrite_filterHigh_filt {b : Block} {m e p : Nat} (he : e < 48) (hs : b.selInst 2 m 0 = some p) (w : Word) :
    Tbl.get ((b.regWrite m 2 (filterHigh e) w).port p).filt e (0, 0x00010000) =
      if e < 16 then ((b.vis Reg.PRT_UC_LO p e).toNat, (Reg.PRT_UC_HI.write (b.vis Reg.PRT_UC_HI p e) w).toNat)
      else ((b.vis Reg.PRT_MC_LO p (e - 16)).toNat, (Reg.PRT_MC_HI.write (b.vis Reg.PRT_MC_HI p (e - 16)) w).toNat) := by
  rw [Block.regWrite_filterHigh he hs, Block.filterCommit_filt]
  split
  · rw [Block.vis_setVis_same, Block.vis_setVis_other]
    refine (regKey_injective 2 0 p).ne ?_
    show 0x100 + 8 * e ≠ 0x104 + 8 * e
    omega
  · rw [Block.vis_setVis_same, Block.vis_setVis_other]
    refine (regKey_injective 2 0 p).ne ?_
    show 0x180 + 8 * (e - 16) ≠ 0x184 + 8 * (e - 16)
    omega

/-! ### Receiving (R33 to R41) -/

/-- Two blocks treat a frame received on a port alike: they agree in what admission and classification read (R36, R37, R40, R43). -/
structure Block.AdmitsAs (p : Nat) (a b : Block) : Prop where
  t7 : b.t7 = a.t7
  cfgRx : (b.port p).cfgRx = (a.port p).cfgRx
  pairRx : (b.port p).pairRx = (a.port p).pairRx
  vlan : (b.port p).vlan = (a.port p).vlan
  filt : (b.port p).filt = (a.port p).filt
  filtOld : (b.port p).filtOld = (a.port p).filtOld
  strange : (b.port p).strange = (a.port p).strange
  macLo : b.vis Reg.PRT_MAC_LO p = a.vis Reg.PRT_MAC_LO p
  macHi : b.vis Reg.PRT_MAC_HI p = a.vis Reg.PRT_MAC_HI p
  reasm : b.vis Reg.STR_REASM_TIMEOUT = a.vis Reg.STR_REASM_TIMEOUT
  listen : ∀ n, b.cfg Reg.STR_LISTEN 0 n = a.cfg Reg.STR_LISTEN 0 n

section
variable {p : Nat} {a b : Block} (h : Block.AdmitsAs p a b)
include h

theorem Block.AdmitsAs.filters : b.filters p = a.filters p := by
  unfold Block.filters
  rw [h.filtOld, h.filt, h.t7]

theorem Block.AdmitsAs.filterHit (lo n : Nat) (dst : List Byte) : b.filterHit p lo n dst = a.filterHit p lo n dst := by
  unfold Block.filterHit
  rw [h.filters]

theorem Block.AdmitsAs.isUnicast (dst : List Byte) : b.isUnicast p dst = a.isUnicast p dst := by
  unfold Block.isUnicast Block.portMac
  rw [h.filterHit, h.macLo, h.macHi]

theorem Block.AdmitsAs.addrOk (dst : List Byte) : b.addrOk p dst = a.addrOk p dst := by
  unfold Block.addrOk
  dsimp only
  rw [h.isUnicast, h.filterHit, h.cfgRx]

theorem Block.AdmitsAs.vlanOk (bs : List Byte) : b.vlanOk p bs = a.vlanOk p bs := by
  unfold Block.vlanOk PrtPort.vlanWord
  dsimp only
  rw [h.cfgRx, h.vlan]

theorem Block.AdmitsAs.consumes (dst : List Byte) : b.consumes p dst = a.consumes p dst := by
  unfold Block.consumes
  rw [h.isUnicast, h.filterHit]

theorem Block.AdmitsAs.forwards (bs : List Byte) (vlan : Bool) : b.forwards p bs vlan = a.forwards p bs vlan := by
  unfold Block.forwards
  dsimp only
  rw [h.isUnicast, h.filterHit, h.pairRx]

theorem Block.AdmitsAs.listener (v6 : Bool) (port : Nat) : b.listener v6 port = a.listener v6 port := by
  unfold Block.listener
  simp only [h.listen]

theorem Block.AdmitsAs.ingestBound (bs : List Byte) : b.ingestBound p bs = a.ingestBound p bs := by
  unfold Block.ingestBound Block.strangers
  rw [h.strange, h.t7, h.reasm]
  split
  · rfl
  · rw [h.listener]

end

/-! ### A frame counted -/

/-- A received frame counted by its length, before its checks (R35, R53). -/
def Block.frameCounted (b : Block) (p n : Nat) : Block :=
  (b.setPort p { b.port p with rxBytes := ((b.port p).rxBytes + n) % 2 ^ 64 }).count Reg.PRT_RX_FRAMES p

@[simp] theorem Block.frameCounted_port (b : Block) (p n : Nat) :
    (b.frameCounted p n).port p = { b.port p with rxBytes := ((b.port p).rxBytes + n) % 2 ^ 64 } := by
  unfold Block.frameCounted
  rw [Block.count_port, Block.port_setPort]

@[simp] theorem Block.frameCounted_sys (b : Block) (p n : Nat) : (b.frameCounted p n).sys = b.sys := by simp [Block.frameCounted]
@[simp] theorem Block.frameCounted_tim (b : Block) (p n : Nat) : (b.frameCounted p n).tim = b.tim := by simp [Block.frameCounted]

/-- Counting a frame leaves the registers other than RX_FRAMES and the port's SAT flags. -/
theorem Block.frameCounted_vis (b : Block) (p n : Nat) (d : RegDesc) (i k : Nat) (hc : d.key i k ≠ regKey 2 0 p 0x280)
    (hs : d.key i k ≠ regKey 2 0 p 0x2D8) : (b.frameCounted p n).vis d i k = b.vis d i k := by
  refine Block.count_other _ Reg.PRT_RX_FRAMES p 0 1 _ hc ?_
  rintro _ ⟨⟩
  exact hs

/-- So it leaves the port's other registers. -/
theorem Block.frameCounted_visPort (b : Block) (p n : Nat) (d : RegDesc) {o : Nat} (hd : d.key p 0 = regKey 2 0 p o) (hc : o ≠ 0x280)
    (hs : o ≠ 0x2D8) : (b.frameCounted p n).vis d p = b.vis d p :=
  b.frameCounted_vis p n d p 0 (hd ▸ (regKey_injective 2 0 p).ne hc) (hd ▸ (regKey_injective 2 0 p).ne hs)

/-- A bad FCS counted after it (R35, R53). -/
theorem Block.frameCounted_fcsErr (b : Block) (p n : Nat) :
    (((b.frameCounted p n).count Reg.PRT_RX_FCS_ERR p).vis Reg.PRT_RX_FCS_ERR p).toNat =
      min ((b.vis Reg.PRT_RX_FCS_ERR p).toNat + 1) 0xFFFFFFFF := by
  have hold : (b.frameCounted p n).vis Reg.PRT_RX_FCS_ERR p = b.vis Reg.PRT_RX_FCS_ERR p :=
    b.frameCounted_visPort _ _ _ rfl (by decide) (by decide)
  rw [Block.vis_count_toNat, hold]
  rintro _ ⟨⟩
  exact (regKey_injective 2 0 p).ne (by decide)

/-- Registers of STR stand above those of PRT. -/
theorem regKey_str_ne {p : Nat} (hp : p < 30) (o : Nat) {off : Nat} (h : off < 65536) : regKey 3 15 0 o ≠ regKey 2 0 p off := by
  unfold regKey
  omega

/-- Counting a frame changes nothing that its admission and classification read. -/
theorem Block.frameCounted_admitsAs (b : Block) {p : Nat} (hp : p < 30) (n : Nat) : Block.AdmitsAs p b (b.frameCounted p n) where
  t7 := by simp [Block.frameCounted]
  cfgRx := by simp
  pairRx := by simp
  vlan := by simp
  filt := by simp
  filtOld := by simp
  strange := by simp
  macLo := b.frameCounted_visPort _ _ _ rfl (by decide) (by decide)
  macHi := b.frameCounted_visPort _ _ _ rfl (by decide) (by decide)
  reasm := b.frameCounted_vis _ _ _ _ _ (regKey_str_ne hp _ (by decide)) (regKey_str_ne hp _ (by decide))
  listen k := by
    have hact : (b.frameCounted p n).regs.act = b.regs.act := (Block.count_touches _ Reg.PRT_RX_FRAMES p 0 1).keeps .act rfl
    unfold Block.cfg Block.act
    dsimp only
    have hvis : (b.frameCounted p n).vis Reg.STR_LISTEN 0 k = b.vis Reg.STR_LISTEN 0 k :=
      b.frameCounted_vis _ _ _ _ _ (regKey_str_ne hp (0x420 + 4 * k) (by decide)) (regKey_str_ne hp (0x420 + 4 * k) (by decide))
    rw [hact, hvis]

/-! ### A frame delivered -/

/-- The first fragment of a datagram noted changes no other part of the port's record (R40). -/
theorem Block.noteStranger_port (b : Block) (p : Nat) (bs : List Byte) :
    ∃ l, (b.noteStranger p bs).port p = { b.port p with strange := l } := by
  unfold Block.noteStranger
  split
  · split
    · exact ⟨_, Block.port_setPort ..⟩
    · exact ⟨_, rfl⟩
  · exact ⟨_, rfl⟩

/-- Nor the way that the frame itself goes. -/
theorem Block.noteStranger_ingestBound (b : Block) (p : Nat) (bs : List Byte) :
    (b.noteStranger p bs).ingestBound p bs = b.ingestBound p bs := by
  unfold Block.noteStranger Block.ingestBound
  cases ipView bs with
  | none => rfl
  | some v =>
    dsimp only
    by_cases hfirst : (v.frag && v.off == 0) = true
    · have hlater : (v.frag && v.off != 0) = false := by simp_all
      rw [if_pos hfirst, hlater]
      rfl
    · rw [if_neg hfirst]

/-- An ingest-bound frame that is no PTP message waits in the receive FIFO with its arrival time (R39, R40). -/
theorem Block.deliver_ingest {b : Block} {p : Nat} {bs : List Byte} (hp : p < 28) (ht : (frameType bs).1 ≠ 0x88F7)
    (hc : bit (b.port p).cfgRx 7 = true) (hi : b.ingestBound p bs = true) (stamp : Nat) :
    ((b.deliver p bs stamp).port p).fifo = (b.port p).fifo ++ [⟨bs, stamp⟩] ∧
    ((b.deliver p bs stamp).port p).rxBytes = (b.port p).rxBytes ∧
    (b.deliver p bs stamp).sys = b.sys ∧ (b.deliver p bs stamp).tim = b.tim := by
  obtain ⟨l, hl⟩ := b.noteStranger_port p bs
  have hs : (b.noteStranger p bs).sys = b.sys := (b.noteStranger_touches p bs).keeps .sys rfl
  have hm : (b.noteStranger p bs).tim = b.tim := (b.noteStranger_touches p bs).keeps .tim rfl
  unfold Block.deliver
  dsimp only
  rw [if_neg (by omega), if_neg (by simp [ht]), if_pos ⟨by omega, by rw [hl]; exact hc, by rw [b.noteStranger_ingestBound, hi]⟩]
  rw [Block.port_setPort, hl]
  exact ⟨rfl, rfl, hs, hm⟩

section
variable {b : Block} {p : Nat} {data : List Byte} (hm : b.sys.mode ≠ .halt) (hc : bits (b.port p).cfgRx 3 0 ≠ 0)
  (hu : (b.port p).up = true) (hf : (b.port p).fifoUsed + (b.vis Reg.PRT_MAX_FRAME p).toNat ≤ Prt.fifoSize p)
include hm hc hu hf

/-- A frame with a bad FCS, on a port that receives and has room for it, is counted and discarded (R33, R35). -/
theorem Block.frameReceive_badFcs (hfcs : leAt data (data.length - 4) 4 ≠ crc32 (data.take (data.length - 4))) :
    b.frameReceive p data = (b.frameCounted p data.length).count Reg.PRT_RX_FCS_ERR p := by
  unfold Block.frameReceive
  dsimp only
  rw [if_neg (by simp [hm, hc, hu]), if_neg (by omega), if_pos hfcs]
  rfl

/-- One that passes the checks and that its port admits, consumes and does not forward is counted and delivered (R33 to R43). -/
theorem Block.frameReceive_admitted (hp : p < 28) (hfcs : leAt data (data.length - 4) 4 = crc32 (data.take (data.length - 4)))
    (hmin : 64 ≤ data.length) (hmax : data.length ≤ (b.vis Reg.PRT_MAX_FRAME p).toNat)
    (hfwd : b.forwards p (data.take (data.length - 4)) true = false) (hvlan : b.vlanOk p (data.take (data.length - 4)) = true)
    (haddr : b.addrOk p ((data.take (data.length - 4)).take 6) = true)
    (hcons : b.consumes p ((data.take (data.length - 4)).take 6) = true) :
    b.frameReceive p data = (b.frameCounted p data.length).deliver p (data.take (data.length - 4)) b.now := by
  have ha := b.frameCounted_admitsAs (p := p) (by omega) data.length
  unfold Block.frameReceive
  dsimp only
  rw [if_neg (by simp [hm, hc, hu]), if_neg (by omega), if_neg (fun hbad => hbad hfcs), if_neg (by omega), if_neg (by omega),
    if_neg (by omega), ← Block.frameCounted, ha.vlanOk, hvlan, ha.forwards, hfwd, if_neg Bool.false_ne_true,
    if_neg (by simp), ha.addrOk, haddr, if_neg (by simp), ha.consumes, if_pos hcons]

end

/-! ### The mode after a frame -/

/-- The mode stays where it agrees with TB0's state (Table 18.2), also after what leaves the two. -/
theorem Block.modeFollow_settled {a b : Block} (h : a.modeSettled) (hs : b.sys = a.sys) (ht : b.tim = a.tim) : b.modeFollow = b := by
  have hb : b.modeSettled := by
    unfold Block.modeSettled Block.tb
    rw [hs, ht]
    exact h
  obtain ⟨hacq, hact, hold⟩ := hb
  unfold Block.modeFollow
  dsimp only
  split
  · rename_i hm; exact if_neg (by simpa using hacq hm)
  · rename_i hm; exact if_pos (by simpa using hact hm)
  · rename_i hm; exact if_neg (by simpa using hold hm)
  · rfl

/-- Settles O15: each command by the lemma of its operation; a received frame leaves the mode where it was. -/
theorem framesComeAndGo : Obligations.FramesComeAndGo := by
  refine ⟨fun t p data s hp hm hc hu hset hf hfcs hmin hmax hfwd hvlan haddr hcons htype hon hin => ?_,
    fun t p data s hp hm hc hu hset hf hfcs => ?_, fun t m e value p s hm he hw hs => ?_,
    fun t p e s hp hu hn hfwd hfix => Completes.onPort t (·.transmit p true) rfl hp ?_,
    fun t p e s hp hu hn hfwd hfix => Completes.onPort t (·.transmit p false) rfl hp ?_,
    fun t pair s hp => ?_⟩
  · refine Completes.onPort t (fun b => (b.frameReceive p data).modeFollow) rfl (by omega) ?_
    have ha := (s.at t).frameCounted_admitsAs (p := p) (by omega) data.length
    rw [Block.frameReceive_admitted (b := s.at t) hm hc hu hf hp hfcs hmin hmax hfwd hvlan haddr hcons]
    obtain ⟨hfifo, hbytes, hsys, htim⟩ := Block.deliver_ingest (b := (s.at t).frameCounted p data.length) hp htype
      (by rw [ha.cfgRx]; exact hon) (by rw [ha.ingestBound]; exact hin) (s.at t).now
    rw [Block.modeFollow_settled hset (hsys.trans (by simp)) (htim.trans (by simp)), hfifo, hbytes, Block.frameCounted_port]
    exact ⟨rfl, rfl⟩
  · refine Completes.onPort t (fun b => (b.frameReceive p data).modeFollow) rfl hp ?_
    rw [Block.frameReceive_badFcs (b := s.at t) hm hc hu hf hfcs, Block.modeFollow_settled hset (by simp) (by simp),
      Block.count_port, Block.frameCounted_port]
    exact ⟨rfl, rfl, (s.at t).frameCounted_fcsErr p data.length⟩
  · refine Completes.byMaster (f := fun b => b.regWrite m 2 (filterHigh e) (w32 value)) rfl (by simp [Wf.master, Wf.filter, hm, he]) hw ?_
    rw [Block.advance_answer_port]
    exact Block.regWrite_filterHigh_filt (b := s.at t) he hs _
  · rw [← hfwd, Block.transmit_next (b := s.at t) hu hn, Block.sendFrame_port _ _ hfix]
    exact ⟨rfl, rfl, rfl⟩
  · rw [← hfwd, Block.transmit_next (b := s.at t) hu hn, Block.sendFrame_port _ _ hfix]
    exact ⟨rfl, rfl, rfl⟩
  · refine Completes.runIf (t := t) (f := fun b => b.tcTimeout pair) rfl (decide_eq_true hp) ?_
    unfold Block.tcTimeout
    rw [Block.port_setPort]
    exact ⟨rfl, rfl⟩

end Sys2Proof.Machine
end

section
/-! PROOFS. Stream frames and injected frames whose records are claimed, datagrams that time out, contexts that relearn (O18). -/

namespace Sys2Proof.Machine

/-! ### What leaves a register alone -/

/-- A register, by where it is stored, reads in the second block as in the first. -/
structure Block.KeepsReg (j : Nat) (a b : Block) : Prop where
  reads : ∀ d, Tbl.get b.regs.vis j d = Tbl.get a.regs.vis j d

section keeps
variable {j : Nat} {a b : Block}

theorem Block.KeepsReg.refl : Block.KeepsReg j a a := ⟨fun _ => rfl⟩

theorem Block.KeepsReg.trans {c : Block} (h : Block.KeepsReg j a b) (k : Block.KeepsReg j b c) : Block.KeepsReg j a c :=
  ⟨fun d => (k.reads d).trans (h.reads d)⟩

/-- What leaves the register file leaves each register. -/
theorem Block.KeepsReg.of_vis {c : Block} (h : Block.KeepsReg j a b) (e : c.regs.vis = b.regs.vis := by rfl) : Block.KeepsReg j a c :=
  h.trans ⟨fun d => congrArg (Tbl.get · j d) e⟩

theorem Block.KeepsReg.ite {p : Prop} [Decidable p] {c : Block} (h : Block.KeepsReg j a b) (k : Block.KeepsReg j a c) :
    Block.KeepsReg j a (if p then b else c) := by
  split
  · exact h
  · exact k

theorem Block.KeepsReg.setVis (h : Block.KeepsReg j a b) {d : RegDesc} {i k : Nat} {w : Word} (hj : j ≠ d.key i k) :
    Block.KeepsReg j a (b.setVis d i k w) := h.trans ⟨fun _ => Tbl.get_put_other _ _ _ _ _ _ hj⟩

theorem Block.KeepsReg.raiseBit (h : Block.KeepsReg j a b) {key n : Nat} {rst : Word} (hj : j ≠ key) :
    Block.KeepsReg j a (b.raiseBit key n rst) := h.trans ⟨fun d => b.raiseBit_other n rst d hj⟩

theorem Block.KeepsReg.count (h : Block.KeepsReg j a b) {c : RegDesc} {i k n : Nat} (hj : j ≠ c.key i k)
    (hs : ∀ p, c.sat = some p → j ≠ regKey c.blk (c.spaces.headD 15) i p.1) : Block.KeepsReg j a (b.count c i k n) :=
  h.trans ⟨fun d => b.count_other c i k n d hj hs⟩

/-! ### A queue's item leaves the registers of the blocks below QUE -/

variable (h : Block.KeepsReg j a b) (hj : keyBlk j < 16)
include hj

/-- The registers of QUE stand above them. -/
theorem ne_queKey {sp i off : Nat} : j ≠ regKey 16 sp i off := by
  rintro rfl
  unfold keyBlk regKey at hj
  omega

include h

theorem Block.KeepsReg.event {code src a0 a1 : Nat} : Block.KeepsReg j a (b.event code src a0 a1) :=
  h.trans ⟨fun d => b.event_other d (by omega) (by omega) code src a0 a1⟩

theorem Block.KeepsReg.eventRep {key code src a1 : Nat} : Block.KeepsReg j a (b.eventRep key code src a1) := by
  unfold Block.eventRep
  exact .ite (h.of_vis.event hj) h.of_vis

theorem Block.KeepsReg.countQue {c : RegDesc} (hc : c.blk = 16) {i k n : Nat} : Block.KeepsReg j a (b.count c i k n) :=
  h.count (by rw [RegDesc.key, hc]; exact ne_queKey hj) (fun p _ => by rw [hc]; exact ne_queKey hj)

/-- An overrun (R346). -/
theorem Block.KeepsReg.overrun {q : Nat} : Block.KeepsReg j a (b.overrun q) := by
  have hc : Block.KeepsReg j a (b.count Reg.QUE_OVERRUN_ITEMS q) := h.countQue hj rfl
  unfold Block.overrun
  dsimp only
  generalize b.count Reg.QUE_OVERRUN_ITEMS q = y at hc ⊢
  have hbits : Block.KeepsReg j a ((y.setBit Reg.QUE_STATUS q 0 30).irq Blk.que 0) :=
    (hc.raiseBit (ne_queKey hj)).raiseBit (ne_queKey hj)
  exact .ite (hc.eventRep hj) (hbits.of_vis.eventRep hj)

/-- A reader's answer (R348). -/
theorem Block.KeepsReg.popStatus {m : Nat} {p k e o : Bool} : Block.KeepsReg j a (b.popStatus m p k e o) := h.setVis (ne_queKey hj)

/-- An item taken. -/
theorem Block.KeepsReg.take {q m : Nat} : Block.KeepsReg j a (b.take q m) := by
  unfold Block.take
  dsimp only
  split
  · exact (h.popStatus hj).of_vis
  · generalize hy : (if (b.queue q).breakPending then _ else _ : Block) = y
    have hk : Block.KeepsReg j a y := hy ▸ .ite h.of_vis h.of_vis
    exact .ite (hk.popStatus hj).of_vis (hk.popStatus hj).of_vis

/-- An item stored. -/
theorem Block.KeepsReg.stored {q val : Nat} {eop : Bool} : Block.KeepsReg j a (b.stored q val eop) := by
  have hc (x : Queue) :
      Block.KeepsReg j a (((b.slotClean q ((b.queue q).rd + (b.queue q).items.length) val).setQueue q x).count Reg.QUE_PUSHES q) :=
    h.of_vis.countQue hj rfl
  unfold Block.stored
  dsimp only
  split
  · exact (hc _).of_vis.take hj
  · exact hc _

/-- A queue flushed (R349). -/
theorem Block.KeepsReg.flushNow {q : Nat} : Block.KeepsReg j a (b.flushNow q) := by
  have hg : Block.KeepsReg j a (b.heldGone q) := .ite h.of_vis h
  unfold Block.flushNow
  dsimp only
  exact .event (.ite hg.of_vis hg.of_vis) hj

/-- An item pushed (R346, R349, R350). -/
theorem Block.KeepsReg.push {q val : Nat} {eop : Bool} : Block.KeepsReg j a (b.push q val eop) := by
  have hover (x : Queue) : Block.KeepsReg j a ((b.setQueue q x).overrun q) := h.of_vis.overrun hj
  unfold Block.push
  dsimp only
  refine .ite (h.countQue hj rfl) ?_
  generalize hy : (if (b.queue q).discarding then _ else _ : Block) = y
  have hk : Block.KeepsReg j a y := hy ▸ .ite (hover _) (.ite (hover _) (.ite (hover _) (h.stored hj)))
  exact .ite (hk.flushNow hj) hk

/-- An item of an exception queue (R66). -/
theorem Block.KeepsReg.excItem {cls : Nat} {ctx : Option Nat} {slot : Nat} : Block.KeepsReg j a (b.excItem cls ctx slot) := h.push hj

end keeps

/-! ### A record's counters and registers -/

section record
variable {j c : Nat} {a b : Block} (hc : ∀ off, off < 0x300 → off ≠ 0x200 → j ≠ regKey 3 0 c off)
include hc

/-- A register of the context other than RX_RECORDS. -/
theorem ne_ctxKey (e : RegDesc) (k : Nat)
    (he : e.blk = 3 ∧ e.spaces.headD 15 = 0 ∧ e.off + e.stride * k < 0x300 ∧ e.off + e.stride * k ≠ 0x200) : j ≠ e.key c k := by
  obtain ⟨hblk, hsp, hlt, hne⟩ := he
  rw [RegDesc.key, hblk, hsp]
  exact hc _ hlt hne

/-- A counter of the context other than RX_RECORDS. -/
theorem Block.KeepsReg.countCtx (h : Block.KeepsReg j a b) (e : RegDesc) (k : Nat)
    (he : e.blk = 3 ∧ e.spaces.headD 15 = 0 ∧ e.off + e.stride * k < 0x300 ∧ e.off + e.stride * k ≠ 0x200)
    (hs : e.sat.all (fun p => decide (p.1 = 0x238)) = true) : Block.KeepsReg j a (b.count e c k) := by
  refine h.count (ne_ctxKey hc e k he) (fun p hp => ?_)
  rw [hp] at hs
  rw [he.1, he.2.1, of_decide_eq_true hs]
  exact hc _ (by decide) (by decide)

variable (hj : keyBlk j < 16)
include hj

/-- A class 3 notice (Table 3.3). -/
theorem Block.KeepsReg.cfgNotice (h : Block.KeepsReg j a b) : Block.KeepsReg j a (b.cfgNotice c) := by
  have hk : Block.KeepsReg j a ((b.count Reg.STR_CFG_CHANGE c).eventRep c 0x0406 c) :=
    (h.countCtx hc Reg.STR_CFG_CHANGE 0 (by decide) (by decide)).eventRep hj
  unfold Block.cfgNotice
  dsimp only
  exact .ite (hk.of_vis.excItem hj) hk

/-- Past the count of its record, what is noted of it leaves RX_RECORDS, and the registers that are none of the context's. -/
theorem Block.recordWritten_keeps {o : Offer} (ho : o.ctx = c) (hbin : o.bin < 16) :
    Block.KeepsReg j (b.count Reg.STR_CTX_RX_RECORDS c) (b.recordWritten o) := by
  subst ho
  have hset {x : Block} (h : Block.KeepsReg j (b.count Reg.STR_CTX_RX_RECORDS o.ctx) x) (e : RegDesc) (w : Word)
      (he : e.blk = 3 ∧ e.spaces.headD 15 = 0 ∧ e.off + e.stride * 0 < 0x300 ∧ e.off + e.stride * 0 ≠ 0x200) :
      Block.KeepsReg j (b.count Reg.STR_CTX_RX_RECORDS o.ctx) (x.setVis e o.ctx 0 w) := h.setVis (ne_ctxKey hc e 0 he)
  unfold Block.recordWritten
  dsimp only
  iterate 6 refine hset ?_ _ _ (by decide)
  refine .countCtx hc ?_ Reg.STR_CTX_LAT_BIN o.bin ⟨rfl, rfl, ?_, ?_⟩ (by decide)
  · generalize b.count Reg.STR_CTX_RX_RECORDS o.ctx = x
    have h0 : Block.KeepsReg j x x := .refl
    have hsrc : Block.KeepsReg j x (if o.status = 3 then x.count Reg.STR_SRC_INVALID o.ctx
        else if o.status = 4 then x.count Reg.STR_SRC_UNLOCKED o.ctx else x) :=
      .ite (h0.countCtx hc _ 0 (by decide) (by decide)) (.ite (h0.countCtx hc _ 0 (by decide) (by decide)) h0)
    generalize (if o.status = 3 then _ else _ : Block) = y at hsrc ⊢
    have hcfg : Block.KeepsReg j x (if o.cfg then y.cfgNotice o.ctx else y) := .ite (hsrc.cfgNotice hc hj) hsrc
    generalize (if o.cfg then _ else _ : Block) = z at hcfg ⊢
    exact .ite (hcfg.countCtx hc _ 0 (by decide) (by decide)) hcfg
  · show 0x240 + 4 * o.bin < 0x300
    omega
  · show 0x240 + 4 * o.bin ≠ 0x200
    omega

end record

/-! ### A record claimed (R96) -/

/-- From one block to the other a record has been claimed and counted in its context; the injection ring's HEAD stands. -/
structure Block.Claimed (a b : Block) (c : Nat) (k : Claim) : Prop where
  claims : b.aln.claims = a.aln.claims ++ [k]
  counted : a.counts b Reg.STR_CTX_RX_RECORDS c
  head : b.vis Reg.STR_INJ_HEAD = a.vis Reg.STR_INJ_HEAD

/-- A feature record written claims nothing. -/
theorem Block.featWrite_claims (b : Block) (seq c : Nat) (post : Bool) (f : List Byte) :
    (b.featWrite seq c post f).aln.claims = b.aln.claims := by
  unfold Block.featWrite
  dsimp only
  split <;> rfl

/-- The latency histogram has 16 bins. -/
theorem latBin_lt (d : Int) : latBin d < 16 := by
  unfold latBin
  split
  · decide
  · exact Nat.lt_of_le_of_lt (List.length_filter_le _ _) (by decide)

/-- Registers of STR stand below QUE. -/
theorem keyBlk_str {sp i off : Nat} (hs : sp < 16) (hi : i < 1048576) (ho : off < 65536) : keyBlk (regKey 3 sp i off) < 16 := by
  rw [keyBlk_regKey hs hi ho]
  decide

/-- A record that is written is counted once. -/
theorem Block.recordWritten_counted (b : Block) {o : Offer} (hc : o.ctx < 1048576) (hbin : o.bin < 16) :
    b.counts (b.recordWritten o) Reg.STR_CTX_RX_RECORDS o.ctx := by
  have hk : Block.KeepsReg (regKey 3 0 o.ctx 0x200) (b.count Reg.STR_CTX_RX_RECORDS o.ctx) (b.recordWritten o) :=
    Block.recordWritten_keeps (fun off _ hne => (regKey_injective 3 0 o.ctx).ne (Ne.symm hne)) (keyBlk_str (by decide) hc (by decide)) rfl hbin
  unfold Block.counts
  rw [← Block.vis_count_toNat]
  · exact congrArg BitVec.toNat (hk.reads _)
  · rintro _ ⟨⟩
    exact (regKey_injective 3 0 o.ctx).ne (by decide)

/-- And leaves the injection ring. -/
theorem Block.recordWritten_head (b : Block) {o : Offer} (hbin : o.bin < 16) :
    (b.recordWritten o).vis Reg.STR_INJ_HEAD = b.vis Reg.STR_INJ_HEAD := by
  have hne (off : Nat) (h : off < 0x300) : regKey 3 15 0 0x4AC ≠ regKey 3 0 o.ctx off := by
    unfold regKey
    omega
  have hcount : Block.KeepsReg (regKey 3 15 0 0x4AC) b (b.count Reg.STR_CTX_RX_RECORDS o.ctx) :=
    .count .refl (hne 0x200 (by decide)) (by rintro _ ⟨⟩; exact hne 0x238 (by decide))
  exact (hcount.trans (Block.recordWritten_keeps (fun off hoff _ => hne off hoff)
    (keyBlk_str (by decide) (by decide) (by decide)) rfl hbin)).reads _

/-- A record that ALN admits is claimed and counted. -/
theorem Block.offerNow_claimed {b : Block} {o : Offer} {p : Nat} {x : Basin} (hc : o.ctx < 1048576)
    (ha : b.admitRec o.ring o.slot o.ctx = .claim p x) (hm : o.member = none) (hbin : o.bin < 16) :
    b.Claimed (b.offerNow o) o.ctx ⟨o.ring, x.seq, o.ctx, o.bin, x.st != .opened⟩ := by
  have he : b.offerNow o = (b.claimRecord o.ring p o.ctx o.bin x o.bytes o.feat).recordWritten o := by
    unfold Block.offerNow
    rw [ha, hm]
    rfl
  have hclaims : (b.claimRecord o.ring p o.ctx o.bin x o.bytes o.feat).aln.claims =
      b.aln.claims ++ [⟨o.ring, x.seq, o.ctx, o.bin, x.st != .opened⟩] := congrArg (· ++ _) (Block.featWrite_claims ..)
  have hvis (d : RegDesc) (i : Nat) : (b.claimRecord o.ring p o.ctx o.bin x o.bytes o.feat).vis d i = b.vis d i :=
    congrArg (fun r : Tbl Word × (Nat × Tbl (Word × Nat)) => Tbl.get r.1 (d.key i 0) (d.rst i 0))
      ((b.claimRecord_touches o.ring p o.ctx o.bin x o.bytes o.feat).keeps .vis rfl)
  rw [he]
  generalize b.claimRecord o.ring p o.ctx o.bin x o.bytes o.feat = y at hclaims hvis ⊢
  have haln : (y.recordWritten o).aln = y.aln := (y.recordWritten_touches o).keeps .aln rfl
  have hcounted := y.recordWritten_counted hc hbin
  unfold Block.counts at hcounted
  rw [hvis] at hcounted
  exact ⟨by rw [haln, hclaims], hcounted, (y.recordWritten_head hbin).trans (hvis ..)⟩

/-- One that finds no other waiting, and fewer than 64 claims in flight, is offered at once (R97). -/
theorem Block.offer_claimed {b : Block} {o : Offer} {p : Nat} {x : Basin} (hw : b.str.offers = []) (hroom : b.aln.claims.length < 64)
    (hc : o.ctx < 1048576) (ha : b.admitRec o.ring o.slot o.ctx = .claim p x) (hm : o.member = none) (hbin : o.bin < 16) :
    b.Claimed (b.offer o) o.ctx ⟨o.ring, x.seq, o.ctx, o.bin, x.st != .opened⟩ := by
  obtain ⟨hclaims, hcounted, hhead⟩ := Block.offerNow_claimed hc ha hm hbin
  unfold Block.offer
  rw [hw, List.nil_append, Block.offerAll, if_neg (by omega), Block.offerAll]
  exact ⟨hclaims, hcounted, hhead⟩

section claimed
variable {b : Block} {c : Nat} {k : Claim} (hw : b.str.offers = []) (hroom : b.aln.claims.length < 64) (hc : c < 1048576)
include hw hroom hc

/-- A stream-frame that passes checks 8 and 9 has its record offered (R69 to R71). -/
theorem Block.sampleIn_claimed {x : Sample} (htb : x.tb = b.cf Reg.STR_CTX_TIMEBASE c 23 0)
    (h : b.claimOf c x.soc x.frac x.arr = some k) : (b.sampleIn c x).2 = false ∧ b.Claimed (b.sampleIn c x).1 c k := by
  unfold Block.claimOf at h
  unfold Block.sampleIn
  rw [htb]
  split at h
  · rename_i g e hg
    rw [hg]
    dsimp only at h ⊢
    split at h
    · rename_i p y ha
      cases h
      exact ⟨rfl, Block.offer_claimed (o := ⟨_, _, c, _, _, _, none, _, _, _, _, _, _, _⟩) hw hroom hc ha rfl (latBin_lt _)⟩
    · cases h
  · cases h

/-- So has a block of a C37.118.2 data frame in an enabled context. -/
theorem Block.c37Block_claimed {bs : List Byte} {soc fracsec arr : Nat} (poisoned : Bool) (hen : b.strEnabled c = true)
    (h : b.claimOf c soc (fracsec % 2 ^ 24) arr = some k) :
    (b.c37Block c bs soc fracsec arr poisoned).2 = false ∧ b.Claimed (b.c37Block c bs soc fracsec arr poisoned).1 c k := by
  unfold Block.c37Block
  rw [if_neg (by simp [hen])]
  exact Block.sampleIn_claimed hw hroom hc rfl h

/-- A data frame whose one context agrees with its size (R56 to R59). -/
theorem Block.c37In_claimed {d : Dgram} (poisoned : Bool) (hok : c37Ok d.payload = true) (hchk : c37Chk d.payload = true)
    (htype : c37Type d.payload = 0) (hcs : b.byBlock (b.strCtxs d 0 (beAt d.payload 4 2)) = [c])
    (hlen : 16 + b.blockSize c = d.payload.length) (hen : b.strEnabled c = true)
    (h : b.claimOf c (beAt d.payload 6 4) (beAt d.payload 10 4 % 2 ^ 24) d.arr = some k) : b.Claimed (b.c37In d poisoned) c k := by
  obtain ⟨hno, hclaimed⟩ := Block.c37Block_claimed (bs := (d.payload.drop 14).take (b.blockSize c)) hw hroom hc poisoned hen h
  unfold Block.c37In
  dsimp only
  rw [hcs, if_neg (by simp [hok]), if_neg (by simp [hchk]), if_neg (by simp [htype]), if_neg (by simp), if_neg (by simp [hlen])]
  simp only [Block.c37Blocks, hno]
  exact hclaimed

/-- An injected frame of the context's size, in an enabled context (R84). -/
theorem Block.injFrame_claimed {arr : Nat} {p : List Byte} (poisoned : Bool) (hok : c37Ok p = true) (hchk : c37Chk p = true)
    (htype : c37Type p = 0) (hen : b.strEnabled c = true) (hlen : 16 + b.blockSize c = p.length)
    (h : b.claimOf c (beAt p 6 4) (beAt p 10 4 % 2 ^ 24) arr = some k) : b.Claimed (b.injFrame c arr p poisoned) c k := by
  obtain ⟨hno, hclaims, hcounted, hhead⟩ := Block.c37Block_claimed (bs := slice p 14 (b.blockSize c)) hw hroom hc poisoned hen h
  unfold Block.injFrame
  dsimp only
  rw [if_neg (by simp [hok]), if_neg (by simp [hchk]), if_neg (by simp [htype]), if_neg (by simp [hen]), if_neg (by simp [hlen]),
    if_neg (by simp [hno])]
  generalize (b.c37Block c _ _ _ arr poisoned).1 = y at *
  have haln : (y.excItem 6 (some c) 0xFFFF).aln = y.aln := (y.excItem_touches 6 (some c) 0xFFFF).keeps .aln rfl
  have hkeep {j : Nat} (hj : keyBlk j < 16) : Block.KeepsReg j y (y.excItem 6 (some c) 0xFFFF) := .excItem .refl hj
  have hhead' : (y.excItem 6 (some c) 0xFFFF).vis Reg.STR_INJ_HEAD = y.vis Reg.STR_INJ_HEAD :=
    (hkeep (keyBlk_str (by decide) (by decide) (by decide))).reads _
  have hcount : (y.excItem 6 (some c) 0xFFFF).vis Reg.STR_CTX_RX_RECORDS c = y.vis Reg.STR_CTX_RX_RECORDS c :=
    (hkeep (keyBlk_str (by decide) hc (by decide))).reads _
  exact ⟨by rw [haln, hclaims], (congrArg BitVec.toNat hcount).trans hcounted, hhead'.trans hhead⟩

end claimed

/-! ### Frames of a receive FIFO -/

/-- A context that matches a datagram has its registers within the window of STR. -/
theorem Block.strCtxs_lt {b : Block} {d : Dgram} {proto idcode c : Nat} (h : c ∈ b.byBlock (b.strCtxs d proto idcode)) : c < 1048576 := by
  unfold Block.byBlock at h
  obtain ⟨i, -, hi⟩ := List.mem_filterMap.mp h
  have hl := List.mem_of_find?_eq_some hi
  unfold Block.strCtxs Block.listed at hl
  obtain ⟨e, -, rfl⟩ := List.mem_map.mp (List.mem_filter.mp hl).1
  exact Nat.mod_lt _ (by decide)

/-- The oldest frame leaves the FIFO where no record waits (R97). -/
theorem Block.streamIngest_fifo {b : Block} {port : Nat} {f : RxFrame} {rest : List RxFrame} (hf : (b.port port).fifo = f :: rest)
    (hw : b.str.offers = []) (poisoned aborted : Bool) : ((b.streamIngest port poisoned aborted).port port).fifo = rest := by
  have hset : ((b.setPort port { b.port port with fifo := rest }).port port).fifo = rest := by rw [Block.port_setPort]
  unfold Block.streamIngest
  simp only [hf]
  rw [if_neg (by simp [hw])]
  split
  · exact hset
  · split
    · exact hset
    · split
      · rw [Block.port_congr ((Block.fragmentIn_touches ..).keeps .prt rfl), hset]
      · rw [Block.port_congr ((Block.datagramIn_touches ..).keeps .prt rfl), hset]

/-- While records wait it stays (R97). -/
theorem Block.streamIngest_waits {b : Block} (hw : b.str.offers ≠ []) (port : Nat) (poisoned aborted : Bool) :
    b.streamIngest port poisoned aborted = b := by
  unfold Block.streamIngest
  dsimp only
  split
  · rfl
  · exact if_pos hw

/-- An unfragmented datagram for a C37.118.2 listener goes to its parser (R55, R56). -/
theorem Block.streamIngest_c37 {b : Block} {port n : Nat} {f : RxFrame} {rest : List RxFrame} {v : IpView} {d : Dgram}
    (hf : (b.port port).fifo = f :: rest) (hw : b.str.offers = []) (hcold : b.strCold = false) (hv : ipView f.bytes = some v)
    (hfrag : v.frag = false)
    (hd : d = ⟨port, v.v6, v.src, v.dst, beAt v.udp 0 2, beAt v.udp 2 2, f.stamp, slice v.udp 8 (beAt v.udp 4 2 - 8)⟩)
    (hn : b.listener v.v6 d.dport = some n) (hproto : fld (b.cfg Reg.STR_LISTEN 0 n) 27 24 = 0) (poisoned aborted : Bool) :
    b.streamIngest port poisoned aborted = (b.setPort port { b.port port with fifo := rest }).c37In d poisoned := by
  have hcold' (x : PrtPort) : (b.setPort port x).strCold = false := hcold
  have hproto' (x : PrtPort) : fld ((b.setPort port x).cfg Reg.STR_LISTEN 0 n) 27 24 = 0 := hproto
  have hn' (x : PrtPort) : (b.setPort port x).listener v.v6 (beAt v.udp 2 2) = some n := by
    rw [hd] at hn
    exact hn
  unfold Block.streamIngest Block.datagramIn
  simp only [hf, hv, hfrag, hcold', hn']
  rw [if_neg (by simp [hw]), if_neg (by simp), if_neg (by simp), if_pos (hproto' _), hd]

/-! ### Descriptors of the injection ring (R84) -/

section head
variable (b : Block) (w : Word)

/-- A descriptor taken moves HEAD, which no other register's setting reads. -/
theorem Block.cfg_setHead {e : RegDesc} {i k : Nat} (hi : i < 1048576) (ho : e.off + e.stride * k < 65536)
    (h : e.blk * 16 + e.spaces.headD 15 = 63 → e.off + e.stride * k ≠ 0x4AC) :
    (b.setVis Reg.STR_INJ_HEAD 0 0 w).cfg e i k = b.cfg e i k := by
  have hk : e.key i k ≠ Reg.STR_INJ_HEAD.key 0 0 := RegDesc.key_ne ho (by decide) hi (by decide) (fun hh => h hh.1 hh.2.2)
  unfold Block.cfg
  dsimp only
  rw [Block.vis_setVis_other _ _ _ _ _ _ _ _ hk]
  rfl

/-- A ring's settings stand. -/
theorem Block.ringRate_setHead {r : Nat} (hr : r < 2) : (b.setVis Reg.STR_INJ_HEAD 0 0 w).ringRate r = b.ringRate r := by
  unfold Block.ringRate
  rw [b.cfg_setHead w (by decide) (by simp only [Reg.ALN_RING_RATE]; omega) (fun h => absurd h (by decide))]

theorem Block.ringEnabled_setHead {r : Nat} (hr : r < 2) : (b.setVis Reg.STR_INJ_HEAD 0 0 w).ringEnabled r = b.ringEnabled r := by
  unfold Block.ringEnabled
  rw [b.cfg_setHead w (by decide) (by simp only [Reg.ALN_RING_CFG]; omega) (fun h => absurd h (by decide))]

variable {c : Nat} (hc : c < 1048576)
include hc

/-- So do a context's. -/
theorem Block.cfgCtx_setHead (e : RegDesc) (ho : e.off < 65536 ∧ e.blk * 16 + e.spaces.headD 15 ≠ 63) :
    (b.setVis Reg.STR_INJ_HEAD 0 0 w).cfg e c 0 = b.cfg e c 0 := b.cfg_setHead w hc ho.1 (fun h => absurd h ho.2)

theorem Block.strRing_setHead : (b.setVis Reg.STR_INJ_HEAD 0 0 w).strRing c = b.strRing c := by
  unfold Block.strRing Block.cf
  rw [b.cfgCtx_setHead w hc _ (by decide)]

theorem Block.blockSize_setHead : (b.setVis Reg.STR_INJ_HEAD 0 0 w).blockSize c = b.blockSize c := by
  unfold Block.blockSize Block.strFmt Block.cf
  rw [b.cfgCtx_setHead w hc _ (by decide)]

theorem Block.strEnabled_setHead : (b.setVis Reg.STR_INJ_HEAD 0 0 w).strEnabled c = b.strEnabled c := by
  unfold Block.strEnabled Block.cb
  rw [b.cfgCtx_setHead w hc _ (by decide)]
  rfl

/-- And a record is claimed as before. -/
theorem Block.claimOf_setHead (soc frac arr : Nat) :
    (b.setVis Reg.STR_INJ_HEAD 0 0 w).claimOf c soc frac arr = b.claimOf c soc frac arr := by
  have hr : b.strRing c < 2 := fld_lt _ 29 29
  have hadmit (slot : Nat) : (b.setVis Reg.STR_INJ_HEAD 0 0 w).admitRec (b.strRing c) slot c = b.admitRec (b.strRing c) slot c := by
    unfold Block.admitRec
    rw [b.ringEnabled_setHead w hr]
    rfl
  have htb : (b.setVis Reg.STR_INJ_HEAD 0 0 w).cf Reg.STR_CTX_TIMEBASE c 23 0 = b.cf Reg.STR_CTX_TIMEBASE c 23 0 := by
    unfold Block.cf
    rw [b.cfgCtx_setHead w hc _ (by decide)]
  have hgrid (tb : Nat) : (b.setVis Reg.STR_INJ_HEAD 0 0 w).grid c frac tb = b.grid c frac tb := by
    unfold Block.grid Block.cf Block.cb
    rw [b.strRing_setHead w hc, b.ringRate_setHead w hr, b.cfgCtx_setHead w hc _ (by decide),
      b.cfg_setHead w (by decide) (by decide) (by decide)]
  have hsec (near : Nat) : (b.setVis Reg.STR_INJ_HEAD 0 0 w).secOfSoc soc near = b.secOfSoc soc near := rfl
  have hnow : (b.setVis Reg.STR_INJ_HEAD 0 0 w).now = b.now := rfl
  unfold Block.claimOf
  simp only [b.strRing_setHead w hc, b.ringRate_setHead w hr, hadmit, htb, hgrid, hsec, hnow]

end head

/-- What a record claimed past a taken descriptor leaves. -/
theorem Block.Claimed.of_setHead {b x : Block} {w : Word} {c : Nat} {k : Claim} (hc : c < 1048576)
    (h : (b.setVis Reg.STR_INJ_HEAD 0 0 w).Claimed x c k) :
    x.vis Reg.STR_INJ_HEAD = w ∧ x.aln.claims = b.aln.claims ++ [k] ∧ b.counts x Reg.STR_CTX_RX_RECORDS c := by
  obtain ⟨hclaims, hcounted, hhead⟩ := h
  refine ⟨hhead.trans (Block.vis_setVis_same ..), hclaims, ?_⟩
  have hother : (b.setVis Reg.STR_INJ_HEAD 0 0 w).vis Reg.STR_CTX_RX_RECORDS c = b.vis Reg.STR_CTX_RX_RECORDS c :=
    Block.vis_setVis_other _ _ _ _ _ _ _ _ (RegDesc.key_ne (by decide) (by decide) hc (by decide) (fun h => absurd h.1 (by decide)))
  unfold Block.counts at hcounted ⊢
  rw [← hother]
  exact hcounted

/-- A descriptor of a firmware-path context with one frame of its size is taken and processed. -/
theorem Block.inject_frame {b : Block} {a c len : Nat} {p : List Byte} (hs : (b.vis Reg.STR_INJ_SIZE).toNat ≠ 0)
    (hne : b.vis Reg.STR_INJ_HEAD ≠ b.vis Reg.STR_INJ_TAIL) (hw : b.str.offers = [])
    (ha : a = b.addrOf Reg.STR_INJ_BASE_LO Reg.STR_INJ_BASE_HI + (b.vis Reg.STR_INJ_HEAD).toNat * 32)
    (hc : c = b.loadN (a + 12) 2 % 8192) (hl : len = b.loadN (a + 8) 4) (hmax : len ≤ 16384) (hp : p = b.load (b.loadN a 8) len)
    (hfw : b.cb Reg.STR_CTX_CTRL c 30 = true) (hlen : 16 + b.blockSize c = p.length) :
    b.inject = (b.setVis Reg.STR_INJ_HEAD 0 0 (w32 (((b.vis Reg.STR_INJ_HEAD).toNat + 1) % (b.vis Reg.STR_INJ_SIZE).toNat))).injFrame c
      (b.loadN (a + 16) 6 * nsPerS + b.loadN (a + 22) 4) p (b.poisonedRange (b.loadN a 8) len) := by
  have hc' : c < 1048576 := by omega
  have hsize : 16 + b.blockSize c = len := by rw [hlen, hp]; simp [Block.load]
  unfold Block.inject
  dsimp only
  rw [if_neg (by simp [hs, BitVec.toNat_inj, hne]), if_neg (by simp [hw]), ← ha, ← hc, ← hl]
  unfold Block.cb at hfw ⊢
  rw [Block.cfgCtx_setHead _ _ hc' _ (by decide), hfw, if_neg (by simp; omega), Block.blockSize_setHead _ _ hc', if_neg (by omega), hp]
  rfl

/-! ### Reassembly (R62) -/

/-- A datagram discarded is the one of its key. -/
theorem Block.reasmDrop_reasm (b : Block) (key : List Byte) (ctr : RegDesc) :
    (b.reasmDrop key ctr).str.reasm = b.str.reasm.filter (fun r => r.key != key) :=
  congrArg Stream.reasm ((Block.reasmEvent_touches _ key ctr).keeps .str rfl)

/-- Several discarded are those of their keys. -/
theorem Block.foldl_reasmDrop_reasm (ctr : RegDesc) (l : List Reasm) (b : Block) :
    (l.foldl (fun b r => b.reasmDrop r.key ctr) b).str.reasm = b.str.reasm.filter (fun r => l.all (fun x => r.key != x.key)) := by
  induction l generalizing b with
  | nil => exact (List.filter_eq_self.mpr fun _ _ => rfl).symm
  | cons x l ih => rw [List.foldl_cons, ih, Block.reasmDrop_reasm, List.filter_filter]; simp [Bool.and_comm]

/-- Of datagrams with keys of their own, those that stayed incomplete for the time go. -/
theorem Block.reasmTimeout_reasm {b : Block} (h : ∀ x ∈ b.str.reasm, ∀ y ∈ b.str.reasm, x.key = y.key → x = y) :
    b.reasmTimeout.str.reasm =
      b.str.reasm.filter (fun r => decide (b.t7 < r.at7 + (b.vis Reg.STR_REASM_TIMEOUT).toNat * 1000)) := by
  unfold Block.reasmTimeout
  dsimp only
  rw [Block.foldl_reasmDrop_reasm]
  refine List.filter_congr (fun r hr => Bool.eq_iff_iff.mpr ?_)
  simp only [List.all_eq_true, List.mem_filter, bne_iff_ne, decide_eq_true_eq]
  constructor
  · intro hall
    exact Nat.lt_of_not_le (fun hover => hall r ⟨hr, hover⟩ rfl)
  · rintro hin x ⟨hx, hover⟩ hkey
    rw [h r hr x hx hkey] at hin
    omega

/-! ### A context that relearns (R108) -/

/-- SEL's advance and the answer leave ALN's contexts. -/
theorem Block.advance_answer_alnCtx (b : Block) (m blk off : Nat) (r : Response) (c : Nat) :
    ((b.advance m blk off).answer m r).alnCtx c = b.alnCtx c :=
  congrArg (fun x : Aln => Tbl.get x.ctx c AlnCtx.reset) (b.advance_aln m blk off)

/-- Settles O18: each command by the lemma of its operation. -/
theorem streamFramesAreClaimed : Obligations.StreamFramesAreClaimed := by
  refine ⟨fun t port c n f rest v d k s hp hf hw hroom hcold hv hfrag hd hn hproto hok hchk htype hcs hlen hen hk => ?_,
    fun t port poisoned aborted f rest s hp hf hw => Completes.onPort t (·.streamIngest port poisoned aborted) rfl hp
      (Block.streamIngest_fifo (b := s.at t) hf hw poisoned aborted),
    fun t port poisoned aborted s hp hw => Completes.onPort t (·.streamIngest port poisoned aborted) rfl hp
      (Block.streamIngest_waits (b := s.at t) hw port poisoned aborted),
    fun t c a p k s hsize hne hw hroom ha hc hmax hp hfw hok hchk htype hlen hen hk => ?_,
    fun t s h => Completes.run (t := t) (f := Block.reasmTimeout) rfl (Block.reasmTimeout_reasm (b := s.at t) h),
    fun t m c s hm hs => ?_⟩
  · refine Completes.onPort t (·.streamIngest port false false) rfl hp
      ⟨Block.streamIngest_fifo (b := s.at t) hf hw false false, ?_⟩
    have hc : c < 1048576 := Block.strCtxs_lt (hcs ▸ List.mem_singleton_self c)
    rw [Block.streamIngest_c37 (b := s.at t) hf hw hcold hv hfrag hd hn hproto]
    have harr : d.arr = f.stamp := by rw [hd]
    obtain ⟨hclaims, hcounted, -⟩ := Block.c37In_claimed (b := (s.at t).setPort port { (s.at t).port port with fifo := rest })
      hw hroom hc false hok hchk htype hcs hlen hen (harr ▸ hk)
    exact ⟨hclaims, hcounted⟩
  · refine Completes.run (t := t) (f := Block.inject) rfl ?_
    have hc' : c < 1048576 := by omega
    rw [Block.inject_frame (b := s.at t) hsize hne hw ha hc rfl hmax hp hfw hlen]
    generalize hhead : w32 _ = w
    have hw32 : w.toNat = ((s.blk.vis Reg.STR_INJ_HEAD).toNat + 1) % (s.blk.vis Reg.STR_INJ_SIZE).toNat := by
      rw [← hhead]
      exact Nat.mod_eq_of_lt (Nat.lt_trans (Nat.mod_lt _ (Nat.pos_of_ne_zero hsize)) (BitVec.isLt _))
    have hclaimed := Block.injFrame_claimed (b := (s.at t).setVis Reg.STR_INJ_HEAD 0 0 w) hw hroom hc'
      ((s.at t).poisonedRange (s.blk.loadN a 8) (s.blk.loadN (a + 8) 4)) hok hchk htype
      ((Block.strEnabled_setHead _ _ hc').trans hen) (by rw [Block.blockSize_setHead _ _ hc']; exact hlen)
      ((Block.claimOf_setHead _ _ hc' ..).trans hk)
    obtain ⟨hhead', hclaims, hcounted⟩ := hclaimed.of_setHead hc'
    exact ⟨hw32 ▸ congrArg BitVec.toNat hhead', hclaims, hcounted⟩
  · refine Completes.byMaster (t := t) (f := fun b => b.atSel m 4 0 (fun b i => b.ctxRelearn i)) rfl (decide_eq_true hm.1) hm ?_
    rw [Block.atSel_some (show (s.at t).selInst 4 m 0 = some c from hs), Block.advance_answer_alnCtx]
    exact Block.alnCtx_setAlnCtx ..

end Sys2Proof.Machine
end

section
/-! PROOFS. What sends of sessions leave of registers and sessions; the commands of sessions, their segments, their stalls (O20). -/

namespace Sys2Proof.Machine

/-! ### Registers that sends leave -/

/-- Registers at different offsets are different registers. -/
theorem regKey_ne_of_off {blk sp i off blk' sp' i' off' : Nat} (h : off < 65536) (h' : off' < 65536) (hne : off ≠ off') :
    regKey blk sp i off ≠ regKey blk' sp' i' off' := by
  unfold regKey
  omega

/-- A counter that nothing changes before its count and after it has advanced by one. -/
theorem Block.KeepsReg.counts {a b x : Block} {d : RegDesc} {i : Nat} (h : Block.KeepsReg (d.key i 0) a x)
    (k : Block.KeepsReg (d.key i 0) (x.count d i) b)
    (hs : ∀ p, d.sat = some p → d.key i 0 ≠ regKey d.blk (d.spaces.headD 15) i p.1) : a.counts b d i := by
  have hx : x.vis d i = a.vis d i := h.reads _
  rw [Block.counts, ← hx, ← x.vis_count_toNat d i 0 1 hs]
  exact congrArg BitVec.toNat (k.reads _)

/-- The uplink of a stream is one of the ports. -/
theorem Block.uplink_lt (b : Block) (d : RegDesc) (i : Nat) : 24 + b.cf d i 24 23 < 30 := by
  have h : b.cf d i 24 23 < 2 ^ 2 := fld_lt ..
  omega

section sends
variable {j : Nat} {a b : Block} (hj : keyBlk j < 16) (hprt : keyBlk j ≠ 2) (h : Block.KeepsReg j a b)
include h

theorem Block.KeepsReg.fold {α : Type} {f : Block → α → Block} (l : List α)
    (k : ∀ x e, Block.KeepsReg j a x → Block.KeepsReg j a (f x e)) : Block.KeepsReg j a (l.foldl f b) :=
  List.foldlRecOn l f h (fun x hx e _ => k x e hx)

include hprt

/-- A counter of a port. -/
theorem Block.KeepsReg.countPrt {c : RegDesc} {p : Nat} (hp : p < 30)
    (hc : c.blk = 2 ∧ c.spaces.headD 15 < 16 ∧ c.off + c.stride * 0 < 65536 ∧ ∀ q ∈ c.sat, q.1 < 65536) :
    Block.KeepsReg j a (b.count c p) :=
  h.trans ⟨fun d => b.count_otherBlk c 0 1 d (by rwa [hc.1]) (by omega) hc.2⟩

/-- Frames queued at a port. -/
theorem Block.KeepsReg.enqueueAll {p : Nat} (hp : p < 30) (cls : Nat) (frames : List (List Byte)) :
    Block.KeepsReg j a (b.enqueueAll p cls frames) := by
  refine h.fold frames (fun x f hx => ?_)
  exact .ite hx.of_vis (hx.countPrt (c := Reg.PRT_TX_ABORT) hprt hp (by decide))

include hj

/-- A large send (R50). -/
theorem Block.KeepsReg.largeSend {p : Nat} (hp : p < 30) (cls : Nat) (d : LargeDesc) :
    Block.KeepsReg j a (b.largeSend p cls d) := by
  unfold Block.largeSend
  exact .ite ((h.countPrt hprt hp (by decide)).eventRep hj) (h.enqueueAll hprt hp cls _)

/-- Segments of a session (R129). -/
theorem Block.KeepsReg.sessSend {i seq flags : Nat} {data : List Byte} : Block.KeepsReg j a (b.sessSend i seq flags data) := by
  unfold Block.sessSend
  dsimp only
  exact .ite (h.of_vis.enqueueAll hprt (b.uplink_lt ..) 1 _) (h.of_vis.largeSend hj hprt (b.uplink_lt ..) 1 _)

theorem Block.KeepsReg.sessRange {i seq n : Nat} : Block.KeepsReg j a (b.sessRange i seq n) :=
  h.fold _ (fun _ _ hx => hx.sessSend hj hprt)

/-- A re-send (R130). -/
theorem Block.KeepsReg.sessRetxAt {i x : Nat} : Block.KeepsReg j a (b.sessRetxAt i x) := by
  have hr : Block.KeepsReg j a (b.sessResend i x) := by
    unfold Block.sessResend
    dsimp only
    exact .ite h (.ite ((h.sessRange hj hprt).sessSend hj hprt) (h.sessRange hj hprt))
  exact hr.of_vis

/-- A session reset (R130). -/
theorem Block.KeepsReg.sessRst {i : Nat} : Block.KeepsReg j a (b.sessRst i) := by
  unfold Block.sessRst
  exact .ite h (h.sessSend hj hprt).of_vis

end sends

/-! ### Sessions that sends leave -/

/-- What leaves the sessions of OUT leaves each of them. -/
theorem Block.sess_congr {a b : Block} (h : b.out.sess = a.out.sess) (k : Nat) : b.sess k = a.sess k :=
  congrArg (Tbl.get · k Session.reset) h

/-- And what leaves OUT's part does. -/
theorem Touches.sess {l : List Part} {a b : Block} (h : Touches l a b) (hl : l.contains .out = false) (k : Nat) : b.sess k = a.sess k :=
  Block.sess_congr (congrArg Out.sess (h.keeps .out hl)) k

@[simp] theorem Block.sessSend_sess (b : Block) (i seq flags : Nat) (data : List Byte) (k : Nat) :
    (b.sessSend i seq flags data).sess k = b.sess k := by
  unfold Block.sessSend
  dsimp only
  split
  · exact (Block.enqueueAll_touches ..).sess rfl k
  · exact (Block.largeSend_touches ..).sess rfl k

@[simp] theorem Block.sessRange_sess (b : Block) (i seq n k : Nat) : (b.sessRange i seq n).sess k = b.sess k :=
  List.foldlRecOn (motive := fun x : Block => x.sess k = b.sess k) _ _ rfl (fun _ hx _ _ => (Block.sessSend_sess ..).trans hx)

theorem Block.sess_ite {p : Prop} [Decidable p] {x y b : Block} {k : Nat} (hx : x.sess k = b.sess k) (hy : y.sess k = b.sess k) :
    (if p then x else y).sess k = b.sess k := by
  split
  · exact hx
  · exact hy

@[simp] theorem Block.sessRetxAt_sess (b : Block) (i a k : Nat) : (b.sessRetxAt i a).sess k = b.sess k := by
  have h : (b.sessResend i a).sess k = b.sess k := by
    unfold Block.sessResend
    exact Block.sess_ite rfl (Block.sess_ite ((Block.sessSend_sess ..).trans (Block.sessRange_sess ..)) (Block.sessRange_sess ..))
  exact h

/-! ### What the session commands leave of their session -/

/-- A session after its segments have been sent: what the peer's window admits, and behind the last byte the FIN of a closing session
(R129, R130). -/
def Session.segmented (x : Session) : Session :=
  let n := min (seqDiff x.nxt x.top) (x.wnd - seqDiff x.una x.nxt)
  if x.st = 2 ∧ x.finSent = false ∧ (x.nxt + n) % 2 ^ 32 = x.top then { x with nxt := (x.top + 1) % 2 ^ 32, finSent := true }
  else { x with nxt := (x.nxt + n) % 2 ^ 32 }

theorem Session.segmented_keeps (x : Session) : x.segmented.st = x.st ∧ x.segmented.on = x.on ∧ x.segmented.top = x.top := by
  unfold Session.segmented
  dsimp only
  split <;> exact ⟨rfl, rfl, rfl⟩

theorem Block.sessSegments_sess {b : Block} {i : Nat} (h : (b.sess i).st ≠ 0) : (b.sessSegments i).sess i = (b.sess i).segmented := by
  have hroom (w u : Nat) : w - min w u = w - u := by omega
  unfold Block.sessSegments Session.segmented
  dsimp only
  rw [if_neg h, hroom]
  split
  · rename_i hfin
    rw [Block.sess_setSess, hfin.2.2]
  · exact Block.sess_setSess ..

theorem Block.sessOpen_sess {b : Block} {i : Nat} (hst : (b.sess i).st = 0) (htcp : b.cf Reg.OUT_STR_CFG (b.sessStream i) 27 26 = 2)
    (hsize : 65536 ≤ b.sessSize i) (hbase : b.sessBase i % 64 = 0) :
    (b.sessOpen i).sess i = ⟨1, none, (b.vis Reg.OUT_SESS_ISS i).toNat, (b.vis Reg.OUT_SESS_ISS i).toNat,
      (b.vis Reg.OUT_SESS_WND i).toNat, (b.vis Reg.OUT_SESS_ISS i).toNat, 0, false⟩ := by
  unfold Block.sessOpen
  dsimp only
  rw [if_neg (by simp [hst]), if_neg (by omega)]
  exact Block.sess_setSess ..

theorem Block.sessClose_sess {b : Block} {i : Nat} (h : (b.sess i).st = 1) :
    (b.sessClose i).sess i = { b.sess i with st := 2, on := 0 : Session }.segmented := by
  unfold Block.sessClose
  dsimp only
  rw [if_neg (by simp [h]), Block.sessSegments_sess (by simp), Block.sess_setSess]

theorem Block.sessRst_sess {b : Block} {i : Nat} (h : (b.sess i).st ≠ 0) :
    (b.sessRst i).sess i = { b.sess i with st := 0, stall := none, on := 0 } := by
  unfold Block.sessRst
  dsimp only
  rw [if_neg h, Block.sess_setSess]

/-- An acknowledgement within what has been sent is taken with the window; that of the FIN closes (R130). -/
theorem Block.sessAckTake_sess {b : Block} {i a : Nat} (hst : (b.sess i).st ≠ 0)
    (hle : seqDiff (b.sess i).una a ≤ seqDiff (b.sess i).una (b.sess i).nxt) :
    ∃ stall, (b.sessAckTake i a).sess i = { b.sess i with
      una := a % 2 ^ 32, wnd := (b.vis Reg.OUT_SESS_WND i).toNat, stall := stall
      st := if (b.sess i).finSent = true ∧ seqDiff (b.sess i).top a = 1 then 0 else (b.sess i).st } := by
  unfold Block.sessAckTake
  dsimp only
  rw [if_neg hst, if_neg (by omega)]
  by_cases hfin : (b.sess i).finSent = true ∧ seqDiff (b.sess i).top a = 1
  · rw [if_pos hfin, if_pos hfin]
    exact ⟨_, Block.sess_setSess ..⟩
  · rw [if_neg hfin, if_neg hfin]
    exact ⟨_, Block.sess_setSess ..⟩

/-- So too where re-sends of the same cycle are taken back and asked for again. -/
theorem Block.sessAck_sess {b : Block} {i a : Nat} (hst : (b.sess i).st ≠ 0)
    (hle : seqDiff (b.sess i).una a ≤ seqDiff (b.sess i).una (b.sess i).nxt) :
    ∃ stall, (b.sessAck i a).sess i = { b.sess i with
      una := a % 2 ^ 32, wnd := (b.vis Reg.OUT_SESS_WND i).toNat, stall := stall
      st := if (b.sess i).finSent = true ∧ seqDiff (b.sess i).top a = 1 then 0 else (b.sess i).st } := by
  unfold Block.sessAck
  dsimp only
  split
  · exact Block.sessAckTake_sess hst hle
  · generalize 24 + b.cf Reg.OUT_STR_CFG (b.sessStream i) 24 23 = p
    generalize PrtPort.mk .. = x
    obtain ⟨stall, htaken⟩ := Block.sessAckTake_sess (b := b.setPort p x) hst hle
    exact ⟨stall, List.foldlRecOn (motive := fun y : Block => y.sess i = _) _ _ htaken
      (fun _ hy _ _ => (Block.sessRetxAt_sess ..).trans hy)⟩

/-- A request for a re-send is counted and moves nothing (R130). -/
theorem Block.sessRetx_counted {b : Block} {i : Nat} (hi : i < 64) (hst : (b.sess i).st ≠ 0) (a : Nat) :
    (b.sessRetx i a).sess i = b.sess i ∧ b.counts (b.sessRetx i a) Reg.OUT_SESS_RETX_REQ i := by
  have hblk : keyBlk (Reg.OUT_SESS_RETX_REQ.key i 0) = 5 := keyBlk_regKey (by decide) (by omega) (by decide)
  unfold Block.sessRetx
  rw [if_neg hst]
  refine ⟨?_, Block.KeepsReg.counts .refl (.sessRetxAt (by omega) (by omega) .refl)
    (by rintro _ ⟨⟩; exact regKey_ne_of_off (by decide) (by decide) (by decide))⟩
  rw [Block.sessRetxAt_sess, (Block.count_touches ..).sess rfl]

/-- A segment without data is one frame more for an uplink that is up. -/
theorem Block.sessSend_empty_txq {b : Block} {i p : Nat} (hp : p = 24 + b.cf Reg.OUT_STR_CFG (b.sessStream i) 24 23)
    (hup : (b.port p).up = true) (seq flags : Nat) :
    ((b.sessSend i seq flags []).port p).txq.length = (b.port p).txq.length + 1 := by
  subst hp
  unfold Block.sessSend
  dsimp only
  rw [if_pos rfl, Block.enqueueAll_txq (by exact hup), List.length_append]
  rfl

/-- A bit of IRQ_STATUS that is raised is set. -/
theorem Block.irq_bit (b : Block) (blk : Nat) {n : Nat} (hn : n < 32) :
    bit (Tbl.get (b.irq blk n).regs.vis (regKey blk 15 0 0x400) 0).toNat n = true := by
  have hs : Tbl.get (b.irq blk n).regs.vis (regKey blk 15 0 0x400) 0 =
      Tbl.get b.regs.vis (regKey blk 15 0 0x400) 0 ||| BitVec.twoPow 32 n := Tbl.get_put_same ..
  rw [hs, bit_eq_testBit, BitVec.testBit_toNat]
  simp [hn]

/-- A stall of SESS_STALL_MS resets the session, which is counted and raised (R129). -/
theorem Block.sessStall_resets {b : Block} {i a : Nat} (hst : (b.sess i).st = 1) (hstall : (b.sess i).stall = some a)
    (hover : a + (b.vis Reg.OUT_SESS_STALL_MS).toNat * 1000000 ≤ b.t7) :
    ((b.sessStall i).sess i).st = 0 ∧ b.counts (b.sessStall i) Reg.OUT_SESS_RESETS ∧
      bit ((b.sessStall i).vis Reg.OUT_IRQ_STATUS).toNat 2 = true := by
  have he : b.sessStall i =
      ((((b.sessRst i).count Reg.OUT_SESS_RESETS).irq Blk.out 2).outNotice (Out.noticeOp 1) i 0).eventRep i 0x0602 i := by
    unfold Block.sessStall
    simp only [hstall]
    exact if_pos ⟨hst, hover⟩
  have hkeep {j : Nat} {x y : Block} (hj : keyBlk j < 16) (h : Block.KeepsReg j x y) :
      Block.KeepsReg j x ((y.outNotice (Out.noticeOp 1) i 0).eventRep i 0x0602 i) := (h.push hj).eventRep hj
  have hbit := ((b.sessRst i).count Reg.OUT_SESS_RESETS).irq_bit Blk.out (n := 2) (by decide)
  rw [← (hkeep (by decide) .refl).reads] at hbit
  rw [he]
  refine ⟨?_, Block.KeepsReg.counts (.sessRst (by decide) (by decide) .refl) (hkeep (by decide) (.raiseBit .refl (by decide)))
    (by rintro _ ⟨⟩; decide), hbit⟩
  have hrst : ((b.sessRst i).sess i).st = 0 := by rw [Block.sessRst_sess (by rw [hst]; decide)]
  rw [(Block.eventRep_touches ..).sess rfl, (Block.outNotice_touches ..).sess rfl, (Block.irq_touches ..).sess rfl,
    (Block.count_touches ..).sess rfl, hrst]

/-! ### The commands of a master on the session that its SEL names -/

/-- What SEL names is within its space. -/
theorem Block.selInst_lt {b : Block} {blk m sp i : Nat} (h : b.selInst blk m sp = some i) : i < Reg.instances blk sp := by
  unfold Block.selInst at h
  dsimp only at h
  split at h
  · rename_i hi
    cases h
    exact hi.2
  · cases h

/-- A command acts on what SEL names; only SEL's advance and the answer follow. -/
theorem Completes.bySel {c : Instr} {s : State} {t m blk off sp i : Nat} {P : Block → Prop} (f : Block → Nat → Block)
    (hc : exec c s = s.runIf (Wf.master m) t (fun b => b.byMaster m blk off (fun b => b.atSel m blk sp f)))
    (hm : s.blk.mayWrite m blk off) (hs : s.blk.selInst blk m sp = some i)
    (hp : P (((f (s.at t) i).advance m blk off).answer m .written)) : Completes c s P := by
  refine Completes.byMaster hc (decide_eq_true hm.1) hm ?_
  rw [Block.atSel_some (show (s.at t).selInst blk m sp = some i from hs)]
  exact hp

@[simp] theorem Block.advance_answer_sess (b : Block) (m blk off : Nat) (r : Response) (k : Nat) :
    ((b.advance m blk off).answer m r).sess k = b.sess k :=
  Block.sess_congr (congrArg Out.sess (b.advance_out m blk off)) k

/-- Settles O20: each command by the lemma of its operation. -/
theorem sessionsActAndSend : Obligations.SessionsActAndSend := by
  refine ⟨fun t m i s hm hs hst htcp hsize hbase => ?_, fun t m i s hm hs hst => ?_, fun t m i s hm hs hst => ?_,
    fun t m i s hm hs hst hup => ?_, fun t m i a s hm hs hst hle => ?_, fun t m i a s hm hs hst => ?_,
    fun t i n s hi hst hn => ?_, fun t i a s hi hst hstall hover => ?_⟩
  · refine Completes.bySel Block.sessOpen rfl hm hs ?_
    rw [Block.advance_answer_sess]
    exact Block.sessOpen_sess (b := s.at t) hst htcp hsize hbase
  · refine Completes.bySel Block.sessClose rfl hm hs ?_
    rw [Block.advance_answer_sess, Block.sessClose_sess (b := s.at t) hst]
    exact Session.segmented_keeps _
  · refine Completes.bySel Block.sessRst rfl hm hs ?_
    rw [Block.advance_answer_sess, Block.sessRst_sess (b := s.at t) hst]
    exact ⟨rfl, rfl, rfl⟩
  · refine Completes.bySel Block.sessAckSend rfl hm hs ?_
    have hack : (s.at t).sessAckSend i = (s.at t).sessSend i ((s.at t).sess i).nxt 0x10 [] := if_neg hst
    dsimp only
    rw [Block.advance_answer_sess, Block.advance_answer_port, hack]
    exact ⟨Block.sessSend_empty_txq (b := s.at t) rfl hup .., Block.sessSend_sess ..⟩
  · refine Completes.bySel (fun b i => b.sessAck i (a % 2 ^ 32)) rfl hm hs ?_
    obtain ⟨stall, htaken⟩ := Block.sessAck_sess (b := s.at t) hst hle
    rw [Block.advance_answer_sess, htaken]
    exact ⟨Nat.mod_mod .., rfl, rfl⟩
  · refine Completes.bySel (fun b i => b.sessRetx i (a % 2 ^ 32)) rfl hm hs ?_
    obtain ⟨hsess, hcounted⟩ := Block.sessRetx_counted (b := s.at t) (Block.selInst_lt hs) hst (a % 2 ^ 32)
    rw [Block.advance_answer_sess, Block.counts, Block.answer_vis, Block.advance_vis _ _ _ _ _ _ _ (by decide) (by decide)]
    exact ⟨hsess, hcounted⟩
  · refine Completes.runIf (f := fun b => b.sessSegments i) rfl (decide_eq_true hi) ?_
    dsimp only
    rw [Block.sessSegments_sess (b := s.at t) hst, hn]
    exact ⟨fun hf => if_neg hf, fun hf => if_pos hf⟩
  · refine Completes.runIf (f := fun b => b.sessStall i) rfl (decide_eq_true hi) ?_
    exact Block.sessStall_resets (b := s.at t) hst hstall hover

end Sys2Proof.Machine
end

section
/-! PROOFS. A command taken from Q16, what frames read of the block it leaves, frames answered into a session's buffer, notices to firmware:
the commands of subscribers (O21). -/

namespace Sys2Proof.Machine

/-- A register at another offset than a given register's. -/
theorem ne_regKey_of_off {j blk sp i off : Nat} (h : j % 65536 ≠ off) (ho : off < 65536) : j ≠ regKey blk sp i off := by
  unfold regKey
  omega

/-- The offset of a stored register. -/
theorem regKey_mod (blk sp i off : Nat) : regKey blk sp i off % 65536 = off % 65536 := by
  unfold regKey
  omega

/-- A counter that has advanced by one has done so past what leaves it. -/
theorem Block.counts_keeps {a b z : Block} {d : RegDesc} {i : Nat} (h : a.counts b d i) (k : Block.KeepsReg (d.key i 0) b z) :
    a.counts z d i := by
  have hvis : z.vis d i = b.vis d i := k.reads _
  unfold Block.counts at h ⊢
  rwa [hvis]

/-- What touches no register leaves each. -/
theorem Touches.keepsReg {l : List Part} {a b : Block} (h : Touches l a b) (hl : l.contains .vis = false) {j : Nat} :
    Block.KeepsReg j a b :=
  .of_vis .refl (congrArg Prod.fst (h.keeps .vis hl))

/-! ### What configuration and header frames read -/

/-- The offsets of OUT.STR_CMD_RX, of its SAT flag and of IRQ_STATUS: what taking a command changes of the registers. -/
abbrev Out.cmdOffsets : List Nat := [0x98, 0xA8, 0x400]

/-- Two blocks that differ in queues, and of the registers only in what software sees at those offsets. -/
structure Block.FramesAs (a b : Block) : Prop where
  same : ∃ v f q, b = { a with regs := { a.regs with vis := v, fresh := f }, que := q }
  reads : ∀ j, j % 65536 ∉ Out.cmdOffsets → Block.KeepsReg j a b

section frames
variable {a b : Block} (h : Block.FramesAs a b)
include h

theorem Block.FramesAs.cfg (d : RegDesc) (i k : Nat) (hd : (d.off + d.stride * k) % 65536 ∉ Out.cmdOffsets) :
    b.cfg d i k = a.cfg d i k := by
  have hvis : b.vis d i k = a.vis d i k := (h.reads _ (by rwa [RegDesc.key, regKey_mod])).reads _
  have hact : b.act d i k = a.act d i k := by
    obtain ⟨v, f, q, rfl⟩ := h.same
    rfl
  unfold Block.cfg
  rw [hvis, hact]

theorem Block.FramesAs.cf (d : RegDesc) (i hi lo : Nat) (hd : (d.off + d.stride * 0) % 65536 ∉ Out.cmdOffsets) :
    b.cf d i hi lo = a.cf d i hi lo := congrArg (fld · hi lo) (h.cfg d i 0 hd)

theorem Block.FramesAs.cb (d : RegDesc) (i n : Nat) (hd : (d.off + d.stride * 0) % 65536 ∉ Out.cmdOffsets) :
    b.cb d i n = a.cb d i n := congrArg (fun w : Word => bit w.toNat n) (h.cfg d i 0 hd)

theorem Block.FramesAs.cn (d : RegDesc) (i k : Nat) (hd : (d.off + d.stride * k) % 65536 ∉ Out.cmdOffsets) :
    b.cn d i k = a.cn d i k := congrArg BitVec.toNat (h.cfg d i k hd)

theorem Block.FramesAs.out : b.out = a.out := by
  obtain ⟨v, f, q, rfl⟩ := h.same
  rfl

theorem Block.FramesAs.cas : b.cas = a.cas := by
  obtain ⟨v, f, q, rfl⟩ := h.same
  rfl

theorem Block.FramesAs.loadN (x n : Nat) : b.loadN x n = a.loadN x n := by
  obtain ⟨v, f, q, rfl⟩ := h.same
  rfl

theorem Block.FramesAs.loadSafe (x n : Nat) : b.loadSafe x n = a.loadSafe x n := by
  obtain ⟨v, f, q, rfl⟩ := h.same
  rfl

theorem Block.FramesAs.outParts (s : Nat) : b.outParts s = a.outParts s := by
  unfold Block.outParts
  simp (disch := decide) only [h.cf]

theorem Block.FramesAs.outMember (i : Nat) : b.outMember i = a.outMember i := by
  unfold Block.outMember
  simp (disch := decide) only [h.cn, h.loadN]

theorem Block.FramesAs.outMembers (s part : Nat) : b.outMembers s part = a.outMembers s part := by
  unfold Block.outMembers
  simp (disch := decide) only [h.outParts, h.cf, h.cb, h.outMember]

theorem Block.FramesAs.outAna (s part : Nat) : b.outAna s part = a.outAna s part := by
  unfold Block.outAna
  simp (disch := decide) only [h.outParts, h.cb]

theorem Block.FramesAs.outCtx (g : Nat) : b.outCtx g = a.outCtx g := by
  unfold Block.outCtx Block.strFmt Block.strFnom
  simp (disch := decide) only [h.cf, h.cb, h.cn, h.cas]

theorem Block.FramesAs.outScale (g : Nat) {i : Nat} (hi : i < 128) : b.outScale g i = a.outScale g i := by
  have hscale : b.strScale g i = a.strScale g i := h.cn Reg.STR_CTX_SCALE g i (by
    show (0x100 + 4 * i) % 65536 ∉ Out.cmdOffsets
    simp only [Out.cmdOffsets, List.mem_cons, List.not_mem_nil, or_false]
    omega)
  unfold Block.outScale
  rw [hscale, h.cas]

theorem Block.FramesAs.cfgText (kind index : Nat) : b.cfgText kind index = a.cfgText kind index := by
  unfold Block.cfgText
  simp (disch := decide) only [h.cn, h.loadSafe]

theorem Block.FramesAs.anaNom (s : Nat) : b.anaNom s = a.anaNom s := by
  unfold Block.anaNom
  simp only [h.outParts, h.outMembers, h.outCtx]

/-- The names and scales of elements from a number on. -/
theorem Block.FramesAs.scales (c : Nat) {n : Nat} (hn : n < 64) (p : Nat → Bool) (name : Nat → List Byte) :
    ((List.range 32).filter p).map (fun i => (name i, b.outScale c (n + i))) =
      ((List.range 32).filter p).map (fun i => (name i, a.outScale c (n + i))) := by
  refine List.map_congr_left (fun i hi => ?_)
  have hlt : i < 32 := List.mem_range.mp (List.mem_filter.mp hi).1
  rw [h.outScale c (by omega)]

theorem Block.FramesAs.cfgMember (entry : Nat) (m : OutMember) : b.cfgMember entry m = a.cfgMember entry m := by
  have hph : (a.outCtx m.ctx).1 < 64 := by
    unfold Block.outCtx
    split
    · exact fld_lt ..
    · exact bits_lt ..
  have hzero := h.scales m.ctx (n := 0) (by decide) (bit m.ph)
  simp only [Nat.zero_add] at hzero
  unfold Block.cfgMember
  simp only [h.outCtx, h.cfgText, hzero, h.scales m.ctx hph]

theorem Block.FramesAs.cfgBlocks (s part : Nat) : b.cfgBlocks s part = a.cfgBlocks s part := by
  unfold Block.cfgBlocks Block.cfgAnalytics
  simp (disch := decide) only [h.outMembers, h.cf, h.cfgMember, h.outAna, h.outParts, h.cfgText, h.out, h.anaNom]

theorem Block.FramesAs.tbErr (n : Nat) : b.tbErr n = a.tbErr n := by
  have htb (n : Nat) : b.tb n = a.tb n := by
    obtain ⟨v, f, q, rfl⟩ := h.same
    rfl
  have ht7 : b.t7 = a.t7 := by
    obtain ⟨v, f, q, rfl⟩ := h.same
    rfl
  have hhold (n : Nat) : b.errHold n = a.errHold n := by
    unfold Block.errHold
    simp (disch := decide) only [htb, ht7, h.cf]
  unfold Block.tbErr Block.errOwn Block.errFrom
  simp only [htb, hhold]

theorem Block.FramesAs.outNowFrame (s part ty : Nat) (body : List Byte) : b.outNowFrame s part ty body = a.outNowFrame s part ty body := by
  have hhigh (sec : Nat) : b.fracHigh sec = a.fracHigh sec := by
    unfold Block.fracHigh Block.tqCodes
    simp only [h.tbErr]
    obtain ⟨v, f, q, rfl⟩ := h.same
    rfl
  unfold Block.outNowFrame
  simp (disch := decide) only [h.cf, hhigh]
  obtain ⟨v, f, q, rfl⟩ := h.same
  rfl

theorem Block.FramesAs.ringRate {r : Nat} (hr : r < 2) : b.ringRate r = a.ringRate r := by
  obtain rfl | rfl : r = 0 ∨ r = 1 := by omega
  all_goals exact congrArg (fld · 7 0) (h.cfg Reg.ALN_RING_RATE 0 _ (by decide))

theorem Block.FramesAs.weirBoundB {r : Nat} (hr : r < 2) : b.weirBoundB r = a.weirBoundB r := by
  unfold Block.weirBoundB
  obtain rfl | rfl : r = 0 ∨ r = 1 := by omega
  all_goals simp (disch := decide) only [h.cfg, h.cn]

theorem Block.FramesAs.cfgFrames (s part ty : Nat) : b.cfgFrames s part ty = a.cfgFrames s part ty := by
  have hring : a.cf Reg.OUT_STR_CFG s 30 30 < 2 := fld_lt ..
  unfold Block.cfgFrames Block.outDataRate
  simp (disch := decide) only [h.cf, h.cn, h.cfgBlocks, h.ringRate hring, h.weirBoundB hring, h.out, h.outNowFrame]

theorem Block.FramesAs.headerFrame (s part : Nat) : b.headerFrame s part = a.headerFrame s part := by
  unfold Block.headerFrame
  rw [h.outNowFrame, h.cfgText]

end frames

/-! ### A command taken (R132) -/

/-- The head of an enabled queue in which no flush and no break marker waits (R346, R349). -/
theorem Block.hwPop_head {b : Block} {q : Nat} {i : QItem} {r : List QItem} (hen : b.qen q = true)
    (hflush : (b.queue q).flushPending = false) (hbreak : (b.queue q).breakPending = false) (hitems : (b.queue q).items = i :: r) :
    ∃ rd, b.hwPop q = (some i, b.setQueue q { b.queue q with items := r, rd := rd, breakPending := false }) := by
  unfold Block.hwPop
  dsimp only
  rw [if_neg (by simp [hen, hflush])]
  simp only [hitems, hbreak]
  exact ⟨_, rfl⟩

/-- What leaves the queues leaves each of them. -/
theorem Block.queue_congr {a b : Block} (h : b.que = a.que) (q : Nat) : b.queue q = a.queue q := congrArg (Tbl.get · q Queue.reset) h

/-- A count writes what software sees and what this cycle did to it. -/
theorem Block.count_vis_eq (b : Block) (d : RegDesc) (i k n : Nat) :
    ∃ v f, b.count d i k n = { b with regs := { b.regs with vis := v, fresh := f } } := by
  unfold Block.count
  dsimp only
  split
  · exact ⟨_, _, rfl⟩
  · split <;> exact ⟨_, _, rfl⟩

/-- From one block to the other the head of Q16 has been taken as a command for a stream, raised and counted. -/
structure Block.CmdTaken (a b : Block) (stream : Nat) (rest : List QItem) : Prop extends Block.FramesAs a b where
  items : (b.queue 16).items = rest
  others : ∀ q, q ≠ 16 → b.queue q = a.queue q
  counted : a.counts b Reg.OUT_STR_CMD_RX stream

/-- OUT.STR_CMD_RX is none of the registers at other offsets. -/
theorem ne_cmdRxKey {stream blk sp i off : Nat} (ho : off < 65536) (hne : off ≠ 0x98) : regKey 5 0 stream 0x98 ≠ regKey blk sp i off :=
  regKey_ne_of_off (by decide) ho hne.symm

/-- Taking the head of Q16, the interrupt and the count. -/
theorem Block.cmdTaken {b : Block} {i : QItem} {r : List QItem} (stream : Nat) (hen : b.qen 16 = true)
    (hflush : (b.queue 16).flushPending = false) (hbreak : (b.queue 16).breakPending = false) (hitems : (b.queue 16).items = i :: r) :
    (b.hwPop 16).1 = some i ∧ b.CmdTaken (((b.hwPop 16).2.irq Blk.out 0).count Reg.OUT_STR_CMD_RX stream) stream r := by
  obtain ⟨rd, hpop⟩ := Block.hwPop_head hen hflush hbreak hitems
  rw [hpop]
  generalize hx : Queue.mk .. = x
  refine ⟨rfl, ⟨⟨?_, fun j hj => ?_⟩, ?_, fun q hq => ?_, ?_⟩⟩
  · obtain ⟨v, f, h⟩ := ((b.setQueue 16 x).irq Blk.out 0).count_vis_eq Reg.OUT_STR_CMD_RX stream 0 1
    exact ⟨v, f, _, h⟩
  · simp only [Out.cmdOffsets, List.mem_cons, List.not_mem_nil, or_false, not_or] at hj
    obtain ⟨hrx, hsat, hirq⟩ := hj
    exact ((Block.KeepsReg.refl.of_vis).raiseBit (ne_regKey_of_off hirq (by decide))).count (ne_regKey_of_off hrx (by decide))
      (by rintro _ ⟨⟩; exact ne_regKey_of_off hsat (by decide))
  · rw [Block.queue_congr (a := b.setQueue 16 x) (by simp), Block.queue_setQueue, ← hx]
  · rw [Block.queue_congr (a := b.setQueue 16 x) (by simp), Block.queue_setQueue_other _ _ hq]
  · exact Block.KeepsReg.counts (.raiseBit (.of_vis .refl) (ne_cmdRxKey (by decide) (by decide))) .refl
      (by rintro _ ⟨⟩; exact ne_cmdRxKey (by decide) (by decide))

/-- The sessions and the streams that items of Q16 name. -/
theorem Block.outCmdOf_lt (b : Block) (v : Nat) : (b.outCmdOf v).inst < 64 ∧ (b.outCmdOf v).stream < 64 := by
  have hinst : bits v 53 48 < 64 := bits_lt v 53 48
  have hstream : b.sessStream (bits v 53 48) < 64 := fld_lt _ 27 22
  refine ⟨hinst, ?_⟩
  unfold Block.outCmdOf
  dsimp only
  split
  · exact hinst
  · exact hstream

/-- A command of Table 5.5 that names a part acts on the block that has taken it. -/
theorem Completes.bySubscriber {c : Instr} {s : State} {t p : Nat} {i : QItem} {r : List QItem} {oc : OutCmd} {is : Nat → Bool}
    {P : Block → Prop} (act : Block → OutCmd → Nat → Block)
    (hc : exec c s = s.run t (fun b => b.outCmd is act Block.cmdIgnored)) (hen : s.blk.qen 16 = true)
    (hflush : (s.blk.queue 16).flushPending = false) (hbreak : (s.blk.queue 16).breakPending = false)
    (hitems : (s.blk.queue 16).items = i :: r) (hop : bits i.val 63 56 = 1) (hcmd : s.blk.outCmdOf i.val = oc) (his : is oc.code = true)
    (hpart : oc.part = some p) (h : oc.inst < 64 → oc.stream < 64 → ∀ y, (s.at t).CmdTaken y oc.stream r → P (act y oc p)) :
    Completes c s P := by
  refine Completes.run hc ?_
  obtain ⟨hpop, htaken⟩ := Block.cmdTaken (b := s.at t) oc.stream hen hflush hbreak hitems
  have hcmd' : (s.at t).outCmdOf i.val = oc := hcmd
  have hitems' : ((s.at t).queue 16).items = i :: r := hitems
  obtain ⟨hinst, hstream⟩ := hcmd ▸ s.blk.outCmdOf_lt i.val
  have he : (s.at t).outCmd is act Block.cmdIgnored = act ((((s.at t).hwPop 16).2.irq Blk.out 0).count Reg.OUT_STR_CMD_RX oc.stream) oc p := by
    unfold Block.outCmd
    simp only [hitems', hcmd', hop, his, hpop, hpart]
    rfl
  exact he ▸ h hinst hstream _ htaken

/-! ### Frames into a session's buffer (R129) -/

theorem Block.KeepsReg.sessCopy {j : Nat} {a b : Block} (h : Block.KeepsReg j a b) (hj : keyBlk j < 16)
    (ho : j % 65536 ∉ [0x90, 0x94, 0xA0]) {i : Nat} {frame : List Byte} : Block.KeepsReg j a (b.sessCopy i frame) := by
  simp only [List.mem_cons, List.not_mem_nil, or_false, not_or] at ho
  obtain ⟨hframes, hdrop, hsat⟩ := ho
  have hne : j ≠ regKey 5 1 i 0xA0 := ne_regKey_of_off hsat (by decide)
  unfold Block.sessCopy
  dsimp only
  exact .ite (h.of_vis.count (ne_regKey_of_off hframes (by decide)) (by rintro _ ⟨⟩; exact hne))
    ((h.of_vis.count (ne_regKey_of_off hdrop (by decide)) (by rintro _ ⟨⟩; exact hne)).eventRep hj)

/-- A frame goes whole behind the buffered bytes, or not at all. -/
theorem Block.sessCopy_sess (b : Block) (i : Nat) (frame : List Byte) :
    ((b.sessCopy i frame).sess i).una = (b.sess i).una ∧
    ((b.sessCopy i frame).sess i).top = (if seqDiff (b.sess i).una (b.sess i).top + frame.length ≤ b.sessSize i
      then ((b.sess i).top + frame.length) % 2 ^ 32 else (b.sess i).top) := by
  unfold Block.sessCopy
  dsimp only
  split
  · rw [(Block.count_touches ..).sess rfl, Block.sess_setSess]
    exact ⟨rfl, rfl⟩
  · rw [(Block.eventRep_touches ..).sess rfl, (Block.count_touches ..).sess rfl, Block.sess_setSess]
    exact ⟨rfl, rfl⟩

/-- Frames do so in their order. -/
theorem Block.foldl_sessCopy_top {i : Nat} (hi : i < 64) (frames : List (List Byte)) (b : Block) :
    ((frames.foldl (fun b f => b.sessCopy i f) b).sess i).top =
      frames.foldl (fun y f => if seqDiff (b.sess i).una y + f.length ≤ b.sessSize i then (y + f.length) % 2 ^ 32 else y) (b.sess i).top := by
  have hblk : keyBlk (regKey 5 1 i 0x84) = 5 := keyBlk_regKey (by decide) (by omega) (by decide)
  induction frames generalizing b with
  | nil => rfl
  | cons f l ih =>
    obtain ⟨huna, htop⟩ := b.sessCopy_sess i f
    have hkeeps : Block.KeepsReg (regKey 5 1 i 0x84) b (b.sessCopy i f) :=
      Block.KeepsReg.refl.sessCopy (by omega) (by rw [regKey_mod]; decide)
    have hsize : (b.sessCopy i f).sessSize i = b.sessSize i := congrArg (fun w : Word => fld w 12 0 * 1024) (hkeeps.reads _)
    rw [List.foldl_cons, ih, huna, htop, hsize, List.foldl_cons]

/-- From one block to the other a command has been taken and counted, and frames have been answered into its session's buffer while they
fit. -/
abbrev Block.Answered (a b : Block) (c : OutCmd) (rest : List QItem) (frames : List (List Byte)) : Prop :=
  (b.queue 16).items = rest ∧ a.counts b Reg.OUT_STR_CMD_RX c.stream ∧
    (b.sess c.inst).top = frames.foldl (fun y f =>
      if seqDiff (a.sess c.inst).una y + f.length ≤ a.sessSize c.inst then (y + f.length) % 2 ^ 32 else y) (a.sess c.inst).top

/-! ### Data on and off (R132) -/

/-- A bit that is given a value has it. -/
theorem bit_switch (x k : Nat) (on : Bool) : bit (if bit x k = on then x else if on then x + 2 ^ k else x - 2 ^ k) k = on := by
  split
  · assumption
  · rename_i hne
    simp only [bit_eq_testBit] at hne ⊢
    cases on with
    | true =>
      rw [if_pos rfl, Nat.add_comm, Nat.testBit_two_pow_add_eq]
      simpa using hne
    | false =>
      have hset : x.testBit k = true := by simpa using hne
      have hle : 2 ^ k ≤ x := Nat.ge_two_pow_of_testBit hset
      have hflip := Nat.testBit_two_pow_add_eq (x - 2 ^ k) k
      rw [Nat.add_sub_cancel' hle, hset] at hflip
      simpa using hflip.symm

theorem Block.dataOn_udpOff (b : Block) {c : OutCmd} (p : Nat) (hudp : c.udp = true) : (b.dataOn c p false).out.udpOn.contains p = false := by
  unfold Block.dataOn
  rw [if_pos hudp]
  simp [setDel]

/-! ### Notices to firmware (R132) -/

/-- An item pushed into an enabled queue with room, in which nothing waits and for which no reader does. -/
theorem Block.push_stored {b : Block} {q : Nat} (v : Nat) (hen : b.qen q = true) (hdisc : (b.queue q).discarding = false)
    (hbreak : (b.queue q).breakPending = false) (hflush : (b.queue q).flushPending = false)
    (hroom : (b.queue q).items.length < b.qcap q) (hstalled : (b.queue q).stalled = []) :
    ∃ x : Queue, (b.push q v true).que = (b.setQueue q x).que ∧ x.items = (b.queue q).items ++ [⟨v % 2 ^ 64, true, false⟩] := by
  have hstored : ∃ x : Queue, (b.stored q v true).que = (b.setQueue q x).que ∧
      x.items = (b.queue q).items ++ [⟨v % 2 ^ 64, true, false⟩] ∧ x.flushPending = false := by
    unfold Block.stored
    simp only [hstalled]
    exact ⟨_, (Block.count_touches ..).keeps .que rfl, rfl, hflush⟩
  obtain ⟨x, hque, hitems, hnone⟩ := hstored
  refine ⟨x, ?_, hitems⟩
  have hstays : ((b.stored q v true).queue q).flushPending = false := by rw [Block.queue_congr hque, Block.queue_setQueue, hnone]
  unfold Block.push
  simp only [hen, hdisc, hbreak, Nat.not_le.mpr hroom, hstays, Bool.and_false, Bool.false_eq_true, Bool.true_eq_false, if_false]
  exact hque

/-! ### What the commands leave -/

section taken
variable {a y : Block} {c : OutCmd} {r : List QItem} (hy : a.CmdTaken y c.stream r)
include hy

/-- What leaves the queues leaves it taken. -/
theorem Block.CmdTaken.rest {z : Block} (h : z.que = y.que) : (z.queue 16).items = r := by rw [Block.queue_congr h, hy.items]

theorem Block.CmdTaken.sess (k : Nat) : y.sess k = a.sess k := Block.sess_congr (congrArg Out.sess hy.out) k

theorem Block.CmdTaken.dataOn (p : Nat) (on : Bool) (hudp : c.udp = false) (hst : (a.sess c.inst).st = 1) :
    ((y.dataOn c p on).queue 16).items = r ∧ a.counts (y.dataOn c p on) Reg.OUT_STR_CMD_RX c.stream ∧
      bit ((y.dataOn c p on).sess c.inst).on (p - (a.outParts c.stream).1) = on := by
  have hd := y.dataOn_touches c p on
  refine ⟨hy.rest (hd.keeps .que rfl), Block.counts_keeps hy.counted (hd.keepsReg rfl), ?_⟩
  unfold Block.dataOn
  dsimp only
  rw [hy.outParts, hy.sess, hudp, if_neg (by decide), if_neg (by simp [hst]), Block.sess_setSess]
  exact bit_switch ..

theorem Block.CmdTaken.cmdAnswer (frames : List (List Byte)) (hi : c.inst < 64) (hs : c.stream < 64) (hudp : c.udp = false)
    (hst : (a.sess c.inst).st = 1) : a.Answered (y.cmdAnswer c frames) c r frames := by
  have hcopy : y.cmdAnswer c frames = frames.foldl (fun b f => b.sessCopy c.inst f) y := by
    unfold Block.cmdAnswer
    rw [hudp, if_neg (by decide), hy.sess, if_pos hst]
  have hblk : keyBlk (Reg.OUT_STR_CMD_RX.key c.stream 0) = 5 := keyBlk_regKey (by decide) (by omega) (by decide)
  rw [hcopy]
  refine ⟨hy.rest ?_, Block.counts_keeps hy.counted (Block.KeepsReg.refl.fold frames (fun _ _ hx =>
    hx.sessCopy (by omega) (by rw [RegDesc.key, regKey_mod]; decide))), ?_⟩
  · exact hcopy ▸ (y.cmdAnswer_touches c frames).keeps .que rfl
  · have hsize : y.sessSize c.inst = a.sessSize c.inst :=
      congrArg (fun w : Word => fld w 12 0 * 1024) ((hy.reads (regKey 5 1 c.inst 0x84) (by rw [regKey_mod]; decide)).reads _)
    rw [Block.foldl_sessCopy_top hi, hy.sess, hsize]

/-- Configuration frames are counted besides. -/
theorem Block.CmdTaken.cfgAnswer (frames : List (List Byte)) (hi : c.inst < 64) (hs : c.stream < 64) (hudp : c.udp = false)
    (hst : (a.sess c.inst).st = 1) : a.Answered (y.cfgAnswer c frames) c r frames := by
  have hcfg : y.cfgAnswer c frames = (y.cmdAnswer c frames).count Reg.OUT_STR_CFG_SENT c.stream 0 frames.length := by
    unfold Block.cfgAnswer
    rw [if_pos (.inr (by rw [hy.sess]; exact hst))]
  obtain ⟨hitems, hcounted, htop⟩ := hy.cmdAnswer frames hi hs hudp hst
  rw [hcfg]
  refine ⟨?_, Block.counts_keeps hcounted (.count .refl (ne_cmdRxKey (by decide) (by decide))
    (by rintro _ ⟨⟩; exact ne_cmdRxKey (by decide) (by decide))), ?_⟩
  · rw [Block.queue_congr ((Block.count_touches ..).keeps .que rfl), hitems]
  · rw [(Block.count_touches ..).sess rfl, htop]

/-- CFG-3 on a version 2 stream (R133). -/
theorem Block.CmdTaken.cmdCfg3 (p : Nat) (hi : c.inst < 64) (hs : c.stream < 64) (hudp : c.udp = false)
    (hst : (a.sess c.inst).st = 1) (hver : a.cf Reg.OUT_STR_CFG c.stream 29 28 ≠ 1) :
    a.Answered (y.cmdCfg3 c p) c r (a.cfgFrames c.stream p 5) := by
  unfold Block.cmdCfg3
  rw [hy.cf _ _ _ _ (by decide), if_neg hver, hy.cfgFrames]
  exact hy.cfgAnswer _ hi hs hudp hst

/-- An extended frame is passed on in Q17. -/
theorem Block.CmdTaken.outNotice (hs : c.stream < 64) (hen : a.qen 17 = true) (hdisc : (a.queue 17).discarding = false)
    (hbreak : (a.queue 17).breakPending = false) (hflush : (a.queue 17).flushPending = false)
    (hroom : (a.queue 17).items.length < a.qcap 17) (hstalled : (a.queue 17).stalled = []) :
    ((y.outNotice 8 c.inst 0).queue 16).items = r ∧ a.counts (y.outNotice 8 c.inst 0) Reg.OUT_STR_CMD_RX c.stream ∧
      ((y.outNotice 8 c.inst 0).queue 17).items = (a.queue 17).items ++ [⟨8 * 2 ^ 56 + c.inst % 64 * 2 ^ 48, true, false⟩] := by
  have hcfg : y.vis Reg.QUE_CFG 17 = a.vis Reg.QUE_CFG 17 := (hy.reads _ (by decide)).reads _
  have hblk : keyBlk (Reg.OUT_STR_CMD_RX.key c.stream 0) = 5 := keyBlk_regKey (by decide) (by omega) (by decide)
  have hval : 8 % 256 * 2 ^ 56 + c.inst % 64 * 2 ^ 48 + 0 = 8 * 2 ^ 56 + c.inst % 64 * 2 ^ 48 := by omega
  unfold Block.outNotice
  rw [hval]
  rw [← hy.others 17 (by decide)] at hdisc hbreak hflush hroom hstalled ⊢
  obtain ⟨x, hque, hitems⟩ := Block.push_stored (8 * 2 ^ 56 + c.inst % 64 * 2 ^ 48)
    (show y.qen 17 = true by unfold Block.qen; rw [hcfg]; exact hen) hdisc hbreak hflush
    (show _ < y.qcap 17 by unfold Block.qcap; rw [hcfg]; exact hroom) hstalled
  refine ⟨?_, Block.counts_keeps hy.counted (Block.KeepsReg.refl.push (by omega)), ?_⟩
  · rw [Block.queue_congr hque, Block.queue_setQueue_other _ _ (by decide), hy.items]
  · rw [Block.queue_congr hque, Block.queue_setQueue, hitems, Nat.mod_eq_of_lt (by omega)]

/-- Any other command is ignored, counted, and noted. -/
theorem Block.CmdTaken.ignored (hs : c.stream < 64) :
    (((y.cmdIgnored c).eventRep c.stream 0x0604 c.stream).queue 16).items = r ∧
      a.counts ((y.cmdIgnored c).eventRep c.stream 0x0604 c.stream) Reg.OUT_STR_CMD_RX c.stream ∧
      a.counts ((y.cmdIgnored c).eventRep c.stream 0x0604 c.stream) Reg.OUT_STR_CMD_IGNORED c.stream := by
  have hblk {off : Nat} (ho : off < 65536) : keyBlk (regKey 5 0 c.stream off) < 16 := by
    rw [keyBlk_regKey (by decide) (by omega) ho]
    decide
  refine ⟨hy.rest (by simp [Block.cmdIgnored]), Block.counts_keeps hy.counted ?_, ?_⟩
  · exact (Block.KeepsReg.refl.count (ne_cmdRxKey (by decide) (by decide))
      (by rintro _ ⟨⟩; exact ne_cmdRxKey (by decide) (by decide))).eventRep (hblk (by decide))
  · exact Block.KeepsReg.counts (hy.reads _ (by rw [RegDesc.key, regKey_mod]; decide)) (Block.KeepsReg.refl.eventRep (hblk (by decide)))
      (by rintro _ ⟨⟩; exact regKey_ne_of_off (by decide) (by decide) (by decide))

end taken

/-- Settles O21: each command by what it does on the block that has taken it. -/
theorem commandsOfSubscribersAct : Obligations.CommandsOfSubscribersAct := by
  refine ⟨fun t i r c p s hen hflush hbreak hitems hop hcmd hcode hpart hudp hst => ?_,
    fun t i r c p s hen hflush hbreak hitems hop hcmd hcode hpart hudp => ?_,
    fun t i r c p s hen hflush hbreak hitems hop hcmd hcode hpart hudp hst => ?_,
    fun t i r c p s hen hflush hbreak hitems hop hcmd hcode hpart hudp hst => ?_,
    fun t i r c p s hen hflush hbreak hitems hop hcmd hcode hpart hudp hst => ?_,
    fun t i r c p s hen hflush hbreak hitems hop hcmd hcode hpart hudp hst => ?_,
    fun t i r c p s hen hflush hbreak hitems hop hcmd hcode hpart hudp hst hver => ?_,
    fun t i r c p s hen hflush hbreak hitems hop hcmd hcode hpart hen17 hdisc17 hbreak17 hflush17 hroom17 hstalled17 => ?_,
    fun t i r c p s hen hflush hbreak hitems hop hcmd hcode hpart =>
      Completes.bySubscriber _ rfl hen hflush hbreak hitems hop hcmd hcode hpart (fun _ hs y hy => hy.ignored hs)⟩
  all_goals refine Completes.bySubscriber _ rfl hen hflush hbreak hitems hop hcmd (beq_iff_eq.mpr hcode) hpart (fun hi hs y hy => ?_)
  · exact hy.dataOn p false hudp hst
  · have hd := y.dataOn_touches c p false
    exact ⟨hy.rest (hd.keeps .que rfl), Block.counts_keeps hy.counted (hd.keepsReg rfl), y.dataOn_udpOff p hudp⟩
  · exact hy.dataOn p true hudp hst
  · rw [hy.headerFrame]
    exact hy.cmdAnswer _ hi hs hudp hst
  · rw [hy.cfgFrames]
    exact hy.cfgAnswer _ hi hs hudp hst
  · rw [hy.cfgFrames]
    exact hy.cfgAnswer _ hi hs hudp hst
  · exact hy.cmdCfg3 p hi hs hudp hst hver
  · exact hy.outNotice hs hen17 hdisc17 hbreak17 hflush17 hroom17 hstalled17

end Sys2Proof.Machine
end

section
/-! PROOFS. A launch that an earlier basin of its stream holds back, at the instant of another stream's launch (O22). -/

namespace Sys2Proof.Machine

/-- The job of a stream for a basin whose weir B has passed: TIMED without an offset, one part, to UDP with its data off. -/
def timedJob (seq stream : Nat) : OutJob :=
  ⟨0, seq, 0, 0, 0, seq, stream, [0x500000], some 0, 0, [], [⟨0, false, false, 0, [], false, false, [], []⟩]⟩

/-- Basin 5 is due for streams 0 and 2 at one instant; basin 4 still waits in stream 2. -/
def heldBesideDue : State :=
  { State.reset with blk := { Block.reset with out := { Block.reset.out with jobs := [timedJob 4 2, timedJob 5 0, timedJob 5 2] } } }

/-- The job of stream 2 for basin 5 is held. -/
theorem heldBesideDue_held : (heldBesideDue.at 0).launchHeld (timedJob 5 2) = true := by decide +kernel

/-- At its launch time the stream below it, due in the same cycle, has its job launched. -/
theorem heldBesideDue_launch :
    ((heldBesideDue.at 0).timedLaunch 0 5 2).out.jobs.map (fun j => j.parts.all (·.launched)) = [false, true, false] := by
  decide +kernel

/-- Refutes O22: its second clause has the jobs as they are wherever the stream's own job is held, but the launch of a cycle takes the
streams below first (R124). In `heldBesideDue` stream 0 is due at the instant of the launch that stream 2 has held back, and is launched. -/
theorem not_partsAreLaunchedAndResent : ¬ Obligations.PartsAreLaunchedAndResent := by
  rintro ⟨-, hheld, -⟩
  have h := hheld 0 0 5 2 (timedJob 5 2) heldBesideDue (by decide) (by decide) rfl heldBesideDue_held
  have hjobs : ((heldBesideDue.at 0).timedLaunch 0 5 2).out.jobs = [timedJob 4 2, timedJob 5 0, timedJob 5 2] :=
    Completes.of_runIf rfl rfl h
  have hlaunched := heldBesideDue_launch
  rw [hjobs] at hlaunched
  exact absurd hlaunched (by decide)

end Sys2Proof.Machine
end

section
/-! PROOFS. The ripple engine's solves, ringdowns and gathers at their ends (O25). -/

namespace Sys2Proof.Machine

/-! ### The accelerator's completion -/

/-- Tokens of an engine leave the ripple engine's part. -/
@[simp] theorem Block.engineToken_rpl (b : Block) (lib : LibOp) (tag : Nat) (epoch : Bool) : (b.engineToken lib tag epoch).rpl = b.rpl :=
  (Block.engineToken_touches ..).keeps .rpl rfl

/-- A result block leaves the ripple engine's part. -/
@[simp] theorem Block.writeResult_rpl (b : Block) (e seq slot bad : Nat) : (b.writeResult e seq slot bad).rpl = b.rpl :=
  (Block.writeResult_touches ..).keeps .rpl rfl

/-- The end of WARMING leaves the solve under way and its components. -/
theorem Block.warmEnd_solve (b : Block) (e : Nat) :
    (b.warmEnd e).rpl.solving = b.rpl.solving ∧ (b.warmEnd e).rpl.solved = b.rpl.solved := by
  unfold Block.warmEnd
  split
  · rw [Block.event_rpl]
    exact ⟨rfl, rfl⟩
  · exact ⟨rfl, rfl⟩

/-- And so does the dominant mode. -/
theorem Block.setDominant_solve (b : Block) (d : Option Nat) :
    (b.setDominant d).rpl.solving = b.rpl.solving ∧ (b.setDominant d).rpl.solved = b.rpl.solved := by
  cases d <;> exact ⟨rfl, rfl⟩

section keeps
variable {j : Nat} {a b : Block} (h : Block.KeepsReg j a b) (hj : keyBlk j < 16)
include h hj

/-- The end of WARMING is an event at most. -/
theorem Block.KeepsReg.warmEnd (e : Nat) : Block.KeepsReg j a (b.warmEnd e) := by
  unfold Block.warmEnd
  exact .ite (h.of_vis.event hj) h

/-- A result block moves the ring's head and posts an item (R172). -/
theorem Block.KeepsReg.writeResult (hhead : j ≠ Reg.RPL_RES_HEAD.key 0 0) (e seq slot bad : Nat) :
    Block.KeepsReg j a (b.writeResult e seq slot bad) := by
  have hstore (at_ : Nat) (bs : List Byte) : Block.KeepsReg j a (b.store at_ bs) := h.of_vis
  unfold Block.writeResult
  exact .ite h (((hstore _ _).setVis hhead).push hj)

end keeps

/-- A fault of the accelerator ends the solve without components and is counted (R155). -/
theorem Block.epochWithheld_fault {b : Block} {e seq slot a : Nat} (h : b.rpl.solving = some (e, seq, slot, a)) :
    (b.epochWithheld true).rpl.solving = none ∧ (b.epochWithheld true).rpl.solved = none ∧
      b.counts (b.epochWithheld true) Reg.RPL_SOLVE_FAULT := by
  have hblk : keyBlk (Reg.RPL_SOLVE_FAULT.key 0 0) < 16 := by decide
  unfold Block.epochWithheld
  rw [h]
  dsimp only
  rw [if_pos rfl]
  generalize hx : ({ b with rpl := _ } : Block) = x
  have hbx : Block.KeepsReg (Reg.RPL_SOLVE_FAULT.key 0 0) b x := hx ▸ .of_vis .refl
  generalize hy : ((x.count Reg.RPL_SOLVE_FAULT).irq Blk.rpl 4).event 0x0708 0xFFFF e = y
  have hxy : Block.KeepsReg (Reg.RPL_SOLVE_FAULT.key 0 0) (x.count Reg.RPL_SOLVE_FAULT) y :=
    hy ▸ (Block.KeepsReg.refl.raiseBit (by decide)).event hblk
  have hrpl : y.rpl = x.rpl := by rw [← hy, Block.event_rpl, Block.irq_rpl, Block.count_rpl]
  have hdom : Block.KeepsReg (Reg.RPL_SOLVE_FAULT.key 0 0) (y.warmEnd e) ((y.warmEnd e).setDominant none) :=
    (Block.setDominant_touches ..).keepsReg rfl
  refine ⟨?_, ?_, Block.KeepsReg.counts hbx (((hxy.warmEnd hblk e).trans hdom).writeResult hblk (by decide) ..) (by rintro _ ⟨⟩; decide)⟩
  · rw [Block.writeResult_rpl, (Block.setDominant_solve ..).1, (Block.warmEnd_solve ..).1, hrpl, ← hx]
  · rw [Block.writeResult_rpl, (Block.setDominant_solve ..).2, (Block.warmEnd_solve ..).2, hrpl, ← hx]

/-- The accelerator's completion of a solve that has not ended yet. -/
theorem Block.solveComplete_eq {b : Block} {e seq slot a : Nat} (h : b.rpl.solving = some (e, seq, slot, a)) (hs : b.rpl.solved = none)
    (fault : Bool) : b.solveComplete fault = if fault then b.epochWithheld true
      else ({ b with rpl := { b.rpl with solved := some b.components, solveUs := min 65535 ((b.t7 - a) / 1000) } } : Block).engineToken
        .rplTrack (e % 65536) true := by
  unfold Block.solveComplete Block.solveDone
  rw [h]
  dsimp only
  rw [hs]
  cases fault <;> rfl

/-- The accelerator completes where SELFTEST has not excluded it (R153, R154). -/
theorem Completes.solve {s : State} {t : Nat} {fault : Bool} {P : Block → Prop}
    (hp : P (if bit s.blk.sys.selftestResult 26 then s.at t else (s.at t).solveComplete fault)) :
    Completes (.acceleratorSolveDone t fault) s P :=
  Completes.run (f := fun b => if bit b.sys.selftestResult 26 then b else b.solveComplete fault) rfl hp

/-! ### Ringdowns -/

/-- A track whose ringdown estimator has started (R163). -/
def Track.rdStarted (k : Track) : Track := if k.status = 2 ∧ k.rdOn = false then { k with rdOn := true, rdAr := some Rls.start } else k

/-- A VALID track's estimator runs then. -/
theorem Track.rdStarted_rdOn {k : Track} (h : k.status = 2) : k.rdStarted.rdOn = true := by
  unfold Track.rdStarted
  split
  · rfl
  · rename_i hn
    simpa [h] using hn

/-- One track's part of RD_SKIP. -/
def Block.rdSkipTrack (b : Block) (i : Nat) : Block :=
  let k := b.track i
  if k.status = 2 ∧ k.rdOn = false then b.setTrack i { k with rdOn := true, rdAr := some Rls.start } else b

/-- It starts that track's estimator and leaves the other tracks. -/
theorem Block.track_rdSkipTrack (b : Block) (i j : Nat) :
    (b.rdSkipTrack i).track j = if j = i then (b.track j).rdStarted else b.track j := by
  unfold Block.rdSkipTrack Track.rdStarted
  dsimp only
  split
  · rename_i hk
    split
    · rename_i hj
      subst hj
      rw [Block.track_setTrack, if_pos hk]
    · rename_i hj
      exact Block.track_setTrack_other _ _ hj
  · rename_i hk
    split
    · rename_i hj
      subst hj
      rw [if_neg hk]
    · rfl

/-- The tracks one by one: each below the bound is started. -/
theorem Block.track_foldl_rdSkipTrack (b : Block) (n j : Nat) :
    ((List.range n).foldl Block.rdSkipTrack b).track j = if j < n then (b.track j).rdStarted else b.track j := by
  induction n with
  | zero => rfl
  | succ n ih =>
    rw [List.range_succ, List.foldl_append, List.foldl_cons, List.foldl_nil, Block.track_rdSkipTrack, ih]
    by_cases hj : j = n
    · rw [if_pos hj, if_neg (by omega), if_pos (by omega)]
    · have hlt : j < n + 1 ↔ j < n := by omega
      simp only [if_neg hj, hlt]

/-- RD_SKIP after the trigger the tracks' estimators start (R163). -/
theorem Block.track_rdSkip {b : Block} {a j : Nat} (h : b.rpl.ringdown = some a)
    (hdue : a + b.cf Reg.RPL_RD_CFG 0 15 8 * 100000000 ≤ b.t7) (hj : j < 16) : b.rdSkip.track j = (b.track j).rdStarted := by
  have he : b.rdSkip = (List.range 16).foldl Block.rdSkipTrack b := by
    unfold Block.rdSkip
    rw [h]
    exact if_pos hdue
  rw [he, Block.track_foldl_rdSkipTrack, if_pos hj]

/-- RD_LEN after the trigger the ringdown is over, raised and its results await the epoch boundary (R162). -/
theorem Block.rdEnd_ends {b : Block} {a : Nat} (h : b.rpl.ringdown = some a) (hdue : a + b.cf Reg.RPL_RD_CFG 0 23 16 * nsPerS ≤ b.t7) :
    b.rdEnd.rpl.ringdown = none ∧ b.rdEnd.rpl.rdDone = true ∧ bit (b.rdEnd.vis Reg.RPL_IRQ_STATUS).toNat 2 = true := by
  unfold Block.rdEnd
  rw [h]
  dsimp only
  rw [if_pos hdue]
  generalize hx : ({ b with rpl := _ } : Block) = x
  have hirq (n : Nat) : ((x.irq Blk.rpl 2).event 0x0707 0xFFFF n 0).vis Reg.RPL_IRQ_STATUS = (x.irq Blk.rpl 2).vis Reg.RPL_IRQ_STATUS :=
    Block.event_other _ _ (by decide) (by decide) ..
  rw [Block.event_rpl, Block.irq_rpl, hirq, ← hx]
  exact ⟨rfl, rfl, Block.irq_bit _ Blk.rpl (by decide)⟩

/-! ### Gathers -/

/-- Values inserted where a function has one: each stands under its own key. -/
theorem Tbl.get_insSome {α : Type} (f : Nat → Option α) (l : List Nat) (c : Tbl α) (j : Nat) (d : α) :
    Tbl.get ((l.filterMap (fun i => (f i).map (fun v => (i, v)))).foldl (fun c e => Tbl.ins c e.1 e.2) c) j d =
      if j ∈ l then (f j).getD (Tbl.get c j d) else Tbl.get c j d := by
  induction l generalizing c with
  | nil => rfl
  | cons i r ih =>
    rw [List.filterMap_cons]
    cases hf : f i with
    | none =>
      refine (ih c).trans ?_
      by_cases hi : j = i
      · subst hi
        simp [hf]
      · simp [hi]
    | some v =>
      refine (ih _).trans ?_
      by_cases hi : j = i
      · subst hi
        simp [hf, Tbl.get_ins_same]
      · simp [hi, Tbl.get_ins_other _ _ _ _ _ hi]

/-- The gather's end: what each branch gives is in place (R169). -/
theorem Block.gatherDone_gathered {b : Block} {seq p q : Nat} {x : Basin} (h : b.rpl.gather = some (seq, p))
    (hx : (b.ring 0).seqPos seq = some (q, x)) : b.gatherDone.rpl.gather = none ∧
      ∀ i ∈ b.defList, ∀ v, b.defValues p x i = some v → Tbl.get b.gatherDone.rpl.gathered i (0, 0, 0, 0) = v := by
  unfold Block.gatherDone
  rw [h]
  dsimp only
  rw [hx]
  refine ⟨rfl, fun i hi v hv => (Tbl.get_insSome (b.defValues p x) b.defList [] i _).trans ?_⟩
  rw [if_pos hi, hv]
  rfl

/-- What completes it besides is its token. -/
theorem Block.gatherComplete_rpl {b : Block} {seq p : Nat} (h : b.rpl.gather = some (seq, p)) : b.gatherComplete.rpl = b.gatherDone.rpl := by
  unfold Block.gatherComplete
  rw [h]
  exact Block.engineToken_rpl ..

/-- The values of a branch do not depend on the time. -/
theorem Block.defValues_clock (b : Block) (t p : Nat) (x : Basin) (i : Nat) : (b.clock t).defValues p x i = b.defValues p x i := rfl

/-- Settles O25: each command by the lemma of its operation. -/
theorem theRippleEngineGoesOn : Obligations.TheRippleEngineGoesOn := by
  refine ⟨fun t e seq slot a s hsolving hsolved hin => Completes.solve ?_,
    fun t e seq slot a s hsolving hsolved hin => Completes.solve ?_, fun t fault s hout => Completes.solve (if_pos hout),
    fun t a s h hdue => Completes.run rfl (Block.rdEnd_ends (b := s.at t) h hdue),
    fun t a s h hdue => Completes.run rfl (fun i hi hvalid => ?_), fun t seq p q x s h hx => Completes.run rfl ?_⟩
  · rw [hin, if_neg Bool.false_ne_true, Block.solveComplete_eq (b := s.at t) hsolving hsolved, if_neg Bool.false_ne_true, Block.engineToken_rpl]
    exact ⟨rfl, rfl, rfl⟩
  · rw [hin, if_neg Bool.false_ne_true, Block.solveComplete_eq (b := s.at t) hsolving hsolved, if_pos rfl]
    exact Block.epochWithheld_fault (b := s.at t) hsolving
  · rw [Block.track_rdSkip (b := s.at t) h hdue hi]
    exact Track.rdStarted_rdOn hvalid
  · obtain ⟨hdone, hvals⟩ := Block.gatherDone_gathered (b := s.at t) h hx
    rw [Block.gatherComplete_rpl (b := s.at t) h]
    exact ⟨hdone, fun i hi v hv => hvals i hi v ((s.blk.defValues_clock t p x i).trans hv)⟩

end Sys2Proof.Machine
end

section
/-! PROOFS. The result of the islands published, the alarm block's inputs, pins and definitions, a publisher's repetition (O26). -/

namespace Sys2Proof.Machine

/-! ### The islands' result -/

/-- A run of the islands has ended with a result. -/
structure Block.IslDone (b : Block) : Prop where
  ended : b.isl.running = none
  valid : b.isl.valid = true

section islDone
variable {a b : Block}

/-- What leaves ISL's part leaves its result. -/
theorem Block.IslDone.touched {l : List Part} (h : a.IslDone) (k : Touches l a b) (hl : l.contains .isl = false) : b.IslDone := by
  have he : b.isl = a.isl := k.keeps .isl hl
  exact ⟨he ▸ h.ended, he ▸ h.valid⟩

theorem Block.IslDone.ite {p : Prop} [Decidable p] (h : a.IslDone) (k : b.IslDone) : (if p then a else b).IslDone := by
  split
  · exact h
  · exact k

theorem Block.IslDone.fold {α : Type} {f : Block → α → Block} (l : List α) (h : a.IslDone)
    (k : ∀ x e, x.IslDone → (f x e).IslDone) : (l.foldl f a).IslDone :=
  List.foldlRecOn l f h (fun x hx e _ => k x e hx)

theorem Block.IslDone.event (h : a.IslDone) {code src a0 a1 : Nat} : (a.event code src a0 a1).IslDone :=
  h.touched (Block.event_touches ..) rfl

theorem Block.IslDone.irq (h : a.IslDone) {blk n : Nat} : (a.irq blk n).IslDone := h.touched (Block.irq_touches ..) rfl

theorem Block.IslDone.count (h : a.IslDone) {d : RegDesc} {i k n : Nat} : (a.count d i k n).IslDone :=
  h.touched (Block.count_touches ..) rfl

theorem Block.IslDone.islReport (h : a.IslDone) {x : Basin} {kind id bus : Nat} {i : Island} : (a.islReport x kind id bus i).IslDone :=
  h.touched (Block.islReport_touches ..) rfl

end islDone

/-- A run sets its result; the reports after it and the buses' states leave it (R175 to R186). -/
theorem Block.islRun_done (b : Block) (x : Basin) (di : Nat) : (b.islRun x di).IslDone := by
  unfold Block.islRun
  extract_lets old start cs main tr preds excess
  split
  rename_i ids next _
  extract_lets kept slots mainId result counted overflow told formed confirmed gone moved idOf
  have hresult : result.IslDone := ⟨rfl, rfl⟩
  have hcounted : counted.IslDone := hresult.count
  have hoverflow : overflow.IslDone := .ite hcounted hcounted.count
  have htold : told.IslDone := .ite hoverflow.irq.event hoverflow
  have hformed : formed.IslDone := htold.fold _ (fun y e hy => .ite (.ite hy.islReport.irq.event hy.islReport) hy)
  have hconfirmed : confirmed.IslDone := hformed.fold _ (fun y e hy => .ite hy.islReport.count.irq.event hy)
  have hgone : gone.IslDone := hconfirmed.fold _ (fun y e hy => .ite hy hy.islReport.count.event)
  have hmoved : moved.IslDone := by
    refine .ite ?_ hgone
    split
    · exact hgone.islReport
    · exact hgone
  refine Block.IslDone.fold _ (a := moved.islIdle) ⟨hmoved.ended, hmoved.valid⟩ (fun y c hy => hy.fold _ (fun z m hz => ?_))
  have hset (u : Tbl Bus) : ({ z with isl := { z.isl with buses := u } } : Block).IslDone := ⟨hz.ended, hz.valid⟩
  dsimp only
  split
  · exact hset _
  · exact (hset _).touched (Block.mismatchReport_touches ..) rfl

/-- A result that is published reaches OUT's analytics and ALM (R121, R186). -/
theorem Block.islPublish_eq {b : Block} {seq di p : Nat} {x : Basin} (hrun : b.isl.running = some (seq, di))
    (htag : Tbl.get b.dfe.closedTag 0 none = none) (hx : (b.ring 0).seqPos seq = some (p, x)) :
    b.islPublish = ((b.islRun x di).islCount (seq % 65536)).almPublish 0 1 0 (seq % 65536) := by
  unfold Block.islPublish
  simp only [hrun, htag, hx]
  rfl

/-- One whose tag has expired is not (R186). -/
theorem Block.islPublish_expired {b : Block} {i : Nat} (htag : Tbl.get b.dfe.closedTag 0 none = some i) : b.islPublish = b := by
  unfold Block.islPublish
  simp only [htag]
  split <;> rfl

@[simp] theorem Block.missSettled_isl (b : Block) : b.missSettled.isl = b.isl := (Block.missSettled_touches b).keeps .isl rfl
@[simp] theorem Block.missSettled_dfe (b : Block) : b.missSettled.dfe = b.dfe := (Block.missSettled_touches b).keeps .dfe rfl
@[simp] theorem Block.almPublish_isl (b : Block) (r kind n tag : Nat) : (b.almPublish r kind n tag).isl = b.isl :=
  (Block.almPublish_touches ..).keeps .isl rfl
@[simp] theorem Block.almPublish_dfe (b : Block) (r kind n tag : Nat) : (b.almPublish r kind n tag).dfe = b.dfe :=
  (Block.almPublish_touches ..).keeps .dfe rfl

@[simp] theorem Block.islCount_isl (b : Block) (tag : Nat) : (b.islCount tag).isl = b.isl := rfl

/-- The count of the islands stands under the basin's tag (R121). -/
theorem Block.islCount_analytics (b : Block) (tag : Nat) :
    Tbl.get (b.islCount tag).dfe.analytics (1024 * 65536 + tag % 1024) (65536, 0) = (tag, f32Nat b.isl.islands.length) :=
  Tbl.get_ins_same ..

/-! ### Definitions, publishers and digital inputs -/

/-- What leaves ALM's part leaves every definition and every publisher. -/
theorem Block.almDef_congr {a b : Block} (h : b.alm = a.alm) (d : Nat) : b.almDef d = a.almDef d :=
  congrArg (fun y : Alm => Tbl.get y.defs d AlmDef.reset) h
theorem Block.pub_congr {a b : Block} (h : b.alm = a.alm) (p : Nat) : b.pub p = a.pub p :=
  congrArg (fun y : Alm => Tbl.get y.pubs p Publisher.reset) h

/-- A bit added where it is clear leaves the other bits. -/
theorem testBit_two_pow_add_other {x k j : Nat} (hk : x.testBit k = false) (hj : j ≠ k) : (2 ^ k + x).testBit j = x.testBit j := by
  obtain hlt | hgt : j < k ∨ k < j := by omega
  · exact Nat.testBit_two_pow_add_gt hlt x
  · have hdiv : (2 ^ k + x) / 2 ^ (k + 1) = x / 2 ^ (k + 1) := by
      have heven : x / 2 ^ k % 2 ≠ 1 := by simpa [Nat.testBit_eq_decide_div_mod_eq] using hk
      rw [Nat.pow_succ, ← Nat.div_div_eq_div_mul, ← Nat.div_div_eq_div_mul, Nat.add_div_left _ (Nat.two_pow_pos k)]
      omega
    have hbit (y : Nat) : y.testBit j = (y / 2 ^ (k + 1)).testBit (j - (k + 1)) := by
      rw [Nat.testBit_div_two_pow, Nat.sub_add_cancel hgt]
    rw [hbit, hdiv, ← hbit]

/-- A bit that is given a value leaves the others. -/
theorem bit_switch_other (x : Nat) {k j : Nat} (on : Bool) (h : j ≠ k) :
    bit (if bit x k = on then x else if on then x + 2 ^ k else x - 2 ^ k) j = bit x j := by
  split
  · rfl
  · rename_i hne
    simp only [bit_eq_testBit] at hne ⊢
    cases on with
    | true =>
      rw [if_pos rfl, Nat.add_comm]
      exact testBit_two_pow_add_other (by simpa using hne) h
    | false =>
      have hset : x.testBit k = true := by simpa using hne
      have hsum : 2 ^ k + (x - 2 ^ k) = x := Nat.add_sub_cancel' (Nat.ge_two_pow_of_testBit hset)
      have hclear : (x - 2 ^ k).testBit k = false := by
        have hflip := Nat.testBit_two_pow_add_eq (x - 2 ^ k) k
        rw [hsum, hset] at hflip
        simpa using hflip.symm
      rw [if_neg Bool.false_ne_true, ← testBit_two_pow_add_other hclear h, hsum]

/-- A confirmed edge gives the input its level; what it triggers leaves the inputs (R466, R299). -/
theorem Block.diChange_di (b : Block) (i : Nat) (level : Bool) (age : Nat) : (b.diChange i level age).alm.di =
    if bit b.alm.di i = level then b.alm.di else if level then b.alm.di + 2 ^ i else b.alm.di - 2 ^ i := by
  have hfire (y : Block) (t : Nat) (q : Nat → Bool) : (y.capFire 2 t q).alm = y.alm := (Block.capFire_touches ..).keeps .alm rfl
  unfold Block.diChange
  dsimp only
  rw [apply_ite Block.alm, hfire, ite_self]

/-! ### Pulses of the pins -/

/-- An entry taken out of a table is found no more. -/
theorem Tbl.find?_erase {α : Type} (l : Tbl α) (k : Nat) : (Tbl.erase l k).find? (fun e => e.1 == k) = none := by
  induction l with
  | nil => rfl
  | cons e r ih =>
    obtain ⟨j, v⟩ := e
    unfold Tbl.erase
    split
    · exact ih
    · rename_i hne
      rw [List.find?_cons_of_neg (by simpa using hne), ih]

/-- A pulse that is over leaves the table (R195). -/
theorem Block.pulseOver_over {b : Block} {p e : Nat} (h : b.alm.pulses.find? (fun e => e.1 == p) = some (p, e)) (hover : e ≤ b.t7) :
    b.pulseOver p = { b with alm := { b.alm with pulses := Tbl.erase b.alm.pulses p } } := by
  unfold Block.pulseOver
  simp only [h]
  exact if_pos hover

/-- A driven pin with a width and no pulse is out of its alarm state (R195). -/
theorem Block.aoEnergised_noPulse {b : Block} {p : Nat} (hwidth : bits (b.cfg Reg.ALM_AO_CFG 0 p).toNat 15 0 ≠ 0)
    (hdriven : b.aoDriven p = true) (hmode : b.sys.mode ≠ .maintenance) (h : b.alm.pulses.find? (fun e => e.1 == p) = none) :
    b.aoEnergised p = bit (b.cfg Reg.ALM_AO_CFG 0 p).toNat 31 := by
  unfold Block.aoEnergised
  simp [hdriven, hmode, hwidth, h]

/-! ### A publisher's message -/

/-- A message leaves the publishers. -/
@[simp] theorem Block.pubSend_alm (b : Block) (p : Nat) (aborted : Bool) : (b.pubSend p aborted).alm = b.alm :=
  (Block.pubSend_touches ..).keeps .alm rfl

/-- The message in the plain profile (R198). -/
theorem Block.pubSend_plain {b : Block} {p : Nat} (h : bit (b.cn Reg.ALM_PUB_CFG 0 p) 30 = false) (aborted : Bool) :
    b.pubSend p aborted =
      (b.enqueueAll (bits (b.cn Reg.ALM_PUB_CFG 0 p) 27 23) 3 [b.gooseFrame p]).count Reg.ALM_PUB_SENT 0 p := if_pos h

/-- A publisher's count of messages is ALM's. -/
theorem keyBlk_pubSent {p : Nat} (hp : p < 8) : keyBlk (Reg.ALM_PUB_SENT.key 0 p) = 8 := by
  rw [RegDesc.key, keyBlk_regKey (by decide) (by decide) (by simp only [Reg.ALM_PUB_SENT]; omega)]
  rfl

/-- Frames for a port that a PORT field names leave the registers of other blocks. -/
theorem Block.KeepsReg.enqueueAll_field {j port : Nat} {a b : Block} (h : Block.KeepsReg j a b) (hprt : keyBlk j ≠ 2) (hport : port < 32)
    (cls : Nat) (frames : List (List Byte)) : Block.KeepsReg j a (b.enqueueAll port cls frames) := by
  refine h.fold frames (fun x f hx => .ite hx.of_vis (hx.trans ⟨fun d => ?_⟩))
  exact x.count_otherBlk Reg.PRT_TX_ABORT 0 1 d hprt (by omega) (by decide)

/-- What a message in the plain profile reads: ALM, the leap seconds, and registers none of which is the count of messages or its SAT
flag. -/
theorem Block.gooseFrame_congr {a b : Block} {p : Nat} (hp : p < 8) (halm : b.alm = a.alm) (htim : b.tim = a.tim)
    (hact : b.regs.act = a.regs.act)
    (hreg : ∀ j, j ≠ Reg.ALM_PUB_SENT.key 0 p → j ≠ regKey 8 15 0 0x700 → Block.KeepsReg j a b) : b.gooseFrame p = a.gooseFrame p := by
  have hcn (d : RegDesc) (hd : d.stride = 0x40 ∧ d.off < 0x534) : b.cn d 0 p = a.cn d 0 p := by
    have hbelow : d.off + d.stride * p < 0x534 + 0x40 * p := by
      rw [hd.1]
      omega
    have hsent : d.key 0 p ≠ Reg.ALM_PUB_SENT.key 0 p :=
      regKey_ne_of_off (by omega) (show 0x534 + 0x40 * p < 65536 by omega) (Nat.ne_of_lt hbelow)
    have hvis : b.vis d 0 p = a.vis d 0 p := (hreg _ hsent (regKey_ne_of_off (by omega) (by decide) (by omega))).reads _
    unfold Block.cn Block.cfg Block.act
    rw [hvis, hact]
  have hmac (d : RegDesc) (v : Nat) (hd : d.blk = 2 ∧ d.spaces.headD 15 < 16 ∧ d.off + d.stride * 0 < 65536) :
      b.vis d (bits v 27 23) = a.vis d (bits v 27 23) := by
    obtain ⟨hblk, hspace, hoff⟩ := hd
    have hport : bits v 27 23 < 32 := bits_lt v 27 23
    have hkey : keyBlk (d.key (bits v 27 23) 0) = 2 := (keyBlk_regKey hspace (by omega) hoff).trans hblk
    refine (hreg _ (ne_of_apply_ne keyBlk ?_) (ne_of_apply_ne keyBlk ?_)).reads _
    · rw [hkey, keyBlk_pubSent hp]
      decide
    · rw [hkey]
      decide
  unfold Block.gooseFrame Block.goosePduNow Block.goosePdu Block.pubMac Block.portMac Block.pubInterval Block.pub Block.socOf Block.taiUtc
  simp (disch := decide) only [hcn, hmac, halm, htim]

section plain
variable {b : Block} {p : Nat} (hp : p < 8) (h : bit (b.cn Reg.ALM_PUB_CFG 0 p) 30 = false) (aborted : Bool)
include hp h

/-- A message in the plain profile is counted, whether its port is up or not (R198). -/
theorem Block.pubSend_counted : b.counts (b.pubSend p aborted) Reg.ALM_PUB_SENT 0 p := by
  have hblk : keyBlk (Reg.ALM_PUB_SENT.key 0 p) ≠ 2 := by
    rw [keyBlk_pubSent hp]
    decide
  have hsat (q : Nat × Nat) (hq : Reg.ALM_PUB_SENT.sat = some q) : Reg.ALM_PUB_SENT.key 0 p ≠ regKey 8 15 0 q.1 := by
    cases hq
    exact regKey_ne_of_off (by simp only [Reg.ALM_PUB_SENT]; omega) (by decide) (by simp only [Reg.ALM_PUB_SENT]; omega)
  have hold : (b.enqueueAll (bits (b.cn Reg.ALM_PUB_CFG 0 p) 27 23) 3 [b.gooseFrame p]).vis Reg.ALM_PUB_SENT 0 p =
      b.vis Reg.ALM_PUB_SENT 0 p := (Block.KeepsReg.refl.enqueueAll_field hblk (bits_lt _ 27 23) 3 _).reads _
  rw [Block.counts, Block.pubSend_plain h, Block.vis_count_toNat _ _ _ _ _ hsat, hold]

/-- And joins egress class 3 of its port, where that is up (R198). -/
theorem Block.pubSend_txq {port : Nat} (hport : port = bits (b.cn Reg.ALM_PUB_CFG 0 p) 27 23) (hup : (b.port port).up = true) :
    ((b.pubSend p aborted).port port).txq = (b.port port).txq ++ [⟨3, false, .none, (b.pubSend p aborted).gooseFrame p⟩] := by
  subst hport
  have hregs : (b.enqueueAll (bits (b.cn Reg.ALM_PUB_CFG 0 p) 27 23) 3 [b.gooseFrame p]).regs = b.regs :=
    (congrArg Block.regs (if_pos hup)).trans rfl
  have htouch := (Block.enqueueAll_touches b (bits (b.cn Reg.ALM_PUB_CFG 0 p) 27 23) 3 [b.gooseFrame p]).trans
    (Block.count_touches _ Reg.ALM_PUB_SENT 0 p 1) rfl
  rw [Block.pubSend_plain h, Block.gooseFrame_congr hp (htouch.keeps .alm rfl) (htouch.keeps .tim rfl) (htouch.keeps .act rfl)
    (fun j hsent hsat => (Block.KeepsReg.refl.of_vis (congrArg Regs.vis hregs)).count hsent (by rintro _ ⟨⟩; exact hsat)),
    Block.count_port, Block.enqueueAll_txq hup]
  rfl

end plain

/-- A repetition that is due: the next sqNum, the next interval, the message (R199). -/
theorem Block.gooseRepeat_due {b : Block} {p a : Nat} (ha : (b.pub p).nextAt = some a) (hon : (b.pub p).on = true)
    (hmay : b.pubMay p = true) (hdue : a ≤ b.t7) (aborted : Bool) :
    b.gooseRepeat p aborted = (b.setPub p { b.pub p with
      sq := next32 (b.pub p).sq, i := (b.pub p).i + 1, nextAt := some (a + b.pubInterval p ((b.pub p).i + 1)) }).pubSend p aborted := by
  unfold Block.gooseRepeat
  simp only [ha]
  exact if_pos ⟨hon, hmay, hdue⟩

/-- Settles O26: each command by the lemma of its operation. -/
theorem islandsAlarmsAndPublishersAct : Obligations.IslandsAlarmsAndPublishersAct := by
  refine ⟨fun t seq di p x s hrun htag hx => Completes.run (f := fun b => b.islPublish.missSettled) rfl ?_,
    fun t i s htag => Completes.run (f := fun b => b.islPublish.missSettled) rfl ?_,
    fun t m d s hm hs => Completes.bySel Block.defReset rfl hm hs ?_,
    fun t p e s hp h hover => Completes.runIf (f := fun b => b.pulseOver p) rfl (decide_eq_true hp) ?_,
    fun t i age level s hi => Completes.runIf (f := fun b => b.diChange i level age) rfl (decide_eq_true hi) ?_,
    fun t p a port x s hp hx ha hon hmay hdue hport =>
      Completes.runIf (f := fun b => b.gooseRepeat p false) rfl (decide_eq_true hp) ?_⟩
  · obtain ⟨hended, hvalid⟩ := (s.at t).islRun_done x di
    rw [Block.islPublish_eq (b := s.at t) hrun htag hx, Block.missSettled_isl, Block.missSettled_dfe, Block.almPublish_isl,
      Block.almPublish_dfe, Block.islCount_isl]
    exact ⟨rfl, hended, hvalid, Block.islCount_analytics ..⟩
  · rw [Block.islPublish_expired (b := s.at t) htag, Block.missSettled_isl]
    rfl
  · exact (Block.almDef_congr (Block.advance_alm ((s.at t).defReset d) m 8 0x5C) d).trans (Block.almDef_setDef ..)
  · rw [Block.pulseOver_over (b := s.at t) h hover]
    exact ⟨Tbl.get_erase_same .., fun hwidth hdriven hmode => Block.aoEnergised_noPulse hwidth hdriven hmode (Tbl.find?_erase ..)⟩
  · rw [Block.diChange_di]
    exact ⟨bit_switch .., fun k _ hk => bit_switch_other _ level hk⟩
  · subst hx
    rw [Block.gooseRepeat_due (b := s.at t) ha hon hmay hdue]
    refine ⟨?_, fun hplain => ⟨Block.pubSend_counted (b := (s.at t).setPub p _) hp hplain false,
      fun hup => Block.pubSend_txq (b := (s.at t).setPub p _) hp hplain false hport hup⟩⟩
    exact (Block.pub_congr (Block.pubSend_alm ..) p).trans (Block.pub_setPub ..)

end Sys2Proof.Machine
end

section
/-! PROOFS. The cores of the fabric as they stand; what tokens, sinks and withheld epochs leave of them; how they leave the pool and rejoin it
(O24). -/

namespace Sys2Proof.Machine

/-! ### A core as it stands (R213, R214) -/

/-- A start changes none of what a core holds besides its firings and its state. -/
theorem Block.coreStarts_keeps {α : Type} (p : Core → α) (hp : ∀ x g t, p (Core.startsOn x g t) = p x) (b : Block) (x : Core) :
    p (b.coreStarts x) = p x := by
  unfold Block.coreStarts
  split
  · rfl
  · dsimp only
    split
    · rfl
    · split
      · exact hp ..
      · rfl

@[simp] theorem Block.coreStarts_rejoin (b : Block) (x : Core) : (b.coreStarts x).rejoin = x.rejoin :=
  b.coreStarts_keeps Core.rejoin (fun _ _ _ => rfl) x
@[simp] theorem Block.coreStarts_haltReq (b : Block) (x : Core) : (b.coreStarts x).haltReq = x.haltReq :=
  b.coreStarts_keeps Core.haltReq (fun _ _ _ => rfl) x
@[simp] theorem Block.coreStarts_held (b : Block) (x : Core) : (b.coreStarts x).held = x.held :=
  b.coreStarts_keeps Core.held (fun _ _ _ => rfl) x

/-- A core without waiting firings starts none. -/
theorem Block.coreStarts_noQueue (b : Block) {x : Core} (h : x.queue = []) : b.coreStarts x = x := by
  unfold Block.coreStarts
  rw [h]

/-- A core that was set stands as it was set, but for a start of its own, wherever the cores are the same. -/
theorem Block.core_of_setCore {z b : Block} {c : Nat} {y : Core} (h : z.dfe.cores = (b.setCore c y).dfe.cores) : z.core c = z.coreStarts y := by
  have hget : Tbl.get z.dfe.cores c Core.reset = y := by
    rw [h]
    exact Tbl.get_put_same ..
  rw [Block.core, hget]

/-- Set without waiting firings, it starts none. -/
theorem Block.core_of_setCore_noQueue {z b : Block} {c : Nat} {y : Core} (h : z.dfe.cores = (b.setCore c y).dfe.cores) (hq : y.queue = []) :
    z.core c = y := by
  rw [Block.core_of_setCore h, z.coreStarts_noQueue hq]

/-! ### What leaves the cores alone -/

@[simp] theorem Block.matchToken_place_cores (b : Block) (t : Token) : (Block.matchToken.place b t).dfe.cores = b.dfe.cores := by
  unfold Block.matchToken.place
  dsimp only
  split <;> rfl

@[simp] theorem Block.staleGen_dfe (b : Block) (gen tag : Nat) : (b.staleGen gen tag).dfe = b.dfe :=
  (Block.staleGen_touches ..).keeps .dfe rfl

@[simp] theorem Block.sluiceHold_cores (b : Block) (tag : Nat) : (b.sluiceHold tag).dfe.cores = b.dfe.cores := by
  unfold Block.sluiceHold
  dsimp only
  split
  · rw [Block.count_dfe]
  · rw [Block.eventRep_dfe, Block.irq_dfe, Block.count_dfe]

/-- A token that arrives, matched, collided or of an old generation (R208, R209, R225). -/
@[simp] theorem Block.matchToken_cores (b : Block) (t : Token) : (b.matchToken t).dfe.cores = b.dfe.cores := by
  unfold Block.matchToken
  split
  · rw [Block.staleGen_dfe]
  · split
    · have hcollided : (((b.count Reg.DFE_MATCH_COLLIDE).irq Blk.dfe 5).eventRep t.op 0x0A06 0xFFFF (genTag t.gen t.tag)).dfe = b.dfe := by
        rw [Block.eventRep_dfe, Block.irq_dfe, Block.count_dfe]
      dsimp only
      split
      · rw [hcollided]
      · split
        · rw [hcollided]
        · rw [Block.matchToken_place_cores, hcollided]
    · exact Block.matchToken_place_cores ..

/-- One that the sluice admits or holds (R215). -/
@[simp] theorem Block.offerToken_cores (b : Block) (cls : Nat) (t : Token) : (b.offerToken cls t).dfe.cores = b.dfe.cores := by
  unfold Block.offerToken
  split
  · exact Block.matchToken_cores ..
  · exact Block.sluiceHold_cores ..

@[simp] theorem Block.carryPorts_cores (b : Block) (f : Firing) (ports : List Nat) : (b.carryPorts f ports).dfe.cores = b.dfe.cores :=
  List.foldlRecOn (motive := fun x : Block => x.dfe.cores = b.dfe.cores) _ _ rfl
    (fun _ hx _ _ => (Block.offerToken_cores ..).trans hx)

@[simp] theorem Block.hostOutPost_dfe (b : Block) (q item : Nat) : (b.hostOutPost q item).dfe = b.dfe :=
  (Block.hostOutPost_touches ..).keeps .dfe rfl

/-- A result at a sink (R22, R227). -/
@[simp] theorem Block.toSink_cores (b : Block) (f : Firing) (d : OpDef) (s : Dest) (inc : Bool) (value : Nat) :
    (b.toSink f d s inc value).dfe.cores = b.dfe.cores := by
  unfold Block.toSink
  cases s with
  | op _ _ | rplState | cmpAnnot => rfl
  | alm =>
    dsimp only
    split
    · rfl
    · rw [Block.almPublish_dfe]
  | outAnalytics i =>
    dsimp only
    split <;> rfl
  | hostOut q => exact congrArg Dfe.cores (Block.hostOutPost_dfe ..)

/-- An emission that a lost firing did not make (R226). -/
@[simp] theorem Block.emitLost_cores (b : Block) (f : Firing) (d : OpDef) (e : Emit) : (b.emitLost f d e).dfe.cores = b.dfe.cores := by
  unfold Block.emitLost
  cases e with
  | commit => rfl
  | sink s inc v =>
    dsimp only
    rw [Block.toSink_cores, Block.count_dfe]
  | tok t =>
    dsimp only
    split
    · split
      · rfl
      · exact Block.carryPorts_cores ..
    · rw [Block.offerToken_cores, Block.count_dfe]

theorem Block.setDominant_cores (b : Block) (d : Option Nat) : (b.setDominant d).dfe.cores = b.dfe.cores := by
  cases d <;> rfl

/-- An epoch withheld changes the analytics of the dominant mode at most. -/
theorem Block.epochWithheld_cores (b : Block) (fault : Bool) : (b.epochWithheld fault).dfe.cores = b.dfe.cores := by
  have hwrite (y : Block) (e seq slot bad : Nat) : (y.writeResult e seq slot bad).dfe = y.dfe := (Block.writeResult_touches ..).keeps .dfe rfl
  have hwarm (y : Block) (e : Nat) : (y.warmEnd e).dfe = y.dfe := (Block.warmEnd_touches ..).keeps .dfe rfl
  unfold Block.epochWithheld
  split
  · rfl
  · dsimp only
    rw [hwrite, Block.setDominant_cores, hwarm]
    split <;> rw [Block.event_dfe, Block.irq_dfe, Block.count_dfe]

@[simp] theorem Block.withholdFor_cores (b : Block) (f : Firing) (d : OpDef) : (b.withholdFor f d).dfe.cores = b.dfe.cores := by
  have hlost (e : Nat) : (b.epochLost e).dfe.cores = b.dfe.cores := by
    unfold Block.epochLost
    split
    · exact Block.epochWithheld_cores ..
    · split <;> rfl
  unfold Block.withholdFor
  split
  · exact hlost _
  · rfl

/-! ### Out of the pool (R226 to R230) -/

/-- A core that leaves the pool gives its queue back. -/
@[simp] theorem Block.leavePool_core (b : Block) (c : Nat) (st : CoreState) :
    (b.leavePool c st).core c = { b.core c with st := st, out := true, rejoin := false, queue := [] } :=
  Block.core_of_setCore_noQueue (b := b) rfl rfl

@[simp] theorem Block.leavePool_t7 (b : Block) (c : Nat) (st : CoreState) : (b.leavePool c st).t7 = b.t7 :=
  (Block.leavePool_touches ..).keeps .t7 rfl

@[simp] theorem Block.loseRunning_t7 (b : Block) (c : Nat) : (b.loseRunning c).t7 = b.t7 :=
  (Block.loseRunning_touches ..).keeps .t7 rfl

/-- What a lost firing owes is made up for by the dispatcher; of the cores only its own changes (R226). -/
theorem Block.loseRunning_cores {b : Block} {c : Nat} {f : Firing} (h : (b.core c).running = some f) :
    (b.loseRunning c).dfe.cores = (b.setCore c { b.core c with running := none, held := [] }).dfe.cores := by
  unfold Block.loseRunning
  simp only [h]
  generalize b.setCore c { b.core c with running := none, held := [] } = y
  split
  · rfl
  · generalize (if (b.core c).held = [] then _ else _ : List Emit) = left
    have hcount (x : Block) (d : RegDesc) (n : Nat) : (if n = 0 then x else x.count d 0 0 n).dfe = x.dfe := by
      split
      · rfl
      · rw [Block.count_dfe]
    split
    · rw [hcount]
    · split
      · rw [hcount]
        split
        · rfl
        · exact Block.carryPorts_cores ..
      · rw [Block.withholdFor_cores]
        exact List.foldlRecOn (motive := fun x : Block => x.dfe.cores = y.dfe.cores) _ _ rfl
          (fun _ hx _ _ => (Block.emitLost_cores ..).trans hx)

/-- A core without waiting firings loses the one that runs and what it held. -/
theorem Block.loseRunning_core {b : Block} {c : Nat} (hq : (b.core c).queue = []) :
    ∃ held, (b.loseRunning c).core c = { b.core c with running := none, held := held } := by
  cases h : (b.core c).running with
  | none =>
    have hsame : b.loseRunning c = b := by
      unfold Block.loseRunning
      simp only [h]
    refine ⟨(b.core c).held, ?_⟩
    rw [hsame, ← h]
  | some f => exact ⟨[], Block.core_of_setCore_noQueue (Block.loseRunning_cores h) hq⟩

/-- The record of a core after a memory fault: out of the pool without firings, its memories reinitialised (R229). -/
def Core.faulted (x : Core) (held : List Emit) (again : Bool) (at7 : Nat) : Core :=
  { x.wiped with st := .memFault, out := true, rejoin := again, queue := [], running := none, held := held, faultAt := some at7 }

/-- A memory fault in a core that is neither frozen nor halted. -/
theorem Block.coreMemFault_eq {b : Block} {c : Nat} (hfrozen : (b.core c).st ≠ .frozen) (hhalted : (b.core c).st ≠ .halted) :
    ∃ held again, b.coreMemFault c = ((((b.leavePool c .memFault).loseRunning c).setCore c ((b.core c).faulted held again b.t7)).irq
      Blk.dfe 3).event 0x0A03 c (b.core c).lastOp (b.core c).lastTag := by
  obtain ⟨held, hcore⟩ := Block.loseRunning_core (b := b.leavePool c .memFault) (c := c) (by rw [Block.leavePool_core])
  unfold Block.coreMemFault
  dsimp only
  rw [if_neg (by simp [hfrozen, hhalted]), hcore, Block.leavePool_core, Block.loseRunning_t7, Block.leavePool_t7]
  exact ⟨held, _, rfl⟩

/-- In one that is either it has no effect (log entry 117). -/
theorem Block.coreMemFault_outOfService {b : Block} {c : Nat} (h : (b.core c).st = .frozen ∨ (b.core c).st = .halted) :
    b.coreMemFault c = b := if_pos h

/-- The close of a run of missed basins is an event (Table 1.3). -/
theorem Block.KeepsReg.missSettled {j : Nat} {a b : Block} (h : Block.KeepsReg j a b) (hj : keyBlk j < 16) :
    Block.KeepsReg j a b.missSettled := by
  have hend {x : Block} (hx : Block.KeepsReg j a x) (r tag : Nat) : Block.KeepsReg j a (x.missEnd r tag) := by
    unfold Block.missEnd
    exact .ite hx (hx.of_vis.event hj)
  have hsettle {x : Block} (hx : Block.KeepsReg j a x) (r : Nat) : Block.KeepsReg j a (x.missSettle r) := by
    unfold Block.missSettle
    exact .ite hx (hend hx r _)
  exact hsettle (hsettle h 0) 1

/-- The fault's record stands, and its interrupt is raised. -/
theorem Block.coreMemFault_settled {b : Block} {c : Nat} (hfrozen : (b.core c).st ≠ .frozen) (hhalted : (b.core c).st ≠ .halted) :
    (∃ held again, (b.coreMemFault c).missSettled.core c = (b.core c).faulted held again b.t7) ∧
      bit ((b.coreMemFault c).missSettled.vis Reg.DFE_IRQ_STATUS).toNat 3 = true := by
  obtain ⟨held, again, hfault⟩ := Block.coreMemFault_eq hfrozen hhalted
  rw [hfault]
  refine ⟨⟨held, again, Block.core_of_setCore_noQueue (by rw [Block.missSettled_dfe, Block.event_dfe, Block.irq_dfe]) rfl⟩, ?_⟩
  generalize ((b.leavePool c .memFault).loseRunning c).setCore c _ = y
  have hkeep : Block.KeepsReg (regKey Blk.dfe 15 0 0x400) (y.irq Blk.dfe 3)
      ((y.irq Blk.dfe 3).event 0x0A03 c (b.core c).lastOp (b.core c).lastTag).missSettled :=
    (Block.KeepsReg.refl.event (by decide)).missSettled (by decide)
  have hbit := y.irq_bit Blk.dfe (n := 3) (by decide)
  rwa [← hkeep.reads] at hbit

/-- A release of a core that is frozen or faulted and that ACC does not hold (R228). -/
theorem Block.coreRelease_cores {b : Block} {c : Nat} (hfree : b.acc.frozen.contains (4 + c) = false)
    (hst : (b.core c).st = .frozen ∨ (b.core c).st = .memFault) :
    (b.coreRelease c).dfe.cores = (b.setCore c { (b.core c).wiped with rejoin := true, faultAt := none }).dfe.cores := by
  unfold Block.coreRelease
  dsimp only
  rw [if_neg (by simp only [hfree, Bool.false_eq_true, not_false_iff]), if_pos hst, Block.event_dfe]

/-- A halt request in DEBUG waits for the end of the firing, or takes the core out at once (R230). -/
theorem Block.coreHalt_eq {b : Block} {c : Nat} (hmode : b.sys.mode = .debug) (hin : (b.core c).out = false) :
    b.coreHalt c = if (b.core c).running.isSome then b.setCore c { b.core c with haltReq := true } else b.leavePool c .halted :=
  if_neg (by simp [hmode, hin])

/-- The resume of a halted core (R230). -/
theorem Block.coreResume_halted {b : Block} {c : Nat} (h : (b.core c).st = .halted) :
    b.coreResume c = b.setCore c { b.core c with rejoin := true } := if_pos h

/-- Settles O24: each command by the lemma of its operation. -/
theorem fabricCoresLeaveAndReturn : Obligations.FabricCoresLeaveAndReturn := by
  refine ⟨fun t m c s hm hs hfree hst => Completes.bySel Block.coreRelease rfl hm hs ?_,
    fun t c s hc hfrozen hhalted => Completes.runIf (f := fun b => (b.coreMemFault c).missSettled) rfl (decide_eq_true hc) ?_,
    fun t c s hc hst => Completes.runIf (f := fun b => (b.coreMemFault c).missSettled) rfl (decide_eq_true hc) ?_,
    fun t c s hc hmode hin => Completes.runIf (f := fun b => b.coreHalt c) rfl (decide_eq_true hc) ?_,
    fun t c s hc hst => Completes.runIf (f := fun b => b.coreResume c) rfl (decide_eq_true hc) ?_⟩
  · have hcores := Block.coreRelease_cores (b := s.at t) hfree hst
    rw [← Block.advance_dfe _ m 9 0x44, ← Block.answer_dfe _ m .written] at hcores
    rw [Block.core_of_setCore hcores, Block.coreStarts_rejoin]
  · obtain ⟨⟨held, again, hcore⟩, hbit⟩ := Block.coreMemFault_settled (b := s.at t) hfrozen hhalted
    rw [hcore]
    exact ⟨rfl, rfl, rfl, rfl, rfl, rfl, rfl, hbit⟩
  · rw [Block.coreMemFault_outOfService (b := s.at t) hst, Block.missSettled_dfe]
    rfl
  · rw [Block.coreHalt_eq (b := s.at t) hmode hin]
    split
    · rw [Block.core_setCore, Block.coreStarts_haltReq]
    · rw [Block.leavePool_core]
      exact ⟨rfl, rfl⟩
  · rw [Block.coreResume_halted (b := s.at t) hst, Block.core_setCore, Block.coreStarts_rejoin]

end Sys2Proof.Machine
end

section
/-! PROOFS. Firings placed, started and ended, tokens released and injected (O23). -/

namespace Sys2Proof.Machine

/-! ### When a core starts a firing (R213, R214) -/

/-- Below the least of some numbers is below each. -/
theorem lt_foldl_min {α : Type} (g : α → Nat) (l : List α) (z k : Nat) :
    k < l.foldl (fun a y => min a (g y)) z ↔ k < z ∧ ∀ y ∈ l, k < g y := by
  induction l generalizing z with
  | nil => simp
  | cons y r ih =>
    rw [List.foldl_cons, ih, List.forall_mem_cons, Nat.lt_min, and_assoc]

/-- When the first of some firings may start: the dispatch gap after the first placement. -/
def startTime (f : Firing) (fs : List Firing) : Nat := fs.foldl (fun a y => min a y.placed) f.placed + dispatchGap

/-- Before it each of them is within its gap. -/
theorem lt_startTime {f : Firing} {fs : List Firing} {k : Nat} : k < startTime f fs ↔ ∀ y ∈ f :: fs, k < y.placed + dispatchGap := by
  have h := lt_foldl_min Firing.placed fs f.placed
  unfold startTime
  rw [List.forall_mem_cons]
  by_cases hk : k < dispatchGap
  · exact ⟨fun _ => ⟨by omega, fun y _ => by omega⟩, fun _ => by omega⟩
  · have hsub (n : Nat) : k < n + dispatchGap ↔ k - dispatchGap < n := by omega
    simp only [hsub]
    exact h _

/-- One of them has been placed by then. -/
theorem placed_by_startTime (f : Firing) (fs : List Firing) : (f :: fs).filter (fun y => decide (y.placed ≤ startTime f fs)) ≠ [] := by
  intro h
  have hlate := List.filter_eq_nil_iff.mp h
  simp only [decide_eq_true_eq, Nat.not_le] at hlate
  have hlt := (lt_foldl_min Firing.placed fs f.placed (startTime f fs)).mpr (List.forall_mem_cons.mp hlate)
  unfold startTime at hlt
  omega

/-- The order of R211 names one of some firings. -/
theorem Block.firstFiring_some (b : Block) {l : List Firing} (h : l ≠ []) : ∃ g, b.firstFiring l = some g := by
  cases l with
  | nil => exact absurd rfl h
  | cons f fs => exact ⟨_, rfl⟩

/-- A core that starts nothing: one that runs a firing, is out of the pool, or whose firings are all within their dispatch gap. -/
def Block.stays (b : Block) (x : Core) : Prop :=
  x.running.isSome ∨ x.out = true ∨ ∀ f ∈ x.queue, b.t7 < f.placed + dispatchGap

theorem Block.coreStarts_of_stays {b : Block} {x : Core} (h : b.stays x) : b.coreStarts x = x := by
  unfold Block.coreStarts
  split
  · rfl
  · rename_i f fs hq
    rw [Block.stays, hq, ← lt_startTime] at h
    exact if_pos h

/-- Any other core starts the first firing of those placed by then. -/
theorem Block.coreStarts_of_not_stays {b : Block} {x : Core} {f : Firing} {fs : List Firing} (hq : x.queue = f :: fs) (h : ¬b.stays x) :
    ∃ g, b.firstFiring ((f :: fs).filter (fun y => decide (y.placed ≤ startTime f fs))) = some g ∧
      b.coreStarts x = x.startsOn g (startTime f fs) := by
  obtain ⟨g, hg⟩ := b.firstFiring_some (placed_by_startTime f fs)
  refine ⟨g, hg, ?_⟩
  rw [Block.stays, hq, ← lt_startTime] at h
  rw [← hq] at hg
  unfold Block.coreStarts
  split
  · rename_i hnil
    cases hq.symm.trans hnil
  · rename_i hcons
    obtain ⟨rfl, rfl⟩ := List.cons.inj (hq.symm.trans hcons)
    refine (if_neg h).trans ?_
    split
    · rename_i hfirst
      cases hg.symm.trans hfirst
      rfl
    · rename_i hfirst
      cases hg.symm.trans hfirst

/-- A core as it stands starts nothing further. -/
theorem Block.stays_coreStarts (b : Block) (x : Core) : b.stays (b.coreStarts x) := by
  by_cases h : b.stays x
  · rwa [Block.coreStarts_of_stays h]
  · cases hq : x.queue with
    | nil => exact absurd (.inr (.inr (by simp [hq]))) h
    | cons f fs =>
      obtain ⟨g, -, hstart⟩ := Block.coreStarts_of_not_stays hq h
      rw [hstart]
      exact .inl rfl

/-- A firing that a core alone holds starts the dispatch gap after its placement. -/
theorem Block.coreStarts_alone {b : Block} {x : Core} {f : Firing} (hq : x.queue = [f]) (hidle : x.running = none) (hin : x.out = false)
    (hgap : f.placed + dispatchGap ≤ b.t7) : b.coreStarts x = x.startsOn f (startTime f []) := by
  have hgoes : ¬b.stays x := by simp [Block.stays, hidle, hin, hq, hgap]
  obtain ⟨g, hg, hstart⟩ := Block.coreStarts_of_not_stays hq hgoes
  have hone : [f].filter (fun y => decide (y.placed ≤ startTime f [])) = [f] := by simp [startTime]
  rw [hone] at hg
  cases hg
  exact hstart

/-- A core depends on its record, the graph and the time only. -/
theorem Block.core_congr {a b : Block} (hcores : b.dfe.cores = a.dfe.cores) (hgraph : b.dfe.graph = a.dfe.graph) (ht7 : b.t7 = a.t7) (c : Nat) :
    b.core c = a.core c := by
  unfold Block.core Block.coreStarts Block.firstFiring Block.dispatchBefore Block.opDef
  rw [hcores, hgraph, ht7]

/-! ### Dispatch (R211, R220) -/

/-- Lines dropped from a core's data cache. -/
theorem Core.foldl_invalidate (x : Core) (l : List (Nat × Nat)) :
    ∃ lines, l.foldl (fun (x : Core) r => x.invalidate r.1 r.2) x = { x with dcache := lines } := by
  induction l generalizing x with
  | nil => exact ⟨x.dcache, rfl⟩
  | cons r rs ih => exact ih _

/-- The firing that the dispatcher makes of what is ready. -/
def Block.firingOf (b : Block) (op tag : Nat) : Firing :=
  ⟨op, tag, (b.operands op tag).1, false, b.rpl.published, b.t7, (b.operands op tag).2⟩

/-- Where no core gave it back and no slice of it waits, it takes the tokens of its ports. -/
theorem Block.operands_fresh {b : Block} {op tag : Nat} (hback : b.dfe.back.any (fun g => g.op == op && g.tag == tag) = false)
    (hslices : b.dfe.slices.any (fun g => g.op == op && g.tag == tag) = false) :
    b.operands op tag = (b.dfe.store.filter (fun k => k.op == op && k.tag == tag), false) := by
  have hnone {l : List Firing} (h : l.any (fun g => g.op == op && g.tag == tag) = false) :
      l.find? (fun g => g.op == op && g.tag == tag) = none :=
    List.find?_eq_none.mpr (fun g hg => by simpa using List.any_eq_false.mp h g hg)
  unfold Block.operands
  simp only [hnone hback, hnone hslices]

/-- A core with one firing more in its ready queue, and the lines left that its operands do not refer to (R211, R220). -/
def Core.takes (x : Core) (lines : List CacheLine) (f : Firing) : Core := { x with dcache := lines, queue := x.queue ++ [f] }

/-- Placed now, it starts after its gap only. -/
theorem Block.stays_takes {b : Block} {x : Core} {f : Firing} (h : b.stays x) (hf : f.placed = b.t7) (lines : List CacheLine) :
    b.stays (x.takes lines f) := by
  obtain hrun | hout | hwait := h
  · exact .inl hrun
  · exact .inr (.inl hout)
  · refine .inr (.inr (fun g hg => ?_))
    obtain hg | hg := List.mem_append.mp hg
    · exact hwait g hg
    · rw [List.mem_singleton.mp hg, hf]
      exact Nat.lt_add_of_pos_right (by decide)

/-- The dispatcher puts it at the end of the target's ready queue; what it counts is none of the fabric's records. -/
theorem Block.dispatch_places {b : Block} {op tag c : Nat} {spill : Bool} (hfirst : b.firstReady = some (op, tag))
    (htarget : b.target op = some (c, spill)) : ∃ (y : Block) (lines : List CacheLine), y.dfe = (b.takeReady op tag).dfe ∧ y.t7 = b.t7 ∧
      b.dispatch = y.setCore c ((b.core c).takes lines (b.firingOf op tag)) := by
  unfold Block.dispatch
  simp only [hfirst, htarget]
  generalize hz : (if spill = true then (b.takeReady op tag).count Reg.DFE_CORE_SPILL_IN c else b.takeReady op tag) = z
  have hzdfe : z.dfe = (b.takeReady op tag).dfe ∧ z.t7 = b.t7 := by
    rw [← hz]
    split
    · exact ⟨Block.count_dfe .., Block.count_t7 ..⟩
    · exact ⟨rfl, rfl⟩
  generalize hy : (if z.pool.contains (fld (z.vis Reg.DFE_OP_AFF op) 5 0) = true then z else z.setVis Reg.DFE_OP_AFF op 0 (w32 c)) = y
  have hydfe : y.dfe = z.dfe ∧ y.t7 = z.t7 := by
    rw [← hy]
    split <;> exact ⟨rfl, rfl⟩
  have hdfe : y.dfe = (b.takeReady op tag).dfe := hydfe.1.trans hzdfe.1
  have ht7 : y.t7 = b.t7 := hydfe.2.trans hzdfe.2
  have hcore : y.core c = b.core c := Block.core_congr (by rw [hdfe]; rfl) (by rw [hdfe]; rfl) ht7 c
  obtain ⟨lines, hlines⟩ := (b.core c).foldl_invalidate ((b.operands op tag).1.filterMap Token.ref)
  refine ⟨y, lines, hdfe, ht7, ?_⟩
  rw [hcore, hlines]
  rfl

/-- Where no core gave the operands back and no slice waits, the tokens leave the store and are the firing's; an idle core starts it the
dispatch gap later. -/
theorem Block.dispatch_fresh {b : Block} {op tag c : Nat} {spill : Bool} (hfirst : b.firstReady = some (op, tag))
    (htarget : b.target op = some (c, spill)) (hback : b.dfe.back.any (fun g => g.op == op && g.tag == tag) = false)
    (hslices : b.dfe.slices.any (fun g => g.op == op && g.tag == tag) = false) {f : Firing}
    (hf : f = ⟨op, tag, b.dfe.store.filter (fun k => k.op == op && k.tag == tag), false, b.rpl.published, b.t7, false⟩) :
    b.dispatch.dfe.store = b.dfe.store.filter (fun k => !(k.op == op && k.tag == tag)) ∧
      b.dispatch.dfe.ready = b.dfe.ready.filter (fun e => e != (op, tag)) ∧
      (b.dispatch.core c).queue = (b.core c).queue ++ [f] ∧ (b.dispatch.core c).running = (b.core c).running ∧
      ((b.core c).running = none → (b.core c).queue = [] → (b.core c).out = false → ∀ u, b.t7 + dispatchGap ≤ u →
        (Block.core { b.dispatch with t7 := u } c).running = some f ∧ (Block.core { b.dispatch with t7 := u } c).st = .run) := by
  obtain ⟨y, lines, hdfe, ht7, hplaced⟩ := Block.dispatch_places hfirst htarget
  have hfiring : b.firingOf op tag = f := by rw [hf, Block.firingOf, Block.operands_fresh hback hslices]
  have hgap : f.placed = b.t7 := by rw [hf]
  have hstays : y.stays ((b.core c).takes lines f) := by
    rw [Block.stays, ht7]
    exact Block.stays_takes (b.stays_coreStarts _) hgap lines
  have hlater {z : Block} (hz : z.dfe.cores = (y.setCore c ((b.core c).takes lines f)).dfe.cores) (hidle : (b.core c).running = none)
      (hnone : (b.core c).queue = []) (hin : (b.core c).out = false) (hu : b.t7 + dispatchGap ≤ z.t7) :
      z.core c = ((b.core c).takes lines f).startsOn f (startTime f []) := by
    have hone : ((b.core c).takes lines f).queue = [f] := by rw [Core.takes, hnone, List.nil_append]
    rw [Block.core_of_setCore hz, Block.coreStarts_alone hone hidle hin (by rwa [hgap])]
  rw [hplaced, hfiring, Block.core_setCore, Block.coreStarts_of_stays hstays]
  refine ⟨(congrArg Dfe.store hdfe).trans (if_neg ?_), congrArg Dfe.ready hdfe, rfl, rfl, fun hidle hnone hin u hu => ?_⟩
  · rw [hback]
    exact Bool.false_ne_true
  · rw [hlater (z := { y.setCore c ((b.core c).takes lines f) with t7 := u }) rfl hidle hnone hin hu]
    exact ⟨rfl, rfl⟩

/-! ### Tokens that enter the store (R208, R215, R223) -/

/-- A token as it stands in the store, in the lowest free entry. -/
def Block.entered (b : Block) (t : Token) : Token := { t with entry := freeEntry b.dfe.store b.dfe.store.length 0 }

/-- No token stands in the match slot of another (R208). -/
abbrev Block.slotFree (b : Block) (t : Token) : Prop :=
  b.dfe.store.find? (fun u => u.op == t.op && u.port == t.port && u.tag % 8 == t.tag % 8) = none

theorem Block.matchToken_place_dfe (b : Block) (t : Token) :
    ∃ peak ready, (Block.matchToken.place b t).dfe = { b.dfe with store := b.dfe.store ++ [b.entered t], peak := peak, ready := ready } := by
  unfold Block.matchToken.place
  dsimp only
  split <;> exact ⟨_, _, rfl⟩

theorem Block.matchToken_place_vis (b : Block) (t : Token) (d : RegDesc) (i k : Nat) : (Block.matchToken.place b t).vis d i k = b.vis d i k := by
  unfold Block.matchToken.place
  dsimp only
  split <;> rfl

/-- A token of the generation whose match slot is free enters (R208). -/
theorem Block.matchToken_enters {b : Block} {t : Token} (hgen : t.gen = b.dfe.gen) (hfree : b.slotFree t) :
    b.matchToken t = Block.matchToken.place b t := by
  unfold Block.matchToken
  rw [if_neg (fun hne => hne hgen)]
  simp only [hfree]

/-- The dispatcher's and the engines' held tokens: the first whose class has room enters (R215). -/
theorem Block.retryHeld_enters {b : Block} {e : Nat × Token} (he : b.dfe.engHeld.find? (fun e => b.admits e.1) = some e)
    (hgen : e.2.gen = b.dfe.gen) (hfree : b.slotFree e.2) :
    b.retryHeld.dfe.store = b.dfe.store ++ [b.entered e.2] ∧ b.retryHeld.dfe.engHeld = b.dfe.engHeld.erase e := by
  unfold Block.retryHeld
  simp only [he]
  rw [Block.matchToken_enters (by exact hgen) (by exact hfree)]
  obtain ⟨peak, ready, hplaced⟩ := Block.matchToken_place_dfe { b with dfe := { b.dfe with engHeld := b.dfe.engHeld.erase e } } e.2
  rw [hplaced]
  exact ⟨rfl, rfl⟩

/-! ### What a core emits (R215, R217, R220) -/

/-- Lines cleaned change the core's record only. -/
theorem Block.coreClean_dfe (b : Block) (c a n : Nat) : ∃ cores, (b.coreClean c a n).dfe = { b.dfe with cores := cores } := by
  have hback (l : List CacheLine) : (l.foldl Block.writeBackLine b).dfe = b.dfe :=
    List.foldlRecOn (motive := fun x : Block => x.dfe = b.dfe) _ _ rfl
      (fun x hx l _ => ((Block.writeBackLine_touches x l).keeps .dfe rfl).trans hx)
  unfold Block.coreClean Block.setCore
  dsimp only
  rw [hback]
  exact ⟨_, rfl⟩

/-- What an emission does before its token is matched: lines cleaned, a carry token's half committed. -/
theorem Block.emitToken_matches (b : Block) (c : Nat) (f : Firing) (d : OpDef) (t : Token) :
    ∃ (y : Block) (cores : Tbl Core) (halves : Tbl Nat), b.emitToken c f d t = y.matchToken t ∧
      y.dfe = { b.dfe with cores := cores, halves := halves } := by
  unfold Block.emitToken
  cases t.ref with
  | none =>
    dsimp only
    split <;> exact ⟨_, _, _, rfl, rfl⟩
  | some r =>
    obtain ⟨cores, hcleaned⟩ := b.coreClean_dfe c r.1 r.2
    dsimp only
    generalize b.coreClean c r.1 r.2 = x at hcleaned ⊢
    split
    · exact ⟨_, cores, _, rfl, by rw [hcleaned]⟩
    · exact ⟨x, cores, b.dfe.halves, rfl, hcleaned⟩

/-- A token that a core emits enters the store where its match slot is free. -/
theorem Block.emitToken_enters {b : Block} {t : Token} (hgen : t.gen = b.dfe.gen) (hfree : b.slotFree t) (c : Nat) (f : Firing) (d : OpDef) :
    (b.emitToken c f d t).dfe.store = b.dfe.store ++ [b.entered t] := by
  obtain ⟨y, cores, halves, he, hy⟩ := b.emitToken_matches c f d t
  obtain ⟨peak, ready, hplaced⟩ := y.matchToken_place_dfe t
  rw [he, Block.matchToken_enters (by rw [hy]; exact hgen) (by rw [Block.slotFree, hy]; exact hfree), hplaced, Block.entered, hy]
  rfl

/-- A held emission that the sluice admits is all accepted. -/
theorem Block.emitAll_token {b : Block} {t : Token} (hgen : t.gen = b.dfe.gen) (hroom : b.admits 1 = true)
    (hfree : b.slotFree t) (c : Nat) (f : Firing) (d : OpDef) :
    ∃ y, b.emitAll c f d [.tok t] = (y, []) ∧ y.dfe.store = b.dfe.store ++ [b.entered t] := by
  unfold Block.emitAll
  rw [if_neg (by simp [hroom])]
  unfold Block.emitAll
  refine ⟨_, rfl, ?_⟩
  split
  · exact (Block.emitToken_enters (b := b.count Reg.DFE_INCOMPLETE_TOKENS) (by simpa using hgen) (by simpa [Block.slotFree] using hfree) c f d).trans
      (by rw [Block.entered, Block.count_dfe, Block.entered])
  · exact Block.emitToken_enters hgen hfree c f d

/-- A core whose firing has ended holds no emission; the store stays as it is. -/
theorem Block.coreFree_held (b : Block) (c : Nat) : ((b.coreFree c).core c).held = [] ∧ (b.coreFree c).dfe.store = b.dfe.store := by
  have hset (z : Block) (y : Core) (hz : z.dfe.store = b.dfe.store) (hy : y.held = []) :
      ((z.setCore c y).core c).held = [] ∧ (z.setCore c y).dfe.store = b.dfe.store := by
    rw [Block.core_setCore, Block.coreStarts_held]
    exact ⟨hy, hz⟩
  unfold Block.coreFree
  dsimp only
  split
  · exact hset (b.leavePool c .halted) _ rfl rfl
  · split
    · exact hset b _ rfl rfl
    · split <;> exact hset b _ rfl rfl

/-- A stalled core's one held token enters, and the core is free of it (R215). -/
theorem Block.sluiceRetry_enters {b : Block} {c : Nat} {f : Firing} {d : OpDef} {k : Token} (hc : c < 48)
    (hrun : (b.core c).running = some f) (hop : b.opDef f.op = some d) (hheld : (b.core c).held = [.tok k]) (hgen : k.gen = b.dfe.gen)
    (hroom : b.admits 1 = true) (hfree : b.slotFree k) :
    ((b.sluiceRetry c).core c).held = [] ∧ (b.sluiceRetry c).dfe.store = b.dfe.store ++ [b.entered k] := by
  obtain ⟨y, hall, hstore⟩ := Block.emitAll_token hgen hroom hfree c f d
  have hretry : b.sluiceRetry c = y.coreFree c := by
    unfold Block.sluiceRetry
    simp [hc, hrun, hop, hheld, hall]
  rw [hretry, ← hstore]
  exact y.coreFree_held c

/-! ### The end of a firing for a named output (R213, Table 8.2) -/

/-- Two blocks that differ in their registers only. -/
def Block.RegsOnly (a b : Block) : Prop := ∃ r, b = { a with regs := r }

theorem Block.RegsOnly.refl {a : Block} : Block.RegsOnly a a := ⟨a.regs, rfl⟩

theorem Block.RegsOnly.ite {a x y : Block} {p : Prop} [Decidable p] (hx : Block.RegsOnly a x) (hy : Block.RegsOnly a y) :
    Block.RegsOnly a (if p then x else y) := by
  split
  · exact hx
  · exact hy

theorem Block.RegsOnly.setVis {a x : Block} (h : Block.RegsOnly a x) (d : RegDesc) (i k : Nat) (w : Word) : Block.RegsOnly a (x.setVis d i k w) := by
  obtain ⟨r, rfl⟩ := h
  exact ⟨_, rfl⟩

theorem Block.RegsOnly.count {a x : Block} (h : Block.RegsOnly a x) (d : RegDesc) (i k n : Nat) : Block.RegsOnly a (x.count d i k n) := by
  obtain ⟨r, rfl⟩ := h
  obtain ⟨r', hr'⟩ := Block.count_eq { a with regs := r } d i k n
  exact ⟨r', hr'⟩

/-- What the end of a firing counts stands in registers (R212). -/
theorem Block.firingStats_regsOnly (b : Block) (c op since : Nat) : Block.RegsOnly b (b.firingStats c op since) := by
  unfold Block.firingStats
  extract_lets cyc longest counted ms
  have hlongest : Block.RegsOnly b longest := .ite .refl (.setVis .refl ..)
  have hcounted : Block.RegsOnly b counted := ((hlongest.count ..).count ..).setVis ..
  exact .ite hcounted (hcounted.count ..)

/-- One of them is the core's count of firings. -/
theorem Block.firingStats_counts (b : Block) {c : Nat} (hc : c < 48) (op since : Nat) :
    b.counts (b.firingStats c op since) Reg.DFE_CORE_FIRINGS c := by
  have hoff {blk sp i off : Nat} (ho : off < 65536 ∧ 0x48 ≠ off) : Reg.DFE_CORE_FIRINGS.key c 0 ≠ regKey blk sp i off :=
    regKey_ne_of_off (by decide) ho.1 ho.2
  have hmax : Reg.DFE_CORE_FIRINGS.key c 0 ≠ Reg.DFE_OP_MAX_CYCLES.key op 0 := by
    simp only [RegDesc.key, Reg.DFE_CORE_FIRINGS, Reg.DFE_OP_MAX_CYCLES, List.headD_cons, regKey]
    omega
  unfold Block.firingStats
  extract_lets cyc longest counted ms
  have hlongest : Block.KeepsReg (Reg.DFE_CORE_FIRINGS.key c 0) b longest := .ite .refl (.setVis .refl hmax)
  have hcounted : Block.KeepsReg (Reg.DFE_CORE_FIRINGS.key c 0) (longest.count Reg.DFE_CORE_FIRINGS c) counted :=
    .setVis (.count .refl (hoff (by decide)) (by rintro _ ⟨⟩; exact hoff (by decide))) (hoff (by decide))
  exact Block.KeepsReg.counts hlongest (.ite hcounted (.count hcounted (hoff (by decide)) (by rintro _ ⟨⟩; exact hoff (by decide))))
    (by rintro _ ⟨⟩; exact hoff (by decide))

/-- A number's bytes are those it was read from. -/
theorem leBytes_leNat (bs : List Byte) : leBytes bs.length (leNat bs) = bs := by
  induction bs with
  | nil => rfl
  | cons x xs ih =>
    have hlow : BitVec.ofNat 8 (x.toNat + 256 * leNat xs) = x := by
      refine BitVec.eq_of_toNat_eq ?_
      rw [BitVec.toNat_ofNat]
      omega
    have hhigh : (x.toNat + 256 * leNat xs) / 256 = leNat xs := by omega
    rw [List.length_cons, leNat, leBytes, hlow, hhigh, ih]

theorem slice_length (bs : List Byte) (i n : Nat) : (slice bs i n).length = n := by
  simp only [slice, List.length_append, List.length_take, List.length_drop, List.length_replicate]
  omega

/-- A number read at some bytes, written and read again. -/
theorem leAt_leBytes_leAt (bs : List Byte) (i n : Nat) : leAt (leBytes n (leAt bs i n)) 0 n = leAt bs i n := by
  have hbytes : leBytes n (leAt bs i n) = slice bs i n := by
    have h := leBytes_leNat (slice bs i n)
    rwa [slice_length] at h
  have hall : slice (slice bs i n) 0 n = slice bs i n := by
    rw [slice_eq_take _ (by rw [slice_length]; omega), List.drop_zero, List.take_of_length_le (Nat.le_of_eq (slice_length ..))]
  rw [hbytes, leAt, hall, leAt]

/-- What is made of the ports one by one without a look at their numbers is made of all their destinations. -/
theorem flatMap_ports {α : Type} (outs : List (List Dest)) (h : Nat × List Dest → List α) (hport : ∀ e, h e = h (0, e.2)) :
    ((List.range outs.length).zip outs).flatMap h = outs.flatMap (fun l => h (0, l)) := by
  have hsnd : ((List.range outs.length).zip outs).map Prod.snd = outs :=
    List.map_snd_zip (Nat.le_of_eq List.length_range.symm)
  calc ((List.range outs.length).zip outs).flatMap h
      = ((List.range outs.length).zip outs).flatMap (fun e => h (0, e.2)) := congrArg (List.flatMap · _) (funext hport)
    _ = (((List.range outs.length).zip outs).map Prod.snd).flatMap (fun l => h (0, l)) := (List.flatMap_map Prod.snd (fun l => h (0, l)) _).symm
    _ = outs.flatMap (fun l => h (0, l)) := by rw [hsnd]

theorem flatMap_filter_map {α β : Type} (l : List (List α)) (p : α → Bool) (k : α → β) :
    l.flatMap (fun x => (x.filter p).map k) = (l.flatten.filter p).map k := by
  rw [List.filter_flatten, List.map_flatten, List.map_map, List.flatMap_def]
  rfl

/-- The emissions of a complete firing whose one destination is an analytics sink, all its ports giving the same. -/
theorem Block.emissions_oneSink {d : OpDef} {i : Nat} (hout : d.outs.flatten = [.outAnalytics i]) (b : Block) (f : Firing)
    (p : Nat × List Byte) : b.emissions f d false (fun _ => p) = [.commit, .sink (.outAnalytics i) false (leAt p.2 0 4)] := by
  unfold Block.emissions
  dsimp only
  rw [flatMap_ports _ _ (fun _ => rfl), flatMap_filter_map, hout]
  rfl

/-- A NAMED_OUT op does nothing besides emitting (Table 8.4). -/
theorem Block.commitFiring_namedOut {d : OpDef} (hlib : d.lib = .namedOut) (b : Block) (c : Nat) (f : Firing) : b.commitFiring c f d = b := by
  have heffect : b.effect f d true = (b, false) := by
    unfold Block.effect Block.rplFire
    simp [hlib]
  unfold Block.commitFiring
  rw [heffect]
  simp [hlib]

/-- A core whose firing has ended with nothing waiting is idle (R213). -/
theorem Block.coreFree_idle {b : Block} {c : Nat} (hhalt : (b.core c).haltReq = false) (hin : (b.core c).out = false)
    (hq : (b.core c).queue = []) : b.coreFree c = b.setCore c { b.core c with running := none, held := [], st := .idle } := by
  unfold Block.coreFree
  simp [hhalt, hin, hq, Block.firstFiring]

/-- Its scalar is that of its input. -/
theorem Block.results_namedOut {d : OpDef} (hlib : d.lib = .namedOut) (b : Block) (c : Nat) (f : Firing) :
    b.results c f d = (fun _ => (0, leBytes 4 (leAt (f.data d) 0 4)), b) := by
  unfold Block.results
  simp only [hlib]

/-- Its one emission goes to the sink, and its core is free. -/
theorem Block.emitFrom_namedOut {b : Block} {f : Firing} {d : OpDef} (hlib : d.lib = .namedOut) (hfresh : b.fireStale f = false)
    (c i v : Nat) : b.emitFrom c f d [.commit, .sink (.outAnalytics i) false v] = (b.toSink f d (.outAnalytics i) false v).coreFree c := by
  have hall : b.emitAll c f d [.commit, .sink (.outAnalytics i) false v] = (b.toSink f d (.outAnalytics i) false v, []) := by
    simp [Block.emitAll, Block.commitFiring_namedOut hlib, hfresh]
  unfold Block.emitFrom
  rw [hall]

section namedOut
variable {b : Block} {c i : Nat} {f : Firing} {d : OpDef} (hrun : (b.core c).running = some f) (hheld : (b.core c).held = [])
  (hop : b.opDef f.op = some d) (hlib : d.lib = .namedOut) (hout : d.outs.flatten = [.outAnalytics i])
  (hlive : f.dead = false) (hgen : ∀ k ∈ f.toks, k.gen = b.dfe.gen) (hover : b.tagOver d f.tag = false) (hgood : b.badInput f = false)
include hrun hheld hop hlib hout hlive hgen hover hgood

/-- The end of a NAMED_OUT op's firing for an analytics sink: its counts, the core's memories after the library's code, the scalar at the
sink, the core free. -/
theorem Block.complete_namedOut : b.complete c true =
    ((((b.firingStats c f.op (b.core c).since).setCore c ((b.core c).ran d.libId b.free)).toSink f d (.outAnalytics i) false
      (leAt (f.data d) 0 4)).coreFree c) := by
  obtain ⟨r, hr⟩ := b.firingStats_regsOnly c f.op (b.core c).since
  have hfresh : ({ b with regs := r } : Block).fireStale f = false := by
    unfold Block.fireStale
    simpa using hgen
  have hrest : ¬(f.dead = true ∨ ({ b with regs := r } : Block).tagOver d f.tag = true) := by
    rintro (hdead | htag)
    · exact Bool.false_ne_true (hlive.symm.trans hdead)
    · exact Bool.false_ne_true (hover.symm.trans htag)
  have hcore : ({ b with regs := r } : Block).core c = b.core c := rfl
  unfold Block.complete
  simp only [hrun, hop]
  rw [hr, if_neg (by simp [hheld]), hfresh, if_neg Bool.false_ne_true, if_neg hrest, if_neg (by simp), hcore]
  generalize hx : ({ b with regs := r } : Block).setCore c _ = x
  have hgoodx : x.badInput f = false := by
    rw [← hx]
    exact hgood
  have hfreshx : x.fireStale f = false := by
    rw [← hx]
    exact hfresh
  rw [hgoodx, if_neg Bool.false_ne_true, Block.results_namedOut hlib, Block.emissions_oneSink hout, leAt_leBytes_leAt,
    Block.emitFrom_namedOut hlib hfreshx]

/-- So the scalar stands at the sink under the firing's tag, the core is idle, and the firing is counted. -/
theorem Block.complete_namedOut_publishes (hq : (b.core c).queue = []) (hhalt : (b.core c).haltReq = false) (hin : (b.core c).out = false)
    (hc : c < 48) :
    Tbl.get (b.complete c true).missSettled.dfe.analytics (1024 * i + f.tag % 1024) (65536, 0) = (f.tag, leAt (f.data d) 0 4) ∧
      ((b.complete c true).missSettled.core c).running = none ∧ ((b.complete c true).missSettled.core c).st = .idle ∧
      b.counts (b.complete c true).missSettled Reg.DFE_CORE_FIRINGS c := by
  have hcounts := b.firingStats_counts hc f.op (b.core c).since
  rw [Block.complete_namedOut hrun hheld hop hlib hout hlive hgen hover hgood]
  generalize b.firingStats c f.op (b.core c).since = y at hcounts ⊢
  generalize hx : (b.core c).ran d.libId b.free = x
  obtain ⟨hxrun, hxq, hxhalt, hxin⟩ : x.running = some f ∧ x.queue = [] ∧ x.haltReq = false ∧ x.out = false := by
    rw [← hx]
    exact ⟨hrun, hq, hhalt, hin⟩
  generalize hz : (y.setCore c x).toSink f d (.outAnalytics i) false (leAt (f.data d) 0 4) = z
  have hzcore : z.core c = x := Block.core_of_setCore_noQueue (b := y) (by rw [← hz, Block.toSink_cores]) hxq
  rw [Block.coreFree_idle (by rw [hzcore, hxhalt]) (by rw [hzcore, hxin]) (by rw [hzcore, hxq]), hzcore, Block.missSettled_dfe,
    Block.core_of_setCore_noQueue (b := z) (by rw [Block.missSettled_dfe]) (by exact hxq)]
  refine ⟨?_, rfl, rfl, Block.counts_keeps hcounts (.missSettled (.of_vis .refl ?_) ?_)⟩
  · rw [← hz]
    exact Tbl.get_ins_same ..
  · rw [← hz]
    rfl
  · rw [RegDesc.key, keyBlk_regKey (by decide) (by omega) (by decide)]
    decide

end namedOut

/-! ### Host injection (R223) -/

/-- An injection that DFE accepts: the token enters, and INJ_STATUS reads 0. -/
theorem Block.dfeInject_enters {b : Block} {m op port tag : Nat} {d : OpDef} (hop : b.opDef op = some d) (hlib : d.lib = .hostIn)
    (hlow : 1 ≤ fld (b.vis Reg.DFE_INJ_LEN m) 20 0) (hhigh : fld (b.vis Reg.DFE_INJ_LEN m) 20 0 ≤ 1048576)
    (hrange : refRangeOk (b.addrOf Reg.DFE_INJ_ADDR_LO Reg.DFE_INJ_ADDR_HI m) (fld (b.vis Reg.DFE_INJ_LEN m) 20 0) = true)
    (hroom : b.admits 2 = true)
    (htag : tag = if d.epoch then b.rpl.epoch % 65536 else (Tbl.get b.dfe.closedSeq d.ring 0 + 65535) % 65536)
    (hfree : b.dfe.store.find? (fun u => u.op == op && u.port == port && u.tag % 8 == tag % 8) = none) :
    (b.dfeInject m op port).dfe.store = b.dfe.store ++ [b.entered ⟨op, port, tag, d.ring, b.dfe.gen, d.epoch, false, 0, 1,
        leBytes 8 (b.addrOf Reg.DFE_INJ_ADDR_LO Reg.DFE_INJ_ADDR_HI m) ++ leBytes 4 (fld (b.vis Reg.DFE_INJ_LEN m) 20 0), 0⟩] ∧
      (b.dfeInject m op port).vis Reg.DFE_INJ_STATUS m = 0 := by
  subst htag
  unfold Block.dfeInject
  simp only [hop]
  rw [if_pos (by simp [hlib, hlow, hhigh, hrange, hroom]), Block.matchToken_enters rfl (by exact hfree)]
  refine ⟨?_, ?_⟩
  · obtain ⟨peak, ready, hplaced⟩ := (b.setVis Reg.DFE_INJ_STATUS m 0 0).matchToken_place_dfe _
    rw [hplaced]
    rfl
  · rw [Block.matchToken_place_vis, Block.vis_setVis_same]

/-- Settles O23: each command by the lemma of its operation. -/
theorem firingsArePlacedAndFed : Obligations.FiringsArePlacedAndFed := by
  refine ⟨fun t op tag c spill f s hfirst htarget hback hslices hf => Completes.run (f := Block.dispatch) rfl ?_,
    fun t c i f d s hc hrun hheld hq hhalt hin hop hlib hout _ hlive hgen hover hgood =>
      Completes.runIf (f := fun b => (b.complete c true).missSettled) rfl (decide_eq_true hc) ?_,
    fun t c f d k s hc hrun hop hheld hgen hroom hfree =>
      Completes.runIf (f := fun b => (b.sluiceRetry c).missSettled) rfl (decide_eq_true (by omega)) ?_,
    fun t e s he hgen hfree => Completes.runIf (f := fun b => (b.sluiceRetry 48).missSettled) rfl rfl ?_,
    fun t m op port tag d s hm hlt hport hop hlib hlow hhigh hrange hroom htag hfree =>
      Completes.byMaster (f := fun b => b.dfeInject m (op % 4096) (port % 4)) rfl (decide_eq_true hm.1) hm ?_⟩
  · exact Block.dispatch_fresh (b := s.at t) hfirst htarget hback hslices hf
  · exact Block.complete_namedOut_publishes (b := s.at t) hrun hheld hop hlib hout hlive hgen hover hgood hq hhalt hin hc
  · obtain ⟨hfreed, hstore⟩ := Block.sluiceRetry_enters (b := s.at t) hc hrun hop hheld hgen hroom hfree
    rw [Block.core_congr (b := (((s.at t).sluiceRetry c).missSettled)) (a := (s.at t).sluiceRetry c) (by rw [Block.missSettled_dfe])
      (by rw [Block.missSettled_dfe]) ((Block.missSettled_touches _).keeps .t7 rfl), Block.missSettled_dfe]
    exact ⟨hstore, hfreed⟩
  · rw [Block.missSettled_dfe]
    exact Block.retryHeld_enters (b := s.at t) he hgen hfree
  · rw [Nat.mod_eq_of_lt hlt, Nat.mod_eq_of_lt hport, Block.advance_global _ _ _ (by decide)]
    exact Block.dfeInject_enters (b := s.at t) hop hlib hlow hhigh hrange hroom htag hfree

end Sys2Proof.Machine
end

section
/-! PROOFS. A memory mover whose channel switches the image, and with it resets the die (O7). -/

namespace Sys2Proof.Machine

/-- The SHA-256 digest of the image that `Block.withImage` puts into the flash, up to its signature. -/
def imageDigest : Nat := 0x6ADD41EDE972DE075316D2923980E4DE43212E3CB271930F0CACD0C9530A51E8

/-- The public key for which r and s, both that digest, sign the image: R − G, for the point R that has the digest as its abscissa. -/
def imageKey : Nat := leNat (beBytes 32 0x4EC538EC9A3D972FE9AA36A2ED49D44652DC3158A46C75CA1422FF6C66C35228 ++
  beBytes 32 0x8095347C7BB1FC7E3A6A3446161D59D75418CC1E2972E045ABF3D464B0D421BE)

/-- A signed image in bank 1 (R435): the header, the sections 0x0B, 1, 2 and 3 without a body, the signature; PK1 is the key that signed it. -/
def Block.withImage (b : Block) : Block :=
  let put (b : Block) (e : Nat × Nat × Nat) : Block := b.storeFlash (0x4000000 + e.1) (leBytes e.2.1 e.2.2)
  let b := [(0, 4, 0x47494459), (4, 3, 1), (8, 4, 576), (22, 2, 4), (40, 16, 0)].foldl put b
  let b := [(256, 2, 0x0B), (260, 4, 0), (320, 2, 1), (324, 4, 0), (384, 2, 2), (388, 4, 0), (448, 2, 3), (452, 4, 0)].foldl put b
  { b.storeFlash (0x4000000 + 512) (beBytes 32 imageDigest ++ beBytes 32 imageDigest) with key := { b.key with pk := [(1, imageKey)] } }

/-- In MAINTENANCE, at 5 ns of TB7, with the bus open to every master: channel 12 is PENDING, and moves the item of queue 40 to
SYS.IMG_STATUS and SYS.IMG_CMD. The item's upper word is SWITCH. -/
def switchByMover : State :=
  let b := [(Reg.ACC_RGN_LIMIT, 0, 0xFFFFFFFF), (Reg.ACC_RGN_PERM, 0, 0x80003F3F), (Reg.QUE_CFG, 40, 0x80010000), (Reg.QUE_SEL, 52, 40),
    (Reg.DMA_CH_CFG, 12, 0x38000000), (Reg.DMA_SRC_BASE_LO, 12, 0xF0100058), (Reg.DMA_SRC_LEN, 12, 8), (Reg.DMA_SRC_COUNT, 12, 1),
    (Reg.DMA_DST_BASE_LO, 12, 0xF0000444), (Reg.DMA_DST_LEN, 12, 8), (Reg.DMA_DST_COUNT, 12, 1)].foldl
    (fun (b : Block) (e : RegDesc × Nat × Nat) => b.setBoth e.1 e.2.1 0 (w32 e.2.2)) Block.reset.withImage
  let b := (b.setQueue 40 { Queue.reset with items := [⟨2 * 2 ^ 32, true, false⟩] }).setDmaCh 12 { DmaCh.reset with st := .pending }
  { State.reset with blk := { b with t7 := 5, sys := { b.sys with mode := .maintenance } } }

/-- The channel starts, pops the item and writes its words: the image passes the checks of Table 18.9, and the die is reset (R440). -/
theorem switchByMover_resets : ((switchByMover.at 0).dmaGo 0).sys.mode = .load ∧ ((switchByMover.at 0).dmaGo 0).t7 = 0 := by decide +kernel

/-- Refutes O7: DMA_CHANNEL_RUN is not among the commands that may reset the die, but the mover that it runs writes registers, and a write of
SYS.IMG_CMD[SWITCH] by any master resets the die, which puts TB7 to 0. -/
theorem not_tb7NeverRunsBackwards : ¬ Obligations.TB7NeverRunsBackwards := by
  intro h
  have hrun : exec (.dmaChannelRun 0 0) switchByMover = .next { switchByMover with blk := (switchByMover.at 0).dmaGo 0 } :=
    State.runIf_eq switchByMover (c := Wf.engine 0) rfl 0 (fun b => b.dmaGo 0)
  have hle := h _ _ _ rfl hrun
  rw [switchByMover_resets.2] at hle
  exact absurd hle (by decide)

end Sys2Proof.Machine
end

section
/-! PROOFS. What the operations of the time bases, and the mode that follows TB0, leave of TIM's state. -/

namespace Sys2Proof.Machine

/-! ### Operations that change time bases only -/

/-- Of TIM's state, nothing but time bases differs. -/
structure Block.BasesOnly (a b : Block) : Prop where
  same : ∃ l, b.tim = { a.tim with tb := l }

section bases
variable {a b c : Block}

theorem Block.BasesOnly.refl : Block.BasesOnly a a := ⟨a.tim.tb, rfl⟩

theorem Block.BasesOnly.trans (h : Block.BasesOnly a b) (k : Block.BasesOnly b c) : Block.BasesOnly a c := by
  obtain ⟨l, hl⟩ := h
  obtain ⟨m, hm⟩ := k
  exact ⟨m, by rw [hm, hl]⟩

theorem Block.BasesOnly.of_tim (h : Block.BasesOnly a b) (e : c.tim = b.tim) : Block.BasesOnly a c :=
  h.trans ⟨b.tim.tb, e⟩

theorem Block.BasesOnly.setTb (h : Block.BasesOnly a b) {n : Nat} {x : TimeBase} : Block.BasesOnly a (b.setTb n x) := h.trans ⟨_, rfl⟩

variable (h : Block.BasesOnly a b)
include h

theorem Block.BasesOnly.tin : b.tim.tin = a.tim.tin := by
  obtain ⟨l, hl⟩ := h
  rw [hl]

theorem Block.BasesOnly.ptpState (n : Nat) : b.ptpState n = a.ptpState n := by
  obtain ⟨l, hl⟩ := h
  unfold Block.ptpState
  rw [hl]

theorem Block.BasesOnly.pdState (p : Nat) : b.pdState p = a.pdState p := by
  obtain ⟨l, hl⟩ := h
  unfold Block.pdState
  rw [hl]

end bases

/-! ### The operations on a source lost (R243) -/

/-- What holds of a block goes on to hold at each operation that the loss of a source of a time base consists of. -/
structure Block.LossKeeps (P : Block → Prop) (n : Nat) : Prop where
  setTb : ∀ b x, P b → P (b.setTb n x)
  retune : ∀ b r, P b → P (b.retune n r)
  count : ∀ b, P b → P (b.count Reg.TIM_TB_HOLDOVERS n)
  irq : ∀ b k, P b → P (b.irq Blk.tim k)
  event : ∀ b code a1, P b → P (b.timEvent code n n a1)

section loss
variable {P : Block → Prop} {n : Nat} {b : Block}

theorem Block.ite_holds {p : Prop} [Decidable p] {x y : Block} (hx : P x) (hy : P y) : P (if p then x else y) := by
  split
  · exact hx
  · exact hy

theorem Block.LossKeeps.sourceLost (k : Block.LossKeeps P n) (h : P b) (src : Nat) : P (b.sourceLost n src) := by
  unfold Block.sourceLost
  extract_lets was x y qualified lost tuned source z left settled
  have hqualified : P qualified := k.setTb _ _ h
  have hlost (b : Block) (hb : P b) : P (lost b) := k.event _ _ _ (k.irq _ _ hb)
  have hleft : P left := k.setTb _ _ (k.retune _ _ hqualified)
  have hsettled : P settled :=
    Block.ite_holds (k.event _ _ _ (k.irq _ _ (k.count _ (k.setTb _ _ hleft))))
      (Block.ite_holds hleft (k.event _ _ _ (k.irq _ _ (k.setTb _ _ hleft))))
  exact Block.ite_holds hqualified (Block.ite_holds (hlost _ hqualified) (hlost _ hsettled))

theorem Block.LossKeeps.lostToTb0 (k : Block.LossKeeps P n) (k0 : Block.LossKeeps P 0) (h : P b) : P (b.lostToTb0 n) := by
  have hset := k.setTb b { b.tb n with lockedSince := none } h
  exact Block.ite_holds (k0.sourceLost hset _) (Block.ite_holds (k0.sourceLost hset _) hset)

theorem Block.LossKeeps.loseSource (k : Block.LossKeeps P n) (k0 : Block.LossKeeps P 0) (h : P b) (src : Nat) :
    P (b.loseSource n src) :=
  Block.ite_holds (k.lostToTb0 k0 (k.sourceLost h src)) (k.sourceLost h src)

end loss

theorem Block.BasesOnly.lossKeeps (a : Block) (n : Nat) : Block.LossKeeps (Block.BasesOnly a) n where
  setTb _ _ h := h.setTb
  retune b r h := by
    unfold Block.retune
    exact Block.ite_holds (h.setTb.of_tim rfl) h.setTb
  count _ h := h.of_tim (Block.count_tim ..)
  irq _ _ h := h.of_tim rfl
  event _ _ _ h := h.of_tim (Block.timEvent_tim ..)

/-- A source lost reaches no further than the time bases. -/
theorem Block.loseSource_basesOnly (b : Block) (n src : Nat) : Block.BasesOnly b (b.loseSource n src) :=
  (Block.BasesOnly.lossKeeps b n).loseSource (Block.BasesOnly.lossKeeps b 0) .refl src

theorem Block.tb_congr {a b : Block} (h : b.tim = a.tim) (n : Nat) : b.tb n = a.tb n := congrArg (fun (x : Tim) => Tbl.get x.tb n TimeBase.reset) h

/-! ### The mode that follows TB0 (Table 18.2) -/

/-- The modes into which the state of TB0 leads. -/
abbrev Mode.follows (m : Mode) : Prop := m = .active ∨ m = .holdover ∨ m = .standby ∨ m = .degraded

/-- The block in a mode that TB0 leads to, before pins, publishers and capture units follow. -/
def Block.inMode (b : Block) (m : Mode) (cause : Nat) : Block :=
  let old := b.sys.mode
  let b := b.noteUnlocked
  let b := { b with sys := { b.sys with
      mode := m
      goodSince := if m.confirms = true then (if old.confirms = true then b.sys.goodSince else some b.t7) else none } }
  let b := ((b.irq Blk.sys 0).event 0x0101 0xFFFF (old.code + 256 * m.code) cause).noteUnlocked
  if old.diagnostic = true ∧ m.diagnostic = false then b.clearPause else b

theorem Block.clearPause_keepsOthers (b : Block) : b.clearPause.sys = b.sys ∧ b.clearPause.tim = b.tim :=
  ⟨(Block.clearPause_touches b).keeps .sys rfl, (Block.clearPause_touches b).keeps .tim rfl⟩

theorem Block.inMode_mode (b : Block) (m : Mode) (cause : Nat) : (b.inMode m cause).sys.mode = m := by
  unfold Block.inMode
  dsimp only
  split
  · rw [(Block.clearPause_keepsOthers _).1]
    exact congrArg Sys.mode (Block.event_sys ..)
  · exact congrArg Sys.mode (Block.event_sys ..)

theorem Block.inMode_tim (b : Block) (m : Mode) (cause : Nat) : (b.inMode m cause).tim = b.tim := by
  unfold Block.inMode
  dsimp only
  split
  · rw [(Block.clearPause_keepsOthers _).2]
    exact Block.event_tim ..
  · exact Block.event_tim ..

/-- No pulse of a pulse output ends at a change to such a mode. -/
theorem Block.setMode_eq (b : Block) {m : Mode} (hm : m.follows) (cause : Nat) :
    b.setMode m cause = if b.sys.mode = m then b else (b.inMode m cause).almMode.capMode := by
  have hsys : ((b.inMode m cause).almMode.capMode).sys.mode = m := by
    rw [show ((b.inMode m cause).almMode.capMode).sys = (b.inMode m cause).almMode.sys from (Block.capMode_touches _).keeps .sys rfl,
      show (b.inMode m cause).almMode.sys = (b.inMode m cause).sys from (Block.almMode_touches _).keeps .sys rfl, Block.inMode_mode]
  have hon : ((b.inMode m cause).almMode.capMode).pulsesOff = false := by
    unfold Block.pulsesOff
    rw [hsys]
    rcases hm with rfl | rfl | rfl | rfl <;> rfl
  have hend : ((b.inMode m cause).almMode.capMode).pulsesEnd = (b.inMode m cause).almMode.capMode := if_pos hon
  rw [← hend]
  rcases hm with rfl | rfl | rfl | rfl <;> rfl

/-- Such a change leaves TIM. -/
theorem Block.setMode_tim (b : Block) {m : Mode} (hm : m.follows) (cause : Nat) : (b.setMode m cause).tim = b.tim := by
  rw [Block.setMode_eq b hm]
  split
  · rfl
  · rw [show ((b.inMode m cause).almMode.capMode).tim = (b.inMode m cause).almMode.tim from (Block.capMode_touches _).keeps .tim rfl,
      show (b.inMode m cause).almMode.tim = (b.inMode m cause).tim from (Block.almMode_touches _).keeps .tim rfl, Block.inMode_tim]

theorem Block.serviceMode_follows (b : Block) : b.serviceMode.follows := by
  unfold Block.serviceMode Mode.follows
  split
  · simp
  · split <;> simp

/-- What holds of the block, and goes on to hold as TB0 leaves virtual operation, at the changes of mode and at the listen of a paired module,
holds once the mode has followed TB0. -/
theorem Block.modeFollow_induction {P : Block → Prop} {b : Block} (hb : P b) (hleave : P b.tb0Leave)
    (hmode : ∀ x m cause, P x → Mode.follows m → P (x.setMode m cause)) (hlisten : ∀ x, P x → P x.ringsStop.listenStart) :
    P b.modeFollow := by
  have hend : P b.acquireEnd := by
    unfold Block.acquireEnd
    dsimp only
    split
    · exact hlisten _ (hmode _ _ _ hleave (.inr (.inr (.inl rfl))))
    · exact hmode _ _ _ hleave (Block.serviceMode_follows _)
  unfold Block.modeFollow
  dsimp only
  split
  · split
    · exact hend
    · exact hb
  · split
    · exact hb
    · exact hmode _ _ _ hb (.inr (.inl rfl))
  · split
    · exact hmode _ _ _ hb (.inl rfl)
    · exact hb
  · exact hb

/-- The listen of a paired module leaves TIM. -/
theorem Block.listen_tim (b : Block) : b.ringsStop.listenStart.tim = b.tim :=
  (show b.ringsStop.listenStart.tim = b.ringsStop.tim from (Block.listenStart_touches _).keeps .tim rfl).trans
    ((Block.ringsStop_touches b).keeps .tim rfl)

theorem Block.modeFollow_basesOnly (b : Block) : Block.BasesOnly b b.modeFollow :=
  Block.modeFollow_induction .refl (.setTb .refl) (fun x _ cause hx hm => hx.of_tim (x.setMode_tim hm cause)) (fun x hx => hx.of_tim x.listen_tim)

/-- All that becomes of a time base is that TB0 leaves virtual operation. -/
theorem Block.modeFollow_tb (b : Block) (n : Nat) : ∃ v, b.modeFollow.tb n = { b.tb n with virtual := v } := by
  have hleave : ∃ v, b.tb0Leave.tb n = { b.tb n with virtual := v } := by
    unfold Block.tb0Leave
    by_cases hn : n = 0
    · subst hn
      exact ⟨false, Block.tb_setTb ..⟩
    · exact ⟨_, Block.tb_setTb_other _ _ hn⟩
  refine Block.modeFollow_induction (P := fun x => ∃ v, x.tb n = { b.tb n with virtual := v }) ⟨_, rfl⟩ hleave ?_ ?_
  · intro x m cause hx hm
    rwa [Block.tb_congr (x.setMode_tim hm cause)]
  · intro x hx
    rwa [Block.tb_congr x.listen_tim]

end Sys2Proof.Machine
end

section
/-! PROOFS. Timing inputs, the oscillator, leap seconds and pulses (O29). -/

namespace Sys2Proof.Machine

/-! ### Commands that change time bases -/

/-- The inputs at TIN after a command whose operation the mode follows. -/
theorem Block.timed_modeFollow_tin (b : Block) (f : Block → Block) :
    (b.timed (fun b => (f b).modeFollow)).tim.tin = (f b.noteUnlocked).tim.tin := (Block.modeFollow_basesOnly _).tin

/-! ### TIN -/

section tin
variable {b : Block}

/-- The comparison of a source's leap flags notes the source, and nothing else of TIM (R258). -/
theorem Block.leapCompare_tim (b : Block) (n : Nat) (off : Option Int) (l61 l59 : Bool) (early late : Nat) :
    ∃ l, (b.leapCompare n off l61 l59 early late).tim = { b.tim with leapBad := l } := by
  unfold Block.leapCompare
  extract_lets soon late differs bad
  split
  · exact ⟨_, Block.eventRep_tim ..⟩
  · exact ⟨_, rfl⟩

theorem Block.leapIrig_tim (b : Block) : ∃ l, b.leapIrig.tim = { b.tim with leapBad := l } := by
  unfold Block.leapIrig
  split
  · exact Block.leapCompare_tim ..
  · exact ⟨_, rfl⟩

theorem Block.leapPtp_tim (b : Block) (n : Nat) : ∃ l, (b.leapPtp n).tim = { b.tim with leapBad := l } := by
  unfold Block.leapPtp
  dsimp only
  split
  · exact ⟨_, rfl⟩
  · exact Block.leapCompare_tim ..

@[simp] theorem Block.leapIrig_leapDone (b : Block) : b.leapIrig.tim.leapDone = b.tim.leapDone := by
  obtain ⟨l, h⟩ := b.leapIrig_tim
  rw [h]

@[simp] theorem Block.leapPtp_leapDone (b : Block) (n : Nat) : (b.leapPtp n).tim.leapDone = b.tim.leapDone := by
  obtain ⟨l, h⟩ := b.leapPtp_tim n
  rw [h]

@[simp] theorem Block.leapIrig_tin (b : Block) : b.leapIrig.tim.tin = b.tim.tin := by
  obtain ⟨l, h⟩ := b.leapIrig_tim
  rw [h]

theorem Block.loseSource_tin (b : Block) (n src : Nat) : (b.loseSource n src).tim.tin = b.tim.tin := (b.loseSource_basesOnly n src).tin

/-- A good IRIG-B frame (R249). -/
theorem Block.irigFrame_good (hen : b.cb Reg.TIM_TIN_CFG 0 31 = true) {c : IrigCode} (hgood : c.good = true) (fmt tq : Nat) (l61 l59 : Bool) :
    ∃ since, (b.irigFrame c fmt tq l61 l59).tim.tin = { b.tim.tin with
      irigAt := some b.t7, irigValid := true, irigMiss := 0, irigTq := tq % 16, irigFmt := fmt % 8, irigUtc := some (c.utc fmt),
      irigSince := since, irigLeap := some (l61, l59) } := by
  unfold Block.irigFrame
  rw [if_neg (by simp [hen])]
  dsimp only
  rw [if_pos hgood]
  split
  · exact ⟨_, Block.leapIrig_tin _⟩
  · exact ⟨_, (Block.loseSource_tin ..).trans (Block.leapIrig_tin _)⟩

/-- A second bad frame in a row (R243). -/
theorem Block.irigFrame_bad (hen : b.cb Reg.TIM_TIN_CFG 0 31 = true) {c : IrigCode} (hbad : c.good = false)
    (hmiss : 1 ≤ b.tim.tin.irigMiss) (fmt tq : Nat) (l61 l59 : Bool) :
    (b.irigFrame c fmt tq l61 l59).tim.tin = { b.tim.tin with
      irigAt := some b.t7, irigMiss := b.tim.tin.irigMiss + 1, irigSince := none, irigValid := false } := by
  unfold Block.irigFrame
  rw [if_neg (by simp [hen])]
  dsimp only
  rw [if_neg (by simp [hbad]), if_neg (by omega)]
  exact Block.loseSource_tin ..

/-- Whether a pulse at an instant is the first or comes 1 s ± 1 ms after the last. -/
def Tin.pulseFits (x : Tin) (t7 : Nat) : Bool :=
  match x.ppsAt with
  | some a => decide (a + 999000000 ≤ t7) && decide (t7 ≤ a + 1001000000)
  | none => true

/-- The edge that PPS_POL names is a pulse (R250). -/
theorem Block.ppsEdge_pulse (hen : b.cb Reg.TIM_TIN_CFG 0 29 = true) (hpol : b.tim.tin.ppsLevel = b.cb Reg.TIM_TIN_CFG 0 28) :
    ∃ x : Tin, b.ppsEdge.tim.tin =
      { x with ppsLevel := !b.tim.tin.ppsLevel, ppsAt := some b.t7, ppsPresent := b.tim.tin.pulseFits b.t7 } := by
  unfold Block.ppsEdge
  extract_lets last x good told pulsed checked rest
  rw [if_neg (by simp [hen, x, ← hpol])]
  have hchecked : ∃ x : Tin, checked.tim.tin =
      { x with ppsLevel := !b.tim.tin.ppsLevel, ppsAt := some b.t7, ppsPresent := b.tim.tin.pulseFits b.t7 } := by
    unfold checked
    split
    · exact ⟨pulsed.tim.tin, rfl⟩
    · exact ⟨pulsed.tim.tin, (Block.loseSource_tin ..).trans (Block.loseSource_tin ..)⟩
  obtain ⟨y, hy⟩ := hchecked
  split
  · split
    · refine ⟨{ y with todValid := false }, (Block.loseSource_tin ..).trans ?_⟩
      show ({ checked.tim.tin with todValid := false } : Tin) = _
      rw [hy]
    · exact ⟨y, hy⟩
  · exact ⟨y, hy⟩

/-- The other edge is none. -/
theorem Block.ppsEdge_other (hpol : b.tim.tin.ppsLevel ≠ b.cb Reg.TIM_TIN_CFG 0 28) :
    b.ppsEdge.tim.tin = { b.tim.tin with ppsLevel := !b.tim.tin.ppsLevel } := by
  have hlevel : (!b.tim.tin.ppsLevel) = b.cb Reg.TIM_TIN_CFG 0 28 := by
    rw [Bool.not_eq]
    exact hpol
  unfold Block.ppsEdge
  dsimp only
  rw [if_pos (.inr hlevel)]
  rfl

/-- A good sentence that names the next second (R250). -/
theorem Block.todSentence_good {h : TodHead} {utc : Nat} (hen : b.cb Reg.TIM_TIN_CFG 0 30 = true) (hrmc : h.rmc = b.cb Reg.TIM_TIN_CFG 0 26)
    (hbaud : h.baud = b.cf Reg.TIM_TIN_CFG 0 18 16) (hgood : h.good = true) (hstatus : h.rmc = false ∨ h.statusA = true)
    (hnext : b.tim.tin.todSec = none ∨ b.tim.tin.todSec = some (utc - 1) ∧ 1 ≤ utc) :
    ∃ since, (b.todSentence h utc).tim.tin =
      { b.tim.tin with todAt := some b.t7, todSec := some utc, todBad := 0, todValid := true, todSince := since } := by
  have hok : (h.good && (!h.rmc || h.statusA)) = true := by
    rw [hgood, Bool.true_and, Bool.or_eq_true, Bool.not_eq_true']
    exact hstatus
  have hsec : (match b.tim.tin.todSec with | some s => utc == s + 1 | none => true) = true := by
    rcases hnext with h | ⟨h, hpos⟩
    · rw [h]
    · rw [h]
      simp only [beq_iff_eq]
      omega
  unfold Block.todSentence
  rw [if_neg (by simp [hen, hrmc, hbaud])]
  dsimp only
  rw [if_pos (by rw [hok, Bool.true_and]; exact hsec)]
  exact ⟨_, rfl⟩

end tin

/-! ### The oscillator (R236) -/

/-- An interrupt of TIM that is raised shows in IRQ_STATUS past TIM's event (R449). -/
theorem Block.irqStatus_timEvent (b : Block) {n : Nat} (hn : n < 32) (code src tb a1 : Nat) :
    bit (((b.irq Blk.tim n).timEvent code src tb a1).vis Reg.TIM_IRQ_STATUS).toNat n = true := by
  have he : ((b.irq Blk.tim n).timEvent code src tb a1).vis Reg.TIM_IRQ_STATUS = (b.irq Blk.tim n).vis Reg.TIM_IRQ_STATUS :=
    Block.event_other _ _ (by decide) (by decide) ..
  rw [he]
  exact b.irq_bit Blk.tim hn

/-- The PLL goes to the reference that it is to run on. -/
theorem Block.oscSettle_switches {b : Block} (h : b.tim.oscActive ≠ b2n b.oscWanted) :
    b.oscSettle.tim = { b.tim with oscActive := b2n b.oscWanted } ∧ bit (b.oscSettle.vis Reg.TIM_IRQ_STATUS).toNat 6 = true := by
  unfold Block.oscSettle
  dsimp only
  rw [if_neg h]
  exact ⟨Block.timEvent_tim .., Block.irqStatus_timEvent _ (by decide) ..⟩

/-- The block once it has seen REF10. -/
def Block.ref10Seen (b : Block) (r : RefSight) : Block :=
  let since (p : Bool) (s : Option Nat) : Option Nat := if p then some (s.getD b.t7) else none
  { b with tim := { b.tim with
      ref10Present := r.present
      ref10Bad := since (r.present && decide (5000 < r.ppb)) b.tim.ref10Bad
      ref10Good := since (r.present && decide (r.ppb ≤ 2000)) b.tim.ref10Good } }

theorem Block.oscSwitch_eq (b : Block) (r : RefSight) : b.oscSwitch r = (b.ref10Seen r).oscSettle := rfl

section osc
variable {b : Block} {r : RefSight}

/-- REF10 is wanted once it has been within 2 ppm for 10 s. -/
theorem Block.oscWanted_ref10 {a : Nat} (hcfg : b.cb Reg.TIM_OSC_CFG 0 0 = true) (hact : b.tim.oscActive = 0) (hpres : r.present = true)
    (hppb : r.ppb ≤ 2000) (hgood : b.tim.ref10Good = some a) (hheld : a + 10 * nsPerS ≤ b.t7) : (b.ref10Seen r).oscWanted = true := by
  have hcb : (b.ref10Seen r).cb Reg.TIM_OSC_CFG 0 0 = true := hcfg
  unfold Block.oscWanted
  rw [hcb]
  simp [Block.ref10Seen, hact, hpres, hppb, hgood, hheld]

/-- And the TCXO once REF10 is absent or has been more than 5 ppm away for 10 ms. -/
theorem Block.oscWanted_tcxo (hact : b.tim.oscActive = 1)
    (hbad : r.present = false ∨ 5000 < r.ppb ∧ ∃ a, b.tim.ref10Bad = some a ∧ a + 10000000 ≤ b.t7) : (b.ref10Seen r).oscWanted = false := by
  unfold Block.oscWanted
  rcases hbad with h | ⟨hppb, a, ha, hover⟩
  · simp [Block.ref10Seen, h]
  · cases hpres : r.present
    · simp [Block.ref10Seen, hpres]
    · simp [Block.ref10Seen, hact, hppb, ha, hover, hpres]

/-- A switch, with its interrupt. -/
theorem Block.oscSwitch_switches {w : Bool} (hw : (b.ref10Seen r).oscWanted = w) (hact : b.tim.oscActive ≠ b2n w) :
    (b.oscSwitch r).tim.oscActive = b2n w ∧ (b.oscSwitch r).tim.ref10Present = r.present ∧
      bit ((b.oscSwitch r).vis Reg.TIM_IRQ_STATUS).toNat 6 = true := by
  obtain ⟨htim, hirq⟩ := Block.oscSettle_switches (b := b.ref10Seen r) (by rw [hw]; exact hact)
  rw [Block.oscSwitch_eq, htim, hw]
  exact ⟨rfl, rfl, hirq⟩

end osc

/-! ### Leap seconds (R257) -/

theorem Block.leapSecond_applied {b : Block} {e : Nat × Int} (he : b.tim.leaps[b.tim.leapDone]? = some e) (hdue : e.1 ≤ b.now / nsPerS) :
    b.leapSecond.tim.leapDone = b.tim.leapDone + 1 := by
  unfold Block.leapSecond
  rw [he]
  dsimp only
  rw [if_neg (by omega)]
  simp only [List.foldl_cons, List.foldl_nil, Block.leapIrig_leapDone, Block.leapPtp_leapDone, Block.timEvent_tim]

/-! ### Pulses (R260, R262) -/

section pulse
variable {b : Block} {i e : Nat}

/-- A counter of a pulse output and its SAT flag are different registers. -/
theorem timEdges_sat (i : Nat) : ∀ p, Reg.TIM_PO_EDGES.sat = some p → Reg.TIM_PO_EDGES.key i 0 ≠ regKey 1 1 i p.1 := by
  intro p hp
  cases hp
  exact regKey_ne_of_off (by decide) (by decide) (by decide)

/-- An edge that is due starts a pulse of PO_WIDTH. -/
theorem Block.pulseEdge_starts (hnext : (b.poState i).nextEdge = some e) (harmed : (b.poState i).armed = true)
    (hdue : e ≤ b.tbNow (b.poTb i)) (hon : b.pulsesOff = false)
    (hlock : b.cb Reg.TIM_PO_CFG i 27 = true → (b.tb (b.poTb i)).st = .locked) :
    ((b.pulseEdge i).poState i).pulseEnd = some (e + b.cn Reg.TIM_PO_WIDTH i) ∧ b.counts (b.pulseEdge i) Reg.TIM_PO_EDGES i := by
  have hwaits : ¬((b.poState i).armed = false ∨ b.tbNow (b.poTb i) < e) := by
    rw [harmed]
    simpa using hdue
  have hskip : ¬(b.cb Reg.TIM_PO_CFG i 27 = true ∧ (b.tb (b.poTb i)).st ≠ .locked) := fun h => h.2 (hlock h.1)
  unfold Block.pulseEdge
  dsimp only
  rw [hnext]
  dsimp only
  rw [if_neg hwaits, hon, if_neg Bool.false_ne_true, if_neg hskip]
  constructor
  · rw [Block.poState, Block.count_tim]
    exact congrArg PulseOut.pulseEnd (Block.poState_setPo b i _)
  · exact Block.vis_count_toNat _ _ _ _ _ (timEdges_sat i)

/-- Settings that take effect leave the pulse in progress. -/
theorem Block.poArm_pulseEnd (b : Block) (i : Nat) : ((b.poArm i).poState i).pulseEnd = (b.poState i).pulseEnd := by
  unfold Block.poArm
  dsimp only
  split
  · rw [Block.poState_setPo]
  · split
    · rw [Block.poState_setPo]
    · rw [Block.poState, Block.eventRep_tim]
      exact (congrArg PulseOut.pulseEnd (Block.poState_setPo b i _) :)

/-- And so do waiting settings that are handed over. -/
theorem Block.poHandover_pulseEnd (b : Block) (i : Nat) : ((b.poHandover i).poState i).pulseEnd = (b.poState i).pulseEnd := by
  unfold Block.poHandover
  extract_lets p old z
  split
  · rfl
  · have hpo : z.poState i = b.poState i := by
      have ht : Touches [.vis, .act, .com, .dirty, .evr] b z :=
        Block.handover_step .refl rfl (fun x e hx => hx.trans (Block.timReject_touches x e) rfl)
      exact congrArg (fun (x : Tim) => Tbl.get x.po i PulseOut.reset) (ht.keeps .tim rfl)
    split
    · rw [hpo]
    · rw [Block.poArm_pulseEnd, hpo]

/-- The trailing edge ends the pulse. -/
theorem Block.pulseEndAt_ends (hpulse : (b.poState i).pulseEnd = some e) (hdue : e ≤ b.tbNow (b.poTb i)) :
    ((b.pulseEndAt i).poState i).pulseEnd = none := by
  unfold Block.pulseEndAt
  dsimp only
  rw [hpulse]
  dsimp only
  rw [if_neg (by omega), Block.poHandover_pulseEnd, Block.poState_setPo]

end pulse

/-- Settles O29: each command by the lemma of its operation; the mode that follows leaves the inputs at TIN. -/
theorem timingInputsAndPulses : Obligations.TimingInputsAndPulses := by
  refine ⟨fun t fmt tq c l61 l59 s hen hgood => ?_, fun t fmt tq c l61 l59 s hen hbad hmiss => ?_, fun t s hen hpol => ?_,
    fun t s _ hpol => ?_, fun t utc h s hen hrmc hbaud hgood hstatus hnext => ?_,
    fun t a r s hcfg hact hpres hppb hgood hheld => ?_, fun t r s hact hbad => ?_, fun t e s he hdue => ?_, fun t s hdue => ?_,
    fun t i e s hi hnext harmed hdue hon hlock => ?_, fun t i e s hi hpulse hdue => ?_⟩
  · refine Completes.run (t := t) (f := fun b => b.timed (fun b => (b.irigFrame c fmt tq l61 l59).modeFollow)) rfl ?_
    obtain ⟨since, hx⟩ := Block.irigFrame_good (b := (s.at t).noteUnlocked) hen hgood fmt tq l61 l59
    simp only [Block.timed_modeFollow_tin, hx, and_self]
  · refine Completes.run (t := t) (f := fun b => b.timed (fun b => (b.irigFrame c fmt tq l61 l59).modeFollow)) rfl ?_
    have hx := Block.irigFrame_bad (b := (s.at t).noteUnlocked) hen hbad hmiss fmt tq l61 l59
    simp only [Block.timed_modeFollow_tin, hx, true_and]
    rfl
  · refine Completes.run (t := t) (f := fun b => b.timed (fun b => b.ppsEdge.modeFollow)) rfl ?_
    obtain ⟨x, hx⟩ := Block.ppsEdge_pulse (b := (s.at t).noteUnlocked) hen hpol
    simp only [Block.timed_modeFollow_tin, hx]
    exact ⟨rfl, rfl, rfl⟩
  · refine Completes.run (t := t) (f := fun b => b.timed (fun b => b.ppsEdge.modeFollow)) rfl ?_
    have hx := Block.ppsEdge_other (b := (s.at t).noteUnlocked) hpol
    simp only [Block.timed_modeFollow_tin, hx]
    rfl
  · refine Completes.run (t := t) (f := fun b => b.timed (fun b => (b.todSentence h utc).modeFollow)) rfl ?_
    obtain ⟨since, hx⟩ := Block.todSentence_good (b := (s.at t).noteUnlocked) hen hrmc hbaud hgood hstatus hnext
    simp only [Block.timed_modeFollow_tin, hx, and_self]
  · refine Completes.run (t := t) (f := fun b => b.timed (fun b => b.oscSwitch r)) rfl ?_
    obtain ⟨hosc, href, hirq⟩ := Block.oscSwitch_switches (b := (s.at t).noteUnlocked) (w := true)
      (Block.oscWanted_ref10 hcfg hact hpres hppb hgood hheld) (by rw [show (s.at t).noteUnlocked.tim.oscActive = 0 from hact]; decide)
    exact ⟨hosc, href.trans hpres, hirq⟩
  · exact Completes.run (t := t) (f := fun b => b.timed (fun b => b.oscSwitch r)) rfl (Block.oscSwitch_switches (b := (s.at t).noteUnlocked) (w := false)
      (Block.oscWanted_tcxo hact hbad) (by rw [show (s.at t).noteUnlocked.tim.oscActive = 1 from hact]; decide))
  · exact Completes.run (t := t) (f := fun b => b.leapSecond) rfl (Block.leapSecond_applied (b := s.at t) he hdue)
  · refine Completes.run (t := t) (f := fun b => b.leapExpiry) rfl ?_
    rw [Block.leapExpiry, if_pos (show (s.at t).tim.leapExpiry ≤ (s.at t).now / nsPerS from hdue)]
  · exact Completes.runIf (t := t) (f := fun b => b.pulseEdge i) rfl (decide_eq_true hi) (Block.pulseEdge_starts (b := s.at t) hnext harmed hdue hon hlock)
  · exact Completes.runIf (t := t) (f := fun b => b.pulseEndAt i) rfl (decide_eq_true hi) (Block.pulseEndAt_ends (b := s.at t) hpulse hdue)

end Sys2Proof.Machine
end

section
/-! PROOFS. The mode that follows TB0 leaves the registers of TIM. -/

namespace Sys2Proof.Machine

/-! ### What leaves the registers of TIM -/

/-- Every register of TIM reads in the second block as in the first. -/
structure Block.KeepsTim (a b : Block) : Prop where
  reg : ∀ j, keyBlk j = 1 → Block.KeepsReg j a b

/-- The registers of the later blocks stand above TIM's, whatever they are of. -/
theorem ne_regKey_of_keyBlk_one {j blk sp i off : Nat} (hj : keyBlk j = 1) (hb : 2 ≤ blk) : j ≠ regKey blk sp i off := by
  rintro rfl
  unfold keyBlk regKey at hj
  omega

section keeps
variable {a b c : Block}

theorem Block.KeepsTim.refl : Block.KeepsTim a a := ⟨fun _ _ => .refl⟩

theorem Block.KeepsTim.trans (h : Block.KeepsTim a b) (k : Block.KeepsTim b c) : Block.KeepsTim a c :=
  ⟨fun j hj => (h.reg j hj).trans (k.reg j hj)⟩

theorem Block.KeepsTim.of_vis (h : Block.KeepsTim a b) (e : c.regs.vis = b.regs.vis) : Block.KeepsTim a c :=
  ⟨fun j hj => (h.reg j hj).of_vis e⟩

theorem Block.KeepsTim.touched {l : List Part} (h : Block.KeepsTim a b) (k : Touches l b c) (hl : l.contains .vis = false) :
    Block.KeepsTim a c := h.trans ⟨fun _ _ => k.keepsReg hl⟩

theorem Block.KeepsTim.ite {p : Prop} [Decidable p] (h : Block.KeepsTim a b) (k : Block.KeepsTim a c) :
    Block.KeepsTim a (if p then b else c) := by
  split
  · exact h
  · exact k

theorem Block.KeepsTim.fold {α : Type} {f : Block → α → Block} (l : List α) (h : Block.KeepsTim a b)
    (k : ∀ x e, Block.KeepsTim a x → Block.KeepsTim a (f x e)) : Block.KeepsTim a (l.foldl f b) :=
  List.foldlRecOn l f h (fun x hx e _ => k x e hx)

variable (h : Block.KeepsTim a b)
include h

theorem Block.KeepsTim.setVis {d : RegDesc} (hd : 2 ≤ d.blk) {i k : Nat} {w : Word} : Block.KeepsTim a (b.setVis d i k w) :=
  ⟨fun j hj => (h.reg j hj).setVis (ne_regKey_of_keyBlk_one hj hd)⟩

theorem Block.KeepsTim.count {d : RegDesc} (hd : 2 ≤ d.blk) {i k n : Nat} : Block.KeepsTim a (b.count d i k n) :=
  ⟨fun j hj => (h.reg j hj).count (ne_regKey_of_keyBlk_one hj hd) (fun _ _ => ne_regKey_of_keyBlk_one hj hd)⟩

theorem Block.KeepsTim.irq {blk n : Nat} (hb : 2 ≤ blk) : Block.KeepsTim a (b.irq blk n) :=
  ⟨fun j hj => (h.reg j hj).raiseBit (ne_regKey_of_keyBlk_one hj hb)⟩

theorem Block.KeepsTim.irqSys {n : Nat} : Block.KeepsTim a (b.irq Blk.sys n) :=
  ⟨fun j hj => (h.reg j hj).raiseBit (ne_of_apply_ne keyBlk (by rw [hj]; decide))⟩

theorem Block.KeepsTim.event {code src a0 a1 : Nat} : Block.KeepsTim a (b.event code src a0 a1) :=
  ⟨fun j hj => (h.reg j hj).event (by omega)⟩

theorem Block.KeepsTim.eventRep {key code src a1 : Nat} : Block.KeepsTim a (b.eventRep key code src a1) :=
  ⟨fun j hj => (h.reg j hj).eventRep (by omega)⟩

theorem Block.KeepsTim.push {q val : Nat} {eop : Bool} : Block.KeepsTim a (b.push q val eop) :=
  ⟨fun j hj => (h.reg j hj).push (by omega)⟩

/-! ### Frames and publishers -/

theorem Block.KeepsTim.enqueue {p : Nat} {e : Egress} : Block.KeepsTim a (b.enqueue p e) := by
  unfold Block.enqueue
  exact .ite (h.of_vis rfl) (h.count (by split <;> decide))

theorem Block.KeepsTim.enqueueAll {p cls : Nat} {frames : List (List Byte)} : Block.KeepsTim a (b.enqueueAll p cls frames) :=
  h.fold frames (fun _ _ hx => hx.enqueue)

theorem Block.KeepsTim.udpSend {p cls : Nat} {d : UdpDesc} : Block.KeepsTim a (b.udpSend p cls d) := by
  unfold Block.udpSend
  exact .ite (h.count (by decide)) (h.of_vis (by rfl)).enqueueAll

theorem Block.KeepsTim.pubSend {p : Nat} {aborted : Bool} : Block.KeepsTim a (b.pubSend p aborted) := by
  unfold Block.pubSend
  exact .ite (h.enqueueAll.count (by decide)) (.ite (.event (h.count (by decide)))
    (.ite (.eventRep ((h.count (by decide)).irq (by decide))) (((h.of_vis (by rfl)).udpSend.touched (Block.noteSigned_touches ..) rfl).count (by decide))))

theorem Block.KeepsTim.pubChange {p st t : Nat} {data : List Nat} : Block.KeepsTim a (b.pubChange p st t data) := (h.of_vis (by rfl)).pubSend

theorem Block.KeepsTim.pubRefresh : Block.KeepsTim a b.pubRefresh :=
  h.fold _ (fun _ _ hx => .ite hx.pubChange (.ite (hx.of_vis (by rfl)) hx))

theorem Block.KeepsTim.almMode : Block.KeepsTim a b.almMode := by
  have hpins := h.touched (Block.pulsesDriven_touches b) rfl
  exact .pubRefresh (.ite hpins (hpins.setVis (by decide)))

theorem Block.KeepsTim.pubUpdate {r seq t : Nat} : Block.KeepsTim a (b.pubUpdate r seq t) :=
  h.fold _ (fun _ _ hx => .ite hx.pubChange hx)

/-! ### Hand-overs and capture units -/

/-- A hand-over of sets of other blocks. -/
theorem Block.KeepsTim.handover {p : Nat → Bool} {group : Nat → Nat} {ok : Block → Tbl Word → Bool} {reject : Block → Nat → Block}
    (hp : ∀ k, p k = true → keyBlk k ≠ 1) (hreject : ∀ x k, Block.KeepsTim a x → Block.KeepsTim a (reject x k)) :
    Block.KeepsTim a (b.handover p group ok reject) := by
  have hset : ∀ e ∈ b.comSets p, p e.1 = true := by
    intro e he
    obtain ⟨z, hz, hze⟩ := List.mem_filterMap.mp he
    have hk : e.1 = z.1 := by
      split at hze
      · cases hze
        rfl
      · obtain ⟨w, -, hw⟩ := Option.map_eq_some_iff.mp hze
        rw [← hw]
    rw [hk]
    exact (List.mem_filter.mp hz).2
  have hunshadow (x : Block) (l : Tbl Word) (hl : ∀ e ∈ l, p e.1 = true) (hx : Block.KeepsTim a x) : Block.KeepsTim a (x.unshadow l) := by
    refine hx.trans ⟨fun j hj => ⟨fun d => ?_⟩⟩
    refine List.foldlRecOn (motive := fun v => Tbl.get v j d = Tbl.get x.regs.vis j d) l _ rfl (fun v hv e he => ?_)
    split
    · exact hv
    · exact (Tbl.get_put_other _ _ _ _ _ _ (fun hje => hp _ (hl e he) (by rw [← hje]; exact hj))).trans hv
  unfold Block.handover
  refine Block.KeepsTim.fold _ (h.of_vis rfl) (fun x g hx => .ite hx ?_)
  extract_lets mine
  have hmine : ∀ e ∈ mine, p e.1 = true := fun e he => hset e (List.mem_filter.mp he).1
  clear_value mine
  cases mine with
  | nil => exact hx
  | cons e r => exact hreject _ _ (hunshadow _ _ hmine hx)

theorem Block.KeepsTim.capOverwrite {u : Nat} : Block.KeepsTim a (b.capOverwrite u) := by
  unfold Block.capOverwrite
  dsimp only
  split
  · exact h
  · exact (((h.of_vis (by rfl)).count (by decide)).irq (by decide)).event

theorem Block.KeepsTim.capFull {u : Nat} : Block.KeepsTim a (b.capFull u) := (((h.of_vis (by rfl)).count (by decide)).irq (by decide)).event

theorem Block.KeepsTim.capSeal {u : Nat} {truncated : Bool} : Block.KeepsTim a (b.capSeal u truncated) := by
  unfold Block.capSeal
  extract_lets x period
  split
  · exact h
  · extract_lets hi after flags stored cycled mine kept pushed noted room
    have hcycled : Block.KeepsTim a cycled := (h.touched (Block.store_touches ..) rfl).touched (Block.capCycles_touches ..) rfl
    have hnoted : Block.KeepsTim a noted := ((hcycled.of_vis (by rfl)).push.irq (by decide)).event
    exact .touched (.ite hnoted (.ite hnoted.capOverwrite hnoted.capFull)) (Block.capHoldCheck_touches ..) rfl

theorem Block.KeepsTim.capRefresh {u : Nat} : Block.KeepsTim a (b.capRefresh u) := by
  have hempty := (h.touched (Block.capEmpty_touches b u) rfl)
  unfold Block.capRefresh
  exact .ite
    (.ite (.ite (hempty.of_vis (by rfl)) (.ite (hempty.of_vis (by rfl)).capOverwrite (hempty.of_vis (by rfl)).capFull))
      (.ite ((h.capOverwrite.of_vis (by rfl)).touched (Block.capHoldCheck_touches ..) rfl) h))
    (.ite h (.of_vis (.ite h.capSeal h) (by rfl)))

theorem Block.KeepsTim.capHandover {u : Nat} : Block.KeepsTim a (b.capHandover u) := by
  unfold Block.capHandover
  refine .ite h (.ite h (.capRefresh ?_))
  have hover := h.handover (p := fun k => keyBlk k == Blk.cap && keySpace k == 0 && keyInst k == u) (group := fun _ => 0)
    (ok := fun b _ => b.capSetOk u) (reject := fun b _ => (b.irq Blk.cap 4).event 0x0D06 u (b.capU u).num (ns32 (b.capU u).lastT))
    (fun k hk => by
      simp only [Bool.and_eq_true, beq_iff_eq] at hk
      rw [hk.1.1]
      decide)
    (fun _ _ hx => (hx.irq (by decide)).event)
  exact .ite hover (hover.touched (Block.capEmpty_touches ..) rfl)

theorem Block.KeepsTim.capMode : Block.KeepsTim a b.capMode := h.fold _ (fun _ _ hx => hx.capRefresh.capHandover)

/-! ### The rings -/

theorem Block.KeepsTim.matchToken {t : Token} : Block.KeepsTim a (b.matchToken t) := by
  have hplace (x : Block) (u : Token) (hx : Block.KeepsTim a x) : Block.KeepsTim a (Block.matchToken.place x u) := by
    unfold Block.matchToken.place
    exact .ite (hx.of_vis (by rfl)) (hx.of_vis (by rfl))
  unfold Block.matchToken
  refine .ite (.eventRep (h.count (by decide))) ?_
  split
  · have hhit := ((h.count (d := Reg.DFE_MATCH_COLLIDE) (i := 0) (k := 0) (n := 1) (by decide)).irq (blk := Blk.dfe) (n := 5) (by decide)).eventRep
      (key := t.op) (code := 0x0A06) (src := 0xFFFF) (a1 := genTag t.gen t.tag)
    exact .ite hhit (.ite hhit (hplace _ _ (hhit.of_vis (by rfl))))
  · exact hplace _ _ h

theorem Block.KeepsTim.sluiceHold {tag : Nat} : Block.KeepsTim a (b.sluiceHold tag) := by
  have hheld := h.count (d := Reg.DFE_SLUICE_HOLDS) (i := 0) (k := 0) (n := 1) (by decide)
  unfold Block.sluiceHold
  exact .ite hheld (.eventRep (.irq (hheld.of_vis (by rfl)) (by decide)))

theorem Block.KeepsTim.carryPorts {f : Firing} {ports : List Nat} : Block.KeepsTim a (b.carryPorts f ports) := by
  refine h.fold _ (fun x t hx => ?_)
  unfold Block.offerToken
  exact .ite hx.matchToken (.sluiceHold (hx.of_vis (by rfl)))

theorem Block.KeepsTim.carryOn {f : Firing} : Block.KeepsTim a (b.carryOn f) := by
  unfold Block.carryOn
  split
  · exact h
  · exact h.carryPorts

theorem Block.KeepsTim.expireQueued {f : Firing} : Block.KeepsTim a (b.expireQueued f) := by
  unfold Block.expireQueued
  split
  · exact h
  · exact h.carryOn.count (by decide)

theorem Block.KeepsTim.expireRunning {c : Nat} {f : Firing} : Block.KeepsTim a (b.expireRunning c f) := by
  unfold Block.expireRunning
  extract_lets x lost
  split
  · exact (h.touched (Block.setCore_touches ..) rfl).carryOn
  · have hlost : Block.KeepsTim a lost := h.count (by decide)
    split
    · exact hlost.touched (Block.coreFree_touches ..) rfl
    · exact hlost.carryPorts.touched (Block.coreFree_touches ..) rfl

theorem Block.KeepsTim.almExpire {r seq : Nat} : Block.KeepsTim a (b.almExpire r seq) := by
  unfold Block.almExpire
  extract_lets ds held
  have hheld : Block.KeepsTim a held := h.fold ds (fun _ _ hx => (hx.of_vis (by rfl)).count (by decide))
  refine .ite hheld ?_
  unfold Block.almDeliver
  exact (((hheld.count (by decide)).touched (Block.almNote_touches _) rfl).touched (Block.almPins_touches _) rfl).pubUpdate

theorem Block.KeepsTim.missEnd {r tag : Nat} : Block.KeepsTim a (b.missEnd r tag) := by
  unfold Block.missEnd
  exact .ite h (.event (h.of_vis (by rfl)))

theorem Block.KeepsTim.missed {r seq : Nat} : Block.KeepsTim a (b.missed r seq) := by
  have hmiss := (h.count (d := Reg.DFE_DEADLINE_MISS) (i := 0) (k := 0) (n := 1) (by decide)).irq (blk := Blk.dfe) (n := 0) (by decide)
  exact .touched (.ite hmiss.event hmiss) (Block.setRing_touches ..) rfl

theorem Block.KeepsTim.expireTag {r seq : Nat} : Block.KeepsTim a (b.expireTag r seq) := by
  unfold Block.expireTag
  extract_lets now tag mine own isCarry next toks held waits queued running miss gone source left counted carried waited ran closed
  have hleft : Block.KeepsTim a left := (h.touched (Block.coresNow_touches b) rfl).of_vis rfl
  have hcounted : Block.KeepsTim a counted := .ite hleft (hleft.count (by decide))
  have hcarried : Block.KeepsTim a carried := hcounted.fold _ (fun _ _ hx => hx.matchToken)
  have hwaited : Block.KeepsTim a waited := hcarried.fold _ (fun _ _ hx => hx.expireQueued)
  have hran : Block.KeepsTim a ran := hwaited.fold _ (fun _ _ hx => hx.expireRunning)
  exact .almExpire (.ite hran.missed hran.missEnd)

theorem Block.KeepsTim.endAnalysis {r : Nat} : Block.KeepsTim a (b.endAnalysis r) := by
  unfold Block.endAnalysis
  extract_lets expired n held cleared y
  have hexpired : Block.KeepsTim a expired := by
    unfold expired
    split
    · exact h.expireTag
    · exact h
  have hheld : Block.KeepsTim a held := .ite hexpired hexpired.almExpire
  exact hheld.of_vis rfl

theorem Block.KeepsTim.cancelClaims {r seq : Nat} : Block.KeepsTim a (b.cancelClaims r seq) :=
  .fold _ (h.of_vis (by rfl)) (fun _ _ hx => .eventRep (((hx.count (by decide)).count (by decide)).irq (by decide)))

theorem Block.KeepsTim.freeBasin {r p : Nat} : Block.KeepsTim a (b.freeBasin r p) := by
  unfold Block.freeBasin
  exact .ite h ((h.touched (Block.setBasin_touches ..) rfl).cancelClaims.touched (Block.outDrop_touches ..) rfl)

theorem Block.KeepsTim.ringStop {r : Nat} : Block.KeepsTim a (b.ringStop r) := by
  have hfreed (x : Block) (hx : Block.KeepsTim a x) : Block.KeepsTim a (x.freeRing r) :=
    .touched (.fold _ hx (fun _ _ hy => hy.freeBasin)) (Block.cmpRestart_touches ..) rfl
  unfold Block.ringStop
  exact (hfreed _ h.endAnalysis).touched (Block.setRing_touches ..) rfl

/-! ### The listen of a paired module -/

theorem Block.KeepsTim.redSend {path type seq : Nat} : Block.KeepsTim a (b.redSend path type seq) := by
  have hmirror (m : List Byte) : Block.KeepsTim a (b.mirrorSend 2 m) := by
    unfold Block.mirrorSend
    split
    · exact h
    · exact h.enqueue
  unfold Block.redSend
  exact .ite h (.touched (.ite (hmirror _) h) (Block.redNote_touches ..) rfl)

theorem Block.KeepsTim.listenStart : Block.KeepsTim a b.listenStart := by
  have hrole (x : Block) (hx : Block.KeepsTim a x) : Block.KeepsTim a (x.setRole 0) := by
    unfold Block.setRole
    exact .ite hx (hx.of_vis (by rfl)).push
  unfold Block.listenStart Block.redSendBoth
  exact .redSend (.redSend (hrole _ (h.of_vis (by rfl))))

/-! ### The mode -/

theorem Block.KeepsTim.inMode {m : Mode} {cause : Nat} : Block.KeepsTim a (b.inMode m cause) := by
  have hpause {x : Block} (hx : Block.KeepsTim a x) : Block.KeepsTim a x.clearPause := hx.fold _ (fun _ _ hy => hy.setVis (by decide))
  unfold Block.inMode
  extract_lets old noted source moded told
  have hmoded : Block.KeepsTim a moded := h.of_vis rfl
  have htold : Block.KeepsTim a told := hmoded.irqSys.event.touched (Block.noteUnlocked_touches _) rfl
  exact .ite (hpause htold) htold

theorem Block.KeepsTim.setMode {m : Mode} (hm : m.follows) {cause : Nat} : Block.KeepsTim a (b.setMode m cause) := by
  rw [Block.setMode_eq b hm]
  exact .ite h h.inMode.almMode.capMode

end keeps

theorem Block.modeFollow_keepsTim (b : Block) : Block.KeepsTim b b.modeFollow :=
  Block.modeFollow_induction .refl (.of_vis .refl rfl) (fun _ _ _ hx hm => hx.setMode hm) (fun _ hx => hx.ringStop.ringStop.listenStart)

end Sys2Proof.Machine
end

section
/-! PROOFS. Time sources that qualify and are lost, and the peer delays of a port (O28). -/

namespace Sys2Proof.Machine

/-! ### What leaves TIM's registers but for those at some offsets -/

/-- TIM's registers read the same but for those at the listed offsets, and every active copy is the same. -/
structure Block.KeepsTimBut (l : List Nat) (a b : Block) : Prop where
  act : b.regs.act = a.regs.act
  reg : ∀ j, keyBlk j = 1 → j % 65536 ∉ l → Block.KeepsReg j a b

section keeps
variable {l : List Nat} {a b c : Block}

theorem Block.KeepsTimBut.refl : Block.KeepsTimBut l a a := ⟨rfl, fun _ _ _ => .refl⟩

theorem Block.KeepsTimBut.ite {p : Prop} [Decidable p] (h : Block.KeepsTimBut l a b) (k : Block.KeepsTimBut l a c) :
    Block.KeepsTimBut l a (if p then b else c) := by
  split
  · exact h
  · exact k

theorem Block.KeepsTimBut.fold {α : Type} {f : Block → α → Block} (r : List α) (h : Block.KeepsTimBut l a b)
    (k : ∀ x e, Block.KeepsTimBut l a x → Block.KeepsTimBut l a (f x e)) : Block.KeepsTimBut l a (r.foldl f b) :=
  List.foldlRecOn r f h (fun x hx e _ => k x e hx)

variable (h : Block.KeepsTimBut l a b)
include h

theorem Block.KeepsTimBut.of_regs (e : c.regs = b.regs) : Block.KeepsTimBut l a c :=
  ⟨(congrArg Regs.act e).trans h.act, fun j hj ho => (h.reg j hj ho).of_vis (congrArg Regs.vis e)⟩

theorem Block.KeepsTimBut.setVis {d : RegDesc} {i k : Nat} {w : Word} (hd : (d.off + d.stride * k) % 65536 ∈ l) :
    Block.KeepsTimBut l a (b.setVis d i k w) := by
  refine ⟨h.act, fun j hj ho => (h.reg j hj ho).setVis ?_⟩
  rintro rfl
  rw [RegDesc.key, regKey_mod] at ho
  exact ho hd

theorem Block.KeepsTimBut.count {d : RegDesc} {i k n : Nat}
    (hd : (d.off + d.stride * k) % 65536 ∈ l ∧ ∀ p ∈ d.sat, p.1 % 65536 ∈ l) : Block.KeepsTimBut l a (b.count d i k n) := by
  refine ⟨((Block.count_touches ..).keeps .act rfl).trans h.act, fun j hj ho => (h.reg j hj ho).count ?_ (fun p hp => ?_)⟩
  · rintro rfl
    rw [RegDesc.key, regKey_mod] at ho
    exact ho hd.1
  · rintro rfl
    rw [regKey_mod] at ho
    exact ho (hd.2 p hp)

theorem Block.KeepsTimBut.irq {blk n : Nat} (hl : 0x400 ∈ l) : Block.KeepsTimBut l a (b.irq blk n) := by
  refine ⟨h.act, fun j hj ho => (h.reg j hj ho).raiseBit ?_⟩
  rintro rfl
  rw [regKey_mod] at ho
  exact ho hl

theorem Block.KeepsTimBut.timEvent {code src n a1 : Nat} : Block.KeepsTimBut l a (b.timEvent code src n a1) :=
  ⟨((Block.timEvent_touches ..).keeps .act rfl).trans h.act, fun j hj ho => (h.reg j hj ho).event (by omega)⟩

theorem Block.KeepsTimBut.eventRep {key code src a1 : Nat} : Block.KeepsTimBut l a (b.eventRep key code src a1) :=
  ⟨((Block.eventRep_touches ..).keeps .act rfl).trans h.act, fun j hj ho => (h.reg j hj ho).eventRep (by omega)⟩

/-- A setting of TIM at another offset. -/
theorem Block.KeepsTimBut.cfg {d : RegDesc} {i k : Nat} (hd : d.blk = 1 ∧ d.spaces.headD 15 < 16 ∧ d.off + d.stride * k < 65536)
    (hi : i < 1048576) (ho : (d.off + d.stride * k) % 65536 ∉ l) : b.cfg d i k = a.cfg d i k := by
  obtain ⟨hblk, hspace, hoff⟩ := hd
  have hvis : b.vis d i k = a.vis d i k :=
    (h.reg (d.key i k) ((keyBlk_regKey hspace hi hoff).trans hblk) (by rwa [RegDesc.key, regKey_mod])).reads _
  unfold Block.cfg Block.act
  rw [hvis, h.act]

end keeps

/-! ### Time bases after their operations -/

@[simp] theorem Block.count_tb (b : Block) (d : RegDesc) (i k n m : Nat) : (b.count d i k n).tb m = b.tb m := Block.tb_congr (Block.count_tim ..) m
@[simp] theorem Block.irq_tb (b : Block) (blk n m : Nat) : (b.irq blk n).tb m = b.tb m := rfl
@[simp] theorem Block.timEvent_tb (b : Block) (code src n a1 m : Nat) : (b.timEvent code src n a1).tb m = b.tb m :=
  Block.tb_congr (Block.timEvent_tim ..) m

/-- A time base re-anchored (R239). -/
theorem Block.retune_tb (b : Block) (n : Nat) (r : Int) : ∃ va na, (b.retune n r).tb n = { b.tb n with va := va, na := na, rho := r } := by
  unfold Block.retune
  dsimp only
  split
  · exact ⟨_, _, Block.tb_setTb b n _⟩
  · exact ⟨_, _, Block.tb_setTb b n _⟩

theorem Block.retune_tb_other (b : Block) {n m : Nat} (h : m ≠ n) (r : Int) : (b.retune n r).tb m = b.tb m := by
  unfold Block.retune
  dsimp only
  split
  · exact Block.tb_setTb_other _ _ h
  · exact Block.tb_setTb_other _ _ h

/-- The loss of a source of one time base, as far as it reaches no other. -/
theorem Block.lossKeeps_tb {n m : Nat} (h : m ≠ n) (y : TimeBase) : Block.LossKeeps (fun b => b.tb m = y) n where
  setTb b x hb := (Block.tb_setTb_other b x h).trans hb
  retune b r hb := (b.retune_tb_other h r).trans hb
  count b hb := (b.count_tb ..).trans hb
  irq _ _ hb := hb
  event b _ _ hb := (b.timEvent_tb ..).trans hb

/-- The registers of TIM that the loss of a source changes: TB_VRATE, TB_HOLDOVERS with its SAT flag, IRQ_STATUS. -/
abbrev Tim.lossOffsets : List Nat := [0x6C, 0x84, 0x8C, 0x400]

theorem Block.lossKeeps_regs (a : Block) (n : Nat) : Block.LossKeeps (Block.KeepsTimBut Tim.lossOffsets a) n where
  setTb _ _ h := h.of_regs rfl
  retune b r h := by
    unfold Block.retune
    exact .ite ((h.of_regs (by rfl)).setVis (by decide)) (h.of_regs (by rfl))
  count _ h := h.count (by decide)
  irq _ _ h := h.irq (by decide)
  event _ _ _ h := h.timEvent

/-- An interrupt of TIM is raised. -/
abbrev Block.timIrq (b : Block) (k : Nat) : Prop := bit (b.vis Reg.TIM_IRQ_STATUS).toNat k = true

/-- One raised stays while others are. -/
theorem Block.timIrq_irq {b : Block} {k : Nat} (h : b.timIrq k) (n : Nat) : (b.irq Blk.tim n).timIrq k := by
  have hs : (b.irq Blk.tim n).vis Reg.TIM_IRQ_STATUS = b.vis Reg.TIM_IRQ_STATUS ||| BitVec.twoPow 32 n := Tbl.get_put_same ..
  unfold Block.timIrq at h ⊢
  rw [bit_eq_testBit, BitVec.testBit_toNat] at h
  rw [hs, bit_eq_testBit, BitVec.testBit_toNat, BitVec.getLsbD_or, h, Bool.true_or]

theorem Block.KeepsReg.timIrq {a b : Block} (h : Block.KeepsReg (regKey 1 15 0 0x400) a b) {k : Nat} (ha : a.timIrq k) : b.timIrq k := by
  have hvis : b.vis Reg.TIM_IRQ_STATUS = a.vis Reg.TIM_IRQ_STATUS := h.reads _
  unfold Block.timIrq
  rwa [hvis]

theorem Block.lossKeeps_timIrq (k n : Nat) : Block.LossKeeps (·.timIrq k) n where
  setTb _ _ h := h
  retune b r h := by
    unfold Block.retune
    exact Block.ite_holds (P := (·.timIrq k)) ((Block.KeepsReg.refl.setVis (regKey_ne_of_off (by decide) (by decide) (by decide))).timIrq h) h
  count _ h := (Block.KeepsReg.refl.count (regKey_ne_of_off (by decide) (by decide) (by decide)) (fun p hp => by
    cases hp
    exact regKey_ne_of_off (by decide) (by decide) (by decide))).timIrq h
  irq _ n h := Block.timIrq_irq h n
  event _ _ _ h := (Block.KeepsReg.refl.event (by decide)).timIrq h

/-! ### Sources (R243, R244) -/

section sources
variable {b : Block} {n src : Nat}

theorem Block.sourceQualified_qualifies (hok : b.sourceOk n src = true) (hen : b.tbEnabled n = true)
    (hlist : ((List.range 4).map (b.srcCode n)).contains src = true) (hsrc : src ≠ 0) :
    ((b.sourceQualified n src).tb n).qual.contains src = true := by
  unfold Block.sourceQualified
  dsimp only
  rw [if_pos ⟨hok, hen, hlist, hsrc⟩, Block.tb_setTb]
  exact setIns_contains _ _

/-- What is left of a time base that its last source has left. -/
structure TimeBase.Sourceless (x : TimeBase) (src : Nat) : Prop where
  lost : x.qual.contains src = false
  none : x.src = 0
  state : x.st = .holdover ∨ x.st = .unlocked

theorem setDel_contains (l : List Nat) (k : Nat) : (setDel l k).contains k = false := by
  simp [setDel]

/-- The active source lost while no other is qualified (R244, Table 9.4). -/
theorem Block.sourceLost_last (hsrc : src ≠ 0) (hact : (b.tb n).src = src)
    (hnone : ((List.range 4).map (b.srcCode n)).any (fun c => c != 0 && (setDel (b.tb n).qual src).contains c) = false) :
    ((b.sourceLost n src).tb n).Sourceless src := by
  unfold Block.sourceLost
  extract_lets was x y qualified lost tuned source z left settled
  have hleft : left.tb n = z := Block.tb_setTb ..
  have hqual : z.qual.contains src = false := by
    obtain ⟨va, na, h⟩ := qualified.retune_tb n (rateOf y.fi 0)
    have hz : z.qual = y.qual := by
      show (tuned.tb n).qual = y.qual
      rw [h, Block.tb_setTb]
    rw [hz]
    exact setDel_contains _ _
  have hsettled : (settled.tb n).Sourceless src := by
    unfold settled
    split
    · rw [Block.timEvent_tb, Block.irq_tb, Block.count_tb, Block.tb_setTb]
      exact ⟨hqual, rfl, .inl rfl⟩
    · split
      · rename_i h
        rw [hleft]
        exact ⟨hqual, rfl, .inr h⟩
      · rw [Block.timEvent_tb, Block.irq_tb, Block.tb_setTb]
        exact ⟨hqual, rfl, .inr rfl⟩
  have hother : ((List.range 4).map (qualified.srcCode n)).any (fun c => c != 0 && y.qual.contains c) = false := hnone
  rw [if_neg (by simp [hsrc, x, y, hact]), if_neg (ne_true_of_eq_false hother)]
  exact (Block.timEvent_tb ..).symm ▸ hsettled

/-- And what follows for TB0 leaves that time base. -/
theorem Block.lostToTb0_tb (b : Block) (n : Nat) : (b.lostToTb0 n).tb n = { b.tb n with lockedSince := none } := by
  have hset : (b.setTb n { b.tb n with lockedSince := none }).tb n = { b.tb n with lockedSince := none } := Block.tb_setTb ..
  unfold Block.lostToTb0
  dsimp only
  split
  · exact (Block.lossKeeps_tb (m := n) (by omega) _).sourceLost hset _
  · split
    · exact (Block.lossKeeps_tb (m := n) (by omega) _).sourceLost hset _
    · exact hset

theorem Block.loseSource_last (hsrc : src ≠ 0) (hact : (b.tb n).src = src)
    (hnone : ((List.range 4).map (b.srcCode n)).any (fun c => c != 0 && (setDel (b.tb n).qual src).contains c) = false) :
    ((b.loseSource n src).tb n).Sourceless src := by
  have hlast := Block.sourceLost_last hsrc hact hnone
  unfold Block.loseSource
  dsimp only
  split
  · rw [Block.lostToTb0_tb]
    exact ⟨hlast.lost, hlast.none, hlast.state⟩
  · exact hlast

/-- A slave's conditions noted are no register's and no time base's affair. -/
theorem Block.ptpNote_eq (b : Block) (n : Nat) : ∃ l, b.ptpNote n = { b with tim := { b.tim with ptp := l } } := by
  unfold Block.ptpNote
  extract_lets x since
  split
  · exact ⟨b.tim.ptp, rfl⟩
  · exact ⟨_, rfl⟩

/-- The timeouts of a slave are counted, and leave the time bases and the other registers of TIM. -/
theorem Block.ptpTimeouts_keeps (b : Block) (n src : Nat) :
    Block.KeepsTimBut [0xB8, 0xBC, 0xC4] b (b.ptpTimeouts n src) ∧ (b.ptpTimeouts n src).tim.tb = b.tim.tb := by
  unfold Block.ptpTimeouts
  extract_lets x synced
  have hsynced : Block.KeepsTimBut [0xB8, 0xBC, 0xC4] b synced ∧ synced.tim.tb = b.tim.tb := by
    unfold synced
    split
    · exact ⟨.count .refl (by decide), congrArg Tim.tb (Block.count_tim ..)⟩
    · exact ⟨.refl, rfl⟩
  obtain ⟨hregs, htb⟩ := hsynced
  split
  · exact ⟨.refl, rfl⟩
  · split
    · obtain ⟨l, hl⟩ := ((synced.setPtp n { x with st := 1, sync := none }).count Reg.TIM_PTP_ANN_TIMEOUT n).ptpNote_eq n
      rw [hl]
      have hcounted : Block.KeepsTimBut [0xB8, 0xBC, 0xC4] b ((synced.setPtp n { x with st := 1, sync := none }).count Reg.TIM_PTP_ANN_TIMEOUT n) :=
        .count (hregs.of_regs (by rfl)) (by decide)
      refine ⟨hcounted.of_regs rfl, ?_⟩
      exact (congrArg Tim.tb (Block.count_tim ..)).trans htb
    · exact ⟨hregs, htb⟩

/-- A loss condition that holds ends the last source (Table 9.3). -/
theorem Block.sourceGone_last (hn : n < 7) (hsrc : src ≠ 0) (hdue : b.lossDue n src = true) (hact : (b.tb n).src = src)
    (hnone : ((List.range 4).map (b.srcCode n)).any (fun c => c != 0 && (setDel (b.tb n).qual src).contains c) = false) :
    ((b.sourceGone n src).tb n).Sourceless src := by
  obtain ⟨hregs, htim⟩ := b.ptpTimeouts_keeps n src
  have htb : (b.ptpTimeouts n src).tb n = b.tb n := congrArg (Tbl.get · n TimeBase.reset) htim
  have hcode : (b.ptpTimeouts n src).srcCode n = b.srcCode n := by
    funext i
    unfold Block.srcCode Block.cn
    rw [hregs.cfg (by decide) (by omega) (by decide)]
  unfold Block.sourceGone
  rw [if_pos hdue]
  exact Block.loseSource_last hsrc (by rw [htb, hact]) (by rw [hcode, htb, hnone])

theorem TimeBase.Sourceless.modeFollow (h : (b.tb n).Sourceless src) : (b.modeFollow.tb n).Sourceless src := by
  obtain ⟨v, hv⟩ := b.modeFollow_tb n
  rw [hv]
  exact ⟨h.lost, h.none, h.state⟩

end sources

/-! ### States (Table 9.4) -/

section states
variable {b : Block} {n : Nat}

/-- An interrupt of TIM stays raised as the mode follows TB0. -/
theorem Block.timIrq_modeFollow {k : Nat} (h : b.timIrq k) : b.modeFollow.timIrq k :=
  (b.modeFollow_keepsTim.reg _ (by decide)).timIrq h

theorem Block.lockHold_locks {a : Nat} (hsince : (b.tb n).okSince = some a) (hst : (b.tb n).st = .acquiring) (hok : b.errOk n = true)
    (hheld : a + b.cf Reg.TIM_TB_LOCK n 31 26 * nsPerS ≤ b.t7) :
    ((b.lockHold n).tb n).st = .locked ∧ ((b.lockHold n).tb n).lockedSince = some b.t7 ∧ (b.lockHold n).timIrq 1 := by
  unfold Block.lockHold
  extract_lets x locked tim seen
  have hseen : seen.tb n = { x with st := .locked, lockedSince := some b.t7 } := by
    unfold seen
    split
    · exact Block.tb_setTb b n _
    · exact Block.tb_setTb b n _
  rw [show x.okSince = some a from hsince]
  dsimp only
  rw [if_pos ⟨hst, hok, hheld⟩]
  refine ⟨?_, ?_, Block.irqStatus_timEvent _ (by decide) ..⟩
  · rw [Block.timEvent_tb, Block.irq_tb, hseen]
  · rw [Block.timEvent_tb, Block.irq_tb, hseen]

theorem Block.errorLimit_unlocks (hbad : b.errOk n = false) (hst : (b.tb n).st = .locked ∨ (b.tb n).st = .holdover) :
    ((b.errorLimit n).tb n).st = .unlocked ∧ (b.errorLimit n).timIrq 3 := by
  have hirq (x : Block) : ((x.irq Blk.tim 3).timEvent 0x0204 n n 0).timIrq 3 := Block.irqStatus_timEvent _ (by decide) ..
  unfold Block.errorLimit
  extract_lets x
  rw [if_neg (by simp [hbad])]
  rcases hst with h | h
  · rw [show x.st = .locked from h]
    refine ⟨?_, (Block.lossKeeps_timIrq 3 n).lostToTb0 (Block.lossKeeps_timIrq 3 0) (hirq _)⟩
    rw [Block.lostToTb0_tb, Block.timEvent_tb, Block.irq_tb, Block.tb_setTb]
  · rw [show x.st = .holdover from h]
    refine ⟨?_, hirq _⟩
    rw [Block.timEvent_tb, Block.irq_tb, Block.tb_setTb]

end states

/-! ### Peer delays (R248) -/

section peer
variable {b : Block} {p : Nat}

/-- A counter of a port's peer delay. -/
theorem keyBlk_pdKey {d : RegDesc} (hp : p < 29) (hd : d.blk = 1 ∧ d.spaces.headD 15 < 16 ∧ d.off + d.stride * 0 < 65536) :
    keyBlk (d.key p 0) = 1 := (keyBlk_regKey hd.2.1 (by omega) hd.2.2).trans hd.1

theorem pdExch_sat (p : Nat) : ∀ q, Reg.TIM_PD_EXCH.sat = some q → Reg.TIM_PD_EXCH.key p 0 ≠ regKey 1 2 p q.1 := by
  intro q hq
  cases hq
  exact regKey_ne_of_off (by decide) (by decide) (by decide)

theorem pdFail_sat (p : Nat) : ∀ q, Reg.TIM_PD_FAIL.sat = some q → Reg.TIM_PD_FAIL.key p 0 ≠ regKey 1 2 p q.1 := by
  intro q hq
  cases hq
  exact regKey_ne_of_off (by decide) (by decide) (by decide)

/-- A peer-delay frame does not say how many exchanges there were. -/
theorem Block.pdFrame_counted (hp : p < 29) (x : PeerDelay) (type seq : Nat) (body : List Byte) :
    ((b.setPd p x).count Reg.TIM_PD_EXCH p).pdFrame p type seq body = b.pdFrame p type seq body := by
  have hregs : Block.KeepsTimBut [0x50, 0x60] b ((b.setPd p x).count Reg.TIM_PD_EXCH p) :=
    .count (.of_regs .refl (by rfl)) (by decide)
  have hmac : ((b.setPd p x).count Reg.TIM_PD_EXCH p).portMac p = b.portMac p := by
    have hvis (d : RegDesc) (hd : 2 ≤ d.blk) : ((b.setPd p x).count Reg.TIM_PD_EXCH p).vis d p = b.vis d p :=
      (Block.KeepsReg.count (.of_vis .refl (by rfl))
        (ne_regKey_of_keyBlk_one (keyBlk_pdKey hp (by decide)) hd).symm
        (fun q hq => by
          cases hq
          exact (ne_regKey_of_keyBlk_one (keyBlk_regKey (by decide) (by omega) (by decide)) hd).symm)).reads _
    unfold Block.portMac
    rw [hvis _ (by decide), hvis _ (by decide)]
  have hn : fld (b.cfg Reg.TIM_PD_CFG p) 2 0 < 2 ^ 3 := fld_lt ..
  unfold Block.pdFrame Block.cf
  dsimp only
  rw [hmac, hregs.cfg (d := Reg.TIM_PD_CFG) (by decide) (by omega) (by decide),
    hregs.cfg (d := Reg.TIM_PTP_CFG) (by decide) (by omega) (by decide)]

/-- A port with no exchange open sends the next request. -/
theorem Block.pdelayReq_sends (hp : p < 29) (hen : b.cb Reg.TIM_PD_CFG p 31 = true) (hopen : (b.pdState p).reqAt = none)
    (hup : (b.port p).up = true) :
    ((b.pdelayReq p).pdState p).seq = ((b.pdState p).seq + 1) % 65536 ∧ ((b.pdelayReq p).pdState p).reqAt = some b.t7 ∧
      b.counts (b.pdelayReq p) Reg.TIM_PD_EXCH p ∧
      ((b.pdelayReq p).port p).txq = (b.port p).txq ++
        [⟨2, false, .pdelayReq, b.pdFrame p 2 (((b.pdState p).seq + 1) % 65536) (List.replicate 20 0)⟩] := by
  unfold Block.pdelayReq
  rw [if_neg (by simp [hen]), hopen]
  dsimp only [Option.isSome_none]
  rw [if_neg Bool.false_ne_true, Block.pdFrame_counted hp]
  generalize hx : ({ b.pdState p with seq := ((b.pdState p).seq + 1) % 65536, reqAt := some b.t7, t1 := none, t4 := 0 } : PeerDelay) = x
  have hport : ((b.setPd p x).count Reg.TIM_PD_EXCH p).port p = b.port p := Block.count_port ..
  have hpd (e : Egress) : (((b.setPd p x).count Reg.TIM_PD_EXCH p).enqueue p e).pdState p = x := by
    rw [Block.pdState, (Block.enqueue_touches ..).keeps .tim rfl, Block.count_tim]
    exact Block.pdState_setPd ..
  rw [hpd, Block.enqueue_up (by rw [hport]; exact hup), hport]
  refine ⟨by rw [← hx], by rw [← hx], ?_, rfl⟩
  unfold Block.enqueue
  rw [hport, if_pos hup]
  exact Block.vis_count_toNat _ _ _ _ _ (pdExch_sat p)

/-- A slave without a valid peer delay: back to UNCALIBRATED, PTP lost as the source of its time base. -/
def Block.peerLost (b : Block) (n : Nat) : Block :=
  let s := b.ptpState n
  ((if s.st = 3 then b.setPtp n { s with st := 2 } else b).ptpNote n).loseSource n 9

theorem Block.peerLost_eq (b : Block) (n : Nat) : ∃ l, b.peerLost n = Block.loseSource { b with tim := { b.tim with ptp := l } } n 9 := by
  unfold Block.peerLost
  extract_lets s
  split
  · obtain ⟨l, hl⟩ := (b.setPtp n { s with st := 2 }).ptpNote_eq n
    exact ⟨l, by rw [hl]; rfl⟩
  · obtain ⟨l, hl⟩ := b.ptpNote_eq n
    exact ⟨l, by rw [hl]⟩

theorem Block.peerLost_pd (b : Block) (n : Nat) : (b.peerLost n).tim.pd = b.tim.pd := by
  obtain ⟨l, hl⟩ := b.peerLost_eq n
  obtain ⟨m, hm⟩ := (Block.loseSource_basesOnly { b with tim := { b.tim with ptp := l } } n 9).same
  rw [hl, hm]

theorem Block.KeepsTimBut.peerLost {a : Block} (h : Block.KeepsTimBut Tim.lossOffsets a b) (n : Nat) :
    Block.KeepsTimBut Tim.lossOffsets a (b.peerLost n) := by
  obtain ⟨l, hl⟩ := b.peerLost_eq n
  rw [hl]
  exact (Block.lossKeeps_regs a n).loseSource (Block.lossKeeps_regs a 0) (h.of_regs (by rfl)) 9

/-- A failed exchange. -/
theorem Block.pdFail_fails (hp : p < 29) :
    ((b.pdFail p).pdState p).reqAt = none ∧ ((b.pdFail p).pdState p).failRun = (b.pdState p).failRun + 1 ∧
      b.counts (b.pdFail p) Reg.TIM_PD_FAIL p := by
  unfold Block.pdFail
  extract_lets x y failed told
  have hcounts : b.counts failed Reg.TIM_PD_FAIL p := Block.vis_count_toNat _ _ _ _ _ (pdFail_sat p)
  have hfailed : failed.pdState p = y := by
    unfold failed
    rw [Block.pdState, Block.count_tim]
    exact Block.pdState_setPd ..
  have htold : told.pdState p = { y with valid := false } := by
    unfold told
    rw [Block.pdState, Block.eventRep_tim]
    exact Block.pdState_setPd ..
  have hregs : Block.KeepsTimBut Tim.lossOffsets failed told := .eventRep (.of_regs .refl (by rfl))
  have hcountsPast {z : Block} (h : Block.KeepsTimBut Tim.lossOffsets failed z) : b.counts z Reg.TIM_PD_FAIL p :=
    Block.counts_keeps hcounts (h.reg _ (keyBlk_pdKey hp (by decide)) (by rw [RegDesc.key, regKey_mod]; decide))
  split
  · exact ⟨by rw [hfailed], by rw [hfailed], hcounts⟩
  · split
    · exact ⟨by rw [htold], by rw [htold], hcountsPast hregs⟩
    · have hz := hregs.fold (told.ptpOn p) (f := Block.peerLost) (fun _ n hx => hx.peerLost n)
      have hzd : ((told.ptpOn p).foldl Block.peerLost told).tim.pd = told.tim.pd :=
        List.foldlRecOn (motive := fun (z : Block) => z.tim.pd = told.tim.pd) _ _ rfl (fun z hz n _ => (z.peerLost_pd n).trans hz)
      have hpd : ((told.ptpOn p).foldl Block.peerLost told).pdState p = { y with valid := false } :=
        (congrArg (Tbl.get · p PeerDelay.reset) hzd).trans htold
      exact ⟨congrArg PeerDelay.reqAt hpd, congrArg PeerDelay.failRun hpd, hcountsPast hz⟩

/-- An exchange open for 100 ms has failed. -/
theorem Block.pdelayTimeout_fails {a : Nat} (hopen : (b.pdState p).reqAt = some a) (hover : a + 100000000 ≤ b.t7) :
    b.pdelayTimeout p = b.pdFail p := by
  unfold Block.pdelayTimeout
  rw [hopen]
  exact if_pos hover

end peer

/-- Settles O28: each command by the lemma of its operation, past the mode that follows TB0. -/
theorem timeSourcesComeAndGo : Obligations.TimeSourcesComeAndGo := by
  refine ⟨fun t n src s hn hen hok hlist hsrc => ?_, fun t n src s hn hsrc hdue hact hnone => ?_, fun t n a s hn hsince hst hok hheld => ?_,
    fun t n s hn hbad hst => ?_, fun t p s hp hen hopen hup => ?_, fun t p a s hp hopen hover => ?_⟩
  · exact Completes.runIf (t := t) (f := fun b => b.timed (fun b => b.sourceQualified n src)) rfl (decide_eq_true hn)
      (Block.sourceQualified_qualifies (b := (s.at t).noteUnlocked) hok hen hlist hsrc)
  · have h := (Block.sourceGone_last (b := (s.at t).noteUnlocked) hn hsrc hdue hact hnone).modeFollow
    exact Completes.runIf (t := t) (f := fun b => b.timed (fun b => b.sourceLoss n src)) rfl (decide_eq_true hn) ⟨h.lost, h.none, h.state⟩
  · refine Completes.runIf (t := t) (f := fun b => b.timed (fun b => (b.lockHold n).modeFollow)) rfl (decide_eq_true hn) ?_
    obtain ⟨hlocked, hat, hirq⟩ := Block.lockHold_locks (b := (s.at t).noteUnlocked) hsince hst hok hheld
    obtain ⟨v, hv⟩ := ((s.at t).noteUnlocked.lockHold n).modeFollow_tb n
    exact ⟨(congrArg TimeBase.st hv).trans hlocked, (congrArg TimeBase.lockedSince hv).trans hat, Block.timIrq_modeFollow hirq⟩
  · refine Completes.runIf (t := t) (f := fun b => b.timed (fun b => (b.errorLimit n).modeFollow)) rfl (decide_eq_true hn) ?_
    obtain ⟨hunlocked, hirq⟩ := Block.errorLimit_unlocks (b := (s.at t).noteUnlocked) hbad hst
    obtain ⟨v, hv⟩ := ((s.at t).noteUnlocked.errorLimit n).modeFollow_tb n
    exact ⟨(congrArg TimeBase.st hv).trans hunlocked, Block.timIrq_modeFollow hirq⟩
  · exact Completes.runIf (t := t) (f := fun b => b.pdelayReq p) rfl (decide_eq_true hp)
      (Block.pdelayReq_sends (b := s.at t) hp hen hopen hup)
  · refine Completes.runIf (t := t) (f := fun b => b.timed (fun b => (b.pdelayTimeout p).modeFollow)) rfl (decide_eq_true hp) ?_
    obtain ⟨hreq, hrun, hcounts⟩ := Block.pdFail_fails (b := (s.at t).noteUnlocked) hp
    have hpd := ((s.at t).noteUnlocked.pdFail p).modeFollow_basesOnly.pdState p
    have hkeeps := ((s.at t).noteUnlocked.pdFail p).modeFollow_keepsTim.reg _ (keyBlk_pdKey (d := Reg.TIM_PD_FAIL) hp (by decide))
    dsimp only [Block.timed]
    rw [Block.pdelayTimeout_fails (b := (s.at t).noteUnlocked) hopen hover]
    exact ⟨(congrArg PeerDelay.reqAt hpd).trans hreq, (congrArg PeerDelay.failRun hpd).trans hrun,
      Block.counts_keeps hcounts (hkeeps.trans ((Block.noteUnlocked_touches _).keepsReg rfl))⟩

end Sys2Proof.Machine
end

section
/-! PROOFS. Measurements that enter the servo of a time base (O27). -/

namespace Sys2Proof.Machine

/-! ### The servo -/

/-- A measurement is the last one of a time base: its offset, the error of its source, its instant. -/
structure TimeBase.Took (y : TimeBase) (x : Int) (eSrc at7 : Nat) : Prop where
  offset : y.x = x
  error : y.eSrc = eSrc
  instant : y.lastMeas = some at7

section servo
variable {b : Block} {n eSrc : Nat} {x : Int} {ext : Option Nat}

/-- The error limit changes no more of a time base than its state. -/
theorem Block.errorLimit_tb (b : Block) (n : Nat) : ∃ st since ok, (b.errorLimit n).tb n = { b.tb n with st := st, lockedSince := since, okSince := ok } := by
  unfold Block.errorLimit
  extract_lets y
  split
  · exact ⟨_, _, _, rfl⟩
  · split
    · exact ⟨_, _, _, by rw [Block.lostToTb0_tb, Block.timEvent_tb, Block.irq_tb, Block.tb_setTb]⟩
    · exact ⟨_, _, _, by rw [Block.timEvent_tb, Block.irq_tb, Block.tb_setTb]⟩
    · exact ⟨_, _, _, rfl⟩

/-- What is accepted is the last measurement (R251). -/
theorem Block.accept_took (b : Block) (n : Nat) (x : Int) (eSrc : Nat) (ext : Option Nat) :
    ((b.accept n x eSrc ext).tb n).Took x eSrc b.t7 := by
  unfold Block.accept
  extract_lets y kp ki T lim slew fi p q tuned win source taken stored known z acquiring held
  have htaken : taken.Took x eSrc b.t7 := ⟨rfl, rfl, congrArg some ((b.retune_touches n (rateOf fi q)).keeps .t7 rfl)⟩
  obtain ⟨hx, he, hat⟩ := htaken
  have hz : z.Took x eSrc b.t7 := by
    unfold z known
    split
    · split
      · rw [Block.tb_setTb]
        exact ⟨hx, he, hat⟩
      · rw [Block.tb_setTb]
        exact ⟨hx, he, hat⟩
    · rw [Block.tb_setTb]
      exact ⟨hx, he, hat⟩
  obtain ⟨hzx, hze, hzat⟩ := hz
  have hacquiring : acquiring.Took x eSrc b.t7 := by
    unfold acquiring
    split
    · exact ⟨hzx, hze, hzat⟩
    · exact ⟨hzx, hze, hzat⟩
  obtain ⟨hax, hae, haat⟩ := hacquiring
  have hheld : held.Took x eSrc b.t7 := by
    unfold held
    split
    · exact ⟨hax, hae, haat⟩
    · exact ⟨hax, hae, haat⟩
  obtain ⟨st, since, ok, hlimit⟩ := (known.setTb n held).errorLimit_tb n
  rw [hlimit, Block.tb_setTb]
  exact ⟨hheld.offset, hheld.error, hheld.instant⟩

/-- What holds past the loss of a source holds past the error limit, which takes a time base out of LOCKED. -/
theorem Block.LossKeeps.errorLimit {P : Block → Prop} (k : Block.LossKeeps P n) (k0 : Block.LossKeeps P 0) (h : P b) : P (b.errorLimit n) := by
  unfold Block.errorLimit
  extract_lets y
  refine Block.ite_holds h ?_
  split
  · exact k.lostToTb0 k0 (k.event _ _ _ (k.irq _ _ (k.setTb _ _ h)))
  · exact k.event _ _ _ (k.irq _ _ (k.setTb _ _ h))
  · exact h

/-- And past a measurement accepted. -/
theorem Block.LossKeeps.accept {P : Block → Prop} (k : Block.LossKeeps P n) (k0 : Block.LossKeeps P 0) (h : P b) : P (b.accept n x eSrc ext) := by
  unfold Block.accept
  extract_lets y kp ki T lim slew fi p q tuned win source taken stored known z acquiring held
  have hstored : P stored := k.setTb _ _ (k.retune _ _ h)
  have hknown : P known := by
    unfold known
    split
    · exact Block.ite_holds hstored (k.setTb _ _ hstored)
    · exact hstored
  exact k.errorLimit k0 (k.setTb _ _ hknown)

/-- A measurement from the active source, within the step threshold, enters the servo of a time base that is not LOCKED. -/
theorem Block.measure_accepts {src : Nat} (hn : n ≤ 4) (hbest : src = b.bestSource n) (hen : b.tbEnabled n = true) (hact : (b.tb n).src = src)
    (hst : (b.tb n).st ≠ .locked)
    (h0 : n = 0 → b.sys.mode ≠ .acquire ∧ b.tb0Disciplined = true ∧ (b.tb 0).reacq = false ∧ x.natAbs ≤ b.cn Reg.TIM_TB0_STEP_THR)
    (h4 : n ≠ 0 → x.natAbs ≤ b.cf Reg.TIM_PTP_CFG n 15 8 * 1000) :
    b.measure n src x eSrc ext = (b.accept n x eSrc ext, false, none) := by
  have hmeasures : ¬(src ≠ b.bestSource n ∨ b.tbEnabled n = false ∨ n = 7 ∨ (n = 0 ∧ b.tb0Measures = false)) := by
    rintro (h | h | h | ⟨hz, h⟩)
    · exact h hbest
    · rw [hen] at h
      cases h
    · omega
    · rw [Block.tb0Measures, (h0 hz).2.1, Bool.or_true] at h
      cases h
  have hswitch : b.switchSource n src = b := if_pos hact
  have hacquire : ¬(n = 0 ∧ b.sys.mode = .acquire) := fun h => (h0 h.1).1 h.2
  have hstep0 : ¬(n = 0 ∧ b.tb0Disciplined = true ∧ b.cn Reg.TIM_TB0_STEP_THR < x.natAbs) :=
    fun h => absurd (h0 h.1).2.2.2 (by omega)
  have hstep : ¬(1 ≤ n ∧ n ≤ 4 ∧ x.natAbs > b.cf Reg.TIM_PTP_CFG n 15 8 * 1000) := fun h => absurd (h4 (by omega)) (by omega)
  have hcleared : ¬(n = 0 ∧ (b.tb n).reacq = true) := by
    rintro ⟨rfl, h⟩
    rw [(h0 rfl).2.2.1] at h
    cases h
  unfold Block.measure
  rw [if_neg hmeasures, hswitch]
  dsimp only
  rw [if_neg hacquire, if_neg hstep0, if_neg hstep, if_neg hcleared, if_neg (fun h => hst h.1)]

/-- What measures TB0 is the block as it is, also past the note of the instant of R118. -/
theorem Block.measured_tb0 {b' : Block} {src : Nat} {mm : Meas} (h : b.measured 0 src mm = some (b', x, eSrc, ext)) :
    b.noteUnlocked.measured 0 src mm = some (b.noteUnlocked, x, eSrc, ext) := by
  cases mm with
  | ptp =>
    unfold Block.measured at h
    dsimp only at h
    split at h
    · rw [if_neg (by omega)] at h
      cases h
    · cases h
  | edge stamp =>
    have h' : b.noteUnlocked.measured 0 src (.edge stamp) = (b.measured 0 src (.edge stamp)).map (fun r => (b.noteUnlocked, r.2)) := by
      unfold Block.measured
      dsimp only
      split
      · rfl
      · rfl
    rw [h', h]
    rfl
  | counter =>
    have h' : b.noteUnlocked.measured 0 src .counter = (b.measured 0 src .counter).map (fun r => (b.noteUnlocked, r.2)) := by
      unfold Block.measured
      dsimp only
      split
      · rfl
      · rfl
    rw [h', h]
    rfl

theorem Block.noteUnlocked_tb (b : Block) (n : Nat) : b.noteUnlocked.tb n = b.tb n := rfl

/-- What is the last measurement stays so as the mode follows, and the instant of R118 is noted. -/
theorem TimeBase.Took.modeFollow {at7 : Nat} (h : (b.tb n).Took x eSrc at7) : (b.modeFollow.noteUnlocked.tb n).Took x eSrc at7 := by
  obtain ⟨v, hv⟩ := b.modeFollow_tb n
  rw [Block.noteUnlocked_tb, hv]
  exact ⟨h.offset, h.error, h.instant⟩

/-- A measurement that the servo accepts, and the mode after it. -/
theorem Block.timeMeasured_accepts {b' : Block} {src : Nat} {mm : Meas} (hm : b.measured n src mm = some (b', x, eSrc, ext))
    (haccepts : b'.measure n src x eSrc ext = (b'.accept n x eSrc ext, false, none)) :
    b.timeMeasured n src mm = (b'.accept n x eSrc ext).modeFollow := by
  unfold Block.timeMeasured
  rw [hm]
  dsimp only
  rw [haccepts]
  dsimp only
  rw [if_neg Bool.false_ne_true]

end servo

/-! ### A Sync's measurement (R246, R247) -/

section sync
variable {b : Block} {n origin rcv : Nat} {corr : Int}

/-- The block with the measurement of a Sync taken. -/
def Block.synced (b : Block) (n origin : Nat) (corr : Int) (rcv : Nat) : Block :=
  ((b.setPtp n { b.ptpState n with meas := none }).ptpSync n origin corr rcv).1

theorem Block.noteUnlocked_ptpState (b : Block) (n : Nat) : b.noteUnlocked.ptpState n = b.ptpState n := rfl

theorem Block.synced_regs (b : Block) (n origin : Nat) (corr : Int) (rcv : Nat) :
    Block.KeepsTimBut [0xB4, 0xC4] b (b.synced n origin corr rcv) := .count (.of_regs .refl (by rfl)) (by decide)

theorem Block.synced_tb (b : Block) (n origin : Nat) (corr : Int) (rcv : Nat) :
    ∃ s r, (b.synced n origin corr rcv).tb n = { b.tb n with syncs := s, rratio := r } :=
  ⟨_, _, (Block.count_tb ..).trans (Block.tb_setTb ..)⟩

theorem Block.synced_ptpState (b : Block) (n origin : Nat) (corr : Int) (rcv : Nat) :
    (b.synced n origin corr rcv).ptpState n = { b.ptpState n with meas := none } :=
  (congrArg (fun (t : Tim) => Tbl.get t.ptp n PtpPort.reset) (Block.count_tim ..)).trans (Block.ptpState_setPtp b n _)

/-- Settings and the qualified sources are no Sync's affair. -/
theorem Block.synced_bestSource (hn : 1 ≤ n ∧ n ≤ 4) : (b.synced n origin corr rcv).bestSource n = b.bestSource n := by
  obtain ⟨s, r, htb⟩ := b.synced_tb n origin corr rcv
  have hcode : (b.synced n origin corr rcv).srcCode n = b.srcCode n := by
    funext i
    unfold Block.srcCode Block.cn
    rw [(b.synced_regs n origin corr rcv).cfg (by decide) (by omega) (by decide)]
  unfold Block.bestSource
  rw [hcode, htb]

theorem Block.synced_counts (b : Block) (n origin : Nat) (corr : Int) (rcv : Nat) :
    b.counts (b.synced n origin corr rcv) Reg.TIM_PTP_SYNC_RX n :=
  Block.vis_count_toNat _ _ _ _ _ (fun q hq => by
    cases hq
    exact regKey_ne_of_off (by decide) (by decide) (by decide))

/-- A Sync of the active source enters the servo of its time base. -/
theorem Block.timeMeasured_sync {x : Int} (hn : 1 ≤ n) (hn4 : n ≤ 4) (hmeas : (b.ptpState n).meas = some (origin, corr, rcv))
    (hen : b.tbEnabled n = true) (hbest : b.bestSource n = 9) (hact : (b.tb n).src = 9) (hst : (b.tb n).st ≠ .locked)
    (hx : x = ((origin : Int) * 65536 + corr + (b.pdState (b.cf Reg.TIM_PTP_CFG n 28 24)).mean * 256) / 65536 - rcv)
    (hthr : x.natAbs ≤ b.cf Reg.TIM_PTP_CFG n 15 8 * 1000) :
    ∃ e ext, b.timeMeasured n 9 .ptp = ((b.synced n origin corr rcv).accept n x e ext).modeFollow := by
  have hmeasured : b.measured n 9 .ptp = some (b.synced n origin corr rcv, x, (b.synced n origin corr rcv).ptpErr n, some b.t7) := by
    unfold Block.measured
    dsimp only
    rw [hmeas]
    dsimp only
    rw [if_pos ⟨hn, hn4, rfl⟩, hx]
    rfl
  have hregs := b.synced_regs n origin corr rcv
  obtain ⟨q, r, htb⟩ := b.synced_tb n origin corr rcv
  have henabled : (b.synced n origin corr rcv).tbEnabled n = true := by
    unfold Block.tbEnabled Block.cb at hen ⊢
    rwa [hregs.cfg (by decide) (by omega) (by decide)]
  have hthreshold : x.natAbs ≤ (b.synced n origin corr rcv).cf Reg.TIM_PTP_CFG n 15 8 * 1000 := by
    unfold Block.cf at hthr ⊢
    rwa [hregs.cfg (by decide) (by omega) (by decide)]
  refine ⟨_, _, Block.timeMeasured_accepts hmeasured (Block.measure_accepts hn4 ?_ henabled ?_ ?_ (fun h => ?_) (fun _ => hthreshold))⟩
  · rw [Block.synced_bestSource ⟨hn, hn4⟩, hbest]
  · rw [htb]
    exact hact
  · rw [htb]
    exact hst
  · omega

/-- The count of Syncs stays past the servo and the mode. -/
theorem Block.accept_keepsSyncs (b : Block) (hn : n ≤ 4) (x : Int) (e : Nat) (ext : Option Nat) :
    Block.KeepsReg (Reg.TIM_PTP_SYNC_RX.key n 0) b (b.accept n x e ext).modeFollow := by
  have hkey : keyBlk (Reg.TIM_PTP_SYNC_RX.key n 0) = 1 := keyBlk_regKey (by decide) (by omega) (by decide)
  have haccept := (Block.lossKeeps_regs b n).accept (Block.lossKeeps_regs b 0) (.refl) (x := x) (eSrc := e) (ext := ext)
  exact (haccept.reg _ hkey (by rw [RegDesc.key, regKey_mod]; decide)).trans ((Block.modeFollow_keepsTim _).reg _ hkey)

end sync

/-- Settles O27: the measurement of TB0 leaves the block as it is, that of a slave has taken its Sync; the servo accepts either. -/
theorem measurementsDisciplineTheTimeBases : Obligations.MeasurementsDisciplineTheTimeBases := by
  refine ⟨fun t src e mm b1 x ext s hmode hm hbest hact hst hreacq hen hdisc hthr => ?_,
    fun t n origin rcv corr x s hn hn4 hmeas hen hbest hact hst hx hthr => ?_⟩
  · refine Completes.runIf (t := t) (f := fun b => b.timed (fun b => b.timeMeasured 0 src mm)) rfl rfl ?_
    have haccepts := Block.measure_accepts (b := (s.at t).noteUnlocked) (eSrc := e) (ext := ext) (by omega) hbest hen hact hst
      (fun _ => ⟨hmode, hdisc, hreacq, hthr⟩) (fun h => absurd rfl h)
    have htook := ((s.at t).noteUnlocked.accept_took 0 x e ext).modeFollow
    dsimp only [Block.timed]
    rw [Block.timeMeasured_accepts (Block.measured_tb0 hm) haccepts]
    exact ⟨htook.offset, htook.instant, htook.error⟩
  · refine Completes.runIf (t := t) (f := fun b => b.timed (fun b => b.timeMeasured n 9 .ptp)) rfl (decide_eq_true (by omega)) ?_
    obtain ⟨e, ext, hmeasured⟩ := Block.timeMeasured_sync (b := (s.at t).noteUnlocked) hn hn4 hmeas hen hbest hact hst hx hthr
    generalize hz : (s.at t).noteUnlocked.synced n origin corr rcv = z at hmeasured
    have hptp : (z.accept n x e ext).modeFollow.ptpState n = z.ptpState n :=
      ((Block.modeFollow_basesOnly _).ptpState n).trans
        (((Block.BasesOnly.lossKeeps z n).accept (Block.BasesOnly.lossKeeps z 0) .refl).ptpState n)
    have hnone : (z.ptpState n).meas = none := by rw [← hz, Block.synced_ptpState]
    have hat7 : z.t7 = (s.at t).t7 := hz ▸ Block.count_t7 ..
    have htook := (z.accept_took n x e ext).modeFollow
    have hcounts := Block.synced_counts (s.at t).noteUnlocked n origin corr rcv
    rw [hz] at hcounts
    dsimp only [Block.timed]
    rw [hmeasured, Block.noteUnlocked_ptpState, hptp]
    exact ⟨hnone, htook.offset, htook.instant.trans (congrArg some hat7),
      Block.counts_keeps hcounts ((z.accept_keepsSyncs hn4 x e ext).trans ((Block.noteUnlocked_touches _).keepsReg rfl))⟩

end Sys2Proof.Machine
end

section
/-! PROOFS. Modulator channels: samples delivered, synchronising resets, faults, the hand-over of their sets (O31). -/

namespace Sys2Proof.Machine

/-! ### What leaves the channels and what they read -/

/-- What leaves SDM's part leaves every channel. -/
theorem Block.sdmCh_congr {a b : Block} (h : b.sdm = a.sdm) (c : Nat) : b.sdmCh c = a.sdmCh c :=
  congrArg (fun x : Sdm => Tbl.get x.chans c SdmCh.reset) h

theorem Touches.sdmCh {l : List Part} {a b : Block} (h : Touches l a b) (hl : l.contains .sdm = false) (c : Nat) : b.sdmCh c = a.sdmCh c :=
  Block.sdmCh_congr (h.keeps .sdm hl) c

/-- TB0 reads the same where neither TIM nor TB7 changes. -/
theorem Touches.now {l : List Part} {a b : Block} (h : Touches l a b) (hl : (l.contains .t7 || l.contains .tim) = false) : b.now = a.now := by
  obtain ⟨ht7, htim⟩ := Bool.or_eq_false_iff.mp hl
  have htb : b.tb 0 = a.tb 0 := Block.tb_congr (h.keeps .tim htim) 0
  have hat : b.t7 = a.t7 := h.keeps .t7 ht7
  unfold Block.now Block.tb0Fine
  rw [htb, hat]

/-- A counter leaves the settings at other offsets than its own and its SAT flag's. -/
theorem Block.count_cfg (b : Block) (d e : RegDesc) (i k n j : Nat) (he : (e.off + e.stride * 0) % 65536 ≠ (d.off + d.stride * k) % 65536)
    (hs : ∀ p ∈ d.sat, (e.off + e.stride * 0) % 65536 ≠ p.1 % 65536) : (b.count d i k n).cfg e j 0 = b.cfg e j 0 := by
  have hvis : (b.count d i k n).vis e j = b.vis e j := by
    refine b.count_other d i k n _ (ne_of_apply_ne (· % 65536) ?_) (fun p hp => ne_of_apply_ne (· % 65536) ?_)
    · simpa only [RegDesc.key, regKey_mod] using he
    · simpa only [RegDesc.key, regKey_mod] using hs p hp
  have hact : (b.count d i k n).regs.act = b.regs.act := (Block.count_touches ..).keeps .act rfl
  unfold Block.cfg Block.act
  rw [hvis, hact]

/-- An interrupt of SDM that is raised shows in IRQ_STATUS past an event (R449). -/
theorem Block.irqStatus_sdmEvent (b : Block) {n : Nat} (hn : n < 32) (code src a0 a1 : Nat) :
    bit (((b.irq Blk.sdm n).event code src a0 a1).vis Reg.SDM_IRQ_STATUS).toNat n = true := by
  have he : ((b.irq Blk.sdm n).event code src a0 a1).vis Reg.SDM_IRQ_STATUS = (b.irq Blk.sdm n).vis Reg.SDM_IRQ_STATUS :=
    Block.event_other _ _ (by decide) (by decide) ..
  rw [he]
  exact b.irq_bit Blk.sdm hn

/-- A counter of a channel advances by one, and its interrupt and event leave it there (R8). -/
theorem Block.counts_sdm {a x : Block} {d : RegDesc} {c : Nat} (hx : x.regs.vis = a.regs.vis) (hc : c < 16)
    (hd : d.blk = 10 ∧ d.spaces.headD 15 = 0 ∧ d.off + d.stride * 0 < 0x400) (hs : ∀ p ∈ d.sat, p.1 ≠ d.off + d.stride * 0)
    (n code src a0 a1 : Nat) : a.counts (((x.count d c).irq Blk.sdm n).event code src a0 a1) d c := by
  obtain ⟨hblk, hspace, hoff⟩ := hd
  have hkey : keyBlk (d.key c 0) = 10 := by
    rw [RegDesc.key, hblk, hspace]
    exact keyBlk_regKey (by decide) (by omega) (by omega)
  refine Block.KeepsReg.counts (.of_vis .refl hx) (.event (.raiseBit .refl ?_) (by rw [hkey]; decide)) (fun p hp => ?_)
  · rw [RegDesc.key]
    exact regKey_ne_of_off (by omega) (by decide) (by omega)
  · rw [RegDesc.key]
    exact (regKey_injective ..).ne (Ne.symm (hs p hp))

/-! ### Samples (R267 to R274) -/

/-- The decimation of a sample leaves what is still to settle. -/
theorem Block.sdmChain_settle (b : Block) (c : Nat) (coarse : Bool) (x : DecimIn) :
    (b.sdmChain c coarse x).2.settle = (b.sdmCh c).settle ∧ (b.sdmChain c coarse x).2.settleC = (b.sdmCh c).settleC := by
  unfold Block.sdmChain
  split
  · exact ⟨rfl, rfl⟩
  · exact ⟨rfl, rfl⟩

/-- A sample that a channel emits is the newest of its path, and one fewer is still to settle. -/
theorem Block.sdmEmit_sdmCh (b : Block) (c : Nat) (coarse : Bool) (x : DecimIn) :
    (((b.sdmEmit c coarse x).1.sdmCh c).path coarse).head? = some (b.sdmEmit c coarse x).2 ∧
      (if coarse then ((b.sdmEmit c coarse x).1.sdmCh c).settleC = (b.sdmCh c).settleC - 1
        else ((b.sdmEmit c coarse x).1.sdmCh c).settle = (b.sdmCh c).settle - 1) := by
  obtain ⟨hfine, hcoarse⟩ := b.sdmChain_settle c coarse x
  unfold Block.sdmEmit
  generalize b.sdmChain c coarse x = r at hfine hcoarse
  rw [← hfine, ← hcoarse]
  dsimp only
  rw [Block.sdmCh_setSdmCh]
  generalize sdmOver r.1 = clipped
  cases coarse with
  | false => cases clipped <;> exact ⟨rfl, rfl⟩
  | true => cases clipped <;> exact ⟨rfl, rfl⟩

/-- Past the sample a running channel's output reaches no channel. -/
theorem Block.decimatorOutput_sdm {b : Block} {c : Nat} (h : b.sdmRuns c = true) (coarse : Bool) (x : DecimIn) :
    (b.decimatorOutput c coarse x).sdm = (b.sdmEmit c coarse x).1.sdm := by
  unfold Block.decimatorOutput
  rw [if_neg (by simp [h])]
  extract_lets prev q emitted s counted metered
  have hcounted : counted.sdm = emitted.sdm := by
    unfold counted
    split
    · simp
    · rfl
  have hmetered : metered.sdm = counted.sdm := by
    unfold metered
    split
    · rfl
    · exact (Block.nrgSample_touches ..).keeps .sdm rfl
  exact ((Block.capSample_touches ..).keeps .sdm rfl).trans (hmetered.trans hcounted)

/-! ### Resets (R270, R271) -/

/-- A channel with its decimator cleared at an instant, once in a cycle, under a phase response. -/
def SdmCh.restarted (x : SdmCh) (phase : Bool) (t7 : Nat) : SdmCh :=
  if x.resetAt = some t7 then x
  else { x with settle := if phase then 16 else 40, settleC := 3, resetAt := some t7, bits := [], rawFine := [], rawCoarse := [] }

/-- One that no reset has cleared in the cycle has all its samples to settle. -/
theorem SdmCh.restarted_settles {x : SdmCh} {t7 : Nat} (h : x.resetAt ≠ some t7) (phase : Bool) :
    (x.restarted phase t7).settle = (if phase then 16 else 40) ∧ (x.restarted phase t7).settleC = 3 := by
  unfold SdmCh.restarted
  rw [if_neg h]
  exact ⟨rfl, rfl⟩

theorem SdmCh.restarted_fault (x : SdmCh) (phase : Bool) (t7 : Nat) : (x.restarted phase t7).fault = x.fault := by
  unfold SdmCh.restarted
  split
  · rfl
  · rfl

/-- A restart is that of its channel. -/
theorem Block.sdmRestart_sdmCh (b : Block) (c : Nat) : (b.sdmRestart c).sdmCh c = (b.sdmCh c).restarted (b.cb Reg.SDM_CFG 0 2) b.t7 := by
  unfold Block.sdmRestart SdmCh.restarted
  split
  · rfl
  · rw [(Block.count_touches ..).sdmCh rfl]
    exact Block.sdmCh_setSdmCh ..

theorem Block.sdmRestart_sdmCh_other (b : Block) {c i : Nat} (h : i ≠ c) : (b.sdmRestart c).sdmCh i = b.sdmCh i := by
  unfold Block.sdmRestart
  split
  · rfl
  · rw [(Block.count_touches ..).sdmCh rfl]
    exact Block.sdmCh_setSdmCh_other _ _ h

/-- Of the whole part it changes the channels alone. -/
theorem Block.sdmRestart_sdm (b : Block) (c : Nat) : ∃ l, (b.sdmRestart c).sdm = { b.sdm with chans := l } := by
  unfold Block.sdmRestart
  split
  · exact ⟨_, rfl⟩
  · exact ⟨_, Block.count_sdm ..⟩

/-- It leaves the settings but for the counter's offset and its SAT flag's. -/
theorem Block.sdmRestart_cfg (b : Block) (c : Nat) (e : RegDesc) (j : Nat) (he : (e.off + e.stride * 0) % 65536 ∉ [0x5C, 0x60]) :
    (b.sdmRestart c).cfg e j 0 = b.cfg e j 0 := by
  simp only [List.mem_cons, List.not_mem_nil, or_false, not_or] at he
  unfold Block.sdmRestart
  split
  · rfl
  · exact (Block.count_cfg _ Reg.SDM_CH_SYNCS e c 0 1 j he.1 (by rintro _ ⟨⟩; exact he.2))

/-- The resets of the running ones among the first `n` channels. -/
def Block.sdmRestarts (b : Block) (n : Nat) : Block := (List.range n).foldl (fun b c => if b.sdmRuns c then b.sdmRestart c else b) b

theorem Block.sdmRestarts_touches (b : Block) (n : Nat) : Touches [.vis, .sdm] b (b.sdmRestarts n) :=
  Touches.fold .refl (fun _ _ hx => Touches.ite (hx.trans (Block.sdmRestart_touches ..) rfl) hx)

theorem Block.sdmRestarts_succ (b : Block) (n : Nat) : b.sdmRestarts (n + 1) =
    if (b.sdmRestarts n).sdmRuns n then (b.sdmRestarts n).sdmRestart n else b.sdmRestarts n := by
  unfold Block.sdmRestarts
  rw [List.range_succ, List.foldl_append]
  rfl

/-- They leave the settings, as one does. -/
theorem Block.sdmRestarts_cfg (b : Block) (n : Nat) (e : RegDesc) (j : Nat) (he : (e.off + e.stride * 0) % 65536 ∉ [0x5C, 0x60]) :
    (b.sdmRestarts n).cfg e j 0 = b.cfg e j 0 := by
  induction n with
  | zero => rfl
  | succ n ih =>
    rw [Block.sdmRestarts_succ]
    split
    · exact (Block.sdmRestart_cfg _ _ e j he).trans ih
    · exact ih

/-- And so which channels run. -/
theorem Block.sdmRestarts_sdmRuns (b : Block) (n c : Nat) : (b.sdmRestarts n).sdmRuns c = b.sdmRuns c := by
  have hsys : (b.sdmRestarts n).sys = b.sys := (b.sdmRestarts_touches n).keeps .sys rfl
  unfold Block.sdmRuns Block.mclkRuns Block.cb
  rw [b.sdmRestarts_cfg n Reg.SDM_CFG 0 (by decide), b.sdmRestarts_cfg n Reg.SDM_CH_CFG c (by decide), hsys]

/-- The running channels among the first `n` are restarted. -/
theorem Block.sdmRestarts_sdmCh (b : Block) (n i : Nat) : (b.sdmRestarts n).sdmCh i =
    if i < n ∧ b.sdmRuns i = true then (b.sdmCh i).restarted (b.cb Reg.SDM_CFG 0 2) b.t7 else b.sdmCh i := by
  induction n with
  | zero => rw [if_neg (by omega)]; rfl
  | succ n ih =>
    have hphase : (b.sdmRestarts n).cb Reg.SDM_CFG 0 2 = b.cb Reg.SDM_CFG 0 2 :=
      congrArg (fun w : Word => bit w.toNat 2) (b.sdmRestarts_cfg n Reg.SDM_CFG 0 (by decide))
    have hat : (b.sdmRestarts n).t7 = b.t7 := (b.sdmRestarts_touches n).keeps .t7 rfl
    rw [Block.sdmRestarts_succ, Block.sdmRestarts_sdmRuns]
    by_cases hi : i = n
    · subst hi
      rw [if_neg (by omega)] at ih
      by_cases hrun : b.sdmRuns i = true
      · rw [if_pos hrun, if_pos ⟨by omega, hrun⟩, Block.sdmRestart_sdmCh, hphase, hat, ih]
      · rw [if_neg hrun, if_neg (fun h => hrun h.2), ih]
    · have hlt : i < n + 1 ↔ i < n := by omega
      simp only [hlt]
      rw [← ih]
      split
      · exact Block.sdmRestart_sdmCh_other _ hi
      · rfl

/-- The rest of the part stands. -/
theorem Block.sdmRestarts_sdm (b : Block) (n : Nat) : ∃ l, (b.sdmRestarts n).sdm = { b.sdm with chans := l } := by
  induction n with
  | zero => exact ⟨_, rfl⟩
  | succ n ih =>
    obtain ⟨l, hl⟩ := ih
    rw [Block.sdmRestarts_succ]
    split
    · obtain ⟨l', hl'⟩ := Block.sdmRestart_sdm (b.sdmRestarts n) n
      exact ⟨l', by rw [hl', hl]⟩
    · exact ⟨l, hl⟩

/-- A synchronising reset notes its instants once the running channels are restarted, and nothing that follows reaches the channels. -/
theorem Block.sdmSync_sdm {b : Block} (h : b.sdm.syncT ≠ some b.t7) (causes : Nat) :
    (b.sdmSync causes).sdm = { (b.sdmRestarts 16).sdm with lastSync := b.now, syncT := some b.t7 } := by
  have hnow : (b.sdmRestarts 16).now = b.now := (b.sdmRestarts_touches 16).now rfl
  have hat : (b.sdmRestarts 16).t7 = b.t7 := (b.sdmRestarts_touches 16).keeps .t7 rfl
  unfold Block.sdmSync
  rw [if_neg h]
  dsimp only
  rw [Block.event_sdm, Block.irq_sdm, (Block.capStep_touches _).keeps .sdm rfl, (Block.nrgSync_touches ..).keeps .sdm rfl, ← hnow, ← hat]
  rfl

/-- Without a step of TB0 among its causes no interval ends. -/
theorem Block.nrgSync_touches_noStep (b : Block) : Touches [.nrg] b (b.nrgSync false) := by
  refine Touches.fold .refl (fun x p hx => ?_)
  dsimp only
  split
  · exact hx
  · exact hx.trans (Block.setNrgPt_touches ..) rfl
  · exact hx

theorem Block.sdmSync_touches_noStep (b : Block) {causes : Nat} (h : bit causes 1 = false) :
    Touches [.vis, .evr, .sdm, .nrg, .cap] b (b.sdmSync causes) := by
  unfold Block.sdmSync
  refine Touches.ite .refl ?_
  extract_lets restarted part noted metered
  have hnoted : Touches [.vis, .evr, .sdm, .nrg, .cap] b noted := ((b.sdmRestarts_touches 16).weaken rfl).set_sdm _ rfl
  have hmetered : Touches [.vis, .evr, .sdm, .nrg, .cap] b metered := by
    unfold metered
    rw [h]
    exact hnoted.trans (Block.nrgSync_touches_noStep _) rfl
  exact ((hmetered.trans (Block.capStep_touches _) rfl).trans (Block.irq_touches ..) rfl).trans (Block.event_touches ..) rfl

/-- A synchronising reset is raised. -/
theorem Block.sdmSync_raised {b : Block} (h : b.sdm.syncT ≠ some b.t7) (causes : Nat) :
    bit ((b.sdmSync causes).vis Reg.SDM_IRQ_STATUS).toNat 0 = true := by
  unfold Block.sdmSync
  rw [if_neg h]
  exact Block.irqStatus_sdmEvent _ (by decide) ..

/-- The block with no reset asked for. -/
def Block.sdmSyncTaken (b : Block) : Block := { b with sdm := { b.sdm with syncAt := none } }

/-- At the whole second the reset asked for is taken and made. -/
theorem Block.sdmSyncDue_eq {b : Block} {a c : Nat} (h : b.sdm.syncAt = some (a, c)) (hdue : a ≤ b.now) :
    b.sdmSyncDue = b.sdmSyncTaken.sdmSync c := by
  unfold Block.sdmSyncDue
  rw [h]
  exact if_pos hdue

/-- It is that of all running channels (R270). -/
theorem Block.sdmSyncDue_resets {b : Block} {a c : Nat} (h : b.sdm.syncAt = some (a, c)) (hdue : a ≤ b.now) (hfresh : b.sdm.syncT ≠ some b.t7) :
    b.sdmSyncDue.sdm.syncAt = none ∧ b.sdmSyncDue.sdm.lastSync = b.now ∧
    (∀ i, i < 16 → b.sdmRuns i = true → b.sdmSyncDue.sdmCh i = (b.sdmCh i).restarted (b.cb Reg.SDM_CFG 0 2) b.t7) ∧
    bit (b.sdmSyncDue.vis Reg.SDM_IRQ_STATUS).toNat 0 = true := by
  have hfresh' : b.sdmSyncTaken.sdm.syncT ≠ some b.sdmSyncTaken.t7 := hfresh
  have hsdm := Block.sdmSync_sdm hfresh' c
  obtain ⟨l, hl⟩ := b.sdmSyncTaken.sdmRestarts_sdm 16
  rw [Block.sdmSyncDue_eq h hdue]
  refine ⟨by rw [hsdm, hl]; rfl, by rw [hsdm]; rfl, fun i hi hrun => ?_, Block.sdmSync_raised hfresh' c⟩
  have hch : (b.sdmSyncTaken.sdmSync c).sdmCh i = (b.sdmSyncTaken.sdmRestarts 16).sdmCh i :=
    (congrArg (fun x : Sdm => Tbl.get x.chans i SdmCh.reset) hsdm).trans rfl
  rw [hch, Block.sdmRestarts_sdmCh]
  exact if_pos ⟨hi, hrun⟩

/-! ### Faults (R266) -/

/-- A running channel's fault. -/
theorem Block.chFault_faults {b : Block} {c : Nat} (hc : c < 16) (hrun : b.sdmRuns c = true) (hfault : (b.sdmCh c).fault = false) :
    ((b.chFault c).sdmCh c).fault = true ∧ b.counts (b.chFault c) Reg.SDM_CH_FAULTS c ∧
      bit ((b.chFault c).vis Reg.SDM_IRQ_STATUS).toNat 1 = true := by
  unfold Block.chFault
  rw [if_neg (by simp [hrun, hfault])]
  refine ⟨?_, Block.counts_sdm (by rfl) hc (by decide) (by decide) .., Block.irqStatus_sdmEvent _ (by decide) ..⟩
  rw [(Block.event_touches ..).sdmCh rfl, (Block.irq_touches ..).sdmCh rfl, (Block.count_touches ..).sdmCh rfl, Block.sdmCh_setSdmCh]

/-- The recovery of one restarts it. -/
theorem Block.chRecover_restarts {b : Block} {c : Nat} (hc : c < 16) (hfault : (b.sdmCh c).fault = true)
    (hfresh : (b.sdmCh c).resetAt ≠ some b.t7) :
    (b.chRecover c).sdmCh c = ({ b.sdmCh c with fault := false } : SdmCh).restarted (b.cb Reg.SDM_CFG 0 2) b.t7 ∧
      b.counts (b.chRecover c) Reg.SDM_CH_SYNCS c ∧ bit ((b.chRecover c).vis Reg.SDM_IRQ_STATUS).toNat 2 = true := by
  unfold Block.chRecover
  rw [if_neg (by simp [hfault])]
  dsimp only
  refine ⟨?_, ?_, Block.irqStatus_sdmEvent _ (by decide) ..⟩
  · rw [(Block.event_touches ..).sdmCh rfl, (Block.irq_touches ..).sdmCh rfl, Block.sdmRestart_sdmCh, Block.sdmCh_setSdmCh]
    rfl
  · unfold Block.sdmRestart
    rw [Block.sdmCh_setSdmCh, if_neg (by exact hfresh)]
    exact Block.counts_sdm (by rfl) hc (by decide) (by decide) ..

/-! ### Committed sets (R295) -/

/-- The one set that waits, in its range and standing with its check, is what a hand-over takes. -/
theorem Block.handover_single {b : Block} {k : Nat} {w : Word} (hcom : b.regs.com = [(k, w)]) (hlate : b.lateSet k = none)
    {p : Nat → Bool} (hp : p k = true) (hrange : Reg.rangeOk k w = true) (group : Nat → Nat) {ok : Block → Tbl Word → Bool}
    (hok : ok (b.adopt [(k, w)]) [(k, w)] = true) (reject : Block → Nat → Block) :
    b.comSets p = [(k, w)] ∧ b.handover p group ok reject = ((b.dropCom p).adopt [(k, w)]).handedOver [(k, w)] := by
  have hsets : b.comSets p = [(k, w)] := by
    unfold Block.comSets
    simp [hcom, hp, hlate]
  refine ⟨hsets, ?_⟩
  unfold Block.handover
  rw [hsets]
  simp [Block.settle, hrange, hok]

/-- Where no register is written in that cycle, none waits then and it is in force. -/
theorem Block.handedOver_single {b : Block} {k : Nat} {w : Word} (hcom : b.regs.com = [(k, w)]) (hlate : b.lateSet k = none)
    {p : Nat → Bool} (hp : p k = true) (hwrote : b.regs.wrote.1 ≠ b.t7) :
    (((b.dropCom p).adopt [(k, w)]).handedOver [(k, w)]).regs.com = [] ∧
      Tbl.get (((b.dropCom p).adopt [(k, w)]).handedOver [(k, w)]).regs.act k (Reg.rstOf k) = w := by
  refine ⟨?_, Tbl.get_put_same ..⟩
  have hdrop : (b.dropCom p).regs.com = [] := by
    unfold Block.dropCom
    simp [hcom, hp, hlate]
  have hnow : (if ((b.dropCom p).adopt [(k, w)]).regs.wrote.1 = ((b.dropCom p).adopt [(k, w)]).t7
      then ((b.dropCom p).adopt [(k, w)]).regs.wrote.2 else []) = [] := if_neg hwrote
  have hnone (q : Nat → Bool) (l : List Nat) : l.filter (fun k => ([] : List Nat).contains k && q k) = [] :=
    List.filter_eq_nil_iff.mpr (fun _ _ => Bool.false_ne_true)
  unfold Block.handedOver
  dsimp only
  rw [hnow, hnone]
  exact hdrop

/-- SDM's waiting sets checked and copied: the hand-over itself. -/
def Block.sdmTaken (b : Block) : Block :=
  b.handover (fun k => keyBlk k == Blk.sdm) (fun k => keySpace k * 64 + keyInst k) Block.sdmSetsOk
    (fun b k => (b.irq Blk.sdm 4).event 0x0B05 (if keySpace k = 15 then 0xFFFF else keyInst k))

/-- What a change of settings brings after it, resets and emptied rings, leaves the sets. -/
theorem Block.sdmHandover_touches_taken {b : Block} (h : b.comSets (fun k => keyBlk k == Blk.sdm) ≠ []) :
    Touches [.vis, .evr, .sdm, .nrg, .cap] b.sdmTaken b.sdmHandover := by
  unfold Block.sdmHandover
  rw [if_neg h]
  extract_lets phase preset delays old taken part noted emptied
  have hnoted : Touches [.vis, .evr, .sdm, .nrg, .cap] b.sdmTaken noted := Touches.set_sdm _ (show Touches _ _ taken from .refl) rfl
  have hemptied : Touches [.vis, .evr, .sdm, .nrg, .cap] b.sdmTaken emptied :=
    .ite hnoted (.fold hnoted (fun _ _ hx => hx.trans (Block.capEmpty_touches ..) rfl))
  refine .ite (.fold ?_ (fun _ _ hx => hx.trans (Block.sdmCleared_touches ..) rfl))
    (.fold hemptied (fun _ _ hx => .ite hx (hx.trans (Block.sdmRestart_touches ..) rfl)))
  exact hemptied.trans (Block.sdmSync_touches_noStep _ (by decide)) rfl

/-- At the whole second, while the main ring does not run, the one set that waits comes into force. -/
theorem Block.sdmShadow_single {b : Block} {a k : Nat} {w : Word} (hat : b.sdm.handAt = some a) (hring : (b.ring 0).run = false)
    (hdue : a ≤ b.now / nsPerS) (hcom : b.regs.com = [(k, w)]) (hlate : b.lateSet k = none) (hwrote : b.regs.wrote.1 ≠ b.t7)
    (hblk : keyBlk k = 10) (hrange : Reg.rangeOk k w = true) (hok : (b.adopt [(k, w)]).sdmSetsOk [(k, w)] = true) :
    b.sdmShadow.regs.com = [] ∧ Tbl.get b.sdmShadow.regs.act k (Reg.rstOf k) = w := by
  have hp : (fun k => keyBlk k == Blk.sdm) k = true := beq_iff_eq.mpr hblk
  obtain ⟨hsets, htaken⟩ := Block.handover_single (p := fun k => keyBlk k == Blk.sdm) hcom hlate hp hrange (fun k => keySpace k * 64 + keyInst k) hok
    (fun b k => (b.irq Blk.sdm 4).event 0x0B05 (if keySpace k = 15 then 0xFFFF else keyInst k))
  obtain ⟨hnone, hforce⟩ := Block.handedOver_single (p := fun k => keyBlk k == Blk.sdm) hcom hlate hp hwrote
  have he : b.sdmShadow = b.sdmHandover := by
    unfold Block.sdmShadow
    rw [hat]
    exact if_pos ⟨hring, hdue⟩
  have hrest := Block.sdmHandover_touches_taken (b := b) (by rw [hsets]; simp)
  rw [show b.sdmTaken = _ from htaken] at hrest
  rw [he, hrest.com rfl, show b.sdmHandover.regs.act = _ from hrest.keeps .act rfl]
  exact ⟨hnone, hforce⟩

/-- SDM's COMMIT has its sets wait for the next whole second. -/
theorem Block.commitBy_sdm {b : Block} {m : Nat} (h : 4 ≤ m ∨ bit (b.vis Reg.SYS_CFG).toNat 0 = false) : b.commitBy m 10 = b.sdmCommit := by
  have hdone : ¬(m < 4 ∧ bit (b.vis Reg.SYS_CFG).toNat 0 = true) := by
    rintro ⟨hm, hbit⟩
    rcases h with h | h
    · omega
    · rw [h] at hbit
      exact Bool.noConfusion hbit
  exact if_neg hdone

/-- Settles O31: each command by the lemma of its operation. -/
theorem channelsDeliverAndRecover : Obligations.ChannelsDeliverAndRecover := by
  refine ⟨fun t c coarse x s hc hrun => ?_, fun t m s hm => ?_, fun t a c s hat hdue hfresh => ?_, fun t c s hc hrun hfault => ?_,
    fun t c s hc hfault hfresh => ?_, fun t m s hm hopen => ?_, fun t a k w s hat hring hdue hcom hlate hwrote hblk hrange hok => ?_⟩
  · refine Completes.runIf (f := fun b => b.decimatorOutput c coarse x) rfl (decide_eq_true hc) ?_
    have hsdm := Block.decimatorOutput_sdm (b := s.at t) hrun coarse x
    rw [Block.sdmCh_congr hsdm]
    exact (s.at t).sdmEmit_sdmCh c coarse x
  · refine Completes.byMaster rfl (decide_eq_true hm.1) hm ?_
    rw [Block.answer_sdm, Block.advance_sdm]
    unfold Block.sdmSyncAt
    rw [Block.clock_sdm]
    cases s.blk.sdm.syncAt with
    | none => rfl
    | some p => rfl
  · refine Completes.run (f := Block.sdmSyncDue) rfl ?_
    obtain ⟨hnone, hlast, hch, hirq⟩ := Block.sdmSyncDue_resets (b := s.at t) hat hdue hfresh
    refine ⟨hnone, hlast, fun i hi hrun hold => ?_, hirq⟩
    rw [hch i hi hrun]
    exact SdmCh.restarted_settles hold _
  · exact Completes.runIf (f := fun b => b.chFault c) rfl (decide_eq_true hc) (Block.chFault_faults (b := s.at t) hc hrun hfault)
  · refine Completes.runIf (f := fun b => b.chRecover c) rfl (decide_eq_true hc) ?_
    obtain ⟨hch, hcount, hirq⟩ := Block.chRecover_restarts (b := s.at t) hc hfault hfresh
    rw [hch]
    exact ⟨SdmCh.restarted_fault .., (SdmCh.restarted_settles (x := { (s.at t).sdmCh c with fault := false }) hfresh _).1, hcount, hirq⟩
  · refine Completes.byMaster rfl (decide_eq_true hm.1) hm ?_
    rw [Block.advance_global _ _ _ (by decide), Block.commitBy_sdm (b := s.at t) hopen]
    exact ⟨Block.commit_dirty .., fun k hk hblk => Block.commit_com_mine _ hk hblk, rfl⟩
  · exact Completes.run (f := Block.sdmShadow) rfl (Block.sdmShadow_single (b := s.at t) hat hring hdue hcom hlate hwrote hblk hrange hok)

end Sys2Proof.Machine
end

section
/-! PROOFS. A counter that wraps in the cycle of its read (O32). -/

namespace Sys2Proof.Machine

/-- With the bus open to every master: an interval of point 0 ends in this cycle and takes its counter 0 past 2³² − 1. -/
def counterWrapsInCycle : State :=
  let b := [(Reg.ACC_RGN_LIMIT, 0xFFFFFFFF), (Reg.ACC_RGN_PERM, 0x80003F3F)].foldl
    (fun (b : Block) (e : RegDesc × Nat) => b.setBoth e.1 0 0 (w32 e.2)) Block.reset
  { State.reset with blk := b.accUpdate 0 [2 ^ 32 * 10 ^ 6 * 2 ^ 24] }

/-- Hart 0 may read the counter, and its SEL names the point. -/
theorem counterWrapsInCycle_read :
    counterWrapsInCycle.blk.mayRead 0 11 (0x100 + 4 * 0) ∧ counterWrapsInCycle.blk.selInst 11 0 0 = some 0 := by
  decide +kernel

/-- WRAP is set after the read (R288). -/
theorem counterWrapsInCycle_wrap :
    bit (((counterWrapsInCycle.at 0).masterRead 0 (0xF00B0100 + 4 * 0) 4).nrgPt 0).wrap 0 = true := by
  decide +kernel

/-- Refutes O32: it has a read of a counter leave both flags clear in every state, but a wrap in the cycle of the read sets WRAP after it
(R288). In `counterWrapsInCycle` the counter has wrapped in that cycle. -/
theorem not_pointsMeasureAndSave : ¬ Obligations.PointsMeasureAndSave := by
  rintro ⟨-, -, -, -, -, hread, -⟩
  obtain ⟨hmay, hsel⟩ := counterWrapsInCycle_read
  obtain ⟨-, hwrap, -⟩ := Completes.of_runIf (f := fun b => b.masterRead 0 (0xF00B0100 + 4 * 0) 4) rfl rfl
    (hread 0 0 0 0 counterWrapsInCycle hmay (by decide) hsel)
  rw [counterWrapsInCycle_wrap] at hwrap
  exact Bool.noConfusion hwrap

end Sys2Proof.Machine
end

section
/-! PROOFS. What the operations of a capture unit are made of: properties that they keep, the other units, the settings, a raised interrupt. -/

namespace Sys2Proof.Machine

/-! ### The steps of an operation -/

/-- The offsets of a capture unit's counters and of their SAT flags (Table 11.6). -/
abbrev Cap.countOffsets : List Nat := [0xA8, 0xAC, 0xB0, 0xB4, 0xB8, 0xBC]

/-- What the operations of capture unit `u` do to the block one after the other keeps a property. -/
structure Block.UnitKeeps (P : Block → Prop) (u : Nat) : Prop where
  setCapU : ∀ b x, P b → P (b.setCapU u x)
  bus : ∀ (b : Block) l sigs, P b → P { b with cap := { b.cap with bus := l, lastSig := sigs } }
  count : ∀ b (d : RegDesc) n, ((d.off + d.stride * 0) % 65536 ∈ Cap.countOffsets ∧ ∀ p ∈ d.sat, p.1 % 65536 ∈ Cap.countOffsets) → P b →
    P (b.count d u 0 n)
  irq : ∀ b n, P b → P (b.irq Blk.cap n)
  event : ∀ b code src a0 a1, P b → P (b.event code src a0 a1)
  casTrigger : ∀ b line t member, P b → P (b.casTrigger line t member)

section keeps
variable {P : Block → Prop} {u : Nat} {b : Block} (k : Block.UnitKeeps P u) (h : P b)
include k h

theorem Block.UnitKeeps.capHoldCheck : P (b.capHoldCheck u) := Block.ite_holds (k.setCapU _ _ h) h

theorem Block.UnitKeeps.busSignal (line t origin : Nat) : P (b.busSignal line t origin).1 := by
  unfold Block.busSignal
  extract_lets merged
  split
  · exact h
  · exact k.bus _ _ _ h

theorem Block.UnitKeeps.capOpen (t : Nat) (trs : List CapTrig) : P (b.capOpen u t trs) := by
  unfold Block.capOpen
  extract_lets x want pre c counted noted line r
  have hnoted : P noted := k.event _ _ _ _ _ (k.count _ _ _ (by decide) (k.setCapU _ _ h))
  have hr : P r.1 := k.busSignal hnoted ..
  exact Block.ite_holds (Block.ite_holds (k.casTrigger _ _ _ _ hr) hr) hnoted

theorem Block.UnitKeeps.capTrigger (t : Nat) (trs : List CapTrig) : P (b.capTrigger u t trs) := by
  have hchecked := k.capHoldCheck h
  unfold Block.capTrigger
  extract_lets checked x w n waited rest y
  refine Block.ite_holds hchecked ?_
  split
  · exact k.capOpen hchecked ..
  · split
    · exact Block.ite_holds (k.setCapU _ _ hchecked) (k.count _ _ _ (by decide) (k.setCapU _ _ hchecked))
    · exact hchecked
  · have hwaited : P waited := k.capHoldCheck (k.setCapU _ _ (k.count _ _ _ (by decide) hchecked))
    exact Block.ite_holds hwaited (Block.ite_holds (k.capOpen hwaited ..) (k.setCapU _ _ (k.count _ _ _ (by decide) hwaited)))
  · exact k.count _ _ _ (by decide) hchecked
  · exact hchecked

theorem Block.UnitKeeps.capOverwrite : P (b.capOverwrite u) := by
  unfold Block.capOverwrite
  extract_lets x
  split
  · exact h
  · exact k.event _ _ _ _ _ (k.irq _ _ (k.count _ _ _ (by decide) (k.setCapU _ _ h)))

theorem Block.UnitKeeps.capFull : P (b.capFull u) := k.event _ _ _ _ _ (k.irq _ _ (k.count _ _ _ (by decide) (k.setCapU _ _ h)))

theorem Block.UnitKeeps.capEmpty : P (b.capEmpty u) := k.setCapU _ _ h

/-- Brought up to its settings and the mode, no capture in progress. -/
theorem Block.UnitKeeps.capRefresh (hst : (b.capU u).st ≠ 2) : P (b.capRefresh u) := by
  unfold Block.capRefresh
  extract_lets st emptied fresh armed freed y sealed x
  have harmed : P armed := k.setCapU _ _ (k.capEmpty h)
  have hsealed : P sealed := by
    unfold sealed
    rwa [if_neg hst]
  refine Block.ite_holds (Block.ite_holds ?_ (Block.ite_holds ?_ h)) (Block.ite_holds h (k.setCapU _ _ hsealed))
  · exact Block.ite_holds harmed (Block.ite_holds (k.capOverwrite harmed) (k.capFull harmed))
  · exact k.capHoldCheck (k.setCapU _ _ (k.capOverwrite h))

end keeps

/-! ### The hand-over of a unit's sets -/

/-- The registers of a unit's shadow set. -/
def Cap.unitSet (u k : Nat) : Bool := keyBlk k == Blk.cap && keySpace k == 0 && keyInst k == u

theorem Cap.unitSet_iff {u k : Nat} : Cap.unitSet u k = true ↔ keyBlk k = 12 ∧ keySpace k = 0 ∧ keyInst k = u := by
  simp [Cap.unitSet, Blk.cap, and_assoc]

/-- A unit's waiting sets checked and copied, before the unit is brought up to them. -/
def Block.unitTaken (b : Block) (u : Nat) : Block :=
  b.handover (Cap.unitSet u) (fun _ => 0) (fun b _ => b.capSetOk u)
    (fun b _ => (b.irq Blk.cap 4).event 0x0D06 u (b.capU u).num (ns32 (b.capU u).lastT))

/-- A unit's hand-over waits for the capture in progress, and does nothing where no set waits. -/
theorem Block.capHandover_idle {b : Block} {u : Nat} (h : (b.capU u).st = 2 ∨ b.comSets (Cap.unitSet u) = []) : b.capHandover u = b := by
  unfold Block.capHandover
  by_cases hst : (b.capU u).st = 2
  · exact if_pos hst
  · rw [if_neg hst]
    exact if_pos (h.resolve_left hst)

/-- Otherwise it takes the sets and brings the unit up to them, its ring emptied or not (R308). -/
theorem Block.capHandover_due {b : Block} {u : Nat} (hst : (b.capU u).st ≠ 2) (hsets : b.comSets (Cap.unitSet u) ≠ []) :
    b.capHandover u = (b.unitTaken u).capRefresh u ∨ b.capHandover u = ((b.unitTaken u).capEmpty u).capRefresh u := by
  unfold Block.capHandover
  rw [if_neg hst]
  extract_lets mine old taken emptied
  rw [if_neg (show ¬b.comSets mine = [] from hsets)]
  unfold emptied
  split
  · exact .inl rfl
  · exact .inr rfl

/-- The hand-over leaves the units. -/
theorem Block.unitTaken_touches (b : Block) (u : Nat) : Touches [.vis, .act, .com, .dirty, .evr] b (b.unitTaken u) :=
  Block.handover_step .refl rfl (fun _ _ hx => (hx.trans (Block.irq_touches ..) rfl).trans (Block.event_touches ..) rfl)

/-- What leaves CAP's part leaves every unit. -/
theorem Block.capU_congr {a b : Block} (h : b.cap = a.cap) (u : Nat) : b.capU u = a.capU u :=
  congrArg (fun x : Cap => Tbl.get x.units u CapUnit.reset) h

theorem Touches.capU {l : List Part} {a b : Block} (h : Touches l a b) (hl : l.contains .cap = false) (u : Nat) : b.capU u = a.capU u :=
  Block.capU_congr (h.keeps .cap hl) u

theorem Block.unitTaken_capU (b : Block) (u v : Nat) : (b.unitTaken u).capU v = b.capU v := (b.unitTaken_touches u).capU rfl v

theorem Block.UnitKeeps.capHandover {P : Block → Prop} {u : Nat} {b : Block} (k : Block.UnitKeeps P u)
    (htaken : ∀ b, P b → P (b.unitTaken u)) (h : P b) : P (b.capHandover u) := by
  by_cases hidle : (b.capU u).st = 2 ∨ b.comSets (Cap.unitSet u) = []
  · rwa [Block.capHandover_idle hidle]
  · obtain ⟨hst, hsets⟩ := not_or.mp hidle
    have hst' : ((b.unitTaken u).capU u).st ≠ 2 := by rwa [b.unitTaken_capU]
    have hst'' : (((b.unitTaken u).capEmpty u).capU u).st ≠ 2 := by
      unfold Block.capEmpty
      rwa [Block.capU_setCapU]
    rcases Block.capHandover_due hst hsets with e | e
    · rw [e]
      exact k.capRefresh (htaken b h) hst'
    · rw [e]
      exact k.capRefresh (k.capEmpty (htaken b h)) hst''

/-! ### The properties -/

/-- A property of CAP's part that outlasts the writes of the unit and of the bus. -/
theorem Block.UnitKeeps.of_cap {P : Block → Prop} {u : Nat} (hcap : ∀ a b, b.cap = a.cap → P a → P b)
    (hset : ∀ b x, P b → P (b.setCapU u x)) (hbus : ∀ (b : Block) l sigs, P b → P { b with cap := { b.cap with bus := l, lastSig := sigs } }) :
    Block.UnitKeeps P u where
  setCapU := hset
  bus := hbus
  count _ _ _ _ h := hcap _ _ (Block.count_cap ..) h
  irq _ _ h := hcap _ _ (Block.irq_cap ..) h
  event _ _ _ _ _ h := hcap _ _ (Block.event_cap ..) h
  casTrigger _ _ _ _ h := hcap _ _ ((Block.casTrigger_touches ..).keeps .cap rfl) h

/-- The other units. -/
theorem Block.unitKeeps_other {u v : Nat} (hv : v ≠ u) (x : CapUnit) : Block.UnitKeeps (fun b => b.capU v = x) u :=
  .of_cap (fun _ _ e h => (Block.capU_congr e v).trans h) (fun b _ h => (b.capU_setCapU_other _ hv).trans h) (fun _ _ _ h => h)

theorem Block.capHandover_capU_other (b : Block) {u v : Nat} (hv : v ≠ u) : (b.capHandover u).capU v = b.capU v :=
  (Block.unitKeeps_other hv (b.capU v)).capHandover (fun y hy => (y.unitTaken_capU u v).trans hy) rfl

/-- The levels at the pins. -/
theorem Block.unitKeeps_trg (u n : Nat) : Block.UnitKeeps (fun b => b.cap.trg = n) u :=
  .of_cap (fun _ _ e h => (congrArg Cap.trg e).trans h) (fun _ _ h => h) (fun _ _ _ h => h)

/-- Every active copy and every register of CAP but for the units' counters, their SAT flags and IRQ_STATUS read the same. -/
structure Block.KeepsCapSettings (a b : Block) : Prop where
  act : b.regs.act = a.regs.act
  reg : ∀ j, keyBlk j = 12 → j % 65536 ∉ 0x400 :: Cap.countOffsets → Block.KeepsReg j a b

theorem Block.KeepsReg.casTrigger {j : Nat} {a b : Block} (h : Block.KeepsReg j a b) (hj : keyBlk j ≠ 18) (line t member : Nat) :
    Block.KeepsReg j a (b.casTrigger line t member) := by
  have hcount : Block.KeepsReg j a (b.count Reg.CAS_TRIG_TX) :=
    h.trans ⟨fun d => b.count_otherBlk Reg.CAS_TRIG_TX 0 1 d hj (by decide) (by decide)⟩
  unfold Block.casTrigger
  exact .ite (hcount.trans ((Block.casSend_touches ..).keepsReg rfl)) h

/-- A counter of a unit leaves a register elsewhere. -/
theorem Block.KeepsReg.countUnit {j : Nat} {a b : Block} (h : Block.KeepsReg j a b) (hj : j % 65536 ∉ Cap.countOffsets) {d : RegDesc} {u n : Nat}
    (hd : (d.off + d.stride * 0) % 65536 ∈ Cap.countOffsets ∧ ∀ p ∈ d.sat, p.1 % 65536 ∈ Cap.countOffsets) :
    Block.KeepsReg j a (b.count d u 0 n) := by
  obtain ⟨hoff, hsat⟩ := hd
  refine h.count ?_ (fun p hp => ?_)
  · rintro rfl
    rw [RegDesc.key, regKey_mod] at hj
    exact hj hoff
  · rintro rfl
    rw [regKey_mod] at hj
    exact hj (hsat p hp)

/-- The settings outlast what the units do. -/
theorem Block.unitKeeps_settings (a : Block) (u : Nat) : Block.UnitKeeps (Block.KeepsCapSettings a) u where
  setCapU _ _ h := ⟨h.act, fun j hj ho => (h.reg j hj ho).of_vis⟩
  bus _ _ _ h := ⟨h.act, fun j hj ho => (h.reg j hj ho).of_vis⟩
  count _ _ _ hd h := ⟨((Block.count_touches ..).keeps .act rfl).trans h.act, fun j hj ho =>
    (h.reg j hj ho).countUnit (fun hm => ho (List.mem_cons_of_mem _ hm)) hd⟩
  irq _ _ h := ⟨h.act, fun j hj ho => (h.reg j hj ho).raiseBit (fun e => ho (by rw [e, regKey_mod]; exact List.mem_cons_self))⟩
  event _ _ _ _ _ h := ⟨((Block.event_touches ..).keeps .act rfl).trans h.act, fun j hj ho => (h.reg j hj ho).event (by omega)⟩
  casTrigger _ _ _ _ h := ⟨((Block.casTrigger_touches ..).keeps .act rfl).trans h.act, fun j hj ho => (h.reg j hj ho).casTrigger (by omega) ..⟩

/-- A setting of CAP. -/
theorem Block.KeepsCapSettings.cfg {a b : Block} (h : Block.KeepsCapSettings a b) {d : RegDesc} {i k : Nat}
    (hd : d.blk = 12 ∧ d.spaces.headD 15 < 16) (ho : d.off + d.stride * k < 65536) (hi : i < 1048576)
    (hset : (d.off + d.stride * k) % 65536 ∉ 0x400 :: Cap.countOffsets) : b.cfg d i k = a.cfg d i k := by
  obtain ⟨hblk, hspace⟩ := hd
  have hvis : b.vis d i k = a.vis d i k :=
    (h.reg (d.key i k) ((keyBlk_regKey hspace hi ho).trans hblk) (by rwa [RegDesc.key, regKey_mod])).reads _
  unfold Block.cfg Block.act
  rw [hvis, h.act]

/-- An interrupt of CAP shows in IRQ_STATUS (R449). -/
abbrev Block.capIrq (b : Block) (n : Nat) : Prop := bit (Tbl.get b.regs.vis (regKey Blk.cap 15 0 0x400) 0).toNat n = true

theorem Block.KeepsReg.capIrq {a b : Block} (h : Block.KeepsReg (regKey Blk.cap 15 0 0x400) a b) {n : Nat} (ha : a.capIrq n) : b.capIrq n := by
  unfold Block.capIrq
  rwa [h.reads]

/-- Other interrupts leave it there. -/
theorem Block.capIrq_irq {b : Block} {n : Nat} (h : b.capIrq n) (m : Nat) : (b.irq Blk.cap m).capIrq n := by
  have hs : Tbl.get (b.irq Blk.cap m).regs.vis (regKey Blk.cap 15 0 0x400) 0 =
      Tbl.get b.regs.vis (regKey Blk.cap 15 0 0x400) 0 ||| BitVec.twoPow 32 m := Tbl.get_put_same ..
  unfold Block.capIrq at h ⊢
  rw [bit_eq_testBit, BitVec.testBit_toNat] at h
  rw [hs, bit_eq_testBit, BitVec.testBit_toNat, BitVec.getLsbD_or, h, Bool.true_or]

theorem Block.unitKeeps_irq (u n : Nat) : Block.UnitKeeps (·.capIrq n) u where
  setCapU _ _ h := h
  bus _ _ _ h := h
  count _ _ _ hd h := (Block.KeepsReg.refl.countUnit (by decide) hd).capIrq h
  irq _ _ h := Block.capIrq_irq h _
  event _ _ _ _ _ h := (Block.KeepsReg.refl.event (by decide)).capIrq h
  casTrigger _ _ _ _ h := (Block.KeepsReg.refl.casTrigger (by decide) ..).capIrq h

end Sys2Proof.Machine
end

section
/-! PROOFS. Captures opened, sealed and released, hold-offs that end, signals of the trigger bus (O33). -/

namespace Sys2Proof.Machine

/-! ### A capture opened (R300) -/

@[simp] theorem Block.advance_answer_capU (b : Block) (m blk off : Nat) (r : Response) (u : Nat) :
    ((b.advance m blk off).answer m r).capU u = b.capU u := Block.capU_congr (b.advance_cap m blk off) u

/-- The capture that triggers at an instant open on a unit. -/
def Block.captureAt (b : Block) (u t : Nat) (trs : List CapTrig) : Capture :=
  let pre := match (b.capU u).span with | some a => min (b.capPre u) (t - a) | none => 0
  ⟨(b.capU u).num, t, t - pre, pre, decide (pre < b.capPre u), trs.length, trs.take 16, b.t7⟩

/-- A unit in which the capture is opened. -/
def CapUnit.opened (x : CapUnit) (k : Capture) : CapUnit := { x with st := 2, cur := some k, num := (x.num + 1) % 65536 }

theorem Block.busSignal_capU (b : Block) (line t origin u : Nat) : (b.busSignal line t origin).1.capU u = b.capU u := by
  unfold Block.busSignal
  extract_lets merged
  split
  · rfl
  · rfl

theorem Block.capOpen_capU (b : Block) (u t : Nat) (trs : List CapTrig) :
    (b.capOpen u t trs).capU u = (b.capU u).opened (b.captureAt u t trs) := by
  unfold Block.capOpen
  extract_lets x want pre k counted noted line r
  have hnoted : noted.capU u = x.opened k :=
    ((Block.event_touches ..).capU rfl u).trans (((Block.count_touches ..).capU rfl u).trans (Block.capU_setCapU ..))
  have hr : r.1.capU u = x.opened k := (noted.busSignal_capU ..).trans hnoted
  show Block.capU _ u = x.opened k
  split
  · split
    · exact ((Block.casTrigger_touches ..).capU rfl u).trans hr
    · exact hr
  · exact hnoted

/-- A signal on the bus leaves the registers. -/
theorem Block.KeepsReg.busSignal {j : Nat} {a b : Block} (h : Block.KeepsReg j a b) (line t origin : Nat) :
    Block.KeepsReg j a (b.busSignal line t origin).1 := h.trans ((Block.busSignal_touches ..).keepsReg rfl)

/-- A capture opened is counted. -/
theorem Block.capOpen_counts (b : Block) {u : Nat} (hu : u < 8) (t : Nat) (trs : List CapTrig) :
    b.counts (b.capOpen u t trs) Reg.CAP_CAPTURES u := by
  have hkey : keyBlk (Reg.CAP_CAPTURES.key u 0) = 12 := keyBlk_regKey (by decide) (by omega) (by decide)
  unfold Block.capOpen
  extract_lets x want pre k counted noted line r
  have hnoted : Block.KeepsReg (Reg.CAP_CAPTURES.key u 0) counted noted := .event .refl (by rw [hkey]; decide)
  have hr := hnoted.busSignal line t (noted.casMember + 16 * (u + 1))
  refine Block.KeepsReg.counts (x := b.setCapU u (x.opened k)) (.of_vis .refl)
    (.ite (.ite (hr.casTrigger (by rw [hkey]; decide) ..) hr) hnoted) ?_
  rintro p ⟨⟩
  exact regKey_ne_of_off (by decide) (by decide) (by decide)

/-- A unit whose hold-off is not on waits for nothing. -/
theorem Block.capHoldCheck_idle {b : Block} {u : Nat} (h : (b.capU u).st ≠ 3) : b.capHoldCheck u = b := if_neg (fun hc => h hc.1)

/-- Triggers on an armed unit open a capture. -/
theorem Block.capTrigger_armed {b : Block} {u : Nat} (h : (b.capU u).st = 1) (t : Nat) {trs : List CapTrig} (ht : trs ≠ []) :
    b.capTrigger u t trs = b.capOpen u t (Cap.ranked trs) := by
  unfold Block.capTrigger
  rw [Block.capHoldCheck_idle (by rw [h]; decide), if_neg ht]
  simp only [h]

/-- A FORCE on an armed unit opens a capture at this instant, and it is counted (R299). -/
theorem Block.capForce_opens {b : Block} {u : Nat} (hu : u < 8) (h : (b.capU u).st = 1) :
    (b.capForce u).capU u = (b.capU u).opened (b.captureAt u b.now [⟨0, 5, 0xFF, 0xFF, 0xFF⟩]) ∧ b.counts (b.capForce u) Reg.CAP_CAPTURES u := by
  have hopen : b.capForce u = b.capOpen u b.now [⟨0, 5, 0xFF, 0xFF, 0xFF⟩] := Block.capTrigger_armed h _ (List.cons_ne_nil _ _)
  rw [hopen]
  exact ⟨Block.capOpen_capU .., Block.capOpen_counts b hu ..⟩

/-! ### Pins (R299) -/

/-- What triggers leave the pins at. -/
theorem Block.capFire_trg (b : Block) (type t : Nat) (p : Nat → Bool) : (b.capFire type t p).cap.trg = b.cap.trg :=
  List.foldlRecOn (motive := fun x : Block => x.cap.trg = b.cap.trg) (List.range 8) _ rfl
    (fun _ hx u _ => (Block.unitKeeps_trg u b.cap.trg).capTrigger hx t _)

theorem Block.trgEdge_trg (b : Block) (n : Nat) (level : Bool) : (b.trgEdge n level).cap.trg =
    if bit b.cap.trg n = level then b.cap.trg else if level then b.cap.trg + 2 ^ n else b.cap.trg - 2 ^ n := by
  unfold Block.trgEdge
  dsimp only
  rw [apply_ite (fun x : Block => x.cap.trg), Block.capFire_trg, ite_self]

/-! ### Hold-off and release (R303, R304) -/

theorem Block.capHoldCheck_capU (b : Block) (u : Nat) : (b.capHoldCheck u).capU u =
    if (b.capU u).st = 3 ∧ b.capHoldOver u = true ∧ b.capSpace u = true then { b.capU u with st := 1, held := 0 } else b.capU u := by
  unfold Block.capHoldCheck
  dsimp only
  rw [apply_ite (Block.capU · u), Block.capU_setCapU]

/-- A release frees the oldest capture, and a FULL unit goes on: in its hold-off, or armed where that is over. -/
theorem Block.capRelease_capU {b : Block} {u : Nat} {k : Nat × Nat × List Nat} {r : List (Nat × Nat × List Nat)} (h : (b.capU u).kept = k :: r) :
    ((b.capRelease u).capU u).kept = r ∧
      ((b.capU u).st = 4 → ((b.capRelease u).capU u).st = 3 ∨ ((b.capRelease u).capU u).st = 1) := by
  unfold Block.capRelease
  dsimp only
  rw [h]
  dsimp only
  split
  · rw [Block.capHoldCheck_capU, Block.capU_setCapU, Block.capU_setCapU]
    split
    · exact ⟨rfl, fun _ => .inr rfl⟩
    · exact ⟨rfl, fun _ => .inl rfl⟩
  · rename_i hst
    rw [Block.capU_setCapU]
    exact ⟨rfl, fun hfull => absurd hfull hst⟩

/-- A hold-off that is over arms its unit, no set of it waiting. -/
theorem Block.capHoldoffEnd_arms {b : Block} {u : Nat} (hst : (b.capU u).st = 3) (hover : b.capHoldOver u = true)
    (hspace : b.capSpace u = true) (hcom : b.comInst 12 0 u = false) :
    ((b.capHoldoffEnd u).capU u).st = 1 ∧ ((b.capHoldoffEnd u).capU u).held = 0 := by
  have harmed : b.capHoldCheck u = b.setCapU u { b.capU u with st := 1, held := 0 } := if_pos ⟨hst, hover, hspace⟩
  have hnone : b.regs.com.filter (fun e => Cap.unitSet u e.1) = [] := by
    simpa [Block.comInst, Cap.unitSet, Blk.cap] using hcom
  have hsets : (b.capHoldCheck u).comSets (Cap.unitSet u) = [] := by
    rw [harmed]
    unfold Block.comSets
    rw [Block.setCapU_regs, hnone]
    rfl
  unfold Block.capHoldoffEnd
  rw [Block.capHandover_idle (.inr hsets), harmed, Block.capU_setCapU]
  exact ⟨rfl, rfl⟩

/-! ### A capture sealed (R302) -/

/-- The unit once the capture in progress is sealed: it is closed, its trigger time is the last, and where there was room for it, it joins
those kept and the unit is not FULL. -/
structure CapUnit.Sealed (x : CapUnit) (k : Capture) (y : CapUnit) : Prop where
  cur : y.cur = none
  lastT : y.lastT = k.t
  kept : x.kept.length < 63 → y.kept.length = x.kept.length + 1
  room : x.kept.length < 63 → y.st ≠ 4

theorem Block.capOverwrite_capU (b : Block) (u : Nat) : ∃ l, (b.capOverwrite u).capU u = { b.capU u with kept := l } := by
  unfold Block.capOverwrite
  dsimp only
  split
  · exact ⟨_, rfl⟩
  · exact ⟨_, ((Block.event_touches ..).capU rfl u).trans (((Block.irq_touches ..).capU rfl u).trans
      (((Block.count_touches ..).capU rfl u).trans (Block.capU_setCapU ..)))⟩

theorem Block.capFull_capU (b : Block) (u : Nat) : (b.capFull u).capU u = { b.capU u with st := 4, acc := [] } :=
  ((Block.event_touches ..).capU rfl u).trans (((Block.irq_touches ..).capU rfl u).trans
    (((Block.count_touches ..).capU rfl u).trans (Block.capU_setCapU ..)))

theorem Block.capHoldCheck_sealed {b : Block} {u : Nat} {x : CapUnit} {k : Capture} (h : x.Sealed k (b.capU u)) :
    x.Sealed k ((b.capHoldCheck u).capU u) := by
  rw [Block.capHoldCheck_capU]
  split
  · exact ⟨h.cur, h.lastT, h.kept, fun _ => show (1 : Nat) ≠ 4 by decide⟩
  · exact h

/-- A unit that stands so goes on so under its settings and the mode. -/
theorem Block.capRefresh_sealed {b : Block} {u : Nat} {x : CapUnit} {k : Capture} (h : x.Sealed k (b.capU u))
    (h0 : (b.capU u).st ≠ 0) (h2 : (b.capU u).st ≠ 2) : x.Sealed k ((b.capRefresh u).capU u) := by
  unfold Block.capRefresh
  extract_lets st emptied fresh armed freed y closed z
  rw [if_neg (show ¬st = 0 from h0)]
  split
  · split
    · rename_i hfull
      obtain ⟨l, hl⟩ : ∃ l, y = { b.capU u with kept := l } := b.capOverwrite_capU u
      refine Block.capHoldCheck_sealed ?_
      rw [Block.capU_setCapU, hl]
      exact ⟨h.cur, h.lastT, fun hroom => absurd hfull.1 (h.room hroom), fun _ => show (3 : Nat) ≠ 4 by decide⟩
    · exact h
  · have hz : z = b.capU u := congrArg (Block.capU · u) (if_neg h2)
    rw [Block.capU_setCapU, hz]
    exact ⟨h.cur, h.lastT, h.kept, fun _ => show (0 : Nat) ≠ 4 by decide⟩

theorem Block.capHandover_sealed {b : Block} {u : Nat} {x : CapUnit} {k : Capture} (h : x.Sealed k (b.capU u))
    (h0 : (b.capU u).st ≠ 0) : x.Sealed k ((b.capHandover u).capU u) := by
  by_cases hidle : (b.capU u).st = 2 ∨ b.comSets (Cap.unitSet u) = []
  · rwa [Block.capHandover_idle hidle]
  · obtain ⟨hst, hsets⟩ := not_or.mp hidle
    have htaken : (b.unitTaken u).capU u = b.capU u := b.unitTaken_capU u u
    have hemptied : ((b.unitTaken u).capEmpty u).capU u =
        { b.capU u with chunks := (b.capU u).chunks.filter (b.capU u).guards, span := none, acc := [] } := by
      unfold Block.capEmpty
      rw [Block.capU_setCapU, htaken]
    rcases Block.capHandover_due hst hsets with e | e
    · rw [e]
      exact Block.capRefresh_sealed (by rwa [htaken]) (by rwa [htaken]) (by rwa [htaken])
    · rw [e]
      exact Block.capRefresh_sealed (by rw [hemptied]; exact ⟨h.cur, h.lastT, h.kept, h.room⟩) (by rwa [hemptied]) (by rwa [hemptied])

/-- A block in which a unit has sealed a capture, goes on, and has raised SEALED. -/
structure Block.HasSealed (u : Nat) (x : CapUnit) (k : Capture) (b : Block) : Prop where
  unit : x.Sealed k (b.capU u)
  on : (b.capU u).st ≠ 0
  irq : b.capIrq 0

/-- The seal of the capture in progress (R302, R304). -/
theorem Block.capSeal_sealed {b : Block} {u : Nat} {k : Capture} (h : (b.capU u).cur = some k) (truncated : Bool) :
    (b.capSeal u truncated).HasSealed u (b.capU u) k := by
  unfold Block.capSeal
  extract_lets x period
  split
  · rename_i hnone
    exact absurd (h.symm.trans hnone) (Option.some_ne_none k)
  rename_i k' hsome
  obtain rfl : k = k' := Option.some.inj (h.symm.trans hsome)
  extract_lets hi after flags stored cycled mine kept pushed noted room
  have hunit : noted.capU u = { x with cur := none, st := 3, lastT := k.t, held := 0, span := some hi, kept := x.kept ++ [(k.num, k.t, mine)] } :=
    ((Block.event_touches ..).capU rfl u).trans (((Block.irq_touches ..).capU rfl u).trans
      (((Block.push_touches ..).capU rfl u).trans (Block.capU_setCapU ..)))
  have hirq : noted.capIrq 0 := (Block.KeepsReg.refl.event (by decide)).capIrq (pushed.irq_bit Blk.cap (by decide))
  have hlen : (noted.capU u).kept.length = x.kept.length + 1 := by rw [hunit, List.length_append, List.length_singleton]
  have hroom : room.HasSealed u x k := by
    unfold room
    split
    · have hst : (noted.capU u).st = 3 := by rw [hunit]
      exact ⟨⟨by rw [hunit], by rw [hunit], fun _ => hlen, fun _ => by omega⟩, by omega, hirq⟩
    · rename_i hmany
      have hno : ¬x.kept.length < 63 := by omega
      split
      · obtain ⟨l, hl⟩ := noted.capOverwrite_capU u
        rw [hunit] at hl
        have hst : ((noted.capOverwrite u).capU u).st = 3 := by rw [hl]
        exact ⟨⟨by rw [hl], by rw [hl], fun hr => absurd hr hno, fun hr => absurd hr hno⟩, by omega, (Block.unitKeeps_irq u 0).capOverwrite hirq⟩
      · have hl := noted.capFull_capU u
        rw [hunit] at hl
        have hst : ((noted.capFull u).capU u).st = 4 := by rw [hl]
        exact ⟨⟨by rw [hl], by rw [hl], fun hr => absurd hr hno, fun hr => absurd hr hno⟩, by omega, (Block.unitKeeps_irq u 0).capFull hirq⟩
  refine ⟨Block.capHoldCheck_sealed hroom.unit, ?_, (Block.unitKeeps_irq u 0).capHoldCheck hroom.irq⟩
  rw [Block.capHoldCheck_capU]
  split
  · exact Nat.one_ne_zero
  · exact hroom.on

/-! ### Hand-overs -/

/-- The sets that a hand-over takes are of those it asks for. -/
theorem Block.comSets_asked {b : Block} {p : Nat → Bool} {e : Nat × Word} (h : e ∈ b.comSets p) : p e.1 = true := by
  obtain ⟨z, hz, hze⟩ := List.mem_filterMap.mp h
  have hkey : e.1 = z.1 := by
    split at hze
    · cases hze
      rfl
    · obtain ⟨w, -, hw⟩ := Option.map_eq_some_iff.mp hze
      rw [← hw]
  rw [hkey]
  exact (List.mem_filter.mp hz).2

/-- A hand-over takes the sets, copies some of them and, of the others, puts back and reports one group after the other. -/
theorem Block.handover_induction {P : Block → Prop} {b : Block} {p : Nat → Bool} {group : Nat → Nat} {ok : Block → Tbl Word → Bool}
    {reject : Block → Nat → Block}
    (htook : ∀ s : Tbl Word, (∀ e ∈ s, e ∈ b.comSets p) → P (((b.dropCom p).adopt s).handedOver (b.comSets p)))
    (hback : ∀ x (s : Tbl Word), (∀ e ∈ s, p e.1 = true) → P x → P (x.unshadow s)) (hreject : ∀ x k, P x → P (reject x k)) :
    P (b.handover p group ok reject) := by
  unfold Block.handover
  extract_lets sets groups keep took
  refine List.foldlRecOn groups _ (htook _ (fun e he => (List.mem_filter.mp he).1)) (fun x hx g _ => Block.ite_holds hx ?_)
  extract_lets mine
  have hmine : ∀ e ∈ mine, p e.1 = true := fun e he => Block.comSets_asked (List.mem_filter.mp he).1
  clear_value mine
  cases mine with
  | nil => exact hx
  | cons e r => exact hreject _ _ (hback _ _ hmine hx)

/-- Registers of other sets outlast what is put back of a rejected one. -/
theorem Block.KeepsReg.unshadow {j : Nat} {a b : Block} (h : Block.KeepsReg j a b) {s : Tbl Word} (hs : ∀ e ∈ s, j ≠ e.1) :
    Block.KeepsReg j a (b.unshadow s) := by
  refine h.trans ⟨fun d => ?_⟩
  refine List.foldlRecOn (motive := fun v => Tbl.get v j d = Tbl.get b.regs.vis j d) s _ rfl (fun v hv e he => ?_)
  split
  · exact hv
  · exact (Tbl.get_put_other _ _ _ _ _ _ (hs e he)).trans hv

/-- A raised interrupt outlasts the hand-over of a unit's sets. -/
theorem Block.unitTaken_capIrq {b : Block} {n : Nat} (h : b.capIrq n) (u : Nat) : (b.unitTaken u).capIrq n := by
  refine Block.handover_induction (P := (·.capIrq n)) (fun _ _ => h) (fun x s hs hx => ?_)
    (fun _ _ hx => (Block.unitKeeps_irq u n).event _ _ _ _ _ ((Block.unitKeeps_irq u n).irq _ _ hx))
  refine (Block.KeepsReg.refl.unshadow (fun e he hkey => ?_)).capIrq hx
  have hspace := (Cap.unitSet_iff.mp (hs e he)).2.1
  rw [← hkey] at hspace
  exact absurd hspace (by decide)

/-- The capture whose last row is written is sealed, and the hand-over that this allows leaves it so. -/
theorem Block.capSealNow_seals {b : Block} {u : Nat} {k : Capture} (h : (b.capU u).cur = some k) (hdue : b.capSealDue u = true) :
    (b.capU u).Sealed k ((b.capSealNow u).capU u) ∧ (b.capSealNow u).capIrq 0 := by
  obtain ⟨hsealed, hon, hirq⟩ := Block.capSeal_sealed h false
  unfold Block.capSealNow
  rw [if_pos hdue]
  exact ⟨Block.capHandover_sealed hsealed hon, (Block.unitKeeps_irq u 0).capHandover (fun _ hx => Block.unitTaken_capIrq hx u) hirq⟩

end Sys2Proof.Machine
end

section
/-! PROOFS. Signals of the trigger bus that act, CAP's COMMIT and the hand-overs that follow it (O33). -/

namespace Sys2Proof.Machine

/-! ### A signal's act time (R306) -/

/-- What a signal does to a unit: nothing where it is of that unit or no BUS trigger of the unit names its line. -/
def Block.busTrigger (line t origin : Nat) (b : Block) (v : Nat) : Block :=
  if origin / 16 = v + 1 then b
  else if (b.capSlots v 5 (fun w => bits w 7 0 == line)) = [] then b
  else b.capTrigger v t [⟨0, 4, 5, line, origin % 16⟩]

/-- What it does to a pin: an output of its line starts its pulse. -/
def Block.busPulse (line : Nat) (b : Block) (n : Nat) : Block :=
  let w := bits (b.cn Reg.CAP_TRG_CFG) (8 * n + 7) (8 * n)
  if bit w 7 && w % 8 == line then
    { b with cap := { b.cap with pulse := Tbl.put b.cap.pulse n (b.now + fld (b.cfg Reg.CAP_TRG_WIDTH) 19 0 * 1000) 0 } }
  else b

/-- The first units triggered. -/
def Block.busTriggers (b : Block) (line t origin n : Nat) : Block := (List.range n).foldl (Block.busTrigger line t origin) b

theorem Block.busTriggers_succ (b : Block) (line t origin n : Nat) :
    b.busTriggers line t origin (n + 1) = (b.busTriggers line t origin n).busTrigger line t origin n := by
  unfold Block.busTriggers
  rw [List.range_succ, List.foldl_append]
  rfl

theorem Block.busActOne_eq (b : Block) (line t origin : Nat) :
    b.busActOne (line, t, origin) = ((b.busTriggers line t origin 8).busPulse line 0).busPulse line 1 := rfl

theorem Block.UnitKeeps.busTrigger {P : Block → Prop} {v : Nat} {b : Block} (k : Block.UnitKeeps P v) (h : P b) (line t origin : Nat) :
    P (b.busTrigger line t origin v) := Block.ite_holds h (Block.ite_holds h (k.capTrigger h ..))

theorem Block.busTriggers_touches (b : Block) (line t origin n : Nat) : Touches [.vis, .evr, .cas, .cap] b (b.busTriggers line t origin n) :=
  Touches.fold .refl (fun _ _ hx => .ite hx (.ite hx (hx.trans (Block.capTrigger_touches ..) rfl)))

theorem Block.busTriggers_settings (b : Block) (line t origin n : Nat) : Block.KeepsCapSettings b (b.busTriggers line t origin n) :=
  List.foldlRecOn (motive := Block.KeepsCapSettings b) (List.range n) _ ⟨rfl, fun _ _ _ => .refl⟩
    (fun _ hx v _ => (Block.unitKeeps_settings b v).busTrigger hx ..)

/-- The slots that name the line are settings. -/
theorem Block.KeepsCapSettings.capSlots {a b : Block} (h : Block.KeepsCapSettings a b) {u : Nat} (hu : u < 8) (type : Nat) (p : Nat → Bool) :
    b.capSlots u type p = a.capSlots u type p := by
  refine List.filterMap_congr (fun i hi => ?_)
  have hi4 : i < 4 := List.mem_range.mp hi
  have hoff : ∀ i, i < 4 → Reg.CAP_TRIG_CFG.off + Reg.CAP_TRIG_CFG.stride * i < 65536 ∧
      (Reg.CAP_TRIG_CFG.off + Reg.CAP_TRIG_CFG.stride * i) % 65536 ∉ 0x400 :: Cap.countOffsets := by decide
  have hcn : b.cn Reg.CAP_TRIG_CFG u i = a.cn Reg.CAP_TRIG_CFG u i :=
    congrArg BitVec.toNat (h.cfg (by decide) (hoff i hi4).1 (by omega) (hoff i hi4).2)
  rw [hcn]

/-- An armed unit that names the line, and that the signal is not of, opens a capture at the signal's trigger time when its turn comes. -/
theorem Block.busTriggers_open {b : Block} {line t origin u : Nat} (hu : u < 8) (hst : (b.capU u).st = 1) (horigin : origin / 16 ≠ u + 1)
    (hslots : b.capSlots u 5 (fun w => bits w 7 0 == line) ≠ []) (n : Nat) :
    if n ≤ u then (b.busTriggers line t origin n).capU u = b.capU u
    else ((b.busTriggers line t origin n).capU u).st = 2 ∧ ((b.busTriggers line t origin n).capU u).cur.map (·.t) = some t := by
  induction n with
  | zero => rw [if_pos (Nat.zero_le u)]; rfl
  | succ n ih =>
    rw [Block.busTriggers_succ]
    by_cases hn : n = u
    · subst hn
      rw [if_pos le_rfl] at ih
      have hopen : (b.busTriggers line t origin n).busTrigger line t origin n =
          (b.busTriggers line t origin n).capOpen n t [⟨0, 4, 5, line, origin % 16⟩] := by
        unfold Block.busTrigger
        rw [if_neg horigin, (b.busTriggers_settings line t origin n).capSlots hu, if_neg hslots]
        exact Block.capTrigger_armed (by rw [ih]; exact hst) t (List.cons_ne_nil _ _)
      rw [if_neg (by omega), hopen, Block.capOpen_capU]
      exact ⟨rfl, rfl⟩
    · rw [(Block.unitKeeps_other (Ne.symm hn) _).busTrigger rfl line t origin]
      have hle : n + 1 ≤ u ↔ n ≤ u := by omega
      simpa only [hle] using ih

theorem Block.busPulse_eq (b : Block) (line n : Nat) : ∃ l, b.busPulse line n = { b with cap := { b.cap with pulse := l } } := by
  unfold Block.busPulse
  dsimp only
  split
  · exact ⟨_, rfl⟩
  · exact ⟨_, rfl⟩

/-- Whether a pin is set as an output for a line. -/
abbrev Block.trgDrives (b : Block) (line n : Nat) : Prop :=
  bit (bits (b.cn Reg.CAP_TRG_CFG) (8 * n + 7) (8 * n)) 7 = true ∧ bits (b.cn Reg.CAP_TRG_CFG) (8 * n + 7) (8 * n) % 8 = line

/-- When a pulse that starts now ends. -/
def Block.pulseStop (b : Block) : Nat := b.now + fld (b.cfg Reg.CAP_TRG_WIDTH) 19 0 * 1000

theorem Block.busPulse_pulse {b : Block} {line n : Nat} (h : b.trgDrives line n) : Tbl.get (b.busPulse line n).cap.pulse n 0 = b.pulseStop := by
  unfold Block.busPulse
  dsimp only
  rw [if_pos (by simp [h.1, h.2])]
  exact Tbl.get_put_same ..

theorem Block.busPulse_pulse_other (b : Block) (line : Nat) {n m : Nat} (h : m ≠ n) :
    Tbl.get (b.busPulse line n).cap.pulse m 0 = Tbl.get b.cap.pulse m 0 := by
  unfold Block.busPulse
  dsimp only
  split
  · exact Tbl.get_put_other _ _ _ _ _ _ h
  · rfl

/-- The pin that is an output of the line starts its pulse. -/
theorem Block.busPulses_pulse {b : Block} {line n : Nat} (hn : n < 2) (h : b.trgDrives line n) :
    Tbl.get ((b.busPulse line 0).busPulse line 1).cap.pulse n 0 = b.pulseStop := by
  obtain rfl | rfl : n = 0 ∨ n = 1 := by omega
  · exact ((b.busPulse line 0).busPulse_pulse_other line (by decide)).trans (Block.busPulse_pulse h)
  · obtain ⟨l, hl⟩ := b.busPulse_eq line 0
    rw [hl]
    exact Block.busPulse_pulse (b := { b with cap := { b.cap with pulse := l } }) h

/-- And the pulses leave the units. -/
theorem Block.busPulse_capU (b : Block) (line n u : Nat) : (b.busPulse line n).capU u = b.capU u := by
  obtain ⟨l, hl⟩ := b.busPulse_eq line n
  rw [hl]
  rfl

/-- A signal acts on an armed unit that names its line and on the output pins of the line. -/
theorem Block.busActOne_acts {b : Block} {line t origin n u : Nat} (hn : n < 2) (hdrives : b.trgDrives line n) (hu : u < 8)
    (hst : (b.capU u).st = 1) (horigin : origin / 16 ≠ u + 1) (hslots : b.capSlots u 5 (fun w => bits w 7 0 == line) ≠ []) :
    Tbl.get (b.busActOne (line, t, origin)).cap.pulse n 0 = b.pulseStop ∧ ((b.busActOne (line, t, origin)).capU u).st = 2 ∧
      ((b.busActOne (line, t, origin)).capU u).cur.map (·.t) = some t := by
  have hset := b.busTriggers_settings line t origin 8
  have htrg : (b.busTriggers line t origin 8).cn Reg.CAP_TRG_CFG = b.cn Reg.CAP_TRG_CFG :=
    congrArg BitVec.toNat (hset.cfg (by decide) (by decide) (by decide) (by decide))
  have hstop : (b.busTriggers line t origin 8).pulseStop = b.pulseStop := by
    unfold Block.pulseStop
    rw [(b.busTriggers_touches line t origin 8).now rfl, hset.cfg (by decide) (by decide) (by decide) (by decide)]
  have hopen := Block.busTriggers_open (t := t) hu hst horigin hslots 8
  rw [if_neg (by omega)] at hopen
  rw [Block.busActOne_eq, Block.busPulses_pulse hn (by unfold Block.trgDrives; rwa [htrg]), hstop, Block.busPulse_capU, Block.busPulse_capU]
  exact ⟨rfl, hopen⟩

/-- The one signal that waits acts at its act time. -/
theorem Block.busAct_single {b : Block} {line t origin : Nat} (hbus : b.cap.bus = [(line, t, origin)])
    (hdue : t + fld (b.cfg Reg.CAP_BUS_D) 9 0 * 1000 ≤ b.now) :
    b.busAct = Block.busActOne { b with cap := { b.cap with bus := [] } } (line, t, origin) := by
  unfold Block.busAct
  simp [hbus, hdue]

/-! ### Sets with nothing written or committed since (R5) -/

/-- No register of CAP was written since its COMMIT, and none was committed in this cycle. -/
structure Block.CapSettled (b : Block) : Prop where
  dirty : ∀ k ∈ b.regs.dirty, keyBlk k ≠ 12
  late : ∀ e ∈ b.regs.late.2, keyBlk e.1 ≠ 12

theorem Block.CapSettled.lateSet {b : Block} (h : b.CapSettled) {k : Nat} (hk : keyBlk k = 12) : b.lateSet k = none := by
  unfold Block.lateSet
  split
  · refine List.find?_eq_none.mpr (fun e he hkey => h.late e he ?_)
    rw [beq_iff_eq.mp hkey, hk]
  · rfl

/-- Every waiting set of CAP is then one that a hand-over takes. -/
theorem Block.CapSettled.comSets {b : Block} (h : b.CapSettled) {p : Nat → Bool} (hp : ∀ k, p k = true → keyBlk k = 12) :
    b.comSets p = b.regs.com.filter (fun e => p e.1) := by
  unfold Block.comSets
  refine (List.filterMap_congr (fun e he => ?_)).trans List.filterMap_some
  rw [h.lateSet (hp e.1 (List.mem_filter.mp he).2)]

/-- What a hand-over of some sets of CAP leaves of the register file. -/
structure Block.TookSets (p : Nat → Bool) (a b : Block) : Prop where
  com : b.regs.com = a.regs.com.filter (fun e => !p e.1)
  dirty : b.regs.dirty = a.regs.dirty
  late : ∀ e ∈ b.regs.late.2, keyBlk e.1 ≠ 12
  act : ∀ k d, p k = false → Tbl.get b.regs.act k d = Tbl.get a.regs.act k d

theorem Block.TookSets.touched {p : Nat → Bool} {a b c : Block} {l : List Part} (h : Block.TookSets p a b) (k : Touches l b c)
    (hl : l.contains .com = false ∧ l.contains .dirty = false ∧ l.contains .act = false) : Block.TookSets p a c := by
  obtain ⟨hcom, hdirty, hact⟩ := hl
  obtain ⟨hwaits, hlate, -⟩ : c.regs.com = b.regs.com ∧ c.regs.late = b.regs.late ∧ c.regs.handed = b.regs.handed := by
    simpa [Part.same] using k.keeps .com hcom
  refine ⟨hwaits.trans h.com, (k.dirty hdirty).trans h.dirty, by rw [hlate]; exact h.late, fun j d hj => ?_⟩
  rw [show c.regs.act = b.regs.act from k.keeps .act hact]
  exact h.act j d hj

theorem Block.TookSets.settled {p : Nat → Bool} {a b : Block} (h : Block.TookSets p a b) (ha : a.CapSettled) : b.CapSettled :=
  ⟨by rw [h.dirty]; exact ha.dirty, h.late⟩

/-- No write meets a hand-over of sets of CAP in its own cycle. -/
theorem Block.handedOver_settled {b : Block} (h : b.CapSettled) {s : Tbl Word} (hs : ∀ e ∈ s, keyBlk e.1 = 12) :
    ∃ n, b.handedOver s = { b with regs := { b.regs with
      handed := n, late := (b.t7, if b.regs.late.1 = b.t7 then b.regs.late.2 else []) } } := by
  have hnone (q : Nat → Bool) : b.regs.dirty.filter (fun k => q k && s.any (fun e => sameSet k e.1)) = [] := by
    refine List.filter_eq_nil_iff.mpr (fun k hk hq => h.dirty k hk ?_)
    obtain ⟨e, he, hsame⟩ := List.any_eq_true.mp (Bool.and_eq_true_iff.mp hq).2
    have hblk := hs e he
    simp only [sameSet, beq_iff_eq] at hsame
    unfold keyBlk at hblk ⊢
    omega
  unfold Block.handedOver
  dsimp only
  rw [hnone]
  unfold Block.promote
  simp

theorem Block.TookSets.of_adopted {a : Block} (ha : a.CapSettled) {p : Nat → Bool} (hp : ∀ k, p k = true → keyBlk k = 12) {s : Tbl Word}
    (hs : ∀ e ∈ s, p e.1 = true) : Block.TookSets p a (((a.dropCom p).adopt s).handedOver (a.comSets p)) := by
  have hcom : (a.dropCom p).regs.com = a.regs.com.filter (fun e => !p e.1) := by
    refine List.filter_congr (fun e _ => ?_)
    cases he : p e.1 with
    | false => rfl
    | true => rw [ha.lateSet (hp _ he)]; rfl
  have hlate : ∀ e ∈ (a.dropCom p).regs.late.2, keyBlk e.1 ≠ 12 := by
    intro e he
    obtain ⟨z, hz, rfl⟩ := List.mem_map.mp he
    rw [apply_ite Prod.fst, ite_self]
    exact ha.late z hz
  have hsettled : ((a.dropCom p).adopt s).CapSettled := ⟨ha.dirty, hlate⟩
  obtain ⟨n, hn⟩ := Block.handedOver_settled hsettled (s := a.comSets p) (fun e he => hp _ (Block.comSets_asked he))
  rw [hn]
  refine ⟨hcom, rfl, fun e he => ?_, fun k d hk => ?_⟩
  · dsimp only at he
    split at he
    · exact hlate e he
    · exact absurd he List.not_mem_nil
  · refine List.foldlRecOn (motive := fun v => Tbl.get v k d = Tbl.get a.regs.act k d) s _ rfl (fun v hv e he => ?_)
    refine (Tbl.get_put_other _ _ _ _ _ _ ?_).trans hv
    rintro rfl
    rw [hs e he] at hk
    exact Bool.noConfusion hk

/-- A hand-over of sets of CAP, whatever it rejects. -/
theorem Block.handover_took {a : Block} (ha : a.CapSettled) {p : Nat → Bool} (hp : ∀ k, p k = true → keyBlk k = 12) {group : Nat → Nat}
    {ok : Block → Tbl Word → Bool} {reject : Block → Nat → Block} (hreject : ∀ x k, Touches [.vis, .evr] x (reject x k)) :
    Block.TookSets p a (a.handover p group ok reject) :=
  Block.handover_induction (fun _ hs => .of_adopted ha hp (fun e he => Block.comSets_asked (hs e he)))
    (fun _ _ _ hx => hx.touched (Block.unshadow_touches ..) (by decide)) (fun x k hx => hx.touched (hreject x k) (by decide))

/-! ### The units' hand-overs (R308) -/

/-- A unit that is not capturing takes its sets. -/
theorem Block.capHandover_took {a : Block} (ha : a.CapSettled) {u : Nat} (hst : (a.capU u).st ≠ 2) :
    Block.TookSets (Cap.unitSet u) a (a.capHandover u) := by
  have hp : ∀ k, Cap.unitSet u k = true → keyBlk k = 12 := fun k hk => (Cap.unitSet_iff.mp hk).1
  by_cases hsets : a.comSets (Cap.unitSet u) = []
  · rw [Block.capHandover_idle (.inr hsets)]
    refine ⟨(List.filter_eq_self.mpr (fun e he => ?_)).symm, rfl, ha.late, fun _ _ _ => rfl⟩
    rw [ha.comSets hp] at hsets
    simpa using List.filter_eq_nil_iff.mp hsets e he
  · have htook : Block.TookSets (Cap.unitSet u) a (a.unitTaken u) :=
      Block.handover_took ha hp (fun _ _ => (Block.irq_touches ..).weaken rfl |>.trans (Block.event_touches ..) rfl)
    rcases Block.capHandover_due hst hsets with e | e
    · rw [e]
      exact htook.touched (Block.capRefresh_touches ..) (by decide)
    · rw [e]
      exact (htook.touched (Block.capEmpty_touches ..) (by decide)).touched (Block.capRefresh_touches ..) (by decide)

/-- The first `n` units' hand-overs: of their sets, those of the units that capture still wait. -/
structure Block.UnitsHandedOver (n : Nat) (a b : Block) : Prop where
  settled : b.CapSettled
  dirty : b.regs.dirty = a.regs.dirty
  com : ∀ e ∈ b.regs.com, e ∈ a.regs.com ∧ (keyBlk e.1 = 12 → keySpace e.1 = 0 → keyInst e.1 < n → (a.capU (keyInst e.1)).st = 2)
  unit : ∀ v, n ≤ v → b.capU v = a.capU v
  act : ∀ k, keySpace k = 15 → ∀ d, Tbl.get b.regs.act k d = Tbl.get a.regs.act k d

theorem Block.UnitsHandedOver.succ {n : Nat} {a b : Block} (h : Block.UnitsHandedOver n a b) : Block.UnitsHandedOver (n + 1) a (b.capHandover n) := by
  have hunit : ∀ v, n + 1 ≤ v → (b.capHandover n).capU v = a.capU v :=
    fun v hv => (b.capHandover_capU_other (by omega)).trans (h.unit v (by omega))
  by_cases hst : (b.capU n).st = 2
  · have hidle := Block.capHandover_idle (b := b) (u := n) (.inl hst)
    rw [hidle] at hunit ⊢
    refine ⟨h.settled, h.dirty, fun e he => ⟨(h.com e he).1, fun hblk hspace hlt => ?_⟩, hunit, h.act⟩
    by_cases hn : keyInst e.1 = n
    · rw [hn, ← h.unit n le_rfl]
      exact hst
    · exact (h.com e he).2 hblk hspace (by omega)
  · have htook := Block.capHandover_took h.settled hst
    refine ⟨htook.settled h.settled, htook.dirty.trans h.dirty, fun e he => ?_, hunit, fun k hk d => ?_⟩
    · rw [htook.com] at he
      obtain ⟨hmem, hother⟩ := List.mem_filter.mp he
      refine ⟨(h.com e hmem).1, fun hblk hspace hlt => (h.com e hmem).2 hblk hspace ?_⟩
      have hne : keyInst e.1 ≠ n := fun hn => by
        rw [Cap.unitSet_iff.mpr ⟨hblk, hspace, hn⟩] at hother
        exact Bool.noConfusion hother
      omega
    · refine (htook.act k d (Bool.eq_false_iff.mpr (fun hset => ?_))).trans (h.act k hk d)
      have hspace := (Cap.unitSet_iff.mp hset).2.1
      omega

theorem Block.capHandovers_handedOver {a : Block} (ha : a.CapSettled) (n : Nat) :
    Block.UnitsHandedOver n a ((List.range n).foldl Block.capHandover a) := by
  induction n with
  | zero => exact ⟨ha, rfl, fun e he => ⟨he, fun _ _ h => absurd h (Nat.not_lt_zero _)⟩, fun _ _ => rfl, fun _ _ _ => rfl⟩
  | succ n ih =>
    rw [List.range_succ, List.foldl_append]
    exact ih.succ

/-! ### A hand-over that rejects nothing -/

/-- The groups of some sets, each listed once. -/
theorem mem_groups {group : Nat → Nat} (s : Tbl Word) (l : List Nat) :
    (∀ g ∈ l, g ∈ s.foldl (fun l e => if l.contains (group e.1) then l else l ++ [group e.1]) l) ∧
      ∀ e ∈ s, group e.1 ∈ s.foldl (fun l e => if l.contains (group e.1) then l else l ++ [group e.1]) l := by
  induction s generalizing l with
  | nil => exact ⟨fun _ h => h, fun _ h => absurd h List.not_mem_nil⟩
  | cons z r ih =>
    rw [List.foldl_cons]
    obtain ⟨hl, hr⟩ := ih (if l.contains (group z.1) then l else l ++ [group z.1])
    have hz : (∀ g ∈ l, g ∈ if l.contains (group z.1) then l else l ++ [group z.1]) ∧
        group z.1 ∈ if l.contains (group z.1) then l else l ++ [group z.1] := by
      split
      · rename_i hc
        exact ⟨fun _ h => h, List.contains_iff_mem.mp hc⟩
      · exact ⟨fun _ h => List.mem_append_left _ h, List.mem_append_right _ List.mem_cons_self⟩
    refine ⟨fun g hg => hl g (hz.1 g hg), fun e he => ?_⟩
    rcases List.mem_cons.mp he with rfl | he
    · exact hl _ hz.2
    · exact hr e he

theorem Block.settle_all {b : Block} {s : Tbl Word} {group : Nat → Nat} {ok : Block → Tbl Word → Bool}
    (hrange : ∀ e ∈ s, Reg.rangeOk e.1 e.2 = true) (hok : ∀ x l, ok x l = true) (n : Nat) (keep : List Nat) : b.settle s group ok n keep = keep := by
  induction n with
  | zero => rfl
  | succ n ih =>
    unfold Block.settle
    dsimp only
    rw [List.filter_eq_self.mpr (fun g _ => ?_), ih]
    rw [hok, Bool.and_true]
    exact List.all_eq_true.mpr (fun e he => hrange e (List.mem_filter.mp he).1)

/-- Where every set keeps its ranges and nothing else is asked of them, all are copied. -/
theorem Block.handover_all {b : Block} {p : Nat → Bool} {group : Nat → Nat} {ok : Block → Tbl Word → Bool} {reject : Block → Nat → Block}
    (hrange : ∀ e ∈ b.comSets p, Reg.rangeOk e.1 e.2 = true) (hok : ∀ x l, ok x l = true) :
    b.handover p group ok reject = ((b.dropCom p).adopt (b.comSets p)).handedOver (b.comSets p) := by
  unfold Block.handover
  extract_lets sets groups keep took
  have hkeep : keep = groups := Block.settle_all hrange hok _ _
  have hall : sets.filter (fun e => keep.contains (group e.1)) = sets := by
    refine List.filter_eq_self.mpr (fun e he => ?_)
    rw [hkeep]
    exact List.contains_iff_mem.mpr ((mem_groups sets []).2 e he)
  have htook : took = ((b.dropCom p).adopt sets).handedOver sets := by
    unfold took
    rw [hall]
  rw [← htook]
  refine List.foldlRecOn (motive := (· = took)) groups _ rfl (fun x hx g hg => ?_)
  rw [hkeep, if_pos (List.contains_iff_mem.mpr hg)]
  exact hx

/-- A set that is copied is in force, each of its copies the same. -/
theorem Block.adopt_act {b : Block} {s : Tbl Word} {k : Nat} {w : Word} (hmem : (k, w) ∈ s) (hsame : ∀ e ∈ s, e.1 = k → e.2 = w) :
    Tbl.get (b.adopt s).regs.act k (Reg.rstOf k) = w := by
  unfold Block.adopt
  dsimp only
  generalize b.regs.act = v
  induction s generalizing v with
  | nil => exact absurd hmem List.not_mem_nil
  | cons z r ih =>
    have hr : ∀ e ∈ r, e.1 = k → e.2 = w := fun e he => hsame e (List.mem_cons_of_mem z he)
    rw [List.foldl_cons]
    by_cases hin : (k, w) ∈ r
    · exact ih hin hr _
    · obtain rfl : (k, w) = z := (List.mem_cons.mp hmem).resolve_right hin
      refine List.foldlRecOn (motive := fun v => Tbl.get v k (Reg.rstOf k) = w) r _ (Tbl.get_put_same ..) (fun v hv e he => ?_)
      by_cases hk : e.1 = k
      · exact absurd (show (k, w) = e from Prod.ext hk.symm (hr e he hk).symm) (fun h => hin (h ▸ he))
      · exact (Tbl.get_put_other _ _ _ _ _ _ (Ne.symm hk)).trans hv

/-! ### COMMIT (R5, R308) -/

theorem Tbl.mem_ins {α : Type} {c : Tbl α} {k : Nat} {v : α} {e : Nat × α} (h : e ∈ Tbl.ins c k v) : e = (k, v) ∨ e ∈ c := by
  induction c with
  | nil => exact .inl (List.mem_singleton.mp h)
  | cons z r ih =>
    obtain ⟨j, u⟩ := z
    unfold Tbl.ins at h
    split at h
    · exact List.mem_cons.mp h
    · split at h
      · exact (List.mem_cons.mp h).imp_right (List.mem_cons_of_mem _)
      · rcases List.mem_cons.mp h with rfl | h
        · exact .inr List.mem_cons_self
        · exact (ih h).imp_right (List.mem_cons_of_mem _)

theorem Tbl.mem_ins_same {α : Type} (c : Tbl α) (k : Nat) (v : α) : (k, v) ∈ Tbl.ins c k v := by
  induction c with
  | nil => exact List.mem_singleton_self _
  | cons z r ih =>
    obtain ⟨j, u⟩ := z
    unfold Tbl.ins
    split
    · exact List.mem_cons_self
    · split
      · exact List.mem_cons_self
      · exact List.mem_cons_of_mem _ ih

theorem Tbl.mem_ins_other {α : Type} {c : Tbl α} {k : Nat} {v : α} {e : Nat × α} (h : e ∈ c) (hk : e.1 ≠ k) : e ∈ Tbl.ins c k v := by
  induction c with
  | nil => exact absurd h List.not_mem_nil
  | cons z r ih =>
    obtain ⟨j, u⟩ := z
    unfold Tbl.ins
    split
    · exact List.mem_cons_of_mem _ h
    · split
      · rename_i hj
        rcases List.mem_cons.mp h with rfl | h
        · exact absurd hj.symm hk
        · exact List.mem_cons_of_mem _ h
      · rcases List.mem_cons.mp h with rfl | h
        · exact List.mem_cons_self
        · exact List.mem_cons_of_mem _ (ih h)

/-- Values inserted under some keys: what the table then lists. -/
theorem Tbl.mem_insAll {α : Type} {l : List Nat} {f : Nat → α} {c : Tbl α} {e : Nat × α}
    (h : e ∈ l.foldl (fun c k => Tbl.ins c k (f k)) c) : e ∈ c ∨ (e.1 ∈ l ∧ e.2 = f e.1) := by
  refine List.foldlRecOn (motive := fun t => e ∈ t → e ∈ c ∨ (e.1 ∈ l ∧ e.2 = f e.1)) l _ .inl (fun t ht k hk he => ?_) h
  rcases Tbl.mem_ins he with rfl | he
  · exact .inr ⟨hk, rfl⟩
  · exact ht he

theorem Tbl.mem_insAll_same {α : Type} {l : List Nat} (f : Nat → α) (c : Tbl α) {k : Nat} (hk : k ∈ l) :
    (k, f k) ∈ l.foldl (fun c k => Tbl.ins c k (f k)) c := by
  induction l generalizing c with
  | nil => exact absurd hk List.not_mem_nil
  | cons j r ih =>
    by_cases hr : k ∈ r
    · exact ih _ hr
    · obtain rfl : k = j := (List.mem_cons.mp hk).resolve_right hr
      refine List.foldlRecOn (motive := fun t => (k, f k) ∈ t) r _ (Tbl.mem_ins_same ..) (fun t ht i hi => ?_)
      exact Tbl.mem_ins_other ht (fun hki => hr ((show k = i from hki) ▸ hi))

/-- The registers of CAP's own shadow set. -/
def Cap.globalSet (k : Nat) : Bool := keyBlk k == Blk.cap && keySpace k == 15

theorem Cap.globalSet_iff {k : Nat} : Cap.globalSet k = true ↔ keyBlk k = 12 ∧ keySpace k = 15 := by simp [Cap.globalSet, Blk.cap]

/-- CAP's sets committed, waiting for nothing but their hand-overs. -/
def Block.capCommitted (b : Block) : Block := (b.commit Blk.cap).ripen (fun k => keyBlk k == Blk.cap)

/-- And CAP's own handed over. -/
def Block.capGlobalTaken (b : Block) : Block :=
  b.capCommitted.handover Cap.globalSet (fun _ => 0) (fun _ _ => true) (fun b _ => (b.irq Blk.cap 4).event 0x0D06)

theorem Block.capCommit_eq (b : Block) : b.capCommit = (List.range 8).foldl Block.capHandover b.capGlobalTaken := rfl

theorem Block.capCommitted_settled (b : Block) : b.capCommitted.CapSettled where
  dirty k hk := by simpa [Blk.cap] using (List.mem_filter.mp hk).2
  late e he := by simpa [Blk.cap] using (List.mem_filter.mp he).2

theorem Block.capGlobalTaken_took (b : Block) : Block.TookSets Cap.globalSet b.capCommitted b.capGlobalTaken :=
  Block.handover_took b.capCommitted_settled (fun _ hk => (Cap.globalSet_iff.mp hk).1)
    (fun _ _ => (Block.irq_touches ..).weaken rfl |>.trans (Block.event_touches ..) rfl)

theorem Block.capGlobalTaken_capU (b : Block) (u : Nat) : b.capGlobalTaken.capU u = b.capU u := by
  have htaken : Touches [.vis, .act, .com, .dirty, .evr] b.capCommitted b.capGlobalTaken :=
    Block.handover_step .refl rfl (fun _ _ hx => (hx.trans (Block.irq_touches ..) rfl).trans (Block.event_touches ..) rfl)
  exact htaken.capU rfl u

/-- CAP's own sets are in force where none waited before and each keeps its ranges. -/
theorem Block.capGlobalTaken_act {b : Block} (hnone : ∀ e ∈ b.regs.com, keyBlk e.1 ≠ 12)
    (hrange : ∀ k ∈ b.regs.dirty, Cap.globalSet k = true → Reg.rangeOk k (b.visAt k) = true) {k : Nat} (hk : k ∈ b.regs.dirty)
    (hset : Cap.globalSet k = true) : Tbl.get b.capGlobalTaken.regs.act k (Reg.rstOf k) = b.visAt k := by
  have hcap : ∀ k, Cap.globalSet k = true → keyBlk k = 12 := fun k h => (Cap.globalSet_iff.mp h).1
  have hsets := b.capCommitted_settled.comSets hcap
  have hvalue : ∀ e ∈ b.capCommitted.comSets Cap.globalSet, e.1 ∈ b.regs.dirty ∧ e.2 = b.visAt e.1 ∧ Cap.globalSet e.1 = true := by
    intro e he
    rw [hsets] at he
    obtain ⟨hcom, hglobal⟩ := List.mem_filter.mp he
    rcases Tbl.mem_insAll hcom with hold | ⟨hdirty, hval⟩
    · exact absurd (hcap _ hglobal) (hnone e hold)
    · exact ⟨(List.mem_filter.mp hdirty).1, hval, hglobal⟩
  have hall : b.capGlobalTaken = _ := Block.handover_all (fun e he => by
    obtain ⟨hdirty, hval, hglobal⟩ := hvalue e he
    rw [hval]
    exact hrange _ hdirty hglobal) (fun _ _ => rfl)
  rw [hall]
  refine Block.adopt_act ?_ (fun e he hek => ?_)
  · rw [hsets]
    exact List.mem_filter.mpr ⟨Tbl.mem_insAll_same b.visAt _ (List.mem_filter.mpr ⟨hk, by simp [hcap k hset, Blk.cap]⟩), hset⟩
  · rw [(hvalue e he).2.1, hek]

/-- CAP's COMMIT leaves no write uncommitted; of its sets, those of units that capture wait (R308). -/
theorem Block.capCommit_waits (b : Block) : b.capCommit.regs.dirty = b.regs.dirty.filter (fun k => keyBlk k != 12) ∧
    ∀ e ∈ b.capCommit.regs.com, keyBlk e.1 = 12 →
      keySpace e.1 ≠ 15 ∧ (keySpace e.1 = 0 → keyInst e.1 < 8 → (b.capU (keyInst e.1)).st = 2) := by
  have htook := b.capGlobalTaken_took
  have hover := Block.capHandovers_handedOver (htook.settled b.capCommitted_settled) 8
  rw [Block.capCommit_eq]
  refine ⟨hover.dirty.trans htook.dirty, fun e he hblk => ?_⟩
  obtain ⟨hmem, hunit⟩ := hover.com e he
  refine ⟨fun hspace => ?_, fun hspace hinst => ?_⟩
  · rw [htook.com] at hmem
    have hother := (List.mem_filter.mp hmem).2
    rw [Cap.globalSet_iff.mpr ⟨hblk, hspace⟩] at hother
    exact Bool.noConfusion hother
  · rw [← b.capGlobalTaken_capU]
    exact hunit hblk hspace hinst

/-- CAP's own sets are in force after it, where none waited before and each keeps its ranges. -/
theorem Block.capCommit_act {b : Block} (hnone : ∀ e ∈ b.regs.com, keyBlk e.1 ≠ 12)
    (hrange : ∀ k ∈ b.regs.dirty, Cap.globalSet k = true → Reg.rangeOk k (b.visAt k) = true) {k : Nat} (hk : k ∈ b.regs.dirty)
    (hset : Cap.globalSet k = true) : Tbl.get b.capCommit.regs.act k (Reg.rstOf k) = b.visAt k := by
  have hover := Block.capHandovers_handedOver (b.capGlobalTaken_took.settled b.capCommitted_settled) 8
  rw [Block.capCommit_eq, hover.act k (Cap.globalSet_iff.mp hset).2]
  exact Block.capGlobalTaken_act hnone hrange hk hset

/-- A COMMIT that is not refused: not the host's, or without TUNE_ONLY (R439). -/
theorem Block.commitBy_accepted {b : Block} {m : Nat} (h : 4 ≤ m ∨ bit (b.vis Reg.SYS_CFG).toNat 0 = false) (blk : Nat) :
    b.commitBy m blk = b.commitBlock blk := by
  refine if_neg ?_
  rintro ⟨hm, hbit⟩
  rcases h with h | h
  · omega
  · rw [h] at hbit
    exact Bool.noConfusion hbit

/-! ### The statement -/

/-- Settles O33: each command by the lemma of its operation. -/
theorem capturesAreTakenAndReleased : Obligations.CapturesAreTakenAndReleased := by
  refine ⟨fun t m u pre s hm hs hst hpre => ?_, fun t m u k r s hm hs hkept => ?_, fun t n level s hn => ?_, fun t u k s hu hcur hdue => ?_,
    fun t u s hu hst hover hspace hcom => ?_, fun t line a o n u s hbus hdue hn hout hline hu hst ho hslots => ?_, fun t m s hm hopen => ?_⟩
  · refine Completes.bySel Block.capForce rfl hm hs ?_
    obtain ⟨hunit, hcounts⟩ := Block.capForce_opens (b := s.at t) (Block.selInst_lt hs) hst
    have hvis := Block.advance_vis ((s.at t).capForce u) m 12 0xA4 Reg.CAP_CAPTURES u 0 (by decide) (by decide)
    rw [Block.advance_answer_capU, hunit, hpre]
    refine ⟨rfl, rfl, rfl, ?_⟩
    unfold Block.counts
    rw [Block.answer_vis, hvis]
    exact hcounts
  · refine Completes.bySel Block.capRelease rfl hm hs ?_
    rw [Block.advance_answer_capU]
    exact Block.capRelease_capU (b := s.at t) hkept
  · refine Completes.runIf (f := fun b => b.trgEdge n level) rfl (decide_eq_true hn) ?_
    rw [Block.trgEdge_trg]
    exact ⟨bit_switch .., bit_switch_other _ _ (by omega)⟩
  · refine Completes.runIf (f := fun b => b.capSealNow u) rfl (decide_eq_true hu) ?_
    obtain ⟨hsealed, hirq⟩ := Block.capSealNow_seals (b := s.at t) hcur hdue
    exact ⟨hsealed.cur, hsealed.lastT, hirq, hsealed.kept⟩
  · exact Completes.runIf (f := fun b => b.capHoldoffEnd u) rfl (decide_eq_true hu) (Block.capHoldoffEnd_arms (b := s.at t) hst hover hspace hcom)
  · refine Completes.run (f := Block.busAct) rfl ?_
    rw [Block.busAct_single (b := s.at t) hbus hdue]
    exact Block.busActOne_acts (b := { s.at t with cap := { (s.at t).cap with bus := [] } }) hn ⟨hout, hline⟩ hu hst ho hslots
  · refine Completes.byMaster rfl (decide_eq_true hm.1) hm ?_
    rw [Block.advance_global _ _ _ (by decide), Block.commitBy_accepted (b := s.at t) hopen,
      show (s.at t).commitBlock 12 = (s.at t).capCommit from rfl, Block.answer_regs]
    obtain ⟨hdirty, hcom⟩ := (s.at t).capCommit_waits
    refine ⟨hdirty, hcom, fun hnone hrange k hk hblk hspace => ?_⟩
    refine Block.capCommit_act (b := s.at t) (fun e he => ?_) (fun j hj hset => ?_) hk (Cap.globalSet_iff.mpr ⟨hblk, hspace⟩)
    · simpa using List.all_eq_true.mp hnone e he
    · have hkeeps := List.all_eq_true.mp hrange j hj
      obtain ⟨hj12, hj15⟩ := Cap.globalSet_iff.mp hset
      rw [hj12, hj15] at hkeeps
      exact hkeeps

end Sys2Proof.Machine
end

section
/-! PROOFS. Steps (O1), reset (O5), the commands as effects on the block (O2), blocked accesses (O57). -/

/- One declaration after the other: the text is checked as one, with room for few threads. -/
set_option Elab.async false

namespace Sys2Proof.Machine

/-- Settles O1: a step matches on the queue. -/
theorem stepRunsTheFrontCommand : Obligations.StepRunsTheFrontCommand := by
  refine ⟨fun c r s h => ?_, fun s h => ?_⟩ <;> simp [step, h]

/-- Settles O5: after reset no byte is listed and no command waits. -/
theorem invariantAtReset : Obligations.InvariantAtReset :=
  ⟨Memory.wf_reset, rfl⟩

/-- A command that names no instance. -/
theorem State.runIf_true (s : State) (t : Nat) (f : Block → Block) : s.runIf true t f = s.run t f := rfl

/-- A command is an effect on the block at its instant, where it names instances. -/
theorem exec_effect (c : Instr) : ∃ t f, ∀ s, exec c s = s.runIf c.wf t f := by
  delta exec
  cases c
  case reassemblyTimeout | injectionProcess | cmdDataOff | cmdDataOn | cmdSendHeader | cmdSendCfg1 | cmdSendCfg2 | cmdSendCfg3 |
    cmdExtendedFrame | cmdUnknown | firingDispatch | acceleratorSolveDone | ringdownEnd | rdSkipElapsed | gatherComplete |
    islPublish | irigFrame | ppsEdge | todSentence | oscSwitch | leapSecond | timShadowHandover | syncReset | periodicSave |
    energySaveDone | busAct | radioSlot | parentFrame | parentGuardWiden | parentScan | cmpJobStart | cmpJobDone | timeFrameSend |
    timeFault | renewSend | leaseExpiry | takeoverTimeout | checkpointRx | restoreDone | roleListenEnd | failbackHolddownEnd |
    handoverControlRx | handoverOutputStop | keyInstall | tamperEvent | eventEntryWrite | freezeTimeout | powerOn | loadComplete |
    selftestDone | haltRestart | imageConfirm | powerFailWarning | saveComplete | tempSample | holdupTest | holdupTestDone |
    supplyGoodChange | qspiDone | hostWatchdogExpiry | leapTableExpiry | sdmShadowHandover =>
    exact ⟨_, _, fun s => (State.runIf_true s _ _).symm⟩
  all_goals exact ⟨_, _, fun _ => rfl⟩

/-- Settles O2: without an instance a command has no effect, and its instant is all that passes. -/
theorem everyCommandCompletesOrNamesNoInstance : Obligations.EveryCommandCompletesOrNamesNoInstance := by
  intro c s
  obtain ⟨t, f, hc⟩ := exec_effect c
  cases hw : c.wf with
  | true => exact ⟨_, (hc s).trans (State.runIf_eq s hw t f), rfl, nofun⟩
  | false => exact ⟨_, (hc s).trans (State.runIf_idle s hw t f), rfl, fun _ => ⟨Nat.le_max_left .., rfl⟩⟩

/-! ### Accesses of the bus -/

/-- An effect that stands behind an access: none for a master that cannot make it, the violation where ACC does not permit it. -/
structure Behind (a : BusUse) (f : Block → Block) : Prop where
  waits : ∀ b : Block, b.masterReady a.m = false → f b = b
  blocked : ∀ b : Block, b.masterReady a.m = true → a.permitted b = false → f b = b.violate a.m a.addr a.size a.write

theorem Block.masterRead_behind (t m addr n : Nat) : Behind ⟨t, m, addr, n, false, none⟩ (fun b => b.masterRead m addr n) :=
  ⟨fun _ h => if_pos h, fun _ h h' => (if_neg (by simp [h])).trans (if_pos h')⟩

theorem Block.masterWrite_behind (t m addr n v : Nat) : Behind ⟨t, m, addr, n, true, none⟩ (fun b => b.masterWrite m addr n v) :=
  ⟨fun _ h => if_pos h, fun _ h h' => (if_neg (by simp [h])).trans (if_pos h')⟩

theorem Block.byMaster_behind (t m blk off : Nat) (f : Block → Block) :
    Behind ⟨t, m, 0xF0000000 + 65536 * blk + off, 4, true, none⟩ (fun b => b.byMaster m blk off f) :=
  ⟨fun _ h => if_pos h, fun _ h h' => (if_neg (by simp [h])).trans (if_pos h')⟩

theorem Block.byQueue_behind (t m q reg : Nat) (w : Bool) (f : Block → Block) :
    Behind ⟨t, m, queueAddr reg, 8, w, some q⟩ (fun b => b.byQueue m q reg w f) :=
  ⟨fun _ h => if_pos h, fun _ h h' => (if_neg (by simp [h])).trans (if_pos h')⟩

/-- The report of a violation. -/
theorem Block.violation_behind (t m addr n : Nat) (w : Bool) :
    Behind ⟨t, m, addr, n, w, none⟩ (fun b => if b.masterReady m && !b.accOk m addr n w then b.violate m addr n w else b) :=
  ⟨fun b h => if_neg (by simp [show b.masterReady m = false from h]),
    fun b h h' => if_pos (by simp [show b.masterReady m = true from h, show b.accOk m addr n w = false from h'])⟩

/-- The effect of a command that makes an access stands behind it. -/
theorem exec_behind {c : Instr} {a : BusUse} (h : c.busUse = some a) : ∃ f, Behind a f ∧ ∀ s, exec c s = s.runIf c.wf a.t f := by
  delta exec
  cases c
  all_goals cases h
  case registerWrite => exact ⟨_, Block.masterWrite_behind .., fun _ => rfl⟩
  case plicComplete => exact ⟨_, Block.masterWrite_behind .., fun _ => rfl⟩
  case rcRead | latchingRead | tbNowRead | nrgCounterRead | plicClaim => exact ⟨_, Block.masterRead_behind .., fun _ => rfl⟩
  case queuePush | queuePushEop | queuePop | queueTrypop => exact ⟨_, Block.byQueue_behind .., fun _ => rfl⟩
  case accViolation => exact ⟨_, Block.violation_behind .., fun _ => rfl⟩
  all_goals exact ⟨_, Block.byMaster_behind .., fun _ => rfl⟩

/-- Settles O57: each command that makes an access has its effect behind it. -/
theorem blockedAccessesDoNothingElse : Obligations.BlockedAccessesDoNothingElse := by
  refine ⟨fun c a s hu hw hr hp => ?_, fun c a s hu hw hr => ?_⟩ <;> obtain ⟨f, hf, hc⟩ := exec_behind hu
  · exact Completes.runIf (hc s) hw (hf.blocked (s.at a.t) hr hp)
  · exact Completes.runIf (hc s) hw (hf.waits (s.at a.t) hr)

end Sys2Proof.Machine
end

section
/-! PROOFS. What each command touches (O51 to O56), and the invariant of every step (O6). -/

/- One declaration after the other: the text is checked as one, with room for few threads. -/
set_option Elab.async false

namespace Sys2Proof.Machine

/-! ### What a command may touch -/

/-- Every part. -/
def Part.all : List Part :=
  [.t7, .free, .vis, .act, .com, .dirty, .locked, .resp, .latch, .rep, .cells, .flash, .poison, .evr, .sys, .pwr, .key, .tam, .acc, .tim, .aln,
    .mm, .dma, .que, .dfe, .prt, .str, .out, .cas, .rpl, .isl, .alm, .cmp, .sdm, .nrg, .cap, .rad, .red]

end Sys2Proof.Machine

namespace Sys2Proof

/-- The parts that a command may touch where its access, if it makes one, is permitted. -/
def Instr.parts : Instr → List Machine.Part
  | .registerWrite .. | .filterEntryCommit .. | .dmaChannelRun .. | .dmaChannelComplete .. | .powerOn .. | .haltRestart ..
    | .imageSwitch .. | .dieResetReq .. | .busTimeout .. => Machine.Part.all
  | .rcRead .. | .latchingRead .. =>
    [.t7, .free, .vis, .resp, .latch, .rep, .cells, .poison, .evr, .sys, .pwr, .tim, .aln, .mm, .que, .dfe, .rpl, .nrg]
  | .tick .. =>
    [.t7, .free, .vis, .act, .com, .dirty, .resp, .rep, .cells, .poison, .evr, .aln, .que, .dfe, .prt, .str, .out, .cas, .rpl, .isl,
      .alm, .cmp, .sdm, .nrg, .cap, .red]
  | .weirADeadline .. | .weirASpacingElapsed .. =>
    [.t7, .free, .vis, .act, .com, .dirty, .resp, .rep, .cells, .poison, .evr, .sys, .tim, .aln, .que, .dfe, .prt, .out, .cas, .isl,
      .alm, .cmp, .cap, .red]
  | .weirBDeadline .. =>
    [.t7, .free, .vis, .act, .com, .dirty, .resp, .rep, .cells, .poison, .evr, .sys, .tim, .aln, .que, .dfe, .prt, .out, .cas, .rpl,
      .alm, .cmp, .cap, .red]
  | .recordMark .. =>
    [.t7, .free, .vis, .act, .com, .dirty, .resp, .rep, .cells, .poison, .evr, .sys, .tim, .aln, .que, .dfe, .prt, .str, .out, .cas,
      .rpl, .isl, .alm, .cmp, .cap, .red]
  | .tagExpiry .. =>
    [.t7, .free, .vis, .act, .com, .dirty, .resp, .rep, .poison, .evr, .aln, .que, .dfe, .prt, .out, .cas, .isl, .alm, .cap, .red]
  | .retentionEnd .. => [.t7, .cells, .poison, .aln, .out, .cmp]
  | .missingHeadersDone .. => [.t7, .cells, .poison, .aln, .out]
  | .frameReceive .. | .sourceLost .. | .pdelayRespTimeout .. | .irigFrame .. | .ppsEdge .. | .todSentence ..
    | .lockHoldElapsed .. | .holdoverErrorLimit .. | .tbVrateWrite .. | .timShadowHandover .. | .heartbeatRenewRx ..
    | .heartbeatAckRx .. | .heartbeatNakRx .. | .leaseExpiry .. | .handoverOutputStop .. =>
    [.t7, .free, .vis, .act, .com, .dirty, .resp, .rep, .cells, .poison, .evr, .sys, .tim, .aln, .que, .dfe, .prt, .out, .alm, .cmp,
      .cap, .red]
  | .linkUp .. | .linkDown .. | .sfpChange .. | .cagePower .. | .portCfgApply .. => [.t7, .vis, .evr, .prt]
  | .forwardEgress .. | .frameTransmit .. => [.t7, .vis, .tim, .prt]
  | .tcEntryTimeout .. => [.t7, .prt]
  | .largeSend .. => [.t7, .vis, .rep, .evr, .prt]
  | .udpFragmentSend .. => [.t7, .vis, .prt]
  | .streamFrameIngest .. => [.t7, .vis, .resp, .rep, .cells, .poison, .evr, .aln, .que, .prt, .str]
  | .reassemblyTimeout .. => [.t7, .vis, .rep, .evr, .str]
  | .injectionProcess .. => [.t7, .vis, .resp, .rep, .cells, .poison, .evr, .aln, .que, .str]
  | .strCommit .. | .alnCommit .. | .outCommit .. | .dfeCommit .. | .rplCommit .. | .islCommit .. | .almCommit ..
    | .timCommit .. | .sdmCommit .. | .nrgCommit .. | .capCommit .. | .radCommit .. | .memCommit .. | .cmpCommit ..
    | .evrCommit .. => [.t7, .vis, .act, .com, .dirty, .resp, .rep, .cells, .poison, .evr, .tim, .que, .sdm, .cap]
  | .ctxRelearn .. => [.t7, .vis, .resp, .aln]
  | .timedLaunch .. | .resendWindowExpiry .. => [.t7, .vis, .rep, .cells, .poison, .evr, .prt, .out]
  | .outBasinRelease .. => [.t7, .aln, .out]
  | .sessOpen .. => [.t7, .vis, .resp, .rep, .poison, .evr, .que, .out]
  | .sessClose .. | .sessReset .. | .sessSendAck .. | .sessAckWrite .. | .sessRetx .. => [.t7, .vis, .resp, .rep, .evr, .prt, .out]
  | .sessionSegmentSend .. => [.t7, .vis, .rep, .evr, .prt, .out]
  | .sessStallReset .. => [.t7, .vis, .resp, .rep, .poison, .evr, .que, .prt, .out]
  | .cmdDataOff .. | .cmdDataOn .. => [.t7, .vis, .que, .out]
  | .cmdSendHeader .. | .cmdSendCfg1 .. | .cmdSendCfg2 .. | .cmdSendCfg3 .. => [.t7, .vis, .rep, .cells, .poison, .evr, .que, .prt, .out]
  | .cmdExtendedFrame .. | .queuePush .. | .queuePushEop .. => [.t7, .vis, .resp, .rep, .poison, .evr, .que]
  | .cmdUnknown .. => [.t7, .vis, .rep, .evr, .que]
  | .firingDispatch .. => [.t7, .vis, .dfe]
  | .firingComplete .. | .sluiceRelease .. =>
    [.t7, .free, .vis, .act, .com, .dirty, .resp, .rep, .cells, .poison, .evr, .aln, .que, .dfe, .prt, .out, .cas, .rpl, .alm, .cap, .red]
  | .dfeInject .. => [.t7, .vis, .resp, .rep, .poison, .evr, .dfe]
  | .coreReleaseCmd .. => [.t7, .vis, .resp, .evr, .dfe]
  | .coreMemFault .. => [.t7, .free, .vis, .resp, .rep, .cells, .poison, .evr, .aln, .que, .dfe, .prt, .out, .cas, .rpl, .alm, .cap]
  | .coreHalt .. | .coreResume .. => [.t7, .dfe]
  | .acceleratorSolveDone .. => [.t7, .vis, .resp, .rep, .cells, .poison, .evr, .que, .dfe, .rpl]
  | .ringdownEnd .. => [.t7, .vis, .evr, .rpl]
  | .rdSkipElapsed .. => [.t7, .rpl]
  | .gatherComplete .. => [.t7, .vis, .rep, .poison, .evr, .dfe, .rpl]
  | .islPublish .. => [.t7, .free, .vis, .resp, .rep, .cells, .poison, .evr, .aln, .que, .dfe, .prt, .out, .cas, .isl, .alm, .cap]
  | .defResetCmd .. => [.t7, .vis, .resp, .alm]
  | .aoPulseEnd .. => [.t7, .alm]
  | .diChange .. => [.t7, .vis, .evr, .cas, .alm, .cap]
  | .gooseRepeat .. => [.t7, .free, .vis, .rep, .evr, .prt, .out, .alm]
  | .timeMeasurement .. | .tbVstepWrite .. | .heartbeatHelloRx .. | .roleListenEnd .. =>
    [.t7, .free, .vis, .act, .com, .dirty, .resp, .rep, .cells, .poison, .evr, .sys, .tim, .aln, .que, .dfe, .prt, .out, .cas, .rpl,
      .isl, .alm, .cmp, .sdm, .nrg, .cap, .red]
  | .sourceQualified .. => [.t7, .tim, .out]
  | .pdelayReqSend .. => [.t7, .vis, .rep, .evr, .tim, .prt]
  | .oscSwitch .. => [.t7, .vis, .evr, .tim, .out]
  | .leapSecond .. => [.t7, .vis, .rep, .evr, .tim]
  | .pulseEdge .. => [.t7, .vis, .tim]
  | .pulseEnd .. => [.t7, .vis, .act, .com, .dirty, .rep, .evr, .tim]
  | .tbNowRead .. | .nrgCounterRead .. => [.t7, .vis, .latch, .pwr, .tim, .dfe, .nrg, .resp]
  | .decimatorOutput .. => [.t7, .vis, .act, .com, .dirty, .resp, .rep, .cells, .poison, .evr, .que, .cas, .sdm, .nrg, .cap]
  | .sdmSyncCmd .. => [.t7, .vis, .resp, .sdm]
  | .syncReset .. | .sdmShadowHandover .. =>
    [.t7, .free, .vis, .act, .com, .dirty, .resp, .rep, .cells, .poison, .evr, .que, .cas, .sdm, .nrg, .cap]
  | .chFault .. | .chRecover .. => [.t7, .vis, .evr, .sdm]
  | .localRecordHandover .. => [.t7, .vis, .resp, .rep, .cells, .poison, .evr, .aln, .que, .str, .sdm]
  | .zeroCrossing .. | .zcTimeout .. => [.t7, .free, .vis, .act, .com, .dirty, .resp, .rep, .cells, .poison, .evr, .que, .cas, .nrg, .cap]
  | .nrgSnap .. | .nrgClear .. => [.t7, .vis, .resp, .nrg]
  | .periodicSave .. => [.t7, .cells, .poison, .nrg]
  | .energySaveDone .. | .eventEntryWrite .. => [.t7, .vis, .cells, .poison, .evr, .nrg]
  | .captureForce .. => [.t7, .vis, .resp, .evr, .cas, .cap]
  | .captureRelease .. => [.t7, .vis, .resp, .cap]
  | .trgInputEdge .. | .busAct .. => [.t7, .vis, .evr, .cas, .cap]
  | .captureSeal .. | .holdoffEnd .. => [.t7, .vis, .act, .com, .dirty, .resp, .rep, .cells, .poison, .evr, .que, .cap]
  | .radioSlot .. => [.t7, .vis, .act, .com, .dirty, .rep, .evr, .rad]
  | .uplinkFrame .. => [.t7, .vis, .resp, .rep, .cells, .poison, .evr, .aln, .que, .str, .rad]
  | .uplinkMissed .. | .downlinkAcked .. | .downlinkUnacked .. => [.t7, .vis, .resp, .rep, .poison, .evr, .que, .rad]
  | .dlPost .. | .pendSet .. | .pendClr .. => [.t7, .vis, .resp, .rad]
  | .parentFrame .. => [.t7, .vis, .rep, .evr, .tim, .rad]
  | .parentGuardWiden .. | .parentScan .. => [.t7, .vis, .evr, .rad]
  | .correctedError .. => [.t7, .free, .vis, .rep, .cells, .poison, .evr, .mm]
  | .uncorrectableError .. | .queuePop .. | .queueTrypop .. =>
    [.t7, .free, .vis, .resp, .rep, .cells, .poison, .evr, .aln, .mm, .que, .dfe, .rpl]
  | .ceWriteback .. => [.t7, .cells, .poison, .aln, .mm, .que, .dfe]
  | .scrubStep .. => [.t7, .free, .vis, .act, .com, .dirty, .resp, .rep, .cells, .poison, .evr, .aln, .mm, .que, .dfe, .rpl]
  | .scrubStarved .. => [.t7, .vis, .evr, .mm]
  | .remapCmd .. => [.t7, .free, .vis, .resp, .rep, .cells, .poison, .evr, .mm]
  | .remapErase .. => [.t7, .vis, .resp, .cells, .poison, .mm]
  | .diagRawRead .. => [.t7, .free, .vis, .resp, .poison]
  | .diagRawWrite .. | .diagDataWrite .. | .diagCheckWrite .. => [.t7, .free, .vis, .resp, .cells, .poison, .evr, .aln, .que, .dfe]
  | .dmaStart .. | .dmaClearHalt .. => [.t7, .vis, .resp, .dma]
  | .dmaCommit .. => [.t7, .vis, .com, .dirty, .resp]
  | .queueFlush .. => [.t7, .vis, .resp, .poison, .evr, .que]
  | .queueEnable .. | .queueDisable .. => [.t7, .vis, .resp, .evr, .que]
  | .archiveFrameStart .. => [.t7, .free, .vis, .act, .com, .dirty, .resp, .rep, .cells, .poison, .evr, .aln, .que, .out, .cmp]
  | .archiveSegmentWrite .. => [.t7, .free, .vis, .resp, .rep, .cells, .poison, .evr, .aln, .que, .out, .cmp]
  | .cmpResume .. => [.t7, .vis, .resp, .evr, .cmp]
  | .cmpJobGo .. | .cmpCtxReset .. => [.t7, .vis, .resp, .cmp]
  | .cmpJobStart .. => [.t7, .cmp]
  | .cmpJobDone .. => [.t7, .free, .vis, .resp, .rep, .cells, .poison, .evr, .que, .cmp]
  | .tabuskFrameRx .. =>
    [.t7, .free, .vis, .act, .com, .dirty, .resp, .rep, .cells, .poison, .evr, .sys, .tim, .aln, .que, .dfe, .prt, .str, .out, .cas,
      .alm, .cmp, .cap, .red]
  | .tabuskLinkDown .. =>
    [.t7, .free, .vis, .act, .com, .dirty, .resp, .rep, .cells, .poison, .evr, .sys, .tim, .aln, .que, .dfe, .prt, .out, .cas, .alm,
      .cmp, .cap, .red]
  | .tabuskLinkUp .. | .timeFault .. => [.t7, .vis, .evr, .cas]
  | .timeFrameSend .. | .delayExchange .. => [.t7, .cas]
  | .memberLost .. => [.t7, .vis, .rep, .evr, .aln, .cas]
  | .renewSend .. | .failbackHolddownEnd .. => [.t7, .vis, .prt, .red]
  | .heartbeatFailRx .. | .heartbeatReleaseRx .. | .takeoverTimeout .. | .loadComplete .. =>
    [.t7, .free, .vis, .act, .com, .dirty, .resp, .rep, .cells, .poison, .evr, .sys, .tim, .que, .prt, .out, .alm, .cap, .red]
  | .pathDown .. => [.t7, .vis, .evr, .red]
  | .checkpointRx .. => [.t7, .vis, .com, .rep, .cells, .poison, .evr, .sys, .aln, .dfe, .prt, .str, .out, .rpl, .isl, .alm, .rad, .red]
  | .restoreDone .. =>
    [.t7, .free, .vis, .act, .com, .dirty, .resp, .rep, .cells, .poison, .evr, .sys, .tim, .aln, .que, .dfe, .prt, .str, .out, .cas,
      .rpl, .isl, .alm, .cmp, .sdm, .nrg, .cap, .rad, .red]
  | .redHandoverCmd .. => [.t7, .vis, .resp, .prt, .red]
  | .handoverControlRx .. => [.t7, .vis, .rep, .cells, .poison, .evr, .prt, .red]
  | .loadSecret .. | .eraseSecret .. | .setEpoch .. | .setOwner .. | .debugAuth .. =>
    [.t7, .free, .vis, .resp, .rep, .cells, .poison, .evr, .sys, .key, .aln, .que, .prt, .out, .cas, .cmp, .rad]
  | .keyInstall .. => [.t7, .vis, .evr, .sys, .key, .cas]
  | .tamperEvent .. =>
    [.t7, .free, .vis, .act, .com, .dirty, .resp, .rep, .cells, .poison, .evr, .sys, .pwr, .key, .tam, .tim, .aln, .que, .prt, .out,
      .cas, .alm, .cmp, .nrg, .cap, .rad, .red]
  | .accViolation .. =>
    [.t7, .free, .vis, .act, .com, .dirty, .resp, .rep, .cells, .poison, .evr, .sys, .acc, .tim, .aln, .dma, .que, .dfe, .prt, .out,
      .cas, .rpl, .alm, .cmp, .cap, .red]
  | .accRelease .. =>
    [.t7, .free, .vis, .act, .com, .dirty, .resp, .rep, .cells, .poison, .evr, .sys, .acc, .tim, .dma, .que, .prt, .out, .alm, .cap, .red]
  | .evrFreeze .. | .evrThaw .. | .evrClear .. | .clrUnlock .. => [.t7, .vis, .resp, .evr]
  | .freezeTimeout .. => [.t7, .vis, .evr]
  | .modeReqMaintenance .. | .modeReqActive .. | .modeReqDebug .. | .modeReqHalt .. | .modeReqInvalid .. | .holdupTestDone .. =>
    [.t7, .free, .vis, .act, .com, .dirty, .resp, .rep, .cells, .poison, .evr, .sys, .pwr, .tim, .aln, .que, .dfe, .prt, .out, .alm,
      .cmp, .cap, .red]
  | .selftestDone .. =>
    [.t7, .free, .vis, .act, .com, .dirty, .resp, .rep, .cells, .poison, .evr, .sys, .pwr, .tim, .aln, .mm, .dma, .que, .dfe, .prt,
      .out, .cas, .rpl, .isl, .alm, .cmp, .sdm, .nrg, .cap, .red]
  | .imageConfirm .. => [.t7, .vis, .cells, .poison, .evr, .sys]
  | .tuningSet .. => [.t7, .vis, .act, .com, .dirty, .resp, .rep, .cells, .poison, .evr, .sys, .tim, .que, .sdm, .cap]
  | .imageVerify .. | .qspiErase .. | .qspiProgram .. | .wdogKick .. => [.t7, .vis, .resp, .sys]
  | .hostResetReq .. | .hostWatchdogExpiry .. => [.t7, .vis, .resp, .evr, .sys, .acc, .que, .prt, .red]
  | .powerFailWarning .. | .tempSample .. =>
    [.t7, .free, .vis, .act, .com, .dirty, .resp, .rep, .cells, .poison, .evr, .sys, .pwr, .tim, .que, .prt, .out, .cas, .alm, .nrg,
      .cap, .red]
  | .saveComplete .. =>
    [.t7, .free, .vis, .act, .com, .dirty, .resp, .rep, .cells, .poison, .evr, .sys, .pwr, .tim, .aln, .que, .prt, .out, .alm, .nrg,
      .cap, .red]
  | .holdupTest .. => [.t7, .vis, .pwr]
  | .supplyGoodChange .. => [.t7, .pwr]
  | .plicClaim .. | .plicComplete .. => [.t7, .sys, .resp]
  | .qspiDone .. => [.t7, .vis, .flash, .evr, .sys]
  | .machineTimerInterrupt .. => [.t7, .sys]
  | .leapTableExpiry .. => [.t7, .tim]

/-- The access that a command makes, if it makes one, can be made and is permitted. -/
def Instr.allowed (c : Instr) (b : Machine.Block) : Prop := ∀ a, c.busUse = some a → b.masterReady a.m = true ∧ a.permitted b = true

end Sys2Proof

namespace Sys2Proof.Machine

/-! ### What permitted accesses touch -/

/-- A permitted read: a bus error or poison spoils the firing of a core. -/
theorem Block.masterRead_permitted {b : Block} {m addr n : Nat} (h : b.masterReady m = true) (h' : b.accOk m addr n false = true) :
    b.masterRead m addr n = if (b.busLoad m addr n).2.1 = true ∨ (b.busLoad m addr n).1 = .busError then
      ((b.busLoad m addr n).2.2.firingSpoilt m).answer m .busError else (b.busLoad m addr n).2.2.answer m (b.busLoad m addr n).1 := by
  unfold Block.masterRead
  rw [if_neg (by simp [h]), if_neg (by simp [h'])]

theorem Block.masterRead_permitted_touches {l : List Part} {b : Block} {m addr n : Nat} (h : b.masterReady m = true)
    (h' : b.accOk m addr n false = true) (hs : Parts.sub [.resp, .dfe] l = true) (k : Touches l b (b.busLoad m addr n).2.2) :
    Touches l b (b.masterRead m addr n) := by
  obtain ⟨hresp, hdfe⟩ : Parts.sub [.resp] l = true ∧ Parts.sub [.dfe] l = true := by simpa [Parts.sub] using hs
  rw [Block.masterRead_permitted h h']
  exact .ite ((k.trans (Block.firingSpoilt_touches ..) hdfe).trans (Block.answer_touches ..) hresp) (k.trans (Block.answer_touches ..) hresp)

/-- The control region, and what lies between it and the DRAM, where nothing answers. -/
theorem busRegion_above_control {o : Nat} (h : o < 0x1000000) :
    busRegion (0xF0000000 + o) 4 = if o + 4 ≤ 0x190000 then some (.control, o) else none := by
  unfold busRegion
  dsimp only
  iterate 6 rw [if_neg (by simp only [Bool.and_eq_true, decide_eq_true_eq]; omega)]
  by_cases ho : o + 4 ≤ 0x190000
  · rw [if_pos (by simp only [Bool.and_eq_true, decide_eq_true_eq]; omega), if_pos ho, Nat.add_sub_cancel_left]
  · rw [if_neg (by simp only [Bool.and_eq_true, decide_eq_true_eq]; omega), if_neg (by simp only [Bool.and_eq_true, decide_eq_true_eq]; omega),
      if_neg ho]

/-- The read of a control register. -/
theorem Block.busLoad_control_touches (b : Block) (m : Nat) {o : Nat} (h : o < 0x1000000) (ha : o % 4 = 0) (hq : queueReg o = false) :
    Touches [.vis, .latch, .pwr, .tim, .dfe, .nrg] b (b.busLoad m (0xF0000000 + o) 4).2.2 := by
  unfold Block.busLoad
  rw [busRegion_above_control h]
  by_cases ho : o + 4 ≤ 0x190000
  · rw [if_pos ho]
    dsimp only
    rw [if_neg (by simp [hq]), if_pos ⟨rfl, ha⟩]
    exact (Block.regRead_touches ..).trans (Block.advance_touches ..) rfl
  · rw [if_neg ho]
    exact Touches.refl

/-- The claim and completion register of a hart. -/
theorem busRegion_claim {h : Nat} (hh : h < 4) : busRegion (0x0C200004 + 0x1000 * h) 4 = some (.plic, 0x200004 + 0x1000 * h) := by
  have hcases : h = 0 ∨ h = 1 ∨ h = 2 ∨ h = 3 := by omega
  rcases hcases with rfl | rfl | rfl | rfl <;> rfl

theorem Block.masterRead_claim {b : Block} {h : Nat} (hh : h < 4) (hr : b.masterReady h = true)
    (ha : b.accOk h (0x0C200004 + 0x1000 * h) 4 false = true) :
    b.masterRead h (0x0C200004 + 0x1000 * h) 4 =
      (b.plicRead (0x200004 + 0x1000 * h)).2.answer h (.value (b.plicRead (0x200004 + 0x1000 * h)).1) := by
  have e : b.busLoad h (0x0C200004 + 0x1000 * h) 4 = (.value (b.plicRead (0x200004 + 0x1000 * h)).1, false, (b.plicRead (0x200004 + 0x1000 * h)).2) := by
    unfold Block.busLoad
    rw [busRegion_claim hh]
    exact if_pos ⟨rfl, by omega⟩
  rw [Block.masterRead_permitted hr ha, e]
  rfl

theorem Block.masterWrite_claim {b : Block} {h : Nat} (hh : h < 4) (hr : b.masterReady h = true)
    (ha : b.accOk h (0x0C200004 + 0x1000 * h) 4 true = true) (v : Nat) :
    b.masterWrite h (0x0C200004 + 0x1000 * h) 4 v = (b.plicWrite (0x200004 + 0x1000 * h) (v % 2 ^ 32)).answer h .written := by
  have e : b.busStore h (0x0C200004 + 0x1000 * h) 4 v = (.written, b.plicWrite (0x200004 + 0x1000 * h) (v % 2 ^ 32)) := by
    unfold Block.busStore
    rw [busRegion_claim hh]
    exact if_pos ⟨rfl, by omega⟩
  unfold Block.masterWrite
  rw [if_neg (by simp [hr]), if_neg (by simp [ha]), e]
  rfl

/-! ### Commands -/

/-- A meaning is an effect on the block at an instant that touches the listed parts where a condition holds before it. -/
def Acts (e : State → Result) (w : Bool) (p : Block → Prop) (l : List Part) : Prop :=
  ∃ t f, (∀ s, e s = s.runIf w t f) ∧ ∀ b, w = true → p b → Touches l b (f b)

variable {e : State → Result} {w : Bool} {t : Nat} {f : Block → Block} {p : Block → Prop} {l l' : List Part}

theorem Acts.effect (he : ∀ s, e s = s.runIf w t f) (h : ∀ b, Touches l b (f b)) : Acts e w p l := ⟨t, f, he, fun b _ _ => h b⟩

theorem Acts.always (he : ∀ s, e s = s.run t f) (h : ∀ b, Touches l b (f b)) : Acts e true p l := ⟨t, f, he, fun b _ _ => h b⟩

/-- A command of a register whose access is permitted: its effect, SEL's advance, the answer. -/
theorem Acts.master {c : Instr} {m blk off : Nat} (hu : c.busUse = some ⟨t, m, 0xF0000000 + 65536 * blk + off, 4, true, none⟩)
    (he : ∀ s, e s = s.runIf w t (fun b => b.byMaster m blk off f)) (hs : Parts.sub [.vis, .resp] l = true) (h : ∀ b, Touches l b (f b)) :
    Acts e w c.allowed l := by
  obtain ⟨hvis, hresp⟩ : Parts.sub [.vis] l = true ∧ Parts.sub [.resp] l = true := by simpa [Parts.sub] using hs
  refine ⟨t, _, he, fun b _ hp => ?_⟩
  obtain ⟨hr, ha⟩ := hp _ hu
  have e : b.byMaster m blk off f = ((f b).advance m blk off).answer m .written :=
    (if_neg (by simp [show b.masterReady m = true from hr])).trans (if_neg (Bool.not_eq_false _ ▸ ha))
  rw [e]
  exact ((h b).trans (Block.advance_touches ..) hvis).trans (Block.answer_touches ..) hresp

/-- A 64-bit access of a queue that is permitted. -/
theorem Acts.queue {c : Instr} {m q reg : Nat} {rw : Bool} (hu : c.busUse = some ⟨t, m, queueAddr reg, 8, rw, some q⟩)
    (he : ∀ s, e s = s.runIf w t (fun b => b.byQueue m q reg rw f)) (h : ∀ b, Touches l b (f b)) : Acts e w c.allowed l := by
  refine ⟨t, _, he, fun b _ hp => ?_⟩
  obtain ⟨hr, ha⟩ := hp _ hu
  have e : b.byQueue m q reg rw f = f b :=
    (if_neg (by simp [show b.masterReady m = true from hr])).trans (if_neg (Bool.not_eq_false _ ▸ ha))
  rw [e]
  exact h b

/-- Each command's effect, by the operations it is made of. -/
theorem exec_acts (c : Instr) : Acts (exec c) c.wf c.allowed c.parts := by
  delta exec
  cases c
  case tick => exact .effect (fun _ => rfl) fun _ => (Block.tick_touches ..).weaken rfl
  case weirADeadline | weirASpacingElapsed => exact .effect (fun _ => rfl) fun _ => (Block.weirA_touches ..).weaken rfl
  case weirBDeadline => exact .effect (fun _ => rfl) fun _ => (Block.weirB_touches ..).weaken rfl
  case recordMark => exact .effect (fun _ => rfl) fun _ => (Block.recordMark_touches ..).weaken rfl
  case tagExpiry => exact .effect (fun _ => rfl) fun _ => .ite ((Block.tagExpiry_touches ..).weaken rfl) .refl
  case retentionEnd => exact .effect (fun _ => rfl) fun _ => (Block.retentionEnd_touches ..).weaken rfl
  case missingHeadersDone => exact .effect (fun _ => rfl) fun _ => (Block.missingHeadersDone_touches ..).weaken rfl
  case frameReceive =>
    exact .effect (fun _ => rfl) fun _ => .trans ((Block.frameReceive_touches ..).weaken rfl) (Block.modeFollow_touches ..) rfl
  case linkUp => exact .effect (fun _ => rfl) fun _ => (Block.linkUp_touches ..).weaken rfl
  case linkDown => exact .effect (fun _ => rfl) fun _ => (Block.linkDown_touches ..).weaken rfl
  case sfpChange => exact .effect (fun _ => rfl) fun _ => (Block.sfpChange_touches ..).weaken rfl
  case cagePower => exact .effect (fun _ => rfl) fun _ => (Block.cagePower_touches ..).weaken rfl
  case portCfgApply => exact .effect (fun _ => rfl) fun _ => (Block.portCfgApply_touches ..).weaken rfl
  case forwardEgress | frameTransmit => exact .effect (fun _ => rfl) fun _ => (Block.transmit_touches ..).weaken rfl
  case tcEntryTimeout => exact .effect (fun _ => rfl) fun _ => (Block.tcTimeout_touches ..).weaken rfl
  case largeSend => exact .effect (fun _ => rfl) fun _ => (Block.largeSend_touches ..).weaken rfl
  case udpFragmentSend => exact .effect (fun _ => rfl) fun _ => (Block.udpSend_touches ..).weaken rfl
  case streamFrameIngest => exact .effect (fun _ => rfl) fun _ => (Block.streamIngest_touches ..).weaken rfl
  case reassemblyTimeout => exact .always (fun _ => rfl) fun _ => (Block.reasmTimeout_touches ..).weaken rfl
  case injectionProcess => exact .always (fun _ => rfl) fun _ => (Block.inject_touches ..).weaken rfl
  case strCommit | alnCommit | outCommit | dfeCommit | rplCommit | islCommit | almCommit | timCommit | sdmCommit | nrgCommit |
    capCommit | memCommit | cmpCommit | evrCommit =>
    exact .master rfl (fun _ => rfl) rfl fun _ => (Block.commitBy_touches ..).weaken rfl
  case ctxRelearn =>
    exact .master rfl (fun _ => rfl) rfl fun _ => Block.atSel_touches _ _ _ _ _ fun _ => (Block.ctxRelearn_touches ..).weaken rfl
  case timedLaunch => exact .effect (fun _ => rfl) fun _ => (Block.timedLaunch_touches ..).weaken rfl
  case outBasinRelease => exact .effect (fun _ => rfl) fun _ => (Block.outRelease_touches ..).weaken rfl
  case sessOpen =>
    exact .master rfl (fun _ => rfl) rfl fun _ => Block.atSel_touches _ _ _ _ _ fun _ => (Block.sessOpen_touches ..).weaken rfl
  case sessClose =>
    exact .master rfl (fun _ => rfl) rfl fun _ => Block.atSel_touches _ _ _ _ _ fun _ => (Block.sessClose_touches ..).weaken rfl
  case sessReset =>
    exact .master rfl (fun _ => rfl) rfl fun _ => Block.atSel_touches _ _ _ _ _ fun _ => (Block.sessRst_touches ..).weaken rfl
  case sessSendAck =>
    exact .master rfl (fun _ => rfl) rfl fun _ => Block.atSel_touches _ _ _ _ _ fun _ => (Block.sessAckSend_touches ..).weaken rfl
  case sessAckWrite =>
    exact .master rfl (fun _ => rfl) rfl fun _ => Block.atSel_touches _ _ _ _ _ fun _ => (Block.sessAck_touches ..).weaken rfl
  case sessRetx =>
    exact .master rfl (fun _ => rfl) rfl fun _ => Block.atSel_touches _ _ _ _ _ fun _ => (Block.sessRetx_touches ..).weaken rfl
  case sessionSegmentSend => exact .effect (fun _ => rfl) fun _ => (Block.sessSegments_touches ..).weaken rfl
  case sessStallReset => exact .effect (fun _ => rfl) fun _ => (Block.sessStall_touches ..).weaken rfl
  case cmdDataOff | cmdDataOn =>
    exact .always (fun _ => rfl)
      fun _ => Block.outCmd_touches _ _ _ _ rfl (fun _ _ _ h => h.trans (Block.dataOn_touches ..) rfl)
      (fun _ _ h => h.trans (Block.cmdIgnored_touches ..) rfl)
  case cmdSendHeader =>
    exact .always (fun _ => rfl)
      fun _ => Block.outCmd_touches _ _ _ _ rfl (fun _ _ _ h => h.trans (Block.cmdAnswer_touches ..) rfl)
      (fun _ _ h => h.trans (Block.cmdIgnored_touches ..) rfl)
  case cmdSendCfg1 | cmdSendCfg2 =>
    exact .always (fun _ => rfl)
      fun _ => Block.outCmd_touches _ _ _ _ rfl (fun _ _ _ h => h.trans (Block.cfgAnswer_touches ..) rfl)
      (fun _ _ h => h.trans (Block.cmdIgnored_touches ..) rfl)
  case cmdSendCfg3 =>
    exact .always (fun _ => rfl)
      fun _ => Block.outCmd_touches _ _ _ _ rfl (fun _ _ _ h => h.trans (Block.cmdCfg3_touches ..) rfl)
      (fun _ _ h => h.trans (Block.cmdIgnored_touches ..) rfl)
  case cmdExtendedFrame =>
    exact .always (fun _ => rfl)
      fun _ => Block.outCmd_touches _ _ _ _ rfl (fun _ _ _ h => h.trans (Block.outNotice_touches ..) rfl)
      (fun _ _ h => h.trans (Block.cmdIgnored_touches ..) rfl)
  case cmdUnknown =>
    exact .always (fun _ => rfl)
      fun _ => Block.outCmd_touches _ _ _ _ rfl (fun _ _ _ h => (h.trans (Block.cmdIgnored_touches ..) rfl).trans (Block.eventRep_touches ..) rfl) (fun _ _ h => h.trans (Block.cmdIgnored_touches ..) rfl)
  case resendWindowExpiry => exact .effect (fun _ => rfl) fun _ => (Block.resendExpiry_touches ..).weaken rfl
  case firingDispatch => exact .always (fun _ => rfl) fun _ => (Block.dispatch_touches ..).weaken rfl
  case firingComplete =>
    exact .effect (fun _ => rfl) fun _ => .trans ((Block.complete_touches ..).weaken rfl) (Block.missSettled_touches ..) rfl
  case sluiceRelease =>
    exact .effect (fun _ => rfl) fun _ => .trans ((Block.sluiceRetry_touches ..).weaken rfl) (Block.missSettled_touches ..) rfl
  case dfeInject => exact .master rfl (fun _ => rfl) rfl fun _ => (Block.dfeInject_touches ..).weaken rfl
  case coreReleaseCmd =>
    exact .master rfl (fun _ => rfl) rfl fun _ => Block.atSel_touches _ _ _ _ _ fun _ => (Block.coreRelease_touches ..).weaken rfl
  case coreMemFault =>
    exact .effect (fun _ => rfl) fun _ => .trans ((Block.coreMemFault_touches ..).weaken rfl) (Block.missSettled_touches ..) rfl
  case coreHalt => exact .effect (fun _ => rfl) fun _ => (Block.coreHalt_touches ..).weaken rfl
  case coreResume => exact .effect (fun _ => rfl) fun _ => (Block.coreResume_touches ..).weaken rfl
  case ringdownEnd => exact .always (fun _ => rfl) fun _ => (Block.rdEnd_touches ..).weaken rfl
  case rdSkipElapsed => exact .always (fun _ => rfl) fun _ => (Block.rdSkip_touches ..).weaken rfl
  case gatherComplete => exact .always (fun _ => rfl) fun _ => (Block.gatherComplete_touches ..).weaken rfl
  case islPublish =>
    exact .always (fun _ => rfl) fun _ => .trans ((Block.islPublish_touches ..).weaken rfl) (Block.missSettled_touches ..) rfl
  case defResetCmd =>
    exact .master rfl (fun _ => rfl) rfl fun _ => Block.atSel_touches _ _ _ _ _ fun _ => (Block.defReset_touches ..).weaken rfl
  case aoPulseEnd => exact .effect (fun _ => rfl) fun _ => (Block.pulseOver_touches ..).weaken rfl
  case diChange => exact .effect (fun _ => rfl) fun _ => (Block.diChange_touches ..).weaken rfl
  case gooseRepeat => exact .effect (fun _ => rfl) fun _ => (Block.gooseRepeat_touches ..).weaken rfl
  case timeMeasurement =>
    exact .effect (fun _ => rfl) fun _ => Block.timed_touches _ _ (fun _ => (Block.timeMeasured_touches ..).weaken rfl) rfl
  case sourceQualified =>
    exact .effect (fun _ => rfl) fun _ => Block.timed_touches _ _ (fun _ => (Block.sourceQualified_touches ..).weaken rfl) rfl
  case sourceLost => exact .effect (fun _ => rfl) fun _ => Block.timed_touches _ _ (fun _ => (Block.sourceLoss_touches ..).weaken rfl) rfl
  case pdelayReqSend => exact .effect (fun _ => rfl) fun _ => (Block.pdelayReq_touches ..).weaken rfl
  case pdelayRespTimeout =>
    exact .effect (fun _ => rfl)
      fun _ => Block.timed_touches _ _ (fun _ => .trans ((Block.pdelayTimeout_touches ..).weaken rfl) (Block.modeFollow_touches ..) rfl) rfl
  case irigFrame =>
    exact .always (fun _ => rfl)
      fun _ => Block.timed_touches _ _ (fun _ => .trans ((Block.irigFrame_touches ..).weaken rfl) (Block.modeFollow_touches ..) rfl) rfl
  case ppsEdge =>
    exact .always (fun _ => rfl)
      fun _ => Block.timed_touches _ _ (fun _ => .trans ((Block.ppsEdge_touches ..).weaken rfl) (Block.modeFollow_touches ..) rfl) rfl
  case todSentence =>
    exact .always (fun _ => rfl)
      fun _ => Block.timed_touches _ _ (fun _ => .trans ((Block.todSentence_touches ..).weaken rfl) (Block.modeFollow_touches ..) rfl) rfl
  case oscSwitch => exact .always (fun _ => rfl) fun _ => Block.timed_touches _ _ (fun _ => (Block.oscSwitch_touches ..).weaken rfl) rfl
  case lockHoldElapsed =>
    exact .effect (fun _ => rfl)
      fun _ => Block.timed_touches _ _ (fun _ => .trans ((Block.lockHold_touches ..).weaken rfl) (Block.modeFollow_touches ..) rfl) rfl
  case holdoverErrorLimit =>
    exact .effect (fun _ => rfl)
      fun _ => Block.timed_touches _ _ (fun _ => .trans ((Block.errorLimit_touches ..).weaken rfl) (Block.modeFollow_touches ..) rfl) rfl
  case tbVrateWrite =>
    exact .master rfl (fun _ => rfl) rfl fun _ => Block.atSel_touches _ _ _ _ _
      fun _ => .trans ((Block.vrate_touches ..).weaken rfl) (Block.modeFollow_touches ..) rfl
  case tbVstepWrite =>
    exact .master rfl (fun _ => rfl) rfl fun _ => Block.atSel_touches _ _ _ _ _ fun _ => (Block.vstepAct_touches ..).weaken rfl
  case leapSecond => exact .always (fun _ => rfl) fun _ => (Block.leapSecond_touches ..).weaken rfl
  case pulseEdge => exact .effect (fun _ => rfl) fun _ => (Block.pulseEdge_touches ..).weaken rfl
  case pulseEnd => exact .effect (fun _ => rfl) fun _ => (Block.pulseEndAt_touches ..).weaken rfl
  case timShadowHandover =>
    exact .always (fun _ => rfl)
      fun _ => Block.timed_touches _ _ (fun _ => .trans ((Block.timHandover_touches ..).weaken rfl) (Block.modeFollow_touches ..) rfl) rfl
  case decimatorOutput => exact .effect (fun _ => rfl) fun _ => (Block.decimatorOutput_touches ..).weaken rfl
  case sdmSyncCmd => exact .master rfl (fun _ => rfl) rfl fun _ => (Block.sdmSyncAt_touches ..).weaken rfl
  case syncReset => exact .always (fun _ => rfl) fun _ => (Block.sdmSyncDue_touches ..).weaken rfl
  case chFault => exact .effect (fun _ => rfl) fun _ => (Block.chFault_touches ..).weaken rfl
  case chRecover => exact .effect (fun _ => rfl) fun _ => (Block.chRecover_touches ..).weaken rfl
  case localRecordHandover => exact .effect (fun _ => rfl) fun _ => (Block.localRecord_touches ..).weaken rfl
  case zeroCrossing => exact .effect (fun _ => rfl) fun _ => (Block.zeroCrossing_touches ..).weaken rfl
  case zcTimeout => exact .effect (fun _ => rfl) fun _ => (Block.zcTimeout_touches ..).weaken rfl
  case nrgSnap => exact .master rfl (fun _ => rfl) rfl fun _ => (Block.nrgSnap_touches ..).weaken rfl
  case nrgClear =>
    exact .master rfl (fun _ => rfl) rfl fun _ => Block.atSel_touches _ _ _ _ _ fun _ => (Block.nrgClear_touches ..).weaken rfl
  case periodicSave => exact .always (fun _ => rfl) fun _ => (Block.periodicSave_touches ..).weaken rfl
  case energySaveDone => exact .always (fun _ => rfl) fun _ => (Block.saveDone_touches ..).weaken rfl
  case captureForce =>
    exact .master rfl (fun _ => rfl) rfl fun _ => Block.atSel_touches _ _ _ _ _ fun _ => (Block.capForce_touches ..).weaken rfl
  case captureRelease =>
    exact .master rfl (fun _ => rfl) rfl fun _ => Block.atSel_touches _ _ _ _ _ fun _ => (Block.capRelease_touches ..).weaken rfl
  case trgInputEdge => exact .effect (fun _ => rfl) fun _ => (Block.trgEdge_touches ..).weaken rfl
  case captureSeal => exact .effect (fun _ => rfl) fun _ => (Block.capSealNow_touches ..).weaken rfl
  case holdoffEnd => exact .effect (fun _ => rfl) fun _ => (Block.capHoldoffEnd_touches ..).weaken rfl
  case busAct => exact .always (fun _ => rfl) fun _ => (Block.busAct_touches ..).weaken rfl
  case radioSlot => exact .always (fun _ => rfl) fun _ => (Block.radioSlot_touches ..).weaken rfl
  case uplinkFrame => exact .effect (fun _ => rfl) fun _ => (Block.uplinkFrame_touches ..).weaken rfl
  case uplinkMissed => exact .effect (fun _ => rfl) fun _ => (Block.uplinkMissed_touches ..).weaken rfl
  case downlinkAcked => exact .effect (fun _ => rfl) fun _ => (Block.downlinkAcked_touches ..).weaken rfl
  case downlinkUnacked => exact .effect (fun _ => rfl) fun _ => (Block.downlinkUnacked_touches ..).weaken rfl
  case dlPost =>
    exact .master rfl (fun _ => rfl) rfl fun _ => Block.ifRadio_touches _ _ (Block.atSel_touches _ _ _ _ _
      fun _ => (Block.dlPost_touches ..).weaken rfl)
  case pendSet | pendClr =>
    exact .master rfl (fun _ => rfl) rfl fun _ => Block.ifRadio_touches _ _ ((Block.pendWrite_touches ..).weaken rfl)
  case parentFrame => exact .always (fun _ => rfl) fun _ => (Block.parentFrame_touches ..).weaken rfl
  case parentGuardWiden => exact .always (fun _ => rfl) fun _ => (Block.guardWiden_touches ..).weaken rfl
  case parentScan => exact .always (fun _ => rfl) fun _ => (Block.parentScan_touches ..).weaken rfl
  case radCommit => exact .master rfl (fun _ => rfl) rfl fun _ => Block.ifRadio_touches _ _ ((Block.commitBy_touches ..).weaken rfl)
  case correctedError => exact .effect (fun _ => rfl) fun _ => (Block.corrected_touches ..).weaken rfl
  case uncorrectableError =>
    exact .effect (fun _ => rfl)
      fun _ => .ite ((Block.hostCacheError_touches ..).weaken rfl) ((Block.uncorrectable_touches ..).weaken rfl)
  case ceWriteback => exact .effect (fun _ => rfl) fun _ => (Block.writeback_touches ..).weaken rfl
  case scrubStep => exact .effect (fun _ => rfl) fun _ => (Block.scrubStep_touches ..).weaken rfl
  case scrubStarved => exact .effect (fun _ => rfl) fun _ => (Block.scrubStarved_touches ..).weaken rfl
  case remapCmd => exact .master rfl (fun _ => rfl) rfl fun _ => (Block.remapCmd_touches ..).weaken rfl
  case remapErase => exact .master rfl (fun _ => rfl) rfl fun _ => (Block.remapErase_touches ..).weaken rfl
  case diagRawRead => exact .master rfl (fun _ => rfl) rfl fun _ => (Block.diagRead_touches ..).weaken rfl
  case diagRawWrite | diagDataWrite | diagCheckWrite =>
    exact .master rfl (fun _ => rfl) rfl fun _ => (Block.diagWrite_touches ..).weaken rfl
  case dmaStart => exact .master rfl (fun _ => rfl) rfl fun _ => Block.dmaGuard_touches _ _ _ rfl ((Block.dmaStart_touches ..).weaken rfl)
  case dmaCommit =>
    exact .master rfl (fun _ => rfl) rfl fun _ => Block.dmaGuard_touches _ _ _ rfl ((Block.dmaCommit_touches ..).weaken rfl)
  case dmaClearHalt =>
    exact .master rfl (fun _ => rfl) rfl fun _ => Block.dmaGuard_touches _ _ _ rfl ((Block.dmaClearHalt_touches ..).weaken rfl)
  case dmaChannelRun => exact .effect (fun _ => rfl) fun _ => (Block.dmaGo_touches ..).weaken rfl
  case dmaChannelComplete => exact .effect (fun _ => rfl) fun _ => (Block.dmaFinish_touches ..).weaken rfl
  case queueFlush => exact .master rfl (fun _ => rfl) rfl fun _ => (Block.flush_touches ..).weaken rfl
  case queueEnable => exact .master rfl (fun _ => rfl) rfl fun _ => (Block.queueCfg_touches ..).weaken rfl
  case queueDisable => exact .master rfl (fun _ => rfl) rfl fun _ => .ite ((Block.queueDisable_touches ..).weaken rfl) .refl
  case archiveFrameStart => exact .effect (fun _ => rfl) fun _ => (Block.archStart_touches ..).weaken rfl
  case archiveSegmentWrite => exact .effect (fun _ => rfl) fun _ => (Block.archSegment_touches ..).weaken rfl
  case cmpResume => exact .master rfl (fun _ => rfl) rfl fun _ => (Block.cmpResume_touches ..).weaken rfl
  case cmpJobGo => exact .master rfl (fun _ => rfl) rfl fun _ => (Block.jobGo_touches ..).weaken rfl
  case cmpJobStart => exact .always (fun _ => rfl) fun _ => (Block.jobStart_touches ..).weaken rfl
  case cmpJobDone => exact .always (fun _ => rfl) fun _ => (Block.jobDone_touches ..).weaken rfl
  case cmpCtxReset =>
    exact .master rfl (fun _ => rfl) rfl fun _ => Block.atSel_touches _ _ _ _ _ fun _ => (Block.ctxReset_touches ..).weaken rfl
  case tabuskFrameRx =>
    exact .effect (fun _ => rfl) fun _ => .trans ((Block.casReceive_touches ..).weaken rfl) (Block.modeFollow_touches ..) rfl
  case tabuskLinkDown =>
    exact .effect (fun _ => rfl) fun _ => .trans ((Block.casLinkDown_touches ..).weaken rfl) (Block.modeFollow_touches ..) rfl
  case tabuskLinkUp => exact .effect (fun _ => rfl) fun _ => (Block.casLinkUp_touches ..).weaken rfl
  case timeFrameSend => exact .always (fun _ => rfl) fun _ => (Block.timeFrameSend_touches ..).weaken rfl
  case delayExchange => exact .effect (fun _ => rfl) fun _ => (Block.delayExchange_touches ..).weaken rfl
  case memberLost => exact .effect (fun _ => rfl) fun _ => (Block.memberLost_touches ..).weaken rfl
  case timeFault => exact .always (fun _ => rfl) fun _ => (Block.timeFault_touches ..).weaken rfl
  case renewSend => exact .always (fun _ => rfl) fun _ => (Block.renewSend_touches ..).weaken rfl
  case heartbeatRenewRx => exact .effect (fun _ => rfl) fun _ => (Block.renewRx_touches ..).weaken rfl
  case heartbeatAckRx => exact .effect (fun _ => rfl) fun _ => (Block.ackRx_touches ..).weaken rfl
  case heartbeatFailRx => exact .effect (fun _ => rfl) fun _ => (Block.failRx_touches ..).weaken rfl
  case heartbeatReleaseRx => exact .effect (fun _ => rfl) fun _ => (Block.releaseRx_touches ..).weaken rfl
  case heartbeatHelloRx => exact .effect (fun _ => rfl) fun _ => (Block.helloRx_touches ..).weaken rfl
  case heartbeatNakRx => exact .effect (fun _ => rfl) fun _ => (Block.nakRx_touches ..).weaken rfl
  case pathDown => exact .effect (fun _ => rfl) fun _ => (Block.pathDown_touches ..).weaken rfl
  case leaseExpiry => exact .always (fun _ => rfl) fun _ => (Block.leaseExpiry_touches ..).weaken rfl
  case takeoverTimeout => exact .always (fun _ => rfl) fun _ => (Block.takeoverTimeout_touches ..).weaken rfl
  case checkpointRx => exact .always (fun _ => rfl) fun _ => (Block.checkpointRx_touches ..).weaken rfl
  case restoreDone => exact .always (fun _ => rfl) fun _ => (Block.restoreDone_touches ..).weaken rfl
  case roleListenEnd => exact .always (fun _ => rfl) fun _ => (Block.listenOver_touches ..).weaken rfl
  case redHandoverCmd => exact .master rfl (fun _ => rfl) rfl fun _ => (Block.handoverCmd_touches ..).weaken rfl
  case failbackHolddownEnd => exact .always (fun _ => rfl) fun _ => (Block.failbackEnd_touches ..).weaken rfl
  case handoverControlRx => exact .always (fun _ => rfl) fun _ => (Block.controlRx_touches ..).weaken rfl
  case handoverOutputStop => exact .always (fun _ => rfl) fun _ => (Block.handoverStop_touches ..).weaken rfl
  case loadSecret | eraseSecret | setEpoch | setOwner | debugAuth =>
    exact .master rfl (fun _ => rfl) rfl fun _ => .ite ((Block.keyUpdate_touches ..).weaken rfl) .refl
  case keyInstall => exact .always (fun _ => rfl) fun _ => (Block.keyInstall_touches ..).weaken rfl
  case tamperEvent => exact .always (fun _ => rfl) fun _ => (Block.tamper_touches ..).weaken rfl
  case accRelease => exact .master rfl (fun _ => rfl) rfl fun _ => .ite ((Block.accRelease_touches ..).weaken rfl) .refl
  case eventEntryWrite => exact .always (fun _ => rfl) fun _ => (Block.entryWrite_touches ..).weaken rfl
  case evrFreeze => exact .master rfl (fun _ => rfl) rfl fun _ => (Block.evrFreeze_touches ..).weaken rfl
  case evrThaw => exact .master rfl (fun _ => rfl) rfl fun _ => (Block.evrThaw_touches ..).weaken rfl
  case freezeTimeout => exact .always (fun _ => rfl) fun _ => (Block.freezeTimeout_touches ..).weaken rfl
  case evrClear => exact .master rfl (fun _ => rfl) rfl fun _ => (Block.evrClear_touches ..).weaken rfl
  case clrUnlock => exact .master rfl (fun _ => rfl) rfl fun _ => (Block.clrUnlock_touches ..).weaken rfl
  case modeReqMaintenance | modeReqActive | modeReqDebug | modeReqHalt | modeReqInvalid =>
    exact .master rfl (fun _ => rfl) rfl fun _ => (Block.modeReq_touches ..).weaken rfl
  case powerOn => exact .always (fun _ => rfl) fun _ => (Block.powerOn_touches ..).weaken rfl
  case loadComplete => exact .always (fun _ => rfl) fun _ => (Block.loadComplete_touches ..).weaken rfl
  case selftestDone => exact .always (fun _ => rfl) fun _ => (Block.selftestDone_touches ..).weaken rfl
  case haltRestart => exact .always (fun _ => rfl) fun _ => (Block.haltRestart_touches ..).weaken rfl
  case imageConfirm => exact .always (fun _ => rfl) fun _ => (Block.imageConfirm_touches ..).weaken rfl
  case tuningSet => exact .master rfl (fun _ => rfl) rfl fun _ => (Block.tuningSet_touches ..).weaken rfl
  case imageVerify => exact .master rfl (fun _ => rfl) rfl fun _ => (Block.imageVerify_touches ..).weaken rfl
  case imageSwitch => exact .master rfl (fun _ => rfl) rfl fun _ => (Block.imageSwitch_touches ..).weaken rfl
  case dieResetReq => exact .master rfl (fun _ => rfl) rfl fun _ => (Block.dieResetReq_touches ..).weaken rfl
  case hostResetReq => exact .master rfl (fun _ => rfl) rfl fun _ => (Block.hostResetReq_touches ..).weaken rfl
  case powerFailWarning => exact .always (fun _ => rfl) fun _ => (Block.powerFail_touches ..).weaken rfl
  case saveComplete => exact .always (fun _ => rfl) fun _ => (Block.saveComplete_touches ..).weaken rfl
  case tempSample => exact .always (fun _ => rfl) fun _ => (Block.tempSample_touches ..).weaken rfl
  case holdupTest => exact .always (fun _ => rfl) fun _ => (Block.holdupTest_touches ..).weaken rfl
  case holdupTestDone => exact .always (fun _ => rfl) fun _ => (Block.holdupTestDone_touches ..).weaken rfl
  case supplyGoodChange => exact .always (fun _ => rfl) fun _ => (Block.supplyGood_touches ..).weaken rfl
  case busTimeout => exact .effect (fun _ => rfl) fun _ => (Block.busTimeout_touches ..).weaken rfl
  case qspiErase | qspiProgram => exact .master rfl (fun _ => rfl) rfl fun _ => (Block.qspiCmd_touches ..).weaken rfl
  case qspiDone => exact .always (fun _ => rfl) fun _ => (Block.qspiDone_touches ..).weaken rfl
  case wdogKick => exact .master rfl (fun _ => rfl) rfl fun _ => (Block.wdogKick_touches ..).weaken rfl
  case hostWatchdogExpiry => exact .always (fun _ => rfl) fun _ => (Block.wdogExpiry_touches ..).weaken rfl
  case machineTimerInterrupt => exact .effect (fun _ => rfl) fun _ => (Block.timerDue_touches ..).weaken rfl
  case leapTableExpiry => exact .always (fun _ => rfl) fun _ => (Block.leapExpiry_touches ..).weaken rfl
  case sdmShadowHandover => exact .always (fun _ => rfl) fun _ => (Block.sdmShadow_touches ..).weaken rfl
  case filterEntryCommit => exact .master rfl (fun _ => rfl) rfl fun _ => Block.regWrite_touches ..
  case acceleratorSolveDone => exact .always (fun _ => rfl) fun _ => .ite .refl ((Block.solveComplete_touches ..).weaken rfl)
  case accViolation => exact .effect (fun _ => rfl) fun _ => .ite ((Block.violate_touches ..).weaken rfl) .refl
  case registerWrite => exact .effect (fun _ => rfl) fun _ => Block.masterWrite_touches ..
  case rcRead | latchingRead =>
    refine ⟨_, _, fun _ => rfl, fun b _ hp => ?_⟩
    obtain ⟨hr, ha⟩ := hp _ rfl
    exact Block.masterRead_permitted_touches hr ha rfl ((Block.busLoad_touches ..).weaken rfl)
  case tbNowRead =>
    refine ⟨_, _, fun _ => rfl, fun b _ hp => ?_⟩
    obtain ⟨hr, ha⟩ := hp _ rfl
    exact Block.masterRead_permitted_touches hr ha rfl ((Block.busLoad_control_touches b _ (o := 0x10058) (by decide) rfl rfl).weaken rfl)
  case nrgCounterRead t m i =>
    refine ⟨_, _, fun _ => rfl, fun b hw hp => ?_⟩
    obtain ⟨hr, ha⟩ := hp _ rfl
    have hi : i < 32 := of_decide_eq_true (Bool.and_eq_true_iff.mp hw).2
    have e : 0xF00B0100 + 4 * i = 0xF0000000 + (0xB0100 + 4 * i) := by omega
    refine Block.masterRead_permitted_touches hr ha rfl ?_
    rw [e]
    exact (Block.busLoad_control_touches b m (by omega) (by omega) (by unfold queueReg; simp; omega)).weaken rfl
  case plicClaim =>
    refine ⟨_, _, fun _ => rfl, fun b hw hp => ?_⟩
    obtain ⟨hr, ha⟩ := hp _ rfl
    rw [Block.masterRead_claim (of_decide_eq_true hw) hr ha]
    exact .trans ((Block.plicRead_touches ..).weaken rfl) (Block.answer_touches ..) rfl
  case plicComplete =>
    refine ⟨_, _, fun _ => rfl, fun b hw hp => ?_⟩
    obtain ⟨hr, ha⟩ := hp _ rfl
    rw [Block.masterWrite_claim (of_decide_eq_true hw) hr ha]
    exact .trans ((Block.plicWrite_touches ..).weaken rfl) (Block.answer_touches ..) rfl
  case queuePush | queuePushEop =>
    exact .queue rfl (fun _ => rfl) fun _ => .trans ((Block.push_touches ..).weaken rfl) (Block.answer_touches ..) rfl
  case queuePop =>
    exact .queue rfl (fun _ => rfl) fun _ => .trans ((Block.queueFound_touches ..).weaken rfl) (Block.pop_touches ..) rfl
  case queueTrypop =>
    exact .queue rfl (fun _ => rfl) fun _ => .trans ((Block.queueFound_touches ..).weaken rfl) (Block.trypop_touches ..) rfl

/-- Every command may let time pass. -/
theorem Part.t7_mem_parts (c : Instr) : Parts.sub [.t7] c.parts = true := by cases c <;> rfl

/-- What a meaning touches, with the time that passes. -/
theorem Acts.completes {c : Instr} (h : Acts (exec c) w p l) (hl : Parts.sub [.t7] l = true) {s : State} (hp : ∀ t, p (s.blk.clock t)) :
    Completes c s (Touches l s.blk) := by
  obtain ⟨t, f, hc, hf⟩ := h
  have hclock : Touches l s.blk (s.blk.clock t) := (Block.clock_touches ..).weaken hl
  cases hw : w with
  | true => exact ⟨_, (hc s).trans (State.runIf_eq s hw t f), rfl, hclock.trans (hf _ hw (hp t)) (Parts.sub_self _)⟩
  | false => exact ⟨_, (hc s).trans (State.runIf_idle s hw t f), rfl, hclock⟩

/-- A command that makes no access. -/
theorem Frame.of_no_access {c : Instr} (h : c.busUse = none) : Frame c c.parts :=
  fun _ => (exec_acts c).completes (Part.t7_mem_parts c) fun _ _ ha => nomatch h.symm.trans ha

/-- A command that makes an access. -/
theorem FrameIf.of_access {c : Instr} {a : BusUse} (h : c.busUse = some a) :
    FrameIf c (fun s => s.blk.masterReady a.m = true ∧ a.permitted s.blk = true) c.parts := by
  refine fun s hp => (exec_acts c).completes (Part.t7_mem_parts c) fun _ a' ha => ?_
  cases h.symm.trans ha
  exact hp

theorem FrameIf.of_mayWrite {c : Instr} {m blk off : Nat} (h : c.busUse = some ⟨t, m, 0xF0000000 + 65536 * blk + off, 4, true, none⟩) :
    FrameIf c (fun s => s.blk.mayWrite m blk off) c.parts :=
  fun s hp => FrameIf.of_access h s hp.2

theorem FrameIf.of_mayRead {c : Instr} {m blk off : Nat} (h : c.busUse = some ⟨t, m, 0xF0000000 + 65536 * blk + off, 4, false, none⟩) :
    FrameIf c (fun s => s.blk.mayRead m blk off) c.parts :=
  fun s hp => FrameIf.of_access h s hp.2

theorem FrameIf.of_mayUse {c : Instr} {m q reg : Nat} {wr : Bool} (h : c.busUse = some ⟨t, m, queueAddr reg, 8, wr, some q⟩) :
    FrameIf c (fun s => s.blk.mayUse m q reg wr) c.parts := by
  rintro s ⟨-, -, hr, hp, hq⟩
  exact FrameIf.of_access h s ⟨hr, Bool.and_eq_true_iff.mpr ⟨hp, hq⟩⟩

/-- The read of a control register by a master, whichever command makes it. -/
theorem FrameIf.controlRead {c : Instr} {m o : Nat} (he : ∀ s, exec c s = s.runIf w t (fun b => b.masterRead m (0xF0000000 + o) 4))
    (h : o < 0x1000000) (ha : o % 4 = 0) (hq : queueReg o = false) :
    FrameIf c (fun s => s.blk.masterReady m = true ∧ s.blk.accOk m (0xF0000000 + o) 4 false = true)
      [.t7, .vis, .resp, .latch, .pwr, .tim, .dfe, .nrg] := by
  intro s ⟨hr, hp⟩
  refine Acts.completes (p := fun b => b.masterReady m = true ∧ b.accOk m (0xF0000000 + o) 4 false = true) ⟨t, _, he, ?_⟩ rfl
    (fun _ => ⟨hr, hp⟩)
  exact fun b _ hb => Block.masterRead_permitted_touches hb.1 hb.2 rfl ((Block.busLoad_control_touches b m h ha hq).weaken rfl)

/-- A write by a master may reach every part, so a blocked one is no exception. -/
theorem registerWrite_frame (t m addr width value : Nat) : Frame (.registerWrite t m addr width value) Part.all :=
  fun _ => Acts.completes (p := fun _ => True) (.effect (fun _ => rfl) fun _ => Block.masterWrite_touches ..) rfl fun _ => trivial

/-- The report of a violation has its own frame, whether the access is blocked or not. -/
theorem accViolation_frame (t m addr size : Nat) (wr : Bool) :
    Frame (.accViolation t m addr size wr) (Instr.parts (.accViolation t m addr size wr)) := by
  have he (s : State) : exec (.accViolation t m addr size wr) s = s.runIf (Wf.master m && Wf.width size) t
      (fun b => if b.masterReady m && !b.accOk m addr size wr then b.violate m addr size wr else b) := rfl
  exact fun _ => Acts.completes (p := fun _ => True) (.effect he fun _ => .ite ((Block.violate_touches ..).weaken rfl) .refl) rfl
    fun _ => trivial

/-! ### The statements -/

/-- Settles O51: each command by its parts, the reads of control registers by what such a read may touch. -/
theorem framesOfTheCycleAndPorts : Obligations.FramesOfTheCycleAndPorts := by
  refine ⟨registerWrite_frame, fun t m addr n => FrameIf.of_access (c := .rcRead t m addr n) rfl, fun _ _ _ => FrameIf.controlRead fun _ => rfl,
    fun t m addr n => FrameIf.of_access (c := .latchingRead t m addr n) rfl, fun _ _ _ => FrameIf.controlRead fun _ => rfl, ?_⟩
  and_intros <;> intros
  all_goals first | exact Frame.of_no_access rfl | exact FrameIf.of_mayWrite rfl

/-- Settles O52: each command by its parts. -/
theorem framesOfOutputAndFabric : Obligations.FramesOfOutputAndFabric := by
  unfold Obligations.FramesOfOutputAndFabric
  and_intros <;> intros
  all_goals first | exact Frame.of_no_access rfl | exact FrameIf.of_mayWrite rfl

/-- The frame of a read of an energy counter, by the counter's offset. -/
theorem nrgCounterRead_frame (t m i : Nat) :
    FrameIf (.nrgCounterRead t m i) (fun s => s.blk.mayRead m 11 (0x100 + 4 * i)) (Instr.parts (.nrgCounterRead t m i)) := by
  refine FrameIf.of_mayRead (t := t) ?_
  rw [← Nat.add_assoc]
  rfl

/-- Settles O53: each command by its parts. -/
theorem framesOfTimeAndMeasurement : Obligations.FramesOfTimeAndMeasurement := by
  unfold Obligations.FramesOfTimeAndMeasurement
  and_intros <;> intros
  all_goals first | exact Frame.of_no_access rfl | exact FrameIf.of_mayWrite rfl | exact FrameIf.of_mayRead rfl | apply nrgCounterRead_frame

/-- Settles O54: each command by its parts. -/
theorem framesOfMemoryRadioAndArchive : Obligations.FramesOfMemoryRadioAndArchive := by
  unfold Obligations.FramesOfMemoryRadioAndArchive
  and_intros <;> intros
  all_goals first | exact Frame.of_no_access rfl | exact FrameIf.of_mayWrite rfl | exact FrameIf.of_mayUse rfl

/-- Settles O55: each command by its parts. -/
theorem framesOfPairsAndGuards : Obligations.FramesOfPairsAndGuards := by
  unfold Obligations.FramesOfPairsAndGuards
  and_intros
  all_goals first | (intros; exact Frame.of_no_access rfl) | (intros; exact FrameIf.of_mayWrite rfl) | exact accViolation_frame

/-- Settles O56: each command by its parts. -/
theorem framesOfModesAndTheBus : Obligations.FramesOfModesAndTheBus := by
  unfold Obligations.FramesOfModesAndTheBus
  and_intros
  all_goals first | (intros; exact Frame.of_no_access rfl) | (intros; exact FrameIf.of_mayWrite rfl) | skip
  · exact fun t h => FrameIf.of_access (c := .plicClaim t h) rfl
  · exact fun t h i => FrameIf.of_access (c := .plicComplete t h i) rfl

/-! ### The invariant -/

theorem Completes.imp {c : Instr} {s : State} {P Q : Block → Prop} (h : Completes c s P) (k : ∀ b, P b → Q b) : Completes c s Q := by
  obtain ⟨u, hu, hq, hp⟩ := h
  exact ⟨u, hu, hq, k _ hp⟩

/-- Every command in every state keeps the memories' form: one whose access is permitted touches its parts, a violation touches its own, and
one that waits nothing. -/
theorem exec_keeps_memWf (c : Instr) (s : State) : Completes c s (fun b => Memory.wf s.blk.mem = true → Memory.wf b.mem = true) := by
  cases hu : c.busUse with
  | none => exact (Frame.of_no_access hu s).imp fun _ h => h.memWf
  | some a =>
    cases hw : c.wf with
    | false =>
      obtain ⟨f, -, hc⟩ := exec_behind hu
      exact ⟨_, (hc s).trans (State.runIf_idle s hw ..), rfl, id⟩
    | true =>
      cases hr : s.blk.masterReady a.m with
      | false => exact (blockedAccessesDoNothingElse.2 c a s hu hw hr).imp fun b h => h ▸ id
      | true =>
        cases hp : a.permitted s.blk with
        | false => exact (blockedAccessesDoNothingElse.1 c a s hu hw hr hp).imp fun b h => h ▸ (Block.violate_touches (s.at a.t) ..).memWf
        | true => exact (FrameIf.of_access hu s ⟨hr, hp⟩).imp fun _ h => h.memWf

/-- Settles O6: the command at the front keeps the memories' form, and leaves the queue's rest. -/
theorem everyStepKeepsTheInvariant : Obligations.EveryStepKeepsTheInvariant := by
  rintro ⟨b, l⟩ ⟨hm, hq⟩
  cases l with
  | nil => exact ⟨_, rfl, ⟨hm, hq⟩, rfl⟩
  | cons c r =>
    obtain ⟨u, hu, hl, hk⟩ := exec_keeps_memWf c ⟨b, r⟩
    have hr : r.all Instr.wf = true := by
      simp only [State.queueWf, List.all_cons, Bool.and_eq_true] at hq
      exact hq.2
    exact ⟨u, hu, ⟨hk hm, show u.pending.all Instr.wf = true from hl ▸ hr⟩, hl⟩

end Sys2Proof.Machine
end

section
/-! PROOFS. The mover that switches the image while TEST_ROOT is set (O59, O60), a pop that finds an error in its slot (O58). -/

/- One declaration after the other: the text is checked as one, with room for few threads. -/
set_option Elab.async false

namespace Sys2Proof.Machine

/-- `switchByMover` while TEST_ROOT is set. -/
def switchUnderTestRoot : State :=
  { switchByMover with blk := { switchByMover.blk with key := { switchByMover.blk.key with testRoot := true } } }

/-- The die reset that the mover's write begins clears TEST_ROOT (R411). -/
theorem switchUnderTestRoot_run : ((switchUnderTestRoot.at 0).dmaGo 0).key.testRoot = false := by decide +kernel

theorem exec_switchUnderTestRoot :
    exec (.dmaChannelRun 0 0) switchUnderTestRoot = .next { switchUnderTestRoot with blk := (switchUnderTestRoot.at 0).dmaGo 0 } :=
  State.runIf_eq switchUnderTestRoot (c := Wf.engine 0) rfl 0 (fun b => b.dmaGo 0)

/-- Refutes O59: DMA_CHANNEL_RUN is not among the commands that may change the keys, but the mover that it runs writes registers. In
`switchUnderTestRoot` it writes SYS.IMG_CMD[SWITCH], and the die reset clears TEST_ROOT. -/
theorem not_secretsChangeOnlyByTheirCommands : ¬ Obligations.SecretsChangeOnlyByTheirCommands := by
  intro h
  have hkey : ((switchUnderTestRoot.at 0).dmaGo 0).key = switchUnderTestRoot.blk.key := h (.dmaChannelRun 0 0) switchUnderTestRoot { switchUnderTestRoot with blk := _ } rfl exec_switchUnderTestRoot
  have hroot := switchUnderTestRoot_run
  rw [hkey] at hroot
  exact Bool.noConfusion hroot

/-- Refutes O60: DMA_CHANNEL_RUN is not among the commands that may reset the die, but the mover that it runs does so in
`switchUnderTestRoot`, and TEST_ROOT does not stay set. -/
theorem not_testRootEndsWithAZeroisation : ¬ Obligations.TestRootEndsWithAZeroisation := by
  rintro ⟨hstays, -⟩
  have hroot := hstays (.dmaChannelRun 0 0) switchUnderTestRoot _ rfl exec_switchUnderTestRoot rfl
  rw [switchUnderTestRoot_run] at hroot
  exact Bool.noConfusion hroot

/-! ### A pop that finds an error (R327, R335) -/

/-- With the bus open to every master and the privileged-queue right for master 0: queue 1 holds one item, in slot 1, and every byte of the slot has data 0
and check bits `c`. -/
def itemWithCheckBits (c : Nat) : State :=
  let b := [(Reg.ACC_RGN_LIMIT, 0, 0xFFFFFFFF), (Reg.ACC_RGN_PERM, 0, 0x80003F3F), (Reg.ACC_MST_CFG, 0, 1), (Reg.QUE_CFG, 1, 0x80010000)].foldl
    (fun (b : Block) (e : RegDesc × Nat × Nat) => b.setBoth e.1 e.2.1 0 (w32 e.2.2)) Block.reset
  let b := b.setQueue 1 { Queue.reset with items := [⟨0, true, false⟩], rd := 1 }
  { State.reset with blk := b.keepRaw 5 1 (0, c * 0x842108421) }

theorem itemWithCheckBits_may : ∀ c < 3,
    (itemWithCheckBits c).blk.masterReady 0 = true ∧ (itemWithCheckBits c).blk.permits 0 (queueAddr 0x58) 8 false = true ∧
    bit ((itemWithCheckBits c).blk.vis Reg.ACC_MST_CFG 0).toNat 0 = true := by decide +kernel

/-- Three check patterns, so one is neither the code of 0 nor the reserved pattern. -/
theorem exists_wrong_checkBits : ∃ c < 3, c ≠ Config.bytePoison.toNat ∧ c ≠ (Config.byteCode 0#8).toNat := by
  by_contra h
  push Not at h
  have h0 := h 0
  have h1 := h 1
  have h2 := h 2
  omega

/-- Such a byte has an error. -/
theorem byteRead_wrong {c : Nat} (hp : c ≠ Config.bytePoison.toNat) (hc : c ≠ (Config.byteCode 0#8).toNat) :
    (∃ v, byteRead 0 c = .fixed v) ∨ byteRead 0 c = .lost := by
  unfold byteRead
  dsimp only
  rw [if_neg hp, if_neg hc]
  split
  · exact .inl ⟨_, rfl⟩
  · split
    · exact .inl ⟨_, rfl⟩
    · exact .inr rfl

theorem itemWithCheckBits_reads : ∀ c < 3, unitRead 5 (0, c * 0x842108421) = List.replicate 8 (byteRead 0 c) := by
  intro c hc
  obtain rfl | rfl | rfl : c = 0 ∨ c = 1 ∨ c = 2 := by omega
  all_goals rfl

theorem itemWithCheckBits_slot : ∀ c < 3, ((itemWithCheckBits c).at 0).qen 1 = true ∧ (((itemWithCheckBits c).at 0).queue 1).items ≠ [] ∧
    ((itemWithCheckBits c).at 0).slotByte 1 (((itemWithCheckBits c).at 0).queue 1).rd = 8 ∧ ((itemWithCheckBits c).at 0).mem.raw ≠ [] := by
  decide +kernel

/-- The read of the item is the read of its word. -/
theorem itemWithCheckBits_found {c : Nat} (hc : c < 3) :
    ((itemWithCheckBits c).at 0).queueFound 1 = ((itemWithCheckBits c).at 0).unitFound 5 1 8 8 := by
  obtain ⟨hen, hitems, hslot, hraw⟩ := itemWithCheckBits_slot c hc
  unfold Block.queueFound Block.rangeFound
  dsimp only
  rw [if_neg (by simp [hen, hitems]), if_neg (by rw [not_or]; exact ⟨hraw, by decide⟩), hslot, show Mem.unitBytes 5 = 8 from rfl,
    show (8 + 8 - 1) / 8 + 1 - 8 / 8 = 1 from rfl, List.range_one, List.foldl_cons, List.foldl_nil]

/-- A correctable error waits for its writeback. -/
theorem itemWithCheckBits_corrected : ∀ c < 3, ((((itemWithCheckBits c).at 0).corrected 5 1).munit 5).lastCe = 8 := by decide +kernel

/-- The last of the bytes that are lost is recorded. -/
theorem itemWithCheckBits_lost : ∀ c < 3,
    (((List.range 8).foldl (fun b i => b.uncorrectable 5 (8 + i)) ((itemWithCheckBits c).at 0)).munit 5).lastUe = 15 := by decide +kernel

/-- The two records of an error that a memory keeps: the addresses of the last corrected and of the last uncorrectable one. -/
def Block.lastErrors (b : Block) (m : Nat) : Nat × Nat := ((b.munit m).lastCe, (b.munit m).lastUe)

/-- A read of a unit whose parts all hold the same error leaves a record of it. -/
theorem itemWithCheckBits_recorded {c : Nat} (hc : c < 3) (hp : c ≠ Config.bytePoison.toNat) (hk : c ≠ (Config.byteCode 0#8).toNat) :
    (((itemWithCheckBits c).at 0).queueFound 1).lastErrors 5 ≠ (0, 0) := by
  have hraw : ((itemWithCheckBits c).at 0).rawAt 5 1 = some (0, c * 0x842108421) := rfl
  rw [itemWithCheckBits_found hc]
  unfold Block.unitFound
  rw [hraw]
  dsimp only
  rw [itemWithCheckBits_reads c hc]
  obtain ⟨v, hv⟩ | hl := byteRead_wrong hp hk
  · rw [hv]
    simp [List.range_succ, List.replicate]
    intro h
    have hce := congrArg Prod.fst h
    rw [Block.lastErrors, itemWithCheckBits_corrected c hc] at hce
    simp at hce
  · rw [hl]
    have hue := itemWithCheckBits_lost c hc
    simp [List.range_succ, List.replicate] at hue ⊢
    intro h
    have hzero := congrArg Prod.snd h
    rw [Block.lastErrors, hue] at hzero
    simp at hzero

theorem itemWithCheckBits_clear : ∀ c < 3, ((itemWithCheckBits c).at 0).lastErrors 5 = (0, 0) := by decide +kernel

/-- A pop leaves the memories' records. -/
theorem Block.pop_lastErrors (b : Block) (q m i : Nat) : (b.pop q m).lastErrors i = b.lastErrors i := by
  have h : (b.pop q m).mm = b.mm := (Block.pop_touches b q m).keeps .mm rfl
  unfold lastErrors munit
  rw [h]

theorem exec_queuePop (t m q : Nat) (s : State) :
    exec (.queuePop t m q) s = s.runIf (Wf.master m && Wf.queue q) t (fun b => b.byQueue m q 0x58 false (fun b => (b.queueFound q).pop q m)) :=
  (rfl : exec (.queuePop t m q) s = execQueuePop t m q s).trans rfl

/-- Refutes O58: a pop reads the item's slot, so an error that it finds there is recorded besides what `Block.pop` does (R327). In
`itemWithCheckBits c` the item's bytes are wrong for some `c`. -/
theorem not_privilegedQueuesNeedTheirRight : ¬ Obligations.PrivilegedQueuesNeedTheirRight := by
  rintro ⟨-, -, hpop, -⟩
  obtain ⟨c, hc, hp, hk⟩ := exists_wrong_checkBits
  obtain ⟨hready, hpermits, hright⟩ := itemWithCheckBits_may c hc
  have h := Completes.of_runIf (exec_queuePop 0 0 1 (itemWithCheckBits c)) rfl (hpop 0 0 1 (itemWithCheckBits c) (by omega) (by omega) hready hpermits)
  rw [if_pos hright, Block.byQueue_mayUse (b := (itemWithCheckBits c).at 0)
    ⟨by decide, by decide, hready, hpermits, by rw [Block.queueRight]; simpa using hright⟩] at h
  apply itemWithCheckBits_recorded hc hp hk
  rw [← Block.pop_lastErrors _ 1 0 5, h, Block.pop_lastErrors, itemWithCheckBits_clear c hc]

end Sys2Proof.Machine
end

section
/-! PROOFS. Sets of registers, by block and offset, that an operation may change; what counters, interrupts and events change of them. -/

/- One declaration after the other: the text is checked as one, with room for few threads. -/
set_option Elab.async false

namespace Sys2Proof

/-- Registers by their block, or of any block, and their offsets from `lo` to `hi`, in every instance. -/
structure RegRange where
  blk : Option Nat
  lo : Nat
  hi : Nat
  deriving DecidableEq

abbrev RegSet := List RegRange

/-- One register of a block. -/
abbrev RegRange.one (blk off : Nat) : RegRange := ⟨some blk, off, off⟩

/-- A register by its offset, of any block. -/
abbrev RegRange.any (off : Nat) : RegRange := ⟨none, off, off⟩

/-- Every register of a block. -/
abbrev RegRange.all (blk : Nat) : RegRange := ⟨some blk, 0, 65535⟩

/-- The registers of the instance windows of every block. -/
abbrev RegRange.windows : RegRange := ⟨none, 0, 0x3FF⟩

def RegRange.has (e : RegRange) (blk off : Nat) : Bool := (e.blk == none || e.blk == some blk) && decide (e.lo ≤ off) && decide (off ≤ e.hi)

/-- Whether an offset of a block is in the set. -/
def RegSet.has (l : RegSet) (blk off : Nat) : Bool := l.any (fun e => e.has blk off)

def RegRange.sub (e e' : RegRange) : Bool := (e'.blk == none || e'.blk == e.blk) && decide (e'.lo ≤ e.lo) && decide (e.hi ≤ e'.hi)

/-- Whether each range lies in one of a second set. -/
def RegSet.sub (l l' : RegSet) : Bool := l.all (fun e => l'.any (fun e' => e.sub e'))

theorem RegRange.has_of_sub {e e' : RegRange} {blk off : Nat} (h : e.sub e' = true) (he : e.has blk off = true) : e'.has blk off = true := by
  simp only [RegRange.sub, RegRange.has, Bool.and_eq_true, Bool.or_eq_true, beq_iff_eq, decide_eq_true_eq] at h he ⊢
  obtain ⟨⟨hblk, hlo⟩, hhi⟩ := h
  obtain ⟨⟨hin, hlo'⟩, hhi'⟩ := he
  refine ⟨⟨?_, by omega⟩, by omega⟩
  rcases hblk with hany | hsame
  · exact .inl hany
  · exact hsame ▸ hin

theorem RegSet.sub_refl (l : RegSet) : l.sub l = true :=
  List.all_eq_true.mpr (fun e he => List.any_eq_true.mpr ⟨e, he, by simp [RegRange.sub]⟩)

theorem RegSet.has_of_sub {l l' : RegSet} (h : l.sub l' = true) {blk off : Nat} (hl : l'.has blk off = false) : l.has blk off = false := by
  rw [Bool.eq_false_iff] at hl ⊢
  refine fun hin => hl ?_
  obtain ⟨e, he, hcovers⟩ := List.any_eq_true.mp hin
  obtain ⟨e', he', hsub⟩ := List.any_eq_true.mp (List.all_eq_true.mp h e he)
  exact List.any_eq_true.mpr ⟨e', he', RegRange.has_of_sub hsub hcovers⟩

end Sys2Proof

namespace Sys2Proof.Machine

/-- A register of a table with its SAT flag: where they stand. -/
def RegDesc.regs (d : RegDesc) (k : Nat := 0) : RegSet :=
  .one d.blk (d.off + d.stride * k) :: d.sat.toList.map (fun p => .one d.blk p.1)

/-- Their offsets, whatever the block: where they stand of an instance that no space need have. -/
def RegDesc.offs (d : RegDesc) : RegSet := .any d.off :: d.sat.toList.map (fun p => .any p.1)

/-- The register and its SAT flag lie in their block. -/
abbrev RegDesc.Lies (d : RegDesc) (k : Nat := 0) : Prop :=
  d.spaces.headD 15 < 16 ∧ d.off + d.stride * k < 65536 ∧ ∀ p ∈ d.sat, p.1 < 65536

theorem keyOff_regKey {blk sp i off : Nat} (ho : off < 65536) : keyOff (regKey blk sp i off) = off := by
  unfold keyOff
  rw [regKey_mod, Nat.mod_eq_of_lt ho]

/-- Every register outside the set is in the second block as in the first, as read and in force. -/
structure Block.Alters (l : RegSet) (a b : Block) : Prop where
  reg : ∀ j, l.has (keyBlk j) (keyOff j) = false → Block.KeepsReg j a b
  act : ∀ j, l.has (keyBlk j) (keyOff j) = false → ∀ d, Tbl.get b.regs.act j d = Tbl.get a.regs.act j d

section alters
variable {l l' : RegSet} {a b c : Block}

theorem Block.Alters.refl : Block.Alters l a a := ⟨fun _ _ => .refl, fun _ _ _ => rfl⟩

theorem Block.Alters.trans (h : Block.Alters l a b) (k : Block.Alters l' b c) (s : l'.sub l = true := by decide) : Block.Alters l a c :=
  ⟨fun j hj => (h.reg j hj).trans (k.reg j (RegSet.has_of_sub s hj)),
    fun j hj d => (k.act j (RegSet.has_of_sub s hj) d).trans (h.act j hj d)⟩

theorem Block.Alters.mono (h : Block.Alters l' a b) (s : l'.sub l = true := by decide) : Block.Alters l a b := .trans .refl h s

theorem Block.Alters.of_regs (h : Block.Alters l a b) (e : c.regs.vis = b.regs.vis := by rfl) (e' : c.regs.act = b.regs.act := by rfl) :
    Block.Alters l a c :=
  ⟨fun j hj => (h.reg j hj).of_vis e, fun j hj d => (congrArg (Tbl.get · j d) e').trans (h.act j hj d)⟩

theorem Block.Alters.touched {t : List Part} (h : Block.Alters l a b) (k : Touches t b c) (ht : t.contains .vis = false := by rfl)
    (ht' : t.contains .act = false := by rfl) : Block.Alters l a c := h.of_regs (congrArg Prod.fst (k.keeps .vis ht)) (k.keeps .act ht')

theorem Block.Alters.ite {p : Prop} [Decidable p] (h : Block.Alters l a b) (k : Block.Alters l a c) :
    Block.Alters l a (if p then b else c) := by
  split
  · exact h
  · exact k

theorem Block.Alters.fold {α : Type} {f : Block → α → Block} (r : List α) (h : Block.Alters l a b)
    (k : ∀ x e, Block.Alters l a x → Block.Alters l a (f x e)) : Block.Alters l a (r.foldl f b) :=
  List.foldlRecOn r f h (fun x hx e _ => k x e hx)

/-! ### A register outside the set -/

section outside
variable (h : Block.Alters l a b) {d : RegDesc} {i k : Nat} (hl : l.has d.blk (d.off + d.stride * k) = false) (hd : d.Lies k) (hi : i < 1048576)
include h hl hd hi

theorem Block.Alters.vis : b.vis d i k = a.vis d i k := by
  obtain ⟨hsp, hoff, -⟩ := hd
  refine (h.reg (d.key i k) ?_).reads _
  rwa [RegDesc.key, keyBlk_regKey hsp hi hoff, keyOff_regKey hoff]

theorem Block.Alters.cfg : b.cfg d i k = a.cfg d i k := by
  have hact : b.act d i k = a.act d i k := by
    obtain ⟨hsp, hoff, -⟩ := hd
    refine h.act (d.key i k) ?_ _
    rwa [RegDesc.key, keyBlk_regKey hsp hi hoff, keyOff_regKey hoff]
  unfold Block.cfg
  rw [h.vis hl hd hi, hact]

end outside

/-! ### Changes of registers in the set -/

theorem Block.Alters.setVis (h : Block.Alters l a b) {d : RegDesc} {i k : Nat} {w : Word} (hl : l.has d.blk (d.off + d.stride * k) = true)
    (hd : d.Lies k) (hi : i < 1048576) : Block.Alters l a (b.setVis d i k w) := by
  obtain ⟨hsp, hoff, -⟩ := hd
  refine ⟨fun j hj => (h.reg j hj).setVis ?_, h.act⟩
  rintro rfl
  rw [RegDesc.key, keyBlk_regKey hsp hi hoff, keyOff_regKey hoff, hl] at hj
  cases hj

theorem Block.Alters.raiseBit (h : Block.Alters l a b) {blk sp i off n : Nat} {rst : Word} (hl : l.has blk off = true)
    (hs : sp < 16) (hi : i < 1048576) (ho : off < 65536) : Block.Alters l a (b.raiseBit (regKey blk sp i off) n rst) := by
  refine ⟨fun j hj => (h.reg j hj).raiseBit ?_, h.act⟩
  rintro rfl
  rw [keyBlk_regKey hs hi ho, keyOff_regKey ho, hl] at hj
  cases hj

theorem Block.Alters.irq (h : Block.Alters l a b) {blk n : Nat} (hl : l.has blk 0x400 = true) : Block.Alters l a (b.irq blk n) :=
  h.raiseBit hl (by decide) (by decide) (by decide)

theorem Block.Alters.count (h : Block.Alters l a b) {d : RegDesc} {i k n : Nat} (hs : (d.regs k).sub l = true) (hd : d.Lies k)
    (hi : i < 1048576) : Block.Alters l a (b.count d i k n) := by
  obtain ⟨hsp, hoff, hsat⟩ := hd
  refine ⟨fun j hj => (h.reg j hj).count ?_ (fun p hp => ?_),
    fun j hj e => (congrArg (Tbl.get · j e) ((Block.count_touches ..).keeps .act rfl)).trans (h.act j hj e)⟩
  · rintro rfl
    have hin := RegSet.has_of_sub hs hj
    rw [RegDesc.key, keyBlk_regKey hsp hi hoff, keyOff_regKey hoff] at hin
    simp [RegDesc.regs, RegSet.has, RegRange.has] at hin
  · rintro rfl
    have hin := RegSet.has_of_sub hs hj
    rw [keyBlk_regKey hsp hi (hsat p hp), keyOff_regKey (hsat p hp)] at hin
    simp [RegDesc.regs, RegSet.has, RegRange.has, hp] at hin

/-- A count of whatever instance. -/
theorem Block.Alters.countAny (h : Block.Alters l a b) {d : RegDesc} {i n : Nat} (hs : d.offs.sub l = true) (hd : d.Lies) :
    Block.Alters l a (b.count d i 0 n) := by
  obtain ⟨-, hoff, hsat⟩ := hd
  refine ⟨fun j hj => (h.reg j hj).count ?_ (fun p hp => ?_),
    fun j hj e => (congrArg (Tbl.get · j e) ((Block.count_touches ..).keeps .act rfl)).trans (h.act j hj e)⟩
  · rintro rfl
    have hin := RegSet.has_of_sub hs hj
    rw [RegDesc.key, keyOff_regKey hoff] at hin
    simp [RegDesc.offs, RegSet.has, RegRange.has] at hin
  · rintro rfl
    have hin := RegSet.has_of_sub hs hj
    rw [keyOff_regKey (hsat p hp)] at hin
    simp [RegDesc.offs, RegSet.has, RegRange.has, hp] at hin

theorem Block.count_alters (b : Block) (d : RegDesc) {i k n : Nat} (hd : d.Lies k) (hi : i < 1048576) :
    Block.Alters (d.regs k) b (b.count d i k n) := .count .refl (RegSet.sub_refl _) hd hi

/-- A counter that nothing changes before its count and after it has advanced by one. -/
theorem Block.Alters.counts {x : Block} {d : RegDesc} {i : Nat} (h : Block.Alters l a x) (k : Block.Alters l' (x.count d i) b)
    (hl : l.has d.blk d.off = false) (hl' : l'.has d.blk d.off = false) (hd : d.Lies) (hi : i < 1048576)
    (hs : ∀ p ∈ d.sat, d.off ≠ p.1) : a.counts b d i := by
  obtain ⟨hsp, hoff, hsat⟩ := hd
  have hkey : keyBlk (d.key i 0) = d.blk ∧ keyOff (d.key i 0) = d.off := ⟨keyBlk_regKey hsp hi hoff, keyOff_regKey hoff⟩
  refine (h.reg _ ?_).counts (k.reg _ ?_) (fun p hp => regKey_ne_of_off hoff (hsat p hp) (hs p hp))
  · rwa [hkey.1, hkey.2]
  · rwa [hkey.1, hkey.2]

/-- An interrupt that was raised and that nothing changes after it (R449). -/
theorem Block.Alters.irqStatus {x : Block} {blk n : Nat} (h : Block.Alters l (x.irq blk n) b) (hl : l.has blk 0x400 = false) (hn : n < 32) :
    bit (Tbl.get b.regs.vis (regKey blk 15 0 0x400) 0).toNat n = true := by
  have hs : Tbl.get (x.irq blk n).regs.vis (regKey blk 15 0 0x400) 0 = Tbl.get x.regs.vis (regKey blk 15 0 0x400) 0 ||| BitVec.twoPow 32 n :=
    Tbl.get_put_same ..
  have hb := (h.reg (regKey blk 15 0 0x400) (by rwa [keyBlk_regKey (by decide) (by decide) (by decide), keyOff_regKey (by decide)])).reads 0
  rw [hb, hs, bit_eq_testBit, BitVec.testBit_toNat]
  simp [hn]

/-! ### Events -/

/-- The registers of EVR and QUE that an event changes, one by one (R417 to R421). -/
def eventRegs : RegSet :=
  .one Blk.que 0x400 :: .one Blk.que Reg.QUE_STATUS.off :: (Reg.EVR_EVENTS.regs ++ Reg.EVR_IN_LOST.regs ++
    Reg.EVR_FREEZE_LOST.regs ++ Reg.QUE_WR_DISABLED.regs ++ Reg.QUE_OVERRUN_ITEMS.regs ++ Reg.QUE_PUSHES.regs)

theorem Block.Alters.lostInFreeze (h : Block.Alters l a b) {seq : Nat} (s : eventRegs.sub l = true) : Block.Alters l a (b.lostInFreeze seq) :=
  (h.of_regs (c := { b with evr := _ })).trans (.count (l := eventRegs) .refl (by decide) (by decide) (by decide)) s

theorem Block.holdEvent_alters (b : Block) (e : Event) : Block.Alters eventRegs b (b.holdEvent e) := by
  unfold Block.holdEvent
  dsimp only
  split
  · exact .lostInFreeze (.count .refl (by decide) (by decide) (by decide)) (by decide)
  · split
    · exact .lostInFreeze .refl (by decide)
    · split
      · refine .lostInFreeze (.irq ?_ (by decide)) (by decide)
        exact .raiseBit (.count .refl (by decide) (by decide) (by decide)) (by decide) (by decide) (by decide) (by decide)
      · exact .count (.of_regs .refl) (by decide) (by decide) (by decide)

theorem Block.event_alters (b : Block) (code src a0 a1 : Nat) : Block.Alters eventRegs b (b.event code src a0 a1) := by
  have hc : Block.Alters eventRegs b (b.count Reg.EVR_EVENTS) := .count .refl (by decide) (by decide) (by decide)
  unfold Block.event Block.eventAt
  dsimp only
  split
  · exact .trans (.of_regs hc) (Block.holdEvent_alters _ _)
  · split
    · exact hc.of_regs
    · exact .count (.of_regs hc) (by decide) (by decide) (by decide)

theorem Block.Alters.event (h : Block.Alters l a b) {code src a0 a1 : Nat} (s : eventRegs.sub l = true := by decide) :
    Block.Alters l a (b.event code src a0 a1) := h.trans (b.event_alters ..) s

theorem Block.Alters.eventRep (h : Block.Alters l a b) {key code src a1 : Nat} (s : eventRegs.sub l = true := by decide) :
    Block.Alters l a (b.eventRep key code src a1) := by
  unfold Block.eventRep
  exact .ite (.event h.of_regs s) h.of_regs

/-! ### Answers and SEL's advance -/

theorem Block.Alters.answer (h : Block.Alters l a b) {m : Nat} {r : Response} : Block.Alters l a (b.answer m r) := h.of_regs

end alters

theorem Block.advance_reads (b : Block) (m blk off : Nat) {d : RegDesc} {i k : Nat} (h : d.off + d.stride * k < 65536 := by decide)
    (h' : 0 < d.off + d.stride * k := by decide) : (b.advance m blk off).vis d i k = b.vis d i k := Block.advance_vis b m blk off d i k h h'

end Sys2Proof.Machine
end

section
/-! PROOFS. Errors that a read of a unit finds; the queues (O12). -/

/- One declaration after the other: the text is checked as one, with room for few threads. -/
set_option Elab.async false

namespace Sys2Proof.Machine

/-! ### Errors found (R327 to R330) -/

/-- The registers of MEM that remaps change. -/
def remapRegs : RegSet := .one Blk.mem 0x400 :: (Reg.MEM_REMAPS.regs ++ eventRegs)

/-- Those that errors change. -/
def errorRegs : RegSet := Reg.MEM_CE_COUNT.regs ++ Reg.MEM_UE_COUNT.regs ++ remapRegs

section found
variable {m : Nat} (hm : m < 10)
include hm

theorem Block.remap_alters (b : Block) (u : Nat) : Block.Alters remapRegs b (b.remap m u) := by
  unfold Block.remap
  extract_lets arr q kept x
  split
  · exact .eventRep (.irq .refl (by decide))
  · extract_lets moved e n written y stored
    have hmoved : Block.Alters remapRegs b moved := .of_regs (.touched .refl (Block.rawOf_touches ..))
    have hwritten : Block.Alters remapRegs b written := hmoved.touched (Block.store_touches ..)
    have hstored : Block.Alters remapRegs b stored := .ite hwritten.of_regs hmoved
    exact .event (.count hstored (by decide) (by decide) (by omega))

theorem Block.trackError_alters (b : Block) (u : Nat) : Block.Alters remapRegs b (b.trackError m u) := by
  unfold Block.trackError
  dsimp only
  split
  · refine .ite (.of_regs .refl) ?_
    split
    · exact .trans (.of_regs .refl) (Block.remap_alters hm ..)
    · exact .irq (.of_regs .refl) (by decide)
    · exact .of_regs .refl
  · refine .ite (.of_regs .refl) ?_
    split
    · exact .of_regs .refl
    · exact .refl

theorem Block.corrected_alters (b : Block) (u : Nat) : Block.Alters errorRegs b (b.corrected m u) := by
  unfold Block.corrected
  exact .trans (.eventRep (.irq (.count (.of_regs .refl) (by decide) (by decide) (by omega)) (by decide))) (Block.trackError_alters hm ..)

theorem Block.ueNote_alters (b : Block) (p : Nat) : Block.Alters errorRegs b (b.ueNote m p) := by
  unfold Block.ueNote
  exact .event (.irq (.count (.of_regs .refl) (by decide) (by decide) (by omega)) (by decide))

theorem Block.ueRemap_alters (b : Block) (p : Nat) : Block.Alters remapRegs b (b.ueRemap m p) := by
  unfold Block.ueRemap
  exact .ite (Block.remap_alters hm ..) .refl

end found

/-- An error in the queue SRAM leaves the queues and changes registers of MEM and of events. -/
structure Block.PoolRead (a b : Block) : Prop where
  que : b.que = a.que
  alters : Block.Alters errorRegs a b

theorem Block.PoolRead.refl {a : Block} : Block.PoolRead a a := ⟨rfl, .refl⟩

theorem Block.PoolRead.ite {p : Prop} [Decidable p] {a b c : Block} (h : Block.PoolRead a b) (k : Block.PoolRead a c) :
    Block.PoolRead a (if p then b else c) := by
  split
  · exact h
  · exact k

theorem Block.PoolRead.corrected {a b : Block} (h : Block.PoolRead a b) (u : Nat) : Block.PoolRead a (b.corrected 5 u) :=
  ⟨((Block.corrected_touches b 5 u).keeps .que rfl).trans h.que, h.alters.trans (Block.corrected_alters (by decide) ..)⟩

theorem Block.PoolRead.uncorrectable {a b : Block} (h : Block.PoolRead a b) (p : Nat) : Block.PoolRead a (b.uncorrectable 5 p) := by
  have hnote : Block.PoolRead a (b.ueNote 5 p) :=
    ⟨((Block.ueNote_touches ..).keeps .que rfl).trans h.que, h.alters.trans (Block.ueNote_alters (by decide) ..)⟩
  unfold Block.uncorrectable
  split
  · exact h
  · exact ⟨((Block.ueRemap_touches ..).keeps .que rfl).trans hnote.que, .trans hnote.alters.of_regs (Block.ueRemap_alters (by decide) ..)⟩

theorem Block.queueFound_pool (b : Block) (q : Nat) : Block.PoolRead b (b.queueFound q) := by
  have hunit (x : Block) (u lo n : Nat) (hx : Block.PoolRead b x) : Block.PoolRead b (x.unitFound 5 u lo n) := by
    unfold Block.unitFound
    split
    · exact hx
    · exact List.foldlRecOn _ _ (.ite (hx.corrected _) hx) (fun y hy e _ => .ite (hy.uncorrectable _) hy)
  unfold Block.queueFound
  dsimp only
  split
  · exact .refl
  · unfold Block.rangeFound
    split
    · exact .refl
    · exact List.foldlRecOn _ _ .refl (fun y hy e _ => hunit y _ _ _ hy)

theorem Block.queueFound_queue (b : Block) (q r : Nat) : (b.queueFound q).queue r = b.queue r :=
  congrArg (Tbl.get · r Queue.reset) (b.queueFound_pool q).que

theorem Block.queueFound_cfg (b : Block) (q : Nat) {r : Nat} (hr : r < 64) : (b.queueFound q).vis Reg.QUE_CFG r = b.vis Reg.QUE_CFG r :=
  (b.queueFound_pool q).alters.vis (by decide) (by decide) (by omega)

theorem Block.queueFound_qen (b : Block) (q : Nat) {r : Nat} (hr : r < 64) (h : b.qen r = true) : (b.queueFound q).qen r = true := by
  unfold Block.qen
  rwa [b.queueFound_cfg q hr]

/-- The read of an empty queue reads no slot. -/
theorem Block.queueFound_empty {b : Block} {q : Nat} (h : (b.queue q).items = []) : b.queueFound q = b := if_pos (.inr h)

/-! ### Items stored and taken (R346, R348) -/

/-- What leaves QUE's part leaves each queue. -/
theorem Touches.queue {l : List Part} {a b : Block} (h : Touches l a b) (hl : l.contains .que = false) (q : Nat) : b.queue q = a.queue q :=
  congrArg (Tbl.get · q Queue.reset) (h.keeps .que hl)

/-- An item stored in a queue for which no reader waits. -/
theorem Block.stored_queue (b : Block) {q : Nat} (val : Nat) (eop : Bool) (h : (b.queue q).stalled = []) :
    (b.stored q val eop).queue q =
      { b.queue q with items := (b.queue q).items ++ [⟨val % 2 ^ 64, eop, false⟩], pktOpen := !eop, fed := b.t7 } := by
  unfold Block.stored
  dsimp only
  rw [h]
  exact ((Block.count_touches ..).queue rfl q).trans (Block.queue_setQueue ..)

section push
variable {b : Block} {q : Nat} (hen : b.qen q = true) (hdisc : (b.queue q).discarding = false) (hbreak : (b.queue q).breakPending = false)
  (hroom : (b.queue q).items.length < b.qcap q)
include hen hdisc hbreak hroom

/-- A push into an enabled queue with room, of which nothing is being discarded. -/
theorem Block.push_eq (val : Nat) (eop : Bool) :
    b.push q val eop = if eop && ((b.stored q val eop).queue q).flushPending then (b.stored q val eop).flushNow q else b.stored q val eop := by
  unfold Block.push
  simp only [hen, hdisc, hbreak, Nat.not_le.mpr hroom, Bool.false_eq_true, Bool.true_eq_false, if_false]

variable (hstalled : (b.queue q).stalled = [])
include hstalled

theorem Block.push_open (val : Nat) : (b.push q val false).queue q =
    { b.queue q with items := (b.queue q).items ++ [⟨val % 2 ^ 64, false, false⟩], pktOpen := true, fed := b.t7 } := by
  rw [Block.push_eq hen hdisc hbreak hroom, Bool.false_and, if_neg Bool.false_ne_true]
  exact b.stored_queue val false hstalled

end push

/-- The items of a queue discarded, but for a break marker that waits (R346, R349). -/
theorem Block.flushNow_queue (b : Block) (q : Nat) : ∃ rd, (b.flushNow q).queue q =
    { b.queue q with items := if (b.queue q).breakPending then [⟨Que.breakMarker, true, true⟩] else [], rd := rd, breakPending := false, flushPending := false } := by
  have hgone (r : Nat) : (b.heldGone q).queue r = b.queue r := (Block.heldGone_touches ..).queue rfl r
  unfold Block.flushNow
  extract_lets z x c rd y
  have hy : y.queue q = { x with items := if x.breakPending then [⟨Que.breakMarker, true, true⟩] else [], rd := rd, breakPending := false, flushPending := false } :=
    Block.queue_setQueue ..
  have hx : x = b.queue q := hgone q
  rw [hx] at hy
  refine ⟨rd, ((Block.event_touches ..).queue rfl q).trans ?_⟩
  rw [← hy]
  split
  · exact (Block.slotClean_touches ..).queue rfl q
  · rfl

/-- A packet that ends in a queue with room, with what a flush that waits for the end does. -/
theorem Block.push_end {b : Block} {q : Nat} (hen : b.qen q = true) (hdisc : (b.queue q).discarding = false)
    (hbreak : (b.queue q).breakPending = false) (hroom : (b.queue q).items.length < b.qcap q) (hstalled : (b.queue q).stalled = []) (val : Nat) :
    ((b.push q val true).queue q).items = (if (b.queue q).flushPending then [] else (b.queue q).items ++ [⟨val % 2 ^ 64, true, false⟩]) ∧
      ((b.push q val true).queue q).pktOpen = false := by
  have hstored := b.stored_queue val true hstalled
  rw [Block.push_eq hen hdisc hbreak hroom, Bool.true_and, hstored]
  dsimp only
  split
  · obtain ⟨rd, hflushed⟩ := (b.stored q val true).flushNow_queue q
    rw [hflushed, hstored]
    simp [hbreak]
  · rw [hstored]
    simp

/-- The oldest item taken from a queue in which no break marker waits, its slot without poison. -/
theorem Block.take_item {b : Block} {q : Nat} (m : Nat) {i : QItem} {r : List QItem} (hbreak : (b.queue q).breakPending = false)
    (hitems : (b.queue q).items = i :: r) (hgood : b.slotPoisoned q (b.queue q).rd = false) :
    ((b.take q m).queue q).items = r ∧ Tbl.get (b.take q m).resp m (.value 0) = .value i.val := by
  unfold Block.take
  simp only [hitems, hbreak, hgood, Bool.false_eq_true, if_false]
  exact ⟨congrArg Queue.items (Block.queue_setQueue ..), Tbl.get_ins_same ..⟩

/-- A pop of an enabled queue that holds an item takes it. -/
theorem Block.pop_item {b : Block} {q m : Nat} (hen : b.qen q = true) (hflush : (b.queue q).flushPending = false) (hitems : (b.queue q).items ≠ []) :
    b.pop q m = b.take q m := by
  unfold Block.pop
  simp [hen, hflush, hitems]

/-- From an empty one it stalls. -/
theorem Block.pop_empty {b : Block} {q : Nat} (m : Nat) (hen : b.qen q = true) (hflush : (b.queue q).flushPending = false)
    (hitems : (b.queue q).items = []) :
    b.pop q m = (b.setQueue q { b.queue q with stalled := (b.queue q).stalled ++ [m] }).answer m (.stalled b.t7) := by
  unfold Block.pop
  simp [hen, hflush, hitems]

/-- A read of TRYPOP takes an item as a pop does. -/
theorem Block.trypop_item {b : Block} {q m : Nat} (hen : b.qen q = true) (hflush : (b.queue q).flushPending = false) (hitems : (b.queue q).items ≠ []) :
    b.trypop q m = b.take q m := by
  unfold Block.trypop
  simp [hen, hflush, hitems]

theorem Block.answerEmpty_resp (b : Block) (m : Nat) : Tbl.get (b.answerEmpty m).resp m (.value 0) = .value Que.emptyMarker := Tbl.get_ins_same ..

/-- No reader waits after every one has had the EMPTY marker. -/
theorem Block.endStalls_queue (b : Block) (q : Nat) : (b.endStalls q).queue q = { b.queue q with stalled := [] } := by
  have hempty (z : Block) (hz : z.queue q = { b.queue q with stalled := [] }) (m : Nat) : (z.answerEmpty m).queue q = { b.queue q with stalled := [] } :=
    ((Block.answerEmpty_touches z m).queue rfl q).trans hz
  exact List.foldlRecOn (motive := fun z : Block => z.queue q = { b.queue q with stalled := [] }) _ _ (Block.queue_setQueue ..)
    (fun z hz m _ => hempty z hz m)

/-- QUE.CMD[FLUSH] within a packet and at its boundary (R349). -/
theorem Block.flush_queue (b : Block) (q : Nat) : ((b.flush q).queue q).stalled = [] ∧
    (if (b.queue q).pktOpen || (b.queue q).discarding then ((b.flush q).queue q).flushPending = true ∧ ((b.flush q).queue q).items = (b.queue q).items
      else ((b.flush q).queue q).flushPending = false ∧
        ((b.flush q).queue q).items = if (b.queue q).breakPending then [⟨Que.breakMarker, true, true⟩] else []) := by
  have hended := b.endStalls_queue q
  unfold Block.flush
  dsimp only
  split
  · rw [Block.queue_setQueue, hended]
    exact ⟨rfl, rfl, rfl⟩
  · obtain ⟨rd, hflushed⟩ := (b.endStalls q).flushNow_queue q
    rw [hflushed, hended]
    exact ⟨rfl, rfl, rfl⟩

/-! ### Queues enabled and disabled (R345, R350) -/

/-- A field is the bits of the number. -/
theorem fld_w32 {v : Nat} (h : v < 2 ^ 32) (hi lo : Nat) : fld (w32 v) hi lo = bits v hi lo := by
  unfold fld w32
  rw [BitVec.toNat_ofNat, Nat.mod_eq_of_lt h]

/-- Bit 31 is the field of its own. -/
theorem bit_eq_fld (w : Word) (n : Nat) : bit w.toNat n = decide (fld w n n = 1) := by
  unfold bit fld bits
  rw [show n + 1 - n = 1 by omega, pow_one]
  rfl

theorem bit_setFld_en (w : Word) (v : Nat) : bit (setFld w 31 31 v).toNat 31 = decide (v % 2 = 1) := by
  rw [bit_eq_fld, fld_setFld _ _ _ _ (by omega) (by omega), show 31 + 1 - 31 = 1 by omega, pow_one]

theorem fld_setFld_en (w : Word) (v hi lo : Nat) (h : lo ≤ hi) (h' : hi < 31) : fld (setFld w 31 31 v) hi lo = fld w hi lo :=
  fld_setFld_other w 31 31 v hi lo (by omega) (by omega) h (.inl h')

/-- The registers of a queue's window are those of no other queue. -/
theorem queKey_ne {d e : RegDesc} {q r : Nat} (hd : d.off + d.stride * 0 < 65536) (he : e.off + e.stride * 0 < 65536) (hq : q < 64) (hr : r < 64)
    (h : q ≠ r) : d.key q 0 ≠ e.key r 0 := RegDesc.key_ne hd he (by omega) (by omega) (by omega)

theorem Block.queSel_lt (b : Block) (m : Nat) : b.queSel m < 64 := fld_lt ..

/-- What an enabling asks for does not depend on the queue's own register. -/
theorem Block.queueFits_setVis (b : Block) {q : Nat} (hq : q < 64) (w : Word) (base depth : Nat) :
    (b.setVis Reg.QUE_CFG q 0 w).queueFits q base depth = b.queueFits q base depth := by
  have hall (f g : Nat → Bool) (h : ∀ r, r < 64 → f r = g r) : (List.range 64).all f = (List.range 64).all g := by
    rw [Bool.eq_iff_iff, List.all_eq_true, List.all_eq_true]
    exact forall₂_congr (fun r hr => by rw [h r (List.mem_range.mp hr)])
  unfold Block.queueFits
  congr 1
  refine hall _ _ (fun r hr => ?_)
  by_cases h : r = q
  · simp [h]
  · have hvis : (b.setVis Reg.QUE_CFG q 0 w).vis Reg.QUE_CFG r = b.vis Reg.QUE_CFG r :=
      Block.vis_setVis_other _ _ _ _ _ _ _ _ (queKey_ne (by decide) (by decide) hr hq h)
    unfold Block.qen
    rw [hvis]

theorem Block.setVis_queue (b : Block) (d : RegDesc) (i k : Nat) (w : Word) (q : Nat) : (b.setVis d i k w).queue q = b.queue q := rfl

/-- EN written to 1 (R345). -/
theorem Block.queueEnable_cases (b : Block) {q : Nat} (hq : q < 64) (hen : b.qen q = false) :
    if b.queueFits q (fld (b.vis Reg.QUE_CFG q) 11 0) (fld (b.vis Reg.QUE_CFG q) 28 16)
      then (b.queueEnable q).qen q = true ∧ (b.queueEnable q).qcap q = b.qcap q ∧ (b.queueEnable q).queue q = Queue.reset
      else (b.queueEnable q).qen q = false := by
  unfold Block.queueEnable
  dsimp only
  split
  · unfold Block.qen Block.qcap
    rw [Block.vis_setVis_same, bit_setFld_en, fld_setFld_en _ _ _ _ (by omega) (by omega)]
    exact ⟨rfl, rfl, (Block.setVis_queue ..).trans (Block.queue_setQueue ..)⟩
  · have hkeeps : Block.Alters eventRegs b ((b.irq Blk.que 2).event 0x1105 q) := .event (.irq .refl (by decide))
    unfold Block.qen
    rw [hkeeps.vis (by decide) (by decide) (by omega)]
    exact hen

/-- A write of EN = 1 with a BASE and a DEPTH, of a queue that is not enabled (R345). -/
theorem Block.queueCfg_enable (b : Block) {q base depth : Nat} (hq : q < 64) (hen : b.qen q = false) (hbase : base < 4096) (hdepth : depth ≤ 4096)
    {z : Block} (hz : z = b.queueCfg q (w32 (2 ^ 31 + depth % 8192 * 65536 + base % 4096))) :
    if b.queueFits q base depth then z.qen q = true ∧ z.qcap q = 64 * depth ∧ z.queue q = Queue.reset else z.qen q = false := by
  have hw : 2 ^ 31 + depth % 8192 * 65536 + base % 4096 < 2 ^ 32 := by omega
  have hok : Reg.QUE_CFG.fieldsOk = true := by decide
  unfold Block.queueCfg at hz
  rw [hen, if_neg Bool.false_ne_true] at hz
  dsimp only at hz
  generalize hv : setFld (Reg.QUE_CFG.write (b.vis Reg.QUE_CFG q) (w32 (2 ^ 31 + depth % 8192 * 65536 + base % 4096))) 31 31 0 = v at hz
  have hbit : bit (w32 (2 ^ 31 + depth % 8192 * 65536 + base % 4096)).toNat 31 = true := by
    rw [bit_eq_fld, fld_w32 hw, decide_eq_true_eq]
    unfold bits
    omega
  have hvbase : fld v 11 0 = base := by
    rw [← hv, fld_setFld_en _ _ _ _ (by omega) (by omega),
      RegDesc.fld_write hok (f := ⟨"BASE", 11, 0, .rw, [], []⟩) (by decide), FieldDesc.after, fld_w32 hw]
    simp only [inRanges, bits, List.isEmpty_nil, Bool.true_or, if_true]
    omega
  have hvdepth : fld v 28 16 = depth := by
    rw [← hv, fld_setFld_en _ _ _ _ (by omega) (by omega),
      RegDesc.fld_write hok (f := ⟨"DEPTH", 28, 16, .rw, [], []⟩) (by decide), FieldDesc.after, fld_w32 hw]
    simp only [inRanges, bits, List.isEmpty_nil, Bool.true_or, if_true]
    omega
  have hven : (b.setVis Reg.QUE_CFG q 0 v).qen q = false := by
    unfold Block.qen
    rw [Block.vis_setVis_same, ← hv, bit_setFld_en]
    rfl
  have hcases := (b.setVis Reg.QUE_CFG q 0 v).queueEnable_cases hq hven
  rw [if_pos hbit] at hz
  rw [Block.vis_setVis_same, hvbase, hvdepth, Block.queueFits_setVis b hq, ← hz] at hcases
  unfold Block.qcap at hcases ⊢
  rwa [Block.vis_setVis_same, hvdepth] at hcases

/-- EN written to 0 (R350). -/
theorem Block.queueDisable_done (b : Block) (q : Nat) : (b.queueDisable q).qen q = false ∧ (b.queueDisable q).queue q = Queue.reset := by
  unfold Block.queueDisable Block.qen
  dsimp only
  rw [Block.vis_setVis_same, bit_setFld_en]
  exact ⟨rfl, (Block.setVis_queue ..).trans (Block.queue_setQueue ..)⟩

/-! ### The commands -/

/-- A command on a queue that its master may use (R414). -/
theorem Completes.byQueueUse {c : Instr} {s : State} {t m q reg : Nat} {w : Bool} {P : Block → Prop} (f : Block → Block)
    (hc : exec c s = s.runIf (Wf.master m && Wf.queue q) t (fun b => b.byQueue m q reg w f)) (h : s.blk.mayUse m q reg w)
    (hp : P (f (s.at t))) : Completes c s P := by
  refine Completes.runIf hc (by simp [Wf.master, Wf.queue, h.1, h.2.1]) ?_
  rwa [Block.byQueue_mayUse (b := s.at t) h]

/-- A command on the queue that SEL names leaves it as its effect does, SEL's advance and the answer past it. -/
theorem Completes.byQueueSel {c : Instr} {s : State} {t m off : Nat} {P : Block → Prop} (f : Block → Block)
    (hc : exec c s = s.runIf (Wf.master m) t (fun b => b.byMaster m 16 off f)) (h : s.blk.mayWrite m 16 off)
    (hp : ∀ b, b.que = (f (s.at t)).que → (∀ q, b.vis Reg.QUE_CFG q = (f (s.at t)).vis Reg.QUE_CFG q) → P b) : Completes c s P :=
  Completes.byMaster hc (decide_eq_true h.1) h (hp _ (by simp) (fun q => Block.advance_reads (f (s.at t)) m 16 off))

/-- Settles O12: each command by what its operation leaves of the queue. -/
theorem queuesHoldTheirItems : Obligations.QueuesHoldTheirItems := by
  refine ⟨fun t m q value s hm hen hdisc hbreak hroom hstalled => ?_, fun t m q value s hm hen hdisc hbreak hroom hstalled => ?_,
    fun t m q s i r hm hen hflush hbreak hitems hgood => ?_, fun t m q s hm hen hflush hitems => ?_,
    fun t m q s i r hm hen hflush hbreak hitems hgood => ?_, fun t m q s hm hitems => ?_, fun t m s hm => ?_,
    fun t m base depth s hm hen hbase h1 hdepth => ?_, fun t m s hm hen => ?_⟩
  · refine Completes.byQueueUse (fun b => (b.push q (value % 2 ^ 64) false).answer m .written) rfl hm ?_
    have hpush := Block.push_open (b := s.at t) hen hdisc hbreak hroom hstalled (value % 2 ^ 64)
    rw [Nat.mod_mod] at hpush
    exact ⟨congrArg Queue.items hpush, congrArg Queue.pktOpen hpush, Block.answer_resp ..⟩
  · refine Completes.byQueueUse (fun b => (b.push q (value % 2 ^ 64) true).answer m .written) rfl hm ?_
    obtain ⟨hitems, hopen⟩ := Block.push_end (b := s.at t) hen hdisc hbreak hroom hstalled (value % 2 ^ 64)
    rw [Nat.mod_mod] at hitems
    exact ⟨hitems, hopen, Block.answer_resp ..⟩
  · have hq := (s.at t).queueFound_queue q q
    refine Completes.byQueueUse (fun b => (b.queueFound q).pop q m) rfl hm ?_
    have htake := Block.take_item m ((congrArg Queue.breakPending hq).trans hbreak) ((congrArg Queue.items hq).trans hitems)
      (by rw [hq]; exact hgood)
    rwa [Block.pop_item ((s.at t).queueFound_qen q hm.2.1 hen) ((congrArg Queue.flushPending hq).trans hflush)
      (by rw [hq]; exact ne_of_eq_of_ne hitems (List.cons_ne_nil _ _))]
  · refine Completes.byQueueUse (fun b => (b.queueFound q).pop q m) rfl hm ?_
    rw [Block.queueFound_empty (b := s.at t) hitems, Block.pop_empty (b := s.at t) m hen hflush hitems]
    exact ⟨congrArg Queue.stalled (Block.queue_setQueue ..), Block.answer_resp ..⟩
  · have hq := (s.at t).queueFound_queue q q
    refine Completes.byQueueUse (fun b => (b.queueFound q).trypop q m) rfl hm ?_
    have htake := Block.take_item m ((congrArg Queue.breakPending hq).trans hbreak) ((congrArg Queue.items hq).trans hitems)
      (by rw [hq]; exact hgood)
    rwa [Block.trypop_item ((s.at t).queueFound_qen q hm.2.1 hen) ((congrArg Queue.flushPending hq).trans hflush)
      (by rw [hq]; exact ne_of_eq_of_ne hitems (List.cons_ne_nil _ _))]
  · refine Completes.byQueueUse (fun b => (b.queueFound q).trypop q m) rfl hm ?_
    rw [Block.queueFound_empty (b := s.at t) hitems, Block.trypop, if_pos (.inr (.inr hitems))]
    exact Block.answerEmpty_resp ..
  · refine Completes.byQueueSel (fun b => b.flush (b.queSel m)) rfl hm (fun b hque _ => ?_)
    have hqueue : b.queue ((s.at t).queSel m) = ((s.at t).flush ((s.at t).queSel m)).queue ((s.at t).queSel m) := Block.queue_congr hque _
    have hflush := (s.at t).flush_queue ((s.at t).queSel m)
    rw [← hqueue] at hflush
    exact hflush
  · refine Completes.byQueueSel _ rfl hm (fun b hque hcfg => ?_)
    have hqueue := Block.queue_congr hque ((s.at t).queSel m)
    have henabled := (s.at t).queueCfg_enable ((s.at t).queSel_lt m) hen hbase hdepth rfl
    unfold Block.qen Block.qcap at henabled ⊢
    rw [← hcfg, ← hqueue] at henabled
    exact henabled
  · refine Completes.byQueueSel (fun b => if b.qen (b.queSel m) then b.queueDisable (b.queSel m) else b) rfl hm (fun b hque hcfg => ?_)
    have hqueue := Block.queue_congr hque ((s.at t).queSel m)
    have hon : (s.at t).qen ((s.at t).queSel m) = true := hen
    obtain ⟨hoff, hreset⟩ := (s.at t).queueDisable_done ((s.at t).queSel m)
    rw [if_pos hon] at hqueue hcfg
    unfold Block.qen at hoff ⊢
    rw [← hcfg] at hoff
    exact ⟨hoff, hqueue.trans hreset⟩

end Sys2Proof.Machine
end

section
/-! PROOFS. What a change of mode changes of the registers, and what it leaves of SYS; mode requests (O46). -/

/- One declaration after the other: the text is checked as one, with room for few threads. -/
set_option Elab.async false

namespace Sys2Proof.Machine

/-! ### Queues -/

/-- Registers that a push may change: those of a queue, of whatever instance, and those of events. -/
def pushRegs : RegSet :=
  .any Reg.QUE_STATUS.off :: .any Reg.QUE_POP_STATUS.off :: .one Blk.que 0x400 ::
    (Reg.QUE_PUSHES.offs ++ Reg.QUE_OVERRUN_ITEMS.offs ++ Reg.QUE_WR_DISABLED.offs ++ eventRegs)

section push
variable {l : RegSet} {a b : Block}

/-- A register written, whatever the instance. -/
theorem Block.Alters.setAny (h : Block.Alters l a b) {d : RegDesc} {i k : Nat} {w : Word}
    (hl : RegSet.sub [.any (d.off + d.stride * k)] l = true) (ho : d.off + d.stride * k < 65536) : Block.Alters l a (b.setVis d i k w) := by
  refine ⟨fun j hj => (h.reg j hj).setVis ?_, h.act⟩
  rintro rfl
  have hin := RegSet.has_of_sub hl hj
  rw [RegDesc.key, keyOff_regKey ho] at hin
  simp [RegSet.has, RegRange.has] at hin

/-- A bit of such a register. -/
theorem Block.Alters.setBitAny (h : Block.Alters l a b) {d : RegDesc} {i k n : Nat}
    (hl : RegSet.sub [.any (d.off + d.stride * k)] l = true) (ho : d.off + d.stride * k < 65536) : Block.Alters l a (b.setBit d i k n) :=
  (h.setAny (w := b.vis d i k ||| BitVec.twoPow 32 n) hl ho).of_regs

/-- A register of an instance window written, whatever the instance. -/
theorem Block.Alters.setWindow (h : Block.Alters l a b) {d : RegDesc} {i k : Nat} {w : Word} (ho : d.off + d.stride * k < 0x400)
    (hl : RegSet.sub [.windows] l = true := by decide) : Block.Alters l a (b.setVis d i k w) := by
  refine h.trans (l' := [.windows]) (.setAny .refl ?_ (by omega)) hl
  simp only [RegSet.sub, RegRange.sub, List.all_cons, List.all_nil, List.any_cons, List.any_nil, Bool.and_true, Bool.or_false]
  simp
  omega

/-- A counter of a block of which every register may change. -/
theorem Block.Alters.countBlk (h : Block.Alters l a b) {d : RegDesc} {i k n : Nat} (hl : RegSet.sub [.all d.blk] l = true) (hd : d.Lies k)
    (hi : i < 1048576) : Block.Alters l a (b.count d i k n) := by
  refine h.count (List.all_eq_true.mpr (fun e he => ?_)) hd hi
  obtain ⟨e', he', hsub⟩ := List.any_eq_true.mp (List.all_eq_true.mp hl _ List.mem_cons_self)
  refine List.any_eq_true.mpr ⟨e', he', ?_⟩
  obtain ⟨hsp, hoff, hsat⟩ := hd
  simp only [RegRange.sub, Bool.and_eq_true, Bool.or_eq_true, beq_iff_eq, decide_eq_true_eq] at hsub ⊢
  have hrange : e.blk = some d.blk ∧ e.hi ≤ 65535 := by
    rcases List.mem_cons.mp he with rfl | he
    · exact ⟨rfl, by simp only; omega⟩
    · obtain ⟨p, hp, rfl⟩ := List.mem_map.mp he
      have := hsat p (Option.mem_toList.mp hp)
      exact ⟨rfl, by simp only; omega⟩
  obtain ⟨⟨hblk, hlo⟩, hhi⟩ := hsub
  rw [hrange.1]
  exact ⟨⟨hblk, by omega⟩, by omega⟩

variable (h : Block.Alters pushRegs a b)
include h

theorem Block.Alters.overrun {q : Nat} : Block.Alters pushRegs a (b.overrun q) := by
  have hc : Block.Alters pushRegs a (b.count Reg.QUE_OVERRUN_ITEMS q) := h.countAny (by decide) (by decide)
  unfold Block.overrun
  dsimp only
  generalize b.count Reg.QUE_OVERRUN_ITEMS q = y at hc ⊢
  have hbits : Block.Alters pushRegs a ((y.setBit Reg.QUE_STATUS q 0 30).irq Blk.que 0) := .irq (hc.setBitAny (by decide) (by decide)) (by decide)
  exact .ite hc.eventRep (.eventRep hbits.of_regs)

theorem Block.Alters.popStatus {m : Nat} {p k e o : Bool} : Block.Alters pushRegs a (b.popStatus m p k e o) :=
  h.setAny (by decide) (by decide)

theorem Block.Alters.take {q m : Nat} : Block.Alters pushRegs a (b.take q m) := by
  unfold Block.take
  dsimp only
  split
  · exact h.popStatus.of_regs
  · generalize hy : (if (b.queue q).breakPending then _ else _ : Block) = y
    have hk : Block.Alters pushRegs a y := hy ▸ .ite h.of_regs h.of_regs
    exact .ite hk.popStatus.of_regs hk.popStatus.of_regs

theorem Block.Alters.stored {q val : Nat} {eop : Bool} : Block.Alters pushRegs a (b.stored q val eop) := by
  have hc (x : Queue) : Block.Alters pushRegs a
      (((b.slotClean q ((b.queue q).rd + (b.queue q).items.length) val).setQueue q x).count Reg.QUE_PUSHES q) :=
    .countAny (.of_regs h) (by decide) (by decide)
  unfold Block.stored
  dsimp only
  split
  · exact .take (.of_regs (hc _))
  · exact hc _

theorem Block.Alters.flushNow {q : Nat} : Block.Alters pushRegs a (b.flushNow q) := by
  have hg : Block.Alters pushRegs a (b.heldGone q) := h.touched (Block.heldGone_touches ..)
  unfold Block.flushNow
  dsimp only
  exact .event (.ite hg.of_regs hg.of_regs)

theorem Block.Alters.pushed {q val : Nat} {eop : Bool} : Block.Alters pushRegs a (b.push q val eop) := by
  have hover (x : Queue) : Block.Alters pushRegs a ((b.setQueue q x).overrun q) := .overrun h.of_regs
  unfold Block.push
  dsimp only
  refine .ite (h.countAny (by decide) (by decide)) ?_
  generalize hy : (if (b.queue q).discarding then _ else _ : Block) = y
  have hk : Block.Alters pushRegs a y := hy ▸ .ite (hover _) (.ite (hover _) (.ite (hover _) h.stored))
  exact .ite hk.flushNow hk

end push

theorem Block.push_alters (b : Block) (q val : Nat) (eop : Bool) : Block.Alters pushRegs b (b.push q val eop) := .pushed .refl

theorem Block.Alters.push {l : RegSet} {a b : Block} (h : Block.Alters l a b) {q val : Nat} {eop : Bool}
    (s : pushRegs.sub l = true := by decide) : Block.Alters l a (b.push q val eop) := h.trans (b.push_alters ..) s

/-! ### Frames -/

/-- Registers that a frame on its way out may change, of whatever port. -/
def frameRegs : RegSet := Reg.PRT_FWD_DROP.offs ++ Reg.PRT_TX_ABORT.offs ++ Reg.PRT_TX_REFUSED.offs

theorem Block.Alters.enqueue {l : RegSet} {a b : Block} (h : Block.Alters l a b) {p : Nat} {e : Egress}
    (s : frameRegs.sub l = true := by decide) : Block.Alters l a (b.enqueue p e) := by
  have hcount (d : RegDesc) (hd : d.offs.sub frameRegs = true) (hlies : d.Lies) : Block.Alters frameRegs b (b.count d p) :=
    .countAny .refl hd hlies
  refine h.trans (l' := frameRegs) ?_ s
  unfold Block.enqueue
  refine .ite (.of_regs .refl) ?_
  split
  · exact hcount _ (by decide) (by decide)
  · exact hcount _ (by decide) (by decide)

theorem Block.Alters.enqueueAll {l : RegSet} {a b : Block} (h : Block.Alters l a b) {p cls : Nat} {frames : List (List Byte)}
    (s : frameRegs.sub l = true := by decide) : Block.Alters l a (b.enqueueAll p cls frames) :=
  h.fold frames (fun _ _ hx => hx.enqueue s)

theorem Block.Alters.udpSend {l : RegSet} {a b : Block} (h : Block.Alters l a b) {p cls : Nat} {d : UdpDesc}
    (s : frameRegs.sub l = true := by decide) : Block.Alters l a (b.udpSend p cls d) := by
  unfold Block.udpSend
  exact .ite (h.trans (l' := frameRegs) (.countAny .refl (by decide) (by decide)) s) (.enqueueAll (.of_regs h) s)

/-! ### Publishers -/

/-- Registers that a publisher's message may change. -/
def pubRegs : RegSet := .all Blk.alm :: (frameRegs ++ eventRegs)

theorem pubSent_lies {p : Nat} (hp : p < 8) : Reg.ALM_PUB_SENT.Lies p :=
  ⟨by decide, by simp only [Reg.ALM_PUB_SENT]; omega, by decide⟩

section pub
variable {a b : Block} (h : Block.Alters pubRegs a b)
include h

theorem Block.Alters.pubSend {p : Nat} (hp : p < 8) {aborted : Bool} : Block.Alters pubRegs a (b.pubSend p aborted) := by
  have hsent (x : Block) (hx : Block.Alters pubRegs a x) : Block.Alters pubRegs a (x.count Reg.ALM_PUB_SENT 0 p) :=
    hx.countBlk (by decide) (pubSent_lies hp) (by decide)
  unfold Block.pubSend
  exact .ite (hsent _ h.enqueueAll) (.ite (.event (h.count (by decide) (by decide) (by decide)))
    (.ite (.eventRep (.irq (h.count (by decide) (by decide) (by decide)) (by decide)))
      (hsent _ (.touched (.udpSend (.of_regs h)) (Block.noteSigned_touches ..)))))

theorem Block.Alters.pubChange {p : Nat} (hp : p < 8) {st t : Nat} {data : List Nat} : Block.Alters pubRegs a (b.pubChange p st t data) :=
  .pubSend h.of_regs hp

theorem Block.Alters.pubRefresh : Block.Alters pubRegs a b.pubRefresh :=
  List.foldlRecOn _ _ h (fun _ hx _ he => .ite (hx.pubChange (List.mem_range.mp he)) (.ite hx.of_regs hx))

theorem Block.Alters.almMode : Block.Alters pubRegs a b.almMode := by
  have hpins := h.touched (Block.pulsesDriven_touches b)
  exact .pubRefresh (.ite hpins (hpins.setVis (by decide) (by decide) (by decide)))

theorem Block.Alters.pubUpdate {r seq t : Nat} : Block.Alters pubRegs a (b.pubUpdate r seq t) :=
  List.foldlRecOn _ _ h (fun _ hx _ he => .ite (hx.pubChange (List.mem_range.mp he)) hx)

end pub

/-! ### Hand-overs and capture units -/

/-- A hand-over of sets that stand in a set of registers. -/
theorem Block.Alters.handover {l : RegSet} {a b : Block} (h : Block.Alters l a b) {p : Nat → Bool} {group : Nat → Nat}
    {ok : Block → Tbl Word → Bool} {reject : Block → Nat → Block} (hp : ∀ k, p k = true → l.has (keyBlk k) (keyOff k) = true)
    (hreject : ∀ x k, Block.Alters l a x → Block.Alters l a (reject x k)) : Block.Alters l a (b.handover p group ok reject) := by
  have hout {j : Nat} {e : Nat × Word} (hj : l.has (keyBlk j) (keyOff j) = false) (he : p e.1 = true) : j ≠ e.1 := by
    rintro rfl
    rw [hp _ he] at hj
    cases hj
  refine Block.handover_induction (P := Block.Alters l a) (fun s hs => ?_) (fun x s hs hx => ?_) hreject
  · refine ⟨fun j hj => (h.reg j hj).of_vis rfl, fun j hj d => Eq.trans ?_ (h.act j hj d)⟩
    refine List.foldlRecOn (motive := fun v => Tbl.get v j d = Tbl.get b.regs.act j d) s _ rfl (fun v hv e he => ?_)
    exact (Tbl.get_put_other _ _ _ _ _ _ (hout hj (Block.comSets_asked (hs e he)))).trans hv
  · exact ⟨fun j hj => (hx.reg j hj).unshadow (fun e he => hout hj (hs e he)), hx.act⟩

/-- Registers that capture units may change. -/
def capRegs : RegSet := .all Blk.cap :: (Reg.CAP_OVERWRITTEN.offs ++ Reg.CAP_NOSPACE.offs ++ pushRegs)

section cap
variable {a b : Block} (h : Block.Alters capRegs a b)
include h

theorem Block.Alters.capOverwrite {u : Nat} : Block.Alters capRegs a (b.capOverwrite u) := by
  unfold Block.capOverwrite
  dsimp only
  split
  · exact h
  · exact .event (.irq (.countAny (.of_regs h) (by decide) (by decide)) (by decide))

theorem Block.Alters.capFull {u : Nat} : Block.Alters capRegs a (b.capFull u) :=
  .event (.irq (.countAny (.of_regs h) (by decide) (by decide)) (by decide))

theorem Block.Alters.capSeal {u : Nat} {truncated : Bool} : Block.Alters capRegs a (b.capSeal u truncated) := by
  unfold Block.capSeal
  extract_lets x period
  split
  · exact h
  · extract_lets hi after flags stored cycled mine kept pushed noted room
    have hcycled : Block.Alters capRegs a cycled := (h.touched (Block.store_touches ..)).touched (Block.capCycles_touches ..)
    have hnoted : Block.Alters capRegs a noted := .event (.irq (.push (.of_regs hcycled)) (by decide))
    exact .touched (.ite hnoted (.ite hnoted.capOverwrite hnoted.capFull)) (Block.capHoldCheck_touches ..)

theorem Block.Alters.capRefresh {u : Nat} : Block.Alters capRegs a (b.capRefresh u) := by
  have hempty := h.touched (Block.capEmpty_touches b u)
  unfold Block.capRefresh
  exact .ite
    (.ite (.ite (.of_regs hempty) (.ite (.capOverwrite (.of_regs hempty)) (.capFull (.of_regs hempty))))
      (.ite (.touched (.of_regs h.capOverwrite) (Block.capHoldCheck_touches ..)) h))
    (.ite h (.of_regs (.ite h.capSeal h)))

theorem Block.Alters.capHandover {u : Nat} : Block.Alters capRegs a (b.capHandover u) := by
  unfold Block.capHandover
  refine .ite h (.ite h (.capRefresh ?_))
  have hover := h.handover (p := fun k => keyBlk k == Blk.cap && keySpace k == 0 && keyInst k == u) (group := fun _ => 0)
    (ok := fun b _ => b.capSetOk u) (reject := fun b _ => (b.irq Blk.cap 4).event 0x0D06 u (b.capU u).num (ns32 (b.capU u).lastT))
    (fun k hk => by
      simp only [Bool.and_eq_true, beq_iff_eq] at hk
      rw [hk.1.1]
      have hoff : keyOff k < 65536 := Nat.mod_lt _ (by decide)
      simp [capRegs, RegSet.has, RegRange.has]
      omega)
    (fun _ _ hx => .event (hx.irq (by decide)))
  exact .ite hover (hover.touched (Block.capEmpty_touches ..))

theorem Block.Alters.capMode : Block.Alters capRegs a b.capMode := h.fold _ (fun _ _ hx => hx.capRefresh.capHandover)

end cap

/-! ### Pulse outputs -/

/-- Registers that hand-overs of TIM may change. -/
def timRegs : RegSet := .all Blk.tim :: eventRegs

section pulses
variable {a b : Block} (h : Block.Alters timRegs a b)
include h

theorem Block.Alters.poArm {i : Nat} (hi : i < 8) : Block.Alters timRegs a (b.poArm i) := by
  unfold Block.poArm
  refine .ite (.of_regs h) ?_
  split
  · exact .of_regs h
  · refine .eventRep (.irq ?_ (by decide))
    exact .raiseBit (.of_regs h) (by decide) (by decide) (by omega) (by decide)

theorem Block.Alters.poHandover {i : Nat} (hi : i < 8) : Block.Alters timRegs a (b.poHandover i) := by
  unfold Block.poHandover
  refine .ite h ?_
  have hover := h.handover (p := fun k => Tim.isPo k && keyInst k == i) (group := fun _ => i)
    (ok := fun b sets => match sets with | e :: _ => b.poOk e.1 | [] => true) (reject := Block.timReject)
    (fun k hk => by
      simp only [Bool.and_eq_true, beq_iff_eq, Tim.isPo] at hk
      rw [hk.1.1]
      have hoff : keyOff k < 65536 := Nat.mod_lt _ (by decide)
      simp [timRegs, RegSet.has, RegRange.has]
      omega)
    (fun _ _ hx => .event (hx.irq (by decide)))
  exact .ite hover (hover.poArm hi)

theorem Block.Alters.pulsesEnd : Block.Alters timRegs a b.pulsesEnd := by
  unfold Block.pulsesEnd
  refine .ite h (List.foldlRecOn _ _ h (fun x hx i hi => ?_))
  exact .ite (.poHandover (.of_regs hx) (List.mem_range.mp hi)) hx

end pulses

/-! ### Heartbeats -/

/-- Registers that a heartbeat's frame may change. -/
def sendRegs : RegSet := frameRegs

theorem Block.mirrorSend_alters (b : Block) (cls : Nat) (body : List Byte) : Block.Alters sendRegs b (b.mirrorSend cls body) := by
  unfold Block.mirrorSend
  split
  · exact .refl
  · exact .enqueue .refl

theorem Block.redSend_alters (b : Block) (path type seq : Nat) : Block.Alters sendRegs b (b.redSend path type seq) := by
  unfold Block.redSend
  exact .ite .refl (.touched (.ite (Block.mirrorSend_alters ..) .refl) (Block.redNote_touches ..))

theorem Block.redSendBoth_alters (b : Block) (type : Nat) : Block.Alters sendRegs b (b.redSendBoth type) :=
  (Block.redSend_alters ..).trans (Block.redSend_alters ..)

/-- Registers that FAIL may change. -/
def failRegs : RegSet := frameRegs ++ eventRegs

theorem Block.redFail_alters (b : Block) : Block.Alters failRegs b b.redFail := by
  unfold Block.redFail
  exact .ite (.event ((Block.redSendBoth_alters ..).mono)) .refl

/-! ### Modes -/

/-- Registers that a change of mode may change. -/
def modeRegs : RegSet := .one Blk.sys 0x400 :: .any Reg.MEM_SCRUB_CFG.off :: .all Blk.tim :: .all Blk.alm :: (frameRegs ++ capRegs)

theorem Block.setMode_alters (b : Block) (m : Mode) (cause : Nat) : Block.Alters modeRegs b (b.setMode m cause) := by
  have hpause (x : Block) (hx : Block.Alters modeRegs b x) : Block.Alters modeRegs b x.clearPause :=
    hx.fold _ (fun _ _ hy => hy.setAny (by decide) (by decide))
  unfold Block.setMode
  extract_lets old failed source moded told noted paused
  have hfailed : Block.Alters modeRegs b failed := .touched (.ite ((Block.redFail_alters b).mono) .refl) (Block.noteUnlocked_touches _)
  have hmoded : Block.Alters modeRegs b moded := hfailed.of_regs
  have htold : Block.Alters modeRegs b told := .event (hmoded.irq (by decide))
  have hnoted : Block.Alters modeRegs b noted := htold.touched (Block.noteUnlocked_touches _)
  have hpaused : Block.Alters modeRegs b paused := .ite (hpause _ hnoted) hnoted
  refine .ite .refl ?_
  exact ((hpaused.trans (Block.Alters.almMode .refl)).trans (Block.Alters.capMode .refl)).trans (Block.Alters.pulsesEnd .refl)

/-- SYS's part after a change of mode. -/
theorem Block.setMode_sys (b : Block) {m : Mode} (cause : Nat) (h : b.sys.mode ≠ m) : (b.setMode m cause).sys =
    { b.sys with
      mode := m
      enteredFrom := if m = Mode.maintenance ∧ b.sys.mode ≠ Mode.debug then b.sys.mode else b.sys.enteredFrom
      goodSince := if m.confirms = true then (if b.sys.mode.confirms = true then b.sys.goodSince else some b.t7) else none } := by
  unfold Block.setMode
  extract_lets old failed source moded told noted paused
  have hfailed : failed.sys = b.sys := by
    unfold failed
    split
    · exact (Block.redFail_touches b).keeps .sys rfl
    · rfl
  have hmoded : moded.sys = { b.sys with
      mode := m
      enteredFrom := if m = Mode.maintenance ∧ b.sys.mode ≠ Mode.debug then b.sys.mode else b.sys.enteredFrom
      goodSince := if m.confirms = true then (if b.sys.mode.confirms = true then b.sys.goodSince else some b.t7) else none } := by
    have ht7 : failed.t7 = b.t7 := by
      unfold failed
      split
      · exact (Block.redFail_touches b).keeps .t7 rfl
      · rfl
    unfold moded source
    rw [hfailed, ht7]
  have htold : told.sys = moded.sys := (Block.event_touches (moded.irq Blk.sys 0) ..).keeps .sys rfl
  have hpaused : paused.sys = noted.sys := by
    unfold paused
    split
    · exact (Block.clearPause_touches _).keeps .sys rfl
    · rfl
  rw [if_neg h, show paused.almMode.capMode.pulsesEnd.sys = paused.almMode.capMode.sys from (Block.pulsesEnd_touches _).keeps .sys rfl,
    show paused.almMode.capMode.sys = paused.almMode.sys from (Block.capMode_touches _).keeps .sys rfl,
    show paused.almMode.sys = paused.sys from (Block.almMode_touches _).keeps .sys rfl, hpaused]
  exact htold.trans hmoded

theorem Block.setMode_mode (b : Block) {m : Mode} (cause : Nat) (h : b.sys.mode ≠ m) : (b.setMode m cause).sys.mode = m :=
  congrArg Sys.mode (b.setMode_sys cause h)

/-- The pair's settings outlast a change of mode. -/
theorem Block.setMode_redOn (b : Block) (m : Mode) (cause : Nat) : (b.setMode m cause).redOn = b.redOn := by
  have hcfg := (b.setMode_alters m cause).cfg (d := Reg.RED_CFG) (i := 0) (k := 0) (by decide) (by decide) (by decide)
  unfold Block.redOn Block.cb
  rw [hcfg]

/-! ### Mode requests (R427 to R429) -/

/-- A command by a master whose register stands outside the instance windows: its effect, then the answer. -/
theorem Completes.byGlobal {c : Instr} {s : State} {t m blk off : Nat} {P : Block → Prop} (f : Block → Block)
    (hc : exec c s = s.runIf (Wf.master m) t (fun b => b.byMaster m blk off f)) (h : s.blk.mayWrite m blk off) (ho : 0x400 ≤ off)
    (hp : P ((f (s.at t)).answer m .written)) : Completes c s P := by
  refine Completes.byMaster hc (decide_eq_true h.1) h ?_
  rwa [Block.advance_global _ _ _ ho]

/-- A refused request. -/
theorem Block.modeRefused_done (b : Block) (m code : Nat) :
    b.counts (b.modeRefused m code) Reg.SYS_MODE_REQ_REFUSED ∧ (b.modeRefused m code).sys = b.sys :=
  ⟨(Block.Alters.refl (l := [])).counts (Block.event_alters ..) (by decide) (by decide) (by decide) (by decide) (by decide),
    ((Block.event_touches ..).keeps .sys rfl).trans ((Block.count_touches ..).keeps .sys rfl)⟩

/-- A request for MAINTENANCE that is met at once. -/
theorem Block.reqMaintenance_met {b : Block} (force : Bool) (h : b.sys.mode = .standby ∨
    ((b.sys.mode = .active ∨ b.sys.mode = .holdover ∨ b.sys.mode = .degraded) ∧ (b.redActive && b.redPresent) = false)) :
    b.reqMaintenance 0 force = b.setMode .maintenance 0 := by
  rcases h with h | ⟨h, hpair⟩
  · simp only [Block.reqMaintenance, h]
  · have hnot : ¬ (b.redActive = true ∧ b.redPresent = true) := by
      rw [← Bool.and_eq_true, hpair]
      decide
    rcases h with h | h | h <;> simp only [Block.reqMaintenance, h, if_neg hnot]

/-- HC0 leaves MAINTENANCE for the mode that the state calls for. -/
theorem Block.reqActive_mode {b : Block} (h : b.sys.mode = .maintenance) (hpair : b.redOn = false ∨ b.degradeCause = 0) :
    (b.reqActive 0).sys.mode = (if b.redOn = true ∧ b.redActive = false then .standby else if b.degradeCause ≠ 0 then .degraded
      else if (b.tb 0).st = .locked then .active else .holdover) := by
  unfold Block.reqActive
  simp only [h]
  split
  · exact b.setMode_mode 0 (by rw [h]; decide)
  · have hmode : (b.setMode b.serviceMode 0).sys.mode = b.serviceMode := by
      refine b.setMode_mode 0 ?_
      rw [h]
      rcases b.serviceMode_follows with hm | hm | hm | hm <;> rw [hm] <;> decide
    have hstays : (b.setMode b.serviceMode 0).redYield = b.setMode b.serviceMode 0 := by
      refine if_neg (fun ⟨hactive, hyields⟩ => ?_)
      simp only [Block.redActive, Block.redYields, Bool.and_eq_true, beq_iff_eq] at hactive hyields
      rw [Block.setMode_redOn] at hactive
      have hdegraded : b.serviceMode = .degraded := hmode ▸ hyields.1.1
      rcases hpair with hoff | hcause
      · rw [hoff] at hactive
        exact Bool.noConfusion hactive.1
      · unfold Block.serviceMode at hdegraded
        rw [if_neg (not_not_intro hcause)] at hdegraded
        split at hdegraded <;> cases hdegraded
    rw [hstays, hmode]
    rfl

theorem Block.reqDebug_met {b : Block} (h : b.sys.mode = .maintenance) (hopen : b.key.debugOpen = true) : b.reqDebug 0 = b.setMode .debug 0 := by
  simp only [Block.reqDebug, h, if_pos hopen]

theorem Block.reqHalt_met {b : Block} (h : b.sys.mode = .maintenance) : b.reqHalt 0 = b.enterHalt 6 := by simp only [Block.reqHalt, h]

/-- HALT (R427). -/
theorem Block.enterHalt_sys {b : Block} (cause : Nat) (h : b.sys.mode ≠ .halt) :
    (b.enterHalt cause).sys.mode = .halt ∧ (b.enterHalt cause).sys.haltCause = cause ∧ (b.enterHalt cause).sys.haltAt = b.t7 := by
  unfold Block.enterHalt
  rw [if_neg h]
  extract_lets held power source
  have hheld : Touches [.vis, .evr, .prt, .aln] (b.setMode .halt cause) held :=
    (Touches.refl.trans (Block.ringsHalt_touches _) rfl).trans (Block.linksDown_touches _) rfl
  have hsys : held.sys = (b.setMode .halt cause).sys := hheld.keeps .sys rfl
  have ht7 : held.t7 = (b.setMode .halt cause).t7 := hheld.keeps .t7 rfl
  have hnow : (b.setMode .halt cause).t7 = b.t7 := (Block.setMode_touches b .halt cause).keeps .t7 rfl
  have hmode : held.sys.mode = .halt := (congrArg Sys.mode hsys).trans (b.setMode_mode cause h)
  clear_value held
  exact ⟨hmode, rfl, ht7.trans hnow⟩

section refused
variable {b : Block} {m : Nat}

theorem Block.reqActive_refused (h : m ≠ 0 ∨ b.sys.mode ≠ .maintenance) : b.reqActive m = b.modeRefused m 3 := by
  unfold Block.reqActive
  split
  · rename_i hmode
    simp [hmode] at h
  · rfl

theorem Block.reqDebug_refused (h : m ≠ 0 ∨ b.sys.mode ≠ .maintenance ∨ b.key.debugOpen = false) : b.reqDebug m = b.modeRefused m 9 := by
  unfold Block.reqDebug
  split
  · rename_i hmode
    rw [if_neg (by simpa [hmode] using h)]
  · rfl

theorem Block.reqHalt_refused (h : m ≠ 0 ∨ b.sys.mode ≠ .maintenance) : b.reqHalt m = b.modeRefused m 11 := by
  unfold Block.reqHalt
  split
  · rename_i hmode
    simp [hmode] at h
  · rfl

/-- Only HC0 has requests, and of four codes only. -/
theorem Block.modeReq_refused {code : Nat} (h : m ≠ 0 ∨ [3, 8, 9, 11].contains code = false) : b.modeReq m code false = b.modeRefused m code := by
  unfold Block.modeReq
  split
  · exact Block.reqActive_refused (.inl (h.resolve_right (by decide)))
  · have hm := h.resolve_right (by decide)
    unfold Block.reqMaintenance
    split <;> first | rfl | exact absurd rfl hm
  · exact Block.reqDebug_refused (.inl (h.resolve_right (by decide)))
  · exact Block.reqHalt_refused (.inl (h.resolve_right (by decide)))
  · rfl

end refused

/-- A refused request completes with its count. -/
theorem Completes.modeRefused {c : Instr} {s : State} {t m code : Nat} (f : Block → Block)
    (hc : exec c s = s.runIf (Wf.master m) t (fun b => b.byMaster m 0 0x414 f)) (h : s.blk.mayWrite m 0 0x414)
    (hf : f (s.at t) = (s.at t).modeRefused m code) :
    Completes c s (fun b => s.blk.counts b Reg.SYS_MODE_REQ_REFUSED ∧ b.sys.mode = s.blk.sys.mode) := by
  obtain ⟨hcounts, hsys⟩ := (s.at t).modeRefused_done m code
  refine Completes.byGlobal f hc h (by decide) ?_
  rw [hf]
  exact ⟨hcounts, congrArg Sys.mode hsys⟩

/-- Settles O46: each request by the operation that meets or refuses it. -/
theorem modeRequestsAreMetOrRefused : Obligations.ModeRequestsAreMetOrRefused := by
  refine ⟨fun t force s hm h => ?_, fun t s hm h hpair => ?_, fun t s hm h hopen => ?_, fun t s hm h => ?_, fun t m code s hm h => ?_,
    fun t m s hm h => ?_, fun t m s hm h => ?_, fun t m s hm h => ?_⟩
  · refine Completes.byGlobal (fun b => b.modeReq 0 8 force) rfl hm (by decide) ?_
    have hmode : s.blk.sys.mode ≠ .maintenance := by rcases h with h | ⟨h | h | h, -⟩ <;> rw [h] <;> decide
    have hdebug : s.blk.sys.mode ≠ .debug := by rcases h with h | ⟨h | h | h, -⟩ <;> rw [h] <;> decide
    have hsys : ((s.at t).modeReq 0 8 force).sys = ((s.at t).setMode .maintenance 0).sys :=
      congrArg Block.sys (Block.reqMaintenance_met (b := s.at t) force h)
    rw [Block.setMode_sys (s.at t) 0 hmode] at hsys
    exact ⟨congrArg Sys.mode hsys, (congrArg Sys.enteredFrom hsys).trans (if_pos ⟨rfl, hdebug⟩)⟩
  · exact Completes.byGlobal (fun b => b.modeReq 0 3 false) rfl hm (by decide) (Block.reqActive_mode (b := s.at t) h hpair)
  · refine Completes.byGlobal (fun b => b.modeReq 0 9 false) rfl hm (by decide) ?_
    have hmet : ((s.at t).modeReq 0 9 false).sys = ((s.at t).setMode .debug 0).sys := congrArg Block.sys (Block.reqDebug_met (b := s.at t) h hopen)
    exact (congrArg Sys.mode hmet).trans ((s.at t).setMode_mode 0 (by rw [State.at, Block.clock_sys, h]; decide))
  · refine Completes.byGlobal (fun b => b.modeReq 0 11 false) rfl hm (by decide) ?_
    have hmet : ((s.at t).modeReq 0 11 false).sys = ((s.at t).enterHalt 6).sys := congrArg Block.sys (Block.reqHalt_met (b := s.at t) h)
    obtain ⟨hmode, hcause, hat⟩ := Block.enterHalt_sys (b := s.at t) 6 (by rw [State.at, Block.clock_sys, h]; decide)
    rw [← hmet] at hmode hcause hat
    exact ⟨hmode, hcause, hat⟩
  · exact Completes.modeRefused (fun b => b.modeReq m (code % 16) false) rfl hm (Block.modeReq_refused h)
  · exact Completes.modeRefused (fun b => b.modeReq m 3 false) rfl hm (Block.reqActive_refused h)
  · exact Completes.modeRefused (fun b => b.modeReq m 9 false) rfl hm (Block.reqDebug_refused h)
  · exact Completes.modeRefused (fun b => b.modeReq m 11 false) rfl hm (Block.reqHalt_refused h)

end Sys2Proof.Machine
end

section
/-! PROOFS. What SAVE changes of the registers; power, temperature and hold-up (O49). -/

/- One declaration after the other: the text is checked as one, with room for few threads. -/
set_option Elab.async false

namespace Sys2Proof.Machine

/-! ### Rows and triggers of captures -/

/-- Registers that triggers and rows of a capture may change. -/
def trigRegs : RegSet := .windows :: (Reg.CAS_TRIG_TX.regs ++ capRegs)

section captures
variable {a b : Block} (h : Block.Alters trigRegs a b)
include h

theorem Block.Alters.casTrigger {line t member : Nat} : Block.Alters trigRegs a (b.casTrigger line t member) := by
  unfold Block.casTrigger
  exact .ite (.touched (h.count (by decide) (by decide) (by decide)) (Block.casSend_touches ..)) h

theorem Block.Alters.capOpen {u t : Nat} {trs : List CapTrig} : Block.Alters trigRegs a (b.capOpen u t trs) := by
  unfold Block.capOpen
  extract_lets x want pre k counted noted line r
  have hcounted : Block.Alters trigRegs a counted := .countAny (.of_regs h) (by decide) (by decide)
  have hnoted : Block.Alters trigRegs a noted := hcounted.event
  have hr : Block.Alters trigRegs a r.1 := hnoted.touched (Block.busSignal_touches ..)
  exact .ite (.ite hr.casTrigger hr) hnoted

theorem Block.Alters.capTrigger {u t : Nat} {trs : List CapTrig} : Block.Alters trigRegs a (b.capTrigger u t trs) := by
  have hcheck {x : Block} (hx : Block.Alters trigRegs a x) : Block.Alters trigRegs a (x.capHoldCheck u) := hx.touched (Block.capHoldCheck_touches ..)
  unfold Block.capTrigger
  extract_lets checked x w n held rest y
  have hchecked : Block.Alters trigRegs a checked := hcheck h
  have hcount {z : Block} (hz : Block.Alters trigRegs a z) (d : RegDesc) (k : Nat) (hd : d.offs.sub trigRegs = true) (hl : d.Lies) :
      Block.Alters trigRegs a (z.count d u 0 k) := hz.countAny hd hl
  have hheld : Block.Alters trigRegs a held := hcheck (.of_regs (hcount hchecked Reg.CAP_HELD_OFF n (by decide) (by decide)))
  refine .ite hchecked ?_
  split
  · exact hchecked.capOpen
  · split
    · exact .ite (.of_regs hchecked) (hcount (.of_regs hchecked) Reg.CAP_RETRIGGERS _ (by decide) (by decide))
    · exact hchecked
  · exact .ite hheld (.ite hheld.capOpen (.of_regs (hcount hheld Reg.CAP_HELD_OFF _ (by decide) (by decide))))
  · exact hcount hchecked _ _ (by decide) (by decide)
  · exact hchecked

end captures

theorem Block.capRoom_alters (u pos sz : Nat) : ∀ (n : Nat) (b z : Block), b.capRoom u pos sz n = some z → Block.Alters capRegs b z
  | 0, _, _, h => by cases h
  | n + 1, b, z, h => by
    have hseal : Block.Alters capRegs b (b.capSeal u true) := .capSeal .refl
    have hover : Block.Alters capRegs b (b.capOverwrite u) := .capOverwrite .refl
    unfold Block.capRoom at h
    dsimp only at h
    split at h
    · split at h
      · split at h
        · exact hseal.trans (Block.capRoom_alters u pos sz n _ z h)
        · exact hover.trans (Block.capRoom_alters u pos sz n _ z h)
      · cases h
        exact .ite hseal hseal.capFull
    · cases h
      exact .of_regs .refl

theorem Block.capRow_alters (b : Block) (u red code t e : Nat) (bytes : List Byte) : Block.Alters capRegs b (b.capRow u red code t e bytes) := by
  unfold Block.capRow
  dsimp only
  split
  · exact .touched (.of_regs .refl) (Block.capStoreRow_touches ..)
  · split
    · exact .refl
    · rename_i z hz
      have hroom := Block.capRoom_alters _ _ _ _ _ _ hz
      exact .ite hroom (.touched (.of_regs hroom) (Block.capStoreRow_touches ..))

/-- A row of cycle values, with the triggers by level that it brings (R302). -/
theorem Block.capInterval_alters (b : Block) (p s e : Nat) : Block.Alters trigRegs b (b.capInterval p s e) := by
  refine .fold _ .refl (fun x u hx => ?_)
  refine .trans (.fold _ hx (fun y r hy => ?_)) (Block.Alters.capHandover .refl)
  refine .ite hy ?_
  extract_lets chans inside rms flags q d drawn lead row res
  have hrow : Block.Alters trigRegs b row := .trans (.touched hy (Block.draw_touches y)) (Block.capRow_alters ..)
  have hres : Block.Alters trigRegs b res.1 :=
    List.foldlRecOn (motive := fun acc : Block × List CapTrig => Block.Alters trigRegs b acc.1) _ _ hrow
      (fun acc hacc c _ => hacc.touched (Block.capLevels_touches ..))
  exact hres.capTrigger

/-! ### Metering frozen (R293) -/

/-- Registers that metering may change. -/
def nrgRegs : RegSet := .all Blk.nrg :: trigRegs

theorem Block.eventAt_alters (b : Block) (code src a0 a1 ns : Nat) (est : Bool) (words : Option (List Nat)) :
    Block.Alters eventRegs b (b.eventAt code src a0 a1 ns est words) := by
  have hc : Block.Alters eventRegs b (b.count Reg.EVR_EVENTS) := .count .refl (by decide) (by decide) (by decide)
  unfold Block.eventAt
  dsimp only
  split
  · exact .trans (.of_regs hc) (Block.holdEvent_alters _ _)
  · split
    · exact hc.of_regs
    · exact .count (.of_regs hc) (by decide) (by decide) (by decide)

section meter
variable {a b : Block} (h : Block.Alters nrgRegs a b)
include h

theorem Block.Alters.nrgZero {p : Nat} : Block.Alters nrgRegs a (b.nrgZero p) := by
  unfold Block.nrgZero
  extract_lets x cleared
  have hcleared : Block.Alters nrgRegs a cleared := .of_regs h
  exact .of_regs (hcleared.irq (blk := Blk.nrg) (n := 4) (by decide))

theorem Block.Alters.nrgClearDue {p : Nat} : Block.Alters nrgRegs a (b.nrgClearDue p) := by
  unfold Block.nrgClearDue
  extract_lets x v n noted
  have hnoted : Block.Alters nrgRegs a noted := h.trans (Block.eventAt_alters ..)
  refine .ite h (.ite (.countAny (.of_regs hnoted) (by decide) (by decide)) (.ite hnoted.nrgZero (.of_regs hnoted)))

theorem Block.Alters.nrgHandover {p : Nat} : Block.Alters nrgRegs a (b.nrgHandover p) := by
  unfold Block.nrgHandover
  extract_lets mine sig old taken
  have htaken : Block.Alters nrgRegs a taken := by
    refine h.handover (fun k hk => ?_) (fun _ _ hx => .event (hx.irq (by decide)))
    simp only [mine, Bool.and_eq_true, beq_iff_eq] at hk
    rw [hk.1]
    have hoff : keyOff k < 65536 := Nat.mod_lt _ (by decide)
    simp [nrgRegs, RegSet.has, RegRange.has]
    omega
  exact .ite h (.ite htaken (.of_regs htaken))

theorem Block.Alters.intervalEnd {p e : Nat} {crossing : Bool} : Block.Alters nrgRegs a (b.intervalEnd p e crossing) := by
  unfold Block.intervalEnd
  extract_lets x kept
  split
  · exact .of_regs h
  · extract_lets r pt qt st tt adds acc summed power apparent freq last
    have hsummed : Block.Alters nrgRegs a summed := .ite (.of_regs h) (.touched (.of_regs h) (Block.accUpdate_touches ..))
    have hpower : Block.Alters nrgRegs a power := .setWindow (hsummed.setWindow (d := Reg.NRG_PT_P) (by decide)) (by decide)
    have happarent : Block.Alters nrgRegs a apparent := hpower.setWindow (by decide)
    have hfreq : Block.Alters nrgRegs a freq := happarent.setWindow (by decide)
    have hlast : Block.Alters nrgRegs a last := hfreq.setWindow (by decide)
    exact .trans hlast.nrgClearDue.nrgHandover (Block.capInterval_alters ..)

theorem Block.Alters.nrgFreeze : Block.Alters nrgRegs a b.nrgFreeze := by
  have hended : Block.Alters nrgRegs a ((List.range 4).foldl
      (fun b p => if b.nrgOn p && (b.nrgPt p).start.isSome then b.intervalEnd p b.now false else b) b) :=
    h.fold _ (fun _ _ hx => .ite hx.intervalEnd hx)
  unfold Block.nrgFreeze
  refine .ite h ?_
  extract_lets ended
  have hnoted : Block.Alters nrgRegs a (({ ended with nrg := { ended.nrg with frozen := some ended.now } }).event 0x0C03) := .event (.of_regs hended)
  unfold Block.saveNow
  extract_lets n seq bs stored source
  have hstored : Block.Alters nrgRegs a stored := hnoted.touched (Block.store_touches ..)
  exact .count (.of_regs hstored) (by decide) (by decide) (by decide)

end meter

/-! ### SAVE (R442) -/

/-- Registers that the entry into SAVE may change. -/
def saveRegs : RegSet := .one Blk.evr 0x400 :: (modeRegs ++ nrgRegs)

/-- Registers that the end of a freeze may change. -/
def freezeRegs : RegSet := .one Blk.evr 0x400 :: eventRegs

theorem Block.freezeEnds_alters (b : Block) : Block.Alters freezeRegs b b.freezeEnds := by
  unfold Block.freezeEnds
  exact .ite .refl (.ite (.of_regs .refl) (.event (.irq (.of_regs .refl) (by decide))))

theorem Block.enterSave_alters (b : Block) (cause : Nat) : Block.Alters saveRegs b (b.enterSave cause) := by
  unfold Block.enterSave
  split
  · exact .refl
  · exact .refl
  · extract_lets thawed source caused moded frozen
    have hcaused : Block.Alters saveRegs b caused := .of_regs ((Block.freezeEnds_alters b).mono)
    have hmoded : Block.Alters saveRegs b moded := hcaused.trans (Block.setMode_alters ..)
    have hfrozen : Block.Alters saveRegs b frozen := .ite hmoded (hmoded.trans (Block.Alters.nrgFreeze .refl))
    exact hfrozen.of_regs

/-- From any other mode, SAVE begins with its cause, and output halts. -/
theorem Block.enterSave_begins {b : Block} (cause : Nat) (h : b.sys.mode ≠ .save) (h' : b.sys.mode ≠ .halt) :
    (b.enterSave cause).sys.mode = .save ∧ (b.enterSave cause).sys.saveCause = cause ∧ (b.enterSave cause).out.halted = true := by
  unfold Block.enterSave
  split
  · contradiction
  · contradiction
  · extract_lets thawed source caused moded frozen
    have hthawed : thawed.sys = b.sys := (Block.freezeEnds_touches b).keeps .sys rfl
    have hmode : caused.sys.mode ≠ .save := by
      show thawed.sys.mode ≠ .save
      rwa [hthawed]
    have hsys := caused.setMode_sys cause hmode
    have hfrozen : frozen.sys = moded.sys := by
      unfold frozen
      split
      · rfl
      · exact (Block.nrgFreeze_touches _).keeps .sys rfl
    have hfsys := hfrozen.trans hsys
    exact ⟨congrArg Sys.mode hfsys, congrArg Sys.saveCause hfsys, rfl⟩

/-! ### The power-fail warning and the die temperature (R442, R444) -/

theorem Block.enterSave_pwr (b : Block) (cause : Nat) : (b.enterSave cause).pwr = b.pwr := (Block.enterSave_touches ..).keeps .pwr rfl

theorem Mode.saved_iff (m : Mode) : m.saved = true ↔ m = .save ∨ m = .halt := by cases m <;> simp [Mode.saved]

/-- An event of PWR leaves the mode and PWR's part. -/
theorem Block.pwrEvent_keeps (b : Block) (n code src a0 a1 : Nat) :
    ((b.irq Blk.pwr n).event code src a0 a1).sys = b.sys ∧ ((b.irq Blk.pwr n).event code src a0 a1).pwr = b.pwr :=
  ⟨(Block.event_touches (b.irq Blk.pwr n) ..).keeps .sys rfl, (Block.event_touches (b.irq Blk.pwr n) ..).keeps .pwr rfl⟩

/-- The power-fail warning outside SAVE and HALT. -/
theorem Block.powerFail_begins {b : Block} (h : b.sys.mode ≠ .save) (h' : b.sys.mode ≠ .halt) :
    b.powerFail.sys.mode = .save ∧ b.powerFail.sys.saveCause = 4 ∧ b.powerFail.pwr.pfWarn = true ∧ b.powerFail.out.halted = true ∧
      b.counts b.powerFail Reg.PWR_PF_WARNINGS := by
  unfold Block.powerFail
  extract_lets power warned counted
  have hsys : counted.sys = b.sys := (Block.count_touches warned ..).keeps .sys rfl
  have hpwr : counted.pwr = warned.pwr := (Block.count_touches warned ..).keeps .pwr rfl
  have hthawed : Touches [.vis, .evr] counted counted.freezeEnds := Block.freezeEnds_touches counted
  obtain ⟨hnsys, hnpwr⟩ := counted.freezeEnds.pwrEvent_keeps 0 0x1801 0xFFFF 0 0
  have hmode : ((counted.freezeEnds.irq Blk.pwr 0).event 0x1801).sys.mode = b.sys.mode :=
    congrArg Sys.mode (hnsys.trans ((hthawed.keeps .sys rfl).trans hsys))
  have hsaved : ¬ counted.sys.mode.saved = true := by
    rw [Mode.saved_iff, hsys]
    exact not_or.mpr ⟨h, h'⟩
  rw [if_neg hsaved]
  obtain ⟨hsave, hcause, hhalted⟩ := Block.enterSave_begins 4 (hmode.trans_ne h) (hmode.trans_ne h')
  refine ⟨hsave, hcause, ?_, hhalted, ?_⟩
  · rw [Block.enterSave_pwr, hnpwr, hthawed.keeps .pwr rfl, hpwr]
  · have hnoted : Block.Alters (.one Blk.pwr 0x400 :: saveRegs) counted ((counted.freezeEnds.irq Blk.pwr 0).event 0x1801) :=
      .event (.irq ((Block.freezeEnds_alters counted).mono) (by decide))
    exact (Block.Alters.of_regs (l := []) .refl).counts (hnoted.trans (Block.enterSave_alters ..)) (by decide) (by decide) (by decide) (by decide) (by decide)

/-- Registers that a sample of the die temperature below a trip may change. -/
def warnRegs : RegSet := .one Blk.pwr 0x400 :: (Reg.PWR_THERM_WARNINGS.regs ++ freezeRegs)

/-- The trip that a sample brings (R444). -/
theorem Block.thermTrip {b : Block} (h : b.sys.mode.saved = false) (arg : Nat) :
    (((b.irq Blk.pwr 3).event 0x1804 0xFFFF arg).enterSave 5).sys.mode = .save ∧
      (((b.irq Blk.pwr 3).event 0x1804 0xFFFF arg).enterSave 5).sys.saveCause = 5 := by
  have hmode : ((b.irq Blk.pwr 3).event 0x1804 0xFFFF arg).sys.mode = b.sys.mode := congrArg Sys.mode (b.pwrEvent_keeps ..).1
  have hsaved : ¬ (b.sys.mode = .save ∨ b.sys.mode = .halt) := by
    rw [← Mode.saved_iff, h]
    decide
  obtain ⟨hsave, hhalt⟩ := not_or.mp hsaved
  obtain ⟨hnow, hcause, -⟩ := Block.enterSave_begins 5 (hmode.trans_ne hsave) (hmode.trans_ne hhalt)
  exact ⟨hnow, hcause⟩

/-- The sample of the die temperature. -/
theorem Block.tempSample_done (b : Block) (temp : Int) :
    (b.tempSample temp).pwr.temp = temp ∧ (b.tempSample temp).pwr.tempMax = some (max (b.pwr.tempMax.getD temp) temp) ∧
      (b.tempSample temp).pwr.thermWarn = (if 580 ≤ temp then true else if temp < 560 then false else b.pwr.thermWarn) ∧
      (632 ≤ temp → b.pwr.temp < 632 → b.counts (b.tempSample temp) Reg.PWR_THERM_TRIPS ∧
        (b.sys.mode ≠ .save → b.sys.mode ≠ .halt → (b.tempSample temp).sys.mode = .save ∧ (b.tempSample temp).sys.saveCause = 5)) := by
  unfold Block.tempSample
  extract_lets old arg thawed warn cool power sampled source warned counted
  have hthawed : Touches [.vis, .evr] b thawed := Touches.ite (Block.freezeEnds_touches b) .refl
  have hpower : thawed.pwr = b.pwr := hthawed.keeps .pwr rfl
  have hsampled : sampled.sys = b.sys := hthawed.keeps .sys rfl
  have hwarned : warned.sys = b.sys ∧ warned.pwr = { sampled.pwr with
      thermWarn := if 580 ≤ temp then true else if temp < 560 then false else b.pwr.thermWarn } := by
    have hwarn : warn = b.pwr.thermWarn := congrArg Pwr.thermWarn hpower
    have hold : sampled.pwr.thermWarn = b.pwr.thermWarn := hwarn
    unfold warned
    split
    · rename_i hhot
      rw [if_pos hhot.1]
      obtain ⟨hs, hp⟩ := Block.pwrEvent_keeps (Block.count { sampled with pwr := { source with thermWarn := true } } Reg.PWR_THERM_WARNINGS) 1 0x1803 0xFFFF arg 0
      exact ⟨hs.trans ((Block.count_sys ..).trans hsampled), hp.trans (Block.count_pwr ..)⟩
    · rename_i hhot
      split
      · rename_i hcool
        rw [if_neg (by omega), if_pos hcool.1]
        obtain ⟨hs, hp⟩ := Block.pwrEvent_keeps { sampled with pwr := { source with thermWarn := false } } 2 0x1805 0xFFFF arg 0
        exact ⟨hs.trans hsampled, hp⟩
      · rename_i hcool
        refine ⟨hsampled, ?_⟩
        have hstays : (if 580 ≤ temp then true else if temp < 560 then false else b.pwr.thermWarn) = sampled.pwr.thermWarn := by
          rw [hold, ← hwarn]
          rw [not_and] at hhot hcool
          split
          · exact ((Bool.not_eq_false _).mp (hhot ‹_›)).symm
          · split
            · exact ((Bool.not_eq_true _).mp (hcool ‹_›)).symm
            · rfl
        rw [hstays]
  have halters : Block.Alters warnRegs b warned := by
    have hs : Block.Alters warnRegs b sampled := .of_regs (.ite ((Block.freezeEnds_alters b).mono) .refl)
    refine .ite (.event (.irq (.count (.of_regs hs) (by decide) (by decide) (by decide)) (by decide))) (.ite (.event (.irq (.of_regs hs) (by decide))) hs)
  obtain ⟨hsys, hpwr⟩ := hwarned
  have hcounted : counted.sys = b.sys ∧ counted.pwr = warned.pwr := ⟨(Block.count_sys ..).trans hsys, Block.count_pwr ..⟩
  clear_value warned
  generalize hz : (if 632 ≤ temp ∧ old < 632 then if counted.sys.mode.saved = true then counted
    else ((counted.irq Blk.pwr 3).event 0x1804 0xFFFF arg).enterSave 5 else warned) = z
  have hzpwr : z.pwr = warned.pwr := by
    rw [← hz]
    split
    · split
      · exact hcounted.2
      · rw [Block.enterSave_pwr, (counted.pwrEvent_keeps ..).2, hcounted.2]
    · rfl
  rw [hzpwr, hpwr]
  refine ⟨rfl, ?_, rfl, fun hhot hold => ?_⟩
  · show some (max (thawed.pwr.tempMax.getD temp) temp) = _
    rw [hpower]
  · rw [if_pos ⟨hhot, hold⟩] at hz
    have hnoted : Block.Alters (.one Blk.pwr 0x400 :: saveRegs) counted z := by
      rw [← hz]
      exact .ite .refl (.trans (.event (.irq .refl (by decide))) (Block.enterSave_alters ..))
    refine ⟨halters.counts hnoted (by decide) (by decide) (by decide) (by decide) (by decide), fun hsave hhalt => ?_⟩
    have hsaved : counted.sys.mode.saved = false := by
      rw [Bool.eq_false_iff, ne_eq, Mode.saved_iff, hcounted.1]
      exact not_or.mpr ⟨hsave, hhalt⟩
    rw [if_neg (by rw [hsaved]; decide)] at hz
    rw [← hz]
    exact Block.thermTrip hsaved arg

/-! ### The hold-up test (R445, R446, R463) -/

/-- A test that is due starts. -/
theorem Block.holdupTest_starts {b : Block} {a : Nat} (hlast : b.pwr.lastTest = some a) (hdue : a + b.cf Reg.PWR_CFG 0 7 0 * 3600 * nsPerS ≤ b.t7)
    (hrun : b.pwr.testRun = none) (hwarn : b.pwr.pfWarn = false) (hload : b.sys.mode ≠ .load) (hsave : b.sys.mode ≠ .save) (hhalt : b.sys.mode ≠ .halt) :
    b.holdupTest.pwr.testRun = some b.t7 ∧ b.holdupTest.pwr.lastTest = some b.t7 ∧ b.counts b.holdupTest Reg.PWR_HOLDUP_TESTS := by
  unfold Block.holdupTest
  simp only [hlast, hdue, hrun, hwarn, hload, hsave, hhalt, decide_true, Option.isSome_none, Bool.true_eq_false, Bool.false_eq_true, or_self, if_false]
  exact ⟨trivial, trivial,
    (Block.Alters.refl (l := [])).counts (Block.Alters.of_regs (l := []) .refl) (by decide) (by decide) (by decide) (by decide) (by decide)⟩

/-- The estimate of a test, with the warning that follows it. -/
theorem Block.holdupEstimate_pwr (b : Block) (us : Nat) : (b.holdupEstimate us).pwr = { b.pwr with
    holdupUs := min 65535 us
    lastTest := some b.t7
    holdupLow := if us < 25000 then true else if 27000 ≤ us then false else b.pwr.holdupLow } := by
  unfold Block.holdupEstimate
  extract_lets power noted source low high
  split
  · rename_i h
    have hlow : low.pwr = { noted.pwr with holdupLow := true } :=
      (Block.pwrEvent_keeps { noted with pwr := { source with holdupLow := true } } 4 0x1806 0xFFFF (min 65535 us) 0).2
    rw [show (low.degrade (fun s => { s with degHoldup := true })).pwr = low.pwr from (Block.degrade_touches ..).keeps .pwr rfl, hlow, if_pos h.1]
  · rename_i h
    split
    · rename_i h'
      have hhigh : high.pwr = { noted.pwr with holdupLow := false } :=
        (Block.pwrEvent_keeps { noted with pwr := { source with holdupLow := false } } 5 0x1807 0xFFFF (min 65535 us) 0).2
      rw [show (high.undegrade (fun s => { s with degHoldup := false })).pwr = high.pwr from (Block.undegrade_touches ..).keeps .pwr rfl, hhigh,
        if_neg (by omega), if_pos h'.1]
    · rename_i h'
      have hstays : (if us < 25000 then true else if 27000 ≤ us then false else b.pwr.holdupLow) = b.pwr.holdupLow := by
        have hnoted : noted.pwr.holdupLow = b.pwr.holdupLow := rfl
        rw [hnoted, not_and] at h h'
        split
        · exact ((Bool.not_eq_false _).mp (h ‹_›)).symm
        · split
          · exact ((Bool.not_eq_true _).mp (h' ‹_›)).symm
          · rfl
      rw [hstays]

/-- A test that ends with the bus above 380 V. -/
theorem Block.holdupTestDone_pwr {b : Block} {p v0 v1 us a : Nat} (hrun : b.pwr.testRun = some a) (hend : a + 2000000 ≤ b.t7) (hv : 3800 ≤ v1)
    (hus : holdupOf p v0 v1 = some us) : (b.holdupTestDone p v0 v1).pwr = { b.pwr with
      testRun := none
      vin := v1
      holdupUs := min 65535 us
      lastTest := some b.t7
      holdupLow := if us < 25000 then true else if 27000 ≤ us then false else b.pwr.holdupLow } := by
  unfold Block.holdupTestDone Block.holdupResult
  simp only [hrun, hus]
  rw [if_neg (by omega), if_neg (by omega)]
  exact Block.holdupEstimate_pwr _ us

/-- Settles O49: each command by the lemma of its operation. -/
theorem powerAndTemperatureAreWatched : Obligations.PowerAndTemperatureAreWatched := by
  refine ⟨fun t s hsave hhalt => Completes.run (f := fun b => b.powerFail) rfl (Block.powerFail_begins (b := s.at t) hsave hhalt),
    fun t temp s => Completes.run (f := fun b => b.tempSample temp) rfl ((s.at t).tempSample_done temp),
    fun t a s hlast hdue hrun hwarn hload hsave hhalt => Completes.run (f := fun b => b.holdupTest) rfl
      (Block.holdupTest_starts (b := s.at t) hlast hdue hrun hwarn hload hsave hhalt),
    fun t p v0 v1 us a s hrun hend hv hus => Completes.run (f := fun b => b.holdupTestDone p v0 v1) rfl ?_,
    fun t good s => Completes.run (f := fun b => b.supplyGood good) rfl ⟨rfl, rfl, rfl⟩⟩
  have hpwr := Block.holdupTestDone_pwr (b := s.at t) hrun hend hv hus
  show ((s.at t).holdupTestDone p v0 v1).pwr.testRun = none ∧ _
  rw [hpwr]
  exact ⟨rfl, rfl, rfl, rfl⟩

end Sys2Proof.Machine
end

section
/-! PROOFS. What zeroisation changes of the registers; key updates and their installation (O43). -/

/- One declaration after the other: the text is checked as one, with room for few threads. -/
set_option Elab.async false

namespace Sys2Proof.Machine

/-! ### Archive segments (R357 to R361) -/

/-- Registers that the segments of archive groups may change. -/
def cmpRegs : RegSet := .windows :: .all Blk.cmp :: pushRegs

/-- The registers of a spill buffer. -/
theorem spill_lies {i : Nat} (hi : i < 16) : Reg.CMP_SPILL_SIZE.Lies i ∧ Reg.CMP_SPILL_USED.Lies i :=
  ⟨⟨by decide, by simp only [Reg.CMP_SPILL_SIZE]; omega, by decide⟩, ⟨by decide, by simp only [Reg.CMP_SPILL_USED]; omega, by decide⟩⟩

/-- Registers that the write of a segment may change. -/
def segmentRegs : RegSet := [.one Blk.cmp Reg.CMP_RING_WR.off, ⟨some Blk.cmp, 0x500, 0x5FF⟩]

theorem Block.Alters.setSpill {a b : Block} (h : Block.Alters segmentRegs a b) {d : RegDesc} {i : Nat} {w : Word} (hi : i < 16)
    (hd : d = Reg.CMP_SPILL_SIZE ∨ d = Reg.CMP_SPILL_USED) : Block.Alters segmentRegs a (b.setVis d 0 i w) := by
  obtain ⟨hsize, hused⟩ := spill_lies hi
  rcases hd with rfl | rfl
  · refine h.setVis ?_ hsize (by decide)
    show segmentRegs.has 17 (0x508 + 0x10 * i) = true
    simp [RegSet.has, RegRange.has, segmentRegs, Blk.cmp]
    omega
  · refine h.setVis ?_ hused (by decide)
    show segmentRegs.has 17 (0x50C + 0x10 * i) = true
    simp [RegSet.has, RegRange.has, segmentRegs, Blk.cmp]
    omega

theorem Block.Alters.spillFit {a b : Block} (h : Block.Alters segmentRegs a b) {n : Nat} {r : List Nat} (hr : ∀ i ∈ r, i < 16) :
    Block.Alters segmentRegs a (b.spillFit n r).2 ∧ ∀ i, (b.spillFit n r).1 = some i → i < 16 := by
  induction r generalizing b with
  | nil => exact ⟨h, fun _ he => by cases he⟩
  | cons j r ih =>
    obtain ⟨hj, hr⟩ := List.forall_mem_cons.mp hr
    unfold Block.spillFit
    dsimp only
    split
    · exact ih h hr
    · split
      · exact ⟨h, fun i he => by cases he; exact hj⟩
      · exact ih (h.setSpill hj (.inl rfl)) hr

theorem Block.cmpWrite_alters (b : Block) (g len basin : Nat) (mk : Bool → List Byte) : Block.Alters segmentRegs b (b.cmpWrite g len basin mk).2 := by
  unfold Block.cmpWrite
  dsimp only
  split
  · have hpad : Block.Alters segmentRegs b (b.store (b.cmpRing.1 + fld (b.vis Reg.CMP_RING_WR) 27 0 * 64)
        (segHeader 64 g b.loadCount (b.cctx g).seq basin 0 0)) := .touched .refl (Block.store_touches ..)
    exact .setVis (.touched (.ite hpad .refl) (Block.store_touches ..)) (by decide) (by decide) (by decide)
  · obtain ⟨hspill, hlt⟩ := Block.Alters.refl.spillFit (a := b) (n := segLen len) (r := List.range 16) (fun i hi => List.mem_range.mp hi)
    split
    · rename_i i y hfit
      rw [hfit] at hspill hlt
      exact .setSpill (.touched hspill (Block.store_touches ..)) (hlt i rfl) (.inr rfl)
    · rename_i y hfit
      rw [hfit] at hspill
      exact hspill

section cmp
variable {a b : Block} (h : Block.Alters cmpRegs a b)
include h

theorem Block.Alters.cmpWrite {g len basin : Nat} {mk : Bool → List Byte} : Block.Alters cmpRegs a (b.cmpWrite g len basin mk).2 :=
  h.trans (b.cmpWrite_alters ..)

theorem Block.Alters.cmpItem {kind ctx err low : Nat} : Block.Alters cmpRegs a (b.cmpItem kind ctx err low) := .push h

theorem Block.Alters.cmpSuspend {g seq : Nat} : Block.Alters cmpRegs a (b.cmpSuspend g seq) := by
  unfold Block.cmpSuspend
  extract_lets group grouped context saved
  have hgrouped : Block.Alters cmpRegs a grouped := .of_regs h
  have hsaved : Block.Alters cmpRegs a saved := .touched (.of_regs hgrouped) (Block.ctxSave_touches ..)
  exact .cmpItem (.event (.irq (hsaved.countAny (by decide) (by decide)) (by decide)))

theorem Block.Alters.cmpGap {g : Nat} : Block.Alters cmpRegs a (b.cmpGap g) := by
  unfold Block.cmpGap
  split
  · exact h
  · rename_i f hf
    extract_lets c mk
    have hwrite : Block.Alters cmpRegs a (b.cmpWrite g 24 f.seq mk).2 := h.cmpWrite
    split
    · rename_i y hy
      rw [hy] at hwrite
      have hsource : Block.Alters cmpRegs a (y.setGrp g { y.grp g with frame := some { f with gap := true } }) := .of_regs hwrite
      exact hsource.cmpSuspend
    · rename_i o y hy
      rw [hy] at hwrite
      extract_lets context next told
      have hnext : Block.Alters cmpRegs a next := .of_regs hwrite
      have htold : Block.Alters cmpRegs a told :=
        .touched (.cmpItem (.event (hnext.countAny (by decide) (by decide)))) (Block.cmpIdle_touches ..)
      exact htold.touched (Block.archDone_touches ..)

theorem Block.Alters.cmpTamper : Block.Alters cmpRegs a b.cmpTamper := by
  refine h.fold _ (fun x g hx => ?_)
  dsimp only
  split
  · exact .ite (.cmpGap (.event (.count hx (by decide) (by decide) (by decide)))) hx
  · exact hx

end cmp

/-! ### Links of the cascade (R371, R373) -/

/-- Registers that the cascade may change. -/
def casRegs : RegSet := .all Blk.cas :: eventRegs

section cas
variable {a b : Block} (h : Block.Alters casRegs a b)
include h

theorem Block.Alters.casEvent {code src arg : Nat} : Block.Alters casRegs a (b.casEvent code src arg) := .event h

theorem Block.Alters.casHello : Block.Alters casRegs a b.casHello := h.touched (Block.casHello_touches b)

theorem Block.Alters.casReview {member : Bool} : Block.Alters casRegs a (b.casReview member) := by
  have hnext : Block.Alters casRegs a b.casEpochNext := by
    have hshape := Block.Alters.irq (blk := Blk.cas) (n := 1) (h.count (d := Reg.CAS_TOPO_CHANGES) (i := 0) (k := 0) (n := 1) (by decide) (by decide) (by decide)) (by decide)
    unfold Block.casEpochNext
    extract_lets c shape noted moved
    have hnoted : Block.Alters casRegs a noted := .ite h hshape
    exact .casHello (.casEvent (.of_regs hnoted))
  exact .ite hnext h

theorem Block.Alters.casLinkDown {link : Nat} : Block.Alters casRegs a (b.casLinkDown link) := by
  unfold Block.casLinkDown
  refine .ite h (.casHello (.casReview ?_))
  split
  · exact .count (.of_regs h) (by decide) (by decide) (by decide)
  · exact .count (.of_regs h) (by decide) (by decide) (by decide)

theorem Block.Alters.casKeyCheck : Block.Alters casRegs a b.casKeyCheck := by
  unfold Block.casKeyCheck
  exact .ite h (.casEvent (.irq h.casLinkDown.casLinkDown (by decide)))

end cas

/-! ### Zeroisation (R400, R406) -/

/-- Registers that a zeroisation may change. -/
def wipeRegs : RegSet := .all Blk.alm :: .all Blk.rad :: .all Blk.cas :: cmpRegs

theorem Block.zeroise_alters (b : Block) (cause : Nat) : Block.Alters wipeRegs b (b.zeroise cause) := by
  have hsign : Block.Alters wipeRegs b b.signAbort :=
    .touched (.fold _ .refl (fun _ _ hx => .event (hx.count (by decide) (by decide) (by decide)))) (Block.unsign_touches _)
  have hrad : Block.Alters wipeRegs b b.signAbort.radAbort := by
    unfold Block.radAbort
    refine .ite hsign (hsign.fold _ (fun x c hx => .event (.count (.of_regs hx) (by decide) (by decide) (by decide))))
  unfold Block.zeroise
  extract_lets aborted source wiped
  have hwiped : Block.Alters wipeRegs b wiped := .of_regs hrad
  exact .trans (.event (.trans hwiped (Block.Alters.cmpTamper .refl))) (Block.Alters.casKeyCheck .refl)

/-- What zeroisation leaves of the keys and of SYS (R400). -/
theorem Block.zeroise_wipes (b : Block) (cause : Nat) :
    (b.zeroise cause).key = b.key.wiped ∧ (b.zeroise cause).sys = { b.sys with zeroised := true } ∧ (b.zeroise cause).tam = b.tam := by
  unfold Block.zeroise
  extract_lets aborted source wiped
  have haborted : Touches [.vis, .evr, .prt, .out, .rad] b aborted :=
    (Touches.refl.trans (Block.signAbort_touches b) rfl).trans (Block.radAbort_touches _) rfl
  have hrest : Touches [.free, .vis, .resp, .rep, .cells, .poison, .evr, .aln, .que, .out, .cmp, .cas] wiped (wiped.cmpTamper.event 0x1504 0xFFFF cause).casKeyCheck :=
    ((Touches.refl.trans (Block.cmpTamper_touches wiped) rfl).trans (Block.event_touches ..) rfl).trans (Block.casKeyCheck_touches _) rfl
  have hkey : wiped.key = b.key.wiped := congrArg Key.wiped (haborted.keeps .key rfl)
  have hsys : wiped.sys = { b.sys with zeroised := true } := congrArg (fun x : Sys => { x with zeroised := true }) (haborted.keeps .sys rfl)
  have htam : wiped.tam = b.tam := haborted.keeps .tam rfl
  clear_value wiped
  exact ⟨(hrest.keeps .key rfl).trans hkey, (hrest.keeps .sys rfl).trans hsys, (hrest.keeps .tam rfl).trans htam⟩

/-- What a table answers is its default or a value that it holds. -/
theorem Tbl.get_holds {α : Type} {P : α → Prop} {l : Tbl α} {d : α} (k : Nat) (hd : P d) (hl : ∀ e ∈ l, P e.2) : P (Tbl.get l k d) := by
  induction l with
  | nil => exact hd
  | cons e r ih =>
    obtain ⟨he, hr⟩ := List.forall_mem_cons.mp hl
    obtain ⟨j, v⟩ := e
    unfold Tbl.get
    split
    · exact he
    · exact ih hr

/-- No slot of a wiped store is valid. -/
theorem Key.wiped_slot (k : Key) (i : Nat) : (Tbl.get k.wiped.slots i KeySlot.empty).valid = false := by
  refine Tbl.get_holds (P := fun x : KeySlot => x.valid = false) i rfl (fun e he => ?_)
  obtain ⟨j, -, rfl⟩ := List.mem_map.mp (List.mem_filter.mp he).1
  rfl

/-! ### The end of a message (R404) -/

/-- The part of KEY and of SYS at the end of a message. -/
theorem Block.keyFinish_keeps (b : Block) (op slot r : Nat) :
    (b.keyFinish op slot r).key = { b.key with result := r, waiting := none, zeroisedWaiting := false } ∧ (b.keyFinish op slot r).sys = b.sys := by
  unfold Block.keyFinish
  extract_lets key ended counted
  have hcounted : Touches [.vis] ended counted := Block.count_touches ..
  have hrest : Touches [.vis, .evr, .cas] counted ((counted.irq Blk.key 0).event (if r = 0 then 0x1501 else 0x1502) slot (op + 256 * slot) r).casKeyCheck :=
    ((Touches.refl.trans (Block.irq_touches counted ..) rfl).trans (Block.event_touches ..) rfl).trans (Block.casKeyCheck_touches _) rfl
  exact ⟨(hrest.keeps .key rfl).trans (hcounted.keeps .key rfl), (hrest.keeps .sys rfl).trans (hcounted.keeps .sys rfl)⟩

theorem Block.keyFinish_slots (b : Block) (op slot r : Nat) : (b.keyFinish op slot r).key.slots = b.key.slots := by rw [(b.keyFinish_keeps op slot r).1]

/-- The counter of messages that a result advances. -/
abbrev updCounter (r : Nat) : RegDesc := if r = 0 then Reg.KEY_UPD_ACCEPTED else Reg.KEY_UPD_REJECTED

theorem updCounter_cases {P : RegDesc → Prop} {r : Nat} (h : P Reg.KEY_UPD_ACCEPTED) (h' : P Reg.KEY_UPD_REJECTED) : P (updCounter r) := by
  unfold updCounter
  split
  · exact h
  · exact h'

/-- The end of a message counts it. -/
theorem Block.Alters.keyCounts {a b : Block} (h : Block.Alters wipeRegs a b) (op slot r : Nat) : a.counts (b.keyFinish op slot r) (updCounter r) := by
  have hrest (x : Block) : Block.Alters (.one Blk.key 0x400 :: casRegs) x
      ((x.irq Blk.key 0).event (if r = 0 then 0x1501 else 0x1502) slot (op + 256 * slot) r).casKeyCheck :=
    .trans (.event (.irq .refl (by decide))) (Block.Alters.casKeyCheck .refl)
  unfold Block.keyFinish
  extract_lets key ended counted
  have hended : Block.Alters wipeRegs a ended := .of_regs h
  exact hended.counts (hrest _) (updCounter_cases (P := fun d => wipeRegs.has d.blk d.off = false) (by decide) (by decide))
    (updCounter_cases (P := fun d => RegSet.has (.one Blk.key 0x400 :: casRegs) d.blk d.off = false) (by decide) (by decide))
    (updCounter_cases (P := fun d => d.Lies) (by decide) (by decide)) (by decide)
    (updCounter_cases (P := fun d => ∀ p ∈ d.sat, d.off ≠ p.1) (by decide) (by decide))

/-! ### A message (R402 to R404, R410) -/

section message
variable {b : Block} {m : Nat} {x : KeyMsg} (hwait : b.key.waiting = none)
  (hx : x = ⟨b.loadSafe (b.addrOf Reg.KEY_UPD_ADDR_LO Reg.KEY_UPD_ADDR_HI m) 164⟩)
include hwait hx

theorem Block.keyUpdate_eq : b.keyUpdate m =
    if b.keyCheck x ≠ 0 then (b.zeroiseAgain x.op (b.keyCheck x)).keyFinish x.op x.slot (b.keyCheck x)
    else
      let b : Block := { b with key := { b.key with counter := x.counter } }
      match x.op with
      | 4 => (({ b with key := { b.key with pk := Tbl.ins b.key.pk 1 (leAt x.bytes 36 64) } }) : Block).keyFinish 4 0 0
      | 5 => b.debugAuth.keyFinish 5 0 0
      | _ => { b with key := { b.key with waiting := some ⟨x.op, x.slot, x.len == 1, x.attr, x.id, (b.unwrapped x).getD 0⟩ } } := by
  subst hx
  unfold Block.keyUpdate
  rw [hwait]
  rfl

/-- A message that a check refuses, of an op that changes a slot or of another. -/
theorem Block.keyUpdate_refused (hr : b.keyCheck x ≠ 0) :
    (b.keyUpdate m).key = { (if b.keyCheck x = 7 ∧ (1 ≤ x.op ∧ x.op ≤ 3) ∧ b.tam.asserted ≠ [] then b.key.wiped else b.key) with
      result := b.keyCheck x, zeroisedWaiting := false } ∧ b.counts (b.keyUpdate m) Reg.KEY_UPD_REJECTED := by
  rw [Block.keyUpdate_eq hwait hx, if_pos hr]
  have hagain : (b.zeroiseAgain x.op (b.keyCheck x)).key = (if b.keyCheck x = 7 ∧ (1 ≤ x.op ∧ x.op ≤ 3) ∧ b.tam.asserted ≠ [] then b.key.wiped else b.key) ∧
      Block.Alters wipeRegs b (b.zeroiseAgain x.op (b.keyCheck x)) := by
    unfold Block.zeroiseAgain
    split
    · rename_i src rest hsrc
      simp only [hsrc, ne_eq, reduceCtorEq, not_false_eq_true, and_true]
      split
      · exact ⟨(b.zeroise_wipes src).1, b.zeroise_alters src⟩
      · exact ⟨rfl, .refl⟩
    · rename_i hnone
      rw [if_neg (fun hall => hall.2.2 hnone)]
      exact ⟨rfl, .refl⟩
  obtain ⟨hkey, halters⟩ := hagain
  have hcounts := halters.keyCounts x.op x.slot (b.keyCheck x)
  rw [updCounter, if_neg hr] at hcounts
  refine ⟨?_, hcounts⟩
  rw [(Block.keyFinish_keeps ..).1, hkey]
  have hwaits : (if b.keyCheck x = 7 ∧ (1 ≤ x.op ∧ x.op ≤ 3) ∧ b.tam.asserted ≠ [] then b.key.wiped else b.key).waiting = none := by
    split
    · exact hwait
    · exact hwait
  rw [← hwaits]

/-- A message whose change waits for a boundary of its slot. -/
theorem Block.keyUpdate_waits (hr : b.keyCheck x = 0) (h4 : x.op ≠ 4) (h5 : x.op ≠ 5) :
    (b.keyUpdate m).key = { b.key with
      counter := x.counter, waiting := some ⟨x.op, x.slot, x.len == 1, x.attr, x.id, (b.unwrapped x).getD 0⟩ } := by
  rw [Block.keyUpdate_eq hwait hx, if_neg (not_not_intro hr)]
  dsimp only
  split
  · contradiction
  · contradiction
  · rfl

/-- SET_OWNER in force. -/
theorem Block.setOwner_done (hr : b.keyCheck x = 0) (hop : x.op = 4) :
    (b.keyUpdate m).pk 1 = leAt x.bytes 36 64 ∧ (b.keyUpdate m).key.counter = x.counter ∧ (b.keyUpdate m).key.result = 0 ∧
      b.counts (b.keyUpdate m) Reg.KEY_UPD_ACCEPTED := by
  rw [Block.keyUpdate_eq hwait hx, if_neg (not_not_intro hr), hop]
  dsimp only
  generalize hy : ({ b with key := { b.key with counter := x.counter, pk := Tbl.ins b.key.pk 1 (leAt x.bytes 36 64) } } : Block) = y
  have hykey : y.key = { b.key with counter := x.counter, pk := Tbl.ins b.key.pk 1 (leAt x.bytes 36 64) } := hy ▸ rfl
  have halters : Block.Alters wipeRegs b y := hy ▸ .of_regs .refl
  have hkey : (y.keyFinish 4 0 0).key = { b.key with counter := x.counter, pk := Tbl.ins b.key.pk 1 (leAt x.bytes 36 64), result := 0, waiting := none, zeroisedWaiting := false } := by
    rw [(Block.keyFinish_keeps ..).1, hykey]
  exact ⟨(congrArg (fun k : Key => Tbl.get k.pk 1 Config.pk1) hkey).trans (Tbl.get_ins_same ..), congrArg Key.counter hkey, congrArg Key.result hkey,
    halters.keyCounts 4 0 0⟩

/-- DEBUG_AUTH's zeroisation, test root and port. -/
theorem Block.debugAuth_done (hr : b.keyCheck x = 0) (hop : x.op = 5) :
    (b.keyUpdate m).key.testRoot = true ∧ (b.keyUpdate m).key.debugOpen = true ∧ (b.keyUpdate m).sys.zeroised = true ∧
      (∀ i, ((b.keyUpdate m).slot i).valid = false) ∧ (b.keyUpdate m).key.epoch = none ∧ (b.keyUpdate m).key.result = 0 := by
  rw [Block.keyUpdate_eq hwait hx, if_neg (not_not_intro hr), hop]
  dsimp only
  generalize hy : ({ b with key := { b.key with counter := x.counter } } : Block) = y
  obtain ⟨hwkey, hwsys, -⟩ := y.zeroise_wipes 255
  have hauth : y.debugAuth.key = { y.key.wiped with testRoot := true, debugOpen := true } ∧ y.debugAuth.sys = { y.sys with zeroised := true } := by
    unfold Block.debugAuth
    have hevent (x : Block) : Touches [.vis, .evr] x ((x.irq Blk.key 1).event 0x1507) :=
      (Touches.refl.trans (Block.irq_touches x ..) rfl).trans (Block.event_touches ..) rfl
    refine ⟨((hevent _).keeps .key rfl).trans ?_, ((hevent _).keeps .sys rfl).trans hwsys⟩
    rw [← hwkey]
  obtain ⟨hfkey, hfsys⟩ := y.debugAuth.keyFinish_keeps 5 0 0
  rw [hauth.1] at hfkey
  rw [hauth.2] at hfsys
  exact ⟨congrArg Key.testRoot hfkey, congrArg Key.debugOpen hfkey, congrArg Sys.zeroised hfsys,
    fun i => (congrArg (fun k : Key => (Tbl.get k.slots i KeySlot.empty).valid) hfkey).trans (y.key.wiped_slot i),
    congrArg Key.epoch hfkey, congrArg Key.result hfkey⟩

end message

/-! ### Installation (R404, R408) -/

/-- What an installation puts in a slot, by its op. -/
theorem Key.install_slot (k : Key) (c : KeyChange) :
    (c.op = 1 → Tbl.get (k.install c).slots c.slot KeySlot.empty =
      ⟨true, c.len256, c.attr, c.id, ((Tbl.get k.slots c.slot KeySlot.empty).gen + 1) % 65536, c.body⟩) ∧
    (c.op = 2 → (Tbl.get (k.install c).slots c.slot KeySlot.empty).valid = false) ∧
    (c.op = 3 → k.install c = { k.wiped with epoch := some c.body }) := by
  refine ⟨fun hop => ?_, fun hop => ?_, fun hop => ?_⟩
  · simp only [Key.install, hop, Key.setSlot, Tbl.get_put_same]
  · simp only [Key.install, hop, Key.setSlot, Tbl.get_put_same, KeySlot.empty]
  · simp only [Key.install, hop]

section install
variable {b : Block} {c : KeyChange} (hwait : b.key.waiting = some c)
include hwait

theorem Block.keyInstall_done (hz : b.key.zeroisedWaiting = false) : b.keyInstall.key.waiting = none ∧ b.keyInstall.key.result = 0 ∧
    b.counts b.keyInstall Reg.KEY_UPD_ACCEPTED ∧
    (c.op = 1 → b.keyInstall.slot c.slot = ⟨true, c.len256, c.attr, c.id, ((b.slot c.slot).gen + 1) % 65536, c.body⟩) ∧
    (c.op = 2 → (b.keyInstall.slot c.slot).valid = false) ∧
    (c.op = 3 → b.keyInstall.key.epoch = some c.body ∧ (∀ i, (b.keyInstall.slot i).valid = false) ∧
      (b.tam.asserted = [] → b.keyInstall.sys.zeroised = false)) := by
  simp only [Block.keyInstall, hwait, hz, Bool.false_eq_true, if_false]
  generalize hy : ({ b with
    key := b.key.install c, sys := { b.sys with zeroised := b.sys.zeroised && !(c.op == 3 && b.tam.asserted.isEmpty) } } : Block) = y
  have hykey : y.key = b.key.install c := hy ▸ rfl
  have hysys : y.sys.zeroised = (b.sys.zeroised && !(c.op == 3 && b.tam.asserted.isEmpty)) := hy ▸ rfl
  have halters : Block.Alters wipeRegs b y := hy ▸ .of_regs .refl
  obtain ⟨hkey, hsys⟩ := y.keyFinish_keeps c.op c.slot 0
  obtain ⟨hload, herase, hepoch⟩ := b.key.install_slot c
  have hslot (i : Nat) : (y.keyFinish c.op c.slot 0).slot i = Tbl.get (b.key.install c).slots i KeySlot.empty := by
    rw [← hykey]
    exact congrArg (Tbl.get · i KeySlot.empty) (y.keyFinish_slots c.op c.slot 0)
  refine ⟨congrArg Key.waiting hkey, congrArg Key.result hkey, halters.keyCounts c.op c.slot 0, fun hop => (hslot _).trans (hload hop),
    fun hop => (congrArg KeySlot.valid (hslot _)).trans (herase hop), fun hop => ⟨?_, fun i => ?_, fun hnone => ?_⟩⟩
  · rw [congrArg Key.epoch hkey]
    show y.key.epoch = _
    rw [hykey, hepoch hop]
  · rw [hslot, hepoch hop]
    exact b.key.wiped_slot i
  · rw [hsys, hysys, hop, hnone]
    simp

theorem Block.keyInstall_rejected (hz : b.key.zeroisedWaiting = true) : b.keyInstall.key.waiting = none ∧ b.keyInstall.key.result = 10 ∧
    b.keyInstall.key.slots = b.key.slots ∧ b.counts b.keyInstall Reg.KEY_UPD_REJECTED := by
  simp only [Block.keyInstall, hwait, hz, if_true]
  have hkey := (b.keyFinish_keeps c.op c.slot 10).1
  exact ⟨congrArg Key.waiting hkey, congrArg Key.result hkey, b.keyFinish_slots c.op c.slot 10, Block.Alters.keyCounts .refl c.op c.slot 10⟩

end install

/-! ### Key updates (O43) -/

theorem Block.clock_loadSafe (b : Block) (t a n : Nat) : (b.clock t).loadSafe a n = b.loadSafe a n := rfl

theorem Block.clock_addrOf (b : Block) (t : Nat) (d d' : RegDesc) (m : Nat) : (b.clock t).addrOf d d' m = b.addrOf d d' m := rfl

theorem Block.clock_keyOp (b : Block) (t m : Nat) : (b.clock t).keyOp m = b.keyOp m := by
  unfold Block.keyOp
  rw [Block.clock_loadSafe, Block.clock_addrOf]

/-- A message's op is the one that the master's UPD_ADDR names. -/
theorem Block.keyOp_msg {b : Block} {m k : Nat} {x : KeyMsg} (hk : b.keyOp m = k)
    (hx : x = ⟨b.loadSafe (b.addrOf Reg.KEY_UPD_ADDR_LO Reg.KEY_UPD_ADDR_HI m) 164⟩) : x.op = k := by
  subst hx
  exact hk

/-- A command of an update whose message names its op. -/
theorem Completes.byKeyOp {c : Instr} {s : State} {t m k : Nat} {P : Block → Prop}
    (hc : exec c s = s.runIf (Wf.master m) t (fun b => b.byMaster m 20 0x428 (fun b => if b.keyOp m = k then b.keyUpdate m else b)))
    (h : s.blk.mayWrite m 20 0x428) (hk : s.blk.keyOp m = k) (hp : P (((s.at t).keyUpdate m).answer m .written)) : Completes c s P := by
  refine Completes.byGlobal (fun b => if b.keyOp m = k then b.keyUpdate m else b) hc h (by decide) ?_
  have hop : (s.at t).keyOp m = k := (s.blk.clock_keyOp t m).trans hk
  rwa [if_pos hop]

/-- The message is the same at the command's time. -/
theorem State.at_msg {s : State} {m : Nat} {x : KeyMsg} (t : Nat)
    (hx : x = ⟨s.blk.loadSafe (s.blk.addrOf Reg.KEY_UPD_ADDR_LO Reg.KEY_UPD_ADDR_HI m) 164⟩) :
    x = ⟨(s.at t).loadSafe ((s.at t).addrOf Reg.KEY_UPD_ADDR_LO Reg.KEY_UPD_ADDR_HI m) 164⟩ := by
  rw [State.at, Block.clock_loadSafe, Block.clock_addrOf]
  exact hx

/-- LOAD_SECRET, ERASE_SECRET and SET_EPOCH. -/
theorem Completes.keyChange {c : Instr} {s : State} {t m k : Nat} {x : KeyMsg} (hk3 : 1 ≤ k ∧ k ≤ 3)
    (hc : exec c s = s.runIf (Wf.master m) t (fun b => b.byMaster m 20 0x428 (fun b => if b.keyOp m = k then b.keyUpdate m else b)))
    (h : s.blk.mayWrite m 20 0x428) (hk : s.blk.keyOp m = k) (hwait : s.blk.key.waiting = none)
    (hx : x = ⟨s.blk.loadSafe (s.blk.addrOf Reg.KEY_UPD_ADDR_LO Reg.KEY_UPD_ADDR_HI m) 164⟩) :
    Completes c s (fun b =>
      (s.blk.keyCheck x = 0 → b.key = { s.blk.key with
        counter := x.counter, waiting := some ⟨x.op, x.slot, x.len == 1, x.attr, x.id, (s.blk.unwrapped x).getD 0⟩ }) ∧
      (s.blk.keyCheck x ≠ 0 → b.key = { (if s.blk.keyCheck x = 7 ∧ s.blk.tam.asserted ≠ [] then s.blk.key.wiped else s.blk.key) with
        result := s.blk.keyCheck x, zeroisedWaiting := false } ∧ s.blk.counts b Reg.KEY_UPD_REJECTED)) := by
  have hop := Block.keyOp_msg hk hx
  refine Completes.byKeyOp hc h hk ⟨fun hr => ?_, fun hr => ?_⟩
  · exact Block.keyUpdate_waits (b := s.at t) hwait (State.at_msg t hx) hr (by omega) (by omega)
  · have hdone := Block.keyUpdate_refused (b := s.at t) hwait (State.at_msg t hx) hr
    simp only [show 1 ≤ x.op ∧ x.op ≤ 3 from hop ▸ hk3, true_and] at hdone
    exact hdone

/-- SET_OWNER or DEBUG_AUTH refused. -/
theorem Block.otherOp_refused {b : Block} {m : Nat} {x : KeyMsg} (hwait : b.key.waiting = none)
    (hx : x = ⟨b.loadSafe (b.addrOf Reg.KEY_UPD_ADDR_LO Reg.KEY_UPD_ADDR_HI m) 164⟩) (hop : ¬ (1 ≤ x.op ∧ x.op ≤ 3)) (hr : b.keyCheck x ≠ 0) :
    (b.keyUpdate m).key = { b.key with result := b.keyCheck x, zeroisedWaiting := false } ∧ b.counts (b.keyUpdate m) Reg.KEY_UPD_REJECTED := by
  have hdone := Block.keyUpdate_refused hwait hx hr
  rwa [if_neg (fun hall => hop hall.2.1)] at hdone

/-- Settles O43: a message by its op and the result of the checks, an installation by the flag of a zeroisation in between. -/
theorem keyUpdatesAreCheckedAndInstalled : Obligations.KeyUpdatesAreCheckedAndInstalled := by
  refine ⟨fun t m x s hm hk hwait hx => Completes.keyChange (by decide) rfl hm hk hwait hx,
    fun t m x s hm hk hwait hx => Completes.keyChange (by decide) rfl hm hk hwait hx,
    fun t m x s hm hk hwait hx => Completes.keyChange (by decide) rfl hm hk hwait hx,
    fun t m x s hm hk hwait hx => Completes.byKeyOp rfl hm hk ⟨fun hr => ?_, fun hr => ?_⟩,
    fun t m x s hm hk hwait hx => Completes.byKeyOp rfl hm hk ⟨fun hr => ?_, fun hr => ?_⟩,
    fun t c s hwait hz => Completes.run (f := fun b => b.keyInstall) rfl ?_,
    fun t c s hwait hz => Completes.run (f := fun b => b.keyInstall) rfl (Block.keyInstall_rejected (b := s.at t) hwait hz)⟩
  · exact Block.setOwner_done (b := s.at t) hwait (State.at_msg t hx) hr (Block.keyOp_msg hk hx)
  · exact Block.otherOp_refused (b := s.at t) hwait (State.at_msg t hx) (by rw [Block.keyOp_msg hk hx]; decide) hr
  · obtain ⟨hroot, hopen, hzeroised, hslots, hrest⟩ := Block.debugAuth_done (b := s.at t) hwait (State.at_msg t hx) hr (Block.keyOp_msg hk hx)
    exact ⟨hroot, hopen, hzeroised, fun i _ => hslots i, hrest⟩
  · exact Block.otherOp_refused (b := s.at t) hwait (State.at_msg t hx) (by rw [Block.keyOp_msg hk hx]; decide) hr
  · obtain ⟨hnone, hresult, hcounts, hload, herase, hepoch⟩ := Block.keyInstall_done (b := s.at t) hwait hz
    refine ⟨hnone, hresult, hcounts, hload, herase, fun hop => ?_⟩
    obtain ⟨hsecret, hslots, hends⟩ := hepoch hop
    exact ⟨hsecret, fun i _ => hslots i, hends⟩

end Sys2Proof.Machine
end

section
/-! PROOFS. The event recorder (O45). -/

/- One declaration after the other: the text is checked as one, with room for few threads. -/
set_option Elab.async false

namespace Sys2Proof.Machine

/-! ### Bytes stored -/

/-- What a store leaves at its place. -/
theorem Block.load_store_same (b : Block) (a : Nat) (bs : List Byte) {n : Nat} (hn : bs.length = n) : (b.store a bs).load a n = bs := by
  subst hn
  refine List.ext_getElem (by simp [Block.load]) (fun i hi hi' => ?_)
  simp only [Block.load, List.getElem_map, List.getElem_range]
  rw [Block.load8_store, if_pos (by omega), Nat.add_sub_cancel_left]
  simp [List.getD_eq_getElem?_getD, hi']

/-- And what it leaves elsewhere. -/
theorem Block.load_store_other (b : Block) {a x n : Nat} {bs : List Byte} (h : x + n ≤ a ∨ a + bs.length ≤ x) :
    (b.store a bs).load x n = b.load x n := by
  refine List.map_congr_left (fun i hi => ?_)
  have hlt := List.mem_range.mp hi
  exact b.load8_store_other a (x + i) bs (by omega)

/-- Memory's bytes are what stands in its cells. -/
theorem Block.load_of_cells {a b : Block} (h : b.mem.cells = a.mem.cells) (x n : Nat) : b.load x n = a.load x n := by
  unfold Block.load Block.load8
  rw [h]

theorem Touches.load {l : List Part} {a b : Block} (h : Touches l a b) (hl : l.contains .cells = false) (x n : Nat) : b.load x n = a.load x n :=
  Block.load_of_cells (h.keeps .cells hl) x n

/-! ### What an event leaves of the recorder -/

/-- Of EVR's state: where the next entries go, since when a freeze and an unlock hold. -/
def Evr.course (v : Evr) : Nat × Nat × Option Nat × Option Nat := (v.lastHead, v.firstCount, v.frozenAt, v.unlockAt)

theorem Block.lostInFreeze_course (b : Block) (seq : Nat) : (b.lostInFreeze seq).evr.course = b.evr.course := by
  unfold Block.lostInFreeze
  dsimp only
  rw [Block.count_evr]
  rfl

theorem Block.holdEvent_course (b : Block) (e : Event) : (b.holdEvent e).evr.course = b.evr.course := by
  have hirq (x : Block) (blk n : Nat) : (x.irq blk n).evr = x.evr := (Block.irq_touches x ..).keeps .evr rfl
  have hbit (x : Block) (d : RegDesc) (i k n : Nat) : (x.setBit d i k n).evr = x.evr := (Block.setBit_touches x ..).keeps .evr rfl
  unfold Block.holdEvent
  dsimp only
  split
  · rw [Block.lostInFreeze_course, Block.count_evr]
  · split
    · exact Block.lostInFreeze_course ..
    · split
      · rw [Block.lostInFreeze_course, hirq, hbit, Block.count_evr]
      · rw [Block.count_evr]
        rfl

theorem Block.event_course (b : Block) (code src a0 a1 : Nat) : (b.event code src a0 a1).evr.course = b.evr.course := by
  have hcount : (b.count Reg.EVR_EVENTS).evr.course = b.evr.course := congrArg Evr.course (Block.count_evr ..)
  unfold Block.event Block.eventAt
  dsimp only
  split
  · rw [Block.holdEvent_course]
    exact hcount
  · split
    · exact hcount
    · rw [Block.count_evr]
      exact hcount

/-- An event outside a freeze leaves Q4's entries. -/
theorem Block.event_held {b : Block} (h : b.evr.frozenAt = none) (code src a0 a1 : Nat) : (b.event code src a0 a1).evr.held = b.evr.held := by
  have hcount : (b.count Reg.EVR_EVENTS).evr = b.evr := Block.count_evr ..
  have hheld : (b.count Reg.EVR_EVENTS).evr.held = b.evr.held := congrArg Evr.held hcount
  unfold Block.event Block.eventAt
  dsimp only
  split
  · rename_i hfrozen
    rw [hcount, h] at hfrozen
    exact absurd hfrozen.1 (by decide)
  · split
    · exact hheld
    · rw [Block.count_evr]
      exact hheld

/-- What enters the buffer is in it, but for its number. -/
theorem Event.enter_any (e : Event) (l : List Event) : (e.enter l).any (fun x => x.code == e.code) = true := by
  induction l with
  | nil => simp [Event.enter]
  | cons x r ih =>
    unfold Event.enter
    split
    · simp
    · rw [List.any_cons, ih, Bool.or_true]

/-- CLEARED always has a place in the buffer (R419). -/
theorem Block.event_cleared (b : Block) (src a0 a1 : Nat) : (b.event 0x1705 src a0 a1).evr.buf.any (fun e => e.code == 0x1705) = true := by
  unfold Block.event Block.eventAt
  dsimp only
  rw [if_neg (fun h => h.2 rfl), if_pos (.inl rfl)]
  exact Event.enter_any _ _

/-! ### Entries (R417, R418) -/

theorem Event.bytes_length (e : Event) : e.bytes.length = 64 := by
  simp [Event.bytes, Event.head, Event.tail, leBytes_length, List.range_succ]

/-- The recorder once an entry has been taken from its buffer: only the buffer and Q4 differ. -/
theorem Evr.nextEntry_course {v w : Evr} {e : Event} (h : v.nextEntry = some (e, w)) :
    w.course = v.course ∧ w.lastHead = v.lastHead ∧ w.firstCount = v.firstCount ∧ w.frozenAt = v.frozenAt := by
  unfold Evr.nextEntry at h
  split at h
  · cases h
  · cases h
    exact ⟨rfl, rfl, rfl, rfl⟩
  · cases h
    exact ⟨rfl, rfl, rfl, rfl⟩
  · split at h
    · cases h
      exact ⟨rfl, rfl, rfl, rfl⟩
    · cases h
      exact ⟨rfl, rfl, rfl, rfl⟩

/-- What a written entry leaves: in the last area, and in the first while it has room. -/
def Block.EntryWritten (v : Evr) (held : List Event) (e : Event) (b : Block) : Prop :=
  b.load (Evr.lastArea + 64 * v.lastHead) 64 = e.bytes ∧ b.evr.lastHead = (v.lastHead + 1) % 4096 ∧ b.evr.held = held ∧
    (if v.firstCount < 256 then b.load (Evr.firstArea + 64 * v.firstCount) 64 = e.bytes ∧ b.evr.firstCount = v.firstCount + 1
      else b.evr.firstCount = v.firstCount)

/-- Entries of the first area lie below the last area. -/
theorem Block.writeEntry_written (b : Block) (e : Event) : Block.EntryWritten b.evr b.evr.held e (b.writeEntry e) := by
  have hlen := e.bytes_length
  have hlast (x : Block) : (x.store (Evr.lastArea + 64 * b.evr.lastHead) e.bytes).load (Evr.lastArea + 64 * b.evr.lastHead) 64 = e.bytes :=
    x.load_store_same _ _ hlen
  unfold Block.writeEntry
  extract_lets v stored moved first source
  have hmoved : moved.load (Evr.lastArea + 64 * v.lastHead) 64 = e.bytes := (Block.load_of_cells (a := stored) rfl ..).trans (hlast b)
  unfold Block.EntryWritten
  split
  · have hother : first.load (Evr.lastArea + 64 * v.lastHead) 64 = moved.load (Evr.lastArea + 64 * v.lastHead) 64 :=
      moved.load_store_other (.inr (by rw [hlen, Evr.firstArea, Evr.lastArea]; omega))
    have hfirst : first.load (Evr.firstArea + 64 * v.firstCount) 64 = e.bytes := moved.load_store_same _ _ hlen
    exact ⟨(Block.load_of_cells (a := first) rfl ..).trans (hother.trans hmoved), rfl, rfl, (Block.load_of_cells (a := first) rfl ..).trans hfirst, rfl⟩
  · exact ⟨hmoved, rfl, rfl, rfl⟩

/-- What leaves memory, the recorder's course and Q4 leaves a written entry. -/
theorem Block.EntryWritten.of {v : Evr} {held : List Event} {e : Event} {a b : Block} {l : List Part} (h : Block.EntryWritten v held e a)
    (k : Touches l a b) (hl : l.contains .cells = false) (hcourse : b.evr.course = a.evr.course) (hheld : b.evr.held = a.evr.held) :
    Block.EntryWritten v held e b := by
  have hhead : b.evr.lastHead = a.evr.lastHead := congrArg Prod.fst hcourse
  have hcount : b.evr.firstCount = a.evr.firstCount := congrArg (fun x => x.2.1) hcourse
  unfold Block.EntryWritten at h ⊢
  rw [k.load hl, k.load hl, hhead, hcount, hheld]
  exact h

theorem Block.entryWrite_written {b : Block} {e : Event} {v : Evr} (hready : b.evr.ready = true) (hfrozen : b.evr.frozenAt = none)
    (hnext : b.evr.nextEntry = some (e, v)) (hcode : e.code ≠ 0x1705) : Block.EntryWritten b.evr v.held e b.entryWrite := by
  obtain ⟨-, hhead, hcount, hthawed⟩ := Evr.nextEntry_course hnext
  simp only [Block.entryWrite, hready, hfrozen, hnext, Bool.true_eq_false, Option.isSome_none, Bool.false_eq_true, or_self, if_false, if_neg hcode]
  generalize hx : ({ b with evr := v } : Block) = x
  have hxevr : x.evr = v := hx ▸ rfl
  have hwritten := x.writeEntry_written e
  have hfree : (x.writeEntry e).evr.frozenAt = none := by
    have hkept : (x.writeEntry e).evr.frozenAt = x.evr.frozenAt := by
      unfold Block.writeEntry
      dsimp only
      split <;> rfl
    rw [hkept, hxevr, hthawed, hfrozen]
  have hevr : ((x.writeEntry e).nrgEntry e).evr = (x.writeEntry e).evr := (Block.nrgEntry_touches ..).keeps .evr rfl
  have hreported : Block.EntryWritten x.evr x.evr.held e ((x.writeEntry e).nrgEntry e).reportInputLoss := by
    have hnrg := hwritten.of (Block.nrgEntry_touches (x.writeEntry e) e) rfl (congrArg Evr.course hevr) (congrArg Evr.held hevr)
    have hfree' : ((x.writeEntry e).nrgEntry e).evr.frozenAt = none := by rw [hevr, hfree]
    generalize (x.writeEntry e).nrgEntry e = y at hnrg hfree'
    refine hnrg.of (Block.reportInputLoss_touches y) rfl ?_ ?_
    · unfold Block.reportInputLoss
      dsimp only
      split
      · rfl
      · rw [Block.event_course]
        rfl
    · unfold Block.reportInputLoss
      dsimp only
      split
      · rfl
      · exact Block.event_held (b := Block.irq { y with evr := { y.evr with lostIn := 0, lostInFirst := 0 } } Blk.evr 0) hfree' 0x1701 0xFFFF y.evr.lostIn y.evr.lostInFirst
  have hdone : Block.EntryWritten b.evr v.held e ((x.writeEntry e).nrgEntry e).reportInputLoss := by
    rw [hxevr] at hreported
    unfold Block.EntryWritten at hreported ⊢
    rwa [hhead, hcount] at hreported
  split
  · exact hdone
  · exact hdone

/-! ### Freezes (R421, R422) -/

/-- The end of a freeze. -/
theorem Block.freezeEnds_evr (b : Block) : b.freezeEnds.evr.frozenAt = none ∧ b.freezeEnds.evr.unlockAt = b.evr.unlockAt ∧
    b.freezeEnds.evr.held = b.evr.held := by
  unfold Block.freezeEnds
  extract_lets v thawed
  split
  · rename_i hnone
    exact ⟨Option.isNone_iff_eq_none.mp hnone, rfl, rfl⟩
  · split
    · exact ⟨rfl, rfl, rfl⟩
    · have hcourse := (thawed.irq Blk.evr 1).event_course 0x1703 0xFFFF v.lostFrz v.lostFrzFirst
      exact ⟨congrArg (fun x => x.2.2.1) hcourse, congrArg (fun x => x.2.2.2) hcourse,
        Block.event_held (b := thawed.irq Blk.evr 1) rfl 0x1703 0xFFFF v.lostFrz v.lostFrzFirst⟩

theorem Block.evrFreeze_evr (b : Block) : b.evrFreeze.evr.frozenAt = some (b.evr.frozenAt.getD b.t7) ∧ b.evrFreeze.evr.unlockAt = none := by
  unfold Block.evrFreeze
  dsimp only
  split
  · rename_i h
    obtain ⟨f, hf⟩ := Option.isSome_iff_exists.mp h
    have hkept : b.evr.frozenAt = some f := hf
    rw [hf, hkept]
    exact ⟨rfl, rfl⟩
  · rename_i h
    have hnone : b.evr.frozenAt = none := by simpa [Block.lockClear] using h
    rw [hnone]
    exact ⟨rfl, rfl⟩

/-- The timeout's flag stays set through the events of the freeze's end. -/
theorem Block.freezeTimeout_done {b : Block} {f : Nat} (hf : b.evr.frozenAt = some f) (hdue : f + nsPerS ≤ b.t7) :
    b.freezeTimeout.evr.frozenAt = none ∧ bit (b.freezeTimeout.vis Reg.EVR_STATUS).toNat 29 = true := by
  simp only [Block.freezeTimeout, hf, if_pos hdue]
  generalize hx : b.setBit Reg.EVR_STATUS 0 0 29 = x
  have hthaws : Block.Alters (.one Blk.evr 0x400 :: eventRegs) x (x.freezeEnds.event 0x1704) := by
    refine .trans ?_ (Block.event_alters ..)
    unfold Block.freezeEnds
    exact .ite .refl (.ite (.of_regs .refl) (.trans (.irq (.of_regs .refl) (by decide)) (Block.event_alters ..)))
  refine ⟨(congrArg (fun c => c.2.2.1) (x.freezeEnds.event_course ..)).trans x.freezeEnds_evr.1, ?_⟩
  rw [hthaws.vis (by decide) (by decide) (by decide), ← hx]
  have hset : (b.setBit Reg.EVR_STATUS 0 0 29).vis Reg.EVR_STATUS = b.vis Reg.EVR_STATUS ||| BitVec.twoPow 32 29 := Tbl.get_put_same ..
  rw [hset, bit_eq_testBit, BitVec.testBit_toNat]
  simp

/-! ### The clear (R424) -/

theorem Block.evrClear_unlockAt (b : Block) (m : Nat) (last : Bool) : (b.evrClear m last).evr.unlockAt = none := by
  have hcount (x : Block) : ((x.count Reg.EVR_CLR_REFUSED).irq Blk.evr 3).evr = x.evr :=
    ((Block.irq_touches (x.count Reg.EVR_CLR_REFUSED) ..).keeps .evr rfl).trans (Block.count_evr ..)
  unfold Block.evrClear
  extract_lets open_ locked waits
  split
  · split
    · rfl
    · exact congrArg (fun c => c.2.2.2) (locked.event_course ..)
  · refine (congrArg (fun c => c.2.2.2) (Block.event_course ..)).trans ?_
    exact congrArg Evr.unlockAt (hcount locked)

/-- An authorised clear raises CLEARED, unless one waits to be written already. -/
theorem Block.evrClear_raises {b : Block} {last : Bool} (hmode : b.sys.mode = .maintenance)
    (hopen : b.evr.unlockAt.any (fun u => decide (b.t7 ≤ u + 100000)) = true) :
    (b.evrClear 0 last).evr.buf.any (fun e => e.code == 0x1705) = true := by
  obtain ⟨u, hu, hwithin⟩ : ∃ u, b.evr.unlockAt = some u ∧ decide (b.t7 ≤ u + 100000) = true := by
    cases hunlock : b.evr.unlockAt with
    | none => rw [hunlock] at hopen; cases hopen
    | some u => exact ⟨u, rfl, by rwa [hunlock] at hopen⟩
  unfold Block.evrClear
  simp only [hu, hwithin]
  rw [if_pos ⟨hmode, trivial, trivial⟩]
  split
  · assumption
  · exact Block.event_cleared ..

theorem Block.evrClear_refused {b : Block} {m : Nat} {last : Bool}
    (h : ¬ (b.sys.mode = .maintenance ∧ m = 0 ∧ b.evr.unlockAt.any (fun u => decide (b.t7 ≤ u + 100000)) = true)) :
    b.counts (b.evrClear m last) Reg.EVR_CLR_REFUSED ∧ bit ((b.evrClear m last).vis Reg.EVR_IRQ_STATUS).toNat 3 = true := by
  have hopen : (match b.evr.unlockAt with | some u => decide (b.t7 ≤ u + 100000) | none => false) =
      b.evr.unlockAt.any (fun u => decide (b.t7 ≤ u + 100000)) := by cases b.evr.unlockAt <;> rfl
  have hrefused : b.evrClear m last = ((b.lockClear.count Reg.EVR_CLR_REFUSED).irq Blk.evr 3).event 0x1706 := by
    unfold Block.evrClear
    extract_lets open_ locked waits
    have hclosed : ¬ (locked.sys.mode = .maintenance ∧ m = 0 ∧ open_ = true) := by
      have hsame : open_ = b.evr.unlockAt.any (fun u => decide (b.t7 ≤ u + 100000)) := hopen
      rw [hsame]
      exact h
    exact if_neg hclosed
  rw [hrefused]
  have hlocked : Block.Alters [] b b.lockClear := .of_regs .refl
  exact ⟨hlocked.counts (l' := .one Blk.evr 0x400 :: eventRegs) ((Block.Alters.irq .refl (by decide)).trans (Block.event_alters ..)) (by decide) (by decide) (by decide) (by decide) (by decide),
    (Block.event_alters ((b.lockClear.count Reg.EVR_CLR_REFUSED).irq Blk.evr 3) 0x1706 0xFFFF 0 0).irqStatus (by decide) (by decide)⟩

/-! ### COMMIT (R425) -/

/-- A hand-over that no uncommitted write meets. -/
theorem Block.handedOver_clean {b : Block} {s : Tbl Word} (h : ∀ k ∈ b.regs.dirty, ∀ e ∈ s, sameSet k e.1 = false) :
    ∃ n, b.handedOver s = { b with regs := { b.regs with
      handed := n, late := (b.t7, if b.regs.late.1 = b.t7 then b.regs.late.2 else []) } } := by
  have hnone (q : Nat → Bool) : b.regs.dirty.filter (fun k => q k && s.any (fun e => sameSet k e.1)) = [] := by
    refine List.filter_eq_nil_iff.mpr (fun k hk hq => ?_)
    obtain ⟨e, he, hsame⟩ := List.any_eq_true.mp (Bool.and_eq_true_iff.mp hq).2
    rw [h k hk e he] at hsame
    exact Bool.noConfusion hsame
  unfold Block.handedOver
  dsimp only
  rw [hnone]
  unfold Block.promote
  simp

/-- Registers of one set are of one block. -/
theorem sameSet_blk {k j : Nat} (h : sameSet k j = true) : keyBlk k = keyBlk j := by
  simp only [sameSet, beq_iff_eq] at h
  unfold keyBlk
  omega

/-- EVR's sets committed, waiting for nothing but their hand-over. -/
def Block.evrCommitted (b : Block) (v : Evr) : Block := (Block.commit { b with evr := v } Blk.evr).ripen (fun k => keyBlk k == Blk.evr)

theorem Block.evrCommitted_lateSet (b : Block) (v : Evr) {k : Nat} (hk : keyBlk k = 22) : (b.evrCommitted v).lateSet k = none := by
  unfold Block.lateSet
  split
  · refine List.find?_eq_none.mpr (fun e he hkey => ?_)
    have hother := (List.mem_filter.mp he).2
    dsimp only at hother
    rw [beq_iff_eq.mp hkey, hk] at hother
    exact Bool.noConfusion hother
  · rfl

/-- A COMMIT of EVR is the hand-over of what it commits. -/
theorem Block.evrCommit_eq (b : Block) : ∃ (v : Evr) (reject : Block → Nat → Block),
    b.evrCommit = (b.evrCommitted v).handover (fun k => keyBlk k == Blk.evr) Evr.group (fun _ _ => true) reject := by
  unfold Block.evrCommit
  extract_lets old source
  exact ⟨{ source with before := some (b.t7, old) }, fun b _ => (b.irq Blk.evr 4).event 0x1707, rfl⟩

theorem Block.evrCommitted_comSets (b : Block) (v : Evr) :
    (b.evrCommitted v).comSets (fun k => keyBlk k == Blk.evr) = (b.evrCommitted v).regs.com.filter (fun e => keyBlk e.1 == Blk.evr) := by
  unfold Block.comSets
  refine (List.filterMap_congr (fun e he => ?_)).trans List.filterMap_some
  rw [b.evrCommitted_lateSet v (beq_iff_eq.mp (List.mem_filter.mp he).2)]

section commit
variable {b : Block} (hnone : ∀ e ∈ b.regs.com, keyBlk e.1 ≠ 22)
include hnone

/-- The sets handed over are the registers written since the last COMMIT, each with its value. -/
theorem Block.evrCommitted_sets (v : Evr) {e : Nat × Word} (he : e ∈ (b.evrCommitted v).comSets (fun k => keyBlk k == Blk.evr)) :
    e.1 ∈ b.regs.dirty ∧ keyBlk e.1 = 22 ∧ e.2 = b.visAt e.1 := by
  rw [b.evrCommitted_comSets v] at he
  obtain ⟨hcom, hblk⟩ := List.mem_filter.mp he
  rcases Tbl.mem_insAll hcom with hold | ⟨hdirty, hval⟩
  · exact absurd (beq_iff_eq.mp hblk) (hnone e hold)
  · exact ⟨(List.mem_filter.mp hdirty).1, beq_iff_eq.mp hblk, hval⟩

theorem Block.evrCommit_done (hrange : ∀ k ∈ b.regs.dirty, keyBlk k = 22 → Reg.rangeOk k (b.visAt k) = true) :
    b.evrCommit.regs.dirty = b.regs.dirty.filter (fun k => keyBlk k != 22) ∧ (∀ e ∈ b.evrCommit.regs.com, keyBlk e.1 ≠ 22) ∧
      ∀ k ∈ b.regs.dirty, keyBlk k = 22 → Tbl.get b.evrCommit.regs.act k (Reg.rstOf k) = b.visAt k := by
  obtain ⟨v, reject, hcommit⟩ := b.evrCommit_eq
  rw [Block.handover_all (fun e he => by
    obtain ⟨hdirty, hblk, hval⟩ := Block.evrCommitted_sets hnone v he
    rw [hval]
    exact hrange _ hdirty hblk) (fun _ _ => rfl)] at hcommit
  obtain ⟨n, hover⟩ := Block.handedOver_clean
    (b := ((b.evrCommitted v).dropCom (fun k => keyBlk k == Blk.evr)).adopt ((b.evrCommitted v).comSets (fun k => keyBlk k == Blk.evr)))
    (s := (b.evrCommitted v).comSets (fun k => keyBlk k == Blk.evr)) (fun k hk e he => by
      have hout : keyBlk k ≠ 22 := by simpa [Blk.evr] using (List.mem_filter.mp hk).2
      rw [Bool.eq_false_iff]
      exact fun hsame => hout ((sameSet_blk hsame).trans (Block.evrCommitted_sets hnone v he).2.1))
  rw [hcommit, hover]
  refine ⟨rfl, fun e he hblk => ?_, fun k hk hblk => ?_⟩
  · have hkept := (List.mem_filter.mp he).2
    rw [b.evrCommitted_lateSet v hblk] at hkept
    dsimp only at hkept
    rw [hblk] at hkept
    exact Bool.noConfusion hkept
  · refine Block.adopt_act (b := (b.evrCommitted v).dropCom (fun k => keyBlk k == Blk.evr)) ?_ (fun e he hek => ?_)
    · rw [b.evrCommitted_comSets v]
      exact List.mem_filter.mpr ⟨Tbl.mem_insAll_same b.visAt _ (List.mem_filter.mpr ⟨hk, by simp [hblk, Blk.evr]⟩), by simp [hblk, Blk.evr]⟩
    · rw [(Block.evrCommitted_sets hnone v he).2.2, hek]

end commit

/-! ### The statement -/

/-- Settles O45: each command by the lemma of its operation. -/
theorem theRecorderKeepsItsEvents : Obligations.TheRecorderKeepsItsEvents := by
  refine ⟨fun t e v s hready hfrozen hnext hcode _ => ?_, fun t m s hm => ?_, fun t m s hm => ?_, fun t f s hf hdue => ?_,
    fun t m last s hm => ?_, fun t m value s hm => ?_, fun t m s hm hopen hnone hrange => ?_⟩
  · exact Completes.run (f := fun b => b.entryWrite) rfl (Block.entryWrite_written (b := s.at t) hready hfrozen hnext hcode)
  · exact Completes.byGlobal (fun b => b.evrFreeze) rfl hm (by decide) (s.at t).evrFreeze_evr
  · exact Completes.byGlobal (fun b => b.evrThaw) rfl hm (by decide) (s.at t).lockClear.freezeEnds_evr
  · exact Completes.run (f := fun b => b.freezeTimeout) rfl (Block.freezeTimeout_done (b := s.at t) hf hdue)
  · refine Completes.byGlobal (fun b => b.evrClear m last) rfl hm (by decide) ⟨(s.at t).evrClear_unlockAt m last, ?_⟩
    split
    · rename_i h
      obtain ⟨hmode, rfl, hwithin⟩ := h
      exact Block.evrClear_raises (b := s.at t) hmode hwithin
    · rename_i h
      exact Block.evrClear_refused (b := s.at t) h
  · exact Completes.byGlobal (fun b => b.clrUnlock value) rfl hm (by decide) rfl
  · refine Completes.byGlobal (fun b => b.commitBy m 22) rfl hm (by decide) ?_
    have hdone := Block.evrCommit_done (b := s.at t) hnone hrange
    rw [← show (s.at t).commitBy m 22 = (s.at t).evrCommit from Block.commitBy_accepted (b := s.at t) hopen 22] at hdone
    exact hdone

end Sys2Proof.Machine
end

section
/-! PROOFS. Firmware jobs of the compressor (O39). -/

/- One declaration after the other: the text is checked as one, with room for few threads. -/
set_option Elab.async false

namespace Sys2Proof.Machine

/-! ### Bounds of a job's item (R367) -/

theorem Block.unpackOut_err (b : Block) (d : List Byte) (u : Unpack) (o : List Byte) : (b.unpackOut d u o).1 ≤ 1 := by
  unfold Block.unpackOut
  split
  · exact Nat.le_refl 1
  · exact Nat.zero_le 1

theorem unpackErr_ite {p : Prop} [Decidable p] {x y : Nat × Unpack × Block} (hx : x.1 ≤ 2) (hy : y.1 ≤ 2) : (if p then x else y).1 ≤ 2 := by
  split
  · exact hx
  · exact hy

theorem Block.unpackStep_err (b : Block) (d : List Byte) (u : Unpack) : (b.unpackStep d u).1 ≤ 2 := by
  have hout (u : Unpack) (o : List Byte) : (b.unpackOut d u o).1 ≤ 2 := Nat.le_succ_of_le (b.unpackOut_err d u o)
  unfold Block.unpackStep
  extract_lets h flags c seq inLen payLen enc brk start u z pay iv tagOk plain w
  refine unpackErr_ite (Nat.le_succ 1) (unpackErr_ite (Nat.zero_le 2) (unpackErr_ite (Nat.zero_le 2) (unpackErr_ite (Nat.le_succ 1)
    (unpackErr_ite ?_ (unpackErr_ite ?_ ?_)))))
  · have hgap := hout { u with cur := [] } (z.take 8 ++ slice h 14 4 ++ z.drop 12)
    split
    · exact Nat.zero_le 2
    · exact hgap
  · exact Nat.le_refl 2
  · split
    · exact Nat.le_succ 1
    · rename_i out _
      refine unpackErr_ite (Nat.le_succ 1) ?_
      extract_lets o
      have hsegment := hout { w with hist := histAfter w.hist out } o
      split
      · exact unpackErr_ite (Nat.zero_le 2) (Nat.zero_le 2)
      · exact hsegment

theorem Block.unpackAll_err (d : List Byte) : ∀ (n : Nat) (b : Block) (u : Unpack), (Block.unpackAll d n b u).1 ≤ 2
  | 0, _, _ => Nat.le_succ 1
  | n + 1, b, u => by
    unfold Block.unpackAll
    split
    · exact Nat.zero_le 2
    · split
      · exact Block.unpackAll_err d n _ _
      · exact b.unpackStep_err d u

theorem leNat_lt (bs : List Byte) : leNat bs < 256 ^ bs.length := by
  induction bs with
  | nil => exact Nat.one_pos
  | cons x r ih =>
    have hx := x.isLt
    rw [leNat, List.length_cons, Nat.pow_succ]
    omega

theorem leAt_lt (bs : List Byte) (i n : Nat) : leAt bs i n < 256 ^ n := by
  have h := leNat_lt (slice bs i n)
  rwa [slice_length] at h

/-- The item of a job, in 64 bits. -/
theorem jobItem_mod (d : List Byte) {e : Nat} (he : e ≤ 2) (n : Nat) :
    (4 * 2 ^ 56 + jobCtx d * 2 ^ 48 + e * 2 ^ 40 + n % 2 ^ 32) % 2 ^ 64 = 4 * 2 ^ 56 + jobCtx d * 2 ^ 48 + e * 2 ^ 40 + n % 2 ^ 32 := by
  have hctx : jobCtx d < 256 := leAt_lt d 1 1
  omega

/-! ### A job's end (R365, R367) -/

/-- What a job at its end leaves: the other jobs at work, its context free. -/
structure Block.JobEnded (d : List Byte) (a b : Block) : Prop where
  touches : Touches [.cells, .poison, .cmp] a b
  running : b.cmp.running = a.cmp.running
  free : (b.cctx (jobCtx d)).inUse = false

/-- A context set free, in a block of which only memory differs. -/
theorem Block.JobEnded.setCctx {d : List Byte} {a b : Block} (h : Touches [.cells, .poison] a b) {x : CmpCtx} (hx : x.inUse = false) :
    Block.JobEnded d a (b.setCctx (jobCtx d) x) where
  touches := (Touches.refl.trans h rfl).trans (Block.setCctx_touches ..) rfl
  running := by
    show b.cmp.running = a.cmp.running
    rw [show b.cmp = a.cmp from h.keeps .cmp rfl]
  free := by
    unfold Block.cctx Block.setCctx
    rw [Tbl.get_put_same]
    exact hx

theorem Block.JobEnded.stored {d : List Byte} {a b : Block} (h : Block.JobEnded d a b) (x : Nat) (bs : List Byte) :
    Block.JobEnded d a (b.store x bs) :=
  ⟨h.touches.trans (Block.store_touches b x bs) rfl, h.running, h.free⟩

theorem Block.jobCompress_ends (b : Block) (d : List Byte) : Block.JobEnded d b (b.jobCompress d).2.2 ∧ (b.jobCompress d).1 ≤ 2 := by
  unfold Block.jobCompress
  extract_lets c src key size frames source
  split
  rename_i delta ref _
  extract_lets blocks
  split
  rename_i out x n _
  split
  · exact ⟨.setCctx .refl rfl, Nat.le_succ 1⟩
  · extract_lets stored
    have hstored : Block.JobEnded d b stored := .setCctx (Block.store_touches ..) rfl
    refine ⟨?_, Nat.zero_le 2⟩
    dsimp only
    split
    · exact hstored.stored _ _
    · exact hstored

theorem Block.jobDecompress_ends (b : Block) (d : List Byte) : Block.JobEnded d b (b.jobDecompress d).2.2.2 ∧ (b.jobDecompress d).1 ≤ 2 := by
  unfold Block.jobDecompress
  extract_lets c u
  exact ⟨.setCctx (Block.unpackAll_touches ..) rfl, Block.unpackAll_err ..⟩

/-- Registers that the errors of a job may change. -/
def jobRegs : RegSet := .one Blk.cmp 0x400 :: (Reg.CMP_DECODE_ERR.regs ++ Reg.CMP_AUTH_FAIL.regs ++ eventRegs)

/-- The block when a job's item is posted. -/
structure Block.JobPosts (d : List Byte) (r : List (List Byte)) (a b : Block) : Prop where
  touches : Touches [.free, .vis, .cells, .poison, .evr, .cmp] a b
  alters : Block.Alters jobRegs a b
  running : b.cmp.running = r
  free : (b.cctx (jobCtx d)).inUse = false

theorem Block.JobPosts.of {d : List Byte} {r : List (List Byte)} {a b c : Block} (h : Block.JobPosts d r a b)
    (ht : Touches [.vis, .evr] b c) (ha : Block.Alters jobRegs b c) : Block.JobPosts d r a c where
  touches := h.touches.trans ht rfl
  alters := h.alters.trans ha (RegSet.sub_refl _)
  running := (congrArg Cmp.running (ht.keeps .cmp rfl)).trans h.running
  free := by
    rw [← h.free]
    exact congrArg (fun x : Cmp => (Tbl.get x.ctxs (jobCtx d) CmpCtx.reset).inUse) (ht.keeps .cmp rfl)

/-- A firmware job's end, up to its interrupt and its item. -/
theorem Block.jobDone_posts {b z : Block} {d : List Byte} {r : List (List Byte)} (hrun : b.cmp.running = d :: r)
    (hz : z = { b with cmp := { b.cmp with running := r } }) :
    ∃ y e n, Block.JobPosts d r z y ∧ e ≤ 2 ∧ b.jobDone = (y.irq Blk.cmp 1).cmpItem 4 (jobCtx d) e n ∧
      (e, n) = if jobOp d = 1 then ((z.jobCompress d).1, (z.jobCompress d).2.1) else ((z.jobDecompress d).1, (z.jobDecompress d).2.1) := by
  have hzrun : z.cmp.running = r := hz ▸ rfl
  have hended {y : Block} (h : Block.JobEnded d z y) : Block.JobPosts d r z (y.ctxSave (jobCtx d)) := by
    have hsave : Touches [.free, .cells, .poison] y (y.ctxSave (jobCtx d)) := Block.ctxSave_touches ..
    refine ⟨(h.touches.weaken rfl).trans hsave rfl, .touched (.touched .refl h.touches) hsave, ?_, ?_⟩
    · exact (congrArg Cmp.running (hsave.keeps .cmp rfl)).trans (h.running.trans hzrun)
    · rw [← h.free]
      exact congrArg (fun x : Cmp => (Tbl.get x.ctxs (jobCtx d) CmpCtx.reset).inUse) (hsave.keeps .cmp rfl)
  have herror {y : Block} {e seq : Nat} (h : Block.JobPosts d r z y) : Block.JobPosts d r z
      (if e = 1 then ((y.count Reg.CMP_DECODE_ERR).irq Blk.cmp 2).event 0x1204 (jobCtx d) seq
        else if e = 2 then ((y.count Reg.CMP_AUTH_FAIL).irq Blk.cmp 3).event 0x1205 (jobCtx d) seq else y) := by
    have htouches (reg : RegDesc) (n code : Nat) : Touches [.vis, .evr] y (((y.count reg).irq Blk.cmp n).event code (jobCtx d) seq) :=
      ((Touches.refl.trans (Block.count_touches y ..) rfl).trans (Block.irq_touches ..) rfl).trans (Block.event_touches ..) rfl
    split
    · exact h.of (htouches ..) (.event (.irq (.count .refl (by decide) (by decide) (by decide)) (by decide)))
    · split
      · exact h.of (htouches ..) (.event (.irq (.count .refl (by decide) (by decide) (by decide)) (by decide)))
      · exact h
  obtain ⟨hc, hce⟩ := z.jobCompress_ends d
  obtain ⟨hd, hde⟩ := z.jobDecompress_ends d
  unfold Block.jobDone
  rw [hrun]
  dsimp only
  rw [← hz]
  by_cases hop : jobOp d = 1
  · simp only [if_pos hop]
    exact ⟨_, _, _, herror (hended hc), hce, rfl, rfl⟩
  · simp only [if_neg hop]
    exact ⟨_, _, _, herror (hended hd), hde, rfl, rfl⟩

/-- The item of a job in a queue that takes it. -/
theorem Block.cmpItem_items {b : Block} {q : Nat} {d : List Byte} {e n : Nat} (hq : q = fld (b.vis Reg.CMP_NOTIFY_QUEUE) 5 0) (he : e ≤ 2)
    (hen : b.qen q = true) (hdisc : (b.queue q).discarding = false) (hbreak : (b.queue q).breakPending = false)
    (hroom : (b.queue q).items.length < b.qcap q) (hstalled : (b.queue q).stalled = []) (hflush : (b.queue q).flushPending = false) :
    ((b.cmpItem 4 (jobCtx d) e n).queue q).items =
      (b.queue q).items ++ [⟨4 * 2 ^ 56 + jobCtx d * 2 ^ 48 + e * 2 ^ 40 + n % 2 ^ 32, true, false⟩] := by
  have hend := (Block.push_end hen hdisc hbreak hroom hstalled (4 * 2 ^ 56 + jobCtx d * 2 ^ 48 + e * 2 ^ 40 + n % 2 ^ 32)).1
  rw [hflush, if_neg Bool.false_ne_true, jobItem_mod d he n] at hend
  unfold Block.cmpItem
  rw [← hq]
  exact hend

/-- What a job at its end leaves (R365, R367). -/
theorem Block.jobDone_done {b : Block} {d : List Byte} {r : List (List Byte)} {q : Nat} (hrun : b.cmp.running = d :: r)
    (hq : q = fld (b.vis Reg.CMP_NOTIFY_QUEUE) 5 0) :
    let z : Block := { b with cmp := { b.cmp with running := r } }
    let e := if jobOp d = 1 then ((z.jobCompress d).1, (z.jobCompress d).2.1) else ((z.jobDecompress d).1, (z.jobDecompress d).2.1)
    b.jobDone.cmp.running = r ∧ (b.jobDone.cctx (jobCtx d)).inUse = false ∧ bit (b.jobDone.vis Reg.CMP_IRQ_STATUS).toNat 1 = true ∧
      (b.qen q = true → (b.queue q).discarding = false → (b.queue q).breakPending = false → (b.queue q).items.length < b.qcap q →
        (b.queue q).stalled = [] → (b.queue q).flushPending = false →
        (b.jobDone.queue q).items = (b.queue q).items ++ [⟨4 * 2 ^ 56 + jobCtx d * 2 ^ 48 + e.1 * 2 ^ 40 + e.2 % 2 ^ 32, true, false⟩]) := by
  intro z e
  obtain ⟨y, err, n, hposts, herr, hjob, hpair⟩ := Block.jobDone_posts (z := z) hrun rfl
  have hirq : Block.JobPosts d r z (y.irq Blk.cmp 1) := hposts.of ((Block.irq_touches ..).weaken rfl) (.irq .refl (by decide))
  have hitem : Touches [.vis, .resp, .rep, .poison, .evr, .que] (y.irq Blk.cmp 1) b.jobDone := hjob ▸ Block.cmpItem_touches ..
  have hcmp : b.jobDone.cmp = (y.irq Blk.cmp 1).cmp := hitem.keeps .cmp rfl
  refine ⟨(congrArg Cmp.running hcmp).trans hirq.running, ?_, ?_, fun hen hdisc hbreak hroom hstalled hflush => ?_⟩
  · rw [← hirq.free]
    exact congrArg (fun x : Cmp => (Tbl.get x.ctxs (jobCtx d) CmpCtx.reset).inUse) hcmp
  · have hpush : Block.Alters pushRegs (y.irq Blk.cmp 1) b.jobDone := hjob ▸ Block.push_alters ..
    exact hpush.irqStatus (by decide) (by decide)
  · have hqlt : q < 64 := by
      rw [hq]
      exact Nat.mod_lt _ (by decide)
    have hnotify : (y.irq Blk.cmp 1).vis Reg.CMP_NOTIFY_QUEUE = b.vis Reg.CMP_NOTIFY_QUEUE := hirq.alters.vis (by decide) (by decide) (by decide)
    have hcfg : (y.irq Blk.cmp 1).vis Reg.QUE_CFG q = b.vis Reg.QUE_CFG q := hirq.alters.vis (by decide) (by decide) (by omega)
    have hqueue : (y.irq Blk.cmp 1).queue q = b.queue q := hirq.touches.queue rfl q
    have hitems := Block.cmpItem_items (b := y.irq Blk.cmp 1) (q := q) (d := d) (e := err) (n := n) (by rw [hnotify]; exact hq) herr
    unfold Block.qen Block.qcap at hitems
    rw [hqueue, hcfg] at hitems
    rw [hjob, hitems hen hdisc hbreak hroom hstalled hflush]
    show _ = _ ++ [(⟨4 * 2 ^ 56 + jobCtx d * 2 ^ 48 + e.1 * 2 ^ 40 + e.2 % 2 ^ 32, true, false⟩ : QItem)]
    rw [show e = (err, n) from hpair.symm]

/-! ### The statement -/

theorem Block.jobGo_accepted {b : Block} {m : Nat} {d : List Byte} (hd : d = b.loadSafe (b.addrOf Reg.CMP_JOB_ADDR_LO Reg.CMP_JOB_ADDR_HI m) 64)
    (hok : jobOk d = true) (hfree : (b.cctx (jobCtx d)).inUse = false) :
    (b.jobGo m).cmp.jobs = b.cmp.jobs ++ [d] ∧ ((b.jobGo m).cctx (jobCtx d)).inUse = true := by
  unfold Block.jobGo
  dsimp only
  rw [← hd, if_pos ⟨hok, hfree⟩]
  refine ⟨rfl, ?_⟩
  exact congrArg CmpCtx.inUse (Tbl.get_put_same ..)

theorem Block.ctxReset_done {b : Block} {c : Nat} (h : (b.cctx c).inUse = false) :
    (b.ctxReset c).cctx c = { b.cctx c with hist := [], keyNext := true } := by
  unfold Block.ctxReset
  dsimp only
  rw [if_neg (by rw [h]; decide)]
  exact Tbl.get_put_same ..

/-- Settles O39: each command by the lemma of its operation. -/
theorem compressionJobsRun : Obligations.CompressionJobsRun := by
  refine ⟨fun t m d s hm hd hok hfree => ?_, fun t d r s hjobs hlanes => ?_, fun t q d r s hrun hq => ?_, fun t m c s hm hs hfree => ?_⟩
  · refine Completes.byGlobal (fun b => b.jobGo m) rfl hm (by decide) ?_
    rw [← Block.clock_addrOf s.blk t, ← Block.clock_loadSafe s.blk t] at hd
    exact Block.jobGo_accepted (b := s.at t) hd hok hfree
  · refine Completes.run (f := fun b => b.jobStart) rfl ?_
    have hstarts : (s.at t).jobStart = { s.at t with cmp := { s.blk.cmp with jobs := r, running := s.blk.cmp.running ++ [d] } } := by
      have hjobs' : (s.at t).cmp.jobs = d :: r := hjobs
      unfold Block.jobStart
      rw [hjobs']
      exact if_neg (Nat.not_le.mpr hlanes)
    rw [show s.blk.clock t = s.at t from rfl, hstarts]
    exact ⟨rfl, rfl⟩
  · exact Completes.run (f := fun b => b.jobDone) rfl (Block.jobDone_done (b := s.at t) hrun hq)
  · refine Completes.bySel Block.ctxReset rfl hm hs ?_
    have hkept : (((s.at t).ctxReset c).advance m 17 0x4C).cmp = ((s.at t).ctxReset c).cmp := (Block.advance_touches ..).keeps .cmp rfl
    exact (congrArg (fun x : Cmp => Tbl.get x.ctxs c CmpCtx.reset) hkept).trans (Block.ctxReset_done (b := s.at t) hfree)

end Sys2Proof.Machine
end

section
/-! PROOFS. A flash page programmed from poisoned memory (O50). -/

/- One declaration after the other: the text is checked as one, with room for few threads. -/
set_option Elab.async false

namespace Sys2Proof.Machine

/-- The first of some values by their numbers. -/
theorem getD_map_range {α : Type} (f : Nat → α) {n : Nat} (hn : 0 < n) (d : α) : ((List.range n).map f).getD 0 d = f 0 := by
  simp [List.getD_eq_getElem?_getD, hn]

/-- The first of the ANDs of two pages. -/
theorem getD_zipWith_and {l r : List Byte} (hl : 0 < l.length) (hr : 0 < r.length) (d : Byte) :
    (l.zipWith (fun (o n : Byte) => o &&& n) r).getD 0 d = l.getD 0 0 &&& r.getD 0 0 := by
  simp only [List.getD_eq_getElem?_getD, List.getElem?_zipWith]
  rw [List.getElem?_eq_getElem hl, List.getElem?_eq_getElem hr]
  rfl

theorem Block.loadFlash_head (b : Block) (a : Nat) : (b.loadFlash a 256).getD 0 0 = cellGet b.mem.flash a Mem.erased :=
  getD_map_range _ (by decide) 0

/-- A PROGRAM of page 0 at work, from shared scratch of which the first byte holds `x` and is poisoned. -/
def programFromPoison (x : Byte) : State :=
  { State.reset with blk := { Block.reset with
      sys := { Block.reset.sys with qspi := some ⟨true, 0, 0x80000000⟩ }
      mem := { Block.reset.mem with cells := [(0x80000000, x)], poison := [(1, 0)] } } }

/-- The byte that a read of the poisoned source gives. -/
def poisonByte : Byte := Config.layout 8 [Block.reset.free] 0x80000000

theorem programFromPoison_source (x : Byte) : (((programFromPoison x).at 0).loadSafe 0x80000000 256).getD 0 0 = poisonByte := by
  have hrange : ((programFromPoison x).at 0).poisonedRange 0x80000000 256 = true := rfl
  have hbyte : ((programFromPoison x).at 0).poisoned 0x80000000 = true := rfl
  unfold Block.loadSafe
  rw [if_pos hrange, getD_map_range _ (by decide), Nat.add_zero, if_pos hbyte]
  rfl

/-- The first byte of a PROGRAM's page is the AND of the flash's and of the byte read from the source. -/
theorem Block.qspiDone_flash {b : Block} {a src : Nat} (h : b.sys.qspi = some ⟨true, a, src⟩) :
    cellGet b.qspiDone.mem.flash a Mem.erased = cellGet b.mem.flash a Mem.erased &&& (b.loadSafe src 256).getD 0 0 := by
  have hlen : (b.loadSafe src 256).length = 256 := by
    unfold Block.loadSafe Block.load
    split <;> simp
  have hflash : b.qspiDone.mem.flash = cellsSet b.mem.flash a ((b.loadFlash a 256).zipWith (fun (o n : Byte) => o &&& n) (b.loadSafe src 256)) Mem.erased := by
    simp only [Block.qspiDone, h, if_true]
    split
    · rfl
    · exact (Block.event_touches ..).keeps .flash rfl
  rw [hflash, cellGet_sets, if_pos ⟨Nat.le_refl a, by simp [Block.loadFlash, hlen]⟩, Nat.sub_self]
  rw [getD_zipWith_and (by simp [Block.loadFlash]) (by omega), Block.loadFlash_head]

/-- Refutes O50: a PROGRAM reads its source as every read of memory does, and a poisoned byte gives what the hardware makes of it (R328),
not what the cell holds. In `programFromPoison x` the first byte differs for one of two values. -/
theorem not_theSystemBusServesItsMasters : ¬ Obligations.TheSystemBusServesItsMasters := by
  rintro ⟨-, -, -, -, -, -, -, -, -, -, hprogram, -⟩
  have hread (x : Byte) : x = poisonByte := by
    obtain ⟨-, hpage, -⟩ := Completes.of_runIf (w := true) (t := 0) (f := Block.qspiDone) rfl rfl
      (hprogram 0 0 0x80000000 _ (programFromPoison x) rfl rfl)
    have hflash : cellGet ((programFromPoison x).at 0).mem.flash 0 Mem.erased = 0xFF#8 := rfl
    have hfirst := Block.qspiDone_flash (b := (programFromPoison x).at 0) (a := 0) (src := 0x80000000) rfl
    rw [programFromPoison_source, hflash] at hfirst
    have hheld : cellGet ((programFromPoison x).at 0).qspiDone.mem.flash 0 Mem.erased = 0xFF#8 &&& x := by
      rw [← Block.loadFlash_head, hpage, getD_zipWith_and (by simp [Block.loadFlash]) (by simp [Block.load]), Block.loadFlash_head]
      rw [show ((programFromPoison x).blk.load 0x80000000 256).getD 0 0 = x from getD_map_range _ (by decide) 0]
      rfl
    rw [hfirst] at hheld
    have hones (y : Byte) : 0xFF#8 &&& y = y := by
      have : (0xFF#8 : Byte) = BitVec.allOnes 8 := rfl
      rw [this, BitVec.allOnes_and]
    rw [hones, hones] at hheld
    exact hheld.symm
  exact absurd ((hread 0).trans (hread 1).symm) (by decide)

end Sys2Proof.Machine
end

section
/-! PROOFS. A shadow write in the cycle of its set's hand-over (O9). -/

/- One declaration after the other: the text is checked as one, with room for few threads. -/
set_option Elab.async false

namespace Sys2Proof.Machine

/-- With the bus open to every master, in a cycle in which the set of CMP.BLOCK has handed over. -/
def writeMeetsHandover : State := wS { wOpen with regs := { wOpen.regs with handed := (0, [Reg.CMP_BLOCK.key 0 0]) } }

theorem writeMeetsHandover_may : writeMeetsHandover.blk.mayWrite 0 17 0x430 := by decide +kernel

theorem writeMeetsHandover_locate : (writeMeetsHandover.at 0).locate 17 0x430 0 = some ⟨Reg.CMP_BLOCK, 0, 0, 15, 0⟩ := by decide +kernel

/-- The write waits for the following hand-over at once (R368 and its like), and not for a COMMIT. -/
theorem writeMeetsHandover_clean :
    ((writeMeetsHandover.at 0).masterWrite 0 (0xF0000000 + 65536 * 17 + 0x430) 4 (8 % 2 ^ (8 * 4))).regs.dirty = [] := by decide +kernel

/-- Refutes O9: in `writeMeetsHandover` the register is RWS and its write awaits no COMMIT. -/
theorem not_registerWriteTakesEffect : ¬ Obligations.RegisterWriteTakesEffect := by
  intro h
  obtain ⟨-, -, -, hdirty, -⟩ := Completes.of_runIf
    (f := fun b => b.masterWrite 0 (0xF0000000 + 65536 * 17 + 0x430) 4 (8 % 2 ^ (8 * 4))) rfl rfl
    (h 0 0 17 0x430 8 writeMeetsHandover ⟨Reg.CMP_BLOCK, 0, 0, 15, 0⟩ (by decide) (by decide) (by decide) (by decide) writeMeetsHandover_may
      writeMeetsHandover_locate rfl rfl)
  have hwaits := hdirty rfl
  rw [writeMeetsHandover_clean] at hwaits
  cases hwaits

end Sys2Proof.Machine
end

section
/-! PROOFS. Archive groups: frames, segments, suspension (O38). -/

/- One declaration after the other: the text is checked as one, with room for few threads. -/
set_option Elab.async false

namespace Sys2Proof.Machine

/-! ### A frame's start (R354 to R356, R368) -/

theorem xorBytes_zeros (bs : List Byte) : xorBytes bs (List.replicate bs.length 0) = bs := by
  induction bs with
  | nil => rfl
  | cons v r ih =>
    rw [List.length_cons, List.replicate_succ, xorBytes, List.zipWith_cons_cons, ← xorBytes, ih]
    simp

/-- The block with a group's frame begun, which every outcome of the start goes on from. -/
def Block.frameTaken (d : Block) (g r seq : Nat) (q : List (Nat × Nat × Bool)) : Block :=
  let f : CmpFrame := ⟨r, seq, false, 0, [], fld (d.cfg Reg.CMP_BLOCK) 4 0 * 4096, true⟩
  let d := d.setGrp g { d.grp g with queue := q, st := 1, frame := some f }
  d.setCctx g { d.cctx g with inUse := true }

theorem Block.frameTaken_grp (d : Block) (g r seq : Nat) (q : List (Nat × Nat × Bool)) : (d.frameTaken g r seq q).grp g = { d.grp g with
    queue := q, st := 1, frame := some ⟨r, seq, false, 0, [], fld (d.cfg Reg.CMP_BLOCK) 4 0 * 4096, true⟩ } := Tbl.get_put_same ..

theorem Block.frameTaken_cctx (d : Block) (g r seq : Nat) (q : List (Nat × Nat × Bool)) :
    (d.frameTaken g r seq q).cctx g = { d.cctx g with inUse := true } := Tbl.get_put_same ..

theorem Block.frameTaken_keyDue (d : Block) (g r seq : Nat) (q : List (Nat × Nat × Bool)) : (d.frameTaken g r seq q).keyDue g = d.keyDue g := by
  unfold Block.keyDue
  rw [Block.frameTaken_grp, Block.frameTaken_cctx]
  rfl

theorem Block.frameTaken_loadSafe (d : Block) (g r seq : Nat) (q : List (Nat × Nat × Bool)) (a n : Nat) :
    (d.frameTaken g r seq q).loadSafe a n = d.loadSafe a n := rfl

theorem Block.frameTaken_frame (d : Block) (g r seq : Nat) (q : List (Nat × Nat × Bool)) (p : Nat) (x : Basin) :
    (d.frameTaken g r seq q).cmpFrame g r p x = d.cmpFrame g r p x := by
  have hload (a n : Nat) : (d.frameTaken g r seq q).loadSafe a n = d.loadSafe a n := rfl
  have hregion : (d.frameTaken g r seq q).regionAddr r p = d.regionAddr r p := rfl
  have hctxs : (d.frameTaken g r seq q).grpCtxs g = d.grpCtxs g := rfl
  have hsize (c : Nat) : (d.frameTaken g r seq q).recSize c = d.recSize c := rfl
  have hrecord (c : Nat) : (d.frameTaken g r seq q).recordAddr r p c = d.recordAddr r p c := rfl
  have hannot : (d.frameTaken g r seq q).annotation r x.seq = d.annotation r x.seq := rfl
  unfold Block.cmpFrame
  simp only [hload, hregion, hctxs, hsize, hrecord, hannot]

theorem Block.frameTaken_cfgAddr (d : Block) (g r seq : Nat) (q : List (Nat × Nat × Bool)) (lo hi : RegDesc) (i : Nat) :
    (d.frameTaken g r seq q).cfgAddr lo hi i = d.cfgAddr lo hi i := rfl

theorem Block.archStart_eq {b : Block} {g r seq p : Nat} {q : List (Nat × Nat × Bool)} {x : Basin}
    (hqueue : (b.grp g).queue = (r, seq, false) :: q) (hst : (b.grp g).st = 0) (hlanes : b.lanesUsed < 4)
    (hpos : (b.ring r).seqPos seq = some (p, x)) (hen : (b.cmpHandover g).grpEn g = true) (hring : (b.cmpHandover g).grpRingOf g = r)
    (henc : (b.cmpHandover g).grpEnc g = false) :
    b.archStart g =
      let d := (b.cmpHandover g).frameTaken g r seq q
      let raw := d.cmpFrame g r p x
      let a := d.cfgAddr Reg.CMP_GRP_REF_LO Reg.CMP_GRP_REF_HI g
      let ref := if d.keyDue g then List.replicate raw.length 0 else d.loadSafe a raw.length
      let e := (d.store a raw).setCctx g { d.cctx g with keyNext := false, hist := (if d.keyDue g then [] else (d.cctx g).hist) }
      e.setGrp g { d.grp g with
        layout := e.grpLayout g
        cipher := e.grpCipher g
        sinceKey := if d.keyDue g then 0 else (d.grp g).sinceKey + 1
        frame := some ⟨r, seq, d.keyDue g, 0, xorBytes raw ref, fld (d.cfg Reg.CMP_BLOCK) 4 0 * 4096, false⟩ } := by
  have hd : ((b.cmpHandover g).ring r).seqPos seq = some (p, x) := by
    rw [← hpos]
    exact congrArg (fun y : Aln => (Tbl.get y.rings r Ring.reset).seqPos seq) ((Block.cmpHandover_touches ..).keeps .aln rfl)
  unfold Block.archStart
  extract_lets y d group
  split
  · rename_i hnone
    cases hqueue.symm.trans hnone
  rename_i _ _ _ _ hsome
  cases hqueue.symm.trans hsome
  rw [if_neg (show ¬ (y.st ≠ 0 ∨ 4 ≤ b.lanesUsed) from fun h => h.elim (fun h => h hst) (by omega))]
  extract_lets f taken context used
  have hlive : ¬ (used.grpEn g = false ∨ used.grpRingOf g ≠ r) := by
    rintro (hoff | hother)
    · exact Bool.false_ne_true (hoff.symm.trans hen)
    · exact hother hring
  have hclear : ¬ (used.grpEnc g = true ∧ used.grpKey g = none) := fun h => Bool.false_ne_true (henc.symm.trans h.1)
  have hbasin : (used.ring r).seqPos seq = some (p, x) := hd
  rw [if_neg hlive, hbasin]
  dsimp only
  rw [if_neg Bool.false_ne_true, if_neg hclear]
  rfl

section start
variable {b d : Block} {g r seq p : Nat} {q : List (Nat × Nat × Bool)} {x : Basin} (hd : d = b.cmpHandover g)
  (hqueue : (b.grp g).queue = (r, seq, false) :: q) (hst : (b.grp g).st = 0) (hlanes : b.lanesUsed < 4)
  (hpos : (b.ring r).seqPos seq = some (p, x)) (hen : d.grpEn g = true) (hring : d.grpRingOf g = r) (henc : d.grpEnc g = false)
include hd hqueue hst hlanes hpos hen hring henc

theorem Block.archStart_done :
    let raw := d.cmpFrame g r p x
    let key := d.keyDue g
    let a := d.cfgAddr Reg.CMP_GRP_REF_LO Reg.CMP_GRP_REF_HI g
    ((b.archStart g).grp g).queue = q ∧ ((b.archStart g).grp g).st = 1 ∧ ((b.archStart g).cctx g).inUse = true ∧
      ((b.archStart g).cctx g).keyNext = false ∧ ((b.archStart g).grp g).sinceKey = (if key then 0 else (b.grp g).sinceKey + 1) ∧
      ((b.archStart g).grp g).frame = some ⟨r, seq, key, 0, if key then raw else xorBytes raw (d.loadSafe a raw.length),
        fld (d.cfg Reg.CMP_BLOCK) 4 0 * 4096, false⟩ ∧ (b.archStart g).load a raw.length = raw := by
  intro raw key a
  have hgrp : d.grp g = b.grp g :=
    hd ▸ congrArg (fun y : Cmp => Tbl.get y.groups g CmpGroup.reset) ((Block.cmpHandover_touches ..).keeps .cmp rfl)
  rw [Block.archStart_eq hqueue hst hlanes hpos (hd ▸ hen) (hd ▸ hring) (hd ▸ henc), ← hd]
  have hegrp := d.frameTaken_grp g r seq q
  have hecctx := d.frameTaken_cctx g r seq q
  have hkey : (d.frameTaken g r seq q).keyDue g = key := Block.frameTaken_keyDue ..
  have hraw : (d.frameTaken g r seq q).cmpFrame g r p x = raw := Block.frameTaken_frame ..
  have ha : (d.frameTaken g r seq q).cfgAddr Reg.CMP_GRP_REF_LO Reg.CMP_GRP_REF_HI g = a := Block.frameTaken_cfgAddr ..
  have hsafe : (d.frameTaken g r seq q).loadSafe a raw.length = d.loadSafe a raw.length := Block.frameTaken_loadSafe ..
  have hblock : (d.frameTaken g r seq q).cfg Reg.CMP_BLOCK = d.cfg Reg.CMP_BLOCK := rfl
  clear_value raw key a
  generalize d.frameTaken g r seq q = e at *
  simp only [hkey, hraw, ha, hsafe, hblock, Block.grp_setGrp]
  have href : xorBytes raw (if key = true then List.replicate raw.length 0 else d.loadSafe a raw.length) =
      if key = true then raw else xorBytes raw (d.loadSafe a raw.length) := by
    split
    · exact xorBytes_zeros raw
    · rfl
  rw [href, hegrp, hgrp]
  refine ⟨rfl, rfl, ?_, ?_, rfl, rfl, (Block.load_of_cells (a := e.store a raw) rfl ..).trans (e.load_store_same a raw rfl)⟩
  · exact (congrArg CmpCtx.inUse (Block.cctx_setCctx ..)).trans (congrArg CmpCtx.inUse hecctx)
  · exact congrArg CmpCtx.keyNext (Block.cctx_setCctx ..)

end start

/-! ### The write of a segment (R359, R364) -/

theorem le_segLen (n : Nat) : n ≤ segLen n := by
  simp only [segLen, ceilDiv]
  omega

/-- Bytes stored in room for more are at the place's beginning. -/
theorem Block.load_padded {b : Block} {a n m : Nat} {bs : List Byte} (h : b.load a n = slice bs 0 n) (hm : bs.length = m) (hn : m ≤ n) : b.load a m = bs := by
  subst hm
  have hprefix : b.load a bs.length = (b.load a n).take bs.length := by
    unfold Block.load
    rw [← List.map_take, List.take_range, Nat.min_eq_left hn]
  rw [hprefix, h, slice, List.drop_zero, List.take_of_length_le hn, List.take_left]

/-- A segment in the ring: where it starts, the write pointer after it. -/
theorem Block.cmpWrite_ring {b : Block} {g len basin o : Nat} {pad : Bool} {mk : Bool → List Byte} (hfit : b.ringFit (segLen len) = some (o, pad)) :
    ∃ y, b.cmpWrite g len basin mk = (some (o / 64), y) ∧ (y.vis Reg.CMP_RING_WR).toNat = (o + segLen len) % b.cmpRing.2 / 64 % 2 ^ 32 ∧
      y.load (b.cmpRing.1 + o) (segLen len) = slice (mk false) 0 (segLen len) := by
  unfold Block.cmpWrite
  dsimp only
  rw [hfit]
  refine ⟨_, rfl, ?_, ?_⟩
  · exact (congrArg BitVec.toNat (Tbl.get_put_same ..)).trans (BitVec.toNat_ofNat ..)
  · exact (Block.load_of_cells (a := Block.store _ (b.cmpRing.1 + o) (slice (mk false) 0 (segLen len))) rfl ..).trans
      (Block.load_store_same _ _ _ (slice_length ..))

/-- The search for a spill buffer leaves what is used of each. -/
theorem Block.spillFit_used (n : Nat) {i : Nat} (hi : i < 16) {r : List Nat} (hr : ∀ j ∈ r, j < 16) (b : Block) :
    (b.spillFit n r).2.vis Reg.CMP_SPILL_USED 0 i = b.vis Reg.CMP_SPILL_USED 0 i := by
  induction r generalizing b with
  | nil => rfl
  | cons j r ih =>
    obtain ⟨hj, hr⟩ := List.forall_mem_cons.mp hr
    unfold Block.spillFit
    dsimp only
    split
    · exact ih hr b
    · split
      · rfl
      · refine (ih hr _).trans (Tbl.get_put_other _ _ _ _ _ _ (regKey_ne_of_off ?_ ?_ ?_))
        · exact (spill_lies hi).2.2.1
        · exact (spill_lies hj).1.2.1
        · show 0x50C + 0x10 * i ≠ 0x508 + 0x10 * j
          omega

/-- A segment in a spill buffer. -/
theorem Block.cmpWrite_spill {b : Block} {g len basin i : Nat} {mk : Bool → List Byte} (hfit : b.ringFit (segLen len) = none)
    (hspill : (b.spillFit (segLen len) (List.range 16)).1 = some i) :
    ∃ o y, b.cmpWrite g len basin mk = (some o, y) ∧
      (y.vis Reg.CMP_SPILL_USED 0 i).toNat = ((b.vis Reg.CMP_SPILL_USED 0 i).toNat + segLen len) % 2 ^ 32 := by
  unfold Block.cmpWrite
  dsimp only
  rw [hfit]
  dsimp only
  obtain ⟨-, hlt⟩ := Block.Alters.refl.spillFit (a := b) (n := segLen len) (r := List.range 16) (fun i hi => List.mem_range.mp hi)
  have hused := Block.spillFit_used (segLen len) (hlt i hspill) (r := List.range 16) (fun i hi => List.mem_range.mp hi) b
  split
  · rename_i j y hsome
    rw [hsome] at hspill hused
    cases hspill
    refine ⟨_, _, rfl, (congrArg BitVec.toNat (Tbl.get_put_same ..)).trans ?_⟩
    rw [show y.vis Reg.CMP_SPILL_USED 0 i = b.vis Reg.CMP_SPILL_USED 0 i from hused]
    exact BitVec.toNat_ofNat ..
  · rename_i hnone
    rw [hnone] at hspill
    cases hspill

/-- A segment that fits nowhere. -/
theorem Block.cmpWrite_none {b : Block} {g len basin : Nat} {mk : Bool → List Byte} (hfit : b.ringFit (segLen len) = none)
    (hspill : (b.spillFit (segLen len) (List.range 16)).1 = none) : (b.cmpWrite g len basin mk).1 = none := by
  unfold Block.cmpWrite
  dsimp only
  rw [hfit]
  dsimp only
  split
  · rename_i hsome
    rw [hsome] at hspill
    cases hspill
  · rfl

/-! ### A group's next segment (R357 to R359, R364) -/

/-- Registers that the record of a written segment may change. -/
def toldRegs : RegSet := Reg.CMP_GRP_STORED.regs ++ pushRegs

/-- What is recorded of a segment once it is written: its form, the context's number and history, the item of a key frame's first. -/
def Block.segmentTold (b : Block) (g o : Nat) (stored first : Bool) (seq : Nat) (hist : List Byte) : Block :=
  let b := if stored then b.count Reg.CMP_GRP_STORED g else b
  let b := b.setCctx g { b.cctx g with seq := seq, hist := hist }
  if first then b.cmpItem 1 g 0 o else b

section told
variable (b : Block) {g : Nat} (o : Nat) (stored first : Bool) (seq : Nat) (hist : List Byte)

theorem Block.segmentTold_touches : Touches [.vis, .resp, .rep, .poison, .evr, .que, .cmp] b (b.segmentTold g o stored first seq hist) := by
  unfold Block.segmentTold
  extract_lets x context y
  have hx : Touches [.vis, .resp, .rep, .poison, .evr, .que, .cmp] b x := .ite ((Block.count_touches ..).weaken rfl) .refl
  have hy : Touches [.vis, .resp, .rep, .poison, .evr, .que, .cmp] b y := hx.trans (Block.setCctx_touches ..) rfl
  exact .ite (hy.trans (Block.cmpItem_touches ..) rfl) hy

theorem Block.segmentTold_alters (hg : g < 16) : Block.Alters toldRegs b (b.segmentTold g o stored first seq hist) := by
  unfold Block.segmentTold
  extract_lets x context y
  have hx : Block.Alters toldRegs b x := .ite (.count .refl (by decide) (by decide) (by omega)) .refl
  have hy : Block.Alters toldRegs b y := .of_regs hx
  exact .ite (.push hy) hy

/-- The groups are as they were, and so are the contexts but for the number and the history of the group's own. -/
theorem Block.segmentTold_cmp : (b.segmentTold g o stored first seq hist).grp g = b.grp g ∧
    (b.segmentTold g o stored first seq hist).cctx g = { b.cctx g with seq := seq, hist := hist } := by
  unfold Block.segmentTold
  extract_lets x context y
  have hx : x.cmp = b.cmp := by
    unfold x
    split
    · exact (Block.count_touches ..).keeps .cmp rfl
    · rfl
  have hgrp : y.grp g = b.grp g := show x.grp g = b.grp g from congrArg (fun z : Cmp => Tbl.get z.groups g CmpGroup.reset) hx
  have hctx : y.cctx g = { b.cctx g with seq := seq, hist := hist } := by
    have hsame : context = b.cctx g := congrArg (fun z : Cmp => Tbl.get z.ctxs g CmpCtx.reset) hx
    rw [← hsame]
    exact Block.cctx_setCctx ..
  split
  · have hcmp : (y.cmpItem 1 g 0 o).cmp = y.cmp := (Block.cmpItem_touches ..).keeps .cmp rfl
    exact ⟨(congrArg (fun z : Cmp => Tbl.get z.groups g CmpGroup.reset) hcmp).trans hgrp,
      (congrArg (fun z : Cmp => Tbl.get z.ctxs g CmpCtx.reset) hcmp).trans hctx⟩
  · exact ⟨hgrp, hctx⟩

end told

/-- The header of a group's next segment, of one that does not encrypt. -/
def Block.segmentHead (b : Block) (g : Nat) (f : CmpFrame) (spill : Bool) : List Byte :=
  let blk := bytePlanes (f.rest.take f.block)
  let p := blockPayload (b.cctx g).hist blk
  segHeader (b2n p.2 + 4 * b2n f.key + 16 * b2n (f.idx == 0) + 32 * b2n (f.rest.drop f.block).isEmpty + 128 * b2n spill) g b.loadCount
    (b.cctx g).seq f.seq blk.length p.1.length

/-- A group after a segment of it was written: its frame over, or further in it. -/
def Block.segmentEnd (b : Block) (g : Nat) (f : CmpFrame) : Block :=
  if (f.rest.drop f.block).isEmpty then ((b.count Reg.CMP_GRP_FRAMES g).cmpIdle g).archDone f.ring f.seq g
  else b.setGrp g { b.grp g with frame := some { f with idx := f.idx + 1, rest := f.rest.drop f.block } }

theorem Block.archSegment_eq {b : Block} {g : Nat} {f : CmpFrame} (hframe : (b.grp g).frame = some f) (hst : (b.grp g).st = 1) (hgap : f.gap = false)
    (henc : b.grpEnc g = false) :
    b.archSegment g =
      let blk := bytePlanes (f.rest.take f.block)
      let p := blockPayload (b.cctx g).hist blk
      match b.cmpWrite g (24 + p.1.length) f.seq (fun spill => b.segmentHead g f spill ++ p.1) with
      | (none, y) => y.cmpSuspend g f.seq
      | (some o, y) => (y.segmentTold g o p.2 (decide (f.key = true ∧ f.idx = 0)) ((b.cctx g).seq + 1) (histAfter (b.cctx g).hist blk)).segmentEnd g f := by
  unfold Block.archSegment
  extract_lets x c enc load iv blk p
  split
  · rename_i hnone
    cases hframe.symm.trans hnone
  rename_i _ hsome
  cases hframe.symm.trans hsome
  have henc' : enc = false := henc
  rw [if_neg (show ¬ x.st ≠ 1 from not_not_intro hst), if_neg (by rw [hgap]; decide),
    if_neg (show ¬ (b.grpEnc g = true ∧ b.grpKey g = none) from fun h => Bool.false_ne_true (henc.symm.trans h.1))]
  extract_lets rest last
  split
  rename_i pay stored hpay
  have hp : p = (pay, stored) := hpay
  have hpay' : blockPayload (b.cctx g).hist (bytePlanes (f.rest.take f.block)) = (pay, stored) := hpay
  extract_lets flags mk
  have hmk : mk = fun spill => b.segmentHead g f spill ++ p.1 := by
    funext spill
    have hflags : flags spill = b2n stored + 4 * b2n f.key + 16 * b2n (f.idx == 0) + 32 * b2n last + 128 * b2n spill := by
      unfold flags
      rw [henc', show b2n false = 0 from rfl, Nat.mul_zero, Nat.add_zero]
    unfold mk
    dsimp only [Block.segmentHead]
    rw [henc', hflags, hpay', hp]
  have hlen : 24 + pay.length + (if enc = true then 16 else 0) = 24 + p.1.length := by rw [henc', if_neg Bool.false_ne_true, hp, Nat.add_zero]
  rw [hmk, hlen]
  generalize b.cmpWrite g (24 + p.1.length) f.seq (fun spill => b.segmentHead g f spill ++ p.1) = written
  obtain ⟨o | o, y⟩ := written
  · exact rfl
  · simp only [Block.segmentEnd, Block.segmentTold, decide_eq_true_eq, hp] <;> rfl

/-- The end of a frame: the group and its context free, the frame counted. -/
theorem Block.segmentEnd_last {b : Block} {g : Nat} {f : CmpFrame} (hlast : (f.rest.drop f.block).isEmpty = true) :
    ((b.segmentEnd g f).grp g).frame = none ∧ ((b.segmentEnd g f).cctx g).seq = (b.cctx g).seq ∧
      Touches [.free, .cells, .poison, .cmp, .aln, .out] (b.count Reg.CMP_GRP_FRAMES g) (b.segmentEnd g f) := by
  unfold Block.segmentEnd
  rw [if_pos hlast]
  have hctx : (b.count Reg.CMP_GRP_FRAMES g).cctx g = b.cctx g :=
    congrArg (fun z : Cmp => Tbl.get z.ctxs g CmpCtx.reset) ((Block.count_touches ..).keeps .cmp rfl)
  generalize b.count Reg.CMP_GRP_FRAMES g = x at *
  have hidle : ((x.cmpIdle g).grp g).frame = none ∧ ((x.cmpIdle g).cctx g).seq = (x.cctx g).seq := by
    unfold Block.cmpIdle
    generalize hy : (x.setGrp g { x.grp g with st := 0, frame := none }).setCctx g
      { x.cctx g with inUse := false, suspended := false } = y
    have hcmp : (y.ctxSave g).cmp = y.cmp := (Block.ctxSave_touches ..).keeps .cmp rfl
    have hygrp : (y.grp g).frame = none := hy ▸ congrArg CmpGroup.frame (Block.grp_setGrp ..)
    have hyctx : (y.cctx g).seq = (x.cctx g).seq := hy ▸ (congrArg CmpCtx.seq (Block.cctx_setCctx ..)).trans rfl
    exact ⟨(congrArg (fun z : Cmp => (Tbl.get z.groups g CmpGroup.reset).frame) hcmp).trans hygrp,
      (congrArg (fun z : Cmp => (Tbl.get z.ctxs g CmpCtx.reset).seq) hcmp).trans hyctx⟩
  have hcmp : ((x.cmpIdle g).archDone f.ring f.seq g).cmp = (x.cmpIdle g).cmp := (Block.archDone_touches ..).keeps .cmp rfl
  refine ⟨(congrArg (fun z : Cmp => (Tbl.get z.groups g CmpGroup.reset).frame) hcmp).trans hidle.1,
    ((congrArg (fun z : Cmp => (Tbl.get z.ctxs g CmpCtx.reset).seq) hcmp).trans hidle.2).trans (congrArg CmpCtx.seq hctx),
    ((Block.cmpIdle_touches ..).weaken rfl).trans (Block.archDone_touches ..) rfl⟩

/-- What a written segment leaves (R357, R359). -/
structure Block.SegmentWritten (g : Nat) (f : CmpFrame) (hist : List Byte) (a y b : Block) : Prop where
  seq : (b.cctx g).seq = (a.cctx g).seq + 1
  last : (f.rest.drop f.block).isEmpty = true → (b.grp g).frame = none ∧ a.counts b Reg.CMP_GRP_FRAMES g
  more : (f.rest.drop f.block).isEmpty = false →
    (b.grp g).frame = some { f with idx := f.idx + 1, rest := f.rest.drop f.block } ∧ (b.cctx g).hist = hist ∧ b.mem.cells = y.mem.cells
  alters : Block.Alters (Reg.CMP_GRP_FRAMES.regs ++ toldRegs) y b

theorem Block.segment_written {b y : Block} {g len o : Nat} {f : CmpFrame} {mk : Bool → List Byte} (hg : g < 16) (stored first : Bool) (hist : List Byte)
    (hwrite : b.cmpWrite g len f.seq mk = (some o, y)) :
    Block.SegmentWritten g f hist b y ((y.segmentTold g o stored first ((b.cctx g).seq + 1) hist).segmentEnd g f) := by
  have hy : Touches [.vis, .cells, .poison] b y := by
    have h := b.cmpWrite_touches g len f.seq mk
    rwa [hwrite] at h
  have hyregs : Block.Alters segmentRegs b y := by
    have h := b.cmpWrite_alters g len f.seq mk
    rwa [hwrite] at h
  have htold := y.segmentTold_alters o stored first ((b.cctx g).seq + 1) hist hg
  have hkept := (y.segmentTold_touches (g := g) o stored first ((b.cctx g).seq + 1) hist).keeps .cells rfl
  obtain ⟨hgrp, hctx⟩ := y.segmentTold_cmp (g := g) o stored first ((b.cctx g).seq + 1) hist
  generalize y.segmentTold g o stored first ((b.cctx g).seq + 1) hist = x at *
  cases hlast : (f.rest.drop f.block).isEmpty with
  | true =>
    obtain ⟨hframe, hseq, hrest⟩ := Block.segmentEnd_last (b := x) (g := g) hlast
    have hend : Block.Alters [] (x.count Reg.CMP_GRP_FRAMES g) (x.segmentEnd g f) := .touched .refl hrest
    refine ⟨hseq.trans (congrArg CmpCtx.seq hctx), fun _ => ⟨hframe, ?_⟩, fun h => Bool.noConfusion (hlast.symm.trans h), ?_⟩
    · exact Block.Alters.counts (l := segmentRegs ++ toldRegs) ((hyregs.mono).trans htold) hend (by decide) (by decide) (by decide) (by omega) (by decide)
    · exact .trans (.count (htold.mono) (by decide) (by decide) (by omega)) hend
  | false =>
    have hend : x.segmentEnd g f = x.setGrp g { x.grp g with frame := some { f with idx := f.idx + 1, rest := f.rest.drop f.block } } := by
      unfold Block.segmentEnd
      rw [if_neg (by rw [hlast]; decide)]
    rw [hend]
    refine ⟨congrArg CmpCtx.seq hctx, fun h => Bool.noConfusion (hlast.symm.trans h), fun _ => ⟨congrArg CmpGroup.frame (Block.grp_setGrp ..), congrArg CmpCtx.hist hctx, hkept⟩, ?_⟩
    exact .of_regs (htold.mono)

/-- What a group's suspension leaves. -/
theorem Block.cmpSuspend_done {b : Block} {g seq : Nat} (hg : g < 16) : ((b.cmpSuspend g seq).grp g).st = 2 ∧ ((b.cmpSuspend g seq).cctx g).suspended = true ∧
    ((b.cmpSuspend g seq).cctx g).seq = (b.cctx g).seq ∧ b.counts (b.cmpSuspend g seq) Reg.CMP_GRP_NOSPACE g := by
  unfold Block.cmpSuspend
  extract_lets group grouped context saved
  have hsaved : saved.cmp = (grouped.setCctx g { grouped.cctx g with suspended := true }).cmp := (Block.ctxSave_touches ..).keeps .cmp rfl
  have halters : Block.Alters [] b saved := .touched (.of_regs .refl) (Block.ctxSave_touches ..)
  have hst : (saved.grp g).st = 2 := (congrArg (fun z : Cmp => (Tbl.get z.groups g CmpGroup.reset).st) hsaved).trans (congrArg CmpGroup.st (Block.grp_setGrp b g _))
  have hctx : saved.cctx g = { grouped.cctx g with suspended := true } :=
    (congrArg (fun z : Cmp => Tbl.get z.ctxs g CmpCtx.reset) hsaved).trans (Block.cctx_setCctx ..)
  have hrest (x : Block) (low : Nat) : Touches [.vis, .resp, .rep, .poison, .evr, .que] x (((x.irq Blk.cmp 0).event 0x1201 g seq).cmpItem 2 g 0 low) :=
    (((Block.irq_touches ..).weaken rfl).trans (Block.event_touches ..) rfl).trans (Block.cmpItem_touches ..) rfl
  have hregs (x : Block) (low : Nat) : Block.Alters (.one Blk.cmp 0x400 :: pushRegs) x (((x.irq Blk.cmp 0).event 0x1201 g seq).cmpItem 2 g 0 low) :=
    .push (.event (.irq .refl (by decide)))
  generalize (saved.vis Reg.CMP_RING_WR).toNat = low
  have hcmp : ((((saved.count Reg.CMP_GRP_NOSPACE g).irq Blk.cmp 0).event 0x1201 g seq).cmpItem 2 g 0 low).cmp = saved.cmp :=
    ((hrest ..).keeps .cmp rfl).trans ((Block.count_touches ..).keeps .cmp rfl)
  refine ⟨(congrArg (fun z : Cmp => (Tbl.get z.groups g CmpGroup.reset).st) hcmp).trans hst, ?_, ?_, ?_⟩
  · exact (congrArg (fun z : Cmp => (Tbl.get z.ctxs g CmpCtx.reset).suspended) hcmp).trans (congrArg CmpCtx.suspended hctx)
  · exact (congrArg (fun z : Cmp => (Tbl.get z.ctxs g CmpCtx.reset).seq) hcmp).trans ((congrArg CmpCtx.seq hctx).trans rfl)
  · exact halters.counts (hregs _ low) (by decide) (by decide) (by decide) (by omega) (by decide)

/-- The header of a segment in the ring says no spill. -/
theorem Block.segmentHead_ring (b : Block) (g : Nat) (f : CmpFrame) : b.segmentHead g f false =
    segHeader (b2n (blockPayload (b.cctx g).hist (bytePlanes (f.rest.take f.block))).2 + 4 * b2n f.key + 16 * b2n (f.idx == 0) +
      32 * b2n (f.rest.drop f.block).isEmpty) g b.loadCount (b.cctx g).seq f.seq (bytePlanes (f.rest.take f.block)).length
      (blockPayload (b.cctx g).hist (bytePlanes (f.rest.take f.block))).1.length := rfl

theorem Block.segmentHead_length (b : Block) (g : Nat) (f : CmpFrame) (spill : Bool) : (b.segmentHead g f spill).length = 24 := by
  simp [Block.segmentHead, segHeader, leBytes_length]

section segment
variable {b : Block} {g : Nat} {f : CmpFrame} (hg : g < 16) (hframe : (b.grp g).frame = some f) (hst : (b.grp g).st = 1) (hgap : f.gap = false)
  (henc : b.grpEnc g = false)
include hg hframe hst hgap henc

/-- A group's next segment: the block that was written, as the space says. -/
theorem Block.archSegment_written {o : Nat} {y : Block} {blk pay : List Byte} {stored : Bool} (hblk : blk = bytePlanes (f.rest.take f.block))
    (hpay : blockPayload (b.cctx g).hist blk = (pay, stored))
    (hwrite : b.cmpWrite g (24 + pay.length) f.seq (fun spill => b.segmentHead g f spill ++ pay) = (some o, y)) :
    Block.SegmentWritten g f (histAfter (b.cctx g).hist blk) b y (b.archSegment g) := by
  subst hblk
  rw [Block.archSegment_eq hframe hst hgap henc]
  dsimp only
  rw [hpay, hwrite]
  exact Block.segment_written hg _ _ _ hwrite

theorem Block.archSegment_done :
    let c := b.cctx g
    let blk := bytePlanes (f.rest.take f.block)
    let pay := (blockPayload c.hist blk).1
    let last := (f.rest.drop f.block).isEmpty
    let n := segLen (24 + pay.length)
    let h := segHeader (b2n (blockPayload c.hist blk).2 + 4 * b2n f.key + 16 * b2n (f.idx == 0) + 32 * b2n last) g b.loadCount c.seq f.seq blk.length pay.length
    let z := b.archSegment g
    let written := (z.cctx g).seq = c.seq + 1 ∧ (if last then (z.grp g).frame = none ∧ b.counts z Reg.CMP_GRP_FRAMES g
      else (z.grp g).frame = some { f with idx := f.idx + 1, rest := f.rest.drop f.block } ∧ (z.cctx g).hist = histAfter c.hist blk)
    match b.ringFit n with
    | some (o, _) => written ∧ (z.vis Reg.CMP_RING_WR).toNat = (o + n) % b.cmpRing.2 / 64 % 2 ^ 32 ∧ (last = false → z.load (b.cmpRing.1 + o) (24 + pay.length) = h ++ pay)
    | none => match (b.spillFit n (List.range 16)).1 with
      | some i => written ∧ (z.vis Reg.CMP_SPILL_USED 0 i).toNat = ((b.vis Reg.CMP_SPILL_USED 0 i).toNat + n) % 2 ^ 32
      | none => (z.grp g).st = 2 ∧ (z.cctx g).suspended = true ∧ (z.cctx g).seq = c.seq ∧ b.counts z Reg.CMP_GRP_NOSPACE g := by
  intro c blk pay last n h z written
  have hwritten {o : Nat} {y : Block} (hw : b.cmpWrite g (24 + pay.length) f.seq (fun spill => b.segmentHead g f spill ++ pay) = (some o, y)) :
      written ∧ Block.SegmentWritten g f (histAfter c.hist blk) b y z := by
    have hdone := Block.archSegment_written hg hframe hst hgap henc (blk := blk) (pay := pay) (stored := (blockPayload c.hist blk).2) rfl rfl hw
    refine ⟨⟨hdone.seq, ?_⟩, hdone⟩
    cases hlast : last with
    | true => exact hdone.last hlast
    | false => exact ⟨(hdone.more hlast).1, (hdone.more hlast).2.1⟩
  split
  · rename_i o pad hfit
    obtain ⟨y, hw, hwr, hload⟩ := Block.cmpWrite_ring (g := g) (basin := f.seq) (mk := fun spill => b.segmentHead g f spill ++ pay) hfit
    obtain ⟨hsaid, hdone⟩ := hwritten hw
    refine ⟨hsaid, ?_, fun hlast => ?_⟩
    · rw [hdone.alters.vis (by decide) (by decide) (by decide)]
      exact hwr
    · rw [Block.load_of_cells (hdone.more hlast).2.2]
      exact (Block.load_padded hload (by rw [List.length_append, b.segmentHead_length]) (le_segLen _)).trans (congrArg (· ++ pay) (b.segmentHead_ring g f))
  · rename_i hfit
    split
    · rename_i i hspill
      obtain ⟨o, y, hw, hused⟩ := Block.cmpWrite_spill (g := g) (basin := f.seq) (mk := fun spill => b.segmentHead g f spill ++ pay) hfit hspill
      obtain ⟨hsaid, hdone⟩ := hwritten hw
      refine ⟨hsaid, ?_⟩
      have hlt := (Block.Alters.refl.spillFit (a := b) (n := n) (r := List.range 16) (fun i hi => List.mem_range.mp hi)).2 i hspill
      have hout : ∀ i < 16, RegSet.has (Reg.CMP_GRP_FRAMES.regs ++ toldRegs) Blk.cmp (Reg.CMP_SPILL_USED.off + Reg.CMP_SPILL_USED.stride * i) = false := by decide
      rw [hdone.alters.vis (hout i hlt) (spill_lies hlt).2 (by decide)]
      exact hused
    · rename_i hspill
      have hnone := Block.cmpWrite_none (g := g) (basin := f.seq) (mk := fun spill => b.segmentHead g f spill ++ pay) hfit hspill
      have hy := b.cmpWrite_touches g (24 + pay.length) f.seq (fun spill => b.segmentHead g f spill ++ pay)
      have hregs := b.cmpWrite_alters g (24 + pay.length) f.seq (fun spill => b.segmentHead g f spill ++ pay)
      have hz : z = (b.cmpWrite g (24 + pay.length) f.seq (fun spill => b.segmentHead g f spill ++ pay)).2.cmpSuspend g f.seq := by
        unfold z
        rw [Block.archSegment_eq hframe hst hgap henc]
        dsimp only
        split
        · rename_i hw
          rw [hw]
        · rename_i hw
          rw [hw] at hnone
          cases hnone
      clear_value z
      generalize (b.cmpWrite g (24 + pay.length) f.seq (fun spill => b.segmentHead g f spill ++ pay)).2 = y at *
      subst hz
      obtain ⟨hstate, hsuspended, hseq, hcounts⟩ := Block.cmpSuspend_done (b := y) (seq := f.seq) hg
      refine ⟨hstate, hsuspended, hseq.trans (congrArg (fun x : Cmp => (Tbl.get x.ctxs g CmpCtx.reset).seq) (hy.keeps .cmp rfl)), ?_⟩
      rwa [Block.counts, hregs.vis (by decide) (by decide) (by omega)] at hcounts

end segment

/-! ### RESUME (R364) -/

/-- RESUME for one group. -/
def Block.resumeGroup (v : Nat) (b : Block) (g : Nat) : Block :=
  let x := b.grp g
  if bit v g = true ∧ x.st = 2 then
    let seq := match x.frame with | some f => f.seq | none => 0
    ((b.setGrp g { x with st := 1 }).setCctx g { b.cctx g with suspended := false }).event 0x1203 g seq
  else b

/-- What RESUME leaves of a group that it concerns: itself, and its context. -/
def Block.Resumed (v : Nat) (a b : Block) (g : Nat) : Prop :=
  if bit v g = true ∧ (a.grp g).st = 2 then b.grp g = { a.grp g with st := 1 } ∧ (b.cctx g).suspended = false
  else b.grp g = a.grp g ∧ b.cctx g = a.cctx g

/-- A group set at work again, with its event. -/
theorem Block.resumeGroup_cmp {v g : Nat} {b : Block} (h : bit v g = true ∧ (b.grp g).st = 2) :
    (b.resumeGroup v g).cmp = ((b.setGrp g { b.grp g with st := 1 }).setCctx g { b.cctx g with suspended := false }).cmp := by
  unfold Block.resumeGroup
  rw [if_pos h]
  exact (Block.event_touches ..).keeps .cmp rfl

theorem Block.resumeGroup_other {v g j : Nat} (b : Block) (h : j ≠ g) : (b.resumeGroup v g).grp j = b.grp j ∧ (b.resumeGroup v g).cctx j = b.cctx j := by
  by_cases hon : bit v g = true ∧ (b.grp g).st = 2
  · have hcmp := Block.resumeGroup_cmp hon
    exact ⟨(congrArg (fun z : Cmp => Tbl.get z.groups j CmpGroup.reset) hcmp).trans (Block.grp_setGrp_other b _ h),
      (congrArg (fun z : Cmp => Tbl.get z.ctxs j CmpCtx.reset) hcmp).trans (Block.cctx_setCctx_other (b.setGrp g { b.grp g with st := 1 }) _ h)⟩
  · unfold Block.resumeGroup
    rw [if_neg hon]
    exact ⟨rfl, rfl⟩

theorem Block.resumeGroup_self (v g : Nat) (b : Block) : Block.Resumed v b (b.resumeGroup v g) g := by
  unfold Block.Resumed
  split
  · rename_i hon
    have hcmp := Block.resumeGroup_cmp hon
    exact ⟨(congrArg (fun z : Cmp => Tbl.get z.groups g CmpGroup.reset) hcmp).trans (Block.grp_setGrp b g _),
      (congrArg (fun z : Cmp => (Tbl.get z.ctxs g CmpCtx.reset).suspended) hcmp).trans
        (congrArg CmpCtx.suspended (Block.cctx_setCctx (b.setGrp g { b.grp g with st := 1 }) g { b.cctx g with suspended := false }))⟩
  · rename_i hoff
    unfold Block.resumeGroup
    rw [if_neg hoff]
    exact ⟨rfl, rfl⟩

/-- A block that agrees in a group and its context. -/
theorem Block.Resumed.congr {v g : Nat} {a b c : Block} (h : Block.Resumed v a b g) (hgrp : c.grp g = b.grp g) (hctx : c.cctx g = b.cctx g) :
    Block.Resumed v a c g := by
  unfold Block.Resumed at h ⊢
  rwa [hgrp, hctx]

/-- Groups resumed one after the other: those of the list, each as it was found. -/
theorem Block.resumed_fold {v : Nat} {r : List Nat} (hr : r.Nodup) (b : Block) (g : Nat) :
    if g ∈ r then Block.Resumed v b (r.foldl (Block.resumeGroup v) b) g
    else (r.foldl (Block.resumeGroup v) b).grp g = b.grp g ∧ (r.foldl (Block.resumeGroup v) b).cctx g = b.cctx g := by
  induction r generalizing b with
  | nil => exact ⟨rfl, rfl⟩
  | cons j r ih =>
    obtain ⟨hj, hr⟩ := List.nodup_cons.mp hr
    have hrest := ih hr (b.resumeGroup v j)
    rw [List.foldl_cons]
    by_cases hg : g = j
    · subst hg
      rw [if_neg hj] at hrest
      rw [if_pos List.mem_cons_self]
      exact (b.resumeGroup_self v g).congr hrest.1 hrest.2
    · obtain ⟨hgrp, hctx⟩ := b.resumeGroup_other (v := v) hg
      unfold Block.Resumed at hrest ⊢
      rw [hgrp, hctx] at hrest
      simp only [List.mem_cons, hg, false_or]
      exact hrest

/-! ### The statement -/

theorem Block.clock_loadCount (b : Block) (t : Nat) : (b.clock t).loadCount = b.loadCount :=
  congrArg leNat (Block.load_of_cells (a := b) (b := b.clock t) rfl 0x407F2000 4)

theorem Block.clock_cmpRing (b : Block) (t : Nat) : (b.clock t).cmpRing = b.cmpRing := rfl

theorem Block.clock_ringFit (b : Block) (t n : Nat) : (b.clock t).ringFit n = b.ringFit n := rfl

/-- The search for a spill buffer does not read the time. -/
theorem Block.clock_spillFit (b : Block) (t n : Nat) (r : List Nat) : ((b.clock t).spillFit n r).1 = (b.spillFit n r).1 := by
  induction r generalizing b with
  | nil => rfl
  | cons i r ih =>
    unfold Block.spillFit
    have hsame (d : RegDesc) : (b.clock t).vis d 0 i = b.vis d 0 i := rfl
    dsimp only
    rw [hsame, hsame]
    split
    · exact ih b
    · split
      · rfl
      · have hset (w : Word) : (b.clock t).setVis Reg.CMP_SPILL_SIZE 0 i w = (b.setVis Reg.CMP_SPILL_SIZE 0 i w).clock t := rfl
        rw [hset]
        exact ih _

/-- Settles O38: a frame's start and a segment by the lemmas of their operations, RESUME group by group. -/
theorem groupsArchiveTheirBasins : Obligations.GroupsArchiveTheirBasins := by
  refine ⟨fun t g r seq p q x s hg hqueue hst hlanes hpos hen hring henc => ?_, fun t g f s hg hframe hst hgap henc => ?_, fun t m value s hm => ?_⟩
  · exact Completes.runIf (f := fun b => b.archStart g) rfl (decide_eq_true hg) (Block.archStart_done (b := s.at t) rfl hqueue hst hlanes hpos hen hring henc)
  · refine Completes.runIf (f := fun b => b.archSegment g) rfl (decide_eq_true hg) ?_
    rw [← s.blk.clock_loadCount t]
    intro c blk pay last n h written
    rw [← s.blk.clock_spillFit t, ← s.blk.clock_ringFit t, ← s.blk.clock_cmpRing t]
    exact Block.archSegment_done (b := s.at t) hg hframe hst hgap henc
  · refine Completes.byGlobal (fun b => b.cmpResume (value % 2 ^ 32)) rfl hm (by decide) (fun g hg => ?_)
    have hdone := Block.resumed_fold (v := value % 2 ^ 32) (List.nodup_range (n := 16)) (s.at t) g
    rw [if_pos (List.mem_range.mpr hg)] at hdone
    exact hdone

end Sys2Proof.Machine
end

section
/-! PROOFS. The diagnostic window: what a unit's physical contents read after they are written (O36). -/

/- One declaration after the other: the text is checked as one, with room for few threads. -/
set_option Elab.async false

namespace Sys2Proof.Machine

/-! ### What a unit's contents depend on -/

theorem Block.coreStarts_scratch (b : Block) (x : Core) : (b.coreStarts x).scratch = x.scratch := by
  unfold Block.coreStarts
  split
  · rfl
  · dsimp only
    split
    · rfl
    · split <;> rfl

theorem Block.core_scratch (b : Block) (c : Nat) : (b.core c).scratch = (Tbl.get b.dfe.cores c Core.reset).scratch := b.coreStarts_scratch _

/-- Two blocks that agree in all that a unit's physical contents are taken from. -/
structure Block.SameUnits (a b : Block) : Prop where
  free : b.free = a.free
  mem : b.mem = a.mem
  mm : b.mm = a.mm
  aln : b.aln = a.aln
  que : b.que = a.que
  dfe : b.dfe = a.dfe
  cfg : ∀ q < 64, b.vis Reg.QUE_CFG q = a.vis Reg.QUE_CFG q

theorem List.findSome?_congr {α β : Type} {f g : α → Option β} : ∀ {l : List α}, (∀ x ∈ l, f x = g x) → l.findSome? f = l.findSome? g
  | [], _ => rfl
  | x :: r, h => by
    rw [List.findSome?_cons, List.findSome?_cons, h x List.mem_cons_self, List.findSome?_congr fun y hy => h y (List.mem_cons_of_mem _ hy)]

theorem Block.SameUnits.itemAt {a b : Block} (h : Block.SameUnits a b) (u : Nat) : b.itemAt u = a.itemAt u := by
  refine List.findSome?_congr fun q hq => ?_
  have hcfg := h.cfg q (List.mem_range.1 hq)
  have hcap : b.qcap q = a.qcap q := by rw [Block.qcap, Block.qcap, hcfg]
  have hen : b.qen q = a.qen q := by rw [Block.qen, Block.qen, hcfg]
  have hqueue : b.queue q = a.queue q := by rw [Block.queue, Block.queue, h.que]
  rw [hcfg, hcap, hen, hqueue]

theorem Block.SameUnits.basinAt {a b : Block} (h : Block.SameUnits a b) (r p : Nat) : b.basinAt r p = a.basinAt r p := by
  rw [Block.basinAt, Block.basinAt, Block.ring, Block.ring, h.aln]

theorem Block.SameUnits.munit {a b : Block} (h : Block.SameUnits a b) (m : Nat) : b.munit m = a.munit m := by
  rw [Block.munit, Block.munit, h.mm]

theorem Block.SameUnits.spareOf {a b : Block} (h : Block.SameUnits a b) (m u : Nat) : b.spareOf m u = a.spareOf m u := by
  rw [Block.spareOf, Block.spareOf, h.munit]

theorem Block.SameUnits.unitData {a b : Block} (h : Block.SameUnits a b) (m u : Nat) : b.unitData m u = a.unitData m u := by
  have hbitmap : b.bitmapAt u = a.bitmapAt u := by
    unfold Block.bitmapAt
    simp only [h.basinAt]
  unfold Block.unitData
  split
  · simp only [Block.core_scratch, h.dfe]
  · rw [hbitmap]
    simp only [h.basinAt]
  · rw [h.itemAt]
    simp only [Block.queue, h.que]
  · simp only [h.spareOf, Block.load_of_cells (congrArg Mem.cells h.mem)]
  · simp only [h.spareOf, Block.load_of_cells (congrArg Mem.cells h.mem)]
  · simp only [h.spareOf, Block.load_of_cells (congrArg Mem.cells h.mem)]
  · rfl

theorem Block.SameUnits.rawOf {a b : Block} (h : Block.SameUnits a b) (m u : Nat) : (b.rawOf m u).1 = (a.rawOf m u).1 := by
  unfold Block.rawOf
  rw [h.munit, h.mem, h.unitData]
  dsimp only
  split
  · rfl
  · split <;> rfl
  · simp only [Block.draw, h.free]

theorem Touches.memory {l : List Part} {a b : Block} (h : Touches l a b) (hcells : l.contains .cells = false) (hflash : l.contains .flash = false)
    (hpoison : l.contains .poison = false) : b.mem = a.mem := by
  have hsame : b.mem.cells = a.mem.cells ∧ b.mem.flash = a.mem.flash ∧ (b.mem.poison, b.mem.raw) = (a.mem.poison, a.mem.raw) :=
    ⟨h.keeps .cells hcells, h.keeps .flash hflash, h.keeps .poison hpoison⟩
  generalize b.mem = x at *
  generalize a.mem = y at *
  cases x
  cases y
  simp_all

/-- What touches none of it but registers, and no queue's configuration. -/
theorem Block.SameUnits.of_touches {a b : Block} (h : Touches [.t7, .vis, .resp, .evr] a b)
    (hcfg : ∀ q < 64, b.vis Reg.QUE_CFG q = a.vis Reg.QUE_CFG q) : Block.SameUnits a b where
  free := h.keeps .free rfl
  mem := h.memory rfl rfl rfl
  mm := h.keeps .mm rfl
  aln := h.keeps .aln rfl
  que := h.keeps .que rfl
  dfe := h.keeps .dfe rfl
  cfg := hcfg

/-! ### A unit's data written -/

theorem leNat_leBytes (n v : Nat) : leNat (leBytes n v) = v % 256 ^ n := by
  induction n generalizing v with
  | zero => simp [leBytes, leNat, Nat.mod_one]
  | succ n ih =>
    have hlow : (BitVec.ofNat 8 v).toNat = v % 256 := BitVec.toNat_ofNat v 8
    rw [leBytes, leNat, ih, hlow, Nat.pow_succ', Nat.mod_mul]

theorem Block.load_putBusUnit (b : Block) (m u d : Nat) :
    (b.putBusUnit m u d).load (Mem.byteAddr m ((b.spareOf m u).getD u)) (Mem.unitBytes m) = leBytes (Mem.unitBytes m) d :=
  (Block.load_of_cells (a := b.store _ _) rfl _ _).trans (b.load_store_same _ _ (leBytes_length ..))

theorem cells_written (m : List Host.Cell) (a : Nat) (bs : List Byte) (d : Byte) :
    (List.range bs.length).map (fun i => cellGet (cellsSet m a bs d) (a + i) d) = bs := by
  refine List.ext_getElem (by simp) fun i hi hi' => ?_
  simp only [List.getElem_map, List.getElem_range]
  rw [cellGet_sets, if_pos (by omega), Nat.add_sub_cancel_left]
  simp [List.getD_eq_getElem?_getD, hi']

theorem bits_mod (v hi lo n : Nat) (h : lo ≤ hi) (hn : hi < n) : bits (v % 2 ^ n) hi lo = bits v hi lo := by
  unfold bits
  have hsplit : 2 ^ n = 2 ^ lo * 2 ^ (n - lo) := by rw [← Nat.pow_add]; congr 1; omega
  rw [hsplit, Nat.mod_mul_right_div_self, Nat.mod_mod_of_dvd _ (Nat.pow_dvd_pow 2 (by omega))]

theorem bits_ofNat (v hi lo n : Nat) (h : lo ≤ hi) (hn : hi < n) : bits (BitVec.ofNat n v).toNat hi lo = bits v hi lo := by
  rw [BitVec.toNat_ofNat, bits_mod v hi lo n h hn]

/-- A field of a number replaced by another value reads as that value. -/
theorem bits_replaced (v d hi lo : Nat) (h : lo ≤ hi) (hd : d < 2 ^ (hi + 1 - lo)) : bits (v - bits v hi lo * 2 ^ lo + d * 2 ^ lo) hi lo = d := by
  have hv := bits_split v hi lo h
  have hlow := Nat.mod_lt v (Nat.two_pow_pos lo)
  have hsplit : 2 ^ (hi + 1) = 2 ^ lo * 2 ^ (hi + 1 - lo) := by rw [← Nat.pow_add]; congr 1; omega
  have hnew : v - bits v hi lo * 2 ^ lo + d * 2 ^ lo = v % 2 ^ lo + 2 ^ lo * (d + 2 ^ (hi + 1 - lo) * (v / 2 ^ (hi + 1))) := by
    rw [Nat.mul_add, ← Nat.mul_assoc, ← hsplit, Nat.mul_comm (2 ^ lo) d, Nat.mul_comm (2 ^ (hi + 1))]
    omega
  rw [hnew]
  unfold bits
  rw [Nat.add_mul_div_left _ _ (Nat.two_pow_pos lo), Nat.div_eq_of_lt hlow, Nat.zero_add, Nat.add_mul_mod_self_left, Nat.mod_eq_of_lt hd]

theorem Block.itemAt_bound {b : Block} {u q i : Nat} (h : b.itemAt u = some (q, i)) : i < (b.queue q).items.length := by
  obtain ⟨r, -, hr⟩ := List.exists_of_findSome?_eq_some h
  dsimp only at hr
  split at hr
  · rename_i hcond
    obtain ⟨rfl, rfl⟩ := Prod.mk.inj (Option.some.inj hr)
    simp only [Bool.and_eq_true, decide_eq_true_eq] at hcond
    exact hcond.2
  · cases hr

theorem Block.itemAt_setQueue (b : Block) (q u : Nat) {l : List QItem} (hlen : l.length = (b.queue q).items.length) :
    (b.setQueue q { b.queue q with items := l }).itemAt u = b.itemAt u := by
  generalize hy : ({ b.queue q with items := l } : Queue) = y
  refine List.findSome?_congr fun r _ => ?_
  have hqueue : ((b.setQueue q y).queue r).rd = (b.queue r).rd ∧ ((b.setQueue q y).queue r).items.length = (b.queue r).items.length := by
    by_cases hr : r = q
    · subst hr
      rw [Block.queue_setQueue]
      subst hy
      exact ⟨rfl, hlen⟩
    · rw [Block.queue_setQueue_other _ _ hr]
      exact ⟨rfl, rfl⟩
  have hcap : (b.setQueue q y).qcap r = b.qcap r := rfl
  have hen : (b.setQueue q y).qen r = b.qen r := rfl
  have hvis : (b.setQueue q y).vis Reg.QUE_CFG r = b.vis Reg.QUE_CFG r := rfl
  rw [hqueue.1, hqueue.2, hcap, hen, hvis]

theorem Block.unitData_putScratch (b : Block) (u d : Nat) : (b.putUnit 0 u d).unitData 0 u = (b.unitData 0 u).map (fun _ => d % 256 ^ 8) := by
  unfold Block.putUnit Block.unitData
  dsimp only
  cases scratchAt u with
  | none => rfl
  | some x =>
    have hbytes := cells_written (b.core x.1).scratch x.2 (leBytes 8 d) 0
    rw [leBytes_length] at hbytes
    simp only [Option.map_some, Block.core_setCore, Block.coreStarts_scratch]
    rw [hbytes, leNat_leBytes]

theorem Block.bitmapAt_setBasin {b : Block} {u : Nat} {x : Nat × Nat} (h : b.bitmapAt u = some x) (w : BitVec 8192) :
    (b.setBasin x.1 x.2 { b.basinAt x.1 x.2 with bmp := w }).bitmapAt u = some x := by
  unfold Block.bitmapAt at h ⊢
  dsimp only at h ⊢
  generalize (if u / 128 < 512 then ((0, u / 128) : Nat × Nat) else (1, u / 128 - 512)) = z at h ⊢
  split at h
  · rename_i hcond
    obtain rfl := Option.some.inj h
    rw [Block.basinAt_setBasin]
    exact if_pos hcond
  · cases h

theorem Block.unitData_bitmap (b : Block) (u : Nat) : b.unitData 3 u =
    (b.bitmapAt u).map (fun x => bits (b.basinAt x.1 x.2).bmp.toNat (64 * (u % 128) + 63) (64 * (u % 128))) := rfl

theorem Block.unitData_putBitmap (b : Block) (u d : Nat) : (b.putUnit 3 u d).unitData 3 u = (b.unitData 3 u).map (fun _ => d % 256 ^ 8) := by
  have hput : b.putUnit 3 u d = match b.bitmapAt u with
    | some x =>
      let y := b.basinAt x.1 x.2
      let lo := 64 * (u % 128)
      let v := y.bmp.toNat
      b.setBasin x.1 x.2 { y with bmp := BitVec.ofNat 8192 (v - bits v (lo + 63) lo * 2 ^ lo + d % 2 ^ 64 * 2 ^ lo) }
    | none => b := rfl
  rw [hput, Block.unitData_bitmap, Block.unitData_bitmap]
  cases hx : b.bitmapAt u with
  | none =>
    dsimp only
    rw [hx]
    rfl
  | some x =>
    dsimp only
    rw [Block.bitmapAt_setBasin hx]
    simp only [Option.map_some, Block.basinAt_setBasin]
    have hword : 64 * (u % 128) + 63 + 1 - 64 * (u % 128) = 64 := by omega
    have hfield := bits_replaced (b.basinAt x.1 x.2).bmp.toNat (d % 2 ^ 64) (64 * (u % 128) + 63) (64 * (u % 128)) (by omega)
      (by rw [hword]; exact Nat.mod_lt _ (Nat.two_pow_pos 64))
    rw [bits_ofNat _ _ _ _ (by omega) (by omega), hfield]
    norm_num

theorem Block.unitData_item (b : Block) (u : Nat) : b.unitData 5 u =
    (b.itemAt u).map (fun x => match (b.queue x.1).items[x.2]? with | some i => i.val | none => 0) := rfl

theorem Block.unitData_putItem (b : Block) (u d : Nat) : (b.putUnit 5 u d).unitData 5 u = (b.unitData 5 u).map (fun _ => d % 256 ^ 8) := by
  have hput : b.putUnit 5 u d = match b.itemAt u with
    | some x =>
      let y := b.queue x.1
      b.setQueue x.1 { y with items := y.items.mapIdx (fun k i => if k = x.2 then { i with val := d % 2 ^ 64 } else i) }
    | none => b := rfl
  rw [hput, Block.unitData_item, Block.unitData_item]
  cases hx : b.itemAt u with
  | none =>
    dsimp only
    rw [hx]
    rfl
  | some x =>
    have hlt := Block.itemAt_bound hx
    dsimp only
    rw [Block.itemAt_setQueue _ _ _ (List.length_mapIdx ..), hx]
    simp only [Option.map_some, Block.queue_setQueue, List.getElem?_mapIdx, List.getElem?_eq_getElem hlt, if_true]
    norm_num

theorem Block.unitData_putBus (b : Block) (m u d : Nat) :
    some (leNat ((b.putBusUnit m u d).load (Mem.byteAddr m (((b.putBusUnit m u d).spareOf m u).getD u)) (Mem.unitBytes m))) =
      (some (leNat (b.load (Mem.byteAddr m ((b.spareOf m u).getD u)) (Mem.unitBytes m)))).map (fun _ => d % 256 ^ Mem.unitBytes m) := by
  have hspare : (b.putBusUnit m u d).spareOf m u = b.spareOf m u := rfl
  rw [hspare, Block.load_putBusUnit, leNat_leBytes]
  rfl

/-- What is written to a unit's data reads there, where the spec says what it holds. -/
theorem Block.unitData_putUnit (b : Block) (m u d : Nat) :
    (b.putUnit m u d).unitData m u = (b.unitData m u).map (fun _ => d % 256 ^ Mem.unitBytes m) := by
  by_cases hscratch : m = 0
  · subst hscratch
    exact b.unitData_putScratch u d
  by_cases hbitmap : m = 3
  · subst hbitmap
    exact b.unitData_putBitmap u d
  by_cases hitem : m = 5
  · subst hitem
    exact b.unitData_putItem u d
  by_cases hbus : m = 1 ∨ m = 2 ∨ m = 9
  · obtain rfl | rfl | rfl := hbus <;> exact b.unitData_putBus _ u d
  · have hnone (x : Block) : x.unitData m u = none := by
      unfold Block.unitData
      split <;> first | rfl | omega
    rw [hnone, hnone]
    rfl

/-! ### Physical contents put into a unit -/

theorem Tbl.find?_ins {α : Type} (l : Tbl α) (k : Nat) (v : α) : (Tbl.ins l k v).find? (fun e => e.1 == k) = some (k, v) := by
  induction l with
  | nil => simp [Tbl.ins]
  | cons e r ih =>
    obtain ⟨j, w⟩ := e
    unfold Tbl.ins
    split
    · simp
    · split
      · simp
      · rw [List.find?_cons_of_neg (by simpa using Ne.symm ‹_›), ih]

theorem pairIns_contains (l : List (Nat × Nat)) (p q : Nat × Nat) : (pairIns l p).contains q = (q == p || l.contains q) := by
  induction l with
  | nil => rw [pairIns, List.contains_cons]
  | cons x r ih =>
    unfold pairIns
    split
    · rename_i hx
      subst hx
      rw [List.contains_cons]
      cases q == p <;> rfl
    · split
      · rw [List.contains_cons]
      · rw [List.contains_cons, ih, List.contains_cons]
        cases q == x <;> cases q == p <;> rfl

/-- The parts of a unit that become poison, among the poison of the rest. -/
theorem pairIns_fold_contains (f : Nat → Nat × Nat) (q : Nat × Nat) : ∀ (r : List Nat) (l : List (Nat × Nat)),
    (r.foldl (fun l i => pairIns l (f i)) l).contains q = (r.any (fun i => q == f i) || l.contains q)
  | [], l => by simp
  | i :: r, l => by
    rw [List.foldl_cons, pairIns_fold_contains f q r, pairIns_contains, List.any_cons]
    cases q == f i <;> cases r.any (fun i => q == f i) <;> rfl

/-- A number by its fields, least significant first. -/
theorem fields_fold (v n : Nat) {w : Nat} (hw : 0 < w) :
    (List.range n).foldl (fun a i => a + bits v (w * i + w - 1) (w * i) * 2 ^ (w * i)) 0 = v % 2 ^ (w * n) := by
  induction n with
  | zero => simp [Nat.mod_one]
  | succ n ih =>
    have hwidth : w * n + w - 1 + 1 - w * n = w := by omega
    rw [List.range_succ, List.foldl_append, ih, List.foldl_cons, List.foldl_nil, Nat.mul_succ, Nat.pow_add, Nat.mod_mul, bits, hwidth]
    ring

theorem byteRead_good {d c : Nat} (h : byteRead d c = .good) : c = (Config.byteCode (BitVec.ofNat 8 d)).toNat := by
  unfold byteRead at h
  dsimp only at h
  split at h
  · cases h
  · split at h
    · assumption
    · split at h
      · cases h
      · split at h <;> cases h

theorem lineRead_good {d c : Nat} (h : lineRead d c = .good) : c = (Config.lineCode d).toNat := by
  unfold lineRead at h
  dsimp only at h
  split at h
  · cases h
  · split at h
    · assumption
    · split at h
      · cases h
      · split at h <;> cases h

/-- A line whose check bits are its code reads as it stands. -/
theorem line_plain {r : Nat × Nat} (h : (unitRead 9 r).all (· == .good) = true) (old : Nat) : readsAs 9 old r = r.1 ∧ checkOf 9 r.1 = r.2 := by
  have hgood : lineRead r.1 r.2 = .good := by simpa [unitRead] using h
  refine ⟨?_, (lineRead_good hgood).symm⟩
  rw [readsAs, if_pos rfl, hgood]

theorem unitRead_bytes {m : Nat} (hm : m ≠ 9) (r : Nat × Nat) :
    unitRead m r = (List.range 8).map (fun i => byteRead (bits r.1 (8 * i + 7) (8 * i)) (bits r.2 (5 * i + 4) (5 * i))) := if_neg hm

/-- And so does a word. -/
theorem word_plain {m : Nat} (hm : m ≠ 9) {r : Nat × Nat} (h : (unitRead m r).all (· == .good) = true) (hdata : r.1 < 2 ^ 64) (old : Nat) :
    readsAs m old r = r.1 ∧
      ∀ i < 8, bits (checkOf m r.1) (5 * i + 4) (5 * i) = bits r.2 (5 * i + 4) (5 * i) := by
  have hgood : ∀ i ∈ List.range 8, byteRead (bits r.1 (8 * i + 7) (8 * i)) (bits r.2 (5 * i + 4) (5 * i)) = .good := by
    rw [unitRead_bytes hm, List.all_map, List.all_eq_true] at h
    exact fun i hi => by simpa using h i hi
  have hcheck : checkOf m r.1 = r.2 % 2 ^ 40 := by
    rw [checkOf, if_neg hm, ← fields_fold r.2 8 (w := 5) (by decide)]
    exact List.foldl_ext _ _ _ fun a i hi => by rw [← byteRead_good (hgood i hi)]; rfl
  constructor
  · rw [readsAs, if_neg hm]
    refine Eq.trans (List.foldl_ext _ (fun a i => a + bits r.1 (8 * i + 8 - 1) (8 * i) * 2 ^ (8 * i)) _ fun a i hi => ?_)
      ((fields_fold r.1 8 (w := 8) (by decide)).trans (Nat.mod_eq_of_lt hdata))
    dsimp only
    rw [hgood i hi]
    rfl
  · intro i hi
    rw [hcheck, bits_mod _ _ _ _ (by omega) (by omega)]

theorem Block.setRaw_mm (b : Block) (m u : Nat) (r : Nat × Nat) : (b.setRaw m u r).mm = b.mm := (Block.setRaw_touches ..).keeps .mm rfl

/-- A unit whose contents the memory notes has those contents. -/
theorem Block.rawOf_noted {b : Block} {m u : Nat} {r : Nat × Nat} (h : b.mem.raw.find? (fun e => e.1 == m * 2 ^ 32 + u) = some (m * 2 ^ 32 + u, r)) :
    (b.rawOf m u).1 = r := by
  unfold Block.rawOf
  rw [h]
  rfl

/-- A unit in its place whose contents are not noted has its data under its code, where no poison is recorded in it. -/
theorem Block.rawOf_plain {b : Block} {m u d : Nat} (hraw : b.mem.raw.find? (fun e => e.1 == m * 2 ^ 32 + u) = none)
    (hmoved : (b.munit m).remaps.any (fun x => x.1 == u) = false) (hdata : b.unitData m u = some d)
    (hpoison : ∀ i < (if m = 9 then 1 else 8), b.mem.poison.contains (m, (if m = 9 then 1 else 8) * u + i) = false) :
    (b.rawOf m u).1 = (d, if m = 9 then checkOf m d else
      (List.range 8).foldl (fun a i => a + bits (checkOf m d) (5 * i + 4) (5 * i) * 2 ^ (5 * i)) 0) := by
  unfold Block.rawOf
  rw [hraw, hmoved, hdata]
  rw [Option.map_none]
  dsimp only
  rw [if_neg Bool.false_ne_true]
  dsimp only
  by_cases hm : m = 9
  · subst hm
    have hline : b.mem.poison.contains (9, u) = false := by simpa using hpoison 0
    rw [if_pos rfl, if_pos rfl, hline, if_neg Bool.false_ne_true]
  · have hpart : ∀ i ∈ List.range 8, b.mem.poison.contains (m, 8 * u + i) = false := fun i hi => by
      simpa only [if_neg hm] using hpoison i (by rw [if_neg hm]; exact List.mem_range.1 hi)
    rw [if_neg hm, if_neg hm]
    refine congrArg (Prod.mk d) (List.foldl_ext _ _ _ fun a i hi => ?_)
    rw [hpart i hi]
    rfl

/-- The poison that a unit in its place has by the contents put into it. -/
theorem Block.setRaw_poison {b : Block} {m u : Nat} (r : Nat × Nat) (hmoved : (b.munit m).remaps.any (fun x => x.1 == u) = false) {i : Nat}
    (hi : i < if m = 9 then 1 else 8) :
    (b.setRaw m u r).mem.poison.contains (m, (if m = 9 then 1 else 8) * u + i) = ((unitRead m r).getD i .good == .poison) := by
  have hraw : (b.setRaw m u r).mem.poison =
      ((List.range (if m = 9 then 1 else 8)).filter (fun i => (unitRead m r).getD i .good == .poison)).foldl
        (fun l i => pairIns l (m, (if m = 9 then 1 else 8) * u + i))
        ((b.putUnit m u (readsAs m ((b.unitData m u).getD 0) r)).mem.poison.filter
          (fun x => !(x.1 == m && x.2 / (if m = 9 then 1 else 8) == u))) := by
    unfold Block.setRaw
    rw [hmoved]
    rfl
  have hn : 0 < if m = 9 then 1 else 8 := by split <;> decide
  rw [hraw]
  generalize (if m = 9 then 1 else 8) = n at hi hn ⊢
  rw [pairIns_fold_contains, Bool.eq_iff_iff]
  have hrest : (List.filter (fun x : Nat × Nat => !(x.1 == m && x.2 / n == u))
      (b.putUnit m u (readsAs m ((b.unitData m u).getD 0) r)).mem.poison).contains (m, n * u + i) = false := by
    rw [Bool.eq_false_iff]
    intro h
    have hkept := (List.mem_filter.1 (List.contains_iff_mem.1 h)).2
    rw [Nat.mul_add_div hn, Nat.div_eq_of_lt hi] at hkept
    simp at hkept
  rw [hrest, Bool.or_false, List.any_eq_true]
  constructor
  · rintro ⟨j, hj, hij⟩
    have heq : i = j := by simpa using hij
    exact heq ▸ (List.mem_filter.1 hj).2
  · exact fun h => ⟨i, List.mem_filter.2 ⟨List.mem_range.2 hi, h⟩, by simp⟩

theorem unitRead_good {m : Nat} {r : Nat × Nat} (h : (unitRead m r).all (· == .good) = true) (i : Nat) : (unitRead m r).getD i .good = .good := by
  rw [List.getD_eq_getElem?_getD]
  cases hi : (unitRead m r)[i]? with
  | none => rfl
  | some x => exact eq_of_beq (List.all_eq_true.1 h x (List.mem_of_getElem? hi))

/-- Contents that the unit's data stands for under its code are not noted apart. -/
theorem Block.setRaw_noted (b : Block) (m u : Nat) (r : Nat × Nat) : (b.setRaw m u r).mem.raw =
    if ((unitRead m r).all (· == .good) && !(b.munit m).remaps.any (fun x => x.1 == u) && (b.unitData m u).isSome) = true
      then Tbl.erase b.mem.raw (m * 2 ^ 32 + u) else Tbl.ins b.mem.raw (m * 2 ^ 32 + u) r := by
  have hput (d : Nat) : (b.putUnit m u d).mem.raw = b.mem.raw := congrArg Prod.snd ((Block.putUnit_touches ..).keeps .poison rfl)
  have hsome (d : Nat) : ((b.putUnit m u d).unitData m u).isSome = (b.unitData m u).isSome := by rw [Block.unitData_putUnit, Option.isSome_map]
  unfold Block.setRaw
  extract_lets moved reads c n bad poison plain
  have hc : c.mem.raw = b.mem.raw ∧ (c.unitData m u).isSome = (b.unitData m u).isSome := by
    unfold c
    split
    · exact ⟨rfl, rfl⟩
    · exact ⟨hput _, hsome _⟩
  show (if plain = true then _ else _) = _
  unfold plain
  rw [hc.1, hc.2]

/-- What is put into a unit is what its physical contents then read. -/
theorem Block.setRaw_rawOf {b : Block} {m u : Nat} {r : Nat × Nat} (hdata : r.1 < 256 ^ Mem.unitBytes m) (hcheck : m ≠ 9 → r.2 < 2 ^ 40) :
    ((b.setRaw m u r).rawOf m u).1 = r := by
  by_cases hplain : ((unitRead m r).all (· == .good) && !(b.munit m).remaps.any (fun x => x.1 == u) && (b.unitData m u).isSome) = true
  · simp only [Bool.and_eq_true, Bool.not_eq_true'] at hplain
    obtain ⟨⟨hgood, hmoved⟩, hsome⟩ := hplain
    obtain ⟨d, hd⟩ := Option.isSome_iff_exists.1 hsome
    have hunit : (b.setRaw m u r).unitData m u = some (readsAs m d r % 256 ^ Mem.unitBytes m) := by
      have hput := b.unitData_putUnit m u (readsAs m d r)
      rw [hd] at hput
      unfold Block.setRaw
      rw [hmoved, hd]
      exact hput
    have hclean : ∀ i < (if m = 9 then 1 else 8), (b.setRaw m u r).mem.poison.contains (m, (if m = 9 then 1 else 8) * u + i) = false := fun i hi => by
      rw [Block.setRaw_poison r hmoved hi, unitRead_good hgood]
      rfl
    have hraw : (b.setRaw m u r).mem.raw.find? (fun e => e.1 == m * 2 ^ 32 + u) = none := by
      rw [Block.setRaw_noted, if_pos (by simp [hgood, hmoved, hsome])]
      exact Tbl.find?_erase ..
    rw [Block.rawOf_plain hraw (by rw [Block.munit, Block.setRaw_mm]; exact hmoved) hunit hclean]
    by_cases hm : m = 9
    · subst hm
      obtain ⟨hreads, hcode⟩ := line_plain hgood d
      rw [hreads, Nat.mod_eq_of_lt hdata, if_pos rfl, hcode]
    · have hword : r.1 < 2 ^ 64 := by rw [Mem.unitBytes, if_neg hm] at hdata; exact hdata
      obtain ⟨hreads, hcode⟩ := word_plain hm hgood hword d
      rw [hreads, Nat.mod_eq_of_lt hdata, if_neg hm]
      refine Prod.ext rfl (Eq.trans (List.foldl_ext _ _ _ fun a i hi => ?_) ((fields_fold r.2 8 (w := 5) (by decide)).trans (Nat.mod_eq_of_lt (hcheck hm))))
      rw [hcode i (List.mem_range.1 hi)]
      rfl
  · refine Block.rawOf_noted ?_
    rw [Block.setRaw_noted, if_neg hplain]
    exact Tbl.find?_ins ..

/-! ### The window's buffer -/

theorem flatten_slices (bs : List Byte) : ∀ n, 4 * n ≤ bs.length → ((List.range n).map (fun k => slice bs (4 * k) 4)).flatten = bs.take (4 * n)
  | 0, _ => rfl
  | n + 1, h => by
    have hslice : slice bs (4 * n) 4 = (bs.drop (4 * n)).take 4 := by
      have hlen : ((bs.drop (4 * n)).take 4).length = 4 := by simp; omega
      rw [slice, hlen]
      simp
    rw [List.range_succ, List.map_append, List.flatten_append, flatten_slices bs n (by omega), List.map_singleton, List.flatten_singleton, hslice,
      Nat.mul_succ, List.take_add]

theorem slice_padded {bs : List Byte} {n : Nat} (h : bs.length ≤ n) : slice bs 0 n = bs ++ List.replicate (n - bs.length) 0 := by
  rw [slice, List.drop_zero, List.take_of_length_le h]

/-- The bytes of the buffer that hold some data and check bits. -/
def windowBytes (n : Nat) (r : Nat × Nat) : List Byte :=
  slice (leBytes (Mem.unitBytes n) r.1) 0 64 ++ slice (leBytes (if n = 9 then 16 else 5) r.2) 0 16

theorem windowBytes_length (n : Nat) (r : Nat × Nat) : (windowBytes n r).length = 80 := by
  rw [windowBytes, List.length_append, slice_length, slice_length]

theorem bufferOff_lt {k : Nat} (hk : k < 20) : Reg.MEM_DIAG_BUF.off + Reg.MEM_DIAG_BUF.stride * k < 65536 := by
  have hoff : Reg.MEM_DIAG_BUF.off + Reg.MEM_DIAG_BUF.stride * k = 0x140 + 4 * k := rfl
  omega

theorem bufferOff_pos (k : Nat) : 0 < Reg.MEM_DIAG_BUF.off + Reg.MEM_DIAG_BUF.stride * k := by
  have hoff : Reg.MEM_DIAG_BUF.off + Reg.MEM_DIAG_BUF.stride * k = 0x140 + 4 * k := rfl
  omega

theorem bufferKey_ne {m k j : Nat} (hm : m < 55) (hk : k < 20) (hj : j < 20) (h : k ≠ j) :
    Reg.MEM_DIAG_BUF.key m k ≠ Reg.MEM_DIAG_BUF.key m j :=
  have hoff (i : Nat) : Reg.MEM_DIAG_BUF.off + Reg.MEM_DIAG_BUF.stride * i = 0x140 + 4 * i := rfl
  RegDesc.key_ne (bufferOff_lt hk) (bufferOff_lt hj) (by omega) (by omega) (by rw [hoff, hoff]; omega)

theorem Block.fillBuffer_word {m : Nat} (hm : m < 55) (f : Nat → Word) {k : Nat} (hk : k < 20) : ∀ (n : Nat) (b : Block), n ≤ 20 →
    ((List.range n).foldl (fun b k => b.setVis Reg.MEM_DIAG_BUF m k (f k)) b).vis Reg.MEM_DIAG_BUF m k =
      if k < n then f k else b.vis Reg.MEM_DIAG_BUF m k
  | 0, b, _ => by rw [if_neg (by omega)]; rfl
  | n + 1, b, hn => by
    rw [List.range_succ, List.foldl_append, List.foldl_cons, List.foldl_nil]
    by_cases hkn : k = n
    · subst hkn
      rw [Block.vis_setVis_same, if_pos (by omega)]
    · rw [Block.vis_setVis_other _ _ _ _ _ _ _ _ (bufferKey_ne hm hk (by omega) hkn), Block.fillBuffer_word hm f hk n b (by omega)]
      by_cases hlt : k < n
      · rw [if_pos hlt, if_pos (by omega)]
      · rw [if_neg hlt, if_neg (by omega)]

theorem leBytes_leAt (bs : List Byte) (i : Nat) : leBytes 4 (w32 (leAt bs i 4)).toNat = slice bs i 4 := by
  have hlt : leAt bs i 4 < 2 ^ 32 := leAt_lt bs i 4
  have hword : (w32 (leAt bs i 4)).toNat = leAt bs i 4 := (BitVec.toNat_ofNat ..).trans (Nat.mod_eq_of_lt hlt)
  have hback := leBytes_leNat (slice bs i 4)
  rw [slice_length] at hback
  rw [hword]
  exact hback

theorem pow_bytes (n : Nat) : 256 ^ n = 2 ^ (8 * n) := by rw [Nat.pow_mul]

/-- The data and check bits that a buffer reads which holds the window's bytes of some. -/
theorem Block.diagBuf_window {b : Block} {m n : Nat} {r : Nat × Nat}
    (h : ∀ k < 20, b.vis Reg.MEM_DIAG_BUF m k = w32 (leAt (windowBytes n r) (4 * k) 4)) :
    b.diagBuf m n = (r.1 % 2 ^ (8 * Mem.unitBytes n), r.2 % 2 ^ (if n = 9 then 128 else 40)) := by
  have hwords : ((List.range 20).map (fun k => leBytes 4 (b.vis Reg.MEM_DIAG_BUF m k).toNat)).flatten = windowBytes n r := by
    have hmap : (List.range 20).map (fun k => leBytes 4 (b.vis Reg.MEM_DIAG_BUF m k).toNat) =
        (List.range 20).map (fun k => slice (windowBytes n r) (4 * k) 4) :=
      List.map_congr_left fun k hk => by rw [h k (List.mem_range.1 hk), leBytes_leAt]
    rw [hmap, flatten_slices _ 20 (by rw [windowBytes_length]), List.take_of_length_le (by rw [windowBytes_length])]
  have hdata : leNat ((windowBytes n r).take (Mem.unitBytes n)) = r.1 % 2 ^ (8 * Mem.unitBytes n) := by
    have hunit : Mem.unitBytes n ≤ 64 := by unfold Mem.unitBytes; split <;> decide
    have htake : (windowBytes n r).take (Mem.unitBytes n) = leBytes (Mem.unitBytes n) r.1 := by
      rw [windowBytes, slice_padded (by rw [leBytes_length]; exact hunit), List.append_assoc]
      exact List.take_left' (leBytes_length ..)
    rw [htake, leNat_leBytes, pow_bytes]
  have hcheck (k : Nat) (hk : (if n = 9 then 16 else 5) = k) : leNat (slice (windowBytes n r) 64 k) = r.2 % 2 ^ (8 * k) := by
    have hle : k ≤ 16 := by rw [← hk]; split <;> decide
    have htake : slice (windowBytes n r) 64 k = leBytes k r.2 := by
      rw [slice, windowBytes, List.drop_left' (slice_length ..), hk, slice_padded (by rw [leBytes_length]; exact hle), List.take_left' (leBytes_length ..),
        leBytes_length, Nat.sub_self, List.replicate_zero, List.append_nil]
    rw [htake, leNat_leBytes, pow_bytes]
  unfold Block.diagBuf
  rw [hwords]
  dsimp only
  rw [hdata]
  by_cases hn : n = 9
  · rw [if_pos hn, if_pos hn, hcheck 16 (if_pos hn)]
  · rw [if_neg hn, if_neg hn, hcheck 5 (if_neg hn)]

theorem Block.diagRead_buffer {b : Block} {m n u : Nat} (hm : m < 55) (hopen : b.diagOpen = true) (hn : n = b.memSel m) (hn10 : n < 10)
    (hu : u = (b.vis Reg.MEM_DIAG_ADDR m).toNat) (husize : u < Mem.size n) {k : Nat} (hk : k < 20) :
    (b.diagRead m).vis Reg.MEM_DIAG_BUF m k = w32 (leAt (windowBytes n (b.rawOf n u).1) (4 * k) 4) := by
  subst hn hu
  unfold Block.diagRead
  rw [hopen, if_neg Bool.noConfusion]
  extract_lets n u q r c bs
  rw [if_neg (show ¬ (10 ≤ n ∨ Mem.size n ≤ u) by unfold n u; omega)]
  exact (Block.fillBuffer_word hm (fun k => w32 (leAt bs (4 * k) 4)) hk 20 c le_rfl).trans (if_pos hk)

/-! ### What the window's writes leave -/

theorem Touches.visKept {l : List Part} {a b : Block} (h : Touches l a b) (hl : l.contains .vis = false) (d : RegDesc) (i k : Nat) : b.vis d i k = a.vis d i k := by
  have hvis : b.regs.vis = a.regs.vis := congrArg Prod.fst (h.keeps .vis hl)
  unfold Block.vis
  rw [hvis]

theorem Block.diagBuf_congr {a b : Block} {m : Nat} (h : ∀ k, b.vis Reg.MEM_DIAG_BUF m k = a.vis Reg.MEM_DIAG_BUF m k) (n : Nat) :
    b.diagBuf m n = a.diagBuf m n := by
  unfold Block.diagBuf
  simp only [h]

/-- A unit on the bus, in its place, reads after some contents were put into it what they read as. -/
theorem Block.setRaw_load {b : Block} {n u : Nat} (r : Nat × Nat) (hbus : n = 1 ∨ n = 2 ∨ n = 9)
    (hmoved : (b.munit n).remaps.any (fun e => e.1 == u) = false) (hspare : b.spareOf n u = none) :
    (b.setRaw n u r).load (Mem.byteAddr n u) (Mem.unitBytes n) =
      leBytes (Mem.unitBytes n) (readsAs n (leNat (b.load (Mem.byteAddr n u) (Mem.unitBytes n))) r) := by
  have hdata : b.unitData n u = some (leNat (b.load (Mem.byteAddr n ((b.spareOf n u).getD u)) (Mem.unitBytes n))) := by
    obtain rfl | rfl | rfl := hbus <;> rfl
  have hput (d : Nat) : b.putUnit n u d = b.putBusUnit n u d := by
    obtain rfl | rfl | rfl := hbus <;> rfl
  have hload (d : Nat) := b.load_putBusUnit n u d
  rw [hspare] at hdata hload
  have hcells : (b.setRaw n u r).mem.cells = (b.putUnit n u (readsAs n ((b.unitData n u).getD 0) r)).mem.cells := by
    unfold Block.setRaw
    rw [hmoved]
    rfl
  rw [Block.load_of_cells hcells, hput, hdata]
  exact hload _

theorem Block.diagWrite_eq {b : Block} {m n u : Nat} (hopen : b.diagOpen = true) (hn : n = b.memSel m) (hn10 : n < 10)
    (hu : u = (b.vis Reg.MEM_DIAG_ADDR m).toNat) (husize : u < Mem.size n) (cmd : Nat) :
    b.diagWrite m cmd = ((b.rawOf n u).2.setRaw n u (if cmd = 4 then (b.rawOf n u).1.1 else (b.diagBuf m n).1,
      if cmd = 3 then (b.rawOf n u).1.2 else (b.diagBuf m n).2)).event 0x0F07 n u cmd := by
  subst hn hu
  have hbuf : (b.rawOf (b.memSel m) (b.vis Reg.MEM_DIAG_ADDR m).toNat).2.diagBuf m (b.memSel m) = b.diagBuf m (b.memSel m) := by
    exact Block.diagBuf_congr (fun k => (Block.rawOf_touches ..).visKept rfl Reg.MEM_DIAG_BUF m k) _
  unfold Block.diagWrite
  rw [hopen, if_neg Bool.noConfusion]
  dsimp only
  rw [if_neg (by omega), hbuf]

/-- What the window's command leaves once its contents are in the unit. -/
theorem Block.window_written {a b : Block} {m n u cmd : Nat} {r : Nat × Nat} (hcells : b.mem.cells = a.mem.cells) (hmm : b.mm = a.mm)
    (hdata : r.1 < 256 ^ Mem.unitBytes n) (hcheck : n ≠ 9 → r.2 < 2 ^ 40) {z : Block}
    (hz : z = ((((b.setRaw n u r).event 0x0F07 n u cmd).advance m 14 0x104).answer m .written)) :
    (z.rawOf n u).1 = r ∧ RawReads a z n u r := by
  have htouch : Touches [.t7, .vis, .resp, .evr] (b.setRaw n u r) z := by
    subst hz
    exact ((((Block.event_touches ..).weaken rfl).trans (Block.advance_touches ..) rfl).trans (Block.answer_touches ..) rfl)
  have hcfg : ∀ q < 64, z.vis Reg.QUE_CFG q = (b.setRaw n u r).vis Reg.QUE_CFG q := fun q hq => by
    subst hz
    rw [Block.answer_vis, Block.advance_reads _ _ _ _]
    exact (Block.event_alters ..).vis (by decide) (by decide) (by omega)
  have hsame := Block.SameUnits.of_touches htouch hcfg
  refine ⟨(hsame.rawOf n u).trans (Block.setRaw_rawOf hdata hcheck), fun hbus hmoved hspare => ?_⟩
  have hmoved' : (b.munit n).remaps.any (fun e => e.1 == u) = false := by
    rw [Block.munit, hmm]
    exact hmoved
  have hspare' : b.spareOf n u = none := by
    rw [Block.spareOf, Block.munit, hmm]
    exact hspare
  refine ⟨?_, fun i hi => ?_⟩
  · rw [htouch.load rfl, Block.setRaw_load r hbus hmoved' hspare', Block.load_of_cells hcells]
  · rw [hsame.mem]
    exact Block.setRaw_poison r hmoved' hi

theorem Block.diagBuf_lt (b : Block) (m n : Nat) : (b.diagBuf m n).1 < 256 ^ Mem.unitBytes n ∧ (b.diagBuf m n).2 < 2 ^ (if n = 9 then 128 else 40) := by
  unfold Block.diagBuf
  dsimp only
  constructor
  · refine Nat.lt_of_lt_of_le (leNat_lt _) (Nat.pow_le_pow_right (by decide) ?_)
    rw [List.length_take]
    exact Nat.min_le_left ..
  · by_cases hn : n = 9
    · rw [if_pos hn, if_pos hn]
      exact leAt_lt ..
    · rw [if_neg hn, if_neg hn]
      exact leAt_lt ..

/-- A command of the window, with the contents that it puts into the unit. -/
theorem Completes.diagWrite {c : Instr} {s : State} {t m n u cmd : Nat} {r : Nat × Nat}
    (hc : exec c s = s.runIf (Wf.master m) t (fun b => b.byMaster m 14 0x104 (fun b => b.diagWrite m cmd))) (hmay : s.blk.mayWrite m 14 0x104)
    (hopen : s.blk.diagOpen = true) (hn : n = s.blk.memSel m) (hn10 : n < 10) (hu : u = (s.blk.vis Reg.MEM_DIAG_ADDR m).toNat) (husize : u < Mem.size n)
    (hr : r = (if cmd = 4 then ((s.at t).rawOf n u).1.1 else (s.blk.diagBuf m n).1, if cmd = 3 then ((s.at t).rawOf n u).1.2 else (s.blk.diagBuf m n).2))
    (hdata : r.1 < 256 ^ Mem.unitBytes n) (hcheck : r.2 < 2 ^ (if n = 9 then 128 else 40)) :
    Completes c s (fun b => (b.rawOf n u).1 = r ∧ RawReads s.blk b n u r) := by
  refine Completes.byMaster hc (decide_eq_true hmay.1) hmay ?_
  have hwrite := Block.diagWrite_eq (b := s.at t) hopen hn hn10 hu husize cmd
  have htouch := Block.rawOf_touches (s.at t) n u
  have hr' : r = (if cmd = 4 then ((s.at t).rawOf n u).1.1 else ((s.at t).diagBuf m n).1, if cmd = 3 then ((s.at t).rawOf n u).1.2 else ((s.at t).diagBuf m n).2) := hr
  rw [← hr'] at hwrite
  exact Block.window_written (a := s.blk) (b := ((s.at t).rawOf n u).2) (htouch.keeps .cells rfl) (htouch.keeps .mm rfl) hdata
    (fun hn => by rwa [if_neg hn] at hcheck) (congrArg (fun x : Block => (x.advance m 14 0x104).answer m .written) hwrite)

/-- A command of the window outside its modes. -/
theorem Completes.diagRefused {c : Instr} {s : State} {t m : Nat} {f : Block → Block}
    (hc : exec c s = s.runIf (Wf.master m) t (fun b => b.byMaster m 14 0x104 f)) (hmay : s.blk.mayWrite m 14 0x104)
    (hf : f (s.at t) = (s.at t).count Reg.MEM_DIAG_REFUSED) :
    Completes c s (fun b => s.blk.counts b Reg.MEM_DIAG_REFUSED ∧ b.mm = s.blk.mm ∧ b.mem = s.blk.mem) := by
  refine Completes.byMaster hc (decide_eq_true hmay.1) hmay ?_
  rw [show f (s.blk.clock t) = (s.at t).count Reg.MEM_DIAG_REFUSED from hf]
  have hcount : (s.at t).counts ((s.at t).count Reg.MEM_DIAG_REFUSED) Reg.MEM_DIAG_REFUSED :=
    (Block.Alters.refl (l := [])).counts (l' := []) .refl (by decide) (by decide) (by decide) (by decide) (by decide)
  have htouch : Touches [.vis, .resp] (s.at t) ((((s.at t).count Reg.MEM_DIAG_REFUSED).advance m 14 0x104).answer m .written) :=
    (((Block.count_touches ..).weaken rfl).trans (Block.advance_touches ..) rfl).trans (Block.answer_touches ..) rfl
  refine ⟨?_, htouch.keeps .mm rfl, ?_⟩
  · have hread : ((((s.at t).count Reg.MEM_DIAG_REFUSED).advance m 14 0x104).answer m .written).vis Reg.MEM_DIAG_REFUSED 0 =
        ((s.at t).count Reg.MEM_DIAG_REFUSED).vis Reg.MEM_DIAG_REFUSED 0 := (Block.answer_vis ..).trans (Block.advance_reads ..)
    show (_ : Word).toNat = _
    rw [hread]
    exact hcount
  · exact htouch.memory rfl rfl rfl

/-- Settles O36: the window's command by the contents that it puts into the unit, and its buffer by the words written to it. -/
theorem diagnosticWindowReadsAndWritesRaw : Obligations.DiagnosticWindowReadsAndWritesRaw := by
  refine ⟨fun t m n u s hmay hopen hn hn10 hu husize => ?_, fun t m n u r s hmay hopen hn hn10 hu husize hr => ?_,
    fun t m n u r s hmay hopen hn hn10 hu husize hr hcheck => ?_, fun t m n u r s hmay hopen hn hn10 hu husize hr hdata => ?_,
    fun t m s hmay hopen => ?_, fun t m s hmay hopen => ?_, fun t m s hmay hopen => ?_, fun t m s hmay hopen => ?_⟩
  · refine Completes.byMaster (f := fun b => b.diagRead m) rfl (decide_eq_true hmay.1) hmay (Block.diagBuf_window fun k hk => ?_)
    have hread := Block.diagRead_buffer (b := s.at t) hmay.1 hopen hn hn10 hu husize hk
    exact ((Block.answer_vis ..).trans (Block.advance_reads _ _ _ _ (bufferOff_lt hk) (bufferOff_pos k))).trans hread
  · have hlt := s.blk.diagBuf_lt m n
    exact Completes.diagWrite rfl hmay hopen hn hn10 hu husize hr (hr ▸ hlt.1) (hr ▸ hlt.2)
  · exact Completes.diagWrite rfl hmay hopen hn hn10 hu husize hr (hr ▸ (s.blk.diagBuf_lt m n).1) hcheck
  · exact Completes.diagWrite rfl hmay hopen hn hn10 hu husize hr (by rwa [pow_bytes]) (hr ▸ (s.blk.diagBuf_lt m n).2)
  · exact Completes.diagRefused (f := fun b => b.diagRead m) rfl hmay (if_pos hopen)
  · exact Completes.diagRefused (f := fun b => b.diagWrite m 2) rfl hmay (if_pos hopen)
  · exact Completes.diagRefused (f := fun b => b.diagWrite m 3) rfl hmay (if_pos hopen)
  · exact Completes.diagRefused (f := fun b => b.diagWrite m 4) rfl hmay (if_pos hopen)

end Sys2Proof.Machine
end

section
/-! PROOFS. LOAD, SELFTEST, resets and the end of SAVE (O47). -/

/- One declaration after the other: the text is checked as one, with room for few threads. -/
set_option Elab.async false

namespace Sys2Proof.Machine

/-! ### A reset of the die (R454) -/

theorem Block.dieState_load8 (b : Block) {a : Nat} (h : a < 0x40000000 ∨ 0x40800000 ≤ a) : b.dieState.load8 a = 0 := by
  have hget := cellGet_filter b.mem.cells (fun x => decide (0x40000000 ≤ x) && decide (x < 0x40800000)) a Mem.blank
  refine Eq.trans hget (if_neg ?_)
  simp only [Bool.and_eq_true, decide_eq_true_eq]
  omega

/-- A byte of MRAM outlasts a reset of the die. -/
theorem Block.dieState_mram (b : Block) {a : Nat} (h : 0x40000000 ≤ a) (h' : a < 0x40800000) : b.dieState.load8 a = b.load8 a := by
  have hget := cellGet_filter b.mem.cells (fun x => decide (0x40000000 ≤ x) && decide (x < 0x40800000)) a Mem.blank
  refine Eq.trans hget (if_pos ?_)
  simp only [Bool.and_eq_true, decide_eq_true_eq]
  omega

/-- What a reset of the die leaves: LOAD, TB7 from zero, every memory but MRAM empty. -/
abbrev Block.DieEmpty (b : Block) : Prop := b.sys.mode = .load ∧ b.t7 = 0 ∧ ∀ a, a < 0x40000000 ∨ 0x40800000 ≤ a → b.load8 a = 0

theorem Block.dieReset_empty (b : Block) : b.dieReset.DieEmpty := ⟨rfl, rfl, fun _ h => Block.dieState_load8 _ h⟩

theorem Block.drainEvents_sys (b : Block) : b.drainEvents.sys = b.sys := (Block.drainEvents_touches ..).keeps .sys rfl

/-- The die reset after a HALT (R427). -/
theorem Block.haltRestart_done {b : Block} (hmode : b.sys.mode = .halt) (hover : b.haltOver = true) :
    b.haltRestart.DieEmpty ∧ b.haltRestart.sys.restartWaits = some b.sys.haltCause ∧ b.haltRestart.sys.lastHaltCause = b.sys.haltCause := by
  unfold Block.haltRestart
  rw [if_neg (by rw [hmode, hover]; decide)]
  dsimp only
  generalize hx : ({ b with sys := { b.sys with restartWaits := some b.sys.haltCause, lastHaltCause := b.sys.haltCause } } : Block) = x
  have hsys := x.drainEvents_sys
  have hwaits : x.drainEvents.sys.restartWaits = some b.sys.haltCause := by rw [hsys, ← hx]
  have hlast : x.drainEvents.sys.lastHaltCause = b.sys.haltCause := by rw [hsys, ← hx]
  exact ⟨x.dieReset_empty, hwaits, hlast⟩

/-! ### LOAD and SELFTEST (R431 to R433) -/

theorem Block.powerOn_mains (b : Block) (straps : Nat) : b.powerOn true straps =
    Block.loadRun { b.mainsOn with t7 := 0, sys := { b.mainsOn.sys with straps := straps % 8 }, pwr := { b.mainsOn.pwr with modSupply := true } } := by
  unfold Block.powerOn
  rw [if_neg (fun h => Bool.false_ne_true h.1.symm), if_pos rfl]

theorem Block.loadComplete_done {b : Block} (hmode : b.sys.mode = .load) (himage : b.sys.imageApplied = true) :
    b.loadComplete.sys.mode = .selftest ∧ b.loadComplete.sys.wdogAt = some b.t7 := by
  unfold Block.loadComplete
  rw [if_pos ⟨hmode, himage⟩]
  rw [Block.setMode_sys _ _ (by show b.sys.mode ≠ _; rw [hmode]; decide)]
  exact ⟨rfl, rfl⟩

/-- In SELFTEST no cause of DEGRADED changes the mode. -/
theorem Block.degrade_selftest {b : Block} {f : Sys → Sys} (h : (f b.sys).mode = .selftest) : (b.degrade f).sys.mode = .selftest := by
  unfold Block.degrade
  extract_lets moved
  have hmode : moved.sys.mode = .selftest := h
  rw [hmode]
  exact hmode

theorem Block.undegrade_selftest {b : Block} {f : Sys → Sys} (h : (f b.sys).mode = .selftest) : (b.undegrade f).sys.mode = .selftest := by
  unfold Block.undegrade
  extract_lets moved
  have hmode : moved.sys.mode = .selftest := h
  rw [if_neg (by rw [hmode]; exact fun hc => nomatch hc.1)]
  exact hmode

theorem Block.holdupEstimate_selftest {b : Block} (us : Nat) (h : b.sys.mode = .selftest) : (b.holdupEstimate us).sys.mode = .selftest := by
  unfold Block.holdupEstimate
  extract_lets source est
  have hevent (x : Block) (n code a0 a1 : Nat) (hx : x.sys.mode = .selftest) : ((x.irq Blk.pwr n).event code a0 a1).sys.mode = .selftest := by
    have hkept : ((x.irq Blk.pwr n).event code a0 a1).sys = x.sys := (Block.event_touches (x.irq Blk.pwr n) ..).keeps .sys rfl
    rw [hkept, hx]
  have hest : est.sys.mode = .selftest := h
  split
  · exact Block.degrade_selftest (hevent _ _ _ _ _ h)
  · split
    · exact Block.undegrade_selftest (hevent _ _ _ _ _ h)
    · exact hest

theorem Block.holdupResult_selftest {b : Block} (p v0 v1 : Nat) (h : b.sys.mode = .selftest) : (b.holdupResult p v0 v1).sys.mode = .selftest := by
  unfold Block.holdupResult
  dsimp only
  split
  · exact h
  · split
    · exact Block.holdupEstimate_selftest _ h
    · exact Block.holdupEstimate_selftest _ h

/-- A step that leaves SYS's part, folded over a list. -/
theorem Block.fold_sys {α : Type} {f : Block → α → Block} (hf : ∀ x e, (f x e).sys = x.sys) : ∀ (r : List α) (b : Block), (r.foldl f b).sys = b.sys
  | [], _ => rfl
  | e :: r, b => (Block.fold_sys hf r (f b e)).trans (hf b e)

theorem Block.failuresTold_sys (r : List (Nat × Nat)) (b : Block) : (r.foldl (fun b e => b.event 0x0106 e.2 e.1) b).sys = b.sys :=
  Block.fold_sys (fun x (e : Nat × Nat) => by
    have hkept : (x.event 0x0106 e.2 e.1).sys = x.sys := (Block.event_touches x ..).keeps .sys rfl
    exact hkept) r b

/-- The channels left out are those that failed; nothing of it changes the mode in SELFTEST. -/
theorem Block.exclude_done {b : Block} (r : SelftestResult) (h : b.sys.mode = .selftest) :
    (b.exclude r).sys.mode = .selftest ∧ (b.exclude r).dma.excluded = r.channels := by
  unfold Block.exclude
  extract_lets pooled source left
  have hpooled : pooled.sys = b.sys := Block.fold_sys (fun x c => (Block.leavePool_touches x c .idle).keeps .sys rfl) _ _
  have hmode : pooled.sys.mode = .selftest := (congrArg Sys.mode hpooled).trans h
  have hdma (f : Sys → Sys) : (left.degrade f).dma = left.dma := (Block.degrade_touches left f).keeps .dma rfl
  exact ⟨Block.degrade_selftest hmode, congrArg Dma.excluded (hdma _)⟩

/-- SELFTEST ends: HALT with cause 2 on a fatal failure, else ACQUIRE without the channels that failed (R433). -/
theorem Block.selftestDone_done {b : Block} (r : SelftestResult) (hmode : b.sys.mode = .selftest) :
    if (r.crypto || r.host || r.dram || (b.march r.sram).1) = true then (b.selftestDone r).sys.mode = .halt ∧ (b.selftestDone r).sys.haltCause = 2
    else (b.selftestDone r).sys.mode = .acquire ∧ (b.selftestDone r).dma.excluded = r.channels := by
  have hmarched : (b.march r.sram).2.sys.mode = .selftest := (congrArg Sys.mode ((b.march_touches r.sram).keeps .sys rfl)).trans hmode
  unfold Block.selftestDone
  rw [if_neg (not_not_intro hmode)]
  generalize b.march r.sram = q at *
  extract_lets p sram marched fs fatal word source told tested
  clear_value word fs
  have hsys : told.sys = { source with selftestResult := word } := Block.failuresTold_sys fs _
  have htold : told.sys.mode = .selftest := by
    rw [hsys]
    exact hmarched
  have htested : tested.sys.mode = .selftest :=
    Block.holdupResult_selftest _ _ _ ((congrArg Sys.mode ((Block.count_touches told ..).keeps .sys rfl)).trans htold)
  show if fatal = true then _ else _
  by_cases hfatal : fatal = true
  · rw [if_pos hfatal, if_pos hfatal]
    have hhalt := Block.enterHalt_sys (b := tested) 2 (by rw [htested]; decide)
    exact ⟨hhalt.1, hhalt.2.1⟩
  · rw [if_neg hfatal, if_neg hfatal]
    obtain ⟨hstays, hchannels⟩ := Block.exclude_done r htested
    generalize tested.exclude r = left at *
    have hrings := Block.ringsStart_touches (left.setMode .acquire 0)
    have hsys : (left.setMode .acquire 0).ringsStart.sys = (left.setMode .acquire 0).sys := hrings.keeps .sys rfl
    have hdma : (left.setMode .acquire 0).ringsStart.dma = (left.setMode .acquire 0).dma := hrings.keeps .dma rfl
    have hkept : (left.setMode .acquire 0).dma = left.dma := (Block.setMode_touches left .acquire 0).keeps .dma rfl
    exact ⟨(congrArg Sys.mode hsys).trans (left.setMode_mode 0 (by rw [hstays]; decide)),
      (congrArg Dma.excluded (hdma.trans hkept)).trans hchannels⟩

/-! ### The end of SAVE (R442) -/

theorem Block.zeroRange_load8 (b : Block) {a n x : Nat} (h : a ≤ x) (h' : x < a + n) : (b.zeroRange a n).load8 x = 0 := by
  have hget := cellGet_filter b.mem.cells (fun x => decide (x < a) || decide (a + n ≤ x)) x Mem.blank
  refine Eq.trans hget (if_neg ?_)
  simp only [Bool.or_eq_true, decide_eq_true_eq]
  omega

theorem Block.enterHalt_modSupply {b : Block} (cause : Nat) (h : b.sys.mode ≠ .halt) : (b.enterHalt cause).pwr.modSupply = false := by
  unfold Block.enterHalt
  rw [if_neg h]

theorem Block.saveComplete_done {b : Block} (hmode : b.sys.mode = .save) :
    b.saveComplete.sys.mode = .halt ∧ b.saveComplete.sys.haltCause = b.sys.saveCause ∧ b.saveComplete.sys.haltAt = b.t7 ∧
      b.saveComplete.pwr.modSupply = false ∧ ∀ a, 0x1000000000 ≤ a → a < 0x1800000000 → b.saveComplete.load8 a = 0 := by
  unfold Block.saveComplete
  rw [if_neg (not_not_intro hmode)]
  have htold : Touches [.vis, .evr] b (b.event 0x1802) := Block.event_touches ..
  have hsys : (b.event 0x1802).sys = b.sys := htold.keeps .sys rfl
  have hnow : (b.event 0x1802).t7 = b.t7 := htold.keeps .t7 rfl
  generalize b.event 0x1802 = x at *
  have hhalt : x.sys.mode ≠ .halt := by rw [hsys, hmode]; decide
  obtain ⟨hhalted, hcause, hat⟩ := Block.enterHalt_sys b.sys.saveCause hhalt
  have hsupply := Block.enterHalt_modSupply b.sys.saveCause hhalt
  generalize x.enterHalt b.sys.saveCause = y at *
  have hdrained : y.drainEvents.sys = y.sys := y.drainEvents_sys
  have hpwr : y.drainEvents.pwr = y.pwr := (Block.drainEvents_touches y).keeps .pwr rfl
  generalize y.drainEvents = z at *
  refine ⟨?_, ?_, ?_, ?_, fun a ha ha' => z.zeroRange_load8 ha (by omega)⟩
  · rw [Block.zeroRange_sys, hdrained, hhalted]
  · rw [Block.zeroRange_sys, hdrained, hcause]
  · rw [Block.zeroRange_sys, hdrained, hat, hnow]
  · rw [Block.zeroRange_pwr, hpwr, hsupply]

/-! ### The host cluster's reset (R454) -/

theorem Tbl.get_filter {α : Type} (l : Tbl α) (p : Nat → Bool) {k : Nat} (d : α) (h : p k = true) :
    Tbl.get (l.filter (fun e => p e.1)) k d = Tbl.get l k d := by
  induction l with
  | nil => rfl
  | cons e r ih =>
    obtain ⟨j, v⟩ := e
    by_cases hj : p j = true
    · simp only [List.filter, hj, Tbl.get, ih]
    · have hne : j ≠ k := fun he => hj (he ▸ h)
      simp only [List.filter, Bool.eq_false_iff.mpr hj, Tbl.get, ih, if_neg hne]

/-- Whether a host core's reset leaves a register: all but the copies of its banked ones (R450). -/
def hostKeeps (k : Nat) : Bool :=
  match Reg.find (keyBlk k) (keySpace k) (keyOff k) with
  | some (d, _) => !(d.banked && decide (keyInst k < 4))
  | none => true

theorem Block.hostRegs_vis (b : Block) : b.hostRegs.regs.vis = b.regs.vis.filter (fun e => hostKeeps e.1) := rfl

theorem Block.hostRegs_hostResets (b : Block) : b.hostRegs.vis Reg.SYS_HOST_RESETS = b.vis Reg.SYS_HOST_RESETS := by
  unfold Block.vis
  rw [Block.hostRegs_vis]
  exact Tbl.get_filter _ _ _ (by decide)

/-- Registers that the end of a host reset may change. -/
def hostResetRegs : RegSet := Reg.SYS_STATUS.regs ++ eventRegs

theorem Block.hostReset_done (b : Block) : b.counts b.hostReset Reg.SYS_HOST_RESETS ∧ b.hostReset.sys.wdogAt = some b.t7 ∧
    b.hostReset.sys.mode = b.sys.mode ∧ ∀ m, m < 4 → b.hostReset.isFrozen m = false := by
  unfold Block.hostReset
  extract_lets cleared acc sys held counted
  have hfail := b.redFail_touches
  have hregs : held.vis Reg.SYS_HOST_RESETS = b.vis Reg.SYS_HOST_RESETS :=
    b.redFail.hostRegs_hostResets.trans (b.redFail_alters.vis (by decide) (by decide) (by decide))
  have hcleared : cleared.sys = b.sys := hfail.keeps .sys rfl
  have hnow : cleared.t7 = b.t7 := hfail.keeps .t7 rfl
  have hthawed : ∀ m, m < 4 → held.isFrozen m = false := fun m hm => by
    have hfilter : (cleared.acc.frozen.filter (fun m => decide (4 ≤ m))).contains m = false := by
      rw [Bool.eq_false_iff]
      intro h
      have hkept := (List.mem_filter.1 (List.contains_iff_mem.1 h)).2
      rw [decide_eq_true_eq] at hkept
      omega
    exact hfilter
  have hdog : held.sys.wdogAt = some b.t7 := congrArg some hnow
  have hmode : held.sys.mode = b.sys.mode := by
    rw [← hcleared]
  clear_value held
  have hend : Block.Alters hostResetRegs (held.count Reg.SYS_HOST_RESETS) (counted.event 0x010B) :=
    .event (.raiseBit .refl (by decide) (by decide) (by decide) (by decide))
  have hcounts : held.counts (counted.event 0x010B) Reg.SYS_HOST_RESETS :=
    (Block.Alters.refl (l := [])).counts hend (by decide) (by decide) (by decide) (by decide) (by decide)
  have htouch : Touches [.vis, .evr] held (counted.event 0x010B) :=
    ((Block.count_touches ..).weaken rfl |>.trans (Block.setBit_touches ..) rfl).trans (Block.event_touches ..) rfl
  generalize counted.event 0x010B = z at *
  have hsys : z.sys = held.sys := htouch.keeps .sys rfl
  have hacc : z.acc = held.acc := htouch.keeps .acc rfl
  refine ⟨?_, by rw [hsys, hdog], by rw [hsys, hmode], fun m hm => ?_⟩
  · unfold Block.counts at hcounts ⊢
    rwa [hregs] at hcounts
  · rw [Block.isFrozen, hacc]
    exact hthawed m hm

/-! ### The boot pointer through a die reset (R438, R440) -/

/-- What the recorder's writes to MRAM leave: its place in the last area within it, and every byte past the areas. -/
structure Block.PastAreas (a b : Block) : Prop where
  kept : a.evr.lastHead < 4096 → b.evr.lastHead < 4096 ∧ ∀ x, 0x40744000 ≤ x → b.load8 x = a.load8 x

theorem Block.PastAreas.refl {a : Block} : a.PastAreas a := ⟨fun h => ⟨h, fun _ _ => rfl⟩⟩

theorem Block.PastAreas.trans {a b c : Block} (h : a.PastAreas b) (k : b.PastAreas c) : a.PastAreas c := ⟨fun ha => by
  obtain ⟨hb, hbytes⟩ := h.kept ha
  obtain ⟨hc, hbytes'⟩ := k.kept hb
  exact ⟨hc, fun x hx => (hbytes' x hx).trans (hbytes x hx)⟩⟩

/-- A step that leaves memory and the place in the last area. -/
theorem Block.PastAreas.of {a b : Block} (hhead : b.evr.lastHead = a.evr.lastHead) (hcells : b.mem.cells = a.mem.cells) : a.PastAreas b := ⟨fun h =>
  ⟨hhead ▸ h, fun x _ => by rw [Block.load8, Block.load8, hcells]⟩⟩

theorem Block.event_pastAreas (b : Block) (code src a0 a1 : Nat) : b.PastAreas (b.event code src a0 a1) :=
  .of (congrArg Prod.fst (b.event_course code src a0 a1)) ((Block.event_touches ..).keeps .cells rfl)

/-- A step whose stores end below the last area's end. -/
theorem Block.PastAreas.stored {a b : Block} {x : Nat} {bs : List Byte} (h : a.PastAreas b) (hx : x + bs.length ≤ 0x40744000) : a.PastAreas (b.store x bs) :=
  h.trans ⟨fun hb => ⟨hb, fun y hy => b.load8_store_other x y bs (.inr (by omega))⟩⟩

/-- A step that puts the place in the last area within it. -/
theorem Block.PastAreas.head {a b c : Block} (h : a.PastAreas b) (hhead : c.evr.lastHead < 4096) (hcells : c.mem.cells = b.mem.cells) : a.PastAreas c := ⟨fun ha => by
  obtain ⟨-, hbytes⟩ := h.kept ha
  exact ⟨hhead, fun x hx => by rw [Block.load8, hcells]; exact hbytes x hx⟩⟩

theorem Block.writeEntry_pastAreas (b : Block) (e : Event) : b.PastAreas (b.writeEntry e) := ⟨fun h => by
  have hlen := e.bytes_length
  have hmod : (b.evr.lastHead + 1) % 4096 < 4096 := Nat.mod_lt _ (by decide)
  unfold Block.writeEntry
  extract_lets v stored moved first source
  have hmoved : b.PastAreas moved := .head (.stored .refl (by rw [hlen, Evr.lastArea]; unfold v; omega)) hmod rfl
  split
  · exact (Block.PastAreas.head (.stored hmoved (by rw [hlen, Evr.firstArea]; omega)) hmod rfl).kept h
  · exact hmoved.kept h⟩

theorem Block.clearAreas_pastAreas (b : Block) (e : Event) : b.PastAreas (b.clearAreas e) := ⟨fun h => by
  have hlen := e.bytes_length
  unfold Block.clearAreas
  extract_lets v zeroed stored moved zeroed' stored' source cleared
  have hmoved : b.PastAreas moved := .head (b := stored)
    (.stored (.stored .refl (by rw [List.length_replicate, Evr.firstArea]; omega)) (by rw [hlen, Evr.firstArea]; omega)) h rfl
  have hcleared : b.PastAreas cleared := by
    unfold cleared
    split
    · exact .head (b := stored') (.stored (.stored hmoved (by rw [List.length_replicate, Evr.lastArea])) (by rw [hlen, Evr.lastArea]; omega)) (show 1 < 4096 by decide) rfl
    · exact hmoved
  exact (hcleared.trans (.of rfl rfl)).kept h⟩

theorem Block.reportInputLoss_pastAreas (b : Block) : b.PastAreas b.reportInputLoss := by
  unfold Block.reportInputLoss
  extract_lets v
  split
  · exact .refl
  · refine .trans ?_ (Block.event_pastAreas ..)
    exact .of rfl rfl

theorem Block.raiseCleared_pastAreas (b : Block) (last : Bool) : b.PastAreas (b.raiseCleared last) := by
  unfold Block.raiseCleared
  extract_lets n newest told source
  exact (Block.event_pastAreas ..).trans (.of rfl rfl)

theorem Block.nrgEntry_pastAreas (b : Block) (e : Event) : b.PastAreas (b.nrgEntry e) :=
  .of (congrArg Evr.lastHead ((Block.nrgEntry_touches ..).keeps .evr rfl)) ((Block.nrgEntry_touches ..).keeps .cells rfl)

theorem Block.entryWrite_pastAreas (b : Block) : b.PastAreas b.entryWrite := by
  unfold Block.entryWrite
  split
  · exact .refl
  · split
    · exact .refl
    · rename_i e v hnext
      obtain ⟨-, hhead, -, -⟩ := Evr.nextEntry_course hnext
      extract_lets written cleared told
      have hwritten : b.PastAreas written :=
        (Block.PastAreas.of (b := { b with evr := v }) hhead rfl).trans ((Block.writeEntry_pastAreas ..).trans (Block.nrgEntry_pastAreas ..))
      have hcleared : b.PastAreas cleared := by
        unfold cleared
        split
        · exact hwritten.trans (Block.clearAreas_pastAreas ..)
        · exact hwritten
      have htold : b.PastAreas told := hcleared.trans (Block.reportInputLoss_pastAreas _)
      split
      · split
        · exact htold.trans (Block.raiseCleared_pastAreas ..)
        · exact htold
      · exact htold

theorem Block.drainEvents_pastAreas (b : Block) : b.PastAreas b.drainEvents := by
  unfold Block.drainEvents
  generalize List.range (b.evr.buf.length + b.evr.held.length) = r
  induction r generalizing b with
  | nil => exact .refl
  | cons n r ih => exact (b.entryWrite_pastAreas).trans (ih b.entryWrite)

theorem Block.redFail_pastAreas (b : Block) : b.PastAreas b.redFail := by
  have hsend : b.PastAreas (b.redSendBoth 3) :=
    .of (congrArg Evr.lastHead ((Block.redSendBoth_touches b 3).keeps .evr rfl)) ((Block.redSendBoth_touches b 3).keeps .cells rfl)
  unfold Block.redFail
  split
  · exact hsend.trans (Block.event_pastAreas ..)
  · exact .refl

/-! ### The boot pointer -/

theorem leAt_append_right {p q : List Byte} {k : Nat} (h : p.length = k) (i n : Nat) : leAt (p ++ q) (k + i) n = leAt q i n := by
  subst h
  rw [leAt, leAt, slice, slice, List.drop_length_add_append]

theorem leAt_leBytes_append (n v : Nat) (q : List Byte) : leAt (leBytes n v ++ q) 0 n = v % 256 ^ n := by
  rw [leAt, slice, List.drop_zero, List.take_left' (leBytes_length ..), leBytes_length, Nat.sub_self, List.replicate_zero, List.append_nil, leNat_leBytes]

theorem crc32_lt (bs : List Byte) : crc32 bs < 2 ^ 32 := BitVec.isLt _

/-- The bytes of a copy of the pointer before its CRC. -/
def BootPtr.head (p : BootPtr) : List Byte :=
  leBytes 4 0x52545042 ++ leBytes 4 p.seq ++ leBytes 1 p.bank ++ leBytes 1 (b2n p.trial) ++ leBytes 1 p.attempts ++
    leBytes 1 0 ++ leBytes 4 p.floor ++ leBytes 12 0

theorem BootPtr.head_length (p : BootPtr) : p.head.length = 28 := by simp only [BootPtr.head, List.length_append, leBytes_length]

/-- A copy whose bytes are a pointer's, with their CRC, reads as that pointer. -/
theorem Block.bootCopy_of_bytes {b : Block} {copy : Nat} {p : BootPtr} (h : b.load (BootPtr.addr copy) 32 = p.head ++ leBytes 4 (crc32 p.head)) :
    b.bootCopy copy = some ⟨p.seq % 2 ^ 32, p.bank % 256 % 2, p.trial, p.attempts % 256, p.floor % 2 ^ 32⟩ := by
  have hcrc : leAt (p.head ++ leBytes 4 (crc32 p.head)) 28 4 = crc32 ((p.head ++ leBytes 4 (crc32 p.head)).take 28) := by
    have hlast := leAt_append_right (q := leBytes 4 (crc32 p.head)) p.head_length 0 4
    have hvalue := leAt_leBytes_append 4 (crc32 p.head) []
    rw [List.append_nil] at hvalue
    rw [List.take_left' p.head_length]
    exact hlast.trans (hvalue.trans (Nat.mod_eq_of_lt (crc32_lt _)))
  have hfields : ∀ q, leAt (p.head ++ q) 0 4 = 0x52545042 ∧ leAt (p.head ++ q) 4 4 = p.seq % 2 ^ 32 ∧ leAt (p.head ++ q) 8 1 = p.bank % 256 ∧
      leAt (p.head ++ q) 9 1 = b2n p.trial % 256 ∧ leAt (p.head ++ q) 10 1 = p.attempts % 256 ∧ leAt (p.head ++ q) 12 4 = p.floor % 2 ^ 32 := by
    intro q
    have hskip (n v i k : Nat) (r : List Byte) : leAt (leBytes n v ++ r) (n + i) k = leAt r i k := leAt_append_right (leBytes_length ..) i k
    simp only [BootPtr.head, List.append_assoc]
    refine ⟨leAt_leBytes_append 4 _ _, ?_, ?_, ?_, ?_, ?_⟩
    · exact (hskip 4 _ 0 4 _).trans (leAt_leBytes_append 4 _ _)
    · exact (hskip 4 _ 4 1 _).trans ((hskip 4 _ 0 1 _).trans (leAt_leBytes_append 1 _ _))
    · exact (hskip 4 _ 5 1 _).trans ((hskip 4 _ 1 1 _).trans ((hskip 1 _ 0 1 _).trans (leAt_leBytes_append 1 _ _)))
    · exact (hskip 4 _ 6 1 _).trans ((hskip 4 _ 2 1 _).trans ((hskip 1 _ 1 1 _).trans ((hskip 1 _ 0 1 _).trans (leAt_leBytes_append 1 _ _))))
    · exact (hskip 4 _ 8 4 _).trans ((hskip 4 _ 4 4 _).trans ((hskip 1 _ 3 4 _).trans ((hskip 1 _ 2 4 _).trans ((hskip 1 _ 1 4 _).trans
        ((hskip 1 _ 0 4 _).trans (leAt_leBytes_append 4 _ _))))))
  obtain ⟨hmark, hseq, hbank, htrial, hattempts, hfloor⟩ := hfields (leBytes 4 (crc32 p.head))
  have hbit : (b2n p.trial % 256 == 1) = p.trial := by cases p.trial <;> rfl
  unfold Block.bootCopy
  dsimp only
  rw [h, if_pos ⟨hmark, hcrc⟩, hseq, hbank, htrial, hattempts, hfloor, hbit]

theorem Block.bootCopy_congr {a b : Block} {copy : Nat} (h : b.load (BootPtr.addr copy) 32 = a.load (BootPtr.addr copy) 32) :
    b.bootCopy copy = a.bootCopy copy := by
  unfold Block.bootCopy
  rw [h]

theorem Block.boot_congr {a b : Block} (h : ∀ copy < 2, b.load (BootPtr.addr copy) 32 = a.load (BootPtr.addr copy) 32) : b.boot = a.boot := by
  unfold Block.boot Block.bootIn
  rw [Block.bootCopy_congr (h 0 (by decide)), Block.bootCopy_congr (h 1 (by decide))]

theorem later_succ {s : Nat} (h : s < 2 ^ 32) : later 32 ((s + 1) % 2 ^ 32) s = true ∧ later 32 s ((s + 1) % 2 ^ 32) = false := by
  simp only [later, Bool.and_eq_true, bne_iff_ne, decide_eq_true_eq, Bool.and_eq_false_iff, bne_eq_false_iff_eq, decide_eq_false_iff_not]
  omega

theorem Block.bootIn_seq_lt (b : Block) : b.bootIn.1.seq < 2 ^ 32 := by
  have hcopy {copy : Nat} {p : BootPtr} (h : b.bootCopy copy = some p) : p.seq < 2 ^ 32 := by
    unfold Block.bootCopy at h
    dsimp only at h
    split at h
    · cases h
      exact leAt_lt _ 4 4
    · cases h
  unfold Block.bootIn
  split
  · rename_i x y hx hy
    split
    · exact hcopy hy
    · exact hcopy hx
  · exact hcopy ‹_›
  · exact hcopy ‹_›
  · exact Nat.two_pow_pos 32

/-- The pointer is written to one copy, with the next number; the other keeps what it had. -/
theorem Block.bootWrite_copies (b : Block) (p : BootPtr) {copy : Nat} (hcopy : copy = match b.bootIn.2 with | some 0 => 1 | _ => 0) :
    (b.bootWrite p).bootCopy copy = some ⟨(b.bootIn.1.seq + 1) % 2 ^ 32 % 2 ^ 32, p.bank % 256 % 2, p.trial, p.attempts % 256, p.floor % 2 ^ 32⟩ ∧
      (b.bootWrite p).bootCopy (1 - copy) = b.bootCopy (1 - copy) := by
  have hle : copy < 2 := by rw [hcopy]; split <;> decide
  have hwrite : b.bootWrite p = b.store (BootPtr.addr copy) ((BootPtr.head { p with seq := (b.bootIn.1.seq + 1) % 2 ^ 32 }) ++
      leBytes 4 (crc32 (BootPtr.head { p with seq := (b.bootIn.1.seq + 1) % 2 ^ 32 }))) := by
    rw [hcopy]
    unfold Block.bootWrite BootPtr.head
    generalize b.bootIn = z
    obtain ⟨old, place⟩ := z
    exact rfl
  generalize hq : ({ p with seq := (b.bootIn.1.seq + 1) % 2 ^ 32 } : BootPtr) = q at hwrite
  have hlen : (q.head ++ leBytes 4 (crc32 q.head)).length = 32 := by rw [List.length_append, q.head_length, leBytes_length]
  rw [hwrite]
  constructor
  · rw [Block.bootCopy_of_bytes (b.load_store_same _ _ hlen), ← hq]
  · refine Block.bootCopy_congr (b.load_store_other ?_)
    rw [hlen, BootPtr.addr, BootPtr.addr]
    omega

/-- The pointer in force is a valid copy's, or no copy is valid. -/
theorem Block.bootIn_cases (b : Block) : (∃ x, b.bootCopy 0 = some x ∧ b.bootIn = (x, some 0)) ∨ (∃ y, b.bootCopy 1 = some y ∧ b.bootIn = (y, some 1)) ∨
    (b.bootCopy 1 = none ∧ b.bootIn.2 = none) := by
  unfold Block.bootIn
  generalize b.bootCopy 0 = first
  generalize b.bootCopy 1 = second
  cases first with
  | none =>
    cases second with
    | none => exact .inr (.inr ⟨rfl, rfl⟩)
    | some y => exact .inr (.inl ⟨y, rfl, rfl⟩)
  | some x =>
    cases second with
    | none => exact .inl ⟨x, rfl, rfl⟩
    | some y =>
      by_cases hl : later 32 y.seq x.seq = true
      · exact .inr (.inl ⟨y, rfl, if_pos hl⟩)
      · exact .inl ⟨x, rfl, if_neg hl⟩

/-- The copy that the pointer is not written to is the one in force, or none is valid there. -/
theorem Block.bootIn_other (b : Block) {copy : Nat} (hcopy : copy = match b.bootIn.2 with | some 0 => 1 | _ => 0) {y : BootPtr}
    (hy : b.bootCopy (1 - copy) = some y) : y = b.bootIn.1 := by
  obtain ⟨x, hx, hin⟩ | ⟨x, hx, hin⟩ | ⟨hnone, hin⟩ := b.bootIn_cases
  · rw [hin] at hcopy ⊢
    have hplace : copy = 1 := hcopy
    rw [hplace, show 1 - 1 = 0 from rfl, hx] at hy
    exact (Option.some.inj hy).symm
  · rw [hin] at hcopy ⊢
    have hplace : copy = 0 := hcopy
    rw [hplace, show 1 - 0 = 1 from rfl, hx] at hy
    exact (Option.some.inj hy).symm
  · rw [hin] at hcopy
    have hplace : copy = 0 := hcopy
    rw [hplace, show 1 - 0 = 1 from rfl, hnone] at hy
    cases hy

/-- A valid copy newer than the other, if that is valid, is in force. -/
theorem Block.boot_newer {b : Block} {copy : Nat} {x : BootPtr} (hcopy : copy < 2) (hx : b.bootCopy copy = some x)
    (hother : ∀ y, b.bootCopy (1 - copy) = some y → later 32 x.seq y.seq = true ∧ later 32 y.seq x.seq = false) : b.boot = x := by
  unfold Block.boot Block.bootIn
  obtain rfl | rfl : copy = 0 ∨ copy = 1 := by omega
  · rw [hx]
    cases h1 : b.bootCopy 1 with
    | none => rfl
    | some y =>
      dsimp only
      rw [if_neg (by rw [(hother y h1).2]; decide)]
  · rw [hx]
    cases h0 : b.bootCopy 0 with
    | none => rfl
    | some y =>
      dsimp only
      rw [if_pos (hother y h0).1]

theorem Block.bootWrite_boot (b : Block) (p : BootPtr) (hbank : p.bank < 2) (hattempts : p.attempts < 256) :
    (b.bootWrite p).boot.bank = p.bank ∧ (b.bootWrite p).boot.trial = p.trial ∧ (b.bootWrite p).boot.attempts = p.attempts := by
  have hmod : (b.bootIn.1.seq + 1) % 2 ^ 32 % 2 ^ 32 = (b.bootIn.1.seq + 1) % 2 ^ 32 := Nat.mod_mod ..
  obtain ⟨hwritten, hother⟩ := b.bootWrite_copies p rfl
  have hvalue : p.bank % 256 % 2 = p.bank ∧ p.attempts % 256 = p.attempts := by omega
  rw [hvalue.1, hvalue.2, hmod] at hwritten
  rw [Block.boot_newer (by split <;> decide) hwritten fun y hy => by
    rw [b.bootIn_other rfl (hother.symm.trans hy)]
    exact later_succ b.bootIn_seq_lt]
  exact ⟨rfl, rfl, rfl⟩

/-! ### Verification and switch of the image (R438, R440) -/

theorem Block.imageVerify_done {b : Block} (h : b.sys.mode = .maintenance) :
    b.imageVerify = { b with sys := { b.sys with imgResult := b.imgCheck (1 - b.sys.bank) } } := if_pos h

theorem Block.imageSwitch_refused {b : Block} (h : b.sys.mode = .maintenance) (hcheck : b.imgCheck (1 - b.sys.bank) ≠ 0) :
    b.imageSwitch.sys.imgResult = b.imgCheck (1 - b.sys.bank) ∧ b.imageSwitch.sys.mode = .maintenance := by
  unfold Block.imageSwitch
  rw [Block.imageVerify_done h]
  dsimp only
  rw [if_neg (fun hc => hcheck hc.2)]
  exact ⟨rfl, h⟩

theorem Block.load_mram {b : Block} {copy : Nat} (hcopy : copy < 2) : b.dieState.load (BootPtr.addr copy) 32 = b.load (BootPtr.addr copy) 32 := by
  refine List.map_congr_left fun i hi => b.dieState_mram ?_ ?_
  all_goals
    have hlt := List.mem_range.1 hi
    rw [BootPtr.addr]
    omega

theorem Block.PastAreas.boot {a b : Block} (h : a.PastAreas b) (hhead : a.evr.lastHead < 4096) : b.boot = a.boot :=
  Block.boot_congr fun copy _ => List.map_congr_left fun i _ => (h.kept hhead).2 _ (by rw [BootPtr.addr]; omega)

theorem Block.imageSwitch_done {b : Block} (h : b.sys.mode = .maintenance) (hcheck : b.imgCheck (1 - b.sys.bank) = 0) :
    b.imageSwitch.DieEmpty ∧
      (b.evr.lastHead < 4096 → b.imageSwitch.boot.bank = 1 - b.sys.bank ∧ b.imageSwitch.boot.trial = true ∧ b.imageSwitch.boot.attempts = 0) := by
  unfold Block.imageSwitch
  have hsys := congrArg Block.sys (Block.imageVerify_done h)
  have hevr : b.imageVerify.evr = b.evr := by rw [Block.imageVerify_done h]
  generalize b.imageVerify = v at *
  have hmode : v.sys.mode = .maintenance := hsys ▸ h
  have hresult : v.sys.imgResult = 0 := by rw [hsys]; exact hcheck
  have hbank : v.sys.bank = b.sys.bank := by rw [hsys]
  dsimp only
  rw [if_pos ⟨hmode, hresult⟩]
  refine ⟨Block.dieReset_empty _, fun hhead => ?_⟩
  have hsaved : v.saveNow.sys = v.sys ∧ v.saveNow.evr = v.evr := ⟨(Block.saveNow_touches v).keeps .sys rfl, (Block.saveNow_touches v).keeps .evr rfl⟩
  generalize v.saveNow = x at *
  have hwritten := x.bootWrite_boot { x.boot with bank := 1 - x.sys.bank, trial := true, attempts := 0 } (Nat.lt_succ_of_le (Nat.sub_le 1 _)) (Nat.zero_lt_succ 255)
  have hkept : (x.bootWrite { x.boot with bank := 1 - x.sys.bank, trial := true, attempts := 0 }).evr = x.evr :=
    (Block.bootWrite_touches x _).keeps .evr rfl
  generalize x.bootWrite { x.boot with bank := 1 - x.sys.bank, trial := true, attempts := 0 } = y at *
  have hpast : y.PastAreas (y.event 0x010A 0xFFFF (1 - y.sys.bank)).redFail.drainEvents :=
    ((Block.event_pastAreas ..).trans (Block.redFail_pastAreas _)).trans (Block.drainEvents_pastAreas _)
  have hboot : (y.event 0x010A 0xFFFF (1 - y.sys.bank)).redFail.dieReset.boot = y.boot :=
    (Block.boot_congr fun copy hcopy => Block.load_mram hcopy).trans (hpast.boot (by rw [hkept, hsaved.2, hevr]; exact hhead))
  rw [hboot]
  rw [← hbank, ← hsaved.1]
  exact hwritten

section clock
variable (b : Block) (t bank : Nat)

theorem Block.clock_imgN (off n : Nat) : (b.clock t).imgN bank off n = b.imgN bank off n := rfl

theorem Block.clock_imgSecs : ∀ n off, (b.clock t).imgSecs bank n off = b.imgSecs bank n off
  | 0, _ => rfl
  | n + 1, off => by
    unfold Block.imgSecs
    simp only [Block.clock_imgN, Block.clock_imgSecs n]

theorem Block.clock_image : (b.clock t).image bank = b.image bank := by
  unfold Block.image
  simp only [Block.clock_imgN, Block.clock_imgSecs]

theorem Block.clock_boot : (b.clock t).boot = b.boot := Block.boot_congr fun _ _ => Block.load_of_cells rfl _ _

theorem Block.clock_imgCheck : (b.clock t).imgCheck bank = b.imgCheck bank := by
  have hvariant : (b.clock t).sys.variantW = b.sys.variantW := rfl
  have hcode : (b.clock t).variantCode = b.variantCode := rfl
  have hkey : (b.clock t).pk 1 = b.pk 1 := rfl
  have hflash : (b.clock t).loadFlash = b.loadFlash := rfl
  have hheader : (b.clock t).imgHeaderOk bank = b.imgHeaderOk bank := by
    unfold Block.imgHeaderOk
    rw [Block.clock_image, Block.clock_imgN b t bank 4 2, Block.clock_imgN b t bank 22 2]
  unfold Block.imgCheck
  rw [Block.clock_imgN b t bank 0 4, Block.clock_imgN b t bank 6 1, Block.clock_imgN b t bank 40 16, Block.clock_imgN b t bank 16 4,
    Block.clock_imgN b t bank 8 4, hheader, Block.clock_image, Block.clock_boot, hvariant, hcode, hkey, hflash]

end clock

/-- Settles O47: each command by the lemma of its operation. -/
theorem loadSelftestAndResets : Obligations.LoadSelftestAndResets := by
  refine ⟨fun t straps s => ?_, fun t s hmode himage => ?_, fun t r s hmode => ?_, fun t s hmode hover => ?_, fun t s hmay hmode => ?_,
    fun t m s hmay hno => ?_, fun t m s hmay hmode => ?_, fun t m s hmay hmode => ?_, fun t s hmay => ?_, fun t e s hend hdue => ?_, fun t s hmode => ?_⟩
  · exact Completes.run (f := fun b => b.powerOn true straps) rfl ⟨rfl, (s.at t).powerOn_mains straps⟩
  · exact Completes.run (f := fun b => b.loadComplete) rfl (Block.loadComplete_done (b := s.at t) hmode himage)
  · exact Completes.run (f := fun b => b.selftestDone r) rfl (Block.selftestDone_done (b := s.at t) r hmode)
  · obtain ⟨⟨hload, hzero, hempty⟩, hwaits, hlast⟩ := Block.haltRestart_done (b := s.at t) hmode hover
    exact Completes.run (f := fun b => b.haltRestart) rfl ⟨hload, hzero, hempty, hwaits, hlast⟩
  · refine Completes.byGlobal (fun b => b.dieResetReq 0) rfl hmay (by decide) ?_
    have hreset : (s.at t).dieResetReq 0 = (s.at t).redFail.dieReset := by
      have hmode' : (s.at t).sys.mode = .maintenance ∨ (s.at t).sys.mode = .debug := hmode
      refine if_pos ⟨rfl, ?_⟩
      obtain h | h := hmode' <;> rw [h] <;> rfl
    rw [hreset]
    exact Block.dieReset_empty _
  · refine Completes.byGlobal (fun b => b.dieResetReq m) rfl hmay (by decide) ?_
    have hrefused : (s.at t).dieResetReq m = (s.at t).count Reg.SYS_MODE_REQ_REFUSED := by
      have hno' : m ≠ 0 ∨ ((s.at t).sys.mode ≠ .maintenance ∧ (s.at t).sys.mode ≠ .debug) := hno
      refine if_neg fun hyes => ?_
      generalize (s.at t).sys.mode = mode at hno' hyes
      obtain ⟨rfl, hdiag⟩ := hyes
      cases mode <;> simp_all [Mode.diagnostic]
    rw [hrefused]
    have hcounts : (s.at t).counts ((s.at t).count Reg.SYS_MODE_REQ_REFUSED) Reg.SYS_MODE_REQ_REFUSED :=
      (Block.Alters.refl (l := [])).counts (l' := []) .refl (by decide) (by decide) (by decide) (by decide) (by decide)
    have hsys : ((s.at t).count Reg.SYS_MODE_REQ_REFUSED).sys = (s.at t).sys := (Block.count_touches (s.at t) ..).keeps .sys rfl
    exact ⟨hcounts, congrArg Sys.mode hsys⟩
  · refine Completes.byGlobal (fun b => b.imageVerify) rfl hmay (by decide) ?_
    have hverify := Block.imageVerify_done (b := s.at t) hmode
    have hresult : (s.at t).imageVerify.sys.imgResult = (s.at t).imgCheck (1 - (s.at t).sys.bank) := by rw [hverify]
    have hmem : (s.at t).imageVerify.mem = (s.at t).mem := by rw [hverify]
    generalize (s.at t).imageVerify = v at hresult hmem
    exact ⟨hresult.trans (s.blk.clock_imgCheck t _), hmem⟩
  · refine Completes.byGlobal (fun b => b.imageSwitch) rfl hmay (by decide) ?_
    have hclock := s.blk.clock_imgCheck t (1 - s.blk.sys.bank)
    by_cases hcheck : s.blk.imgCheck (1 - s.blk.sys.bank) = 0
    · obtain ⟨⟨hload, hzero, hempty⟩, hboot⟩ := Block.imageSwitch_done (b := s.at t) hmode (hclock.trans hcheck)
      generalize (s.at t).imageSwitch = z at *
      have hanswered : (z.answer m .written).boot = z.boot := Block.boot_congr fun _ _ => Block.load_of_cells rfl _ _
      rw [if_pos hcheck, hanswered]
      exact ⟨hload, hzero, hempty, hboot⟩
    · obtain ⟨hresult, hstays⟩ := Block.imageSwitch_refused (b := s.at t) hmode (fun h => hcheck (hclock.symm.trans h))
      generalize (s.at t).imageSwitch = z at *
      rw [if_neg hcheck]
      exact ⟨hresult.trans hclock, hstays⟩
  · exact Completes.byGlobal (fun b => b.hostResetReq 0) rfl hmay (by decide) (s.at t).hostReset_done
  · refine Completes.run (f := fun b => b.wdogExpiry) rfl ?_
    have hexpires : (s.at t).wdogExpiry = (s.at t).hostReset := by
      have hend' : (s.at t).wdogEnd = some e := hend
      unfold Block.wdogExpiry
      rw [hend']
      exact if_pos hdue
    rw [show s.blk.clock t = s.at t from rfl, hexpires]
    exact (s.at t).hostReset_done
  · exact Completes.run (f := fun b => b.saveComplete) rfl (Block.saveComplete_done (b := s.at t) hmode)

end Sys2Proof.Machine
end

section
/-! PROOFS. A run of a channel that no mover has (O37). -/

/- One declaration after the other: the text is checked as one, with room for few threads. -/
set_option Elab.async false

namespace Sys2Proof.Machine

/-- DMA-A runs a channel of a number that no mover has. The window of that channel in DMA is the one of Q0 in QUE, where DMA.CH_RUNS stands at the
offset of QUE.OVERRUN_ITEMS; Q0 is enabled with no slot, and the channel's end sends an item there. -/
def strayRun : State := ⟨{ Block.reset with
  regs := { Block.reset.regs with
    vis := [(Reg.QUE_CFG.key 0 0, 0x80000000)]
    act := [(Reg.DMA_CH_CFG.key 16777216 0, 0x8000)] }
  dma := { Block.reset.dma with running := [(0, some 16777216)] } }, []⟩

theorem strayRun_running : strayRun.blk.dmaRunning 0 = some 16777216 := by decide +kernel

theorem strayRun_moves : ((strayRun.at 0).dmaMove 16777216 none).stop = none := by decide +kernel

theorem strayRun_before : (((strayRun.at 0).dmaMove 16777216 none).blk.vis Reg.DMA_CH_RUNS 16777216).toNat = 0 := by decide +kernel

/-- The run and the overrun of Q0 count in one register. -/
theorem strayRun_after : (((strayRun.at 0).dmaFinish 0).vis Reg.DMA_CH_RUNS 16777216).toNat = 2 := by decide +kernel

/-- Refutes O37: its clause of DMA_CHANNEL_COMPLETE does not say that the running channel is one of the 32, and in `strayRun` the end of the run
adds two to what it says is counted once. -/
theorem not_channelsRunTheirTransfers : ¬ Obligations.ChannelsRunTheirTransfers := by
  intro h
  obtain ⟨-, -, -, -, -, -, hcomplete, -⟩ := h
  obtain ⟨-, -, -, -, -, hcounts, -⟩ := Completes.of_runIf (f := fun b => b.dmaFinish 0) rfl rfl
    (hcomplete 0 0 16777216 strayRun (by decide) strayRun_running strayRun_moves)
  have htwo : (((strayRun.at 0).dmaFinish 0).vis Reg.DMA_CH_RUNS 16777216).toNat = min (0 + 1) 0xFFFFFFFF := by
    rw [← strayRun_before]
    exact hcounts
  rw [strayRun_after] at htwo
  cases htwo

end Sys2Proof.Machine
end

section
/-! PROOFS. A radio report that has a record offered again (O34). -/

/- One declaration after the other: the text is checked as one, with room for few threads. -/
set_option Elab.async false

namespace Sys2Proof.Machine

/-! ### What a node seals, RAD opens (R316) -/

theorem xorBytes_length (a c : List Byte) : (xorBytes a c).length = min a.length c.length := List.length_zipWith

theorem xorBytes_cancel {a c : List Byte} (h : a.length ≤ c.length) : xorBytes (xorBytes a c) c = a := by
  refine List.ext_getElem (by simp [xorBytes_length, h]) fun i hi hi' => ?_
  simp [xorBytes]

theorem aesRounds_length (ks : List (List Byte)) (s : List Byte) (hne : ks ≠ []) (hk : ∀ k ∈ ks, k.length = 16) :
    (aesRounds ks s).length = 16 := by
  induction ks generalizing s with
  | nil => exact absurd rfl hne
  | cons k r ih =>
    cases r with
    | nil => simp [aesRounds, xorBytes_length, aesShift, hk]
    | cons k' r => exact ih _ (by simp) fun k hmem => hk k (List.mem_cons_of_mem _ hmem)

/-- Round keys of 16 bytes each, of which there is more than one. -/
structure RoundKeys (keys : List (List Byte)) : Prop where
  more : keys.drop 1 ≠ []
  wide : ∀ k ∈ keys.drop 1, k.length = 16

theorem RoundKeys.encrypt_length {keys : List (List Byte)} (h : RoundKeys keys) (s : List Byte) : (aesEncrypt keys s).length = 16 :=
  aesRounds_length _ _ h.more h.wide

theorem RoundKeys.ccmTag_length {key : List Byte} (h : RoundKeys (aesKeys key)) (nonce aad text : List Byte) {n : Nat} (hn : n ≤ 16) :
    (ccmTag key nonce aad text n).length = n := by
  have hmac (l : List (List Byte)) : (l.foldl (fun y x => aesEncrypt (aesKeys key) (xorBytes y x)) (List.replicate 16 0)).length = 16 :=
    List.foldlRecOn (motive := fun y : List Byte => y.length = 16) l _ (by simp) fun _ _ _ _ => h.encrypt_length _
  unfold ccmTag
  simp only [List.length_take, xorBytes_length, hmac, h.encrypt_length]
  omega

/-- A text of at most one block comes back. -/
theorem RoundKeys.ccmCrypt_crypt {key : List Byte} (h : RoundKeys (aesKeys key)) (nonce : List Byte) {bs : List Byte} (hlen : bs.length ≤ 16) :
    (ccmCrypt key nonce bs).length = bs.length ∧ ccmCrypt key nonce (ccmCrypt key nonce bs) = bs := by
  have hone (bs : List Byte) (hlen : bs.length ≤ 16) :
      ccmCrypt key nonce bs = xorBytes bs (aesEncrypt (aesKeys key) (slice (Config.ccmBlock nonce none 1) 0 16)) := by
    unfold ccmCrypt
    generalize aesKeys key = keys
    cases bs with
    | nil => simp [streamXor, xorBytes]
    | cons x xs =>
      have hrest (n : Nat) (ctr : Nat → List Byte) : streamXor keys ctr n 2 [] = [] := by cases n <;> simp [streamXor]
      simp [streamXor, List.take_of_length_le hlen, List.drop_of_length_le hlen, hrest]
  have hkeep : (xorBytes bs (aesEncrypt (aesKeys key) (slice (Config.ccmBlock nonce none 1) 0 16))).length = bs.length := by
    rw [xorBytes_length, h.encrypt_length]
    omega
  rw [hone bs hlen, hone _ (hkeep.symm ▸ hlen)]
  exact ⟨hkeep, xorBytes_cancel (by rw [h.encrypt_length]; exact hlen)⟩

theorem withFcs_length (bs : List Byte) : (withFcs bs).length = bs.length + 2 := by simp [withFcs, leBytes_length]

theorem withFcs_take (bs : List Byte) : (withFcs bs).take ((withFcs bs).length - 2) = bs := by
  rw [withFcs_length]
  exact List.take_left' rfl

theorem withFcs_good (bs : List Byte) : fcsGood (withFcs bs) = true := by
  have hfcs : fcs bs < 256 ^ 2 := BitVec.isLt _
  simp only [fcsGood, withFcs_take]
  rw [withFcs_length, show (withFcs bs).drop (bs.length + 2 - 2) = leBytes 2 (fcs bs) from List.drop_left' rfl, leNat_leBytes, Nat.mod_eq_of_lt hfcs]
  simp

/-- RAD opens a sealed frame where it finds the header to end. -/
theorem RoundKeys.radOpen_radSeal {key : List Byte} (h : RoundKeys (aesKeys key)) (nonce head : List Byte) (level : Nat) {plain : List Byte}
    (hlen : plain.length ≤ 16) {m : MacFrame} (hfront : m.front = head.length)
    (hbody : m.body = ccmCrypt key nonce plain ++ ccmTag key nonce head plain (macMic level)) :
    radOpen key nonce level (radSeal key nonce level head plain) m = some plain := by
  obtain ⟨hcrypt, hback⟩ := h.ccmCrypt_crypt nonce hlen
  have hmic : macMic level ≤ 16 := by unfold macMic; split <;> decide
  have hn : m.body.length - macMic level = (ccmCrypt key nonce plain).length := by
    rw [hbody, List.length_append, h.ccmTag_length _ _ _ hmic, Nat.add_sub_cancel]
  have hhead : (radSeal key nonce level head plain).take m.front = head := by
    rw [hfront, radSeal, withFcs, List.append_assoc, List.append_assoc]
    exact List.take_left' rfl
  unfold radOpen
  simp only [hn, hhead]
  rw [hbody, List.take_left' rfl, List.drop_left' rfl, hback, if_pos rfl]

/-! ### One frame with one report -/

/-- A node's frame to unit 0: a data frame in the zero PAN, secured at level 5, from the EUI-64 zero. -/
def nodeHead : MacHead := ⟨1, true, false, true, true, false, 2, some 0, some 0, some (2, 0), none, some (3, 0)⟩

/-- One compact report of zeros. -/
def nodeReport : List Byte := 1 :: List.replicate 10 0

def nodeRoot : List Byte := List.replicate 16 0

def nodePsdu : List Byte := radSeal (radKey nodeRoot 0) (radNonce 0 0 5) 5 (nodeHead.bytes ++ macSecurity 5) nodeReport

def nodeBody : List Byte :=
  ccmCrypt (radKey nodeRoot 0) (radNonce 0 0 5) nodeReport ++
    ccmTag (radKey nodeRoot 0) (radNonce 0 0 5) (nodeHead.bytes ++ macSecurity 5) nodeReport (macMic 5)

/-- The radio tier, its unit 0, node 0 and a SHARED cell, context 0 and ring 0 enabled. -/
def strayRegs : Tbl Word := [(Reg.RAD_CFG.key 0 0, 0x80000000), (Reg.RAD_UNIT_CFG.key 0 0, 0x80000000), (Reg.RAD_NODE_CFG.key 0 0, 0x80000000),
  (Reg.RAD_CELL_CFG.key 0 0, 0xB0000000), (Reg.STR_CTX_CTRL.key 0 0, 0x80000000), (Reg.ALN_RING_CFG.key 0 0, 0x80000000)]

/-- Slot 0 in progress with a SHARED cell of unit 0, in which the time parent is lost, so that nothing is sent. A record waits for a claim in an open
basin with a latency bin of a number that no context has: STR.CTX_LAT_BIN of that bin would stand where RAD.UNIT_RX of unit 0 does. -/
def strayOffer : State := ⟨{ Block.reset with
  regs := { Block.reset.regs with
    vis := strayRegs
    act := strayRegs }
  sys := { Block.reset.sys with zeroised := false }
  rad := { Block.reset.rad with slot := 1, lost := some 0 }
  key := { Block.reset.key with slots := [(0, ⟨true, false, 12, 0, 0, 0⟩)] }
  aln := { Block.reset.aln with rings := [(0, { Ring.reset with run := true, pos := [(0, { Basin.reset with st := .opened })], nextSlot := 1 })] }
  str := { Block.reset.str with
    offers := [⟨0, 0, 0, (Reg.RAD_UNIT_RX.key 0 0 - Reg.STR_CTX_LAT_BIN.key 0 0) / 4, [], [], none, 0, 0, 0, 0, 0, false, false⟩] } }, []⟩

def nodeFrame0 : Machine.RadFrame := ⟨0, 0, nodePsdu, 0⟩

def nodeMac : MacFrame := ⟨nodeHead, some 0x65, [], false, 16, nodeBody⟩

theorem nodePsdu_eq : nodePsdu = withFcs ((nodeHead.bytes ++ macSecurity 5) ++ nodeBody) := by
  unfold nodePsdu nodeBody radSeal
  rw [List.append_assoc]

theorem leAt_append_left {a : List Byte} (c : List Byte) {i n : Nat} (h : i + n ≤ a.length) : leAt (a ++ c) i n = leAt a i n := by
  have hslice : slice (a ++ c) i n = slice a i n := by
    have htake : ((a ++ c).drop i).take n = (a.drop i).take n := by
      rw [List.drop_append_of_le_length (by omega), List.take_append_of_le_length (by rw [List.length_drop]; omega)]
    unfold slice
    rw [htake]
  rw [leAt, hslice, leAt]

/-- The header is read as it was written, whatever follows it. -/
theorem readMac_nodeHead (body : List Byte) :
    readMac ((nodeHead.bytes ++ macSecurity 5) ++ body) = some ⟨nodeHead, some 0x65, [], false, 16, body⟩ := by
  have hlen : (nodeHead.bytes ++ macSecurity 5).length = 16 := by decide
  have hat (i n : Nat) (h : i + n ≤ 16) : leAt ((nodeHead.bytes ++ macSecurity 5) ++ body) i n = leAt (nodeHead.bytes ++ macSecurity 5) i n :=
    leAt_append_left body (hlen.symm ▸ h)
  have hcontrol : leAt ((nodeHead.bytes ++ macSecurity 5) ++ body) 0 2 = 0xE869 := (hat 0 2 (by decide)).trans (by decide)
  have hseq : leAt ((nodeHead.bytes ++ macSecurity 5) ++ body) 2 1 = 0 := (hat 2 1 (by decide)).trans (by decide)
  have hpan : leAt ((nodeHead.bytes ++ macSecurity 5) ++ body) 3 2 = 0 := (hat 3 2 (by decide)).trans (by decide)
  have hdst : leAt ((nodeHead.bytes ++ macSecurity 5) ++ body) 5 2 = 0 := (hat 5 2 (by decide)).trans (by decide)
  have hsrc : leAt ((nodeHead.bytes ++ macSecurity 5) ++ body) 7 8 = 0 := (hat 7 8 (by decide)).trans (by decide)
  have hsec : leAt ((nodeHead.bytes ++ macSecurity 5) ++ body) 15 1 = 0x65 := (hat 15 1 (by decide)).trans (by decide)
  have hlong : ¬((nodeHead.bytes ++ macSecurity 5) ++ body).length < 16 := by rw [List.length_append, hlen]; omega
  have hdrop : ((nodeHead.bytes ++ macSecurity 5) ++ body).drop 16 = body := List.drop_left' hlen
  clear hat
  generalize (nodeHead.bytes ++ macSecurity 5) ++ body = bs at *
  unfold readMac
  simp [hcontrol, hseq, hpan, hdst, hsrc, hsec, hdrop, nodeHead, bits, bit, macPans, macAddrLen, Nat.le_of_not_lt hlong]

theorem strayOffer_receive : (strayOffer.at 0).radReceive 0 nodeFrame0 = ((strayOffer.at 0).count Reg.RAD_UNIT_RX 0, some nodeMac) := by
  have hpan : ¬(nodeMac.head.dstPan.getD (((strayOffer.at 0).count Reg.RAD_UNIT_RX 0).cn Reg.RAD_PAN_ID) ≠ ((strayOffer.at 0).count Reg.RAD_UNIT_RX 0).cn Reg.RAD_PAN_ID ∨
      [some (2, ((strayOffer.at 0).count Reg.RAD_UNIT_RX 0).cf Reg.RAD_UNIT_CFG 0 15 0)].contains nodeMac.head.dst = false) := by decide +kernel
  have hsupported : ¬nodeMac.supported = false := by decide
  have hread : readMac (nodePsdu.take (nodePsdu.length - 2)) = some nodeMac := by
    rw [nodePsdu_eq, withFcs_take]
    exact readMac_nodeHead nodeBody
  have hgood : ¬fcsGood nodePsdu = false := by rw [nodePsdu_eq, withFcs_good]; decide
  unfold Block.radReceive
  refine (if_neg (show ¬127 < nodeFrame0.phr by decide)).trans ((if_neg hgood).trans ?_)
  rw [show nodeFrame0.psdu = nodePsdu from rfl, hread]
  exact (if_neg hsupported).trans (if_neg hpan)

/-- What RAD makes of an opened frame before its Enh-ACK. -/
def Block.nodeTaken (b : Block) (u n : Nat) (f : Machine.RadFrame) (plain : List Byte) : Block :=
  let asn := b.rad.slot - 1
  let b := b.count Reg.RAD_NODE_FRAMES n
  let startAt := b.radEpoch + asn * b.radSlotNs + b.radTxOffset u * 1000
  let b := b.radDrift n f.start (((startAt : Int) + f.start * 1000).toNat)
  let b := b.setRadNode n { b.radNode n with x := f.start }
  (b.radHeard u n).radPayload n plain

/-- While nothing may be sent, there is no more to it. -/
theorem Block.nodeFrame_of_open {b : Block} {u n : Nat} {c : RadCell} {f : Machine.RadFrame} {m : MacFrame} {root plain : List Byte}
    (hroot : b.radRoot = some root) (hlevel : m.level = b.radLevel n)
    (hopen : radOpen (radKey root (b.radEui n)) (radNonce (b.radEui n) (b.rad.slot - 1) (b.radLevel n)) (b.radLevel n) f.psdu m = some plain)
    (hquiet : (b.nodeTaken u n f plain).radMayTx = false) : b.nodeFrame u c n f m false = b.nodeTaken u n f plain := by
  unfold Block.nodeFrame
  rw [if_neg (by decide), hroot]
  dsimp only
  rw [if_pos hlevel, hopen]
  exact if_neg (by rw [← Block.nodeTaken, hquiet]; decide)

def strayTaken : Block := ((strayOffer.at 0).count Reg.RAD_UNIT_RX 0).nodeTaken 0 0 nodeFrame0 nodeReport

theorem strayTaken_quiet : strayTaken.radMayTx = false := by decide +kernel

/-- The frame and the record that waited count in one register. -/
theorem strayTaken_after : (strayTaken.vis Reg.RAD_UNIT_RX 0).toNat = 2 := by decide +kernel

theorem nodeKey_rounds : RoundKeys (aesKeys (radKey nodeRoot 0)) where
  more := by decide +kernel
  wide := by decide +kernel

theorem nodePsdu_opens : radOpen (radKey nodeRoot 0) (radNonce 0 0 5) 5 nodePsdu nodeMac = some nodeReport :=
  nodeKey_rounds.radOpen_radSeal _ _ 5 (by decide) (by decide) rfl

theorem strayOffer_cell : (strayOffer.at 0).radCell 0 = some ⟨3, 0, 0, 0⟩ := by decide +kernel

theorem strayOffer_root : strayOffer.blk.radRoot = some nodeRoot := by decide +kernel

theorem strayOffer_frame : (strayOffer.at 0).uplinkFrame 0 nodeFrame0 false = strayTaken := by
  have hbefore : ¬((strayOffer.at 0).radOn = false ∨ ((3 : Nat) ≠ 1 ∧ (3 : Nat) ≠ 3) ∨ (strayOffer.at 0).radScans 0 = true ∨
      0 ≠ (strayOffer.at 0).radChannel ⟨3, 0, 0, 0⟩ ((strayOffer.at 0).rad.slot - 1) ∨ (strayOffer.at 0).radInWindow ⟨3, 0, 0, 0⟩ 0 = false) := by decide +kernel
  have hnode : (((strayOffer.at 0).count Reg.RAD_UNIT_RX 0).listed Reg.RAD_NODE_CFG).find? (fun n =>
      some (((strayOffer.at 0).count Reg.RAD_UNIT_RX 0).radEui n) == some 0 && ((strayOffer.at 0).count Reg.RAD_UNIT_RX 0).cb Reg.RAD_NODE_CFG n 31) = some 0 := by
    decide +kernel
  have heui : ((strayOffer.at 0).count Reg.RAD_UNIT_RX 0).radEui 0 = 0 := by decide +kernel
  have hlevel : ((strayOffer.at 0).count Reg.RAD_UNIT_RX 0).radLevel 0 = 5 := by decide +kernel
  have hroot : ((strayOffer.at 0).count Reg.RAD_UNIT_RX 0).radRoot = some nodeRoot := by decide +kernel
  have htaken : ((strayOffer.at 0).count Reg.RAD_UNIT_RX 0).nodeFrame 0 ⟨3, 0, 0, 0⟩ 0 nodeFrame0 nodeMac false = strayTaken :=
    Block.nodeFrame_of_open hroot hlevel.symm (by rw [heui, hlevel]; exact nodePsdu_opens) strayTaken_quiet
  unfold Block.uplinkFrame
  rw [strayOffer_cell]
  refine (if_neg hbefore).trans ?_
  rw [strayOffer_receive]
  refine (if_neg (show ¬nodeMac.head.kind ≠ 1 by decide)).trans ?_
  generalize hfound : List.find? _ _ = found
  obtain rfl : some 0 = found := hnode.symm.trans hfound
  exact (if_neg (show ¬((3 : Nat) = 1 ∧ (0 : Nat) ≠ 0) by decide)).trans htaken

/-- Refutes O34: its clause of UPLINK_FRAME does not say that the records that wait for a claim are of contexts and latency bins that exist, and in
`strayOffer` the record that the frame's report has offered again adds a second one to the frames received. -/
theorem not_radioUnitsKeepTheSlotframe : ¬ Obligations.RadioUnitsKeepTheSlotframe := by
  intro h
  obtain ⟨-, huplink, -⟩ := h
  obtain ⟨hcounts, -⟩ := Completes.of_runIf (f := fun b => b.uplinkFrame 0 nodeFrame0 false) rfl rfl
    (huplink 0 0 0 0 nodeRoot ⟨3, 0, 0, 0⟩ nodeFrame0 nodeMac strayOffer (by decide) strayOffer_cell (by decide +kernel) (by decide) (by decide +kernel)
      (by decide +kernel) (by decide +kernel) (congrArg Prod.snd strayOffer_receive) rfl rfl (by decide +kernel) (by decide) strayOffer_root)
  have htwo : (strayTaken.vis Reg.RAD_UNIT_RX 0).toNat = min ((strayOffer.blk.vis Reg.RAD_UNIT_RX 0).toNat + 1) 0xFFFFFFFF := by
    rw [← strayOffer_frame]
    exact hcounts
  rw [strayTaken_after, show (strayOffer.blk.vis Reg.RAD_UNIT_RX 0).toNat = 0 by decide +kernel] at htwo
  cases htwo

end Sys2Proof.Machine
end

section
/-! PROOFS. Memory errors, the scrubber and remaps (O35). -/

/- One declaration after the other: the text is checked as one, with room for few threads. -/
set_option Elab.async false

namespace Sys2Proof.Machine

/-! ### Interrupt bits that further events leave set (R449) -/

/-- A bit of a stored register is set. -/
def Block.BitAt (j n : Nat) (b : Block) : Prop := bit (Tbl.get b.regs.vis j 0).toNat n = true

section bits
variable {j n : Nat} {a b : Block}

theorem Block.BitAt.keep (h : a.BitAt j n) (k : Block.KeepsReg j a b) : b.BitAt j n := by
  unfold Block.BitAt
  rwa [k.reads 0]

theorem Block.BitAt.irq (h : b.BitAt j n) (blk m : Nat) : (b.irq blk m).BitAt j n := by
  unfold Block.BitAt at h ⊢
  have hold : Tbl.get (b.irq blk m).regs.vis (regKey blk 15 0 0x400) 0 = Tbl.get b.regs.vis (regKey blk 15 0 0x400) 0 ||| BitVec.twoPow 32 m :=
    Tbl.get_put_same ..
  by_cases hj : j = regKey blk 15 0 0x400
  · subst hj
    rw [bit_eq_testBit, BitVec.testBit_toNat] at h ⊢
    rw [hold, BitVec.getLsbD_or, h, Bool.true_or]
  · exact Block.BitAt.keep h (.raiseBit .refl hj)

theorem Block.bitAt_irq (b : Block) (blk : Nat) {n : Nat} (hn : n < 32) : (b.irq blk n).BitAt (regKey blk 15 0 0x400) n :=
  Block.Alters.irqStatus (l := []) .refl rfl hn

end bits

/-! ### What errors leave of a memory's state -/

/-- A memory's state but for its remaps and the addresses in the tracker. -/
def MemUnit.still (x : MemUnit) : MemUnit := { x with remaps := [], track := [] }

theorem Touches.munit {l : List Part} {a b : Block} (h : Touches l a b) (hl : l.contains .mm = false) (n : Nat) : b.munit n = a.munit n := by
  rw [Block.munit, Block.munit, h.keeps .mm hl]

theorem Block.remap_still (b : Block) (m u : Nat) : ((b.remap m u).munit m).still = (b.munit m).still := by
  unfold Block.remap
  extract_lets arr q kept x
  split
  · exact congrArg _ (((Touches.refl.trans (Block.irq_touches ..) (l := [.vis, .rep, .evr]) rfl).trans (Block.eventRep_touches ..) rfl).munit rfl m)
  · extract_lets moved e n written y stored
    have hx : x = b.munit m := (Block.rawOf_touches ..).munit rfl m
    have hmoved : (moved.munit m).still = (b.munit m).still := by rw [Block.munit_setMunit, hx]; rfl
    clear_value moved written
    have hunits : stored.mm.units = moved.mm.units := by
      subst stored y
      split <;> rfl
    have hstored : (stored.munit m).still = (b.munit m).still := by
      rw [Block.munit, hunits]
      exact hmoved
    clear_value stored
    rw [(Block.event_touches ..).munit rfl, (Block.count_touches ..).munit rfl, hstored]

theorem Block.trackError_still (b : Block) (m u : Nat) : ((b.trackError m u).munit m).still = (b.munit m).still := by
  have hset (l : List (Nat × Nat)) : ((b.setMunit m { b.munit m with track := l }).munit m).still = (b.munit m).still := by
    rw [Block.munit_setMunit]
    rfl
  unfold Block.trackError
  dsimp only
  split
  · split
    · exact hset _
    · split
      · exact (Block.remap_still ..).trans (hset _)
      · exact (congrArg _ ((Block.irq_touches ..).munit rfl m)).trans (hset _)
      · exact hset _
  · split
    · exact hset _
    · split
      · exact hset _
      · rfl

theorem Block.corrected_still (b : Block) (m u : Nat) : ((b.corrected m u).munit m).still =
    { (b.munit m).still with lastCe := Mem.byteAddr m u, writebacks := (b.munit m).writebacks ++ [u] } := by
  unfold Block.corrected
  rw [Block.trackError_still, (Block.eventRep_touches ..).munit rfl, (Block.irq_touches ..).munit rfl, (Block.count_touches ..).munit rfl, Block.munit_setMunit]
  rfl

/-- A first error of an address takes a free entry of the tracker. -/
theorem Block.trackError_first {b : Block} {m u : Nat} (hnew : (b.munit m).track.find? (fun e => e.1 == u) = none) (hroom : (b.munit m).track.length < 16) :
    b.trackError m u = b.setMunit m { b.munit m with track := (b.munit m).track ++ [(u, 1)] } := by
  unfold Block.trackError
  dsimp only
  rw [hnew]
  exact if_pos hroom

theorem Block.ueNote_munit (b : Block) (m p : Nat) : (b.ueNote m p).munit m =
    { b.munit m with lastUe := if m = 9 then Mem.byteAddr m p else Mem.byteAddr m (p / 8) + p % 8 } := by
  unfold Block.ueNote
  dsimp only
  rw [(Block.event_touches ..).munit rfl, (Block.irq_touches ..).munit rfl, (Block.count_touches ..).munit rfl, Block.munit_setMunit]
  split <;> rfl

theorem Block.ueRemap_still (b : Block) (m p : Nat) : ((b.ueRemap m p).munit m).still = (b.munit m).still := by
  unfold Block.ueRemap
  split
  · exact Block.remap_still ..
  · rfl

theorem Block.uncorrectable_still (b : Block) (m p : Nat) (h : b.mem.poison.contains (m, p) = false) :
    ((b.uncorrectable m p).munit m).still =
      { (b.munit m).still with lastUe := if m = 9 then Mem.byteAddr m p else Mem.byteAddr m (p / 8) + p % 8 } := by
  unfold Block.uncorrectable
  rw [if_neg (by rw [h]; decide), Block.ueRemap_still, (Block.poisonReader_touches ..).munit rfl, (Block.rawPoison_touches ..).munit rfl,
    (Block.addPoison_touches ..).munit rfl, Block.ueNote_munit]
  rfl

/-! ### What errors leave of the other registers -/

section found
variable {m : Nat} (hm : m < 10)

theorem Block.writeResult_keepsReg {j : Nat} (hj : keyBlk j = 14) (b : Block) (epoch seq slot bad : Nat) :
    Block.KeepsReg j b (b.writeResult epoch seq slot bad) := by
  unfold Block.writeResult
  dsimp only
  refine .ite .refl (.push (.setVis (.of_vis .refl) ?_) (by omega))
  rintro rfl
  cases hj

theorem Block.epochWithheld_keepsReg {j : Nat} (hj : keyBlk j = 14) (b : Block) (fault : Bool) : Block.KeepsReg j b (b.epochWithheld fault) := by
  have hrpl {sp i off : Nat} (hsp : sp < 16) (hi : i < 1048576) (ho : off < 65536) : j ≠ regKey 6 sp i off := by
    rintro rfl
    rw [keyBlk_regKey hsp hi ho] at hj
    cases hj
  have hcount {x : Block} (h : Block.KeepsReg j b x) {d : RegDesc} (hblk : d.blk = 6) (hd : d.Lies) (n code a0 a1 : Nat) :
      Block.KeepsReg j b (((x.count d).irq Blk.rpl n).event code a0 a1) := by
    obtain ⟨hsp, hoff, hsat⟩ := hd
    have hkey : j ≠ d.key 0 0 := by rw [RegDesc.key, hblk]; exact hrpl hsp (by decide) hoff
    have hflag (p) (hp : d.sat = some p) : j ≠ regKey d.blk (d.spaces.headD 15) 0 p.1 := by rw [hblk]; exact hrpl hsp (by decide) (hsat p hp)
    exact .event (.raiseBit (h.count hkey hflag) (hrpl (by decide) (by decide) (by decide))) (by omega)
  unfold Block.epochWithheld
  split
  · exact .refl
  · extract_lets rpl held faulted ended
    have hfaulted : Block.KeepsReg j b faulted :=
      .ite (hcount (.of_vis .refl) (by decide) (by decide) ..) (hcount (.of_vis .refl) (by decide) (by decide) ..)
    have hwarm (e : Nat) : Block.KeepsReg j b (faulted.warmEnd e) := .ite (.event (.of_vis hfaulted) (by omega)) hfaulted
    have hended : Block.KeepsReg j b ended := .of_vis (hwarm _)
    clear_value ended
    exact hended.trans (Block.writeResult_keepsReg hj ..)

theorem Block.poisonReader_keepsReg {j : Nat} (hj : keyBlk j = 14) (b : Block) (p : Nat) : Block.KeepsReg j b (b.poisonReader m p) := by
  unfold Block.poisonReader
  split
  · split
    · exact .refl
    · exact .of_vis .refl
  · exact .of_vis .refl
  · exact .eventRep .refl (by omega)
  · exact .ite (.of_vis (Block.epochWithheld_keepsReg hj b true)) .refl
  · exact .refl

end found

section found
variable {m : Nat} (hm : m < 10)
include hm

/-- Of the registers of MEM, errors change those of `errorRegs` only. -/
theorem Block.uncorrectable_keepsReg {j : Nat} (hj : keyBlk j = 14) (hl : errorRegs.has (keyBlk j) (keyOff j) = false) (b : Block) (p : Nat) :
    Block.KeepsReg j b (b.uncorrectable m p) := by
  have hnoted : Block.KeepsReg j b (((b.ueNote m p).addPoison (m, p)).rawPoison m p) := .of_vis ((Block.ueNote_alters hm b p).reg j hl)
  exact .ite .refl ((hnoted.trans (Block.poisonReader_keepsReg hj _ _)).trans ((Block.ueRemap_alters hm _ p).reg j (RegSet.has_of_sub (by decide) hl)))

theorem Block.unitFound_keepsReg {j : Nat} (hj : keyBlk j = 14) (hl : errorRegs.has (keyBlk j) (keyOff j) = false) (b : Block) (u lo n : Nat) :
    Block.KeepsReg j b (b.unitFound m u lo n) := by
  unfold Block.unitFound
  split
  · exact .refl
  · extract_lets reads parts mine fixed found
    have hfound : Block.KeepsReg j b found := .ite ((Block.corrected_alters hm b u).reg j hl) .refl
    exact List.foldlRecOn mine _ hfound fun x hx e _ => .ite (hx.trans (Block.uncorrectable_keepsReg hm hj hl x e.1.1)) hx

end found

theorem Block.eventRep_bitAt {j n : Nat} (hj : keyBlk j < 16) {b : Block} (h : b.BitAt j n) (key code src a1 : Nat) :
    (b.eventRep key code src a1).BitAt j n := h.keep (.eventRep .refl hj)

/-- A remap leaves the interrupts that are raised. -/
theorem Block.remap_bitAt {m : Nat} (hm : m < 10) {b : Block} {n : Nat} (h : b.BitAt (regKey 14 15 0 0x400) n) (u : Nat) :
    (b.remap m u).BitAt (regKey 14 15 0 0x400) n := by
  unfold Block.remap
  extract_lets arr q kept x
  split
  · exact Block.eventRep_bitAt (by decide) (h.irq ..) ..
  · extract_lets moved e k written y stored
    have hmoved : Block.Alters [] b moved := .of_regs (.touched .refl (Block.rawOf_touches ..))
    have hwritten : Block.Alters [] b written := hmoved.touched (Block.store_touches ..)
    have hstored : Block.Alters [] b stored := .ite hwritten.of_regs hmoved
    clear_value stored
    have hcounted : Block.Alters Reg.MEM_REMAPS.regs b (stored.count Reg.MEM_REMAPS m) := .count (.mono hstored) (by decide) (by decide) (by omega)
    exact h.keep (.event (hcounted.reg _ (by decide)) (by decide))

theorem Block.trackError_bitAt {m : Nat} (hm : m < 10) {b : Block} {n : Nat} (h : b.BitAt (regKey 14 15 0 0x400) n) (u : Nat) :
    (b.trackError m u).BitAt (regKey 14 15 0 0x400) n := by
  have hset (x : MemUnit) : (b.setMunit m x).BitAt (regKey 14 15 0 0x400) n := h
  unfold Block.trackError
  dsimp only
  split
  · split
    · exact hset _
    · split
      · exact Block.remap_bitAt hm (hset _) u
      · exact (hset _).irq ..
      · exact hset _
  · split
    · exact hset _
    · split
      · exact hset _
      · exact h

/-! ### What errors leave of the poison -/

theorem Touches.poison {l : List Part} {a b : Block} (h : Touches l a b) (hl : l.contains .poison = false) : b.mem.poison = a.mem.poison :=
  congrArg Prod.fst (h.keeps .poison hl)

theorem Block.rawOf_poison (b : Block) (m u : Nat) : (b.rawOf m u).2.mem.poison = b.mem.poison := by
  unfold Block.rawOf
  dsimp only
  split
  · rfl
  · split <;> rfl
  · rfl

/-- The table of remaps lies where no poison is recorded. -/
theorem Block.remap_poison (b : Block) (m u : Nat) : (b.remap m u).mem.poison = b.mem.poison := by
  unfold Block.remap
  extract_lets arr q kept x
  split
  · rw [(Block.eventRep_touches ..).poison rfl, (Block.irq_touches ..).poison rfl]
  · extract_lets moved e n written y stored
    have hmoved : moved.mem.poison = b.mem.poison := b.rawOf_poison m u
    have hstored : stored.mem.poison = moved.mem.poison := by
      have hnone (h : n < 1024) : poisonUnit (0x407F4000 + 16 * n) = none := by
        unfold poisonUnit
        rw [if_neg (by omega), if_neg (by omega), if_neg (by omega)]
      clear_value moved
      subst stored y
      split
      · next h =>
        show (moved.store (0x407F4000 + 16 * n) _).mem.poison = _
        unfold Block.store poisonAfter
        simp only [hnone h]
      · rfl
    clear_value stored
    rw [(Block.event_touches ..).poison rfl, (Block.count_touches ..).poison rfl, hstored, hmoved]

theorem Block.ueRemap_poison (b : Block) (m p : Nat) : (b.ueRemap m p).mem.poison = b.mem.poison := by
  unfold Block.ueRemap
  split
  · exact Block.remap_poison ..
  · rfl

theorem Block.ueNote_poison (b : Block) (m p : Nat) : (b.ueNote m p).mem.poison = b.mem.poison :=
  (Block.ueNote_touches ..).poison rfl

/-- Only a solve that it ends has poison written anew. -/
theorem Block.poisonReader_poison (b : Block) {m p : Nat} (h : m ≠ 7 ∨ Config.engineOwner p ≠ Blk.rpl) :
    (b.poisonReader m p).mem.poison = b.mem.poison := by
  unfold Block.poisonReader
  split
  · split
    · rfl
    · rfl
  · rfl
  · exact (Block.eventRep_touches ..).poison rfl
  · next => rw [if_neg (h.resolve_left (fun hne => hne rfl))]
  · rfl

/-! ### Clauses -/

/-- What CORRECTED_ERROR does (R327, R328). -/
theorem Block.corrected_done {m : Nat} (hm : m < 10) (b : Block) (u : Nat) :
    ((b.corrected m u).munit m).lastCe = Mem.byteAddr m u ∧ ((b.corrected m u).munit m).writebacks = (b.munit m).writebacks ++ [u] ∧
      b.counts (b.corrected m u) Reg.MEM_CE_COUNT m ∧ (b.corrected m u).BitAt (regKey 14 15 0 0x400) 0 ∧
      ((b.munit m).track.find? (fun e => e.1 == u) = none → (b.munit m).track.length < 16 →
        ((b.corrected m u).munit m).track = (b.munit m).track ++ [(u, 1)]) := by
  have hstill := b.corrected_still m u
  unfold Block.corrected at hstill ⊢
  dsimp only at hstill ⊢
  generalize hx : b.setMunit m _ = x at *
  have hvis : x.regs = b.regs := by rw [← hx]; rfl
  generalize hnoted : ((x.count Reg.MEM_CE_COUNT m).irq Blk.mem 0).eventRep m 0x0F01 m u = y at *
  have hmm : y.munit m = x.munit m := by
    rw [← hnoted, (Block.eventRep_touches ..).munit rfl, (Block.irq_touches ..).munit rfl, (Block.count_touches ..).munit rfl]
  have halters : Block.Alters remapRegs (x.count Reg.MEM_CE_COUNT m) y := hnoted ▸ .eventRep (.irq .refl (by decide))
  have hbit : y.BitAt (regKey 14 15 0 0x400) 0 := hnoted ▸ Block.eventRep_bitAt (by decide) (Block.bitAt_irq _ _ (by decide)) ..
  have htrack : (y.munit m).track = (b.munit m).track := by rw [hmm, ← hx, Block.munit_setMunit]
  refine ⟨congrArg MemUnit.lastCe hstill, congrArg MemUnit.writebacks hstill, ?_, Block.trackError_bitAt hm hbit u, fun hnew hroom => ?_⟩
  · exact Block.Alters.counts (l := []) (.of_regs .refl (by rw [hvis]) (by rw [hvis])) (halters.trans (Block.trackError_alters hm y u)) (by decide) (by decide)
      (by decide) (by omega) (by decide)
  · rw [Block.trackError_first (by rw [htrack, hnew]) (by rw [htrack]; exact hroom), Block.munit_setMunit, htrack]

/-- The registers of a memory, by their offsets. -/
theorem memKey {d : RegDesc} (hd : d.blk = 14 ∧ d.Lies) {m : Nat} (hm : m < 10) : keyBlk (d.key m 0) = 14 ∧ keyOff (d.key m 0) = d.off := by
  obtain ⟨hblk, hsp, hoff, -⟩ := hd
  exact ⟨(keyBlk_regKey hsp (by omega) hoff).trans hblk, keyOff_regKey hoff⟩

/-- The memory's record of an uncorrectable error, whatever then leaves its count and the interrupts (R327). -/
theorem Block.ueNote_done {m : Nat} (hm : m < 10) {b c : Block} {p : Nat} (hcount : Block.KeepsReg (Reg.MEM_UE_COUNT.key m 0) (b.ueNote m p) c)
    (hirq : (b.ueNote m p).BitAt (regKey 14 15 0 0x400) 1 → c.BitAt (regKey 14 15 0 0x400) 1) :
    b.counts c Reg.MEM_UE_COUNT m ∧ c.BitAt (regKey 14 15 0 0x400) 1 := by
  obtain ⟨hblk, hoff⟩ := memKey (d := Reg.MEM_UE_COUNT) (by decide) hm
  unfold Block.ueNote at hcount hirq
  dsimp only at hcount hirq
  generalize hx : b.setMunit m _ = x at *
  have hvis : x.regs.vis = b.regs.vis := by rw [← hx]; rfl
  have hnote : Block.Alters remapRegs (x.count Reg.MEM_UE_COUNT m) (((x.count Reg.MEM_UE_COUNT m).irq Blk.mem 1).event 0x0F02 m (if m = 9 then p else p / 8)) :=
    .event (.irq .refl (by decide))
  refine ⟨Block.KeepsReg.counts (.of_vis .refl hvis) ((hnote.reg _ ?_).trans hcount) ?_, hirq ?_⟩
  · rw [hblk, hoff]
    decide
  · rintro p ⟨⟩
    exact regKey_ne_of_off (by decide) (by decide) (by decide)
  · exact (Block.bitAt_irq _ _ (by decide)).keep (.event .refl (by decide))

theorem Block.ueRemap_bitAt {m : Nat} (hm : m < 10) {b : Block} {n : Nat} (h : b.BitAt (regKey 14 15 0 0x400) n) (p : Nat) :
    (b.ueRemap m p).BitAt (regKey 14 15 0 0x400) n := by
  unfold Block.ueRemap
  split
  · exact Block.remap_bitAt hm h _
  · exact h

theorem Block.ueRemap_counted {m : Nat} (hm : m < 10) (b : Block) (p : Nat) : Block.KeepsReg (Reg.MEM_UE_COUNT.key m 0) b (b.ueRemap m p) := by
  obtain ⟨hblk, hoff⟩ := memKey (d := Reg.MEM_UE_COUNT) (by decide) hm
  refine (Block.ueRemap_alters hm b p).reg _ ?_
  rw [hblk, hoff]
  decide

/-- What UNCORRECTABLE_ERROR does (R327, R328). -/
theorem Block.uncorrectable_done {m : Nat} (hm : m < 10) {b : Block} {p : Nat} (h : b.mem.poison.contains (m, p) = false) :
    (m ≠ 7 ∨ Config.engineOwner p ≠ Blk.rpl →
      (b.uncorrectable m p).mem.poison.contains (m, p) = true ∧ ∀ e ∈ b.mem.poison, e ∈ (b.uncorrectable m p).mem.poison) ∧
      b.counts (b.uncorrectable m p) Reg.MEM_UE_COUNT m ∧ (b.uncorrectable m p).BitAt (regKey 14 15 0 0x400) 1 := by
  obtain ⟨hblk, hoff⟩ := memKey (d := Reg.MEM_UE_COUNT) (by decide) hm
  have heq : b.uncorrectable m p = ((((b.ueNote m p).addPoison (m, p)).rawPoison m p).poisonReader m p).ueRemap m p := if_neg (by rw [h]; decide)
  have hread (j : Nat) (hj : keyBlk j = 14) : Block.KeepsReg j (b.ueNote m p) ((((b.ueNote m p).addPoison (m, p)).rawPoison m p).poisonReader m p) :=
    .trans (.of_vis .refl) (Block.poisonReader_keepsReg hj _ p)
  rw [heq]
  refine ⟨fun hplain => ?_, Block.ueNote_done hm ((hread _ hblk).trans (Block.ueRemap_counted hm ..))
    fun hbit => Block.ueRemap_bitAt hm (hbit.keep (hread _ (by decide))) p⟩
  have hpoison : (((((b.ueNote m p).addPoison (m, p)).rawPoison m p).poisonReader m p).ueRemap m p).mem.poison = pairIns b.mem.poison (m, p) := by
    rw [Block.ueRemap_poison, Block.poisonReader_poison _ hplain]
    exact congrArg (pairIns · (m, p)) (b.ueNote_poison m p)
  rw [hpoison, pairIns_contains]
  refine ⟨by simp, fun e he => ?_⟩
  rw [← List.contains_iff_mem, pairIns_contains, List.contains_iff_mem.mpr he, Bool.or_true]

theorem Block.poisonAt_same {x y : Block} (h : y.mem.poison = x.mem.poison) (a : Nat) : (y.poisonAt a).mem.poison = (x.poisonAt a).mem.poison := by
  unfold Block.poisonAt
  split
  · exact congrArg (pairIns · _) h
  · exact h

/-- In the host caches (Table 13.2). -/
theorem Block.hostCacheError_done (b : Block) (p : Nat) (dirty : Option Nat) :
    b.counts (b.hostCacheError p dirty) Reg.MEM_UE_COUNT 8 ∧ (b.hostCacheError p dirty).BitAt (regKey 14 15 0 0x400) 1 ∧
      (b.hostCacheError p dirty).mem.poison = (match dirty with | some a => (b.poisonAt a).mem.poison | none => b.mem.poison) := by
  have hpoison (x : Block) (a : Nat) : (x.poisonAt a).regs = x.regs := by unfold Block.poisonAt; split <;> rfl
  unfold Block.hostCacheError
  dsimp only
  cases dirty with
  | none =>
    obtain ⟨hcount, hbit⟩ := Block.ueNote_done (m := 8) (by decide) (b := b) (p := p) (Block.ueRemap_counted (by decide) _ p)
      fun hbit => Block.ueRemap_bitAt (by decide) hbit p
    exact ⟨hcount, hbit, (Block.ueRemap_poison ..).trans (b.ueNote_poison 8 p)⟩
  | some a =>
    have hkeep (j : Nat) : Block.KeepsReg j (b.ueNote 8 p) ((b.ueNote 8 p).poisonAt a) := .of_vis .refl (by rw [hpoison])
    obtain ⟨hcount, hbit⟩ := Block.ueNote_done (m := 8) (by decide) (b := b) (p := p) ((hkeep _).trans (Block.ueRemap_counted (by decide) _ p))
      fun hbit => Block.ueRemap_bitAt (by decide) (hbit.keep (hkeep _)) p
    exact ⟨hcount, hbit, (Block.ueRemap_poison ..).trans (Block.poisonAt_same (b.ueNote_poison 8 p) a)⟩

/-! ### The correction written back (R327) -/

section writeback
variable {b : Block} {n : Nat} {x : MemUnit} (hx : x.remaps = (b.munit n).remaps)
include hx

theorem Block.setMunit_remaps (m : Nat) : ((b.setMunit n x).munit m).remaps = (b.munit m).remaps := by
  by_cases hm : m = n
  · subst hm
    rw [Block.munit_setMunit, hx]
  · rw [Block.munit_setMunit_other _ _ hm]

theorem Block.setMunit_spareOf (m u : Nat) : (b.setMunit n x).spareOf m u = b.spareOf m u := by
  unfold Block.spareOf
  simp only [Block.setMunit_remaps hx]

theorem Block.setMunit_unitData (m u : Nat) : (b.setMunit n x).unitData m u = b.unitData m u := by
  unfold Block.unitData
  simp only [Block.setMunit_spareOf hx]
  rfl

theorem Block.setMunit_putUnit (m u d : Nat) : (b.setMunit n x).putUnit m u d = (b.putUnit m u d).setMunit n x := by
  have hbus : (b.setMunit n x).putBusUnit m u d = (b.putBusUnit m u d).setMunit n x := by
    unfold Block.putBusUnit
    rw [Block.setMunit_spareOf hx]
    rfl
  unfold Block.putUnit
  split
  · split <;> rfl
  · rw [show (b.setMunit n x).bitmapAt u = b.bitmapAt u from rfl]
    split <;> rfl
  · rw [show (b.setMunit n x).itemAt u = b.itemAt u from rfl]
    split <;> rfl
  · exact hbus
  · exact hbus
  · exact hbus
  · rfl

theorem Block.setMunit_setRaw (m u : Nat) (r : Nat × Nat) : ((b.setMunit n x).setRaw m u r).mem = (b.setRaw m u r).mem := by
  unfold Block.setRaw
  rw [Block.setMunit_remaps hx, Block.setMunit_unitData hx, Block.setMunit_putUnit hx]
  generalize hput : b.putUnit m u _ = y
  have hmm : y.mm = b.mm := by rw [← hput]; exact (Block.putUnit_touches ..).keeps .mm rfl
  have hy : x.remaps = (y.munit n).remaps := by rw [hx, Block.munit, Block.munit, hmm]
  dsimp only
  split
  · rw [Block.setMunit_unitData hx]
    rfl
  · rw [Block.setMunit_unitData hy]
    rfl

theorem Block.setMunit_correctUnit (m u : Nat) : ((b.setMunit n x).correctUnit m u).mem = (b.correctUnit m u).mem := by
  have hraw : (b.setMunit n x).rawAt m u = b.rawAt m u := by
    unfold Block.rawAt
    rw [show Tbl.get (b.setMunit n x).mm.units m MemUnit.reset = (b.setMunit n x).munit m from rfl, Block.setMunit_remaps hx]
    rfl
  unfold Block.correctUnit
  rw [hraw]
  cases b.rawAt m u with
  | none => rfl
  | some r =>
    dsimp only
    split
    · split
      · rfl
      · exact Block.setMunit_setRaw hx ..
    · exact Block.setMunit_setRaw hx ..

end writeback

theorem Block.writeback_done {b : Block} {m u : Nat} {r : List Nat} (h : (b.munit m).writebacks = u :: r) :
    ((b.writeback m).munit m).writebacks = r ∧ (b.writeback m).mem = (b.correctUnit m u).mem := by
  have heq : b.writeback m = (b.setMunit m { b.munit m with writebacks := r }).correctUnit m u := by
    unfold Block.writeback
    dsimp only
    rw [h]
    rfl
  have hremaps : ({ b.munit m with writebacks := r } : MemUnit).remaps = (b.munit m).remaps := rfl
  have hwritebacks : ({ b.munit m with writebacks := r } : MemUnit).writebacks = r := rfl
  rw [heq]
  generalize { b.munit m with writebacks := r } = x at *
  refine ⟨?_, Block.setMunit_correctUnit hremaps m u⟩
  rw [(Block.correctUnit_touches ..).munit rfl, Block.munit_setMunit, hwritebacks]

/-! ### The scrubber (R332, R333) -/

theorem Block.uncorrectable_pos (b : Block) (m p : Nat) : ((b.uncorrectable m p).munit m).pos = (b.munit m).pos := by
  cases h : b.mem.poison.contains (m, p) with
  | false =>
    have hpos := congrArg MemUnit.pos (b.uncorrectable_still m p h)
    exact hpos
  | true => rw [show b.uncorrectable m p = b from if_pos h]

theorem Block.unitFound_pos (b : Block) (m u lo n : Nat) : ((b.unitFound m u lo n).munit m).pos = (b.munit m).pos := by
  unfold Block.unitFound
  split
  · rfl
  · extract_lets reads parts mine fixed found
    have hfound : (found.munit m).pos = (b.munit m).pos := by
      show (((if _ then _ else b : Block)).munit m).pos = _
      split
      · have hpos := congrArg MemUnit.pos (b.corrected_still m u)
        exact hpos
      · rfl
    refine List.foldlRecOn (motive := fun c : Block => (c.munit m).pos = (b.munit m).pos) mine _ hfound fun c hc e _ => ?_
    split
    · exact (c.uncorrectable_pos m _).trans hc
    · exact hc

theorem Block.scrubWriteback_pos (b : Block) (m u : Nat) : ((b.scrubWriteback m u).munit m).pos = (b.munit m).pos := by
  unfold Block.scrubWriteback
  dsimp only
  split
  · rw [(Block.correctUnit_touches ..).munit rfl, Block.munit_setMunit]
  · rfl

/-- A hand-over leaves a register that has no shadow. -/
theorem Block.memHandover_reads {j : Nat} (hmask : Reg.rwsMask j = 0) (hj : keyBlk j = 14) (hoff : keyOff j ≠ 0x400) (b : Block) (m : Nat) :
    Tbl.get (b.memHandover m).regs.vis j (Reg.rstOf j) = Tbl.get b.regs.vis j (Reg.rstOf j) := by
  unfold Block.memHandover
  refine Block.handover_induction (P := fun c => Tbl.get c.regs.vis j (Reg.rstOf j) = Tbl.get b.regs.vis j (Reg.rstOf j)) (fun _ _ => rfl)
    (fun c s _ hc => ?_) (fun c k hc => ?_)
  · refine List.foldlRecOn (motive := fun v : Tbl Word => Tbl.get v j (Reg.rstOf j) = Tbl.get b.regs.vis j (Reg.rstOf j)) s _ hc fun v hv e _ => ?_
    dsimp only
    split
    · exact hv
    · by_cases he : e.1 = j
      · subst he
        rw [Tbl.get_put_same, hmask, show ~~~(0 : Word) = BitVec.allOnes 32 from rfl, BitVec.and_allOnes, show (0 : Word) = 0#32 from rfl,
          BitVec.and_zero, BitVec.or_zero]
        exact hv
      · rw [Tbl.get_put_other _ _ _ _ _ _ (Ne.symm he)]
        exact hv
  · have hirq : j ≠ regKey 14 15 0 0x400 := by
      rintro rfl
      exact hoff (keyOff_regKey (by decide))
    exact ((Block.KeepsReg.event (.raiseBit (.refl (a := c)) hirq) (by omega)).reads _).trans hc

/-- The laps' counter has no shadow. -/
theorem scrubLaps_plain {m : Nat} (hm : m < 10) : Reg.rwsMask (Reg.MEM_SCRUB_LAPS.key m 0) = 0 ∧
    Reg.rstOf (Reg.MEM_SCRUB_LAPS.key m 0) = Reg.MEM_SCRUB_LAPS.rst m 0 := by
  obtain ⟨hblk, hoff⟩ := memKey (d := Reg.MEM_SCRUB_LAPS) (by decide) hm
  have hspace : keySpace (Reg.MEM_SCRUB_LAPS.key m 0) = 0 := by
    show keySpace (regKey 14 0 m 0x68) = 0
    unfold keySpace regKey
    omega
  have hinst : keyInst (Reg.MEM_SCRUB_LAPS.key m 0) = m := by
    show keyInst (regKey 14 0 m 0x68) = m
    unfold keyInst regKey
    omega
  have hfind : Reg.find (keyBlk (Reg.MEM_SCRUB_LAPS.key m 0)) (keySpace (Reg.MEM_SCRUB_LAPS.key m 0)) (keyOff (Reg.MEM_SCRUB_LAPS.key m 0)) =
      some (Reg.MEM_SCRUB_LAPS, 0) := by
    rw [hblk, hspace, hoff]
    decide +kernel
  rw [Reg.rwsMask, Reg.rstOf, hfind, hinst]
  exact ⟨by decide, rfl⟩

/-- What the scrubber's read of the next unit leaves. -/
def Block.scrubRead (b : Block) (m : Nat) : Block :=
  let at_ := (b.munit m).pos
  if at_ < Mem.size m then (b.unitFound m at_ (8 * at_) 8).scrubWriteback m at_ else b

theorem Block.scrubRead_pos (b : Block) (m : Nat) : ((b.scrubRead m).munit m).pos = (b.munit m).pos := by
  unfold Block.scrubRead
  dsimp only
  split
  · rw [Block.scrubWriteback_pos, Block.unitFound_pos]
  · rfl

theorem Block.scrubRead_t7 (b : Block) (m : Nat) : (b.scrubRead m).t7 = b.t7 := by
  unfold Block.scrubRead
  dsimp only
  split
  · exact ((Block.scrubWriteback_touches ..).keeps .t7 rfl).trans ((Block.unitFound_touches ..).keeps .t7 rfl)
  · rfl

theorem Block.scrubRead_laps {m : Nat} (hm : m < 10) (b : Block) : Block.KeepsReg (Reg.MEM_SCRUB_LAPS.key m 0) b (b.scrubRead m) := by
  obtain ⟨hblk, hoff⟩ := memKey (d := Reg.MEM_SCRUB_LAPS) (by decide) hm
  have hvis (c : Block) (u : Nat) : (c.scrubWriteback m u).regs.vis = c.regs.vis := congrArg Prod.fst ((Block.scrubWriteback_touches ..).keeps .vis rfl)
  exact .ite (.of_vis (Block.unitFound_keepsReg hm hblk (by rw [hblk, hoff]; decide) b _ _ _) (hvis _ _)) .refl

/-- Within a lap. -/
theorem Block.scrubStep_next {m : Nat} {b : Block} (h : b.cb Reg.MEM_SCRUB_CFG m 31 = false)
    (hmore : (b.munit m).pos + 1 < Mem.size m + (if m = 9 then 0 else (Mem.spares m).2)) : ((b.scrubStep m).munit m).pos = (b.munit m).pos + 1 := by
  have heq : b.scrubStep m = (b.scrubRead m).setMunit m { (b.scrubRead m).munit m with pos := ((b.scrubRead m).munit m).pos + 1 } :=
    (if_neg (by rw [h]; decide)).trans (if_pos (show ((b.scrubRead m).munit m).pos + 1 < _ by rwa [b.scrubRead_pos m]))
  rw [heq, Block.munit_setMunit, ← b.scrubRead_pos m]

/-- At its end (R332, R352). -/
theorem Block.scrubStep_lap {m : Nat} (hm : m < 10) {b : Block} (h : b.cb Reg.MEM_SCRUB_CFG m 31 = false)
    (hend : ¬(b.munit m).pos + 1 < Mem.size m + (if m = 9 then 0 else (Mem.spares m).2)) :
    ((b.scrubStep m).munit m).pos = 0 ∧ ((b.scrubStep m).munit m).lapStart = b.t7 ∧ ((b.scrubStep m).munit m).forced = false ∧
      b.counts (b.scrubStep m) Reg.MEM_SCRUB_LAPS m := by
  obtain ⟨hblk, hoff⟩ := memKey (d := Reg.MEM_SCRUB_LAPS) (by decide) hm
  obtain ⟨hmask, hrst⟩ := scrubLaps_plain hm
  have hkeep := Block.scrubRead_laps hm b
  have ht7 := b.scrubRead_t7 m
  have hpos := b.scrubRead_pos m
  obtain ⟨x, hzero, hstart, hforced, p, hp, heq⟩ : ∃ x : MemUnit, x.pos = 0 ∧ x.lapStart = (b.scrubRead m).t7 ∧ x.forced = false ∧ ∃ p, ∃ _ : Decidable p,
      b.scrubStep m = (if p then (((b.scrubRead m).setMunit m x).count Reg.MEM_SCRUB_LAPS m).event 0x0F06 m
        else ((b.scrubRead m).setMunit m x).count Reg.MEM_SCRUB_LAPS m).memHandover m :=
    ⟨_, rfl, rfl, rfl, _, _, (if_neg (by rw [h]; decide)).trans (if_neg (show ¬((b.scrubRead m).munit m).pos + 1 < _ by rwa [hpos]))⟩
  generalize hcounted : ((b.scrubRead m).setMunit m x).count Reg.MEM_SCRUB_LAPS m = c at *
  have hcmunit : c.munit m = x := by rw [← hcounted, (Block.count_touches ..).munit rfl, Block.munit_setMunit]
  have hover (y : Block) (hy : Block.KeepsReg (Reg.MEM_SCRUB_LAPS.key m 0) c y) (hmunit : y.munit m = c.munit m) :
      (y.memHandover m).munit m = x ∧ b.counts (y.memHandover m) Reg.MEM_SCRUB_LAPS m := by
    have hreads := y.memHandover_reads hmask hblk (by rw [hoff]; decide) m
    have hcounts : b.counts y Reg.MEM_SCRUB_LAPS m := by
      refine Block.KeepsReg.counts (x := (b.scrubRead m).setMunit m x) (.of_vis hkeep) (hcounted ▸ hy) ?_
      rintro p ⟨⟩
      exact regKey_ne_of_off (by decide) (by decide) (by decide)
    rw [hrst] at hreads
    exact ⟨((Block.memHandover_touches ..).munit rfl m).trans (hmunit.trans hcmunit), (congrArg BitVec.toNat hreads).trans hcounts⟩
  have hdone : (b.scrubStep m).munit m = x ∧ b.counts (b.scrubStep m) Reg.MEM_SCRUB_LAPS m := by
    rw [heq]
    split
    · exact hover _ (.event .refl (by omega)) ((Block.event_touches ..).munit rfl m)
    · exact hover _ .refl rfl
  rw [hdone.1, hzero, hstart, hforced, ht7]
  exact ⟨rfl, rfl, rfl, hdone.2⟩

/-- What SCRUB_STARVED does (R333). -/
theorem Block.scrubStarved_done {m : Nat} {b : Block} (h : (b.munit m).forced = false) (hlong : b.lapLimit m < b.t7 - (b.munit m).lapStart) :
    ((b.scrubStarved m).munit m).starved = true ∧ ((b.scrubStarved m).munit m).forced = true ∧ (b.scrubStarved m).BitAt (regKey 14 15 0 0x400) 2 := by
  have heq : b.scrubStarved m = ((b.setMunit m { b.munit m with starved := true, forced := true }).irq Blk.mem 2).event 0x0F05 m := if_pos ⟨h, hlong⟩
  have hmunit : (b.scrubStarved m).munit m = { b.munit m with starved := true, forced := true } := by
    rw [heq, (Block.event_touches ..).munit rfl, (Block.irq_touches ..).munit rfl, Block.munit_setMunit]
  rw [hmunit, heq]
  exact ⟨rfl, rfl, (Block.bitAt_irq _ _ (by decide)).keep (.event .refl (by decide))⟩

/-! ### Remaps (R329 to R331) -/

/-- The unit moved to a spare. -/
def Block.moveUnit (b : Block) (m u s : Nat) : Block :=
  let q := b.rawOf m u
  let b := q.2.keepRaw m u q.1
  let x := b.munit m
  b.setMunit m { x with remaps := x.remaps ++ [(u, Mem.array m u, s)], track := x.track.filter (fun e => e.1 != u) }

/-- The entry's bytes before their CRC. -/
def remapBytes (m u s : Nat) : List Byte := leBytes 8 (m * 2 ^ 56 + Mem.array m u * 2 ^ 44 + s * 2 ^ 32 + u) ++ leBytes 4 0x50414D52

/-- The next free entry of the table written, where there is one. -/
def Block.writeRemap (b : Block) (e : List Byte) : Block :=
  if b.mm.remapNext < 1024 then
    let n := b.mm.remapNext
    { b.store (0x407F4000 + 16 * n) (e ++ leBytes 4 (crc32 e)) with mm := { b.mm with remapNext := n + 1 } }
  else b

theorem Block.remap_of_free {b : Block} {m u s : Nat} (h : b.freeSpare m (Mem.array m u) = some s) :
    b.remap m u = (((b.moveUnit m u s).writeRemap (remapBytes m u s)).count Reg.MEM_REMAPS m).event 0x0F03 m u s := by
  unfold Block.remap
  dsimp only
  rw [h]
  rfl

theorem Block.moveUnit_mm (b : Block) (m u s : Nat) : ((b.moveUnit m u s).munit m).remaps = (b.munit m).remaps ++ [(u, Mem.array m u, s)] ∧
    (b.moveUnit m u s).mm.remapNext = b.mm.remapNext ∧ (b.moveUnit m u s).regs.vis = b.regs.vis ∧ (b.moveUnit m u s).regs.act = b.regs.act := by
  have hraw := b.rawOf_touches m u
  unfold Block.moveUnit
  generalize b.rawOf m u = q at *
  have hmm : q.2.mm = b.mm := hraw.keeps .mm rfl
  have hmunit : (q.2.keepRaw m u q.1).munit m = b.munit m := hraw.munit rfl m
  have hnext := congrArg MemBlk.remapNext hmm
  refine ⟨?_, hnext, congrArg Prod.fst (hraw.keeps .vis rfl), hraw.keeps .act rfl⟩
  dsimp only
  rw [Block.munit_setMunit, hmunit]

theorem Block.writeRemap_rest (b : Block) (e : List Byte) : (∀ m, (b.writeRemap e).munit m = b.munit m) ∧ (b.writeRemap e).regs = b.regs := by
  unfold Block.writeRemap
  split
  · exact ⟨fun _ => rfl, rfl⟩
  · exact ⟨fun _ => rfl, rfl⟩

theorem Block.load_take (b : Block) (a : Nat) {m n : Nat} (h : m ≤ n) : b.load a m = (b.load a n).take m := by
  unfold Block.load
  rw [← List.map_take, List.take_range, Nat.min_eq_left h]

/-- The entry's bytes at its place. -/
theorem Block.writeRemap_entry {b : Block} (h : b.mm.remapNext < 1024) {e : List Byte} (he : e.length = 12) :
    (b.writeRemap e).mm.remapNext = b.mm.remapNext + 1 ∧ (b.writeRemap e).load (0x407F4000 + 16 * b.mm.remapNext) 12 = e := by
  have hlen : (e ++ leBytes 4 (crc32 e)).length = 16 := by rw [List.length_append, he, leBytes_length]
  have hstored (a : Nat) : (b.store a (e ++ leBytes 4 (crc32 e))).load a 12 = e := by
    rw [Block.load_take _ _ (show 12 ≤ 16 by decide), Block.load_store_same _ _ _ hlen]
    exact List.take_left' he
  unfold Block.writeRemap
  rw [if_pos h]
  dsimp only
  generalize 0x407F4000 + 16 * b.mm.remapNext = a
  refine ⟨rfl, (Block.load_of_cells ?_ _ _).trans (hstored a)⟩
  rfl

/-- What a remap to a free spare does. -/
theorem Block.remap_done {m : Nat} (hm : m < 10) {b : Block} {u p : Nat} (h : b.freeSpare m (Mem.array m u) = some p) :
    ((b.remap m u).munit m).remaps = (b.munit m).remaps ++ [(u, Mem.array m u, p)] ∧ b.counts (b.remap m u) Reg.MEM_REMAPS m ∧
      (b.mm.remapNext < 1024 → (b.remap m u).mm.remapNext = b.mm.remapNext + 1 ∧
        (b.remap m u).load (0x407F4000 + 16 * b.mm.remapNext) 12 = remapBytes m u p) := by
  have hlen : (remapBytes m u p).length = 12 := by simp [remapBytes, leBytes_length]
  obtain ⟨hremaps, hnext, hvis, hact⟩ := b.moveUnit_mm m u p
  rw [Block.remap_of_free h]
  generalize b.moveUnit m u p = x at *
  obtain ⟨hunits, hregs⟩ := x.writeRemap_rest (remapBytes m u p)
  have hentry (hroom : x.mm.remapNext < 1024) := Block.writeRemap_entry hroom hlen
  generalize x.writeRemap (remapBytes m u p) = y at *
  have hafter : Touches [.vis, .evr] y ((y.count Reg.MEM_REMAPS m).event 0x0F03 m u p) :=
    (Touches.refl.trans (Block.count_touches ..) rfl).trans (Block.event_touches ..) rfl
  refine ⟨?_, ?_, fun hroom => ?_⟩
  · rw [hafter.munit rfl, hunits, hremaps]
  · exact Block.Alters.counts (l := []) (l' := eventRegs) (.of_regs .refl (by rw [hregs, hvis]) (by rw [hregs, hact])) (.event .refl) (by decide)
      (by decide) (by decide) (by omega) (by decide)
  · rw [← hnext] at hroom ⊢
    rw [hafter.keeps .mm rfl, hafter.load rfl]
    exact hentry hroom

theorem Block.load8_erased (b : Block) {a lo n : Nat} (hlo : lo ≤ a) (hhi : a < lo + n) : (b.store lo (List.replicate n 0)).load8 a = 0 := by
  rw [Block.load8_store, List.length_replicate, if_pos ⟨hlo, hhi⟩, List.getD_replicate _ (by omega)]

theorem Block.remapErase_done {b : Block} (h : b.sys.mode = .maintenance) : b.remapErase.mm.remapNext = 0 ∧
    ∀ a, 0x407F4000 ≤ a → a < 0x407F8000 → b.remapErase.load8 a = 0 := by
  have heq : b.remapErase = { b.store 0x407F4000 (List.replicate 16384 0) with mm := { b.mm with remapNext := 0 } } := by
    unfold Block.remapErase
    rw [if_pos h]
  have hcells : b.remapErase.mem.cells = (b.store 0x407F4000 (List.replicate 16384 0)).mem.cells := by rw [heq]
  refine ⟨by rw [heq], fun a hlo hhi => ?_⟩
  have hload : b.remapErase.load8 a = (b.store 0x407F4000 (List.replicate 16384 0)).load8 a :=
    congrArg (fun m => cellGet m a Mem.blank) hcells
  exact hload.trans (b.load8_erased (n := 16384) hlo (by omega))

/-- Settles O35: what each operation does of the memory's state by the lemmas above, the registers by the sets that errors and remaps change. -/
theorem memoriesTrackTheirErrors : Obligations.MemoriesTrackTheirErrors := by
  refine ⟨fun t m u s hm => ?_, fun t m p s hm hhost hnew => ?_, fun t m p s hm hhost hold => ?_, fun t p s => ?_, fun t m u r s hm hwait => ?_,
    fun t m s hm hruns => ?_, fun t m s hm hforced hlong => ?_, fun t m n u p s hmay hn hn10 hu husize hspare => ?_, fun t m s hmay hmode => ?_⟩
  · obtain ⟨hce, hwait, hcount, hbit, htrack⟩ := Block.corrected_done hm (s.at t) u
    exact Completes.runIf (f := fun b => b.corrected m u) rfl (decide_eq_true hm) ⟨hce, hwait, hcount, hbit, htrack⟩
  · obtain ⟨hpoison, hcount, hbit⟩ := Block.uncorrectable_done hm (b := s.at t) hnew
    have hlast := congrArg MemUnit.lastUe ((s.at t).uncorrectable_still m p.unit hnew)
    refine Completes.runIf (f := fun b => if m = 8 then b.hostCacheError p.unit p.dirty else b.uncorrectable m p.unit) rfl (decide_eq_true hm) ?_
    rw [if_neg hhost]
    exact ⟨hpoison, hcount, hbit, hlast⟩
  · refine Completes.runIf (f := fun b => if m = 8 then b.hostCacheError p.unit p.dirty else b.uncorrectable m p.unit) rfl (decide_eq_true hm) ?_
    rw [if_neg hhost]
    exact if_pos hold
  · obtain ⟨hcount, hbit, hpoison⟩ := (s.at t).hostCacheError_done p.unit p.dirty
    refine Completes.runIf (f := fun b => b.hostCacheError p.unit p.dirty) rfl rfl ⟨hcount, hbit, hpoison.trans ?_⟩
    cases p.dirty with
    | none => rfl
    | some a => exact Block.poisonAt_same (x := s.blk) (y := s.at t) rfl a
  · exact Completes.runIf (f := fun b => b.writeback m) rfl (decide_eq_true hm) (Block.writeback_done hwait)
  · refine Completes.runIf (f := fun b => b.scrubStep m) rfl (decide_eq_true hm) ?_
    by_cases hmore : (s.blk.munit m).pos + 1 < Mem.size m + (if m = 9 then 0 else (Mem.spares m).2)
    · rw [if_pos hmore]
      exact Block.scrubStep_next (b := s.at t) hruns hmore
    · rw [if_neg hmore]
      exact Block.scrubStep_lap hm (b := s.at t) hruns hmore
  · exact Completes.runIf (f := fun b => b.scrubStarved m) rfl (decide_eq_true hm) (Block.scrubStarved_done hforced hlong)
  · subst hn hu
    have heq : (s.at t).remapCmd m = (s.at t).remap (s.blk.memSel m) (s.blk.vis Reg.MEM_REMAP_ADDR).toNat := if_pos ⟨hn10, husize⟩
    refine Completes.byGlobal (fun b => b.remapCmd m) rfl hmay (by decide) ?_
    rw [heq]
    exact Block.remap_done hn10 (b := s.at t) hspare
  · exact Completes.byGlobal (fun b => b.remapErase) rfl hmay (by decide) (Block.remapErase_done (b := s.at t) hmode)

end Sys2Proof.Machine
end

section
/-! PROOFS. What the end of a ring's run and of a partner's service changes of the registers, and what it leaves of the output (R92, R384). -/

/- One declaration after the other: the text is checked as one, with room for few threads. -/
set_option Elab.async false

namespace Sys2Proof.Machine

/-! ### Registers at the end of a ring's run -/

/-- Registers that the end of a ring's run may change: those of the engine, of its basins and of the alarms that it still evaluates. -/
def stopRegs : RegSet :=
  .all Blk.dfe :: .all Blk.aln :: (Reg.ALN_CTX_TOO_LATE.offs ++ Reg.ALM_DEF_HELD.offs ++ pubRegs)

section stop
variable {a b : Block} (h : Block.Alters stopRegs a b)
include h

theorem Block.Alters.staleGen {gen tag : Nat} : Block.Alters stopRegs a (b.staleGen gen tag) :=
  .eventRep (h.countBlk (by decide) (by decide) (by decide))

theorem Block.Alters.sluiceHold {tag : Nat} : Block.Alters stopRegs a (b.sluiceHold tag) := by
  have hc : Block.Alters stopRegs a (b.count Reg.DFE_SLUICE_HOLDS) := h.countBlk (by decide) (by decide) (by decide)
  exact .ite hc (.eventRep (.irq hc.of_regs (by decide)))

theorem Block.Alters.matchToken {t : Token} : Block.Alters stopRegs a (b.matchToken t) := by
  have hc : Block.Alters stopRegs a (((b.count Reg.DFE_MATCH_COLLIDE).irq Blk.dfe 5).eventRep t.op 0x0A06 0xFFFF (genTag t.gen t.tag)) :=
    .eventRep (.irq (h.countBlk (by decide) (by decide) (by decide)) (by decide))
  unfold Block.matchToken
  refine .ite h.staleGen ?_
  split
  · exact .ite hc (.ite hc (.touched hc.of_regs (Block.matchTokenPlace_touches ..)))
  · exact h.touched (Block.matchTokenPlace_touches ..)

theorem Block.Alters.offerToken {cls : Nat} {t : Token} : Block.Alters stopRegs a (b.offerToken cls t) := .ite h.matchToken (.sluiceHold h.of_regs)

theorem Block.Alters.carryPorts {f : Firing} {ports : List Nat} : Block.Alters stopRegs a (b.carryPorts f ports) :=
  h.fold _ (fun _ _ hx => hx.offerToken)

theorem Block.Alters.carryOn {f : Firing} : Block.Alters stopRegs a (b.carryOn f) := by
  unfold Block.carryOn
  split
  · exact h
  · exact h.carryPorts

theorem Block.Alters.expireQueued {f : Firing} : Block.Alters stopRegs a (b.expireQueued f) := by
  unfold Block.expireQueued
  split
  · exact h
  · exact h.carryOn.countBlk (by decide) (by decide) (by decide)

theorem Block.Alters.expireRunning {c : Nat} {f : Firing} : Block.Alters stopRegs a (b.expireRunning c f) := by
  have hc (n : Nat) : Block.Alters stopRegs a (b.count Reg.DFE_EXPIRED_TOKENS 0 0 n) := h.countBlk (by decide) (by decide) (by decide)
  unfold Block.expireRunning
  refine .ite (.carryOn h.of_regs) ?_
  dsimp only
  split
  · exact (hc _).touched (Block.coreFree_touches ..)
  · exact (hc _).carryPorts.touched (Block.coreFree_touches ..)

theorem Block.Alters.missed {r seq : Nat} : Block.Alters stopRegs a (b.missed r seq) := by
  have hc : Block.Alters stopRegs a ((b.count Reg.DFE_DEADLINE_MISS).irq Blk.dfe 0) := .irq (h.countBlk (by decide) (by decide) (by decide)) (by decide)
  exact (Block.Alters.ite hc.event hc).of_regs

theorem Block.Alters.missEnd {r tag : Nat} : Block.Alters stopRegs a (b.missEnd r tag) := .ite h (.event h.of_regs)

theorem Block.Alters.holdDef {seq d : Nat} : Block.Alters stopRegs a (b.holdDef seq d) := .countAny h.of_regs (by decide) (by decide)

theorem Block.Alters.almDeliver {r seq : Nat} : Block.Alters stopRegs a (b.almDeliver r seq) :=
  ((h.touched (Block.almNote_touches b)).touched (Block.almPins_touches _)).trans (Block.Alters.pubUpdate .refl)

theorem Block.Alters.almExpire {r seq : Nat} : Block.Alters stopRegs a (b.almExpire r seq) := by
  have hheld (l : List Nat) : Block.Alters stopRegs a (l.foldl (fun b d => b.holdDef seq d) b) := h.fold _ (fun _ _ hx => hx.holdDef)
  exact .ite (hheld _) (.almDeliver ((hheld _).countBlk (by decide) (by decide) (by decide)))

theorem Block.Alters.expireTag {r seq : Nat} : Block.Alters stopRegs a (b.expireTag r seq) := by
  have hnow := h.touched (Block.coresNow_touches b)
  unfold Block.expireTag
  extract_lets now tag mine own isCarry next toks held waits queued running miss gone dfe cut counted matched waited ran ended
  have hcut : Block.Alters stopRegs a cut := hnow.of_regs
  have hcounted : Block.Alters stopRegs a counted := .ite hcut (hcut.countBlk (by decide) (by decide) (by decide))
  have hmatched : Block.Alters stopRegs a matched := hcounted.fold _ (fun _ _ hx => hx.matchToken)
  have hwaited : Block.Alters stopRegs a waited := hmatched.fold _ (fun _ _ hx => hx.expireQueued)
  have hran : Block.Alters stopRegs a ran := hwaited.fold _ (fun _ _ hx => hx.expireRunning)
  have hended : Block.Alters stopRegs a ended := .ite hran.missed hran.missEnd
  exact hended.almExpire

theorem Block.Alters.endAnalysis {r : Nat} : Block.Alters stopRegs a (b.endAnalysis r) := by
  unfold Block.endAnalysis
  extract_lets expired n held ended y
  have hexpired : Block.Alters stopRegs a expired := by
    simp only [expired]
    split
    · exact h.expireTag
    · exact h
  have hheld : Block.Alters stopRegs a held := .ite hexpired hexpired.almExpire
  exact hheld.of_regs

theorem Block.Alters.tooLate {c : Nat} : Block.Alters stopRegs a (b.tooLate c) :=
  .eventRep (.irq (.countBlk (.countAny h (by decide) (by decide)) (by decide) (by decide) (by decide)) (by decide))

theorem Block.Alters.cancelClaims {r seq : Nat} : Block.Alters stopRegs a (b.cancelClaims r seq) :=
  .fold _ h.of_regs (fun _ _ hx => hx.tooLate)

theorem Block.Alters.freeBasin {r p : Nat} : Block.Alters stopRegs a (b.freeBasin r p) :=
  .ite h (.touched (.cancelClaims h.of_regs) (Block.outDrop_touches ..))

theorem Block.Alters.freeRing {r : Nat} : Block.Alters stopRegs a (b.freeRing r) :=
  .touched (h.fold _ (fun _ _ hx => hx.freeBasin)) (Block.cmpRestart_touches ..)

theorem Block.Alters.ringStop {r : Nat} : Block.Alters stopRegs a (b.ringStop r) :=
  h.endAnalysis.freeRing.touched (Block.setRing_touches ..)

end stop

theorem Block.ringsStop_alters (b : Block) : Block.Alters stopRegs b b.ringsStop := .ringStop (.ringStop .refl)

/-! ### Registers at the end of a partner's service -/

/-- Registers that a role change and the end of service may change. -/
def serveRegs : RegSet := .all Blk.prt :: (stopRegs ++ modeRegs)

theorem Block.setRole_alters (b : Block) (r : Nat) : Block.Alters pushRegs b (b.setRole r) := by
  unfold Block.setRole
  exact .ite .refl (.push (.of_regs .refl))

theorem Block.vmac_alters (b : Block) (on : Bool) : Block.Alters [.all Blk.prt] b (b.vmac on) := by
  refine List.foldlRecOn _ _ .refl (fun x hx u hu => ?_)
  have hport : 24 + u < 1048576 := by
    have := List.mem_range.mp hu
    omega
  exact .touched (.setVis (.setVis hx (by decide) (by decide) hport) (by decide) (by decide) hport) (Block.filterCommit_touches ..)

theorem Block.serveStop_alters (b : Block) : Block.Alters [.all Blk.prt] b b.serveStop :=
  (Block.Alters.touched .refl (Block.sessDrop_touches b)).of_regs.trans (Block.vmac_alters ..)

/-- To STANDBY: out of a mode of service by a change of mode, else with the pins and publishers alone. -/
theorem Block.toStandby_cases (b : Block) (r : Nat) :
    b.toStandby r = (({ b with red := b.red.idle } : Block).setRole r).setMode .standby 0 ∨ b.toStandby r = (({ b with red := b.red.idle } : Block).setRole r).almMode := by
  unfold Block.toStandby
  extract_lets x
  split
  case h_5 => exact .inr rfl
  all_goals exact .inl rfl

theorem Block.toStandby_alters (b : Block) (r : Nat) : Block.Alters modeRegs b (b.toStandby r) := by
  have hrole : Block.Alters modeRegs b (({ b with red := b.red.idle } : Block).setRole r) :=
    .trans (.of_regs .refl) (Block.setRole_alters ..)
  rcases b.toStandby_cases r with hmode | hsame
  · exact hmode ▸ hrole.trans (Block.setMode_alters ..)
  · exact hsame ▸ hrole.trans (Block.Alters.almMode .refl)

/-- What the fence and the yield do before the fence counts. -/
theorem Block.standDown_alters (b : Block) (r : Nat) : Block.Alters serveRegs b ((b.serveStop.redFail.ringsStop).toStandby r) :=
  (((b.serveStop_alters.mono).trans (Block.redFail_alters _)).trans (Block.ringsStop_alters _)).trans (Block.toStandby_alters ..)

theorem Block.redYield_alters (b : Block) : Block.Alters serveRegs b b.redYield := .ite (Block.standDown_alters b 2) .refl

/-! ### The pair's state -/

/-- Of the pair's state only what was sent at this instant differs. -/
def Block.OnlySends (a b : Block) : Prop := ∃ o, b.red = { a.red with out := o }

section sends
variable {a b c : Block}

theorem Block.OnlySends.of_same (e : b.red = a.red) : Block.OnlySends a b := ⟨a.red.out, e⟩

theorem Block.OnlySends.refl : Block.OnlySends a a := .of_same rfl

theorem Block.OnlySends.trans (h : Block.OnlySends a b) (k : Block.OnlySends b c) : Block.OnlySends a c := by
  obtain ⟨o, ho⟩ := h
  obtain ⟨o', ho'⟩ := k
  exact ⟨o', by rw [ho', ho]⟩

theorem Block.OnlySends.touched {t : List Part} (h : Block.OnlySends a b) (k : Touches t b c) (ht : t.contains .red = false := by rfl) :
    Block.OnlySends a c := h.trans (.of_same (k.keeps .red ht))

end sends

theorem Block.redSend_onlySends (b : Block) (path type seq : Nat) : Block.OnlySends b (b.redSend path type seq) := by
  unfold Block.redSend
  dsimp only
  split
  · exact .refl
  · have hsent (x : Block) (hx : x.red = b.red) (m : List Byte) : Block.OnlySends b (x.redNote path m) :=
      (Block.OnlySends.of_same hx).trans ⟨_, rfl⟩
    refine hsent _ ?_ _
    split
    · exact (Block.mirrorSend_touches ..).keeps .red rfl
    · rfl

theorem Block.redSendBoth_onlySends (b : Block) (type : Nat) : Block.OnlySends b (b.redSendBoth type) :=
  (Block.redSend_onlySends ..).trans (Block.redSend_onlySends ..)

theorem Block.redFail_onlySends (b : Block) : Block.OnlySends b b.redFail := by
  unfold Block.redFail
  split
  · exact (Block.redSendBoth_onlySends b 3).touched (Block.event_touches ..)
  · exact .refl

theorem Block.setMode_onlySends (b : Block) (m : Mode) (cause : Nat) : Block.OnlySends b (b.setMode m cause) := by
  unfold Block.setMode
  extract_lets old failed source moded told noted paused
  have hfailed : Block.OnlySends b failed := by
    refine .touched (b := if m = .save ∨ (m = .halt ∧ old ≠ .save) then b.redFail else b) ?_ (Block.noteUnlocked_touches _)
    split
    · exact b.redFail_onlySends
    · exact .refl
  have hmoded : Block.OnlySends b moded := hfailed.trans (.of_same rfl)
  have htold : Block.OnlySends b told := .touched (hmoded.touched (Block.irq_touches moded ..)) (Block.event_touches ..)
  have hnoted : Block.OnlySends b noted := htold.touched (Block.noteUnlocked_touches _)
  have hpaused : Block.OnlySends b paused := by
    simp only [paused]
    split
    · exact hnoted.touched (Block.clearPause_touches _)
    · exact hnoted
  split
  · exact .refl
  · exact ((hpaused.touched (Block.almMode_touches _)).touched (Block.capMode_touches _)).touched (Block.pulsesEnd_touches _)

/-- A role change sets the role and nothing else of the pair's state. -/
theorem Block.setRole_red (b : Block) (r : Nat) : (b.setRole r).red = { b.red with role := r } := by
  unfold Block.setRole
  split
  case isTrue h => exact h ▸ rfl
  case isFalse h => exact (Block.push_touches ..).keeps .red rfl

/-- The pair's state of a partner that has left service. -/
theorem Block.toStandby_red (b : Block) (r : Nat) : ∃ o, (b.toStandby r).red = { b.red.idle with role := r, out := o } := by
  have hsends : Block.OnlySends (({ b with red := b.red.idle } : Block).setRole r) (b.toStandby r) := by
    rcases b.toStandby_cases r with hmode | hsame
    · exact hmode ▸ Block.setMode_onlySends ..
    · exact hsame ▸ .touched .refl (Block.almMode_touches _)
  obtain ⟨o, ho⟩ := hsends
  exact ⟨o, by rw [ho, Block.setRole_red]⟩

/-! ### What is served -/

theorem Block.degradeCause_of_sys {b c : Block} (h : c.sys = b.sys) : c.degradeCause = b.degradeCause := by
  unfold Block.degradeCause
  rw [h]

/-- Output, pins and the causes of DEGRADED are as they were. -/
structure Block.SameService (a b : Block) : Prop where
  halted : b.out.halted = a.out.halted
  driven : b.alm.driven = a.alm.driven
  cause : b.degradeCause = a.degradeCause

section service
variable {a b c : Block}

theorem Block.SameService.refl : Block.SameService a a := ⟨rfl, rfl, rfl⟩

theorem Block.SameService.trans (h : Block.SameService a b) (k : Block.SameService b c) : Block.SameService a c :=
  ⟨k.halted.trans h.halted, k.driven.trans h.driven, k.cause.trans h.cause⟩

theorem Block.SameService.of_parts (h : Block.SameService a b) (ho : c.out.halted = b.out.halted := by rfl)
    (ha : c.alm.driven = b.alm.driven := by rfl) (hs : c.degradeCause = b.degradeCause := by rfl) : Block.SameService a c := h.trans ⟨ho, ha, hs⟩

theorem Block.SameService.touched {t : List Part} (h : Block.SameService a b) (k : Touches t b c) (ho : t.contains .out = false := by rfl)
    (ha : t.contains .alm = false := by rfl) (hs : t.contains .sys = false := by rfl) : Block.SameService a c :=
  h.of_parts (congrArg Out.halted (k.keeps .out ho)) (congrArg Alm.driven (k.keeps .alm ha)) (Block.degradeCause_of_sys (k.keeps .sys hs))

theorem Block.SameService.ite {p : Prop} [Decidable p] (h : Block.SameService a b) (k : Block.SameService a c) :
    Block.SameService a (if p then b else c) := by
  split
  · exact h
  · exact k

theorem Block.SameService.fold {α : Type} {f : Block → α → Block} (r : List α) (h : Block.SameService a b)
    (k : ∀ x e, Block.SameService a x → Block.SameService a (f x e)) : Block.SameService a (r.foldl f b) :=
  List.foldlRecOn r f h (fun x hx e _ => k x e hx)

end service

section kept
variable {a b : Block} (h : Block.SameService a b)
include h

theorem Block.SameService.noteSigned {x : Block} {p : Nat} {pub : Option Nat} : Block.SameService a (b.noteSigned x p pub) := h.of_parts

theorem Block.SameService.noteUnlocked : Block.SameService a b.noteUnlocked := h.of_parts

theorem Block.SameService.count {d : RegDesc} {i k n : Nat} : Block.SameService a (b.count d i k n) := h.touched (Block.count_touches ..)

theorem Block.SameService.irq {blk n : Nat} : Block.SameService a (b.irq blk n) := h.touched (Block.irq_touches ..)

theorem Block.SameService.event {code src a0 a1 : Nat} : Block.SameService a (b.event code src a0 a1) := h.touched (Block.event_touches ..)

theorem Block.SameService.pubSend {p : Nat} {aborted : Bool} : Block.SameService a (b.pubSend p aborted) := by
  unfold Block.pubSend
  exact .ite (.count (h.touched (Block.enqueueAll_touches ..))) (.ite h.count.event (.ite (h.count.irq.touched (Block.eventRep_touches ..))
    (.count (.noteSigned (.touched h.of_parts (Block.udpSend_touches ..))))))

theorem Block.SameService.pubChange {p st t : Nat} {data : List Nat} : Block.SameService a (b.pubChange p st t data) := .pubSend h.of_parts

theorem Block.SameService.pubRefresh : Block.SameService a b.pubRefresh := h.fold _ (fun _ _ hx => .ite hx.pubChange (.ite hx.of_parts hx))

theorem Block.SameService.pubUpdate {r seq t : Nat} : Block.SameService a (b.pubUpdate r seq t) := h.fold _ (fun _ _ hx => .ite hx.pubChange hx)

theorem Block.SameService.almMode : Block.SameService a b.almMode := by
  have hpins : Block.SameService a b.pulsesDriven := h.of_parts
  exact .pubRefresh (.ite hpins (.touched hpins (Block.setVis_touches ..)))

theorem Block.SameService.almNote : Block.SameService a b.almNote := by
  refine h.fold _ (fun x r hx => ?_)
  split
  · exact hx.of_parts
  · exact hx

theorem Block.SameService.almPins : Block.SameService a b.almPins := .fold _ h.of_parts (fun _ _ hx => .ite hx hx.of_parts)

theorem Block.SameService.almDeliver {r seq : Nat} : Block.SameService a (b.almDeliver r seq) := h.almNote.almPins.pubUpdate

theorem Block.SameService.holdDef {seq d : Nat} : Block.SameService a (b.holdDef seq d) := .count h.of_parts

theorem Block.SameService.almExpire {r seq : Nat} : Block.SameService a (b.almExpire r seq) := by
  have hheld (l : List Nat) : Block.SameService a (l.foldl (fun b d => b.holdDef seq d) b) := h.fold _ (fun _ _ hx => hx.holdDef)
  exact .ite (hheld _) (hheld _).count.almDeliver

theorem Block.SameService.expireTag {r seq : Nat} : Block.SameService a (b.expireTag r seq) := by
  unfold Block.expireTag
  extract_lets now tag mine own isCarry next toks held waits queued running miss gone dfe cut counted matched waited ran ended
  have hcut : Block.SameService a cut := (h.touched (Block.coresNow_touches b)).of_parts
  have hcounted : Block.SameService a counted := .ite hcut hcut.count
  have hmatched : Block.SameService a matched := hcounted.fold _ (fun _ _ hx => hx.touched (Block.matchToken_touches ..))
  have hwaited : Block.SameService a waited := hmatched.fold _ (fun _ _ hx => hx.touched (Block.expireQueued_touches ..))
  have hran : Block.SameService a ran := hwaited.fold _ (fun _ _ hx => hx.touched (Block.expireRunning_touches ..))
  have hended : Block.SameService a ended := .ite (hran.touched (Block.missed_touches ..)) (hran.touched (Block.missEnd_touches ..))
  exact hended.almExpire

theorem Block.SameService.endAnalysis {r : Nat} : Block.SameService a (b.endAnalysis r) := by
  unfold Block.endAnalysis
  extract_lets expired n held ended y
  have hexpired : Block.SameService a expired := by
    simp only [expired]
    split
    · exact h.expireTag
    · exact h
  have hheld : Block.SameService a held := .ite hexpired hexpired.almExpire
  exact hheld.of_parts

theorem Block.SameService.freeBasin {r p : Nat} : Block.SameService a (b.freeBasin r p) :=
  .ite h (.of_parts (b := (b.setBasin r p { b.basinAt r p with st := .free, arrivedA := (b.basinAt r p).countA, arrivedB := (b.basinAt r p).countB }).cancelClaims r (b.basinAt r p).seq)
    (.touched h.of_parts (Block.cancelClaims_touches ..)))

theorem Block.SameService.freeRing {r : Nat} : Block.SameService a (b.freeRing r) :=
  .touched (h.fold _ (fun _ _ hx => hx.freeBasin)) (Block.cmpRestart_touches ..)

theorem Block.SameService.ringStop {r : Nat} : Block.SameService a (b.ringStop r) := h.endAnalysis.freeRing.touched (Block.setRing_touches ..)

theorem Block.SameService.ringsStop : Block.SameService a b.ringsStop := h.ringStop.ringStop

theorem Block.SameService.redFail : Block.SameService a b.redFail := h.touched (Block.redFail_touches b)

theorem Block.SameService.setMode {m : Mode} {cause : Nat} : Block.SameService a (b.setMode m cause) := by
  unfold Block.setMode
  extract_lets old failed source moded told noted paused
  have hfailed : Block.SameService a failed := (Block.SameService.ite h.redFail h).noteUnlocked
  have hnoted : Block.SameService a noted := .noteUnlocked (.event (.irq hfailed.of_parts))
  have hpaused : Block.SameService a paused := .ite (hnoted.touched (Block.clearPause_touches _)) hnoted
  exact .ite h ((hpaused.almMode.touched (Block.capMode_touches _)).touched (Block.pulsesEnd_touches _))

theorem Block.SameService.setRole {r : Nat} : Block.SameService a (b.setRole r) := h.touched (Block.setRole_touches ..)

theorem Block.SameService.toStandby {r : Nat} : Block.SameService a (b.toStandby r) := by
  have hrole : Block.SameService a (({ b with red := b.red.idle } : Block).setRole r) := .setRole h.of_parts
  rcases b.toStandby_cases r with hmode | hsame
  · exact hmode ▸ hrole.setMode
  · exact hsame ▸ hrole.almMode

end kept

end Sys2Proof.Machine
end

section
/-! PROOFS. Heartbeats, the lease and the fence of a pair (O41). -/

/- One declaration after the other: the text is checked as one, with room for few threads. -/
set_option Elab.async false

namespace Sys2Proof.Machine

/-! ### The pair's settings -/

theorem Block.Alters.redBit {l : RegSet} {a b : Block} (h : Block.Alters l a b) (hl : l.has Blk.red 0x410 = false) (n : Nat) :
    b.cb Reg.RED_CFG 0 n = a.cb Reg.RED_CFG 0 n := by
  unfold Block.cb
  rw [h.cfg hl (by decide) (by decide)]

theorem Block.Alters.redActive {l : RegSet} {a b : Block} (h : Block.Alters l a b) (hl : l.has Blk.red 0x410 = false) (hrole : b.red.role = a.red.role) :
    b.redActive = a.redActive := by
  unfold Block.redActive Block.redOn
  rw [h.redBit hl, hrole]

/-- A count after what leaves the counter alone. -/
theorem Block.Alters.counts_after {l : RegSet} {a b c : Block} (h : Block.Alters l a b) {d : RegDesc} {i : Nat} (hl : l.has d.blk (d.off + d.stride * 0) = false)
    (hd : d.Lies) (hi : i < 1048576) (k : b.counts c d i) : a.counts c d i := by
  unfold Block.counts at k ⊢
  rwa [h.vis hl hd hi] at k

/-! ### What a message brings -/

theorem Block.setRedEpoch_red (b : Block) (e : Nat) : (b.setRedEpoch e).red = { b.red with epoch := e } := (Block.storeN_touches ..).keeps .red rfl

/-- The block that has heard an accepted message (R382 to R388). -/
def Block.heard (b : Block) (path : Nat) (x : RedMsg) : Block := (b.redHear path x true).2

section heard
variable {b : Block} {p : Nat} {x : RedMsg} (hon : b.redOn = true) (hable : b.redAble p = true) (hepoch : later 32 b.red.epoch x.epoch = false)
include hon hable hepoch

theorem Block.redHear_accepts : b.redHear p x true = (true, b.heard p x) := by
  unfold Block.heard Block.redHear
  rw [if_neg (by simp [hon, hable]), if_neg (by decide), if_neg (by simp [hepoch])]

theorem Block.heard_alters : Block.Alters [] b (b.heard p x) := by
  have h : Block.Alters [] b (if b.redActive then b else b.setRedEpoch x.epoch) := .ite .refl (.touched .refl (Block.setRedEpoch_touches ..))
  unfold Block.heard Block.redHear
  rw [if_neg (by simp [hon, hable]), if_neg (by decide), if_neg (by simp [hepoch])]
  exact h.of_regs

theorem Block.heard_red : (b.heard p x).red = { b.red with
    epoch := if b.redActive then b.red.epoch else x.epoch
    paths := Tbl.put b.red.paths p { b.redPath p with heardAt := some b.t7 } RedPath.reset
    pEpoch := x.epoch
    pRole := x.role
    pImage := x.image
    pHealthy := x.healthy
    pPreferred := x.preferred
    pBasin := x.basin
    heardOther := b.red.heardOther || x.role == 2 || x.role == 3 } := by
  unfold Block.heard Block.redHear
  rw [if_neg (by simp [hon, hable]), if_neg (by decide), if_neg (by simp [hepoch])]
  generalize hy : (if b.redActive then b else b.setRedEpoch x.epoch) = y
  have hred : y.red = { b.red with epoch := if b.redActive then b.red.epoch else x.epoch } := by
    by_cases hact : b.redActive = true
    · rw [← hy, if_pos hact, if_pos hact]
    · rw [← hy, if_neg hact, if_neg hact, Block.setRedEpoch_red]
  have ht7 : y.t7 = b.t7 := by
    by_cases hact : b.redActive = true
    · rw [← hy, if_pos hact]
    · rw [← hy, if_neg hact]
      exact (Block.setRedEpoch_touches ..).keeps .t7 rfl
  dsimp only [Block.setRedPath, Block.redPath]
  rw [hred, ht7]

omit hon hable hepoch in
theorem Block.heard_same : (b.heard p x).t7 = b.t7 ∧ (b.heard p x).sys = b.sys :=
  ⟨(Block.redHear_touches ..).keeps .t7 rfl, (Block.redHear_touches ..).keeps .sys rfl⟩

theorem Block.heard_redActive : (b.heard p x).redActive = b.redActive :=
  (Block.heard_alters hon hable hepoch).redActive (by decide) (by rw [Block.heard_red hon hable hepoch])

end heard

/-! ### Paths and the lease -/

/-- A path stands at a value, and of the rest of the pair's state nothing differs but the other paths. -/
def Block.OnPath (a b : Block) (p : Nat) (y : RedPath) : Prop := ∃ ps, b.red = { a.red with paths := ps } ∧ b.redPath p = y

theorem Block.OnPath.set (b : Block) (p : Nat) (y : RedPath) : Block.OnPath b (b.setRedPath p y) p y := ⟨_, rfl, Tbl.get_put_same ..⟩

theorem Block.OnPath.trans {a b c : Block} {p : Nat} {y z : RedPath} (h : Block.OnPath a b p y) (k : Block.OnPath b c p z) : Block.OnPath a c p z := by
  obtain ⟨ps, hb, -⟩ := h
  obtain ⟨ps', hc, hz⟩ := k
  exact ⟨ps', by rw [hc, hb], hz⟩

/-- A good exchange counts on its path and touches no more of the pair's state. -/
theorem Block.goodExchange_onPath (b : Block) (p : Nat) (next : Bool) :
    ∃ n up, Block.OnPath b (b.goodExchange p next) p { b.redPath p with good := n, up := up } := by
  unfold Block.goodExchange
  extract_lets y n z
  have hz : Block.OnPath b z p { y with good := n, up := y.up || decide (10 ≤ n) } := .set ..
  split
  · have htold : Touches [.vis, .evr] z ((z.irq Blk.red 5).redEvent 0x1402 p) :=
      (Touches.refl.trans (Block.irq_touches z ..) rfl).trans (Block.event_touches ..) rfl
    obtain ⟨ps, hred, hpath⟩ := hz
    have hkeep := htold.keeps .red rfl
    have hsame : ((z.irq Blk.red 5).redEvent 0x1402 p).redPath p = z.redPath p := by
      unfold Block.redPath
      rw [hkeep]
    exact ⟨n, _, ps, hkeep.trans hred, hsame.trans hpath⟩
  · exact ⟨n, _, hz⟩

/-- A partner that yields for being degraded, or none: nothing happens in another mode. -/
theorem Block.redYield_of_mode {b : Block} (h : b.sys.mode ≠ .degraded) : b.redYield = b := by
  refine if_neg (fun hy => h ?_)
  have hyields := hy.2
  simp only [Block.redYields, Bool.and_eq_true, beq_iff_eq] at hyields
  exact hyields.1.1

/-! ### The messages of a pair -/

/-- A RENEW answered where the role is not NONE. -/
def Block.renewAnswer (b : Block) (p seq : Nat) : Block :=
  if b.red.role = 0 then b else (if b.red.role = 3 then b.setRole 2 else b).redSend p 2 seq

theorem Block.renewAnswer_red (b : Block) (p seq : Nat) : ∃ o, (b.renewAnswer p seq).red = { b.red with role := if b.red.role = 3 then 2 else b.red.role, out := o } := by
  unfold Block.renewAnswer
  by_cases hnone : b.red.role = 0
  · rw [if_pos hnone, if_neg (by omega)]
    exact ⟨_, rfl⟩
  · rw [if_neg hnone]
    by_cases hfenced : b.red.role = 3
    · rw [if_pos hfenced, if_pos hfenced]
      obtain ⟨o, ho⟩ := Block.redSend_onlySends (b.setRole 2) p 2 seq
      exact ⟨o, by rw [ho, Block.setRole_red]⟩
    · rw [if_neg hfenced, if_neg hfenced]
      exact Block.redSend_onlySends b p 2 seq

/-- A RENEW noted on its path by a partner that does not serve. -/
def Block.renewNoted (b : Block) (p seq : Nat) : Block :=
  let y := b.redPath p
  let b := (b.setRedPath p { y with renewAt := some b.t7, renewSeq := seq }).goodExchange p (y.renewAt.isSome && seq == (y.renewSeq + 1) % 65536)
  { b with red := { b.red with heardRenew := true } }

theorem Block.renewNoted_red (b : Block) (p seq : Nat) : ∃ ps, (b.renewNoted p seq).red = { b.red with paths := ps, heardRenew := true } ∧
    ((b.renewNoted p seq).redPath p).renewAt = some b.t7 ∧ ((b.renewNoted p seq).redPath p).renewSeq = seq := by
  unfold Block.renewNoted
  extract_lets y z
  have hset := Block.OnPath.set b p { y with renewAt := some b.t7, renewSeq := seq }
  obtain ⟨n, up, hgood⟩ := (b.setRedPath p { y with renewAt := some b.t7, renewSeq := seq }).goodExchange_onPath p (y.renewAt.isSome && seq == (y.renewSeq + 1) % 65536)
  obtain ⟨ps, hred, hpath⟩ := hset.trans hgood
  obtain ⟨-, -, hseq⟩ := hset
  have hz : z.redPath p = _ := hpath
  refine ⟨ps, congrArg (fun r : Red => { r with heardRenew := true }) hred, ?_, ?_⟩
  · exact (congrArg RedPath.renewAt hz).trans (congrArg RedPath.renewAt hseq)
  · exact (congrArg RedPath.renewSeq hz).trans (congrArg RedPath.renewSeq hseq)

section messages
variable {b : Block} {p : Nat} {x : RedMsg} (hon : b.redOn = true) (hable : b.redAble p = true) (hepoch : later 32 b.red.epoch x.epoch = false)
include hon hable hepoch

theorem Block.renewRx_eq (hact : b.redActive = false) : b.renewRx p x true = ((b.heard p x).renewNoted p x.seq).renewAnswer p x.seq := by
  have hsame := (Block.heard_redActive hon hable hepoch).trans hact
  unfold Block.renewRx
  rw [Block.redHear_accepts hon hable hepoch]
  generalize b.heard p x = y at *
  dsimp only
  rw [if_neg (by decide), hsame, if_neg (by decide)]
  rfl

/-- What a RENEW leaves that a partner not serving receives (R383, R388). -/
theorem Block.renewRx_done (hact : b.redActive = false) : ((b.renewRx p x true).redPath p).renewAt = some b.t7 ∧
    ((b.renewRx p x true).redPath p).renewSeq = x.seq ∧ (b.renewRx p x true).red.epoch = x.epoch ∧ (b.renewRx p x true).red.pEpoch = x.epoch ∧
    (b.renewRx p x true).red.pRole = x.role ∧ (b.renewRx p x true).red.heardRenew = true ∧
    (b.renewRx p x true).red.role = (if b.red.role = 3 then 2 else b.red.role) := by
  have hred := Block.heard_red hon hable hepoch
  have ht7 := (b.heard_same (p := p) (x := x)).1
  rw [Block.renewRx_eq hon hable hepoch hact]
  generalize b.heard p x = y at *
  obtain ⟨ps, hz, hat, hseq⟩ := y.renewNoted_red p x.seq
  generalize y.renewNoted p x.seq = z at *
  obtain ⟨o, ho⟩ := z.renewAnswer_red p x.seq
  have hpath : (z.renewAnswer p x.seq).redPath p = z.redPath p := by
    unfold Block.redPath
    rw [ho]
  rw [hpath, hat, hseq, ho, hz, hred, hact, ht7]
  exact ⟨rfl, rfl, rfl, rfl, rfl, rfl, rfl⟩

theorem Block.ackRx_eq (hact : b.redActive = true) {a : Nat} (hsent : b.red.sends.find? (fun e => e.1 == x.seq) = some (x.seq, a))
    (hintime : b.t7 ≤ a + 300000) : b.ackRx p x true = (b.heard p x).ackTaken p x.seq a := by
  have hsame := (Block.heard_redActive hon hable hepoch).trans hact
  have hred := congrArg Red.sends (Block.heard_red hon hable hepoch)
  have ht7 := (b.heard_same (p := p) (x := x)).1
  unfold Block.ackRx
  rw [Block.redHear_accepts hon hable hepoch]
  generalize b.heard p x = y at *
  dsimp only
  have hfind : y.red.sends.find? (fun e => e.1 == x.seq) = some (x.seq, a) := by rw [hred]; exact hsent
  rw [if_neg (by decide), hsame, hfind]
  exact if_neg (by omega)

end messages

/-- The hold-down followed (R395). -/
theorem Block.holdTrack_red (b : Block) : ∃ hold, b.holdTrack.red = { b.red with holdSince := hold } := ⟨_, rfl⟩

/-- What an ACK leaves (R384). -/
theorem Block.ackTaken_red {b : Block} (h : b.sys.mode ≠ .degraded) (p seq a : Nat) : ∃ ps hold,
    (b.ackTaken p seq a).red = { b.red with paths := ps, leaseEnd := some (max (b.red.leaseEnd.getD 0) (a + 400000)), solo := false, holdSince := hold } ∧
    ((b.ackTaken p seq a).redPath p).ack = some seq := by
  unfold Block.ackTaken
  extract_lets y next z e
  have hset := Block.OnPath.set b p { y with ack := some seq, rtt := (b.t7 - a) / 1000 }
  obtain ⟨n, up, hgood⟩ := (b.setRedPath p { y with ack := some seq, rtt := (b.t7 - a) / 1000 }).goodExchange_onPath p next
  obtain ⟨ps, hred, hpath⟩ := hset.trans hgood
  obtain ⟨-, -, hack⟩ := hset
  have hz : z.red = { b.red with paths := ps } := hred
  have hzpath : z.redPath p = _ := hpath
  have hmode : z.sys.mode ≠ .degraded := by
    have hsys : z.sys = b.sys := (Block.goodExchange_touches ..).keeps .sys rfl
    rw [hsys]
    exact h
  rw [Block.redYield_of_mode (b := { z with red := { z.red with leaseEnd := some e, solo := false } }) hmode]
  have he : e = max (b.red.leaseEnd.getD 0) (a + 400000) := by
    unfold e
    rw [hz]
  obtain ⟨hold, hheld⟩ := Block.holdTrack_red { z with red := { z.red with leaseEnd := some e, solo := false } }
  refine ⟨ps, hold, ?_, (congrArg RedPath.ack hzpath).trans (congrArg RedPath.ack hack)⟩
  rw [hheld, ← he, hz]

/-! ### The fence (R384, R388) -/

/-- A partner out of service: what the fence and the yield leave before anything counts. -/
theorem Block.standDown_done (b : Block) (r : Nat) : ((b.serveStop.redFail.ringsStop).toStandby r).out.halted = true ∧
    ((b.serveStop.redFail.ringsStop).toStandby r).red.role = r ∧ ((b.serveStop.redFail.ringsStop).toStandby r).red.leaseEnd = none := by
  have hhalted : b.serveStop.out.halted = true := congrArg Out.halted ((Block.vmac_touches _ false).keeps .out rfl)
  have hsame : Block.SameService b.serveStop ((b.serveStop.redFail.ringsStop).toStandby r) := Block.SameService.refl.redFail.ringsStop.toStandby
  obtain ⟨o, ho⟩ := (b.serveStop.redFail.ringsStop).toStandby_red r
  exact ⟨hsame.halted.trans hhalted, by rw [ho], by rw [ho]; rfl⟩

/-- Registers that the fence may change beside its own count. -/
def fenceRegs : RegSet := .one Blk.red 0x400 :: eventRegs

theorem Block.fence_tail (b : Block) : ∃ x, Block.Alters serveRegs b x ∧ x.out.halted = true ∧ x.red.role = 3 ∧ x.red.leaseEnd = none ∧
    b.fence = ((x.count Reg.RED_FENCES).irq Blk.red 3).redEvent 0x1404 := by
  obtain ⟨hhalted, hrole, hlease⟩ := b.standDown_done 3
  exact ⟨_, b.standDown_alters 3, hhalted, hrole, hlease, rfl⟩

theorem Block.fence_done (b : Block) : b.fence.red.role = 3 ∧ b.fence.out.halted = true ∧ b.fence.red.leaseEnd = none ∧ b.counts b.fence Reg.RED_FENCES := by
  obtain ⟨x, hx, hhalted, hrole, hlease, heq⟩ := b.fence_tail
  have htold : Touches [.vis, .evr] x (((x.count Reg.RED_FENCES).irq Blk.red 3).redEvent 0x1404) :=
    ((Touches.refl.trans (Block.count_touches ..) rfl).trans (Block.irq_touches ..) rfl).trans (Block.event_touches ..) rfl
  have hregs : Block.Alters fenceRegs (x.count Reg.RED_FENCES) (((x.count Reg.RED_FENCES).irq Blk.red 3).redEvent 0x1404) := .event (.irq .refl (by decide))
  rw [heq, htold.keeps .red rfl, htold.keeps .out rfl]
  exact ⟨hrole, hhalted, hlease, hx.counts hregs (by decide) (by decide) (by decide) (by decide) (by decide)⟩

/-- An active that learns of a higher epoch. -/
theorem Block.roleConflict_done (b : Block) (e : Nat) : (b.roleConflict e).red.role = 3 ∧ (b.roleConflict e).red.epoch = e ∧
    (b.roleConflict e).out.halted = true ∧ (b.roleConflict e).red.leaseEnd = none ∧ b.counts (b.roleConflict e) Reg.RED_FENCES ∧
    bit ((b.roleConflict e).vis Reg.RED_IRQ_STATUS).toNat 7 = true := by
  obtain ⟨x, hx, hhalted, hrole, hlease, heq⟩ := b.fence_tail
  unfold Block.roleConflict
  rw [heq]
  have hfenced : Block.Alters fenceRegs (x.count Reg.RED_FENCES) (((x.count Reg.RED_FENCES).irq Blk.red 3).redEvent 0x1404) := .event (.irq .refl (by decide))
  have hfence : Touches [.vis, .evr] x (((x.count Reg.RED_FENCES).irq Blk.red 3).redEvent 0x1404) :=
    ((Touches.refl.trans (Block.count_touches ..) rfl).trans (Block.irq_touches ..) rfl).trans (Block.event_touches ..) rfl
  have hxred := hfence.keeps .red rfl
  have hxout := hfence.keeps .out rfl
  generalize ((x.count Reg.RED_FENCES).irq Blk.red 3).redEvent 0x1404 = y at *
  have hepoch := y.setRedEpoch_red e
  have hkept := y.setRedEpoch_touches e
  have hyout := hkept.keeps .out rfl
  have hregs : Block.Alters fenceRegs (x.count Reg.RED_FENCES) (y.setRedEpoch e) := hfenced.touched hkept
  generalize y.setRedEpoch e = z at *
  have htold : Touches [.vis, .evr] z ((z.irq Blk.red 7).redEvent 0x140C) := (Touches.refl.trans (Block.irq_touches ..) rfl).trans (Block.event_touches ..) rfl
  have hraised : Block.Alters eventRegs (z.irq Blk.red 7) ((z.irq Blk.red 7).redEvent 0x140C) := .event .refl
  rw [htold.keeps .red rfl, htold.keeps .out rfl, hepoch, hyout, hxout, hxred]
  exact ⟨hrole, rfl, hhalted, hlease, hx.counts (l' := fenceRegs) (.event (.irq hregs (by decide))) (by decide) (by decide) (by decide) (by decide) (by decide),
    hraised.irqStatus (by decide) (by decide)⟩

section messages
variable {b : Block} {p : Nat} {x : RedMsg} (hon : b.redOn = true) (hable : b.redAble p = true) (hepoch : later 32 b.red.epoch x.epoch = false)
include hon hable hepoch

theorem Block.nakRx_newer (hact : b.redActive = true) (hnewer : later 32 x.epoch b.red.epoch = true) :
    b.nakRx p x true = (b.heard p x).roleConflict x.epoch := by
  have hsame := (Block.heard_redActive hon hable hepoch).trans hact
  have hred := congrArg Red.epoch (Block.heard_red hon hable hepoch)
  unfold Block.nakRx
  rw [Block.redHear_accepts hon hable hepoch]
  generalize b.heard p x = y at *
  dsimp only
  refine if_pos ⟨hsame, ?_⟩
  rw [hred, hact]
  exact hnewer

/-- A HELLO that a FENCED partner hears that is not PREFERRED. -/
theorem Block.helloRx_fenced (hrole : b.red.role = 3) (hpref : b.redPreferred = false) :
    (b.helloRx p x true).red.role = 2 ∧ (b.helloRx p x true).red.heardOther = true ∧ (b.helloRx p x true).red.pEpoch = x.epoch := by
  have hred := Block.heard_red hon hable hepoch
  have hsame : (b.heard p x).redPreferred = b.redPreferred := (Block.heard_alters hon hable hepoch).redBit (by decide) 30
  unfold Block.helloRx
  rw [Block.redHear_accepts hon hable hepoch]
  generalize b.heard p x = y at *
  have hyrole : y.red.role = 3 := by rw [hred]; exact hrole
  have heq : ({ y with red := { y.red with heardOther := true } } : Block).roleResolve = ({ y with red := { y.red with heardOther := true } } : Block).setRole 2 := by
    unfold Block.roleResolve
    exact if_neg (by rw [show ({ y with red := { y.red with heardOther := true } } : Block).redPreferred = y.redPreferred from rfl, hsame, hpref]; decide)
  dsimp only
  rw [if_neg (by decide), if_pos hyrole, heq, Block.setRole_red]
  exact ⟨rfl, rfl, congrArg Red.pEpoch hred⟩

end messages

/-! ### RENEW, the paths and the end of the lease -/

theorem Block.renewSend_done {b : Block} (hact : b.redActive = true) (hhealthy : b.redHealthy = true) : b.renewSend.red.seq = (b.red.seq + 1) % 65536 ∧
    b.renewSend.red.sends.head? = some ((b.red.seq + 1) % 65536, b.t7) ∧ b.counts b.renewSend Reg.RED_RENEWS := by
  have hon : b.redOn = true := by
    unfold Block.redActive at hact
    rw [Bool.and_eq_true] at hact
    exact hact.1
  have heq : b.renewSend = (({ b with red := { b.red with seq := (b.red.seq + 1) % 65536, sends := ((b.red.seq + 1) % 65536, b.t7) :: b.red.sends.take 15 } } : Block).redSendBoth 1).count Reg.RED_RENEWS := by
    unfold Block.renewSend
    rw [if_neg (by rw [hon]; decide), if_pos ⟨hact, hhealthy⟩]
  rw [heq]
  generalize hnumbered : ({ b with red := { b.red with seq := (b.red.seq + 1) % 65536, sends := ((b.red.seq + 1) % 65536, b.t7) :: b.red.sends.take 15 } } : Block) = y
  have hy : y.red = { b.red with seq := (b.red.seq + 1) % 65536, sends := ((b.red.seq + 1) % 65536, b.t7) :: b.red.sends.take 15 } := by rw [← hnumbered]
  have hregs : Block.Alters sendRegs b (y.redSendBoth 1) := by
    refine Block.Alters.trans (l' := sendRegs) ?_ (y.redSendBoth_alters 1)
    rw [← hnumbered]
    exact .of_regs .refl
  obtain ⟨o, ho⟩ := (y.redSendBoth_onlySends 1).touched (Block.count_touches _ Reg.RED_RENEWS 0 0 1)
  rw [ho, hy]
  exact ⟨rfl, rfl, hregs.counts (l' := []) .refl (by decide) (by decide) (by decide) (by decide) (by decide)⟩

theorem Block.imageInvalid_cases (b : Block) : b.imageInvalid = { b with red := { b.red with image := false, ckRun := 0 } } ∨
    b.imageInvalid = (({ b with red := { b.red with image := false, ckRun := 0 } } : Block).irq Blk.red 6).redEvent 0x1408 := by
  unfold Block.imageInvalid
  dsimp only
  split
  · exact .inr rfl
  · exact .inl rfl

theorem Block.imageInvalid_red (b : Block) : b.imageInvalid.red = { b.red with image := false, ckRun := 0 } := by
  rcases b.imageInvalid_cases with heq | heq
  · rw [heq]
  · rw [heq]
    exact ((Touches.refl.trans (Block.irq_touches ..) rfl).trans (l := [.vis, .evr]) (Block.event_touches ..) rfl).keeps .red rfl

theorem Block.imageInvalid_alters (b : Block) : Block.Alters fenceRegs b b.imageInvalid := by
  rcases b.imageInvalid_cases with heq | heq
  · exact heq ▸ .of_regs .refl
  · exact heq ▸ .event (.irq (.of_regs .refl) (by decide))

theorem Block.BitAt.redEvent {n : Nat} {b : Block} (h : b.BitAt (regKey Blk.red 15 0 0x400) n) (code arg1 : Nat) :
    (b.redEvent code arg1).BitAt (regKey Blk.red 15 0 0x400) n := h.keep ((Block.event_alters ..).reg _ (by decide))

theorem Block.BitAt.imageInvalid {n : Nat} {b : Block} (h : b.BitAt (regKey Blk.red 15 0 0x400) n) : b.imageInvalid.BitAt (regKey Blk.red 15 0 0x400) n := by
  have hmarked : ({ b with red := { b.red with image := false, ckRun := 0 } } : Block).BitAt (regKey Blk.red 15 0 0x400) n := h
  rcases b.imageInvalid_cases with heq | heq
  · exact heq ▸ hmarked
  · exact heq ▸ (hmarked.irq _ _).redEvent _ _

/-- A path lost (R383). -/
theorem Block.pathDown_done {b : Block} {p : Nat} (hup : (b.redPath p).up = true) (hlost : b.pathLost p = true) :
    ((b.pathDown p).redPath p).up = false ∧ ((b.pathDown p).redPath p).good = 0 ∧
      b.counts (b.pathDown p) (if p = 0 then Reg.RED_PATH_DOWNS_A else Reg.RED_PATH_DOWNS_B) ∧ bit ((b.pathDown p).vis Reg.RED_IRQ_STATUS).toNat 5 = true := by
  obtain ⟨d, hd, hsmall, hlies, hsat⟩ : ∃ d : RegDesc, d = (if p = 0 then Reg.RED_PATH_DOWNS_A else Reg.RED_PATH_DOWNS_B) ∧ RegSet.has fenceRegs d.blk d.off = false ∧
      d.Lies ∧ ∀ q ∈ d.sat, d.off ≠ q.1 := by
    refine ⟨_, rfl, ?_⟩
    split
    · exact ⟨by decide, by decide, by decide⟩
    · exact ⟨by decide, by decide, by decide⟩
  have heq : b.pathDown p = (if p = 0 then ((((b.setRedPath p { b.redPath p with up := false, good := 0 }).count d).irq Blk.red 5).redEvent 0x1401 p).imageInvalid
      else (((b.setRedPath p { b.redPath p with up := false, good := 0 }).count d).irq Blk.red 5).redEvent 0x1401 p).holdTrack := by
    rw [hd]
    exact if_neg (by rw [hup, hlost]; decide)
  rw [heq, ← hd]
  have hset : (b.setRedPath p { b.redPath p with up := false, good := 0 }).redPath p = { b.redPath p with up := false, good := 0 } := Tbl.get_put_same ..
  have hplain : Block.Alters [] b (b.setRedPath p { b.redPath p with up := false, good := 0 }) := .of_regs .refl
  generalize b.setRedPath p { b.redPath p with up := false, good := 0 } = y at *
  have hred : (((y.count d).irq Blk.red 5).redEvent 0x1401 p).red = y.red :=
    (((Touches.refl.trans (Block.count_touches ..) rfl).trans (Block.irq_touches ..) rfl).trans (l := [.vis, .evr]) (Block.event_touches ..) rfl).keeps .red rfl
  have hbit : (((y.count d).irq Blk.red 5).redEvent 0x1401 p).BitAt (regKey Blk.red 15 0 0x400) 5 := (Block.bitAt_irq _ _ (by decide)).redEvent _ _
  have hregs : Block.Alters fenceRegs (y.count d) (((y.count d).irq Blk.red 5).redEvent 0x1401 p) := .event (.irq .refl (by decide))
  generalize ((y.count d).irq Blk.red 5).redEvent 0x1401 p = z at *
  have hpath : z.redPath p = { b.redPath p with up := false, good := 0 } := by
    unfold Block.redPath at hset ⊢
    rw [hred]
    exact hset
  obtain ⟨w, hw, hwpath, hwbit, hwregs⟩ : ∃ w, (if p = 0 then z.imageInvalid else z) = w ∧ w.redPath p = z.redPath p ∧ w.BitAt (regKey Blk.red 15 0 0x400) 5 ∧
      Block.Alters fenceRegs (y.count d) w := by
    refine ⟨_, rfl, ?_⟩
    split
    · refine ⟨?_, hbit.imageInvalid, hregs.trans z.imageInvalid_alters⟩
      unfold Block.redPath
      rw [z.imageInvalid_red]
    · exact ⟨rfl, hbit, hregs⟩
  rw [hw]
  have hsame : w.holdTrack.redPath p = { b.redPath p with up := false, good := 0 } := hwpath.trans hpath
  rw [hsame]
  exact ⟨rfl, rfl, hplain.counts (l' := fenceRegs) (hwregs.touched w.holdTrack_touches) rfl hsmall hlies (by decide) hsat, hwbit⟩

/-- SOLO entered, or held (R384). -/
theorem Block.soloEnter_red (b : Block) : ∃ l, b.soloEnter.red = { b.red with solo := true, leaseEnd := l } := by
  unfold Block.soloEnter
  by_cases hsolo : b.red.solo = true
  · rw [if_pos hsolo, ← hsolo]
    exact ⟨_, rfl⟩
  · rw [if_neg hsolo]
    exact ⟨none, ((Touches.refl.trans (Block.irq_touches ..) rfl).trans (l := [.vis, .evr]) (Block.event_touches ..) rfl).keeps .red rfl⟩

/-- The lease ends (R384). -/
theorem Block.leaseExpiry_done {b : Block} {a : Nat} (hlease : b.red.leaseEnd = some a) (hact : b.redActive = true) (hover : a ≤ b.t7) :
    if b.silentTogether = true then b.leaseExpiry.red.solo = true ∧ b.leaseExpiry.red.role = b.red.role
    else b.leaseExpiry.red.role = 3 ∧ b.leaseExpiry.out.halted = true ∧ b.leaseExpiry.red.leaseEnd = none ∧ b.counts b.leaseExpiry Reg.RED_FENCES := by
  have heq : b.leaseExpiry = if b.silentTogether then b.soloEnter.holdTrack else b.fence := by
    unfold Block.leaseExpiry
    rw [hlease]
    exact if_neg (by rw [hact]; rintro (h | h); exacts [absurd h (by decide), absurd h (by omega)])
  rw [heq]
  by_cases hsilent : b.silentTogether = true
  · rw [if_pos hsilent, if_pos hsilent]
    obtain ⟨l, hl⟩ := b.soloEnter_red
    obtain ⟨hold, hh⟩ := b.soloEnter.holdTrack_red
    rw [hh, hl]
    exact ⟨rfl, rfl⟩
  · rw [if_neg hsilent, if_neg hsilent]
    exact b.fence_done

/-- Settles O41: each message and timer by the lemma of what it leaves. -/
theorem heartbeatsKeepTheLease : Obligations.HeartbeatsKeepTheLease := by
  refine ⟨fun t s hact hhealthy => ?_, fun t p x s hp hon hable hepoch hact => ?_, fun t p a x s hp hon hable hepoch hact hmode hsent hintime => ?_,
    fun t p x s hp hon hable hepoch hrole hpref => ?_, fun t p x s hp hon hable hepoch hact hnewer => ?_, fun t p s hp hup hlost => ?_,
    fun t a s hlease hact hover => ?_⟩
  · exact Completes.run (f := Block.renewSend) rfl (Block.renewSend_done (b := s.at t) hact hhealthy)
  · exact Completes.runIf (f := fun b => b.renewRx p x true) rfl (decide_eq_true hp) (Block.renewRx_done (b := s.at t) hon hable hepoch hact)
  · refine Completes.runIf (f := fun b => b.ackRx p x true) rfl (decide_eq_true hp) ?_
    have hred := Block.heard_red (b := s.at t) (p := p) hon hable hepoch
    have hsys := ((s.at t).heard_same (p := p) (x := x)).2
    rw [Block.ackRx_eq (b := s.at t) hon hable hepoch hact hsent hintime]
    generalize (s.at t).heard p x = y at *
    obtain ⟨ps, hold, htaken, hack⟩ := y.ackTaken_red (hsys ▸ hmode) p x.seq a
    rw [htaken, hred]
    exact ⟨rfl, rfl, hack⟩
  · exact Completes.runIf (f := fun b => b.helloRx p x true) rfl (decide_eq_true hp) (Block.helloRx_fenced (b := s.at t) hon hable hepoch hrole hpref)
  · refine Completes.runIf (f := fun b => b.nakRx p x true) rfl (decide_eq_true hp) ?_
    have hregs := Block.heard_alters (b := s.at t) (p := p) hon hable hepoch
    rw [Block.nakRx_newer (b := s.at t) hon hable hepoch hact hnewer]
    generalize (s.at t).heard p x = y at *
    obtain ⟨hrole, hy, hhalted, hlease, hcount, hbit⟩ := y.roleConflict_done x.epoch
    exact ⟨hrole, hy, hhalted, hlease, hregs.counts_after (by decide) (by decide) (by decide) hcount, hbit⟩
  · exact Completes.runIf (f := fun b => b.pathDown p) rfl (decide_eq_true hp) (Block.pathDown_done (b := s.at t) hup hlost)
  · exact Completes.run (f := Block.leaseExpiry) rfl (Block.leaseExpiry_done (b := s.at t) hlease hact hover)

end Sys2Proof.Machine
end

section
/-! PROOFS. The cascade: frames, links, members and time (O40). -/

/- One declaration after the other: the text is checked as one, with room for few threads. -/
set_option Elab.async false

namespace Sys2Proof.Machine

/-! ### Frames sent -/

/-- Of the cascade's state only the frame number and what is on its way differ. -/
def Block.OnlyFrames (a b : Block) : Prop := ∃ q o, b.cas = { a.cas with seq := q, out := o }

theorem Block.OnlyFrames.refl {a : Block} : Block.OnlyFrames a a := ⟨_, _, rfl⟩

theorem Block.OnlyFrames.trans {a b c : Block} (h : Block.OnlyFrames a b) (k : Block.OnlyFrames b c) : Block.OnlyFrames a c := by
  obtain ⟨q, o, hb⟩ := h
  obtain ⟨q', o', hc⟩ := k
  exact ⟨q', o', by rw [hc, hb]⟩

theorem Block.casOut_onlyFrames (b : Block) (l : Nat) (f : List Byte) : Block.OnlyFrames b (b.casOut l f) := by
  unfold Block.casOut
  split
  · exact .refl
  · exact ⟨_, _, rfl⟩

theorem Block.casSend_onlyFrames (b : Block) (type dst : Nat) (all : Bool) (part soc k items : Nat) (payload : List Byte) :
    Block.OnlyFrames b (b.casSend type dst all part soc k items payload) := by
  unfold Block.casSend
  split
  · dsimp only
    split
    · exact .trans (b := { b with cas := { b.cas with seq := (b.cas.seq + 1) % 2 ^ 48 } }) ⟨_, _, rfl⟩
        ((Block.casOut_onlyFrames ..).trans (Block.casOut_onlyFrames ..))
    · exact .refl
  · exact .refl

/-! ### Members and links kept -/

/-- What is noted of the members, and the links that are up, are as they were. -/
structure Block.SameMembers (a b : Block) : Prop where
  mbr : b.cas.mbr = a.cas.mbr
  up : b.cas.up = a.cas.up

theorem Block.SameMembers.refl {a : Block} : Block.SameMembers a a := ⟨rfl, rfl⟩

section members
variable {a b c : Block}

theorem Block.SameMembers.trans (h : Block.SameMembers a b) (k : Block.SameMembers b c) : Block.SameMembers a c :=
  ⟨k.mbr.trans h.mbr, k.up.trans h.up⟩

theorem Block.SameMembers.of_parts (h : Block.SameMembers a b) (hm : c.cas.mbr = b.cas.mbr := by rfl) (hu : c.cas.up = b.cas.up := by rfl) :
    Block.SameMembers a c := h.trans ⟨hm, hu⟩

theorem Block.SameMembers.touched {t : List Part} (h : Block.SameMembers a b) (k : Touches t b c) (ht : t.contains .cas = false := by rfl) :
    Block.SameMembers a c := h.trans ⟨congrArg Cas.mbr (k.keeps .cas ht), congrArg Cas.up (k.keeps .cas ht)⟩

theorem Block.SameMembers.frames (h : Block.SameMembers a b) (k : Block.OnlyFrames b c) : Block.SameMembers a c := by
  obtain ⟨q, o, hc⟩ := k
  exact h.of_parts (by rw [hc]) (by rw [hc])

theorem Block.SameMembers.ite {p : Prop} [Decidable p] (h : Block.SameMembers a b) (k : Block.SameMembers a c) :
    Block.SameMembers a (if p then b else c) := by
  split
  · exact h
  · exact k

theorem Block.SameMembers.fold {α : Type} {f : Block → α → Block} (r : List α) (h : Block.SameMembers a b)
    (k : ∀ x e, Block.SameMembers a x → Block.SameMembers a (f x e)) : Block.SameMembers a (r.foldl f b) :=
  List.foldlRecOn r f h (fun x hx e _ => k x e hx)

theorem Block.SameMembers.member (h : Block.SameMembers a b) (m : Nat) : b.mbr m = a.mbr m := by
  unfold Block.mbr
  rw [h.mbr]

variable (h : Block.SameMembers a b)
include h

theorem Block.SameMembers.casHello : Block.SameMembers a b.casHello := h.frames (Block.casSend_onlyFrames ..)

theorem Block.SameMembers.casReview {member : Bool} : Block.SameMembers a (b.casReview member) := by
  have hnext : Block.SameMembers a b.casEpochNext := by
    unfold Block.casEpochNext
    extract_lets c shape told cas next
    have htold : Block.SameMembers a told := .ite h (.touched (h.touched (Block.count_touches ..)) (Block.irq_touches ..))
    have hnext : Block.SameMembers a next := htold.of_parts
    exact .casHello (hnext.touched (Block.casEvent_touches ..))
  exact .ite hnext h

theorem Block.SameMembers.casAdopt {e : Nat} : Block.SameMembers a (b.casAdopt e) := .ite h h.of_parts

theorem Block.SameMembers.casForward {key : List Byte} {l : Nat} {f : List Byte} : Block.SameMembers a (b.casForward key l f) := by
  have hdraw : Block.SameMembers a b.draw.2 := h.of_parts
  exact .ite h (hdraw.frames (Block.casOut_onlyFrames ..))

theorem Block.SameMembers.casTime {l hops : Nat} {payload : List Byte} : Block.SameMembers a (b.casTime l hops payload) := by
  have hmeasured (x : Int) (n : Nat) (e : Option Nat) : Block.SameMembers a (b.measure 6 15 x n e).1 := h.touched (Block.measure_touches ..)
  unfold Block.casTime Block.casTimeCheck
  dsimp only
  exact .ite (hmeasured _ _ _).of_parts (.ite (hmeasured _ _ _).of_parts (hmeasured _ _ _))

theorem Block.SameMembers.casTrigger {line t m : Nat} : Block.SameMembers a (b.casTrigger line t m) :=
  .ite ((h.touched (Block.count_touches ..)).frames (Block.casSend_onlyFrames ..)) h

theorem Block.SameMembers.capOpen {u t : Nat} {trs : List CapTrig} : Block.SameMembers a (b.capOpen u t trs) := by
  unfold Block.capOpen
  extract_lets x want pre k counted noted line r
  have hcounted : Block.SameMembers a counted := (h.touched (Block.setCapU_touches ..)).touched (Block.count_touches ..)
  have hnoted : Block.SameMembers a noted := hcounted.touched (Block.event_touches ..)
  have hr : Block.SameMembers a r.1 := hnoted.touched (Block.busSignal_touches ..)
  exact .ite (.ite hr.casTrigger hr) hnoted

theorem Block.SameMembers.capTrigger {u t : Nat} {trs : List CapTrig} : Block.SameMembers a (b.capTrigger u t trs) := by
  have hcount {x : Block} (hx : Block.SameMembers a x) (d : RegDesc) (k : Nat) : Block.SameMembers a (x.count d u 0 k) := hx.touched (Block.count_touches ..)
  unfold Block.capTrigger
  extract_lets checked x w n held rest y
  have hchecked : Block.SameMembers a checked := h.touched (Block.capHoldCheck_touches ..)
  have hheld : Block.SameMembers a held := .touched (hcount hchecked _ _).of_parts (Block.capHoldCheck_touches ..)
  refine .ite hchecked ?_
  split
  · exact hchecked.capOpen
  · split
    · exact .ite hchecked.of_parts (hcount hchecked.of_parts _ _)
    · exact hchecked
  · exact .ite hheld (.ite hheld.capOpen (hcount hheld _ _).of_parts)
  · exact hcount hchecked _ _
  · exact hchecked

theorem Block.SameMembers.busAct : Block.SameMembers a b.busAct := by
  refine .fold _ h.of_parts (fun x sig hx => ?_)
  unfold Block.busActOne
  exact .fold _ (hx.fold _ (fun _ _ hy => .ite hy (.ite hy hy.capTrigger))) (fun _ _ hy => .ite hy.of_parts hy)

theorem Block.SameMembers.busArrive {line t m : Nat} : Block.SameMembers a (b.busArrive line t m) := by
  have hr := h.touched (Block.busSignal_touches b line t m)
  unfold Block.busArrive
  dsimp only
  exact .ite hr (.ite (.busAct (hr.touched (((Touches.refl.trans (Block.count_touches ..) rfl).trans (Block.irq_touches ..) rfl).trans (l := [.vis, .rep, .evr])
    (Block.eventRep_touches ..) rfl))) hr)

theorem Block.SameMembers.placeOutput {m p : Nat} {item : List Byte} : Block.SameMembers a (b.placeOutput m p item) := by
  unfold Block.placeOutput
  dsimp only
  split
  · exact h
  · have hplaced (w : List Byte) (o : Nat) (ms : List (Nat × Nat)) :
        Block.SameMembers a { b.store o w with cas := { (b.store o w).cas with merged := ms } } := (h.touched (Block.store_touches ..)).of_parts
    exact .ite (.touched (hplaced _ _ _).of_parts (Block.outLate_touches ..)) (hplaced _ _ _)

theorem Block.SameMembers.casPlace {m soc k : Nat} {items : List (Bool × List Byte)} : Block.SameMembers a (b.casPlace m soc k items) := by
  refine h.fold _ (fun x e hx => ?_)
  split
  · exact hx.touched (Block.casTooLate_touches ..)
  · exact .ite hx.placeOutput (hx.touched (Block.placeProxy_touches ..))

theorem Block.SameMembers.casAct {l : Nat} {f : List Byte} : Block.SameMembers a (b.casAct l f) := by
  have hcount {p : Prop} [Decidable p] (d : RegDesc) (i : Nat) : Block.SameMembers a (if p then b.count d i else b) :=
    .ite (h.touched (Block.count_touches ..)) h
  unfold Block.casAct
  extract_lets m payload n soc k last
  split
  · exact .ite h.casAdopt h
  · exact .ite h.casAdopt.casTime h
  · exact h.busArrive
  · exact .ite (hcount _ _).casPlace h
  · exact .ite (hcount _ _).casPlace h
  · exact .ite (.casPlace (h.touched (Block.count_touches ..))) h
  · exact h.touched (Block.count_touches ..)
  · exact h

end members

/-! ### Frames received (R371, R372) -/

/-- What is noted of a frame's source. -/
structure CasMbr.Heard (y : CasMbr) (l hops loads at7 : Nat) (seqs : List Nat) : Prop where
  st : y.st = 1
  heard : y.heard = some at7
  loads : y.loads = loads
  hops : (if l = 0 then y.hops0 else y.hops1) = hops
  seqs : y.seqs = seqs

theorem Block.casHeard_member (b : Block) (l m : Nat) (f : List Byte) (hm : m = (f.getD 1 0).toNat % 8) :
    ((b.casHeard l f).mbr m).Heard l (b.casCount - (f.getD 3 0).toNat) (leAt f 8 4) b.t7 (b.mbr m).seqs := by
  subst hm
  unfold Block.casHeard
  extract_lets m x hops joined noted placed told set join
  have hjoin : Block.SameMembers set join := .ite (.touched (.touched .refl (Block.irq_touches ..)) (Block.casEvent_touches ..)) .refl
  have hplaced : placed.Heard l hops (leAt f 8 4) b.t7 x.seqs := by
    unfold placed
    split
    case isTrue hl => exact ⟨rfl, rfl, rfl, if_pos hl, rfl⟩
    case isFalse hl => exact ⟨rfl, rfl, rfl, if_neg hl, rfl⟩
  have htold : told.Heard l hops (leAt f 8 4) b.t7 x.seqs := by
    unfold told
    split
    · exact ⟨hplaced.st, hplaced.heard, hplaced.loads, hplaced.hops, hplaced.seqs⟩
    · exact hplaced
  rw [hjoin.casReview.member, Block.mbr_setMbr]
  exact htold

/-- A frame's number with its source's LOAD count. -/
def casSeq (f : List Byte) : Nat := leAt f 8 4 * 2 ^ 48 + leAt f 12 6

/-- What a member does with an authentic frame of another one. -/
def Block.casTake (b : Block) (key : List Byte) (l : Nat) (f : List Byte) : Block :=
  let m := (f.getD 1 0).toNat % 8
  let dest := bits (leAt f 1 1) 6 4
  let all := bit (leAt f 1 1) 7
  let first := !(b.mbr m).seqs.contains (casSeq f)
  let b := b.casHeard l f
  let b := if all || dest != b.casMember then b.casForward key l f else b
  if first = false then b
  else
    let x := b.mbr m
    let b := b.setMbr m { x with seqs := (casSeq f :: x.seqs).take 256 }
    if all = false ∧ dest ≠ b.casMember then b
    else if b.casEpochOk (f.getD 0 0).toNat (leAt f 4 4) = false then
      ((b.count Reg.CAS_MBR_STALE_EPOCH m).eventRep m 0x1307 m b.cas.epoch).casSend 0x21 m false 0 0 0 0 []
    else b.casAct l f

section receive
variable {b : Block} {l m : Nat} {k : KeySlot} {f : List Byte} (hkey : b.casKey = some k) (hon : b.casOn = true) (hup : b.cas.up.contains l = true)
  (hlen : 40 ≤ f.length) (hm : m = (f.getD 1 0).toNat % 8)
include hkey hon hup hlen hm

theorem Block.casReceive_authentic (hother : m ≠ b.casMember) (htag : f.drop (f.length - 8) = casTag k.bytes (f.take (f.length - 8))) :
    b.casReceive l f = b.casTake k.bytes l f := by
  have hopen : ¬(b.casOn = false ∨ b.cas.up.contains l = false ∨ f.length < 40) := by
    rw [hon, hup]
    simp only [Bool.true_eq_false, false_or]
    omega
  unfold Block.casReceive
  rw [hkey]
  exact (if_neg hopen).trans ((if_neg (not_not_intro htag)).trans (if_neg (hm ▸ hother)))

theorem Block.casReceive_forged (htag : f.drop (f.length - 8) ≠ casTag k.bytes (f.take (f.length - 8))) :
    b.casReceive l f = ((b.count Reg.CAS_MBR_AUTH_FAIL m).irq Blk.cas 4).eventRep m 0x1306 m b.cas.epoch := by
  have hopen : ¬(b.casOn = false ∨ b.cas.up.contains l = false ∨ f.length < 40) := by
    rw [hon, hup]
    simp only [Bool.true_eq_false, false_or]
    omega
  unfold Block.casReceive
  rw [hkey, hm]
  exact (if_neg hopen).trans (if_pos htag)

end receive

/-- The source of an authentic frame is heard, and the frame known. -/
theorem Block.casTake_member (b : Block) (key : List Byte) (l m : Nat) (f : List Byte) (hm : m = (f.getD 1 0).toNat % 8) :
    ∃ qs, ((b.casTake key l f).mbr m).Heard l (b.casCount - (f.getD 3 0).toNat) (leAt f 8 4) b.t7 qs ∧ qs.contains (casSeq f) = true := by
  have hheard := b.casHeard_member l m f hm
  unfold Block.casTake
  subst hm
  extract_lets m dest all first heard passed x noted
  have hpassed : Block.SameMembers heard passed := .ite (.casForward .refl) .refl
  have hmember : passed.mbr m = heard.mbr m := hpassed.member m
  have hnoted : (noted.mbr m).Heard l (b.casCount - (f.getD 3 0).toNat) (leAt f 8 4) b.t7 ((casSeq f :: x.seqs).take 256) := by
    unfold noted
    rw [Block.mbr_setMbr, show x = heard.mbr m from hmember]
    exact ⟨hheard.st, hheard.heard, hheard.loads, hheard.hops, rfl⟩
  have hrest : Block.SameMembers noted (if all = false ∧ dest ≠ noted.casMember then noted
      else if noted.casEpochOk (f.getD 0 0).toNat (leAt f 4 4) = false then
        ((noted.count Reg.CAS_MBR_STALE_EPOCH m).eventRep m 0x1307 m noted.cas.epoch).casSend 0x21 m false 0 0 0 0 []
      else noted.casAct l f) :=
    .ite .refl (.ite (.frames (.touched (.touched .refl (Block.count_touches ..)) (Block.eventRep_touches ..)) (Block.casSend_onlyFrames ..)) (.casAct .refl))
  by_cases hfirst : first = false
  · rw [if_pos hfirst, hmember]
    refine ⟨_, hheard, ?_⟩
    have hknown : (b.mbr m).seqs.contains (casSeq f) = true := by simpa [first] using hfirst
    exact hknown
  · rw [if_neg hfirst, hrest.member]
    exact ⟨_, hnoted, by simp⟩

/-! ### The mode that follows -/

/-- Registers that may change as the mode follows TB0. -/
def followRegs : RegSet := stopRegs ++ modeRegs

theorem Block.listenStart_alters (b : Block) : Block.Alters followRegs b b.listenStart := by
  have hidle (r : Red) : Block.Alters followRegs b (({ b with red := r } : Block).setRole 0) := .trans (.of_regs .refl) (Block.setRole_alters ..)
  unfold Block.listenStart
  exact .trans (hidle _) (Block.redSendBoth_alters ..)

theorem Block.modeFollow_alters (b : Block) : Block.Alters followRegs b b.modeFollow :=
  Block.modeFollow_induction .refl (.of_regs .refl) (fun _ _ _ hx _ => hx.trans (Block.setMode_alters ..))
    (fun x hx => (hx.trans x.ringsStop_alters).trans (Block.listenStart_alters _))

theorem Block.modeFollow_cas (b : Block) : b.modeFollow.cas = b.cas := (Block.modeFollow_touches b).keeps .cas rfl

/-! ### Links (R373) -/

/-- Registers that a link's end may change beside its own count. -/
def linkRegs : RegSet := .one Blk.cas 0x400 :: (Reg.CAS_TOPO_CHANGES.regs ++ eventRegs)

theorem Block.casReview_alters (b : Block) (member : Bool) : Block.Alters linkRegs b (b.casReview member) := by
  have hnext : Block.Alters linkRegs b b.casEpochNext := by
    unfold Block.casEpochNext
    extract_lets c shape told cas next
    have htold : Block.Alters linkRegs b told := .ite .refl (.irq (.count .refl (by decide) (by decide) (by decide)) (by decide))
    exact .touched (.event htold.of_regs) (Block.casHello_touches _)
  exact .ite hnext .refl

/-- A link that goes down. -/
theorem Block.casLinkDown_done {b : Block} {l : Nat} (hup : b.cas.up.contains l = true) : (b.casLinkDown l).cas.up = setDel b.cas.up l ∧
    b.counts (b.casLinkDown l).modeFollow (if l = 0 then Reg.CAS_LINK_DOWN_0 else Reg.CAS_LINK_DOWN_1) := by
  obtain ⟨d, hd, hlink, hfollow, hlies, hsat⟩ : ∃ d : RegDesc, d = (if l = 0 then Reg.CAS_LINK_DOWN_0 else Reg.CAS_LINK_DOWN_1) ∧
      RegSet.has (linkRegs ++ followRegs) d.blk d.off = false ∧ d.blk = 18 ∧ d.Lies ∧ ∀ q ∈ d.sat, d.off ≠ q.1 := by
    refine ⟨_, rfl, ?_⟩
    split
    · exact ⟨by decide, by decide, by decide, by decide⟩
    · exact ⟨by decide, by decide, by decide, by decide⟩
  rw [← hd]
  unfold Block.casLinkDown
  rw [if_neg (by rw [hup]; decide), ← hd]
  extract_lets cas down
  have hdown : Block.Alters [] b down := .of_regs .refl
  have hreviewed : Block.Alters linkRegs (down.count d) ((down.count d).casReview false).casHello :=
    (Block.casReview_alters ..).touched (Block.casHello_touches _)
  have hup : Block.SameMembers down ((down.count d).casReview false).casHello := (Block.SameMembers.touched .refl (Block.count_touches ..)).casReview.casHello
  exact ⟨hup.up, hdown.counts (l' := linkRegs ++ followRegs) (hreviewed.mono.trans (Block.modeFollow_alters _)) rfl hlink hlies (by decide) hsat⟩

/-- A link that comes up with the neighbour that the HELLO exchange should show. -/
theorem Block.casLinkUp_done {b : Block} {l m : Nat} (hon : b.casOn = true) (hdown : b.cas.up.contains l = false) (hkey : b.casKey.isSome = true)
    (hm : m = if l = 0 then (b.casMember + 1) % b.casCount else (b.casMember + b.casCount - 1) % b.casCount) :
    (b.casLinkUp l m b.casCount (b.ringRate 0)).cas.up = setIns b.cas.up l ∧ ((b.casLinkUp l m b.casCount (b.ringRate 0)).mbr m).st = 1 ∧
      ((b.casLinkUp l m b.casCount (b.ringRate 0)).mbr m).heard = some b.t7 := by
  unfold Block.casLinkUp
  rw [if_neg (by rw [hon, hdown]; decide), if_neg (by intro h; rw [h] at hkey; cases hkey)]
  extract_lets n want told x joined noted placed cas set join
  rw [if_neg (by rw [← show m = want from hm]; simp [n])]
  have hjoin : Block.SameMembers set join := .ite (.touched (.touched .refl (Block.irq_touches ..)) (Block.casEvent_touches ..)) .refl
  have hdone := hjoin.casReview (member := joined) |>.casHello
  have hplaced : placed.st = 1 ∧ placed.heard = some b.t7 := by
    unfold placed
    split
    · exact ⟨rfl, rfl⟩
    · exact ⟨rfl, rfl⟩
  rw [hdone.up, hdone.member, Block.mbr_setMbr]
  exact ⟨rfl, hplaced⟩

/-! ### Time (R380) -/

/-- A frame among those on their way. -/
def Block.onWay (b : Block) (l : Nat) (f : List Byte) : Prop := b.cas.out.1 = b.t7 ∧ (l, f) ∈ b.cas.out.2

theorem Block.casOut_sends {b : Block} {l : Nat} (f : List Byte) (hup : b.cas.up.contains l = true) : (b.casOut l f).onWay l f := by
  unfold Block.casOut
  rw [if_neg (by rw [hup]; decide)]
  exact ⟨rfl, List.mem_append_right _ List.mem_cons_self⟩

/-- A frame of the same class goes behind it. -/
theorem Block.casOut_keeps {b : Block} {l l' : Nat} {f : List Byte} (h : b.onWay l f) : (b.casOut l' f).onWay l f := by
  obtain ⟨hat, hin⟩ := h
  unfold Block.casOut
  split
  · exact ⟨hat, hin⟩
  · refine ⟨rfl, List.mem_append_left _ (List.mem_filter.mpr ⟨?_, by simp⟩)⟩
    exact hin

theorem Block.casOut_up (b : Block) (l : Nat) (f : List Byte) : (b.casOut l f).cas.up = b.cas.up := by
  obtain ⟨q, o, ho⟩ := b.casOut_onlyFrames l f
  rw [ho]

theorem Block.casOut_seq (b : Block) (l : Nat) (f : List Byte) : (b.casOut l f).cas.seq = b.cas.seq := by
  unfold Block.casOut
  split <;> rfl

/-- The master's TIME frame goes out on the links that are up. -/
theorem Block.timeFrameSend_done {b : Block} {k : KeySlot} (hmaster : b.casMaster = true) (hkey : b.casKey = some k) :
    b.timeFrameSend.cas.seq = (b.cas.seq + 1) % 2 ^ 48 ∧ ∀ l, l < 2 → b.cas.up.contains l = true → b.timeFrameSend.cas.out.1 = b.t7 ∧
      b.timeFrameSend.cas.out.2.contains (l, b.casFrame k.bytes 2 0 true 0 0 0 0 (tt80 (b.tbNow 6) ++ leBytes 8 0)) = true := by
  have hon : b.casOn = true := by
    unfold Block.casMaster at hmaster
    rw [Bool.and_eq_true] at hmaster
    exact hmaster.1
  have heq : b.timeFrameSend = (({ b with cas := { b.cas with seq := (b.cas.seq + 1) % 2 ^ 48 } } : Block).casOut 0
      (b.casFrame k.bytes 2 0 true 0 0 0 0 (tt80 (b.tbNow 6) ++ leBytes 8 0))).casOut 1 (b.casFrame k.bytes 2 0 true 0 0 0 0 (tt80 (b.tbNow 6) ++ leBytes 8 0)) := by
    unfold Block.timeFrameSend Block.casSend
    rw [if_pos hmaster, hkey]
    exact if_pos hon
  rw [heq]
  generalize b.casFrame k.bytes 2 0 true 0 0 0 0 (tt80 (b.tbNow 6) ++ leBytes 8 0) = f
  obtain ⟨y, hy, hyt7, hyup, hyseq⟩ : ∃ y : Block, ({ b with cas := { b.cas with seq := (b.cas.seq + 1) % 2 ^ 48 } } : Block) = y ∧ y.t7 = b.t7 ∧ y.cas.up = b.cas.up ∧
      y.cas.seq = (b.cas.seq + 1) % 2 ^ 48 := ⟨_, rfl, rfl, rfl, rfl⟩
  rw [hy]
  refine ⟨by rw [Block.casOut_seq, Block.casOut_seq, hyseq], fun l hl hup => ?_⟩
  have ht7 : ((y.casOut 0 f).casOut 1 f).t7 = b.t7 :=
    (((Block.casOut_touches y 0 f).trans (Block.casOut_touches (y.casOut 0 f) 1 f) rfl).keeps .t7 rfl).trans hyt7
  have hsent : ((y.casOut 0 f).casOut 1 f).onWay l f := by
    obtain rfl | rfl : l = 0 ∨ l = 1 := by omega
    · exact Block.casOut_keeps (Block.casOut_sends f (hyup ▸ hup))
    · exact Block.casOut_sends f (by rw [Block.casOut_up, hyup]; exact hup)
  exact ⟨hsent.1.trans ht7, List.contains_iff_mem.mpr hsent.2⟩

theorem Block.delayExchange_done {b : Block} {l : Nat} (d : Nat) (hup : b.cas.up.contains l = true) :
    Tbl.get (b.delayExchange l d).cas.delays l [] = (d :: Tbl.get b.cas.delays l []).take 8 := by
  unfold Block.delayExchange
  rw [if_pos hup]
  dsimp only
  rw [Tbl.get_put_same]

theorem Block.timeFault_done {b : Block} {a : Nat} (hbad : b.cas.badSince = some a) (hlong : a + nsPerS ≤ b.t7) (hok : b.cas.timeOk = true) :
    b.timeFault.cas.timeOk = false ∧ bit (b.timeFault.vis Reg.CAS_IRQ_STATUS).toNat 5 = true := by
  have heq : b.timeFault = (({ b with cas := { b.cas with timeOk := false } } : Block).irq Blk.cas 5).casEvent 0x1309 b.casMember := by
    unfold Block.timeFault
    rw [hbad]
    exact if_pos ⟨hlong, hok⟩
  rw [heq]
  generalize hcleared : ({ b with cas := { b.cas with timeOk := false } } : Block) = y
  have hy : y.cas.timeOk = false := by rw [← hcleared]
  have htold : Touches [.vis, .evr] y ((y.irq Blk.cas 5).casEvent 0x1309 b.casMember) := (Touches.refl.trans (Block.irq_touches ..) rfl).trans (Block.casEvent_touches ..) rfl
  have hraised : Block.Alters eventRegs (y.irq Blk.cas 5) ((y.irq Blk.cas 5).casEvent 0x1309 b.casMember) := .event .refl
  exact ⟨(congrArg Cas.timeOk (htold.keeps .cas rfl)).trans hy, hraised.irqStatus (by decide) (by decide)⟩

/-! ### A member lost (R379) -/

theorem Block.alnCtx_of_aln {a b : Block} (h : b.aln = a.aln) (c : Nat) : b.alnCtx c = a.alnCtx c := by
  unfold Block.alnCtx
  rw [h]

/-- A context gone SILENT. -/
theorem Block.silence_silent (b : Block) (c : Nat) : ((b.silence c).alnCtx c).silent = true := by
  unfold Block.silence
  dsimp only
  split
  · assumption
  · rw [Block.alnCtx_of_aln (((Touches.refl.trans (Block.count_touches ..) rfl).trans (Block.irq_touches ..) rfl |>.trans (l := [.vis, .rep, .evr])
      (Block.eventRep_touches ..) rfl).keeps .aln rfl)]
    rw [Block.alnCtx_setAlnCtx]

theorem Block.silence_keeps {b : Block} {c : Nat} (h : (b.alnCtx c).silent = true) (d : Nat) : ((b.silence d).alnCtx c).silent = true := by
  by_cases hcd : c = d
  · exact hcd ▸ b.silence_silent d
  · unfold Block.silence
    dsimp only
    split
    · exact h
    · rw [Block.alnCtx_of_aln (((Touches.refl.trans (Block.count_touches ..) rfl).trans (Block.irq_touches ..) rfl |>.trans (l := [.vis, .rep, .evr])
        (Block.eventRep_touches ..) rfl).keeps .aln rfl)]
      rw [Block.alnCtx_setAlnCtx_other _ _ hcd]
      exact h

theorem Block.silenceAll_silent (l : List (Nat × Nat)) (b : Block) {c : Nat} (h : (b.alnCtx c).silent = true ∨ ∃ e ∈ l, e.2 = c) :
    ((l.foldl (fun b e => b.silence e.2) b).alnCtx c).silent = true := by
  induction l generalizing b with
  | nil =>
    rcases h with h | ⟨e, he, -⟩
    · exact h
    · cases he
  | cons x xs ih =>
    refine ih _ ?_
    rcases h with h | ⟨e, he, rfl⟩
    · exact .inl (Block.silence_keeps h _)
    · rcases List.mem_cons.mp he with rfl | he
      · exact .inl (b.silence_silent _)
      · exact .inr ⟨e, he, rfl⟩

/-- Registers that the loss of a member may change before the new epoch. -/
def lostRegs : RegSet := .one Blk.cas 0x400 :: .all Blk.aln :: (Reg.ALN_CTX_SILENCED.offs ++ eventRegs)

theorem Block.Alters.silence {a b : Block} (h : Block.Alters lostRegs a b) (c : Nat) : Block.Alters lostRegs a (b.silence c) := by
  unfold Block.silence
  exact .ite h (.eventRep (.irq (.countAny (.of_regs h) (by decide) (by decide)) (by decide)))

theorem Block.BitAt.silence {n : Nat} {b : Block} (h : b.BitAt (regKey Blk.cas 15 0 0x400) n) (c : Nat) : (b.silence c).BitAt (regKey Blk.cas 15 0 0x400) n := by
  have hcount (x : AlnCtx) : ((b.setAlnCtx c x).count Reg.ALN_CTX_SILENCED c).BitAt (regKey Blk.cas 15 0 0x400) n :=
    h.keep ((Block.Alters.countAny (l := Reg.ALN_CTX_SILENCED.offs) (.of_regs .refl) (by decide) (by decide)).reg _ (by decide))
  unfold Block.silence
  dsimp only
  split
  · exact h
  · exact Block.BitAt.keep ((hcount _).irq Blk.aln 2) ((Block.Alters.eventRep (l := eventRegs) .refl).reg _ (by decide))

theorem Block.BitAt.casReview {n : Nat} {b : Block} (h : b.BitAt (regKey Blk.cas 15 0 0x400) n) (member : Bool) :
    (b.casReview member).BitAt (regKey Blk.cas 15 0 0x400) n := by
  have hnext : b.casEpochNext.BitAt (regKey Blk.cas 15 0 0x400) n := by
    unfold Block.casEpochNext
    extract_lets c shape told cas next
    have htold : told.BitAt (regKey Blk.cas 15 0 0x400) n := by
      unfold told
      split
      · exact h
      · exact (h.keep ((Block.count_alters b Reg.CAS_TOPO_CHANGES (by decide) (by decide)).reg _ (by decide))).irq Blk.cas 1
    have hnext : next.BitAt (regKey Blk.cas 15 0 0x400) n := htold
    exact hnext.keep (((Block.Alters.event (l := eventRegs) .refl).touched (Block.casHello_touches _)).reg _ (by decide))
  unfold Block.casReview
  split
  · exact hnext
  · exact h

theorem Block.casEpochNext_epoch (b : Block) : b.casEpochNext.cas.epoch = (b.cas.epoch + 1) % 2 ^ 32 := by
  unfold Block.casEpochNext
  extract_lets c shape told cas next
  obtain ⟨q, o, ho⟩ := Block.casSend_onlyFrames (next.casEvent 0x1301 0xFFFF shape) 1 0 true 0 0 0 0
    (leBytes 1 (b2n ((next.casEvent 0x1301 0xFFFF shape).cas.up.contains 0) + 2 * b2n ((next.casEvent 0x1301 0xFFFF shape).cas.up.contains 1)))
  exact (congrArg Cas.epoch ho).trans (congrArg Cas.epoch ((Block.casEvent_touches next ..).keeps .cas rfl))

theorem Block.Alters.casMaster {l : RegSet} {a b : Block} (h : Block.Alters l a b) (hl : l.has Blk.cas 0x408 = false) (hcas : b.cas.excluded = a.cas.excluded) :
    b.casMaster = a.casMaster := by
  unfold Block.casMaster Block.casOn Block.casMember Block.cb Block.cf
  have hcfg := h.cfg (d := Reg.CAS_CFG) (i := 0) (k := 0) hl (by decide) (by decide)
  rw [hcfg, hcas]

/-- A member that the master has not heard for 1 ms. -/
theorem Block.memberLost_done {b : Block} {m a : Nat} (hmaster : b.casMaster = true) (hst : (b.mbr m).st = 1) (hheard : (b.mbr m).heard = some a)
    (hlong : a + 1000000 ≤ b.t7) : ((b.memberLost m).mbr m).st = 0 ∧ (b.memberLost m).cas.epoch = (b.cas.epoch + 1) % 2 ^ 32 ∧
      bit ((b.memberLost m).vis Reg.CAS_IRQ_STATUS).toNat 3 = true ∧ ∀ e ∈ b.cas.proxy, e.1 / 8192 = m → ((b.memberLost m).alnCtx e.2).silent = true := by
  unfold Block.memberLost
  extract_lets x due absent told quiet
  have hdue : due = true := by
    unfold due x
    rw [hheard]
    exact decide_eq_true hlong
  rw [if_neg (by rw [hmaster, show x.st = 1 from hst, hdue]; decide)]
  have htold : Touches [.vis, .evr] absent told := (Touches.refl.trans (Block.irq_touches ..) rfl).trans (Block.casEvent_touches ..) rfl
  have hbit : told.BitAt (regKey Blk.cas 15 0 0x400) 3 :=
    (Block.bitAt_irq absent Blk.cas (by decide)).keep ((Block.Alters.event (l := eventRegs) .refl).reg _ (by decide))
  have htoldregs : Block.Alters lostRegs b told := .event (.irq (.of_regs .refl) (by decide))
  have hquiet : Touches [.vis, .rep, .evr, .aln] told quiet := Touches.fold .refl (fun _ _ hx => hx.trans (Block.silence_touches ..) rfl)
  have hquietregs : Block.Alters lostRegs b quiet := htoldregs.fold _ (fun _ e hx => hx.silence e.2)
  have hquietbit : quiet.BitAt (regKey Blk.cas 15 0 0x400) 3 := List.foldlRecOn _ _ hbit (fun _ hx e _ => hx.silence e.2)
  have hcas : quiet.cas = absent.cas := (hquiet.keeps .cas rfl).trans (htold.keeps .cas rfl)
  have hstill : quiet.casMaster = true := (hquietregs.casMaster (by decide) (by rw [hcas]; rfl)).trans hmaster
  have hreview : quiet.casReview true = quiet.casEpochNext := if_pos (by rw [hstill]; rfl)
  have hmember : (quiet.casReview true).mbr m = absent.mbr m := by
    rw [(Block.SameMembers.casReview .refl).member]
    unfold Block.mbr
    rw [hcas]
  refine ⟨?_, ?_, hquietbit.casReview true, fun e he hem => ?_⟩
  · rw [hmember, Block.mbr_setMbr]
  · rw [hreview, Block.casEpochNext_epoch, hcas]
    rfl
  · rw [Block.alnCtx_of_aln ((Block.casReview_touches quiet true).keeps .aln rfl)]
    refine Block.silenceAll_silent _ told (.inr ⟨e, List.mem_filter.mpr ⟨?_, by simpa using hem⟩, rfl⟩)
    rw [htold.keeps .cas rfl]
    exact he

/-- Settles O40: each command by the lemma of what it leaves; the mode that follows leaves the cascade's state and counters. -/
theorem theCascadeKeepsItsMembers : Obligations.TheCascadeKeepsItsMembers := by
  refine ⟨fun t l m k f s hl hkey hon hup hlen hm hother => ?_, fun t l s hl hup => ?_, fun t l m count rate s hl hm8 hon hdown hkey hcount hm hrate => ?_,
    fun t k s hmaster hkey => ?_, fun t l d s hl hup => ?_, fun t m a s hm8 hmaster hst hheard hlong => ?_, fun t a s hbad hlong hok => ?_⟩
  · refine Completes.runIf (f := fun b => (b.casReceive l f).modeFollow) rfl (decide_eq_true hl) ?_
    by_cases htag : f.drop (f.length - 8) = casTag k.bytes (f.take (f.length - 8))
    · rw [if_pos htag, Block.casReceive_authentic (b := s.at t) hkey hon hup hlen hm hother htag]
      obtain ⟨qs, hheard, hknown⟩ := (s.at t).casTake_member k.bytes l m f hm
      have hmember : (((s.at t).casTake k.bytes l f).modeFollow).mbr m = ((s.at t).casTake k.bytes l f).mbr m := by
        unfold Block.mbr
        rw [Block.modeFollow_cas]
      rw [hmember]
      exact ⟨hheard.st, hheard.heard, hheard.loads, by rw [hheard.seqs]; exact hknown, hheard.hops⟩
    · rw [if_neg htag, Block.casReceive_forged (b := s.at t) hkey hon hup hlen hm htag]
      have hm8 : m < 8 := hm ▸ Nat.mod_lt _ (by decide)
      generalize hb : s.at t = b
      have hafter : Block.Alters (.one Blk.cas 0x400 :: followRegs) (b.count Reg.CAS_MBR_AUTH_FAIL m)
          ((((b.count Reg.CAS_MBR_AUTH_FAIL m).irq Blk.cas 4).eventRep m 0x1306 m b.cas.epoch).modeFollow) :=
        .trans (.eventRep (.irq .refl (by decide))) (Block.modeFollow_alters _)
      have hcount : b.counts _ Reg.CAS_MBR_AUTH_FAIL m :=
        (Block.Alters.refl (l := [])).counts hafter (by decide) (by decide) (by decide) (by omega) (by decide)
      have hcas : ((((b.count Reg.CAS_MBR_AUTH_FAIL m).irq Blk.cas 4).eventRep m 0x1306 m b.cas.epoch).modeFollow).cas = b.cas :=
        (Block.modeFollow_cas _).trans ((((Touches.refl.trans (Block.count_touches ..) rfl).trans (Block.irq_touches ..) rfl).trans (l := [.vis, .rep, .evr])
          (Block.eventRep_touches ..) rfl).keeps .cas rfl)
      subst hb
      refine ⟨hcount, ?_⟩
      unfold Block.mbr
      rw [hcas]
      rfl
  · refine Completes.runIf (f := fun b => (b.casLinkDown l).modeFollow) rfl (decide_eq_true hl) ?_
    obtain ⟨hgone, hcount⟩ := Block.casLinkDown_done (b := s.at t) hup
    exact ⟨(congrArg Cas.up (Block.modeFollow_cas _)).trans hgone, hcount⟩
  · subst hcount hrate
    refine Completes.runIf (f := fun b => b.casLinkUp l m s.blk.casCount (s.blk.ringRate 0)) rfl ?_ (Block.casLinkUp_done (b := s.at t) hon hdown hkey hm)
    rw [Bool.and_eq_true]
    exact ⟨decide_eq_true hl, decide_eq_true hm8⟩
  · exact Completes.run (f := Block.timeFrameSend) rfl (Block.timeFrameSend_done (b := s.at t) hmaster hkey)
  · exact Completes.runIf (f := fun b => b.delayExchange l d) rfl (decide_eq_true hl) (Block.delayExchange_done (b := s.at t) d hup)
  · exact Completes.runIf (f := fun b => b.memberLost m) rfl (decide_eq_true hm8) (Block.memberLost_done (b := s.at t) hmaster hst hheard hlong)
  · exact Completes.run (f := Block.timeFault) rfl (Block.timeFault_done (b := s.at t) hbad hlong hok)

end Sys2Proof.Machine
end

section
/-! PROOFS. Tamper, violations and releases (O44). -/

/- One declaration after the other: the text is checked as one, with room for few threads. -/
set_option Elab.async false

namespace Sys2Proof.Machine

/-! ### Registers as a core loses its firing -/

/-- Registers that a lost firing may change: those of the engine, the alarms that it still publishes to, the ripple epochs that it ends, and the captures
that these trigger. -/
def lossRegs : RegSet := .all Blk.rpl :: (trigRegs ++ stopRegs)

section loss
variable {a b : Block} (h : Block.Alters lossRegs a b)
include h

theorem Block.Alters.countWindow {d : RegDesc} {i n : Nat} (hs : d.offs.sub [.windows] = true) (hd : d.Lies) : Block.Alters lossRegs a (b.count d i 0 n) :=
  h.trans (l' := [.windows]) (.countAny .refl hs hd)

theorem Block.Alters.capFire {type t : Nat} {p : Nat → Bool} : Block.Alters lossRegs a (b.capFire type t p) :=
  h.fold _ (fun _ _ hx => hx.trans (Block.Alters.capTrigger .refl))

theorem Block.Alters.almItem {d kind st r seq : Nat} : Block.Alters lossRegs a (b.almItem d kind st r seq) :=
  .ite h (.ite (.countBlk h.push (by decide) (by decide) (by decide)) h.push)

theorem Block.Alters.evalDef {r seq d : Nat} : Block.Alters lossRegs a (b.evalDef r seq d) := by
  unfold Block.evalDef
  extract_lets x c vals inv invalid vs n raw can settle
  refine .ite h.of_regs (.ite ?_ ?_)
  · exact h.trans (Block.Alters.holdDef .refl)
  · split
    extract_lets y set settled
    have hset : Block.Alters lossRegs a set := h.of_regs
    have hsettled : Block.Alters lossRegs a settled :=
      .ite (.ite hset.almItem.event (.irq (hset.almItem.countWindow (by decide) (by decide)) (by decide))) hset
    exact .ite (.capFire (.event (.irq (hsettled.almItem.countWindow (by decide) (by decide)) (by decide))))
      (.ite (.event (.irq hsettled.almItem (by decide))) (.ite hsettled.almItem.event hsettled))

theorem Block.Alters.almPublish {r kind n tag : Nat} : Block.Alters lossRegs a (b.almPublish r kind n tag) := by
  have heval (x : Block) (hx : Block.Alters lossRegs a x) : Block.Alters lossRegs a (x.almEvaluate r) := by
    unfold Block.almEvaluate
    split
    · exact .trans (hx.fold _ (fun _ _ hy => .ite hy.evalDef hy)) (Block.Alters.almDeliver .refl)
    · exact hx
  unfold Block.almPublish
  split
  · exact .ite (heval _ h.of_regs) h
  · exact h

theorem Block.Alters.hostOutPost {q item : Nat} : Block.Alters lossRegs a (b.hostOutPost q item) :=
  .ite (.countBlk h.push (by decide) (by decide) (by decide)) h.push

theorem Block.Alters.toSink {f : Firing} {d : OpDef} {s : Dest} {inc : Bool} {value : Nat} : Block.Alters lossRegs a (b.toSink f d s inc value) := by
  unfold Block.toSink
  split
  · exact h
  · exact .ite h h.almPublish
  · exact h
  · exact .ite h h.of_regs
  · exact h.of_regs
  · exact h.hostOutPost

theorem Block.Alters.emitLost {f : Firing} {d : OpDef} {e : Emit} : Block.Alters lossRegs a (b.emitLost f d e) := by
  have hc : Block.Alters lossRegs a (b.count Reg.DFE_INCOMPLETE_TOKENS) := h.countBlk (by decide) (by decide) (by decide)
  unfold Block.emitLost
  split
  · exact h
  · exact hc.toSink
  · exact .ite (.ite h (h.trans (Block.Alters.carryPorts .refl))) (hc.trans (Block.Alters.offerToken .refl))

theorem Block.Alters.writeResult {epoch seq slot bad : Nat} : Block.Alters lossRegs a (b.writeResult epoch seq slot bad) := by
  unfold Block.writeResult
  dsimp only
  exact .ite h (.push (.setVis (h.touched (Block.store_touches ..)) (by decide) (by decide) (by decide)))

theorem Block.Alters.epochWithheld {fault : Bool} : Block.Alters lossRegs a (b.epochWithheld fault) := by
  have hcount {x : Block} (hx : Block.Alters lossRegs a x) (d : RegDesc) (n code e : Nat) (hd : RegSet.sub [.all d.blk] lossRegs = true) (hl : d.Lies) :
      Block.Alters lossRegs a (((x.count d).irq Blk.rpl n).event code 0xFFFF e) := .event (.irq (hx.countBlk hd hl (by decide)) (by decide))
  have hwarm {x : Block} (hx : Block.Alters lossRegs a x) (e : Nat) : Block.Alters lossRegs a (x.warmEnd e) := .ite (.event hx.of_regs) hx
  unfold Block.epochWithheld
  split
  · exact h
  · extract_lets rpl kept counted ended
    have hkept : Block.Alters lossRegs a kept := h.of_regs
    have hcounted : Block.Alters lossRegs a counted := .ite (hcount hkept Reg.RPL_SOLVE_FAULT _ _ _ (by decide) (by decide)) (hcount hkept Reg.RPL_EPOCH_MISS _ _ _ (by decide) (by decide))
    exact .writeResult ((hwarm hcounted _).touched (Block.setDominant_touches ..))

theorem Block.Alters.loseRunning {c : Nat} : Block.Alters lossRegs a (b.loseRunning c) := by
  have hcount {x : Block} (hx : Block.Alters lossRegs a x) (d : RegDesc) (n : Nat) (hd : RegSet.sub [.all d.blk] lossRegs = true) (hl : d.Lies) :
      Block.Alters lossRegs a (x.count d 0 0 n) := hx.countBlk hd hl (by decide)
  unfold Block.loseRunning
  extract_lets x cut
  split
  · exact h
  · have hcut : Block.Alters lossRegs a cut := h.touched (Block.setCore_touches ..)
    split
    · exact hcut
    · extract_lets left n carried
      have hcarried : Block.Alters lossRegs a carried := .ite hcut (hcut.trans (Block.Alters.carryPorts .refl))
      have hlost (f : Firing) (d : OpDef) : Block.Alters lossRegs a (left.foldl (fun b e => b.emitLost f d e) cut) := hcut.fold _ (fun _ _ hx => hx.emitLost)
      refine .ite (.ite hcut (hcount hcut _ _ (by decide) (by decide))) (.ite (.ite hcarried (hcount hcarried _ _ (by decide) (by decide))) ?_)
      exact .ite (.ite (hlost _ _).epochWithheld (.ite (hlost _ _).of_regs (hlost _ _))) (hlost _ _)

theorem Block.Alters.coreFrozen {c : Nat} : Block.Alters lossRegs a (b.coreFrozen c) :=
  .event (.irq (.countBlk (.loseRunning (h.touched (Block.leavePool_touches ..))) (by decide) (by decide) (by decide)) (by decide))

end loss

/-! ### A mover that is frozen or let go -/

/-- Registers that a change of DEGRADED may change. -/
def degradeRegs : RegSet := .windows :: (serveRegs ++ modeRegs)

theorem Block.degrade_alters (b : Block) (f : Sys → Sys) : Block.Alters degradeRegs b (b.degrade f) := by
  have hmode (x : Block) (hx : Block.Alters degradeRegs b x) (m : Mode) (cause : Nat) : Block.Alters degradeRegs b ((x.setMode m cause).redYield) :=
    .trans (hx.trans (Block.setMode_alters ..)) (Block.redYield_alters _)
  unfold Block.degrade
  dsimp only
  split
  · exact .ite (.of_regs .refl) (hmode _ (.of_regs .refl) _ _)
  · exact .ite (.of_regs .refl) (hmode _ (.of_regs .refl) _ _)
  · exact .of_regs .refl

theorem Block.dmaFreeze_alters (b : Block) (e : Nat) : Block.Alters degradeRegs b (b.dmaFreeze e) := by
  unfold Block.dmaFreeze
  extract_lets dma frozen told
  have hfrozen : Block.Alters degradeRegs b frozen := .of_regs .refl
  have htold : Block.Alters degradeRegs b told := by
    unfold told
    split
    · refine .event (Block.Alters.trans (l' := [.windows]) ?_ (.countAny .refl (by decide) (by decide)))
      exact .touched (.touched (hfrozen.touched (Block.setDmaCh_touches ..)) (Block.setRunning_touches ..)) (Block.unstall_touches ..)
    · exact hfrozen.event
  exact htold.trans (Block.degrade_alters ..)

/-! ### Violations (R415) -/

/-- Registers that a violation may change after its count and interrupt. -/
def violRegs : RegSet := lossRegs ++ degradeRegs

theorem Block.violate_tail (b : Block) (m addr size : Nat) (w : Bool) : ∃ x : Block, x.acc.frozen = setIns b.acc.frozen m ∧ Block.Alters [] b x ∧
    ∃ told : Block, told = (((x.count Reg.ACC_VIOLATIONS).irq Blk.acc 0).event 0x1601 m addr (addr / 2 ^ 32)).answer m .violation ∧
    b.violate m addr size w = if 4 ≤ m ∧ m < 52 then told.coreFrozen (m - 4) else if m = 52 ∨ m = 53 then told.dmaFreeze (m - 52) else told := by
  unfold Block.violate
  extract_lets x told
  exact ⟨x, rfl, .of_regs .refl, told, rfl, rfl⟩

theorem Block.violate_done (b : Block) (m addr size : Nat) (w : Bool) : (b.violate m addr size w).isFrozen m = true ∧
    b.counts (b.violate m addr size w) Reg.ACC_VIOLATIONS ∧ bit ((b.violate m addr size w).vis Reg.ACC_IRQ_STATUS).toNat 0 = true ∧
    (m < 4 → Tbl.get (b.violate m addr size w).resp m (.value 0) = .violation) := by
  obtain ⟨x, hfrozen, hx, told, htold, heq⟩ := b.violate_tail m addr size w
  have hafter : Block.Alters violRegs told (b.violate m addr size w) := by
    rw [heq]
    split
    · exact .trans .refl (Block.Alters.coreFrozen .refl)
    · exact .ite ((Block.dmaFreeze_alters ..).mono) .refl
  have hacc : (b.violate m addr size w).acc = told.acc := by
    rw [heq]
    split
    · exact (Block.coreFrozen_touches ..).keeps .acc rfl
    · split
      · exact (Block.dmaFreeze_touches ..).keeps .acc rfl
      · rfl
  have htoldacc : told.acc = x.acc := by
    rw [htold]
    exact ((((Touches.refl.trans (Block.count_touches ..) rfl).trans (Block.irq_touches ..) rfl).trans (Block.event_touches ..) rfl).trans
      (l := [.vis, .evr, .resp]) (Block.answer_touches ..) rfl).keeps .acc rfl
  have hcounted : Block.Alters (.one Blk.acc 0x400 :: violRegs) (x.count Reg.ACC_VIOLATIONS) (b.violate m addr size w) := by
    rw [htold] at hafter
    exact .trans (.answer (.event (.irq .refl (by decide)))) hafter
  have hraised : Block.Alters violRegs ((x.count Reg.ACC_VIOLATIONS).irq Blk.acc 0) (b.violate m addr size w) := by
    rw [htold] at hafter
    exact .trans (.answer (.event .refl)) hafter
  refine ⟨?_, hx.counts hcounted rfl (by decide) (by decide) (by decide) (by decide), hraised.irqStatus (by decide) (by decide), fun hm => ?_⟩
  · unfold Block.isFrozen
    rw [hacc, htoldacc, hfrozen]
    exact setIns_contains ..
  · rw [heq, if_neg (by omega), if_neg (by omega), htold]
    exact Block.answer_resp ..

/-! ### Releases (R416) -/

/-- A release by HC0 of a frozen master other than itself lifts its freeze; any other is counted. -/
theorem Block.accRelease_done {b : Block} {m x : Nat} (h : b.selInst 24 m 1 = some x) :
    if m = 0 ∧ x ≠ 0 ∧ b.isFrozen x = true then (b.accRelease m).acc.frozen = setDel b.acc.frozen x
    else (b.accRelease m).acc = b.acc ∧ b.counts (b.accRelease m) Reg.ACC_REL_REFUSED := by
  unfold Block.accRelease
  rw [show b.selInst Blk.acc m 1 = some x from h]
  by_cases hmet : m = 0 ∧ x ≠ 0 ∧ b.isFrozen x = true
  · obtain ⟨hm, hx, hfrozen⟩ := hmet
    rw [if_pos ⟨hm, hx, hfrozen⟩]
    dsimp only
    rw [if_neg (by rw [hfrozen]; simp [hm, hx])]
    generalize hlifted : ({ b with acc := { b.acc with frozen := setDel b.acc.frozen x } } : Block) = y
    have hy : y.acc.frozen = setDel b.acc.frozen x := by rw [← hlifted]
    have hevent : (y.event 0x1602 x).acc = y.acc := (Block.event_touches ..).keeps .acc rfl
    split
    · rw [(Block.dmaThaw_touches ..).keeps .acc rfl, hevent, hy]
    · rw [hevent, hy]
  · rw [if_neg hmet]
    have hrefused : m ≠ 0 ∨ x = 0 ∨ b.isFrozen x = false := by
      by_contra hall
      simp only [not_or, ne_eq, not_not, Bool.not_eq_false] at hall
      exact hmet hall
    dsimp only
    rw [if_pos hrefused]
    exact ⟨(Touches.refl.trans (Block.count_touches ..) rfl |>.trans (l := [.vis, .evr]) (Block.event_touches ..) rfl).keeps .acc rfl,
      (Block.Alters.refl (l := [])).counts (l' := eventRegs) (.event .refl) (by decide) (by decide) (by decide) (by decide) (by decide)⟩

/-! ### Tamper (R400, R406) -/

theorem Block.setMode_zeroised (b : Block) (m : Mode) (cause : Nat) : (b.setMode m cause).sys.zeroised = b.sys.zeroised := by
  by_cases hmode : b.sys.mode = m
  · rw [show b.setMode m cause = b from if_pos hmode]
  · rw [b.setMode_sys cause hmode]

theorem Block.enterHalt_zeroised (b : Block) (cause : Nat) : (b.enterHalt cause).sys.zeroised = b.sys.zeroised := by
  unfold Block.enterHalt
  split
  · rfl
  · extract_lets held power source
    have hheld : Touches [.vis, .evr, .prt, .aln] (b.setMode .halt cause) held :=
      (Touches.refl.trans (Block.ringsHalt_touches _) rfl).trans (Block.linksDown_touches _) rfl
    have hsys : held.sys = (b.setMode .halt cause).sys := hheld.keeps .sys rfl
    clear_value held
    exact (congrArg Sys.zeroised hsys).trans (b.setMode_zeroised .halt cause)

theorem Block.enterSave_zeroised (b : Block) (cause : Nat) : (b.enterSave cause).sys.zeroised = b.sys.zeroised := by
  unfold Block.enterSave
  split
  · rfl
  · rfl
  · extract_lets thawed source caused moded frozen
    have hthawed : thawed.sys = b.sys := (Block.freezeEnds_touches b).keeps .sys rfl
    have hcaused : caused.sys.zeroised = b.sys.zeroised := by
      show thawed.sys.zeroised = b.sys.zeroised
      rw [hthawed]
    have hfrozen : frozen.sys = moded.sys := by
      unfold frozen
      split
      · rfl
      · exact (Block.nrgFreeze_touches _).keeps .sys rfl
    exact (congrArg Sys.zeroised hfrozen).trans ((caused.setMode_zeroised .save cause).trans hcaused)

/-- The module's course after a zeroisation leaves the keys, the sources and ZEROISED. -/
theorem Block.tamPolicy_keeps (b : Block) : b.tamPolicy.key = b.key ∧ b.tamPolicy.tam = b.tam ∧ b.tamPolicy.sys.zeroised = b.sys.zeroised := by
  refine ⟨(Block.tamPolicy_touches b).keeps .key rfl, (Block.tamPolicy_touches b).keeps .tam rfl, ?_⟩
  unfold Block.tamPolicy
  split
  · rfl
  · split
    · exact Block.enterHalt_zeroised ..
    · exact b.enterSave_zeroised 3

/-- Reports of sources leave the sources asserted as they are. -/
theorem Block.tamReports_asserted (l : List Nat) (b : Block) : (l.foldl Block.tamReport b).tam.asserted = b.tam.asserted := by
  refine List.foldlRecOn (motive := fun x : Block => x.tam.asserted = b.tam.asserted) l _ rfl (fun x hx i _ => Eq.trans ?_ hx)
  unfold Block.tamReport
  extract_lets tam y
  have hreported : ((((y.count Reg.TAM_EVENTS).irq Blk.tam 0).event 0x1503 i)).tam = y.tam :=
    (((Touches.refl.trans (Block.count_touches ..) rfl).trans (Block.irq_touches ..) rfl).trans (l := [.vis, .evr]) (Block.event_touches ..) rfl).keeps .tam rfl
  exact (congrArg Tam.asserted hreported).trans rfl

theorem Tam.logAll_asserted (l : List Nat) (x : Tam) (e : Nat) : (l.foldl (fun x s => x.logged s e) x).asserted = x.asserted := by
  refine List.foldlRecOn (motive := fun y : Tam => y.asserted = x.asserted) l _ rfl (fun y hy i _ => Eq.trans ?_ hy)
  unfold Tam.logged
  split <;> rfl

/-- What a source newly asserted does. -/
theorem Block.tamper_done {b : Block} (x : TamSight) (elapsed : Option Nat)
    (h : (List.range 8).any (fun i => b.tamAsserts x elapsed.isNone i && !b.tam.asserted.contains i) = true) :
    (b.tamper x elapsed).sys.zeroised = true ∧ (b.tamper x elapsed).key = b.key.wiped ∧
      (b.tamper x elapsed).tam.asserted = (List.range 8).filter (b.tamAsserts x elapsed.isNone) := by
  unfold Block.tamper
  extract_lets now new tam seen
  have hnew : new ≠ [] := by
    obtain ⟨i, hi, hasserted⟩ := List.any_eq_true.mp h
    rw [Bool.and_eq_true] at hasserted
    exact List.ne_nil_of_mem (List.mem_filter.mpr ⟨List.mem_filter.mpr ⟨hi, hasserted.1⟩, hasserted.2⟩)
  have hseen : seen.tam.asserted = now := rfl
  clear_value new
  obtain ⟨s, r, rfl⟩ := List.exists_cons_of_ne_nil hnew
  cases elapsed with
  | some e => exact ⟨rfl, rfl, Tam.logAll_asserted ..⟩
  | none =>
    have hreports : ((s :: r).foldl Block.tamReport seen).tam.asserted = now := (Block.tamReports_asserted (s :: r) seen).trans hseen
    have hreported : Touches [.vis, .evr, .tam] seen ((s :: r).foldl Block.tamReport seen) :=
      Touches.fold .refl (fun _ _ hx => hx.trans (Block.tamReport_touches ..) rfl)
    have hkey : ((s :: r).foldl Block.tamReport seen).key = b.key := hreported.keeps .key rfl
    dsimp only
    generalize (s :: r).foldl Block.tamReport seen = y at *
    obtain ⟨hwiped, hsys, htam⟩ := y.zeroise_wipes s
    generalize y.zeroise s = z at *
    obtain ⟨hzkey, hztam, hzero⟩ := z.tamPolicy_keeps
    rw [hzero, hzkey, hztam, hsys, hwiped, htam, hkey, hreports]
    exact ⟨rfl, rfl, rfl⟩

/-- Settles O44: a newly asserted source by what zeroisation and the course after it leave, a violation by what its consequences may change. -/
theorem tamperZeroisesAndAccFreezes : Obligations.TamperZeroisesAndAccFreezes := by
  refine ⟨fun t now elapsed s hnew => ?_, fun t m addr size w s hm hsize hready hblocked => ?_, fun t m x s hmay hsel => ?_⟩
  · obtain ⟨hzero, hkey, hasserted⟩ := Block.tamper_done (b := s.at t) now elapsed hnew
    refine Completes.run (f := fun b => b.tamper now elapsed) rfl ⟨hzero, congrArg Key.epoch hkey, fun i _ => ?_, hasserted⟩
    exact (congrArg (fun k : Key => (Tbl.get k.slots i KeySlot.empty).valid) hkey).trans (Key.wiped_slot ..)
  · have hwf : (Wf.master m && Wf.width size) = true := by
      rw [Bool.and_eq_true]
      exact ⟨decide_eq_true hm, hsize⟩
    refine Completes.runIf (f := fun b => if b.masterReady m && !b.accOk m addr size w then b.violate m addr size w else b) rfl hwf ?_
    have hopen : ((s.at t).masterReady m && !(s.at t).accOk m addr size w) = true := by
      rw [show (s.at t).masterReady m = true from hready, show (s.at t).accOk m addr size w = false from hblocked]
      rfl
    rw [show s.blk.clock t = s.at t from rfl, if_pos hopen]
    exact (s.at t).violate_done m addr size w
  · have hsel' : (s.at t).selInst 24 m 1 = some x := hsel
    have hspace : ((s.at t).selected 24 m).1 = 1 := by
      unfold Block.selInst at hsel'
      by_contra hne
      rw [if_neg (fun h => hne h.1)] at hsel'
      cases hsel'
    refine Completes.byMaster rfl (decide_eq_true hmay.1) hmay ?_
    have hdone := Block.accRelease_done hsel'
    rw [show s.blk.clock t = s.at t from rfl, if_pos hspace]
    have hacc : ((((s.at t).accRelease m).advance m 24 0x48).answer m .written).acc = ((s.at t).accRelease m).acc :=
      ((Touches.refl.trans (Block.advance_touches ..) rfl).trans (l := [.vis, .resp]) (Block.answer_touches ..) rfl).keeps .acc rfl
    have hcount (hk : (s.at t).counts ((s.at t).accRelease m) Reg.ACC_REL_REFUSED) :
        s.blk.counts ((((s.at t).accRelease m).advance m 24 0x48).answer m .written) Reg.ACC_REL_REFUSED :=
      (congrArg BitVec.toNat (((s.at t).accRelease m).advance_reads m 24 0x48 (d := Reg.ACC_REL_REFUSED))).trans hk
    rw [hacc]
    by_cases hmet : m = 0 ∧ x ≠ 0 ∧ s.blk.isFrozen x = true
    · rw [if_pos hmet]
      rwa [if_pos (show m = 0 ∧ x ≠ 0 ∧ (s.at t).isFrozen x = true from hmet)] at hdone
    · rw [if_neg hmet]
      rw [if_neg (show ¬(m = 0 ∧ x ≠ 0 ∧ (s.at t).isFrozen x = true) from hmet)] at hdone
      exact ⟨hdone.1, hcount hdone.2⟩

end Sys2Proof.Machine
end

section
/-! PROOFS. Takeover, checkpoints, roles at start-up and planned handovers (O42). -/

/- One declaration after the other: the text is checked as one, with room for few threads. -/
set_option Elab.async false

namespace Sys2Proof.Machine

/-! ### Takeover (R385, R386, R396) -/

theorem newerEpoch_self (e : Nat) : newerEpoch e e = e := ite_self e

theorem Block.epochUp_red (b : Block) : b.epochUp.red = { b.red with epoch := (newerEpoch b.red.epoch b.red.pEpoch + 1) % 2 ^ 32 } := Block.setRedEpoch_red ..

/-- What a takeover leaves (R385, R388). -/
theorem Block.takeover_done {b : Block} (planned : Bool) (hmode : b.sys.mode ≠ .takeover) : (b.takeover planned).red.role = 4 ∧
    (b.takeover planned).sys.mode = .takeover ∧ (b.takeover planned).red.tkAt = some b.t7 ∧
    (b.takeover planned).red.epoch = (newerEpoch b.red.epoch b.red.pEpoch + 1) % 2 ^ 32 ∧ (b.takeover planned).red.byTakeover = !planned ∧
    (planned = false → b.counts (b.takeover planned) Reg.RED_TAKEOVERS) := by
  have hred := b.epochUp_red
  have hup := b.epochUp_touches
  unfold Block.takeover
  extract_lets src alm dark entered counted red
  have hdark : dark.red = { b.red with epoch := (newerEpoch b.red.epoch b.red.pEpoch + 1) % 2 ^ 32 } := hred
  have hdarkmode : dark.sys.mode = b.sys.mode := congrArg Sys.mode (hup.keeps .sys rfl)
  have hdarkt7 : dark.t7 = b.t7 := hup.keeps .t7 rfl
  have hdarkregs : Block.Alters [] b dark := (Block.Alters.refl.touched hup).of_regs
  clear_value dark
  obtain ⟨o, ho⟩ := (dark.setRole 4).setMode_onlySends .takeover 0
  have hentered : entered.red = { b.red with epoch := (newerEpoch b.red.epoch b.red.pEpoch + 1) % 2 ^ 32, role := 4, out := o } := by
    rw [show entered.red = _ from ho, Block.setRole_red, hdark]
  have hrolemode : (dark.setRole 4).sys.mode ≠ .takeover := by
    rw [(Block.setRole_touches dark 4).keeps .sys rfl, hdarkmode]
    exact hmode
  have hmoded : entered.sys.mode = .takeover := Block.setMode_mode _ _ hrolemode
  have ht7 : entered.t7 = b.t7 := ((Block.setMode_touches _ .takeover 0).keeps .t7 rfl).trans (((Block.setRole_touches dark 4).keeps .t7 rfl).trans hdarkt7)
  have hregs : Block.Alters modeRegs b entered := .trans (.trans (hdarkregs.mono) (Block.setRole_alters ..)) (Block.setMode_alters ..)
  clear_value entered
  have htold : Touches [.vis] entered ((entered.count Reg.RED_TAKEOVERS).irq Blk.red 2) := (Touches.refl.trans (Block.count_touches ..) rfl).trans (Block.irq_touches ..) rfl
  have hcounted : counted.red = entered.red ∧ counted.sys = entered.sys ∧ counted.t7 = entered.t7 := by
    unfold counted
    split
    · exact ⟨rfl, rfl, rfl⟩
    · exact ⟨htold.keeps .red rfl, htold.keeps .sys rfl, htold.keeps .t7 rfl⟩
  obtain ⟨hcred, hcsys, hct7⟩ := hcounted
  refine ⟨?_, ?_, ?_, ?_, rfl, fun hplanned => ?_⟩
  · show counted.red.role = 4
    rw [hcred, hentered]
  · show counted.sys.mode = .takeover
    rw [hcsys, hmoded]
  · show some counted.t7 = some b.t7
    rw [hct7, ht7]
  · show counted.red.epoch = _
    rw [hcred, hentered]
  · subst hplanned
    have hirq : Block.Alters fenceRegs (entered.count Reg.RED_TAKEOVERS) ((entered.count Reg.RED_TAKEOVERS).irq Blk.red 2) := .irq .refl (by decide)
    exact hregs.counts (l' := fenceRegs) (hirq.of_regs) (by decide) (by decide) (by decide) (by decide) (by decide)

section messages
variable {b : Block} {p : Nat} {x : RedMsg} (hon : b.redOn = true) (hable : b.redAble p = true) (hepoch : later 32 b.red.epoch x.epoch = false)
include hon hable hepoch

/-- What a partner that does not serve has heard. -/
theorem Block.heard_passive (hact : b.redActive = false) : (b.heard p x).redActive = false ∧ (b.heard p x).red.role = b.red.role ∧
    (b.heard p x).red.epoch = x.epoch ∧ (b.heard p x).red.pEpoch = x.epoch := by
  refine ⟨(Block.heard_redActive hon hable hepoch).trans hact, ?_⟩
  rw [Block.heard_red hon hable hepoch, hact]
  exact ⟨rfl, rfl, rfl⟩

theorem Block.failRx_takes (hact : b.redActive = false) (hrole : b.red.role = 2 ∨ b.red.role = 5) (hmode : b.sys.mode = .standby) (hx : x.role = 1) :
    b.failRx p x true = (b.heard p x).takeover false := by
  obtain ⟨hpassive, hsame, -, -⟩ := Block.heard_passive hon hable hepoch hact
  have hsys := (b.heard_same (p := p) (x := x)).2
  unfold Block.failRx
  rw [Block.redHear_accepts hon hable hepoch]
  dsimp only
  rw [if_neg (by decide), hpassive, if_neg (by decide)]
  exact if_pos ⟨by rwa [hsame], by rwa [hsys], hx⟩

end messages

/-- A role that does not serve. -/
theorem Block.redActive_of_role {b : Block} (h : b.red.role = 2 ∨ b.red.role = 5) : b.redActive = false := by
  unfold Block.redActive
  rcases h with h | h
  · simp [h]
  · simp [h]

theorem Block.takeoverTimeout_takes {b : Block} {l : List Nat} (hl : l = (b.redPath 0).renewAt.toList ++ (b.redPath 1).renewAt.toList) (hne : l ≠ [])
    (hlong : ∀ a ∈ l, a + 450000 ≤ b.t7) (hrole : b.red.role = 2 ∨ b.red.role = 5) (hmode : b.sys.mode = .standby) :
    b.takeoverTimeout = b.takeover false := by
  unfold Block.takeoverTimeout
  subst hl
  cases ha : (b.redPath 0).renewAt with
  | none =>
    cases hc : (b.redPath 1).renewAt with
    | none => simp [ha, hc] at hne
    | some c => exact if_pos ⟨hrole, hmode, hlong c (by simp [ha, hc])⟩
  | some a =>
    have hfirst := hlong a (by simp [ha])
    cases hc : (b.redPath 1).renewAt with
    | none => exact if_pos ⟨hrole, hmode, hfirst⟩
    | some c =>
      have hsecond := hlong c (by simp [hc])
      exact if_pos ⟨hrole, hmode, by omega⟩

/-- RELEASE makes the standby active; before that, a WARM start takes the publishers' stNum. -/
theorem Block.releaseRx_takes {b : Block} {p : Nat} {x : RedMsg} {l : List (Nat × Nat)} (hon : b.redOn = true) (hable : b.redAble p = true)
    (hepoch : later 32 b.red.epoch x.epoch = false) (hrole : b.red.role = 2 ∨ b.red.role = 5) (hmode : b.sys.mode = .standby) (hx : x.role = 1) :
    ∃ y, Touches [.alm] (b.heard p x) y ∧ b.releaseRx p x true l = y.takeover (!decide (b.red.role = 2)) := by
  obtain ⟨-, hsame, -, -⟩ := Block.heard_passive hon hable hepoch (Block.redActive_of_role hrole)
  have hsys := (b.heard_same (p := p) (x := x)).2
  unfold Block.releaseRx
  rw [Block.redHear_accepts hon hable hepoch]
  dsimp only
  rw [if_neg (by decide), if_neg (by simp [hsys, hmode, hx]), hsame]
  rcases hrole with hrole | hrole
  · rw [hrole, if_neg (by decide)]
    exact ⟨_, .refl, if_pos rfl⟩
  · rw [hrole]
    exact ⟨_, Touches.refl.fold (fun _ _ hy => hy.trans (Block.setPub_touches ..) rfl), if_pos rfl⟩

/-! ### Checkpoints (R391, R392) -/

/-- A frame of the delta in hand opens no other one. -/
theorem Block.ckptOpen_same {b : Block} {f : CkptFrame} (h : b.red.ckTag = some f.basin) : b.ckptOpen f = b := by
  simp [Block.ckptOpen, h]

/-- The items of a frame are applied outside the pair's own state. -/
theorem Block.ckptItems_red (b : Block) (l : List CkptItem) : (l.foldl Block.ckptItem b).red = b.red :=
  (Touches.refl.fold (l := [.vis, .com, .cells, .poison, .sys, .aln, .dfe, .str, .out, .rpl, .isl, .alm, .rad])
    (fun _ _ hx => hx.trans (Block.ckptItem_touches ..) rfl)).keeps .red rfl

/-- The last frame of a delta leaves the rings as they are. -/
theorem Block.ckptLast_aln (b : Block) (f : CkptFrame) : (b.ckptLast f).aln = b.aln := by
  unfold Block.ckptLast
  extract_lets src run valid counted done
  split
  · exact (Block.ckptGap_touches ..).keeps .aln rfl
  · have hdone : done.aln = b.aln := (Block.count_touches b ..).keeps .aln rfl
    have htold : Touches [.vis, .evr] done ((done.irq Blk.red 6).redEvent 0x1409) := (Touches.refl.trans (Block.irq_touches ..) rfl).trans (Block.event_touches ..) rfl
    split
    · exact (htold.keeps .aln rfl).trans hdone
    · exact hdone

/-- What the last frame of a delta leaves of the pair's state. -/
theorem Block.ckptLast_red (b : Block) (f : CkptFrame) : (b.ckptLast f).red = if b.red.ckWhole = false then { b.red with ckTag := none, image := false, ckRun := 0 }
    else { b.red with ckTag := none, ckLast := f.basin, ckRun := b.red.ckRun + 1, image := b.red.image || (!b.red.image && decide (16 ≤ b.red.ckRun + 1)) } := by
  unfold Block.ckptLast
  extract_lets src run valid counted done
  split
  · unfold Block.ckptGap
    rw [Block.imageInvalid_red, (Block.count_touches ..).keeps .red rfl]
  · have hdone : done.red = { b.red with ckTag := none, ckLast := f.basin, ckRun := run, image := b.red.image || valid } := rfl
    have htold : Touches [.vis, .evr] done ((done.irq Blk.red 6).redEvent 0x1409) := (Touches.refl.trans (Block.irq_touches ..) rfl).trans (Block.event_touches ..) rfl
    split
    · exact (htold.keeps .red rfl).trans hdone
    · exact hdone

/-- The block with the items of a frame of the delta in hand applied. -/
def Block.ckptTaken (b : Block) (f : CkptFrame) : Block :=
  let y := b.setRedEpoch f.epoch
  f.items.foldl Block.ckptItem { y with red := { y.red with ckWhole := b.red.ckWhole && f.offset == b.red.ckBytes, ckBytes := f.offset + f.length } }

theorem Block.ckptTaken_red (b : Block) (f : CkptFrame) : (b.ckptTaken f).red =
    { b.red with epoch := f.epoch, ckWhole := b.red.ckWhole && f.offset == b.red.ckBytes, ckBytes := f.offset + f.length } := by
  unfold Block.ckptTaken
  rw [Block.ckptItems_red]
  dsimp only
  rw [Block.setRedEpoch_red]

/-- A ring's item is in its place. -/
theorem Block.ckptTaken_ring (b : Block) {f : CkptFrame} {r q j : Nat} (h : f.items = [.ring r q j]) :
    ((b.ckptTaken f).ring r).nextSeq = q ∧ ((b.ckptTaken f).ring r).nextSlot = j := by
  unfold Block.ckptTaken
  rw [h]
  unfold Block.ring
  refine ⟨congrArg Ring.nextSeq (Tbl.get_put_same ..), congrArg Ring.nextSlot (Tbl.get_put_same ..)⟩

theorem Block.checkpointRx_takes {b : Block} {f : CkptFrame} (hon : b.redOn = true) (hable : b.redAble 0 = true) (hact : b.redActive = false)
    (hgood : f.good = true) (hcompat : f.compat = b.sys.pairCompat) (hepoch : later 32 b.red.epoch f.epoch = false) (htag : b.red.ckTag = some f.basin) :
    b.checkpointRx f = if f.last then (b.ckptTaken f).ckptLast f else b.ckptTaken f := by
  have hred := b.setRedEpoch_red f.epoch
  have hopen : (b.setRedEpoch f.epoch).ckptOpen f = b.setRedEpoch f.epoch := Block.ckptOpen_same (by rw [hred]; exact htag)
  unfold Block.checkpointRx Block.ckptTaken
  rw [if_neg (by simp [hon, hable, hact]), if_neg (by simp [hgood]), if_neg (by simp [hcompat]), if_neg (by simp [hepoch]), hopen]
  dsimp only
  rw [show (b.setRedEpoch f.epoch).red.ckWhole = b.red.ckWhole by rw [hred],
    show (b.setRedEpoch f.epoch).red.ckBytes = b.red.ckBytes by rw [hred]]

/-- What a frame of the delta in hand leaves. -/
theorem Block.checkpointRx_done {b : Block} {f : CkptFrame} (hon : b.redOn = true) (hable : b.redAble 0 = true) (hact : b.redActive = false)
    (hgood : f.good = true) (hcompat : f.compat = b.sys.pairCompat) (hepoch : later 32 b.red.epoch f.epoch = false) (htag : b.red.ckTag = some f.basin)
    {whole : Bool} (hwhole : whole = (b.red.ckWhole && f.offset == b.red.ckBytes)) :
    (b.checkpointRx f).red.epoch = f.epoch ∧ (if f.last = false then (b.checkpointRx f).red.ckTag = some f.basin ∧ (b.checkpointRx f).red.ckWhole = whole ∧
        (b.checkpointRx f).red.ckBytes = f.offset + f.length
      else (b.checkpointRx f).red.ckTag = none ∧ (whole = true → (b.checkpointRx f).red.ckLast = f.basin ∧ (b.checkpointRx f).red.ckRun = b.red.ckRun + 1 ∧
          (b.checkpointRx f).red.image = (b.red.image || decide (16 ≤ b.red.ckRun + 1))) ∧
        (whole = false → (b.checkpointRx f).red.image = false ∧ (b.checkpointRx f).red.ckRun = 0)) ∧
    ∀ r q j, f.items = [.ring r q j] → ((b.checkpointRx f).ring r).nextSeq = q ∧ ((b.checkpointRx f).ring r).nextSlot = j := by
  have hred := b.ckptTaken_red f
  have hring (r q j : Nat) (h : f.items = [.ring r q j]) := b.ckptTaken_ring h
  rw [Block.checkpointRx_takes hon hable hact hgood hcompat hepoch htag]
  generalize b.ckptTaken f = y at *
  rw [← hwhole] at hred
  cases f.last with
  | false =>
    rw [if_neg (by decide), if_pos rfl, hred]
    exact ⟨rfl, ⟨htag, rfl, rfl⟩, hring⟩
  | true =>
    have haln (r : Nat) : (y.ckptLast f).ring r = y.ring r := by
      unfold Block.ring
      rw [Block.ckptLast_aln]
    rw [if_pos rfl, if_neg (by decide), Block.ckptLast_red, hred]
    simp only [haln]
    cases whole with
    | false => exact ⟨rfl, ⟨rfl, nofun, fun _ => ⟨rfl, rfl⟩⟩, hring⟩
    | true =>
      refine ⟨rfl, ⟨rfl, fun _ => ⟨rfl, rfl, ?_⟩, nofun⟩, hring⟩
      cases b.red.image
      · rfl
      · rfl

/-! ### The end of the listen (R389) -/

/-- What a partner that becomes active at start-up leaves. -/
theorem Block.roleActive_done {b : Block} (solo : Bool) (hmode : b.sys.mode = .standby) (hcause : b.degradeCause = 0) :
    (b.roleActive solo).red.listenEnd = b.red.listenEnd ∧ (b.roleActive solo).red.role = 1 ∧
    (b.roleActive solo).sys.mode = (if (b.tb 0).st = .locked then .active else .holdover) ∧
    (b.roleActive solo).red.epoch = (newerEpoch b.red.epoch b.red.pEpoch + 1) % 2 ^ 32 ∧ (solo = true → (b.roleActive solo).red.solo = true) := by
  have hred := b.epochUp_red
  have hup := b.epochUp_touches
  unfold Block.roleActive
  rw [if_neg (by rw [hmode]; decide)]
  extract_lets src out alm red risen faced entered
  have hrisen : risen.red = { b.red with epoch := (newerEpoch b.red.epoch b.red.pEpoch + 1) % 2 ^ 32, byTakeover := false } :=
    congrArg (fun r : Red => { r with byTakeover := false }) hred
  have hrisensys : risen.sys = b.sys := hup.keeps .sys rfl
  have hrisentim : risen.tim = b.tim := hup.keeps .tim rfl
  clear_value risen
  have htold : Touches [.vis, .prt] (risen.setRole 1) faced := (Touches.refl.trans (Block.vmac_touches ..) rfl).trans (Block.announceAddresses_touches ..) rfl
  have hrole := Block.setRole_touches risen 1
  have hfaced : faced.red = { b.red with epoch := (newerEpoch b.red.epoch b.red.pEpoch + 1) % 2 ^ 32, byTakeover := false, role := 1 } := by
    rw [htold.keeps .red rfl, Block.setRole_red, hrisen]
  have hfacedsys : faced.sys = b.sys := (htold.keeps .sys rfl).trans ((hrole.keeps .sys rfl).trans hrisensys)
  have hfacedtb : faced.tb 0 = b.tb 0 := Block.tb_congr ((htold.keeps .tim rfl).trans ((hrole.keeps .tim rfl).trans hrisentim)) 0
  clear_value faced
  have hservice : faced.serviceMode = (if (b.tb 0).st = .locked then .active else .holdover) := by
    unfold Block.serviceMode
    rw [if_neg (by rw [Block.degradeCause_of_sys hfacedsys, hcause]; decide), hfacedtb]
  have hstands : faced.sys.mode ≠ faced.serviceMode := by
    rw [hfacedsys, hmode, hservice]
    split
    · decide
    · decide
  have hmoded := Block.setMode_mode faced faced.serviceCause hstands
  obtain ⟨o, ho⟩ := faced.setMode_onlySends faced.serviceMode faced.serviceCause
  have hstart := Block.ringsStart_touches (faced.setMode faced.serviceMode faced.serviceCause)
  have hentered : entered.red = { b.red with epoch := (newerEpoch b.red.epoch b.red.pEpoch + 1) % 2 ^ 32, byTakeover := false, role := 1, out := o } := by
    rw [show entered.red = _ from hstart.keeps .red rfl, ho, hfaced]
  have henteredmode : entered.sys.mode = (if (b.tb 0).st = .locked then .active else .holdover) := by
    rw [show entered.sys = _ from hstart.keeps .sys rfl, hmoded, hservice]
  clear_value entered
  have hserves : (if (b.tb 0).st = .locked then Mode.active else .holdover) ≠ .degraded := by
    split
    · decide
    · decide
  cases solo with
  | false =>
    rw [if_neg (by decide), Block.redYield_of_mode (henteredmode ▸ hserves), hentered]
    exact ⟨rfl, rfl, henteredmode, rfl, nofun⟩
  | true =>
    have hsys : entered.soloEnter.sys = entered.sys := (Block.soloEnter_touches ..).keeps .sys rfl
    obtain ⟨l, hl⟩ := entered.soloEnter_red
    rw [if_pos rfl, Block.redYield_of_mode (by rw [hsys, henteredmode]; exact hserves), hl, hentered, hsys]
    exact ⟨rfl, rfl, henteredmode, rfl, fun _ => rfl⟩

/-- The block with the listen over. -/
def Block.unlistened (b : Block) : Block := { b with red := { b.red with listenEnd := none } }

theorem Block.listenOver_eq {b : Block} {a : Nat} (hlisten : b.red.listenEnd = some a) (hrole : b.red.role = 0) (hmode : b.sys.mode = .standby) (hover : a ≤ b.t7) :
    b.listenOver = if b.red.heardRenew then b.unlistened.setRole 2 else if b.red.heardOther then b.unlistened.roleResolve else b.unlistened.roleActive true := by
  unfold Block.listenOver
  rw [hlisten]
  exact if_neg (by simp [hrole, hmode, hover])

/-- What the end of the listen leaves (R389). -/
theorem Block.listenOver_done {b : Block} {a : Nat} (hlisten : b.red.listenEnd = some a) (hrole : b.red.role = 0) (hmode : b.sys.mode = .standby) (hover : a ≤ b.t7)
    (hcause : b.degradeCause = 0) : b.listenOver.red.listenEnd = none ∧ (if b.red.heardRenew = true ∨ (b.red.heardOther = true ∧ b.redPreferred = false) then
        b.listenOver.red.role = 2 ∧ b.listenOver.sys.mode = .standby
      else b.listenOver.red.role = 1 ∧ b.listenOver.sys.mode = (if (b.tb 0).st = .locked then .active else .holdover) ∧
        b.listenOver.red.epoch = (newerEpoch b.red.epoch b.red.pEpoch + 1) % 2 ^ 32 ∧ (b.red.heardOther = false → b.listenOver.red.solo = true)) := by
  have hstandby (y : Block) (hy : y.red.listenEnd = none) (hm : y.sys.mode = .standby) :
      (y.setRole 2).red.listenEnd = none ∧ (y.setRole 2).red.role = 2 ∧ (y.setRole 2).sys.mode = .standby := by
    rw [Block.setRole_red, (Block.setRole_touches y 2).keeps .sys rfl]
    exact ⟨hy, rfl, hm⟩
  rw [Block.listenOver_eq hlisten hrole hmode hover]
  generalize hquiet : b.unlistened = y
  have hyred : y.red = { b.red with listenEnd := none } := hquiet ▸ rfl
  have hymode : y.sys.mode = .standby := hquiet ▸ hmode
  have hycause : y.degradeCause = 0 := hquiet ▸ hcause
  have hytb : y.tb 0 = b.tb 0 := hquiet ▸ rfl
  have hypref : y.redPreferred = b.redPreferred := hquiet ▸ rfl
  have hyend : y.red.listenEnd = none := congrArg Red.listenEnd hyred
  have hactive (solo : Bool) := y.roleActive_done solo hymode hycause
  rw [hyred, hytb] at hactive
  cases hrenew : b.red.heardRenew with
  | true =>
    rw [if_pos rfl, if_pos (.inl rfl)]
    exact hstandby y hyend hymode
  | false =>
    rw [if_neg (by decide)]
    cases hother : b.red.heardOther with
    | false =>
      obtain ⟨hnone, hone, hm, he, hsolo⟩ := hactive true
      rw [if_neg (by decide), if_neg (by simp)]
      exact ⟨hnone, hone, hm, he, fun _ => hsolo rfl⟩
    | true =>
      rw [if_pos rfl]
      unfold Block.roleResolve
      rw [hypref]
      cases hpref : b.redPreferred with
      | false =>
        rw [if_neg (by decide), if_pos (.inr ⟨rfl, rfl⟩)]
        exact hstandby y hyend hymode
      | true =>
        obtain ⟨hnone, hone, hm, he, -⟩ := hactive false
        rw [if_pos rfl, if_neg (by decide)]
        exact ⟨hnone, hone, hm, he, nofun⟩

/-! ### Planned handovers (R395, R396) -/

theorem Block.handoverStart_red (b : Block) : ∃ seq, b.handoverStart.red =
    { b.red with handover := some (slotAfter (b.ringRate 0) (b.now + 1999999) + 2, seq), holdSince := none } :=
  ⟨_, (Block.controlHandover_touches ..).keeps .red rfl⟩

theorem Block.handoverStart_done (b : Block) :
    b.handoverStart.red.handover.map (·.1) = some (slotAfter (b.ringRate 0) (b.now + 1999999) + 2) ∧ b.handoverStart.red.holdSince = none := by
  obtain ⟨seq, hseq⟩ := b.handoverStart_red
  rw [hseq]
  exact ⟨rfl, rfl⟩

theorem Block.controlRx_done {b : Block} {epoch slot seq : Nat} (hon : b.redOn = true) (hable : b.redAble 0 = true) (hrole : b.red.role = 2)
    (hepoch : later 32 b.red.epoch epoch = false) (hmode : b.sys.mode = .standby) :
    (b.controlRx epoch slot seq true).red.handover = some (slot, seq) ∧ (b.controlRx epoch slot seq true).red.epoch = epoch := by
  have hred := b.setRedEpoch_red epoch
  have hsys : (b.setRedEpoch epoch).sys = b.sys := (Block.setRedEpoch_touches ..).keeps .sys rfl
  unfold Block.controlRx
  rw [if_neg (by simp [hon, hable, Block.redActive_of_role (.inl hrole)]), if_neg (by decide), if_neg (by simp [hepoch]),
    if_pos ⟨by rw [hred]; exact hrole, by rw [hsys]; exact hmode⟩]
  exact ⟨rfl, congrArg Red.epoch hred⟩

theorem Block.maintAfter_onlySends (b : Block) : Block.OnlySends b b.maintAfter := by
  unfold Block.maintAfter
  split
  · exact .trans (b := { b with sys := { b.sys with maintWaits := false } }) (.of_same rfl) (Block.setMode_onlySends ..)
  · exact .refl

theorem Block.SameService.maintAfter {a b : Block} (h : Block.SameService a b) : Block.SameService a b.maintAfter :=
  .ite (.setMode h.of_parts) h

theorem Block.handoverStop_eq {b : Block} {a : Nat} (hstop : b.red.stopAt = some a) (hrole : b.red.role = 6) (hover : a ≤ b.now) :
    ∃ y : Block, y.out.halted = true ∧ y.red.stopAt = none ∧ b.handoverStop = (y.ringsStop.setRole 2).maintAfter := by
  unfold Block.handoverStop
  rw [hstop]
  exact ⟨_, rfl, rfl, if_neg (by simp [hrole, hover])⟩

/-- The old active has stopped output and stands by (Table 15.7, step 7). -/
theorem Block.handoverStop_done {b : Block} {a : Nat} (hstop : b.red.stopAt = some a) (hrole : b.red.role = 6) (hover : a ≤ b.now) :
    b.handoverStop.out.halted = true ∧ b.handoverStop.red.role = 2 ∧ b.handoverStop.red.stopAt = none := by
  obtain ⟨y, hhalted, hnone, heq⟩ := Block.handoverStop_eq hstop hrole hover
  have hsame : Block.SameService y (y.ringsStop.setRole 2).maintAfter := .maintAfter (.setRole (.ringsStop .refl))
  obtain ⟨o, ho⟩ := (y.ringsStop.setRole 2).maintAfter_onlySends
  rw [heq, ho, Block.setRole_red, (Block.ringsStop_touches y).keeps .red rfl]
  exact ⟨hsame.halted.trans hhalted, rfl, hnone⟩

end Sys2Proof.Machine
end

section
/-! PROOFS. The end of restore (O42). -/

/- One declaration after the other: the text is checked as one, with room for few threads. -/
set_option Elab.async false

namespace Sys2Proof.Machine

/-! ### Service kept by the closes of basins -/

section service
variable {a b : Block} (h : Block.SameService a b)
include h

theorem Block.SameService.evalDef {r seq d : Nat} : Block.SameService a (b.evalDef r seq d) := by
  have hset (y : AlmDef) : Block.SameService a (b.setDef d y) := h.of_parts
  have hitem {x : Block} (hx : Block.SameService a x) (kind st : Nat) : Block.SameService a (x.almItem d kind st r seq) := hx.touched (Block.almItem_touches ..)
  unfold Block.evalDef
  extract_lets x c vals inv invalid vs n raw can settle
  refine .ite (hset _) (.ite h.holdDef ?_)
  split
  extract_lets y stated resolved
  have hresolved : Block.SameService a resolved := .ite (.ite (hitem (hset y) _ _).event (.irq (.count (hitem (hset y) _ _)))) (hset y)
  clear_value resolved
  exact .ite (.touched (.event (.irq (.count (hitem hresolved _ _)))) (Block.capFire_touches ..)) (.ite (.event (.irq (hitem hresolved _ _)))
    (.ite (.event (hitem hresolved _ _)) hresolved))

theorem Block.SameService.almEvaluate {r : Nat} : Block.SameService a (b.almEvaluate r) := by
  unfold Block.almEvaluate
  split
  · exact .almDeliver (h.fold _ (fun _ _ hx => .ite hx.evalDef hx))
  · exact h

theorem Block.SameService.closeStart {r : Nat} {x : Basin} : Block.SameService a (b.closeStart r x) := by
  unfold Block.closeStart
  extract_lets tag dfe opened handed joined seeded offered evaluated
  have hopened : Block.SameService a opened := h.of_parts
  have hjoined : Block.SameService a joined := .ite (.touched (.touched hopened (Block.dfeHandover_touches ..)) (Block.rejoinCores_touches _)) (.touched hopened (Block.dfeHandover_touches ..))
  have hoffered : Block.SameService a offered := (hjoined.touched (Block.seedCarry_touches ..)).fold _ (fun _ _ hx => .ite (hx.touched (Block.offerToken_touches ..)) hx)
  have hevaluated : Block.SameService a evaluated := .almNote (b := { offered with alm := _ }) hoffered.of_parts
  exact .ite (hevaluated.touched (Block.islClose_touches ..)) hevaluated

theorem Block.SameService.closed {r : Nat} {x : Basin} : Block.SameService a (((b.closeStart r x).almEvaluate r).missSettle r) :=
  .touched h.closeStart.almEvaluate (Block.missSettle_touches ..)

theorem Block.SameService.freeFrom {r t : Nat} : Block.SameService a (b.freeFrom r t) := h.fold _ (fun _ _ hx => hx.freeBasin)

end service

/-- Output, pins and the causes of DEGRADED are as they were, and a restore that has ended has. -/
structure Block.KeepsService (a b : Block) : Prop where
  same : Block.SameService a b
  restored : a.red.tkAt = none → b.red.tkAt = none

section keeps
variable {a b c : Block}

theorem Block.KeepsService.refl : Block.KeepsService a a := ⟨.refl, id⟩

theorem Block.KeepsService.trans (h : Block.KeepsService a b) (k : Block.KeepsService b c) : Block.KeepsService a c :=
  ⟨h.same.trans k.same, fun hnone => k.restored (h.restored hnone)⟩

/-- What leaves the pair's state alone. -/
theorem Block.KeepsService.of_red (h : Block.KeepsService a b) (k : Block.SameService b c) (hred : c.red = b.red := by rfl) : Block.KeepsService a c :=
  h.trans ⟨k, fun hnone => (congrArg Red.tkAt hred).trans hnone⟩

theorem Block.KeepsService.touched {t : List Part} (h : Block.KeepsService a b) (k : Touches t b c) (ho : t.contains .out = false := by rfl)
    (ha : t.contains .alm = false := by rfl) (hs : t.contains .sys = false := by rfl) (hr : t.contains .red = false := by rfl) : Block.KeepsService a c :=
  h.of_red (.touched .refl k ho ha hs) (k.keeps .red hr)

theorem Block.KeepsService.sends (h : Block.KeepsService a b) (k : Block.SameService b c) (hred : Block.OnlySends b c) : Block.KeepsService a c := by
  obtain ⟨o, ho⟩ := hred
  exact h.trans ⟨k, fun hnone => (congrArg Red.tkAt ho).trans hnone⟩

theorem Block.KeepsService.ite {p : Prop} [Decidable p] (h : Block.KeepsService a b) (k : Block.KeepsService a c) :
    Block.KeepsService a (if p then b else c) := by
  split
  · exact h
  · exact k

end keeps

section closes
variable {a b : Block} (h : Block.KeepsService a b)
include h

theorem Block.KeepsService.closed {r : Nat} {x : Basin} : Block.KeepsService a (((b.closeStart r x).almEvaluate r).missSettle r) :=
  h.of_red (.closed .refl) (((Touches.refl.trans (l := [.free, .vis, .act, .com, .dirty, .resp, .rep, .poison, .evr, .aln, .que, .dfe, .prt, .out, .cas, .isl, .alm, .cap])
    (Block.closeStart_touches ..) rfl).trans (Block.almEvaluate_touches ..) rfl).trans (Block.missSettle_touches ..) rfl |>.keeps .red rfl)

theorem Block.KeepsService.ckptCut {seq : Nat} : Block.KeepsService a (b.ckptCut seq) :=
  h.trans ⟨.touched .refl (Block.ckptCut_touches ..), fun hnone => by
    unfold Block.ckptCut
    split
    · exact hnone
    · have hsent (body : List Byte) : Touches [.free, .vis, .prt] b (b.draw.2.mirrorSend 0 body) :=
        (Touches.refl.trans (Block.draw_touches b) rfl).trans (Block.mirrorSend_touches ..) rfl
      exact (congrArg Red.tkAt ((hsent _).keeps .red rfl)).trans hnone⟩

theorem Block.KeepsService.tagExpiry {r : Nat} : Block.KeepsService a (b.tagExpiry r) := by
  unfold Block.tagExpiry
  split
  · exact h
  · rename_i m _
    have hexpired : Block.KeepsService a (b.expireTag r m) := h.of_red (.expireTag .refl) ((Block.expireTag_touches ..).keeps .red rfl)
    extract_lets expired dfe erased cut y cleared
    have herased : Block.KeepsService a erased := .of_red hexpired (.of_parts .refl)
    have hcut : Block.KeepsService a cut := .ite herased.ckptCut herased
    have hcleared : Block.KeepsService a cleared := hcut.touched (Block.setRing_touches ..)
    clear_value cleared cut
    split
    · exact hcut
    · split
      · exact hcleared.closed
      · exact hcleared

theorem Block.KeepsService.analyse {r : Nat} {x : Basin} : Block.KeepsService a (b.analyse r x) := by
  have hexpired : Block.KeepsService a (b.tagExpiry r) := h.tagExpiry
  unfold Block.analyse
  extract_lets expired n late dfe marked
  have hmarked : Block.KeepsService a marked := .of_red hexpired (.of_parts .refl)
  exact .ite (Block.KeepsService.closed hexpired) (hmarked.touched (Block.setRing_touches ..))

end closes

/-- TAKEOVER left for full service. -/
theorem Block.leaveTakeover_keeps {b : Block} (hcause : b.degradeCause = 0) : Block.KeepsService b b.leaveTakeover := by
  unfold Block.leaveTakeover
  by_cases hmode : b.sys.mode = .takeover
  · rw [if_neg (by simp [hmode])]
    have hsys : (b.setRole 1).sys = b.sys := (Block.setRole_touches b 1).keeps .sys rfl
    have hrole : Block.KeepsService b (b.setRole 1) := ⟨.setRole .refl, fun hnone => by rw [Block.setRole_red]; exact hnone⟩
    have hservice : b.serviceMode ≠ .takeover ∧ b.serviceMode ≠ .degraded := by
      unfold Block.serviceMode
      rw [if_neg (by rw [hcause]; decide)]
      split
      · exact ⟨by decide, by decide⟩
      · exact ⟨by decide, by decide⟩
    obtain ⟨hleaves, hserves⟩ := hservice
    have hmoded : ((b.setRole 1).setMode b.serviceMode b.serviceCause).sys.mode = b.serviceMode :=
      Block.setMode_mode _ _ (by rw [hsys, hmode]; exact hleaves.symm)
    rw [Block.redYield_of_mode (by rw [hmoded]; exact hserves)]
    exact hrole.sends (.setMode .refl) (Block.setMode_onlySends ..)
  · rw [if_pos (by simp [hmode])]
    exact .refl

/-- A restore that has ended stays so where a handover is released. -/
theorem Block.redRelease_keeps (b : Block) (h : Nat) : Block.KeepsService b (b.redRelease h) := by
  unfold Block.redRelease
  extract_lets rate stop told alm silent counted ended freed stood red
  have htold : Block.SameService b told := .touched (.touched .refl (Block.redSendBoth_touches ..)) (Block.controlStNums_touches _)
  have hsilent : Block.SameService b silent := .touched (b := { told with alm := { told.alm with silenced := true } }) htold.of_parts (Block.vmac_touches ..)
  clear_value silent
  have htold : Touches [.vis, .evr] silent counted := ((Touches.refl.trans (Block.count_touches ..) rfl).trans (Block.irq_touches ..) rfl).trans (Block.event_touches ..) rfl
  have hcounted : Block.SameService b counted := hsilent.touched htold
  clear_value counted
  have hfreed : Block.SameService b freed := .freeFrom (.freeFrom (.endAnalysis (.endAnalysis hcounted)))
  clear_value freed
  have hstood : Block.SameService b stood := hfreed.toStandby
  obtain ⟨o, ho⟩ := freed.toStandby_red 6
  have hidle : stood.red.tkAt = none := by rw [show stood.red = _ from ho]; rfl
  exact ⟨.of_parts hstood, fun _ => hidle⟩

theorem Block.KeepsService.partClose {a b : Block} (h : Block.KeepsService a b) {r c : Nat} {x : Basin} : Block.KeepsService a (b.partClose r x c) :=
  h.touched (Block.partClose_touches ..)

/-- The basin of a planned handover passes its weir A. -/
theorem Block.KeepsService.handoverClosed {a b : Block} (h : Block.KeepsService a b) (hcause : a.degradeCause = 0) {r : Nat} {x : Basin} :
    Block.KeepsService a (b.handoverClosed r x) := by
  unfold Block.handoverClosed
  split
  · have hcleared : Block.KeepsService a ({ b with red := { b.red with handover := none } } : Block) := h.trans ⟨.of_parts .refl, id⟩
    exact .ite (hcleared.trans (Block.leaveTakeover_keeps (hcleared.same.cause.trans hcause))) h
  · exact h

theorem Block.KeepsService.closeA {a b : Block} (h : Block.KeepsService a b) (hcause : a.degradeCause = 0) {r p c : Nat} {flagged : Bool} :
    Block.KeepsService a (b.closeA r p c flagged) := by
  unfold Block.closeA
  extract_lets x y put ring timed parted shared analysed
  have htimed : Block.KeepsService a timed := (h.touched (Block.setBasin_touches ..)).touched (Block.setRing_touches ..)
  have hparted : Block.KeepsService a parted := .ite htimed htimed.partClose
  have hshared : Block.KeepsService a shared := .ite (hparted.touched (Block.partialA_touches ..)) hparted
  have hanalysed : Block.KeepsService a analysed := .ite (hshared.of_red (.almExpire .refl) ((Block.almExpire_touches ..).keeps .red rfl)) hshared.analyse
  exact hanalysed.handoverClosed hcause

theorem Block.KeepsService.tryA1 {a b : Block} (h : Block.KeepsService a b) (hcause : a.degradeCause = 0) {r p : Nat} : Block.KeepsService a (b.tryA1 r p) := by
  have hnoted : Block.KeepsService a (b.noteA r p) := h.touched (Block.noteA_touches ..)
  unfold Block.tryA1
  extract_lets noted x due
  split
  · exact hnoted
  · exact .ite hnoted (.ite (.ite hnoted (.touched (.touched hnoted (Block.setBasin_touches ..)) (Block.count_touches ..)))
      (.ite (hnoted.trans (Block.redRelease_keeps ..)) (hnoted.closeA hcause)))

theorem Block.KeepsService.tryA {a b : Block} (h : Block.KeepsService a b) (hcause : a.degradeCause = 0) {r p : Nat} : Block.KeepsService a (b.tryA r p) := by
  have htried : Block.KeepsService a (b.tryA1 r p) := h.tryA1 hcause
  unfold Block.tryA
  extract_lets tried
  refine .ite htried ?_
  split
  · exact htried.tryA1 hcause
  · exact htried

/-! ### The end of restore (R393) -/

/-- Output and pins served, the restore over, no cause of DEGRADED. -/
structure Block.Serves (b : Block) : Prop where
  restored : b.red.tkAt = none
  open_ : b.out.halted = false
  driven : b.alm.driven = true
  cause : b.degradeCause = 0

theorem Block.Serves.keeps {b c : Block} (h : Block.Serves b) (k : Block.KeepsService b c) : Block.Serves c :=
  ⟨k.restored h.restored, k.same.halted.trans h.open_, k.same.driven.trans h.driven, k.same.cause.trans h.cause⟩

theorem Block.takeService_serves {b : Block} (planned : Bool) (n : Nat) (hnone : b.red.tkAt = none) (hcause : b.degradeCause = 0) :
    Block.Serves (b.takeService planned n) := by
  have hfaced : Touches [.vis, .prt] b ((b.vmac true).announceAddresses) := (Touches.refl.trans (Block.vmac_touches ..) rfl).trans (Block.announceAddresses_touches ..) rfl
  unfold Block.takeService
  extract_lets faced out alm opened pinned q g drawn red gap
  have hopened : Block.Serves opened := ⟨(congrArg Red.tkAt (hfaced.keeps .red rfl)).trans hnone, rfl, rfl,
    (Block.degradeCause_of_sys (hfaced.keeps .sys rfl)).trans hcause⟩
  have hpins : pinned.red = opened.red := ((Touches.refl.trans (l := [.free, .vis, .rep, .prt, .out, .alm, .evr]) (Block.almPins_touches opened) rfl).trans
    (Block.almMode_touches _) rfl).keeps .red rfl
  clear_value opened
  have hpinned : Block.KeepsService opened pinned := .of_red .refl (.almMode (.almPins .refl)) hpins
  have hdrawn : Block.KeepsService opened drawn := hpinned.touched (Block.draw_touches pinned)
  clear_value drawn
  have hgap : Block.KeepsService opened gap := hdrawn.trans ⟨.of_parts .refl, id⟩
  clear_value gap
  exact hopened.keeps (.ite hgap (hgap.touched (Block.eventAt_touches ..)))

theorem Block.Serves.takeoverEnd {b : Block} (h : Block.Serves b) (n : Nat) : Block.Serves (b.takeoverEnd n) :=
  h.keeps (.ite (Block.leaveTakeover_keeps h.cause) .refl)

/-- The restore over, with no cause of DEGRADED: output and pins may wait. -/
structure Block.Restored (b : Block) : Prop where
  restored : b.red.tkAt = none
  cause : b.degradeCause = 0

theorem Block.restored_ended {b : Block} (r : Red) (h : b.degradeCause = 0) : Block.Restored { b with red := { r with tkAt := none } } := ⟨rfl, h⟩

section restored
variable {b c : Block} (h : Block.Restored b)
include h

theorem Block.Restored.keeps (k : Block.KeepsService b c) : Block.Restored c := ⟨k.restored h.restored, k.same.cause.trans h.cause⟩

theorem Block.Restored.touched {t : List Part} (k : Touches t b c) (hs : t.contains .sys = false := by rfl) (hr : t.contains .red = false := by rfl) :
    Block.Restored c := ⟨(congrArg Red.tkAt (k.keeps .red hr)).trans h.restored, (Block.degradeCause_of_sys (k.keeps .sys hs)).trans h.cause⟩

theorem Block.Restored.openFlagged {r : Nat} : Block.Restored (b.openFlagged r) := by
  unfold Block.openFlagged
  extract_lets p opened q v drawn
  have hdrawn : Block.Restored drawn := .touched (h.touched (Block.openBasin_touches ..)) (Block.draw_touches opened)
  exact hdrawn.keeps (.closeA .refl hdrawn.cause)

theorem Block.Restored.ringResume {r : Nat} {cold : Bool} : Block.Restored (b.ringResume r cold) := by
  unfold Block.ringResume
  extract_lets present n first y seq started red noted flagged
  have hpresent : Block.Restored present := .touched (b := (b.endAnalysis r).freeRing r) (.touched (h.touched (Block.endAnalysis_touches ..))
    (Block.freeRing_touches ..)) (Block.present_touches ..)
  clear_value present
  have hstarted : Block.Restored started := hpresent.touched (Block.setRing_touches ..)
  clear_value started
  have hnoted : Block.Restored noted := by
    unfold noted
    split
    · exact hstarted.keeps ⟨.of_parts .refl, id⟩
    · exact hstarted
  clear_value noted
  have hflagged : Block.Restored flagged := List.foldlRecOn _ _ hnoted (fun _ hx _ _ => hx.openFlagged)
  clear_value flagged
  split
  · exact h
  · exact .touched (hflagged.touched (Block.openBasin_touches ..)) (Block.openBasin_touches ..)

end restored

/-- A takeover restored, cold or from the image, serves. -/
theorem Block.restoreCold_serves {b : Block} (cold : Bool) (hcause : b.degradeCause = 0) : Block.Serves (b.restoreCold cold) := by
  unfold Block.restoreCold
  extract_lets begun red ended n resumed carried
  have hbegun : begun.sys = b.sys := by
    refine ((Block.newGen_touches _).keeps .sys rfl).trans ?_
    cases cold with
    | false => rfl
    | true => exact (Block.coldState_touches b).keeps .sys rfl
  have hended : Block.Restored ended := Block.restored_ended (b := begun) _ ((Block.degradeCause_of_sys hbegun).trans hcause)
  clear_value ended
  have hresumed : Block.Restored resumed := (hended.touched (Block.islRestart_touches _)).ringResume.ringResume
  have hcarried : Block.Restored carried := by
    cases cold with
    | false => exact hresumed.touched (Block.gapCarry_touches ..)
    | true => exact hresumed
  exact .takeoverEnd (Block.takeService_serves false n hcarried.restored hcarried.cause) n

/-- And one restored from the rings that run since a WARM start. -/
theorem Block.restoreWarm_serves {b : Block} (seq : Nat) (hcause : b.degradeCause = 0) : Block.Serves (b.restoreWarm seq) := by
  unfold Block.restoreWarm
  extract_lets begun red ended served
  have hended : Block.Restored ended := Block.restored_ended (b := begun) _ ((Block.degradeCause_of_sys ((Block.newGen_touches b).keeps .sys rfl)).trans hcause)
  clear_value ended
  have hcarried : Block.Restored (ended.gapCarry 0 seq) := hended.touched (Block.gapCarry_touches ..)
  have hserved : Block.Serves served := Block.takeService_serves true 0 hcarried.restored hcarried.cause
  clear_value served
  split
  · exact hserved.keeps (.tryA .refl hserved.cause)
  · exact hserved

theorem Block.restoreDone_serves {b : Block} (hrole : b.red.role = 4) (hmode : b.sys.mode = .takeover) (hat : b.red.tkAt.isSome = true) (hcause : b.degradeCause = 0) :
    Block.Serves b.restoreDone := by
  unfold Block.restoreDone
  rw [if_neg (by simp [hrole, hmode, Option.isSome_iff_ne_none.mp hat])]
  split
  · exact Block.restoreWarm_serves _ hcause
  · exact Block.restoreCold_serves _ hcause

/-! ### The statement -/

section takes
variable {b : Block} {p : Nat} {x : RedMsg} (hon : b.redOn = true) (hable : b.redAble p = true) (hepoch : later 32 b.red.epoch x.epoch = false)
include hon hable hepoch

/-- What a takeover leaves that a message of a partner not serving starts. -/
theorem Block.heard_takeover_done {y : Block} (hact : b.redActive = false) (hmode : b.sys.mode = .standby) (hy : Touches [.alm] (b.heard p x) y) (planned : Bool) :
    (y.takeover planned).red.role = 4 ∧ (y.takeover planned).sys.mode = .takeover ∧ (y.takeover planned).red.tkAt = some b.t7 ∧
    (y.takeover planned).red.epoch = (x.epoch + 1) % 2 ^ 32 ∧ (y.takeover planned).red.byTakeover = !planned := by
  obtain ⟨-, -, hepochs, hpartner⟩ := Block.heard_passive hon hable hepoch hact
  obtain ⟨ht7, hsys⟩ := b.heard_same (p := p) (x := x)
  have hred := hy.keeps .red rfl
  have hstands : y.sys.mode ≠ .takeover := by
    rw [hy.keeps .sys rfl, hsys, hmode]
    decide
  obtain ⟨hrole, hm, hat, he, hby, -⟩ := Block.takeover_done planned hstands
  refine ⟨hrole, hm, ?_, ?_, hby⟩
  · rw [hat, hy.keeps .t7 rfl, ht7]
  · rw [he, hred, hepochs, hpartner, newerEpoch_self]

end takes

/-- Settles O42: a takeover carries the newer epoch plus 1; checkpoints and the listen by their own steps; a restore ends with output and pins served,
since what the closes and the hand-over do to the mode leaves both as they are. -/
theorem partnersTakeOverAndHandOver : Obligations.PartnersTakeOverAndHandOver := by
  refine ⟨fun t p x s hp hon hable hepoch hact hrole hmode hx => ?_, fun t l s hl hne hlong hrole hmode => ?_,
    fun t p x l s hp hon hable hepoch hrole hmode hx => ?_, fun t f s hon hable hact hgood hcompat hepoch htag => ?_,
    fun t s hrole hmode hat hcause => ?_, fun t a s hlisten hrole hmode hover hcause => ?_, fun t m s hw => ?_, fun t a s hhold hok hover => ?_,
    fun t epoch slot seq s hon hable hrole hepoch hmode => ?_, fun t a s hstop hrole hover => ?_⟩
  · refine Completes.runIf (f := fun b => b.failRx p x true) rfl (decide_eq_true hp) ?_
    show _ ∧ _
    rw [show s.blk.clock t = s.at t from rfl, Block.failRx_takes (b := s.at t) hon hable hepoch hact hrole hmode hx]
    obtain ⟨h4, hm, hat, he, hby⟩ := Block.heard_takeover_done (b := s.at t) hon hable hepoch hact hmode .refl false
    have hregs := Block.heard_alters (b := s.at t) (p := p) hon hable hepoch
    have hstands : ((s.at t).heard p x).sys.mode ≠ .takeover := by
      rw [((s.at t).heard_same (p := p) (x := x)).2, show (s.at t).sys.mode = _ from hmode]
      decide
    obtain ⟨-, -, -, -, -, hcount⟩ := Block.takeover_done false hstands
    exact ⟨h4, hm, hat, he, hby, hregs.counts_after (by decide) (by decide) (by decide) (hcount rfl)⟩
  · refine Completes.run (f := Block.takeoverTimeout) rfl ?_
    rw [show s.blk.clock t = s.at t from rfl, Block.takeoverTimeout_takes (b := s.at t) hl hne hlong hrole hmode]
    have hstands : (s.at t).sys.mode ≠ .takeover := by
      rw [show (s.at t).sys.mode = _ from hmode]
      decide
    obtain ⟨h4, hm, hat, he, -, hcount⟩ := Block.takeover_done false hstands
    exact ⟨h4, hm, hat, he, hcount rfl⟩
  · refine Completes.runIf (f := fun b => b.releaseRx p x true l) rfl (decide_eq_true hp) ?_
    show _ ∧ _
    obtain ⟨y, hy, heq⟩ := Block.releaseRx_takes (b := s.at t) (l := l) hon hable hepoch hrole hmode hx
    rw [show s.blk.clock t = s.at t from rfl, heq]
    obtain ⟨h4, hm, hat, he, hby⟩ := Block.heard_takeover_done (b := s.at t) hon hable hepoch (Block.redActive_of_role hrole) hmode hy (!decide (s.blk.red.role = 2))
    exact ⟨h4, hm, hat, he, hby.trans (Bool.not_not _)⟩
  · exact Completes.run (f := fun b => b.checkpointRx f) rfl (Block.checkpointRx_done (b := s.at t) hon hable hact hgood hcompat hepoch htag rfl)
  · obtain ⟨hrestored, hopen, hdriven, -⟩ := Block.restoreDone_serves (b := s.at t) hrole hmode hat hcause
    exact Completes.run (f := Block.restoreDone) rfl ⟨hrestored, hopen, hdriven⟩
  · exact Completes.run (f := Block.listenOver) rfl (Block.listenOver_done (b := s.at t) hlisten hrole hmode hover hcause)
  · refine Completes.byGlobal Block.handoverCmd rfl hw (by decide) ?_
    have hans (y : Block) : Touches [.resp] y (y.answer m .written) := Block.answer_touches ..
    unfold Block.handoverCmd
    by_cases hok : (s.at t).handoverOk = true
    · rw [if_pos hok, if_pos hok, (hans _).keeps .red rfl]
      exact Block.handoverStart_done _
    · rw [if_neg hok, if_neg hok, (hans _).keeps .red rfl]
      have hregs : Block.Alters [] ((s.at t).count Reg.RED_HANDOVER_REFUSED) (((s.at t).count Reg.RED_HANDOVER_REFUSED).answer m .written) :=
        .touched .refl (hans _)
      have hplain : Block.Alters [] s.blk (s.at t) := .of_regs .refl
      exact ⟨hplain.counts hregs (by decide) (by decide) (by decide) (by decide) (by decide), (Block.count_touches (s.at t) ..).keeps .red rfl⟩
  · refine Completes.run (f := Block.failbackEnd) rfl ?_
    have heq : (s.at t).failbackEnd = (s.at t).handoverStart := by
      unfold Block.failbackEnd
      rw [show (s.at t).red.holdSince = some a from hhold]
      exact if_pos ⟨hok, hover⟩
    rw [show s.blk.clock t = s.at t from rfl, heq]
    exact Block.handoverStart_done _
  · exact Completes.run (f := fun b => b.controlRx epoch slot seq true) rfl (Block.controlRx_done (b := s.at t) hon hable hrole hepoch hmode)
  · exact Completes.run (f := Block.handoverStop) rfl (Block.handoverStop_done (b := s.at t) hstop hrole hover)

end Sys2Proof.Machine
end
